-- ==== Sys2Proof/Word.lean ====
section
/-! DEFINITION. The words of the Larnu L48 (R7, R10, R105) and their plainest arithmetic. -/

namespace Sys2Proof

/-- A register (R10): 32 bits. -/
abbrev Word := BitVec 32

/-- A 64-bit quantity: an instruction word (R105), a virtual address, global time (R9). -/
abbrev Word64 := BitVec 64

/-- A byte of memory. -/
abbrev Byte := BitVec 8

/-- A table keyed by natural numbers, keys strictly rising. -/
abbrev Tbl (α : Type) := List (Nat × α)

end Sys2Proof
end

