-- ==== Sys2Proof/Syntax.lean ====
section
/-! DEFINITION. The commands of the Larnu L48: one constructor for each row of spec/opcode_table.json, with what the row works on. -/

namespace Sys2Proof

/-- A group slot: physical core (R17), scheduler S0 to S3 and slot 0 to 15 (R68). -/
structure GRef where
  core  : Nat
  sched : Nat
  slot  : Nat
  deriving DecidableEq, Repr

/-- What an ECC check of a line finds (R415). -/
inductive EccResult where
  | clean
  | corrected
  | uncorrectable
  deriving DecidableEq, Repr

/-- The events that take an UP link down (R363). -/
inductive DownCause where
  /-- 16 consecutive flits are discarded. -/
  | discards
  /-- ACKSEQ makes no progress for 10 µs while the replay buffer holds a flit. -/
  | noProgress
  /-- Every lane of the width in use loses signal. -/
  | noSignal
  /-- A second wavelength fails in the half that remains. -/
  | secondWavelength
  deriving DecidableEq, Repr

/-- What a memory request from the host asks (R396, R397): a plain read or write, a write whose data is poisoned, an AtomicOp, and a request of a size other than 4 or 8 bytes or not aligned to its own size. Where a plain access is of 8 bytes, it is the two commands of its halves, lower first (R397). -/
inductive Tlp where
  | plain
  | poisoned
  | atomicOp
  | badSize
  | unaligned
  deriving DecidableEq, Repr

/-- What resets PF0 (R414). -/
inductive Pf0ResetCause where
  | flr
  | hotReset
  | linkDown
  deriving DecidableEq, Repr

/-- The two SPDM transports (R439). -/
inductive Transport where
  | doe
  | mctp
  deriving DecidableEq, Repr

/-- What a GET_MEASUREMENTS asks for (R440): a block's index, and the secured session that it arrives in, if any, with whether its AEAD check passes (R441, R458). -/
structure MeasAsk where
  index   : Nat
  session : Option Nat := none
  tagOk   : Bool := true
  deriving DecidableEq, Repr

/-- The vendor-defined messages of R409 and R439: IDE_KM and TDISP. -/
inductive VendorMsg where
  /-- IDE_KM: a key is programmed for a stream. -/
  | ideKeyProg (stream : Nat)
  /-- IDE_KM: a stream's keys go into use. -/
  | ideKeyGo (stream : Nat)
  /-- IDE_KM: a stream stops. -/
  | ideKeyStop (stream : Nat)
  /-- TDISP: START_INTERFACE of a virtual function. -/
  | tdispStart (vf : Nat)
  /-- TDISP: GET_DEVICE_INTERFACE_STATE of a virtual function. -/
  | tdispState (vf : Nat)
  deriving DecidableEq, Repr

/-- A firmware image (R452). -/
structure FwImage where
  svn  : BitVec 16
  body : List Byte
  sig  : List Byte
  deriving DecidableEq, Repr

/-- The units in whose arrays or buffers ENGINE_RETIRE reports an error (R415), with what it retires (R434, R435). -/
inductive UnitKind where
  | core
  | copyEngine
  | collective
  | digest
  /-- An error in a core's arrays that the code corrected (R415, R419). -/
  | coreCorrected
  /-- A parity error in a core's L1 (R415). -/
  | l1Parity
  /-- The buffers of a die's router (R415). -/
  | router
  /-- A link, or an optical engine with its four links, that the module finds failed (R395, R434, R435). -/
  | link
  | opticalEngine
  /-- A slot of the logbook's MRAM (R415, R517). -/
  | mram
  deriving DecidableEq, Repr

/-- A message of the fabric: the header of R367 and its data. -/
structure Msg where
  typ    : Nat
  vc     : Nat
  cls    : Nat
  trapx  : Bool
  dst    : Nat
  src    : Nat
  va     : Nat
  part   : Nat
  spart  : Nat
  epoch  : Nat
  tag    : Nat
  run    : Nat
  domain : Nat
  aux    : Word64
  data   : List Byte
  deriving DecidableEq, Repr

/-- A flit as the receiver's FEC, CRC and tag checks leave it (R360, R361): its header fields and the messages whose last chunk it holds. -/
structure Flit where
  /-- FTYPE: 0 idle, 1 data, 2 training. -/
  ftype     : Nat
  seq       : Nat
  kphase    : Bool
  ackSeq    : Nat
  nak       : Bool
  credits   : List Nat
  tx        : Word64
  echo      : Word64
  msgs      : List Msg
  corrected : Nat
  fecOk     : Bool
  crcOk     : Bool
  tagOk     : Bool
  deriving DecidableEq, Repr

/-- A tunnel frame of Ethernet mode (R393). -/
structure EthFrame where
  isData  : Bool
  ackOnly : Bool
  seq     : Nat
  ack     : Nat
  txcnt   : Nat
  credits : List Nat
  msgs    : List Msg
  tagOk   : Bool
  deriving DecidableEq, Repr

/-- The 265 rows of spec/opcode_table.json. A group instruction carries its group and its word; any other row carries what it names. Rows that name nothing stand last. -/
inductive Instr where
  /-- CTL_NOP (R113): The group issues ctl.nop, which does nothing. -/
  | ctlNop (g : GRef) (w : Word64)
  /-- CTL_EXIT (R113): The active, guard-true lanes exit and are removed from every reconvergence mask. -/
  | ctlExit (g : GRef) (w : Word64)
  /-- BAR_BLOCK (R95): The group completes a core-scope fence, arrives at the block barrier and waits in the pending set. -/
  | barBlock (g : GRef) (w : Word64)
  /-- BAR_CLUSTER (R95): The group completes a cluster-scope fence, arrives at the cluster barrier and waits in the pending set. -/
  | barCluster (g : GRef) (w : Word64)
  /-- BARRIER_OPEN (R97): The last group arrives, so the barrier opens, its waiters become ready and, for bar.cluster, L1 is invalidated. -/
  | barrierOpen (g : GRef)
  /-- CTL_JMP (R113): The whole group jumps to the address in a uniform pair. -/
  | ctlJmp (g : GRef) (w : Word64)
  /-- FENCE (R132): The group waits in the pending set until its earlier accesses are performed at the fence's scope. -/
  | fence (g : GRef) (w : Word64)
  /-- FENCE_COMPLETE (R238): A fence's wait ends; at cluster scope or wider the core's L1 data lines are invalidated. -/
  | fenceComplete (g : GRef)
  /-- CTL_RSR (R114): A special register is copied into a vector or uniform register, optionally clearing FPSTAT. -/
  | ctlRsr (g : GRef) (w : Word64)
  /-- BR (R113): A conditional or unconditional branch, handled as uniform or divergent. -/
  | br (g : GRef) (w : Word64)
  /-- BR_LINK (R113): The return address is written to u62:u63 and the group jumps to the target. -/
  | brLink (g : GRef) (w : Word64)
  /-- I32_OP (R116): A 32-bit integer arithmetic, logic, shift, bit-field or select instruction executes. -/
  | i32Op (g : GRef) (w : Word64)
  /-- I64_OP (R116): A 64-bit integer instruction executes on register pairs. -/
  | i64Op (g : GRef) (w : Word64)
  /-- INT_CMP (R117): i32.cmp or i64.cmp writes a predicate in each active lane. -/
  | intCmp (g : GRef) (w : Word64)
  /-- IMM_V (R111): A 32-bit immediate is written to a vector register. -/
  | immV (g : GRef) (w : Word64)
  /-- IMM_U (R110): A 32-bit immediate is written once to a uniform register. -/
  | immU (g : GRef) (w : Word64)
  /-- F32_OP (R119): An FP32 arithmetic, min/max or sign instruction executes and ORs its flags into FPSTAT. -/
  | f32Op (g : GRef) (w : Word64)
  /-- F64_OP (R119): An FP64 instruction executes on register pairs. -/
  | f64Op (g : GRef) (w : Word64)
  /-- H2_OP (R119): A packed FP16 or BF16 instruction executes on both halves. -/
  | h2Op (g : GRef) (w : Word64)
  /-- FP_CMP (R117): f32.cmp or f64.cmp writes a predicate and may raise invalid. -/
  | fpCmp (g : GRef) (w : Word64)
  /-- CNV (R121): A value is converted between the types named in the B field. -/
  | cnv (g : GRef) (w : Word64)
  /-- SF_OP (R122): A special-function instruction returns a fixed FP32 function of its operand. -/
  | sfOp (g : GRef) (w : Word64)
  /-- PR_OP (R118): A predicate instruction combines, negates or moves predicates. -/
  | prOp (g : GRef) (w : Word64)
  /-- GRP_SHFL (R93): Each active lane receives a register value from a source lane in its segment. -/
  | grpShfl (g : GRef) (w : Word64)
  /-- GRP_VOTE (R94): A predicate is evaluated across the participating lanes and the vote result is written. -/
  | grpVote (g : GRef) (w : Word64)
  /-- LD_LOCAL (R91): A local-store load is served in phases with bank-conflict replays. -/
  | ldLocal (g : GRef) (w : Word64)
  /-- ST_LOCAL (R91): A local-store store is performed at the core's local store. -/
  | stLocal (g : GRef) (w : Word64)
  /-- LD_GLOBAL (R227): A global load is issued, forwarded, served from L1 or sent to its home L2 slice. -/
  | ldGlobal (g : GRef) (w : Word64)
  /-- LOAD_DATA_RETURN (R77): Data of an outstanding load or atomic returns to the core and the waiting group becomes ready. -/
  | loadDataReturn (core id : Nat)
  /-- ST_GLOBAL (R126): A global store is checked against the output windows and entered in the store buffer. -/
  | stGlobal (g : GRef) (w : Word64)
  /-- PUSH_RESUME (R208): A push that waited for a free slot or for channel ownership proceeds. -/
  | pushResume (g : GRef)
  /-- STORE_BUFFER_DRAIN (R233): The oldest store-buffer entry leaves for its destination. -/
  | storeBufferDrain (g : GRef)
  /-- TRACKER_RELEASE (R235): An access is performed at partition scope and its address-range tracker entry is released. -/
  | trackerRelease (core id : Nat)
  /-- ZL_GLOBAL (R270): A 128-byte line is made zero at its home L2 slice without a fetch. -/
  | zlGlobal (g : GRef) (w : Word64)
  /-- LD_CLUSTER (R100): A load through a cluster window is sent to the target block's local store. -/
  | ldCluster (g : GRef) (w : Word64)
  /-- ST_CLUSTER (R100): A store through a cluster window is sent to the target block's local store. -/
  | stCluster (g : GRef) (w : Word64)
  /-- RMW_CLUSTER (R101): An atomic through a cluster window is performed at the target local store. -/
  | rmwCluster (g : GRef) (w : Word64)
  /-- CLUSTER_REQUEST_SERVE (R102): A target core serves a cluster-window request through its external port and sends the response. -/
  | clusterRequestServe (core id : Nat)
  /-- CLUSTER_RESPONSE (R102): A cluster-window response returns, frees its slot and readies the group. -/
  | clusterResponse (core id : Nat)
  /-- LD_REMOTE (R127): A remote read takes a read slot and is sent as an RD message. -/
  | ldRemote (g : GRef) (w : Word64)
  /-- ST_REMOTE (R127): A remote store is sent as WR messages when it issues. -/
  | stRemote (g : GRef) (w : Word64)
  /-- ST_REMOTE_FINAL (R127): A final remote write is deferred to commit, or held at source until earlier writes are acknowledged. -/
  | stRemoteFinal (g : GRef) (w : Word64)
  /-- RMW_LOCAL (R130): A local-space atomic is performed when it issues. -/
  | rmwLocal (g : GRef) (w : Word64)
  /-- RMW_GLOBAL (R130): A returning global or remote atomic is performed at issue in a non-preemptible launch, or raises DEFERRAL. -/
  | rmwGlobal (g : GRef) (w : Word64)
  /-- RMW_POST (R134): A posted global or remote atomic is entered in the commit queue, or performed at issue without pre-emption. -/
  | rmwPost (g : GRef) (w : Word64)
  /-- LL (R131): A word is loaded and a reservation is set on its granule. -/
  | ll (g : GRef) (w : Word64)
  /-- SC (R131): A conditional store succeeds only with an intact reservation and clears it. -/
  | sc (g : GRef) (w : Word64)
  /-- EV_REC (R135): An event record is deferred to commit or performed at issue. -/
  | evRec (g : GRef) (w : Word64)
  /-- SEM_REL (R135): A semaphore release is deferred to commit or performed at issue. -/
  | semRel (g : GRef) (w : Word64)
  /-- MX_HDL (R147): A tile handle is set from a descriptor or invalidated. -/
  | mxHdl (g : GRef) (w : Word64)
  /-- MX_FILL (R156): Units are copied from global or local memory into a handle. -/
  | mxFill (g : GRef) (w : Word64)
  /-- MX_FILL_COMPLETE (R178): A fill's last unit is written, so its handle becomes resident and its tracker entry is freed. -/
  | mxFillComplete (core id : Nat)
  /-- MX_LDB (R157): A B image is queued for loading into the stationary array. -/
  | mxLdb (g : GRef) (w : Word64)
  /-- MX_MMA (R158): A matrix multiply of M A rows against the stationary tile is queued. -/
  | mxMma (g : GRef) (w : Word64)
  /-- MX_CLR (R153): A tile is cleared and its anchor is set or left default-pending. -/
  | mxClr (g : GRef) (w : Word64)
  /-- MX_ADDRAW (R150): A raw image is added into a tile in anchored form. -/
  | mxAddraw (g : GRef) (w : Word64)
  /-- MX_DRAIN (R159): A tile drain to memory, local store or a handle is queued. -/
  | mxDrain (g : GRef) (w : Word64)
  /-- MX_STAT (R160): A tile's status, default-pending bit and anchor are written to a uniform register. -/
  | mxStat (g : GRef) (w : Word64)
  /-- MX_NEST (R161): A loop-nest table is read, checked and accepted for walking. -/
  | mxNest (g : GRef) (w : Word64)
  /-- MX_ENTRY_START (R170): The oldest queue entry starts once its resources are free. -/
  | mxEntryStart (core : Nat)
  /-- DRAIN_WRITE_PERFORMED (R172): A drain write reaches its home slice or local store; after the last, the tracker entry is released. -/
  | drainWritePerformed (core id : Nat)
  /-- NEST_OP_START (R185): An internal ldb, clear, mma or drain of a nest starts in its stream. -/
  | nestOpStart (core : Nat)
  /-- NEST_END (R186): A nest's last internal operation releases its resources and the nest ends. -/
  | nestEnd (core : Nat)
  /-- MX_OWNERSHIP_END (R163): The owner's groups have exited and its entries completed, so ownership ends and tile statuses are copied. -/
  | mxOwnershipEnd (core : Nat)
  /-- GROUP_ENTER_ACTIVE (R78): A ready group enters the active set when it has room. -/
  | groupEnterActive (core sched : Nat)
  /-- ACTIVE_SET_ROTATION (R79): A ready group has waited 64 beats, so the longest active group is swapped out. -/
  | activeSetRotation (core sched : Nat)
  /-- SPLIT_CHANGE (R85): A core with no resident blocks changes its local-store split and invalidates L1. -/
  | splitChange (core split : Nat)
  /-- BLOCK_PLACE (R223): The front end places the next block of a launch on an admitting core. -/
  | blockPlace (launch : Nat)
  /-- THIEF_START (R225): An idle core gets a thief block with half of a victim's claim range. -/
  | thiefStart (launch : Nat)
  /-- DB_TAIL_WRITE (R295): A doorbell write updates TAIL or halts the queue. -/
  | dbTailWrite (vf q : Nat) (v : Word64)
  /-- VF_QCFG_WRITE (R296): A queue configuration write is applied, or the enable is refused with CONFIG. -/
  | vfQcfgWrite (vf : Nat) (v : Word)
  /-- QCMD_RESET (R496): A queue reset withdraws waits, ends killable launches and clears the queue. -/
  | qcmdReset (vf : Nat)
  /-- QUEUE_RESET_END (R496): Once no launch of the queue remains, its positions and state are cleared. -/
  | queueResetEnd (part q : Nat)
  /-- QCMD_RESUME (R296): HALTED is cleared and fetching restarts at HEAD. -/
  | qcmdResume (vf : Nat)
  /-- QCMD_CLRFAIL (R296): The queue's failed state is cleared. -/
  | qcmdClrfail (vf : Nat)
  /-- PRELOAD (R315): The front end preloads the next entry and the first 4 KiB of its code. -/
  | preload (part q : Nat)
  /-- LAUNCH_ISSUE (R302): A launch whose conditions hold is issued after indirection, bucket selection and window checks. -/
  | launchIssue (part q : Nat)
  /-- EVENT_WAIT_EVALUATE (R311): A write to the watched line re-evaluates the wait, which may complete. -/
  | eventWaitEvaluate (launch : Nat)
  /-- EVENT_WAIT_TIMEOUT (R311): TLIMIT passes and the wait ends with TIMEOUT. -/
  | eventWaitTimeout (launch : Nat)
  /-- WATCH_SLOT_POLL (R312): A wait without a watch slot re-reads its word every 2 µs. -/
  | watchSlotPoll (launch : Nat)
  /-- SEM_ACQUIRE_TIMEOUT (R313): An acquire not satisfied within TLIMIT ends with SEM_TIMEOUT. -/
  | semAcquireTimeout (launch : Nat)
  /-- SEMA_SLIMIT_TIMEOUT (R314): A launch's SEMA0 and SEMA1 are not acquired within SLIMIT. -/
  | semaSlimitTimeout (launch : Nat)
  /-- LAUNCH_TLIMIT_TIMEOUT (R300): A launch exceeds its GT limit and ends with TIMEOUT. -/
  | launchTlimitTimeout (launch : Nat)
  /-- LAUNCH_COMPLETE (R305): A launch completes; its record is written, DONE advances and any IRQ is raised. -/
  | launchComplete (launch : Nat)
  /-- ROUTE_RECORD (R320): COUNT source entries are stored as a new version of a route. -/
  | routeRecord (vf route : Nat)
  /-- ROUTE_PATCH (R320): A new version is stored with a range of entries replaced. -/
  | routePatch (vf route index : Nat)
  /-- ROUTE_DELETE (R320): A route is undefined for later calls. -/
  | routeDelete (vf route : Nat)
  /-- ROUTE_CMD_COMPLETE (R321): A route command ends, BUSY clears and the new version becomes current. -/
  | routeCmdComplete (part : Nat)
  /-- WATCH_GRANT (R327): A free watch goes to the queue that has wanted one longest. -/
  | watchGrant (part : Nat)
  /-- WATCH_RELEASE (R328): A holder with no launch in progress releases its watch. -/
  | watchRelease (part q : Nat)
  /-- WATCH_EXPIRY (R329): A watch reaches WATCHUS and ends with kills or is renewed. -/
  | watchExpiry (part q : Nat)
  /-- KILL_COMPLETE (R337): The killed launch's resources are released and it awaits re-run. -/
  | killComplete (launch : Nat)
  /-- RT_QUEUE_ACTIVE (R333): A real-time queue becomes active and kills launches on its reserve. -/
  | rtQueueActive (part q : Nat)
  /-- COMMIT_CONTEXT_TAKE (R347): A ready launch takes a commit context, seals and becomes unkillable. -/
  | commitContextTake (die : Nat)
  /-- COMMIT_SETTLE_END (R348): All non-deferred writes are performed at system scope and settle ends. -/
  | commitSettleEnd (launch : Nat)
  /-- SETTLE_LIMIT_EXPIRY (R349): Settle reaches its 151 µs limit and the launch ends with TIMEOUT. -/
  | settleLimitExpiry (launch : Nat)
  /-- COMMIT_ENTRY_SEND (R350): The commit engine sends the next entry of a launch in perform. -/
  | commitEntrySend (die : Nat)
  /-- COMMIT_ENTRY_ACK (R350): An entry is acknowledged or refused; the last one closes the commit. -/
  | commitEntryAck (launch idx : Nat) (ok : Bool)
  /-- COMMIT_PERFORM_LIMIT (R351): Perform reaches its limit; unperformed entries are counted unconfirmed. -/
  | commitPerformLimit (launch : Nat)
  /-- CHART_LOAD (R216): The image at CHART_SRC is read, verified and checked. -/
  | chartLoad (store : Bool)
  /-- CHART_LOAD_COMPLETE (R217): The check ends; the image is rejected, applied or staged, and RESULT is set. -/
  | chartLoadComplete (image : Option (List Byte))
  /-- CHART_ACTIVATE (R220): A staged partition chart starts activating, or resets the partition. -/
  | chartActivate (part : Nat)
  /-- ACTIVATION_COMPLETE (R220): After the running launches commit, the new stages take effect and issue resumes. -/
  | activationComplete (part : Nat)
  /-- CHART_DISCARD (R216): The staged chart of a partition is discarded. -/
  | chartDiscard (part : Nat)
  /-- PART_TLBINV_WRITE (R265): An invalidation of the partition's cached translations starts. -/
  | partTlbinvWrite (part : Nat)
  /-- TLB_INVALIDATION_DONE (R265): No old translation remains in use and INV clears. -/
  | tlbInvalidationDone (part : Nat)
  /-- L2_CORRECTABLE_ERROR (R272): A correctable error in an L2 way is counted and stamped. -/
  | l2CorrectableError (die slice way : Nat)
  /-- L2_WAY_DISABLE (R273): A way reaches its error threshold and leaves service. -/
  | l2WayDisable (die way : Nat)
  /-- L2_UNCORRECTABLE_ERROR (R273): An uncorrectable error disables its way at once and poisons modified lines. -/
  | l2UncorrectableError (die way : Nat)
  /-- HBM_REQUEST_SERVE (R275): A channel controller serves the highest-ranked ready request. -/
  | hbmRequestServe (ch : Nat) (err : EccResult)
  /-- LCR_PERIOD_START (R276): A new 1 µs period restores rank 2 to LCR reads. -/
  | lcrPeriodStart (ch : Nat)
  /-- LCR_CAP_REACHED (R276): LCR reads reach the cap share and drop to rank 3 for the period. -/
  | lcrCapReached (ch : Nat)
  /-- STARVATION_PROMOTE (R277): A lower-class request waits 20 µs and takes rank 2. -/
  | starvationPromote (ch idx : Nat)
  /-- WRITE_QUEUE_HIGH (R277): The write queue reaches 48 entries and writes take rank 3. -/
  | writeQueueHigh (ch : Nat)
  /-- WRITE_QUEUE_LOW (R277): The write queue falls to 16 entries and writes return to rank 4. -/
  | writeQueueLow (ch : Nat)
  /-- HBM_REFRESH (R278): A per-bank refresh falls due and is performed or postponed. -/
  | hbmRefresh (ch bank : Nat)
  /-- PATROL_SCRUB_READ (R279): The next line is scrubbed, corrected or logged. -/
  | patrolScrubRead (ch : Nat) (err : EccResult)
  /-- CALIBRATION_DUE (R280): PHY calibration falls due and waits for no pending LCR read. -/
  | calibrationDue (ch : Nat)
  /-- CALIBRATION_FORCED (R280): Calibration reaches 4 ms after due and runs whatever is pending. -/
  | calibrationForced (ch : Nat)
  /-- CALIBRATION_END (R280): Calibration completes and the channel resumes by rank. -/
  | calibrationEnd (ch : Nat)
  /-- TELEMETRY_READ (R281): Stack temperature and error counts are read into snapshot registers. -/
  | telemetryRead (stack temp : Nat)
  /-- CHANNEL_RETIRE (R434): A channel reaches its error or training threshold and is retired. -/
  | channelRetire (ch : Nat)
  /-- HBM_TG_START (R283): A traffic-generator run starts, or is refused. -/
  | hbmTgStart (ch : Nat)
  /-- HBM_TG_STOP (R285): The generator stops after the current line. -/
  | hbmTgStop (ch : Nat)
  /-- HBM_TG_RUN_END (R285): The run ends after its passes or a miscompare and DONE is set. -/
  | hbmTgRunEnd (ch : Nat)
  /-- COPY_REQUEST (R288): A copy engine issues the next 4 KiB of a copy launch. -/
  | copyRequest (engine : Nat)
  /-- COPY_REQUEST_COMPLETE (R291): A copy request completes or fails, ending the launch if last or failed. -/
  | copyRequestComplete (engine id : Nat) (fail : Option Byte)
  /-- D2D_LINK_FAIL (R27): A die-to-die link fails and traffic is rerouted round the ring. -/
  | d2dLinkFail (n : Nat)
  /-- LNK_ENABLE_SET (R365): ENABLE is set and the link begins training once its engine lamp is lit. -/
  | lnkEnableSet (link : Nat)
  /-- LNK_ENABLE_CLEAR (R366): ENABLE is cleared and the link goes to DISABLED as though down. -/
  | lnkEnableClear (link : Nat)
  /-- LNK_RETRAIN (R366): The link is taken down and retrained. -/
  | lnkRetrain (link : Nat)
  /-- LNK_LOCK (R366): The RWL fields of the link block are locked until module reset. -/
  | lnkLock (link : Nat)
  /-- LINK_LIGHT_CHECK (R365): Feed power is checked and the link moves to TRAIN or stays. -/
  | linkLightCheck (link : Nat) (feed signal : Byte)
  /-- LINK_TRAIN_DONE (R365): Every lane reaches the error ratio and the link moves to ALIGN. -/
  | linkTrainDone (link : Nat)
  /-- LINK_ALIGN_DONE (R488): An aligned link with SECROOT and CHART lit moves to SECURE. -/
  | linkAlignDone (link : Nat)
  /-- LINK_SECURE_DONE (R387): Keys are agreed and the link moves to INIT, or the peer is refused. -/
  | linkSecureDone (link : Nat) (peerOwner : BitVec 384) (sigOk : Bool)
  /-- LINK_INIT_DONE (R365): IDs and credits are exchanged and the link comes UP. -/
  | linkInitDone (link peerId peerLink : Nat) (credits : List Nat)
  /-- LINK_PHASE_TIMEOUT (R365): A training state exceeds its bound and the attempt fails. -/
  | linkPhaseTimeout (link : Nat)
  /-- LINK_DOWN (R363): An UP link goes down and starts its link-state query. -/
  | linkDown (link : Nat) (cause : DownCause)
  /-- LINK_RECOVER_END (R365): RECOVER ends at half width in UP, or in FAILED. -/
  | linkRecoverEnd (link : Nat) (ok : Bool)
  /-- LINK_RETRY_TIMER (R365): A FAILED link retries training every 1 s. -/
  | linkRetryTimer (link : Nat)
  /-- WAVELENGTH_FAIL (R359): A wavelength stays below minimum for 100 µs and counts as failed. -/
  | wavelengthFail (link lambda : Nat)
  /-- LINK_STATE_ANSWER_TIMEOUT (R363): No link-state answer within 1 ms, so unacknowledged messages are lost. -/
  | linkStateAnswerTimeout (link : Nat)
  /-- FLIT_SLOT (R361): The transmitter sends a data or idle flit in a flit slot. -/
  | flitSlot (link : Nat)
  /-- FLIT_RECEIVE (R361): A flit is received, checked and accepted or discarded. -/
  | flitReceive (link : Nat) (f : Flit)
  /-- TAG_FAILURE_LIMIT (R388): Eight tag failures within 1 ms take the link to FAILED. -/
  | tagFailureLimit (link : Nat)
  /-- KEY_ROLLOVER (R388): After 2^32 flit slots the transmitter switches keys by inverting KPHASE. -/
  | keyRollover (link : Nat)
  /-- MESSAGE_TRANSMIT (R370): A router sends the next message that has credit, chosen by VC. -/
  | messageTransmit (link : Nat)
  /-- RD (R378): A remote read request is received, checked and answered. -/
  | rd (link : Nat) (m : Msg)
  /-- WR (R378): A remote write is received, performed and acknowledged. -/
  | wr (link : Nat) (m : Msg)
  /-- WRF (R378): A final remote write is received, performed and acknowledged. -/
  | wrf (link : Nat) (m : Msg)
  /-- ATOM (R378): A remote atomic is performed at the home slice and answered. -/
  | atom (link : Nat) (m : Msg)
  /-- CONTRIB (R384): A collective contribution is checked, added or dropped as a duplicate. -/
  | contrib (link : Nat) (m : Msg)
  /-- RDRSP (R368): Read data returns to the requester, or is discarded if from a killed run. -/
  | rdrsp (link : Nat) (m : Msg)
  /-- ACK (R368): An acknowledgement is received for a write or request. -/
  | ack (link : Nat) (m : Msg)
  /-- ATOMRSP (R368): The old value of a remote atomic returns. -/
  | atomrsp (link : Nat) (m : Msg)
  /-- NACK (R368): A refusal is received and raises REMOTE_REFUSED. -/
  | nack (link : Nat) (m : Msg)
  /-- TIME (R390): A grandmaster announcement updates grandmaster and parent choice. -/
  | time (link : Nat) (m : Msg)
  /-- BEACON (R431): A received beacon is kept, dropped or compared. -/
  | beacon (link : Nat) (m : Msg)
  /-- LSTATE (R375): A link-state query or answer is received. -/
  | lstate (link : Nat) (m : Msg)
  /-- KEYX (R387): A key-agreement message is received. -/
  | keyx (link : Nat) (m : Msg)
  /-- REMOTE_RESPONSE_TIMEOUT (R364): A remote read or atomic gets no response in 2 ms and is refused LOST. -/
  | remoteResponseTimeout (die slot : Nat)
  /-- ETH_FRAME_RECEIVE (R393): An Ethernet-mode frame is received on a tunnel. -/
  | ethFrameReceive (link tunnel : Nat) (f : EthFrame)
  /-- TUNNEL_RESEND_TIMEOUT (R394): A frame unacknowledged for 50 µs is resent with the frames after it. -/
  | tunnelResendTimeout (link tunnel : Nat)
  /-- TUNNEL_DOWN (R394): A tunnel with no progress for 10 ms goes down. -/
  | tunnelDown (link tunnel : Nat)
  /-- VF_CARM_ARM (R383): A slot's descriptor is read, the slot is cleared and round 1 opens. -/
  | vfCarmArm (vf slot : Nat)
  /-- VF_CARM_DISARM (R383): A slot is closed and its partial sums are discarded. -/
  | vfCarmDisarm (vf slot : Nat)
  /-- BAR2_ACCESS (R404): A VF BAR2 access is translated and performed, or refused. -/
  | bar2Access (vf off size : Nat) (data : Option (List Byte)) (tlp : Tlp)
  /-- PF0_BAR2_ACCESS (R400): A PF0 access reaches a reserved-region table area. -/
  | pf0Bar2Access (off size : Nat) (data : Option (List Byte)) (tlp : Tlp)
  /-- MSIX_UNMASK (R408): A vector is unmasked and its pending message is sent. -/
  | msixUnmask (fn vec : Nat)
  /-- FLR (R412): A function-level reset of a virtual function refuses accesses and resets its partition. -/
  | flr (vf : Nat)
  /-- FLR_REKEY (R412): The partition's key slot receives a fresh key. -/
  | flrRekey (vf : Nat)
  /-- FLR_COMPLETE (R412): The function's configuration returns to reset and it accepts requests. -/
  | flrComplete (vf : Nat)
  /-- VF_REMOVE (R413): Virtual functions are removed and their partitions reset. -/
  | vfRemove (numVFs : Nat)
  /-- PF0_RESET (R414): A PF0 FLR, hot reset or link-down clears VF Enable and PF0 state. -/
  | pf0Reset (cause : Pf0ResetCause)
  /-- IDE_UNCOVERED_TLP (R409): A TLP without IDE cover is refused and moves the TDI to ERROR. -/
  | ideUncoveredTlp (vf : Nat) (posted : Bool)
  /-- LOCK_INTERFACE (R457): TDISP LOCK_INTERFACE locks the partition's TDI if permitted. -/
  | lockInterface (vf session : Nat) (tagOk : Bool)
  /-- STOP_INTERFACE (R411): TDISP STOP_INTERFACE returns the TDI to CONFIG_UNLOCKED and resets the partition. -/
  | stopInterface (vf session : Nat) (tagOk : Bool)
  /-- GET_DEVICE_INTERFACE_REPORT (R457): The interface report with the device-specific area is returned. -/
  | getDeviceInterfaceReport (vf session : Nat) (tagOk : Bool)
  /-- GET_VERSION (R439): SPDM GET_VERSION is answered. -/
  | getVersion (t : Transport)
  /-- GET_CAPABILITIES (R439): SPDM GET_CAPABILITIES is answered. -/
  | getCapabilities (t : Transport)
  /-- NEGOTIATE_ALGORITHMS (R439): SPDM algorithms are negotiated to the fixed set. -/
  | negotiateAlgorithms (t : Transport)
  /-- GET_DIGESTS (R439): SPDM certificate-chain digests are returned. -/
  | getDigests (t : Transport)
  /-- GET_CERTIFICATE (R439): The slot 0 certificate chain is returned. -/
  | getCertificate (t : Transport) (slot off len : Nat)
  /-- CHALLENGE (R439): An SPDM challenge is answered with a signature. -/
  | challenge (t : Transport) (slot : Nat) (nonce : BitVec 256)
  /-- GET_MEASUREMENTS (R440): The measurement blocks are returned, signed by the Alias key. -/
  | getMeasurements (t : Transport) (ask : MeasAsk) (signed : Bool) (nonce : BitVec 256)
  /-- KEY_EXCHANGE (R439): A secured session key exchange begins. -/
  | keyExchange (t : Transport) (session : Nat) (peer : List Byte)
  /-- FINISH (R439): A secured session handshake finishes. -/
  | finish (t : Transport) (session : Nat) (ok : Bool)
  /-- HEARTBEAT (R439): A session heartbeat is answered. -/
  | heartbeat (t : Transport) (session : Nat) (tagOk : Bool)
  /-- KEY_UPDATE (R439): Session keys are updated. -/
  | keyUpdate (t : Transport) (session : Nat) (tagOk : Bool)
  /-- END_SESSION (R439): A secured session ends. -/
  | endSession (t : Transport) (session : Nat) (tagOk : Bool)
  /-- VENDOR_DEFINED (R409): An IDE_KM or TDISP vendor-defined message is handled. -/
  | vendorDefined (t : Transport) (session : Nat) (tagOk : Bool) (m : VendorMsg)
  /-- FW_STAGE (R452): A firmware image is verified and written to SPI NOR. -/
  | fwStage (image : Option FwImage)
  /-- PRESENCE_SAMPLE (R443): The presence contacts are sampled and the state machine advances. -/
  | presenceSample (a b : Bool)
  /-- PRESENCE_FAULT (R443): The 51st disagreeing sample is a presence fault. -/
  | presenceFault (a : Bool)
  /-- TAMPER_SAMPLE (R445): The tamper loop is sampled. -/
  | tamperSample (isOpen : Bool)
  /-- POWER_LOOP_UPDATE (R472): Every 1 ms the loop adjusts rail voltages and loop caps against the budget. -/
  | powerLoopUpdate (sampleW : Nat) (rails : List (Nat × Nat))
  /-- FAST_CLAMP (R473): A power excursion caps every core at 4,096 units for 10 ms. -/
  | fastClamp (spikeW : Nat)
  /-- GOVERNOR_CAP_TAKE_HOLD (R467): A new effective cap takes hold at a beat boundary. -/
  | governorCapTakeHold (core : Nat)
  /-- THERMAL_READ (R474): The junction sensors are read and HOT states updated. -/
  | thermalRead (domain : Nat) (sensors : List Nat)
  /-- COOLANT_SAMPLE (R478): The coolant inputs are sampled and filtered, and D and L are updated. -/
  | coolantSample (aOk bOk : Bool)
  /-- AGEING_EVALUATION (R469): The ageing monitor may lower a core's ceiling. -/
  | ageingEvaluation (core drop : Nat)
  /-- SEXTANT_UPDATE (R463): Every 1,024 ns each core's measured rate is updated. -/
  | sextantUpdate (core rate : Nat)
  /-- VIN_MAIN_OUT_OF_RANGE (R526): A 50 µs mean outside range holds the module in reset. -/
  | vinMainOutOfRange (meanMv : Nat)
  /-- PERST_N_ASSERT (R533): A low of 10 µs or more on PERST_N begins a module reset. -/
  | perstNAssert (lowNs : Nat)
  /-- LAMP_LIGHT (R487): A function becomes ready and lights its lamp. -/
  | lampLight (lamp : Nat)
  /-- LAMP_TIMEOUT (R488): A function misses its latest time and stays dark. -/
  | lampTimeout (lamp : Nat)
  /-- RIM_DIERST_WRITE (R493): A die is reset and restarts as at start-up. -/
  | rimDierstWrite (v : Word)
  /-- PART_RST_WRITE (R492): A partition reset begins and the partition stops. -/
  | partRstWrite (part : Nat)
  /-- PART_RESET_EPOCH (R492): After commits end, EPOCH rises and issued launches are ended. -/
  | partResetEpoch (part : Nat)
  /-- PART_RESET_SETTLE (R494): Shared engines settle the old epoch and records are written. -/
  | partResetSettle (part : Nat)
  /-- PART_RESET_REMOTE_DONE (R492): Every old-epoch remote request is settled. -/
  | partResetRemoteDone (part : Nat)
  /-- PART_RESET_END (R495): Partition state is cleared, RESETTING clears and the lamp may relight. -/
  | partResetEnd (part : Nat)
  /-- CORE_STALL_RETIRE (R434): A stalled stage for 1 ms retires its core. -/
  | coreStallRetire (core : Nat)
  /-- ENGINE_RETIRE (R434): A second uncorrectable error retires a core or engine. -/
  | engineRetire (u : UnitKind) (n : Nat)
  /-- DIG_SWCTRL_ENABLE (R423): Setting ENABLE clears the pass count and starts a sweep pass. -/
  | digSwctrlEnable (part : Nat)
  /-- DIG_SWCTRL_DISABLE (R423): Clearing ENABLE abandons the running pass. -/
  | digSwctrlDisable (part : Nat)
  /-- SWEEP_LINE_READ (R421): The digest engine reads the next swept line and folds it. -/
  | sweepLineRead (part : Nat)
  /-- SWEEP_PASS_END (R421): A pass completes; the digests are stored and the next pass starts. -/
  | sweepPassEnd (part : Nat)
  /-- SWEEP_RESTART (R422): 1 ms after an abort a new pass starts. -/
  | sweepRestart (part : Nat)
  /-- BEACON_BUILD (R429): A step-word record at a multiple of B builds and sends a beacon. -/
  | beaconBuild (part : Nat)
  /-- HANG_CHECK (R509): Every 1 ms issued launches are checked for progress. -/
  | hangCheck (die : Nat)
  /-- HANG_SNAPSHOT (R510): A hung launch is stopped and its snapshot is written. -/
  | hangSnapshot (launch : Nat)
  /-- HANG_DUMP (R512): A dump of the hung launch's cores is written. -/
  | hangDump (launch : Nat)
  /-- HANG_END (R510): The hung launch ends with TIMEOUT and releases its resources. -/
  | hangEnd (launch : Nat)
  /-- TRACE_BUFFER_DRAIN (R501): An engine's trace buffer is drained to its ring. -/
  | traceBufferDrain (engine : Nat)
  /-- TRACE_TIMEBASE (R500): GT crosses a multiple of 2^31 ns and a TIMEBASE record is written. -/
  | traceTimebase (part : Nat)
  /-- PMC_HI_WRITE (R508): A counter write takes effect at its _HI half. -/
  | pmcHiWrite (req core n : Nat) (v : Word)
  /-- PMSEL_WRITE (R508): A counter's event selection changes from the next beat. -/
  | pmselWrite (req core n : Nat) (v : Word)
  /-- PMC_OVERFLOW (R507): A counter carries out of bit 47, sets OVF and may freeze. -/
  | pmcOverflow (core n : Nat)
  /-- PAIR_LO_READ (R11): A read of a _LO half captures the whole 64-bit value for the requester. -/
  | pairLoRead (req off : Nat) (tlp : Tlp)
  /-- PAIR_LO_WRITE (R12): A write to a _LO half is held for the requester. -/
  | pairLoWrite (req off : Nat) (v : Word)
  /-- PAIR_HI_WRITE (R12): A write to a _HI half commits the held value or changes only the upper half. -/
  | pairHiWrite (req off : Nat) (v : Word)
  /-- READ_CLEAR (R14): A read of an RC field returns and clears it. -/
  | readClear (req off : Nat)
  /-- REGISTER_WRITE (R14): A write to a register that has no row of its own, by access code. -/
  | registerWrite (req off : Nat) (v : Word) (tlp : Tlp)
  /-- ILLEGAL_OPCODE (R111): A group issues an instruction word with a reserved MAJ or an unlisted SUB and raises ILLEGAL_OPCODE, ending its launch with TRANSLATION_FAULT. -/
  | illegalOpcode (g : GRef) (w : Word64)
  /-- JTAG_INSTRUCTION (R514): An instruction loaded into the TAP's instruction register takes effect: boundary scan always, private instructions only with SEC_DBG[0], otherwise bypass. -/
  | jtagInstruction (ir : Byte) (pins shift : List Bool)
  /-- VF_ENABLE_SET (R401): Setting VF Enable or raising NumVFs brings virtual functions into existence, so their bound partitions gain a host path. -/
  | vfEnableSet (numVFs : Nat)
  /-- HBM_TRAINING_LOSS (R434): An HBM channel loses PHY training, clears TRAINED and is retrained, with up to three retrainings within 1 s before retirement. -/
  | hbmTrainingLoss (ch : Nat) (repaired : Bool)
  /-- BOOT_CHART_LOAD (R489): At SECROOT the boot chart is read from SPI NOR and checked. -/
  | bootChartLoad
  /-- TIME_ANNOUNCE (R390): Every 1 ms a TIME message is sent on every UP link. -/
  | timeAnnounce
  /-- GET_NONCE (R449): A fresh 32-byte nonce is returned. -/
  | getNonce
  /-- OWNER_ENROL (R450): An owner key is enrolled or changed under presence. -/
  | ownerEnrol
  /-- DEBUG_UNLOCK (R454): Debug is unlocked after erasing keys and resetting partitions. -/
  | debugUnlock
  /-- DEBUG_LOCK (R454): Debug is locked, keys are erased and partitions reset. -/
  | debugLock
  /-- LOG_CLEAR (R518): The logbook ring is emptied under presence. -/
  | logClear
  /-- TAMPER_CLEAR (R446): TAMPERED is cleared under presence with the loop closed. -/
  | tamperClear
  /-- MBX_COMMAND_COMPLETE (R448): A mailbox command ends, RESULT is set and vector 0 is raised. -/
  | mbxCommandComplete
  /-- PRESENCE_ASSERT (R443): The arming count reaches 1,000 and presence is asserted. -/
  | presenceAssert
  /-- PRESENCE_FAULT_CLEAR (R443): 1,000 open samples return FAULT to ABSENT. -/
  | presenceFaultClear
  /-- TAMPER_EVENT (R445): Ten open samples erase keys, set TAMPERED and reset partitions. -/
  | tamperEvent
  /-- FAST_CLAMP_END (R473): The 10 ms clamp ends and control returns to the loop. -/
  | fastClampEnd
  /-- THERMAL_TRIP (R476): Two readings of 105 °C or more cause the emergency stop. -/
  | thermalTrip
  /-- FORCED_CAP (R479): D reaches 200 and the budget is forced to 900 W. -/
  | forcedCap
  /-- FORCED_CAP_END (R480): 2,000 samples of both OK end the forced cap. -/
  | forcedCapEnd
  /-- EMERGENCY_STOP (R481): L reaches 5 or a thermal trip stops the module. -/
  | emergencyStop
  /-- VIN_MAIN_IN_RANGE (R526): 10 ms of in-range means clear the VIN_MAIN condition. -/
  | vinMainInRange (meanMv : Nat)
  /-- VIN_AUX_LOSS (R527): Loss of VIN_AUX resets the whole module. -/
  | vinAuxLoss
  /-- VIN_AUX_UP (R527): VIN_AUX in range for 20 ms starts the always-on domain. -/
  | vinAuxUp (inRangeNs : Nat)
  /-- PERST_N_DEASSERT (R485): PERST_N is released. -/
  | perstNDeassert
  /-- STARTUP_BEGIN (R485): The last reset condition clears and start-up begins. -/
  | startupBegin
  /-- TRACE_PORT_BLOCK (R505): The trace port sends a block of a record or dump word. -/
  | tracePortBlock
  /-- LOG_MRAM_WRITE (R515): A record is written to MRAM and may raise vector 2. -/
  | logMramWrite
  /-- LOG_NOR_WRITE (R515): A record is written to SPI NOR. -/
  | logNorWrite
  /-- START_MODE_END (R504): 1 s after the CHART lamp lights, or after a die lamp relights following a die reset, the trace port leaves START mode. -/
  | startModeEnd
  deriving DecidableEq, Repr

end Sys2Proof
end

