-- ==== Sys2Proof/Decode.lean ====
section
/-! DEFINITION. Reading words: the opcode table gives its rows no bits, so `decodeTableWord` answers none; the instruction words of R105 to R111 and R154 are sorted into the rows that a group issues. -/

namespace Sys2Proof

/-- No row of spec/opcode_table.json gives bits: no word spells a command. -/
def decodeTableWord (_nbits _w : Nat) : Option Instr := none

/-- Bits [hi:lo] of a word (R6). -/
def bitsOf (w hi lo : Nat) : Nat := w / 2 ^ lo % 2 ^ (hi + 1 - lo)

/-- Bits [hi:lo] of an instruction word. -/
def fieldOf (w : Word64) (hi lo : Nat) : Nat := bitsOf w.toNat hi lo

/-- A bit of an instruction word. -/
def flagOf (w : Word64) (i : Nat) : Bool := fieldOf w i i == 1

/-- Sign extension of an n-bit field to an integer. -/
def signedOf (n v : Nat) : Int := if v % 2 ^ n < 2 ^ (n - 1) then (v % 2 ^ n : Nat) else (v % 2 ^ n : Nat) - (2 ^ n : Nat)

/-- The rows that a group issues. -/
inductive IRow where
  | ctlNop | ctlExit | barBlock | barCluster | ctlJmp | fence | ctlRsr | br | brLink
  | i32Op | i64Op | intCmp | immV | immU | f32Op | f64Op | h2Op | fpCmp | cnv | sfOp | prOp
  | grpShfl | grpVote | ldLocal | stLocal | ldGlobal | stGlobal | zlGlobal
  | ldCluster | stCluster | rmwCluster | ldRemote | stRemote | stRemoteFinal
  | rmwLocal | rmwGlobal | rmwPost | ll | sc | evRec | semRel
  | mxHdl | mxFill | mxLdb | mxMma | mxClr | mxAddraw | mxDrain | mxStat | mxNest
  | illegal
  deriving DecidableEq, Repr

/-- The row of an ATOM word by SUB (R111, R128): the space in [1:0], returning in [2], bit [4] not listed. Posted atomics of global and remote space are RMW_POST; local ones are RMW_LOCAL and cluster ones RMW_CLUSTER, posted or returning. -/
def atomRow (sub : Nat) : IRow :=
  if sub ≥ 16 then .illegal
  else match sub % 4 with
    | 0 => .rmwLocal
    | 2 => .rmwCluster
    | _ => if sub / 4 % 2 = 1 then .rmwGlobal else .rmwPost

/-- The row of an instruction word (R111, R155): MAJ in [63:58], SUB in [52:48]. -/
def rowOf (w : Word64) : IRow :=
  let sub := fieldOf w 52 48
  match fieldOf w 63 58 with
  | 0x00 => match sub with
    | 0 => .ctlNop | 1 => .ctlExit | 2 => .barBlock | 3 => .barCluster
    | 4 => .ctlJmp | 5 => .fence | 6 => .ctlRsr | _ => .illegal
  | 0x01 => match sub with
    | 0 => .br | 1 => .brLink | _ => .illegal
  | 0x04 => if sub = 22 then .intCmp else if sub ≤ 24 then .i32Op else .illegal
  | 0x05 =>
    if sub = 22 then .intCmp
    else if sub = 8 ∨ sub = 9 ∨ sub = 20 ∨ sub = 21 ∨ sub = 23 then .illegal
    else if sub ≤ 24 then .i32Op else .illegal
  | 0x06 =>
    if sub = 22 then .intCmp
    else if sub ∈ [0, 1, 4, 5, 6, 10, 11, 12, 14, 15, 16, 25] then .i64Op else .illegal
  | 0x07 => match sub with
    | 0 => .immV | 1 => .immU | _ => .illegal
  | 0x08 => if sub < 8 then .f32Op else if sub = 8 then .fpCmp else .illegal
  | 0x09 => if sub < 8 then .f64Op else if sub = 8 then .fpCmp else .illegal
  | 0x0A => if sub < 8 then .h2Op else .illegal
  | 0x0B => if sub = 0 then .cnv else .illegal
  | 0x0C => if sub < 6 then .sfOp else .illegal
  | 0x0D => if sub < 6 then .prOp else .illegal
  | 0x0E => match sub with
    | 0 => .grpShfl | 1 => .grpVote | _ => .illegal
  | 0x10 => match sub with
    | 0 => .ldLocal | 1 => .ldGlobal | 2 => .ldCluster | 3 => .ldRemote | _ => .illegal
  | 0x11 => match sub with
    | 0 => .stLocal | 1 => .stGlobal | 2 => .stCluster | 3 => .stRemote
    | 4 => .stRemoteFinal | 5 => .zlGlobal | _ => .illegal
  | 0x12 => atomRow sub
  | 0x13 => match sub with
    | 0 => .ll | 1 => .sc | 2 => .ll | 3 => .sc | _ => .illegal
  | 0x14 => match sub with
    | 0 => .evRec | 1 => .semRel | _ => .illegal
  | 0x20 => match sub with
    | 0 => .mxHdl | 1 => .mxFill | 2 => .mxLdb | 3 => .mxMma | 4 => .mxClr
    | 5 => .mxAddraw | 6 => .mxDrain | 7 => .mxStat | 8 => .mxNest | _ => .illegal
  | _ => .illegal

/-- The row of a command that a group issues, with its group and word. -/
def Instr.issued : Instr → Option (IRow × GRef × Word64)
  | .ctlNop g w => some (.ctlNop, g, w) | .ctlExit g w => some (.ctlExit, g, w)
  | .barBlock g w => some (.barBlock, g, w) | .barCluster g w => some (.barCluster, g, w)
  | .ctlJmp g w => some (.ctlJmp, g, w) | .fence g w => some (.fence, g, w)
  | .ctlRsr g w => some (.ctlRsr, g, w) | .br g w => some (.br, g, w)
  | .brLink g w => some (.brLink, g, w) | .i32Op g w => some (.i32Op, g, w)
  | .i64Op g w => some (.i64Op, g, w) | .intCmp g w => some (.intCmp, g, w)
  | .immV g w => some (.immV, g, w) | .immU g w => some (.immU, g, w)
  | .f32Op g w => some (.f32Op, g, w) | .f64Op g w => some (.f64Op, g, w)
  | .h2Op g w => some (.h2Op, g, w) | .fpCmp g w => some (.fpCmp, g, w)
  | .cnv g w => some (.cnv, g, w) | .sfOp g w => some (.sfOp, g, w)
  | .prOp g w => some (.prOp, g, w) | .grpShfl g w => some (.grpShfl, g, w)
  | .grpVote g w => some (.grpVote, g, w) | .ldLocal g w => some (.ldLocal, g, w)
  | .stLocal g w => some (.stLocal, g, w) | .ldGlobal g w => some (.ldGlobal, g, w)
  | .stGlobal g w => some (.stGlobal, g, w) | .zlGlobal g w => some (.zlGlobal, g, w)
  | .ldCluster g w => some (.ldCluster, g, w) | .stCluster g w => some (.stCluster, g, w)
  | .rmwCluster g w => some (.rmwCluster, g, w) | .ldRemote g w => some (.ldRemote, g, w)
  | .stRemote g w => some (.stRemote, g, w) | .stRemoteFinal g w => some (.stRemoteFinal, g, w)
  | .rmwLocal g w => some (.rmwLocal, g, w) | .rmwGlobal g w => some (.rmwGlobal, g, w)
  | .rmwPost g w => some (.rmwPost, g, w) | .ll g w => some (.ll, g, w)
  | .sc g w => some (.sc, g, w) | .evRec g w => some (.evRec, g, w)
  | .semRel g w => some (.semRel, g, w) | .mxHdl g w => some (.mxHdl, g, w)
  | .mxFill g w => some (.mxFill, g, w) | .mxLdb g w => some (.mxLdb, g, w)
  | .mxMma g w => some (.mxMma, g, w) | .mxClr g w => some (.mxClr, g, w)
  | .mxAddraw g w => some (.mxAddraw, g, w) | .mxDrain g w => some (.mxDrain, g, w)
  | .mxStat g w => some (.mxStat, g, w) | .mxNest g w => some (.mxNest, g, w)
  | .illegalOpcode g w => some (.illegal, g, w)
  | _ => none

end Sys2Proof
end

