-- ==== Sys2Proof/Config.lean ====
section
/-! DEFINITION. What an implementation fixes and the manual leaves open: free values, fused values and the standard functions that the manual only names. None of these constants has a body (log entries 2, 4, 6, 7). -/

namespace Sys2Proof.Config

/-- A free bit, one for each value of the state's counter (log entry 2). -/
opaque freeBit : Nat → Bool

/-- Whether the host answers a read with a poisoned completion (R396), for the place of the read among the free values. -/
opaque hostPoison : Nat → Bool

/-- A free byte. -/
opaque freeByte : Nat → Byte

/-- A free number. -/
opaque freeNat : Nat → Nat

/-- A free 32-bit word. -/
opaque freeWord : Nat → Word

/-- A free 64-bit word. -/
opaque freeWord64 : Nat → Word64

/-- What byte `dpa` reads as while nothing has been written there since its channel's contents were last lost for the `epoch`-th time (R456, log entry 4). -/
opaque unwritten (epoch dpa : Nat) : Byte

/-- What byte `off` of the local store of block instance `uid` holds before it is written (R86). -/
opaque localInit (uid off : Nat) : Byte

/-- What byte `off` of the operand buffer holds at acquisition number `n` (R164). -/
opaque operandInit (n off : Nat) : Byte

/-- Whether the group in a slot of a core's scheduler can issue at a moment of global time: its results in flight and its pipe, which R76 tests and no state holds. -/
opaque canIssue (core sched slot moment : Nat) : Bool

/-- How far the replica of global time on a die stands from the rim's at a moment, in ns: 2 is no difference, and R39 bounds it to 2 ns either way. -/
opaque gtSkew (die moment : Nat) : Fin 5

/-- The special functions where R122 states only a bound: a fixed function of the operation and the operand's bits. -/
opaque sfu (op : Nat) (x : Word) : Word

/-- The flags that a special function raises where no special case states them. -/
opaque sfuFlags (op : Nat) (x : Word) : BitVec 5

/-- SHA-384, which R438 names and does not restate. -/
opaque sha384 : List Byte → BitVec 384

/-- ECDSA P-384 verification of a signature (r, s, 48 bytes each) by the key with the given digest (R200, R450, R453). -/
opaque ecdsaVerify (key : BitVec 384) (msg sig : List Byte) : Bool

/-- The unique device secret, fused at manufacture (R437). -/
opaque uds : BitVec 256

/-- The immutable boot ROM of the Foler complex (R437). -/
opaque folerRom : List Byte

/-- What the physical entropy source gives the `n`-th instantiation of the DRBG (R437). -/
opaque entropy (n : Nat) : BitVec 384

/-- AES-256 of one block (R437, R455). -/
opaque aes256 (key : BitVec 256) (blk : BitVec 128) : BitVec 128

/-- The ECDSA P-384 public key of a secret, and a signature by its private key (R438). -/
opaque ecPublic (secret : BitVec 384) : List Byte
opaque ecSign (secret : BitVec 384) (msg : List Byte) : List Byte

/-- The Kelzetre root's certificate, the DeviceID certificate that its device CA signed at manufacture, and the content of the Alias certificate, before its signature, at a module reset (R438, R439). -/
opaque rootCert : List Byte
opaque deviceIdCert (key : List Byte) : List Byte
opaque aliasTbs (key : List Byte) (boots : Nat) : List Byte

/-- The keys of a secured session, from the responder's ephemeral secret and the requester's exchange data (R439). -/
opaque sessionKey (secret : BitVec 384) (peer : List Byte) : BitVec 384

/-- A secured message: AES-256-GCM under a session's keys of a generation, with the number of the message (R439, R441). -/
opaque sealed (key : BitVec 384) (gen seq : Nat) (msg : List Byte) : List Byte

/-- CTExponent, and the sizes that CAPABILITIES gives: data transfers and messages (R439 gives none). -/
opaque spdmExp : Byte
opaque spdmSizes : Word × Word

/-- The page at which the MMIO of a function's BAR starts, as the interface report gives it (R457): the host's choice of addresses. -/
opaque mmioPage (vf bar : Nat) : Word64

/-- The digest of the Kelzetre firmware signing key (R452). -/
opaque kelzetreKey : BitVec 384

/-- The digests of firmware that measurements 2 and 3 report (R440), of the image with the given digest, or of the one of manufacture. -/
opaque firmwareDigest (block : Nat) (image : Option (BitVec 384)) : BitVec 384

/-- The natural rate of a core in the nanosecond from a moment of global time, at its voltage and temperature then, in 1/4,096 beat/ns (R462 to R464, R467). -/
opaque coreRate (core moment : Nat) : Fin 16384

/-- For how many ns a part of a core's matrix unit works on an operation that took it in a beat, from the moment of global time at which that is: 0 the drain reader, 1 the array, 2 the path of a drain's rows into the operand buffer (R170, R172, R176). The spec counts these phases in beats. -/
opaque mxTime (core part since beat : Nat) : Nat

/-- Whether the content of a KEYX message carries a valid DICE signature over its key share (R387): the manual gives the content no layout. -/
opaque keyxSigned (content : List Byte) : Bool

/-- A key share of a link or tunnel, number `n` (R387). -/
opaque exchangeData (n : Nat) : List Byte

/-- The CODE of logbook records that the manual asks for and R521 does not list. -/
opaque logCode (event : Nat) : Nat

/-- How many refreshes of a bank JEDEC HBM4 lets a controller postpone (R278). -/
opaque refreshMax : Nat

/-- The time in ps for which a line occupies a channel's data bus (R276). -/
opaque linePs : Nat

/-- The bytes of the generator's pattern 3, of which R284 gives the order of accesses and no data, by channel offset. -/
opaque tgStride (off : Nat) : Byte

/-- The bank and the row of a line of a channel, by its number in the channel (R278, R284): the manual gives the stacks no geometry. -/
opaque hbmBank (line : Nat) : Nat
opaque hbmRow (line : Nat) : Nat

/-- The first bits of a generator's pseudo-random sequence from a seed (R284): sequence 0 or 1, seed and bit. -/
opaque prbsStart (pat seed i : Nat) : Bool

/-- Records that the trace port's queue holds beyond the first (R505 gives no depth). -/
opaque portDepth : Nat

/-- What a dump holds at byte `off` of a core's record where no architectural value lies (R512). -/
opaque dumpByte (core off : Nat) : Byte

/-- The first vector register of a scheduler's file that a group was given (R81 gives no place). -/
opaque regBase (core uid : Nat) : Nat

/-- The first KiB of local store that a block was given (R86 gives no place). -/
opaque lsBase (core uid : Nat) : Nat

/-- The codes of SAMPLE/PRELOAD, EXTEST and IDCODE in the TAP's instruction register (R453, R514); BYPASS is all ones. -/
opaque sampleIr : Byte
opaque extestIr : Byte
opaque idcodeIr : Byte

/-- GRADE of RIM_ID (R537): false A, true B. -/
opaque gradeB : Bool

/-- SREV of RIM_ID (R537). -/
opaque srev : BitVec 4

/-- MREV of RIM_ID (R537). -/
opaque mrev : BitVec 8

/-- The serial number (R537). -/
opaque serial : Word64

/-- How far the production ceiling of a core lies above its grade's rating (R468). -/
opaque ceilMargin : Nat → Nat

/-- The rating of the module's grade in units of 1/4,096 beat/ns (R1, R464). -/
def ratingUnits : Nat := if gradeB then 6554 else 7373

/-- CEIL0 of a physical core: at least the rating (R468), 16 bits. -/
def ceil0 (core : Nat) : Nat := ratingUnits + ceilMargin core % (65536 - ratingUnits)

end Sys2Proof.Config
end

