-- ==== Sys2Proof/Machine/State.lean ====
section
/-! DEFINITION. The state of the module: plain data, every piece of state that the manual names, and State.reset. -/

namespace Sys2Proof.Machine

/-- Why a command stops the model. -/
inductive Fault where
  /-- Raised by every meaning whose command names a core, die, link, channel, engine, function, partition or queue outside the ranges of R17. Safe: the module has no such unit, so no such step exists. -/
  | noSuchUnit
  /-- Raised by the meaning of every row that a group issues, when the word is not one of that row's words by the maps of R111 and R155. Safe: the word in front of the group is another row's, so this row's step does not exist. -/
  | wrongWord
  deriving DecidableEq, Repr

/-- Why a command has no meaning. -/
inductive Refusal where
  /-- Raised only by an arm of `exec` that has no meaning yet. Safe. -/
  | notModelled (mnemonic : String)
  deriving DecidableEq, Repr

/-- Where an access is performed (R227). -/
inductive Target where
  /-- HBM, by device physical address (R256). -/
  | hbm (dpa : Nat)
  /-- Host memory, by host bus address (R260), with the function whose routing ID the request carries and whether the page is Device-Strict (R406). -/
  | host (fn : Nat) (strict : Bool) (addr : Nat)
  /-- A remote global address (R264). -/
  | remote (addr : Nat)
  deriving DecidableEq, Repr

/-- What one lane writes: its virtual address, where that is, and the bytes. -/
structure LaneWrite where
  lane : Nat
  va   : Nat
  tgt  : Target
  data : List Byte
  /-- Its line is allocated as evict first (R123, R269). -/
  evict : Bool := false
  deriving DecidableEq, Repr

/-- What one lane reads. -/
structure LaneRead where
  lane  : Nat
  va    : Nat
  tgt   : Target
  width : Nat
  deriving DecidableEq, Repr

/-- A frame of the reconvergence stack (R73). `entry` is step 1's entry and counts toward the 32 of R74; `join` holds the not-taken mask while the taken path runs, after step 3 has popped the entry (log entry 10). -/
inductive Frame where
  | entry (reconv taken : Nat) (mask : BitVec 32)
  | join (reconv : Nat) (mask : BitVec 32)
  deriving DecidableEq, Repr

/-- Why a group waits in the pending set (R77; the wait kinds of R511). -/
inductive Wait where
  | none
  | load
  | cluster
  | remote
  | barrier (clusterWide : Bool)
  | residency
  | fence (scope : Nat)
  | push
  | owner
  deriving DecidableEq, Repr

/-- A reservation of one thread (R131): in local store or on a DPA, the granule number and its size. -/
structure Resv where
  isLocal : Bool
  granule : Nat
  size    : Nat
  deriving DecidableEq, Repr

/-- Where an access came from: the group's place, its lane, and the instruction (R141). -/
structure Site where
  sched : Nat
  slot  : Nat
  lane  : Nat
  pc    : Nat
  word  : Word64
  deriving DecidableEq, Repr

/-- One entry of a store buffer (R233), with the group (its `uid`) and the launch that stored. -/
structure Sbuf where
  guid   : Nat
  launch : Nat
  run    : Nat
  part   : Nat
  site   : Site
  /-- A line zeroing (R270): each write covers a whole line. -/
  isZl   : Bool
  /-- Some lane is Device-Strict (R230). -/
  strict : Bool
  /-- What its Device-Strict lanes write with EA 0 (R228, R230): first byte and length. -/
  sync   : List (Nat × Nat) := []
  remote : Bool
  writes : List LaneWrite
  /-- It uses a translation from before the invalidation that runs (R265). -/
  old    : Bool := false
  deriving DecidableEq, Repr

/-- What a pending group's next instruction needs before the group is ready again (R78). -/
inductive Need where
  | none
  /-- The results that the word's operands wait for (R77). -/
  | operands (w : Word64)
  /-- A tracker with a free entry and no entry against these bytes (R235). -/
  | tracker (isWrite : Bool) (spans : List (Nat × Nat))
  /-- A response slot for a cluster-window request (R102). -/
  | slot
  /-- Nothing that an order of R239 waits for in the pending set: the word, and whether its order counts. -/
  | access (w : Word64) (ordered : Bool)
  /-- No Device-Strict read of the group outstanding (R230). -/
  | strict
  /-- Read slots or tracking entries of the die's router (R371). -/
  | router (read : Bool) (n : Nat)
  /-- The matrix unit for the group's block, some handles resident and others in no use, and a tracker entry for these bytes (R162, R168). -/
  | unit (reads uses : List Nat) (track : Option (Bool × List (Nat × Nat)))
  deriving DecidableEq, Repr

/-- A push that waits (R208, R209): the items not yet pushed, with their channels. -/
structure PushWait where
  items : List (Nat × List Byte)
  deriving DecidableEq, Repr

/-- A group in its slot (R68 to R83). -/
structure Group where
  /-- Its number among the groups the core has held (the model's own: results of an ended group reach no later one). -/
  uid     : Nat := 0
  launch  : Nat
  run     : Nat
  block   : Nat
  gnum    : Nat
  nregs   : Nat
  pc      : Nat
  active  : BitVec 32
  exited  : BitVec 32
  stack   : List Frame := []
  fpstat  : BitVec 5 := 0
  /-- Vector registers, keyed 32 r + lane; an unlisted one holds 0 (R71). -/
  vregs   : Tbl Word := []
  /-- Uniform registers; an unlisted one holds 0. -/
  uregs   : Tbl Word := []
  /-- Predicates, one mask of lanes each; an unlisted one is false. -/
  preds   : Tbl Word := []
  resv    : Tbl Resv := []
  wait    : Wait := .none
  need    : Need := .none
  /-- At a barrier: the fence that R240 has it complete first is over. -/
  fenced  : Bool := false
  push    : Option PushWait := none
  /-- Stopped by an exception (R137) or a hang stop (R510). -/
  stopped : Bool := false
  deriving DecidableEq, Repr

/-- A block on a core (R70, R98, R224). -/
structure Block where
  uid     : Nat
  launch  : Nat
  run     : Nat
  /-- Linear block number; its cluster is `num / size` and its rank `num % size`. -/
  num     : Nat
  ngroups : Nat
  threads : Nat
  lsBytes : Nat
  csize   : Nat
  /-- Local-store bytes written so far. -/
  ls      : List Host.Cell := []
  ended   : Bool := false
  thief   : Bool := false
  /-- Run B of a paired launch (R424). -/
  half    : Bool := false
  /-- The claim range [head, tail) (R224). -/
  head    : Nat := 0
  tail    : Nat := 0
  item    : Option (List Byte) := none
  deriving DecidableEq, Repr

/-- The destination of an outstanding load: first register, whether uniform, width and sign extension. -/
structure Dest where
  reg  : Nat
  unif : Bool
  width : Nat
  sx   : Bool
  deriving DecidableEq, Repr

/-- An outstanding load or atomic beyond the local store (R77). -/
structure Load where
  guid   : Nat
  site   : Site
  launch : Nat
  run    : Nat
  reads  : List LaneRead
  dest   : Dest
  /-- The tracker entry it holds, if any. -/
  track  : Option Nat
  /-- It is remote (R371). -/
  remote : Bool := false
  /-- Bytes already bound, by lane (an atomic performed, a remote response). -/
  bound  : Option (List (Nat × List Byte)) := none
  /-- Lanes whose bytes came poisoned (R415), and lanes whose remote access was refused (R139, R368). -/
  bad    : List Nat := []
  refused : List Nat := []
  /-- Allocate the line in L1 (R232). -/
  alloc  : Bool := false
  lcr    : Bool := false
  /-- It uses a translation from before the invalidation that runs (R265). -/
  old    : Bool := false
  /-- An acquire of this scope that is performed when the response arrives (R239). -/
  acq    : Option Nat := none
  /-- The die-to-die links that had failed when it was issued: its path is chosen by them (R27). -/
  cut    : List Nat := []
  deriving DecidableEq, Repr

/-- An entry of the address-range tracker (R235). -/
structure Track where
  guid    : Nat
  launch  : Nat
  run     : Nat
  part    : Nat
  isWrite : Bool
  /-- The bytes it covers: first byte and length of each piece. -/
  spans   : List (Nat × Nat)
  /-- The writes to perform when it is released. -/
  writes  : List LaneWrite := []
  isZl    : Bool := false
  strict  : Bool := false
  /-- It uses a translation from before the invalidation that runs (R265). -/
  old     : Bool := false
  /-- EA 0 bytes that are not acknowledged: the HBM array has yet to take them, or the host to answer the zero-length read behind them (R230). -/
  sync    : List (Nat × Nat) := []
  /-- Its access is performed at partition scope and its place among the 64 is free: only acknowledgements of EA 0 bytes are awaited (R230, R235). -/
  done    : Bool := false
  /-- The die-to-die links that had failed when it was issued: its path is chosen by them (R27). -/
  cut     : List Nat := []
  deriving DecidableEq, Repr

/-- One lane of a cluster-window request (R100). -/
structure CLane where
  lane : Nat
  core : Nat
  slot : Nat
  /-- The `uid` of the block it names there: a request never reaches a block that took the slot later (R99, R101). -/
  block : Nat
  off  : Nat
  data : List Byte
  deriving DecidableEq, Repr

/-- A cluster-window request (R102): 0 load, 1 store, 2 returning atomic, 3 posted atomic. -/
structure CReq where
  guid   : Nat
  site   : Site
  launch : Nat
  run    : Nat
  kind   : Nat
  op     : Nat
  width  : Nat
  lanes  : List CLane
  dest   : Dest
  /-- The old values, once served. -/
  served : Option (List (Nat × List Byte)) := none
  /-- An acquire of this scope (R239). -/
  acq    : Option Nat := none
  deriving DecidableEq, Repr

/-- A tile handle (R147). -/
structure Handle where
  base     : Nat
  size     : Nat
  fmt      : Nat
  scaled   : Bool
  kind     : Nat
  pitch    : Nat
  rows     : Nat
  deriving DecidableEq, Repr

/-- An accumulator tile (R48, R50, R152): entries keyed 64 m + n, 0 when unlisted; the hidden bits SAT, NAN, PINF, NINF (bits 0 to 3) likewise. -/
structure Tile where
  n       : Tbl (BitVec 128) := []
  hidden  : Tbl (BitVec 4) := []
  anchor  : Int := 0
  status  : BitVec 8 := 0
  defPend : Bool := true
  deriving DecidableEq, Repr

/-- The stationary tile (R145): its format and its image bytes. -/
structure Stationary where
  fmt    : Nat
  scaled : Bool
  image  : List Byte
  deriving DecidableEq, Repr

/-- The header of a nest table (R181). -/
structure NestHdr where
  nlev : Nat
  ha : Nat
  hb : Nat
  m : Nat
  clear : Bool
  anchDef : Bool
  drain : Bool
  satf : Bool
  anchor : Int
  dfmt : Nat
  dst : Nat
  acc0 : Nat
  a0 : Nat
  b0 : Nat
  c0 : Nat
  crow : Nat
  hc : Nat
  deriving DecidableEq, Repr

/-- A level of a nest table (R182). -/
structure NestLevel where
  bound : Nat
  sa : Int
  sb : Int
  sacc : Int
  sc : Int
  pos : Nat
  isK : Bool
  tail : Nat
  deriving DecidableEq, Repr

/-- A nest table as read at acceptance, levels ordered by POS, outermost first. -/
structure NestTab where
  hdr  : NestHdr
  levs : List NestLevel
  deriving DecidableEq, Repr

/-- What a queue entry of the matrix unit does (R155). -/
inductive MxOp where
  | ldb (h img : Nat)
  | mma (h row0 kstep m trow0 t : Nat)
  | clr (t : Nat) (anchor : Option Int)
  | addraw (h img t : Nat)
  | drain (t dfmt : Nat) (satf : Bool) (dst h addr : Nat) (stride : Int) (reclr : Bool) (track : Option Nat)
  | stat (t ureg : Nat)
  | nest (tab : NestTab) (track : Option Nat)
  deriving DecidableEq, Repr

/-- A queue entry with the instruction it came from (R174). -/
structure MxEntry where
  op    : MxOp
  guid  : Nat
  site  : Site
  deriving DecidableEq, Repr

/-- An outstanding fill (R156): units with their sources. -/
structure Fill where
  h      : Nat
  unit0  : Nat
  count  : Nat
  isLocal : Bool
  src    : Nat
  stride : Int
  pitch  : Nat
  lcr    : Bool
  track  : Option Nat
  guid   : Nat
  site   : Site
  /-- The die-to-die links that had failed when it was issued: its path is chosen by them (R27). -/
  cut    : List Nat := []
  deriving DecidableEq, Repr

/-- Drain writes that have not been performed (R172). -/
structure DrainBuf where
  guid    : Nat
  isLocal : Bool
  block   : Nat
  launch  : Nat
  writes  : List LaneWrite
  track   : Option Nat
  /-- It uses a translation from before the invalidation that runs (R265). -/
  old     : Bool := false
  /-- The die-to-die links that had failed when it was issued: its path is chosen by them (R27). -/
  cut     : List Nat := []
  deriving DecidableEq, Repr

/-- A drain of a nest whose tile has received its last contribution (R185): the tile, the destination and the rows, and whether R184 folds the next clear of the tile into it. -/
structure NestDue where
  tile : Nat
  dst  : Int
  rows : Nat
  reclr : Bool := false
  deriving DecidableEq, Repr

/-- A running nest (R183, R185): the array stream's place in the walk, and the drain stream's work in walk order. -/
structure NestRun where
  tab   : NestTab
  entry : MxEntry
  track : Option Nat
  /-- Point of the array stream, and whether its separate clear has run there. -/
  pos   : Nat := 0
  clearedHere : Bool := false
  /-- Image loaded by this nest. -/
  curB  : Option Nat := none
  /-- Drains that have not started, in walk order. -/
  due   : List NestDue := []
  /-- Tiles whose latest operation of this nest was a drain: a clear of one needs no operation of its own (R184). -/
  drained : List Nat := []
  /-- The beat, in the unit's count, at which its next operation may start at the earliest (R185). -/
  beat : Nat := 0
  deriving DecidableEq, Repr

/-- The beats of a matrix unit, counted from the start of its ownership: the first in which the next queue entry may start, and those in which the array, the drain reader and each tile are free (R170). -/
structure Beats where
  next   : Nat := 0
  array  : Nat := 0
  reader : Nat := 0
  tiles  : Tbl Nat := []
  deriving DecidableEq, Repr

/-- An operation that may still run on a part of the unit, as CORE_MX_STATE shows it (R176): its tile, the handles that it reads or writes, the drain whose writes follow its read phase, and whether a nest started it. -/
structure MxUse where
  tile    : Option Nat
  handles : List Nat := []
  drain   : Option Nat := none
  ofNest  : Bool := false
  /-- When it started: global time, and the unit's beat. -/
  since   : Nat := 0
  beat    : Nat := 0
  deriving DecidableEq, Repr

/-- A core's matrix unit (R142 to R179). -/
structure Mx where
  buf     : List Host.Cell := []
  /-- Acquisitions with lost contents so far (the model's own, for unspecified contents). -/
  epoch   : Nat := 0
  handles : Tbl Handle := []
  stat    : Option Stationary := none
  /-- FMT and SCALED of the most recently accepted mx.ldb since acquisition (R168). -/
  accStat : Option (Nat × Bool) := none
  tiles   : Tbl Tile := []
  queue   : List MxEntry := []
  fills   : Tbl Fill := []
  drains  : Tbl DrainBuf := []
  nest    : Option NestRun := none
  owner   : Option Nat := none
  waiters : List Nat := []
  lastRun : Option (Nat × Nat) := none
  /-- The scheduler that was granted matrix issue last (R166). -/
  granted : Nat := 3
  beats   : Beats := {}
  /-- The latest operations of the array and of the drain reader, until something shows that they have ended (R170, R176). -/
  array   : Option MxUse := none
  reader  : Option MxUse := none
  deriving DecidableEq, Repr

/-- A scheduler's active set, oldest first, its ready groups in order, and the slot whose group issued last (R76 to R79). -/
structure Sched where
  active : List Nat := []
  ready  : List Nat := []
  last   : Nat := 0
  deriving DecidableEq, Repr

/-- A physical core. -/
structure Core where
  /-- Local-store split in units of 64 KiB (R84). -/
  split   : Nat := 0
  blocks  : Tbl Block := []
  groups  : Tbl Group := []
  scheds  : Tbl Sched := []
  /-- Store buffers by group slot, oldest entry first (R233); entries of a group that has ended still drain. -/
  sbufs   : Tbl (List Sbuf) := []
  loads   : Tbl Load := []
  art     : Tbl Track := []
  creqs   : Tbl CReq := []
  /-- L1 lines by DPA line, with their bytes (R232). -/
  l1      : Tbl (List Byte) := []
  /-- Instruction-cache lines, by VA line, with their bytes (R87). -/
  icache  : Tbl (List Byte) := []
  /-- Which of them the front end preloaded, by VA line: the numbers of the preloads (R315). -/
  preLines : Tbl (List Nat) := []
  mx      : Mx := {}
  nextId  : Nat := 0
  /-- Launches that have begun on it, with the run that did (R87, R141, R232). A run after a kill begins anew: DESIGN CHOICE (log entry 68). -/
  begun   : List (Nat × Nat) := []
  /-- Launches whose BEGIN the core has recorded, and whose END not yet (R499). -/
  traced  : List Nat := []
  /-- GT stamps of uncorrectable errors in its arrays (R434). -/
  ueGt    : List Nat := []
  /-- Caps in force: loop, thermal, clamp (0xFFFF none), and whether a new effective cap waits (R467). -/
  loopCap : Nat := 0xFFFF
  thermCap : Nat := 0xFFFF
  clampCap : Nat := 0xFFFF
  capWait : Bool := false
  /-- The effective caps that ended since the sextant's last update, the last first: each with the moment at which it ended (R463, R467). -/
  caps : List (Nat × Nat) := []
  /-- How far the core has come since its last whole beat, in 1/4,096 (R464). -/
  phase : Nat := 0
  deriving DecidableEq, Repr

/-- An output window (R300). -/
structure Win where
  base   : Nat
  len    : Nat
  remote : Bool
  deriving DecidableEq, Repr

/-- What ended a launch (R23, R306). -/
structure Failure where
  status : Byte
  cause  : Byte := 0
  reason : Byte := 0
  engine : Nat := 0xFFFF
  gt     : Nat := 0
  deriving DecidableEq, Repr

/-- A final write held at its source (R250, R353): the core and group that wrote it, and its message. -/
structure FinalWrite where
  core : Nat
  guid : Nat
  site : Site
  msg  : Msg
  /-- The lanes whose bytes it carries, with their addresses (R139, R141). -/
  lanes : List (Nat × Nat) := []
  /-- As in `RReq`. -/
  batch : Nat := 0
  bad   : List (Nat × Nat) := []
  deriving DecidableEq, Repr

/-- Progress of a commit-queue entry (R350). -/
inductive CqState where
  | waiting
  | sent
  | done
  | refused
  deriving DecidableEq, Repr

/-- A commit-queue entry (R345). -/
structure CqEntry where
  kind   : Nat
  width  : Nat
  op     : Nat
  origin : Nat
  addr   : Nat
  data   : List Byte
  st     : CqState := .waiting
  poison : Bool := false
  deriving DecidableEq, Repr

/-- Where a launch stands between reaching HEAD and its completion. -/
inductive Phase where
  /-- A waiter of SEMA0 and SEMA1 (R314). -/
  | acquiring
  /-- Its semaphores are held; it may issue. -/
  | acquired
  /-- Issued. -/
  | running
  /-- Killed, steps 1 to 3 under way (R336). -/
  | killing
  /-- Killed or withdrawn, waiting to issue again (R335, R338). -/
  | rerun
  /-- In a commit context: seal and settle (R348). -/
  | settling
  /-- In perform. -/
  | performing
  /-- Ended; its record is not yet written. -/
  | ended
  deriving DecidableEq, Repr

/-- A route replay (R322). -/
structure Replay where
  route  : Nat
  ver    : Nat
  pos    : Nat := 0
  failed : Bool := false
  first  : Option (Nat × Failure) := none
  /-- The entry that has a record and has not issued. -/
  cur    : Option Nat := none
  /-- Entries issued and completed so far. -/
  live   : List Nat := []
  deriving DecidableEq, Repr

/-- A request of a copy engine (R286): a range of the copy's bytes in its own order. -/
structure CopyReq where
  pos  : Nat
  len  : Nat
  /-- Remote messages that are not answered. -/
  left : Nat := 0
  /-- Source bytes that remote answers have brought, by offset in the range. -/
  data : List Host.Cell := []
  /-- What its source or its table gave, found when it was sent. -/
  fail : Option Byte := none
  /-- The die-to-die links that had failed when it was issued: its path is chosen by them (R27). -/
  cut  : List Nat := []
  deriving DecidableEq, Repr

/-- Progress of a copy launch (R286, R288). -/
structure CopyRun where
  engine : Nat
  die    : Nat
  desc   : List Byte
  /-- Bytes requested so far, in the copy's own order. -/
  pos    : Nat := 0
  /-- Outstanding requests. -/
  out    : Tbl CopyReq := []
  sent   : Bool := false
  digA   : Word64 := 0
  digB   : Word64 := 0
  deriving DecidableEq, Repr

/-- The write digests of the two runs of a paired launch (R426). -/
structure Pair where
  aA : Word64 := 0
  aB : Word64 := 0
  bA : Word64 := 0
  bB : Word64 := 0
  /-- GT at which the last record was folded. -/
  gt : Nat := 0
  deriving DecidableEq, Repr

/-- A launch from the moment its entry reaches HEAD. -/
structure Launch where
  part   : Nat
  queue  : Nat
  seq    : Nat
  rt     : Bool
  entry  : List Byte
  /-- The call and the entry index, for an entry of a route replay (R322). -/
  call   : Option (Nat × Nat) := none
  ext    : List Byte := []
  phase  : Phase := .acquiring
  fail   : Option Failure := none
  killed : Bool := false
  run    : Nat := 0
  withdrawn : Bool := false
  /-- Set once the indirect values of the first issue are held (R307). -/
  bound  : Bool := false
  param  : Nat := 0
  gx     : Nat := 0
  gy     : Nat := 0
  gz     : Nat := 0
  sel    : List Nat := []
  bidx   : List Nat := []
  code   : Nat := 0
  vregs  : Nat := 0
  split  : Nat := 0
  lskib  : Nat := 0
  wins   : List Win := []
  held   : List (Nat × Nat) := []
  /-- GT when the launch's limits began to count or, once its semaphores are held, when it had them (R327); and at issue (R300). -/
  waitGt : Nat := 0
  issueGt : Nat := 0
  /-- GT at which every condition but the watch held. -/
  pausedGt : Nat := 0
  paused : Nat := 0
  progGt : Nat := 0
  nextBlk : Nat := 0
  /-- The next block of run B of a paired launch (R424). -/
  nextBlkB : Nat := 0
  ended  : Nat := 0
  thieves : Nat := 0
  /-- Items pushed, by channel (R208), and those that run B of a paired launch has formed and not sent (R425). -/
  pushed : Tbl Nat := []
  formed : Tbl Nat := []
  items  : List (Nat × List Byte) := []
  producers : List Nat := []
  cq     : List CqEntry := []
  /-- The first line of its commit region, while it has one (R344). -/
  cqBase : Option Nat := none
  closed : Bool := false
  ctxGt  : Nat := 0
  performGt : Nat := 0
  /-- The earliest of the failures found that settle reports: a refused remote write, an inexact collective, an uncorrectable commit entry (R23, R64, R349, R417). -/
  found : Option Failure := none
  /-- A write was lost with its core while the launch committed: settle runs to its limit (R349). -/
  lostWrite : Bool := false
  /-- Final writes held at their source, without pre-emption (R353): die and message. -/
  finals : List FinalWrite := []
  copy   : Option CopyRun := none
  /-- EA 0 bytes of host memory that its copy has written and the host has not acknowledged (R230, R246). -/
  owed   : List (Nat × Nat) := []
  pair   : Option Pair := none
  replay : Option Replay := none
  /-- An event wait's word: DPA once armed, value awaited, and whether it holds a watch slot (R312). -/
  word   : Option Nat := none
  armed  : Bool := false
  /-- A write has been performed on the armed line since the word was last read. -/
  touched : Bool := false
  polled : Nat := 0
  hung   : Nat := 0
  ready  : Nat := 0
  /-- LLSC512 as it stood when the launch started (R245). -/
  llsc512 : Bool := false
  /-- The preload whose lines it found when it issued (R87, R315). -/
  pre    : Option Nat := none
  deriving DecidableEq, Repr

/-- A queue (R293 to R296). -/
structure Queue where
  ring    : Nat := 0
  cpl     : Nat := 0
  cfg     : Word := 0
  halted  : Bool := false
  failed  : Bool := false
  reason  : Byte := 0
  tail    : Nat := 0
  head    : Nat := 0
  done    : Nat := 0
  /-- Completed sequences above DONE. -/
  early   : List Nat := []
  jobs    : Nat := 0
  watch   : Option Nat := none
  want    : Option Nat := none
  /-- GT at which the watch ends. -/
  watchEnd : Nat := 0
  /-- The launch at HEAD, once it has a record. -/
  cur     : Option Nat := none
  /-- Halves of DB_TAIL held by R12 are in `held`; a reset of the queue runs (R496). -/
  resetting : Bool := false
  deriving DecidableEq, Repr

/-- A semaphore (R313): its count and its waiters, oldest first. -/
structure Sem where
  count   : Nat := 0
  waiters : List Nat := []
  deriving DecidableEq, Repr

/-- A stored route version (R320). -/
structure RouteVer where
  route   : Nat
  ver     : Nat
  entries : List (List Byte)
  deriving DecidableEq, Repr

/-- A route (R318, R321): its version number and whether it is defined. -/
structure Route where
  ver  : Nat := 0
  live : Bool := false
  deriving DecidableEq, Repr

/-- A route command in progress (R319): 1 record, 2 patch, 3 delete. -/
structure RouteCmd where
  op     : Nat
  route  : Nat
  result : Nat
  entries : List (List Byte) := []
  deriving DecidableEq, Repr

/-- A slot of a stage channel (R208). -/
structure ChSlot where
  taken  : Bool := false
  owner  : Nat := 0
  data   : List Byte
  /-- The launch that pushed it, until that launch has ended (R211). -/
  src    : Option Nat
  /-- That launch ended with a status other than OK. -/
  bad    : Bool := false
  /-- Its 16 bytes were lost with a line of the buffer: whoever takes it gets poison (R417). -/
  poison : Bool := false
  deriving DecidableEq, Repr

/-- A stage channel (R207 to R211): its ready and taken items in order, and the launch it accepts pushes from. -/
structure StageChan where
  items    : List ChSlot := []
  producer : Option Nat := none
  pushes   : Nat := 0
  feeding  : Option Nat := none
  deriving DecidableEq, Repr

/-- A collective slot (R381 to R385). -/
structure Coll where
  ofmt   : Nat
  ifmt   : Nat
  op     : Nat
  satf   : Bool
  outRemote : Bool
  ncontrib : Nat
  nelem  : Nat
  anchor : Int
  out    : Nat
  event  : Nat
  descVa : Nat
  round  : Nat := 1
  sums   : Tbl (BitVec 128) := []
  hidden : Tbl (BitVec 4) := []
  status : BitVec 8 := 0
  /-- Granules received, keyed contributor * 2^24 + granule. -/
  got    : List Nat := []
  /-- Contributions with TRAPX that wait for the round's end: the messages. -/
  waiting : List Msg := []
  /-- The round has completed and its outputs are not all performed (R385), and whether it was a trapping one (R386). -/
  closing : Bool := false
  trapped : Bool := false
  /-- Raw outputs not yet sent, and outputs not yet performed. -/
  outq    : List Msg := []
  outLeft : Nat := 0
  deriving DecidableEq, Repr

/-- A beacon (R430). -/
structure BeaconRec where
  devid : Nat
  part  : Nat
  wvalid : Bool
  avalid : Bool
  wabort : Bool
  model : Word
  step  : Nat
  sweep : Word
  wdig  : BitVec 128
  adig  : BitVec 128
  gt    : Nat
  deriving DecidableEq, Repr

/-- A sweep of a partition's regions (R421). -/
structure Sweep where
  running : Bool := false
  region  : Nat := 0
  off     : Nat := 0
  a       : Word64 := 0
  b       : Word64 := 0
  restart : Option Nat := none
  /-- Bases, lengths and SALT as they stood when the pass started (R423). -/
  regions : List (Nat × Nat) := []
  salt    : Nat := 0
  deriving DecidableEq, Repr

/-- A cached translation: the leaf entry and its level, by cache and 64 KiB page (R265). -/
structure TlbEnt where
  pte   : Word64
  level : Nat
  deriving DecidableEq, Repr

/-- A partition entry of a chart (R202). -/
structure PartEnt where
  valid : Bool := false
  cached : Bool := false
  lead : Nat := 0
  keyslot : Nat := 0
  vf : Nat := 0
  nqueue : Nat := 0
  /-- The bytes of the entry, its stage entries and its channel entries, as the chart gave them. -/
  raw : List Byte := []
  coresets : Nat := 0
  ways : Nat := 0
  hbmch : Nat := 0
  /-- Stages: CORESETS and NOSTEAL (R203). -/
  stages : List (Nat × Bool) := []
  /-- Channels: SRC, DST, LOG2DEPTH (R204). -/
  chans : List (Nat × Nat × Nat) := []
  deriving DecidableEq, Repr

/-- A staged partition chart (R220). -/
structure Staged where
  ent   : PartEnt
  subst : List (Nat × Nat)
  seq   : Nat
  deriving DecidableEq, Repr

/-- A partition's own state. -/
structure Part where
  sems    : Tbl Sem := []
  routes  : Tbl Route := []
  vers    : List RouteVer := []
  rcmd    : Option RouteCmd := none
  chans   : Tbl StageChan := []
  /-- Its translations in the caches of cores and dies, keyed 2^26 * cache + page (R265). -/
  tlb     : Tbl TlbEnt := []
  coll    : Tbl Coll := []
  sweep   : Sweep := {}
  own     : List BeaconRec := []
  peers   : Tbl (List BeaconRec) := []
  lastBeacon : Nat := 0
  /-- TDISP state (R403): 0 CONFIG_UNLOCKED, 1 CONFIG_LOCKED, 2 RUN, 3 ERROR. -/
  tdi     : Nat := 0
  /-- DPAs of the tables fixed at lock (R410, R457). -/
  locked  : List (Nat × Nat) := []
  lockRoot : Word64 := 0
  /-- Partition reset: 0 none, 1 to 4 the last step done (R492); and its start. -/
  reset   : Nat := 0
  resetGt : Nat := 0
  rekey   : Bool := false
  staged  : Option Staged := none
  activating : Bool := false
  /-- An activation under R221 has taken effect and PART_MODELNX is copied when the lamp relights (R355). -/
  modelDue : Bool := false
  recentRoutes : List Nat := []
  /-- Launches per run number of remote requests (R337). -/
  emptied : Bool := false
  deriving DecidableEq, Repr

/-- An L2 line (R267 to R271). `used` orders the lines of a set by their last use: 0 is the least-recently-used position (R269). -/
structure L2Line where
  way  : Nat
  modified : Bool := false
  pinned : Bool := false
  used : Nat := 0
  /-- It came from cells of the array that cannot give it: it is poison (R415). -/
  sick : Bool := false
  deriving DecidableEq, Repr

/-- A remote request that a router tracks (R371). -/
structure RReq where
  part   : Nat
  epoch  : Nat
  launch : Nat
  run    : Nat
  core   : Nat
  load   : Nat
  dst    : Nat
  gt     : Nat
  link   : Option Nat := none
  /-- What waits for the answer: 0 core load or atomic, 1 remote write, 2 final write of the commit queue (index in `load`), 3 copy, 4 collective output, 5 final write held at source without pre-emption. For a remote write, `load` is the storing group's `uid`. -/
  kind   : Nat
  msg    : Msg
  site   : Site := ⟨0, 0, 0, 0, 0⟩
  /-- The lanes whose access it carries, with their effective addresses (R139, R141). -/
  lanes  : List (Nat × Nat) := []
  /-- The core's number of the instruction that sent it among others, and the lanes of that instruction refused so far (R139). -/
  batch  : Nat := 0
  bad    : List (Nat × Nat) := []
  deriving DecidableEq, Repr

/-- A multicast record (R379). -/
structure McRec where
  tag   : Nat
  /-- The link it arrived on, or the router of this module that handed it across the ring: die and record. -/
  up    : Option Nat
  ring  : Option (Nat × Nat) := none
  left  : Nat
  src   : Msg
  /-- A branch's refusal. -/
  bad   : Option Nat := none
  deriving DecidableEq, Repr

/-- What a front end preloads (R315, R322): a queue's entry, an entry of a replay, or the first entry of a route's version. -/
inductive PreKey where
  | entry (queue seq : Nat)
  | replay (call pos : Nat)
  | route (part route ver : Nat)
  deriving DecidableEq, Repr

/-- A preload slot (R315): its number among preloads, and the code fetched, if the entry has any. -/
structure PreSlot where
  num  : Nat
  key  : PreKey
  rt   : Bool
  code : Option Nat
  deriving DecidableEq, Repr

/-- A compute die's shared engines. -/
structure Die where
  /-- The front end's preload slots, and the first entries of routes that it keeps preloaded (R315). -/
  preloads : List PreSlot := []
  /-- The places in round-robin order of the queues that issued last: of real-time queues, and of the others (R317). At reset the lowest comes next: DESIGN CHOICE (log entry 84). -/
  issueRt : Nat := 16383
  issueOther : Nat := 16383
  l2      : Tbl L2Line := []
  /-- The stamp of the last use of an L2 line of the die. -/
  l2Clock : Nat := 0
  wayCe   : Tbl (List Nat) := []
  contexts : List Nat := []
  reads   : Tbl RReq := []
  tracks  : Tbl RReq := []
  mcast   : Tbl McRec := []
  /-- Messages of this module to itself, in the router, oldest first (R374). -/
  loop    : List Msg := []
  /-- Remote EA 0 writes performed here and not acknowledged, with the bytes that the HBM array has yet to take, or for which the host has yet to complete a zero-length read (R230). -/
  owed    : List (Msg × List (Nat × Nat)) := []
  collRetired : Bool := false
  digRetired : Bool := false
  collUe  : List Nat := []
  digUe   : List Nat := []
  deriving DecidableEq, Repr

/-- A request at an HBM channel controller (R275). -/
structure HbmReq where
  /-- 2 LCR, 3 normal read, 4 write, 5 copy. -/
  cls  : Nat
  line : Nat
  gt   : Nat
  /-- Promoted to rank 2 by R277. -/
  promoted : Bool := false
  /-- An LCR read that arrived when the share had reached the cap: it has rank 3 (R276). -/
  late : Bool := false
  /-- It is of the traffic generator (R283). -/
  gen  : Bool := false
  /-- It writes the array. -/
  writes : Bool := false
  /-- A read that an agent at the home slice waits for: an atomic, a message, a swept line (R415). -/
  hold   : Bool := false
  /-- A write that carries poison to the array (R273, R415). -/
  bad    : Bool := false
  deriving DecidableEq, Repr

/-- An HBM channel controller. -/
structure Chan where
  reqs    : List HbmReq := []
  /-- Lines that the array has given, which L2 does not hold, for an agent at the home slice that waits for them (R268, R415). -/
  fetched : List Nat := []
  /-- Lines that the array cannot give while L2, or a write that waits, holds their data: they are lost only if the array is read (R416). -/
  spoilt  : List Nat := []
  lcrUsed : Nat := 0
  lcrDown : Bool := false
  period  : Nat := 0
  wrHigh  : Bool := false
  postponed : Tbl Nat := []
  scrubGt : Nat := 0
  calDue  : Option Nat := none
  calLast : Nat := 0
  ueRows  : List (Nat × Nat) := []
  retrain : List Nat := []
  /-- The controller's counts of errors, which telemetry reads into HBM_CECNT and HBM_UECNT (R281). -/
  ceCount : Nat := 0
  ueCount : Nat := 0
  /-- The generator's place: how many lines of the pass it has served, the line it asks for, and whether this pass has been written and is read back (R285). -/
  tgPos   : Nat := 0
  tgAt    : Nat := 0
  tgRead  : Bool := false
  tgRun   : Bool := false
  /-- With pattern 3: the lines of the pass it has asked for, the rows it has activated in the last 32 ms with their GT, and whether it waits for a row (R284). -/
  tgSeen  : List Nat := []
  tgActs  : List (Nat × Nat) := []
  tgHold  : Bool := false
  deriving DecidableEq, Repr

/-- A copy engine (R286). -/
structure CopyEng where
  launches : List Nat := []
  nextId   : Nat := 0
  retired  : Bool := false
  ueGt     : List Nat := []
  deriving DecidableEq, Repr

/-- A tunnel of Ethernet mode (R394). -/
structure Tunnel where
  up     : Bool := false
  keyed  : Bool := false
  txSeq  : Nat := 0
  rxSeq  : Nat := 0
  ackd   : Nat := 0
  txcnt  : Nat := 0
  unacked : List (Nat × List Msg) := []
  sentGt : Nat := 0
  progGt : Nat := 0
  /-- Credits end to end, as a link's. -/
  used   : Tbl Nat := []
  limit  : Tbl Nat := []
  freed  : Tbl Nat := []
  /-- Messages received in its frames and not yet handled, oldest first. -/
  rxq    : List Msg := []
  deriving DecidableEq, Repr

/-- A link (R358 to R395). -/
structure Link where
  txSeq   : Nat := 0
  rxSeq   : Nat := 0
  ackSeq  : Nat := 0
  nakOut  : Bool := false
  /-- Data flits kept until a FACK covers them (R362), oldest first: SEQ and messages. -/
  replay  : List (Nat × List Msg) := []
  /-- Flits to send again before any new one. -/
  resend  : List (Nat × List Msg) := []
  /-- Messages that wait at this link, oldest first (R370). -/
  txq     : List Msg := []
  /-- Messages received and not yet handled, oldest first. -/
  rxq     : List Msg := []
  /-- Credits that the peer gave in INIT (R365). -/
  initCr  : List Nat := []
  /-- Chosen messages not yet in a flit, with the chunks left of the first. -/
  toSend  : List Msg := []
  chunks  : Nat := 0
  /-- Which of VC2 and VC0 goes next (R370). -/
  alt     : Bool := false
  /-- Credits: used by this transmitter, freed as the peer reports, freed by this receiver (R369). -/
  used    : Tbl Nat := []
  limit   : Tbl Nat := []
  freed   : Tbl Nat := []
  /-- Sessions that have ended in the last 10 ms: the SEQ of the last data flit accepted, and the GT at which each began and ended (R363); and when the present one began. -/
  kept    : List (Nat × Nat × Nat) := []
  upGt    : Nat := 0
  /-- Messages unacknowledged when the link went down, and when. -/
  lost    : List (Nat × List Msg) := []
  downGt  : Nat := 0
  query   : Bool := false
  /-- How often it has gone down, and earlier losses that no answer has settled: their number, their time and their flits (R363). -/
  gen     : Nat := 0
  older   : List (Nat × Nat × List (Nat × List Msg)) := []
  discards : Nat := 0
  tagGt   : List Nat := []
  slots   : Nat := 0
  kphase  : Bool := false
  keys    : Nat := 0
  keyed   : Bool := false
  phaseGt : Nat := 0
  progGt  : Nat := 0
  /-- GT of failed attempts to train. -/
  attempts : List Nat := []
  /-- Launches of which a message has entered the link (R499). -/
  begun   : List Nat := []
  retired : Bool := false
  /-- Last GM and hops announced by the peer (R390), and the directions its router can reach (R375). -/
  peerGm  : Option (Nat × Nat) := none
  peerDirs : BitVec 12 := 0
  echo    : Int := 0
  tunnels : Tbl Tunnel := []
  deriving DecidableEq, Repr

/-- The ROUTES section of the active chart (R215). -/
structure Routes where
  ndim : Nat := 0
  baseid : Nat := 0
  size : List Nat := []
  coord : List Nat := []
  dirlinks : List Nat := []
  ovr : List (Nat × Nat × Nat) := []
  mc : List (Nat × Nat × Nat) := []
  deriving DecidableEq, Repr

/-- The active chart, the boot chart and the retirements. -/
structure Chart where
  parts   : Tbl PartEnt := []
  subst   : List (Nat × Nat) := []
  /-- Retired by the chart: core sets, channels, links (R214). -/
  rCores  : Nat := 0
  rChans  : Nat := 0
  rLinks  : Nat := 0
  /-- Retired by the module itself, as the logbook records (R214). -/
  mCores  : List Nat := []
  mChans  : Nat := 0
  mLinks  : Nat := 0
  routes  : Routes := {}
  active  : Bool := false
  /-- A full chart waits for the resets that its apply began (R219). -/
  applying : Bool := false
  /-- An owner change or a debug unlock waits for the resets that it began (R450, R454). -/
  holding : Bool := false
  /-- The image that waits so. -/
  image   : List Byte := []
  digest  : BitVec 384 := 0
  boot    : Option (List Byte) := none
  deriving DecidableEq, Repr

/-- An IDE stream (R409): keys programmed and in use, and what its configuration names: whether it is enabled, the first and last function of its routing IDs, and the first and last address of its range. -/
structure IdeStream where
  keyed  : Bool := false
  going  : Bool := false
  enabled : Bool := false
  rid    : Word := 0
  base   : Word64 := 0
  limit  : Word64 := 0
  deriving DecidableEq, Repr

/-- The host port (R396 to R414). -/
structure HostPort where
  vfEnable : Bool := false
  numVFs   : Nat := 0
  /-- Vectors that are not masked, and pending bits, keyed fn * 4096 + vector (R408). Every vector is masked at reset, as PCIe has it. -/
  unmasked : List Nat := []
  pend     : List Nat := []
  /-- log2 of BAR2 in GiB, per function (R402). -/
  bar2     : Tbl Nat := []
  /-- FLR phase per function: 0 none, 1 refusing, 3 rekeyed; with its GT (R412). -/
  flr      : Tbl (Nat × Nat) := []
  /-- Errors logged in AER: Unsupported Requests (R397), and poisoned TLPs received (R396; log entry 91). -/
  aer      : Nat := 0
  /-- IDE streams (R409): 0 is Link IDE, 1 to 8 are the Selective streams (R396). -/
  streams  : Tbl IdeStream := []
  /-- MSI-X tables: the message addresses and data, keyed (fn * 4096 + vector) * 4 + word (R398, R402). -/
  msix     : Tbl Word := []
  /-- Functions in D3hot (R396). -/
  d3       : List Nat := []
  deriving DecidableEq, Repr

/-- An SPDM session (R439): whether it is established, its keys and their generation, and how many secured messages it has sent and received (DSP0277). -/
structure Session where
  ready : Bool := false
  key   : BitVec 384 := 0
  keygen : Nat := 0
  sent  : Nat := 0
  received : Nat := 0
  deriving DecidableEq, Repr

/-- The working state of the CTR_DRBG (R437): Key and V. -/
structure Drbg where
  key : BitVec 256 := 0
  v   : BitVec 128 := 0
  deriving DecidableEq, Repr

/-- Trust, presence and tamper state (R437 to R457). -/
structure Security where
  owner   : Option (BitVec 384) := none
  nonce   : Option (BitVec 256 × Nat) := none
  /-- The DRBG, once it is instantiated, and how often it has been (R437). -/
  drbg    : Option Drbg := none
  seeds   : Nat := 0
  /-- The firmware image staged for the next module reset: its SVN and the SHA-384 of its body (R452); and the image that runs, unless it is the one of manufacture. -/
  staged  : Option (BitVec 16 × BitVec 384) := none
  fw      : Option (BitVec 384) := none
  presCount : Nat := 0
  presD   : Nat := 0
  tamperOpen : Nat := 0
  /-- A tenth open sample has been taken, and its event has not (R445). -/
  tamperDue : Bool := false
  tamperClosed : Nat := 0
  /-- Key slots that hold a key: an AES-256-XTS pair (R455, R456); and the module key, once it is drawn after a module reset. -/
  keys    : Tbl (BitVec 512) := []
  moduleKey : Option (BitVec 512) := none
  doe     : Tbl Session := []
  mctp    : Tbl Session := []
  /-- The mailbox command that runs: opcode and request as they stood when GO was written (R448). -/
  op      : Nat := 0
  req     : List Byte := []
  /-- Its result and response, once it has them. -/
  mbx     : Option (Byte × List Byte) := none
  /-- A gated command that has been accepted and not yet made its update (R444): opcode; whether the update has begun and waits for resets (R450, R454); a downgrade that waits so. -/
  accepted : Option Nat := none
  begun   : Bool := false
  fwPend  : Option (BitVec 16 × BitVec 384) := none
  deriving DecidableEq, Repr

/-- Power and cooling (R459 to R484). -/
structure Power where
  samples : List Nat := []
  /-- GT of the last sample (R470). -/
  sampleGt : Option Nat := none
  overRun : Nat := 0
  clampGt : Option Nat := none
  forced  : Bool := false
  /-- Last readings per sensor, and stacks (R474): keyed domain * 4 + i, and 200 + stack. -/
  sensors : Tbl Nat := []
  /-- A thermal trip that awaits its stop: the sensor and its last two readings (R476). -/
  trip    : Option (Nat × Nat × Nat) := none
  aRaw    : Bool := false
  bRaw    : Bool := false
  /-- Filtered values (R478). -/
  aOk     : Bool := false
  bOk     : Bool := false
  d       : Nat := 0
  l       : Nat := 0
  okRun   : Nat := 0
  stopped : Option Nat := none
  perstSeen : Bool := false
  /-- The last 64 samples of both coolant inputs, newest first. -/
  coolHist : List (Bool × Bool) := []
  /-- THERM_ALERT_N is driven low (R477). -/
  alert   : Bool := false
  deriving DecidableEq, Repr

/-- Start-up and reset conditions (R485 to R493). -/
structure Boot where
  perst   : Bool := false
  mainBad : Bool := false
  /-- Means of 50 µs in a row that lay within 48.5 to 57.5 V (R526). -/
  mainRun : Nat := 0
  /-- GT of the last loss of VIN_AUX (R527), and of the beginning of the last module reset. -/
  auxGt   : Nat := 0
  resetGt : Option Nat := none
  /-- GT of each core's last ageing evaluation since the module reset (R469). -/
  aged    : Tbl Nat := []
  auxUp   : Bool := true
  running : Bool := true
  startGt : Nat := 0
  missed  : List Nat := []
  /-- GT of each die's last restart (R493), and of each rail lamp's lighting (R463). -/
  dieGt   : Tbl Nat := []
  railGt  : Tbl Nat := []
  /-- Dies whose reset waits for their partitions' (R493). -/
  dieWait : List Nat := []
  ir      : Byte := 0
  /-- The boundary-scan register's update stage, by pin of J2 and J3, and the bypass register (R514). -/
  scan    : List Bool := []
  bypass  : Bool := false
  boots   : Nat := 0
  /-- What holds the trace port in START mode (R504): 0 start-up, 1 + d the reset of die d; with the GT at which its lamp lit. -/
  starts  : Tbl (Option Nat) := []
  /-- GT has locked to a parent since the module reset (R390). -/
  gtLocked : Bool := false
  cause   : Nat := 0
  deriving DecidableEq, Repr

/-- A trace record (R497). -/
structure TraceRec where
  gtoff : Word
  engine : Nat
  typ   : Nat
  part  : Nat
  rt    : Bool
  data  : Word64
  deriving DecidableEq, Repr

/-- A trace buffer (R501): records with their GT, and those dropped since the last LOST. -/
structure TraceBuf where
  recs : List (Nat × TraceRec) := []
  lost : Nat := 0
  deriving DecidableEq, Repr

/-- A snapshot slot (R511): header fields and the sections' bytes. -/
structure Snap where
  part  : Nat
  epoch : Nat
  complete : Bool
  abandoned : Bool
  queue : Nat
  seq   : Nat
  gt    : Nat
  num   : Nat
  body  : List Byte
  deriving DecidableEq, Repr

/-- Trace, snapshots and hang handling (R497 to R513). -/
structure Debug where
  bufs  : Tbl TraceBuf := []
  rings : Tbl (List TraceRec) := []
  snaps : Tbl Snap := []
  dump  : List Byte := []
  /-- The number of the snapshot of the launch that is dumped or was dumped last (R513). -/
  dumpNum : Nat := 0
  /-- Hung launches waiting for their snapshot, in order of detection; and the one being dumped. -/
  hung  : List Nat := []
  dumping : Option Nat := none
  /-- DEST of that dump. -/
  toPort : Bool := false
  port  : List TraceRec := []
  portWords : List (BitVec 128) := []
  portK : Nat := 0
  /-- Last 2^31 ns multiple anchored, per partition. -/
  base  : Tbl Nat := []
  deriving DecidableEq, Repr

/-- A logbook record (R516). -/
structure LogRec where
  sev  : Nat
  pinned : Bool := false
  carried : Bool := false
  part : Option Nat
  source : Nat
  seq  : Nat := 0
  gt   : Nat
  boot : Nat
  code : Nat
  payload : List Byte
  deriving DecidableEq, Repr

/-- The logbook (R515 to R520). -/
structure Logbook where
  mram : Tbl LogRec := []
  nor  : Tbl LogRec := []
  next : Nat := 0
  ring : Nat := 256
  ovwr : Nat := 0
  drop : Nat := 0
  /-- Records raised and not yet in MRAM, oldest first; raised before LOGBOOK lit. -/
  waiting : List LogRec := []
  held : List LogRec := []
  heldLost : Nat := 0
  dropped : Nat := 0
  /-- Slots in MRAM that NOR does not hold yet, in order. -/
  norWait : List Nat := []
  /-- Slots whose MRAM copy has an uncorrectable error (R415, R517). -/
  badMram : List Nat := []
  /-- GT of the records of the last second (R519). -/
  rate : List Nat := []
  deriving DecidableEq, Repr

/-- What leaves the module (the model's own record, log entry 5). -/
inductive Output where
  /-- An MSI-X message of function `fn` (0 is PF0), vector `vec` (R407, R408). -/
  | irq (fn vec : Nat)
  /-- The data of a register read. -/
  | reg (req off : Nat) (v : Word)
  /-- A request completed as Unsupported Request (R397, R409). -/
  | unsupported (req : Nat)
  /-- The data of a BAR2 read; `none` is a poisoned completion. -/
  | data (req : Nat) (bytes : Option (List Byte))
  /-- What INIT gives the peer of a link: device ID, link number and the credits of this end's buffers (R365, R369). -/
  | init (link device number : Nat) (credits : List Nat)
  /-- A message delivered to a peer on a link, once its flit is sent (R360). -/
  | flit (link : Nat) (f : Flit)
  /-- A tunnel frame (R393). -/
  | frame (link tunnel : Nat) (f : EthFrame)
  /-- An SPDM response outside a session (R439): its code and content. -/
  | spdm (t : Transport) (code : Nat) (body : List Byte)
  /-- A secured message of a session: what it wraps, and the ciphertext that leaves (R439, R441). -/
  | secured (t : Transport) (session code : Nat) (body wire : List Byte)
  /-- A 130-bit block of the trace port: lane, sync header and 128 bits (R505). -/
  | port (lane sync : Nat) (w : BitVec 128)
  /-- A write to host memory under a function's routing ID, and its Relaxed Ordering attribute; No Snoop is clear in every request (R406). -/
  | host (fn addr : Nat) (bytes : List Byte) (relaxed : Bool)
  /-- A read of host memory under a function's routing ID, without Relaxed Ordering (R406). -/
  | hostRead (fn addr n : Nat)
  /-- A zero-length read of host memory, behind a write with EA 0 (R230), without Relaxed Ordering (R406). -/
  | zeroRead (fn addr : Nat)
  /-- What the TAP's selected data register shifts out (R514): the device's identity, the bypass bit, or the pins of the boundary-scan register. -/
  | tdr (v : Word)
  | tdrScan (pins : List Bool)
  deriving DecidableEq, Repr

/-- The state of the module. -/
structure State where
  /-- Commands that wait, first in first out. -/
  pending  : List Instr := []
  /-- Global time in ns (R9). -/
  gt       : Word64 := 0
  /-- The counter of free values (log entry 2). -/
  free     : Nat := 0
  /-- What left the module, newest first. -/
  out      : List Output := []
  /-- The register file, keyed by BAR0 offset of PF0, or function * 2^32 + offset. Registers at their reset value are not listed. -/
  regs     : Tbl Word := []
  /-- R11: captured 64-bit values, keyed requester * 2^64 + register key. -/
  latch    : Tbl Word64 := []
  /-- R12: held _LO writes. -/
  held     : Tbl Word := []
  /-- HBM bytes that have been written, by DPA. -/
  mem      : List Host.Cell := []
  /-- How often each channel's partition memory was lost. -/
  memEpoch : Tbl Nat := []
  /-- Poisoned lines, by DPA / 128. -/
  poison   : List Nat := []
  cores    : Tbl Core := []
  launches : Tbl Launch := []
  nextLaunch : Nat := 0
  /-- Queues, keyed partition * 256 + queue. -/
  queues   : Tbl Queue := []
  parts    : Tbl Part := []
  dies     : Tbl Die := []
  chans    : Tbl Chan := []
  copies   : Tbl CopyEng := []
  links    : Tbl Link := []
  /-- Failed die-to-die links (R27). The spec gives the links no numbers: that 0 is CD0-CD1, 1 CD1-CD3, 2 CD3-CD2 and 3 CD2-CD0, the order in which R25 walks the ring, is the model's (DESIGN CHOICE, log entry 67). -/
  d2d      : List Nat := []
  chart    : Chart := {}
  host     : HostPort := {}
  sec      : Security := {}
  pwr      : Power := {}
  boot     : Boot := {}
  dbg      : Debug := {}
  log      : Logbook := {}
  deriving DecidableEq, Repr

/-- The machine right after reset: every register at the value its table gives (the register file lists only departures from it), nothing in memory, no chart active, no command waiting. The values the manual does not give are named in log entry 3. -/
def State.reset : State := {}

end Sys2Proof.Machine
end

