-- ==== Sys2Proof/Machine/Table.lean ====
section
/-! DEFINITION. Tables and byte memories in canonical form: keys strictly rising, so that equal contents are equal data. -/

namespace Sys2Proof.Machine

/-- The entry of key `k`. -/
def tfind {α : Type} : Tbl α → Nat → Option α
  | [], _ => none
  | (j, v) :: t, k => if j = k then some v else tfind t k

/-- The entry of key `k`, or `d` where none is listed. -/
def tget {α : Type} (d : α) (t : Tbl α) (k : Nat) : α := (tfind t k).getD d

/-- Set the entry of key `k`, keeping the keys rising. -/
def tset {α : Type} : Tbl α → Nat → α → Tbl α
  | [], k, v => [(k, v)]
  | (j, u) :: t, k, v =>
    if k < j then (k, v) :: (j, u) :: t
    else if k = j then (k, v) :: t
    else (j, u) :: tset t k v

/-- Remove every entry of key `k`. -/
def tdel {α : Type} : Tbl α → Nat → Tbl α
  | [], _ => []
  | (j, u) :: t, k => if j = k then tdel t k else (j, u) :: tdel t k

/-- Set key `k` in a table whose unlisted keys read `d`: an entry equal to `d` is not listed. -/
def tput {α : Type} [DecidableEq α] (d : α) (t : Tbl α) (k : Nat) (v : α) : Tbl α :=
  if v = d then tdel t k else tset t k v

/-- Keys strictly rise. -/
def tsorted {α : Type} : Tbl α → Bool
  | [] => true
  | [_] => true
  | (j, _) :: (k, v) :: t => j < k && tsorted ((k, v) :: t)

/-- The keys of a table. -/
def tkeys {α : Type} (t : Tbl α) : List Nat := t.map (·.1)

/-- Insert into a rising list of numbers. -/
def sins : List Nat → Nat → List Nat
  | [], k => [k]
  | j :: t, k => if k < j then k :: j :: t else if k = j then j :: t else j :: sins t k

/-- One byte of a memory, if it has been written. -/
def mget? (m : List Host.Cell) (a : Nat) : Option Byte := tfind m a

/-- Write one byte. -/
def mset (m : List Host.Cell) (a : Nat) (v : Byte) : List Host.Cell := tset m a v

/-- Write consecutive bytes, the first at `a`. -/
def msetBytes : List Host.Cell → Nat → List Byte → List Host.Cell
  | m, _, [] => m
  | m, a, b :: bs => msetBytes (mset m a b) (a + 1) bs

/-- The canonical form of a byte memory. -/
def memWf (m : List Host.Cell) : Bool := tsorted m

/-- The numbers 0 to n − 1. -/
def upTo (n : Nat) : List Nat := List.range n

/-- Little-endian value of bytes (R7). -/
def leNat : List Byte → Nat
  | [] => 0
  | b :: bs => b.toNat + 256 * leNat bs

/-- The n little-endian bytes of a value. -/
def leBytes : Nat → Nat → List Byte
  | 0, _ => []
  | n + 1, v => BitVec.ofNat 8 v :: leBytes n (v / 256)

/-- `n` bytes of a list from offset `off`, zeros past its end. -/
def slice (bs : List Byte) (off n : Nat) : List Byte :=
  (upTo n).map fun i => bs.getD (off + i) 0

/-- The little-endian number at offset `off`, `n` bytes. -/
def numAt (bs : List Byte) (off n : Nat) : Nat := leNat (slice bs off n)

/-- Replace bytes of a list from offset `off`. -/
def patchBytes (bs : List Byte) (off : Nat) (new : List Byte) : List Byte :=
  bs.take off ++ new ++ bs.drop (off + new.length)

/-- Replace bits [lo+n-1:lo] of a number by the low n bits of `v`. -/
def putBits (x lo n v : Nat) : Nat :=
  x % 2 ^ lo + v % 2 ^ n * 2 ^ lo + x / 2 ^ (lo + n) * 2 ^ (lo + n)

/-- The n bits of a number from bit `lo`. -/
def getBits (x lo n : Nat) : Nat := x / 2 ^ lo % 2 ^ n

/-- A count that saturates at `top`. -/
def satAdd (x n top : Nat) : Nat := min (x + n) top

/-- The first number from `n` on, among `fuel`, that satisfies a test. -/
def firstFree (p : Nat → Bool) : Nat → Nat → Option Nat
  | 0, _ => none
  | f + 1, n => if p n then some n else firstFree p f (n + 1)

/-- The element of a list chosen by the smallest key, the first on a tie. -/
def argmin {α : Type} (f : α → Nat) : List α → Option α
  | [] => none
  | x :: xs => match argmin f xs with
    | none => some x
    | some y => if f y < f x then some y else some x

end Sys2Proof.Machine
end

