-- ==== Sys2Proof/Machine/Flags.lean ====
section
/-! DEFINITION. Floating-point values, rounding and flags (R40, R41, R67, R119 to R122), element formats and anchored accumulation (R44 to R52), and the drain (R61, R62). -/

namespace Sys2Proof.Machine

/-- A binary format: widths of its exponent and mantissa, its bias and the first code above its largest finite value. -/
structure Fmt where
  ew   : Nat
  mw   : Nat
  bias : Nat
  top  : Nat
  deriving DecidableEq, Repr

def Fmt.f16 : Fmt := ⟨5, 10, 15, 0x7C00⟩
def Fmt.bf16 : Fmt := ⟨8, 7, 127, 0x7F80⟩
def Fmt.f32 : Fmt := ⟨8, 23, 127, 0x7F800000⟩
def Fmt.f64 : Fmt := ⟨11, 52, 1023, 0x7FF0000000000000⟩
def Fmt.e5m2 : Fmt := ⟨5, 2, 15, 0x7C⟩
/-- E4M3 has no infinity: 0x7F is NaN (R40). -/
def Fmt.e4m3 : Fmt := ⟨4, 3, 7, 0x7F⟩

/-- Bits of a format without its sign. -/
def Fmt.mag (f : Fmt) : Nat := f.ew + f.mw
/-- The exponent of the smallest subnormal. -/
def Fmt.qmin (f : Fmt) : Int := 1 - (f.bias : Int) - (f.mw : Int)

/-- A value: NaN (signalling or quiet), infinity, or (−1)^neg × m × 2^e. -/
inductive FV where
  | nan (signalling : Bool)
  | inf (neg : Bool)
  | fin (neg : Bool) (m : Nat) (e : Int)
  deriving DecidableEq, Repr

/-- The flags of R120 as bits: invalid 0, division by zero 1, overflow 2, underflow 3, inexact 4. -/
abbrev Fl := BitVec 5
def flNone : Fl := 0
def flInvalid : Fl := 1
def flDivZero : Fl := 2
def flOverflow : Fl := 4
def flUnderflow : Fl := 8
def flInexact : Fl := 16

/-- Read an encoding (R40, R41): subnormals keep their value. -/
def Fmt.decode (f : Fmt) (x : Nat) : FV :=
  let neg := getBits x f.mag 1 == 1
  let ex := getBits x f.mw f.ew
  let mn := getBits x 0 f.mw
  let mg := getBits x 0 f.mag
  if f.ew = 4 ∧ mg = f.top then .nan false
  else if f.ew ≠ 4 ∧ mg = f.top then .inf neg
  else if f.ew ≠ 4 ∧ mg > f.top then .nan (mn / 2 ^ (f.mw - 1) % 2 == 0)
  else if ex = 0 then .fin neg mn f.qmin
  else .fin neg (2 ^ f.mw + mn) (f.qmin + (ex : Int) - 1)

/-- The canonical quiet NaN (R119, R62). -/
def Fmt.nanBits (f : Fmt) : Nat := if f.ew = 5 ∧ f.mw = 2 then 0x7F else if f.ew = 4 then 0x7F else f.top + 2 ^ (f.mw - 1)

/-- Rounding directions of R119. -/
inductive Rm where
  | ne
  | tz
  | up
  | dn
  deriving DecidableEq, Repr

def Rm.of : Nat → Rm
  | 0 => .ne
  | 1 => .tz
  | 2 => .up
  | _ => .dn

/-- Whether a magnitude with quotient parity `odd` and remainder `rem` of `2^d` rounds away from zero. -/
def Rm.away (rm : Rm) (neg odd : Bool) (rem half : Nat) : Bool :=
  match rm with
  | .ne => decide (rem > half) || (decide (rem = half ∧ rem ≠ 0) && odd)
  | .tz => false
  | .up => !neg && decide (rem ≠ 0)
  | .dn => neg && decide (rem ≠ 0)

/-- m × 2^e as a multiple of 2^q, rounded; and whether it was exact. -/
def roundQ (rm : Rm) (neg : Bool) (m : Nat) (e q : Int) : Nat × Bool :=
  if q ≤ e then (m * 2 ^ (e - q).toNat, true)
  else
    let d := (q - e).toNat
    let r := m / 2 ^ d
    let rem := m % 2 ^ d
    let half := 2 ^ (d - 1)
    (if rm.away neg (r % 2 == 1) rem half then r + 1 else r, rem == 0)

/-- The binade of m × 2^e, m > 0. -/
def binade (m : Nat) (e : Int) : Int := (Nat.log2 m : Int) + e

/-- Round a finite value into a format: the magnitude's code (at or above `top` for overflow) and the flags underflow and inexact of R120. -/
def Fmt.code (f : Fmt) (rm : Rm) (neg : Bool) (m : Nat) (e : Int) : Nat × Fl :=
  if m = 0 then (0, flNone)
  else
    let b := binade m e
    let q := max (b - (f.mw : Int)) f.qmin
    let r := roundQ rm neg m e q
    let code := (q - f.qmin).toNat * 2 ^ f.mw + r.1
    let free := roundQ rm neg m e (b - (f.mw : Int))
    let tiny := decide (b < f.qmin + (f.mw : Int)) && !(b == f.qmin + (f.mw : Int) - 1 && free.1 == 2 ^ (f.mw + 1))
    (code, if r.2 then flNone else if tiny then flUnderflow ||| flInexact else flInexact)

/-- What overflow gives, by rounding direction: infinity or the largest finite value. -/
def Rm.toInf (rm : Rm) (neg : Bool) : Bool :=
  match rm with
  | .ne => true
  | .tz => false
  | .up => !neg
  | .dn => neg

/-- Encode a value of an IEEE format with its flags (R67, R119, R120). -/
def Fmt.encode (f : Fmt) (rm : Rm) (v : FV) : Nat × Fl :=
  let sgn (neg : Bool) : Nat := if neg then 2 ^ f.mag else 0
  match v with
  | .nan s => (f.nanBits, if s then flInvalid else flNone)
  | .inf neg => (sgn neg + f.top, flNone)
  | .fin neg m e =>
    let c := f.code rm neg m e
    if c.1 ≥ f.top then
      (sgn neg + (if rm.toInf neg then f.top else f.top - 1), flOverflow ||| flInexact)
    else (sgn neg + c.1, c.2)

/-- Encode to E4M3 or E5M2 by the row of R62, saturating or not. -/
def Fmt.encode8 (f : Fmt) (sat : Bool) (v : FV) : Nat × Fl :=
  let sgn (neg : Bool) : Nat := if neg then 0x80 else 0
  let big8 (neg : Bool) : Nat :=
    if sat then sgn neg + f.top - 1
    else if f.ew = 4 then 0x7F else sgn neg + f.top
  match v with
  | .nan s => (0x7F, if s then flInvalid else flNone)
  | .inf neg => (big8 neg, flNone)
  | .fin neg m e =>
    let c := f.code .ne neg m e
    if c.1 ≥ f.top then (big8 neg, flOverflow ||| flInexact) else (sgn neg + c.1, c.2)

def FV.isNan : FV → Bool
  | .nan _ => true
  | _ => false
def FV.isSnan : FV → Bool
  | .nan s => s
  | _ => false
def FV.neg : FV → FV
  | .nan s => .nan s
  | .inf n => .inf !n
  | .fin n m e => .fin (!n) m e
/-- A finite value as an integer of multiples of 2^q, q at or below its exponent. -/
def signedAt (n : Bool) (m : Nat) (e q : Int) : Int :=
  let x : Int := (m * 2 ^ (e - q).toNat : Nat)
  if n then -x else x

/-- The sum of two finite values, exactly; a zero sum of values whose signs differ is −0 only when rounding down. -/
def addFin (rm : Rm) (n1 : Bool) (m1 : Nat) (e1 : Int) (n2 : Bool) (m2 : Nat) (e2 : Int) : FV :=
  let q := min e1 e2
  let s := signedAt n1 m1 e1 q + signedAt n2 m2 e2 q
  if s = 0 then
    .fin (if n1 = n2 then n1 else rm == .dn) 0 q
  else .fin (decide (s < 0)) s.natAbs q

/-- Whether any operand is signalling. -/
def snanFlag (vs : List FV) : Fl := if vs.any FV.isSnan then flInvalid else flNone

def fvAdd (rm : Rm) (a b : FV) : FV × Fl :=
  match a, b with
  | .nan _, _ => (.nan false, snanFlag [a, b])
  | _, .nan _ => (.nan false, snanFlag [a, b])
  | .inf x, .inf y => if x = y then (.inf x, flNone) else (.nan false, flInvalid)
  | .inf x, .fin .. => (.inf x, flNone)
  | .fin .., .inf y => (.inf y, flNone)
  | .fin n1 m1 e1, .fin n2 m2 e2 => (addFin rm n1 m1 e1 n2 m2 e2, flNone)

def FV.isZero : FV → Bool
  | .fin _ m _ => m == 0
  | _ => false

def FV.sign : FV → Bool
  | .nan _ => false
  | .inf n => n
  | .fin n _ _ => n

def fvMul (a b : FV) : FV × Fl :=
  match a, b with
  | .nan _, _ => (.nan false, snanFlag [a, b])
  | _, .nan _ => (.nan false, snanFlag [a, b])
  | .inf x, y => if y.isZero then (.nan false, flInvalid) else (.inf (x != y.sign), flNone)
  | x, .inf y => if x.isZero then (.nan false, flInvalid) else (.inf (x.sign != y), flNone)
  | .fin n1 m1 e1, .fin n2 m2 e2 => (.fin (n1 != n2) (m1 * m2) (e1 + e2), flNone)

/-- a × b + c, unrounded. 0 × Inf is invalid whatever the addend (R120). -/
def fvFma (rm : Rm) (a b c : FV) : FV × Fl :=
  let zi := match a, b with
    | .inf _, y => y.isZero
    | x, .inf _ => x.isZero
    | _, _ => false
  if zi then (.nan false, flInvalid)
  else if a.isNan || b.isNan || c.isNan then (.nan false, snanFlag [a, b, c])
  else fvAdd rm (fvMul a b).1 c

/-- Order of two values that are not NaN: −1, 0 or 1. -/
def fvOrd (a b : FV) : Int :=
  match a, b with
  | .inf x, .inf y => if x = y then 0 else if x then -1 else 1
  | .inf x, _ => if x then -1 else 1
  | _, .inf y => if y then 1 else -1
  | .fin n1 m1 e1, .fin n2 m2 e2 =>
    let q := min e1 e2
    let d := signedAt n1 m1 e1 q - signedAt n2 m2 e2 q
    if d < 0 then -1 else if d > 0 then 1 else 0
  | _, _ => 0

/-- min and max of R119: −0 below +0. Answers which operand (true: the first), or none for NaN. -/
def fvPick (isMin : Bool) (a b : FV) : Option Bool :=
  if a.isNan && b.isNan then none
  else if a.isNan then some false
  else if b.isNan then some true
  else
    let o := fvOrd a b
    let o := if o = 0 then (if a.sign && !b.sign then -1 else if !a.sign && b.sign then 1 else 0) else o
    some (if isMin then decide (o ≤ 0) else decide (o ≥ 0))

/-- A two- or three-operand arithmetic operation of R119 in one format: 0 add, 1 sub, 2 mul, 3 fma. -/
def fpArith (f : Fmt) (op : Nat) (rm : Rm) (a b c : Nat) : Nat × Fl :=
  let x := f.decode a
  let y := f.decode b
  let r := match op with
    | 0 => fvAdd rm x y
    | 1 => fvAdd rm x y.neg
    | 2 => fvMul x y
    | _ => fvFma rm x y (f.decode c)
  let o := f.encode rm r.1
  (o.1, r.2 ||| o.2)

/-- min, max, abs and neg (R119): operations 4 to 7. -/
def fpOther (f : Fmt) (op : Nat) (a b : Nat) : Nat × Fl :=
  let x := f.decode a
  let y := f.decode b
  match op with
  | 6 => (getBits a 0 f.mag, flNone)
  | 7 => (getBits a 0 f.mag + (if getBits a f.mag 1 = 1 then 0 else 2 ^ f.mag), flNone)
  | _ =>
    (match fvPick (op == 4) x y with
     | none => f.nanBits
     | some true => getBits a 0 (f.mag + 1)
     | some false => getBits b 0 (f.mag + 1),
     snanFlag [x, y])

/-- An instruction of R119 in one format. -/
def fpOp (f : Fmt) (op : Nat) (rm : Rm) (a b c : Nat) : Nat × Fl :=
  if op < 4 then fpArith f op rm a b c else fpOther f op a b

/-- The conditions of R117 on floating values; codes above 7 are reserved. -/
def fpCmp (f : Fmt) (cond a b : Nat) : Bool × Fl :=
  let x := f.decode a
  let y := f.decode b
  let un := x.isNan || y.isNan
  let o := fvOrd x y
  let r := match cond with
    | 0 => !un && o == 0
    | 1 => un || o != 0
    | 2 => !un && decide (o < 0)
    | 3 => !un && decide (o ≤ 0)
    | 4 => !un && decide (o > 0)
    | 5 => !un && decide (o ≥ 0)
    | 6 => !un
    | _ => un
  (r, if 2 ≤ cond ∧ cond ≤ 5 then (if un then flInvalid else flNone) else snanFlag [x, y])

/-! Conversions (R121). -/

/-- The type of a code of R121. -/
inductive CvT where
  | int (signed : Bool) (width : Nat)
  | flt (f : Fmt)
  | fp8 (f : Fmt)
  deriving DecidableEq, Repr

def cvType : Nat → Option CvT
  | 0 => some (.int true 32)
  | 1 => some (.int false 32)
  | 2 => some (.int true 64)
  | 3 => some (.int false 64)
  | 4 => some (.flt .f16)
  | 5 => some (.flt .bf16)
  | 6 => some (.flt .f32)
  | 7 => some (.flt .f64)
  | 8 => some (.fp8 .e4m3)
  | 9 => some (.fp8 .e5m2)
  | 10 => some (.int true 8)
  | 11 => some (.int false 8)
  | 12 => some (.int true 16)
  | 13 => some (.int false 16)
  | _ => none

/-- Whether a type occupies a register pair. -/
def CvT.pair : CvT → Bool
  | .int _ w => w == 64
  | .flt f => f.ew == 11
  | .fp8 _ => false

/-- The integer that a source's bits mean. -/
def intOf (signed : Bool) (w x : Nat) : Int := if signed then signedOf w x else (x % 2 ^ w : Nat)

/-- The ends of an integer type's range. -/
def intLo (signed : Bool) (w : Nat) : Int := if signed then -(2 ^ (w - 1) : Nat) else 0
def intHi (signed : Bool) (w : Nat) : Int := if signed then (2 ^ (w - 1) : Nat) - 1 else (2 ^ w : Nat) - 1
/-- An integer's two's-complement bits. -/
def intBits (w : Nat) (x : Int) : Nat := (x % (2 ^ w : Nat)).toNat
def clampInt (lo hi x : Int) : Int := if x < lo then lo else if x > hi then hi else x

/-- Float to integer (R121). -/
def cvtToInt (signed : Bool) (w : Nat) (rm : Rm) (v : FV) : Nat × Fl :=
  let lo := intLo signed w
  let hi := intHi signed w
  match v with
  | .nan _ => (0, flInvalid)
  | .inf n => (intBits w (if n then lo else hi), flInvalid)
  | .fin n m e =>
    let r := roundQ rm n m e 0
    let x : Int := if n then -(r.1 : Int) else (r.1 : Int)
    if x < lo ∨ hi < x then (intBits w (clampInt lo hi x), flInvalid)
    else (intBits w x, if r.2 then flNone else flInexact)

def intFV (x : Int) : FV := .fin (decide (x < 0)) x.natAbs 0

/-- Convert `x` between two types (R121); the result's upper bits are 0. -/
def cvt (src dst : CvT) (rm : Rm) (mod2 : Bool) (x : Nat) : Nat × Fl :=
  match src, dst with
  | .int s w, .int s' w' =>
    let v := intOf s w x
    (intBits w' (if mod2 then clampInt (intLo s' w') (intHi s' w') v else v), flNone)
  | .int s w, .flt f => f.encode rm (intFV (intOf s w x))
  | .int s w, .fp8 f => f.encode8 mod2 (intFV (intOf s w x))
  | .flt g, .int s w => cvtToInt s w rm (g.decode x)
  | .fp8 g, .int s w => cvtToInt s w rm (g.decode (x % 256))
  | .flt g, .fp8 f => f.encode8 mod2 (g.decode x)
  | .fp8 g, .fp8 f => f.encode8 mod2 (g.decode (x % 256))
  | .flt g, .flt f =>
    let r := f.encode rm (g.decode x)
    (r.1, if f.ew ≥ g.ew ∧ f.mw ≥ g.mw then flNone else r.2)
  | .fp8 g, .flt f => ((f.encode rm (g.decode (x % 256))).1, flNone)

/-! Special functions (R122): the special cases, and elsewhere the free value of Config within the stated bound (log entry 7). Reference values are rationals: integers over 2^100. -/

/-- A fixed-point number in units of 2^-100. -/
abbrev Fx := Int

def fxOne : Fx := 2 ^ 100
def fxMul (a b : Fx) : Fx := a * b / 2 ^ 100
/-- ln 2 and 2 π in units of 2^-100. -/
def fxLn2 : Fx := 878668439483319573618263538048
def fxTwoPi : Fx := 7964883625991394727376702227904

/-- Σ x^i / i! by Horner's rule, `n` terms. -/
def fxExp : Nat → Nat → Fx → Fx
  | 0, _, _ => fxOne
  | n + 1, i, x => fxOne + fxMul x (fxExp n (i + 1) x) / (i : Int)

/-- 1 − x²/(i (i+1)) (1 − …), `n` terms: the cosine from i = 1, and the sine over x from i = 2. -/
def fxTrig : Nat → Nat → Fx → Fx
  | 0, _, _ => fxOne
  | n + 1, i, x2 => fxOne - fxMul x2 (fxTrig n (i + 2) x2) / ((i * (i + 1) : Nat) : Int)

/-- Bits of log2 of m in [1, 2), by squaring. -/
def fxLog : Nat → Fx → Fx → Fx
  | 0, _, acc => acc
  | n + 1, m, acc =>
    let m2 := fxMul m m
    if m2 ≥ 2 * fxOne then fxLog n (m2 / 2) (acc + 2 ^ (n + 36)) else fxLog n m2 acc

/-- A finite FP32 value in units of 2^-100, truncated. -/
def fxOf : FV → Fx
  | .fin n m e =>
    let x : Int := if e + 100 ≥ 0 then (m * 2 ^ (e + 100).toNat : Nat) else (m / 2 ^ (-(e + 100)).toNat : Nat)
    if n then -x else x
  | _ => 0

/-- The largest n with n² ≤ x, `fuel` bits. -/
def isqrtBits : Nat → Nat → Nat → Nat
  | 0, _, r => r
  | k + 1, x, r => let t := r + 2 ^ k; if t * t ≤ x then isqrtBits k x t else isqrtBits k x r

/-- The reference value of a special function at a finite operand away from the special cases, as an unrounded magnitude near the true one: sign, m, e. -/
def sfRef (op : Nat) (n : Bool) (m : Nat) (e : Int) : FV :=
  let ofFx (x : Fx) (sh : Int) : FV := .fin (decide (x < 0)) x.natAbs (sh - 100)
  match op with
  | 0 => .fin n (2 ^ 120 / m) (-120 - e)
  | 1 =>
    let e2 := if e % 2 = 0 then e else e - 1
    let m2 := if e % 2 = 0 then m else 2 * m
    .fin false (isqrtBits 80 (2 ^ 160 / m2) 0) (-80 - e2 / 2)
  | 2 =>
    let x := fxOf (.fin n m e)
    let k := x / fxOne
    ofFx (fxExp 40 1 (fxMul (x - k * fxOne) fxLn2)) k
  | 3 =>
    let b := binade m e
    let x := fxOf (.fin false m (e - b))
    ofFx (fxLog 64 x (b * fxOne)) 0
  | _ =>
    let x := fxOf (.fin n m e) % fxTwoPi
    let x2 := fxMul x x
    if op = 4 then ofFx (fxMul x (fxTrig 40 2 x2)) 0 else ofFx (fxTrig 40 1 x2) 0

/-- |a − b| ≤ d for finite values. -/
def fvNear (a b d : FV) : Bool :=
  match a, b, d with
  | .fin n1 m1 e1, .fin n2 m2 e2, .fin _ m3 e3 =>
    let q := min (min e1 e2) e3
    decide ((signedAt n1 m1 e1 q - signedAt n2 m2 e2 q).natAbs ≤ (signedAt false m3 e3 q).natAbs)
  | _, _, _ => false

/-- The error that R122 allows at a reference value: so many ulp, or an absolute bound. -/
def sfBound (op : Nat) (x r : FV) : FV :=
  let ulp : FV := match r with
    | .fin _ m e => if m = 0 then .fin false 1 (-149) else .fin false 1 (max (binade m e - 23) (-149))
    | _ => .fin false 0 0
  let twice : FV := match ulp with
    | .fin _ m e => .fin false m (e + 1)
    | v => v
  match op with
  | 0 => ulp
  | 1 => ulp
  | 2 => twice
  | 3 => if fvOrd x (.fin false 1 (-1)) ≥ 0 ∧ fvOrd x (.fin false 2 0) ≤ 0 then .fin false 1 (-22) else twice
  | _ => .fin false 1 (-22)

/-- The value where R122 states no special case: the free value when it keeps the bound, else the reference rounded. Of sf.exp2, and of sf.inv of a subnormal, beyond the largest finite value the spec states no result: the free value without a bound (DESIGN CHOICE, log entry 26). -/
def sfFree (op : Nat) (w : Word) (x : FV) : Nat :=
  match x with
  | .fin n m e =>
    let big := 4 ≤ op ∧ decide (fvOrd (.fin false m e) (.fin false 105414356 (-10)) > 0)
    let c := (Config.sfu op w).toNat
    let cv := Fmt.f32.decode c
    if big then
      if fvNear cv (.fin false 0 0) (.fin false 1 0) then c else 0
    else
      let r := sfRef op n m e
      let o := (Fmt.f32.encode .ne r).1
      if o % 2 ^ 31 ≥ Fmt.f32.top then c
      else if fvNear cv r (sfBound op x r) then c else o
  | _ => (Config.sfu op w).toNat

/-- A special function (R122): 0 inv, 1 isqrt, 2 exp2, 3 log2, 4 sin, 5 cos. -/
def sfOp (op : Nat) (w : Word) : Nat × Fl :=
  let x := Fmt.f32.decode w.toNat
  let nan := Fmt.f32.nanBits
  let inf (n : Bool) : Nat := Fmt.f32.top + (if n then 2 ^ 31 else 0)
  let other : Nat × Fl := (sfFree op w x, Config.sfuFlags op w)
  match x with
  | .nan s => (nan, if s then flInvalid else flNone)
  | .inf n =>
    match op with
    | 0 => (if n then 2 ^ 31 else 0, flNone)
    | 1 => if n then (nan, flInvalid) else (0, flNone)
    | 2 => if n then (0, flNone) else other
    | 3 => if n then (nan, flInvalid) else other
    | _ => (nan, flInvalid)
  | .fin n m e =>
    match op with
    | 0 => if m = 0 then (inf n, flDivZero) else other
    | 1 => if m = 0 then (if n then ((Config.sfu op w).toNat, Config.sfuFlags op w) else (inf false, flDivZero)) else if n then (nan, flInvalid) else other
    | 2 => if n ∧ fvOrd (.fin true m e) (.fin true 149 0) < 0 then (0, flUnderflow ||| flInexact) else other
    | 3 => if m = 0 then (inf true, flDivZero) else if n then (nan, flInvalid) else other
    | _ => other

/-! Elements of the matrix unit (R40 to R47). -/

/-- An element: NaN, infinity, or an integer in units of its format's smallest nonzero value. -/
inductive Elem where
  | nan
  | inf (neg : Bool)
  | val (v : Int)
  deriving DecidableEq, Repr

/-- The element formats by code (05_matrix_unit, R148): width in bits, and the binary format where there is one. -/
inductive ElemFmt where
  | e4m3 | e5m2 | e2m3 | e3m2 | e2m1 | fp16 | bf16 | int8 | int4
  deriving DecidableEq, Repr

def ElemFmt.bits : ElemFmt → Nat
  | .e2m3 | .e3m2 => 6
  | .e2m1 | .int4 => 4
  | .fp16 | .bf16 => 16
  | _ => 8

/-- log2 of the smallest nonzero value (R40). -/
def ElemFmt.q : ElemFmt → Int
  | .e4m3 => -9
  | .e5m2 => -16
  | .e2m3 => -3
  | .e3m2 => -4
  | .e2m1 => -1
  | .fp16 => -24
  | .bf16 => -133
  | _ => 0

/-- A finite value in units of 2^q. -/
def fvElem (q : Int) : FV → Elem
  | .nan _ => .nan
  | .inf n => .inf n
  | .fin n m e => .val (signedAt n m e q)

/-- A small format without special encodings: exponent width and mantissa width. -/
def smallElem (ew mw x : Nat) : Elem :=
  let ex := getBits x mw ew
  let m := getBits x 0 mw
  let v : Int := if ex = 0 then (m : Int) else ((2 ^ mw + m) * 2 ^ (ex - 1) : Nat)
  .val (if getBits x (ew + mw) 1 = 1 then -v else v)

/-- Read an element (R40, R41, R42). -/
def ElemFmt.decode (f : ElemFmt) (x : Nat) : Elem :=
  match f with
  | .e4m3 => fvElem f.q (Fmt.e4m3.decode x)
  | .e5m2 => fvElem f.q (Fmt.e5m2.decode x)
  | .e2m3 => smallElem 2 3 x
  | .e3m2 => smallElem 3 2 x
  | .e2m1 => smallElem 2 1 x
  | .fp16 => fvElem f.q (Fmt.f16.decode x)
  | .bf16 => fvElem f.q (Fmt.bf16.decode x)
  | .int8 => .val (signedOf 8 x)
  | .int4 => .val (signedOf 4 x)

/-- Units of an operand's elements: a scaled INT8 is MXINT8, whose unit is 2^-6 (R42). -/
def unitOf (f : ElemFmt) (scaled : Bool) : Int := if f = .int8 ∧ scaled then -6 else f.q

/-! Anchored accumulation (R48 to R52). -/

/-- Hidden state bits of an entry: SAT 0, NAN 1, PINF 2, NINF 3. -/
structure Entry where
  n      : Int := 0
  hidden : BitVec 4 := 0
  deriving DecidableEq, Repr

/-- Status bits (R50). -/
def tsInexact : BitVec 8 := 1
def tsOvf : BitVec 8 := 2
def tsNan : BitVec 8 := 4
def tsPinf : BitVec 8 := 8
def tsNinf : BitVec 8 := 16

/-- Add c × 2^e to an entry at anchor `a` (R51): the entry and the status bits set. -/
def anchoredAdd (a : Int) (en : Entry) (c : Int) (e : Int) : Entry × BitVec 8 :=
  let l := a - 96
  let exact := l ≤ e ∨ c % (2 ^ (l - e).toNat : Nat) = 0
  let v := if l ≤ e then c * (2 ^ (e - l).toNat : Nat) else c.tdiv (2 ^ (l - e).toNat : Nat)
  let ix := if exact then 0 else tsInexact
  if en.hidden.getLsbD 0 then (en, ix)
  else
    let s := en.n + v
    if s < -(2 ^ 127) then ({ n := -(2 ^ 127), hidden := en.hidden ||| 1 }, ix ||| tsOvf)
    else if s > 2 ^ 127 - 1 then ({ n := 2 ^ 127 - 1, hidden := en.hidden ||| 1 }, ix ||| tsOvf)
    else ({ en with n := s }, ix)

/-- What a K-block gives an entry (R47, R60): its exact sum, and the special states it sets. -/
structure Contribution where
  sum  : Int := 0
  nan  : Bool := false
  pinf : Bool := false
  ninf : Bool := false
  deriving DecidableEq, Repr

/-- One product (R60). -/
def addProduct (k : Contribution) (x y : Elem) : Contribution :=
  match x, y with
  | .nan, _ => { k with nan := true }
  | _, .nan => { k with nan := true }
  | .val a, .val b => { k with sum := k.sum + a * b }
  | .inf n, .inf n' => if n = n' then { k with pinf := true } else { k with ninf := true }
  | .inf n, .val b =>
    if b = 0 then { k with nan := true }
    else if n = decide (b < 0) then { k with pinf := true } else { k with ninf := true }
  | .val b, .inf n =>
    if b = 0 then { k with nan := true }
    else if n = decide (b < 0) then { k with pinf := true } else { k with ninf := true }

/-- The contribution of a K-block (R47); `nanScale`: a block scale is 0xFF (R60). Such a block gives NaN alone, whatever its products are: R60 does not say whether an infinity among them is noted beside it (DESIGN CHOICE, log entry 113). -/
def kblock (nanScale : Bool) (xs : List (Elem × Elem)) : Contribution :=
  if nanScale then { nan := true }
  else xs.foldl (fun k p => addProduct k p.1 p.2) {}

/-- Apply a contribution in units of 2^e to an entry. -/
def addKblock (a : Int) (en : Entry) (k : Contribution) (e : Int) : Entry × BitVec 8 :=
  let r := anchoredAdd a en k.sum e
  let h : BitVec 4 := (if k.nan then 2 else 0) ||| (if k.pinf then 4 else 0) ||| (if k.ninf then 8 else 0)
  let st : BitVec 8 := (if k.nan then tsNan else 0) ||| (if k.pinf then tsPinf else 0) ||| (if k.ninf then tsNinf else 0)
  ({ r.1 with hidden := r.1.hidden ||| h }, r.2 ||| st)

/-! The drain (R61, R62). -/

/-- What an entry drains as, by the first row of R61 that applies. -/
inductive DrainV where
  | nan
  | inf (neg : Bool)
  | ovf (neg : Bool)
  | fin (neg : Bool) (m : Nat) (e : Int)
  deriving DecidableEq, Repr

def drainV (a : Int) (en : Entry) : DrainV :=
  let h := en.hidden
  if h.getLsbD 1 || (h.getLsbD 2 && h.getLsbD 3) then .nan
  else if h.getLsbD 2 then .inf false
  else if h.getLsbD 3 then .inf true
  else if h.getLsbD 0 then .ovf (decide (en.n < 0))
  else .fin (decide (en.n < 0)) en.n.natAbs (a - 96)

/-- Drain to a binary format; `sat` for FP8 outputs only. -/
def drainFloat (f : Fmt) (sat : Bool) (v : DrainV) : Nat :=
  let sgn (neg : Bool) : Nat := if neg then 2 ^ f.mag else 0
  let inf (neg : Bool) : Nat :=
    if sat then sgn neg + f.top - 1 else if f.ew = 4 then 0x7F else sgn neg + f.top
  match v with
  | .nan => f.nanBits
  | .inf neg => inf neg
  | .ovf neg => inf neg
  | .fin neg m e =>
    let c := (f.code .ne neg m e).1
    if c ≥ f.top then inf neg else sgn neg + c

/-- Drain to INT32. -/
def drainInt (v : DrainV) : Nat :=
  match v with
  | .nan => 0x80000000
  | .inf neg | .ovf neg => if neg then 0x80000000 else 0x7FFFFFFF
  | .fin neg m e =>
    let r := (roundQ .ne neg m e 0).1
    intBits 32 (clampInt (-(2 ^ 31)) (2 ^ 31 - 1) (if neg then -(r : Int) else (r : Int)))

end Sys2Proof.Machine
end

