-- ==== Sys2Proof/WellFormed.lean ====
section
/-! DEFINITION. Which commands name units the module has (R17, R68) and words of their own row (R111). -/

namespace Sys2Proof

/-- A physical core (R17). -/
def okCore (p : Nat) : Bool := p < 1632
/-- A compute die. -/
def okDie (d : Nat) : Bool := d < 4
/-- A Credal link. -/
def okLink (n : Nat) : Bool := n < 48
/-- An HBM channel. -/
def okChan (c : Nat) : Bool := c < 256
/-- A partition. -/
def okPart (p : Nat) : Bool := p < 64
/-- A queue of a partition. -/
def okQueue (p q : Nat) : Bool := p < 64 && q < 256
/-- A virtual function (R401). -/
def okVf (n : Nat) : Bool := 1 ≤ n && n ≤ 64
/-- A requester of register accesses (R12): PF0, a virtual function, the Foler complex (65) or the JTAG path (66). -/
def okReq (r : Nat) : Bool := r ≤ 66
/-- A group slot (R68). -/
def okGroup (g : GRef) : Bool := okCore g.core && g.sched < 4 && g.slot < 16
/-- A link that can run in Ethernet mode, and one of its tunnels (R366, R394). -/
def okTunnel (n t : Nat) : Bool := n < 8 && t < 64
/-- An engine that ENGINE_RETIRE can name (R35). -/
def okUnit (u : UnitKind) (n : Nat) : Bool :=
  match u with
  | .core => n < 1632
  | .copyEngine => n < 64
  | .collective => n < 4
  | .digest => n < 4
  | .coreCorrected | .l1Parity => n < 1632
  | .router => n < 4
  | .link => n < 48
  | .opticalEngine => n < 12
  | .mram => n < 32768
/-- A trace engine ID (R35, R497). -/
def okEngine (e : Nat) : Bool :=
  e < 0x660 || (0x800 ≤ e && e < 0x840) || (0x900 ≤ e && e < 0x930) ||
  (0xA00 ≤ e && e < 0xA04) || (0xB00 ≤ e && e < 0xB04) || e == 0xC00

/-- What a command names exists, and a group's word is one of the row's words. -/
def Instr.wf (i : Instr) : Bool :=
  match i.issued with
  | some (r, g, w) => okGroup g && rowOf w == r
  | none =>
    match i with
    | .barrierOpen g | .fenceComplete g | .pushResume g | .storeBufferDrain g => okGroup g
    | .loadDataReturn p _ | .trackerRelease p _ | .clusterRequestServe p _ | .clusterResponse p _
    | .mxFillComplete p _ | .drainWritePerformed p _ | .mxEntryStart p | .nestOpStart p
    | .nestEnd p | .mxOwnershipEnd p | .governorCapTakeHold p | .ageingEvaluation p _
    | .sextantUpdate p _ | .coreStallRetire p => okCore p
    | .groupEnterActive p s4 | .activeSetRotation p s4 => okCore p && s4 < 4
    | .splitChange p sp => okCore p && sp < 5
    | .dbTailWrite v q _ => okVf v && q < 256
    | .vfQcfgWrite v _ | .qcmdReset v | .qcmdResume v | .qcmdClrfail v | .routeRecord v _
    | .routePatch v _ _ | .routeDelete v _ | .vfCarmArm v _ | .vfCarmDisarm v _
    | .bar2Access v _ _ _ _ | .flr v | .flrRekey v | .flrComplete v | .ideUncoveredTlp v _
    | .lockInterface v _ _ | .stopInterface v _ _ | .getDeviceInterfaceReport v _ _ => okVf v
    | .queueResetEnd p q | .preload p q | .launchIssue p q | .watchRelease p q
    | .watchExpiry p q | .rtQueueActive p q => okQueue p q
    | .routeCmdComplete p | .watchGrant p | .chartActivate p | .activationComplete p
    | .chartDiscard p | .partTlbinvWrite p | .tlbInvalidationDone p | .partRstWrite p
    | .partResetEpoch p | .partResetSettle p | .partResetRemoteDone p | .partResetEnd p
    | .digSwctrlEnable p | .digSwctrlDisable p | .sweepLineRead p | .sweepPassEnd p
    | .sweepRestart p | .beaconBuild p | .traceTimebase p => okPart p
    | .commitContextTake d | .commitEntrySend d | .hangCheck d | .remoteResponseTimeout d _ => okDie d
    | .l2CorrectableError d sl wy => okDie d && sl < 32 && wy < 16
    | .l2WayDisable d wy | .l2UncorrectableError d wy => okDie d && wy < 16
    | .hbmRequestServe c _ | .lcrPeriodStart c | .lcrCapReached c | .starvationPromote c _
    | .writeQueueHigh c | .writeQueueLow c | .hbmRefresh c _ | .patrolScrubRead c _
    | .calibrationDue c | .calibrationForced c | .calibrationEnd c | .channelRetire c
    | .hbmTgStart c | .hbmTgStop c | .hbmTgRunEnd c | .hbmTrainingLoss c _ => okChan c
    | .telemetryRead h _ => h < 8
    | .copyRequest e | .copyRequestComplete e _ _ => e < 64
    | .d2dLinkFail n => n < 4
    | .lnkEnableSet n | .lnkEnableClear n | .lnkRetrain n | .lnkLock n | .linkLightCheck n _ _
    | .linkTrainDone n | .linkAlignDone n | .linkSecureDone n _ _ | .linkInitDone n _ _ _
    | .linkPhaseTimeout n | .linkDown n _ | .linkRecoverEnd n _ | .linkRetryTimer n
    | .linkStateAnswerTimeout n | .flitSlot n | .flitReceive n _ | .tagFailureLimit n
    | .keyRollover n | .messageTransmit n | .rd n _ | .wr n _ | .wrf n _ | .atom n _
    | .contrib n _ | .rdrsp n _ | .ack n _ | .atomrsp n _ | .nack n _ | .time n _
    | .beacon n _ | .lstate n _ | .keyx n _ => okLink n
    | .wavelengthFail n l => okLink n && l < 8
    | .ethFrameReceive n t _ | .tunnelResendTimeout n t | .tunnelDown n t => okTunnel n t
    | .msixUnmask fn v => (fn == 0 && v < 2048) || (okVf fn && v < 64)
    | .thermalRead d _ => d < 36
    | .lampLight i | .lampTimeout i => i < 64
    | .engineRetire u n => okUnit u n
    | .traceBufferDrain e => okEngine e
    | .pmcHiWrite r p n _ | .pmselWrite r p n _ => okReq r && okCore p && n < 8
    | .pmcOverflow p n => okCore p && n < 8
    | .pairLoRead r _ _ | .pairLoWrite r _ _ | .pairHiWrite r _ _ | .readClear r _
    | .registerWrite r _ _ _ => okReq r
    | .vfRemove n | .vfEnableSet n => n ≤ 64
    | _ => true

end Sys2Proof
end

