-- ==== Sys2Proof/Machine/Regs.lean ====
section
/-! DEFINITION. The register map (R398, R399, R403): offsets, reset values and access codes (R14), and fields of registers. -/

namespace Sys2Proof.Machine

/-! Keys of registers: BAR0 offsets of PF0; those of virtual function n lie above n * 2^32. -/

def rimId : Nat := 0x0
def rimSerial : Nat := 0x8
def rimOrder : Nat := 0x10
def rimLamps : Nat := 0x100
def rimLampChg : Nat := 0x108
def rimRstCause : Nat := 0x110
def rimDieRst : Nat := 0x120
def mbxCtrl : Nat := 0x100000
def mbxStat : Nat := 0x100004
def mbxReqLen : Nat := 0x100008
def mbxRspLen : Nat := 0x10000C
def mbxBuf : Nat := 0x101000
def pwrLimit : Nat := 0x200000
def pwrStat : Nat := 0x200004
def pwrEvt : Nat := 0x200008
def pwrAvg : Nat := 0x20000C
def pwrInst : Nat := 0x200010
def pwrPeak : Nat := 0x200014
def pwrCool : Nat := 0x200018
def pwrCoolDcnt : Nat := 0x20001C
def pwrRail (r : Nat) : Nat := 0x200100 + 4 * r
def logNextSeq : Nat := 0x300000
def logOvwr : Nat := 0x300008
def logDrop : Nat := 0x300010
def logPinned : Nat := 0x300014
def logSlot : Nat := 0x300018
def logStat : Nat := 0x300020
def logBuf : Nat := 0x301000
def partBlk (p : Nat) : Nat := 0x800000 + 0x10000 * p
def partRst (p : Nat) : Nat := partBlk p
def partStat (p : Nat) : Nat := partBlk p + 4
def partPtroot (p : Nat) : Nat := partBlk p + 0x200
def partTlbinv (p : Nat) : Nat := partBlk p + 0x208
def partMemcfg (p : Nat) : Nat := partBlk p + 0x300
def partSched (p : Nat) : Nat := partBlk p + 0x400
def partModel (p : Nat) : Nat := partBlk p + 0x404
def partModelNx (p : Nat) : Nat := partBlk p + 0x408
def partCmtUnc (p : Nat) : Nat := partBlk p + 0x40C
def partFdom (p : Nat) : Nat := partBlk p + 0x500
def hbmBlk (c : Nat) : Nat := 0x1000000 + 0x1000 * c
def hbmStat (c : Nat) : Nat := hbmBlk c
def hbmCfg (c : Nat) : Nat := hbmBlk c + 4
def hbmCecnt (c : Nat) : Nat := hbmBlk c + 0x10
def hbmUecnt (c : Nat) : Nat := hbmBlk c + 0x14
def hbmScrubPos (c : Nat) : Nat := hbmBlk c + 0x18
def tgCtrl (c : Nat) : Nat := hbmBlk c + 0x100
def tgBase (c : Nat) : Nat := hbmBlk c + 0x108
def tgLen (c : Nat) : Nat := hbmBlk c + 0x110
def tgSeed (c : Nat) : Nat := hbmBlk c + 0x118
def tgUser (c i : Nat) : Nat := hbmBlk c + 0x120 + 4 * i
def tgErrCnt (c : Nat) : Nat := hbmBlk c + 0x140
def tgErrAddr (c : Nat) : Nat := hbmBlk c + 0x148
def tgErrXor (c : Nat) : Nat := hbmBlk c + 0x150
def tgPasses (c : Nat) : Nat := hbmBlk c + 0x158
def l2Blk (d sl : Nat) : Nat := 0x1100000 + 0x1000 * (32 * d + sl)
def l2WayStat (d : Nat) : Nat := l2Blk d 0
def l2WayCe (d sl w : Nat) : Nat := l2Blk d sl + 0x40 + 4 * w
def lnkBlk (n : Nat) : Nat := 0x1300000 + 0x4000 * n
def lnkCtrl (n : Nat) : Nat := lnkBlk n
def lnkStat (n : Nat) : Nat := lnkBlk n + 4
def lnkPeer (n : Nat) : Nat := lnkBlk n + 8
def lnkWave (n : Nat) : Nat := lnkBlk n + 0xC
def lnkCnt (n i : Nat) : Nat := if i = 8 then lnkBlk n + 0x3C else lnkBlk n + 0x10 + 4 * i
def lnkToff (n : Nat) : Nat := lnkBlk n + 0x30
def lnkTdelay (n : Nat) : Nat := lnkBlk n + 0x38
def lnkEthCfg (n : Nat) : Nat := lnkBlk n + 0x100
def lnkTun (n t : Nat) : Nat := lnkBlk n + 0x1000 + 32 * t
def fabTime : Nat := 0x13C0000
def fabGm : Nat := 0x13C0004
def fabOffs : Nat := 0x13C0008
def digBlk (p : Nat) : Nat := 0x1400000 + 0x400 * p
def digSwctrl (p : Nat) : Nat := digBlk p
def digSwstat (p : Nat) : Nat := digBlk p + 4
def digSwrate (p : Nat) : Nat := digBlk p + 8
def digSalt (p : Nat) : Nat := digBlk p + 0x10
def digWdigA (p : Nat) : Nat := digBlk p + 0x20
def digWdigB (p : Nat) : Nat := digBlk p + 0x28
def digSwpass (p : Nat) : Nat := digBlk p + 0x30
def digSwreg (p r : Nat) : Nat := digBlk p + 0x40 + 16 * r
def digBctrl (p : Nat) : Nat := digBlk p + 0x100
def digStepVa (p : Nat) : Nat := digBlk p + 0x108
def digActVa (p : Nat) : Nat := digBlk p + 0x110
def digBevVa (p : Nat) : Nat := digBlk p + 0x118
def digPeer (p i : Nat) : Nat := digBlk p + 0x140 + 4 * i
def digBmatch (p : Nat) : Nat := digBlk p + 0x160
def digBmiss (p : Nat) : Nat := digBlk p + 0x164
def digBlate (p : Nat) : Nat := digBlk p + 0x168
def secStat : Nat := 0x1500000
def secEvt : Nat := 0x1500004
def secPfcnt : Nat := 0x1500008
def secFwsvn : Nat := 0x150000C
def secDbg : Nat := 0x1500010
def secOwndig : Nat := 0x1500040
def dbgTrctrl : Nat := 0x1600000
def dbgWinsel : Nat := 0x1600010
def dbgHangcfg : Nat := 0x1600020
def dbgHangstat : Nat := 0x1600024
def dbgSnapcnt : Nat := 0x1600028
def dbgTpstat : Nat := 0x1600030
def dbgTrwc (p : Nat) : Nat := 0x1601000 + 8 * p
def dbgTrlost (p : Nat) : Nat := 0x1601200 + 4 * p
def dbgWin : Nat := 0x1700000
def chartSrc : Nat := 0x1800000
def chartLen : Nat := 0x1800008
def chartCtrl : Nat := 0x180000C
def chartStatus : Nat := 0x1800010
def chartSeq : Nat := 0x1800018
def chartStaged : Nat := 0x1800020
def chartDevid : Nat := 0x1800028
def chartPseq (p : Nat) : Nat := 0x1800100 + 8 * p
def coreBlk (p : Nat) : Nat := 0x2000000 + 0x1000 * p
def excStatus (p : Nat) : Nat := coreBlk p + 0x800
def excPc (p : Nat) : Nat := coreBlk p + 0x804
def excAddr (p : Nat) : Nat := coreBlk p + 0x80C
def excWord (p : Nat) : Nat := coreBlk p + 0x814
def mxTstat (p : Nat) : Nat := coreBlk p + 0x840
def mxState (p : Nat) : Nat := coreBlk p + 0x844
def eccCnt (p : Nat) : Nat := coreBlk p + 0x850
def coreSext (p : Nat) : Nat := coreBlk p + 0x860
def coreGov (p : Nat) : Nat := coreBlk p + 0x864
def coreCeil0 (p : Nat) : Nat := coreBlk p + 0x868
def pmSel (p n : Nat) : Nat := coreBlk p + 0x900 + 4 * n
def pmc (p n : Nat) : Nat := coreBlk p + 0x940 + 8 * n
def pmOvf (p : Nat) : Nat := coreBlk p + 0x980
def pmCtrl (p : Nat) : Nat := coreBlk p + 0x984

/-- Registers of virtual function `n`. -/
def vfKey (n off : Nat) : Nat := 2 ^ 32 * n + off
def vfStat : Nat := 0x100000
def vfApbase : Nat := 0x100008
def vfAperr : Nat := 0x100010
def vfQsel : Nat := 0x100100
def vfQring : Nat := 0x100108
def vfQcpl : Nat := 0x100110
def vfQcfg : Nat := 0x100118
def vfQstat : Nat := 0x10011C
def vfQcmd : Nat := 0x100120
def vfQjobs : Nat := 0x100128
def vfRsrc : Nat := 0x100140
def vfRcnt : Nat := 0x100148
def vfRcmd : Nat := 0x10014C
def vfRstat : Nat := 0x100150
def vfRver : Nat := 0x100154
def vfCbase : Nat := 0x100180
def vfCarm : Nat := 0x100188
def vfCstat : Nat := 0x10018C
def vfQhalt : Nat := 0x100200

/-- The key of what requester `r` reaches at offset `off`: a virtual function reaches its own BAR0, every other requester the control window. -/
def regKey (r off : Nat) : Nat := if 1 ≤ r ∧ r ≤ 64 then vfKey r off else off

/-- Offset within a repeated block. -/
def inBlk (k base n size : Nat) : Option (Nat × Nat) :=
  if base ≤ k ∧ k < base + n * size then some ((k - base) / size, (k - base) % size) else none

/-- The ordering code's bytes, as three words (R537). -/
def orderWord (i : Nat) : Word :=
  match i with
  | 0 => 0x344C5A4B
  | 1 => 0x38332D38
  | _ => if Config.gradeB then 0x00422D34 else 0x00412D34

/-- The reset value of each register (the tables of each block). -/
def regReset (k : Nat) : Word :=
  if k < 0x100000 then
    if k = rimId then BitVec.ofNat 32 ((if Config.gradeB then 1 else 0) + Config.srev.toNat * 16 + Config.mrev.toNat * 256 + 0x4C48 * 65536)
    else if k = rimSerial then Config.serial.truncate 32
    else if k = rimSerial + 4 then (Config.serial >>> 32).truncate 32
    else if k = rimOrder then orderWord 0
    else if k = rimOrder + 4 then orderWord 1
    else if k = rimOrder + 8 then orderWord 2
    else 0
  else if k < 0x300000 then
    if k = pwrLimit then 0x47D0
    else if 0x200100 ≤ k ∧ k < 0x200180 then 40
    else 0
  else if k < 0x1000000 then
    match inBlk k 0x800000 64 0x10000 with
    | some (_, 0x400) => 1000
    | _ => 0
  else if k < 0x1300000 then
    match inBlk k 0x1000000 256 0x1000 with
    | some (_, 4) => 0x323C
    | _ => 0
  else if k < 0x1400000 then
    match inBlk k 0x1300000 48 0x4000 with
    | some (_, 0) => 1
    | _ => 0
  else if k < 0x1500000 then
    match inBlk k 0x1400000 64 0x400 with
    | some (_, 8) => 2048
    | _ => 0
  else if k < 0x2000000 then
    if k = dbgTrctrl then 1 else if k = dbgHangcfg then 100 else 0
  else
    match inBlk k 0x2000000 1632 0x1000 with
    | some (p, 0x864) => BitVec.ofNat 32 (Config.ceil0 p + 0xFFFF0000)
    | some (p, 0x868) => BitVec.ofNat 32 (Config.ceil0 p)
    | _ => 0

/-- The access codes of a register's bits (R14): read/write, write-1-clear, read-clear, lockable read/write and presence-gated bits. All other bits are read-only, reserved, write-only, or bits whose writes have a row of their own. -/
structure RegAcc where
  rw  : Word := 0
  w1c : Word := 0
  rc  : Word := 0
  rwl : Word := 0
  rwp : Word := 0

/-- The access codes of each register of PF0's BAR0, and of the registers of a virtual function that need no queue (R399, R403). -/
def regAcc (k : Nat) : RegAcc :=
  if k < 0x100000 then
    if k = rimLampChg ∨ k = rimLampChg + 4 then { w1c := 0xFFFFFFFF } else {}
  else if k < 0x200000 then
    if k = mbxCtrl then { rw := 0xFF }
    else if k = mbxStat then { w1c := 0x10000 }
    else if k = mbxReqLen then { rw := 0x1FFF }
    else if mbxBuf ≤ k ∧ k < mbxBuf + 0x1000 then { rw := 0xFFFFFFFF }
    else {}
  else if k < 0x300000 then
    if k = pwrLimit then { rw := 0xFFFF }
    else if k = pwrEvt then { w1c := 0x1F }
    else if k = pwrPeak then { rc := 0xFFFF }
    else {}
  else if k < 0x400000 then
    if k = logSlot then { rw := 0x7FFF } else {}
  else if k < 0x1000000 then
    match inBlk k 0x800000 64 0x10000 with
    | some (_, 0x200) => { rw := 0xFFFF8001 }
    | some (_, 0x204) => { rw := 0x7F }
    | some (_, 0x300) => { rw := 1 }
    | some (_, 0x400) => { rw := 0x1FFFFF }
    | some (_, 0x408) => { rw := 0xFFFFFFFF }
    | some (_, 0x500) => { rw := 0xFFFF }
    | _ => {}
  else if k < 0x1300000 then
    match inBlk k 0x1000000 256 0x1000 with
    | some (_, 4) => { rw := 0xFF7F }
    | some (_, 0x100) => { rw := 0x3FFF0 }
    | some (_, o) =>
      if (0x108 ≤ o ∧ o < 0x11C) ∨ (0x120 ≤ o ∧ o < 0x140) then { rw := 0xFFFFFFFF } else {}
    | _ => {}
  else if k < 0x1400000 then
    match inBlk k 0x1300000 48 0x4000 with
    | some (n, o) =>
      if o = 0 then { rw := 8, rwl := if n < 8 then 4 else 0 }
      else if n < 8 then
        if o = 0x100 then { rwl := 0x0FFFFFFF }
        else if o = 0x104 then { rwl := 0x3F3F3F3F }
        else if (0x110 ≤ o ∧ o < 0x120) ∨ o = 0x120 then { rwl := 0xFFFFFFFF }
        else if o = 0x124 then { rwl := 0xFFFF }
        else if 0x1000 ≤ o ∧ o < 0x1800 then
          if o % 32 = 0 then { rwl := 0x0003FFFF }
          else if o % 32 = 0xC then {}
          else { rwl := 0xFFFFFFFF }
        else {}
      else {}
    | none => {}
  else if k < 0x1500000 then
    match inBlk k 0x1400000 64 0x400 with
    | some (_, o) =>
      if o = 4 then { w1c := 2 }
      else if o = 8 then { rw := 0xFFFFFFFF }
      else if o = 0x10 ∨ o = 0x14 then { rw := 0xFFFFFFFF }
      else if 0x40 ≤ o ∧ o < 0xC0 then { rw := 0xFFFFFFFF }
      else if o = 0x100 then { rw := 0x1FFFF }
      else if 0x108 ≤ o ∧ o < 0x120 then { rw := 0xFFFFFFFF }
      else if 0x140 ≤ o ∧ o < 0x160 then { rw := 0x803FFFFF }
      else {}
    | none => {}
  else if k < 0x2000000 then
    if k = secEvt then { w1c := 0x1F }
    else if k = dbgTrctrl then { rw := 3 }
    else if k = dbgWinsel then { rw := 0x3F3F03 }
    else if k = dbgHangcfg then { rw := 0x7FFFF }
    else if k = dbgHangstat then { w1c := 0x70 }
    else if k = chartSrc ∨ k = chartSrc + 4 ∨ k = chartLen then { rw := 0xFFFFFFFF }
    else if k = chartCtrl then { rw := 0x3F02 }
    else if k = chartStatus then { w1c := 0x1000000 }
    else {}
  else if k < 2 ^ 32 then
    match inBlk k 0x2000000 1632 0x1000 with
    | some (_, 0x800) => { w1c := 0x80000000 }
    | some (_, 0x980) => { w1c := 0xFF }
    | some (_, 0x984) => { rw := 3 }
    | some (_, o) =>
      if 0x900 ≤ o ∧ o < 0x920 then { rw := 0x7FFF }
      else if 0x940 ≤ o ∧ o < 0x980 then { rw := if o % 8 = 0 then 0xFFFFFFFF else 0xFFFF }
      else {}
    | none => {}
  else
    let o := k % 2 ^ 32
    if o = vfApbase then { rw := 0xC0000000 }
    else if o = vfApbase + 4 then { rw := 0x3FF }
    else if o = vfAperr then { rc := 0xFFFFFFFF }
    else if o = vfQsel then { rw := 0xFF }
    else if o = vfRsrc ∨ o = vfRsrc + 4 ∨ o = vfCbase ∨ o = vfCbase + 4 then { rw := 0xFFFFFFFF }
    else if o = vfRcnt then { rw := 0x1FFF }
    else if o = vfRstat then { w1c := 0x10000 }
    else {}

/-- The offset within a repeated block, or a value no register has. -/
def offIn (k base n size : Nat) : Nat :=
  match inBlk k base n size with
  | some (_, o) => o
  | none => 0xFFFFFFFF

/-- Whether `k` is the _LO half of a 64-bit pair (R10). -/
def isPairLo (k : Nat) : Bool :=
  if k < 2 ^ 32 then
    [rimSerial, rimLamps, rimLampChg, logNextSeq, logOvwr, dbgSnapcnt, chartSrc, chartSeq, chartStaged].contains k ||
    offIn k 0x1601000 64 8 == 0 || offIn k 0x1800100 64 8 == 0 ||
    offIn k 0x800000 64 0x10000 == 0x200 ||
    [0x108, 0x110, 0x148, 0x150, 0x158].contains (offIn k 0x1000000 256 0x1000) ||
    offIn k 0x1300000 48 0x4000 == 0x30 || offIn k 0x1300000 8 0x4000 == 0x120 ||
    (let o := offIn k 0x1400000 64 0x400
     [0x10, 0x20, 0x28, 0x108, 0x110, 0x118].contains o || (decide (0x40 ≤ o ∧ o < 0xC0) && o % 8 == 0)) ||
    (let o := offIn k 0x2000000 1632 0x1000
     [0x804, 0x80C, 0x814].contains o || (decide (0x940 ≤ o ∧ o < 0x980) && o % 8 == 0))
  else
    let o := k % 2 ^ 32
    [vfApbase, vfQring, vfQcpl, vfQjobs, vfRsrc, vfCbase].contains o ||
    (decide (o < 0x100000) && [0, 8, 0x10].contains (o % 0x1000))

/-- A register as held. -/
def State.reg (s : State) (k : Nat) : Word := tget (regReset k) s.regs k

/-- Set a register: a value equal to the reset value is not listed. -/
def State.setReg (s : State) (k : Nat) (v : Word) : State :=
  { s with regs := tput (regReset k) s.regs k v }

/-- A 64-bit pair (R10). -/
def State.reg64 (s : State) (k : Nat) : Nat := (s.reg k).toNat + 2 ^ 32 * (s.reg (k + 4)).toNat

/-- Set a 64-bit pair. -/
def State.setReg64 (s : State) (k v : Nat) : State :=
  (s.setReg k (BitVec.ofNat 32 v)).setReg (k + 4) (BitVec.ofNat 32 (v / 2 ^ 32))

/-- The field of `n` bits from bit `lo`. -/
def State.fld (s : State) (k lo n : Nat) : Nat := getBits (s.reg k).toNat lo n

/-- Set a field. -/
def State.setFld (s : State) (k lo n v : Nat) : State :=
  s.setReg k (BitVec.ofNat 32 (putBits (s.reg k).toNat lo n v))

/-- A one-bit field. -/
def State.bit (s : State) (k i : Nat) : Bool := s.fld k i 1 == 1

/-- Set a one-bit field. -/
def State.setBit (s : State) (k i : Nat) (b : Bool) : State := s.setFld k i 1 (if b then 1 else 0)

/-- Raise a saturating 32-bit count by `n`. -/
def State.countReg (s : State) (k n : Nat) : State :=
  s.setReg k (BitVec.ofNat 32 (satAdd (s.reg k).toNat n 0xFFFFFFFF))

/-- Put registers back to their reset values. -/
def State.resetRegs (s : State) (p : Nat → Bool) : State :=
  { s with regs := s.regs.filter fun e => !p e.1 }

end Sys2Proof.Machine
end

