-- ==== Sys2Proof/Machine/Ops.lean ====
section
/-! DEFINITION. The named operations over the state: units and records, free values, interrupts, the logbook, lamps, memory, translation, L2 and HBM requests, failures of launches and instruction exceptions. -/

namespace Sys2Proof.Machine

/-! Answers. -/

/-- The answer of a meaning whose command names existing units (R17). -/
def withUnit (ok : Bool) (t : State) : Host.Outcome State Fault Refusal :=
  if ok then .next t else .fault .noSuchUnit

/-- The answer of a row that a group issues: its group exists (R68) and its word is one of the row's (R111). -/
def withWord (g : GRef) (w : Word64) (r : IRow) (t : State) : Host.Outcome State Fault Refusal :=
  if okGroup g then (if rowOf w = r then .next t else .fault .wrongWord) else .fault .noSuchUnit

/-- The mask of the numbers below `n` that satisfy a test. -/
def maskOf (n : Nat) (f : Nat → Bool) : Nat := (upTo n).foldl (fun a i => if f i then a + 2 ^ i else a) 0

/-! Units and records. -/

/-- Global time in ns. -/
def State.now (s : State) : Nat := s.gt.toNat

def State.core (s : State) (p : Nat) : Core := tget {} s.cores p
def State.setCore (s : State) (p : Nat) (c : Core) : State := { s with cores := tput {} s.cores p c }
def State.modCore (s : State) (p : Nat) (f : Core → Core) : State := s.setCore p (f (s.core p))
def State.part (s : State) (p : Nat) : Part := tget {} s.parts p
def State.setPart (s : State) (p : Nat) (x : Part) : State := { s with parts := tput {} s.parts p x }
def State.modPart (s : State) (p : Nat) (f : Part → Part) : State := s.setPart p (f (s.part p))
def State.die (s : State) (d : Nat) : Die := tget {} s.dies d
def State.setDie (s : State) (d : Nat) (x : Die) : State := { s with dies := tput {} s.dies d x }
def State.modDie (s : State) (d : Nat) (f : Die → Die) : State := s.setDie d (f (s.die d))
def State.chan (s : State) (c : Nat) : Chan := tget {} s.chans c
def State.setChan (s : State) (c : Nat) (x : Chan) : State := { s with chans := tput {} s.chans c x }
def State.modChan (s : State) (c : Nat) (f : Chan → Chan) : State := s.setChan c (f (s.chan c))
def State.copyEng (s : State) (e : Nat) : CopyEng := tget {} s.copies e
def State.setCopyEng (s : State) (e : Nat) (x : CopyEng) : State := { s with copies := tput {} s.copies e x }
def State.link (s : State) (n : Nat) : Link := tget {} s.links n
def State.setLink (s : State) (n : Nat) (x : Link) : State := { s with links := tput {} s.links n x }
def State.modLink (s : State) (n : Nat) (f : Link → Link) : State := s.setLink n (f (s.link n))
def qkey (p q : Nat) : Nat := p * 256 + q
def State.queue (s : State) (k : Nat) : Queue := tget {} s.queues k
def State.setQueue (s : State) (k : Nat) (x : Queue) : State := { s with queues := tput {} s.queues k x }
def State.modQueue (s : State) (k : Nat) (f : Queue → Queue) : State := s.setQueue k (f (s.queue k))
def State.launch? (s : State) (l : Nat) : Option Launch := tfind s.launches l
def State.setLaunch (s : State) (l : Nat) (x : Launch) : State := { s with launches := tset s.launches l x }
def State.modLaunch (s : State) (l : Nat) (f : Launch → Launch) : State :=
  match s.launch? l with
  | some x => s.setLaunch l (f x)
  | none => s
def State.delLaunch (s : State) (l : Nat) : State := { s with launches := tdel s.launches l }

/-- The key of a group within its core. -/
def gkey (sc sl : Nat) : Nat := 16 * sc + sl
def Core.group? (c : Core) (k : Nat) : Option Group := tfind c.groups k
def Core.setGroup (c : Core) (k : Nat) (x : Group) : Core := { c with groups := tset c.groups k x }
def State.group? (s : State) (g : GRef) : Option Group := (s.core g.core).group? (gkey g.sched g.slot)
def State.setGroup (s : State) (g : GRef) (x : Group) : State :=
  s.modCore g.core fun c => c.setGroup (gkey g.sched g.slot) x
def State.modGroup (s : State) (g : GRef) (f : Group → Group) : State :=
  match s.group? g with
  | some x => s.setGroup g (f x)
  | none => s
def Core.sched (c : Core) (i : Nat) : Sched := tget {} c.scheds i
def Core.setSched (c : Core) (i : Nat) (x : Sched) : Core := { c with scheds := tput {} c.scheds i x }

/-! Free values (log entry 2). -/

def State.freeBit (s : State) : Bool × State := (Config.freeBit s.free, { s with free := s.free + 1 })
def State.freeNat (s : State) : Nat × State := (Config.freeNat s.free, { s with free := s.free + 1 })

/-- Record what leaves the module (log entry 5). -/
def State.emit (s : State) (o : Output) : State := { s with out := o :: s.out }

/-! Interrupts (R407, R408). -/

/-- Whether virtual function `n` exists (R401). -/
def State.vfExists (s : State) (n : Nat) : Bool := s.host.vfEnable && decide (1 ≤ n ∧ n ≤ s.host.numVFs)

/-- Raise a vector of a function: its message, or its pending bit while it is masked or the function is in D3hot, from which no message leaves (log entry 91). -/
def State.irq (s : State) (fn vec : Nat) : State :=
  if fn ≠ 0 ∧ s.vfExists fn = false then s
  else if s.host.unmasked.contains (fn * 4096 + vec) && !s.host.d3.contains fn then s.emit (.irq fn vec)
  else { s with host := { s.host with pend := sins s.host.pend (fn * 4096 + vec) } }

/-- The virtual function bound to a partition (R401). -/
def State.vfOf (s : State) (p : Nat) : Nat := (tget {} s.chart.parts p).vf + 1
def State.valid (s : State) (p : Nat) : Bool := (tget {} s.chart.parts p).valid
def State.ent (s : State) (p : Nat) : PartEnt := tget {} s.chart.parts p
/-- The partition bound to a virtual function. -/
def State.partOf (s : State) (n : Nat) : Option Nat :=
  (upTo 64).find? fun p => s.valid p && s.vfOf p == n
/-- The virtual function of a valid partition exists: its host path. -/
def State.hostPath (s : State) (p : Nat) : Bool := s.valid p && s.vfExists (s.vfOf p)

/-- The vectors of a change of a partition's reset, lamp or TDI state. -/
def State.partIrq (s : State) (p : Nat) : State :=
  let t := s.irq 0 (64 + p)
  if s.valid p then t.irq (s.vfOf p) 56 else t

/-- Move a partition's TDI to a state (R403, R407). -/
def State.setTdi (s : State) (p v : Nat) : State :=
  if (s.part p).tdi = v then s else (s.modPart p fun y => { y with tdi := v }).partIrq p

/-- A locked or running TDI moves to ERROR (R410). -/
def State.tdiError (s : State) (p : Nat) : State :=
  if (s.part p).tdi = 1 ∨ (s.part p).tdi = 2 then s.setTdi p 3 else s

/-! Lamps (R486). -/

def State.lamp (s : State) (i : Nat) : Bool := if i < 32 then s.bit rimLamps i else s.bit (rimLamps + 4) (i - 32)
def lampRim : Nat := 0
def lampFoler : Nat := 1
def lampLogbook : Nat := 2
def lampPcie : Nat := 3
def lampSecroot : Nat := 4
def lampTimebase : Nat := 5
def lampChart : Nat := 6
def lampDie (d : Nat) : Nat := 8 + d
def lampStack (h : Nat) : Nat := 12 + h
def lampOe (k : Nat) : Nat := 20 + k
def lampRail (r : Nat) : Nat := 32 + r

/-- Change a lamp: RIM_LAMPCHG records it and PF0 vector 5 is raised. -/
def State.setLamp (s : State) (i : Nat) (b : Bool) : State :=
  if s.lamp i = b then s
  else
    let k := if i < 32 then 0 else 4
    ((s.setBit (rimLamps + k) (i % 32) b).setBit (rimLampChg + k) (i % 32) true).irq 0 5

/-! The logbook (R518, R519). -/

def sevInfo : Nat := 0
def sevNotice : Nat := 1
def sevAlert : Nat := 2
def sevFatal : Nat := 3

/-- How many records of the last second of GT the logbook has written. -/
def State.logRate (s : State) : Nat := (s.log.rate.filter fun t => decide (s.now < t + 1000000000)).length

/-- Raise a record: held in Foler memory until LOGBOOK lights (R487), then among those that wait, up to 256 beyond what the rate still accepts. -/
def State.logRaise (s : State) (sev : Nat) (part : Option Nat) (source code : Nat) (payload : List Byte) : State :=
  let r : LogRec := { sev := sev, part := part, source := source, gt := s.now, boot := s.boot.boots, code := code, payload := payload }
  if s.lamp lampLogbook then
    if s.log.waiting.length < 256 + (1000 - s.logRate) then
      { s with log := { s.log with waiting := s.log.waiting ++ [r] } }
    else
      ({ s with log := { s.log with dropped := s.log.dropped + 1 } }).countReg logDrop 1
  else if s.log.held.length < 64 then
    { s with log := { s.log with held := s.log.held ++ [r] } }
  else { s with log := { s.log with heldLost := s.log.heldLost + 1 } }

/-- The source of records of the Foler complex and of the rim (R497). -/
def srcRim : Nat := 0xC00

/-! Cores and core sets (R17, R29 to R31, R213). -/

/-- The physical core that backs a logical core. -/
def substPhys (subst : List (Nat × Nat)) (l : Nat) : Nat :=
  match subst.find? fun e => e.1 == l with
  | some e => e.2
  | none => 51 * (l / 48) + l % 48
def State.physOf (s : State) (l : Nat) : Nat := substPhys s.chart.subst l
/-- The logical core that a physical core backs. -/
def State.logOf (s : State) (p : Nat) : Option Nat :=
  ((upTo 48).map fun i => 48 * (p / 51) + i).find? fun l => s.physOf l == p
def State.coreOk (s : State) (p : Nat) : Bool := !s.chart.mCores.contains p
/-- A core set can be used: not retired by the chart, and its 24 cores work (R31). -/
def State.setOk (s : State) (k : Nat) : Bool :=
  getBits s.chart.rCores k 1 == 0 && ((upTo 24).all fun i => s.coreOk (s.physOf (24 * k + i)))
/-- The numbers of the set bits of a mask, below `n`, ascending. -/
def bitsSet (mask n : Nat) : List Nat := (upTo n).filter fun i => getBits mask i 1 == 1
/-- The usable core sets of a stage. -/
def State.stageSets (s : State) (p st : Nat) : List Nat :=
  (bitsSet ((s.ent p).stages.getD st (0, false)).1 64).filter s.setOk
/-- A channel that has been retired (R262). -/
def State.chanRetired (s : State) (c : Nat) : Bool :=
  getBits s.chart.rChans c 1 == 1 || getBits s.chart.mChans c 1 == 1

/-- The die of a channel, of a core set, of a physical core and of a link (R17). -/
def dieOfChan (c : Nat) : Nat := c / 64
def dieOfSet (k : Nat) : Nat := k / 16
def dieOfPhys (p : Nat) : Nat := p / 408
def dieOfLink (n : Nat) : Nat := n / 12

/-- The dies that a partition touches: of its core sets, its channels and its lead die. -/
def entDies (e : PartEnt) : List Nat :=
  (upTo 4).filter fun d => e.lead == d || getBits e.coresets (16 * d) 16 != 0 || getBits e.hbmch (64 * d) 64 != 0

/-- The lamps that a partition's lamp needs (R489). -/
def State.partReady (s : State) (p : Nat) : Bool :=
  let e := s.ent p
  e.valid && !(s.bit (partStat p) 1) && s.lamp lampChart &&
  ((bitsSet e.coresets 64).all fun k => s.lamp (lampRail (k / 2))) &&
  ((entDies e).all fun d => s.lamp (lampDie d)) &&
  ((bitsSet e.hbmch 256).all fun c => s.lamp (lampStack (c / 32)))

/-- Bring one partition's lamp up to date, raising its vectors when it changes (R407, R489); where the lamp lights again after an activation under R221, the resident model changes (R355). -/
def State.partLampUpdate (s : State) (p : Nat) : State :=
  let b := s.partReady p
  if s.bit (partStat p) 0 = b then s
  else
    let t := (s.setBit (partStat p) 0 b).partIrq p
    if b ∧ (t.part p).modelDue = true then
      (t.modPart p fun y => { y with modelDue := false }).setReg (partModel p) (t.reg (partModelNx p))
    else t

/-- Bring every partition's lamp up to date. -/
def State.relight (s : State) : State := (upTo 64).foldl State.partLampUpdate s

/-! Memory (R227, R256, R415, R416). -/

/-- One byte of HBM. -/
def State.byte (s : State) (a : Nat) : Byte :=
  (mget? s.mem a).getD (Config.unwritten (tget 0 s.memEpoch (a / 2 ^ 31)) a)

/-- `n` bytes of HBM. -/
def State.bytes (s : State) (a n : Nat) : List Byte := (upTo n).map fun i => s.byte (a + i)

/-- The 128-byte lines that `n` bytes from `a` touch. -/
def linesOf (a n : Nat) : List Nat := if n = 0 then [] else (upTo ((a + n - 1) / 128 + 1 - a / 128)).map (a / 128 + ·)

/-- L2 holds a good copy of a line, or a write of it waits at its controller: what became of the array's cells does not show (R416). -/
def State.sheltered (s : State) (l : Nat) : Bool :=
  (match tfind (s.die (dieOfChan (l / 2 ^ 24))).l2 l with
   | some x => !x.sick
   | none => false) || (s.chan (l / 2 ^ 24)).reqs.any fun r => r.writes && !r.bad && r.line == l

/-- A line as its home slice has it is poisoned (R415, R416). -/
def State.linePoisoned (s : State) (l : Nat) : Bool := s.poison.contains l || ((s.chan (l / 2 ^ 24)).spoilt.contains l && !s.sheltered l)

/-- Whether any of the bytes lies in a poisoned line. -/
def State.poisoned (s : State) (a n : Nat) : Bool := (linesOf a n).any s.linePoisoned

/-- A range overlaps another. -/
def overlaps (a n b m : Nat) : Bool := decide (a < b + m ∧ b < a + n)

/-- Remove the reservations of a core's groups that match. -/
def Core.breakResv (c : Core) (p : Group → Nat → Resv → Bool) : Core :=
  { c with groups := c.groups.map fun e => (e.1, { e.2 with resv := e.2.resv.filter fun r => !p e.2 r.1 r.2 }) }

/-- A write of global memory removes the reservations on its granules (R131, R244). -/
def State.breakGlobal (s : State) (a n : Nat) : State :=
  { s with cores := s.cores.map fun e =>
      (e.1, e.2.breakResv fun _ _ r => !r.isLocal && overlaps a n (r.granule * r.size) r.size) }

/-- Waits armed on a written line are to be evaluated again (R311). -/
def State.touchWaits (s : State) (a n : Nat) : State :=
  { s with launches := s.launches.map fun e =>
      (e.1, match e.2.word with
        | some w => if e.2.armed && overlaps a n (w / 128 * 128) 128 then { e.2 with touched := true } else e.2
        | none => e.2) }

/-- Perform a write of HBM at its home slice: the bytes, the poison that a whole line replaces, the reservations it breaks, the waits it wakes. -/
def State.writeMem (s : State) (a : Nat) (bs : List Byte) : State :=
  if bs = [] then s
  else
    let t := { s with
      mem := msetBytes s.mem a bs
      poison := s.poison.filter fun l => !decide (a ≤ 128 * l ∧ 128 * l + 128 ≤ a + bs.length) }
    (t.breakGlobal a bs.length).touchWaits a bs.length

/-- A line's contents are lost: it is marked poisoned, and the reservations on it are lost with them (R255). -/
def State.poisonLine (s : State) (l : Nat) : State := ({ s with poison := sins s.poison l } : State).breakGlobal (128 * l) 128

/-! L2 and requests to the HBM controllers (R267 to R271, R275). -/

/-- Line keys from here on stand for lines of stage-channel buffers, which have no DPA (R205): 65,536 for each partition and die, each in its own set. DESIGN CHOICE: the spec does not say which sets they lie in (log entry 86). -/
def bufKey (p : Nat) : Nat := 2 ^ 32 + 65536 * p

/-- The slice and set of a line (R267). -/
def l2Set (line : Nat) : Nat :=
  if 2 ^ 32 ≤ line then line % 65536 else
  let c := line / 2 ^ 24
  let x := line % 2 ^ 24 * 128
  (c % 64) / 2 * 2048 + Nat.xor (getBits x 7 11) (getBits x 18 11)

/-- The enabled ways that a partition owns on a die (R202, R273). -/
def State.waysOf (s : State) (p d : Nat) : List Nat :=
  (bitsSet (getBits (s.ent p).ways (16 * d) 16) 16).filter fun w => !s.bit (l2WayStat d) w

/-- The line at its home slice is clean: the array holds it (R230). -/
def State.l2Clean (s : State) (line : Nat) : State :=
  s.modDie (dieOfChan (line / 2 ^ 24)) fun y => match tfind y.l2 line with
    | some x => { y with l2 := tset y.l2 line { x with modified := false } }
    | none => y

/-- Ask a channel's controller for a line (R275); an LCR read that arrives after the cap is reached has rank 3 (R276). -/
def State.hbmAsk (s : State) (cls line : Nat) (bad : Bool := false) : State :=
  s.modChan (line / 2 ^ 24) fun c => { c with reqs := c.reqs ++ [{ cls := cls, line := line, gt := s.now, late := cls == 2 && c.lcrDown, writes := cls == 4, bad := bad }] }

/-- A direct write of a line that L2 does not hold: rank 4, and rank 5 for a copy engine's (R268, R275). -/
def State.hbmWrite (s : State) (cls line : Nat) : State :=
  s.modChan (line / 2 ^ 24) fun c => { c with reqs := c.reqs ++ [{ cls := max 4 cls, line := line, gt := s.now, writes := true }] }

/-- Allocate a line in a way, writing back what it replaces. -/
def State.l2Fill (s : State) (d line way : Nat) (x : L2Line) : State :=
  let die := s.die d
  let victims := die.l2.filter fun e => e.1 != line && e.2.way == way && l2Set e.1 == l2Set line
  let t := victims.foldl (fun (t : State) (e : Nat × L2Line) => if e.2.modified then t.hbmAsk 4 e.1 e.2.sick else t) s
  t.modDie d fun y => { y with l2 := tset (y.l2.filter fun e => !victims.any fun v => v.1 == e.1) line x, l2Clock := max y.l2Clock x.used }

/-- The way that a new line takes among a partition's (R268, R271): a free one; else one whose line stands at the least-recently-used position; else one that replacement chooses among the unpinned lines, never the one used last while there is another. None where every line is pinned. Which line pseudo-LRU takes beyond that is free (log entry 86). -/
def State.l2Way (s : State) (d line : Nat) (ways : List Nat) : Option Nat × State :=
  let inSet := (s.die d).l2.filter fun e => l2Set e.1 == l2Set line
  let open_ := ways.filter fun w => !inSet.any fun e => e.2.way == w && e.2.pinned
  let old := inSet.filter fun e => open_.contains e.2.way
  match (open_.find? fun w => !inSet.any fun e => e.2.way == w).orElse fun _ => (old.find? fun e => e.2.used == 0).map (·.2.way) with
  | some w => (some w, s)
  | none =>
    let top := (old.map (·.2.used)).foldl max 0
    let rest := (old.filter fun e => e.2.used != top).map (·.2.way)
    let cands := if rest = [] then open_ else rest
    if cands = [] then (none, s) else (cands[s.freeNat.1 % cands.length]?, s.freeNat.2)

/-- The stamp of the next use of a line of a die. -/
def State.l2Next (s : State) (d : Nat) : Nat := (s.die d).l2Clock + 1

/-- An access to a line at its home slice (R268 to R270): a hit, which makes the line the most recently used, or a fetch of class `cls` and an allocation, at the least-recently-used position with `evict` (R269) and else at the most recently used one; with no way, a direct access. -/
def State.l2Access (s : State) (p line : Nat) (isWrite whole : Bool) (cls : Nat) (evict : Bool) : State :=
  let d := dieOfChan (line / 2 ^ 24)
  match tfind (s.die d).l2 line with
  | some x => s.modDie d fun y =>
      { y with l2 := tset y.l2 line { x with modified := x.modified || isWrite, used := y.l2Clock + 1, sick := x.sick && !whole }, l2Clock := y.l2Clock + 1 }
  | none =>
    let t := if whole then s else s.hbmAsk cls line
    match t.l2Way d line (s.waysOf p d) with
    | (some w, u) => u.l2Fill d line w { way := w, modified := isWrite, used := if evict then 0 else u.l2Next d, sick := !whole && s.linePoisoned line }
    | (none, u) => if isWrite then u.hbmWrite cls line else u

/-- The L2 side of an access to `n` bytes for a partition. -/
def State.l2Touch (s : State) (p a n : Nat) (isWrite : Bool) (cls : Nat) (evict : Bool := false) : State :=
  (linesOf a n).foldl (fun t l => t.l2Access p l isWrite (decide (a ≤ 128 * l ∧ 128 * l + 128 ≤ a + n) && isWrite) cls evict) s

/-- One more pinned line of the partition's ways fits in a line's set: pinned lines fill at most half of them (R271). -/
def State.mayPin (s : State) (d line : Nat) (ways : List Nat) : Bool :=
  decide (2 * (((s.die d).l2.filter fun e => l2Set e.1 == l2Set line && e.2.pinned && ways.contains e.2.way).length + 1) ≤ ways.length)

/-- A line of a commit region is written as an entry fills it: pinned in the partition's ways on the lead die where R271 allows, else written to HBM uncached (R344). -/
def State.commitLine (s : State) (p line : Nat) : State :=
  let d := dieOfChan (line / 2 ^ 24)
  let ways := s.waysOf p d
  match tfind (s.die d).l2 line with
  | some _ => s
  | none =>
    if s.mayPin d line ways then
      match s.l2Way d line ways with
      | (some w, t) => t.l2Fill d line w { way := w, modified := true, pinned := true, used := t.l2Next d }
      | (none, t) => t.hbmAsk 4 line
    else s.hbmAsk 4 line

/-- Lines of a commit region of 128 KiB, and entries of 32 bytes in a line (R344). -/
def regionLines : Nat := 1024
def lineEntries : Nat := 4

/-- The lines that hold entries `lo` to `hi - 1` of a commit queue. -/
def entryLines (base lo hi : Nat) : List Nat :=
  if lo < hi then (upTo ((hi - 1) / lineEntries + 1 - lo / lineEntries)).map fun k => base + lo / lineEntries + k else []

/-- A commit region is freed: its lines leave L2 and what it held is no longer poisoned (R337, R344). -/
def State.freeRegion (s : State) (base : Option Nat) : State :=
  match base with
  | none => s
  | some b =>
    let mine (l : Nat) : Bool := decide (b ≤ l ∧ l < b + regionLines)
    ({ s with poison := s.poison.filter fun l => !mine l } : State).modDie (dieOfChan (b / 2 ^ 24)) fun y =>
      { y with l2 := y.l2.filter fun e => !mine e.1 }

/-- A read of the array, for an access of the module's agents and not for a traffic generator, stands in the queue. -/
def HbmReq.reads (r : HbmReq) : Bool := !r.writes && !r.gen

/-- Whether a read of a line waits at its controller. -/
def State.lineWaits (s : State) (l : Nat) : Bool := (s.chan (l / 2 ^ 24)).reqs.any fun r => r.reads && r.line == l
def State.hbmWaits (s : State) (a n : Nat) : Bool := (linesOf a n).any s.lineWaits

/-! Lines that an agent at the home slice needs before it goes on: what an atomic, a message of another module or the sweep of a region consumes is what the array gave (R415, R416, R422). -/

/-- The home slice has a line: L2 holds it and no read of it waits, or the array has given it for one that waits. -/
def State.lineHere (s : State) (l : Nat) : Bool :=
  ((tfind (s.die (dieOfChan (l / 2 ^ 24))).l2 l).isSome && !s.lineWaits l) || (s.chan (l / 2 ^ 24)).fetched.contains l

/-- The lines of HBM among some places. -/
def hbmLines (xs : List (Target × Nat)) : List Nat :=
  (xs.flatMap fun x => match x.1 with
    | .hbm a => linesOf a x.2
    | _ => []).dedup

/-- The home slices have every line of some places. -/
def State.linesHere (s : State) (xs : List (Target × Nat)) : Bool := (hbmLines xs).all s.lineHere

/-- A home slice asks for a line that it has not, once, in a class (R275). -/
def State.askLine (s : State) (p cls l : Nat) : State :=
  if s.lineHere l || s.lineWaits l then s
  else (s.l2Access p l false false cls false).modChan (l / 2 ^ 24) fun c => { c with
    reqs := c.reqs.map fun r => if r.reads && r.line == l then { r with hold := true } else r }

/-- Lines that the array gave for one that waited are taken. -/
def State.takeLine (s : State) (l : Nat) : State := s.modChan (l / 2 ^ 24) fun c => { c with fetched := c.fetched.filter (· != l) }

def State.takeLines (s : State) (xs : List (Target × Nat)) : State := (hbmLines xs).foldl State.takeLine s
/-- Ask for what is lacking of some places. -/
def State.askLines (s : State) (p cls : Nat) (xs : List (Target × Nat)) : State := (hbmLines xs).foldl (fun t l => t.askLine p cls l) s

/-- Go on once the home slices have the lines of some places; until then ask for those that they lack. -/
def State.withLines (s : State) (p cls : Nat) (xs : List (Target × Nat)) (k : State → State) : State :=
  if s.linesHere xs then k (s.takeLines xs) else s.askLines p cls xs

/-! The ring (R25 to R27). -/

/-- The two dies that a die-to-die link joins: CD0-CD1, CD1-CD3, CD3-CD2 and CD2-CD0 (R25). The numbers are the model's (log entry 67). -/
def d2dEnds : Nat → Nat × Nat
  | 0 => (0, 1)
  | 1 => (1, 3)
  | 2 => (3, 2)
  | _ => (2, 0)

/-- The next die in ring order, and the one before. -/
def dieNext : Nat → Nat
  | 0 => 1
  | 1 => 3
  | 3 => 2
  | _ => 0
def diePrev : Nat → Nat
  | 0 => 2
  | 2 => 3
  | 3 => 1
  | _ => 0

/-- The link between two adjacent dies. -/
def d2dLink (a b : Nat) : Option Nat := (upTo 4).find? fun n => d2dEnds n == (a, b) || d2dEnds n == (b, a)

/-- The hops from `a` to `b`, going round by `next`: each link with the die at its end. -/
def ringWalk (next : Nat → Nat) (b : Nat) : Nat → Nat → List (Nat × Nat)
  | 0, _ => []
  | fuel + 1, a => if a = b then [] else ((d2dLink a (next a)).toList.map (·, next a)) ++ ringWalk next b fuel (next a)

/-- The path while every link works (R26): none within a die, the direct link between adjacent dies, and between diagonal dies the two links through the next die in ring order from the source. -/
def ringPath (a b : Nat) : List (Nat × Nat) :=
  match d2dLink a b with
  | some n => [(n, b)]
  | none => ringWalk dieNext b 4 a

/-- The path the other way round. -/
def ringDetour (a b : Nat) : List (Nat × Nat) :=
  if ringPath a b = ringWalk dieNext b 4 a then ringWalk diePrev b 4 a else ringWalk dieNext b 4 a

/-- A path to `b` is open: none of its links is among the failed ones, and no die that it passes is dark (R27, R493). -/
def State.pathOpen (s : State) (cut : List Nat) (b : Nat) (hops : List (Nat × Nat)) : Bool :=
  hops.all fun h => !cut.contains h.1 && (h.2 == b || s.lamp (lampDie h.2))

/-- The links that an access takes from die `a` to die `b` (R26, R27, R493): the other way round the ring when a link of the path had failed as the access was issued, `cut` saying which had, or a die on it is dark; none when both ways are cut, of which the spec says nothing: what would cross then waits (log entry 77). -/
def State.diePath (s : State) (cut : List Nat) (a b : Nat) : Option (List Nat) :=
  if s.pathOpen cut b (ringPath a b) then some ((ringPath a b).map (·.1))
  else if s.pathOpen cut b (ringDetour a b) then some ((ringDetour a b).map (·.1))
  else none

/-! Planes (R28, R32, R33). -/

/-- The physical planes of a die's mesh. They share no buffer (R32). -/
inductive Plane where
  | request
  | response
  | stream
  deriving DecidableEq, Repr

/-- What travels over the mesh. -/
inductive Traffic where
  | load
  | store
  | atomic
  | clusterRequest
  | copyRead
  | copyWrite
  | registerAccess
  | readData
  | acknowledgement
  | clusterResponse
  | stageItem
  | contribution
  deriving DecidableEq, Repr

/-- The plane that carries it (R32). -/
def Traffic.plane : Traffic → Plane
  | .load | .store | .atomic | .clusterRequest | .copyRead | .copyWrite | .registerAccess => .request
  | .readData | .acknowledgement | .clusterResponse => .response
  | .stageItem | .contribution => .stream

/-- The virtual channel of a die-to-die link, where it has one: requests and responses on their own (R28). -/
def Traffic.channel (x : Traffic) : Option Bool :=
  match x.plane with
  | .request => some false
  | .response => some true
  | .stream => none

/-- The links that traffic of a kind takes between the die of its requester and the die of its home (R26, R28, R32): what the response plane carries goes from the home back to the requester, by the path of that direction. -/
def State.travels (s : State) (cut : List Nat) (x : Traffic) (a b : Nat) : Option (List Nat) :=
  match x.plane with
  | .response => s.diePath cut b a
  | _ => s.diePath cut a b

/-- A request and its response get across the ring. -/
def State.crosses (s : State) (cut : List Nat) (x y : Traffic) (a b : Nat) : Bool :=
  (s.travels cut x a b).isSome && (s.travels cut y a b).isSome

/-- A message of a core or an engine of die `a` reaches the router of die `b`, and its answer returns (R37). -/
def State.dieReach (s : State) (a b : Nat) : Bool := s.crosses s.d2d .store .acknowledgement a b

/-- The die that performs an access to a place, from a core of die `d`: that of the channel; host memory is reached over the die's own bridge (R38). -/
def Target.home (t : Target) (d : Nat) : Nat :=
  match t with
  | .hbm a => dieOfChan (a / 2 ^ 31)
  | _ => d

/-- A unit of die `d` reaches a place and has its answer now (R25 to R28). -/
def State.dieSees (s : State) (d : Nat) (t : Target) : Bool := s.crosses s.d2d .load .readData d (t.home d)

/-- Do something once the home slices have the lines of some places; ask for them where they have not been asked for, and none where they are on their way. -/
def State.onceHere (s : State) (p : Nat) (xs : List (Target × Nat)) (k : State → State) : Option State :=
  if s.linesHere xs then some (k (s.takeLines xs))
  else if (hbmLines xs).all fun l => s.lineHere l || s.lineWaits l then none
  else some (s.askLines p 3 xs)

/-! Translation (R259 to R262, R265, R266). -/

/-- Why a translation fails. -/
inductive TFail where
  | translation
  | retired
  | uncorrectable
  /-- No way round the ring leads to what is read: the access waits (R25, R27; log entry 77). -/
  | cut
  deriving DecidableEq, Repr

/-- The access kinds that the permissions distinguish. -/
inductive TAcc where
  | read
  | write
  | fetch
  deriving DecidableEq, Repr

/-- A translated address: where it is, and the leaf's memory type, EA and W bits. -/
structure Tr where
  tgt : Target
  mt  : Bool
  ea  : Bool
  w   : Bool
  deriving DecidableEq, Repr

/-- A table lies wholly in the reserved region of one channel, aligned to its size (R259, R262). -/
def tableOk (a size : Nat) : Bool :=
  decide (a % size = 0 ∧ a / 2 ^ 31 < 256 ∧ 0x5F000000 ≤ a % 2 ^ 31 ∧ a % 2 ^ 31 + size ≤ 0x60000000)

/-- The bytes that a leaf of each level maps, and the size of its table. -/
def pageSize : Nat → Nat
  | 0 => 2 ^ 30
  | 1 => 2 ^ 21
  | _ => 2 ^ 16
def tableSize : Nat → Nat
  | 0 => 32768
  | 1 => 4096
  | _ => 256

/-- The reserved bits of a leaf in HBM, of a leaf in host memory and of a pointer are 0, and a host page's HADDR is aligned to its size: R260 asks for that, and that a leaf which breaks it fails as one that breaks R262 does is the model's, as it is that bits [9:7] of a host leaf, where ISET is not present, are reserved (DESIGN CHOICE, log entry 98). -/
def pteOk (e level : Nat) : Bool :=
  if getBits e 1 1 = 1 then
    if getBits e 6 1 = 1 then decide (getBits e 7 9 = 0 ∧ getBits e 16 48 * 65536 % pageSize level = 0)
    else decide (getBits e 10 6 = 0 ∧ getBits e 35 29 = 0 ∧ getBits e 7 3 ≤ 4)
  else decide (level < 2 ∧ getBits e 2 6 = 0 ∧ getBits e 39 25 = 0)

/-- Walk the tables from a level, reading from HBM: the leaf and its level. -/
def State.walk (s : State) (va : Nat) : Nat → Nat → Nat → Except TFail (Nat × Nat)
  | 0, _, _ => .error .translation
  | fuel + 1, level, table =>
    if tableOk table (tableSize level) then
      let a := table + va % (pageSize level * (tableSize level / 8)) / pageSize level * 8
      if s.chanRetired (a / 2 ^ 31) then .error .retired
      else if s.poisoned a 8 then .error .uncorrectable
      else
        let e := leNat (s.bytes a 8)
        if getBits e 0 1 = 0 ∨ pteOk e level = false then .error .translation
        else if getBits e 1 1 = 1 then .ok (e, level)
        else s.walk va fuel (level + 1) (getBits e 8 31 * 256)
    else .error .translation

/-- The addresses of the entries that a walk reads. -/
def State.walkAt (s : State) (va : Nat) : Nat → Nat → Nat → List Nat
  | 0, _, _ => []
  | fuel + 1, level, table =>
    if tableOk table (tableSize level) then
      let a := table + va % (pageSize level * (tableSize level / 8)) / pageSize level * 8
      let e := leNat (s.bytes a 8)
      a :: if getBits e 0 2 = 1 then s.walkAt va fuel (level + 1) (getBits e 8 31 * 256) else []
    else []

/-- A unit of die `d` reaches every entry that the walk of an address reads (R25 to R27). -/
def State.walkSeen (s : State) (d p va : Nat) : Bool :=
  !s.bit (partPtroot p) 0 || (s.walkAt va 3 0 (getBits (s.reg64 (partPtroot p)) 15 24 * 32768)).all fun a => s.dieSees d (.hbm a)

/-- The leaf of an address by the tables as they stand. -/
def State.leafNow (s : State) (p va : Nat) : Except TFail (Nat × Nat) :=
  if s.bit (partPtroot p) 0 then
    s.walk va 3 0 (getBits (s.reg64 (partPtroot p)) 15 24 * 32768)
  else .error .translation

/-- The channels of a leaf's interleave set, ascending (R261). -/
def isetChans (e : PartEnt) (iset : Nat) : List Nat :=
  if iset = 0 then bitsSet e.hbmch 256
  else (bitsSet (getBits e.hbmch (64 * (iset - 1)) 64) 64).map (64 * (iset - 1) + ·)

/-- What a leaf gives an access (R260 to R262, R406, R411). A retired channel comes before what else the leaf lacks (R23). -/
def State.useLeaf (s : State) (p va : Nat) (acc : TAcc) (e level : Nat) : Except TFail Tr :=
  let perm := match acc with
    | .read => true
    | .write => getBits e 2 1 == 1
    | .fetch => getBits e 3 1 == 1
  let off := va % pageSize level
  let mk (t : Target) : Tr := { tgt := t, mt := getBits e 4 1 == 1, ea := getBits e 5 1 == 1, w := getBits e 2 1 == 1 }
  if getBits e 6 1 = 1 then
    if perm && s.hostPath p && (s.part p).tdi != 3 then .ok (mk (.host (s.vfOf p) (getBits e 4 1 == 1) (getBits e 16 48 * 65536 + off)))
    else .error .translation
  else
    let chs := isetChans (s.ent p) (getBits e 7 3)
    let n := chs.length
    let chunks := pageSize level / 4096
    let row := getBits e 16 19
    if n = 0 then .error .translation
    else
      let j := off / 4096
      let c := chs.getD (j % n) 0
      if s.chanRetired c then .error .retired
      else if perm && decide (row + (chunks + n - 1) / n ≤ 389120) then .ok (mk (.hbm (2 ^ 31 * c + (row + j / n) * 4096 + va % 4096)))
      else .error .translation

/-- The stage aperture (R206). -/
def inAperture (va : Nat) : Bool := decide (0x3FFFFE00000 ≤ va)

/-- The collective aperture (R381). -/
def inCollective (va : Nat) : Bool := decide (0x3E000000000 ≤ va ∧ va < 0x3F000000000)

/-- Addresses that no page maps: beyond 2^42, or in an aperture, where translations are ignored (R124, R206, R381). -/
def noPage (va : Nat) : Bool := decide (2 ^ 42 ≤ va) || inAperture va || inCollective va

/-- Translate by the tables as they stand. -/
def State.translNow (s : State) (p va : Nat) (acc : TAcc) : Except TFail Tr :=
  if noPage va = true then .error .translation
  else match s.leafNow p va with
    | .error f => .error f
    | .ok (e, level) => s.useLeaf p va acc e level

/-- Who translates (R265): a core, with its own cache before its die's, or a unit that uses a die's shared cache. -/
inductive Walker where
  | core (p : Nat)
  | die (d : Nat)
  deriving DecidableEq, Repr

/-- The caches of translations that serve it, the nearest first: those of the cores are numbered 0 to 1,631, those of the dies 1,632 to 1,635. -/
def Walker.caches : Walker → List Nat
  | .core p => [p, 1632 + dieOfPhys p]
  | .die d => [1632 + d]

/-- The die that it is on. -/
def Walker.home : Walker → Nat
  | .core p => dieOfPhys p
  | .die d => d

/-- How many translations a cache keeps (R265). -/
def cacheSize (k : Nat) : Nat := if k < 1632 then 64 else 4096

/-- Where a translation stands in `Part.tlb`. -/
def tlbKey (cache page : Nat) : Nat := 2 ^ 26 * cache + page

/-- The translations in a cache: partition and key. -/
def State.tlbIn (s : State) (k : Nat) : List (Nat × Nat) :=
  s.parts.flatMap fun e => ((tkeys e.2.tlb).filter fun x => x / 2 ^ 26 == k).map (e.1, ·)

/-- A cache takes a translation; of a full one, which entry leaves is a free choice. -/
def State.tlbPut (s : State) (p page : Nat) (x : TlbEnt) (k : Nat) : State :=
  let xs := s.tlbIn k
  let put (t : State) : State := t.modPart p fun y => { y with tlb := tset y.tlb (tlbKey k page) x }
  if xs.contains (p, tlbKey k page) || decide (xs.length < cacheSize k) then put s
  else
    let r := s.freeNat
    let v := xs.getD (r.1 % xs.length) (0, 0)
    put (r.2.modPart v.1 fun y => { y with tlb := tdel y.tlb v.2 })

/-- The translation of a page that the nearest of some caches gives, `fresh` what the tables give now: one that differs may have been replaced before the access, by a free choice (R265, R266). With it, the caches that missed. -/
def State.tlbLook (s : State) (p page : Nat) (fresh : Option TlbEnt) : List Nat → Option TlbEnt × List Nat × State
  | [] => (none, [], s)
  | k :: ks =>
    let next (t : State) : Option TlbEnt × List Nat × State :=
      let r := t.tlbLook p page fresh ks
      (r.1, k :: r.2.1, r.2.2)
    match tfind (s.part p).tlb (tlbKey k page) with
    | none => next s
    | some c =>
      if fresh = some c then (some c, [], s)
      else
        let r := s.freeBit
        if r.1 then (some c, [], r.2) else next r.2

/-- The leaf as the tables give it now, as a cache holds it. -/
def State.freshLeaf (s : State) (p va : Nat) : Option TlbEnt :=
  match s.leafNow p va with
  | .ok (e, level) => some { pte := BitVec.ofNat 64 e, level := level }
  | .error _ => none

/-- Translate an access (R259 to R262): by the nearest cache that holds the page (R265), which may be an entry from before a change of the tables (R266), else by the tables. The caches that missed take the translation. Units other than cores and copy engines, of which R265 says nothing, use the cache of the partition's lead die: DESIGN CHOICE (log entry 99). A walk whose tables no way round the ring leads to waits (log entry 77). -/
def State.transl (s : State) (p va : Nat) (acc : TAcc) (who : Walker := .die (s.ent p).lead) : Except TFail Tr × State :=
  if noPage va = true then (.error .translation, s)
  else
    let page := va / 65536
    let fresh := s.freshLeaf p va
    let r := s.tlbLook p page fresh who.caches
    let use (c : TlbEnt) : Except TFail Tr × State := (s.useLeaf p va acc c.pte.toNat c.level, r.2.1.foldl (fun t k => t.tlbPut p page c k) r.2.2)
    match r.1, if s.walkSeen who.home p va then s.leafNow p va else .error .cut with
    | some c, _ => use c
    | none, .ok (e, level) => use { pte := BitVec.ofNat 64 e, level := level }
    | none, .error f => (.error f, r.2.2)

/-- Translate a range page by page, in pieces of 4 KiB: where each piece lies. -/
def State.translRange (s : State) (p : Nat) (acc : TAcc) (who : Walker) : Nat → Nat → Nat → Except TFail (List (Tr × Nat)) × State
  | 0, _, _ => (.ok [], s)
  | fuel + 1, va, n =>
    if n = 0 then (.ok [], s)
    else
      let m := min n (4096 - va % 4096)
      match s.transl p va acc who with
      | (.error f, t) => (.error f, t)
      | (.ok tr, t) =>
        match t.translRange p acc who fuel (va + m) (n - m) with
        | (.error f, u) => (.error f, u)
        | (.ok rest, u) => (.ok ((tr, m) :: rest), u)

/-- The pieces of a range of `n` bytes. -/
def State.translSpan (s : State) (p va n : Nat) (acc : TAcc) (who : Walker := .die (s.ent p).lead) : Except TFail (List (Tr × Nat)) × State :=
  s.translRange p acc who (n / 4096 + 2) va n

/-- Free bytes, for data that comes from outside the module. -/
def State.freeBytes (s : State) : Nat → List Byte × State
  | 0 => ([], s)
  | n + 1 =>
    let r := ({ s with free := s.free + 1 } : State).freeBytes n
    (Config.freeByte s.free :: r.1, r.2)

/-- Read bytes at a place: HBM, or host memory, by a request of the host port (R406), whose data is free. -/
def State.readAt (s : State) (t : Target) (n : Nat) : List Byte × State :=
  match t with
  | .hbm a => (s.bytes a n, s)
  | .host fn _ a => (s.emit (.hostRead fn a n)).freeBytes n
  | .remote _ => s.freeBytes n

/-- The same place, whose writes carry no Relaxed Ordering: completion records (R406). -/
def Target.ordered : Target → Target
  | .host fn _ a => .host fn true a
  | t => t

/-- Write bytes at a place; a write to host memory breaks the reservations that the module holds there too (R131, R244). -/
def State.writeAt (s : State) (t : Target) (bs : List Byte) : State :=
  match t with
  | .hbm a => s.writeMem a bs
  | .host fn strict a => (s.emit (.host fn a bs (!strict))).breakGlobal (2 ^ 64 + a) bs.length
  | .remote _ => s

/-- Whether what a read of a place gives is poisoned: a line of HBM that is, or a completion of the host that comes so, which is free (R396). -/
def State.poisonedAt (s : State) (t : Target) (n : Nat) : Bool :=
  match t with
  | .hbm a => s.poisoned a n
  | .host _ _ _ => Config.hostPoison s.free
  | .remote _ => false

/-- The reads of host memory among some places leave the host port (R406), whatever their completions bring. -/
def State.askHost (s : State) (xs : List (Target × Nat)) : State :=
  xs.foldl (fun t x => match x.1 with
    | .host fn _ a => t.emit (.hostRead fn a x.2)
    | _ => t) s

/-- Some piece lies where no way round the ring leads from a die (R25). -/
def State.piecesCut (s : State) (d : Nat) (ps : List (Tr × Nat)) : Bool := ps.any fun e => !s.dieSees d e.1.tgt

/-- Read a structure of a partition's memory: the status that an unreadable one gives, and the bytes. -/
def State.fetchBytes (s : State) (p va n : Nat) (who : Walker := .die (s.ent p).lead) : Except TFail (List Byte) × State :=
  match s.translSpan p va n .read who with
  | (.error f, t) => (.error f, t)
  | (.ok ps, t) =>
    if t.piecesCut who.home ps then (.error .cut, t)
    else if ps.any fun e => t.poisonedAt e.1.tgt e.2 then (.error .uncorrectable, t.askHost (ps.map fun e => (e.1.tgt, e.2)))
    else
      let r := ps.foldl (fun (a : List Byte × State) e =>
        let x := a.2.readAt e.1.tgt e.2
        (a.1 ++ x.1, x.2)) ([], t)
      (.ok r.1, r.2)

/-- A structure cannot be written yet: no way round the ring leads to its page, or to the tables that map it (R25; log entry 77). -/
def State.storeCut (s : State) (p va n : Nat) : Bool :=
  match (s.translSpan p va n .write).1 with
  | .ok ps => s.piecesCut (s.ent p).lead ps
  | .error f => f == .cut

/-- Write a structure into a partition's memory, `ordered` a completion record; nothing is written when any page fails, or lies where no way round the ring leads (log entry 77). -/
def State.storeBytes (s : State) (p va : Nat) (bs : List Byte) (ordered : Bool := false) : Bool × State :=
  match s.translSpan p va bs.length .write with
  | (.error _, t) => (false, t)
  | (.ok ps, t) =>
    if t.piecesCut (t.ent p).lead ps then (false, t) else
    let r := ps.foldl (fun (a : List Byte × State) e =>
      let u := a.2.writeAt (if ordered then e.1.tgt.ordered else e.1.tgt) (a.1.take e.2)
      (a.1.drop e.2, match e.1.tgt with
        | .hbm d => u.l2Touch p d e.2 true 3
        | _ => u)) (bs, t)
    (true, r.2)

/-! Completion statuses (R19) and failures of launches (R23). -/

def stOk : Byte := 0
def stWindow : Byte := 2
def stTileIllegal : Byte := 3
def stTranslation : Byte := 4
def stEcc : Byte := 5
def stPair : Byte := 6
def stTimeout : Byte := 7
def stPartReset : Byte := 8
def stInexact : Byte := 9
def stNack : Byte := 10
def stCommitOvf : Byte := 11
def stBucket : Byte := 12
def stSem : Byte := 13
def stDep : Byte := 14
def stRetired : Byte := 15

/-- The rank of a status among causes of one moment (R23): lower is reported. -/
def failRank (st : Byte) : Nat :=
  if st = stPartReset then 0
  else if st = stEcc then 1
  else if st = stRetired then 2
  else if st = stPair then 3
  else 4 + st.toNat

/-- The status of a failed translation. -/
def TFail.status : TFail → Byte
  | .translation => stTranslation
  | .retired => stRetired
  | .uncorrectable => stEcc
  | .cut => stOk -- it is never reported: what meets it waits

/-- The failure that is reported of one found before, if any, and another: the earlier in GT, the higher rank at one moment (R23). -/
def worst (old : Option Failure) (f : Failure) : Failure :=
  match old with
  | none => f
  | some g => if f.gt < g.gt ∨ (f.gt = g.gt ∧ failRank f.status < failRank g.status) then f else g

/-- Record a failure of a launch. -/
def Launch.addFail (l : Launch) (f : Failure) : Launch := { l with fail := some (worst l.fail f) }

/-- Record a failure that settle reports (R349). -/
def Launch.find (l : Launch) (f : Failure) : Launch := { l with found := some (worst l.found f) }

/-- From the context that a launch takes on, its status is the one its commit gives (R22, R347). -/
def Launch.committing (l : Launch) : Bool :=
  match l.phase with
  | .settling | .performing | .ended => true
  | _ => false

/-- A failure of a launch that has not begun to commit; a commit runs to its end whatever else fails (R21, R22). -/
def State.failLaunch (s : State) (l : Nat) (f : Failure) : State := s.modLaunch l fun x => if x.committing then x else x.addFail f

/-- A launch's write is lost with a retired channel (R436): a failure, of a launch that settles too, which has not ended its commit (R349). -/
def State.loseWrites (s : State) (l : Nat) (f : Failure) : State :=
  s.modLaunch l fun x => match x.phase with
    | .performing | .ended => x
    | _ => x.addFail f

/-- A failure of this moment. -/
def State.mkFail (s : State) (status : Byte) (engine : Nat := 0xFFFF) (cause reason : Byte := 0) : Failure :=
  { status := status, cause := cause, reason := reason, engine := engine, gt := s.now }

/-! Instruction exceptions (R137 to R141, R173). -/

def exIllegal : Nat := 0x01
def exReserved : Nat := 0x02
def exRange : Nat := 0x03
def exAlign : Nat := 0x04
def exStack : Nat := 0x05
def exMisaligned : Nat := 0x06
def exTranslation : Nat := 0x07
def exSpace : Nat := 0x08
def exWindow : Nat := 0x09
def exUncorrectable : Nat := 0x0A
def exRemote : Nat := 0x0B
def exDeferral : Nat := 0x0C
def exMxHandle : Nat := 0x20
def exMxKind : Nat := 0x21
def exMxRange : Nat := 0x22
def exMxFormat : Nat := 0x23
def exMxNoStat : Nat := 0x24
def exMxNest : Nat := 0x25
def exMxInexact : Nat := 0x26

/-- The launch status of a cause. -/
def causeStatus (c : Nat) : Byte :=
  if c = exWindow then stWindow
  else if c = exUncorrectable then stEcc
  else if c = exRemote then stNack
  else if c = exDeferral then stCommitOvf
  else if c = exMxNest then stTileIllegal
  else if c = exMxInexact then stInexact
  else stTranslation

/-- One cause met by one lane; `status` where it is not the cause's own (a retired channel, R262). -/
structure Exc where
  cause  : Nat
  lane   : Nat := 0
  addr   : Nat := 0
  status : Byte := causeStatus cause
  deriving DecidableEq, Repr

/-- No cause of R138: a lane's access that waits for a way round the ring (log entry 77). -/
def exCut : Nat := 0x100

/-- The exception of a failed translation. A retired channel ends the launch without a cause of R138 (R262): cause 0. -/
def TFail.exc (f : TFail) (lane addr : Nat) : Exc :=
  match f with
  | .translation => { cause := exTranslation, lane := lane, addr := addr }
  | .retired => { cause := 0, lane := lane, addr := addr, status := stRetired }
  | .uncorrectable => { cause := exUncorrectable, lane := lane, addr := addr }
  | .cut => { cause := exCut, lane := lane, addr := addr }

/-- The order of R139: by cause, then by lane. -/
def Exc.key (e : Exc) : Nat := e.cause * 64 + e.lane

/-- What is recorded of several (R139): the lowest cause, then the lowest lane. A retired channel among them has no cause and hides none; of the statuses that they give, found at one moment, the launch ends with the one that R23 ranks first (R262). -/
def pickExc (xs : List Exc) : Option Exc :=
  match argmin Exc.key (xs.filter fun x => x.cause != 0) with
  | some e => some (if (xs.any fun x => x.cause == 0) && decide (failRank stRetired < failRank e.status) then { e with status := stRetired } else e)
  | none => argmin Exc.key xs

/-- The exception cause that a completion record shows: that which gave the status, or 0 (R306). -/
def Exc.given (e : Exc) : Byte := if e.status = causeStatus e.cause then BitVec.ofNat 8 e.cause else 0

/-- Record an exception in the core's record (R141). -/
def State.recordExc (s : State) (p sc sl : Nat) (e : Exc) (pc : Nat) (word : Word64) (part : Nat) : State :=
  if e.cause = 0 then s
  else if s.bit (excStatus p) 31 then s.setBit (excStatus p) 30 true
  else
    let v := e.cause + sc * 2 ^ 8 + sl * 2 ^ 10 + e.lane * 2 ^ 14 + part * 2 ^ 19 + 2 ^ 31
    (((s.setReg (excStatus p) (BitVec.ofNat 32 v)).setReg64 (excPc p) pc).setReg64 (excAddr p) e.addr).setReg64 (excWord p) word.toNat

/-- Take an exception (R137): the record, the launch's failure, and the group stops where it is. -/
def State.raise (s : State) (g : GRef) (lid part pc : Nat) (word : Word64) (e : Exc) : State :=
  ((s.recordExc g.core g.sched g.slot e pc word part).failLaunch lid
    (s.mkFail e.status g.core e.given)).modGroup g fun x => { x with stopped := true }

/-! Trace records (R497 to R501, R504). -/

/-- MODE of the trace port (R504). -/
def State.portMode (s : State) : Nat :=
  if s.bit dbgHangstat 0 && s.dbg.toPort then 2
  else if s.lamp lampRim && s.boot.starts != [] then 1
  else if s.bit dbgTrctrl 1 && s.bit secDbg 1 then 3
  else 0

/-- Put a record into the trace port's queue, or drop it and count it, for its engine's next LOST record too (R500, R505). -/
def State.portPut (s : State) (r : TraceRec) : State :=
  if s.dbg.port.length ≤ Config.portDepth then { s with dbg := { s.dbg with port := s.dbg.port ++ [r] } }
  else
    let b := tget {} s.dbg.bufs r.engine
    ({ s with dbg := { s.dbg with bufs := tset s.dbg.bufs r.engine { b with lost := b.lost + 1 } } } : State).countReg (dbgTrlost r.part) 1

def tyTimebase : Nat := 1
def tyBegin : Nat := 2
def tyEnd : Nat := 3
def tyKill : Nat := 4
def tyCommit : Nat := 5
def tyLost : Nat := 6
def tyLamp : Nat := 7
def tySnap : Nat := 8

/-- An engine writes a trace record: into its buffer of 64, or dropped and counted (R501); in START mode also on the port. -/
def State.trace (s : State) (engine typ part : Nat) (rt : Bool) (data : Nat) : State :=
  if s.bit dbgTrctrl 0 then
    let r : TraceRec := { gtoff := s.gt.truncate 32, engine := engine, typ := typ, part := part, rt := rt, data := BitVec.ofNat 64 data }
    let t := if s.portMode = 1 then s.portPut r else s
    let b := tget {} t.dbg.bufs engine
    if b.recs.length < 64 then
      { t with dbg := { t.dbg with bufs := tset t.dbg.bufs engine { b with recs := b.recs ++ [(s.now, r)] } } }
    else
      ({ t with dbg := { t.dbg with bufs := tset t.dbg.bufs engine { b with lost := b.lost + 1 } } }).countReg (dbgTrlost part) 1
  else s

/-- The same for a launch: its sequence, its queue and a status (R498). -/
def State.traceLaunch (s : State) (engine typ : Nat) (l : Launch) (status : Nat) : State :=
  s.trace engine typ l.part l.rt (l.seq + l.queue * 2 ^ 48 + status * 2 ^ 56)

/-- Engine numbers of R35. -/
def engCopy (e : Nat) : Nat := 0x800 + e
def engLink (n : Nat) : Nat := 0x900 + n
def engDig (d : Nat) : Nat := 0xA00 + d
def engFe (d : Nat) : Nat := 0xB00 + d

/-- A launch meets what settle is to report, at its front end. -/
def State.findFail (s : State) (lid : Nat) (status : Byte) : State :=
  s.modLaunch lid fun l => l.find (s.mkFail status (engFe (s.ent l.part).lead))

/-- An uncorrectable error in a line of a commit region: the entries it holds that are not yet sent are poisoned, which settle reports (R417). -/
def State.poisonEntries (s : State) (line : Nat) : State :=
  { s with launches := s.launches.map fun (e : Nat × Launch) => match e.2.cqBase with
    | some b =>
      let hit (i : Nat) (x : CqEntry) : Bool := b + i / lineEntries == line && x.st == .waiting
      if b ≤ line ∧ line < b + regionLines ∧ (e.2.cq.mapIdx hit).contains true = true then
        (e.1, { e.2.find (s.mkFail stEcc (engFe (s.ent e.2.part).lead)) with cq := e.2.cq.mapIdx fun i x => if hit i x then { x with poison := true } else x })
      else e
    | none => e }

/-! Performance counters (R506 to R508). -/

/-- Counter `n` of a core counts `k` (at most 2^48): a carry out of bit 47 sets OVF, and FREEZE with FRZOVF. -/
def State.pmAdd (s : State) (p n k : Nat) : State :=
  let v := s.reg64 (pmc p n) % 2 ^ 48 + k
  let t := s.setReg64 (pmc p n) (v % 2 ^ 48)
  if 2 ^ 48 ≤ v then
    let u := t.setBit (pmOvf p) n true
    if u.bit (pmCtrl p) 1 then u.setBit (pmCtrl p) 0 true else u
  else t

/-- An event of a core, `k` times, for a launch of a partition. -/
def State.pmEvent (s : State) (p ev part k : Nat) : State :=
  if s.bit (pmCtrl p) 0 then s
  else
    ((upTo 8).filter fun n => s.fld (pmSel p n) 0 8 == ev && (!s.bit (pmSel p n) 14 || s.fld (pmSel p n) 8 6 == part)).foldl
      (fun t n => t.pmAdd p n k) s

def evBeats : Nat := 0x01
def evIssued : Nat := 0x02
def evNoGroup : Nat := 0x03
def evArray : Nat := 0x04
def evLoading : Nat := 0x05
def evReplay : Nat := 0x06
def evL1Hit : Nat := 0x07
def evL1Miss : Nat := 0x08
def evPending : Nat := 0x09
def evResidency : Nat := 0x0A
def evRemote : Nat := 0x0B
def evClaim : Nat := 0x0C
def evThief : Nat := 0x0D
def evKilled : Nat := 0x0E
def evGt : Nat := 0x0F

/-- The PMSEL registers that count an event of time, a nanosecond or a beat; with PFILT none does, since such a moment is of no launch (log entry 8). -/
def countsTime (ev : Nat) (e : Nat × Word) : Option (Nat × Nat) :=
  match inBlk e.1 0x2000000 1632 0x1000 with
  | some (p, o) => if 0x900 ≤ o ∧ o < 0x920 ∧ o % 4 = 0 ∧ e.2.toNat % 256 = ev ∧ getBits e.2.toNat 14 1 = 0 then some (p, (o - 0x900) / 4) else none
  | none => none

/-- The counters of an event of time count: on core `p`, `k p` times. -/
def State.pmTime (s : State) (ev : Nat) (k : Nat → Nat) : State :=
  (s.regs.filterMap (countsTime ev)).foldl (fun t e => if t.bit (pmCtrl e.1) 0 then t else t.pmAdd e.1 e.2 (k e.1)) s

/-- Global time moves on by 1 ns: GT and the counters that count its nanoseconds. -/
def State.tickGt (s : State) : State := ({ s with gt := s.gt + 1 } : State).pmTime evGt fun _ => 1

/-- A core has work: something of a launch is on it. A core without any holds no request in a stage (R434). -/
def Core.busy (c : Core) : Bool :=
  c.blocks != [] || c.groups != [] || c.sbufs != [] || c.loads != [] || c.art != [] || c.creqs != []

/-! The rate of a core (R463, R467), in 1/4,096 beat/ns. -/

def State.ceil (s : State) (p : Nat) : Nat := s.fld (coreGov p) 0 16

/-- The effective cap under which a core runs: its ceiling, which holds at once when it falls, and the cap that has taken hold (R467, R469). -/
def State.effCap (s : State) (p : Nat) : Nat := min (s.ceil p) (s.fld (coreGov p) 16 16)

/-- The effective cap of a core in the nanosecond from `m`: of those that ended since the last update the first that ended later, or the present one. -/
def State.capAt (s : State) (p m : Nat) : Nat := ((s.core p).caps.foldl (fun (a : Nat) e => if m < e.1 then e.2 else a) (s.effCap p))

/-- The rate at which a core advances in the nanosecond from `m`, when it has work: its natural rate, which its governor holds at or below the effective cap (R467). -/
def State.rateAt (s : State) (p m : Nat) : Nat := min (Config.coreRate p m).val (s.capAt p m)

/-- The sum of a core's rates over the last 1,024 ns (R463). -/
def State.rateSum (s : State) (p : Nat) : Nat := (upTo 1024).foldl (fun a i => a + s.rateAt p (s.now - 1024 + i)) 0

/-- The highest effective cap of a core since the sextant's last update. -/
def State.capHigh (s : State) (p : Nat) : Nat := (s.core p).caps.foldl (fun a e => max a e.2) (s.effCap p)

/-- The effective cap of a core ends here: what follows is under the next (R467). -/
def State.endCap (s : State) (p : Nat) : State := s.modCore p fun c => { c with caps := (s.now, s.effCap p) :: c.caps }

end Sys2Proof.Machine
end

