-- ==== Sys2Proof/Machine/Operands.lean ====
section
/-! DEFINITION. Operand forms: the fields of instruction words (R106 to R110, R123, R129, R154), the registers they name and the checks on them, reading and writing registers, reconvergence (R73 to R75), instruction fetch (R87, R105) and the conditions under which a group issues (R76, R77, R137). -/

namespace Sys2Proof.Machine

/-! Fields (R106, R107). -/

def fMaj (w : Word64) : Nat := fieldOf w 63 58
def fG (w : Word64) : Bool := flagOf w 57
def fGN (w : Word64) : Bool := flagOf w 56
def fGP (w : Word64) : Nat := fieldOf w 55 53
def fSub (w : Word64) : Nat := fieldOf w 52 48
def fMod (w : Word64) : Nat := fieldOf w 47 40
def fD (w : Word64) : Nat := fieldOf w 39 32
def fA (w : Word64) : Nat := fieldOf w 31 24
def fB (w : Word64) : Nat := fieldOf w 23 16
def fC (w : Word64) : Nat := fieldOf w 15 8
/-- The I-format immediate, sign-extended to 32 bits. -/
def fImm20 (w : Word64) : Nat := intBits 32 (signedOf 20 (fieldOf w 19 0))
def fImm32 (w : Word64) : Nat := fieldOf w 31 0

/-- The body formats of R107, and the matrix body of R154. -/
inductive Body where
  | r | i | l | b | m | mx
  deriving DecidableEq, Repr

def bodyOf (w : Word64) : Body :=
  match fMaj w with
  | 0x01 => .b
  | 0x05 => .i
  | 0x07 => .l
  | 0x10 | 0x11 | 0x12 | 0x13 => .m
  | 0x20 => .mx
  | _ => .r

/-- The kind bits of A, B, C and D by format. -/
def fAU (w : Word64) : Bool :=
  match bodyOf w with | .r => flagOf w 7 | .i => flagOf w 22 | .m => flagOf w 15 | _ => false
def fBU (w : Word64) : Bool :=
  match bodyOf w with | .r => flagOf w 6 | .m => flagOf w 14 | _ => false
def fCU (w : Word64) : Bool :=
  match bodyOf w with | .r => flagOf w 5 | _ => false
def fDU (w : Word64) : Bool :=
  match bodyOf w with | .r => flagOf w 4 | .i => flagOf w 23 | .m => flagOf w 12 | _ => false

/-- Width in bytes of R123. -/
def widthOf (w : Word64) : Nat := 2 ^ (fMod w % 8)
/-- Registers that a value of so many bytes takes (R109, R123). -/
def regsFor (bytes : Nat) : Nat := max 1 (bytes / 4)
/-- Bytes of the word of an atomic (R111). -/
def atomWidth (w : Word64) : Nat := if getBits (fSub w) 3 1 = 1 then 8 else 4
/-- OFF, by class (R124, R129). -/
def fOff (w : Word64) : Int :=
  if fMaj w = 0x12 ∨ fMaj w = 0x13 then signedOf 9 (fieldOf w 8 0) else signedOf 12 (fieldOf w 11 0)
/-- The scope field of ATOM and LLSC (R129). -/
def fScope (w : Word64) : Nat := fieldOf w 11 9
/-- The order field (R129). -/
def fOrder (w : Word64) : Nat := getBits (fMod w) 4 2

/-! The registers that an instruction names. -/

/-- What a register field names (R108): registers of either kind, how many, and whether read; or a predicate. -/
inductive OKind where
  | reg (u : Bool) (n : Nat) (src : Bool)
  | pred
  | predOpt
  deriving DecidableEq, Repr

structure Opnd where
  kind : OKind
  idx  : Nat
  deriving DecidableEq, Repr

def oA (w : Word64) (n : Nat) : Opnd := ⟨.reg (fAU w) n true, fA w⟩
def oB (w : Word64) (n : Nat) : Opnd := ⟨.reg (fBU w) n true, fB w⟩
def oC (w : Word64) (n : Nat) : Opnd := ⟨.reg (fCU w) n true, fC w⟩
def oD (w : Word64) (n : Nat) : Opnd := ⟨.reg (fDU w) n false, fD w⟩

/-- The B operand where the format holds one. -/
def oBreg (w : Word64) (n : Nat) : List Opnd := if bodyOf w = .i then [] else [oB w n]

/-- Whether the address of the instruction's space is a pair (R124). -/
def pairBase (w : Word64) : Bool :=
  match rowOf w with
  | .ldGlobal | .stGlobal | .zlGlobal | .ldRemote | .stRemote | .stRemoteFinal | .rmwGlobal | .rmwPost => true
  | .ll | .sc => decide (fSub w ≥ 2)
  | _ => false

/-- Registers and predicates named by a word (R107 to R109, R113 to R135). -/
def opnds (w : Word64) : List Opnd :=
  let sub := fSub w
  let base := oA w (if pairBase w then 2 else 1)
  match rowOf w with
  | .ctlJmp => [⟨.reg true 2 true, fA w⟩]
  | .ctlRsr => [oD w (if fA w = 0x10 then 2 else 1)]
  | .brLink => [⟨.reg true 2 false, 62⟩]
  | .i32Op =>
    if sub ∈ [2, 3, 13, 17, 18, 19, 24] then [oD w 1, oA w 1]
    else if sub ∈ [8, 9, 20, 21] then [oD w 1, oA w 1, oB w 1, oC w 1]
    else if sub = 23 then [oD w 1, oA w 1, oB w 1, ⟨.pred, fC w⟩]
    else [oD w 1, oA w 1] ++ oBreg w 1
  | .i64Op =>
    if sub ∈ [14, 15, 16] then [oD w 2, oA w 2, oB w 1]
    else if sub = 25 then [oD w 2, oA w 1, oB w 1]
    else [oD w 2, oA w 2, oB w 2]
  | .intCmp =>
    let n := if fMaj w = 0x06 then 2 else 1
    [⟨.pred, fD w⟩, oA w n] ++ oBreg w n
  | .immV => [⟨.reg false 1 false, fD w⟩]
  | .immU => [⟨.reg true 1 false, fD w⟩]
  | .f32Op | .h2Op | .f64Op =>
    let n := if fMaj w = 0x09 then 2 else 1
    if sub = 3 then [oD w n, oA w n, oB w n, oC w n]
    else if sub ≥ 6 then [oD w n, oA w n]
    else [oD w n, oA w n, oB w n]
  | .fpCmp =>
    let n := if fMaj w = 0x09 then 2 else 1
    [⟨.pred, fD w⟩, oA w n, oB w n]
  | .cnv =>
    let n (t : Nat) : Nat := if ((cvType t).map CvT.pair).getD false then 2 else 1
    [oD w (n (fB w / 16)), oA w (n (fB w % 16))]
  | .sfOp => [oD w 1, oA w 1]
  | .prOp =>
    if sub ≤ 2 then [⟨.pred, fD w⟩, ⟨.pred, fA w⟩, ⟨.pred, fB w⟩]
    else if sub = 3 then [⟨.pred, fD w⟩, ⟨.pred, fA w⟩]
    else if sub = 4 then [⟨.pred, fD w⟩, oA w 1]
    else [oD w 1, ⟨.pred, fA w⟩]
  | .grpShfl => [oD w 1, oA w 1, oB w 1, ⟨.predOpt, fC w⟩]
  | .grpVote => [if fDU w then oD w 1 else ⟨.pred, fD w⟩, ⟨.pred, fA w⟩]
  | .ldLocal | .ldGlobal | .ldCluster | .ldRemote => [oD w (regsFor (widthOf w)), base]
  | .stLocal | .stGlobal | .stCluster | .stRemote | .stRemoteFinal => [base, oB w (regsFor (widthOf w))]
  | .zlGlobal => [base]
  | .rmwLocal | .rmwGlobal | .rmwPost | .rmwCluster =>
    let n := atomWidth w / 4
    (if getBits sub 2 1 = 1 then [oD w n] else []) ++ [base, oB w (if fMod w % 16 = 9 then 2 * n else n)]
  | .ll => [oD w (regsFor (widthOf w)), base]
  | .sc => [⟨.pred, fD w⟩, base, oB w (regsFor (widthOf w))]
  | .evRec => [⟨.reg true 2 true, fA w⟩, ⟨.reg true 2 true, fB w⟩]
  | .semRel => [⟨.reg true 1 true, fA w⟩, ⟨.reg true 1 true, fB w⟩]
  | .mxHdl => if fD w = 255 then [] else [⟨.reg true 2 true, fD w⟩]
  | .mxFill => [⟨.reg true (if getBits (fieldOf w 23 0) 0 1 = 1 then 1 else 2) true, fD w⟩, ⟨.reg true 2 true, fA w⟩]
  | .mxLdb | .mxAddraw => if fA w = 255 then [] else [⟨.reg true 1 true, fA w⟩]
  | .mxMma => (if fD w = 255 then [] else [⟨.reg true 1 true, fD w⟩]) ++ (if fA w = 255 then [] else [⟨.reg true 1 true, fA w⟩])
  | .mxClr => if fD w = 255 then [] else [⟨.reg true 1 true, fD w⟩]
  | .mxDrain => [⟨.reg true (if getBits (fieldOf w 23 0) 4 2 = 0 then 2 else 1) true, fD w⟩] ++ (if fA w = 255 then [] else [⟨.reg true 1 true, fA w⟩])
  | .mxStat => [⟨.reg true 1 false, fD w⟩]
  | .mxNest => [⟨.reg true 1 true, fD w⟩]
  | _ => []

/-- The causes that a register field raises (R81, R108, R109). -/
def Opnd.errs (nregs : Nat) (o : Opnd) : List Nat :=
  match o.kind with
  | .pred => if o.idx ≤ 7 then [] else [exReserved]
  | .predOpt => if o.idx ≤ 7 ∨ o.idx = 255 then [] else [exReserved]
  | .reg true n _ =>
    if o.idx ≤ 63 then (if o.idx % n = 0 then [] else [exAlign])
    else if o.idx = 255 then (if n = 1 then [] else [exAlign])
    else [exReserved]
  | .reg false n _ =>
    if n = 1 ∧ o.idx = 255 then []
    else (if o.idx % n = 0 then [] else [exAlign]) ++ (if o.idx + n ≤ min nregs 255 then [] else [exRange])

/-- A uniform instruction: D_U is set, or imm.u, ev.rec or sem.rel (R110, R135). -/
def isUniform (w : Word64) : Bool :=
  match rowOf w with
  | .immU | .evRec | .semRel => true
  | _ => bodyOf w != .mx && fDU w

/-- The rounding field is allowed, and which MOD bits an arithmetic instruction may set (R114 to R121, R123, R128, R129, R132, R133). -/
def modAllowed (w : Word64) : Nat :=
  let sub := fSub w
  match rowOf w with
  | .ctlRsr => 1
  | .fence => 7
  | .i32Op => 3
  | .i64Op => if sub ≤ 1 then 3 else 1
  | .intCmp => if fMaj w = 0x06 then 0xF9 else 0xFB
  | .f32Op | .f64Op => if sub ≤ 3 then 3 else 0
  | .h2Op => if sub ≤ 3 then 7 else 4
  | .fpCmp => 0xF8
  | .cnv => 7
  | .prOp => if sub ≤ 2 then 3 else 0
  | .grpShfl => 0x1F
  | .grpVote => 7
  | .ldLocal | .ldCluster => 0x0F
  | .ldGlobal | .ldRemote => 0x7F
  | .stLocal | .stCluster => 0x07
  | .stGlobal | .stRemote | .stRemoteFinal | .zlGlobal => 0x37
  | .rmwLocal | .rmwGlobal | .rmwPost | .rmwCluster => 0x3F
  | .ll | .sc => 0x37
  | _ => 0

/-- Some reserved bit or value of the body is set (R107, R113 to R135). -/
def bodyReserved (w : Word64) : Bool :=
  let sub := fSub w
  let mod := fMod w
  let dirty := match bodyOf w with
    | .r => fieldOf w 3 0 != 0
    | .i => fieldOf w 21 20 != 0
    | .m => flagOf w 13
    | _ => false
  let modBad := match bodyOf w with
    | .b | .mx => false
    | _ => (upTo 8).any fun i => getBits mod i 1 == 1 && getBits (modAllowed w) i 1 == 0
  let scopeBad (localOnly : Bool) : Bool := decide (fScope w > 4) || (localOnly && decide (fScope w > 1))
  dirty || modBad ||
  match rowOf w with
  | .ctlJmp => fG w || !fAU w
  | .fence => decide (mod % 8 > 4)
  | .ctlRsr => !([0, 1, 3, 4, 5, 6, 7, 8, 9, 0xA, 0xB, 0xC, 0xD, 0xE, 0x10, 0x12, 0x13, 0x15, 0x16].contains (fA w))
  | .br => !fG w && fieldOf w 23 0 != 0
  | .brLink => fG w || fieldOf w 23 0 != 0
  | .intCmp => decide (mod / 8 > 9)
  | .fpCmp => decide (mod / 8 > 7)
  | .cnv =>
    (cvType (fB w / 16)).isNone || (cvType (fB w % 16)).isNone ||
    ((fB w / 16 == 8 || fB w / 16 == 9) && mod % 4 != 0)
  | .grpShfl => getBits mod 2 3 == 0 || decide (getBits mod 2 3 > 5)
  | .grpVote => mod % 4 == 3 && !fDU w
  | .ldLocal | .ldCluster => decide (mod % 8 > 4) || (getBits mod 3 1 == 1 && decide (mod % 8 > 1)) || (fDU w && !fAU w)
  | .ldGlobal | .ldRemote =>
    decide (mod % 8 > 4) || (getBits mod 3 1 == 1 && decide (mod % 8 > 1)) || getBits mod 4 2 == 3 || (fDU w && !fAU w)
  | .stLocal | .stCluster => decide (mod % 8 > 4)
  | .stGlobal | .stRemote | .stRemoteFinal | .zlGlobal => decide (mod % 8 > 4) || getBits mod 4 2 == 3
  | .rmwLocal | .rmwCluster | .rmwGlobal | .rmwPost =>
    let op := mod % 16
    let ret := getBits sub 2 1 == 1
    let localish := sub % 4 == 0 || sub % 4 == 2
    decide (op > 10) || (op == 9 && !ret) || (op == 10 && (getBits sub 3 1 == 1 || sub % 4 == 2)) ||
    scopeBad localish || (!ret && (fD w != 255 || fOrder w == 1 || fOrder w == 3))
  | .ll | .sc => (mod % 8 != 2 && mod % 8 != 3) || scopeBad (decide (sub ≤ 1))
  | .evRec | .semRel => !fAU w || !fBU w
  | .mxHdl | .mxFill | .mxLdb | .mxMma | .mxClr | .mxAddraw | .mxDrain | .mxStat | .mxNest =>
    let ha := fieldOf w 47 45
    let acc := fieldOf w 41 40
    let ua := fD w
    let ub := fA w
    let imm := fieldOf w 23 0
    fieldOf w 44 42 != 0 ||
    match rowOf w with
    | .mxHdl => acc != 0 || ub != 255 || imm != 0
    | .mxFill => acc != 0 || ua == 255 || ub == 255 || decide (imm > 2)
    | .mxLdb => acc != 0 || ua != 255 || decide (imm > 0xFFF)
    | .mxMma => decide (imm ≥ 2 ^ 22)
    | .mxClr => ha != 0 || ub != 255 || decide (imm ≥ 2 ^ 11) || (ua != 255 && imm != 0)
    | .mxAddraw => ua != 255 || decide (imm > 0xFFF)
    | .mxDrain =>
      let dst := getBits imm 4 2
      let dfmt := imm % 8
      (dst != 2 && ha != 0) || ua == 255 || decide (imm ≥ 2 ^ 7) || dst == 3 || dfmt == 7 || (dfmt == 6 && ub != 255)
    | .mxStat => ha != 0 || ua == 255 || ub != 255 || imm != 0
    | _ => ha != 0 || acc != 0 || ua == 255 || ub != 255 || imm != 0
  | _ => false

/-- The causes that the word alone decides, with the register count of the kernel (R105 to R135, R154). -/
def staticErrs (nregs : Nat) (w : Word64) : List Nat :=
  if rowOf w = .illegal then [exIllegal]
  else
    let ops := opnds w
    (if fG w = false ∧ (fGN w = true ∨ fGP w ≠ 0) then [exReserved] else []) ++
    (if bodyOf w = .mx ∧ fG w = true then [exReserved] else []) ++
    (if bodyReserved w then [exReserved] else []) ++
    (if isUniform w && (fG w || ops.any fun o => match o.kind with
        | .reg false _ true => true
        | _ => false) then [exReserved] else []) ++
    ops.flatMap (Opnd.errs nregs)

/-! Registers (R71, R80 to R83). -/

/-- The lanes of a mask, ascending. -/
def lanesOf (m : BitVec 32) : List Nat := (upTo 32).filter m.getLsbD

/-- v255 reads 0 (R80). -/
def Group.vr (g : Group) (lane i : Nat) : Word := if i = 255 then 0 else tget 0 g.vregs (32 * i + lane)
def Group.ur (g : Group) (i : Nat) : Word := if i = 255 then 0 else tget 0 g.uregs i
def Group.pr (g : Group) (lane i : Nat) : Bool := (tget 0 g.preds i).getLsbD lane
/-- A write to v255 is discarded (R80). -/
def Group.setV (g : Group) (lane i : Nat) (v : Word) : Group :=
  if i = 255 then g else { g with vregs := tput 0 g.vregs (32 * i + lane) v }
def Group.setU (g : Group) (i : Nat) (v : Word) : Group :=
  if i = 255 then g else { g with uregs := tput 0 g.uregs i v }
/-- A predicate field of 255 names none. -/
def Group.setP (g : Group) (lane i : Nat) (b : Bool) : Group :=
  if i = 255 then g
  else
    let m := tget 0 g.preds i
    let bit : Word := 1#32 <<< lane
    { g with preds := tput 0 g.preds i (if b then m ||| bit else m &&& ~~~bit) }

/-- Read `n` registers as one little-endian value (R109). -/
def Group.rd (g : Group) (lane : Nat) (u : Bool) (i : Nat) : Nat → Nat
  | 0 => 0
  | n + 1 => (if u then g.ur i else g.vr lane i).toNat + 2 ^ 32 * g.rd lane u (i + 1) n
/-- Write `n` registers. -/
def Group.wr (g : Group) (lane : Nat) (u : Bool) (i : Nat) : Nat → Nat → Group
  | 0, _ => g
  | n + 1, v =>
    let x := BitVec.ofNat 32 v
    (if u then g.setU i x else g.setV lane i x).wr lane u (i + 1) n (v / 2 ^ 32)

def Group.rdA (g : Group) (w : Word64) (lane n : Nat) : Nat := g.rd lane (fAU w) (fA w) n
/-- Operand B, or the immediate that takes its place (R107). -/
def Group.rdB (g : Group) (w : Word64) (lane n : Nat) : Nat :=
  if bodyOf w = .i then fImm20 w else g.rd lane (fBU w) (fB w) n
def Group.rdC (g : Group) (w : Word64) (lane n : Nat) : Nat := g.rd lane (fCU w) (fC w) n
def Group.wrD (g : Group) (w : Word64) (lane n v : Nat) : Group := g.wr lane (fDU w) (fD w) n v

/-- Lanes whose guard is true (R106). -/
def Group.guard (g : Group) (w : Word64) : BitVec 32 :=
  if fG w then (let m := tget 0 g.preds (fGP w); if fGN w then ~~~m else m) else BitVec.allOnes 32

/-- The lanes in which an instruction takes effect; a uniform one executes once, for the lowest active lane (R110). -/
def Group.lanes (g : Group) (w : Word64) : List Nat :=
  if isUniform w then (lanesOf g.active).take 1 else lanesOf (g.active &&& g.guard w)

/-- The lowest active lane. -/
def Group.low (g : Group) : Nat := (lanesOf g.active).headD 0

/-! Reconvergence (R73, R75). -/

/-- Pop frames whose reconvergence address the running path has reached, or whose path has no lane left. -/
def Group.settle : Nat → Group → Group
  | 0, g => g
  | n + 1, g =>
    match g.stack with
    | [] => g
    | .entry rc tk m :: rest =>
      if g.pc = rc ∨ g.active = 0 then
        Group.settle n { g with stack := .join rc g.active :: rest, pc := tk, active := m }
      else g
    | .join rc m :: rest =>
      if g.pc = rc ∨ g.active = 0 then
        Group.settle n { g with stack := rest, pc := rc, active := g.active ||| m }
      else g

/-- Continue at an address. -/
def Group.goto (g : Group) (pc : Nat) : Group := Group.settle (2 * g.stack.length + 2) { g with pc := pc }
/-- Continue at the next instruction. -/
def Group.next (g : Group) : Group := g.goto (g.pc + 8)
/-- Entries of the reconvergence stack (R74). -/
def Group.depth (g : Group) : Nat := (g.stack.filter fun f => match f with
  | .entry .. => true
  | .join .. => false).length

/-! Issue (R76, R77). -/

/-- What an issuing group belongs to. -/
structure Ctx where
  lid  : Nat
  la   : Launch
  gr   : Group
  blk  : Block
  deriving DecidableEq, Repr

/-- A group may issue, but for its turn: it is in the active set and waits for nothing, its launch runs, has recorded no failure (R137) and is not stopped as hung (R510). -/
def State.issueCtx (s : State) (g : GRef) : Option Ctx :=
  match s.group? g with
  | none => none
  | some gr =>
    match s.launch? gr.launch, tfind (s.core g.core).blocks gr.block with
    | some la, some blk =>
      if la.phase = .running ∧ la.fail = none ∧ la.hung = 0 ∧ la.run = gr.run ∧ gr.stopped = false ∧ gr.wait = .none ∧
          ((s.core g.core).sched g.sched).active.contains g.slot = true ∧ s.coreOk g.core = true ∧ gr.active ≠ 0 then
        some { lid := gr.launch, la := la, gr := gr, blk := blk }
      else none
    | _, _ => none

/-- What a fetch gives. -/
inductive Fetched where
  | word (w : Word64)
  | fault (e : Exc)
  deriving DecidableEq, Repr

/-- The place `n` bytes below one of the same line. -/
def Target.back (t : Target) (n : Nat) : Target :=
  match t with
  | .hbm a => .hbm (a - n)
  | .host fn d a => .host fn d (a - n)
  | .remote a => .remote (a - n)

/-- Put a line into a core's instruction cache of 32 sets and 8 ways (R87), for preload number `pre` or for a fetch. The spec does not say in which set a line lies: that it is its virtual line number modulo 32 is the model's (DESIGN CHOICE, log entry 105); which line of a full set leaves is a free choice. -/
def State.icacheFill (s : State) (p line : Nat) (bs : List Byte) (pre : Option Nat) : State :=
  let c := s.core p
  let mark (t : Tbl (List Nat)) : Tbl (List Nat) := match pre with
    | some k => tset t line (sins (tget [] t line) k)
    | none => tdel t line
  let inSet := (tkeys c.icache).filter fun l => l % 32 == line % 32
  if inSet.contains line = true ∨ inSet.length < 8 then s.setCore p { c with icache := tset c.icache line bs, preLines := mark c.preLines }
  else
    let r := s.freeNat
    let v := inSet.getD (r.1 % inSet.length) 0
    r.2.setCore p { c with icache := tset (tdel c.icache v) line bs, preLines := mark (tdel c.preLines v) }

/-- Fetch the group's next word through the instruction cache (R87, R105). -/
def State.fetch (s : State) (g : GRef) (c : Ctx) : Fetched × State :=
  let pc := c.gr.pc
  match tfind (s.core g.core).icache (pc / 128) with
  | some bs => (.word (BitVec.ofNat 64 (numAt bs (pc % 128) 8)), s)
  | none =>
    match s.transl c.la.part pc .fetch (.core g.core) with
    | (.error f, t) => (.fault (f.exc c.gr.low pc), t)
    | (.ok tr, t) =>
      let start := tr.tgt.back (pc % 128)
      if !t.dieSees (dieOfPhys g.core) start then (.fault (TFail.cut.exc c.gr.low pc), t)
      else if t.poisonedAt start 128 then (.fault { cause := exUncorrectable, lane := c.gr.low, addr := pc }, t)
      else
        let r := t.readAt start 128
        let u := match start with
          | .hbm a => r.2.l2Touch c.la.part a 128 false 3
          | _ => r.2
        (.word (BitVec.ofNat 64 (numAt r.1 (pc % 128) 8)), u.icacheFill g.core (pc / 128) r.1 none)

/-- Move a group to the pending set with what it waits for (R77, R78). -/
def State.park (s : State) (g : GRef) (w : Wait) (need : Need) : State :=
  let t := match s.group? g with
    | some x =>
      let part := match s.launch? x.launch with
        | some l => l.part
        | none => 0
      let u := s.pmEvent g.core evPending part 1
      if w = Wait.residency then u.pmEvent g.core evResidency part 1 else u
    | none => s
  (t.modGroup g fun x => { x with wait := w, need := need }).modCore g.core fun c =>
    let sc := c.sched g.sched
    c.setSched g.sched { sc with active := sc.active.filter (· != g.slot), ready := sc.ready.filter (· != g.slot) }

/-- A pending group becomes ready (R78). -/
def State.wake (s : State) (g : GRef) : State :=
  (s.modGroup g fun x => { x with wait := .none, need := .none, fenced := false }).modCore g.core fun c =>
    let sc := c.sched g.sched
    if sc.ready.contains g.slot || sc.active.contains g.slot then c
    else c.setSched g.sched { sc with ready := sc.ready ++ [g.slot] }

def spansHit (xs ys : List (Nat × Nat)) : Bool := xs.any fun x => ys.any fun y => overlaps x.1 x.2 y.1 y.2

/-- An access overlaps a held entry of the tracker, and one of the two is a write (R235). -/
def Core.trackHit (c : Core) (isWrite : Bool) (spans : List (Nat × Nat)) : Bool :=
  c.art.any fun e => !e.2.done && (isWrite || e.2.isWrite) && spansHit spans e.2.spans
def Core.trackFull (c : Core) : Bool := decide (64 ≤ (c.art.filter fun e => !e.2.done).length)

/-- A read of these bytes that left its group before entry `id` was taken has not been performed: accesses of one core to the same bytes are performed in the order in which they leave their groups (R236). An atomic or ll whose value is still to return has been. -/
def Core.olderRead (c : Core) (id : Nat) (spans : List (Nat × Nat)) : Bool :=
  c.art.any fun e => decide (e.1 < id) && !e.2.done && !e.2.isWrite && spansHit spans e.2.spans &&
    !(c.loads.any fun l => l.2.track == some e.1 && l.2.bound.isSome)

/-! Handles in use (R168, R169). -/

def MxOp.reads : MxOp → List Nat
  | .ldb h _ | .mma h _ _ _ _ _ | .addraw h _ _ => [h]
  | .nest tab _ => [tab.hdr.ha, tab.hdr.hb]
  | _ => []
def MxOp.writes : MxOp → List Nat
  | .drain _ _ _ dst h _ _ _ _ => if dst = 2 then [h] else []
  | .nest tab _ => if tab.hdr.drain ∧ tab.hdr.dst = 2 then [tab.hdr.hc] else []
  | _ => []

/-- The operations accepted and not finished: queued, and the running nest. -/
def Mx.open_ (x : Mx) : List MxOp := (x.queue.map (·.op)) ++ (match x.nest with
  | some n => [.nest n.tab n.track]
  | none => [])

/-- A handle is resident: no unfinished fill or entry writes it. -/
def Mx.resident (x : Mx) (h : Nat) : Bool :=
  !(x.fills.any fun e => e.2.h == h) && !(x.open_.any fun o => o.writes.contains h)
/-- A handle is in no unfinished use. -/
def Mx.unused (x : Mx) (h : Nat) : Bool := x.resident h && !(x.open_.any fun o => o.reads.contains h)
/-- Some handles are resident and others in no use. -/
def Mx.ready (x : Mx) (reads uses : List Nat) : Bool := reads.all x.resident && uses.all x.unused

/-- Whether an outstanding load writes a register that the word names. -/
def loadBlocks (uid : Nat) (w : Word64) (l : Load) : Bool :=
  l.guid == uid &&
  (opnds w).any fun o => match o.kind with
    | .reg u n _ => u == l.dest.unif && overlaps o.idx n l.dest.reg (regsFor l.dest.width)
    | _ => false

/-- The same of an outstanding cluster-window request (R102). -/
def creqBlocks (uid : Nat) (w : Word64) (r : CReq) : Bool :=
  (r.kind == 0 || r.kind == 2) && r.guid == uid &&
  (opnds w).any fun o => match o.kind with
    | .reg u n _ => u == r.dest.unif && overlaps o.idx n r.dest.reg (regsFor r.dest.width)
    | _ => false

/-- The wait of a group whose next instruction needs an outstanding result (R77). -/
def State.operandWait (s : State) (g : GRef) (uid : Nat) (w : Word64) : Wait :=
  if (s.core g.core).loads.any fun e => loadBlocks uid w e.2 && e.2.remote then .remote
  else if (s.core g.core).loads.any fun e => loadBlocks uid w e.2 then .load
  else if (s.core g.core).creqs.any fun e => creqBlocks uid w e.2 then .cluster
  else .none

/-- A queued mx.stat will write a uniform register that the word names: the group waits in the active set (R160). -/
def statBlocks (uid : Nat) (w : Word64) (e : MxEntry) : Bool :=
  e.guid == uid && match e.op with
  | .stat _ r => (opnds w).any fun o => match o.kind with
    | .reg u n _ => u && overlaps o.idx n r 1
    | _ => false
  | _ => false

/-- What issuing does besides the instruction: the scheduler's turn, the launch's progress (R509) and the count of R506. -/
def State.issued (s : State) (g : GRef) (c : Ctx) : State :=
  ((s.modCore g.core fun x => x.setSched g.sched { x.sched g.sched with last := g.slot }).modLaunch c.lid
    fun l => { l with progGt := s.now }).pmEvent g.core evIssued c.la.part 1

/-- A group issues a word: fetch it, make the checks that the word decides, wait for operands, and then do what the row does. Where the group may not issue, or its next word is another, nothing changes (log entry 1). -/
def State.issue (s : State) (g : GRef) (w : Word64) (body : Ctx → State → State) : State :=
  match s.issueCtx g with
  | none => s
  | some c =>
    match s.fetch g c with
    | (.fault e, t) => if e.cause = exCut then s else t.raise g c.lid c.la.part c.gr.pc 0 e
    | (.word v, t) =>
      if v = w ∧ ((s.core g.core).mx.queue.any (statBlocks c.gr.uid w)) = false then
        match pickExc ((staticErrs c.gr.nregs w).map fun k => { cause := k, lane := c.gr.low }) with
        | some e => t.raise g c.lid c.la.part c.gr.pc w e
        | none =>
          if s.operandWait g c.gr.uid w = .none then body c t
          else t.park g (s.operandWait g c.gr.uid w) (.operands w)
      else s

/-- The instruction raises what is recorded of `xs`, or does the rest; one that a cut ring holds up waits, and nothing of it is done (log entry 77). -/
def State.orRaise (s : State) (g : GRef) (c : Ctx) (w : Word64) (xs : List Exc) (k : State → State) : State :=
  if xs.any fun x => x.cause == exCut then s
  else match pickExc xs with
    | some e => s.raise g c.lid c.la.part c.gr.pc w e
    | none => k s

/-- The issuing group's records after the instruction: the given registers, and the next instruction. -/
def State.retire (s : State) (g : GRef) (gr : Group) : State := s.setGroup g gr.next

/-- An instruction that only changes the registers of its group. -/
def State.issueAlu (s : State) (g : GRef) (w : Word64) (f : State → Ctx → Group) : State :=
  s.issue g w fun c t => (t.issued g c).retire g (f t c)

/-- Apply a function in each lane, every lane reading the registers as they were. -/
def Group.each (g : Group) (lanes : List Nat) (f : Group → Nat → Group → Group) : Group :=
  lanes.foldl (fun acc l => f g l acc) g

/-- The effective address of a lane (R124). -/
def Group.ea (g : Group) (w : Word64) (lane : Nat) : Nat :=
  let n := if fMaj w = 0x12 then atomWidth w else widthOf w
  let base : Int := (g.rdA w lane (if pairBase w then 2 else 1) : Nat)
  intBits (if pairBase w then 64 else 32) (base + fOff w * (n : Int))

end Sys2Proof.Machine
end

