-- ==== Sys2Proof/Machine/Entries.lean ====
section
/-! DEFINITION. Fields of launch entries and extensions (R297 to R300), the grid of a launch, and the counts of a kernel's blocks (R81, R88, R89). -/

namespace Sys2Proof.Machine

/-! The entry (R297 to R299). -/

def eType (e : List Byte) : Nat := getBits (numAt e 0 1) 0 3
def eFlag (e : List Byte) (i : Nat) : Bool := getBits (numAt e 1 1) i 1 == 1
def eConc (e : List Byte) : Bool := eFlag e 0
def eNodep (e : List Byte) : Bool := eFlag e 1
def eIrq (e : List Byte) : Bool := eFlag e 2
def eNonpre (e : List Byte) : Bool := eFlag e 3
def eTrapx (e : List Byte) : Bool := eFlag e 4
def ePaired (e : List Byte) : Bool := eFlag e 5
def eChfed (e : List Byte) : Bool := eFlag e 6
def eInd (e : List Byte) (i : Nat) : Bool := getBits (numAt e 2 1) i 1 == 1
def eStage (e : List Byte) : Nat := getBits (numAt e 3 1) 0 4
def eSplit (e : List Byte) : Nat := getBits (numAt e 3 1) 4 3
def eTag (e : List Byte) : Nat := numAt e 4 4
def eCode (e : List Byte) : Nat := numAt e 8 8
def eParam (e : List Byte) : Nat := numAt e 0x10 8
def eGrid (e : List Byte) (i : Nat) : Nat := numAt e (0x18 + 4 * i) 4
def eVregs (e : List Byte) : Nat := numAt e 0x24 1
/-- Cluster size. -/
def eCluster (e : List Byte) : Nat := getBits (numAt e 0x25 1) 0 4 + 1
/-- Threads per block. -/
def eThreads (e : List Byte) : Nat := getBits (numAt e 0x26 2) 0 11
def eLskib (e : List Byte) : Nat := getBits (numAt e 0x28 2) 0 9
def eTiles (e : List Byte) : Nat := numAt e 0x2C 4
def eExt (e : List Byte) : Nat := numAt e 0x30 8
def eBucket (e : List Byte) : Nat := numAt e 0x38 8
/-- DESC of a copy; ADDR of an event record or wait. -/
def eAddr (e : List Byte) : Nat := numAt e 8 8
def eValue (e : List Byte) : Nat := numAt e 0x10 8
def eWaitLimit (e : List Byte) : Nat := numAt e 0x18 8
def eSem (e : List Byte) : Nat := getBits (numAt e 8 2) 0 12
def eSemOp (e : List Byte) : Nat := getBits (numAt e 0xA 1) 0 2
def eSemCount (e : List Byte) : Nat := numAt e 0xC 4
def eSemLimit (e : List Byte) : Nat := numAt e 0x10 8
def eRoute (e : List Byte) : Nat := numAt e 8 1

def tyKernel : Nat := 0
def tyCopy : Nat := 1
def tyRecord : Nat := 2
def tyWait : Nat := 3
def tySem : Nat := 4
def tyCall : Nat := 5

/-! The extension (R300). -/

def xWinBase (x : List Byte) (i : Nat) : Nat := numAt x (16 * i) 8
def xWinLen (x : List Byte) (i : Nat) : Nat := getBits (numAt x (16 * i + 8) 8) 0 40
def xWinRemote (x : List Byte) (i : Nat) : Bool := getBits (numAt x (16 * i + 8) 8) 63 1 == 1
def xSema (x : List Byte) (i : Nat) : Nat := getBits (numAt x (0x90 + 8 * i) 8) 0 12
def xSemaCount (x : List Byte) (i : Nat) : Nat := getBits (numAt x (0x90 + 8 * i) 8) 32 32
def xTlimit (x : List Byte) : Nat := numAt x 0xA0 8
def xSlimit (x : List Byte) : Nat := numAt x 0xA8 8

/-! The launch. -/

def Launch.nonpre (l : Launch) : Bool := eNonpre l.entry
def Launch.isKernel (l : Launch) : Bool := eType l.entry == tyKernel
def Launch.isCopy (l : Launch) : Bool := eType l.entry == tyCopy
/-- A kernel or a copy. -/
def Launch.isWork (l : Launch) : Bool := decide (eType l.entry ≤ 1)
def Launch.stage (l : Launch) : Nat := eStage l.entry
/-- Blocks of the grid; a channel-fed launch has one for each item. -/
def Launch.blocks (l : Launch) : Nat := if eChfed l.entry then l.gx else l.gx * l.gy * l.gz
/-- Coordinates of a block, x fastest (R223). A channel-fed launch has one dimension. -/
def Launch.coord (l : Launch) (num i : Nat) : Nat :=
  if eChfed l.entry then (if i = 0 then num else 0)
  else match i with
    | 0 => num % l.gx
    | 1 => num / l.gx % l.gy
    | _ => num / l.gx / l.gy
/-- Grid dimensions as NBLOCK reads them (R114). -/
def Launch.dim (l : Launch) (i : Nat) : Nat :=
  match i with
  | 0 => l.gx
  | 1 => if eChfed l.entry then 1 else l.gy
  | _ => l.gz

/-- Registers allocated to each thread (R81). -/
def allocOf (r : Nat) : Nat := (r + 7) / 8 * 8
/-- Groups of a block (R69). -/
def groupsFor (threads : Nat) : Nat := (threads + 31) / 32
/-- Blocks of a launch per core (R88). -/
def occupancy (threads r lsk splitCode : Nat) : Nat :=
  let g := groupsFor threads
  let breg := 4 * min 16 (512 / allocOf r) / g
  let bgrp := 64 / g
  let b := min (min breg bgrp) 32
  if lsk = 0 then b else min b (64 * splitCode / lsk)

/-- Free entries of the launch's commit queue (R346, R353). -/
def Launch.room (l : Launch) : Nat := if l.nonpre then 0xFFFFFFFF else 4096 - l.cq.length

/-- Every block of the launch has ended, thieves included; both runs of a paired one (R225, R427). -/
def Launch.allEnded (l : Launch) : Bool :=
  let n := l.blocks
  l.thieves == 0 &&
  (if l.pair.isSome then l.nextBlk == n && l.nextBlkB == n && l.ended == 2 * n else l.nextBlk == n && l.ended == n)

/-- Its work is over: blocks ended, or copy requests completed; and the producers of its items have committed (R211, R347). -/
def Launch.workDone (l : Launch) : Bool :=
  (match l.copy with
   | some c => c.sent && c.out == []
   | none => l.isKernel && l.allEnded) && l.producers == []

/-- Note the moment at which a launch becomes ready for a commit context (R347). -/
def Launch.noteReady (l : Launch) (now : Nat) : Launch :=
  if l.ready = 0 ∧ l.phase = .running ∧ l.workDone = true then { l with ready := now + 1 } else l

/-- The queue that a launch belongs to. -/
def Launch.qk (l : Launch) : Nat := qkey l.part l.queue

/-- Dies on which a front end, a commit engine and the lead live (R36). -/
def State.leadDie (s : State) (p : Nat) : Nat := (s.ent p).lead

end Sys2Proof.Machine
end

