-- ==== Sys2Proof/Machine/Alu.lean ====
section
/-! DEFINITION. Arithmetic, predicate and group instructions (R93, R94, R116 to R122, R133). -/

namespace Sys2Proof.Machine

/-! Values. -/

/-- MOD[0] U and MOD[1] SAT of integer instructions (R116). -/
def fU (w : Word64) : Bool := getBits (fMod w) 0 1 == 1
def fSat (w : Word64) : Bool := getBits (fMod w) 1 1 == 1

/-- Wrap to `n` bits, or clamp to the range that U names. -/
def wrapOrSat (n : Nat) (u sat : Bool) (v : Int) : Nat :=
  intBits n (if sat then clampInt (intLo (!u) n) (intHi (!u) n) v else v)

/-- Shifts by the low 8 bits of B: 14 left, 15 right, 16 arithmetic right. -/
def shiftOp (n sub a b : Nat) : Nat :=
  let k := b % 256
  match sub with
  | 14 => if k < n then a * 2 ^ k % 2 ^ n else 0
  | 15 => if k < n then a / 2 ^ k else 0
  | _ => intBits n (signedOf n a / ((2 ^ (min k (n - 1)) : Nat) : Int))

/-- Number of set bits, of leading zeros, and the reversal, of 32 bits. -/
def onesOf (a : Nat) : Nat := (bitsSet a 32).length
def lzcOf (a : Nat) : Nat := if a = 0 then 32 else 31 - Nat.log2 a
def revOf (a : Nat) : Nat := (bitsSet a 32).foldl (fun acc i => acc + 2 ^ (31 - i)) 0

/-- i32.xtr: the field at B[4:0] of length C[5:0], cut at bit 31. -/
def xtrOf (u : Bool) (a b c : Nat) : Nat :=
  let pos := b % 32
  let len := min (c % 64) (32 - pos)
  if len = 0 then 0 else if u then getBits a pos len else intBits 32 (signedOf len (getBits a pos len))

/-- i32.ins: the low C[13:8] bits of A into B at C[4:0], cut at bit 31. -/
def insOf (a b c : Nat) : Nat :=
  let pos := c % 32
  putBits b pos (min (getBits c 8 6) (32 - pos)) a

/-- An integer instruction on 32 bits, but cmp and pick (R116). -/
def i32Value (sub : Nat) (u sat : Bool) (a b c : Nat) : Nat :=
  let x := intOf (!u) 32 a
  let y := intOf (!u) 32 b
  match sub with
  | 0 => wrapOrSat 32 u sat (x + y)
  | 1 => wrapOrSat 32 u sat (x - y)
  | 2 => wrapOrSat 32 false sat (-(signedOf 32 a))
  | 3 => wrapOrSat 32 false sat (signedOf 32 a).natAbs
  | 4 => if x ≤ y then a else b
  | 5 => if x ≤ y then b else a
  | 6 => intBits 32 (x * y)
  | 7 => intBits 64 (x * y) / 2 ^ 32
  | 8 => intBits 32 (x * y + c)
  | 9 => (intBits 64 (x * y) / 2 ^ 32 + c) % 2 ^ 32
  | 10 => Nat.land a b
  | 11 => Nat.lor a b
  | 12 => Nat.xor a b
  | 13 => 2 ^ 32 - 1 - a
  | 14 | 15 | 16 => shiftOp 32 sub a b
  | 17 => onesOf a
  | 18 => lzcOf a
  | 19 => revOf a
  | 20 => xtrOf u a b c
  | 21 => insOf a b c
  | _ => a

/-- An integer instruction on pairs, but cmp (R116). -/
def i64Value (sub : Nat) (u sat : Bool) (a b : Nat) : Nat :=
  let x := intOf (!u) 64 a
  let y := intOf (!u) 64 b
  match sub with
  | 0 => wrapOrSat 64 u sat (x + y)
  | 1 => wrapOrSat 64 u sat (x - y)
  | 4 => if x ≤ y then a else b
  | 5 => if x ≤ y then b else a
  | 6 => intBits 64 (x * y)
  | 10 => Nat.land a b
  | 11 => Nat.lor a b
  | 12 => Nat.xor a b
  | 14 | 15 | 16 => shiftOp 64 sub a b
  | _ => intBits 64 (intOf (!u) 32 a * intOf (!u) 32 b)

/-- The conditions of R117 on integers of `n` bits. -/
def intCond (n cond a b : Nat) : Bool :=
  let x := signedOf n a
  let y := signedOf n b
  match cond with
  | 0 => a == b
  | 1 => a != b
  | 2 => decide (x < y)
  | 3 => decide (x ≤ y)
  | 4 => decide (x > y)
  | 5 => decide (x ≥ y)
  | 6 => decide (a < b)
  | 7 => decide (a ≤ b)
  | 8 => decide (a > b)
  | _ => decide (a ≥ b)

/-! Writing results. -/

/-- Write a register value in each lane, ORing flags into FPSTAT (R120). -/
def Group.eachFl (gr : Group) (w : Word64) (n : Nat) (f : Nat → Nat × Fl) : Group :=
  (gr.lanes w).foldl (fun a l => let r := f l; { a.wrD w l n r.1 with fpstat := a.fpstat ||| r.2 }) gr

/-- Write a predicate in each lane; a uniform instruction writes the lowest lane's value in every active lane (R110). -/
def Group.eachPred (gr : Group) (w : Word64) (f : Nat → Bool × Fl) : Group :=
  if isUniform w then
    let r := f gr.low
    (lanesOf gr.active).foldl (fun a l => a.setP l (fD w) r.1) { gr with fpstat := gr.fpstat ||| r.2 }
  else
    (gr.lanes w).foldl (fun a l => let r := f l; { a.setP l (fD w) r.1 with fpstat := a.fpstat ||| r.2 }) gr

/-! Meanings. -/

/-- The group after I32_OP. -/
def doI32 (w : Word64) (gr : Group) : Group :=
  gr.eachFl w 1 fun l =>
    let a := gr.rdA w l 1
    let b := gr.rdB w l 1
    if fSub w = 23 then (if gr.pr l (fC w) then a else b, flNone)
    else (i32Value (fSub w) (fU w) (fSat w) a b (gr.rdC w l 1), flNone)

/-- I32_OP (R116). -/
def State.rowI32Op (s : State) (g : GRef) (w : Word64) : State :=
  s.issueAlu g w fun _ c => doI32 w c.gr

/-- The group after I64_OP: shifts take one register of B, mulw one register of each (R116). -/
def doI64 (w : Word64) (gr : Group) : Group :=
  let sub := fSub w
  let na := if sub = 25 then 1 else 2
  let nb := if sub = 14 ∨ sub = 15 ∨ sub = 16 ∨ sub = 25 then 1 else 2
  gr.eachFl w 2 fun l => (i64Value sub (fU w) (fSat w) (gr.rdA w l na) (gr.rdB w l nb), flNone)

/-- I64_OP (R116). -/
def State.rowI64Op (s : State) (g : GRef) (w : Word64) : State :=
  s.issueAlu g w fun _ c => doI64 w c.gr

/-- The group after INT_CMP. -/
def doIntCmp (w : Word64) (gr : Group) : Group :=
  let n := if fMaj w = 0x06 then 2 else 1
  gr.eachPred w fun l => (intCond (32 * n) (fMod w / 8) (gr.rdA w l n) (gr.rdB w l n), flNone)

/-- INT_CMP (R117). -/
def State.rowIntCmp (s : State) (g : GRef) (w : Word64) : State :=
  s.issueAlu g w fun _ c => doIntCmp w c.gr

/-- IMM_V (R107, R111). -/
def State.rowImmV (s : State) (g : GRef) (w : Word64) : State :=
  s.issueAlu g w fun _ c =>
    c.gr.each (c.gr.lanes w) fun _ l a => a.setV l (fD w) (BitVec.ofNat 32 (fImm32 w))

/-- IMM_U (R107, R110). -/
def State.rowImmU (s : State) (g : GRef) (w : Word64) : State :=
  s.issueAlu g w fun _ c => c.gr.setU (fD w) (BitVec.ofNat 32 (fImm32 w))

/-- The group after F32_OP or F64_OP, on `n` registers a value. -/
def doFp (f : Fmt) (n : Nat) (w : Word64) (gr : Group) : Group :=
  gr.eachFl w n fun l => fpOp f (fSub w) (Rm.of (fMod w % 4)) (gr.rdA w l n) (gr.rdB w l n) (gr.rdC w l n)

/-- F32_OP (R119, R120). -/
def State.rowF32Op (s : State) (g : GRef) (w : Word64) : State :=
  s.issueAlu g w fun _ c => doFp .f32 1 w c.gr

/-- F64_OP (R119, R120). -/
def State.rowF64Op (s : State) (g : GRef) (w : Word64) : State :=
  s.issueAlu g w fun _ c => doFp .f64 2 w c.gr

/-- The group after H2_OP: both halves of each register (R119). -/
def doH2 (w : Word64) (gr : Group) : Group :=
  let f := if getBits (fMod w) 2 1 = 1 then Fmt.bf16 else Fmt.f16
  let op := fpOp f (fSub w) (Rm.of (fMod w % 4))
  gr.eachFl w 1 fun l =>
    let a := gr.rdA w l 1
    let b := gr.rdB w l 1
    let c := gr.rdC w l 1
    let lo := op (a % 65536) (b % 65536) (c % 65536)
    let hi := op (a / 65536) (b / 65536) (c / 65536)
    (lo.1 + 65536 * hi.1, lo.2 ||| hi.2)

/-- H2_OP (R119, R120). -/
def State.rowH2Op (s : State) (g : GRef) (w : Word64) : State :=
  s.issueAlu g w fun _ c => doH2 w c.gr

/-- The group after FP_CMP. -/
def doFpCmp (w : Word64) (gr : Group) : Group :=
  let n := if fMaj w = 0x09 then 2 else 1
  let f := if fMaj w = 0x09 then Fmt.f64 else Fmt.f32
  gr.eachPred w fun l => fpCmp f (fMod w / 8) (gr.rdA w l n) (gr.rdB w l n)

/-- FP_CMP (R117, R120). -/
def State.rowFpCmp (s : State) (g : GRef) (w : Word64) : State :=
  s.issueAlu g w fun _ c => doFpCmp w c.gr

/-- The group after CNV. -/
def doCnv (w : Word64) (gr : Group) : Group :=
  match cvType (fB w % 16), cvType (fB w / 16) with
  | some src, some dst =>
    let n (t : CvT) : Nat := if t.pair then 2 else 1
    gr.eachFl w (n dst) fun l => cvt src dst (Rm.of (fMod w % 4)) (getBits (fMod w) 2 1 == 1) (gr.rdA w l (n src))
  | _, _ => gr

/-- CNV (R121). -/
def State.rowCnv (s : State) (g : GRef) (w : Word64) : State :=
  s.issueAlu g w fun _ c => doCnv w c.gr

/-- SF_OP (R122). -/
def State.rowSfOp (s : State) (g : GRef) (w : Word64) : State :=
  s.issueAlu g w fun _ c =>
    c.gr.eachFl w 1 fun l => sfOp (fSub w) (BitVec.ofNat 32 (c.gr.rdA w l 1))

/-- The group after PR_OP (R118). -/
def doPr (w : Word64) (gr : Group) : Group :=
  let a (l : Nat) : Bool := gr.pr l (fA w)
  let b (l : Nat) : Bool := gr.pr l (fB w)
  let na := getBits (fMod w) 0 1 == 1
  let nb := getBits (fMod w) 1 1 == 1
  match fSub w with
  | 0 => gr.eachPred w fun l => ((a l != na) && (b l != nb), flNone)
  | 1 => gr.eachPred w fun l => ((a l != na) || (b l != nb), flNone)
  | 2 => gr.eachPred w fun l => ((a l != na) != (b l != nb), flNone)
  | 3 => gr.eachPred w fun l => (!a l, flNone)
  | 4 => gr.eachPred w fun l => (gr.rdA w l 1 != 0, flNone)
  | _ => gr.eachFl w 1 fun l => (if a l then 1 else 0, flNone)

/-- PR_OP (R118). -/
def State.rowPrOp (s : State) (g : GRef) (w : Word64) : State :=
  s.issueAlu g w fun _ c => doPr w c.gr

/-- The source lane of a shuffle and whether it is in range (R93). -/
def shflSource (mode seg lane k : Nat) : Nat × Bool :=
  let base := seg * (lane / seg)
  match mode with
  | 0 => (base + k % seg, true)
  | 1 => if base + k ≤ lane then (lane - k, true) else (lane, false)
  | 2 => if lane + k < base + seg then (lane + k, true) else (lane, false)
  | _ => (base + Nat.xor (lane - base) k % seg, true)

/-- The group after GRP_SHFL (R93, R133); a uniform one writes its predicate in every active lane (R110). -/
def doShfl (w : Word64) (gr : Group) : Group :=
  let mode := fMod w % 4
  let seg := 2 ^ getBits (fMod w) 2 3
  gr.each (gr.lanes w) fun old l acc =>
    let r := shflSource mode seg l (old.rdB w l 1)
    let acc := acc.wrD w l 1 (old.rd r.1 (fAU w) (fA w) 1)
    if isUniform w then (lanesOf old.active).foldl (fun a k => a.setP k (fC w) r.2) acc else acc.setP l (fC w) r.2

/-- GRP_SHFL (R93, R133). -/
def State.rowGrpShfl (s : State) (g : GRef) (w : Word64) : State :=
  s.issueAlu g w fun _ c => doShfl w c.gr

/-- The group after GRP_VOTE (R94, R133): the participating lanes are the active lanes whose guard is true. -/
def doVote (w : Word64) (gr : Group) : Group :=
  let lanes := lanesOf (gr.active &&& gr.guard w)
  let p (l : Nat) : Bool := gr.pr l (fA w) != (getBits (fMod w) 2 1 == 1)
  if lanes = [] then gr
  else
    let yes := match fMod w % 4 with
      | 0 => lanes.all p
      | 1 => lanes.any p
      | _ => lanes.all p || !lanes.any p
    if fMod w % 4 = 3 then gr.setU (fD w) (BitVec.ofNat 32 ((lanes.filter p).foldl (fun a l => a + 2 ^ l) 0))
    else if fDU w then gr.setU (fD w) (if yes then 1 else 0)
    else gr.each lanes fun _ l acc => acc.setP l (fD w) yes

/-- GRP_VOTE (R94, R133). -/
def State.rowGrpVote (s : State) (g : GRef) (w : Word64) : State :=
  s.issueAlu g w fun _ c => doVote w c.gr

end Sys2Proof.Machine
end

