-- ==== Sys2Proof/Machine/Identity.lean ====
section
/-! DEFINITION. The root of trust: the DRBG (R437), DICE identity (R438), and the encryption of partition memory (R455). A block of AES is held with its first byte lowest. -/

namespace Sys2Proof.Machine

/-! CTR_DRBG with AES-256 (R437), as SP 800-90A has it without a derivation function. -/

/-- A block with its bytes in the other order. -/
def bswap (x : BitVec 128) : BitVec 128 := BitVec.ofNat 128 (leNat (leBytes 16 x.toNat).reverse)

/-- The next block of output: V counts up as a big-endian number. -/
def Drbg.block (x : Drbg) : BitVec 128 × Drbg :=
  let v := bswap (bswap x.v + 1)
  (Config.aes256 x.key v, { x with v := v })

/-- `n` blocks, the first lowest. -/
def Drbg.blocks (x : Drbg) : Nat → Nat × Drbg
  | 0 => (0, x)
  | n + 1 =>
    let b := x.block
    let r := b.2.blocks n
    (b.1.toNat + 2 ^ 128 * r.1, r.2)

/-- The update of SP 800-90A with 48 bytes of provided data. -/
def Drbg.update (x : Drbg) (data : BitVec 384) : Drbg :=
  let y := BitVec.ofNat 384 (x.blocks 3).1 ^^^ data
  { key := y.truncate 256, v := (y >>> 256).truncate 128 }

/-- Instantiation from the entropy source, the `n`-th time. -/
def Drbg.seed (n : Nat) : Drbg := ({} : Drbg).update (Config.entropy n)

/-- The Foler complex draws `n` blocks. The generator is instantiated at the first draw after a module reset and not reseeded before the next: DESIGN CHOICE (log entry 92). -/
def State.draw (s : State) (n : Nat) : Nat × State :=
  let x := s.sec.drbg.getD (Drbg.seed s.sec.seeds)
  let r := x.blocks n
  (r.1, { s with sec := { s.sec with drbg := some (r.2.update 0), seeds := if s.sec.drbg.isNone then s.sec.seeds + 1 else s.sec.seeds } })

/-! DICE (R438). -/

/-- HMAC with SHA-384, as RFC 2104 has it, of a key of at most 128 bytes. -/
def hmac384 (key msg : List Byte) : BitVec 384 :=
  let pad (b : Byte) : List Byte := (upTo 128).map fun i => key.getD i 0 ^^^ b
  Config.sha384 (pad 0x5C ++ leBytes 48 (Config.sha384 (pad 0x36 ++ msg)).toNat)

/-- Layer 0: CDI0 from the UDS and the digest of the Foler ROM. -/
def cdi0 : BitVec 384 := hmac384 (leBytes 32 Config.uds.toNat) (leBytes 48 (Config.sha384 Config.folerRom).toNat)

/-- The DeviceID public key. -/
def deviceIdKey : List Byte := Config.ecPublic cdi0

/-- The module digest: the first 16 bytes of the SHA-384 of the DeviceID public key. -/
def moduleDigest : BitVec 128 := (Config.sha384 deviceIdKey).truncate 128

/-- Layer 1: CDI1 from CDI0, the digest of the Foler firmware that runs and its SVN. -/
def State.cdi1 (s : State) : BitVec 384 :=
  hmac384 (leBytes 48 cdi0.toNat) (leBytes 48 (Config.firmwareDigest 2 s.sec.fw).toNat ++ leBytes 2 (s.fld secFwsvn 0 16))

/-- The Alias public key, and a signature by the Alias key. -/
def State.aliasKey (s : State) : List Byte := Config.ecPublic s.cdi1
def State.aliasSign (s : State) (msg : List Byte) : List Byte := Config.ecSign s.cdi1 msg

/-- The Alias certificate: its content, signed by the DeviceID key at the module reset that `boots` counts. -/
def State.aliasCert (s : State) : List Byte :=
  let tbs := Config.aliasTbs s.aliasKey s.boot.boots
  tbs ++ Config.ecSign cdi0 tbs

/-- The chain of slot 0: the Kelzetre root, DeviceID and Alias (R439). -/
def State.certChain (s : State) : List Byte := Config.rootCert ++ Config.deviceIdCert deviceIdKey ++ s.aliasCert

/-! Memory encryption (R455). -/

/-- A tweak times the generator of the field of XTS. -/
def xtsMul (t : BitVec 128) : BitVec 128 := (t <<< 1) ^^^ (if t.msb then 0x87 else 0)

/-- The blocks of a data unit, under the first key of a pair, from a tweak on. -/
def xtsBlocks (key : BitVec 256) : BitVec 128 → List (BitVec 128) → List (BitVec 128)
  | _, [] => []
  | t, b :: bs => (Config.aes256 key (b ^^^ t) ^^^ t) :: xtsBlocks key (xtsMul t) bs

/-- AES-256-XTS of a line of 128 bytes: the data unit is the line, and its tweak DPA[38:7]. -/
def xtsLine (key : BitVec 512) (line : Nat) (bs : List Byte) : List Byte :=
  let t := Config.aes256 (key.truncate 256) (BitVec.ofNat 128 line)
  (xtsBlocks ((key >>> 256).truncate 256) t ((upTo 8).map fun i => BitVec.ofNat 128 (numAt bs (16 * i) 16))).flatMap fun b => leBytes 16 b.toNat

/-- What the array holds of a byte that was written as `s` has it, under a slot's key: the controller encrypts every line of partition memory below L2, and computes ECC over the ciphertext. -/
def State.cipherByte (s : State) (slot a : Nat) : Byte :=
  (xtsLine (tget 0 s.sec.keys slot) (a / 128) (s.bytes (a / 128 * 128) 128)).getD (a % 128) 0

end Sys2Proof.Machine
end

