-- ==== Sys2Proof/Machine/Blocks.lean ====
section
/-! DEFINITION. Blocks, clusters and groups as they end (R70, R72, R75, R95 to R99, R163), what a group's accesses have reached (R132, R237), and the invalidation of L1 (R232). -/

namespace Sys2Proof.Machine

/-- Two blocks belong to one cluster of one run (R98); a thief stands alone (R225). -/
def Block.mates (a b : Block) : Bool :=
  if a.thief || b.thief then a.uid == b.uid
  else a.launch == b.launch && a.run == b.run && a.half == b.half && a.num / a.csize == b.num / b.csize

/-- The blocks of a block's cluster: core, slot and block. -/
def State.cluster (s : State) (b : Block) : List (Nat × Nat × Block) :=
  s.cores.flatMap fun e => (e.2.blocks.filter fun x => b.mates x.2).map fun x => (e.1, x.1, x.2)

/-- The groups of a block that have not ended. -/
def Core.groupsOf (c : Core) (slot : Nat) : List (Nat × Group) := c.groups.filter fun e => e.2.block == slot

/-- Drop the L1 data lines of a core (R232). -/
def State.dropL1 (s : State) (p : Nat) : State := s.modCore p fun c => { c with l1 := [] }

/-- Blocks of the launch that still stand on a core. -/
def Core.hosts (c : Core) (lid : Nat) : Bool := c.blocks.any fun e => e.2.launch == lid

/-- Blocks of a launch's run with tiles to split: core, slot and block. -/
def State.victims (s : State) (lid : Nat) (l : Launch) (half : Bool) : List (Nat × Nat × Block) :=
  s.cores.flatMap fun e => (e.2.blocks.filter fun b =>
    b.2.launch == lid && b.2.run == l.run && b.2.half == half && !b.2.ended && decide (b.2.head + 2 ≤ b.2.tail)).map fun b => (e.1, b.1, b.2)

/-- Every block of the launch has been placed. -/
def Launch.placed (l : Launch) : Bool := l.nextBlk == l.blocks && (l.pair.isNone || l.nextBlkB == l.blocks)

/-- Whether idle cores may take tiles of a launch's blocks (R225). -/
def State.steals (s : State) (l : Launch) : Bool := eCluster l.entry == 1 && !((s.ent l.part).stages.getD l.stage (0, false)).2

/-- No block of the launch's run is left to place, and none has tiles that a thief could take: what a core holds of it now is the last that it gets. -/
def State.lastBlocks (s : State) (lid : Nat) (l : Launch) : Bool :=
  l.placed && (!s.steals l || (s.victims lid l false == [] && s.victims lid l true == []))

/-- A core's last block of the launch has ended: it records the END of what it recorded the BEGIN of (R499). -/
def State.endOn (s : State) (lid : Nat) (l : Launch) (p : Nat) : State :=
  if (s.core p).traced.contains lid && !(s.core p).hosts lid then
    (s.modCore p fun c => { c with traced := c.traced.filter (· != lid) }).traceLaunch p tyEnd l ((l.fail.map fun f => f.status.toNat).getD 0)
  else s

/-- Free the blocks of a cluster once every one has ended; one that owns its matrix unit keeps its slot until it does not (R99, R163). Once no core can get another block of the launch, every core that holds none any more records its END (R499); that a core waits until this is sure is the model's reading of "the core's last block" (log entry 68). -/
def State.reap (s : State) (b : Block) : State :=
  let ms := s.cluster b
  if ms.all fun m => m.2.2.ended then
    let u := (ms.filter fun m => (s.core m.1).mx.owner != some m.2.1).foldl (fun t m =>
      t.modCore m.1 fun c => { c with blocks := tdel c.blocks m.2.1 }) s
    match u.launch? b.launch with
    | some la => if u.lastBlocks b.launch la then (tkeys u.cores).foldl (fun t p => t.endOn b.launch la p) u else u
    | none => u
  else s

/-- A group has ended (R72, R75): its slot is free, and with the last group its block has ended. -/
def State.endGroup (s : State) (g : GRef) : State :=
  match s.group? g with
  | none => s
  | some gr =>
    let t := s.modCore g.core fun c =>
      let d := { c with groups := tdel c.groups (gkey g.sched g.slot) }
      let q := d.sched g.sched
      d.setSched g.sched { q with active := q.active.filter (· != g.slot), ready := q.ready.filter (· != g.slot) }
    match tfind (t.core g.core).blocks gr.block with
    | none => t
    | some b =>
      if (t.core g.core).groupsOf gr.block = [] then
        let u := t.modCore g.core fun c => { c with
          blocks := tset c.blocks gr.block { b with ended := true }
          mx := { c.mx with waiters := c.mx.waiters.filter (· != gr.block) } }
        (u.modLaunch gr.launch fun l =>
          ((if b.thief then { l with thieves := l.thieves - 1 } else { l with ended := l.ended + 1 }) : Launch).noteReady t.now).reap { b with ended := true }
      else t

/-- The group's registers after an instruction that may end it. -/
def State.settleGroup (s : State) (g : GRef) (gr : Group) : State :=
  if gr.exited = BitVec.allOnes 32 then (s.setGroup g gr).endGroup g else s.setGroup g gr

/-! What a group's accesses have reached (R132, R237). -/

/-- Loads of the group have bound. -/
def State.loadsBound (s : State) (g : GRef) (uid : Nat) : Bool :=
  let c := s.core g.core
  !(c.loads.any fun e => e.2.guid == uid) && !(c.creqs.any fun e => e.2.guid == uid && (e.2.kind == 0 || e.2.kind == 2))

/-- The group's store buffer is empty. -/
def State.sbufEmpty (s : State) (g : GRef) (uid : Nat) : Bool :=
  !((tget [] (s.core g.core).sbufs (gkey g.sched g.slot)).any fun e => e.guid == uid)

/-- A queue entry that writes memory: a drain to memory, or a nest with such drains; one to a handle is no access (R179, R186). -/
def MxOp.writesMem : MxOp → Bool
  | .drain _ _ _ dst _ _ _ _ _ => dst != 2
  | .nest tab _ => tab.hdr.drain && tab.hdr.dst != 2
  | _ => false

/-- The group's fills, its drains to memory and its nests with such drains are done (R179). -/
def Core.mxDone (c : Core) (uid : Nat) : Bool :=
  !(c.mx.fills.any fun e => e.2.guid == uid) && !(c.mx.drains.any fun e => e.2.guid == uid) &&
  !(c.mx.queue.any fun e => e.guid == uid && e.op.writesMem) &&
  !(match c.mx.nest with
    | some n => n.entry.guid == uid && n.tab.hdr.drain && n.tab.hdr.dst != 2
    | none => false)

/-- The group's remote writes have been acknowledged, its final writes among them where the launch runs without pre-emption (R127, R353): those that name this module, or all. -/
def State.remoteDone (s : State) (g : GRef) (uid : Nat) (ownOnly : Bool) : Bool :=
  let own := s.fld chartDevid 0 16
  !((s.die (dieOfPhys g.core)).tracks.any fun e =>
    e.2.core == g.core && (e.2.kind == 1 || e.2.kind == 5) && e.2.load == uid && (!ownOnly || e.2.dst == own)) &&
  !(s.launches.any fun l => l.2.finals.any fun f => f.core == g.core && f.guid == uid && (!ownOnly || f.msg.dst == own))

/-- Writes of the group to host memory with EA 0 await the answer of the host (R230). -/
def Core.hostOwes (c : Core) (uid : Nat) : Bool := c.art.any fun e => e.2.guid == uid && e.2.sync.any fun x => decide (2 ^ 64 ≤ x.1)

/-- Every earlier access of a group has been performed at a scope (R237): a write to HBM when it is performed at the home slice, whatever its EA bit; at system scope, one to host memory when it is acknowledged. -/
def State.reached (s : State) (g : GRef) (uid scope : Nat) : Bool :=
  s.sbufEmpty g uid && s.loadsBound g uid && (s.core g.core).mxDone uid &&
  (scope == 0 || (!((s.core g.core).art.any fun e => e.2.guid == uid && !e.2.done) && !((s.core g.core).creqs.any fun e => e.2.guid == uid))) &&
  (decide (scope < 4) || !((s.core g.core).hostOwes uid)) &&
  (decide (scope < 3) || s.remoteDone g uid (scope == 3))

/-! What orders an access (R239). -/

def fRelease (w : Word64) : Bool := decide (fOrder w ≥ 2)
def fAcquire (w : Word64) : Bool := fOrder w == 1 || fOrder w == 3

/-- Results that a test picks are outstanding for the group: how it waits for them (R77). -/
def Core.resultWait (c : Core) (uid : Nat) (load : Load → Bool) (creq : CReq → Bool) : Option Wait :=
  if c.loads.any fun e => e.2.guid == uid && e.2.remote && load e.2 then some .remote
  else if c.loads.any fun e => e.2.guid == uid && load e.2 then some .load
  else if c.creqs.any fun e => e.2.guid == uid && creq e.2 then some .cluster
  else none

/-- What the group's next access waits for: an acquire that has not been performed holds every later access; a release, until its earlier accesses are performed at its scope (R239). `some .none` is a wait in the active set (R77). -/
def State.accessWait (s : State) (g : GRef) (uid : Nat) (w : Word64) (ordered : Bool) : Option Wait :=
  ((s.core g.core).resultWait uid (fun l => l.acq.isSome) fun r => r.acq.isSome).orElse fun _ =>
    if !(ordered && fRelease w) || s.reached g uid (fScope w) then none
    else
      ((s.core g.core).resultWait uid (fun _ => true) fun r => r.kind == 0 || r.kind == 2 || fScope w != 0).orElse fun _ =>
        if decide (3 ≤ fScope w) && !(s.remoteDone g uid (fScope w == 3)) then some .remote else some .none

/-- A Device-Strict read of the group that is not performed (R230): a later strict access waits for its result in the pending set (R77). -/
def Core.strictRead (c : Core) (uid : Nat) : Bool := c.art.any fun e => e.2.guid == uid && e.2.strict && !e.2.isWrite

end Sys2Proof.Machine
end

