-- ==== Sys2Proof/Machine/Mesh.lean ====
section
/-! DEFINITION. What crosses the ring of compute dies, whose paths are in Machine/Ops.lean (R25 to R28, R32), the uncore rail and the units it feeds (R34), the rim bridges (R38) and the replicas of global time (R39). -/

namespace Sys2Proof.Machine

/-- A core's access to a place gets across the ring and back, its request and its response by their own paths and planes (R26 to R28, R32). -/
def State.reaches (s : State) (cut : List Nat) (x y : Traffic) (p : Nat) (t : Target) : Bool :=
  s.crosses cut x y (dieOfPhys p) (t.home (dieOfPhys p))

/-- The die that holds a byte of the tracker's keys: that of its channel, or the core's own. -/
def homeOfKey (d k : Nat) : Nat := if k < 2 ^ 64 then dieOfChan (k / 2 ^ 31) else d

/-- Pieces of HBM that a fill or a drain names get across the ring and back. -/
def State.spansReach (s : State) (cut : List Nat) (x y : Traffic) (p : Nat) (spans : List (Nat × Nat)) : Bool :=
  spans.all fun k => s.crosses cut x y (dieOfPhys p) (homeOfKey (dieOfPhys p) k.1)

/-- What is on its way between two dies: the requester's die and the home die, what was asked and what answers, and the links that had failed when it was issued. -/
structure Crossing where
  src : Nat
  home : Nat
  ask : Traffic
  answer : Traffic
  cut : List Nat
  deriving DecidableEq, Repr

/-- A core's accesses that are on their way to another die or wait there: loads and atomics, stores, fills and drains. A cluster lies on one die (R98), so that none of its requests is among them. -/
def Core.crossings (c : Core) (d : Nat) : List Crossing :=
  let spans (k : Option Nat) : List (Nat × Nat) := ((k.bind (tfind c.art)).map (·.spans)).getD []
  let ofLoads : List Crossing := c.loads.flatMap fun e => e.2.reads.map fun r =>
    { src := d, home := r.tgt.home d, ask := if e.2.bound.isSome then .atomic else .load, answer := .readData, cut := e.2.cut }
  let ofStores : List Crossing := c.art.flatMap fun e => e.2.writes.map fun w =>
    { src := d, home := w.tgt.home d, ask := .store, answer := .acknowledgement, cut := e.2.cut }
  let ofFills : List Crossing := c.mx.fills.flatMap fun e => (spans e.2.track).map fun k =>
    { src := d, home := homeOfKey d k.1, ask := .load, answer := .readData, cut := e.2.cut }
  let ofDrains : List Crossing := (c.mx.drains.filter fun e => !e.2.isLocal).flatMap fun e => e.2.writes.map fun w =>
    { src := d, home := w.tgt.home d, ask := .store, answer := .acknowledgement, cut := e.2.cut }
  (ofLoads ++ ofStores ++ ofFills ++ ofDrains).filter fun x => x.home != d

/-! The uncore rail (R34) and the rim bridges (R38, R39). -/

/-- What runs from a die's uncore rail. -/
inductive Uncore where
  | mesh
  | l2
  | copyEngines
  | frontEnd
  | linkRouter
  | collectiveUnit
  | digestEngine
  deriving DecidableEq, Repr

/-- A die's uncore rail in mV: 750 while the die's lamp is lit, and no register or command moves it (R34, R486). -/
def State.uncoreMv (s : State) (d : Nat) : Nat := if s.lamp (lampDie d) then 750 else 0

/-- A unit of a die's uncore runs: its rail is at 0.75 V, whatever the rail domains of the cores are at (R34). -/
def State.uncoreRuns (s : State) (d : Nat) (_u : Uncore) : Bool := s.uncoreMv d == 750

/-- What lies between the rim and a block or a channel of a die. -/
inductive RimHop where
  | bridge (die : Nat)
  | mesh (die : Nat) (plane : Plane)
  deriving DecidableEq, Repr

/-- The bridge of a die, its mesh and its replica of GT are up: the die's lamp says so (R39, R486). -/
def State.bridgeUp (s : State) (d : Nat) : Bool := s.lamp (lampDie d)

/-- The path of host DMA to a channel of die `d` and of PF0's access to a block of it: bridge `d` and the request plane of that die's mesh, and no other (R32, R38). -/
def State.rimPath (s : State) (d : Nat) : Option (List RimHop) :=
  if s.bridgeUp d && s.uncoreRuns d .mesh then some [.bridge d, .mesh d Traffic.registerAccess.plane] else none

/-- Where a die's bridge had brought its replica at a moment, before R390 is looked at: within 2 ns of the rim's time either way, by a free value (R39). -/
def bridgeGt (d t : Nat) : Nat := t + (Config.gtSkew d t).val - 2

/-- The replica of global time that a die keeps, as it is read now (R39, R390): the highest it has been brought to, so that it never decreases. What it was brought to more than 4 ns ago lies below what it is brought to now, so that five moments give the maximum; it stays within 2 ns of the rim's time. -/
def State.gtOn (s : State) (d : Nat) : Nat := ((upTo 5).map fun i => bridgeGt d (s.now - i)).foldl max 0 % 2 ^ 64

/-- The lamp of the function that serves a block of PF0's BAR0 (R487, R488). -/
def State.blockLamp (s : State) (k : Nat) : Nat :=
  if k < 0x100000 then lampPcie
  else if k < 0x300000 then lampFoler
  else if k < 0x400000 then lampLogbook
  else if k < 0x800000 then lampDie ((k - 0x400000) / 0x100000)
  else if k < 0x1000000 then lampChart
  else if k < 0x1100000 then lampStack ((k - 0x1000000) / 0x1000 / 32)
  else if k < 0x1200000 then lampDie ((k - 0x1100000) / 0x1000 / 32 % 4)
  else if k < 0x1300000 then lampDie ((k - 0x1200000) / 0x4000 / 16)
  else if k < 0x13C0000 then lampDie ((k - 0x1300000) / 0x4000 / 12)
  else if k < 0x1400000 then lampTimebase
  else if k < 0x1500000 then lampDie (s.leadDie ((k - 0x1400000) / 0x400 % 64))
  else if k < 0x1600000 then lampSecroot
  else if k < 0x1800000 then lampFoler
  else if k < 0x2000000 then lampSecroot
  else lampRail (min ((k - 0x2000000) / 0x1000) 1631 / 51)

/-- The compute die that a block of PF0's BAR0 lies on, for the blocks of cores, channels, L2 slices and front ends, copy engines and links. -/
def blockDie (k : Nat) : Option Nat :=
  if 0x400000 ≤ k ∧ k < 0x800000 then some ((k - 0x400000) / 0x100000)
  else if 0x1000000 ≤ k ∧ k < 0x1100000 then some (dieOfChan ((k - 0x1000000) / 0x1000))
  else if 0x1100000 ≤ k ∧ k < 0x1200000 then some ((k - 0x1100000) / 0x1000 / 32 % 4)
  else if 0x1200000 ≤ k ∧ k < 0x1300000 then some ((k - 0x1200000) / 0x4000 / 16 % 4)
  else if 0x1300000 ≤ k ∧ k < 0x13C0000 then some (dieOfLink ((k - 0x1300000) / 0x4000))
  else if 0x2000000 ≤ k ∧ k < 2 ^ 32 then some (dieOfPhys (min ((k - 0x2000000) / 0x1000) 1631))
  else none

/-- The function that serves a block of PF0's BAR0 is there: its lamp is lit (R488), and a block of a compute die is reached by that die's rim bridge and mesh (R38). -/
def State.pfServes (s : State) (off : Nat) : Bool :=
  s.lamp (s.blockLamp off) && match blockDie off with
    | some d => (s.rimPath d).isSome
    | none => true

end Sys2Proof.Machine
end

