-- ==== Sys2Proof/Machine/Fabric.lean ====
section
/-! DEFINITION. The link routers as sources see them: routes (R373 to R376), credits (R369), request slots (R371), messages that enter a router, and refusals (R368). -/

namespace Sys2Proof.Machine

/-! Remote global addresses (R264). -/

def rgaDev (a : Nat) : Nat := getBits a 48 16
def rgaPart (a : Nat) : Nat := getBits a 42 6
def rgaVa (a : Nat) : Nat := a % 2 ^ 42
/-- A multicast or collective group. -/
def isGroupId (dev : Nat) : Bool := decide (0xC000 ≤ dev)
/-- The module's own device ID. -/
def State.ownId (s : State) : Nat := s.fld chartDevid 0 16

/-! Message types (R368) and refusal reasons. -/

def mRd : Nat := 0x01
def mWr : Nat := 0x02
def mWrf : Nat := 0x03
def mAtom : Nat := 0x04
def mContrib : Nat := 0x05
def mRdrsp : Nat := 0x08
def mAck : Nat := 0x09
def mAtomrsp : Nat := 0x0A
def mNack : Nat := 0x0B
def mTime : Nat := 0x10
def mBeacon : Nat := 0x11
def mLstate : Nat := 0x12
def mKeyx : Nat := 0x13

def nkNopart : Nat := 1
def nkDomain : Nat := 2
def nkTranslation : Nat := 3
def nkWindow : Nat := 4
def nkBusy : Nat := 5
def nkNoroute : Nat := 6
def nkLost : Nat := 7
def nkEpoch : Nat := 8

/-! Links and credits (R365, R369). -/

def lsDisabled : Nat := 0
def lsLight : Nat := 1
def lsTrain : Nat := 2
def lsAlign : Nat := 3
def lsSecure : Nat := 4
def lsInit : Nat := 5
def lsUp : Nat := 6
def lsRecover : Nat := 7
def lsFailed : Nat := 8

def State.linkState (s : State) (n : Nat) : Nat := s.fld (lnkStat n) 0 4
def State.linkUp (s : State) (n : Nat) : Bool := s.linkState n == lsUp
def State.linkEth (s : State) (n : Nat) : Bool := s.bit (lnkStat n) 7

/-- Links that wait in ALIGN count their bound from now (R488). -/
def State.restartAlign (s : State) : State :=
  { s with links := s.links.map fun (e : Nat × Link) => (e.1, if s.linkState e.1 = lsAlign then { e.2 with phaseGt := s.now } else e.2) }

/-- The CREDIT field of a VC and class. -/
def creditField (vc cls : Nat) : Nat := if vc = 3 then 6 else 2 * vc + cls % 2
/-- Credits that a message takes. -/
def msgCredits (m : Msg) : Nat := 1 + (m.data.length + 31) / 32
/-- Chunks of a message (R367). -/
def msgChunks (m : Msg) : Nat := 4 + (m.data.length + 7) / 8

/-- Credits left to a transmitter. -/
def Link.credit (l : Link) (f : Nat) : Nat := (tget 0 l.limit f + 65536 - tget 0 l.used f) % 65536

/-! Routes (R372, R373, R375). -/

/-- The stride of a dimension. -/
def Routes.stride (r : Routes) (d : Nat) : Nat := (r.size.take d).foldl (· * ·) 1

/-- The direction in which a router at device `at_` sends a message for `x`: the dimension, and whether +. -/
def Routes.dirFrom (r : Routes) (at_ x : Nat) : Option (Nat × Bool) :=
  if at_ < r.baseid ∨ x < r.baseid then none
  else (upTo r.ndim).findSome? fun d =>
    let n := max 1 (r.size.getD d 1)
    let c := (x - r.baseid) / r.stride d % n
    let k := (at_ - r.baseid) / r.stride d % n
    if c = k then none
    else
      let up := (c + n - k) % n
      some (d, decide (up ≤ n - up))

def dirIndex (d : Nat × Bool) : Nat := if d.2 then 2 * d.1 else 2 * d.1 + 1

/-- The link mask for a destination, and the torus direction it stands for. -/
def Routes.mask (r : Routes) (own x : Nat) : Option (Nat × Option (Nat × Bool)) :=
  match r.ovr.find? fun e => decide (e.1 ≤ x ∧ x ≤ e.2.1) with
  | some e => some (e.2.2, none)
  | none =>
    if x < r.baseid ∨ r.stride r.ndim ≤ x - r.baseid then none
    else (r.dirFrom own x).map fun d => (r.dirlinks.getD (dirIndex d) 0, some d)

/-- The class in which a message leaves in a direction (R372): 1 over the wrap link and after it in the same dimension. -/
def Routes.classFor (r : Routes) (own : Nat) (m : Msg) (arrived : Option Nat) (dir : Option (Nat × Bool)) : Nat :=
  match dir with
  | none => m.cls
  | some d =>
    let n := max 1 (r.size.getD d.1 1)
    let k := (own - r.baseid) / r.stride d.1 % n
    if (d.2 = true ∧ k + 1 = n) ∨ (d.2 = false ∧ k = 0) then 1
    else
      match arrived with
      | some a => if getBits (r.dirlinks.getD (2 * d.1) 0) a 1 = 1 ∨ getBits (r.dirlinks.getD (2 * d.1 + 1) 0) a 1 = 1 then m.cls else 0
      | none => 0

/-- The tunnel of an Ethernet-mode link that leads to a device: the one whose PEERID it is, else the one marked DEFAULT (R394). A message for a tunnel that is not up waits at the link. -/
def State.tunnelFor (s : State) (n x : Nat) : Option Nat :=
  let valid := (upTo 64).filter fun t => s.bit (lnkTun n t) 16
  match valid.find? fun t => s.fld (lnkTun n t) 0 16 == x with
  | some t => some t
  | none => valid.find? fun t => s.bit (lnkTun n t) 17

/-- The links of die `d` in a mask that are in state UP (R373). -/
def State.candidates (s : State) (d mask : Nat) : List Nat :=
  ((upTo 12).map (12 * d + ·)).filter fun n => getBits mask n 1 == 1 && s.linkUp n

/-- The free credit that a message finds on a link, or on the tunnel that would carry it (R375, R393). -/
def State.creditFor (s : State) (n : Nat) (m : Msg) : Nat :=
  let f := creditField m.vc m.cls
  if s.linkEth n then
    match s.tunnelFor n m.dst with
    | some t =>
      let x : Tunnel := tget {} (s.link n).tunnels t
      if x.up then (tget 0 x.limit f + 65536 - tget 0 x.used f) % 65536 else 0
    | none => 0
  else (s.link n).credit f

/-- Among candidates, those whose peer can go on, then the most free credit for the class in which the message would leave, then the lowest number (R375). -/
def State.pickLink (s : State) (m : Msg) (cands : List Nat) : Option Nat :=
  let goesOn (n : Nat) : Bool :=
    let peer := s.fld (lnkPeer n) 0 16
    if s.linkEth n then true
    else if peer = m.dst then true
    else match s.chart.routes.dirFrom peer m.dst with
      | some d => (s.link n).peerDirs.getLsbD (dirIndex d)
      | none => true
  let good := cands.filter goesOn
  let cost (n : Nat) : Nat := 65536 - s.creditFor n m
  argmin cost (if good = [] then cands else good)

/-- Die `d`, then the others in the order of R374. -/
def ringFrom (d : Nat) : List Nat := d :: ([0, 1, 3, 2].filter (· != d))

/-- Put a message at a link, oldest first. -/
def State.queueMsg (s : State) (n : Nat) (m : Msg) : State := s.modLink n fun l => { l with txq := l.txq ++ [m] }

/-- The routers that may send a message on: that of the link it arrived on (R37), or the first die, from `d` on, whose router has a candidate and which the ring reaches from `d` (R26, R374). -/
def State.exitDies (s : State) (d : Nat) (arrived : Option Nat) : List Nat := if arrived.isSome then [d] else (ringFrom d).filter (s.dieReach d)

/-- The link on which a message leaves, and the message in the class in which it leaves. -/
def State.exitLink (s : State) (d : Nat) (m : Msg) (arrived : Option Nat) : Option (Nat × Msg) :=
  match s.chart.routes.mask s.ownId m.dst with
  | none => none
  | some (mask, dir) =>
    let x := { m with cls := s.chart.routes.classFor s.ownId m arrived dir }
    match ((s.exitDies d arrived).map fun k => s.candidates k mask).find? (· != []) with
    | some cs => (s.pickLink x cs).map (·, x)
    | none => none

/-- The entry of a group (R215, R376). -/
def State.groupEntry (s : State) (x : Nat) : Option (Nat × Nat) :=
  (s.chart.routes.mc.find? fun e => e.1 == x).map (·.2)

/-- The directions of a link, by DIRLINKS; a link in none stands for itself. -/
def Routes.linkDirs (r : Routes) (n : Nat) : List Nat :=
  match (upTo 12).filter fun i => getBits (r.dirlinks.getD i 0) n 1 == 1 with
  | [] => [12 + n]
  | ds => ds

/-- The links of a mask that a die's router owns, but the one that a message arrived on. -/
def ownLinks (d mask : Nat) (arrived : Option Nat) : List Nat :=
  ((upTo 12).map (12 * d + ·)).filter fun n => getBits mask n 1 == 1 && arrived != some n

/-- The direction of the torus that a direction number stands for; none for a link that is in none. -/
def dirOf (i : Nat) : Option (Nat × Bool) := if i < 12 then some (i / 2, i % 2 == 0) else none

/-- For each direction that a router's links of the mask have, the link on which a copy leaves and the class in which it leaves, as a message to one module would (R372), or none where no link of the direction is UP (R376). The link on which the message entered the module, if any, is `from`; `arrived` is it at the router that it entered. -/
def State.groupExits (s : State) (d : Nat) (m : Msg) (mask : Nat) (arrived from_ : Option Nat) : List (Option (Nat × Nat)) :=
  let mine := ownLinks d mask arrived
  ((upTo 60).filter fun i => mine.any fun n => (s.chart.routes.linkDirs n).contains i).map fun i =>
    let c := s.chart.routes.classFor s.ownId m from_ (dirOf i)
    (s.pickLink { m with cls := c } ((mine.filter s.linkUp).filter fun n => (s.chart.routes.linkDirs n).contains i)).map (·, c)

/-- The lowest record of a router that is free (R379). -/
def State.freeRec (s : State) (d : Nat) : Option Nat := firstFree (fun k => (tfind (s.die d).mcast k).isNone) 2048 0

/-- A router makes its copies of a group's message and takes the record that gathers their answers: the links on which copies leave, once each, the branches beside them, and NOROUTE where a direction has no link that is UP (R375, R376, R379). -/
def State.branch (s : State) (d k : Nat) (m : Msg) (up : Option Nat) (ring : Option (Nat × Nat)) (exits : List (Option (Nat × Nat))) (others : Nat) : State :=
  let ls := (exits.filterMap id).foldl (fun (t : Tbl Nat) e => if (tfind t e.1).isSome then t else tset t e.1 e.2) []
  let t := s.modDie d fun x => { x with
    mcast := tset x.mcast k { tag := m.tag, up := up, ring := ring, left := ls.length + others, src := m, bad := if exits.contains none then some nkNoroute else none } }
  ls.foldl (fun t e => t.queueMsg e.1 { m with cls := e.2 }) t

/-- The other routers that own a link of a group's mask that is UP and that the ring reaches: each takes a copy and a record (R376, R379). -/
def State.mcRouters (s : State) (d links : Nat) : List Nat :=
  (upTo 4).filter fun e => e != d && s.dieReach d e && (ownLinks e links none).any s.linkUp

/-- A router hands on a group's message: copies on its own links and for the local partitions, and one across the ring to each other router that owns a link of the mask, which keeps its own record (R376, R379); none where no copy finds a way, or a router has no record free. -/
def State.replicate (s : State) (d : Nat) (m : Msg) (arrived : Option Nat) : Option State :=
  match s.groupEntry m.dst with
  | none => none
  | some (links, parts) =>
    let ps := bitsSet parts 64
    let exits := s.groupExits d m links arrived arrived
    let away := (upTo 4).filter fun e => e != d && ownLinks e links none != []
    let live := s.mcRouters d links
    if exits.filterMap id = [] ∧ ps = [] ∧ live = [] then none
    else
      match s.freeRec d with
      | none => none
      | some k =>
        if live.all fun e => (s.freeRec e).isSome then
          let t := s.branch d k m arrived none (if live.length < away.length then none :: exits else exits) (ps.length + live.length)
          let u := t.modDie d fun y => { y with loop := y.loop ++ ps.map fun p => { m with part := p } }
          some (live.foldl (fun (t : State) e => t.branch e ((s.freeRec e).getD 0) m none (some (d, k)) (s.groupExits e m links none arrived) 0) u)
        else none

/-- A message enters the router of die `d`: for this module, to a group, which takes WR and WRF alone (R376), or towards another module; `none` where no path exists (R374, R375). -/
def State.inject (s : State) (d : Nat) (m : Msg) (arrived : Option Nat) : Option State :=
  if m.dst = s.ownId then some (s.modDie d fun x => { x with loop := x.loop ++ [m] })
  else if isGroupId m.dst then (if m.typ = mWr ∨ m.typ = mWrf then s.replicate d m arrived else none)
  else match s.exitLink d m arrived with
    | some (n, x) => some (s.queueMsg n x)
    | none => none

/-! Requests (R371). -/

/-- Requests outstanding at a die's router: a read slot holds an RD or a returning atomic, a tracking entry any other. -/
def Die.hasRead (x : Die) : Bool := decide (x.reads.length < 8192)
def Die.hasTrack (x : Die) : Bool := decide (x.tracks.length < 16384)

/-- A router's tag for a new request: a tag is the source router's (R367). It is the lowest that no request of the module uses, or, with every one in use by some router, the lowest that this router does not use: DESIGN CHOICE (log entry 95). A router has fewer slots than there are tags, so that it finds one. -/
def State.freeTag (s : State) (d : Nat) : Option Nat :=
  (firstFree (fun t => s.dies.all fun e => (tfind e.2.reads t).isNone && (tfind e.2.tracks t).isNone) 65536 0).orElse fun _ =>
    firstFree (fun t => (tfind (s.die d).reads t).isNone && (tfind (s.die d).tracks t).isNone) ((s.die d).reads.length + (s.die d).tracks.length + 1) 0

/-- The epoch tag of a partition (R491). -/
def State.epochOf (s : State) (p : Nat) : Nat := s.fld (partStat p) 8 8
/-- The fabric domain of a partition (R377). -/
def State.domainOf (s : State) (p : Nat) : Nat := s.fld (partFdom p) 0 16

/-- The header of a request by a partition (R367). -/
def State.request (s : State) (typ vc p run addr : Nat) (aux : Nat) (data : List Byte) : Msg :=
  { typ := typ, vc := vc, cls := 0, trapx := false, dst := rgaDev addr, src := s.ownId, va := rgaVa addr, part := rgaPart addr,
    spart := p, epoch := s.epochOf p, tag := 0, run := run % 65536, domain := s.domainOf p, aux := BitVec.ofNat 64 aux, data := data }

/-- What a request does when it leaves: it takes its slot and enters the router; where no path exists it is refused NOROUTE, and where its partition's domain is 0 it is refused at issue, and `false` is answered (R375, R377). -/
def State.sendReq (s : State) (d : Nat) (r : RReq) (read : Bool) : Bool × State :=
  if r.msg.domain = 0 then (false, s)
  else match s.freeTag d with
  | none => (false, s)
  | some tag =>
    let m := { r.msg with tag := tag }
    match s.inject d m none with
    | none => (false, s)
    | some t =>
      (true, t.modDie d fun x =>
        if read then { x with reads := tset x.reads tag { r with msg := m } }
        else { x with tracks := tset x.tracks tag { r with msg := m } })

/-- Whether `n` more requests find slots at a die's router (R371). A request that finds none waits at its source. -/
def State.hasSlots (s : State) (d n : Nat) (read : Bool) : Bool :=
  decide (if read then (s.die d).reads.length + n ≤ 8192 else (s.die d).tracks.length + n ≤ 16384)

/-- Whether `n` messages to `dst` find what a group's message needs beside a slot: a multicast record of each router that will copy it (R379). -/
def State.roomFor (s : State) (d dst n : Nat) : Bool :=
  !(isGroupId dst) || match s.groupEntry dst with
    | none => true
    | some (links, _) => (d :: s.mcRouters d links).all fun e => decide ((s.die e).mcast.length + n ≤ 2048)

/-! Refusals (R368). -/

/-- An exception found after its instruction issued (R174, R368): the record, the failure, and the group stops if it is still there. -/
def State.raiseLate (s : State) (core lid guid part : Nat) (x : Site) (e : Exc) : State :=
  let t := (s.recordExc core x.sched x.slot e x.pc x.word part).failLaunch lid
    (s.mkFail e.status core e.given)
  let g : GRef := ⟨core, x.sched, x.slot⟩
  match t.group? g with
  | some gr => if gr.uid = guid ∧ gr.launch = lid then t.setGroup g { gr with stopped := true } else t
  | none => t

/-- What a pending group needs is there (R78). -/
def State.needMet (s : State) (g : GRef) (gr : Group) : Bool :=
  match gr.need with
  | .none => true
  | .operands w => s.operandWait g gr.uid w == .none
  | .tracker wr spans => !((s.core g.core).trackHit wr spans) && !(s.core g.core).trackFull
  | .slot => decide ((s.core g.core).creqs.length < 64)
  | .access w ordered => (s.accessWait g gr.uid w ordered).getD .none == .none
  | .strict => !((s.core g.core).strictRead gr.uid)
  | .router read n => s.hasSlots (dieOfPhys g.core) n read
  | .unit reads uses k =>
    (s.core g.core).mx.owner == some gr.block && (s.core g.core).mx.ready reads uses &&
    match k with
    | some x => !((s.core g.core).trackHit x.1 x.2) && !(s.core g.core).trackFull
    | none => true

/-- Something that groups of a core wait for has come: those that wait for its kind, or for operands or an order, and now need nothing more become ready (R78). Of several that become ready at one moment the spec does not order any: here the lower slot goes first, as it does where a barrier opens, and at admission the lower group number (DESIGN CHOICE, log entry 102). -/
def State.wakeAll (s : State) (p : Nat) (w : Wait) : State :=
  ((s.core p).groups.filter fun e =>
    (e.2.wait == w || match e.2.need with
      | .operands _ | .access _ _ => true
      | _ => false) && s.needMet ⟨p, e.1 / 16, e.1 % 16⟩ e.2).foldl (fun t e => t.wake ⟨p, e.1 / 16, e.1 % 16⟩) s

/-- Ready the groups of a die that wait for a remote slot. -/
def State.wakeRemote (s : State) (d : Nat) : State :=
  ((tkeys s.cores).filter fun p => dieOfPhys p == d).foldl (fun t p => t.wakeAll p .remote) s

/-! Outputs of collective slots (R385). -/

/-- A collective slot of a partition, and its record replaced. -/
def State.coll? (s : State) (p k : Nat) : Option Coll := tfind (s.part p).coll k
def State.setColl (s : State) (p k : Nat) (c : Coll) : State := s.modPart p fun y => { y with coll := tset y.coll k c }

/-- The raw outputs of a slot leave while the router has tracking entries. One that finds no path is refused, and never performed. -/
def State.sendOuts (s : State) (p k : Nat) : State :=
  match s.coll? p k with
  | none => s
  | some c =>
    let d := (s.ent p).lead
    let n := 16384 - (s.die d).tracks.length
    (c.outq.take n).foldl (fun t m =>
      let r : RReq := {
        part := p, epoch := m.epoch, launch := 2 ^ 64, run := c.round, core := 408 * d, load := k,
        dst := m.dst, gt := t.now, kind := 4, msg := m }
      (t.sendReq d r false).2) (s.setColl p k { c with outq := c.outq.drop n })

/-- Every slot of a die's collective unit that has outputs left sends them. -/
def State.pumpOuts (s : State) (d : Nat) : State :=
  (s.parts.filter fun e => (s.ent e.1).lead == d).foldl (fun t e =>
    (e.2.coll.filter fun x => x.2.outq != []).foldl (fun u x => u.sendOuts e.1 x.1) t) s

/-- Free a request's slot. -/
def State.dropReq (s : State) (d tag : Nat) : State :=
  ((s.modDie d fun x => { x with reads := tdel x.reads tag, tracks := tdel x.tracks tag }).wakeRemote d).pumpOuts d

/-- A type of message answers a request, or is the request itself (R368): an RD by RDRSP, a returning ATOM by ATOMRSP, all others by ACK, and any by NACK. -/
def msgAnswers (m q : Msg) : Bool :=
  let ret := q.typ == mAtom && getBits q.aux.toNat 4 1 == 1
  if m.typ = mRdrsp then q.typ == mRd
  else if m.typ = mAtomrsp then ret
  else if m.typ = mAck then q.typ != mRd && !ret
  else m.typ == mNack || m.typ == q.typ

/-- A message is a request's own, or echoes what identifies it (R337, R367, R368). -/
def msgIsOf (m q : Msg) : Bool :=
  q.run == m.run && q.spart == m.spart && q.epoch == m.epoch && q.va == m.va && q.part == m.part && msgAnswers m q

/-- The die and request that a message belongs to. -/
def State.reqOf (s : State) (m : Msg) : Option (Nat × RReq) :=
  s.dies.findSome? fun e => (((tfind e.2.reads m.tag).filter fun r => msgIsOf m r.msg).orElse fun _ =>
    (tfind e.2.tracks m.tag).filter fun r => msgIsOf m r.msg).map (e.1, ·)

/-- Mark a commit-queue entry. -/
def State.markCq (s : State) (lid i : Nat) (st : CqState) : State :=
  s.modLaunch lid fun l => { l with cq := l.cq.modify i fun e => { e with st := st } }

/-- The run that a request belongs to still runs. -/
def State.runLives (s : State) (r : RReq) : Bool :=
  match s.launch? r.launch with
  | some l => l.run == r.run && l.part == r.part && r.epoch == s.epochOf r.part
  | none => false

/-- The lanes whose bytes a message of `n` bytes from `a` carries, with their addresses, lowest lane first. -/
def lanesIn (xs : List (Nat × Nat × Nat)) (a n : Nat) : List (Nat × Nat) :=
  (xs.filter fun x => overlaps x.2.1 x.2.2 a n).map fun x => (x.1, x.2.1)

/-- The remote global address that a request names (R264). -/
def msgRga (m : Msg) : Nat := m.dst * 2 ^ 48 + m.part * 2 ^ 42 + m.va

/-- The cause that refused lanes of an instruction raise: the lowest of them, and its address (R139, R141). -/
def RReq.refusedExc (r : RReq) (lanes : List (Nat × Nat)) : Exc :=
  let x := (argmin (·.1) lanes).getD (r.site.lane, msgRga r.msg)
  { cause := exRemote, lane := x.1, addr := x.2 }

/-- Another request of the same instruction of a core awaits its answer at a router. -/
def RReq.fellow (r x : RReq) : Bool := x.core == r.core && x.batch == r.batch && x.launch == r.launch && (x.kind == 1 || x.kind == 5)

/-- What is known of an instruction's refused remote writes: while others of its messages are unanswered or held, one of them carries the lanes; with the last answer the lowest lane raises REMOTE_REFUSED (R139, R368). -/
def State.refuseLanes (s : State) (r : RReq) (lanes : List (Nat × Nat)) : State :=
  if lanes = [] then s
  else match s.dies.findSome? fun e => (e.2.tracks.find? fun x => r.fellow x.2).map fun x => (e.1, x.1) with
    | some (d, k) => s.modDie d fun x => { x with tracks := match tfind x.tracks k with
        | some q => tset x.tracks k { q with bad := q.bad ++ lanes }
        | none => x.tracks }
    | none =>
      match (s.launch? r.launch).bind fun l => l.finals.findIdx? fun f => f.core == r.core && f.batch == r.batch with
      | some i => s.modLaunch r.launch fun l => { l with finals := l.finals.modify i fun f => { f with bad := f.bad ++ lanes } }
      | none => s.raiseLate r.core r.launch r.load r.part r.site (r.refusedExc lanes)

/-- Every lane of a load has its bytes, or was refused. -/
def Load.complete (l : Load) : Bool :=
  match l.bound with
  | none => !l.remote
  | some vs => l.reads.all fun x => (vs.any fun v => v.1 == x.lane) || l.refused.contains x.lane

/-- The causes of a remote load's lanes that came poisoned or were refused (R138, R368). -/
def Load.lateErrs (l : Load) : List Exc :=
  ((l.reads.filter fun x => l.bad.contains x.lane).map fun x => TFail.uncorrectable.exc x.lane x.va) ++
  (l.reads.filter fun x => l.refused.contains x.lane).map fun x => { cause := exRemote, lane := x.lane, addr := x.va }

/-- A group of a launch that nothing has stopped awaits an outstanding result (R137, R337). -/
def State.resultGroup (s : State) (p guid lid run : Nat) (x : Site) : Option Group :=
  match s.group? ⟨p, x.sched, x.slot⟩, s.launch? lid with
  | some gr, some la => if gr.uid = guid ∧ la.run = run ∧ la.fail = none then some gr else none
  | _, _ => none

/-- A request of an outstanding remote load or atomic is refused: with the last answer of its instruction the lowest cause and lane of all raise their exception, or, where an exception has stopped the launch, nothing does (R137, R139). -/
def State.refuseLoad (s : State) (r : RReq) : State :=
  match tfind (s.core r.core).loads r.load with
  | none => s
  | some l =>
    let m : Load := { l with refused := l.refused ++ r.lanes.map (·.1) }
    if m.complete = false then s.modCore r.core fun c => { c with loads := tset c.loads r.load m }
    else
      let t := s.modCore r.core fun c => { c with loads := tdel c.loads r.load }
      match s.resultGroup r.core l.guid l.launch l.run l.site, pickExc m.lateErrs with
      | some _, some e => t.raiseLate r.core l.launch l.guid r.part l.site e
      | _, _ => t

/-- A request is refused (R349, R351, R368): at the core, in the launch's settle, in its commit queue, or at its copy engine. -/
def State.refuse (s : State) (r : RReq) : State :=
  if s.runLives r then
    match r.kind with
    | 0 => s.refuseLoad r
    | 2 => s.markCq r.launch r.load .refused
    | 3 => s.failLaunch r.launch (s.mkFail stNack (engCopy r.core))
    | 4 => s
    | _ => (s.findFail r.launch stNack).refuseLanes r (r.bad ++ r.lanes)
  else s

/-! Final writes held at their source (R250, R353). -/

/-- Two destinations may share a device: they are one device, or one is a group. The source holds no list of a group's members, so it takes every device for one: it waits longer than R250 asks, never less (log entry 73). -/
def mayShare (x y : Nat) : Bool := x == y || isGroupId x || isGroupId y

/-- A launch still has an earlier remote write on its way to a device: in a store buffer, unacknowledged, or a final write held before this one (R127, R250). -/
def State.remotePending (s : State) (lid dst : Nat) : Bool :=
  (s.cores.any fun e => e.2.sbufs.any fun b => b.2.any fun x => x.remote && x.launch == lid &&
    x.writes.any fun w => match w.tgt with
      | .remote a => mayShare (rgaDev a) dst
      | _ => false) ||
  (s.dies.any fun e => e.2.tracks.any fun r => (r.2.kind == 1 || r.2.kind == 5) && r.2.launch == lid && mayShare r.2.msg.dst dst) ||
  (match s.launch? lid with
   | some l => l.finals.any fun f => mayShare f.msg.dst dst
   | none => false)

/-- The request of a held final write, as it leaves. -/
def Launch.finalReq (l : Launch) (lid now : Nat) (f : FinalWrite) : RReq :=
  { part := l.part, epoch := f.msg.epoch, launch := lid, run := l.run, core := f.core, load := f.guid,
    dst := f.msg.dst, gt := now, kind := 5, msg := f.msg, site := f.site, lanes := f.lanes, batch := f.batch, bad := f.bad }

/-- Of refused requests, one for each instruction, with the lanes of all: they are refused together (R139). -/
def mergeFellows (rs : List RReq) : List RReq :=
  rs.foldr (fun r acc => match acc.findIdx? r.fellow with
    | some i => acc.modify i fun x => { x with lanes := r.lanes ++ x.lanes, bad := r.bad ++ x.bad }
    | none => r :: acc) []

/-- Send the held final writes of a launch whose earlier writes to the same device are acknowledged, and for which the router has an entry (R371). -/
def State.flushFinals (s : State) (lid : Nat) : State :=
  match s.launch? lid with
  | none => s
  | some l =>
    let x := l.finals.foldl (fun (a : List RReq × State) f =>
      let d := dieOfPhys f.core
      if a.2.remotePending lid f.msg.dst || !(a.2.hasSlots d 1 false) || !(a.2.roomFor d f.msg.dst 1) then
        (a.1, a.2.modLaunch lid fun x => { x with finals := x.finals ++ [f] })
      else
        let r := l.finalReq lid a.2.now f
        let u := a.2.sendReq d r false
        if u.1 then (a.1, u.2) else (a.1 ++ [r], u.2)) ([], s.modLaunch lid fun x => { x with finals := [] })
    (mergeFellows x.1).foldl (fun t r => t.refuse r) x.2

/-- A tracking entry or a record of a router is free: every launch that holds final writes tries again (R371, R379). -/
def State.flushAll (s : State) : State := (tkeys (s.launches.filter fun e => e.2.finals != [])).foldl (fun t lid => t.flushFinals lid) s

end Sys2Proof.Machine
end

