-- ==== Sys2Proof/Machine/Sync.lean ====
section
/-! DEFINITION. Semaphores (R313, R314), event words (R309 to R311) and stage channels (R207 to R212). -/

namespace Sys2Proof.Machine

/-! Semaphores. -/

def State.sem (s : State) (p n : Nat) : Sem := tget {} (s.part p).sems n
def State.setSem (s : State) (p n : Nat) (x : Sem) : State :=
  s.modPart p fun y => { y with sems := tput {} y.sems n x }

/-- What a launch acquires: semaphore and count, in ascending semaphore number; two requests for one semaphore add up (R314). -/
def Launch.wants (l : Launch) : List (Nat × Nat) :=
  if eType l.entry = tySem then [(eSem l.entry, eSemCount l.entry)]
  else if l.isWork ∧ eExt l.entry ≠ 0 then
    let a := (xSema l.ext 0, xSemaCount l.ext 0)
    let b := (xSema l.ext 1, xSemaCount l.ext 1)
    if a.2 = 0 ∧ b.2 = 0 then []
    else if a.2 = 0 then [b]
    else if b.2 = 0 then [a]
    else if a.1 = b.1 then [(a.1, a.2 + b.2)]
    else if a.1 < b.1 then [a, b] else [b, a]
  else []

/-- The launch is the oldest waiter of a semaphore whose count suffices. -/
def State.semReady (s : State) (lid : Nat) (p : Nat) (w : Nat × Nat) : Bool :=
  (s.sem p w.1).waiters.head? == some lid && decide (w.2 ≤ (s.sem p w.1).count)

/-- Join a semaphore's waiters, once. -/
def State.semJoin (s : State) (p n lid : Nat) : State :=
  let x := s.sem p n
  if x.waiters.contains lid then s else s.setSem p n { x with waiters := x.waiters ++ [lid] }

/-- Leave every semaphore that the launch waits on. -/
def State.semLeave (s : State) (p lid : Nat) : State :=
  s.modPart p fun y => { y with sems := y.sems.map fun e => (e.1, { e.2 with waiters := e.2.waiters.filter (· != lid) }) }

/-- Take everything a launch wants: a semaphore launch is done, a kernel or copy may issue. -/
def State.semTake (s : State) (p lid : Nat) (ws : List (Nat × Nat)) : State :=
  let t := ws.foldl (fun t w =>
    let x := t.sem p w.1
    t.setSem p w.1 { count := x.count - w.2, waiters := x.waiters.filter (· != lid) }) s
  t.modLaunch lid fun l =>
    if eType l.entry = tySem then { l with phase := .ended } else { l with phase := .acquired, held := ws, waitGt := t.now }

/-- Examine the oldest waiter of a semaphore, and the next, until one cannot be satisfied (R313). A launch that wants two waits on the lower-numbered first, and then on the other, keeping its place; it takes both or neither (R314). -/
def State.semServe (s : State) (p n : Nat) : Nat → State
  | 0 => s
  | fuel + 1 =>
    match (s.sem p n).waiters.head? with
    | none => s
    | some lid =>
      match s.launch? lid with
      | none => (s.semLeave p lid).semServe p n fuel
      | some l =>
        if l.wants.all (s.semReady lid p) then
          (l.wants.foldl (fun (t : State) w => if w.1 = n then t else t.semServe p w.1 fuel) (s.semTake p lid l.wants)).semServe p n fuel
        else if s.semReady lid p (l.wants.headD (0, 0)) then
          let t := l.wants.foldl (fun t w => t.semJoin p w.1 lid) s
          if l.wants.all (t.semReady lid p) then t.semServe p n fuel else t
        else s

/-- Enough examinations for all the waiters of a partition. -/
def State.semFuel (s : State) (p : Nat) : Nat :=
  2 + 2 * ((s.part p).sems.map fun e => e.2.waiters.length).foldl (· + ·) 0

/-- A release: the count saturates (R313). -/
def State.semRelease (s : State) (p n c : Nat) : State :=
  let x := s.sem p n
  let t := s.setSem p n { x with count := satAdd x.count c 0xFFFFFFFF }
  t.semServe p n (t.semFuel p)

/-- A set. -/
def State.semSet (s : State) (p n c : Nat) : State :=
  let t := s.setSem p n { s.sem p n with count := c }
  t.semServe p n (t.semFuel p)

/-- A launch begins to wait for what it wants, on its lowest-numbered semaphore. -/
def State.semBegin (s : State) (p lid : Nat) (l : Launch) : State :=
  match l.wants with
  | [] => s.modLaunch lid fun x => { x with phase := .acquired, waitGt := s.now }
  | w :: _ =>
    let t := s.semJoin p w.1 lid
    t.semServe p w.1 (t.semFuel p)

/-- Return what a launch holds (R314, R337). -/
def State.semReturn (s : State) (p lid : Nat) : State :=
  match s.launch? lid with
  | none => s
  | some l => l.held.foldl (fun t w => t.semRelease p w.1 w.2) (s.modLaunch lid fun x => { x with held := [] })

/-! Event words. -/

/-- Where an event word lies, if it meets R309: aligned, in a Normal writable page of HBM. -/
def State.eventWord (s : State) (p va : Nat) (who : Walker := .die (s.ent p).lead) : Except TFail Nat × State :=
  match s.transl p va .write who with
  | (.error f, t) => (.error f, t)
  | (.ok tr, t) =>
    match tr.tgt with
    | .hbm a =>
      if tr.mt ∨ va % 8 ≠ 0 then (.error .translation, t)
      else if t.dieSees who.home tr.tgt then (.ok a, t) else (.error .cut, t)
    | _ => (.error .translation, t)

/-- Where an event word lies by the tables as they stand. -/
def State.eventNow (s : State) (p va : Nat) : Except TFail Nat :=
  match s.translNow p va .write with
  | .error f => .error f
  | .ok tr =>
    match tr.tgt with
    | .hbm a => if tr.mt = false ∧ va % 8 = 0 then .ok a else .error .translation
    | _ => .error .translation

/-- A record is an atomic maximum at the word's home slice (R310). -/
def State.eventMax (s : State) (p a v : Nat) : State :=
  (s.writeMem a (leBytes 8 (max (leNat (s.bytes a 8)) v))).l2Touch p a 8 true 3

/-! Stage channels. -/

def State.stageChan (s : State) (p c : Nat) : StageChan := tget {} (s.part p).chans c
def State.setStageChan (s : State) (p c : Nat) (x : StageChan) : State :=
  s.modPart p fun y => { y with chans := tput {} y.chans c x }

/-- SRC, DST and LOG2DEPTH of a channel of a partition (R204). -/
def State.chanEnt (s : State) (p c : Nat) : Option (Nat × Nat × Nat) := (s.ent p).chans[c]?

/-- The push page that an address lies in. -/
def pushPage (va : Nat) : Option Nat :=
  if 0x3FFFFE00000 ≤ va ∧ va < 0x3FFFFF00000 then some ((va - 0x3FFFFE00000) / 4096) else none
/-- The claim page. -/
def inClaimPage (va : Nat) : Bool := decide (0x3FFFFF00000 ≤ va ∧ va < 0x3FFFFF01000)

/-- The die that a channel's buffer is homed on (R205). -/
def bufDie (e : PartEnt) (dst : Nat) : Nat :=
  dieOfSet ((bitsSet (e.stages.getD dst (0, false)).1 64).headD 0)

/-- Push one item from a core of die `d`, if a slot is free, no other launch owns the channel (R208, R209), and the stream plane reaches the buffer (R26, R205). -/
def State.pushOne (s : State) (d p lid c : Nat) (item : List Byte) : Option State :=
  match s.chanEnt p c with
  | none => none
  | some (_, dst, lg) =>
    let x := s.stageChan p c
    if x.items.length < 2 ^ lg ∧ (x.producer = none ∨ x.producer = some lid) ∧ (s.travels s.d2d .stageItem d (bufDie (s.ent p) dst)).isSome = true then
      some ((s.setStageChan p c { x with items := x.items ++ [{ data := item, src := some lid }], producer := some lid }).modLaunch lid
        fun l => { l with pushed := tset l.pushed c (tget 0 l.pushed c + 1) })
    else none

/-- Push items in order until one must wait; what is left. -/
def State.pushAll (s : State) (d p lid : Nat) : List (Nat × List Byte) → List (Nat × List Byte) × State
  | [] => ([], s)
  | (c, item) :: rest =>
    match s.pushOne d p lid c item with
    | some t => t.pushAll d p lid rest
    | none => ((c, item) :: rest, s)

end Sys2Proof.Machine
end

