-- ==== Sys2Proof/Machine/Digest.lean ====
section
/-! DEFINITION. Digests (R420) and the write digests of paired launches (R424 to R426). -/

namespace Sys2Proof.Machine

/-- CRC-64/ECMA-182: one bit, most significant first. -/
def crcBit (c : Word64) : Word64 := if c.msb then (c <<< 1) ^^^ 0x42F0E1EBA9EA3693 else c <<< 1
/-- One byte. -/
def crcByte (c : Word64) (b : Byte) : Word64 :=
  crcBit (crcBit (crcBit (crcBit (crcBit (crcBit (crcBit (crcBit (c ^^^ (b.zeroExtend 64 <<< 56)))))))))
/-- CRC-64 of bytes, from 0, without a final XOR. -/
def crc64 (bs : List Byte) : Word64 := bs.foldl crcByte 0

/-- Lanes A and B of one line (R420). -/
def lineLanes (salt va : Nat) (bs : List Byte) : Word64 × Word64 :=
  (crc64 (leBytes 8 va ++ bs), crc64 (leBytes 8 (Nat.xor va salt) ++ bs.reverse))

/-- Lanes A and B of one write record (R426). -/
def recordLanes (salt addr : Nat) (bs : List Byte) : Word64 × Word64 :=
  (crc64 (leBytes 8 addr ++ leBytes 2 bs.length ++ bs),
   crc64 (leBytes 8 (Nat.xor addr salt) ++ leBytes 2 bs.length ++ bs.reverse))

/-- The core sets of a stage, as the chart gives them. -/
def State.chartSets (s : State) (p st : Nat) : List Nat := bitsSet ((s.ent p).stages.getD st (0, false)).1 64

/-- The core set of a physical core. -/
def State.setOf (s : State) (p : Nat) : Option Nat := (s.logOf p).map (· / 24)

/-- Whether a core lies in run B's half of a stage: the sets after the first ceil(k/2) (R424). -/
def State.inHalfB (s : State) (part st core : Nat) : Bool :=
  let sets := s.chartSets part st
  match s.setOf core with
  | some k => (sets.drop ((sets.length + 1) / 2)).contains k
  | none => false

/-- Fold a record into the write digest of its run; a launch that is not paired keeps none. -/
def Launch.fold (l : Launch) (halfB : Bool) (salt addr : Nat) (bs : List Byte) (gt : Nat) : Launch :=
  match l.pair with
  | none => l
  | some q =>
    let r := recordLanes salt addr bs
    { l with pair := some (if halfB then { q with bA := q.bA + r.1, bB := q.bB + r.2, gt := gt } else { q with aA := q.aA + r.1, aB := q.aB + r.2, gt := gt }) }

/-- Fold one record of a block's run. -/
def State.foldRec (s : State) (lid : Nat) (b : Block) (addr : Nat) (bs : List Byte) : State :=
  match s.launch? lid with
  | some l => if l.pair.isSome then s.setLaunch lid (l.fold b.half (s.reg64 (digSalt l.part)) addr bs s.now) else s
  | none => s

/-- Fold several. -/
def State.foldRecs (s : State) (lid : Nat) (b : Block) (rs : List (Nat × List Byte)) : State :=
  rs.foldl (fun t r => t.foldRec lid b r.1 r.2) s

end Sys2Proof.Machine
end

