-- ==== Sys2Proof/Machine/MemLocal.lean ====
section
/-! DEFINITION. Local store and cluster windows (R90, R91, R100 to R102, R123 to R125), atomic operations (R128, R129) and the acquire and release orders (R239). -/

namespace Sys2Proof.Machine

/-! Values. -/

/-- SX of a load. -/
def fSx (w : Word64) : Bool := getBits (fMod w) 3 1 == 1

/-- A loaded value: sign-extended with SX, otherwise zero-extended (R123). -/
def loadValue (width : Nat) (sx : Bool) (bs : List Byte) : Nat :=
  let v := leNat bs
  if sx then intBits 32 (signedOf (8 * width) v) else v

/-- Write a loaded value to its destination registers in one lane. -/
def Group.setDest (gr : Group) (d : Dest) (lane : Nat) (bs : List Byte) : Group :=
  gr.wr lane d.unif d.reg (regsFor d.width) (loadValue d.width d.sx bs)

/-- The destination of a load. -/
def destOf (w : Word64) (width : Nat) (sx : Bool) : Dest := { reg := fD w, unif := fDU w, width := width, sx := sx }

/-- The bytes that a lane stores. -/
def Group.storeData (gr : Group) (w : Word64) (lane width : Nat) : List Byte :=
  leBytes width (gr.rdB w lane (regsFor width))

/-- An atomic operation of R128 on `n` bits: the new value, or none where cas finds the word unequal. `b` is the operand, `b2` the new value of cas. -/
def atomOp (op n old b b2 : Nat) : Option Nat :=
  match op with
  | 0 => some ((old + b) % 2 ^ n)
  | 1 => some (if signedOf n old ≤ signedOf n b then old else b)
  | 2 => some (min old b)
  | 3 => some (if signedOf n old ≤ signedOf n b then b else old)
  | 4 => some (max old b)
  | 5 => some (Nat.land old b)
  | 6 => some (Nat.lor old b)
  | 7 => some (Nat.xor old b)
  | 8 => some b
  | 9 => if old = b then some b2 else none
  | _ => some (fpArith .f32 0 .ne old b 0).1 -- fadd: no group's FPSTAT shows its flags (log entry 71)

/-- The operation of an ATOM word. -/
def fAtom (w : Word64) : Nat := fMod w % 16
/-- A returning atomic. -/
def atomReturns (w : Word64) : Bool := getBits (fSub w) 2 1 == 1
/-- The operands of an atomic in a lane: the value, and cas's new value. -/
def Group.atomB (gr : Group) (w : Word64) (lane : Nat) : Nat × Nat :=
  let n := atomWidth w / 4
  let v := gr.rdB w lane (if fAtom w = 9 then 2 * n else n)
  (v % 2 ^ (32 * n), v / 2 ^ (32 * n))

/-! Order (R239). -/

/-- The group makes its next access, or waits for what orders it: in the pending set for results, cluster windows and remote accesses, in the active set for anything else (R77, R239). -/
def State.access (s : State) (g : GRef) (c : Ctx) (w : Word64) (ordered : Bool) (k : State → State) : State :=
  match s.accessWait g c.gr.uid w ordered with
  | none => k s
  | some .none => s
  | some x => s.park g x (.access w ordered)

/-- What an acquire does once performed: at cluster scope or wider L1 is dropped. -/
def State.acquired (s : State) (p scope : Nat) : State := if scope = 0 then s else s.dropL1 p

/-! The local store. -/

/-- One byte of a block's local store (R86). -/
def Block.byte (b : Block) (off : Nat) : Byte := (mget? b.ls off).getD (Config.localInit b.uid off)
def Block.bytes (b : Block) (off n : Nat) : List Byte := (upTo n).map fun i => b.byte (off + i)

/-- A block of a core. -/
def State.blockAt (s : State) (p slot : Nat) : Option Block := tfind (s.core p).blocks slot

/-- Write a block's local store; reservations on the granules are lost (R131). -/
def State.lsWrite (s : State) (p slot off : Nat) (bs : List Byte) : State :=
  match s.blockAt p slot with
  | none => s
  | some b =>
    if bs = [] then s
    else s.modCore p fun c =>
      ({ c with blocks := tset c.blocks slot { b with ls := msetBytes b.ls off bs } }).breakResv
        fun gr _ r => gr.block == slot && r.isLocal && overlaps off bs.length (r.granule * r.size) r.size

/-- Read a block's local store. -/
def State.lsRead (s : State) (p slot off n : Nat) : List Byte :=
  match s.blockAt p slot with
  | some b => b.bytes off n
  | none => []

/-- An atomic on a block's local store: the old bytes, and the state after. -/
def State.lsAtomic (s : State) (p slot off n op b b2 : Nat) : List Byte × State :=
  let old := s.lsRead p slot off n
  match atomOp op (8 * n) (leNat old) b b2 with
  | some v => (old, s.lsWrite p slot off (leBytes n v))
  | none => (old, s)

/-! The address-range tracker (R235, R179). -/

/-- Where a byte stands in the tracker: HBM, host memory, or the local store of a block. -/
def Target.key : Target → Nat
  | .hbm a => a
  | .host _ _ a => 2 ^ 64 + a
  | .remote a => 2 ^ 65 + a
def localKey (slot off : Nat) : Nat := 2 ^ 70 + 2 ^ 20 * slot + off

/-- Take a tracker entry; its number is the core's next. -/
def State.track (s : State) (p : Nat) (x : Track) : Nat × State :=
  ((s.core p).nextId, s.modCore p fun c => { c with art := tset c.art c.nextId x, nextId := c.nextId + 1 })

/-- Free a tracker entry; those that waited for it try again. -/
def State.untrack (s : State) (p id : Nat) : State :=
  ((s.modCore p fun c => { c with art := tdel c.art id }).wakeAll p .load).wakeAll p .residency

/-- A local access waits, in the active set (R77), for a fill or drain that touches its bytes. -/
def State.localBusy (s : State) (g : GRef) (slot width : Nat) (isWrite : Bool) (eas : List (Nat × Nat)) : Bool :=
  (s.core g.core).trackHit isWrite (eas.map fun e => (localKey slot e.2, width))

/-- The causes of a lane's local access (R124, R125). -/
def localErrs (b : Block) (width lane ea : Nat) : List Exc :=
  (if ea % width = 0 then [] else [{ cause := exMisaligned, lane := lane, addr := ea }]) ++
  (if ea + width ≤ b.lsBytes then [] else [{ cause := exSpace, lane := lane, addr := ea }])

/-- Replay beats of a local access (R91): in each phase, one for each way of the fullest bank beyond the first. -/
def replayBeats (width : Nat) (eas : List (Nat × Nat)) : Nat :=
  let phases := if width = 16 then 4 else if width = 8 then 2 else 1
  let span := 32 / phases
  let beats (j : Nat) : Nat :=
    let ws := ((eas.filter fun e => e.1 / span == j).flatMap fun e => (upTo ((e.2 % 4 + width + 3) / 4)).map (e.2 / 4 + ·)).dedup
    ((upTo 32).map fun k => (ws.filter fun x => x % 32 == k).length - 1).foldl max 0
  ((upTo phases).map beats).foldl (· + ·) 0

/-- The lanes of a memory instruction with their effective addresses. -/
def Group.eas (gr : Group) (w : Word64) : List (Nat × Nat) := (gr.lanes w).map fun l => (l, gr.ea w l)

/-- A local access issues, counting its replays. -/
def State.issuedLocal (s : State) (g : GRef) (c : Ctx) (width : Nat) (eas : List (Nat × Nat)) : State :=
  let n := replayBeats width eas
  if n = 0 then s.issued g c else (s.issued g c).pmEvent g.core evReplay c.la.part n

/-- LD_LOCAL (R91, R124, R125). -/
def State.rowLdLocal (s : State) (g : GRef) (w : Word64) : State :=
  s.issue g w fun c t =>
    let n := widthOf w
    let eas := c.gr.eas w
    t.access g c w false fun t =>
      t.orRaise g c w (eas.flatMap fun e => localErrs c.blk n e.1 e.2) fun t =>
        if t.localBusy g c.gr.block n false eas then t
        else (t.issuedLocal g c n eas).retire g
          (eas.foldl (fun a e => a.setDest (destOf w n (fSx w)) e.1 (c.blk.bytes e.2 n)) c.gr)

/-- ST_LOCAL: the lanes store in ascending order (R91, R125). -/
def State.rowStLocal (s : State) (g : GRef) (w : Word64) : State :=
  s.issue g w fun c t =>
    let n := widthOf w
    let eas := c.gr.eas w
    t.access g c w false fun t =>
      t.orRaise g c w (eas.flatMap fun e => localErrs c.blk n e.1 e.2) fun t =>
        if t.localBusy g c.gr.block n true eas then t
        else eas.foldl (fun u e => u.lsWrite g.core c.gr.block e.2 (c.gr.storeData w e.1 n))
          ((t.issuedLocal g c n eas).retire g c.gr)

/-- RMW_LOCAL: performed as it issues, lanes in ascending order (R128, R130). -/
def State.rowRmwLocal (s : State) (g : GRef) (w : Word64) : State :=
  s.issue g w fun c t =>
    let n := atomWidth w
    let eas := c.gr.eas w
    t.access g c w true fun t =>
      t.orRaise g c w (eas.flatMap fun e => localErrs c.blk n e.1 e.2) fun t =>
        if t.localBusy g c.gr.block n true eas then t else
        let u := t.issuedLocal g c n eas
        let r := eas.foldl (fun (a : Group × State) e =>
          let b := c.gr.atomB w e.1
          let x := a.2.lsAtomic g.core c.gr.block e.2 n (fAtom w) b.1 b.2
          (if atomReturns w then a.1.setDest (destOf w n false) e.1 x.1 else a.1, x.2)) (c.gr, u)
        let v := r.2.modGroup g fun x => { r.1 with resv := x.resv }.next
        if fAcquire w then v.acquired g.core (fScope w) else v

/-! Cluster windows (R100 to R102). -/

/-- The block of a rank of the group's cluster, and its core and slot. -/
def State.ranked (s : State) (b : Block) (rank : Nat) : Option (Nat × Nat × Block) :=
  (s.cluster b).find? fun m => m.2.2.num % m.2.2.csize == rank

/-- The causes of a lane's cluster access (R100, R138). R100 gives the address 22 bits and R124 a base of 32; of one with a bit above them set the spec says nothing: that it names a rank no cluster has, and raises SPACE_RANGE, is the model's (DESIGN CHOICE, log entry 101). -/
def State.clusterErrs (s : State) (b : Block) (width lane ea : Nat) : List Exc :=
  (if ea % width = 0 then [] else [{ cause := exMisaligned, lane := lane, addr := ea }]) ++
  (match if ea / 2 ^ 18 < b.csize then s.ranked b (ea / 2 ^ 18) else none with
   | some m => if ea % 2 ^ 18 + width ≤ m.2.2.lsBytes then [] else [{ cause := exSpace, lane := lane, addr := ea }]
   | none => [{ cause := exSpace, lane := lane, addr := ea }])

/-- Bytes of a cluster-window access that lie in the core's own local store, and are in the tracker for a fill or drain (R179): the access waits in the active set, as a local one does. -/
def State.windowBusy (s : State) (g : GRef) (b : Block) (width : Nat) (isWrite : Bool) (eas : List (Nat × Nat)) : Bool :=
  (s.core g.core).trackHit isWrite (eas.filterMap fun e => match s.ranked b (e.2 / 2 ^ 18) with
    | some m => if m.1 = g.core then some (localKey m.2.1 (e.2 % 2 ^ 18), width) else none
    | none => none)

/-- A cluster-window request: the group waits where no response slot is free (R102). `kind` as in `CReq`. The spec does not say whether an instruction or a lane is a request: that an instruction is one, with one slot for all its lanes, is the model's (DESIGN CHOICE, log entry 72). -/
def State.clusterIssue (s : State) (g : GRef) (w : Word64) (kind op n : Nat) (sx ordered : Bool) (data : Group → Nat → List Byte) : State :=
  s.issue g w fun c t =>
    let eas := c.gr.eas w
    t.access g c w ordered fun t =>
      t.orRaise g c w (eas.flatMap fun e => t.clusterErrs c.blk n e.1 e.2) fun t =>
        if eas = [] then (t.issued g c).retire g c.gr
        else if t.windowBusy g c.blk n (kind != 0) eas then t
        else if (t.core g.core).creqs.length < 64 then
          let lanes := eas.filterMap fun e => (t.ranked c.blk (e.2 / 2 ^ 18)).map fun m =>
            ({ lane := e.1, core := m.1, slot := m.2.1, block := m.2.2.uid, off := e.2 % 2 ^ 18, data := data c.gr e.1 } : CLane)
          let r : CReq := {
            guid := c.gr.uid
            site := ⟨g.sched, g.slot, c.gr.low, c.gr.pc, w⟩
            launch := c.lid
            run := c.gr.run
            kind := kind
            op := op
            width := n
            lanes := lanes
            dest := destOf w n sx
            acq := if ordered && fAcquire w then some (fScope w) else none }
          ((t.issued g c).modCore g.core fun k => { k with creqs := tset k.creqs k.nextId r, nextId := k.nextId + 1 }).retire g c.gr
        else t.park g .cluster .slot

/-- LD_CLUSTER (R100). -/
def State.rowLdCluster (s : State) (g : GRef) (w : Word64) : State :=
  s.clusterIssue g w 0 0 (widthOf w) (fSx w) false fun _ _ => []

/-- ST_CLUSTER (R100). -/
def State.rowStCluster (s : State) (g : GRef) (w : Word64) : State :=
  s.clusterIssue g w 1 0 (widthOf w) false false fun gr l => gr.storeData w l (widthOf w)

/-- RMW_CLUSTER (R100, R101, R128). -/
def State.rowRmwCluster (s : State) (g : GRef) (w : Word64) : State :=
  s.clusterIssue g w (if atomReturns w then 2 else 3) (fAtom w) (atomWidth w) false true fun gr l =>
    leBytes (2 * atomWidth w) ((gr.atomB w l).1 + (gr.atomB w l).2 * 2 ^ (8 * atomWidth w))

/-- Two requests touch the same bytes of one block. -/
def CReq.meets (a b : CReq) : Bool :=
  a.lanes.any fun x => b.lanes.any fun y => x.core == y.core && x.slot == y.slot && x.block == y.block && overlaps x.off a.width y.off b.width

/-- Serve one lane at its target's local store, while the block it names is there: what a group that has exited still sent reaches no block that took the slot after its cluster had ended (R99, R101). -/
def State.serveLane (s : State) (r : CReq) (x : CLane) : List Byte × State :=
  if (s.blockAt x.core x.slot).map (·.uid) ≠ some x.block then ([], s)
  else match r.kind with
  | 0 => (s.lsRead x.core x.slot x.off r.width, s)
  | 1 => ([], s.lsWrite x.core x.slot x.off x.data)
  | _ => s.lsAtomic x.core x.slot x.off r.width r.op (numAt x.data 0 r.width) (numAt x.data r.width r.width)

/-- Serve a request of a core, which travels on the request plane and its response on the response plane (R32, R102); earlier requests of the group to the same bytes go first (R101). -/
def State.serveCluster (s : State) (p id : Nat) : State :=
  match tfind (s.core p).creqs id with
  | none => s
  | some r =>
    if r.served.isSome || ((s.core p).creqs.any fun e => decide (e.1 < id) && e.2.served.isNone && e.2.guid == r.guid && e.2.meets r) ||
        (r.lanes.any fun x => !s.crosses s.d2d .clusterRequest .clusterResponse (dieOfPhys p) (dieOfPhys x.core)) then s
    else
      let x := r.lanes.foldl (fun (a : List (Nat × List Byte) × State) l =>
        let y := a.2.serveLane r l
        (a.1 ++ [(l.lane, y.1)], y.2)) ([], s)
      let t := x.2.modCore p fun c => { c with creqs := tset c.creqs id { r with served := some x.1 } }
      match r.acq with
      | some scope => t.acquired p scope
      | none => t

/-- CLUSTER_REQUEST_SERVE (R101, R102); the request is named by its issuing core. -/
def execClusterRequestServe (core id : Nat) (s : State) : Host.Outcome State Fault Refusal :=
  withUnit (okCore core) (s.serveCluster core id)

/-- Write late results into the group's registers. -/
def State.giveResults (s : State) (p guid lid run : Nat) (x : Site) (d : Dest) (vals : List (Nat × List Byte)) : State :=
  match s.resultGroup p guid lid run x with
  | some gr => s.setGroup ⟨p, x.sched, x.slot⟩ (vals.foldl (fun a v => a.setDest d v.1 v.2) gr)
  | none => s

/-- A response returns: its slot is free, and the group has its values. -/
def State.clusterReturn (s : State) (p id : Nat) : State :=
  match tfind (s.core p).creqs id with
  | some r =>
    match r.served with
    | some vals =>
      let t := s.modCore p fun c => { c with creqs := tdel c.creqs id }
      let u := if r.kind = 0 ∨ r.kind = 2 then t.giveResults p r.guid r.launch r.run r.site r.dest vals else t
      u.wakeAll p .cluster
    | none => s
  | none => s

/-- CLUSTER_RESPONSE (R102). -/
def execClusterResponse (core id : Nat) (s : State) : Host.Outcome State Fault Refusal :=
  withUnit (okCore core) (s.clusterReturn core id)

end Sys2Proof.Machine
end

