-- ==== Sys2Proof/Machine/MemGlobal.lean ====
section
/-! DEFINITION. Global memory from the cores: loads, stores, pushes, claims, L1, store buffers and the tracker (R123 to R126, R206 to R208, R224, R228 to R236), atomics and ll/sc in global memory (R128 to R131, R244), and deferred operations (R134 to R136, R345). -/

namespace Sys2Proof.Machine

/-! Addresses. -/

/-- One lane's address and where it is. -/
structure LaneAt where
  lane : Nat
  va   : Nat
  tr   : Tr
  deriving DecidableEq, Repr

/-- Translate the lanes' addresses in ascending lane order: those that succeed, and the causes of the others (R124, R125, R229). -/
def State.translLanes (s : State) (core p width : Nat) (acc : TAcc) : List (Nat × Nat) → (List LaneAt × List Exc) × State
  | [] => (([], []), s)
  | (lane, va) :: rest =>
    let mis : List Exc := if va % width = 0 then [] else [{ cause := exMisaligned, lane := lane, addr := va }]
    match s.transl p va acc (.core core) with
    | (.error f, t) =>
      let r := t.translLanes core p width acc rest
      ((r.1.1, mis ++ f.exc lane va :: r.1.2), r.2)
    | (.ok tr, t) =>
      let r := t.translLanes core p width acc rest
      let strictBad : List Exc := if tr.mt ∧ width = 16 then [{ cause := exMisaligned, lane := lane, addr := va }] else []
      (({ lane := lane, va := va, tr := tr } :: r.1.1, mis ++ strictBad ++ r.1.2), r.2)

/-- The spans that lanes touch. -/
def spansOf (width : Nat) (ls : List LaneAt) : List (Nat × Nat) := ls.map fun x => (x.tr.tgt.key, width)

/-- The group has a Device-Strict access that is not acknowledged (R230). -/
def State.strictPending (s : State) (g : GRef) (uid : Nat) : Bool :=
  ((tget [] (s.core g.core).sbufs (gkey g.sched g.slot)).any fun e => e.guid == uid && e.strict) ||
  ((s.core g.core).art.any fun e => e.2.guid == uid && e.2.strict)

/-- A Device-Strict access waits for the group's earlier one: for a read's result in the pending set, for a write in the active set (R77, R230). -/
def State.strictWait (s : State) (g : GRef) (uid : Nat) : State := if (s.core g.core).strictRead uid then s.park g .load .strict else s

/-- The site of an instruction. -/
def Ctx.site (c : Ctx) (g : GRef) (w : Word64) : Site := ⟨g.sched, g.slot, c.gr.low, c.gr.pc, w⟩

/-! Output windows (R340, R341). -/

def Win.has (x : Win) (remote : Bool) (a : Nat) : Bool :=
  x.len != 0 && x.remote == remote &&
  if remote then x.base / 2 ^ 42 == a / 2 ^ 42 && decide (x.base % 2 ^ 42 ≤ a % 2 ^ 42 ∧ a % 2 ^ 42 < x.base % 2 ^ 42 + x.len)
  else decide (x.base ≤ a ∧ a < x.base + x.len)

/-- Every byte lies in some window. -/
def Launch.inWindows (l : Launch) (remote : Bool) (a n : Nat) : Bool :=
  (upTo n).all fun i => l.wins.any fun x => x.has remote (a + i)

def windowErrs (l : Launch) (remote : Bool) (n : Nat) (eas : List (Nat × Nat)) : List Exc :=
  eas.filterMap fun e => if l.inWindows remote e.2 n then none else some { cause := exWindow, lane := e.1, addr := e.2 }

/-! L1 (R84, R232). -/

/-- The address lies in a line of the launch's parameter block, of which the spec gives no length: the 4 KiB from PARAM that R342 keeps clear of windows (log entry 74). -/
def Launch.inParam (l : Launch) (va : Nat) : Bool := decide (l.param / 128 ≤ va / 128 ∧ va / 128 ≤ (l.param + 4095) / 128)

/-- L1 may hold the lines of a launch's load: any in CACHED mode, the parameter block's alone in EXPLICIT mode (R231, R232), while the split leaves room for it (R84). -/
def State.l1On (s : State) (p : Nat) (la : Launch) (ls : List LaneAt) : Bool :=
  ((s.ent la.part).cached || ls.all fun x => la.inParam x.va) && decide ((s.core p).split < 4)
/-- Sets of a core's L1. -/
def Core.l1Sets (c : Core) : Nat := (256 - 64 * c.split) / 2

/-- Bytes of a line that L1 holds. -/
def Core.l1Read (c : Core) (a n : Nat) : Option (List Byte) := (tfind c.l1 (a / 128)).map fun bs => slice bs (a % 128) n

/-- A store updates the core's copy of its line (R232, R236). -/
def State.l1Update (s : State) (p a : Nat) (bs : List Byte) : State :=
  s.modCore p fun c => { c with l1 := c.l1.map fun e =>
    (e.1, if e.1 = a / 128 then patchBytes e.2 (a % 128) bs else e.2) }

/-- A core's copies follow an access of its own that was performed at the home slice (R236). -/
def State.l1Refresh (s : State) (p n : Nat) (ls : List LaneAt) : State :=
  ls.foldl (fun t x => match x.tr.tgt with
    | .hbm a => t.l1Update p a (t.bytes a n)
    | _ => t) s

/-- The bytes of a write laid over those of a line. -/
def patchLine (line : Nat) (bs : List Byte) (a : Nat) (data : List Byte) : List Byte :=
  (upTo bs.length).map fun i => if a ≤ 128 * line + i ∧ 128 * line + i < a + data.length then data.getD (128 * line + i - a) 0 else bs.getD i 0

/-- A line as its core has it: the home slice's bytes, under the core's own stores that have left their buffers and are not performed (R236). -/
def State.lineFor (s : State) (p line : Nat) : List Byte :=
  (((s.core p).art.filter fun e => e.2.isWrite).flatMap fun e => e.2.writes).foldl (fun bs w => match w.tgt with
    | .hbm a => patchLine line bs a w.data
    | _ => bs) (s.bytes (128 * line) 128)

/-- The group still holds a store to some of these bytes in its buffer (R234, R236, R239). -/
def State.bufferedHit (s : State) (g : GRef) (uid : Nat) (spans : List (Nat × Nat)) : Bool :=
  (tget [] (s.core g.core).sbufs (gkey g.sched g.slot)).any fun e => e.guid == uid && !e.remote &&
    spansHit spans (e.writes.map fun w => (w.tgt.key, w.data.length))

/-- Allocate a line. The spec gives L1 a number of sets and does not say in which a line lies: that it is the physical line number modulo that number is the model's (DESIGN CHOICE, log entry 105); which line of a full set leaves is a free choice (log entry 15). -/
def State.l1Fill (s : State) (p line : Nat) (bs : List Byte) : State :=
  let c := s.core p
  let n := c.l1Sets
  let inSet := (tkeys c.l1).filter fun l => l % n == line % n
  if (tfind c.l1 line).isSome ∨ inSet.length < 16 then s.setCore p { c with l1 := tset c.l1 line bs }
  else
    let r := s.freeNat
    let v := inSet.getD (r.1 % inSet.length) 0
    r.2.setCore p { c with l1 := tset (tdel c.l1 v) line bs }

/-! Claims (R224). -/

/-- One claim of a block: the tile index, or all ones. -/
def State.claim (s : State) (p slot : Nat) : Nat × State :=
  match s.blockAt p slot with
  | none => (0xFFFFFFFF, s)
  | some b =>
    if b.head < b.tail then
      (b.head, (s.modCore p fun c => { c with blocks := tset c.blocks slot { b with head := b.head + 1 } }).pmEvent p evClaim
        (match s.launch? b.launch with
         | some l => l.part
         | none => 0) 1)
    else (0xFFFFFFFF, s)

/-- The claims of lanes, in ascending order. -/
def State.claims (s : State) (p slot : Nat) (d : Dest) (gr : Group) (lanes : List Nat) : Group × State :=
  lanes.foldl (fun (a : Group × State) l =>
    let r := a.2.claim p slot
    (a.1.setDest d l (leBytes 4 r.1), r.2)) (gr, s)

/-! Loads. -/

/-- What the store buffer does with a load (R234). -/
inductive Forward where
  | none
  | data (vals : List (Nat × List Byte))
  | wait
  deriving DecidableEq, Repr

/-- A buffered write of some lane touches a read. -/
def Sbuf.touches (e : Sbuf) (x : LaneAt) (n : Nat) : Bool :=
  e.writes.any fun w => overlaps w.tgt.key w.data.length x.tr.tgt.key n

/-- Forward from the group's store buffer when every lane's bytes are held wholly in one buffered store of that lane; wait when some are held otherwise. -/
def forward (sb : List Sbuf) (n : Nat) (ls : List LaneAt) : Forward :=
  let one (x : LaneAt) : Option (Nat × List Byte) :=
    match (sb.filter fun e => e.touches x n).getLast? with
    | none => none
    | some e =>
      match (e.writes.filter fun w => overlaps w.tgt.key w.data.length x.tr.tgt.key n).getLast? with
      | some w =>
        if w.lane = x.lane ∧ w.tgt.key ≤ x.tr.tgt.key ∧ x.tr.tgt.key + n ≤ w.tgt.key + w.data.length then
          some (x.lane, slice w.data (x.tr.tgt.key - w.tgt.key) n)
        else none
      | none => none
  if ls.all fun x => !sb.any fun e => e.touches x n then .none
  else if ls.any (·.tr.mt) then .wait
  else
    let vs := ls.filterMap one
    if vs.length = ls.length then .data vs else .wait

/-- The L1 bytes of every lane, if L1 holds them all. -/
def Core.l1Hits (c : Core) (n : Nat) (ls : List LaneAt) : Option (List (Nat × List Byte)) :=
  ls.mapM fun x => match x.tr.tgt with
    | .hbm a => (c.l1Read a n).map (x.lane, ·)
    | _ => none

/-- Ask L2 for the lines of an access to HBM. -/
def State.touchLanes (s : State) (part n : Nat) (isWrite : Bool) (cls : Nat) (evict : Bool) (ls : List LaneAt) : State :=
  ((ls.filterMap fun x => match x.tr.tgt with
    | .hbm a => some (a / 128 * 128)
    | _ => none).dedup).foldl (fun t a => t.l2Touch part a (min n 128) isWrite cls evict) s

/-- A load that goes to its home slice: a tracker entry and an outstanding load (R235). -/
def State.sendLoad (s : State) (g : GRef) (c : Ctx) (w : Word64) (n : Nat) (ls : List LaneAt) (gr : Group) (alloc lcr : Bool) : State :=
  let tr := s.track g.core { guid := c.gr.uid, launch := c.lid, run := c.gr.run, part := c.la.part, isWrite := false, spans := spansOf n ls, strict := ls.any (·.tr.mt) }
  let l : Load := {
    guid := c.gr.uid
    site := c.site g w
    launch := c.lid
    run := c.gr.run
    reads := ls.map fun x => { lane := x.lane, va := x.va, tgt := x.tr.tgt, width := n }
    dest := destOf w n (fSx w)
    track := some tr.1
    alloc := alloc
    lcr := lcr
    cut := s.d2d }
  (((tr.2.modCore g.core fun k => { k with loads := tset k.loads k.nextId l, nextId := k.nextId + 1 }).touchLanes c.la.part n false
    (if lcr then 2 else 3) (getBits (fMod w) 4 2 == 2) ls).retire g gr)

/-- LD_GLOBAL after its checks. -/
def State.loadGlobal (s : State) (g : GRef) (c : Ctx) (w : Word64) (n : Nat) (claims : List Nat) (ls : List LaneAt) : State :=
  let strict := ls.any (·.tr.mt)
  let cacheable := s.l1On g.core c.la ls && !strict && (getBits (fMod w) 4 2 == 0 || getBits (fMod w) 4 2 == 2)
  let park (t : State) : State := t.park g .load (.tracker false (spansOf n ls))
  let finish (t : State) (gr : Group) : State := t.retire g gr
  if strict && s.strictPending g c.gr.uid then s.strictWait g c.gr.uid
  else
    match forward ((tget [] (s.core g.core).sbufs (gkey g.sched g.slot)).filter fun e => e.guid == c.gr.uid && !e.remote) n ls with
    | .wait => s
    | .data vs =>
      let r := (s.issued g c).claims g.core c.gr.block (destOf w n false) c.gr claims
      finish r.2 (vs.foldl (fun a v => a.setDest (destOf w n (fSx w)) v.1 v.2) r.1)
    | .none =>
      if (s.core g.core).trackHit false (spansOf n ls) then park s
      else match if cacheable then (s.core g.core).l1Hits n ls else none with
      | some vs =>
        if (s.core g.core).olderRead (s.core g.core).nextId (spansOf n ls) then park s else
        let t := if ls = [] then s.issued g c else (s.issued g c).pmEvent g.core evL1Hit c.la.part 1
        let r := t.claims g.core c.gr.block (destOf w n false) c.gr claims
        finish r.2 (vs.foldl (fun a v => a.setDest (destOf w n (fSx w)) v.1 v.2) r.1)
      | none =>
        if ls = [] then
          let r := (s.issued g c).claims g.core c.gr.block (destOf w n false) c.gr claims
          finish r.2 r.1
        else if (s.core g.core).trackFull then park s
        else
          let t := if cacheable then (s.issued g c).pmEvent g.core evL1Miss c.la.part 1 else s.issued g c
          let r := t.claims g.core c.gr.block (destOf w n false) c.gr claims
          r.2.sendLoad g c w n ls r.1 cacheable (getBits (fMod w) 6 1 == 1)

/-- LD_GLOBAL (R124, R125, R224, R227, R234). -/
def State.rowLdGlobal (s : State) (g : GRef) (w : Word64) : State :=
  s.issue g w fun c t =>
    t.access g c w false fun t =>
      let n := widthOf w
      let eas := c.gr.eas w
      let isClaim (e : Nat × Nat) : Bool := inClaimPage e.2 && n == 4 && e.2 % 4 == 0
      let r := t.translLanes g.core c.la.part n .read (eas.filter fun e => !isClaim e)
      r.2.orRaise g c w r.1.2 fun u => u.loadGlobal g c w n ((eas.filter isClaim).map (·.1)) r.1.1

/-- Bytes of an outstanding load: those bound already, or what its home slice or the host port gives now. -/
def State.bindReads (s : State) : List LaneRead → List (Nat × List Byte) × State
  | [] => ([], s)
  | x :: xs =>
    let r := s.readAt x.tgt x.width
    let q := r.2.bindReads xs
    ((x.lane, r.1) :: q.1, q.2)

/-- A read that cannot be given: a retired channel, or poison of a line or of a completion (R262, R396, R416). -/
def State.readErrs (s : State) (xs : List LaneRead) : List Exc :=
  xs.filterMap fun x => match x.tgt with
    | .hbm a =>
      if s.chanRetired (a / 2 ^ 31) then some (TFail.retired.exc x.lane x.va)
      else if s.poisoned a x.width then some (TFail.uncorrectable.exc x.lane x.va)
      else none
    | t => if s.poisonedAt t x.width then some (TFail.uncorrectable.exc x.lane x.va) else none

/-- Put the lines of a load into L1, where it may (R232). -/
def State.allocLines (s : State) (p : Nat) (l : Load) : State :=
  if l.alloc then
    ((l.reads.filterMap fun x => match x.tgt with
      | .hbm a => some (a / 128)
      | _ => none).dedup).foldl (fun t line =>
        let r := t.freeBit
        if r.1 then r.2.l1Fill p line (r.2.lineFor p line) else r.2) s
  else s

/-- An outstanding load is over: it leaves the table and the tracker, and what waited for it tries again. -/
def State.endLoad (s : State) (p id : Nat) (l : Load) : State :=
  let t := s.modCore p fun c => { c with loads := tdel c.loads id }
  let u := match l.track with
    | some k => t.untrack p k
    | none => t.wakeAll p .load
  u.wakeAll p .remote

/-- Data returns to the core (R77), after that of every load of the core to the same bytes that left its group earlier (R236): it is bound, or its poison or its retired channel ends the launch; a launch that has failed discards it (R137). -/
def State.returnLoad (s : State) (p id : Nat) : State :=
  match tfind (s.core p).loads id with
  | none => s
  | some l =>
    let waits := l.bound.isNone && l.reads.any fun x => match x.tgt with
      | .hbm a => s.hbmWaits a x.width
      | _ => false
    let cut := !l.remote && l.reads.any fun x => !s.reaches l.cut (if l.bound.isSome then .atomic else .load) .readData p x.tgt
    let behind := l.bound.isNone && match l.track with
      | some k => (s.core p).olderRead k (l.reads.map fun x => (x.tgt.key, x.width))
      | none => false
    if waits || cut || behind || !l.complete then s
    else
      let t := s.endLoad p id l
      match s.resultGroup p l.guid l.launch l.run l.site with
      | none => t
      | some _ =>
        let errs := if l.bound.isSome then l.lateErrs else s.readErrs l.reads
        let part := match s.launch? l.launch with
          | some la => la.part
          | none => 0
        match pickExc errs with
        | some e => (if l.bound.isSome then t else t.askHost (l.reads.map fun x => (x.tgt, x.width))).raiseLate p l.launch l.guid part l.site e
        | none =>
          let r : List (Nat × List Byte) × State := match l.bound with
            | some vs => (vs, t)
            | none => t.bindReads l.reads
          let u := (r.2.giveResults p l.guid l.launch l.run l.site l.dest r.1).allocLines p l
          match l.acq with
          | some scope => u.acquired p scope
          | none => u

/-- LOAD_DATA_RETURN (R77, R137, R242). -/
def execLoadDataReturn (core id : Nat) (s : State) : Host.Outcome State Fault Refusal :=
  withUnit (okCore core) (s.returnLoad core id)

/-! Stores. -/

/-- Enter a store into the group's buffer, for all its lanes (R233). -/
def State.enterStore (s : State) (g : GRef) (e : Sbuf) : State :=
  s.modCore g.core fun c => { c with sbufs := tset c.sbufs (gkey g.sched g.slot) (tget [] c.sbufs (gkey g.sched g.slot) ++ [e]) }

/-- The buffer has no room. -/
def State.sbufFull (s : State) (g : GRef) : Bool := decide (16 ≤ (tget [] (s.core g.core).sbufs (gkey g.sched g.slot)).length)

/-- Items that a launch's groups have pushed and that wait to enter a channel (R208, R209). -/
def State.pushesWaiting (s : State) (lid ch : Nat) : Nat :=
  ((s.cores.flatMap fun e => e.2.groups).flatMap fun g =>
    if g.2.launch = lid then (match g.2.push with
      | some q => q.items.filter fun i => i.1 == ch
      | none => []) else []).length

/-- The causes of a push lane (R206 to R208); `earlier` is how many items of the instruction go to the channel before it. Items that wait to enter count against the limit, as those that have entered do; run B of a paired launch sends none, and counts those it has formed (R425). -/
def State.pushErrs (s : State) (c : Ctx) (n lane va earlier : Nat) : List Exc :=
  match pushPage va with
  | none => []
  | some ch =>
    let before := if c.blk.half then tget 0 c.la.formed ch else tget 0 c.la.pushed ch + s.pushesWaiting c.lid ch
    (if va % n = 0 then [] else [{ cause := exMisaligned, lane := lane, addr := va }]) ++
    match s.chanEnt c.la.part ch with
    | some (src, _, lg) =>
      (if src = c.la.stage ∧ n = 16 then [] else [{ cause := exTranslation, lane := lane, addr := va }]) ++
      (if before + earlier < 2 ^ lg then [] else [{ cause := exSpace, lane := lane, addr := va }])
    | none => [{ cause := exTranslation, lane := lane, addr := va }]

/-- The causes of all push lanes. -/
def State.pushesErrs (s : State) (c : Ctx) (n : Nat) (eas : List (Nat × Nat)) : List Exc :=
  ((upTo eas.length).flatMap fun i =>
    let e := eas.getD i (0, 0)
    s.pushErrs c n e.1 e.2 ((eas.take i).filter fun x => pushPage x.2 == pushPage e.2).length)

/-- ST_GLOBAL after its checks: lanes of push pages push, the others enter the store buffer; run B of a paired launch pushes nothing (R425). -/
def State.storeGlobal (s : State) (g : GRef) (c : Ctx) (w : Word64) (n : Nat) (pushes : List (Nat × Nat)) (ls : List LaneAt) : State :=
  if ls ≠ [] ∧ s.sbufFull g = true then s
  else
    let t := (s.issued g c).retire g c.gr
    let t := if ls = [] then t else t.enterStore g {
      guid := c.gr.uid, launch := c.lid, run := c.gr.run, part := c.la.part, site := c.site g w, isZl := false,
      strict := ls.any (·.tr.mt), sync := spansOf n (ls.filter fun x => x.tr.mt && !x.tr.ea), remote := false,
      writes := ls.map fun x => { lane := x.lane, va := x.va, tgt := x.tr.tgt, data := c.gr.storeData w x.lane n, evict := getBits (fMod w) 4 2 == 2 } }
    let t := t.foldRecs c.lid c.blk ((ls.map fun x => (x.va, c.gr.storeData w x.lane n)) ++ pushes.map fun e => (e.2, c.gr.storeData w e.1 n))
    if pushes = [] then t
    else if c.blk.half then
      t.modLaunch c.lid fun l => { l with formed := pushes.foldl (fun a e => tset a ((pushPage e.2).getD 0) (tget 0 a ((pushPage e.2).getD 0) + 1)) l.formed }
    else
      let r := t.pushAll (dieOfPhys g.core) c.la.part c.lid (pushes.map fun e => ((pushPage e.2).getD 0, c.gr.storeData w e.1 n))
      if r.1 = [] then r.2 else (r.2.modGroup g fun x => { x with push := some { items := r.1 } }).park g .push .none

/-- ST_GLOBAL (R125, R126, R207, R233). -/
def State.rowStGlobal (s : State) (g : GRef) (w : Word64) : State :=
  s.issue g w fun c t =>
    t.access g c w false fun t =>
      let n := widthOf w
      let eas := c.gr.eas w
      let pushes := eas.filter fun e => (pushPage e.2).isSome
      let r := t.translLanes g.core c.la.part n .write (eas.filter fun e => (pushPage e.2).isNone)
      r.2.orRaise g c w (r.1.2 ++ r.2.pushesErrs c n pushes ++ windowErrs c.la false n eas) fun u =>
        u.storeGlobal g c w n pushes r.1.1

/-- A push that waited goes on (R208, R209), while its launch runs: one that is being killed, has failed or was found hung enters nothing more (R510). -/
def State.resumePush (s : State) (g : GRef) : State :=
  match s.group? g with
  | some gr =>
    match gr.wait, gr.push, s.launch? gr.launch with
    | .push, some q, some la =>
      if la.phase = .running ∧ la.fail = none ∧ la.run = gr.run ∧ la.hung = 0 ∧ gr.stopped = false then
        let r := s.pushAll (dieOfPhys g.core) la.part gr.launch q.items
        if r.1 = [] then (r.2.modGroup g fun x => { x with push := none }).wake g
        else r.2.modGroup g fun x => { x with push := some { items := r.1 } }
      else s
    | _, _, _ => s
  | none => s

/-- PUSH_RESUME (R208, R209). -/
def execPushResume (g : GRef) (s : State) : Host.Outcome State Fault Refusal :=
  withUnit (okGroup g) (s.resumePush g)

/-- The causes of a Device-Strict page for an instruction that it does not accept (R229). -/
def strictErrs (ls : List LaneAt) : List Exc :=
  ls.filterMap fun x => if x.tr.mt then some { cause := exTranslation, lane := x.lane, addr := x.va } else none

/-- ZL_GLOBAL: the line is made zero at its home slice (R126, R229, R270). -/
def State.rowZlGlobal (s : State) (g : GRef) (w : Word64) : State :=
  s.issue g w fun c t =>
    t.access g c w false fun t =>
      let eas := c.gr.eas w
      let r := t.translLanes g.core c.la.part 128 .write eas
      r.2.orRaise g c w (r.1.2 ++ strictErrs r.1.1 ++ windowErrs c.la false 128 eas) fun u =>
        if r.1.1 = [] then (u.issued g c).retire g c.gr
        else if u.sbufFull g then u
        else
          let zero : List Byte := List.replicate 128 0
          (((u.issued g c).retire g c.gr).enterStore g {
            guid := c.gr.uid, launch := c.lid, run := c.gr.run, part := c.la.part, site := c.site g w, isZl := true,
            strict := false, remote := false,
            writes := r.1.1.map fun x => { lane := x.lane, va := x.va, tgt := x.tr.tgt, data := zero } }).foldRecs c.lid c.blk
              (eas.map fun e => (e.2, zero))

/-! Remote writes on the wire (R378). -/

/-- Lane writes laid over each other in lane order: bytes by remote global address. -/
def overlay (ws : List LaneWrite) : List Host.Cell :=
  ws.foldl (fun m w => match w.tgt with
    | .remote a => msetBytes m a w.data
    | _ => m) []

/-- Contiguous runs within aligned 256-byte blocks. -/
def runs256 : List Host.Cell → List (Nat × List Byte)
  | [] => []
  | (a, b) :: rest =>
    match runs256 rest with
    | (x, bs) :: more => if x = a + 1 ∧ x / 256 = a / 256 then (a, b :: bs) :: more else (a, [b]) :: (x, bs) :: more
    | [] => [(a, [b])]

/-- The messages of a remote store: WR or WRF, or CONTRIB to the collective aperture (R378, R381). The AUX of a CONTRIB to a raw-format slot gives an anchor and a status byte, and the spec does not say where a core takes them from: that they are 0 is the model's (DESIGN CHOICE, log entry 106). -/
def State.writeMsgs (s : State) (final trapx : Bool) (p run : Nat) (ws : List LaneWrite) : List Msg :=
  (runs256 (overlay ws)).map fun x =>
    if inCollective (rgaVa x.1) ∧ final = false then { s.request mContrib 2 p run x.1 0 x.2 with trapx := trapx }
    else s.request (if final then mWrf else mWr) 0 p run x.1 0 x.2

/-- Send the requests of one instruction's remote writes: each takes its tracking entry; those for which no path exists are refused, together (R139, R375). -/
def State.sendBatch (s : State) (p : Nat) (rs : List RReq) : State :=
  let n := (s.core p).nextId
  let x := rs.foldl (fun (a : List RReq × State) r =>
    let q : RReq := { r with batch := n }
    let u := a.2.sendReq (dieOfPhys p) q false
    if u.1 then (a.1, u.2.pmEvent p evRemote r.part 1) else (a.1 ++ [q], u.2)) ([], s.modCore p fun c => { c with nextId := n + 1 })
  match x.1 with
  | [] => x.2
  | q :: qs => x.2.refuse { q with lanes := q.lanes ++ qs.flatMap (·.lanes) }

/-- Send the messages of a remote store. -/
def State.sendWrites (s : State) (p : Nat) (e : Sbuf) (ms : List Msg) : State :=
  s.sendBatch p (ms.map fun m => {
    part := e.part, epoch := m.epoch, launch := e.launch, run := e.run, core := p, load := e.guid,
    dst := m.dst, gt := s.now, kind := 1, msg := m, site := e.site
    lanes := lanesIn (e.writes.map fun w => (w.lane, w.va, w.data.length)) (msgRga m) m.data.length })

/-- Whether all the messages of a store find slots and records. -/
def State.canSend (s : State) (d : Nat) (ms : List Msg) : Bool :=
  s.hasSlots d ms.length false && ms.all fun m => s.roomFor d m.dst ms.length

/-! The store buffer drains. -/

/-- The oldest entry of a group's buffer leaves: a global store takes a tracker entry and updates L1, a remote store is sent (R233, R235, R236). A store counts as issued onto the ring, and takes its path by the links that have failed, when it leaves the buffer: DESIGN CHOICE, since R27 speaks of accesses issued after the record and does not say when a buffered store is (log entry 77). -/
def State.drainStore (s : State) (g : GRef) : State :=
  let k := gkey g.sched g.slot
  match tget [] (s.core g.core).sbufs k with
  | [] => s
  | e :: rest =>
    let pop (t : State) : State := t.modCore g.core fun c => { c with sbufs := tput [] c.sbufs k rest }
    if e.remote then
      let trapx := match s.launch? e.launch with
        | some l => eTrapx l.entry
        | none => false
      let ms := s.writeMsgs false trapx e.part e.run e.writes
      if s.canSend (dieOfPhys g.core) ms then ((pop s).sendWrites g.core e ms).flushFinals e.launch else s
    else
      let spans := e.writes.map fun w => (w.tgt.key, w.data.length)
      if (s.core g.core).trackHit true spans || (s.core g.core).trackFull ||
          (e.strict && (s.core g.core).art.any fun x => x.2.guid == e.guid && x.2.strict) then s
      else
        let t := e.writes.foldl (fun t w => match w.tgt with
          | .hbm a => t.l1Update g.core a w.data
          | _ => t) (pop s)
        (t.track g.core { guid := e.guid, launch := e.launch, run := e.run, part := e.part, isWrite := true, spans := spans,
                          writes := e.writes, isZl := e.isZl, strict := e.strict, old := e.old, sync := e.sync, cut := s.d2d }).2

/-- STORE_BUFFER_DRAIN (R233). -/
def execStoreBufferDrain (g : GRef) (s : State) : Host.Outcome State Fault Refusal :=
  withUnit (okGroup g) (s.drainStore g)

/-- Perform one write at its home slice or the host port. -/
def State.performWrite (s : State) (part : Nat) (w : LaneWrite) : State :=
  match w.tgt with
  | .hbm a => (s.writeMem a w.data).l2Touch part a w.data.length true 3 w.evict
  | t => s.writeAt t w.data

/-- The HBM lines of an entry still have a write at their controllers. -/
def State.arrayWaits (s : State) (spans : List (Nat × Nat)) : Bool :=
  spans.any fun x => decide (x.1 < 2 ^ 64) && (linesOf x.1 x.2).any fun l => (s.chan (l / 2 ^ 24)).reqs.any fun r => r.cls == 4 && r.line == l

/-- What EA 0 writes do once performed (R230): the home slice writes each line to the array at once and leaves it clean; behind a write to host memory goes a zero-length read under the partition's function. -/
def State.syncOut (s : State) (p : Nat) (spans : List (Nat × Nat)) : State :=
  let t := ((spans.filter fun x => decide (x.1 < 2 ^ 64)).flatMap fun x => linesOf x.1 x.2).dedup.foldl (fun (t : State) l => (t.hbmAsk 4 l).l2Clean l) s
  (spans.filter fun x => decide (2 ^ 64 ≤ x.1)).foldl (fun t x => t.emit (.zeroRead (s.vfOf p) (x.1 - 2 ^ 64))) t

/-- A write to a channel that has been retired since it was translated: it is not performed (R436). -/
def State.lostWrite (s : State) (w : LaneWrite) : Bool :=
  match w.tgt with
  | .hbm a => s.chanRetired (a / 2 ^ 31)
  | _ => false

/-- The lines that the writes of one instruction cover wholly between them. -/
def wholeLines (ws : List LaneWrite) : List Nat :=
  let at_ : List (Nat × Nat) := ws.filterMap fun w => match w.tgt with
    | .hbm a => some (a, w.data.length)
    | _ => none
  ((at_.flatMap fun x => linesOf x.1 x.2).dedup).filter fun l => (upTo 128).all fun i => at_.any fun x => decide (x.1 ≤ 128 * l + i ∧ 128 * l + i < x.1 + x.2)

/-- Perform the writes of one instruction of a core, lane by lane; lines that they cover between them are poisoned no more (R416). Those to a retired channel are not performed, and end their launch with RETIRED_RESOURCE (R262, R436). -/
def State.performAll (s : State) (p lid part : Nat) (ws : List LaneWrite) : State :=
  let t := (ws.filter fun w => !s.lostWrite w).foldl (fun t w => t.performWrite part w) s
  let u : State := { t with poison := t.poison.filter fun l => !(wholeLines ws).contains l }
  if ws.any s.lostWrite then u.loseWrites lid (u.mkFail stRetired p) else u

/-- A write is performed at partition scope and its entry released (R235). One with EA 0 bytes stays until they are acknowledged, as the array holds them or the host has answered the zero-length read behind them, but holds no access back any more (R230). The host's answer is the next command for the entry (log entry 75). -/
def State.releaseTrack (s : State) (p id : Nat) : State :=
  match tfind (s.core p).art id with
  | none => s
  | some x =>
    if x.isWrite = false then s
    else if x.writes ≠ [] then
      if x.writes.any fun w => !s.reaches x.cut .store .acknowledgement p w.tgt then s else
      let t := s.performAll p x.launch x.part x.writes
      if x.sync ≠ [] then
        (((t.modCore p fun c => { c with art := tset c.art id { x with writes := [], done := true } }).syncOut x.part x.sync).wakeAll p .load).wakeAll p .residency
      else t.untrack p id
    else if x.sync ≠ [] ∧ s.arrayWaits x.sync = false then s.untrack p id
    else s

/-- TRACKER_RELEASE (R235, R237). -/
def execTrackerRelease (core id : Nat) (s : State) : Host.Outcome State Fault Refusal :=
  withUnit (okCore core) (s.releaseTrack core id)

/-! Remote loads and stores. -/

/-- The causes that an access to a remote address meets at its source (R124, R138, R264, R377); no access but a st.remote may name the collective aperture (R381). -/
def State.remoteErrs (s : State) (part n : Nat) (groupOk contribOk : Bool) (eas : List (Nat × Nat)) : List Exc :=
  eas.flatMap fun e =>
    (if inCollective (rgaVa e.2) = true ∧ contribOk = false then [{ cause := exTranslation, lane := e.1, addr := e.2 }] else []) ++
    (if e.2 % n = 0 then [] else [{ cause := exMisaligned, lane := e.1, addr := e.2 }]) ++
    (if isGroupId (rgaDev e.2) ∧ (groupOk = false ∨ rgaPart e.2 ≠ 0) then [{ cause := exTranslation, lane := e.1, addr := e.2 }] else []) ++
    (if s.domainOf part = 0 then [{ cause := exRemote, lane := e.1, addr := e.2 }] else [])

/-- The reads of an instruction, one for each aligned block of 256 bytes that its lanes touch: first address and bytes. -/
def readRuns (n : Nat) (eas : List (Nat × Nat)) : List (Nat × Nat) :=
  ((eas.map fun e => e.2 / 256).dedup).map fun k =>
    let xs := (eas.filter fun e => e.2 / 256 == k).map (·.2)
    let lo := xs.foldl min (256 * k + 256)
    (lo, xs.foldl max 0 + n - lo)

/-- LD_REMOTE: each RD takes a read slot, or the group waits (R127, R371, R378). LCR is accepted and has no effect: an RD has no place for it (R368; DESIGN CHOICE, log entry 107). -/
def State.rowLdRemote (s : State) (g : GRef) (w : Word64) : State :=
  s.issue g w fun c t =>
    t.access g c w false fun t =>
      let n := widthOf w
      let eas := c.gr.eas w
      t.orRaise g c w (t.remoteErrs c.la.part n false false eas) fun t =>
        let rs := readRuns n eas
        let d := dieOfPhys g.core
        if eas = [] then (t.issued g c).retire g c.gr
        else if t.hasSlots d rs.length true then
          let id := (t.core g.core).nextId
          let l : Load := {
            guid := c.gr.uid
            site := c.site g w
            launch := c.lid
            run := c.gr.run
            reads := eas.map fun e => { lane := e.1, va := e.2, tgt := .remote e.2, width := n }
            dest := destOf w n (fSx w)
            track := none
            remote := true
            bound := some [] }
          let u := ((t.issued g c).modCore g.core fun k => { k with loads := tset k.loads id l, nextId := id + 1 }).retire g c.gr
          rs.foldl (fun u x =>
            let r : RReq := {
              part := c.la.part, epoch := t.epochOf c.la.part, launch := c.lid, run := c.gr.run, core := g.core, load := id,
              dst := rgaDev x.1, gt := t.now, kind := 0, msg := t.request mRd 0 c.la.part c.gr.run x.1 x.2 [], site := c.site g w
              lanes := lanesIn (eas.map fun e => (e.1, e.2, n)) x.1 x.2 }
            let v := u.sendReq d r true
            if v.1 then v.2.pmEvent g.core evRemote c.la.part 1 else v.2.refuse r) u
        else t.park g .remote (.router true rs.length)

/-- The lane writes of a remote store. -/
def remoteWrites (gr : Group) (w : Word64) (n : Nat) (eas : List (Nat × Nat)) : List LaneWrite :=
  eas.map fun e => { lane := e.1, va := e.2, tgt := .remote e.2, data := gr.storeData w e.1 n }

/-- ST_REMOTE: checked against the windows and entered in the store buffer; run B of a paired launch only folds it (R126, R127, R233, R425). -/
def State.rowStRemote (s : State) (g : GRef) (w : Word64) : State :=
  s.issue g w fun c t =>
    t.access g c w false fun t =>
      let n := widthOf w
      let eas := c.gr.eas w
      t.orRaise g c w (t.remoteErrs c.la.part n true true eas ++ windowErrs c.la true n eas) fun t =>
        if eas = [] then (t.issued g c).retire g c.gr
        else if c.blk.half then ((t.issued g c).retire g c.gr).foldRecs c.lid c.blk (eas.map fun e => (e.2, c.gr.storeData w e.1 n))
        else if t.sbufFull g then t
        else
          (((t.issued g c).retire g c.gr).enterStore g {
            guid := c.gr.uid, launch := c.lid, run := c.gr.run, part := c.la.part, site := c.site g w, isZl := false,
            strict := false, remote := true, writes := remoteWrites c.gr w n eas }).foldRecs c.lid c.blk
              (eas.map fun e => (e.2, c.gr.storeData w e.1 n))

/-! Deferred operations (R134 to R136, R344 to R346). -/

def ckFinal : Nat := 1
def ckGlobal : Nat := 2
def ckRemote : Nat := 3
def ckEvent : Nat := 4
def ckSem : Nat := 5

/-- ORIGIN of an entry (R345). -/
def State.origin (s : State) (g : GRef) (lane : Nat) : Nat :=
  (s.logOf g.core).getD 0 + g.sched * 2 ^ 11 + g.slot * 2 ^ 13 + lane * 2 ^ 17

/-- The 32 bytes of an entry (R345). -/
def CqEntry.bytes (e : CqEntry) (origin : Nat) : List Byte :=
  leBytes 1 e.kind ++ leBytes 1 e.width ++ leBytes 1 e.op ++ leBytes 1 0 ++ leBytes 4 origin ++ leBytes 8 e.addr ++ slice e.data 0 16

/-- Enter operations whole, or raise DEFERRAL (R136), which is recorded with the lowest active lane and without an address: the spec does not say which causes have one (DESIGN CHOICE, log entry 108); run B of a paired launch only folds them (R425, R426). -/
def State.defer (s : State) (g : GRef) (c : Ctx) (w : Word64) (es : List CqEntry) : State :=
  if c.la.room < es.length ∧ c.blk.half = false then
    s.raise g c.lid c.la.part c.gr.pc w { cause := exDeferral, lane := (c.gr.lanes w).headD 0 }
  else
    let t := ((s.issued g c).retire g c.gr).foldRecs c.lid c.blk (es.map fun e => (e.addr, e.bytes 0))
    if c.blk.half then t
    else
      let u := t.modLaunch c.lid fun l => { l with cq := l.cq ++ es }
      match c.la.cqBase with
      | some b => (entryLines b c.la.cq.length (c.la.cq.length + es.length)).foldl (fun u l => u.commitLine c.la.part l) u
      | none => u

/-- ST_REMOTE_FINAL: deferred, or held at its source without pre-emption (R127, R134, R250, R353). -/
def State.rowStRemoteFinal (s : State) (g : GRef) (w : Word64) : State :=
  s.issue g w fun c t =>
    t.access g c w false fun t =>
      let n := widthOf w
      let eas := c.gr.eas w
      t.orRaise g c w (t.remoteErrs c.la.part n true false eas) fun t =>
        if c.la.nonpre then
          let ms := t.writeMsgs true false c.la.part c.gr.run (remoteWrites c.gr w n eas)
          let k := (t.core g.core).nextId
          ((((t.issued g c).retire g c.gr).modCore g.core fun x => { x with nextId := k + 1 }).modLaunch c.lid fun l =>
            { l with finals := l.finals ++ ms.map fun m => {
                core := g.core, guid := c.gr.uid, site := c.site g w, msg := m, batch := k
                lanes := lanesIn (eas.map fun e => (e.1, e.2, n)) (msgRga m) m.data.length } }).flushFinals c.lid
        else
          t.defer g c w (eas.map fun e =>
            { kind := ckFinal, width := fMod w % 8, op := 0, origin := t.origin g e.1, addr := e.2, data := c.gr.storeData w e.1 n })

/-! Atomics (R128 to R130, R134). -/

/-- One atomic at its home slice or host port: the old bytes and the state after. -/
def State.atomicAt (s : State) (part : Nat) (tgt : Target) (n op b b2 : Nat) : List Byte × State :=
  let r := s.readAt tgt n
  let t := match tgt with
    | .hbm a => r.2.l2Touch part a n (op != 9) 3
    | _ => r.2
  match atomOp op (8 * n) (leNat r.1) b b2 with
  | some v => (r.1, t.writeAt tgt (leBytes n v))
  | none => (r.1, t)

/-- A poisoned word: the atomic would consume it (R416). -/
def State.poisonErrs (s : State) (n : Nat) (ls : List LaneAt) : List Exc :=
  ls.filterMap fun x => if s.poisonedAt x.tr.tgt n then some { cause := exUncorrectable, lane := x.lane, addr := x.va } else none

/-- Go on at the next instruction, keeping the reservations that the operation left. -/
def State.retireOver (t : State) (g : GRef) (gr : Group) : State := t.modGroup g fun x => { gr with resv := x.resv }.next

/-- An atomic or an ll goes to its home slices (R130, R235, R236): once the group's own stores to those bytes have left its buffer, a way round the ring leads there, no access in the tracker holds it back, the tracker has room, and the home slices have the lines whose data it consumes (R415, R416). -/
def State.atHome (s : State) (g : GRef) (c : Ctx) (n : Nat) (isWrite : Bool) (ls : List LaneAt) (k : State → State) : State :=
  if s.bufferedHit g c.gr.uid (spansOf n ls) then s
  else if ls.any fun x => !s.reaches s.d2d .atomic .readData g.core x.tr.tgt then s
  else if (s.core g.core).trackHit isWrite (spansOf n ls) || (s.core g.core).trackFull || (s.core g.core).olderRead (s.core g.core).nextId (spansOf n ls) then
    s.park g .load (.tracker isWrite (spansOf n ls))
  else s.withLines c.la.part 3 (ls.map fun x => (x.tr.tgt, n)) k

/-- The access of an atomic or ll that was performed as it issued, until its values return (R77, R235). -/
def State.boundLoad (s : State) (g : GRef) (c : Ctx) (w : Word64) (n : Nat) (strict : Bool) (ls : List LaneAt) (vals : List (Nat × List Byte)) : State :=
  let k := s.track g.core { guid := c.gr.uid, launch := c.lid, run := c.gr.run, part := c.la.part, isWrite := false, spans := spansOf n ls, strict := strict }
  let l : Load := {
    guid := c.gr.uid
    site := c.site g w
    launch := c.lid
    run := c.gr.run
    reads := ls.map fun x => { lane := x.lane, va := x.va, tgt := x.tr.tgt, width := n }
    dest := destOf w n false
    track := some k.1
    bound := some vals
    cut := s.d2d }
  k.2.modCore g.core fun x => { x with loads := tset x.loads x.nextId l, nextId := x.nextId + 1 }

/-- A global atomic performed as it issues: lanes in ascending order; the old values return later when `ret` (R130, R235, R239). -/
def State.atomNow (s : State) (g : GRef) (c : Ctx) (w : Word64) (n : Nat) (ls : List LaneAt) (ret : Bool) : State :=
  if ls = [] then (s.issued g c).retire g c.gr
  else if ls.any (·.tr.mt) && s.strictPending g c.gr.uid then s.strictWait g c.gr.uid
  else s.atHome g c n true ls fun s =>
    let r := ls.foldl (fun (a : List (Nat × List Byte) × State) x =>
      let b := c.gr.atomB w x.lane
      let y := a.2.atomicAt c.la.part x.tr.tgt n (fAtom w) b.1 b.2
      (a.1 ++ [(x.lane, y.1)], y.2)) ([], s.issued g c)
    let u := r.2.l1Refresh g.core n ls
    let t := if fAcquire w then u.acquired g.core (fScope w) else u
    (if ret then t.boundLoad g c w n (ls.any (·.tr.mt)) ls r.1 else t).retireOver g c.gr

/-- A remote atomic, one message for each lane: a returning one takes read slots, a posted one tracking entries (R128, R371, R378). -/
def State.atomRemote (s : State) (g : GRef) (c : Ctx) (w : Word64) (n : Nat) (eas : List (Nat × Nat)) (ret : Bool) : State :=
  let d := dieOfPhys g.core
  if eas = [] then (s.issued g c).retire g c.gr
  else if s.hasSlots d eas.length ret then
    let id := (s.core g.core).nextId
    let l : Load := {
      guid := c.gr.uid
      site := c.site g w
      launch := c.lid
      run := c.gr.run
      reads := eas.map fun e => { lane := e.1, va := e.2, tgt := .remote e.2, width := n }
      dest := destOf w n false
      track := none
      remote := true
      bound := some []
      acq := if fAcquire w then some (fScope w) else none }
    let t := s.issued g c
    let u := (if ret then t.modCore g.core fun k => { k with loads := tset k.loads id l, nextId := id + 1 } else t).retire g c.gr
    let rs : List RReq := eas.map fun e =>
      let b := c.gr.atomB w e.1
      let data := if fAtom w = 9 then leBytes (2 * n) (b.1 + b.2 * 2 ^ (8 * n)) else leBytes n b.1
      let aux := fAtom w + (if ret then 16 else 0) + (if n = 8 then 32 else 0)
      { part := c.la.part, epoch := s.epochOf c.la.part, launch := c.lid, run := c.gr.run, core := g.core, load := if ret then id else c.gr.uid,
        dst := rgaDev e.2, gt := s.now, kind := if ret then 0 else 1, msg := s.request mAtom 0 c.la.part c.gr.run e.2 aux data,
        site := { c.site g w with lane := e.1 }, lanes := [e] }
    if ret then
      rs.foldl (fun u r =>
        let v := u.sendReq d r true
        if v.1 then v.2.pmEvent g.core evRemote c.la.part 1 else v.2.refuse r) u
    else u.sendBatch g.core rs
  else s.park g .remote (.router ret eas.length)

/-- The space of an ATOM word is remote. -/
def atomIsRemote (w : Word64) : Bool := fSub w % 4 == 3

/-- RMW_GLOBAL: only without pre-emption; else DEFERRAL (R130). -/
def State.rowRmwGlobal (s : State) (g : GRef) (w : Word64) : State :=
  s.issue g w fun c t =>
    let n := atomWidth w
    let eas := c.gr.eas w
    let bad : List Exc := if c.la.nonpre ∨ eas = [] then [] else [{ cause := exDeferral, lane := (eas.head?.map (·.1)).getD 0 }]
    t.access g c w true fun t =>
      if atomIsRemote w then
        t.orRaise g c w (t.remoteErrs c.la.part n false false eas ++ bad) fun t => t.atomRemote g c w n eas true
      else
        let r := t.translLanes g.core c.la.part n .write eas
        r.2.orRaise g c w (r.1.2 ++ (if c.la.nonpre then r.2.poisonErrs n r.1.1 else []) ++ bad) fun u => u.atomNow g c w n r.1.1 true

/-- RMW_POST: deferred with pre-emption, performed as it issues without (R130, R134, R353). -/
def State.rowRmwPost (s : State) (g : GRef) (w : Word64) : State :=
  s.issue g w fun c t =>
    let n := atomWidth w
    let eas := c.gr.eas w
    let entry (e : Nat × Nat) : CqEntry :=
      { kind := if atomIsRemote w then ckRemote else ckGlobal, width := if n = 8 then 1 else 0, op := fAtom w,
        origin := t.origin g e.1, addr := e.2, data := leBytes n (c.gr.atomB w e.1).1 }
    t.access g c w c.la.nonpre fun t =>
      if atomIsRemote w then
        t.orRaise g c w (t.remoteErrs c.la.part n false false eas) fun t =>
          if c.la.nonpre then t.atomRemote g c w n eas false else t.defer g c w (eas.map entry)
      else
        let r := t.translLanes g.core c.la.part n .write eas
        r.2.orRaise g c w (r.1.2 ++ if c.la.nonpre then r.2.poisonErrs n r.1.1 else []) fun u =>
          if c.la.nonpre then u.atomNow g c w n r.1.1 false else u.defer g c w (eas.map entry)

/-! ll and sc (R129 to R131, R244). -/

/-- The granule size of a launch. -/
def Launch.granule (l : Launch) : Nat := if l.llsc512 then 512 else 128

/-- LL (R131). -/
def State.rowLl (s : State) (g : GRef) (w : Word64) : State :=
  s.issue g w fun c t =>
    let n := widthOf w
    let eas := c.gr.eas w
    let size := c.la.granule
    let bad : List Exc := if c.la.nonpre ∨ eas = [] then [] else [{ cause := exDeferral, lane := (eas.head?.map (·.1)).getD 0 }]
    t.access g c w true fun t =>
      if fSub w = 0 then
        t.orRaise g c w (eas.flatMap fun e => localErrs c.blk n e.1 e.2) fun t =>
          if t.localBusy g c.gr.block n false eas then t
          else
            let u := (t.issuedLocal g c n eas).retire g (eas.foldl (fun a e =>
              { a.setDest (destOf w n false) e.1 (c.blk.bytes e.2 n) with
                resv := tset a.resv e.1 { isLocal := true, granule := e.2 / size, size := size } }) c.gr)
            if fAcquire w then u.acquired g.core (fScope w) else u
      else
        let r := t.translLanes g.core c.la.part n .read eas
        r.2.orRaise g c w (r.1.2 ++ strictErrs r.1.1 ++ (if c.la.nonpre then r.2.poisonErrs n r.1.1 else []) ++ bad) fun u =>
          if r.1.1 = [] then (u.issued g c).retire g c.gr
          else u.atHome g c n false r.1.1 fun u =>
            let b := (u.issued g c).bindReads (r.1.1.map fun x => { lane := x.lane, va := x.va, tgt := x.tr.tgt, width := n })
            let v := ((b.2.boundLoad g c w n false r.1.1 b.1).touchLanes c.la.part n false 3 false r.1.1).retire g
              (r.1.1.foldl (fun a x => { a with resv := tset a.resv x.lane { isLocal := false, granule := x.tr.tgt.key / size, size := size } }) c.gr)
            if fAcquire w then v.acquired g.core (fScope w) else v

/-- One lane's sc: every sc clears the thread's reservation; it stores when the reservation on the granule was intact. On a host page the host may have written: a free choice (log entry 14). -/
def State.scLane (s : State) (g : GRef) (isLocal host : Bool) (key size lane : Nat) (write : State → State) : Bool × State :=
  match s.group? g with
  | none => (false, s)
  | some gr =>
    let ok := match tfind gr.resv lane with
      | some r => r.isLocal == isLocal && r.granule == key / size
      | none => false
    let t := s.setGroup g { gr with resv := tdel gr.resv lane }
    let f : Bool × State := if ok && host then t.freeBit else (ok, t)
    if f.1 then (true, write f.2) else (false, f.2)

/-- All lanes of an sc, in ascending order (R131). -/
def State.scLanes (s : State) (g : GRef) (isLocal : Bool) (size : Nat) (xs : List (Nat × Nat × Bool × (State → State))) : List (Nat × Bool) × State :=
  xs.foldl (fun a x =>
    let r := a.2.scLane g isLocal x.2.2.1 x.2.1 size x.1 x.2.2.2
    (a.1 ++ [(x.1, r.1)], r.2)) ([], s)

/-- Write the predicates of an sc and go on; a uniform one gives every active lane the value of the lane it ran for (R110). -/
def State.scEnd (s : State) (g : GRef) (w : Word64) (rs : List (Nat × Bool)) : State :=
  s.modGroup g fun x =>
    let vs := if isUniform w then rs.flatMap fun r => (lanesOf x.active).map (·, r.2) else rs
    (vs.foldl (fun a r => a.setP r.1 (fD w) r.2) x).next

/-- SC (R131). -/
def State.rowSc (s : State) (g : GRef) (w : Word64) : State :=
  s.issue g w fun c t =>
    let n := widthOf w
    let eas := c.gr.eas w
    let size := c.la.granule
    let bad : List Exc := if c.la.nonpre ∨ eas = [] then [] else [{ cause := exDeferral, lane := (eas.head?.map (·.1)).getD 0 }]
    t.access g c w true fun t =>
      if fSub w = 1 then
        t.orRaise g c w (eas.flatMap fun e => localErrs c.blk n e.1 e.2) fun t =>
          if t.localBusy g c.gr.block n true eas then t
          else
            let r := (t.issuedLocal g c n eas).scLanes g true size (eas.map fun e =>
              (e.1, e.2, false, fun u => u.lsWrite g.core c.gr.block e.2 (c.gr.storeData w e.1 n)))
            let u := r.2.scEnd g w r.1
            if fAcquire w then u.acquired g.core (fScope w) else u
      else
        let r := t.translLanes g.core c.la.part n .write eas
        r.2.orRaise g c w (r.1.2 ++ strictErrs r.1.1 ++ bad) fun u =>
          if r.1.1 = [] then (u.issued g c).retire g c.gr
          else if u.bufferedHit g c.gr.uid (spansOf n r.1.1) then u
          else if r.1.1.any fun x => !u.reaches u.d2d .atomic .acknowledgement g.core x.tr.tgt then u
          else if (u.core g.core).trackHit true (spansOf n r.1.1) || (u.core g.core).trackFull then u.park g .load (.tracker true (spansOf n r.1.1))
          else
            let q := (u.issued g c).scLanes g false size (r.1.1.map fun x =>
              let host := match x.tr.tgt with
                | .host _ _ _ => true
                | _ => false
              (x.lane, x.tr.tgt.key, host, fun v => v.performWrite c.la.part { lane := x.lane, va := x.va, tgt := x.tr.tgt, data := c.gr.storeData w x.lane n }))
            let v := (q.2.l1Refresh g.core n r.1.1).scEnd g w q.1
            if fAcquire w then v.acquired g.core (fScope w) else v

/-! ev.rec and sem.rel (R134, R135, R310, R353). -/

/-- EV_REC: bit 63 of the value is ignored (R309). It is deferred with pre-emption; without, it is an atomic maximum performed as it issues (R310, R353), as the other atomics are (R235, R236, R416). -/
def State.rowEvRec (s : State) (g : GRef) (w : Word64) : State :=
  s.issue g w fun c t =>
    let va := c.gr.rd 0 true (fA w) 2
    let v := c.gr.rd 0 true (fB w) 2 % 2 ^ 63
    let lane := c.gr.low
    let mis : List Exc := if va % 8 = 0 then [] else [{ cause := exMisaligned, lane := lane, addr := va }]
    t.access g c w false fun t =>
      let r := t.eventWord c.la.part va (.core g.core)
      match r.1 with
      | .error f => r.2.orRaise g c w (mis ++ [f.exc lane va]) id
      | .ok a =>
        r.2.orRaise g c w mis fun u =>
          if c.la.nonpre then
            let ls : List LaneAt := [{ lane := lane, va := va, tr := { tgt := .hbm a, mt := false, ea := false, w := true } }]
            u.orRaise g c w (u.poisonErrs 8 ls) fun u => u.atHome g c 8 true ls fun u =>
              (((u.issued g c).retire g c.gr).eventMax c.la.part a v).l1Refresh g.core 8 ls
          else u.defer g c w [{ kind := ckEvent, width := 0, op := 0, origin := u.origin g lane, addr := va, data := leBytes 8 v }]

/-- SEM_REL. -/
def State.rowSemRel (s : State) (g : GRef) (w : Word64) : State :=
  s.issue g w fun c t =>
    let n := c.gr.rd 0 true (fA w) 1
    let v := c.gr.rd 0 true (fB w) 1
    t.access g c w false fun t =>
      t.orRaise g c w (if n < 4096 then [] else [{ cause := exSpace, lane := c.gr.low }]) fun u =>
        if c.la.nonpre then ((u.issued g c).retire g c.gr).semRelease c.la.part n v
        else u.defer g c w [{ kind := ckSem, width := 0, op := 0, origin := u.origin g c.gr.low, addr := n, data := leBytes 4 v }]

end Sys2Proof.Machine
end

