-- ==== Sys2Proof/Machine/MxData.lean ====
section
/-! DEFINITION. What the matrix unit holds and computes: the operand buffer and its layouts (R146 to R150), the stationary tile (R145), accumulator tiles (R152, R153) and the effect of each operation on them (R47 to R63, R157 to R160). -/

namespace Sys2Proof.Machine

/-! The operand buffer. -/

/-- One byte of the operand buffer (R146, R164). -/
def Mx.byte (x : Mx) (i : Nat) : Byte := (mget? x.buf i).getD (Config.operandInit x.epoch i)
def Mx.bytes (x : Mx) (i n : Nat) : List Byte := (upTo n).map fun k => x.byte (i + k)
/-- Write units from unit `u`. -/
def Mx.put (x : Mx) (u : Nat) (bs : List Byte) : Mx := { x with buf := msetBytes x.buf (32 * u) bs }

/-! Formats (R46, R142, R147). -/

/-- FMT of a handle. -/
def mxFmt : Nat → Option ElemFmt
  | 0 => some .e4m3
  | 1 => some .e5m2
  | 2 => some .e2m3
  | 3 => some .e3m2
  | 4 => some .e2m1
  | 5 => some .int8
  | 6 => some .int4
  | 7 => some .fp16
  | 8 => some .bf16
  | _ => none

/-- The classes of R46. -/
def mxClass (f : Nat) : Nat :=
  match f with
  | 0 | 1 => 0
  | 2 | 3 => 1
  | n => n

/-- K per beat, and K-blocks per beat (R142). -/
def kPerBeat (f : Nat) : Nat :=
  match mxFmt f with
  | some e => if e.bits = 4 then 64 else if e.bits = 16 then 16 else 32
  | none => 0
def kblocksPerBeat (f : Nat) : Nat := if kPerBeat f = 64 then 2 else 1

/-- Units of one B image, and of one raw image. -/
def imageUnits (scaled : Bool) : Nat := if scaled then 68 else 64
def rawUnits : Nat := 1025
def rawBytes : Nat := 32800

/-- Images that a handle holds. -/
def Handle.images (h : Handle) : Nat :=
  if h.kind = 1 then h.size / imageUnits h.scaled else if h.kind = 2 then h.size / rawUnits else 0

/-- Units that the layout needs (R147, R148). -/
def Handle.need (h : Handle) : Nat :=
  match h.kind with
  | 0 => h.rows * h.pitch + (if h.scaled then (h.rows * h.pitch * kblocksPerBeat h.fmt + 31) / 32 else 0)
  | 1 => imageUnits h.scaled
  | _ => rawUnits

/-- The handle of a descriptor (R147). -/
def handleOf (d : Nat) : Handle :=
  { base := getBits d 0 13, size := getBits d 13 14, fmt := getBits d 27 4, scaled := getBits d 31 1 == 1,
    kind := getBits d 32 2, pitch := getBits d 34 12, rows := getBits d 46 10 }

/-- A descriptor keeps the table of R147. -/
def descOk (d : Nat) : Bool :=
  let h := handleOf d
  decide (1 ≤ h.size ∧ h.size ≤ 8192 ∧ h.kind ≤ 2 ∧ getBits d 56 8 = 0 ∧ h.base + h.size ≤ 8192) &&
  (h.kind == 2 || decide (h.fmt ≤ 8)) &&
  !(h.scaled && (h.kind == 2 || decide (h.fmt = 6 ∨ h.fmt = 7 ∨ h.fmt = 8))) &&
  (if h.kind = 0 then decide (1 ≤ h.pitch ∧ 1 ≤ h.rows) else decide (h.pitch = 0 ∧ h.rows = 0)) &&
  decide (h.need ≤ h.size)

/-! Elements and scales in the buffer (R43, R148, R149). -/

/-- Element `i` of packed bytes. -/
def packedElem (f : ElemFmt) (bs : List Byte) (i : Nat) : Elem := f.decode (getBits (leNat bs) (f.bits * i) f.bits)

/-- The elements of A row `m`, K-step `j`, of a KIND 0 handle. -/
def Mx.aVector (x : Mx) (h : Handle) (f : ElemFmt) (m j : Nat) : List Elem :=
  let bs := x.bytes (32 * (h.base + m * h.pitch + j)) 32
  (upTo (kPerBeat h.fmt)).map (packedElem f bs)

/-- The scale of the b-th K-block of the beat for A row `m`, K-step `j`; 127 where unscaled (R45). -/
def Mx.aScale (x : Mx) (h : Handle) (m j b : Nat) : Nat :=
  let c := kblocksPerBeat h.fmt
  if h.scaled then (x.byte (32 * (h.base + h.rows * h.pitch) + m * h.pitch * c + j * c + b)).toNat else 127

/-- Element (k, n) of the stationary image (R149). -/
def Stationary.elem (s : Stationary) (f : ElemFmt) (k n : Nat) : Elem :=
  match f.bits with
  | 8 => f.decode (s.image.getD (64 * k + n) 0).toNat
  | 6 => packedElem f (slice s.image (64 * k) 48) n
  | 4 => f.decode (getBits (s.image.getD (64 * (k / 2) + n) 0).toNat (4 * (k % 2)) 4)
  | _ => f.decode (numAt s.image (128 * k + 2 * n) 2)

/-- The scale of column `n` for K-block `b`. -/
def Stationary.scale (s : Stationary) (n b : Nat) : Nat :=
  if s.scaled then (s.image.getD (2048 + 64 * b + n) 0).toNat else 127

/-! Tiles (R48, R49, R152, R153). -/

def Mx.tile (x : Mx) (t : Nat) : Tile := tget {} x.tiles t
def Mx.setTile (x : Mx) (t : Nat) (y : Tile) : Mx := { x with tiles := tput {} x.tiles t y }

/-- An entry of a tile. -/
def Tile.entry (t : Tile) (m n : Nat) : Entry :=
  { n := (tget 0 t.n (64 * m + n)).toInt, hidden := tget 0 t.hidden (64 * m + n) }
/-- Set an entry, with the status bits that the addition raised. -/
def Tile.setEntry (t : Tile) (m n : Nat) (e : Entry × BitVec 8) : Tile :=
  { t with
    n := tput 0 t.n (64 * m + n) (BitVec.ofInt 128 e.1.n)
    hidden := tput 0 t.hidden (64 * m + n) e.1.hidden
    status := t.status ||| e.2 }

/-- A cleared tile: at an anchor, or default-pending (R153). -/
def Tile.cleared (anchor : Option Int) : Tile :=
  match anchor with
  | some a => { anchor := a, defPend := false }
  | none => {}

/-- The tile as its first contribution finds it: a default-pending one takes the anchor. -/
def Tile.anchored (t : Tile) (a : Int) : Tile := if t.defPend then { t with anchor := a, defPend := false } else t

/-- The default anchor of an operand pair (R55). -/
def defaultAnchor (fa fb : ElemFmt) (sa sb : Bool) : Int :=
  if fa = .bf16 then 32 else 96 + unitOf fa sa + unitOf fb sb

/-! Operations. -/

/-- mx.ldb (R157). -/
def Mx.ldb (x : Mx) (h img : Nat) : Mx :=
  match tfind x.handles h with
  | none => x
  | some k => { x with stat := some { fmt := k.fmt, scaled := k.scaled, image := x.bytes (32 * (k.base + imageUnits k.scaled * img)) (32 * imageUnits k.scaled) } }

/-- One row of mx.mma: 64 columns, each K-block of the beat in turn (R142, R158). -/
def Mx.mmaRow (x : Mx) (k : Handle) (st : Stationary) (fa fb : ElemFmt) (tile : Tile) (row kstep trow : Nat) : Tile :=
  let av := x.aVector k fa row kstep
  let len := if fa.bits = 16 then 16 else 32
  (upTo 64).foldl (fun t n =>
    (upTo (kblocksPerBeat k.fmt)).foldl (fun (t : Tile) b =>
      let xa := x.aScale k row kstep b
      let xb := st.scale n b
      let pairs := (upTo len).map fun i => (av.getD (len * b + i) .nan, st.elem fb (len * b + i) n)
      let c := kblock (xa == 255 || xb == 255) pairs
      t.setEntry trow n (addKblock t.anchor (t.entry trow n) c (unitOf fa k.scaled + unitOf fb st.scaled + xa + xb - 254))) t) tile

/-- mx.mma (R153, R158). -/
def Mx.mma (x : Mx) (h row0 kstep m trow0 t : Nat) : Mx :=
  match tfind x.handles h, x.stat with
  | some k, some st =>
    match mxFmt k.fmt, mxFmt st.fmt with
    | some fa, some fb =>
      x.setTile t ((upTo m).foldl (fun tile i => x.mmaRow k st fa fb tile (row0 + i) kstep (trow0 + i))
        ((x.tile t).anchored (defaultAnchor fa fb k.scaled st.scaled)))
    | _, _ => x
  | _, _ => x

/-- The bytes of a raw image of a KIND 2 handle. -/
def Mx.rawImage (x : Mx) (k : Handle) (img : Nat) : List Byte := x.bytes (32 * (k.base + rawUnits * img)) rawBytes

/-- The anchor field of a raw image, when it holds a sign-extended 10-bit value (R150). -/
def rawAnchor (bs : List Byte) : Option Int :=
  let v := signedOf 16 (numAt bs 32768 2)
  if -512 ≤ v ∧ v ≤ 511 then some v else none

/-- Add a raw image into a tile (R52, R150, R153). -/
def Tile.addRaw (t : Tile) (bs : List Byte) (a : Int) : Tile :=
  let src : BitVec 8 := bs.getD 32770 0 &&& 0x1F
  let special := src &&& (tsNan ||| tsPinf ||| tsNinf) != 0
  let t0 := t.anchored a
  let t1 := (upTo 2048).foldl (fun (t : Tile) i =>
    let r := anchoredAdd t.anchor (t.entry (i / 64) (i % 64)) (signedOf 128 (numAt bs (16 * i) 16)) (a - 96)
    t.setEntry (i / 64) (i % 64) (if special then { r.1 with hidden := r.1.hidden ||| 2 } else r.1, r.2)) t0
  { t1 with status := t1.status ||| src ||| (if special then tsNan else 0) }

/-- Bytes of one element of a drain, by DFMT. -/
def drainSize : Nat → Nat
  | 0 | 5 => 4
  | 1 | 2 => 2
  | _ => 1

/-- One entry drained (R61, R62). -/
def drainCode (dfmt : Nat) (satf : Bool) (v : DrainV) : Nat :=
  match dfmt with
  | 0 => drainFloat .f32 false v
  | 1 => drainFloat .bf16 false v
  | 2 => drainFloat .f16 false v
  | 3 => drainFloat .e4m3 satf v
  | 4 => drainFloat .e5m2 satf v
  | _ => drainInt v

/-- One row of a tile drained. -/
def Tile.drainRow (t : Tile) (dfmt : Nat) (satf : Bool) (m : Nat) : List Byte :=
  (upTo 64).flatMap fun n => leBytes (drainSize dfmt) (drainCode dfmt satf (drainV t.anchor (t.entry m n)))

/-- A raw image of a tile (R63, R150); a default-pending one has anchor 0. -/
def Tile.rawBytes (t : Tile) : List Byte :=
  ((upTo 2048).flatMap fun i => leBytes 16 (tget 0 t.n i).toNat) ++ leBytes 2 (intBits 16 t.anchor) ++
  [t.status] ++ List.replicate 29 0

/-- The rows that a drain writes, as offsets from its destination and bytes: strides in bytes. -/
def Tile.drainRows (t : Tile) (dfmt : Nat) (satf : Bool) (rows : Nat) (stride : Int) : List (Int × List Byte) :=
  if dfmt = 6 then [(0, t.rawBytes)]
  else (upTo rows).map fun (m : Nat) => ((m : Int) * stride, t.drainRow dfmt satf m)

/-- RECLR (R159): the tile keeps its anchor, or stays default-pending. -/
def Tile.reclear (t : Tile) : Tile := Tile.cleared (if t.defPend then none else some t.anchor)

/-- mx.stat's value (R160). -/
def Tile.stat (t : Tile) : Nat :=
  t.status.toNat + (if t.defPend then 2 ^ 8 else intBits 10 t.anchor * 2 ^ 16)

/-! Ownership (R164). -/

/-- The unit as a block finds it when it becomes the owner (R164); `fresh` names contents that nothing states. -/
def Mx.acquire (x : Mx) (slot lid run fresh : Nat) : Mx :=
  let same := x.lastRun == some (lid, run)
  { x with
    buf := if same then x.buf else []
    epoch := if same then x.epoch else fresh
    stat := if same then x.stat else none
    handles := []
    accStat := none
    tiles := []
    queue := []
    beats := {}
    array := none
    reader := none
    owner := some slot
    waiters := x.waiters.filter (· != slot) }

/-- FMT and SCALED that a later mx.mma meets (R168). -/
def Mx.statFmt (x : Mx) : Option (Nat × Bool) := x.accStat.orElse fun _ => x.stat.map fun s => (s.fmt, s.scaled)

end Sys2Proof.Machine
end

