-- ==== Sys2Proof/Machine/Matrix.lean ====
section
/-! DEFINITION. The matrix unit: ownership (R162 to R164), acceptance of matrix instructions with the checks of the scoreboard (R147 to R160, R166 to R169), fills, the start of queue entries (R170, R171), drains (R172, R179) and the faults found late (R174). -/

namespace Sys2Proof.Machine

def State.mx (s : State) (p : Nat) : Mx := (s.core p).mx
def State.modMx (s : State) (p : Nat) (f : Mx → Mx) : State := s.modCore p fun c => { c with mx := f c.mx }

/-! Fields of R155. -/

def mHa (w : Word64) : Nat := fieldOf w 47 45
def mAcc (w : Word64) : Nat := fieldOf w 41 40
def mImm (w : Word64) : Nat := fieldOf w 23 0
/-- The value of a register field that may name none. -/
def Group.regOr (gr : Group) (i n none_ : Nat) : Nat := if i = 255 then none_ else gr.rd 0 true i n

/-! What is known to have ended (R168, R170, R176). -/

/-- Something takes tiles or handles that the latest operations of the array or the drain reader used: those operations have ended. -/
def Mx.past (x : Mx) (tiles hs : List Nat) : Mx :=
  let keep (u : MxUse) : Bool := !(u.tile.any tiles.contains) && !(u.handles.any hs.contains)
  { x with array := x.array.filter keep, reader := x.reader.filter keep }

/-! Acceptance. -/

/-- A block becomes the owner of the free unit (R162, R164). -/
def State.acquireMx (s : State) (p slot lid run : Nat) : State :=
  ({ s with free := s.free + 1 }).modMx p fun x => x.acquire slot lid run (s.free + 1)

/-- A matrix instruction issues for the owner; a block becomes the owner of a free unit, or waits for it (R162). One that takes a queue entry needs a free one (R167). -/
def State.mxIssue (s : State) (g : GRef) (w : Word64) (queued : Bool) (body : Ctx → State → State) : State :=
  s.issue g w fun c t =>
    let go (u : State) : State := if queued && decide (8 ≤ (u.mx g.core).queue.length) then u else body c u
    match (t.mx g.core).owner with
    | some o =>
      if o = c.gr.block then go t
      else (t.modMx g.core fun x => { x with waiters := if x.waiters.contains c.gr.block then x.waiters else x.waiters ++ [c.gr.block] }).park g .residency (.unit [] [] none)
    | none => go (t.acquireMx g.core c.gr.block c.lid c.gr.run)

/-- Accept an instruction into the queue: the handles that it reads are resident, and those that it writes are in no use (R168). -/
def State.accept (s : State) (g : GRef) (c : Ctx) (w : Word64) (op : MxOp) : State :=
  ((s.issued g c).retire g c.gr).modMx g.core fun x =>
    { x with
      queue := x.queue ++ [{ op := op, guid := c.gr.uid, site := c.site g w }]
      reader := x.reader.filter fun u => !(u.handles.any (op.reads ++ op.writes).contains)
      array := x.array.filter fun u => !(u.handles.any op.writes.contains) }

/-- The causes, without an address, that hold. -/
def Ctx.causes (c : Ctx) (xs : List (Nat × Bool)) : List Exc :=
  (xs.filter (·.2)).map fun x => { cause := x.1, lane := c.gr.low }
/-- The causes with an address. -/
def Ctx.causesAt (c : Ctx) (addr : Nat) (xs : List (Nat × Bool)) : List Exc :=
  (xs.filter (·.2)).map fun x => { cause := x.1, lane := c.gr.low, addr := addr }

/-- A handle of a kind: the causes where it is invalid or of another kind, and those that the rest gives. -/
def Ctx.withHandle (c : Ctx) (x : Mx) (h : Nat) (kind : Option Nat) (k : Handle → List Exc) : List Exc :=
  match tfind x.handles h with
  | none => c.causes [(exMxHandle, true)]
  | some y =>
    match kind with
    | some n => if y.kind = n then k y else c.causes [(exMxKind, true)]
    | none => k y

/-- MX_HDL (R147, R151, R168). -/
def State.rowMxHdl (s : State) (g : GRef) (w : Word64) : State :=
  s.mxIssue g w false fun c t =>
    let h := mHa w
    let x := t.mx g.core
    let d := c.gr.rd 0 true (fD w) 2
    let k := handleOf d
    let clash := x.handles.any fun e => e.1 != h && overlaps e.2.base e.2.size k.base k.size
    t.orRaise g c w (c.causes [(exMxHandle, fD w != 255 && (!descOk d || clash))]) fun u =>
      if x.ready [] [h] then
        ((u.issued g c).retire g c.gr).modMx g.core fun y =>
          { y.past [] [h] with handles := if fD w = 255 then tdel y.handles h else tset y.handles h k }
      else u.park g .residency (.unit [] [h] none)

/-! Ranges of memory. -/

/-- Where the bytes of a range lie, page by page; a page without a translation is left out. -/
def State.spansVa (s : State) (core p : Nat) (acc : TAcc) : Nat → Nat → Nat → List (Nat × Nat) × State
  | 0, _, _ => ([], s)
  | fuel + 1, va, n =>
    if n = 0 then ([], s)
    else
      let m := min n (4096 - va % 4096)
      match s.transl p va acc (.core core) with
      | (.error _, t) => t.spansVa core p acc fuel (va + m) (n - m)
      | (.ok tr, t) =>
        let r := t.spansVa core p acc fuel (va + m) (n - m)
        ((tr.tgt.key, m) :: r.1, r.2)

/-- The same of several ranges. -/
def State.spansRows (s : State) (core p : Nat) (acc : TAcc) : List (Nat × Nat) → List (Nat × Nat) × State
  | [] => ([], s)
  | (va, n) :: rest =>
    let a := s.spansVa core p acc (n / 4096 + 2) va n
    let b := a.2.spansRows core p acc rest
    (a.1 ++ b.1, b.2)

/-- The group's buffered stores touch a range. -/
def State.sbufHit (s : State) (g : GRef) (uid : Nat) (spans : List (Nat × Nat)) : Bool :=
  (tget [] (s.core g.core).sbufs (gkey g.sched g.slot)).any fun e =>
    e.guid == uid && !e.remote && spansHit (e.writes.map fun x => (x.tgt.key, x.data.length)) spans

/-- The rows of a fill: first unit, source and bytes (R156). -/
def fillRows (first count pitch : Nat) (src stride : Int) : List (Nat × Int × Nat) :=
  if stride = 0 then [(first, src, 32 * count)]
  else (upTo ((count + pitch - 1) / pitch)).map fun (r : Nat) => (first + r * pitch, src + (r : Int) * stride, 32 * min pitch (count - r * pitch))

/-- The L2 side of a global fill: its lines are fetched. -/
def State.touchSpans (s : State) (p cls : Nat) (spans : List (Nat × Nat)) : State :=
  (spans.filter fun x => decide (x.1 < 2 ^ 64)).foldl (fun t x => t.l2Touch p x.1 x.2 false cls) s

/-- MX_FILL (R156, R167 to R169, R179, R235). Like any access, it waits for the group's acquires (R239). -/
def State.rowMxFill (s : State) (g : GRef) (w : Word64) : State :=
  s.mxIssue g w false fun c t =>
    let x := t.mx g.core
    let isLocal := getBits (mImm w) 0 1 == 1
    let src := c.gr.rd 0 true (fD w) (if isLocal then 1 else 2)
    let ub := c.gr.rd 0 true (fA w) 2
    let first := getBits ub 0 13
    let count := getBits ub 13 13 + 1
    let stride := signedOf 32 (ub / 2 ^ 32)
    let cls := if getBits (mImm w) 1 1 = 1 then 2 else 3
    let rows (k : Handle) := fillRows first count k.pitch src stride
    let errs := c.withHandle x (mHa w) none fun k =>
      c.causes [(exMxKind, stride != 0 && k.kind != 0), (exMxRange, decide (k.size < first + count))] ++
      c.causesAt src [(exSpace, isLocal && (stride == 0 || k.kind == 0) && (rows k).any fun r => decide (r.2.1 < 0 ∨ (c.blk.lsBytes : Int) < r.2.1 + r.2.2))]
    t.access g c w false fun t => t.orRaise g c w (c.causesAt src [(exMisaligned, decide (src % 32 ≠ 0 ∨ stride % 32 ≠ 0))] ++ errs) fun u =>
      match tfind x.handles (mHa w) with
      | none => u
      | some k =>
        let rs := rows k
        let q : List (Nat × Nat) × State :=
          if isLocal then (rs.map fun r => (localKey c.gr.block r.2.1.toNat, r.2.2), u)
          else u.spansRows g.core c.la.part .read (rs.map fun r => (intBits 64 r.2.1, r.2.2))
        if 4 ≤ x.fills.length ∨ u.sbufHit g c.gr.uid q.1 = true then q.2
        else if !(x.ready [] [mHa w]) || (q.2.core g.core).trackFull || (q.2.core g.core).trackHit false q.1 then q.2.park g .residency (.unit [] [mHa w] (some (false, q.1)))
        else
          let v := (q.2.issued g c).track g.core { guid := c.gr.uid, launch := c.lid, run := c.gr.run, part := c.la.part, isWrite := false, spans := q.1 }
          let f : Fill := {
            h := mHa w
            unit0 := first
            count := count
            isLocal := isLocal
            src := src
            stride := stride
            pitch := k.pitch
            lcr := cls == 2
            track := some v.1
            guid := c.gr.uid
            site := c.site g w
            cut := q.2.d2d }
          let y := (v.2.modCore g.core fun z => { z with mx := { z.mx.past [] [mHa w] with fills := tset z.mx.fills z.nextId f }, nextId := z.nextId + 1 }).retire g c.gr
          if isLocal then y else y.touchSpans c.la.part cls q.1

/-- MX_LDB (R157). -/
def State.rowMxLdb (s : State) (g : GRef) (w : Word64) : State :=
  s.mxIssue g w true fun c t =>
    let x := t.mx g.core
    let img := c.gr.regOr (fA w) 1 0 + getBits (mImm w) 0 12
    t.orRaise g c w (c.withHandle x (mHa w) (some 1) fun k => c.causes [(exMxRange, decide (k.images ≤ img))]) fun u =>
      if x.resident (mHa w) then
        (u.accept g c w (.ldb (mHa w) img)).modMx g.core fun y =>
          { y with accStat := (tfind y.handles (mHa w)).map fun k => (k.fmt, k.scaled) }
      else u.park g .residency (.unit [mHa w] [] none)

/-- MX_MMA (R158, R168). -/
def State.rowMxMma (s : State) (g : GRef) (w : Word64) : State :=
  s.mxIssue g w true fun c t =>
    let x := t.mx g.core
    let row0 := c.gr.regOr (fD w) 1 0
    let kstep := c.gr.regOr (fA w) 1 0 + getBits (mImm w) 10 12
    let m := getBits (mImm w) 0 5 + 1
    let trow0 := getBits (mImm w) 5 5
    let errs := c.causes [(exMxRange, decide (32 < trow0 + m)), (exMxNoStat, x.statFmt.isNone)] ++
      c.withHandle x (mHa w) (some 0) fun k =>
        c.causes [(exMxRange, decide (k.rows < row0 + m ∨ k.pitch ≤ kstep)),
          (exMxFormat, match x.statFmt with
            | some f => mxClass f.1 != mxClass k.fmt
            | none => false)]
    t.orRaise g c w errs fun u =>
      if x.resident (mHa w) then u.accept g c w (.mma (mHa w) row0 kstep m trow0 (mAcc w)) else u.park g .residency (.unit [mHa w] [] none)

/-- MX_CLR (R153, R155). -/
def State.rowMxClr (s : State) (g : GRef) (w : Word64) : State :=
  s.mxIssue g w true fun c t =>
    let anchor : Option Int :=
      if fD w ≠ 255 then some (signedOf 10 (c.gr.rd 0 true (fD w) 1 % 1024))
      else if getBits (mImm w) 10 1 = 1 then none else some (signedOf 10 (getBits (mImm w) 0 10))
    t.accept g c w (.clr (mAcc w) anchor)

/-- MX_ADDRAW (R150, R168). -/
def State.rowMxAddraw (s : State) (g : GRef) (w : Word64) : State :=
  s.mxIssue g w true fun c t =>
    let x := t.mx g.core
    let img := c.gr.regOr (fA w) 1 0 + getBits (mImm w) 0 12
    t.orRaise g c w (c.withHandle x (mHa w) (some 2) fun k => c.causes [(exMxRange, decide (k.images ≤ img))]) fun u =>
      if x.resident (mHa w) then u.accept g c w (.addraw (mHa w) img (mAcc w)) else u.park g .residency (.unit [mHa w] [] none)

/-! Drains. -/

/-- The element format of a KIND 0 handle that a row drain to it needs (R159). -/
def drainHandleFmt : Nat → Option Nat
  | 1 => some 8
  | 2 => some 7
  | 3 => some 0
  | 4 => some 1
  | _ => none

/-- Units of one drained row. -/
def drainRowUnits (dfmt : Nat) : Nat := 2 * drainSize dfmt

/-- The extents of a drain to memory: destination of each row, and bytes. -/
def drainExtents (dfmt rows : Nat) (dst stride : Int) : List (Int × Nat) :=
  if dfmt = 6 then [(dst, rawBytes)] else (upTo rows).map fun (m : Nat) => (dst + (m : Int) * stride, 64 * drainSize dfmt)

/-- The lowest and highest byte of extents, the highest exclusive. -/
def extentSpan (xs : List (Int × Nat)) : Int × Int :=
  match xs with
  | [] => (0, 0)
  | e :: rest => rest.foldl (fun (a : Int × Int) (x : Int × Nat) => (min a.1 x.1, max a.2 (x.1 + x.2))) (e.1, e.1 + e.2)

/-- The windows of local memory cover the bytes from `lo` to `hi`. -/
def coverFrom (ws : List Win) (hi : Nat) : Nat → Nat → Bool
  | 0, lo => decide (hi ≤ lo)
  | fuel + 1, lo =>
    decide (hi ≤ lo) ||
    match ws.find? fun x => !x.remote && decide (x.base ≤ lo ∧ lo < x.base + x.len) with
    | some x => coverFrom ws hi fuel (x.base + x.len)
    | none => false
def Launch.covers (l : Launch) (lo hi : Int) : Bool := decide (0 ≤ lo) && coverFrom l.wins hi.toNat (l.wins.length + 1) lo.toNat

/-- The causes of a drain to a handle (R159, R168). -/
def Ctx.drainHandleErrs (c : Ctx) (x : Mx) (h dfmt first : Nat) : List Exc :=
  if dfmt = 6 then
    c.withHandle x h (some 2) fun k =>
      c.causes [(exMxFormat, first % rawUnits != 0), (exMxRange, decide (k.images ≤ first / rawUnits))]
  else
    c.withHandle x h (some 0) fun k =>
      c.causes [(exMxFormat, drainHandleFmt dfmt != some k.fmt || k.scaled),
        (exMxRange, decide (k.size < first + 31 * k.pitch + drainRowUnits dfmt))]

/-- MX_DRAIN (R159, R168, R172, R179). A drain to memory is an access of the group, and waits for its acquires (R239); a drain to a handle is none. -/
def State.rowMxDrain (s : State) (g : GRef) (w : Word64) : State :=
  s.mxIssue g w true fun c t =>
    let x := t.mx g.core
    let dfmt := getBits (mImm w) 0 3
    let satf := getBits (mImm w) 3 1 == 1
    let dst := getBits (mImm w) 4 2
    let reclr := getBits (mImm w) 6 1 == 1
    let addr := c.gr.rd 0 true (fD w) (if dst = 0 then 2 else 1)
    let stride := c.gr.regOr (fA w) 1 (64 * drainSize dfmt)
    let satBad := c.causes [(exMxFormat, satf && dfmt != 3 && dfmt != 4)]
    if dst = 2 then
      t.orRaise g c w (satBad ++ c.drainHandleErrs x (mHa w) dfmt addr) fun u =>
        if x.unused (mHa w) then u.accept g c w (.drain (mAcc w) dfmt satf dst (mHa w) addr stride reclr none)
        else u.park g .residency (.unit [] [mHa w] none)
    else t.access g c w false fun t =>
      let ext := drainExtents dfmt 32 addr stride
      let sp := extentSpan ext
      let errs := satBad ++ c.causesAt addr [
        (exMisaligned, decide (addr % 32 ≠ 0 ∨ stride % 32 ≠ 0)),
        (exWindow, dst == 0 && !(c.la.covers sp.1 sp.2)),
        (exSpace, dst == 1 && decide ((c.blk.lsBytes : Int) < sp.2))]
      t.orRaise g c w errs fun u =>
        let q : List (Nat × Nat) × State :=
          if dst = 1 then (ext.map fun e => (localKey c.gr.block e.1.toNat, e.2), u)
          else u.spansRows g.core c.la.part .write (ext.map fun e => (e.1.toNat, e.2))
        if u.sbufHit g c.gr.uid q.1 then q.2
        else if (q.2.core g.core).trackFull || (q.2.core g.core).trackHit true q.1 then q.2.park g .residency (.unit [] [] (some (true, q.1)))
        else
          let v := q.2.track g.core { guid := c.gr.uid, launch := c.lid, run := c.gr.run, part := c.la.part, isWrite := true, spans := q.1 }
          v.2.accept g c w (.drain (mAcc w) dfmt satf dst 0 addr stride reclr (some v.1))

/-- MX_STAT (R160). -/
def State.rowMxStat (s : State) (g : GRef) (w : Word64) : State :=
  s.mxIssue g w true fun c t => t.accept g c w (.stat (mAcc w) (fD w))

/-! Late faults (R174). -/

/-- The tracker entry that an operation holds. -/
def MxOp.track : MxOp → Option Nat
  | .drain _ _ _ _ _ _ _ _ k => k
  | .nest _ k => k
  | _ => none

/-- Free a tracker entry that no drain in the output buffer and no running nest holds. -/
def State.freeTrack (s : State) (p : Nat) (k : Option Nat) : State :=
  match k with
  | none => s
  | some id =>
    let x := s.mx p
    if (x.drains.any fun e => e.2.track == some id) || (match x.nest with
        | some n => n.track == some id
        | none => false) then s
    else s.untrack p id

/-- A fault found after acceptance: the launch ends, and entries that have not started are discarded. The spec does not say what becomes of a nest that runs when another operation's fault is found: that it stops at once, with no further operation of it, is the model's (DESIGN CHOICE, log entry 81). -/
def State.mxFault (s : State) (p lid guid part : Nat) (site : Site) (e : Exc) : State :=
  let x := s.mx p
  let ks := (x.queue.map (·.op.track)) ++ (match x.nest with
    | some n => [n.track]
    | none => [])
  ks.foldl (fun t k => t.freeTrack p k) ((s.raiseLate p lid guid part site e).modMx p fun y => { y with queue := [], nest := none })

/-! Fills complete (R169, R174, R178). -/

/-- Read a range of global memory for the unit: bytes, or the cause. Which address CORE_EXC_ADDR records for a range the spec does not say; it is that of the range's first byte (DESIGN CHOICE, log entry 110). -/
def State.mxRead (s : State) (p core lane va n : Nat) : Except Exc (List Byte) × State :=
  match s.translSpan p va n .read (.core core) with
  | (.error f, t) => (.error (f.exc lane va), t)
  | (.ok ps, t) =>
    if ps.any (·.1.mt) then (.error { cause := exTranslation, lane := lane, addr := va }, t)
    else if ps.any fun e => t.poisonedAt e.1.tgt e.2 then (.error { cause := exUncorrectable, lane := lane, addr := va }, t.askHost (ps.map fun e => (e.1.tgt, e.2)))
    else
      let r := ps.foldl (fun (a : List Byte × State) e =>
        let y := a.2.readAt e.1.tgt e.2
        (a.1 ++ y.1, y.2)) ([], t)
      (.ok r.1, r.2)

/-- Read the rows of a fill, all of them: their units, or what each of the failing rows meets. -/
def State.fillData (s : State) (p core slot lane : Nat) (isLocal : Bool) : List (Nat × Int × Nat) → Except (List Exc) (List (Nat × List Byte)) × State
  | [] => (.ok [], s)
  | (u, src, n) :: rest =>
    let r : Except Exc (List Byte) × State :=
      if isLocal then (.ok (s.lsRead core slot src.toNat n), s) else s.mxRead p core lane (intBits 64 src) n
    let q := r.2.fillData p core slot lane isLocal rest
    match r.1, q.1 with
    | .ok bs, .ok more => (.ok ((u, bs) :: more), q.2)
    | .ok _, .error es => (.error es, q.2)
    | .error e, .ok _ => (.error [e], q.2)
    | .error e, .error es => (.error (e :: es), q.2)

/-- Some of several causes is a way that is cut: what meets it waits (log entry 77). -/
def anyCut (xs : List Exc) : Bool := xs.any fun e => e.cause == exCut

/-- HBM lines of a tracker entry still wait at their controllers. -/
def State.linesWait (s : State) (spans : List (Nat × Nat)) : Bool :=
  spans.any fun x => decide (x.1 < 2 ^ 64) && s.hbmWaits x.1 x.2

/-- A fill's units are in the operand buffer: its handle is resident. Of several rows that fail the lowest cause is recorded (R139, R174); while no way round the ring leads to a table that the walks read, it waits (log entry 77). -/
def State.completeFill (s : State) (p id : Nat) : State :=
  match tfind (s.mx p).fills id, (s.mx p).owner with
  | some f, some slot =>
    match s.blockAt p slot with
    | none => s
    | some b =>
      match tfind (s.mx p).handles f.h, s.launch? b.launch with
      | some k, some la =>
        let spans := match f.track with
          | some x => ((tfind (s.core p).art x).map (·.spans)).getD []
          | none => []
        if f.isLocal = false ∧ (s.linesWait spans || !s.spansReach f.cut .load .readData p spans || (s.core p).olderRead (f.track.getD 0) spans) = true then s
        else
          let r := s.fillData la.part p slot f.site.lane f.isLocal (fillRows f.unit0 f.count f.pitch f.src f.stride)
          let done (t : State) : State := (t.modMx p fun y => { y with fills := tdel y.fills id }).freeTrack p f.track
          match r with
          | (.error es, t) =>
            if anyCut es then s
            else (match pickExc es with
              | some e => (done t).mxFault p b.launch f.guid la.part f.site e
              | none => s)
          | (.ok rows, t) => ((done t).modMx p fun y => rows.foldl (fun z q => z.put (k.base + q.1) q.2) y).wakeAll p .residency
      | _, _ => s
  | _, _ => s

/-- MX_FILL_COMPLETE (R169, R174, R178). -/
def execMxFillComplete (core id : Nat) (s : State) : Host.Outcome State Fault Refusal :=
  withUnit (okCore core) (s.completeFill core id)

/-! Entries start (R170, R171). -/

/-- Split bytes at 128-byte lines. -/
def lineParts : Nat → Nat → List Byte → List (Nat × List Byte)
  | 0, _, _ => []
  | fuel + 1, va, bs =>
    if bs = [] then []
    else
      let m := 128 - va % 128
      (va, bs.take m) :: lineParts fuel (va + m) (bs.drop m)

/-- Translate the rows of a drain, all before any byte is written: the writes of each page, or what each of the failing rows meets (R172, R229). The address of a row's cause is that of its first byte, as for a fill (DESIGN CHOICE, log entry 110). -/
def State.drainWrites (s : State) (p core lane : Nat) : List (Nat × List Byte) → Except (List Exc) (List LaneWrite) × State
  | [] => (.ok [], s)
  | (va, bs) :: rest =>
    match s.translSpan p va bs.length .write (.core core) with
    | (.error f, t) =>
      let q := t.drainWrites p core lane rest
      (.error (f.exc lane va :: (match q.1 with
        | .error es => es
        | .ok _ => [])), q.2)
    | (.ok ps, t) =>
      let q := t.drainWrites p core lane rest
      if ps.any (·.1.mt) then
        (.error ({ cause := exTranslation, lane := lane, addr := va } :: (match q.1 with
          | .error es => es
          | .ok _ => [])), q.2)
      else
        let ws := ps.foldl (fun (a : List LaneWrite × Nat × List Byte) e =>
          (a.1 ++ [{ lane := lane, va := a.2.1, tgt := e.1.tgt, data := a.2.2.take e.2 }], a.2.1 + e.2, a.2.2.drop e.2)) ([], va, bs)
        match q.1 with
        | .error es => (.error es, q.2)
        | .ok more => (.ok (ws.1 ++ more), q.2)

/-- A drain: what it reads, and where it goes (R159, R172). -/
structure DrainJob where
  tile   : Nat
  dfmt   : Nat
  satf   : Bool
  dst    : Nat
  h      : Nat
  addr   : Int
  stride : Int
  rows   : Nat
  /-- What becomes of the tile after the read phase: RECLR, or nothing. -/
  after  : Tile → Tile
  track  : Option Nat

/-- The output buffer has room for a drain to memory. R172 says so of a drain, and then sends the rows of one to a handle straight into the operand buffer: that such a drain needs no room is the model's (DESIGN CHOICE, log entry 104). -/
def Mx.drainRoom (x : Mx) (dst : Nat) : Bool := dst == 2 || decide (x.drains.length < 2)

/-- The tile after the read phase (R159, R184). -/
def State.afterDrain (s : State) (p : Nat) (j : DrainJob) : State :=
  s.modMx p fun y => y.setTile j.tile (j.after (y.tile j.tile))

/-- Where a drain to memory puts its rows: its writes, or what they meet; a drain to local store needs no translation. -/
def State.drainOut (s : State) (p : Nat) (la : Launch) (site : Site) (j : DrainJob) (rows : List (Int × List Byte)) : Except (List Exc) (List LaneWrite) × State :=
  if j.dst = 0 then s.drainWrites la.part p site.lane (rows.map fun q => ((j.addr + q.1).toNat, q.2))
  else (.ok (rows.map fun q => { lane := site.lane, va := (j.addr + q.1).toNat, tgt := .hbm (j.addr + q.1).toNat, data := q.2 }), s)

/-- A drain to memory cannot start while no way round the ring leads to a table that its walks read (log entry 77). -/
def State.drainHeld (s : State) (p : Nat) (la : Launch) (site : Site) (j : DrainJob) : Bool :=
  j.dst == 0 && match (s.drainOut p la site j (((s.mx p).tile j.tile).drainRows j.dfmt j.satf j.rows j.stride)).1 with
    | .error es => anyCut es
    | .ok _ => false

/-- A drain starts: a trapping launch checks its tile (R64), a drain to memory its pages, and of what they find the lowest cause is recorded (R139, R174); then it reads the tile and its output waits in the buffer, or is in the handle. -/
def State.startDrain (s : State) (p slot : Nat) (b : Block) (la : Launch) (guid : Nat) (site : Site) (j : DrainJob) : State :=
  let x := s.mx p
  let tile := x.tile j.tile
  let rows := tile.drainRows j.dfmt j.satf j.rows j.stride
  let inexact : List Exc := if eTrapx la.entry ∧ tile.status &&& (tsInexact ||| tsOvf) ≠ 0 then [{ cause := exMxInexact, lane := site.lane }] else []
  if j.dst = 2 then
    match inexact, tfind x.handles j.h with
    | e :: _, _ => (s.freeTrack p j.track).mxFault p b.launch guid la.part site e
    | [], none => s
    | [], some k =>
      let outs := tile.drainRows j.dfmt j.satf j.rows (k.pitch : Int)
      ((s.modMx p fun y => outs.foldl (fun z q => z.put (k.base + (j.addr + q.1).toNat) q.2) y).afterDrain p j).wakeAll p .residency
  else
    let r := s.drainOut p la site j rows
    let errs := inexact ++ (match r.1 with
      | .error es => es
      | .ok _ => [])
    match pickExc errs, r.1 with
    | some e, _ => (r.2.freeTrack p j.track).mxFault p b.launch guid la.part site e
    | none, .error _ => s
    | none, .ok ws =>
      let d : DrainBuf := {
        guid := guid
        isLocal := j.dst == 1
        block := slot
        launch := b.launch
        writes := ws
        track := j.track
        cut := s.d2d }
      let u := (r.2.modCore p fun c =>
        { c with mx := { c.mx with drains := tset c.mx.drains c.nextId d, reader := c.mx.reader.map fun r => { r with drain := some c.nextId } }, nextId := c.nextId + 1 }).afterDrain p j
      if j.dst = 1 then u
      else u.foldRecs b.launch b ((rows.map fun q => lineParts (q.2.length / 128 + 2) (j.addr + q.1).toNat q.2).flatten)

/-- The tiles that a nest table names: those that the walk reaches. -/
def NestTab.tiles (n : NestTab) : List Nat :=
  (n.levs.foldl (fun (ts : List Int) l =>
    if l.sacc = 0 then ts
    else (ts.flatMap fun t => (upTo (min l.bound 4)).map fun (i : Nat) => t + (i : Int) * l.sacc).dedup) [(n.hdr.acc0 : Int)]).map Int.toNat

/-- The tile of an operation. -/
def MxOp.tile : MxOp → Option Nat
  | .mma _ _ _ _ _ t | .clr t _ | .addraw _ _ t | .drain t _ _ _ _ _ _ _ _ | .stat t _ => some t
  | _ => none

/-- The resources that a running nest holds against an operation (R170). -/
def Mx.nestBlocks (x : Mx) (op : MxOp) : Bool :=
  match x.nest with
  | none => false
  | some n =>
    (match op with
     | .ldb _ _ | .mma _ _ _ _ _ _ | .nest _ _ => true
     | _ => false) ||
    (match op.tile with
     | some t => n.tab.tiles.contains t
     | none => false)

/-- The job of an mx.drain. -/
def drainJob (t dfmt : Nat) (satf : Bool) (dst h : Nat) (addr stride : Int) (reclr : Bool) (track : Option Nat) : DrainJob :=
  { tile := t, dfmt := dfmt, satf := satf, dst := dst, h := h, addr := addr, stride := stride, rows := 32, after := if reclr then Tile.reclear else id, track := track }

/-- The effect of an entry as it starts. -/
def State.runEntry (s : State) (p slot : Nat) (b : Block) (la : Launch) (e : MxEntry) : State :=
  match e.op with
  | .ldb h img => ((s.modMx p fun x => x.ldb h img).pmEvent p evLoading la.part 32).wakeAll p .residency
  | .mma h row0 kstep m trow0 t => ((s.modMx p fun x => x.mma h row0 kstep m trow0 t).pmEvent p evArray la.part m).wakeAll p .residency
  | .clr t anchor => s.modMx p fun x => x.setTile t (Tile.cleared anchor)
  | .addraw h img t =>
    match tfind (s.mx p).handles h with
    | none => s
    | some k =>
      let bs := (s.mx p).rawImage k img
      match rawAnchor bs with
      | some a => (s.modMx p fun x => x.setTile t ((x.tile t).addRaw bs a)).wakeAll p .residency
      | none => s.mxFault p b.launch e.guid la.part e.site { cause := exMxFormat, lane := e.site.lane }
  | .drain t dfmt satf dst h addr stride reclr track =>
    s.startDrain p slot b la e.guid e.site (drainJob t dfmt satf dst h addr stride reclr track)
  | .stat t u =>
    let g : GRef := ⟨p, e.site.sched, e.site.slot⟩
    match s.group? g with
    | some gr => if gr.uid = e.guid then s.setGroup g (gr.setU u (BitVec.ofNat 32 ((s.mx p).tile t).stat)) else s
    | none => s
  | .nest tab track => s.modMx p fun x => { x with nest := some { tab := tab, entry := e, track := track, beat := x.beats.next - 1 } }

/-- The tiles that an operation takes. -/
def MxOp.tiles (op : MxOp) : List Nat :=
  match op with
  | .nest tab _ => tab.tiles
  | _ => op.tile.toList

/-- The first beat in which an entry's resources are free, after those in which every earlier entry, and every operation of the running nest, has started (R170). -/
def Mx.startBeat (x : Mx) (op : MxOp) : Nat :=
  let b := x.beats
  let start := (match x.nest with
    | some n => max b.next n.beat
    | none => b.next)
  let unit := match op with
    | .ldb _ _ | .mma _ _ _ _ _ _ | .nest _ _ => max start b.array
    | .drain _ _ _ _ _ _ _ _ _ => max start b.reader
    | _ => start
  op.tiles.foldl (fun a t => max a (tget 0 b.tiles t)) unit

/-- The resources that an entry holds from its start beat (R170); a nest's operations hold theirs. -/
def Beats.take (b : Beats) (at_ : Nat) (op : MxOp) : Beats :=
  let c : Beats := { b with next := at_ + 1 }
  match op with
  | .ldb _ _ => { c with array := at_ + 32 }
  | .mma _ _ _ m _ t => { c with array := at_ + m, tiles := tset c.tiles t (at_ + m + 3) }
  | .clr t _ => { c with tiles := tset c.tiles t (at_ + 2) }
  | .addraw _ _ t => { c with tiles := tset c.tiles t (at_ + 34) }
  | .drain t _ _ _ _ _ _ reclr _ => { c with reader := at_ + 32, tiles := tset c.tiles t (at_ + if reclr then 34 else 32) }
  | .stat t _ => { c with tiles := tset c.tiles t (at_ + 1) }
  | .nest _ _ => c

/-- What an operation that starts takes of the array and the drain reader, as CORE_MX_STATE shows it (R176); it shows that those before it on its tiles have ended. -/
def Mx.taken (x : Mx) (op : MxOp) (ofNest : Bool) (now beat : Nat) : Mx :=
  let y := x.past op.tiles []
  let u : MxUse := { tile := none, ofNest := ofNest, since := now, beat := beat }
  match op with
  | .ldb h _ => { y with array := some { u with handles := [h] } }
  | .mma h _ _ _ _ t => { y with array := some { u with tile := some t, handles := [h] } }
  | .nest _ _ => { y with array := none }
  | .drain t _ _ dst h _ _ _ _ => { y with reader := some { u with tile := some t, handles := if dst = 2 then [h] else [] } }
  | _ => y

/-- The oldest entry starts, once its resources are free and its launch has not failed (R137, R170). -/
def State.startEntry (s : State) (p : Nat) : State :=
  let x := s.mx p
  match x.queue, x.owner with
  | e :: rest, some slot =>
    match s.blockAt p slot with
    | none => s
    | some b =>
      match s.launch? b.launch with
      | none => s
      | some la =>
        let room := match e.op with
          | .drain t dfmt satf dst h addr stride reclr track => x.drainRoom dst && !s.drainHeld p la e.site (drainJob t dfmt satf dst h addr stride reclr track)
          | _ => true
        if la.fail.isSome || la.hung != 0 || x.nestBlocks e.op || !room then s
        else ((s.modLaunch b.launch fun l => { l with progGt := s.now }).modMx p fun y =>
          { y.taken e.op false s.now (y.startBeat e.op) with queue := rest, beats := y.beats.take (y.startBeat e.op) e.op }).runEntry p slot b la e
  | _, _ => s

/-- MX_ENTRY_START (R170 to R172, R174). -/
def execMxEntryStart (core : Nat) (s : State) : Host.Outcome State Fault Refusal :=
  withUnit (okCore core) (s.startEntry core)

/-! Drain writes (R172, R179, R186). -/

/-- The next write of a drain reaches its place, after its read phase, which shows as over from now on (R172, R176); after the last the tracker entry is released. -/
def State.performDrain (s : State) (p id : Nat) : State :=
  match tfind (s.mx p).drains id with
  | none => s
  | some d =>
    match d.writes with
    | [] => (s.modMx p fun y => { y with drains := tdel y.drains id }).freeTrack p d.track
    | w :: rest =>
      if d.isLocal = false ∧ s.reaches d.cut .store .acknowledgement p w.tgt = false then s else
      let part := match s.launch? d.launch with
        | some la => la.part
        | none => 0
      let t := if d.isLocal then s.lsWrite p d.block w.va w.data
        else
          let u := s.performAll p d.launch part [w]
          match w.tgt with
          | .hbm a => (lineParts (w.data.length / 128 + 2) a w.data).foldl (fun v q => v.l1Update p q.1 q.2) u
          | _ => u
      let u := t.modMx p fun y => { y with reader := y.reader.filter fun r => r.drain != some id }
      if rest = [] then (u.modMx p fun y => { y with drains := tdel y.drains id }).freeTrack p d.track
      else u.modMx p fun y => { y with drains := tset y.drains id { d with writes := rest } }

/-- DRAIN_WRITE_PERFORMED (R172, R179). -/
def execDrainWritePerformed (core id : Nat) (s : State) : Host.Outcome State Fault Refusal :=
  withUnit (okCore core) (s.performDrain core id)

/-! Ownership ends (R162 to R164). -/

/-- The tile status bytes as CORE_MX_TSTAT holds them (R176). -/
def Mx.tstat (x : Mx) : Nat := leNat ((upTo 4).map fun t => (x.tile t).status)

/-- Hand the unit to the block that waited first. -/
def State.nextOwner (s : State) (p : Nat) : State :=
  match (s.mx p).waiters with
  | [] => s
  | o :: _ =>
    match s.blockAt p o with
    | some b => s.acquireMx p o b.launch b.run
    | none => s.modMx p fun x => { x with waiters := x.waiters.drop 1 }

/-- The owner's groups have exited, and its entries, fills and drain writes are done. -/
def State.endOwnership (s : State) (p : Nat) : State :=
  let x := s.mx p
  match x.owner with
  | none => s
  | some slot =>
    match s.blockAt p slot with
    | none => s
    | some b =>
      if b.ended && x.queue == [] && x.fills == [] && x.drains == [] && x.nest == none then
        ((((s.setReg (mxTstat p) (BitVec.ofNat 32 x.tstat)).modMx p fun y =>
          { y with owner := none, lastRun := some (b.launch, b.run), array := none, reader := none }).nextOwner p).wakeAll p .residency).reap b
      else s

/-- MX_OWNERSHIP_END (R162, R163). -/
def execMxOwnershipEnd (core : Nat) (s : State) : Host.Outcome State Fault Refusal :=
  withUnit (okCore core) (s.endOwnership core)

end Sys2Proof.Machine
end

