-- ==== Sys2Proof/Machine/Nest.lean ====
section
/-! DEFINITION. Loop nests: the table (R180 to R182), its checks at acceptance (R188 to R190), and the walk (R183 to R187). -/

namespace Sys2Proof.Machine

/-! The table. -/

/-- The header of a table's bytes (R181). -/
def nestHdr (t : List Byte) : NestHdr :=
  let b (i : Nat) : Nat := numAt t i 1
  { nlev := b 0 % 8, ha := b 1 % 8, hb := getBits (b 1) 4 3, m := b 2 % 32 + 1,
    clear := getBits (b 3) 0 1 == 1, anchDef := getBits (b 3) 1 1 == 1, drain := getBits (b 3) 2 1 == 1, satf := getBits (b 3) 3 1 == 1,
    anchor := signedOf 10 (numAt t 4 2 % 1024), dfmt := b 6 % 8, dst := getBits (b 6) 4 2, acc0 := b 7 % 4,
    a0 := numAt t 8 4, b0 := numAt t 0xC 4, c0 := numAt t 0x10 8, crow := numAt t 0x18 4, hc := b 0x1C % 8 }

/-- Level `i` (R182). -/
def nestLevel (t : List Byte) (i : Nat) : NestLevel :=
  let o := 0x40 + 32 * i
  { bound := numAt t o 4, sa := signedOf 32 (numAt t (o + 4) 4), sb := signedOf 32 (numAt t (o + 8) 4),
    sacc := signedOf 32 (numAt t (o + 0xC) 4), sc := signedOf 64 (numAt t (o + 0x10) 8),
    pos := numAt t (o + 0x18) 1 % 8, isK := numAt t (o + 0x19) 1 % 2 == 1, tail := numAt t (o + 0x1A) 1 % 32 }

/-- Levels in the order of the walk, outermost first: those of POS 0, then 1, and so on. -/
def nestTab (t : List Byte) : NestTab :=
  let h := nestHdr t
  let ls := (upTo h.nlev).map (nestLevel t)
  { hdr := h, levs := (upTo 8).flatMap fun k => ls.filter fun l => l.pos == k }

/-- The reserved fields are 0, and the fields that must be 0 in the case at hand (R181, R182). -/
def nestReserved (t : List Byte) : Bool :=
  let h := nestHdr t
  let b (i : Nat) : Nat := numAt t i 1
  decide (b 0 / 8 = 0 ∧ getBits (b 1) 3 1 = 0 ∧ b 1 / 128 = 0 ∧ b 2 / 32 = 0 ∧ b 3 / 16 = 0 ∧ numAt t 4 2 / 1024 = 0 ∧
    getBits (b 6) 3 1 = 0 ∧ b 6 / 64 = 0 ∧ b 7 / 4 = 0 ∧ b 0x1C / 8 = 0 ∧ leNat (slice t 0x1D 35) = 0) &&
  (!(!h.clear || h.anchDef) || numAt t 4 2 == 0) && (h.drain || b 6 == 0) &&
  ((h.drain && h.dst == 2) || b 0x1C == 0) &&
  (!(h.drain && (h.dst == 1 || h.dst == 2)) || decide (h.c0 < 2 ^ 32)) &&
  (!(h.drain && (h.dst == 2 || h.dfmt == 6)) || h.crow == 0) &&
  (upTo h.nlev).all fun i =>
    let o := 0x40 + 32 * i
    decide (b (o + 0x18) / 8 = 0 ∧ b (o + 0x19) / 2 = 0 ∧ b (o + 0x1A) / 32 = 0 ∧ leNat (slice t (o + 0x1B) 5) = 0) &&
    (h.drain || (nestLevel t i).sc == 0)

/-! Extremes of linear offsets at the corners of the index box (R189). -/

def NestLevel.top (l : NestLevel) : Int := (l.bound : Int) - 1
def loOf (base : Int) (f : NestLevel → Int) (ls : List NestLevel) : Int := ls.foldl (fun a l => a + min 0 (l.top * f l)) base
def hiOf (base : Int) (f : NestLevel → Int) (ls : List NestLevel) : Int := ls.foldl (fun a l => a + max 0 (l.top * f l)) base

/-- The live set's levels (R188). -/
def NestTab.live (n : NestTab) : List NestLevel :=
  let outs := n.levs.filter fun l => !l.isK
  if n.hdr.clear && n.hdr.drain then
    match argmin NestLevel.pos (n.levs.filter (·.isK)) with
    | some k => outs.filter fun l => decide (k.pos < l.pos)
    | none => []
  else outs

/-- Bytes of one drained row, or units for a handle; of the whole image for a raw drain. -/
def NestTab.rowSize (n : NestTab) : Nat :=
  if n.hdr.dst = 2 then (if n.hdr.dfmt = 6 then rawUnits else drainRowUnits n.hdr.dfmt)
  else (if n.hdr.dfmt = 6 then rawBytes else 64 * drainSize n.hdr.dfmt)

/-- The stride between drained rows: CROW, dense where it is 0, or the destination handle's PITCH. -/
def NestTab.rowStep (n : NestTab) (pitch : Nat) : Int :=
  if n.hdr.dst = 2 then pitch else if n.hdr.crow = 0 then (64 * drainSize n.hdr.dfmt : Nat) else n.hdr.crow

/-- The lowest and the highest place that drains reach, the highest exclusive: full blocks, and those of the tail level's last index. -/
def NestTab.drainSpan (n : NestTab) (pitch : Nat) : Int × Int :=
  let step := n.rowStep pitch
  let width (rows : Nat) : Int := if n.hdr.dfmt = 6 then n.rowSize else ((rows : Int) - 1) * step + n.rowSize
  let span (base : Int) (ls : List NestLevel) (rows : Nat) : Int × Int := (loOf base (·.sc) ls, hiOf base (·.sc) ls + width rows)
  match n.levs.find? fun l => l.tail != 0 with
  | none => span n.hdr.c0 n.levs n.hdr.m
  | some l =>
    let others := n.levs.filter fun x => x.pos != l.pos
    let last := span (n.hdr.c0 + l.top * l.sc) others l.tail
    if l.bound ≤ 1 then last
    else
      let full := span n.hdr.c0 ({ l with bound := l.bound - 1 } :: others) n.hdr.m
      (min last.1 full.1, max last.2 full.2)

/-- The lowest-numbered check of 1 to 10 that fails (R189). -/
def Mx.nestCheck (x : Mx) (t : List Byte) (lsBytes : Nat) : Option Nat :=
  let n := nestTab t
  let h := n.hdr
  let ls := n.levs
  let bad (c : Nat) (b : Bool) : Option Nat := if b then some c else none
  (bad 1 (!(decide (1 ≤ h.nlev ∧ h.nlev ≤ 6)) || !nestReserved t || (ls.map (·.pos)) != upTo h.nlev)) <|>
  (bad 2 ((ls.any fun l => l.bound == 0) || decide (2 ^ 40 ≤ ls.foldl (fun a l => a * l.bound) 1))) <|>
  (match tfind x.handles h.ha, tfind x.handles h.hb with
   | some ka, some kb =>
     let kc := if h.drain && h.dst == 2 then tfind x.handles h.hc else none
     (bad 3 (ka.kind != 0 || kb.kind != 1 || mxClass ka.fmt != mxClass kb.fmt || decide (ka.rows < h.m))) <|>
     (bad 4 (decide (1 < (ls.filter fun l => l.tail != 0).length) || ls.any fun l => l.tail != 0 && (l.isK || decide (h.m ≤ l.tail)))) <|>
     (bad 5 (ls.any fun l => l.isK && (l.sacc != 0 || l.sc != 0))) <|>
     (bad 6 (decide (loOf h.a0 (·.sa) ls < 0) || decide (((ka.rows * ka.pitch : Nat) : Int) ≤ hiOf h.a0 (·.sa) ls + ((h.m - 1) * ka.pitch : Nat)))) <|>
     (bad 7 (decide (loOf h.b0 (·.sb) ls < 0) || decide ((kb.images : Int) ≤ hiOf h.b0 (·.sb) ls))) <|>
     (let live := n.live
      let points : Nat := live.foldl (fun a l => a * l.bound) 1
      let tiles := live.foldl (fun (ts : List Int) l => ts.flatMap fun a => (upTo l.bound).map fun (i : Nat) => a + (i : Int) * l.sacc) [0]
      bad 8 (decide (loOf h.acc0 (·.sacc) ls < 0) || decide (3 < hiOf h.acc0 (·.sacc) ls) || decide (4 < points) || tiles.dedup.length != points)) <|>
     (if h.drain then
       (bad 9 (h.dfmt == 7 || h.dst == 3 || (h.satf && h.dfmt != 3 && h.dfmt != 4) ||
         (h.dst == 2 && (h.hc == h.ha || h.hc == h.hb || match kc with
           | none => true
           | some k => if h.dfmt = 6 then k.kind != 2 else k.kind != 0 || drainHandleFmt h.dfmt != some k.fmt || k.scaled)))) <|>
       (bad 10 (if h.dst = 2 then
           let sp := n.drainSpan ((kc.map (·.pitch)).getD 0)
           decide (sp.1 < 0) || decide ((((kc.map (·.size)).getD 0 : Nat) : Int) < sp.2) ||
           (h.dfmt == 6 && (h.c0 % rawUnits != 0 || ls.any fun l => l.sc % (rawUnits : Int) != 0))
         else
           let sp := n.drainSpan 0
           h.c0 % 32 != 0 || h.crow % 32 != 0 || (ls.any fun l => l.sc % 32 != 0) ||
           (h.dst == 1 && (decide (sp.1 < 0) || decide ((lsBytes : Int) < sp.2)))))
     else none)
   | _, _ => some 3)

/-! Acceptance (R180, R189, R190). -/

/-- A write of the group to the table's bytes has not been performed: a drain, or a cluster-window store (R180). -/
def State.tableBusy (s : State) (g : GRef) (uid slot off n : Nat) : Bool :=
  (s.core g.core).trackHit false [(localKey slot off, n)] ||
  (s.core g.core).creqs.any fun e => e.2.guid == uid && e.2.kind != 0 && e.2.served.isNone &&
    e.2.lanes.any fun l => l.core == g.core && l.slot == slot && overlaps l.off e.2.width off n

/-- MX_NEST (R161, R180, R186, R188 to R190). For check 11 the spec names no address of the span: that CORE_EXC_ADDR records its lowest byte is the model's (DESIGN CHOICE, log entry 82). The table read and the drains are accesses of the group, which wait for its acquires (R239). NLEV, and with it the table's size, is read once the group's writes to the header have been performed (R180). -/
def State.rowMxNest (s : State) (g : GRef) (w : Word64) : State :=
  s.mxIssue g w true fun c t =>
    let x := t.mx g.core
    let off := c.gr.rd 0 true (fD w) 1
    let size := 64 + 32 * ((c.blk.byte off).toNat % 8)
    t.access g c w false fun t => t.orRaise g c w (c.causesAt off [(exMisaligned, off % 32 != 0), (exSpace, decide (c.blk.lsBytes < off + 64))]) fun u =>
      if u.tableBusy g c.gr.uid c.gr.block off 64 then u
      else u.orRaise g c w (c.causesAt off [(exSpace, decide (c.blk.lsBytes < off + size))]) fun u =>
      if u.tableBusy g c.gr.uid c.gr.block off size then u
      else
        let bytes := c.blk.bytes off size
        let n := nestTab bytes
        match x.nestCheck bytes c.blk.lsBytes with
        | some k => u.raise g c.lid c.la.part c.gr.pc w { cause := exMxNest, lane := c.gr.low, addr := off + k * 2 ^ 32 }
        | none =>
          let sp := n.drainSpan 0
          let toMem := n.hdr.drain && n.hdr.dst != 2
          u.orRaise g c w (c.causesAt sp.1.toNat [(exWindow, toMem && n.hdr.dst == 0 && !(c.la.covers sp.1 sp.2))]) fun v =>
            let len := (sp.2 - sp.1).toNat
            let q : List (Nat × Nat) × State :=
              if !toMem then ([], v)
              else if n.hdr.dst = 1 then ([(localKey c.gr.block sp.1.toNat, len)], v)
              else v.spansVa g.core c.la.part .write (len / 4096 + 2) sp.1.toNat len
            let uses := if n.hdr.drain && n.hdr.dst == 2 then [n.hdr.hc] else []
            let busy := !(x.ready [n.hdr.ha, n.hdr.hb] uses) || (toMem && ((q.2.core g.core).trackFull || (q.2.core g.core).trackHit true q.1))
            if toMem && q.2.sbufHit g c.gr.uid q.1 then q.2
            else if busy then q.2.park g .residency (.unit [n.hdr.ha, n.hdr.hb] uses (if toMem then some (true, q.1) else none))
            else
              let k : Option Nat × State :=
                if toMem then
                  let a := q.2.track g.core { guid := c.gr.uid, launch := c.lid, run := c.gr.run, part := c.la.part, isWrite := true, spans := q.1 }
                  (some a.1, a.2)
                else (none, q.2)
              (k.2.accept g c w (.nest n k.1)).modMx g.core fun y =>
                { y with accStat := (tfind y.handles n.hdr.hb).map fun h => (h.fmt, h.scaled) }

/-! The walk (R183 to R185). -/

/-- Points of a walk. -/
def walkLen (ls : List NestLevel) : Nat := ls.foldl (fun a l => a * l.bound) 1

/-- The index vector of a point, outermost level first. -/
def walkIdx : List NestLevel → Nat → List Nat
  | [], _ => []
  | l :: ls, pos => (pos / walkLen ls % l.bound) :: walkIdx ls pos

/-- A point of the walk. -/
structure NestPoint where
  a : Int
  b : Int
  t : Int
  c : Int
  m : Nat
  firstK : Bool
  lastK : Bool

def dotIdx (idx : List Nat) (ls : List NestLevel) (f : NestLevel → Int) : Int :=
  (List.zip idx ls).foldl (fun s e => s + (e.1 : Int) * f e.2) 0

/-- What the point at place `pos` of the walk is. -/
def NestTab.point (n : NestTab) (pos : Nat) : NestPoint :=
  let idx := walkIdx n.levs pos
  let z := List.zip idx n.levs
  { a := n.hdr.a0 + dotIdx idx n.levs (·.sa)
    b := n.hdr.b0 + dotIdx idx n.levs (·.sb)
    t := n.hdr.acc0 + dotIdx idx n.levs (·.sacc)
    c := n.hdr.c0 + dotIdx idx n.levs (·.sc)
    m := match z.find? fun e => e.2.tail != 0 && e.1 + 1 == e.2.bound with
      | some e => e.2.tail
      | none => n.hdr.m
    firstK := z.all fun e => !e.2.isK || e.1 == 0
    lastK := z.all fun e => !e.2.isK || e.1 + 1 == e.2.bound }

/-- The anchor that a clear of the nest sets. -/
def NestTab.clearTo (n : NestTab) : Option Int := if n.hdr.anchDef then none else some n.hdr.anchor

/-- The next point of the walk on a tile after place `pos`, if any, within `fuel` places. -/
def NestTab.nextOn (n : NestTab) (t : Int) : Nat → Nat → Option NestPoint
  | 0, _ => none
  | fuel + 1, pos => let q := n.point (pos + 1); if q.t = t then some q else n.nextOn t fuel (pos + 1)

/-- A drain of point `pos` performs RECLR: the nest's next operation on its tile is a clear, with no mma on it before (R184). -/
def NestTab.folds (n : NestTab) (pos : Nat) : Bool :=
  n.hdr.clear && match n.nextOn (n.point pos).t (walkLen n.levs - (pos + 1)) pos with
    | some q => q.firstK
    | none => false

/-- An operation of the array stream. -/
inductive NestArr where
  | ldb (b : Nat)
  | clear (t : Nat)
  | mma (q : NestPoint)

/-- The next operation of the array stream, and the first beat in which the resources that R170 gives it are free: none when the walk is over or its tile awaits a drain (R184, R185). -/
def NestRun.arrayNext (n : NestRun) (b : Beats) : Option (Nat × NestArr) :=
  let q := n.tab.point n.pos
  let t := q.t.toNat
  let tile := tget 0 b.tiles t
  if walkLen n.tab.levs ≤ n.pos then none
  else if n.curB ≠ some q.b.toNat then some (max n.beat b.array, .ldb q.b.toNat)
  else if n.due.any fun d => d.tile == t then none
  else if n.tab.hdr.clear && q.firstK && !n.clearedHere && !n.drained.contains t then some (max n.beat tile, .clear t)
  else some (max n.beat (max b.array tile), .mma q)

/-- The next operation of the drain stream, and the first beat in which its tile has its last contribution and the drain reader, which a queued drain beside the nest may hold, is free: none when no drain is due or the output buffer has no room (R172, R185). -/
def NestRun.drainNext (n : NestRun) (x : Mx) : Option (Nat × NestDue) :=
  match n.due with
  | d :: _ => if x.drainRoom n.tab.hdr.dst then some (max n.beat (max x.beats.reader (tget 0 x.beats.tiles d.tile)), d) else none
  | [] => none

/-- An operation of the array stream starts in a beat. -/
def State.nestArray (s : State) (p part : Nat) (n : NestRun) (at_ : Nat) (o : NestArr) : State :=
  let h := n.tab.hdr
  match o with
  | .ldb b =>
    (s.modMx p fun x => { (x.taken (.ldb h.hb b) true s.now at_).ldb h.hb b with
      nest := some { n with curB := some b, beat := at_ + 1 }, beats := { x.beats with array := at_ + 32 } }).pmEvent p evLoading part 32
  | .clear t =>
    s.modMx p fun x => { (x.taken (.clr t none) true s.now at_).setTile t (Tile.cleared n.tab.clearTo) with
      nest := some { n with clearedHere := true, beat := at_ + 1 }, beats := { x.beats with tiles := tset x.beats.tiles t (at_ + 2) } }
  | .mma q =>
    let t := q.t.toNat
    (s.modMx p fun x =>
      let pitch := ((tfind x.handles h.ha).map (·.pitch)).getD 1
      { (x.taken (.mma h.ha 0 0 q.m 0 t) true s.now at_).mma h.ha (q.a.toNat / pitch) (q.a.toNat % pitch) q.m 0 t with
        nest := some { n with
          pos := n.pos + 1
          clearedHere := false
          drained := n.drained.filter (· != t)
          due := if h.drain && q.lastK then n.due ++ [{ tile := t, dst := q.c, rows := q.m, reclr := n.tab.folds n.pos }] else n.due
          beat := at_ + 1 }
        beats := { x.beats with array := at_ + q.m, tiles := tset x.beats.tiles t (at_ + q.m + 3) } }).pmEvent p evArray part q.m

/-- The job of a drain of the nest. -/
def NestRun.job (n : NestRun) (d : NestDue) : DrainJob :=
  let h := n.tab.hdr
  { tile := d.tile, dfmt := h.dfmt, satf := h.satf, dst := h.dst, h := h.hc, addr := d.dst, stride := n.tab.rowStep 0, rows := d.rows,
    after := if d.reclr then fun _ => Tile.cleared n.tab.clearTo else id, track := n.track }

/-- A drain starts in a beat. -/
def State.nestDrain (s : State) (p slot : Nat) (b : Block) (la : Launch) (n : NestRun) (at_ : Nat) (d : NestDue) : State :=
  let h := n.tab.hdr
  (s.modMx p fun x => { x.taken (.drain d.tile h.dfmt h.satf h.dst h.hc 0 0 d.reclr none) true s.now at_ with
      nest := some { n with
        due := n.due.drop 1
        drained := sins n.drained d.tile
        beat := at_ + 1 }
      beats := { x.beats with reader := at_ + 32, tiles := tset x.beats.tiles d.tile (at_ + if d.reclr then 34 else 32) } }).startDrain p slot b la n.entry.guid n.entry.site (n.job d)

/-- The internal operation that starts next: of the two streams, that which can start in the earlier beat; in the same beat, the array's (R185). -/
def State.nestNext (s : State) (p slot : Nat) (b : Block) (la : Launch) (n : NestRun) : State :=
  match n.arrayNext (s.mx p).beats, (n.drainNext (s.mx p)).filter fun d => !s.drainHeld p la n.entry.site (n.job d.2) with
  | some a, some d => if d.1 < a.1 then s.nestDrain p slot b la n d.1 d.2 else s.nestArray p la.part n a.1 a.2
  | some a, none => s.nestArray p la.part n a.1 a.2
  | none, some d => s.nestDrain p slot b la n d.1 d.2
  | none, none => s

/-- One internal operation of the running nest, while its launch has not failed (R137, R185). R196 names only a kill that ends a nest early; that one whose launch fails by another cause, or is found to hang, starts no further operation is the model's reading of R137 and R510 (DEDUCED, log entry 81). -/
def State.nestOp (s : State) (p : Nat) : State :=
  match (s.mx p).nest, (s.mx p).owner with
  | some n, some slot =>
    match s.blockAt p slot with
    | none => s
    | some b =>
      match s.launch? b.launch with
      | none => s
      | some la => if la.fail.isSome || la.hung != 0 then s else s.nestNext p slot b la n
  | _, _ => s

/-- NEST_OP_START (R183 to R185). -/
def execNestOpStart (core : Nat) (s : State) : Host.Outcome State Fault Refusal :=
  withUnit (okCore core) (s.nestOp core)

/-- The beats of the unit once a nest has ended: it held the array and its tiles until the last beat in which any of its operations held the array, a tile or the drain reader, and what comes after its operations starts after them (R170, R186). Every drain holds its tile as long as the reader at least. -/
def Beats.afterNest (b : Beats) (n : NestRun) : Beats :=
  let e := n.tab.tiles.foldl (fun a t => max a (tget 0 b.tiles t)) b.array
  { b with next := max b.next n.beat, array := e, tiles := n.tab.tiles.foldl (fun ts t => tset ts t e) b.tiles }

/-- A nest ends when its walk is over and its drains have started; its operations hold nothing any more (R186, R187). -/
def State.endNest (s : State) (p : Nat) : State :=
  match (s.mx p).nest with
  | none => s
  | some n =>
    if walkLen n.tab.levs ≤ n.pos ∧ n.due = [] then
      ((s.modMx p fun x => { x with nest := none, beats := x.beats.afterNest n, array := x.array.filter (!·.ofNest), reader := x.reader.filter (!·.ofNest) }).freeTrack p n.track).wakeAll p .residency
    else s

/-- NEST_END (R186, R187). -/
def execNestEnd (core : Nat) (s : State) : Host.Outcome State Fault Refusal :=
  withUnit (okCore core) (s.endNest core)

end Sys2Proof.Machine
end

