-- ==== Sys2Proof/Machine/Place.lean ====
section
/-! DEFINITION. Schedulers' active sets (R76 to R79), the local-store split (R84, R85), placement of blocks and clusters (R69 to R72, R88, R98, R223), real-time reserves (R331, R332) and stealing (R224, R225). -/

namespace Sys2Proof.Machine

/-! Active and pending sets. -/

/-- The first ready group enters an active set with room (R78). -/
def State.enterActive (s : State) (p i : Nat) : State :=
  let q := (s.core p).sched i
  match q.ready with
  | [] => s
  | r :: rest =>
    if q.active.length < 4 then s.modCore p fun c => c.setSched i { q with active := q.active ++ [r], ready := rest } else s

/-- GROUP_ENTER_ACTIVE (R78). -/
def execGroupEnterActive (core sched : Nat) (s : State) : Host.Outcome State Fault Refusal :=
  withUnit (okCore core && decide (sched < 4)) (s.enterActive core sched)

/-- The group longest in a full active set gives its place to the first ready group (R79). -/
def State.rotate (s : State) (p i : Nat) : State :=
  let q := (s.core p).sched i
  match q.active, q.ready with
  | a :: as, r :: rs =>
    if q.active.length = 4 then s.modCore p fun c => c.setSched i { q with active := as ++ [r], ready := rs ++ [a] } else s
  | _, _ => s

/-- ACTIVE_SET_ROTATION (R79). -/
def execActiveSetRotation (core sched : Nat) (s : State) : Host.Outcome State Fault Refusal :=
  withUnit (okCore core && decide (sched < 4)) (s.rotate core sched)

/-! Room on a core (R70, R85, R88). -/

def Core.freeSlots (c : Core) (i : Nat) : List Nat := (upTo 16).filter fun sl => (c.group? (gkey i sl)).isNone
/-- Registers of a lane that a scheduler's groups hold. -/
def Core.regsUsed (c : Core) (i : Nat) : Nat :=
  ((c.groups.filter fun e => e.1 / 16 == i).map fun e => allocOf e.2.nregs).foldl (· + ·) 0

/-- The scheduler for the next group of a block, after those in `taken`: the most free slots, the lowest number on a tie. -/
def Core.pickSched (c : Core) (alloc : Nat) (taken : List Nat) : Option Nat :=
  let mine (i : Nat) : Nat := (taken.filter (· == i)).length
  let free (i : Nat) : Nat := (c.freeSlots i).length - mine i
  argmin (fun i => 16 - free i) ((upTo 4).filter fun i => decide (0 < free i ∧ c.regsUsed i + alloc * (mine i + 1) ≤ 512))

/-- The schedulers of a block's groups, in ascending group number; none where they do not all fit. -/
def Core.plan (c : Core) (alloc : Nat) : Nat → List Nat → Option (List Nat)
  | 0, taken => some taken
  | n + 1, taken => match c.pickSched alloc taken with
    | some i => c.plan alloc n (taken ++ [i])
    | none => none

/-- The slots of the planned groups: on each scheduler the lowest free ones. R70 names the scheduler and no slot; the lowest is the model's choice (DESIGN CHOICE, log entry 69). -/
def Core.slotsOf (c : Core) (plan : List Nat) : List (Nat × Nat) :=
  (upTo plan.length).map fun k =>
    let i := plan.getD k 0
    (i, (c.freeSlots i).getD ((plan.take k).filter (· == i)).length 0)

/-- The slot that a block takes: the lowest free one. R70 names none; the lowest is the model's choice (DESIGN CHOICE, log entry 69). -/
def Core.blockSlot (c : Core) : Option Nat := (upTo 32).find? fun k => (tfind c.blocks k).isNone

/-- Local store held, in bytes. -/
def Core.lsUsed (c : Core) : Nat := (c.blocks.map fun e => e.2.lsBytes).foldl (· + ·) 0

/-- A core can admit one more block of a launch; an empty core can change its split first (R85). -/
def Core.admits (c : Core) (l : Launch) : Bool :=
  (c.blocks == [] || c.split == l.split) && c.blockSlot.isSome &&
  decide (c.lsUsed + 1024 * l.lskib ≤ 65536 * l.split) &&
  (c.plan (allocOf l.vregs) (groupsFor (eThreads l.entry)) []).isSome

/-! Reserves (R331, R332). -/

def qcRt (v : Word) : Bool := v.getLsbD 4
def qcShare (v : Word) : Nat := getBits v.toNat 5 7
def qcEnable (v : Word) : Bool := v.getLsbD 12

/-- A partition's enabled real-time queues with their shares, ascending. -/
def State.rtShares (s : State) (p : Nat) : List (Nat × Nat) :=
  (s.queues.filter fun e => e.1 / 256 == p && qcEnable e.2.cfg && qcRt e.2.cfg).map fun e => (e.1 % 256, qcShare e.2.cfg)

/-- The reserve of each queue: its core sets, from the highest number down. -/
def cutReserves (sets : List Nat) : Nat → List (Nat × Nat) → List (Nat × Nat)
  | _, [] => []
  | sum, (q, share) :: rest =>
    let k := sets.length
    let lo := (sum * k + 32) / 64
    let hi := ((sum + share) * k + 32) / 64
    (((sets.drop lo).take (hi - lo)).map (·, q)) ++ cutReserves sets (sum + share) rest

/-- Core sets of a stage that are reserved, each with its queue. -/
def State.reserves (s : State) (p st : Nat) : List (Nat × Nat) := cutReserves (s.stageSets p st).reverse 0 (s.rtShares p)

/-- A launch counts for its real-time queue's activity: issued and not completed, or ready to issue but for the front end (R332). -/
def Launch.counts (l : Launch) : Bool :=
  l.isWork && match l.phase with
  | .acquiring | .ended => false
  | _ => true
def State.rtActive (s : State) (p q : Nat) : Bool := s.launches.any fun e => e.2.part == p && e.2.queue == q && e.2.counts

/-- The queue whose reserve a core set is. -/
def State.reserveOf (s : State) (p st k : Nat) : Option Nat := ((s.reserves p st).find? fun e => e.1 == k).map (·.2)

/-- A launch may place a block on a core set. -/
def State.mayUse (s : State) (l : Launch) (k : Nat) : Bool :=
  match s.reserveOf l.part l.stage k with
  | none => true
  | some q => if l.rt then q == l.queue else !l.nonpre && !(s.rtActive l.part q)

/-! Placement (R98, R223). -/

/-- The usable core sets of a launch's stage for one of its runs: of a paired launch, those of the run's half (R424). -/
def State.runSets (s : State) (l : Launch) (half : Bool) : List Nat :=
  (s.stageSets l.part l.stage).filter fun k => !ePaired l.entry ||
    (let cs := s.chartSets l.part l.stage
     (cs.drop ((cs.length + 1) / 2)).contains k == half)

/-- A run of the launch has no usable core set. -/
def State.noSets (s : State) (l : Launch) : Bool := s.runSets l false == [] || (ePaired l.entry && s.runSets l true == [])

/-- The cores on which a launch's blocks of one run may lie, those whose rail's lamp is lit (R487): logical core, physical core and core set. -/
def State.coresFor (s : State) (l : Launch) (half : Bool) : List (Nat × Nat × Nat) :=
  ((s.runSets l half).filter fun k => s.mayUse l k && s.lamp (lampRail (k / 2))).flatMap fun k => (upTo 24).map fun i => (24 * k + i, s.physOf (24 * k + i), k)

/-- How a core ranks for a block of a launch: its own queue's reserve first, then the fewest resident blocks, then the lowest logical number. -/
def State.coreRank (s : State) (l : Launch) (x : Nat × Nat × Nat) : Nat :=
  (if l.rt && s.reserveOf l.part l.stage x.2.2 != some l.queue then 2 ^ 40 else 0) + (s.core x.2.1).blocks.length * 2 ^ 20 + x.1

/-- The core that takes a block: the first by rank among those that admit it. -/
def State.pickCore (s : State) (l : Launch) (cores : List (Nat × Nat × Nat)) : Option (Nat × Nat × Nat) :=
  argmin (s.coreRank l) (cores.filter fun x => (s.core x.2.1).admits l)

/-- A launch begins on a core (R87, R141, R232, R499): L1 and the instruction cache are dropped but for the lines preloaded for it, and the exception record is cleared. A run begins once on each core, whatever other launch it shares the core with; a run after a kill begins anew, which the spec does not say of the same launch (DESIGN CHOICE, log entry 68). -/
def State.beginOn (s : State) (p lid : Nat) (l : Launch) : State :=
  let t := if (s.core p).traced.contains lid then s else (s.modCore p fun c => { c with traced := lid :: c.traced }).traceLaunch p tyBegin l 0
  if (t.core p).begun.contains (lid, l.run) then t
  else
    let keep (c : Core) (line : Nat) : Bool := match l.pre with
      | some k => (tget [] c.preLines line).contains k
      | none => false
    ((t.modCore p fun c => { c with
      l1 := []
      icache := c.icache.filter fun e => keep c e.1
      preLines := c.preLines.filter fun e => keep c e.1
      begun := (lid, l.run) :: c.begun.filter fun e => (t.launch? e.1).isSome && e.1 != lid }).setBit (excStatus p) 31 false).setBit (excStatus p) 30 false

/-- The launch values of a group (R301). -/
def Launch.values (l : Launch) (thief : Bool) (item : Option (List Byte)) : Tbl Word :=
  let bi (i : Nat) : Nat := l.bidx.getD i 0 % 8
  let sel (i : Nat) : Nat := l.sel.getD i 0
  let w47 : List Nat := match item with
    | some bs => (upTo 4).map fun i => numAt bs (4 * i) 4
    | none => [sel 1, sel 2, sel 3, 0]
  let vs := [l.param, l.param / 2 ^ 32, bi 0 + bi 1 * 8 + bi 2 * 64 + bi 3 * 512 + (if thief then 4096 else 0), sel 0] ++ w47
  (upTo 8).foldl (fun t i => tput 0 t i (BitVec.ofNat 32 (vs.getD i 0))) []

/-- Lanes without a thread in the last group of a block (R69). -/
def exitedFrom (threads gnum : Nat) : BitVec 32 :=
  if 32 * gnum + 32 ≤ threads then 0 else ~~~(BitVec.ofNat 32 (2 ^ (threads - 32 * gnum) - 1))

/-- Put a block on a core that admits it, with the core's split as the launch needs. -/
def State.addBlock (s : State) (p lid : Nat) (l : Launch) (num head tail : Nat) (half thief : Bool) (item : Option (List Byte)) : State :=
  let t := s.beginOn p lid l
  let c := t.core p
  match c.blockSlot, c.plan (allocOf l.vregs) (groupsFor (eThreads l.entry)) [] with
  | some slot, some plan =>
    let threads := eThreads l.entry
    let b : Block := {
      uid := t.free + 1
      launch := lid
      run := l.run
      num := num
      ngroups := groupsFor threads
      threads := threads
      lsBytes := 1024 * l.lskib
      csize := eCluster l.entry
      thief := thief
      half := half
      head := head
      tail := tail
      item := item }
    let places := c.slotsOf plan
    let u := ({ t with free := t.free + 1 } : State).modCore p fun c => { c with blocks := tset c.blocks slot b }
    (upTo places.length).foldl (fun u k =>
      let x := places.getD k (0, 0)
      u.modCore p fun c =>
        let dead := exitedFrom threads k
        let gr : Group := {
          uid := c.nextId
          launch := lid
          run := l.run
          block := slot
          gnum := k
          nregs := l.vregs
          pc := l.code
          active := ~~~dead
          exited := dead
          uregs := l.values thief item }
        let d := ({ c with nextId := c.nextId + 1 } : Core).setGroup (gkey x.1 x.2) gr
        let q := d.sched x.1
        d.setSched x.1 { q with ready := q.ready ++ [x.2] }) u
  | _, _ => s

/-- The channel that feeds a launch (R298): the y of its grid, as the entry gives it or as IND[1] read it. -/
def Launch.fedBy (l : Launch) : Nat := l.gy % 256

/-- Another launch that issued before this one has still to take items of the same channel. -/
def State.fedFirst (s : State) (lid : Nat) (l : Launch) : Bool :=
  s.launches.any fun e => e.1 != lid && e.2.part == l.part && e.2.isKernel && eChfed e.2.entry && e.2.fedBy == l.fedBy &&
    (match e.2.phase with
     | .running | .killing | .rerun => true
     | _ => false) && e.2.fail.isNone && decide (e.2.items.length < e.2.gx) &&
    decide (e.2.issueGt < l.issueGt ∨ (e.2.issueGt = l.issueGt ∧ e.1 < lid))

/-- A channel-fed launch takes the next ready item, if the channel feeds it: one launch at a time, in the order in which they issued (R210). The 16 bytes of a poisoned one would reach u4 to u7 of its block as poison, and the launch ends with UNCORRECTABLE_ECC (R417). -/
def State.takeItem (s : State) (lid : Nat) (l : Launch) : State :=
  let ch := l.fedBy
  let x := s.stageChan l.part ch
  if l.items.length < l.gx ∧ (x.feeding = some lid ∨ (x.feeding = none ∧ s.fedFirst lid l = false)) then
    match x.items.findIdx? fun i => !i.taken with
    | none => s
    | some i =>
      match x.items[i]? with
      | none => s
      | some it =>
        let feeding := if l.items.length + 1 = l.gx then none else some lid
        let t := s.setStageChan l.part ch { x with items := x.items.set i { it with taken := true, owner := lid }, feeding := feeding }
        let u := t.modLaunch lid fun y => { y with
          items := y.items ++ [(ch, it.data)]
          producers := match it.src with
            | some k => if y.producers.contains k then y.producers else y.producers ++ [k]
            | none => y.producers }
        let v := if it.bad then u.failLaunch lid (u.mkFail stDep) else u
        if it.poison then v.failLaunch lid (v.mkFail stEcc) else v
  else s

/-- The next block number of a run, if it has one to place. -/
def Launch.nextOf (l : Launch) (half : Bool) : Nat := if half then l.nextBlkB else l.nextBlk

/-- Place the blocks of the next cluster on the cores of one die, all at once; none where they do not fit. With it, whether every chosen core already has the launch's split: an empty core that has another must change it before it takes its block (R85). -/
def State.placeCluster (s : State) (lid : Nat) (l : Launch) (half : Bool) (cores : List (Nat × Nat × Nat)) : Nat → Nat → Option (Bool × State)
  | 0, _ => some (true, s)
  | n + 1, num =>
    match s.pickCore l cores with
    | none => none
    | some x =>
      let item := if eChfed l.entry then (l.items[num]?).map (·.2) else none
      ((s.addBlock x.2.1 lid l num 0 (eTiles l.entry) half false item).placeCluster lid l half cores n (num + 1)).map fun r =>
        (decide ((s.core x.2.1).split = l.split) && r.1, r.2)

/-- Place what comes next of one run: among the dies on which the whole cluster fits, the one that R223 would choose for its first block. Where a core that it chooses has to change its split first, the blocks wait for that change. -/
def State.placeNext (s : State) (lid : Nat) (l : Launch) (half : Bool) : Option State :=
  let num := l.nextOf half
  let n := eCluster l.entry
  let total := if eChfed l.entry then l.items.length else l.blocks
  if num + n ≤ total then
    let cores := s.coresFor l half
    let fits := (upTo 4).filterMap fun d =>
      let mine := cores.filter fun x => dieOfPhys x.2.1 == d
      match s.pickCore l mine, s.placeCluster lid l half mine n num with
      | some x, some t => some (s.coreRank l x, t)
      | _, _ => none
    match argmin (·.1) fits with
    | some (_, true, t) => some (t.modLaunch lid fun y => if half then { y with nextBlkB := num + n } else { y with nextBlk := num + n })
    | _ => none
  else none

/-- The launch whose blocks the front end may place. -/
def State.placeable (s : State) (lid : Nat) : Option Launch :=
  match s.launch? lid with
  | some l => if l.isKernel && l.phase == .running && l.fail.isNone && l.hung == 0 then some l else none
  | none => none

/-- BLOCK_PLACE (R98, R210, R223). -/
def execBlockPlace (launch : Nat) (s : State) : Host.Outcome State Fault Refusal :=
  .next (match s.placeable launch with
    | none => s
    | some l =>
      let t := if eChfed l.entry ∧ l.items.length ≤ l.nextBlk then s.takeItem launch l else s
      match t.placeable launch with
      | none => t
      | some l =>
        ((t.placeNext launch l false).orElse fun _ => if l.pair.isSome then t.placeNext launch l true else none).getD t)

/-- SPLIT_CHANGE: an empty core takes the split that a running launch of its partition needs there, and its L1 is invalidated (R85). -/
def State.changeSplit (s : State) (p split : Nat) : State :=
  let c := s.core p
  let asked := s.launches.any fun e =>
    e.2.isKernel && e.2.phase == .running && e.2.fail.isNone && e.2.hung == 0 && e.2.split == split &&
    ((s.coresFor e.2 false) ++ (if e.2.pair.isSome then s.coresFor e.2 true else [])).any fun x => x.2.1 == p
  if c.blocks = [] ∧ c.split ≠ split ∧ asked = true then s.modCore p fun c => { c with split := split, l1 := [] } else s

def execSplitChange (core split : Nat) (s : State) : Host.Outcome State Fault Refusal :=
  withUnit (okCore core && decide (split < 5)) (s.changeSplit core split)

/-! Stealing (R225). -/

/-- The victim: the largest remainder, the lowest block number on a tie. A thief has its victim's number: where the two tie, the first by physical core and block slot is taken (DESIGN CHOICE, log entry 103). -/
def pickVictim (xs : List (Nat × Nat × Block)) : Option (Nat × Nat × Block) :=
  argmin (fun x => (2 ^ 33 - (x.2.2.tail - x.2.2.head)) * 2 ^ 64 + x.2.2.num) xs

/-- Start one thief in a run, on an empty core with the launch's split. -/
def State.thief (s : State) (lid : Nat) (l : Launch) (half : Bool) : Option State :=
  match pickVictim (s.victims lid l half), s.pickCore l ((s.coresFor l half).filter fun x => (s.core x.2.1).blocks == []) with
  | some v, some x =>
    if (s.core x.2.1).split = l.split then
      let b := v.2.2
      let mid := b.tail - (b.tail - b.head) / 2
      let t := s.modCore v.1 fun c => { c with blocks := tset c.blocks v.2.1 { b with tail := mid } }
      some (((t.addBlock x.2.1 lid l b.num mid b.tail half true b.item).modLaunch lid fun y => { y with thieves := y.thieves + 1 }).pmEvent x.2.1 evThief l.part 1)
    else none
  | _, _ => none

/-- THIEF_START (R225). -/
def execThiefStart (launch : Nat) (s : State) : Host.Outcome State Fault Refusal :=
  .next (match s.placeable launch with
    | none => s
    | some l =>
      if l.placed && s.steals l then
        ((s.thief launch l false).orElse fun _ => if l.pair.isSome then s.thief launch l true else none).getD s
      else s)

end Sys2Proof.Machine
end

