-- ==== Sys2Proof/Machine/Checks.lean ====
section
/-! DEFINITION. What makes a launch entry invalid (R323): the entry (R297 to R299), its extension (R300), the bucket table (R191 to R193) and the copy descriptor (R287, R289), with the extents of a copy (R290) and the windows (R340, R342). -/

namespace Sys2Proof.Machine

/-! Reasons (R323, R324). -/

def rsReserved : Nat := 1
def rsKernel : Nat := 2
def rsOccupancy : Nat := 3
def rsBucket : Nat := 4
def rsCopy : Nat := 5
def rsChannel : Nat := 6
def rsEvent : Nat := 7
def rsSem : Nat := 8
def rsRoute : Nat := 9
def rsFetch : Nat := 10
def rsGrid : Nat := 11
def rsDoorbell : Nat := 0x10
def rsRing : Nat := 0x11
def rsConfig : Nat := 0x12

/-- The reasons whose rule is broken. -/
def broken (xs : List (Nat × Bool)) : List Nat := (xs.filter (·.2)).map (·.1)
/-- The reason reported: the lowest. -/
def lowest (xs : List Nat) : Option Nat := argmin id xs
/-- Bytes that must be 0 are not. -/
def nonzero (e : List Byte) (off n : Nat) : Bool := numAt e off n != 0

/-! What the entry alone decides (R297 to R299). -/

/-- The grid limits (R298). -/
def gridBad (csize x y z : Nat) : Bool :=
  decide (x < 1 ∨ 2 ^ 31 < x ∨ y < 1 ∨ 65535 < y ∨ z < 1 ∨ 65535 < z ∨ x % csize ≠ 0)

def headerErrs (e : List Byte) : List Nat :=
  let ty := eType e
  broken [
    (rsReserved, decide (6 ≤ ty) || getBits (numAt e 0 1) 3 5 != 0 || eFlag e 7),
    (rsReserved, ty != 0 && (getBits (numAt e 1 1) 3 4 != 0 || nonzero e 2 2)),
    (rsReserved, getBits (numAt e 2 1) 3 5 != 0 || getBits (numAt e 3 1) 7 1 != 0)]

def kernelErrs (e : List Byte) : List Nat :=
  let bucket := eBucket e != 0
  broken [
    (rsReserved, getBits (numAt e 0x25 1) 4 4 != 0 || getBits (numAt e 0x26 2) 11 5 != 0 || getBits (numAt e 0x28 2) 9 7 != 0 || nonzero e 0x2A 2),
    (rsReserved, eInd e 1 && nonzero e 0x20 4),
    (rsReserved, eChfed e && !eInd e 1 && decide (256 ≤ eGrid e 1)),
    (rsKernel, eCode e % 8 != 0 || (!bucket && eVregs e == 0) || decide (4 < eSplit e ∨ 256 < eLskib e ∨ eThreads e = 0 ∨ 1024 < eThreads e)),
    (rsKernel, eExt e % 256 != 0 || (ePaired e && (eNonpre e || eChfed e))),
    (rsOccupancy, decide (1024 < eThreads e) || (!bucket && decide (64 * eSplit e < eLskib e))),
    (rsOccupancy, !bucket && occupancy (eThreads e) (eVregs e) (eLskib e) (eSplit e) == 0),
    (rsBucket, eBucket e % 256 != 0 || (bucket && (eExt e == 0 || eCode e != 0 || eVregs e != 0 || eSplit e != 0 || eLskib e != 0))),
    (rsChannel, eChfed e && (eCluster e != 1 || (!eInd e 1 && (eGrid e 0 == 0 || eGrid e 2 != 1)))),
    (rsGrid, !eChfed e && !eInd e 1 && gridBad (eCluster e) (eGrid e 0) (eGrid e 1) (eGrid e 2))]

def otherErrs (e : List Byte) : List Nat :=
  let ty := eType e
  if ty = tyCopy then
    broken [(rsReserved, nonzero e 0x10 0x20 || nonzero e 0x38 8), (rsCopy, eAddr e % 128 != 0 || eExt e % 256 != 0)]
  else if ty = tyRecord then
    broken [(rsReserved, nonzero e 0x18 0x28), (rsEvent, eAddr e % 8 != 0 || decide (2 ^ 63 ≤ eValue e))]
  else if ty = tyWait then
    broken [(rsReserved, nonzero e 0x20 0x20), (rsEvent, eAddr e % 8 != 0 || decide (2 ^ 63 ≤ eValue e))]
  else if ty = tySem then
    broken [
      (rsReserved, getBits (numAt e 8 2) 12 4 != 0 || getBits (numAt e 0xA 1) 2 6 != 0 || eSemOp e == 3 || nonzero e 0xB 1 || nonzero e 0x18 0x28),
      (rsSem, decide (eSemOp e < 2) && eSemCount e == 0)]
  else if ty = tyCall then broken [(rsReserved, nonzero e 9 55)]
  else []

/-- Every rule that the entry alone decides. -/
def entryErrs (e : List Byte) : List Nat :=
  headerErrs e ++ (if eType e = tyKernel then kernelErrs e else otherErrs e)

/-! What the entry decides with its partition's chart (R89, R203, R210, R424) and routes (R322). -/

/-- A cluster fits on no die (R89). -/
def State.clusterBad (s : State) (p st csize b : Nat) : Bool :=
  (upTo 4).all fun d => decide (24 * ((s.chartSets p st).filter fun k => dieOfSet k == d).length * b < csize)

def State.chartErrs (s : State) (p : Nat) (e : List Byte) : List Nat :=
  if eType e = tyKernel then
    let noStage := decide ((s.ent p).stages.length ≤ eStage e)
    let b := occupancy (eThreads e) (eVregs e) (eLskib e) (eSplit e)
    broken [
      (rsKernel, noStage || (ePaired e && decide ((s.chartSets p (eStage e)).length < 2))),
      (rsOccupancy, !noStage && eBucket e == 0 && s.clusterBad p (eStage e) (eCluster e) b),
      (rsChannel, eChfed e && !eInd e 1 && (match s.chanEnt p (eGrid e 1 % 256) with
        | some (_, dst, lg) => dst != eStage e || decide (2 ^ lg < eGrid e 0)
        | none => true))]
  else if eType e = tyCall then
    broken [(rsRoute, !(tget {} (s.part p).routes (eRoute e)).live)]
  else []

/-! The extension (R300). -/

def extErrs (e x : List Byte) : List Nat :=
  broken [
    (rsReserved, (upTo 8).any fun i => getBits (numAt x (16 * i + 8) 8) 40 23 != 0),
    (rsReserved, (upTo 2).any fun i => getBits (numAt x (0x90 + 8 * i) 8) 12 20 != 0),
    (rsReserved, eType e == tyKernel && eInd e 2 && nonzero x 0x88 8),
    (rsReserved, nonzero x 0xB0 80)]

/-- The windows that the extension declares. -/
def winsOf (x : List Byte) : List Win :=
  ((upTo 8).map fun i => ({ base := xWinBase x i, len := xWinLen x i, remote := xWinRemote x i } : Win)).filter fun w => w.len != 0

/-! The bucket table (R191 to R193). -/

def btNdim (t : List Byte) : Nat := getBits (numAt t 0 1) 0 3
def btNvar (t : List Byte) : Nat := numAt t 1 1
def btNb (t : List Byte) (d : Nat) : Nat := numAt t (4 + d) 1
def btBucket (t : List Byte) (d j : Nat) : Nat := numAt t (0x10 + 32 * d + 4 * j) 4
def btCode (t : List Byte) (v : Nat) : Nat := numAt t (0x100 + 32 * v) 8
def btVregs (t : List Byte) (v : Nat) : Nat := numAt t (0x108 + 32 * v) 1
def btSplit (t : List Byte) (v : Nat) : Nat := numAt t (0x109 + 32 * v) 1
def btLskib (t : List Byte) (v : Nat) : Nat := numAt t (0x10A + 32 * v) 2

/-- The first 256 bytes break a rule of R191. -/
def bucketHeadBad (t : List Byte) : Bool :=
  let n := btNdim t
  getBits (numAt t 0 1) 3 5 != 0 || n == 0 || decide (4 < n) || nonzero t 2 2 || nonzero t 8 8 || nonzero t 0x90 112 ||
  (upTo 4).any (fun d => if d < n then decide (btNb t d < 1 ∨ 8 < btNb t d) else btNb t d != 0) ||
  btNvar t != ((upTo n).map (btNb t)).foldl (· * ·) 1 || decide (64 < btNvar t) ||
  (upTo 4).any fun d => (upTo 8).any fun j =>
    if d < n ∧ j < btNb t d then decide (btBucket t d j < 1) || (j != 0 && decide (btBucket t d j ≤ btBucket t d (j - 1)))
    else btBucket t d j != 0

/-- A variant breaks a rule of R191. -/
def variantBad (t : List Byte) (v : Nat) : Bool :=
  btCode t v % 8 != 0 || btVregs t v == 0 || decide (4 < btSplit t v ∨ 256 < btLskib t v) || nonzero t (0x10C + 32 * v) 20

/-- The selected index of each dimension and the variant (R193). -/
def selectBucket (t : List Byte) (sel : List Nat) : Option (List Nat × Nat) :=
  (upTo (btNdim t)).foldl (fun (a : Option (List Nat × Nat × Nat)) d =>
    a.bind fun (js, v, w) =>
      ((upTo (btNb t d)).find? fun j => decide (sel.getD d 0 ≤ btBucket t d j)).map fun j => (js ++ [j], v + j * w, w * btNb t d))
    (some ([], 0, 1)) |>.map fun r => (r.1, r.2.1)

/-! The copy descriptor (R287 to R289). -/

def cdMode (d : List Byte) : Nat := getBits (numAt d 0 1) 0 2
def cdEsize (d : List Byte) : Nat := 2 ^ getBits (numAt d 1 1) 0 2
def cdFlag (d : List Byte) (i : Nat) : Bool := getBits (numAt d 2 1) i 1 == 1
def cdLcr (d : List Byte) : Bool := cdFlag d 0
def cdSrcRemote (d : List Byte) : Bool := cdFlag d 1
def cdDstRemote (d : List Byte) : Bool := cdFlag d 2
/-- Destination lines are allocated as evict first. -/
def cdEvict (d : List Byte) : Bool := cdFlag d 3
def cdXpose (d : List Byte) : Bool := cdFlag d 4
def cdDie (d : List Byte) : Nat := getBits (numAt d 3 1) 0 3
def cdSrc (d : List Byte) : Nat := numAt d 8 8
def cdDst (d : List Byte) : Nat := numAt d 0x10 8
/-- N0, N1 and N2. -/
def cdN (d : List Byte) (i : Nat) : Nat := numAt d (0x18 + 4 * i) 4
/-- SS1, SS2, DS1 and DS2. -/
def cdStride (d : List Byte) (i : Nat) : Int := signedOf 64 (numAt d (0x28 + 8 * i) 8)
def cdTable (d : List Byte) : Nat := numAt d 0x48 8
def cdFirst (d : List Byte) : Nat := getBits (numAt d 0x50 8) 0 22
def cdCount (d : List Byte) : Nat := getBits (numAt d 0x58 8) 0 23
def cdEntries (d : List Byte) : Nat := getBits (numAt d 0x58 8) 32 15
/-- The copy transposes. -/
def cdTransposes (d : List Byte) : Bool := cdMode d == 1 || (cdMode d == 2 && cdXpose d)

/-- The bytes that one transposed tile holds: N0 rows of N1 elements, DS1 apart. -/
def cdTile (d : List Byte) : Nat := (cdN d 0 - 1) * (cdStride d 2).natAbs + cdN d 1 * cdEsize d

/-- A descriptor that the front end refuses (R287, R289). -/
def copyBad (d : List Byte) : Bool :=
  let m := cdMode d
  getBits (numAt d 0 1) 2 6 != 0 || getBits (numAt d 1 1) 2 6 != 0 || getBits (numAt d 2 1) 5 3 != 0 || getBits (numAt d 3 1) 3 5 != 0 ||
  decide (4 < cdDie d) || nonzero d 4 4 || nonzero d 0x24 4 || nonzero d 0x60 32 ||
  (cdXpose d && m != 2) || (m != 2 && nonzero d 0x48 24) ||
  (m == 2 && (cdTable d % 8 != 0 || getBits (numAt d 0x50 8) 22 42 != 0 || getBits (numAt d 0x58 8) 23 9 != 0 || getBits (numAt d 0x58 8) 47 17 != 0)) ||
  cdN d 0 == 0 || cdN d 1 == 0 || cdN d 2 == 0 ||
  (m == 2 && decide (cdCount d < 1 ∨ 4194304 < cdCount d ∨ cdEntries d < 1 ∨ 16384 < cdEntries d ∨ 256 * cdEntries d < cdFirst d + cdCount d)) ||
  ((m == 0 || m == 3) && cdEsize d != 1) ||
  (cdTransposes d && decide (128 < cdN d 0 ∨ 128 < cdN d 1)) ||
  (m == 2 && !cdXpose d && cdN d 2 != 1) ||
  (m == 3 && (cdN d 0 % 128 != 0 || cdSrc d % 128 != 0 || cdStride d 0 % 128 != 0 || cdStride d 1 % 128 != 0 || cdDst d % 16 != 0)) ||
  (cdTransposes d && decide ((cdStride d 2).natAbs < cdN d 1 * cdEsize d ∨ (cdStride d 3).natAbs < cdTile d)) ||
  (cdSrcRemote d && (cdDstRemote d || isGroupId (rgaDev (cdSrc d))))

/-! Extents (R290). -/

/-- The least and the end of `base + Σ k·stride` with k below each count, `n` bytes at each corner. -/
def corners (base : Int) (n : Nat) (ks : List (Nat × Int)) : Int × Int :=
  let low := ks.foldl (fun a k => a + min 0 (((k.1 - 1 : Nat) : Int) * k.2)) base
  let high := ks.foldl (fun a k => a + max 0 (((k.1 - 1 : Nat) : Int) * k.2)) base
  (low, high + n)

/-- The tiles of a transposing gather. -/
def cdTiles (d : List Byte) : Nat := (cdCount d + cdN d 1 - 1) / max 1 (cdN d 1)

/-- The extent of the destination. -/
def copyDstExtent (d : List Byte) : Int × Int :=
  let b : Int := cdDst d
  match cdMode d with
  | 0 => corners b (cdN d 0) [(cdN d 1, cdStride d 2), (cdN d 2, cdStride d 3)]
  | 1 => corners b (cdN d 1 * cdEsize d) [(cdN d 0, cdStride d 2), (cdN d 2, cdStride d 3)]
  | 2 =>
    if cdXpose d then corners b (cdN d 1 * cdEsize d) [(cdN d 0, cdStride d 2), (cdTiles d * cdN d 2, cdStride d 3)]
    else corners b (cdN d 0 * cdEsize d) [(cdCount d, cdStride d 2)]
  | _ => (b, b + 16)

/-- The extent of the source, where it is known at issue. -/
def copySrcExtent (d : List Byte) : Option (Int × Int) :=
  let b : Int := cdSrc d
  match cdMode d with
  | 0 | 3 => some (corners b (cdN d 0) [(cdN d 1, cdStride d 0), (cdN d 2, cdStride d 1)])
  | 1 => some (corners b (cdN d 0 * cdEsize d) [(cdN d 1, cdStride d 0), (cdN d 2, cdStride d 1)])
  | _ => none

/-! Windows (R340, R342). -/

/-- A window whose range passes 2^42. -/
def Win.tooLong (x : Win) : Bool := decide (2 ^ 42 < (if x.remote then x.base % 2 ^ 42 else x.base) + x.len)

/-- A window meets a range of addresses of its kind. -/
def Win.meets (x : Win) (remote : Bool) (lo hi : Int) : Bool :=
  x.remote == remote && decide (lo < (x.base : Int) + x.len ∧ (x.base : Int) < hi)

/-- Every byte of a range lies in the union of the windows of its kind. -/
def coverKind (ws : List Win) (remote : Bool) (hi : Nat) : Nat → Nat → Bool
  | 0, lo => decide (hi ≤ lo)
  | fuel + 1, lo =>
    decide (hi ≤ lo) ||
    match ws.find? fun x => x.remote == remote && decide (x.base ≤ lo ∧ lo < x.base + x.len) with
    | some x => coverKind ws remote hi fuel (x.base + x.len)
    | none => false

def Launch.coversKind (l : Launch) (remote : Bool) (lo hi : Int) : Bool :=
  decide (0 ≤ lo) && coverKind l.wins remote hi.toNat (l.wins.length + 1) lo.toNat

/-- The inputs of a launch that no window may overlap, in partition addresses. -/
def Launch.inputs (l : Launch) (tab : Option (List Byte)) (desc : List Byte) : List (Nat × Nat) :=
  let e := l.entry
  let ext := if eExt e = 0 then [] else [(eExt e, 256)]
  if l.isKernel then
    ext ++
    (match tab with
     | some t => [(eBucket e, 256 + 32 * btNvar t)]
     | none => []) ++
    (if eInd e 0 then [(eParam e, 8)] else []) ++
    (if eInd e 1 then [(numAt e 0x18 8, 12)] else []) ++
    (if eInd e 2 ∧ eExt e ≠ 0 then [(numAt l.ext 0x80 8, 16)] else []) ++
    [(l.param, 4096), (l.code, 4096)]
  else
    ext ++ [(eAddr e, 128)] ++ (if cdMode desc = 2 then [(cdTable desc, 8 * cdEntries desc)] else [])

/-- The windows break R340 or R342, or a copy's destination leaves them (R290). -/
def Launch.windowsBad (l : Launch) (tab : Option (List Byte)) (desc : List Byte) : Bool :=
  l.wins.any Win.tooLong ||
  ((l.inputs tab desc).any fun r => l.wins.any fun x => x.meets false r.1 (r.1 + r.2)) ||
  (l.isCopy &&
    ((match copySrcExtent desc with
      | some r => l.wins.any fun x => x.meets (cdSrcRemote desc) r.1 r.2
      | none => false) ||
     !(l.coversKind (cdDstRemote desc) (copyDstExtent desc).1 (copyDstExtent desc).2)))

end Sys2Proof.Machine
end

