-- ==== Sys2Proof/Machine/Cleanup.lean ====
section
/-! DEFINITION. What a launch holds and how it leaves: cores (R75, R137, R175, R337), copy engines (R292), semaphores (R314), stage channels (R209, R211); queues that want a watch (R327); queue halts (R324). -/

namespace Sys2Proof.Machine

/-- The status that a launch reports (R19). -/
def Launch.status (l : Launch) : Nat :=
  match l.fail with
  | some f => f.status.toNat
  | none => 0

/-- The table of store buffers without empty ones. -/
def dropEmpty (t : Tbl (List Sbuf)) : Tbl (List Sbuf) := t.filter fun e => e.2 != []

/-- The block slots of a launch on a core. -/
def Core.slotsFor (c : Core) (lid : Nat) : List Nat := tkeys (c.blocks.filter fun e => e.2.launch == lid)

/-- The matrix unit without what a launch's blocks hold of it: running entries stop, the queue and fills are discarded, the stationary tile is emptied, ownership ends (R175). -/
def Mx.purge (x : Mx) (lid : Nat) (slots : List Nat) : Mx :=
  let y : Mx := { x with
    drains := x.drains.filter fun e => e.2.launch != lid
    waiters := x.waiters.filter fun o => !slots.contains o }
  match x.owner with
  | some o =>
    if slots.contains o then { y with owner := none, queue := [], fills := [], nest := none, stat := none, accStat := none, lastRun := none, array := none, reader := none } else y
  | none => y

/-- A core without a launch: its blocks and groups, their store buffers, loads, tracker entries, reservations and requests (R137, R255, R337). -/
def Core.purge (c : Core) (lid : Nat) : Core :=
  let groups := c.groups.filter fun e => e.2.launch != lid
  let live (i sl : Nat) : Bool := (tfind groups (gkey i sl)).isSome
  { c with
    blocks := c.blocks.filter fun e => e.2.launch != lid
    groups := groups
    scheds := (c.scheds.map fun e => (e.1, ({ e.2 with active := e.2.active.filter (live e.1), ready := e.2.ready.filter (live e.1) } : Sched))).filter fun e => e.2 != {}
    sbufs := dropEmpty (c.sbufs.map fun e => (e.1, e.2.filter fun x => x.launch != lid))
    loads := c.loads.filter fun e => e.2.launch != lid
    art := c.art.filter fun e => e.2.launch != lid
    creqs := c.creqs.filter fun e => e.2.launch != lid
    mx := c.mx.purge lid (c.slotsFor lid) }

/-- Whether a core holds anything of a launch. -/
def Core.has (c : Core) (lid : Nat) : Bool :=
  c.hosts lid || (c.groups.any fun e => e.2.launch == lid) || (c.sbufs.any fun e => e.2.any fun x => x.launch == lid) ||
  (c.loads.any fun e => e.2.launch == lid) || (c.art.any fun e => e.2.launch == lid) || (c.creqs.any fun e => e.2.launch == lid)

/-- A core that a launch has used notes that it goes: where it holds blocks of it, a kill records KILL (R499) and counts (R506), and an end END; where its last block had ended, that is its END. -/
def State.notePurge (s : State) (lid : Nat) (kill : Bool) (p : Nat) : State :=
  match s.launch? lid with
  | some l =>
    let stops := (s.core p).hosts lid
    let k := kill && stops
    let t := if (s.core p).traced.contains lid then
        (s.modCore p fun c => { c with traced := c.traced.filter (· != lid) }).traceLaunch p (if k then tyKill else tyEnd) l (if k then 0 else l.status)
      else s
    if k then t.pmEvent p evKilled l.part 1 else t
  | none => s

/-- Take a launch off one core; a kill copies no status bytes (R163). -/
def State.purgeCore (s : State) (lid : Nat) (kill : Bool) (p : Nat) : State :=
  let c := s.core p
  if c.has lid || c.traced.contains lid then
    let t := s.notePurge lid kill p
    let u := match c.mx.owner with
      | some o => if (c.slotsFor lid).contains o ∧ kill = false then t.setReg (mxTstat p) (BitVec.ofNat 32 c.mx.tstat) else t
      | none => t
    let v := u.modCore p fun c => c.purge lid
    let v := if c.mx.owner.isSome ∧ (v.core p).mx.owner = none then v.nextOwner p else v
    ((v.wakeAll p .residency).wakeAll p .load).wakeAll p .cluster
  else s

/-- Take a launch off its copy engine. -/
def State.purgeCopy (s : State) (lid : Nat) (kill : Bool) : State :=
  match s.launch? lid with
  | none => s
  | some l =>
    match l.copy with
    | none => s
    | some c =>
      let e := s.copyEng c.engine
      if e.launches.contains lid then
        let t := s.setCopyEng c.engine { e with launches := e.launches.filter (· != lid) }
        if c.pos = 0 then t
        else t.traceLaunch (engCopy c.engine) (if kill then tyKill else tyEnd) l (if kill then 0 else l.status)
      else s

/-- Take a launch off every core and copy engine. -/
def State.stopLaunch (s : State) (lid : Nat) (kill : Bool) : State := ((tkeys s.cores).foldl (fun t p => t.purgeCore lid kill p) s).purgeCopy lid kill

/-- The same of a launch that is killed or fails; late responses to its reads are discarded by the router, which holds no slot for them any more (R337). -/
def State.purgeLaunch (s : State) (lid : Nat) (kill : Bool) : State :=
  let t := s.stopLaunch lid kill
  (upTo 4).foldl (fun t d =>
    if (t.die d).reads.any (fun e => e.2.launch == lid) then
      (t.modDie d fun x => { x with reads := x.reads.filter fun e => e.2.launch != lid }).wakeRemote d
    else t) t

/-! Semaphores. -/

/-- Leave the semaphores that a launch waits on, and serve those who waited behind it. -/
def State.semQuit (s : State) (p lid : Nat) : State :=
  let ns := ((s.part p).sems.filter fun e => e.2.waiters.contains lid).map (·.1)
  ns.foldl (fun t n => t.semServe p n (t.semFuel p)) (s.semLeave p lid)

/-! Stage channels (R209, R211). -/

/-- Free the slots of the items that a launch took. -/
def State.freeItems (s : State) (p lid : Nat) : State :=
  s.modPart p fun y => { y with chans := (y.chans.map fun e =>
    (e.1, ({ e.2 with
      items := e.2.items.filter fun i => !(i.taken && i.owner == lid)
      feeding := if e.2.feeding = some lid then none else e.2.feeding } : StageChan))).filter fun e => e.2 != {} }

/-- A producer has ended: its channels accept another, and its items carry no launch any more. -/
def State.endProducer (s : State) (p lid : Nat) (ok : Bool) : State :=
  let t := s.modPart p fun y => { y with chans := (y.chans.map fun e =>
    (e.1, ({ e.2 with
      producer := if e.2.producer = some lid then none else e.2.producer
      items := e.2.items.map fun i => if i.src = some lid then { i with src := none, bad := !ok } else i } : StageChan))).filter fun e => e.2 != {} }
  let f := t.mkFail stDep
  { t with launches := t.launches.map fun e =>
      (e.1, if e.2.producers.contains lid then
          let x : Launch := { e.2 with producers := e.2.producers.filter (· != lid) }
          if ok then x.noteReady t.now else x.addFail f
        else e.2) }

/-! Queues. -/

/-- A queue halts and raises its error cause (R324). -/
def State.haltQueue (s : State) (k reason : Nat) : State :=
  (s.modQueue k fun q => { q with halted := true, reason := BitVec.ofNat 8 reason }).irq (s.vfOf (k / 256)) (48 + k % 256 % 8)

/-- Entries of a queue's rings: 2^n (R293). -/
def Queue.size (q : Queue) : Nat := 2 ^ (q.cfg.toNat % 16 + 4)

/-- The launches of a queue. -/
def State.ofQueue (s : State) (k : Nat) : List (Nat × Launch) := s.launches.filter fun e => e.2.qk == k

/-- A launch that has issued and not completed (R325). -/
def Launch.isIssued (l : Launch) : Bool :=
  match l.phase with
  | .acquiring => eType l.entry == tySem || l.killed
  | .acquired | .rerun => l.killed
  | _ => true

/-- The partition can act: it is valid and no reset or activation of it runs. -/
def State.partRuns (s : State) (p : Nat) : Bool := s.valid p && (s.part p).reset == 0

/-- Its front end serves it too: a partition that touches a die whose lamp is dark does not start, and takes no doorbell (R39, R487). -/
def State.partUp (s : State) (p : Nat) : Bool := s.partRuns p && (entDies (s.ent p)).all fun d => s.lamp (lampDie d)

/-- A queue of a partition that runs, within its number of queues and not resetting: what it has issued goes on (R296, R324). -/
def State.queueLives (s : State) (k : Nat) : Bool :=
  s.partUp (k / 256) && decide (k % 256 < (s.ent (k / 256)).nqueue) && !(s.queue k).resetting

/-- A queue from which the front end fetches and issues: enabled, not halted, and no activation of its partition waits (R220, R296, R324). -/
def State.queueRuns (s : State) (k : Nat) : Bool :=
  let q := s.queue k
  s.queueLives k && !(s.part (k / 256)).activating && qcEnable q.cfg && !q.halted

/-- Some event wait or semaphore acquire that has issued holds its place (R302). -/
def Launch.holds (l : Launch) : Bool := eType l.entry == tyWait || (eType l.entry == tySem && eSemOp l.entry == 0)

/-- The stored entries of a route's version. -/
def State.version (s : State) (p route ver : Nat) : List (List Byte) :=
  match (s.part p).vers.find? fun v => v.route == route && v.ver == ver with
  | some v => v.entries
  | none => []

/-- Replays of a queue that run. -/
def State.replaysOf (s : State) (k : Nat) : List Nat := tkeys ((s.ofQueue k).filter fun e => e.2.replay.isSome && e.2.phase == .running)

/-- The extension of an entry that has one. -/
def State.readExt (s : State) (p : Nat) (e : List Byte) : Except TFail (List Byte) × State :=
  if eType e ≤ 1 ∧ eExt e ≠ 0 ∧ eExt e % 256 = 0 then s.fetchBytes p (eExt e) 256 else (.ok [], s)

/-- What an entry alone, its extension and the chart decide against it (R302, R323). -/
def State.entryFaults (s : State) (p : Nat) (e : List Byte) (x : Except TFail (List Byte)) : List Nat :=
  entryErrs e ++ s.chartErrs p e ++ (match x with
    | .ok [] => []
    | .ok ext => extErrs e ext
    | .error _ => [rsFetch])

/-- An entry's turn has come (R302): the one before it has completed, or CONC is set and it has issued; and no wait or acquire that has issued holds the place. -/
def entryTurn (e : List Byte) (mine : List (Nat × Launch)) (prev : Bool) : Bool := (eConc e || !prev) && mine.all fun x => !x.2.holds

/-- HEAD's entry has its turn, when HEAD is `head`. -/
def State.headTurn (s : State) (k head : Nat) (e : List Byte) : Bool :=
  let mine := (s.ofQueue k).filter fun x => x.2.call == none
  entryTurn e mine (mine.any fun x => x.2.seq + 1 == head)

/-- The entry of a replay at position `pos` has its turn. -/
def State.replayTurn (s : State) (c pos : Nat) (e : List Byte) : Bool :=
  let mine := s.launches.filter fun x => match x.2.call with
    | some (d, _) => d == c
    | none => false
  entryTurn e mine (decide (pos ≠ 0) && mine.any fun x => x.2.call == some (c, pos - 1))

/-- An entry that no launch stands for yet is a kernel or copy that needs nothing but a watch: it would fail no check, the failed state spares it, and it acquires nothing (R302, R303). -/
def State.entryWants (s : State) (p : Nat) (e : List Byte) (failed : Bool) : Bool :=
  let x := (s.readExt p e).1
  decide (eType e ≤ 1) && !(failed && !eNodep e) && s.entryFaults p e x == [] && (match x with
    | .ok ext => ({ part := p, queue := 0, seq := 0, rt := false, entry := e, ext := ext } : Launch).wants == []
    | .error _ => false)

/-- HEAD's unread entry wants a watch. -/
def State.headWants (s : State) (k : Nat) : Bool :=
  let q := s.queue k
  s.queueRuns k && q.cur == none && decide (q.head < q.tail) &&
  match (s.fetchBytes (k / 256) (q.ring + 64 * (q.head % q.size)) 64).1 with
  | .error _ => false
  | .ok e => s.headTurn k q.head e && s.entryWants (k / 256) e q.failed

/-- The next entry of a replay wants one. -/
def State.replayWants (s : State) (k c : Nat) : Bool :=
  s.queueLives k && !(s.part (k / 256)).activating &&
  match (s.launch? c).bind (·.replay) with
  | none => false
  | some r => match (s.version (k / 256) r.route r.ver)[r.pos]? with
    | none => false
    | some e => r.cur == none && s.replayTurn c r.pos e && s.entryWants (k / 256) e r.failed

/-- The queue wants a watch (R327): for a launch that lacks nothing else, or a killed one that awaits its re-run, also while it acquires its semaphores again. A withdrawn launch has its semaphores to acquire first, if it has any. An entry that the front end has still to read counts as the launch it describes. -/
def State.wantsWatch (s : State) (k : Nat) : Bool :=
  !(qcRt (s.queue k).cfg) && ((s.ofQueue k).any (fun e => e.2.isWork &&
    match e.2.phase with
    | .acquired => true
    | .rerun => e.2.killed || e.2.wants == []
    | .acquiring => e.2.killed
    | _ => false) || s.headWants k || (s.replaysOf k).any (s.replayWants k))

/-- Kills of the queue's launches are under way. -/
def State.killing (s : State) (k : Nat) : Bool := (s.ofQueue k).any fun e => e.2.phase == .killing

/-- Since when a queue that wants a watch has wanted it, when nothing is noted yet: since the first of its launches held its semaphores; a killed launch, since now. -/
def State.wantsSince (s : State) (k : Nat) : Nat :=
  ((s.ofQueue k).filterMap fun e => if e.2.isWork ∧ e.2.phase = .acquired then some e.2.waitGt else none).foldl min s.now

/-- Note since when the queues of a partition want a watch; times count half nanoseconds, so that a queue that loses its watch comes after those that want one already. One that lost it keeps its time while its launches are being killed: it wants a watch for them as soon as they await their re-runs (R329). -/
def State.noteWants (s : State) (p : Nat) : State :=
  (tkeys (s.queues.filter fun e => e.1 / 256 == p)).foldl (fun t k =>
    let q := t.queue k
    if t.wantsWatch k && q.watch == none then (if q.want = none then t.setQueue k { q with want := some (2 * t.wantsSince k) } else t)
    else if q.want = none ∨ (t.killing k = true ∧ q.watch = none) then t
    else t.setQueue k { q with want := none }) s

/-- Running watches of a partition. -/
def State.watches (s : State) (p : Nat) : Nat := (s.queues.filter fun e => e.1 / 256 == p && e.2.watch.isSome).length
/-- NWATCH and WATCHUS (R330). -/
def State.nwatch (s : State) (p : Nat) : Nat := s.fld (partSched p) 17 4 + 1
def State.watchNs (s : State) (p : Nat) : Nat := 1000 * s.fld (partSched p) 0 17

end Sys2Proof.Machine
end

