-- ==== Sys2Proof/Machine/Watches.lean ====
section
/-! DEFINITION. Watches (R326 to R330), real-time queues that become active (R333), kills, withdrawals and re-runs (R334 to R338). -/

namespace Sys2Proof.Machine

/-! Kill and withdrawal. -/

/-- A launch that pre-emption may kill (R334). -/
def Launch.killable (l : Launch) : Bool :=
  l.isWork && l.phase == .running && l.fail.isNone && l.hung == 0 && !l.nonpre && l.pushed == [] && !l.rt

/-- It has started no block and sent no copy request (R335). -/
def Launch.unstarted (l : Launch) : Bool :=
  match l.copy with
  | some c => c.pos == 0 && c.out == [] && !c.sent
  | none => l.nextBlk == 0 && l.nextBlkB == 0

/-- The launch as its next run begins (R337, R338): nothing of the old run is left but the values bound, the items taken and the times. -/
def Launch.again (l : Launch) : Launch :=
  { l with
    run := l.run + 1
    nextBlk := 0
    nextBlkB := 0
    ended := 0
    thieves := 0
    pushed := []
    formed := []
    cq := []
    cqBase := none
    closed := false
    found := none
    finals := []
    pair := none
    ready := 0
    hung := 0
    copy := l.copy.map fun c => { engine := c.engine, die := c.die, desc := c.desc } }

/-- Withdraw a launch: it returns its semaphores and waits to issue again (R335). One that was killed before keeps the values of its first issue (R338). -/
def State.withdraw (s : State) (lid : Nat) (l : Launch) : State :=
  (((s.purgeCopy lid true).semReturn l.part lid).freeRegion l.cqBase).modLaunch lid fun x =>
    { x.again with run := x.run, phase := .rerun, withdrawn := true, bound := x.killed, copy := if x.killed then x.again.copy else none, pausedGt := s.now }

/-- Step 1 of a kill: the front end places no further block and sends the kill (R336). -/
def State.beginKill (s : State) (lid : Nat) (l : Launch) : State :=
  (s.traceLaunch (engFe (s.leadDie l.part)) tyKill l 0).modLaunch lid fun x => { x with phase := .killing }

/-- A launch that pre-emption may kill now: none while its partition's activation waits for it to end (R220). -/
def State.killableNow (s : State) (l : Launch) : Bool := l.killable && !(s.part l.part).activating

/-- Kill or withdraw a launch, if it is killable. -/
def State.killLaunch (s : State) (lid : Nat) : State :=
  match s.launch? lid with
  | some l => if s.killableNow l then (if l.unstarted then s.withdraw lid l else s.beginKill lid l) else s
  | none => s

/-- End a launch with PARTITION_RESET, or a call of which an entry had failed before with that entry's status (R322): its record is written at its completion, and no final write of it is sent (R494). -/
def State.endByReset (s : State) (lid : Nat) : State :=
  match s.launch? lid with
  | none => s
  | some l =>
    let f := match l.replay.bind (·.first) with
      | some x => x.2
      | none => s.mkFail stPartReset
    (((s.semQuit l.part lid).freeItems l.part lid).failLaunch lid f).modLaunch lid fun x => { x with phase := .ended, finals := [] }

/-- Steps 2 and 3 of a kill: every core and engine has stopped and discarded the launch, and what it held is released (R336, R337). An exception recorded before the kill arrived ends the launch instead (R140); a queue reset ends it with no re-run (R496). -/
def State.killComplete (s : State) (lid : Nat) : State :=
  match s.launch? lid with
  | none => s
  | some l =>
    if l.phase = .killing then
      let t := s.purgeLaunch lid l.fail.isNone
      if l.fail.isSome then t.modLaunch lid fun x => { x with phase := .ended }
      else
        let u := ((t.semReturn l.part lid).freeRegion l.cqBase).modLaunch lid fun x => { x.again with phase := .rerun, killed := true, withdrawn := false, pausedGt := s.now }
        let v := if (s.queue l.qk).resetting then u.endByReset lid else u
        v.noteWants l.part
    else s

/-- KILL_COMPLETE (R336, R337). -/
def execKillComplete (launch : Nat) (s : State) : Host.Outcome State Fault Refusal :=
  .next (s.killComplete launch)

/-! Watches. -/

/-- A free watch goes to the queue that has wanted one longest, the lowest number on a tie (R327). -/
def State.grantWatch (s : State) (p : Nat) : State :=
  let t := s.noteWants p
  let cands := (t.queues.filter fun e => e.1 / 256 == p && e.2.want.isSome && t.wantsWatch e.1).map fun e => (e.1, e.2.want.getD 0)
  if t.partUp p && decide (t.watches p < t.nwatch p) then
    match argmin (fun e => e.2 * 256 + e.1 % 256) cands with
    | some e => t.modQueue e.1 fun q => { q with watch := some t.now, watchEnd := t.now + t.watchNs p, want := none }
    | none => t
  else t

/-- WATCH_GRANT (R327). -/
def execWatchGrant (part : Nat) (s : State) : Host.Outcome State Fault Refusal :=
  withUnit (okPart part) (s.grantWatch part)

/-- A holder with no kernel or copy issued and not completed, a killed one among them until it has run again, and none that wants one, releases its watch (R328). -/
def State.releaseWatch (s : State) (k : Nat) : State :=
  let q := s.queue k
  if q.watch.isSome && !(s.wantsWatch k) && !((s.ofQueue k).any fun e => e.2.isWork && e.2.isIssued) then
    (s.setQueue k { q with watch := none }).noteWants (k / 256)
  else s

/-- WATCH_RELEASE (R328). -/
def execWatchRelease (part q : Nat) (s : State) : Host.Outcome State Fault Refusal :=
  withUnit (okQueue part q) (s.releaseWatch (qkey part q))

/-- A watch has lasted WATCHUS (R329): it ends with kills while another queue wants one and none is free, or the count has fallen below it (R330); otherwise it starts anew. -/
def State.expireWatch (s : State) (k : Nat) : State :=
  let p := k / 256
  let t := s.noteWants p
  let q := t.queue k
  if q.watch.isSome && decide (q.watchEnd ≤ t.now) then
    let wanted := t.queues.any fun e => e.1 / 256 == p && e.1 != k && e.2.want.isSome && t.wantsWatch e.1
    if (wanted && decide (t.nwatch p ≤ t.watches p)) || decide (t.nwatch p < t.watches p) then
      let u := (t.setQueue k { q with watch := none, want := none })
      let killed := (u.ofQueue k).filter fun e => u.killableNow e.2
      let v := killed.foldl (fun v e => v.killLaunch e.1) u
      let still := v.wantsWatch k || v.killing k
      if still then v.modQueue k fun q => { q with want := some (2 * t.now + 1) } else v
    else t.setQueue k { q with watch := some t.now, watchEnd := t.now + t.watchNs p }
  else t

/-- WATCH_EXPIRY (R329). -/
def execWatchExpiry (part q : Nat) (s : State) : Host.Outcome State Fault Refusal :=
  withUnit (okQueue part q) (s.expireWatch (qkey part q))

/-! Real-time queues. -/

/-- A launch has a block on the reserve of a queue. -/
def State.onReserve (s : State) (lid : Nat) (l : Launch) (q : Nat) : Bool :=
  s.cores.any fun e => e.2.hosts lid && (match s.setOf e.1 with
    | some k => s.reserveOf l.part l.stage k == some q
    | none => false)

/-- A real-time queue becomes active: killable launches of other queues with a block on its reserve are killed (R333). -/
def State.rtBecomesActive (s : State) (p q : Nat) : State :=
  let c := (s.queue (qkey p q)).cfg
  if qcRt c && qcEnable c && s.rtActive p q then
    ((s.launches.filter fun e => e.2.part == p && e.2.queue != q && s.killableNow e.2 && s.onReserve e.1 e.2 q).foldl
      (fun t e => t.killLaunch e.1) s).noteWants p
  else s

/-- RT_QUEUE_ACTIVE (R333). -/
def execRtQueueActive (part q : Nat) (s : State) : Host.Outcome State Fault Refusal :=
  withUnit (okQueue part q) (s.rtBecomesActive part q)

end Sys2Proof.Machine
end

