-- ==== Sys2Proof/Machine/Queues.lean ====
section
/-! DEFINITION. Queues: doorbells (R295), configuration and commands (R296, R496), preload (R315). -/

namespace Sys2Proof.Machine

/-- The partition that a virtual function reaches, if both exist (R401) and no FLR of the function runs (R412). -/
def State.vfPart (s : State) (vf : Nat) : Option Nat :=
  if s.vfExists vf && (tfind s.host.flr vf).isNone then s.partOf vf else none

/-- A virtual function refuses every BAR access (R404): while an FLR of it runs (R412), and while the TDI of its partition is in ERROR (R411). -/
def State.vfRefuses (s : State) (vf : Nat) : Bool :=
  (tfind s.host.flr vf).isSome || (match s.partOf vf with
    | some p => (s.part p).tdi == 3
    | none => false)

/-- An IDE stream in use covers a function's routing ID: Link IDE covers every TLP, an enabled Selective stream those of its routing IDs (R409). The address ranges of a stream say which TLPs a sender puts on it; what a function in RUN asks of a TLP is the cover of its routing ID. -/
def State.covered (s : State) (vf : Nat) : Bool :=
  s.host.streams.any fun e => e.2.going && (e.1 == 0 || (e.2.enabled && decide (e.2.rid.toNat % 65536 ≤ vf ∧ vf ≤ e.2.rid.toNat / 65536)))

/-- A virtual function in RUN has no stream that covers it: no TLP reaches it with cover (R409). -/
def State.exposed (s : State) (vf : Nat) : Bool :=
  match s.partOf vf with
  | some p => (s.part p).tdi == 2 && !s.covered vf
  | none => false

/-- A virtual function takes accesses to its BARs: the port is up, the function exists and is in D0, it refuses nothing and what arrives has its cover. -/
def State.vfOpen (s : State) (vf : Nat) : Bool :=
  s.lamp lampPcie && s.vfExists vf && !s.host.d3.contains vf && !s.exposed vf && !s.vfRefuses vf

/-- A request completes as Unsupported Request, and is logged in AER (R397). -/
def State.unsupported (s : State) (req : Nat) : State :=
  ({ s with host := { s.host with aer := s.host.aer + 1 } }).emit (.unsupported req)

/-- A request whose target does not exist: a read is Unsupported Request, a posted write is one too and has no completion. -/
def State.noTarget (s : State) (req : Nat) (isWrite : Bool) : State :=
  if isWrite then { s with host := { s.host with aer := s.host.aer + 1 } } else s.unsupported req

/-- An access to a BAR of a virtual function arrives (R397, R401, R404, R409, R411, R412): it is taken; or it is no supported request of a function that is not there or in D3hot; or, without cover, it is one too and the TDI moves to ERROR; or it is refused: a read gives `ones`, a write is dropped, and VF_APERR counts it. -/
def State.atVf (s : State) (vf : Nat) (isWrite : Bool) (ones : Output) (body : State → State) : State :=
  if s.lamp lampPcie = false then s
  else if s.vfExists vf = false ∨ s.host.d3.contains vf = true then s.noTarget vf isWrite
  else if s.exposed vf then (match s.partOf vf with
    | some p => (s.noTarget vf isWrite).setTdi p 3
    | none => s)
  else if s.vfRefuses vf then
    let t := s.countReg (vfKey vf vfAperr) 1
    if isWrite then t else t.emit ones
  else body s

/-- A write to BAR0 of a virtual function that has a row of its own arrives. -/
def State.vfStores (s : State) (vf : Nat) (body : State → State) : State := s.atVf vf true (.unsupported vf) body

/-- A write to PF0's BAR0 that has a row of its own arrives; it is ignored while its block does not serve (R397, R488). -/
def State.pfStores (s : State) (off : Nat) (body : State → State) : State :=
  if s.lamp lampPcie = false then s
  else if s.host.d3.contains 0 then s.noTarget 0 true
  else if s.pfServes off then body s
  else s

/-! Preload slots (R315, R337). -/

/-- Free the preload slots of a front end whose key answers a test. -/
def State.dropPreloads (s : State) (d : Nat) (f : PreKey → Bool) : State := s.modDie d fun x => { x with preloads := x.preloads.filter fun y => !f y.key }

/-- What a launch's own slot is kept under. -/
def Launch.preKey (l : Launch) : PreKey :=
  match l.call with
  | none => .entry l.qk l.seq
  | some (c, i) => .replay c i

/-- The slot of a launch that ends is free, and those of a call's entries that it never took; the spec says only that a killed launch keeps its slot for its re-run: DESIGN CHOICE (log entry 85). -/
def State.freePreload (s : State) (lid : Nat) (l : Launch) : State :=
  s.dropPreloads (s.leadDie l.part) fun k => k == l.preKey || (match k with
    | .replay c _ => c == lid
    | _ => false)

/-! Doorbells. -/

/-- A doorbell write (R295). -/
def State.doorbell (s : State) (k v : Nat) : State :=
  let q := s.queue k
  if !(qcEnable q.cfg) || q.halted || q.resetting || v == q.tail then s
  else if v < q.tail ∨ q.done + q.size < v ∨ 2 ^ 48 ≤ v then s.haltQueue k rsDoorbell
  else s.setQueue k { q with tail := v }

/-- DB_TAIL_WRITE (R295). -/
def execDbTailWrite (vf q : Nat) (v : Word64) (s : State) : Host.Outcome State Fault Refusal :=
  withUnit (okVf vf && decide (q < 256)) (s.vfStores vf fun s => match s.vfPart vf with
    | some p => if q < (s.ent p).nqueue ∧ s.partUp p = true then (s.doorbell (qkey p q) v.toNat).noteWants p else s
    | none => s)

/-! Configuration. -/

/-- The queue that a function's VF_QSEL selects. -/
def State.selQueue (s : State) (vf : Nat) : Option Nat :=
  match s.vfPart vf with
  | some p =>
    let q := s.fld (vfKey vf vfQsel) 0 8
    if q < (s.ent p).nqueue then some (qkey p q) else none
  | none => none

/-- A configuration with which ENABLE is refused (R296). -/
def State.configBad (s : State) (k : Nat) (v : Word) : Bool :=
  let q := s.queue k
  let others := (s.rtShares (k / 256)).filter fun e => e.1 != k % 256
  let n := 2 ^ (v.toNat % 16 + 4)
  decide (12 < v.toNat % 16) || q.ring % (64 * n) != 0 || q.cpl % (32 * n) != 0 ||
  (if qcRt v then decide (qcShare v < 1 ∨ 64 < qcShare v) else qcShare v != 0) ||
  (qcRt v && (decide (4 ≤ others.length) || decide (64 < (others.map (·.2)).foldl (· + ·) 0 + qcShare v)))

/-- A write of VF_QCFG: with ENABLE set only its clearing acts; a refused ENABLE leaves the queue disabled, with reason CONFIG. -/
def State.configure (s : State) (k : Nat) (v : Word) : State :=
  let q := s.queue k
  let w := v &&& 0x1FFF
  if qcEnable q.cfg then (if qcEnable w then s else s.setQueue k { q with cfg := w })
  else if qcEnable w && s.configBad k w then
    s.setQueue k { q with cfg := w &&& 0xFFF, reason := BitVec.ofNat 8 rsConfig }
  else s.setQueue k { q with cfg := w }

/-- VF_QCFG_WRITE (R296). -/
def execVfQcfgWrite (vf : Nat) (v : Word) (s : State) : Host.Outcome State Fault Refusal :=
  withUnit (okVf vf) (s.vfStores vf fun s => match s.selQueue vf with
    | some k => (s.configure k v).noteWants (k / 256)
    | none => s)

/-! Commands. -/

/-- QCMD_RESUME (R296): HALTED clears, and fetching restarts at HEAD. -/
def execQcmdResume (vf : Nat) (s : State) : Host.Outcome State Fault Refusal :=
  withUnit (okVf vf) (s.vfStores vf fun s => match s.selQueue vf with
    | some k => (s.modQueue k fun q => { q with halted := false }).noteWants (k / 256)
    | none => s)

/-- QCMD_CLRFAIL (R296). -/
def execQcmdClrfail (vf : Nat) (s : State) : Host.Outcome State Fault Refusal :=
  withUnit (okVf vf) (s.vfStores vf fun s => match s.selQueue vf with
    | some k => (s.modQueue k fun q => { q with failed := false }).noteWants (k / 256)
    | none => s)

/-- Forget a launch that has not issued, and its preload. -/
def State.forget (s : State) (lid : Nat) (l : Launch) : State :=
  ((((s.semQuit l.part lid).semReturn l.part lid).freeItems l.part lid).freePreload lid l).delLaunch lid

/-- What a queue reset does to one launch (R496): waits and acquires are withdrawn, killable launches are ended, launches that have not issued are dropped, and others run on. -/
def State.resetLaunch (s : State) (lid : Nat) : State :=
  match s.launch? lid with
  | none => s
  | some l =>
    match l.phase with
    | .acquiring => if eType l.entry = tySem then s.endByReset lid else if l.run = 0 ∧ l.withdrawn = false then s.forget lid l else s.endByReset lid
    | .acquired => if l.run = 0 ∧ l.withdrawn = false then s.forget lid l else (s.semReturn l.part lid).endByReset lid
    | .rerun => s.endByReset lid
    | .running =>
      if eType l.entry = tyWait then s.endByReset lid
      else if l.killable then (if l.unstarted then (s.withdraw lid l).endByReset lid else s.beginKill lid l)
      else s
    | _ => s

/-- Replays of a queue whose reset runs issue nothing further. -/
def Launch.stopReplay (l : Launch) : Launch :=
  match l.replay with
  | some r => { l with replay := some { r with cur := none } }
  | none => l

/-- A launch ends: with a failure, or OK. Its record is written at its completion. -/
def State.finish (s : State) (lid : Nat) (f : Option Failure) : State :=
  s.modLaunch lid fun l => { (match f with
    | some x => l.addFail x
    | none => l) with phase := .ended, armed := false }

/-- A route call has ended once its last entry has completed, or once a reset lets no more of it issue and none of its entries runs (R305, R496). -/
def State.callDone (s : State) (c : Nat) : State :=
  match s.launch? c with
  | none => s
  | some l =>
    match l.replay with
    | none => s
    | some r =>
      let all := decide ((s.version l.part r.route r.ver).length ≤ r.pos)
      let stopped := (s.queue l.qk).resetting || (s.part l.part).reset != 0
      if l.phase = .running ∧ r.cur = none ∧ r.live = [] ∧ (all || stopped) = true then
        s.finish c (match r.first with
          | some x => some x.2
          | none => if all then none else some (s.mkFail stPartReset))
      else s

/-- A queue reset begins (R496): a call of which no entry runs ends at once, any other with the last that does. -/
def State.beginQueueReset (s : State) (k : Nat) : State :=
  let q := s.queue k
  if q.resetting then s
  else
    let t := s.setQueue k { q with resetting := true, cur := none }
    let u := (t.ofQueue k).foldl (fun t e => t.resetLaunch e.1) t
    let v : State := { u with launches := u.launches.map fun e => (e.1, if e.2.qk = k then e.2.stopReplay else e.2) }
    ((v.replaysOf k).foldl (fun t c => t.callDone c) v).noteWants (k / 256)

/-- QCMD_RESET (R296, R496). -/
def execQcmdReset (vf : Nat) (s : State) : Host.Outcome State Fault Refusal :=
  withUnit (okVf vf) (s.vfStores vf fun s => match s.selQueue vf with
    | some k => s.beginQueueReset k
    | none => s)

/-- The reset ends once none of the queue's launches remain: its positions and state are clear. -/
def State.endQueueReset (s : State) (k : Nat) : State :=
  let q := s.queue k
  if q.resetting && s.ofQueue k == [] then
    (s.dropPreloads (s.leadDie (k / 256)) fun x => match x with
      | .entry j _ => j == k
      | _ => false).setQueue k { ring := q.ring, cpl := q.cpl, cfg := q.cfg &&& 0xFFF, jobs := q.jobs }
  else s

/-- QUEUE_RESET_END (R496). -/
def execQueueResetEnd (part q : Nat) (s : State) : Host.Outcome State Fault Refusal :=
  withUnit (okQueue part q) (s.endQueueReset (qkey part q))

/-! Preload (R315, R322). -/

/-- Slots of a front end that hold an entry: of real-time queues, or of others. The first entries of routes stand beside them. -/
def State.preloadsOn (s : State) (d : Nat) (rt : Bool) : Nat :=
  ((s.die d).preloads.filter fun x => x.rt == rt && match x.key with
    | .route _ _ _ => false
    | _ => true).length

/-- A slot is free: 256 of the 512 are held for real-time queues. -/
def State.preloadRoom (s : State) (d : Nat) (rt : Bool) : Bool :=
  decide (s.preloadsOn d true + s.preloadsOn d false < 512) && (rt || decide (s.preloadsOn d false < 256))

/-- The slot under a key. -/
def State.preSlot (s : State) (d : Nat) (key : PreKey) : Option PreSlot := (s.die d).preloads.find? fun x => x.key == key

/-- Fetch the first 4 KiB of code into the instruction caches of a stage's cores: every line that it touches, under the preload's number. -/
def State.preloadCode (s : State) (p st code num : Nat) : State :=
  let cores := (s.stageSets p st).flatMap fun k => (upTo 24).map fun i => s.physOf (24 * k + i)
  (upTo ((code % 128 + 4223) / 128)).foldl (fun (t : State) i =>
    let va := (code / 128 + i) * 128
    match t.transl p va .fetch with
    | (.ok tr, u) =>
      if u.poisonedAt tr.tgt 128 then u
      else
        let r := u.readAt tr.tgt 128
        cores.foldl (fun v c => v.icacheFill c (va / 128) r.1 (some num)) r.2
    | (.error _, u) => u) s

/-! Indirection (R193, R307, R308). -/

/-- Bytes read by indirection, or given directly. -/
def State.readInd (s : State) (p : Nat) (on : Bool) (va n : Nat) (direct : List Byte) : Except TFail (List Byte) × State :=
  if on then s.fetchBytes p va n else (.ok direct, s)

/-- What step 1 of R302 reads: the launch with the values that can be read, the first failure of one that cannot, and whether the grid and the selectors can. -/
structure Values where
  l   : Launch
  bad : Option TFail := none
  gridOk : Bool := true
  selOk  : Bool := true

/-- Step 1: the parameter block's address, the grid and the selectors. -/
def State.bindValues (s : State) (l : Launch) : Values × State :=
  let e := l.entry
  let a := s.readInd l.part (eInd e 0) (eParam e) 8 (slice e 0x10 8)
  let g := a.2.readInd l.part (eInd e 1) (numAt e 0x18 8) 12 (slice e 0x18 12)
  let x := g.2.readInd l.part (eInd e 2 && eExt e != 0) (numAt l.ext 0x80 8) 16 (slice l.ext 0x80 16)
  let ndim := if eBucket e = 0 then 0 else 4
  let got (r : Except TFail (List Byte)) : List Byte := match r with
    | .ok bs => bs
    | .error _ => []
  let failed (r : Except TFail (List Byte)) : Option TFail := match r with
    | .ok _ => none
    | .error f => some f
  ({ l := { l with
      param := leNat (got a.1)
      gx := numAt (got g.1) 0 4
      gy := numAt (got g.1) 4 4
      gz := numAt (got g.1) 8 4
      sel := (upTo ndim).map fun i => numAt (got x.1) (4 * i) 4 }
     bad := (failed a.1).orElse fun _ => (failed g.1).orElse fun _ => failed x.1
     gridOk := (failed g.1).isNone
     selOk := (failed x.1).isNone }, x.2)

/-- The code that a kernel entry selects, with the values that stand now; the extension and every indirect value are read. -/
def State.codeNow (s : State) (p : Nat) (e : List Byte) : Option Nat × State :=
  match s.readExt p e with
  | (.error _, t) => (none, t)
  | (.ok x, t) =>
    let r := t.bindValues { part := p, queue := 0, seq := 0, rt := false, entry := e, ext := x }
    if eBucket e = 0 then (some (eCode e), r.2)
    else
      match r.2.fetchBytes p (eBucket e) 256 with
      | (.error _, v) => (none, v)
      | (.ok tab, v) =>
        match v.fetchBytes p (eBucket e) (256 + 32 * btNvar tab) with
        | (.error _, w) => (none, w)
        | (.ok full, w) => (if r.1.selOk then (selectBucket full r.1.l.sel).map fun y => btCode full y.2 else none, w)

/-- Take a slot for an entry. -/
def State.addPreload (s : State) (p : Nat) (rt : Bool) (key : PreKey) (num : Nat) (code : Option Nat) : State :=
  s.modDie (s.leadDie p) fun x => { x with preloads := x.preloads ++ [{ num := num, key := key, rt := rt, code := code }] }

/-- Preload one entry: a kernel's code, a copy's descriptor; nothing beyond the entry for the rest. -/
def State.preloadEntry (s : State) (p : Nat) (rt : Bool) (key : PreKey) (e : List Byte) : State :=
  let num := s.free + 1
  let t : State := { s with free := s.free + 1 }
  if entryErrs e ++ t.chartErrs p e ≠ [] then t.addPreload p rt key num none
  else if eType e = tyKernel then
    match t.codeNow p e with
    | (some code, u) => (u.preloadCode p (eStage e) code num).addPreload p rt key num (some code)
    | (none, u) => u.addPreload p rt key num none
  else if eType e = tyCopy then ((t.readExt p e).2.fetchBytes p (eAddr e) 128).2.addPreload p rt key num none
  else t.addPreload p rt key num none

/-- The queue's next entry, while a launch of the queue runs. -/
def State.preloadHead (s : State) (k : Nat) : Option State :=
  let p := k / 256
  let q := s.queue k
  let rt := qcRt q.cfg
  let key := PreKey.entry k q.head
  if s.queueRuns k && decide (q.head < q.tail) && s.preloadRoom (s.leadDie p) rt && (s.preSlot (s.leadDie p) key).isNone &&
      (s.ofQueue k).any (fun e => e.2.isIssued) then
    match s.fetchBytes p (q.ring + 64 * (q.head % q.size)) 64 with
    | (.error _, t) => some t
    | (.ok e, t) => some (t.preloadEntry p rt key e)
  else none

/-- The next entry of a replay, while an earlier one runs (R322). -/
def State.preloadReplay (s : State) (k c : Nat) : Option State :=
  match s.launch? c with
  | none => none
  | some l =>
    match l.replay with
    | none => none
    | some r =>
      let d := s.leadDie l.part
      let key := PreKey.replay c r.pos
      match (s.version l.part r.route r.ver)[r.pos]? with
      | none => none
      | some e =>
        if r.live ≠ [] ∧ (s.queueLives k && s.preloadRoom d l.rt && (s.preSlot d key).isNone) = true then some (s.preloadEntry l.part l.rt key e) else none

/-- The first entry of the current version of a route that was called lately; what was kept for other versions, or for routes called longer ago, goes. -/
def State.preloadRoute (s : State) (p r : Nat) : Option State :=
  let d := s.leadDie p
  let x := tget {} (s.part p).routes r
  let key := PreKey.route p r x.ver
  match s.version p r x.ver with
  | [] => none
  | e :: _ =>
    if x.live && (s.preSlot d key).isNone then
      some ((s.dropPreloads d fun y => match y with
        | .route p' r' _ => p' == p && (r' == r || !((s.part p).recentRoutes.contains r'))
        | _ => false).preloadEntry p false key e)
    else none

/-- The first of several steps that can be taken. -/
def firstStep {α : Type} (f : α → Option State) : List α → Option State
  | [] => none
  | x :: xs => match f x with
    | some t => some t
    | none => firstStep f xs

/-- One preload of the front end for a queue: its next entry, the next entry of a replay, or a route of its partition. -/
def State.preloadNext (s : State) (k : Nat) : Option State :=
  (s.preloadHead k).orElse fun _ => (firstStep (s.preloadReplay k) (s.replaysOf k)).orElse fun _ =>
    if s.partUp (k / 256) then firstStep (s.preloadRoute (k / 256)) (s.part (k / 256)).recentRoutes else none

/-- PRELOAD (R315). -/
def execPreload (part q : Nat) (s : State) : Host.Outcome State Fault Refusal :=
  withUnit (okQueue part q) ((s.preloadNext (qkey part q)).getD s)

end Sys2Proof.Machine
end

