-- ==== Sys2Proof/Machine/Frontend.lean ====
section
/-! DEFINITION. The front end: issue (R302 to R304, R307, R308, R322, R325), event waits (R311, R312) and limits on waiting and running (R300, R313, R314). -/

namespace Sys2Proof.Machine

/-! Ends at issue. -/

/-- A failure that the front end of a launch's partition finds. -/
def State.feFail (s : State) (l : Launch) (status : Byte) (reason : Nat) : Failure :=
  s.mkFail status (engFe (s.leadDie l.part)) 0 (BitVec.ofNat 8 reason)

/-- A replay's entry has issued. -/
def Replay.leave (r : Replay) (lid : Nat) : Replay :=
  if r.cur = some lid then { r with cur := none, pos := r.pos + 1, live := r.live ++ [lid] } else r

/-- The entry leaves HEAD, or its place in a replay: it has issued (R302, R322). -/
def State.advance (s : State) (lid : Nat) : State :=
  match s.launch? lid with
  | none => s
  | some l =>
    match l.call with
    | none =>
      let q := s.queue l.qk
      if q.cur = some lid then s.setQueue l.qk { q with cur := none, head := q.head + 1 } else s
    | some (c, _) => s.modLaunch c fun x => { x with replay := x.replay.map fun r => r.leave lid }

/-- A launch issues, and its front end records its BEGIN (R499); one that ends at issue has issued too. -/
def State.leave (s : State) (lid : Nat) : State :=
  (match s.launch? lid with
  | some l => s.traceLaunch (engFe (s.leadDie l.part)) tyBegin l 0
  | none => s).advance lid

/-- A launch ends at issue: it returns what it acquired before it reports (R302, R323). -/
def State.endAtIssue (s : State) (lid : Nat) (l : Launch) (status : Byte) (reason : Nat) : State :=
  let t := (s.semReturn l.part lid).finish lid (some (s.feFail l status reason))
  (if reason = 0 then t else t.modQueue l.qk fun q => { q with reason := BitVec.ofNat 8 reason }).leave lid

/-! Indirection and selection (R193, R307, R308). -/

/-- What steps 1 to 3 of R302 give. -/
inductive Bind where
  | go (l : Launch)
  /-- A dimension read as 0: OK without running (R308). -/
  | idle
  | refuse (status : Byte) (reason : Nat)
  /-- No way round the ring leads to what it reads: it waits (log entry 77). -/
  | wait

/-- A value of a grid read by indirection that is 0; a channel number is no dimension. -/
def Launch.zeroGrid (l : Launch) : Bool :=
  eInd l.entry 1 && (l.gx == 0 || l.gz == 0 || (!eChfed l.entry && l.gy == 0))

/-- Rules that a grid read by indirection breaks. -/
def State.gridErrs (s : State) (l : Launch) : List Nat :=
  if eInd l.entry 1 then
    if eChfed l.entry then
      broken [(rsChannel, l.gz != 1 || (match s.chanEnt l.part (l.gy % 256) with
        | some (_, dst, lg) => dst != l.stage || decide (2 ^ lg < l.gx)
        | none => true)), (rsReserved, decide (256 ≤ l.gy))]
    else broken [(rsGrid, gridBad (eCluster l.entry) l.gx l.gy l.gz)]
  else []

/-- The variant's occupancy rules (R89, R192). -/
def State.occBad (s : State) (l : Launch) : Bool :=
  let b := occupancy (eThreads l.entry) l.vregs l.lskib l.split
  decide (64 * l.split < l.lskib) || b == 0 || s.clusterBad l.part l.stage (eCluster l.entry) b

/-- A structure that cannot be read, beside the reasons already found: the lowest is reported (R323). -/
def refuseFetch (f : TFail) (errs : List Nat) : Bind :=
  if f = .cut then .wait
  else match lowest errs with
    | some r => if r < rsFetch then .refuse stTranslation r else .refuse f.status rsFetch
    | none => .refuse f.status rsFetch

/-- The refusal for what was found: a value that cannot be read, and reasons; otherwise the launch goes on. -/
def refuseOr (bad : Option TFail) (errs : List Nat) (go : Bind) : Bind :=
  match bad, lowest errs with
  | some f, _ => refuseFetch f errs
  | none, some r => .refuse stTranslation r
  | none, none => go

/-- Step 2 for a launch with a bucket table (R191 to R195), and step 3. `errs` are the reasons that step 1 found, beside a value that it could not read; of all, the lowest is reported (R323). -/
def State.bindBucket (s : State) (x : Values) (errs : List Nat) : Bind × State :=
  let l := x.l
  let va := eBucket l.entry
  match s.fetchBytes l.part va 256 with
  | (.error f, t) => (refuseFetch (x.bad.getD f) errs, t)
  | (.ok head, t) =>
    if bucketHeadBad head then (refuseOr x.bad (rsBucket :: errs) .idle, t)
    else match t.fetchBytes l.part va (256 + 32 * btNvar head) with
      | (.error f, u) => (refuseFetch (x.bad.getD f) errs, u)
      | (.ok tab, u) =>
        if (upTo (btNvar tab)).any (variantBad tab) then (refuseOr x.bad (rsBucket :: errs) .idle, u)
        else
          let errs := errs ++ (if eChfed l.entry ∧ btNdim tab ≠ 1 then [rsChannel] else [])
          match selectBucket tab l.sel with
          | none => (refuseOr x.bad errs (.refuse stBucket 0), u)
          | some (js, v) =>
            let m : Launch := { l with bidx := js, code := btCode tab v, vregs := btVregs tab v, split := btSplit tab v, lskib := btLskib tab v, sel := l.sel.take (btNdim tab) }
            (refuseOr x.bad (errs ++ if x.selOk && u.occBad m then [rsOccupancy] else [])
              (if m.windowsBad (some tab) [] then .refuse stWindow 0 else .go m), u)

/-- Steps 1 to 3 for a kernel: a value that cannot be read refuses it, once everything else of the step has been looked at (R323). -/
def State.bindKernel (s : State) (l : Launch) : Bind × State :=
  let r := s.bindValues l
  let m := r.1.l
  let t := r.2
  let errs := if r.1.gridOk then t.gridErrs m else []
  if r.1.bad = none ∧ m.zeroGrid = true then (.idle, t)
  else if eBucket m.entry ≠ 0 then t.bindBucket r.1 errs
  else
    let n : Launch := { m with code := eCode m.entry, vregs := eVregs m.entry, split := eSplit m.entry, lskib := eLskib m.entry }
    (refuseOr r.1.bad errs (if n.windowsBad none [] then .refuse stWindow 0 else .go n), t)

/-- The same for a copy: its descriptor, its extents and its windows (R287 to R290). -/
def State.bindCopy (s : State) (l : Launch) : Bind × State :=
  match s.fetchBytes l.part (eAddr l.entry) 128 with
  | (.error f, t) => (refuseFetch f [], t)
  | (.ok d, t) =>
    if copyBad d then (.refuse stTranslation rsCopy, t)
    else if l.windowsBad none d then (.refuse stWindow 0, t)
    else (.go { l with copy := some { engine := 0, die := if cdDie d = 4 then t.leadDie l.part else cdDie d, desc := d } }, t)

/-! Start. -/

/-- The engine of a die with the fewest launches, the lowest number on a tie (R286). -/
def State.pickEngine (s : State) (d : Nat) : Option Nat :=
  argmin (fun e => (s.copyEng e).launches.length) (((upTo 16).map (16 * d + ·)).filter fun e => !(s.copyEng e).retired)

/-- The slots under which a launch's entry may be preloaded (R315): its own, and for the first entry of a replay that of the route. -/
def State.preKeys (s : State) (l : Launch) : List PreKey :=
  l.preKey :: (match l.call with
    | some (c, 0) => (match (s.launch? c).bind (·.replay) with
      | some r => [PreKey.route l.part r.route r.ver]
      | none => [])
    | _ => [])

/-- The preload that a launch finds as it starts, if it fetched the code that the launch runs (R194, R315). -/
def State.preFor (s : State) (l : Launch) : Option Nat :=
  ((s.preKeys l).filterMap (s.preSlot (s.leadDie l.part))).findSome? fun x => if x.code = some l.code then some x.num else none

/-- Preloaded code of another variant than the launch runs is discarded (R194). -/
def State.dropOther (s : State) (l : Launch) : State :=
  let keys := s.preKeys l
  if l.isKernel then s.modDie (s.leadDie l.part) fun x => { x with preloads := x.preloads.filter fun y => !(keys.contains y.key) || y.code == some l.code } else s

/-- The first line of commit region `r` of a die's front end: 16 regions of 128 KiB in the reserved region of each channel of the die. DESIGN CHOICE: the spec gives their number and not their place (log entry 87). -/
def regionAt (d r : Nat) : Nat := (2 ^ 31 * (64 * d + r / 16) + 0x5FE00000 + 131072 * (r % 16)) / 128

/-- The commit region that a killable kernel takes at issue: the lowest free one of its front end's 1,024 (R344). -/
def State.pickRegion (s : State) (l : Launch) : Option Nat :=
  if l.isKernel && !l.nonpre then
    l.cqBase.orElse fun _ => ((upTo 1024).map (regionAt (s.leadDie l.part))).find? fun b => !s.launches.any fun e => e.2.cqBase == some b
  else none

/-- The launch as it starts (R300, R302). -/
def State.begin (s : State) (lid : Nat) (l : Launch) : State :=
  let m : Launch := { l with
    phase := .running
    bound := true
    withdrawn := false
    issueGt := if l.killed then l.issueGt else s.now
    paused := if l.killed then l.paused + (s.now - l.pausedGt) else 0
    progGt := s.now
    llsc512 := s.bit (partMemcfg l.part) 0
    pre := if l.isKernel then s.preFor l else none
    cqBase := s.pickRegion l
    pair := if l.isKernel ∧ ePaired l.entry then some {} else none }
  ((s.dropOther m).setLaunch lid m).leave lid

/-- Step 4 of R302: the launch starts, if its engine has a place for it. A stage without a usable core set, a paired launch's half of one without, or a die without a copy engine, ends it with RETIRED_RESOURCE (R19, R31, R435). -/
def State.start (s : State) (lid : Nat) (l : Launch) : Option State :=
  match l.copy with
  | none => if s.noSets l then some (s.endAtIssue lid l stRetired 0) else some (s.begin lid l)
  | some c =>
    match s.pickEngine c.die with
    | none => some (s.endAtIssue lid l stRetired 0)
    | some e =>
      let x := s.copyEng e
      if x.launches.length < 8 then
        some ((s.setCopyEng e { x with launches := x.launches ++ [lid] }).begin lid { l with copy := some { c with engine := e } })
      else none

/-- A kernel or copy whose conditions hold issues; a re-run keeps the values of its first issue (R338). One that the chart, changed while it waited, no longer admits is refused as when its entry was read (R203, R210). -/
def State.issueWork (s : State) (lid : Nat) (l : Launch) : Option State :=
  match lowest (s.chartErrs l.part l.entry) with
  | some reason => some (s.endAtIssue lid l stTranslation reason)
  | none =>
  let r := if l.bound then (.go l, s) else if l.isKernel then s.bindKernel l else s.bindCopy l
  match r with
  | (.refuse st reason, t) => some (t.endAtIssue lid l st reason)
  | (.idle, t) => some ((t.finish lid none).leave lid)
  | (.wait, _) => none
  | (.go m, t) => t.start lid m

/-! Events, semaphores and route calls issue (R304, R309 to R313, R321). -/

/-- An event record is performed; a marked one reports DEPENDENCY_FAILED whatever becomes of its record (R304). -/
def State.issueRecord (s : State) (lid : Nat) (l : Launch) (mark : Bool) : State :=
  let fail (t : State) (st : Byte) (reason : Nat) : State :=
    if mark then t.endAtIssue lid l stDep 0 else t.endAtIssue lid l st reason
  match s.eventWord l.part (eAddr l.entry) with
  | (.error .translation, t) => fail t stTranslation rsEvent
  | (.error f, t) => fail t f.status 0
  | (.ok a, t) =>
    if t.poisoned a 8 then fail t stEcc 0
    else
      let u := t.eventMax l.part a (eValue l.entry % 2 ^ 63 + (if mark then 2 ^ 63 else 0))
      if mark then u.endAtIssue lid l stDep 0 else (u.finish lid none).leave lid

/-- Some way round the ring leads from the front end of a wait to its word (R25). -/
def State.wordSeen (s : State) (l : Launch) : Bool :=
  match l.word with
  | some a => s.dieSees (s.leadDie l.part) (.hbm a)
  | none => true

/-- Evaluate an event wait (R311): a word that is lost or uncorrectable ends it (R436), and one that no way round the ring leads to is not read (log entry 77). -/
def State.evalWait (s : State) (lid : Nat) : State :=
  match s.launch? lid with
  | none => s
  | some l =>
    match l.word with
    | none => s
    | some a =>
      if s.wordSeen l = false then s
      else if s.chanRetired (a / 2 ^ 31) || s.poisoned a 8 then s.finish lid (some (s.feFail l stEcc 0))
      else
        let w := leNat (s.bytes a 8)
        if 2 ^ 63 ≤ w then s.finish lid (some (s.feFail l stDep 0))
        else if eValue l.entry ≤ w then s.finish lid none
        else s.modLaunch lid fun x => { x with touched := false, polled := s.now }

/-- A front end has a free watch slot (R312). -/
def State.slotFree (s : State) (d : Nat) : Bool :=
  decide ((s.launches.filter fun e => e.2.armed && s.leadDie e.2.part == d).length < 1024)

/-- An event wait issues: it arms a watch on its line, then reads the word (R311). -/
def State.issueWait (s : State) (lid : Nat) (l : Launch) : State :=
  match s.eventWord l.part (eAddr l.entry) with
  | (.error .translation, t) => t.endAtIssue lid l stTranslation rsEvent
  | (.error f, t) => t.endAtIssue lid l f.status 0
  | (.ok a, t) =>
    let u := t.modLaunch lid fun x => { x with phase := .running, issueGt := t.now, word := some a, armed := t.slotFree (t.leadDie l.part) }
    (u.leave lid).evalWait lid

/-- A semaphore launch issues (R313). -/
def State.issueSem (s : State) (lid : Nat) (l : Launch) : State :=
  let n := eSem l.entry
  let c := eSemCount l.entry
  match eSemOp l.entry with
  | 0 =>
    let t := s.modLaunch lid fun x => { x with phase := .acquiring, waitGt := s.now, issueGt := s.now }
    (t.leave lid).semBegin l.part lid { l with phase := .acquiring }
  | 1 => ((s.semRelease l.part n c).finish lid none).leave lid
  | _ => ((s.semSet l.part n c).finish lid none).leave lid

/-- A route call issues: it binds the current version (R321, R322). -/
def State.issueCall (s : State) (lid : Nat) (l : Launch) : State :=
  let r := eRoute l.entry
  let ver := (tget {} (s.part l.part).routes r).ver
  let t := s.modLaunch lid fun x => { x with phase := .running, issueGt := s.now, replay := some { route := r, ver := ver } }
  (t.modPart l.part fun y => { y with recentRoutes := (r :: y.recentRoutes.filter (· != r)).take 64 }).leave lid

/-! An entry reaches its turn. -/

/-- A record for an entry: the checks that the entry alone decides, the failed state, and then what its type asks (R302, R303, R323). A kernel or copy begins to acquire its semaphores; anything else issues. -/
def State.takeEntry (s : State) (k seq : Nat) (e : List Byte) (call : Option (Nat × Nat)) (failed : Bool) : State :=
  let p := k / 256
  let lid := s.nextLaunch
  let r := s.readExt p e
  let ext := match r.1 with
    | .ok x => x
    | .error _ => []
  let l : Launch := {
    part := p
    queue := k % 256
    seq := seq
    rt := qcRt (s.queue k).cfg
    entry := e
    call := call
    ext := ext
    wins := if ext = [] then [] else winsOf ext
    param := eParam e
    gx := eGrid e 0
    gy := eGrid e 1
    gz := eGrid e 2
    waitGt := s.now }
  let t := ({ r.2 with nextLaunch := lid + 1 } : State).setLaunch lid l
  let t := match call with
    | none => t.modQueue k fun q => { q with cur := some lid }
    | some (c, _) => t.modLaunch c fun x => { x with replay := x.replay.map fun (y : Replay) => { y with cur := some lid } }
  let errs := s.entryFaults p e r.1
  let dep := failed && !eNodep e
  match lowest errs, r.1 with
  | some reason, .error f => t.endAtIssue lid l (if reason = rsFetch then f.status else stTranslation) reason
  | some reason, .ok _ => t.endAtIssue lid l stTranslation reason
  | none, _ =>
    if dep then (if eType e = tyRecord then t.issueRecord lid l true else t.endAtIssue lid l stDep 0)
    else if eType e = tyRecord then t.issueRecord lid l false
    else if eType e = tyWait then t.issueWait lid l
    else if eType e = tySem then t.issueSem lid l
    else if eType e = tyCall then t.issueCall lid l
    else t.semBegin p lid l

/-! LAUNCH_ISSUE. -/

/-- A launch of the queue may issue: it holds a watch or is real-time (R302, R326). -/
def State.mayIssue (s : State) (k : Nat) : Bool := qcRt (s.queue k).cfg || (s.queue k).watch.isSome

/-- The front end holds fewer than 1,024 launches that have issued and not completed (R325). -/
def State.frontRoom (s : State) (p : Nat) : Bool :=
  decide ((s.launches.filter fun e => e.2.isIssued && s.leadDie e.2.part == s.leadDie p).length < 1024)

/-- The failed state under which a launch issues: its queue's, or its replay's (R303, R322). -/
def State.failedFor (s : State) (l : Launch) : Bool :=
  match l.call with
  | none => (s.queue l.qk).failed
  | some (c, _) => match (s.launch? c).bind (·.replay) with
    | some r => r.failed
    | none => false

/-- The failed state was set while a launch waited for its first issue, and the launch has NODEP clear (R303). -/
def State.depFails (s : State) (l : Launch) : Bool :=
  l.isWork && (l.phase == .acquiring || l.phase == .acquired) && !l.killed && !l.withdrawn && !eNodep l.entry && s.failedFor l

/-- A launch whose semaphores are held issues, when its queue may issue and the front end has room (R325); a killed one has its place already. -/
def State.tryIssue (s : State) (k lid : Nat) (l : Launch) : Option State :=
  if s.mayIssue k && (l.killed || s.frontRoom l.part) then s.issueWork lid l else none

/-- Go on with a launch that has a record and waits to issue: one that the failed state reaches ends; a re-run acquires its semaphores again, a killed one when its queue may issue (R338). -/
def State.goOn (s : State) (k lid : Nat) : Option State :=
  match s.launch? lid with
  | none => none
  | some l =>
    if s.depFails l then (if s.frontRoom l.part then some ((s.semQuit l.part lid).endAtIssue lid l stDep 0) else none)
    else
      match l.phase with
      | .acquired => s.tryIssue k lid l
      | .rerun =>
        if l.killed && !(s.mayIssue k) then none
        else
          let t := (s.modLaunch lid fun x => { x with phase := .acquiring, waitGt := s.now }).semBegin l.part lid l
          match t.launch? lid with
          | some m => if m.phase = .acquired then some ((t.tryIssue k lid m).getD t) else some t
          | none => some t
      | _ => none

/-- The launches of a queue that wait to issue: those that issue again, or will after a kill, and those that have never issued. -/
def State.waitingOf (s : State) (k : Nat) (again : Bool) : List Nat :=
  tkeys ((s.ofQueue k).filter fun e => e.2.isWork && (match e.2.phase with
    | .acquiring | .acquired | .rerun | .killing => true
    | _ => false) && (e.2.phase == .rerun || e.2.phase == .killing || e.2.killed || e.2.withdrawn) == again)

/-- An entry's issue looks at its event word: a record's, and a wait's that the failed state spares, where the entry breaks no rule (R303, R309, R323). -/
def State.usesWord (s : State) (p : Nat) (e : List Byte) (failed : Bool) : Bool :=
  (eType e == tyRecord || (eType e == tyWait && (!failed || eNodep e))) && s.entryFaults p e (.ok []) == []

/-- Take an entry, once what its issue reads at once can be read: its extension and its event word are where some way round the ring leads (log entry 77), and the home slice of a word to be recorded has its line (R310, R415). -/
def State.withEntry (s : State) (p : Nat) (e : List Byte) (failed : Bool) (k : State → State) : Option State :=
  match (s.readExt p e).1 with
  | .error .cut => none
  | _ =>
    if s.usesWord p e failed then
      match (s.eventWord p (eAddr e)).1 with
      | .error .cut => none
      | .error _ => some (k s)
      | .ok a => if eType e = tyRecord then s.onceHere p [(.hbm a, 8)] k else some (k s)
    else some (k s)

/-- The next entry of a replay, when its turn has come (R322). -/
def State.nextOfReplay (s : State) (k c : Nat) : Option State :=
  match s.launch? c with
  | none => none
  | some l =>
    match l.replay with
    | none => none
    | some r =>
      match (s.version l.part r.route r.ver)[r.pos]? with
      | none => none
      | some e =>
        if r.cur = none ∧ s.replayTurn c r.pos e = true then
          s.withEntry l.part e r.failed fun s =>
            let t := s.takeEntry k l.seq e (some (c, r.pos)) r.failed
            (t.goOn k s.nextLaunch).getD t
        else none

/-- The entry at HEAD, when its turn has come; an entry that cannot be read halts the queue (R324). -/
def State.nextAtHead (s : State) (k : Nat) : Option State :=
  let q := s.queue k
  if q.cur = none ∧ q.head < q.tail then
    match s.fetchBytes (k / 256) (q.ring + 64 * (q.head % q.size)) 64 with
    | (.error f, t) => if f = .cut then none else some (t.haltQueue k rsRing)
    | (.ok e, t) =>
      if t.headTurn k q.head e then
        t.withEntry (k / 256) e q.failed fun t =>
          let u := t.takeEntry k q.head e none q.failed
          (u.goOn k t.nextLaunch).getD u
      else none
  else none

/-- A launch was killed; a launch is an entry of a route call. -/
def State.wasKilled (s : State) (lid : Nat) : Bool := match s.launch? lid with
  | some l => l.killed || l.phase == .killing
  | none => false
def State.isCalled (s : State) (lid : Nat) : Bool := match s.launch? lid with
  | some l => l.call.isSome
  | none => false

/-- What a queue issues next: its re-runs before any later launch (R338), then launches that wait, then the next entries of its replays, then the entry at HEAD. A queue that fetches nothing, disabled or halted, goes on with what has issued: re-runs, and the entries of its calls (R296, R324); while its partition's activation waits, only what was killed issues again (R220). -/
def State.issueNext (s : State) (k : Nat) : Option State :=
  let fetch := s.queueRuns k
  let act := (s.part (k / 256)).activating
  let again := (s.waitingOf k true).filter fun lid => !act || s.wasKilled lid
  let first := (s.waitingOf k false).filter fun lid => fetch || (!act && s.isCalled lid)
  match again with
  | lid :: _ => firstStep (s.goOn k) (first.filter (· < lid) ++ [lid])
  | [] =>
    (firstStep (s.goOn k) first).orElse fun _ =>
      if s.frontRoom (k / 256) && !act then
        (firstStep (s.nextOfReplay k) (s.replaysOf k)).orElse fun _ => if fetch then s.nextAtHead k else none
      else none

/-- A queue has something to issue. -/
def State.issuable (s : State) (k : Nat) : Bool := s.queueLives k && (s.issueNext k).isSome

/-- A queue's place in the round-robin order of a front end: by queue number, and among the partitions of one number by theirs (log entry 84). -/
def issuePlace (k : Nat) : Nat := k % 256 * 64 + k / 256

/-- The queue that the front end of a partition takes next (R317): of its real-time queues with something to issue, and if there is none of the others, the first in order after the one that issued last. -/
def State.issueTurn (s : State) (p : Nat) : Option Nat :=
  let d := s.leadDie p
  let able := (tkeys s.queues).filter fun k => s.leadDie (k / 256) == d && s.issuable k
  let rt := able.filter fun k => qcRt (s.queue k).cfg
  let from_ (last : Nat) (ks : List Nat) : Option Nat := argmin (fun k => (issuePlace k + 16383 - last) % 16384) ks
  if rt = [] then from_ (s.die d).issueOther able else from_ (s.die d).issueRt rt

/-- A queue has had its turn. -/
def State.tookTurn (s : State) (k : Nat) : State :=
  s.modDie (s.leadDie (k / 256)) fun x => if qcRt (s.queue k).cfg then { x with issueRt := issuePlace k } else { x with issueOther := issuePlace k }

/-- LAUNCH_ISSUE (R302, R317): the queue whose turn it is issues. -/
def execLaunchIssue (part q : Nat) (s : State) : Host.Outcome State Fault Refusal :=
  withUnit (okQueue part q) (
    let k := qkey part q
    if s.issueTurn part = some k then (((s.issueNext k).getD s).tookTurn k).noteWants part else s)

/-! Event waits. -/

/-- The launch is an event wait that runs. -/
def State.waits (s : State) (lid : Nat) : Option Launch :=
  match s.launch? lid with
  | some l => if eType l.entry = tyWait ∧ l.phase = .running then some l else none
  | none => none

/-- EVENT_WAIT_EVALUATE (R311): a write has been performed on the armed line. -/
def execEventWaitEvaluate (launch : Nat) (s : State) : Host.Outcome State Fault Refusal :=
  .next (match s.waits launch with
    | some l => if l.armed && l.touched then s.evalWait launch else s
    | none => s)

/-- EVENT_WAIT_TIMEOUT (R311): a write of the same ns is evaluated first. -/
def execEventWaitTimeout (launch : Nat) (s : State) : Host.Outcome State Fault Refusal :=
  .next (match s.waits launch with
    | some l =>
      if eWaitLimit l.entry ≠ 0 ∧ l.issueGt + eWaitLimit l.entry ≤ s.now then
        let t := if l.armed && l.touched then s.evalWait launch else s
        match t.waits launch with
        | some _ => t.finish launch (some (t.feFail l stTimeout 0))
        | none => t
      else s
    | none => s)

/-- WATCH_SLOT_POLL (R312): a wait without a slot arms one that has become free, or reads its word again after 2 µs. -/
def execWatchSlotPoll (launch : Nat) (s : State) : Host.Outcome State Fault Refusal :=
  .next (match s.waits launch with
    | some l =>
      if l.armed || !s.wordSeen l then s
      else if s.slotFree (s.leadDie l.part) then (s.modLaunch launch fun x => { x with armed := true }).evalWait launch
      else if l.polled + 2000 ≤ s.now then s.evalWait launch
      else s
    | none => s)

/-! Limits. -/

/-- SEM_ACQUIRE_TIMEOUT (R313). -/
def execSemAcquireTimeout (launch : Nat) (s : State) : Host.Outcome State Fault Refusal :=
  .next (match s.launch? launch with
    | some l =>
      if eType l.entry = tySem ∧ l.phase = .acquiring ∧ eSemLimit l.entry ≠ 0 ∧ l.waitGt + eSemLimit l.entry ≤ s.now then
        (s.finish launch (some (s.feFail l stSem 0))).semQuit l.part launch
      else s
    | none => s)

/-- SEMA_SLIMIT_TIMEOUT (R314). -/
def execSemaSlimitTimeout (launch : Nat) (s : State) : Host.Outcome State Fault Refusal :=
  .next (match s.launch? launch with
    | some l =>
      if l.isWork = true ∧ l.phase = .acquiring ∧ l.ext ≠ [] ∧ xSlimit l.ext ≠ 0 ∧ l.waitGt + xSlimit l.ext ≤ s.now then
        ((s.finish launch (some (s.feFail l stSem 0))).semQuit l.part launch).advance launch
      else s
    | none => s)

/-- LAUNCH_TLIMIT_TIMEOUT (R300, R338, R347): the limit counts from issue, without the time between a kill and its re-issue, and no longer once a commit has begun. -/
def execLaunchTlimitTimeout (launch : Nat) (s : State) : Host.Outcome State Fault Refusal :=
  .next (match s.launch? launch with
    | some l =>
      if l.isWork = true ∧ l.phase = .running ∧ l.ext ≠ [] ∧ xTlimit l.ext ≠ 0 ∧ l.issueGt + l.paused + xTlimit l.ext ≤ s.now then
        s.failLaunch launch (s.feFail l stTimeout 0)
      else s
    | none => s)

end Sys2Proof.Machine
end

