-- ==== Sys2Proof/Machine/Complete.lean ====
section
/-! DEFINITION. Completion (R305, R306, R303, R314, R357), route calls that end and versions that are freed (R321, R322). -/

namespace Sys2Proof.Machine

/-- A completion record (R306). -/
def Launch.record (l : Launch) (now : Nat) : List Byte :=
  let f : Failure := l.fail.getD { status := stOk }
  let ridx := match l.replay with
    | some r => (r.first.map (·.1)).getD 0
    | none => 0
  leBytes 8 (l.seq % 2 ^ 48 + f.status.toNat * 2 ^ 48 + (if l.killed then 2 ^ 56 else 0) + (if l.rt then 2 ^ 57 else 0)) ++
  leBytes 4 (eTag l.entry) ++ [f.cause, f.reason] ++ leBytes 2 f.engine ++ leBytes 4 ridx ++ leBytes 4 0 ++ leBytes 8 now

/-- DONE passes every completed sequence that has no lower one outstanding (R305). -/
def Queue.passDone (q : Queue) : Nat → Queue
  | 0 => q
  | n + 1 => if q.early.contains q.done then ({ q with done := q.done + 1, early := q.early.filter (· != q.done) } : Queue).passDone n else q

/-- A sequence has completed. -/
def Queue.complete (q : Queue) (seq : Nat) : Queue :=
  let r : Queue := { q with early := sins q.early seq }
  r.passDone r.early.length

/-- The failed state after a launch that ended (R303). -/
def failedAfter (old : Bool) (ok nodep : Bool) : Bool := if ok then old && !nodep else true

/-- Free the versions of a partition's routes that are not live (R321). -/
def State.freeVersions (s : State) (p : Nat) : State :=
  s.modPart p fun y => { y with vers := y.vers.filter fun v =>
    let r := tget {} y.routes v.route
    (r.live && r.ver == v.ver) || s.launches.any fun e => e.2.part == p && (match e.2.replay with
      | some x => x.route == v.route && x.ver == v.ver
      | none => false) }

/-- An entry of a replay has completed: its status enters the call's, and the replay's own failed state follows R303. -/
def Replay.entryDone (r : Replay) (lid idx : Nat) (f : Option Failure) (nodep : Bool) : Replay :=
  { r with
    live := r.live.filter (· != lid)
    failed := failedAfter r.failed f.isNone nodep
    first := match f, r.first with
      | none, x => x
      | some y, none => some (idx, y)
      | some y, some x => if idx < x.1 then some (idx, y) else some x }

/-- The commit engine forgets a launch. -/
def State.freeContext (s : State) (lid : Nat) : State :=
  { s with dies := (s.dies.map fun e => (e.1, { e.2 with contexts := e.2.contexts.filter (· != lid) })).filter fun e => e.2 != {} }

/-- What a launch leaves behind when it ends: cores, engines, semaphores, channels, its context, its preload slot and its commit region. In a partition reset its remote reads keep their slots until they are answered (R492). -/
def State.release (s : State) (lid : Nat) (l : Launch) : State :=
  let ok := l.fail.isNone
  let t := if ok then s.purgeCopy lid false else if (s.part l.part).reset = 0 then s.purgeLaunch lid false else s.stopLaunch lid false
  let u := t.semQuit l.part lid
  let v := if ok then u else u.semReturn l.part lid
  ((((v.freeItems l.part lid).endProducer l.part lid ok).freeContext lid).freePreload lid l).freeRegion l.cqBase

/-- What a completed launch changes in its queue: DONE, the failed state, and the job count (R303, R305, R357). -/
def Queue.account (q : Queue) (l : Launch) : Queue :=
  let r : Queue := { q with jobs := if l.isWork then (q.jobs + 1) % 2 ^ 64 else q.jobs }
  match l.call with
  | none => ({ r with failed := failedAfter r.failed l.fail.isNone (eNodep l.entry) } : Queue).complete l.seq
  | some _ => r

/-- The links that carried the launch's messages record its END (R499). -/
def State.endOnLinks (s : State) (lid : Nat) (l : Launch) : State :=
  ((upTo 48).filter fun n => (s.link n).begun.contains lid).foldl (fun t n =>
    (t.traceLaunch (engLink n) tyEnd l l.status).modLink n fun x => { x with begun := x.begun.filter (· != lid) }) s

/-- Complete a launch (R305): the record at system scope, DONE, the interrupt. A record that cannot be written halts the queue, or is dropped during a partition reset (R324, R492). -/
def State.complete (s : State) (lid : Nat) : State :=
  match s.launch? lid with
  | none => s
  | some l =>
    let t := s.release lid l
    let q := t.queue l.qk
    let u := match l.call with
      | some (c, idx) => t.modLaunch c fun x => { x with replay := x.replay.map fun (r : Replay) => r.entryDone lid idx l.fail (eNodep l.entry) }
      | none =>
        let w := t.storeBytes l.part (q.cpl + 32 * (l.seq % q.size)) (l.record t.now) true
        if w.1 || (t.part l.part).reset != 0 then w.2 else w.2.haltQueue l.qk rsRing
    let v := (u.modQueue l.qk fun q => q.account l).delLaunch lid
    let v := if eIrq l.entry then v.irq (v.vfOf l.part) (l.queue % 48) else v
    let v := (v.endOnLinks lid l).traceLaunch (engFe (v.leadDie l.part)) tyEnd l l.status
    let v := if l.replay.isSome then v.freeVersions l.part else v
    let v := match l.call with
      | some (c, _) => v.callDone c
      | none => v
    v.noteWants l.part

/-- Every entry of the commit queue has been acknowledged or refused. -/
def Launch.cqDone (l : Launch) : Bool := l.cq.all fun e => e.st == .done || e.st == .refused

/-- A launch may complete: it has ended, it has failed and nothing defers its end, or its commit is through (R305, R348). A failure met in settle ends the launch there (R349). -/
def Launch.over (l : Launch) : Bool :=
  l.hung == 0 &&
  match l.phase with
  | .ended => true
  | .performing => l.cqDone
  | .killing | .settling => false
  | _ => l.fail.isSome

/-- No way round the ring leads to where the launch's record goes: its completion waits (R25; log entry 77). -/
def State.recordCut (s : State) (l : Launch) : Bool :=
  l.call.isNone && s.storeCut l.part ((s.queue l.qk).cpl + 32 * (l.seq % (s.queue l.qk).size)) 32

/-- LAUNCH_COMPLETE (R305). Launches that a partition reset ends write their records in its step 3 (R492). -/
def execLaunchComplete (launch : Nat) (s : State) : Host.Outcome State Fault Refusal :=
  .next (match s.launch? launch with
    | some l => if l.over && !(decide (2 ≤ (s.part l.part).reset)) && !(s.recordCut l) then s.complete launch else s
    | none => s)

end Sys2Proof.Machine
end

