-- ==== Sys2Proof/Machine/Commit.lean ====
section
/-! DEFINITION. Commit (R347 to R353): contexts, seal and settle, perform, refused and unconfirmed entries, and the comparison of paired runs (R427). -/

namespace Sys2Proof.Machine

/-! Contexts (R347). -/

/-- The launch's blocks hold no matrix unit with work left. -/
def State.mxIdle (s : State) (lid : Nat) : Bool :=
  s.cores.all fun e => match e.2.mx.owner with
    | some o => !(e.2.slotsFor lid).contains o || (e.2.mx.queue == [] && e.2.mx.fills == [] && e.2.mx.nest == none)
    | none => true

/-- The launch can begin to commit, but for a context. -/
def State.readyToCommit (s : State) (lid : Nat) (l : Launch) : Bool :=
  l.isWork && l.phase == .running && l.fail.isNone && l.ready != 0 && l.workDone && l.hung == 0 && s.mxIdle lid && s.partUp l.part

/-- A context goes to the launch that became ready first; from then on it cannot be killed. -/
def State.takeContext (s : State) (d : Nat) : State :=
  if (s.die d).contexts.length < 8 then
    let cands := s.launches.filter fun e => s.leadDie e.2.part == d && s.readyToCommit e.1 e.2
    match argmin (fun e => e.2.ready * 2 ^ 64 + e.1) cands with
    | none => s
    | some (lid, l) =>
      ((s.modDie d fun x => { x with contexts := x.contexts ++ [lid] }).setLaunch lid
        { l with phase := .settling, ctxGt := s.now, closed := true, progGt := s.now }).traceLaunch (engFe d) tyCommit l 0
  else s

/-- COMMIT_CONTEXT_TAKE (R347, R348). -/
def execCommitContextTake (die : Nat) (s : State) : Host.Outcome State Fault Refusal :=
  withUnit (okDie die) (s.takeContext die)

/-! Settle (R348, R349). -/

/-- A core holds writes of a launch that are not performed. -/
def Core.owes (c : Core) (lid : Nat) : Bool :=
  (c.sbufs.any fun b => b.2.any fun x => x.launch == lid) || (c.art.any fun x => x.2.launch == lid && x.2.isWrite) ||
  (c.mx.drains.any fun x => x.2.launch == lid) || c.creqs.any fun x => x.2.launch == lid

/-- Every write of the launch outside its commit queue has been performed at system scope (R246); one that was lost with its core never is. -/
def State.settled (s : State) (lid : Nat) (l : Launch) : Bool :=
  !l.lostWrite &&
  (s.cores.all fun e => !e.2.owes lid) &&
  (s.dies.all fun e => !(e.2.tracks.any fun r => r.2.launch == lid && r.2.kind != 2)) &&
  l.finals == [] && l.owed == [] &&
  (match l.copy with
   | some c => c.out == []
   | none => true)

/-- The payload of a PAIR_MISMATCH record: both digests and the core sets of each run (R427). -/
def State.pairPayload (s : State) (l : Launch) (q : Pair) : List Byte :=
  let sets := s.chartSets l.part l.stage
  let h := (sets.length + 1) / 2
  let mask (xs : List Nat) : Nat := xs.foldl (fun a k => a + 2 ^ k) 0
  (leBytes 8 q.aA.toNat ++ leBytes 8 q.aB.toNat ++ leBytes 8 q.bA.toNat ++ leBytes 8 q.bB.toNat) ++
  leBytes 8 (mask (sets.take h)) ++ leBytes 8 (mask (sets.drop h))

/-- The digests of a paired launch's runs differ (R427). -/
def Launch.differs (l : Launch) : Bool :=
  match l.pair with
  | some q => q.aA != q.bA || q.aB != q.bB
  | none => false

/-- When a mismatch is detected: as settle begins, when both runs have ended, or as a later record is folded; the spec gives a bound and no moment: DESIGN CHOICE (log entry 100). -/
def Launch.pairGt (l : Launch) : Nat :=
  match l.pair with
  | some q => max l.ctxGt q.gt
  | none => l.ctxGt

/-- What settle finds: of a write lost with its channel, the failures found before, and a mismatch of the digests, the one that R23 reports (R64, R349, R417, R427). -/
def State.settleFailure (s : State) (l : Launch) : Option Failure :=
  let fs := l.found.toList ++ (if l.differs then [{ s.mkFail stPair (engFe (s.leadDie l.part)) with gt := l.pairGt }] else [])
  fs.foldl (fun a f => some (worst a f)) l.fail

/-- A failure found in settle ends the commit with no entry performed. -/
def State.settleFails (s : State) (lid : Nat) (l : Launch) (f : Failure) : State :=
  let t := match l.pair with
    | some q => if l.differs then s.logRaise sevAlert (some l.part) (engFe (s.leadDie l.part)) 0x51 (s.pairPayload l q) else s
    | none => s
  t.finish lid (some f)

/-- Settle ends: with a failure as soon as one is found, or with perform once every write is performed. -/
def State.endSettle (s : State) (lid : Nat) : State :=
  match s.launch? lid with
  | none => s
  | some l =>
    if l.phase = .settling then
      match s.settleFailure l with
      | some f => s.settleFails lid l f
      | none => if s.settled lid l then s.setLaunch lid { l with phase := .performing, performGt := s.now } else s
    else s

/-- COMMIT_SETTLE_END (R348, R349, R427). -/
def execCommitSettleEnd (launch : Nat) (s : State) : Host.Outcome State Fault Refusal := .next (s.endSettle launch)

/-- The settle limit, 151 µs after the context was taken: a write that is not performed by then fails the launch with TIMEOUT, unless settle found a failure before; a launch that lacks none goes on to perform (R23, R348, R349). -/
def State.limitSettle (s : State) (lid : Nat) : State :=
  match s.launch? lid with
  | none => s
  | some l =>
    if l.phase = .settling ∧ l.ctxGt + 151000 ≤ s.now then
      if s.settled lid l then s.endSettle lid
      else s.settleFails lid l (worst (s.settleFailure l) { s.feFail l stTimeout 0 with gt := l.ctxGt + 151000 })
    else s

/-- SETTLE_LIMIT_EXPIRY (R348, R349). -/
def execSettleLimitExpiry (launch : Nat) (s : State) : Host.Outcome State Fault Refusal := .next (s.limitSettle launch)

/-! Perform (R350, R351). -/

/-- An entry is refused or unconfirmed: it is counted and logged, once (R351). -/
def State.cqRefused (s : State) (lid i : Nat) : State :=
  match s.launch? lid with
  | none => s
  | some l =>
    match l.cq[i]? with
    | none => s
    | some e =>
      if e.st = .waiting ∨ e.st = .sent then
        ((s.markCq lid i .refused).countReg (partCmtUnc l.part) 1).logRaise sevAlert (some l.part) (engFe (s.leadDie l.part)) 0x50
          (e.bytes e.origin ++ leBytes 4 l.queue ++ leBytes 8 l.seq)
      else s

/-- A request is refused: a commit entry as R351 says, any other as its source has it. -/
def State.refuseReq (s : State) (r : RReq) : State :=
  if r.kind = 2 then (if s.runLives r then s.cqRefused r.launch r.load else s) else s.refuse r

/-- Mark a local entry sent; one whose destination did not take it waits for that answer. -/
def State.sentLocal (s : State) (lid i : Nat) (ok : Bool) : State :=
  s.modLaunch lid fun l => { l with cq := l.cq.modify i fun e => { e with st := .sent, poison := !ok } }

/-- Where a posted atomic of a commit queue acts: the place of its word in this module, by its VA or by a remote address that names the module itself (R264), or else the remote address; and its width. -/
def State.cqPlace (s : State) (p : Nat) (e : CqEntry) : Target × Nat :=
  let n := if e.width % 2 = 1 then 8 else 4
  let at_ (q va : Nat) (other : Target) : Target := match s.translNow q va .write with
    | .ok tr => tr.tgt
    | .error _ => other
  if e.kind = ckGlobal then (at_ p e.addr (.remote (2 ^ 64 + e.addr)), n)
  else if rgaDev e.addr = s.ownId then (at_ (rgaPart e.addr) (rgaVa e.addr) (.remote e.addr), n)
  else (.remote e.addr, n)

/-- Two posted atomics act on common bytes. -/
def State.cqMeet (s : State) (p : Nat) (x e : CqEntry) : Bool :=
  let key (t : Target) : Nat × Nat := match t with
    | .hbm a => (0, a)
    | .host _ _ a => (1, a)
    | .remote a => (2, a)
  let a := s.cqPlace p x
  let b := s.cqPlace p e
  (key a.1).1 == (key b.1).1 && overlaps (key a.1).2 a.2 (key b.1).2 b.2

/-- An entry may be sent now (R350): an ev.rec or sem.rel after every earlier entry is settled; a posted atomic after every earlier one to its word is settled, or is performed, as a local one is when it is sent. -/
def State.maySend (s : State) (l : Launch) (i : Nat) (e : CqEntry) : Bool :=
  let settled (x : CqEntry) : Bool := x.st == .done || x.st == .refused
  if e.kind = ckEvent ∨ e.kind = ckSem then (l.cq.take i).all settled
  else if e.kind = ckRemote ∨ e.kind = ckGlobal then
    (l.cq.take i).all fun x => (x.kind != ckRemote && x.kind != ckGlobal) || settled x || (x.kind == ckGlobal && x.st == .sent) || !s.cqMeet l.part x e
  else true

/-- Send a remote entry; none where it finds no tracking entry. -/
def State.sendRemoteEntry (s : State) (lid i : Nat) (l : Launch) (e : CqEntry) : Option State :=
  let d := s.leadDie l.part
  if s.hasSlots d 1 false && s.roomFor d (rgaDev e.addr) 1 then
    let m :=
      if e.kind = ckFinal then s.request mWrf 0 l.part l.run e.addr 0 (slice e.data 0 (2 ^ e.width))
      else s.request mAtom 0 l.part l.run e.addr (e.op + (if e.width % 2 = 1 then 32 else 0)) (slice e.data 0 (if e.width % 2 = 1 then 8 else 4))
    let r : RReq := { part := l.part, epoch := m.epoch, launch := lid, run := l.run, core := 0, load := i, dst := m.dst, gt := s.now, kind := 2, msg := m }
    let t := s.markCq lid i .sent
    let u := t.sendReq d r false
    some (if u.1 then u.2 else u.2.cqRefused lid i)
  else none

/-- Perform a local entry at system scope (R246, R310, R313), from the front end on the partition's lead die: none while no way round the ring leads to its word (R25 to R27; log entry 77), or while the array is to give it (R415). -/
def State.sendLocalEntry (s : State) (lid i : Nat) (l : Launch) (e : CqEntry) : Option State :=
  if e.kind = ckGlobal then
    let n := if e.width % 2 = 1 then 8 else 4
    match s.transl l.part e.addr .write with
    | (.error f, t) => if f = .cut then none else some (t.sentLocal lid i false)
    | (.ok tr, t) =>
      if !t.dieSees (s.leadDie l.part) tr.tgt then none
      else if t.poisonedAt tr.tgt n then some (t.sentLocal lid i false)
      else t.onceHere l.part [(tr.tgt, n)] fun t => ((t.atomicAt l.part tr.tgt n e.op (leNat (slice e.data 0 n)) 0).2).sentLocal lid i true
  else if e.kind = ckEvent then
    match s.eventWord l.part e.addr with
    | (.error f, t) => if f = .cut then none else some (t.sentLocal lid i false)
    | (.ok a, t) =>
      if t.poisoned a 8 then some (t.sentLocal lid i false)
      else t.onceHere l.part [(.hbm a, 8)] fun t => (t.eventMax l.part a (leNat (slice e.data 0 8) % 2 ^ 63)).sentLocal lid i true
  else some ((s.semRelease l.part e.addr (leNat (slice e.data 0 4))).sentLocal lid i true)

/-- Send the oldest entry that has not been sent, if it may go. -/
def State.sendOf (s : State) (lid : Nat) : Option State :=
  match s.launch? lid with
  | none => none
  | some l =>
    if l.phase = .performing then
      match l.cq.findIdx? fun e => e.st == .waiting with
      | none => none
      | some i =>
        match l.cq[i]? with
        | none => none
        | some e =>
          if e.poison then some (s.cqRefused lid i)
          else if s.maySend l i e then
            (if e.kind = ckFinal ∨ e.kind = ckRemote then s.sendRemoteEntry lid i l e else s.sendLocalEntry lid i l e)
          else none
    else none

/-- A launch has sent an entry: those before it in turn, and it, come after the others. -/
def Die.served (x : Die) (lid : Nat) : Die :=
  let n := x.contexts.idxOf lid + 1
  { x with contexts := x.contexts.drop n ++ x.contexts.take n }

/-- The commit engine sends one entry, serving the launches in perform round-robin: the contexts stand in the order of their turns (R350). -/
def State.sendEntry (s : State) (d : Nat) : State :=
  (firstStep (fun lid => (s.sendOf lid).map fun t => t.modDie d fun x => x.served lid) (s.die d).contexts).getD s

/-- COMMIT_ENTRY_SEND (R350). -/
def execCommitEntrySend (die : Nat) (s : State) : Host.Outcome State Fault Refusal :=
  withUnit (okDie die) (s.sendEntry die)

/-- The home slice or the front end answers a local entry: performed, or refused. -/
def State.ackEntry (s : State) (lid i : Nat) (ok : Bool) : State :=
  match s.launch? lid with
  | none => s
  | some l =>
    match l.cq[i]? with
    | none => s
    | some e =>
      if l.phase = .performing ∧ e.st = .sent ∧ e.kind ≠ ckFinal ∧ e.kind ≠ ckRemote ∧ ok = !e.poison then
        (if ok then s.markCq lid i .done else s.cqRefused lid i)
      else s

/-- COMMIT_ENTRY_ACK (R350, R351): of a local entry; a remote one is answered by its message. -/
def execCommitEntryAck (launch idx : Nat) (ok : Bool) (s : State) : Host.Outcome State Fault Refusal :=
  .next (s.ackEntry launch idx ok)

/-- COMMIT_PERFORM_LIMIT: 200 µs after the context was taken, what is not settled is unconfirmed, and what is not sent never is (R348, R351). -/
def execCommitPerformLimit (launch : Nat) (s : State) : Host.Outcome State Fault Refusal :=
  .next (match s.launch? launch with
    | some l =>
      if l.phase = .performing ∧ l.ctxGt + 200000 ≤ s.now then (upTo l.cq.length).foldl (fun t i => t.cqRefused launch i) s else s
    | none => s)

end Sys2Proof.Machine
end

