-- ==== Sys2Proof/Machine/Router.lean ====
section
/-! DEFINITION. What a link router makes and refuses: answers and control messages, records of multicast messages (R379), requests that end (R364, R499), refusals (R363, R368, R375, R394, R494) and link states (R375). -/

namespace Sys2Proof.Machine

/-! Messages that a router makes and refuses. -/

/-- A control message on VC3. -/
def State.control (s : State) (typ dst aux : Nat) (data : List Byte) : Msg :=
  { typ := typ, vc := 3, cls := 0, trapx := false, dst := dst, src := s.ownId, va := 0, part := 0, spart := 0, epoch := 0, tag := 0, run := 0,
    domain := 0, aux := BitVec.ofNat 64 aux, data := data }

/-- The answer to a message: it echoes what identifies the request (R367, R368). -/
def State.answerTo (s : State) (m : Msg) (typ aux : Nat) (data : List Byte) : Msg :=
  { m with typ := typ, vc := 1, cls := 0, trapx := false, dst := m.src, src := s.ownId, aux := BitVec.ofNat 64 aux, data := data }

/-- The record of a multicast message at the router of die `d` that awaits its branches (R379). -/
def State.mcFind (s : State) (d tag src : Nat) : Option (Nat × McRec) :=
  (s.die d).mcast.find? fun r => r.2.tag == tag && r.2.src.src == src

/-- A record with one branch answered. -/
def McRec.less (r : McRec) (bad : Option Nat) : McRec := { r with left := r.left - 1, bad := r.bad.orElse fun _ => bad }

/-- A multicast record is free: groups that wait at a router of the module, and final writes that are held, try again (R78, R371, R379). -/
def State.wakeRouters (s : State) : State := ((upTo 4).foldl (fun t d => t.wakeRemote d) s).flushAll

/-- A branch of the router that the message entered has answered; the last one gives the single answer upstream. -/
def State.mcTop (s : State) (d key : Nat) (r : McRec) (bad : Option Nat) : State :=
  let q := r.less bad
  if q.left = 0 then
    let a := match q.bad with
      | none => s.answerTo q.src mAck 0 []
      | some n => s.answerTo q.src mNack n []
    let t := (s.modDie d fun x => { x with mcast := tdel x.mcast key }).wakeRouters
    match q.up with
    | some n => t.queueMsg n a
    | none => t.modDie d fun x => { x with loop := x.loop ++ [a] }
  else s.modDie d fun x => { x with mcast := tset x.mcast key q }

/-- A branch has answered; the last one of a router that was handed its copy across the ring answers the router that handed it. -/
def State.mcAnswer (s : State) (d key : Nat) (r : McRec) (bad : Option Nat) : State :=
  match r.ring with
  | none => s.mcTop d key r bad
  | some (e, k) =>
    let q := r.less bad
    if q.left = 0 then
      let t := (s.modDie d fun x => { x with mcast := tdel x.mcast key }).wakeRouters
      match tfind (t.die e).mcast k with
      | some u => t.mcTop e k u q.bad
      | none => t
    else s.modDie d fun x => { x with mcast := tset x.mcast key q }

/-- Send a message from the router of die `d`; one without a path is dropped. -/
def State.post (s : State) (d : Nat) (m : Msg) : State := (s.inject d m none).getD s

/-- A launch sends no more remote messages: it commits, and what it has deferred for other modules is sent. -/
def Launch.allSent (l : Launch) : Bool :=
  l.committing && l.finals == [] && l.cq.all fun e => e.st != .waiting || (e.kind != ckFinal && e.kind != ckRemote)

/-- The last message of a launch on a link has been acknowledged or refused: the link's END (R499). Where the launch might send another, that shows only once it can send none, or completes: DESIGN CHOICE (log entry 96). -/
def State.lastAnswer (s : State) (r : RReq) : State :=
  match r.link, s.launch? r.launch with
  | some n, some l =>
    if (s.link n).begun.contains r.launch && l.allSent &&
        !(s.dies.any fun e => (e.2.reads.any fun x => x.2.launch == r.launch && x.2.link == some n) || e.2.tracks.any fun x => x.2.launch == r.launch && x.2.link == some n) then
      (s.traceLaunch (engLink n) tyEnd l l.status).modLink n fun x => { x with begun := x.begun.filter (· != r.launch) }
    else s
  | _, _ => s

/-- A request has its answer: its slot is free. -/
def State.closeReq (s : State) (d tag : Nat) (r : RReq) : State := (s.dropReq d tag).lastAnswer r

/-- A request is refused by a router: at its source if that is this module, else by a NACK; an answer or a control message is lost (R363, R375). -/
def State.refuseMsg (s : State) (d : Nat) (m : Msg) (reason : Nat) : State :=
  if 5 < m.typ then s
  else match (if isGroupId m.dst then s.mcFind d m.tag m.src else none) with
    | some (k, r) => s.mcAnswer d k r (some reason)
    | none =>
      if m.src = s.ownId then
        match s.reqOf m with
        | some (e, r) => ((s.closeReq e m.tag r).refuseReq r).flushAll
        | none => s
      else s.post d (s.answerTo m mNack reason [])

/-- A router has no candidate for a message (R375). -/
def State.noRoute (s : State) (n : Nat) (m : Msg) : State := (s.countReg (lnkCnt n 6) 1).refuseMsg (dieOfLink n) m nkNoroute

/-- A message of an unacknowledged flit is lost (R363). -/
def State.loseMsg (s : State) (n : Nat) (m : Msg) : State := (s.countReg (lnkCnt n 7) 1).refuseMsg (dieOfLink n) m nkLost

/-- A request of this module of an old epoch of its partition (R494). -/
def State.stale (s : State) (m : Msg) : Bool := m.src == s.ownId && decide (m.typ ≤ 5) && m.epoch != s.epochOf m.spart

/-- Send a message of a router on by another of its links, in the class that it has: it stays in the router (R37), a group's copy in its direction; with no other link it is refused NOROUTE (R395). One of an old epoch is not sent again (R494). -/
def State.reroute (s : State) (n : Nat) (m : Msg) : State :=
  let d := dieOfLink n
  if s.stale m then s.refuseMsg d m nkEpoch else
  let cs :=
    if isGroupId m.dst then
      match s.groupEntry m.dst with
      | some (mask, _) => (s.candidates d mask).filter fun k => (s.chart.routes.linkDirs k).any (s.chart.routes.linkDirs n).contains
      | none => []
    else match s.chart.routes.mask s.ownId m.dst with
      | some (mask, _) => s.candidates d mask
      | none => []
  match s.pickLink m cs with
  | some k => s.queueMsg k m
  | none => s.noRoute n m

/-- The directions in which the router of a die has an UP link (R375). -/
def State.upDirs (s : State) (d : Nat) : Nat :=
  (upTo 12).foldl (fun a i => if s.candidates d (s.chart.routes.dirlinks.getD i 0) != [] then a + 2 ^ i else a) 0

/-- The kinds of link-state message (log entry 42). -/
def lkNotify : Nat := 0
def lkQuery : Nat := 1
def lkAnswer : Nat := 2

/-- A router tells its peers of its links (R375). -/
def State.notifyPeers (s : State) (d : Nat) : State :=
  ((upTo 12).map (12 * d + ·)).foldl (fun t n =>
    if s.linkUp n && !s.linkEth n then t.queueMsg n (s.control mLstate (s.fld (lnkPeer n) 0 16) (lkNotify + s.upDirs d * 4) []) else t) s

end Sys2Proof.Machine
end

