-- ==== Sys2Proof/Machine/Routes.lean ====
section
/-! DEFINITION. Routes: record, patch, delete and their completion (R318 to R321). -/

namespace Sys2Proof.Machine

def rrFetch : Nat := 1
def rrEntry : Nat := 2
def rrNospace : Nat := 3
def rrVersions : Nat := 4
def rrNoroute : Nat := 5
def rrRange : Nat := 6

/-- An entry that a route cannot hold: a route call, or one that breaks a rule that the entry alone decides (R320). -/
def routeEntryBad (e : List Byte) : Bool := eType e == tyCall || entryErrs e != []

/-- COUNT of VF_RCNT, in range (R319). -/
def State.routeCount (s : State) (vf : Nat) : Option Nat :=
  let n := s.fld (vfKey vf vfRcnt) 0 13
  if 1 ≤ n ∧ n ≤ 4096 then some n else none

/-- Read the source entries: the result code, or the entries. -/
def State.routeSource (s : State) (p vf n : Nat) : Except Nat (List (List Byte)) × State :=
  let va := s.reg64 (vfKey vf vfRsrc)
  if va % 64 ≠ 0 then (.error rrFetch, s)
  else match s.fetchBytes p va (64 * n) with
    | (.error _, t) => (.error rrFetch, t)
    | (.ok bs, t) =>
      let es := (upTo n).map fun i => slice bs (64 * i) 64
      if es.any routeEntryBad then (.error rrEntry, t) else (.ok es, t)

/-- A route command begins, unless one is running: BUSY sets, or CMDLOST (R319). -/
def State.routeCommand (s : State) (vf : Nat) (run : Nat → State → RouteCmd × State) : State :=
  match s.vfPart vf with
  | none => s
  | some p =>
    if (s.part p).rcmd.isSome then s.setBit (vfKey vf vfRstat) 16 true
    else
      let r := run p s
      (r.2.modPart p fun y => { y with rcmd := some r.1 }).setBit (vfKey vf vfRstat) 0 true

/-- What a record stores. -/
def State.recordCmd (vf route : Nat) (p : Nat) (s : State) : RouteCmd × State :=
  match s.routeCount vf with
  | none => ({ op := 1, route := route, result := rrRange }, s)
  | some n =>
    match s.routeSource p vf n with
    | (.error c, t) => ({ op := 1, route := route, result := c }, t)
    | (.ok es, t) => ({ op := 1, route := route, result := 0, entries := es }, t)

/-- ROUTE_RECORD (R320). -/
def execRouteRecord (vf route : Nat) (s : State) : Host.Outcome State Fault Refusal :=
  withUnit (okVf vf) (s.vfStores vf fun s => s.routeCommand vf (State.recordCmd vf (route % 256)))

/-- What a patch stores. -/
def State.patchCmd (vf route index : Nat) (p : Nat) (s : State) : RouteCmd × State :=
  let bad (c : Nat) : RouteCmd := { op := 2, route := route, result := c }
  let r := tget {} (s.part p).routes route
  if r.live then
    let old := s.version p route r.ver
    match s.routeCount vf with
    | none => (bad rrRange, s)
    | some n =>
      if old.length < index + n then (bad rrRange, s)
      else match s.routeSource p vf n with
        | (.error c, t) => (bad c, t)
        | (.ok es, t) => ({ op := 2, route := route, result := 0, entries := old.take index ++ es ++ old.drop (index + n) }, t)
  else (bad rrNoroute, s)

/-- ROUTE_PATCH (R320). -/
def execRoutePatch (vf route index : Nat) (s : State) : Host.Outcome State Fault Refusal :=
  withUnit (okVf vf) (s.vfStores vf fun s => s.routeCommand vf (State.patchCmd vf (route % 256) (index % 4096)))

/-- What a delete finds. -/
def State.deleteCmd (route : Nat) (p : Nat) (s : State) : RouteCmd × State :=
  ({ op := 3, route := route, result := if (tget {} (s.part p).routes route).live then 0 else rrNoroute }, s)

/-- ROUTE_DELETE (R320). -/
def execRouteDelete (vf route : Nat) (s : State) : Host.Outcome State Fault Refusal :=
  withUnit (okVf vf) (s.vfStores vf fun s => s.routeCommand vf (State.deleteCmd (route % 256)))

/-- Versions of a route that running replays are bound to. -/
def State.boundVersions (s : State) (p route : Nat) : List Nat :=
  (s.launches.filterMap fun e => match e.2.replay with
    | some x => if e.2.part = p ∧ x.route = route then some x.ver else none
    | none => none).dedup

/-- The limits of R318 and R321, as the command ends. -/
def State.routeResult (s : State) (p : Nat) (c : RouteCmd) : Nat :=
  if c.result ≠ 0 ∨ c.op = 3 then c.result
  else if 4 < (s.boundVersions p c.route).length + 1 then rrVersions
  else if 65536 < ((s.part p).vers.map fun v => v.entries.length).foldl (· + ·) 0 + c.entries.length then rrNospace
  else 0

/-- A command ends: its version becomes current as BUSY clears, and vector 57 is raised (R321, R408). -/
def State.endRouteCmd (s : State) (p : Nat) : State :=
  match (s.part p).rcmd with
  | none => s
  | some c =>
    let vf := s.vfOf p
    let res := s.routeResult p c
    let old := tget {} (s.part p).routes c.route
    let ver := (old.ver + 1) % 2 ^ 32
    let t := s.modPart p fun y =>
      if res ≠ 0 then { y with rcmd := none }
      else if c.op = 3 then { y with rcmd := none, routes := tset y.routes c.route { old with live := false } }
      else { y with
        rcmd := none
        routes := tset y.routes c.route { ver := ver, live := true }
        vers := y.vers ++ [{ route := c.route, ver := ver, entries := c.entries }] }
    let u := t.freeVersions p
    let v := if res = 0 ∧ c.op ≠ 3 then u.setReg (vfKey vf vfRver) (BitVec.ofNat 32 ver) else u
    ((v.setBit (vfKey vf vfRstat) 0 false).setFld (vfKey vf vfRstat) 8 8 res).irq vf 57

/-- ROUTE_CMD_COMPLETE (R321). -/
def execRouteCmdComplete (part : Nat) (s : State) : Host.Outcome State Fault Refusal :=
  withUnit (okPart part) (s.endRouteCmd part)

end Sys2Proof.Machine
end

