-- ==== Sys2Proof/Machine/PartReset.lean ====
section
/-! DEFINITION. Partition reset (R491, R492, R494, R495), fresh keys (R456), and activations that complete with it (R220 to R222, R355). -/

namespace Sys2Proof.Machine

/-! Keys (R455, R456). -/

/-- The bytes of partition memory in a channel (R256). -/
def chanMem (c a : Nat) : Bool := decide (a / 2 ^ 31 = c ∧ a % 2 ^ 31 < 0x5F000000)

/-- A channel's partition memory reads unspecified values from now on (R456). -/
def State.loseChan (s : State) (c : Nat) : State :=
  let t := { s with
    mem := s.mem.filter fun (e : Host.Cell) => !chanMem c e.1
    poison := s.poison.filter fun l => !chanMem c (128 * l)
    memEpoch := tset s.memEpoch c (tget 0 s.memEpoch c + 1)
    cores := s.cores.map fun (e : Nat × Core) => (e.1, e.2.breakResv fun _ _ r => !r.isLocal && chanMem c (r.granule * r.size)) }
  (t.modDie (dieOfChan c) fun x => { x with l2 := x.l2.filter fun e => !chanMem c (128 * e.1) }).modChan c fun x => { x with
    spoilt := x.spoilt.filter fun l => !chanMem c (128 * l)
    fetched := x.fetched.filter fun l => !chanMem c (128 * l) }

/-- A key slot draws a fresh key of 512 bits (R455). -/
def State.drawKey (s : State) (slot : Nat) : State :=
  let r := s.draw 4
  { r.2 with sec := { r.2.sec with keys := tset r.2.sec.keys slot (BitVec.ofNat 512 r.1) } }

/-- A partition gives a channel up: what the array holds of its memory stays there as ciphertext under its slot's key, which is all that a traffic generator then reads (R283, R455). -/
def State.sealChan (s : State) (slot c : Nat) : State :=
  { s with mem := s.mem.map fun (e : Host.Cell) => if chanMem c e.1 then (e.1, s.cipherByte slot e.1) else e }

/-- A slot that no valid partition names is held erased. -/
def State.trimKeys (s : State) : State :=
  { s with sec := { s.sec with keys := s.sec.keys.filter fun (e : Nat × BitVec 512) => s.chart.parts.any fun x => x.2.valid && x.2.keyslot == e.1 } }

/-- A valid partition's slot receives a fresh key: its memory is lost. -/
def State.freshKey (s : State) (p : Nat) : State :=
  if s.valid p then (bitsSet (s.ent p).hbmch 256).foldl (fun t c => t.loseChan c) (s.drawKey (s.ent p).keyslot) else s

/-! Step 1. -/

/-- What asked for a reset, as the logbook record names it (log entry 45). -/
def trRequest : Nat := 0
def trChart : Nat := 1
def trL2 : Nat := 2
def trFlr : Nat := 3
def trEngine : Nat := 4
def trSecurity : Nat := 5
def trDie : Nat := 6

/-- A partition reset begins (R492, step 1): nothing more is issued or fetched, the lamp goes dark and the vectors are raised; a locked or running TDI moves to ERROR (R410). A request during a reset joins it. -/
def State.beginReset (s : State) (p trigger : Nat) : State :=
  if s.valid p = true ∧ (s.part p).reset = 0 then
    let old := s.epochOf p
    let t := s.modPart p fun y => { y with
      reset := 1
      resetGt := s.now
      tdi := if y.tdi = 1 ∨ y.tdi = 2 then 3 else y.tdi }
    let u := (((t.setBit (partRst p) 0 true).setBit (partStat p) 1 true).setBit (partStat p) 0 false).partIrq p
    u.logRaise sevNotice (some p) (engFe (s.leadDie p)) 0x11 (leBytes 1 p ++ leBytes 1 trigger ++ leBytes 1 old ++ leBytes 1 ((old + 1) % 256))
  else s

/-- PART_RST_WRITE (R491): a write while a reset runs has no further effect. -/
def execPartRstWrite (part : Nat) (s : State) : Host.Outcome State Fault Refusal :=
  withUnit (okPart part) (s.pfStores (partRst part) fun t => t.beginReset part trRequest)

/-! Step 2. -/

/-- A snapshot or dump of the partition is abandoned (R513): the slot of a dump's own snapshot is marked; a snapshot that was the next to be written leaves its slot's header marked and no section, uncounted (log entry 55). -/
def State.abandonHangs (s : State) (p : Nat) : State :=
  let mine (lid : Nat) : Bool := match s.launch? lid with
    | some l => l.part == p
    | none => false
  if s.dbg.hung.any mine || (match s.dbg.dumping with
      | some x => mine x
      | none => false) then
    let dumping := s.dbg.dumping.filter fun x => !mine x
    let n := s.reg64 dbgSnapcnt
    let marked := s.dbg.snaps.map fun (e : Nat × Snap) => if (s.dbg.dumping.any mine) = true ∧ e.2.num = s.dbg.dumpNum then (e.1, { e.2 with abandoned := true }) else e
    let snaps := match (s.dbg.hung.head?.filter mine).bind s.launch? with
      | some l => tset marked (n % 8) { part := p, epoch := s.epochOf p, complete := false, abandoned := true, queue := l.queue, seq := l.seq, gt := l.hung - 1, num := n, body := [] }
      | none => marked
    let t := { s with dbg := { s.dbg with
      hung := s.dbg.hung.filter fun x => !mine x
      dumping := dumping
      portWords := if dumping.isSome then s.dbg.portWords else []
      snaps := snaps } }
    (t.setBit dbgHangstat 6 true).setBit dbgHangstat 0 dumping.isSome
  else s

/-- A request that a router holds and has not put in a flit, of the partition's old epoch. -/
def msgOfPart (own p : Nat) (m : Msg) : Bool := m.src == own && m.spart == p && decide (m.typ ≤ 5)

/-- The messages that a link's router has chosen to send and put nothing of in a flit: all but the first, and that too while every chunk of it is left (R361, R370). -/
def Link.unsent (l : Link) : List Msg := if l.chunks = (l.toSend.head?.map msgChunks).getD 0 then l.toSend else l.toSend.drop 1

/-- A link without the messages of its router that a test names and that are not in a flit: chosen ones give back the credits that they took. -/
def Link.dropUnsent (l : Link) (gone : Msg → Bool) : Link :=
  let kept := l.toSend.take (l.toSend.length - l.unsent.length)
  let rest := l.unsent.filter fun m => !gone m
  { l with
    txq := l.txq.filter fun m => !gone m
    toSend := kept ++ rest
    chunks := if kept = [] then (rest.head?.map msgChunks).getD 0 else l.chunks
    used := (l.unsent.filter gone).foldl (fun t m => tset t (creditField m.vc m.cls) ((tget 0 t (creditField m.vc m.cls) + 65536 - msgCredits m) % 65536)) l.used }

/-- The routers refuse the partition's messages that are not yet in a flit, each copy of a multicast message as a branch of its record, with reason EPOCH, and the digest engine drops its unsent beacons (R494). -/
def State.dropUnsent (s : State) (p : Nat) : State :=
  let own := s.ownId
  let gone (m : Msg) : Bool := msgOfPart own p m || (m.typ == mBeacon && m.src == own && m.spart == p)
  let mine := (s.links.flatMap fun e => ((e.2.txq ++ e.2.unsent).filter (msgOfPart own p)).map fun m => (dieOfLink e.1, m)) ++
    s.dies.flatMap fun e => (e.2.loop.filter (msgOfPart own p)).map fun m => (e.1, m)
  let t := { s with
    links := s.links.map fun (e : Nat × Link) => (e.1, e.2.dropUnsent gone)
    dies := s.dies.map fun (e : Nat × Die) => (e.1, { e.2 with loop := e.2.loop.filter fun m => !gone m }) }
  mine.foldl (fun t e => t.refuseMsg e.1 e.2 nkEpoch) t

/-- End every launch of a partition: those that have issued report PARTITION_RESET, others are dropped (R325, R492). -/
def State.endLaunches (s : State) (p : Nat) : State :=
  (s.launches.filter fun e => e.2.part == p).foldl (fun t e =>
    if e.2.phase = .ended then t
    else if e.2.isIssued || e.2.killed || e.2.withdrawn then ((t.stopLaunch e.1 false).endByReset e.1)
    else t.forget e.1 e.2) s

/-- Commits in progress of a partition. -/
def State.commits (s : State) (p : Nat) : Bool :=
  s.launches.any fun e => e.2.part == p && (e.2.phase == .settling || e.2.phase == .performing)

/-- The number of a pass as a digest engine records it, and a trace record of it (R499). -/
def State.traceSweep (s : State) (p typ status : Nat) : State :=
  s.trace (engDig (s.leadDie p)) typ p false ((s.reg (digSwpass p)).toNat + 255 * 2 ^ 48 + status * 2 ^ 56)

/-- Sweeps of a partition stop. The pass that runs is given up, which R499 counts as an end of it, with a STATUS that the spec does not give: a free value (log entry 68). -/
def State.stopSweep (s : State) (p : Nat) : State :=
  let t := if (s.part p).sweep.running then
      let r := s.freeNat
      r.2.traceSweep p tyEnd (r.1 % 256)
    else s
  (t.setBit (digSwstat p) 0 false).modPart p fun y => { y with sweep := { y.sweep with running := false, restart := none } }

/-- EPOCH rises and every launch ends, once no commit is in progress (R22, R492). -/
def State.resetEpoch (s : State) (p : Nat) : State :=
  if (s.part p).reset = 1 ∧ s.commits p = false then
    let t := ((s.setFld (partStat p) 8 8 (s.epochOf p + 1)).abandonHangs p).stopSweep p
    ((t.endLaunches p).modPart p fun y => { y with reset := 2, resetGt := s.now, coll := [] }).dropUnsent p
  else s

/-- PART_RESET_EPOCH (R492, R494). -/
def execPartResetEpoch (part : Nat) (s : State) : Host.Outcome State Fault Refusal :=
  withUnit (okPart part) (s.resetEpoch part)

/-! Steps 3 and 4. -/

/-- The ended launches write their records: entries of replays first, then calls and all others (R492). -/
def State.resetSettle (s : State) (p : Nat) : State :=
  if (s.part p).reset = 2 then
    let mine := s.launches.filter fun e => e.2.part == p
    let t := (mine.filter fun e => e.2.call.isSome).foldl (fun t e => t.complete e.1) s
    let u := (mine.filter fun e => e.2.call.isNone).foldl (fun t e => t.complete e.1) t
    u.modPart p fun y => { y with reset := 3 }
  else s

/-- PART_RESET_SETTLE (R492, R494). -/
def execPartResetSettle (part : Nat) (s : State) : Host.Outcome State Fault Refusal :=
  withUnit (okPart part) (s.resetSettle part)

/-- A remote request of an old epoch of the partition is outstanding. -/
def State.oldRequests (s : State) (p : Nat) : Bool :=
  s.dies.any fun e => (e.2.reads.any fun r => r.2.part == p && r.2.epoch != s.epochOf p) || e.2.tracks.any fun r => r.2.part == p && r.2.epoch != s.epochOf p

/-! Step 5. -/

/-- The registers that a reset of a partition puts back (R245, R265, R296, R319, R330, R377, R383, R423). -/
def partReg (p vf k : Nat) : Bool :=
  let o := k - partBlk p
  let d := k - digBlk p
  let v := k - vfKey vf 0
  (decide (partBlk p ≤ k) && decide ((0x200 ≤ o ∧ o < 0x20C) ∨ o = 0x300 ∨ (0x400 ≤ o ∧ o < 0x410) ∨ o = 0x500)) ||
  (decide (digBlk p ≤ k ∧ d < 0x400)) ||
  (decide (vfKey vf 0 ≤ k) && decide ((0x100100 ≤ v ∧ v < 0x100130) ∨ (0x100140 ≤ v ∧ v < 0x100158) ∨ (0x100180 ≤ v ∧ v < 0x100190)))

/-- The physical cores of a partition's core sets. -/
def State.partCores (s : State) (p : Nat) : List Nat :=
  (bitsSet (s.ent p).coresets 64).flatMap fun k => (upTo 24).map fun i => s.physOf (24 * k + i)

/-- DIG_SWSTAT.FAULT follows the digest engine of the partition's lead die (R435). -/
def State.digFault (s : State) (p : Nat) : State := s.setBit (digSwstat p) 4 (s.die (s.leadDie p)).digRetired

/-- The state of R495 is cleared. -/
def State.clearPart (s : State) (p : Nat) : State :=
  let cores := s.partCores p
  let t := { s with
    queues := s.queues.filter fun e => e.1 / 256 != p
    cores := s.cores.map fun (e : Nat × Core) => if cores.contains e.1 then (e.1, { e.2 with l1 := [] }) else e }
  let u := t.modPart p fun y => { tdi := y.tdi, locked := y.locked, lockRoot := y.lockRoot, reset := y.reset, resetGt := y.resetGt, rekey := y.rekey, staged := y.staged, activating := y.activating, modelDue := y.modelDue }
  ((u.resetRegs (partReg p (s.vfOf p))).digFault p).dropPreloads (s.leadDie p) fun x => match x with
    | .entry k _ => k / 256 == p
    | .replay _ _ => false
    | .route r _ _ => r == p

/-- Clear cores that leave or join a partition: on-core memory, operand buffers and register files (R146, R219, R221). -/
def Core.wipe (c : Core) : Core :=
  { c with split := 0, blocks := [], groups := [], scheds := [], sbufs := [], loads := [], art := [], creqs := [], l1 := [], icache := [], mx := {}, begun := [], traced := [], preLines := [] }

/-- The fields of an entry that hold resources (R220). -/
def PartEnt.resources (e : PartEnt) : Nat × Nat × Nat × Nat × Nat × Nat × Nat :=
  (e.coresets, e.hbmch, e.ways, e.keyslot, e.vf, e.lead, e.nqueue)

/-- Ways that a die has disabled leave a mask (R222). -/
def State.liveWays (s : State) (mask : Nat) : Nat :=
  (upTo 64).foldl (fun a i => if getBits mask i 1 = 1 ∧ s.bit (l2WayStat (i / 16)) (i % 16) = false then a + 2 ^ i else a) 0

/-- The substitutions with those of a partition's chart: they replace the entries of the core sets that the partition has and of those it will have (R213, R217). -/
def State.mergeSubst (s : State) (p : Nat) (g : Staged) : List (Nat × Nat) :=
  g.subst.foldl (fun t e => tset t e.1 e.2)
    (s.chart.subst.filter fun (e : Nat × Nat) => getBits (g.ent.coresets ||| (s.ent p).coresets) (e.1 / 24) 1 == 0)

/-- An activation changes the resource fields (R220). WAYS is compared with the active mask, from which disabled ways have been cleared, so that the WAYS of an earlier chart count as changed once one of its ways has disabled itself: DESIGN CHOICE (log entry 89). -/
def State.changesRes (s : State) (p : Nat) (g : Staged) : Bool :=
  g.ent.resources != (s.ent p).resources || s.mergeSubst p g != s.chart.subst

/-- A set that some backing core leaves without 24 working cores (R31). -/
def State.setShort (s : State) (subst : List (Nat × Nat)) (k : Nat) : Bool :=
  (upTo 24).any fun i => !s.coreOk (substPhys subst (24 * k + i))

/-- RETIRED of R217 for one partition. -/
def State.entRetired (s : State) (rCores rChans : Nat) (subst : List (Nat × Nat)) (e : PartEnt) : Bool :=
  e.coresets &&& rCores != 0 || e.hbmch &&& (rChans ||| s.chart.mChans) != 0 || ((bitsSet e.coresets 64).any (s.setShort subst)) ||
  ((upTo 4).any fun d => (e.lead == d || getBits e.hbmch (64 * d) 64 != 0) && getBits (s.liveWays e.ways) (16 * d) 16 == 0)

/-- The active entries of the partitions but one. -/
def State.otherEnts (s : State) (p : Nat) : List PartEnt := (s.chart.parts.filter fun e => e.2.valid && e.1 != p).map (·.2)

/-- The substitutions of a partition chart leave a set of another partition, whose rail domain it shares, newly without 24 working cores (R31, R217). That retired sets and dark lamps which other partitions' active entries have already reject no partition chart is the model's choice: DESIGN CHOICE (log entry 90). -/
def State.othersShort (s : State) (subst : List (Nat × Nat)) (others : List PartEnt) : Bool :=
  others.any fun e => (bitsSet e.coresets 64).any fun k => s.setShort subst k && !s.setShort s.chart.subst k

/-- A staged chart that retirements since its check no longer allow (R222). -/
def State.stagedRetired (s : State) (p : Nat) (g : Staged) : Bool :=
  (g.ent.valid && s.entRetired s.chart.rCores s.chart.rChans (s.mergeSubst p g) g.ent) ||
  s.othersShort (s.mergeSubst p g) (s.otherEnts p)

/-! The lines that stage-channel buffers pin (R205, R271). -/

/-- Bytes of a partition's buffers on a die: items of 16 bytes (R204, R205). -/
def bufBytes (e : PartEnt) (d : Nat) : Nat :=
  ((e.chans.filter fun c => bufDie e c.2.1 == d).map fun c => 16 * 2 ^ c.2.2).foldl (· + ·) 0

/-- A partition's buffers leave L2. -/
def State.unpinBuffers (s : State) (p : Nat) : State :=
  { s with dies := s.dies.map fun (e : Nat × Die) => (e.1, { e.2 with l2 := e.2.l2.filter fun x => !decide (bufKey p ≤ x.1 ∧ x.1 < bufKey (p + 1)) }) }

/-- One pinned line, in a way of the partition that replacement gives. -/
def State.pinLine (s : State) (p d line : Nat) : State :=
  match s.l2Way d line (s.waysOf p d) with
  | (some w, t) => t.l2Fill d line w { way := w, pinned := true, used := t.l2Next d }
  | (none, t) => t

/-- A partition's buffers take their lines of its ways, for as long as the chart is active (R205, R271). The items themselves are in `Part.chans`. -/
def State.pinBuffers (s : State) (p : Nat) : State :=
  (upTo 4).foldl (fun t d => (upTo (bufBytes (s.ent p) d / 128)).foldl (fun t k => t.pinLine p d (bufKey p + k)) t) s

/-- A partition's buffers hold their lines again, as while the chart is active they do: a die reset has emptied the die's L2 (R205, R271, R493). -/
def State.repin (s : State) (p : Nat) : State := (s.unpinBuffers p).pinBuffers p

/-- Ways that leave or join a partition are cleared (R219, R221): `ways` holds both. -/
def State.wipeWays (s : State) (ways : Nat) : State :=
  { s with dies := s.dies.map fun (e : Nat × Die) => (e.1, { e.2 with l2 := e.2.l2.filter fun x => getBits ways (16 * e.1 + x.2.way) 1 == 0 }) }

/-- Clear some cores. -/
def State.wipeCores (s : State) (f : Nat → Bool) : State :=
  { s with cores := s.cores.map fun (e : Nat × Core) => if f e.1 then (e.1, e.2.wipe) else e }

/-- Some partition's activation has not completed. -/
def State.activatingBit (s : State) : State := s.setBit chartStatus 1 (s.parts.any fun e => e.2.activating)

/-- A partition's trace ring is emptied (R502). -/
def State.emptyRing (s : State) (p : Nat) : State :=
  ({ s with dbg := { s.dbg with rings := tdel s.dbg.rings p } } : State).setReg64 (dbgTrwc p) 0

/-- A staged entry takes effect: entry, substitutions, buffers, CHART_PSEQ, and the resident model, at once or when the lamp relights (R205, R220, R221, R355). -/
def State.install (s : State) (p : Nat) (g : Staged) : State :=
  let changed := s.changesRes p g
  let cores := s.partCores p
  let s := if changed then s.wipeWays ((s.ent p).ways ||| g.ent.ways) else s
  let s := ((bitsSet (s.ent p).hbmch 256).filter fun c => getBits g.ent.hbmch c 1 == 0).foldl (fun t c => t.sealChan (s.ent p).keyslot c) s
  let same := !changed && g.ent.stages == (s.ent p).stages && g.ent.chans == (s.ent p).chans
  let t := { s with chart := { s.chart with
    subst := s.mergeSubst p g
    parts := tput {} s.chart.parts p { g.ent with ways := s.liveWays g.ent.ways } } }
  let t := if same then t.digFault p else (t.repin p).digFault p
  let u := if changed then (t.wipeCores fun c => cores.contains c || (t.partCores p).contains c).emptyRing p else t
  let v := u.modPart p fun y => { y with staged := none, activating := false, rekey := y.rekey || changed, modelDue := changed }
  let w := (if changed then v else v.setReg (partModel p) (s.reg (partModelNx p))).setReg64 (chartPseq p) g.seq
  (w.setBit (chartStaged + 4 * (p / 32)) (p % 32) false).activatingBit.trimKeys

/-- The result of a chart command: RESULT, a record and PF0's vector 1 (R216, R407). -/
def State.chartResult (s : State) (result : Nat) : State :=
  let t := s.setFld chartStatus 8 8 result
  (t.logRaise sevNotice none srcRim 0x10 (leBytes 4 (t.reg chartStatus).toNat ++ leBytes 8 (t.reg64 chartSeq))).irq 0 1

/-- A load completes: BUSY and LOAD clear (R216). -/
def State.chartDone (s : State) (result : Nat) : State :=
  ((s.setBit chartStatus 0 false).setBit chartCtrl 0 false).chartResult result

/-- The reset is over: its bits clear, the vectors are raised, and the lamp may light again. -/
def State.leaveReset (s : State) (p : Nat) : State :=
  let t := s.modPart p fun y => { y with reset := 0, rekey := false }
  (((t.setBit (partRst p) 0 false).setBit (partStat p) 1 false).partIrq p).partLampUpdate p

/-- A staged chart takes effect, or is rejected with RETIRED and stays staged, as the re-check of R222 has it; that it stays is the model's choice (DESIGN CHOICE, log entry 89). -/
def State.takeEffect (s : State) (p : Nat) (g : Staged) : State :=
  if s.stagedRetired p g then ((s.modPart p fun y => { y with activating := false }).activatingBit).chartResult 7
  else (s.install p g).chartResult 0

/-- The reset ends (R492, step 5): the state is clear, and a pending activation and a pending key take effect. -/
def State.finishReset (s : State) (p : Nat) : State :=
  let t := s.clearPart p
  let t := match (t.part p).staged with
    | some g => if (t.part p).activating then t.takeEffect p g else t
    | none => t
  ((if (t.part p).rekey then t.freshKey p else t).repin p).leaveReset p

/-- Some die of an entry waits to be reset. -/
def State.dieAwaits (s : State) (e : PartEnt) : Bool := s.boot.dieWait.any (entDies e).contains

/-- A die that the partition touches waits to be reset, or one that the activation which its reset completes gives it (R493). -/
def State.dieHolds (s : State) (p : Nat) : Bool :=
  s.dieAwaits (s.ent p) || ((s.part p).activating && match (s.part p).staged with
    | some g => s.dieAwaits g.ent
    | none => false)

/-- PART_RESET_END (R492, R495). While a full chart is being applied, or a die waits to be reset, the partition stays at step 4 (R219, R493). -/
def execPartResetEnd (part : Nat) (s : State) : Host.Outcome State Fault Refusal :=
  withUnit (okPart part) (if (s.part part).reset = 4 ∧ s.chart.applying = false ∧ s.chart.holding = false ∧ s.dieHolds part = false then s.finishReset part else s)

end Sys2Proof.Machine
end

