-- ==== Sys2Proof/Machine/Chart.lean ====
section
/-! DEFINITION. Chart images (R199 to R205, R213 to R215), their check (R217), loading, staging and activation (R216, R218 to R222, R489). -/

namespace Sys2Proof.Machine

/-! The image. -/

def imLen (m : List Byte) : Nat := numAt m 0x10 4
def imKind (m : List Byte) : Nat := numAt m 6 1
def imPart (m : List Byte) : Nat := numAt m 7 1 % 64
def imSeq (m : List Byte) : Nat := numAt m 8 8
def imDevid (m : List Byte) : Nat := numAt m 0x14 2
/-- Offset and length of section `i`: PARTITIONS, STAGES, CHANNELS, SUBST, RETIRED, ROUTES. -/
def secOff (m : List Byte) (i : Nat) : Nat := numAt m (0x28 + 8 * i) 4
def secLen (m : List Byte) (i : Nat) : Nat := numAt m (0x2C + 8 * i) 4
/-- The byte offset of entry `k` of section `i` with entries of `size` bytes. -/
def secAt (m : List Byte) (i size k : Nat) : Nat := secOff m i + size * k
/-- Numbers of entries. -/
def nParts (m : List Byte) : Nat := secLen m 0 / 64
def nStages (m : List Byte) : Nat := secLen m 1 / 16
def nChans (m : List Byte) : Nat := secLen m 2 / 8
def nSubst (m : List Byte) : Nat := secLen m 3 / 4
/-- The header of the ROUTES section. -/
def rtNovr (m : List Byte) : Nat := numAt m (secOff m 5 + 0x70) 2
def rtNmc (m : List Byte) : Nat := numAt m (secOff m 5 + 0x72) 2
def rtOvr (m : List Byte) (i : Nat) : Nat := secOff m 5 + 128 + 16 * i
def rtMc (m : List Byte) (i : Nat) : Nat := secOff m 5 + 128 + 16 * rtNovr m + 16 * i

/-- All of `n` bytes from an offset are 0. -/
def zeros (m : List Byte) (off n : Nat) : Bool := (slice m off n).all (· == 0)

/-- FORMAT of R217: the header and the directory break R199 or R201. A section of length 0 whose offset lies strictly inside another overlaps it: DESIGN CHOICE, R201 does not say (log entry 90). -/
def imFormatBad (m : List Byte) (len : Nat) : Bool :=
  let full := imKind m == 0
  let secs := (upTo 6).map fun i => (secOff m i, secLen m i)
  let countBad (i size lo hi : Nat) : Bool := secLen m i % size != 0 || decide (secLen m i / size < lo ∨ hi < secLen m i / size)
  numAt m 0 4 != 0x4B5A4348 || numAt m 4 2 != 1 || decide (1 < imKind m) || imLen m != len || imLen m % 64 != 0 ||
  decide (imLen m < 512 ∨ 2 ^ 24 < imLen m) ||
  (secs.any fun e => e.1 % 8 != 0 || decide (e.1 < 128 ∨ imLen m - 128 ≤ e.1 ∨ imLen m - 128 < e.1 + e.2)) ||
  ((upTo 6).any fun i => (upTo i).any fun j => overlaps (secOff m i) (secLen m i) (secOff m j) (secLen m j)) ||
  (if full then countBad 0 64 64 64 || countBad 1 16 0 256 || countBad 2 8 0 4096 || countBad 3 4 0 96 || countBad 4 64 1 1 || decide (secLen m 5 < 128)
   else countBad 0 64 1 1 || countBad 1 16 1 16 || countBad 2 8 0 255 || countBad 3 4 0 96 || secLen m 4 != 0 || secLen m 5 != 0)

/-- SIGNATURE of R217 (R200): no owner, or a signature that does not verify under the owner's key. -/
def State.imSigBad (s : State) (m : List Byte) : Bool :=
  let b := imLen m - 128
  match s.sec.owner with
  | none => true
  | some key => numAt m b 2 != 1 || !Config.ecdsaVerify key (m.take b) (slice m (b + 0x10) 96)

/-- RESERVED of R217. That a nonzero PART of a full chart, a nonzero DEVID of a partition chart, and bits [63:48] of an override's link mask, which R215 does not name as reserved, give RESERVED is the model's choice: DESIGN CHOICE (log entry 90). -/
def imReservedBad (m : List Byte) : Bool :=
  let b := imLen m - 128
  decide (64 ≤ numAt m 7 1) || !zeros m 0x16 2 || !zeros m 0x58 40 || !zeros m (b + 2) 14 || !zeros m (b + 0x70) 16 ||
  (if imKind m = 0 then numAt m 7 1 != 0 else imDevid m != 0) ||
  ((upTo (nParts m)).any fun k =>
    let o := secAt m 0 64 k
    if numAt m o 1 % 2 = 0 then !zeros m o 64
    else decide (4 ≤ numAt m o 1 ∨ 4 ≤ numAt m (o + 1) 1 ∨ 64 ≤ numAt m (o + 2) 1 ∨ 64 ≤ numAt m (o + 3) 1) || !zeros m (o + 0x1C) 4) ||
  ((upTo (nStages m)).any fun k => decide (2 ≤ numAt m (secAt m 1 16 k + 8) 1) || !zeros m (secAt m 1 16 k + 9) 7) ||
  ((upTo (nChans m)).any fun k =>
    let o := secAt m 2 8 k
    decide (16 ≤ numAt m o 1 ∨ 16 ≤ numAt m (o + 1) 1) || !zeros m (o + 3) 5) ||
  (imKind m == 0 &&
    (!zeros m (secOff m 4 + 0x2E) 18 || !zeros m (secOff m 5 + 1) 1 || !zeros m (secOff m 5 + 0x74) 12 ||
      ((upTo 12).any fun i => !zeros m (secOff m 5 + 0x16 + 8 * i) 2) ||
      (decide (128 + 16 * (rtNovr m + rtNmc m) ≤ secLen m 5) &&
        (upTo (rtNovr m)).any fun i => !zeros m (rtOvr m i + 4) 4 || !zeros m (rtOvr m i + 14) 2)))

/-- An entry of PARTITIONS with the stages and channels that it names (R202 to R204). -/
def imEnt (m : List Byte) (k : Nat) : PartEnt :=
  let o := secAt m 0 64 k
  if numAt m o 1 % 2 = 0 then {}
  else { valid := true
         cached := getBits (numAt m o 1) 1 1 == 1
         lead := numAt m (o + 1) 1 % 4
         keyslot := numAt m (o + 2) 1 % 64
         vf := numAt m (o + 3) 1 % 64
         nqueue := numAt m (o + 4) 2
         raw := slice m o 64 ++ slice m (secAt m 1 16 (numAt m (o + 6) 1)) (16 * numAt m (o + 7) 1) ++
           slice m (secAt m 2 8 (numAt m (o + 0x18) 2)) (8 * numAt m (o + 0x1A) 2)
         coresets := numAt m (o + 8) 8
         ways := numAt m (o + 0x10) 8
         hbmch := numAt m (o + 0x20) 32
         stages := (upTo (numAt m (o + 7) 1)).map fun i =>
           let a := secAt m 1 16 (numAt m (o + 6) 1 + i)
           (numAt m a 8, numAt m (a + 8) 1 % 2 == 1)
         chans := (upTo (numAt m (o + 0x1A) 2)).map fun i =>
           let a := secAt m 2 8 (numAt m (o + 0x18) 2 + i)
           (numAt m a 1 % 16, numAt m (a + 1) 1 % 16, numAt m (a + 2) 1) }

/-- SUBST entries, by logical core. -/
def imSubst (m : List Byte) : List (Nat × Nat) :=
  (upTo (nSubst m)).foldl (fun t k => tset t (numAt m (secAt m 3 4 k) 2) (numAt m (secAt m 3 4 k + 2) 2)) []

/-- The partitions that an image describes, with their numbers. A partition chart whose entry has VALID clear describes none: it is staged, and its activation removes the partition. DESIGN CHOICE: the spec does not say (log entry 90). -/
def imEnts (m : List Byte) : List (Nat × PartEnt) :=
  (if imKind m = 0 then (upTo 64).map fun p => (p, imEnt m p) else [(imPart m, imEnt m 0)]).filter fun e => e.2.valid

/-- The ROUTES section (R215). -/
def imRoutes (m : List Byte) : Routes :=
  let o := secOff m 5
  { ndim := numAt m o 1
    baseid := numAt m (o + 2) 2
    size := (upTo (numAt m o 1)).map fun i => numAt m (o + 4 + i) 1
    coord := (upTo (numAt m o 1)).map fun i => numAt m (o + 0xA + i) 1
    dirlinks := (upTo 12).map fun i => numAt m (o + 0x10 + 8 * i) 6
    ovr := (upTo (rtNovr m)).map fun i => (numAt m (rtOvr m i) 2, numAt m (rtOvr m i + 2) 2, numAt m (rtOvr m i + 8) 6)
    mc := (upTo (rtNmc m)).map fun i => (numAt m (rtMc m i) 2, numAt m (rtMc m i + 2) 6, numAt m (rtMc m i + 8) 8) }

/-- The linear index of coordinates, dimension 0 fastest. -/
def linear : List Nat → List Nat → Nat
  | n :: ns, c :: cs => c + n * linear ns cs
  | _, _ => 0

/-- A link mask lacks a link on some die (R375). -/
def maskShort (mask : Nat) : Bool := (upTo 4).any fun d => getBits mask (12 * d) 12 == 0

/-- An override's mask matches a direction of a dimension of SIZE greater than 1: it routes some other module of the torus (R375). -/
def Routes.routesBy (r : Routes) (own : Nat) (e : Nat × Nat × Nat) : Bool :=
  let lo := max e.1 r.baseid
  let hi := min e.2.1 (r.baseid + r.size.foldl (· * ·) 1 - 1)
  decide (lo ≤ hi) && !decide (lo = own ∧ hi = own)

/-- ROUTE of R217 (R215, R375). COORD bytes at and above NDIM must be 0 as the SIZE bytes there: DESIGN CHOICE, R215 asks it of SIZE only (log entry 90). -/
def imRouteBad (m : List Byte) : Bool :=
  let o := secOff m 5
  let r := imRoutes m
  let n := r.ndim
  decide (n < 1 ∨ 6 < n ∨ 1024 < rtNovr m ∨ 1024 < rtNmc m ∨ 0xC000 ≤ imDevid m) || secLen m 5 != 128 + 16 * (rtNovr m + rtNmc m) ||
  ((upTo 6).any fun i =>
    let z := numAt m (o + 4 + i) 1
    let c := numAt m (o + 0xA + i) 1
    if i < n then decide (z < 1 ∨ 64 < z ∨ z ≤ c) else z != 0 || c != 0) ||
  imDevid m != r.baseid + linear r.size r.coord || decide (0xC000 < r.baseid + r.size.foldl (· * ·) 1) ||
  (r.mc.any fun e => decide (e.1 < 0xC000)) || (r.ovr.any fun e => r.routesBy (imDevid m) e && maskShort e.2.2) ||
  ((upTo n).any fun i => decide (1 < r.size.getD i 0) && (maskShort (r.dirlinks.getD (2 * i) 0) || maskShort (r.dirlinks.getD (2 * i + 1) 0)))

/-! The check (R217). -/

/-- Two partitions share a resource. -/
def entsOverlap (a b : PartEnt) : Bool :=
  a.coresets &&& b.coresets != 0 || a.hbmch &&& b.hbmch != 0 || a.ways &&& b.ways != 0 || a.keyslot == b.keyslot || a.vf == b.vf

/-- Some pair of a list satisfies a relation. -/
def anyPair {α : Type} (f : α → α → Bool) : List α → Bool
  | [] => false
  | x :: xs => xs.any (f x) || anyPair f xs

/-- The stage rules of R203. -/
def stagesBad (e : PartEnt) : Bool :=
  (e.stages.any fun x => x.1 == 0) || anyPair (fun x y => x.1 &&& y.1 != 0) e.stages ||
  (e.stages.map (·.1)).foldl (· ||| ·) 0 != e.coresets

/-- LAYOUT of R217 for one entry: its counts, its lead die, its channels and its stages. That NQUEUE, NSTAGE and STAGE0 out of range are LAYOUT is the model's choice: R217 names no RESULT for them (DESIGN CHOICE, log entry 90). -/
def entLayoutBad (m : List Byte) (k : Nat) (e : PartEnt) : Bool :=
  let o := secAt m 0 64 k
  getBits e.coresets (16 * e.lead) 16 == 0 || e.hbmch == 0 || decide (e.nqueue < 1 ∨ 256 < e.nqueue) ||
  decide (e.stages.length < 1 ∨ 16 < e.stages.length ∨ nStages m < numAt m (o + 6) 1 + e.stages.length) || stagesBad e

/-- Drop the edges that leave nodes no edge enters. -/
def peel : Nat → List (Nat × Nat) → List (Nat × Nat)
  | 0, es => es
  | n + 1, es => peel n (es.filter fun e => es.any fun f => f.2 == e.1)

/-- CHANNEL of R217 for one entry (R204, R205, R271): its buffers pin at most one line of a set, which may be half the partition's enabled ways. That CH0 and NCH out of range are CHANNEL is the model's choice: R217 names no RESULT for them (DESIGN CHOICE, log entry 90). -/
def State.entChannelBad (s : State) (m : List Byte) (k : Nat) (e : PartEnt) : Bool :=
  let o := secAt m 0 64 k
  let n := e.stages.length
  decide (255 < e.chans.length ∨ nChans m < numAt m (o + 0x18) 2 + e.chans.length) ||
  (e.chans.any fun c => c.1 == c.2.1 || decide (n ≤ c.1 ∨ n ≤ c.2.1 ∨ c.2.2 < 4 ∨ 12 < c.2.2)) ||
  peel 17 (e.chans.map fun c => (c.1, c.2.1)) != [] ||
  ((upTo 4).any fun d =>
    decide (2 ^ 22 < bufBytes e d ∨ (0 < bufBytes e d ∧ (bitsSet (getBits (s.liveWays e.ways) (16 * d) 16) 16).length < 2)))

/-- A core backs two logical cores of its rail domain. -/
def doubled (subst : List (Nat × Nat)) : Bool :=
  (upTo 32).any fun r => anyPair (· == ·) ((upTo 48).map fun i => substPhys subst (48 * r + i))

/-- SUBST of R217 (R213): the entries of the image, and all of them together. -/
def imSubstBad (m : List Byte) (subst : List (Nat × Nat)) : Bool :=
  let es := (upTo (nSubst m)).map fun k => (numAt m (secAt m 3 4 k) 2, numAt m (secAt m 3 4 k + 2) 2)
  (es.any fun e => decide (1536 ≤ e.1 ∨ 1632 ≤ e.2) || e.1 / 48 != e.2 / 51 ||
    (imKind m == 1 && getBits (imEnt m 0).coresets (2 * (e.1 / 48)) 2 == 0)) ||
  anyPair (fun a b => a.1 == b.1) es || doubled subst

/-- The staged form of a partition chart. -/
def imStaged (m : List Byte) : Staged := { ent := imEnt m 0, subst := imSubst m, seq := imSeq m }

/-- The substitutions as they would stand under the image. -/
def State.imMerged (s : State) (m : List Byte) : List (Nat × Nat) :=
  if imKind m = 0 then imSubst m else s.mergeSubst (imPart m) (imStaged m)

/-- The retirements as they would stand under the image (R214). -/
def State.imRCores (s : State) (m : List Byte) : Nat := if imKind m = 0 then numAt m (secOff m 4) 8 else s.chart.rCores
def State.imRChans (s : State) (m : List Byte) : Nat := if imKind m = 0 then numAt m (secOff m 4 + 8) 32 else s.chart.rChans

/-- The active entries of the partitions that a partition chart does not name. -/
def State.othersOf (s : State) (m : List Byte) : List PartEnt :=
  if imKind m = 0 then [] else s.otherEnts (imPart m)

/-- A die or stack lamp that a partition needs is dark, or the generator of one of its channels runs (R283). -/
def State.entNotReady (s : State) (e : PartEnt) : Bool :=
  ((bitsSet e.hbmch 256).any fun c => (s.chan c).tgRun) || ((entDies e).any fun d => !s.lamp (lampDie d)) || ((bitsSet e.hbmch 256).any fun c => !s.lamp (lampStack (c / 32)))

/-- RESULT of a check: the first check of R217 that fails. A boot chart is checked without NOT_READY (R489). -/
def State.chartCheck (s : State) (m : List Byte) (len : Nat) (boot : Bool) : Nat :=
  let ents := imEnts m
  let others := s.othersOf m
  let subst := s.imMerged m
  let idx (p : Nat) : Nat := if imKind m = 0 then p else 0
  let target := numAt m 0x18 16
  let floor := if imKind m = 0 then s.reg64 chartSeq else s.reg64 (chartPseq (imPart m))
  if imFormatBad m len then 1
  else if s.imSigBad m then 2
  else if target ≠ 0 ∧ target ≠ moduleDigest.toNat then 3
  else if imSeq m ≤ floor then 4
  else if imReservedBad m then 5
  else if anyPair entsOverlap (ents.map (·.2) ++ others) then 6
  else if ents.any (fun e => s.entRetired (s.imRCores m) (s.imRChans m) subst e.2) ∨ s.othersShort subst others = true then 7
  else if ents.any (fun e => entLayoutBad m (idx e.1) e.2) ∨ 4096 < (ents.map (·.2.nqueue) ++ others.map (·.nqueue)).foldl (· + ·) 0 then 8
  else if ents.any (fun e => s.entChannelBad m (idx e.1) e.2) then 9
  else if imSubstBad m subst then 10
  else if imKind m = 0 ∧ imRouteBad m = true then 11
  else if boot = false ∧ ents.any (fun e => s.entNotReady e.2) = true then 12
  else if imKind m = 1 ∧ (s.part (imPart m)).activating = true then 13
  else 0

/-! Applying a full chart (R219). -/

/-- Discard every staged chart. -/
def State.discardStaged (s : State) : State :=
  ((upTo 64).foldl (fun t p => t.modPart p fun y => { y with staged := none, activating := false }) s).setReg64 chartStaged 0 |>.activatingBit

/-- The valid partitions. -/
def State.validParts (s : State) : List Nat := (upTo 64).filter s.valid

/-- Steps 1 and 2 of R219: staged charts are discarded and every partition begins its reset. -/
def State.applyBegin (s : State) (trigger : Nat) : State :=
  s.validParts.foldl (fun t p => t.beginReset p trigger) s.discardStaged

/-- Every partition's reset waits only to end. -/
def State.allStopped (s : State) : Bool := s.validParts.all fun p => (s.part p).reset == 4

/-- A lamp changes during start-up: the rim die's trace record (R499). -/
def State.traceLamp (s : State) (i : Nat) (b : Bool) : State :=
  if s.boot.starts != [] then s.trace srcRim tyLamp 0 false (i + (if b then 64 else 0)) else s

/-- What held the trace port in START mode has lit its lamp: it holds it for 1 s more (R504). -/
def State.startLit (s : State) (k : Nat) : State :=
  if (tfind s.boot.starts k).isSome then { s with boot := { s.boot with starts := tset s.boot.starts k (some s.now) } } else s

/-- The CHART lamp lights with the active chart, once SECROOT is lit; links that wait in ALIGN go on (R487, R488). -/
def State.lightChart (s : State) : State :=
  if s.lamp lampChart || !s.lamp lampSecroot then s
  else (((s.setLamp lampChart true).startLit 0).restartAlign).traceLamp lampChart true

/-- Steps 3 to 5 of R219: keys, cores and ways; then the tables, DEVID, substitutions and entries. A router whose links now lead elsewhere tells its peers (R375). A link that the new chart retires stays as it is (log entry 111). -/
def State.applyEnd (s : State) (m : List Byte) : State :=
  let old := s.validParts
  let t := old.foldl (fun t p => ((t.clearPart p).freshKey p).leaveReset p) s
  let u : State := (t.wipeCores fun _ => true)
  let ents := imEnts m
  let v : State := { u with
    dies := u.dies.map fun (e : Nat × Die) => (e.1, { e.2 with l2 := [] })
    chart := { u.chart with
      parts := ents.foldl (fun t e => tset t e.1 { e.2 with ways := s.liveWays e.2.ways }) []
      subst := imSubst m
      rCores := numAt m (secOff m 4) 8
      rChans := numAt m (secOff m 4 + 8) 32
      rLinks := numAt m (secOff m 4 + 0x28) 6
      routes := imRoutes m
      active := true
      applying := false
      image := []
      digest := Config.sha384 m } }
  let w := (v.setReg64 chartSeq (imSeq m)).setReg chartDevid (BitVec.ofNat 32 (imDevid m))
  let x := (upTo 64).foldl (fun t p => t.setReg64 (chartPseq p) (imSeq m)) w
  let y := ents.foldl (fun t e => (t.freshKey e.1).digFault e.1) ((upTo 64).foldl (fun t p => t.emptyRing p) x)
  let y := (upTo 256).foldl (fun t c => t.setBit (hbmStat c) 1 (t.chanRetired c)) y
  let y := ents.foldl (fun t e => t.pinBuffers e.1) y
  let z := (upTo 4).foldl (fun (t : State) d => if t.upDirs d = s.upDirs d then t else t.notifyPeers d) y
  z.lightChart.trimKeys.relight

/-! Commands. -/

/-- A chart command is written: ignored while CHART_ does not serve (R488), and ignored, with CMDLOST, while another runs (R216, R222). -/
def State.chartCmd (s : State) (f : State → State) : State :=
  s.pfStores chartCtrl fun t => if t.bit chartStatus 0 then t.setBit chartStatus 24 true else f t

/-- CHART_LOAD (R216): the image is read by PF0's DMA (R406). -/
def execChartLoad (store : Bool) (s : State) : Host.Outcome State Fault Refusal :=
  .next (s.chartCmd fun t => (((t.setBit chartStatus 0 true).setBit chartCtrl 0 true).setBit chartCtrl 1 store).emit (.hostRead 0 (t.reg64 chartSrc) (t.reg chartLen).toNat))

/-- The image was checked: KIND, and PART of a partition chart. -/
def State.noteImage (s : State) (m : List Byte) : State :=
  let t := s.setFld chartStatus 22 1 (imKind m)
  if imKind m = 1 then t.setFld chartStatus 16 6 (imPart m) else t

/-- A partition chart is staged in place of any earlier one (R220). -/
def State.stage (s : State) (m : List Byte) : State :=
  let p := imPart m
  (s.modPart p fun y => { y with staged := some (imStaged m) }).setBit (chartStaged + 4 * (p / 32)) (p % 32) true

/-- An accepted full chart becomes the boot chart when STORE asks. -/
def State.storeBoot (s : State) (m : List Byte) : State :=
  if s.bit chartCtrl 1 then { s with chart := { s.chart with boot := some m } } else s

/-- A full chart takes effect once every partition's reset has got as far. -/
def State.applyReady (s : State) : State := ((s.applyEnd s.chart.image).storeBoot s.chart.image).chartDone 0

/-- The apply of an accepted full chart begins, after the re-check of R222: a rejected image changes nothing (R218). -/
def State.applyStart (s : State) : State :=
  let m := s.chart.image
  if (imEnts m).any fun e => s.entRetired (s.imRCores m) (s.imRChans m) (imSubst m) e.2 then
    ({ s with chart := { s.chart with image := [] } } : State).chartDone 7
  else
    let u := s.applyBegin trChart
    let v : State := { u with chart := { u.chart with applying := true } }
    if v.allStopped then v.applyReady else v

/-- A check ends (R217 to R220): the image is rejected, staged, or held for its apply. -/
def State.loadDone (s : State) (image : Option (List Byte)) : State :=
  match image with
  | none => s.chartDone 14
  | some m =>
    let r := s.chartCheck m (s.reg chartLen).toNat false
    let t := s.noteImage m
    if r ≠ 0 then t.chartDone r
    else if imKind m = 1 then (t.stage m).chartDone 0
    else { t with chart := { t.chart with image := m } }

/-- CHART_LOAD_COMPLETE (R217, R219, R222): the check ends; of a full chart that passed it, the apply begins at the next; and at the one after the resets that it began have got as far as their last step, it ends. Charts are checked from SECROOT on (R487), and none while an owner change or a debug unlock waits for its resets. -/
def execChartLoadComplete (image : Option (List Byte)) (s : State) : Host.Outcome State Fault Refusal :=
  .next (
    if s.bit chartStatus 0 && s.bit chartCtrl 0 then
      if s.lamp lampSecroot = false ∨ s.chart.holding = true then s
      else if s.chart.applying then (if s.allStopped then s.applyReady else s)
      else if s.chart.image ≠ [] then s.applyStart
      else s.loadDone image
    else s)

/-- A partition that does not exist yet comes into being: its entry takes effect under a fresh key. -/
def State.installNew (s : State) (p : Nat) (g : Staged) : State :=
  (((s.install p g).freshKey p).modPart p fun y => { y with rekey := false }).relight.chartResult 0

/-- What a new partition's activation waits for: a debug unlock or an owner change that resets every partition first (R450, R454), and the reset of a die that it would touch (R493). -/
def State.installHeld (s : State) (g : Staged) : Bool := s.chart.holding || s.dieAwaits g.ent

/-- ACTIVATE (R220, R221): a command that waits sets no BUSY, and RESULT, its record and its vector come when the activation takes effect, not when the command is accepted: DESIGN CHOICE (log entry 89). A locked TDI moves to ERROR (R410); with unchanged resource fields the partition stops issuing; with changed ones it is reset; a partition that does not exist takes its entry at once. With nothing staged the command completes with RESULT 0, during an activation with BUSY: DESIGN CHOICE, the spec gives no RESULT (log entry 89). -/
def State.activate (s : State) (p : Nat) : State :=
  match (s.part p).staged with
  | none => s.chartResult 0
  | some g =>
    if (s.part p).activating then s.chartResult 13
    else if s.stagedRetired p g then s.chartResult 7
    else if s.valid p then
      let t := ((s.tdiError p).modPart p fun y => { y with activating := true }).activatingBit
      if s.changesRes p g then t.beginReset p trChart else t
    else if s.installHeld g then (s.modPart p fun y => { y with activating := true }).activatingBit
    else s.installNew p g

/-- CHART_ACTIVATE (R216, R220, R221). -/
def execChartActivate (part : Nat) (s : State) : Host.Outcome State Fault Refusal :=
  withUnit (okPart part) (s.chartCmd fun t => (t.setFld chartCtrl 8 6 part).activate part)

/-- No kernel or copy of the partition has issued and not completed: those that were killed before are still to run to their end. -/
def State.quiet (s : State) (p : Nat) : Bool := !s.launches.any fun e => e.2.part == p && e.2.isWork && e.2.isIssued

/-- Channels whose entry changes or disappears lose their items, and their number is logged (R220). -/
def State.dropItems (s : State) (p : Nat) (old new : List (Nat × Nat × Nat)) : State :=
  ((upTo old.length).filter fun c => old[c]? != new[c]?).foldl (fun t c =>
    let n := ((tget {} (t.part p).chans c).items.filter fun x => !x.taken).length
    let u := t.modPart p fun y => { y with chans := tdel y.chans c }
    if n = 0 then u else u.logRaise sevNotice (some p) (engFe (s.leadDie p)) 0x12 (leBytes 2 c ++ leBytes 4 n)) s

/-- Steps 3 and 4 of R220; a new partition's activation that waited takes effect. -/
def State.activated (s : State) (p : Nat) : State :=
  match (s.part p).staged with
  | none => s
  | some g =>
    if (s.part p).activating && (s.part p).reset == 0 && s.quiet p then
      if s.valid p = false ∧ s.installHeld g = true then s
      else if s.stagedRetired p g then s.takeEffect p g
      else if s.valid p = false then s.installNew p g
      else ((s.dropItems p (s.ent p).chans g.ent.chans).takeEffect p g).partLampUpdate p
    else s

/-- ACTIVATION_COMPLETE (R220). -/
def execActivationComplete (part : Nat) (s : State) : Host.Outcome State Fault Refusal :=
  withUnit (okPart part) (s.activated part)

/-- CHART_DISCARD (R216): the staged chart is discarded, unless its activation has begun: then nothing is, and the command completes with RESULT 0. DESIGN CHOICE: R216 makes no such exception (log entry 89). -/
def execChartDiscard (part : Nat) (s : State) : Host.Outcome State Fault Refusal :=
  withUnit (okPart part) (s.chartCmd fun t =>
    let u := t.setFld chartCtrl 8 6 part
    if (u.part part).activating then u.chartResult 0
    else ((u.modPart part fun y => { y with staged := none }).setBit (chartStaged + 4 * (part / 32)) (part % 32) false).chartResult 0)

/-- BOOT_CHART_LOAD (R489): once SECROOT is lit, the stored chart is checked and applied; a rejected one leaves CHART dark. -/
def execBootChartLoad (s : State) : Host.Outcome State Fault Refusal :=
  .next (match s.chart.boot with
    | none => s
    | some m =>
      if s.lamp lampSecroot && !s.chart.active && !s.boot.missed.contains lampChart && s.chartCheck m (imLen m) true == 0 then s.applyEnd m else s)

end Sys2Proof.Machine
end

