-- ==== Sys2Proof/Machine/MemSys.lean ====
section
/-! DEFINITION. The memory system by itself: invalidation of translations (R265), L2 errors (R272 to R274), the HBM controllers (R275 to R282), channel retirement (R434 to R436), traffic generators (R283 to R285) and die-to-die links (R27). -/

namespace Sys2Proof.Machine

/-! Translations (R265, R266). -/

/-- A write uses a translation that the tables no longer give. -/
def State.staleAt (s : State) (p va : Nat) (acc : TAcc) (t : Target) : Bool :=
  match t with
  | .remote _ => false
  | _ => match s.translNow p va acc with
    | .ok tr => tr.tgt != t
    | .error _ => true

/-- Some access of the partition that is not performed uses a translation from before. -/
def State.staleUse (s : State) (p : Nat) : Bool :=
  let of (lid : Nat) : Bool := match s.launch? lid with
    | some l => l.part == p
    | none => false
  s.cores.any fun e =>
    (e.2.sbufs.any fun b => b.2.any fun x => x.part == p && x.writes.any fun w => s.staleAt p w.va .write w.tgt) ||
    (e.2.art.any fun x => x.2.part == p && x.2.writes.any fun w => s.staleAt p w.va .write w.tgt) ||
    (e.2.loads.any fun x => of x.2.launch && x.2.bound.isNone && x.2.reads.any fun r => s.staleAt p r.va .read r.tgt) ||
    (e.2.mx.drains.any fun x => of x.2.launch && x.2.writes.any fun w => !x.2.isLocal && s.staleAt p w.va .write w.tgt)

/-- Mark the partition's accesses that have translated and are not performed: they use translations from before an invalidation (R265). -/
def State.markOld (s : State) (p : Nat) : State :=
  let of (lid : Nat) : Bool := match s.launch? lid with
    | some l => l.part == p
    | none => false
  { s with cores := s.cores.map fun (e : Nat × Core) => (e.1, { e.2 with
      sbufs := e.2.sbufs.map fun (b : Nat × List Sbuf) => (b.1, b.2.map fun x => if x.part = p then { x with old := true } else x)
      art := e.2.art.map fun (x : Nat × Track) => if x.2.part = p then (x.1, { x.2 with old := true }) else x
      loads := e.2.loads.map fun (x : Nat × Load) => if of x.2.launch && x.2.bound.isNone then (x.1, { x.2 with old := true }) else x
      mx := { e.2.mx with drains := e.2.mx.drains.map fun (x : Nat × DrainBuf) => if of x.2.launch && !x.2.isLocal then (x.1, { x.2 with old := true }) else x } }) }

/-- Some access of the partition from before its invalidation is not performed. -/
def State.oldUse (s : State) (p : Nat) : Bool :=
  let of (lid : Nat) : Bool := match s.launch? lid with
    | some l => l.part == p
    | none => false
  s.cores.any fun e =>
    (e.2.sbufs.any fun b => b.2.any fun x => x.part == p && x.old) || (e.2.art.any fun x => x.2.part == p && x.2.old && !x.2.done) ||
    (e.2.loads.any fun x => of x.2.launch && x.2.old && x.2.bound.isNone) || (e.2.mx.drains.any fun x => of x.2.launch && x.2.old)

/-- A running pass is aborted: 0 WRITABLE, 1 TRANSLATION, 2 REMAPPED, 3 UNCORRECTABLE; a new one starts after 1 ms (R422). -/
def State.abortSweep (s : State) (p why : Nat) : State :=
  if (s.part p).sweep.running then
    let t := (((s.setBit (digSwstat p) 0 false).setBit (digSwstat p) 1 true).setFld (digSwstat p) 2 2 why).modPart p fun y =>
      { y with sweep := { y.sweep with running := false, restart := some (s.now + 1000000) } }
    t.traceSweep p tyEnd (1 + why)
  else s

/-- A TDI that is CONFIG_LOCKED or RUN keeps its registers from PF0: the write is ignored and logged (R410). -/
def State.tdiLocked (s : State) (p : Nat) : Bool := (s.part p).tdi == 1 || (s.part p).tdi == 2
def State.logLocked (s : State) (p what : Nat) : State :=
  s.logRaise sevNotice (some p) srcRim (Config.logCode 0) (leBytes 4 what)

/-- PART_TLBINV_WRITE (R265, R410, R422): INV reads 1 until the invalidation completes, a write while it runs extends it, and a sweep's pass is aborted. -/
def execPartTlbinvWrite (part : Nat) (s : State) : Host.Outcome State Fault Refusal :=
  withUnit (okPart part) (s.pfStores (partTlbinv part) fun s =>
    if s.tdiLocked part then s.logLocked part (partTlbinv part)
    else ((s.setBit (partTlbinv part) 0 true).markOld part).abortSweep part 2)

/-- An event wait goes over to where its word lies now, and reads it there: a front end holds no translation from before an invalidation that has completed (R265, R266). A word that no longer meets R309 ends the wait as R309 refuses it at issue: DESIGN CHOICE (log entry 109). -/
def State.rebindWait (s : State) (p lid : Nat) : State :=
  match s.launch? lid with
  | none => s
  | some l =>
    match l.word with
    | none => s
    | some a =>
      if l.part = p ∧ l.phase = .running then
        match s.eventNow p (eAddr l.entry) with
        | .ok b => if a = b then s else s.setLaunch lid { l with word := some b, touched := true, polled := 0 }
        | .error f => s.finish lid (some (s.feFail l f.status (if f = .translation then rsEvent else 0)))
      else s

/-- TLB_INVALIDATION_DONE (R265): no agent holds an old translation, and no access that used one is left. -/
def execTlbInvalidationDone (part : Nat) (s : State) : Host.Outcome State Fault Refusal :=
  withUnit (okPart part) (
    if s.bit (partTlbinv part) 0 && !s.oldUse part && !s.staleUse part then
      (tkeys s.launches).foldl (fun t lid => t.rebindWait part lid) ((s.modPart part fun y => { y with tlb := [] }).setBit (partTlbinv part) 0 false)
    else s)

/-! L2 errors. -/

/-- 86,400 s in ns. -/
def dayNs : Nat := 86400 * 10 ^ 9

/-- Stamps of an array's last errors: the newest last, four at most (R272). -/
def stamp (xs : List Nat) (n now : Nat) : List Nat :=
  let ys := xs ++ [now]
  ys.drop (ys.length - n)

/-- `n` errors less than 86,400 s apart: the last less than that after the first (R272, R434). -/
def reachedN (xs : List Nat) (n : Nat) : Bool :=
  decide (n ≤ xs.length) && decide (xs.getLastD 0 < (xs.drop (xs.length - n)).headD 0 + dayNs)

/-- L2_CORRECTABLE_ERROR (R272, R274). -/
def execL2CorrectableError (die slice way : Nat) (s : State) : Host.Outcome State Fault Refusal :=
  withUnit (okDie die && decide (slice < 32 ∧ way < 16)) (
    if s.bit (l2WayStat die) way then s
    else (s.countReg (l2WayCe die slice way) 1).modDie die fun x =>
      { x with wayCe := tset x.wayCe way (stamp (tget [] x.wayCe way) 4 s.now) })

/-- The partition that owns a way of a die. -/
def State.wayOwner (s : State) (d w : Nat) : Option Nat :=
  (upTo 64).find? fun p => s.valid p && getBits (s.ent p).ways (16 * d + w) 1 == 1

/-- The lines of a die in a way. -/
def State.linesIn (s : State) (d w : Nat) : List (Nat × L2Line) := (s.die d).l2.filter fun e => e.2.way == w

/-- A way leaves service: its bits, its lines, its owner's mask, a record and a vector (R272, R407); a locked or running TDI that loses it moves to ERROR (R410, R458). -/
def State.dropWay (s : State) (d w : Nat) (ue : Bool) : State :=
  let t := (s.modDie d fun x => { x with l2 := x.l2.filter fun e => e.2.way != w }).setBit (l2WayStat d) w true
  let u := (t.setBit (l2WayStat d) 16 ue).logRaise sevAlert (s.wayOwner d w) srcRim 0x30 (leBytes 1 d ++ leBytes 1 w ++ leBytes 1 (if ue then 1 else 0))
  let v := u.irq 0 (384 + d)
  match s.wayOwner d w with
  | some p =>
    let e := v.ent p
    ({ v with chart := { v.chart with
      parts := tset v.chart.parts p { e with ways := e.ways - 2 ^ (16 * d + w) } } } : State).tdiError p
  | none => v

/-- Move a pinned line into another way of its partition, evicting what is not pinned there (R273). -/
def State.movePinned (s : State) (d : Nat) (ways : List Nat) (e : Nat × L2Line) : State :=
  match ways.find? fun w => !(s.die d).l2.any fun x => x.2.way == w && l2Set x.1 == l2Set e.1 && x.2.pinned with
  | some w => s.l2Fill d e.1 w { e.2 with way := w }
  | none => s

/-- A way disables itself for correctable errors (R272, R273): modified lines are written back and pinned ones move; with no other way on the die the partition is reset instead. -/
def State.disableWay (s : State) (d w : Nat) : State :=
  let lines := s.linesIn d w
  let back := (lines.filter fun e => e.2.modified && !e.2.pinned).foldl (fun t e => t.hbmAsk 4 e.1 e.2.sick) s
  match s.wayOwner d w with
  | none => back.dropWay d w false
  | some p =>
    let rest := (s.waysOf p d).filter (· != w)
    if rest = [] then (back.dropWay d w false).beginReset p trL2
    else ((lines.filter fun e => e.2.pinned).foldl (fun t e => t.movePinned d rest e) back).dropWay d w false

/-- L2_WAY_DISABLE (R272, R273): the fourth correctable error within 86,400 s. -/
def execL2WayDisable (die way : Nat) (s : State) : Host.Outcome State Fault Refusal :=
  withUnit (okDie die && decide (way < 16)) (
    if !s.bit (l2WayStat die) way && reachedN (tget [] (s.die die).wayCe way) 4 then s.disableWay die way else s)

/-- Lines of a partition's stage-channel buffers on a die are lost: the items that lay in them are poisoned (R417). The spec does not lay a buffer out, so which items those are is a free choice (log entry 86). -/
def State.poisonItems (s : State) (p d : Nat) : State :=
  ((upTo (s.ent p).chans.length).filter fun c => match s.chanEnt p c with
    | some (_, dst, _) => bufDie (s.ent p) dst == d
    | none => false).foldl (fun t c =>
      (upTo (t.stageChan p c).items.length).foldl (fun u i =>
        let r := u.freeBit
        if r.1 then r.2.setStageChan p c { r.2.stageChan p c with items := (r.2.stageChan p c).items.modify i fun x => { x with poison := true } } else r.2) t) s

/-- A way leaves service for an uncorrectable error (R273, R417): clean lines are dropped, modified ones go to HBM poisoned, and with them the commit-queue entries they hold; the items in lines of stage-channel buffers are poisoned, and the buffers take their lines again in another way. DESIGN CHOICE: the spec does not say what becomes of a buffer's lines (log entry 86). -/
def State.loseWay (s : State) (d w : Nat) : State :=
  let lines := s.linesIn d w
  let t := (lines.filter fun e => e.2.modified).foldl (fun (t : State) e => ((t.poisonLine e.1).hbmAsk 4 e.1 true).poisonEntries e.1) s
  let u := t.dropWay d w true
  match s.wayOwner d w with
  | some p =>
    let bufs := lines.filter fun e => decide (2 ^ 32 ≤ e.1)
    bufs.foldl (fun u e => u.pinLine p d e.1) (if bufs = [] then u else u.poisonItems p d)
  | none => u

/-- L2_UNCORRECTABLE_ERROR (R272, R273). -/
def execL2UncorrectableError (die way : Nat) (s : State) : Host.Outcome State Fault Refusal :=
  withUnit (okDie die && decide (way < 16)) (
    if s.bit (l2WayStat die) way then s
    else s.loseWay die way)

/-! The controllers (R275 to R281). -/

def State.trained (s : State) (c : Nat) : Bool := s.bit (hbmStat c) 0
/-- The channel serves requests: trained, not retired, not calibrating. -/
def State.serves (s : State) (c : Nat) : Bool := s.trained c && !s.chanRetired c && !s.bit (hbmStat c) 2

/-- The order of a request: rank 2 for LCR that arrived below the cap and for what has waited 20 µs, then writes above the high mark, then rank 3, 4 and 5 (R275 to R277). -/
def Chan.rank (c : Chan) (r : HbmReq) : Nat :=
  if r.promoted ∨ (r.cls = 2 ∧ r.late = false) then 4
  else if r.cls = 4 ∧ c.wrHigh = true then 5
  else if r.cls ≤ 3 then 6
  else if r.cls = 4 then 8
  else 10

/-- The index served next: the best rank, the oldest on a tie, and of one line the request that arrived first. -/
def Chan.next (c : Chan) : Option Nat :=
  match argmin (fun i => match c.reqs[i]? with
    | some r => c.rank r
    | none => 99) (upTo c.reqs.length) with
  | none => none
  | some i =>
    match c.reqs[i]? with
    | some r => c.reqs.findIdx? fun x => x.line == r.line
    | none => none

/-- An LCR read is pending. -/
def Chan.lcrPending (c : Chan) : Bool := c.reqs.any fun r => r.cls == 2

/-- Refreshes that are owed come before every other class (R275): they are performed as soon as no LCR read is pending, which is all that may hold them back (R278). -/
def Chan.refreshOwed (c : Chan) : Chan := if c.lcrPending then c else { c with postponed := [] }

/-- Calibration that is due starts once no LCR read is pending (R280). -/
def State.tryCalibrate (s : State) (c : Nat) : State :=
  let x := s.chan c
  if x.calDue.isSome && !x.lcrPending && s.serves c then (s.setBit (hbmStat c) 2 true).setBit (hbmStat c) 3 false else s

/-! A traffic generator's lines (R283 to R285). -/

def State.tgPat (s : State) (c : Nat) : Nat := s.fld (tgCtrl c) 4 3
def State.tgOp (s : State) (c : Nat) : Nat := s.fld (tgCtrl c) 7 2
def State.tgNpass (s : State) (c : Nat) : Nat := s.fld (tgCtrl c) 9 8
def State.tgStopErr (s : State) (c : Nat) : Bool := s.bit (tgCtrl c) 17
def State.tgStop (s : State) (c : Nat) : Bool := s.bit (tgCtrl c) 1

/-- `k` steps of the sequence b(n) = b(n - len) xor b(n - len + tap), over a window of its last `len` bits, oldest first. -/
def prbsRun (tap : Nat) : Nat → List Bool → List Bool
  | 0, w => w
  | k + 1, w => prbsRun tap k (w.drop 1 ++ [w.headD false != w.getD tap false])

/-- Byte `k` of a pseudo-random sequence (R284): PRBS-31 is x^31 + x^28 + 1, PRBS-15 x^15 + x^14 + 1. How the seed gives the first bits is free, and that a byte takes eight bits in turn, lowest first, is the model's choice (log entry 39). -/
def prbsByte (pat seed k : Nat) : Byte :=
  let len := if pat = 0 then 31 else 15
  let w := prbsRun (if pat = 0 then 3 else 1) (8 * k) ((upTo len).map (Config.prbsStart pat seed))
  BitVec.ofNat 8 ((upTo 8).foldl (fun a i => if w.getD i false then a + 2 ^ i else a) 0)

/-- The byte of the pattern at a channel offset (R284). -/
def State.tgByte (s : State) (c off : Nat) : Byte :=
  match s.tgPat c with
  | 2 => BitVec.ofNat 8 (off / 8 * 8 / 2 ^ (8 * (off % 8)))
  | 3 => Config.tgStride off
  | 4 =>
    let i := (off - s.reg64 (tgBase c)) % 32
    BitVec.ofNat 8 ((s.reg (tgUser c (i / 4))).toNat / 2 ^ (8 * (i % 4)))
  | p => prbsByte p (s.reg (tgSeed c)).toNat (off - s.reg64 (tgBase c))

/-- `n` bytes of the pattern. -/
def State.tgBytes (s : State) (c off n : Nat) : List Byte := (upTo n).map fun i => s.tgByte c (off + i)

/-- The 8-byte words of a line at a channel offset that do not hold the pattern. -/
def State.tgErrs (s : State) (c off : Nat) : List Nat :=
  ((upTo 16).map fun i => off + 8 * i).filter fun o => s.bytes (2 ^ 31 * c + o) 8 != s.tgBytes c o 8

/-- Lines of the range. -/
def State.tgLines (s : State) (c : Nat) : Nat := s.reg64 (tgLen c) / 128

/-- The error registers after a line with miscompares: their number, and the first of the run. -/
def State.tgReport (s : State) (c : Nat) (errs : List Nat) : State :=
  match errs with
  | [] => s
  | o :: _ =>
    let n := (s.reg (tgErrCnt c)).toNat
    let t := s.setReg (tgErrCnt c) (BitVec.ofNat 32 (min (n + errs.length) 0xFFFFFFFF))
    if n = 0 then
      (t.setReg64 (tgErrAddr c) o).setReg64 (tgErrXor c) (Nat.xor (leNat (s.tgBytes c o 8)) (leNat (s.bytes (2 ^ 31 * c + o) 8)))
    else t

/-- The number in its channel of a line of the range. -/
def State.tgNum (s : State) (c i : Nat) : Nat := s.reg64 (tgBase c) / 128 + i

/-- 32 ms in ns, and the activations of a row that pattern 3 allows itself in that time (R284). -/
def tgWindow : Nat := 32 * 10 ^ 6
def tgLimit : Nat := 64

/-- The lines of the range that pattern 3 may access next (R284): not yet accessed in the pass, in a row that has been activated fewer than 64 times in the last 32 ms, and in another bank than the access before. Every access counts as an activation of its row. Lines of another bank whose rows are warm are waited for; only where all that remains of the pass lies in the bank of the access before does it go on in that bank: DESIGN CHOICE (log entry 39). -/
def State.tgChoices (s : State) (c : Nat) : List Nat :=
  let x := s.chan c
  let cool := (upTo (s.tgLines c)).filter fun i => !x.tgSeen.contains i &&
    decide ((x.tgActs.filter fun a => a.1 == Config.hbmRow (s.tgNum c i) && decide (s.now < a.2 + tgWindow)).length < tgLimit)
  let away (i : Nat) : Bool := x.tgActs == [] || Config.hbmBank (s.tgNum c i) != Config.hbmBank (s.tgNum c x.tgAt)
  if (upTo (s.tgLines c)).any fun i => !x.tgSeen.contains i && away i then cool.filter away else cool

/-- The generator asks for line `i` of its range. -/
def State.tgSend (s : State) (c i : Nat) : State :=
  s.modChan c fun x => { x with
    tgAt := i, reqs := x.reqs ++ [{ cls := 5, line := (2 ^ 31 * c + s.reg64 (tgBase c)) / 128 + i, gt := s.now, gen := true, writes := s.tgOp c != 2 && !x.tgRead }] }

/-- The generator asks for its next line (R283): the lines ascend, but in pattern 3, where the next is a free choice among those that R284 allows, or waits for a row (R284). -/
def State.tgAsk (s : State) (c : Nat) : State :=
  if s.tgPat c = 3 then
    match s.tgChoices c with
    | [] => s.modChan c fun x => { x with tgHold := true }
    | xs =>
      let r := s.freeNat
      let i := xs.getD (r.1 % xs.length) 0
      (r.2.modChan c fun x => { x with
        tgHold := false
        tgSeen := x.tgSeen ++ [i]
        tgActs := (x.tgActs.filter fun a => decide (s.now < a.2 + tgWindow)) ++ [(Config.hbmRow (s.tgNum c i), s.now)] }).tgSend c i
  else s.tgSend c (s.chan c).tgPos

/-- A generator that waits for a row tries again (R284). -/
def State.tgRetry (s : State) (c : Nat) : State := if (s.chan c).tgRun && (s.chan c).tgHold then s.tgAsk c else s

/-- The generator's place after its line: the next line, the read of a pass that was written, or the next pass; and whether a pass is complete. -/
def Chan.tgNext (x : Chan) (lines op : Nat) : Chan × Bool :=
  if x.tgPos + 1 < lines then ({ x with tgPos := x.tgPos + 1 }, false)
  else if op = 0 ∧ x.tgRead = false then ({ x with tgPos := 0, tgRead := true, tgSeen := [] }, false)
  else ({ x with tgPos := 0, tgRead := false, tgSeen := [] }, true)

/-- The controller serves a generator's line (R283 to R285): it writes the pattern, or reads the line and compares. The run goes on but after its last pass, after STOP, and at a miscompare with STOPERR. -/
def State.tgLine (s : State) (c : Nat) : State :=
  let x := s.chan c
  let off := s.reg64 (tgBase c) + 128 * x.tgAt
  let reads := s.tgOp c == 2 || x.tgRead
  let errs := if reads then s.tgErrs c off else []
  let t := if reads then s.tgReport c errs else s.writeMem (2 ^ 31 * c + off) (s.tgBytes c off 128)
  let n := x.tgNext (s.tgLines c) (s.tgOp c)
  let passes := s.reg64 (tgPasses c) + (if n.2 then 1 else 0)
  let u := (t.modChan c fun y => (y.tgNext (s.tgLines c) (s.tgOp c)).1).setReg64 (tgPasses c) passes
  if s.tgStop c || (s.tgStopErr c && errs != []) || (n.2 && passes == s.tgNpass c) then u else u.tgAsk c


/-! What a read of the array meets (R415). -/

/-- Stamps of uncorrectable errors, one for each row, the newest last, eight at most (R434). -/
def rowStamp (xs : List (Nat × Nat)) (row now : Nat) : List (Nat × Nat) :=
  let ys := (xs.filter fun e => e.1 != row) ++ [(row, now)]
  ys.drop (ys.length - 8)

/-- An error is counted, up to a register's limit. -/
def count1 (n : Nat) : Nat := min (n + 1) 0xFFFFFFFF

/-- The controller's ECC corrected an error of a line: it is counted. -/
def State.hbmCorrected (s : State) (c : Nat) : State := s.modChan c fun x => { x with ceCount := count1 x.ceCount }

/-- The controller's ECC finds a line uncorrectable (R415, R417, R434): it is poisoned and with it the commit-queue entries it holds, its row is counted, and the channel's vector is raised (R407). -/
def State.hbmUncorrectable (s : State) (c line : Nat) : State :=
  (((s.poisonLine line).poisonEntries line).modChan c fun x =>
    { x with ueCount := count1 x.ueCount, ueRows := rowStamp x.ueRows (line % 2 ^ 24 / 32) s.now }).irq 0 (128 + c)

/-- What a read of a line gives. -/
def State.hbmRead (s : State) (c line : Nat) (err : EccResult) : State :=
  match err with
  | .clean => s
  | .corrected => s.hbmCorrected c
  | .uncorrectable => s.hbmUncorrectable c line

/-- An uncorrectable line that patrol scrub finds (R416): the line is poisoned, or, where L2 or a write that waits has its data, only the cells of the array are. -/
def State.scrubFound (s : State) (c line : Nat) : State :=
  if s.sheltered line then
    (s.modChan c fun x => { x with
      spoilt := sins x.spoilt line, ueCount := count1 x.ueCount, ueRows := rowStamp x.ueRows (line % 2 ^ 24 / 32) s.now }).irq 0 (128 + c)
  else s.hbmUncorrectable c line

/-- The lines of a channel. -/
def chanLines : Nat := 12582912
/-- The first DPA of a line of a channel. -/
def lineDpa (c i : Nat) : Nat := 2 ^ 31 * c + 128 * i

/-- The lines scrubbed in the pass stand behind the share of it that has elapsed (R279). -/
def State.scrubLate (s : State) (c : Nat) : Bool :=
  s.serves c && decide ((s.reg (hbmScrubPos c)).toNat * dayNs < (s.now - (s.chan c).scrubGt) * chanLines)

/-- A late scrub read, of rank 3, is the highest that stands: writes, copies and what comes after them wait for it (R275, R279). -/
def State.scrubFirst (s : State) (c : Nat) : Bool := s.scrubLate c && (s.chan c).reqs.all fun r => decide (8 ≤ (s.chan c).rank r)

/-- A write of a line has reached the array: the cells hold it, or the poison that it carries (R415, R416). -/
def Chan.wrote (x : Chan) (r : HbmReq) : Chan := if r.bad then x else { x with spoilt := x.spoilt.filter (· != r.line) }

/-- The array has given a line for an agent at the home slice that waits for it: where L2 does not hold it, it is handed over from here (R268). -/
def State.handOver (s : State) (c : Nat) (r : HbmReq) : State :=
  if r.hold && (tfind (s.die (dieOfChan c)).l2 r.line).isNone then s.modChan c fun x => { x with fetched := sins x.fetched r.line } else s

/-- The controller serves one request, `err` what the array's code finds if it is a read; then what no LCR read holds back any more takes its turn: refreshes that are owed, and calibration (R275, R278, R280). Nothing below rank 3 is served while a late scrub read stands. -/
def State.serveHbm (s : State) (c : Nat) (err : EccResult) : State :=
  let x := s.chan c
  let turn (t : State) : State := ((t.modChan c Chan.refreshOwed).tgRetry c).tryCalibrate c
  match if s.scrubFirst c || !s.lamp (lampStack (c / 32)) then none else x.next with
  | some i =>
    match x.reqs[i]? with
    | some r =>
      let used := if r.cls = 2 then Config.linePs else 0
      let t := s.setChan c { x with reqs := x.reqs.eraseIdx i, lcrUsed := x.lcrUsed + used }
      let u := if r.writes then t.modChan c fun y => y.wrote r else (t.hbmRead c r.line err).handOver c r
      turn (if r.gen && x.tgRun then u.tgLine c else u)
    | none => turn s
  | none => turn s

/-- LCR_PERIOD_START (R276): a period begins at each multiple of 1 µs. -/
def execLcrPeriodStart (ch : Nat) (s : State) : Host.Outcome State Fault Refusal :=
  withUnit (okChan ch) (
    if (s.chan ch).period < s.now / 1000 then
      s.modChan ch fun c => { c with period := s.now / 1000, lcrUsed := 0, lcrDown := false }
    else s)

/-- LCRCAP percent of 1 µs of the data bus, in ps. -/
def State.lcrCap (s : State) (c : Nat) : Nat := s.fld (hbmCfg c) 0 7 * 10000

/-- LCR_CAP_REACHED (R276). -/
def execLcrCapReached (ch : Nat) (s : State) : Host.Outcome State Fault Refusal :=
  withUnit (okChan ch) (
    if s.lcrCap ch ≤ (s.chan ch).lcrUsed ∧ (s.chan ch).period = s.now / 1000 then s.modChan ch fun c => { c with lcrDown := true } else s)

/-- STARVATION_PROMOTE (R277). -/
def execStarvationPromote (ch idx : Nat) (s : State) : Host.Outcome State Fault Refusal :=
  withUnit (okChan ch) (s.modChan ch fun c => { c with
    reqs := c.reqs.modify idx fun r => if (3 ≤ r.cls ∨ r.late = true) ∧ r.gt + 20000 ≤ s.now then { r with promoted := true } else r })

/-- Writes in the queue. -/
def Chan.writes (c : Chan) : Nat := (c.reqs.filter fun r => r.cls == 4).length

/-- WRITE_QUEUE_HIGH (R277): 48 entries. -/
def execWriteQueueHigh (ch : Nat) (s : State) : Host.Outcome State Fault Refusal :=
  withUnit (okChan ch) (if 48 ≤ (s.chan ch).writes then s.modChan ch fun c => { c with wrHigh := true } else s)

/-- WRITE_QUEUE_LOW (R277): 16 entries. -/
def execWriteQueueLow (ch : Nat) (s : State) : Host.Outcome State Fault Refusal :=
  withUnit (okChan ch) (if (s.chan ch).writes ≤ 16 then s.modChan ch fun c => { c with wrHigh := false } else s)

/-- A refresh of a bank: postponed while an LCR read is pending, as far as JEDEC HBM4 permits, else performed with those owed (R278). -/
def State.refresh (s : State) (c bank : Nat) : State :=
  let x := s.chan c
  let owed := tget 0 x.postponed bank
  if x.lcrPending && decide (owed < Config.refreshMax) then s.setChan c { x with postponed := tset x.postponed bank (owed + 1) }
  else s.setChan c { x with postponed := tdel x.postponed bank }

/-- HBM_REFRESH (R278). -/
def execHbmRefresh (ch bank : Nat) (s : State) : Host.Outcome State Fault Refusal :=
  withUnit (okChan ch) (if s.serves ch then s.refresh ch bank else s)

/-! Patrol scrub (R279, R416). -/

/-- The next scrub read is the highest request of the channel (R275, R279): rank 6, or rank 3 when scrub is late. -/
def State.scrubTurn (s : State) (c : Nat) : Bool :=
  (s.chan c).reqs.all fun r => s.scrubLate c && decide (6 ≤ (s.chan c).rank r)

/-- The next line is read: corrected, or left poisoned and logged. -/
def State.scrub (s : State) (c : Nat) (err : EccResult) : State :=
  let pos := (s.reg (hbmScrubPos c)).toNat
  let a := lineDpa c pos
  let u := if err = .uncorrectable then s.scrubFound c (a / 128) else s.hbmRead c (a / 128) err
  let t := if err = .uncorrectable then u.logRaise sevAlert none srcRim 0x32 (leBytes 8 a) else u
  let next := (pos + 1) % chanLines
  let u := t.setReg (hbmScrubPos c) (BitVec.ofNat 32 next)
  if next = 0 then u.modChan c fun x => { x with scrubGt := x.scrubGt + dayNs } else u

/-- PATROL_SCRUB_READ (R279): when no request of a higher rank waits; a retired channel is not scrubbed. -/
def execPatrolScrubRead (ch : Nat) (err : EccResult) (s : State) : Host.Outcome State Fault Refusal :=
  withUnit (okChan ch) (if s.serves ch && s.scrubTurn ch then s.scrub ch err else s)

/-! Calibration (R280). -/

/-- CALIBRATION_DUE: every CALINT ms; it starts at once when no LCR read is pending. -/
def execCalibrationDue (ch : Nat) (s : State) : Host.Outcome State Fault Refusal :=
  withUnit (okChan ch) (
    let x := s.chan ch
    let due := x.calLast + s.fld (hbmCfg ch) 8 8 * 10 ^ 6
    if x.calDue = none ∧ due ≤ s.now ∧ s.serves ch = true then (s.setChan ch { x with calDue := some due }).tryCalibrate ch else s)

/-- CALIBRATION_FORCED: 4 ms after it fell due, whatever is pending. -/
def execCalibrationForced (ch : Nat) (s : State) : Host.Outcome State Fault Refusal :=
  withUnit (okChan ch) (match (s.chan ch).calDue with
    | some due =>
      if due + 4 * 10 ^ 6 ≤ s.now ∧ s.serves ch = true then (s.setBit (hbmStat ch) 2 true).setBit (hbmStat ch) 3 true else s
    | none => s)

/-- CALIBRATION_END. -/
def execCalibrationEnd (ch : Nat) (s : State) : Host.Outcome State Fault Refusal :=
  withUnit (okChan ch) (match (s.chan ch).calDue with
    | some due =>
      if s.bit (hbmStat ch) 2 then
        (s.modChan ch fun c => { c with calDue := none, calLast := due }).setBit (hbmStat ch) 2 false
      else s
    | none => s)

/-! Retirement of a channel (R434 to R436). -/

/-- Eight uncorrectable errors in distinct rows within 86,400 s. -/
def Chan.rowsWorn (c : Chan) : Bool := reachedN (c.ueRows.map (·.2)) 8
/-- Three retrainings within 1 s failed. -/
def Chan.untrainable (c : Chan) : Bool :=
  decide (3 ≤ c.retrain.length) && decide (c.retrain.getLastD 0 ≤ (c.retrain.drop (c.retrain.length - 3)).headD 0 + 10 ^ 9)

/-- What the RETIRED record calls each unit (log entry 45). -/
def ukCore : Nat := 0
def ukChannel : Nat := 1
def ukLink : Nat := 2
def ukEngine : Nat := 3
def ukCopy : Nat := 4
def ukColl : Nat := 5
def ukDig : Nat := 6

/-- The record of a retirement (R434). -/
def State.logRetired (s : State) (kind n cause : Nat) : State :=
  s.logRaise sevFatal none srcRim 0x31 (leBytes 1 kind ++ leBytes 2 n ++ leBytes 1 cause)

/-- A channel is retired: its lines leave L2, the reservations on them are lost (R255), waits on its words are evaluated again. -/
def State.retireChan (s : State) (c cause : Nat) : State :=
  let t : State := { s with
    chart := { s.chart with mChans := s.chart.mChans ||| 2 ^ c }
    cores := s.cores.map fun (e : Nat × Core) => (e.1, e.2.breakResv fun _ _ r => !r.isLocal && r.granule * r.size / 2 ^ 31 == c) }
  let u := (t.setBit (hbmStat c) 1 true).modDie (dieOfChan c) fun x => { x with l2 := x.l2.filter fun e => e.1 / 2 ^ 24 != c }
  let v : State := { u with launches := u.launches.map fun (e : Nat × Launch) =>
    (e.1, match e.2.word with
      | some w => if e.2.armed && w / 2 ^ 31 == c then { e.2 with touched := true } else e.2
      | none => e.2) }
  ((v.modChan c fun x => { x with reqs := [], fetched := [], spoilt := [] }).logRetired ukChannel c cause).irq 0 (128 + c)

/-- CHANNEL_RETIRE (R434). -/
def execChannelRetire (ch : Nat) (s : State) : Host.Outcome State Fault Refusal :=
  withUnit (okChan ch) (
    if getBits s.chart.mChans ch 1 = 1 then s
    else if (s.chan ch).rowsWorn then s.retireChan ch 0
    else if (s.chan ch).untrainable then s.retireChan ch 1
    else s)

/-- HBM_TRAINING_LOSS (R434): TRAINED clears, and a retraining repairs it or is counted. -/
def execHbmTrainingLoss (ch : Nat) (repaired : Bool) (s : State) : Host.Outcome State Fault Refusal :=
  withUnit (okChan ch) (
    if s.chanRetired ch then s
    else if repaired then (s.modChan ch fun c => { c with retrain := [] }).setBit (hbmStat ch) 0 true
    else (s.modChan ch fun c => { c with retrain := stamp c.retrain 3 s.now }).setBit (hbmStat ch) 0 false)

/-! Traffic generators (R283 to R285). -/

/-- START is refused (R283, R285). R285 gives REFUSED for a reserved pattern, and calls OP 3 reserved and a LEN of 0 no length without saying what START then does: that it is refused is the model's (DESIGN CHOICE, log entry 39). -/
def State.tgRefused (s : State) (c : Nat) : Bool :=
  let a := s.reg64 (tgBase c)
  let n := s.reg64 (tgLen c)
  (s.validParts.any fun p => getBits (s.ent p).hbmch c 1 == 1) || a % 128 != 0 || n % 128 != 0 || n == 0 ||
  decide (0x5F000000 < a + n ∨ 4 < s.tgPat c ∨ s.tgOp c = 3)

/-- HBM_TG_START (R283, R285): the results clear, and the first line is asked for. -/
def execHbmTgStart (ch : Nat) (s : State) : Host.Outcome State Fault Refusal :=
  withUnit (okChan ch) (s.pfStores (tgCtrl ch) fun s =>
    if (s.chan ch).tgRun then s
    else if s.tgRefused ch then s.setBit (tgCtrl ch) 3 true
    else
      let t := s.modChan ch fun c => { c with tgRun := true, tgRead := false, tgPos := 0, tgSeen := [], tgHold := false }
      let u := ((t.setReg (tgErrCnt ch) 0).setReg64 (tgErrAddr ch) 0).setReg64 (tgErrXor ch) 0
      let v := (((u.setReg64 (tgPasses ch) 0).setBit (tgCtrl ch) 0 true).setBit (tgCtrl ch) 2 false).setBit (tgCtrl ch) 3 false
      (v.setBit (hbmStat ch) 5 true).tgAsk ch)

/-- HBM_TG_STOP (R285): STOP reads 1, and the run stops after the current line. With no run it has no effect. -/
def execHbmTgStop (ch : Nat) (s : State) : Host.Outcome State Fault Refusal :=
  withUnit (okChan ch) (s.pfStores (tgCtrl ch) fun s => if (s.chan ch).tgRun then s.setBit (tgCtrl ch) 1 true else s)

/-- The generator asks for no further line. -/
def Chan.tgDone (x : Chan) : Bool := x.tgRun && !x.tgHold && !(x.reqs.any (·.gen))

/-- HBM_TG_RUN_END (R285): after NPASS passes, after STOP, or at the first miscompare with STOPERR. -/
def execHbmTgRunEnd (ch : Nat) (s : State) : Host.Outcome State Fault Refusal :=
  withUnit (okChan ch) (
    if (s.chan ch).tgDone then
      let v := s.modChan ch fun x => { x with tgRun := false }
      (((v.setBit (tgCtrl ch) 0 false).setBit (tgCtrl ch) 1 false).setBit (tgCtrl ch) 2 true).setBit (hbmStat ch) 5 false
    else s)

/-! Die-to-die links (R27). -/

/-- D2D_LINK_FAIL (R27): the route changes for accesses issued after the record. -/
def execD2dLinkFail (n : Nat) (s : State) : Host.Outcome State Fault Refusal :=
  withUnit (decide (n < 4)) (
    if s.d2d.contains n then s
    else ({ s with d2d := sins s.d2d n } : State).logRaise sevAlert none srcRim 0x33 (leBytes 1 n ++ leBytes 8 s.now))

end Sys2Proof.Machine
end

