-- ==== Sys2Proof/Machine/Copies.lean ====
section
/-! DEFINITION. The copy engines (R286 to R292): requests of 4 KiB, what they read and write, digest folds, and their ends. -/

namespace Sys2Proof.Machine

/-! The copy's own order: units of bytes that are contiguous at both ends (R288). -/

/-- Bytes of a unit. -/
def cdUnit (d : List Byte) : Nat :=
  match cdMode d with
  | 0 | 3 => cdN d 0
  | 1 => cdEsize d
  | _ => if cdXpose d then cdEsize d else cdN d 0 * cdEsize d

/-- How many units a copy has. -/
def cdUnits (d : List Byte) : Nat :=
  match cdMode d with
  | 0 | 3 => cdN d 1 * cdN d 2
  | 1 => cdN d 0 * cdN d 1 * cdN d 2
  | _ => if cdXpose d then cdTiles d * cdN d 2 * cdN d 0 * cdN d 1 else cdCount d

def cdTotal (d : List Byte) : Nat := cdUnit d * cdUnits d

/-- Row, column and tile of a transposed unit: N1 rows within N0 columns within tiles. -/
def cdRow (d : List Byte) (u : Nat) : Nat := u % cdN d 1
def cdCol (d : List Byte) (u : Nat) : Nat := u / cdN d 1 % cdN d 0
def cdTileOf (d : List Byte) (u : Nat) : Nat := u / (cdN d 1 * cdN d 0)

/-- An address modulo 2^64. -/
def addr64 (x : Int) : Nat := intBits 64 x

/-- Where a unit goes. A digest fold moves no unit. -/
def cdDstOf (d : List Byte) (u : Nat) : Nat :=
  let b : Int := cdDst d
  match cdMode d with
  | 0 => addr64 (b + (u % cdN d 1 : Nat) * cdStride d 2 + (u / cdN d 1 : Nat) * cdStride d 3)
  | 1 => addr64 (b + (cdTileOf d u : Nat) * cdStride d 3 + (cdCol d u : Nat) * cdStride d 2 + (cdRow d u * cdEsize d : Nat))
  | _ =>
    if cdXpose d then addr64 (b + (cdTileOf d u : Nat) * cdStride d 3 + (cdCol d u : Nat) * cdStride d 2 + (cdRow d u * cdEsize d : Nat))
    else addr64 (b + (u : Nat) * cdStride d 2)

/-- Where a unit comes from: an address, or a byte offset in the row of a token; a row beyond the count is zero. -/
inductive CopySrc where
  | at_ (va : Nat)
  | token (i off : Nat)
  | zero
  deriving DecidableEq, Repr

def cdSrcOf (d : List Byte) (u : Nat) : CopySrc :=
  let b : Int := cdSrc d
  match cdMode d with
  | 0 | 3 => .at_ (addr64 (b + (u % cdN d 1 : Nat) * cdStride d 0 + (u / cdN d 1 : Nat) * cdStride d 1))
  | 1 => .at_ (addr64 (b + (cdTileOf d u : Nat) * cdStride d 1 + (cdRow d u : Nat) * cdStride d 0 + (cdCol d u * cdEsize d : Nat)))
  | _ =>
    if cdXpose d then
      let i := cdTileOf d u / cdN d 2 * cdN d 1 + cdRow d u
      if i < cdCount d then .token i ((cdTileOf d u % cdN d 2 * cdN d 0 + cdCol d u) * cdEsize d) else .zero
    else .token u 0

/-- The pieces of the `n` bytes from `pos`: unit, first byte in it and length. -/
def cdPieces (d : List Byte) : Nat → Nat → Nat → List (Nat × Nat × Nat)
  | 0, _, _ => []
  | fuel + 1, pos, n =>
    if n = 0 then []
    else
      let z := max 1 (cdUnit d)
      let m := min n (z - pos % z)
      (pos / z, pos % z, m) :: cdPieces d fuel (pos + m) (n - m)

/-! Gathers. -/

/-- The die of a copy launch's engine, which translates by that die's shared cache (R265). -/
def Launch.copyDie (l : Launch) : Nat := (l.copy.map (·.die)).getD 0
def Launch.copyWalker (l : Launch) : Walker := .die l.copyDie

/-- The row of a token: its page by the KV page table, which ends the copy when its entry is invalid; its reserved bits are ignored (R5, R288, R292). Here and below, a failure of status 0 is none: what a cut ring holds up waits (log entry 77). -/
def State.tokenRow (s : State) (l : Launch) (d : List Byte) (i : Nat) : Except Byte Nat × State :=
  let u := cdFirst d + i
  match s.fetchBytes l.part (cdTable d + 8 * (u / 256)) 8 l.copyWalker with
  | (.error f, t) => (.error f.status, t)
  | (.ok bs, t) =>
    let e := leNat bs
    if getBits e 0 1 = 0 then (.error stTranslation, t)
    else (.ok (addr64 ((getBits e 8 34 * 256 : Nat) + (u % 256 : Nat) * cdStride d 0 + (cdSrc d : Nat))), t)

/-- A gathered row overlaps an output window (R290). -/
def Launch.rowMeets (l : Launch) (d : List Byte) (row : Nat) : Bool :=
  l.wins.any fun x => x.meets (cdSrcRemote d) row (row + cdN d 2 * cdN d 0 * cdEsize d)

/-- A remote range that no copy may reach: one in a collective aperture, where only a st.remote contributes, or a group ID with a nonzero PART (R264, R381). -/
def remoteBad (a n : Nat) : Bool :=
  inCollective (rgaVa a) || inCollective (rgaVa (a + n - 1)) || (isGroupId (rgaDev a) && rgaPart a != 0)

/-- The source address of a piece; a remote one must name a single module. -/
def State.pieceSrc (s : State) (l : Launch) (d : List Byte) (x : Nat × Nat × Nat) : Except Byte (Option Nat) × State :=
  let at_ (t : State) (va : Nat) : Except Byte (Option Nat) × State :=
    if cdSrcRemote d && (remoteBad va x.2.2 || isGroupId (rgaDev va)) then (.error stTranslation, t) else (.ok (some va), t)
  match cdSrcOf d x.1 with
  | .at_ va => at_ s (addr64 ((va + x.2.1 : Nat) : Int))
  | .zero => (.ok none, s)
  | .token i off =>
    match s.tokenRow l d i with
    | (.error st, t) => (.error st, t)
    | (.ok row, t) =>
      if l.rowMeets d row then (.error stWindow, t) else at_ t (addr64 ((row + off + x.2.1 : Nat) : Int))

/-- The source addresses of all pieces; the first failure ends the request. -/
def State.pieceSrcs (s : State) (l : Launch) (d : List Byte) : List (Nat × Nat × Nat) → Except Byte (List (Option Nat)) × State
  | [] => (.ok [], s)
  | x :: xs =>
    match s.pieceSrc l d x with
    | (.error st, t) => (.error st, t)
    | (.ok a, t) =>
      match t.pieceSrcs l d xs with
      | (.error st, u) => (.error st, u)
      | (.ok as, u) => (.ok (a :: as), u)

/-! Reading and writing. -/

/-- The class of a copy's reads (R275). -/
def cdClass (d : List Byte) : Nat := if cdLcr d then 2 else 5

/-- Ask for the lines of a local source (R275). -/
def State.askSource (s : State) (l : Launch) (d : List Byte) (ps : List (Tr × Nat)) : State :=
  ps.foldl (fun t e => match e.1.tgt with
    | .hbm a => t.l2Touch l.part a e.2 false (cdClass d)
    | _ => t) s

/-- Bytes of a local source. -/
def State.copyRead (s : State) (l : Launch) (d : List Byte) (va n : Nat) : Except Byte (List Byte) × State :=
  match s.translSpan l.part va n .read l.copyWalker with
  | (.error f, t) => (.error f.status, t)
  | (.ok ps, t) =>
    if ps.any fun e => t.poisonedAt e.1.tgt e.2 then (.error stEcc, t.askHost (ps.map fun e => (e.1.tgt, e.2)))
    else
      let r := ps.foldl (fun (a : List Byte × State) e =>
        let x := a.2.readAt e.1.tgt e.2
        (a.1 ++ x.1, x.2)) ([], t.askSource l d ps)
      (.ok r.1, r.2)

/-- Write a local destination, as a group's store would (R291): of a Device-Strict page with EA 0 the home slice writes the line to the array at once, and behind a write to host memory goes a zero-length read, whose completion the launch waits for before it commits (R230, R246). -/
def State.copyWrite (s : State) (lid : Nat) (l : Launch) (d : List Byte) (va : Nat) (bs : List Byte) : Option Byte × State :=
  match s.translSpan l.part va bs.length .write l.copyWalker with
  | (.error f, t) => (some f.status, t)
  | (.ok ps, t) =>
    let sync := (ps.filter fun e => e.1.mt && !e.1.ea).map fun e => (e.1.tgt.key, e.2)
    let u := (ps.foldl (fun (a : List Byte × State) e =>
      let u := a.2.writeAt e.1.tgt (a.1.take e.2)
      (a.1.drop e.2, match e.1.tgt with
        | .hbm x => u.l2Touch l.part x e.2 true 5 (cdEvict d)
        | _ => u)) (bs, t)).2
    (none, if sync = [] then u else (u.syncOut l.part sync).modLaunch lid fun y => { y with owed := y.owed ++ sync.filter fun x => decide (2 ^ 64 ≤ x.1) })

/-- The bytes of one piece at offset `at_` of its request. -/
def State.pieceBytes (s : State) (l : Launch) (d : List Byte) (r : CopyReq) (at_ n : Nat) (src : Option Nat) : Except Byte (List Byte) × State :=
  match src with
  | none => (.ok (List.replicate n 0), s)
  | some va =>
    if cdSrcRemote d then (.ok ((upTo n).map fun i => (mget? r.data (at_ + i)).getD 0), s)
    else s.copyRead l d va n

/-- Move or fold the pieces of a request, in order, until one fails; `at_` is the offset of the next in the request. -/
def State.movePieces (s : State) (lid : Nat) (l : Launch) (d : List Byte) (r : CopyReq) (at_ : Nat) : List ((Nat × Nat × Nat) × Option Nat) → Option Byte × State
  | [] => (none, s)
  | (x, src) :: xs =>
    match s.pieceBytes l d r at_ x.2.2 src with
    | (.error st, t) => (some st, t)
    | (.ok bs, t) =>
      let next (u : State) : Option Byte × State := u.movePieces lid l d r (at_ + x.2.2) xs
      if cdMode d = 3 then
        let salt := t.reg64 (digSalt l.part)
        let va := rgaVa (src.getD 0)
        let lanes := (upTo (x.2.2 / 128)).map fun i => lineLanes salt (va + 128 * i) (slice bs (128 * i) 128)
        next (t.modLaunch lid fun y => { y with copy := y.copy.map fun (c : CopyRun) => { c with
          digA := lanes.foldl (fun a e => a + e.1) c.digA
          digB := lanes.foldl (fun a e => a + e.2) c.digB } })
      else if cdDstRemote d then next t
      else
        match t.copyWrite lid l d (addr64 ((cdDstOf d x.1 + x.2.1 : Nat) : Int)) bs with
        | (some st, u) => (some st, u)
        | (none, u) => next u

/-! Where a request's bytes are. -/

/-- Where the pages of a range lie, by the tables as they stand: each piece of 4 KiB, with its bytes. -/
def State.placesOf (s : State) (p va n : Nat) (acc : TAcc) : List (Target × Nat) :=
  (upTo ((va % 4096 + n + 4095) / 4096)).filterMap fun i =>
    let a := if i = 0 then va else va / 4096 * 4096 + 4096 * i
    match s.translNow p a acc with
    | .ok tr => some (tr.tgt, min (va + n) (va / 4096 * 4096 + 4096 * (i + 1)) - a)
    | .error _ => none

/-- The dies that hold them; a host page is reached over the engine's own die. -/
def State.homesOf (s : State) (p d va n : Nat) (acc : TAcc) : List Nat := (s.placesOf p va n acc).map fun x => x.1.home d

/-- The places of the local sources of some pieces. -/
def State.sourcesOf (s : State) (l : Launch) (d : List Byte) (ps : List ((Nat × Nat × Nat) × Option Nat)) : List (Target × Nat) :=
  if cdSrcRemote d then [] else ps.flatMap fun x => match x.2 with
    | some va => s.placesOf l.part va x.1.2.2 .read
    | none => []

/-! Requests. -/

/-- Change a launch's copy record. -/
def State.modCopy (s : State) (lid : Nat) (f : CopyRun → CopyRun) : State :=
  s.modLaunch lid fun l => { l with copy := l.copy.map f }

/-- The messages that read a remote source: each piece in aligned blocks of 256 bytes, with their offsets in the request. -/
def rdBlocks : Nat → Nat → Nat → Nat → List (Nat × Nat × Nat)
  | 0, _, _, _ => []
  | fuel + 1, at_, a, n =>
    if n = 0 then []
    else
      let m := min n (256 - a % 256)
      (at_, a, m) :: rdBlocks fuel (at_ + m) (a + m) (n - m)

def readBlocks : Nat → List ((Nat × Nat × Nat) × Option Nat) → List (Nat × Nat × Nat)
  | _, [] => []
  | at_, (x, src) :: xs =>
    (match src with
     | some a => rdBlocks (x.2.2 / 256 + 2) at_ a x.2.2
     | none => []) ++ readBlocks (at_ + x.2.2) xs

/-- The bytes that go to a remote destination; the first failure ends the request. -/
def State.gatherWrites (s : State) (l : Launch) (d : List Byte) (r : CopyReq) : List ((Nat × Nat × Nat) × Option Nat) → Except Byte (List LaneWrite) × State
  | [] => (.ok [], s)
  | (x, src) :: xs =>
    match s.pieceBytes l d r 0 x.2.2 src with
    | (.error st, t) => (.error st, t)
    | (.ok bs, t) =>
      match t.gatherWrites l d r xs with
      | (.error st, u) => (.error st, u)
      | (.ok ws, u) =>
        let a := addr64 ((cdDstOf d x.1 + x.2.1 : Nat) : Int)
        if remoteBad a x.2.2 then (.error stTranslation, u)
        else (.ok ({ lane := 0, va := a, tgt := .remote a, data := bs } :: ws), u)

/-- Send a request's messages; one with no path is refused (R292). -/
def State.sendCopy (s : State) (lid : Nat) (l : Launch) (e id : Nat) (read : Bool) (ms : List (Nat × Msg)) : State :=
  ms.foldl (fun t m =>
    let r : RReq := {
      part := l.part, epoch := m.2.epoch, launch := lid, run := l.run, core := e, load := id, dst := m.2.dst, gt := t.now, kind := 3,
      msg := m.2, site := ⟨0, 0, 0, m.1, 0⟩ }
    let u := t.sendReq (e / 16) r read
    if u.1 then u.2 else u.2.refuse r) s

/-- Enter a request, and send what it sends; `none` where the router has no room. -/
def State.openReq (s : State) (lid : Nat) (l : Launch) (c : CopyRun) (e : Nat) (r : CopyReq) (read : Bool) (ms : List (Nat × Msg)) : Option State :=
  let x := s.copyEng e
  if ms != [] && !(s.hasSlots (e / 16) ms.length read && ms.all fun m => s.roomFor (e / 16) m.2.dst ms.length) then none
  else
    let t := if c.pos = 0 then s.traceLaunch (engCopy e) tyBegin l 0 else s
    let u := t.setCopyEng e { x with nextId := x.nextId + 1, launches := x.launches.filter (· != lid) ++ [lid] }
    let v := u.modCopy lid fun c => { c with
      pos := c.pos + r.len
      sent := decide (cdTotal c.desc ≤ c.pos + r.len)
      out := tset c.out x.nextId { r with left := ms.length } }
    some (v.sendCopy lid l e x.nextId read ms)

/-- The next request of a launch (R286, R288). What goes to another module is read first, once its lines are there. -/
def State.nextReq (s : State) (e lid : Nat) : Option State :=
  match s.launch? lid with
  | none => none
  | some l =>
    match l.copy with
    | none => none
    | some c =>
      if l.phase = .running ∧ l.fail.isNone ∧ l.hung = 0 ∧ c.sent = false then
        let d := c.desc
        let n := min 4096 (cdTotal d - c.pos)
        let ps := cdPieces d (n + 1) c.pos n
        let r : CopyReq := { pos := c.pos, len := n, cut := s.d2d }
        if cdSrcRemote d then
          match s.pieceSrcs l d ps with
          | (.error st, t) => if st = stOk then none else t.openReq lid l c e { r with fail := some st } true []
          | (.ok as, t) =>
            t.openReq lid l c e r true ((readBlocks 0 (ps.zip as)).map fun b => (b.1, t.request mRd 0 l.part l.run b.2.1 b.2.2 []))
        else if cdDstRemote d && cdMode d != 3 then
          match s.pieceSrcs l d ps with
          | (.error st, t) => if st = stOk then none else t.openReq lid l c e { r with fail := some st } false []
          | (.ok as, t) =>
            let xs := t.sourcesOf l d (ps.zip as)
            if xs.any fun x => !t.crosses r.cut .copyRead .readData l.copyDie (x.1.home l.copyDie) then none
            else if t.linesHere xs = false then
              (if (hbmLines xs).all fun k => t.lineHere k || t.lineWaits k then none else some (t.askLines l.part (cdClass d) xs))
            else
            match (t.takeLines xs).gatherWrites l d r (ps.zip as) with
            | (.error st, u) => if st = stOk then none else u.openReq lid l c e { r with fail := some st } false []
            | (.ok ws, u) => u.openReq lid l c e r false ((u.writeMsgs false (eTrapx l.entry) l.part l.run ws).map (0, ·))
        else s.openReq lid l c e r false []
      else none

/-- COPY_REQUEST (R286): an engine serves its launches in turn, while its die's lamp is lit (R39, R487). -/
def execCopyRequest (engine : Nat) (s : State) : Host.Outcome State Fault Refusal :=
  withUnit (decide (engine < 64)) (if s.lamp (lampDie (engine / 16)) then (firstStep (s.nextReq engine) (s.copyEng engine).launches).getD s else s)

/-! Ends of requests. -/

/-- The launch and request of an engine with a number. -/
def State.copyReq? (s : State) (e id : Nat) : Option (Nat × Launch × CopyReq) :=
  (s.copyEng e).launches.findSome? fun lid =>
    match s.launch? lid with
    | some l => (l.copy.bind fun c => tfind c.out id).map fun r => (lid, l, r)
    | none => none

/-- The dies of a request's local sources and destinations, each with the kind of its traffic. -/
def State.copyHomes (s : State) (l : Launch) (r : CopyReq) : List (Nat × Traffic × Traffic) :=
  let d := ((l.copy.map (·.desc)).getD [])
  let ps := cdPieces d (r.len + 1) r.pos r.len
  let srcs : List (Option Nat) := match (s.pieceSrcs l d ps).1 with
    | .ok as => as
    | .error _ => []
  (if cdSrcRemote d then [] else (ps.zip srcs).flatMap fun x => match x.2 with
    | some va => (s.homesOf l.part l.copyDie va x.1.2.2 .read).map (·, Traffic.copyRead, Traffic.readData)
    | none => []) ++
  (if cdDstRemote d || cdMode d == 3 then [] else ps.flatMap fun x =>
    (s.homesOf l.part l.copyDie (addr64 ((cdDstOf d x.1 + x.2.1 : Nat) : Int)) x.2.2 .write).map (·, Traffic.copyWrite, Traffic.acknowledgement))

/-- Every source and destination of a request gets across the ring and back (R26, R27). -/
def State.copyReaches (s : State) (l : Launch) (r : CopyReq) : Bool :=
  (s.copyHomes l r).all fun h => s.crosses r.cut h.2.1 h.2.2 l.copyDie h.1

/-! What is on the ring (R28). -/

/-- A request that a router of die `d` tracks for a core or a copy engine of another die is on the ring between them, and so is the place kept for its answer (R28, R37). -/
def RReq.crossing (r : RReq) (d : Nat) : Option Crossing :=
  let src := match r.kind with
    | 2 | 4 => d
    | 3 => r.core / 16
    | _ => dieOfPhys r.core
  if src = d then none
  else some { src := src, home := d, ask := if r.msg.typ = mContrib then .contribution else if r.msg.typ = mRd then .load else if r.msg.typ = mAtom then .atomic else .store,
              answer := if r.msg.typ = mRd ∨ r.msg.typ = mAtom then .readData else .acknowledgement, cut := [] }

/-- What is under way between dies: the accesses of cores, what cores and copy engines have sent by another die's router, and the requests of copies. What a step performs at once, a local deferred operation of a commit and a register access from the rim among it, is under way at no moment. -/
def State.crossings (s : State) : List Crossing :=
  (s.cores.flatMap fun e => e.2.crossings (dieOfPhys e.1)) ++
  (s.dies.flatMap fun e => (e.2.reads ++ e.2.tracks).filterMap fun r => r.2.crossing e.1) ++
  s.launches.flatMap fun e => match e.2.copy with
    | some c => c.out.flatMap fun r => ((s.copyHomes e.2 r.2).filter fun h => h.1 != e.2.copyDie).map fun h =>
        { src := e.2.copyDie, home := h.1, ask := h.2.1, answer := h.2.2, cut := r.2.cut }
    | none => []

/-- The requests in the request channel of a die-to-die link (R28). -/
def State.requestsOn (s : State) (n : Nat) : List Traffic :=
  (s.crossings.filter fun x => ((s.travels x.cut x.ask x.src x.home).getD []).contains n && x.ask.channel == some false).map (·.ask)

/-- The responses for which the receivers along a die-to-die link hold buffer space: one for every request that has left, so that none waits behind a request (R28, R33). -/
def State.responsesOn (s : State) (n : Nat) : List Traffic :=
  (s.crossings.filter fun x => ((s.travels x.cut x.answer x.src x.home).getD []).contains n && x.answer.channel == some true).map (·.answer)

/-- What a plane of a die's mesh carries (R32): what crosses to or from the die, requests of cluster windows and their responses, the items of its partitions' stage channels that a group waits to push, and the contributions in its router. -/
def State.onPlane (s : State) (d : Nat) (x : Plane) : List Traffic :=
  let ring := (s.crossings.filter fun c => c.src == d || c.home == d).flatMap fun c => [c.ask, c.answer]
  let here := (s.cores.filter fun e => dieOfPhys e.1 == d).flatMap fun e =>
    (e.2.creqs.map fun r => if r.2.served.isSome then .clusterResponse else .clusterRequest) ++
    (e.2.groups.filter fun g => g.2.push.isSome).map fun _ => Traffic.stageItem
  let units := ((s.die d).loop.filter fun m => m.typ == mContrib).map fun _ => Traffic.contribution
  (ring ++ here ++ units).filter fun y => y.plane == x

/-- What a request does when its data is there: the failure it meets, or its bytes moved. -/
def State.doReq (s : State) (lid : Nat) (l : Launch) (d : List Byte) (r : CopyReq) : Option Byte × State :=
  match r.fail with
  | some st => (some st, s)
  | none =>
    if r.len = 0 ∨ (cdDstRemote d = true ∧ cdMode d ≠ 3) then (none, s)
    else
      let ps := cdPieces d (r.len + 1) r.pos r.len
      match s.pieceSrcs l d ps with
      | (.error st, t) => (some st, t)
      | (.ok as, t) => t.movePieces lid l d r 0 (ps.zip as)

/-- No way round the ring leads from the engine's die to where a fold's result goes (R25 to R27). -/
def State.foldCut (s : State) (l : Launch) (va : Nat) : Bool :=
  (s.homesOf l.part l.copyDie va 16 .write).any fun h => !s.crosses s.d2d .copyWrite .acknowledgement l.copyDie h

/-- The sixteen bytes of a finished fold, and its end: a local write, or a last remote request once the router has room (R288). -/
def State.endFold (s : State) (lid : Nat) (l : Launch) (e : Nat) : Option (Option Byte × State) :=
  match (s.launch? lid).bind (·.copy) with
  | none => none
  | some c =>
    let bs := leBytes 8 c.digA.toNat ++ leBytes 8 c.digB.toNat
    if cdDstRemote c.desc && remoteBad (cdDst c.desc) 16 then some (some stTranslation, s)
    else if cdDstRemote c.desc then
      let ms := (s.writeMsgs false (eTrapx l.entry) l.part l.run [{ lane := 0, va := cdDst c.desc, tgt := .remote (cdDst c.desc), data := bs }]).map (0, ·)
      (s.openReq lid l c e { pos := c.pos, len := 0, cut := s.d2d } false ms).map (none, ·)
    else if s.foldCut l (cdDst c.desc) then none
    else some (s.copyWrite lid l c.desc (cdDst c.desc) bs)

/-- The places of a request's local sources, which it reads as it ends; one to another module has read them. -/
def State.reqSources (s : State) (l : Launch) (r : CopyReq) : List (Target × Nat) :=
  let d := ((l.copy.map (·.desc)).getD [])
  let ps := cdPieces d (r.len + 1) r.pos r.len
  if r.fail.isSome || (cdDstRemote d && cdMode d != 3) then []
  else match (s.pieceSrcs l d ps).1 with
    | .ok as => s.sourcesOf l d (ps.zip as)
    | .error _ => []

/-- A request ends, once its home slices have the lines that it reads (R415). -/
def State.endReq (s : State) (e id : Nat) (fail : Option Byte) : State :=
  match s.copyReq? e id with
  | none => s
  | some (lid, l, r) =>
    if l.phase = .running ∧ l.fail.isNone ∧ l.hung = 0 ∧ r.left = 0 ∧ s.copyReaches l r = true then
      s.withLines l.part (cdClass ((l.copy.map (·.desc)).getD [])) (s.reqSources l r) fun s =>
      let d := ((l.copy.map (·.desc)).getD [])
      let x := s.doReq lid l d r
      let t := x.2.modCopy lid fun c => { c with out := tdel c.out id }
      let last : Bool := match (t.launch? lid).bind (·.copy) with
        | some c => c.sent && c.out == []
        | none => false
      match if x.1.isNone && last && cdMode d == 3 && r.len != 0 then t.endFold lid l e else some (x.1, t) with
      | none => s
      | some (st, v) =>
        if st ≠ fail ∨ st = some stOk then s
        else
          match st with
          | some f => v.failLaunch lid (v.mkFail f (engCopy e))
          | none =>
            let u := v.modLaunch lid fun z => ({ z with progGt := s.now } : Launch).noteReady s.now
            match (u.launch? lid).bind (·.copy) with
            | some c => if c.sent && c.out == [] then u.purgeCopy lid false else u
            | none => u
    else s

/-- COPY_REQUEST_COMPLETE (R291, R292): with the outcome that its data gives. -/
def execCopyRequestComplete (engine id : Nat) (fail : Option Byte) (s : State) : Host.Outcome State Fault Refusal :=
  withUnit (decide (engine < 64)) (s.endReq engine id fail)

/-- An answer reaches a copy's request: read data at its offset, or an acknowledgement. -/
def State.copyAnswered (s : State) (r : RReq) (bs : List Byte) (poison : Bool) : State :=
  s.modCopy r.launch fun c => { c with out := c.out.map fun (e : Nat × CopyReq) =>
    if e.1 = r.load then (e.1, { e.2 with
      left := e.2.left - 1
      data := msetBytes e.2.data r.site.pc bs
      fail := if poison then some stEcc else e.2.fail })
    else e }

end Sys2Proof.Machine
end

