-- ==== Sys2Proof/Machine/Links.lean ====
section
/-! DEFINITION. Credal links: training and state (R358, R359, R365, R366, R387, R488), loss (R363, R395), flits and replay (R360 to R362, R388, R389), the choice of messages (R369, R370), tunnels of Ethernet mode (R392 to R394) and time (R390, R391). -/

namespace Sys2Proof.Machine

/-! Time (R389 to R391). -/

/-- LNK_TOFF as a signed number. -/
def State.toff (s : State) (n : Nat) : Int := signedOf 64 (s.reg64 (lnkToff n))

/-- The links that announce a grandmaster: link, grandmaster and hops. -/
def State.announced (s : State) : List (Nat × Nat × Nat) :=
  (upTo 48).filterMap fun n => if s.linkUp n && !s.linkEth n then (s.link n).peerGm.map (n, ·) else none

/-- The grandmaster: the lowest ID announced, or the module's own. -/
def State.grandmaster (s : State) : Nat := (s.announced.map (·.2.1)).foldl min s.ownId

/-- The parent: the fewest hops to the grandmaster, the lowest link on a tie. -/
def State.parentLink (s : State) : Option (Nat × Nat) :=
  if s.grandmaster = s.ownId then none
  else (argmin (fun e => e.2.2) (s.announced.filter fun e => e.2.1 == s.grandmaster)).map fun e => (e.1, e.2.2)

/-- LNK_FAB_TIME as it now stands; a change of STATE raises vector 56 (R391, R407). -/
def State.setFabTime (s : State) (v : Nat) : State :=
  let t := s.setReg fabTime (BitVec.ofNat 32 v)
  if s.fld fabTime 0 3 = v % 8 then t else t.irq 0 56

/-- Choose grandmaster and parent again; a module that first finds a parent steps GT forward when it is more than 1 µs behind. -/
def State.retime (s : State) (lost : Bool) : State :=
  let gm := s.setFld fabGm 0 16 s.grandmaster
  match s.parentLink with
  | none =>
    let had := s.fld fabTime 0 3 == 1 || s.fld fabTime 0 3 == 2 || s.fld fabTime 0 3 == 3
    (gm.setFabTime (if lost && had then 3 else 4)).setReg fabOffs 0
  | some (n, hops) =>
    let off := s.toff n
    let st := if off.natAbs < 640 then 2 else 1
    let t := (gm.setFabTime (st + n * 8 + min (hops + 1) 255 * 2 ^ 16)).setReg fabOffs
      (BitVec.ofInt 32 (max (-2147483648) (min 2147483647 off)))
    if s.boot.gtLocked then t
    else { t with
      gt := if 64000 < off then t.gt + BitVec.ofInt 64 (off / 64) else t.gt
      boot := { t.boot with gtLocked := true } }

/-- The parent's offset as its link measures it now, and whether GT is locked to it (R391). -/
def State.followParent (s : State) (n : Nat) : State :=
  match s.parentLink with
  | some (k, _) =>
    if k = n then
      (s.setFabTime (putBits (s.reg fabTime).toNat 0 3 (if (s.toff n).natAbs < 640 then 2 else 1))).setReg fabOffs
        (BitVec.ofInt 32 (max (-2147483648) (min 2147483647 (s.toff n))))
    else s
  | none => s

/-- TIME_ANNOUNCE (R390): a message on every UP link that is not in Ethernet mode. A module that no other has announced a grandmaster to is its own, and LNK_FAB_TIME and LNK_FAB_GM say so from its first announcement (R391). -/
def execTimeAnnounce (s : State) : Host.Outcome State Fault Refusal :=
  .next (
    let s := if s.fld fabTime 0 3 = 0 then s.retime false else s
    let hops := match s.parentLink with
      | some (_, h) => min (h + 1) 255
      | none => 0
    ((upTo 48).filter fun n => s.linkUp n && !s.linkEth n).foldl (fun t n =>
      t.queueMsg n (s.control mTime (s.fld (lnkPeer n) 0 16) (s.grandmaster + hops * 2 ^ 16) [])) s)

/-! State (R365, R366). -/

def State.oeLit (s : State) (n : Nat) : Bool := s.lamp (lampOe (n / 4))
/-- A link that the chart or the module has retired is not trained (R214, R395). The spec names no effect of a RETIRED bit on a link that is up or in training: that the bit only bars a training that has not begun is the model's (DESIGN CHOICE, log entry 111). -/
def State.linkRetired (s : State) (n : Nat) : Bool := getBits s.chart.rLinks n 1 == 1 || getBits s.chart.mLinks n 1 == 1
/-- The link may train. -/
def State.mayTrain (s : State) (n : Nat) : Bool := s.bit (lnkCtrl n) 0 && s.oeLit n && !s.linkRetired n

/-- Enter a state; each change is logged, and raises the link's vector (R395, R407, R521). -/
def State.setLinkState (s : State) (n st : Nat) : State :=
  let old := s.linkState n
  if old = st then s.modLink n fun l => { l with phaseGt := s.now }
  else
    let t := ((s.setFld (lnkStat n) 0 4 st).setBit (lnkStat n) 4 (st == lsUp)).modLink n fun l => { l with phaseGt := s.now }
    (t.logRaise sevNotice none (engLink n) 0x40 (leBytes 1 n ++ leBytes 1 old ++ leBytes 1 st)).irq 0 (8 + n)

/-- A link goes down (R363): its SEQ is kept for 10 ms, messages not yet in a flit go another way, a query is sent to the peer, which tells when the session ended, and unacknowledged messages wait for the answer. -/
def State.goDown (s : State) (n st : Nat) : State :=
  let l := s.link n
  let d := dieOfLink n
  let t := (s.setLinkState n st).modLink n fun x => { x with
    kept := (l.kept.filter fun x => decide (s.now ≤ x.2.2 + 10 ^ 7)) ++ [(l.rxSeq, l.upGt, s.now)]
    lost := l.replay
    downGt := s.now
    query := true
    gen := (l.gen + 1) % 2 ^ 16
    older := if l.query then l.older ++ [(l.gen, l.downGt, l.lost)] else l.older
    replay := []
    resend := []
    toSend := []
    chunks := 0
    txq := []
    nakOut := false
    peerGm := none }
  let u := (l.toSend ++ l.txq).foldl (fun t m => t.reroute n m) t
  let v := if s.bit (lnkPeer n) 22 then
      u.post d (s.control mLstate (s.fld (lnkPeer n) 0 16) (lkQuery + s.fld (lnkPeer n) 16 6 * 4 + n * 2 ^ 8 + (u.link n).gen * 2 ^ 32) (leBytes 8 s.now))
    else u
  (v.notifyPeers d).retime true

/-- An UP or recovering link carries messages that a loss must settle. -/
def State.linkLive (s : State) (n : Nat) : Bool := s.linkState n == lsUp || s.linkState n == lsRecover

/-- Messages that a tunnel has lost are refused (R394); those that it has received stay. -/
def State.loseTunnel (s : State) (n t : Nat) : State :=
  let x := tget {} (s.link n).tunnels t
  let u := s.modLink n fun l => { l with tunnels := tdel l.tunnels t, rxq := l.rxq ++ x.rxq }
  (x.unacked.flatMap (·.2)).foldl (fun u m => u.loseMsg n m) u

/-- All the tunnels of a link are lost. -/
def State.loseTunnels (s : State) (n : Nat) : State := (tkeys (s.link n).tunnels).foldl (fun t k => t.loseTunnel n k) s

/-- Take a link to a state, with the effects of going down if it was live. -/
def State.takeDown (s : State) (n st : Nat) : State :=
  if s.linkLive n then (s.goDown n st).loseTunnels n else s.setLinkState n st

/-- Begin an attempt to train. -/
def State.toLight (s : State) (n : Nat) : State := s.setLinkState n lsLight

/-- LNK_ENABLE_SET (R365, R366). -/
def execLnkEnableSet (link : Nat) (s : State) : Host.Outcome State Fault Refusal :=
  withUnit (okLink link) (s.pfStores (lnkCtrl link) fun s =>
    let t := s.setBit (lnkCtrl link) 0 true
    if t.linkState link = lsDisabled ∧ t.mayTrain link = true then t.toLight link else t)

/-- LNK_ENABLE_CLEAR (R366). -/
def execLnkEnableClear (link : Nat) (s : State) : Host.Outcome State Fault Refusal :=
  withUnit (okLink link) (s.pfStores (lnkCtrl link) fun s => (s.setBit (lnkCtrl link) 0 false).takeDown link lsDisabled)

/-- LNK_RETRAIN (R366). -/
def State.retrain (s : State) (n : Nat) : State :=
  if s.linkState n = lsDisabled then s
  else s.takeDown n (if s.mayTrain n then lsLight else lsDisabled)

/-- LNK_RETRAIN (R366). -/
def execLnkRetrain (link : Nat) (s : State) : Host.Outcome State Fault Refusal :=
  withUnit (okLink link) (s.pfStores (lnkCtrl link) fun s => s.retrain link)

/-- LNK_LOCK (R366): the RWL fields are locked until module reset. -/
def execLnkLock (link : Nat) (s : State) : Host.Outcome State Fault Refusal :=
  withUnit (okLink link) (s.pfStores (lnkCtrl link) fun s => s.setBit (lnkCtrl link) 31 true)

/-! Training. -/

/-- The width that the usable wavelengths give: 0 all eight, 1 and 2 the halves; none when no half is whole, or NOHALF forbids one. -/
def widthFor (ok : Nat) (nohalf eth : Bool) : Option Nat :=
  if ok = 255 then some 0
  else if nohalf || eth then none
  else if ok % 16 = 15 then some 1
  else if ok / 16 = 15 then some 2
  else none

/-- LINK_LIGHT_CHECK (R359, R365): the wavelengths are recorded, and the link trains at the width they give; Ethernet mode counts from here (R366). -/
def execLinkLightCheck (link : Nat) (feed signal : Byte) (s : State) : Host.Outcome State Fault Refusal :=
  withUnit (okLink link) (
    if s.linkState link = lsLight then
      let ok := (feed &&& signal).toNat
      let eth := decide (link < 8) && s.bit (lnkCtrl link) 2
      let t := (s.setReg (lnkWave link) (BitVec.ofNat 32 (feed.toNat + 256 * signal.toNat))).setFld (lnkStat link) 8 8 ok
      match widthFor ok (s.bit (lnkCtrl link) 3) eth with
      | none => t
      | some w =>
        let u := ((t.setBit (lnkStat link) 5 (w != 0)).setBit (lnkStat link) 6 (w == 2)).setBit (lnkStat link) 7 eth
        (u.countReg (lnkCnt link 5) 1).setLinkState link lsTrain
    else s)

/-- LINK_TRAIN_DONE (R365, R392): an Ethernet-mode link with local port 0 does not come up (R394). -/
def execLinkTrainDone (link : Nat) (s : State) : Host.Outcome State Fault Refusal :=
  withUnit (okLink link) (
    if s.linkState link = lsTrain ∧ ¬(s.linkEth link = true ∧ s.fld (lnkEthCfg link) 0 16 = 0) then s.setLinkState link lsAlign else s)

/-- SEQ, credits and stamps as a link begins to carry messages. -/
def Link.fresh (l : Link) (credits : List Nat) (now : Nat) : Link :=
  { l with
    txSeq := 0
    rxSeq := 0
    ackSeq := 0
    nakOut := false
    replay := []
    resend := []
    toSend := []
    chunks := 0
    initCr := credits
    used := []
    freed := []
    limit := (upTo 7).foldl (fun t f => tset t f (credits.getD f 0 % 65536)) []
    discards := 0
    tagGt := []
    slots := 0
    keys := 1
    kphase := false
    keyed := true
    attempts := []
    progGt := now
    upGt := now
    peerDirs := 0xFFF
    peerGm := none }

/-- A link comes UP; its router tells its peers. -/
def State.comeUp (s : State) (n : Nat) (credits : List Nat) : State :=
  (((s.setFld (lnkStat n) 16 8 0).modLink n fun l => l.fresh credits s.now).setLinkState n lsUp).notifyPeers (dieOfLink n)

/-- The 528 KiB that each receiver has, in credits of 32 bytes, by CREDIT field (R369): what INIT gives the peer, and what a tunnel starts with. -/
def bufferCredits : List Nat := [3072, 3072, 3072, 3072, 2048, 2048, 512, 0]

/-- A frame that carries no message needing credit. -/
def frameOf (isData ackOnly : Bool) (x : Tunnel) (seq : Nat) (msgs : List Msg) : EthFrame :=
  { isData := isData, ackOnly := ackOnly, seq := seq, ack := x.rxSeq, txcnt := x.txcnt, credits := (upTo 8).map fun f => tget 0 x.freed f, msgs := msgs, tagOk := true }

def State.tunnel (s : State) (n t : Nat) : Tunnel := tget {} (s.link n).tunnels t
def State.setTunnel (s : State) (n t : Nat) (x : Tunnel) : State := s.modLink n fun l => { l with tunnels := tput {} l.tunnels t x }

/-- Put a frame with messages on a tunnel: it is kept until it is acknowledged (R394). -/
def State.sendFrame (s : State) (n t : Nat) (isData : Bool) (msgs : List Msg) : State :=
  let x := s.tunnel n t
  let seq := (x.txSeq + 1) % 2 ^ 32
  let y : Tunnel := { x with
    txSeq := seq
    txcnt := x.txcnt + 1
    unacked := x.unacked ++ [(seq, msgs)]
    sentGt := if x.unacked = [] then s.now else x.sentGt
    progGt := if x.unacked = [] then s.now else x.progGt }
  (s.setTunnel n t y).emit (.frame n t (frameOf isData false x seq msgs))

/-- What a KEYX carries: the digest of this module's owner key, and its key share (R387). Its layout is the model's (log entry 79). -/
def State.keyxContent (s : State) (t : Nat) : List Byte := leBytes 48 ((s.sec.owner.getD 0).toNat) ++ Config.exchangeData t

/-- A tunnel begins its key agreement (R394). -/
def State.startTunnel (s : State) (n t : Nat) : State :=
  (s.setTunnel n t { limit := (upTo 7).foldl (fun a f => tset a f (bufferCredits.getD f 0)) [] }).sendFrame n t false
    [s.control mKeyx (s.fld (lnkTun n t) 0 16) 0 (s.keyxContent t)]

/-- Each valid tunnel of an Ethernet-mode link begins its key agreement. -/
def State.startTunnels (s : State) (n : Nat) : State :=
  ((upTo 64).filter fun t => s.bit (lnkTun n t) 16).foldl (fun u t => u.startTunnel n t) s

/-- The two ends agree the width (R365): where this end could run all eight wavelengths, the peer may have only one half, by a free choice, since no command brings the peer's wavelengths (log entry 78). -/
def State.agreeWidth (s : State) (n : Nat) : State :=
  if s.bit (lnkStat n) 5 || s.bit (lnkCtrl n) 3 then s
  else
    let r := s.freeNat
    if r.1 % 3 = 0 then r.2 else (r.2.setBit (lnkStat n) 5 true).setBit (lnkStat n) 6 (r.1 % 3 == 2)

/-- LINK_ALIGN_DONE (R365, R488): SECROOT and CHART must be lit. A link in Ethernet mode agrees keys by tunnel, and carries frames from here (R394). A RETIRED bit that came while it waited is not looked at (log entry 111). -/
def execLinkAlignDone (link : Nat) (s : State) : Host.Outcome State Fault Refusal :=
  withUnit (okLink link) (
    if s.linkState link = lsAlign ∧ s.lamp lampSecroot = true ∧ s.lamp lampChart = true then
      (if s.linkEth link then ((s.setBit (lnkPeer link) 22 false).comeUp link []).startTunnels link else (s.agreeWidth link).setLinkState link lsSecure)
    else s)

/-- A training has failed: LNK_STAT counts it (R366). -/
def State.addTry (s : State) (n : Nat) : State := s.setFld (lnkStat n) 16 8 (satAdd (s.fld (lnkStat n) 16 8) 1 255)

/-- LINK_SECURE_DONE (R387, R451): both modules owned, and by one owner; the peer is told this end's ID, number and credits (R365, R369). A peer that is refused is a failed training. -/
def execLinkSecureDone (link : Nat) (peerOwner : BitVec 384) (sigOk : Bool) (s : State) : Host.Outcome State Fault Refusal :=
  withUnit (okLink link) (
    if s.linkState link = lsSecure then
      (if sigOk && s.sec.owner == some peerOwner then (s.setLinkState link lsInit).emit (.init link s.ownId link bufferCredits)
       else (s.addTry link).setLinkState link lsFailed)
    else s)

/-- LINK_INIT_DONE (R365). -/
def execLinkInitDone (link peerId peerLink : Nat) (credits : List Nat) (s : State) : Host.Outcome State Fault Refusal :=
  withUnit (okLink link) (
    if s.linkState link = lsInit then
      (s.setReg (lnkPeer link) (BitVec.ofNat 32 (peerId % 2 ^ 16 + peerLink % 64 * 2 ^ 16 + 2 ^ 22))).comeUp link credits
    else s)

/-- The bound of each state, in ns. -/
def phaseLimit (st : Nat) : Option Nat :=
  match st with
  | 1 => some 1000000
  | 2 => some 20000000
  | 3 => some 1000000
  | 4 => some 10000000
  | 5 => some 100000
  | _ => none

/-- An attempt fails: three within 1 s lead to FAILED (R365). -/
def State.failAttempt (s : State) (n : Nat) : State :=
  let l := s.link n
  let xs := l.attempts.filter (fun t => decide (s.now < t + 10 ^ 9)) ++ [s.now]
  let t := (s.addTry n).modLink n fun l => { l with attempts := if 3 ≤ xs.length then [] else xs }
  if 3 ≤ xs.length then t.setLinkState n lsFailed else t.toLight n

/-- LINK_PHASE_TIMEOUT (R365): ALIGN has no bound while SECROOT or CHART is dark (R488). -/
def execLinkPhaseTimeout (link : Nat) (s : State) : Host.Outcome State Fault Refusal :=
  withUnit (okLink link) (
    let st := s.linkState link
    let waits := st == lsAlign && !(s.lamp lampSecroot && s.lamp lampChart)
    match phaseLimit st with
    | some b => if !waits && decide ((s.link link).phaseGt + b ≤ s.now) then s.failAttempt link else s
    | none => s)

/-- LINK_RETRY_TIMER (R365). -/
def execLinkRetryTimer (link : Nat) (s : State) : Host.Outcome State Fault Refusal :=
  withUnit (okLink link) (
    if s.linkState link = lsFailed ∧ (s.link link).phaseGt + 10 ^ 9 ≤ s.now ∧ s.mayTrain link = true then s.toLight link else s)

/-! Loss (R359, R363, R395). -/

/-- The lanes in use. -/
def State.lanesInUse (s : State) (n : Nat) : Nat :=
  if s.bit (lnkStat n) 5 then (if s.bit (lnkStat n) 6 then 0xF0 else 0x0F) else 0xFF

/-- Wavelengths that count as usable. -/
def State.waveOk (s : State) (n : Nat) : Nat := s.fld (lnkStat n) 8 8

/-- A wavelength's feed power or its signal is below the minimum, or both are (R359): which one, LNK_WAVE shows and no command says, so it is a free choice (log entry 80). -/
def State.dimWave (s : State) (n lambda : Nat) : State :=
  let r := s.freeNat
  let t := if r.1 % 3 = 1 then r.2 else r.2.setBit (lnkWave n) lambda false
  if r.1 % 3 = 0 then t else t.setBit (lnkWave n) (8 + lambda) false

/-- WAVELENGTH_FAIL (R359, R363, R366, R395): from full width the link recovers on the other half, or is lost, and the router's peers hear of it (R375); a second failure is a LINK_DOWN. The loss of a wavelength that changes no state is recorded too. -/
def execWavelengthFail (link lambda : Nat) (s : State) : Host.Outcome State Fault Refusal :=
  withUnit (okLink link && decide (lambda < 8)) (
    let t := (s.dimWave link lambda).setBit (lnkStat link) (8 + lambda) false
    if s.linkState link = lsUp ∧ s.bit (lnkStat link) 5 = false then
      let other := if lambda < 4 then 0xF0 else 0x0F
      if s.linkEth link || s.bit (lnkCtrl link) 3 || t.waveOk link &&& other != other then t.takeDown link lsFailed
      else (((t.setBit (lnkStat link) 5 true).setBit (lnkStat link) 6 (decide (lambda < 4))).setLinkState link lsRecover).notifyPeers (dieOfLink link)
    else if getBits (s.waveOk link) lambda 1 = 1 then
      t.logRaise sevNotice none (engLink link) 0x40 (leBytes 1 link ++ leBytes 1 (s.linkState link) ++ leBytes 1 (s.linkState link))
    else t)

/-- The event of R363 has happened. -/
def State.downCause (s : State) (n : Nat) (c : DownCause) : Bool :=
  match c with
  | .discards => decide (16 ≤ (s.link n).discards)
  | .noProgress => (s.link n).replay != [] && decide ((s.link n).progGt + 10000 ≤ s.now)
  | .noSignal => true
  | .secondWavelength => s.bit (lnkStat n) 5 && s.waveOk n &&& s.lanesInUse n != s.lanesInUse n

/-- LINK_DOWN (R363). -/
def execLinkDown (link : Nat) (cause : DownCause) (s : State) : Host.Outcome State Fault Refusal :=
  withUnit (okLink link) (
    if s.linkUp link && s.downCause link cause then
      let t := if cause = .noSignal then s.setFld (lnkWave link) 8 8 (s.fld (lnkWave link) 8 8 &&& (255 - s.lanesInUse link)) else s
      t.takeDown link lsFailed
    else s)

/-- LINK_RECOVER_END (R365): at half width every unacknowledged flit is sent again. -/
def execLinkRecoverEnd (link : Nat) (ok : Bool) (s : State) : Host.Outcome State Fault Refusal :=
  withUnit (okLink link) (
    if s.linkState link = lsRecover then
      if ok && s.waveOk link &&& s.lanesInUse link == s.lanesInUse link then
        ((s.modLink link fun l => { l with resend := l.replay, progGt := s.now }).setLinkState link lsUp).notifyPeers (dieOfLink link)
      else s.takeDown link lsFailed
    else s)

/-- LINK_STATE_ANSWER_TIMEOUT (R363): 1 ms after a link went down without an answer, the messages of its unacknowledged flits are lost; those of an earlier time it went down, too. -/
def execLinkStateAnswerTimeout (link : Nat) (s : State) : Host.Outcome State Fault Refusal :=
  withUnit (okLink link) (
    let l := s.link link
    let due (gt : Nat) : Bool := decide (gt + 1000000 ≤ s.now)
    let old := (l.older.filter fun x => due x.2.1).flatMap fun x => x.2.2
    let t := s.modLink link fun x => { x with older := x.older.filter fun y => !due y.2.1 }
    let u := (old.flatMap (·.2)).foldl (fun t m => t.loseMsg link m) t
    if l.query && due l.downGt then
      (l.lost.flatMap (·.2)).foldl (fun t m => t.loseMsg link m) (u.modLink link fun x => { x with query := false, lost := [] })
    else u)

/-! Flits (R360 to R362). -/

/-- Fill `space` chunks: the messages whose last chunk fits, those left, and the chunks left of the first. -/
def packFlit : List Msg → Nat → Nat → List Msg × List Msg × Nat
  | [], _, _ => ([], [], 0)
  | m :: ms, left, space =>
    if left ≤ space then
      let r := packFlit ms ((ms.head?.map msgChunks).getD 0) (space - left)
      (m :: r.1, r.2)
    else ([], m :: ms, left - space)

/-- The header of the flit that a link sends now. -/
def State.flitOf (s : State) (l : Link) (ftype seq : Nat) (msgs : List Msg) : Flit :=
  { ftype := ftype, seq := seq, kphase := l.kphase, ackSeq := l.rxSeq, nak := l.nakOut, credits := (upTo 8).map fun f => tget 0 l.freed f,
    tx := s.gt * 64, echo := BitVec.ofInt 64 l.echo, msgs := msgs, corrected := 0, fecOk := true, crcOk := true, tagOk := true }

/-- Send one flit: a flit again, a new data flit, or an idle one. -/
def State.sendFlit (s : State) (n : Nat) : State :=
  let l := { s.link n with slots := (s.link n).slots + 1 }
  match l.resend with
  | f :: rest => (s.setLink n { l with resend := rest, nakOut := false }).emit (.flit n (s.flitOf l 1 f.1 f.2))
  | [] =>
    if l.toSend ≠ [] ∧ l.replay.length < 512 then
      let r := packFlit l.toSend l.chunks 153
      let seq := (l.txSeq + 1) % 2 ^ 24
      (s.setLink n { l with
        txSeq := seq
        nakOut := false
        replay := l.replay ++ [(seq, r.1)]
        progGt := if l.replay = [] then s.now else l.progGt
        toSend := r.2.1
        chunks := r.2.2 }).emit (.flit n (s.flitOf l 1 seq r.1))
    else (s.setLink n { l with nakOut := false }).emit (.flit n (s.flitOf l 0 l.txSeq []))

/-- FLIT_SLOT (R361). -/
def execFlitSlot (link : Nat) (s : State) : Host.Outcome State Fault Refusal :=
  withUnit (okLink link) (if s.linkUp link && !s.linkEth link then s.sendFlit link else s)

/-- Drop the flits that an ACKSEQ covers: those up to it, if it lies among them. -/
def coverAck (replay : List (Nat × List Msg)) (ack : Nat) : List (Nat × List Msg) :=
  match replay.findIdx? fun f => f.1 == ack with
  | some i => replay.drop (i + 1)
  | none => replay

/-- The FACK and CREDIT fields of an accepted flit. -/
def Link.heard (l : Link) (f : Flit) (now : Nat) : Link :=
  let rest := coverAck l.replay f.ackSeq
  let prog := rest.length != l.replay.length
  { l with
    replay := rest
    resend := if f.nak then rest else l.resend.filter fun x => rest.any fun y => y.1 == x.1
    ackSeq := if prog then f.ackSeq else l.ackSeq
    progGt := if prog then now else l.progGt
    limit := (upTo 7).foldl (fun t i => tset t i ((l.initCr.getD i 0 + f.credits.getD i 0) % 65536)) l.limit
    discards := 0 }

/-- The TSYNC field (R389); of the parent link, what LNK_FAB_TIME and LNK_FAB_OFFS report follows it (R391). -/
def State.timeSync (s : State) (n : Nat) (f : Flit) : State :=
  let d := (s.gt * 64 - f.tx).toInt
  let e := f.echo.toInt
  (((s.modLink n fun l => { l with echo := d }).setReg64 (lnkToff n) (intBits 64 ((e - d) / 2))).setReg (lnkTdelay n) (BitVec.ofInt 32 ((e + d) / 2))).followParent n

/-- Whether a message's TYPE is in R368. -/
def knownType (t : Nat) : Bool := decide ((1 ≤ t ∧ t ≤ 5) ∨ (8 ≤ t ∧ t ≤ 0xB) ∨ (0x10 ≤ t ∧ t ≤ 0x13))

/-- The receiver frees the credits of a message (R369). -/
def Link.freeCredits (l : Link) (m : Msg) : Link :=
  let f := creditField m.vc m.cls
  { l with freed := tset l.freed f ((tget 0 l.freed f + msgCredits m) % 65536) }

/-- Messages of an accepted flit: those of unknown TYPE are discarded and counted. -/
def State.deliver (s : State) (n : Nat) (ms : List Msg) : State :=
  ms.foldl (fun t m =>
    if knownType m.typ then t.modLink n fun l => { l with rxq := l.rxq ++ [m] }
    else (t.countReg (lnkCnt n 8) 1).modLink n fun l => l.freeCredits m) s

/-- A flit is discarded. -/
def State.discardFlit (s : State) (n : Nat) : State :=
  (s.countReg (lnkCnt n 1) 1).modLink n fun l => { l with discards := l.discards + 1, nakOut := true }

/-- A flit arrives. -/
def State.receiveFlit (s : State) (n : Nat) (f : Flit) : State :=
  let t := s.countReg (lnkCnt n 0) f.corrected
  if !f.fecOk then t.discardFlit n
  else if !f.crcOk then (t.discardFlit n).countReg (lnkCnt n 2) 1
  else if !f.tagOk then
    ((t.discardFlit n).countReg (lnkCnt n 4) 1).modLink n fun l => { l with tagGt := stamp l.tagGt 8 s.now }
  else
    let u := (t.modLink n fun l => l.heard f s.now).timeSync n f
    let u := if f.nak && (u.link n).resend != [] then u.countReg (lnkCnt n 3) 1 else u
    if f.ftype = 1 then
      if f.seq = ((u.link n).rxSeq + 1) % 2 ^ 24 then
        (u.modLink n fun l => { l with rxSeq := f.seq }).deliver n f.msgs
      else u.modLink n fun l => { l with nakOut := true }
    else u

/-- FLIT_RECEIVE (R361, R362). -/
def execFlitReceive (link : Nat) (f : Flit) (s : State) : Host.Outcome State Fault Refusal :=
  withUnit (okLink link) (if s.linkUp link && !s.linkEth link then s.receiveFlit link f else s)

/-- TAG_FAILURE_LIMIT (R388): eight within 1 ms. -/
def execTagFailureLimit (link : Nat) (s : State) : Host.Outcome State Fault Refusal :=
  withUnit (okLink link) (
    let xs := (s.link link).tagGt
    if s.linkUp link && decide (8 ≤ xs.length) && decide (xs.getLastD 0 ≤ xs.headD 0 + 1000000) then
      (s.logRaise sevAlert none (engLink link) 0x41 (leBytes 1 link ++ leBytes 4 (s.reg (lnkCnt link 4)).toNat)).takeDown link lsFailed
    else s)

/-- KEY_ROLLOVER (R388): every 2^32 flit slots. -/
def execKeyRollover (link : Nat) (s : State) : Host.Outcome State Fault Refusal :=
  withUnit (okLink link) (
    let l := s.link link
    if s.linkUp link && decide (l.keys * 2 ^ 32 ≤ l.slots) then s.setLink link { l with keys := l.keys + 1, kphase := !l.kphase } else s)

/-! The transmitter's choice (R369, R370). -/

/-- A message waits at the front of its VC and class, and has room. -/
def readyAt (l : Link) (room : Msg → Bool) (i : Nat) : Bool :=
  match l.txq[i]? with
  | none => false
  | some m => !((l.txq.take i).any fun x => x.vc == m.vc && x.cls == m.cls) && room m

/-- The first such message of a VC. -/
def Link.firstOf (l : Link) (room : Msg → Bool) (vc : Nat) : Option Nat :=
  (upTo l.txq.length).find? fun i => readyAt l room i && (l.txq[i]?.map (·.vc)) == some vc

/-- VC3, then VC1, then VC2 and VC0 in turn. -/
def Link.choose (l : Link) (room : Msg → Bool) : Option Nat :=
  (l.firstOf room 3).orElse fun _ => (l.firstOf room 1).orElse fun _ =>
    match l.firstOf room 2, l.firstOf room 0 with
    | some a, some b => some (if l.alt then b else a)
    | some a, none => some a
    | none, x => x

/-- A tunnel has room for a message: keys, frames and credit. -/
def Tunnel.room (x : Tunnel) (m : Msg) : Bool :=
  x.up && decide (x.unacked.length < 256) &&
  decide (msgCredits m ≤ (tget 0 x.limit (creditField m.vc m.cls) + 65536 - tget 0 x.used (creditField m.vc m.cls)) % 65536)

/-- A link, or the tunnel that leads to a message's destination, has room for it; one that no tunnel leads to is refused. -/
def State.roomOn (s : State) (n : Nat) (m : Msg) : Bool :=
  if s.linkEth n then
    match s.tunnelFor n m.dst with
    | some k => (s.tunnel n k).room m
    | none => true
  else decide (msgCredits m ≤ (s.link n).credit (creditField m.vc m.cls))

/-- The launch's first message on the link is traced, and a request notes when and where it left (R364, R499). -/
def State.noteSent (s : State) (n : Nat) (m : Msg) : State :=
  if m.src = s.ownId ∧ m.typ ≤ 5 then
    match s.reqOf m with
    | none => s
    | some (d, r) =>
      let t := s.modDie d fun x =>
        let q : RReq := { r with gt := s.now, link := some n }
        if tfind x.reads m.tag = some r then { x with reads := tset x.reads m.tag q } else { x with tracks := tset x.tracks m.tag q }
      match t.launch? r.launch with
      | some l =>
        if (t.link n).begun.contains r.launch then t
        else (t.modLink n fun x => { x with begun := r.launch :: x.begun }).traceLaunch (engLink n) tyBegin l 0
      | none => t
  else s

/-- Take the chosen message to the link: into its next flit, or into a frame of its tunnel. -/
def State.transmit (s : State) (n : Nat) : State :=
  let l := s.link n
  match l.choose (s.roomOn n) with
  | none => s
  | some i =>
    match l.txq[i]? with
    | none => s
    | some m =>
      let both := (l.firstOf (s.roomOn n) 2).isSome && (l.firstOf (s.roomOn n) 0).isSome
      let alt := if both && (m.vc == 2 || m.vc == 0) then !l.alt else l.alt
      let f := creditField m.vc m.cls
      let y : Link := { l with txq := l.txq.eraseIdx i, alt := alt }
      if s.linkEth n then
        match s.tunnelFor n m.dst with
        | none => (s.setLink n y).noRoute n m
        | some k =>
          let x := s.tunnel n k
          if x.room m then
            (((s.setLink n y).setTunnel n k { x with used := tset x.used f ((tget 0 x.used f + msgCredits m) % 65536) }).sendFrame n k true [m]).noteSent n m
          else s
      else
        (s.setLink n { y with
          used := tset l.used f ((tget 0 l.used f + msgCredits m) % 65536)
          toSend := l.toSend ++ [m]
          chunks := if l.toSend = [] then msgChunks m else l.chunks }).noteSent n m

/-- MESSAGE_TRANSMIT (R370). -/
def execMessageTransmit (link : Nat) (s : State) : Host.Outcome State Fault Refusal :=
  withUnit (okLink link) (if s.linkUp link then s.transmit link else s)

/-! Ethernet mode (R393, R394). -/

/-- The ACK and CREDIT fields of a frame. -/
def Tunnel.heard (x : Tunnel) (f : EthFrame) (now : Nat) : Tunnel :=
  let rest := coverAck x.unacked f.ack
  let prog := rest.length != x.unacked.length
  { x with
    unacked := rest
    ackd := if prog then f.ack else x.ackd
    sentGt := if prog then now else x.sentGt
    progGt := if prog then now else x.progGt
    limit := (upTo 7).foldl (fun t i => tset t i ((bufferCredits.getD i 0 + f.credits.getD i 0) % 65536)) x.limit }

/-- A tunnel's receiver frees the credits of a message, as a link's does (R369, R393). -/
def Tunnel.freeCredits (x : Tunnel) (m : Msg) : Tunnel :=
  let f := creditField m.vc m.cls
  { x with freed := tset x.freed f ((tget 0 x.freed f + msgCredits m) % 65536) }

/-- A frame arrives on a tunnel: the next in order is taken and acknowledged; DATA waits for keys. Its messages wait in the tunnel's buffer; those of unknown TYPE are discarded. -/
def State.receiveFrame (s : State) (n k : Nat) (f : EthFrame) : State :=
  if !f.tagOk then (s.countReg (lnkCnt n 1) 1).countReg (lnkCnt n 4) 1
  else
    let x := (s.tunnel n k).heard f s.now
    let t := s.setTunnel n k x
    if f.ackOnly then t
    else if f.seq = (x.rxSeq + 1) % 2 ^ 32 ∧ (f.isData = false ∨ x.keyed = true) then
      let other := f.msgs.filter fun m => !knownType m.typ
      let z := other.foldl Tunnel.freeCredits x
      let y : Tunnel := { z with rxSeq := f.seq, rxq := x.rxq ++ f.msgs.filter fun m => knownType m.typ, txcnt := x.txcnt + 1 }
      ((t.setTunnel n k y).countReg (lnkCnt n 8) other.length).emit (.frame n k (frameOf false true { y with txcnt := x.txcnt } y.txSeq []))
    else (t.setTunnel n k { x with txcnt := x.txcnt + 1 }).emit (.frame n k (frameOf false true x x.txSeq []))

/-- ETH_FRAME_RECEIVE (R393). -/
def execEthFrameReceive (link tunnel : Nat) (f : EthFrame) (s : State) : Host.Outcome State Fault Refusal :=
  withUnit (okTunnel link tunnel) (
    if s.linkUp link && s.linkEth link && s.bit (lnkTun link tunnel) 16 then s.receiveFrame link tunnel f else s)

/-- TUNNEL_RESEND_TIMEOUT (R394): 50 µs without an ACK, the frame and all later ones go again. -/
def execTunnelResendTimeout (link tunnel : Nat) (s : State) : Host.Outcome State Fault Refusal :=
  withUnit (okTunnel link tunnel) (
    let x := s.tunnel link tunnel
    if s.linkUp link && x.unacked != [] && decide (x.sentGt + 50000 ≤ s.now) then
      x.unacked.foldl (fun t f =>
        let y := t.tunnel link tunnel
        (t.setTunnel link tunnel { y with txcnt := y.txcnt + 1 }).emit (.frame link tunnel (frameOf (x.up && f.2.all fun m => m.typ != mKeyx) false y f.1 f.2)))
        ((s.setTunnel link tunnel { x with sentGt := s.now }).countReg (lnkCnt link 3) 1)
    else s)

/-- TUNNEL_DOWN (R394): 10 ms without progress, and its messages are lost. It then agrees keys anew, which the spec does not say (DESIGN CHOICE, log entry 79). -/
def execTunnelDown (link tunnel : Nat) (s : State) : Host.Outcome State Fault Refusal :=
  withUnit (okTunnel link tunnel) (
    let x := s.tunnel link tunnel
    if x.unacked != [] && decide (x.progGt + 10 ^ 7 ≤ s.now) then
      let t := (s.loseTunnel link tunnel).logRaise sevNotice none (engLink link) 0x40 (leBytes 1 link ++ leBytes 1 lsUp ++ leBytes 1 lsUp)
      if t.linkUp link && t.linkEth link && t.bit (lnkTun link tunnel) 16 then t.startTunnel link tunnel else t
    else s)

end Sys2Proof.Machine
end

