-- ==== Sys2Proof/Machine/Collective.lean ====
section
/-! DEFINITION. Collective slots: descriptors, contributions as values, sums and their outputs (R381 to R386). -/

namespace Sys2Proof.Machine

/-! Descriptors (R382). -/

/-- Bytes of one element of a contribution, by IFMT. -/
def collSize : Nat → Nat
  | 0 | 4 => 4
  | 1 | 2 => 2
  | 3 => 1
  | _ => 16

/-- A descriptor keeps the table of R382: reserved fields 0, and each value in its range. -/
def collDescOk (d : List Byte) : Bool :=
  let op := numAt d 1 1
  getBits (numAt d 0 1) 0 1 == 1 && getBits (numAt d 0 1) 3 5 == 0 &&
  decide (op ≤ 2 ∧ numAt d 2 1 ≤ 5 ∧ numAt d 3 1 ≤ 6 ∧ 1 ≤ numAt d 4 1 ∧ numAt d 4 1 ≤ 15 ∧ 1 ≤ numAt d 8 4 ∧ numAt d 8 4 ≤ 524288) &&
  (op == 0 || numAt d 2 1 == 4) &&
  numAt d 5 1 == 0 && numAt d 0xD 3 == 0 && ((slice d 0x20 32).all (· == 0))

/-- The slot that a descriptor at `va` opens. A maximum or a minimum is kept as an integer, at the anchor whose unit is 1 (log entry 60). -/
def collOf (d : List Byte) (va : Nat) : Coll :=
  { ofmt := numAt d 3 1, ifmt := numAt d 2 1, op := numAt d 1 1
    satf := getBits (numAt d 0 1) 1 1 == 1, outRemote := getBits (numAt d 0 1) 2 1 == 1
    ncontrib := numAt d 4 1, nelem := numAt d 8 4
    anchor := if numAt d 1 1 = 0 then signedOf 10 (numAt d 6 2) else 96
    out := numAt d 0x10 8, event := numAt d 0x18 8, descVa := va }

/-- Slot records and elements in use on the collective unit of a die, beside slot `k` of `p` (R383). -/
def State.collUsed (s : State) (d p k : Nat) : Nat × Nat :=
  (s.parts.filter fun e => (s.ent e.1).lead == d).foldl (fun (a : Nat × Nat) e =>
    e.2.coll.foldl (fun (b : Nat × Nat) x => if e.1 = p ∧ x.1 = k then b else (b.1 + 1, b.2 + x.2.nelem)) a) (0, 0)

/-! Values (R41, R51, R52, R382). -/

/-- An element of a contribution that is not raw, with its unit's exponent. -/
def collElem (ifmt x : Nat) : Elem × Int :=
  match ifmt with
  | 0 => (fvElem Fmt.f32.qmin (Fmt.f32.decode x), Fmt.f32.qmin)
  | 1 => (ElemFmt.bf16.decode x, ElemFmt.q .bf16)
  | 2 => (ElemFmt.fp16.decode x, ElemFmt.q .fp16)
  | 3 => (ElemFmt.e4m3.decode x, ElemFmt.q .e4m3)
  | _ => (.val (signedOf 32 x), 0)

/-- What an element gives its sum. -/
def collPart : Elem → Contribution
  | .nan => { nan := true }
  | .inf false => { pinf := true }
  | .inf true => { ninf := true }
  | .val v => { sum := v }

def Coll.entry (c : Coll) (i : Nat) : Entry := { n := (tget 0 c.sums i).toInt, hidden := tget 0 c.hidden i }

def Coll.setEntry (c : Coll) (i : Nat) (r : Entry × BitVec 8) : Coll :=
  { c with sums := tset c.sums i (BitVec.ofInt 128 r.1.n), hidden := tput 0 c.hidden i r.1.hidden, status := c.status ||| r.2 }

/-- Add one element (R51), or keep the larger or the smaller. -/
def Coll.addElem (c : Coll) (i x : Nat) (aux : Word64) : Coll :=
  if c.ifmt = 5 then
    c.setEntry i (anchoredAdd c.anchor (c.entry i) (signedOf 128 x) (signedOf 10 (getBits aux.toNat 0 10) - 96))
  else if c.op = 0 then
    let e := collElem c.ifmt x
    c.setEntry i (addKblock c.anchor (c.entry i) (collPart e.1) e.2)
  else
    let v := signedOf 32 x
    match tfind c.sums i with
    | none => c.setEntry i ({ n := v }, 0)
    | some o => c.setEntry i ({ n := if c.op = 1 then max o.toInt v else min o.toInt v }, 0)

/-- What the status byte of a raw contribution does (R52). -/
def Coll.addStatus (c : Coll) (aux : Word64) : Coll :=
  if c.ifmt = 5 then
    let src : BitVec 8 := BitVec.ofNat 8 (getBits aux.toNat 16 5)
    let special := src &&& (tsNan ||| tsPinf ||| tsNinf) != 0
    { c with
      status := c.status ||| src ||| (if special then tsNan else 0)
      hidden := if special then (upTo c.nelem).foldl (fun h i => tset h i (tget 0 h i ||| 2)) c.hidden else c.hidden }
  else c

/-! Granules (R384). -/

/-- Bytes of one contributor's data. -/
def Coll.total (c : Coll) : Nat := c.nelem * collSize c.ifmt

/-- A contribution covers whole granules of a contributor of the slot. -/
def Coll.covers (c : Coll) (va n : Nat) : Bool :=
  let off := va % 2 ^ 24
  decide (getBits va 24 4 < c.ncontrib ∧ 0 < n ∧ off % 64 = 0 ∧ off + n ≤ c.total ∧ ((off + n) % 64 = 0 ∨ off + n = c.total))

/-- Add the granules of a contribution that have not been received. -/
def Coll.receive (c : Coll) (va : Nat) (bs : List Byte) (aux : Word64) : Coll :=
  let off := va % 2 ^ 24
  let w := collSize c.ifmt
  let gran := (upTo ((bs.length + 63) / 64)).filter fun g => !c.got.contains (getBits va 24 4 * 2 ^ 24 + off / 64 + g)
  gran.foldl (fun (x : Coll) g =>
    let part := slice bs (64 * g) (min 64 (bs.length - 64 * g))
    let y := (upTo (part.length / w)).foldl (fun (z : Coll) j => z.addElem ((off + 64 * g) / w + j) (numAt part (w * j) w) aux) (x.addStatus aux)
    { y with got := sins y.got (getBits va 24 4 * 2 ^ 24 + off / 64 + g) }) c

/-- Every granule of every contributor has been received. -/
def Coll.full (c : Coll) : Bool := c.got.length == c.ncontrib * ((c.total + 63) / 64)

/-! Outputs (R385). -/

/-- The bytes of one sum in the output format: the codes of R61 and R62, or the raw value. -/
def Coll.outElem (c : Coll) (i : Nat) : List Byte :=
  if c.ofmt = 6 then leBytes 16 (tget 0 c.sums i).toNat
  else leBytes (drainSize c.ofmt) (drainCode c.ofmt c.satf (drainV c.anchor (c.entry i)))

def Coll.outBytes (c : Coll) : List Byte := (upTo c.nelem).flatMap c.outElem

/-- The raw sums as contributions to another slot: one for each aligned block of 256 bytes. -/
def State.outMsgs (s : State) (p : Nat) (c : Coll) : List Msg :=
  let aux := intBits 10 c.anchor + c.status.toNat * 2 ^ 16
  let raw := (upTo c.nelem).flatMap fun i => leBytes 16 (tget 0 c.sums i).toNat
  (upTo ((raw.length + 255) / 256)).map fun j =>
    s.request mContrib 2 p c.round (c.out + 256 * j) aux (slice raw (256 * j) (min 256 (raw.length - 256 * j)))

/-- Steps 3 and 4: the record, then the next round. -/
def State.openRound (s : State) (p k : Nat) : State :=
  match s.coll? p k with
  | none => s
  | some c =>
    let v := c.round % 2 ^ 63 + (if c.trapped then 2 ^ 63 else 0)
    let t := if c.event = 0 then s else match s.eventWord p c.event with
      | (.ok a, u) => u.eventMax p a v
      | (.error _, u) => u
    t.setColl p k { c with round := c.round + 1, sums := [], hidden := [], status := 0, got := [], waiting := [], closing := false, trapped := false, outq := [], outLeft := 0 }

/-- Steps 1 and 2 of a round that has completed: the outputs and STATUS. An output that is not performed keeps the next round closed. -/
def State.closeRound (s : State) (p k : Nat) : State :=
  match s.coll? p k with
  | none => s
  | some c0 =>
    let trapped := c0.waiting != [] && c0.status &&& (tsInexact ||| tsOvf) != 0
    let c := { c0 with closing := true, trapped := trapped, waiting := [] }
    let t := s.trace (engFe (s.leadDie p)) tyEnd p false (c.round % 2 ^ 48 + k * 2 ^ 48)
    let u :=
      if trapped then t.setColl p k c
      else if c.outRemote then
        let ms := t.outMsgs p c
        t.setColl p k { c with outq := ms, outLeft := ms.length }
      else
        let r := t.storeBytes p c.out c.outBytes
        r.2.setColl p k { c with outLeft := if r.1 then 0 else 1 }
    let v := ((u.storeBytes p (c.descVa + 0xC) [c.status]).2).sendOuts p k
    match v.coll? p k with
    | some x => if x.outLeft = 0 then v.openRound p k else v
    | none => v

/-- An output of a slot has been performed. -/
def State.outAcked (s : State) (r : RReq) : State :=
  match s.coll? r.part r.load with
  | some c =>
    if c.closing ∧ c.round = r.run ∧ r.epoch = s.epochOf r.part then
      let t := s.setColl r.part r.load { c with outLeft := c.outLeft - 1 }
      if c.outLeft ≤ 1 then t.openRound r.part r.load else t
    else s
  | none => s

/-- The outputs under way of a slot that closes or is armed again are no longer its own. -/
def State.unlinkOuts (s : State) (p k : Nat) : State :=
  { s with dies := s.dies.map fun (e : Nat × Die) =>
      (e.1, { e.2 with tracks := e.2.tracks.map fun (r : Nat × RReq) =>
        (r.1, if r.2.kind = 4 ∧ r.2.part = p ∧ r.2.load = k then { r.2 with run := 0 } else r.2) }) }

/-! Slot commands (R383); each raises vector 57 as it completes (R408). -/

/-- ARM: the descriptor is read and checked, the slot is clear and round 1 opens. -/
def State.armColl (s : State) (vf p k : Nat) : State :=
  let result (t : State) (r : Nat) : State := (t.setFld (vfKey vf vfCstat) 8 8 r).irq vf 57
  let va := s.reg64 (vfKey vf vfCbase) + 64 * k
  if s.reg64 (vfKey vf vfCbase) % 64 ≠ 0 then result s 1
  else match s.fetchBytes p va 64 with
    | (.error _, t) => result t 1
    | (.ok d, t) =>
      if collDescOk d then
        let c := collOf d va
        let u := t.collUsed (t.leadDie p) p k
        if (t.die (t.leadDie p)).collRetired ∨ 1024 ≤ u.1 ∨ 524288 < u.2 + c.nelem then result t 3
        else result ((t.unlinkOuts p k).setColl p k c) 0
      else result t 2

/-- DISARM: the slot closes. -/
def State.disarmColl (s : State) (vf p k : Nat) : State :=
  ((s.unlinkOuts p k).modPart p fun y => { y with coll := tdel y.coll k }).setFld (vfKey vf vfCstat) 8 8 0 |>.irq vf 57

/-- VF_CARM with ARM set (R383). -/
def execVfCarmArm (vf slot : Nat) (s : State) : Host.Outcome State Fault Refusal :=
  withUnit (okVf vf) (s.vfStores vf fun s => match s.vfPart vf with
    | some p => s.armColl vf p (slot % 256)
    | none => s)

/-- VF_CARM with DISARM set (R383). -/
def execVfCarmDisarm (vf slot : Nat) (s : State) : Host.Outcome State Fault Refusal :=
  withUnit (okVf vf) (s.vfStores vf fun s => match s.vfPart vf with
    | some p => s.disarmColl vf p (slot % 256)
    | none => s)

end Sys2Proof.Machine
end

