-- ==== Sys2Proof/Machine/Control.lean ====
section
/-! DEFINITION. Control flow, barriers, fences and special registers (R95 to R97, R113 to R115, R132, R238), and words that no row lists (R111). -/

namespace Sys2Proof.Machine

/-- CTL_NOP: it does nothing (R113). -/
def State.rowCtlNop (s : State) (g : GRef) (w : Word64) : State :=
  s.issueAlu g w fun _ c => c.gr

/-- Lanes exit and leave every mask (R75, R113); their reservations end with them. -/
def Group.exitLanes (gr : Group) (m : BitVec 32) : Group :=
  { gr with
    active := gr.active &&& ~~~m
    exited := gr.exited ||| m
    stack := gr.stack.map fun f => match f with
      | .entry rc tk k => .entry rc tk (k &&& ~~~m)
      | .join rc k => .join rc (k &&& ~~~m)
    resv := gr.resv.filter fun e => !m.getLsbD e.1 }

/-- CTL_EXIT. -/
def State.rowCtlExit (s : State) (g : GRef) (w : Word64) : State :=
  s.issue g w fun c t =>
    (t.issued g c).settleGroup g (c.gr.exitLanes (c.gr.active &&& c.gr.guard w)).next

/-- A cluster-window write of a group to its own block's local store that has not been performed. -/
def Core.ownWrites (c : Core) (p slot uid : Nat) : Bool :=
  c.creqs.any fun e => e.2.guid == uid && (e.2.kind == 1 || e.2.kind == 3) && e.2.served.isNone && e.2.lanes.any fun l => l.core == p && l.slot == slot

/-- A write through a cluster window to one of some blocks has not been performed, whoever sent it: a group that has exited too (R96). -/
def State.windowWrites (s : State) (ms : List (Nat × Nat × Block)) : Bool :=
  s.cores.any fun e => e.2.creqs.any fun r => (r.2.kind == 1 || r.2.kind == 3) && r.2.served.isNone &&
    r.2.lanes.any fun l => ms.any fun m => m.1 == l.core && m.2.1 == l.slot && m.2.2.uid == l.block

/-- The fence that an arriving group completes first (R240): once its accesses are performed at the barrier's scope, at a block barrier its writes to the block's own local store among them however they went there (R96), and at a cluster barrier L1 is dropped. -/
def State.arrive (s : State) (g : GRef) : State :=
  match s.group? g with
  | none => s
  | some gr =>
    match gr.wait with
    | .barrier wide =>
      if gr.fenced = false ∧ s.reached g gr.uid (if wide then 1 else 0) = true ∧ (s.core g.core).ownWrites g.core gr.block gr.uid = false then
        let t := s.modGroup g fun x => { x with fenced := true }
        if wide then t.dropL1 g.core else t
      else s
    | _ => s

/-- A barrier instruction: the group arrives and waits, unless its guard is false in every active lane (R95). -/
def State.barrier (s : State) (g : GRef) (w : Word64) (wide : Bool) : State :=
  s.issue g w fun c t =>
    let u := (t.issued g c).retire g c.gr
    if c.gr.lanes w = [] then u else (u.park g (.barrier wide) .none).arrive g

/-- BAR_BLOCK (R95, R240). -/
def State.rowBarBlock (s : State) (g : GRef) (w : Word64) : State :=
  s.barrier g w false

/-- BAR_CLUSTER (R95, R240). -/
def State.rowBarCluster (s : State) (g : GRef) (w : Word64) : State :=
  s.barrier g w true

/-- The blocks of a group's cluster. -/
def State.clusterOf (s : State) (g : GRef) : List (Nat × Nat × Block) :=
  match (s.group? g).bind fun gr => tfind (s.core g.core).blocks gr.block with
  | some b => s.cluster b
  | none => []

/-- The groups that a barrier of group `g` gathers: of its block, or of its cluster. -/
def State.barrierGroups (s : State) (g : GRef) (wide : Bool) : List (GRef × Group) :=
  match s.group? g with
  | none => []
  | some gr =>
    match tfind (s.core g.core).blocks gr.block with
    | none => []
    | some b =>
      let blocks := if wide then (s.cluster b).map fun m => (m.1, m.2.1) else [(g.core, gr.block)]
      blocks.flatMap fun m => ((s.core m.1).groupsOf m.2).map fun e => (⟨m.1, e.1 / 16, e.1 % 16⟩, e.2)

/-- The barrier that a group waits at opens when every group has arrived, its fence of R240 complete; at a cluster barrier, when every write through a window to a block of the cluster has been performed too (R96), and it drops L1 again. -/
def State.openBarrier (s : State) (g : GRef) (wide : Bool) : State :=
  let t := (s.barrierGroups g wide).foldl (fun t e => t.arrive e.1) s
  let gs := t.barrierGroups g wide
  if (gs.all fun e => e.2.wait == Wait.barrier wide && e.2.fenced) && !(wide && t.windowWrites (t.clusterOf g)) then
    let u := gs.foldl (fun t e => t.wake e.1) t
    if wide then gs.foldl (fun t e => t.dropL1 e.1.core) u else u
  else t

/-- BARRIER_OPEN (R95, R97). -/
def execBarrierOpen (g : GRef) (s : State) : Host.Outcome State Fault Refusal :=
  withUnit (okGroup g) (match s.group? g with
    | some gr =>
      match gr.wait with
      | .barrier wide => s.openBarrier g wide
      | _ => s
    | none => s)

/-- CTL_JMP: the target is a multiple of 8 (R113). -/
def State.rowCtlJmp (s : State) (g : GRef) (w : Word64) : State :=
  s.issue g w fun c t =>
    let a := c.gr.rd 0 true (fA w) 2
    if a % 8 = 0 then (t.issued g c).setGroup g (c.gr.goto a)
    else t.raise g c.lid c.la.part c.gr.pc w { cause := exMisaligned, lane := c.gr.low, addr := a }

/-- FENCE: the group waits in the pending set (R132). -/
def State.rowFence (s : State) (g : GRef) (w : Word64) : State :=
  s.issue g w fun c t =>
    let u := (t.issued g c).retire g c.gr
    if c.gr.lanes w = [] then u else u.park g (.fence (fMod w % 8)) .none

/-- FENCE_COMPLETE: the wait ends once the group's accesses are performed at the scope; at cluster scope or wider L1 is dropped (R132, R238). A group at a barrier completes the fence of its arrival (R240). -/
def execFenceComplete (g : GRef) (s : State) : Host.Outcome State Fault Refusal :=
  withUnit (okGroup g) (match s.group? g with
    | some gr =>
      match gr.wait with
      | .fence sc =>
        if s.reached g gr.uid sc then
          let t := if sc = 0 then s else s.dropL1 g.core
          t.wake g
        else s
      | .barrier _ => s.arrive g
      | _ => s
    | none => s)

/-- The value of a special register in a lane (R114, R115). For LANEID in a uniform ctl.rsr, which runs once for no lane of its own, the spec states nothing: the model gives the lowest active lane (DESIGN CHOICE, log entry 76). -/
def State.special (s : State) (g : GRef) (c : Ctx) (lane num : Nat) : Nat :=
  match num with
  | 0x00 => lane
  | 0x01 => c.gr.gnum
  | 0x03 | 0x04 | 0x05 => c.la.coord c.blk.num (num - 3)
  | 0x06 | 0x07 | 0x08 => c.la.dim (num - 6)
  | 0x09 => c.blk.threads
  | 0x0A => c.blk.num % c.blk.csize
  | 0x0B => c.blk.csize
  | 0x0C => (s.logOf g.core).getD 0
  | 0x0D => c.la.part
  | 0x0E => s.fld chartDevid 0 16
  | 0x10 => s.gtOn (dieOfPhys g.core)
  | 0x12 => c.gr.fpstat.toNat
  | 0x13 => c.gr.active.toNat
  | 0x15 => c.la.room
  | 0x16 => if c.la.nonpre then 1 else 0
  | _ => 0

/-- CTL_RSR: MOD[0] also clears FPSTAT (R114). -/
def State.rowCtlRsr (s : State) (g : GRef) (w : Word64) : State :=
  s.issueAlu g w fun t c =>
    let lanes := c.gr.lanes w
    let gr := c.gr.each lanes fun _ l a => a.wrD w l (if fA w = 0x10 then 2 else 1) (t.special g c l (fA w))
    if lanes ≠ [] ∧ getBits (fMod w) 0 1 = 1 then { gr with fpstat := 0 } else gr

/-- A branch target: a signed count of words from the branch (R107). -/
def branchTo (pc field : Nat) : Nat := intBits 64 ((pc : Int) + 8 * signedOf 24 field)

/-- BR: unguarded, uniform or divergent (R73, R74, R113). -/
def State.rowBr (s : State) (g : GRef) (w : Word64) : State :=
  s.issue g w fun c t =>
    let tgt := branchTo c.gr.pc (fieldOf w 47 24)
    let taken := c.gr.active &&& c.gr.guard w
    if taken = c.gr.active then (t.issued g c).setGroup g (c.gr.goto tgt)
    else if taken = 0 then (t.issued g c).retire g c.gr
    else if c.gr.depth < 32 then
      (t.issued g c).retire g { c.gr with
        active := c.gr.active &&& ~~~taken
        stack := .entry (branchTo c.gr.pc (fieldOf w 23 0)) tgt taken :: c.gr.stack }
    else t.raise g c.lid c.la.part c.gr.pc w { cause := exStack, lane := c.gr.low }

/-- BR_LINK: the next address goes to u62:u63 (R113). -/
def State.rowBrLink (s : State) (g : GRef) (w : Word64) : State :=
  s.issue g w fun c t => (t.issued g c).setGroup g <|
    (c.gr.wr 0 true 62 2 (c.gr.pc + 8)).goto (branchTo c.gr.pc (fieldOf w 47 24))

/-- ILLEGAL_OPCODE: a word that no row lists (R111, R138). -/
def State.rowIllegalOpcode (s : State) (g : GRef) (w : Word64) : State :=
  s.issue g w fun _ t => t

end Sys2Proof.Machine
end

