-- ==== Sys2Proof/Machine/Issue.lean ====
section
/-! DEFINITION. Which group issues (R76, R166), and the rows of the instruction set as commands: each gives the meaning of its row where it is the group's turn. -/

namespace Sys2Proof.Machine

/-- What a group does as it issues a word: the meaning of the word's row. -/
def State.runRow (s : State) (g : GRef) (w : Word64) : State :=
  match rowOf w with
  | .i32Op => s.rowI32Op g w
  | .i64Op => s.rowI64Op g w
  | .intCmp => s.rowIntCmp g w
  | .immV => s.rowImmV g w
  | .immU => s.rowImmU g w
  | .f32Op => s.rowF32Op g w
  | .f64Op => s.rowF64Op g w
  | .h2Op => s.rowH2Op g w
  | .fpCmp => s.rowFpCmp g w
  | .cnv => s.rowCnv g w
  | .sfOp => s.rowSfOp g w
  | .prOp => s.rowPrOp g w
  | .grpShfl => s.rowGrpShfl g w
  | .grpVote => s.rowGrpVote g w
  | .ctlNop => s.rowCtlNop g w
  | .ctlExit => s.rowCtlExit g w
  | .barBlock => s.rowBarBlock g w
  | .barCluster => s.rowBarCluster g w
  | .ctlJmp => s.rowCtlJmp g w
  | .fence => s.rowFence g w
  | .ctlRsr => s.rowCtlRsr g w
  | .br => s.rowBr g w
  | .brLink => s.rowBrLink g w
  | .illegal => s.rowIllegalOpcode g w
  | .ldLocal => s.rowLdLocal g w
  | .stLocal => s.rowStLocal g w
  | .rmwLocal => s.rowRmwLocal g w
  | .ldCluster => s.rowLdCluster g w
  | .stCluster => s.rowStCluster g w
  | .rmwCluster => s.rowRmwCluster g w
  | .ldGlobal => s.rowLdGlobal g w
  | .stGlobal => s.rowStGlobal g w
  | .zlGlobal => s.rowZlGlobal g w
  | .ldRemote => s.rowLdRemote g w
  | .stRemote => s.rowStRemote g w
  | .stRemoteFinal => s.rowStRemoteFinal g w
  | .rmwGlobal => s.rowRmwGlobal g w
  | .rmwPost => s.rowRmwPost g w
  | .ll => s.rowLl g w
  | .sc => s.rowSc g w
  | .evRec => s.rowEvRec g w
  | .semRel => s.rowSemRel g w
  | .mxHdl => s.rowMxHdl g w
  | .mxFill => s.rowMxFill g w
  | .mxLdb => s.rowMxLdb g w
  | .mxMma => s.rowMxMma g w
  | .mxClr => s.rowMxClr g w
  | .mxAddraw => s.rowMxAddraw g w
  | .mxDrain => s.rowMxDrain g w
  | .mxStat => s.rowMxStat g w
  | .mxNest => s.rowMxNest g w

/-! Eligibility (R76). -/

/-- The group, alone in the active set of a scheduler whose mark of the last issue names no slot. -/
def State.alone (s : State) (g : GRef) : State :=
  s.modCore g.core fun c => c.setSched g.sched { active := [g.slot], ready := [], last := 16 }

/-- The word would issue now, were it the group's turn: its operands and what orders it are there and every unit that it asks takes it, or it raises its exception. One that waits, in the active set or on its way to the pending set, does not (R76, R77). -/
def State.acts (s : State) (g : GRef) (w : Word64) : Bool :=
  let t := (s.alone g).runRow g w
  ((t.core g.core).sched g.sched).last != 16 || (match t.group? g with
    | some x => x.stopped
    | none => true)

/-- The word at a group's pc, if the group may issue; an address that cannot be fetched raises its exception whatever the word. -/
def State.nextWord (s : State) (g : GRef) : Option Word64 :=
  (s.issueCtx g).map fun c => match (s.fetch g c).1 with
    | .word w => w
    | .fault _ => 0

/-- The word of an active group that is eligible: it would issue, and the group's results in flight and its pipe let it, which is a free value, since the model counts no beats (log entry 70). -/
def State.eligible (s : State) (g : GRef) : Option Word64 :=
  (s.nextWord g).filter fun w => Config.canIssue g.core g.sched g.slot s.now && s.acts g w

/-- A matrix instruction. -/
def isMx (w : Word64) : Bool := bodyOf w == .mx

/-- A scheduler has an eligible matrix instruction. -/
def State.wantsMx (s : State) (p k : Nat) : Bool :=
  ((s.core p).sched k).active.any fun a => ((s.eligible ⟨p, k, a⟩).map isMx).getD false

/-- How far number `x` of `n` stands behind the last that was served, in round-robin order. -/
def turnOf (n last x : Nat) : Nat := (x + (n - 1) - last % n) % n

/-- The unit grants matrix issue to the scheduler, of those that have an eligible matrix instruction: the first after the one granted last (R166). -/
def State.mxGrants (s : State) (p h : Nat) : Bool :=
  (upTo 4).all fun k => decide (turnOf 4 (s.mx p).granted h ≤ turnOf 4 (s.mx p).granted k) || !(s.wantsMx p k)

/-- It is the group's turn: no eligible group of its scheduler stands between the one that issued last and it, a matrix instruction being eligible only with the unit's grant (R76, R166). Rounds go by slot number (log entry 70). -/
def State.turn (s : State) (g : GRef) (w : Word64) : Bool :=
  let q := (s.core g.core).sched g.sched
  let granted (v : Word64) : Bool := !(isMx v) || s.mxGrants g.core g.sched
  granted w && q.active.all fun a =>
    decide (turnOf 16 q.last g.slot ≤ turnOf 16 q.last a) || !(((s.eligible ⟨g.core, g.sched, a⟩).map granted).getD false)

/-- A row's command: the group issues, if its turn has come; what only waits moves to the pending set at any time (R77). -/
def State.inTurn (s : State) (g : GRef) (w : Word64) (row : State → State) : State :=
  match s.issueCtx g with
  | none => s
  | some _ =>
    if s.acts g w then
      if s.turn g w then (if isMx w then (row s).modMx g.core fun x => { x with granted := g.sched } else row s) else s
    else row s

/-! Beats (R506). -/

/-- How far a core comes in the present nanosecond, in 1/4,096 beat and from its last whole beat: nowhere without work, or with its rail down. -/
def State.progress (s : State) (p : Nat) : Nat :=
  (s.core p).phase % 4096 + (if (s.core p).busy && s.lamp (lampRail (p / 51)) then s.rateAt p s.now else 0)

/-- The whole beats of the present nanosecond: four at most (R464, R467). -/
def State.beatsOf (s : State) (p : Nat) : Nat := s.progress p / 4096

/-- The cores with work keep what is left of their last beat. -/
def State.tickPhase (s : State) : State :=
  { s with cores := s.cores.map fun e => if e.2.busy then (e.1, { e.2 with phase := s.progress e.1 % 4096 }) else e }

/-- The schedulers of a core that have no eligible group. -/
def State.idleScheds (s : State) (p : Nat) : Nat :=
  ((upTo 4).filter fun k => ((s.core p).sched k).active.all fun a => (s.eligible ⟨p, k, a⟩).isNone).length

/-- A nanosecond of the cores: the counters of beats count its beats, of a core and of each of its schedulers without an eligible group. -/
def State.tickBeats (s : State) : State := ((s.pmTime evBeats s.beatsOf).pmTime evNoGroup fun p => s.idleScheds p * s.beatsOf p).tickPhase

/-! The rows. -/

/-- I32_OP (R116). -/
def execI32Op (g : GRef) (w : Word64) (s : State) : Host.Outcome State Fault Refusal :=
  withWord g w .i32Op (s.inTurn g w fun t => t.rowI32Op g w)

/-- I64_OP (R116). -/
def execI64Op (g : GRef) (w : Word64) (s : State) : Host.Outcome State Fault Refusal :=
  withWord g w .i64Op (s.inTurn g w fun t => t.rowI64Op g w)

/-- INT_CMP (R117). -/
def execIntCmp (g : GRef) (w : Word64) (s : State) : Host.Outcome State Fault Refusal :=
  withWord g w .intCmp (s.inTurn g w fun t => t.rowIntCmp g w)

/-- IMM_V (R107, R111). -/
def execImmV (g : GRef) (w : Word64) (s : State) : Host.Outcome State Fault Refusal :=
  withWord g w .immV (s.inTurn g w fun t => t.rowImmV g w)

/-- IMM_U (R107, R110). -/
def execImmU (g : GRef) (w : Word64) (s : State) : Host.Outcome State Fault Refusal :=
  withWord g w .immU (s.inTurn g w fun t => t.rowImmU g w)

/-- F32_OP (R119, R120). -/
def execF32Op (g : GRef) (w : Word64) (s : State) : Host.Outcome State Fault Refusal :=
  withWord g w .f32Op (s.inTurn g w fun t => t.rowF32Op g w)

/-- F64_OP (R119, R120). -/
def execF64Op (g : GRef) (w : Word64) (s : State) : Host.Outcome State Fault Refusal :=
  withWord g w .f64Op (s.inTurn g w fun t => t.rowF64Op g w)

/-- H2_OP (R119, R120). -/
def execH2Op (g : GRef) (w : Word64) (s : State) : Host.Outcome State Fault Refusal :=
  withWord g w .h2Op (s.inTurn g w fun t => t.rowH2Op g w)

/-- FP_CMP (R117, R120). -/
def execFpCmp (g : GRef) (w : Word64) (s : State) : Host.Outcome State Fault Refusal :=
  withWord g w .fpCmp (s.inTurn g w fun t => t.rowFpCmp g w)

/-- CNV (R121). -/
def execCnv (g : GRef) (w : Word64) (s : State) : Host.Outcome State Fault Refusal :=
  withWord g w .cnv (s.inTurn g w fun t => t.rowCnv g w)

/-- SF_OP (R122). -/
def execSfOp (g : GRef) (w : Word64) (s : State) : Host.Outcome State Fault Refusal :=
  withWord g w .sfOp (s.inTurn g w fun t => t.rowSfOp g w)

/-- PR_OP (R118). -/
def execPrOp (g : GRef) (w : Word64) (s : State) : Host.Outcome State Fault Refusal :=
  withWord g w .prOp (s.inTurn g w fun t => t.rowPrOp g w)

/-- GRP_SHFL (R93, R133). -/
def execGrpShfl (g : GRef) (w : Word64) (s : State) : Host.Outcome State Fault Refusal :=
  withWord g w .grpShfl (s.inTurn g w fun t => t.rowGrpShfl g w)

/-- GRP_VOTE (R94, R133). -/
def execGrpVote (g : GRef) (w : Word64) (s : State) : Host.Outcome State Fault Refusal :=
  withWord g w .grpVote (s.inTurn g w fun t => t.rowGrpVote g w)

/-- CTL_NOP (R113). -/
def execCtlNop (g : GRef) (w : Word64) (s : State) : Host.Outcome State Fault Refusal :=
  withWord g w .ctlNop (s.inTurn g w fun t => t.rowCtlNop g w)

/-- CTL_EXIT. -/
def execCtlExit (g : GRef) (w : Word64) (s : State) : Host.Outcome State Fault Refusal :=
  withWord g w .ctlExit (s.inTurn g w fun t => t.rowCtlExit g w)

/-- BAR_BLOCK (R95, R240). -/
def execBarBlock (g : GRef) (w : Word64) (s : State) : Host.Outcome State Fault Refusal :=
  withWord g w .barBlock (s.inTurn g w fun t => t.rowBarBlock g w)

/-- BAR_CLUSTER (R95, R240). -/
def execBarCluster (g : GRef) (w : Word64) (s : State) : Host.Outcome State Fault Refusal :=
  withWord g w .barCluster (s.inTurn g w fun t => t.rowBarCluster g w)

/-- CTL_JMP (R113). -/
def execCtlJmp (g : GRef) (w : Word64) (s : State) : Host.Outcome State Fault Refusal :=
  withWord g w .ctlJmp (s.inTurn g w fun t => t.rowCtlJmp g w)

/-- FENCE (R132). -/
def execFence (g : GRef) (w : Word64) (s : State) : Host.Outcome State Fault Refusal :=
  withWord g w .fence (s.inTurn g w fun t => t.rowFence g w)

/-- CTL_RSR (R114). -/
def execCtlRsr (g : GRef) (w : Word64) (s : State) : Host.Outcome State Fault Refusal :=
  withWord g w .ctlRsr (s.inTurn g w fun t => t.rowCtlRsr g w)

/-- BR (R73, R74, R113). -/
def execBr (g : GRef) (w : Word64) (s : State) : Host.Outcome State Fault Refusal :=
  withWord g w .br (s.inTurn g w fun t => t.rowBr g w)

/-- BR_LINK (R113). -/
def execBrLink (g : GRef) (w : Word64) (s : State) : Host.Outcome State Fault Refusal :=
  withWord g w .brLink (s.inTurn g w fun t => t.rowBrLink g w)

/-- ILLEGAL_OPCODE (R111, R138). -/
def execIllegalOpcode (g : GRef) (w : Word64) (s : State) : Host.Outcome State Fault Refusal :=
  withWord g w .illegal (s.inTurn g w fun t => t.rowIllegalOpcode g w)

/-- LD_LOCAL (R91, R124, R125). -/
def execLdLocal (g : GRef) (w : Word64) (s : State) : Host.Outcome State Fault Refusal :=
  withWord g w .ldLocal (s.inTurn g w fun t => t.rowLdLocal g w)

/-- ST_LOCAL (R91, R125). -/
def execStLocal (g : GRef) (w : Word64) (s : State) : Host.Outcome State Fault Refusal :=
  withWord g w .stLocal (s.inTurn g w fun t => t.rowStLocal g w)

/-- RMW_LOCAL (R128, R130). -/
def execRmwLocal (g : GRef) (w : Word64) (s : State) : Host.Outcome State Fault Refusal :=
  withWord g w .rmwLocal (s.inTurn g w fun t => t.rowRmwLocal g w)

/-- LD_CLUSTER (R100). -/
def execLdCluster (g : GRef) (w : Word64) (s : State) : Host.Outcome State Fault Refusal :=
  withWord g w .ldCluster (s.inTurn g w fun t => t.rowLdCluster g w)

/-- ST_CLUSTER (R100). -/
def execStCluster (g : GRef) (w : Word64) (s : State) : Host.Outcome State Fault Refusal :=
  withWord g w .stCluster (s.inTurn g w fun t => t.rowStCluster g w)

/-- RMW_CLUSTER (R100, R101, R128). -/
def execRmwCluster (g : GRef) (w : Word64) (s : State) : Host.Outcome State Fault Refusal :=
  withWord g w .rmwCluster (s.inTurn g w fun t => t.rowRmwCluster g w)

/-- LD_GLOBAL (R124, R125, R224, R227, R234). -/
def execLdGlobal (g : GRef) (w : Word64) (s : State) : Host.Outcome State Fault Refusal :=
  withWord g w .ldGlobal (s.inTurn g w fun t => t.rowLdGlobal g w)

/-- ST_GLOBAL (R125, R126, R207, R233). -/
def execStGlobal (g : GRef) (w : Word64) (s : State) : Host.Outcome State Fault Refusal :=
  withWord g w .stGlobal (s.inTurn g w fun t => t.rowStGlobal g w)

/-- ZL_GLOBAL (R126, R229, R270). -/
def execZlGlobal (g : GRef) (w : Word64) (s : State) : Host.Outcome State Fault Refusal :=
  withWord g w .zlGlobal (s.inTurn g w fun t => t.rowZlGlobal g w)

/-- LD_REMOTE (R127, R371, R378). -/
def execLdRemote (g : GRef) (w : Word64) (s : State) : Host.Outcome State Fault Refusal :=
  withWord g w .ldRemote (s.inTurn g w fun t => t.rowLdRemote g w)

/-- ST_REMOTE (R126, R127, R233, R425). -/
def execStRemote (g : GRef) (w : Word64) (s : State) : Host.Outcome State Fault Refusal :=
  withWord g w .stRemote (s.inTurn g w fun t => t.rowStRemote g w)

/-- ST_REMOTE_FINAL (R127, R134, R250, R353). -/
def execStRemoteFinal (g : GRef) (w : Word64) (s : State) : Host.Outcome State Fault Refusal :=
  withWord g w .stRemoteFinal (s.inTurn g w fun t => t.rowStRemoteFinal g w)

/-- RMW_GLOBAL (R130). -/
def execRmwGlobal (g : GRef) (w : Word64) (s : State) : Host.Outcome State Fault Refusal :=
  withWord g w .rmwGlobal (s.inTurn g w fun t => t.rowRmwGlobal g w)

/-- RMW_POST (R130, R134, R353). -/
def execRmwPost (g : GRef) (w : Word64) (s : State) : Host.Outcome State Fault Refusal :=
  withWord g w .rmwPost (s.inTurn g w fun t => t.rowRmwPost g w)

/-- LL (R131). -/
def execLl (g : GRef) (w : Word64) (s : State) : Host.Outcome State Fault Refusal :=
  withWord g w .ll (s.inTurn g w fun t => t.rowLl g w)

/-- SC (R131). -/
def execSc (g : GRef) (w : Word64) (s : State) : Host.Outcome State Fault Refusal :=
  withWord g w .sc (s.inTurn g w fun t => t.rowSc g w)

/-- EV_REC (R309). -/
def execEvRec (g : GRef) (w : Word64) (s : State) : Host.Outcome State Fault Refusal :=
  withWord g w .evRec (s.inTurn g w fun t => t.rowEvRec g w)

/-- SEM_REL. -/
def execSemRel (g : GRef) (w : Word64) (s : State) : Host.Outcome State Fault Refusal :=
  withWord g w .semRel (s.inTurn g w fun t => t.rowSemRel g w)

/-- MX_HDL (R147, R151, R168). -/
def execMxHdl (g : GRef) (w : Word64) (s : State) : Host.Outcome State Fault Refusal :=
  withWord g w .mxHdl (s.inTurn g w fun t => t.rowMxHdl g w)

/-- MX_FILL (R156, R167, R169, R179, R235, R239). -/
def execMxFill (g : GRef) (w : Word64) (s : State) : Host.Outcome State Fault Refusal :=
  withWord g w .mxFill (s.inTurn g w fun t => t.rowMxFill g w)

/-- MX_LDB (R157). -/
def execMxLdb (g : GRef) (w : Word64) (s : State) : Host.Outcome State Fault Refusal :=
  withWord g w .mxLdb (s.inTurn g w fun t => t.rowMxLdb g w)

/-- MX_MMA (R158, R168). -/
def execMxMma (g : GRef) (w : Word64) (s : State) : Host.Outcome State Fault Refusal :=
  withWord g w .mxMma (s.inTurn g w fun t => t.rowMxMma g w)

/-- MX_CLR (R153, R155). -/
def execMxClr (g : GRef) (w : Word64) (s : State) : Host.Outcome State Fault Refusal :=
  withWord g w .mxClr (s.inTurn g w fun t => t.rowMxClr g w)

/-- MX_ADDRAW (R150, R168). -/
def execMxAddraw (g : GRef) (w : Word64) (s : State) : Host.Outcome State Fault Refusal :=
  withWord g w .mxAddraw (s.inTurn g w fun t => t.rowMxAddraw g w)

/-- MX_DRAIN (R159, R168, R172, R179, R239). -/
def execMxDrain (g : GRef) (w : Word64) (s : State) : Host.Outcome State Fault Refusal :=
  withWord g w .mxDrain (s.inTurn g w fun t => t.rowMxDrain g w)

/-- MX_STAT (R160). -/
def execMxStat (g : GRef) (w : Word64) (s : State) : Host.Outcome State Fault Refusal :=
  withWord g w .mxStat (s.inTurn g w fun t => t.rowMxStat g w)

/-- MX_NEST (R161, R180, R186, R188, R190, R239). -/
def execMxNest (g : GRef) (w : Word64) (s : State) : Host.Outcome State Fault Refusal :=
  withWord g w .mxNest (s.inTurn g w fun t => t.rowMxNest g w)

end Sys2Proof.Machine
end

