-- ==== Sys2Proof/Machine/Messages.lean ====
section
/-! DEFINITION. Messages of the fabric as they are received: sent on, copied to a group, performed and answered (R263, R364, R368, R371, R374 to R379, R387, R390, R494). -/

namespace Sys2Proof.Machine

/-! Taking a message. -/

/-- The tunnel of a link in whose buffer a message waits. -/
def Link.tunnelWith (l : Link) (m : Msg) : Option (Nat × Tunnel) := l.tunnels.find? fun x => x.2.rxq.contains m

/-- Whether a message waits at a link, in its receiver or a tunnel's, and not only within the die's router. -/
def State.atLink (s : State) (n : Nat) (m : Msg) : Bool := (s.link n).rxq.contains m || ((s.link n).tunnelWith m).isSome

/-- Take a message from a link's receiver, or a tunnel's, freeing its credits there (R369, R393), or from the router of the link's die. -/
def State.takeMsg (s : State) (n : Nat) (m : Msg) : Option State :=
  if (s.link n).rxq.contains m then some (s.modLink n fun l => ({ l with rxq := l.rxq.erase m } : Link).freeCredits m)
  else match (s.link n).tunnelWith m with
  | some (k, x) => some (s.setTunnel n k (({ x with rxq := x.rxq.erase m } : Tunnel).freeCredits m))
  | none =>
    if (s.die (dieOfLink n)).loop.contains m then some (s.modDie (dieOfLink n) fun x => { x with loop := x.loop.erase m })
    else none

/-- Send a message on that is not for this module: to the next link, or to the members of its group, where a multicast message waits for a free record (R374, R376, R379). -/
def State.forward (s t : State) (n : Nat) (m : Msg) : State :=
  let d := dieOfLink n
  if isGroupId m.dst then
    if m.typ = mWr ∨ m.typ = mWrf then
      match t.replicate d m (some n) with
      | some u => u
      | none => if (t.groupEntry m.dst).isSome && !t.roomFor d m.dst 1 then s else t.noRoute n m
    else t.noRoute n m
  else match t.inject d m (some n) with
    | some u => u
    | none => t.noRoute n m

/-- A message of a type is received: it is sent on, or handled here. -/
def State.onMsg (s : State) (n : Nat) (m : Msg) (typ : Nat) (body : State → State) : State :=
  if m.typ = typ then
    match s.takeMsg n m with
    | none => s
    | some t => if s.atLink n m && m.dst != s.ownId then s.forward t n m else body t
  else s

/-! Answers. -/

/-- Answer a request that was handled on die `d`: to its source, or to the record that gathers a group's answers. -/
def State.reply (s : State) (d : Nat) (m : Msg) (typ aux : Nat) (data : List Byte) : State :=
  if isGroupId m.dst then
    match s.mcFind d m.tag m.src with
    | some (k, r) => s.mcAnswer d k r (if typ = mNack then some aux else none)
    | none => s
  else s.post d (s.answerTo m typ aux data)

/-- Bytes written with EA 0 are not acknowledged yet: the array has yet to take a line, or the host to complete a zero-length read (R230). -/
def State.owing (s : State) (spans : List (Nat × Nat)) : Bool := s.arrayWaits spans || spans.any fun x => decide (2 ^ 64 ≤ x.1)

/-- Acknowledge the writes whose lines the HBM array has taken, and whose zero-length reads the host has completed, by now (R230). -/
def State.payOwed (s : State) : State :=
  (upTo 4).foldl (fun t d =>
    let paid := (t.die d).owed.filter fun x => !t.owing x.2
    if paid = [] then t
    else paid.foldl (fun u x => u.reply d x.1 mAck 0 []) (t.modDie d fun y => { y with owed := y.owed.filter fun x => t.owing x.2 })) s

/-- The host answers the zero-length reads behind the writes of some copies, by a free choice for each launch (R230, log entry 75). -/
def State.copiesAnswered (s : State) : State :=
  (tkeys (s.launches.filter fun e => e.2.owed != [])).foldl (fun t lid =>
    let r := t.freeBit
    if r.1 then r.2.modLaunch lid fun l => { l with owed := [] } else r.2) s

/-- The host answers the zero-length reads behind some of the remote writes that a die owes, and behind copies, by a free choice for each: no command brings a completion (R230, log entry 75). -/
def State.hostAnswers (s : State) : State :=
  let s := s.copiesAnswered
  (upTo 4).foldl (fun t d => (upTo (t.die d).owed.length).foldl (fun u i =>
    if ((((u.die d).owed.map (·.2)).getD i []).any fun x => decide (2 ^ 64 ≤ x.1)) then
      let r := u.freeBit
      if r.1 then r.2.modDie d fun y => { y with owed := y.owed.modify i fun x => (x.1, x.2.filter fun z => decide (z.1 < 2 ^ 64)) } else r.2
    else u) t) s

/-- The host owes an answer: a zero-length read behind a remote write or a copy is out (R230). -/
def State.hostOwes (s : State) : Bool := (s.launches.any fun e => e.2.owed != []) || s.dies.any fun e => e.2.owed.any fun x => x.2.any fun z => decide (2 ^ 64 ≤ z.1)

/-- A moment without a command (log entry 1): beats pass, global time moves on, and the host answers what it owes. -/
def State.tick (s : State) : State :=
  let t := s.tickBeats.tickGt
  if t.hostOwes then t.hostAnswers.payOwed else t

/-- Why a request to a partition is refused before anything else (R264, R377, R492). -/
def State.reqErr (s : State) (m : Msg) : Option Nat :=
  if !s.partRuns m.part then some nkNopart
  else if m.domain = 0 ∨ m.domain ≠ s.domainOf m.part then some nkDomain
  else none

/-- Refuse a request, or handle it. -/
def State.orNack (s : State) (d : Nat) (m : Msg) (k : State → State) : State :=
  match s.reqErr m with
  | some r => s.reply d m mNack r []
  | none => k s

/-! Requests (R263, R378). -/

/-- A request for `k` bytes of a partition arrives: it waits in the receiver while no way round the ring leads from the router to its pages or their tables (R25 to R27; log entry 77), and, where it consumes what it reads, until the home slices have the lines (R415). -/
def State.onRequest (s : State) (n : Nat) (m : Msg) (typ k : Nat) (acc : TAcc) (consumes : Bool) (body : State → State) : State :=
  if m.typ ≠ typ ∨ (s.takeMsg n m).isNone = true ∨ (s.atLink n m && m.dst != s.ownId) = true ∨ (s.reqErr m).isSome = true then s.onMsg n m typ body
  else match (s.translSpan m.part m.va k acc).1 with
    | .error f => if f = .cut then s else s.onMsg n m typ body
    | .ok ps =>
      if s.piecesCut (dieOfLink n) ps then s
      else if consumes then s.withLines m.part 3 (ps.map fun e => (e.1.tgt, e.2)) fun t => t.onMsg n m typ body
      else s.onMsg n m typ body

/-- The bytes that an RD asks for, and those that an ATOM acts on (R368). -/
def rdBytes (m : Msg) : Nat := min 256 (getBits m.aux.toNat 0 9)
def atomBytes (m : Msg) : Nat := if getBits m.aux.toNat 5 1 = 1 then 8 else 4

/-- The bytes of an RD: translated and read here, with the poison that a line carries. -/
def State.serveRd (s : State) (d : Nat) (m : Msg) : State :=
  s.orNack d m fun s =>
    let n := getBits m.aux.toNat 0 9
    if n < 1 ∨ 256 < n then s.reply d m mNack nkTranslation []
    else match s.translSpan m.part m.va n .read with
      | (.error _, t) => t.reply d m mNack nkTranslation []
      | (.ok ps, t) =>
        let bad := ps.any fun e => t.poisonedAt e.1.tgt e.2
        let r := ps.foldl (fun (a : List Byte × State) e =>
          let x := a.2.readAt e.1.tgt e.2
          (a.1 ++ x.1, match e.1.tgt with
            | .hbm h => x.2.l2Touch m.part h e.2 false 3
            | _ => x.2)) ([], t)
        r.2.reply d m mRdrsp (if bad then 1 else 0) r.1

/-- RD (R378). -/
def execRd (link : Nat) (m : Msg) (s : State) : Host.Outcome State Fault Refusal :=
  withUnit (okLink link) (s.onRequest link m mRd (rdBytes m) .read true fun t => t.serveRd (dieOfLink link) m)

/-- A write is performed at its home slice or host port, and acknowledged (R249). On a Device-Strict page with EA 0 its acknowledgement is owed until the HBM array holds it, and for one to host memory until the host has completed the zero-length read behind it (R228, R230). -/
def State.serveWr (s : State) (d : Nat) (m : Msg) : State :=
  s.orNack d m fun s =>
    match s.translSpan m.part m.va m.data.length .write with
    | (.error _, t) => t.reply d m mNack nkTranslation []
    | (.ok ps, t) =>
      let r := ps.foldl (fun (a : List Byte × Nat × State) e =>
        (a.1.drop e.2, a.2.1 + e.2, a.2.2.performWrite m.part { lane := 0, va := a.2.1, tgt := e.1.tgt, data := a.1.take e.2 })) (m.data, m.va, t)
      let sync := (ps.filter fun e => e.1.mt && !e.1.ea).map fun e => (e.1.tgt.key, e.2)
      let u := r.2.2.syncOut m.part sync
      if sync = [] then u.reply d m mAck 0 [] else u.modDie d fun x => { x with owed := x.owed ++ [(m, sync)] }

/-- WR (R378). -/
def execWr (link : Nat) (m : Msg) (s : State) : Host.Outcome State Fault Refusal :=
  withUnit (okLink link) (s.onRequest link m mWr m.data.length .write false fun t => t.serveWr (dieOfLink link) m)

/-- WRF (R378). -/
def execWrf (link : Nat) (m : Msg) (s : State) : Host.Outcome State Fault Refusal :=
  withUnit (okLink link) (s.onRequest link m mWrf m.data.length .write false fun t => t.serveWr (dieOfLink link) m)

/-- A remote atomic is performed at the home slice (R378): AUX gives the operation, whether it returns a value, and the width. A poisoned word is not changed. -/
def State.serveAtom (s : State) (d : Nat) (m : Msg) : State :=
  s.orNack d m fun s =>
    let op := getBits m.aux.toNat 0 4
    let ret := getBits m.aux.toNat 4 1 == 1
    let n := if getBits m.aux.toNat 5 1 = 1 then 8 else 4
    match s.transl m.part m.va .write with
    | (.error _, t) => t.reply d m mNack nkTranslation []
    | (.ok tr, t) =>
      if m.va % n ≠ 0 then t.reply d m mNack nkTranslation []
      else if t.poisonedAt tr.tgt n then
        (if ret then t.reply d m mAtomrsp 1 (List.replicate n 0) else t.reply d m mNack nkTranslation [])
      else
        let r := t.atomicAt m.part tr.tgt n op (leNat (slice m.data 0 n)) (leNat (slice m.data n n))
        if ret then r.2.reply d m mAtomrsp 0 r.1 else r.2.reply d m mAck 0 []

/-- ATOM (R378). -/
def execAtom (link : Nat) (m : Msg) (s : State) : Host.Outcome State Fault Refusal :=
  withUnit (okLink link) (s.onRequest link m mAtom (atomBytes m) .write true fun t => t.serveAtom (dieOfLink link) m)

/-! The array takes writes (R230, R275). -/

/-- HBM_REQUEST_SERVE (R275), with what the array's code finds in a line that is read (R415); remote writes that waited for the array are acknowledged (R230). -/
def execHbmRequestServe (ch : Nat) (err : EccResult) (s : State) : Host.Outcome State Fault Refusal :=
  withUnit (okChan ch) (if s.serves ch then (s.serveHbm ch err).payOwed else s)

/-! Answers received (R337, R364, R368, R371). -/

/-- The request that an answer is for: one of a killed run, or one that has been answered, has none, and the answer is discarded. -/
def State.answered (s : State) (m : Msg) : Option (Nat × RReq) :=
  s.reqOf m

/-- The remote global address of a request. -/
def msgAddr (m : Msg) : Nat := 2 ^ 48 * m.dst + 2 ^ 42 * m.part + m.va

/-- Bytes for the lanes of a load: of a read, those its range covers; of an atomic, its lane. -/
def Load.take (l : Load) (r : RReq) (bs : List Byte) (poison : Bool) : Load :=
  let vs : List (Nat × List Byte) :=
    if r.msg.typ = mAtom then [(r.site.lane, bs)]
    else l.reads.filterMap fun x => match x.tgt with
      | .remote a =>
        if msgAddr r.msg ≤ a ∧ a + x.width ≤ msgAddr r.msg + bs.length then some (x.lane, slice bs (a - msgAddr r.msg) x.width) else none
      | _ => none
  { l with bound := some ((l.bound.getD []) ++ vs), bad := if poison then l.bad ++ vs.map (·.1) else l.bad }

/-- Data reaches its requester. -/
def State.giveData (s : State) (r : RReq) (bs : List Byte) (poison : Bool) : State :=
  if s.runLives r then
    if r.kind = 3 then s.copyAnswered r bs poison
    else s.modCore r.core fun c => match tfind c.loads r.load with
      | some l => { c with loads := tset c.loads r.load (l.take r bs poison) }
      | none => c
  else s

/-- A response with data frees its slot. -/
def State.onData (s : State) (m : Msg) : State :=
  match s.answered m with
  | some (d, r) => (s.closeReq d m.tag r).giveData r m.data (getBits m.aux.toNat 0 1 == 1)
  | none => s

/-- RDRSP (R368). -/
def execRdrsp (link : Nat) (m : Msg) (s : State) : Host.Outcome State Fault Refusal :=
  withUnit (okLink link) (s.onMsg link m mRdrsp fun t => t.onData m)

/-- ATOMRSP (R368). -/
def execAtomrsp (link : Nat) (m : Msg) (s : State) : Host.Outcome State Fault Refusal :=
  withUnit (okLink link) (s.onMsg link m mAtomrsp fun t => t.onData m)

/-- A collective status with INEXACT or OVF, for a contribution that traps (R386). -/
def trapStatus (m : Msg) : Bool := getBits m.aux.toNat 0 1 == 1 || getBits m.aux.toNat 1 1 == 1

/-- An acknowledgement of a request of this module. -/
def State.ackReq (s : State) (r : RReq) (m : Msg) : State :=
  let live := s.runLives r
  let t := if live && r.msg.trapx && trapStatus m then s.findFail r.launch stInexact else s
  match r.kind with
  | 2 => if live then t.markCq r.launch r.load .done else t
  | 3 => if live then t.copyAnswered r [] false else t
  | 4 => t.outAcked r
  | _ => if live then t.refuseLanes r r.bad else t

/-- An ACK: of a branch of a multicast message (R379), or of a request. -/
def State.onAck (s : State) (n : Nat) (m : Msg) : State :=
  match s.mcFind (dieOfLink n) m.tag m.dst with
  | some (k, r) => s.mcAnswer (dieOfLink n) k r none
  | none => match s.answered m with
    | some (d, r) => ((s.closeReq d m.tag r).ackReq r m).flushAll
    | none => s

/-- Take an answer that may be for a group's record on the way (R379): such an answer goes no further. -/
def State.onAnswer (s : State) (n : Nat) (m : Msg) (typ : Nat) (body : State → State) : State :=
  if m.typ = typ ∧ (s.mcFind (dieOfLink n) m.tag m.dst).isSome = true then
    match s.takeMsg n m with
    | some t => body t
    | none => s
  else s.onMsg n m typ body

/-- ACK (R368, R379). -/
def execAck (link : Nat) (m : Msg) (s : State) : Host.Outcome State Fault Refusal :=
  withUnit (okLink link) (s.onAnswer link m mAck fun t => t.onAck link m)

/-- A NACK: of a branch, or of a request, which is refused at its source (R349, R351, R368). -/
def State.onNack (s : State) (n : Nat) (m : Msg) : State :=
  match s.mcFind (dieOfLink n) m.tag m.dst with
  | some (k, r) => s.mcAnswer (dieOfLink n) k r (some (getBits m.aux.toNat 0 8))
  | none => match s.answered m with
    | some (d, r) => ((s.closeReq d m.tag r).refuseReq r).flushAll
    | none => s

/-- NACK (R368). -/
def execNack (link : Nat) (m : Msg) (s : State) : Host.Outcome State Fault Refusal :=
  withUnit (okLink link) (s.onAnswer link m mNack fun t => t.onNack link m)

/-- REMOTE_RESPONSE_TIMEOUT (R364): 2 ms after a read or returning atomic left its router on a link; one that still waits there has not left. -/
def execRemoteResponseTimeout (die slot : Nat) (s : State) : Host.Outcome State Fault Refusal :=
  withUnit (okDie die) (match tfind (s.die die).reads slot with
    | some r => if r.link.isSome = true ∧ r.gt + 2000000 ≤ s.now then (s.closeReq die slot r).refuseReq r else s
    | none => s)

/-! Control messages. -/

/-- TIME (R390): the peer's grandmaster and its hops. -/
def execTime (link : Nat) (m : Msg) (s : State) : Host.Outcome State Fault Refusal :=
  withUnit (okLink link) (s.onMsg link m mTime fun t =>
    (t.modLink link fun l => { l with peerGm := some (getBits m.aux.toNat 0 16, getBits m.aux.toNat 16 8) }).retime false)

/-- The SEQ that a link had accepted in the session that ended for its peer at GT `g`: of the present session, if that had begun, or of the latest kept one that had (R363). A session is told by GT, which both ends share: DESIGN CHOICE (log entry 42). -/
def State.seqAt (s : State) (n g : Nat) : Option Nat :=
  let l := s.link n
  if s.linkLive n = true ∧ l.upGt ≤ g then some l.rxSeq
  else ((l.kept.filter fun x => decide (x.2.1 ≤ g ∧ s.now ≤ x.2.2 + 10 ^ 7)).getLast?).map (·.1)

/-- A peer asks which SEQ a lost link had accepted (R363). -/
def State.answerQuery (s : State) (d : Nat) (m : Msg) : State :=
  match s.seqAt (getBits m.aux.toNat 2 6) (leNat (slice m.data 0 8)) with
  | some q => s.post d (s.control mLstate m.src (lkAnswer + getBits m.aux.toNat 8 6 * 4 + q * 2 ^ 8 + getBits m.aux.toNat 32 16 * 2 ^ 32) [])
  | none => s

/-- The answer to a query: later flits' messages are sent again, the others had been received (R363). An answer for an earlier time the link went down settles that one. -/
def State.useAnswer (s : State) (m : Msg) : State :=
  let n := getBits m.aux.toNat 2 6
  let l := s.link n
  let gen := getBits m.aux.toNat 32 16
  let again (flits : List (Nat × List Msg)) (t : State) : State :=
    ((coverAck flits (getBits m.aux.toNat 8 24)).flatMap (·.2)).foldl (fun t x => t.reroute n x) t
  if l.gen = gen then
    (if l.query then again l.lost (s.modLink n fun x => { x with query := false, lost := [] }) else s)
  else match l.older.find? fun x => x.1 == gen with
    | some x => again x.2.2 (s.modLink n fun y => { y with older := y.older.filter fun z => z.1 != gen })
    | none => s

/-- LSTATE (R363, R375). -/
def execLstate (link : Nat) (m : Msg) (s : State) : Host.Outcome State Fault Refusal :=
  withUnit (okLink link) (s.onMsg link m mLstate fun t =>
    match getBits m.aux.toNat 0 2 with
    | 0 => t.modLink link fun l => { l with peerDirs := BitVec.ofNat 12 (m.aux.toNat / 4) }
    | 1 => t.answerQuery (dieOfLink link) m
    | _ => t.useAnswer m)

/-- A peer's KEYX is accepted: its module has this one's owner, and its signature verifies (R387, R451). -/
def State.keyxOk (s : State) (m : Msg) : Bool :=
  match s.sec.owner with
  | some o => slice m.data 0 48 == leBytes 48 o.toNat && Config.keyxSigned m.data
  | none => false

/-- Key agreement on a tunnel: DATA is allowed once the peer's message has come and is accepted (R394); a peer that is refused gets no keys. -/
def State.agreeKeys (s : State) (n : Nat) (m : Msg) : State :=
  if s.keyxOk m = false then s
  else ((upTo 64).filter fun t => s.bit (lnkTun n t) 16 && s.fld (lnkTun n t) 0 16 == m.src).foldl (fun u t =>
    u.setTunnel n t { u.tunnel n t with keyed := true, up := true }) s

/-- KEYX (R387, R394): on a Credal link the key of the next period is agreed in the background. -/
def execKeyx (link : Nat) (m : Msg) (s : State) : Host.Outcome State Fault Refusal :=
  withUnit (okLink link) (s.onMsg link m mKeyx fun t => if t.linkEth link then t.agreeKeys link m else t)

end Sys2Proof.Machine
end

