-- ==== Sys2Proof/Machine/Contrib.lean ====
section
/-! DEFINITION. Contributions to collective slots as they are received (R384 to R386). -/

namespace Sys2Proof.Machine

/-- A contribution is checked, added and acknowledged; one with TRAPX waits for the end of its round, whose status byte its ACK carries. -/
def State.serveContrib (s : State) (d : Nat) (m : Msg) : State :=
  s.orNack d m fun s =>
    let k := getBits m.va 28 8
    if (s.die (s.leadDie m.part)).collRetired then s.reply d m mNack nkNopart []
    else if inCollective m.va = false then s.reply d m mNack nkWindow []
    else match s.coll? m.part k with
      | none => s.reply d m mNack nkBusy []
      | some c =>
        if c.closing then s.reply d m mNack nkBusy []
        else if c.covers m.va m.data.length = false then s.reply d m mNack nkWindow []
        else
          let c1 := c.receive m.va m.data m.aux
          let c2 := if m.trapx then { c1 with waiting := c1.waiting ++ [m] } else c1
          let t := s.setColl m.part k c2
          let u := if m.trapx then t else t.reply d m mAck 0 []
          if c2.full then
            (c2.waiting.foldl (fun (x : State) w => x.reply d w mAck c2.status.toNat []) u).closeRound m.part k
          else u

/-- CONTRIB (R384): from the router to the collective unit of the partition's lead die it goes on the stream plane, by the paths of R26 (R32). -/
def execContrib (link : Nat) (m : Msg) (s : State) : Host.Outcome State Fault Refusal :=
  withUnit (okLink link) (if m.dst = s.ownId ∧ s.travels s.d2d .contribution (dieOfLink link) (s.leadDie m.part) = none then s
    else s.onMsg link m mContrib fun t => t.serveContrib (dieOfLink link) m)

end Sys2Proof.Machine
end

