-- ==== Sys2Proof/Machine/Host.lean ====
section
/-! DEFINITION. The host port: apertures (R400, R404), MSI-X (R408), resets of functions (R412 to R414), virtual functions (R401, R413) and cover by IDE (R409). -/

namespace Sys2Proof.Machine

/-! BAR2 of a virtual function (R402 to R404, R411). -/

/-- BAR2's size, as a power of two. -/
def State.bar2Log (s : State) (vf : Nat) : Nat := 30 + tget 0 s.host.bar2 vf

/-- The aperture base: bits below the BAR2 size read 0 (R403). -/
def State.apBase (s : State) (vf : Nat) : Nat :=
  s.reg64 (vfKey vf vfApbase) % 2 ^ 42 / 2 ^ s.bar2Log vf * 2 ^ s.bar2Log vf

/-- All-ones data. -/
def onesData (n : Nat) : List Byte := List.replicate n 0xFF

/-- A refused access: a read gives all ones, a write is dropped, and VF_APERR counts it. -/
def State.refuseBar2 (s : State) (vf n : Nat) (isWrite : Bool) : State :=
  let t := s.countReg (vfKey vf vfAperr) 1
  if isWrite then t else t.emit (.data vf (some (onesData n)))

/-- Accesses of a partition through its aperture are refused (R404, R411); they reach its channels by the bridges and meshes of their dies (R38). -/
def State.bar2Closed (s : State) (p : Nat) : Bool :=
  (s.part p).reset != 0 || !s.bit (partStat p) 0 || (s.part p).tdi == 3 || (entDies (s.ent p)).any fun d => (s.rimPath d).isNone

/-- Neither all pieces lie in the module's HBM. -/
def anyHost (ps : List (Tr × Nat)) : Bool := ps.any fun e => match e.1.tgt with
  | .hbm _ => false
  | _ => true

/-- A write through the aperture is performed at its home slices. -/
def State.bar2Write (s : State) (vf p va : Nat) (bs : List Byte) : State :=
  match s.translSpan p va bs.length .write with
  | (.error _, t) => t.refuseBar2 vf bs.length true
  | (.ok ps, t) =>
    if anyHost ps then t.refuseBar2 vf bs.length true
    else (ps.foldl (fun (a : List Byte × Nat × State) e =>
      (a.1.drop e.2, a.2.1 + e.2, a.2.2.performWrite p { lane := 0, va := a.2.1, tgt := e.1.tgt, data := a.1.take e.2 })) (bs, va, t)).2.2

/-- A read through the aperture; uncorrectable data gives a poisoned completion. -/
def State.bar2Read (s : State) (vf p va n : Nat) : State :=
  match s.translSpan p va n .read with
  | (.error _, t) => t.refuseBar2 vf n false
  | (.ok ps, t) =>
    if anyHost ps then t.refuseBar2 vf n false
    else
      let bad := ps.any fun e => t.poisonedAt e.1.tgt e.2
      let r := ps.foldl (fun (a : List Byte × State) e =>
        let x := a.2.readAt e.1.tgt e.2
        (a.1 ++ x.1, match e.1.tgt with
          | .hbm h => x.2.l2Touch p h e.2 false 3
          | _ => x.2)) ([], t)
      r.2.emit (.data vf (if bad then none else some r.1))

/-- An access to BAR2 of a virtual function. -/
def State.bar2 (s : State) (vf off size : Nat) (data : Option (List Byte)) : State :=
  if s.lamp lampPcie = true ∧ 2 ^ s.bar2Log vf < off + size then s.noTarget vf data.isSome
  else s.atVf vf data.isSome (.data vf (some (onesData size))) fun s => match s.partOf vf with
    | none => if data.isSome then s else s.emit (.data vf (some (List.replicate size 0)))
    | some p =>
      if s.bar2Closed p then s.refuseBar2 vf size data.isSome
      else match data with
        | some bs => s.bar2Write vf p (s.apBase vf + off) (slice bs 0 size)
        | none => s.bar2Read vf p (s.apBase vf + off) size

/-- A TLP that a virtual function in RUN gets without cover, whatever becomes of it otherwise, moves its TDI to ERROR (R409). -/
def State.exposure (s : State) (fn : Nat) : State :=
  match s.partOf fn with
  | some p => if okVf fn && s.exposed fn then s.setTdi p 3 else s
  | none => s

/-- A memory request as its TLP asks (R396, R397): an AtomicOp is no supported request, a poisoned write is dropped and logged in AER (log entry 91), and any other acts. -/
def State.onTlp (s : State) (req : Nat) (isWrite : Bool) (tlp : Tlp) (body : State) : State :=
  if s.lamp lampPcie = false then s
  else if tlp = .atomicOp then (s.unsupported req).exposure req
  else if tlp = .poisoned ∧ isWrite = true then (s.noTarget req true).exposure req
  else body

/-- BAR2_ACCESS (R404). -/
def execBar2Access (vf off size : Nat) (data : Option (List Byte)) (tlp : Tlp) (s : State) : Host.Outcome State Fault Refusal :=
  withUnit (okVf vf) (s.onTlp vf data.isSome tlp (s.bar2 vf off size data))

/-! BAR2 of PF0 (R400). -/

/-- The DPA that an offset of PF0's BAR2 reaches. -/
def pf0Dpa (off : Nat) : Nat := getBits off 24 8 * 2 ^ 31 + 0x5F000000 + off % 2 ^ 24

/-- The locked partition with a table in the range (R410). -/
def State.lockedTable (s : State) (a n : Nat) : Option Nat :=
  (upTo 64).find? fun p => s.tdiLocked p && (s.part p).locked.any fun e => overlaps a n e.1 e.2

/-- An access of PF0 to the table areas. -/
def State.pf0Bar2 (s : State) (off size : Nat) (data : Option (List Byte)) : State :=
  if s.lamp lampPcie = false then s
  else if 2 ^ 32 < off + size ∨ s.host.d3.contains 0 = true then s.noTarget 0 data.isSome
  else
    let c := getBits off 24 8
    let a := pf0Dpa off
    let open_ := decide (off % 2 ^ 24 + size ≤ 0x400000)
    let gone := s.chanRetired c || !s.trained c
    match data with
    | none => s.emit (.data 0 (
        if gone then some (onesData size)
        else if open_ = false then some (List.replicate size 0)
        else if s.poisoned a size then none
        else some (s.bytes a size)))
    | some bs =>
      if gone = true ∨ open_ = false then s
      else match s.lockedTable a size with
        | some p => s.logLocked p off
        | none => s.writeMem a (slice bs 0 size)

/-- PF0_BAR2_ACCESS (R400). -/
def execPf0Bar2Access (off size : Nat) (data : Option (List Byte)) (tlp : Tlp) (s : State) : Host.Outcome State Fault Refusal :=
  .next (s.onTlp 0 data.isSome tlp (s.pf0Bar2 off size data))

/-! MSI-X (R398, R402, R408). -/

/-- Unmask a vector: its pending message is sent, unless the function is in D3hot. -/
def State.unmask (s : State) (fn vec : Nat) : State :=
  let k := fn * 4096 + vec
  let t : State := { s with host := { s.host with unmasked := sins s.host.unmasked k } }
  if s.host.pend.contains k ∧ s.host.d3.contains fn = false then
    ({ t with host := { t.host with pend := t.host.pend.filter (· != k) } } : State).emit (.irq fn vec)
  else t

/-- Mask a vector. -/
def State.maskVec (s : State) (fn vec : Nat) : State :=
  { s with host := { s.host with unmasked := s.host.unmasked.filter (· != fn * 4096 + vec) } }

/-- The vectors of a function, and the offset of its pending-bit array in BAR4 (R398, R402). -/
def vecsOf (fn : Nat) : Nat := if fn = 0 then 2048 else 64
def pbaOf (fn : Nat) : Nat := if fn = 0 then 0x8000 else 0x800
/-- The size of BAR4. -/
def bar4Size (fn : Nat) : Nat := if fn = 0 then 0x10000 else 0x1000

/-- A word of BAR4: of the table of 16-byte entries, each address, data and vector control as PCIe has them, or of the pending-bit array. -/
def State.bar4View (s : State) (fn off : Nat) : Word :=
  let k := fn * 4096 + off / 16
  if off < 16 * vecsOf fn then
    (if off % 16 / 4 = 3 then (if s.host.unmasked.contains k then 0 else 1) else tget 0 s.host.msix (4 * k + off % 16 / 4))
  else if pbaOf fn ≤ off ∧ off < pbaOf fn + vecsOf fn / 8 then
    BitVec.ofNat 32 (maskOf 32 fun i => s.host.pend.contains (fn * 4096 + 8 * (off - pbaOf fn) + i))
  else 0

/-- A write of a word of BAR4; the pending-bit array is read only. -/
def State.bar4Write (s : State) (fn off : Nat) (v : Word) : State :=
  let k := fn * 4096 + off / 16
  if 16 * vecsOf fn ≤ off then s
  else if off % 16 / 4 = 3 then (if v.getLsbD 0 then s.maskVec fn (off / 16) else s.unmask fn (off / 16))
  else { s with host := { s.host with msix := tput 0 s.host.msix (4 * k + off % 16 / 4) (if off % 16 = 0 then v &&& 0xFFFFFFFC else v) } }

/-! Configuration registers (R396, R402, R409). The capabilities are PCIe's; the offsets here are the model's (log entry 91): 0 power state, 4 the VF Resizable BAR size of BAR2 as log2 of GiB, and 32 (k + 1) the configuration of IDE stream k of PF0: enable, routing IDs, base and limit. -/

def cfgPower : Nat := 0
def cfgBar2 : Nat := 4
def cfgIde (k : Nat) : Nat := 32 * (k + 1)

/-- A function leaves D3hot: its pending messages that are not masked are sent. -/
def State.wakeFn (s : State) (fn : Nat) : State :=
  let due := s.host.pend.filter fun k => k / 4096 == fn && s.host.unmasked.contains k
  due.foldl (fun t k => t.emit (.irq fn (k % 4096)))
    { s with host := { s.host with d3 := s.host.d3.filter (· != fn), pend := s.host.pend.filter fun k => !due.contains k } }

/-- What the configuration of an IDE stream shows. -/
def IdeStream.view (x : IdeStream) (i : Nat) : Word :=
  match i with
  | 0 => if x.enabled then 1 else 0
  | 1 => x.rid
  | 2 => x.base.truncate 32
  | 3 => (x.base >>> 32).truncate 32
  | 4 => x.limit.truncate 32
  | 5 => (x.limit >>> 32).truncate 32
  | _ => 0

/-- A write of a word of it. -/
def IdeStream.write (x : IdeStream) (i : Nat) (v : Word) : IdeStream :=
  let half (y : Word64) (h : Nat) : Word64 := BitVec.ofNat 64 (putBits y.toNat (32 * h) 32 v.toNat)
  match i with
  | 0 => { x with enabled := v.getLsbD 0 }
  | 1 => { x with rid := v }
  | 2 => { x with base := half x.base 0 }
  | 3 => { x with base := half x.base 1 }
  | 4 => { x with limit := half x.limit 0 }
  | 5 => { x with limit := half x.limit 1 }
  | _ => x

/-- A configuration register of a function. -/
def State.cfgView (s : State) (fn off : Nat) : Word :=
  if off = cfgPower then (if s.host.d3.contains fn then 3 else 0)
  else if off = cfgBar2 then BitVec.ofNat 32 (if fn = 0 then 0 else tget 0 s.host.bar2 fn)
  else if fn = 0 ∧ cfgIde 0 ≤ off ∧ off < cfgIde 9 then (tget {} s.host.streams (off / 32 - 1)).view (off % 32 / 4)
  else 0

/-- A write of one: D0 and D3hot are the power states (R396), and BAR2 is of 1 to 512 GiB (R402). -/
def State.cfgWrite (s : State) (fn off : Nat) (v : Word) : State :=
  if off = cfgPower then
    (if v.toNat % 4 = 3 then { s with host := { s.host with d3 := sins s.host.d3 fn } }
     else if v.toNat % 4 = 0 then s.wakeFn fn else s)
  else if off = cfgBar2 then (if fn ≠ 0 ∧ v.toNat ≤ 9 then { s with host := { s.host with bar2 := tput 0 s.host.bar2 fn v.toNat } } else s)
  else if fn = 0 ∧ cfgIde 0 ≤ off ∧ off < cfgIde 9 then
    { s with host := { s.host with streams := tput {} s.host.streams (off / 32 - 1) ((tget {} s.host.streams (off / 32 - 1)).write (off % 32 / 4) v) } }
  else s


/-- MSIX_UNMASK (R408). -/
def execMsixUnmask (fn vec : Nat) (s : State) : Host.Outcome State Fault Refusal :=
  withUnit ((fn == 0 && decide (vec < 2048)) || (okVf fn && decide (vec < 64)))
    (if fn = 0 then (if s.host.d3.contains 0 then s.noTarget 0 true else s.unmask fn vec) else s.vfStores fn fun t => t.unmask fn vec)

/-- MSI-X state of a function at its reset value. -/
def State.resetMsix (s : State) (fn : Nat) : State :=
  { s with host := { s.host with
      unmasked := s.host.unmasked.filter fun k => k / 4096 != fn
      msix := s.host.msix.filter fun e => e.1 / 4 / 4096 != fn
      pend := s.host.pend.filter fun k => k / 4096 != fn } }

/-! Function-level reset of a virtual function (R412). -/

/-- The configuration of a virtual function at its reset values. -/
def State.resetFn (s : State) (vf : Nat) : State :=
  let t := (s.resetMsix vf).setReg64 (vfKey vf vfApbase) 0
  { t with host := { t.host with bar2 := tdel t.host.bar2 vf, flr := tdel t.host.flr vf, d3 := t.host.d3.filter (· != vf) } }

/-- A partition is reset under a fresh key, with its TDI unlocked (R411 to R413). -/
def State.resetRekey (s : State) (p : Nat) : State :=
  ((s.setTdi p 0).beginReset p trFlr).modPart p fun y => { y with rekey := true, locked := [], lockRoot := 0 }

/-- Steps 1 and 2 of an FLR. -/
def State.beginFlr (s : State) (vf : Nat) : State :=
  if s.vfExists vf = true ∧ (tfind s.host.flr vf).isNone then
    let t : State := { s with host := { s.host with flr := tset s.host.flr vf (1, s.now) } }
    match s.partOf vf with
    | some p => t.resetRekey p
    | none => t
  else s

/-- FLR (R412). -/
def execFlr (vf : Nat) (s : State) : Host.Outcome State Fault Refusal :=
  withUnit (okVf vf) (s.beginFlr vf)

/-- Step 3: the key slot receives a fresh key, once the partition's launches have ended; at the reset's end it has one already. -/
def State.flrKey (s : State) (vf : Nat) : State :=
  match tfind s.host.flr vf, s.partOf vf with
  | some (1, gt), some p =>
    let done (t : State) : State := { t with host := { t.host with flr := tset t.host.flr vf (3, gt) } }
    if (s.part p).reset = 1 ∨ (s.part p).reset = 2 then s
    else if (s.part p).rekey then done ((s.freshKey p).modPart p fun y => { y with rekey := false })
    else done s
  | _, _ => s

/-- FLR_REKEY (R412). -/
def execFlrRekey (vf : Nat) (s : State) : Host.Outcome State Fault Refusal :=
  withUnit (okVf vf) (s.flrKey vf)

/-- Step 4: the function's configuration is at reset and it accepts requests; of an unbound function after step 1. -/
def State.endFlr (s : State) (vf : Nat) : State :=
  match tfind s.host.flr vf with
  | some (ph, _) => if ph = 3 ∨ (s.partOf vf).isNone then s.resetFn vf else s
  | none => s

/-- FLR_COMPLETE (R412). -/
def execFlrComplete (vf : Nat) (s : State) : Host.Outcome State Fault Refusal :=
  withUnit (okVf vf) (s.endFlr vf)

/-! Virtual functions come and go (R401, R413). -/

/-- The functions that leave when VF Enable clears, or when NumVFs falls to `n` while it is clear. -/
def State.leaving (s : State) (n : Nat) : List Nat :=
  ((upTo 65).filter fun v => decide (1 ≤ v ∧ v ≤ s.host.numVFs)).filter fun v => s.host.vfEnable || decide (n < v)

/-- Virtual functions are removed: the partitions bound to them are reset under fresh keys. -/
def State.removeVfs (s : State) (n : Nat) : State :=
  let gone := s.leaving n
  let ps := gone.filterMap s.partOf
  let t : State := { s with host := { s.host with vfEnable := false, numVFs := n } }
  ps.foldl (fun t p => t.resetRekey p) (gone.foldl (fun t v => t.resetFn v) t)

/-- VF_REMOVE (R413). -/
def execVfRemove (numVFs : Nat) (s : State) : Host.Outcome State Fault Refusal :=
  withUnit (decide (numVFs ≤ 64)) (if s.lamp lampPcie then s.removeVfs numVFs else s)

/-- VF_ENABLE_SET (R401): virtual functions come into existence, and with them their partitions' host paths. NumVFs does not fall while VF Enable is set; where it falls first, while VF Enable is still clear, the functions beyond it are removed (R413). -/
def execVfEnableSet (numVFs : Nat) (s : State) : Host.Outcome State Fault Refusal :=
  withUnit (decide (numVFs ≤ 64)) (
    if s.lamp lampPcie then
      let t := if s.host.vfEnable = false ∧ numVFs < s.host.numVFs then s.removeVfs numVFs else s
      { t with host := { t.host with
          vfEnable := true
          numVFs := if s.host.vfEnable then max s.host.numVFs numVFs else numVFs } }
    else s)

/-! Resets of PF0 (R414). -/

/-- An FLR of PF0, a hot reset or a link-down: VF Enable clears, PF0's configuration, MSI-X and IDE streams are at reset, and a chart that is still being read ends with DMA. -/
def State.resetPf0 (s : State) : State :=
  let t := (s.removeVfs 0).resetMsix 0
  let u : State := { t with host := { t.host with streams := [], aer := 0, d3 := [] } }
  if u.bit chartStatus 0 && u.bit chartCtrl 0 && u.chart.image == [] then u.chartDone 14 else u

/-- PF0_RESET (R414). -/
def execPf0Reset (_cause : Pf0ResetCause) (s : State) : Host.Outcome State Fault Refusal :=
  .next (if s.lamp lampPcie then s.resetPf0 else s)

/-! IDE (R409). -/

/-- A TLP without cover reaches a function in RUN: Unsupported Request, or dropped, and the TDI moves to ERROR. -/
def State.uncovered (s : State) (vf : Nat) (posted : Bool) : State :=
  match s.vfPart vf with
  | some p => if (s.part p).tdi = 2 then (s.noTarget vf posted).setTdi p 3 else s
  | none => s

/-- IDE_UNCOVERED_TLP (R409). -/
def execIdeUncoveredTlp (vf : Nat) (posted : Bool) (s : State) : Host.Outcome State Fault Refusal :=
  withUnit (okVf vf) (s.uncovered vf posted)

end Sys2Proof.Machine
end

