-- ==== Sys2Proof/Machine/Secure.lean ====
section
/-! DEFINITION. Physical presence and tamper (R442 to R446), the Foler mailbox and its commands (R448 to R454, R518). -/

namespace Sys2Proof.Machine

/-! Events and records. -/

/-- A bit of SEC_EVT is set, and raises PF0's vector 6 (R447). -/
def State.secEvent (s : State) (i : Nat) : State := (s.setBit secEvt i true).irq 0 6

/-- Presence is asserted (R443). -/
def State.present (s : State) : Bool := s.fld secStat 3 2 == 2

/-- A gated command or write is refused: the record of R444, and SEC_EVT.PRESDENIED. -/
def State.denied (s : State) (what : Nat) : State :=
  (s.logRaise sevAlert none srcRim 0x60 (leBytes 4 what)).secEvent 1

/-! Presence (R442, R443). -/

def prAbsent : Nat := 0
def prArming : Nat := 1
def prPresent : Nat := 2
def prFault : Nat := 3

/-- State and count after a sample, with D as it then stands. -/
def presNext (st count d : Nat) (a b : Bool) : Nat × Nat :=
  let closed := a && b
  let open_ := !a && !b
  if st = prFault then
    (if open_ then (if count + 1 = 1000 then (prAbsent, 0) else (prFault, count + 1)) else (prFault, 0))
  else if d = 51 then (prFault, 0)
  else if st = prArming then
    (if closed then (if count + 1 = 1000 then (prPresent, 0) else (prArming, count + 1)) else (prAbsent, 0))
  else if st = prPresent then (if open_ then (prAbsent, 0) else (prPresent, 0))
  else if closed then (prArming, 1)
  else (prAbsent, 0)

/-- One sample of the contacts; the 51st that disagrees in a row is a presence fault. -/
def State.presSample (s : State) (a b : Bool) : State :=
  if s.boot.auxUp = false then s
  else
    let st := s.fld secStat 3 2
    let d := if a = b then 0 else s.sec.presD + 1
    let n := presNext st s.sec.presCount d a b
    let t : State := { s with sec := { s.sec with presD := d, presCount := n.2 } }
    let u := ((t.setFld secStat 3 2 n.1).setBit secStat 5 a).setBit secStat 6 b
    if st ≠ prFault ∧ n.1 = prFault then
      let v := u.countReg secPfcnt 1
      (v.logRaise sevAlert none srcRim 0x61 (leBytes 4 (v.reg secPfcnt).toNat)).secEvent 0
    else u

/-- PRESENCE_SAMPLE (R442, R443). -/
def execPresenceSample (a b : Bool) (s : State) : Host.Outcome State Fault Refusal := .next (s.presSample a b)

/-- PRESENCE_ASSERT (R443): the sample that brings the count to 1,000. -/
def execPresenceAssert (s : State) : Host.Outcome State Fault Refusal :=
  .next (if s.fld secStat 3 2 = prArming ∧ s.sec.presCount = 999 then s.presSample true true else s)

/-- PRESENCE_FAULT (R443): the 51st sample in a row in which the contacts disagree; PRES_A closed or open. -/
def execPresenceFault (a : Bool) (s : State) : Host.Outcome State Fault Refusal :=
  .next (if s.fld secStat 3 2 ≠ prFault ∧ s.sec.presD = 50 then s.presSample a (!a) else s)

/-- PRESENCE_FAULT_CLEAR (R443): the 1,000th open sample of a fault. -/
def execPresenceFaultClear (s : State) : Host.Outcome State Fault Refusal :=
  .next (if s.fld secStat 3 2 = prFault ∧ s.sec.presCount = 999 then s.presSample false false else s)

/-! Keys and debug (R445, R454, R456). -/

/-- Every partition is reset, and receives a fresh key as its reset ends. -/
def State.resetAll (s : State) : State :=
  s.validParts.foldl (fun t p => (t.beginReset p trSecurity).modPart p fun y => { y with rekey := true }) s

/-- Every key slot is erased: what was written under its key reads unspecified values. -/
def State.eraseKeys (s : State) : State :=
  let t := s.validParts.foldl (fun t p => (bitsSet (s.ent p).hbmch 256).foldl (fun u c => u.loseChan c) t) s
  { t with sec := { t.sec with keys := [] } }

/-- Debug unlock ends, and a record says so (R454, R521). -/
def State.clearDebug (s : State) : State :=
  if s.bit secStat 2 then (((s.setBit secStat 2 false).setReg secDbg 0).secEvent 4).logRaise sevNotice none srcRim 0x63 (leBytes 48 0) else s

/-! Tamper (R445). -/

/-- TAMPER_SAMPLE (R442, R445): counts of consecutive open and closed samples; the tenth open one is a tamper event. -/
def execTamperSample (isOpen : Bool) (s : State) : Host.Outcome State Fault Refusal :=
  .next (
    if s.boot.auxUp = false then s
    else
      let n := s.sec.tamperOpen + 1
      let t : State := { s with sec := (
        if isOpen then { s.sec with tamperOpen := n, tamperClosed := 0, tamperDue := s.sec.tamperDue || n == 10 }
        else { s.sec with tamperOpen := 0, tamperClosed := s.sec.tamperClosed + 1 }) }
      t.setBit secStat 7 isOpen)

/-- What a tamper event does (R445, R454); while TAMPERED is set, a further record and steps 1 and 3. -/
def State.tampered (s : State) : State :=
  if s.sec.tamperDue then
    let t : State := ({ s with sec := { s.sec with tamperDue := false } } : State).eraseKeys.clearDebug
    let u := if s.bit secStat 1 then t else (t.setBit secStat 1 true).secEvent 2
    (u.logRaise sevFatal none srcRim 0x62 (leBytes 4 (u.reg secStat).toNat)).resetAll
  else s

/-- TAMPER_EVENT (R445). -/
def execTamperEvent (s : State) : Host.Outcome State Fault Refusal := .next s.tampered

/-! The mailbox (R448, R449). -/

def mrBadcmd : Byte := 1
def mrPresence : Byte := 2
def mrLost : Byte := 3
def mrSignature : Byte := 4
def mrNonce : Byte := 5
def mrState : Byte := 6
def mrDma : Byte := 7

/-- Bytes of consecutive registers. -/
def State.regBytes (s : State) (k n : Nat) : List Byte := ((upTo ((n + 3) / 4)).flatMap fun i => leBytes 4 (s.reg (k + 4 * i)).toNat).take n

/-- Set consecutive registers from bytes. -/
def State.setRegBytes (s : State) (k : Nat) (bs : List Byte) : State :=
  (upTo ((bs.length + 3) / 4)).foldl (fun t i => t.setReg (k + 4 * i) (BitVec.ofNat 32 (numAt bs (4 * i) 4))) s

/-- The request of the command that runs; one longer than the buffer is a bad length. -/
def State.mbxReq (s : State) : List Byte := s.sec.req
def State.mbxLen (s : State) : Nat := s.sec.req.length

/-- GO is written (R448): the command begins, or is lost while another runs. A REQLEN beyond the buffer is kept as a request that is too long. -/
def State.mbxGo (s : State) (op : Nat) : State :=
  if s.bit mbxStat 0 then s.setBit mbxStat 16 true
  else
    let n := s.fld mbxReqLen 0 13
    let t : State := { s with sec := { s.sec with op := op, req := s.regBytes mbxBuf (min n 4097), mbx := none, accepted := none, begun := false, fwPend := none } }
    (t.setBit mbxStat 0 true).setBit mbxCtrl 8 true

/-- A command of an opcode runs and has no result yet; commands are served once SECROOT is lit (R487). -/
def State.mbxRuns (s : State) (op : Nat) : Bool :=
  s.lamp lampSecroot && s.bit mbxStat 0 && s.sec.op == op && s.sec.mbx.isNone

/-- A command has its result and response. -/
def State.mbxEnd (s : State) (r : Byte) (rsp : List Byte) : State :=
  { s with sec := { s.sec with mbx := some (r, rsp), accepted := none, begun := false, fwPend := none } }

/-- A gated command (R444): accepted only with presence, which is checked again before its update; an update that has begun goes on. -/
def State.gated (s : State) (op : Nat) (check : State → Byte × State) (update : State → State) : State :=
  if s.mbxRuns op = false then s
  else if s.sec.accepted = some op then
    (if s.sec.begun ∨ s.present = true then update s else (s.denied op).mbxEnd mrLost [])
  else
    let r := check s
    if r.1 = 0 then { r.2 with sec := { r.2.sec with accepted := some op } }
    else (if r.1 = mrPresence then r.2.denied op else r.2).mbxEnd r.1 []

/-- The nonce is consumed. -/
def State.useNonce (s : State) : State := { s with sec := { s.sec with nonce := none } }

/-- The nonce most recently issued, while it is 60 s old at most. -/
def State.freshNonce (s : State) : Option (BitVec 256) :=
  match s.sec.nonce with
  | some (n, gt) => if s.now ≤ gt + 60 * 10 ^ 9 then some n else none
  | none => none

/-- A command presents a nonce: whether it is the one last issued; it is consumed. -/
def State.presentNonce (s : State) (n : Nat) : Bool × State :=
  match s.sec.nonce with
  | some (m, _) => if m.toNat = n then (s.freshNonce.isSome, s.useNonce) else (false, s)
  | none => (false, s)

/-- GET_NONCE (R449). -/
def execGetNonce (s : State) : Host.Outcome State Fault Refusal :=
  .next (
    if s.mbxRuns 1 = false then s
    else if s.mbxLen ≠ 0 then s.mbxEnd mrBadcmd []
    else
      let r := s.draw 2
      let n := BitVec.ofNat 256 r.1
      ({ r.2 with sec := { r.2.sec with nonce := some (n, s.now) } } : State).mbxEnd 0 (leBytes 32 n.toNat))

/-! The owner (R450, R451). -/

/-- The bytes that an enrolment signs: "KZOWN", the module digest and the nonce. -/
def enrolMsg (n : BitVec 256) : List Byte :=
  [0x4B, 0x5A, 0x4F, 0x57, 0x4E] ++ leBytes 16 moduleDigest.toNat ++ leBytes 32 n.toNat

/-- The checks of OWNER_ENROL: length, presence, signature, nonce. A command of the right length presents the nonce last issued, whether or not it succeeds (R449; log entry 92). -/
def State.enrolCheck (s : State) : Byte × State :=
  let q := s.mbxReq
  if s.mbxLen ≠ 193 then (mrBadcmd, s)
  else if s.present = false then (mrPresence, s.useNonce)
  else match s.sec.nonce with
    | none => (mrNonce, s)
    | some (n, _) =>
      if Config.ecdsaVerify (Config.sha384 (slice q 0 97)) (enrolMsg n) (slice q 97 96) = false then (mrSignature, s.useNonce)
      else if s.freshNonce.isNone then (mrNonce, s.useNonce)
      else (0, s.useNonce)

/-- The key is stored. -/
def State.storeOwner (s : State) : State :=
  let d := Config.sha384 (slice s.mbxReq 0 97)
  let t : State := { s with sec := { s.sec with owner := some d } }
  let u := ((t.setBit secStat 0 true).setRegBytes secOwndig (leBytes 48 d.toNat)).secEvent 3
  (u.logRaise sevNotice none srcRim 0x63 (leBytes 48 d.toNat)).mbxEnd 0 []

/-- Steps 1 and 2 of an owner change, once every partition's reset waits only to end: keys and charts go, the lamp goes dark; links that are UP retrain. An image that a load holds goes too: its check begins anew, under the new owner's key (log entry 92). -/
def State.dropCharts (s : State) : State :=
  let old := s.validParts
  let t := old.foldl (fun t p => (t.clearPart p).leaveReset p) s.eraseKeys
  let u := t.wipeCores fun _ => true
  let v : State := { u with
    dies := u.dies.map fun (e : Nat × Die) => (e.1, { e.2 with l2 := [] })
    chart := { mCores := u.chart.mCores, mChans := u.chart.mChans, mLinks := u.chart.mLinks } }
  let w := (upTo 64).foldl (fun t p => t.setReg64 (chartPseq p) 0) ((v.setReg64 chartSeq 0).setReg chartDevid 0)
  let x := (upTo 256).foldl (fun t c => t.setBit (hbmStat c) 1 (t.chanRetired c)) w
  let y := (x.setLamp lampChart false).relight
  (((upTo 48).filter y.linkUp).foldl (fun t n => t.retrain n) y).clearDebug

/-- The update of an enrolment; of a change, once the partitions have stopped. -/
def State.enrolUpdate (s : State) : State :=
  if s.sec.owner.isNone then s.storeOwner
  else if s.sec.begun then (if s.allStopped then s.dropCharts.storeOwner else s)
  else if s.chart.applying then s
  else
    let t := s.discardStaged.resetAll
    let u : State := { t with chart := { t.chart with holding := true }, sec := { t.sec with begun := true } }
    if u.allStopped then u.dropCharts.storeOwner else u

/-- OWNER_ENROL (R450): first its acceptance, then its update. -/
def execOwnerEnrol (s : State) : Host.Outcome State Fault Refusal :=
  .next (s.gated 2 State.enrolCheck State.enrolUpdate)

/-! Debug (R453, R454). -/

/-- The checks of DEBUG_UNLOCK: length and reserved fields, presence, owner and signature, nonce. A token of the right length presents its nonce (R449). -/
def State.unlockCheck (s : State) : Byte × State :=
  let q := s.mbxReq
  if s.mbxLen ≠ 160 then (mrBadcmd, s)
  else
    let r := s.presentNonce (numAt q 0x18 32)
    if numAt q 0 4 ≠ 0x4B5A4455 ∨ 8 ≤ numAt q 4 4 ∨ numAt q 0x38 8 ≠ 0 ∨ numAt q 8 16 = 0 ∨ numAt q 8 16 ≠ moduleDigest.toNat then (mrBadcmd, r.2)
    else if s.present = false then (mrPresence, r.2)
    else match s.sec.owner with
    | none => (mrSignature, r.2)
    | some o =>
      if Config.ecdsaVerify o (slice q 0 64) (slice q 64 96) = false then (mrSignature, r.2)
      else if r.1 = false then (mrNonce, r.2)
      else (0, r.2)

/-- The unlock takes effect: every key slot is erased, and the scope is open; partitions that relight receive fresh keys. -/
def State.openDebug (s : State) : State :=
  let q := s.mbxReq
  let t := s.validParts.foldl (fun t p => t.modPart p fun y => { y with rekey := true }) s.eraseKeys
  let u : State := { t with chart := { t.chart with holding := false } }
  let v := ((u.setBit secStat 2 true).setReg secDbg (BitVec.ofNat 32 (numAt q 4 4))).secEvent 4
  (v.logRaise sevNotice none srcRim 0x63 (leBytes 48 (Config.sha384 q).toNat)).mbxEnd 0 []

/-- The update of an unlock: every partition is reset first. -/
def State.unlockUpdate (s : State) : State :=
  if s.sec.begun then (if s.allStopped then s.openDebug else s)
  else if s.chart.applying then s
  else
    let t := s.resetAll
    let u : State := { t with chart := { t.chart with holding := true }, sec := { t.sec with begun := true } }
    if u.allStopped then u.openDebug else u

/-- DEBUG_UNLOCK (R453, R454): first its acceptance, then its update. -/
def execDebugUnlock (s : State) : Host.Outcome State Fault Refusal :=
  .next (s.gated 3 State.unlockCheck State.unlockUpdate)

/-- DEBUG_LOCK (R454): debug is locked, every partition is reset and receives a fresh key. -/
def execDebugLock (s : State) : Host.Outcome State Fault Refusal :=
  .next (
    if s.mbxRuns 4 = false then s
    else if s.mbxLen ≠ 0 then s.mbxEnd mrBadcmd []
    else if s.bit secStat 2 = false then s.mbxEnd mrState []
    else
      s.eraseKeys.clearDebug.resetAll.mbxEnd 0 [])

/-! Firmware (R452). -/

/-- The image is in SPI NOR and waits for the next module reset. -/
def State.stageFw (s : State) (svn : BitVec 16) (d : BitVec 384) : State :=
  let t : State := { s with sec := { s.sec with staged := some (svn, d) } }
  ((t.setBit secStat 8 true).logRaise sevNotice none srcRim 0x63 (leBytes 2 svn.toNat)).mbxEnd 0 []

/-- PF0's DMA reads the image at the address of the request (R406, R449). -/
def State.fwRead (s : State) : State := s.emit (.hostRead 0 (numAt s.mbxReq 0 8) (numAt s.mbxReq 8 4))

/-- The checks of FW_STAGE: request, image, signature; a downgrade needs presence. -/
def State.fwCheck (s : State) (image : Option FwImage) : Byte × State :=
  if s.mbxLen ≠ 12 ∨ numAt s.mbxReq 8 4 = 0 ∨ 2 ^ 23 < numAt s.mbxReq 8 4 then (mrBadcmd, s)
  else match image with
    | none => (mrDma, s.fwRead)
    | some f =>
      let s := s.fwRead
      if Config.ecdsaVerify Config.kelzetreKey (leBytes 2 f.svn.toNat ++ f.body) f.sig = false then (mrSignature, s)
      else if f.svn.toNat < s.fld secFwsvn 16 16 ∧ s.present = false then (mrPresence, s)
      else (0, { s with sec := { s.sec with fwPend := some (f.svn, Config.sha384 f.body) } })

/-- The update of FW_STAGE. -/
def State.fwUpdate (s : State) : State :=
  match s.sec.fwPend with
  | some (svn, d) => s.stageFw svn d
  | none => s

/-- FW_STAGE (R452): an image that is no downgrade is staged at once; a downgrade is accepted first, and then makes its update. -/
def execFwStage (image : Option FwImage) (s : State) : Host.Outcome State Fault Refusal :=
  .next (
    let t := s.gated 5 (fun u => u.fwCheck image) State.fwUpdate
    match t.sec.fwPend with
    | some (svn, d) => if s.sec.accepted = none ∧ s.fld secFwsvn 16 16 ≤ svn.toNat then t.stageFw svn d else t
    | none => t)

/-! The logbook and the tamper state (R446, R518). -/

/-- The checks of LOG_CLEAR. -/
def State.clearCheck (s : State) : Byte × State :=
  let q := s.mbxReq
  if s.mbxLen ≠ 36 then (mrBadcmd, s)
  else
    let r := s.presentNonce (numAt q 0 32)
    if numAt q 32 4 ≠ 1 then (mrBadcmd, r.2)
    else if s.present = false then (mrPresence, r.2)
    else if r.1 then (0, r.2) else (mrNonce, r.2)

/-- The ring is emptied, and a record says so. -/
def State.clearUpdate (s : State) : State :=
  let n := (s.log.mram.filter fun e => decide (256 ≤ e.1)).length
  let t : State := { s with log := { s.log with
    mram := s.log.mram.filter fun e => decide (e.1 < 256)
    nor := s.log.nor.filter fun e => decide (e.1 < 256)
    norWait := s.log.norWait.filter fun k => decide (k < 256) } }
  (t.logRaise sevNotice none srcRim 3 (leBytes 8 n)).mbxEnd 0 (leBytes 8 n)

/-- LOG_CLEAR (R518): first its acceptance, then its update. -/
def execLogClear (s : State) : Host.Outcome State Fault Refusal :=
  .next (s.gated 6 State.clearCheck State.clearUpdate)

/-- The checks of TAMPER_CLEAR: a loop closed for 1,000 samples, and a tamper state to clear. -/
def State.untamperCheck (s : State) : Byte × State :=
  if s.mbxLen ≠ 0 then (mrBadcmd, s)
  else if s.present = false then (mrPresence, s)
  else if s.bit secStat 1 = false ∨ s.sec.tamperClosed < 1000 then (mrState, s)
  else (0, s)

/-- TAMPER_CLEAR (R446): first its acceptance, then its update. -/
def execTamperClear (s : State) : Host.Outcome State Fault Refusal :=
  .next (s.gated 7 State.untamperCheck fun t => (t.setBit secStat 1 false).mbxEnd 0 [])

/-! Completion (R448). -/

/-- A command ends: response, RESULT, BUSY and GO clear, vector 0. -/
def State.mbxFinish (s : State) (r : Byte) (rsp : List Byte) : State :=
  let t : State := { s with sec := { s.sec with mbx := none, accepted := none, begun := false, fwPend := none } }
  let u := ((t.setRegBytes mbxBuf rsp).setReg mbxRspLen (BitVec.ofNat 32 rsp.length)).setFld mbxStat 8 8 r.toNat
  ((u.setBit mbxStat 0 false).setBit mbxCtrl 8 false).irq 0 0

/-- MBX_COMMAND_COMPLETE (R444, R448, R449): a command with its result ends; so does one of a reserved opcode, and a gated one whose presence is lost before its update. -/
def execMbxCommandComplete (s : State) : Host.Outcome State Fault Refusal :=
  .next (
    if s.bit mbxStat 0 = false ∨ s.lamp lampSecroot = false then s
    else match s.sec.mbx with
      | some (r, rsp) => s.mbxFinish r rsp
      | none =>
        let op := s.sec.op
        if op < 1 ∨ 7 < op then s.mbxFinish mrBadcmd []
        else if s.sec.accepted.isSome ∧ s.sec.begun = false ∧ s.present = false then (s.denied op).mbxFinish mrLost []
        else s)

end Sys2Proof.Machine
end

