-- ==== Sys2Proof/Machine/Spdm.lean ====
section
/-! DEFINITION. Attestation over SPDM (R439, R440), IDE keys (R409) and the TDISP messages of a device interface (R410, R411, R457). -/

namespace Sys2Proof.Machine

/-! Requests and sessions (R439). Codes of requests and responses are those of SPDM 1.3 (log entry 61). -/

def spError : Nat := 0x7F

/-- The responder serves a transport: SPDM from SECROOT on, over PCIe once its lamp is lit (R487), and over MCTP while the module is stopped (R481). -/
def State.spdmUp (s : State) (t : Transport) : Bool :=
  match t with
  | .doe => s.lamp lampSecroot && s.lamp lampPcie
  | .mctp => s.lamp lampSecroot || s.pwr.stopped.isSome

def State.sessions (s : State) (t : Transport) : Tbl Session := match t with
  | .doe => s.sec.doe
  | .mctp => s.sec.mctp

def State.setSessions (s : State) (t : Transport) (x : Tbl Session) : State := match t with
  | .doe => { s with sec := { s.sec with doe := x } }
  | .mctp => { s with sec := { s.sec with mctp := x } }

/-- A response leaves. -/
def State.spdm (s : State) (t : Transport) (code : Nat) (body : List Byte) : State := s.emit (.spdm t code body)

/-- An error response, with its code: 1 invalid request, 4 unexpected request, 6 decrypt error, 8 session limit. -/
def State.spdmErr (s : State) (t : Transport) (e : Nat) : State := s.spdm t spError (leBytes 2 e)

/-- A request on a transport that the responder serves. -/
def State.onSpdm (s : State) (t : Transport) (f : State → State) : State := if s.spdmUp t then f s else s

/-- GET_VERSION (R439): version 1.3. -/
def execGetVersion (t : Transport) (s : State) : Host.Outcome State Fault Refusal :=
  .next (s.onSpdm t fun s => s.spdm t 0x04 [0x00, 0x13])

/-- What the responder can do, in the flags of SPDM 1.3 (log entry 61): certificates, challenge, signed measurements, encrypted and authenticated sessions, key exchange, heartbeat and key update; with its CTExponent and its sizes. -/
def spdmCaps : List Byte :=
  [0, Config.spdmExp, 0, 0] ++ leBytes 4 0x62D6 ++ leBytes 4 Config.spdmSizes.1.toNat ++ leBytes 4 Config.spdmSizes.2.toNat

/-- GET_CAPABILITIES (R439). -/
def execGetCapabilities (t : Transport) (s : State) : Host.Outcome State Fault Refusal :=
  .next (s.onSpdm t fun s => s.spdm t 0x61 spdmCaps)

/-- The fixed algorithms, in the codes of SPDM: ECDSA P-384, SHA-384, secp384r1 and AES-256-GCM. -/
def spdmAlgs : List Byte := leBytes 4 0x80 ++ leBytes 4 2 ++ leBytes 2 0x10 ++ leBytes 2 2

/-- NEGOTIATE_ALGORITHMS (R439). -/
def execNegotiateAlgorithms (t : Transport) (s : State) : Host.Outcome State Fault Refusal :=
  .next (s.onSpdm t fun s => s.spdm t 0x63 spdmAlgs)

/-- GET_DIGESTS (R439): slot 0 alone holds a chain. -/
def execGetDigests (t : Transport) (s : State) : Host.Outcome State Fault Refusal :=
  .next (s.onSpdm t fun s => s.spdm t 0x01 ([0x01] ++ leBytes 48 (Config.sha384 s.certChain).toNat))

/-- GET_CERTIFICATE (R439): a portion of slot 0's chain and the length of what remains. -/
def execGetCertificate (t : Transport) (slot off len : Nat) (s : State) : Host.Outcome State Fault Refusal :=
  .next (s.onSpdm t fun s =>
    let chain := s.certChain
    if slot ≠ 0 ∨ chain.length ≤ off then s.spdmErr t 1
    else
      let part := (chain.drop off).take len
      s.spdm t 0x02 (leBytes 2 part.length ++ leBytes 2 (chain.length - off - part.length) ++ part))

/-- CHALLENGE (R439): a signature by the Alias key over the chain's digest and the nonce. -/
def execChallenge (t : Transport) (slot : Nat) (nonce : BitVec 256) (s : State) : Host.Outcome State Fault Refusal :=
  .next (s.onSpdm t fun s =>
    if slot ≠ 0 then s.spdmErr t 1
    else
      let d := leBytes 48 (Config.sha384 s.certChain).toNat
      s.spdm t 0x03 (d ++ s.aliasSign (d ++ leBytes 32 nonce.toNat)))

/-! Measurements (R440). -/

/-- The content of a measurement block. -/
def State.measurement (s : State) (i : Nat) : List Byte :=
  match i with
  | 1 => leBytes 48 (Config.sha384 Config.folerRom).toNat
  | 2 => leBytes 48 (Config.firmwareDigest 2 s.sec.fw).toNat ++ leBytes 2 (s.fld secFwsvn 0 16)
  | 3 => leBytes 48 (Config.firmwareDigest 3 s.sec.fw).toNat
  | 4 => leBytes 48 (match s.sec.owner with
    | some d => d.toNat
    | none => 0)
  | 5 => if s.chart.active then leBytes 8 (s.reg64 chartSeq) ++ leBytes 48 s.chart.digest.toNat else leBytes 56 0
  | 6 => leBytes 4 (s.reg secStat).toNat ++ leBytes 4 (s.reg secDbg).toNat ++ leBytes 4 (s.reg secPfcnt).toNat
  | _ => s.regBytes rimOrder 12

/-- The DMTF value type of a block (log entry 61): immutable ROM, mutable firmware, firmware configuration, device mode or hardware configuration; bit 7 marks raw bits. -/
def measType (i : Nat) : Nat :=
  match i with
  | 1 => 0x00
  | 2 => 0x81
  | 3 => 0x01
  | 4 => 0x03
  | 5 => 0x83
  | 6 => 0x85
  | _ => 0x82

/-- A measurement block in DMTF format: its index, the DMTF specification and its size; then the type and size of its value, and the value. -/
def State.measBlock (s : State) (i : Nat) : List Byte :=
  let c := s.measurement i
  [BitVec.ofNat 8 i, 1] ++ leBytes 2 (c.length + 3) ++ leBytes 1 (measType i) ++ leBytes 2 c.length ++ c

/-! Secured sessions (R439, R441). -/

/-- KEY_EXCHANGE (R439): at most four sessions at once on a transport. The responder's ephemeral secret comes from the DRBG. -/
def execKeyExchange (t : Transport) (session : Nat) (peer : List Byte) (s : State) : Host.Outcome State Fault Refusal :=
  .next (s.onSpdm t fun s =>
    let x := s.sessions t
    if (tfind x session).isSome then s.spdmErr t 1
    else if 4 ≤ x.length then s.spdmErr t 8
    else
      let r := s.draw 3
      let secret := BitVec.ofNat 384 r.1
      let d := Config.ecPublic secret
      (r.2.setSessions t (tset x session { key := Config.sessionKey secret peer })).spdm t 0x64 (d ++ s.aliasSign d))

/-- A secured message arrives in a session and is answered in it (R439, R441; DSP0277): a message whose AEAD check fails is answered with a decrypt error and changes nothing; one that does not suit the state of the session with an unexpected request. What `f` answers leaves sealed under the session's keys. -/
def State.inSession (s : State) (t : Transport) (session : Nat) (ready tagOk : Bool) (f : State → Session → State × Nat × List Byte) : State :=
  match tfind (s.sessions t) session with
  | none => s.spdmErr t 1
  | some x =>
    if tagOk = false then s.spdmErr t 6
    else
      let y : Session := { x with sent := x.sent + 1, received := x.received + 1 }
      let u := s.setSessions t (tset (s.sessions t) session y)
      let r := if x.ready = ready then f u y else (u, spError, leBytes 2 4)
      let k := (tfind (r.1.sessions t) session).getD y
      r.1.emit (.secured t session r.2.1 r.2.2 (Config.sealed k.key k.keygen x.sent (BitVec.ofNat 8 r.2.1 :: r.2.2)))

/-- What a request for measurements asks: one block, the number of blocks (index 0) or all of them (0xFF); signed on request; none without an index of R440. -/
def State.measured (s : State) (index : Nat) (signed : Bool) (nonce : BitVec 256) : Option (List Byte) :=
  if 7 < index ∧ index ≠ 255 then none
  else
    let body :=
      if index = 0 then [7]
      else if index = 255 then (upTo 7).flatMap fun i => s.measBlock (i + 1)
      else s.measBlock index
    some (if signed then body ++ s.aliasSign (body ++ leBytes 32 nonce.toNat) else body)

/-- GET_MEASUREMENTS (R440): in clear, or within an established session, where its answer leaves sealed (R441, R458). -/
def execGetMeasurements (t : Transport) (ask : MeasAsk) (signed : Bool) (nonce : BitVec 256) (s : State) : Host.Outcome State Fault Refusal :=
  .next (s.onSpdm t fun s => match ask.session with
    | none => (match s.measured ask.index signed nonce with
      | some body => s.spdm t 0x60 body
      | none => s.spdmErr t 1)
    | some n => s.inSession t n true ask.tagOk fun s _ => match s.measured ask.index signed nonce with
      | some body => (s, 0x60, body)
      | none => (s, spError, leBytes 2 1))

/-- FINISH (R439): the session is established, or ends where the requester's proof fails. -/
def execFinish (t : Transport) (session : Nat) (ok : Bool) (s : State) : Host.Outcome State Fault Refusal :=
  .next (s.onSpdm t fun s => s.inSession t session false true fun s x =>
    if ok then (s.setSessions t (tset (s.sessions t) session { x with ready := true }), 0x65, [])
    else (s.setSessions t (tdel (s.sessions t) session), spError, leBytes 2 6))

/-- HEARTBEAT (R439). -/
def execHeartbeat (t : Transport) (session : Nat) (tagOk : Bool) (s : State) : Host.Outcome State Fault Refusal :=
  .next (s.onSpdm t fun s => s.inSession t session true tagOk fun s _ => (s, 0x68, []))

/-- KEY_UPDATE (R439). -/
def execKeyUpdate (t : Transport) (session : Nat) (tagOk : Bool) (s : State) : Host.Outcome State Fault Refusal :=
  .next (s.onSpdm t fun s => s.inSession t session true tagOk fun s x =>
    (s.setSessions t (tset (s.sessions t) session { x with keygen := x.keygen + 1 }), 0x69, []))

/-- END_SESSION (R439). -/
def execEndSession (t : Transport) (session : Nat) (tagOk : Bool) (s : State) : Host.Outcome State Fault Refusal :=
  .next (s.onSpdm t fun s => s.inSession t session true tagOk fun s _ =>
    (s.setSessions t (tdel (s.sessions t) session), 0x6C, []))

/-! Vendor-defined messages (R396, R409, R411). -/

def spVendor : Nat := 0x7E

/-- An error answer within a session, with its code. -/
def spErr (s : State) (e : Nat) : State × Nat × List Byte := (s, spError, leBytes 2 e)

/-- IDE_KM: stream 0 is Link IDE, 1 to 8 are the Selective IDE streams (R396). -/
def State.ideKeys (s : State) (stream : Nat) (need : Bool) (f : IdeStream → IdeStream) : State × Nat × List Byte :=
  let x := tget {} s.host.streams stream
  if 8 < stream ∨ (need = true ∧ x.keyed = false) then spErr s 1
  else ({ s with host := { s.host with streams := tput {} s.host.streams stream (f x) } }, spVendor, leBytes 1 stream)

/-- A TDISP message for the interface of a virtual function. -/
def State.onTdi (s : State) (vf : Nat) (f : Nat → State × Nat × List Byte) : State × Nat × List Byte :=
  match s.vfPart vf with
  | some p => f p
  | none => spErr s 1

/-- TDISP START_INTERFACE: a locked interface runs. -/
def State.tdispStart (s : State) (vf : Nat) : State × Nat × List Byte :=
  s.onTdi vf fun p => if (s.part p).tdi = 1 then (s.setTdi p 2, spVendor, [2]) else spErr s 4

/-- TDISP GET_DEVICE_INTERFACE_STATE. -/
def State.tdispState (s : State) (vf : Nat) : State × Nat × List Byte :=
  s.onTdi vf fun p => (s, spVendor, leBytes 1 (s.part p).tdi)

/-- What an IDE_KM or TDISP message does, and its answer. -/
def State.vendorDo (s : State) (m : VendorMsg) : State × Nat × List Byte :=
  match m with
  | .ideKeyProg n => s.ideKeys n false fun x => { x with keyed := true }
  | .ideKeyGo n => s.ideKeys n true fun x => { x with going := true }
  | .ideKeyStop n => s.ideKeys n true fun x => { x with keyed := false, going := false }
  | .tdispStart vf => s.tdispStart vf
  | .tdispState vf => s.tdispState vf

/-- VENDOR_DEFINED (R409, R439): IDE_KM and TDISP are carried in an established session on PF0's DOE. -/
def execVendorDefined (t : Transport) (session : Nat) (tagOk : Bool) (m : VendorMsg) (s : State) : Host.Outcome State Fault Refusal :=
  .next (s.onSpdm t fun s => s.inSession t session true tagOk fun s _ => if t = .mctp then spErr s 1 else s.vendorDo m)

/-! Device interfaces (R410, R411, R457). -/

/-- A pointer of a table, below the leaf level: the table that it reaches. -/
def tableOf (e level : Nat) : Option Nat :=
  if getBits e 0 1 = 1 ∧ getBits e 1 1 = 0 ∧ pteOk e level = true then
    let a := getBits e 8 31 * 256
    if tableOk a (tableSize (level + 1)) then some a else none
  else none

/-- The tables that the pointers of a table reach. -/
def State.nextTables (s : State) (level a : Nat) : List Nat :=
  (upTo (tableSize level / 8)).filterMap fun i => tableOf (leNat (s.bytes (a + 8 * i) 8)) level

/-- Every table that a partition's walk reaches: address and size. -/
def State.walkTables (s : State) (p : Nat) : List (Nat × Nat) :=
  let root := getBits (s.reg64 (partPtroot p)) 15 24 * 32768
  if s.bit (partPtroot p) 0 ∧ tableOk root (tableSize 0) = true then
    let l1 := s.nextTables 0 root
    let l2 := l1.flatMap (s.nextTables 1)
    (root, tableSize 0) :: l1.map (·, tableSize 1) ++ l2.map (·, tableSize 2)
  else []

/-- A TDISP message that has a row of its own, in an established session on PF0's DOE. -/
def State.onTdisp (s : State) (vf session : Nat) (tagOk : Bool) (f : State → Nat → State × Nat × List Byte) : State :=
  s.onSpdm .doe fun s => s.inSession .doe session true tagOk fun s _ => s.onTdi vf (f s)

/-- LOCK_INTERFACE: the interface locks, and the tables with it, when the lamp is lit and neither TAMPERED nor DEBUG is set. -/
def State.lockTdi (s : State) (p : Nat) : State × Nat × List Byte :=
  if (s.part p).tdi = 0 ∧ s.bit (partStat p) 0 = true ∧ s.bit secStat 1 = false ∧ s.bit secStat 2 = false then
    ((s.modPart p fun y => { y with locked := s.walkTables p, lockRoot := BitVec.ofNat 64 (s.reg64 (partPtroot p)) }).setTdi p 1, spVendor, [1])
  else spErr s 4

/-- LOCK_INTERFACE (R457). -/
def execLockInterface (vf session : Nat) (tagOk : Bool) (s : State) : Host.Outcome State Fault Refusal :=
  withUnit (okVf vf) (s.onTdisp vf session tagOk State.lockTdi)

/-- STOP_INTERFACE (R411): the interface is unlocked, and its partition is reset under a fresh key. -/
def execStopInterface (vf session : Nat) (tagOk : Bool) (s : State) : Host.Outcome State Fault Refusal :=
  withUnit (okVf vf) (s.onTdisp vf session tagOk fun s p => (s.resetRekey p, spVendor, [0]))

/-- The bytes of a partition's entry, stage entries and channel entries as active: its WAYS are those that are enabled. -/
def State.entBytes (s : State) (e : PartEnt) : List Byte := e.raw.take 0x10 ++ leBytes 8 (s.liveWays e.ways) ++ e.raw.drop 0x18

/-- The device-specific area of R457. -/
def State.reportArea (s : State) (p : Nat) : List Byte :=
  let e := s.ent p
  leBytes 1 p ++ leBytes 1 (if e.cached then 1 else 0) ++ leBytes 1 e.keyslot ++ leBytes 1 e.lead ++
  leBytes 4 (s.reg (partModel p)).toNat ++ leBytes 8 e.coresets ++ leBytes 8 (s.liveWays e.ways) ++ leBytes 32 e.hbmch ++
  leBytes 8 (s.part p).lockRoot.toNat ++ leBytes 2 (s.domainOf p) ++ List.replicate 6 0 ++
  leBytes 8 (s.reg64 (chartPseq p)) ++ leBytes 48 (Config.sha384 (s.entBytes e)).toNat

/-- An MMIO range of the report: its first page, its pages of 4 KiB, its attributes and the number of its BAR. -/
def mmioRange (vf bar size attrs : Nat) : List Byte :=
  leBytes 8 (Config.mmioPage vf bar).toNat ++ leBytes 4 (size / 4096) ++ leBytes 2 attrs ++ leBytes 2 bar

/-- The interface report in the layout of TDISP (log entry 93): 64 MSI-X vectors, the ranges of BAR0, BAR2 and BAR4 (R402), of which the last holds the MSI-X table and its pending bits, and the area with its length. -/
def State.report (s : State) (vf p : Nat) : List Byte :=
  let area := s.reportArea p
  leBytes 2 0 ++ leBytes 2 0 ++ leBytes 2 63 ++ leBytes 2 0 ++ leBytes 4 0 ++ leBytes 4 3 ++
  mmioRange vf 0 (2 ^ 21) 0 ++ mmioRange vf 2 (2 ^ s.bar2Log vf) 0 ++ mmioRange vf 4 4096 3 ++ leBytes 4 area.length ++ area

/-- GET_DEVICE_INTERFACE_REPORT (R457). -/
def execGetDeviceInterfaceReport (vf session : Nat) (tagOk : Bool) (s : State) : Host.Outcome State Fault Refusal :=
  withUnit (okVf vf) (s.onTdisp vf session tagOk fun s p => (s, spVendor, s.report vf p))

end Sys2Proof.Machine
end

