-- ==== Sys2Proof/Machine/ModReset.lean ====
section
/-! DEFINITION. Module reset (R485, R486): what it clears and what the always-on domain, the logbook and the persistent registers keep. -/

namespace Sys2Proof.Machine

/-- What the loop, the thermal throttle and the fast clamp allow a core (R467). -/
def Core.cap (c : Core) : Nat := min c.loopCap (min c.thermCap c.clampCap)

/-- Causes of RIM_RSTCAUSE (R486). -/
def rcAux : Nat := 0
def rcPerst : Nat := 1
def rcMain : Nat := 2
def rcCoolant : Nat := 3
def rcThermal : Nat := 4

/-- Registers that a module reset keeps, at least in part: persistent ones (R447, R464, R486, R520) and those of the always-on domain. -/
def keptReg (k : Nat) : Bool :=
  k == rimRstCause || k == secStat || k == secPfcnt || k == secFwsvn || decide (secOwndig ≤ k ∧ k < secOwndig + 48) ||
  k == logNextSeq || k == logNextSeq + 4 || k == logOvwr || k == logOvwr + 4 || k == logPinned ||
  offIn k 0x2000000 1632 0x1000 == 0x864 || offIn k 0x2000000 1632 0x1000 == 0x868

/-- The part of a kept register that stays: SEC_STAT without DEBUG and FWSTAGED, CORE_GOV without its cap. -/
def keptBits (k : Nat) (v : Word) : Word :=
  if k = secStat then v &&& 0xFB
  else if offIn k 0x2000000 1632 0x1000 = 0x864 then v ||| 0xFFFF0000
  else v

/-- Registers after a module reset. -/
def State.keptRegs (s : State) : Tbl Word :=
  (s.regs.filter fun (e : Nat × Word) => keptReg e.1).foldl (fun t (e : Nat × Word) => tput (regReset e.1) t e.1 (keptBits e.1 e.2)) []

/-- A unit of a die that has been retired stays so (R434). -/
def Die.kept (x : Die) : Die := { collRetired := x.collRetired, digRetired := x.digRetired }

/-- Everything outside the always-on domain is lost; key slots and the module key are drawn afresh, so every channel's contents are (R455). Global time goes on (R390), and so do the records that await the logbook. It ends debug unlock, which a record says (R454, R521). -/
def State.moduleReset (s : State) (cause : Nat) : State :=
  let t : State :=
    { pending := s.pending
      gt := s.gt
      free := s.free
      out := s.out
      regs := s.keptRegs
      memEpoch := (upTo 256).map fun (c : Nat) => (c, tget 0 s.memEpoch c + 1)
      nextLaunch := s.nextLaunch
      dies := s.dies.foldl (fun (a : Tbl Die) (e : Nat × Die) => tput {} a e.1 e.2.kept) []
      copies := s.copies.foldl (fun (a : Tbl CopyEng) (e : Nat × CopyEng) => tput {} a e.1 { retired := e.2.retired }) []
      d2d := s.d2d
      chart := { boot := s.chart.boot, mCores := s.chart.mCores, mChans := s.chart.mChans, mLinks := s.chart.mLinks }
      sec := {
        owner := s.sec.owner, seeds := s.sec.seeds, staged := s.sec.staged, fw := s.sec.fw
        presCount := s.sec.presCount, presD := s.sec.presD
        tamperOpen := s.sec.tamperOpen, tamperDue := s.sec.tamperDue, tamperClosed := s.sec.tamperClosed }
      pwr := {
        aRaw := s.pwr.aRaw, bRaw := s.pwr.bRaw, aOk := s.pwr.aOk, bOk := s.pwr.bOk
        d := s.pwr.d, l := s.pwr.l, okRun := s.pwr.okRun
        stopped := s.pwr.stopped, perstSeen := s.pwr.perstSeen, coolHist := s.pwr.coolHist, alert := s.pwr.stopped.isSome }
      boot := {
        perst := s.boot.perst, mainBad := s.boot.mainBad, auxUp := s.boot.auxUp
        mainRun := s.boot.mainRun, auxGt := s.boot.auxGt, resetGt := some s.now
        running := false, boots := s.boot.boots + 1, cause := cause }
      log := { s.log with drop := 0, dropped := 0 } }
  let u := t.setReg rimRstCause (BitVec.ofNat 32 cause)
  if s.bit secStat 2 then u.logRaise sevNotice none srcRim 0x63 (leBytes 48 0) else u

/-- A reset condition begins: a module that runs is reset; one already in reset keeps its cause, but of conditions of one moment the lowest code is the cause (R527). -/
def State.enterReset (s : State) (cause : Nat) : State :=
  if s.boot.running then s.moduleReset cause
  else if s.boot.resetGt = some s.now ∧ cause < s.boot.cause then
    ({ s with boot := { s.boot with cause := cause } } : State).setReg rimRstCause (BitVec.ofNat 32 cause)
  else s

/-- Change a core's caps; a new effective cap waits to take hold. -/
def State.setCaps (s : State) (p : Nat) (f : Core → Core) : State :=
  s.modCore p fun c => let d := f c; { d with capWait := d.capWait || d.cap != c.cap }

/-- The fast-clamp cap of every core (R473, R481). -/
def State.capAll (s : State) (v : Nat) : State := (upTo 1632).foldl (fun t p => t.setCaps p fun k => { k with clampCap := v }) s

/-- The content of the record of an emergency stop (R481): cause, the last 64 samples of both inputs or the tripping sensor's readings, and LIMIT. -/
def State.stopPayload (s : State) (cause : Nat) : List Byte :=
  leBytes 1 cause ++
  (if cause = rcThermal then
    (match s.pwr.trip with
      | some (k, a, b) => leBytes 2 k ++ leBytes 1 a ++ leBytes 1 b
      | none => leBytes 4 0)
  else s.pwr.coolHist.map fun (e : Bool × Bool) => (if e.1 then 1 else 0) + (if e.2 then 2 else 0)) ++
  leBytes 2 (s.fld pwrLimit 0 12)

/-- An emergency stop (R481, R483), of which vector 4 tells (R407): every governor caps at 4,096 units, where the rails are up, and THERM_ALERT_N is low; then the rails go off, all but the logbook and the persistent registers is lost, and the record is written. -/
def State.emergencyStop (s : State) (cause : Nat) : State :=
  if s.pwr.stopped.isSome ∨ s.boot.auxUp = false then s
  else
    let r : LogRec := { sev := sevFatal, part := none, source := srcRim, gt := s.now, boot := s.boot.boots, code := 0x22, payload := s.stopPayload cause }
    let t : State := { s with
      pwr := { s.pwr with stopped := some cause, perstSeen := s.boot.perst, alert := true, trip := none }
      log := { s.log with waiting := s.log.waiting ++ [r] } }
    ((if s.boot.running then t.capAll 4096 else t).irq 0 4).enterReset cause

end Sys2Proof.Machine
end

