-- ==== Sys2Proof/Machine/Power.lean ====
section
/-! DEFINITION. Power, temperature and coolant (R463 to R484): the power loop, clamps and caps, junction sensors, telemetry (R281), coolant inputs and the emergency stop. -/

namespace Sys2Proof.Machine

/-- The physical cores of a rail domain. -/
def railCores (r : Nat) : List Nat := (upTo 51).map (51 * r + ·)
def State.railLit (s : State) (r : Nat) : Bool := s.lamp (lampRail r)

/-- An event of PWR_EVT and its vector (R407, R484). -/
def State.pwrEvent (s : State) (i vec : Nat) : State := (s.setBit pwrEvt i true).irq 0 vec

/-- The record of a power event (R521). -/
def State.pwrRecord (s : State) : State :=
  s.logRaise sevAlert none srcRim 0x21 (leBytes 4 (s.reg pwrStat).toNat ++ leBytes 4 (s.reg pwrInst).toNat)

/-- A die counts as HOT while one of its stacks reads 95 °C or more (R475). -/
def State.dieHot (s : State) (d : Nat) : Bool :=
  decide (95 ≤ tget 0 s.pwr.sensors (200 + 2 * d) ∨ 95 ≤ tget 0 s.pwr.sensors (201 + 2 * d))

def State.railHot (s : State) (r : Nat) : Bool := s.bit (pwrRail r) 16

/-- THERM_ALERT_N (R477). -/
def State.setAlert (s : State) : State :=
  { s with pwr := { s.pwr with alert := (upTo 32).any s.railHot || s.pwr.forced || s.pwr.clampGt.isSome || s.pwr.stopped.isSome } }

/-! Caps and governors (R467). -/

/-- GOVERNOR_CAP_TAKE_HOLD (R467). -/
def execGovernorCapTakeHold (core : Nat) (s : State) : Host.Outcome State Fault Refusal :=
  withUnit (okCore core) (
    if (s.core core).capWait then
      ((s.endCap core).setFld (coreGov core) 16 16 (s.core core).cap).modCore core fun c => { c with capWait := false }
    else s)

/-- A measurement of a core's rate: within 2 % of the mean of the last 1,024 ns, and, as the governor held the rate, no more than the highest effective cap since the last update (R463, R467; log entry 58). -/
def State.measuredRate (s : State) (p rate : Nat) : Nat :=
  let n := s.rateSum p
  max ((98 * n + 102399) / 102400) (min rate (min (102 * n / 102400) (s.capHigh p)))

/-- SEXTANT_UPDATE (R463): at multiples of 1,024 ns, from 1,024 ns after the rail's lamp lit. -/
def execSextantUpdate (core rate : Nat) (s : State) : Host.Outcome State Fault Refusal :=
  withUnit (okCore core) (
    match tfind s.boot.railGt (core / 51) with
    | some g =>
      if s.now % 1024 = 0 ∧ g + 1024 ≤ s.now ∧ s.railLit (core / 51) = true then
        (s.setFld (coreSext core) 0 16 (s.measuredRate core rate)).modCore core fun c => { c with caps := [] }
      else s
    | none => s)

/-- A core's ageing monitor is due: once FOLER runs after a module reset, and every 86,400 s of GT while the core's rail is up (R469). -/
def State.ageDue (s : State) (p : Nat) : Bool :=
  s.lamp lampFoler && match tfind s.boot.aged p with
    | none => true
    | some g => s.railLit (p / 51) && decide (g + 86400 * 10 ^ 9 ≤ s.now)

/-- AGEING_EVALUATION (R469): the ceiling stays, or falls by 64 units at most, never below 4,096. -/
def execAgeingEvaluation (core drop : Nat) (s : State) : Host.Outcome State Fault Refusal :=
  withUnit (okCore core) (
    if s.ageDue core = false then s else
    let s : State := { s with boot := { s.boot with aged := tset s.boot.aged core s.now } }
    let old := s.ceil core
    let new := min old (max 4096 (old - min drop 64))
    if new = old then s
    else
      let t := ((s.endCap core).setFld (coreGov core) 0 16 new).setFld (coreCeil0 core) 16 8 (satAdd (s.fld (coreCeil0 core) 16 8) 1 255)
      let u := t.logRaise sevNotice none srcRim 0x20 (leBytes 2 core ++ leBytes 2 old ++ leBytes 2 new)
      if new < Config.ratingUnits ∧ s.bit (coreCeil0 core) 24 = false then (u.setBit (coreCeil0 core) 24 true).pwrEvent 3 3 else u)

/-! The power loop (R470 to R472). -/

/-- The mean of the last samples, as many as the window holds. -/
def State.windowMean (s : State) : Nat :=
  let xs := s.pwr.samples.take (s.fld pwrLimit 12 4 * 1000)
  if xs = [] then 0 else xs.foldl (· + ·) 0 / xs.length

def State.budget (s : State) : Nat := if s.pwr.forced then 900 else s.fld pwrLimit 0 12

/-- The highest ceiling of a rail domain's cores. -/
def State.railCeil (s : State) (r : Nat) : Nat := (railCores r).foldl (fun a p => max a (s.ceil p)) 0
/-- The loop cap of a rail domain. -/
def State.railLoop (s : State) (r : Nat) : Nat := (s.core (51 * r)).loopCap

/-- Lower a rail's power: its voltage by `n` steps; at 0.55 V its loop cap by 64 units, to 4,096 at least. -/
def State.lowerRail (s : State) (r n : Nat) : State :=
  let v := s.fld (pwrRail r) 0 7
  if v = 0 then
    let c := max 4096 (min (s.railLoop r) (s.railCeil r) - 64)
    (railCores r).foldl (fun t p => t.setCaps p fun k => { k with loopCap := c }) s
  else s.setFld (pwrRail r) 0 7 (v - n)

/-- Raise it again: the loop cap to the ceiling, where it ends; then the voltage, to 0.85 V at most. -/
def State.raiseRail (s : State) (r n : Nat) : State :=
  if s.railLoop r = 0xFFFF then s.setFld (pwrRail r) 0 7 (min 60 (s.fld (pwrRail r) 0 7 + n))
  else
    let c := if s.railCeil r ≤ s.railLoop r + 64 then 0xFFFF else s.railLoop r + 64
    (railCores r).foldl (fun t p => t.setCaps p fun k => { k with loopCap := c }) s

/-- A rail can still be lowered, or raised. -/
def State.movable (s : State) (down : Bool) (r : Nat) : Bool :=
  if down then s.fld (pwrRail r) 0 7 != 0 || s.railLoop r != 4096 else s.fld (pwrRail r) 0 7 != 60 || s.railLoop r != 0xFFFF

/-- Put a rail among others, in falling order of their power. -/
def insRail (w : Nat → Nat) (r : Nat) : List Nat → List Nat
  | [] => [r]
  | x :: xs => if w x < w r then r :: x :: xs else x :: insRail w r xs

/-- The lit rails, those that draw the most power first. -/
def State.railOrder (s : State) (rails : List (Nat × Nat)) : List Nat :=
  ((upTo 32).filter s.railLit).foldl (fun xs r => insRail (fun i => (rails.getD i (0, 0)).1) r xs) []

/-- One update moves rails in an order, the first that can move at least, each by two steps at most, down or up (R466, R472); how many, and by how much, is free (log entry 62). -/
def State.moveRails (s : State) (order : List Nat) (down : Bool) : State :=
  let can := order.filter (s.movable down)
  if can = [] then s
  else
    let k := s.freeNat
    (can.take (1 + k.1 % can.length)).foldl (fun t r =>
      let x := t.freeBit
      let n := if x.1 then 2 else 1
      if down then x.2.lowerRail r n else x.2.raiseRail r n) k.2

/-- INRANGE of the lit rails: the measured voltage lies within 15 mV of the setting (R465). -/
def State.showRails (s : State) (rails : List (Nat × Nat)) : State :=
  ((upTo 32).filter s.railLit).foldl (fun t r =>
    let mv := (rails.getD r (0, 0)).2
    let want := 550 + 5 * t.fld (pwrRail r) 0 7
    t.setBit (pwrRail r) 7 (decide (want ≤ mv + 15 ∧ mv ≤ want + 15))) s

/-- Thermal capping (R475): a HOT domain's thermal cap falls by 64 units; one that is no longer HOT rises until it reaches the ceiling and lapses. -/
def State.thermalCaps (s : State) : State :=
  ((upTo 32).filter s.railLit).foldl (fun t r =>
    (railCores r).foldl (fun (t : State) p =>
      let c := (t.core p).thermCap
      if t.railHot r || t.dieHot (r / 8) then t.setCaps p fun k => { k with thermCap := min c (t.ceil p) - 64 }
      else if c = 0xFFFF then t
      else t.setCaps p fun k => { k with thermCap := if t.ceil p ≤ c + 64 then 0xFFFF else c + 64 }) t) s

/-- CAPPING and FLOOR as the rails stand; reaching the floor is an event. -/
def State.loopStatus (s : State) : State :=
  let rails := (upTo 32).filter s.railLit
  let capping := rails.any fun r => decide (s.fld (pwrRail r) 0 7 < 60) || s.railLoop r != 0xFFFF
  let floor := rails != [] && rails.all fun r => decide (s.fld (pwrRail r) 0 7 = 0 ∧ s.railLoop r = 4096)
  let t := (s.setBit pwrStat 0 capping).setBit pwrStat 4 floor
  if floor && !s.bit pwrStat 4 then (t.pwrEvent 4 3).pwrRecord else t

/-- A 1 ms sample is recorded. -/
def State.sample (s : State) (w : Nat) : State :=
  let t : State := { s with pwr := { s.pwr with
    samples := (w :: s.pwr.samples).take 10000
    sampleGt := some s.now
    overRun := if 2400 < w then s.pwr.overRun + 1 else 0 } }
  let u := (t.setFld pwrInst 0 16 w).setFld pwrPeak 0 16 (max w (t.fld pwrPeak 0 16))
  u.setFld pwrAvg 0 16 u.windowMean

/-- The trend of the last 16 samples: their mean. DESIGN CHOICE: R472 does not say how the loop weighs it (log entry 62). -/
def State.trend (s : State) : Nat :=
  let xs := s.pwr.samples.take 16
  if xs = [] then 0 else xs.foldl (· + ·) 0 / xs.length

/-- The loop must reduce power: the window average is above the budget, or, under a forced cap, whose budget applies to every sample, the sample is (R472, R479). -/
def State.mustReduce (s : State) (w : Nat) : Bool := decide (s.budget < s.windowMean) || (s.pwr.forced && decide (s.budget < w))

/-- What an update does to the rails: it reduces power where it must; with the trend above the budget it may; otherwise it may raise it, in the reverse order. -/
def State.loopMove (s : State) (w : Nat) (order : List Nat) : State :=
  if s.mustReduce w then s.moveRails order true
  else
    let x := s.freeBit
    if x.1 = false then x.2
    else if s.budget < s.trend then x.2.moveRails order true
    else x.2.moveRails order.reverse false

/-- POWER_LOOP_UPDATE (R470, R472): every 1 ms of GT, at a multiple of it, with the sample that ends there and, for each rail domain, the power that it draws in W and its measured voltage in mV. -/
def execPowerLoopUpdate (sampleW : Nat) (rails : List (Nat × Nat)) (s : State) : Host.Outcome State Fault Refusal :=
  .next (
    if s.lamp lampFoler = false ∨ s.now % 10 ^ 6 ≠ 0 ∨ s.pwr.sampleGt = some s.now then s
    else
      let t := (s.sample sampleW).showRails rails
      (t.loopMove sampleW (t.railOrder rails)).thermalCaps.loopStatus)

/-- FAST_CLAMP (R473): 20 samples in a row above 2,400 W, or a 1 µs mean above 2,900 W, which ends at a multiple of 1 µs (R470). -/
def execFastClamp (spikeW : Nat) (s : State) : Host.Outcome State Fault Refusal :=
  .next (
    if s.lamp lampFoler = true ∧ (20 ≤ s.pwr.overRun ∨ (2900 < spikeW ∧ s.now % 1000 = 0)) then
      let t := s.capAll 4096
      let u : State := { t with pwr := { t.pwr with clampGt := some t.now, overRun := 0 } }
      (((u.setBit pwrStat 3 true).pwrEvent 2 3).pwrRecord).setAlert
    else s)

/-- FAST_CLAMP_END (R473): after 10 ms control returns to the loop. -/
def execFastClampEnd (s : State) : Host.Outcome State Fault Refusal :=
  .next (
    match s.pwr.clampGt with
    | some g =>
      if g + 10 ^ 7 ≤ s.now then
        let t := s.capAll 0xFFFF
        ({ t with pwr := { t.pwr with clampGt := none } } : State).setBit pwrStat 3 false |>.setAlert
      else s
    | none => s)

/-! Temperature (R474 to R477). -/

/-- Note a reading: two of 105 °C or more in a row from one sensor make a trip. -/
def State.reading (s : State) (key v : Nat) : State :=
  let old := tget 0 s.pwr.sensors key
  { s with pwr := { s.pwr with
      sensors := tput 0 s.pwr.sensors key v
      trip := if 105 ≤ old ∧ 105 ≤ v ∧ s.pwr.trip = none then some (key, old, v) else s.pwr.trip } }

/-- TJMAX and THROTTLE as the readings stand; the first HOT reading is an event. -/
def State.thermStatus (s : State) : State :=
  let tj := (s.pwr.sensors.filter fun (e : Nat × Nat) => decide (e.1 < 200)).foldl (fun a (e : Nat × Nat) => max a e.2) 0
  let hot := (upTo 32).any s.railHot || (upTo 4).any s.dieHot
  let t := (s.setFld pwrStat 8 8 (min tj 255)).setBit pwrStat 1 hot
  (if hot && !s.bit pwrStat 1 then t.pwrEvent 0 3 else t).setAlert

/-- The sensors of rail domain `n`, or of the uncore of die `n - 32`, are read. -/
def State.readSensors (s : State) (n : Nat) (xs : List Nat) : State :=
  let m := if n < 32 then 4 else 2
  let t := (upTo m).foldl (fun t i => t.reading (4 * n + i) (xs.getD i 0)) s
  if n < 32 then
    let tj := (xs.take m).foldl max 0
    let hot := if s.railHot n then decide (93 ≤ tj) else decide (95 ≤ tj)
    ((t.setFld (pwrRail n) 8 8 (min tj 255)).setBit (pwrRail n) 16 hot).thermStatus
  else t.thermStatus

/-- THERMAL_READ (R474, R475). -/
def execThermalRead (domain : Nat) (sensors : List Nat) (s : State) : Host.Outcome State Fault Refusal :=
  withUnit (decide (domain < 36)) (if s.lamp lampRim then s.readSensors domain sensors else s)

/-- A slot of a channel's command bus that no other class can use: nothing is queued and no calibration is due (R275, R281). -/
def Chan.slack (x : Chan) : Bool := x.reqs == [] && x.calDue.isNone

/-- The snapshot registers of a channel: the stack's temperature and the controller's counts (R281, R282). -/
def State.stackShot (s : State) (temp c : Nat) : State :=
  if (s.chan c).slack then
    ((s.setFld (hbmStat c) 8 8 (min temp 255)).setReg (hbmCecnt c) (BitVec.ofNat 32 (s.chan c).ceCount)).setReg (hbmUecnt c) (BitVec.ofNat 32 (s.chan c).ueCount)
  else s

/-- TELEMETRY_READ (R281, R474): the stack's temperature and the counts of its controllers go to the snapshot registers of the channels that have a slot to spare. -/
def execTelemetryRead (stack temp : Nat) (s : State) : Host.Outcome State Fault Refusal :=
  withUnit (decide (stack < 8)) (
    if s.lamp (lampStack stack) then
      ((upTo 32).foldl (fun t i => t.stackShot temp (32 * stack + i)) (s.reading (200 + stack) temp)).thermStatus
    else s)

/-- THERMAL_TRIP (R476, R481). -/
def execThermalTrip (s : State) : Host.Outcome State Fault Refusal :=
  .next (if s.pwr.trip.isSome then s.emergencyStop rcThermal else s)

/-! Coolant (R478 to R480). -/

/-- The coolant register shows the filtered inputs, D and the run of samples that both report OK. -/
def State.showCool (s : State) : State :=
  let p := s.pwr
  s.setReg pwrCool (BitVec.ofNat 32 ((if p.aOk then 1 else 0) + (if p.bOk then 2 else 0) + min p.d 200 * 2 ^ 8 + min p.okRun 2000 * 2 ^ 16))

/-- One sample of both inputs: an input's filtered value changes when two samples in a row agree on the new level. -/
def State.coolant (s : State) (aOk bOk : Bool) : State :=
  let p := s.pwr
  let fa := if aOk = p.aRaw then aOk else p.aOk
  let fb := if bOk = p.bRaw then bOk else p.bOk
  let d := if fa = fb then 0 else p.d + 1
  let q : Power := { p with
    aRaw := aOk, bRaw := bOk, aOk := fa, bOk := fb
    d := min d 200
    l := if fa || fb then 0 else p.l + 1
    okRun := if fa && fb then min (p.okRun + 1) 2000 else 0
    coolHist := ((aOk, bOk) :: p.coolHist).take 64 }
  let t := ({ s with pwr := q } : State).showCool
  if d = 0 ∧ 0 < p.d ∧ p.d ≤ 199 ∧ p.forced = false then t.countReg pwrCoolDcnt 1 else t

/-- COOLANT_SAMPLE (R478, R479): the inputs are sampled while VIN_AUX is in range. -/
def execCoolantSample (aOk bOk : Bool) (s : State) : Host.Outcome State Fault Refusal :=
  .next (if s.boot.auxUp then s.coolant aOk bOk else s)

/-- FORCED_CAP (R479): D has reached 200, and L has not reached 5. -/
def execForcedCap (s : State) : Host.Outcome State Fault Refusal :=
  .next (
    if s.pwr.d = 200 ∧ s.pwr.l < 5 ∧ s.pwr.forced = false ∧ s.pwr.stopped = none ∧ s.boot.running = true then
      let t : State := { s with pwr := { s.pwr with forced := true } }
      (((t.setBit pwrStat 2 true).pwrEvent 1 4).pwrRecord).setAlert
    else s)

/-- FORCED_CAP_END (R480): 2,000 filtered samples in a row have reported both OK. -/
def execForcedCapEnd (s : State) : Host.Outcome State Fault Refusal :=
  .next (
    if s.pwr.forced = true ∧ s.pwr.okRun = 2000 then
      ((({ s with pwr := { s.pwr with forced := false } } : State).setBit pwrStat 2 false).pwrRecord).setAlert
    else s)

/-- EMERGENCY_STOP (R479, R481): L has reached 5, or a trip has been found. -/
def execEmergencyStop (s : State) : Host.Outcome State Fault Refusal :=
  .next (if 5 ≤ s.pwr.l then s.emergencyStop rcCoolant else if s.pwr.trip.isSome then s.emergencyStop rcThermal else s)

end Sys2Proof.Machine
end

