-- ==== Sys2Proof/Machine/Boot.lean ====
section
/-! DEFINITION. Start-up (R485 to R489), lamps, supplies (R526, R527, R533), die resets (R493), and the end of a partition's remote requests (R492). -/

namespace Sys2Proof.Machine

/-! Reset conditions (R485, R482, R526, R527, R533). -/

/-- PERST_N_ASSERT (R485, R533): shorter lows than 10 µs are ignored. -/
def execPerstNAssert (lowNs : Nat) (s : State) : Host.Outcome State Fault Refusal :=
  .next (
    if lowNs < 10000 then s
    else ({ s with boot := { s.boot with perst := true }, pwr := { s.pwr with perstSeen := true } } : State).enterReset rcPerst)

/-- PERST_N_DEASSERT (R485). -/
def execPerstNDeassert (s : State) : Host.Outcome State Fault Refusal :=
  .next { s with boot := { s.boot with perst := false } }

/-- A mean of VIN_MAIN over 50 µs, in mV (R526): it is out of range from the first mean below 48.0 V or above 58.0 V, and back in range once every mean for 10 ms, 200 of them, has lain within 48.5 to 57.5 V. -/
def State.mainMean (s : State) (mv : Nat) : State :=
  if mv < 48000 ∨ 58000 < mv then ({ s with boot := { s.boot with mainBad := true, mainRun := 0 } } : State).enterReset rcMain
  else
    let n := if 48500 ≤ mv ∧ mv ≤ 57500 then min 200 (s.boot.mainRun + 1) else 0
    { s with boot := { s.boot with mainRun := n, mainBad := s.boot.mainBad && decide (n < 200) } }

/-- VIN_MAIN_OUT_OF_RANGE (R526): a mean of 50 µs is judged. -/
def execVinMainOutOfRange (meanMv : Nat) (s : State) : Host.Outcome State Fault Refusal := .next (s.mainMean meanMv)

/-- VIN_MAIN_IN_RANGE (R526): so is one that may be the last of the 10 ms that bring it back. -/
def execVinMainInRange (meanMv : Nat) (s : State) : Host.Outcome State Fault Refusal := .next (s.mainMean meanMv)

/-! The logbook's slots (R515, R517, R518). -/

/-- Pinned records. -/
def State.pinnedCount (s : State) : Nat := (s.log.mram.filter fun (e : Nat × LogRec) => decide (e.1 < 256)).length

/-- The slot of the next record: a pinned one for a FATAL record while one is free, otherwise the ring's next. -/
def State.logSlotFor (s : State) (r : LogRec) : Nat :=
  if r.sev = sevFatal ∧ s.pinnedCount < 256 then s.pinnedCount else s.log.ring

/-- Power is lost during a write of a copy: the slot holds no record there (R517). Whether a write was under way in MRAM and in NOR, of the records that wait, is free (log entry 59). -/
def State.tearWrites (s : State) : State :=
  let a := s.freeBit
  let b := a.2.freeBit
  let t := b.2
  let m := match t.log.waiting with
    | r :: _ => if a.1 then tdel t.log.mram (t.logSlotFor r) else t.log.mram
    | [] => t.log.mram
  let n := match t.log.norWait with
    | k :: _ => if b.1 then tdel t.log.nor k else t.log.nor
    | [] => t.log.nor
  { t with log := { t.log with mram := m, nor := n } }

/-- VIN_AUX_LOSS (R527): the always-on domain and through it the whole module are reset, in whatever state it was; TAMPERED and the persistent registers stay. -/
def State.auxLoss (s : State) : State :=
  let t := s.tearWrites.moduleReset rcAux
  let u : State := { t with
    pwr := {}
    sec := { t.sec with presCount := 0, presD := 0, tamperOpen := 0, tamperClosed := 0, tamperDue := false }
    boot := { t.boot with auxUp := false, auxGt := s.now, ir := 0 }
    log := { t.log with waiting := [], held := [], heldLost := 0, norWait := [], rate := [] } }
  (u.setReg secStat (u.reg secStat &&& 3)).setReg pwrCool 0

/-- VIN_AUX_LOSS (R527). -/
def execVinAuxLoss (s : State) : Host.Outcome State Fault Refusal := .next s.auxLoss

/-- VIN_AUX_UP (R527): in range for 20 ms, all of them since the loss, the always-on domain runs. -/
def execVinAuxUp (inRangeNs : Nat) (s : State) : Host.Outcome State Fault Refusal :=
  .next (if 2 * 10 ^ 7 ≤ inRangeNs ∧ s.boot.auxGt + inRangeNs ≤ s.now then { s with boot := { s.boot with auxUp := true } } else s)

/-- No condition of R485 holds: a stopped module needs PERST_N to have been asserted since, and 2,000 samples of coolant flow (R482). -/
def State.released (s : State) : Bool :=
  s.boot.auxUp && !s.boot.perst && !s.boot.mainBad &&
  (s.pwr.stopped.isNone || (s.pwr.perstSeen && decide (2000 ≤ s.pwr.okRun)))

/-- STARTUP_BEGIN (R485, R483): the module reset has ended, which a record says. -/
def execStartupBegin (s : State) : Host.Outcome State Fault Refusal :=
  .next (
    if s.boot.running = false ∧ s.released = true then
      let t : State := { s with
        boot := { s.boot with running := true, startGt := s.now }
        pwr := { s.pwr with stopped := none, alert := false } }
      t.logRaise sevNotice none srcRim 1 (leBytes 4 (t.reg rimRstCause).toNat ++ leBytes 8 (t.reg64 rimLamps))
    else s)

/-! Lamps (R487, R488). -/

/-- The lamps that a lamp needs. -/
def lampNeeds (i : Nat) : List Nat :=
  if i = 0 then []
  else if i = 1 ∨ i = 3 ∨ i = 5 then [lampRim]
  else if i = 2 then [lampFoler]
  else if i = 4 then [lampLogbook]
  else if i = 6 then [lampSecroot]
  else if i < 12 then [lampFoler, lampTimebase]
  else if i < 20 then [lampDie ((i - 12) / 2)]
  else if i < 32 then [lampDie ((i - 20) / 3)]
  else [lampDie ((i - 32) / 8)]

/-- The latest time of a lamp, in ms. -/
def lampLatest (i : Nat) : Nat :=
  if i = 0 then 1
  else if i = 1 then 25
  else if i = 2 then 40
  else if i = 3 then 100
  else if i = 4 then 60
  else if i = 5 then 30
  else if i = 6 then 150
  else if i < 12 then 120
  else if i < 20 then 500
  else if i < 32 then 200
  else 250

/-- The die whose lamp a lamp is, or depends on. -/
def lampOfDie (i : Nat) : Option Nat :=
  if i < 8 then none
  else if i < 12 then some (i - 8)
  else if i < 20 then some ((i - 12) / 2)
  else if i < 32 then some ((i - 20) / 3)
  else some ((i - 32) / 8)

/-- The start from which a lamp's time counts: of start-up, or of its die's restart (R493). -/
def State.lampStart (s : State) (i : Nat) : Nat :=
  match lampOfDie i with
  | some d => max s.boot.startGt (tget 0 s.boot.dieGt d)
  | none => s.boot.startGt

/-- The staged image runs from the moment FOLER lights: the minimum becomes its SVN (R452). -/
def State.runStaged (s : State) : State :=
  match s.sec.staged with
  | some (svn, d) =>
    let t : State := { s with sec := { s.sec with staged := none, fw := some d } }
    (t.setReg secFwsvn (BitVec.ofNat 32 (svn.toNat + svn.toNat * 2 ^ 16))).setBit secStat 8 false
  | none => s

/-- The slots of two copies, each with the record of the higher SEQ; a slot with an uncorrectable error in the first has the second's (R517). -/
def mergeLog (bad : List Nat) (a b : Tbl LogRec) : Tbl LogRec :=
  b.foldl (fun t e => match tfind t e.1 with
    | some r => if bad.contains e.1 = true ∨ r.seq < e.2.seq then tset t e.1 e.2 else t
    | none => tset t e.1 e.2) a

/-- The ring slot after that of the highest SEQ in the ring. -/
def nextRing (x : Tbl LogRec) : Nat :=
  match argmin (fun (e : Nat × LogRec) => 2 ^ 64 - e.2.seq) (x.filter fun e => decide (256 ≤ e.1)) with
  | some e => if e.1 = 32767 then 256 else e.1 + 1
  | none => 256

/-- LOGBOOK lights: the copies are reconciled, a record with an uncorrectable error in MRAM from NOR, and the records held since start-up are written as CARRIED, with the number of those beyond 64 (R487, R516, R517). A slot whose record has such an error and that NOR lacks stays as it is, without a record that can be read; a pinned one stays taken, the model's choice (log entry 59). -/
def State.openLogbook (s : State) : State :=
  let lost := s.log.badMram.filter fun k => (tfind s.log.nor k).isNone
  let x := mergeLog s.log.badMram s.log.mram s.log.nor
  let good := x.filter fun (e : Nat × LogRec) => !lost.contains e.1
  let more : List LogRec := if s.log.heldLost = 0 then [] else
    [{ sev := sevNotice, part := none, source := srcRim, gt := s.now, boot := s.boot.boots, code := 2, payload := leBytes 4 s.log.heldLost }]
  let kept := s.log.held.map fun (r : LogRec) => { r with carried := true, gt := s.now }
  { s with log := { s.log with mram := x, nor := good, ring := nextRing good, norWait := [], badMram := lost, held := [], heldLost := 0, waiting := s.log.waiting ++ kept ++ more } }

/-- A stack is trained: its channels serve requests, their partition memory written afresh (R456, R487). -/
def State.openStack (s : State) (h : Nat) : State :=
  (upTo 32).foldl (fun t i =>
    let c := 32 * h + i
    if t.chanRetired c then t.setBit (hbmStat c) 1 true
    else ((t.loseChan c).modChan c fun x => { x with calLast := t.now, scrubGt := t.now }).setBit (hbmStat c) 0 true) s

/-- An optical engine is calibrated: its enabled links train (R365). -/
def State.openOe (s : State) (k : Nat) : State :=
  (upTo 4).foldl (fun t i =>
    let n := 4 * k + i
    if (t.linkState n = lsDisabled ∨ t.linkState n = lsFailed) ∧ t.mayTrain n = true then t.toLight n else t) s

/-- A rail is at 0.75 V, within its range (R465); its cores' RATE reads 0 until their first update (R463). -/
def State.openRail (s : State) (r : Nat) : State :=
  let t : State := { s with boot := { s.boot with railGt := tset s.boot.railGt r s.now } }
  (railCores r).foldl (fun (u : State) p => u.setFld (coreSext p) 0 16 0) ((t.setFld (pwrRail r) 0 7 40).setBit (pwrRail r) 7 true)

/-- SECROOT lights: the module key is drawn, once for each module reset (R455), and links that wait in ALIGN go on (R488). -/
def State.openSecroot (s : State) : State :=
  let t := match s.sec.moduleKey with
    | some _ => s
    | none =>
      let r := s.draw 4
      { r.2 with sec := { r.2.sec with moduleKey := some (BitVec.ofNat 512 r.1) } }
  t.restartAlign

/-- What comes with a lamp. -/
def State.onLamp (s : State) (i : Nat) : State :=
  if i = lampRim then { s with boot := { s.boot with starts := tset s.boot.starts 0 none } }
  else if i = lampFoler then s.runStaged
  else if i = lampLogbook then s.openLogbook
  else if i = lampSecroot then s.openSecroot
  else if i = lampChart then (s.startLit 0).restartAlign
  else if i < 8 then s
  else if i < 12 then
    (s.setBit rimDieRst (i - 8) false).startLit (1 + (i - 8))
  else if i < 20 then s.openStack (i - 12)
  else if i < 32 then s.openOe (i - 20)
  else s.openRail (i - 32)

/-- A lamp may light: start-up runs, its needs are lit, it has not missed its time, and CHART's chart is active. -/
def State.mayLight (s : State) (i : Nat) : Bool :=
  s.boot.running && !s.lamp i && (lampNeeds i).all s.lamp && !s.boot.missed.contains i && i != 7 && (i != lampChart || s.chart.active)

/-- LAMP_LIGHT (R487). -/
def execLampLight (lamp : Nat) (s : State) : Host.Outcome State Fault Refusal :=
  withUnit (decide (lamp < 64)) (
    if s.mayLight lamp then (((s.setLamp lamp true).onLamp lamp).traceLamp lamp true).relight else s)

/-- LAMP_TIMEOUT (R488): the function stays dark until the next module or die reset, and a record says so. CHART tries no boot chart again, but lights with a chart that PF0 loads. -/
def execLampTimeout (lamp : Nat) (s : State) : Host.Outcome State Fault Refusal :=
  withUnit (decide (lamp < 64)) (
    if s.boot.running = true ∧ s.lamp lamp = false ∧ s.boot.missed.contains lamp = false ∧ lamp ≠ 7 ∧
        s.lampStart lamp + lampLatest lamp * 10 ^ 6 < s.now then
      let t : State := { s with boot := { s.boot with missed := sins s.boot.missed lamp } }
      let u := if 8 ≤ lamp ∧ lamp < 12 then t.setBit rimDieRst (lamp - 8) false else t
      u.logRaise sevNotice none srcRim (Config.logCode 1) (leBytes 1 lamp)
    else s)

/-- START_MODE_END (R504): what held the port in START mode and lit its lamp 1 s ago holds it no longer: start-up with the CHART lamp, a die reset with the die's. -/
def execStartModeEnd (s : State) : Host.Outcome State Fault Refusal :=
  .next { s with boot := { s.boot with starts := s.boot.starts.filter fun (e : Nat × Option Nat) => match e.2 with
    | some g => decide (s.now < g + 10 ^ 9)
    | none => true } }

/-! Die resets (R493). -/

/-- The valid partitions that touch a die. -/
def State.diePartitions (s : State) (d : Nat) : List Nat := s.validParts.filter fun p => (entDies (s.ent p)).contains d

/-- The lamps of a die, its stacks, its optical engines and its rail domains. -/
def dieLamps (d : Nat) : List Nat := (upTo 64).filter fun i => lampOfDie i == some d

/-- The registers that a die's restart puts back as at start-up (R493): those of its cores' and channels' blocks. L2_WAYSTAT and CORE_CEIL0 hold retirements and ageing, the corrected-error counts of L2 ways run since module reset (R274), and a link's controls stay until module reset (R366). -/
def dieReg (d k : Nat) : Bool :=
  blockDie k == some d && decide (0x1000000 ≤ k) && !decide (0x1200000 ≤ k ∧ k < 0x1400000) &&
  !decide (0x1100000 ≤ k ∧ k < 0x1180000) && offIn k 0x2000000 1632 0x1000 != 0x864 && offIn k 0x2000000 1632 0x1000 != 0x868

/-- The registers of a die restart: no cap is in force, and a dark rail is not in range. -/
def State.clearDieRegs (s : State) (d : Nat) : State :=
  let t := (upTo 408).foldl (fun (t : State) i => t.setFld (coreGov (408 * d + i)) 16 16 0xFFFF) (s.resetRegs (dieReg d))
  (upTo 8).foldl (fun (t : State) i => (t.setFld (pwrRail (8 * d + i)) 0 7 40).setBit (pwrRail (8 * d + i)) 7 false) t

/-- What the die holds is lost: cores, L2, requests, registers and memory contents. -/
def State.clearDie (s : State) (d : Nat) : State :=
  let t : State := { s with
    cores := s.cores.filter fun (e : Nat × Core) => dieOfPhys e.1 != d
    chans := s.chans.filter fun (e : Nat × Chan) => dieOfChan e.1 != d
    mem := s.mem.filter fun (e : Host.Cell) => dieOfChan (e.1 / 2 ^ 31) != d
    memEpoch := (upTo 64).foldl (fun x i => tset x (64 * d + i) (tget 0 x (64 * d + i) + 1)) s.memEpoch
    poison := s.poison.filter fun l => dieOfChan (l / 2 ^ 24) != d
    copies := s.copies.map fun (e : Nat × CopyEng) => if e.1 / 16 = d then (e.1, { retired := e.2.retired }) else e
    boot := { s.boot with
      dieGt := tset s.boot.dieGt d s.now
      railGt := s.boot.railGt.filter fun (e : Nat × Nat) => e.1 / 8 != d
      missed := s.boot.missed.filter fun i => lampOfDie i != some d
      dieWait := s.boot.dieWait.filter (· != d)
      starts := tset s.boot.starts (1 + d) none } }
  (upTo 64).foldl (fun u i => u.setBit (hbmStat (64 * d + i)) 1 (u.chanRetired (64 * d + i))) ((t.setDie d (t.die d).kept).clearDieRegs d)

/-- The die's links go down and its lamps go dark; it restarts as at start-up. -/
def State.resetDie (s : State) (d : Nat) : State :=
  let t := (upTo 12).foldl (fun t i => t.takeDown (12 * d + i) lsDisabled) s
  ((dieLamps d).foldl (fun t i => if t.lamp i then (t.setLamp i false).traceLamp i false else t) (t.clearDie d)).relight

/-- Dies whose partitions have all reached step 4 are reset. -/
def State.dieResets (s : State) : State :=
  s.boot.dieWait.foldl (fun t d => if (t.diePartitions d).all fun p => (t.part p).reset == 4 then t.resetDie d else t) s

/-- A die's reset is asked for: its partitions are reset first. -/
def State.askDie (s : State) (d : Nat) : State :=
  if s.bit rimDieRst d then s
  else
    let t := s.setBit rimDieRst d true
    (t.diePartitions d).foldl (fun t p => t.beginReset p trDie) { t with boot := { t.boot with dieWait := sins t.boot.dieWait d } }

/-- RIM_DIERST_WRITE (R493): bits that are already set have no further effect. -/
def execRimDierstWrite (v : Word) (s : State) : Host.Outcome State Fault Refusal :=
  .next (s.pfStores rimDieRst fun t => ((bitsSet v.toNat 4).foldl (fun u d => u.askDie d) t).dieResets)

/-- PART_RESET_REMOTE_DONE (R492): no request of the old epoch remains; a die that waited for the partition is reset (R493). -/
def execPartResetRemoteDone (part : Nat) (s : State) : Host.Outcome State Fault Refusal :=
  withUnit (okPart part) (
    if (s.part part).reset = 3 ∧ s.oldRequests part = false then (s.modPart part fun y => { y with reset := 4 }).dieResets else s)

end Sys2Proof.Machine
end

