-- ==== Sys2Proof/Machine/Retire.lean ====
section
/-! DEFINITION. Errors in arrays and buffers, and retirement of cores, copy engines, collective units, digest engines, links and optical engines (R395, R415, R419, R434 to R436). -/

namespace Sys2Proof.Machine

/-- The launches with anything on a core. -/
def State.onCore (s : State) (p : Nat) : List Nat := (tkeys s.launches).filter (s.core p).has

/-- A kernel that has issued and that needs a core set where none is usable (R31, R435). -/
def State.stranded (s : State) (l : Launch) : Bool :=
  l.isKernel && (l.phase == .running || l.phase == .killing || l.phase == .rerun) && s.noSets l

/-- Stages, and halves of paired launches, with no core set left end their launches. -/
def State.endStranded (s : State) : State :=
  { s with launches := s.launches.map fun (e : Nat × Launch) =>
      (e.1, if s.stranded e.2 then e.2.addFail (s.mkFail stRetired (engFe (s.leadDie e.2.part))) else e.2) }

/-- A core's error meets a launch: it fails, or, where it commits already and has writes there, those are lost and its settle runs to the limit (R22, R349). -/
def State.meetError (s : State) (p : Nat) (st : Byte) (lid : Nat) : State :=
  match s.launch? lid with
  | none => s
  | some l =>
    if l.committing then (if (s.core p).owes lid then s.modLaunch lid fun x => { x with lostWrite := true } else s)
    else s.failLaunch lid (s.mkFail st p)

/-- A core is retired: launches with a block on it end, by cause, and what they have there is discarded; its core set leaves placement (R31, R435, R436). -/
def State.retireCore (s : State) (p cause : Nat) (st : Byte) : State :=
  let t := (s.onCore p).foldl (fun (t : State) l => (t.meetError p st l).purgeCore l false p) s
  let u : State := { t with chart := { t.chart with mCores := sins t.chart.mCores p } }
  (u.logRetired ukCore p cause).endStranded

/-- CORE_STALL_RETIRE (R434): a stage with a request makes no advance for 1 ms while its rail is within range. -/
def execCoreStallRetire (core : Nat) (s : State) : Host.Outcome State Fault Refusal :=
  withUnit (okCore core) (
    if s.coreOk core && s.bit (pwrRail (core / 51)) 7 && (s.core core).busy then s.retireCore core 1 stRetired else s)

/-- One of some launches, or none, by a free choice: the owner of the word in which an uncorrectable error lies (log entry 56). -/
def State.freeOwner (s : State) (xs : List Nat) : Option Nat × State :=
  let r := s.freeNat
  (xs[r.1 % (xs.length + 1)]?, r.2)

/-- An uncorrectable error in a core's arrays: counted, and the launch that owns the word ends; the second within 86,400 s retires the core (R415, R419, R434). -/
def State.coreError (s : State) (p : Nat) : State :=
  if s.coreOk p then
    let t := (s.setFld (eccCnt p) 16 16 (satAdd (s.fld (eccCnt p) 16 16) 1 0xFFFF)).modCore p fun c => { c with ueGt := stamp c.ueGt 2 s.now }
    if reachedN (t.core p).ueGt 2 then t.retireCore p 0 stEcc
    else
      let r := t.freeOwner (t.onCore p)
      match r.1 with
      | some l => r.2.meetError p stEcc l
      | none => r.2
  else s

/-- An uncorrectable error in a copy engine's buffers: a request is lost, which refuses its copy (R363, R415); the second retires the engine, and its launches end (R435). -/
def State.copyError (s : State) (e : Nat) : State :=
  let x := s.copyEng e
  if x.retired then s
  else
    let t := s.setCopyEng e { x with ueGt := stamp x.ueGt 2 s.now }
    if reachedN (t.copyEng e).ueGt 2 then
      let u := x.launches.foldl (fun (u : State) l => u.failLaunch l (u.mkFail stEcc (engCopy e))) t
      (u.setCopyEng e { u.copyEng e with retired := true }).logRetired ukCopy e 0
    else
      let r := t.freeOwner x.launches
      match r.1 with
      | some l => r.2.failLaunch l (r.2.mkFail stNack (engCopy e))
      | none => r.2

/-- Partitions that exist and whose lead die is `d`. -/
def State.ledBy (s : State) (d : Nat) : List Nat := s.validParts.filter fun p => s.leadDie p == d

/-- The second error in a collective unit's buffers: the partitions of its die are reset (R435). -/
def State.collError (s : State) (d : Nat) : State :=
  if (s.die d).collRetired then s
  else
    let t := s.modDie d fun x => { x with collUe := stamp x.collUe 2 s.now }
    if reachedN (t.die d).collUe 2 then
      let u := (t.modDie d fun x => { x with collRetired := true }).logRetired ukColl d 0
      (u.ledBy d).foldl (fun (v : State) p => v.beginReset p trEngine) u
    else t

/-- The second error in a digest engine's buffers: FAULT is set, and sweeps and beacons of its partitions stop (R435). -/
def State.digError (s : State) (d : Nat) : State :=
  if (s.die d).digRetired then s
  else
    let t := s.modDie d fun x => { x with digUe := stamp x.digUe 2 s.now }
    if reachedN (t.die d).digUe 2 then
      let u := (t.modDie d fun x => { x with digRetired := true }).logRetired ukDig d 0
      (u.ledBy d).foldl (fun (v : State) p => (v.digFault p).stopSweep p) u
    else t

/-- An error in a core's arrays that the code corrected: it is counted (R415, R419). -/
def State.coreCorrected (s : State) (p : Nat) : State :=
  if s.coreOk p then s.setFld (eccCnt p) 0 16 (satAdd (s.fld (eccCnt p) 0 16) 1 0xFFFF) else s

/-- A parity error in a core's L1 (R415): a line, by a free choice among those it holds, is invalidated, and a later load fetches it again. That it counts as a corrected error is the model's (DESIGN CHOICE, log entry 56). -/
def State.l1Parity (s : State) (p : Nat) : State :=
  if s.coreOk p ∧ (s.core p).l1 ≠ [] then
    let r := s.freeNat
    (r.2.modCore p fun c => { c with l1 := tdel c.l1 ((tkeys c.l1).getD (r.1 % c.l1.length) 0) }).coreCorrected p
  else s

/-- The messages in the buffers of a die's router: those that wait at its links, with the link, and those within it. -/
def State.routerMsgs (s : State) (d : Nat) : List (Option Nat × Msg) :=
  ((upTo 12).flatMap fun i => (s.link (12 * d + i)).txq.map fun m => (some (12 * d + i), m)) ++ (s.die d).loop.map fun m => (none, m)

/-- An uncorrectable error in a router's buffers: one message, by a free choice (log entry 56), is lost, and a request is refused with LOST (R363, R415). -/
def State.routerError (s : State) (d : Nat) : State :=
  let xs := s.routerMsgs d
  let r := s.freeNat
  match xs[r.1 % (xs.length + 1)]? with
  | some (some n, m) => (r.2.modLink n fun l => { l with txq := l.txq.erase m }).loseMsg n m
  | some (none, m) => (r.2.modDie d fun x => { x with loop := x.loop.erase m }).refuseMsg d m nkLost
  | none => r.2

/-- A link that the module retires is lost and is not trained again (R214, R395, R434). -/
def State.loseLink (s : State) (n : Nat) : State :=
  let t : State := { s with chart := { s.chart with mLinks := s.chart.mLinks ||| 2 ^ n } }
  if t.linkState n = lsDisabled then t else t.takeDown n lsFailed

/-- The module retires a link that no training brings back. That a command says so, and when, the spec leaves open: DESIGN CHOICE (log entry 97). -/
def State.retireLink (s : State) (n : Nat) : State :=
  if getBits s.chart.mLinks n 1 = 1 then s else (s.loseLink n).logRetired ukLink n 0

/-- The module retires an optical engine: its four links are lost (R395, R435). -/
def State.retireOe (s : State) (k : Nat) : State :=
  if (upTo 4).all fun i => getBits s.chart.mLinks (4 * k + i) 1 == 1 then s
  else ((upTo 4).foldl (fun (t : State) i => t.loseLink (4 * k + i)) s).logRetired ukEngine k 0

/-- An uncorrectable error in a slot of the logbook's MRAM: its record is read from NOR (R415, R517). -/
def State.mramError (s : State) (k : Nat) : State :=
  if (tfind s.log.mram k).isSome then { s with log := { s.log with badMram := sins s.log.badMram k } } else s

/-- ENGINE_RETIRE (R415, R434): an uncorrectable error in a unit's arrays or buffers, which retires a core or an engine when it is the second within 86,400 s; a corrected one; or the failure of a link or an optical engine. -/
def execEngineRetire (u : UnitKind) (n : Nat) (s : State) : Host.Outcome State Fault Refusal :=
  withUnit (okUnit u n) (match u with
    | .core => s.coreError n
    | .copyEngine => s.copyError n
    | .collective => s.collError n
    | .digest => s.digError n
    | .coreCorrected => s.coreCorrected n
    | .l1Parity => s.l1Parity n
    | .router => s.routerError n
    | .link => s.retireLink n
    | .opticalEngine => s.retireOe n
    | .mram => s.mramError n)

end Sys2Proof.Machine
end

