-- ==== Sys2Proof/Machine/Sweep.lean ====
section
/-! DEFINITION. Weight sweeps (R421 to R423) and replica beacons (R428 to R433). -/

namespace Sys2Proof.Machine

/-! Sweeps. -/

/-- The digest engine of a partition's lead die serves it: its die's lamp is lit, it is not retired, and the partition is not beyond step 1 of a reset. -/
def State.digServes (s : State) (p : Nat) : Bool :=
  s.valid p && s.lamp (lampDie (s.leadDie p)) && !(s.die (s.leadDie p)).digRetired && decide ((s.part p).reset ≤ 1)

/-- The regions that the registers give: bases and lengths in whole lines, unused ones left out (R423). -/
def State.swRegions (s : State) (p : Nat) : List (Nat × Nat) :=
  ((upTo 8).map fun r => (s.reg64 (digSwreg p r) / 128 * 128, s.reg64 (digSwreg p r + 8) / 128 * 128)).filter fun e => e.2 != 0

/-- A pass starts: with the regions and SALT as they stand. -/
def State.startSweep (s : State) (p : Nat) : State :=
  let t := s.modPart p fun y => { y with sweep := { running := true, regions := s.swRegions p, salt := s.reg64 (digSalt p) } }
  (t.setBit (digSwstat p) 0 true).traceSweep p tyBegin 0

/-- DIG_SWCTRL_ENABLE (R423): setting ENABLE clears DIG_SWPASS and starts a pass; a write of 1 over 1 changes nothing. -/
def execDigSwctrlEnable (part : Nat) (s : State) : Host.Outcome State Fault Refusal :=
  withUnit (okPart part) (s.pfStores (digSwctrl part) fun s =>
    if s.bit (digSwctrl part) 0 then s
    else
      let t := (s.setBit (digSwctrl part) 0 true).setReg (digSwpass part) 0
      if t.digServes part then t.startSweep part else t)

/-- DIG_SWCTRL_DISABLE (R423): the running pass is abandoned. -/
def execDigSwctrlDisable (part : Nat) (s : State) : Host.Outcome State Fault Refusal :=
  withUnit (okPart part) (s.pfStores (digSwctrl part) fun s => (s.setBit (digSwctrl part) 0 false).stopSweep part)

/-- The next line of a pass. -/
def Sweep.line (x : Sweep) : Option Nat := x.regions[x.region]?.map fun r => r.1 + x.off

/-- A line's digests are added, and the pass moves on. -/
def Sweep.fold (x : Sweep) (va : Nat) (bs : List Byte) : Sweep :=
  let d := lineLanes x.salt va bs
  let n := (x.regions.getD x.region (0, 0)).2
  let y := { x with a := x.a + d.1, b := x.b + d.2 }
  if x.off + 128 < n then { y with off := x.off + 128 } else { y with region := x.region + 1, off := 0 }

/-- Read the next line: its page must translate, without W, and its data must be correctable (R422). A line that L2 does not hold is asked for first, and folded once the array has given it. -/
def State.sweepLine (s : State) (p : Nat) : State :=
  match (s.part p).sweep.line with
  | none => s
  | some va =>
    match s.transl p va .read with
    | (.error f, t) => if f = .cut then t else t.abortSweep p 1
    | (.ok tr, t) =>
      if tr.w then t.abortSweep p 0
      else if !t.dieSees (t.leadDie p) tr.tgt then t
      else if t.poisonedAt tr.tgt 128 then t.abortSweep p 3
      else t.withLines p 5 [(tr.tgt, 128)] fun t =>
        let r := t.readAt tr.tgt 128
        let u := match tr.tgt with
          | .hbm a => r.2.l2Touch p a 128 false 5
          | _ => r.2
        u.modPart p fun y => { y with sweep := y.sweep.fold va r.1 }

/-- SWEEP_LINE_READ (R421, R422). -/
def execSweepLineRead (part : Nat) (s : State) : Host.Outcome State Fault Refusal :=
  withUnit (okPart part) (if (s.part part).sweep.running && s.digServes part then s.sweepLine part else s)

/-- A pass that has read every line is over: its digests and the count are stored, and the next begins at once. -/
def State.endPass (s : State) (p : Nat) : State :=
  let x := (s.part p).sweep
  let t := ((s.traceSweep p tyEnd 0).setReg64 (digWdigA p) x.a.toNat).setReg64 (digWdigB p) x.b.toNat
  (t.setReg (digSwpass p) (t.reg (digSwpass p) + 1)).startSweep p

/-- SWEEP_PASS_END (R421). -/
def execSweepPassEnd (part : Nat) (s : State) : Host.Outcome State Fault Refusal :=
  withUnit (okPart part) (
    if (s.part part).sweep.running && (s.part part).sweep.line.isNone && s.digServes part then s.endPass part else s)

/-- SWEEP_RESTART (R422): 1 ms of GT after an abort. -/
def execSweepRestart (part : Nat) (s : State) : Host.Outcome State Fault Refusal :=
  withUnit (okPart part) (match (s.part part).sweep.restart with
    | some t => if t ≤ s.now ∧ s.bit (digSwctrl part) 0 = true ∧ s.digServes part = true then s.startSweep part else s
    | none => s)

/-! Beacons. -/

/-- The 64 bytes of a beacon (R430). -/
def BeaconRec.bytes (b : BeaconRec) : List Byte :=
  leBytes 2 b.devid ++ leBytes 1 b.part ++
  leBytes 1 ((if b.wvalid then 1 else 0) + (if b.avalid then 2 else 0) + (if b.wabort then 4 else 0)) ++
  leBytes 4 b.model.toNat ++ leBytes 4 b.step ++ leBytes 4 b.sweep.toNat ++ leBytes 16 b.wdig.toNat ++ leBytes 16 b.adig.toNat ++
  leBytes 8 b.gt ++ leBytes 8 0

/-- A beacon from its bytes. -/
def beaconOf (bs : List Byte) : BeaconRec :=
  let f := numAt bs 3 1
  { devid := numAt bs 0 2
    part := getBits (numAt bs 2 1) 0 6
    wvalid := getBits f 0 1 == 1
    avalid := getBits f 1 1 == 1
    wabort := getBits f 2 1 == 1
    model := BitVec.ofNat 32 (numAt bs 4 4)
    step := numAt bs 8 4
    sweep := BitVec.ofNat 32 (numAt bs 0xC 4)
    wdig := BitVec.ofNat 128 (numAt bs 0x10 16)
    adig := BitVec.ofNat 128 (numAt bs 0x20 16)
    gt := numAt bs 0x30 8 }

/-- The newest `n` of a list that grows at its end. -/
def newest {α : Type} (n : Nat) (xs : List α) : List α := xs.drop (xs.length - n)

/-- Whether two beacons of one step agree: in the weight digests when both are valid, and in the activation digests when both are (R431). -/
def BeaconRec.agrees (a b : BeaconRec) : Bool :=
  (!(a.wvalid && b.wvalid) || a.wdig == b.wdig) && (!(a.avalid && b.avalid) || a.adig == b.adig)

/-- Record a value in the beacon result word, where it translates (R309, R432). -/
def State.beaconEvent (s : State) (p v : Nat) : State :=
  match s.eventWord p (s.reg64 (digBevVa p)) with
  | (.ok a, t) => if t.poisoned a 8 then t else t.eventMax p a v
  | (.error _, t) => t

/-- The result of a comparison (R432). -/
def State.compareBeacons (s : State) (p : Nat) (own peer : BeaconRec) : State :=
  let ok := own.agrees peer
  let t := s.countReg (if ok then digBmatch p else digBmiss p) 1
  let sum := (t.reg (digBmatch p)).toNat + (t.reg (digBmiss p)).toNat
  if ok then t.beaconEvent p sum
  else (t.beaconEvent p (sum + 2 ^ 63)).logRaise sevAlert (some p) (engDig (t.leadDie p)) 0x52 (own.bytes ++ peer.bytes)

/-- The valid peers of a partition: index, device and partition (R428). -/
def State.beaconPeers (s : State) (p : Nat) : List (Nat × Nat × Nat) :=
  ((upTo 8).filter fun i => s.bit (digPeer p i) 31).map fun i => (i, s.fld (digPeer p i) 0 16, s.fld (digPeer p i) 16 6)

/-- The activation digest: the 16 bytes at DIG_ACTVA as they are now; free bytes where they cannot be read. -/
def State.actDigest (s : State) (p : Nat) : BitVec 128 × State :=
  let va := s.reg64 (digActVa p)
  if va = 0 then (0, s)
  else match s.fetchBytes p va 16 with
    | (.ok bs, t) => (BitVec.ofNat 128 (leNat bs), t)
    | (.error _, t) =>
      let r := t.freeBytes 16
      (BitVec.ofNat 128 (leNat r.1), r.2)

/-- A beacon of a step (R429, R430). -/
def State.makeBeacon (s : State) (p v : Nat) : BeaconRec × State :=
  let r := s.actDigest p
  let wv := s.reg (digSwpass p) != 0
  ({ devid := s.ownId
     part := p
     wvalid := wv
     avalid := s.reg64 (digActVa p) != 0
     wabort := s.bit (digSwstat p) 1
     model := s.reg (partModel p)
     step := v % 2 ^ 32
     sweep := s.reg (digSwpass p)
     wdig := if wv then BitVec.ofNat 128 (s.reg64 (digWdigA p) + s.reg64 (digWdigB p) * 2 ^ 64) else 0
     adig := r.1
     gt := s.now }, r.2)

/-- Keep an own beacon, send it to every valid peer, and compare it with theirs of the same step. -/
def State.sendBeacon (s : State) (p v : Nat) (b : BeaconRec) : State :=
  let t := s.modPart p fun y => { y with own := newest 16 (y.own ++ [b]), lastBeacon := v }
  let u := (t.beaconPeers p).foldl (fun (u : State) e =>
    u.post (u.leadDie p) { u.control mBeacon e.2.1 0 b.bytes with part := e.2.2, spart := p, epoch := u.epochOf p }) t
  ((u.part p).peers.flatMap (·.2)).foldl (fun (x : State) r => if r.step = b.step then x.compareBeacons p b r else x) u

/-- No way round the ring leads to the activation digest, which a beacon is to hold (log entry 77). -/
def State.actCut (s : State) (p : Nat) : Bool :=
  s.reg64 (digActVa p) != 0 && match (s.fetchBytes p (s.reg64 (digActVa p)) 16).1 with
    | .error .cut => true
    | _ => false

/-- The value of the step word, with bit 63 clear, when it makes a beacon that can be built now. -/
def State.beaconDue (s : State) (p : Nat) : Option Nat × State :=
  let n := s.fld (digBctrl p) 0 16
  match s.eventWord p (s.reg64 (digStepVa p)) with
  | (.error _, t) => (none, t)
  | (.ok a, t) =>
    let v := leNat (t.bytes a 8)
    (if t.poisoned a 8 = false ∧ v < 2 ^ 63 ∧ n ≠ 0 ∧ v % n = 0 ∧ (t.part p).lastBeacon < v ∧ t.actCut p = false then some v else none, t)

/-- BEACON_BUILD (R429, R430). -/
def execBeaconBuild (part : Nat) (s : State) : Host.Outcome State Fault Refusal :=
  withUnit (okPart part) (
    if s.bit (digBctrl part) 16 && s.digServes part then
      match s.beaconDue part with
      | (some v, t) =>
        let r := t.makeBeacon part v
        r.2.sendBeacon part v r.1
      | (none, t) => t
    else s)

/-- Serial-number order of steps (R431). -/
def stepNewer (a b : Nat) : Bool := decide (1 ≤ (a + 2 ^ 32 - b) % 2 ^ 32 ∧ (a + 2 ^ 32 - b) % 2 ^ 32 < 2 ^ 31)

/-- A received beacon is dropped, or kept and compared (R431). -/
def State.receiveBeacon (s : State) (m : Msg) : State :=
  let p := m.part
  let b := beaconOf m.data
  let late := s.countReg (digBlate p) 1
  match (s.beaconPeers p).find? fun e => e.2.1 == m.src && e.2.2 == b.part with
  | none => late
  | some (i, _, _) =>
    let own := (s.part p).own
    if !s.digServes p || !s.bit (digBctrl p) 16 || b.model != s.reg (partModel p) ||
        (own != [] && own.all fun o => stepNewer o.step b.step) then late
    else
      let t := s.modPart p fun y => { y with peers := tset y.peers i (newest 16 ((tget [] y.peers i) ++ [b])) }
      match own.find? fun o => o.step == b.step with
      | some o => t.compareBeacons p o b
      | none => t

/-- BEACON (R431, R432). -/
def execBeacon (link : Nat) (m : Msg) (s : State) : Host.Outcome State Fault Refusal :=
  withUnit (okLink link) (s.onMsg link m mBeacon fun t => t.receiveBeacon m)

end Sys2Proof.Machine
end

