-- ==== Sys2Proof/Machine/Trace.lean ====
section
/-! DEFINITION. Trace rings and the trace port (R497 to R505), performance counters (R506 to R508). -/

namespace Sys2Proof.Machine

/-! Rings. -/

/-- Records of a ring that remain valid (R502). -/
def ringSize : Nat := 524288

/-- One record into a partition's ring, and onto the port in MIRROR mode. -/
def State.ringAdd (s : State) (p : Nat) (r : TraceRec) : State :=
  let ring := (tget [] s.dbg.rings p) ++ [r]
  let t : State := { s with dbg := { s.dbg with rings := tset s.dbg.rings p (newest ringSize ring) } }
  let u := t.setReg64 (dbgTrwc p) (t.reg64 (dbgTrwc p) + 1)
  if u.portMode = 3 then u.portPut r else u

/-- A TIMEBASE record of an anchor, which the partition's front end writes (log entry 54). -/
def State.timebase (s : State) (p a : Nat) : TraceRec :=
  { gtoff := BitVec.ofNat 32 a, engine := engFe (s.leadDie p), typ := tyTimebase, part := p, rt := false, data := BitVec.ofNat 64 a }

/-- A record into a ring, after a TIMEBASE record where the ring is empty (R500). -/
def State.ringPut (s : State) (p : Nat) (r : TraceRec) : State :=
  (if s.reg64 (dbgTrwc p) = 0 then s.ringAdd p (s.timebase p s.now) else s).ringAdd p r

/-- A LOST record of an engine, and the TIMEBASE record that follows it (R498, R500). -/
def State.ringLost (s : State) (engine p n : Nat) : State :=
  let r : TraceRec := { gtoff := s.gt.truncate 32, engine := engine, typ := tyLost, part := p, rt := false, data := BitVec.ofNat 64 (n % 2 ^ 32) }
  (s.ringPut p r).ringAdd p (s.timebase p s.now)

/-- 32 records are held, or the oldest is 10 µs old (R501). -/
def State.drainDue (s : State) (b : TraceBuf) : Bool :=
  decide (32 ≤ b.recs.length) || (match b.recs.head? with
    | some e => decide (e.1 + 10000 ≤ s.now)
    | none => false)

/-- An engine's buffer goes to the rings: what is older than 1 ms is dropped and counted (R500), and drops since the last LOST record are told first, in the ring of the first record delivered. While EN is clear nothing is written and nothing counts as lost (R503): what is held goes uncounted. -/
def State.drainTrace (s : State) (engine : Nat) : State :=
  let b := tget {} s.dbg.bufs engine
  if s.bit dbgTrctrl 0 = false then { s with dbg := { s.dbg with bufs := tput {} s.dbg.bufs engine { lost := b.lost } } } else
  let late := b.recs.filter fun (e : Nat × TraceRec) => decide (e.1 + 10 ^ 6 < s.now)
  let good := b.recs.filter fun (e : Nat × TraceRec) => !decide (e.1 + 10 ^ 6 < s.now)
  let n := b.lost + late.length
  let t := late.foldl (fun (t : State) e => t.countReg (dbgTrlost e.2.part) 1) s
  let left : TraceBuf := if good = [] then { lost := n } else {}
  let u : State := { t with dbg := { t.dbg with bufs := tput {} t.dbg.bufs engine left } }
  match good with
  | [] => u
  | e :: _ =>
    good.foldl (fun (v : State) x => v.ringPut x.2.part x.2) (if n = 0 then u else u.ringLost engine e.2.part n)

/-- TRACE_BUFFER_DRAIN (R501). -/
def execTraceBufferDrain (engine : Nat) (s : State) : Host.Outcome State Fault Refusal :=
  withUnit (okEngine engine) (if s.drainDue (tget {} s.dbg.bufs engine) then s.drainTrace engine else s)

/-- TRACE_TIMEBASE (R500): GT has crossed a multiple of 2^31 ns. -/
def execTraceTimebase (part : Nat) (s : State) : Host.Outcome State Fault Refusal :=
  withUnit (okPart part) (
    let k := s.now / 2 ^ 31
    if s.valid part = true ∧ s.bit dbgTrctrl 0 = true ∧ tget 0 s.dbg.base part < k then
      let t := s.ringAdd part (s.timebase part (k * 2 ^ 31))
      { t with dbg := { t.dbg with base := tset t.dbg.base part k } }
    else s)

/-! The trace port (R504, R505). -/

/-- The 128 bits of a record. -/
def TraceRec.word (r : TraceRec) : BitVec 128 :=
  BitVec.ofNat 128 (r.gtoff.toNat + r.engine % 2 ^ 16 * 2 ^ 32 + r.typ % 2 ^ 8 * 2 ^ 48 + (r.part % 64 + if r.rt then 64 else 0) * 2 ^ 56 +
    r.data.toNat * 2 ^ 64)

/-- The record of a port that has nothing to send (R498). -/
def State.idleRec (s : State) : TraceRec :=
  { gtoff := s.gt.truncate 32, engine := srcRim, typ := 0, part := 0, rt := false, data := 0 }

/-- A block leaves on lane k mod 4: sync 0b01 for a record, 0b10 for a dump word. -/
def State.sendBlock (s : State) (sync : Nat) (w : BitVec 128) : State :=
  ({ s with dbg := { s.dbg with portK := s.dbg.portK + 1 } } : State).emit (.port (s.dbg.portK % 4) sync w)

/-- The port sends what its mode carries. -/
def State.portStep (s : State) : State :=
  if s.portMode = 0 then s
  else if s.portMode = 2 then
    match s.dbg.portWords with
    | [] => s
    | w :: ws => ({ s with dbg := { s.dbg with portWords := ws } } : State).sendBlock 2 w
  else
    match s.dbg.port with
    | [] => s.sendBlock 1 s.idleRec.word
    | r :: rs => ({ s with dbg := { s.dbg with port := rs } } : State).sendBlock 1 r.word

/-- TRACE_PORT_BLOCK (R505). -/
def execTracePortBlock (s : State) : Host.Outcome State Fault Refusal := .next s.portStep

/-! Counters (R507). -/

/-- The events of R506. -/
def pmEventOk (e : Nat) : Bool := decide (1 ≤ e ∧ e ≤ 0x0F)

/-- PMC_OVERFLOW (R507): a counter that counts an event and stands at its greatest value carries out. -/
def execPmcOverflow (core n : Nat) (s : State) : Host.Outcome State Fault Refusal :=
  withUnit (okCore core && decide (n < 8)) (
    if !s.bit (pmCtrl core) 0 && pmEventOk (s.fld (pmSel core n) 0 8) && s.reg64 (pmc core n) % 2 ^ 48 == 2 ^ 48 - 1 then s.pmAdd core n 1
    else s)

end Sys2Proof.Machine
end

