-- ==== Sys2Proof/Machine/Hang.lean ====
section
/-! DEFINITION. Hang detection, snapshots and dumps (R509 to R513), and the live view of a matrix unit (R176). -/

namespace Sys2Proof.Machine

/-! Views. -/

/-- An operation still works on a part of the unit: until a moment that is free, and never again after it (log entry 83). -/
def MxUse.works (u : MxUse) (p part now : Nat) : Bool := decide (now < u.since + Config.mxTime p part u.since u.beat)

/-- CORE_MX_STATE (R176). ARRAY is up while a nest runs, and while the latest ldb or mma works; DRAIN while the latest read phase does, and until then a handle that it fills is not resident. -/
def Mx.view (x : Mx) (p moment : Nat) : Nat :=
  let reading := x.reader.any fun r => r.works p 0 moment
  let landing (h : Nat) : Bool := x.reader.any fun r => r.handles.contains h && (reading || r.works p 2 moment)
  min x.queue.length 8 + (if x.nest.isSome || (x.array.any fun a => a.works p 1 moment) then 2 ^ 4 else 0) + (if reading then 2 ^ 5 else 0) + (if x.stat.isSome then 2 ^ 6 else 0) +
  (match x.owner with
   | some o => 2 ^ 7 + o % 32 * 2 ^ 8
   | none => 0) +
  maskOf 8 (fun h => (tfind x.handles h).isSome) * 2 ^ 13 + maskOf 8 (fun h => (tfind x.handles h).isSome && x.resident h && !(landing h)) * 2 ^ 21

/-- VF_QSTAT of a queue (R296). -/
def Queue.stat (q : Queue) : Nat :=
  (if qcEnable q.cfg then 1 else 0) + (if q.halted then 2 else 0) + (if q.failed then 4 else 0) + q.reason.toNat * 256

/-- The code of a wait (R511). -/
def Wait.code : Wait → Nat
  | .none => 0
  | .load => 1
  | .cluster => 2
  | .remote => 3
  | .barrier _ => 4
  | .residency => 5
  | .fence _ => 6
  | .push => 7
  | .owner => 8

/-! Detection (R509). -/

/-- A launch waits for a remote response whose limit runs. -/
def State.remoteWait (s : State) (lid : Nat) : Bool :=
  s.dies.any fun (e : Nat × Die) => e.2.reads.any fun r => r.2.launch == lid && decide (s.now < r.2.gt + 2000000)

/-- A launch has made no progress for HANGT. -/
def State.isHung (s : State) (lid : Nat) (l : Launch) : Bool :=
  l.isWork && l.phase == .running && l.fail.isNone && l.hung == 0 && decide (l.progGt + s.fld dbgHangcfg 0 17 * 10 ^ 6 ≤ s.now) && !s.remoteWait lid

/-- Step 1: the launch's groups stop and keep their state. -/
def State.stopHung (s : State) (lid : Nat) : State :=
  let t : State := { s with
    cores := s.cores.map fun (e : Nat × Core) =>
      (e.1, { e.2 with groups := e.2.groups.map fun (g : Nat × Group) => (g.1, if g.2.launch = lid then { g.2 with stopped := true } else g.2) })
    dbg := { s.dbg with hung := s.dbg.hung ++ [lid] } }
  t.modLaunch lid fun l => { l with hung := s.now + 1 }

/-- HANG_CHECK (R509): the front end of a die checks its issued launches. -/
def execHangCheck (die : Nat) (s : State) : Host.Outcome State Fault Refusal :=
  withUnit (okDie die) (
    (s.launches.filter fun (e : Nat × Launch) => s.leadDie e.2.part == die && s.isHung e.1 e.2).foldl (fun (t : State) e => t.stopHung e.1) s)

/-! The snapshot (R511). -/

/-- A section of `n` entries of `w` bytes. -/
def padTo (n : Nat) (bs : List Byte) : List Byte := (bs ++ List.replicate (n - bs.length) 0).take n

/-- An entry for a queue. -/
def Queue.snap (q : Queue) : List Byte :=
  leBytes 6 q.tail ++ leBytes 6 q.head ++ leBytes 6 q.done ++ leBytes 4 q.cfg.toNat ++ leBytes 4 q.stat ++ leBytes 6 0

/-- How far a launch has come: 0 waiting, 1 placed, 2 running, 3 committing. -/
def Launch.snapState (l : Launch) : Nat :=
  match l.phase with
  | .settling | .performing => 3
  | .running | .killing => if l.unstarted then 0 else if l.progGt = l.issueGt then 1 else 2
  | _ => 0

/-- An entry for a launch. -/
def Launch.snap (l : Launch) : List Byte :=
  leBytes 6 l.seq ++ leBytes 1 l.queue ++ leBytes 1 (eType l.entry) ++ leBytes 1 l.snapState ++ leBytes 1 l.status ++
  leBytes 4 (l.nextBlk + l.nextBlkB) ++ leBytes 4 l.ended ++ leBytes 2 l.cq.length ++ leBytes 8 l.progGt ++ leBytes 4 0

/-- An entry for an event wait that holds a watch slot. -/
def Launch.snapWait (l : Launch) : List Byte := leBytes 8 (eAddr l.entry) ++ leBytes 8 (eValue l.entry % 2 ^ 63 + 2 ^ 63)

/-- An entry for a semaphore. -/
def State.snapSem (s : State) (x : Sem) : List Byte :=
  let q := match x.waiters.head? with
    | some w => (s.launch? w).elim 0 (·.queue)
    | none => 0
  leBytes 4 x.count ++ leBytes 2 x.waiters.length ++ leBytes 1 q ++ leBytes 1 0

/-- An entry for a link. -/
def State.snapLink (s : State) (n : Nat) : List Byte :=
  ((upTo 8).flatMap fun f => leBytes 2 (if f < 7 then (s.link n).credit f else 0)) ++ leBytes 4 (s.reg (lnkStat n)).toNat ++ leBytes 12 0

/-- An entry for a group slot. -/
def Core.snapGroup (c : Core) (k : Nat) : List Byte :=
  match c.group? k with
  | some g => leBytes 8 g.pc ++ leBytes 4 g.active.toNat ++ leBytes 1 g.wait.code ++ leBytes 1 g.depth ++ leBytes 1 g.block ++ leBytes 1 1
  | none => leBytes 16 0

/-- An entry for a core: 1,088 bytes. -/
def State.snapCore (s : State) (l : Nat) : List Byte :=
  let p := s.physOf l
  leBytes 2 l ++ leBytes 2 p ++ leBytes 4 (s.reg (coreSext p)).toNat ++ leBytes 4 ((s.core p).mx.view p s.now) ++ leBytes 4 (s.reg (excStatus p)).toNat ++
  leBytes 48 0 ++ (upTo 64).flatMap fun k => (s.core p).snapGroup k

/-- The logical cores of a launch, ascending. -/
def State.hungCores (s : State) (lid : Nat) : List Nat := (upTo 1536).filter fun l => (s.core (s.physOf l)).hosts lid

/-- The sections of a snapshot, in order; each is a multiple of 64 bytes. -/
def State.snapBody (s : State) (lid p : Nat) : List Byte :=
  let mine := s.launches.filter fun (e : Nat × Launch) => e.2.part == p
  ((upTo 256).flatMap fun q => (s.queue (qkey p q)).snap) ++
  padTo 32768 ((mine.filter fun e => e.2.isIssued).flatMap fun e => e.2.snap) ++
  padTo 16384 ((mine.filter fun e => e.2.armed).flatMap fun e => e.2.snapWait) ++
  ((upTo 4096).flatMap fun n => s.snapSem (s.sem p n)) ++
  ((upTo 48).flatMap fun n => s.snapLink n) ++
  ((s.hungCores lid).flatMap fun l => s.snapCore l)

/-- The bytes of a slot. -/
def Snap.bytes (x : Snap) : List Byte :=
  leBytes 4 0x4B5A534E ++ leBytes 1 x.part ++ leBytes 1 x.epoch ++ leBytes 1 ((if x.complete then 1 else 0) + if x.abandoned then 2 else 0) ++
  leBytes 1 x.queue ++ leBytes 8 x.seq ++ leBytes 8 x.gt ++ leBytes 8 x.num ++
  leBytes 2 ((x.body.length - 0x16600) / 1088) ++ leBytes 30 0 ++ x.body

/-! The dump (R512). -/

/-- The byte of a physical vector register: of the group that holds it. -/
def State.dumpV (s : State) (p sc off : Nat) : Byte :=
  let r := off / 128
  let g := (s.core p).groups.find? fun (e : Nat × Group) =>
    e.1 / 16 == sc && decide (Config.regBase p e.2.uid ≤ r ∧ r < Config.regBase p e.2.uid + allocOf e.2.nregs)
  match g with
  | some e => BitVec.ofNat 8 ((e.2.vr (off / 4 % 32) (r - Config.regBase p e.2.uid)).toNat / 2 ^ (8 * (off % 4)))
  | none => Config.dumpByte p (0x1000 + 65536 * sc + off)

/-- The byte of a uniform register of a group slot. -/
def State.dumpU (s : State) (p off : Nat) : Byte :=
  match (s.core p).group? (off / 256) with
  | some g => BitVec.ofNat 8 ((g.ur (off % 256 / 4)).toNat / 2 ^ (8 * (off % 4)))
  | none => Config.dumpByte p (0x41000 + off)

/-- The predicates of a thread, p0 in bit 0. -/
def State.dumpP (s : State) (p off : Nat) : Byte :=
  match (s.core p).group? (off / 32) with
  | some g => BitVec.ofNat 8 (maskOf 8 fun i => g.pr (off % 32) i)
  | none => Config.dumpByte p (0x45000 + off)

/-- A byte of on-core memory: of the block that holds it; L1 and unallocated local store have no architectural place. -/
def State.dumpLs (s : State) (p off : Nat) : Byte :=
  let b := (s.core p).blocks.find? fun (e : Nat × Block) =>
    decide (1024 * Config.lsBase p e.2.uid ≤ off ∧ off < 1024 * Config.lsBase p e.2.uid + e.2.lsBytes)
  match b with
  | some e => (mget? e.2.ls (off - 1024 * Config.lsBase p e.2.uid)).getD (Config.localInit e.2.uid (off - 1024 * Config.lsBase p e.2.uid))
  | none => Config.dumpByte p (0x45800 + off)

/-- The byte of a tile's entry. -/
def Mx.dumpTile (x : Mx) (off : Nat) : Byte :=
  BitVec.ofNat 8 ((tget 0 (x.tile (off / 32768)).n (off % 32768 / 16)).toNat / 2 ^ (8 * (off % 16)))

/-- The header of a core's record: its snapshot entry, the tiles, the stationary tile. -/
def State.dumpHead (s : State) (l : Nat) : List Byte :=
  let x := (s.core (s.physOf l)).mx
  let tile (t : Nat) : Nat :=
    let y := x.tile t
    intBits 10 y.anchor + y.status.toNat * 2 ^ 16 + if y.defPend then 2 ^ 24 else 0
  let st := match x.stat with
    | some y => (y.fmt + (if y.scaled then 16 else 0), padTo 2048 y.image)
    | none => (0, List.replicate 2048 0)
  padTo 2048 (s.snapCore l ++ ((upTo 4).flatMap fun t => leBytes 4 (tile t)) ++ leBytes 1 st.1) ++ st.2

/-- The record of a core: 940,032 bytes. -/
def State.dumpCore (s : State) (l : Nat) : List Byte :=
  let p := s.physOf l
  let x := (s.core p).mx
  s.dumpHead l ++ ((upTo 4).flatMap fun sc => (upTo 65536).map fun o => s.dumpV p sc o) ++ ((upTo 16384).map fun o => s.dumpU p o) ++
  ((upTo 2048).map fun o => s.dumpP p o) ++ ((upTo 262144).map fun o => s.dumpLs p o) ++ ((upTo 262144).map fun o => x.byte o) ++
  ((upTo 131072).map fun o => x.dumpTile o)

/-- The dump of a launch: one record for each of its cores. -/
def State.dumpOf (s : State) (lid : Nat) : List Byte := (s.hungCores lid).flatMap fun l => s.dumpCore l

/-- The dump words of some bytes. -/
def dumpWords (bs : List Byte) : List (BitVec 128) := (upTo (bs.length / 16)).map fun i => BitVec.ofNat 128 (numAt bs (16 * i) 16)

/-! Steps 2 to 4 (R510). -/

/-- The dump of the launch of snapshot `num` begins, where DUMP asks for one, debug is unlocked and no other runs; SKIPPED says that it was not made. -/
def State.beginDump (s : State) (lid num : Nat) : State :=
  if s.bit dbgHangcfg 17 = false ∨ s.bit secDbg 2 = false ∨ s.bit dbgHangstat 0 = true then s.setBit dbgHangstat 4 true
  else
    let port := s.bit dbgHangcfg 18
    let t : State := { s with dbg := { s.dbg with
      dumping := some lid, dumpNum := num, toPort := port, portWords := if port then dumpWords (s.dumpOf lid) else [] } }
    t.setBit dbgHangstat 0 true

/-- Step 2: the snapshot is written to the next slot, and reported. -/
def State.snapshot (s : State) (lid : Nat) (l : Launch) : State :=
  let n := s.reg64 dbgSnapcnt
  let slot := n % 8
  let x : Snap :=
    { part := l.part, epoch := s.epochOf l.part, complete := true, abandoned := false, queue := l.queue, seq := l.seq, gt := l.hung - 1, num := n
      body := s.snapBody lid l.part }
  let t : State := { s with dbg := { s.dbg with snaps := tset s.dbg.snaps slot x, hung := s.dbg.hung.filter (· != lid) } }
  let u := (t.setReg64 dbgSnapcnt (n + 1)).setFld dbgHangstat 1 3 slot
  let v := (u.trace (engFe (u.leadDie l.part)) tySnap l.part l.rt (slot + n % 2 ^ 40 * 2 ^ 8)).irq 0 7
  (v.logRaise sevAlert (some l.part) (engFe (v.leadDie l.part)) 0x53 (leBytes 1 slot ++ leBytes 8 n ++ leBytes 1 l.queue ++ leBytes 6 l.seq)).beginDump lid n

/-- HANG_SNAPSHOT (R510, R513): one at a time, in order of detection. -/
def execHangSnapshot (launch : Nat) (s : State) : Host.Outcome State Fault Refusal :=
  .next (match s.launch? launch with
    | some l => if s.dbg.hung.head? = some launch ∧ l.hung ≠ 0 then s.snapshot launch l else s
    | none => s)

/-- The bytes that the dump area holds: 71 records. -/
def dumpArea : Nat := 71 * 940032

/-- Step 3: the dump is written, to the area in HBM or by the port, which has sent its last word. -/
def State.endDump (s : State) (lid : Nat) : State :=
  let t : State := { s with dbg := { s.dbg with dumping := none, toPort := false } }
  let u := t.setBit dbgHangstat 0 false
  if s.dbg.toPort then u
  else
    let bs := s.dumpOf lid
    ({ u with dbg := { u.dbg with dump := bs.take dumpArea } } : State).setBit dbgHangstat 5 (u.bit dbgHangstat 5 || decide (dumpArea < bs.length))

/-- HANG_DUMP (R512). -/
def execHangDump (launch : Nat) (s : State) : Host.Outcome State Fault Refusal :=
  .next (if s.dbg.dumping = some launch ∧ s.dbg.portWords = [] then s.endDump launch else s)

/-- HANG_END (R510): the launch ends with TIMEOUT and CAUSE 0. -/
def execHangEnd (launch : Nat) (s : State) : Host.Outcome State Fault Refusal :=
  .next (match s.launch? launch with
    | some l =>
      if l.hung ≠ 0 ∧ s.dbg.hung.contains launch = false ∧ s.dbg.dumping ≠ some launch then
        s.setLaunch launch { l.addFail { status := stTimeout, engine := engFe (s.leadDie l.part), gt := l.hung - 1 } with hung := 0 }
      else s
    | none => s)

end Sys2Proof.Machine
end

