-- ==== Sys2Proof/Machine/Logbook.lean ====
section
/-! DEFINITION. The logbook's two copies (R515 to R520). -/

namespace Sys2Proof.Machine

/-! The record's bytes (R516). -/

/-- One bit of CRC-32C, least significant first. -/
def crc32Bit (c : Word) : Word := if c.getLsbD 0 then (c >>> 1) ^^^ 0x82F63B78 else c >>> 1
/-- One byte. -/
def crc32Byte (c : Word) (b : Byte) : Word :=
  crc32Bit (crc32Bit (crc32Bit (crc32Bit (crc32Bit (crc32Bit (crc32Bit (crc32Bit (c ^^^ b.zeroExtend 32))))))))
/-- CRC-32C of bytes. -/
def crc32c (bs : List Byte) : Word := (bs.foldl crc32Byte 0xFFFFFFFF) ^^^ 0xFFFFFFFF

/-- The first 508 bytes of a record. -/
def LogRec.head (r : LogRec) : List Byte :=
  leBytes 4 0x4B5A4C42 ++ leBytes 1 (r.sev % 4 + (if r.pinned then 4 else 0) + if r.carried then 8 else 0) ++
  leBytes 1 (match r.part with
    | some p => p % 64 + 64
    | none => 0) ++
  leBytes 2 r.source ++ leBytes 8 r.seq ++ leBytes 8 r.gt ++ leBytes 4 r.boot ++ leBytes 2 r.code ++ leBytes 2 r.payload.length ++ padTo 476 r.payload

/-- The 512 bytes of a slot that holds a record. -/
def LogRec.bytes (r : LogRec) : List Byte := r.head ++ leBytes 4 (crc32c r.head).toNat

/-! Writing (R515, R518, R519). -/

/-- The ring slot after another. -/
def ringNext (k : Nat) : Nat := if k = 32767 then 256 else k + 1

/-- A record is written to its slot in MRAM: it takes the next SEQ, an overwritten record is counted, and vector 2 is raised for ALERT and FATAL. -/
def State.logWrite (s : State) (r : LogRec) : State :=
  let slot := s.logSlotFor r
  let q : LogRec := { r with seq := s.log.next, pinned := decide (slot < 256) }
  let used := (tfind s.log.mram slot).isSome || (tfind s.log.nor slot).isSome
  let t : State := { s with log := { s.log with
    mram := tset s.log.mram slot q
    badMram := s.log.badMram.filter (· != slot)
    next := s.log.next + 1
    ring := if slot < 256 then s.log.ring else ringNext slot
    ovwr := if used then s.log.ovwr + 1 else s.log.ovwr
    norWait := (s.log.norWait.filter (· != slot)) ++ [slot]
    rate := (s.log.rate.filter fun x => decide (s.now < x + 10 ^ 9)) ++ [s.now] } }
  let u := (t.setReg64 logNextSeq t.log.next).setReg64 logOvwr t.log.ovwr
  let v := if slot < 256 then u.setFld logPinned 0 9 (slot + 1) else u
  if sevAlert ≤ r.sev then v.irq 0 2 else v

/-- The record that tells how many were dropped (R519). -/
def State.dropRec (s : State) : LogRec :=
  { sev := sevAlert, part := none, source := srcRim, gt := s.now, boot := s.boot.boots, code := 4, payload := leBytes 4 s.log.dropped }

/-- The next record is written: the one about drops before any other, at most 1,000 in a second. -/
def State.logMram (s : State) : State :=
  if 1000 ≤ s.logRate then s
  else if s.log.dropped ≠ 0 then ({ s with log := { s.log with dropped := 0 } } : State).logWrite s.dropRec
  else match s.log.waiting with
    | [] => s
    | r :: rs => ({ s with log := { s.log with waiting := rs } } : State).logWrite r

/-- LOG_MRAM_WRITE (R515, R518, R519). -/
def execLogMramWrite (s : State) : Host.Outcome State Fault Refusal := .next s.logMram

/-- The record that MRAM holds in a slot: none where its copy has an uncorrectable error (R415, R517). -/
def State.mramRec (s : State) (k : Nat) : Option LogRec := if s.log.badMram.contains k then none else tfind s.log.mram k

/-- The oldest slot that NOR lacks is written there; the first slot of a 4 KiB sector of the ring erases its sector (R515). -/
def State.logNor (s : State) : State :=
  match s.log.norWait with
  | [] => s
  | k :: ks =>
    let base := if 256 ≤ k ∧ k % 8 = 0 then s.log.nor.filter (fun (e : Nat × LogRec) => e.1 / 8 != k / 8) else s.log.nor
    { s with log := { s.log with
        norWait := ks
        nor := match s.mramRec k with
          | some r => tset base k r
          | none => base } }

/-- LOG_NOR_WRITE (R515). -/
def execLogNorWrite (s : State) : Host.Outcome State Fault Refusal := .next s.logNor

/-! What the LOG_ block shows (R520). -/

/-- The record of a slot: from MRAM when it holds one there, otherwise from NOR. -/
def State.logShown (s : State) : Option LogRec :=
  let k := s.fld logSlot 0 15
  (s.mramRec k).orElse fun _ => tfind s.log.nor k

/-- LOG_STAT: MRAM is faulty while some slot of it has an uncorrectable error, a DESIGN CHOICE (log entry 59). -/
def State.logStatView (s : State) : Nat :=
  let k := s.fld logSlot 0 15
  (if (s.mramRec k).isSome then 1 else 0) + (if (tfind s.log.nor k).isSome then 2 else 0) + if s.log.badMram = [] then 0 else 4

/-- The word of LOG_BUF at an offset. -/
def State.logBufView (s : State) (off : Nat) : Nat :=
  match s.logShown with
  | some r => numAt r.bytes off 4
  | none => 0

end Sys2Proof.Machine
end

