-- ==== Sys2Proof/Machine/Registers.lean ====
section
/-! DEFINITION. Register accesses: which requester reaches what (R10 to R16, R397, R399, R403, R410, R488), the values that registers show, writes by access code, 64-bit pairs, read-clear fields, counter registers (R508) and JTAG instructions (R453, R514). -/

namespace Sys2Proof.Machine

/-! Requesters and blocks. -/

/-- A virtual function's requester number (R12): 0 is PF0, 65 the Foler complex, 66 the JTAG path. -/
def isVf (req : Nat) : Bool := decide (1 ≤ req ∧ req ≤ 64)

/-- A requester's access arrives: through PCIe once its lamp is lit, by JTAG while private instructions are allowed (R453). -/
def State.arrives (s : State) (req : Nat) : Bool :=
  if req = 65 then true
  else if req = 66 then s.bit secDbg 0
  else s.lamp lampPcie

/-- The function and the offset exist: BAR0 is 256 MiB of PF0, and 2 MiB of a virtual function (R397, R402). -/
def State.targets (s : State) (req off : Nat) : Bool :=
  off % 4 == 0 && (if isVf req then s.vfExists req && decide (off < 0x200000) else decide (off < 0x10000000))

/-- The blocks that are reachable only from PF0: the mailbox (R448), PWR_ (R484), LOG_ (R520), PART_ (R245, R265, R330, R491), DIG_ (R423), SEC_ (R447) and DBG_ (R503). -/
def pf0Only (off : Nat) : Bool :=
  decide ((0x100000 ≤ off ∧ off < 0x400000) ∨ (0x800000 ≤ off ∧ off < 0xC00000) ∨ (0x1400000 ≤ off ∧ off < 0x1800000))

/-- The block behind an offset serves: its lamp is lit (R488), it is one that the requester reaches, and a block of a compute die is reached by that die's rim bridge and mesh (R38). -/
def State.serves0 (s : State) (req off : Nat) : Bool :=
  if isVf req then true
  else s.pfServes off && (req == 0 || !pf0Only off)

/-! Values (R10, R13). -/

/-- The word of DBG_WIN at an offset (R503). -/
def State.winView (s : State) (off : Nat) : Nat :=
  let a := s.fld dbgWinsel 16 6 * 2 ^ 20 + off
  let sel := s.fld dbgWinsel 8 6
  match s.fld dbgWinsel 0 2 with
  | 0 =>
    let ring := tget [] s.dbg.rings sel
    let n := s.reg64 (dbgTrwc sel)
    let i := a / 16
    -- Record j of the ring's last ringSize records lies at slot (n - length + j) mod ringSize.
    match ring[(i + ringSize - (n - ring.length) % ringSize) % ringSize]? with
    | some r => if i < ringSize then getBits r.word.toNat (8 * (a % 16)) 32 else 0
    | none => 0
  | 1 => match tfind s.dbg.snaps sel with
    | some x => if a < 0x200000 then numAt x.bytes a 4 else 0
    | none => 0
  | 2 => if s.bit secDbg 2 then numAt s.dbg.dump a 4 else 0
  | _ => 0

/-- What a register of PF0's BAR0 shows: L2_WAYSTAT is one register in the blocks of a die's 32 slices (R274), and SCRUBLATE is as the scrub stands (R282). -/
def State.pfView (s : State) (k : Nat) : Word :=
  if k = dbgTpstat then BitVec.ofNat 32 s.portMode
  else if dbgWin ≤ k ∧ k < dbgWin + 0x100000 then BitVec.ofNat 32 (s.winView (k - dbgWin))
  else if k = logStat then BitVec.ofNat 32 s.logStatView
  else if logBuf ≤ k ∧ k < logBuf + 0x200 then BitVec.ofNat 32 (s.logBufView (k - logBuf))
  else if 0x1100000 ≤ k ∧ k < 0x1180000 ∧ k % 0x1000 = 0 then s.reg (l2WayStat ((k - 0x1100000) / 0x20000))
  else if 0x1000000 ≤ k ∧ k < 0x1100000 ∧ k % 0x1000 = 0 then s.reg k ||| (if s.scrubLate ((k - 0x1000000) / 0x1000) then 0x10 else 0)
  else match inBlk k 0x2000000 1632 0x1000 with
    | some (p, o) =>
      if o = 0x844 then BitVec.ofNat 32 ((s.core p).mx.view p s.now)
      else if 0x940 ≤ o ∧ o < 0x980 ∧ o % 8 = 4 then s.reg k ||| (if s.bit (pmOvf p) ((o - 0x940) / 8) then 0x10000 else 0)
      else s.reg k
    | none => s.reg k

/-- A 48-bit or 64-bit value's half. -/
def halfOf (v off : Nat) : Word := BitVec.ofNat 32 (if off % 8 = 0 then v else v / 2 ^ 32)

/-- VF_STAT (R403). -/
def State.vfStatView (s : State) (vf : Nat) : Word :=
  match s.partOf vf with
  | some p => BitVec.ofNat 32 (1 + (if s.bit (partStat p) 0 then 2 else 0) + (if s.bit (partStat p) 1 then 4 else 0) + p * 2 ^ 8 + (s.part p).tdi * 2 ^ 16)
  | none => 0

/-- What a register of a virtual function's BAR0 shows: of an unbound function nothing but VF_STAT (R295, R296, R357, R403). -/
def State.vfView (s : State) (vf off : Nat) : Word :=
  if off = vfStat then s.vfStatView vf
  else match s.vfPart vf with
    | none => 0
    | some p =>
      let sel (f : Queue → Nat) : Word := match s.selQueue vf with
        | some k => BitVec.ofNat 32 (f (s.queue k))
        | none => 0
      if off < 0x100000 then
        let q := s.queue (qkey p (off / 4096))
        if (s.ent p).nqueue ≤ off / 4096 then 0
        else match off % 4096 / 8 with
          | 1 => halfOf q.head off
          | 2 => halfOf q.done off
          | 3 => if off % 8 = 0 then BitVec.ofNat 32 q.stat else 0
          | _ => 0
      else if off = vfQring ∨ off = vfQring + 4 then sel fun q => (halfOf q.ring off).toNat
      else if off = vfQcpl ∨ off = vfQcpl + 4 then sel fun q => (halfOf q.cpl off).toNat
      else if off = vfQcfg then sel fun q => q.cfg.toNat
      else if off = vfQstat then sel fun q => q.stat
      else if off = vfQcmd then sel fun q => if q.resetting then 1 else 0
      else if off = vfQjobs ∨ off = vfQjobs + 4 then sel fun q => (halfOf q.jobs off).toNat
      else if off = vfApbase ∨ off = vfApbase + 4 then halfOf (s.apBase vf) off
      else if vfQhalt ≤ off ∧ off < vfQhalt + 32 then
        BitVec.ofNat 32 (maskOf 32 fun i => (s.queue (qkey p (8 * (off - vfQhalt) + i))).halted)
      else s.reg (vfKey vf off)

/-- What a 4-byte read by a requester returns, but for the capture of R11. -/
def State.view (s : State) (req off : Nat) : Word :=
  if s.serves0 req off then (if isVf req then s.vfView req off else s.pfView off) else 0

/-- The value of a _HI half: of the value captured by the requester's read of _LO, if there was one (R11). -/
def State.readHi (s : State) (req off : Nat) : Word :=
  match tfind s.latch (2 ^ 64 * req + off - 4) with
  | some v => BitVec.ofNat 32 (v.toNat / 2 ^ 32)
  | none => s.view req off

/-! Reads that have effects. -/

/-- What an access finds at its function (R397, R404, R409, R411, R412): an offset that exists, of a function in D0 that takes it. -/
def State.reach (s : State) (req off : Nat) (isWrite : Bool) (body : State → State) : State :=
  if s.arrives req = false then s
  else if s.targets req off then
    (if isVf req then s.atVf req isWrite (.reg req off 0xFFFFFFFF) body
     else if req = 0 ∧ s.host.d3.contains 0 = true then s.noTarget 0 isWrite
     else body s)
  else if req ≤ 64 then s.noTarget req isWrite
  else s

/-- A function takes an access to an offset that exists. -/
def State.takes (s : State) (req : Nat) : Bool := if isVf req then s.vfOpen req else !(req == 0 && s.host.d3.contains 0)

/-- A read is completed, or refused: of a function that is not there, or misaligned (R397). -/
def State.onRead (s : State) (req off : Nat) (body : State → State) : State := s.reach req off false body

/-- A request of PCIe that no register takes (R397): an AtomicOp, one of a size other than 4 or 8 bytes, or one not aligned to its own size; and a poisoned write, which is dropped (log entry 91). -/
def badTlp (isWrite : Bool) (tlp : Tlp) : Bool :=
  match tlp with
  | .plain => false
  | .poisoned => isWrite
  | _ => true

/-- It is no supported request; without cover it moves the TDI of a function in RUN to ERROR all the same (R409). -/
def State.refuseTlp (s : State) (req : Nat) (isWrite : Bool) (tlp : Tlp) : State :=
  if s.arrives req = true ∧ req ≤ 64 then (s.noTarget req (isWrite && tlp != .atomicOp)).exposure req else s

/-- The offsets from which the commands of register accesses name words of BAR4 and of a function's configuration: the model's own numbers (log entry 91). -/
def bar4Off : Nat := 2 ^ 40
def cfgOff : Nat := 2 ^ 41

/-- An access to BAR4, which ends at its size (R398, R402), or to a configuration register of a function. A configuration register answers in D3hot and while the function refuses memory requests, but not without cover in RUN (R409): configuration requests are not posted. -/
def State.aside (s : State) (req off : Nat) (isWrite : Bool) (bar4 cfg : State → State) : State :=
  if 64 < req ∨ s.arrives req = false then s
  else if req ≠ 0 ∧ s.vfExists req = false ∨ off % 4 ≠ 0 ∨ (off < cfgOff ∧ bar4Off + bar4Size req ≤ off) then s.noTarget req isWrite
  else if cfgOff ≤ off then (if isVf req && s.exposed req then (s.unsupported req).exposure req else cfg s)
  else if isVf req then s.atVf req isWrite (.reg req off 0xFFFFFFFF) bar4
  else if s.host.d3.contains 0 then s.noTarget 0 isWrite
  else bar4 s

/-- PAIR_LO_READ (R11): a read of _LO captures the whole value for the requester; the requester's next read of _HI returns the upper half of it and uses the capture up. A read of a register of no pair, which has no row, gives what it shows; so do reads of BAR4 and of configuration registers (log entry 91). -/
def execPairLoRead (req off : Nat) (tlp : Tlp) (s : State) : Host.Outcome State Fault Refusal :=
  withUnit (okReq req) (
    if badTlp false tlp then s.refuseTlp req false tlp
    else if bar4Off ≤ off then
      s.aside req off false (fun t => t.emit (.reg req off (t.bar4View req (off - bar4Off)))) fun t => t.emit (.reg req off (t.cfgView req (off - cfgOff)))
    else s.onRead req off fun t =>
    if isPairLo (regKey req off) then
      let v : Word64 := BitVec.ofNat 64 ((t.view req off).toNat + (t.view req (off + 4)).toNat * 2 ^ 32)
      ({ t with latch := tset t.latch (2 ^ 64 * req + off) v } : State).emit (.reg req off (t.view req off))
    else if decide (4 ≤ off) && isPairLo (regKey req (off - 4)) then
      ({ t with latch := tdel t.latch (2 ^ 64 * req + off - 4) } : State).emit (.reg req off (t.readHi req off))
    else if (regAcc (regKey req off)).rc ≠ 0 then t
    else t.emit (.reg req off (t.view req off)))

/-- A virtual function is bound: its registers exist for it. -/
def State.boundReq (s : State) (req : Nat) : Bool := !isVf req || (s.vfPart req).isSome

/-- READ_CLEAR (R14, R15). -/
def execReadClear (req off : Nat) (s : State) : Host.Outcome State Fault Refusal :=
  withUnit (okReq req) (s.onRead req off fun t =>
    let k := regKey req off
    if (regAcc k).rc = 0 then t
    else
      let u := if t.serves0 req off && t.boundReq req then t.setReg k (t.reg k &&& ~~~(regAcc k).rc) else t
      u.emit (.reg req off (t.view req off)))

/-! Writes. -/

/-- The bits of a register after a write, by access code (R14): RWL fields while the block is not locked, RWP fields with presence. -/
def RegAcc.apply (a : RegAcc) (locked presence : Bool) (old v : Word) : Word :=
  let m := a.rw ||| (if locked then 0 else a.rwl) ||| (if presence then a.rwp else 0)
  ((old &&& ~~~m) ||| (v &&& m)) &&& ~~~(v &&& a.w1c)

/-- The LOCK bit of the block of a register (R366). -/
def State.lockedBlk (s : State) (k : Nat) : Bool :=
  match inBlk k 0x1300000 48 0x4000 with
  | some (n, _) => s.bit (lnkCtrl n) 31
  | none => false

/-- The partition whose PART_PTROOT, PART_MEMCFG or PART_FDOM a register is: those that a locked TDI keeps from PF0 (R410). -/
def tdiReg (k : Nat) : Option Nat :=
  match inBlk k 0x800000 64 0x10000 with
  | some (p, o) => if o = 0x200 ∨ o = 0x204 ∨ o = 0x300 ∨ o = 0x500 then some p else none
  | none => none

/-- What a write stores where a register has a rule beyond its access codes; `none` where the write is ignored. -/
def State.checked (s : State) (k : Nat) (v : Word) : Option Word :=
  let n := v.toNat
  if k = pwrLimit then
    (if 900 ≤ n % 4096 ∧ n % 4096 ≤ 2400 ∧ 1 ≤ getBits n 12 4 ∧ getBits n 12 4 ≤ 10 then some v else none)
  else if k = dbgHangcfg then (if 10 ≤ n % 2 ^ 17 ∧ n % 2 ^ 17 ≤ 100000 then some v else none)
  else if k = dbgTrctrl then some (if s.bit secDbg 1 then v else (v &&& ~~~2) ||| (v &&& s.reg k &&& 2))
  else if offIn k 0x800000 64 0x10000 = 0x400 then (if 100 ≤ n % 2 ^ 17 ∧ n % 2 ^ 17 ≤ 100000 then some v else none)
  else if offIn k 0x1000000 256 0x1000 = 4 then
    let cap := if 10 ≤ n % 128 ∧ n % 128 ≤ 100 then n % 128 else s.fld k 0 7
    let cal := if getBits n 8 8 = 0 then s.fld k 8 8 else getBits n 8 8
    some (BitVec.ofNat 32 (cap + cal * 256))
  else if offIn k 0x1400000 64 0x400 = 8 then (if 1 ≤ n ∧ n ≤ 16384 then some v else none)
  else if offIn k 0x1400000 64 0x400 = 0x100 then some (if n % 65536 = 0 then v &&& 0xFFFF else v)
  else some v

/-- A write of one register as it is held: by its rule and its access codes; clearing VALID of an exception record clears OVERRUN (R141). -/
def State.writeHeld (s : State) (k : Nat) (v : Word) : State :=
  match s.checked k v with
  | none => s
  | some w =>
    let t := s.setReg k ((regAcc k).apply (s.lockedBlk k) s.present (s.reg k) w)
    if offIn k 0x2000000 1632 0x1000 = 0x800 ∧ w.msb = true then t.setBit k 30 false else t

/-- A write of a register of PF0's BAR0. -/
def State.pfWrite (s : State) (k : Nat) (v : Word) : State :=
  match tdiReg k with
  | some p => if s.tdiLocked p then s.logLocked p k else s.writeHeld k v
  | none =>
    let t := s.writeHeld k v
    if k = mbxCtrl ∧ v.getLsbD 8 = true then t.mbxGo (v.toNat % 256) else t

/-- A queue's entry or completion ring: writes are ignored while the queue is enabled (R296). -/
def State.ringWrite (s : State) (vf off : Nat) (v : Word) : State :=
  match s.selQueue vf with
  | none => s
  | some k =>
    let q := s.queue k
    let half (x : Nat) : Nat := if off % 8 = 0 then putBits x 0 32 v.toNat else putBits x 32 32 v.toNat
    if qcEnable q.cfg then s
    else if off < vfQcpl then s.setQueue k { q with ring := half q.ring }
    else s.setQueue k { q with cpl := half q.cpl }

/-- A write of half of VF_APBASE: the bits below the BAR2 size ignore it (R403). -/
def State.apWrite (s : State) (vf off : Nat) (v : Word) : State :=
  let low : Nat := 2 ^ s.bar2Log vf - 1
  let m : Word := BitVec.ofNat 32 (if off = vfApbase then low else low / 2 ^ 32)
  s.writeHeld (vfKey vf off) ((v &&& ~~~m) ||| (s.reg (vfKey vf off) &&& m))

/-- A write of a register of a virtual function's BAR0; an unbound function ignores it. -/
def State.vfWrite (s : State) (vf off : Nat) (v : Word) : State :=
  if (s.vfPart vf).isNone then s
  else if vfQring ≤ off ∧ off < vfQcpl + 8 then s.ringWrite vf off v
  else if off = vfApbase ∨ off = vfApbase + 4 then s.apWrite vf off v
  else s.writeHeld (vfKey vf off) v

/-- A 4-byte write by a requester, where its block serves. -/
def State.writeOne (s : State) (req off : Nat) (v : Word) : State :=
  if s.serves0 req off then (if isVf req then s.vfWrite req off v else s.pfWrite off v) else s

/-- A write arrives, or is refused (R397). -/
def State.onWrite (s : State) (req off : Nat) (body : State → State) : State := s.reach req off true body

/-- REGISTER_WRITE (R13 to R16): of a register that is no half of a pair, of BAR4 or of a configuration register (log entry 91). -/
def execRegisterWrite (req off : Nat) (v : Word) (tlp : Tlp) (s : State) : Host.Outcome State Fault Refusal :=
  withUnit (okReq req) (
    if badTlp true tlp then s.refuseTlp req true tlp
    else if bar4Off ≤ off then s.aside req off true (fun t => t.bar4Write req (off - bar4Off) v) fun t => t.cfgWrite req (off - cfgOff) v
    else s.onWrite req off fun t =>
    if isPairLo (regKey req off) || (decide (4 ≤ off) && isPairLo (regKey req (off - 4))) then t else t.writeOne req off v)

/-! Pairs (R12). -/

/-- The key of a held _LO write. -/
def heldKey (req off : Nat) : Nat := 2 ^ 64 * req + off

/-- The pair is one that a requester may write. -/
def writablePair (req off : Nat) : Bool :=
  let acc (o : Nat) : Bool := let a := regAcc (regKey req o); a.rw != 0 || a.w1c != 0 || a.rwl != 0 || a.rwp != 0
  acc off || acc (off + 4) ||
  (isVf req && ((decide (off < 0x100000) && off % 4096 == 0) || off == vfQring || off == vfQcpl))

/-- PAIR_LO_WRITE (R12): the value is held for the requester; an unbound function ignores it (R403). -/
def execPairLoWrite (req off : Nat) (v : Word) (s : State) : Host.Outcome State Fault Refusal :=
  withUnit (okReq req) (s.onWrite req off fun t =>
    if isPairLo (regKey req off) && writablePair req off && t.boundReq req then { t with held := tset t.held (heldKey req off) v } else t)

/-- A doorbell's _HI write: the whole value, or the upper half over TAIL's lower half (R295). -/
def State.doorbellHi (s : State) (vf off : Nat) (lo : Option Word) (v : Word) : State :=
  match s.vfPart vf with
  | some p =>
    let q := off / 4096
    let k := qkey p q
    if q < (s.ent p).nqueue ∧ s.partUp p = true then
      (s.doorbell k ((match lo with
        | some x => x.toNat
        | none => (s.queue k).tail % 2 ^ 32) + v.toNat * 2 ^ 32)).noteWants p
    else s
  | none => s

/-- Both halves take effect as one update; without a held _LO only the upper half is written. `off` is the _HI half's offset. -/
def State.commitPair (s : State) (req off : Nat) (v : Word) : State :=
  let lo := tfind s.held (heldKey req (off - 4))
  let t : State := { s with held := tdel s.held (heldKey req (off - 4)) }
  if isVf req && decide (off < 0x100000) then (if off % 4096 = 4 ∧ t.serves0 req off = true then t.doorbellHi req off lo v else t)
  else
    let u := match lo with
      | some x => if (tdiReg off).any t.tdiLocked && !isVf req then t else t.writeOne req (off - 4) x
      | none => t
    u.writeOne req off v

/-- PAIR_HI_WRITE (R12). -/
def execPairHiWrite (req off : Nat) (v : Word) (s : State) : Host.Outcome State Fault Refusal :=
  withUnit (okReq req) (s.onWrite req off fun t =>
    if decide (4 ≤ off) && isPairLo (regKey req (off - 4)) then t.commitPair req off v else t)

/-! Counters (R508). -/

/-- PMC_HI_WRITE (R12, R508): the count takes effect; OVF is not cleared. -/
def execPmcHiWrite (req core n : Nat) (v : Word) (s : State) : Host.Outcome State Fault Refusal :=
  withUnit (okReq req && okCore core && decide (n < 8)) (
    if isVf req then s else s.onWrite req (pmc core n + 4) fun t => t.commitPair req (pmc core n + 4) v)

/-- PMSEL_WRITE (R508): the selection changes; events of this beat have counted under the old one. -/
def execPmselWrite (req core n : Nat) (v : Word) (s : State) : Host.Outcome State Fault Refusal :=
  withUnit (okReq req && okCore core && decide (n < 8)) (
    if isVf req then s else s.onWrite req (pmSel core n) fun t => t.writeOne req (pmSel core n) v)

/-! JTAG. -/

/-- IDCODE (R514, R536): silicon revision, part 0x4C48, JEP106 code 0x6B5 and 1. -/
def idcode : Word := BitVec.ofNat 32 (Config.srev.toNat * 2 ^ 28 + 0x4C48 * 2 ^ 12 + 0x6B5 * 2 + 1)

/-- The instructions of boundary scan under IEEE 1149.1, which are always available (R453): BYPASS is all ones. -/
def boundaryIr (ir : Byte) : Bool := ir == 0xFF || ir == Config.sampleIr || ir == Config.extestIr || ir == Config.idcodeIr

/-- The pins that the boundary-scan register covers (R514, R529, R530), as connector, row and column: of J2 the PCIe lanes, the reference clock and the trace lanes; of J3 the I3C bus, THERM_ALERT_N, the coolant inputs and TAMPER_LOOP. The TAP, PERST_N and the power and ground pins are not among them. -/
def scanPins : List (Nat × Nat × Nat) :=
  ([1, 2, 4, 5].flatMap fun row => (upTo 16).map fun i => (2, row, i + 1)) ++ ((upTo 10).map fun i => (2, 7, i + 1)) ++
  [(3, 1, 1), (3, 1, 2), (3, 1, 9), (3, 2, 1), (3, 2, 2), (3, 2, 3)]

/-- JTAG_INSTRUCTION (R453, R514): from the RIM lamp on; a private instruction without SEC_DBG[0] selects the bypass register, as all ones do. The selected data register is captured and shifts out: IDCODE the device's identity, SAMPLE/PRELOAD and EXTEST the levels of the pins of J2 and J3 that the boundary-scan register covers (`pins`) while `shift` is shifted in, which EXTEST drives, BYPASS the bypass register, which captures 0. That one command loads the instruction and shifts its register through is the model's choice (log entry 94). -/
def execJtagInstruction (ir : Byte) (pins shift : List Bool) (s : State) : Host.Outcome State Fault Refusal :=
  .next (
    if s.lamp lampRim then
      let x := if boundaryIr ir || s.bit secDbg 0 then ir else 0xFF
      let t : State := { s with boot := { s.boot with ir := x, bypass := if x = 0xFF then false else s.boot.bypass } }
      if x = Config.idcodeIr then t.emit (.tdr idcode)
      else if x = 0xFF then t.emit (.tdr 0)
      else if x = Config.sampleIr ∨ x = Config.extestIr then
        ({ t with boot := { t.boot with scan := shift.take scanPins.length } } : State).emit (.tdrScan (pins.take scanPins.length))
      else t
    else s)

end Sys2Proof.Machine
end

