-- ==== Sys2Proof/Machine/Dispatch.lean ====
section
/-! DEFINITION. One arm for each command: its meaning, on everything but the queue. -/

namespace Sys2Proof.Machine

def exec (i : Instr) (s : State) : Host.Outcome State Fault Refusal :=
  match i with
  | .ctlNop g w => Sys2Proof.Machine.execCtlNop g w s
  | .ctlExit g w => Sys2Proof.Machine.execCtlExit g w s
  | .barBlock g w => Sys2Proof.Machine.execBarBlock g w s
  | .barCluster g w => Sys2Proof.Machine.execBarCluster g w s
  | .barrierOpen g => Sys2Proof.Machine.execBarrierOpen g s
  | .ctlJmp g w => Sys2Proof.Machine.execCtlJmp g w s
  | .fence g w => Sys2Proof.Machine.execFence g w s
  | .fenceComplete g => Sys2Proof.Machine.execFenceComplete g s
  | .ctlRsr g w => Sys2Proof.Machine.execCtlRsr g w s
  | .br g w => Sys2Proof.Machine.execBr g w s
  | .brLink g w => Sys2Proof.Machine.execBrLink g w s
  | .i32Op g w => Sys2Proof.Machine.execI32Op g w s
  | .i64Op g w => Sys2Proof.Machine.execI64Op g w s
  | .intCmp g w => Sys2Proof.Machine.execIntCmp g w s
  | .immV g w => Sys2Proof.Machine.execImmV g w s
  | .immU g w => Sys2Proof.Machine.execImmU g w s
  | .f32Op g w => Sys2Proof.Machine.execF32Op g w s
  | .f64Op g w => Sys2Proof.Machine.execF64Op g w s
  | .h2Op g w => Sys2Proof.Machine.execH2Op g w s
  | .fpCmp g w => Sys2Proof.Machine.execFpCmp g w s
  | .cnv g w => Sys2Proof.Machine.execCnv g w s
  | .sfOp g w => Sys2Proof.Machine.execSfOp g w s
  | .prOp g w => Sys2Proof.Machine.execPrOp g w s
  | .grpShfl g w => Sys2Proof.Machine.execGrpShfl g w s
  | .grpVote g w => Sys2Proof.Machine.execGrpVote g w s
  | .ldLocal g w => Sys2Proof.Machine.execLdLocal g w s
  | .stLocal g w => Sys2Proof.Machine.execStLocal g w s
  | .ldGlobal g w => Sys2Proof.Machine.execLdGlobal g w s
  | .loadDataReturn core id => Sys2Proof.Machine.execLoadDataReturn core id s
  | .stGlobal g w => Sys2Proof.Machine.execStGlobal g w s
  | .pushResume g => Sys2Proof.Machine.execPushResume g s
  | .storeBufferDrain g => Sys2Proof.Machine.execStoreBufferDrain g s
  | .trackerRelease core id => Sys2Proof.Machine.execTrackerRelease core id s
  | .zlGlobal g w => Sys2Proof.Machine.execZlGlobal g w s
  | .ldCluster g w => Sys2Proof.Machine.execLdCluster g w s
  | .stCluster g w => Sys2Proof.Machine.execStCluster g w s
  | .rmwCluster g w => Sys2Proof.Machine.execRmwCluster g w s
  | .clusterRequestServe core id => Sys2Proof.Machine.execClusterRequestServe core id s
  | .clusterResponse core id => Sys2Proof.Machine.execClusterResponse core id s
  | .ldRemote g w => Sys2Proof.Machine.execLdRemote g w s
  | .stRemote g w => Sys2Proof.Machine.execStRemote g w s
  | .stRemoteFinal g w => Sys2Proof.Machine.execStRemoteFinal g w s
  | .rmwLocal g w => Sys2Proof.Machine.execRmwLocal g w s
  | .rmwGlobal g w => Sys2Proof.Machine.execRmwGlobal g w s
  | .rmwPost g w => Sys2Proof.Machine.execRmwPost g w s
  | .ll g w => Sys2Proof.Machine.execLl g w s
  | .sc g w => Sys2Proof.Machine.execSc g w s
  | .evRec g w => Sys2Proof.Machine.execEvRec g w s
  | .semRel g w => Sys2Proof.Machine.execSemRel g w s
  | .mxHdl g w => Sys2Proof.Machine.execMxHdl g w s
  | .mxFill g w => Sys2Proof.Machine.execMxFill g w s
  | .mxFillComplete core id => Sys2Proof.Machine.execMxFillComplete core id s
  | .mxLdb g w => Sys2Proof.Machine.execMxLdb g w s
  | .mxMma g w => Sys2Proof.Machine.execMxMma g w s
  | .mxClr g w => Sys2Proof.Machine.execMxClr g w s
  | .mxAddraw g w => Sys2Proof.Machine.execMxAddraw g w s
  | .mxDrain g w => Sys2Proof.Machine.execMxDrain g w s
  | .mxStat g w => Sys2Proof.Machine.execMxStat g w s
  | .mxNest g w => Sys2Proof.Machine.execMxNest g w s
  | .mxEntryStart core => Sys2Proof.Machine.execMxEntryStart core s
  | .drainWritePerformed core id => Sys2Proof.Machine.execDrainWritePerformed core id s
  | .nestOpStart core => Sys2Proof.Machine.execNestOpStart core s
  | .nestEnd core => Sys2Proof.Machine.execNestEnd core s
  | .mxOwnershipEnd core => Sys2Proof.Machine.execMxOwnershipEnd core s
  | .groupEnterActive core sched => Sys2Proof.Machine.execGroupEnterActive core sched s
  | .activeSetRotation core sched => Sys2Proof.Machine.execActiveSetRotation core sched s
  | .splitChange core split => Sys2Proof.Machine.execSplitChange core split s
  | .blockPlace launch => Sys2Proof.Machine.execBlockPlace launch s
  | .thiefStart launch => Sys2Proof.Machine.execThiefStart launch s
  | .dbTailWrite vf q v => Sys2Proof.Machine.execDbTailWrite vf q v s
  | .vfQcfgWrite vf v => Sys2Proof.Machine.execVfQcfgWrite vf v s
  | .qcmdReset vf => Sys2Proof.Machine.execQcmdReset vf s
  | .queueResetEnd part q => Sys2Proof.Machine.execQueueResetEnd part q s
  | .qcmdResume vf => Sys2Proof.Machine.execQcmdResume vf s
  | .qcmdClrfail vf => Sys2Proof.Machine.execQcmdClrfail vf s
  | .preload part q => Sys2Proof.Machine.execPreload part q s
  | .launchIssue part q => Sys2Proof.Machine.execLaunchIssue part q s
  | .eventWaitEvaluate launch => Sys2Proof.Machine.execEventWaitEvaluate launch s
  | .eventWaitTimeout launch => Sys2Proof.Machine.execEventWaitTimeout launch s
  | .watchSlotPoll launch => Sys2Proof.Machine.execWatchSlotPoll launch s
  | .semAcquireTimeout launch => Sys2Proof.Machine.execSemAcquireTimeout launch s
  | .semaSlimitTimeout launch => Sys2Proof.Machine.execSemaSlimitTimeout launch s
  | .launchTlimitTimeout launch => Sys2Proof.Machine.execLaunchTlimitTimeout launch s
  | .launchComplete launch => Sys2Proof.Machine.execLaunchComplete launch s
  | .routeRecord vf route => Sys2Proof.Machine.execRouteRecord vf route s
  | .routePatch vf route index => Sys2Proof.Machine.execRoutePatch vf route index s
  | .routeDelete vf route => Sys2Proof.Machine.execRouteDelete vf route s
  | .routeCmdComplete part => Sys2Proof.Machine.execRouteCmdComplete part s
  | .watchGrant part => Sys2Proof.Machine.execWatchGrant part s
  | .watchRelease part q => Sys2Proof.Machine.execWatchRelease part q s
  | .watchExpiry part q => Sys2Proof.Machine.execWatchExpiry part q s
  | .killComplete launch => Sys2Proof.Machine.execKillComplete launch s
  | .rtQueueActive part q => Sys2Proof.Machine.execRtQueueActive part q s
  | .commitContextTake die => Sys2Proof.Machine.execCommitContextTake die s
  | .commitSettleEnd launch => Sys2Proof.Machine.execCommitSettleEnd launch s
  | .settleLimitExpiry launch => Sys2Proof.Machine.execSettleLimitExpiry launch s
  | .commitEntrySend die => Sys2Proof.Machine.execCommitEntrySend die s
  | .commitEntryAck launch idx ok => Sys2Proof.Machine.execCommitEntryAck launch idx ok s
  | .commitPerformLimit launch => Sys2Proof.Machine.execCommitPerformLimit launch s
  | .chartLoad store => Sys2Proof.Machine.execChartLoad store s
  | .chartLoadComplete image => Sys2Proof.Machine.execChartLoadComplete image s
  | .chartActivate part => Sys2Proof.Machine.execChartActivate part s
  | .activationComplete part => Sys2Proof.Machine.execActivationComplete part s
  | .chartDiscard part => Sys2Proof.Machine.execChartDiscard part s
  | .bootChartLoad => Sys2Proof.Machine.execBootChartLoad s
  | .partTlbinvWrite part => Sys2Proof.Machine.execPartTlbinvWrite part s
  | .tlbInvalidationDone part => Sys2Proof.Machine.execTlbInvalidationDone part s
  | .l2CorrectableError die slice way => Sys2Proof.Machine.execL2CorrectableError die slice way s
  | .l2WayDisable die way => Sys2Proof.Machine.execL2WayDisable die way s
  | .l2UncorrectableError die way => Sys2Proof.Machine.execL2UncorrectableError die way s
  | .hbmRequestServe ch err => Sys2Proof.Machine.execHbmRequestServe ch err s
  | .lcrPeriodStart ch => Sys2Proof.Machine.execLcrPeriodStart ch s
  | .lcrCapReached ch => Sys2Proof.Machine.execLcrCapReached ch s
  | .starvationPromote ch idx => Sys2Proof.Machine.execStarvationPromote ch idx s
  | .writeQueueHigh ch => Sys2Proof.Machine.execWriteQueueHigh ch s
  | .writeQueueLow ch => Sys2Proof.Machine.execWriteQueueLow ch s
  | .hbmRefresh ch bank => Sys2Proof.Machine.execHbmRefresh ch bank s
  | .patrolScrubRead ch err => Sys2Proof.Machine.execPatrolScrubRead ch err s
  | .calibrationDue ch => Sys2Proof.Machine.execCalibrationDue ch s
  | .calibrationForced ch => Sys2Proof.Machine.execCalibrationForced ch s
  | .calibrationEnd ch => Sys2Proof.Machine.execCalibrationEnd ch s
  | .telemetryRead stack temp => Sys2Proof.Machine.execTelemetryRead stack temp s
  | .channelRetire ch => Sys2Proof.Machine.execChannelRetire ch s
  | .hbmTgStart ch => Sys2Proof.Machine.execHbmTgStart ch s
  | .hbmTgStop ch => Sys2Proof.Machine.execHbmTgStop ch s
  | .hbmTgRunEnd ch => Sys2Proof.Machine.execHbmTgRunEnd ch s
  | .copyRequest engine => Sys2Proof.Machine.execCopyRequest engine s
  | .copyRequestComplete engine id fail => Sys2Proof.Machine.execCopyRequestComplete engine id fail s
  | .d2dLinkFail n => Sys2Proof.Machine.execD2dLinkFail n s
  | .lnkEnableSet link => Sys2Proof.Machine.execLnkEnableSet link s
  | .lnkEnableClear link => Sys2Proof.Machine.execLnkEnableClear link s
  | .lnkRetrain link => Sys2Proof.Machine.execLnkRetrain link s
  | .lnkLock link => Sys2Proof.Machine.execLnkLock link s
  | .linkLightCheck link feed signal => Sys2Proof.Machine.execLinkLightCheck link feed signal s
  | .linkTrainDone link => Sys2Proof.Machine.execLinkTrainDone link s
  | .linkAlignDone link => Sys2Proof.Machine.execLinkAlignDone link s
  | .linkSecureDone link peerOwner sigOk => Sys2Proof.Machine.execLinkSecureDone link peerOwner sigOk s
  | .linkInitDone link peerId peerLink credits => Sys2Proof.Machine.execLinkInitDone link peerId peerLink credits s
  | .linkPhaseTimeout link => Sys2Proof.Machine.execLinkPhaseTimeout link s
  | .linkDown link cause => Sys2Proof.Machine.execLinkDown link cause s
  | .linkRecoverEnd link ok => Sys2Proof.Machine.execLinkRecoverEnd link ok s
  | .linkRetryTimer link => Sys2Proof.Machine.execLinkRetryTimer link s
  | .wavelengthFail link lambda => Sys2Proof.Machine.execWavelengthFail link lambda s
  | .linkStateAnswerTimeout link => Sys2Proof.Machine.execLinkStateAnswerTimeout link s
  | .flitSlot link => Sys2Proof.Machine.execFlitSlot link s
  | .flitReceive link f => Sys2Proof.Machine.execFlitReceive link f s
  | .tagFailureLimit link => Sys2Proof.Machine.execTagFailureLimit link s
  | .keyRollover link => Sys2Proof.Machine.execKeyRollover link s
  | .messageTransmit link => Sys2Proof.Machine.execMessageTransmit link s
  | .rd link m => Sys2Proof.Machine.execRd link m s
  | .wr link m => Sys2Proof.Machine.execWr link m s
  | .wrf link m => Sys2Proof.Machine.execWrf link m s
  | .atom link m => Sys2Proof.Machine.execAtom link m s
  | .contrib link m => Sys2Proof.Machine.execContrib link m s
  | .rdrsp link m => Sys2Proof.Machine.execRdrsp link m s
  | .ack link m => Sys2Proof.Machine.execAck link m s
  | .atomrsp link m => Sys2Proof.Machine.execAtomrsp link m s
  | .nack link m => Sys2Proof.Machine.execNack link m s
  | .time link m => Sys2Proof.Machine.execTime link m s
  | .beacon link m => Sys2Proof.Machine.execBeacon link m s
  | .lstate link m => Sys2Proof.Machine.execLstate link m s
  | .keyx link m => Sys2Proof.Machine.execKeyx link m s
  | .remoteResponseTimeout die slot => Sys2Proof.Machine.execRemoteResponseTimeout die slot s
  | .timeAnnounce => Sys2Proof.Machine.execTimeAnnounce s
  | .ethFrameReceive link tunnel f => Sys2Proof.Machine.execEthFrameReceive link tunnel f s
  | .tunnelResendTimeout link tunnel => Sys2Proof.Machine.execTunnelResendTimeout link tunnel s
  | .tunnelDown link tunnel => Sys2Proof.Machine.execTunnelDown link tunnel s
  | .vfCarmArm vf slot => Sys2Proof.Machine.execVfCarmArm vf slot s
  | .vfCarmDisarm vf slot => Sys2Proof.Machine.execVfCarmDisarm vf slot s
  | .bar2Access vf off size data tlp => Sys2Proof.Machine.execBar2Access vf off size data tlp s
  | .pf0Bar2Access off size data tlp => Sys2Proof.Machine.execPf0Bar2Access off size data tlp s
  | .msixUnmask fn vec => Sys2Proof.Machine.execMsixUnmask fn vec s
  | .flr vf => Sys2Proof.Machine.execFlr vf s
  | .flrRekey vf => Sys2Proof.Machine.execFlrRekey vf s
  | .flrComplete vf => Sys2Proof.Machine.execFlrComplete vf s
  | .vfRemove numVFs => Sys2Proof.Machine.execVfRemove numVFs s
  | .pf0Reset cause => Sys2Proof.Machine.execPf0Reset cause s
  | .ideUncoveredTlp vf posted => Sys2Proof.Machine.execIdeUncoveredTlp vf posted s
  | .lockInterface vf session tagOk => Sys2Proof.Machine.execLockInterface vf session tagOk s
  | .stopInterface vf session tagOk => Sys2Proof.Machine.execStopInterface vf session tagOk s
  | .getDeviceInterfaceReport vf session tagOk => Sys2Proof.Machine.execGetDeviceInterfaceReport vf session tagOk s
  | .getVersion t => Sys2Proof.Machine.execGetVersion t s
  | .getCapabilities t => Sys2Proof.Machine.execGetCapabilities t s
  | .negotiateAlgorithms t => Sys2Proof.Machine.execNegotiateAlgorithms t s
  | .getDigests t => Sys2Proof.Machine.execGetDigests t s
  | .getCertificate t slot off len => Sys2Proof.Machine.execGetCertificate t slot off len s
  | .challenge t slot nonce => Sys2Proof.Machine.execChallenge t slot nonce s
  | .getMeasurements t ask signed nonce => Sys2Proof.Machine.execGetMeasurements t ask signed nonce s
  | .keyExchange t session peer => Sys2Proof.Machine.execKeyExchange t session peer s
  | .finish t session ok => Sys2Proof.Machine.execFinish t session ok s
  | .heartbeat t session tagOk => Sys2Proof.Machine.execHeartbeat t session tagOk s
  | .keyUpdate t session tagOk => Sys2Proof.Machine.execKeyUpdate t session tagOk s
  | .endSession t session tagOk => Sys2Proof.Machine.execEndSession t session tagOk s
  | .vendorDefined t session tagOk m => Sys2Proof.Machine.execVendorDefined t session tagOk m s
  | .getNonce => Sys2Proof.Machine.execGetNonce s
  | .ownerEnrol => Sys2Proof.Machine.execOwnerEnrol s
  | .debugUnlock => Sys2Proof.Machine.execDebugUnlock s
  | .debugLock => Sys2Proof.Machine.execDebugLock s
  | .fwStage image => Sys2Proof.Machine.execFwStage image s
  | .logClear => Sys2Proof.Machine.execLogClear s
  | .tamperClear => Sys2Proof.Machine.execTamperClear s
  | .mbxCommandComplete => Sys2Proof.Machine.execMbxCommandComplete s
  | .presenceSample a b => Sys2Proof.Machine.execPresenceSample a b s
  | .presenceAssert => Sys2Proof.Machine.execPresenceAssert s
  | .presenceFault a => Sys2Proof.Machine.execPresenceFault a s
  | .presenceFaultClear => Sys2Proof.Machine.execPresenceFaultClear s
  | .tamperSample isOpen => Sys2Proof.Machine.execTamperSample isOpen s
  | .tamperEvent => Sys2Proof.Machine.execTamperEvent s
  | .powerLoopUpdate sampleW rails => Sys2Proof.Machine.execPowerLoopUpdate sampleW rails s
  | .fastClamp spikeW => Sys2Proof.Machine.execFastClamp spikeW s
  | .fastClampEnd => Sys2Proof.Machine.execFastClampEnd s
  | .governorCapTakeHold core => Sys2Proof.Machine.execGovernorCapTakeHold core s
  | .thermalRead domain sensors => Sys2Proof.Machine.execThermalRead domain sensors s
  | .thermalTrip => Sys2Proof.Machine.execThermalTrip s
  | .coolantSample aOk bOk => Sys2Proof.Machine.execCoolantSample aOk bOk s
  | .forcedCap => Sys2Proof.Machine.execForcedCap s
  | .forcedCapEnd => Sys2Proof.Machine.execForcedCapEnd s
  | .emergencyStop => Sys2Proof.Machine.execEmergencyStop s
  | .ageingEvaluation core drop => Sys2Proof.Machine.execAgeingEvaluation core drop s
  | .sextantUpdate core rate => Sys2Proof.Machine.execSextantUpdate core rate s
  | .vinMainOutOfRange meanMv => Sys2Proof.Machine.execVinMainOutOfRange meanMv s
  | .vinMainInRange meanMv => Sys2Proof.Machine.execVinMainInRange meanMv s
  | .vinAuxLoss => Sys2Proof.Machine.execVinAuxLoss s
  | .vinAuxUp inRangeNs => Sys2Proof.Machine.execVinAuxUp inRangeNs s
  | .perstNAssert lowNs => Sys2Proof.Machine.execPerstNAssert lowNs s
  | .perstNDeassert => Sys2Proof.Machine.execPerstNDeassert s
  | .startupBegin => Sys2Proof.Machine.execStartupBegin s
  | .lampLight lamp => Sys2Proof.Machine.execLampLight lamp s
  | .lampTimeout lamp => Sys2Proof.Machine.execLampTimeout lamp s
  | .rimDierstWrite v => Sys2Proof.Machine.execRimDierstWrite v s
  | .partRstWrite part => Sys2Proof.Machine.execPartRstWrite part s
  | .partResetEpoch part => Sys2Proof.Machine.execPartResetEpoch part s
  | .partResetSettle part => Sys2Proof.Machine.execPartResetSettle part s
  | .partResetRemoteDone part => Sys2Proof.Machine.execPartResetRemoteDone part s
  | .partResetEnd part => Sys2Proof.Machine.execPartResetEnd part s
  | .coreStallRetire core => Sys2Proof.Machine.execCoreStallRetire core s
  | .engineRetire u n => Sys2Proof.Machine.execEngineRetire u n s
  | .digSwctrlEnable part => Sys2Proof.Machine.execDigSwctrlEnable part s
  | .digSwctrlDisable part => Sys2Proof.Machine.execDigSwctrlDisable part s
  | .sweepLineRead part => Sys2Proof.Machine.execSweepLineRead part s
  | .sweepPassEnd part => Sys2Proof.Machine.execSweepPassEnd part s
  | .sweepRestart part => Sys2Proof.Machine.execSweepRestart part s
  | .beaconBuild part => Sys2Proof.Machine.execBeaconBuild part s
  | .hangCheck die => Sys2Proof.Machine.execHangCheck die s
  | .hangSnapshot launch => Sys2Proof.Machine.execHangSnapshot launch s
  | .hangDump launch => Sys2Proof.Machine.execHangDump launch s
  | .hangEnd launch => Sys2Proof.Machine.execHangEnd launch s
  | .traceBufferDrain engine => Sys2Proof.Machine.execTraceBufferDrain engine s
  | .traceTimebase part => Sys2Proof.Machine.execTraceTimebase part s
  | .tracePortBlock => Sys2Proof.Machine.execTracePortBlock s
  | .pmcHiWrite req core n v => Sys2Proof.Machine.execPmcHiWrite req core n v s
  | .pmselWrite req core n v => Sys2Proof.Machine.execPmselWrite req core n v s
  | .pmcOverflow core n => Sys2Proof.Machine.execPmcOverflow core n s
  | .logMramWrite => Sys2Proof.Machine.execLogMramWrite s
  | .logNorWrite => Sys2Proof.Machine.execLogNorWrite s
  | .pairLoRead req off tlp => Sys2Proof.Machine.execPairLoRead req off tlp s
  | .pairLoWrite req off v => Sys2Proof.Machine.execPairLoWrite req off v s
  | .pairHiWrite req off v => Sys2Proof.Machine.execPairHiWrite req off v s
  | .readClear req off => Sys2Proof.Machine.execReadClear req off s
  | .registerWrite req off v tlp => Sys2Proof.Machine.execRegisterWrite req off v tlp s
  | .illegalOpcode g w => Sys2Proof.Machine.execIllegalOpcode g w s
  | .jtagInstruction ir pins shift => Sys2Proof.Machine.execJtagInstruction ir pins shift s
  | .vfEnableSet numVFs => Sys2Proof.Machine.execVfEnableSet numVFs s
  | .startModeEnd => Sys2Proof.Machine.execStartModeEnd s
  | .hbmTrainingLoss ch repaired => Sys2Proof.Machine.execHbmTrainingLoss ch repaired s

end Sys2Proof.Machine
end

