-- ==== Sys2Proof/Safety.lean ====
section
/-! DEFINITION. What counts as a good state, and the words in which a statement says what a command leaves alone. -/

namespace Sys2Proof.Machine

/-- A register file in canonical form: keys rise, and no register at its reset value is listed. -/
def regsWf (r : Tbl Word) : Bool := tsorted r && r.all fun e => e.2 != regReset e.1

/-- HBM's bytes and the register file are in canonical form (R256; log entries 3 and 4). -/
def State.Canon (s : State) : Prop := memWf s.mem = true ∧ regsWf s.regs = true

/-- The pinned slots of MRAM fill from slot 0, hold pinned records, and SPI NOR holds nothing else in its pinned slots (R515, R518). -/
def State.PinsOk (s : State) : Prop :=
  tsorted s.log.mram = true ∧ tsorted s.log.nor = true ∧
  (∀ k, k < 256 → ((tfind s.log.mram k).isSome = true ↔ k < s.pinnedCount)) ∧
  (∀ k r, k < 256 → tfind s.log.nor k = some r → tfind s.log.mram k = some r) ∧
  256 ≤ s.log.ring

/-- Every record of a pinned slot in MRAM is still there. -/
def PinsKept (s t : State) : Prop := ∀ k r, k < 256 → tfind s.log.mram k = some r → tfind t.log.mram k = some r

/-- The parts of the state but its queue; `records` is the logbook's two copies, `log` all of the logbook. -/
inductive Fld where
  | gt | free | out | regs | latch | held | mem | memEpoch | poison | cores | launches | nextLaunch | queues | parts | dies
  | chans | copies | links | d2d | chart | host | sec | pwr | boot | dbg | log | records
  deriving DecidableEq, Repr

/-- A part is the same in two states. -/
def Fld.same (f : Fld) (s t : State) : Prop :=
  match f with
  | .gt => t.gt = s.gt
  | .free => t.free = s.free
  | .out => t.out = s.out
  | .regs => t.regs = s.regs
  | .latch => t.latch = s.latch
  | .held => t.held = s.held
  | .mem => t.mem = s.mem
  | .memEpoch => t.memEpoch = s.memEpoch
  | .poison => t.poison = s.poison
  | .cores => t.cores = s.cores
  | .launches => t.launches = s.launches
  | .nextLaunch => t.nextLaunch = s.nextLaunch
  | .queues => t.queues = s.queues
  | .parts => t.parts = s.parts
  | .dies => t.dies = s.dies
  | .chans => t.chans = s.chans
  | .copies => t.copies = s.copies
  | .links => t.links = s.links
  | .d2d => t.d2d = s.d2d
  | .chart => t.chart = s.chart
  | .host => t.host = s.host
  | .sec => t.sec = s.sec
  | .pwr => t.pwr = s.pwr
  | .boot => t.boot = s.boot
  | .dbg => t.dbg = s.dbg
  | .log => t.log = s.log
  | .records => t.log.mram = s.log.mram ∧ t.log.nor = s.log.nor

/-- From `s` to `t` nothing changes but parts of the list; the queue never does. -/
def Touches (ch : List Fld) (s t : State) : Prop := t.pending = s.pending ∧ ∀ f, f ∉ ch → f.same s t

/-- Every register but those of the list reads as before. -/
def RegsBut (ks : List Nat) (s t : State) : Prop := ∀ k, k ∉ ks → t.reg k = s.reg k

/-! What statements say of a command. -/

/-- The command completes: it answers a next state, in which, from `u` on, nothing has changed but parts of the list, and of which `P` holds. -/
def Goes (i : Sys2Proof.Instr) (s u : State) (ch : List Fld) (P : State → Prop) : Prop :=
  ∃ t, exec i s = .next t ∧ Touches ch u t ∧ P t

/-- The same from the state that the command meets. -/
def Does (i : Sys2Proof.Instr) (s : State) (ch : List Fld) (P : State → Prop) : Prop := Goes i s s ch P

/-- Group `g` issues the word `w` (R76, R77, R105): it may issue and its turn has come, `u` is the state once the word has been fetched, the word raises nothing by itself, and its operands are there. -/
def Issues (s : State) (g : GRef) (w : Word64) (c : Ctx) (u : State) : Prop :=
  okGroup g = true ∧ s.issueCtx g = some c ∧ s.turn g w = true ∧ s.fetch g c = (.word w, u) ∧
  (s.core g.core).mx.queue.any (statBlocks c.gr.uid w) = false ∧ staticErrs c.gr.nregs w = [] ∧ s.operandWait g c.gr.uid w = .none

/-- A register of the performance counters' values and carries (R506 to R508). -/
def pmReg (k : Nat) : Bool :=
  match inBlk k 0x2000000 1632 0x1000 with
  | some (_, o) => decide (0x940 ≤ o ∧ o < 0x988)
  | none => false

/-- Registers change only in performance counters. -/
def OnlyCounters (s t : State) : Prop := ∀ k, pmReg k = false → t.reg k = s.reg k

/-- Of cores, only the group `g` and its scheduler's turns change: other groups, and everything else that a core holds, stay. -/
def OnlyGroup (g : GRef) (s t : State) : Prop :=
  (∀ h, okGroup h = true → h ≠ g → t.group? h = s.group? h) ∧
  ∀ p, { t.core p with groups := [], scheds := [] } = { s.core p with groups := [], scheds := [] }

/-- Of a group's registers and predicates only the listed ones change. -/
def Kept (vs us ps : List Nat) (a b : Group) : Prop :=
  (∀ l i, l < 32 → i ∉ vs → b.vr l i = a.vr l i) ∧ (∀ i, i ∉ us → b.ur i = a.ur i) ∧ (∀ l i, i ∉ ps → b.pr l i = a.pr l i)

/-- The group stands, and `P` holds of it. -/
def GroupAt (g : GRef) (t : State) (P : Group → Prop) : Prop := ∃ x, t.group? g = some x ∧ P x

end Sys2Proof.Machine
end

