-- ==== Sys2Proof/Certificates/Slice0/Obligations.lean ====
section
/-! DEFINITION. The statements about the module, by group of rows; each names the rules of the manual that it rests on. -/

open Sys2Proof Sys2Proof.Machine

/-! The machine as a whole. -/

/-- Tier 1. A step runs the command at the front of the queue, with the rest of the queue left. -/
def Obligations.StepRunsTheFrontCommand : Prop :=
  ∀ (c : Instr) (rest : List Instr) (s : State), step { s with pending := c :: rest } = exec c { s with pending := rest }

/-- Tier 2. Every command that names units of the module (R17), with a word of its own row (R105, R111), answers a next state that leaves the queue as it was, one whose moment has not come among them (the model's choice, log entry 1); any other stops by name (the model's choice, log entry 9). No command is refused, and no state stops one. -/
def Obligations.CommandsRunUnlessMisnamed : Prop :=
  ∀ (c : Instr) (s : State), (c.wf = true → ∃ t, exec c s = .next t ∧ t.pending = s.pending) ∧
    (c.wf = false → exec c s = .fault .noSuchUnit ∨ exec c s = .fault .wrongWord)

/-- Tier 2. With no command waiting and no answer of the host outstanding, a step is a nanosecond of global time (the model's choice, log entry 1): GT goes on; a counter that selects the nanoseconds of GT counts one unless it is frozen, one that selects beats the whole beats that its core comes to, at most four, one that selects the beats of schedulers without a group at most four for each of the four, and one of any other event, or with PFILT, nothing (log entry 8); a core with work keeps what is left of its last beat, and nothing else changes. -/
def Obligations.IdleStepsCountTime : Prop :=
  ∀ s : State, s.pending = [] → s.hostOwes = false → ∃ t, step s = .next t ∧ t.gt = s.gt + 1 ∧ Touches [.gt, .regs, .cores] s t ∧
    (∀ k, pmReg k = false → t.reg k = s.reg k) ∧
    (∀ p, t.core p = { s.core p with phase := (t.core p).phase } ∧ ((s.core p).busy = false → t.core p = s.core p)) ∧
    ∀ p n c, s.Canon → p < 1632 → n < 8 → s.bit (pmCtrl p) 0 = false → s.bit (pmCtrl p) 1 = false → c = s.reg64 (pmc p n) → c < 2 ^ 48 - 16 →
      (s.fld (pmSel p n) 0 8 = 0x0F → s.bit (pmSel p n) 14 = false → t.reg64 (pmc p n) = c + 1) ∧
      (s.fld (pmSel p n) 0 8 = 0x01 → s.bit (pmSel p n) 14 = false → c ≤ t.reg64 (pmc p n) ∧ t.reg64 (pmc p n) ≤ c + 4 ∧ ((s.core p).busy = false → t.reg64 (pmc p n) = c)) ∧
      (s.fld (pmSel p n) 0 8 = 0x03 → s.bit (pmSel p n) 14 = false → c ≤ t.reg64 (pmc p n) ∧ t.reg64 (pmc p n) ≤ c + 16 ∧ ((s.core p).busy = false → t.reg64 (pmc p n) = c)) ∧
      (s.fld (pmSel p n) 0 8 ∉ [0x01, 0x03, 0x0F] ∨ s.bit (pmSel p n) 14 = true → t.reg64 (pmc p n) = c)

/-- Tier 1. Reset (R214, R217, R296, R366, R423, R471, R484, R503, R507, R510): the values that the register tables give, nothing in memory, no partition, no launch, no command; and the forms that every step keeps. -/
def Obligations.ResetIsAsTheTablesGive : Prop :=
  State.reset.pending = [] ∧ State.reset.mem = [] ∧ State.reset.launches = [] ∧ State.reset.chart.active = false ∧ (∀ p, State.reset.valid p = false) ∧
  State.reset.fld pwrLimit 0 12 = 2000 ∧ State.reset.fld pwrLimit 12 4 = 4 ∧ State.reset.fld dbgHangcfg 0 17 = 100 ∧ State.reset.bit dbgTrctrl 0 = true ∧
  (∀ n, n < 48 → State.reset.bit (lnkCtrl n) 0 = true ∧ State.reset.linkState n = lsDisabled) ∧ (∀ p, p < 64 → (State.reset.reg (digSwrate p)).toNat = 2048) ∧
  (∀ r, r < 32 → State.reset.fld (pwrRail r) 0 7 = 40) ∧ (∀ c, c < 1632 → State.reset.fld (coreGov c) 16 16 = 0xFFFF) ∧ (∀ i, i < 64 → State.reset.lamp i = false) ∧
  (∀ c n, c < 1632 → n < 8 → State.reset.reg64 (pmc c n) = 0) ∧ State.reset.held = [] ∧ State.reset.latch = [] ∧ State.reset.Canon ∧ State.reset.PinsOk

/-- Tier 3. Every step keeps HBM's bytes and the register file in canonical form. -/
def Obligations.StepsKeepTheCanonicalForm : Prop := ∀ s t : State, s.Canon → step s = .next t → t.Canon

/-- Tier 3. Pinned records are never overwritten, and no command clears them (R518): every step keeps the pinned slots as they are, whatever the command. -/
def Obligations.PinnedRecordsStay : Prop := ∀ s t : State, s.PinsOk → step s = .next t → t.PinsOk ∧ PinsKept s t

/-- A word with these fields (R106, R107): header, MOD, D, A, B, C and the low byte. -/
def wordOf (maj g gn gp sub md d a b c k : Nat) : Word64 :=
  BitVec.ofNat 64 (maj * 2 ^ 58 + g * 2 ^ 57 + gn * 2 ^ 56 + gp * 2 ^ 53 + sub * 2 ^ 48 + md * 2 ^ 40 + d * 2 ^ 32 + a * 2 ^ 24 + b * 2 ^ 16 + c * 2 ^ 8 + k)

/-- Tier 2. The fields of an instruction word (R106, R107): a word built from any values of its fields gives them back; without a guard, GN and GP must be 0; with one, the lanes are those in which GP, negated by GN, is true; the major class alone fixes the body format; the kind bits lie where each format has them, reserved bits must be 0, the 20-bit immediate is sign-extended and stands for operand B, and TGT and RCV count words from the branch. -/
def Obligations.InstructionWordsHoldTheirFields : Prop :=
  ∀ maj g gn gp sub md d a b c k w, w = wordOf maj g gn gp sub md d a b c k → maj < 64 → g < 2 → gn < 2 → gp < 8 → sub < 32 → md < 256 → d < 256 → a < 256 → b < 256 →
    c < 256 → k < 256 →
    fMaj w = maj ∧ fG w = (g == 1) ∧ fGN w = (gn == 1) ∧ fGP w = gp ∧ fSub w = sub ∧ fMod w = md ∧ fD w = d ∧ fA w = a ∧ fB w = b ∧ fC w = c ∧
    (g = 0 → gn ≠ 0 ∨ gp ≠ 0 → rowOf w ≠ .illegal → ∀ n, exReserved ∈ staticErrs n w) ∧
    (∀ (gr : Group) (l : Nat), l < 32 → (gr.guard w).getLsbD l = if g = 1 then (gr.pr l gp != (gn == 1)) else true) ∧
    (∀ w', fMaj w' = maj → bodyOf w' = bodyOf w) ∧
    (bodyOf w = .r → fAU w = decide (128 ≤ k) ∧ fBU w = decide (64 ≤ k % 128) ∧ fCU w = decide (32 ≤ k % 64) ∧ fDU w = decide (16 ≤ k % 32) ∧
      (k % 16 ≠ 0 → bodyReserved w = true)) ∧
    (bodyOf w = .i → fDU w = decide (128 ≤ b) ∧ fAU w = decide (64 ≤ b % 128) ∧ (b / 16 % 4 ≠ 0 → bodyReserved w = true) ∧
      ∀ (gr : Group) (l n : Nat), gr.rdB w l n = (b % 16 * 65536 + c * 256 + k) + (if b % 16 < 8 then 0 else 2 ^ 32 - 2 ^ 20)) ∧
    (bodyOf w = .l → fImm32 w = a * 2 ^ 24 + b * 2 ^ 16 + c * 2 ^ 8 + k) ∧
    (bodyOf w = .b → ∀ pc, branchTo pc (fieldOf w 47 24) = (pc + 8 * (md * 65536 + d * 256 + a) + (if md < 128 then 0 else 2 ^ 64 - 2 ^ 27)) % 2 ^ 64 ∧
      branchTo pc (fieldOf w 23 0) = (pc + 8 * (b * 65536 + c * 256 + k) + (if b < 128 then 0 else 2 ^ 64 - 2 ^ 27)) % 2 ^ 64) ∧
    (bodyOf w = .m → fAU w = decide (128 ≤ c) ∧ fBU w = decide (64 ≤ c % 128) ∧ fDU w = decide (16 ≤ c % 32) ∧ (32 ≤ c % 64 → bodyReserved w = true) ∧
      (maj = 0x10 ∨ maj = 0x11 → fOff w = ((c % 16 * 256 + k : Nat) : Int) - (if c % 16 < 8 then 0 else 4096)))

/-! Threads: arithmetic, predicates, control flow and local memory. -/

/-- The registers of kind `u` that a word's destination names. -/
def dRegs (w : Word64) (n : Nat) (u : Bool) : List Nat := if fDU w = u then (List.range n).map (fD w + ·) else []

/-- The group goes on at its next word, or where its reconvergence stack leads from there (R73, R75). -/
def GoesOn (a b : Group) : Prop :=
  b.pc = (a.goto (a.pc + 8)).pc ∧ b.active = (a.goto (a.pc + 8)).active ∧ b.stack = (a.goto (a.pc + 8)).stack ∧ b.exited = a.exited

/-- Of the per-thread registers only those of the lanes that the word acts on may have changed (R106). -/
def LanesOnly (w : Word64) (a b : Group) : Prop := ∀ l, l < 32 → l ∉ a.lanes w → ∀ i, b.vr l i = a.vr l i

/-- In every lane that the word acts on, its destination of `n` registers holds the value; no other register or predicate has changed, nor D in a lane that the word does not act on (R106), and the group goes on; D = 255 keeps nothing (R80). -/
def WroteD (w : Word64) (n : Nat) (v : Nat → Nat) (a b : Group) : Prop :=
  (fD w ≠ 255 → ∀ l ∈ a.lanes w, b.rd l (fDU w) (fD w) n = v l % 2 ^ (32 * n)) ∧ Kept (dRegs w n false) (dRegs w n true) [] a b ∧ LanesOnly w a b ∧ GoesOn a b

/-- In every lane that the word acts on, predicate `d` holds the value; a uniform word gives every active lane its lowest lane's value (R110). In other lanes it is as it was (R106), and so is every other predicate and register; the group goes on. -/
def WroteP (w : Word64) (d : Nat) (v : Nat → Bool) (a b : Group) : Prop :=
  (d ≠ 255 → ∀ l, l ∈ lanesOf a.active → (isUniform w = true ∨ l ∈ a.lanes w) →
    b.pr l d = v (if isUniform w then a.low else l)) ∧ Kept [] [] [d] a b ∧
  (∀ l, (isUniform w = false → l ∉ a.lanes w) → (isUniform w = true → l ∉ lanesOf a.active) → ∀ i, b.pr l i = a.pr l i) ∧ GoesOn a b

/-- A row whose whole effect is on its group: it completes, `Q` relates the group before and after, and only the launch's progress and the performance counters change beside it. -/
def GroupRow (i : GRef → Word64 → Instr) (r : IRow) (Q : GRef → State → Ctx → Word64 → Group → Prop) : Prop :=
  ∀ s g w c u, Issues s g w c u → rowOf w = r →
    Goes (i g w) s u [.regs, .cores, .launches] fun t => OnlyGroup g u t ∧ OnlyCounters u t ∧ GroupAt g t (Q g u c w)

/-- The two's-complement value of the low `n` bits, and an operand's value, signed unless U is set (R116). -/
def sx (n x : Nat) : Int := if 2 * x < 2 ^ n then (x : Int) else (x : Int) - 2 ^ n
def opInt (u : Bool) (n x : Nat) : Int := if u then (x : Int) else sx n x

/-- An integer modulo 2^n, or clamped to the range that U names (R116). -/
def lowBits (n : Nat) (x : Int) : Nat := (x % 2 ^ n).toNat
def satBits (u : Bool) (n : Nat) (x : Int) : Nat :=
  if u then (if x < 0 then 0 else if 2 ^ n ≤ x then 2 ^ n - 1 else x.toNat)
  else if x < -2 ^ (n - 1) then 2 ^ (n - 1) else if 2 ^ (n - 1) ≤ x then 2 ^ (n - 1) - 1 else lowBits n x

/-- What a 32-bit integer instruction gives of operands `a`, `b` and `c` (R116); `p` is the predicate that i32.pick reads. -/
def Int32Gives (sub : Nat) (u sat p : Bool) (a b c v : Nat) : Prop :=
  (sub = 0 → v = if sat then satBits u 32 (opInt u 32 a + opInt u 32 b) else (a + b) % 2 ^ 32) ∧
  (sub = 1 → v = if sat then satBits u 32 (opInt u 32 a - opInt u 32 b) else (a + 2 ^ 32 - b) % 2 ^ 32) ∧
  (sub = 2 → v = if sat = true ∧ a = 2 ^ 31 then 2 ^ 31 - 1 else (2 ^ 32 - a) % 2 ^ 32) ∧
  (sub = 3 → v = if a < 2 ^ 31 then a else if sat = true ∧ a = 2 ^ 31 then 2 ^ 31 - 1 else 2 ^ 32 - a) ∧
  (sub = 4 → v = if opInt u 32 a ≤ opInt u 32 b then a else b) ∧
  (sub = 5 → v = if opInt u 32 a ≤ opInt u 32 b then b else a) ∧
  (sub = 6 → v = a * b % 2 ^ 32) ∧
  (sub = 7 → v = lowBits 32 (opInt u 32 a * opInt u 32 b / 2 ^ 32)) ∧
  (sub = 8 → v = (a * b + c) % 2 ^ 32) ∧
  (sub = 9 → v = lowBits 32 (opInt u 32 a * opInt u 32 b / 2 ^ 32 + c)) ∧
  (sub = 10 → v = Nat.land a b) ∧ (sub = 11 → v = Nat.lor a b) ∧ (sub = 12 → v = Nat.xor a b) ∧ (sub = 13 → v + a = 2 ^ 32 - 1) ∧
  (sub = 14 → v = a * 2 ^ (b % 256) % 2 ^ 32) ∧ (sub = 15 → v = a / 2 ^ (b % 256)) ∧ (sub = 16 → v = lowBits 32 (sx 32 a / 2 ^ (b % 256))) ∧
  (sub = 17 → v = ((List.range 32).filter fun i => a.testBit i).length) ∧
  (sub = 18 → (a = 0 → v = 32) ∧ (a ≠ 0 → v ≤ 31 ∧ 2 ^ (31 - v) ≤ a ∧ a < 2 ^ (32 - v))) ∧
  (sub = 19 → ∀ i, i < 32 → v.testBit i = a.testBit (31 - i)) ∧
  (sub = 20 → ∀ n f, n = min (c % 64) (32 - b % 32) → f = a / 2 ^ (b % 32) % 2 ^ n → v = if n = 0 then 0 else if u then f else lowBits 32 (sx n f)) ∧
  (sub = 21 → ∀ i n, i < 32 → n = min (c / 256 % 64) 32 → v.testBit i = if c % 32 ≤ i ∧ i < c % 32 + n then a.testBit (i - c % 32) else b.testBit i) ∧
  (sub = 23 → v = if p then a else b) ∧ (sub = 24 → v = a)

/-- What a 64-bit integer instruction gives of the pairs `a` and `b` (R116); a shift and i64.mulw take the single registers `a1` and `b1`. -/
def Int64Gives (sub : Nat) (u sat : Bool) (a b a1 b1 v : Nat) : Prop :=
  (sub = 0 → v = if sat then satBits u 64 (opInt u 64 a + opInt u 64 b) else (a + b) % 2 ^ 64) ∧
  (sub = 1 → v = if sat then satBits u 64 (opInt u 64 a - opInt u 64 b) else (a + 2 ^ 64 - b) % 2 ^ 64) ∧
  (sub = 4 → v = if opInt u 64 a ≤ opInt u 64 b then a else b) ∧
  (sub = 5 → v = if opInt u 64 a ≤ opInt u 64 b then b else a) ∧
  (sub = 6 → v = a * b % 2 ^ 64) ∧
  (sub = 10 → v = Nat.land a b) ∧ (sub = 11 → v = Nat.lor a b) ∧ (sub = 12 → v = Nat.xor a b) ∧
  (sub = 14 → v = a * 2 ^ (b1 % 256) % 2 ^ 64) ∧ (sub = 15 → v = a / 2 ^ (b1 % 256)) ∧ (sub = 16 → v = lowBits 64 (sx 64 a / 2 ^ (b1 % 256))) ∧
  (sub = 25 → v = lowBits 64 (opInt u 32 a1 * opInt u 32 b1))

/-- MOD[0] and MOD[1] of an integer instruction: U and SAT (R116). -/
def modU (w : Word64) : Bool := fMod w % 2 == 1
def modSat (w : Word64) : Bool := fMod w / 2 % 2 == 1

/-- Tier 2. Integer rows (R80, R107, R110, R116): what each operation of INT, INTI and INT64 gives, signed or unsigned, wrapped or saturated, and immediates; SAT without meaning does nothing (log entry 11); every other register, lane, predicate and group stays, and the group goes on at its next word. -/
def Obligations.IntegerRowsWriteTheirResult : Prop :=
  GroupRow .i32Op .i32Op (fun _ _ c w x =>
    ∃ v, WroteD w 1 v c.gr x ∧ x.fpstat = c.gr.fpstat ∧ ∀ l,
      Int32Gives (fSub w) (modU w) (modSat w) (c.gr.pr l (fC w)) (c.gr.rdA w l 1) (c.gr.rdB w l 1) (c.gr.rdC w l 1) (v l)) ∧
  GroupRow .i64Op .i64Op (fun _ _ c w x =>
    ∃ v, WroteD w 2 v c.gr x ∧ x.fpstat = c.gr.fpstat ∧ ∀ l,
      Int64Gives (fSub w) (modU w) (modSat w) (c.gr.rdA w l 2) (c.gr.rdB w l 2) (c.gr.rdA w l 1) (c.gr.rdB w l 1) (v l)) ∧
  GroupRow .immV .immV (fun _ _ c w x => WroteD w 1 (fun _ => (w.toNat % 2 ^ 32)) c.gr x) ∧
  GroupRow .immU .immU (fun _ _ c w x => x.ur (fD w) = (if fD w = 255 then 0 else w.setWidth 32) ∧ Kept [] [fD w] [] c.gr x ∧ GoesOn c.gr x)

/-- The conditions of R117 on integers of `n` bits. -/
def CondGives (n cond a b : Nat) (v : Bool) : Prop :=
  (cond = 0 → v = decide (a = b)) ∧ (cond = 1 → v = decide (a ≠ b)) ∧
  (cond = 2 → v = decide (sx n a < sx n b)) ∧ (cond = 3 → v = decide (sx n a ≤ sx n b)) ∧
  (cond = 4 → v = decide (sx n a > sx n b)) ∧ (cond = 5 → v = decide (sx n a ≥ sx n b)) ∧
  (cond = 6 → v = decide (a < b)) ∧ (cond = 7 → v = decide (a ≤ b)) ∧ (cond = 8 → v = decide (a > b)) ∧ (cond = 9 → v = decide (a ≥ b))

/-- The conditions of R117 on floating-point values `x` and `y`. -/
def FpCondGives (cond : Nat) (x y : FV) (v : Bool) : Prop :=
  (x.isNan = true ∨ y.isNan = true → v = (cond == 1 || cond == 7)) ∧
  (x.isNan = false → y.isNan = false →
    (cond = 0 → v = (fvOrd x y == 0)) ∧ (cond = 1 → v = (fvOrd x y != 0)) ∧ (cond = 2 → v = decide (fvOrd x y < 0)) ∧ (cond = 3 → v = decide (fvOrd x y ≤ 0)) ∧
    (cond = 4 → v = decide (fvOrd x y > 0)) ∧ (cond = 5 → v = decide (fvOrd x y ≥ 0)) ∧ (cond = 6 → v = true) ∧ (cond = 7 → v = false))

/-- FPSTAT afterwards is what it was, with the flags that the lanes raised (R120); a uniform instruction executes once, for the lowest active lane (R110). -/
def Flagged (ls : List Nat) (fl : Nat → Fl) (a b : Group) : Prop := ∀ i, b.fpstat.getLsbD i = (a.fpstat.getLsbD i || ls.any fun l => (fl l).getLsbD i)

/-- The source lane of a shuffle in segments of `n` lanes, and whether it is in range (R93). -/
def ShuffleFrom (mode n l k src : Nat) (inRange : Bool) : Prop :=
  (mode = 0 → src = n * (l / n) + k % n ∧ inRange = true) ∧
  (mode = 1 → inRange = decide (n * (l / n) + k ≤ l) ∧ src = if n * (l / n) + k ≤ l then l - k else l) ∧
  (mode = 2 → inRange = decide (l + k < n * (l / n) + n) ∧ src = if l + k < n * (l / n) + n then l + k else l) ∧
  (mode = 3 → src = n * (l / n) + Nat.xor (l % n) k % n ∧ inRange = true)

/-- Tier 2. Comparisons and group rows (R93, R94, R110, R117, R120, R133): every condition on integers of 32 and 64 bits and on floating-point numbers, with the flags that a comparison raises; every mode of a vote, into a predicate or a uniform register; every mode and segment of a shuffle; lanes that a row does not act on keep what they hold, and the group goes on at its next word. -/
def Obligations.PredicateRowsWriteTheirResult : Prop :=
  GroupRow .intCmp .intCmp (fun _ _ c w x =>
    ∃ v, WroteP w (fD w) v c.gr x ∧ x.fpstat = c.gr.fpstat ∧
      (fMaj w ≠ 6 → ∀ l, CondGives 32 (fMod w / 8) (c.gr.rdA w l 1) (c.gr.rdB w l 1) (v l)) ∧
      (fMaj w = 6 → ∀ l, CondGives 64 (fMod w / 8) (c.gr.rdA w l 2) (c.gr.rdB w l 2) (v l))) ∧
  GroupRow .fpCmp .fpCmp (fun _ _ c w x =>
    ∀ f n, (fMaj w ≠ 9 → f = Fmt.f32 ∧ n = 1) → (fMaj w = 9 → f = Fmt.f64 ∧ n = 2) →
      ∃ v, WroteP w (fD w) v c.gr x ∧ (∀ l, FpCondGives (fMod w / 8) (f.decode (c.gr.rdA w l n)) (f.decode (c.gr.rdB w l n)) (v l)) ∧
        Flagged (if isUniform w then [c.gr.low] else c.gr.lanes w) (fun l => (fpCmp f (fMod w / 8) (c.gr.rdA w l n) (c.gr.rdB w l n)).2) c.gr x) ∧
  (∀ f cond a b fl, fl = (fpCmp f cond a b).2 →
    (2 ≤ cond → cond ≤ 5 → fl = if (f.decode a).isNan || (f.decode b).isNan then flInvalid else flNone) ∧
    (cond < 2 ∨ 5 < cond → fl = if (f.decode a).isSnan || (f.decode b).isSnan then flInvalid else flNone)) ∧
  GroupRow .grpVote .grpVote (fun _ _ c w x =>
    ∀ ls p, ls = lanesOf (c.gr.active &&& c.gr.guard w) → p = (fun k => c.gr.pr k (fA w) != (fMod w / 4 % 2 == 1)) →
      x.fpstat = c.gr.fpstat ∧ GoesOn c.gr x ∧ (ls = [] → Kept [] [] [] c.gr x) ∧
      (ls ≠ [] → fMod w % 4 = 3 → Kept [] [fD w] [] c.gr x ∧ (fD w ≠ 255 → ∀ i, i < 32 → (x.ur (fD w)).getLsbD i = (decide (i ∈ ls) && p i))) ∧
      (ls ≠ [] → ∀ yes, (fMod w % 4 = 0 → yes = ls.all p) → (fMod w % 4 = 1 → yes = ls.any p) → (fMod w % 4 = 2 → yes = decide (∀ i ∈ ls, ∀ j ∈ ls, p i = p j)) →
        fMod w % 4 ≠ 3 →
        (fDU w = true → Kept [] [fD w] [] c.gr x ∧ (fD w ≠ 255 → x.ur (fD w) = if yes then 1 else 0)) ∧
        (fDU w = false → Kept [] [] [fD w] c.gr x ∧ (∀ l, l ∉ ls → ∀ i, x.pr l i = c.gr.pr l i) ∧ (fD w ≠ 255 → ∀ l ∈ ls, x.pr l (fD w) = yes)))) ∧
  GroupRow .grpShfl .grpShfl (fun _ _ c w x =>
    Kept (dRegs w 1 false) (dRegs w 1 true) [fC w] c.gr x ∧ LanesOnly w c.gr x ∧ GoesOn c.gr x ∧ x.fpstat = c.gr.fpstat ∧
    ∃ (src : Nat → Nat) (inRange : Nat → Bool), (∀ l, ShuffleFrom (fMod w % 4) (2 ^ (fMod w / 4 % 8)) l (c.gr.rdB w l 1) (src l) (inRange l)) ∧
      (fD w ≠ 255 → ∀ l ∈ c.gr.lanes w, x.rd l (fDU w) (fD w) 1 = c.gr.rd (src l) (fAU w) (fA w) 1) ∧
      (fC w ≠ 255 → isUniform w = false → (∀ l ∈ c.gr.lanes w, x.pr l (fC w) = inRange l) ∧ ∀ l, l ∉ c.gr.lanes w → x.pr l (fC w) = c.gr.pr l (fC w)) ∧
      (fC w ≠ 255 → isUniform w = true → (∀ l ∈ lanesOf c.gr.active, x.pr l (fC w) = inRange c.gr.low) ∧ ∀ l, l ∉ lanesOf c.gr.active → x.pr l (fC w) = c.gr.pr l (fC w)))

/-- Tier 2. The PRED instructions (R118): pr.and, pr.or and pr.xor combine A and B, each negated by its MOD bit; pr.not, pr.fromv and pr.tov move one predicate; lanes that the word does not act on and everything else of the group stay, and the group goes on at its next word. -/
def Obligations.PredicateInstructionsCombine : Prop :=
  GroupRow .prOp .prOp (fun _ _ c w x =>
    (fSub w ≤ 4 → ∃ v, WroteP w (fD w) v c.gr x ∧ ∀ (l : Nat) (p q : Bool),
      p = (c.gr.pr l (fA w) != (getBits (fMod w) 0 1 == 1)) → q = (c.gr.pr l (fB w) != (getBits (fMod w) 1 1 == 1)) →
      (fSub w = 0 → v l = (p && q)) ∧ (fSub w = 1 → v l = (p || q)) ∧ (fSub w = 2 → v l = (p != q)) ∧
      (fSub w = 3 → v l = !c.gr.pr l (fA w)) ∧ (fSub w = 4 → v l = (c.gr.rdA w l 1 != 0))) ∧
    (4 < fSub w → WroteD w 1 (fun l => if c.gr.pr l (fA w) then 1 else 0) c.gr x))

/-- The flags that R119, R120 and R122 name (IEEE 754): of an operation on encodings of format `f`, a signalling NaN raises invalid in add, sub, mul, fma, min and max, as do opposite infinities added, and 0 times infinity, in fma whatever the addend; abs and neg raise nothing; no operation of R119 raises division by zero, and sf.inv, sf.isqrt and sf.log2 of 0 do, which the model reads from IEEE 754 (log entry 26). -/
def FlagRules : Prop :=
  (∀ (f : Fmt) (op : Nat) (rm : Rm) (a b c : Nat), ((f.decode a).isSnan = true ∨ (f.decode b).isSnan = true) → op < 6 → (fpOp f op rm a b c).2.getLsbD 0 = true) ∧
  (∀ (f : Fmt) (rm : Rm) (a b c : Nat), (f.decode c).isSnan = true → (fpOp f 3 rm a b c).2.getLsbD 0 = true) ∧
  (∀ (f : Fmt) (rm : Rm) (a b c : Nat) (n : Bool), f.decode a = .inf n → f.decode b = .inf (!n) → (fpOp f 0 rm a b c).2 = flInvalid ∧ (fpOp f 0 rm a b c).1 = f.nanBits) ∧
  (∀ (f : Fmt) (rm : Rm) (a b c : Nat) (n : Bool), f.decode a = .inf n → f.decode b = .inf n → (fpOp f 1 rm a b c).2 = flInvalid ∧ (fpOp f 1 rm a b c).1 = f.nanBits) ∧
  (∀ (f : Fmt) (op : Nat) (rm : Rm) (a b c : Nat) (n : Bool), op = 2 ∨ op = 3 →
    (f.decode a = .inf n ∧ (f.decode b).isZero = true) ∨ (f.decode b = .inf n ∧ (f.decode a).isZero = true) →
    (fpOp f op rm a b c).2 = flInvalid ∧ (fpOp f op rm a b c).1 = f.nanBits) ∧
  (∀ (f : Fmt) (op : Nat) (rm : Rm) (a b c : Nat), op = 6 ∨ op = 7 → (fpOp f op rm a b c).2 = flNone) ∧
  (∀ (f : Fmt) (op : Nat) (rm : Rm) (a b c : Nat), op = 4 ∨ op = 5 → (f.decode a).isSnan = false → (f.decode b).isSnan = false → (fpOp f op rm a b c).2 = flNone) ∧
  (∀ (f : Fmt) (op : Nat) (rm : Rm) (a b c : Nat), (fpOp f op rm a b c).2.getLsbD 1 = false) ∧
  (∀ (f : Fmt) (op : Nat) (rm : Rm) (a b c : Nat) (fl : Fl), fl = (fpOp f op rm a b c).2 →
    (fl.getLsbD 2 = true → fl.getLsbD 4 = true) ∧ (fl.getLsbD 3 = true → fl.getLsbD 4 = true)) ∧
  (∀ n : Bool, (sfOp 0 (if n then 0x80000000 else 0)).2 = flDivZero ∧ (sfOp 3 (if n then 0x80000000 else 0)).2 = flDivZero) ∧ (sfOp 1 0).2 = flDivZero ∧
  (∀ (op : Nat) (x : Word), (Fmt.f32.decode x.toNat).isSnan = true → (sfOp op x).2 = flInvalid) ∧
  (∀ (op : Nat) (x : Word), (Fmt.f32.decode x.toNat).isSnan = false → (Fmt.f32.decode x.toNat).isNan = true → (sfOp op x).2 = flNone)

/-- Tier 2. Floating-point, conversion and special-function rows (R119 to R122): the destination, in FPX2 both halves in the format of MOD[2]; FPSTAT gathers the flags of the acting lanes, nothing else of the group changes, in other lanes D neither, and the group goes on at its next word; which flags those are (R120; of the special functions, log entry 26). -/
def Obligations.FloatRowsWriteTheirResult : Prop :=
  GroupRow .f32Op .f32Op (fun _ _ c w x =>
    ∀ r, r = (fun l => fpOp .f32 (fSub w) (Rm.of (fMod w % 4)) (c.gr.rdA w l 1) (c.gr.rdB w l 1) (c.gr.rdC w l 1)) →
      WroteD w 1 (fun l => (r l).1) c.gr x ∧ Flagged (c.gr.lanes w) (fun l => (r l).2) c.gr x) ∧
  GroupRow .f64Op .f64Op (fun _ _ c w x =>
    ∀ r, r = (fun l => fpOp .f64 (fSub w) (Rm.of (fMod w % 4)) (c.gr.rdA w l 2) (c.gr.rdB w l 2) (c.gr.rdC w l 2)) →
      WroteD w 2 (fun l => (r l).1) c.gr x ∧ Flagged (c.gr.lanes w) (fun l => (r l).2) c.gr x) ∧
  GroupRow .h2Op .h2Op (fun _ _ c w x =>
    ∀ f lo hi, (fMod w / 4 % 2 = 0 → f = Fmt.f16) → (fMod w / 4 % 2 = 1 → f = Fmt.bf16) →
      lo = (fun l => fpOp f (fSub w) (Rm.of (fMod w % 4)) (c.gr.rdA w l 1 % 2 ^ 16) (c.gr.rdB w l 1 % 2 ^ 16) (c.gr.rdC w l 1 % 2 ^ 16)) →
      hi = (fun l => fpOp f (fSub w) (Rm.of (fMod w % 4)) (c.gr.rdA w l 1 / 2 ^ 16) (c.gr.rdB w l 1 / 2 ^ 16) (c.gr.rdC w l 1 / 2 ^ 16)) →
      (∃ v, WroteD w 1 v c.gr x ∧ ∀ l, v l % 2 ^ 16 = (lo l).1 ∧ v l / 2 ^ 16 = (hi l).1) ∧ Flagged (c.gr.lanes w) (fun l => (lo l).2 ||| (hi l).2) c.gr x) ∧
  GroupRow .cnv .cnv (fun _ _ c w x =>
    ∃ src dst, cvType (fB w % 16) = some src ∧ cvType (fB w / 16) = some dst ∧
      ∀ r, r = (fun l => cvt src dst (Rm.of (fMod w % 4)) (getBits (fMod w) 2 1 == 1) (c.gr.rdA w l (if src.pair then 2 else 1))) →
        WroteD w (if dst.pair then 2 else 1) (fun l => (r l).1) c.gr x ∧ Flagged (c.gr.lanes w) (fun l => (r l).2) c.gr x) ∧
  GroupRow .sfOp .sfOp (fun _ _ c w x =>
    ∀ r, r = (fun l => sfOp (fSub w) (BitVec.ofNat 32 (c.gr.rdA w l 1))) →
      WroteD w 1 (fun l => (r l).1) c.gr x ∧ Flagged (c.gr.lanes w) (fun l => (r l).2) c.gr x) ∧
  FlagRules

/-- Tier 2. Control flow (R73 to R75, R107, R113, R114): where the group goes on and what a branch, a link and a special register leave behind; a divergent branch pushes its frame while fewer than 32 entries of R74 stand, joined masks not counted (the model's reading, log entry 10). -/
def Obligations.ControlRowsMoveTheGroup : Prop :=
  GroupRow .ctlNop .ctlNop (fun _ _ c _ x => x = c.gr.goto (c.gr.pc + 8)) ∧
  GroupRow .brLink .brLink (fun _ _ c w x =>
    x.ur 62 = BitVec.ofNat 32 (c.gr.pc + 8) ∧ x.ur 63 = BitVec.ofNat 32 ((c.gr.pc + 8) / 2 ^ 32) ∧ Kept [] [62, 63] [] c.gr x ∧
    (c.gr.stack = [] → x.pc = branchTo c.gr.pc (fieldOf w 47 24))) ∧
  GroupRow .ctlRsr .ctlRsr (fun g u c w x =>
    WroteD w (if fA w = 0x10 then 2 else 1) (fun l => u.special g c l (fA w)) c.gr x ∧
    (c.gr.lanes w ≠ [] → getBits (fMod w) 0 1 = 1 → x.fpstat = 0) ∧ (getBits (fMod w) 0 1 = 0 → x.fpstat = c.gr.fpstat)) ∧
  (∀ s g w c u, Issues s g w c u → rowOf w = .ctlJmp → c.gr.rd 0 true (fA w) 2 % 8 = 0 →
    Goes (.ctlJmp g w) s u [.regs, .cores, .launches] fun t => OnlyGroup g u t ∧ OnlyCounters u t ∧
      GroupAt g t fun x => x = c.gr.goto (c.gr.rd 0 true (fA w) 2)) ∧
  (∀ s g w c u, Issues s g w c u → rowOf w = .br →
    (c.gr.active &&& c.gr.guard w = c.gr.active ∨ c.gr.active &&& c.gr.guard w = 0 ∨ c.gr.depth < 32) →
    Goes (.br g w) s u [.regs, .cores, .launches] fun t => OnlyGroup g u t ∧ OnlyCounters u t ∧ GroupAt g t fun x =>
      Kept [] [] [] c.gr x ∧
      (c.gr.active &&& c.gr.guard w = c.gr.active → x = c.gr.goto (branchTo c.gr.pc (fieldOf w 47 24))) ∧
      (c.gr.active &&& c.gr.guard w = 0 → c.gr.active ≠ 0 → x = c.gr.goto (c.gr.pc + 8)) ∧
      (c.gr.active &&& c.gr.guard w ≠ c.gr.active → c.gr.active &&& c.gr.guard w ≠ 0 →
        branchTo c.gr.pc (fieldOf w 23 0) ≠ c.gr.pc + 8 →
        x.active = c.gr.active &&& ~~~(c.gr.active &&& c.gr.guard w) ∧ x.pc = c.gr.pc + 8 ∧
        x.stack = .entry (branchTo c.gr.pc (fieldOf w 23 0)) (branchTo c.gr.pc (fieldOf w 47 24)) (c.gr.active &&& c.gr.guard w) :: c.gr.stack))

/-! Exit, barriers, fences, exceptions. -/

/-- The group has left the active set of its scheduler. -/
def Pending (g : GRef) (t : State) : Prop := g.slot ∉ ((t.core g.core).sched g.sched).active

/-- The lanes that a frame of the reconvergence stack holds. -/
def frameMask (f : Frame) : BitVec 32 :=
  match f with
  | .entry _ _ m => m
  | .join _ m => m

/-- Tier 2. ctl.exit, bar.block, bar.cluster and fence (R75, R95, R113, R132, R240): exited lanes leave every mask; a barrier and a fence send the group, which stands at its next word, to the pending set, and do nothing where its guard is false in every active lane (of a fence the model's reading, log entry 21); only a bar.cluster may drop L1, the core's own, as its group arrives. -/
def GroupsExitAndWait : Prop :=
  (∀ s g w c u, Issues s g w c u → rowOf w = .ctlExit → c.gr.exited ||| (c.gr.active &&& c.gr.guard w) ≠ BitVec.allOnes 32 →
    Goes (.ctlExit g w) s u [.regs, .cores, .launches] fun t => OnlyGroup g u t ∧ OnlyCounters u t ∧ GroupAt g t fun x =>
      x.exited = c.gr.exited ||| (c.gr.active &&& c.gr.guard w) ∧ x.active &&& (c.gr.active &&& c.gr.guard w) = 0 ∧
      (∀ f ∈ x.stack, frameMask f &&& (c.gr.active &&& c.gr.guard w) = 0) ∧ Kept [] [] [] c.gr x) ∧
  (∀ s g w c u, Issues s g w c u → rowOf w = .ctlExit → c.gr.exited ||| (c.gr.active &&& c.gr.guard w) = BitVec.allOnes 32 →
    Goes (.ctlExit g w) s u [.regs, .cores, .launches, .dbg] fun t => t.group? g = none) ∧
  GroupRow .barBlock .barBlock (fun _ _ c w x =>
    (c.gr.lanes w ≠ [] → x.wait = .barrier false ∧ GoesOn c.gr x) ∧ (c.gr.lanes w = [] → x = c.gr.goto (c.gr.pc + 8)) ∧ Kept [] [] [] c.gr x) ∧
  (∀ s g w c u, Issues s g w c u → rowOf w = .barCluster →
    Goes (.barCluster g w) s u [.regs, .cores, .launches] fun t => OnlyCounters u t ∧
      (∀ h, okGroup h = true → h ≠ g → t.group? h = u.group? h) ∧
      (∀ p, { t.core p with groups := [], scheds := [], l1 := [] } = { u.core p with groups := [], scheds := [], l1 := [] }) ∧
      (∀ p, (t.core p).l1 = (u.core p).l1 ∨ (p = g.core ∧ c.gr.lanes w ≠ [] ∧ (t.core p).l1 = [])) ∧
      GroupAt g t fun x => (c.gr.lanes w ≠ [] → x.wait = .barrier true ∧ GoesOn c.gr x) ∧ (c.gr.lanes w = [] → x = c.gr.goto (c.gr.pc + 8)) ∧ Kept [] [] [] c.gr x) ∧
  GroupRow .fence .fence (fun _ _ c w x =>
    (c.gr.lanes w ≠ [] → x.wait = .fence (fMod w % 8) ∧ GoesOn c.gr x) ∧ (c.gr.lanes w = [] → x = c.gr.goto (c.gr.pc + 8)) ∧ Kept [] [] [] c.gr x) ∧
  (∀ s g w c u, Issues s g w c u → rowOf w = .barBlock → c.gr.lanes w ≠ [] →
    Goes (.barBlock g w) s u [.regs, .cores, .launches] fun t => Pending g t) ∧
  (∀ s g w c u, Issues s g w c u → rowOf w = .barCluster → c.gr.lanes w ≠ [] →
    Goes (.barCluster g w) s u [.regs, .cores, .launches] fun t => Pending g t) ∧
  (∀ s g w c u, Issues s g w c u → rowOf w = .fence → c.gr.lanes w ≠ [] →
    Goes (.fence g w) s u [.regs, .cores, .launches] fun t => Pending g t)

/-- Tier 2. The end of those waits (R96, R97, R238, R240): a group at a barrier completes the fence of its arrival once its accesses are performed at the barrier's scope, its writes to its own block's local store through cluster windows among them; the last to do so opens the barrier for every group of it, bar.cluster once no write through a window to a block of its cluster is unserved, that of a group that has exited neither; a fence ends once the group's accesses are performed at its scope; with cluster scope or wider L1 is dropped. -/
def WaitsEnd : Prop :=
  (∀ s g gr wide, okGroup g = true → s.group? g = some gr → gr.wait = .barrier wide → gr.fenced = false →
    s.reached g gr.uid (if wide then 1 else 0) = true → (s.core g.core).ownWrites g.core gr.block gr.uid = false →
    Does (.fenceComplete g) s [.cores] fun t => GroupAt g t (fun x => x = { gr with fenced := true }) ∧
      (wide = true → (t.core g.core).l1 = []) ∧ (wide = false → ∀ p, (t.core p).l1 = (s.core p).l1)) ∧
  (∀ s g gr wide, okGroup g = true → s.group? g = some gr → gr.wait = .barrier wide → (∀ p, tsorted (s.core p).groups = true) →
    (∀ e ∈ s.barrierGroups g wide, e.2.wait = .barrier wide ∧ (e.2.fenced = true ∨ (s.reached e.1 e.2.uid (if wide then 1 else 0) = true ∧ (s.core e.1.core).ownWrites e.1.core e.2.block e.2.uid = false))) →
    (wide = true → s.windowWrites (s.clusterOf g) = false) →
    Does (.barrierOpen g) s [.cores] fun t =>
      (∀ e ∈ s.barrierGroups g wide, GroupAt e.1 t fun x => x.wait = .none ∧ ∃ y, s.group? e.1 = some y ∧ Kept [] [] [] y x) ∧
      (wide = true → ∀ e ∈ s.barrierGroups g wide, (t.core e.1.core).l1 = []) ∧ (wide = false → ∀ p, (t.core p).l1 = (s.core p).l1)) ∧
  (∀ s g gr, okGroup g = true → s.group? g = some gr → gr.wait = .barrier true → s.windowWrites (s.clusterOf g) = true → (∀ p, tsorted (s.core p).groups = true) →
    Does (.barrierOpen g) s [.cores] fun t => GroupAt g t fun x => x.wait = .barrier true ∧ Kept [] [] [] gr x) ∧
  (∀ s g gr sc, okGroup g = true → s.group? g = some gr → gr.wait = .fence sc → s.reached g gr.uid sc = true →
    Does (.fenceComplete g) s [.cores] fun t =>
      (GroupAt g t fun x => x.wait = .none ∧ Kept [] [] [] gr x) ∧ (sc ≠ 0 → (t.core g.core).l1 = []) ∧ (sc = 0 → ∀ p, (t.core p).l1 = (s.core p).l1) ∧
      (g.slot ∈ ((t.core g.core).sched g.sched).ready ∨ g.slot ∈ ((t.core g.core).sched g.sched).active))

/-- Tier 2. Groups that end or wait, and the end of the waits (R75, R95 to R97, R113, R132, R238, R240; a fence whose guard is false everywhere, log entry 21). -/
def Obligations.GroupsWaitAndGoOn : Prop := GroupsExitAndWait ∧ WaitsEnd

/-- The parts that a core's access may change when it stores nothing: its core and launch, counters, cached translations, L2 and its requests, the free counter. -/
def coreSide : List Fld := [.free, .regs, .cores, .launches, .parts, .dies, .chans]

/-- The group's block owns the matrix unit, and its queue has a free entry (R162, R167). -/
def MxOwn (u : State) (g : GRef) (c : Ctx) : Prop := (u.mx g.core).owner = some c.gr.block ∧ (u.mx g.core).queue.length < 8

/-- The command by which a group issues a word: that of its row (R105, R111). -/
def rowCommand (g : GRef) (w : Word64) : Instr :=
  match rowOf w with
  | .ctlNop => .ctlNop g w
  | .ctlExit => .ctlExit g w
  | .barBlock => .barBlock g w
  | .barCluster => .barCluster g w
  | .ctlJmp => .ctlJmp g w
  | .fence => .fence g w
  | .ctlRsr => .ctlRsr g w
  | .br => .br g w
  | .brLink => .brLink g w
  | .i32Op => .i32Op g w
  | .i64Op => .i64Op g w
  | .intCmp => .intCmp g w
  | .immV => .immV g w
  | .immU => .immU g w
  | .f32Op => .f32Op g w
  | .f64Op => .f64Op g w
  | .h2Op => .h2Op g w
  | .fpCmp => .fpCmp g w
  | .cnv => .cnv g w
  | .sfOp => .sfOp g w
  | .prOp => .prOp g w
  | .grpShfl => .grpShfl g w
  | .grpVote => .grpVote g w
  | .ldLocal => .ldLocal g w
  | .stLocal => .stLocal g w
  | .ldGlobal => .ldGlobal g w
  | .stGlobal => .stGlobal g w
  | .zlGlobal => .zlGlobal g w
  | .ldCluster => .ldCluster g w
  | .stCluster => .stCluster g w
  | .rmwCluster => .rmwCluster g w
  | .ldRemote => .ldRemote g w
  | .stRemote => .stRemote g w
  | .stRemoteFinal => .stRemoteFinal g w
  | .rmwLocal => .rmwLocal g w
  | .rmwGlobal => .rmwGlobal g w
  | .rmwPost => .rmwPost g w
  | .ll => .ll g w
  | .sc => .sc g w
  | .evRec => .evRec g w
  | .semRel => .semRel g w
  | .mxHdl => .mxHdl g w
  | .mxFill => .mxFill g w
  | .mxLdb => .mxLdb g w
  | .mxMma => .mxMma g w
  | .mxClr => .mxClr g w
  | .mxAddraw => .mxAddraw g w
  | .mxDrain => .mxDrain g w
  | .mxStat => .mxStat g w
  | .mxNest => .mxNest g w
  | .illegal => .illegalOpcode g w

/-- The exception `e` is taken (R137, R141): the group stops where it is, with its registers as they were; its launch fails with the exception's status; the core's record takes cause, place, lane and partition, the program counter, the address and the word `v`, unless it holds one already, and then marks OVERRUN alone. `u` is the state in which it was raised. -/
def Raised (g : GRef) (c : Ctx) (v : Word64) (e : Exc) (u t : State) : Prop :=
  (GroupAt g t fun x => x = { c.gr with stopped := true }) ∧
  (∃ l f, t.launch? c.lid = some l ∧ l.fail = some f ∧ f.status = e.status ∧ f.cause = e.given) ∧
  (u.bit (excStatus g.core) 31 = false → t.bit (excStatus g.core) 31 = true ∧ t.bit (excStatus g.core) 30 = false ∧
    t.fld (excStatus g.core) 0 8 = e.cause ∧ t.fld (excStatus g.core) 8 2 = g.sched ∧ t.fld (excStatus g.core) 10 4 = g.slot ∧
    t.fld (excStatus g.core) 14 5 = e.lane ∧ t.fld (excStatus g.core) 19 6 = c.la.part ∧
    t.reg64 (excPc g.core) = c.gr.pc % 2 ^ 64 ∧ t.reg64 (excAddr g.core) = e.addr % 2 ^ 64 ∧ t.reg64 (excWord g.core) = v.toNat) ∧
  (u.bit (excStatus g.core) 31 = true → t.bit (excStatus g.core) 30 = true ∧ ∀ k, k ≠ excStatus g.core → t.reg k = u.reg k)

/-- What lanes meet that access aligned words of `n` bytes below `limit` (R125). -/
def laneCauses (n limit : Nat) (eas : List (Nat × Nat)) : List Exc :=
  eas.flatMap fun e => (if e.2 % n = 0 then [] else [{ cause := 0x06, lane := e.1, addr := e.2 }]) ++
    (if e.2 + n ≤ limit then [] else [{ cause := 0x08, lane := e.1, addr := e.2 }])

/-- What lanes meet that store outside every output window (R126, R340). -/
def windowCauses (l : Launch) (remote : Bool) (n : Nat) (eas : List (Nat × Nat)) : List Exc :=
  (eas.filter fun e => !(l.inWindows remote e.2 n)).map fun e => { cause := 0x09, lane := e.1, addr := e.2 }

/-- What lanes meet that access a Device-Strict page with an instruction that none accepts (R229). -/
def strictCauses (ls : List LaneAt) : List Exc := (ls.filter (·.tr.mt)).map fun x => { cause := 0x07, lane := x.lane, addr := x.va }

/-- What lanes meet whose atomic or ll consumes an uncorrectable word (R416). -/
def poisonCauses (v : State) (n : Nat) (ls : List LaneAt) : List Exc :=
  (ls.filter fun x => v.poisonedAt x.tr.tgt n).map fun x => { cause := 0x0A, lane := x.lane, addr := x.va }

/-- What an ll, sc or returning atomic meets in a launch that may be pre-empted (R130), with its lowest lane (log entry 108). -/
def deferralCause (la : Launch) (eas : List (Nat × Nat)) : List Exc :=
  if la.nonpre then [] else (eas.take 1).map fun e => { cause := 0x0C, lane := e.1 }

/-- The causes that a row finds as it issues (R138), beside those that its word decides, and the state `v` that its lanes' translations leave. -/
def FindsCauses (u : State) (g : GRef) (c : Ctx) (w : Word64) (v : State) (xs : List Exc) : Prop :=
  match rowOf w with
  | .ctlJmp => v = u ∧ xs = if c.gr.rd 0 true (fA w) 2 % 8 = 0 then [] else [{ cause := 0x06, lane := c.gr.low, addr := c.gr.rd 0 true (fA w) 2 }]
  | .br => v = u ∧ xs = if c.gr.active &&& c.gr.guard w ≠ c.gr.active ∧ c.gr.active &&& c.gr.guard w ≠ 0 ∧ 32 ≤ c.gr.depth then [{ cause := 0x05, lane := c.gr.low }] else []
  | .ldLocal | .stLocal => u.accessWait g c.gr.uid w false = none ∧ v = u ∧ xs = laneCauses (widthOf w) c.blk.lsBytes (c.gr.eas w)
  | .rmwLocal => u.accessWait g c.gr.uid w true = none ∧ v = u ∧ xs = laneCauses (atomWidth w) c.blk.lsBytes (c.gr.eas w)
  | .ldCluster | .stCluster => u.accessWait g c.gr.uid w false = none ∧ v = u ∧ xs = (c.gr.eas w).flatMap fun e => u.clusterErrs c.blk (widthOf w) e.1 e.2
  | .rmwCluster => u.accessWait g c.gr.uid w true = none ∧ v = u ∧ xs = (c.gr.eas w).flatMap fun e => u.clusterErrs c.blk (atomWidth w) e.1 e.2
  | .ldGlobal => u.accessWait g c.gr.uid w false = none ∧
      ∃ ls, u.translLanes g.core c.la.part (widthOf w) .read ((c.gr.eas w).filter fun e => !(inClaimPage e.2 && widthOf w == 4 && e.2 % 4 == 0)) = ((ls, xs), v)
  | .stGlobal => u.accessWait g c.gr.uid w false = none ∧
      ∃ ls es, u.translLanes g.core c.la.part (widthOf w) .write ((c.gr.eas w).filter fun e => (pushPage e.2).isNone) = ((ls, es), v) ∧
        xs = es ++ v.pushesErrs c (widthOf w) ((c.gr.eas w).filter fun e => (pushPage e.2).isSome) ++ windowCauses c.la false (widthOf w) (c.gr.eas w)
  | .zlGlobal => u.accessWait g c.gr.uid w false = none ∧
      ∃ ls es, u.translLanes g.core c.la.part 128 .write (c.gr.eas w) = ((ls, es), v) ∧ xs = es ++ strictCauses ls ++ windowCauses c.la false 128 (c.gr.eas w)
  | .ldRemote => u.accessWait g c.gr.uid w false = none ∧ v = u ∧ xs = u.remoteErrs c.la.part (widthOf w) false false (c.gr.eas w)
  | .stRemote => u.accessWait g c.gr.uid w false = none ∧ v = u ∧
      xs = u.remoteErrs c.la.part (widthOf w) true true (c.gr.eas w) ++ windowCauses c.la true (widthOf w) (c.gr.eas w)
  | .stRemoteFinal => u.accessWait g c.gr.uid w false = none ∧ v = u ∧ xs = u.remoteErrs c.la.part (widthOf w) true false (c.gr.eas w)
  | .rmwGlobal => u.accessWait g c.gr.uid w true = none ∧
      if atomIsRemote w then v = u ∧ xs = u.remoteErrs c.la.part (atomWidth w) false false (c.gr.eas w) ++ deferralCause c.la (c.gr.eas w)
      else ∃ ls es, u.translLanes g.core c.la.part (atomWidth w) .write (c.gr.eas w) = ((ls, es), v) ∧
        xs = es ++ (if c.la.nonpre then poisonCauses v (atomWidth w) ls else []) ++ deferralCause c.la (c.gr.eas w)
  | .rmwPost => u.accessWait g c.gr.uid w c.la.nonpre = none ∧
      if atomIsRemote w then v = u ∧ xs = u.remoteErrs c.la.part (atomWidth w) false false (c.gr.eas w)
      else ∃ ls es, u.translLanes g.core c.la.part (atomWidth w) .write (c.gr.eas w) = ((ls, es), v) ∧
        xs = es ++ (if c.la.nonpre then poisonCauses v (atomWidth w) ls else [])
  | .ll => u.accessWait g c.gr.uid w true = none ∧
      if fSub w = 0 then v = u ∧ xs = laneCauses (widthOf w) c.blk.lsBytes (c.gr.eas w)
      else ∃ ls es, u.translLanes g.core c.la.part (widthOf w) .read (c.gr.eas w) = ((ls, es), v) ∧
        xs = es ++ strictCauses ls ++ (if c.la.nonpre then poisonCauses v (widthOf w) ls else []) ++ deferralCause c.la (c.gr.eas w)
  | .sc => u.accessWait g c.gr.uid w true = none ∧
      if fSub w = 1 then v = u ∧ xs = laneCauses (widthOf w) c.blk.lsBytes (c.gr.eas w)
      else ∃ ls es, u.translLanes g.core c.la.part (widthOf w) .write (c.gr.eas w) = ((ls, es), v) ∧ xs = es ++ strictCauses ls ++ deferralCause c.la (c.gr.eas w)
  | .evRec => u.accessWait g c.gr.uid w false = none ∧
      ∃ r, u.eventWord c.la.part (c.gr.rd 0 true (fA w) 2) (.core g.core) = (r, v) ∧
        xs = (if c.gr.rd 0 true (fA w) 2 % 8 = 0 then [] else [{ cause := 0x06, lane := c.gr.low, addr := c.gr.rd 0 true (fA w) 2 }]) ++
          (match r with
           | .error f => [f.exc c.gr.low (c.gr.rd 0 true (fA w) 2)]
           | .ok _ => [])
  | .semRel => u.accessWait g c.gr.uid w false = none ∧ v = u ∧
      xs = if c.gr.rd 0 true (fA w) 1 < 4096 then [] else [{ cause := 0x08, lane := c.gr.low }]
  | .mxFill | .mxHdl | .mxMma | .mxLdb | .mxAddraw | .mxDrain | .mxNest | .mxClr | .mxStat | .ctlNop | .ctlExit | .barBlock | .barCluster | .fence | .ctlRsr | .brLink
  | .i32Op | .i64Op | .intCmp | .immV | .immU | .f32Op | .f64Op | .h2Op | .fpCmp | .cnv | .sfOp | .prOp | .grpShfl | .grpVote | .illegal => v = u ∧ xs = []

/-- An exception on issue (R137 to R139, R141): whatever the row, a word with a fault of its own raises it before its operands are waited for (the model's reading, log entry 13), one that no row lists with cause 0x01; so does a row whose lanes meet causes at their addresses, one that cannot be fetched with the word 0, and a matrix row whose handle is not valid; of several the lowest cause is recorded, and of its lanes the lowest. One that must wait for a way round the ring raises nothing. -/
def IssueRaises : Prop :=
  (∀ s g w c u e, okGroup g = true → s.issueCtx g = some c → s.fetch g c = (.word w, u) → (s.core g.core).mx.queue.any (statBlocks c.gr.uid w) = false → s.turn g w = true →
    c.la.part < 64 → pickExc ((staticErrs c.gr.nregs w).map fun k => { cause := k, lane := c.gr.low }) = some e →
    Goes (rowCommand g w) s u [.regs, .cores, .launches] fun t => Raised g c w e u t ∧ (rowOf w = .illegal → e.cause = 0x01)) ∧
  (∀ s g w c u v xs e, Issues s g w c u → c.la.part < 64 → FindsCauses u g c w v xs → xs.any (fun x => x.cause == exCut) = false → pickExc xs = some e → e.cause ≠ 0 →
    Goes (rowCommand g w) s u coreSide fun t => Raised g c w e v t) ∧
  (∀ s g w c u v xs, Issues s g w c u → FindsCauses u g c w v xs → xs.any (fun x => x.cause == exCut) = true →
    Goes (rowCommand g w) s u coreSide fun t => t.group? g = some c.gr ∧ t.launch? c.lid = u.launch? c.lid) ∧
  (∀ s g w c u e, okGroup g = true → s.issueCtx g = some c → s.fetch g c = (.fault e, u) → s.turn g w = true → c.la.part < 64 → e.cause ≠ 0 → e.cause ≠ exCut →
    Goes (rowCommand g w) s u [.regs, .cores, .launches] fun t => Raised g c 0 e u t) ∧
  (∀ s g w c u, Issues s g w c u → c.la.part < 64 → rowOf w ∈ [IRow.mxLdb, .mxMma, .mxAddraw] → MxOwn u g c → tfind (u.mx g.core).handles (mHa w) = none →
    Goes (rowCommand g w) s u [.regs, .cores, .launches] fun t => Raised g c w { cause := 0x20, lane := c.gr.low } u t) ∧
  (∀ xs e, (∀ z ∈ xs, z.lane < 32) → pickExc xs = some e → e.cause ≠ 0 →
    (∃ y ∈ xs, y.cause = e.cause ∧ y.lane = e.lane ∧ y.addr = e.addr) ∧ ∀ z ∈ xs, z.cause ≠ 0 → e.cause < z.cause ∨ (e.cause = z.cause ∧ e.lane ≤ z.lane)) ∧
  (∀ (v : State) core p n acc eas e, e ∈ eas →
    (e.2 % n ≠ 0 → ∃ x ∈ (v.translLanes core p n acc eas).1.2, x.cause = 0x06 ∧ x.lane = e.1 ∧ x.addr = e.2) ∧
    (∀ f z, eas = [e] → v.transl p e.2 acc (.core core) = (.error f, z) → f = .translation →
      ∃ x ∈ (v.translLanes core p n acc eas).1.2, x.cause = 0x07 ∧ x.lane = e.1 ∧ x.addr = e.2))

/-- Tier 2. An exception (R137, R139, R141): every row that a group issues stops the same way on a fault of its word (before it waits for its operands, log entry 13) and on one that its lanes meet at their addresses: the group stops where it is, its launch fails with the status of the lowest cause, and the core's record takes the cause, the lane, the address, the program counter and the word unless it holds one; a word that no row lists is its own row. -/
def Obligations.ExceptionsAreRecorded : Prop :=
  IssueRaises ∧
  (∀ s g w c u, okGroup g = true → s.issueCtx g = some c → s.fetch g c = (.word w, u) → (s.core g.core).mx.queue.any (statBlocks c.gr.uid w) = false → s.turn g w = true →
    rowOf w = .illegal → Goes (.illegalOpcode g w) s u [.regs, .cores, .launches] fun t =>
      GroupAt g t (fun x => x.stopped = true) ∧ ∃ l f, t.launch? c.lid = some l ∧ l.fail = some f ∧ f.cause = 1)

/-! Local store. -/

/-- A byte of a block's local store. -/
def lsByte (t : State) (p slot i : Nat) : Option Byte := (t.blockAt p slot).map fun b => b.byte i

/-- The lanes of a local access may make it: aligned, in the block's space (R124, R125), no fill or drain on their bytes, no order that holds them. -/
def LocalOk (u : State) (g : GRef) (c : Ctx) (w : Word64) (n : Nat) (wr ordered : Bool) : Prop :=
  u.accessWait g c.gr.uid w ordered = none ∧ (∀ e ∈ c.gr.eas w, e.2 % n = 0 ∧ e.2 + n ≤ c.blk.lsBytes) ∧ u.localBusy g c.gr.block n wr (c.gr.eas w) = false

/-- Local store outside the bytes `[a, a + n)` of `eas` in block `slot` of core `p` is as before. -/
def LsOutside (p slot n : Nat) (eas : List (Nat × Nat)) (u t : State) : Prop :=
  ∀ q k i, (q = p → k = slot → ∀ e ∈ eas, i < e.2 ∨ e.2 + n ≤ i) → lsByte t q k i = lsByte u q k i

/-- Atomics on words of `n` bytes, one lane after another (R128, R130): `f` is what the bytes of each place hold before, `os` the old word that each lane finds and `h` what the bytes hold afterwards. A lane gives its number, its place, its offset there, its operand and the new value of cas. -/
def AtomsGive {α : Type} (op n : Nat) : List (Nat × α × Nat × Nat × Nat) → (α → Nat → Byte) → List (Nat × Nat) → (α → Nat → Byte) → Prop
  | [], f, os, h => os = [] ∧ h = f
  | (l, k, a, b, b2) :: rest, f, os, h => ∃ f' os', os = (l, leNat ((List.range n).map fun i => f k (a + i))) :: os' ∧
      (∀ v, atomOp op (8 * n) (leNat ((List.range n).map fun i => f k (a + i))) b b2 = some v →
        (∀ i, i < n → some (f' k (a + i)) = (leBytes n v)[i]?) ∧ ∀ j i, (j = k → i < a ∨ a + n ≤ i) → f' j i = f j i) ∧
      (atomOp op (8 * n) (leNat ((List.range n).map fun i => f k (a + i))) b b2 = none → f' = f) ∧ AtomsGive op n rest f' os' h

/-- Tier 2. Loads, stores and atomics of local store (R91, R106, R123 to R125, R128, R130): each lane's registers receive the bytes at its address, and lanes that make no access keep theirs; a store changes the bytes of its lanes and no others; an atomic acts for its lanes in ascending order, each returning the word it found and storing the operation's result; the group goes on at its next word. -/
def Obligations.LocalAccessesMoveBytes : Prop :=
  (∀ s g w c u, Issues s g w c u → rowOf w = .ldLocal → LocalOk u g c w (widthOf w) false false →
    Goes (.ldLocal g w) s u [.regs, .cores, .launches] fun t => OnlyGroup g u t ∧ OnlyCounters u t ∧ GroupAt g t fun x =>
      Kept (dRegs w (regsFor (widthOf w)) false) (dRegs w (regsFor (widthOf w)) true) [] c.gr x ∧ LanesOnly w c.gr x ∧ GoesOn c.gr x ∧
      (fD w ≠ 255 → ∀ e ∈ c.gr.eas w, x.rd e.1 (fDU w) (fD w) (regsFor (widthOf w)) =
        loadValue (widthOf w) (fSx w) (c.blk.bytes e.2 (widthOf w)) % 2 ^ (32 * regsFor (widthOf w)))) ∧
  (∀ s g w c u, Issues s g w c u → rowOf w = .stLocal → LocalOk u g c w (widthOf w) true false →
    Goes (.stLocal g w) s u [.regs, .cores, .launches] fun t => OnlyCounters u t ∧ GroupAt g t (fun x => Kept [] [] [] c.gr x ∧ GoesOn c.gr x) ∧
      LsOutside g.core c.gr.block (widthOf w) (c.gr.eas w) u t ∧
      ∀ pre e post, c.gr.eas w = pre ++ e :: post → (∀ f ∈ post, f.2 + widthOf w ≤ e.2 ∨ e.2 + widthOf w ≤ f.2) →
        ∀ i, i < widthOf w → lsByte t g.core c.gr.block (e.2 + i) = (c.gr.storeData w e.1 (widthOf w))[i]?) ∧
  (∀ s g w c u, Issues s g w c u → rowOf w = .rmwLocal → LocalOk u g c w (atomWidth w) true true →
    Goes (.rmwLocal g w) s u [.regs, .cores, .launches] fun t => OnlyCounters u t ∧ LsOutside g.core c.gr.block (atomWidth w) (c.gr.eas w) u t ∧
      ∃ os h, AtomsGive (fAtom w) (atomWidth w) ((c.gr.eas w).map fun e => (e.1, (), e.2, (c.gr.atomB w e.1).1, (c.gr.atomB w e.1).2)) (fun _ => c.blk.byte) os h ∧
        (∀ i, lsByte t g.core c.gr.block i = some (h () i)) ∧
        GroupAt g t fun x => LanesOnly w c.gr x ∧ GoesOn c.gr x ∧
          (atomReturns w = true → Kept (dRegs w (atomWidth w / 4) false) (dRegs w (atomWidth w / 4) true) [] c.gr x ∧
            (fD w ≠ 255 → ∀ o ∈ os, x.rd o.1 (fDU w) (fD w) (atomWidth w / 4) = o.2)) ∧
          (atomReturns w = false → Kept [] [] [] c.gr x))

/-- The lanes of a cluster-window access may make it (R100, R102): no fill or drain on bytes of the core's own local store. -/
def ClusterOk (u : State) (g : GRef) (c : Ctx) (w : Word64) (n : Nat) (wr ordered : Bool) : Prop :=
  u.accessWait g c.gr.uid w ordered = none ∧ c.gr.eas w ≠ [] ∧ (u.core g.core).creqs.length < 64 ∧ u.windowBusy g c.blk n wr (c.gr.eas w) = false ∧
  ∀ e ∈ c.gr.eas w, e.2 % n = 0 ∧ e.2 / 2 ^ 18 < c.blk.csize ∧ ∃ m, u.ranked c.blk (e.2 / 2 ^ 18) = some m ∧ e.2 % 2 ^ 18 + n ≤ m.2.2.lsBytes

/-- One request of a cluster window stands in the core's response slots, for every lane (log entry 72), with the blocks it names; the group goes on, its registers and every local store as before. -/
def AskedCluster (g : GRef) (c : Ctx) (w : Word64) (kind n : Nat) (data : Nat → List Byte) (u t : State) : Prop :=
  GroupAt g t (fun x => Kept [] [] [] c.gr x ∧ GoesOn c.gr x) ∧ (∀ p k i, lsByte t p k i = lsByte u p k i) ∧ OnlyCounters u t ∧
  ∃ id r, (t.core g.core).creqs = tset (u.core g.core).creqs id r ∧ r.kind = kind ∧ r.width = n ∧ r.served = none ∧ r.guid = c.gr.uid ∧
    r.lanes.map (fun x => (x.lane, x.off, x.data)) = ((c.gr.eas w).map fun e => (e.1, e.2 % 2 ^ 18, data e.1)) ∧
    ∀ e ∈ c.gr.eas w, ∀ m, u.ranked c.blk (e.2 / 2 ^ 18) = some m → ∃ x ∈ r.lanes, x.lane = e.1 ∧ x.core = m.1 ∧ x.slot = m.2.1 ∧ x.block = m.2.2.uid

/-- A request that its targets may serve: it has not been served, no older one of the group to the same bytes waits, and the ring leads to its targets and back (R27, R101). -/
def Servable (s : State) (p id : Nat) (r : CReq) : Prop :=
  r.served = none ∧ (∀ e ∈ (s.core p).creqs, e.1 < id → e.2.served = none → e.2.guid = r.guid → e.2.meets r = false) ∧
  ∀ x ∈ r.lanes, s.crosses s.d2d .clusterRequest .clusterResponse (dieOfPhys p) (dieOfPhys x.core) = true

/-- Late results have reached the registers of their lanes (R77, R106, R123): each lane of `vals`, named once, holds its value, and other lanes, registers and predicates are as in `a`. -/
def ReceivedAll (a : Group) (d : Dest) (vals : List (Nat × List Byte)) (b : Group) : Prop :=
  d.reg + regsFor d.width ≤ 255 → (∀ v ∈ vals, v.1 < 32) →
    ((vals.map (·.1)).Nodup → (d.unif = true → vals.length ≤ 1) → ∀ v ∈ vals, b.rd v.1 d.unif d.reg (regsFor d.width) = loadValue d.width d.sx v.2 % 2 ^ (32 * regsFor d.width)) ∧
    Kept (if d.unif then [] else (List.range (regsFor d.width)).map (d.reg + ·)) (if d.unif then (List.range (regsFor d.width)).map (d.reg + ·) else []) [] a b ∧
    ∀ l, l < 32 → (∀ v ∈ vals, v.1 ≠ l) → ∀ i, b.vr l i = a.vr l i

/-- Tier 2. Cluster windows (R99 to R102): an instruction's request takes one response slot for all its lanes (the model's choice, log entry 72); its targets serve it at their local stores, lanes in ascending order, and send a load's or an atomic's words back; one whose block is no longer there reaches nothing; the response frees the slot and brings the values. -/
def Obligations.ClusterRequestsAreServed : Prop :=
  (∀ s g w c u, Issues s g w c u → rowOf w = .ldCluster → ClusterOk u g c w (widthOf w) false false →
    Goes (.ldCluster g w) s u [.regs, .cores, .launches] fun t => AskedCluster g c w 0 (widthOf w) (fun _ => []) u t) ∧
  (∀ s g w c u, Issues s g w c u → rowOf w = .stCluster → ClusterOk u g c w (widthOf w) true false →
    Goes (.stCluster g w) s u [.regs, .cores, .launches] fun t => AskedCluster g c w 1 (widthOf w) (fun l => c.gr.storeData w l (widthOf w)) u t) ∧
  (∀ s g w c u, Issues s g w c u → rowOf w = .rmwCluster → ClusterOk u g c w (atomWidth w) true true →
    Goes (.rmwCluster g w) s u [.regs, .cores, .launches] fun t =>
      AskedCluster g c w (if atomReturns w then 2 else 3) (atomWidth w)
        (fun l => leBytes (2 * atomWidth w) ((c.gr.atomB w l).1 + (c.gr.atomB w l).2 * 2 ^ (8 * atomWidth w))) u t) ∧
  (∀ s p id r, okCore p = true → tfind (s.core p).creqs id = some r → Servable s p id r → (∀ x ∈ r.lanes, (s.blockAt x.core x.slot).map (·.uid) = some x.block) →
    Does (.clusterRequestServe p id) s [.cores] fun t => ∃ q vals, tfind (t.core p).creqs id = some q ∧ q.served = some vals ∧
      (r.kind = 0 → vals = (r.lanes.map fun x => (x.lane, s.lsRead x.core x.slot x.off r.width)) ∧ ∀ p k i, lsByte t p k i = lsByte s p k i) ∧
      (r.kind = 1 → (∀ p k i, (∀ x ∈ r.lanes, x.core = p → x.slot = k → i < x.off ∨ x.off + x.data.length ≤ i) → lsByte t p k i = lsByte s p k i) ∧
        ∀ pre x post, r.lanes = pre ++ x :: post → (∀ y ∈ post, y.core = x.core → y.slot = x.slot → y.off + y.data.length ≤ x.off ∨ x.off + x.data.length ≤ y.off) →
          ∀ i, i < x.data.length → lsByte t x.core x.slot (x.off + i) = x.data[i]?) ∧
      (r.kind = 2 ∨ r.kind = 3 → ∃ os h, AtomsGive r.op r.width
          (r.lanes.map fun x => (x.lane, (x.core, x.slot), x.off, numAt x.data 0 r.width, numAt x.data r.width r.width)) (fun k i => (lsByte s k.1 k.2 i).getD 0) os h ∧
        vals = (os.map fun o => (o.1, leBytes r.width o.2)) ∧ (∀ x ∈ r.lanes, ∀ i, lsByte t x.core x.slot i = some (h (x.core, x.slot) i)) ∧
        ∀ p k, (∀ x ∈ r.lanes, x.core = p → x.slot ≠ k) → ∀ i, lsByte t p k i = lsByte s p k i)) ∧
  (∀ s p id r, okCore p = true → tfind (s.core p).creqs id = some r → Servable s p id r → (∀ x ∈ r.lanes, (s.blockAt x.core x.slot).map (·.uid) ≠ some x.block) →
    Does (.clusterRequestServe p id) s [.cores] fun t => (∃ q, tfind (t.core p).creqs id = some q ∧ q.served = some (r.lanes.map fun x => (x.lane, []))) ∧
      ∀ p k i, lsByte t p k i = lsByte s p k i) ∧
  (∀ s p id r vals, okCore p = true → tfind (s.core p).creqs id = some r → r.served = some vals →
    Does (.clusterResponse p id) s [.cores] fun t =>
      tfind (t.core p).creqs id = none ∧
      (r.kind = 0 ∨ r.kind = 2 → ∀ gr, s.resultGroup p r.guid r.launch r.run r.site = some gr →
        GroupAt ⟨p, r.site.sched, r.site.slot⟩ t (ReceivedAll gr r.dest vals)) ∧
      (r.kind = 1 ∨ r.kind = 3 → ∀ g gr, s.group? g = some gr → GroupAt g t (Kept [] [] [] gr)))

/-! Global and remote memory from the cores. -/

/-- The store buffer of a group. -/
def sbufOf (t : State) (g : GRef) : List Sbuf := tget [] (t.core g.core).sbufs (gkey g.sched g.slot)

/-- The lanes of a global access translate without a fault, to `ls`; `v` is the state after the translation. -/
def GlobalOk (u : State) (g : GRef) (c : Ctx) (w : Word64) (n : Nat) (acc : TAcc) (ls : List LaneAt) (v : State) : Prop :=
  u.accessWait g c.gr.uid w false = none ∧ u.translLanes g.core c.la.part n acc (c.gr.eas w) = ((ls, []), v) ∧
  (∀ e ∈ c.gr.eas w, inClaimPage e.2 = false ∧ pushPage e.2 = none)

/-- What the group's store buffer offers a load (R234). -/
def forwardOf (v : State) (g : GRef) (c : Ctx) (n : Nat) (ls : List LaneAt) : Forward :=
  forward ((sbufOf v g).filter fun e => e.guid == c.gr.uid && !e.remote) n ls

/-- What a load finds in HBM: each lane's bytes. -/
def hbmVals (s : State) (xs : List LaneRead) : List (Nat × List Byte) :=
  xs.map fun x => (x.lane, match x.tgt with
    | .hbm a => s.bytes a x.width
    | _ => [])

/-- Tier 2. Loads from global memory (R106, R224, R227, R230, R232, R234 to R236, R77): a load is forwarded from the group's store buffer, served by L1 at once, or stands outstanding with a tracker entry, and the group goes on; claims take the block's next tiles, lane by lane; data returns to the destination registers of the lanes that asked, and of no other. -/
def Obligations.GlobalLoadsReachTheirRegisters : Prop :=
  (∀ s g w c u v ls, Issues s g w c u → rowOf w = .ldGlobal → GlobalOk u g c w (widthOf w) .read ls v → ls ≠ [] →
    (ls.any (·.tr.mt) = true → v.strictPending g c.gr.uid = false) → forwardOf v g c (widthOf w) ls = .none →
    (ls.any (·.tr.mt) = true ∨ v.l1On g.core c.la ls = false ∨ fMod w / 16 % 4 = 1 ∨ (v.core g.core).l1Hits (widthOf w) ls = none) →
    (v.core g.core).trackHit false (spansOf (widthOf w) ls) = false → (v.core g.core).trackFull = false →
    Goes (.ldGlobal g w) s u coreSide fun t => OnlyCounters v t ∧ GroupAt g t (fun x => Kept [] [] [] c.gr x ∧ GoesOn c.gr x) ∧
      ∃ id l k x, tfind (t.core g.core).loads id = some l ∧ l.guid = c.gr.uid ∧ l.bound = none ∧ l.dest = destOf w (widthOf w) (fSx w) ∧
        l.reads = ls.map (fun y => { lane := y.lane, va := y.va, tgt := y.tr.tgt, width := widthOf w }) ∧
        l.track = some k ∧ tfind (t.core g.core).art k = some x ∧ x.isWrite = false ∧ x.spans = spansOf (widthOf w) ls) ∧
  (∀ s g w c u v ls vs, Issues s g w c u → rowOf w = .ldGlobal → GlobalOk u g c w (widthOf w) .read ls v → ls ≠ [] →
    ls.any (·.tr.mt) = false →
    (forwardOf v g c (widthOf w) ls = .data vs ∨
      (forwardOf v g c (widthOf w) ls = .none ∧ (v.core g.core).trackHit false (spansOf (widthOf w) ls) = false ∧ v.l1On g.core c.la ls = true ∧
        (fMod w / 16 % 4 = 0 ∨ fMod w / 16 % 4 = 2) ∧ (v.core g.core).olderRead (v.core g.core).nextId (spansOf (widthOf w) ls) = false ∧
        (v.core g.core).l1Hits (widthOf w) ls = some vs)) →
    Goes (.ldGlobal g w) s u coreSide fun t => OnlyCounters v t ∧ GroupAt g t fun x =>
      Kept (dRegs w (regsFor (widthOf w)) false) (dRegs w (regsFor (widthOf w)) true) [] c.gr x ∧ GoesOn c.gr x ∧ ReceivedAll c.gr (destOf w (widthOf w) (fSx w)) vs x) ∧
  (∀ s g w c u, Issues s g w c u → rowOf w = .ldGlobal → u.accessWait g c.gr.uid w false = none →
    (∀ e ∈ c.gr.eas w, inClaimPage e.2 = true ∧ e.2 % 4 = 0) → widthOf w = 4 → fD w ≠ 255 →
    Goes (.ldGlobal g w) s u coreSide fun t => OnlyCounters u t ∧ GroupAt g t fun x => LanesOnly w c.gr x ∧ GoesOn c.gr x ∧
      (∀ i e, (c.gr.eas w)[i]? = some e → x.rd e.1 (fDU w) (fD w) 1 = (if c.blk.head + i < c.blk.tail then c.blk.head + i else 0xFFFFFFFF) % 2 ^ 32) ∧
      (t.blockAt g.core c.gr.block).map (fun b => (b.head, b.tail)) =
        some (if c.blk.head < c.blk.tail then min (c.blk.head + (c.gr.eas w).length) c.blk.tail else c.blk.head, c.blk.tail)) ∧
  (∀ s p id l vs gr, okCore p = true → tfind (s.core p).loads id = some l → l.bound = some vs → l.complete = true → l.bad = [] → l.refused = [] →
    (l.remote = true ∨ ∀ x ∈ l.reads, s.reaches l.cut .atomic .readData p x.tgt = true) →
    s.resultGroup p l.guid l.launch l.run l.site = some gr →
    Does (.loadDataReturn p id) s [.free, .cores] fun t => tfind (t.core p).loads id = none ∧
      (∀ k, l.track = some k → tfind (t.core p).art k = none) ∧ GroupAt ⟨p, l.site.sched, l.site.slot⟩ t (ReceivedAll gr l.dest vs)) ∧
  (∀ s p id l gr, okCore p = true → tfind (s.core p).loads id = some l → l.bound = none → l.remote = false →
    (∀ x ∈ l.reads, ∃ a, x.tgt = .hbm a ∧ s.hbmWaits a x.width = false ∧ s.chanRetired (a / 2 ^ 31) = false ∧ s.poisoned a x.width = false) →
    (∀ x ∈ l.reads, s.reaches l.cut .load .readData p x.tgt = true) →
    (∀ k, l.track = some k → (s.core p).olderRead k (l.reads.map fun x => (x.tgt.key, x.width)) = false) →
    s.resultGroup p l.guid l.launch l.run l.site = some gr →
    Does (.loadDataReturn p id) s [.free, .cores] fun t => tfind (t.core p).loads id = none ∧
      GroupAt ⟨p, l.site.sched, l.site.slot⟩ t (ReceivedAll gr l.dest (hbmVals s l.reads)))

/-- The newest entry of a group's store buffer holds these writes; earlier entries, memory and the group's registers are as before, and the group goes on. -/
def Buffered (g : GRef) (c : Ctx) (v t : State) (zl remote : Bool) (ws : List LaneWrite) : Prop :=
  OnlyCounters v t ∧ GroupAt g t (fun x => Kept [] [] [] c.gr x ∧ GoesOn c.gr x) ∧
  ∃ e, sbufOf t g = sbufOf v g ++ [e] ∧ e.guid = c.gr.uid ∧ e.isZl = zl ∧ e.remote = remote ∧ e.writes = ws

/-- Tier 2. Stores to global memory (R126, R206 to R209, R230, R233, R235, R270): a store stands in the store buffer for its lanes, its oldest entry leaves into the tracker and L1, and its release writes exactly those bytes of memory; the entry of a store with EA 0 stays until the array holds them; a push enters its channel or waits, and goes on while its launch runs and is not stopped as hung (R510). -/
def Obligations.GlobalStoresReachMemory : Prop :=
  (∀ s g w c u v ls, Issues s g w c u → rowOf w = .stGlobal → GlobalOk u g c w (widthOf w) .write ls v → ls ≠ [] →
    (∀ e ∈ c.gr.eas w, c.la.inWindows false e.2 (widthOf w) = true) → v.sbufFull g = false →
    Goes (.stGlobal g w) s u coreSide fun t => Buffered g c v t false false
      (ls.map fun x => { lane := x.lane, va := x.va, tgt := x.tr.tgt, data := c.gr.storeData w x.lane (widthOf w), evict := getBits (fMod w) 4 2 == 2 })) ∧
  (∀ s g w c u v ls, Issues s g w c u → rowOf w = .zlGlobal → GlobalOk u g c w 128 .write ls v → ls ≠ [] → ls.any (·.tr.mt) = false →
    (∀ e ∈ c.gr.eas w, c.la.inWindows false e.2 128 = true) → v.sbufFull g = false →
    Goes (.zlGlobal g w) s u coreSide fun t => Buffered g c v t true false
      (ls.map fun x => { lane := x.lane, va := x.va, tgt := x.tr.tgt, data := List.replicate 128 0 })) ∧
  (∀ s g w c u l va ch src dst lg, Issues s g w c u → rowOf w = .stGlobal → u.accessWait g c.gr.uid w false = none → c.gr.eas w = [(l, va)] →
    pushPage va = some ch → va % widthOf w = 0 → u.chanEnt c.la.part ch = some (src, dst, lg) → src = c.la.stage → widthOf w = 16 →
    tget 0 c.la.pushed ch + u.pushesWaiting c.lid ch < 2 ^ lg → c.la.inWindows false va (widthOf w) = true → c.blk.half = false →
    Goes (.stGlobal g w) s u coreSide fun t => GroupAt g t (fun x => Kept [] [] [] c.gr x ∧
      (x.wait = .push ∨ (x.wait = .none ∧ ∃ i, (t.stageChan c.la.part ch).items = (u.stageChan c.la.part ch).items ++ [i] ∧
        i.data = c.gr.storeData w l 16 ∧ i.src = some c.lid)))) ∧
  (∀ s g gr la q, okGroup g = true → s.group? g = some gr → gr.wait = .push → gr.push = some q → s.launch? gr.launch = some la →
    Does (.pushResume g) s [.cores, .launches, .parts] fun t =>
      (la.phase = .running → la.fail = none → la.run = gr.run → la.hung = 0 → gr.stopped = false → GroupAt g t fun x => Kept [] [] [] gr x ∧
        ((s.pushAll (dieOfPhys g.core) la.part gr.launch q.items).1 = [] → x.wait = .none ∧ x.push = none) ∧
        ((s.pushAll (dieOfPhys g.core) la.part gr.launch q.items).1 ≠ [] → x.wait = .push ∧ x.push = some { items := (s.pushAll (dieOfPhys g.core) la.part gr.launch q.items).1 })) ∧
      (la.phase ≠ .running ∨ la.fail ≠ none ∨ la.run ≠ gr.run ∨ la.hung ≠ 0 ∨ gr.stopped = true → t = s)) ∧
  (∀ s g e rest, okGroup g = true → sbufOf s g = e :: rest → e.remote = false → e.strict = false →
    (s.core g.core).trackHit true (e.writes.map fun x => (x.tgt.key, x.data.length)) = false → (s.core g.core).trackFull = false →
    Does (.storeBufferDrain g) s [.cores] fun t => sbufOf t g = rest ∧
      (∃ k x, tfind (t.core g.core).art k = some x ∧ x.isWrite = true ∧ x.writes = e.writes ∧ x.guid = e.guid) ∧
      ∀ lw a line, e.writes = [lw] → lw.tgt = .hbm a → tfind (s.core g.core).l1 (a / 128) = some line →
        tfind (t.core g.core).l1 (a / 128) = some (patchBytes line (a % 128) lw.data)) ∧
  (∀ s p id x lw a, okCore p = true → tfind (s.core p).art id = some x → x.isWrite = true → x.writes = [lw] → lw.tgt = .hbm a →
    s.reaches x.cut .store .acknowledgement p (.hbm a) = true → s.chanRetired (a / 2 ^ 31) = false →
    Does (.trackerRelease p id) s [.free, .out, .mem, .poison, .cores, .launches, .dies, .chans] fun t =>
      (x.sync = [] → tfind (t.core p).art id = none ∧ t.out = s.out) ∧ (x.sync ≠ [] → tfind (t.core p).art id = some { x with writes := [], done := true }) ∧
      (∀ i, i < lw.data.length → mget? t.mem (a + i) = lw.data[i]?) ∧
      (∀ i, i < a ∨ a + lw.data.length ≤ i → mget? t.mem i = mget? s.mem i)) ∧
  (∀ s p id x, okCore p = true → tfind (s.core p).art id = some x → x.isWrite = true → x.writes = [] → x.sync ≠ [] →
    Does (.trackerRelease p id) s [.cores] fun t =>
      (s.arrayWaits x.sync = false → tfind (t.core p).art id = none) ∧ (s.arrayWaits x.sync = true → t = s))

/-- Remote addresses that a core may name (R124, R264, R377, R381). -/
def RemoteOk (u : State) (g : GRef) (c : Ctx) (w : Word64) (n : Nat) (ordered groupOk contribOk : Bool) : Prop :=
  u.accessWait g c.gr.uid w ordered = none ∧ c.gr.eas w ≠ [] ∧ u.domainOf c.la.part ≠ 0 ∧
  ∀ e ∈ c.gr.eas w, e.2 % n = 0 ∧ (isGroupId (rgaDev e.2) = true → groupOk = true ∧ rgaPart e.2 = 0) ∧ (inCollective (rgaVa e.2) = true → contribOk = true)

/-- Tier 2. Remote loads and stores (R126, R127, R134, R250, R353, R371): a read stands outstanding and takes read slots, one for each block of 256 bytes where it names this module, all taken together (the model's reading, log entry 37), a store enters the store buffer, and a final write waits for the commit queue, or is held at its source without pre-emption (how it is held, log entry 73); the group goes on. -/
def Obligations.RemoteAccessesLeaveTheCore : Prop :=
  (∀ s g w c u, Issues s g w c u → rowOf w = .ldRemote → RemoteOk u g c w (widthOf w) false false false → (∀ e ∈ c.gr.eas w, rgaDev e.2 = u.ownId) →
    u.hasSlots (dieOfPhys g.core) (readRuns (widthOf w) (c.gr.eas w)).length true = true →
    Goes (.ldRemote g w) s u coreSide fun t => GroupAt g t (fun x => Kept [] [] [] c.gr x ∧ GoesOn c.gr x) ∧ OnlyCounters u t ∧
      (t.die (dieOfPhys g.core)).reads.length = (u.die (dieOfPhys g.core)).reads.length + (readRuns (widthOf w) (c.gr.eas w)).length ∧
      ∃ id l, tfind (t.core g.core).loads id = some l ∧ l.remote = true ∧ l.guid = c.gr.uid ∧ l.dest = destOf w (widthOf w) (fSx w) ∧ l.bound = some [] ∧
        l.reads = (c.gr.eas w).map fun e => { lane := e.1, va := e.2, tgt := .remote e.2, width := widthOf w }) ∧
  (∀ s g w c u, Issues s g w c u → rowOf w = .ldRemote → RemoteOk u g c w (widthOf w) false false false →
    u.hasSlots (dieOfPhys g.core) (readRuns (widthOf w) (c.gr.eas w)).length true = true →
    Goes (.ldRemote g w) s u (coreSide ++ [.links]) fun t =>
      ∃ x, t.group? g = some x ∧ Kept [] [] [] c.gr x ∧ GoesOn c.gr x ∧ (x.stopped = false → ∃ id l, tfind (t.core g.core).loads id = some l ∧
        l.remote = true ∧ l.guid = c.gr.uid ∧ l.dest = destOf w (widthOf w) (fSx w) ∧ l.bound = some [] ∧
        l.reads = (c.gr.eas w).map fun e => { lane := e.1, va := e.2, tgt := .remote e.2, width := widthOf w })) ∧
  (∀ s g w c u, Issues s g w c u → rowOf w = .stRemote → RemoteOk u g c w (widthOf w) false true true →
    (∀ e ∈ c.gr.eas w, c.la.inWindows true e.2 (widthOf w) = true) → c.blk.half = false → u.sbufFull g = false →
    Goes (.stRemote g w) s u coreSide fun t => Buffered g c u t false true
      ((c.gr.eas w).map fun e => { lane := e.1, va := e.2, tgt := .remote e.2, data := c.gr.storeData w e.1 (widthOf w) })) ∧
  (∀ s g w c u, Issues s g w c u → rowOf w = .stRemoteFinal → RemoteOk u g c w (widthOf w) false true false → c.la.nonpre = false →
    c.blk.half = false → (c.gr.eas w).length ≤ c.la.room →
    Goes (.stRemoteFinal g w) s u coreSide fun t => GroupAt g t (fun x => Kept [] [] [] c.gr x ∧ GoesOn c.gr x) ∧ OnlyCounters u t ∧
      ∃ l, t.launch? c.lid = some l ∧ ∃ es, l.cq = c.la.cq ++ es ∧
        es.map (fun e => (e.kind, e.addr, e.data)) = (c.gr.eas w).map fun e => (1, e.2, c.gr.storeData w e.1 (widthOf w))) ∧
  (∀ s g w c u, Issues s g w c u → rowOf w = .stRemoteFinal → RemoteOk u g c w (widthOf w) false true false → c.la.nonpre = true →
    u.remotePending c.lid (rgaDev ((c.gr.eas w).headD (0, 0)).2) = true → c.la.finals = [] → (c.gr.eas w).length = 1 → widthOf w = 4 →
    Goes (.stRemoteFinal g w) s u (coreSide ++ [.links]) fun t => GroupAt g t (fun x => Kept [] [] [] c.gr x ∧ GoesOn c.gr x) ∧
      ∃ l, t.launch? c.lid = some l ∧ l.finals.map (fun f => (f.core, f.guid, f.msg.typ, f.msg.data)) =
        (c.gr.eas w).map fun e => (g.core, c.gr.uid, mWrf, c.gr.storeData w e.1 4))

/-- Operations deferred to commit (R134 to R136, R345): the launch's commit queue ends with them, the group's registers and memory are as before, and the group goes on. -/
def Deferred (g : GRef) (c : Ctx) (v t : State) (es : List (Nat × Nat × List Byte)) : Prop :=
  GroupAt g t (fun x => Kept [] [] [] c.gr x ∧ GoesOn c.gr x) ∧ OnlyCounters v t ∧
  ∃ l ys, t.launch? c.lid = some l ∧ l.cq = c.la.cq ++ ys ∧ ys.map (fun e => (e.kind, e.addr, e.data)) = es

/-- The instruction raises DEFERRAL (R130, R136 to R138): the group stops where it is, nothing enters the commit queue, and the launch fails with COMMIT_OVERFLOW. -/
def RaisesDeferral (g : GRef) (c : Ctx) (t : State) : Prop :=
  GroupAt g t (fun x => x = { c.gr with stopped := true }) ∧
  ∃ l f, t.launch? c.lid = some l ∧ l.cq = c.la.cq ∧ l.fail = some f ∧ f.status = 11 ∧ f.cause = 0x0C

/-- An atomic or an ll may act at its home slices (R130, R235, R236, R415): no store of its group to those bytes is still buffered, the ring leads there and back, nothing in the tracker holds it back and it has room, and the home slices have the lines. -/
def HomeOk (v : State) (g : GRef) (c : Ctx) (n : Nat) (isWrite : Bool) (ls : List LaneAt) : Prop :=
  v.bufferedHit g c.gr.uid (spansOf n ls) = false ∧ (∀ x ∈ ls, v.reaches v.d2d .atomic .readData g.core x.tr.tgt = true) ∧
  (v.core g.core).trackHit isWrite (spansOf n ls) = false ∧ (v.core g.core).trackFull = false ∧
  (v.core g.core).olderRead (v.core g.core).nextId (spansOf n ls) = false ∧ v.linesHere (ls.map fun x => (x.tr.tgt, n)) = true

/-- The lanes of an atomic translate to `ls`, none of them to an uncorrectable word, and the group may make the access now. -/
def AtomOk (u : State) (g : GRef) (c : Ctx) (w : Word64) (ls : List LaneAt) (v : State) : Prop :=
  u.accessWait g c.gr.uid w true = none ∧ u.translLanes g.core c.la.part (atomWidth w) .write (c.gr.eas w) = ((ls, []), v) ∧ ls ≠ [] ∧
  (∀ x ∈ ls, v.poisonedAt x.tr.tgt (atomWidth w) = false) ∧ (ls.any (·.tr.mt) = true → v.strictPending g c.gr.uid = false) ∧ HomeOk v g c (atomWidth w) true ls

/-- The atomics of lanes on HBM have acted, one lane after another: every byte of HBM is as they leave it, and `os` are the words that they found. -/
def ActedOnHbm (c : Ctx) (w : Word64) (ls : List LaneAt) (v t : State) (os : List (Nat × Nat)) : Prop :=
  ∃ h, AtomsGive (fAtom w) (atomWidth w) (ls.map fun x => (x.lane, (), x.tr.tgt.key, (c.gr.atomB w x.lane).1, (c.gr.atomB w x.lane).2)) (fun _ => v.byte) os h ∧
    ∀ i, t.byte i = h () i

/-- Tier 2. Global and remote atomics (R128 to R130, R134, R136, R235, R236, R239, R353): without pre-emption a global atomic is performed as it issues, lanes in ascending order; the old words of a returning one are bound for its registers, and a posted one only writes. A posted one of a pre-emptible launch is deferred, or raises DEFERRAL where the commit queue has no room for all its lanes; a returning one then raises DEFERRAL. -/
def Obligations.AtomicsActOrAreDeferred : Prop :=
  (∀ s g w c u v ls, Issues s g w c u → rowOf w = .rmwGlobal → atomIsRemote w = false → c.la.nonpre = true → AtomOk u g c w ls v →
    (∀ x ∈ ls, ∃ d, x.tr.tgt = .hbm d) →
    Goes (.rmwGlobal g w) s u (coreSide ++ [.mem, .poison]) fun t => GroupAt g t (fun x => Kept [] [] [] c.gr x ∧ GoesOn c.gr x) ∧
      ∃ os id y, ActedOnHbm c w ls v t os ∧ tfind (t.core g.core).loads id = some y ∧ y.bound = some (os.map fun o => (o.1, leBytes (atomWidth w) o.2)) ∧
        y.dest = destOf w (atomWidth w) false) ∧
  (∀ s g w c u v ls, Issues s g w c u → rowOf w = .rmwPost → atomIsRemote w = false → c.la.nonpre = true → AtomOk u g c w ls v →
    (∀ x ∈ ls, ∃ d, x.tr.tgt = .hbm d) →
    Goes (.rmwPost g w) s u (coreSide ++ [.mem, .poison]) fun t => GroupAt g t (fun x => Kept [] [] [] c.gr x ∧ GoesOn c.gr x) ∧
      (∃ os, ActedOnHbm c w ls v t os) ∧ (t.core g.core).loads = (v.core g.core).loads) ∧
  (∀ s g w c u v ls, Issues s g w c u → rowOf w = .rmwGlobal → atomIsRemote w = false → c.la.nonpre = true → AtomOk u g c w ls v →
    Goes (.rmwGlobal g w) s u (coreSide ++ [.out, .mem, .poison]) fun t => GroupAt g t (fun x => Kept [] [] [] c.gr x ∧ GoesOn c.gr x) ∧
      ∃ id y, tfind (t.core g.core).loads id = some y ∧ y.dest = destOf w (atomWidth w) false ∧ y.bound.isSome = true) ∧
  (∀ s g w c u, Issues s g w c u → rowOf w = .rmwGlobal → atomIsRemote w = true → c.la.nonpre = true → RemoteOk u g c w (atomWidth w) true false false →
    u.hasSlots (dieOfPhys g.core) (c.gr.eas w).length true = true →
    Goes (.rmwGlobal g w) s u (coreSide ++ [.links]) fun t => ∃ x, t.group? g = some x ∧ Kept [] [] [] c.gr x ∧ GoesOn c.gr x ∧
      (x.stopped = false → ∃ id y, tfind (t.core g.core).loads id = some y ∧ y.remote = true ∧ y.dest = destOf w (atomWidth w) false)) ∧
  (∀ s g w c u, Issues s g w c u → rowOf w = .rmwPost → atomIsRemote w = true → c.la.nonpre = true → RemoteOk u g c w (atomWidth w) true false false →
    u.hasSlots (dieOfPhys g.core) (c.gr.eas w).length false = true →
    Goes (.rmwPost g w) s u (coreSide ++ [.links]) fun t => ∃ x, t.group? g = some x ∧ Kept [] [] [] c.gr x ∧ GoesOn c.gr x) ∧
  (∀ s g w c u v ls, Issues s g w c u → rowOf w = .rmwPost → atomIsRemote w = false → c.la.nonpre = false → c.blk.half = false →
    u.accessWait g c.gr.uid w false = none → u.translLanes g.core c.la.part (atomWidth w) .write (c.gr.eas w) = ((ls, []), v) →
    (c.gr.eas w).length ≤ c.la.room →
    Goes (.rmwPost g w) s u coreSide fun t => Deferred g c v t ((c.gr.eas w).map fun e => (2, e.2, leBytes (atomWidth w) (c.gr.atomB w e.1).1))) ∧
  (∀ s g w c u, Issues s g w c u → rowOf w = .rmwPost → atomIsRemote w = true → c.la.nonpre = false → c.blk.half = false →
    RemoteOk u g c w (atomWidth w) false false false → (c.gr.eas w).length ≤ c.la.room →
    Goes (.rmwPost g w) s u coreSide fun t => Deferred g c u t ((c.gr.eas w).map fun e => (3, e.2, leBytes (atomWidth w) (c.gr.atomB w e.1).1))) ∧
  (∀ s g w c u v ls, Issues s g w c u → rowOf w = .rmwPost → atomIsRemote w = false → c.la.nonpre = false → c.blk.half = false →
    u.accessWait g c.gr.uid w false = none → u.translLanes g.core c.la.part (atomWidth w) .write (c.gr.eas w) = ((ls, []), v) →
    c.la.room < (c.gr.eas w).length →
    Goes (.rmwPost g w) s u coreSide fun t => RaisesDeferral g c t) ∧
  (∀ s g w c u v l a x, Issues s g w c u → rowOf w = .rmwGlobal → atomIsRemote w = false → c.la.nonpre = false →
    u.accessWait g c.gr.uid w true = none → c.gr.eas w = [(l, a)] → u.translLanes g.core c.la.part (atomWidth w) .write [(l, a)] = (([x], []), v) →
    Goes (.rmwGlobal g w) s u coreSide fun t => RaisesDeferral g c t) ∧
  (∀ s g w c u, Issues s g w c u → rowOf w = .rmwGlobal → atomIsRemote w = true → c.la.nonpre = false → c.gr.eas w ≠ [] →
    RemoteOk u g c w (atomWidth w) true false false →
    Goes (.rmwGlobal g w) s u coreSide fun t => RaisesDeferral g c t)

/-- Tier 2. ll and sc on local store (R131): ll leaves a reservation on the granule; sc always clears it, and stores, with a true predicate, only where it was intact. -/
def ReservationsDecideSc : Prop :=
  (∀ s g w c u l a, Issues s g w c u → rowOf w = .ll → fSub w = 0 → fOrder w = 0 → LocalOk u g c w (widthOf w) false true → c.gr.eas w = [(l, a)] →
    Goes (.ll g w) s u [.regs, .cores, .launches] fun t => OnlyCounters u t ∧ OnlyGroup g u t ∧ GroupAt g t fun x => LanesOnly w c.gr x ∧ GoesOn c.gr x ∧
      tfind x.resv l = some { isLocal := true, granule := a / c.la.granule, size := c.la.granule } ∧
      (fD w ≠ 255 → x.rd l (fDU w) (fD w) (regsFor (widthOf w)) = leNat (c.blk.bytes a (widthOf w)) % 2 ^ (32 * regsFor (widthOf w)))) ∧
  (∀ s g w c u v l a x, Issues s g w c u → rowOf w = .ll → fSub w = 2 → fOrder w = 0 → c.la.nonpre = true → u.accessWait g c.gr.uid w true = none →
    c.gr.eas w = [(l, a)] → u.translLanes g.core c.la.part (widthOf w) .read [(l, a)] = (([x], []), v) → x.tr.mt = false →
    v.poisonedAt x.tr.tgt (widthOf w) = false → HomeOk v g c (widthOf w) false [x] →
    Goes (.ll g w) s u (coreSide ++ [.out]) fun t => GroupAt g t fun y =>
      tfind y.resv x.lane = some { isLocal := false, granule := x.tr.tgt.key / c.la.granule, size := c.la.granule } ∧ Kept [] [] [] c.gr y ∧ GoesOn c.gr y) ∧
  (∀ s g w c u l a, Issues s g w c u → rowOf w = .sc → fSub w = 1 → fOrder w = 0 → LocalOk u g c w (widthOf w) true true → c.gr.eas w = [(l, a)] → fD w ≠ 255 →
    Goes (.sc g w) s u [.regs, .cores, .launches, .free] fun t => OnlyCounters u t ∧
      LsOutside g.core c.gr.block (widthOf w) [(l, a)] u t ∧ GroupAt g t fun x => tfind x.resv l = none ∧ Kept [] [] [fD w] c.gr x ∧ GoesOn c.gr x ∧
      (∀ r, tfind c.gr.resv l = some r → r.isLocal = true → r.granule = a / c.la.granule →
        x.pr l (fD w) = true ∧ t.lsRead g.core c.gr.block a (widthOf w) = c.gr.storeData w l (widthOf w)) ∧
      (tfind c.gr.resv l = none → x.pr l (fD w) = false ∧ t.lsRead g.core c.gr.block a (widthOf w) = u.lsRead g.core c.gr.block a (widthOf w))) ∧
  (∀ s g w c u v l a x d, Issues s g w c u → rowOf w = .sc → fSub w = 3 → fOrder w = 0 → c.la.nonpre = true → u.accessWait g c.gr.uid w true = none →
    c.gr.eas w = [(l, a)] → u.translLanes g.core c.la.part (widthOf w) .write [(l, a)] = (([x], []), v) → x.tr.mt = false → x.tr.tgt = .hbm d → fD w ≠ 255 → v.reaches v.d2d .atomic .acknowledgement g.core (.hbm d) = true →
    v.bufferedHit g c.gr.uid (spansOf (widthOf w) [x]) = false → (v.core g.core).trackHit true (spansOf (widthOf w) [x]) = false → (v.core g.core).trackFull = false →
    Goes (.sc g w) s u (coreSide ++ [.mem, .poison]) fun t => GroupAt g t fun y => tfind y.resv x.lane = none ∧ Kept [] [] [fD w] c.gr y ∧ GoesOn c.gr y ∧
      (∀ r, tfind c.gr.resv x.lane = some r → r.isLocal = false → r.granule = d / c.la.granule →
        y.pr x.lane (fD w) = true ∧ t.bytes d (widthOf w) = c.gr.storeData w x.lane (widthOf w)) ∧
      (tfind c.gr.resv x.lane = none → y.pr x.lane (fD w) = false ∧ t.mem = v.mem))

/-- Tier 2. ev.rec and sem.rel (R134, R135, R309, R310, R313, R353): deferred by a pre-emptible launch; performed as they issue without pre-emption, an event record as a maximum and a release as a saturating addition. -/
def RecordsAndReleases : Prop :=
  (∀ s g w c u v a, Issues s g w c u → rowOf w = .evRec → c.la.nonpre = false → c.blk.half = false → u.accessWait g c.gr.uid w false = none →
    u.eventWord c.la.part (c.gr.rd 0 true (fA w) 2) (.core g.core) = (.ok a, v) → 1 ≤ c.la.room →
    Goes (.evRec g w) s u coreSide fun t => Deferred g c v t [(4, c.gr.rd 0 true (fA w) 2, leBytes 8 (c.gr.rd 0 true (fB w) 2 % 2 ^ 63))]) ∧
  (∀ s g w c u v a, Issues s g w c u → rowOf w = .evRec → c.la.nonpre = true → u.accessWait g c.gr.uid w false = none →
    u.eventWord c.la.part (c.gr.rd 0 true (fA w) 2) (.core g.core) = (.ok a, v) → v.poisoned a 8 = false →
    HomeOk v g c 8 true [{ lane := c.gr.low, va := c.gr.rd 0 true (fA w) 2, tr := { tgt := .hbm a, mt := false, ea := false, w := true } }] →
    Goes (.evRec g w) s u (coreSide ++ [.mem, .poison]) fun t => GroupAt g t (fun x => Kept [] [] [] c.gr x ∧ GoesOn c.gr x) ∧
      leNat (t.bytes a 8) = max (leNat (v.bytes a 8)) (c.gr.rd 0 true (fB w) 2 % 2 ^ 63) ∧
      ∀ i, i < a ∨ a + 8 ≤ i → mget? t.mem i = mget? v.mem i) ∧
  (∀ s g w c u, Issues s g w c u → rowOf w = .semRel → c.la.nonpre = false → c.blk.half = false → u.accessWait g c.gr.uid w false = none →
    c.gr.rd 0 true (fA w) 1 < 4096 → 1 ≤ c.la.room →
    Goes (.semRel g w) s u coreSide fun t => Deferred g c u t [(5, c.gr.rd 0 true (fA w) 1, leBytes 4 (c.gr.rd 0 true (fB w) 1))]) ∧
  (∀ s g w c u, Issues s g w c u → rowOf w = .semRel → c.la.nonpre = true → u.accessWait g c.gr.uid w false = none →
    c.gr.rd 0 true (fA w) 1 < 4096 → (u.sem c.la.part (c.gr.rd 0 true (fA w) 1)).waiters = [] →
    Goes (.semRel g w) s u [.regs, .cores, .launches, .parts] fun t => GroupAt g t (fun x => Kept [] [] [] c.gr x ∧ GoesOn c.gr x) ∧
      (t.sem c.la.part (c.gr.rd 0 true (fA w) 1)).count = min ((u.sem c.la.part (c.gr.rd 0 true (fA w) 1)).count + c.gr.rd 0 true (fB w) 1) 0xFFFFFFFF)

/-- Tier 2. Reservations, event records and semaphore releases of a kernel. -/
def Obligations.ReservationsRecordsAndReleases : Prop := ReservationsDecideSc ∧ RecordsAndReleases

/-! The matrix unit. -/

/-- The unit, but for the scheduler it granted last and what it shows of its array and its drain reader (R166, R176). -/
def unitOnly (x : Mx) : Mx := { x with granted := 0, array := none, reader := none }

/-- An operation is accepted (R166, R167): the queue ends with it; handles, tiles, buffer, fills and drains are as before, and so are the group's registers; the group goes on. -/
def Accepted (g : GRef) (c : Ctx) (u t : State) (op : MxOp) : Prop :=
  GroupAt g t (fun x => Kept [] [] [] c.gr x ∧ GoesOn c.gr x) ∧ OnlyCounters u t ∧
  ∃ e st, e.op = op ∧ e.guid = c.gr.uid ∧ unitOnly (t.mx g.core) = unitOnly { u.mx g.core with queue := (u.mx g.core).queue ++ [e], accStat := st }

/-- The same of an operation that holds a tracker entry over the bytes `sp` that it will write (R179, R235). -/
def AcceptedTracked (g : GRef) (c : Ctx) (u t : State) (sp : List (Nat × Nat)) (op : Nat → MxOp) : Prop :=
  GroupAt g t (fun x => Kept [] [] [] c.gr x ∧ GoesOn c.gr x) ∧ OnlyCounters u t ∧
  ∃ id x, (t.mx g.core).queue.map (·.op) = (u.mx g.core).queue.map (·.op) ++ [op id] ∧ tfind (t.core g.core).art id = some x ∧ x.isWrite = true ∧ x.spans = sp

/-- Tier 2. Tile handles and acceptance into the matrix queue (R147, R153, R155, R157 to R160, R162, R164, R166 to R168, R179): a matrix instruction whose checks hold enters the queue in order and does nothing else yet, a drain to memory with a tracker entry over the bytes it will write; a descriptor becomes its handle; the first matrix instruction of a block takes a free unit with handles and tiles cleared; the unit grants the schedulers in turn, and one whose turn has not come waits (the round, and the readiness that is free, log entry 70). -/
def Obligations.MatrixInstructionsAreAccepted : Prop :=
  (∀ s g w c u, Issues s g w c u → rowOf w = .mxHdl → (u.mx g.core).owner = some c.gr.block → fD w ≠ 255 →
    descOk (c.gr.rd 0 true (fD w) 2) = true → (u.mx g.core).unused (mHa w) = true →
    (∀ e ∈ (u.mx g.core).handles, e.1 ≠ mHa w → overlaps e.2.base e.2.size (handleOf (c.gr.rd 0 true (fD w) 2)).base (handleOf (c.gr.rd 0 true (fD w) 2)).size = false) →
    Goes (.mxHdl g w) s u [.regs, .cores, .launches] fun t => GroupAt g t (Kept [] [] [] c.gr) ∧ OnlyCounters u t ∧
      tfind (t.mx g.core).handles (mHa w) = some (handleOf (c.gr.rd 0 true (fD w) 2)) ∧
      unitOnly (t.mx g.core) = unitOnly { u.mx g.core with handles := tset (u.mx g.core).handles (mHa w) (handleOf (c.gr.rd 0 true (fD w) 2)) }) ∧
  (∀ s g w c u, Issues s g w c u → rowOf w = .mxHdl → (u.mx g.core).owner = some c.gr.block → fD w = 255 → (u.mx g.core).unused (mHa w) = true →
    Goes (.mxHdl g w) s u [.regs, .cores, .launches] fun t => tfind (t.mx g.core).handles (mHa w) = none ∧
      ∀ h, h ≠ mHa w → tfind (t.mx g.core).handles h = tfind (u.mx g.core).handles h) ∧
  (∀ s g w c u k, Issues s g w c u → rowOf w = .mxLdb → MxOwn u g c → tfind (u.mx g.core).handles (mHa w) = some k → k.kind = 1 →
    c.gr.regOr (fA w) 1 0 + getBits (mImm w) 0 12 < k.images → (u.mx g.core).resident (mHa w) = true →
    Goes (.mxLdb g w) s u [.regs, .cores, .launches] fun t =>
      Accepted g c u t (.ldb (mHa w) (c.gr.regOr (fA w) 1 0 + getBits (mImm w) 0 12)) ∧ (t.mx g.core).accStat = some (k.fmt, k.scaled)) ∧
  (∀ s g w c u k f, Issues s g w c u → rowOf w = .mxMma → MxOwn u g c → tfind (u.mx g.core).handles (mHa w) = some k → k.kind = 0 →
    (u.mx g.core).statFmt = some f → mxClass f.1 = mxClass k.fmt → (u.mx g.core).resident (mHa w) = true →
    getBits (mImm w) 5 5 + getBits (mImm w) 0 5 + 1 ≤ 32 → c.gr.regOr (fD w) 1 0 + getBits (mImm w) 0 5 + 1 ≤ k.rows →
    c.gr.regOr (fA w) 1 0 + getBits (mImm w) 10 12 < k.pitch →
    Goes (.mxMma g w) s u [.regs, .cores, .launches] fun t =>
      Accepted g c u t (.mma (mHa w) (c.gr.regOr (fD w) 1 0) (c.gr.regOr (fA w) 1 0 + getBits (mImm w) 10 12) (getBits (mImm w) 0 5 + 1) (getBits (mImm w) 5 5) (mAcc w))) ∧
  (∀ s g w c u, Issues s g w c u → rowOf w = .mxClr → MxOwn u g c →
    Goes (.mxClr g w) s u [.regs, .cores, .launches] fun t => ∃ a, Accepted g c u t (.clr (mAcc w) a) ∧
      (fD w = 255 → getBits (mImm w) 10 1 = 1 → a = none) ∧ (fD w = 255 → getBits (mImm w) 10 1 = 0 → a = some (signedOf 10 (getBits (mImm w) 0 10))) ∧
      (fD w ≠ 255 → a = some (sx 10 (c.gr.rd 0 true (fD w) 1 % 2 ^ 10)))) ∧
  (∀ s g w c u k, Issues s g w c u → rowOf w = .mxAddraw → MxOwn u g c → tfind (u.mx g.core).handles (mHa w) = some k → k.kind = 2 →
    c.gr.regOr (fA w) 1 0 + getBits (mImm w) 0 12 < k.images → (u.mx g.core).resident (mHa w) = true →
    Goes (.mxAddraw g w) s u [.regs, .cores, .launches] fun t =>
      Accepted g c u t (.addraw (mHa w) (c.gr.regOr (fA w) 1 0 + getBits (mImm w) 0 12) (mAcc w))) ∧
  (∀ s g w c u, Issues s g w c u → rowOf w = .mxStat → MxOwn u g c →
    Goes (.mxStat g w) s u [.regs, .cores, .launches] fun t => Accepted g c u t (.stat (mAcc w) (fD w))) ∧
  (∀ s g w c u k, Issues s g w c u → rowOf w = .mxDrain → MxOwn u g c → getBits (mImm w) 4 2 = 2 → getBits (mImm w) 0 3 ≠ 6 → getBits (mImm w) 3 1 = 0 →
    tfind (u.mx g.core).handles (mHa w) = some k → k.kind = 0 → k.scaled = false → drainHandleFmt (getBits (mImm w) 0 3) = some k.fmt →
    c.gr.rd 0 true (fD w) 1 + 31 * k.pitch + drainRowUnits (getBits (mImm w) 0 3) ≤ k.size → (u.mx g.core).unused (mHa w) = true →
    Goes (.mxDrain g w) s u [.regs, .cores, .launches] fun t => ∃ stride,
      Accepted g c u t (.drain (mAcc w) (getBits (mImm w) 0 3) false 2 (mHa w) (c.gr.rd 0 true (fD w) 1) stride (getBits (mImm w) 6 1 == 1) none)) ∧
  (∀ s g w c u, Issues s g w c u → rowOf w = .mxDrain → MxOwn u g c → getBits (mImm w) 4 2 = 1 → getBits (mImm w) 0 3 = 6 → getBits (mImm w) 3 1 = 0 →
    c.gr.rd 0 true (fD w) 1 % 32 = 0 → fA w = 255 → c.gr.rd 0 true (fD w) 1 + rawBytes ≤ c.blk.lsBytes →
    u.accessWait g c.gr.uid w false = none → u.sbufHit g c.gr.uid [(localKey c.gr.block (c.gr.rd 0 true (fD w) 1), rawBytes)] = false → (u.core g.core).trackFull = false →
    (u.core g.core).trackHit true [(localKey c.gr.block (c.gr.rd 0 true (fD w) 1), rawBytes)] = false →
    Goes (.mxDrain g w) s u [.regs, .cores, .launches] fun t => ∃ stride,
      AcceptedTracked g c u t [(localKey c.gr.block (c.gr.rd 0 true (fD w) 1), rawBytes)]
        fun id => .drain (mAcc w) 6 false 1 0 (c.gr.rd 0 true (fD w) 1) stride (getBits (mImm w) 6 1 == 1) (some id)) ∧
  (∀ s g w c u v sp ext lo hi (addr stride : Nat), Issues s g w c u → rowOf w = .mxDrain → MxOwn u g c → getBits (mImm w) 4 2 = 0 →
    (getBits (mImm w) 3 1 = 0 ∨ getBits (mImm w) 0 3 = 3 ∨ getBits (mImm w) 0 3 = 4) → addr = c.gr.rd 0 true (fD w) 2 →
    stride = (if fA w = 255 then 64 * drainSize (getBits (mImm w) 0 3) else c.gr.rd 0 true (fA w) 1) → addr % 32 = 0 → stride % 32 = 0 →
    ext = drainExtents (getBits (mImm w) 0 3) 32 addr stride → extentSpan ext = (lo, hi) → c.la.covers lo hi = true →
    u.spansRows g.core c.la.part .write (ext.map fun e => (e.1.toNat, e.2)) = (sp, v) → u.accessWait g c.gr.uid w false = none →
    u.sbufHit g c.gr.uid sp = false → (v.core g.core).trackFull = false → (v.core g.core).trackHit true sp = false →
    Goes (.mxDrain g w) s u coreSide fun t =>
      AcceptedTracked g c v t sp fun id => .drain (mAcc w) (getBits (mImm w) 0 3) (getBits (mImm w) 3 1 == 1) 0 0 addr stride (getBits (mImm w) 6 1 == 1) (some id)) ∧
  (∀ s g w c u, Issues s g w c u → rowOf w = .mxClr → (u.mx g.core).owner = none →
    Goes (.mxClr g w) s u [.free, .regs, .cores, .launches] fun t => (t.mx g.core).owner = some c.gr.block ∧ (t.mx g.core).handles = [] ∧
      (t.mx g.core).tiles = [] ∧ (t.mx g.core).queue.length = 1 ∧
      ((u.mx g.core).lastRun = some (c.lid, c.gr.run) → (t.mx g.core).buf = (u.mx g.core).buf ∧ (t.mx g.core).stat = (u.mx g.core).stat) ∧
      ((u.mx g.core).lastRun ≠ some (c.lid, c.gr.run) → (t.mx g.core).stat = none)) ∧
  (∀ s g w c u o, Issues s g w c u → rowOf w = .mxClr → (u.mx g.core).owner = some o → o ≠ c.gr.block →
    Goes (.mxClr g w) s u [.regs, .cores] fun t => c.gr.block ∈ (t.mx g.core).waiters ∧ Pending g t ∧
      GroupAt g t fun x => x = { c.gr with wait := .residency, need := .unit [] [] none }) ∧
  (∀ s g w c u, Issues s g w c u → rowOf w = .mxStat → MxOwn u g c → s.acts g w = true →
    Goes (.mxStat g w) s u [.regs, .cores, .launches] fun t => (t.mx g.core).granted = g.sched) ∧
  (∀ s g w c k h v, okGroup g = true → rowOf w = .mxStat → s.issueCtx g = some c → s.acts g w = true → k < 4 → h ∈ ((s.core g.core).sched k).active →
    s.nextWord ⟨g.core, k, h⟩ = some v → isMx v = true → s.acts ⟨g.core, k, h⟩ v = true → turnOf 4 (s.mx g.core).granted k < turnOf 4 (s.mx g.core).granted g.sched →
    Does (.mxStat g w) s [.free, .out, .regs, .cores, .launches, .parts, .dies, .chans] fun t => Config.canIssue g.core k h s.now = true → t = s)

/-- The fill that an mx.fill of units `[first, first + count)` leaves outstanding, and its tracker entry (R156, R235). -/
def FillStands (g : GRef) (c : Ctx) (w : Word64) (isLocal : Bool) (count src : Nat) (sp : List (Nat × Nat)) (t : State) : Prop :=
  ∃ id f k x, tfind (t.mx g.core).fills id = some f ∧ f.h = mHa w ∧ f.unit0 = getBits (c.gr.rd 0 true (fA w) 2) 0 13 ∧ f.count = count ∧
    f.isLocal = isLocal ∧ f.src = src ∧ f.stride = 0 ∧ f.guid = c.gr.uid ∧ f.track = some k ∧ tfind (t.core g.core).art k = some x ∧
    x.isWrite = false ∧ x.spans = sp

/-- Tier 2. Fills (R156, R169, R178, R179, R235): a fill stands outstanding with its tracker entry; its end puts its bytes into the operand buffer and nothing else there, makes its handle resident and frees the entry. -/
def Obligations.FillsReachTheOperandBuffer : Prop :=
  (∀ s g w c u k src count sp, Issues s g w c u → rowOf w = .mxFill → (u.mx g.core).owner = some c.gr.block → tfind (u.mx g.core).handles (mHa w) = some k →
    getBits (mImm w) 0 1 = 1 → src = c.gr.rd 0 true (fD w) 1 → src % 32 = 0 → c.gr.rd 0 true (fA w) 2 / 2 ^ 32 = 0 →
    count = getBits (c.gr.rd 0 true (fA w) 2) 13 13 + 1 → getBits (c.gr.rd 0 true (fA w) 2) 0 13 + count ≤ k.size → src + 32 * count ≤ c.blk.lsBytes →
    sp = [(localKey c.gr.block src, 32 * count)] → u.accessWait g c.gr.uid w false = none → (u.mx g.core).fills.length < 4 → u.sbufHit g c.gr.uid sp = false → (u.mx g.core).unused (mHa w) = true →
    (u.core g.core).trackFull = false → (u.core g.core).trackHit false sp = false →
    Goes (.mxFill g w) s u [.regs, .cores, .launches] fun t => GroupAt g t (fun x => Kept [] [] [] c.gr x ∧ GoesOn c.gr x) ∧ OnlyCounters u t ∧ FillStands g c w true count src sp t) ∧
  (∀ s g w c u v k src count sp, Issues s g w c u → rowOf w = .mxFill → (u.mx g.core).owner = some c.gr.block → tfind (u.mx g.core).handles (mHa w) = some k →
    getBits (mImm w) 0 1 = 0 → src = c.gr.rd 0 true (fD w) 2 → src % 32 = 0 → c.gr.rd 0 true (fA w) 2 / 2 ^ 32 = 0 →
    count = getBits (c.gr.rd 0 true (fA w) 2) 13 13 + 1 → getBits (c.gr.rd 0 true (fA w) 2) 0 13 + count ≤ k.size →
    u.spansRows g.core c.la.part .read [(intBits 64 src, 32 * count)] = (sp, v) → u.accessWait g c.gr.uid w false = none → (u.mx g.core).fills.length < 4 → u.sbufHit g c.gr.uid sp = false →
    (u.mx g.core).unused (mHa w) = true → (v.core g.core).trackFull = false → (v.core g.core).trackHit false sp = false →
    Goes (.mxFill g w) s u coreSide fun t => GroupAt g t (fun x => Kept [] [] [] c.gr x ∧ GoesOn c.gr x) ∧ OnlyCounters u t ∧ FillStands g c w false count src sp t) ∧
  (∀ s p id f slot b k la v bs, okCore p = true → tfind (s.mx p).fills id = some f → (s.mx p).owner = some slot → s.blockAt p slot = some b →
    tfind (s.mx p).handles f.h = some k → s.launch? b.launch = some la → f.stride = 0 →
    (f.isLocal = true ∨ ∀ k x, f.track = some k → tfind (s.core p).art k = some x →
      s.linesWait x.spans = false ∧ s.spansReach f.cut .load .readData p x.spans = true ∧ (s.core p).olderRead k x.spans = false) →
    s.fillData la.part p slot f.site.lane f.isLocal [(f.unit0, (f.src : Int), 32 * f.count)] = (.ok [(f.unit0, bs)], v) → bs.length = 32 * f.count →
    Does (.mxFillComplete p id) s [.free, .out, .cores, .parts] fun t => tfind (t.mx p).fills id = none ∧
      (∀ i, i < 32 * f.count → (t.mx p).byte (32 * (k.base + f.unit0) + i) = bs.getD i 0) ∧
      (∀ i, i < 32 * (k.base + f.unit0) ∨ 32 * (k.base + f.unit0) + 32 * f.count ≤ i → (t.mx p).byte i = (s.mx p).byte i) ∧
      (t.mx p).handles = (s.mx p).handles ∧ (t.mx p).tiles = (s.mx p).tiles ∧ (t.mx p).queue = (s.mx p).queue ∧
      (∀ n, f.track = some n → (∀ e ∈ (s.mx p).drains, e.2.track ≠ some n) → (∀ y, (s.mx p).nest = some y → y.track ≠ some n) →
        tfind (t.core p).art n = none))

/-- The oldest entry of core `p`'s matrix queue may start: its launch has not failed, and nothing holds its resources (R170). -/
def Startable (s : State) (p slot : Nat) (b : Block) (la : Launch) (e : MxEntry) (rest : List MxEntry) : Prop :=
  okCore p = true ∧ (s.mx p).queue = e :: rest ∧ (s.mx p).owner = some slot ∧ s.blockAt p slot = some b ∧ s.launch? b.launch = some la ∧
  la.fail = none ∧ la.hung = 0 ∧ (s.mx p).nestBlocks e.op = false

/-- Adding c × 2^e to an entry at anchor `a` (R48, R51): what is below the unit is cut toward zero and noted as INEXACT; an entry with SAT stays; a sum outside the window becomes the end of its range, with SAT and OVF; any other sum is exact. `r` is the entry and `st` the status bits afterwards. -/
def AnchoredGives (a : Int) (en : Entry) (c e : Int) (r : Entry) (st : BitVec 8) : Prop :=
  ∃ v : Int, (a - 96 ≤ e → v = c * 2 ^ (e - (a - 96)).toNat ∧ st.getLsbD 0 = false) ∧
    (e < a - 96 → (v.natAbs * 2 ^ (a - 96 - e).toNat ≤ c.natAbs ∧ c.natAbs < (v.natAbs + 1) * 2 ^ (a - 96 - e).toNat) ∧ (v ≠ 0 → v.sign = c.sign) ∧
      st.getLsbD 0 = decide (v.natAbs * 2 ^ (a - 96 - e).toNat ≠ c.natAbs)) ∧
    (en.hidden.getLsbD 0 = true → r = en ∧ st.getLsbD 1 = false) ∧
    (en.hidden.getLsbD 0 = false →
      (en.n + v < -2 ^ 127 → r = { n := -2 ^ 127, hidden := en.hidden ||| 1 } ∧ st.getLsbD 1 = true) ∧
      (2 ^ 127 ≤ en.n + v → r = { n := 2 ^ 127 - 1, hidden := en.hidden ||| 1 } ∧ st.getLsbD 1 = true) ∧
      (-2 ^ 127 ≤ en.n + v → en.n + v < 2 ^ 127 → r = { n := en.n + v, hidden := en.hidden } ∧ st.getLsbD 1 = false)) ∧
    ∀ i, 2 ≤ i → st.getLsbD i = false

/-- K-block `b` of a beat: what A row `row`, K-step `ks` and the stationary tile's column `n` give (R47, R59, R60, R148, R149), and its unit as a power of two. -/
def beatBlock (x : Mx) (k : Handle) (st : Stationary) (fa fb : ElemFmt) (row ks n b : Nat) : Contribution :=
  kblock (x.aScale k row ks b == 255 || st.scale n b == 255)
    ((List.range (if fa.bits = 16 then 16 else 32)).map fun q =>
      ((x.aVector k fa row ks).getD ((if fa.bits = 16 then 16 else 32) * b + q) .nan, st.elem fb ((if fa.bits = 16 then 16 else 32) * b + q) n))
def beatUnit (x : Mx) (k : Handle) (st : Stationary) (fa fb : ElemFmt) (row ks n b : Nat) : Int :=
  unitOf fa k.scaled + unitOf fb st.scaled + x.aScale k row ks b + st.scale n b - 254

/-- An entry as a tile holds it: 128 bits. -/
def held (e : Entry) : Entry := { n := (BitVec.ofInt 128 e.n).toInt, hidden := e.hidden }

/-- `m` rows of products are added into a tile's rows from `r0` on (R47, R142, R158): each entry takes the contribution of each K-block of the beat, one for most formats and two for FP4 and INT4; other rows and the anchor stay. -/
def RowsMultiplied (x : Mx) (k : Handle) (st : Stationary) (fa fb : ElemFmt) (row0 ks m r0 : Nat) (old new : Tile) : Prop :=
  new.anchor = old.anchor ∧ new.defPend = old.defPend ∧ (∀ r n, r < r0 ∨ r0 + m ≤ r → n < 64 → new.entry r n = old.entry r n) ∧
  ∀ j n y z, j < m → n < 64 →
    y = addKblock old.anchor (old.entry (r0 + j) n) (beatBlock x k st fa fb (row0 + j) ks n 0) (beatUnit x k st fa fb (row0 + j) ks n 0) →
    (kblocksPerBeat k.fmt = 1 → z = y) →
    (kblocksPerBeat k.fmt = 2 → z = addKblock old.anchor (held y.1) (beatBlock x k st fa fb (row0 + j) ks n 1) (beatUnit x k st fa fb (row0 + j) ks n 1)) →
    new.entry (r0 + j) n = held z.1 ∧ new.status &&& (old.status ||| y.2 ||| z.2) = old.status ||| y.2 ||| z.2

/-- What a K-block is and adds (R47, R50, R51, R60): of finite elements the exact sum of the products; the sum by the rule of R51, and the states that infinities and NaNs leave beside it. -/
def KblockRules : Prop :=
  (∀ xs : List (Int × Int), kblock false (xs.map fun q => (.val q.1, .val q.2)) = { sum := (xs.map fun q => q.1 * q.2).sum }) ∧
  (∀ a en (k : Contribution) e, ∃ r st, AnchoredGives a en k.sum e r st ∧ (addKblock a en k e).1.n = r.n ∧
    (∀ i, i < 4 → (addKblock a en k e).1.hidden.getLsbD i = (r.hidden.getLsbD i || (i == 1 && k.nan) || (i == 2 && k.pinf) || (i == 3 && k.ninf))) ∧
    ∀ i, i < 8 → (addKblock a en k e).2.getLsbD i = (st.getLsbD i || (i == 2 && k.nan) || (i == 3 && k.pinf) || (i == 4 && k.ninf)))

/-- A raw image of anchor `a` has been added into a tile (R51, R52, R150, R153): each entry takes the value that the image holds for it; the image's status bits join the tile's, and where they name an infinity or NaN every entry is in NaN state. -/
def RawAdded (bs : List Byte) (a : Int) (old new : Tile) : Prop :=
  ∃ (x : Nat → Entry) (st : Nat → BitVec 8) (special : Bool),
    special = ((bs.getD 32770 0).getLsbD 2 || (bs.getD 32770 0).getLsbD 3 || (bs.getD 32770 0).getLsbD 4) ∧
    (∀ q, q < 2048 → AnchoredGives (old.anchored a).anchor ((old.anchored a).entry (q / 64) (q % 64)) (sx 128 (numAt bs (16 * q) 16)) (a - 96) (x q) (st q)) ∧
    new.anchor = (old.anchored a).anchor ∧ new.defPend = false ∧
    (∀ q, q < 2048 → new.entry (q / 64) (q % 64) = { n := (x q).n, hidden := if special then (x q).hidden ||| 2 else (x q).hidden }) ∧
    ∀ i, i < 8 → new.status.getLsbD i = (old.status.getLsbD i || (decide (i < 5) && (bs.getD 32770 0).getLsbD i) || (i == 2 && special) || (List.range 2048).any fun q => (st q).getLsbD i)

/-- Tier 2. Matrix entries take effect in order (R47, R50 to R52, R55, R60, R142, R145, R149, R150, R153, R157 to R160, R170, R171): mx.ldb loads the stationary tile, mx.clr clears a tile, mx.mma adds each product row into its tile row, the one K-block of a beat or the two of FP4 and INT4, and leaves other rows, tiles and the buffer, mx.addraw adds an image entry by entry, mx.stat writes the tile's status, a drain leaves its writes in the output buffer. A K-block with a NaN scale gives NaN alone (the model's choice, log entry 113). -/
def Obligations.MatrixEntriesTakeEffect : Prop :=
  (∀ s p slot b la e rest h img k, Startable s p slot b la e rest → e.op = .ldb h img → tfind (s.mx p).handles h = some k →
    Does (.mxEntryStart p) s [.regs, .cores, .launches] fun t => (t.mx p).queue = rest ∧ (t.mx p).tiles = (s.mx p).tiles ∧ (t.mx p).buf = (s.mx p).buf ∧
      (t.mx p).stat = some { fmt := k.fmt, scaled := k.scaled, image := (s.mx p).bytes (32 * (k.base + imageUnits k.scaled * img)) (32 * imageUnits k.scaled) } ∧
      OnlyCounters s t) ∧
  (∀ s p slot b la e rest i a, Startable s p slot b la e rest → e.op = .clr i a →
    Does (.mxEntryStart p) s [.cores, .launches] fun t => (t.mx p).queue = rest ∧ (t.mx p).tile i = Tile.cleared a ∧
      (∀ j, j ≠ i → (t.mx p).tile j = (s.mx p).tile j) ∧ (t.mx p).buf = (s.mx p).buf ∧ (t.mx p).stat = (s.mx p).stat) ∧
  (∀ s p slot b la e rest h row0 ks m r0 i k st fa fb, Startable s p slot b la e rest → e.op = .mma h row0 ks m r0 i →
    tfind (s.mx p).handles h = some k → (s.mx p).stat = some st → mxFmt k.fmt = some fa → mxFmt st.fmt = some fb →
    Does (.mxEntryStart p) s [.regs, .cores, .launches] fun t => (t.mx p).queue = rest ∧ (∀ j, j ≠ i → (t.mx p).tile j = (s.mx p).tile j) ∧
      (t.mx p).buf = (s.mx p).buf ∧ (t.mx p).stat = (s.mx p).stat ∧ OnlyCounters s t ∧
      RowsMultiplied (s.mx p) k st fa fb row0 ks m r0 (((s.mx p).tile i).anchored (defaultAnchor fa fb k.scaled st.scaled)) ((t.mx p).tile i)) ∧
  KblockRules ∧
  (∀ s p slot b la e rest h img i k a, Startable s p slot b la e rest → e.op = .addraw h img i → tfind (s.mx p).handles h = some k →
    a = sx 16 (numAt ((s.mx p).rawImage k img) 32768 2) → -512 ≤ a → a ≤ 511 →
    Does (.mxEntryStart p) s [.cores, .launches] fun t => (t.mx p).queue = rest ∧ (∀ j, j ≠ i → (t.mx p).tile j = (s.mx p).tile j) ∧
      (t.mx p).buf = (s.mx p).buf ∧ RawAdded ((s.mx p).rawImage k img) a ((s.mx p).tile i) ((t.mx p).tile i)) ∧
  (∀ s p slot b la e rest i r gr, Startable s p slot b la e rest → e.op = .stat i r → s.group? ⟨p, e.site.sched, e.site.slot⟩ = some gr → gr.uid = e.guid → r ≠ 255 →
    Does (.mxEntryStart p) s [.cores, .launches] fun t => (t.mx p).queue = rest ∧
      GroupAt ⟨p, e.site.sched, e.site.slot⟩ t fun x => x.ur r = BitVec.ofNat 32 ((s.mx p).tile i).stat ∧ Kept [] [r] [] gr x) ∧
  (∀ s p slot b la e rest i dfmt addr stride re k, Startable s p slot b la e rest → e.op = .drain i dfmt false 1 0 addr stride re k → (s.mx p).drains.length < 2 →
    (eTrapx la.entry = false ∨ ((s.mx p).tile i).status &&& (tsInexact ||| tsOvf) = 0) →
    Does (.mxEntryStart p) s [.cores, .launches] fun t => (t.mx p).queue = rest ∧ (t.mx p).buf = (s.mx p).buf ∧
      (∃ id d, tfind (t.mx p).drains id = some d ∧ d.isLocal = true ∧ d.block = slot ∧ d.track = k ∧
        d.writes.map (fun x => (x.va, x.data)) = (((s.mx p).tile i).drainRows dfmt false 32 stride).map fun q => (((addr : Int) + q.1).toNat, q.2)) ∧
      (∀ j, j ≠ i → (t.mx p).tile j = (s.mx p).tile j) ∧
      (t.mx p).tile i = if re then ((s.mx p).tile i).reclear else (s.mx p).tile i) ∧
  (∀ s p slot b la e rest n k, Startable s p slot b la e rest → e.op = .nest n k →
    Does (.mxEntryStart p) s [.cores, .launches] fun t => (t.mx p).queue = rest ∧ (t.mx p).tiles = (s.mx p).tiles ∧
      ∃ r, (t.mx p).nest = some r ∧ r.tab = n ∧ r.track = k ∧ r.pos = 0 ∧ r.due = [])

/-- The table that an mx.nest names may be read, the nest `n` in it keeps the checks, and its operands are resident (R180, R189, R190). -/
def NestTabOk (u : State) (g : GRef) (c : Ctx) (w : Word64) (n : NestTab) : Prop :=
  ∃ off size, off = c.gr.rd 0 true (fD w) 1 ∧ size = 64 + 32 * ((c.blk.byte off).toNat % 8) ∧ u.accessWait g c.gr.uid w false = none ∧ off % 32 = 0 ∧
    off + size ≤ c.blk.lsBytes ∧ u.tableBusy g c.gr.uid c.gr.block off size = false ∧ n = nestTab (c.blk.bytes off size) ∧
    (u.mx g.core).nestCheck (c.blk.bytes off size) c.blk.lsBytes = none ∧ (u.mx g.core).resident n.hdr.ha = true ∧ (u.mx g.core).resident n.hdr.hb = true

/-- Tier 2. Loop nests (R47, R142, R161, R180, R183 to R187, R189): an mx.nest whose table keeps the checks is queued, one with drains to memory with a tracker entry over what they will write; of the array stream and the drain stream, the operation that can start in the earlier beat starts, the array's in the same beat: it loads the image of its point, clears its tile, or multiplies its point's rows into its tile and moves on, or starts the oldest drain that is due, which clears its tile where the next clear is folded into it; a nest ends after its last point and drain. -/
def Obligations.NestsWalkTheirTable : Prop :=
  (∀ s g w c u n ka kb, Issues s g w c u → rowOf w = .mxNest → MxOwn u g c → u.accessWait g c.gr.uid w false = none → c.gr.rd 0 true (fD w) 1 % 32 = 0 →
    c.gr.rd 0 true (fD w) 1 + 64 + 32 * ((c.blk.byte (c.gr.rd 0 true (fD w) 1)).toNat % 8) ≤ c.blk.lsBytes →
    u.tableBusy g c.gr.uid c.gr.block (c.gr.rd 0 true (fD w) 1) (64 + 32 * ((c.blk.byte (c.gr.rd 0 true (fD w) 1)).toNat % 8)) = false →
    n = nestTab (c.blk.bytes (c.gr.rd 0 true (fD w) 1) (64 + 32 * ((c.blk.byte (c.gr.rd 0 true (fD w) 1)).toNat % 8))) →
    (u.mx g.core).nestCheck (c.blk.bytes (c.gr.rd 0 true (fD w) 1) (64 + 32 * ((c.blk.byte (c.gr.rd 0 true (fD w) 1)).toNat % 8))) c.blk.lsBytes = none →
    n.hdr.drain = false → (u.mx g.core).resident n.hdr.ha = true → (u.mx g.core).resident n.hdr.hb = true →
    tfind (u.mx g.core).handles n.hdr.ha = some ka → tfind (u.mx g.core).handles n.hdr.hb = some kb →
    Goes (.mxNest g w) s u [.regs, .cores, .launches] fun t => Accepted g c u t (.nest n none) ∧ (t.mx g.core).accStat = some (kb.fmt, kb.scaled)) ∧
  (∀ s g w c u n, Issues s g w c u → rowOf w = .mxNest → MxOwn u g c → NestTabOk u g c w n → n.hdr.drain = true → n.hdr.dst = 2 → (u.mx g.core).unused n.hdr.hc = true →
    Goes (.mxNest g w) s u [.regs, .cores, .launches] fun t => Accepted g c u t (.nest n none)) ∧
  (∀ s g w c u v n lo hi sp, Issues s g w c u → rowOf w = .mxNest → MxOwn u g c → NestTabOk u g c w n → n.hdr.drain = true → n.drainSpan 0 = (lo, hi) →
    (n.hdr.dst = 1 ∧ sp = [(localKey c.gr.block lo.toNat, (hi - lo).toNat)] ∧ v = u) ∨
      (n.hdr.dst = 0 ∧ c.la.covers lo hi = true ∧ u.spansVa g.core c.la.part .write ((hi - lo).toNat / 4096 + 2) lo.toNat (hi - lo).toNat = (sp, v)) →
    v.sbufHit g c.gr.uid sp = false → (v.core g.core).trackFull = false → (v.core g.core).trackHit true sp = false →
    Goes (.mxNest g w) s u coreSide fun t => AcceptedTracked g c v t sp fun id => .nest n (some id)) ∧
  (∀ s g w c u k, Issues s g w c u → rowOf w = .mxNest → MxOwn u g c → u.accessWait g c.gr.uid w false = none → c.gr.rd 0 true (fD w) 1 % 32 = 0 →
    c.gr.rd 0 true (fD w) 1 + 64 + 32 * ((c.blk.byte (c.gr.rd 0 true (fD w) 1)).toNat % 8) ≤ c.blk.lsBytes →
    u.tableBusy g c.gr.uid c.gr.block (c.gr.rd 0 true (fD w) 1) (64 + 32 * ((c.blk.byte (c.gr.rd 0 true (fD w) 1)).toNat % 8)) = false →
    (u.mx g.core).nestCheck (c.blk.bytes (c.gr.rd 0 true (fD w) 1) (64 + 32 * ((c.blk.byte (c.gr.rd 0 true (fD w) 1)).toNat % 8))) c.blk.lsBytes = some k →
    Goes (.mxNest g w) s u [.regs, .cores, .launches] fun t => GroupAt g t (fun x => x = { c.gr with stopped := true }) ∧
      ∃ l f, t.launch? c.lid = some l ∧ l.fail = some f ∧ f.status = 3 ∧ f.cause = 0x25) ∧
  (∀ s p slot b la n q k, okCore p = true → (s.mx p).nest = some n → (s.mx p).owner = some slot → s.blockAt p slot = some b → s.launch? b.launch = some la →
    la.fail = none → la.hung = 0 → n.pos < walkLen n.tab.levs → q = n.tab.point n.pos → tfind (s.mx p).handles n.tab.hdr.hb = some k →
    n.curB ≠ some q.b.toNat → (∀ y, n.drainNext (s.mx p) = some y → max n.beat (s.mx p).beats.array ≤ y.1) →
    Does (.nestOpStart p) s [.regs, .cores] fun t => OnlyCounters s t ∧
      (t.mx p).nest = some { n with curB := some q.b.toNat, beat := max n.beat (s.mx p).beats.array + 1 } ∧
      (t.mx p).beats = { (s.mx p).beats with array := max n.beat (s.mx p).beats.array + 32 } ∧ (t.mx p).tiles = (s.mx p).tiles ∧
      (t.mx p).stat = some { fmt := k.fmt, scaled := k.scaled, image := (s.mx p).bytes (32 * (k.base + imageUnits k.scaled * q.b.toNat)) (32 * imageUnits k.scaled) }) ∧
  (∀ s p slot b la n q f, okCore p = true → (s.mx p).nest = some n → (s.mx p).owner = some slot → s.blockAt p slot = some b → s.launch? b.launch = some la →
    la.fail = none → la.hung = 0 → n.pos < walkLen n.tab.levs → q = n.tab.point n.pos → n.curB = some q.b.toNat → (∀ d ∈ n.due, d.tile ≠ q.t.toNat) →
    n.tab.hdr.clear = true → q.firstK = true → n.clearedHere = false → q.t.toNat ∉ n.drained → f = max n.beat (tget 0 (s.mx p).beats.tiles q.t.toNat) →
    (∀ y, n.drainNext (s.mx p) = some y → f ≤ y.1) →
    Does (.nestOpStart p) s [.cores] fun t => (t.mx p).tile q.t.toNat = Tile.cleared n.tab.clearTo ∧ (∀ j, j ≠ q.t.toNat → (t.mx p).tile j = (s.mx p).tile j) ∧
      (t.mx p).stat = (s.mx p).stat ∧
      (t.mx p).nest = some { n with clearedHere := true, beat := f + 1 } ∧
      (t.mx p).beats = { (s.mx p).beats with tiles := tset (s.mx p).beats.tiles q.t.toNat (f + 2) }) ∧
  (∀ s p slot b la n q f, okCore p = true → (s.mx p).nest = some n → (s.mx p).owner = some slot → s.blockAt p slot = some b → s.launch? b.launch = some la →
    la.fail = none → la.hung = 0 → n.pos < walkLen n.tab.levs → q = n.tab.point n.pos → n.curB = some q.b.toNat → (∀ d ∈ n.due, d.tile ≠ q.t.toNat) →
    (n.tab.hdr.clear = false ∨ q.firstK = false ∨ n.clearedHere = true ∨ q.t.toNat ∈ n.drained) →
    f = max n.beat (max (s.mx p).beats.array (tget 0 (s.mx p).beats.tiles q.t.toNat)) → (∀ y, n.drainNext (s.mx p) = some y → f ≤ y.1) →
    Does (.nestOpStart p) s [.regs, .cores] fun t => OnlyCounters s t ∧ (∀ j, j ≠ q.t.toNat → (t.mx p).tile j = (s.mx p).tile j) ∧
      (t.mx p).beats = { (s.mx p).beats with array := f + q.m, tiles := tset (s.mx p).beats.tiles q.t.toNat (f + q.m + 3) } ∧ (t.mx p).buf = (s.mx p).buf ∧ (t.mx p).stat = (s.mx p).stat ∧
      (∀ k st fa fb, tfind (s.mx p).handles n.tab.hdr.ha = some k → (s.mx p).stat = some st → mxFmt k.fmt = some fa → mxFmt st.fmt = some fb →
        RowsMultiplied (s.mx p) k st fa fb (q.a.toNat / k.pitch) (q.a.toNat % k.pitch) q.m 0 (((s.mx p).tile q.t.toNat).anchored (defaultAnchor fa fb k.scaled st.scaled)) ((t.mx p).tile q.t.toNat)) ∧
      ∃ r, (t.mx p).nest = some r ∧ r.pos = n.pos + 1 ∧ r.tab = n.tab ∧ r.beat = f + 1 ∧
        r.due = if n.tab.hdr.drain && q.lastK then n.due ++ [{ tile := q.t.toNat, dst := q.c, rows := q.m, reclr := n.tab.folds n.pos }] else n.due) ∧
  (∀ s p slot b la n d f, okCore p = true → (s.mx p).nest = some n → (s.mx p).owner = some slot → s.blockAt p slot = some b → s.launch? b.launch = some la →
    la.fail = none → la.hung = 0 → n.drainNext (s.mx p) = some (f, d) → (∀ y, n.arrayNext (s.mx p).beats = some y → f < y.1) → n.tab.hdr.dst = 1 → n.tab.hdr.satf = false →
    eTrapx la.entry = false →
    Does (.nestOpStart p) s [.cores] fun t => (∃ r, (t.mx p).nest = some r ∧ r.due = n.due.drop 1 ∧ r.pos = n.pos ∧ r.beat = f + 1 ∧ d.tile ∈ r.drained) ∧
      (t.mx p).tile d.tile = (if d.reclr then Tile.cleared n.tab.clearTo else (s.mx p).tile d.tile) ∧ (∀ j, j ≠ d.tile → (t.mx p).tile j = (s.mx p).tile j) ∧
      ∃ id b, tfind (t.mx p).drains id = some b ∧ b.isLocal = true ∧
        b.writes.map (fun x => (x.va, x.data)) = (((s.mx p).tile d.tile).drainRows n.tab.hdr.dfmt false d.rows (n.tab.rowStep 0)).map fun y => ((d.dst + y.1).toNat, y.2)) ∧
  (∀ s p n, okCore p = true → (s.mx p).nest = some n → walkLen n.tab.levs ≤ n.pos → n.due = [] →
    Does (.nestEnd p) s [.cores] fun t => (t.mx p).nest = none ∧ (t.mx p).tiles = (s.mx p).tiles ∧ (t.mx p).queue = (s.mx p).queue ∧ (t.mx p).buf = (s.mx p).buf ∧
      (s.mx p).beats.array ≤ (t.mx p).beats.array ∧ n.beat ≤ (t.mx p).beats.next ∧
      (∀ k, n.track = some k → (∀ e ∈ (s.mx p).drains, e.2.track ≠ some k) → tfind (t.core p).art k = none))

/-- Tier 2. Drain writes and the end of ownership (R162, R163, R172, R176, R179): a drain's next write changes those bytes and no others, the last frees the drain; when the owner has ended and nothing of it is left, its tile status bytes are in CORE_MX_TSTAT and the unit is free or the first waiter's. -/
def Obligations.DrainsAndOwnershipEnd : Prop :=
  (∀ s p id d x a, okCore p = true → tfind (s.mx p).drains id = some d → d.writes = [x] → d.isLocal = false → x.tgt = .hbm a →
    s.reaches d.cut .store .acknowledgement p (.hbm a) = true → s.chanRetired (a / 2 ^ 31) = false →
    Does (.drainWritePerformed p id) s [.free, .mem, .poison, .cores, .launches, .dies, .chans] fun t => tfind (t.mx p).drains id = none ∧
      (∀ i, i < x.data.length → mget? t.mem (a + i) = x.data[i]?) ∧ (∀ i, i < a ∨ a + x.data.length ≤ i → mget? t.mem i = mget? s.mem i)) ∧
  (∀ s p id d x y rest, okCore p = true → tfind (s.mx p).drains id = some d → d.writes = x :: y :: rest → d.isLocal = true → (s.blockAt p d.block).isSome = true →
    Does (.drainWritePerformed p id) s [.cores] fun t => tfind (t.mx p).drains id = some { d with writes := y :: rest } ∧
      t.lsRead p d.block x.va x.data.length = x.data ∧ LsOutside p d.block x.data.length [(0, x.va)] s t) ∧
  (∀ s p slot b, okCore p = true → (s.mx p).owner = some slot → s.blockAt p slot = some b → b.ended = true → (s.mx p).queue = [] → (s.mx p).fills = [] →
    (s.mx p).drains = [] → (s.mx p).nest = none → (∀ l, s.launch? b.launch = some l → l.part < 64) →
    Does (.mxOwnershipEnd p) s [.free, .regs, .cores, .dbg] fun t =>
      t.reg (mxTstat p) = BitVec.ofNat 32 (((s.mx p).tile 0).status.toNat + 256 * (((s.mx p).tile 1).status.toNat + 256 * (((s.mx p).tile 2).status.toNat +
        256 * ((s.mx p).tile 3).status.toNat))) ∧
      ((s.mx p).waiters = [] → (t.mx p).owner = none) ∧
      (∀ o rest n, (s.mx p).waiters = o :: rest → s.blockAt p o = some n → (t.mx p).owner = some o ∧ (t.mx p).handles = [] ∧ (t.mx p).tiles = []))

/-! Schedulers, placement, watches and kills. -/

/-- Only scheduler `i` of core `p` has changed. -/
def OnlySched (p i : Nat) (s t : State) : Prop :=
  (∀ q, q ≠ p → t.core q = s.core q) ∧ { t.core p with scheds := [] } = { s.core p with scheds := [] } ∧
  ∀ j, j ≠ i → (t.core p).sched j = (s.core p).sched j

/-- Tier 2. Active sets and splits (R76, R78, R79, R85): the first ready group enters an active set with room; in a full one it takes the place of the group longest in it; an empty core takes the split that a launch asks for, and loses its L1. -/
def SchedulersAndSplitsChange : Prop :=
  (∀ s p i r rest, okCore p = true → i < 4 → ((s.core p).sched i).ready = r :: rest → ((s.core p).sched i).active.length < 4 →
    Does (.groupEnterActive p i) s [.cores] fun t => OnlySched p i s t ∧
      (t.core p).sched i = { (s.core p).sched i with active := ((s.core p).sched i).active ++ [r], ready := rest }) ∧
  (∀ s p i a b c d r rest, okCore p = true → i < 4 → ((s.core p).sched i).active = [a, b, c, d] → ((s.core p).sched i).ready = r :: rest →
    Does (.activeSetRotation p i) s [.cores] fun t => OnlySched p i s t ∧
      (t.core p).sched i = { (s.core p).sched i with active := [b, c, d, r], ready := rest ++ [a] }) ∧
  (∀ s p n lid l x, okCore p = true → n < 5 → (s.core p).blocks = [] → (s.core p).split ≠ n → (lid, l) ∈ s.launches → l.isKernel = true → l.phase = .running →
    l.fail = none → l.hung = 0 → l.split = n → x ∈ s.coresFor l false → x.2.1 = p →
    Does (.splitChange p n) s [.cores] fun t => t.core p = { s.core p with split := n, l1 := [] } ∧ ∀ q, q ≠ p → t.core q = s.core q)

/-- A kernel whose blocks the front end may place (R98, R137). -/
def Placing (s : State) (lid : Nat) (l : Launch) : Prop :=
  s.launch? lid = some l ∧ l.isKernel = true ∧ l.phase = .running ∧ l.fail = none ∧ l.hung = 0

/-- Tier 2. Placement and stealing (R69, R70, R98, R223, R225, R301): the next block of a kernel without clusters goes to the core that admits it and holds the fewest blocks, with its groups at the kernel's code; a thief takes the upper half of the largest claim range. -/
def BlocksArePlacedAndSplit : Prop :=
  (∀ s lid l x slot, Placing s lid l → eChfed l.entry = false → l.pair = none → l.rt = false → eCluster l.entry = 1 → l.nextBlk < l.blocks →
    x ∈ s.coresFor l false → dieOfPhys x.2.1 < 4 → (s.core x.2.1).admits l = true → (s.core x.2.1).blockSlot = some slot →
    (∀ y ∈ s.coresFor l false, (s.core y.2.1).admits l = true → (s.core y.2.1).split = l.split ∧ y.1 < 2 ^ 20 ∧
      (y = x ∨ (s.core x.2.1).blocks.length < (s.core y.2.1).blocks.length ∨ ((s.core x.2.1).blocks.length = (s.core y.2.1).blocks.length ∧ x.1 < y.1))) →
    Does (.blockPlace lid) s [.free, .regs, .cores, .launches, .dbg] fun t =>
      t.launch? lid = some { l with nextBlk := l.nextBlk + 1 } ∧
      (∃ b, t.blockAt x.2.1 slot = some b ∧ b.launch = lid ∧ b.run = l.run ∧ b.num = l.nextBlk ∧ b.threads = eThreads l.entry ∧ b.lsBytes = 1024 * l.lskib ∧
        b.head = 0 ∧ b.tail = eTiles l.entry ∧ b.ended = false ∧ b.ls = []) ∧
      (∀ k, k < groupsFor (eThreads l.entry) → ∃ g, g.core = x.2.1 ∧ GroupAt g t fun y => y.block = slot ∧ y.gnum = k ∧ y.launch = lid ∧ y.pc = l.code ∧
        y.nregs = l.vregs ∧ y.exited = exitedFrom (eThreads l.entry) k ∧ y.active = ~~~(exitedFrom (eThreads l.entry) k) ∧ y.vregs = [] ∧ y.preds = [] ∧
        y.ur 0 = BitVec.ofNat 32 l.param ∧ y.ur 1 = BitVec.ofNat 32 (l.param / 2 ^ 32) ∧ y.wait = .none) ∧
      ∀ q, q ≠ x.2.1 → t.core q = s.core q) ∧
  (∀ s lid l p slot b x k, Placing s lid l → l.placed = true → l.pair = none → eCluster l.entry = 1 → ((s.ent l.part).stages.getD l.stage (0, false)).2 = false →
    pickVictim (s.victims lid l false) = some (p, slot, b) → tfind (s.core p).blocks slot = some b →
    s.pickCore l ((s.coresFor l false).filter fun x => (s.core x.2.1).blocks == []) = some x → (s.core x.2.1).split = l.split → (s.core x.2.1).blockSlot = some k →
    Does (.thiefStart lid) s [.free, .regs, .cores, .launches, .dbg] fun t =>
      t.blockAt p slot = some { b with tail := b.tail - (b.tail - b.head) / 2 } ∧
      (∃ y, t.blockAt x.2.1 k = some y ∧ y.thief = true ∧ y.num = b.num ∧ y.head = b.tail - (b.tail - b.head) / 2 ∧ y.tail = b.tail ∧ y.launch = lid) ∧
      t.launch? lid = some { l with thieves := l.thieves + 1 })

/-- Tier 2. Active sets, splits, placement of blocks and stealing. -/
def Obligations.BlocksAndGroupsArePlaced : Prop := SchedulersAndSplitsChange ∧ BlocksArePlacedAndSplit

/-- Nothing of a queue but when it began to want a watch. -/
def QueueBut (a b : Queue) : Prop := { b with want := none } = { a with want := none }

/-- Every launch is a killable one that has started, and is now being killed, or is as before. -/
def KilledExactly (c : Nat → Launch → Prop) (s t : State) : Prop :=
  ∀ i l, s.launch? i = some l → (c i l → t.launch? i = some { l with phase := .killing }) ∧ (¬ c i l → t.launch? i = some l)

/-- Tier 2. Watches and real-time queues (R220, R326 to R330, R333, R334): a free watch goes to the queue that has wanted one longest, a queue whose next entry needs nothing else among them; an idle holder gives it back; one that has lasted WATCHUS ends, with kills, only while another queue waits for it; a real-time queue's work clears its reserve; nothing is killed while an activation of the partition waits. -/
def WatchesAreGrantedAndEnd : Prop :=
  (∀ s p k w, okPart p = true → k / 256 = p → s.noteWants p = s → s.partUp p = true → s.watches p < s.nwatch p → (k, s.queue k) ∈ s.queues → (s.queue k).want = some w → s.wantsWatch k = true →
    (∀ e ∈ s.queues, e.1 / 256 = p → ∀ v, e.2.want = some v → e.1 = k ∨ w < v ∨ (w = v ∧ k < e.1)) → (∀ e ∈ s.queues, e.1 = k → e.2 = s.queue k) →
    Does (.watchGrant p) s [.queues] fun t =>
      t.queue k = { s.queue k with watch := some s.now, watchEnd := s.now + 1000 * s.fld (partSched p) 0 17, want := none } ∧ ∀ j, j ≠ k → t.queue j = s.queue j) ∧
  (∀ s p q, okQueue p q = true → (s.queue (qkey p q)).watch.isSome = true → s.wantsWatch (qkey p q) = false →
    ((s.ofQueue (qkey p q)).any fun e => e.2.isWork && e.2.isIssued) = false →
    Does (.watchRelease p q) s [.queues] fun t => (t.queue (qkey p q)).watch = none ∧ (∀ j, j ≠ qkey p q → QueueBut (s.queue j) (t.queue j))) ∧
  (∀ s p q, okQueue p q = true → s.noteWants p = s → (s.queue (qkey p q)).watch.isSome = true → (s.queue (qkey p q)).watchEnd ≤ s.now →
    (∃ e ∈ s.queues, e.1 / 256 = p ∧ e.1 ≠ qkey p q ∧ e.2.want.isSome = true ∧ s.wantsWatch e.1 = true) → s.nwatch p ≤ s.watches p → tsorted s.launches = true →
    (∀ e ∈ s.ofQueue (qkey p q), e.2.killable = true → e.2.unstarted = false) →
    Does (.watchExpiry p q) s [.regs, .launches, .queues, .parts, .copies, .dbg] fun t => (t.queue (qkey p q)).watch = none ∧
      (∀ j, j ≠ qkey p q → t.queue j = s.queue j) ∧ KilledExactly (fun _ l => l.qk = qkey p q ∧ s.killableNow l = true) s t) ∧
  (∀ s p q, okQueue p q = true → s.noteWants p = s → (s.queue (qkey p q)).watch.isSome = true → (s.queue (qkey p q)).watchEnd ≤ s.now →
    (∀ e ∈ s.queues, e.1 / 256 = p → e.1 ≠ qkey p q → e.2.want = none) → s.watches p ≤ s.nwatch p →
    Does (.watchExpiry p q) s [.queues] fun t =>
      t.queue (qkey p q) = { s.queue (qkey p q) with watch := some s.now, watchEnd := s.now + 1000 * s.fld (partSched p) 0 17 } ∧
      ∀ j, j ≠ qkey p q → t.queue j = s.queue j) ∧
  (∀ s p q, okQueue p q = true → qcRt (s.queue (qkey p q)).cfg = true → qcEnable (s.queue (qkey p q)).cfg = true → s.rtActive p q = true → tsorted s.launches = true →
    (∀ e ∈ s.launches, e.2.part = p → e.2.queue ≠ q → e.2.killable = true → e.2.unstarted = false) →
    Does (.rtQueueActive p q) s [.regs, .launches, .queues, .parts, .copies, .dbg] fun t => (∀ j, QueueBut (s.queue j) (t.queue j)) ∧
      KilledExactly (fun i l => l.part = p ∧ l.queue ≠ q ∧ s.killableNow l = true ∧ s.onReserve i l q = true) s t)

/-- Tier 2. Kills (R336 to R338, R496): once a kill is complete no core or copy engine holds anything of the launch, its commit queue and pushes are gone, and it waits for its next run. -/
def KilledLaunchesLeaveNothing : Prop :=
  ∀ s lid l, s.launch? lid = some l → l.phase = .killing → l.fail = none → (s.queue l.qk).resetting = false → l.held = [] →
    Does (.killComplete lid) s [.free, .regs, .poison, .cores, .launches, .queues, .parts, .dies, .copies, .dbg] fun t =>
      t.launch? lid = some { l.again with phase := .rerun, killed := true, withdrawn := false, pausedGt := s.now } ∧
      l.again.run = l.run + 1 ∧ l.again.cq = [] ∧ l.again.pushed = [] ∧ l.again.formed = [] ∧ l.again.nextBlk = 0 ∧
      (∀ p, (t.core p).has lid = false) ∧ (∀ d, d < 4 → ∀ e ∈ (t.die d).reads, e.2.launch ≠ lid) ∧
      (∀ c, l.copy = some c → lid ∉ (t.copyEng c.engine).launches) ∧ ∀ j, QueueBut (s.queue j) (t.queue j)

/-- Tier 2. Watches, real-time queues and kills. -/
def Obligations.WatchesEndAndKill : Prop := WatchesAreGrantedAndEnd ∧ KilledLaunchesLeaveNothing

/-! Queues, doorbells and the front end. -/

/-- One queue has changed as given, but for when it began to want a watch, and the others in no more than that. -/
def OneQueue (s t : State) (k : Nat) (q : Queue) : Prop := QueueBut q (t.queue k) ∧ ∀ j, j ≠ k → QueueBut (s.queue j) (t.queue j)

/-- Tier 2. Doorbells and queue commands (R39, R295, R296, R315, R324, R487, R496): a doorbell in the ring's range moves the tail, any other halts the queue; a partition that touches a die whose lamp is dark takes none; configuration changes only by the rules of R296; RESUME and CLRFAIL clear their bit; a reset ends with the queue's positions clear; a preload takes a slot for the next entry. That a dark die's lamp stops doorbells is how the model reads "does not start" (log entry 112). -/
def Obligations.QueueCommandsActOnTheirQueue : Prop :=
  (∀ s vf q v p, okVf vf = true → s.vfOpen vf = true → q < 256 → s.vfPart vf = some p → q < (s.ent p).nqueue → s.partUp p = true → qcEnable (s.queue (qkey p q)).cfg = true →
    (s.queue (qkey p q)).halted = false → (s.queue (qkey p q)).resetting = false →
    ((s.queue (qkey p q)).tail ≤ v.toNat → v.toNat ≤ (s.queue (qkey p q)).done + (s.queue (qkey p q)).size → v.toNat < 2 ^ 48 →
      Does (.dbTailWrite vf q v) s [.queues] fun t => OneQueue s t (qkey p q) { s.queue (qkey p q) with tail := v.toNat }) ∧
    (v.toNat < (s.queue (qkey p q)).tail ∨ ((s.queue (qkey p q)).done + (s.queue (qkey p q)).size < v.toNat ∧ (s.queue (qkey p q)).tail ≠ v.toNat) →
      Does (.dbTailWrite vf q v) s [.out, .queues, .host] fun t => OneQueue s t (qkey p q) { s.queue (qkey p q) with halted := true, reason := 0x10 })) ∧
  (∀ s vf q v p, okVf vf = true → s.vfOpen vf = true → q < 256 → s.vfPart vf = some p → qcEnable (s.queue (qkey p q)).cfg = false ∨ (s.queue (qkey p q)).halted = true ∨
      (s.queue (qkey p q)).resetting = true →
    Does (.dbTailWrite vf q v) s [.queues] fun t => ∀ j, QueueBut (s.queue j) (t.queue j)) ∧
  (∀ s vf q v p d, okVf vf = true → s.vfOpen vf = true → q < 256 → s.vfPart vf = some p → d ∈ entDies (s.ent p) → s.lamp (lampDie d) = false →
    Does (.dbTailWrite vf q v) s [] fun t => t = s) ∧
  (∀ s vf v k, okVf vf = true → s.vfOpen vf = true → s.selQueue vf = some k → qcEnable (s.queue k).cfg = false →
    Does (.vfQcfgWrite vf v) s [.queues] fun t =>
      (qcEnable v = true → s.configBad k (v &&& 0x1FFF) = true → OneQueue s t k { s.queue k with cfg := v &&& 0xFFF, reason := 0x12 }) ∧
      (qcEnable v = false ∨ s.configBad k (v &&& 0x1FFF) = false → OneQueue s t k { s.queue k with cfg := v &&& 0x1FFF })) ∧
  (∀ s vf v k, okVf vf = true → s.vfOpen vf = true → s.selQueue vf = some k → qcEnable (s.queue k).cfg = true →
    Does (.vfQcfgWrite vf v) s [.queues] fun t => (qcEnable v = true → OneQueue s t k (s.queue k)) ∧
      (qcEnable v = false → OneQueue s t k { s.queue k with cfg := v &&& 0x1FFF })) ∧
  (∀ s vf k, okVf vf = true → s.vfOpen vf = true → s.selQueue vf = some k →
    Does (.qcmdResume vf) s [.queues] fun t => OneQueue s t k { s.queue k with halted := false }) ∧
  (∀ s vf k, okVf vf = true → s.vfOpen vf = true → s.selQueue vf = some k →
    Does (.qcmdClrfail vf) s [.queues] fun t => OneQueue s t k { s.queue k with failed := false }) ∧
  (∀ s vf k, okVf vf = true → s.vfOpen vf = true → s.selQueue vf = some k → (s.queue k).resetting = false → s.ofQueue k = [] →
    Does (.qcmdReset vf) s [.launches, .queues] fun t => QueueBut { s.queue k with resetting := true, cur := none } (t.queue k) ∧ t.launches = s.launches) ∧
  (∀ s vf k lid l, okVf vf = true → s.vfOpen vf = true → s.selQueue vf = some k → (s.queue k).resetting = false → s.ofQueue k = [(lid, l)] → s.launches = [(lid, l)] → l.phase = .running →
    l.killable = true → l.unstarted = false → l.replay = none →
    Does (.qcmdReset vf) s [.regs, .launches, .queues, .dbg] fun t => (t.queue k).resetting = true ∧ t.launch? lid = some { l with phase := .killing }) ∧
  (∀ s p q, okQueue p q = true → (s.queue (qkey p q)).resetting = true → s.ofQueue (qkey p q) = [] →
    Does (.queueResetEnd p q) s [.queues, .dies] fun t => (∀ j, j ≠ qkey p q → t.queue j = s.queue j) ∧
      (∀ x ∈ (t.die (s.leadDie p)).preloads, ∀ n, x.key ≠ .entry (qkey p q) n) ∧
      t.queue (qkey p q) = { ring := (s.queue (qkey p q)).ring, cpl := (s.queue (qkey p q)).cpl, cfg := (s.queue (qkey p q)).cfg &&& 0xFFF, jobs := (s.queue (qkey p q)).jobs }) ∧
  (∀ s p q e v, okQueue p q = true → s.queueRuns (qkey p q) = true → (s.queue (qkey p q)).head < (s.queue (qkey p q)).tail →
    s.preloadRoom (s.leadDie p) (qcRt (s.queue (qkey p q)).cfg) = true → s.preSlot (s.leadDie p) (.entry (qkey p q) (s.queue (qkey p q)).head) = none →
    ((s.ofQueue (qkey p q)).any fun x => x.2.isIssued) = true →
    s.fetchBytes p ((s.queue (qkey p q)).ring + 64 * ((s.queue (qkey p q)).head % (s.queue (qkey p q)).size)) 64 = (.ok e, v) → entryErrs e ++ v.chartErrs p e = [] →
    eType e = 0 → eExt e = 0 → eBucket e = 0 →
    Does (.preload p q) s [.free, .out, .cores, .parts, .dies] fun t => ∃ n, (t.die (s.leadDie p)).preloads = (s.die (s.leadDie p)).preloads ++
      [{ num := n, key := .entry (qkey p q) (s.queue (qkey p q)).head, rt := qcRt (s.queue (qkey p q)).cfg, code := some (eCode e) }])

/-- The entry `e` at the head of an otherwise idle queue has its turn (R302, R317): it was read, and the front end has room. -/
def Turn (s : State) (p q : Nat) (e : List Byte) (v : State) : Prop :=
  okQueue p q = true ∧ s.issueTurn p = some (qkey p q) ∧ s.queueRuns (qkey p q) = true ∧ s.ofQueue (qkey p q) = [] ∧ s.launches.length < 1024 ∧
  s.launch? s.nextLaunch = none ∧
  (s.queue (qkey p q)).cur = none ∧ (s.queue (qkey p q)).head < (s.queue (qkey p q)).tail ∧ (s.queue (qkey p q)).failed = false ∧
  s.fetchBytes p ((s.queue (qkey p q)).ring + 64 * ((s.queue (qkey p q)).head % (s.queue (qkey p q)).size)) 64 = (.ok e, v)

/-- The entry has issued: its launch stands, and the head has passed it. -/
def Issued (s t : State) (p q : Nat) (P : Launch → Prop) : Prop :=
  (∃ l, t.launch? s.nextLaunch = some l ∧ l.part = p ∧ l.queue = q ∧ l.seq = (s.queue (qkey p q)).head ∧ P l) ∧
  (t.queue (qkey p q)).head = (s.queue (qkey p q)).head + 1 ∧ (t.queue (qkey p q)).tail = (s.queue (qkey p q)).tail ∧ t.nextLaunch = s.nextLaunch + 1

/-- Tier 2. Issue (R302, R308 to R310, R313, R317, R323): of the queue whose turn it is, a kernel entry starts a launch with the values of its entry; an event record is a maximum on its word, once the word's home slice has its line; a semaphore release adds to its count; an entry that breaks a rule ends with TRANSLATION_FAULT and its lowest reason; an entry that cannot be read halts the queue. -/
def Obligations.EntriesIssueInOrder : Prop :=
  (∀ s p q e v, Turn s p q e v → eType e = 0 → eExt e = 0 → eBucket e = 0 → eInd e 0 = false → eInd e 1 = false → eInd e 2 = false →
    entryErrs e ++ v.chartErrs p e = [] → (qcRt (s.queue (qkey p q)).cfg = true ∨ (s.queue (qkey p q)).watch.isSome = true) → (∀ l, l.part = p → l.entry = e → v.noSets l = false) →
    Does (.launchIssue p q) s [.free, .out, .regs, .launches, .nextLaunch, .queues, .parts, .dies, .dbg] fun t => Issued s t p q fun l => l.entry = e ∧ l.phase = .running ∧
      l.fail = none ∧ l.code = eCode e ∧ l.param = eParam e ∧ l.gx = eGrid e 0 ∧ l.gy = eGrid e 1 ∧ l.gz = eGrid e 2 ∧ l.vregs = eVregs e ∧ l.split = eSplit e ∧
      l.lskib = eLskib e ∧ l.wins = [] ∧ l.nextBlk = 0 ∧ l.run = 0 ∧ l.issueGt = s.now) ∧
  (∀ s p q e v r, Turn s p q e v → (eType e ≤ 1 → eExt e = 0) → lowest (entryErrs e ++ v.chartErrs p e) = some r →
    Does (.launchIssue p q) s [.free, .out, .regs, .launches, .nextLaunch, .queues, .parts, .dies, .dbg] fun t => Issued s t p q fun l => l.entry = e ∧ l.phase = .ended ∧
      ∃ f, l.fail = some f ∧ f.status = 4 ∧ f.reason = BitVec.ofNat 8 r) ∧
  (∀ s p q e v w a, Turn s p q e v → eType e = 2 → entryErrs e ++ v.chartErrs p e = [] → v.eventWord p (eAddr e) = (.ok a, w) → v.poisoned a 8 = false → v.linesHere [(.hbm a, 8)] = true →
    Does (.launchIssue p q) s [.free, .out, .regs, .mem, .poison, .cores, .launches, .nextLaunch, .queues, .parts, .dies, .chans, .dbg] fun t =>
      leNat (t.bytes a 8) = max (leNat (v.bytes a 8)) (eValue e % 2 ^ 63) ∧ (∀ i, i < a ∨ a + 8 ≤ i → mget? t.mem i = mget? v.mem i) ∧
      Issued s t p q fun l => l.phase = .ended ∧ l.fail = none) ∧
  (∀ s p q e v w a, Turn s p q e v → eType e = 2 → entryErrs e ++ v.chartErrs p e = [] → v.eventWord p (eAddr e) = (.ok a, w) → v.linesHere [(.hbm a, 8)] = false →
    Does (.launchIssue p q) s [.free, .out, .queues, .parts, .dies, .chans] fun t => ∀ j, QueueBut (s.queue j) (t.queue j)) ∧
  (∀ s p q e v, Turn s p q e v → eType e = 4 → eSemOp e = 1 → entryErrs e ++ v.chartErrs p e = [] → (v.sem p (eSem e)).waiters = [] →
    Does (.launchIssue p q) s [.free, .out, .regs, .launches, .nextLaunch, .queues, .parts, .dies, .dbg] fun t =>
      (t.sem p (eSem e)).count = min ((v.sem p (eSem e)).count + eSemCount e) 0xFFFFFFFF ∧ Issued s t p q fun l => l.phase = .ended ∧ l.fail = none) ∧
  (∀ s p q f v, okQueue p q = true → s.issueTurn p = some (qkey p q) → s.queueRuns (qkey p q) = true → s.ofQueue (qkey p q) = [] → s.launches.length < 1024 →
    (s.queue (qkey p q)).cur = none → (s.queue (qkey p q)).head < (s.queue (qkey p q)).tail →
    s.fetchBytes p ((s.queue (qkey p q)).ring + 64 * ((s.queue (qkey p q)).head % (s.queue (qkey p q)).size)) 64 = (.error f, v) →
    Does (.launchIssue p q) s [.free, .out, .queues, .parts, .dies, .host] fun t => QueueBut { s.queue (qkey p q) with halted := true, reason := 0x11 } (t.queue (qkey p q)))

/-- The launch has ended as given, and no other launch has changed. -/
def EndedAlone (s t : State) (lid : Nat) (st : Option Byte) : Prop :=
  (∃ l, t.launch? lid = some l ∧ l.phase = .ended ∧ l.armed = false ∧ l.fail.map (·.status) = st) ∧ ∀ i, i ≠ lid → t.launch? i = s.launch? i

/-- The value of an event word of a running wait, which can be read. -/
def WaitWord (s : State) (lid : Nat) (l : Launch) (a v : Nat) : Prop :=
  s.launch? lid = some l ∧ eType l.entry = 3 ∧ l.phase = .running ∧ l.fail = none ∧ l.word = some a ∧ s.wordSeen l = true ∧ s.chanRetired (a / 2 ^ 31) = false ∧ s.poisoned a 8 = false ∧
  leNat (s.bytes a 8) = v

/-- Tier 2. Waits and limits (R300, R311 to R314): a wait ends OK once its word has reached its value, with DEPENDENCY_FAILED on a marked word, with TIMEOUT at its limit; semaphore and launch limits end theirs. -/
def WaitsAndLimitsEnd : Prop :=
  (∀ s lid l a v, WaitWord s lid l a v → l.armed = true → l.touched = true →
    (v < 2 ^ 63 → eValue l.entry ≤ v → Does (.eventWaitEvaluate lid) s [.launches] fun t => EndedAlone s t lid none) ∧
    (2 ^ 63 ≤ v → Does (.eventWaitEvaluate lid) s [.launches] fun t => EndedAlone s t lid (some 14)) ∧
    (v < eValue l.entry → v < 2 ^ 63 → Does (.eventWaitEvaluate lid) s [.launches] fun t => t.launch? lid = some { l with touched := false, polled := s.now })) ∧
  (∀ s lid l a v, WaitWord s lid l a v → l.touched = false → eWaitLimit l.entry ≠ 0 → l.issueGt + eWaitLimit l.entry ≤ s.now →
    Does (.eventWaitTimeout lid) s [.launches] fun t => EndedAlone s t lid (some 7)) ∧
  (∀ s lid l a v, WaitWord s lid l a v → l.armed = false → s.slotFree (s.leadDie l.part) = true →
    (v < 2 ^ 63 → eValue l.entry ≤ v → Does (.watchSlotPoll lid) s [.launches] fun t => EndedAlone s t lid none) ∧
    (v < eValue l.entry → v < 2 ^ 63 → Does (.watchSlotPoll lid) s [.launches] fun t => t.launch? lid = some { l with armed := true, touched := false, polled := s.now })) ∧
  (∀ s lid l, s.launch? lid = some l → eType l.entry = 4 → l.phase = .acquiring → l.fail = none → eSemLimit l.entry ≠ 0 → l.waitGt + eSemLimit l.entry ≤ s.now →
    (∀ e ∈ (s.part l.part).sems, lid ∉ e.2.waiters ∨ e.2.waiters = [lid]) →
    Does (.semAcquireTimeout lid) s [.launches, .parts] fun t => EndedAlone s t lid (some 13) ∧ ∀ n, lid ∉ (t.sem l.part n).waiters) ∧
  (∀ s lid l, s.launch? lid = some l → l.isWork = true → l.phase = .acquiring → l.fail = none → l.call = none → l.ext ≠ [] → xSlimit l.ext ≠ 0 →
    l.waitGt + xSlimit l.ext ≤ s.now → (∀ e ∈ (s.part l.part).sems, lid ∉ e.2.waiters ∨ e.2.waiters = [lid]) → (s.queue l.qk).cur = some lid →
    Does (.semaSlimitTimeout lid) s [.launches, .queues, .parts] fun t => EndedAlone s t lid (some 13) ∧ (∀ n, lid ∉ (t.sem l.part n).waiters) ∧
      t.queue l.qk = { s.queue l.qk with cur := none, head := (s.queue l.qk).head + 1 }) ∧
  (∀ s lid l, s.launch? lid = some l → l.isWork = true → l.phase = .running → l.fail = none → l.ext ≠ [] → xTlimit l.ext ≠ 0 →
    l.issueGt + l.paused + xTlimit l.ext ≤ s.now →
    Does (.launchTlimitTimeout lid) s [.launches] fun t => ∃ f, t.launch? lid = some { l with fail := some f } ∧ f.status = 7 ∧ f.gt = s.now)

/-- Tier 2. Completion (R303, R305, R306, R357): a launch that is over leaves the module; its record of 32 bytes is in the completion ring and nothing else of memory has changed; DONE and the failed state follow. -/
def CompletionsAreRecorded : Prop :=
  (∀ s lid l tr a v, s.launch? lid = some l → l.over = true → (s.part l.part).reset < 2 → l.call = none → l.replay = none →
    ((s.release lid l).translSpan l.part ((s.queue l.qk).cpl + 32 * (l.seq % (s.queue l.qk).size)) 32 .write = (.ok [(tr, 32)], v)) → tr.tgt = .hbm a →
    s.recordCut l = false → v.dieSees (s.leadDie l.part) (.hbm a) = true → (s.queue l.qk).early = [] → (s.queue l.qk).done = l.seq →
    Does (.launchComplete lid) s [.free, .out, .regs, .mem, .poison, .cores, .launches, .queues, .parts, .dies, .chans, .copies, .links, .host, .dbg] fun t =>
      t.launch? lid = none ∧ t.bytes a 32 = l.record s.now ∧ (∀ i, i < a ∨ a + 32 ≤ i → mget? t.mem i = mget? s.mem i) ∧
      (t.queue l.qk).done = l.seq + 1 ∧ (t.queue l.qk).failed = (if l.fail = none then (s.queue l.qk).failed && !eNodep l.entry else true) ∧
      (t.queue l.qk).jobs = (if l.isWork then ((s.queue l.qk).jobs + 1) % 2 ^ 64 else (s.queue l.qk).jobs)) ∧
  (∀ (l : Launch) (now : Nat), (l.record now).length = 32 ∧ numAt (l.record now) 0 6 = l.seq % 2 ^ 48 ∧ numAt (l.record now) 6 1 = l.status ∧
    numAt (l.record now) 8 4 = eTag l.entry % 2 ^ 32 ∧ numAt (l.record now) 24 8 = now % 2 ^ 64)

/-- Tier 2. How launches end and what their completion leaves. -/
def Obligations.LaunchesEndAndAreRecorded : Prop := WaitsAndLimitsEnd ∧ CompletionsAreRecorded

/-! Commit. -/

/-- A commit entry is neither performed nor refused: it has not been sent, or its answer has not come. -/
def openEntry (e : CqEntry) : Bool := e.st == .waiting || e.st == .sent

/-- No launch but `lid` has changed. -/
def OnlyLaunch (lid : Nat) (s t : State) : Prop := ∀ i, i ≠ lid → t.launch? i = s.launch? i

/-- Tier 2. Commit (R347 to R351, R427): the ready launch that became ready first takes a free context and settles; settled, it performs; a failure found before ends it, and so does the settle limit, with TIMEOUT unless a failure was found before it; entries are sent in order, a local one once its word's home slice has its line, and are done or refused; past 200 µs each that is neither, sent or not, is unconfirmed, which ends it as a refusal does, and is counted. -/
def Obligations.CommitsSettleAndPerform : Prop :=
  (∀ s d lid l, okDie d = true → (s.die d).contexts.length < 8 → (lid, l) ∈ s.launches → s.launch? lid = some l → s.leadDie l.part = d → s.readyToCommit lid l = true →
    lid < 2 ^ 64 →
    (∀ e ∈ s.launches, s.leadDie e.2.part = d → s.readyToCommit e.1 e.2 = true → e = (lid, l) ∨ l.ready < e.2.ready) →
    Does (.commitContextTake d) s [.regs, .launches, .dies, .dbg] fun t => OnlyLaunch lid s t ∧
      t.launch? lid = some { l with phase := .settling, ctxGt := s.now, closed := true, progGt := s.now } ∧ (t.die d).contexts = (s.die d).contexts ++ [lid]) ∧
  (∀ s lid l, s.launch? lid = some l → l.phase = .settling → s.settled lid l = true → s.settleFailure l = none →
    Does (.commitSettleEnd lid) s [.launches] fun t => OnlyLaunch lid s t ∧ t.launch? lid = some { l with phase := .performing, performGt := s.now }) ∧
  (∀ s lid l f, s.launch? lid = some l → l.phase = .settling → l.fail = none → s.settleFailure l = some f →
    Does (.commitSettleEnd lid) s [.regs, .launches, .log] fun t => OnlyLaunch lid s t ∧
      ∃ x, t.launch? lid = some x ∧ x.phase = .ended ∧ x.cq = l.cq ∧ x.fail = some f) ∧
  (∀ s lid l, s.launch? lid = some l → l.phase = .settling → l.fail = none → l.ctxGt + 151000 ≤ s.now → s.settled lid l = false →
    Does (.settleLimitExpiry lid) s [.regs, .launches, .log] fun t => OnlyLaunch lid s t ∧
      ∃ x f, t.launch? lid = some x ∧ x.phase = .ended ∧ x.cq = l.cq ∧ x.fail = some f ∧ (s.settleFailure l = none → f.status = 7 ∧ f.gt = l.ctxGt + 151000) ∧
        ∀ g, s.settleFailure l = some g → g.gt < l.ctxGt + 151000 → f = g) ∧
  (∀ s lid l, s.launch? lid = some l → l.phase = .settling → l.ctxGt + 151000 ≤ s.now → s.settled lid l = true → s.settleFailure l = none →
    Does (.settleLimitExpiry lid) s [.launches] fun t => OnlyLaunch lid s t ∧ t.launch? lid = some { l with phase := .performing, performGt := s.now }) ∧
  (∀ s d lid l i e, okDie d = true → (s.die d).contexts = [lid] → s.launch? lid = some l → l.phase = .performing → (l.cq.findIdx? fun x => x.st == .waiting) = some i →
    l.cq[i]? = some e → e.poison = false → s.maySend l i e = true → e.kind = ckSem → (s.sem l.part e.addr).waiters = [] →
    Does (.commitEntrySend d) s [.launches, .parts, .dies] fun t => OnlyLaunch lid s t ∧
      t.launch? lid = some { l with cq := l.cq.set i { e with st := .sent } } ∧
      (t.sem l.part e.addr).count = min ((s.sem l.part e.addr).count + numAt e.data 0 4) 0xFFFFFFFF) ∧
  (∀ s d lid l i e a v, okDie d = true → (s.die d).contexts = [lid] → s.launch? lid = some l → l.phase = .performing → (l.cq.findIdx? fun x => x.st == .waiting) = some i →
    l.cq[i]? = some e → e.poison = false → s.maySend l i e = true → e.kind = ckEvent → s.eventWord l.part e.addr = (.ok a, v) → v.poisoned a 8 = false → v.linesHere [(.hbm a, 8)] = true →
    Does (.commitEntrySend d) s [.free, .mem, .poison, .cores, .launches, .parts, .dies, .chans] fun t =>
      leNat (t.bytes a 8) = max (leNat (s.bytes a 8)) (numAt e.data 0 8 % 2 ^ 63) ∧ (∀ j, j < a ∨ a + 8 ≤ j → mget? t.mem j = mget? s.mem j) ∧
      ∃ x, t.launch? lid = some x ∧ x.cq = l.cq.set i { e with st := .sent }) ∧
  (∀ s d lid l i e a v, okDie d = true → (s.die d).contexts = [lid] → s.launch? lid = some l → l.phase = .performing → (l.cq.findIdx? fun x => x.st == .waiting) = some i →
    l.cq[i]? = some e → e.poison = false → s.maySend l i e = true → e.kind = ckEvent → s.eventWord l.part e.addr = (.ok a, v) → v.poisoned a 8 = false → v.linesHere [(.hbm a, 8)] = false →
    Does (.commitEntrySend d) s [.free, .parts, .dies, .chans] fun t => t.launch? lid = some l) ∧
  (∀ s lid l i e, s.launch? lid = some l → l.cq[i]? = some e → l.phase = .performing → e.st = .sent → e.kind ≠ ckFinal → e.kind ≠ ckRemote → e.poison = false →
    Does (.commitEntryAck lid i true) s [.launches] fun t => OnlyLaunch lid s t ∧ t.launch? lid = some { l with cq := l.cq.set i { e with st := .done } }) ∧
  (∀ s lid l i e, s.launch? lid = some l → l.cq[i]? = some e → l.phase = .performing → e.st = .sent → e.kind ≠ ckFinal → e.kind ≠ ckRemote → e.poison = true → l.part < 64 →
    Does (.commitEntryAck lid i false) s [.regs, .launches, .log] fun t => OnlyLaunch lid s t ∧ t.launch? lid = some { l with cq := l.cq.set i { e with st := .refused } } ∧
      (t.reg (partCmtUnc l.part)).toNat = min ((s.reg (partCmtUnc l.part)).toNat + 1) 0xFFFFFFFF) ∧
  (∀ s lid l, s.launch? lid = some l → l.phase = .performing → l.ctxGt + 200000 ≤ s.now → l.part < 64 →
    Does (.commitPerformLimit lid) s [.regs, .launches, .log] fun t => OnlyLaunch lid s t ∧
      t.launch? lid = some { l with cq := l.cq.map fun e => if openEntry e then { e with st := .refused } else e } ∧
      (t.reg (partCmtUnc l.part)).toNat = min ((s.reg (partCmtUnc l.part)).toNat + (l.cq.filter openEntry).length) 0xFFFFFFFF ∧ RegsBut [partCmtUnc l.part, logDrop] s t)

/-! Routes. -/

/-- A vector of a function that exists has been raised, and nothing else has left the host port (R407, R408): its message is out, or, masked or in D3hot, its pending bit stands. -/
def OneVector (s t : State) (fn vec : Nat) : Prop :=
  fn = 0 ∨ s.vfExists fn = true →
    (s.host.unmasked.contains (fn * 4096 + vec) = true ∧ s.host.d3.contains fn = false → t.out = .irq fn vec :: s.out ∧ t.host = s.host) ∧
    (s.host.unmasked.contains (fn * 4096 + vec) = false ∨ s.host.d3.contains fn = true → t.out = s.out ∧ t.host = { s.host with pend := sins s.host.pend (fn * 4096 + vec) })

/-- Tier 2. Routes (R318 to R321): a command starts where none runs, else only CMDLOST sets; record and patch hold what their version will be; completion makes the version current, gives its number and raises vector 57. -/
def Obligations.RouteCommandsMakeVersions : Prop :=
  (∀ s vf r p n es v, okVf vf = true → s.vfOpen vf = true → s.vfPart vf = some p → (s.part p).rcmd = none → s.routeCount vf = some n → s.routeSource p vf n = (.ok es, v) →
    Does (.routeRecord vf r) s [.free, .out, .regs, .parts] fun t => t.bit (vfKey vf vfRstat) 0 = true ∧ RegsBut [vfKey vf vfRstat] s t ∧
      (t.part p).rcmd = some { op := 1, route := r % 256, result := 0, entries := es } ∧ (t.part p).vers = (s.part p).vers ∧ (t.part p).routes = (s.part p).routes) ∧
  (∀ s vf r k p n es v, okVf vf = true → s.vfOpen vf = true → s.vfPart vf = some p → (s.part p).rcmd = none → (tget {} (s.part p).routes (r % 256)).live = true → s.routeCount vf = some n →
    k % 4096 + n ≤ (s.version p (r % 256) (tget {} (s.part p).routes (r % 256)).ver).length → s.routeSource p vf n = (.ok es, v) →
    Does (.routePatch vf r k) s [.free, .out, .regs, .parts] fun t => t.bit (vfKey vf vfRstat) 0 = true ∧ RegsBut [vfKey vf vfRstat] s t ∧
      ∃ c, (t.part p).rcmd = some c ∧ c.op = 2 ∧ c.route = r % 256 ∧ c.result = 0 ∧
        c.entries = (s.version p (r % 256) (tget {} (s.part p).routes (r % 256)).ver).take (k % 4096) ++ es ++
          (s.version p (r % 256) (tget {} (s.part p).routes (r % 256)).ver).drop (k % 4096 + n)) ∧
  (∀ s vf r p, okVf vf = true → s.vfOpen vf = true → s.vfPart vf = some p → (s.part p).rcmd = none →
    Does (.routeDelete vf r) s [.regs, .parts] fun t => t.bit (vfKey vf vfRstat) 0 = true ∧ RegsBut [vfKey vf vfRstat] s t ∧
      (t.part p).rcmd = some { op := 3, route := r % 256, result := if (tget {} (s.part p).routes (r % 256)).live then 0 else 5 }) ∧
  (∀ s vf r k p c i, okVf vf = true → s.vfOpen vf = true → s.vfPart vf = some p → (s.part p).rcmd = some c → i ∈ [Instr.routeRecord vf r, Instr.routePatch vf r k, Instr.routeDelete vf r] →
    Does i s [.regs] fun t => t.bit (vfKey vf vfRstat) 16 = true ∧ RegsBut [vfKey vf vfRstat] s t) ∧
  (∀ s p c, okPart p = true → (s.part p).rcmd = some c → s.routeResult p c = 0 → c.op ≠ 3 →
    Does (.routeCmdComplete p) s [.out, .regs, .parts, .host] fun t => (t.part p).rcmd = none ∧
      tget {} (t.part p).routes c.route = { ver := ((tget {} (s.part p).routes c.route).ver + 1) % 2 ^ 32, live := true } ∧
      (∀ r, r ≠ c.route → tget {} (t.part p).routes r = tget {} (s.part p).routes r) ∧
      { route := c.route, ver := ((tget {} (s.part p).routes c.route).ver + 1) % 2 ^ 32, entries := c.entries } ∈ (t.part p).vers ∧
      (t.reg (vfKey (s.vfOf p) vfRver)).toNat = ((tget {} (s.part p).routes c.route).ver + 1) % 2 ^ 32 ∧
      t.bit (vfKey (s.vfOf p) vfRstat) 0 = false ∧ t.fld (vfKey (s.vfOf p) vfRstat) 8 8 = 0 ∧ RegsBut [vfKey (s.vfOf p) vfRver, vfKey (s.vfOf p) vfRstat] s t ∧
      OneVector s t (s.vfOf p) 57) ∧
  (∀ s p c, okPart p = true → (s.part p).rcmd = some c → s.routeResult p c ≠ 0 →
    Does (.routeCmdComplete p) s [.out, .regs, .parts, .host] fun t => (t.part p).rcmd = none ∧ (t.part p).routes = (s.part p).routes ∧
      t.bit (vfKey (s.vfOf p) vfRstat) 0 = false ∧ t.fld (vfKey (s.vfOf p) vfRstat) 8 8 = s.routeResult p c % 256 ∧ RegsBut [vfKey (s.vfOf p) vfRstat] s t ∧
      OneVector s t (s.vfOf p) 57) ∧
  (∀ s p c, okPart p = true → (s.part p).rcmd = some c → c.op = 3 → c.result = 0 →
    Does (.routeCmdComplete p) s [.out, .regs, .parts, .host] fun t => (tget {} (t.part p).routes c.route).live = false ∧
      t.bit (vfKey (s.vfOf p) vfRstat) 0 = false ∧ RegsBut [vfKey (s.vfOf p) vfRstat] s t ∧ OneVector s t (s.vfOf p) 57)

/-- A write to PF0's BAR0 at `off` arrives, and the block there takes it (R397, R488). -/
def Stored (s : State) (off : Nat) : Prop := s.lamp lampPcie = true ∧ s.host.d3.contains 0 = false ∧ s.pfServes off = true

/-! Partition reset. -/

/-- No request of a router bears an epoch that its partition has not reached. -/
def NoneAhead (s : State) (p : Nat) : Prop :=
  ∀ d, (∀ r ∈ (s.die d).reads, r.2.part = p → r.2.epoch ≠ (s.epochOf p + 1) % 256) ∧ ∀ r ∈ (s.die d).tracks, r.2.part = p → r.2.epoch ≠ (s.epochOf p + 1) % 256

/-- Tier 2. Partition reset (R22, R322, R410, R491, R492, R494, R495): it begins once, ends every launch under a new epoch when no commit is in progress, writes their records, waits while remote requests of the old epoch are unanswered, and ends with the partition's queues, semaphores, routes and registers clear. -/
def Obligations.PartitionResetsClearTheirState : Prop :=
  (∀ s p, okPart p = true → Stored s (partRst p) → s.valid p = true → (s.part p).reset = 0 →
    Does (.partRstWrite p) s [.out, .regs, .parts, .host, .log] fun t => (t.part p).reset = 1 ∧ t.bit (partRst p) 0 = true ∧ t.bit (partStat p) 1 = true ∧
      t.bit (partStat p) 0 = false ∧ (t.part p).tdi = (if (s.part p).tdi = 1 ∨ (s.part p).tdi = 2 then 3 else (s.part p).tdi) ∧
      RegsBut [partRst p, partStat p, logDrop] s t) ∧
  (∀ s p, okPart p = true → Stored s (partRst p) → (s.part p).reset ≠ 0 → Does (.partRstWrite p) s [] fun t => t = s) ∧
  (∀ s p, okPart p = true → (s.part p).reset = 1 → s.commits p = false → (∀ e ∈ s.launches, e.2.part ≠ p) →
    Does (.partResetEpoch p) s [.free, .regs, .cores, .launches, .parts, .dies, .copies, .links, .dbg, .log] fun t => (t.part p).reset = 2 ∧
      t.epochOf p = (s.epochOf p + 1) % 256 ∧ (t.part p).coll = []) ∧
  (∀ s p lid l, okPart p = true → (s.part p).reset = 1 → s.launches = [(lid, l)] → l.part = p → l.phase = .running → l.fail = none → l.held = [] →
    (∀ e ∈ (s.part p).sems, e.2.waiters = []) → l.producers = [] → NoneAhead s p →
    Does (.partResetEpoch p) s [.free, .regs, .cores, .launches, .parts, .dies, .copies, .links, .dbg, .log] fun t =>
      ∃ x, t.launch? lid = some x ∧ x.phase = .ended ∧ x.finals = [] ∧ (∀ q, (t.core q).has lid = false) ∧
        x.fail.map (·.status) = some (match l.replay.bind (·.first) with
          | some f => f.2.status
          | none => 8)) ∧
  (∀ s p, okPart p = true → (s.part p).reset = 2 →
    Does (.partResetSettle p) s [.free, .out, .regs, .mem, .poison, .cores, .launches, .queues, .parts, .dies, .chans, .copies, .links, .host, .dbg] fun t =>
      (t.part p).reset = 3 ∧ ∀ i l, s.launch? i = some l → l.part = p → t.launch? i = none) ∧
  (∀ s p lid l tr a v, okPart p = true → (s.part p).reset = 2 → s.launches = [(lid, l)] → l.part = p → l.call = none → l.replay = none →
    (s.release lid l).translSpan p ((s.queue l.qk).cpl + 32 * (l.seq % (s.queue l.qk).size)) 32 .write = (.ok [(tr, 32)], v) → tr.tgt = .hbm a →
    v.dieSees (s.leadDie p) (.hbm a) = true →
    Does (.partResetSettle p) s [.free, .out, .regs, .mem, .poison, .cores, .launches, .queues, .parts, .dies, .chans, .copies, .links, .host, .dbg] fun t =>
      (t.part p).reset = 3 ∧ t.launches = [] ∧ t.bytes a 32 = l.record s.now ∧ ∀ i, i < a ∨ a + 32 ≤ i → mget? t.mem i = mget? s.mem i) ∧
  (∀ s p, okPart p = true → (s.part p).reset = 3 → s.oldRequests p = true → Does (.partResetRemoteDone p) s [] fun t => t = s) ∧
  (∀ s p, okPart p = true → (s.part p).reset = 3 → s.oldRequests p = false →
    Does (.partResetRemoteDone p) s [.gt, .out, .regs, .mem, .memEpoch, .poison, .cores, .launches, .parts, .dies, .chans, .copies, .links, .host, .boot, .dbg, .log] fun t =>
      (t.part p).reset = 4) ∧
  (∀ s p, okPart p = true → (s.part p).reset = 4 → s.chart.applying = false → s.chart.holding = false → s.dieHolds p = false → (s.part p).staged = none →
    (s.part p).rekey = false →
    Does (.partResetEnd p) s [.free, .out, .regs, .cores, .queues, .parts, .dies, .chans, .host] fun t => (t.part p).reset = 0 ∧ t.bit (partRst p) 0 = false ∧ t.bit (partStat p) 1 = false ∧
      (t.part p).sems = [] ∧ (t.part p).routes = [] ∧ (t.part p).vers = [] ∧ (t.part p).chans = [] ∧ (t.part p).tlb = [] ∧ (t.part p).coll = [] ∧ (t.part p).tdi = (s.part p).tdi ∧
      (∀ k, k / 256 = p → t.queue k = {}) ∧ (∀ k, k / 256 ≠ p → t.queue k = s.queue k) ∧
      (∀ k, partReg p (s.vfOf p) k = true → k ≠ digSwstat p → t.reg k = regReset k) ∧
      (∀ k, partReg p (s.vfOf p) k = false → k ≠ partRst p → k ≠ partStat p → t.reg k = s.reg k) ∧
      (∀ c ∈ s.partCores p, (t.core c).l1 = []) ∧ (∀ c, (t.core c).blocks = (s.core c).blocks)) ∧
  (∀ s p, okPart p = true → (s.part p).reset = 4 → s.chart.applying = false → s.chart.holding = false → s.dieHolds p = false → (s.part p).staged = none →
    (s.part p).rekey = true → s.valid p = true →
    Does (.partResetEnd p) s [.free, .out, .regs, .mem, .memEpoch, .poison, .cores, .queues, .parts, .dies, .chans, .host, .sec] fun t =>
      t.sec = { (s.draw 4).2.sec with keys := tset s.sec.keys (s.ent p).keyslot (BitVec.ofNat 512 (s.draw 4).1) } ∧
      (∀ a, (∃ c ∈ bitsSet (s.ent p).hbmch 256, chanMem c a = true) → mget? t.mem a = none) ∧
      ∀ a, (∀ c ∈ bitsSet (s.ent p).hbmch 256, chanMem c a = false) → mget? t.mem a = mget? s.mem a)

/-! Charts. -/

/-- A load runs, and its image may be checked: SECROOT is lit, and no owner change or debug unlock waits for its resets (R216, R450, R454, R487). -/
def ChecksCharts (s : State) : Prop := s.bit chartStatus 0 = true ∧ s.bit chartCtrl 0 = true ∧ s.lamp lampSecroot = true ∧ s.chart.holding = false

/-- Tier 2. Chart commands (R216 to R222): a command while another runs only sets CMDLOST; a rejected image changes nothing but the result; a partition chart is staged, activated, or discarded, and one that retirements since its check no longer allow ends with RETIRED; a load reads its image by PF0's DMA. That a chart rejected with RETIRED stays staged, and that RESULT comes when an activation takes effect, is the model's choice (log entry 89), as is that a new partition's activation waits while another change of every partition runs or a die of it awaits its reset (log entry 53). -/
def ChartCommandsCheckBeforeActing : Prop :=
  (∀ s st, Stored s chartCtrl → s.bit chartStatus 0 = false → Does (.chartLoad st) s [.out, .regs] fun t => t.out = .hostRead 0 (s.reg64 chartSrc) (s.reg chartLen).toNat :: s.out ∧ t.bit chartStatus 0 = true ∧ t.bit chartCtrl 0 = true ∧ t.bit chartCtrl 1 = st ∧
    RegsBut [chartStatus, chartCtrl] s t) ∧
  (∀ s p st i, okPart p = true → Stored s chartCtrl → s.bit chartStatus 0 = true → i ∈ [Instr.chartLoad st, Instr.chartActivate p, Instr.chartDiscard p] →
    Does i s [.regs] fun t => t.bit chartStatus 24 = true ∧ RegsBut [chartStatus] s t) ∧
  (∀ s, ChecksCharts s → s.chart.applying = false → s.chart.image = [] →
    Does (.chartLoadComplete none) s [.out, .regs, .host, .log] fun t => t.bit chartStatus 0 = false ∧ t.bit chartCtrl 0 = false ∧ t.fld chartStatus 8 8 = 14 ∧
      RegsBut [chartStatus, chartCtrl, logDrop] s t) ∧
  (∀ s m, ChecksCharts s → s.chart.applying = false → s.chart.image = [] →
    s.chartCheck m (s.reg chartLen).toNat false ≠ 0 →
    Does (.chartLoadComplete (some m)) s [.out, .regs, .host, .log] fun t => t.bit chartStatus 0 = false ∧ t.bit chartCtrl 0 = false ∧
      t.fld chartStatus 8 8 = s.chartCheck m (s.reg chartLen).toNat false ∧ RegsBut [chartStatus, chartCtrl, logDrop] s t) ∧
  (∀ s m, ChecksCharts s → s.chart.applying = false → s.chart.image = [] →
    s.chartCheck m (s.reg chartLen).toNat false = 0 → imKind m = 1 →
    Does (.chartLoadComplete (some m)) s [.out, .regs, .parts, .host, .log] fun t => t.bit chartStatus 0 = false ∧ t.fld chartStatus 8 8 = 0 ∧
      (t.part (imPart m)).staged = some (imStaged m) ∧ t.bit (chartStaged + 4 * (imPart m / 32)) (imPart m % 32) = true ∧
      ∀ q, q ≠ imPart m → t.part q = s.part q) ∧
  (∀ s p g, okPart p = true → Stored s chartCtrl → s.bit chartStatus 0 = false → (s.part p).staged = some g → (s.part p).activating = false → s.stagedRetired p g = false → s.valid p = true →
    s.changesRes p g = false → Does (.chartActivate p) s [.out, .regs, .parts, .host] fun t => (t.part p).activating = true ∧ t.bit chartStatus 1 = true ∧ t.fld chartCtrl 8 6 = p ∧
      (t.part p).reset = (s.part p).reset ∧ (t.part p).staged = some g) ∧
  (∀ s p g, okPart p = true → Stored s chartCtrl → s.bit chartStatus 0 = false → (s.part p).staged = some g → (s.part p).activating = false → s.stagedRetired p g = false → s.valid p = true →
    (s.part p).reset = 0 → s.changesRes p g = true →
    Does (.chartActivate p) s [.out, .regs, .parts, .host, .log] fun t => (t.part p).activating = true ∧ (t.part p).reset = 1 ∧ t.bit (partStat p) 1 = true) ∧
  (∀ s p g, okPart p = true → Stored s chartCtrl → s.bit chartStatus 0 = false → (s.part p).staged = some g → (s.part p).activating = false → s.stagedRetired p g = true →
    Does (.chartActivate p) s [.out, .regs, .host, .log] fun t => t.fld chartStatus 8 8 = 7 ∧ t.fld chartCtrl 8 6 = p ∧ RegsBut [chartStatus, chartCtrl, logDrop] s t) ∧
  (∀ s p g, okPart p = true → Stored s chartCtrl → s.bit chartStatus 0 = false → (s.part p).staged = some g → (s.part p).activating = false → s.stagedRetired p g = false → s.valid p = false →
    s.installHeld g = true → Does (.chartActivate p) s [.regs, .parts] fun t => (t.part p).activating = true ∧ (t.part p).staged = some g ∧ t.bit chartStatus 1 = true ∧ t.fld chartCtrl 8 6 = p) ∧
  (∀ s p g, okPart p = true → Stored s chartCtrl → s.bit chartStatus 0 = false → (s.part p).staged = some g → (s.part p).activating = false → s.stagedRetired p g = false → s.valid p = false →
    s.installHeld g = false → Does (.chartActivate p) s [.free, .out, .regs, .mem, .memEpoch, .poison, .cores, .parts, .dies, .chans, .chart, .host, .sec, .dbg, .log] fun t =>
      t.fld chartStatus 8 8 = 0 ∧ (t.part p).staged = none ∧ (t.part p).rekey = false ∧ t.ent p = { g.ent with ways := s.liveWays g.ent.ways } ∧
      t.reg64 (chartPseq p) = g.seq % 2 ^ 64) ∧
  (∀ s p, okPart p = true → Stored s chartCtrl → s.bit chartStatus 0 = false → (s.part p).activating = false →
    Does (.chartDiscard p) s [.out, .regs, .parts, .host, .log] fun t => (t.part p).staged = none ∧ t.bit (chartStaged + 4 * (p / 32)) (p % 32) = false ∧ t.fld chartStatus 8 8 = 0) ∧
  (∀ s p g, okPart p = true → (s.part p).staged = some g → (s.part p).activating = true → (s.part p).reset = 0 → s.quiet p = true → s.valid p = true → s.stagedRetired p g = false →
    s.changesRes p g = false → (s.ent p).chans = g.ent.chans →
    Does (.activationComplete p) s [.free, .out, .regs, .parts, .dies, .chans, .chart, .host, .sec, .log] fun t => (t.part p).staged = none ∧ (t.part p).activating = false ∧
      t.ent p = { g.ent with ways := s.liveWays g.ent.ways } ∧ (t.part p).sems = (s.part p).sems ∧ t.reg64 (chartPseq p) = g.seq % 2 ^ 64 ∧
      t.reg (partModel p) = s.reg (partModelNx p)) ∧
  (∀ s p g, okPart p = true → (s.part p).staged = some g → (s.part p).activating = true → (s.part p).reset = 0 → s.quiet p = true → s.valid p = false → s.stagedRetired p g = false →
    s.installHeld g = false →
    Does (.activationComplete p) s [.free, .out, .regs, .mem, .memEpoch, .poison, .cores, .parts, .dies, .chans, .chart, .host, .sec, .dbg, .log] fun t =>
      (t.part p).staged = none ∧ (t.part p).activating = false ∧ t.ent p = { g.ent with ways := s.liveWays g.ent.ways } ∧ t.reg64 (chartPseq p) = g.seq % 2 ^ 64) ∧
  (∀ s p g, okPart p = true → (s.part p).staged = some g → s.valid p = false → s.installHeld g = true → Does (.activationComplete p) s [] fun t => t = s)

/-- What a full chart's taking effect leaves: its entries, without the ways that are disabled, its substitutions, retirements, routes, DEVID and sequence, and a lit CHART lamp. -/
def ChartTaken (m : List Byte) (s t : State) : Prop :=
  (∀ e ∈ imEnts m, t.ent e.1 = { e.2 with ways := s.liveWays e.2.ways }) ∧ (∀ p, (∀ e ∈ imEnts m, e.1 ≠ p) → t.ent p = {}) ∧
  t.chart.active = true ∧ t.chart.applying = false ∧ t.chart.image = [] ∧ t.chart.subst = imSubst m ∧ t.chart.routes = imRoutes m ∧ t.chart.digest = Config.sha384 m ∧
  t.chart.rCores = numAt m (secOff m 4) 8 ∧ t.chart.rChans = numAt m (secOff m 4 + 8) 32 ∧ t.chart.rLinks = numAt m (secOff m 4 + 0x28) 6 ∧
  t.fld chartDevid 0 16 = imDevid m % 2 ^ 16 ∧ t.reg64 chartSeq = imSeq m % 2 ^ 64 ∧ t.lamp lampChart = true

/-- Tier 2. Full charts (R214, R218, R219, R222, R489): an accepted full image is held; at the next completion the retirements since are checked again, and every partition begins its reset; once those have stopped, or at once where no partition is valid, it takes effect: its entries, substitutions, retirements, routes, DEVID and sequence; the CHART lamp lights, and STORE keeps it as the boot chart; the boot chart takes effect once SECROOT is lit. That a chart waits for the fourth step of the resets, and for owner changes and debug unlocks, is the model's reading (log entry 53). -/
def FullChartsTakeEffect : Prop :=
  (∀ s m, ChecksCharts s → s.chart.applying = false → s.chart.image = [] →
    s.chartCheck m (s.reg chartLen).toNat false = 0 → imKind m = 0 →
    Does (.chartLoadComplete (some m)) s [.regs, .chart] fun t => t.chart = { s.chart with image := m } ∧ t.bit chartStatus 0 = true ∧ t.bit chartStatus 22 = false ∧
      RegsBut [chartStatus] s t) ∧
  (∀ s m x, ChecksCharts s → s.chart.applying = false → s.chart.image = m → m ≠ [] → s.validParts = [] →
    (∀ e ∈ imEnts m, s.entRetired (s.imRCores m) (s.imRChans m) (imSubst m) e.2 = false) → s.bit chartCtrl 1 = true →
    Does (.chartLoadComplete x) s
      [.free, .out, .regs, .mem, .memEpoch, .poison, .cores, .parts, .dies, .chans, .links, .chart, .host, .sec, .boot, .dbg, .log] fun t =>
      ChartTaken m s t ∧ t.chart.boot = some m ∧ t.fld chartStatus 8 8 = 0 ∧ t.bit chartStatus 0 = false ∧ ∀ c, (t.core c).blocks = []) ∧
  (∀ s m x e, ChecksCharts s → s.chart.applying = false → s.chart.image = m → m ≠ [] → e ∈ imEnts m →
    s.entRetired (s.imRCores m) (s.imRChans m) (imSubst m) e.2 = true →
    Does (.chartLoadComplete x) s [.out, .regs, .chart, .host, .log] fun t => t.chart = { s.chart with image := [] } ∧ t.fld chartStatus 8 8 = 7 ∧
      t.bit chartStatus 0 = false ∧ RegsBut [chartStatus, chartCtrl, logDrop] s t) ∧
  (∀ s m x, ChecksCharts s → s.chart.applying = false → s.chart.image = m → m ≠ [] → s.validParts ≠ [] →
    (∀ e ∈ imEnts m, s.entRetired (s.imRCores m) (s.imRChans m) (imSubst m) e.2 = false) → (∀ p ∈ s.validParts, (s.part p).reset = 0) →
    Does (.chartLoadComplete x) s [.out, .regs, .parts, .chart, .host, .log] fun t => t.chart = { s.chart with applying := true } ∧ t.bit chartStatus 0 = true ∧
      (∀ p ∈ s.validParts, (t.part p).reset = 1 ∧ t.bit (partStat p) 1 = true) ∧ ∀ p, p < 64 → (t.part p).staged = none) ∧
  (∀ s x, ChecksCharts s → s.chart.applying = true → s.allStopped = false → Does (.chartLoadComplete x) s [] fun t => t = s) ∧
  (∀ s m x, ChecksCharts s → s.chart.applying = true → s.chart.image = m → s.allStopped = true →
    Does (.chartLoadComplete x) s
      [.free, .out, .regs, .mem, .memEpoch, .poison, .cores, .queues, .parts, .dies, .chans, .links, .chart, .host, .sec, .boot, .dbg, .log] fun t =>
      ChartTaken m s t ∧ t.fld chartStatus 8 8 = 0 ∧ t.bit chartStatus 0 = false ∧ ∀ p ∈ s.validParts, (t.part p).reset = 0) ∧
  (∀ s m, s.chart.boot = some m → s.lamp lampSecroot = true → s.chart.active = false → s.boot.missed.contains lampChart = false → s.chartCheck m (imLen m) true = 0 →
    Does .bootChartLoad s [.free, .out, .regs, .mem, .memEpoch, .poison, .cores, .queues, .parts, .dies, .chans, .links, .chart, .host, .sec, .boot, .dbg] fun t =>
      ChartTaken m s t ∧ t.chart.boot = some m) ∧
  (∀ s m, s.chart.boot = some m → s.chartCheck m (imLen m) true ≠ 0 → Does .bootChartLoad s [] fun t => t = s)

/-- Tier 2. Chart commands and charts. -/
def Obligations.ChartsAreCheckedAndTakeEffect : Prop := ChartCommandsCheckBeforeActing ∧ FullChartsTakeEffect

/-! The memory system by itself. -/

/-- Tier 2. Invalidation and L2 errors (R265, R266, R272 to R274): INV stays set until no access uses an old translation, and as it clears every event wait that runs is bound by the tables as they stand, or ends where its word meets R309 no longer, which is the model's choice (log entry 109); correctable errors are counted; the fourth within 86,400 s, or an uncorrectable one, takes the way and its lines out of service, and modified lines of the latter are poisoned. -/
def Obligations.TranslationsAndWaysLeaveService : Prop :=
  (∀ s p, okPart p = true → Stored s (partTlbinv p) → s.tdiLocked p = false → (s.part p).sweep.running = false →
    Does (.partTlbinvWrite p) s [.regs, .cores] fun t => t.bit (partTlbinv p) 0 = true ∧ RegsBut [partTlbinv p] s t ∧
      ∀ c i x l, tfind (s.core c).loads i = some x → x.bound = none → s.launch? x.launch = some l → l.part = p →
        tfind (t.core c).loads i = some { x with old := true }) ∧
  (∀ s p, okPart p = true → s.bit (partTlbinv p) 0 = true → s.oldUse p = false → s.staleUse p = false →
    Does (.tlbInvalidationDone p) s [.regs, .launches, .parts] fun t => (t.part p).tlb = [] ∧ t.bit (partTlbinv p) 0 = false ∧ RegsBut [partTlbinv p] s t ∧
      (∀ lid l a, s.launch? lid = some l → l.word = some a → l.part = p → l.phase = .running →
        (∀ b, s.eventNow p (eAddr l.entry) = .ok b → ∃ x, t.launch? lid = some x ∧ x.word = some b ∧ x.phase = .running) ∧
        (∀ f, s.eventNow p (eAddr l.entry) = .error f → ∃ x, t.launch? lid = some x ∧ x.phase = .ended)) ∧
      ∀ lid l, s.launch? lid = some l → l.word = none ∨ l.part ≠ p ∨ l.phase ≠ .running → t.launch? lid = some l) ∧
  (∀ s p, okPart p = true → s.oldUse p = true ∨ s.staleUse p = true → Does (.tlbInvalidationDone p) s [] fun t => t = s) ∧
  (∀ s d sl w, okDie d = true → sl < 32 → w < 16 → s.bit (l2WayStat d) w = false →
    Does (.l2CorrectableError d sl w) s [.regs, .dies] fun t => RegsBut [l2WayCe d sl w] s t ∧
      (t.reg (l2WayCe d sl w)).toNat = min ((s.reg (l2WayCe d sl w)).toNat + 1) 0xFFFFFFFF ∧ (tget [] (t.die d).wayCe w).getLast? = some s.now) ∧
  (∀ s d w, okDie d = true → w < 16 → s.bit (l2WayStat d) w = false → reachedN (tget [] (s.die d).wayCe w) 4 = true → s.wayOwner d w = none →
    Does (.l2WayDisable d w) s [.out, .regs, .dies, .chans, .host, .log] fun t => t.bit (l2WayStat d) w = true ∧ (∀ e ∈ (t.die d).l2, e.2.way ≠ w) ∧ t.poison = s.poison) ∧
  (∀ s d w p, okDie d = true → w < 16 → s.bit (l2WayStat d) w = false → reachedN (tget [] (s.die d).wayCe w) 4 = true → s.wayOwner d w = some p →
    (s.waysOf p d).filter (· != w) = [] → (s.part p).reset = 0 →
    Does (.l2WayDisable d w) s [.out, .regs, .parts, .dies, .chans, .chart, .host, .log] fun t => t.bit (l2WayStat d) w = true ∧ (∀ e ∈ (t.die d).l2, e.2.way ≠ w) ∧
      (t.part p).reset = 1 ∧ (t.ent p).ways = (s.ent p).ways - 2 ^ (16 * d + w)) ∧
  (∀ s d w, okDie d = true → w < 16 → s.bit (l2WayStat d) w = false →
    Does (.l2UncorrectableError d w) s [.free, .out, .regs, .poison, .cores, .launches, .parts, .dies, .chans, .chart, .host, .log] fun t => t.bit (l2WayStat d) w = true ∧ t.bit (l2WayStat d) 16 = true ∧
      (∀ e ∈ (t.die d).l2, e.2.way ≠ w) ∧ (∀ e ∈ (s.die d).l2, e.2.way = w → e.2.modified = true → e.1 ∈ t.poison) ∧ (∀ l ∈ s.poison, l ∈ t.poison))

/-- The channel's controller as it is, but for some of its parts. -/
def OnlyChan (c : Nat) (s t : State) : Prop := ∀ k, k ≠ c → t.chan k = s.chan k

/-- No acknowledgement of a device write waits for the HBM array. -/
def NoneOwed (s : State) : Prop := ∀ d, d < 4 → (s.die d).owed = []

/-- The channel serves requests, its stack's lamp is lit, no late scrub read goes first, and nothing else waits on what it does: no calibration is due, its generator waits for no row, and no acknowledgement for the array. -/
def ServesOnly (s : State) (c : Nat) : Prop :=
  okChan c = true ∧ s.serves c = true ∧ s.lamp (lampStack (c / 32)) = true ∧ s.scrubFirst c = false ∧ (s.chan c).calDue = none ∧ (s.chan c).tgHold = false ∧ NoneOwed s

/-- Tier 2. HBM controllers (R275 to R280, R415, R416): a read meets what the array's code finds in its line and hands the line to what waits for it, a write renews the cells; a late scrub read goes before writes and copies; latency-critical reads that arrived below the cap go before others, later ones in turn with normal reads, requests that have waited 20 µs are promoted, writes drain between the marks, refresh is postponed for latency-critical reads and performed once none is pending, and calibration starts, is forced and ends by its due time. -/
def Obligations.ControllersOrderTheirRequests : Prop :=
  (∀ s c a b, ServesOnly s c → (s.chan c).reqs = [a, b] → a.cls = 3 → a.promoted = false → b.cls = 2 → a.line ≠ b.line → b.late = false → b.gen = false →
    Does (.hbmRequestServe c .clean) s [.chans] fun t => OnlyChan c s t ∧ (t.chan c).reqs = [a] ∧ (t.chan c).lcrUsed = (s.chan c).lcrUsed + Config.linePs ∧
      (t.chan c).postponed = []) ∧
  (∀ s c a b, ServesOnly s c → (s.chan c).reqs = [a, b] → a.cls = 3 → b.cls = 2 → b.late = true → b.promoted = false → a.gen = false →
    Does (.hbmRequestServe c .clean) s [.chans] fun t => OnlyChan c s t ∧ (t.chan c).reqs = [b] ∧ (t.chan c).lcrUsed = (s.chan c).lcrUsed ∧
      (t.chan c).postponed = (s.chan c).postponed) ∧
  (∀ s c a b, ServesOnly s c → (s.chan c).reqs = [a, b] → a.cls = 3 → b.cls = 5 → b.promoted = false → a.gen = false →
    Does (.hbmRequestServe c .clean) s [.chans] fun t => OnlyChan c s t ∧ (t.chan c).reqs = [b] ∧ (t.chan c).lcrUsed = (s.chan c).lcrUsed) ∧
  (∀ s c r, ServesOnly s c → (s.chan c).reqs = [r] → r.writes = false → r.gen = false →
    (Does (.hbmRequestServe c .corrected) s [.chans] fun t => OnlyChan c s t ∧ (t.chan c).reqs = [] ∧
      (t.chan c).ceCount = min ((s.chan c).ceCount + 1) 0xFFFFFFFF) ∧
    (s.host.unmasked.contains (128 + c) = false → Does (.hbmRequestServe c .uncorrectable) s [.out, .poison, .cores, .launches, .chans, .host] fun t => OnlyChan c s t ∧
      (t.chan c).reqs = [] ∧ (t.chan c).ueCount = min ((s.chan c).ueCount + 1) 0xFFFFFFFF ∧ r.line ∈ t.poison ∧ (∀ l ∈ s.poison, l ∈ t.poison) ∧ (128 + c) ∈ t.host.pend) ∧
    (r.hold = true → tfind (s.die (c / 64)).l2 r.line = none → Does (.hbmRequestServe c .clean) s [.chans] fun t => OnlyChan c s t ∧ (t.chan c).reqs = [] ∧ r.line ∈ (t.chan c).fetched)) ∧
  (∀ s c r e, ServesOnly s c → (s.chan c).reqs = [r] → r.writes = true → r.gen = false →
    Does (.hbmRequestServe c e) s [.chans] fun t => OnlyChan c s t ∧ (t.chan c).reqs = [] ∧ ∀ l, l ∈ (t.chan c).spoilt ↔ l ∈ (s.chan c).spoilt ∧ (l = r.line → r.bad = true)) ∧
  (∀ s c e, okChan c = true → s.serves c = true → s.scrubFirst c = true → (s.chan c).calDue = none → (s.chan c).tgHold = false → NoneOwed s →
    Does (.hbmRequestServe c e) s [.chans] fun t => OnlyChan c s t ∧ (t.chan c).reqs = (s.chan c).reqs) ∧
  (∀ s c, okChan c = true → (s.chan c).period < s.now / 1000 →
    Does (.lcrPeriodStart c) s [.chans] fun t => OnlyChan c s t ∧ t.chan c = { s.chan c with period := s.now / 1000, lcrUsed := 0, lcrDown := false }) ∧
  (∀ s c, okChan c = true → s.lcrCap c ≤ (s.chan c).lcrUsed → (s.chan c).period = s.now / 1000 →
    Does (.lcrCapReached c) s [.chans] fun t => OnlyChan c s t ∧ t.chan c = { s.chan c with lcrDown := true }) ∧
  (∀ s c i r, okChan c = true → (s.chan c).reqs[i]? = some r → 3 ≤ r.cls ∨ r.late = true → r.gt + 20000 ≤ s.now →
    Does (.starvationPromote c i) s [.chans] fun t => OnlyChan c s t ∧ t.chan c = { s.chan c with reqs := (s.chan c).reqs.set i { r with promoted := true } }) ∧
  (∀ s c, okChan c = true → 48 ≤ (s.chan c).writes → Does (.writeQueueHigh c) s [.chans] fun t => OnlyChan c s t ∧ t.chan c = { s.chan c with wrHigh := true }) ∧
  (∀ s c, okChan c = true → (s.chan c).writes ≤ 16 → Does (.writeQueueLow c) s [.chans] fun t => OnlyChan c s t ∧ t.chan c = { s.chan c with wrHigh := false }) ∧
  (∀ s c b, okChan c = true → s.serves c = true → (s.chan c).lcrPending = true → tget 0 (s.chan c).postponed b < Config.refreshMax →
    Does (.hbmRefresh c b) s [.chans] fun t => OnlyChan c s t ∧ tget 0 (t.chan c).postponed b = tget 0 (s.chan c).postponed b + 1) ∧
  (∀ s c b, okChan c = true → s.serves c = true → (s.chan c).lcrPending = false →
    Does (.hbmRefresh c b) s [.chans] fun t => OnlyChan c s t ∧ tget 0 (t.chan c).postponed b = 0 ∧ (t.chan c).reqs = (s.chan c).reqs) ∧
  (∀ s c, okChan c = true → s.serves c = true → (s.chan c).calDue = none → (s.chan c).calLast + s.fld (hbmCfg c) 8 8 * 10 ^ 6 ≤ s.now →
    Does (.calibrationDue c) s [.regs, .chans] fun t => OnlyChan c s t ∧ (t.chan c).calDue = some ((s.chan c).calLast + s.fld (hbmCfg c) 8 8 * 10 ^ 6) ∧
      t.bit (hbmStat c) 2 = !(s.chan c).lcrPending) ∧
  (∀ s c due, okChan c = true → s.serves c = true → (s.chan c).calDue = some due → due + 4 * 10 ^ 6 ≤ s.now →
    Does (.calibrationForced c) s [.regs] fun t => t.bit (hbmStat c) 2 = true ∧ t.bit (hbmStat c) 3 = true ∧ RegsBut [hbmStat c] s t) ∧
  (∀ s c due, okChan c = true → (s.chan c).calDue = some due → s.bit (hbmStat c) 2 = true →
    Does (.calibrationEnd c) s [.regs, .chans] fun t => OnlyChan c s t ∧ t.chan c = { s.chan c with calDue := none, calLast := due } ∧
      t.bit (hbmStat c) 2 = false ∧ RegsBut [hbmStat c] s t)

/-- Tier 2. Scrub, training, retirement and die-to-die links (R27, R262, R279, R407, R416, R434): the scrub reads the next line and counts what it finds, an uncorrectable one being poisoned unless L2 or a write that waits shelters its data, behind every waiting request unless it is late; a worn or untrainable channel is retired for good, with its lines and its vector; a failed die-to-die link is recorded once. -/
def ChannelsAreScrubbedAndRetired : Prop :=
  (∀ s c e, okChan c = true → s.serves c = true → s.scrubTurn c = true →
    Does (.patrolScrubRead c e) s [.out, .regs, .poison, .cores, .launches, .chans, .host, .log] fun t => (t.reg (hbmScrubPos c)).toNat = ((s.reg (hbmScrubPos c)).toNat + 1) % 12582912 ∧
      OnlyChan c s t ∧ (e = .corrected → (t.chan c).ceCount = min ((s.chan c).ceCount + 1) 0xFFFFFFFF ∧ t.poison = s.poison) ∧
      (e = .uncorrectable → (t.chan c).ueCount = min ((s.chan c).ueCount + 1) 0xFFFFFFFF ∧
        (s.sheltered (2 ^ 24 * c + (s.reg (hbmScrubPos c)).toNat) = false → 2 ^ 24 * c + (s.reg (hbmScrubPos c)).toNat ∈ t.poison) ∧
        (s.sheltered (2 ^ 24 * c + (s.reg (hbmScrubPos c)).toNat) = true → t.poison = s.poison ∧ 2 ^ 24 * c + (s.reg (hbmScrubPos c)).toNat ∈ (t.chan c).spoilt)) ∧
      (e = .clean → t.poison = s.poison ∧ t.log = s.log ∧ RegsBut [hbmScrubPos c] s t)) ∧
  (∀ s c e r, okChan c = true → r ∈ (s.chan c).reqs → s.scrubLate c = false → Does (.patrolScrubRead c e) s [] fun t => t = s) ∧
  (∀ s c, okChan c = true → s.chanRetired c = false →
    Does (.hbmTrainingLoss c false) s [.regs, .chans] fun t => t.bit (hbmStat c) 0 = false ∧ (t.chan c).retrain.getLast? = some s.now ∧ RegsBut [hbmStat c] s t) ∧
  (∀ s c, okChan c = true → s.chanRetired c = false →
    Does (.hbmTrainingLoss c true) s [.regs, .chans] fun t => t.bit (hbmStat c) 0 = true ∧ (t.chan c).retrain = [] ∧ RegsBut [hbmStat c] s t) ∧
  (∀ s c, okChan c = true → getBits s.chart.mChans c 1 = 0 → (s.chan c).rowsWorn = true ∨ (s.chan c).untrainable = true → s.host.unmasked.contains (128 + c) = false →
    Does (.channelRetire c) s [.out, .regs, .cores, .launches, .dies, .chans, .chart, .host, .log] fun t => t.chanRetired c = true ∧ t.bit (hbmStat c) 1 = true ∧
      (∀ k, k ≠ c → t.chanRetired k = s.chanRetired k) ∧ (t.chan c).reqs = [] ∧ (∀ e ∈ (t.die (c / 64)).l2, e.1 / 2 ^ 24 ≠ c) ∧ (128 + c) ∈ t.host.pend) ∧
  (∀ s n, n < 4 → n ∉ s.d2d → Does (.d2dLinkFail n) s [.regs, .d2d, .log] fun t => (∀ k, k ∈ t.d2d ↔ k = n ∨ k ∈ s.d2d)) ∧
  (∀ s n, n < 4 → n ∈ s.d2d → Does (.d2dLinkFail n) s [] fun t => t = s)

/-- The registers of a generator's run. -/
def tgRegs (c : Nat) : List Nat := [tgCtrl c, tgErrCnt c, tgErrAddr c, tgErrAddr c + 4, tgErrXor c, tgErrXor c + 4, tgPasses c, tgPasses c + 4, hbmStat c]

/-- The controller's next request is the generator's line at `off` (R283). -/
def GeneratorsTurn (s : State) (c : Nat) (r : HbmReq) (off : Nat) : Prop :=
  ServesOnly s c ∧ (s.chan c).reqs = [r] ∧ r.gen = true ∧ r.cls = 5 ∧ (s.chan c).tgRun = true ∧ off = s.reg64 (tgBase c) + 128 * (s.chan c).tgAt

/-- Tier 2. Traffic generators (R283 to R285): START is refused while a partition owns the channel or the range does not fit, otherwise clears the results and asks for the first line; a line's turn writes its pattern and nothing else, or counts what differs from it; STOP reads 1 until the run ends, after the line in hand; a run that ends is done. What START refuses beyond R283 and R285, the order of writing and reading, and the lines that pattern 3 takes are the model's choices (log entry 39). -/
def TrafficGeneratorsRun : Prop :=
  (∀ s c, okChan c = true → Stored s (tgCtrl c) → (s.chan c).tgRun = false → s.tgRefused c = true →
    Does (.hbmTgStart c) s [.regs] fun t => t.bit (tgCtrl c) 3 = true ∧ RegsBut [tgCtrl c] s t) ∧
  (∀ s c, okChan c = true → Stored s (tgCtrl c) → (s.chan c).tgRun = false → s.tgRefused c = false →
    Does (.hbmTgStart c) s (if s.tgPat c = 3 then [.free, .regs, .chans] else [.regs, .chans]) fun t => OnlyChan c s t ∧
      (s.tgPat c ≠ 3 → t.chan c = { s.chan c with
        tgRun := true, tgRead := false, tgPos := 0, tgAt := 0, tgSeen := [], tgHold := false,
        reqs := (s.chan c).reqs ++ [{ cls := 5, line := (2 ^ 31 * c + s.reg64 (tgBase c)) / 128, gt := s.now, gen := true, writes := s.tgOp c != 2 }] }) ∧
      (s.tgPat c = 3 → (t.chan c).tgRun = true ∧ ((t.chan c).tgHold = true ∨ (t.chan c).tgAt < s.tgLines c ∧
        (t.chan c).reqs.getLast?.map (·.line) = some ((2 ^ 31 * c + s.reg64 (tgBase c)) / 128 + (t.chan c).tgAt))) ∧
      t.bit (tgCtrl c) 0 = true ∧ t.bit (tgCtrl c) 2 = false ∧ t.bit (tgCtrl c) 3 = false ∧ t.reg (tgErrCnt c) = 0 ∧ t.reg64 (tgErrAddr c) = 0 ∧ t.reg64 (tgErrXor c) = 0 ∧
      t.reg64 (tgPasses c) = 0 ∧ t.bit (hbmStat c) 5 = true ∧ RegsBut (tgRegs c) s t) ∧
  (∀ s c r off, GeneratorsTurn s c r off → s.tgOp c ≠ 2 → (s.chan c).tgRead = false →
    Does (.hbmRequestServe c .clean) s [.free, .regs, .mem, .poison, .cores, .launches, .chans] fun t => OnlyChan c s t ∧
      (∀ i, i < 128 → mget? t.mem (2 ^ 31 * c + off + i) = some (s.tgByte c (off + i))) ∧
      (∀ i, i < 2 ^ 31 * c + off ∨ 2 ^ 31 * c + off + 128 ≤ i → mget? t.mem i = mget? s.mem i) ∧ RegsBut [tgPasses c, tgPasses c + 4] s t ∧
      (s.tgPat c ≠ 3 → s.tgStop c = false → (s.chan c).tgPos + 1 < s.tgLines c → (t.chan c).tgPos = (s.chan c).tgPos + 1 ∧ (t.chan c).reqs.length = 1)) ∧
  (∀ s c r off, GeneratorsTurn s c r off → s.tgOp c = 2 ∨ (s.chan c).tgRead = true →
    Does (.hbmRequestServe c .clean) s [.free, .regs, .chans] fun t => OnlyChan c s t ∧ RegsBut (tgRegs c) s t ∧
      (t.reg (tgErrCnt c)).toNat = (if s.tgErrs c off = [] then (s.reg (tgErrCnt c)).toNat else min ((s.reg (tgErrCnt c)).toNat + (s.tgErrs c off).length) 0xFFFFFFFF) ∧
      ((s.reg (tgErrCnt c)).toNat = 0 → ∀ o rest, s.tgErrs c off = o :: rest → t.reg64 (tgErrAddr c) = o % 2 ^ 64) ∧
      (s.tgLines c ≤ (s.chan c).tgPos + 1 → t.reg64 (tgPasses c) = (s.reg64 (tgPasses c) + 1) % 2 ^ 64) ∧
      (s.tgStop c = true ∨ (s.tgStopErr c = true ∧ s.tgErrs c off ≠ []) → (t.chan c).reqs = [])) ∧
  (∀ s c, okChan c = true → Stored s (tgCtrl c) → (s.chan c).tgRun = true → Does (.hbmTgStop c) s [.regs] fun t => t.bit (tgCtrl c) 1 = true ∧ RegsBut [tgCtrl c] s t) ∧
  (∀ s c, okChan c = true → Stored s (tgCtrl c) → (s.chan c).tgRun = false → Does (.hbmTgStop c) s [] fun t => t = s) ∧
  (∀ s c, okChan c = true → (s.chan c).tgDone = true →
    Does (.hbmTgRunEnd c) s [.regs, .chans] fun t => OnlyChan c s t ∧ t.chan c = { s.chan c with tgRun := false } ∧ t.bit (tgCtrl c) 2 = true ∧ t.bit (tgCtrl c) 0 = false ∧
      t.bit (tgCtrl c) 1 = false ∧ t.bit (hbmStat c) 5 = false ∧ RegsBut [tgCtrl c, hbmStat c] s t)

/-- Tier 2. Scrub, traffic generators, retirement of channels, die-to-die links. -/
def Obligations.ChannelsAreScrubbedTestedAndRetired : Prop := ChannelsAreScrubbedAndRetired ∧ TrafficGeneratorsRun

/-! Copy engines. -/

/-- The copy launch `lid` runs on engine `e` and has bytes to request. -/
def Copying (s : State) (e lid : Nat) (l : Launch) (c : CopyRun) : Prop :=
  e < 64 ∧ s.launch? lid = some l ∧ l.copy = some c ∧ c.engine = e ∧ l.phase = .running ∧ l.fail = none ∧ l.hung = 0

/-- Tier 2. Copies (R286, R288, R291, R292): an engine's next request is the next 4 KiB of its first launch; a request that ends has moved its bytes to their place and nothing else, or has added its lines to the fold; one that fails ends its launch; a request waits until its home slices have the lines that it reads, and a dark die's engines ask for nothing (R39, R415, R487; log entry 112). -/
def Obligations.CopiesMoveTheirBytes : Prop :=
  (∀ s e lid l c rest, Copying s e lid l c → (s.copyEng e).launches = lid :: rest → s.lamp (lampDie (e / 16)) = true → c.sent = false → cdSrcRemote c.desc = false → (cdDstRemote c.desc = false ∨ cdMode c.desc = 3) →
    Does (.copyRequest e) s [.regs, .launches, .copies, .dbg] fun t => (t.copyEng e).nextId = (s.copyEng e).nextId + 1 ∧
      (∃ x, t.launch? lid = some x ∧ ∃ k, x.copy = some k ∧ k.pos = c.pos + min 4096 (cdTotal c.desc - c.pos) ∧ k.desc = c.desc ∧
        k.sent = decide (cdTotal c.desc ≤ c.pos + min 4096 (cdTotal c.desc - c.pos)) ∧
        tfind k.out (s.copyEng e).nextId = some { pos := c.pos, len := min 4096 (cdTotal c.desc - c.pos), cut := s.d2d }) ∧
      OnlyLaunch lid s t) ∧
  (∀ s e, e < 64 → s.lamp (lampDie (e / 16)) = false → Does (.copyRequest e) s [] fun t => t = s) ∧
  (∀ s e id lid l c r x, Copying s e lid l c → s.copyReq? e id = some (lid, l, r) → r.left = 0 → s.copyReaches l r = true → s.linesHere (s.reqSources l r) = false →
    Does (.copyRequestComplete e id x) s [.free, .dies, .chans] fun t => t.launch? lid = some l) ∧
  (∀ s e id lid l c r n bs v tr a w x, Copying s e lid l c → s.copyReq? e id = some (lid, l, r) → r = { pos := 0, len := n, cut := x } → s.copyReaches l r = true → n ≠ 0 → cdMode c.desc = 0 → cdSrcRemote c.desc = false →
    cdDstRemote c.desc = false → cdPieces c.desc (n + 1) 0 n = [(0, 0, n)] → s.linesHere (s.reqSources l r) = true →
    (s.takeLines (s.reqSources l r)).copyRead l c.desc (addr64 (cdSrc c.desc)) n = (.ok bs, v) → bs.length = n →
    v.translSpan l.part (addr64 (cdDst c.desc)) n .write l.copyWalker = (.ok [(tr, n)], w) → tr.tgt = .hbm a →
    Does (.copyRequestComplete e id none) s [.free, .out, .regs, .mem, .poison, .cores, .launches, .parts, .dies, .chans, .copies, .dbg] fun t =>
      t.bytes a n = bs ∧ (∀ i, i < a ∨ a + n ≤ i → mget? t.mem i = mget? s.mem i) ∧
      ∃ x k, t.launch? lid = some x ∧ x.copy = some k ∧ tfind k.out id = none ∧ x.fail = none) ∧
  (∀ s e id lid l c r n bs v x, Copying s e lid l c → s.copyReq? e id = some (lid, l, r) → r = { pos := 0, len := n, cut := x } → s.copyReaches l r = true → n ≠ 0 → cdMode c.desc = 3 → cdSrcRemote c.desc = false →
    cdPieces c.desc (n + 1) 0 n = [(0, 0, n)] → n = 128 → s.linesHere (s.reqSources l r) = true →
    (s.takeLines (s.reqSources l r)).copyRead l c.desc (addr64 (cdSrc c.desc)) n = (.ok bs, v) → c.sent = false → bs.length = 128 →
    Does (.copyRequestComplete e id none) s [.free, .out, .launches, .parts, .dies, .chans] fun t => ∃ x k, t.launch? lid = some x ∧ x.copy = some k ∧ tfind k.out id = none ∧
      k.digA = c.digA + (lineLanes (v.reg64 (digSalt l.part)) (rgaVa (addr64 (cdSrc c.desc))) bs).1 ∧
      k.digB = c.digB + (lineLanes (v.reg64 (digSalt l.part)) (rgaVa (addr64 (cdSrc c.desc))) bs).2) ∧
  (∀ s e id lid l c r st, Copying s e lid l c → s.copyReq? e id = some (lid, l, r) → s.copyReaches l r = true → r.left = 0 → r.fail = some st → st ≠ 0 →
    Does (.copyRequestComplete e id (some st)) s [.launches] fun t => ∃ x, t.launch? lid = some x ∧ x.fail.map (·.status) = some st ∧ x.fail.map (·.engine) = some (0x800 + e))

/-! Links. -/

/-- Only one link has changed, and its state register and those of its block. -/
def OnlyLink (n : Nat) (s t : State) : Prop := ∀ k, k ≠ n → t.link k = s.link k

/-- Registers outside a link's block, but the count of dropped records, are as before. -/
def LinkRegs (n : Nat) (s t : State) : Prop := ∀ k, (k < lnkBlk n ∨ lnkBlk n + 0x4000 ≤ k) → k ≠ logDrop → t.reg k = s.reg k

/-- Tier 2. Training (R359, R365, R366, R387, R488): each state leads to the next only as R365 has it; a wavelength check gives the width; keys are agreed only between modules of one owner, and then the peer is told this end's ID, number and buffers; a state that lasts too long fails the attempt, and the third failure within 1 s the link. -/
def LinksTrainThroughTheirStates : Prop :=
  (∀ s n, okLink n = true → Stored s (lnkCtrl n) → s.linkState n = lsDisabled → s.oeLit n = true → s.linkRetired n = false →
    Does (.lnkEnableSet n) s [.out, .regs, .links, .host, .log] fun t => t.bit (lnkCtrl n) 0 = true ∧ t.linkState n = lsLight ∧ (t.link n).phaseGt = s.now ∧ OnlyLink n s t ∧ LinkRegs n s t) ∧
  (∀ s n, okLink n = true → Stored s (lnkCtrl n) → s.linkLive n = false → Does (.lnkEnableClear n) s [.out, .regs, .links, .host, .log] fun t => t.bit (lnkCtrl n) 0 = false ∧ t.linkState n = lsDisabled ∧ OnlyLink n s t) ∧
  (∀ s n, okLink n = true → Stored s (lnkCtrl n) → s.linkLive n = false → s.linkState n ≠ lsDisabled → s.mayTrain n = true →
    Does (.lnkRetrain n) s [.out, .regs, .links, .host, .log] fun t => t.linkState n = lsLight ∧ OnlyLink n s t) ∧
  (∀ s n, okLink n = true → Stored s (lnkCtrl n) → Does (.lnkLock n) s [.regs] fun t => t.bit (lnkCtrl n) 31 = true ∧ RegsBut [lnkCtrl n] s t) ∧
  (∀ s n f g w, okLink n = true → s.linkState n = lsLight → widthFor (f &&& g).toNat (s.bit (lnkCtrl n) 3) (decide (n < 8) && s.bit (lnkCtrl n) 2) = some w →
    Does (.linkLightCheck n f g) s [.out, .regs, .links, .host, .log] fun t => t.linkState n = lsTrain ∧ t.fld (lnkStat n) 8 8 = (f &&& g).toNat ∧
      t.fld (lnkWave n) 0 8 = f.toNat ∧ t.fld (lnkWave n) 8 8 = g.toNat ∧ t.bit (lnkStat n) 5 = (w != 0) ∧ t.bit (lnkStat n) 6 = (w == 2) ∧ OnlyLink n s t ∧ LinkRegs n s t) ∧
  (∀ s n f g, okLink n = true → s.linkState n = lsLight → widthFor (f &&& g).toNat (s.bit (lnkCtrl n) 3) (decide (n < 8) && s.bit (lnkCtrl n) 2) = none →
    Does (.linkLightCheck n f g) s [.regs] fun t => t.linkState n = lsLight ∧ t.fld (lnkStat n) 8 8 = (f &&& g).toNat) ∧
  (∀ s n, okLink n = true → s.linkState n = lsTrain → s.linkEth n = false → Does (.linkTrainDone n) s [.out, .regs, .links, .host, .log] fun t => t.linkState n = lsAlign ∧ OnlyLink n s t) ∧
  (∀ s n, okLink n = true → s.linkState n = lsAlign → s.lamp lampSecroot = true → s.lamp lampChart = true → s.linkEth n = false →
    Does (.linkAlignDone n) s [.free, .out, .regs, .links, .host, .log] fun t => t.linkState n = lsSecure ∧ OnlyLink n s t ∧
      (s.bit (lnkStat n) 5 = true ∨ s.bit (lnkCtrl n) 3 = true → t.bit (lnkStat n) 5 = s.bit (lnkStat n) 5 ∧ t.bit (lnkStat n) 6 = s.bit (lnkStat n) 6)) ∧
  (∀ s n, okLink n = true → s.linkState n = lsAlign → s.lamp lampSecroot = false ∨ s.lamp lampChart = false → Does (.linkAlignDone n) s [] fun t => t = s) ∧
  (∀ s n o b, okLink n = true → s.linkState n = lsSecure →
    Does (.linkSecureDone n o b) s [.out, .regs, .links, .host, .log] fun t => OnlyLink n s t ∧
      (b = true ∧ s.sec.owner = some o → t.linkState n = lsInit ∧ t.fld (lnkStat n) 16 8 = s.fld (lnkStat n) 16 8 ∧ t.out.head? = some (.init n s.ownId n bufferCredits)) ∧
      (¬ (b = true ∧ s.sec.owner = some o) → t.linkState n = lsFailed ∧ t.fld (lnkStat n) 16 8 = min (s.fld (lnkStat n) 16 8 + 1) 255 ∧ (s.host.unmasked.contains (8 + n) = false → t.out = s.out))) ∧
  (∀ s n i k cr, okLink n = true → s.linkState n = lsInit →
    Does (.linkInitDone n i k cr) s [.out, .regs, .links, .host, .log] fun t => t.linkState n = lsUp ∧ t.bit (lnkStat n) 4 = true ∧ t.fld (lnkPeer n) 0 16 = i % 2 ^ 16 ∧
      t.fld (lnkPeer n) 16 6 = k % 64 ∧ (t.link n).txSeq = 0 ∧ (t.link n).rxSeq = 0 ∧ (t.link n).replay = [] ∧ (t.link n).keyed = true ∧
      ∀ f, f < 7 → (t.link n).credit f = cr.getD f 0 % 65536) ∧
  (∀ s n b, okLink n = true → phaseLimit (s.linkState n) = some b → (s.linkState n = lsAlign → s.lamp lampSecroot = true ∧ s.lamp lampChart = true) →
    (s.link n).phaseGt + b ≤ s.now →
    Does (.linkPhaseTimeout n) s [.out, .regs, .links, .host, .log] fun t => OnlyLink n s t ∧
      t.linkState n = if 2 ≤ ((s.link n).attempts.filter fun t => decide (s.now < t + 10 ^ 9)).length then lsFailed else lsLight) ∧
  (∀ s n, okLink n = true → s.linkState n = lsFailed → (s.link n).phaseGt + 10 ^ 9 ≤ s.now → s.mayTrain n = true →
    Does (.linkRetryTimer n) s [.out, .regs, .links, .host, .log] fun t => t.linkState n = lsLight ∧ OnlyLink n s t)

/-- What going down may change (R363). -/
def lossSide : List Fld := [.gt, .out, .regs, .cores, .launches, .parts, .dies, .links, .host, .boot, .dbg, .log]

/-- A link that carried messages is down: its state, and what it keeps until the peer answers. -/
def WentDown (n st : Nat) (s t : State) : Prop :=
  t.linkState n = st ∧ t.bit (lnkStat n) 4 = false ∧ (t.link n).lost = (s.link n).replay ∧ (t.link n).downGt = s.now ∧ (t.link n).query = true ∧
  (t.link n).kept.getLast? = some ((s.link n).rxSeq, (s.link n).upGt, s.now) ∧ (t.link n).replay = []

/-- Tier 2. Loss of a link (R359, R363, R365, R388, R395): without an acknowledgement for 10 µs, after 16 discards or without light the link goes down and keeps its unacknowledged flits until the peer answers; a lost wavelength halves an UP link; recovered, it sends them again. -/
def LinksAreLostAndRecover : Prop :=
  (∀ s n c, okLink n = true → s.linkUp n = true → s.downCause n c = true → Does (.linkDown n c) s lossSide fun t => WentDown n lsFailed s t) ∧
  (∀ (s : State) (n : Nat), okLink n = true → s.linkUp n = true → (s.downCause n .discards = true ↔ 16 ≤ (s.link n).discards) ∧
    (s.downCause n .noProgress = true ↔ (s.link n).replay ≠ [] ∧ (s.link n).progGt + 10000 ≤ s.now)) ∧
  (∀ s n, okLink n = true → Stored s (lnkCtrl n) → s.linkUp n = true → Does (.lnkEnableClear n) s lossSide fun t => WentDown n lsDisabled s t ∧ t.bit (lnkCtrl n) 0 = false) ∧
  (∀ s n, okLink n = true → Stored s (lnkCtrl n) → s.linkUp n = true → s.mayTrain n = true → Does (.lnkRetrain n) s lossSide fun t => WentDown n lsLight s t) ∧
  (∀ s n l, okLink n = true → l < 4 → s.linkUp n = true → s.bit (lnkStat n) 5 = false → s.linkEth n = false → s.bit (lnkCtrl n) 3 = false → s.waveOk n &&& 0xF0 = 0xF0 →
    Does (.wavelengthFail n l) s [.free, .out, .regs, .links, .host, .log] fun t => t.linkState n = lsRecover ∧ t.bit (lnkStat n) 5 = true ∧ t.bit (lnkStat n) 6 = true ∧
      t.bit (lnkStat n) (8 + l) = false ∧ (t.bit (lnkWave n) l = false ∨ t.bit (lnkWave n) (8 + l) = false) ∧ (t.link n).replay = (s.link n).replay) ∧
  (∀ s n l, okLink n = true → l < 8 → s.linkUp n = true → s.bit (lnkStat n) 5 = false → s.bit (lnkCtrl n) 3 = true →
    Does (.wavelengthFail n l) s (.free :: lossSide) fun t => WentDown n lsFailed s t) ∧
  (∀ s n, okLink n = true → s.linkState n = lsRecover → s.waveOk n &&& s.lanesInUse n = s.lanesInUse n → s.linkEth n = false →
    Does (.linkRecoverEnd n true) s [.out, .regs, .links, .host, .log] fun t => t.linkState n = lsUp ∧ (t.link n).resend = (s.link n).replay ∧ (t.link n).replay = (s.link n).replay) ∧
  (∀ s n, okLink n = true → s.linkState n = lsRecover → Does (.linkRecoverEnd n false) s lossSide fun t => WentDown n lsFailed s t) ∧
  (∀ s n, okLink n = true → (s.link n).query = true → (s.link n).downGt + 1000000 ≤ s.now →
    Does (.linkStateAnswerTimeout n) s [.regs, .cores, .launches, .parts, .dies, .links, .dbg, .log] fun t => (t.link n).query = false ∧ (t.link n).lost = [] ∧
      (((s.link n).lost.flatMap (·.2)) = [] → (s.link n).older = [] → t.reg (lnkCnt n 7) = s.reg (lnkCnt n 7))) ∧
  (∀ s n, okLink n = true → Does (.linkStateAnswerTimeout n) s [.regs, .cores, .launches, .parts, .dies, .links, .dbg, .log] fun t =>
    (t.link n).older = (s.link n).older.filter fun x => decide (s.now < x.2.1 + 1000000)) ∧
  (∀ s n, okLink n = true → s.linkUp n = true → 8 ≤ (s.link n).tagGt.length → (s.link n).tagGt.getLastD 0 ≤ (s.link n).tagGt.headD 0 + 1000000 →
    Does (.tagFailureLimit n) s lossSide fun t => WentDown n lsFailed s t) ∧
  (∀ s n, okLink n = true → s.linkUp n = true → (s.link n).keys * 2 ^ 32 ≤ (s.link n).slots →
    Does (.keyRollover n) s [.links] fun t => OnlyLink n s t ∧ t.link n = { s.link n with keys := (s.link n).keys + 1, kphase := !(s.link n).kphase })

/-- Tier 2. The states of a link, its loss and its recovery. -/
def Obligations.LinksTrainAndRecover : Prop := LinksTrainThroughTheirStates ∧ LinksAreLostAndRecover

/-- Tier 2. Flits and messages (R360 to R362, R367, R369, R370, R388): a slot sends a flit again, a new data flit, or an idle one, with the link's counters; a whole data flit in order is accepted once, any other is asked for again; a message leaves its queue when it has credit and takes it. -/
def Obligations.FlitsCarryMessagesInOrder : Prop :=
  (∀ s n f rest, okLink n = true → s.linkUp n = true → s.linkEth n = false → (s.link n).resend = f :: rest →
    Does (.flitSlot n) s [.out, .links] fun t => OnlyLink n s t ∧ (t.link n).resend = rest ∧ (t.link n).txSeq = (s.link n).txSeq ∧ (t.link n).nakOut = false ∧
      ∃ x, t.out = .flit n x :: s.out ∧ x.ftype = 1 ∧ x.seq = f.1 ∧ x.msgs = f.2 ∧ x.ackSeq = (s.link n).rxSeq ∧ x.nak = (s.link n).nakOut ∧ x.kphase = (s.link n).kphase) ∧
  (∀ s n m, okLink n = true → s.linkUp n = true → s.linkEth n = false → (s.link n).resend = [] → (s.link n).toSend = [m] → (s.link n).chunks ≤ 153 → (s.link n).replay.length < 512 →
    Does (.flitSlot n) s [.out, .links] fun t => OnlyLink n s t ∧ (t.link n).txSeq = ((s.link n).txSeq + 1) % 2 ^ 24 ∧ (t.link n).toSend = [] ∧
      (t.link n).replay = (s.link n).replay ++ [(((s.link n).txSeq + 1) % 2 ^ 24, [m])] ∧
      ∃ x, t.out = .flit n x :: s.out ∧ x.ftype = 1 ∧ x.seq = ((s.link n).txSeq + 1) % 2 ^ 24 ∧ x.msgs = [m]) ∧
  (∀ s n, okLink n = true → s.linkUp n = true → s.linkEth n = false → (s.link n).resend = [] → (s.link n).toSend = [] →
    Does (.flitSlot n) s [.out, .links] fun t => OnlyLink n s t ∧ (t.link n).txSeq = (s.link n).txSeq ∧ (t.link n).replay = (s.link n).replay ∧
      ∃ x, t.out = .flit n x :: s.out ∧ x.ftype = 0 ∧ x.seq = (s.link n).txSeq ∧ x.msgs = []) ∧
  (∀ s n f, okLink n = true → s.linkUp n = true → s.linkEth n = false → f.fecOk = true → f.crcOk = true → f.tagOk = true → f.ftype = 1 → f.nak = false →
    f.seq = ((s.link n).rxSeq + 1) % 2 ^ 24 → (∀ m ∈ f.msgs, knownType m.typ = true) →
    Does (.flitReceive n f) s [.out, .regs, .links, .host] fun t => OnlyLink n s t ∧ (t.link n).rxSeq = f.seq ∧ (t.link n).rxq = (s.link n).rxq ++ f.msgs ∧ (t.link n).discards = 0 ∧
      (t.link n).replay = coverAck (s.link n).replay f.ackSeq ∧ (t.link n).nakOut = (s.link n).nakOut) ∧
  (∀ s n f, okLink n = true → s.linkUp n = true → s.linkEth n = false → f.fecOk = true → f.crcOk = true → f.tagOk = true → f.ftype = 1 →
    f.seq ≠ ((s.link n).rxSeq + 1) % 2 ^ 24 →
    Does (.flitReceive n f) s [.out, .regs, .links, .host] fun t => (t.link n).rxSeq = (s.link n).rxSeq ∧ (t.link n).rxq = (s.link n).rxq ∧ (t.link n).nakOut = true) ∧
  (∀ s n f, okLink n = true → s.linkUp n = true → s.linkEth n = false → f.fecOk = false ∨ f.crcOk = false ∨ f.tagOk = false →
    Does (.flitReceive n f) s [.regs, .links] fun t => (t.link n).rxSeq = (s.link n).rxSeq ∧ (t.link n).rxq = (s.link n).rxq ∧ (t.link n).nakOut = true ∧
      (t.link n).replay = (s.link n).replay ∧ (t.link n).discards = (s.link n).discards + 1) ∧
  (∀ s n m, okLink n = true → s.linkUp n = true → s.linkEth n = false → (s.link n).txq = [m] → m.vc ≤ 3 → msgCredits m ≤ (s.link n).credit (creditField m.vc m.cls) →
    (m.src ≠ s.ownId ∨ 5 < m.typ) →
    Does (.messageTransmit n) s [.links] fun t => OnlyLink n s t ∧ (t.link n).txq = [] ∧ (t.link n).toSend = (s.link n).toSend ++ [m] ∧
      tget 0 (t.link n).used (creditField m.vc m.cls) = (tget 0 (s.link n).used (creditField m.vc m.cls) + msgCredits m) % 65536) ∧
  (∀ s n a b, okLink n = true → s.linkUp n = true → s.linkEth n = false → (s.link n).txq = [a, b] → a.vc = 0 → b.vc = 3 → (b.src ≠ s.ownId ∨ 5 < b.typ) →
    msgCredits b ≤ (s.link n).credit (creditField b.vc b.cls) →
    Does (.messageTransmit n) s [.links] fun t => (t.link n).txq = [a] ∧ (t.link n).toSend = (s.link n).toSend ++ [b]) ∧
  (∀ s n m, okLink n = true → s.linkUp n = true → s.linkEth n = false → (s.link n).txq = [m] → (s.link n).credit (creditField m.vc m.cls) < msgCredits m →
    Does (.messageTransmit n) s [] fun t => t = s)

/-- Every UP link that is not in Ethernet mode carries an announcement: the grandmaster, and the hops to it (R390). -/
def Announced (s t : State) : Prop :=
  ∀ n, n < 48 → (t.link n).txq = (s.link n).txq ++ (if s.linkUp n && !s.linkEth n then
    [s.control mTime (s.fld (lnkPeer n) 0 16) (s.grandmaster + (match s.parentLink with
      | some (_, h) => min (h + 1) 255
      | none => 0) * 2 ^ 16) []] else [])

/-- Tier 2. Ethernet mode and announcements (R390 to R394): the next frame of a tunnel is taken and acknowledged; an unacknowledged one is sent again after 50 µs, and after 10 ms the tunnel is gone, to agree keys anew while its link is up (the model's choice, log entry 79); every UP link carries an announcement each time, and a module that has heard none is its own grandmaster. -/
def TunnelsCarryFrames : Prop :=
  (∀ s n k f, okTunnel n k = true → s.linkUp n = true → s.linkEth n = true → s.bit (lnkTun n k) 16 = true → f.tagOk = true → f.ackOnly = false →
    f.seq = ((s.tunnel n k).rxSeq + 1) % 2 ^ 32 → (f.isData = false ∨ (s.tunnel n k).keyed = true) → (∀ m ∈ f.msgs, knownType m.typ = true) →
    Does (.ethFrameReceive n k f) s [.out, .regs, .links] fun t => OnlyLink n s t ∧ (t.tunnel n k).rxSeq = f.seq ∧ (t.tunnel n k).rxq = (s.tunnel n k).rxq ++ f.msgs ∧
      (t.tunnel n k).unacked = coverAck (s.tunnel n k).unacked f.ack ∧ ∃ x, t.out = .frame n k x :: s.out ∧ x.ackOnly = true ∧ x.ack = f.seq) ∧
  (∀ s n k f, okTunnel n k = true → s.linkUp n = true → s.linkEth n = true → s.bit (lnkTun n k) 16 = true → f.tagOk = false →
    Does (.ethFrameReceive n k f) s [.regs] fun t => RegsBut [lnkCnt n 1, lnkCnt n 4] s t) ∧
  (∀ s n k f, okTunnel n k = true → s.linkUp n = true → (s.tunnel n k).unacked = [f] → (s.tunnel n k).sentGt + 50000 ≤ s.now →
    Does (.tunnelResendTimeout n k) s [.out, .regs, .links] fun t => OnlyLink n s t ∧ (t.tunnel n k).unacked = [f] ∧ (t.tunnel n k).sentGt = s.now ∧
      ∃ x, t.out = .frame n k x :: s.out ∧ x.seq = f.1 ∧ x.msgs = f.2 ∧ x.ackOnly = false) ∧
  (∀ s n k, okTunnel n k = true → (s.tunnel n k).unacked ≠ [] → (s.tunnel n k).progGt + 10 ^ 7 ≤ s.now →
    (s.linkUp n && s.linkEth n && s.bit (lnkTun n k) 16) = false →
    Does (.tunnelDown n k) s [.regs, .cores, .launches, .parts, .dies, .links, .dbg, .log] fun t => t.tunnel n k = {}) ∧
  (∀ s n k, okTunnel n k = true → (s.tunnel n k).unacked ≠ [] → (s.tunnel n k).progGt + 10 ^ 7 ≤ s.now →
    (s.linkUp n && s.linkEth n && s.bit (lnkTun n k) 16) = true →
    Does (.tunnelDown n k) s [.out, .regs, .cores, .launches, .parts, .dies, .links, .dbg, .log] fun t => (t.tunnel n k).up = false ∧ (t.tunnel n k).keyed = false ∧
      ∃ m x, m.typ = mKeyx ∧ m.dst = s.fld (lnkTun n k) 0 16 ∧ (t.tunnel n k).unacked = [(1, [m])] ∧ t.out = .frame n k x :: s.out ∧ x.isData = false ∧ x.seq = 1 ∧ x.msgs = [m]) ∧
  (∀ s, s.fld fabTime 0 3 ≠ 0 → Does .timeAnnounce s [.links] (Announced s)) ∧
  (∀ s, s.fld fabTime 0 3 = 0 → Does .timeAnnounce s [.gt, .out, .regs, .links, .host, .boot] fun t => Announced s t ∧ t.fld fabGm 0 16 = s.grandmaster % 2 ^ 16 ∧
    RegsBut [fabGm, fabTime, fabOffs] s t ∧ (s.parentLink = none → t.fld fabTime 0 3 = 4 ∧ t.gt = s.gt))

/-! Messages at their destination. -/

/-- Message `m`, of this type, has reached link `n` of this module, its destination; `u` is the state once it has been taken. -/
def Arrives (s : State) (n : Nat) (m : Msg) (typ : Nat) (u : State) : Prop :=
  okLink n = true ∧ m.typ = typ ∧ m ∈ (s.link n).rxq ∧ m.dst = s.ownId ∧ isGroupId m.dst = false ∧ s.takeMsg n m = some u

/-- The message `a` has entered the router of die `d`: for this module, or at the link that leads towards its destination. -/
def Posted (d : Nat) (a : Msg) (u t : State) : Prop :=
  (a.dst = u.ownId → (t.die d).loop = (u.die d).loop ++ [a]) ∧
  ∀ k x mask dir, a.dst ≠ u.ownId → isGroupId a.dst = false → u.chart.routes.mask u.ownId a.dst = some (mask, dir) → u.exitLink d a none = some (k, x) →
    x = { a with cls := u.chart.routes.classFor u.ownId a none dir } ∧ (t.link k).txq = (u.link k).txq ++ [x]

/-- The request `m` at link `n` is answered. -/
def Answers (n : Nat) (m : Msg) (typ aux : Nat) (data : List Byte) (u t : State) : Prop := Posted (dieOfLink n) (u.answerTo m typ aux data) u t

/-- The stream plane leads from the die of link `n` to the collective unit that `m` contributes to (R26, R32). -/
def Across (s : State) (n : Nat) (m : Msg) : Prop := s.travels s.d2d .contribution (dieOfLink n) (s.leadDie m.part) ≠ none

/-- HBM changes only in `n` bytes from `a`. -/
def MemOnly (a n : Nat) (u t : State) : Prop := ∀ i, i < a ∨ a + n ≤ i → mget? t.mem i = mget? u.mem i

/-- A request for `k` bytes can be served as it arrives: some way round the ring leads from its router to where its pages lie, and, where it consumes what it reads, the home slices have the lines (R25 to R27, R415). -/
def WayOpen (s : State) (n : Nat) (m : Msg) (k : Nat) (acc : TAcc) (consumes : Bool) : Prop :=
  ∃ ps, (s.translSpan m.part m.va k acc).1 = .ok ps ∧ s.piecesCut (dieOfLink n) ps = false ∧ (consumes = true → s.linesHere (ps.map fun e => (e.1.tgt, e.2)) = true)

/-- A write of this type, final or not, stores its data and nothing else, and is acknowledged: at once, or, on a Device-Strict page with EA 0, once the HBM array holds it (R228, R230, R249). -/
def WriteServed (i : Nat → Msg → Instr) (typ : Nat) : Prop :=
  (∀ s n m u tr a v, Arrives s n m typ u → u.reqErr m = none → m.data ≠ [] → WayOpen s n m m.data.length .write false →
    u.translSpan m.part m.va m.data.length .write = (.ok [(tr, m.data.length)], v) → tr.tgt = .hbm a → tr.mt = false ∨ tr.ea = true →
    Goes (i n m) s u [.free, .mem, .poison, .cores, .launches, .parts, .dies, .chans, .links] fun t =>
      t.bytes a m.data.length = m.data ∧ MemOnly a m.data.length u t ∧ Answers n m mAck 0 [] u t) ∧
  (∀ s n m u tr a v, Arrives s n m typ u → u.reqErr m = none → m.data ≠ [] → WayOpen s n m m.data.length .write false →
    u.translSpan m.part m.va m.data.length .write = (.ok [(tr, m.data.length)], v) → tr.tgt = .hbm a → a < 2 ^ 64 → tr.mt = true → tr.ea = false →
    Goes (i n m) s u [.free, .mem, .poison, .cores, .launches, .parts, .dies, .chans] fun t =>
      t.bytes a m.data.length = m.data ∧ MemOnly a m.data.length u t ∧
      (t.die (dieOfLink n)).owed = (u.die (dieOfLink n)).owed ++ [(m, [(a, m.data.length)])])

/-- Tier 2. Requests from other modules (R228, R230, R249, R263, R264, R368, R374, R377, R378): a read is answered with the bytes at its address, once its lines are there; a write, final or not, stores its data and is acknowledged, one to a Device-Strict page with EA 0 once the HBM array holds it; an atomic answers the old word and stores the result; a request of an invalid partition or a foreign domain is refused with its reason; a message for another module goes on. That a request waits in the receiver while no way round the ring leads to its page is the model's choice (log entry 77). -/
def Obligations.RequestsAreServedAndAnswered : Prop :=
  (∀ s n m u k tr a v, Arrives s n m mRd u → u.reqErr m = none → k = getBits m.aux.toNat 0 9 → 1 ≤ k → k ≤ 256 → WayOpen s n m k .read true →
    u.translSpan m.part m.va k .read = (.ok [(tr, k)], v) → tr.tgt = .hbm a → v.poisoned a k = false →
    Goes (.rd n m) s u [.free, .parts, .dies, .chans, .links] fun t => Answers n m mRdrsp 0 (u.bytes a k) u t) ∧
  (∀ s n m u ps, Arrives s n m mRd u → u.reqErr m = none → (s.translSpan m.part m.va (rdBytes m) .read).1 = .ok ps →
    (s.piecesCut (dieOfLink n) ps = true → Does (.rd n m) s [] fun t => t = s) ∧
    (s.piecesCut (dieOfLink n) ps = false → s.linesHere (ps.map fun e => (e.1.tgt, e.2)) = false → Does (.rd n m) s [.free, .dies, .chans] fun t => m ∈ (t.link n).rxq)) ∧
  WriteServed .wr mWr ∧ WriteServed .wrf mWrf ∧
  (∀ s n m u k tr a v, Arrives s n m mAtom u → u.reqErr m = none → k = (if getBits m.aux.toNat 5 1 = 1 then 8 else 4) → m.va % k = 0 → WayOpen s n m k .write true →
    u.transl m.part m.va .write = (.ok tr, v) → tr.tgt = .hbm a → v.poisoned a k = false →
    Goes (.atom n m) s u [.free, .mem, .poison, .cores, .launches, .parts, .dies, .chans, .links] fun t => MemOnly a k u t ∧
      (getBits m.aux.toNat 4 1 = 1 → Answers n m mAtomrsp 0 (u.bytes a k) u t) ∧ (getBits m.aux.toNat 4 1 = 0 → Answers n m mAck 0 [] u t) ∧
      ∀ v, atomOp (getBits m.aux.toNat 0 4) (8 * k) (leNat (u.bytes a k)) (leNat (slice m.data 0 k)) (leNat (slice m.data k k)) = some v →
        t.bytes a k = leBytes k v) ∧
  (∀ s n m u r i, (∃ y, y ∈ [(mRd, Instr.rd n m), (mWr, .wr n m), (mWrf, .wrf n m), (mAtom, .atom n m), (mContrib, .contrib n m)] ∧ Arrives s n m y.1 u ∧ i = y.2) → (m.typ = mContrib → Across s n m) →
    (u.partRuns m.part = false ∧ r = nkNopart) ∨ (u.partRuns m.part = true ∧ (m.domain = 0 ∨ m.domain ≠ u.domainOf m.part) ∧ r = nkDomain) →
    Goes i s u [.dies, .links] fun t => Answers n m mNack r [] u t) ∧
  (∀ s n m u k x mask dir, okLink n = true → m.typ = mRd → m ∈ (s.link n).rxq → m.dst ≠ s.ownId → isGroupId m.dst = false → s.takeMsg n m = some u →
    u.chart.routes.mask u.ownId m.dst = some (mask, dir) → u.exitLink (dieOfLink n) m (some n) = some (k, x) →
    Goes (.rd n m) s u [.links] fun t => x = { m with cls := u.chart.routes.classFor u.ownId m (some n) dir } ∧ (t.link k).txq = (u.link k).txq ++ [x]) ∧
  ∀ s n m, okLink n = true → m.typ = mRd → m ∉ (s.link n).rxq → (s.link n).tunnelWith m = none → m ∉ (s.die (dieOfLink n)).loop →
    Does (.rd n m) s [] fun t => t = s

/-- No collective slot has outputs that wait for a tracking entry. -/
def NoOuts (u : State) : Prop := ∀ e ∈ u.parts, ∀ x ∈ e.2.coll, x.2.outq = []

/-- No launch holds a final write at its source, waiting for a tracking entry or an acknowledgement (R250, R371). -/
def NoFinals (u : State) : Prop := ∀ e ∈ u.launches, e.2.finals = []

/-- The launch of `r` still runs, holds no final write back, and has not failed. -/
def Lives (u : State) (r : RReq) (l : Launch) : Prop := u.runLives r = true ∧ u.launch? r.launch = some l ∧ l.finals = [] ∧ l.fail = none

/-- `r` is an outstanding request of the load `l`, whose group still runs. -/
def LoadAsked (u : State) (r : RReq) (l : Load) : Prop :=
  r.kind = 0 ∧ tfind (u.core r.core).loads r.load = some l ∧ l.launch = r.launch ∧ (u.resultGroup r.core l.guid l.launch l.run l.site).isSome = true

/-- The load once the lanes of the refused request `r` count as refused. -/
def refusedLoad (r : RReq) (l : Load) : Load := { l with refused := l.refused ++ r.lanes.map (·.1) }

/-- REMOTE_REFUSED has stopped the launch: the load is gone from its core, and the launch reports REMOTE_NACK (R19, R138). -/
def RefusedEnd (r : RReq) (t : State) : Prop :=
  tfind (t.core r.core).loads r.load = none ∧ ∃ x f, t.launch? r.launch = some x ∧ x.fail = some f ∧ f.status = stNack ∧ f.cause = BitVec.ofNat 8 exRemote

/-- The last answer of a load all of whose refused lanes, and at least one, came with no poison. -/
def LastRefusal (r : RReq) (l : Load) : Prop := (refusedLoad r l).complete = true ∧ l.bad = [] ∧ ∃ x ∈ l.reads, x.lane ∈ (refusedLoad r l).refused

/-- What the front end of the launch's partition reports when settle finds `st` (R349). -/
def foundBy (u : State) (l : Launch) (st : Byte) : Launch := l.find (u.mkFail st (engFe (u.ent l.part).lead))

/-- Tier 2. Answers (R139, R337, R349, R364, R368, R371, R379, R386): data reaches the load or atomic that asked; an acknowledgement frees its slot, counts for a commit-queue entry, and a trapping collective status is found by settle; a refusal, and 2 ms without an answer since the request left its router, end the launch with REMOTE_NACK once every message of the instruction has its answer; an answer that nothing waits for is discarded; the last branch of a group's message answers upstream, or the router across the ring that handed it its copy. -/
def Obligations.AnswersReachTheirRequests : Prop :=
  (∀ s n m u d r l x, Arrives s n m mRdrsp u → u.answered m = some (d, r) → u.runLives r = true → r.kind = 0 → r.msg.typ = mRd →
    tfind (u.core r.core).loads r.load = some l → l.bound = some [] → l.reads = [x] → x.tgt = .remote (msgAddr r.msg) → x.width = m.data.length → NoOuts u →
    Goes (.rdrsp n m) s u [.regs, .cores, .dies, .links, .dbg] fun t => tfind (t.die d).reads m.tag = none ∧
      tfind (t.core r.core).loads r.load = some { l with bound := some [(x.lane, m.data)], bad := if getBits m.aux.toNat 0 1 = 1 then l.bad ++ [x.lane] else l.bad }) ∧
  (∀ s n m u d r l, Arrives s n m mAtomrsp u → u.answered m = some (d, r) → u.runLives r = true → r.kind = 0 → r.msg.typ = mAtom →
    tfind (u.core r.core).loads r.load = some l → l.bound = some [] → NoOuts u →
    Goes (.atomrsp n m) s u [.regs, .cores, .dies, .links, .dbg] fun t => tfind (t.die d).reads m.tag = none ∧
      tfind (t.core r.core).loads r.load = some { l with bound := some [(r.site.lane, m.data)], bad := if getBits m.aux.toNat 0 1 = 1 then l.bad ++ [r.site.lane] else l.bad }) ∧
  (∀ s n m u d r l, Arrives s n m mAck u → u.mcFind (dieOfLink n) m.tag m.dst = none → u.answered m = some (d, r) → Lives u r l → r.kind = 1 → r.bad = [] → NoOuts u → NoFinals u →
    Goes (.ack n m) s u [.regs, .cores, .launches, .dies, .links, .dbg] fun t => tfind (t.die d).tracks m.tag = none ∧
      t.launch? r.launch = some (if r.msg.trapx && trapStatus m then foundBy u l stInexact else l) ∧ OnlyLaunch r.launch u t) ∧
  (∀ s n m u d r l e, Arrives s n m mAck u → u.mcFind (dieOfLink n) m.tag m.dst = none → u.answered m = some (d, r) → Lives u r l → r.kind = 2 → l.cq[r.load]? = some e →
    r.msg.trapx = false → NoOuts u → NoFinals u →
    Goes (.ack n m) s u [.regs, .cores, .launches, .dies, .links, .dbg] fun t =>
      t.launch? r.launch = some { l with cq := l.cq.set r.load { e with st := .done } } ∧ OnlyLaunch r.launch u t) ∧
  (∀ s n m u k r j, okLink n = true → m.typ = mAck → m ∈ (s.link n).rxq → s.takeMsg n m = some u → s.mcFind (dieOfLink n) m.tag m.dst = some (k, r) → r.left = 1 → r.bad = none →
    r.ring = none → r.up = some j → NoFinals u →
    Goes (.ack n m) s u [.cores, .dies, .links] fun t => tfind (t.die (dieOfLink n)).mcast k = none ∧ (t.link j).txq = (u.link j).txq ++ [u.answerTo r.src mAck 0 []]) ∧
  (∀ s n m u k r e j p, okLink n = true → m.typ = mAck → m ∈ (s.link n).rxq → s.takeMsg n m = some u → s.mcFind (dieOfLink n) m.tag m.dst = some (k, r) → r.left = 1 →
    r.bad = none → r.ring = some (e, j) → e ≠ dieOfLink n → tfind (u.die e).mcast j = some p → 1 < p.left → NoFinals u →
    Goes (.ack n m) s u [.cores, .dies] fun t => tfind (t.die (dieOfLink n)).mcast k = none ∧ tfind (t.die e).mcast j = some { p with left := p.left - 1 }) ∧
  (∀ s n m u d r la l, Arrives s n m mNack u → u.mcFind (dieOfLink n) m.tag m.dst = none → u.answered m = some (d, r) → Lives u r la → la.committing = false →
    LoadAsked u r l → NoOuts u → NoFinals u →
    (LastRefusal r l → Goes (.nack n m) s u [.regs, .cores, .launches, .dies] fun t => tfind (t.die d).reads m.tag = none ∧ RefusedEnd r t) ∧
    ((refusedLoad r l).complete = false → Goes (.nack n m) s u [.cores, .launches, .dies] fun t => tfind (t.die d).reads m.tag = none ∧
      tfind (t.core r.core).loads r.load = some (refusedLoad r l) ∧ t.launch? r.launch = some la)) ∧
  (∀ s n m u d r l, Arrives s n m mNack u → u.mcFind (dieOfLink n) m.tag m.dst = none → u.answered m = some (d, r) → Lives u r l → l.committing = false → r.kind = 1 →
    r.lanes ≠ [] → (∀ e ∈ u.dies, ∀ y ∈ e.2.tracks, (e.1 = d ∧ y.1 = m.tag) ∨ r.fellow y.2 = false) → NoOuts u → NoFinals u →
    Goes (.nack n m) s u [.regs, .cores, .launches, .dies] fun t =>
      ∃ x f, t.launch? r.launch = some x ∧ x.found = (foundBy u l stNack).found ∧ x.fail = some f ∧ f.status = stNack ∧ f.cause = BitVec.ofNat 8 exRemote) ∧
  (∀ s n m u i, (∃ y, y ∈ [(mRdrsp, Instr.rdrsp n m), (mAtomrsp, .atomrsp n m), (mAck, .ack n m), (mNack, .nack n m)] ∧ Arrives s n m y.1 u ∧ i = y.2) →
    u.mcFind (dieOfLink n) m.tag m.dst = none → u.answered m = none → Goes i s u [] fun t => t = u) ∧
  (∀ s d k r la l, okDie d = true → tfind (s.die d).reads k = some r → r.link.isSome = true → r.gt + 2000000 ≤ s.now → Lives s r la → la.committing = false →
    LoadAsked s r l → LastRefusal r l → NoOuts s →
    Does (.remoteResponseTimeout d k) s [.regs, .cores, .launches, .dies] fun t => tfind (t.die d).reads k = none ∧ RefusedEnd r t) ∧
  (∀ s d k r, okDie d = true → tfind (s.die d).reads k = some r → r.link = none ∨ s.now < r.gt + 2000000 → Does (.remoteResponseTimeout d k) s [] fun t => t = s)

/-- The link-state answer to a query: it names the link and the loss that asked, and the SEQ (R363; its layout is the model's, log entry 42). -/
def seqAnswer (m : Msg) (q : Nat) : Nat := lkAnswer + getBits m.aux.toNat 8 6 * 4 + q * 2 ^ 8 + getBits m.aux.toNat 32 16 * 2 ^ 32

/-- Tier 2. Control messages (R363, R375, R390, R394): TIME sets what the peer announces, and the grandmaster is the lowest announced or own ID; LSTATE carries the peer's directions, asks which SEQ a lost link had accepted in the session that ended at the GT it carries, or answers that; KEYX of a module with the same owner opens the tunnels to its sender. The layouts of AUX in LSTATE and TIME, and the GT that a query carries, are the model's choice (log entry 42). -/
def ControlMessagesAreHeard : Prop :=
  (∀ s n m u, Arrives s n m mTime u → Goes (.time n m) s u [.gt, .out, .regs, .links, .host, .boot] fun t =>
    t.link n = { u.link n with peerGm := some (getBits m.aux.toNat 0 16, getBits m.aux.toNat 16 8) } ∧ OnlyLink n u t ∧ RegsBut [fabGm, fabTime, fabOffs] u t ∧
    t.fld fabGm 0 16 = t.grandmaster % 2 ^ 16 ∧ t.grandmaster ≤ u.ownId ∧ (u.linkUp n = true → u.linkEth n = false → t.grandmaster ≤ getBits m.aux.toNat 0 16) ∧
    (u.boot.gtLocked = true → t.gt = u.gt) ∧ (∀ k h, t.parentLink = some (k, h) → t.boot.gtLocked = true ∧ t.fld fabTime 3 6 = k % 64 ∧ t.fld fabTime 16 8 = min (h + 1) 255)) ∧
  (∀ s n m u, Arrives s n m mLstate u → getBits m.aux.toNat 0 2 = 0 →
    Goes (.lstate n m) s u [.links] fun t => OnlyLink n u t ∧ t.link n = { u.link n with peerDirs := BitVec.ofNat 12 (m.aux.toNat / 4) }) ∧
  (∀ s n m u k g, Arrives s n m mLstate u → getBits m.aux.toNat 0 2 = 1 → k = getBits m.aux.toNat 2 6 → g = leNat (slice m.data 0 8) →
    (u.linkLive k = true → (u.link k).upGt ≤ g → Goes (.lstate n m) s u [.dies, .links] fun t =>
      Posted (dieOfLink n) (u.control mLstate m.src (seqAnswer m (u.link k).rxSeq) []) u t) ∧
    (u.linkLive k = false ∨ g < (u.link k).upGt →
      (∀ q b e, (u.link k).kept = [(q, b, e)] → b ≤ g → u.now ≤ e + 10 ^ 7 → Goes (.lstate n m) s u [.dies, .links] fun t =>
        Posted (dieOfLink n) (u.control mLstate m.src (seqAnswer m q) []) u t) ∧
      ((∀ x ∈ (u.link k).kept, g < x.2.1 ∨ x.2.2 + 10 ^ 7 < u.now) → Goes (.lstate n m) s u [] fun t => t = u))) ∧
  (∀ s n m u k, Arrives s n m mLstate u → 2 ≤ getBits m.aux.toNat 0 2 → k = getBits m.aux.toNat 2 6 → (u.link k).query = true →
    (u.link k).gen = getBits m.aux.toNat 32 16 →
    (coverAck (u.link k).lost (getBits m.aux.toNat 8 24)).flatMap (·.2) = [] →
    Goes (.lstate n m) s u [.links] fun t => OnlyLink k u t ∧ t.link k = { u.link k with query := false, lost := [] }) ∧
  (∀ s n m u k, Arrives s n m mLstate u → 2 ≤ getBits m.aux.toNat 0 2 → k = getBits m.aux.toNat 2 6 →
    ((u.link k).gen = getBits m.aux.toNat 32 16 → (u.link k).query = false) → (∀ x ∈ (u.link k).older, x.1 ≠ getBits m.aux.toNat 32 16) →
    Goes (.lstate n m) s u [] fun t => t = u) ∧
  (∀ s n m u, Arrives s n m mKeyx u → u.linkEth n = true → u.keyxOk m = true → Goes (.keyx n m) s u [.links] fun t => OnlyLink n u t ∧
    ∀ k, k < 64 → t.tunnel n k = if u.bit (lnkTun n k) 16 && u.fld (lnkTun n k) 0 16 == m.src then { u.tunnel n k with keyed := true, up := true } else u.tunnel n k) ∧
  (∀ s n m u, Arrives s n m mKeyx u → u.linkEth n = false ∨ u.keyxOk m = false → Goes (.keyx n m) s u [] fun t => t = u)

/-- Tier 2. Control messages, and the tunnels of Ethernet mode. -/
def Obligations.ControlMessagesAndTunnels : Prop := ControlMessagesAreHeard ∧ TunnelsCarryFrames

/-! Collectives. -/

/-- A partition's collective slots but one are as before. -/
def OnlyColl (p k : Nat) (s t : State) : Prop := ∀ q j, (q, j) ≠ (p, k) → t.coll? q j = s.coll? q j

/-- Tier 2. Collective slots (R381 to R386): ARM reads a valid descriptor and opens round 1 with empty sums, or reports why not; DISARM closes the slot; a contribution adds its new granules and is acknowledged, one outside its range, to a closed slot or a full round is refused; a full round opens the next one or keeps the slot closed until its outputs are performed. WINDOW for a contribution outside the aperture, and FETCH for a CBASE that is no multiple of 64, are the model's reading (log entry 41). -/
def Obligations.CollectivesAddAndComplete : Prop :=
  (∀ s vf k p d v, okVf vf = true → s.vfOpen vf = true → k < 256 → s.vfPart vf = some p → s.reg64 (vfKey vf vfCbase) % 64 = 0 →
    s.fetchBytes p (s.reg64 (vfKey vf vfCbase) + 64 * k) 64 = (.ok d, v) →
    (collDescOk d = false → Does (.vfCarmArm vf k) s [.free, .out, .regs, .parts, .dies, .host] fun t =>
      t.fld (vfKey vf vfCstat) 8 8 = 2 ∧ RegsBut [vfKey vf vfCstat] s t ∧ ∀ q j, t.coll? q j = s.coll? q j) ∧
    (collDescOk d = true → (v.die (v.leadDie p)).collRetired = false → (v.collUsed (v.leadDie p) p k).1 < 1024 →
      (v.collUsed (v.leadDie p) p k).2 + (collOf d (s.reg64 (vfKey vf vfCbase) + 64 * k)).nelem ≤ 524288 →
      Does (.vfCarmArm vf k) s [.free, .out, .regs, .parts, .dies, .host] fun t => t.fld (vfKey vf vfCstat) 8 8 = 0 ∧ RegsBut [vfKey vf vfCstat] s t ∧ OnlyColl p k s t ∧
        ∃ c, t.coll? p k = some c ∧ c.round = 1 ∧ c.sums = [] ∧ c.got = [] ∧ c.status = 0 ∧ c.op = numAt d 1 1 ∧ c.ifmt = numAt d 2 1 ∧ c.ofmt = numAt d 3 1 ∧
          c.ncontrib = numAt d 4 1 ∧ c.nelem = numAt d 8 4 ∧ c.out = numAt d 0x10 8 ∧ c.event = numAt d 0x18 8) ∧
    (collDescOk d = true → 1024 ≤ (v.collUsed (v.leadDie p) p k).1 ∨ 524288 < (v.collUsed (v.leadDie p) p k).2 + (collOf d (s.reg64 (vfKey vf vfCbase) + 64 * k)).nelem →
      Does (.vfCarmArm vf k) s [.free, .out, .regs, .parts, .dies, .host] fun t => t.fld (vfKey vf vfCstat) 8 8 = 3 ∧ RegsBut [vfKey vf vfCstat] s t ∧
        ∀ q j, t.coll? q j = s.coll? q j)) ∧
  (∀ s vf k p f v, okVf vf = true → s.vfOpen vf = true → k < 256 → s.vfPart vf = some p → s.reg64 (vfKey vf vfCbase) % 64 = 0 →
    s.fetchBytes p (s.reg64 (vfKey vf vfCbase) + 64 * k) 64 = (.error f, v) →
    Does (.vfCarmArm vf k) s [.free, .out, .regs, .parts, .dies, .host] fun t => t.fld (vfKey vf vfCstat) 8 8 = 1 ∧ RegsBut [vfKey vf vfCstat] s t ∧ ∀ q j, t.coll? q j = s.coll? q j) ∧
  (∀ s vf k p, okVf vf = true → s.vfOpen vf = true → s.vfPart vf = some p → s.reg64 (vfKey vf vfCbase) % 64 ≠ 0 →
    Does (.vfCarmArm vf k) s [.out, .regs, .host] fun t => t.fld (vfKey vf vfCstat) 8 8 = 1 ∧ RegsBut [vfKey vf vfCstat] s t) ∧
  (∀ s vf k p, okVf vf = true → s.vfOpen vf = true → k < 256 → s.vfPart vf = some p →
    Does (.vfCarmDisarm vf k) s [.out, .regs, .parts, .dies, .host] fun t => t.coll? p k = none ∧ OnlyColl p k s t ∧ t.fld (vfKey vf vfCstat) 8 8 = 0 ∧
      RegsBut [vfKey vf vfCstat] s t) ∧
  (∀ s n m u k c, Arrives s n m mContrib u → Across s n m → u.reqErr m = none → (u.die (u.leadDie m.part)).collRetired = false → inCollective m.va = true → k = getBits m.va 28 8 →
    u.coll? m.part k = some c → c.closing = false → c.covers m.va m.data.length = true → m.trapx = false → (c.receive m.va m.data m.aux).full = false →
    Goes (.contrib n m) s u [.parts, .dies, .links] fun t => OnlyColl m.part k u t ∧ Answers n m mAck 0 [] u t ∧ t.coll? m.part k = some (c.receive m.va m.data m.aux) ∧
      ((∀ g, g < (m.data.length + 63) / 64 → getBits m.va 24 4 * 2 ^ 24 + m.va % 2 ^ 24 / 64 + g ∈ c.got) → t.coll? m.part k = some c)) ∧
  (∀ s n m u k c, Arrives s n m mContrib u → Across s n m → u.reqErr m = none → (u.die (u.leadDie m.part)).collRetired = false → inCollective m.va = true → k = getBits m.va 28 8 →
    u.coll? m.part k = some c → c.closing = false → c.covers m.va m.data.length = true → m.trapx = true → (c.receive m.va m.data m.aux).full = false →
    Goes (.contrib n m) s u [.parts] fun t => OnlyColl m.part k u t ∧
      t.coll? m.part k = some { c.receive m.va m.data m.aux with waiting := (c.receive m.va m.data m.aux).waiting ++ [m] }) ∧
  (∀ s n m u k c, Arrives s n m mContrib u → Across s n m → u.reqErr m = none → (u.die (u.leadDie m.part)).collRetired = false → inCollective m.va = true → k = getBits m.va 28 8 →
    u.coll? m.part k = some c → c.closing = false → c.covers m.va m.data.length = true → (c.receive m.va m.data m.aux).full = true →
    Goes (.contrib n m) s u [.free, .out, .regs, .mem, .poison, .cores, .launches, .parts, .dies, .chans, .links, .dbg] fun t => OnlyColl m.part k u t ∧
      ∃ x, t.coll? m.part k = some x ∧ (x.closing = true ∨ (x.round = c.round + 1 ∧ x.sums = [] ∧ x.got = [] ∧ x.status = 0 ∧ x.waiting = []))) ∧
  (∀ s n m u k, Arrives s n m mContrib u → Across s n m → u.reqErr m = none → (u.die (u.leadDie m.part)).collRetired = false → k = getBits m.va 28 8 →
    (inCollective m.va = false → Goes (.contrib n m) s u [.dies, .links] fun t => Answers n m mNack nkWindow [] u t) ∧
    (inCollective m.va = true → (u.coll? m.part k = none ∨ ∃ c, u.coll? m.part k = some c ∧ c.closing = true) →
      Goes (.contrib n m) s u [.dies, .links] fun t => Answers n m mNack nkBusy [] u t) ∧
    (inCollective m.va = true → (∃ c, u.coll? m.part k = some c ∧ c.closing = false ∧ c.covers m.va m.data.length = false) →
      Goes (.contrib n m) s u [.dies, .links] fun t => Answers n m mNack nkWindow [] u t))

/-! The host port. -/

/-- An access within BAR2 of virtual function `vf` arrives, covered where its interface runs; the function is in D0 (R396, R397, R402, R409). -/
def AtBar2 (s : State) (vf off size : Nat) : Prop :=
  okVf vf = true ∧ s.lamp lampPcie = true ∧ s.vfExists vf = true ∧ s.host.d3.contains vf = false ∧ s.exposed vf = false ∧ off + size ≤ 2 ^ s.bar2Log vf

/-- Virtual function `vf` serves partition `p`, whose aperture is open; the access lies within BAR2. -/
def ApertureOpen (s : State) (vf p off size : Nat) : Prop :=
  AtBar2 s vf off size ∧ tfind s.host.flr vf = none ∧ s.partOf vf = some p ∧
  (s.part p).reset = 0 ∧ s.bit (partStat p) 0 = true ∧ (s.part p).tdi ≠ 3 ∧ ∀ d ∈ entDies (s.ent p), (s.rimPath d).isSome = true

/-- Tier 2. Host accesses and interrupts (R38, R397, R400, R404, R408 to R411): a BAR2 read gives the bytes at BASE plus its offset, all ones where it is refused, and a poisoned completion for uncorrectable data; a write stores its bytes and nothing else; PF0 reaches the table areas, but not the tables of a locked interface; an unmasked pending vector is sent; an uncovered TLP puts a running interface in ERROR, as does an access, of whatever kind, to a running one that no stream covers; an AtomicOp is Unsupported Request, and a poisoned write is dropped and logged (the latter is the model's, log entry 91). -/
def Obligations.HostAccessesReachMemory : Prop :=
  (∀ s vf p off size tr a v, ApertureOpen s vf p off size → s.translSpan p (s.apBase vf + off) size .read = (.ok [(tr, size)], v) → tr.tgt = .hbm a →
    Does (.bar2Access vf off size none .plain) s [.free, .out, .parts, .dies, .chans] fun t =>
      t.out = .data vf (if v.poisoned a size then none else some (s.bytes a size)) :: s.out) ∧
  (∀ s vf p off bs tr a v, ApertureOpen s vf p off bs.length → bs ≠ [] → s.translSpan p (s.apBase vf + off) bs.length .write = (.ok [(tr, bs.length)], v) → tr.tgt = .hbm a →
    Does (.bar2Access vf off bs.length (some bs) .plain) s [.free, .mem, .poison, .cores, .launches, .parts, .dies, .chans] fun t =>
      t.bytes a bs.length = bs ∧ MemOnly a bs.length s t) ∧
  (∀ s vf p off size, AtBar2 s vf off size → s.partOf vf = some p →
    ((s.part p).reset ≠ 0 ∨ s.bit (partStat p) 0 = false ∨ (s.part p).tdi = 3 ∨ (tfind s.host.flr vf).isSome = true ∨ ∃ d ∈ entDies (s.ent p), s.rimPath d = none) →
    (Does (.bar2Access vf off size none .plain) s [.out, .regs] fun t => t.out = .data vf (some (List.replicate size 0xFF)) :: s.out ∧
      RegsBut [vfKey vf vfAperr] s t ∧ (t.reg (vfKey vf vfAperr)).toNat = min ((s.reg (vfKey vf vfAperr)).toNat + 1) 0xFFFFFFFF) ∧
    ∀ bs, Does (.bar2Access vf off size (some bs) .plain) s [.regs] fun t => RegsBut [vfKey vf vfAperr] s t ∧
      (t.reg (vfKey vf vfAperr)).toNat = min ((s.reg (vfKey vf vfAperr)).toNat + 1) 0xFFFFFFFF) ∧
  (∀ s vf p off size f v, ApertureOpen s vf p off size → s.translSpan p (s.apBase vf + off) size .read = (.error f, v) →
    Does (.bar2Access vf off size none .plain) s [.free, .out, .regs, .parts] fun t => t.out = .data vf (some (List.replicate size 0xFF)) :: s.out ∧
      (t.reg (vfKey vf vfAperr)).toNat = min ((s.reg (vfKey vf vfAperr)).toNat + 1) 0xFFFFFFFF) ∧
  (∀ s c o size, s.lamp lampPcie = true → s.host.d3.contains 0 = false → c < 256 → o + size ≤ 0x400000 → size ≠ 0 → s.chanRetired c = false → s.trained c = true →
    Does (.pf0Bar2Access (c * 2 ^ 24 + o) size none .plain) s [.out] fun t => t.out = .data 0
      (if s.poisoned (c * 2 ^ 31 + 0x5F000000 + o) size then none else some (s.bytes (c * 2 ^ 31 + 0x5F000000 + o) size)) :: s.out) ∧
  (∀ s c o bs, s.lamp lampPcie = true → s.host.d3.contains 0 = false → c < 256 → o + bs.length ≤ 0x400000 → bs ≠ [] → s.chanRetired c = false → s.trained c = true →
    (s.lockedTable (c * 2 ^ 31 + 0x5F000000 + o) bs.length = none →
      Does (.pf0Bar2Access (c * 2 ^ 24 + o) bs.length (some bs) .plain) s [.mem, .poison, .cores, .launches] fun t =>
        t.bytes (c * 2 ^ 31 + 0x5F000000 + o) bs.length = bs ∧ MemOnly (c * 2 ^ 31 + 0x5F000000 + o) bs.length s t) ∧
    ((s.lockedTable (c * 2 ^ 31 + 0x5F000000 + o) bs.length).isSome = true →
      Does (.pf0Bar2Access (c * 2 ^ 24 + o) bs.length (some bs) .plain) s [.regs, .log] fun t => RegsBut [logDrop] s t)) ∧
  (∀ s vf off size data p, okVf vf = true → s.lamp lampPcie = true → s.vfExists vf = true → s.host.d3.contains vf = false → off + size ≤ 2 ^ s.bar2Log vf →
    s.exposed vf = true → s.partOf vf = some p →
    Does (.bar2Access vf off size data .plain) s [.out, .parts, .host] fun t => (t.part p).tdi = 3 ∧ (∀ q, q ≠ p → t.part q = s.part q) ∧ t.host.aer = s.host.aer + 1) ∧
  (∀ s vf off size data, okVf vf = true → s.lamp lampPcie = true → s.exposed vf = false →
    Does (.bar2Access vf off size data .atomicOp) s [.out, .host] (fun t => t.out = .unsupported vf :: s.out ∧ t.host = { s.host with aer := s.host.aer + 1 }) ∧
    ∀ bs, Does (.bar2Access vf off size (some bs) .poisoned) s [.host] fun t => t.host = { s.host with aer := s.host.aer + 1 }) ∧
  (∀ s vf off size data p, okVf vf = true → s.lamp lampPcie = true → s.exposed vf = true → s.partOf vf = some p →
    ∀ i, i = Instr.bar2Access vf off size data .atomicOp ∨ (∃ bs, i = .bar2Access vf off size (some bs) .poisoned) →
      Does i s [.out, .parts, .host] fun t => (t.part p).tdi = 3 ∧ (∀ q, q ≠ p → t.part q = s.part q) ∧ t.host.aer = s.host.aer + 1) ∧
  (∀ s fn vec, (fn = 0 ∧ vec < 2048 ∧ s.host.d3.contains 0 = false) ∨ (okVf fn = true ∧ vec < 64 ∧ s.vfOpen fn = true) →
    Does (.msixUnmask fn vec) s [.out, .host] fun t => t.out = (if s.host.pend.contains (fn * 4096 + vec) then [.irq fn vec] else []) ++ s.out ∧
      fn * 4096 + vec ∈ t.host.unmasked ∧ fn * 4096 + vec ∉ t.host.pend ∧ (∀ k ∈ s.host.unmasked, k ∈ t.host.unmasked) ∧
      ∀ k, k ≠ fn * 4096 + vec → (k ∈ t.host.pend ↔ k ∈ s.host.pend)) ∧
  (∀ s vf p posted, okVf vf = true → s.vfPart vf = some p → (s.part p).tdi = 2 →
    Does (.ideUncoveredTlp vf posted) s [.out, .parts, .host] fun t => (t.part p).tdi = 3 ∧ (∀ q, q ≠ p → t.part q = s.part q) ∧ t.host.aer = s.host.aer + 1 ∧
      (posted = false → .unsupported vf ∈ t.out))

/-- Partition `p` is in reset, its interface unlocked and a fresh key due. -/
def InResetRekey (p : Nat) (t : State) : Prop :=
  (t.part p).reset = 1 ∧ (t.part p).tdi = 0 ∧ (t.part p).rekey = true ∧ t.bit (partStat p) 0 = false ∧ t.bit (partStat p) 1 = true

/-- A function's MSI-X state is at reset. -/
def MsixReset (fn : Nat) (t : State) : Prop := ∀ v, v < 4096 → fn * 4096 + v ∉ t.host.unmasked ∧ fn * 4096 + v ∉ t.host.pend

/-- Tier 2. Resets of functions (R401, R412 to R414): an FLR resets the bound partition, gives its key slot a fresh key, whereby its memory is lost, and ends with the function's configuration at reset; removed functions reset their partitions, those too that a lower NumVFs removes as VF Enable is set; a reset of PF0 removes every function and leaves the chart. -/
def Obligations.FunctionsAreResetAndRemoved : Prop :=
  (∀ s vf p, okVf vf = true → s.vfExists vf = true → tfind s.host.flr vf = none → s.partOf vf = some p → (s.part p).reset = 0 →
    Does (.flr vf) s [.out, .regs, .parts, .host, .log] fun t => tfind t.host.flr vf = some (1, s.now) ∧ InResetRekey p t ∧ (∀ q, q ≠ p → t.part q = s.part q) ∧
      RegsBut [partRst p, partStat p, logDrop] s t) ∧
  (∀ s vf, okVf vf = true → s.vfExists vf = true → tfind s.host.flr vf = none → s.partOf vf = none →
    Does (.flr vf) s [.host] fun t => tfind t.host.flr vf = some (1, s.now)) ∧
  (∀ s vf p gt, okVf vf = true → tfind s.host.flr vf = some (1, gt) → s.partOf vf = some p → (s.part p).reset ≠ 1 → (s.part p).reset ≠ 2 → (s.part p).rekey = true →
    Does (.flrRekey vf) s [.mem, .memEpoch, .poison, .cores, .parts, .dies, .chans, .host, .sec] fun t => tfind t.host.flr vf = some (3, gt) ∧ (t.part p).rekey = false ∧
      t.sec = { (s.draw 4).2.sec with keys := tset s.sec.keys (s.ent p).keyslot (BitVec.ofNat 512 (s.draw 4).1) } ∧
      (∀ c a, c < 256 → getBits (s.ent p).hbmch c 1 = 1 → chanMem c a = true → mget? t.mem a = none) ∧
      (∀ a, (∀ c, c < 256 → getBits (s.ent p).hbmch c 1 = 1 → chanMem c a = false) → mget? t.mem a = mget? s.mem a)) ∧
  (∀ s vf p gt, okVf vf = true → tfind s.host.flr vf = some (1, gt) → s.partOf vf = some p → (s.part p).reset = 1 ∨ (s.part p).reset = 2 →
    Does (.flrRekey vf) s [] fun t => t = s) ∧
  (∀ s vf ph gt, okVf vf = true → tfind s.host.flr vf = some (ph, gt) → ph = 3 ∨ s.partOf vf = none →
    Does (.flrComplete vf) s [.regs, .host] fun t => tfind t.host.flr vf = none ∧ t.reg64 (vfKey vf vfApbase) = 0 ∧ t.bar2Log vf = 30 ∧ MsixReset vf t ∧
      RegsBut [vfKey vf vfApbase, vfKey vf vfApbase + 4] s t) ∧
  (∀ s n, n ≤ 64 → s.lamp lampPcie = true →
    Does (.vfRemove n) s [.out, .regs, .parts, .host, .log] fun t => t.host.vfEnable = false ∧ t.host.numVFs = n ∧
      (∀ v p, 1 ≤ v → v ≤ 64 → v ≤ s.host.numVFs → s.host.vfEnable = true ∨ n < v → s.partOf v = some p → (s.part p).reset = 0 → InResetRekey p t) ∧
      (∀ p, (∀ v, 1 ≤ v → v ≤ s.host.numVFs → s.host.vfEnable = true ∨ n < v → s.partOf v ≠ some p) → t.part p = s.part p) ∧
      ∀ v, 1 ≤ v → v ≤ s.host.numVFs → v ≤ 64 → s.host.vfEnable = true ∨ n < v → t.reg64 (vfKey v vfApbase) = 0 ∧ t.bar2Log v = 30 ∧ tfind t.host.flr v = none) ∧
  (∀ s n, n ≤ 64 → s.lamp lampPcie = true → s.host.vfEnable = true ∨ s.host.numVFs ≤ n → Does (.vfEnableSet n) s [.host] fun t =>
    t.host = { s.host with vfEnable := true, numVFs := max s.host.numVFs n }) ∧
  (∀ s n, n < s.host.numVFs → s.lamp lampPcie = true → n ≤ 64 → s.host.vfEnable = false → Does (.vfEnableSet n) s [.out, .regs, .parts, .host, .log] fun t =>
    t.host.vfEnable = true ∧ t.host.numVFs = n ∧
    (∀ v p, n < v → v ≤ 64 → v ≤ s.host.numVFs → s.partOf v = some p → (s.part p).reset = 0 → InResetRekey p t) ∧
    (∀ p, (∀ v, n < v → v ≤ s.host.numVFs → s.partOf v ≠ some p) → t.part p = s.part p) ∧
    ∀ v, n < v → v ≤ s.host.numVFs → v ≤ 64 → t.reg64 (vfKey v vfApbase) = 0 ∧ t.bar2Log v = 30 ∧ tfind t.host.flr v = none) ∧
  (∀ s cause, s.lamp lampPcie = true → Does (.pf0Reset cause) s [.out, .regs, .parts, .host, .log] fun t => t.host.vfEnable = false ∧ t.host.numVFs = 0 ∧
    t.host.streams = [] ∧ t.host.aer = 0 ∧
    (∀ v p, 1 ≤ v → v ≤ 64 → v ≤ s.host.numVFs → s.partOf v = some p → (s.part p).reset = 0 → InResetRekey p t) ∧
    (s.bit chartStatus 0 = true → s.bit chartCtrl 0 = true → s.chart.image = [] → t.fld chartStatus 8 8 = 14 ∧ t.bit chartStatus 0 = false) ∧
    (s.bit chartStatus 0 = false → MsixReset 0 t)) ∧
  ∀ s, s.lamp lampPcie = false → (∀ cause, Does (.pf0Reset cause) s [] fun t => t = s) ∧ ∀ n, n ≤ 64 → Does (.vfRemove n) s [] fun t => t = s

/-! Device interfaces and attestation. -/

/-- The last that left the module is an answer within session `k`, sealed under the keys of `x`. -/
def Sealed (tp : Transport) (k : Nat) (x : Session) (code : Nat) (body : List Byte) (t : State) : Prop :=
  t.out.head? = some (.secured tp k code body (Config.sealed x.key x.keygen x.sent (BitVec.ofNat 8 code :: body)))

/-- A session after one more message and its answer. -/
def passed (x : Session) : Session := { x with sent := x.sent + 1, received := x.received + 1 }

/-- Session `k` of PF0's DOE is established, and virtual function `vf` serves partition `p`. -/
def Established (s : State) (k : Nat) (x : Session) (vf p : Nat) : Prop :=
  s.spdmUp .doe = true ∧ tfind s.sec.doe k = some x ∧ x.ready = true ∧ s.vfPart vf = some p

/-- Tier 2. Device interfaces (R409 to R411, R439, R441, R446, R454, R457): within an established session, LOCK_INTERFACE locks an unlocked interface of a lit partition and fixes its tables unless the module is tampered or unlocked; START runs a locked one; STOP unlocks it and resets its partition under a fresh key; a report ends with the entry's fields; IDE streams take keys, go and stop; an altered message does nothing. The codes of errors are log entry 61's (PRESUMED), the layout of a report log entry 93's (PRESUMED), and LOCK and START from the one state named here are the model's reading (log entry 52). -/
def Obligations.InterfacesLockAndStop : Prop :=
  (∀ s k x vf p, okVf vf = true → Established s k x vf p →
    ((s.part p).tdi = 0 → s.bit (partStat p) 0 = true → s.bit secStat 1 = false → s.bit secStat 2 = false →
      Does (.lockInterface vf k true) s [.out, .parts, .host, .sec] fun t => Sealed .doe k x spVendor [1] t ∧ (∀ q, q ≠ p → t.part q = s.part q) ∧
        t.part p = { s.part p with tdi := 1, locked := s.walkTables p, lockRoot := BitVec.ofNat 64 (s.reg64 (partPtroot p)) }) ∧
    ((s.part p).tdi ≠ 0 ∨ s.bit (partStat p) 0 = false ∨ s.bit secStat 1 = true ∨ s.bit secStat 2 = true →
      Does (.lockInterface vf k true) s [.out, .sec] fun t => Sealed .doe k x spError (leBytes 2 4) t) ∧
    ((s.part p).reset = 0 → Does (.stopInterface vf k true) s [.out, .regs, .parts, .host, .sec, .log] fun t => Sealed .doe k x spVendor [0] t ∧ InResetRekey p t ∧
      (t.part p).locked = [] ∧ (∀ q, q ≠ p → t.part q = s.part q) ∧ RegsBut [partRst p, partStat p, logDrop] s t) ∧
    Does (.getDeviceInterfaceReport vf k true) s [.out, .sec] (fun t => Sealed .doe k x spVendor (s.report vf p) t ∧ ∃ a b y, a.length = 64 ∧
      s.report vf p = a ++ leBytes 4 b.length ++ b ∧
      b = leBytes 1 p ++ leBytes 1 (if (s.ent p).cached then 1 else 0) ++
        leBytes 1 (s.ent p).keyslot ++ leBytes 1 (s.ent p).lead ++ leBytes 4 (s.reg (partModel p)).toNat ++ leBytes 8 (s.ent p).coresets ++
        leBytes 8 (s.liveWays (s.ent p).ways) ++
        leBytes 32 (s.ent p).hbmch ++ leBytes 8 (s.part p).lockRoot.toNat ++ leBytes 2 (s.domainOf p) ++ y)) ∧
  (∀ s k x vf p, Established s k x vf p →
    ((s.part p).tdi = 1 → Does (.vendorDefined .doe k true (.tdispStart vf)) s [.out, .parts, .host, .sec] fun t => t.part p = { s.part p with tdi := 2 } ∧
      (∀ q, q ≠ p → t.part q = s.part q) ∧ Sealed .doe k x spVendor [2] t) ∧
    Does (.vendorDefined .doe k true (.tdispState vf)) s [.out, .sec] (fun t => Sealed .doe k x spVendor (leBytes 1 (s.part p).tdi) t)) ∧
  (∀ s k x n st, s.spdmUp .doe = true → tfind s.sec.doe k = some x → x.ready = true → n ≤ 8 → tget {} s.host.streams n = st →
    Does (.vendorDefined .doe k true (.ideKeyProg n)) s [.out, .host, .sec] (fun t => tget {} t.host.streams n = { st with keyed := true } ∧
      Sealed .doe k x spVendor (leBytes 1 n) t) ∧
    (st.keyed = true →
      Does (.vendorDefined .doe k true (.ideKeyGo n)) s [.out, .host, .sec] (fun t => tget {} t.host.streams n = { st with going := true }) ∧
      Does (.vendorDefined .doe k true (.ideKeyStop n)) s [.out, .host, .sec] (fun t => tget {} t.host.streams n = { st with keyed := false, going := false })) ∧
    (st.keyed = false → Does (.vendorDefined .doe k true (.ideKeyGo n)) s [.out, .sec] fun t => Sealed .doe k x spError (leBytes 2 1) t)) ∧
  (∀ s k x m vf, s.spdmUp .doe = true → tfind s.sec.doe k = some x → okVf vf = true →
    ∀ i, i ∈ [Instr.vendorDefined .doe k false m, .lockInterface vf k false, .stopInterface vf k false, .getDeviceInterfaceReport vf k false] →
      Does i s [.out] fun t => t.out = .spdm .doe spError (leBytes 2 6) :: s.out) ∧
  ∀ s k b m, s.spdmUp .doe = true → tfind s.sec.doe k = none → Does (.vendorDefined .doe k b m) s [.out] fun t => t.out = .spdm .doe spError (leBytes 2 1) :: s.out

/-- A measurement block in DMTF format (R440; the types of its values are log entry 61's). -/
def dmtfBlock (i : Nat) (c : List Byte) : List Byte := [BitVec.ofNat 8 i, 1] ++ leBytes 2 (c.length + 3) ++ leBytes 1 (measType i) ++ leBytes 2 c.length ++ c

/-- Every session of a transport but one is as it was. -/
def OtherSessions (tp : Transport) (k : Nat) (s t : State) : Prop := ∀ j, j ≠ k → tfind (t.sessions tp) j = tfind (s.sessions tp) j

/-- Tier 2. SPDM (R439 to R441): slot 0 alone gives a certificate chain, in portions; measurements are the blocks of the table, signed on request, and within an established session they leave sealed (R458); a transport carries four sessions at most; a session is established by FINISH, rekeyed by KEY_UPDATE and ended by END_SESSION, without any other of them being touched; what it answers leaves sealed under its keys, and an altered message changes nothing. Response codes are log entry 61's. -/
def Obligations.SessionsAndMeasurements : Prop :=
  (∀ s tp, s.spdmUp tp = true →
    Does (.getVersion tp) s [.out] (fun t => t.out = .spdm tp 0x04 [0x00, 0x13] :: s.out) ∧
    Does (.getCapabilities tp) s [.out] (fun t => t.out = .spdm tp 0x61 spdmCaps :: s.out) ∧
    Does (.negotiateAlgorithms tp) s [.out] (fun t => t.out = .spdm tp 0x63 spdmAlgs :: s.out) ∧
    Does (.getDigests tp) s [.out] (fun t => t.out = .spdm tp 0x01 (1 :: leBytes 48 (Config.sha384 s.certChain).toNat) :: s.out) ∧
    (∀ off n, Does (.getCertificate tp 0 off n) s [.out] fun t => (s.certChain.length ≤ off → t.out = .spdm tp spError (leBytes 2 1) :: s.out) ∧
      (off < s.certChain.length → ∃ m, m = min n (s.certChain.length - off) ∧
        t.out = .spdm tp 0x02 (leBytes 2 m ++ leBytes 2 (s.certChain.length - off - m) ++ (s.certChain.drop off).take n) :: s.out)) ∧
    (∀ k off n, k ≠ 0 → Does (.getCertificate tp k off n) s [.out] fun t => t.out = .spdm tp spError (leBytes 2 1) :: s.out) ∧
    (∀ n, Does (.challenge tp 0 n) s [.out] fun t => ∃ d, d = leBytes 48 (Config.sha384 s.certChain).toNat ∧
      t.out = .spdm tp 0x03 (d ++ s.aliasSign (d ++ leBytes 32 n.toNat)) :: s.out) ∧
    (∀ i n, 1 ≤ i → i ≤ 7 → Does (.getMeasurements tp { index := i } false n) s [.out] fun t => t.out = .spdm tp 0x60 (dmtfBlock i (s.measurement i)) :: s.out) ∧
    (∀ i n, 1 ≤ i → i ≤ 7 → Does (.getMeasurements tp { index := i } true n) s [.out] fun t => ∃ b, b = dmtfBlock i (s.measurement i) ∧
      t.out = .spdm tp 0x60 (b ++ s.aliasSign (b ++ leBytes 32 n.toNat)) :: s.out) ∧
    (∀ k x i n, tfind (s.sessions tp) k = some x → x.ready = true → 1 ≤ i → i ≤ 7 →
      Does (.getMeasurements tp { index := i, session := some k } false n) s [.out, .sec] (fun t => tfind (t.sessions tp) k = some (passed x) ∧ OtherSessions tp k s t ∧
        Sealed tp k x 0x60 (dmtfBlock i (s.measurement i)) t) ∧
      Does (.getMeasurements tp { index := i, session := some k } true n) s [.out, .sec] (fun t => ∃ b, b = dmtfBlock i (s.measurement i) ∧
        tfind (t.sessions tp) k = some (passed x) ∧ OtherSessions tp k s t ∧ Sealed tp k x 0x60 (b ++ s.aliasSign (b ++ leBytes 32 n.toNat)) t) ∧
      Does (.getMeasurements tp { index := i, session := some k, tagOk := false } true n) s [.out] fun t => t.out = .spdm tp spError (leBytes 2 6) :: s.out) ∧
    (∀ k x i sg n, tfind (s.sessions tp) k = some x → x.ready = false →
      Does (.getMeasurements tp { index := i, session := some k } sg n) s [.out, .sec] fun t => OtherSessions tp k s t ∧ Sealed tp k x spError (leBytes 2 4) t) ∧
    (∀ k peer, tfind (s.sessions tp) k = none → (s.sessions tp).length < 4 → Does (.keyExchange tp k peer) s [.out, .sec] fun t =>
      tfind (t.sessions tp) k = some { key := Config.sessionKey (BitVec.ofNat 384 (s.draw 3).1) peer } ∧ OtherSessions tp k s t) ∧
    (∀ k peer, tfind (s.sessions tp) k = none → 4 ≤ (s.sessions tp).length → Does (.keyExchange tp k peer) s [.out] fun t => t.out = .spdm tp spError (leBytes 2 8) :: s.out) ∧
    (∀ k x, tfind (s.sessions tp) k = some x → x.ready = false →
      Does (.finish tp k true) s [.out, .sec] (fun t => tfind (t.sessions tp) k = some { passed x with ready := true } ∧ OtherSessions tp k s t ∧ Sealed tp k x 0x65 [] t) ∧
      Does (.finish tp k false) s [.out, .sec] (fun t => tfind (t.sessions tp) k = none ∧ OtherSessions tp k s t) ∧
      Does (.heartbeat tp k true) s [.out, .sec] (fun t => tfind (t.sessions tp) k = some (passed x) ∧ OtherSessions tp k s t ∧ Sealed tp k x spError (leBytes 2 4) t)) ∧
    (∀ k x, tfind (s.sessions tp) k = some x → x.ready = true →
      Does (.heartbeat tp k true) s [.out, .sec] (fun t => tfind (t.sessions tp) k = some (passed x) ∧ OtherSessions tp k s t ∧ Sealed tp k x 0x68 [] t) ∧
      Does (.keyUpdate tp k true) s [.out, .sec] (fun t => tfind (t.sessions tp) k = some { passed x with keygen := x.keygen + 1 } ∧ OtherSessions tp k s t ∧
        Sealed tp k { x with keygen := x.keygen + 1 } 0x69 [] t) ∧
      Does (.endSession tp k true) s [.out, .sec] (fun t => tfind (t.sessions tp) k = none ∧ OtherSessions tp k s t ∧ Sealed tp k x 0x6C [] t)) ∧
    (∀ k x i, tfind (s.sessions tp) k = some x → i ∈ [Instr.heartbeat tp k false, .keyUpdate tp k false, .endSession tp k false] →
      Does i s [.out] fun t => t.out = .spdm tp spError (leBytes 2 6) :: s.out)) ∧
  (∀ s, s.spdmUp .doe = false → Does (.getVersion .doe) s [] fun t => t = s) ∧
  (∀ (s : State), s.measurement 4 = (match s.sec.owner with
    | some d => leBytes 48 d.toNat
    | none => List.replicate 48 0)) ∧
  ∀ (s : State), s.measurement 6 = leBytes 4 (s.reg secStat).toNat ++ leBytes 4 (s.reg secDbg).toNat ++ leBytes 4 (s.reg secPfcnt).toNat

/-! Presence, tamper and the mailbox. -/

/-- A presence fault has been counted and reported (R442, R443). -/
def Faulted (s t : State) : Prop :=
  t.fld secStat 3 2 = prFault ∧ t.sec.presCount = 0 ∧ t.bit secEvt 0 = true ∧ (t.reg secPfcnt).toNat = min ((s.reg secPfcnt).toNat + 1) 0xFFFFFFFF ∧
  RegsBut [secStat, secPfcnt, secEvt, logDrop] s t

/-- Tier 2. Presence and tamper (R442, R443, R445): samples move the presence state by the table, with its count and the run of disagreements; the 1,000th closed sample asserts presence, the 51st disagreement is a fault that is counted and reported; ten open samples of the loop make a tamper event, which erases every key, ends debug unlock and resets every partition, and is reported once while TAMPERED is set. -/
def Obligations.PresenceAndTamperAreSampled : Prop :=
  (∀ s a b, s.boot.auxUp = true → (s.fld secStat 3 2 = prFault ∨ a = b ∨ s.sec.presD < 50) →
    Does (.presenceSample a b) s [.regs, .sec] fun t => t.bit secStat 5 = a ∧ t.bit secStat 6 = b ∧ t.sec.presD = (if a = b then 0 else s.sec.presD + 1) ∧ RegsBut [secStat] s t ∧
      t.fld secStat 0 3 = s.fld secStat 0 3 ∧ t.fld secStat 7 25 = s.fld secStat 7 25 ∧
      (s.fld secStat 3 2 = prAbsent → a && b → t.fld secStat 3 2 = prArming ∧ t.sec.presCount = 1) ∧
      (s.fld secStat 3 2 = prAbsent → !(a && b) → t.fld secStat 3 2 = prAbsent) ∧
      (s.fld secStat 3 2 = prArming → a && b → t.fld secStat 3 2 = if s.sec.presCount + 1 = 1000 then prPresent else prArming) ∧
      (s.fld secStat 3 2 = prArming → a && b → s.sec.presCount + 1 ≠ 1000 → t.sec.presCount = s.sec.presCount + 1) ∧
      (s.fld secStat 3 2 = prArming → !(a && b) → t.fld secStat 3 2 = prAbsent) ∧
      (s.fld secStat 3 2 = prPresent → t.fld secStat 3 2 = if !a && !b then prAbsent else prPresent) ∧
      (s.fld secStat 3 2 = prFault → !a && !b → t.fld secStat 3 2 = if s.sec.presCount + 1 = 1000 then prAbsent else prFault) ∧
      (s.fld secStat 3 2 = prFault → a || b → t.fld secStat 3 2 = prFault ∧ t.sec.presCount = 0)) ∧
  (∀ s a, s.boot.auxUp = true → s.fld secStat 3 2 ≠ prFault → s.sec.presD = 50 → Does (.presenceSample a (!a)) s [.out, .regs, .host, .sec, .log] (Faulted s) ∧
    Does (.presenceFault a) s [.out, .regs, .host, .sec, .log] (Faulted s)) ∧
  (∀ s, s.boot.auxUp = true → s.fld secStat 3 2 = prArming → s.sec.presCount = 999 →
    Does .presenceAssert s [.regs, .sec] fun t => t.fld secStat 3 2 = prPresent ∧ t.present = true ∧ RegsBut [secStat] s t) ∧
  (∀ s, s.boot.auxUp = true → s.fld secStat 3 2 = prFault → s.sec.presCount = 999 →
    Does .presenceFaultClear s [.regs, .sec] fun t => t.fld secStat 3 2 = prAbsent ∧ RegsBut [secStat] s t) ∧
  (∀ s o, s.boot.auxUp = true → Does (.tamperSample o) s [.regs, .sec] fun t => t.bit secStat 7 = o ∧ RegsBut [secStat] s t ∧
    t.sec = { s.sec with tamperOpen := (if o then s.sec.tamperOpen + 1 else 0), tamperClosed := (if o then 0 else s.sec.tamperClosed + 1), tamperDue := s.sec.tamperDue || (o && decide (s.sec.tamperOpen + 1 = 10)) }) ∧
  (∀ s, s.sec.tamperDue = true → Does .tamperEvent s [.out, .regs, .mem, .memEpoch, .poison, .cores, .parts, .dies, .chans, .host, .sec, .log] fun t =>
    t.sec.keys = [] ∧ t.bit secStat 1 = true ∧ t.bit secStat 2 = false ∧ t.sec.tamperDue = false ∧ (s.bit secStat 1 = false → t.bit secEvt 2 = true) ∧
    (s.bit secStat 1 = true → t.bit secEvt 2 = s.bit secEvt 2) ∧ (s.bit secStat 2 = true → t.reg secDbg = 0 ∧ t.bit secEvt 4 = true) ∧
    (∀ p, p < 64 → s.valid p = true → (t.part p).reset ≠ 0 ∧ (t.part p).rekey = true ∧ ∀ c a, c < 256 → getBits (s.ent p).hbmch c 1 = 1 → chanMem c a = true → mget? t.mem a = none)) ∧
  ∀ s, s.sec.tamperDue = false → Does .tamperEvent s [] fun t => t = s

/-- PF0's DMA has asked for the image at the address and length of the request, and nothing else has left the module (R406, R449). -/
def FwRead (s t : State) : Prop := t.out = .hostRead 0 (numAt s.sec.req 0 8) (numAt s.sec.req 8 4) :: s.out

/-- Tier 2. Mailbox commands without presence, and completion (R448, R449, R452, R454): GET_NONCE answers a fresh nonce; FW_STAGE reads the image by PF0's DMA, checks it and stages it; DEBUG_LOCK erases the keys and resets every partition; a command that has its result puts it in the registers, is no longer busy and raises vector 0; a reserved opcode is BADCMD. -/
def Obligations.MailboxCommandsComplete : Prop :=
  (∀ s, s.mbxRuns 1 = true → s.sec.req = [] → Does .getNonce s [.sec] fun t => ∃ n : BitVec 256, n.toNat = (s.draw 2).1 % 2 ^ 256 ∧
    t.sec = { (s.draw 2).2.sec with nonce := some (n, s.now), mbx := some (0, leBytes 32 n.toNat), accepted := none, begun := false, fwPend := none }) ∧
  (∀ s, s.mbxRuns 1 = true → s.sec.req ≠ [] → Does .getNonce s [.sec] fun t => t.sec.mbx = some (mrBadcmd, []) ∧ t.sec.nonce = s.sec.nonce) ∧
  (∀ s, s.mbxRuns 1 = false → Does .getNonce s [] fun t => t = s) ∧
  (∀ s, s.mbxRuns 4 = true → s.sec.req = [] → s.bit secStat 2 = true →
    Does .debugLock s [.out, .regs, .mem, .memEpoch, .poison, .cores, .parts, .dies, .chans, .host, .sec, .log] fun t => t.sec.mbx = some (0, []) ∧ t.bit secStat 2 = false ∧
      t.reg secDbg = 0 ∧ t.sec.keys = [] ∧ t.bit secEvt 4 = true ∧ ∀ p, p < 64 → s.valid p = true → (t.part p).reset ≠ 0 ∧ (t.part p).rekey = true) ∧
  (∀ s, s.mbxRuns 4 = true → s.sec.req = [] → s.bit secStat 2 = false → Does .debugLock s [.sec] fun t => t.sec.mbx = some (mrState, [])) ∧
  (∀ s f, s.mbxRuns 5 = true → s.sec.accepted = none → s.sec.req.length = 12 → 0 < numAt s.sec.req 8 4 → numAt s.sec.req 8 4 ≤ 2 ^ 23 →
    (Config.ecdsaVerify Config.kelzetreKey (leBytes 2 f.svn.toNat ++ f.body) f.sig = true → s.fld secFwsvn 16 16 ≤ f.svn.toNat →
      Does (.fwStage (some f)) s [.out, .regs, .sec, .log] fun t => FwRead s t ∧ t.sec.staged = some (f.svn, Config.sha384 f.body) ∧ t.sec.mbx = some (0, []) ∧ t.bit secStat 8 = true ∧
        t.sec.fw = s.sec.fw ∧ RegsBut [secStat, logDrop] s t) ∧
    (Config.ecdsaVerify Config.kelzetreKey (leBytes 2 f.svn.toNat ++ f.body) f.sig = false →
      Does (.fwStage (some f)) s [.out, .sec] fun t => FwRead s t ∧ t.sec.mbx = some (mrSignature, []) ∧ t.sec.staged = s.sec.staged ∧ t.sec.fw = s.sec.fw) ∧
    (Config.ecdsaVerify Config.kelzetreKey (leBytes 2 f.svn.toNat ++ f.body) f.sig = true → f.svn.toNat < s.fld secFwsvn 16 16 → s.present = false →
      Does (.fwStage (some f)) s [.out, .regs, .host, .sec, .log] fun t => .hostRead 0 (numAt s.sec.req 0 8) (numAt s.sec.req 8 4) ∈ t.out ∧ t.sec.mbx = some (mrPresence, []) ∧ t.bit secEvt 1 = true ∧ t.sec.staged = s.sec.staged) ∧
    (Config.ecdsaVerify Config.kelzetreKey (leBytes 2 f.svn.toNat ++ f.body) f.sig = true → f.svn.toNat < s.fld secFwsvn 16 16 → s.present = true →
      Does (.fwStage (some f)) s [.out, .sec] fun t => FwRead s t ∧ t.sec.mbx = none ∧ t.sec.accepted = some 5 ∧ t.sec.fwPend = some (f.svn, Config.sha384 f.body)) ∧
    Does (.fwStage none) s [.out, .sec] (fun t => FwRead s t ∧ t.sec.mbx = some (mrDma, []))) ∧
  (∀ s r rsp, s.bit mbxStat 0 = true → s.lamp lampSecroot = true → s.sec.mbx = some (r, rsp) → rsp.length ≤ 4096 →
    Does .mbxCommandComplete s [.out, .regs, .host, .sec] fun t => t.sec = { s.sec with mbx := none, accepted := none, begun := false, fwPend := none } ∧
      t.bit mbxStat 0 = false ∧ t.bit mbxCtrl 8 = false ∧ t.fld mbxStat 8 8 = r.toNat ∧ (t.reg mbxRspLen).toNat = rsp.length ∧ t.regBytes mbxBuf rsp.length = rsp ∧
      OneVector s t 0 0) ∧
  (∀ s, s.bit mbxStat 0 = true → s.lamp lampSecroot = true → s.sec.mbx = none → s.sec.op < 1 ∨ 7 < s.sec.op →
    Does .mbxCommandComplete s [.out, .regs, .host, .sec] fun t => t.fld mbxStat 8 8 = mrBadcmd.toNat ∧ t.bit mbxStat 0 = false)

/-- A gated command runs and is not accepted yet. -/
def Asked (s : State) (op n : Nat) : Prop := s.mbxRuns op = true ∧ s.sec.accepted = none ∧ s.sec.req.length = n

/-- Tier 2. Gated commands (R444, R446, R450, R453, R454, R518): without presence none is accepted, and a refusal is recorded; a nonce that a command presents is consumed, whether or not it succeeds; accepted, each makes its update in one step while presence holds, and changes nothing if presence was lost; an owner change or an unlock waits while a full chart is being applied; an enrolment stores the key's digest, an unlock opens its scope once the keys are erased, LOG_CLEAR empties the ring and no pinned slot, TAMPER_CLEAR clears TAMPERED. That OWNER_ENROL presents the nonce last issued is log entry 92's reading; the order of the checks and the two looks at presence are log entry 52's, and the wait for a full chart is log entry 53's. -/
def Obligations.GatedCommandsNeedPresence : Prop :=
  (∀ s i op n, (i, op, n) ∈ [(Instr.ownerEnrol, 2, 193), (.tamperClear, 7, 0)] → Asked s op n → s.present = false →
    Does i s [.out, .regs, .host, .sec, .log] fun t => t.sec.mbx = some (mrPresence, []) ∧ t.sec.owner = s.sec.owner ∧ t.sec.accepted = none ∧ t.bit secEvt 1 = true ∧
      t.sec.nonce = (if op = 2 then none else s.sec.nonce) ∧ RegsBut [secEvt, logDrop] s t) ∧
  (∀ s, Asked s 6 36 → numAt s.sec.req 32 4 = 1 → s.present = false → Does .logClear s [.out, .regs, .host, .sec, .log] fun t => t.sec.mbx = some (mrPresence, []) ∧
    t.bit secEvt 1 = true ∧ t.sec.nonce = s.sec.nonce.filter fun x => decide (x.1.toNat ≠ numAt s.sec.req 0 32)) ∧
  (∀ s i op, (i, op) ∈ [(Instr.ownerEnrol, 2), (.debugUnlock, 3), (.logClear, 6), (.tamperClear, 7)] → s.mbxRuns op = true → s.sec.accepted = some op → s.sec.begun = false →
    s.present = false → Does i s [.out, .regs, .host, .sec, .log] fun t => t.sec.mbx = some (mrLost, []) ∧ t.sec.owner = s.sec.owner ∧ t.bit secEvt 1 = true ∧
      RegsBut [secEvt, logDrop] s t) ∧
  (∀ s n gt, Asked s 2 193 → s.present = true → s.sec.nonce = some (n, gt) →
    (Config.ecdsaVerify (Config.sha384 (slice s.sec.req 0 97)) (enrolMsg n) (slice s.sec.req 97 96) = true → s.now ≤ gt + 60 * 10 ^ 9 →
      Does .ownerEnrol s [.sec] fun t => t.sec = { s.sec with nonce := none, accepted := some 2 }) ∧
    (Config.ecdsaVerify (Config.sha384 (slice s.sec.req 0 97)) (enrolMsg n) (slice s.sec.req 97 96) = false →
      Does .ownerEnrol s [.sec] fun t => t.sec.mbx = some (mrSignature, []) ∧ t.sec.nonce = none)) ∧
  (∀ s, s.mbxRuns 2 = true → s.sec.accepted = some 2 → s.present = true → s.sec.owner = none →
    Does .ownerEnrol s [.out, .regs, .host, .sec, .log] fun t => t.sec.owner = some (Config.sha384 (slice s.sec.req 0 97)) ∧ t.bit secStat 0 = true ∧ t.bit secEvt 3 = true ∧
      t.regBytes secOwndig 48 = leBytes 48 (Config.sha384 (slice s.sec.req 0 97)).toNat ∧ t.sec.mbx = some (0, [])) ∧
  (∀ s o, s.mbxRuns 2 = true → s.sec.accepted = some 2 → s.sec.begun = true → s.sec.owner = some o → s.allStopped = true →
    Does .ownerEnrol s [.gt, .out, .regs, .mem, .memEpoch, .poison, .cores, .launches, .queues, .parts, .dies, .chans, .links, .chart, .host, .sec, .boot, .dbg, .log] fun t =>
      t.sec.owner = some (Config.sha384 (slice s.sec.req 0 97)) ∧ t.sec.keys = [] ∧ t.chart.active = false ∧ t.chart.boot = none ∧ t.chart.parts = [] ∧ t.chart.holding = false ∧
      t.lamp lampChart = false ∧ t.reg64 chartSeq = 0 ∧ t.bit secStat 2 = false ∧ t.sec.mbx = some (0, [])) ∧
  (∀ s i op o, (i, op) ∈ [(Instr.ownerEnrol, 2), (.debugUnlock, 3)] → s.mbxRuns op = true → s.sec.accepted = some op → s.sec.begun = false → s.present = true → s.sec.owner = some o →
    s.chart.applying = true → Does i s [] fun t => t = s) ∧
  (∀ s n gt o, Asked s 3 160 → numAt s.sec.req 0 4 = 0x4B5A4455 → numAt s.sec.req 4 4 < 8 → numAt s.sec.req 0x38 8 = 0 → numAt s.sec.req 8 16 ≠ 0 →
    numAt s.sec.req 8 16 = moduleDigest.toNat → s.sec.nonce = some (n, gt) → n.toNat = numAt s.sec.req 0x18 32 →
    (s.present = false → Does .debugUnlock s [.out, .regs, .host, .sec, .log] fun t => t.sec.mbx = some (mrPresence, []) ∧ t.sec.nonce = none ∧ t.bit secStat 2 = s.bit secStat 2) ∧
    (s.present = true → s.now ≤ gt + 60 * 10 ^ 9 → s.sec.owner = some o → Config.ecdsaVerify o (slice s.sec.req 0 64) (slice s.sec.req 64 96) = true →
      Does .debugUnlock s [.sec] fun t => t.sec = { s.sec with nonce := none, accepted := some 3 }) ∧
    (s.present = true → s.sec.owner = none → Does .debugUnlock s [.sec] fun t => t.sec.mbx = some (mrSignature, []) ∧ t.sec.nonce = none)) ∧
  (∀ s, s.mbxRuns 3 = true → s.sec.accepted = some 3 → s.sec.begun = true → s.allStopped = true →
    Does .debugUnlock s [.out, .regs, .mem, .memEpoch, .poison, .cores, .parts, .dies, .chans, .chart, .host, .sec, .log] fun t => t.sec.keys = [] ∧ t.bit secStat 2 = true ∧
      t.chart.holding = false ∧ (∀ p, p < 64 → s.valid p = true → (t.part p).rekey = true) ∧ (t.reg secDbg).toNat = numAt s.sec.req 4 4 ∧ t.bit secEvt 4 = true ∧ t.sec.mbx = some (0, [])) ∧
  (∀ s n gt, Asked s 6 36 → numAt s.sec.req 32 4 = 1 → s.present = true → s.sec.nonce = some (n, gt) → n.toNat = numAt s.sec.req 0 32 →
    Does .logClear s [.sec] fun t => t.sec.nonce = none ∧ (s.now ≤ gt + 60 * 10 ^ 9 → t.sec.accepted = some 6 ∧ t.sec.mbx = none) ∧
      (gt + 60 * 10 ^ 9 < s.now → t.sec.mbx = some (mrNonce, []))) ∧
  (∀ s, s.mbxRuns 6 = true → s.sec.accepted = some 6 → s.present = true →
    Does .logClear s [.regs, .sec, .log, .records] fun t => (∀ k, 256 ≤ k → tfind t.log.mram k = none ∧ tfind t.log.nor k = none) ∧
      (∀ k, k < 256 → tfind t.log.mram k = tfind s.log.mram k ∧ tfind t.log.nor k = tfind s.log.nor k) ∧
      t.sec.mbx = some (0, leBytes 8 (s.log.mram.filter fun e => decide (256 ≤ e.1)).length)) ∧
  (∀ s, Asked s 7 0 → s.present = true → s.bit secStat 1 = true → 1000 ≤ s.sec.tamperClosed → Does .tamperClear s [.sec] fun t => t.sec = { s.sec with accepted := some 7 }) ∧
  ∀ s, s.mbxRuns 7 = true → s.sec.accepted = some 7 → s.present = true → Does .tamperClear s [.regs, .sec] fun t => t.bit secStat 1 = false ∧ t.sec.mbx = some (0, []) ∧
    RegsBut [secStat] s t

/-! Power, temperature and coolant. -/

/-- Tier 2. Rates and ceilings (R463, R464, R467, R469): a new cap, the lowest of the three, takes hold in one step; a sextant is updated at multiples of 1,024 ns, from 1,024 ns after its rail's lamp, and shows the mean of the core's rate over the last 1,024 ns within 2 %, and no rate above the effective caps that held; a ceiling is evaluated once after a module reset and then every 86,400 s, is never raised, and falls by at most 64 units and not below 4,096. That a rate is bounded by the highest effective cap since the last update is the model's reading (log entry 58). -/
def GovernorsAndCeilings : Prop :=
  (∀ s p, okCore p = true → (s.core p).capWait = true →
    Does (.governorCapTakeHold p) s [.regs, .cores] fun t => t.fld (coreGov p) 16 16 = min (s.core p).loopCap (min (s.core p).thermCap (s.core p).clampCap) % 2 ^ 16 ∧
      t.ceil p = s.ceil p ∧ t.core p = { s.core p with capWait := false, caps := (s.now, s.effCap p) :: (s.core p).caps } ∧
      (∀ q, q ≠ p → t.core q = s.core q) ∧ RegsBut [coreGov p] s t) ∧
  (∀ s p, okCore p = true → (s.core p).capWait = false → Does (.governorCapTakeHold p) s [] fun t => t = s) ∧
  (∀ s p rate g, okCore p = true → rate < 2 ^ 16 → tfind s.boot.railGt (p / 51) = some g →
    (g + 1024 ≤ s.now → s.railLit (p / 51) = true → s.now % 1024 = 0 → Does (.sextantUpdate p rate) s [.regs, .cores] fun t =>
      (∃ r n, r = t.fld (coreSext p) 0 16 ∧ n = s.rateSum p ∧ r ≤ s.capHigh p ∧ 98 * n ≤ 102400 * r ∧ (102400 * r ≤ 102 * n ∨ 102400 * r < 98 * n + 102400) ∧
        (98 * n ≤ 102400 * rate → 102400 * rate ≤ 102 * n → rate ≤ s.capHigh p → r = rate)) ∧ t.core p = { s.core p with caps := [] } ∧
      (∀ q, q ≠ p → t.core q = s.core q) ∧ RegsBut [coreSext p] s t) ∧
    (s.now < g + 1024 ∨ s.railLit (p / 51) = false ∨ s.now % 1024 ≠ 0 → Does (.sextantUpdate p rate) s [] fun t => t = s)) ∧
  (∀ s p drop, okCore p = true → s.lamp lampFoler = true →
    tfind s.boot.aged p = none ∨ (∃ g, tfind s.boot.aged p = some g ∧ g + 86400 * 10 ^ 9 ≤ s.now ∧ s.railLit (p / 51) = true) →
    Does (.ageingEvaluation p drop) s [.out, .regs, .cores, .host, .boot, .log] fun t => t.boot = { s.boot with aged := tset s.boot.aged p s.now } ∧
      t.ceil p ≤ s.ceil p ∧ s.ceil p ≤ t.ceil p + 64 ∧ (4096 ≤ s.ceil p → 4096 ≤ t.ceil p) ∧
      (4096 + min drop 64 ≤ s.ceil p → t.ceil p = s.ceil p - min drop 64) ∧
      (t.ceil p ≠ s.ceil p → t.fld (coreCeil0 p) 16 8 = min (s.fld (coreCeil0 p) 16 8 + 1) 255 ∧ (t.bit (coreCeil0 p) 24 = true ↔ s.bit (coreCeil0 p) 24 = true ∨ t.ceil p < Config.ratingUnits)) ∧
      (t.ceil p = s.ceil p → t.regs = s.regs ∧ t.out = s.out ∧ t.log = s.log ∧ t.cores = s.cores) ∧
      (t.ceil p ≠ s.ceil p → t.core p = { s.core p with caps := (s.now, s.effCap p) :: (s.core p).caps }) ∧ (∀ q, q ≠ p → t.core q = s.core q) ∧ t.fld (coreCeil0 p) 0 16 = s.fld (coreCeil0 p) 0 16 ∧ t.fld (coreGov p) 16 16 = s.fld (coreGov p) 16 16 ∧
      RegsBut [coreGov p, coreCeil0 p, pwrEvt, logDrop] s t) ∧
  (∀ s p drop g, okCore p = true → s.lamp lampFoler = false ∨ (tfind s.boot.aged p = some g ∧ (s.now < g + 86400 * 10 ^ 9 ∨ s.railLit (p / 51) = false)) →
    Does (.ageingEvaluation p drop) s [] fun t => t = s)

/-- Tier 2. The power loop, clamps and temperature (R281, R465, R466, R470, R472 to R477, R479, R484): an update, one at each multiple of 1 ms, records its sample, shows which lit rails are within 15 mV of their setting, and moves each lit rail by two steps at most, only down while the window mean, or under a forced cap the sample, exceeds the budget, and then the rail that draws the most power among those that can be lowered; at 0.55 V its loop cap falls by 64 units; HOT domains lose 64 units of thermal cap; 20 samples above 2,400 W or a spike clamp every core for 10 ms; HOT lasts from 95 °C to below 93 °C; two readings of 105 °C make a trip; a stack's temperature and counts go to the channels with a slot to spare. The thermal cap of 64 below the lower of itself and the ceiling, and the forced cap by the sample, are log entry 58's (DEDUCED); the order of the rails is log entry 62's (DESIGN CHOICE). -/
def PowerAndTemperatureAreHeld : Prop :=
  (∀ s w rails, s.lamp lampFoler = true → s.now % 10 ^ 6 = 0 → s.pwr.sampleGt ≠ some s.now → w < 2 ^ 16 → (∀ r, r < 32 → s.fld (pwrRail r) 0 7 ≤ 60) →
    Does (.powerLoopUpdate w rails) s [.free, .out, .regs, .cores, .host, .pwr, .log] fun t =>
      t.pwr = { s.pwr with samples := (w :: s.pwr.samples).take 10000, sampleGt := some s.now, overRun := if 2400 < w then s.pwr.overRun + 1 else 0 } ∧
      t.fld pwrInst 0 16 = w ∧ t.fld pwrPeak 0 16 = max w (s.fld pwrPeak 0 16) ∧ t.fld pwrAvg 0 16 = t.windowMean % 2 ^ 16 ∧
      (∀ r mv, r < 32 → s.railLit r = true → (rails.getD r (0, 0)).2 = mv →
        (t.bit (pwrRail r) 7 = true ↔ 550 + 5 * s.fld (pwrRail r) 0 7 ≤ mv + 15 ∧ mv ≤ 550 + 5 * s.fld (pwrRail r) 0 7 + 15)) ∧
      (∀ r, r < 32 → t.fld (pwrRail r) 0 7 ≤ 60 ∧ t.fld (pwrRail r) 0 7 ≤ s.fld (pwrRail r) 0 7 + 2 ∧ s.fld (pwrRail r) 0 7 ≤ t.fld (pwrRail r) 0 7 + 2 ∧
        (s.railLit r = false → t.reg (pwrRail r) = s.reg (pwrRail r)) ∧
        (t.budget < t.windowMean ∨ (s.pwr.forced = true ∧ 900 < w) → t.fld (pwrRail r) 0 7 ≤ s.fld (pwrRail r) 0 7 ∧
          (s.railLit r = true → s.movable true r = true →
            (∀ q, q < 32 → q ≠ r → s.railLit q = true → s.movable true q = true → (rails.getD q (0, 0)).1 < (rails.getD r (0, 0)).1) →
            (0 < s.fld (pwrRail r) 0 7 → t.fld (pwrRail r) 0 7 < s.fld (pwrRail r) 0 7) ∧
            (s.fld (pwrRail r) 0 7 = 0 → ∀ p, p / 51 = r → (t.core p).loopCap = max 4096 (min (s.railLoop r) (s.railCeil r) - 64))))) ∧
      (∀ r p, r < 32 → s.railLit r = true → p / 51 = r → s.railHot r = true → (t.core p).thermCap = min (s.core p).thermCap (s.ceil p) - 64) ∧
      (∀ r p, r < 32 → s.railLit r = true → p / 51 = r → s.railHot r = false → s.dieHot (r / 8) = false → (s.core p).thermCap = 0xFFFF → (t.core p).thermCap = 0xFFFF)) ∧
  (∀ s w rails, s.lamp lampFoler = false ∨ s.now % 10 ^ 6 ≠ 0 ∨ s.pwr.sampleGt = some s.now → Does (.powerLoopUpdate w rails) s [] fun t => t = s) ∧
  (∀ s spike, s.lamp lampFoler = true → 20 ≤ s.pwr.overRun ∨ (2900 < spike ∧ s.now % 1000 = 0) →
    Does (.fastClamp spike) s [.out, .regs, .cores, .host, .pwr, .log] fun t => (∀ p, p < 1632 → (t.core p).clampCap = 4096) ∧
      t.pwr = { s.pwr with clampGt := some s.now, overRun := 0, alert := true } ∧ t.bit pwrStat 3 = true ∧ t.bit pwrEvt 2 = true ∧ RegsBut [pwrStat, pwrEvt, logDrop] s t) ∧
  (∀ s spike, s.pwr.overRun < 20 → spike ≤ 2900 ∨ s.now % 1000 ≠ 0 → Does (.fastClamp spike) s [] fun t => t = s) ∧
  (∀ s g, s.pwr.clampGt = some g →
    (g + 10 ^ 7 ≤ s.now → Does .fastClampEnd s [.regs, .cores, .pwr] fun t => (∀ p, p < 1632 → (t.core p).clampCap = 0xFFFF) ∧ t.pwr.clampGt = none ∧ t.bit pwrStat 3 = false ∧
      RegsBut [pwrStat] s t) ∧
    (s.now < g + 10 ^ 7 → Does .fastClampEnd s [] fun t => t = s)) ∧
  (∀ s n a b c d, n < 32 → s.lamp lampRim = true →
    Does (.thermalRead n [a, b, c, d]) s [.out, .regs, .host, .pwr] fun t => t.fld (pwrRail n) 8 8 = min (max (max (max a b) c) d) 255 ∧
      (t.railHot n = true ↔ (s.railHot n = true ∧ 93 ≤ max (max (max a b) c) d) ∨ 95 ≤ max (max (max a b) c) d) ∧
      t.fld (pwrRail n) 0 7 = s.fld (pwrRail n) 0 7 ∧ tget 0 t.pwr.sensors (4 * n) = a ∧ tget 0 t.pwr.sensors (4 * n + 3) = d ∧
      (s.pwr.trip = none → 105 ≤ tget 0 s.pwr.sensors (4 * n) → 105 ≤ a → t.pwr.trip = some (4 * n, tget 0 s.pwr.sensors (4 * n), a)) ∧
      (95 ≤ a → t.pwr.alert = true ∧ t.bit pwrStat 1 = true ∧ (s.bit pwrStat 1 = false → t.bit pwrEvt 0 = true)) ∧ RegsBut [pwrRail n, pwrStat, pwrEvt] s t) ∧
  (∀ s h v, h < 8 → s.lamp (lampStack h) = true →
    Does (.telemetryRead h v) s [.out, .regs, .host, .pwr] fun t =>
      (∀ c, c / 32 = h → (s.chan c).slack = true → t.fld (hbmStat c) 8 8 = min v 255 ∧ t.reg (hbmCecnt c) = BitVec.ofNat 32 (s.chan c).ceCount ∧
        t.reg (hbmUecnt c) = BitVec.ofNat 32 (s.chan c).ueCount) ∧
      (∀ c, c < 256 → (s.chan c).slack = false → t.reg (hbmStat c) = s.reg (hbmStat c) ∧ t.reg (hbmCecnt c) = s.reg (hbmCecnt c)) ∧ tget 0 t.pwr.sensors (200 + h) = v ∧
      (s.pwr.trip = none → 105 ≤ tget 0 s.pwr.sensors (200 + h) → 105 ≤ v → t.pwr.trip = some (200 + h, tget 0 s.pwr.sensors (200 + h), v)) ∧
      (v < 105 → t.pwr.trip = s.pwr.trip))

/-- Tier 2. Governors, ceilings, power and temperature. -/
def Obligations.PowerAndTemperatureAreGoverned : Prop := GovernorsAndCeilings ∧ PowerAndTemperatureAreHeld

/-- What a module reset clears (R485, R486): the module is in reset, every lamp is dark, and cores, launches, queues, memory, partitions, keys and the active chart are gone; the owner, the tamper state, the firmware, the boot chart, the module's own retirements and global time stay. -/
def ClearedBy (cause : Nat) (s t : State) : Prop :=
  t.boot.running = false ∧ t.boot.boots = s.boot.boots + 1 ∧ (t.reg rimRstCause).toNat = cause ∧ (∀ i, i < 64 → t.lamp i = false) ∧
  t.cores = [] ∧ t.launches = [] ∧ t.queues = [] ∧ t.mem = [] ∧ t.parts = [] ∧ t.chart.parts = [] ∧ t.chart.active = false ∧ t.chart.boot = s.chart.boot ∧
  t.chart.mCores = s.chart.mCores ∧ t.chart.mChans = s.chart.mChans ∧ t.chart.mLinks = s.chart.mLinks ∧ t.sec.owner = s.sec.owner ∧ t.sec.staged = s.sec.staged ∧ t.sec.fw = s.sec.fw ∧
  t.sec.keys = [] ∧ t.sec.moduleKey = none ∧ (regsWf s.regs = true → t.bit secStat 0 = s.bit secStat 0 ∧ t.bit secStat 1 = s.bit secStat 1) ∧ t.bit secStat 2 = false ∧ t.gt = s.gt

/-- What a module reset leaves: beside all this, the slots of the logbook stay. -/
def ResetBy (cause : Nat) (s t : State) : Prop := ClearedBy cause s t ∧ t.log.mram = s.log.mram ∧ t.log.nor = s.log.nor

/-- What a module reset may change. -/
def resetSide : List Fld :=
  [.regs, .latch, .held, .mem, .memEpoch, .poison, .cores, .launches, .queues, .parts, .dies, .chans, .copies, .links, .chart, .host, .sec, .pwr, .boot, .dbg, .log]

/-- The module is stopped, with its record; vector 4 has told of it, where it could leave (R407). -/
def StoppedBy (cause : Nat) (s t : State) : Prop :=
  ResetBy cause s t ∧ t.out = (if s.host.unmasked.contains 4 = true ∧ s.host.d3.contains 0 = false then [.irq 0 4] else []) ++ s.out ∧ t.pwr.stopped = some cause ∧ t.pwr.alert = true ∧ t.pwr.perstSeen = s.boot.perst ∧
  ∃ r, t.log.waiting = s.log.waiting ++ [r] ∧ r.code = 0x22 ∧ r.sev = sevFatal ∧ r.gt = s.now ∧ r.payload.head? = some (BitVec.ofNat 8 cause)

/-- Tier 2. Coolant and the emergency stop (R478 to R483): filtered values follow two equal samples, D and L count, and a short disagreement is counted; D at 200 forces the cap until 2,000 samples are OK; L at 5 or a trip stops the module, which tells of it by vector 4, is reset and stays stopped. That vector 4 tells of a stop as of a forced cap is the model's reading (log entry 58). -/
def Obligations.CoolantIsWatchedAndStops : Prop :=
  (∀ s a b, s.boot.auxUp = true → Does (.coolantSample a b) s [.regs, .pwr] fun t => ∃ x y d,
    x = (if a = s.pwr.aRaw then a else s.pwr.aOk) ∧ y = (if b = s.pwr.bRaw then b else s.pwr.bOk) ∧ d = (if x = y then 0 else s.pwr.d + 1) ∧
    t.pwr.aRaw = a ∧ t.pwr.bRaw = b ∧ t.pwr.aOk = x ∧ t.pwr.bOk = y ∧ t.pwr.d = min d 200 ∧ t.pwr.l = (if x || y then 0 else s.pwr.l + 1) ∧
    t.pwr.okRun = (if x && y then min (s.pwr.okRun + 1) 2000 else 0) ∧ t.pwr.coolHist = ((a, b) :: s.pwr.coolHist).take 64 ∧
    t.bit pwrCool 0 = x ∧ t.bit pwrCool 1 = y ∧ t.fld pwrCool 8 8 = min d 200 ∧ t.fld pwrCool 16 11 = t.pwr.okRun ∧
    (t.reg pwrCoolDcnt).toNat = (if x = y ∧ 0 < s.pwr.d ∧ s.pwr.d ≤ 199 ∧ s.pwr.forced = false then min ((s.reg pwrCoolDcnt).toNat + 1) 0xFFFFFFFF else (s.reg pwrCoolDcnt).toNat) ∧
    RegsBut [pwrCool, pwrCoolDcnt] s t) ∧
  (∀ s, s.boot.auxUp = false → Does (.coolantSample true true) s [] fun t => t = s) ∧
  (∀ s, s.pwr.d = 200 → s.pwr.l < 5 → s.pwr.forced = false → s.pwr.stopped = none → s.boot.running = true →
    Does .forcedCap s [.out, .regs, .host, .pwr, .log] fun t => t.pwr = { s.pwr with forced := true, alert := true } ∧ t.budget = 900 ∧ t.bit pwrStat 2 = true ∧
      t.bit pwrEvt 1 = true ∧ t.fld pwrLimit 0 12 = s.fld pwrLimit 0 12 ∧ RegsBut [pwrStat, pwrEvt, logDrop] s t) ∧
  (∀ s, s.pwr.forced = true →
    (s.pwr.okRun = 2000 → Does .forcedCapEnd s [.regs, .pwr, .log] fun t => t.pwr.forced = false ∧ t.budget = s.fld pwrLimit 0 12 ∧ t.bit pwrStat 2 = false ∧
      RegsBut [pwrStat, logDrop] s t) ∧
    (s.pwr.okRun ≠ 2000 → Does .forcedCapEnd s [] fun t => t = s)) ∧
  (∀ s, 5 ≤ s.pwr.l → s.pwr.stopped = none → s.boot.auxUp = true → s.boot.running = true → Does .emergencyStop s (.out :: resetSide) fun t => StoppedBy rcCoolant s t) ∧
  (∀ s i, i = Instr.emergencyStop ∨ i = .thermalTrip → s.pwr.l < 5 → s.pwr.trip.isSome = true → s.pwr.stopped = none → s.boot.auxUp = true → s.boot.running = true →
    Does i s (.out :: resetSide) fun t => StoppedBy rcThermal s t) ∧
  (∀ s, s.pwr.l < 5 → s.pwr.trip = none → Does .emergencyStop s [] (fun t => t = s) ∧ Does .thermalTrip s [] (fun t => t = s)) ∧
  ∀ (s : State) k, s.pwr.stopped = some k → s.pwr.perstSeen = false ∨ s.pwr.okRun < 2000 → s.released = false

/-! Start-up and resets. -/

/-- A condition begins in a module that is in reset: the cause stays, but of conditions of one moment it is the one of lowest code (R485, R527). -/
def StillReset (cause : Nat) (b : Boot) (s t : State) : Prop :=
  t.boot = { b with cause := if s.boot.resetGt = some s.now then min s.boot.cause cause else s.boot.cause } ∧ RegsBut [rimRstCause] s t ∧
  ((t.reg rimRstCause).toNat = if s.boot.resetGt = some s.now ∧ cause < s.boot.cause then cause else (s.reg rimRstCause).toNat)

/-- Tier 2. Supplies and PERST_N (R485, R486, R517, R526, R527, R533): a low PERST_N of 10 µs, a mean of VIN_MAIN outside 48 to 58 V and a loss of VIN_AUX reset a running module with their cause; one already in reset keeps its cause, or has the lowest of one moment's; 200 means within 48.5 to 57.5 V bring VIN_MAIN back, 20 ms in range VIN_AUX; a loss of VIN_AUX clears the always-on domain too, and cuts at most the write of a slot that was under way; start-up begins once nothing holds the reset. The 200 means, what survives a reset and START mode by what holds it are the model's reading (log entry 57), and so are cut writes and the reconciliation of the logbook's copies (log entry 59). -/
def SuppliesResetTheModule : Prop :=
  (∀ s n, 10000 ≤ n → s.boot.running = true → Does (.perstNAssert n) s resetSide fun t => ResetBy rcPerst s t ∧ t.boot.perst = true ∧ t.pwr.perstSeen = true) ∧
  (∀ s n, n < 10000 → Does (.perstNAssert n) s [] fun t => t = s) ∧
  (∀ s n, 10000 ≤ n → s.boot.running = false → Does (.perstNAssert n) s [.regs, .pwr, .boot] fun t => StillReset rcPerst { s.boot with perst := true } s t ∧ t.pwr = { s.pwr with perstSeen := true }) ∧
  (∀ s, Does .perstNDeassert s [.boot] fun t => t.boot = { s.boot with perst := false }) ∧
  (∀ s v i, i = Instr.vinMainOutOfRange v ∨ i = .vinMainInRange v →
    (v < 48000 ∨ 58000 < v → s.boot.running = true → Does i s resetSide fun t => ResetBy rcMain s t ∧ t.boot.mainBad = true ∧ t.boot.mainRun = 0) ∧
    (v < 48000 ∨ 58000 < v → s.boot.running = false → Does i s [.regs, .boot] fun t => StillReset rcMain { s.boot with mainBad := true, mainRun := 0 } s t) ∧
    (48000 ≤ v → v ≤ 58000 → Does i s [.boot] fun t => ∃ n, n = (if 48500 ≤ v ∧ v ≤ 57500 then min 200 (s.boot.mainRun + 1) else 0) ∧
      t.boot = { s.boot with mainRun := n, mainBad := s.boot.mainBad && decide (n < 200) })) ∧
  (∀ s, Does .vinAuxLoss s (.free :: .records :: resetSide) fun t => ClearedBy rcAux s t ∧ t.boot.auxUp = false ∧ t.boot.auxGt = s.now ∧ t.pwr = {} ∧ t.sec.presCount = 0 ∧
    t.sec.tamperOpen = 0 ∧ t.fld secStat 2 30 = 0 ∧ t.reg pwrCoolDcnt = 0 ∧ t.reg secEvt = 0 ∧ t.log.waiting = [] ∧ t.log.held = [] ∧ t.released = false ∧
    (∀ k, tfind t.log.mram k = tfind s.log.mram k ∨ (s.log.waiting.head?.map s.logSlotFor = some k ∧ tfind t.log.mram k = none)) ∧
    (∀ k, tfind t.log.nor k = tfind s.log.nor k ∨ (s.log.norWait.head? = some k ∧ tfind t.log.nor k = none))) ∧
  (∀ s n, (2 * 10 ^ 7 ≤ n → s.boot.auxGt + n ≤ s.now → Does (.vinAuxUp n) s [.boot] fun t => t.boot = { s.boot with auxUp := true }) ∧
    (n < 2 * 10 ^ 7 ∨ s.now < s.boot.auxGt + n → Does (.vinAuxUp n) s [] fun t => t = s)) ∧
  (∀ s, s.boot.running = false → s.boot.auxUp = true → s.boot.perst = false → s.boot.mainBad = false → s.pwr.stopped = none ∨ (s.pwr.perstSeen = true ∧ 2000 ≤ s.pwr.okRun) →
    Does .startupBegin s [.regs, .pwr, .boot, .log] fun t => t.boot = { s.boot with running := true, startGt := s.now } ∧ t.pwr = { s.pwr with stopped := none, alert := false } ∧
      RegsBut [logDrop] s t) ∧
  ∀ s, s.boot.running = true ∨ s.released = false → Does .startupBegin s [] fun t => t = s

/-- Tier 2. Lamps (R407, R452, R456, R465, R486 to R488, R504): a lamp lights only in a running module and only after those that it needs, alone, and raises vector 5; what comes with it is its function, RIM holding the trace port in START mode until 1 s after CHART, and a die's reset until 1 s after its die; a function that misses its time stays dark, with a record. What START mode waits for is log entry 57's reading, what the two copies of the logbook hold after its lamp log entry 59's. -/
def LampsLightInOrder : Prop :=
  (∀ s i, i < 64 → i ≠ 7 → s.boot.running = true → s.lamp i = false → (lampNeeds i).all s.lamp = true → i ∉ s.boot.missed → (i = lampChart → s.chart.active = true) →
    Does (.lampLight i) s [.out, .regs, .mem, .memEpoch, .poison, .cores, .parts, .dies, .chans, .links, .host, .sec, .boot, .dbg, .log, .records] fun t =>
      t.lamp i = true ∧ (∀ j, j < 64 → j ≠ i → t.lamp j = s.lamp j) ∧ t.bit (rimLampChg + i / 32 * 4) (i % 32) = true ∧
      (s.host.unmasked.contains 5 = false → 5 ∈ t.host.pend) ∧
      (∀ h, h < 8 → i = lampStack h → ∀ c, c / 32 = h → s.chanRetired c = false → t.bit (hbmStat c) 0 = true ∧ ∀ a, chanMem c a = true → mget? t.mem a = none) ∧
      (∀ r, r < 32 → i = lampRail r → t.fld (pwrRail r) 0 7 = 40 ∧ t.bit (pwrRail r) 7 = true ∧ tfind t.boot.railGt r = some s.now ∧ ∀ p, p / 51 = r → t.fld (coreSext p) 0 16 = 0) ∧
      (i = lampSecroot → t.sec.moduleKey.isSome = true) ∧ (i = lampRim → tfind t.boot.starts 0 = some none) ∧
      (∀ d, d < 4 → i = lampDie d → t.bit rimDieRst d = false ∧ (tfind t.boot.starts (1 + d) = if (tfind s.boot.starts (1 + d)).isSome then some (some s.now) else none)) ∧
      (i = lampFoler → ∀ svn d, s.sec.staged = some (svn, d) → t.sec.staged = none ∧ t.sec.fw = some d ∧ t.fld secFwsvn 0 16 = svn.toNat ∧ t.fld secFwsvn 16 16 = svn.toNat) ∧
      (i = lampLogbook → t.log.held = [] ∧ (∀ k, k ∈ t.log.badMram ↔ k ∈ s.log.badMram ∧ tfind s.log.nor k = none) ∧
        (∀ k, tfind t.log.nor k = if k ∈ t.log.badMram then none else tfind t.log.mram k) ∧
        (∀ k r, k ∉ s.log.badMram → tfind s.log.mram k = some r → ∃ x, tfind t.log.mram k = some x ∧ r.seq ≤ x.seq) ∧
        ∀ k r, k ∈ s.log.badMram → tfind s.log.nor k = some r → ∃ x, tfind t.log.mram k = some x ∧ (k, x) ∈ s.log.nor) ∧
      (i ≠ lampLogbook → t.log.mram = s.log.mram ∧ t.log.nor = s.log.nor)) ∧
  (∀ s i, i < 64 → s.boot.running = false ∨ s.lamp i = true ∨ (lampNeeds i).all s.lamp = false ∨ i ∈ s.boot.missed ∨ i = 7 ∨ (i = lampChart ∧ s.chart.active = false) →
    Does (.lampLight i) s [] fun t => t = s) ∧
  (∀ s i, i < 64 → i ≠ 7 → s.boot.running = true → s.lamp i = false → i ∉ s.boot.missed → s.lampStart i + lampLatest i * 10 ^ 6 < s.now →
    Does (.lampTimeout i) s [.regs, .boot, .log] fun t => t.lamp i = false ∧ i ∈ t.boot.missed ∧ (∀ j ∈ s.boot.missed, j ∈ t.boot.missed) ∧ RegsBut [rimDieRst, logDrop] s t) ∧
  (∀ s i, i < 64 → s.now ≤ s.lampStart i + lampLatest i * 10 ^ 6 → Does (.lampTimeout i) s [] fun t => t = s) ∧
  ∀ s, Does .startModeEnd s [.boot] fun t => t.boot = { s.boot with starts := t.boot.starts } ∧
    ∀ e, e ∈ t.boot.starts ↔ e ∈ s.boot.starts ∧ ∀ g, e.2 = some g → s.now < g + 10 ^ 9

/-- Tier 2. Supplies, module reset, start-up and lamps. -/
def Obligations.SuppliesAndLampsRuleTheStart : Prop := SuppliesResetTheModule ∧ LampsLightInOrder

/-- Tier 2. Die resets (R434, R463, R493): a write resets first the partitions that touch the die, then the die: its lamps go dark, its links down, its cores, channels, memory and their registers are as at start-up, and its rails are not in range; units of it that were retired stay so; other dies keep theirs; a die whose reset is under way is not asked again. -/
def Obligations.DieResetsClearTheirDie : Prop :=
  (∀ s d, d < 4 → Stored s rimDieRst → s.bit rimDieRst d = false → s.boot.dieWait = [] → (∀ p, p < 64 → s.valid p = true → d ∉ entDies (s.ent p)) →
    Does (.rimDierstWrite (BitVec.ofNat 32 (2 ^ d))) s [.gt, .out, .regs, .mem, .memEpoch, .poison, .cores, .launches, .parts, .dies, .chans, .copies, .links, .host, .boot, .dbg, .log] fun t =>
      t.bit rimDieRst d = true ∧ (∀ i, i < 64 → t.lamp i = (s.lamp i && !(dieLamps d).contains i)) ∧ (∀ p, dieOfPhys p = d → t.core p = {}) ∧
      (∀ c, dieOfChan c = d → t.chan c = {}) ∧ (∀ a, dieOfChan (a / 2 ^ 31) = d → mget? t.mem a = none) ∧ (∀ a, dieOfChan (a / 2 ^ 31) ≠ d → mget? t.mem a = mget? s.mem a) ∧
      (∀ c, dieOfChan c ≠ d → t.chan c = s.chan c) ∧ tfind t.boot.dieGt d = some s.now ∧ (∀ n, dieOfLink n = d → okLink n = true → t.linkUp n = false) ∧
      (∀ p, p < 1632 → dieOfPhys p = d → t.fld (coreSext p) 0 16 = 0 ∧ t.fld (coreGov p) 16 16 = 0xFFFF ∧ t.reg (eccCnt p) = 0 ∧ t.ceil p = s.ceil p) ∧
      (∀ r, r < 32 → r / 8 = d → t.fld (pwrRail r) 0 7 = 40 ∧ t.bit (pwrRail r) 7 = false) ∧
      (t.die d).collRetired = (s.die d).collRetired ∧ (t.die d).digRetired = (s.die d).digRetired ∧ tfind t.boot.starts (1 + d) = some none) ∧
  (∀ s d p, d < 4 → Stored s rimDieRst → s.bit rimDieRst d = false → s.boot.dieWait = [] → p < 64 → s.valid p = true → d ∈ entDies (s.ent p) → (s.part p).reset = 0 →
    Does (.rimDierstWrite (BitVec.ofNat 32 (2 ^ d))) s [.out, .regs, .parts, .host, .boot, .log] fun t => t.bit rimDieRst d = true ∧ (t.part p).reset = 1 ∧ d ∈ t.boot.dieWait ∧
      (∀ i, i < 64 → t.lamp i = s.lamp i) ∧ ∀ q, (q < 64 → s.valid q = true → d ∉ entDies (s.ent q)) → t.part q = s.part q) ∧
  (∀ s d, d < 4 → Stored s rimDieRst → s.bit rimDieRst d = true → s.boot.dieWait = [] → Does (.rimDierstWrite (BitVec.ofNat 32 (2 ^ d))) s [] fun t => t = s) ∧
  (∀ s v, s.lamp lampPcie = false → Does (.rimDierstWrite v) s [] fun t => t = s)

/-! Retirement. -/

/-- Tier 2. Retirement (R21, R22, R31, R395, R415, R419, R434, R435): a core that stalls with work while its rail is in range, and the second uncorrectable error of a unit within 86,400 s, retire it: its launches end by cause, but one that commits goes on, its core set leaves placement, a copy engine takes nothing more, partitions of a collective unit are reset, sweeps of a digest engine stop; a first error is counted and retires nothing, and a corrected one only counts; a retired link, or each of a retired optical engine's, is down and trains no more; an L1 parity error takes a line away; a router's error loses at most a message; a bad slot of the logbook's MRAM is marked. What ENGINE_RETIRE stands for, corrected, parity and router errors among it, is log entry 56's choice; that links and optical engines come by it is log entry 97's, and the marked slot log entry 59's. -/
def Obligations.FailedUnitsLeaveService : Prop :=
  (∀ s p, okCore p = true → s.coreOk p = true → s.bit (pwrRail (p / 51)) 7 = true → (s.core p).busy = true →
    Does (.coreStallRetire p) s [.free, .regs, .cores, .launches, .chart, .dbg, .log] fun t => t.coreOk p = false ∧ (∀ q, q ≠ p → t.coreOk q = s.coreOk q) ∧
      (∀ k i, k < 64 → i < 24 → s.physOf (24 * k + i) = p → t.setOk k = false) ∧
      (∀ lid l, lid ∈ s.onCore p → s.launch? lid = some l → l.committing = false → l.fail = none → ∃ x f, t.launch? lid = some x ∧ x.fail = some f ∧ f.status = stRetired) ∧
      (∀ lid l, lid ∈ s.onCore p → s.launch? lid = some l → l.committing = true → ∃ x, t.launch? lid = some x ∧ x.fail = l.fail ∧ ((s.core p).owes lid = true → x.lostWrite = true)) ∧
      (∀ lid l, lid ∉ s.onCore p → s.launch? lid = some l → t.stranded l = false → t.launch? lid = some l)) ∧
  (∀ s p, okCore p = true → s.coreOk p = false ∨ s.bit (pwrRail (p / 51)) 7 = false ∨ (s.core p).busy = false → Does (.coreStallRetire p) s [] fun t => t = s) ∧
  (∀ s p, okUnit .core p = true → s.coreOk p = true → reachedN (stamp (s.core p).ueGt 2 s.now) 2 = false →
    Does (.engineRetire .core p) s [.free, .regs, .cores, .launches] fun t => t.fld (eccCnt p) 16 16 = min (s.fld (eccCnt p) 16 16 + 1) 0xFFFF ∧
      t.fld (eccCnt p) 0 16 = s.fld (eccCnt p) 0 16 ∧ t.coreOk p = true ∧ RegsBut [eccCnt p] s t ∧ ∀ lid l, lid ∉ s.onCore p → s.launch? lid = some l → t.launch? lid = some l) ∧
  (∀ s p, okUnit .core p = true → s.coreOk p = true → reachedN (stamp (s.core p).ueGt 2 s.now) 2 = true →
    Does (.engineRetire .core p) s [.free, .regs, .cores, .launches, .chart, .dbg, .log] fun t => t.coreOk p = false ∧
      ∀ lid l, lid ∈ s.onCore p → s.launch? lid = some l → l.committing = false → l.fail = none → ∃ x f, t.launch? lid = some x ∧ x.fail = some f ∧ f.status = stEcc) ∧
  (∀ s e, okUnit .copyEngine e = true → (s.copyEng e).retired = false →
    (reachedN (stamp (s.copyEng e).ueGt 2 s.now) 2 = true → Does (.engineRetire .copyEngine e) s [.regs, .launches, .copies, .log] fun t => (t.copyEng e).retired = true ∧
      (∀ k, k ≠ e → t.copyEng k = s.copyEng k) ∧
      ∀ lid l, lid ∈ (s.copyEng e).launches → s.launch? lid = some l → l.committing = false → l.fail = none → ∃ x f, t.launch? lid = some x ∧ x.fail = some f ∧ f.status = stEcc) ∧
    (reachedN (stamp (s.copyEng e).ueGt 2 s.now) 2 = false → Does (.engineRetire .copyEngine e) s [.free, .launches, .copies] fun t => (t.copyEng e).retired = false ∧
      ∀ lid l, lid ∉ (s.copyEng e).launches → s.launch? lid = some l → t.launch? lid = some l)) ∧
  (∀ s d, okUnit .collective d = true → (s.die d).collRetired = false →
    (reachedN (stamp (s.die d).collUe 2 s.now) 2 = true → Does (.engineRetire .collective d) s [.out, .regs, .parts, .dies, .host, .log] fun t => (t.die d).collRetired = true ∧
      ∀ p, p < 64 → s.valid p = true → s.leadDie p = d → (t.part p).reset ≠ 0) ∧
    (reachedN (stamp (s.die d).collUe 2 s.now) 2 = false → Does (.engineRetire .collective d) s [.dies] fun t => (t.die d).collRetired = false)) ∧
  (∀ s p, okUnit .coreCorrected p = true → s.coreOk p = true → Does (.engineRetire .coreCorrected p) s [.regs] fun t =>
    t.fld (eccCnt p) 0 16 = min (s.fld (eccCnt p) 0 16 + 1) 0xFFFF ∧ t.fld (eccCnt p) 16 16 = s.fld (eccCnt p) 16 16 ∧ RegsBut [eccCnt p] s t) ∧
  (∀ s p, okUnit .l1Parity p = true → s.coreOk p = true →
    ((s.core p).l1 ≠ [] → Does (.engineRetire .l1Parity p) s [.free, .regs, .cores] fun t => (∃ k, (tfind (s.core p).l1 k).isSome = true ∧
      t.core p = { s.core p with l1 := tdel (s.core p).l1 k }) ∧ (∀ q, q ≠ p → t.core q = s.core q) ∧
      t.fld (eccCnt p) 0 16 = min (s.fld (eccCnt p) 0 16 + 1) 0xFFFF ∧ t.fld (eccCnt p) 16 16 = s.fld (eccCnt p) 16 16 ∧ RegsBut [eccCnt p] s t) ∧
    ((s.core p).l1 = [] → Does (.engineRetire .l1Parity p) s [] fun t => t = s)) ∧
  (∀ s k, okUnit .mram k = true → (tfind s.log.mram k).isSome = true → Does (.engineRetire .mram k) s [.log] fun t =>
    k ∈ t.log.badMram ∧ t.log = { s.log with badMram := t.log.badMram } ∧ ∀ i, i ≠ k → (i ∈ t.log.badMram ↔ i ∈ s.log.badMram)) ∧
  (∀ s n, okUnit .link n = true → getBits s.chart.mLinks n 1 = 0 →
    Does (.engineRetire .link n) s [.gt, .out, .regs, .cores, .launches, .parts, .dies, .links, .chart, .host, .boot, .dbg, .log] fun t =>
      t.linkRetired n = true ∧ t.mayTrain n = false ∧ t.linkState n = (if s.linkState n = lsDisabled then lsDisabled else lsFailed) ∧ t.chart = { s.chart with mLinks := t.chart.mLinks } ∧
      ∀ k, k ≠ n → getBits t.chart.mLinks k 1 = getBits s.chart.mLinks k 1 ∧ t.linkState k = s.linkState k) ∧
  (∀ s n, okUnit .link n = true → getBits s.chart.mLinks n 1 = 1 → Does (.engineRetire .link n) s [] fun t => t = s) ∧
  (∀ s k i, okUnit .opticalEngine k = true → (∃ j, j < 4 ∧ getBits s.chart.mLinks (4 * k + j) 1 = 0) → i < 4 →
    Does (.engineRetire .opticalEngine k) s [.gt, .out, .regs, .cores, .launches, .parts, .dies, .links, .chart, .host, .boot, .dbg, .log] fun t =>
      t.linkRetired (4 * k + i) = true ∧ t.mayTrain (4 * k + i) = false ∧ t.linkUp (4 * k + i) = false) ∧
  (∀ s d n m, okUnit .router d = true → s.routerMsgs d = [(some n, m)] → 5 < m.typ → Does (.engineRetire .router d) s [.free, .regs, .links] fun t =>
    (t.links = s.links ∧ t.regs = s.regs) ∨ ((t.link n).txq = [] ∧ RegsBut [lnkCnt n 7] s t ∧ (t.reg (lnkCnt n 7)).toNat = min ((s.reg (lnkCnt n 7)).toNat + 1) 0xFFFFFFFF)) ∧
  ∀ s d, okUnit .digest d = true → (s.die d).digRetired = false →
    (reachedN (stamp (s.die d).digUe 2 s.now) 2 = true → Does (.engineRetire .digest d) s [.free, .regs, .parts, .dies, .dbg, .log] fun t => (t.die d).digRetired = true ∧
      ∀ p, p < 64 → s.valid p = true → s.leadDie p = d → t.bit (digSwstat p) 4 = true ∧ (t.part p).sweep.running = false) ∧
    (reachedN (stamp (s.die d).digUe 2 s.now) 2 = false → Does (.engineRetire .digest d) s [.dies] fun t => (t.die d).digRetired = false)

/-! Sweeps and beacons. -/

/-- A sweep of partition `p` has just started, with the regions and SALT of its registers. -/
def Swept (p : Nat) (s t : State) : Prop :=
  (t.part p).sweep = { running := true, regions := s.swRegions p, salt := s.reg64 (digSalt p) } ∧ t.bit (digSwstat p) 0 = true

/-- A pass has been aborted for the reason `why`, and its results are as before. -/
def Aborted (p why : Nat) (s t : State) : Prop :=
  (t.part p).sweep.running = false ∧ (t.part p).sweep.restart = some (s.now + 1000000) ∧ t.bit (digSwstat p) 0 = false ∧ t.bit (digSwstat p) 1 = true ∧
  t.fld (digSwstat p) 2 2 = why ∧ t.reg64 (digWdigA p) = s.reg64 (digWdigA p) ∧ t.reg64 (digWdigB p) = s.reg64 (digWdigB p) ∧ t.reg (digSwpass p) = s.reg (digSwpass p)

/-- Tier 2. Weight sweeps (R420 to R423): setting ENABLE starts a pass and clears its count, clearing it abandons the pass; each line's two CRCs are added; a page with W, one that does not translate and uncorrectable data abort the pass for 1 ms and leave its results; a pass that ends stores both lanes and starts the next. A line is folded once its home slice has it (R415); that a sweep waits while no way round the ring leads to a line or its tables is the model's choice (log entry 77). -/
def SweepsDigestTheirRegions : Prop :=
  (∀ s p, okPart p = true → Stored s (digSwctrl p) →
    (s.bit (digSwctrl p) 0 = false → s.digServes p = true → Does (.digSwctrlEnable p) s [.regs, .parts, .dbg] fun t => Swept p s t ∧ t.bit (digSwctrl p) 0 = true ∧ t.reg (digSwpass p) = 0) ∧
    (s.bit (digSwctrl p) 0 = true → Does (.digSwctrlEnable p) s [] fun t => t = s) ∧
    Does (.digSwctrlDisable p) s [.free, .regs, .parts, .dbg] (fun t => (t.part p).sweep.running = false ∧ (t.part p).sweep.restart = none ∧ t.bit (digSwctrl p) 0 = false ∧
      t.bit (digSwstat p) 0 = false ∧ RegsBut [digSwctrl p, digSwstat p, dbgTrlost p] s t)) ∧
  (∀ s p va tr v, okPart p = true → s.digServes p = true → (s.part p).sweep.running = true → (s.part p).sweep.line = some va → s.transl p va .read = (.ok tr, v) →
    (∀ a, tr.w = false → tr.tgt = .hbm a → v.dieSees (v.leadDie p) tr.tgt = true → v.poisoned a 128 = false → v.linesHere [(tr.tgt, 128)] = true →
      Does (.sweepLineRead p) s [.free, .parts, .dies, .chans] fun t =>
      (t.part p).sweep.a = (s.part p).sweep.a + (lineLanes (s.part p).sweep.salt va (s.bytes a 128)).1 ∧
      (t.part p).sweep.b = (s.part p).sweep.b + (lineLanes (s.part p).sweep.salt va (s.bytes a 128)).2 ∧ (t.part p).sweep.running = true ∧
      ((t.part p).sweep.line = some (va + 128) ∨ ((t.part p).sweep.region = (s.part p).sweep.region + 1 ∧ (t.part p).sweep.off = 0))) ∧
    (tr.w = true → Does (.sweepLineRead p) s [.free, .regs, .parts, .dbg] fun t => Aborted p 0 s t) ∧
    (∀ a, tr.w = false → tr.tgt = .hbm a → v.poisoned a 128 = false → v.linesHere [(tr.tgt, 128)] = false → Does (.sweepLineRead p) s [.free, .parts, .dies, .chans] fun t =>
      (t.part p).sweep = (s.part p).sweep) ∧
    (tr.w = false → v.dieSees (v.leadDie p) tr.tgt = false → Does (.sweepLineRead p) s [.free, .parts] fun t => (t.part p).sweep = (s.part p).sweep) ∧
    (∀ a, tr.w = false → tr.tgt = .hbm a → v.dieSees (v.leadDie p) tr.tgt = true → v.poisoned a 128 = true → Does (.sweepLineRead p) s [.free, .regs, .parts, .dbg] fun t => Aborted p 3 s t)) ∧
  (∀ s p va f v, okPart p = true → s.digServes p = true → (s.part p).sweep.running = true → (s.part p).sweep.line = some va → s.transl p va .read = (.error f, v) →
    (f ≠ .cut → Does (.sweepLineRead p) s [.free, .regs, .parts, .dbg] fun t => Aborted p 1 s t) ∧
    (f = .cut → Does (.sweepLineRead p) s [.free, .parts] fun t => (t.part p).sweep = (s.part p).sweep)) ∧
  (∀ s p, okPart p = true → s.digServes p = true → (s.part p).sweep.running = true → (s.part p).sweep.line = none →
    Does (.sweepPassEnd p) s [.regs, .parts, .dbg] fun t => t.reg64 (digWdigA p) = (s.part p).sweep.a.toNat ∧ t.reg64 (digWdigB p) = (s.part p).sweep.b.toNat ∧
      t.reg (digSwpass p) = s.reg (digSwpass p) + 1 ∧ Swept p s t) ∧
  (∀ s p g, okPart p = true → (s.part p).sweep.restart = some g →
    (g ≤ s.now → s.bit (digSwctrl p) 0 = true → s.digServes p = true → Does (.sweepRestart p) s [.regs, .parts, .dbg] fun t => Swept p s t) ∧
    (s.now < g → Does (.sweepRestart p) s [] fun t => t = s))

/-- Tier 2. Beacons (R428 to R432): a step that is a multiple of B and beyond the last one makes a beacon, which is kept and sent to the peer; a received one is kept and compared with the own beacon of its step: agreement and disagreement are counted apart; one of no peer, or of another model, is counted late. -/
def BeaconsAreComparedByStep : Prop :=
  (∀ s p v u, okPart p = true → s.bit (digBctrl p) 16 = true → s.digServes p = true → s.beaconDue p = (some v, u) →
    Does (.beaconBuild p) s [.free, .out, .regs, .mem, .poison, .cores, .launches, .parts, .dies, .chans, .links, .log] fun t => (t.part p).lastBeacon = v ∧
      (s.part p).lastBeacon < v ∧ v % s.fld (digBctrl p) 0 16 = 0 ∧
      ∃ b, (t.part p).own = newest 16 ((s.part p).own ++ [b]) ∧ b.step = v % 2 ^ 32 ∧ b.devid = s.ownId ∧ b.part = p ∧ b.model = s.reg (partModel p) ∧
        b.sweep = s.reg (digSwpass p) ∧ b.wvalid = (s.reg (digSwpass p) != 0) ∧ b.avalid = (s.reg64 (digActVa p) != 0) ∧ b.wabort = s.bit (digSwstat p) 1 ∧ b.gt = s.now ∧
        ∀ i dev q, s.beaconPeers p = [(i, dev, q)] →
          Posted (s.leadDie p) { s.control mBeacon dev 0 b.bytes with part := q, spart := p, epoch := s.epochOf p } s t) ∧
  (∀ s p u, okPart p = true → s.bit (digBctrl p) 16 = true → s.digServes p = true → s.beaconDue p = (none, u) → Does (.beaconBuild p) s [.free, .parts] fun t => t = u) ∧
  (∀ s n m u i dev q b, Arrives s n m mBeacon u → okPart m.part = true → b = beaconOf m.data →
    (u.beaconPeers m.part).find? (fun e => e.2.1 == m.src && e.2.2 == b.part) = some (i, dev, q) → u.digServes m.part = true → u.bit (digBctrl m.part) 16 = true →
    b.model = u.reg (partModel m.part) →
    (∀ o, (u.part m.part).own = [o] → o.step = b.step → Goes (.beacon n m) s u [.free, .regs, .mem, .poison, .cores, .launches, .parts, .dies, .chans, .log] fun t =>
      tget [] (t.part m.part).peers i = newest 16 (tget [] (u.part m.part).peers i ++ [b]) ∧
      (o.agrees b = true → (t.reg (digBmatch m.part)).toNat = min ((u.reg (digBmatch m.part)).toNat + 1) 0xFFFFFFFF ∧ t.reg (digBmiss m.part) = u.reg (digBmiss m.part)) ∧
      (o.agrees b = false → (t.reg (digBmiss m.part)).toNat = min ((u.reg (digBmiss m.part)).toNat + 1) 0xFFFFFFFF ∧ t.reg (digBmatch m.part) = u.reg (digBmatch m.part))) ∧
    ((u.part m.part).own = [] → Goes (.beacon n m) s u [.parts] fun t => tget [] (t.part m.part).peers i = newest 16 (tget [] (u.part m.part).peers i ++ [b])) ∧
    ((u.part m.part).own ≠ [] → (∀ o ∈ (u.part m.part).own, stepNewer o.step b.step = true) → Goes (.beacon n m) s u [.regs] fun t => RegsBut [digBlate m.part] u t ∧
      (t.reg (digBlate m.part)).toNat = min ((u.reg (digBlate m.part)).toNat + 1) 0xFFFFFFFF)) ∧
  (∀ s n m u, Arrives s n m mBeacon u → okPart m.part = true →
    (u.beaconPeers m.part).find? (fun e => e.2.1 == m.src && e.2.2 == (beaconOf m.data).part) = none ∨ u.bit (digBctrl m.part) 16 = false ∨
      (beaconOf m.data).model ≠ u.reg (partModel m.part) →
    Goes (.beacon n m) s u [.regs] fun t => RegsBut [digBlate m.part] u t ∧ (t.reg (digBlate m.part)).toNat = min ((u.reg (digBlate m.part)).toNat + 1) 0xFFFFFFFF)

/-- Sweeps and beacons (R420 to R423, R428 to R432). -/
def Obligations.SweepsAndBeaconsCompareModels : Prop := SweepsDigestTheirRegions ∧ BeaconsAreComparedByStep

/-! Trace, counters and hangs. -/

/-- The requester's access of this offset arrives, at an offset that exists, of a function that takes it and a block that serves. -/
def Reached (s : State) (req off : Nat) : Prop :=
  okReq req = true ∧ s.arrives req = true ∧ s.targets req off = true ∧ s.takes req = true ∧ s.serves0 req off = true

/-- The records of a partition's ring. -/
def ringOf (t : State) (p : Nat) : List TraceRec := tget [] t.dbg.rings p

/-- Tier 2. Trace and counters (R498 to R502, R505, R507, R508, R514, R536, R453): a buffer drains when it is due, after a LOST and a TIMEBASE record where records were dropped; records older than 1 ms are dropped and counted; while EN is clear nothing is written or counted; a ring gets a TIMEBASE record each 2^31 ns; the port sends a block on the next lane; a counter wraps, sets OVF and may freeze; counts and selections take effect as they are written; a private JTAG instruction needs debug and selects bypass without it, IDCODE always shifts out the device's identity, and a scan captures the pins. TRACE_BUFFER_DRAIN, TRACE_TIMEBASE, TRACE_PORT_BLOCK, PMC_OVERFLOW, PMC_HI_WRITE, PMSEL_WRITE and JTAG_INSTRUCTION complete. Where LOST and TIMEBASE records stand, and that a clear EN lets what a buffer holds go, are the model's reading (log entry 54); that one JTAG command loads an instruction and shifts its register is its choice (log entry 94). -/
def TraceReachesItsRings : Prop :=
  (∀ s e g r, okEngine e = true → s.bit dbgTrctrl 0 = true → tget {} s.dbg.bufs e = { recs := [(g, r)], lost := 0 } → g + 10000 ≤ s.now → s.now ≤ g + 10 ^ 6 → r.part < 64 →
    s.reg64 (dbgTrwc r.part) ≠ 0 → s.reg64 (dbgTrwc r.part) + 1 < 2 ^ 64 → (ringOf s r.part).length < ringSize →
    Does (.traceBufferDrain e) s [.regs, .dbg] fun t => ringOf t r.part = ringOf s r.part ++ [r] ∧ t.reg64 (dbgTrwc r.part) = s.reg64 (dbgTrwc r.part) + 1 ∧
      tget {} t.dbg.bufs e = {} ∧ ∀ p, p ≠ r.part → ringOf t p = ringOf s p) ∧
  (∀ s e g r n, okEngine e = true → s.bit dbgTrctrl 0 = true → tget {} s.dbg.bufs e = { recs := [(g, r)], lost := n } → n ≠ 0 → g + 10000 ≤ s.now → s.now ≤ g + 10 ^ 6 → r.part < 64 →
    s.reg64 (dbgTrwc r.part) ≠ 0 → s.reg64 (dbgTrwc r.part) + 3 < 2 ^ 64 → (ringOf s r.part).length + 3 ≤ ringSize →
    Does (.traceBufferDrain e) s [.regs, .dbg] fun t => ∃ a b, ringOf t r.part = ringOf s r.part ++ [a, b, r] ∧ a.typ = tyLost ∧ a.data = BitVec.ofNat 64 (n % 2 ^ 32) ∧
      b.typ = tyTimebase ∧ b.data = BitVec.ofNat 64 s.now ∧ tget {} t.dbg.bufs e = {}) ∧
  (∀ s e g r, okEngine e = true → s.bit dbgTrctrl 0 = true → tget {} s.dbg.bufs e = { recs := [(g, r)], lost := 0 } → g + 10 ^ 6 < s.now → r.part < 64 →
    Does (.traceBufferDrain e) s [.regs, .dbg] fun t => tget {} t.dbg.bufs e = { recs := [], lost := 1 } ∧ t.dbg.rings = s.dbg.rings ∧ RegsBut [dbgTrlost r.part] s t ∧
      (t.reg (dbgTrlost r.part)).toNat = min ((s.reg (dbgTrlost r.part)).toNat + 1) 0xFFFFFFFF) ∧
  (∀ s e, okEngine e = true → s.bit dbgTrctrl 0 = false → s.drainDue (tget {} s.dbg.bufs e) = true → Does (.traceBufferDrain e) s [.dbg] fun t =>
    t.dbg = { s.dbg with bufs := t.dbg.bufs } ∧ tget {} t.dbg.bufs e = { recs := [], lost := (tget {} s.dbg.bufs e).lost } ∧ ∀ k, k ≠ e → tget {} t.dbg.bufs k = tget {} s.dbg.bufs k) ∧
  (∀ s e, okEngine e = true → s.drainDue (tget {} s.dbg.bufs e) = false → Does (.traceBufferDrain e) s [] fun t => t = s) ∧
  (∀ s p, okPart p = true → s.valid p = true → s.bit dbgTrctrl 0 = true → tget 0 s.dbg.base p < s.now / 2 ^ 31 → (ringOf s p).length < ringSize →
    Does (.traceTimebase p) s [.regs, .dbg] fun t => tget 0 t.dbg.base p = s.now / 2 ^ 31 ∧ ∃ a, ringOf t p = ringOf s p ++ [a] ∧ a.typ = tyTimebase ∧
      a.data = BitVec.ofNat 64 (s.now / 2 ^ 31 * 2 ^ 31)) ∧
  (∀ s, s.portMode = 0 → Does .tracePortBlock s [] fun t => t = s) ∧
  (∀ s w ws, s.portMode = 2 → s.dbg.portWords = w :: ws → Does .tracePortBlock s [.out, .dbg] fun t => t.out = .port (s.dbg.portK % 4) 2 w :: s.out ∧
    t.dbg = { s.dbg with portWords := ws, portK := s.dbg.portK + 1 }) ∧
  (∀ s r rs, s.portMode = 1 ∨ s.portMode = 3 → s.dbg.port = r :: rs → Does .tracePortBlock s [.out, .dbg] fun t => t.out = .port (s.dbg.portK % 4) 1 r.word :: s.out ∧
    t.dbg = { s.dbg with port := rs, portK := s.dbg.portK + 1 }) ∧
  (∀ s p n, okCore p = true → n < 8 → s.bit (pmCtrl p) 0 = false → 1 ≤ s.fld (pmSel p n) 0 8 → s.fld (pmSel p n) 0 8 ≤ 0x0F → s.reg64 (pmc p n) = 2 ^ 48 - 1 →
    Does (.pmcOverflow p n) s [.regs] fun t => t.reg64 (pmc p n) = 0 ∧ t.bit (pmOvf p) n = true ∧ t.bit (pmCtrl p) 0 = s.bit (pmCtrl p) 1 ∧
      RegsBut [pmc p n, pmc p n + 4, pmOvf p, pmCtrl p] s t) ∧
  (∀ s p n v lo, okCore p = true → n < 8 → Reached s 0 (pmc p n + 4) → tfind s.held (heldKey 0 (pmc p n)) = some lo →
    Does (.pmcHiWrite 0 p n v) s [.regs, .held] fun t => t.reg64 (pmc p n) % 2 ^ 48 = lo.toNat + v.toNat % 2 ^ 16 * 2 ^ 32 ∧ tfind t.held (heldKey 0 (pmc p n)) = none ∧
      RegsBut [pmc p n, pmc p n + 4] s t) ∧
  (∀ s p n v, okCore p = true → n < 8 → Reached s 0 (pmSel p n) →
    Does (.pmselWrite 0 p n v) s [.regs] fun t => t.fld (pmSel p n) 0 15 = v.toNat % 2 ^ 15 ∧ RegsBut [pmSel p n] s t) ∧
  (∀ s ir pins shift, s.lamp lampRim = true → Does (.jtagInstruction ir pins shift) s [.out, .boot] fun t =>
    t.boot.ir = (if ir = 0xFF ∨ ir = Config.idcodeIr ∨ ir = Config.sampleIr ∨ ir = Config.extestIr ∨ s.bit secDbg 0 = true then ir else 0xFF) ∧
    t.boot = { s.boot with ir := t.boot.ir, bypass := t.boot.bypass, scan := t.boot.scan } ∧
    (t.boot.ir = Config.idcodeIr → t.out = .tdr idcode :: s.out) ∧
    (t.boot.ir = 0xFF → t.boot.ir ≠ Config.idcodeIr → t.out = .tdr 0 :: s.out ∧ t.boot.bypass = false ∧ t.boot.scan = s.boot.scan) ∧
    (t.boot.ir ≠ 0xFF → t.boot.ir ≠ Config.idcodeIr → t.boot.ir = Config.sampleIr ∨ t.boot.ir = Config.extestIr →
      t.out = .tdrScan (pins.take scanPins.length) :: s.out ∧ t.boot.scan = shift.take scanPins.length) ∧
    (t.boot.ir ∉ [0xFF, Config.idcodeIr, Config.sampleIr, Config.extestIr] → t.out = s.out ∧ t.boot.scan = s.boot.scan)) ∧
  (Config.srev = 1 → idcode = 0x14C48D6B) ∧
  (∀ s ir pins shift, s.lamp lampRim = false → Does (.jtagInstruction ir pins shift) s [] fun t => t = s)

/-- Tier 2. Hangs (R509 to R513): a launch without progress for HANGT is stopped where it is; its snapshot goes to the next slot, is counted and raises vector 7; a dump is made where DUMP asks for one and debug allows it, and SKIPPED says that none was; the launch then ends with TIMEOUT at the GT of detection. HANG_CHECK, HANG_SNAPSHOT, HANG_DUMP and HANG_END complete. -/
def HangsAreCaught : Prop :=
  (∀ s d, okDie d = true → tsorted s.launches = true →
    Does (.hangCheck d) s [.cores, .launches, .dbg] fun t => ∀ lid l, s.launch? lid = some l →
      (s.leadDie l.part = d → s.isHung lid l = true → (∃ x, t.launch? lid = some x ∧ x = { l with hung := s.now + 1 }) ∧ lid ∈ t.dbg.hung ∧
        ∀ p k g, (s.core p).group? k = some g → g.launch = lid → ∃ y, (t.core p).group? k = some y ∧ y = { g with stopped := true }) ∧
      (s.leadDie l.part ≠ d ∨ s.isHung lid l = false → t.launch? lid = some l ∧ ∀ p k g, (s.core p).group? k = some g → g.launch = lid → (t.core p).group? k = some g)) ∧
  (∀ s lid l, s.launch? lid = some l → s.dbg.hung.head? = some lid → l.hung ≠ 0 → l.part < 64 → s.reg64 dbgSnapcnt + 1 < 2 ^ 64 →
    Does (.hangSnapshot lid) s [.out, .regs, .host, .dbg, .log] fun t => t.reg64 dbgSnapcnt = s.reg64 dbgSnapcnt + 1 ∧ t.fld dbgHangstat 1 3 = s.reg64 dbgSnapcnt % 8 ∧
      lid ∉ t.dbg.hung ∧ OneVector s t 0 7 ∧
      (∃ x, tfind t.dbg.snaps (s.reg64 dbgSnapcnt % 8) = some x ∧ x.part = l.part ∧ x.epoch = s.epochOf l.part ∧ x.complete = true ∧ x.queue = l.queue ∧ x.seq = l.seq ∧
        x.gt = l.hung - 1 ∧ x.num = s.reg64 dbgSnapcnt ∧ x.body = s.snapBody lid l.part) ∧
      (s.bit dbgHangcfg 17 = true → s.bit secDbg 2 = true → s.bit dbgHangstat 0 = false → t.dbg.dumping = some lid ∧ t.bit dbgHangstat 0 = true) ∧
      (s.bit dbgHangcfg 17 = false ∨ s.bit secDbg 2 = false ∨ s.bit dbgHangstat 0 = true → t.bit dbgHangstat 4 = true ∧ t.dbg.dumping = s.dbg.dumping)) ∧
  (∀ s lid, s.dbg.dumping = some lid → s.dbg.portWords = [] →
    Does (.hangDump lid) s [.regs, .dbg] fun t => t.dbg.dumping = none ∧ t.bit dbgHangstat 0 = false ∧ RegsBut [dbgHangstat] s t ∧
      (s.dbg.toPort = false → t.dbg.dump = (s.dumpOf lid).take (71 * 940032) ∧ (71 * 940032 < (s.dumpOf lid).length → t.bit dbgHangstat 5 = true)) ∧
      (s.dbg.toPort = true → t.dbg.dump = s.dbg.dump)) ∧
  (∀ s lid l, s.launch? lid = some l → l.hung ≠ 0 → lid ∉ s.dbg.hung → s.dbg.dumping ≠ some lid → l.fail = none →
    Does (.hangEnd lid) s [.launches] fun t => OnlyLaunch lid s t ∧ ∃ x f, t.launch? lid = some x ∧ x.hung = 0 ∧ x.fail = some f ∧ f.status = stTimeout ∧ f.cause = 0 ∧
      f.gt = l.hung - 1)

/-- Trace, counters, JTAG and hangs (R453, R498 to R514, R536). -/
def Obligations.TraceAndHangsAreReported : Prop := TraceReachesItsRings ∧ HangsAreCaught

/-! The logbook. -/

/-- Tier 2. The logbook (R415, R515, R517 to R520): the oldest waiting record takes the next SEQ and goes to the ring's next slot, or a FATAL one to the next pinned slot while one is free; an overwrite is counted; drops are told first; at most 1,000 records are written in a second; NOR follows slot by slot and erases a sector of the ring before its first slot; a record that MRAM can no longer read is shown from NOR, which is log entry 59's reading. -/
def LogbookFillsItsSlots : Prop :=
  (∀ s r rs, s.logRate < 1000 → s.log.dropped = 0 → s.log.waiting = r :: rs → 256 ≤ s.log.ring → r.sev ≠ sevFatal ∨ 256 ≤ s.pinnedCount →
    Does .logMramWrite s [.out, .regs, .host, .log, .records] fun t => tfind t.log.mram s.log.ring = some { r with seq := s.log.next, pinned := false } ∧
      (∀ k, k ≠ s.log.ring → tfind t.log.mram k = tfind s.log.mram k) ∧ s.log.ring ∉ t.log.badMram ∧ t.log.nor = s.log.nor ∧ t.log.waiting = rs ∧ t.log.next = s.log.next + 1 ∧
      t.log.ring = (if s.log.ring = 32767 then 256 else s.log.ring + 1) ∧ t.reg64 logNextSeq = (s.log.next + 1) % 2 ^ 64 ∧
      t.log.ovwr = (if (tfind s.log.mram s.log.ring).isSome || (tfind s.log.nor s.log.ring).isSome then s.log.ovwr + 1 else s.log.ovwr) ∧
      (sevAlert ≤ r.sev → OneVector s t 0 2) ∧ (r.sev < sevAlert → t.out = s.out ∧ t.host = s.host)) ∧
  (∀ s r rs, s.logRate < 1000 → s.log.dropped = 0 → s.log.waiting = r :: rs → r.sev = sevFatal → s.pinnedCount < 256 →
    Does .logMramWrite s [.out, .regs, .host, .log, .records] fun t => tfind t.log.mram s.pinnedCount = some { r with seq := s.log.next, pinned := true } ∧
      (∀ k, k ≠ s.pinnedCount → tfind t.log.mram k = tfind s.log.mram k) ∧ t.log.ring = s.log.ring ∧ t.fld logPinned 0 9 = s.pinnedCount + 1 ∧ t.log.next = s.log.next + 1) ∧
  (∀ s, s.logRate < 1000 → s.log.dropped ≠ 0 → 256 ≤ s.log.ring →
    Does .logMramWrite s [.out, .regs, .host, .log, .records] fun t => t.log.waiting = s.log.waiting ∧ t.log.dropped = 0 ∧
      ∃ r, tfind t.log.mram s.log.ring = some r ∧ r.code = 4 ∧ r.sev = sevAlert ∧ r.payload = leBytes 4 s.log.dropped ∧ r.seq = s.log.next) ∧
  (∀ s, 1000 ≤ s.logRate ∨ (s.log.dropped = 0 ∧ s.log.waiting = []) → Does .logMramWrite s [] fun t => t = s) ∧
  (∀ s k ks r, s.log.norWait = k :: ks → k ∉ s.log.badMram → tfind s.log.mram k = some r →
    Does .logNorWrite s [.log, .records] fun t => t.log.mram = s.log.mram ∧ t.log.norWait = ks ∧ tfind t.log.nor k = some r ∧
      (256 ≤ k → k % 8 = 0 → ∀ i, k < i → i < k + 8 → tfind t.log.nor i = none) ∧
      (∀ i, i ≠ k → (k < 256 ∨ k % 8 ≠ 0 ∨ i / 8 ≠ k / 8) → tfind t.log.nor i = tfind s.log.nor i)) ∧
  (∀ s, s.log.norWait = [] → Does .logNorWrite s [] fun t => t = s) ∧
  (∀ (s : State) k, s.fld logSlot 0 15 = k → (k ∉ s.log.badMram → ∀ r, tfind s.log.mram k = some r → s.logShown = some r) ∧ (k ∈ s.log.badMram → s.logShown = tfind s.log.nor k))

/-! Registers. -/

/-- Tier 2. Registers (R10 to R16, R295, R396 to R398, R402, R404, R410, R447, R448, R484, R488, R503): a read of a low half captures the whole value for its requester, and the next read of the high half uses the capture up; reading clears read-clear fields; a write changes writable bits, clears W1C bits written as 1 and nothing else; both halves of a pair take effect at the high half; a locked interface's registers stay; GO starts a mailbox command or is lost; a dark block ignores everything, and the blocks of PF0 alone ignore other requesters; an access that is not aligned, an AtomicOp, one of another size and one of a function in D3hot are unsupported, and a function that refuses accesses reads as all ones; BAR4 shows the pending bits and masks vectors and ends at its size, and the power state and the size of BAR2 are set in configuration; an access of whatever kind without cover puts a running interface in ERROR; VF_APBASE keeps its bits below the size of BAR2, and an unbound function takes no write. The offsets of BAR4 and of configuration, and the dropped poisoned write, are the model's (log entry 91); the blocks that a requester reaches, and whose lone halves wait for whom, are log entry 51's reading. -/
def RegistersKeepTheirCodes : Prop :=
  (∀ s req off, Reached s req off → isPairLo (regKey req off) = true →
    Does (.pairLoRead req off .plain) s [.out, .latch] fun t => t.out = .reg req off (s.view req off) :: s.out ∧
      tfind t.latch (2 ^ 64 * req + off) = some (BitVec.ofNat 64 ((s.view req off).toNat + (s.view req (off + 4)).toNat * 2 ^ 32)) ∧
      t.readHi req (off + 4) = s.view req (off + 4)) ∧
  (∀ s req off, Reached s req (off + 4) → isPairLo (regKey req (off + 4)) = false → isPairLo (regKey req off) = true →
    Does (.pairLoRead req (off + 4) .plain) s [.out, .latch] fun t => t.out = .reg req (off + 4) (s.readHi req (off + 4)) :: s.out ∧ tfind t.latch (2 ^ 64 * req + off) = none ∧
      ∀ v, tfind s.latch (2 ^ 64 * req + off) = some v → s.readHi req (off + 4) = BitVec.ofNat 32 (v.toNat / 2 ^ 32)) ∧
  (∀ s req off, Reached s req off → isPairLo (regKey req off) = false → (4 ≤ off → isPairLo (regKey req (off - 4)) = false) → (regAcc (regKey req off)).rc = 0 →
    Does (.pairLoRead req off .plain) s [.out] fun t => t.out = .reg req off (s.view req off) :: s.out) ∧
  (∀ s req off, Reached s req off → s.boundReq req = true → (regAcc (regKey req off)).rc ≠ 0 →
    Does (.readClear req off) s [.out, .regs] fun t => t.out = .reg req off (s.view req off) :: s.out ∧ RegsBut [regKey req off] s t ∧
      t.reg (regKey req off) = s.reg (regKey req off) &&& ~~~(regAcc (regKey req off)).rc) ∧
  (∀ s off v w, Reached s 0 off → isPairLo off = false → (4 ≤ off → isPairLo (off - 4) = false) → tdiReg off = none → off ≠ mbxCtrl → offIn off 0x2000000 1632 0x1000 ≠ 0x800 →
    s.checked off v = some w →
    Does (.registerWrite 0 off v .plain) s [.regs] fun t => RegsBut [off] s t ∧ ∃ m, m = (regAcc off).rw ||| (if s.lockedBlk off then 0 else (regAcc off).rwl) ||| (if s.present then (regAcc off).rwp else 0) ∧
      t.reg off = ((s.reg off &&& ~~~m) ||| (w &&& m)) &&& ~~~(w &&& (regAcc off).w1c)) ∧
  (∀ s off v, Reached s 0 off → isPairLo off = false → (4 ≤ off → isPairLo (off - 4) = false) → s.checked off v = none → tdiReg off = none → off ≠ mbxCtrl →
    Does (.registerWrite 0 off v .plain) s [] fun t => t = s) ∧
  (∀ s p v, okPart p = true → Reached s 0 (partFdom p) → s.tdiLocked p = true → Does (.registerWrite 0 (partFdom p) v .plain) s [.regs, .log] fun t => RegsBut [logDrop] s t) ∧
  (∀ s p v, okPart p = true → Reached s 0 (partFdom p) → s.tdiLocked p = false → Does (.registerWrite 0 (partFdom p) v .plain) s [.regs] fun t =>
    t.domainOf p = v.toNat % 2 ^ 16 ∧ RegsBut [partFdom p] s t) ∧
  (∀ s v, Reached s 0 mbxCtrl → v.getLsbD 8 = true →
    (s.bit mbxStat 0 = false → Does (.registerWrite 0 mbxCtrl v .plain) s [.regs, .sec] fun t => t.bit mbxStat 0 = true ∧ t.bit mbxCtrl 8 = true ∧ t.sec.op = v.toNat % 256 ∧
      t.sec.req = s.regBytes mbxBuf (min (s.fld mbxReqLen 0 13) 4097) ∧ t.sec.mbx = none ∧ t.sec.accepted = none ∧ RegsBut [mbxCtrl, mbxStat] s t) ∧
    (s.bit mbxStat 0 = true → Does (.registerWrite 0 mbxCtrl v .plain) s [.regs] fun t => t.bit mbxStat 16 = true ∧ RegsBut [mbxCtrl, mbxStat] s t)) ∧
  (∀ s req off v, okReq req = true → s.arrives req = true → s.targets req off = true → s.takes req = true → s.serves0 req off = false →
    Does (.registerWrite req off v .plain) s [] (fun t => t = s) ∧ s.view req off = 0) ∧
  (∀ (s : State) req off, 64 < req → (0x100000 ≤ off ∧ off < 0x400000) ∨ (0x800000 ≤ off ∧ off < 0xC00000) ∨ (0x1400000 ≤ off ∧ off < 0x1800000) → s.serves0 req off = false) ∧
  (∀ s req off v k, okReq req = true → req ≤ 64 → s.arrives req = true → s.exposed req = false → k ∈ [Tlp.atomicOp, .badSize, .unaligned] →
    Does (.registerWrite req off v k) s [.out, .host] (fun t => t.host = { s.host with aer := s.host.aer + 1 } ∧ t.out = (if k = .atomicOp then [.unsupported req] else []) ++ s.out) ∧
    Does (.pairLoRead req off k) s [.out, .host] (fun t => t.host = { s.host with aer := s.host.aer + 1 } ∧ t.out = .unsupported req :: s.out)) ∧
  (∀ s req off v, okReq req = true → req ≤ 64 → s.arrives req = true → s.exposed req = false →
    Does (.registerWrite req off v .poisoned) s [.host] fun t => t.host = { s.host with aer := s.host.aer + 1 }) ∧
  (∀ s vf off v p, okVf vf = true → s.lamp lampPcie = true → s.exposed vf = true → s.partOf vf = some p →
    ∀ i, (∃ k, k ∈ [Tlp.atomicOp, .badSize, .unaligned, .poisoned] ∧ i = Instr.registerWrite vf off v k) ∨ (∃ k, k ∈ [Tlp.atomicOp, .badSize, .unaligned] ∧ i = .pairLoRead vf off k) ∨
        (s.vfExists vf = true ∧ off % 4 = 0 ∧ 2 ^ 41 ≤ off ∧ (i = .registerWrite vf off v .plain ∨ i = .pairLoRead vf off .plain)) →
      Does i s [.out, .parts, .host] fun t => (t.part p).tdi = 3 ∧ (∀ q, q ≠ p → t.part q = s.part q) ∧ t.host.aer = s.host.aer + 1) ∧
  (∀ s req off v, req ≤ 64 → s.lamp lampPcie = true → 2 ^ 40 + (if req = 0 then 0x10000 else 0x1000) ≤ off → off < 2 ^ 41 →
    Does (.registerWrite req off v .plain) s [.host] (fun t => t.host = { s.host with aer := s.host.aer + 1 }) ∧
    Does (.pairLoRead req off .plain) s [.out, .host] (fun t => t.out = .unsupported req :: s.out)) ∧
  (∀ s off v, s.lamp lampPcie = true → s.host.d3.contains 0 = true → s.targets 0 off = true →
    Does (.registerWrite 0 off v .plain) s [.host] (fun t => t.host = { s.host with aer := s.host.aer + 1 }) ∧
    Does (.pairLoRead 0 off .plain) s [.out, .host] (fun t => t.out = .unsupported 0 :: s.out)) ∧
  (∀ s vf off v, okVf vf = true → s.lamp lampPcie = true → s.targets vf off = true → s.host.d3.contains vf = false → s.exposed vf = false → s.vfRefuses vf = true →
    Does (.pairLoRead vf off .plain) s [.out, .regs] (fun t => t.out = .reg vf off 0xFFFFFFFF :: s.out ∧ RegsBut [vfKey vf vfAperr] s t ∧
      (t.reg (vfKey vf vfAperr)).toNat = min ((s.reg (vfKey vf vfAperr)).toNat + 1) 0xFFFFFFFF) ∧
    Does (.registerWrite vf off v .plain) s [.regs] (fun t => RegsBut [vfKey vf vfAperr] s t)) ∧
  (∀ s i, i < 64 → s.lamp lampPcie = true → s.host.d3.contains 0 = false → Does (.pairLoRead 0 (2 ^ 40 + 0x8000 + 4 * i) .plain) s [.out] fun t =>
    ∃ w : Word, t.out = .reg 0 (2 ^ 40 + 0x8000 + 4 * i) w :: s.out ∧ ∀ j, j < 32 → w.getLsbD j = s.host.pend.contains (32 * i + j)) ∧
  (∀ s vec v, vec < 2048 → s.lamp lampPcie = true → s.host.d3.contains 0 = false → v.getLsbD 0 = true → Does (.registerWrite 0 (2 ^ 40 + 16 * vec + 12) v .plain) s [.host] fun t =>
    t.host = { s.host with unmasked := t.host.unmasked } ∧ ∀ k, k ∈ t.host.unmasked ↔ k ∈ s.host.unmasked ∧ k ≠ vec) ∧
  (∀ s fn, fn ≤ 64 → s.lamp lampPcie = true → fn = 0 ∨ s.vfExists fn = true → s.exposed fn = false →
    Does (.registerWrite fn (2 ^ 41) 3 .plain) s [.host] (fun t => t.host.d3.contains fn = true ∧ ∀ k, k ≠ fn → t.host.d3.contains k = s.host.d3.contains k) ∧
    Does (.registerWrite fn (2 ^ 41) 0 .plain) s [.out, .host] (fun t => t.host.d3.contains fn = false ∧ ∀ k, k ≠ fn → t.host.d3.contains k = s.host.d3.contains k)) ∧
  (∀ s vf v, okVf vf = true → s.lamp lampPcie = true → s.vfExists vf = true → s.exposed vf = false → v.toNat ≤ 9 → Does (.registerWrite vf (2 ^ 41 + 4) v .plain) s [.host] fun t =>
    t.bar2Log vf = 30 + v.toNat ∧ ∀ k, k ≠ vf → t.bar2Log k = s.bar2Log k) ∧
  (∀ s off v, s.lamp lampPcie = true → off % 4 ≠ 0 → Does (.registerWrite 0 off v .plain) s [.host] (fun t => t.host.aer = s.host.aer + 1) ∧
    Does (.readClear 0 off) s [.out, .host] (fun t => t.host.aer = s.host.aer + 1 ∧ t.out = .unsupported 0 :: s.out)) ∧
  (∀ s req off v, Reached s req off → isPairLo (regKey req off) = true → s.boundReq req = false → Does (.pairLoWrite req off v) s [] fun t => t = s) ∧
  (∀ s vf lo v p, okVf vf = true → Reached s vf (vfApbase + 4) → s.vfPart vf = some p → tfind s.held (heldKey vf vfApbase) = some lo → s.bar2Log vf ≤ 42 →
    Does (.pairHiWrite vf (vfApbase + 4) v) s [.regs, .held] fun t => RegsBut [vfKey vf vfApbase, vfKey vf vfApbase + 4] s t ∧
      t.reg64 (vfKey vf vfApbase) % 2 ^ s.bar2Log vf = s.reg64 (vfKey vf vfApbase) % 2 ^ s.bar2Log vf ∧
      t.apBase vf = (lo.toNat + v.toNat * 2 ^ 32) % 2 ^ 42 / 2 ^ s.bar2Log vf * 2 ^ s.bar2Log vf) ∧
  (∀ s req off v, Reached s req off → isPairLo (regKey req off) = true → s.boundReq req = true → writablePair req off = true →
    Does (.pairLoWrite req off v) s [.held] fun t => tfind t.held (heldKey req off) = some v ∧ ∀ k, k ≠ heldKey req off → tfind t.held k = tfind s.held k) ∧
  (∀ s p lo v, okPart p = true → Reached s 0 (digSalt p + 4) → tfind s.held (heldKey 0 (digSalt p)) = some lo →
    Does (.pairHiWrite 0 (digSalt p + 4) v) s [.regs, .held] fun t => t.reg64 (digSalt p) = lo.toNat + v.toNat * 2 ^ 32 ∧ tfind t.held (heldKey 0 (digSalt p)) = none ∧
      RegsBut [digSalt p, digSalt p + 4] s t) ∧
  (∀ s p v, okPart p = true → Reached s 0 (digSalt p + 4) → tfind s.held (heldKey 0 (digSalt p)) = none →
    Does (.pairHiWrite 0 (digSalt p + 4) v) s [.regs] fun t => t.reg64 (digSalt p) = (s.reg (digSalt p)).toNat + v.toNat * 2 ^ 32) ∧
  (∀ s vf p q lo v x n, okVf vf = true → Reached s vf (4096 * q + 4) → s.vfPart vf = some p → q < (s.ent p).nqueue → q < 256 → s.partUp p = true →
    tfind s.held (heldKey vf (4096 * q)) = some lo → x = s.queue (qkey p q) → n = lo.toNat + v.toNat * 2 ^ 32 → qcEnable x.cfg = true → x.halted = false →
    x.resetting = false → x.tail < n → n ≤ x.done + x.size → n < 2 ^ 48 →
    Does (.pairHiWrite vf (4096 * q + 4) v) s [.held, .queues] fun t => OneQueue s t (qkey p q) { x with tail := n } ∧ tfind t.held (heldKey vf (4096 * q)) = none)

/-- The logbook and the registers (R10 to R16, R295, R397, R410, R448, R488, R515, R518, R519). -/
def Obligations.LogbookAndRegistersKeepTheirRules : Prop := LogbookFillsItsSlots ∧ RegistersKeepTheirCodes
end

