-- ==== Sys2Proof/Laws/Table.lean ====
section
/-! SUPPORT. Tables: an entry after it is set, removed or put, and the canonical form that every operation keeps. -/

namespace Sys2Proof.Machine

@[simp] theorem tfind_tset_self {α : Type} (t : Tbl α) (k : Nat) (v : α) : tfind (tset t k v) k = some v := by
  induction t with
  | nil => simp [tset, tfind]
  | cons e t ih =>
    obtain ⟨j, u⟩ := e
    unfold tset
    split
    · simp [tfind]
    · split
      · simp [tfind]
      · next h2 => simp only [tfind]; rw [if_neg (fun h => h2 h.symm), ih]

@[simp] theorem tfind_tset_ne {α : Type} (t : Tbl α) {k i : Nat} (v : α) (h : i ≠ k) : tfind (tset t k v) i = tfind t i := by
  induction t with
  | nil => simp [tset, tfind, h.symm]
  | cons e t ih =>
    obtain ⟨j, u⟩ := e
    unfold tset
    split
    · simp [tfind, h.symm]
    · split
      · next h2 => subst h2; simp [tfind, h.symm]
      · simp only [tfind, ih]

theorem tfind_tset {α : Type} (t : Tbl α) (k i : Nat) (v : α) : tfind (tset t k v) i = if i = k then some v else tfind t i := by
  split
  · next h => rw [h, tfind_tset_self]
  · next h => exact tfind_tset_ne t v h

/-- Keys below every key of a sorted table are not listed. -/
theorem tfind_none_of_lt {α : Type} {t : Tbl α} {j k : Nat} {u : α} (hs : tsorted ((j, u) :: t) = true) (h : k ≤ j) : tfind t k = none := by
  induction t generalizing j u with
  | nil => rfl
  | cons e t ih =>
    obtain ⟨i, v⟩ := e
    simp only [tsorted, Bool.and_eq_true, decide_eq_true_eq] at hs
    rw [tfind, if_neg (by omega)]
    exact ih hs.2 (by omega)

theorem tsorted_tail {α : Type} {e : Nat × α} {t : Tbl α} (h : tsorted (e :: t) = true) : tsorted t = true := by
  cases t with
  | nil => rfl
  | cons f t => obtain ⟨j, u⟩ := e; obtain ⟨k, v⟩ := f; simp only [tsorted, Bool.and_eq_true] at h; exact h.2

/-- Sortedness as the head lying below a key and the tail sorted. -/
theorem tsorted_cons {α : Type} {j : Nat} {u : α} {t : Tbl α} :
    tsorted ((j, u) :: t) = true ↔ (∀ e ∈ t, j < e.1) ∧ tsorted t = true := by
  induction t generalizing j u with
  | nil => simp [tsorted]
  | cons e t ih =>
    obtain ⟨k, v⟩ := e
    constructor
    · intro h
      simp only [tsorted, Bool.and_eq_true, decide_eq_true_eq] at h
      refine ⟨?_, h.2⟩
      intro x hx
      rcases List.mem_cons.1 hx with hx | hx
      · subst hx; exact h.1
      · exact lt_trans h.1 ((ih.1 h.2).1 x hx)
    · rintro ⟨h1, h2⟩
      simp only [tsorted, Bool.and_eq_true, decide_eq_true_eq]
      exact ⟨h1 (k, v) (List.mem_cons_self ..), h2⟩

theorem mem_tset {α : Type} {t : Tbl α} {k : Nat} {v : α} {e : Nat × α} (h : e ∈ tset t k v) : e = (k, v) ∨ e ∈ t := by
  induction t with
  | nil => simpa [tset] using h
  | cons f t ih =>
    obtain ⟨j, u⟩ := f
    unfold tset at h
    split at h
    · simpa using h
    · split at h
      · rcases List.mem_cons.1 h with h | h
        · exact .inl h
        · exact .inr (List.mem_cons_of_mem _ h)
      · rcases List.mem_cons.1 h with h | h
        · subst h; exact .inr (List.mem_cons_self ..)
        · exact (ih h).imp id (List.mem_cons_of_mem _)

theorem mem_tdel {α : Type} {t : Tbl α} {k : Nat} {e : Nat × α} (h : e ∈ tdel t k) : e ∈ t := by
  induction t with
  | nil => simp [tdel] at h
  | cons f t ih =>
    obtain ⟨j, u⟩ := f
    unfold tdel at h
    split at h
    · exact List.mem_cons_of_mem _ (ih h)
    · rcases List.mem_cons.1 h with h | h
      · subst h; exact List.mem_cons_self ..
      · exact List.mem_cons_of_mem _ (ih h)

theorem tset_sorted {α : Type} {t : Tbl α} (k : Nat) (v : α) (h : tsorted t = true) : tsorted (tset t k v) = true := by
  induction t with
  | nil => rfl
  | cons f t ih =>
    obtain ⟨j, u⟩ := f
    unfold tset
    have hc := tsorted_cons.1 h
    split
    · next h1 =>
      refine tsorted_cons.2 ⟨?_, h⟩
      intro e he
      rcases List.mem_cons.1 he with he | he
      · subst he; exact h1
      · exact lt_trans h1 (hc.1 e he)
    · split
      · next h2 => subst h2; exact tsorted_cons.2 hc
      · next h1 h2 =>
        refine tsorted_cons.2 ⟨?_, ih hc.2⟩
        intro e he
        rcases mem_tset he with he | he
        · subst he; exact lt_of_le_of_ne (not_lt.1 h1) (fun h => h2 h.symm)
        · exact hc.1 e he

theorem tdel_sorted {α : Type} {t : Tbl α} (k : Nat) (h : tsorted t = true) : tsorted (tdel t k) = true := by
  induction t with
  | nil => rfl
  | cons f t ih =>
    obtain ⟨j, u⟩ := f
    have hc := tsorted_cons.1 h
    unfold tdel
    split
    · exact ih hc.2
    · exact tsorted_cons.2 ⟨fun e he => hc.1 e (mem_tdel he), ih hc.2⟩

theorem tput_sorted {α : Type} [DecidableEq α] (d : α) {t : Tbl α} (k : Nat) (v : α) (h : tsorted t = true) :
    tsorted (tput d t k v) = true := by
  unfold tput
  split
  · exact tdel_sorted k h
  · exact tset_sorted k v h

theorem filter_sorted {α : Type} {t : Tbl α} (p : Nat × α → Bool) (h : tsorted t = true) : tsorted (t.filter p) = true := by
  induction t with
  | nil => rfl
  | cons f t ih =>
    obtain ⟨j, u⟩ := f
    have hc := tsorted_cons.1 h
    rw [List.filter_cons]
    split
    · exact tsorted_cons.2 ⟨fun e he => hc.1 e (List.mem_filter.1 he).1, ih hc.2⟩
    · exact ih hc.2

/-- New values under the same keys leave a table rising. -/
theorem map_sorted {α : Type} {t : Tbl α} (f : Nat × α → Nat × α) (hf : ∀ e, (f e).1 = e.1) (h : tsorted t = true) : tsorted (t.map f) = true := by
  induction t with
  | nil => rfl
  | cons e t ih =>
    obtain ⟨j, u⟩ := e
    have hc := tsorted_cons.1 h
    have hj : f (j, u) = (j, (f (j, u)).2) := Prod.ext (hf _) rfl
    rw [List.map_cons, hj]
    refine tsorted_cons.2 ⟨fun e he => ?_, ih hc.2⟩
    obtain ⟨x, hx, rfl⟩ := List.mem_map.1 he
    rw [hf]
    exact hc.1 x hx

@[simp] theorem tfind_tdel_self {α : Type} (t : Tbl α) (k : Nat) : tfind (tdel t k) k = none := by
  induction t with
  | nil => rfl
  | cons f t ih =>
    obtain ⟨j, u⟩ := f
    unfold tdel
    split
    · exact ih
    · next h1 => rw [tfind, if_neg h1]; exact ih

@[simp] theorem tfind_tdel_ne {α : Type} (t : Tbl α) {k i : Nat} (h : i ≠ k) : tfind (tdel t k) i = tfind t i := by
  induction t with
  | nil => rfl
  | cons f t ih =>
    obtain ⟨j, u⟩ := f
    unfold tdel
    split
    · next h1 => subst h1; rw [tfind, if_neg h.symm]; exact ih
    · simp only [tfind, ih]

/-- After a put, another key reads as before. -/
@[simp] theorem tget_tput_ne {α : Type} [DecidableEq α] (d : α) (t : Tbl α) {k i : Nat} (v : α) (h : i ≠ k) (d' : α) :
    tget d' (tput d t k v) i = tget d' t i := by
  unfold tget tput
  split
  · rw [tfind_tdel_ne t h]
  · rw [tfind_tset_ne t v h]

/-- After a put, the key reads the value put. -/
@[simp] theorem tget_tput_self {α : Type} [DecidableEq α] (d : α) (t : Tbl α) (k : Nat) (v : α) : tget d (tput d t k v) k = v := by
  unfold tget tput
  split
  · next h1 => rw [tfind_tdel_self, h1]; rfl
  · rw [tfind_tset_self]; rfl

theorem msetBytes_sorted (bs : List Byte) (m : List Host.Cell) (a : Nat) (h : memWf m = true) : memWf (msetBytes m a bs) = true := by
  induction bs generalizing m a with
  | nil => exact h
  | cons b bs ih => exact ih _ _ (tset_sorted a b h)

/-- A byte outside what is written reads as before. -/
theorem mget_msetBytes_out (bs : List Byte) (m : List Host.Cell) (a i : Nat) (h : i < a ∨ a + bs.length ≤ i) :
    mget? (msetBytes m a bs) i = mget? m i := by
  induction bs generalizing m a with
  | nil => rfl
  | cons b bs ih =>
    simp only [List.length_cons] at h
    rw [msetBytes, ih _ _ (by omega)]
    exact tfind_tset_ne m b (by omega)

/-- A byte of what is written reads what was written. -/
theorem mget_msetBytes_in (bs : List Byte) (m : List Host.Cell) (a i : Nat) (h : i < bs.length) :
    mget? (msetBytes m a bs) (a + i) = bs[i]? := by
  induction bs generalizing m a i with
  | nil => simp at h
  | cons b bs ih =>
    rw [msetBytes]
    cases i with
    | zero =>
      rw [mget_msetBytes_out bs _ _ _ (by omega)]
      exact tfind_tset_self m a b
    | succ i =>
      have := ih (mset m a b) (a + 1) i (by simpa using h)
      rw [show a + (i + 1) = a + 1 + i by omega, this]
      rfl

theorem argmin_mem {α : Type} {f : α → Nat} {l : List α} {x : α} (h : argmin f l = some x) : x ∈ l := by
  induction l generalizing x with
  | nil => simp [argmin] at h
  | cons y l ih =>
    unfold argmin at h
    split at h
    · cases h; exact List.mem_cons_self ..
    · next z e =>
      split at h
      · cases h; exact List.mem_cons_of_mem _ (ih e)
      · cases h; exact List.mem_cons_self ..

end Sys2Proof.Machine
end

