-- ==== Sys2Proof/Laws/Pins.lean ====
section
/-! SUPPORT. What the operations on the logbook's two copies do to pinned records. -/

namespace Sys2Proof.Machine

/-- A table filtered by its keys. -/
theorem tfind_filter {α : Type} (q : Nat → Bool) (t : Tbl α) (k : Nat) :
    tfind (t.filter fun e => q e.1) k = if q k then tfind t k else none := by
  induction t with
  | nil => simp [tfind]
  | cons e t ih =>
    obtain ⟨j, v⟩ := e
    rw [List.filter_cons]
    by_cases hq : q j = true
    · rw [if_pos hq]
      simp only [tfind]
      by_cases hk : j = k
      · subst hk; simp [hq]
      · rw [if_neg hk, if_neg hk, ih]
    · rw [if_neg hq, ih]
      by_cases hk : j = k
      · subst hk; simp [hq]
      · simp only [tfind, if_neg hk]

theorem tfind_of_mem {α : Type} {t : Tbl α} {e : Nat × α} (hs : tsorted t = true) (h : e ∈ t) : tfind t e.1 = some e.2 := by
  induction t with
  | nil => cases h
  | cons f t ih =>
    obtain ⟨j, v⟩ := f
    rcases List.mem_cons.1 h with h | h
    · subst h; simp [tfind]
    · have := (tsorted_cons.1 hs).1 e h
      rw [tfind, if_neg (by omega)]
      exact ih (tsorted_tail hs) h

/-- The pinned part of a table: what `pinnedCount` counts. -/
theorem filter_tset_out {α : Type} {t : Tbl α} {k : Nat} {v : α} {n : Nat} (h : n ≤ k) :
    (tset t k v).filter (fun e => decide (e.1 < n)) = t.filter fun e => decide (e.1 < n) := by
  have hk : ¬ k < n := by omega
  induction t with
  | nil => simp [tset, hk]
  | cons e t ih =>
    obtain ⟨j, u⟩ := e
    unfold tset
    split
    · simp [hk]
    · split
      · next h2 => subst h2; simp [hk]
      · rw [List.filter_cons, List.filter_cons, ih]

theorem filter_tset_in {α : Type} {t : Tbl α} {k : Nat} {v : α} {n : Nat} (hs : tsorted t = true) (h : k < n) (hn : tfind t k = none) :
    ((tset t k v).filter (fun e => decide (e.1 < n))).length = (t.filter fun e => decide (e.1 < n)).length + 1 := by
  induction t with
  | nil => simp [tset, h]
  | cons e t ih =>
    obtain ⟨j, u⟩ := e
    unfold tset
    split
    · rw [List.filter_cons, if_pos (by simpa using h), List.length_cons]
    · split
      · next h2 => subst h2; simp [tfind] at hn
      · next h2 =>
        rw [tfind, if_neg (fun x => h2 x.symm)] at hn
        have := ih (tsorted_tail hs) hn
        rw [List.filter_cons, List.filter_cons]
        split <;> simp [this]

/-- Writing what stands already. -/
theorem tset_same {α : Type} {t : Tbl α} {k : Nat} {v : α} (hs : tsorted t = true) (h : tfind t k = some v) : tset t k v = t := by
  induction t with
  | nil => simp [tfind] at h
  | cons e t ih =>
    obtain ⟨j, u⟩ := e
    rw [tfind] at h
    unfold tset
    split
    · next h1 =>
      split at h
      · omega
      · have hm : ∀ (l : Tbl α), tsorted ((j, u) :: l) = true → tfind l k ≠ some v := fun l hl hk => by
          have : ∀ (m : Tbl α), (∀ e ∈ m, j < e.1) → tfind m k = none := fun m hm => by
            induction m with
            | nil => rfl
            | cons f m ih =>
              have := hm f (List.mem_cons_self ..)
              rw [tfind, if_neg (by omega)]
              exact ih fun e he => hm e (List.mem_cons_of_mem _ he)
          rw [this l (tsorted_cons.1 hl).1] at hk
          cases hk
        exact absurd h (hm t hs)
    · split
      · next h2 => subst h2; rw [if_pos rfl] at h; cases h; rfl
      · next h2 =>
        rw [if_neg fun x => h2 x.symm] at h
        rw [ih (tsorted_tail hs) h]

theorem filter_tdel_out {α : Type} {t : Tbl α} {k n : Nat} (h : n ≤ k) :
    (tdel t k).filter (fun e => decide (e.1 < n)) = t.filter fun e => decide (e.1 < n) := by
  induction t with
  | nil => rfl
  | cons e t ih =>
    obtain ⟨j, u⟩ := e
    unfold tdel
    split
    · next h1 => subst h1; rw [ih, List.filter_cons, if_neg (by simpa using h)]
    · rw [List.filter_cons, List.filter_cons, ih]

theorem tdel_none {α : Type} {t : Tbl α} {k : Nat} (h : tfind t k = none) : tdel t k = t := by
  induction t with
  | nil => rfl
  | cons e t ih =>
    obtain ⟨j, u⟩ := e
    rw [tfind] at h
    split at h
    · cases h
    · next h1 => rw [tdel, if_neg h1, ih h]

/-- Merging two copies whose pinned records agree keeps those of the first. -/
theorem mergeLog_pins {bad : List Nat} {a b : Tbl LogRec} (ha : tsorted a = true) (hb : tsorted b = true)
    (hp : ∀ k r, k < 256 → tfind b k = some r → tfind a k = some r) :
    tsorted (mergeLog bad a b) = true ∧ (∀ k, k < 256 → tfind (mergeLog bad a b) k = tfind a k) ∧
      (mergeLog bad a b).filter (fun e => decide (e.1 < 256)) = a.filter fun e => decide (e.1 < 256) := by
  have key : ∀ (l : Tbl LogRec) (t : Tbl LogRec), (∀ e ∈ l, e ∈ b) →
      (tsorted t = true ∧ (∀ k, k < 256 → tfind t k = tfind a k) ∧ t.filter (fun e => decide (e.1 < 256)) = a.filter fun e => decide (e.1 < 256)) →
      (let x := l.foldl (fun t e => match tfind t e.1 with
        | some r => if bad.contains e.1 = true ∨ r.seq < e.2.seq then tset t e.1 e.2 else t
        | none => tset t e.1 e.2) t
      tsorted x = true ∧ (∀ k, k < 256 → tfind x k = tfind a k) ∧ x.filter (fun e => decide (e.1 < 256)) = a.filter fun e => decide (e.1 < 256)) := by
    intro l
    induction l with
    | nil => intro t _ h; exact h
    | cons e l ih =>
      intro t hl h
      have set : 256 ≤ e.1 → tsorted (tset t e.1 e.2) = true ∧ (∀ k, k < 256 → tfind (tset t e.1 e.2) k = tfind a k) ∧
          (tset t e.1 e.2).filter (fun e => decide (e.1 < 256)) = a.filter fun e => decide (e.1 < 256) := fun he =>
        ⟨tset_sorted _ _ h.1, fun k hk => by rw [tfind_tset_ne _ _ (by omega)]; exact h.2.1 k hk, by rw [filter_tset_out he]; exact h.2.2⟩
      refine ih _ (fun x hx => hl x (List.mem_cons_of_mem _ hx)) ?_
      by_cases he : e.1 < 256
      · have h1 : tfind t e.1 = some e.2 := by
          rw [h.2.1 _ he]; exact hp _ _ he (tfind_of_mem hb (hl e (List.mem_cons_self ..)))
        simp only [h1, tset_same h.1 h1, ite_self]
        exact h
      · have he : 256 ≤ e.1 := by omega
        cases hq : tfind t e.1 with
        | none => simp only [hq]; exact set he
        | some r =>
          simp only [hq]
          by_cases hr : bad.contains e.1 = true ∨ r.seq < e.2.seq
          · rw [if_pos hr]; exact set he
          · rw [if_neg hr]; exact h
  exact key b a (fun _ h => h) ⟨ha, fun _ _ => rfl, rfl⟩

theorem nextRing_ge (x : Tbl LogRec) : 256 ≤ nextRing x := by
  unfold nextRing
  split
  · next h =>
    have := List.mem_filter.1 (argmin_mem h)
    have h2 := of_decide_eq_true this.2
    split <;> omega
  · omega

theorem ringNext_ge {k : Nat} (h : 256 ≤ k) : 256 ≤ ringNext k := by
  unfold ringNext
  split <;> omega

end Sys2Proof.Machine
end

