-- ==== Sys2Proof/Laws/Change.lean ====
section
/-! SUPPORT. What an operation may change, in one relation: nothing but the listed parts, the canonical form kept, pinned records kept. -/

namespace Sys2Proof.Machine

/-- From `s` to `t` nothing but parts of the list changes, and the good forms are kept. -/
def Chg (L : List Fld) (s t : State) : Prop :=
  Touches L s t ∧ (s.Canon → t.Canon) ∧ (s.PinsOk → t.PinsOk ∧ PinsKept s t)

/-- A list of parts lies in another. -/
def subF (T L : List Fld) : Prop := ∀ f, f ∈ T → f ∈ L

theorem subF.trans {A B C : List Fld} (h : subF A B) (k : subF B C) : subF A C := fun f hf => k f (h f hf)

theorem subF.refl (A : List Fld) : subF A A := fun _ h => h

theorem subF_of {A B : List Fld} (h : A.all (fun f => B.contains f) = true) : subF A B := by
  intro f hf
  have := List.all_eq_true.1 h f hf
  simpa using this

theorem Fld.same_refl (f : Fld) (s : State) : f.same s s := by cases f <;> first | rfl | exact ⟨rfl, rfl⟩

theorem Fld.same_trans {f : Fld} {s t u : State} (h : f.same s t) (k : f.same t u) : f.same s u := by
  cases f <;> first | exact Eq.trans k h | exact ⟨k.1.trans h.1, k.2.trans h.2⟩

theorem Touches.refl (L : List Fld) (s : State) : Touches L s s := ⟨rfl, fun f _ => f.same_refl s⟩

theorem Touches.trans {L : List Fld} {s t u : State} (h : Touches L s t) (k : Touches L t u) : Touches L s u :=
  ⟨k.1.trans h.1, fun f hf => Fld.same_trans (h.2 f hf) (k.2 f hf)⟩

theorem Touches.mono {A B : List Fld} {s t : State} (h : Touches A s t) (k : subF A B) : Touches B s t :=
  ⟨h.1, fun f hf => h.2 f fun hA => hf (k f hA)⟩

theorem PinsKept.refl (s : State) : PinsKept s s := fun _ _ _ h => h

theorem PinsKept.trans {s t u : State} (h : PinsKept s t) (k : PinsKept t u) : PinsKept s u :=
  fun i r hi hr => k i r hi (h i r hi hr)

theorem Chg.refl (L : List Fld) (s : State) : Chg L s s := ⟨.refl L s, id, fun h => ⟨h, .refl s⟩⟩

theorem Chg.trans {L : List Fld} {s t u : State} (h : Chg L s t) (k : Chg L t u) : Chg L s u :=
  ⟨h.1.trans k.1, k.2.1 ∘ h.2.1, fun p => ⟨(k.2.2 (h.2.2 p).1).1, (h.2.2 p).2.trans (k.2.2 (h.2.2 p).1).2⟩⟩

theorem Chg.trans' {L : List Fld} {s t u : State} (k : Chg L t u) (h : Chg L s t) : Chg L s u := h.trans k

/-- The state of an answer that has been taken apart. -/
theorem Chg.snd {α : Type} {L : List Fld} {s u : State} {p : α × State} {x : α} (h : Chg L s p.2) (e : p = (x, u)) : Chg L s u := by
  rw [e] at h
  exact h

theorem Chg.mono {A B : List Fld} {s t : State} (h : Chg A s t) (k : subF A B) : Chg B s t := ⟨h.1.mono k, h.2⟩

/-- Apply what is known of one operation after others. -/
theorem Chg.step {A L : List Fld} {s t u : State} (k : Chg A t u) (hA : subF A L) (h : Chg L s t) : Chg L s u := h.trans (k.mono hA)

/-- A change that leaves registers, memory and records alone keeps the good forms. -/
theorem Chg.of_touches {L : List Fld} {s t : State} (h : Touches L s t) (hr : t.regs = s.regs) (hm : t.mem = s.mem)
    (hl : t.log.mram = s.log.mram) (hn : (t.log.nor, t.log.ring) = (s.log.nor, s.log.ring)) : Chg L s t := by
  refine ⟨h, fun c => ⟨hm ▸ c.1, hr ▸ c.2⟩, fun p => ⟨?_, fun k r _ hk => hl ▸ hk⟩⟩
  obtain ⟨p1, p2, p3, p4, p5⟩ := p
  obtain ⟨hn, hr⟩ := Prod.mk.inj hn
  have hp : t.pinnedCount = s.pinnedCount := by unfold State.pinnedCount; rw [hl]
  exact ⟨hl ▸ p1, hn ▸ p2, by rw [hl, hp]; exact p3, by rw [hl, hn]; exact p4, hr ▸ p5⟩

/-- A record update. -/
theorem Chg.lit {L : List Fld} {s t u : State} (hp : u.pending = t.pending) (hf : ∀ f, f ∉ L → f.same t u) (hr : u.regs = t.regs)
    (hm : u.mem = t.mem) (hl : u.log.mram = t.log.mram) (hn : (u.log.nor, u.log.ring) = (t.log.nor, t.log.ring)) (h : Chg L s t) : Chg L s u :=
  h.trans (.of_touches ⟨hp, hf⟩ hr hm hl hn)

/-- A change that keeps the canonical form and leaves the records alone. -/
theorem Chg.of_canon {L : List Fld} {s t : State} (h : Touches L s t) (hc : s.Canon → t.Canon)
    (hl : t.log.mram = s.log.mram) (hn : (t.log.nor, t.log.ring) = (s.log.nor, s.log.ring)) : Chg L s t := by
  refine ⟨h, hc, fun p => ⟨?_, fun k r _ hk => hl ▸ hk⟩⟩
  obtain ⟨p1, p2, p3, p4, p5⟩ := p
  obtain ⟨hn, hr⟩ := Prod.mk.inj hn
  have hp : t.pinnedCount = s.pinnedCount := by unfold State.pinnedCount; rw [hl]
  exact ⟨hl ▸ p1, hn ▸ p2, by rw [hl, hp]; exact p3, by rw [hl, hn]; exact p4, hr ▸ p5⟩

/-- A record update, recognised by its constructor. -/
theorem Chg.mk {L : List Fld} {s t : State} {x0 x1 x2 x3 x4 x5 x6 x7 x8 x9 x10 x11 x12 x13 x14 x15 x16 x17 x18 x19 x20 x21 x22 x23 x24 x25 x26} (hp : x0 = t.pending)
    (hf : ∀ f, f ∉ L → f.same t ⟨x0, x1, x2, x3, x4, x5, x6, x7, x8, x9, x10, x11, x12, x13, x14, x15, x16, x17, x18, x19, x20, x21, x22, x23, x24, x25, x26⟩) (hr : x4 = t.regs) (hm : x7 = t.mem)
    (hl : Logbook.mram x26 = t.log.mram) (hn : (Logbook.nor x26, Logbook.ring x26) = (t.log.nor, t.log.ring)) (h : Chg L s t) : Chg L s ⟨x0, x1, x2, x3, x4, x5, x6, x7, x8, x9, x10, x11, x12, x13, x14, x15, x16, x17, x18, x19, x20, x21, x22, x23, x24, x25, x26⟩ :=
  .lit hp hf hr hm hl hn h

theorem Chg.ite {L : List Fld} {s t u : State} {c : Prop} [Decidable c] (h : Chg L s t) (k : Chg L s u) : Chg L s (if c then t else u) := by
  split <;> assumption

/-- Folds keep whatever their step keeps. -/
theorem foldl_keeps {α β : Type} (P : β → Prop) (f : β → α → β) (l : List α) (b : β) (h : P b) (k : ∀ b a, P b → P (f b a)) :
    P (l.foldl f b) := by
  induction l generalizing b with
  | nil => exact h
  | cons x l ih => exact ih _ (k b x h)

theorem Chg.foldl {α : Type} {L : List Fld} {s t : State} {f : State → α → State} {l : List α} (h : Chg L s t)
    (k : ∀ u a, Chg L s u → Chg L s (f u a)) : Chg L s (l.foldl f t) :=
  foldl_keeps (fun u => Chg L s u) f l t h k

theorem Chg.foldl_snd {α β : Type} {L : List Fld} {s : State} {b : β × State} {f : β × State → α → β × State} {l : List α} (h : Chg L s b.2)
    (k : ∀ u a, Chg L s u.2 → Chg L s (f u a).2) : Chg L s (l.foldl f b).2 :=
  foldl_keeps (fun u => Chg L s u.2) f l b h k

/-- The state of an answer, or another. -/
theorem Chg.getD {L : List Fld} {s t : State} {o : Option State} (k : ∀ v, o = some v → Chg L s v) (h : Chg L s t) : Chg L s (o.getD t) := by
  cases o with
  | none => exact h
  | some v => exact k v rfl

theorem Chg.orElse_getD {L : List Fld} {s t : State} {o : Option State} {f : Unit → Option State} (k : ∀ v, o = some v → Chg L s v)
    (j : ∀ v, f () = some v → Chg L s v) (h : Chg L s t) : Chg L s ((o.orElse f).getD t) := by
  cases o with
  | none => exact .getD j h
  | some v => exact k v rfl

/-! The writers of registers and of memory. -/

theorem all_tput {p : Nat × Word → Bool} {d : Word} {t : Tbl Word} {k : Nat} {v : Word} (h : t.all p = true) (hk : v ≠ d → p (k, v) = true) :
    (tput d t k v).all p = true := by
  rw [List.all_eq_true] at h ⊢
  intro e he
  unfold tput at he
  split at he
  · exact h e (mem_tdel he)
  · next hv =>
    rcases mem_tset he with he | he
    · subst he; exact hk hv
    · exact h e he

theorem regsWf_tput {r : Tbl Word} {k : Nat} {v : Word} (h : regsWf r = true) : regsWf (tput (regReset k) r k v) = true := by
  simp only [regsWf, Bool.and_eq_true] at h ⊢
  exact ⟨tput_sorted _ k v h.1, all_tput h.2 fun hv => by simpa using hv⟩

theorem regsWf_filter {r : Tbl Word} {p : Nat × Word → Bool} (h : regsWf r = true) : regsWf (r.filter p) = true := by
  simp only [regsWf, Bool.and_eq_true] at h ⊢
  refine ⟨filter_sorted p h.1, ?_⟩
  rw [List.all_eq_true] at h ⊢
  exact fun e he => h.2 e (List.mem_filter.1 he).1

theorem Touches.regs {s : State} (x : Tbl Word) : Touches [.regs] s { s with regs := x } := by
  refine ⟨rfl, fun f hf => ?_⟩
  cases f <;> first | rfl | exact ⟨rfl, rfl⟩ | exact absurd (by decide) hf

theorem Chg.regs {s : State} {x : Tbl Word} (h : regsWf s.regs = true → regsWf x = true) : Chg [.regs] s { s with regs := x } :=
  ⟨.regs x, fun c => ⟨c.1, h c.2⟩, fun p => ⟨p, fun _ _ _ hk => hk⟩⟩

theorem chg_setReg (s : State) (k : Nat) (v : Word) : Chg [.regs] s (s.setReg k v) := .regs regsWf_tput

theorem chg_resetRegs (s : State) (p : Nat → Bool) : Chg [.regs] s (s.resetRegs p) := .regs regsWf_filter

end Sys2Proof.Machine
end

