-- ==== Sys2Proof/Laws/ChgRegs.lean ====
section
/-! SUPPORT. What each operation of Machine/Regs.lean may change. -/

namespace Sys2Proof.Machine

theorem chg_setReg64 (s : State) (a b) : Chg [.regs] s (State.setReg64 s a b) := by
  unfold State.setReg64
  repeat' first
    | ((with_reducible apply subF_of); rfl)
    | (with_reducible apply Chg.refl)
    | (with_reducible assumption)
    | (with_reducible apply Chg.step (chg_setReg _ _ _))

theorem chg_setFld (s : State) (a b c d) : Chg [.regs] s (State.setFld s a b c d) := by
  unfold State.setFld
  repeat' first
    | ((with_reducible apply subF_of); rfl)
    | (with_reducible apply Chg.refl)
    | (with_reducible assumption)
    | (with_reducible apply Chg.step (chg_setReg _ _ _))

theorem chg_setBit (s : State) (a b c) : Chg [.regs] s (State.setBit s a b c) := by
  unfold State.setBit
  repeat' first
    | ((with_reducible apply subF_of); rfl)
    | (with_reducible apply Chg.refl)
    | (with_reducible assumption)
    | (with_reducible apply Chg.step (chg_setFld _ _ _ _ _))

theorem chg_countReg (s : State) (a b) : Chg [.regs] s (State.countReg s a b) := by
  unfold State.countReg
  repeat' first
    | ((with_reducible apply subF_of); rfl)
    | (with_reducible apply Chg.refl)
    | (with_reducible assumption)
    | (with_reducible apply Chg.step (chg_setReg _ _ _))

end Sys2Proof.Machine
end

