-- ==== Sys2Proof/Laws/ChgOps.lean ====
section
/-! SUPPORT. What each operation of Machine/Ops.lean may change. -/

namespace Sys2Proof.Machine

theorem chg_setCore (s : State) (a b) : Chg [.cores] s (State.setCore s a b) := by
  unfold State.setCore
  repeat' first
    | ((with_reducible apply subF_of); rfl)
    | (with_reducible apply Chg.refl)
    | (with_reducible assumption)
    | (with_reducible apply Chg.foldl)
    | (with_reducible apply Chg.orElse_getD)
    | (with_reducible apply Chg.getD)
    | (with_reducible apply Chg.foldl_snd)
    | intro _
    | split
    | dsimp only
    | ((with_reducible refine Chg.mk rfl ?_ rfl rfl rfl rfl ?_); · (intro x hx; cases x <;> first | rfl | exact ⟨rfl, rfl⟩ | exact absurd (by decide) hx))

theorem chg_modCore (s : State) (a b) : Chg [.cores] s (State.modCore s a b) := by
  unfold State.modCore
  repeat' first
    | ((with_reducible apply subF_of); rfl)
    | (with_reducible apply Chg.refl)
    | (with_reducible assumption)
    | (with_reducible apply Chg.step (chg_setCore _ _ _))

theorem chg_setPart (s : State) (a b) : Chg [.parts] s (State.setPart s a b) := by
  unfold State.setPart
  repeat' first
    | ((with_reducible apply subF_of); rfl)
    | (with_reducible apply Chg.refl)
    | (with_reducible assumption)
    | (with_reducible apply Chg.foldl)
    | (with_reducible apply Chg.orElse_getD)
    | (with_reducible apply Chg.getD)
    | (with_reducible apply Chg.foldl_snd)
    | intro _
    | split
    | dsimp only
    | ((with_reducible refine Chg.mk rfl ?_ rfl rfl rfl rfl ?_); · (intro x hx; cases x <;> first | rfl | exact ⟨rfl, rfl⟩ | exact absurd (by decide) hx))

theorem chg_modPart (s : State) (a b) : Chg [.parts] s (State.modPart s a b) := by
  unfold State.modPart
  repeat' first
    | ((with_reducible apply subF_of); rfl)
    | (with_reducible apply Chg.refl)
    | (with_reducible assumption)
    | (with_reducible apply Chg.step (chg_setPart _ _ _))

theorem chg_setDie (s : State) (a b) : Chg [.dies] s (State.setDie s a b) := by
  unfold State.setDie
  repeat' first
    | ((with_reducible apply subF_of); rfl)
    | (with_reducible apply Chg.refl)
    | (with_reducible assumption)
    | (with_reducible apply Chg.foldl)
    | (with_reducible apply Chg.orElse_getD)
    | (with_reducible apply Chg.getD)
    | (with_reducible apply Chg.foldl_snd)
    | intro _
    | split
    | dsimp only
    | ((with_reducible refine Chg.mk rfl ?_ rfl rfl rfl rfl ?_); · (intro x hx; cases x <;> first | rfl | exact ⟨rfl, rfl⟩ | exact absurd (by decide) hx))

theorem chg_modDie (s : State) (a b) : Chg [.dies] s (State.modDie s a b) := by
  unfold State.modDie
  repeat' first
    | ((with_reducible apply subF_of); rfl)
    | (with_reducible apply Chg.refl)
    | (with_reducible assumption)
    | (with_reducible apply Chg.step (chg_setDie _ _ _))

theorem chg_setChan (s : State) (a b) : Chg [.chans] s (State.setChan s a b) := by
  unfold State.setChan
  repeat' first
    | ((with_reducible apply subF_of); rfl)
    | (with_reducible apply Chg.refl)
    | (with_reducible assumption)
    | (with_reducible apply Chg.foldl)
    | (with_reducible apply Chg.orElse_getD)
    | (with_reducible apply Chg.getD)
    | (with_reducible apply Chg.foldl_snd)
    | intro _
    | split
    | dsimp only
    | ((with_reducible refine Chg.mk rfl ?_ rfl rfl rfl rfl ?_); · (intro x hx; cases x <;> first | rfl | exact ⟨rfl, rfl⟩ | exact absurd (by decide) hx))

theorem chg_modChan (s : State) (a b) : Chg [.chans] s (State.modChan s a b) := by
  unfold State.modChan
  repeat' first
    | ((with_reducible apply subF_of); rfl)
    | (with_reducible apply Chg.refl)
    | (with_reducible assumption)
    | (with_reducible apply Chg.step (chg_setChan _ _ _))

theorem chg_setCopyEng (s : State) (a b) : Chg [.copies] s (State.setCopyEng s a b) := by
  unfold State.setCopyEng
  repeat' first
    | ((with_reducible apply subF_of); rfl)
    | (with_reducible apply Chg.refl)
    | (with_reducible assumption)
    | (with_reducible apply Chg.foldl)
    | (with_reducible apply Chg.orElse_getD)
    | (with_reducible apply Chg.getD)
    | (with_reducible apply Chg.foldl_snd)
    | intro _
    | split
    | dsimp only
    | ((with_reducible refine Chg.mk rfl ?_ rfl rfl rfl rfl ?_); · (intro x hx; cases x <;> first | rfl | exact ⟨rfl, rfl⟩ | exact absurd (by decide) hx))

theorem chg_setLink (s : State) (a b) : Chg [.links] s (State.setLink s a b) := by
  unfold State.setLink
  repeat' first
    | ((with_reducible apply subF_of); rfl)
    | (with_reducible apply Chg.refl)
    | (with_reducible assumption)
    | (with_reducible apply Chg.foldl)
    | (with_reducible apply Chg.orElse_getD)
    | (with_reducible apply Chg.getD)
    | (with_reducible apply Chg.foldl_snd)
    | intro _
    | split
    | dsimp only
    | ((with_reducible refine Chg.mk rfl ?_ rfl rfl rfl rfl ?_); · (intro x hx; cases x <;> first | rfl | exact ⟨rfl, rfl⟩ | exact absurd (by decide) hx))

theorem chg_modLink (s : State) (a b) : Chg [.links] s (State.modLink s a b) := by
  unfold State.modLink
  repeat' first
    | ((with_reducible apply subF_of); rfl)
    | (with_reducible apply Chg.refl)
    | (with_reducible assumption)
    | (with_reducible apply Chg.step (chg_setLink _ _ _))

theorem chg_setQueue (s : State) (a b) : Chg [.queues] s (State.setQueue s a b) := by
  unfold State.setQueue
  repeat' first
    | ((with_reducible apply subF_of); rfl)
    | (with_reducible apply Chg.refl)
    | (with_reducible assumption)
    | (with_reducible apply Chg.foldl)
    | (with_reducible apply Chg.orElse_getD)
    | (with_reducible apply Chg.getD)
    | (with_reducible apply Chg.foldl_snd)
    | intro _
    | split
    | dsimp only
    | ((with_reducible refine Chg.mk rfl ?_ rfl rfl rfl rfl ?_); · (intro x hx; cases x <;> first | rfl | exact ⟨rfl, rfl⟩ | exact absurd (by decide) hx))

theorem chg_modQueue (s : State) (a b) : Chg [.queues] s (State.modQueue s a b) := by
  unfold State.modQueue
  repeat' first
    | ((with_reducible apply subF_of); rfl)
    | (with_reducible apply Chg.refl)
    | (with_reducible assumption)
    | (with_reducible apply Chg.step (chg_setQueue _ _ _))

theorem chg_setLaunch (s : State) (a b) : Chg [.launches] s (State.setLaunch s a b) := by
  unfold State.setLaunch
  repeat' first
    | ((with_reducible apply subF_of); rfl)
    | (with_reducible apply Chg.refl)
    | (with_reducible assumption)
    | (with_reducible apply Chg.foldl)
    | (with_reducible apply Chg.orElse_getD)
    | (with_reducible apply Chg.getD)
    | (with_reducible apply Chg.foldl_snd)
    | intro _
    | split
    | dsimp only
    | ((with_reducible refine Chg.mk rfl ?_ rfl rfl rfl rfl ?_); · (intro x hx; cases x <;> first | rfl | exact ⟨rfl, rfl⟩ | exact absurd (by decide) hx))

theorem chg_modLaunch (s : State) (a b) : Chg [.launches] s (State.modLaunch s a b) := by
  unfold State.modLaunch
  repeat' first
    | ((with_reducible apply subF_of); rfl)
    | (with_reducible apply Chg.refl)
    | (with_reducible assumption)
    | (with_reducible apply Chg.step (chg_setLaunch _ _ _))
    | (with_reducible apply Chg.foldl)
    | (with_reducible apply Chg.orElse_getD)
    | (with_reducible apply Chg.getD)
    | (with_reducible apply Chg.foldl_snd)
    | intro _
    | split

theorem chg_delLaunch (s : State) (a) : Chg [.launches] s (State.delLaunch s a) := by
  unfold State.delLaunch
  repeat' first
    | ((with_reducible apply subF_of); rfl)
    | (with_reducible apply Chg.refl)
    | (with_reducible assumption)
    | (with_reducible apply Chg.foldl)
    | (with_reducible apply Chg.orElse_getD)
    | (with_reducible apply Chg.getD)
    | (with_reducible apply Chg.foldl_snd)
    | intro _
    | split
    | dsimp only
    | ((with_reducible refine Chg.mk rfl ?_ rfl rfl rfl rfl ?_); · (intro x hx; cases x <;> first | rfl | exact ⟨rfl, rfl⟩ | exact absurd (by decide) hx))

theorem chg_setGroup (s : State) (a b) : Chg [.cores] s (State.setGroup s a b) := by
  unfold State.setGroup
  repeat' first
    | ((with_reducible apply subF_of); rfl)
    | (with_reducible apply Chg.refl)
    | (with_reducible assumption)
    | (with_reducible apply Chg.step (chg_modCore _ _ _))

theorem chg_modGroup (s : State) (a b) : Chg [.cores] s (State.modGroup s a b) := by
  unfold State.modGroup
  repeat' first
    | ((with_reducible apply subF_of); rfl)
    | (with_reducible apply Chg.refl)
    | (with_reducible assumption)
    | (with_reducible apply Chg.step (chg_setGroup _ _ _))
    | (with_reducible apply Chg.foldl)
    | (with_reducible apply Chg.orElse_getD)
    | (with_reducible apply Chg.getD)
    | (with_reducible apply Chg.foldl_snd)
    | intro _
    | split

theorem chg_freeBit (s : State) : Chg [.free] s (State.freeBit s).2 := by
  unfold State.freeBit
  repeat' first
    | ((with_reducible apply subF_of); rfl)
    | (with_reducible apply Chg.refl)
    | (with_reducible assumption)
    | (with_reducible apply Chg.foldl)
    | (with_reducible apply Chg.orElse_getD)
    | (with_reducible apply Chg.getD)
    | (with_reducible apply Chg.foldl_snd)
    | intro _
    | split
    | dsimp only
    | ((with_reducible refine Chg.mk rfl ?_ rfl rfl rfl rfl ?_); · (intro x hx; cases x <;> first | rfl | exact ⟨rfl, rfl⟩ | exact absurd (by decide) hx))

theorem chg_freeNat (s : State) : Chg [.free] s (State.freeNat s).2 := by
  unfold State.freeNat
  repeat' first
    | ((with_reducible apply subF_of); rfl)
    | (with_reducible apply Chg.refl)
    | (with_reducible assumption)
    | (with_reducible apply Chg.foldl)
    | (with_reducible apply Chg.orElse_getD)
    | (with_reducible apply Chg.getD)
    | (with_reducible apply Chg.foldl_snd)
    | intro _
    | split
    | dsimp only
    | ((with_reducible refine Chg.mk rfl ?_ rfl rfl rfl rfl ?_); · (intro x hx; cases x <;> first | rfl | exact ⟨rfl, rfl⟩ | exact absurd (by decide) hx))

theorem chg_emit (s : State) (a) : Chg [.out] s (State.emit s a) := by
  unfold State.emit
  repeat' first
    | ((with_reducible apply subF_of); rfl)
    | (with_reducible apply Chg.refl)
    | (with_reducible assumption)
    | (with_reducible apply Chg.foldl)
    | (with_reducible apply Chg.orElse_getD)
    | (with_reducible apply Chg.getD)
    | (with_reducible apply Chg.foldl_snd)
    | intro _
    | split
    | dsimp only
    | ((with_reducible refine Chg.mk rfl ?_ rfl rfl rfl rfl ?_); · (intro x hx; cases x <;> first | rfl | exact ⟨rfl, rfl⟩ | exact absurd (by decide) hx))

theorem chg_irq (s : State) (a b) : Chg [.out, .host] s (State.irq s a b) := by
  unfold State.irq
  repeat' first
    | ((with_reducible apply subF_of); rfl)
    | (with_reducible apply Chg.refl)
    | (with_reducible assumption)
    | (with_reducible apply Chg.step (chg_emit _ _))
    | (with_reducible apply Chg.foldl)
    | (with_reducible apply Chg.orElse_getD)
    | (with_reducible apply Chg.getD)
    | (with_reducible apply Chg.foldl_snd)
    | intro _
    | split
    | dsimp only
    | ((with_reducible refine Chg.mk rfl ?_ rfl rfl rfl rfl ?_); · (intro x hx; cases x <;> first | rfl | exact ⟨rfl, rfl⟩ | exact absurd (by decide) hx))

theorem chg_partIrq (s : State) (a) : Chg [.out, .host] s (State.partIrq s a) := by
  unfold State.partIrq
  repeat' first
    | ((with_reducible apply subF_of); rfl)
    | (with_reducible apply Chg.refl)
    | (with_reducible assumption)
    | (with_reducible apply Chg.step (chg_irq _ _ _))
    | (with_reducible apply Chg.foldl)
    | (with_reducible apply Chg.orElse_getD)
    | (with_reducible apply Chg.getD)
    | (with_reducible apply Chg.foldl_snd)
    | intro _
    | split

theorem chg_setTdi (s : State) (a b) : Chg [.out, .parts, .host] s (State.setTdi s a b) := by
  unfold State.setTdi
  repeat' first
    | ((with_reducible apply subF_of); rfl)
    | (with_reducible apply Chg.refl)
    | (with_reducible assumption)
    | (with_reducible apply Chg.step (chg_modPart _ _ _))
    | (with_reducible apply Chg.step (chg_partIrq _ _))
    | (with_reducible apply Chg.foldl)
    | (with_reducible apply Chg.orElse_getD)
    | (with_reducible apply Chg.getD)
    | (with_reducible apply Chg.foldl_snd)
    | intro _
    | split

theorem chg_tdiError (s : State) (a) : Chg [.out, .parts, .host] s (State.tdiError s a) := by
  unfold State.tdiError
  repeat' first
    | ((with_reducible apply subF_of); rfl)
    | (with_reducible apply Chg.refl)
    | (with_reducible assumption)
    | (with_reducible apply Chg.step (chg_setTdi _ _ _))
    | (with_reducible apply Chg.foldl)
    | (with_reducible apply Chg.orElse_getD)
    | (with_reducible apply Chg.getD)
    | (with_reducible apply Chg.foldl_snd)
    | intro _
    | split

theorem chg_setLamp (s : State) (a b) : Chg [.out, .regs, .host] s (State.setLamp s a b) := by
  unfold State.setLamp
  repeat' first
    | ((with_reducible apply subF_of); rfl)
    | (with_reducible apply Chg.refl)
    | (with_reducible assumption)
    | (with_reducible apply Chg.step (chg_irq _ _ _))
    | (with_reducible apply Chg.step (chg_setBit _ _ _ _))
    | (with_reducible apply Chg.foldl)
    | (with_reducible apply Chg.orElse_getD)
    | (with_reducible apply Chg.getD)
    | (with_reducible apply Chg.foldl_snd)
    | intro _
    | split

theorem chg_logRaise (s : State) (a b c d e) : Chg [.regs, .log] s (State.logRaise s a b c d e) := by
  unfold State.logRaise
  repeat' first
    | ((with_reducible apply subF_of); rfl)
    | (with_reducible apply Chg.refl)
    | (with_reducible assumption)
    | (with_reducible apply Chg.step (chg_countReg _ _ _))
    | (with_reducible apply Chg.foldl)
    | (with_reducible apply Chg.orElse_getD)
    | (with_reducible apply Chg.getD)
    | (with_reducible apply Chg.foldl_snd)
    | intro _
    | split
    | dsimp only
    | ((with_reducible refine Chg.mk rfl ?_ rfl rfl rfl rfl ?_); · (intro x hx; cases x <;> first | rfl | exact ⟨rfl, rfl⟩ | exact absurd (by decide) hx))

theorem chg_partLampUpdate (s : State) (a) : Chg [.out, .regs, .parts, .host] s (State.partLampUpdate s a) := by
  unfold State.partLampUpdate
  repeat' first
    | ((with_reducible apply subF_of); rfl)
    | (with_reducible apply Chg.refl)
    | (with_reducible assumption)
    | (with_reducible apply Chg.step (chg_modPart _ _ _))
    | (with_reducible apply Chg.step (chg_partIrq _ _))
    | (with_reducible apply Chg.step (chg_setBit _ _ _ _))
    | (with_reducible apply Chg.step (chg_setReg _ _ _))
    | (with_reducible apply Chg.foldl)
    | (with_reducible apply Chg.orElse_getD)
    | (with_reducible apply Chg.getD)
    | (with_reducible apply Chg.foldl_snd)
    | intro _
    | split
    | dsimp only
    | ((with_reducible refine Chg.mk rfl ?_ rfl rfl rfl rfl ?_); · (intro x hx; cases x <;> first | rfl | exact ⟨rfl, rfl⟩ | exact absurd (by decide) hx))

theorem chg_relight (s : State) : Chg [.out, .regs, .parts, .host] s (State.relight s) := by
  unfold State.relight
  repeat' first
    | ((with_reducible apply subF_of); rfl)
    | (with_reducible apply Chg.refl)
    | (with_reducible assumption)
    | (with_reducible apply Chg.step (chg_partLampUpdate _ _))
    | (with_reducible apply Chg.foldl)
    | (with_reducible apply Chg.orElse_getD)
    | (with_reducible apply Chg.getD)
    | (with_reducible apply Chg.foldl_snd)
    | intro _

theorem chg_breakGlobal (s : State) (a b) : Chg [.cores] s (State.breakGlobal s a b) := by
  unfold State.breakGlobal
  repeat' first
    | ((with_reducible apply subF_of); rfl)
    | (with_reducible apply Chg.refl)
    | (with_reducible assumption)
    | (with_reducible apply Chg.foldl)
    | (with_reducible apply Chg.orElse_getD)
    | (with_reducible apply Chg.getD)
    | (with_reducible apply Chg.foldl_snd)
    | intro _
    | split
    | dsimp only
    | ((with_reducible refine Chg.mk rfl ?_ rfl rfl rfl rfl ?_); · (intro x hx; cases x <;> first | rfl | exact ⟨rfl, rfl⟩ | exact absurd (by decide) hx))

theorem chg_touchWaits (s : State) (a b) : Chg [.launches] s (State.touchWaits s a b) := by
  unfold State.touchWaits
  repeat' first
    | ((with_reducible apply subF_of); rfl)
    | (with_reducible apply Chg.refl)
    | (with_reducible assumption)
    | (with_reducible apply Chg.foldl)
    | (with_reducible apply Chg.orElse_getD)
    | (with_reducible apply Chg.getD)
    | (with_reducible apply Chg.foldl_snd)
    | intro _
    | split
    | dsimp only
    | ((with_reducible refine Chg.mk rfl ?_ rfl rfl rfl rfl ?_); · (intro x hx; cases x <;> first | rfl | exact ⟨rfl, rfl⟩ | exact absurd (by decide) hx))

/-- The bytes that a write leaves in canonical form. -/
theorem chg_writeMem (s : State) (a b) : Chg [.mem, .poison, .cores, .launches] s (State.writeMem s a b) := by
  unfold State.writeMem
  split
  · exact Chg.refl _ _
  · refine Chg.step (chg_touchWaits _ _ _) (subF_of rfl) (Chg.step (chg_breakGlobal _ _ _) (subF_of rfl) ?_)
    refine ⟨⟨rfl, fun x hx => ?_⟩, fun c => ⟨msetBytes_sorted _ _ _ c.1, c.2⟩, fun p => ⟨p, fun _ _ _ h => h⟩⟩
    cases x <;> first | rfl | exact ⟨rfl, rfl⟩ | exact absurd (by decide) hx

theorem chg_poisonLine (s : State) (a) : Chg [.poison, .cores] s (State.poisonLine s a) := by
  unfold State.poisonLine
  repeat' first
    | ((with_reducible apply subF_of); rfl)
    | (with_reducible apply Chg.refl)
    | (with_reducible assumption)
    | (with_reducible apply Chg.step (chg_breakGlobal _ _ _))
    | (with_reducible apply Chg.foldl)
    | (with_reducible apply Chg.orElse_getD)
    | (with_reducible apply Chg.getD)
    | (with_reducible apply Chg.foldl_snd)
    | intro _
    | split
    | dsimp only
    | ((with_reducible refine Chg.mk rfl ?_ rfl rfl rfl rfl ?_); · (intro x hx; cases x <;> first | rfl | exact ⟨rfl, rfl⟩ | exact absurd (by decide) hx))

theorem chg_hbmAsk (s : State) (a b c) : Chg [.chans] s (State.hbmAsk s a b c) := by
  unfold State.hbmAsk
  repeat' first
    | ((with_reducible apply subF_of); rfl)
    | (with_reducible apply Chg.refl)
    | (with_reducible assumption)
    | (with_reducible apply Chg.step (chg_modChan _ _ _))
    | (with_reducible apply Chg.foldl)
    | (with_reducible apply Chg.orElse_getD)
    | (with_reducible apply Chg.getD)
    | (with_reducible apply Chg.foldl_snd)
    | intro _
    | split
    | dsimp only
    | ((with_reducible refine Chg.mk rfl ?_ rfl rfl rfl rfl ?_); · (intro x hx; cases x <;> first | rfl | exact ⟨rfl, rfl⟩ | exact absurd (by decide) hx))

theorem chg_l2Fill (s : State) (a b c d) : Chg [.dies, .chans] s (State.l2Fill s a b c d) := by
  unfold State.l2Fill
  repeat' first
    | ((with_reducible apply subF_of); rfl)
    | (with_reducible apply Chg.refl)
    | (with_reducible assumption)
    | (with_reducible apply Chg.step (chg_hbmAsk _ _ _ _))
    | (with_reducible apply Chg.step (chg_modDie _ _ _))
    | (with_reducible apply Chg.foldl)
    | (with_reducible apply Chg.orElse_getD)
    | (with_reducible apply Chg.getD)
    | (with_reducible apply Chg.foldl_snd)
    | intro _
    | split
    | dsimp only
    | ((with_reducible refine Chg.mk rfl ?_ rfl rfl rfl rfl ?_); · (intro x hx; cases x <;> first | rfl | exact ⟨rfl, rfl⟩ | exact absurd (by decide) hx))

theorem chg_l2Way (s : State) (a b c) : Chg [.free] s (State.l2Way s a b c).2 := by
  unfold State.l2Way
  repeat' first
    | ((with_reducible apply subF_of); rfl)
    | (with_reducible apply Chg.refl)
    | (with_reducible assumption)
    | (with_reducible apply Chg.step (chg_freeNat _))
    | (with_reducible (apply Chg.step (Chg.snd (chg_freeNat _) ?e)); case e => assumption)
    | (with_reducible apply Chg.foldl)
    | (with_reducible apply Chg.orElse_getD)
    | (with_reducible apply Chg.getD)
    | (with_reducible apply Chg.foldl_snd)
    | intro _
    | split
    | dsimp only
    | ((with_reducible refine Chg.mk rfl ?_ rfl rfl rfl rfl ?_); · (intro x hx; cases x <;> first | rfl | exact ⟨rfl, rfl⟩ | exact absurd (by decide) hx))

theorem chg_hbmWrite (s : State) (a b) : Chg [.chans] s (State.hbmWrite s a b) := by
  unfold State.hbmWrite
  repeat' first
    | ((with_reducible apply subF_of); rfl)
    | (with_reducible apply Chg.refl)
    | (with_reducible assumption)
    | (with_reducible apply Chg.step (chg_modChan _ _ _))
    | (with_reducible apply Chg.foldl)
    | (with_reducible apply Chg.orElse_getD)
    | (with_reducible apply Chg.getD)
    | (with_reducible apply Chg.foldl_snd)
    | intro _
    | split
    | dsimp only
    | ((with_reducible refine Chg.mk rfl ?_ rfl rfl rfl rfl ?_); · (intro x hx; cases x <;> first | rfl | exact ⟨rfl, rfl⟩ | exact absurd (by decide) hx))

theorem chg_l2Access (s : State) (a b c d e f) : Chg [.free, .dies, .chans] s (State.l2Access s a b c d e f) := by
  unfold State.l2Access
  extract_lets q
  split
  · exact Chg.step (chg_modDie _ _ _) (subF_of rfl) (Chg.refl _ _)
  · rename_i t _ _
    have ht : Chg [.free, .dies, .chans] s t :=
      Chg.ite (Chg.refl _ _) (Chg.step (chg_hbmAsk _ _ _ _) (subF_of rfl) (Chg.refl _ _))
    clear_value t
    split
    · next h => exact Chg.step (chg_l2Fill _ _ _ _ _) (subF_of rfl) (Chg.step (Chg.snd (chg_l2Way _ _ _ _) h) (subF_of rfl) ht)
    · next h =>
      have hu := Chg.step (Chg.snd (chg_l2Way _ _ _ _) h) (subF_of rfl) ht
      exact Chg.ite (Chg.step (chg_hbmWrite _ _ _) (subF_of rfl) hu) hu

theorem chg_l2Touch (s : State) (a b c d e f) : Chg [.free, .dies, .chans] s (State.l2Touch s a b c d e f) := by
  unfold State.l2Touch
  repeat' first
    | ((with_reducible apply subF_of); rfl)
    | (with_reducible apply Chg.refl)
    | (with_reducible assumption)
    | (with_reducible apply Chg.step (chg_l2Access _ _ _ _ _ _ _))
    | (with_reducible apply Chg.foldl)
    | (with_reducible apply Chg.orElse_getD)
    | (with_reducible apply Chg.getD)
    | (with_reducible apply Chg.foldl_snd)
    | intro _
    | split
    | dsimp only
    | ((with_reducible refine Chg.mk rfl ?_ rfl rfl rfl rfl ?_); · (intro x hx; cases x <;> first | rfl | exact ⟨rfl, rfl⟩ | exact absurd (by decide) hx))

theorem chg_tlbLook (s : State) (a b c d) : Chg [.free] s (State.tlbLook s a b c d).2.2 := by
  induction d generalizing s with
  | nil => exact Chg.refl _ _
  | cons k ks ih =>
    unfold State.tlbLook
    dsimp only
    split
    · exact ih _
    · split
      · exact Chg.refl _ _
      · split
        · exact chg_freeBit _
        · exact (ih _).trans' (chg_freeBit _)

theorem chg_tlbPut (s : State) (a b c d) : Chg [.free, .parts] s (State.tlbPut s a b c d) := by
  unfold State.tlbPut
  repeat' first
    | ((with_reducible apply subF_of); rfl)
    | (with_reducible apply Chg.refl)
    | (with_reducible assumption)
    | (with_reducible apply Chg.step (chg_freeNat _))
    | (with_reducible (apply Chg.step (Chg.snd (chg_freeNat _) ?e)); case e => assumption)
    | (with_reducible apply Chg.step (chg_modPart _ _ _))
    | (with_reducible apply Chg.foldl)
    | (with_reducible apply Chg.orElse_getD)
    | (with_reducible apply Chg.getD)
    | (with_reducible apply Chg.foldl_snd)
    | intro _
    | split
    | dsimp only
    | ((with_reducible refine Chg.mk rfl ?_ rfl rfl rfl rfl ?_); · (intro x hx; cases x <;> first | rfl | exact ⟨rfl, rfl⟩ | exact absurd (by decide) hx))

theorem chg_transl (s : State) (a b c d) : Chg [.free, .parts] s (State.transl s a b c d).2 := by
  have hu : ∀ (ks : List Nat) (t : State) (x : TlbEnt) (g : Nat), Chg [.free, .parts] s t →
      Chg [.free, .parts] s (ks.foldl (fun t k => t.tlbPut a g x k) t) := fun ks t x g h =>
    Chg.foldl h fun _ _ hu => Chg.step (chg_tlbPut _ _ _ _ _) (subF_of rfl) hu
  have hl : ∀ g f ks, Chg [.free, .parts] s (State.tlbLook s a g f ks).2.2 := fun g f ks =>
    Chg.step (chg_tlbLook _ _ _ _ _) (subF_of rfl) (Chg.refl _ _)
  unfold State.transl
  split
  · exact Chg.refl _ _
  · dsimp only
    split
    · exact hu _ _ _ _ (hl _ _ _)
    · exact hu _ _ _ _ (hl _ _ _)
    · exact hl _ _ _

theorem chg_translRange (s : State) (a b c d e f) : Chg [.free, .parts] s (State.translRange s a b c d e f).2 := by
  induction d generalizing s e f with
  | zero => exact Chg.refl _ _
  | succ n ih =>
    unfold State.translRange
    dsimp only
    split
    · exact Chg.refl _ _
    · split
      · next h => exact Chg.snd (chg_transl _ _ _ _ _) h
      · next h =>
        split
        · next k => exact (Chg.snd (ih _ _ _) k).trans' (Chg.snd (chg_transl _ _ _ _ _) h)
        · next k => exact (Chg.snd (ih _ _ _) k).trans' (Chg.snd (chg_transl _ _ _ _ _) h)

theorem chg_translSpan (s : State) (a b c d e) : Chg [.free, .parts] s (State.translSpan s a b c d e).2 := by
  unfold State.translSpan
  repeat' first
    | ((with_reducible apply subF_of); rfl)
    | (with_reducible apply Chg.refl)
    | (with_reducible assumption)
    | (with_reducible apply Chg.step (chg_translRange _ _ _ _ _ _ _))
    | (with_reducible (apply Chg.step (Chg.snd (chg_translRange _ _ _ _ _ _ _) ?e)); case e => assumption)
    | (with_reducible apply Chg.foldl)
    | (with_reducible apply Chg.orElse_getD)
    | (with_reducible apply Chg.getD)
    | (with_reducible apply Chg.foldl_snd)
    | intro _
    | split
    | dsimp only
    | ((with_reducible refine Chg.mk rfl ?_ rfl rfl rfl rfl ?_); · (intro x hx; cases x <;> first | rfl | exact ⟨rfl, rfl⟩ | exact absurd (by decide) hx))

theorem chg_freeBytes (s : State) (a) : Chg [.free] s (State.freeBytes s a).2 := by
  induction a generalizing s with
  | zero => exact Chg.refl _ _
  | succ n ih =>
    refine (ih _).trans' ?_
    refine Chg.mk rfl (fun x hx => ?_) rfl rfl rfl rfl (Chg.refl _ _)
    cases x <;> first | rfl | exact ⟨rfl, rfl⟩ | exact absurd (by decide) hx

theorem chg_readAt (s : State) (a b) : Chg [.free, .out] s (State.readAt s a b).2 := by
  unfold State.readAt
  repeat' first
    | ((with_reducible apply subF_of); rfl)
    | (with_reducible apply Chg.refl)
    | (with_reducible assumption)
    | (with_reducible apply Chg.step (chg_emit _ _))
    | (with_reducible apply Chg.step (chg_freeBytes _ _))
    | (with_reducible (apply Chg.step (Chg.snd (chg_freeBytes _ _) ?e)); case e => assumption)
    | (with_reducible apply Chg.foldl)
    | (with_reducible apply Chg.orElse_getD)
    | (with_reducible apply Chg.getD)
    | (with_reducible apply Chg.foldl_snd)
    | intro _
    | split
    | dsimp only
    | ((with_reducible refine Chg.mk rfl ?_ rfl rfl rfl rfl ?_); · (intro x hx; cases x <;> first | rfl | exact ⟨rfl, rfl⟩ | exact absurd (by decide) hx))

theorem chg_writeAt (s : State) (a b) : Chg [.out, .mem, .poison, .cores, .launches] s (State.writeAt s a b) := by
  unfold State.writeAt
  repeat' first
    | ((with_reducible apply subF_of); rfl)
    | (with_reducible apply Chg.refl)
    | (with_reducible assumption)
    | (with_reducible apply Chg.step (chg_breakGlobal _ _ _))
    | (with_reducible apply Chg.step (chg_emit _ _))
    | (with_reducible apply Chg.step (chg_writeMem _ _ _))
    | (with_reducible apply Chg.foldl)
    | (with_reducible apply Chg.orElse_getD)
    | (with_reducible apply Chg.getD)
    | (with_reducible apply Chg.foldl_snd)
    | intro _
    | split
    | dsimp only
    | ((with_reducible refine Chg.mk rfl ?_ rfl rfl rfl rfl ?_); · (intro x hx; cases x <;> first | rfl | exact ⟨rfl, rfl⟩ | exact absurd (by decide) hx))

theorem chg_askHost (s : State) (a) : Chg [.out] s (State.askHost s a) := by
  unfold State.askHost
  repeat' first
    | ((with_reducible apply subF_of); rfl)
    | (with_reducible apply Chg.refl)
    | (with_reducible assumption)
    | (with_reducible apply Chg.step (chg_emit _ _))
    | (with_reducible apply Chg.foldl)
    | (with_reducible apply Chg.orElse_getD)
    | (with_reducible apply Chg.getD)
    | (with_reducible apply Chg.foldl_snd)
    | intro _
    | split
    | dsimp only
    | ((with_reducible refine Chg.mk rfl ?_ rfl rfl rfl rfl ?_); · (intro x hx; cases x <;> first | rfl | exact ⟨rfl, rfl⟩ | exact absurd (by decide) hx))

theorem chg_fetchBytes (s : State) (a b c d) : Chg [.free, .out, .parts] s (State.fetchBytes s a b c d).2 := by
  unfold State.fetchBytes
  repeat' first
    | ((with_reducible apply subF_of); rfl)
    | (with_reducible apply Chg.refl)
    | (with_reducible assumption)
    | (with_reducible apply Chg.step (chg_askHost _ _))
    | (with_reducible apply Chg.step (chg_readAt _ _ _))
    | (with_reducible (apply Chg.step (Chg.snd (chg_readAt _ _ _) ?e)); case e => assumption)
    | (with_reducible apply Chg.step (chg_translSpan _ _ _ _ _ _))
    | (with_reducible (apply Chg.step (Chg.snd (chg_translSpan _ _ _ _ _ _) ?e)); case e => assumption)
    | (with_reducible apply Chg.foldl)
    | (with_reducible apply Chg.orElse_getD)
    | (with_reducible apply Chg.getD)
    | (with_reducible apply Chg.foldl_snd)
    | intro _
    | split
    | dsimp only
    | ((with_reducible refine Chg.mk rfl ?_ rfl rfl rfl rfl ?_); · (intro x hx; cases x <;> first | rfl | exact ⟨rfl, rfl⟩ | exact absurd (by decide) hx))

theorem chg_storeBytes (s : State) (a b c d) : Chg [.free, .out, .mem, .poison, .cores, .launches, .parts, .dies, .chans] s (State.storeBytes s a b c d).2 := by
  unfold State.storeBytes
  repeat' first
    | ((with_reducible apply subF_of); rfl)
    | (with_reducible apply Chg.refl)
    | (with_reducible assumption)
    | (with_reducible apply Chg.step (chg_l2Touch _ _ _ _ _ _ _))
    | (with_reducible apply Chg.step (chg_translSpan _ _ _ _ _ _))
    | (with_reducible (apply Chg.step (Chg.snd (chg_translSpan _ _ _ _ _ _) ?e)); case e => assumption)
    | (with_reducible apply Chg.step (chg_writeAt _ _ _))
    | (with_reducible apply Chg.foldl)
    | (with_reducible apply Chg.orElse_getD)
    | (with_reducible apply Chg.getD)
    | (with_reducible apply Chg.foldl_snd)
    | intro _
    | split
    | dsimp only
    | ((with_reducible refine Chg.mk rfl ?_ rfl rfl rfl rfl ?_); · (intro x hx; cases x <;> first | rfl | exact ⟨rfl, rfl⟩ | exact absurd (by decide) hx))

theorem chg_failLaunch (s : State) (a b) : Chg [.launches] s (State.failLaunch s a b) := by
  unfold State.failLaunch
  repeat' first
    | ((with_reducible apply subF_of); rfl)
    | (with_reducible apply Chg.refl)
    | (with_reducible assumption)
    | (with_reducible apply Chg.step (chg_modLaunch _ _ _))
    | (with_reducible apply Chg.foldl)
    | (with_reducible apply Chg.orElse_getD)
    | (with_reducible apply Chg.getD)
    | (with_reducible apply Chg.foldl_snd)
    | intro _
    | split
    | dsimp only
    | ((with_reducible refine Chg.mk rfl ?_ rfl rfl rfl rfl ?_); · (intro x hx; cases x <;> first | rfl | exact ⟨rfl, rfl⟩ | exact absurd (by decide) hx))

theorem chg_recordExc (s : State) (a b c d e f g) : Chg [.regs] s (State.recordExc s a b c d e f g) := by
  unfold State.recordExc
  repeat' first
    | ((with_reducible apply subF_of); rfl)
    | (with_reducible apply Chg.refl)
    | (with_reducible assumption)
    | (with_reducible apply Chg.step (chg_setBit _ _ _ _))
    | (with_reducible apply Chg.step (chg_setReg _ _ _))
    | (with_reducible apply Chg.step (chg_setReg64 _ _ _))
    | (with_reducible apply Chg.foldl)
    | (with_reducible apply Chg.orElse_getD)
    | (with_reducible apply Chg.getD)
    | (with_reducible apply Chg.foldl_snd)
    | intro _
    | split

theorem chg_raise (s : State) (a b c d e f) : Chg [.regs, .cores, .launches] s (State.raise s a b c d e f) := by
  unfold State.raise
  repeat' first
    | ((with_reducible apply subF_of); rfl)
    | (with_reducible apply Chg.refl)
    | (with_reducible assumption)
    | (with_reducible apply Chg.step (chg_failLaunch _ _ _))
    | (with_reducible apply Chg.step (chg_modGroup _ _ _))
    | (with_reducible apply Chg.step (chg_recordExc _ _ _ _ _ _ _ _))
    | (with_reducible apply Chg.foldl)
    | (with_reducible apply Chg.orElse_getD)
    | (with_reducible apply Chg.getD)
    | (with_reducible apply Chg.foldl_snd)
    | intro _
    | split
    | dsimp only
    | ((with_reducible refine Chg.mk rfl ?_ rfl rfl rfl rfl ?_); · (intro x hx; cases x <;> first | rfl | exact ⟨rfl, rfl⟩ | exact absurd (by decide) hx))

theorem chg_portPut (s : State) (a) : Chg [.regs, .dbg] s (State.portPut s a) := by
  unfold State.portPut
  repeat' first
    | ((with_reducible apply subF_of); rfl)
    | (with_reducible apply Chg.refl)
    | (with_reducible assumption)
    | (with_reducible apply Chg.step (chg_countReg _ _ _))
    | (with_reducible apply Chg.foldl)
    | (with_reducible apply Chg.orElse_getD)
    | (with_reducible apply Chg.getD)
    | (with_reducible apply Chg.foldl_snd)
    | intro _
    | split
    | dsimp only
    | ((with_reducible refine Chg.mk rfl ?_ rfl rfl rfl rfl ?_); · (intro x hx; cases x <;> first | rfl | exact ⟨rfl, rfl⟩ | exact absurd (by decide) hx))

theorem chg_trace (s : State) (a b c d e) : Chg [.regs, .dbg] s (State.trace s a b c d e) := by
  unfold State.trace
  split
  · extract_lets r t q
    have ht : Chg [.regs, .dbg] s t := Chg.ite (Chg.step (chg_portPut _ _) (subF_of rfl) (Chg.refl _ _)) (Chg.refl _ _)
    clear_value t
    split
    · refine Chg.mk rfl (fun x hx => ?_) rfl rfl rfl rfl ht
      cases x <;> first | rfl | exact ⟨rfl, rfl⟩ | exact absurd (by decide) hx
    · refine Chg.step (chg_countReg _ _ _) (subF_of rfl) (Chg.mk rfl (fun x hx => ?_) rfl rfl rfl rfl ht)
      cases x <;> first | rfl | exact ⟨rfl, rfl⟩ | exact absurd (by decide) hx
  · exact Chg.refl _ _

theorem chg_traceLaunch (s : State) (a b c d) : Chg [.regs, .dbg] s (State.traceLaunch s a b c d) := by
  unfold State.traceLaunch
  repeat' first
    | ((with_reducible apply subF_of); rfl)
    | (with_reducible apply Chg.refl)
    | (with_reducible assumption)
    | (with_reducible apply Chg.step (chg_trace _ _ _ _ _ _))

theorem chg_pmAdd (s : State) (a b c) : Chg [.regs] s (State.pmAdd s a b c) := by
  unfold State.pmAdd
  extract_lets v t u
  have ht : Chg [.regs] s t := chg_setReg64 _ _ _
  have hu : Chg [.regs] s u := Chg.step (chg_setBit _ _ _ _) (subF_of rfl) ht
  clear_value t u v
  split
  · exact Chg.ite (Chg.step (chg_setBit _ _ _ _) (subF_of rfl) hu) hu
  · exact ht

theorem chg_pmEvent (s : State) (a b c d) : Chg [.regs] s (State.pmEvent s a b c d) := by
  unfold State.pmEvent
  repeat' first
    | ((with_reducible apply subF_of); rfl)
    | (with_reducible apply Chg.refl)
    | (with_reducible assumption)
    | (with_reducible apply Chg.step (chg_pmAdd _ _ _ _))
    | (with_reducible apply Chg.foldl)
    | (with_reducible apply Chg.orElse_getD)
    | (with_reducible apply Chg.getD)
    | (with_reducible apply Chg.foldl_snd)
    | intro _
    | split

theorem chg_freeRegion (s : State) (a) : Chg [.poison, .dies] s (State.freeRegion s a) := by
  unfold State.freeRegion
  repeat' first
    | ((with_reducible apply subF_of); rfl)
    | (with_reducible apply Chg.refl)
    | (with_reducible assumption)
    | (with_reducible apply Chg.step (chg_modDie _ _ _))
    | (with_reducible apply Chg.foldl)
    | (with_reducible apply Chg.orElse_getD)
    | (with_reducible apply Chg.getD)
    | (with_reducible apply Chg.foldl_snd)
    | intro _
    | split
    | dsimp only
    | ((with_reducible refine Chg.mk rfl ?_ rfl rfl rfl rfl ?_); · (intro x hx; cases x <;> first | rfl | exact ⟨rfl, rfl⟩ | exact absurd (by decide) hx))

theorem chg_l2Clean (s : State) (a) : Chg [.dies] s (State.l2Clean s a) := by
  unfold State.l2Clean
  repeat' first
    | ((with_reducible apply subF_of); rfl)
    | (with_reducible apply Chg.refl)
    | (with_reducible assumption)
    | (with_reducible apply Chg.step (chg_modDie _ _ _))
    | (with_reducible apply Chg.foldl)
    | (with_reducible apply Chg.orElse_getD)
    | (with_reducible apply Chg.getD)
    | (with_reducible apply Chg.foldl_snd)
    | intro _
    | split
    | dsimp only
    | ((with_reducible refine Chg.mk rfl ?_ rfl rfl rfl rfl ?_); · (intro x hx; cases x <;> first | rfl | exact ⟨rfl, rfl⟩ | exact absurd (by decide) hx))

theorem chg_poisonEntries (s : State) (a) : Chg [.launches] s (State.poisonEntries s a) := by
  unfold State.poisonEntries
  repeat' first
    | ((with_reducible apply subF_of); rfl)
    | (with_reducible apply Chg.refl)
    | (with_reducible assumption)
    | (with_reducible apply Chg.foldl)
    | (with_reducible apply Chg.orElse_getD)
    | (with_reducible apply Chg.getD)
    | (with_reducible apply Chg.foldl_snd)
    | intro _
    | split
    | dsimp only
    | ((with_reducible refine Chg.mk rfl ?_ rfl rfl rfl rfl ?_); · (intro x hx; cases x <;> first | rfl | exact ⟨rfl, rfl⟩ | exact absurd (by decide) hx))

theorem chg_commitLine (s : State) (a b) : Chg [.free, .dies, .chans] s (State.commitLine s a b) := by
  unfold State.commitLine
  repeat' first
    | ((with_reducible apply subF_of); rfl)
    | (with_reducible apply Chg.refl)
    | (with_reducible assumption)
    | (with_reducible apply Chg.step (chg_hbmAsk _ _ _ _))
    | (with_reducible apply Chg.step (chg_l2Fill _ _ _ _ _))
    | (with_reducible apply Chg.step (chg_l2Way _ _ _ _))
    | (with_reducible (apply Chg.step (Chg.snd (chg_l2Way _ _ _ _) ?e)); case e => assumption)
    | (with_reducible apply Chg.foldl)
    | (with_reducible apply Chg.orElse_getD)
    | (with_reducible apply Chg.getD)
    | (with_reducible apply Chg.foldl_snd)
    | intro _
    | split
    | dsimp only
    | ((with_reducible refine Chg.mk rfl ?_ rfl rfl rfl rfl ?_); · (intro x hx; cases x <;> first | rfl | exact ⟨rfl, rfl⟩ | exact absurd (by decide) hx))

theorem chg_findFail (s : State) (a b) : Chg [.launches] s (State.findFail s a b) := by
  unfold State.findFail
  repeat' first
    | ((with_reducible apply subF_of); rfl)
    | (with_reducible apply Chg.refl)
    | (with_reducible assumption)
    | (with_reducible apply Chg.step (chg_modLaunch _ _ _))
    | (with_reducible apply Chg.foldl)
    | (with_reducible apply Chg.orElse_getD)
    | (with_reducible apply Chg.getD)
    | (with_reducible apply Chg.foldl_snd)
    | intro _
    | split
    | dsimp only
    | ((with_reducible refine Chg.mk rfl ?_ rfl rfl rfl rfl ?_); · (intro x hx; cases x <;> first | rfl | exact ⟨rfl, rfl⟩ | exact absurd (by decide) hx))

theorem chg_loseWrites (s : State) (a b) : Chg [.launches] s (State.loseWrites s a b) := by
  unfold State.loseWrites
  repeat' first
    | ((with_reducible apply subF_of); rfl)
    | (with_reducible apply Chg.refl)
    | (with_reducible assumption)
    | (with_reducible apply Chg.step (chg_modLaunch _ _ _))
    | (with_reducible apply Chg.foldl)
    | (with_reducible apply Chg.orElse_getD)
    | (with_reducible apply Chg.getD)
    | (with_reducible apply Chg.foldl_snd)
    | intro _
    | split
    | dsimp only
    | ((with_reducible refine Chg.mk rfl ?_ rfl rfl rfl rfl ?_); · (intro x hx; cases x <;> first | rfl | exact ⟨rfl, rfl⟩ | exact absurd (by decide) hx))

theorem chg_askLine (s : State) (a b c) : Chg [.free, .dies, .chans] s (State.askLine s a b c) := by
  unfold State.askLine
  repeat' first
    | ((with_reducible apply subF_of); rfl)
    | (with_reducible apply Chg.refl)
    | (with_reducible assumption)
    | (with_reducible apply Chg.step (chg_l2Access _ _ _ _ _ _ _))
    | (with_reducible apply Chg.step (chg_modChan _ _ _))
    | (with_reducible apply Chg.foldl)
    | (with_reducible apply Chg.orElse_getD)
    | (with_reducible apply Chg.getD)
    | (with_reducible apply Chg.foldl_snd)
    | intro _
    | split
    | dsimp only
    | ((with_reducible refine Chg.mk rfl ?_ rfl rfl rfl rfl ?_); · (intro x hx; cases x <;> first | rfl | exact ⟨rfl, rfl⟩ | exact absurd (by decide) hx))

theorem chg_askLines (s : State) (a b c) : Chg [.free, .dies, .chans] s (State.askLines s a b c) := by
  unfold State.askLines
  repeat' first
    | ((with_reducible apply subF_of); rfl)
    | (with_reducible apply Chg.refl)
    | (with_reducible assumption)
    | (with_reducible apply Chg.step (chg_askLine _ _ _ _))
    | (with_reducible apply Chg.foldl)
    | (with_reducible apply Chg.orElse_getD)
    | (with_reducible apply Chg.getD)
    | (with_reducible apply Chg.foldl_snd)
    | intro _
    | split
    | dsimp only
    | ((with_reducible refine Chg.mk rfl ?_ rfl rfl rfl rfl ?_); · (intro x hx; cases x <;> first | rfl | exact ⟨rfl, rfl⟩ | exact absurd (by decide) hx))

theorem chg_takeLine (s : State) (a) : Chg [.chans] s (State.takeLine s a) := by
  unfold State.takeLine
  repeat' first
    | ((with_reducible apply subF_of); rfl)
    | (with_reducible apply Chg.refl)
    | (with_reducible assumption)
    | (with_reducible apply Chg.step (chg_modChan _ _ _))
    | (with_reducible apply Chg.foldl)
    | (with_reducible apply Chg.orElse_getD)
    | (with_reducible apply Chg.getD)
    | (with_reducible apply Chg.foldl_snd)
    | intro _
    | split
    | dsimp only
    | ((with_reducible refine Chg.mk rfl ?_ rfl rfl rfl rfl ?_); · (intro x hx; cases x <;> first | rfl | exact ⟨rfl, rfl⟩ | exact absurd (by decide) hx))

theorem chg_takeLines (s : State) (a) : Chg [.chans] s (State.takeLines s a) := by
  unfold State.takeLines
  repeat' first
    | ((with_reducible apply subF_of); rfl)
    | (with_reducible apply Chg.refl)
    | (with_reducible assumption)
    | (with_reducible apply Chg.step (chg_takeLine _ _))
    | (with_reducible apply Chg.foldl)
    | (with_reducible apply Chg.orElse_getD)
    | (with_reducible apply Chg.getD)
    | (with_reducible apply Chg.foldl_snd)
    | intro _
    | split
    | dsimp only
    | ((with_reducible refine Chg.mk rfl ?_ rfl rfl rfl rfl ?_); · (intro x hx; cases x <;> first | rfl | exact ⟨rfl, rfl⟩ | exact absurd (by decide) hx))

/-- What goes on once lines are there keeps what it keeps, and asking for them keeps more. -/
theorem chg_withLines {L : List Fld} {s t : State} {p c xs k} (hs : subF [.free, .dies, .chans] L) (hk : ∀ u, Chg L s u → Chg L s (k u)) (h : Chg L s t) :
    Chg L s (State.withLines t p c xs k) := by
  unfold State.withLines
  exact Chg.ite (hk _ (Chg.step (chg_takeLines _ _) (subF.trans (subF_of rfl) hs) h)) (Chg.step (chg_askLines _ _ _ _) hs h)

theorem chg_onceHere {L : List Fld} {s t : State} {p xs k} {v : State} (hs : subF [.free, .dies, .chans] L) (hk : ∀ u, Chg L s u → Chg L s (k u)) (h : Chg L s t)
    (e : State.onceHere t p xs k = some v) : Chg L s v := by
  unfold State.onceHere at e
  split at e
  · cases e; exact hk _ (Chg.step (chg_takeLines _ _) (subF.trans (subF_of rfl) hs) h)
  · split at e
    · contradiction
    · cases e; exact Chg.step (chg_askLines _ _ _ _) hs h

theorem chg_endCap (s : State) (a) : Chg [.cores] s (State.endCap s a) := by
  unfold State.endCap
  repeat' first
    | ((with_reducible apply subF_of); rfl)
    | (with_reducible apply Chg.refl)
    | (with_reducible assumption)
    | (with_reducible apply Chg.step (chg_modCore _ _ _))
    | (with_reducible apply Chg.foldl)
    | (with_reducible apply Chg.orElse_getD)
    | (with_reducible apply Chg.getD)
    | (with_reducible apply Chg.foldl_snd)
    | intro _
    | split
    | dsimp only
    | ((with_reducible refine Chg.mk rfl ?_ rfl rfl rfl rfl ?_); · (intro x hx; cases x <;> first | rfl | exact ⟨rfl, rfl⟩ | exact absurd (by decide) hx))

end Sys2Proof.Machine
end

