-- ==== Sys2Proof/Laws/ChgOperands.lean ====
section
/-! SUPPORT. What each operation of Machine/Operands.lean may change. -/

namespace Sys2Proof.Machine

theorem chg_icacheFill (s : State) (a b c d) : Chg [.free, .cores] s (State.icacheFill s a b c d) := by
  unfold State.icacheFill
  repeat' first
    | ((with_reducible apply subF_of); rfl)
    | (with_reducible apply Chg.refl)
    | (with_reducible assumption)
    | (with_reducible apply Chg.step (chg_freeNat _))
    | (with_reducible (apply Chg.step (Chg.snd (chg_freeNat _) ?e)); case e => assumption)
    | (with_reducible apply Chg.step (chg_setCore _ _ _))
    | (with_reducible apply Chg.foldl)
    | (with_reducible apply Chg.orElse_getD)
    | (with_reducible apply Chg.getD)
    | (with_reducible apply Chg.foldl_snd)
    | intro _
    | split
    | dsimp only
    | ((with_reducible refine Chg.mk rfl ?_ rfl rfl rfl rfl ?_); · (intro x hx; cases x <;> first | rfl | exact ⟨rfl, rfl⟩ | exact absurd (by decide) hx))

theorem chg_fetch (s : State) (a b) : Chg [.free, .out, .cores, .parts, .dies, .chans] s (State.fetch s a b).2 := by
  unfold State.fetch
  repeat' first
    | ((with_reducible apply subF_of); rfl)
    | (with_reducible apply Chg.refl)
    | (with_reducible assumption)
    | (with_reducible apply Chg.step (chg_icacheFill _ _ _ _ _))
    | (with_reducible apply Chg.step (chg_l2Touch _ _ _ _ _ _ _))
    | (with_reducible apply Chg.step (chg_readAt _ _ _))
    | (with_reducible (apply Chg.step (Chg.snd (chg_readAt _ _ _) ?e)); case e => assumption)
    | (with_reducible apply Chg.step (chg_transl _ _ _ _ _))
    | (with_reducible (apply Chg.step (Chg.snd (chg_transl _ _ _ _ _) ?e)); case e => assumption)
    | (with_reducible apply Chg.foldl)
    | (with_reducible apply Chg.orElse_getD)
    | (with_reducible apply Chg.getD)
    | (with_reducible apply Chg.foldl_snd)
    | intro _
    | split
    | dsimp only
    | ((with_reducible refine Chg.mk rfl ?_ rfl rfl rfl rfl ?_); · (intro x hx; cases x <;> first | rfl | exact ⟨rfl, rfl⟩ | exact absurd (by decide) hx))

theorem chg_park (s : State) (a b c) : Chg [.regs, .cores] s (State.park s a b c) := by
  unfold State.park
  repeat' first
    | ((with_reducible apply subF_of); rfl)
    | (with_reducible apply Chg.refl)
    | (with_reducible assumption)
    | (with_reducible apply Chg.step (chg_modCore _ _ _))
    | (with_reducible apply Chg.step (chg_modGroup _ _ _))
    | (with_reducible apply Chg.step (chg_pmEvent _ _ _ _ _))
    | (with_reducible apply Chg.foldl)
    | (with_reducible apply Chg.orElse_getD)
    | (with_reducible apply Chg.getD)
    | (with_reducible apply Chg.foldl_snd)
    | intro _
    | split
    | dsimp only
    | ((with_reducible refine Chg.mk rfl ?_ rfl rfl rfl rfl ?_); · (intro x hx; cases x <;> first | rfl | exact ⟨rfl, rfl⟩ | exact absurd (by decide) hx))

theorem chg_wake (s : State) (a) : Chg [.cores] s (State.wake s a) := by
  unfold State.wake
  repeat' first
    | ((with_reducible apply subF_of); rfl)
    | (with_reducible apply Chg.refl)
    | (with_reducible assumption)
    | (with_reducible apply Chg.step (chg_modCore _ _ _))
    | (with_reducible apply Chg.step (chg_modGroup _ _ _))
    | (with_reducible apply Chg.foldl)
    | (with_reducible apply Chg.orElse_getD)
    | (with_reducible apply Chg.getD)
    | (with_reducible apply Chg.foldl_snd)
    | intro _
    | split
    | dsimp only
    | ((with_reducible refine Chg.mk rfl ?_ rfl rfl rfl rfl ?_); · (intro x hx; cases x <;> first | rfl | exact ⟨rfl, rfl⟩ | exact absurd (by decide) hx))

theorem chg_issued (s : State) (a b) : Chg [.regs, .cores, .launches] s (State.issued s a b) := by
  unfold State.issued
  repeat' first
    | ((with_reducible apply subF_of); rfl)
    | (with_reducible apply Chg.refl)
    | (with_reducible assumption)
    | (with_reducible apply Chg.step (chg_modCore _ _ _))
    | (with_reducible apply Chg.step (chg_modLaunch _ _ _))
    | (with_reducible apply Chg.step (chg_pmEvent _ _ _ _ _))

theorem chg_issue {L : List Fld} {s t : State} {g w body} (hs : subF [.free, .out, .regs, .cores, .launches, .parts, .dies, .chans] L) (hb0 : ∀ c u, Chg L s u → Chg L s (body c u)) (h : Chg L s t) : Chg L s (State.issue t g w body) := by
  unfold State.issue
  repeat' first
    | ((with_reducible apply subF.trans (subF_of ?e) hs); case e => rfl)
    | (with_reducible apply Chg.refl)
    | (with_reducible assumption)
    | (with_reducible apply hb0)
    | (with_reducible apply Chg.step (chg_raise _ _ _ _ _ _ _))
    | (with_reducible apply Chg.step (chg_fetch _ _ _))
    | (with_reducible (apply Chg.step (Chg.snd (chg_fetch _ _ _) ?e)); case e => assumption)
    | (with_reducible apply Chg.step (chg_park _ _ _ _))
    | (with_reducible apply Chg.foldl)
    | (with_reducible apply Chg.orElse_getD)
    | (with_reducible apply Chg.getD)
    | (with_reducible apply Chg.foldl_snd)
    | intro _
    | split

theorem chg_orRaise {L : List Fld} {s t : State} {g c w xs k} (hs : subF [.regs, .cores, .launches] L) (hb0 : ∀ u, Chg L s u → Chg L s (k u)) (h : Chg L s t) : Chg L s (State.orRaise t g c w xs k) := by
  unfold State.orRaise
  repeat' first
    | ((with_reducible apply subF.trans (subF_of ?e) hs); case e => rfl)
    | (with_reducible apply Chg.refl)
    | (with_reducible assumption)
    | (with_reducible apply hb0)
    | (with_reducible apply Chg.step (chg_raise _ _ _ _ _ _ _))
    | (with_reducible apply Chg.foldl)
    | (with_reducible apply Chg.orElse_getD)
    | (with_reducible apply Chg.getD)
    | (with_reducible apply Chg.foldl_snd)
    | intro _
    | split

theorem chg_retire (s : State) (a b) : Chg [.cores] s (State.retire s a b) := by
  unfold State.retire
  repeat' first
    | ((with_reducible apply subF_of); rfl)
    | (with_reducible apply Chg.refl)
    | (with_reducible assumption)
    | (with_reducible apply Chg.step (chg_setGroup _ _ _))

theorem chg_issueAlu (s : State) (a b c) : Chg [.free, .out, .regs, .cores, .launches, .parts, .dies, .chans] s (State.issueAlu s a b c) := by
  unfold State.issueAlu
  repeat' first
    | ((with_reducible apply subF_of); rfl)
    | (with_reducible apply Chg.refl)
    | (with_reducible assumption)
    | (with_reducible apply Chg.step (chg_issued _ _ _))
    | (with_reducible apply Chg.step (chg_retire _ _ _))
    | (with_reducible apply chg_issue)
    | (with_reducible apply Chg.foldl)
    | (with_reducible apply Chg.orElse_getD)
    | (with_reducible apply Chg.getD)
    | (with_reducible apply Chg.foldl_snd)
    | intro _

end Sys2Proof.Machine
end

