-- ==== Sys2Proof/Laws/ChgAlu.lean ====
section
/-! SUPPORT. What each operation of Machine/Alu.lean may change. -/

namespace Sys2Proof.Machine

theorem chg_rowI32Op (s : State) (a b) : Chg [.free, .out, .regs, .cores, .launches, .parts, .dies, .chans] s (State.rowI32Op s a b) := by
  unfold State.rowI32Op
  repeat' first
    | ((with_reducible apply subF_of); rfl)
    | (with_reducible apply subF.refl)
    | (with_reducible apply Chg.refl)
    | (with_reducible assumption)
    | (with_reducible apply Chg.step (chg_issueAlu _ _ _ _))
    | intro _
    | split
    | dsimp only

theorem chg_rowI64Op (s : State) (a b) : Chg [.free, .out, .regs, .cores, .launches, .parts, .dies, .chans] s (State.rowI64Op s a b) := by
  unfold State.rowI64Op
  repeat' first
    | ((with_reducible apply subF_of); rfl)
    | (with_reducible apply subF.refl)
    | (with_reducible apply Chg.refl)
    | (with_reducible assumption)
    | (with_reducible apply Chg.step (chg_issueAlu _ _ _ _))
    | intro _
    | split
    | dsimp only

theorem chg_rowIntCmp (s : State) (a b) : Chg [.free, .out, .regs, .cores, .launches, .parts, .dies, .chans] s (State.rowIntCmp s a b) := by
  unfold State.rowIntCmp
  repeat' first
    | ((with_reducible apply subF_of); rfl)
    | (with_reducible apply subF.refl)
    | (with_reducible apply Chg.refl)
    | (with_reducible assumption)
    | (with_reducible apply Chg.step (chg_issueAlu _ _ _ _))
    | intro _
    | split
    | dsimp only

theorem chg_rowImmV (s : State) (a b) : Chg [.free, .out, .regs, .cores, .launches, .parts, .dies, .chans] s (State.rowImmV s a b) := by
  unfold State.rowImmV
  repeat' first
    | ((with_reducible apply subF_of); rfl)
    | (with_reducible apply subF.refl)
    | (with_reducible apply Chg.refl)
    | (with_reducible assumption)
    | (with_reducible apply Chg.step (chg_issueAlu _ _ _ _))
    | intro _
    | split
    | dsimp only

theorem chg_rowImmU (s : State) (a b) : Chg [.free, .out, .regs, .cores, .launches, .parts, .dies, .chans] s (State.rowImmU s a b) := by
  unfold State.rowImmU
  repeat' first
    | ((with_reducible apply subF_of); rfl)
    | (with_reducible apply subF.refl)
    | (with_reducible apply Chg.refl)
    | (with_reducible assumption)
    | (with_reducible apply Chg.step (chg_issueAlu _ _ _ _))
    | intro _
    | split
    | dsimp only

theorem chg_rowF32Op (s : State) (a b) : Chg [.free, .out, .regs, .cores, .launches, .parts, .dies, .chans] s (State.rowF32Op s a b) := by
  unfold State.rowF32Op
  repeat' first
    | ((with_reducible apply subF_of); rfl)
    | (with_reducible apply subF.refl)
    | (with_reducible apply Chg.refl)
    | (with_reducible assumption)
    | (with_reducible apply Chg.step (chg_issueAlu _ _ _ _))
    | intro _
    | split
    | dsimp only

theorem chg_rowF64Op (s : State) (a b) : Chg [.free, .out, .regs, .cores, .launches, .parts, .dies, .chans] s (State.rowF64Op s a b) := by
  unfold State.rowF64Op
  repeat' first
    | ((with_reducible apply subF_of); rfl)
    | (with_reducible apply subF.refl)
    | (with_reducible apply Chg.refl)
    | (with_reducible assumption)
    | (with_reducible apply Chg.step (chg_issueAlu _ _ _ _))
    | intro _
    | split
    | dsimp only

theorem chg_rowH2Op (s : State) (a b) : Chg [.free, .out, .regs, .cores, .launches, .parts, .dies, .chans] s (State.rowH2Op s a b) := by
  unfold State.rowH2Op
  repeat' first
    | ((with_reducible apply subF_of); rfl)
    | (with_reducible apply subF.refl)
    | (with_reducible apply Chg.refl)
    | (with_reducible assumption)
    | (with_reducible apply Chg.step (chg_issueAlu _ _ _ _))
    | intro _
    | split
    | dsimp only

theorem chg_rowFpCmp (s : State) (a b) : Chg [.free, .out, .regs, .cores, .launches, .parts, .dies, .chans] s (State.rowFpCmp s a b) := by
  unfold State.rowFpCmp
  repeat' first
    | ((with_reducible apply subF_of); rfl)
    | (with_reducible apply subF.refl)
    | (with_reducible apply Chg.refl)
    | (with_reducible assumption)
    | (with_reducible apply Chg.step (chg_issueAlu _ _ _ _))
    | intro _
    | split
    | dsimp only

theorem chg_rowCnv (s : State) (a b) : Chg [.free, .out, .regs, .cores, .launches, .parts, .dies, .chans] s (State.rowCnv s a b) := by
  unfold State.rowCnv
  repeat' first
    | ((with_reducible apply subF_of); rfl)
    | (with_reducible apply subF.refl)
    | (with_reducible apply Chg.refl)
    | (with_reducible assumption)
    | (with_reducible apply Chg.step (chg_issueAlu _ _ _ _))
    | intro _
    | split
    | dsimp only

theorem chg_rowSfOp (s : State) (a b) : Chg [.free, .out, .regs, .cores, .launches, .parts, .dies, .chans] s (State.rowSfOp s a b) := by
  unfold State.rowSfOp
  repeat' first
    | ((with_reducible apply subF_of); rfl)
    | (with_reducible apply subF.refl)
    | (with_reducible apply Chg.refl)
    | (with_reducible assumption)
    | (with_reducible apply Chg.step (chg_issueAlu _ _ _ _))
    | intro _
    | split
    | dsimp only

theorem chg_rowPrOp (s : State) (a b) : Chg [.free, .out, .regs, .cores, .launches, .parts, .dies, .chans] s (State.rowPrOp s a b) := by
  unfold State.rowPrOp
  repeat' first
    | ((with_reducible apply subF_of); rfl)
    | (with_reducible apply subF.refl)
    | (with_reducible apply Chg.refl)
    | (with_reducible assumption)
    | (with_reducible apply Chg.step (chg_issueAlu _ _ _ _))
    | intro _
    | split
    | dsimp only

theorem chg_rowGrpShfl (s : State) (a b) : Chg [.free, .out, .regs, .cores, .launches, .parts, .dies, .chans] s (State.rowGrpShfl s a b) := by
  unfold State.rowGrpShfl
  repeat' first
    | ((with_reducible apply subF_of); rfl)
    | (with_reducible apply subF.refl)
    | (with_reducible apply Chg.refl)
    | (with_reducible assumption)
    | (with_reducible apply Chg.step (chg_issueAlu _ _ _ _))
    | intro _
    | split
    | dsimp only

theorem chg_rowGrpVote (s : State) (a b) : Chg [.free, .out, .regs, .cores, .launches, .parts, .dies, .chans] s (State.rowGrpVote s a b) := by
  unfold State.rowGrpVote
  repeat' first
    | ((with_reducible apply subF_of); rfl)
    | (with_reducible apply subF.refl)
    | (with_reducible apply Chg.refl)
    | (with_reducible assumption)
    | (with_reducible apply Chg.step (chg_issueAlu _ _ _ _))
    | intro _
    | split
    | dsimp only

end Sys2Proof.Machine
end

