-- ==== Sys2Proof/Laws/ChgBlocks.lean ====
section
/-! SUPPORT. What each operation of Machine/Blocks.lean may change. -/

namespace Sys2Proof.Machine

theorem chg_dropL1 (s : State) (a) : Chg [.cores] s (State.dropL1 s a) := by
  unfold State.dropL1
  repeat' first
    | ((with_reducible apply subF_of); rfl)
    | (with_reducible apply Chg.refl)
    | (with_reducible assumption)
    | (with_reducible apply Chg.step (chg_modCore _ _ _))

theorem chg_endOn (s : State) (a b c) : Chg [.regs, .cores, .dbg] s (State.endOn s a b c) := by
  unfold State.endOn
  repeat' first
    | ((with_reducible apply subF_of); rfl)
    | (with_reducible apply Chg.refl)
    | (with_reducible assumption)
    | (with_reducible apply Chg.step (chg_modCore _ _ _))
    | (with_reducible apply Chg.step (chg_traceLaunch _ _ _ _ _))
    | (with_reducible apply Chg.foldl)
    | (with_reducible apply Chg.orElse_getD)
    | (with_reducible apply Chg.getD)
    | (with_reducible apply Chg.foldl_snd)
    | intro _
    | split
    | dsimp only
    | ((with_reducible refine Chg.mk rfl ?_ rfl rfl rfl rfl ?_); · (intro x hx; cases x <;> first | rfl | exact ⟨rfl, rfl⟩ | exact absurd (by decide) hx))

theorem chg_reap (s : State) (a) : Chg [.regs, .cores, .dbg] s (State.reap s a) := by
  unfold State.reap
  repeat' first
    | ((with_reducible apply subF_of); rfl)
    | (with_reducible apply Chg.refl)
    | (with_reducible assumption)
    | (with_reducible apply Chg.step (chg_endOn _ _ _ _))
    | (with_reducible apply Chg.step (chg_modCore _ _ _))
    | (with_reducible apply Chg.foldl)
    | (with_reducible apply Chg.orElse_getD)
    | (with_reducible apply Chg.getD)
    | (with_reducible apply Chg.foldl_snd)
    | intro _
    | split
    | dsimp only
    | ((with_reducible refine Chg.mk rfl ?_ rfl rfl rfl rfl ?_); · (intro x hx; cases x <;> first | rfl | exact ⟨rfl, rfl⟩ | exact absurd (by decide) hx))

theorem chg_endGroup (s : State) (a) : Chg [.regs, .cores, .launches, .dbg] s (State.endGroup s a) := by
  unfold State.endGroup
  repeat' first
    | ((with_reducible apply subF_of); rfl)
    | (with_reducible apply Chg.refl)
    | (with_reducible assumption)
    | (with_reducible apply Chg.step (chg_modCore _ _ _))
    | (with_reducible apply Chg.step (chg_modLaunch _ _ _))
    | (with_reducible apply Chg.step (chg_reap _ _))
    | (with_reducible apply Chg.foldl)
    | (with_reducible apply Chg.orElse_getD)
    | (with_reducible apply Chg.getD)
    | (with_reducible apply Chg.foldl_snd)
    | intro _
    | split
    | dsimp only

theorem chg_settleGroup (s : State) (a b) : Chg [.regs, .cores, .launches, .dbg] s (State.settleGroup s a b) := by
  unfold State.settleGroup
  repeat' first
    | ((with_reducible apply subF_of); rfl)
    | (with_reducible apply Chg.refl)
    | (with_reducible assumption)
    | (with_reducible apply Chg.step (chg_endGroup _ _))
    | (with_reducible apply Chg.step (chg_setGroup _ _ _))
    | (with_reducible apply Chg.foldl)
    | (with_reducible apply Chg.orElse_getD)
    | (with_reducible apply Chg.getD)
    | (with_reducible apply Chg.foldl_snd)
    | intro _
    | split

end Sys2Proof.Machine
end

