-- ==== Sys2Proof/Laws/ChgControl.lean ====
section
/-! SUPPORT. What each operation of Machine/Control.lean may change. -/

namespace Sys2Proof.Machine

theorem chg_arrive (s : State) (a) : Chg [.cores] s (State.arrive s a) := by
  unfold State.arrive
  repeat' first
    | ((with_reducible apply subF_of); rfl)
    | (with_reducible apply Chg.refl)
    | (with_reducible assumption)
    | (with_reducible apply Chg.step (chg_dropL1 _ _))
    | (with_reducible apply Chg.step (chg_modGroup _ _ _))
    | (with_reducible apply Chg.foldl)
    | (with_reducible apply Chg.orElse_getD)
    | (with_reducible apply Chg.getD)
    | (with_reducible apply Chg.foldl_snd)
    | intro _
    | split
    | dsimp only
    | ((with_reducible refine Chg.mk rfl ?_ rfl rfl rfl rfl ?_); · (intro x hx; cases x <;> first | rfl | exact ⟨rfl, rfl⟩ | exact absurd (by decide) hx))

theorem chg_barrier (s : State) (a b c) : Chg [.free, .out, .regs, .cores, .launches, .parts, .dies, .chans] s (State.barrier s a b c) := by
  unfold State.barrier
  repeat' first
    | ((with_reducible apply subF_of); rfl)
    | (with_reducible apply Chg.refl)
    | (with_reducible assumption)
    | (with_reducible apply Chg.step (chg_arrive _ _))
    | (with_reducible apply Chg.step (chg_issued _ _ _))
    | (with_reducible apply Chg.step (chg_park _ _ _ _))
    | (with_reducible apply Chg.step (chg_retire _ _ _))
    | (with_reducible apply chg_issue)
    | (with_reducible apply Chg.foldl)
    | (with_reducible apply Chg.orElse_getD)
    | (with_reducible apply Chg.getD)
    | (with_reducible apply Chg.foldl_snd)
    | intro _
    | split
    | dsimp only
    | ((with_reducible refine Chg.mk rfl ?_ rfl rfl rfl rfl ?_); · (intro x hx; cases x <;> first | rfl | exact ⟨rfl, rfl⟩ | exact absurd (by decide) hx))

theorem chg_openBarrier (s : State) (a b) : Chg [.cores] s (State.openBarrier s a b) := by
  unfold State.openBarrier
  repeat' first
    | ((with_reducible apply subF_of); rfl)
    | (with_reducible apply Chg.refl)
    | (with_reducible assumption)
    | (with_reducible apply Chg.step (chg_arrive _ _))
    | (with_reducible apply Chg.step (chg_dropL1 _ _))
    | (with_reducible apply Chg.step (chg_wake _ _))
    | (with_reducible apply Chg.foldl)
    | (with_reducible apply Chg.orElse_getD)
    | (with_reducible apply Chg.getD)
    | (with_reducible apply Chg.foldl_snd)
    | intro _
    | split
    | dsimp only
    | ((with_reducible refine Chg.mk rfl ?_ rfl rfl rfl rfl ?_); · (intro x hx; cases x <;> first | rfl | exact ⟨rfl, rfl⟩ | exact absurd (by decide) hx))

theorem chg_rowCtlNop (s : State) (a b) : Chg [.free, .out, .regs, .cores, .launches, .parts, .dies, .chans] s (State.rowCtlNop s a b) := by
  unfold State.rowCtlNop
  repeat' first
    | ((with_reducible apply subF_of); rfl)
    | (with_reducible apply subF.refl)
    | (with_reducible apply Chg.refl)
    | (with_reducible assumption)
    | (with_reducible apply Chg.step (chg_issueAlu _ _ _ _))
    | intro _
    | split
    | dsimp only

theorem chg_rowCtlExit (s : State) (a b) : Chg [.free, .out, .regs, .cores, .launches, .parts, .dies, .chans, .dbg] s (State.rowCtlExit s a b) := by
  unfold State.rowCtlExit
  repeat' first
    | ((with_reducible apply subF_of); rfl)
    | (with_reducible apply subF.refl)
    | (with_reducible apply Chg.refl)
    | (with_reducible assumption)
    | (with_reducible apply Chg.step (chg_issued _ _ _))
    | (with_reducible apply Chg.step (chg_settleGroup _ _ _))
    | (with_reducible apply chg_issue)
    | (with_reducible apply Chg.foldl)
    | (with_reducible apply Chg.orElse_getD)
    | (with_reducible apply Chg.getD)
    | (with_reducible apply Chg.foldl_snd)
    | intro _
    | split
    | dsimp only

theorem chg_rowBarBlock (s : State) (a b) : Chg [.free, .out, .regs, .cores, .launches, .parts, .dies, .chans] s (State.rowBarBlock s a b) := by
  unfold State.rowBarBlock
  repeat' first
    | ((with_reducible apply subF_of); rfl)
    | (with_reducible apply subF.refl)
    | (with_reducible apply Chg.refl)
    | (with_reducible assumption)
    | (with_reducible apply Chg.step (chg_barrier _ _ _ _))
    | intro _
    | split
    | dsimp only

theorem chg_rowBarCluster (s : State) (a b) : Chg [.free, .out, .regs, .cores, .launches, .parts, .dies, .chans] s (State.rowBarCluster s a b) := by
  unfold State.rowBarCluster
  repeat' first
    | ((with_reducible apply subF_of); rfl)
    | (with_reducible apply subF.refl)
    | (with_reducible apply Chg.refl)
    | (with_reducible assumption)
    | (with_reducible apply Chg.step (chg_barrier _ _ _ _))
    | intro _
    | split
    | dsimp only

theorem chg_rowCtlJmp (s : State) (a b) : Chg [.free, .out, .regs, .cores, .launches, .parts, .dies, .chans] s (State.rowCtlJmp s a b) := by
  unfold State.rowCtlJmp
  repeat' first
    | ((with_reducible apply subF_of); rfl)
    | (with_reducible apply subF.refl)
    | (with_reducible apply Chg.refl)
    | (with_reducible assumption)
    | (with_reducible apply Chg.step (chg_issued _ _ _))
    | (with_reducible apply Chg.step (chg_raise _ _ _ _ _ _ _))
    | (with_reducible apply Chg.step (chg_setGroup _ _ _))
    | (with_reducible apply chg_issue)
    | (with_reducible apply Chg.foldl)
    | (with_reducible apply Chg.orElse_getD)
    | (with_reducible apply Chg.getD)
    | (with_reducible apply Chg.foldl_snd)
    | intro _
    | split
    | dsimp only

theorem chg_rowFence (s : State) (a b) : Chg [.free, .out, .regs, .cores, .launches, .parts, .dies, .chans] s (State.rowFence s a b) := by
  unfold State.rowFence
  repeat' first
    | ((with_reducible apply subF_of); rfl)
    | (with_reducible apply subF.refl)
    | (with_reducible apply Chg.refl)
    | (with_reducible assumption)
    | (with_reducible apply Chg.step (chg_issued _ _ _))
    | (with_reducible apply Chg.step (chg_park _ _ _ _))
    | (with_reducible apply Chg.step (chg_retire _ _ _))
    | (with_reducible apply chg_issue)
    | (with_reducible apply Chg.foldl)
    | (with_reducible apply Chg.orElse_getD)
    | (with_reducible apply Chg.getD)
    | (with_reducible apply Chg.foldl_snd)
    | intro _
    | split
    | dsimp only
    | ((with_reducible refine Chg.mk rfl ?_ rfl rfl rfl rfl ?_); · (intro x hx; cases x <;> first | rfl | exact ⟨rfl, rfl⟩ | exact absurd (by decide) hx))

theorem chg_rowCtlRsr (s : State) (a b) : Chg [.free, .out, .regs, .cores, .launches, .parts, .dies, .chans] s (State.rowCtlRsr s a b) := by
  unfold State.rowCtlRsr
  repeat' first
    | ((with_reducible apply subF_of); rfl)
    | (with_reducible apply subF.refl)
    | (with_reducible apply Chg.refl)
    | (with_reducible assumption)
    | (with_reducible apply Chg.step (chg_issueAlu _ _ _ _))
    | intro _
    | split
    | dsimp only

theorem chg_rowBr (s : State) (a b) : Chg [.free, .out, .regs, .cores, .launches, .parts, .dies, .chans] s (State.rowBr s a b) := by
  unfold State.rowBr
  repeat' first
    | ((with_reducible apply subF_of); rfl)
    | (with_reducible apply subF.refl)
    | (with_reducible apply Chg.refl)
    | (with_reducible assumption)
    | (with_reducible apply Chg.step (chg_issued _ _ _))
    | (with_reducible apply Chg.step (chg_raise _ _ _ _ _ _ _))
    | (with_reducible apply Chg.step (chg_retire _ _ _))
    | (with_reducible apply Chg.step (chg_setGroup _ _ _))
    | (with_reducible apply chg_issue)
    | (with_reducible apply Chg.foldl)
    | (with_reducible apply Chg.orElse_getD)
    | (with_reducible apply Chg.getD)
    | (with_reducible apply Chg.foldl_snd)
    | intro _
    | split
    | dsimp only

theorem chg_rowBrLink (s : State) (a b) : Chg [.free, .out, .regs, .cores, .launches, .parts, .dies, .chans] s (State.rowBrLink s a b) := by
  unfold State.rowBrLink
  repeat' first
    | ((with_reducible apply subF_of); rfl)
    | (with_reducible apply subF.refl)
    | (with_reducible apply Chg.refl)
    | (with_reducible assumption)
    | (with_reducible apply Chg.step (chg_issued _ _ _))
    | (with_reducible apply Chg.step (chg_setGroup _ _ _))
    | (with_reducible apply chg_issue)
    | (with_reducible apply Chg.foldl)
    | (with_reducible apply Chg.orElse_getD)
    | (with_reducible apply Chg.getD)
    | (with_reducible apply Chg.foldl_snd)
    | intro _
    | split
    | dsimp only

theorem chg_rowIllegalOpcode (s : State) (a b) : Chg [.free, .out, .regs, .cores, .launches, .parts, .dies, .chans] s (State.rowIllegalOpcode s a b) := by
  unfold State.rowIllegalOpcode
  repeat' first
    | ((with_reducible apply subF_of); rfl)
    | (with_reducible apply subF.refl)
    | (with_reducible apply Chg.refl)
    | (with_reducible assumption)
    | (with_reducible apply chg_issue)
    | (with_reducible apply Chg.foldl)
    | (with_reducible apply Chg.orElse_getD)
    | (with_reducible apply Chg.getD)
    | (with_reducible apply Chg.foldl_snd)
    | intro _
    | split
    | dsimp only

end Sys2Proof.Machine
end

