-- ==== Sys2Proof/Laws/ChgFabric.lean ====
section
/-! SUPPORT. What each operation of Machine/Fabric.lean may change. -/

namespace Sys2Proof.Machine

theorem chg_restartAlign (s : State) : Chg [.links] s (State.restartAlign s) := by
  unfold State.restartAlign
  repeat' first
    | ((with_reducible apply subF_of); rfl)
    | (with_reducible apply Chg.refl)
    | (with_reducible assumption)
    | (with_reducible apply Chg.foldl)
    | (with_reducible apply Chg.orElse_getD)
    | (with_reducible apply Chg.getD)
    | (with_reducible apply Chg.foldl_snd)
    | intro _
    | split
    | dsimp only
    | ((with_reducible refine Chg.mk rfl ?_ rfl rfl rfl rfl ?_); · (intro x hx; cases x <;> first | rfl | exact ⟨rfl, rfl⟩ | exact absurd (by decide) hx))

theorem chg_queueMsg (s : State) (a b) : Chg [.links] s (State.queueMsg s a b) := by
  unfold State.queueMsg
  repeat' first
    | ((with_reducible apply subF_of); rfl)
    | (with_reducible apply Chg.refl)
    | (with_reducible assumption)
    | (with_reducible apply Chg.step (chg_modLink _ _ _))

theorem chg_branch (s : State) (a b c d e f g) : Chg [.dies, .links] s (State.branch s a b c d e f g) := by
  unfold State.branch
  repeat' first
    | ((with_reducible apply subF_of); rfl)
    | (with_reducible apply Chg.refl)
    | (with_reducible assumption)
    | (with_reducible apply Chg.step (chg_modDie _ _ _))
    | (with_reducible apply Chg.step (chg_queueMsg _ _ _))
    | (with_reducible apply Chg.foldl)
    | (with_reducible apply Chg.orElse_getD)
    | (with_reducible apply Chg.getD)
    | (with_reducible apply Chg.foldl_snd)
    | intro _
    | split
    | dsimp only
    | ((with_reducible refine Chg.mk rfl ?_ rfl rfl rfl rfl ?_); · (intro x hx; cases x <;> first | rfl | exact ⟨rfl, rfl⟩ | exact absurd (by decide) hx))

theorem chg_replicate {s : State} {a b c} {v : State} (h : State.replicate s a b c = some v) : Chg [.dies, .links] s v := by
  unfold State.replicate at h
  repeat' first
    | ((with_reducible apply subF_of); rfl)
    | contradiction
    | (injection h with h; subst h)
    | (split at h)
    | (dsimp only at h)
    | (with_reducible apply Chg.refl)
    | (with_reducible assumption)
    | (with_reducible apply Chg.step (chg_branch _ _ _ _ _ _ _ _))
    | (with_reducible apply Chg.step (chg_modDie _ _ _))
    | (with_reducible apply Chg.foldl)
    | (with_reducible apply Chg.orElse_getD)
    | (with_reducible apply Chg.getD)
    | (with_reducible apply Chg.foldl_snd)
    | intro _
    | split
    | dsimp only
    | ((with_reducible refine Chg.mk rfl ?_ rfl rfl rfl rfl ?_); · (intro x hx; cases x <;> first | rfl | exact ⟨rfl, rfl⟩ | exact absurd (by decide) hx))

theorem chg_inject {s : State} {a b c} {v : State} (h : State.inject s a b c = some v) : Chg [.dies, .links] s v := by
  unfold State.inject at h
  repeat' first
    | ((with_reducible apply subF_of); rfl)
    | contradiction
    | (injection h with h; subst h)
    | (with_reducible apply Chg.step (chg_replicate h))
    | (split at h)
    | (dsimp only at h)
    | (with_reducible apply Chg.refl)
    | (with_reducible assumption)
    | (with_reducible apply Chg.step (chg_modDie _ _ _))
    | (with_reducible apply Chg.step (chg_queueMsg _ _ _))
    | (with_reducible (apply Chg.step (chg_replicate ?e)); case e => assumption)
    | (with_reducible apply Chg.foldl)
    | (with_reducible apply Chg.orElse_getD)
    | (with_reducible apply Chg.getD)
    | (with_reducible apply Chg.foldl_snd)
    | intro _
    | split
    | dsimp only
    | ((with_reducible refine Chg.mk rfl ?_ rfl rfl rfl rfl ?_); · (intro x hx; cases x <;> first | rfl | exact ⟨rfl, rfl⟩ | exact absurd (by decide) hx))

theorem chg_sendReq (s : State) (a b c) : Chg [.dies, .links] s (State.sendReq s a b c).2 := by
  unfold State.sendReq
  repeat' first
    | ((with_reducible apply subF_of); rfl)
    | (with_reducible apply Chg.refl)
    | (with_reducible assumption)
    | (with_reducible apply Chg.step (chg_modDie _ _ _))
    | (with_reducible (apply Chg.step (chg_inject ?e)); case e => assumption)
    | (with_reducible apply Chg.foldl)
    | (with_reducible apply Chg.orElse_getD)
    | (with_reducible apply Chg.getD)
    | (with_reducible apply Chg.foldl_snd)
    | intro _
    | split
    | dsimp only
    | ((with_reducible refine Chg.mk rfl ?_ rfl rfl rfl rfl ?_); · (intro x hx; cases x <;> first | rfl | exact ⟨rfl, rfl⟩ | exact absurd (by decide) hx))

theorem chg_raiseLate (s : State) (a b c d e f) : Chg [.regs, .cores, .launches] s (State.raiseLate s a b c d e f) := by
  unfold State.raiseLate
  repeat' first
    | ((with_reducible apply subF_of); rfl)
    | (with_reducible apply Chg.refl)
    | (with_reducible assumption)
    | (with_reducible apply Chg.step (chg_failLaunch _ _ _))
    | (with_reducible apply Chg.step (chg_recordExc _ _ _ _ _ _ _ _))
    | (with_reducible apply Chg.step (chg_setGroup _ _ _))
    | (with_reducible apply Chg.foldl)
    | (with_reducible apply Chg.orElse_getD)
    | (with_reducible apply Chg.getD)
    | (with_reducible apply Chg.foldl_snd)
    | intro _
    | split
    | dsimp only
    | ((with_reducible refine Chg.mk rfl ?_ rfl rfl rfl rfl ?_); · (intro x hx; cases x <;> first | rfl | exact ⟨rfl, rfl⟩ | exact absurd (by decide) hx))

theorem chg_wakeAll (s : State) (a b) : Chg [.cores] s (State.wakeAll s a b) := by
  unfold State.wakeAll
  repeat' first
    | ((with_reducible apply subF_of); rfl)
    | (with_reducible apply Chg.refl)
    | (with_reducible assumption)
    | (with_reducible apply Chg.step (chg_wake _ _))
    | (with_reducible apply Chg.foldl)
    | (with_reducible apply Chg.orElse_getD)
    | (with_reducible apply Chg.getD)
    | (with_reducible apply Chg.foldl_snd)
    | intro _
    | split
    | dsimp only
    | ((with_reducible refine Chg.mk rfl ?_ rfl rfl rfl rfl ?_); · (intro x hx; cases x <;> first | rfl | exact ⟨rfl, rfl⟩ | exact absurd (by decide) hx))

theorem chg_wakeRemote (s : State) (a) : Chg [.cores] s (State.wakeRemote s a) := by
  unfold State.wakeRemote
  repeat' first
    | ((with_reducible apply subF_of); rfl)
    | (with_reducible apply Chg.refl)
    | (with_reducible assumption)
    | (with_reducible apply Chg.step (chg_wakeAll _ _ _))
    | (with_reducible apply Chg.foldl)
    | (with_reducible apply Chg.orElse_getD)
    | (with_reducible apply Chg.getD)
    | (with_reducible apply Chg.foldl_snd)
    | intro _

theorem chg_setColl (s : State) (a b c) : Chg [.parts] s (State.setColl s a b c) := by
  unfold State.setColl
  repeat' first
    | ((with_reducible apply subF_of); rfl)
    | (with_reducible apply Chg.refl)
    | (with_reducible assumption)
    | (with_reducible apply Chg.step (chg_modPart _ _ _))

theorem chg_sendOuts (s : State) (a b) : Chg [.parts, .dies, .links] s (State.sendOuts s a b) := by
  unfold State.sendOuts
  repeat' first
    | ((with_reducible apply subF_of); rfl)
    | (with_reducible apply Chg.refl)
    | (with_reducible assumption)
    | (with_reducible apply Chg.step (chg_sendReq _ _ _ _))
    | (with_reducible (apply Chg.step (Chg.snd (chg_sendReq _ _ _ _) ?e)); case e => assumption)
    | (with_reducible apply Chg.step (chg_setColl _ _ _ _))
    | (with_reducible apply Chg.foldl)
    | (with_reducible apply Chg.orElse_getD)
    | (with_reducible apply Chg.getD)
    | (with_reducible apply Chg.foldl_snd)
    | intro _
    | split
    | dsimp only
    | ((with_reducible refine Chg.mk rfl ?_ rfl rfl rfl rfl ?_); · (intro x hx; cases x <;> first | rfl | exact ⟨rfl, rfl⟩ | exact absurd (by decide) hx))

theorem chg_pumpOuts (s : State) (a) : Chg [.parts, .dies, .links] s (State.pumpOuts s a) := by
  unfold State.pumpOuts
  repeat' first
    | ((with_reducible apply subF_of); rfl)
    | (with_reducible apply Chg.refl)
    | (with_reducible assumption)
    | (with_reducible apply Chg.step (chg_sendOuts _ _ _))
    | (with_reducible apply Chg.foldl)
    | (with_reducible apply Chg.orElse_getD)
    | (with_reducible apply Chg.getD)
    | (with_reducible apply Chg.foldl_snd)
    | intro _

theorem chg_dropReq (s : State) (a b) : Chg [.cores, .parts, .dies, .links] s (State.dropReq s a b) := by
  unfold State.dropReq
  repeat' first
    | ((with_reducible apply subF_of); rfl)
    | (with_reducible apply Chg.refl)
    | (with_reducible assumption)
    | (with_reducible apply Chg.step (chg_modDie _ _ _))
    | (with_reducible apply Chg.step (chg_pumpOuts _ _))
    | (with_reducible apply Chg.step (chg_wakeRemote _ _))

theorem chg_markCq (s : State) (a b c) : Chg [.launches] s (State.markCq s a b c) := by
  unfold State.markCq
  repeat' first
    | ((with_reducible apply subF_of); rfl)
    | (with_reducible apply Chg.refl)
    | (with_reducible assumption)
    | (with_reducible apply Chg.step (chg_modLaunch _ _ _))

theorem chg_refuseLanes (s : State) (a b) : Chg [.regs, .cores, .launches, .dies] s (State.refuseLanes s a b) := by
  unfold State.refuseLanes
  repeat' first
    | ((with_reducible apply subF_of); rfl)
    | (with_reducible apply Chg.refl)
    | (with_reducible assumption)
    | (with_reducible apply Chg.step (chg_modDie _ _ _))
    | (with_reducible apply Chg.step (chg_modLaunch _ _ _))
    | (with_reducible apply Chg.step (chg_raiseLate _ _ _ _ _ _ _))
    | (with_reducible apply Chg.foldl)
    | (with_reducible apply Chg.orElse_getD)
    | (with_reducible apply Chg.getD)
    | (with_reducible apply Chg.foldl_snd)
    | intro _
    | split
    | dsimp only
    | ((with_reducible refine Chg.mk rfl ?_ rfl rfl rfl rfl ?_); · (intro x hx; cases x <;> first | rfl | exact ⟨rfl, rfl⟩ | exact absurd (by decide) hx))

theorem chg_refuseLoad (s : State) (a) : Chg [.regs, .cores, .launches] s (State.refuseLoad s a) := by
  unfold State.refuseLoad
  repeat' first
    | ((with_reducible apply subF_of); rfl)
    | (with_reducible apply Chg.refl)
    | (with_reducible assumption)
    | (with_reducible apply Chg.step (chg_modCore _ _ _))
    | (with_reducible apply Chg.step (chg_raiseLate _ _ _ _ _ _ _))
    | (with_reducible apply Chg.foldl)
    | (with_reducible apply Chg.orElse_getD)
    | (with_reducible apply Chg.getD)
    | (with_reducible apply Chg.foldl_snd)
    | intro _
    | split
    | dsimp only
    | ((with_reducible refine Chg.mk rfl ?_ rfl rfl rfl rfl ?_); · (intro x hx; cases x <;> first | rfl | exact ⟨rfl, rfl⟩ | exact absurd (by decide) hx))

theorem chg_refuse (s : State) (a) : Chg [.regs, .cores, .launches, .dies] s (State.refuse s a) := by
  unfold State.refuse
  repeat' first
    | ((with_reducible apply subF_of); rfl)
    | (with_reducible apply Chg.refl)
    | (with_reducible assumption)
    | (with_reducible apply Chg.step (chg_failLaunch _ _ _))
    | (with_reducible apply Chg.step (chg_findFail _ _ _))
    | (with_reducible apply Chg.step (chg_markCq _ _ _ _))
    | (with_reducible apply Chg.step (chg_refuseLanes _ _ _))
    | (with_reducible apply Chg.step (chg_refuseLoad _ _))
    | (with_reducible apply Chg.foldl)
    | (with_reducible apply Chg.orElse_getD)
    | (with_reducible apply Chg.getD)
    | (with_reducible apply Chg.foldl_snd)
    | intro _
    | split
    | dsimp only
    | ((with_reducible refine Chg.mk rfl ?_ rfl rfl rfl rfl ?_); · (intro x hx; cases x <;> first | rfl | exact ⟨rfl, rfl⟩ | exact absurd (by decide) hx))

theorem chg_flushFinals (s : State) (a) : Chg [.regs, .cores, .launches, .dies, .links] s (State.flushFinals s a) := by
  unfold State.flushFinals
  repeat' first
    | ((with_reducible apply subF_of); rfl)
    | (with_reducible apply Chg.refl)
    | (with_reducible assumption)
    | (with_reducible apply Chg.step (chg_modLaunch _ _ _))
    | (with_reducible apply Chg.step (chg_refuse _ _))
    | (with_reducible apply Chg.step (chg_sendReq _ _ _ _))
    | (with_reducible (apply Chg.step (Chg.snd (chg_sendReq _ _ _ _) ?e)); case e => assumption)
    | (with_reducible apply Chg.foldl)
    | (with_reducible apply Chg.orElse_getD)
    | (with_reducible apply Chg.getD)
    | (with_reducible apply Chg.foldl_snd)
    | intro _
    | split
    | dsimp only
    | ((with_reducible refine Chg.mk rfl ?_ rfl rfl rfl rfl ?_); · (intro x hx; cases x <;> first | rfl | exact ⟨rfl, rfl⟩ | exact absurd (by decide) hx))

theorem chg_flushAll (s : State) : Chg [.regs, .cores, .launches, .dies, .links] s (State.flushAll s) := by
  unfold State.flushAll
  repeat' first
    | ((with_reducible apply subF_of); rfl)
    | (with_reducible apply Chg.refl)
    | (with_reducible assumption)
    | (with_reducible apply Chg.step (chg_flushFinals _ _))
    | (with_reducible apply Chg.foldl)
    | (with_reducible apply Chg.orElse_getD)
    | (with_reducible apply Chg.getD)
    | (with_reducible apply Chg.foldl_snd)
    | intro _
    | split
    | dsimp only
    | ((with_reducible refine Chg.mk rfl ?_ rfl rfl rfl rfl ?_); · (intro x hx; cases x <;> first | rfl | exact ⟨rfl, rfl⟩ | exact absurd (by decide) hx))

end Sys2Proof.Machine
end

