-- ==== Sys2Proof/Laws/ChgSync.lean ====
section
/-! SUPPORT. What each operation of Machine/Sync.lean may change. -/

namespace Sys2Proof.Machine

theorem chg_setSem (s : State) (a b c) : Chg [.parts] s (State.setSem s a b c) := by
  unfold State.setSem
  repeat' first
    | ((with_reducible apply subF_of); rfl)
    | (with_reducible apply Chg.refl)
    | (with_reducible assumption)
    | (with_reducible apply Chg.step (chg_modPart _ _ _))

theorem chg_semJoin (s : State) (a b c) : Chg [.parts] s (State.semJoin s a b c) := by
  unfold State.semJoin
  repeat' first
    | ((with_reducible apply subF_of); rfl)
    | (with_reducible apply Chg.refl)
    | (with_reducible assumption)
    | (with_reducible apply Chg.step (chg_setSem _ _ _ _))
    | (with_reducible apply Chg.foldl)
    | (with_reducible apply Chg.orElse_getD)
    | (with_reducible apply Chg.getD)
    | (with_reducible apply Chg.foldl_snd)
    | intro _
    | split
    | dsimp only

theorem chg_semLeave (s : State) (a b) : Chg [.parts] s (State.semLeave s a b) := by
  unfold State.semLeave
  repeat' first
    | ((with_reducible apply subF_of); rfl)
    | (with_reducible apply Chg.refl)
    | (with_reducible assumption)
    | (with_reducible apply Chg.step (chg_modPart _ _ _))

theorem chg_semTake (s : State) (a b c) : Chg [.launches, .parts] s (State.semTake s a b c) := by
  unfold State.semTake
  repeat' first
    | ((with_reducible apply subF_of); rfl)
    | (with_reducible apply Chg.refl)
    | (with_reducible assumption)
    | (with_reducible apply Chg.step (chg_modLaunch _ _ _))
    | (with_reducible apply Chg.step (chg_setSem _ _ _ _))
    | (with_reducible apply Chg.foldl)
    | (with_reducible apply Chg.orElse_getD)
    | (with_reducible apply Chg.getD)
    | (with_reducible apply Chg.foldl_snd)
    | intro _
    | split
    | dsimp only
    | ((with_reducible refine Chg.mk rfl ?_ rfl rfl rfl rfl ?_); · (intro x hx; cases x <;> first | rfl | exact ⟨rfl, rfl⟩ | exact absurd (by decide) hx))

theorem chg_semServe (s : State) (a b c) : Chg [.launches, .parts] s (State.semServe s a b c) := by
  induction c generalizing s b with
  | zero => exact Chg.refl _ _
  | succ n ih =>
    unfold State.semServe
    repeat' first
      | ((with_reducible apply subF_of); rfl)
      | (with_reducible apply Chg.refl)
      | (with_reducible assumption)
      | (with_reducible apply Chg.step (chg_semJoin _ _ _ _))
      | (with_reducible apply Chg.step (chg_semLeave _ _ _))
      | (with_reducible apply Chg.step (chg_semTake _ _ _ _))
      | (with_reducible apply Chg.step (ih ..))
      | (with_reducible apply Chg.foldl)
      | (with_reducible apply Chg.orElse_getD)
      | (with_reducible apply Chg.getD)
      | (with_reducible apply Chg.foldl_snd)
      | intro _
      | split
      | dsimp only

theorem chg_semRelease (s : State) (a b c) : Chg [.launches, .parts] s (State.semRelease s a b c) := by
  unfold State.semRelease
  repeat' first
    | ((with_reducible apply subF_of); rfl)
    | (with_reducible apply Chg.refl)
    | (with_reducible assumption)
    | (with_reducible apply Chg.step (chg_semServe _ _ _ _))
    | (with_reducible apply Chg.step (chg_setSem _ _ _ _))

theorem chg_semSet (s : State) (a b c) : Chg [.launches, .parts] s (State.semSet s a b c) := by
  unfold State.semSet
  repeat' first
    | ((with_reducible apply subF_of); rfl)
    | (with_reducible apply Chg.refl)
    | (with_reducible assumption)
    | (with_reducible apply Chg.step (chg_semServe _ _ _ _))
    | (with_reducible apply Chg.step (chg_setSem _ _ _ _))

theorem chg_semBegin (s : State) (a b c) : Chg [.launches, .parts] s (State.semBegin s a b c) := by
  unfold State.semBegin
  repeat' first
    | ((with_reducible apply subF_of); rfl)
    | (with_reducible apply Chg.refl)
    | (with_reducible assumption)
    | (with_reducible apply Chg.step (chg_modLaunch _ _ _))
    | (with_reducible apply Chg.step (chg_semJoin _ _ _ _))
    | (with_reducible apply Chg.step (chg_semServe _ _ _ _))
    | (with_reducible apply Chg.foldl)
    | (with_reducible apply Chg.orElse_getD)
    | (with_reducible apply Chg.getD)
    | (with_reducible apply Chg.foldl_snd)
    | intro _
    | split
    | dsimp only
    | ((with_reducible refine Chg.mk rfl ?_ rfl rfl rfl rfl ?_); · (intro x hx; cases x <;> first | rfl | exact ⟨rfl, rfl⟩ | exact absurd (by decide) hx))

theorem chg_semReturn (s : State) (a b) : Chg [.launches, .parts] s (State.semReturn s a b) := by
  unfold State.semReturn
  repeat' first
    | ((with_reducible apply subF_of); rfl)
    | (with_reducible apply Chg.refl)
    | (with_reducible assumption)
    | (with_reducible apply Chg.step (chg_modLaunch _ _ _))
    | (with_reducible apply Chg.step (chg_semRelease _ _ _ _))
    | (with_reducible apply Chg.foldl)
    | (with_reducible apply Chg.orElse_getD)
    | (with_reducible apply Chg.getD)
    | (with_reducible apply Chg.foldl_snd)
    | intro _
    | split

theorem chg_eventWord (s : State) (a b c) : Chg [.free, .parts] s (State.eventWord s a b c).2 := by
  unfold State.eventWord
  repeat' first
    | ((with_reducible apply subF_of); rfl)
    | (with_reducible apply Chg.refl)
    | (with_reducible assumption)
    | (with_reducible apply Chg.step (chg_transl _ _ _ _ _))
    | (with_reducible (apply Chg.step (Chg.snd (chg_transl _ _ _ _ _) ?e)); case e => assumption)
    | (with_reducible apply Chg.foldl)
    | (with_reducible apply Chg.orElse_getD)
    | (with_reducible apply Chg.getD)
    | (with_reducible apply Chg.foldl_snd)
    | intro _
    | split
    | dsimp only
    | ((with_reducible refine Chg.mk rfl ?_ rfl rfl rfl rfl ?_); · (intro x hx; cases x <;> first | rfl | exact ⟨rfl, rfl⟩ | exact absurd (by decide) hx))

theorem chg_eventMax (s : State) (a b c) : Chg [.free, .mem, .poison, .cores, .launches, .dies, .chans] s (State.eventMax s a b c) := by
  unfold State.eventMax
  repeat' first
    | ((with_reducible apply subF_of); rfl)
    | (with_reducible apply Chg.refl)
    | (with_reducible assumption)
    | (with_reducible apply Chg.step (chg_l2Touch _ _ _ _ _ _ _))
    | (with_reducible apply Chg.step (chg_writeMem _ _ _))

theorem chg_setStageChan (s : State) (a b c) : Chg [.parts] s (State.setStageChan s a b c) := by
  unfold State.setStageChan
  repeat' first
    | ((with_reducible apply subF_of); rfl)
    | (with_reducible apply Chg.refl)
    | (with_reducible assumption)
    | (with_reducible apply Chg.step (chg_modPart _ _ _))

theorem chg_pushOne {s : State} {a b c d e} {v : State} (h : State.pushOne s a b c d e = some v) : Chg [.launches, .parts] s v := by
  unfold State.pushOne at h
  repeat' first
    | ((with_reducible apply subF_of); rfl)
    | contradiction
    | (injection h with h; subst h)
    | (split at h)
    | (dsimp only at h)
    | (with_reducible apply Chg.refl)
    | (with_reducible assumption)
    | (with_reducible apply Chg.step (chg_modLaunch _ _ _))
    | (with_reducible apply Chg.step (chg_setStageChan _ _ _ _))
    | (with_reducible apply Chg.foldl)
    | (with_reducible apply Chg.orElse_getD)
    | (with_reducible apply Chg.getD)
    | (with_reducible apply Chg.foldl_snd)
    | intro _
    | split
    | dsimp only
    | ((with_reducible refine Chg.mk rfl ?_ rfl rfl rfl rfl ?_); · (intro x hx; cases x <;> first | rfl | exact ⟨rfl, rfl⟩ | exact absurd (by decide) hx))

theorem chg_pushAll (s : State) (a b c d) : Chg [.launches, .parts] s (State.pushAll s a b c d).2 := by
  induction d generalizing s with
  | nil => exact Chg.refl _ _
  | cons x l ih =>
    unfold State.pushAll
    repeat' first
      | ((with_reducible apply subF_of); rfl)
      | (with_reducible apply Chg.refl)
      | (with_reducible assumption)
      | (with_reducible apply Chg.step (ih ..))
      | (with_reducible (apply Chg.step (Chg.snd (ih ..) ?e)); case e => assumption)
      | (with_reducible (apply Chg.step (chg_pushOne ?e)); case e => assumption)
      | (with_reducible apply Chg.foldl)
      | (with_reducible apply Chg.orElse_getD)
      | (with_reducible apply Chg.getD)
      | (with_reducible apply Chg.foldl_snd)
      | intro _
      | split
      | (with_reducible apply Chg.foldl)
      | (with_reducible apply Chg.orElse_getD)
      | (with_reducible apply Chg.getD)
      | (with_reducible apply Chg.foldl_snd)
      | intro _
      | split
      | dsimp only
      | ((with_reducible refine Chg.mk rfl ?_ rfl rfl rfl rfl ?_); · (intro x hx; cases x <;> first | rfl | exact ⟨rfl, rfl⟩ | exact absurd (by decide) hx))

end Sys2Proof.Machine
end

