-- ==== Sys2Proof/Laws/ChgDigest.lean ====
section
/-! SUPPORT. What each operation of Machine/Digest.lean may change. -/

namespace Sys2Proof.Machine

theorem chg_foldRec (s : State) (a b c d) : Chg [.launches] s (State.foldRec s a b c d) := by
  unfold State.foldRec
  repeat' first
    | ((with_reducible apply subF_of); rfl)
    | (with_reducible apply Chg.refl)
    | (with_reducible assumption)
    | (with_reducible apply Chg.step (chg_setLaunch _ _ _))
    | (with_reducible apply Chg.foldl)
    | (with_reducible apply Chg.orElse_getD)
    | (with_reducible apply Chg.getD)
    | (with_reducible apply Chg.foldl_snd)
    | intro _
    | split
    | dsimp only
    | ((with_reducible refine Chg.mk rfl ?_ rfl rfl rfl rfl ?_); · (intro x hx; cases x <;> first | rfl | exact ⟨rfl, rfl⟩ | exact absurd (by decide) hx))

theorem chg_foldRecs (s : State) (a b c) : Chg [.launches] s (State.foldRecs s a b c) := by
  unfold State.foldRecs
  repeat' first
    | ((with_reducible apply subF_of); rfl)
    | (with_reducible apply Chg.refl)
    | (with_reducible assumption)
    | (with_reducible apply Chg.step (chg_foldRec _ _ _ _ _))
    | (with_reducible apply Chg.foldl)
    | (with_reducible apply Chg.orElse_getD)
    | (with_reducible apply Chg.getD)
    | (with_reducible apply Chg.foldl_snd)
    | intro _

end Sys2Proof.Machine
end

