-- ==== Sys2Proof/Laws/ChgMemLocal.lean ====
section
/-! SUPPORT. What each operation of Machine/MemLocal.lean may change. -/

namespace Sys2Proof.Machine

theorem chg_acquired (s : State) (a b) : Chg [.cores] s (State.acquired s a b) := by
  unfold State.acquired
  repeat' first
    | ((with_reducible apply subF_of); rfl)
    | (with_reducible apply Chg.refl)
    | (with_reducible assumption)
    | (with_reducible apply Chg.step (chg_dropL1 _ _))
    | (with_reducible apply Chg.foldl)
    | (with_reducible apply Chg.orElse_getD)
    | (with_reducible apply Chg.getD)
    | (with_reducible apply Chg.foldl_snd)
    | intro _
    | split

theorem chg_lsWrite (s : State) (a b c d) : Chg [.cores] s (State.lsWrite s a b c d) := by
  unfold State.lsWrite
  repeat' first
    | ((with_reducible apply subF_of); rfl)
    | (with_reducible apply Chg.refl)
    | (with_reducible assumption)
    | (with_reducible apply Chg.step (chg_modCore _ _ _))
    | (with_reducible apply Chg.foldl)
    | (with_reducible apply Chg.orElse_getD)
    | (with_reducible apply Chg.getD)
    | (with_reducible apply Chg.foldl_snd)
    | intro _
    | split

theorem chg_lsAtomic (s : State) (a b c d e f g) : Chg [.cores] s (State.lsAtomic s a b c d e f g).2 := by
  unfold State.lsAtomic
  repeat' first
    | ((with_reducible apply subF_of); rfl)
    | (with_reducible apply Chg.refl)
    | (with_reducible assumption)
    | (with_reducible apply Chg.step (chg_lsWrite _ _ _ _ _))
    | (with_reducible apply Chg.foldl)
    | (with_reducible apply Chg.orElse_getD)
    | (with_reducible apply Chg.getD)
    | (with_reducible apply Chg.foldl_snd)
    | intro _
    | split
    | dsimp only

theorem chg_track (s : State) (a b) : Chg [.cores] s (State.track s a b).2 := by
  unfold State.track
  repeat' first
    | ((with_reducible apply subF_of); rfl)
    | (with_reducible apply Chg.refl)
    | (with_reducible assumption)
    | (with_reducible apply Chg.step (chg_modCore _ _ _))

theorem chg_untrack (s : State) (a b) : Chg [.cores] s (State.untrack s a b) := by
  unfold State.untrack
  repeat' first
    | ((with_reducible apply subF_of); rfl)
    | (with_reducible apply Chg.refl)
    | (with_reducible assumption)
    | (with_reducible apply Chg.step (chg_modCore _ _ _))
    | (with_reducible apply Chg.step (chg_wakeAll _ _ _))

theorem chg_issuedLocal (s : State) (a b c d) : Chg [.regs, .cores, .launches] s (State.issuedLocal s a b c d) := by
  unfold State.issuedLocal
  repeat' first
    | ((with_reducible apply subF_of); rfl)
    | (with_reducible apply Chg.refl)
    | (with_reducible assumption)
    | (with_reducible apply Chg.step (chg_issued _ _ _))
    | (with_reducible apply Chg.step (chg_pmEvent _ _ _ _ _))
    | (with_reducible apply Chg.foldl)
    | (with_reducible apply Chg.orElse_getD)
    | (with_reducible apply Chg.getD)
    | (with_reducible apply Chg.foldl_snd)
    | intro _
    | split
    | dsimp only

theorem chg_access {L : List Fld} {s t : State} {g c w o k} (hs : subF [.regs, .cores] L) (hb0 : ∀ u, Chg L s u → Chg L s (k u)) (h : Chg L s t) : Chg L s (State.access t g c w o k) := by
  unfold State.access
  split
  · exact hb0 _ h
  · exact h
  · exact Chg.step (chg_park _ _ _ _) hs h

theorem chg_clusterIssue (s : State) (a b c d e f g h) : Chg [.free, .out, .regs, .cores, .launches, .parts, .dies, .chans] s (State.clusterIssue s a b c d e f g h) := by
  unfold State.clusterIssue
  repeat' first
    | ((with_reducible apply subF_of); rfl)
    | (with_reducible apply Chg.refl)
    | (with_reducible assumption)
    | (with_reducible apply Chg.step (chg_issued _ _ _))
    | (with_reducible apply Chg.step (chg_modCore _ _ _))
    | (with_reducible apply Chg.step (chg_park _ _ _ _))
    | (with_reducible apply Chg.step (chg_retire _ _ _))
    | (with_reducible apply subF.refl)
    | (with_reducible apply chg_access)
    | (with_reducible apply chg_issue)
    | (with_reducible apply chg_orRaise)
    | (with_reducible apply Chg.foldl)
    | (with_reducible apply Chg.orElse_getD)
    | (with_reducible apply Chg.getD)
    | (with_reducible apply Chg.foldl_snd)
    | intro _
    | split
    | dsimp only
    | ((with_reducible refine Chg.mk rfl ?_ rfl rfl rfl rfl ?_); · (intro x hx; cases x <;> first | rfl | exact ⟨rfl, rfl⟩ | exact absurd (by decide) hx))

theorem chg_serveLane (s : State) (a b) : Chg [.cores] s (State.serveLane s a b).2 := by
  unfold State.serveLane
  repeat' first
    | ((with_reducible apply subF_of); rfl)
    | (with_reducible apply Chg.refl)
    | (with_reducible assumption)
    | (with_reducible apply Chg.step (chg_lsAtomic _ _ _ _ _ _ _ _))
    | (with_reducible (apply Chg.step (Chg.snd (chg_lsAtomic _ _ _ _ _ _ _ _) ?e)); case e => assumption)
    | (with_reducible apply Chg.step (chg_lsWrite _ _ _ _ _))
    | (with_reducible apply Chg.foldl)
    | (with_reducible apply Chg.orElse_getD)
    | (with_reducible apply Chg.getD)
    | (with_reducible apply Chg.foldl_snd)
    | intro _
    | split
    | dsimp only
    | ((with_reducible refine Chg.mk rfl ?_ rfl rfl rfl rfl ?_); · (intro x hx; cases x <;> first | rfl | exact ⟨rfl, rfl⟩ | exact absurd (by decide) hx))

theorem chg_serveCluster (s : State) (a b) : Chg [.cores] s (State.serveCluster s a b) := by
  unfold State.serveCluster
  repeat' first
    | ((with_reducible apply subF_of); rfl)
    | (with_reducible apply Chg.refl)
    | (with_reducible assumption)
    | (with_reducible apply Chg.step (chg_acquired _ _ _))
    | (with_reducible apply Chg.step (chg_modCore _ _ _))
    | (with_reducible apply Chg.step (chg_serveLane _ _ _))
    | (with_reducible (apply Chg.step (Chg.snd (chg_serveLane _ _ _) ?e)); case e => assumption)
    | (with_reducible apply Chg.foldl)
    | (with_reducible apply Chg.orElse_getD)
    | (with_reducible apply Chg.getD)
    | (with_reducible apply Chg.foldl_snd)
    | intro _
    | split
    | dsimp only
    | ((with_reducible refine Chg.mk rfl ?_ rfl rfl rfl rfl ?_); · (intro x hx; cases x <;> first | rfl | exact ⟨rfl, rfl⟩ | exact absurd (by decide) hx))

theorem chg_giveResults (s : State) (a b c d e f g) : Chg [.cores] s (State.giveResults s a b c d e f g) := by
  unfold State.giveResults
  repeat' first
    | ((with_reducible apply subF_of); rfl)
    | (with_reducible apply Chg.refl)
    | (with_reducible assumption)
    | (with_reducible apply Chg.step (chg_setGroup _ _ _))
    | (with_reducible apply Chg.foldl)
    | (with_reducible apply Chg.orElse_getD)
    | (with_reducible apply Chg.getD)
    | (with_reducible apply Chg.foldl_snd)
    | intro _
    | split

theorem chg_clusterReturn (s : State) (a b) : Chg [.cores] s (State.clusterReturn s a b) := by
  unfold State.clusterReturn
  repeat' first
    | ((with_reducible apply subF_of); rfl)
    | (with_reducible apply Chg.refl)
    | (with_reducible assumption)
    | (with_reducible apply Chg.step (chg_giveResults _ _ _ _ _ _ _ _))
    | (with_reducible apply Chg.step (chg_modCore _ _ _))
    | (with_reducible apply Chg.step (chg_wakeAll _ _ _))
    | (with_reducible apply Chg.foldl)
    | (with_reducible apply Chg.orElse_getD)
    | (with_reducible apply Chg.getD)
    | (with_reducible apply Chg.foldl_snd)
    | intro _
    | split

theorem chg_rowLdLocal (s : State) (a b) : Chg [.free, .out, .regs, .cores, .launches, .parts, .dies, .chans] s (State.rowLdLocal s a b) := by
  unfold State.rowLdLocal
  repeat' first
    | ((with_reducible apply subF_of); rfl)
    | (with_reducible apply subF.refl)
    | (with_reducible apply Chg.refl)
    | (with_reducible assumption)
    | (with_reducible apply Chg.step (chg_issuedLocal _ _ _ _ _))
    | (with_reducible apply Chg.step (chg_retire _ _ _))
    | (with_reducible apply chg_access)
    | (with_reducible apply chg_issue)
    | (with_reducible apply chg_orRaise)
    | (with_reducible apply Chg.foldl)
    | (with_reducible apply Chg.orElse_getD)
    | (with_reducible apply Chg.getD)
    | (with_reducible apply Chg.foldl_snd)
    | intro _
    | split
    | dsimp only
    | ((with_reducible refine Chg.mk rfl ?_ rfl rfl rfl rfl ?_); · (intro x hx; cases x <;> first | rfl | exact ⟨rfl, rfl⟩ | exact absurd (by decide) hx))

theorem chg_rowStLocal (s : State) (a b) : Chg [.free, .out, .regs, .cores, .launches, .parts, .dies, .chans] s (State.rowStLocal s a b) := by
  unfold State.rowStLocal
  repeat' first
    | ((with_reducible apply subF_of); rfl)
    | (with_reducible apply subF.refl)
    | (with_reducible apply Chg.refl)
    | (with_reducible assumption)
    | (with_reducible apply Chg.step (chg_issuedLocal _ _ _ _ _))
    | (with_reducible apply Chg.step (chg_lsWrite _ _ _ _ _))
    | (with_reducible apply Chg.step (chg_retire _ _ _))
    | (with_reducible apply chg_access)
    | (with_reducible apply chg_issue)
    | (with_reducible apply chg_orRaise)
    | (with_reducible apply Chg.foldl)
    | (with_reducible apply Chg.orElse_getD)
    | (with_reducible apply Chg.getD)
    | (with_reducible apply Chg.foldl_snd)
    | intro _
    | split
    | dsimp only
    | ((with_reducible refine Chg.mk rfl ?_ rfl rfl rfl rfl ?_); · (intro x hx; cases x <;> first | rfl | exact ⟨rfl, rfl⟩ | exact absurd (by decide) hx))

theorem chg_rowRmwLocal (s : State) (a b) : Chg [.free, .out, .regs, .cores, .launches, .parts, .dies, .chans] s (State.rowRmwLocal s a b) := by
  unfold State.rowRmwLocal
  repeat' first
    | ((with_reducible apply subF_of); rfl)
    | (with_reducible apply subF.refl)
    | (with_reducible apply Chg.refl)
    | (with_reducible assumption)
    | (with_reducible apply Chg.step (chg_acquired _ _ _))
    | (with_reducible apply Chg.step (chg_issuedLocal _ _ _ _ _))
    | (with_reducible apply Chg.step (chg_lsAtomic _ _ _ _ _ _ _ _))
    | (with_reducible (apply Chg.step (Chg.snd (chg_lsAtomic _ _ _ _ _ _ _ _) ?e)); case e => assumption)
    | (with_reducible apply Chg.step (chg_modGroup _ _ _))
    | (with_reducible apply chg_access)
    | (with_reducible apply chg_issue)
    | (with_reducible apply chg_orRaise)
    | (with_reducible apply Chg.foldl)
    | (with_reducible apply Chg.orElse_getD)
    | (with_reducible apply Chg.getD)
    | (with_reducible apply Chg.foldl_snd)
    | intro _
    | split
    | dsimp only
    | ((with_reducible refine Chg.mk rfl ?_ rfl rfl rfl rfl ?_); · (intro x hx; cases x <;> first | rfl | exact ⟨rfl, rfl⟩ | exact absurd (by decide) hx))

theorem chg_rowLdCluster (s : State) (a b) : Chg [.free, .out, .regs, .cores, .launches, .parts, .dies, .chans] s (State.rowLdCluster s a b) := by
  unfold State.rowLdCluster
  repeat' first
    | ((with_reducible apply subF_of); rfl)
    | (with_reducible apply subF.refl)
    | (with_reducible apply Chg.refl)
    | (with_reducible assumption)
    | (with_reducible apply Chg.step (chg_clusterIssue _ _ _ _ _ _ _ _ _))
    | intro _
    | split
    | dsimp only

theorem chg_rowStCluster (s : State) (a b) : Chg [.free, .out, .regs, .cores, .launches, .parts, .dies, .chans] s (State.rowStCluster s a b) := by
  unfold State.rowStCluster
  repeat' first
    | ((with_reducible apply subF_of); rfl)
    | (with_reducible apply subF.refl)
    | (with_reducible apply Chg.refl)
    | (with_reducible assumption)
    | (with_reducible apply Chg.step (chg_clusterIssue _ _ _ _ _ _ _ _ _))
    | intro _
    | split
    | dsimp only

theorem chg_rowRmwCluster (s : State) (a b) : Chg [.free, .out, .regs, .cores, .launches, .parts, .dies, .chans] s (State.rowRmwCluster s a b) := by
  unfold State.rowRmwCluster
  repeat' first
    | ((with_reducible apply subF_of); rfl)
    | (with_reducible apply subF.refl)
    | (with_reducible apply Chg.refl)
    | (with_reducible assumption)
    | (with_reducible apply Chg.step (chg_clusterIssue _ _ _ _ _ _ _ _ _))
    | intro _
    | split
    | dsimp only

end Sys2Proof.Machine
end

