-- ==== Sys2Proof/Laws/ChgMemGlobal.lean ====
section
/-! SUPPORT. What each operation of Machine/MemGlobal.lean may change. -/

namespace Sys2Proof.Machine

theorem chg_translLanes (s : State) (a b c d e) : Chg [.free, .parts] s (State.translLanes s a b c d e).2 := by
  induction e generalizing s with
  | nil => exact Chg.refl _ _
  | cons x l ih =>
    unfold State.translLanes
    repeat' first
      | ((with_reducible apply subF_of); rfl)
      | (with_reducible apply Chg.refl)
      | (with_reducible assumption)
      | (with_reducible apply Chg.step (chg_transl _ _ _ _ _))
      | (with_reducible (apply Chg.step (Chg.snd (chg_transl _ _ _ _ _) ?e)); case e => assumption)
      | (with_reducible apply Chg.step (ih ..))
      | (with_reducible (apply Chg.step (Chg.snd (ih ..) ?e)); case e => assumption)
      | (with_reducible apply Chg.foldl)
      | (with_reducible apply Chg.orElse_getD)
      | (with_reducible apply Chg.getD)
      | (with_reducible apply Chg.foldl_snd)
      | intro _
      | split
      | (with_reducible apply Chg.foldl)
      | (with_reducible apply Chg.orElse_getD)
      | (with_reducible apply Chg.getD)
      | (with_reducible apply Chg.foldl_snd)
      | intro _
      | split
      | dsimp only
      | ((with_reducible refine Chg.mk rfl ?_ rfl rfl rfl rfl ?_); · (intro x hx; cases x <;> first | rfl | exact ⟨rfl, rfl⟩ | exact absurd (by decide) hx))

theorem chg_l1Update (s : State) (a b c) : Chg [.cores] s (State.l1Update s a b c) := by
  unfold State.l1Update
  repeat' first
    | ((with_reducible apply subF_of); rfl)
    | (with_reducible apply Chg.refl)
    | (with_reducible assumption)
    | (with_reducible apply Chg.step (chg_modCore _ _ _))

theorem chg_l1Fill (s : State) (a b c) : Chg [.free, .cores] s (State.l1Fill s a b c) := by
  unfold State.l1Fill
  repeat' first
    | ((with_reducible apply subF_of); rfl)
    | (with_reducible apply Chg.refl)
    | (with_reducible assumption)
    | (with_reducible apply Chg.step (chg_freeNat _))
    | (with_reducible (apply Chg.step (Chg.snd (chg_freeNat _) ?e)); case e => assumption)
    | (with_reducible apply Chg.step (chg_setCore _ _ _))
    | (with_reducible apply Chg.foldl)
    | (with_reducible apply Chg.orElse_getD)
    | (with_reducible apply Chg.getD)
    | (with_reducible apply Chg.foldl_snd)
    | intro _
    | split
    | dsimp only

theorem chg_claim (s : State) (a b) : Chg [.regs, .cores] s (State.claim s a b).2 := by
  unfold State.claim
  repeat' first
    | ((with_reducible apply subF_of); rfl)
    | (with_reducible apply Chg.refl)
    | (with_reducible assumption)
    | (with_reducible apply Chg.step (chg_modCore _ _ _))
    | (with_reducible apply Chg.step (chg_pmEvent _ _ _ _ _))
    | (with_reducible apply Chg.foldl)
    | (with_reducible apply Chg.orElse_getD)
    | (with_reducible apply Chg.getD)
    | (with_reducible apply Chg.foldl_snd)
    | intro _
    | split

theorem chg_claims (s : State) (a b c d e) : Chg [.regs, .cores] s (State.claims s a b c d e).2 := by
  unfold State.claims
  repeat' first
    | ((with_reducible apply subF_of); rfl)
    | (with_reducible apply Chg.refl)
    | (with_reducible assumption)
    | (with_reducible apply Chg.step (chg_claim _ _ _))
    | (with_reducible (apply Chg.step (Chg.snd (chg_claim _ _ _) ?e)); case e => assumption)
    | (with_reducible apply Chg.foldl)
    | (with_reducible apply Chg.orElse_getD)
    | (with_reducible apply Chg.getD)
    | (with_reducible apply Chg.foldl_snd)
    | intro _

theorem chg_touchLanes (s : State) (a b c d e f) : Chg [.free, .dies, .chans] s (State.touchLanes s a b c d e f) := by
  unfold State.touchLanes
  repeat' first
    | ((with_reducible apply subF_of); rfl)
    | (with_reducible apply Chg.refl)
    | (with_reducible assumption)
    | (with_reducible apply Chg.step (chg_l2Touch _ _ _ _ _ _ _))
    | (with_reducible apply Chg.foldl)
    | (with_reducible apply Chg.orElse_getD)
    | (with_reducible apply Chg.getD)
    | (with_reducible apply Chg.foldl_snd)
    | intro _
    | split
    | dsimp only
    | ((with_reducible refine Chg.mk rfl ?_ rfl rfl rfl rfl ?_); · (intro x hx; cases x <;> first | rfl | exact ⟨rfl, rfl⟩ | exact absurd (by decide) hx))

theorem chg_sendLoad (s : State) (a b c d e f g h) : Chg [.free, .cores, .dies, .chans] s (State.sendLoad s a b c d e f g h) := by
  unfold State.sendLoad
  repeat' first
    | ((with_reducible apply subF_of); rfl)
    | (with_reducible apply Chg.refl)
    | (with_reducible assumption)
    | (with_reducible apply Chg.step (chg_modCore _ _ _))
    | (with_reducible apply Chg.step (chg_retire _ _ _))
    | (with_reducible apply Chg.step (chg_touchLanes _ _ _ _ _ _ _))
    | (with_reducible apply Chg.step (chg_track _ _ _))
    | (with_reducible (apply Chg.step (Chg.snd (chg_track _ _ _) ?e)); case e => assumption)
    | (with_reducible apply Chg.foldl)
    | (with_reducible apply Chg.orElse_getD)
    | (with_reducible apply Chg.getD)
    | (with_reducible apply Chg.foldl_snd)
    | intro _
    | split
    | dsimp only
    | ((with_reducible refine Chg.mk rfl ?_ rfl rfl rfl rfl ?_); · (intro x hx; cases x <;> first | rfl | exact ⟨rfl, rfl⟩ | exact absurd (by decide) hx))

theorem chg_strictWait (s : State) (a b) : Chg [.regs, .cores] s (State.strictWait s a b) := by
  unfold State.strictWait
  repeat' first
    | ((with_reducible apply subF_of); rfl)
    | (with_reducible apply Chg.refl)
    | (with_reducible assumption)
    | (with_reducible apply Chg.step (chg_park _ _ _ _))
    | (with_reducible apply Chg.foldl)
    | (with_reducible apply Chg.orElse_getD)
    | (with_reducible apply Chg.getD)
    | (with_reducible apply Chg.foldl_snd)
    | intro _
    | split
    | dsimp only
    | ((with_reducible refine Chg.mk rfl ?_ rfl rfl rfl rfl ?_); · (intro x hx; cases x <;> first | rfl | exact ⟨rfl, rfl⟩ | exact absurd (by decide) hx))

theorem chg_loadGlobal (s : State) (a b c d e f) : Chg [.free, .regs, .cores, .launches, .dies, .chans] s (State.loadGlobal s a b c d e f) := by
  unfold State.loadGlobal
  repeat' first
    | ((with_reducible apply subF_of); rfl)
    | (with_reducible apply Chg.refl)
    | (with_reducible assumption)
    | (with_reducible apply Chg.step (chg_claims _ _ _ _ _ _))
    | (with_reducible (apply Chg.step (Chg.snd (chg_claims _ _ _ _ _ _) ?e)); case e => assumption)
    | (with_reducible apply Chg.step (chg_issued _ _ _))
    | (with_reducible apply Chg.step (chg_park _ _ _ _))
    | (with_reducible apply Chg.step (chg_pmEvent _ _ _ _ _))
    | (with_reducible apply Chg.step (chg_retire _ _ _))
    | (with_reducible apply Chg.step (chg_sendLoad _ _ _ _ _ _ _ _ _))
    | (with_reducible apply Chg.step (chg_strictWait _ _ _))
    | (with_reducible apply Chg.foldl)
    | (with_reducible apply Chg.orElse_getD)
    | (with_reducible apply Chg.getD)
    | (with_reducible apply Chg.foldl_snd)
    | intro _
    | split
    | dsimp only
    | ((with_reducible refine Chg.mk rfl ?_ rfl rfl rfl rfl ?_); · (intro x hx; cases x <;> first | rfl | exact ⟨rfl, rfl⟩ | exact absurd (by decide) hx))

theorem chg_bindReads (s : State) (a) : Chg [.free, .out] s (State.bindReads s a).2 := by
  induction a generalizing s with
  | nil => exact Chg.refl _ _
  | cons x l ih =>
    unfold State.bindReads
    repeat' first
      | ((with_reducible apply subF_of); rfl)
      | (with_reducible apply Chg.refl)
      | (with_reducible assumption)
      | (with_reducible apply Chg.step (chg_readAt _ _ _))
      | (with_reducible (apply Chg.step (Chg.snd (chg_readAt _ _ _) ?e)); case e => assumption)
      | (with_reducible apply Chg.step (ih ..))
      | (with_reducible (apply Chg.step (Chg.snd (ih ..) ?e)); case e => assumption)

theorem chg_allocLines (s : State) (a b) : Chg [.free, .cores] s (State.allocLines s a b) := by
  unfold State.allocLines
  repeat' first
    | ((with_reducible apply subF_of); rfl)
    | (with_reducible apply Chg.refl)
    | (with_reducible assumption)
    | (with_reducible apply Chg.step (chg_freeBit _))
    | (with_reducible (apply Chg.step (Chg.snd (chg_freeBit _) ?e)); case e => assumption)
    | (with_reducible apply Chg.step (chg_l1Fill _ _ _ _))
    | (with_reducible apply Chg.foldl)
    | (with_reducible apply Chg.orElse_getD)
    | (with_reducible apply Chg.getD)
    | (with_reducible apply Chg.foldl_snd)
    | intro _
    | split
    | dsimp only
    | ((with_reducible refine Chg.mk rfl ?_ rfl rfl rfl rfl ?_); · (intro x hx; cases x <;> first | rfl | exact ⟨rfl, rfl⟩ | exact absurd (by decide) hx))

theorem chg_endLoad (s : State) (a b c) : Chg [.cores] s (State.endLoad s a b c) := by
  unfold State.endLoad
  repeat' first
    | ((with_reducible apply subF_of); rfl)
    | (with_reducible apply Chg.refl)
    | (with_reducible assumption)
    | (with_reducible apply Chg.step (chg_modCore _ _ _))
    | (with_reducible apply Chg.step (chg_untrack _ _ _))
    | (with_reducible apply Chg.step (chg_wakeAll _ _ _))
    | (with_reducible apply Chg.foldl)
    | (with_reducible apply Chg.orElse_getD)
    | (with_reducible apply Chg.getD)
    | (with_reducible apply Chg.foldl_snd)
    | intro _
    | split

theorem chg_returnLoad (s : State) (a b) : Chg [.free, .out, .regs, .cores, .launches] s (State.returnLoad s a b) := by
  unfold State.returnLoad
  repeat' first
    | ((with_reducible apply subF_of); rfl)
    | (with_reducible apply Chg.refl)
    | (with_reducible assumption)
    | (with_reducible apply Chg.step (chg_acquired _ _ _))
    | (with_reducible apply Chg.step (chg_allocLines _ _ _))
    | (with_reducible apply Chg.step (chg_askHost _ _))
    | (with_reducible apply Chg.step (chg_bindReads _ _))
    | (with_reducible (apply Chg.step (Chg.snd (chg_bindReads _ _) ?e)); case e => assumption)
    | (with_reducible apply Chg.step (chg_endLoad _ _ _ _))
    | (with_reducible apply Chg.step (chg_giveResults _ _ _ _ _ _ _ _))
    | (with_reducible apply Chg.step (chg_raiseLate _ _ _ _ _ _ _))
    | (with_reducible apply Chg.step (chg_track _ _ _))
    | (with_reducible (apply Chg.step (Chg.snd (chg_track _ _ _) ?e)); case e => assumption)
    | (with_reducible apply Chg.foldl)
    | (with_reducible apply Chg.orElse_getD)
    | (with_reducible apply Chg.getD)
    | (with_reducible apply Chg.foldl_snd)
    | intro _
    | split
    | dsimp only
    | ((with_reducible refine Chg.mk rfl ?_ rfl rfl rfl rfl ?_); · (intro x hx; cases x <;> first | rfl | exact ⟨rfl, rfl⟩ | exact absurd (by decide) hx))

theorem chg_enterStore (s : State) (a b) : Chg [.cores] s (State.enterStore s a b) := by
  unfold State.enterStore
  repeat' first
    | ((with_reducible apply subF_of); rfl)
    | (with_reducible apply Chg.refl)
    | (with_reducible assumption)
    | (with_reducible apply Chg.step (chg_modCore _ _ _))

theorem chg_storeGlobal (s : State) (a b c d e f) : Chg [.regs, .cores, .launches, .parts] s (State.storeGlobal s a b c d e f) := by
  unfold State.storeGlobal
  repeat' first
    | ((with_reducible apply subF_of); rfl)
    | (with_reducible apply Chg.refl)
    | (with_reducible assumption)
    | (with_reducible apply Chg.step (chg_enterStore _ _ _))
    | (with_reducible apply Chg.step (chg_foldRecs _ _ _ _))
    | (with_reducible apply Chg.step (chg_issued _ _ _))
    | (with_reducible apply Chg.step (chg_modGroup _ _ _))
    | (with_reducible apply Chg.step (chg_modLaunch _ _ _))
    | (with_reducible apply Chg.step (chg_park _ _ _ _))
    | (with_reducible apply Chg.step (chg_pushAll _ _ _ _ _))
    | (with_reducible (apply Chg.step (Chg.snd (chg_pushAll _ _ _ _ _) ?e)); case e => assumption)
    | (with_reducible apply Chg.step (chg_retire _ _ _))
    | (with_reducible apply Chg.foldl)
    | (with_reducible apply Chg.orElse_getD)
    | (with_reducible apply Chg.getD)
    | (with_reducible apply Chg.foldl_snd)
    | intro _
    | split
    | dsimp only
    | ((with_reducible refine Chg.mk rfl ?_ rfl rfl rfl rfl ?_); · (intro x hx; cases x <;> first | rfl | exact ⟨rfl, rfl⟩ | exact absurd (by decide) hx))

theorem chg_resumePush (s : State) (a) : Chg [.cores, .launches, .parts] s (State.resumePush s a) := by
  unfold State.resumePush
  repeat' first
    | ((with_reducible apply subF_of); rfl)
    | (with_reducible apply Chg.refl)
    | (with_reducible assumption)
    | (with_reducible apply Chg.step (chg_modGroup _ _ _))
    | (with_reducible apply Chg.step (chg_pushAll _ _ _ _ _))
    | (with_reducible (apply Chg.step (Chg.snd (chg_pushAll _ _ _ _ _) ?e)); case e => assumption)
    | (with_reducible apply Chg.step (chg_wake _ _))
    | (with_reducible apply Chg.foldl)
    | (with_reducible apply Chg.orElse_getD)
    | (with_reducible apply Chg.getD)
    | (with_reducible apply Chg.foldl_snd)
    | intro _
    | split
    | dsimp only
    | ((with_reducible refine Chg.mk rfl ?_ rfl rfl rfl rfl ?_); · (intro x hx; cases x <;> first | rfl | exact ⟨rfl, rfl⟩ | exact absurd (by decide) hx))

theorem chg_sendBatch (s : State) (a b) : Chg [.regs, .cores, .launches, .dies, .links] s (State.sendBatch s a b) := by
  unfold State.sendBatch
  repeat' first
    | ((with_reducible apply subF_of); rfl)
    | (with_reducible apply Chg.refl)
    | (with_reducible assumption)
    | (with_reducible apply Chg.step (chg_modCore _ _ _))
    | (with_reducible apply Chg.step (chg_pmEvent _ _ _ _ _))
    | (with_reducible apply Chg.step (chg_refuse _ _))
    | (with_reducible apply Chg.step (chg_sendReq _ _ _ _))
    | (with_reducible (apply Chg.step (Chg.snd (chg_sendReq _ _ _ _) ?e)); case e => assumption)
    | (with_reducible apply Chg.foldl)
    | (with_reducible apply Chg.orElse_getD)
    | (with_reducible apply Chg.getD)
    | (with_reducible apply Chg.foldl_snd)
    | intro _
    | split
    | dsimp only
    | ((with_reducible refine Chg.mk rfl ?_ rfl rfl rfl rfl ?_); · (intro x hx; cases x <;> first | rfl | exact ⟨rfl, rfl⟩ | exact absurd (by decide) hx))

theorem chg_sendWrites (s : State) (a b c) : Chg [.regs, .cores, .launches, .dies, .links] s (State.sendWrites s a b c) := by
  unfold State.sendWrites
  repeat' first
    | ((with_reducible apply subF_of); rfl)
    | (with_reducible apply Chg.refl)
    | (with_reducible assumption)
    | (with_reducible apply Chg.step (chg_sendBatch _ _ _))
    | (with_reducible apply Chg.foldl)
    | (with_reducible apply Chg.orElse_getD)
    | (with_reducible apply Chg.getD)
    | (with_reducible apply Chg.foldl_snd)
    | intro _
    | split
    | dsimp only
    | ((with_reducible refine Chg.mk rfl ?_ rfl rfl rfl rfl ?_); · (intro x hx; cases x <;> first | rfl | exact ⟨rfl, rfl⟩ | exact absurd (by decide) hx))

theorem chg_drainStore (s : State) (a) : Chg [.regs, .cores, .launches, .dies, .links] s (State.drainStore s a) := by
  unfold State.drainStore
  repeat' first
    | ((with_reducible apply subF_of); rfl)
    | (with_reducible apply Chg.refl)
    | (with_reducible assumption)
    | (with_reducible apply Chg.step (chg_flushFinals _ _))
    | (with_reducible apply Chg.step (chg_l1Update _ _ _ _))
    | (with_reducible apply Chg.step (chg_modCore _ _ _))
    | (with_reducible apply Chg.step (chg_sendWrites _ _ _ _))
    | (with_reducible apply Chg.step (chg_track _ _ _))
    | (with_reducible (apply Chg.step (Chg.snd (chg_track _ _ _) ?e)); case e => assumption)
    | (with_reducible apply Chg.foldl)
    | (with_reducible apply Chg.orElse_getD)
    | (with_reducible apply Chg.getD)
    | (with_reducible apply Chg.foldl_snd)
    | intro _
    | split
    | dsimp only
    | ((with_reducible refine Chg.mk rfl ?_ rfl rfl rfl rfl ?_); · (intro x hx; cases x <;> first | rfl | exact ⟨rfl, rfl⟩ | exact absurd (by decide) hx))

theorem chg_performWrite (s : State) (a b) : Chg [.free, .out, .mem, .poison, .cores, .launches, .dies, .chans] s (State.performWrite s a b) := by
  unfold State.performWrite
  repeat' first
    | ((with_reducible apply subF_of); rfl)
    | (with_reducible apply Chg.refl)
    | (with_reducible assumption)
    | (with_reducible apply Chg.step (chg_l2Touch _ _ _ _ _ _ _))
    | (with_reducible apply Chg.step (chg_writeAt _ _ _))
    | (with_reducible apply Chg.step (chg_writeMem _ _ _))
    | (with_reducible apply Chg.foldl)
    | (with_reducible apply Chg.orElse_getD)
    | (with_reducible apply Chg.getD)
    | (with_reducible apply Chg.foldl_snd)
    | intro _
    | split
    | dsimp only
    | ((with_reducible refine Chg.mk rfl ?_ rfl rfl rfl rfl ?_); · (intro x hx; cases x <;> first | rfl | exact ⟨rfl, rfl⟩ | exact absurd (by decide) hx))

theorem chg_syncOut (s : State) (a b) : Chg [.out, .dies, .chans] s (State.syncOut s a b) := by
  unfold State.syncOut
  repeat' first
    | ((with_reducible apply subF_of); rfl)
    | (with_reducible apply Chg.refl)
    | (with_reducible assumption)
    | (with_reducible apply Chg.step (chg_emit _ _))
    | (with_reducible apply Chg.step (chg_hbmAsk _ _ _ _))
    | (with_reducible apply Chg.step (chg_l2Clean _ _))
    | (with_reducible apply Chg.foldl)
    | (with_reducible apply Chg.orElse_getD)
    | (with_reducible apply Chg.getD)
    | (with_reducible apply Chg.foldl_snd)
    | intro _
    | split
    | dsimp only
    | ((with_reducible refine Chg.mk rfl ?_ rfl rfl rfl rfl ?_); · (intro x hx; cases x <;> first | rfl | exact ⟨rfl, rfl⟩ | exact absurd (by decide) hx))

theorem chg_performAll (s : State) (a b c d) : Chg [.free, .out, .mem, .poison, .cores, .launches, .dies, .chans] s (State.performAll s a b c d) := by
  unfold State.performAll
  repeat' first
    | ((with_reducible apply subF_of); rfl)
    | (with_reducible apply Chg.refl)
    | (with_reducible assumption)
    | (with_reducible apply Chg.step (chg_loseWrites _ _ _))
    | (with_reducible apply Chg.step (chg_performWrite _ _ _))
    | (with_reducible apply Chg.foldl)
    | (with_reducible apply Chg.orElse_getD)
    | (with_reducible apply Chg.getD)
    | (with_reducible apply Chg.foldl_snd)
    | intro _
    | split
    | dsimp only
    | ((with_reducible refine Chg.mk rfl ?_ rfl rfl rfl rfl ?_); · (intro x hx; cases x <;> first | rfl | exact ⟨rfl, rfl⟩ | exact absurd (by decide) hx))

theorem chg_releaseTrack (s : State) (a b) : Chg [.free, .out, .mem, .poison, .cores, .launches, .dies, .chans] s (State.releaseTrack s a b) := by
  unfold State.releaseTrack
  repeat' first
    | ((with_reducible apply subF_of); rfl)
    | (with_reducible apply Chg.refl)
    | (with_reducible assumption)
    | (with_reducible apply Chg.step (chg_modCore _ _ _))
    | (with_reducible apply Chg.step (chg_performAll _ _ _ _ _))
    | (with_reducible apply Chg.step (chg_syncOut _ _ _))
    | (with_reducible apply Chg.step (chg_untrack _ _ _))
    | (with_reducible apply Chg.step (chg_wakeAll _ _ _))
    | (with_reducible apply Chg.foldl)
    | (with_reducible apply Chg.orElse_getD)
    | (with_reducible apply Chg.getD)
    | (with_reducible apply Chg.foldl_snd)
    | intro _
    | split
    | dsimp only
    | ((with_reducible refine Chg.mk rfl ?_ rfl rfl rfl rfl ?_); · (intro x hx; cases x <;> first | rfl | exact ⟨rfl, rfl⟩ | exact absurd (by decide) hx))

theorem chg_defer (s : State) (a b c d) : Chg [.free, .regs, .cores, .launches, .dies, .chans] s (State.defer s a b c d) := by
  unfold State.defer
  repeat' first
    | ((with_reducible apply subF_of); rfl)
    | (with_reducible apply Chg.refl)
    | (with_reducible assumption)
    | (with_reducible apply Chg.step (chg_commitLine _ _ _))
    | (with_reducible apply Chg.step (chg_foldRecs _ _ _ _))
    | (with_reducible apply Chg.step (chg_issued _ _ _))
    | (with_reducible apply Chg.step (chg_modLaunch _ _ _))
    | (with_reducible apply Chg.step (chg_raise _ _ _ _ _ _ _))
    | (with_reducible apply Chg.step (chg_retire _ _ _))
    | (with_reducible apply Chg.foldl)
    | (with_reducible apply Chg.orElse_getD)
    | (with_reducible apply Chg.getD)
    | (with_reducible apply Chg.foldl_snd)
    | intro _
    | split
    | dsimp only
    | ((with_reducible refine Chg.mk rfl ?_ rfl rfl rfl rfl ?_); · (intro x hx; cases x <;> first | rfl | exact ⟨rfl, rfl⟩ | exact absurd (by decide) hx))

theorem chg_atomicAt (s : State) (a b c d e f) : Chg [.free, .out, .mem, .poison, .cores, .launches, .dies, .chans] s (State.atomicAt s a b c d e f).2 := by
  unfold State.atomicAt
  repeat' first
    | ((with_reducible apply subF_of); rfl)
    | (with_reducible apply Chg.refl)
    | (with_reducible assumption)
    | (with_reducible apply Chg.step (chg_l2Touch _ _ _ _ _ _ _))
    | (with_reducible apply Chg.step (chg_readAt _ _ _))
    | (with_reducible (apply Chg.step (Chg.snd (chg_readAt _ _ _) ?e)); case e => assumption)
    | (with_reducible apply Chg.step (chg_writeAt _ _ _))
    | (with_reducible apply Chg.foldl)
    | (with_reducible apply Chg.orElse_getD)
    | (with_reducible apply Chg.getD)
    | (with_reducible apply Chg.foldl_snd)
    | intro _
    | split
    | dsimp only

theorem chg_retireOver (s : State) (a b) : Chg [.cores] s (State.retireOver s a b) := by
  unfold State.retireOver
  repeat' first
    | ((with_reducible apply subF_of); rfl)
    | (with_reducible apply Chg.refl)
    | (with_reducible assumption)
    | (with_reducible apply Chg.step (chg_modGroup _ _ _))

theorem chg_l1Refresh (s : State) (a b c) : Chg [.cores] s (State.l1Refresh s a b c) := by
  unfold State.l1Refresh
  repeat' first
    | ((with_reducible apply subF_of); rfl)
    | (with_reducible apply Chg.refl)
    | (with_reducible assumption)
    | (with_reducible apply Chg.step (chg_l1Update _ _ _ _))
    | (with_reducible apply Chg.foldl)
    | (with_reducible apply Chg.orElse_getD)
    | (with_reducible apply Chg.getD)
    | (with_reducible apply Chg.foldl_snd)
    | intro _
    | split
    | dsimp only
    | ((with_reducible refine Chg.mk rfl ?_ rfl rfl rfl rfl ?_); · (intro x hx; cases x <;> first | rfl | exact ⟨rfl, rfl⟩ | exact absurd (by decide) hx))

theorem chg_atHome {L : List Fld} {s t : State} {g c n w ls k} (hs : subF [.free, .regs, .cores, .dies, .chans] L) (hk : ∀ u, Chg L s u → Chg L s (k u)) (h : Chg L s t) :
    Chg L s (State.atHome t g c n w ls k) := by
  unfold State.atHome
  refine Chg.ite h (Chg.ite h (Chg.ite ?_ ?_))
  · exact Chg.step (chg_park _ _ _ _) (subF.trans (subF_of rfl) hs) h
  · exact chg_withLines (subF.trans (subF_of rfl) hs) hk h

theorem chg_boundLoad (s : State) (a b c d e f g) : Chg [.cores] s (State.boundLoad s a b c d e f g) := by
  unfold State.boundLoad
  repeat' first
    | ((with_reducible apply subF_of); rfl)
    | (with_reducible apply Chg.refl)
    | (with_reducible assumption)
    | (with_reducible apply Chg.step (chg_modCore _ _ _))
    | (with_reducible apply Chg.step (chg_track _ _ _))
    | (with_reducible (apply Chg.step (Chg.snd (chg_track _ _ _) ?e)); case e => assumption)
    | (with_reducible apply Chg.foldl)
    | (with_reducible apply Chg.orElse_getD)
    | (with_reducible apply Chg.getD)
    | (with_reducible apply Chg.foldl_snd)
    | intro _
    | split
    | dsimp only
    | ((with_reducible refine Chg.mk rfl ?_ rfl rfl rfl rfl ?_); · (intro x hx; cases x <;> first | rfl | exact ⟨rfl, rfl⟩ | exact absurd (by decide) hx))

theorem chg_atomNow (s : State) (a b c d e f) : Chg [.free, .out, .regs, .mem, .poison, .cores, .launches, .dies, .chans] s (State.atomNow s a b c d e f) := by
  unfold State.atomNow
  repeat' first
    | ((with_reducible apply subF_of); rfl)
    | (with_reducible apply Chg.refl)
    | (with_reducible assumption)
    | (with_reducible apply Chg.step (chg_acquired _ _ _))
    | (with_reducible apply chg_atHome)
    | (with_reducible apply Chg.step (chg_atomicAt _ _ _ _ _ _ _))
    | (with_reducible (apply Chg.step (Chg.snd (chg_atomicAt _ _ _ _ _ _ _) ?e)); case e => assumption)
    | (with_reducible apply Chg.step (chg_boundLoad _ _ _ _ _ _ _ _))
    | (with_reducible apply Chg.step (chg_issued _ _ _))
    | (with_reducible apply Chg.step (chg_l1Refresh _ _ _ _))
    | (with_reducible apply Chg.step (chg_retire _ _ _))
    | (with_reducible apply Chg.step (chg_retireOver _ _ _))
    | (with_reducible apply Chg.step (chg_strictWait _ _ _))
    | (with_reducible apply Chg.foldl)
    | (with_reducible apply Chg.orElse_getD)
    | (with_reducible apply Chg.getD)
    | (with_reducible apply Chg.foldl_snd)
    | intro _
    | split
    | dsimp only
    | ((with_reducible refine Chg.mk rfl ?_ rfl rfl rfl rfl ?_); · (intro x hx; cases x <;> first | rfl | exact ⟨rfl, rfl⟩ | exact absurd (by decide) hx))

theorem chg_atomRemote (s : State) (a b c d e f) : Chg [.regs, .cores, .launches, .dies, .links] s (State.atomRemote s a b c d e f) := by
  unfold State.atomRemote
  repeat' first
    | ((with_reducible apply subF_of); rfl)
    | (with_reducible apply Chg.refl)
    | (with_reducible assumption)
    | (with_reducible apply Chg.step (chg_issued _ _ _))
    | (with_reducible apply Chg.step (chg_modCore _ _ _))
    | (with_reducible apply Chg.step (chg_park _ _ _ _))
    | (with_reducible apply Chg.step (chg_pmEvent _ _ _ _ _))
    | (with_reducible apply Chg.step (chg_refuse _ _))
    | (with_reducible apply Chg.step (chg_retire _ _ _))
    | (with_reducible apply Chg.step (chg_sendBatch _ _ _))
    | (with_reducible apply Chg.step (chg_sendReq _ _ _ _))
    | (with_reducible (apply Chg.step (Chg.snd (chg_sendReq _ _ _ _) ?e)); case e => assumption)
    | (with_reducible apply Chg.foldl)
    | (with_reducible apply Chg.orElse_getD)
    | (with_reducible apply Chg.getD)
    | (with_reducible apply Chg.foldl_snd)
    | intro _
    | split
    | dsimp only
    | ((with_reducible refine Chg.mk rfl ?_ rfl rfl rfl rfl ?_); · (intro x hx; cases x <;> first | rfl | exact ⟨rfl, rfl⟩ | exact absurd (by decide) hx))

theorem chg_scLane {L : List Fld} {s t : State} {g l o k z a write} (hs : subF [.free, .cores] L) (hb0 : ∀ u, Chg L s u → Chg L s (write u)) (h : Chg L s t) : Chg L s (State.scLane t g l o k z a write).2 := by
  unfold State.scLane
  repeat' first
    | ((with_reducible apply subF.trans (subF_of ?e) hs); case e => rfl)
    | (with_reducible apply Chg.refl)
    | (with_reducible assumption)
    | (with_reducible apply hb0)
    | (with_reducible apply Chg.step (chg_setGroup _ _ _))
    | (with_reducible apply Chg.step (chg_freeBit _))
    | (with_reducible (apply Chg.step (Chg.snd (chg_freeBit _) ?e)); case e => assumption)
    | (with_reducible apply Chg.foldl)
    | (with_reducible apply Chg.orElse_getD)
    | (with_reducible apply Chg.getD)
    | (with_reducible apply Chg.foldl_snd)
    | intro _
    | split
    | dsimp only

theorem chg_scLanes {L : List Fld} {s t : State} {g l z xs} (hs : subF [.free, .cores] L)
    (hb : ∀ x ∈ xs, ∀ u, Chg L s u → Chg L s (x.2.2.2 u)) (h : Chg L s t) : Chg L s (State.scLanes t g l z xs).2 := by
  unfold State.scLanes
  have key : ∀ (ys : List (Nat × Nat × Bool × (State → State))) (a : List (Nat × Bool) × State), (∀ x ∈ ys, x ∈ xs) → Chg L s a.2 →
      Chg L s (ys.foldl (fun a x =>
        let r := a.2.scLane g l x.2.2.1 x.2.1 z x.1 x.2.2.2
        (a.1 ++ [(x.1, r.1)], r.2)) a).2 := by
    intro ys
    induction ys with
    | nil => intro a _ ha; exact ha
    | cons x ys ih =>
      intro a hy ha
      refine ih _ (fun y k => hy y (List.mem_cons_of_mem _ k)) ?_
      exact chg_scLane hs (hb x (hy x (List.mem_cons_self ..))) ha
  exact key xs _ (fun _ k => k) h

theorem chg_scEnd (s : State) (a b c) : Chg [.cores] s (State.scEnd s a b c) := by
  unfold State.scEnd
  repeat' first
    | ((with_reducible apply subF_of); rfl)
    | (with_reducible apply Chg.refl)
    | (with_reducible assumption)
    | (with_reducible apply Chg.step (chg_modGroup _ _ _))
    | (with_reducible apply Chg.foldl)
    | (with_reducible apply Chg.orElse_getD)
    | (with_reducible apply Chg.getD)
    | (with_reducible apply Chg.foldl_snd)
    | intro _
    | split
    | dsimp only
    | ((with_reducible refine Chg.mk rfl ?_ rfl rfl rfl rfl ?_); · (intro x hx; cases x <;> first | rfl | exact ⟨rfl, rfl⟩ | exact absurd (by decide) hx))

theorem chg_rowLdGlobal (s : State) (a b) : Chg [.free, .out, .regs, .cores, .launches, .parts, .dies, .chans] s (State.rowLdGlobal s a b) := by
  unfold State.rowLdGlobal
  repeat' first
    | ((with_reducible apply subF_of); rfl)
    | (with_reducible apply subF.refl)
    | (with_reducible apply Chg.refl)
    | (with_reducible assumption)
    | (with_reducible apply Chg.step (chg_loadGlobal _ _ _ _ _ _ _))
    | (with_reducible apply Chg.step (chg_translLanes _ _ _ _ _ _))
    | (with_reducible (apply Chg.step (Chg.snd (chg_translLanes _ _ _ _ _ _) ?e)); case e => assumption)
    | (with_reducible apply chg_access)
    | (with_reducible apply chg_issue)
    | (with_reducible apply chg_orRaise)
    | (with_reducible apply Chg.foldl)
    | (with_reducible apply Chg.orElse_getD)
    | (with_reducible apply Chg.getD)
    | (with_reducible apply Chg.foldl_snd)
    | intro _
    | split
    | dsimp only

theorem chg_rowStGlobal (s : State) (a b) : Chg [.free, .out, .regs, .cores, .launches, .parts, .dies, .chans] s (State.rowStGlobal s a b) := by
  unfold State.rowStGlobal
  repeat' first
    | ((with_reducible apply subF_of); rfl)
    | (with_reducible apply subF.refl)
    | (with_reducible apply Chg.refl)
    | (with_reducible assumption)
    | (with_reducible apply Chg.step (chg_storeGlobal _ _ _ _ _ _ _))
    | (with_reducible apply Chg.step (chg_translLanes _ _ _ _ _ _))
    | (with_reducible (apply Chg.step (Chg.snd (chg_translLanes _ _ _ _ _ _) ?e)); case e => assumption)
    | (with_reducible apply chg_access)
    | (with_reducible apply chg_issue)
    | (with_reducible apply chg_orRaise)
    | (with_reducible apply Chg.foldl)
    | (with_reducible apply Chg.orElse_getD)
    | (with_reducible apply Chg.getD)
    | (with_reducible apply Chg.foldl_snd)
    | intro _
    | split
    | dsimp only

theorem chg_rowZlGlobal (s : State) (a b) : Chg [.free, .out, .regs, .cores, .launches, .parts, .dies, .chans, .links] s (State.rowZlGlobal s a b) := by
  unfold State.rowZlGlobal
  repeat' first
    | ((with_reducible apply subF_of); rfl)
    | (with_reducible apply subF.refl)
    | (with_reducible apply Chg.refl)
    | (with_reducible assumption)
    | (with_reducible apply Chg.step (chg_enterStore _ _ _))
    | (with_reducible apply Chg.step (chg_foldRecs _ _ _ _))
    | (with_reducible apply Chg.step (chg_issued _ _ _))
    | (with_reducible apply Chg.step (chg_retire _ _ _))
    | (with_reducible apply Chg.step (chg_translLanes _ _ _ _ _ _))
    | (with_reducible (apply Chg.step (Chg.snd (chg_translLanes _ _ _ _ _ _) ?e)); case e => assumption)
    | (with_reducible apply chg_access)
    | (with_reducible apply chg_issue)
    | (with_reducible apply chg_orRaise)
    | (with_reducible apply Chg.foldl)
    | (with_reducible apply Chg.orElse_getD)
    | (with_reducible apply Chg.getD)
    | (with_reducible apply Chg.foldl_snd)
    | intro _
    | split
    | dsimp only
    | ((with_reducible refine Chg.mk rfl ?_ rfl rfl rfl rfl ?_); · (intro x hx; cases x <;> first | rfl | exact ⟨rfl, rfl⟩ | exact absurd (by decide) hx))

theorem chg_rowLdRemote (s : State) (a b) : Chg [.free, .out, .regs, .cores, .launches, .parts, .dies, .chans, .links] s (State.rowLdRemote s a b) := by
  unfold State.rowLdRemote
  repeat' first
    | ((with_reducible apply subF_of); rfl)
    | (with_reducible apply subF.refl)
    | (with_reducible apply Chg.refl)
    | (with_reducible assumption)
    | (with_reducible apply Chg.step (chg_issued _ _ _))
    | (with_reducible apply Chg.step (chg_modCore _ _ _))
    | (with_reducible apply Chg.step (chg_park _ _ _ _))
    | (with_reducible apply Chg.step (chg_pmEvent _ _ _ _ _))
    | (with_reducible apply Chg.step (chg_refuse _ _))
    | (with_reducible apply Chg.step (chg_retire _ _ _))
    | (with_reducible apply Chg.step (chg_sendReq _ _ _ _))
    | (with_reducible (apply Chg.step (Chg.snd (chg_sendReq _ _ _ _) ?e)); case e => assumption)
    | (with_reducible apply chg_access)
    | (with_reducible apply chg_issue)
    | (with_reducible apply chg_orRaise)
    | (with_reducible apply Chg.foldl)
    | (with_reducible apply Chg.orElse_getD)
    | (with_reducible apply Chg.getD)
    | (with_reducible apply Chg.foldl_snd)
    | intro _
    | split
    | dsimp only
    | ((with_reducible refine Chg.mk rfl ?_ rfl rfl rfl rfl ?_); · (intro x hx; cases x <;> first | rfl | exact ⟨rfl, rfl⟩ | exact absurd (by decide) hx))

theorem chg_rowStRemote (s : State) (a b) : Chg [.free, .out, .regs, .cores, .launches, .parts, .dies, .chans] s (State.rowStRemote s a b) := by
  unfold State.rowStRemote
  repeat' first
    | ((with_reducible apply subF_of); rfl)
    | (with_reducible apply subF.refl)
    | (with_reducible apply Chg.refl)
    | (with_reducible assumption)
    | (with_reducible apply Chg.step (chg_enterStore _ _ _))
    | (with_reducible apply Chg.step (chg_foldRecs _ _ _ _))
    | (with_reducible apply Chg.step (chg_issued _ _ _))
    | (with_reducible apply Chg.step (chg_retire _ _ _))
    | (with_reducible apply chg_access)
    | (with_reducible apply chg_issue)
    | (with_reducible apply chg_orRaise)
    | (with_reducible apply Chg.foldl)
    | (with_reducible apply Chg.orElse_getD)
    | (with_reducible apply Chg.getD)
    | (with_reducible apply Chg.foldl_snd)
    | intro _
    | split
    | dsimp only
    | ((with_reducible refine Chg.mk rfl ?_ rfl rfl rfl rfl ?_); · (intro x hx; cases x <;> first | rfl | exact ⟨rfl, rfl⟩ | exact absurd (by decide) hx))

theorem chg_rowStRemoteFinal (s : State) (a b) : Chg [.free, .out, .regs, .cores, .launches, .parts, .dies, .chans, .links] s (State.rowStRemoteFinal s a b) := by
  unfold State.rowStRemoteFinal
  repeat' first
    | ((with_reducible apply subF_of); rfl)
    | (with_reducible apply subF.refl)
    | (with_reducible apply Chg.refl)
    | (with_reducible assumption)
    | (with_reducible apply Chg.step (chg_defer _ _ _ _ _))
    | (with_reducible apply Chg.step (chg_flushFinals _ _))
    | (with_reducible apply Chg.step (chg_issued _ _ _))
    | (with_reducible apply Chg.step (chg_modCore _ _ _))
    | (with_reducible apply Chg.step (chg_modLaunch _ _ _))
    | (with_reducible apply Chg.step (chg_retire _ _ _))
    | (with_reducible apply chg_access)
    | (with_reducible apply chg_issue)
    | (with_reducible apply chg_orRaise)
    | (with_reducible apply Chg.foldl)
    | (with_reducible apply Chg.orElse_getD)
    | (with_reducible apply Chg.getD)
    | (with_reducible apply Chg.foldl_snd)
    | intro _
    | split
    | dsimp only
    | ((with_reducible refine Chg.mk rfl ?_ rfl rfl rfl rfl ?_); · (intro x hx; cases x <;> first | rfl | exact ⟨rfl, rfl⟩ | exact absurd (by decide) hx))

theorem chg_rowRmwGlobal (s : State) (a b) : Chg [.free, .out, .regs, .mem, .poison, .cores, .launches, .parts, .dies, .chans, .links] s (State.rowRmwGlobal s a b) := by
  unfold State.rowRmwGlobal
  repeat' first
    | ((with_reducible apply subF_of); rfl)
    | (with_reducible apply subF.refl)
    | (with_reducible apply Chg.refl)
    | (with_reducible assumption)
    | (with_reducible apply Chg.step (chg_atomNow _ _ _ _ _ _ _))
    | (with_reducible apply Chg.step (chg_atomRemote _ _ _ _ _ _ _))
    | (with_reducible apply Chg.step (chg_translLanes _ _ _ _ _ _))
    | (with_reducible (apply Chg.step (Chg.snd (chg_translLanes _ _ _ _ _ _) ?e)); case e => assumption)
    | (with_reducible apply chg_access)
    | (with_reducible apply chg_issue)
    | (with_reducible apply chg_orRaise)
    | (with_reducible apply Chg.foldl)
    | (with_reducible apply Chg.orElse_getD)
    | (with_reducible apply Chg.getD)
    | (with_reducible apply Chg.foldl_snd)
    | intro _
    | split
    | dsimp only
    | ((with_reducible refine Chg.mk rfl ?_ rfl rfl rfl rfl ?_); · (intro x hx; cases x <;> first | rfl | exact ⟨rfl, rfl⟩ | exact absurd (by decide) hx))

theorem chg_rowRmwPost (s : State) (a b) : Chg [.free, .out, .regs, .mem, .poison, .cores, .launches, .parts, .dies, .chans, .links] s (State.rowRmwPost s a b) := by
  unfold State.rowRmwPost
  repeat' first
    | ((with_reducible apply subF_of); rfl)
    | (with_reducible apply subF.refl)
    | (with_reducible apply Chg.refl)
    | (with_reducible assumption)
    | (with_reducible apply Chg.step (chg_atomNow _ _ _ _ _ _ _))
    | (with_reducible apply Chg.step (chg_atomRemote _ _ _ _ _ _ _))
    | (with_reducible apply Chg.step (chg_defer _ _ _ _ _))
    | (with_reducible apply Chg.step (chg_translLanes _ _ _ _ _ _))
    | (with_reducible (apply Chg.step (Chg.snd (chg_translLanes _ _ _ _ _ _) ?e)); case e => assumption)
    | (with_reducible apply chg_access)
    | (with_reducible apply chg_issue)
    | (with_reducible apply chg_orRaise)
    | (with_reducible apply Chg.foldl)
    | (with_reducible apply Chg.orElse_getD)
    | (with_reducible apply Chg.getD)
    | (with_reducible apply Chg.foldl_snd)
    | intro _
    | split
    | dsimp only
    | ((with_reducible refine Chg.mk rfl ?_ rfl rfl rfl rfl ?_); · (intro x hx; cases x <;> first | rfl | exact ⟨rfl, rfl⟩ | exact absurd (by decide) hx))

theorem chg_rowLl (s : State) (a b) : Chg [.free, .out, .regs, .cores, .launches, .parts, .dies, .chans] s (State.rowLl s a b) := by
  unfold State.rowLl
  repeat' first
    | ((with_reducible apply subF_of); rfl)
    | (with_reducible apply subF.refl)
    | (with_reducible apply Chg.refl)
    | (with_reducible assumption)
    | (with_reducible apply Chg.step (chg_acquired _ _ _))
    | (with_reducible apply chg_atHome)
    | (with_reducible apply Chg.step (chg_bindReads _ _))
    | (with_reducible (apply Chg.step (Chg.snd (chg_bindReads _ _) ?e)); case e => assumption)
    | (with_reducible apply Chg.step (chg_boundLoad _ _ _ _ _ _ _ _))
    | (with_reducible apply Chg.step (chg_issued _ _ _))
    | (with_reducible apply Chg.step (chg_issuedLocal _ _ _ _ _))
    | (with_reducible apply Chg.step (chg_retire _ _ _))
    | (with_reducible apply Chg.step (chg_touchLanes _ _ _ _ _ _ _))
    | (with_reducible apply Chg.step (chg_translLanes _ _ _ _ _ _))
    | (with_reducible (apply Chg.step (Chg.snd (chg_translLanes _ _ _ _ _ _) ?e)); case e => assumption)
    | (with_reducible apply chg_access)
    | (with_reducible apply chg_issue)
    | (with_reducible apply chg_orRaise)
    | (with_reducible apply Chg.foldl)
    | (with_reducible apply Chg.orElse_getD)
    | (with_reducible apply Chg.getD)
    | (with_reducible apply Chg.foldl_snd)
    | intro _
    | split
    | dsimp only
    | ((with_reducible refine Chg.mk rfl ?_ rfl rfl rfl rfl ?_); · (intro x hx; cases x <;> first | rfl | exact ⟨rfl, rfl⟩ | exact absurd (by decide) hx))

theorem chg_rowSc (s : State) (a b) : Chg [.free, .out, .regs, .mem, .poison, .cores, .launches, .parts, .dies, .chans] s (State.rowSc s a b) := by
  unfold State.rowSc
  repeat' first
    | ((with_reducible apply subF_of); rfl)
    | (with_reducible apply subF.refl)
    | (with_reducible apply Chg.refl)
    | (with_reducible assumption)
    | (with_reducible apply chg_issue)
    | (with_reducible apply chg_scLanes)
    | (with_reducible apply chg_orRaise)
    | (with_reducible apply Chg.foldl)
    | (with_reducible apply Chg.orElse_getD)
    | (with_reducible apply Chg.getD)
    | (with_reducible apply Chg.foldl_snd)
    | intro _
    | split
    | dsimp only
    | (obtain ⟨_, _, rfl⟩ := List.mem_map.1 (by assumption))
    | (with_reducible apply Chg.step (chg_acquired _ _ _))
    | (with_reducible apply Chg.step (chg_issued _ _ _))
    | (with_reducible apply Chg.step (chg_issuedLocal _ _ _ _ _))
    | (with_reducible apply Chg.step (chg_l1Refresh _ _ _ _))
    | (with_reducible apply Chg.step (chg_lsWrite _ _ _ _ _))
    | (with_reducible apply Chg.step (chg_park _ _ _ _))
    | (with_reducible apply Chg.step (chg_performWrite _ _ _))
    | (with_reducible apply Chg.step (chg_retire _ _ _))
    | (with_reducible apply Chg.step (chg_scEnd _ _ _ _))
    | (with_reducible apply Chg.step (chg_translLanes _ _ _ _ _ _))
    | (with_reducible (apply Chg.step (Chg.snd (chg_translLanes _ _ _ _ _ _) ?e)); case e => assumption)
    | (with_reducible apply chg_access)
    | (with_reducible apply Chg.foldl)
    | (with_reducible apply Chg.orElse_getD)
    | (with_reducible apply Chg.getD)
    | (with_reducible apply Chg.foldl_snd)
    | intro _
    | split
    | dsimp only
    | ((with_reducible refine Chg.mk rfl ?_ rfl rfl rfl rfl ?_); · (intro x hx; cases x <;> first | rfl | exact ⟨rfl, rfl⟩ | exact absurd (by decide) hx))

theorem chg_rowEvRec (s : State) (a b) : Chg [.free, .out, .regs, .mem, .poison, .cores, .launches, .parts, .dies, .chans] s (State.rowEvRec s a b) := by
  unfold State.rowEvRec
  repeat' first
    | ((with_reducible apply subF_of); rfl)
    | (with_reducible apply subF.refl)
    | (with_reducible apply Chg.refl)
    | (with_reducible assumption)
    | (with_reducible apply chg_atHome)
    | (with_reducible apply Chg.step (chg_defer _ _ _ _ _))
    | (with_reducible apply Chg.step (chg_eventMax _ _ _ _))
    | (with_reducible apply Chg.step (chg_eventWord _ _ _ _))
    | (with_reducible (apply Chg.step (Chg.snd (chg_eventWord _ _ _ _) ?e)); case e => assumption)
    | (with_reducible apply Chg.step (chg_issued _ _ _))
    | (with_reducible apply Chg.step (chg_l1Refresh _ _ _ _))
    | (with_reducible apply Chg.step (chg_retire _ _ _))
    | (with_reducible apply chg_access)
    | (with_reducible apply chg_issue)
    | (with_reducible apply chg_orRaise)
    | (dsimp only [id])
    | (with_reducible apply Chg.foldl)
    | (with_reducible apply Chg.orElse_getD)
    | (with_reducible apply Chg.getD)
    | (with_reducible apply Chg.foldl_snd)
    | intro _
    | split
    | dsimp only
    | ((with_reducible refine Chg.mk rfl ?_ rfl rfl rfl rfl ?_); · (intro x hx; cases x <;> first | rfl | exact ⟨rfl, rfl⟩ | exact absurd (by decide) hx))

theorem chg_rowSemRel (s : State) (a b) : Chg [.free, .out, .regs, .cores, .launches, .parts, .dies, .chans] s (State.rowSemRel s a b) := by
  unfold State.rowSemRel
  repeat' first
    | ((with_reducible apply subF_of); rfl)
    | (with_reducible apply subF.refl)
    | (with_reducible apply Chg.refl)
    | (with_reducible assumption)
    | (with_reducible apply Chg.step (chg_defer _ _ _ _ _))
    | (with_reducible apply Chg.step (chg_issued _ _ _))
    | (with_reducible apply Chg.step (chg_retire _ _ _))
    | (with_reducible apply Chg.step (chg_semRelease _ _ _ _))
    | (with_reducible apply chg_access)
    | (with_reducible apply chg_issue)
    | (with_reducible apply chg_orRaise)
    | (with_reducible apply Chg.foldl)
    | (with_reducible apply Chg.orElse_getD)
    | (with_reducible apply Chg.getD)
    | (with_reducible apply Chg.foldl_snd)
    | intro _
    | split
    | dsimp only

end Sys2Proof.Machine
end

