-- ==== Sys2Proof/Laws/ChgMatrix.lean ====
section
/-! SUPPORT. What each operation of Machine/Matrix.lean may change. -/

namespace Sys2Proof.Machine

theorem chg_modMx (s : State) (a b) : Chg [.cores] s (State.modMx s a b) := by
  unfold State.modMx
  repeat' first
    | ((with_reducible apply subF_of); rfl)
    | (with_reducible apply Chg.refl)
    | (with_reducible assumption)
    | (with_reducible apply Chg.step (chg_modCore _ _ _))

theorem chg_acquireMx (s : State) (a b c d) : Chg [.free, .cores] s (State.acquireMx s a b c d) := by
  unfold State.acquireMx
  repeat' first
    | ((with_reducible apply subF_of); rfl)
    | (with_reducible apply Chg.refl)
    | (with_reducible assumption)
    | (with_reducible apply Chg.step (chg_modMx _ _ _))
    | (with_reducible apply Chg.foldl)
    | (with_reducible apply Chg.orElse_getD)
    | (with_reducible apply Chg.getD)
    | (with_reducible apply Chg.foldl_snd)
    | intro _
    | split
    | dsimp only
    | ((with_reducible refine Chg.mk rfl ?_ rfl rfl rfl rfl ?_); · (intro x hx; cases x <;> first | rfl | exact ⟨rfl, rfl⟩ | exact absurd (by decide) hx))

theorem chg_mxIssue {L : List Fld} {s t : State} {g w q body} (hs : subF [.free, .out, .regs, .cores, .launches, .parts, .dies, .chans] L) (hb0 : ∀ c u, Chg L s u → Chg L s (body c u)) (h : Chg L s t) : Chg L s (State.mxIssue t g w q body) := by
  unfold State.mxIssue
  repeat' first
    | ((with_reducible apply subF.trans (subF_of ?e) hs); case e => rfl)
    | (with_reducible apply Chg.refl)
    | (with_reducible assumption)
    | (with_reducible apply hb0)
    | (with_reducible apply chg_issue)
    | (with_reducible apply Chg.step (chg_acquireMx _ _ _ _ _))
    | (with_reducible apply Chg.step (chg_modMx _ _ _))
    | (with_reducible apply Chg.step (chg_park _ _ _ _))
    | (with_reducible apply Chg.foldl)
    | (with_reducible apply Chg.orElse_getD)
    | (with_reducible apply Chg.getD)
    | (with_reducible apply Chg.foldl_snd)
    | intro _
    | split
    | dsimp only

theorem chg_accept (s : State) (a b c d) : Chg [.regs, .cores, .launches] s (State.accept s a b c d) := by
  unfold State.accept
  repeat' first
    | ((with_reducible apply subF_of); rfl)
    | (with_reducible apply Chg.refl)
    | (with_reducible assumption)
    | (with_reducible apply Chg.step (chg_issued _ _ _))
    | (with_reducible apply Chg.step (chg_modMx _ _ _))
    | (with_reducible apply Chg.step (chg_retire _ _ _))
    | (with_reducible apply Chg.foldl)
    | (with_reducible apply Chg.orElse_getD)
    | (with_reducible apply Chg.getD)
    | (with_reducible apply Chg.foldl_snd)
    | intro _
    | split
    | dsimp only
    | ((with_reducible refine Chg.mk rfl ?_ rfl rfl rfl rfl ?_); · (intro x hx; cases x <;> first | rfl | exact ⟨rfl, rfl⟩ | exact absurd (by decide) hx))

theorem chg_spansVa (s : State) (a b c d e f) : Chg [.free, .parts] s (State.spansVa s a b c d e f).2 := by
  induction d generalizing s e f with
  | zero => exact Chg.refl _ _
  | succ n ih =>
    unfold State.spansVa
    repeat' first
      | ((with_reducible apply subF_of); rfl)
      | (with_reducible apply Chg.refl)
      | (with_reducible assumption)
      | (with_reducible apply Chg.step (chg_transl _ _ _ _ _))
      | (with_reducible (apply Chg.step (Chg.snd (chg_transl _ _ _ _ _) ?e)); case e => assumption)
      | (with_reducible apply Chg.step (ih ..))
      | (with_reducible (apply Chg.step (Chg.snd (ih ..) ?e)); case e => assumption)
      | (with_reducible apply Chg.foldl)
      | (with_reducible apply Chg.orElse_getD)
      | (with_reducible apply Chg.getD)
      | (with_reducible apply Chg.foldl_snd)
      | intro _
      | split
      | (with_reducible apply Chg.foldl)
      | (with_reducible apply Chg.orElse_getD)
      | (with_reducible apply Chg.getD)
      | (with_reducible apply Chg.foldl_snd)
      | intro _
      | split
      | dsimp only
      | ((with_reducible refine Chg.mk rfl ?_ rfl rfl rfl rfl ?_); · (intro x hx; cases x <;> first | rfl | exact ⟨rfl, rfl⟩ | exact absurd (by decide) hx))

theorem chg_spansRows (s : State) (a b c d) : Chg [.free, .parts] s (State.spansRows s a b c d).2 := by
  induction d generalizing s with
  | nil => exact Chg.refl _ _
  | cons x l ih =>
    unfold State.spansRows
    repeat' first
      | ((with_reducible apply subF_of); rfl)
      | (with_reducible apply Chg.refl)
      | (with_reducible assumption)
      | (with_reducible apply Chg.step (chg_spansVa _ _ _ _ _ _ _))
      | (with_reducible (apply Chg.step (Chg.snd (chg_spansVa _ _ _ _ _ _ _) ?e)); case e => assumption)
      | (with_reducible apply Chg.step (ih ..))
      | (with_reducible (apply Chg.step (Chg.snd (ih ..) ?e)); case e => assumption)
      | (with_reducible apply Chg.foldl)
      | (with_reducible apply Chg.orElse_getD)
      | (with_reducible apply Chg.getD)
      | (with_reducible apply Chg.foldl_snd)
      | intro _
      | split
      | dsimp only
      | ((with_reducible refine Chg.mk rfl ?_ rfl rfl rfl rfl ?_); · (intro x hx; cases x <;> first | rfl | exact ⟨rfl, rfl⟩ | exact absurd (by decide) hx))

theorem chg_touchSpans (s : State) (a b c) : Chg [.free, .dies, .chans] s (State.touchSpans s a b c) := by
  unfold State.touchSpans
  repeat' first
    | ((with_reducible apply subF_of); rfl)
    | (with_reducible apply Chg.refl)
    | (with_reducible assumption)
    | (with_reducible apply Chg.step (chg_l2Touch _ _ _ _ _ _ _))
    | (with_reducible apply Chg.foldl)
    | (with_reducible apply Chg.orElse_getD)
    | (with_reducible apply Chg.getD)
    | (with_reducible apply Chg.foldl_snd)
    | intro _

theorem chg_freeTrack (s : State) (a b) : Chg [.cores] s (State.freeTrack s a b) := by
  unfold State.freeTrack
  repeat' first
    | ((with_reducible apply subF_of); rfl)
    | (with_reducible apply Chg.refl)
    | (with_reducible assumption)
    | (with_reducible apply Chg.step (chg_untrack _ _ _))
    | (with_reducible apply Chg.foldl)
    | (with_reducible apply Chg.orElse_getD)
    | (with_reducible apply Chg.getD)
    | (with_reducible apply Chg.foldl_snd)
    | intro _
    | split
    | dsimp only

theorem chg_mxFault (s : State) (a b c d e f) : Chg [.regs, .cores, .launches] s (State.mxFault s a b c d e f) := by
  unfold State.mxFault
  repeat' first
    | ((with_reducible apply subF_of); rfl)
    | (with_reducible apply Chg.refl)
    | (with_reducible assumption)
    | (with_reducible apply Chg.step (chg_freeTrack _ _ _))
    | (with_reducible apply Chg.step (chg_modMx _ _ _))
    | (with_reducible apply Chg.step (chg_raiseLate _ _ _ _ _ _ _))
    | (with_reducible apply Chg.foldl)
    | (with_reducible apply Chg.orElse_getD)
    | (with_reducible apply Chg.getD)
    | (with_reducible apply Chg.foldl_snd)
    | intro _

theorem chg_mxRead (s : State) (a b c d e) : Chg [.free, .out, .parts] s (State.mxRead s a b c d e).2 := by
  unfold State.mxRead
  repeat' first
    | ((with_reducible apply subF_of); rfl)
    | (with_reducible apply Chg.refl)
    | (with_reducible assumption)
    | (with_reducible apply Chg.step (chg_askHost _ _))
    | (with_reducible apply Chg.step (chg_readAt _ _ _))
    | (with_reducible (apply Chg.step (Chg.snd (chg_readAt _ _ _) ?e)); case e => assumption)
    | (with_reducible apply Chg.step (chg_translSpan _ _ _ _ _ _))
    | (with_reducible (apply Chg.step (Chg.snd (chg_translSpan _ _ _ _ _ _) ?e)); case e => assumption)
    | (with_reducible apply Chg.foldl)
    | (with_reducible apply Chg.orElse_getD)
    | (with_reducible apply Chg.getD)
    | (with_reducible apply Chg.foldl_snd)
    | intro _
    | split
    | dsimp only
    | ((with_reducible refine Chg.mk rfl ?_ rfl rfl rfl rfl ?_); · (intro x hx; cases x <;> first | rfl | exact ⟨rfl, rfl⟩ | exact absurd (by decide) hx))

theorem chg_fillData (s : State) (a b c d e f) : Chg [.free, .out, .parts] s (State.fillData s a b c d e f).2 := by
  induction f generalizing s with
  | nil => exact Chg.refl _ _
  | cons x l ih =>
    unfold State.fillData
    repeat' first
      | ((with_reducible apply subF_of); rfl)
      | (with_reducible apply Chg.refl)
      | (with_reducible assumption)
      | (with_reducible apply Chg.step (chg_mxRead _ _ _ _ _ _))
      | (with_reducible (apply Chg.step (Chg.snd (chg_mxRead _ _ _ _ _ _) ?e)); case e => assumption)
      | (with_reducible apply Chg.step (ih ..))
      | (with_reducible (apply Chg.step (Chg.snd (ih ..) ?e)); case e => assumption)
      | (with_reducible apply Chg.foldl)
      | (with_reducible apply Chg.orElse_getD)
      | (with_reducible apply Chg.getD)
      | (with_reducible apply Chg.foldl_snd)
      | intro _
      | split
      | dsimp only
      | (with_reducible apply Chg.foldl)
      | (with_reducible apply Chg.orElse_getD)
      | (with_reducible apply Chg.getD)
      | (with_reducible apply Chg.foldl_snd)
      | intro _
      | split
      | dsimp only
      | ((with_reducible refine Chg.mk rfl ?_ rfl rfl rfl rfl ?_); · (intro x hx; cases x <;> first | rfl | exact ⟨rfl, rfl⟩ | exact absurd (by decide) hx))
      | (with_reducible apply Chg.foldl)
      | (with_reducible apply Chg.orElse_getD)
      | (with_reducible apply Chg.getD)
      | (with_reducible apply Chg.foldl_snd)
      | intro _
      | split
      | dsimp only
      | ((with_reducible refine Chg.mk rfl ?_ rfl rfl rfl rfl ?_); · (intro x hx; cases x <;> first | rfl | exact ⟨rfl, rfl⟩ | exact absurd (by decide) hx))

theorem chg_completeFill (s : State) (a b) : Chg [.free, .out, .regs, .cores, .launches, .parts] s (State.completeFill s a b) := by
  unfold State.completeFill
  repeat' first
    | ((with_reducible apply subF_of); rfl)
    | (with_reducible apply Chg.refl)
    | (with_reducible assumption)
    | (with_reducible apply Chg.step (chg_fillData _ _ _ _ _ _ _))
    | (with_reducible (apply Chg.step (Chg.snd (chg_fillData _ _ _ _ _ _ _) ?e)); case e => assumption)
    | (with_reducible apply Chg.step (chg_freeTrack _ _ _))
    | (with_reducible apply Chg.step (chg_modMx _ _ _))
    | (with_reducible apply Chg.step (chg_mxFault _ _ _ _ _ _ _))
    | (with_reducible apply Chg.step (chg_wakeAll _ _ _))
    | (with_reducible apply Chg.foldl)
    | (with_reducible apply Chg.orElse_getD)
    | (with_reducible apply Chg.getD)
    | (with_reducible apply Chg.foldl_snd)
    | intro _
    | split
    | dsimp only
    | ((with_reducible refine Chg.mk rfl ?_ rfl rfl rfl rfl ?_); · (intro x hx; cases x <;> first | rfl | exact ⟨rfl, rfl⟩ | exact absurd (by decide) hx))

theorem chg_drainWrites (s : State) (a b c d) : Chg [.free, .parts] s (State.drainWrites s a b c d).2 := by
  induction d generalizing s with
  | nil => exact Chg.refl _ _
  | cons x l ih =>
    unfold State.drainWrites
    repeat' first
      | ((with_reducible apply subF_of); rfl)
      | (with_reducible apply Chg.refl)
      | (with_reducible assumption)
      | (with_reducible apply Chg.step (chg_translSpan _ _ _ _ _ _))
      | (with_reducible (apply Chg.step (Chg.snd (chg_translSpan _ _ _ _ _ _) ?e)); case e => assumption)
      | (with_reducible apply Chg.step (ih ..))
      | (with_reducible (apply Chg.step (Chg.snd (ih ..) ?e)); case e => assumption)
      | (with_reducible apply Chg.foldl)
      | (with_reducible apply Chg.orElse_getD)
      | (with_reducible apply Chg.getD)
      | (with_reducible apply Chg.foldl_snd)
      | intro _
      | split
      | (with_reducible apply Chg.foldl)
      | (with_reducible apply Chg.orElse_getD)
      | (with_reducible apply Chg.getD)
      | (with_reducible apply Chg.foldl_snd)
      | intro _
      | split
      | dsimp only
      | ((with_reducible refine Chg.mk rfl ?_ rfl rfl rfl rfl ?_); · (intro x hx; cases x <;> first | rfl | exact ⟨rfl, rfl⟩ | exact absurd (by decide) hx))
      | (with_reducible apply Chg.foldl)
      | (with_reducible apply Chg.orElse_getD)
      | (with_reducible apply Chg.getD)
      | (with_reducible apply Chg.foldl_snd)
      | intro _
      | split
      | dsimp only
      | ((with_reducible refine Chg.mk rfl ?_ rfl rfl rfl rfl ?_); · (intro x hx; cases x <;> first | rfl | exact ⟨rfl, rfl⟩ | exact absurd (by decide) hx))

theorem chg_afterDrain (s : State) (a b) : Chg [.cores] s (State.afterDrain s a b) := by
  unfold State.afterDrain
  repeat' first
    | ((with_reducible apply subF_of); rfl)
    | (with_reducible apply Chg.refl)
    | (with_reducible assumption)
    | (with_reducible apply Chg.step (chg_modMx _ _ _))
    | (with_reducible apply Chg.foldl)
    | (with_reducible apply Chg.orElse_getD)
    | (with_reducible apply Chg.getD)
    | (with_reducible apply Chg.foldl_snd)
    | intro _
    | split
    | dsimp only
    | ((with_reducible refine Chg.mk rfl ?_ rfl rfl rfl rfl ?_); · (intro x hx; cases x <;> first | rfl | exact ⟨rfl, rfl⟩ | exact absurd (by decide) hx))

theorem chg_drainOut (s : State) (a b c d e) : Chg [.free, .parts] s (State.drainOut s a b c d e).2 := by
  unfold State.drainOut
  repeat' first
    | ((with_reducible apply subF_of); rfl)
    | (with_reducible apply Chg.refl)
    | (with_reducible assumption)
    | (with_reducible apply Chg.step (chg_drainWrites _ _ _ _ _))
    | (with_reducible (apply Chg.step (Chg.snd (chg_drainWrites _ _ _ _ _) ?e)); case e => assumption)
    | (with_reducible apply Chg.foldl)
    | (with_reducible apply Chg.orElse_getD)
    | (with_reducible apply Chg.getD)
    | (with_reducible apply Chg.foldl_snd)
    | intro _
    | split
    | dsimp only
    | ((with_reducible refine Chg.mk rfl ?_ rfl rfl rfl rfl ?_); · (intro x hx; cases x <;> first | rfl | exact ⟨rfl, rfl⟩ | exact absurd (by decide) hx))

theorem chg_startDrain (s : State) (a b c d e f g) : Chg [.free, .regs, .cores, .launches, .parts] s (State.startDrain s a b c d e f g) := by
  unfold State.startDrain
  repeat' first
    | ((with_reducible apply subF_of); rfl)
    | (with_reducible apply Chg.refl)
    | (with_reducible assumption)
    | (with_reducible apply Chg.step (chg_afterDrain _ _ _))
    | (with_reducible apply Chg.step (chg_drainOut _ _ _ _ _ _))
    | (with_reducible (apply Chg.step (Chg.snd (chg_drainOut _ _ _ _ _ _) ?e)); case e => assumption)
    | (with_reducible apply Chg.step (chg_foldRecs _ _ _ _))
    | (with_reducible apply Chg.step (chg_freeTrack _ _ _))
    | (with_reducible apply Chg.step (chg_modCore _ _ _))
    | (with_reducible apply Chg.step (chg_modMx _ _ _))
    | (with_reducible apply Chg.step (chg_mxFault _ _ _ _ _ _ _))
    | (with_reducible apply Chg.step (chg_wakeAll _ _ _))
    | (with_reducible apply Chg.foldl)
    | (with_reducible apply Chg.orElse_getD)
    | (with_reducible apply Chg.getD)
    | (with_reducible apply Chg.foldl_snd)
    | intro _
    | split
    | dsimp only
    | ((with_reducible refine Chg.mk rfl ?_ rfl rfl rfl rfl ?_); · (intro x hx; cases x <;> first | rfl | exact ⟨rfl, rfl⟩ | exact absurd (by decide) hx))

theorem chg_runEntry (s : State) (a b c d e) : Chg [.free, .regs, .cores, .launches, .parts] s (State.runEntry s a b c d e) := by
  unfold State.runEntry
  repeat' first
    | ((with_reducible apply subF_of); rfl)
    | (with_reducible apply Chg.refl)
    | (with_reducible assumption)
    | (with_reducible apply Chg.step (chg_modMx _ _ _))
    | (with_reducible apply Chg.step (chg_mxFault _ _ _ _ _ _ _))
    | (with_reducible apply Chg.step (chg_pmEvent _ _ _ _ _))
    | (with_reducible apply Chg.step (chg_setGroup _ _ _))
    | (with_reducible apply Chg.step (chg_startDrain _ _ _ _ _ _ _ _))
    | (with_reducible apply Chg.step (chg_wakeAll _ _ _))
    | (with_reducible apply Chg.foldl)
    | (with_reducible apply Chg.orElse_getD)
    | (with_reducible apply Chg.getD)
    | (with_reducible apply Chg.foldl_snd)
    | intro _
    | split
    | dsimp only
    | ((with_reducible refine Chg.mk rfl ?_ rfl rfl rfl rfl ?_); · (intro x hx; cases x <;> first | rfl | exact ⟨rfl, rfl⟩ | exact absurd (by decide) hx))

theorem chg_startEntry (s : State) (a) : Chg [.free, .regs, .cores, .launches, .parts] s (State.startEntry s a) := by
  unfold State.startEntry
  repeat' first
    | ((with_reducible apply subF_of); rfl)
    | (with_reducible apply Chg.refl)
    | (with_reducible assumption)
    | (with_reducible apply Chg.step (chg_modLaunch _ _ _))
    | (with_reducible apply Chg.step (chg_modMx _ _ _))
    | (with_reducible apply Chg.step (chg_runEntry _ _ _ _ _ _))
    | (with_reducible apply Chg.foldl)
    | (with_reducible apply Chg.orElse_getD)
    | (with_reducible apply Chg.getD)
    | (with_reducible apply Chg.foldl_snd)
    | intro _
    | split
    | dsimp only
    | ((with_reducible refine Chg.mk rfl ?_ rfl rfl rfl rfl ?_); · (intro x hx; cases x <;> first | rfl | exact ⟨rfl, rfl⟩ | exact absurd (by decide) hx))

theorem chg_performDrain (s : State) (a b) : Chg [.free, .out, .mem, .poison, .cores, .launches, .dies, .chans] s (State.performDrain s a b) := by
  unfold State.performDrain
  repeat' first
    | ((with_reducible apply subF_of); rfl)
    | (with_reducible apply Chg.refl)
    | (with_reducible assumption)
    | (with_reducible apply Chg.step (chg_freeTrack _ _ _))
    | (with_reducible apply Chg.step (chg_l1Update _ _ _ _))
    | (with_reducible apply Chg.step (chg_lsWrite _ _ _ _ _))
    | (with_reducible apply Chg.step (chg_modMx _ _ _))
    | (with_reducible apply Chg.step (chg_performAll _ _ _ _ _))
    | (with_reducible apply Chg.foldl)
    | (with_reducible apply Chg.orElse_getD)
    | (with_reducible apply Chg.getD)
    | (with_reducible apply Chg.foldl_snd)
    | intro _
    | split
    | dsimp only
    | ((with_reducible refine Chg.mk rfl ?_ rfl rfl rfl rfl ?_); · (intro x hx; cases x <;> first | rfl | exact ⟨rfl, rfl⟩ | exact absurd (by decide) hx))

theorem chg_nextOwner (s : State) (a) : Chg [.free, .cores] s (State.nextOwner s a) := by
  unfold State.nextOwner
  repeat' first
    | ((with_reducible apply subF_of); rfl)
    | (with_reducible apply Chg.refl)
    | (with_reducible assumption)
    | (with_reducible apply Chg.step (chg_acquireMx _ _ _ _ _))
    | (with_reducible apply Chg.step (chg_modMx _ _ _))
    | (with_reducible apply Chg.foldl)
    | (with_reducible apply Chg.orElse_getD)
    | (with_reducible apply Chg.getD)
    | (with_reducible apply Chg.foldl_snd)
    | intro _
    | split

theorem chg_endOwnership (s : State) (a) : Chg [.free, .regs, .cores, .dbg] s (State.endOwnership s a) := by
  unfold State.endOwnership
  repeat' first
    | ((with_reducible apply subF_of); rfl)
    | (with_reducible apply Chg.refl)
    | (with_reducible assumption)
    | (with_reducible apply Chg.step (chg_modMx _ _ _))
    | (with_reducible apply Chg.step (chg_nextOwner _ _))
    | (with_reducible apply Chg.step (chg_reap _ _))
    | (with_reducible apply Chg.step (chg_setReg _ _ _))
    | (with_reducible apply Chg.step (chg_wakeAll _ _ _))
    | (with_reducible apply Chg.foldl)
    | (with_reducible apply Chg.orElse_getD)
    | (with_reducible apply Chg.getD)
    | (with_reducible apply Chg.foldl_snd)
    | intro _
    | split
    | dsimp only
    | ((with_reducible refine Chg.mk rfl ?_ rfl rfl rfl rfl ?_); · (intro x hx; cases x <;> first | rfl | exact ⟨rfl, rfl⟩ | exact absurd (by decide) hx))

theorem chg_rowMxHdl (s : State) (a b) : Chg [.free, .out, .regs, .cores, .launches, .parts, .dies, .chans] s (State.rowMxHdl s a b) := by
  unfold State.rowMxHdl
  repeat' first
    | ((with_reducible apply subF_of); rfl)
    | (with_reducible apply subF.refl)
    | (with_reducible apply Chg.refl)
    | (with_reducible assumption)
    | (with_reducible apply Chg.step (chg_issued _ _ _))
    | (with_reducible apply Chg.step (chg_modMx _ _ _))
    | (with_reducible apply Chg.step (chg_park _ _ _ _))
    | (with_reducible apply Chg.step (chg_retire _ _ _))
    | (with_reducible apply chg_mxIssue)
    | (with_reducible apply chg_orRaise)
    | (with_reducible apply Chg.foldl)
    | (with_reducible apply Chg.orElse_getD)
    | (with_reducible apply Chg.getD)
    | (with_reducible apply Chg.foldl_snd)
    | intro _
    | split
    | dsimp only
    | ((with_reducible refine Chg.mk rfl ?_ rfl rfl rfl rfl ?_); · (intro x hx; cases x <;> first | rfl | exact ⟨rfl, rfl⟩ | exact absurd (by decide) hx))

theorem chg_rowMxFill (s : State) (a b) : Chg [.free, .out, .regs, .cores, .launches, .parts, .dies, .chans] s (State.rowMxFill s a b) := by
  unfold State.rowMxFill
  repeat' first
    | ((with_reducible apply subF_of); rfl)
    | (with_reducible apply subF.refl)
    | (with_reducible apply Chg.refl)
    | (with_reducible assumption)
    | (with_reducible apply Chg.step (chg_issued _ _ _))
    | (with_reducible apply Chg.step (chg_modCore _ _ _))
    | (with_reducible apply Chg.step (chg_park _ _ _ _))
    | (with_reducible apply Chg.step (chg_retire _ _ _))
    | (with_reducible apply Chg.step (chg_spansRows _ _ _ _ _))
    | (with_reducible (apply Chg.step (Chg.snd (chg_spansRows _ _ _ _ _) ?e)); case e => assumption)
    | (with_reducible apply Chg.step (chg_touchSpans _ _ _ _))
    | (with_reducible apply Chg.step (chg_track _ _ _))
    | (with_reducible (apply Chg.step (Chg.snd (chg_track _ _ _) ?e)); case e => assumption)
    | (with_reducible apply chg_access)
    | (with_reducible apply chg_mxIssue)
    | (with_reducible apply chg_orRaise)
    | (with_reducible apply Chg.foldl)
    | (with_reducible apply Chg.orElse_getD)
    | (with_reducible apply Chg.getD)
    | (with_reducible apply Chg.foldl_snd)
    | intro _
    | split
    | dsimp only
    | ((with_reducible refine Chg.mk rfl ?_ rfl rfl rfl rfl ?_); · (intro x hx; cases x <;> first | rfl | exact ⟨rfl, rfl⟩ | exact absurd (by decide) hx))

theorem chg_rowMxLdb (s : State) (a b) : Chg [.free, .out, .regs, .cores, .launches, .parts, .dies, .chans] s (State.rowMxLdb s a b) := by
  unfold State.rowMxLdb
  repeat' first
    | ((with_reducible apply subF_of); rfl)
    | (with_reducible apply subF.refl)
    | (with_reducible apply Chg.refl)
    | (with_reducible assumption)
    | (with_reducible apply Chg.step (chg_accept _ _ _ _ _))
    | (with_reducible apply Chg.step (chg_modMx _ _ _))
    | (with_reducible apply Chg.step (chg_park _ _ _ _))
    | (with_reducible apply chg_mxIssue)
    | (with_reducible apply chg_orRaise)
    | (with_reducible apply Chg.foldl)
    | (with_reducible apply Chg.orElse_getD)
    | (with_reducible apply Chg.getD)
    | (with_reducible apply Chg.foldl_snd)
    | intro _
    | split
    | dsimp only
    | ((with_reducible refine Chg.mk rfl ?_ rfl rfl rfl rfl ?_); · (intro x hx; cases x <;> first | rfl | exact ⟨rfl, rfl⟩ | exact absurd (by decide) hx))

theorem chg_rowMxMma (s : State) (a b) : Chg [.free, .out, .regs, .cores, .launches, .parts, .dies, .chans] s (State.rowMxMma s a b) := by
  unfold State.rowMxMma
  repeat' first
    | ((with_reducible apply subF_of); rfl)
    | (with_reducible apply subF.refl)
    | (with_reducible apply Chg.refl)
    | (with_reducible assumption)
    | (with_reducible apply Chg.step (chg_accept _ _ _ _ _))
    | (with_reducible apply Chg.step (chg_park _ _ _ _))
    | (with_reducible apply chg_mxIssue)
    | (with_reducible apply chg_orRaise)
    | (with_reducible apply Chg.foldl)
    | (with_reducible apply Chg.orElse_getD)
    | (with_reducible apply Chg.getD)
    | (with_reducible apply Chg.foldl_snd)
    | intro _
    | split
    | dsimp only
    | ((with_reducible refine Chg.mk rfl ?_ rfl rfl rfl rfl ?_); · (intro x hx; cases x <;> first | rfl | exact ⟨rfl, rfl⟩ | exact absurd (by decide) hx))

theorem chg_rowMxClr (s : State) (a b) : Chg [.free, .out, .regs, .cores, .launches, .parts, .dies, .chans] s (State.rowMxClr s a b) := by
  unfold State.rowMxClr
  repeat' first
    | ((with_reducible apply subF_of); rfl)
    | (with_reducible apply subF.refl)
    | (with_reducible apply Chg.refl)
    | (with_reducible assumption)
    | (with_reducible apply Chg.step (chg_accept _ _ _ _ _))
    | (with_reducible apply chg_mxIssue)
    | (with_reducible apply Chg.foldl)
    | (with_reducible apply Chg.orElse_getD)
    | (with_reducible apply Chg.getD)
    | (with_reducible apply Chg.foldl_snd)
    | intro _
    | split
    | dsimp only

theorem chg_rowMxAddraw (s : State) (a b) : Chg [.free, .out, .regs, .cores, .launches, .parts, .dies, .chans] s (State.rowMxAddraw s a b) := by
  unfold State.rowMxAddraw
  repeat' first
    | ((with_reducible apply subF_of); rfl)
    | (with_reducible apply subF.refl)
    | (with_reducible apply Chg.refl)
    | (with_reducible assumption)
    | (with_reducible apply Chg.step (chg_accept _ _ _ _ _))
    | (with_reducible apply Chg.step (chg_park _ _ _ _))
    | (with_reducible apply chg_mxIssue)
    | (with_reducible apply chg_orRaise)
    | (with_reducible apply Chg.foldl)
    | (with_reducible apply Chg.orElse_getD)
    | (with_reducible apply Chg.getD)
    | (with_reducible apply Chg.foldl_snd)
    | intro _
    | split
    | dsimp only
    | ((with_reducible refine Chg.mk rfl ?_ rfl rfl rfl rfl ?_); · (intro x hx; cases x <;> first | rfl | exact ⟨rfl, rfl⟩ | exact absurd (by decide) hx))

theorem chg_rowMxDrain (s : State) (a b) : Chg [.free, .out, .regs, .cores, .launches, .parts, .dies, .chans] s (State.rowMxDrain s a b) := by
  unfold State.rowMxDrain
  repeat' first
    | ((with_reducible apply subF_of); rfl)
    | (with_reducible apply subF.refl)
    | (with_reducible apply Chg.refl)
    | (with_reducible assumption)
    | (with_reducible apply Chg.step (chg_accept _ _ _ _ _))
    | (with_reducible apply Chg.step (chg_park _ _ _ _))
    | (with_reducible apply Chg.step (chg_spansRows _ _ _ _ _))
    | (with_reducible (apply Chg.step (Chg.snd (chg_spansRows _ _ _ _ _) ?e)); case e => assumption)
    | (with_reducible apply Chg.step (chg_track _ _ _))
    | (with_reducible (apply Chg.step (Chg.snd (chg_track _ _ _) ?e)); case e => assumption)
    | (with_reducible apply chg_access)
    | (with_reducible apply chg_mxIssue)
    | (with_reducible apply chg_orRaise)
    | (with_reducible apply Chg.foldl)
    | (with_reducible apply Chg.orElse_getD)
    | (with_reducible apply Chg.getD)
    | (with_reducible apply Chg.foldl_snd)
    | intro _
    | split
    | dsimp only
    | ((with_reducible refine Chg.mk rfl ?_ rfl rfl rfl rfl ?_); · (intro x hx; cases x <;> first | rfl | exact ⟨rfl, rfl⟩ | exact absurd (by decide) hx))

theorem chg_rowMxStat (s : State) (a b) : Chg [.free, .out, .regs, .cores, .launches, .parts, .dies, .chans] s (State.rowMxStat s a b) := by
  unfold State.rowMxStat
  repeat' first
    | ((with_reducible apply subF_of); rfl)
    | (with_reducible apply subF.refl)
    | (with_reducible apply Chg.refl)
    | (with_reducible assumption)
    | (with_reducible apply Chg.step (chg_accept _ _ _ _ _))
    | (with_reducible apply chg_mxIssue)
    | (with_reducible apply Chg.foldl)
    | (with_reducible apply Chg.orElse_getD)
    | (with_reducible apply Chg.getD)
    | (with_reducible apply Chg.foldl_snd)
    | intro _
    | split
    | dsimp only

end Sys2Proof.Machine
end

