-- ==== Sys2Proof/Laws/ChgNest.lean ====
section
/-! SUPPORT. What each operation of Machine/Nest.lean may change. -/

namespace Sys2Proof.Machine

theorem chg_nestArray (s : State) (a b c d e) : Chg [.regs, .cores] s (State.nestArray s a b c d e) := by
  unfold State.nestArray
  repeat' first
    | ((with_reducible apply subF_of); rfl)
    | (with_reducible apply Chg.refl)
    | (with_reducible assumption)
    | (with_reducible apply Chg.step (chg_modMx _ _ _))
    | (with_reducible apply Chg.step (chg_pmEvent _ _ _ _ _))
    | (with_reducible apply Chg.foldl)
    | (with_reducible apply Chg.orElse_getD)
    | (with_reducible apply Chg.getD)
    | (with_reducible apply Chg.foldl_snd)
    | intro _
    | split
    | dsimp only
    | ((with_reducible refine Chg.mk rfl ?_ rfl rfl rfl rfl ?_); · (intro x hx; cases x <;> first | rfl | exact ⟨rfl, rfl⟩ | exact absurd (by decide) hx))

theorem chg_nestDrain (s : State) (a b c d e f g) : Chg [.free, .regs, .cores, .launches, .parts] s (State.nestDrain s a b c d e f g) := by
  unfold State.nestDrain
  repeat' first
    | ((with_reducible apply subF_of); rfl)
    | (with_reducible apply Chg.refl)
    | (with_reducible assumption)
    | (with_reducible apply Chg.step (chg_modMx _ _ _))
    | (with_reducible apply Chg.step (chg_startDrain _ _ _ _ _ _ _ _))
    | (with_reducible apply Chg.foldl)
    | (with_reducible apply Chg.orElse_getD)
    | (with_reducible apply Chg.getD)
    | (with_reducible apply Chg.foldl_snd)
    | intro _
    | split
    | dsimp only
    | ((with_reducible refine Chg.mk rfl ?_ rfl rfl rfl rfl ?_); · (intro x hx; cases x <;> first | rfl | exact ⟨rfl, rfl⟩ | exact absurd (by decide) hx))

theorem chg_nestNext (s : State) (a b c d e) : Chg [.free, .regs, .cores, .launches, .parts] s (State.nestNext s a b c d e) := by
  unfold State.nestNext
  repeat' first
    | ((with_reducible apply subF_of); rfl)
    | (with_reducible apply Chg.refl)
    | (with_reducible assumption)
    | (with_reducible apply Chg.step (chg_nestArray _ _ _ _ _ _))
    | (with_reducible apply Chg.step (chg_nestDrain _ _ _ _ _ _ _ _))
    | (with_reducible apply Chg.foldl)
    | (with_reducible apply Chg.orElse_getD)
    | (with_reducible apply Chg.getD)
    | (with_reducible apply Chg.foldl_snd)
    | intro _
    | split
    | dsimp only
    | ((with_reducible refine Chg.mk rfl ?_ rfl rfl rfl rfl ?_); · (intro x hx; cases x <;> first | rfl | exact ⟨rfl, rfl⟩ | exact absurd (by decide) hx))

theorem chg_nestOp (s : State) (a) : Chg [.free, .regs, .cores, .launches, .parts] s (State.nestOp s a) := by
  unfold State.nestOp
  repeat' first
    | ((with_reducible apply subF_of); rfl)
    | (with_reducible apply Chg.refl)
    | (with_reducible assumption)
    | (with_reducible apply Chg.step (chg_nestNext _ _ _ _ _ _))
    | (with_reducible apply Chg.foldl)
    | (with_reducible apply Chg.orElse_getD)
    | (with_reducible apply Chg.getD)
    | (with_reducible apply Chg.foldl_snd)
    | intro _
    | split
    | dsimp only
    | ((with_reducible refine Chg.mk rfl ?_ rfl rfl rfl rfl ?_); · (intro x hx; cases x <;> first | rfl | exact ⟨rfl, rfl⟩ | exact absurd (by decide) hx))

theorem chg_endNest (s : State) (a) : Chg [.cores] s (State.endNest s a) := by
  unfold State.endNest
  repeat' first
    | ((with_reducible apply subF_of); rfl)
    | (with_reducible apply Chg.refl)
    | (with_reducible assumption)
    | (with_reducible apply Chg.step (chg_freeTrack _ _ _))
    | (with_reducible apply Chg.step (chg_modMx _ _ _))
    | (with_reducible apply Chg.step (chg_wakeAll _ _ _))
    | (with_reducible apply Chg.foldl)
    | (with_reducible apply Chg.orElse_getD)
    | (with_reducible apply Chg.getD)
    | (with_reducible apply Chg.foldl_snd)
    | intro _
    | split
    | dsimp only
    | ((with_reducible refine Chg.mk rfl ?_ rfl rfl rfl rfl ?_); · (intro x hx; cases x <;> first | rfl | exact ⟨rfl, rfl⟩ | exact absurd (by decide) hx))

theorem chg_rowMxNest (s : State) (a b) : Chg [.free, .out, .regs, .cores, .launches, .parts, .dies, .chans] s (State.rowMxNest s a b) := by
  unfold State.rowMxNest
  repeat' first
    | ((with_reducible apply subF_of); rfl)
    | (with_reducible apply subF.refl)
    | (with_reducible apply Chg.refl)
    | (with_reducible assumption)
    | (with_reducible apply Chg.step (chg_accept _ _ _ _ _))
    | (with_reducible apply Chg.step (chg_modMx _ _ _))
    | (with_reducible apply Chg.step (chg_park _ _ _ _))
    | (with_reducible apply Chg.step (chg_raise _ _ _ _ _ _ _))
    | (with_reducible apply Chg.step (chg_spansVa _ _ _ _ _ _ _))
    | (with_reducible (apply Chg.step (Chg.snd (chg_spansVa _ _ _ _ _ _ _) ?e)); case e => assumption)
    | (with_reducible apply Chg.step (chg_track _ _ _))
    | (with_reducible (apply Chg.step (Chg.snd (chg_track _ _ _) ?e)); case e => assumption)
    | (with_reducible apply chg_access)
    | (with_reducible apply chg_mxIssue)
    | (with_reducible apply chg_orRaise)
    | (with_reducible apply Chg.foldl)
    | (with_reducible apply Chg.orElse_getD)
    | (with_reducible apply Chg.getD)
    | (with_reducible apply Chg.foldl_snd)
    | intro _
    | split
    | dsimp only
    | ((with_reducible refine Chg.mk rfl ?_ rfl rfl rfl rfl ?_); · (intro x hx; cases x <;> first | rfl | exact ⟨rfl, rfl⟩ | exact absurd (by decide) hx))

end Sys2Proof.Machine
end

