-- ==== Sys2Proof/Laws/ChgIssue.lean ====
section
/-! SUPPORT. What each operation of Machine/Issue.lean may change. -/

namespace Sys2Proof.Machine

/-- A row's command changes what the row does, and the mark of the unit's grant. -/
theorem chg_inTurn {L : List Fld} {s : State} {g : GRef} {w : Word64} {row : State → State} (h : Chg L s (row s)) (hc : [Fld.cores].all (fun f => L.contains f) = true) :
    Chg L s (s.inTurn g w row) := by
  unfold State.inTurn
  split
  · exact Chg.refl _ _
  · split
    · split
      · split
        · exact Chg.step (chg_modMx _ _ _) (subF_of hc) h
        · exact h
      · exact Chg.refl _ _
    · exact h

end Sys2Proof.Machine
end

