-- ==== Sys2Proof/Laws/ChgPlace.lean ====
section
/-! SUPPORT. What each operation of Machine/Place.lean may change. -/

namespace Sys2Proof.Machine

theorem chg_enterActive (s : State) (a b) : Chg [.cores] s (State.enterActive s a b) := by
  unfold State.enterActive
  repeat' first
    | ((with_reducible apply subF_of); rfl)
    | (with_reducible apply Chg.refl)
    | (with_reducible assumption)
    | (with_reducible apply Chg.step (chg_modCore _ _ _))
    | (with_reducible apply Chg.foldl)
    | (with_reducible apply Chg.orElse_getD)
    | (with_reducible apply Chg.getD)
    | (with_reducible apply Chg.foldl_snd)
    | intro _
    | split
    | dsimp only

theorem chg_rotate (s : State) (a b) : Chg [.cores] s (State.rotate s a b) := by
  unfold State.rotate
  repeat' first
    | ((with_reducible apply subF_of); rfl)
    | (with_reducible apply Chg.refl)
    | (with_reducible assumption)
    | (with_reducible apply Chg.step (chg_modCore _ _ _))
    | (with_reducible apply Chg.foldl)
    | (with_reducible apply Chg.orElse_getD)
    | (with_reducible apply Chg.getD)
    | (with_reducible apply Chg.foldl_snd)
    | intro _
    | split
    | dsimp only

theorem chg_beginOn (s : State) (a b c) : Chg [.regs, .cores, .dbg] s (State.beginOn s a b c) := by
  unfold State.beginOn
  repeat' first
    | ((with_reducible apply subF_of); rfl)
    | (with_reducible apply Chg.refl)
    | (with_reducible assumption)
    | (with_reducible apply Chg.step (chg_modCore _ _ _))
    | (with_reducible apply Chg.step (chg_setBit _ _ _ _))
    | (with_reducible apply Chg.step (chg_traceLaunch _ _ _ _ _))
    | (with_reducible apply Chg.foldl)
    | (with_reducible apply Chg.orElse_getD)
    | (with_reducible apply Chg.getD)
    | (with_reducible apply Chg.foldl_snd)
    | intro _
    | split
    | dsimp only
    | ((with_reducible refine Chg.mk rfl ?_ rfl rfl rfl rfl ?_); · (intro x hx; cases x <;> first | rfl | exact ⟨rfl, rfl⟩ | exact absurd (by decide) hx))

theorem chg_addBlock (s : State) (a b c d e f g h i) : Chg [.free, .regs, .cores, .dbg] s (State.addBlock s a b c d e f g h i) := by
  unfold State.addBlock
  repeat' first
    | ((with_reducible apply subF_of); rfl)
    | (with_reducible apply Chg.refl)
    | (with_reducible assumption)
    | (with_reducible apply Chg.step (chg_beginOn _ _ _ _))
    | (with_reducible apply Chg.step (chg_modCore _ _ _))
    | (with_reducible apply Chg.foldl)
    | (with_reducible apply Chg.orElse_getD)
    | (with_reducible apply Chg.getD)
    | (with_reducible apply Chg.foldl_snd)
    | intro _
    | split
    | dsimp only
    | ((with_reducible refine Chg.mk rfl ?_ rfl rfl rfl rfl ?_); · (intro x hx; cases x <;> first | rfl | exact ⟨rfl, rfl⟩ | exact absurd (by decide) hx))

theorem chg_takeItem (s : State) (a b) : Chg [.launches, .parts] s (State.takeItem s a b) := by
  unfold State.takeItem
  repeat' first
    | ((with_reducible apply subF_of); rfl)
    | (with_reducible apply Chg.refl)
    | (with_reducible assumption)
    | (with_reducible apply Chg.step (chg_failLaunch _ _ _))
    | (with_reducible apply Chg.step (chg_modLaunch _ _ _))
    | (with_reducible apply Chg.step (chg_setStageChan _ _ _ _))
    | (with_reducible apply Chg.foldl)
    | (with_reducible apply Chg.orElse_getD)
    | (with_reducible apply Chg.getD)
    | (with_reducible apply Chg.foldl_snd)
    | intro _
    | split
    | dsimp only
    | ((with_reducible refine Chg.mk rfl ?_ rfl rfl rfl rfl ?_); · (intro x hx; cases x <;> first | rfl | exact ⟨rfl, rfl⟩ | exact absurd (by decide) hx))

theorem chg_placeCluster {s : State} {a b c d e f} {v : Bool × State} (h : State.placeCluster s a b c d e f = some v) : Chg [.free, .regs, .cores, .dbg] s v.2 := by
  induction e generalizing s f v with
  | zero => cases h; exact Chg.refl _ _
  | succ n ih =>
    unfold State.placeCluster at h
    split at h
    · contradiction
    · rw [Option.map_eq_some_iff] at h
      obtain ⟨r, hr, rfl⟩ := h
      exact (ih hr).trans' ((chg_addBlock _ _ _ _ _ _ _ _ _ _).mono (subF_of rfl))

theorem chg_placeNext {s : State} {a b c} {v : State} (h : State.placeNext s a b c = some v) : Chg [.free, .regs, .cores, .launches, .dbg] s v := by
  unfold State.placeNext at h
  extract_lets num n total cores fits at h
  clear_value total
  split at h
  · split at h
    · next hr =>
      obtain ⟨d, -, hd⟩ := List.mem_filterMap.1 (argmin_mem hr)
      dsimp only at hd
      cases h
      refine Chg.step (chg_modLaunch _ _ _) (subF_of rfl) ?_
      split at hd
      · next k => cases hd; exact (chg_placeCluster k).mono (subF_of rfl)
      · contradiction
    · contradiction
  · contradiction

theorem chg_changeSplit (s : State) (a b) : Chg [.cores] s (State.changeSplit s a b) := by
  unfold State.changeSplit
  repeat' first
    | ((with_reducible apply subF_of); rfl)
    | (with_reducible apply Chg.refl)
    | (with_reducible assumption)
    | (with_reducible apply Chg.step (chg_modCore _ _ _))
    | (with_reducible apply Chg.foldl)
    | (with_reducible apply Chg.orElse_getD)
    | (with_reducible apply Chg.getD)
    | (with_reducible apply Chg.foldl_snd)
    | intro _
    | split
    | dsimp only

theorem chg_thief {s : State} {a b c} {v : State} (h : State.thief s a b c = some v) : Chg [.free, .regs, .cores, .launches, .dbg] s v := by
  unfold State.thief at h
  repeat' first
    | ((with_reducible apply subF_of); rfl)
    | contradiction
    | (injection h with h; subst h)
    | (split at h)
    | (dsimp only at h)
    | (with_reducible apply Chg.refl)
    | (with_reducible assumption)
    | (with_reducible apply Chg.step (chg_addBlock _ _ _ _ _ _ _ _ _ _))
    | (with_reducible apply Chg.step (chg_modCore _ _ _))
    | (with_reducible apply Chg.step (chg_modLaunch _ _ _))
    | (with_reducible apply Chg.step (chg_pmEvent _ _ _ _ _))

end Sys2Proof.Machine
end

