-- ==== Sys2Proof/Laws/ChgWatches.lean ====
section
/-! SUPPORT. What each operation of Machine/Watches.lean may change. -/

namespace Sys2Proof.Machine

theorem chg_withdraw (s : State) (a b) : Chg [.regs, .poison, .launches, .parts, .dies, .copies, .dbg] s (State.withdraw s a b) := by
  unfold State.withdraw
  repeat' first
    | ((with_reducible apply subF_of); rfl)
    | (with_reducible apply Chg.refl)
    | (with_reducible assumption)
    | (with_reducible apply Chg.step (chg_freeRegion _ _))
    | (with_reducible apply Chg.step (chg_modLaunch _ _ _))
    | (with_reducible apply Chg.step (chg_purgeCopy _ _ _))
    | (with_reducible apply Chg.step (chg_semReturn _ _ _))
    | (with_reducible apply Chg.foldl)
    | (with_reducible apply Chg.orElse_getD)
    | (with_reducible apply Chg.getD)
    | (with_reducible apply Chg.foldl_snd)
    | intro _
    | split
    | dsimp only
    | ((with_reducible refine Chg.mk rfl ?_ rfl rfl rfl rfl ?_); · (intro x hx; cases x <;> first | rfl | exact ⟨rfl, rfl⟩ | exact absurd (by decide) hx))

theorem chg_beginKill (s : State) (a b) : Chg [.regs, .launches, .dbg] s (State.beginKill s a b) := by
  unfold State.beginKill
  repeat' first
    | ((with_reducible apply subF_of); rfl)
    | (with_reducible apply Chg.refl)
    | (with_reducible assumption)
    | (with_reducible apply Chg.step (chg_modLaunch _ _ _))
    | (with_reducible apply Chg.step (chg_traceLaunch _ _ _ _ _))

theorem chg_killLaunch (s : State) (a) : Chg [.regs, .poison, .launches, .parts, .dies, .copies, .dbg] s (State.killLaunch s a) := by
  unfold State.killLaunch
  repeat' first
    | ((with_reducible apply subF_of); rfl)
    | (with_reducible apply Chg.refl)
    | (with_reducible assumption)
    | (with_reducible apply Chg.step (chg_beginKill _ _ _))
    | (with_reducible apply Chg.step (chg_withdraw _ _ _))
    | (with_reducible apply Chg.foldl)
    | (with_reducible apply Chg.orElse_getD)
    | (with_reducible apply Chg.getD)
    | (with_reducible apply Chg.foldl_snd)
    | intro _
    | split
    | dsimp only
    | ((with_reducible refine Chg.mk rfl ?_ rfl rfl rfl rfl ?_); · (intro x hx; cases x <;> first | rfl | exact ⟨rfl, rfl⟩ | exact absurd (by decide) hx))

theorem chg_endByReset (s : State) (a) : Chg [.launches, .parts] s (State.endByReset s a) := by
  unfold State.endByReset
  repeat' first
    | ((with_reducible apply subF_of); rfl)
    | (with_reducible apply Chg.refl)
    | (with_reducible assumption)
    | (with_reducible apply Chg.step (chg_failLaunch _ _ _))
    | (with_reducible apply Chg.step (chg_freeItems _ _ _))
    | (with_reducible apply Chg.step (chg_modLaunch _ _ _))
    | (with_reducible apply Chg.step (chg_semQuit _ _ _))
    | (with_reducible apply Chg.foldl)
    | (with_reducible apply Chg.orElse_getD)
    | (with_reducible apply Chg.getD)
    | (with_reducible apply Chg.foldl_snd)
    | intro _
    | split
    | dsimp only
    | ((with_reducible refine Chg.mk rfl ?_ rfl rfl rfl rfl ?_); · (intro x hx; cases x <;> first | rfl | exact ⟨rfl, rfl⟩ | exact absurd (by decide) hx))

theorem chg_killComplete (s : State) (a) : Chg [.free, .regs, .poison, .cores, .launches, .queues, .parts, .dies, .copies, .dbg] s (State.killComplete s a) := by
  unfold State.killComplete
  repeat' first
    | ((with_reducible apply subF_of); rfl)
    | (with_reducible apply Chg.refl)
    | (with_reducible assumption)
    | (with_reducible apply Chg.step (chg_endByReset _ _))
    | (with_reducible apply Chg.step (chg_freeRegion _ _))
    | (with_reducible apply Chg.step (chg_modLaunch _ _ _))
    | (with_reducible apply Chg.step (chg_noteWants _ _))
    | (with_reducible apply Chg.step (chg_purgeLaunch _ _ _))
    | (with_reducible apply Chg.step (chg_semReturn _ _ _))
    | (with_reducible apply Chg.foldl)
    | (with_reducible apply Chg.orElse_getD)
    | (with_reducible apply Chg.getD)
    | (with_reducible apply Chg.foldl_snd)
    | intro _
    | split
    | dsimp only
    | ((with_reducible refine Chg.mk rfl ?_ rfl rfl rfl rfl ?_); · (intro x hx; cases x <;> first | rfl | exact ⟨rfl, rfl⟩ | exact absurd (by decide) hx))

theorem chg_grantWatch (s : State) (a) : Chg [.queues] s (State.grantWatch s a) := by
  unfold State.grantWatch
  repeat' first
    | ((with_reducible apply subF_of); rfl)
    | (with_reducible apply Chg.refl)
    | (with_reducible assumption)
    | (with_reducible apply Chg.step (chg_modQueue _ _ _))
    | (with_reducible apply Chg.step (chg_noteWants _ _))
    | (with_reducible apply Chg.foldl)
    | (with_reducible apply Chg.orElse_getD)
    | (with_reducible apply Chg.getD)
    | (with_reducible apply Chg.foldl_snd)
    | intro _
    | split
    | dsimp only
    | ((with_reducible refine Chg.mk rfl ?_ rfl rfl rfl rfl ?_); · (intro x hx; cases x <;> first | rfl | exact ⟨rfl, rfl⟩ | exact absurd (by decide) hx))

theorem chg_releaseWatch (s : State) (a) : Chg [.queues] s (State.releaseWatch s a) := by
  unfold State.releaseWatch
  repeat' first
    | ((with_reducible apply subF_of); rfl)
    | (with_reducible apply Chg.refl)
    | (with_reducible assumption)
    | (with_reducible apply Chg.step (chg_noteWants _ _))
    | (with_reducible apply Chg.step (chg_setQueue _ _ _))
    | (with_reducible apply Chg.foldl)
    | (with_reducible apply Chg.orElse_getD)
    | (with_reducible apply Chg.getD)
    | (with_reducible apply Chg.foldl_snd)
    | intro _
    | split
    | dsimp only
    | ((with_reducible refine Chg.mk rfl ?_ rfl rfl rfl rfl ?_); · (intro x hx; cases x <;> first | rfl | exact ⟨rfl, rfl⟩ | exact absurd (by decide) hx))

theorem chg_expireWatch (s : State) (a) : Chg [.regs, .poison, .launches, .queues, .parts, .dies, .copies, .dbg] s (State.expireWatch s a) := by
  unfold State.expireWatch
  repeat' first
    | ((with_reducible apply subF_of); rfl)
    | (with_reducible apply Chg.refl)
    | (with_reducible assumption)
    | (with_reducible apply Chg.step (chg_killLaunch _ _))
    | (with_reducible apply Chg.step (chg_modQueue _ _ _))
    | (with_reducible apply Chg.step (chg_noteWants _ _))
    | (with_reducible apply Chg.step (chg_setQueue _ _ _))
    | (with_reducible apply Chg.foldl)
    | (with_reducible apply Chg.orElse_getD)
    | (with_reducible apply Chg.getD)
    | (with_reducible apply Chg.foldl_snd)
    | intro _
    | split
    | dsimp only
    | ((with_reducible refine Chg.mk rfl ?_ rfl rfl rfl rfl ?_); · (intro x hx; cases x <;> first | rfl | exact ⟨rfl, rfl⟩ | exact absurd (by decide) hx))

theorem chg_rtBecomesActive (s : State) (a b) : Chg [.regs, .poison, .launches, .queues, .parts, .dies, .copies, .dbg] s (State.rtBecomesActive s a b) := by
  unfold State.rtBecomesActive
  repeat' first
    | ((with_reducible apply subF_of); rfl)
    | (with_reducible apply Chg.refl)
    | (with_reducible assumption)
    | (with_reducible apply Chg.step (chg_killLaunch _ _))
    | (with_reducible apply Chg.step (chg_noteWants _ _))
    | (with_reducible apply Chg.foldl)
    | (with_reducible apply Chg.orElse_getD)
    | (with_reducible apply Chg.getD)
    | (with_reducible apply Chg.foldl_snd)
    | intro _
    | split
    | dsimp only
    | ((with_reducible refine Chg.mk rfl ?_ rfl rfl rfl rfl ?_); · (intro x hx; cases x <;> first | rfl | exact ⟨rfl, rfl⟩ | exact absurd (by decide) hx))

end Sys2Proof.Machine
end

