-- ==== Sys2Proof/Laws/ChgQueues.lean ====
section
/-! SUPPORT. What each operation of Machine/Queues.lean may change. -/

namespace Sys2Proof.Machine

theorem chg_doorbell (s : State) (a b) : Chg [.out, .queues, .host] s (State.doorbell s a b) := by
  unfold State.doorbell
  repeat' first
    | ((with_reducible apply subF_of); rfl)
    | (with_reducible apply Chg.refl)
    | (with_reducible assumption)
    | (with_reducible apply Chg.step (chg_haltQueue _ _ _))
    | (with_reducible apply Chg.step (chg_setQueue _ _ _))
    | (with_reducible apply Chg.foldl)
    | (with_reducible apply Chg.orElse_getD)
    | (with_reducible apply Chg.getD)
    | (with_reducible apply Chg.foldl_snd)
    | intro _
    | split
    | dsimp only

theorem chg_configure (s : State) (a b) : Chg [.queues] s (State.configure s a b) := by
  unfold State.configure
  repeat' first
    | ((with_reducible apply subF_of); rfl)
    | (with_reducible apply Chg.refl)
    | (with_reducible assumption)
    | (with_reducible apply Chg.step (chg_setQueue _ _ _))
    | (with_reducible apply Chg.foldl)
    | (with_reducible apply Chg.orElse_getD)
    | (with_reducible apply Chg.getD)
    | (with_reducible apply Chg.foldl_snd)
    | intro _
    | split
    | dsimp only

theorem chg_dropPreloads (s : State) (a b) : Chg [.dies] s (State.dropPreloads s a b) := by
  unfold State.dropPreloads
  repeat' first
    | ((with_reducible apply subF_of); rfl)
    | (with_reducible apply Chg.refl)
    | (with_reducible assumption)
    | (with_reducible apply Chg.step (chg_modDie _ _ _))
    | (with_reducible apply Chg.foldl)
    | (with_reducible apply Chg.orElse_getD)
    | (with_reducible apply Chg.getD)
    | (with_reducible apply Chg.foldl_snd)
    | intro _
    | split
    | dsimp only
    | ((with_reducible refine Chg.mk rfl ?_ rfl rfl rfl rfl ?_); · (intro x hx; cases x <;> first | rfl | exact ⟨rfl, rfl⟩ | exact absurd (by decide) hx))

theorem chg_freePreload (s : State) (a b) : Chg [.dies] s (State.freePreload s a b) := by
  unfold State.freePreload
  repeat' first
    | ((with_reducible apply subF_of); rfl)
    | (with_reducible apply Chg.refl)
    | (with_reducible assumption)
    | (with_reducible apply Chg.step (chg_dropPreloads _ _ _))
    | (with_reducible apply Chg.foldl)
    | (with_reducible apply Chg.orElse_getD)
    | (with_reducible apply Chg.getD)
    | (with_reducible apply Chg.foldl_snd)
    | intro _
    | split
    | dsimp only
    | ((with_reducible refine Chg.mk rfl ?_ rfl rfl rfl rfl ?_); · (intro x hx; cases x <;> first | rfl | exact ⟨rfl, rfl⟩ | exact absurd (by decide) hx))

theorem chg_forget (s : State) (a b) : Chg [.launches, .parts, .dies] s (State.forget s a b) := by
  unfold State.forget
  repeat' first
    | ((with_reducible apply subF_of); rfl)
    | (with_reducible apply Chg.refl)
    | (with_reducible assumption)
    | (with_reducible apply Chg.step (chg_delLaunch _ _))
    | (with_reducible apply Chg.step (chg_freeItems _ _ _))
    | (with_reducible apply Chg.step (chg_freePreload _ _ _))
    | (with_reducible apply Chg.step (chg_semQuit _ _ _))
    | (with_reducible apply Chg.step (chg_semReturn _ _ _))
    | (with_reducible apply Chg.foldl)
    | (with_reducible apply Chg.orElse_getD)
    | (with_reducible apply Chg.getD)
    | (with_reducible apply Chg.foldl_snd)
    | intro _
    | split
    | dsimp only
    | ((with_reducible refine Chg.mk rfl ?_ rfl rfl rfl rfl ?_); · (intro x hx; cases x <;> first | rfl | exact ⟨rfl, rfl⟩ | exact absurd (by decide) hx))

theorem chg_resetLaunch (s : State) (a) : Chg [.regs, .poison, .launches, .parts, .dies, .copies, .dbg] s (State.resetLaunch s a) := by
  unfold State.resetLaunch
  repeat' first
    | ((with_reducible apply subF_of); rfl)
    | (with_reducible apply Chg.refl)
    | (with_reducible assumption)
    | (with_reducible apply Chg.step (chg_beginKill _ _ _))
    | (with_reducible apply Chg.step (chg_endByReset _ _))
    | (with_reducible apply Chg.step (chg_forget _ _ _))
    | (with_reducible apply Chg.step (chg_semReturn _ _ _))
    | (with_reducible apply Chg.step (chg_withdraw _ _ _))
    | (with_reducible apply Chg.foldl)
    | (with_reducible apply Chg.orElse_getD)
    | (with_reducible apply Chg.getD)
    | (with_reducible apply Chg.foldl_snd)
    | intro _
    | split

theorem chg_finish (s : State) (a b) : Chg [.launches] s (State.finish s a b) := by
  unfold State.finish
  repeat' first
    | ((with_reducible apply subF_of); rfl)
    | (with_reducible apply Chg.refl)
    | (with_reducible assumption)
    | (with_reducible apply Chg.step (chg_modLaunch _ _ _))

theorem chg_callDone (s : State) (a) : Chg [.launches] s (State.callDone s a) := by
  unfold State.callDone
  repeat' first
    | ((with_reducible apply subF_of); rfl)
    | (with_reducible apply Chg.refl)
    | (with_reducible assumption)
    | (with_reducible apply Chg.step (chg_finish _ _ _))
    | (with_reducible apply Chg.foldl)
    | (with_reducible apply Chg.orElse_getD)
    | (with_reducible apply Chg.getD)
    | (with_reducible apply Chg.foldl_snd)
    | intro _
    | split
    | dsimp only

theorem chg_beginQueueReset (s : State) (a) : Chg [.regs, .poison, .launches, .queues, .parts, .dies, .copies, .dbg] s (State.beginQueueReset s a) := by
  unfold State.beginQueueReset
  repeat' first
    | ((with_reducible apply subF_of); rfl)
    | (with_reducible apply Chg.refl)
    | (with_reducible assumption)
    | (with_reducible apply Chg.step (chg_callDone _ _))
    | (with_reducible apply Chg.step (chg_noteWants _ _))
    | (with_reducible apply Chg.step (chg_resetLaunch _ _))
    | (with_reducible apply Chg.step (chg_setQueue _ _ _))
    | (with_reducible apply Chg.foldl)
    | (with_reducible apply Chg.orElse_getD)
    | (with_reducible apply Chg.getD)
    | (with_reducible apply Chg.foldl_snd)
    | intro _
    | split
    | dsimp only
    | ((with_reducible refine Chg.mk rfl ?_ rfl rfl rfl rfl ?_); · (intro x hx; cases x <;> first | rfl | exact ⟨rfl, rfl⟩ | exact absurd (by decide) hx))

theorem chg_endQueueReset (s : State) (a) : Chg [.queues, .dies] s (State.endQueueReset s a) := by
  unfold State.endQueueReset
  repeat' first
    | ((with_reducible apply subF_of); rfl)
    | (with_reducible apply Chg.refl)
    | (with_reducible assumption)
    | (with_reducible apply Chg.step (chg_dropPreloads _ _ _))
    | (with_reducible apply Chg.step (chg_setQueue _ _ _))
    | (with_reducible apply Chg.foldl)
    | (with_reducible apply Chg.orElse_getD)
    | (with_reducible apply Chg.getD)
    | (with_reducible apply Chg.foldl_snd)
    | intro _
    | split
    | dsimp only
    | ((with_reducible refine Chg.mk rfl ?_ rfl rfl rfl rfl ?_); · (intro x hx; cases x <;> first | rfl | exact ⟨rfl, rfl⟩ | exact absurd (by decide) hx))

theorem chg_preloadCode (s : State) (a b c d) : Chg [.free, .out, .cores, .parts] s (State.preloadCode s a b c d) := by
  unfold State.preloadCode
  repeat' first
    | ((with_reducible apply subF_of); rfl)
    | (with_reducible apply Chg.refl)
    | (with_reducible assumption)
    | (with_reducible apply Chg.step (chg_icacheFill _ _ _ _ _))
    | (with_reducible apply Chg.step (chg_readAt _ _ _))
    | (with_reducible (apply Chg.step (Chg.snd (chg_readAt _ _ _) ?e)); case e => assumption)
    | (with_reducible apply Chg.step (chg_transl _ _ _ _ _))
    | (with_reducible (apply Chg.step (Chg.snd (chg_transl _ _ _ _ _) ?e)); case e => assumption)
    | (with_reducible apply Chg.foldl)
    | (with_reducible apply Chg.orElse_getD)
    | (with_reducible apply Chg.getD)
    | (with_reducible apply Chg.foldl_snd)
    | intro _
    | split
    | dsimp only
    | ((with_reducible refine Chg.mk rfl ?_ rfl rfl rfl rfl ?_); · (intro x hx; cases x <;> first | rfl | exact ⟨rfl, rfl⟩ | exact absurd (by decide) hx))

theorem chg_readInd (s : State) (a b c d e) : Chg [.free, .out, .parts] s (State.readInd s a b c d e).2 := by
  unfold State.readInd
  repeat' first
    | ((with_reducible apply subF_of); rfl)
    | (with_reducible apply Chg.refl)
    | (with_reducible assumption)
    | (with_reducible apply Chg.step (chg_fetchBytes _ _ _ _ _))
    | (with_reducible (apply Chg.step (Chg.snd (chg_fetchBytes _ _ _ _ _) ?e)); case e => assumption)
    | (with_reducible apply Chg.foldl)
    | (with_reducible apply Chg.orElse_getD)
    | (with_reducible apply Chg.getD)
    | (with_reducible apply Chg.foldl_snd)
    | intro _
    | split

theorem chg_bindValues (s : State) (a) : Chg [.free, .out, .parts] s (State.bindValues s a).2 := by
  unfold State.bindValues
  repeat' first
    | ((with_reducible apply subF_of); rfl)
    | (with_reducible apply Chg.refl)
    | (with_reducible assumption)
    | (with_reducible apply Chg.step (chg_readInd _ _ _ _ _ _))
    | (with_reducible (apply Chg.step (Chg.snd (chg_readInd _ _ _ _ _ _) ?e)); case e => assumption)
    | (with_reducible apply Chg.foldl)
    | (with_reducible apply Chg.orElse_getD)
    | (with_reducible apply Chg.getD)
    | (with_reducible apply Chg.foldl_snd)
    | intro _
    | split
    | dsimp only
    | ((with_reducible refine Chg.mk rfl ?_ rfl rfl rfl rfl ?_); · (intro x hx; cases x <;> first | rfl | exact ⟨rfl, rfl⟩ | exact absurd (by decide) hx))

theorem chg_readExt (s : State) (a b) : Chg [.free, .out, .parts] s (State.readExt s a b).2 := by
  unfold State.readExt
  repeat' first
    | ((with_reducible apply subF_of); rfl)
    | (with_reducible apply Chg.refl)
    | (with_reducible assumption)
    | (with_reducible apply Chg.step (chg_fetchBytes _ _ _ _ _))
    | (with_reducible (apply Chg.step (Chg.snd (chg_fetchBytes _ _ _ _ _) ?e)); case e => assumption)
    | (with_reducible apply Chg.foldl)
    | (with_reducible apply Chg.orElse_getD)
    | (with_reducible apply Chg.getD)
    | (with_reducible apply Chg.foldl_snd)
    | intro _
    | split

theorem chg_codeNow (s : State) (a b) : Chg [.free, .out, .parts] s (State.codeNow s a b).2 := by
  unfold State.codeNow
  repeat' first
    | ((with_reducible apply subF_of); rfl)
    | (with_reducible apply Chg.refl)
    | (with_reducible assumption)
    | (with_reducible apply Chg.step (chg_bindValues _ _))
    | (with_reducible (apply Chg.step (Chg.snd (chg_bindValues _ _) ?e)); case e => assumption)
    | (with_reducible apply Chg.step (chg_fetchBytes _ _ _ _ _))
    | (with_reducible (apply Chg.step (Chg.snd (chg_fetchBytes _ _ _ _ _) ?e)); case e => assumption)
    | (with_reducible apply Chg.step (chg_readExt _ _ _))
    | (with_reducible (apply Chg.step (Chg.snd (chg_readExt _ _ _) ?e)); case e => assumption)
    | (with_reducible apply Chg.foldl)
    | (with_reducible apply Chg.orElse_getD)
    | (with_reducible apply Chg.getD)
    | (with_reducible apply Chg.foldl_snd)
    | intro _
    | split
    | dsimp only
    | ((with_reducible refine Chg.mk rfl ?_ rfl rfl rfl rfl ?_); · (intro x hx; cases x <;> first | rfl | exact ⟨rfl, rfl⟩ | exact absurd (by decide) hx))

theorem chg_addPreload (s : State) (a b c d e) : Chg [.dies] s (State.addPreload s a b c d e) := by
  unfold State.addPreload
  repeat' first
    | ((with_reducible apply subF_of); rfl)
    | (with_reducible apply Chg.refl)
    | (with_reducible assumption)
    | (with_reducible apply Chg.step (chg_modDie _ _ _))
    | (with_reducible apply Chg.foldl)
    | (with_reducible apply Chg.orElse_getD)
    | (with_reducible apply Chg.getD)
    | (with_reducible apply Chg.foldl_snd)
    | intro _
    | split
    | dsimp only
    | ((with_reducible refine Chg.mk rfl ?_ rfl rfl rfl rfl ?_); · (intro x hx; cases x <;> first | rfl | exact ⟨rfl, rfl⟩ | exact absurd (by decide) hx))

theorem chg_preloadEntry (s : State) (a b c d) : Chg [.free, .out, .cores, .parts, .dies] s (State.preloadEntry s a b c d) := by
  unfold State.preloadEntry
  repeat' first
    | ((with_reducible apply subF_of); rfl)
    | (with_reducible apply Chg.refl)
    | (with_reducible assumption)
    | (with_reducible apply Chg.step (chg_addPreload _ _ _ _ _ _))
    | (with_reducible apply Chg.step (chg_codeNow _ _ _))
    | (with_reducible (apply Chg.step (Chg.snd (chg_codeNow _ _ _) ?e)); case e => assumption)
    | (with_reducible apply Chg.step (chg_fetchBytes _ _ _ _ _))
    | (with_reducible (apply Chg.step (Chg.snd (chg_fetchBytes _ _ _ _ _) ?e)); case e => assumption)
    | (with_reducible apply Chg.step (chg_preloadCode _ _ _ _ _))
    | (with_reducible apply Chg.step (chg_readExt _ _ _))
    | (with_reducible (apply Chg.step (Chg.snd (chg_readExt _ _ _) ?e)); case e => assumption)
    | (with_reducible apply Chg.foldl)
    | (with_reducible apply Chg.orElse_getD)
    | (with_reducible apply Chg.getD)
    | (with_reducible apply Chg.foldl_snd)
    | intro _
    | split
    | dsimp only
    | ((with_reducible refine Chg.mk rfl ?_ rfl rfl rfl rfl ?_); · (intro x hx; cases x <;> first | rfl | exact ⟨rfl, rfl⟩ | exact absurd (by decide) hx))

theorem chg_preloadHead {s : State} {a} {v : State} (h : State.preloadHead s a = some v) : Chg [.free, .out, .cores, .parts, .dies] s v := by
  unfold State.preloadHead at h
  repeat' first
    | ((with_reducible apply subF_of); rfl)
    | contradiction
    | (injection h with h; subst h)
    | (split at h)
    | (dsimp only at h)
    | (with_reducible apply Chg.refl)
    | (with_reducible assumption)
    | (with_reducible apply Chg.step (chg_fetchBytes _ _ _ _ _))
    | (with_reducible (apply Chg.step (Chg.snd (chg_fetchBytes _ _ _ _ _) ?e)); case e => assumption)
    | (with_reducible apply Chg.step (chg_preloadEntry _ _ _ _ _))
    | (with_reducible apply Chg.foldl)
    | (with_reducible apply Chg.orElse_getD)
    | (with_reducible apply Chg.getD)
    | (with_reducible apply Chg.foldl_snd)
    | intro _
    | split
    | dsimp only
    | ((with_reducible refine Chg.mk rfl ?_ rfl rfl rfl rfl ?_); · (intro x hx; cases x <;> first | rfl | exact ⟨rfl, rfl⟩ | exact absurd (by decide) hx))

theorem chg_preloadReplay {s : State} {a b} {v : State} (h : State.preloadReplay s a b = some v) : Chg [.free, .out, .cores, .parts, .dies] s v := by
  unfold State.preloadReplay at h
  repeat' first
    | ((with_reducible apply subF_of); rfl)
    | contradiction
    | (injection h with h; subst h)
    | (split at h)
    | (dsimp only at h)
    | (with_reducible apply Chg.refl)
    | (with_reducible assumption)
    | (with_reducible apply Chg.step (chg_preloadEntry _ _ _ _ _))
    | (with_reducible apply Chg.foldl)
    | (with_reducible apply Chg.orElse_getD)
    | (with_reducible apply Chg.getD)
    | (with_reducible apply Chg.foldl_snd)
    | intro _
    | split
    | dsimp only
    | ((with_reducible refine Chg.mk rfl ?_ rfl rfl rfl rfl ?_); · (intro x hx; cases x <;> first | rfl | exact ⟨rfl, rfl⟩ | exact absurd (by decide) hx))

theorem chg_preloadRoute {s : State} {a b} {v : State} (h : State.preloadRoute s a b = some v) : Chg [.free, .out, .cores, .parts, .dies] s v := by
  unfold State.preloadRoute at h
  repeat' first
    | ((with_reducible apply subF_of); rfl)
    | contradiction
    | (injection h with h; subst h)
    | (split at h)
    | (dsimp only at h)
    | (with_reducible apply Chg.refl)
    | (with_reducible assumption)
    | (with_reducible apply Chg.step (chg_dropPreloads _ _ _))
    | (with_reducible apply Chg.step (chg_preloadEntry _ _ _ _ _))
    | (with_reducible apply Chg.foldl)
    | (with_reducible apply Chg.orElse_getD)
    | (with_reducible apply Chg.getD)
    | (with_reducible apply Chg.foldl_snd)
    | intro _
    | split
    | dsimp only
    | ((with_reducible refine Chg.mk rfl ?_ rfl rfl rfl rfl ?_); · (intro x hx; cases x <;> first | rfl | exact ⟨rfl, rfl⟩ | exact absurd (by decide) hx))

/-- What each step keeps, the first step that can be taken keeps. -/
theorem chg_firstStep {α : Type} {L : List Fld} {s v : State} {f : α → Option State} {l : List α} (h : firstStep f l = some v)
    (k : ∀ x w, f x = some w → Chg L s w) : Chg L s v := by
  induction l with
  | nil => simp [firstStep] at h
  | cons x l ih =>
    unfold firstStep at h
    split at h
    · next t e => cases h; exact k x _ e
    · exact ih h

theorem orElse_some {α : Type} {o : Option α} {f : Unit → Option α} {v : α} (h : o.orElse f = some v) : o = some v ∨ f () = some v := by
  cases o with
  | none => exact .inr h
  | some x => exact .inl h

theorem chg_preloadNext {s : State} {a} {v : State} (h : State.preloadNext s a = some v) : Chg [.free, .out, .cores, .parts, .dies] s v := by
  unfold State.preloadNext at h
  rcases orElse_some h with h | h
  · exact (chg_preloadHead h).mono (subF_of rfl)
  · rcases orElse_some h with h | h
    · exact (chg_firstStep h fun _ _ => chg_preloadReplay).mono (subF_of rfl)
    · split at h
      · exact (chg_firstStep h fun _ _ => chg_preloadRoute).mono (subF_of rfl)
      · contradiction

theorem chg_unsupported (s : State) (a) : Chg [.out, .host] s (State.unsupported s a) := by
  unfold State.unsupported
  repeat' first
    | ((with_reducible apply subF_of); rfl)
    | (with_reducible apply Chg.refl)
    | (with_reducible assumption)
    | (with_reducible apply Chg.step (chg_emit _ _))
    | (with_reducible apply Chg.foldl)
    | (with_reducible apply Chg.orElse_getD)
    | (with_reducible apply Chg.getD)
    | (with_reducible apply Chg.foldl_snd)
    | intro _
    | split
    | dsimp only
    | ((with_reducible refine Chg.mk rfl ?_ rfl rfl rfl rfl ?_); · (intro x hx; cases x <;> first | rfl | exact ⟨rfl, rfl⟩ | exact absurd (by decide) hx))

theorem chg_noTarget (s : State) (a b) : Chg [.out, .host] s (State.noTarget s a b) := by
  unfold State.noTarget
  repeat' first
    | ((with_reducible apply subF_of); rfl)
    | (with_reducible apply Chg.refl)
    | (with_reducible assumption)
    | (with_reducible apply Chg.step (chg_unsupported _ _))
    | (with_reducible apply Chg.foldl)
    | (with_reducible apply Chg.orElse_getD)
    | (with_reducible apply Chg.getD)
    | (with_reducible apply Chg.foldl_snd)
    | intro _
    | split
    | dsimp only
    | ((with_reducible refine Chg.mk rfl ?_ rfl rfl rfl rfl ?_); · (intro x hx; cases x <;> first | rfl | exact ⟨rfl, rfl⟩ | exact absurd (by decide) hx))

/-- What a virtual function's gate keeps, if the access keeps it (R397, R404, R409). -/
theorem chg_atVf {L : List Fld} {s t : State} {vf w o k} (hs : subF [.out, .regs, .parts, .host] L) (hk : ∀ u, Chg L s u → Chg L s (k u)) (h : Chg L s t) :
    Chg L s (State.atVf t vf w o k) := by
  unfold State.atVf
  split
  · exact h
  split
  · exact Chg.step (chg_noTarget _ _ _) ((subF_of rfl).trans hs) h
  split
  · split
    · exact Chg.step (chg_setTdi _ _ _) ((subF_of rfl).trans hs) (Chg.step (chg_noTarget _ _ _) ((subF_of rfl).trans hs) h)
    · exact h
  split
  · dsimp only
    split
    · exact Chg.step (chg_countReg _ _ _) ((subF_of rfl).trans hs) h
    · exact Chg.step (chg_emit _ _) ((subF_of rfl).trans hs) (Chg.step (chg_countReg _ _ _) ((subF_of rfl).trans hs) h)
  · exact hk _ h

theorem chg_vfStores {L : List Fld} {s t : State} {vf k} (hs : subF [.out, .regs, .parts, .host] L) (hk : ∀ u, Chg L s u → Chg L s (k u)) (h : Chg L s t) :
    Chg L s (State.vfStores t vf k) := chg_atVf hs hk h

/-- What PF0's gate keeps, if the access keeps it (R397, R488). -/
theorem chg_pfStores {L : List Fld} {s t : State} {off k} (hs : subF [.out, .host] L) (hk : ∀ u, Chg L s u → Chg L s (k u)) (h : Chg L s t) :
    Chg L s (State.pfStores t off k) := by
  unfold State.pfStores
  split
  · exact h
  split
  · exact Chg.step (chg_noTarget _ _ _) hs h
  split
  · exact hk _ h
  · exact h

end Sys2Proof.Machine
end

