-- ==== Sys2Proof/Laws/ChgFrontend.lean ====
section
/-! SUPPORT. What each operation of Machine/Frontend.lean may change. -/

namespace Sys2Proof.Machine

theorem chg_advance (s : State) (a) : Chg [.launches, .queues] s (State.advance s a) := by
  unfold State.advance
  repeat' first
    | ((with_reducible apply subF_of); rfl)
    | (with_reducible apply Chg.refl)
    | (with_reducible assumption)
    | (with_reducible apply Chg.step (chg_modLaunch _ _ _))
    | (with_reducible apply Chg.step (chg_setQueue _ _ _))
    | (with_reducible apply Chg.foldl)
    | (with_reducible apply Chg.orElse_getD)
    | (with_reducible apply Chg.getD)
    | (with_reducible apply Chg.foldl_snd)
    | intro _
    | split
    | dsimp only

theorem chg_leave (s : State) (a) : Chg [.regs, .launches, .queues, .dbg] s (State.leave s a) := by
  unfold State.leave
  repeat' first
    | ((with_reducible apply subF_of); rfl)
    | (with_reducible apply Chg.refl)
    | (with_reducible assumption)
    | (with_reducible apply Chg.step (chg_advance _ _))
    | (with_reducible apply Chg.step (chg_traceLaunch _ _ _ _ _))
    | (with_reducible apply Chg.foldl)
    | (with_reducible apply Chg.orElse_getD)
    | (with_reducible apply Chg.getD)
    | (with_reducible apply Chg.foldl_snd)
    | intro _
    | split
    | dsimp only
    | ((with_reducible refine Chg.mk rfl ?_ rfl rfl rfl rfl ?_); · (intro x hx; cases x <;> first | rfl | exact ⟨rfl, rfl⟩ | exact absurd (by decide) hx))

theorem chg_endAtIssue (s : State) (a b c d) : Chg [.regs, .launches, .queues, .parts, .dbg] s (State.endAtIssue s a b c d) := by
  unfold State.endAtIssue
  repeat' first
    | ((with_reducible apply subF_of); rfl)
    | (with_reducible apply Chg.refl)
    | (with_reducible assumption)
    | (with_reducible apply Chg.step (chg_finish _ _ _))
    | (with_reducible apply Chg.step (chg_leave _ _))
    | (with_reducible apply Chg.step (chg_modQueue _ _ _))
    | (with_reducible apply Chg.step (chg_semReturn _ _ _))
    | (with_reducible apply Chg.foldl)
    | (with_reducible apply Chg.orElse_getD)
    | (with_reducible apply Chg.getD)
    | (with_reducible apply Chg.foldl_snd)
    | intro _
    | split
    | dsimp only
    | ((with_reducible refine Chg.mk rfl ?_ rfl rfl rfl rfl ?_); · (intro x hx; cases x <;> first | rfl | exact ⟨rfl, rfl⟩ | exact absurd (by decide) hx))

theorem chg_bindBucket (s : State) (a b) : Chg [.free, .out, .parts] s (State.bindBucket s a b).2 := by
  unfold State.bindBucket
  repeat' first
    | ((with_reducible apply subF_of); rfl)
    | (with_reducible apply Chg.refl)
    | (with_reducible assumption)
    | (with_reducible apply Chg.step (chg_fetchBytes _ _ _ _ _))
    | (with_reducible (apply Chg.step (Chg.snd (chg_fetchBytes _ _ _ _ _) ?e)); case e => assumption)
    | (with_reducible apply Chg.foldl)
    | (with_reducible apply Chg.orElse_getD)
    | (with_reducible apply Chg.getD)
    | (with_reducible apply Chg.foldl_snd)
    | intro _
    | split
    | dsimp only
    | ((with_reducible refine Chg.mk rfl ?_ rfl rfl rfl rfl ?_); · (intro x hx; cases x <;> first | rfl | exact ⟨rfl, rfl⟩ | exact absurd (by decide) hx))

theorem chg_bindKernel (s : State) (a) : Chg [.free, .out, .parts] s (State.bindKernel s a).2 := by
  unfold State.bindKernel
  repeat' first
    | ((with_reducible apply subF_of); rfl)
    | (with_reducible apply Chg.refl)
    | (with_reducible assumption)
    | (with_reducible apply Chg.step (chg_bindBucket _ _ _))
    | (with_reducible (apply Chg.step (Chg.snd (chg_bindBucket _ _ _) ?e)); case e => assumption)
    | (with_reducible apply Chg.step (chg_bindValues _ _))
    | (with_reducible (apply Chg.step (Chg.snd (chg_bindValues _ _) ?e)); case e => assumption)
    | (with_reducible apply Chg.foldl)
    | (with_reducible apply Chg.orElse_getD)
    | (with_reducible apply Chg.getD)
    | (with_reducible apply Chg.foldl_snd)
    | intro _
    | split
    | dsimp only
    | ((with_reducible refine Chg.mk rfl ?_ rfl rfl rfl rfl ?_); · (intro x hx; cases x <;> first | rfl | exact ⟨rfl, rfl⟩ | exact absurd (by decide) hx))

theorem chg_bindCopy (s : State) (a) : Chg [.free, .out, .parts] s (State.bindCopy s a).2 := by
  unfold State.bindCopy
  repeat' first
    | ((with_reducible apply subF_of); rfl)
    | (with_reducible apply Chg.refl)
    | (with_reducible assumption)
    | (with_reducible apply Chg.step (chg_fetchBytes _ _ _ _ _))
    | (with_reducible (apply Chg.step (Chg.snd (chg_fetchBytes _ _ _ _ _) ?e)); case e => assumption)
    | (with_reducible apply Chg.foldl)
    | (with_reducible apply Chg.orElse_getD)
    | (with_reducible apply Chg.getD)
    | (with_reducible apply Chg.foldl_snd)
    | intro _
    | split
    | dsimp only
    | ((with_reducible refine Chg.mk rfl ?_ rfl rfl rfl rfl ?_); · (intro x hx; cases x <;> first | rfl | exact ⟨rfl, rfl⟩ | exact absurd (by decide) hx))

theorem chg_dropOther (s : State) (a) : Chg [.dies] s (State.dropOther s a) := by
  unfold State.dropOther
  repeat' first
    | ((with_reducible apply subF_of); rfl)
    | (with_reducible apply Chg.refl)
    | (with_reducible assumption)
    | (with_reducible apply Chg.step (chg_modDie _ _ _))
    | (with_reducible apply Chg.foldl)
    | (with_reducible apply Chg.orElse_getD)
    | (with_reducible apply Chg.getD)
    | (with_reducible apply Chg.foldl_snd)
    | intro _
    | split
    | dsimp only
    | ((with_reducible refine Chg.mk rfl ?_ rfl rfl rfl rfl ?_); · (intro x hx; cases x <;> first | rfl | exact ⟨rfl, rfl⟩ | exact absurd (by decide) hx))

theorem chg_begin (s : State) (a b) : Chg [.regs, .launches, .queues, .dies, .dbg] s (State.begin s a b) := by
  unfold State.begin
  repeat' first
    | ((with_reducible apply subF_of); rfl)
    | (with_reducible apply Chg.refl)
    | (with_reducible assumption)
    | (with_reducible apply Chg.step (chg_dropOther _ _))
    | (with_reducible apply Chg.step (chg_leave _ _))
    | (with_reducible apply Chg.step (chg_setLaunch _ _ _))
    | (with_reducible apply Chg.foldl)
    | (with_reducible apply Chg.orElse_getD)
    | (with_reducible apply Chg.getD)
    | (with_reducible apply Chg.foldl_snd)
    | intro _
    | split
    | dsimp only
    | ((with_reducible refine Chg.mk rfl ?_ rfl rfl rfl rfl ?_); · (intro x hx; cases x <;> first | rfl | exact ⟨rfl, rfl⟩ | exact absurd (by decide) hx))

theorem chg_start {s : State} {a b} {v : State} (h : State.start s a b = some v) : Chg [.regs, .launches, .queues, .parts, .dies, .copies, .dbg] s v := by
  unfold State.start at h
  repeat' first
    | ((with_reducible apply subF_of); rfl)
    | contradiction
    | (injection h with h; subst h)
    | (split at h)
    | (dsimp only at h)
    | (with_reducible apply Chg.refl)
    | (with_reducible assumption)
    | (with_reducible apply Chg.step (chg_begin _ _ _))
    | (with_reducible apply Chg.step (chg_endAtIssue _ _ _ _ _))
    | (with_reducible apply Chg.step (chg_setCopyEng _ _ _))
    | (with_reducible apply Chg.foldl)
    | (with_reducible apply Chg.orElse_getD)
    | (with_reducible apply Chg.getD)
    | (with_reducible apply Chg.foldl_snd)
    | intro _
    | split
    | dsimp only
    | ((with_reducible refine Chg.mk rfl ?_ rfl rfl rfl rfl ?_); · (intro x hx; cases x <;> first | rfl | exact ⟨rfl, rfl⟩ | exact absurd (by decide) hx))

theorem chg_issueWork {s : State} {a b} {v : State} (h : State.issueWork s a b = some v) : Chg [.free, .out, .regs, .launches, .queues, .parts, .dies, .copies, .dbg] s v := by
  unfold State.issueWork at h
  split at h
  · cases h; exact (chg_endAtIssue _ _ _ _ _).mono (subF_of rfl)
  extract_lets r at h
  have hr : Chg [.free, .out, .regs, .launches, .queues, .parts, .dies, .copies, .dbg] s r.2 := by
    dsimp only [r]
    split
    · exact Chg.refl _ _
    · split
      · exact (chg_bindKernel _ _).mono (subF_of rfl)
      · exact (chg_bindCopy _ _).mono (subF_of rfl)
  clear_value r
  obtain ⟨x, t⟩ := r
  split at h
  · next e => cases e; cases h; exact Chg.step (chg_endAtIssue _ _ _ _ _) (subF_of rfl) hr
  · next e => cases e; cases h; exact Chg.step (chg_leave _ _) (subF_of rfl) (Chg.step (chg_finish _ _ _) (subF_of rfl) hr)
  · contradiction
  · next e => cases e; exact Chg.step (chg_start h) (subF_of rfl) hr

theorem chg_issueRecord (s : State) (a b c) : Chg [.free, .regs, .mem, .poison, .cores, .launches, .queues, .parts, .dies, .chans, .dbg] s (State.issueRecord s a b c) := by
  unfold State.issueRecord
  repeat' first
    | ((with_reducible apply subF_of); rfl)
    | (with_reducible apply Chg.refl)
    | (with_reducible assumption)
    | (with_reducible apply Chg.step (chg_endAtIssue _ _ _ _ _))
    | (with_reducible apply Chg.step (chg_eventMax _ _ _ _))
    | (with_reducible apply Chg.step (chg_eventWord _ _ _ _))
    | (with_reducible (apply Chg.step (Chg.snd (chg_eventWord _ _ _ _) ?e)); case e => assumption)
    | (with_reducible apply Chg.step (chg_finish _ _ _))
    | (with_reducible apply Chg.step (chg_leave _ _))
    | (with_reducible apply Chg.foldl)
    | (with_reducible apply Chg.orElse_getD)
    | (with_reducible apply Chg.getD)
    | (with_reducible apply Chg.foldl_snd)
    | intro _
    | split
    | dsimp only
    | ((with_reducible refine Chg.mk rfl ?_ rfl rfl rfl rfl ?_); · (intro x hx; cases x <;> first | rfl | exact ⟨rfl, rfl⟩ | exact absurd (by decide) hx))

theorem chg_evalWait (s : State) (a) : Chg [.launches] s (State.evalWait s a) := by
  unfold State.evalWait
  repeat' first
    | ((with_reducible apply subF_of); rfl)
    | (with_reducible apply Chg.refl)
    | (with_reducible assumption)
    | (with_reducible apply Chg.step (chg_finish _ _ _))
    | (with_reducible apply Chg.step (chg_modLaunch _ _ _))
    | (with_reducible apply Chg.foldl)
    | (with_reducible apply Chg.orElse_getD)
    | (with_reducible apply Chg.getD)
    | (with_reducible apply Chg.foldl_snd)
    | intro _
    | split
    | dsimp only

theorem chg_issueWait (s : State) (a b) : Chg [.free, .regs, .launches, .queues, .parts, .dbg] s (State.issueWait s a b) := by
  unfold State.issueWait
  repeat' first
    | ((with_reducible apply subF_of); rfl)
    | (with_reducible apply Chg.refl)
    | (with_reducible assumption)
    | (with_reducible apply Chg.step (chg_endAtIssue _ _ _ _ _))
    | (with_reducible apply Chg.step (chg_evalWait _ _))
    | (with_reducible apply Chg.step (chg_eventWord _ _ _ _))
    | (with_reducible (apply Chg.step (Chg.snd (chg_eventWord _ _ _ _) ?e)); case e => assumption)
    | (with_reducible apply Chg.step (chg_leave _ _))
    | (with_reducible apply Chg.step (chg_modLaunch _ _ _))
    | (with_reducible apply Chg.foldl)
    | (with_reducible apply Chg.orElse_getD)
    | (with_reducible apply Chg.getD)
    | (with_reducible apply Chg.foldl_snd)
    | intro _
    | split
    | dsimp only
    | ((with_reducible refine Chg.mk rfl ?_ rfl rfl rfl rfl ?_); · (intro x hx; cases x <;> first | rfl | exact ⟨rfl, rfl⟩ | exact absurd (by decide) hx))

theorem chg_issueSem (s : State) (a b) : Chg [.regs, .launches, .queues, .parts, .dbg] s (State.issueSem s a b) := by
  unfold State.issueSem
  repeat' first
    | ((with_reducible apply subF_of); rfl)
    | (with_reducible apply Chg.refl)
    | (with_reducible assumption)
    | (with_reducible apply Chg.step (chg_finish _ _ _))
    | (with_reducible apply Chg.step (chg_leave _ _))
    | (with_reducible apply Chg.step (chg_modLaunch _ _ _))
    | (with_reducible apply Chg.step (chg_semBegin _ _ _ _))
    | (with_reducible apply Chg.step (chg_semRelease _ _ _ _))
    | (with_reducible apply Chg.step (chg_semSet _ _ _ _))
    | (with_reducible apply Chg.foldl)
    | (with_reducible apply Chg.orElse_getD)
    | (with_reducible apply Chg.getD)
    | (with_reducible apply Chg.foldl_snd)
    | intro _
    | split
    | dsimp only
    | ((with_reducible refine Chg.mk rfl ?_ rfl rfl rfl rfl ?_); · (intro x hx; cases x <;> first | rfl | exact ⟨rfl, rfl⟩ | exact absurd (by decide) hx))

theorem chg_issueCall (s : State) (a b) : Chg [.regs, .launches, .queues, .parts, .dbg] s (State.issueCall s a b) := by
  unfold State.issueCall
  repeat' first
    | ((with_reducible apply subF_of); rfl)
    | (with_reducible apply Chg.refl)
    | (with_reducible assumption)
    | (with_reducible apply Chg.step (chg_leave _ _))
    | (with_reducible apply Chg.step (chg_modLaunch _ _ _))
    | (with_reducible apply Chg.step (chg_modPart _ _ _))
    | (with_reducible apply Chg.foldl)
    | (with_reducible apply Chg.orElse_getD)
    | (with_reducible apply Chg.getD)
    | (with_reducible apply Chg.foldl_snd)
    | intro _
    | split
    | dsimp only
    | ((with_reducible refine Chg.mk rfl ?_ rfl rfl rfl rfl ?_); · (intro x hx; cases x <;> first | rfl | exact ⟨rfl, rfl⟩ | exact absurd (by decide) hx))

theorem chg_takeEntry (s : State) (a b c d e) : Chg [.free, .out, .regs, .mem, .poison, .cores, .launches, .nextLaunch, .queues, .parts, .dies, .chans, .dbg] s (State.takeEntry s a b c d e) := by
  unfold State.takeEntry
  repeat' first
    | ((with_reducible apply subF_of); rfl)
    | (with_reducible apply Chg.refl)
    | (with_reducible assumption)
    | (with_reducible apply Chg.step (chg_endAtIssue _ _ _ _ _))
    | (with_reducible apply Chg.step (chg_issueCall _ _ _))
    | (with_reducible apply Chg.step (chg_issueRecord _ _ _ _))
    | (with_reducible apply Chg.step (chg_issueSem _ _ _))
    | (with_reducible apply Chg.step (chg_issueWait _ _ _))
    | (with_reducible apply Chg.step (chg_modLaunch _ _ _))
    | (with_reducible apply Chg.step (chg_modQueue _ _ _))
    | (with_reducible apply Chg.step (chg_readExt _ _ _))
    | (with_reducible (apply Chg.step (Chg.snd (chg_readExt _ _ _) ?e)); case e => assumption)
    | (with_reducible apply Chg.step (chg_semBegin _ _ _ _))
    | (with_reducible apply Chg.step (chg_setLaunch _ _ _))
    | (with_reducible apply Chg.foldl)
    | (with_reducible apply Chg.orElse_getD)
    | (with_reducible apply Chg.getD)
    | (with_reducible apply Chg.foldl_snd)
    | intro _
    | split
    | dsimp only
    | ((with_reducible refine Chg.mk rfl ?_ rfl rfl rfl rfl ?_); · (intro x hx; cases x <;> first | rfl | exact ⟨rfl, rfl⟩ | exact absurd (by decide) hx))

theorem chg_tryIssue {s : State} {a b c} {v : State} (h : State.tryIssue s a b c = some v) : Chg [.free, .out, .regs, .launches, .queues, .parts, .dies, .copies, .dbg] s v := by
  unfold State.tryIssue at h
  split at h
  · exact chg_issueWork h
  · contradiction

theorem chg_goOn {s : State} {a b} {v : State} (h : State.goOn s a b = some v) : Chg [.free, .out, .regs, .launches, .queues, .parts, .dies, .copies, .dbg] s v := by
  unfold State.goOn at h
  split at h
  · contradiction
  · split at h
    · split at h
      · cases h
        exact Chg.step (chg_endAtIssue _ _ _ _ _) (subF_of rfl) ((chg_semQuit _ _ _).mono (subF_of rfl))
      · contradiction
    · split at h
      · exact chg_tryIssue h
      · split at h
        · contradiction
        · extract_lets t at h
          have ht : Chg [.free, .out, .regs, .launches, .queues, .parts, .dies, .copies, .dbg] s t := Chg.step (chg_semBegin _ _ _ _) (subF_of rfl) ((chg_modLaunch _ _ _).mono (subF_of rfl))
          clear_value t
          split at h
          · split at h
            · cases h; exact Chg.getD (fun _ k => Chg.step (chg_tryIssue k) (.refl _) ht) ht
            · cases h; exact ht
          · cases h; exact ht
      · contradiction

/-- What goes on once an entry can be taken keeps what it keeps. -/
theorem chg_withEntry {L : List Fld} {s t : State} {p b f k} {v : State} (hs : subF [.free, .dies, .chans] L) (hk : ∀ u, Chg L s u → Chg L s (k u)) (h : Chg L s t)
    (e : State.withEntry t p b f k = some v) : Chg L s v := by
  unfold State.withEntry at e
  generalize (t.readExt p b).1 = r at e
  generalize (t.eventWord p (eAddr b)).1 = w at e
  generalize eType b = ty at e
  generalize t.usesWord p b f = uses at e
  have no : (none : Option State) = some v → Chg L s v := nofun
  have done : some (k t) = some v → Chg L s v := fun j => Option.some.inj j ▸ hk _ h
  have pair (c : Prop) [Decidable c] (x : Option State) (hx : x = some v → Chg L s v) : (if c then x else some (k t)) = some v → Chg L s v := by
    intro j; split at j
    · exact hx j
    · exact done j
  revert e
  rcases r with (_ | _ | _ | _) | _ <;> rcases w with (_ | _ | _ | _) | _ <;> dsimp only <;>
    first
      | exact no
      | exact pair _ _ done
      | exact pair _ _ no
      | exact pair _ _ (pair _ _ (chg_onceHere hs hk h))

/-- An entry is taken, and goes on if it can. -/
theorem chg_takeOn {L : List Fld} {s u : State} {k n m e c f} (hs : subF [.free, .out, .regs, .mem, .poison, .cores, .launches, .nextLaunch, .queues, .parts, .dies, .chans, .copies, .dbg] L)
    (h : Chg L s u) : Chg L s (((u.takeEntry k n e c f).goOn k m).getD (u.takeEntry k n e c f)) :=
  have ht : Chg L s (u.takeEntry k n e c f) := Chg.step (chg_takeEntry _ _ _ _ _ _) (subF.trans (subF_of rfl) hs) h
  Chg.getD (fun _ j => Chg.step (chg_goOn j) (subF.trans (subF_of rfl) hs) ht) ht

theorem chg_nextOfReplay {s : State} {a b} {v : State} (h : State.nextOfReplay s a b = some v) : Chg [.free, .out, .regs, .mem, .poison, .cores, .launches, .nextLaunch, .queues, .parts, .dies, .chans, .copies, .dbg] s v := by
  unfold State.nextOfReplay at h
  split at h
  · contradiction
  · split at h
    · contradiction
    · split at h
      · contradiction
      · split at h
        · exact chg_withEntry (subF_of rfl) (fun u hu => chg_takeOn (subF.refl _) hu) (Chg.refl _ _) h
        · contradiction

theorem chg_nextAtHead {s : State} {a} {v : State} (h : State.nextAtHead s a = some v) : Chg [.free, .out, .regs, .mem, .poison, .cores, .launches, .nextLaunch, .queues, .parts, .dies, .chans, .copies, .host, .dbg] s v := by
  unfold State.nextAtHead at h
  extract_lets q at h
  split at h
  · split at h
    · next k =>
      split at h
      · contradiction
      · cases h
        exact Chg.step (chg_haltQueue _ _ _) (subF_of rfl) ((Chg.snd (chg_fetchBytes _ _ _ _ _) k).mono (subF_of rfl))
    · next k =>
      split at h
      · exact chg_withEntry (subF_of rfl) (fun u hu => chg_takeOn (subF_of rfl) hu) ((Chg.snd (chg_fetchBytes _ _ _ _ _) k).mono (subF_of rfl)) h
      · contradiction
  · contradiction

theorem chg_issueNext {s : State} {a} {v : State} (h : State.issueNext s a = some v) : Chg [.free, .out, .regs, .mem, .poison, .cores, .launches, .nextLaunch, .queues, .parts, .dies, .chans, .copies, .host, .dbg] s v := by
  have goes : ∀ lid w, s.goOn a lid = some w → Chg [.free, .out, .regs, .mem, .poison, .cores, .launches, .nextLaunch, .queues, .parts, .dies, .chans, .copies, .host, .dbg] s w := fun _ _ k => (chg_goOn k).mono (subF_of rfl)
  unfold State.issueNext at h
  extract_lets fetch act again first at h
  clear_value fetch act again first
  split at h
  · exact chg_firstStep h goes
  · rcases orElse_some h with h | h
    · exact chg_firstStep h goes
    · split at h
      · rcases orElse_some h with h | h
        · exact chg_firstStep h fun _ _ k => (chg_nextOfReplay k).mono (subF_of rfl)
        · split at h
          · exact (chg_nextAtHead h).mono (subF_of rfl)
          · contradiction
      · contradiction

theorem chg_tookTurn (s : State) (a) : Chg [.dies] s (State.tookTurn s a) := by
  unfold State.tookTurn
  repeat' first
    | ((with_reducible apply subF_of); rfl)
    | (with_reducible apply Chg.refl)
    | (with_reducible assumption)
    | (with_reducible apply Chg.step (chg_modDie _ _ _))
    | (with_reducible apply Chg.foldl)
    | (with_reducible apply Chg.orElse_getD)
    | (with_reducible apply Chg.getD)
    | (with_reducible apply Chg.foldl_snd)
    | intro _
    | split
    | dsimp only
    | ((with_reducible refine Chg.mk rfl ?_ rfl rfl rfl rfl ?_); · (intro x hx; cases x <;> first | rfl | exact ⟨rfl, rfl⟩ | exact absurd (by decide) hx))

end Sys2Proof.Machine
end

