-- ==== Sys2Proof/Laws/ChgComplete.lean ====
section
/-! SUPPORT. What each operation of Machine/Complete.lean may change. -/

namespace Sys2Proof.Machine

theorem chg_freeVersions (s : State) (a) : Chg [.parts] s (State.freeVersions s a) := by
  unfold State.freeVersions
  repeat' first
    | ((with_reducible apply subF_of); rfl)
    | (with_reducible apply Chg.refl)
    | (with_reducible assumption)
    | (with_reducible apply Chg.step (chg_modPart _ _ _))

theorem chg_freeContext (s : State) (a) : Chg [.dies] s (State.freeContext s a) := by
  unfold State.freeContext
  repeat' first
    | ((with_reducible apply subF_of); rfl)
    | (with_reducible apply Chg.refl)
    | (with_reducible assumption)
    | (with_reducible apply Chg.foldl)
    | (with_reducible apply Chg.orElse_getD)
    | (with_reducible apply Chg.getD)
    | (with_reducible apply Chg.foldl_snd)
    | intro _
    | split
    | dsimp only
    | ((with_reducible refine Chg.mk rfl ?_ rfl rfl rfl rfl ?_); · (intro x hx; cases x <;> first | rfl | exact ⟨rfl, rfl⟩ | exact absurd (by decide) hx))

theorem chg_release (s : State) (a b) : Chg [.free, .regs, .poison, .cores, .launches, .parts, .dies, .copies, .dbg] s (State.release s a b) := by
  unfold State.release
  repeat' first
    | ((with_reducible apply subF_of); rfl)
    | (with_reducible apply Chg.refl)
    | (with_reducible assumption)
    | (with_reducible apply Chg.step (chg_endProducer _ _ _ _))
    | (with_reducible apply Chg.step (chg_freeContext _ _))
    | (with_reducible apply Chg.step (chg_freeItems _ _ _))
    | (with_reducible apply Chg.step (chg_freePreload _ _ _))
    | (with_reducible apply Chg.step (chg_freeRegion _ _))
    | (with_reducible apply Chg.step (chg_purgeCopy _ _ _))
    | (with_reducible apply Chg.step (chg_purgeLaunch _ _ _))
    | (with_reducible apply Chg.step (chg_semQuit _ _ _))
    | (with_reducible apply Chg.step (chg_semReturn _ _ _))
    | (with_reducible apply Chg.step (chg_stopLaunch _ _ _))
    | (with_reducible apply Chg.foldl)
    | (with_reducible apply Chg.orElse_getD)
    | (with_reducible apply Chg.getD)
    | (with_reducible apply Chg.foldl_snd)
    | intro _
    | split
    | dsimp only
    | ((with_reducible refine Chg.mk rfl ?_ rfl rfl rfl rfl ?_); · (intro x hx; cases x <;> first | rfl | exact ⟨rfl, rfl⟩ | exact absurd (by decide) hx))

theorem chg_endOnLinks (s : State) (a b) : Chg [.regs, .links, .dbg] s (State.endOnLinks s a b) := by
  unfold State.endOnLinks
  repeat' first
    | ((with_reducible apply subF_of); rfl)
    | (with_reducible apply Chg.refl)
    | (with_reducible assumption)
    | (with_reducible apply Chg.step (chg_modLink _ _ _))
    | (with_reducible apply Chg.step (chg_traceLaunch _ _ _ _ _))
    | (with_reducible apply Chg.foldl)
    | (with_reducible apply Chg.orElse_getD)
    | (with_reducible apply Chg.getD)
    | (with_reducible apply Chg.foldl_snd)
    | intro _

theorem chg_complete (s : State) (a) : Chg [.free, .out, .regs, .mem, .poison, .cores, .launches, .queues, .parts, .dies, .chans, .copies, .links, .host, .dbg] s (State.complete s a) := by
  unfold State.complete
  repeat' first
    | ((with_reducible apply subF_of); rfl)
    | (with_reducible apply Chg.refl)
    | (with_reducible assumption)
    | (with_reducible apply Chg.step (chg_callDone _ _))
    | (with_reducible apply Chg.step (chg_delLaunch _ _))
    | (with_reducible apply Chg.step (chg_endOnLinks _ _ _))
    | (with_reducible apply Chg.step (chg_freeVersions _ _))
    | (with_reducible apply Chg.step (chg_haltQueue _ _ _))
    | (with_reducible apply Chg.step (chg_irq _ _ _))
    | (with_reducible apply Chg.step (chg_modLaunch _ _ _))
    | (with_reducible apply Chg.step (chg_modQueue _ _ _))
    | (with_reducible apply Chg.step (chg_noteWants _ _))
    | (with_reducible apply Chg.step (chg_release _ _ _))
    | (with_reducible apply Chg.step (chg_storeBytes _ _ _ _ _))
    | (with_reducible (apply Chg.step (Chg.snd (chg_storeBytes _ _ _ _ _) ?e)); case e => assumption)
    | (with_reducible apply Chg.step (chg_traceLaunch _ _ _ _ _))
    | (with_reducible apply Chg.foldl)
    | (with_reducible apply Chg.orElse_getD)
    | (with_reducible apply Chg.getD)
    | (with_reducible apply Chg.foldl_snd)
    | intro _
    | split
    | dsimp only
    | ((with_reducible refine Chg.mk rfl ?_ rfl rfl rfl rfl ?_); · (intro x hx; cases x <;> first | rfl | exact ⟨rfl, rfl⟩ | exact absurd (by decide) hx))

end Sys2Proof.Machine
end

