-- ==== Sys2Proof/Laws/ChgCommit.lean ====
section
/-! SUPPORT. What each operation of Machine/Commit.lean may change. -/

namespace Sys2Proof.Machine

theorem chg_takeContext (s : State) (a) : Chg [.regs, .launches, .dies, .dbg] s (State.takeContext s a) := by
  unfold State.takeContext
  repeat' first
    | ((with_reducible apply subF_of); rfl)
    | (with_reducible apply Chg.refl)
    | (with_reducible assumption)
    | (with_reducible apply Chg.step (chg_modDie _ _ _))
    | (with_reducible apply Chg.step (chg_setLaunch _ _ _))
    | (with_reducible apply Chg.step (chg_traceLaunch _ _ _ _ _))
    | (with_reducible apply Chg.foldl)
    | (with_reducible apply Chg.orElse_getD)
    | (with_reducible apply Chg.getD)
    | (with_reducible apply Chg.foldl_snd)
    | intro _
    | split
    | dsimp only

theorem chg_settleFails (s : State) (a b c) : Chg [.regs, .launches, .log] s (State.settleFails s a b c) := by
  unfold State.settleFails
  repeat' first
    | ((with_reducible apply subF_of); rfl)
    | (with_reducible apply Chg.refl)
    | (with_reducible assumption)
    | (with_reducible apply Chg.step (chg_finish _ _ _))
    | (with_reducible apply Chg.step (chg_logRaise _ _ _ _ _ _))
    | (with_reducible apply Chg.foldl)
    | (with_reducible apply Chg.orElse_getD)
    | (with_reducible apply Chg.getD)
    | (with_reducible apply Chg.foldl_snd)
    | intro _
    | split
    | dsimp only
    | ((with_reducible refine Chg.mk rfl ?_ rfl rfl rfl rfl ?_); · (intro x hx; cases x <;> first | rfl | exact ⟨rfl, rfl⟩ | exact absurd (by decide) hx))

theorem chg_endSettle (s : State) (a) : Chg [.regs, .launches, .log] s (State.endSettle s a) := by
  unfold State.endSettle
  repeat' first
    | ((with_reducible apply subF_of); rfl)
    | (with_reducible apply Chg.refl)
    | (with_reducible assumption)
    | (with_reducible apply Chg.step (chg_setLaunch _ _ _))
    | (with_reducible apply Chg.step (chg_settleFails _ _ _ _))
    | (with_reducible apply Chg.foldl)
    | (with_reducible apply Chg.orElse_getD)
    | (with_reducible apply Chg.getD)
    | (with_reducible apply Chg.foldl_snd)
    | intro _
    | split
    | dsimp only
    | ((with_reducible refine Chg.mk rfl ?_ rfl rfl rfl rfl ?_); · (intro x hx; cases x <;> first | rfl | exact ⟨rfl, rfl⟩ | exact absurd (by decide) hx))

theorem chg_cqRefused (s : State) (a b) : Chg [.regs, .launches, .log] s (State.cqRefused s a b) := by
  unfold State.cqRefused
  repeat' first
    | ((with_reducible apply subF_of); rfl)
    | (with_reducible apply Chg.refl)
    | (with_reducible assumption)
    | (with_reducible apply Chg.step (chg_countReg _ _ _))
    | (with_reducible apply Chg.step (chg_logRaise _ _ _ _ _ _))
    | (with_reducible apply Chg.step (chg_markCq _ _ _ _))
    | (with_reducible apply Chg.foldl)
    | (with_reducible apply Chg.orElse_getD)
    | (with_reducible apply Chg.getD)
    | (with_reducible apply Chg.foldl_snd)
    | intro _
    | split

theorem chg_refuseReq (s : State) (a) : Chg [.regs, .cores, .launches, .dies, .log] s (State.refuseReq s a) := by
  unfold State.refuseReq
  repeat' first
    | ((with_reducible apply subF_of); rfl)
    | (with_reducible apply Chg.refl)
    | (with_reducible assumption)
    | (with_reducible apply Chg.step (chg_cqRefused _ _ _))
    | (with_reducible apply Chg.step (chg_refuse _ _))
    | (with_reducible apply Chg.foldl)
    | (with_reducible apply Chg.orElse_getD)
    | (with_reducible apply Chg.getD)
    | (with_reducible apply Chg.foldl_snd)
    | intro _
    | split

theorem chg_sentLocal (s : State) (a b c) : Chg [.launches] s (State.sentLocal s a b c) := by
  unfold State.sentLocal
  repeat' first
    | ((with_reducible apply subF_of); rfl)
    | (with_reducible apply Chg.refl)
    | (with_reducible assumption)
    | (with_reducible apply Chg.step (chg_modLaunch _ _ _))

theorem chg_sendRemoteEntry {s : State} {a b c d} {v : State} (h : State.sendRemoteEntry s a b c d = some v) : Chg [.regs, .launches, .dies, .links, .log] s v := by
  unfold State.sendRemoteEntry at h
  repeat' first
    | ((with_reducible apply subF_of); rfl)
    | contradiction
    | (injection h with h; subst h)
    | (split at h)
    | (dsimp only at h)
    | (with_reducible apply Chg.refl)
    | (with_reducible assumption)
    | (with_reducible apply Chg.step (chg_cqRefused _ _ _))
    | (with_reducible apply Chg.step (chg_markCq _ _ _ _))
    | (with_reducible apply Chg.step (chg_sendReq _ _ _ _))
    | (with_reducible (apply Chg.step (Chg.snd (chg_sendReq _ _ _ _) ?e)); case e => assumption)
    | (with_reducible apply Chg.foldl)
    | (with_reducible apply Chg.orElse_getD)
    | (with_reducible apply Chg.getD)
    | (with_reducible apply Chg.foldl_snd)
    | intro _
    | split

theorem chg_sendLocalEntry {s : State} {a b c d} {v : State} (h : State.sendLocalEntry s a b c d = some v) :
    Chg [.free, .out, .mem, .poison, .cores, .launches, .parts, .dies, .chans] s v := by
  unfold State.sendLocalEntry at h
  split at h
  · extract_lets n at h
    split at h
    · next k =>
      split at h
      · contradiction
      · rw [← Option.some.inj h]; exact Chg.step (chg_sentLocal _ _ _ _) (subF_of rfl) ((Chg.snd (chg_transl _ _ _ _ _) k).mono (subF_of rfl))
    · next k =>
      have ht := (Chg.snd (chg_transl _ _ _ _ _) k).mono (B := [.free, .out, .mem, .poison, .cores, .launches, .parts, .dies, .chans]) (subF_of rfl)
      split at h
      · contradiction
      · split at h
        · rw [← Option.some.inj h]; exact Chg.step (chg_sentLocal _ _ _ _) (subF_of rfl) ht
        · exact chg_onceHere (subF_of rfl) (fun u hu => Chg.step (chg_sentLocal _ _ _ _) (subF_of rfl) (Chg.step (chg_atomicAt _ _ _ _ _ _ _) (subF_of rfl) hu)) ht h
  · split at h
    · split at h
      · next k =>
        split at h
        · contradiction
        · rw [← Option.some.inj h]; exact Chg.step (chg_sentLocal _ _ _ _) (subF_of rfl) ((Chg.snd (chg_eventWord _ _ _ _) k).mono (subF_of rfl))
      · next k =>
        have ht := (Chg.snd (chg_eventWord _ _ _ _) k).mono (B := [.free, .out, .mem, .poison, .cores, .launches, .parts, .dies, .chans]) (subF_of rfl)
        split at h
        · rw [← Option.some.inj h]; exact Chg.step (chg_sentLocal _ _ _ _) (subF_of rfl) ht
        · exact chg_onceHere (subF_of rfl) (fun u hu => Chg.step (chg_sentLocal _ _ _ _) (subF_of rfl) (Chg.step (chg_eventMax _ _ _ _) (subF_of rfl) hu)) ht h
    · rw [← Option.some.inj h]; exact Chg.step (chg_sentLocal _ _ _ _) (subF_of rfl) ((chg_semRelease _ _ _ _).mono (subF_of rfl))

theorem chg_sendOf {s : State} {a} {v : State} (h : State.sendOf s a = some v) : Chg [.free, .out, .regs, .mem, .poison, .cores, .launches, .parts, .dies, .chans, .links, .log] s v := by
  unfold State.sendOf at h
  split at h
  · contradiction
  · split at h
    · split at h
      · contradiction
      · split at h
        · contradiction
        · split at h
          · rw [← Option.some.inj h]; exact (chg_cqRefused _ _ _).mono (subF_of rfl)
          · split at h
            · split at h
              · exact (chg_sendRemoteEntry h).mono (subF_of rfl)
              · exact (chg_sendLocalEntry h).mono (subF_of rfl)
            · contradiction
    · contradiction

theorem chg_sendEntry (s : State) (a) : Chg [.free, .out, .regs, .mem, .poison, .cores, .launches, .parts, .dies, .chans, .links, .log] s (State.sendEntry s a) := by
  unfold State.sendEntry
  refine Chg.getD (fun v h => chg_firstStep h fun j w k => ?_) (Chg.refl _ _)
  obtain ⟨t, ht, rfl⟩ := Option.map_eq_some_iff.1 k
  exact Chg.step (chg_modDie _ _ _) (subF_of rfl) ((chg_sendOf ht).mono (subF_of rfl))

theorem chg_ackEntry (s : State) (a b c) : Chg [.regs, .launches, .log] s (State.ackEntry s a b c) := by
  unfold State.ackEntry
  repeat' first
    | ((with_reducible apply subF_of); rfl)
    | (with_reducible apply Chg.refl)
    | (with_reducible assumption)
    | (with_reducible apply Chg.step (chg_cqRefused _ _ _))
    | (with_reducible apply Chg.step (chg_markCq _ _ _ _))
    | (with_reducible apply Chg.foldl)
    | (with_reducible apply Chg.orElse_getD)
    | (with_reducible apply Chg.getD)
    | (with_reducible apply Chg.foldl_snd)
    | intro _
    | split

theorem chg_limitSettle (s : State) (a) : Chg [.regs, .launches, .log] s (State.limitSettle s a) := by
  unfold State.limitSettle
  repeat' first
    | ((with_reducible apply subF_of); rfl)
    | (with_reducible apply Chg.refl)
    | (with_reducible assumption)
    | (with_reducible apply Chg.step (chg_endSettle _ _))
    | (with_reducible apply Chg.step (chg_settleFails _ _ _ _))
    | (with_reducible apply Chg.foldl)
    | (with_reducible apply Chg.orElse_getD)
    | (with_reducible apply Chg.getD)
    | (with_reducible apply Chg.foldl_snd)
    | intro _
    | split
    | dsimp only
    | ((with_reducible refine Chg.mk rfl ?_ rfl rfl rfl rfl ?_); · (intro x hx; cases x <;> first | rfl | exact ⟨rfl, rfl⟩ | exact absurd (by decide) hx))

end Sys2Proof.Machine
end

