-- ==== Sys2Proof/Laws/ChgRoutes.lean ====
section
/-! SUPPORT. What each operation of Machine/Routes.lean may change. -/

namespace Sys2Proof.Machine

theorem chg_routeSource (s : State) (a b c) : Chg [.free, .out, .parts] s (State.routeSource s a b c).2 := by
  unfold State.routeSource
  extract_lets va
  split
  · exact Chg.refl _ _
  · split
    · next h => exact (Chg.snd (chg_fetchBytes _ _ _ _ _) h).mono (subF_of rfl)
    · next h =>
      extract_lets
      split <;> exact (Chg.snd (chg_fetchBytes _ _ _ _ _) h).mono (subF_of rfl)

theorem chg_routeCommand {L : List Fld} {s t : State} {v run} (hs : subF [.regs, .parts] L) (hb0 : ∀ p u, Chg L s u → Chg L s (run p u).2) (h : Chg L s t) : Chg L s (State.routeCommand t v run) := by
  unfold State.routeCommand
  repeat' first
    | ((with_reducible apply subF.trans (subF_of ?e) hs); case e => rfl)
    | (with_reducible apply Chg.refl)
    | (with_reducible assumption)
    | (with_reducible apply hb0)
    | (with_reducible apply Chg.step (chg_setBit _ _ _ _))
    | (with_reducible apply Chg.step (chg_modPart _ _ _))
    | (with_reducible apply Chg.foldl)
    | (with_reducible apply Chg.orElse_getD)
    | (with_reducible apply Chg.getD)
    | (with_reducible apply Chg.foldl_snd)
    | intro _
    | split

theorem chg_recordCmd (s : State) (a b c) : Chg [.free, .out, .parts] s (State.recordCmd a b c s).2 := by
  have aux : ∀ (F : Nat → Except Nat (List (List Byte)) × State) (o : Option Nat), (∀ n, Chg [.free, .out, .parts] s (F n).2) → Chg [.free, .out, .parts] s
      (match o with
        | none => (({ op := 1, route := b, result := rrRange } : RouteCmd), s)
        | some n =>
          match F n with
          | (.error e, t) => ({ op := 1, route := b, result := e }, t)
          | (.ok es, t) => ({ op := 1, route := b, result := 0, entries := es }, t)).2 := by
    intro F o key
    split
    · exact Chg.refl _ _
    · split
      · next h => exact Chg.snd (key _) h
      · next h => exact Chg.snd (key _) h
  exact aux (s.routeSource c a) (s.routeCount a) fun _ => chg_routeSource _ _ _ _

theorem chg_patchCmd (s : State) (a b c d) : Chg [.free, .out, .parts] s (State.patchCmd a b c d s).2 := by
  have aux : ∀ (F : Nat → Except Nat (List (List Byte)) × State) (o : Option Nat) (old : List (List Byte)) (bad : Nat → RouteCmd) (live : Bool),
      (∀ n, Chg [.free, .out, .parts] s (F n).2) → Chg [.free, .out, .parts] s
      (if live = true then
        match o with
        | none => (bad rrRange, s)
        | some n =>
          if old.length < c + n then (bad rrRange, s)
          else match F n with
            | (.error e, t) => (bad e, t)
            | (.ok es, t) => ({ op := 2, route := b, result := 0, entries := old.take c ++ es ++ old.drop (c + n) }, t)
      else (bad rrNoroute, s)).2 := by
    intro F o old bad live key
    split
    · split
      · exact Chg.refl _ _
      · split
        · exact Chg.refl _ _
        · split
          · next h => exact Chg.snd (key _) h
          · next h => exact Chg.snd (key _) h
    · exact Chg.refl _ _
  exact aux (s.routeSource d a) (s.routeCount a) (s.version d b (tget {} (s.part d).routes b).ver)
    (fun e => { op := 2, route := b, result := e }) (tget {} (s.part d).routes b).live fun _ => chg_routeSource _ _ _ _

theorem chg_deleteCmd (s : State) (a b) : Chg [] s (State.deleteCmd a b s).2 := by
  unfold State.deleteCmd
  repeat' first
    | ((with_reducible apply subF_of); rfl)
    | ((with_reducible apply subF_of); rfl)
    | ((with_reducible apply subF_of); rfl)
    | (with_reducible apply Chg.refl)

theorem chg_endRouteCmd (s : State) (a) : Chg [.out, .regs, .parts, .host] s (State.endRouteCmd s a) := by
  unfold State.endRouteCmd
  repeat' first
    | ((with_reducible apply subF_of); rfl)
    | (with_reducible apply Chg.refl)
    | (with_reducible assumption)
    | (with_reducible apply Chg.step (chg_freeVersions _ _))
    | (with_reducible apply Chg.step (chg_irq _ _ _))
    | (with_reducible apply Chg.step (chg_modPart _ _ _))
    | (with_reducible apply Chg.step (chg_setBit _ _ _ _))
    | (with_reducible apply Chg.step (chg_setFld _ _ _ _ _))
    | (with_reducible apply Chg.step (chg_setReg _ _ _))
    | (with_reducible apply Chg.foldl)
    | (with_reducible apply Chg.orElse_getD)
    | (with_reducible apply Chg.getD)
    | (with_reducible apply Chg.foldl_snd)
    | intro _
    | split

end Sys2Proof.Machine
end

