-- ==== Sys2Proof/Laws/ChgIdentity.lean ====
section
/-! SUPPORT. What each operation of Machine/Identity.lean may change. -/

namespace Sys2Proof.Machine

theorem chg_draw (s : State) (a) : Chg [.sec] s (State.draw s a).2 := by
  unfold State.draw
  repeat' first
    | ((with_reducible apply subF_of); rfl)
    | (with_reducible apply Chg.refl)
    | (with_reducible assumption)
    | (with_reducible apply Chg.foldl)
    | (with_reducible apply Chg.orElse_getD)
    | (with_reducible apply Chg.getD)
    | (with_reducible apply Chg.foldl_snd)
    | intro _
    | split
    | dsimp only
    | ((with_reducible refine Chg.mk rfl ?_ rfl rfl rfl rfl ?_); · (intro x hx; cases x <;> first | rfl | exact ⟨rfl, rfl⟩ | exact absurd (by decide) hx))

end Sys2Proof.Machine
end

