-- ==== Sys2Proof/Laws/ChgPartReset.lean ====
section
/-! SUPPORT. What each operation of Machine/PartReset.lean may change. -/

namespace Sys2Proof.Machine

theorem chg_loseChan (s : State) (a) : Chg [.mem, .memEpoch, .poison, .cores, .dies, .chans] s (State.loseChan s a) := by
  unfold State.loseChan
  refine Chg.step (chg_modChan _ _ _) (subF_of rfl) (Chg.step (chg_modDie _ _ _) (subF_of rfl) (.of_canon ⟨rfl, fun x hx => ?_⟩ (fun c => ⟨filter_sorted _ c.1, c.2⟩) rfl rfl))
  cases x <;> first | rfl | exact ⟨rfl, rfl⟩ | exact absurd (by decide) hx

theorem chg_drawKey (s : State) (a) : Chg [.sec] s (State.drawKey s a) := by
  unfold State.drawKey
  repeat' first
    | ((with_reducible apply subF_of); rfl)
    | (with_reducible apply Chg.refl)
    | (with_reducible assumption)
    | (with_reducible apply Chg.step (chg_draw _ _))
    | (with_reducible (apply Chg.step (Chg.snd (chg_draw _ _) ?e)); case e => assumption)
    | (with_reducible apply Chg.foldl)
    | (with_reducible apply Chg.orElse_getD)
    | (with_reducible apply Chg.getD)
    | (with_reducible apply Chg.foldl_snd)
    | intro _
    | split
    | dsimp only
    | ((with_reducible refine Chg.mk rfl ?_ rfl rfl rfl rfl ?_); · (intro x hx; cases x <;> first | rfl | exact ⟨rfl, rfl⟩ | exact absurd (by decide) hx))

theorem chg_trimKeys (s : State) : Chg [.sec] s (State.trimKeys s) := by
  unfold State.trimKeys
  repeat' first
    | ((with_reducible apply subF_of); rfl)
    | (with_reducible apply Chg.refl)
    | (with_reducible assumption)
    | (with_reducible apply Chg.foldl)
    | (with_reducible apply Chg.orElse_getD)
    | (with_reducible apply Chg.getD)
    | (with_reducible apply Chg.foldl_snd)
    | intro _
    | split
    | dsimp only
    | ((with_reducible refine Chg.mk rfl ?_ rfl rfl rfl rfl ?_); · (intro x hx; cases x <;> first | rfl | exact ⟨rfl, rfl⟩ | exact absurd (by decide) hx))

theorem chg_freshKey (s : State) (a) : Chg [.mem, .memEpoch, .poison, .cores, .dies, .chans, .sec] s (State.freshKey s a) := by
  unfold State.freshKey
  repeat' first
    | ((with_reducible apply subF_of); rfl)
    | (with_reducible apply Chg.refl)
    | (with_reducible assumption)
    | (with_reducible apply Chg.step (chg_drawKey _ _))
    | (with_reducible apply Chg.step (chg_loseChan _ _))
    | (with_reducible apply Chg.foldl)
    | (with_reducible apply Chg.orElse_getD)
    | (with_reducible apply Chg.getD)
    | (with_reducible apply Chg.foldl_snd)
    | intro _
    | split
    | dsimp only
    | ((with_reducible refine Chg.mk rfl ?_ rfl rfl rfl rfl ?_); · (intro x hx; cases x <;> first | rfl | exact ⟨rfl, rfl⟩ | exact absurd (by decide) hx))

theorem chg_beginReset (s : State) (a b) : Chg [.out, .regs, .parts, .host, .log] s (State.beginReset s a b) := by
  unfold State.beginReset
  repeat' first
    | ((with_reducible apply subF_of); rfl)
    | (with_reducible apply Chg.refl)
    | (with_reducible assumption)
    | (with_reducible apply Chg.step (chg_logRaise _ _ _ _ _ _))
    | (with_reducible apply Chg.step (chg_modPart _ _ _))
    | (with_reducible apply Chg.step (chg_partIrq _ _))
    | (with_reducible apply Chg.step (chg_setBit _ _ _ _))
    | (with_reducible apply Chg.foldl)
    | (with_reducible apply Chg.orElse_getD)
    | (with_reducible apply Chg.getD)
    | (with_reducible apply Chg.foldl_snd)
    | intro _
    | split

theorem chg_abandonHangs (s : State) (a) : Chg [.regs, .dbg] s (State.abandonHangs s a) := by
  unfold State.abandonHangs
  repeat' first
    | ((with_reducible apply subF_of); rfl)
    | (with_reducible apply Chg.refl)
    | (with_reducible assumption)
    | (with_reducible apply Chg.step (chg_setBit _ _ _ _))
    | (with_reducible apply Chg.foldl)
    | (with_reducible apply Chg.orElse_getD)
    | (with_reducible apply Chg.getD)
    | (with_reducible apply Chg.foldl_snd)
    | intro _
    | split
    | dsimp only
    | ((with_reducible refine Chg.mk rfl ?_ rfl rfl rfl rfl ?_); · (intro x hx; cases x <;> first | rfl | exact ⟨rfl, rfl⟩ | exact absurd (by decide) hx))

theorem chg_mcTop (s : State) (a b c d) : Chg [.regs, .cores, .launches, .dies, .links] s (State.mcTop s a b c d) := by
  unfold State.mcTop
  repeat' first
    | ((with_reducible apply subF_of); rfl)
    | (with_reducible apply Chg.refl)
    | (with_reducible assumption)
    | (with_reducible apply Chg.step (chg_modDie _ _ _))
    | (with_reducible apply Chg.step (chg_queueMsg _ _ _))
    | (with_reducible apply Chg.step (chg_wakeRouters _))
    | (with_reducible apply Chg.foldl)
    | (with_reducible apply Chg.orElse_getD)
    | (with_reducible apply Chg.getD)
    | (with_reducible apply Chg.foldl_snd)
    | intro _
    | split
    | dsimp only
    | ((with_reducible refine Chg.mk rfl ?_ rfl rfl rfl rfl ?_); · (intro x hx; cases x <;> first | rfl | exact ⟨rfl, rfl⟩ | exact absurd (by decide) hx))

theorem chg_mcAnswer (s : State) (a b c d) : Chg [.regs, .cores, .launches, .dies, .links] s (State.mcAnswer s a b c d) := by
  unfold State.mcAnswer
  repeat' first
    | ((with_reducible apply subF_of); rfl)
    | (with_reducible apply Chg.refl)
    | (with_reducible assumption)
    | (with_reducible apply Chg.step (chg_mcTop _ _ _ _ _))
    | (with_reducible apply Chg.step (chg_modDie _ _ _))
    | (with_reducible apply Chg.step (chg_wakeRouters _))
    | (with_reducible apply Chg.foldl)
    | (with_reducible apply Chg.orElse_getD)
    | (with_reducible apply Chg.getD)
    | (with_reducible apply Chg.foldl_snd)
    | intro _
    | split
    | dsimp only
    | ((with_reducible refine Chg.mk rfl ?_ rfl rfl rfl rfl ?_); · (intro x hx; cases x <;> first | rfl | exact ⟨rfl, rfl⟩ | exact absurd (by decide) hx))

theorem chg_post (s : State) (a b) : Chg [.dies, .links] s (State.post s a b) := by
  unfold State.post
  repeat' first
    | ((with_reducible apply subF_of); rfl)
    | (with_reducible apply Chg.refl)
    | (with_reducible assumption)
    | (with_reducible (apply Chg.step (chg_inject ?e)); case e => assumption)
    | (with_reducible apply Chg.foldl)
    | (with_reducible apply Chg.orElse_getD)
    | (with_reducible apply Chg.getD)
    | (with_reducible apply Chg.foldl_snd)
    | intro _

theorem chg_refuseMsg (s : State) (a b c) : Chg [.regs, .cores, .launches, .parts, .dies, .links, .dbg, .log] s (State.refuseMsg s a b c) := by
  unfold State.refuseMsg
  repeat' first
    | ((with_reducible apply subF_of); rfl)
    | (with_reducible apply Chg.refl)
    | (with_reducible assumption)
    | (with_reducible apply Chg.step (chg_closeReq _ _ _ _))
    | (with_reducible apply Chg.step (chg_flushAll _))
    | (with_reducible apply Chg.step (chg_mcAnswer _ _ _ _ _))
    | (with_reducible apply Chg.step (chg_post _ _ _))
    | (with_reducible apply Chg.step (chg_refuseReq _ _))
    | (with_reducible apply Chg.foldl)
    | (with_reducible apply Chg.orElse_getD)
    | (with_reducible apply Chg.getD)
    | (with_reducible apply Chg.foldl_snd)
    | intro _
    | split
    | dsimp only
    | ((with_reducible refine Chg.mk rfl ?_ rfl rfl rfl rfl ?_); · (intro x hx; cases x <;> first | rfl | exact ⟨rfl, rfl⟩ | exact absurd (by decide) hx))

theorem chg_dropUnsent (s : State) (a) : Chg [.regs, .cores, .launches, .parts, .dies, .links, .dbg, .log] s (State.dropUnsent s a) := by
  unfold State.dropUnsent
  repeat' first
    | ((with_reducible apply subF_of); rfl)
    | (with_reducible apply Chg.refl)
    | (with_reducible assumption)
    | (with_reducible apply Chg.step (chg_refuseMsg _ _ _ _))
    | (with_reducible apply Chg.foldl)
    | (with_reducible apply Chg.orElse_getD)
    | (with_reducible apply Chg.getD)
    | (with_reducible apply Chg.foldl_snd)
    | intro _
    | split
    | dsimp only
    | ((with_reducible refine Chg.mk rfl ?_ rfl rfl rfl rfl ?_); · (intro x hx; cases x <;> first | rfl | exact ⟨rfl, rfl⟩ | exact absurd (by decide) hx))

theorem chg_endLaunches (s : State) (a) : Chg [.free, .regs, .cores, .launches, .parts, .dies, .copies, .dbg] s (State.endLaunches s a) := by
  unfold State.endLaunches
  repeat' first
    | ((with_reducible apply subF_of); rfl)
    | (with_reducible apply Chg.refl)
    | (with_reducible assumption)
    | (with_reducible apply Chg.step (chg_endByReset _ _))
    | (with_reducible apply Chg.step (chg_forget _ _ _))
    | (with_reducible apply Chg.step (chg_stopLaunch _ _ _))
    | (with_reducible apply Chg.foldl)
    | (with_reducible apply Chg.orElse_getD)
    | (with_reducible apply Chg.getD)
    | (with_reducible apply Chg.foldl_snd)
    | intro _
    | split
    | dsimp only
    | ((with_reducible refine Chg.mk rfl ?_ rfl rfl rfl rfl ?_); · (intro x hx; cases x <;> first | rfl | exact ⟨rfl, rfl⟩ | exact absurd (by decide) hx))

theorem chg_traceSweep (s : State) (a b c) : Chg [.regs, .dbg] s (State.traceSweep s a b c) := by
  unfold State.traceSweep
  repeat' first
    | ((with_reducible apply subF_of); rfl)
    | (with_reducible apply Chg.refl)
    | (with_reducible assumption)
    | (with_reducible apply Chg.step (chg_trace _ _ _ _ _ _))

theorem chg_stopSweep (s : State) (a) : Chg [.free, .regs, .parts, .dbg] s (State.stopSweep s a) := by
  unfold State.stopSweep
  repeat' first
    | ((with_reducible apply subF_of); rfl)
    | (with_reducible apply Chg.refl)
    | (with_reducible assumption)
    | (with_reducible apply Chg.step (chg_freeNat _))
    | (with_reducible (apply Chg.step (Chg.snd (chg_freeNat _) ?e)); case e => assumption)
    | (with_reducible apply Chg.step (chg_modPart _ _ _))
    | (with_reducible apply Chg.step (chg_setBit _ _ _ _))
    | (with_reducible apply Chg.step (chg_traceSweep _ _ _ _))
    | (with_reducible apply Chg.foldl)
    | (with_reducible apply Chg.orElse_getD)
    | (with_reducible apply Chg.getD)
    | (with_reducible apply Chg.foldl_snd)
    | intro _
    | split
    | dsimp only
    | ((with_reducible refine Chg.mk rfl ?_ rfl rfl rfl rfl ?_); · (intro x hx; cases x <;> first | rfl | exact ⟨rfl, rfl⟩ | exact absurd (by decide) hx))

theorem chg_resetEpoch (s : State) (a) : Chg [.free, .regs, .cores, .launches, .parts, .dies, .copies, .links, .dbg, .log] s (State.resetEpoch s a) := by
  unfold State.resetEpoch
  repeat' first
    | ((with_reducible apply subF_of); rfl)
    | (with_reducible apply Chg.refl)
    | (with_reducible assumption)
    | (with_reducible apply Chg.step (chg_abandonHangs _ _))
    | (with_reducible apply Chg.step (chg_dropUnsent _ _))
    | (with_reducible apply Chg.step (chg_endLaunches _ _))
    | (with_reducible apply Chg.step (chg_modPart _ _ _))
    | (with_reducible apply Chg.step (chg_setFld _ _ _ _ _))
    | (with_reducible apply Chg.step (chg_stopSweep _ _))
    | (with_reducible apply Chg.foldl)
    | (with_reducible apply Chg.orElse_getD)
    | (with_reducible apply Chg.getD)
    | (with_reducible apply Chg.foldl_snd)
    | intro _
    | split
    | dsimp only
    | ((with_reducible refine Chg.mk rfl ?_ rfl rfl rfl rfl ?_); · (intro x hx; cases x <;> first | rfl | exact ⟨rfl, rfl⟩ | exact absurd (by decide) hx))

theorem chg_resetSettle (s : State) (a) : Chg [.free, .out, .regs, .mem, .poison, .cores, .launches, .queues, .parts, .dies, .chans, .copies, .links, .host, .dbg] s (State.resetSettle s a) := by
  unfold State.resetSettle
  repeat' first
    | ((with_reducible apply subF_of); rfl)
    | (with_reducible apply Chg.refl)
    | (with_reducible assumption)
    | (with_reducible apply Chg.step (chg_complete _ _))
    | (with_reducible apply Chg.step (chg_modPart _ _ _))
    | (with_reducible apply Chg.foldl)
    | (with_reducible apply Chg.orElse_getD)
    | (with_reducible apply Chg.getD)
    | (with_reducible apply Chg.foldl_snd)
    | intro _
    | split

theorem chg_digFault (s : State) (a) : Chg [.regs] s (State.digFault s a) := by
  unfold State.digFault
  repeat' first
    | ((with_reducible apply subF_of); rfl)
    | (with_reducible apply Chg.refl)
    | (with_reducible assumption)
    | (with_reducible apply Chg.step (chg_setBit _ _ _ _))

theorem chg_clearPart (s : State) (a) : Chg [.regs, .cores, .queues, .parts, .dies] s (State.clearPart s a) := by
  unfold State.clearPart
  repeat' first
    | ((with_reducible apply subF_of); rfl)
    | (with_reducible apply Chg.refl)
    | (with_reducible assumption)
    | (with_reducible apply Chg.step (chg_digFault _ _))
    | (with_reducible apply Chg.step (chg_dropPreloads _ _ _))
    | (with_reducible apply Chg.step (chg_modPart _ _ _))
    | (with_reducible apply Chg.step (chg_resetRegs _ _))
    | (with_reducible apply Chg.foldl)
    | (with_reducible apply Chg.orElse_getD)
    | (with_reducible apply Chg.getD)
    | (with_reducible apply Chg.foldl_snd)
    | intro _
    | split
    | dsimp only
    | ((with_reducible refine Chg.mk rfl ?_ rfl rfl rfl rfl ?_); · (intro x hx; cases x <;> first | rfl | exact ⟨rfl, rfl⟩ | exact absurd (by decide) hx))

theorem chg_wipeCores (s : State) (a) : Chg [.cores] s (State.wipeCores s a) := by
  unfold State.wipeCores
  repeat' first
    | ((with_reducible apply subF_of); rfl)
    | (with_reducible apply Chg.refl)
    | (with_reducible assumption)
    | (with_reducible apply Chg.foldl)
    | (with_reducible apply Chg.orElse_getD)
    | (with_reducible apply Chg.getD)
    | (with_reducible apply Chg.foldl_snd)
    | intro _
    | split
    | dsimp only
    | ((with_reducible refine Chg.mk rfl ?_ rfl rfl rfl rfl ?_); · (intro x hx; cases x <;> first | rfl | exact ⟨rfl, rfl⟩ | exact absurd (by decide) hx))

theorem chg_activatingBit (s : State) : Chg [.regs] s (State.activatingBit s) := by
  unfold State.activatingBit
  repeat' first
    | ((with_reducible apply subF_of); rfl)
    | (with_reducible apply Chg.refl)
    | (with_reducible assumption)
    | (with_reducible apply Chg.step (chg_setBit _ _ _ _))

theorem chg_emptyRing (s : State) (a) : Chg [.regs, .dbg] s (State.emptyRing s a) := by
  unfold State.emptyRing
  repeat' first
    | ((with_reducible apply subF_of); rfl)
    | (with_reducible apply Chg.refl)
    | (with_reducible assumption)
    | (with_reducible apply Chg.step (chg_setReg64 _ _ _))
    | (with_reducible apply Chg.foldl)
    | (with_reducible apply Chg.orElse_getD)
    | (with_reducible apply Chg.getD)
    | (with_reducible apply Chg.foldl_snd)
    | intro _
    | split
    | dsimp only
    | ((with_reducible refine Chg.mk rfl ?_ rfl rfl rfl rfl ?_); · (intro x hx; cases x <;> first | rfl | exact ⟨rfl, rfl⟩ | exact absurd (by decide) hx))

theorem chg_pinLine (s : State) (a b c) : Chg [.free, .dies, .chans] s (State.pinLine s a b c) := by
  unfold State.pinLine
  repeat' first
    | ((with_reducible apply subF_of); rfl)
    | (with_reducible apply Chg.refl)
    | (with_reducible assumption)
    | (with_reducible apply Chg.step (chg_l2Fill _ _ _ _ _))
    | (with_reducible apply Chg.step (chg_l2Way _ _ _ _))
    | (with_reducible (apply Chg.step (Chg.snd (chg_l2Way _ _ _ _) ?e)); case e => assumption)
    | (with_reducible apply Chg.foldl)
    | (with_reducible apply Chg.orElse_getD)
    | (with_reducible apply Chg.getD)
    | (with_reducible apply Chg.foldl_snd)
    | intro _
    | split
    | dsimp only
    | ((with_reducible refine Chg.mk rfl ?_ rfl rfl rfl rfl ?_); · (intro x hx; cases x <;> first | rfl | exact ⟨rfl, rfl⟩ | exact absurd (by decide) hx))

theorem chg_pinBuffers (s : State) (a) : Chg [.free, .dies, .chans] s (State.pinBuffers s a) := by
  unfold State.pinBuffers
  repeat' first
    | ((with_reducible apply subF_of); rfl)
    | (with_reducible apply Chg.refl)
    | (with_reducible assumption)
    | (with_reducible apply Chg.step (chg_pinLine _ _ _ _))
    | (with_reducible apply Chg.foldl)
    | (with_reducible apply Chg.orElse_getD)
    | (with_reducible apply Chg.getD)
    | (with_reducible apply Chg.foldl_snd)
    | intro _
    | split
    | dsimp only
    | ((with_reducible refine Chg.mk rfl ?_ rfl rfl rfl rfl ?_); · (intro x hx; cases x <;> first | rfl | exact ⟨rfl, rfl⟩ | exact absurd (by decide) hx))

theorem chg_unpinBuffers (s : State) (a) : Chg [.dies] s (State.unpinBuffers s a) := by
  unfold State.unpinBuffers
  repeat' first
    | ((with_reducible apply subF_of); rfl)
    | (with_reducible apply Chg.refl)
    | (with_reducible assumption)
    | (with_reducible apply Chg.foldl)
    | (with_reducible apply Chg.orElse_getD)
    | (with_reducible apply Chg.getD)
    | (with_reducible apply Chg.foldl_snd)
    | intro _
    | split
    | dsimp only
    | ((with_reducible refine Chg.mk rfl ?_ rfl rfl rfl rfl ?_); · (intro x hx; cases x <;> first | rfl | exact ⟨rfl, rfl⟩ | exact absurd (by decide) hx))

theorem chg_wipeWays (s : State) (a) : Chg [.dies] s (State.wipeWays s a) := by
  unfold State.wipeWays
  repeat' first
    | ((with_reducible apply subF_of); rfl)
    | (with_reducible apply Chg.refl)
    | (with_reducible assumption)
    | (with_reducible apply Chg.foldl)
    | (with_reducible apply Chg.orElse_getD)
    | (with_reducible apply Chg.getD)
    | (with_reducible apply Chg.foldl_snd)
    | intro _
    | split
    | dsimp only
    | ((with_reducible refine Chg.mk rfl ?_ rfl rfl rfl rfl ?_); · (intro x hx; cases x <;> first | rfl | exact ⟨rfl, rfl⟩ | exact absurd (by decide) hx))

theorem chg_repin (s : State) (a) : Chg [.free, .dies, .chans] s (State.repin s a) := by
  unfold State.repin
  repeat' first
    | ((with_reducible apply subF_of); rfl)
    | (with_reducible apply Chg.refl)
    | (with_reducible assumption)
    | (with_reducible apply Chg.step (chg_pinBuffers _ _))
    | (with_reducible apply Chg.step (chg_unpinBuffers _ _))
    | (with_reducible apply Chg.foldl)
    | (with_reducible apply Chg.orElse_getD)
    | (with_reducible apply Chg.getD)
    | (with_reducible apply Chg.foldl_snd)
    | intro _
    | split
    | dsimp only
    | ((with_reducible refine Chg.mk rfl ?_ rfl rfl rfl rfl ?_); · (intro x hx; cases x <;> first | rfl | exact ⟨rfl, rfl⟩ | exact absurd (by decide) hx))

theorem chg_sealChan (s : State) (a b) : Chg [.mem] s (State.sealChan s a b) := by
  refine ⟨⟨rfl, fun x hx => ?_⟩, fun c => ⟨map_sorted _ (fun e => ?_) c.1, c.2⟩, fun p => ⟨p, fun _ _ _ h => h⟩⟩
  · cases x <;> first | rfl | exact ⟨rfl, rfl⟩ | exact absurd (by decide) hx
  · split <;> rfl

theorem chg_install (s : State) (a b) : Chg [.free, .regs, .mem, .cores, .parts, .dies, .chans, .chart, .sec, .dbg] s (State.install s a b) := by
  unfold State.install
  repeat' first
    | ((with_reducible apply subF_of); rfl)
    | (with_reducible apply Chg.refl)
    | (with_reducible assumption)
    | (with_reducible apply Chg.step (chg_activatingBit _))
    | (with_reducible apply Chg.step (chg_digFault _ _))
    | (with_reducible apply Chg.step (chg_emptyRing _ _))
    | (with_reducible apply Chg.step (chg_modPart _ _ _))
    | (with_reducible apply Chg.step (chg_repin _ _))
    | (with_reducible apply Chg.step (chg_sealChan _ _ _))
    | (with_reducible apply Chg.step (chg_setBit _ _ _ _))
    | (with_reducible apply Chg.step (chg_setReg _ _ _))
    | (with_reducible apply Chg.step (chg_setReg64 _ _ _))
    | (with_reducible apply Chg.step (chg_trimKeys _))
    | (with_reducible apply Chg.step (chg_wipeCores _ _))
    | (with_reducible apply Chg.step (chg_wipeWays _ _))
    | (with_reducible apply Chg.foldl)
    | (with_reducible apply Chg.orElse_getD)
    | (with_reducible apply Chg.getD)
    | (with_reducible apply Chg.foldl_snd)
    | intro _
    | split
    | dsimp only
    | ((with_reducible refine Chg.mk rfl ?_ rfl rfl rfl rfl ?_); · (intro x hx; cases x <;> first | rfl | exact ⟨rfl, rfl⟩ | exact absurd (by decide) hx))

theorem chg_chartResult (s : State) (a) : Chg [.out, .regs, .host, .log] s (State.chartResult s a) := by
  unfold State.chartResult
  repeat' first
    | ((with_reducible apply subF_of); rfl)
    | (with_reducible apply Chg.refl)
    | (with_reducible assumption)
    | (with_reducible apply Chg.step (chg_irq _ _ _))
    | (with_reducible apply Chg.step (chg_logRaise _ _ _ _ _ _))
    | (with_reducible apply Chg.step (chg_setFld _ _ _ _ _))

theorem chg_chartDone (s : State) (a) : Chg [.out, .regs, .host, .log] s (State.chartDone s a) := by
  unfold State.chartDone
  repeat' first
    | ((with_reducible apply subF_of); rfl)
    | (with_reducible apply Chg.refl)
    | (with_reducible assumption)
    | (with_reducible apply Chg.step (chg_chartResult _ _))
    | (with_reducible apply Chg.step (chg_setBit _ _ _ _))

theorem chg_leaveReset (s : State) (a) : Chg [.out, .regs, .parts, .host] s (State.leaveReset s a) := by
  unfold State.leaveReset
  repeat' first
    | ((with_reducible apply subF_of); rfl)
    | (with_reducible apply Chg.refl)
    | (with_reducible assumption)
    | (with_reducible apply Chg.step (chg_modPart _ _ _))
    | (with_reducible apply Chg.step (chg_partIrq _ _))
    | (with_reducible apply Chg.step (chg_partLampUpdate _ _))
    | (with_reducible apply Chg.step (chg_setBit _ _ _ _))

theorem chg_takeEffect (s : State) (a b) : Chg [.free, .out, .regs, .mem, .cores, .parts, .dies, .chans, .chart, .host, .sec, .dbg, .log] s (State.takeEffect s a b) := by
  unfold State.takeEffect
  repeat' first
    | ((with_reducible apply subF_of); rfl)
    | (with_reducible apply Chg.refl)
    | (with_reducible assumption)
    | (with_reducible apply Chg.step (chg_activatingBit _))
    | (with_reducible apply Chg.step (chg_chartResult _ _))
    | (with_reducible apply Chg.step (chg_install _ _ _))
    | (with_reducible apply Chg.step (chg_modPart _ _ _))
    | (with_reducible apply Chg.foldl)
    | (with_reducible apply Chg.orElse_getD)
    | (with_reducible apply Chg.getD)
    | (with_reducible apply Chg.foldl_snd)
    | intro _
    | split
    | dsimp only
    | ((with_reducible refine Chg.mk rfl ?_ rfl rfl rfl rfl ?_); · (intro x hx; cases x <;> first | rfl | exact ⟨rfl, rfl⟩ | exact absurd (by decide) hx))

theorem chg_finishReset (s : State) (a) : Chg [.free, .out, .regs, .mem, .memEpoch, .poison, .cores, .queues, .parts, .dies, .chans, .chart, .host, .sec, .dbg, .log] s (State.finishReset s a) := by
  unfold State.finishReset
  repeat' first
    | ((with_reducible apply subF_of); rfl)
    | (with_reducible apply Chg.refl)
    | (with_reducible assumption)
    | (with_reducible apply Chg.step (chg_clearPart _ _))
    | (with_reducible apply Chg.step (chg_freshKey _ _))
    | (with_reducible apply Chg.step (chg_leaveReset _ _))
    | (with_reducible apply Chg.step (chg_repin _ _))
    | (with_reducible apply Chg.step (chg_takeEffect _ _ _))
    | (with_reducible apply Chg.foldl)
    | (with_reducible apply Chg.orElse_getD)
    | (with_reducible apply Chg.getD)
    | (with_reducible apply Chg.foldl_snd)
    | intro _
    | split
    | dsimp only
    | ((with_reducible refine Chg.mk rfl ?_ rfl rfl rfl rfl ?_); · (intro x hx; cases x <;> first | rfl | exact ⟨rfl, rfl⟩ | exact absurd (by decide) hx))

end Sys2Proof.Machine
end

