-- ==== Sys2Proof/Laws/ChgChart.lean ====
section
/-! SUPPORT. What each operation of Machine/Chart.lean may change. -/

namespace Sys2Proof.Machine

theorem chg_discardStaged (s : State) : Chg [.regs, .parts] s (State.discardStaged s) := by
  unfold State.discardStaged
  repeat' first
    | ((with_reducible apply subF_of); rfl)
    | (with_reducible apply Chg.refl)
    | (with_reducible assumption)
    | (with_reducible apply Chg.step (chg_activatingBit _))
    | (with_reducible apply Chg.step (chg_modPart _ _ _))
    | (with_reducible apply Chg.step (chg_setReg64 _ _ _))
    | (with_reducible apply Chg.foldl)
    | (with_reducible apply Chg.orElse_getD)
    | (with_reducible apply Chg.getD)
    | (with_reducible apply Chg.foldl_snd)
    | intro _

theorem chg_applyBegin (s : State) (a) : Chg [.out, .regs, .parts, .host, .log] s (State.applyBegin s a) := by
  unfold State.applyBegin
  repeat' first
    | ((with_reducible apply subF_of); rfl)
    | (with_reducible apply Chg.refl)
    | (with_reducible assumption)
    | (with_reducible apply Chg.step (chg_beginReset _ _ _))
    | (with_reducible apply Chg.step (chg_discardStaged _))
    | (with_reducible apply Chg.foldl)
    | (with_reducible apply Chg.orElse_getD)
    | (with_reducible apply Chg.getD)
    | (with_reducible apply Chg.foldl_snd)
    | intro _

theorem chg_startLit (s : State) (a) : Chg [.boot] s (State.startLit s a) := by
  unfold State.startLit
  repeat' first
    | ((with_reducible apply subF_of); rfl)
    | (with_reducible apply Chg.refl)
    | (with_reducible assumption)
    | (with_reducible apply Chg.foldl)
    | (with_reducible apply Chg.orElse_getD)
    | (with_reducible apply Chg.getD)
    | (with_reducible apply Chg.foldl_snd)
    | intro _
    | split
    | dsimp only
    | ((with_reducible refine Chg.mk rfl ?_ rfl rfl rfl rfl ?_); · (intro x hx; cases x <;> first | rfl | exact ⟨rfl, rfl⟩ | exact absurd (by decide) hx))

theorem chg_traceLamp (s : State) (a b) : Chg [.regs, .dbg] s (State.traceLamp s a b) := by
  unfold State.traceLamp
  repeat' first
    | ((with_reducible apply subF_of); rfl)
    | (with_reducible apply Chg.refl)
    | (with_reducible assumption)
    | (with_reducible apply Chg.step (chg_trace _ _ _ _ _ _))
    | (with_reducible apply Chg.foldl)
    | (with_reducible apply Chg.orElse_getD)
    | (with_reducible apply Chg.getD)
    | (with_reducible apply Chg.foldl_snd)
    | intro _
    | split
    | dsimp only
    | ((with_reducible refine Chg.mk rfl ?_ rfl rfl rfl rfl ?_); · (intro x hx; cases x <;> first | rfl | exact ⟨rfl, rfl⟩ | exact absurd (by decide) hx))

theorem chg_lightChart (s : State) : Chg [.out, .regs, .links, .host, .boot, .dbg] s (State.lightChart s) := by
  unfold State.lightChart
  repeat' first
    | ((with_reducible apply subF_of); rfl)
    | (with_reducible apply Chg.refl)
    | (with_reducible assumption)
    | (with_reducible apply Chg.step (chg_restartAlign _))
    | (with_reducible apply Chg.step (chg_setLamp _ _ _))
    | (with_reducible apply Chg.step (chg_startLit _ _))
    | (with_reducible apply Chg.step (chg_traceLamp _ _ _))
    | (with_reducible apply Chg.foldl)
    | (with_reducible apply Chg.orElse_getD)
    | (with_reducible apply Chg.getD)
    | (with_reducible apply Chg.foldl_snd)
    | intro _
    | split
    | dsimp only
    | ((with_reducible refine Chg.mk rfl ?_ rfl rfl rfl rfl ?_); · (intro x hx; cases x <;> first | rfl | exact ⟨rfl, rfl⟩ | exact absurd (by decide) hx))

theorem chg_notifyPeers (s : State) (a) : Chg [.links] s (State.notifyPeers s a) := by
  unfold State.notifyPeers
  repeat' first
    | ((with_reducible apply subF_of); rfl)
    | (with_reducible apply Chg.refl)
    | (with_reducible assumption)
    | (with_reducible apply Chg.step (chg_queueMsg _ _ _))
    | (with_reducible apply Chg.foldl)
    | (with_reducible apply Chg.orElse_getD)
    | (with_reducible apply Chg.getD)
    | (with_reducible apply Chg.foldl_snd)
    | intro _
    | split

theorem chg_applyEnd (s : State) (a) : Chg [.free, .out, .regs, .mem, .memEpoch, .poison, .cores, .queues, .parts, .dies, .chans, .links, .chart, .host, .sec, .boot, .dbg] s (State.applyEnd s a) := by
  unfold State.applyEnd
  repeat' first
    | ((with_reducible apply subF_of); rfl)
    | (with_reducible apply Chg.refl)
    | (with_reducible assumption)
    | (with_reducible apply Chg.step (chg_clearPart _ _))
    | (with_reducible apply Chg.step (chg_digFault _ _))
    | (with_reducible apply Chg.step (chg_emptyRing _ _))
    | (with_reducible apply Chg.step (chg_freshKey _ _))
    | (with_reducible apply Chg.step (chg_leaveReset _ _))
    | (with_reducible apply Chg.step (chg_lightChart _))
    | (with_reducible apply Chg.step (chg_notifyPeers _ _))
    | (with_reducible apply Chg.step (chg_pinBuffers _ _))
    | (with_reducible apply Chg.step (chg_relight _))
    | (with_reducible apply Chg.step (chg_setBit _ _ _ _))
    | (with_reducible apply Chg.step (chg_setReg _ _ _))
    | (with_reducible apply Chg.step (chg_setReg64 _ _ _))
    | (with_reducible apply Chg.step (chg_trimKeys _))
    | (with_reducible apply Chg.step (chg_wipeCores _ _))
    | (with_reducible apply Chg.foldl)
    | (with_reducible apply Chg.orElse_getD)
    | (with_reducible apply Chg.getD)
    | (with_reducible apply Chg.foldl_snd)
    | intro _
    | split
    | dsimp only
    | ((with_reducible refine Chg.mk rfl ?_ rfl rfl rfl rfl ?_); · (intro x hx; cases x <;> first | rfl | exact ⟨rfl, rfl⟩ | exact absurd (by decide) hx))

theorem chg_chartCmd {L : List Fld} {s t : State} {f} (hs : subF [.out, .regs, .host] L) (hb0 : ∀ u, Chg L s u → Chg L s (f u)) (h : Chg L s t) : Chg L s (State.chartCmd t f) := by
  unfold State.chartCmd
  refine chg_pfStores ((subF_of rfl).trans hs) (fun u hu => ?_) h
  split
  · exact Chg.step (chg_setBit _ _ _ _) ((subF_of rfl).trans hs) hu
  · exact hb0 _ hu

theorem chg_noteImage (s : State) (a) : Chg [.regs] s (State.noteImage s a) := by
  unfold State.noteImage
  repeat' first
    | ((with_reducible apply subF_of); rfl)
    | (with_reducible apply Chg.refl)
    | (with_reducible assumption)
    | (with_reducible apply Chg.step (chg_setFld _ _ _ _ _))
    | (with_reducible apply Chg.foldl)
    | (with_reducible apply Chg.orElse_getD)
    | (with_reducible apply Chg.getD)
    | (with_reducible apply Chg.foldl_snd)
    | intro _
    | split

theorem chg_stage (s : State) (a) : Chg [.regs, .parts] s (State.stage s a) := by
  unfold State.stage
  repeat' first
    | ((with_reducible apply subF_of); rfl)
    | (with_reducible apply Chg.refl)
    | (with_reducible assumption)
    | (with_reducible apply Chg.step (chg_modPart _ _ _))
    | (with_reducible apply Chg.step (chg_setBit _ _ _ _))

theorem chg_storeBoot (s : State) (a) : Chg [.chart] s (State.storeBoot s a) := by
  unfold State.storeBoot
  repeat' first
    | ((with_reducible apply subF_of); rfl)
    | (with_reducible apply Chg.refl)
    | (with_reducible assumption)
    | (with_reducible apply Chg.foldl)
    | (with_reducible apply Chg.orElse_getD)
    | (with_reducible apply Chg.getD)
    | (with_reducible apply Chg.foldl_snd)
    | intro _
    | split
    | dsimp only
    | ((with_reducible refine Chg.mk rfl ?_ rfl rfl rfl rfl ?_); · (intro x hx; cases x <;> first | rfl | exact ⟨rfl, rfl⟩ | exact absurd (by decide) hx))

theorem chg_applyReady (s : State) : Chg [.free, .out, .regs, .mem, .memEpoch, .poison, .cores, .queues, .parts, .dies, .chans, .links, .chart, .host, .sec, .boot, .dbg, .log] s (State.applyReady s) := by
  unfold State.applyReady
  repeat' first
    | ((with_reducible apply subF_of); rfl)
    | (with_reducible apply Chg.refl)
    | (with_reducible assumption)
    | (with_reducible apply Chg.step (chg_applyEnd _ _))
    | (with_reducible apply Chg.step (chg_chartDone _ _))
    | (with_reducible apply Chg.step (chg_storeBoot _ _))
    | (with_reducible apply Chg.foldl)
    | (with_reducible apply Chg.orElse_getD)
    | (with_reducible apply Chg.getD)
    | (with_reducible apply Chg.foldl_snd)
    | intro _
    | split
    | dsimp only
    | ((with_reducible refine Chg.mk rfl ?_ rfl rfl rfl rfl ?_); · (intro x hx; cases x <;> first | rfl | exact ⟨rfl, rfl⟩ | exact absurd (by decide) hx))

theorem chg_loadDone (s : State) (a) : Chg [.out, .regs, .mem, .memEpoch, .poison, .cores, .queues, .parts, .dies, .links, .chart, .host, .sec, .boot, .dbg, .log] s (State.loadDone s a) := by
  unfold State.loadDone
  repeat' first
    | ((with_reducible apply subF_of); rfl)
    | (with_reducible apply Chg.refl)
    | (with_reducible assumption)
    | (with_reducible apply Chg.step (chg_chartDone _ _))
    | (with_reducible apply Chg.step (chg_noteImage _ _))
    | (with_reducible apply Chg.step (chg_stage _ _))
    | (with_reducible apply Chg.foldl)
    | (with_reducible apply Chg.orElse_getD)
    | (with_reducible apply Chg.getD)
    | (with_reducible apply Chg.foldl_snd)
    | intro _
    | split
    | dsimp only
    | ((with_reducible refine Chg.mk rfl ?_ rfl rfl rfl rfl ?_); · (intro x hx; cases x <;> first | rfl | exact ⟨rfl, rfl⟩ | exact absurd (by decide) hx))

theorem chg_installNew (s : State) (a b) : Chg [.free, .out, .regs, .mem, .memEpoch, .poison, .cores, .parts, .dies, .chans, .chart, .host, .sec, .dbg, .log] s (State.installNew s a b) := by
  unfold State.installNew
  repeat' first
    | ((with_reducible apply subF_of); rfl)
    | (with_reducible apply Chg.refl)
    | (with_reducible assumption)
    | (with_reducible apply Chg.step (chg_chartResult _ _))
    | (with_reducible apply Chg.step (chg_freshKey _ _))
    | (with_reducible apply Chg.step (chg_install _ _ _))
    | (with_reducible apply Chg.step (chg_modPart _ _ _))
    | (with_reducible apply Chg.step (chg_relight _))
    | (with_reducible apply Chg.foldl)
    | (with_reducible apply Chg.orElse_getD)
    | (with_reducible apply Chg.getD)
    | (with_reducible apply Chg.foldl_snd)
    | intro _
    | split
    | dsimp only
    | ((with_reducible refine Chg.mk rfl ?_ rfl rfl rfl rfl ?_); · (intro x hx; cases x <;> first | rfl | exact ⟨rfl, rfl⟩ | exact absurd (by decide) hx))

theorem chg_activate (s : State) (a) : Chg [.free, .out, .regs, .mem, .memEpoch, .poison, .cores, .parts, .dies, .chans, .chart, .host, .sec, .dbg, .log] s (State.activate s a) := by
  unfold State.activate
  repeat' first
    | ((with_reducible apply subF_of); rfl)
    | (with_reducible apply Chg.refl)
    | (with_reducible assumption)
    | (with_reducible apply Chg.step (chg_activatingBit _))
    | (with_reducible apply Chg.step (chg_beginReset _ _ _))
    | (with_reducible apply Chg.step (chg_chartResult _ _))
    | (with_reducible apply Chg.step (chg_installNew _ _ _))
    | (with_reducible apply Chg.step (chg_modPart _ _ _))
    | (with_reducible apply Chg.step (chg_tdiError _ _))
    | (with_reducible apply Chg.foldl)
    | (with_reducible apply Chg.orElse_getD)
    | (with_reducible apply Chg.getD)
    | (with_reducible apply Chg.foldl_snd)
    | intro _
    | split
    | dsimp only
    | ((with_reducible refine Chg.mk rfl ?_ rfl rfl rfl rfl ?_); · (intro x hx; cases x <;> first | rfl | exact ⟨rfl, rfl⟩ | exact absurd (by decide) hx))

theorem chg_dropItems (s : State) (a b c) : Chg [.regs, .parts, .log] s (State.dropItems s a b c) := by
  unfold State.dropItems
  repeat' first
    | ((with_reducible apply subF_of); rfl)
    | (with_reducible apply Chg.refl)
    | (with_reducible assumption)
    | (with_reducible apply Chg.step (chg_logRaise _ _ _ _ _ _))
    | (with_reducible apply Chg.step (chg_modPart _ _ _))
    | (with_reducible apply Chg.foldl)
    | (with_reducible apply Chg.orElse_getD)
    | (with_reducible apply Chg.getD)
    | (with_reducible apply Chg.foldl_snd)
    | intro _
    | split
    | dsimp only

theorem chg_activated (s : State) (a) : Chg [.free, .out, .regs, .mem, .memEpoch, .poison, .cores, .parts, .dies, .chans, .chart, .host, .sec, .dbg, .log] s (State.activated s a) := by
  unfold State.activated
  repeat' first
    | ((with_reducible apply subF_of); rfl)
    | (with_reducible apply Chg.refl)
    | (with_reducible assumption)
    | (with_reducible apply Chg.step (chg_dropItems _ _ _ _))
    | (with_reducible apply Chg.step (chg_installNew _ _ _))
    | (with_reducible apply Chg.step (chg_partLampUpdate _ _))
    | (with_reducible apply Chg.step (chg_takeEffect _ _ _))
    | (with_reducible apply Chg.foldl)
    | (with_reducible apply Chg.orElse_getD)
    | (with_reducible apply Chg.getD)
    | (with_reducible apply Chg.foldl_snd)
    | intro _
    | split
    | dsimp only
    | ((with_reducible refine Chg.mk rfl ?_ rfl rfl rfl rfl ?_); · (intro x hx; cases x <;> first | rfl | exact ⟨rfl, rfl⟩ | exact absurd (by decide) hx))

theorem chg_applyStart (s : State) : Chg [.free, .out, .regs, .mem, .memEpoch, .poison, .cores, .queues, .parts, .dies, .chans, .links, .chart, .host, .sec, .boot, .dbg, .log] s (State.applyStart s) := by
  unfold State.applyStart
  repeat' first
    | ((with_reducible apply subF_of); rfl)
    | (with_reducible apply Chg.refl)
    | (with_reducible assumption)
    | (with_reducible apply Chg.step (chg_applyBegin _ _))
    | (with_reducible apply Chg.step (chg_applyReady _))
    | (with_reducible apply Chg.step (chg_chartDone _ _))
    | (with_reducible apply Chg.foldl)
    | (with_reducible apply Chg.orElse_getD)
    | (with_reducible apply Chg.getD)
    | (with_reducible apply Chg.foldl_snd)
    | intro _
    | split
    | dsimp only
    | ((with_reducible refine Chg.mk rfl ?_ rfl rfl rfl rfl ?_); · (intro x hx; cases x <;> first | rfl | exact ⟨rfl, rfl⟩ | exact absurd (by decide) hx))

end Sys2Proof.Machine
end

