-- ==== Sys2Proof/Laws/ChgMemSys.lean ====
section
/-! SUPPORT. What each operation of Machine/MemSys.lean may change. -/

namespace Sys2Proof.Machine

theorem chg_abortSweep (s : State) (a b) : Chg [.regs, .parts, .dbg] s (State.abortSweep s a b) := by
  unfold State.abortSweep
  repeat' first
    | ((with_reducible apply subF_of); rfl)
    | (with_reducible apply Chg.refl)
    | (with_reducible assumption)
    | (with_reducible apply Chg.step (chg_modPart _ _ _))
    | (with_reducible apply Chg.step (chg_setBit _ _ _ _))
    | (with_reducible apply Chg.step (chg_setFld _ _ _ _ _))
    | (with_reducible apply Chg.step (chg_traceSweep _ _ _ _))
    | (with_reducible apply Chg.foldl)
    | (with_reducible apply Chg.orElse_getD)
    | (with_reducible apply Chg.getD)
    | (with_reducible apply Chg.foldl_snd)
    | intro _
    | split

theorem chg_logLocked (s : State) (a b) : Chg [.regs, .log] s (State.logLocked s a b) := by
  unfold State.logLocked
  repeat' first
    | ((with_reducible apply subF_of); rfl)
    | (with_reducible apply Chg.refl)
    | (with_reducible assumption)
    | (with_reducible apply Chg.step (chg_logRaise _ _ _ _ _ _))

theorem chg_dropWay (s : State) (a b c) : Chg [.out, .regs, .parts, .dies, .chart, .host, .log] s (State.dropWay s a b c) := by
  unfold State.dropWay
  repeat' first
    | ((with_reducible apply subF_of); rfl)
    | (with_reducible apply Chg.refl)
    | (with_reducible assumption)
    | (with_reducible apply Chg.step (chg_irq _ _ _))
    | (with_reducible apply Chg.step (chg_logRaise _ _ _ _ _ _))
    | (with_reducible apply Chg.step (chg_modDie _ _ _))
    | (with_reducible apply Chg.step (chg_setBit _ _ _ _))
    | (with_reducible apply Chg.step (chg_tdiError _ _))
    | (with_reducible apply Chg.foldl)
    | (with_reducible apply Chg.orElse_getD)
    | (with_reducible apply Chg.getD)
    | (with_reducible apply Chg.foldl_snd)
    | intro _
    | split
    | dsimp only
    | ((with_reducible refine Chg.mk rfl ?_ rfl rfl rfl rfl ?_); · (intro x hx; cases x <;> first | rfl | exact ⟨rfl, rfl⟩ | exact absurd (by decide) hx))

theorem chg_movePinned (s : State) (a b c) : Chg [.dies, .chans] s (State.movePinned s a b c) := by
  unfold State.movePinned
  repeat' first
    | ((with_reducible apply subF_of); rfl)
    | (with_reducible apply Chg.refl)
    | (with_reducible assumption)
    | (with_reducible apply Chg.step (chg_l2Fill _ _ _ _ _))
    | (with_reducible apply Chg.foldl)
    | (with_reducible apply Chg.orElse_getD)
    | (with_reducible apply Chg.getD)
    | (with_reducible apply Chg.foldl_snd)
    | intro _
    | split

theorem chg_disableWay (s : State) (a b) : Chg [.out, .regs, .parts, .dies, .chans, .chart, .host, .log] s (State.disableWay s a b) := by
  unfold State.disableWay
  repeat' first
    | ((with_reducible apply subF_of); rfl)
    | (with_reducible apply Chg.refl)
    | (with_reducible assumption)
    | (with_reducible apply Chg.step (chg_beginReset _ _ _))
    | (with_reducible apply Chg.step (chg_dropWay _ _ _ _))
    | (with_reducible apply Chg.step (chg_hbmAsk _ _ _ _))
    | (with_reducible apply Chg.step (chg_movePinned _ _ _ _))
    | (with_reducible apply Chg.foldl)
    | (with_reducible apply Chg.orElse_getD)
    | (with_reducible apply Chg.getD)
    | (with_reducible apply Chg.foldl_snd)
    | intro _
    | split
    | dsimp only
    | ((with_reducible refine Chg.mk rfl ?_ rfl rfl rfl rfl ?_); · (intro x hx; cases x <;> first | rfl | exact ⟨rfl, rfl⟩ | exact absurd (by decide) hx))

theorem chg_tryCalibrate (s : State) (a) : Chg [.regs] s (State.tryCalibrate s a) := by
  unfold State.tryCalibrate
  repeat' first
    | ((with_reducible apply subF_of); rfl)
    | (with_reducible apply Chg.refl)
    | (with_reducible assumption)
    | (with_reducible apply Chg.step (chg_setBit _ _ _ _))
    | (with_reducible apply Chg.foldl)
    | (with_reducible apply Chg.orElse_getD)
    | (with_reducible apply Chg.getD)
    | (with_reducible apply Chg.foldl_snd)
    | intro _
    | split
    | dsimp only

theorem chg_tgSend (s : State) (a b) : Chg [.chans] s (State.tgSend s a b) := by
  unfold State.tgSend
  repeat' first
    | ((with_reducible apply subF_of); rfl)
    | (with_reducible apply Chg.refl)
    | (with_reducible assumption)
    | (with_reducible apply Chg.step (chg_modChan _ _ _))
    | (with_reducible apply Chg.foldl)
    | (with_reducible apply Chg.orElse_getD)
    | (with_reducible apply Chg.getD)
    | (with_reducible apply Chg.foldl_snd)
    | intro _
    | split
    | dsimp only
    | ((with_reducible refine Chg.mk rfl ?_ rfl rfl rfl rfl ?_); · (intro x hx; cases x <;> first | rfl | exact ⟨rfl, rfl⟩ | exact absurd (by decide) hx))

theorem chg_tgAsk (s : State) (a) : Chg [.free, .chans] s (State.tgAsk s a) := by
  unfold State.tgAsk
  repeat' first
    | ((with_reducible apply subF_of); rfl)
    | (with_reducible apply Chg.refl)
    | (with_reducible assumption)
    | (with_reducible apply Chg.step (chg_freeNat _))
    | (with_reducible (apply Chg.step (Chg.snd (chg_freeNat _) ?e)); case e => assumption)
    | (with_reducible apply Chg.step (chg_modChan _ _ _))
    | (with_reducible apply Chg.step (chg_tgSend _ _ _))
    | (with_reducible apply Chg.foldl)
    | (with_reducible apply Chg.orElse_getD)
    | (with_reducible apply Chg.getD)
    | (with_reducible apply Chg.foldl_snd)
    | intro _
    | split
    | dsimp only
    | ((with_reducible refine Chg.mk rfl ?_ rfl rfl rfl rfl ?_); · (intro x hx; cases x <;> first | rfl | exact ⟨rfl, rfl⟩ | exact absurd (by decide) hx))

theorem chg_tgReport (s : State) (a b) : Chg [.regs] s (State.tgReport s a b) := by
  unfold State.tgReport
  repeat' first
    | ((with_reducible apply subF_of); rfl)
    | (with_reducible apply Chg.refl)
    | (with_reducible assumption)
    | (with_reducible apply Chg.step (chg_setReg _ _ _))
    | (with_reducible apply Chg.step (chg_setReg64 _ _ _))
    | (with_reducible apply Chg.foldl)
    | (with_reducible apply Chg.orElse_getD)
    | (with_reducible apply Chg.getD)
    | (with_reducible apply Chg.foldl_snd)
    | intro _
    | split
    | dsimp only
    | ((with_reducible refine Chg.mk rfl ?_ rfl rfl rfl rfl ?_); · (intro x hx; cases x <;> first | rfl | exact ⟨rfl, rfl⟩ | exact absurd (by decide) hx))

theorem chg_tgLine (s : State) (a) : Chg [.free, .regs, .mem, .poison, .cores, .launches, .chans] s (State.tgLine s a) := by
  unfold State.tgLine
  extract_lets x off reads errs t n passes u
  have ht : Chg [.free, .regs, .mem, .poison, .cores, .launches, .chans] s t := Chg.ite ((chg_tgReport _ _ _).mono (subF_of rfl)) ((chg_writeMem _ _ _).mono (subF_of rfl))
  clear_value t
  have hu : Chg [.free, .regs, .mem, .poison, .cores, .launches, .chans] s u := Chg.step (chg_setReg64 _ _ _) (subF_of rfl) (Chg.step (chg_modChan _ _ _) (subF_of rfl) ht)
  clear_value u
  exact Chg.ite hu (Chg.step (chg_tgAsk _ _) (subF_of rfl) hu)

theorem chg_hbmUncorrectable (s : State) (a b) : Chg [.out, .poison, .cores, .launches, .chans, .host] s (State.hbmUncorrectable s a b) := by
  unfold State.hbmUncorrectable
  repeat' first
    | ((with_reducible apply subF_of); rfl)
    | (with_reducible apply Chg.refl)
    | (with_reducible assumption)
    | (with_reducible apply Chg.step (chg_irq _ _ _))
    | (with_reducible apply Chg.step (chg_modChan _ _ _))
    | (with_reducible apply Chg.step (chg_poisonEntries _ _))
    | (with_reducible apply Chg.step (chg_poisonLine _ _))
    | (with_reducible apply Chg.foldl)
    | (with_reducible apply Chg.orElse_getD)
    | (with_reducible apply Chg.getD)
    | (with_reducible apply Chg.foldl_snd)
    | intro _
    | split
    | dsimp only
    | ((with_reducible refine Chg.mk rfl ?_ rfl rfl rfl rfl ?_); · (intro x hx; cases x <;> first | rfl | exact ⟨rfl, rfl⟩ | exact absurd (by decide) hx))

theorem chg_hbmCorrected (s : State) (a) : Chg [.chans] s (State.hbmCorrected s a) := by
  unfold State.hbmCorrected
  repeat' first
    | ((with_reducible apply subF_of); rfl)
    | (with_reducible apply Chg.refl)
    | (with_reducible assumption)
    | (with_reducible apply Chg.step (chg_modChan _ _ _))
    | (with_reducible apply Chg.foldl)
    | (with_reducible apply Chg.orElse_getD)
    | (with_reducible apply Chg.getD)
    | (with_reducible apply Chg.foldl_snd)
    | intro _
    | split
    | dsimp only
    | ((with_reducible refine Chg.mk rfl ?_ rfl rfl rfl rfl ?_); · (intro x hx; cases x <;> first | rfl | exact ⟨rfl, rfl⟩ | exact absurd (by decide) hx))

theorem chg_hbmRead (s : State) (a b c) : Chg [.out, .poison, .cores, .launches, .chans, .host] s (State.hbmRead s a b c) := by
  unfold State.hbmRead
  repeat' first
    | ((with_reducible apply subF_of); rfl)
    | (with_reducible apply Chg.refl)
    | (with_reducible assumption)
    | (with_reducible apply Chg.step (chg_hbmCorrected _ _))
    | (with_reducible apply Chg.step (chg_hbmUncorrectable _ _ _))
    | (with_reducible apply Chg.foldl)
    | (with_reducible apply Chg.orElse_getD)
    | (with_reducible apply Chg.getD)
    | (with_reducible apply Chg.foldl_snd)
    | intro _
    | split
    | dsimp only
    | ((with_reducible refine Chg.mk rfl ?_ rfl rfl rfl rfl ?_); · (intro x hx; cases x <;> first | rfl | exact ⟨rfl, rfl⟩ | exact absurd (by decide) hx))

theorem chg_tgRetry (s : State) (a) : Chg [.free, .chans] s (State.tgRetry s a) := by
  unfold State.tgRetry
  repeat' first
    | ((with_reducible apply subF_of); rfl)
    | (with_reducible apply Chg.refl)
    | (with_reducible assumption)
    | (with_reducible apply Chg.step (chg_tgAsk _ _))
    | (with_reducible apply Chg.foldl)
    | (with_reducible apply Chg.orElse_getD)
    | (with_reducible apply Chg.getD)
    | (with_reducible apply Chg.foldl_snd)
    | intro _
    | split
    | dsimp only
    | ((with_reducible refine Chg.mk rfl ?_ rfl rfl rfl rfl ?_); · (intro x hx; cases x <;> first | rfl | exact ⟨rfl, rfl⟩ | exact absurd (by decide) hx))

theorem chg_handOver (s : State) (a b) : Chg [.chans] s (State.handOver s a b) := by
  unfold State.handOver
  repeat' first
    | ((with_reducible apply subF_of); rfl)
    | (with_reducible apply Chg.refl)
    | (with_reducible assumption)
    | (with_reducible apply Chg.step (chg_modChan _ _ _))
    | (with_reducible apply Chg.foldl)
    | (with_reducible apply Chg.orElse_getD)
    | (with_reducible apply Chg.getD)
    | (with_reducible apply Chg.foldl_snd)
    | intro _
    | split
    | dsimp only
    | ((with_reducible refine Chg.mk rfl ?_ rfl rfl rfl rfl ?_); · (intro x hx; cases x <;> first | rfl | exact ⟨rfl, rfl⟩ | exact absurd (by decide) hx))

theorem chg_serveHbm (s : State) (a b) : Chg [.free, .out, .regs, .mem, .poison, .cores, .launches, .chans, .host] s (State.serveHbm s a b) := by
  unfold State.serveHbm
  repeat' first
    | ((with_reducible apply subF_of); rfl)
    | (with_reducible apply Chg.refl)
    | (with_reducible assumption)
    | (with_reducible apply Chg.step (chg_handOver _ _ _))
    | (with_reducible apply Chg.step (chg_hbmRead _ _ _ _))
    | (with_reducible apply Chg.step (chg_modChan _ _ _))
    | (with_reducible apply Chg.step (chg_setChan _ _ _))
    | (with_reducible apply Chg.step (chg_tgLine _ _))
    | (with_reducible apply Chg.step (chg_tgRetry _ _))
    | (with_reducible apply Chg.step (chg_tryCalibrate _ _))
    | (with_reducible apply Chg.foldl)
    | (with_reducible apply Chg.orElse_getD)
    | (with_reducible apply Chg.getD)
    | (with_reducible apply Chg.foldl_snd)
    | intro _
    | split
    | dsimp only
    | ((with_reducible refine Chg.mk rfl ?_ rfl rfl rfl rfl ?_); · (intro x hx; cases x <;> first | rfl | exact ⟨rfl, rfl⟩ | exact absurd (by decide) hx))

theorem chg_refresh (s : State) (a b) : Chg [.chans] s (State.refresh s a b) := by
  unfold State.refresh
  repeat' first
    | ((with_reducible apply subF_of); rfl)
    | (with_reducible apply Chg.refl)
    | (with_reducible assumption)
    | (with_reducible apply Chg.step (chg_setChan _ _ _))
    | (with_reducible apply Chg.foldl)
    | (with_reducible apply Chg.orElse_getD)
    | (with_reducible apply Chg.getD)
    | (with_reducible apply Chg.foldl_snd)
    | intro _
    | split
    | dsimp only

theorem chg_scrubFound (s : State) (a b) : Chg [.out, .poison, .cores, .launches, .chans, .host] s (State.scrubFound s a b) := by
  unfold State.scrubFound
  repeat' first
    | ((with_reducible apply subF_of); rfl)
    | (with_reducible apply Chg.refl)
    | (with_reducible assumption)
    | (with_reducible apply Chg.step (chg_hbmUncorrectable _ _ _))
    | (with_reducible apply Chg.step (chg_irq _ _ _))
    | (with_reducible apply Chg.step (chg_modChan _ _ _))
    | (with_reducible apply Chg.foldl)
    | (with_reducible apply Chg.orElse_getD)
    | (with_reducible apply Chg.getD)
    | (with_reducible apply Chg.foldl_snd)
    | intro _
    | split
    | dsimp only
    | ((with_reducible refine Chg.mk rfl ?_ rfl rfl rfl rfl ?_); · (intro x hx; cases x <;> first | rfl | exact ⟨rfl, rfl⟩ | exact absurd (by decide) hx))

theorem chg_scrub (s : State) (a b) : Chg [.out, .regs, .poison, .cores, .launches, .chans, .host, .log] s (State.scrub s a b) := by
  unfold State.scrub
  repeat' first
    | ((with_reducible apply subF_of); rfl)
    | (with_reducible apply Chg.refl)
    | (with_reducible assumption)
    | (with_reducible apply Chg.step (chg_hbmRead _ _ _ _))
    | (with_reducible apply Chg.step (chg_logRaise _ _ _ _ _ _))
    | (with_reducible apply Chg.step (chg_modChan _ _ _))
    | (with_reducible apply Chg.step (chg_scrubFound _ _ _))
    | (with_reducible apply Chg.step (chg_setReg _ _ _))
    | (with_reducible apply Chg.foldl)
    | (with_reducible apply Chg.orElse_getD)
    | (with_reducible apply Chg.getD)
    | (with_reducible apply Chg.foldl_snd)
    | intro _
    | split
    | dsimp only
    | ((with_reducible refine Chg.mk rfl ?_ rfl rfl rfl rfl ?_); · (intro x hx; cases x <;> first | rfl | exact ⟨rfl, rfl⟩ | exact absurd (by decide) hx))

theorem chg_logRetired (s : State) (a b c) : Chg [.regs, .log] s (State.logRetired s a b c) := by
  unfold State.logRetired
  repeat' first
    | ((with_reducible apply subF_of); rfl)
    | (with_reducible apply Chg.refl)
    | (with_reducible assumption)
    | (with_reducible apply Chg.step (chg_logRaise _ _ _ _ _ _))

theorem chg_retireChan (s : State) (a b) : Chg [.out, .regs, .cores, .launches, .dies, .chans, .chart, .host, .log] s (State.retireChan s a b) := by
  unfold State.retireChan
  repeat' first
    | ((with_reducible apply subF_of); rfl)
    | (with_reducible apply Chg.refl)
    | (with_reducible assumption)
    | (with_reducible apply Chg.step (chg_irq _ _ _))
    | (with_reducible apply Chg.step (chg_logRetired _ _ _ _))
    | (with_reducible apply Chg.step (chg_modChan _ _ _))
    | (with_reducible apply Chg.step (chg_modDie _ _ _))
    | (with_reducible apply Chg.step (chg_setBit _ _ _ _))
    | (with_reducible apply Chg.foldl)
    | (with_reducible apply Chg.orElse_getD)
    | (with_reducible apply Chg.getD)
    | (with_reducible apply Chg.foldl_snd)
    | intro _
    | split
    | dsimp only
    | ((with_reducible refine Chg.mk rfl ?_ rfl rfl rfl rfl ?_); · (intro x hx; cases x <;> first | rfl | exact ⟨rfl, rfl⟩ | exact absurd (by decide) hx))

theorem chg_poisonItems (s : State) (a b) : Chg [.free, .poison, .parts] s (State.poisonItems s a b) := by
  unfold State.poisonItems
  repeat' first
    | ((with_reducible apply subF_of); rfl)
    | (with_reducible apply Chg.refl)
    | (with_reducible assumption)
    | (with_reducible apply Chg.step (chg_freeBit _))
    | (with_reducible (apply Chg.step (Chg.snd (chg_freeBit _) ?e)); case e => assumption)
    | (with_reducible apply Chg.step (chg_setStageChan _ _ _ _))
    | (with_reducible apply Chg.foldl)
    | (with_reducible apply Chg.orElse_getD)
    | (with_reducible apply Chg.getD)
    | (with_reducible apply Chg.foldl_snd)
    | intro _
    | split
    | dsimp only
    | ((with_reducible refine Chg.mk rfl ?_ rfl rfl rfl rfl ?_); · (intro x hx; cases x <;> first | rfl | exact ⟨rfl, rfl⟩ | exact absurd (by decide) hx))

theorem chg_loseWay (s : State) (a b) : Chg [.free, .out, .regs, .poison, .cores, .launches, .parts, .dies, .chans, .chart, .host, .log] s (State.loseWay s a b) := by
  unfold State.loseWay
  repeat' first
    | ((with_reducible apply subF_of); rfl)
    | (with_reducible apply Chg.refl)
    | (with_reducible assumption)
    | (with_reducible apply Chg.step (chg_dropWay _ _ _ _))
    | (with_reducible apply Chg.step (chg_hbmAsk _ _ _ _))
    | (with_reducible apply Chg.step (chg_pinLine _ _ _ _))
    | (with_reducible apply Chg.step (chg_poisonEntries _ _))
    | (with_reducible apply Chg.step (chg_poisonItems _ _ _))
    | (with_reducible apply Chg.step (chg_poisonLine _ _))
    | (with_reducible apply Chg.foldl)
    | (with_reducible apply Chg.orElse_getD)
    | (with_reducible apply Chg.getD)
    | (with_reducible apply Chg.foldl_snd)
    | intro _
    | split
    | dsimp only
    | ((with_reducible refine Chg.mk rfl ?_ rfl rfl rfl rfl ?_); · (intro x hx; cases x <;> first | rfl | exact ⟨rfl, rfl⟩ | exact absurd (by decide) hx))

theorem chg_markOld (s : State) (a) : Chg [.cores] s (State.markOld s a) := by
  unfold State.markOld
  repeat' first
    | ((with_reducible apply subF_of); rfl)
    | (with_reducible apply Chg.refl)
    | (with_reducible assumption)
    | (with_reducible apply Chg.foldl)
    | (with_reducible apply Chg.orElse_getD)
    | (with_reducible apply Chg.getD)
    | (with_reducible apply Chg.foldl_snd)
    | intro _
    | split
    | dsimp only
    | ((with_reducible refine Chg.mk rfl ?_ rfl rfl rfl rfl ?_); · (intro x hx; cases x <;> first | rfl | exact ⟨rfl, rfl⟩ | exact absurd (by decide) hx))

theorem chg_rebindWait (s : State) (a b) : Chg [.launches] s (State.rebindWait s a b) := by
  unfold State.rebindWait
  repeat' first
    | ((with_reducible apply subF_of); rfl)
    | (with_reducible apply Chg.refl)
    | (with_reducible assumption)
    | (with_reducible apply Chg.step (chg_finish _ _ _))
    | (with_reducible apply Chg.step (chg_setLaunch _ _ _))
    | (with_reducible apply Chg.foldl)
    | (with_reducible apply Chg.orElse_getD)
    | (with_reducible apply Chg.getD)
    | (with_reducible apply Chg.foldl_snd)
    | intro _
    | split
    | dsimp only
    | ((with_reducible refine Chg.mk rfl ?_ rfl rfl rfl rfl ?_); · (intro x hx; cases x <;> first | rfl | exact ⟨rfl, rfl⟩ | exact absurd (by decide) hx))

end Sys2Proof.Machine
end

