-- ==== Sys2Proof/Laws/ChgCopies.lean ====
section
/-! SUPPORT. What each operation of Machine/Copies.lean may change. -/

namespace Sys2Proof.Machine

theorem chg_tokenRow (s : State) (a b c) : Chg [.free, .out, .parts] s (State.tokenRow s a b c).2 := by
  unfold State.tokenRow
  repeat' first
    | ((with_reducible apply subF_of); rfl)
    | (with_reducible apply Chg.refl)
    | (with_reducible assumption)
    | (with_reducible apply Chg.step (chg_fetchBytes _ _ _ _ _))
    | (with_reducible (apply Chg.step (Chg.snd (chg_fetchBytes _ _ _ _ _) ?e)); case e => assumption)
    | (with_reducible apply Chg.foldl)
    | (with_reducible apply Chg.orElse_getD)
    | (with_reducible apply Chg.getD)
    | (with_reducible apply Chg.foldl_snd)
    | intro _
    | split
    | dsimp only
    | ((with_reducible refine Chg.mk rfl ?_ rfl rfl rfl rfl ?_); · (intro x hx; cases x <;> first | rfl | exact ⟨rfl, rfl⟩ | exact absurd (by decide) hx))

theorem chg_pieceSrc (s : State) (a b c) : Chg [.free, .out, .parts] s (State.pieceSrc s a b c).2 := by
  unfold State.pieceSrc
  repeat' first
    | ((with_reducible apply subF_of); rfl)
    | (with_reducible apply Chg.refl)
    | (with_reducible assumption)
    | (with_reducible apply Chg.step (chg_tokenRow _ _ _ _))
    | (with_reducible (apply Chg.step (Chg.snd (chg_tokenRow _ _ _ _) ?e)); case e => assumption)
    | (with_reducible apply Chg.foldl)
    | (with_reducible apply Chg.orElse_getD)
    | (with_reducible apply Chg.getD)
    | (with_reducible apply Chg.foldl_snd)
    | intro _
    | split
    | dsimp only
    | ((with_reducible refine Chg.mk rfl ?_ rfl rfl rfl rfl ?_); · (intro x hx; cases x <;> first | rfl | exact ⟨rfl, rfl⟩ | exact absurd (by decide) hx))

theorem chg_pieceSrcs (s : State) (a b c) : Chg [.free, .out, .parts] s (State.pieceSrcs s a b c).2 := by
  induction c generalizing s with
  | nil => exact Chg.refl _ _
  | cons x l ih =>
    unfold State.pieceSrcs
    repeat' first
      | ((with_reducible apply subF_of); rfl)
      | (with_reducible apply Chg.refl)
      | (with_reducible assumption)
      | (with_reducible apply Chg.step (chg_pieceSrc _ _ _ _))
      | (with_reducible (apply Chg.step (Chg.snd (chg_pieceSrc _ _ _ _) ?e)); case e => assumption)
      | (with_reducible apply Chg.step (ih ..))
      | (with_reducible (apply Chg.step (Chg.snd (ih ..) ?e)); case e => assumption)
      | (with_reducible apply Chg.foldl)
      | (with_reducible apply Chg.orElse_getD)
      | (with_reducible apply Chg.getD)
      | (with_reducible apply Chg.foldl_snd)
      | intro _
      | split

theorem chg_askSource (s : State) (a b c) : Chg [.free, .dies, .chans] s (State.askSource s a b c) := by
  unfold State.askSource
  repeat' first
    | ((with_reducible apply subF_of); rfl)
    | (with_reducible apply Chg.refl)
    | (with_reducible assumption)
    | (with_reducible apply Chg.step (chg_l2Touch _ _ _ _ _ _ _))
    | (with_reducible apply Chg.foldl)
    | (with_reducible apply Chg.orElse_getD)
    | (with_reducible apply Chg.getD)
    | (with_reducible apply Chg.foldl_snd)
    | intro _
    | split
    | dsimp only
    | ((with_reducible refine Chg.mk rfl ?_ rfl rfl rfl rfl ?_); · (intro x hx; cases x <;> first | rfl | exact ⟨rfl, rfl⟩ | exact absurd (by decide) hx))

theorem chg_copyRead (s : State) (a b c d) : Chg [.free, .out, .parts, .dies, .chans] s (State.copyRead s a b c d).2 := by
  unfold State.copyRead
  repeat' first
    | ((with_reducible apply subF_of); rfl)
    | (with_reducible apply Chg.refl)
    | (with_reducible assumption)
    | (with_reducible apply Chg.step (chg_askHost _ _))
    | (with_reducible apply Chg.step (chg_askSource _ _ _ _))
    | (with_reducible apply Chg.step (chg_readAt _ _ _))
    | (with_reducible (apply Chg.step (Chg.snd (chg_readAt _ _ _) ?e)); case e => assumption)
    | (with_reducible apply Chg.step (chg_translSpan _ _ _ _ _ _))
    | (with_reducible (apply Chg.step (Chg.snd (chg_translSpan _ _ _ _ _ _) ?e)); case e => assumption)
    | (with_reducible apply Chg.foldl)
    | (with_reducible apply Chg.orElse_getD)
    | (with_reducible apply Chg.getD)
    | (with_reducible apply Chg.foldl_snd)
    | intro _
    | split
    | dsimp only
    | ((with_reducible refine Chg.mk rfl ?_ rfl rfl rfl rfl ?_); · (intro x hx; cases x <;> first | rfl | exact ⟨rfl, rfl⟩ | exact absurd (by decide) hx))

theorem chg_copyWrite (s : State) (a b c d e) : Chg [.free, .out, .mem, .poison, .cores, .launches, .parts, .dies, .chans] s (State.copyWrite s a b c d e).2 := by
  unfold State.copyWrite
  repeat' first
    | ((with_reducible apply subF_of); rfl)
    | (with_reducible apply Chg.refl)
    | (with_reducible assumption)
    | (with_reducible apply Chg.step (chg_l2Touch _ _ _ _ _ _ _))
    | (with_reducible apply Chg.step (chg_modLaunch _ _ _))
    | (with_reducible apply Chg.step (chg_syncOut _ _ _))
    | (with_reducible apply Chg.step (chg_translSpan _ _ _ _ _ _))
    | (with_reducible (apply Chg.step (Chg.snd (chg_translSpan _ _ _ _ _ _) ?e)); case e => assumption)
    | (with_reducible apply Chg.step (chg_writeAt _ _ _))
    | (with_reducible apply Chg.foldl)
    | (with_reducible apply Chg.orElse_getD)
    | (with_reducible apply Chg.getD)
    | (with_reducible apply Chg.foldl_snd)
    | intro _
    | split
    | dsimp only
    | ((with_reducible refine Chg.mk rfl ?_ rfl rfl rfl rfl ?_); · (intro x hx; cases x <;> first | rfl | exact ⟨rfl, rfl⟩ | exact absurd (by decide) hx))

theorem chg_pieceBytes (s : State) (a b c d e f) : Chg [.free, .out, .parts, .dies, .chans] s (State.pieceBytes s a b c d e f).2 := by
  unfold State.pieceBytes
  repeat' first
    | ((with_reducible apply subF_of); rfl)
    | (with_reducible apply Chg.refl)
    | (with_reducible assumption)
    | (with_reducible apply Chg.step (chg_copyRead _ _ _ _ _))
    | (with_reducible (apply Chg.step (Chg.snd (chg_copyRead _ _ _ _ _) ?e)); case e => assumption)
    | (with_reducible apply Chg.foldl)
    | (with_reducible apply Chg.orElse_getD)
    | (with_reducible apply Chg.getD)
    | (with_reducible apply Chg.foldl_snd)
    | intro _
    | split

theorem chg_movePieces (s : State) (a b c d e f) : Chg [.free, .out, .mem, .poison, .cores, .launches, .parts, .dies, .chans] s (State.movePieces s a b c d e f).2 := by
  induction f generalizing s e with
  | nil => exact Chg.refl _ _
  | cons x l ih =>
    unfold State.movePieces
    repeat' first
      | ((with_reducible apply subF_of); rfl)
      | (with_reducible apply Chg.refl)
      | (with_reducible assumption)
      | (with_reducible apply Chg.step (chg_copyWrite _ _ _ _ _ _))
      | (with_reducible (apply Chg.step (Chg.snd (chg_copyWrite _ _ _ _ _ _) ?e)); case e => assumption)
      | (with_reducible apply Chg.step (chg_modLaunch _ _ _))
      | (with_reducible apply Chg.step (chg_pieceBytes _ _ _ _ _ _ _))
      | (with_reducible (apply Chg.step (Chg.snd (chg_pieceBytes _ _ _ _ _ _ _) ?e)); case e => assumption)
      | (with_reducible apply Chg.step (ih ..))
      | (with_reducible (apply Chg.step (Chg.snd (ih ..) ?e)); case e => assumption)
      | (with_reducible apply Chg.foldl)
      | (with_reducible apply Chg.orElse_getD)
      | (with_reducible apply Chg.getD)
      | (with_reducible apply Chg.foldl_snd)
      | intro _
      | split
      | (with_reducible apply Chg.foldl)
      | (with_reducible apply Chg.orElse_getD)
      | (with_reducible apply Chg.getD)
      | (with_reducible apply Chg.foldl_snd)
      | intro _
      | split
      | dsimp only
      | ((with_reducible refine Chg.mk rfl ?_ rfl rfl rfl rfl ?_); · (intro x hx; cases x <;> first | rfl | exact ⟨rfl, rfl⟩ | exact absurd (by decide) hx))
      | (with_reducible apply Chg.foldl)
      | (with_reducible apply Chg.orElse_getD)
      | (with_reducible apply Chg.getD)
      | (with_reducible apply Chg.foldl_snd)
      | intro _
      | split
      | dsimp only
      | ((with_reducible refine Chg.mk rfl ?_ rfl rfl rfl rfl ?_); · (intro x hx; cases x <;> first | rfl | exact ⟨rfl, rfl⟩ | exact absurd (by decide) hx))

theorem chg_modCopy (s : State) (a b) : Chg [.launches] s (State.modCopy s a b) := by
  unfold State.modCopy
  repeat' first
    | ((with_reducible apply subF_of); rfl)
    | (with_reducible apply Chg.refl)
    | (with_reducible assumption)
    | (with_reducible apply Chg.step (chg_modLaunch _ _ _))

theorem chg_gatherWrites (s : State) (a b c d) : Chg [.free, .out, .parts, .dies, .chans] s (State.gatherWrites s a b c d).2 := by
  induction d generalizing s with
  | nil => exact Chg.refl _ _
  | cons x l ih =>
    unfold State.gatherWrites
    repeat' first
      | ((with_reducible apply subF_of); rfl)
      | (with_reducible apply Chg.refl)
      | (with_reducible assumption)
      | (with_reducible apply Chg.step (chg_pieceBytes _ _ _ _ _ _ _))
      | (with_reducible (apply Chg.step (Chg.snd (chg_pieceBytes _ _ _ _ _ _ _) ?e)); case e => assumption)
      | (with_reducible apply Chg.step (ih ..))
      | (with_reducible (apply Chg.step (Chg.snd (ih ..) ?e)); case e => assumption)
      | (with_reducible apply Chg.foldl)
      | (with_reducible apply Chg.orElse_getD)
      | (with_reducible apply Chg.getD)
      | (with_reducible apply Chg.foldl_snd)
      | intro _
      | split
      | (with_reducible apply Chg.foldl)
      | (with_reducible apply Chg.orElse_getD)
      | (with_reducible apply Chg.getD)
      | (with_reducible apply Chg.foldl_snd)
      | intro _
      | split
      | dsimp only
      | ((with_reducible refine Chg.mk rfl ?_ rfl rfl rfl rfl ?_); · (intro x hx; cases x <;> first | rfl | exact ⟨rfl, rfl⟩ | exact absurd (by decide) hx))

theorem chg_sendCopy (s : State) (a b c d e f) : Chg [.regs, .cores, .launches, .dies, .links] s (State.sendCopy s a b c d e f) := by
  unfold State.sendCopy
  repeat' first
    | ((with_reducible apply subF_of); rfl)
    | (with_reducible apply Chg.refl)
    | (with_reducible assumption)
    | (with_reducible apply Chg.step (chg_refuse _ _))
    | (with_reducible apply Chg.step (chg_sendReq _ _ _ _))
    | (with_reducible (apply Chg.step (Chg.snd (chg_sendReq _ _ _ _) ?e)); case e => assumption)
    | (with_reducible apply Chg.foldl)
    | (with_reducible apply Chg.orElse_getD)
    | (with_reducible apply Chg.getD)
    | (with_reducible apply Chg.foldl_snd)
    | intro _
    | split
    | dsimp only

theorem chg_openReq {s : State} {a b c d e f g} {v : State} (h : State.openReq s a b c d e f g = some v) : Chg [.regs, .cores, .launches, .dies, .copies, .links, .dbg] s v := by
  unfold State.openReq at h
  repeat' first
    | ((with_reducible apply subF_of); rfl)
    | contradiction
    | (injection h with h; subst h)
    | (split at h)
    | (dsimp only at h)
    | (with_reducible apply Chg.refl)
    | (with_reducible assumption)
    | (with_reducible apply Chg.step (chg_modCopy _ _ _))
    | (with_reducible apply Chg.step (chg_sendCopy _ _ _ _ _ _ _))
    | (with_reducible apply Chg.step (chg_setCopyEng _ _ _))
    | (with_reducible apply Chg.step (chg_traceLaunch _ _ _ _ _))
    | (with_reducible apply Chg.foldl)
    | (with_reducible apply Chg.orElse_getD)
    | (with_reducible apply Chg.getD)
    | (with_reducible apply Chg.foldl_snd)
    | intro _
    | split

theorem chg_nextReq {s : State} {a b} {v : State} (h : State.nextReq s a b = some v) : Chg [.free, .out, .regs, .cores, .launches, .parts, .dies, .chans, .copies, .links, .dbg] s v := by
  unfold State.nextReq at h
  split at h
  · contradiction
  split at h
  · contradiction
  split at h
  · dsimp only at h
    split at h
    · split at h
      · next k =>
        split at h
        · contradiction
        · exact Chg.step (chg_openReq h) (subF_of rfl) ((Chg.snd (chg_pieceSrcs _ _ _ _) k).mono (subF_of rfl))
      · next k => exact Chg.step (chg_openReq h) (subF_of rfl) ((Chg.snd (chg_pieceSrcs _ _ _ _) k).mono (subF_of rfl))
    · split at h
      · split at h
        · next k =>
          split at h
          · contradiction
          · exact Chg.step (chg_openReq h) (subF_of rfl) ((Chg.snd (chg_pieceSrcs _ _ _ _) k).mono (subF_of rfl))
        · next u k =>
          have ht : Chg [.free, .out, .regs, .cores, .launches, .parts, .dies, .chans, .copies, .links, .dbg] s u := (Chg.snd (chg_pieceSrcs _ _ _ _) k).mono (subF_of rfl)
          split at h
          · contradiction
          · split at h
            · split at h
              · contradiction
              · rw [← Option.some.inj h]; exact Chg.step (chg_askLines _ _ _ _) (subF_of rfl) ht
            · have hl (xs) : Chg [.free, .out, .regs, .cores, .launches, .parts, .dies, .chans, .copies, .links, .dbg] s (u.takeLines xs) := Chg.step (chg_takeLines u _) (subF_of rfl) ht
              split at h
              · next j =>
                split at h
                · contradiction
                · exact Chg.step (chg_openReq h) (subF_of rfl) (Chg.step (Chg.snd (chg_gatherWrites _ _ _ _ _) j) (subF_of rfl) (hl _))
              · next j => exact Chg.step (chg_openReq h) (subF_of rfl) (Chg.step (Chg.snd (chg_gatherWrites _ _ _ _ _) j) (subF_of rfl) (hl _))
      · exact (chg_openReq h).mono (subF_of rfl)
  · contradiction

theorem chg_doReq (s : State) (a b c d) : Chg [.free, .out, .mem, .poison, .cores, .launches, .parts, .dies, .chans] s (State.doReq s a b c d).2 := by
  unfold State.doReq
  repeat' first
    | ((with_reducible apply subF_of); rfl)
    | (with_reducible apply Chg.refl)
    | (with_reducible assumption)
    | (with_reducible apply Chg.step (chg_movePieces _ _ _ _ _ _ _))
    | (with_reducible (apply Chg.step (Chg.snd (chg_movePieces _ _ _ _ _ _ _) ?e)); case e => assumption)
    | (with_reducible apply Chg.step (chg_pieceSrcs _ _ _ _))
    | (with_reducible (apply Chg.step (Chg.snd (chg_pieceSrcs _ _ _ _) ?e)); case e => assumption)
    | (with_reducible apply Chg.foldl)
    | (with_reducible apply Chg.orElse_getD)
    | (with_reducible apply Chg.getD)
    | (with_reducible apply Chg.foldl_snd)
    | intro _
    | split
    | dsimp only

theorem chg_endFold {s : State} {a b c x} {v : State} (h : State.endFold s a b c = some (x, v)) : Chg [.free, .out, .regs, .mem, .poison, .cores, .launches, .parts, .dies, .chans, .copies, .links, .dbg] s v := by
  unfold State.endFold at h
  split at h
  · contradiction
  · dsimp only at h
    split at h
    · cases h; exact Chg.refl _ _
    · split at h
      · obtain ⟨w, hw, k⟩ := Option.map_eq_some_iff.1 h
        cases k
        exact (chg_openReq hw).mono (subF_of rfl)
      · split at h
        · contradiction
        · exact (Chg.snd (chg_copyWrite _ _ _ _ _ _) (Option.some.inj h)).mono (subF_of rfl)

theorem chg_endReq (s : State) (a b c) : Chg [.free, .out, .regs, .mem, .poison, .cores, .launches, .parts, .dies, .chans, .copies, .links, .dbg] s (State.endReq s a b c) := by
  unfold State.endReq
  split
  · exact Chg.refl _ _
  · next lid l r _ =>
    split
    · refine chg_withLines (subF_of rfl) (fun z hz => ?_) (Chg.refl _ _)
      extract_lets d x t last
      have hx : Chg [.free, .out, .regs, .mem, .poison, .cores, .launches, .parts, .dies, .chans, .copies, .links, .dbg] s x.2 := Chg.step (chg_doReq _ _ _ _ _) (subF_of rfl) hz
      have ht : Chg [.free, .out, .regs, .mem, .poison, .cores, .launches, .parts, .dies, .chans, .copies, .links, .dbg] s t := Chg.step (chg_modCopy _ _ _) (subF_of rfl) hx
      clear_value last t
      split
      · exact hz
      · next st v k =>
        have hv : Chg [.free, .out, .regs, .mem, .poison, .cores, .launches, .parts, .dies, .chans, .copies, .links, .dbg] s v := by
          split at k
          · exact Chg.step (chg_endFold k) (subF_of rfl) ht
          · cases k; exact ht
        split
        · exact hz
        · split
          · exact Chg.step (chg_failLaunch _ _ _) (subF_of rfl) hv
          · extract_lets u
            have hu : Chg [.free, .out, .regs, .mem, .poison, .cores, .launches, .parts, .dies, .chans, .copies, .links, .dbg] s u := Chg.step (chg_modLaunch _ _ _) (subF_of rfl) hv
            clear_value u
            split
            · exact Chg.ite (Chg.step (chg_purgeCopy _ _ _) (subF_of rfl) hu) hu
            · exact hu
    · exact Chg.refl _ _

theorem chg_copyAnswered (s : State) (a b c) : Chg [.launches] s (State.copyAnswered s a b c) := by
  unfold State.copyAnswered
  repeat' first
    | ((with_reducible apply subF_of); rfl)
    | (with_reducible apply Chg.refl)
    | (with_reducible assumption)
    | (with_reducible apply Chg.step (chg_modCopy _ _ _))

end Sys2Proof.Machine
end

