-- ==== Sys2Proof/Laws/ChgLinks.lean ====
section
/-! SUPPORT. What each operation of Machine/Links.lean may change. -/

namespace Sys2Proof.Machine

theorem chg_noRoute (s : State) (a b) : Chg [.regs, .cores, .launches, .parts, .dies, .links, .dbg, .log] s (State.noRoute s a b) := by
  unfold State.noRoute
  repeat' first
    | ((with_reducible apply subF_of); rfl)
    | (with_reducible apply Chg.refl)
    | (with_reducible assumption)
    | (with_reducible apply Chg.step (chg_countReg _ _ _))
    | (with_reducible apply Chg.step (chg_refuseMsg _ _ _ _))

theorem chg_loseMsg (s : State) (a b) : Chg [.regs, .cores, .launches, .parts, .dies, .links, .dbg, .log] s (State.loseMsg s a b) := by
  unfold State.loseMsg
  repeat' first
    | ((with_reducible apply subF_of); rfl)
    | (with_reducible apply Chg.refl)
    | (with_reducible assumption)
    | (with_reducible apply Chg.step (chg_countReg _ _ _))
    | (with_reducible apply Chg.step (chg_refuseMsg _ _ _ _))

theorem chg_reroute (s : State) (a b) : Chg [.regs, .cores, .launches, .parts, .dies, .links, .dbg, .log] s (State.reroute s a b) := by
  unfold State.reroute
  repeat' first
    | ((with_reducible apply subF_of); rfl)
    | (with_reducible apply Chg.refl)
    | (with_reducible assumption)
    | (with_reducible apply Chg.step (chg_noRoute _ _ _))
    | (with_reducible apply Chg.step (chg_queueMsg _ _ _))
    | (with_reducible apply Chg.step (chg_refuseMsg _ _ _ _))
    | (with_reducible (apply Chg.step (chg_inject ?e)); case e => assumption)
    | (with_reducible apply Chg.foldl)
    | (with_reducible apply Chg.orElse_getD)
    | (with_reducible apply Chg.getD)
    | (with_reducible apply Chg.foldl_snd)
    | intro _
    | split
    | dsimp only
    | ((with_reducible refine Chg.mk rfl ?_ rfl rfl rfl rfl ?_); · (intro x hx; cases x <;> first | rfl | exact ⟨rfl, rfl⟩ | exact absurd (by decide) hx))

theorem chg_setFabTime (s : State) (a) : Chg [.out, .regs, .host] s (State.setFabTime s a) := by
  unfold State.setFabTime
  repeat' first
    | ((with_reducible apply subF_of); rfl)
    | (with_reducible apply Chg.refl)
    | (with_reducible assumption)
    | (with_reducible apply Chg.step (chg_irq _ _ _))
    | (with_reducible apply Chg.step (chg_setReg _ _ _))
    | (with_reducible apply Chg.foldl)
    | (with_reducible apply Chg.orElse_getD)
    | (with_reducible apply Chg.getD)
    | (with_reducible apply Chg.foldl_snd)
    | intro _
    | split
    | dsimp only
    | ((with_reducible refine Chg.mk rfl ?_ rfl rfl rfl rfl ?_); · (intro x hx; cases x <;> first | rfl | exact ⟨rfl, rfl⟩ | exact absurd (by decide) hx))

theorem chg_retime (s : State) (a) : Chg [.gt, .out, .regs, .host, .boot] s (State.retime s a) := by
  unfold State.retime
  repeat' first
    | ((with_reducible apply subF_of); rfl)
    | (with_reducible apply Chg.refl)
    | (with_reducible assumption)
    | (with_reducible apply Chg.step (chg_setFabTime _ _))
    | (with_reducible apply Chg.step (chg_setFld _ _ _ _ _))
    | (with_reducible apply Chg.step (chg_setReg _ _ _))
    | (with_reducible apply Chg.foldl)
    | (with_reducible apply Chg.orElse_getD)
    | (with_reducible apply Chg.getD)
    | (with_reducible apply Chg.foldl_snd)
    | intro _
    | split
    | dsimp only
    | ((with_reducible refine Chg.mk rfl ?_ rfl rfl rfl rfl ?_); · (intro x hx; cases x <;> first | rfl | exact ⟨rfl, rfl⟩ | exact absurd (by decide) hx))

theorem chg_setLinkState (s : State) (a b) : Chg [.out, .regs, .links, .host, .log] s (State.setLinkState s a b) := by
  unfold State.setLinkState
  repeat' first
    | ((with_reducible apply subF_of); rfl)
    | (with_reducible apply Chg.refl)
    | (with_reducible assumption)
    | (with_reducible apply Chg.step (chg_irq _ _ _))
    | (with_reducible apply Chg.step (chg_logRaise _ _ _ _ _ _))
    | (with_reducible apply Chg.step (chg_modLink _ _ _))
    | (with_reducible apply Chg.step (chg_setBit _ _ _ _))
    | (with_reducible apply Chg.step (chg_setFld _ _ _ _ _))
    | (with_reducible apply Chg.foldl)
    | (with_reducible apply Chg.orElse_getD)
    | (with_reducible apply Chg.getD)
    | (with_reducible apply Chg.foldl_snd)
    | intro _
    | split
    | dsimp only
    | ((with_reducible refine Chg.mk rfl ?_ rfl rfl rfl rfl ?_); · (intro x hx; cases x <;> first | rfl | exact ⟨rfl, rfl⟩ | exact absurd (by decide) hx))

theorem chg_goDown (s : State) (a b) : Chg [.gt, .out, .regs, .cores, .launches, .parts, .dies, .links, .host, .boot, .dbg, .log] s (State.goDown s a b) := by
  unfold State.goDown
  repeat' first
    | ((with_reducible apply subF_of); rfl)
    | (with_reducible apply Chg.refl)
    | (with_reducible assumption)
    | (with_reducible apply Chg.step (chg_modLink _ _ _))
    | (with_reducible apply Chg.step (chg_notifyPeers _ _))
    | (with_reducible apply Chg.step (chg_post _ _ _))
    | (with_reducible apply Chg.step (chg_reroute _ _ _))
    | (with_reducible apply Chg.step (chg_retime _ _))
    | (with_reducible apply Chg.step (chg_setLinkState _ _ _))
    | (with_reducible apply Chg.foldl)
    | (with_reducible apply Chg.orElse_getD)
    | (with_reducible apply Chg.getD)
    | (with_reducible apply Chg.foldl_snd)
    | intro _
    | split
    | dsimp only
    | ((with_reducible refine Chg.mk rfl ?_ rfl rfl rfl rfl ?_); · (intro x hx; cases x <;> first | rfl | exact ⟨rfl, rfl⟩ | exact absurd (by decide) hx))

theorem chg_loseTunnel (s : State) (a b) : Chg [.regs, .cores, .launches, .parts, .dies, .links, .dbg, .log] s (State.loseTunnel s a b) := by
  unfold State.loseTunnel
  repeat' first
    | ((with_reducible apply subF_of); rfl)
    | (with_reducible apply Chg.refl)
    | (with_reducible assumption)
    | (with_reducible apply Chg.step (chg_loseMsg _ _ _))
    | (with_reducible apply Chg.step (chg_modLink _ _ _))
    | (with_reducible apply Chg.foldl)
    | (with_reducible apply Chg.orElse_getD)
    | (with_reducible apply Chg.getD)
    | (with_reducible apply Chg.foldl_snd)
    | intro _
    | split
    | dsimp only
    | ((with_reducible refine Chg.mk rfl ?_ rfl rfl rfl rfl ?_); · (intro x hx; cases x <;> first | rfl | exact ⟨rfl, rfl⟩ | exact absurd (by decide) hx))

theorem chg_loseTunnels (s : State) (a) : Chg [.regs, .cores, .launches, .parts, .dies, .links, .dbg, .log] s (State.loseTunnels s a) := by
  unfold State.loseTunnels
  repeat' first
    | ((with_reducible apply subF_of); rfl)
    | (with_reducible apply Chg.refl)
    | (with_reducible assumption)
    | (with_reducible apply Chg.step (chg_loseTunnel _ _ _))
    | (with_reducible apply Chg.foldl)
    | (with_reducible apply Chg.orElse_getD)
    | (with_reducible apply Chg.getD)
    | (with_reducible apply Chg.foldl_snd)
    | intro _

theorem chg_takeDown (s : State) (a b) : Chg [.gt, .out, .regs, .cores, .launches, .parts, .dies, .links, .host, .boot, .dbg, .log] s (State.takeDown s a b) := by
  unfold State.takeDown
  repeat' first
    | ((with_reducible apply subF_of); rfl)
    | (with_reducible apply Chg.refl)
    | (with_reducible assumption)
    | (with_reducible apply Chg.step (chg_goDown _ _ _))
    | (with_reducible apply Chg.step (chg_loseTunnels _ _))
    | (with_reducible apply Chg.step (chg_setLinkState _ _ _))
    | (with_reducible apply Chg.foldl)
    | (with_reducible apply Chg.orElse_getD)
    | (with_reducible apply Chg.getD)
    | (with_reducible apply Chg.foldl_snd)
    | intro _
    | split

theorem chg_toLight (s : State) (a) : Chg [.out, .regs, .links, .host, .log] s (State.toLight s a) := by
  unfold State.toLight
  repeat' first
    | ((with_reducible apply subF_of); rfl)
    | (with_reducible apply Chg.refl)
    | (with_reducible assumption)
    | (with_reducible apply Chg.step (chg_setLinkState _ _ _))

theorem chg_retrain (s : State) (a) : Chg [.gt, .out, .regs, .cores, .launches, .parts, .dies, .links, .host, .boot, .dbg, .log] s (State.retrain s a) := by
  unfold State.retrain
  repeat' first
    | ((with_reducible apply subF_of); rfl)
    | (with_reducible apply Chg.refl)
    | (with_reducible assumption)
    | (with_reducible apply Chg.step (chg_takeDown _ _ _))
    | (with_reducible apply Chg.foldl)
    | (with_reducible apply Chg.orElse_getD)
    | (with_reducible apply Chg.getD)
    | (with_reducible apply Chg.foldl_snd)
    | intro _
    | split

theorem chg_comeUp (s : State) (a b) : Chg [.out, .regs, .links, .host, .log] s (State.comeUp s a b) := by
  unfold State.comeUp
  repeat' first
    | ((with_reducible apply subF_of); rfl)
    | (with_reducible apply Chg.refl)
    | (with_reducible assumption)
    | (with_reducible apply Chg.step (chg_modLink _ _ _))
    | (with_reducible apply Chg.step (chg_notifyPeers _ _))
    | (with_reducible apply Chg.step (chg_setFld _ _ _ _ _))
    | (with_reducible apply Chg.step (chg_setLinkState _ _ _))

theorem chg_setTunnel (s : State) (a b c) : Chg [.links] s (State.setTunnel s a b c) := by
  unfold State.setTunnel
  repeat' first
    | ((with_reducible apply subF_of); rfl)
    | (with_reducible apply Chg.refl)
    | (with_reducible assumption)
    | (with_reducible apply Chg.step (chg_modLink _ _ _))

theorem chg_sendFrame (s : State) (a b c d) : Chg [.out, .links] s (State.sendFrame s a b c d) := by
  unfold State.sendFrame
  repeat' first
    | ((with_reducible apply subF_of); rfl)
    | (with_reducible apply Chg.refl)
    | (with_reducible assumption)
    | (with_reducible apply Chg.step (chg_emit _ _))
    | (with_reducible apply Chg.step (chg_setTunnel _ _ _ _))

theorem chg_startTunnel (s : State) (a b) : Chg [.out, .links] s (State.startTunnel s a b) := by
  unfold State.startTunnel
  repeat' first
    | ((with_reducible apply subF_of); rfl)
    | (with_reducible apply Chg.refl)
    | (with_reducible assumption)
    | (with_reducible apply Chg.step (chg_sendFrame _ _ _ _ _))
    | (with_reducible apply Chg.step (chg_setTunnel _ _ _ _))
    | (with_reducible apply Chg.foldl)
    | (with_reducible apply Chg.orElse_getD)
    | (with_reducible apply Chg.getD)
    | (with_reducible apply Chg.foldl_snd)
    | intro _
    | split
    | dsimp only
    | ((with_reducible refine Chg.mk rfl ?_ rfl rfl rfl rfl ?_); · (intro x hx; cases x <;> first | rfl | exact ⟨rfl, rfl⟩ | exact absurd (by decide) hx))

theorem chg_startTunnels (s : State) (a) : Chg [.out, .links] s (State.startTunnels s a) := by
  unfold State.startTunnels
  repeat' first
    | ((with_reducible apply subF_of); rfl)
    | (with_reducible apply Chg.refl)
    | (with_reducible assumption)
    | (with_reducible apply Chg.step (chg_startTunnel _ _ _))
    | (with_reducible apply Chg.foldl)
    | (with_reducible apply Chg.orElse_getD)
    | (with_reducible apply Chg.getD)
    | (with_reducible apply Chg.foldl_snd)
    | intro _
    | split
    | dsimp only
    | ((with_reducible refine Chg.mk rfl ?_ rfl rfl rfl rfl ?_); · (intro x hx; cases x <;> first | rfl | exact ⟨rfl, rfl⟩ | exact absurd (by decide) hx))

theorem chg_addTry (s : State) (a) : Chg [.regs] s (State.addTry s a) := by
  unfold State.addTry
  repeat' first
    | ((with_reducible apply subF_of); rfl)
    | (with_reducible apply Chg.refl)
    | (with_reducible assumption)
    | (with_reducible apply Chg.step (chg_setFld _ _ _ _ _))
    | (with_reducible apply Chg.foldl)
    | (with_reducible apply Chg.orElse_getD)
    | (with_reducible apply Chg.getD)
    | (with_reducible apply Chg.foldl_snd)
    | intro _
    | split
    | dsimp only
    | ((with_reducible refine Chg.mk rfl ?_ rfl rfl rfl rfl ?_); · (intro x hx; cases x <;> first | rfl | exact ⟨rfl, rfl⟩ | exact absurd (by decide) hx))

theorem chg_failAttempt (s : State) (a) : Chg [.out, .regs, .links, .host, .log] s (State.failAttempt s a) := by
  unfold State.failAttempt
  repeat' first
    | ((with_reducible apply subF_of); rfl)
    | (with_reducible apply Chg.refl)
    | (with_reducible assumption)
    | (with_reducible apply Chg.step (chg_addTry _ _))
    | (with_reducible apply Chg.step (chg_modLink _ _ _))
    | (with_reducible apply Chg.step (chg_setLinkState _ _ _))
    | (with_reducible apply Chg.step (chg_toLight _ _))
    | (with_reducible apply Chg.foldl)
    | (with_reducible apply Chg.orElse_getD)
    | (with_reducible apply Chg.getD)
    | (with_reducible apply Chg.foldl_snd)
    | intro _
    | split
    | dsimp only
    | ((with_reducible refine Chg.mk rfl ?_ rfl rfl rfl rfl ?_); · (intro x hx; cases x <;> first | rfl | exact ⟨rfl, rfl⟩ | exact absurd (by decide) hx))

theorem chg_sendFlit (s : State) (a) : Chg [.out, .links] s (State.sendFlit s a) := by
  unfold State.sendFlit
  repeat' first
    | ((with_reducible apply subF_of); rfl)
    | (with_reducible apply Chg.refl)
    | (with_reducible assumption)
    | (with_reducible apply Chg.step (chg_emit _ _))
    | (with_reducible apply Chg.step (chg_setLink _ _ _))
    | (with_reducible apply Chg.foldl)
    | (with_reducible apply Chg.orElse_getD)
    | (with_reducible apply Chg.getD)
    | (with_reducible apply Chg.foldl_snd)
    | intro _
    | split
    | dsimp only

theorem chg_followParent (s : State) (a) : Chg [.out, .regs, .host] s (State.followParent s a) := by
  unfold State.followParent
  repeat' first
    | ((with_reducible apply subF_of); rfl)
    | (with_reducible apply Chg.refl)
    | (with_reducible assumption)
    | (with_reducible apply Chg.step (chg_setFabTime _ _))
    | (with_reducible apply Chg.step (chg_setReg _ _ _))
    | (with_reducible apply Chg.foldl)
    | (with_reducible apply Chg.orElse_getD)
    | (with_reducible apply Chg.getD)
    | (with_reducible apply Chg.foldl_snd)
    | intro _
    | split
    | dsimp only
    | ((with_reducible refine Chg.mk rfl ?_ rfl rfl rfl rfl ?_); · (intro x hx; cases x <;> first | rfl | exact ⟨rfl, rfl⟩ | exact absurd (by decide) hx))

theorem chg_timeSync (s : State) (a b) : Chg [.out, .regs, .links, .host] s (State.timeSync s a b) := by
  unfold State.timeSync
  repeat' first
    | ((with_reducible apply subF_of); rfl)
    | (with_reducible apply Chg.refl)
    | (with_reducible assumption)
    | (with_reducible apply Chg.step (chg_followParent _ _))
    | (with_reducible apply Chg.step (chg_modLink _ _ _))
    | (with_reducible apply Chg.step (chg_setReg _ _ _))
    | (with_reducible apply Chg.step (chg_setReg64 _ _ _))
    | (with_reducible apply Chg.foldl)
    | (with_reducible apply Chg.orElse_getD)
    | (with_reducible apply Chg.getD)
    | (with_reducible apply Chg.foldl_snd)
    | intro _
    | split
    | dsimp only
    | ((with_reducible refine Chg.mk rfl ?_ rfl rfl rfl rfl ?_); · (intro x hx; cases x <;> first | rfl | exact ⟨rfl, rfl⟩ | exact absurd (by decide) hx))

theorem chg_deliver (s : State) (a b) : Chg [.regs, .links] s (State.deliver s a b) := by
  unfold State.deliver
  repeat' first
    | ((with_reducible apply subF_of); rfl)
    | (with_reducible apply Chg.refl)
    | (with_reducible assumption)
    | (with_reducible apply Chg.step (chg_countReg _ _ _))
    | (with_reducible apply Chg.step (chg_modLink _ _ _))
    | (with_reducible apply Chg.foldl)
    | (with_reducible apply Chg.orElse_getD)
    | (with_reducible apply Chg.getD)
    | (with_reducible apply Chg.foldl_snd)
    | intro _
    | split

theorem chg_discardFlit (s : State) (a) : Chg [.regs, .links] s (State.discardFlit s a) := by
  unfold State.discardFlit
  repeat' first
    | ((with_reducible apply subF_of); rfl)
    | (with_reducible apply Chg.refl)
    | (with_reducible assumption)
    | (with_reducible apply Chg.step (chg_countReg _ _ _))
    | (with_reducible apply Chg.step (chg_modLink _ _ _))

theorem chg_receiveFlit (s : State) (a b) : Chg [.out, .regs, .links, .host] s (State.receiveFlit s a b) := by
  unfold State.receiveFlit
  repeat' first
    | ((with_reducible apply subF_of); rfl)
    | (with_reducible apply Chg.refl)
    | (with_reducible assumption)
    | (with_reducible apply Chg.step (chg_countReg _ _ _))
    | (with_reducible apply Chg.step (chg_deliver _ _ _))
    | (with_reducible apply Chg.step (chg_discardFlit _ _))
    | (with_reducible apply Chg.step (chg_modLink _ _ _))
    | (with_reducible apply Chg.step (chg_timeSync _ _ _))
    | (with_reducible apply Chg.foldl)
    | (with_reducible apply Chg.orElse_getD)
    | (with_reducible apply Chg.getD)
    | (with_reducible apply Chg.foldl_snd)
    | intro _
    | split
    | dsimp only

theorem chg_noteSent (s : State) (a b) : Chg [.regs, .dies, .links, .dbg] s (State.noteSent s a b) := by
  unfold State.noteSent
  repeat' first
    | ((with_reducible apply subF_of); rfl)
    | (with_reducible apply Chg.refl)
    | (with_reducible assumption)
    | (with_reducible apply Chg.step (chg_modDie _ _ _))
    | (with_reducible apply Chg.step (chg_modLink _ _ _))
    | (with_reducible apply Chg.step (chg_traceLaunch _ _ _ _ _))
    | (with_reducible apply Chg.foldl)
    | (with_reducible apply Chg.orElse_getD)
    | (with_reducible apply Chg.getD)
    | (with_reducible apply Chg.foldl_snd)
    | intro _
    | split
    | dsimp only
    | ((with_reducible refine Chg.mk rfl ?_ rfl rfl rfl rfl ?_); · (intro x hx; cases x <;> first | rfl | exact ⟨rfl, rfl⟩ | exact absurd (by decide) hx))

theorem chg_transmit (s : State) (a) : Chg [.out, .regs, .cores, .launches, .parts, .dies, .links, .dbg, .log] s (State.transmit s a) := by
  unfold State.transmit
  repeat' first
    | ((with_reducible apply subF_of); rfl)
    | (with_reducible apply Chg.refl)
    | (with_reducible assumption)
    | (with_reducible apply Chg.step (chg_noRoute _ _ _))
    | (with_reducible apply Chg.step (chg_noteSent _ _ _))
    | (with_reducible apply Chg.step (chg_sendFrame _ _ _ _ _))
    | (with_reducible apply Chg.step (chg_setLink _ _ _))
    | (with_reducible apply Chg.step (chg_setTunnel _ _ _ _))
    | (with_reducible apply Chg.foldl)
    | (with_reducible apply Chg.orElse_getD)
    | (with_reducible apply Chg.getD)
    | (with_reducible apply Chg.foldl_snd)
    | intro _
    | split
    | dsimp only

theorem chg_receiveFrame (s : State) (a b c) : Chg [.out, .regs, .links] s (State.receiveFrame s a b c) := by
  unfold State.receiveFrame
  repeat' first
    | ((with_reducible apply subF_of); rfl)
    | (with_reducible apply Chg.refl)
    | (with_reducible assumption)
    | (with_reducible apply Chg.step (chg_countReg _ _ _))
    | (with_reducible apply Chg.step (chg_emit _ _))
    | (with_reducible apply Chg.step (chg_setTunnel _ _ _ _))
    | (with_reducible apply Chg.foldl)
    | (with_reducible apply Chg.orElse_getD)
    | (with_reducible apply Chg.getD)
    | (with_reducible apply Chg.foldl_snd)
    | intro _
    | split
    | dsimp only
    | ((with_reducible refine Chg.mk rfl ?_ rfl rfl rfl rfl ?_); · (intro x hx; cases x <;> first | rfl | exact ⟨rfl, rfl⟩ | exact absurd (by decide) hx))

theorem chg_dimWave (s : State) (a b) : Chg [.free, .regs] s (State.dimWave s a b) := by
  unfold State.dimWave
  repeat' first
    | ((with_reducible apply subF_of); rfl)
    | (with_reducible apply Chg.refl)
    | (with_reducible assumption)
    | (with_reducible apply Chg.step (chg_freeNat _))
    | (with_reducible (apply Chg.step (Chg.snd (chg_freeNat _) ?e)); case e => assumption)
    | (with_reducible apply Chg.step (chg_setBit _ _ _ _))
    | (with_reducible apply Chg.foldl)
    | (with_reducible apply Chg.orElse_getD)
    | (with_reducible apply Chg.getD)
    | (with_reducible apply Chg.foldl_snd)
    | intro _
    | split
    | dsimp only
    | ((with_reducible refine Chg.mk rfl ?_ rfl rfl rfl rfl ?_); · (intro x hx; cases x <;> first | rfl | exact ⟨rfl, rfl⟩ | exact absurd (by decide) hx))

theorem chg_agreeWidth (s : State) (a) : Chg [.free, .regs] s (State.agreeWidth s a) := by
  unfold State.agreeWidth
  repeat' first
    | ((with_reducible apply subF_of); rfl)
    | (with_reducible apply Chg.refl)
    | (with_reducible assumption)
    | (with_reducible apply Chg.step (chg_freeNat _))
    | (with_reducible (apply Chg.step (Chg.snd (chg_freeNat _) ?e)); case e => assumption)
    | (with_reducible apply Chg.step (chg_setBit _ _ _ _))
    | (with_reducible apply Chg.foldl)
    | (with_reducible apply Chg.orElse_getD)
    | (with_reducible apply Chg.getD)
    | (with_reducible apply Chg.foldl_snd)
    | intro _
    | split
    | dsimp only
    | ((with_reducible refine Chg.mk rfl ?_ rfl rfl rfl rfl ?_); · (intro x hx; cases x <;> first | rfl | exact ⟨rfl, rfl⟩ | exact absurd (by decide) hx))

end Sys2Proof.Machine
end

