-- ==== Sys2Proof/Laws/ChgCollective.lean ====
section
/-! SUPPORT. What each operation of Machine/Collective.lean may change. -/

namespace Sys2Proof.Machine

theorem chg_openRound (s : State) (a b) : Chg [.free, .mem, .poison, .cores, .launches, .parts, .dies, .chans] s (State.openRound s a b) := by
  unfold State.openRound
  repeat' first
    | ((with_reducible apply subF_of); rfl)
    | (with_reducible apply Chg.refl)
    | (with_reducible assumption)
    | (with_reducible apply Chg.step (chg_eventMax _ _ _ _))
    | (with_reducible apply Chg.step (chg_eventWord _ _ _ _))
    | (with_reducible (apply Chg.step (Chg.snd (chg_eventWord _ _ _ _) ?e)); case e => assumption)
    | (with_reducible apply Chg.step (chg_setColl _ _ _ _))
    | (with_reducible apply Chg.foldl)
    | (with_reducible apply Chg.orElse_getD)
    | (with_reducible apply Chg.getD)
    | (with_reducible apply Chg.foldl_snd)
    | intro _
    | split

theorem chg_closeRound (s : State) (a b) : Chg [.free, .out, .regs, .mem, .poison, .cores, .launches, .parts, .dies, .chans, .links, .dbg] s (State.closeRound s a b) := by
  unfold State.closeRound
  repeat' first
    | ((with_reducible apply subF_of); rfl)
    | (with_reducible apply Chg.refl)
    | (with_reducible assumption)
    | (with_reducible apply Chg.step (chg_openRound _ _ _))
    | (with_reducible apply Chg.step (chg_sendOuts _ _ _))
    | (with_reducible apply Chg.step (chg_setColl _ _ _ _))
    | (with_reducible apply Chg.step (chg_storeBytes _ _ _ _ _))
    | (with_reducible (apply Chg.step (Chg.snd (chg_storeBytes _ _ _ _ _) ?e)); case e => assumption)
    | (with_reducible apply Chg.step (chg_trace _ _ _ _ _ _))
    | (with_reducible apply Chg.foldl)
    | (with_reducible apply Chg.orElse_getD)
    | (with_reducible apply Chg.getD)
    | (with_reducible apply Chg.foldl_snd)
    | intro _
    | split
    | dsimp only

theorem chg_outAcked (s : State) (a) : Chg [.free, .mem, .poison, .cores, .launches, .parts, .dies, .chans] s (State.outAcked s a) := by
  unfold State.outAcked
  repeat' first
    | ((with_reducible apply subF_of); rfl)
    | (with_reducible apply Chg.refl)
    | (with_reducible assumption)
    | (with_reducible apply Chg.step (chg_openRound _ _ _))
    | (with_reducible apply Chg.step (chg_setColl _ _ _ _))
    | (with_reducible apply Chg.foldl)
    | (with_reducible apply Chg.orElse_getD)
    | (with_reducible apply Chg.getD)
    | (with_reducible apply Chg.foldl_snd)
    | intro _
    | split

theorem chg_unlinkOuts (s : State) (a b) : Chg [.dies] s (State.unlinkOuts s a b) := by
  unfold State.unlinkOuts
  repeat' first
    | ((with_reducible apply subF_of); rfl)
    | (with_reducible apply Chg.refl)
    | (with_reducible assumption)
    | (with_reducible apply Chg.foldl)
    | (with_reducible apply Chg.orElse_getD)
    | (with_reducible apply Chg.getD)
    | (with_reducible apply Chg.foldl_snd)
    | intro _
    | split
    | dsimp only
    | ((with_reducible refine Chg.mk rfl ?_ rfl rfl rfl rfl ?_); · (intro x hx; cases x <;> first | rfl | exact ⟨rfl, rfl⟩ | exact absurd (by decide) hx))

theorem chg_armColl (s : State) (a b c) : Chg [.free, .out, .regs, .parts, .dies, .host] s (State.armColl s a b c) := by
  have aux : ∀ (F : Except TFail (List Byte) × State) (va : Nat), Chg [.free, .out, .regs, .parts, .dies, .host] s F.2 → Chg [.free, .out, .regs, .parts, .dies, .host] s
      (let result (t : State) (r : Nat) : State := (t.setFld (vfKey a vfCstat) 8 8 r).irq a 57
      if s.reg64 (vfKey a vfCbase) % 64 ≠ 0 then result s 1
      else match F with
        | (.error _, t) => result t 1
        | (.ok d, t) =>
          if collDescOk d then
            let c_1 := collOf d va
            let u := t.collUsed (t.leadDie b) b c
            if (t.die (t.leadDie b)).collRetired ∨ 1024 ≤ u.1 ∨ 524288 < u.2 + c_1.nelem then result t 3
            else result ((t.unlinkOuts b c).setColl b c c_1) 0
          else result t 2) := by
    intro F va h
    have r : ∀ {t : State} (n : Nat), Chg [.free, .out, .regs, .parts, .dies, .host] s t → Chg [.free, .out, .regs, .parts, .dies, .host] s ((t.setFld (vfKey a vfCstat) 8 8 n).irq a 57) := fun n k =>
      Chg.step (chg_irq _ _ _) (subF_of rfl) (Chg.step (chg_setFld _ _ _ _ _) (subF_of rfl) k)
    extract_lets result
    split
    · exact r 1 (Chg.refl _ _)
    · split
      · exact r 1 h
      · split
        · dsimp only
          split
          · exact r 3 h
          · exact r 0 (Chg.step (chg_setColl _ _ _ _) (subF_of rfl) (Chg.step (chg_unlinkOuts _ _ _) (subF_of rfl) h))
        · exact r 2 h
  exact aux (s.fetchBytes b (s.reg64 (vfKey a vfCbase) + 64 * c) 64) (s.reg64 (vfKey a vfCbase) + 64 * c)
    ((chg_fetchBytes _ _ _ _ _).mono (subF_of rfl))

theorem chg_disarmColl (s : State) (a b c) : Chg [.out, .regs, .parts, .dies, .host] s (State.disarmColl s a b c) := by
  unfold State.disarmColl
  repeat' first
    | ((with_reducible apply subF_of); rfl)
    | (with_reducible apply Chg.refl)
    | (with_reducible assumption)
    | (with_reducible apply Chg.step (chg_irq _ _ _))
    | (with_reducible apply Chg.step (chg_modPart _ _ _))
    | (with_reducible apply Chg.step (chg_setFld _ _ _ _ _))
    | (with_reducible apply Chg.step (chg_unlinkOuts _ _ _))

end Sys2Proof.Machine
end

