-- ==== Sys2Proof/Laws/ChgMessages.lean ====
section
/-! SUPPORT. What each operation of Machine/Messages.lean may change. -/

namespace Sys2Proof.Machine

theorem chg_takeMsg {s : State} {a b} {v : State} (h : State.takeMsg s a b = some v) : Chg [.dies, .links] s v := by
  unfold State.takeMsg at h
  repeat' first
    | ((with_reducible apply subF_of); rfl)
    | contradiction
    | (injection h with h; subst h)
    | (split at h)
    | (dsimp only at h)
    | (with_reducible apply Chg.refl)
    | (with_reducible assumption)
    | (with_reducible apply Chg.step (chg_modDie _ _ _))
    | (with_reducible apply Chg.step (chg_modLink _ _ _))
    | (with_reducible apply Chg.step (chg_setTunnel _ _ _ _))
    | (with_reducible apply Chg.foldl)
    | (with_reducible apply Chg.orElse_getD)
    | (with_reducible apply Chg.getD)
    | (with_reducible apply Chg.foldl_snd)
    | intro _
    | split
    | dsimp only
    | ((with_reducible refine Chg.mk rfl ?_ rfl rfl rfl rfl ?_); · (intro x hx; cases x <;> first | rfl | exact ⟨rfl, rfl⟩ | exact absurd (by decide) hx))

theorem chg_forward {L : List Fld} {s t : State} (n m) (hs : subF [.regs, .cores, .launches, .parts, .dies, .links, .dbg, .log] L) (h : Chg L s t) : Chg L s (State.forward s t n m) := by
  have hn : Chg L s (t.noRoute n m) := Chg.step (chg_noRoute _ _ _) (subF.trans (subF_of rfl) hs) h
  unfold State.forward
  dsimp only
  split
  · split
    · split
      · next k => exact Chg.step (chg_replicate k) (subF.trans (subF_of rfl) hs) h
      · exact Chg.ite (Chg.refl _ _) hn
    · exact hn
  · split
    · next k => exact Chg.step (chg_inject k) (subF.trans (subF_of rfl) hs) h
    · exact hn

theorem chg_onMsg {L : List Fld} {s : State} {n m y body} (hs : subF [.regs, .cores, .launches, .parts, .dies, .links, .dbg, .log] L) (hb0 : ∀ u, Chg L s u → Chg L s (body u)) : Chg L s (State.onMsg s n m y body) := by
  unfold State.onMsg
  split
  · split
    · exact Chg.refl _ _
    · next k =>
      have h : Chg L s _ := (chg_takeMsg k).mono (subF.trans (subF_of rfl) hs)
      exact Chg.ite (chg_forward _ _ (subF.trans (subF_of rfl) hs) h) (hb0 _ h)
  · exact Chg.refl _ _

theorem chg_reply (s : State) (a b c d e) : Chg [.regs, .cores, .launches, .dies, .links] s (State.reply s a b c d e) := by
  unfold State.reply
  repeat' first
    | ((with_reducible apply subF_of); rfl)
    | (with_reducible apply Chg.refl)
    | (with_reducible assumption)
    | (with_reducible apply Chg.step (chg_mcAnswer _ _ _ _ _))
    | (with_reducible apply Chg.step (chg_post _ _ _))
    | (with_reducible apply Chg.foldl)
    | (with_reducible apply Chg.orElse_getD)
    | (with_reducible apply Chg.getD)
    | (with_reducible apply Chg.foldl_snd)
    | intro _
    | split
    | dsimp only
    | ((with_reducible refine Chg.mk rfl ?_ rfl rfl rfl rfl ?_); · (intro x hx; cases x <;> first | rfl | exact ⟨rfl, rfl⟩ | exact absurd (by decide) hx))

theorem chg_orNack {L : List Fld} {s t : State} {d m k} (hs : subF [.regs, .cores, .launches, .dies, .links] L) (hb0 : ∀ u, Chg L s u → Chg L s (k u)) (h : Chg L s t) : Chg L s (State.orNack t d m k) := by
  unfold State.orNack
  repeat' first
    | ((with_reducible apply subF.trans (subF_of ?e) hs); case e => rfl)
    | (with_reducible apply Chg.refl)
    | (with_reducible assumption)
    | (with_reducible apply hb0)
    | (with_reducible apply Chg.step (chg_reply _ _ _ _ _ _))
    | (with_reducible apply Chg.foldl)
    | (with_reducible apply Chg.orElse_getD)
    | (with_reducible apply Chg.getD)
    | (with_reducible apply Chg.foldl_snd)
    | intro _
    | split

theorem chg_serveRd (s : State) (a b) : Chg [.free, .out, .regs, .cores, .launches, .parts, .dies, .chans, .links] s (State.serveRd s a b) := by
  unfold State.serveRd
  repeat' first
    | ((with_reducible apply subF_of); rfl)
    | (with_reducible apply Chg.refl)
    | (with_reducible assumption)
    | (with_reducible apply Chg.step (chg_l2Touch _ _ _ _ _ _ _))
    | (with_reducible apply Chg.step (chg_readAt _ _ _))
    | (with_reducible (apply Chg.step (Chg.snd (chg_readAt _ _ _) ?e)); case e => assumption)
    | (with_reducible apply Chg.step (chg_reply _ _ _ _ _ _))
    | (with_reducible apply Chg.step (chg_translSpan _ _ _ _ _ _))
    | (with_reducible (apply Chg.step (Chg.snd (chg_translSpan _ _ _ _ _ _) ?e)); case e => assumption)
    | (with_reducible apply chg_orNack)
    | (with_reducible apply Chg.foldl)
    | (with_reducible apply Chg.orElse_getD)
    | (with_reducible apply Chg.getD)
    | (with_reducible apply Chg.foldl_snd)
    | intro _
    | split
    | dsimp only

theorem chg_serveWr (s : State) (a b) : Chg [.free, .out, .regs, .mem, .poison, .cores, .launches, .parts, .dies, .chans, .links] s (State.serveWr s a b) := by
  unfold State.serveWr
  refine chg_orNack (subF_of rfl) (fun u hu => ?_) (Chg.refl _ _)
  have h : Chg [.free, .out, .regs, .mem, .poison, .cores, .launches, .parts, .dies, .chans, .links] s (u.translSpan b.part b.va b.data.length .write).2 := Chg.step (chg_translSpan _ _ _ _ _ _) (subF_of rfl) hu
  split
  · next k => exact Chg.step (chg_reply _ _ _ _ _ _) (subF_of rfl) (Chg.snd h k)
  · next ps t k =>
    have ht := Chg.snd h k
    extract_lets r sync v array
    have hr : Chg [.free, .out, .regs, .mem, .poison, .cores, .launches, .parts, .dies, .chans, .links] s r.2.2 :=
      foldl_keeps (fun (q : List Byte × Nat × State) => Chg [.free, .out, .regs, .mem, .poison, .cores, .launches, .parts, .dies, .chans, .links] s q.2.2) _ _ _ ht fun q e hq => Chg.step (chg_performWrite _ _ _) (subF_of rfl) hq
    have hv : Chg [.free, .out, .regs, .mem, .poison, .cores, .launches, .parts, .dies, .chans, .links] s v := Chg.step (chg_syncOut _ _ _) (subF_of rfl) hr
    clear_value v
    exact Chg.ite (Chg.step (chg_reply _ _ _ _ _ _) (subF_of rfl) hv) (Chg.step (chg_modDie _ _ _) (subF_of rfl) hv)

theorem chg_serveAtom (s : State) (a b) : Chg [.free, .out, .regs, .mem, .poison, .cores, .launches, .parts, .dies, .chans, .links] s (State.serveAtom s a b) := by
  unfold State.serveAtom
  repeat' first
    | ((with_reducible apply subF_of); rfl)
    | (with_reducible apply Chg.refl)
    | (with_reducible assumption)
    | (with_reducible apply Chg.step (chg_atomicAt _ _ _ _ _ _ _))
    | (with_reducible (apply Chg.step (Chg.snd (chg_atomicAt _ _ _ _ _ _ _) ?e)); case e => assumption)
    | (with_reducible apply Chg.step (chg_reply _ _ _ _ _ _))
    | (with_reducible apply Chg.step (chg_transl _ _ _ _ _))
    | (with_reducible (apply Chg.step (Chg.snd (chg_transl _ _ _ _ _) ?e)); case e => assumption)
    | (with_reducible apply chg_orNack)
    | (with_reducible apply Chg.foldl)
    | (with_reducible apply Chg.orElse_getD)
    | (with_reducible apply Chg.getD)
    | (with_reducible apply Chg.foldl_snd)
    | intro _
    | split
    | dsimp only

theorem chg_giveData (s : State) (a b c) : Chg [.cores, .launches] s (State.giveData s a b c) := by
  unfold State.giveData
  repeat' first
    | ((with_reducible apply subF_of); rfl)
    | (with_reducible apply Chg.refl)
    | (with_reducible assumption)
    | (with_reducible apply Chg.step (chg_copyAnswered _ _ _ _))
    | (with_reducible apply Chg.step (chg_modCore _ _ _))
    | (with_reducible apply Chg.foldl)
    | (with_reducible apply Chg.orElse_getD)
    | (with_reducible apply Chg.getD)
    | (with_reducible apply Chg.foldl_snd)
    | intro _
    | split

theorem chg_onData (s : State) (a) : Chg [.regs, .cores, .launches, .parts, .dies, .links, .dbg] s (State.onData s a) := by
  unfold State.onData
  repeat' first
    | ((with_reducible apply subF_of); rfl)
    | (with_reducible apply Chg.refl)
    | (with_reducible assumption)
    | (with_reducible apply Chg.step (chg_closeReq _ _ _ _))
    | (with_reducible apply Chg.step (chg_giveData _ _ _ _))
    | (with_reducible apply Chg.foldl)
    | (with_reducible apply Chg.orElse_getD)
    | (with_reducible apply Chg.getD)
    | (with_reducible apply Chg.foldl_snd)
    | intro _
    | split
    | dsimp only
    | ((with_reducible refine Chg.mk rfl ?_ rfl rfl rfl rfl ?_); · (intro x hx; cases x <;> first | rfl | exact ⟨rfl, rfl⟩ | exact absurd (by decide) hx))

theorem chg_ackReq (s : State) (a b) : Chg [.free, .regs, .mem, .poison, .cores, .launches, .parts, .dies, .chans, .links] s (State.ackReq s a b) := by
  unfold State.ackReq
  repeat' first
    | ((with_reducible apply subF_of); rfl)
    | (with_reducible apply Chg.refl)
    | (with_reducible assumption)
    | (with_reducible apply Chg.step (chg_copyAnswered _ _ _ _))
    | (with_reducible apply Chg.step (chg_findFail _ _ _))
    | (with_reducible apply Chg.step (chg_markCq _ _ _ _))
    | (with_reducible apply Chg.step (chg_outAcked _ _))
    | (with_reducible apply Chg.step (chg_refuseLanes _ _ _))
    | (with_reducible apply Chg.foldl)
    | (with_reducible apply Chg.orElse_getD)
    | (with_reducible apply Chg.getD)
    | (with_reducible apply Chg.foldl_snd)
    | intro _
    | split
    | dsimp only
    | ((with_reducible refine Chg.mk rfl ?_ rfl rfl rfl rfl ?_); · (intro x hx; cases x <;> first | rfl | exact ⟨rfl, rfl⟩ | exact absurd (by decide) hx))

theorem chg_onAck (s : State) (a b) : Chg [.free, .regs, .mem, .poison, .cores, .launches, .parts, .dies, .chans, .links, .dbg] s (State.onAck s a b) := by
  unfold State.onAck
  repeat' first
    | ((with_reducible apply subF_of); rfl)
    | (with_reducible apply Chg.refl)
    | (with_reducible assumption)
    | (with_reducible apply Chg.step (chg_ackReq _ _ _))
    | (with_reducible apply Chg.step (chg_closeReq _ _ _ _))
    | (with_reducible apply Chg.step (chg_flushAll _))
    | (with_reducible apply Chg.step (chg_mcAnswer _ _ _ _ _))
    | (with_reducible apply Chg.foldl)
    | (with_reducible apply Chg.orElse_getD)
    | (with_reducible apply Chg.getD)
    | (with_reducible apply Chg.foldl_snd)
    | intro _
    | split
    | dsimp only
    | ((with_reducible refine Chg.mk rfl ?_ rfl rfl rfl rfl ?_); · (intro x hx; cases x <;> first | rfl | exact ⟨rfl, rfl⟩ | exact absurd (by decide) hx))

theorem chg_onAnswer {L : List Fld} {s : State} {n m y body} (hs : subF [.regs, .cores, .launches, .parts, .dies, .links, .dbg, .log] L) (hb0 : ∀ u, Chg L s u → Chg L s (body u)) : Chg L s (State.onAnswer s n m y body) := by
  unfold State.onAnswer
  split
  · split
    · next k => exact hb0 _ ((chg_takeMsg k).mono (subF.trans (subF_of rfl) hs))
    · exact Chg.refl _ _
  · exact chg_onMsg (subF.trans (subF_of rfl) hs) hb0

theorem chg_onNack (s : State) (a b) : Chg [.regs, .cores, .launches, .parts, .dies, .links, .dbg, .log] s (State.onNack s a b) := by
  unfold State.onNack
  repeat' first
    | ((with_reducible apply subF_of); rfl)
    | (with_reducible apply Chg.refl)
    | (with_reducible assumption)
    | (with_reducible apply Chg.step (chg_closeReq _ _ _ _))
    | (with_reducible apply Chg.step (chg_flushAll _))
    | (with_reducible apply Chg.step (chg_mcAnswer _ _ _ _ _))
    | (with_reducible apply Chg.step (chg_refuseReq _ _))
    | (with_reducible apply Chg.foldl)
    | (with_reducible apply Chg.orElse_getD)
    | (with_reducible apply Chg.getD)
    | (with_reducible apply Chg.foldl_snd)
    | intro _
    | split
    | dsimp only
    | ((with_reducible refine Chg.mk rfl ?_ rfl rfl rfl rfl ?_); · (intro x hx; cases x <;> first | rfl | exact ⟨rfl, rfl⟩ | exact absurd (by decide) hx))

theorem chg_answerQuery (s : State) (a b) : Chg [.dies, .links] s (State.answerQuery s a b) := by
  unfold State.answerQuery
  repeat' first
    | ((with_reducible apply subF_of); rfl)
    | (with_reducible apply Chg.refl)
    | (with_reducible assumption)
    | (with_reducible apply Chg.step (chg_post _ _ _))
    | (with_reducible apply Chg.foldl)
    | (with_reducible apply Chg.orElse_getD)
    | (with_reducible apply Chg.getD)
    | (with_reducible apply Chg.foldl_snd)
    | intro _
    | split
    | dsimp only
    | ((with_reducible refine Chg.mk rfl ?_ rfl rfl rfl rfl ?_); · (intro x hx; cases x <;> first | rfl | exact ⟨rfl, rfl⟩ | exact absurd (by decide) hx))

theorem chg_useAnswer (s : State) (a) : Chg [.regs, .cores, .launches, .parts, .dies, .links, .dbg, .log] s (State.useAnswer s a) := by
  unfold State.useAnswer
  repeat' first
    | ((with_reducible apply subF_of); rfl)
    | (with_reducible apply Chg.refl)
    | (with_reducible assumption)
    | (with_reducible apply Chg.step (chg_modLink _ _ _))
    | (with_reducible apply Chg.step (chg_reroute _ _ _))
    | (with_reducible apply Chg.foldl)
    | (with_reducible apply Chg.orElse_getD)
    | (with_reducible apply Chg.getD)
    | (with_reducible apply Chg.foldl_snd)
    | intro _
    | split
    | dsimp only
    | ((with_reducible refine Chg.mk rfl ?_ rfl rfl rfl rfl ?_); · (intro x hx; cases x <;> first | rfl | exact ⟨rfl, rfl⟩ | exact absurd (by decide) hx))

theorem chg_agreeKeys (s : State) (a b) : Chg [.links] s (State.agreeKeys s a b) := by
  unfold State.agreeKeys
  repeat' first
    | ((with_reducible apply subF_of); rfl)
    | (with_reducible apply Chg.refl)
    | (with_reducible assumption)
    | (with_reducible apply Chg.step (chg_setTunnel _ _ _ _))
    | (with_reducible apply Chg.foldl)
    | (with_reducible apply Chg.orElse_getD)
    | (with_reducible apply Chg.getD)
    | (with_reducible apply Chg.foldl_snd)
    | intro _
    | split
    | dsimp only
    | ((with_reducible refine Chg.mk rfl ?_ rfl rfl rfl rfl ?_); · (intro x hx; cases x <;> first | rfl | exact ⟨rfl, rfl⟩ | exact absurd (by decide) hx))

theorem chg_payOwed (s : State) : Chg [.regs, .cores, .launches, .dies, .links] s (State.payOwed s) := by
  unfold State.payOwed
  repeat' first
    | ((with_reducible apply subF_of); rfl)
    | (with_reducible apply Chg.refl)
    | (with_reducible assumption)
    | (with_reducible apply Chg.step (chg_modDie _ _ _))
    | (with_reducible apply Chg.step (chg_reply _ _ _ _ _ _))
    | (with_reducible apply Chg.foldl)
    | (with_reducible apply Chg.orElse_getD)
    | (with_reducible apply Chg.getD)
    | (with_reducible apply Chg.foldl_snd)
    | intro _
    | split
    | dsimp only
    | ((with_reducible refine Chg.mk rfl ?_ rfl rfl rfl rfl ?_); · (intro x hx; cases x <;> first | rfl | exact ⟨rfl, rfl⟩ | exact absurd (by decide) hx))

theorem chg_onRequest {L : List Fld} {s : State} {n m y k a c body} (hs : subF [.free, .regs, .cores, .launches, .parts, .dies, .chans, .links, .dbg, .log] L)
    (hb : ∀ v u, Chg L v u → Chg L v (body u)) : Chg L s (State.onRequest s n m y k a c body) := by
  have hm : ∀ u : State, Chg L u (u.onMsg n m y body) := fun u => chg_onMsg (subF.trans (subF_of rfl) hs) (hb u)
  unfold State.onRequest
  repeat' split
  all_goals first
    | exact hm _
    | exact Chg.refl _ _
    | exact chg_withLines (subF.trans (subF_of rfl) hs) (fun u hu => hu.trans (hm u)) (Chg.refl _ _)

end Sys2Proof.Machine
end

