-- ==== Sys2Proof/Laws/ChgContrib.lean ====
section
/-! SUPPORT. What each operation of Machine/Contrib.lean may change. -/

namespace Sys2Proof.Machine

theorem chg_serveContrib (s : State) (a b) : Chg [.free, .out, .regs, .mem, .poison, .cores, .launches, .parts, .dies, .chans, .links, .dbg] s (State.serveContrib s a b) := by
  unfold State.serveContrib
  repeat' first
    | ((with_reducible apply subF_of); rfl)
    | (with_reducible apply Chg.refl)
    | (with_reducible assumption)
    | (with_reducible apply Chg.step (chg_closeRound _ _ _))
    | (with_reducible apply Chg.step (chg_reply _ _ _ _ _ _))
    | (with_reducible apply Chg.step (chg_setColl _ _ _ _))
    | (with_reducible apply chg_orNack)
    | (with_reducible apply Chg.foldl)
    | (with_reducible apply Chg.orElse_getD)
    | (with_reducible apply Chg.getD)
    | (with_reducible apply Chg.foldl_snd)
    | intro _
    | split
    | dsimp only

end Sys2Proof.Machine
end

