-- ==== Sys2Proof/Laws/ChgHost.lean ====
section
/-! SUPPORT. What each operation of Machine/Host.lean may change. -/

namespace Sys2Proof.Machine

theorem chg_refuseBar2 (s : State) (a b c) : Chg [.out, .regs] s (State.refuseBar2 s a b c) := by
  unfold State.refuseBar2
  repeat' first
    | ((with_reducible apply subF_of); rfl)
    | (with_reducible apply Chg.refl)
    | (with_reducible assumption)
    | (with_reducible apply Chg.step (chg_countReg _ _ _))
    | (with_reducible apply Chg.step (chg_emit _ _))
    | (with_reducible apply Chg.foldl)
    | (with_reducible apply Chg.orElse_getD)
    | (with_reducible apply Chg.getD)
    | (with_reducible apply Chg.foldl_snd)
    | intro _
    | split
    | dsimp only
    | ((with_reducible refine Chg.mk rfl ?_ rfl rfl rfl rfl ?_); · (intro x hx; cases x <;> first | rfl | exact ⟨rfl, rfl⟩ | exact absurd (by decide) hx))

theorem chg_bar2Write (s : State) (a b c d) : Chg [.free, .out, .regs, .mem, .poison, .cores, .launches, .parts, .dies, .chans] s (State.bar2Write s a b c d) := by
  unfold State.bar2Write
  have h : Chg [.free, .out, .regs, .mem, .poison, .cores, .launches, .parts, .dies, .chans] s (s.translSpan b c d.length .write).2 := (chg_translSpan _ _ _ _ _ _).mono (subF_of rfl)
  split
  · next k => exact Chg.step (chg_refuseBar2 _ _ _ _) (subF_of rfl) (Chg.snd h k)
  · next ps t k =>
    have ht := Chg.snd h k
    split
    · exact Chg.step (chg_refuseBar2 _ _ _ _) (subF_of rfl) ht
    · exact foldl_keeps (fun (q : List Byte × Nat × State) => Chg [.free, .out, .regs, .mem, .poison, .cores, .launches, .parts, .dies, .chans] s q.2.2) _ _ _ ht fun q e hq =>
        Chg.step (chg_performWrite _ _ _) (subF_of rfl) hq

theorem chg_bar2Read (s : State) (a b c d) : Chg [.free, .out, .regs, .parts, .dies, .chans] s (State.bar2Read s a b c d) := by
  unfold State.bar2Read
  repeat' first
    | ((with_reducible apply subF_of); rfl)
    | (with_reducible apply Chg.refl)
    | (with_reducible assumption)
    | (with_reducible apply Chg.step (chg_emit _ _))
    | (with_reducible apply Chg.step (chg_l2Touch _ _ _ _ _ _ _))
    | (with_reducible apply Chg.step (chg_readAt _ _ _))
    | (with_reducible (apply Chg.step (Chg.snd (chg_readAt _ _ _) ?e)); case e => assumption)
    | (with_reducible apply Chg.step (chg_refuseBar2 _ _ _ _))
    | (with_reducible apply Chg.step (chg_translSpan _ _ _ _ _ _))
    | (with_reducible (apply Chg.step (Chg.snd (chg_translSpan _ _ _ _ _ _) ?e)); case e => assumption)
    | (with_reducible apply Chg.foldl)
    | (with_reducible apply Chg.orElse_getD)
    | (with_reducible apply Chg.getD)
    | (with_reducible apply Chg.foldl_snd)
    | intro _
    | split
    | dsimp only
    | ((with_reducible refine Chg.mk rfl ?_ rfl rfl rfl rfl ?_); · (intro x hx; cases x <;> first | rfl | exact ⟨rfl, rfl⟩ | exact absurd (by decide) hx))

theorem chg_bar2 (s : State) (a b c d) : Chg [.free, .out, .regs, .mem, .poison, .cores, .launches, .parts, .dies, .chans, .host] s (State.bar2 s a b c d) := by
  unfold State.bar2
  repeat' first
    | ((with_reducible apply subF_of); rfl)
    | (with_reducible apply Chg.refl)
    | (with_reducible assumption)
    | (with_reducible apply Chg.step (chg_bar2Read _ _ _ _ _))
    | (with_reducible apply Chg.step (chg_bar2Write _ _ _ _ _))
    | (with_reducible apply Chg.step (chg_emit _ _))
    | (with_reducible apply Chg.step (chg_noTarget _ _ _))
    | (with_reducible apply Chg.step (chg_refuseBar2 _ _ _ _))
    | (with_reducible apply chg_atVf)
    | (with_reducible apply Chg.foldl)
    | (with_reducible apply Chg.orElse_getD)
    | (with_reducible apply Chg.getD)
    | (with_reducible apply Chg.foldl_snd)
    | intro _
    | split
    | dsimp only
    | ((with_reducible refine Chg.mk rfl ?_ rfl rfl rfl rfl ?_); · (intro x hx; cases x <;> first | rfl | exact ⟨rfl, rfl⟩ | exact absurd (by decide) hx))

theorem chg_pf0Bar2 (s : State) (a b c) : Chg [.out, .regs, .mem, .poison, .cores, .launches, .host, .log] s (State.pf0Bar2 s a b c) := by
  unfold State.pf0Bar2
  repeat' first
    | ((with_reducible apply subF_of); rfl)
    | (with_reducible apply Chg.refl)
    | (with_reducible assumption)
    | (with_reducible apply Chg.step (chg_emit _ _))
    | (with_reducible apply Chg.step (chg_logLocked _ _ _))
    | (with_reducible apply Chg.step (chg_noTarget _ _ _))
    | (with_reducible apply Chg.step (chg_writeMem _ _ _))
    | (with_reducible apply Chg.foldl)
    | (with_reducible apply Chg.orElse_getD)
    | (with_reducible apply Chg.getD)
    | (with_reducible apply Chg.foldl_snd)
    | intro _
    | split
    | dsimp only
    | ((with_reducible refine Chg.mk rfl ?_ rfl rfl rfl rfl ?_); · (intro x hx; cases x <;> first | rfl | exact ⟨rfl, rfl⟩ | exact absurd (by decide) hx))

theorem chg_unmask (s : State) (a b) : Chg [.out, .host] s (State.unmask s a b) := by
  unfold State.unmask
  repeat' first
    | ((with_reducible apply subF_of); rfl)
    | (with_reducible apply Chg.refl)
    | (with_reducible assumption)
    | (with_reducible apply Chg.step (chg_emit _ _))
    | (with_reducible apply Chg.foldl)
    | (with_reducible apply Chg.orElse_getD)
    | (with_reducible apply Chg.getD)
    | (with_reducible apply Chg.foldl_snd)
    | intro _
    | split
    | dsimp only
    | ((with_reducible refine Chg.mk rfl ?_ rfl rfl rfl rfl ?_); · (intro x hx; cases x <;> first | rfl | exact ⟨rfl, rfl⟩ | exact absurd (by decide) hx))

theorem chg_resetMsix (s : State) (a) : Chg [.host] s (State.resetMsix s a) := by
  unfold State.resetMsix
  repeat' first
    | ((with_reducible apply subF_of); rfl)
    | (with_reducible apply Chg.refl)
    | (with_reducible assumption)
    | (with_reducible apply Chg.foldl)
    | (with_reducible apply Chg.orElse_getD)
    | (with_reducible apply Chg.getD)
    | (with_reducible apply Chg.foldl_snd)
    | intro _
    | split
    | dsimp only
    | ((with_reducible refine Chg.mk rfl ?_ rfl rfl rfl rfl ?_); · (intro x hx; cases x <;> first | rfl | exact ⟨rfl, rfl⟩ | exact absurd (by decide) hx))

theorem chg_resetFn (s : State) (a) : Chg [.regs, .host] s (State.resetFn s a) := by
  unfold State.resetFn
  repeat' first
    | ((with_reducible apply subF_of); rfl)
    | (with_reducible apply Chg.refl)
    | (with_reducible assumption)
    | (extract_lets +onlyGivenNames t0; (have ht0 : Chg [.regs, .host] s t0 := by (dsimp only [t0]; repeat' first | ((with_reducible apply subF_of); rfl) | (with_reducible apply Chg.refl) | (with_reducible assumption) | (with_reducible apply Chg.step (chg_resetMsix _ _)) | (with_reducible apply Chg.step (chg_setReg64 _ _ _)) | (with_reducible apply Chg.foldl) | (with_reducible apply Chg.orElse_getD) | (with_reducible apply Chg.getD) | (with_reducible apply Chg.foldl_snd) | intro _ | split | dsimp only | ((with_reducible refine Chg.mk rfl ?_ rfl rfl rfl rfl ?_); · (intro x hx; cases x <;> first | rfl | exact ⟨rfl, rfl⟩ | exact absurd (by decide) hx)))); try clear_value t0)
    | (with_reducible apply Chg.step (chg_resetMsix _ _))
    | (with_reducible apply Chg.step (chg_setReg64 _ _ _))
    | (extract_lets +onlyGivenNames t1)
    | (with_reducible apply Chg.foldl)
    | (with_reducible apply Chg.orElse_getD)
    | (with_reducible apply Chg.getD)
    | (with_reducible apply Chg.foldl_snd)
    | intro _
    | split
    | dsimp only
    | ((with_reducible refine Chg.mk rfl ?_ rfl rfl rfl rfl ?_); · (intro x hx; cases x <;> first | rfl | exact ⟨rfl, rfl⟩ | exact absurd (by decide) hx))

theorem chg_resetRekey (s : State) (a) : Chg [.out, .regs, .parts, .host, .log] s (State.resetRekey s a) := by
  unfold State.resetRekey
  repeat' first
    | ((with_reducible apply subF_of); rfl)
    | (with_reducible apply Chg.refl)
    | (with_reducible assumption)
    | (with_reducible apply Chg.step (chg_beginReset _ _ _))
    | (with_reducible apply Chg.step (chg_modPart _ _ _))
    | (with_reducible apply Chg.step (chg_setTdi _ _ _))
    | (with_reducible apply Chg.foldl)
    | (with_reducible apply Chg.orElse_getD)
    | (with_reducible apply Chg.getD)
    | (with_reducible apply Chg.foldl_snd)
    | intro _
    | split
    | dsimp only
    | ((with_reducible refine Chg.mk rfl ?_ rfl rfl rfl rfl ?_); · (intro x hx; cases x <;> first | rfl | exact ⟨rfl, rfl⟩ | exact absurd (by decide) hx))

theorem chg_beginFlr (s : State) (a) : Chg [.out, .regs, .parts, .host, .log] s (State.beginFlr s a) := by
  unfold State.beginFlr
  repeat' first
    | ((with_reducible apply subF_of); rfl)
    | (with_reducible apply Chg.refl)
    | (with_reducible assumption)
    | (with_reducible apply Chg.step (chg_resetRekey _ _))
    | (with_reducible apply Chg.foldl)
    | (with_reducible apply Chg.orElse_getD)
    | (with_reducible apply Chg.getD)
    | (with_reducible apply Chg.foldl_snd)
    | intro _
    | split
    | dsimp only
    | ((with_reducible refine Chg.mk rfl ?_ rfl rfl rfl rfl ?_); · (intro x hx; cases x <;> first | rfl | exact ⟨rfl, rfl⟩ | exact absurd (by decide) hx))

theorem chg_flrKey (s : State) (a) : Chg [.mem, .memEpoch, .poison, .cores, .parts, .dies, .chans, .host, .sec] s (State.flrKey s a) := by
  unfold State.flrKey
  repeat' first
    | ((with_reducible apply subF_of); rfl)
    | (with_reducible apply Chg.refl)
    | (with_reducible assumption)
    | (with_reducible apply Chg.step (chg_freshKey _ _))
    | (with_reducible apply Chg.step (chg_modPart _ _ _))
    | (with_reducible apply Chg.foldl)
    | (with_reducible apply Chg.orElse_getD)
    | (with_reducible apply Chg.getD)
    | (with_reducible apply Chg.foldl_snd)
    | intro _
    | split
    | dsimp only
    | ((with_reducible refine Chg.mk rfl ?_ rfl rfl rfl rfl ?_); · (intro x hx; cases x <;> first | rfl | exact ⟨rfl, rfl⟩ | exact absurd (by decide) hx))

theorem chg_endFlr (s : State) (a) : Chg [.regs, .host] s (State.endFlr s a) := by
  unfold State.endFlr
  repeat' first
    | ((with_reducible apply subF_of); rfl)
    | (with_reducible apply Chg.refl)
    | (with_reducible assumption)
    | (with_reducible apply Chg.step (chg_resetFn _ _))
    | (with_reducible apply Chg.foldl)
    | (with_reducible apply Chg.orElse_getD)
    | (with_reducible apply Chg.getD)
    | (with_reducible apply Chg.foldl_snd)
    | intro _
    | split
    | dsimp only
    | ((with_reducible refine Chg.mk rfl ?_ rfl rfl rfl rfl ?_); · (intro x hx; cases x <;> first | rfl | exact ⟨rfl, rfl⟩ | exact absurd (by decide) hx))

theorem chg_removeVfs (s : State) (a) : Chg [.out, .regs, .parts, .host, .log] s (State.removeVfs s a) := by
  unfold State.removeVfs
  repeat' first
    | ((with_reducible apply subF_of); rfl)
    | (with_reducible apply Chg.refl)
    | (with_reducible assumption)
    | (with_reducible apply Chg.step (chg_resetFn _ _))
    | (with_reducible apply Chg.step (chg_resetRekey _ _))
    | (with_reducible apply Chg.foldl)
    | (with_reducible apply Chg.orElse_getD)
    | (with_reducible apply Chg.getD)
    | (with_reducible apply Chg.foldl_snd)
    | intro _
    | split
    | dsimp only
    | ((with_reducible refine Chg.mk rfl ?_ rfl rfl rfl rfl ?_); · (intro x hx; cases x <;> first | rfl | exact ⟨rfl, rfl⟩ | exact absurd (by decide) hx))

theorem chg_resetPf0 (s : State) : Chg [.out, .regs, .parts, .host, .log] s (State.resetPf0 s) := by
  unfold State.resetPf0
  repeat' first
    | ((with_reducible apply subF_of); rfl)
    | (with_reducible apply Chg.refl)
    | (with_reducible assumption)
    | (with_reducible apply Chg.step (chg_chartDone _ _))
    | (with_reducible apply Chg.step (chg_removeVfs _ _))
    | (with_reducible apply Chg.step (chg_resetMsix _ _))
    | (with_reducible apply Chg.foldl)
    | (with_reducible apply Chg.orElse_getD)
    | (with_reducible apply Chg.getD)
    | (with_reducible apply Chg.foldl_snd)
    | intro _
    | split
    | dsimp only
    | ((with_reducible refine Chg.mk rfl ?_ rfl rfl rfl rfl ?_); · (intro x hx; cases x <;> first | rfl | exact ⟨rfl, rfl⟩ | exact absurd (by decide) hx))

theorem chg_uncovered (s : State) (a b) : Chg [.out, .parts, .host] s (State.uncovered s a b) := by
  unfold State.uncovered
  repeat' first
    | ((with_reducible apply subF_of); rfl)
    | (with_reducible apply Chg.refl)
    | (with_reducible assumption)
    | (with_reducible apply Chg.step (chg_noTarget _ _ _))
    | (with_reducible apply Chg.step (chg_setTdi _ _ _))
    | (with_reducible apply Chg.foldl)
    | (with_reducible apply Chg.orElse_getD)
    | (with_reducible apply Chg.getD)
    | (with_reducible apply Chg.foldl_snd)
    | intro _
    | split
    | dsimp only
    | ((with_reducible refine Chg.mk rfl ?_ rfl rfl rfl rfl ?_); · (intro x hx; cases x <;> first | rfl | exact ⟨rfl, rfl⟩ | exact absurd (by decide) hx))

theorem chg_maskVec (s : State) (a b) : Chg [.host] s (State.maskVec s a b) := by
  unfold State.maskVec
  repeat' first
    | ((with_reducible apply subF_of); rfl)
    | (with_reducible apply Chg.refl)
    | (with_reducible assumption)
    | (with_reducible apply Chg.foldl)
    | (with_reducible apply Chg.orElse_getD)
    | (with_reducible apply Chg.getD)
    | (with_reducible apply Chg.foldl_snd)
    | intro _
    | split
    | dsimp only
    | ((with_reducible refine Chg.mk rfl ?_ rfl rfl rfl rfl ?_); · (intro x hx; cases x <;> first | rfl | exact ⟨rfl, rfl⟩ | exact absurd (by decide) hx))

theorem chg_bar4Write (s : State) (a b c) : Chg [.out, .host] s (State.bar4Write s a b c) := by
  unfold State.bar4Write
  repeat' first
    | ((with_reducible apply subF_of); rfl)
    | (with_reducible apply Chg.refl)
    | (with_reducible assumption)
    | (with_reducible apply Chg.step (chg_maskVec _ _ _))
    | (with_reducible apply Chg.step (chg_unmask _ _ _))
    | (with_reducible apply Chg.foldl)
    | (with_reducible apply Chg.orElse_getD)
    | (with_reducible apply Chg.getD)
    | (with_reducible apply Chg.foldl_snd)
    | intro _
    | split
    | dsimp only
    | ((with_reducible refine Chg.mk rfl ?_ rfl rfl rfl rfl ?_); · (intro x hx; cases x <;> first | rfl | exact ⟨rfl, rfl⟩ | exact absurd (by decide) hx))

theorem chg_wakeFn (s : State) (a) : Chg [.out, .host] s (State.wakeFn s a) := by
  unfold State.wakeFn
  repeat' first
    | ((with_reducible apply subF_of); rfl)
    | (with_reducible apply Chg.refl)
    | (with_reducible assumption)
    | (with_reducible apply Chg.step (chg_emit _ _))
    | (with_reducible apply Chg.foldl)
    | (with_reducible apply Chg.orElse_getD)
    | (with_reducible apply Chg.getD)
    | (with_reducible apply Chg.foldl_snd)
    | intro _
    | split
    | dsimp only
    | ((with_reducible refine Chg.mk rfl ?_ rfl rfl rfl rfl ?_); · (intro x hx; cases x <;> first | rfl | exact ⟨rfl, rfl⟩ | exact absurd (by decide) hx))

theorem chg_cfgWrite (s : State) (a b c) : Chg [.free, .out, .regs, .mem, .poison, .cores, .launches, .parts, .dies, .chans, .host] s (State.cfgWrite s a b c) := by
  unfold State.cfgWrite
  repeat' first
    | ((with_reducible apply subF_of); rfl)
    | (with_reducible apply Chg.refl)
    | (with_reducible assumption)
    | (with_reducible apply Chg.step (chg_bar2 _ _ _ _ _))
    | (with_reducible apply Chg.step (chg_wakeFn _ _))
    | (with_reducible apply Chg.foldl)
    | (with_reducible apply Chg.orElse_getD)
    | (with_reducible apply Chg.getD)
    | (with_reducible apply Chg.foldl_snd)
    | intro _
    | split
    | dsimp only
    | ((with_reducible refine Chg.mk rfl ?_ rfl rfl rfl rfl ?_); · (intro x hx; cases x <;> first | rfl | exact ⟨rfl, rfl⟩ | exact absurd (by decide) hx))

theorem chg_exposure (s : State) (a) : Chg [.out, .parts, .host] s (State.exposure s a) := by
  unfold State.exposure
  repeat' first
    | ((with_reducible apply subF_of); rfl)
    | (with_reducible apply Chg.refl)
    | (with_reducible assumption)
    | (with_reducible apply Chg.step (chg_setTdi _ _ _))
    | (with_reducible apply Chg.foldl)
    | (with_reducible apply Chg.orElse_getD)
    | (with_reducible apply Chg.getD)
    | (with_reducible apply Chg.foldl_snd)
    | intro _
    | split
    | dsimp only
    | ((with_reducible refine Chg.mk rfl ?_ rfl rfl rfl rfl ?_); · (intro x hx; cases x <;> first | rfl | exact ⟨rfl, rfl⟩ | exact absurd (by decide) hx))

/-- What the check of a TLP keeps, if the access keeps it (R397). -/
theorem chg_onTlp {L : List Fld} {s t u : State} {req w tlp} (hs : subF [.out, .parts, .host] L) (h : Chg L s t) (hu : Chg L s u) :
    Chg L s (State.onTlp t req w tlp u) := by
  unfold State.onTlp
  split
  · exact h
  split
  · exact Chg.step (chg_exposure _ _) hs (Chg.step (chg_unsupported _ _) (subF.trans (subF_of rfl) hs) h)
  split
  · exact Chg.step (chg_exposure _ _) hs (Chg.step (chg_noTarget _ _ _) (subF.trans (subF_of rfl) hs) h)
  · exact hu

end Sys2Proof.Machine
end

