-- ==== Sys2Proof/Laws/ChgSecure.lean ====
section
/-! SUPPORT. What each operation of Machine/Secure.lean may change. -/

namespace Sys2Proof.Machine

theorem chg_secEvent (s : State) (a) : Chg [.out, .regs, .host] s (State.secEvent s a) := by
  unfold State.secEvent
  repeat' first
    | ((with_reducible apply subF_of); rfl)
    | (with_reducible apply Chg.refl)
    | (with_reducible assumption)
    | (with_reducible apply Chg.step (chg_irq _ _ _))
    | (with_reducible apply Chg.step (chg_setBit _ _ _ _))

theorem chg_denied (s : State) (a) : Chg [.out, .regs, .host, .log] s (State.denied s a) := by
  unfold State.denied
  repeat' first
    | ((with_reducible apply subF_of); rfl)
    | (with_reducible apply Chg.refl)
    | (with_reducible assumption)
    | (with_reducible apply Chg.step (chg_logRaise _ _ _ _ _ _))
    | (with_reducible apply Chg.step (chg_secEvent _ _))

theorem chg_presSample (s : State) (a b) : Chg [.out, .regs, .host, .sec, .log] s (State.presSample s a b) := by
  unfold State.presSample
  repeat' first
    | ((with_reducible apply subF_of); rfl)
    | (with_reducible apply Chg.refl)
    | (with_reducible assumption)
    | (with_reducible apply Chg.step (chg_countReg _ _ _))
    | (with_reducible apply Chg.step (chg_logRaise _ _ _ _ _ _))
    | (with_reducible apply Chg.step (chg_secEvent _ _))
    | (with_reducible apply Chg.step (chg_setBit _ _ _ _))
    | (with_reducible apply Chg.step (chg_setFld _ _ _ _ _))
    | (with_reducible apply Chg.foldl)
    | (with_reducible apply Chg.orElse_getD)
    | (with_reducible apply Chg.getD)
    | (with_reducible apply Chg.foldl_snd)
    | intro _
    | split
    | dsimp only
    | ((with_reducible refine Chg.mk rfl ?_ rfl rfl rfl rfl ?_); · (intro x hx; cases x <;> first | rfl | exact ⟨rfl, rfl⟩ | exact absurd (by decide) hx))

theorem chg_resetAll (s : State) : Chg [.out, .regs, .parts, .host, .log] s (State.resetAll s) := by
  unfold State.resetAll
  repeat' first
    | ((with_reducible apply subF_of); rfl)
    | (with_reducible apply Chg.refl)
    | (with_reducible assumption)
    | (with_reducible apply Chg.step (chg_beginReset _ _ _))
    | (with_reducible apply Chg.step (chg_modPart _ _ _))
    | (with_reducible apply Chg.foldl)
    | (with_reducible apply Chg.orElse_getD)
    | (with_reducible apply Chg.getD)
    | (with_reducible apply Chg.foldl_snd)
    | intro _

theorem chg_eraseKeys (s : State) : Chg [.mem, .memEpoch, .poison, .cores, .dies, .chans, .sec] s (State.eraseKeys s) := by
  unfold State.eraseKeys
  repeat' first
    | ((with_reducible apply subF_of); rfl)
    | (with_reducible apply Chg.refl)
    | (with_reducible assumption)
    | (with_reducible apply Chg.step (chg_loseChan _ _))
    | (with_reducible apply Chg.foldl)
    | (with_reducible apply Chg.orElse_getD)
    | (with_reducible apply Chg.getD)
    | (with_reducible apply Chg.foldl_snd)
    | intro _
    | split
    | dsimp only
    | ((with_reducible refine Chg.mk rfl ?_ rfl rfl rfl rfl ?_); · (intro x hx; cases x <;> first | rfl | exact ⟨rfl, rfl⟩ | exact absurd (by decide) hx))

theorem chg_clearDebug (s : State) : Chg [.out, .regs, .host, .log] s (State.clearDebug s) := by
  unfold State.clearDebug
  repeat' first
    | ((with_reducible apply subF_of); rfl)
    | (with_reducible apply Chg.refl)
    | (with_reducible assumption)
    | (with_reducible apply Chg.step (chg_logRaise _ _ _ _ _ _))
    | (with_reducible apply Chg.step (chg_secEvent _ _))
    | (with_reducible apply Chg.step (chg_setBit _ _ _ _))
    | (with_reducible apply Chg.step (chg_setReg _ _ _))
    | (with_reducible apply Chg.foldl)
    | (with_reducible apply Chg.orElse_getD)
    | (with_reducible apply Chg.getD)
    | (with_reducible apply Chg.foldl_snd)
    | intro _
    | split
    | dsimp only
    | ((with_reducible refine Chg.mk rfl ?_ rfl rfl rfl rfl ?_); · (intro x hx; cases x <;> first | rfl | exact ⟨rfl, rfl⟩ | exact absurd (by decide) hx))

theorem chg_tampered (s : State) : Chg [.out, .regs, .mem, .memEpoch, .poison, .cores, .parts, .dies, .chans, .host, .sec, .log] s (State.tampered s) := by
  unfold State.tampered
  repeat' first
    | ((with_reducible apply subF_of); rfl)
    | (with_reducible apply Chg.refl)
    | (with_reducible assumption)
    | (with_reducible apply Chg.step (chg_clearDebug _))
    | (with_reducible apply Chg.step (chg_eraseKeys _))
    | (with_reducible apply Chg.step (chg_logRaise _ _ _ _ _ _))
    | (with_reducible apply Chg.step (chg_resetAll _))
    | (with_reducible apply Chg.step (chg_secEvent _ _))
    | (with_reducible apply Chg.step (chg_setBit _ _ _ _))
    | (with_reducible apply Chg.foldl)
    | (with_reducible apply Chg.orElse_getD)
    | (with_reducible apply Chg.getD)
    | (with_reducible apply Chg.foldl_snd)
    | intro _
    | split
    | dsimp only
    | ((with_reducible refine Chg.mk rfl ?_ rfl rfl rfl rfl ?_); · (intro x hx; cases x <;> first | rfl | exact ⟨rfl, rfl⟩ | exact absurd (by decide) hx))

theorem chg_setRegBytes (s : State) (a b) : Chg [.regs] s (State.setRegBytes s a b) := by
  unfold State.setRegBytes
  repeat' first
    | ((with_reducible apply subF_of); rfl)
    | (with_reducible apply Chg.refl)
    | (with_reducible assumption)
    | (with_reducible apply Chg.step (chg_setReg _ _ _))
    | (with_reducible apply Chg.foldl)
    | (with_reducible apply Chg.orElse_getD)
    | (with_reducible apply Chg.getD)
    | (with_reducible apply Chg.foldl_snd)
    | intro _

theorem chg_mbxGo (s : State) (a) : Chg [.regs, .sec] s (State.mbxGo s a) := by
  unfold State.mbxGo
  repeat' first
    | ((with_reducible apply subF_of); rfl)
    | (with_reducible apply Chg.refl)
    | (with_reducible assumption)
    | (with_reducible apply Chg.step (chg_setBit _ _ _ _))
    | (with_reducible apply Chg.foldl)
    | (with_reducible apply Chg.orElse_getD)
    | (with_reducible apply Chg.getD)
    | (with_reducible apply Chg.foldl_snd)
    | intro _
    | split
    | dsimp only
    | ((with_reducible refine Chg.mk rfl ?_ rfl rfl rfl rfl ?_); · (intro x hx; cases x <;> first | rfl | exact ⟨rfl, rfl⟩ | exact absurd (by decide) hx))

theorem chg_mbxEnd (s : State) (a b) : Chg [.sec] s (State.mbxEnd s a b) := by
  unfold State.mbxEnd
  repeat' first
    | ((with_reducible apply subF_of); rfl)
    | (with_reducible apply Chg.refl)
    | (with_reducible assumption)
    | (with_reducible apply Chg.foldl)
    | (with_reducible apply Chg.orElse_getD)
    | (with_reducible apply Chg.getD)
    | (with_reducible apply Chg.foldl_snd)
    | intro _
    | split
    | dsimp only
    | ((with_reducible refine Chg.mk rfl ?_ rfl rfl rfl rfl ?_); · (intro x hx; cases x <;> first | rfl | exact ⟨rfl, rfl⟩ | exact absurd (by decide) hx))

theorem chg_gated {L : List Fld} {s : State} {op check update} (hs : subF [.out, .regs, .host, .sec, .log] L) (hb0 : ∀ u, Chg L s u → Chg L s (check u).2) (hb1 : ∀ u, Chg L s u → Chg L s (update u)) : Chg L s (State.gated s op check update) := by
  have hsec : ∀ (u : State) (x : Security), Chg [.sec] u { u with sec := x } := fun u x =>
    Chg.mk rfl (by intro f hf; cases f <;> first | rfl | exact ⟨rfl, rfl⟩ | exact absurd (by decide) hf) rfl rfl rfl rfl (Chg.refl _ _)
  unfold State.gated
  have h := hb0 s (Chg.refl _ _)
  refine Chg.ite (Chg.refl _ _) (Chg.ite (Chg.ite (hb1 _ (Chg.refl _ _)) ?_) ?_)
  · exact Chg.step (chg_mbxEnd _ _ _) (subF.trans (subF_of rfl) hs) (Chg.step (chg_denied _ _) (subF.trans (subF_of rfl) hs) (Chg.refl _ _))
  · refine Chg.ite (Chg.step (hsec _ _) (subF.trans (subF_of rfl) hs) h) ?_
    exact Chg.step (chg_mbxEnd _ _ _) (subF.trans (subF_of rfl) hs) (Chg.ite (Chg.step (chg_denied _ _) (subF.trans (subF_of rfl) hs) h) h)

theorem chg_useNonce (s : State) : Chg [.sec] s (State.useNonce s) := by
  unfold State.useNonce
  repeat' first
    | ((with_reducible apply subF_of); rfl)
    | (with_reducible apply Chg.refl)
    | (with_reducible assumption)
    | (with_reducible apply Chg.foldl)
    | (with_reducible apply Chg.orElse_getD)
    | (with_reducible apply Chg.getD)
    | (with_reducible apply Chg.foldl_snd)
    | intro _
    | split
    | dsimp only
    | ((with_reducible refine Chg.mk rfl ?_ rfl rfl rfl rfl ?_); · (intro x hx; cases x <;> first | rfl | exact ⟨rfl, rfl⟩ | exact absurd (by decide) hx))

theorem chg_presentNonce (s : State) (a) : Chg [.sec] s (State.presentNonce s a).2 := by
  unfold State.presentNonce
  repeat' first
    | ((with_reducible apply subF_of); rfl)
    | (with_reducible apply Chg.refl)
    | (with_reducible assumption)
    | (with_reducible apply Chg.step (chg_useNonce _))
    | (with_reducible apply Chg.foldl)
    | (with_reducible apply Chg.orElse_getD)
    | (with_reducible apply Chg.getD)
    | (with_reducible apply Chg.foldl_snd)
    | intro _
    | split

theorem chg_enrolCheck (s : State) : Chg [.sec] s (State.enrolCheck s).2 := by
  unfold State.enrolCheck
  repeat' first
    | ((with_reducible apply subF_of); rfl)
    | (with_reducible apply Chg.refl)
    | (with_reducible assumption)
    | (with_reducible apply Chg.step (chg_useNonce _))
    | (with_reducible apply Chg.foldl)
    | (with_reducible apply Chg.orElse_getD)
    | (with_reducible apply Chg.getD)
    | (with_reducible apply Chg.foldl_snd)
    | intro _
    | split
    | dsimp only
    | ((with_reducible refine Chg.mk rfl ?_ rfl rfl rfl rfl ?_); · (intro x hx; cases x <;> first | rfl | exact ⟨rfl, rfl⟩ | exact absurd (by decide) hx))

theorem chg_storeOwner (s : State) : Chg [.out, .regs, .host, .sec, .log] s (State.storeOwner s) := by
  unfold State.storeOwner
  repeat' first
    | ((with_reducible apply subF_of); rfl)
    | (with_reducible apply Chg.refl)
    | (with_reducible assumption)
    | (with_reducible apply Chg.step (chg_logRaise _ _ _ _ _ _))
    | (with_reducible apply Chg.step (chg_mbxEnd _ _ _))
    | (with_reducible apply Chg.step (chg_secEvent _ _))
    | (with_reducible apply Chg.step (chg_setBit _ _ _ _))
    | (with_reducible apply Chg.step (chg_setRegBytes _ _ _))
    | (with_reducible apply Chg.foldl)
    | (with_reducible apply Chg.orElse_getD)
    | (with_reducible apply Chg.getD)
    | (with_reducible apply Chg.foldl_snd)
    | intro _
    | split
    | dsimp only
    | ((with_reducible refine Chg.mk rfl ?_ rfl rfl rfl rfl ?_); · (intro x hx; cases x <;> first | rfl | exact ⟨rfl, rfl⟩ | exact absurd (by decide) hx))

theorem chg_dropCharts (s : State) : Chg [.gt, .out, .regs, .mem, .memEpoch, .poison, .cores, .launches, .queues, .parts, .dies, .chans, .links, .chart, .host, .sec, .boot, .dbg, .log] s (State.dropCharts s) := by
  unfold State.dropCharts
  repeat' first
    | ((with_reducible apply subF_of); rfl)
    | (with_reducible apply Chg.refl)
    | (with_reducible assumption)
    | (with_reducible apply Chg.step (chg_clearDebug _))
    | (with_reducible apply Chg.step (chg_clearPart _ _))
    | (with_reducible apply Chg.step (chg_eraseKeys _))
    | (with_reducible apply Chg.step (chg_leaveReset _ _))
    | (with_reducible apply Chg.step (chg_relight _))
    | (with_reducible apply Chg.step (chg_retrain _ _))
    | (with_reducible apply Chg.step (chg_setBit _ _ _ _))
    | (with_reducible apply Chg.step (chg_setLamp _ _ _))
    | (with_reducible apply Chg.step (chg_setReg _ _ _))
    | (with_reducible apply Chg.step (chg_setReg64 _ _ _))
    | (with_reducible apply Chg.step (chg_wipeCores _ _))
    | (with_reducible apply Chg.foldl)
    | (with_reducible apply Chg.orElse_getD)
    | (with_reducible apply Chg.getD)
    | (with_reducible apply Chg.foldl_snd)
    | intro _
    | split
    | dsimp only
    | ((with_reducible refine Chg.mk rfl ?_ rfl rfl rfl rfl ?_); · (intro x hx; cases x <;> first | rfl | exact ⟨rfl, rfl⟩ | exact absurd (by decide) hx))

theorem chg_enrolUpdate (s : State) : Chg [.gt, .out, .regs, .mem, .memEpoch, .poison, .cores, .launches, .queues, .parts, .dies, .chans, .links, .chart, .host, .sec, .boot, .dbg, .log] s (State.enrolUpdate s) := by
  unfold State.enrolUpdate
  repeat' first
    | ((with_reducible apply subF_of); rfl)
    | (with_reducible apply Chg.refl)
    | (with_reducible assumption)
    | (with_reducible apply Chg.step (chg_discardStaged _))
    | (with_reducible apply Chg.step (chg_dropCharts _))
    | (with_reducible apply Chg.step (chg_resetAll _))
    | (with_reducible apply Chg.step (chg_storeOwner _))
    | (with_reducible apply Chg.foldl)
    | (with_reducible apply Chg.orElse_getD)
    | (with_reducible apply Chg.getD)
    | (with_reducible apply Chg.foldl_snd)
    | intro _
    | split
    | dsimp only
    | ((with_reducible refine Chg.mk rfl ?_ rfl rfl rfl rfl ?_); · (intro x hx; cases x <;> first | rfl | exact ⟨rfl, rfl⟩ | exact absurd (by decide) hx))

theorem chg_unlockCheck (s : State) : Chg [.sec] s (State.unlockCheck s).2 := by
  unfold State.unlockCheck
  repeat' first
    | ((with_reducible apply subF_of); rfl)
    | (with_reducible apply Chg.refl)
    | (with_reducible assumption)
    | (with_reducible apply Chg.step (chg_presentNonce _ _))
    | (with_reducible (apply Chg.step (Chg.snd (chg_presentNonce _ _) ?e)); case e => assumption)
    | (with_reducible apply Chg.foldl)
    | (with_reducible apply Chg.orElse_getD)
    | (with_reducible apply Chg.getD)
    | (with_reducible apply Chg.foldl_snd)
    | intro _
    | split
    | dsimp only
    | ((with_reducible refine Chg.mk rfl ?_ rfl rfl rfl rfl ?_); · (intro x hx; cases x <;> first | rfl | exact ⟨rfl, rfl⟩ | exact absurd (by decide) hx))

theorem chg_openDebug (s : State) : Chg [.out, .regs, .mem, .memEpoch, .poison, .cores, .parts, .dies, .chans, .chart, .host, .sec, .log] s (State.openDebug s) := by
  unfold State.openDebug
  repeat' first
    | ((with_reducible apply subF_of); rfl)
    | (with_reducible apply Chg.refl)
    | (with_reducible assumption)
    | (with_reducible apply Chg.step (chg_eraseKeys _))
    | (with_reducible apply Chg.step (chg_logRaise _ _ _ _ _ _))
    | (with_reducible apply Chg.step (chg_mbxEnd _ _ _))
    | (with_reducible apply Chg.step (chg_modPart _ _ _))
    | (with_reducible apply Chg.step (chg_secEvent _ _))
    | (with_reducible apply Chg.step (chg_setBit _ _ _ _))
    | (with_reducible apply Chg.step (chg_setReg _ _ _))
    | (with_reducible apply Chg.foldl)
    | (with_reducible apply Chg.orElse_getD)
    | (with_reducible apply Chg.getD)
    | (with_reducible apply Chg.foldl_snd)
    | intro _
    | split
    | dsimp only
    | ((with_reducible refine Chg.mk rfl ?_ rfl rfl rfl rfl ?_); · (intro x hx; cases x <;> first | rfl | exact ⟨rfl, rfl⟩ | exact absurd (by decide) hx))

theorem chg_unlockUpdate (s : State) : Chg [.out, .regs, .mem, .memEpoch, .poison, .cores, .parts, .dies, .chans, .chart, .host, .sec, .log] s (State.unlockUpdate s) := by
  unfold State.unlockUpdate
  repeat' first
    | ((with_reducible apply subF_of); rfl)
    | (with_reducible apply Chg.refl)
    | (with_reducible assumption)
    | (with_reducible apply Chg.step (chg_openDebug _))
    | (with_reducible apply Chg.step (chg_resetAll _))
    | (with_reducible apply Chg.foldl)
    | (with_reducible apply Chg.orElse_getD)
    | (with_reducible apply Chg.getD)
    | (with_reducible apply Chg.foldl_snd)
    | intro _
    | split
    | dsimp only
    | ((with_reducible refine Chg.mk rfl ?_ rfl rfl rfl rfl ?_); · (intro x hx; cases x <;> first | rfl | exact ⟨rfl, rfl⟩ | exact absurd (by decide) hx))

theorem chg_stageFw (s : State) (a b) : Chg [.regs, .sec, .log] s (State.stageFw s a b) := by
  unfold State.stageFw
  repeat' first
    | ((with_reducible apply subF_of); rfl)
    | (with_reducible apply Chg.refl)
    | (with_reducible assumption)
    | (with_reducible apply Chg.step (chg_logRaise _ _ _ _ _ _))
    | (with_reducible apply Chg.step (chg_mbxEnd _ _ _))
    | (with_reducible apply Chg.step (chg_setBit _ _ _ _))
    | (with_reducible apply Chg.foldl)
    | (with_reducible apply Chg.orElse_getD)
    | (with_reducible apply Chg.getD)
    | (with_reducible apply Chg.foldl_snd)
    | intro _
    | split
    | dsimp only
    | ((with_reducible refine Chg.mk rfl ?_ rfl rfl rfl rfl ?_); · (intro x hx; cases x <;> first | rfl | exact ⟨rfl, rfl⟩ | exact absurd (by decide) hx))

theorem chg_fwRead (s : State) : Chg [.out] s (State.fwRead s) := by
  unfold State.fwRead
  repeat' first
    | ((with_reducible apply subF_of); rfl)
    | (with_reducible apply Chg.refl)
    | (with_reducible assumption)
    | (with_reducible apply Chg.step (chg_emit _ _))
    | (with_reducible apply Chg.foldl)
    | (with_reducible apply Chg.orElse_getD)
    | (with_reducible apply Chg.getD)
    | (with_reducible apply Chg.foldl_snd)
    | intro _
    | split
    | dsimp only
    | ((with_reducible refine Chg.mk rfl ?_ rfl rfl rfl rfl ?_); · (intro x hx; cases x <;> first | rfl | exact ⟨rfl, rfl⟩ | exact absurd (by decide) hx))

theorem chg_fwCheck (s : State) (a) : Chg [.out, .sec] s (State.fwCheck s a).2 := by
  unfold State.fwCheck
  repeat' first
    | ((with_reducible apply subF_of); rfl)
    | (with_reducible apply Chg.refl)
    | (with_reducible assumption)
    | (with_reducible apply Chg.step (chg_fwRead _))
    | (with_reducible apply Chg.foldl)
    | (with_reducible apply Chg.orElse_getD)
    | (with_reducible apply Chg.getD)
    | (with_reducible apply Chg.foldl_snd)
    | intro _
    | split
    | dsimp only
    | ((with_reducible refine Chg.mk rfl ?_ rfl rfl rfl rfl ?_); · (intro x hx; cases x <;> first | rfl | exact ⟨rfl, rfl⟩ | exact absurd (by decide) hx))

theorem chg_fwUpdate (s : State) : Chg [.regs, .sec, .log] s (State.fwUpdate s) := by
  unfold State.fwUpdate
  repeat' first
    | ((with_reducible apply subF_of); rfl)
    | (with_reducible apply Chg.refl)
    | (with_reducible assumption)
    | (with_reducible apply Chg.step (chg_stageFw _ _ _))
    | (with_reducible apply Chg.foldl)
    | (with_reducible apply Chg.orElse_getD)
    | (with_reducible apply Chg.getD)
    | (with_reducible apply Chg.foldl_snd)
    | intro _
    | split

theorem chg_clearCheck (s : State) : Chg [.sec] s (State.clearCheck s).2 := by
  unfold State.clearCheck
  repeat' first
    | ((with_reducible apply subF_of); rfl)
    | (with_reducible apply Chg.refl)
    | (with_reducible assumption)
    | (with_reducible apply Chg.step (chg_presentNonce _ _))
    | (with_reducible (apply Chg.step (Chg.snd (chg_presentNonce _ _) ?e)); case e => assumption)
    | (with_reducible apply Chg.foldl)
    | (with_reducible apply Chg.orElse_getD)
    | (with_reducible apply Chg.getD)
    | (with_reducible apply Chg.foldl_snd)
    | intro _
    | split
    | dsimp only
    | ((with_reducible refine Chg.mk rfl ?_ rfl rfl rfl rfl ?_); · (intro x hx; cases x <;> first | rfl | exact ⟨rfl, rfl⟩ | exact absurd (by decide) hx))

theorem chg_clearUpdate (s : State) : Chg [.regs, .sec, .log, .records] s (State.clearUpdate s) := by
  unfold State.clearUpdate
  extract_lets n lg t
  refine Chg.step (chg_mbxEnd _ _ _) (subF_of rfl) (Chg.step (chg_logRaise _ _ _ _ _ _) (subF_of rfl) ?_)
  refine ⟨⟨rfl, fun f hf => ?_⟩, fun c => c, fun p => ?_⟩
  · cases f <;> first | rfl | exact ⟨rfl, rfl⟩ | exact absurd (by decide) hf
  · obtain ⟨p1, p2, p3, p4, p5⟩ := p
    have hm : ∀ (x : Tbl LogRec) k, tfind (x.filter fun e => decide (e.1 < 256)) k = if k < 256 then tfind x k else none := fun x k => by
      rw [tfind_filter (fun j => decide (j < 256))]; simp
    have hc : t.pinnedCount = s.pinnedCount := by
      show ((s.log.mram.filter _).filter _).length = _
      rw [List.filter_filter]; simp only [Bool.and_self]; rfl
    refine ⟨⟨filter_sorted _ p1, filter_sorted _ p2, fun k hk => ?_, fun k r hk h => ?_, p5⟩, fun k r hk h => ?_⟩
    · rw [hc]; show (tfind (s.log.mram.filter _) k).isSome = true ↔ _; rw [hm, if_pos hk]; exact p3 k hk
    · show tfind (s.log.mram.filter _) k = _
      rw [hm, if_pos hk]
      refine p4 k r hk ?_
      have h : tfind (s.log.nor.filter _) k = _ := h
      rwa [hm, if_pos hk] at h
    · show tfind (s.log.mram.filter _) k = _
      rw [hm, if_pos hk]; exact h

theorem chg_untamperCheck (s : State) : Chg [] s (State.untamperCheck s).2 := by
  unfold State.untamperCheck
  repeat' first
    | ((with_reducible apply subF_of); rfl)
    | (with_reducible apply Chg.refl)
    | (with_reducible assumption)
    | (with_reducible apply Chg.foldl)
    | (with_reducible apply Chg.orElse_getD)
    | (with_reducible apply Chg.getD)
    | (with_reducible apply Chg.foldl_snd)
    | intro _
    | split

theorem chg_mbxFinish (s : State) (a b) : Chg [.out, .regs, .host, .sec] s (State.mbxFinish s a b) := by
  unfold State.mbxFinish
  repeat' first
    | ((with_reducible apply subF_of); rfl)
    | (with_reducible apply Chg.refl)
    | (with_reducible assumption)
    | (with_reducible apply Chg.step (chg_irq _ _ _))
    | (with_reducible apply Chg.step (chg_setBit _ _ _ _))
    | (with_reducible apply Chg.step (chg_setFld _ _ _ _ _))
    | (with_reducible apply Chg.step (chg_setReg _ _ _))
    | (with_reducible apply Chg.step (chg_setRegBytes _ _ _))
    | (with_reducible apply Chg.foldl)
    | (with_reducible apply Chg.orElse_getD)
    | (with_reducible apply Chg.getD)
    | (with_reducible apply Chg.foldl_snd)
    | intro _
    | split
    | dsimp only
    | ((with_reducible refine Chg.mk rfl ?_ rfl rfl rfl rfl ?_); · (intro x hx; cases x <;> first | rfl | exact ⟨rfl, rfl⟩ | exact absurd (by decide) hx))

end Sys2Proof.Machine
end

