-- ==== Sys2Proof/Laws/ChgSpdm.lean ====
section
/-! SUPPORT. What each operation of Machine/Spdm.lean may change. -/

namespace Sys2Proof.Machine

theorem chg_setSessions (s : State) (a b) : Chg [.sec] s (State.setSessions s a b) := by
  unfold State.setSessions
  repeat' first
    | ((with_reducible apply subF_of); rfl)
    | (with_reducible apply Chg.refl)
    | (with_reducible assumption)
    | (with_reducible apply Chg.foldl)
    | (with_reducible apply Chg.orElse_getD)
    | (with_reducible apply Chg.getD)
    | (with_reducible apply Chg.foldl_snd)
    | intro _
    | split
    | dsimp only
    | ((with_reducible refine Chg.mk rfl ?_ rfl rfl rfl rfl ?_); · (intro x hx; cases x <;> first | rfl | exact ⟨rfl, rfl⟩ | exact absurd (by decide) hx))

theorem chg_spdm (s : State) (a b c) : Chg [.out] s (State.spdm s a b c) := by
  unfold State.spdm
  repeat' first
    | ((with_reducible apply subF_of); rfl)
    | (with_reducible apply Chg.refl)
    | (with_reducible assumption)
    | (with_reducible apply Chg.step (chg_emit _ _))

theorem chg_spdmErr (s : State) (a b) : Chg [.out] s (State.spdmErr s a b) := by
  unfold State.spdmErr
  repeat' first
    | ((with_reducible apply subF_of); rfl)
    | (with_reducible apply Chg.refl)
    | (with_reducible assumption)
    | (with_reducible apply Chg.step (chg_spdm _ _ _ _))

theorem chg_onSpdm {L : List Fld} {s t : State} {p f} (hs : subF [] L) (hb0 : ∀ u, Chg L s u → Chg L s (f u)) (h : Chg L s t) : Chg L s (State.onSpdm t p f) := by
  unfold State.onSpdm
  repeat' first
    | (with_reducible apply Chg.refl)
    | (with_reducible assumption)
    | (with_reducible apply hb0)
    | (with_reducible apply Chg.foldl)
    | (with_reducible apply Chg.orElse_getD)
    | (with_reducible apply Chg.getD)
    | (with_reducible apply Chg.foldl_snd)
    | intro _
    | split

/-- What a secured message keeps, if its meaning keeps it (R439, R441). -/
theorem chg_inSession {L : List Fld} {s t : State} {p e r k f} (hs : subF [.out, .sec] L) (hf : ∀ u x, Chg L s u → Chg L s (f u x).1) (h : Chg L s t) :
    Chg L s (State.inSession t p e r k f) := by
  unfold State.inSession
  split
  · exact Chg.step (chg_spdmErr _ _ _) ((subF_of rfl).trans hs) h
  · split
    · exact Chg.step (chg_spdmErr _ _ _) ((subF_of rfl).trans hs) h
    · next x _ _ =>
      have hu : Chg L s (t.setSessions p (tset (t.sessions p) e { x with sent := x.sent + 1, received := x.received + 1 })) :=
        Chg.step (chg_setSessions _ _ _) ((subF_of rfl).trans hs) h
      extract_lets y u q
      refine Chg.step (chg_emit _ _) ((subF_of rfl).trans hs) ?_
      dsimp only [q]
      split
      · exact hf _ _ hu
      · exact hu

/-- What a TDISP message keeps, if its meaning keeps it. -/
theorem chg_onTdi {L : List Fld} {s t : State} {vf f} (hf : ∀ p, Chg L s (f p).1) (h : Chg L s t) : Chg L s (State.onTdi t vf f).1 := by
  unfold State.onTdi
  split
  · exact hf _
  · exact h

theorem chg_ideKeys (s : State) (a b c) : Chg [.host] s (State.ideKeys s a b c).1 := by
  unfold State.ideKeys
  dsimp only
  split
  · exact Chg.refl _ _
  · refine Chg.of_touches ⟨rfl, fun x hx => ?_⟩ rfl rfl rfl rfl
    cases x <;> first | rfl | exact ⟨rfl, rfl⟩ | exact absurd (by decide) hx

theorem chg_tdispStart (s : State) (a) : Chg [.out, .parts, .host] s (State.tdispStart s a).1 := by
  refine chg_onTdi (fun p => ?_) (Chg.refl _ _)
  split
  · exact chg_setTdi _ _ _
  · exact Chg.refl _ _

theorem chg_tdispState (s : State) (a) : Chg [] s (State.tdispState s a).1 := chg_onTdi (fun _ => Chg.refl _ _) (Chg.refl _ _)

theorem chg_vendorDo (s : State) (m) : Chg [.out, .parts, .host] s (State.vendorDo s m).1 := by
  cases m with
  | ideKeyProg n => exact (chg_ideKeys _ _ _ _).mono (subF_of rfl)
  | ideKeyGo n => exact (chg_ideKeys _ _ _ _).mono (subF_of rfl)
  | ideKeyStop n => exact (chg_ideKeys _ _ _ _).mono (subF_of rfl)
  | tdispStart vf => exact chg_tdispStart _ _
  | tdispState vf => exact (chg_tdispState _ _).mono (subF_of rfl)

theorem chg_lockTdi (s : State) (a) : Chg [.out, .parts, .host] s (State.lockTdi s a).1 := by
  unfold State.lockTdi
  split
  · exact Chg.step (chg_setTdi _ _ _) (subF_of rfl) ((chg_modPart _ _ _).mono (subF_of rfl))
  · exact Chg.refl _ _

theorem chg_onTdisp {L : List Fld} {s t : State} {vf e k f} (hs : subF [.out, .sec] L) (hf : ∀ u p, Chg L s u → Chg L s (f u p).1) (h : Chg L s t) :
    Chg L s (State.onTdisp t vf e k f) :=
  chg_onSpdm (subF_of rfl) (fun _ hu => chg_inSession hs (fun _ _ hv => chg_onTdi (fun _ => hf _ _ hv) hv) hu) h

end Sys2Proof.Machine
end

