-- ==== Sys2Proof/Laws/ChgModReset.lean ====
section
/-! SUPPORT. What each operation of Machine/ModReset.lean may change. -/

namespace Sys2Proof.Machine

theorem chg_moduleReset (s : State) (a) : Chg [.regs, .latch, .held, .mem, .memEpoch, .poison, .cores, .launches, .queues, .parts, .dies, .chans, .copies, .links, .chart, .host, .sec, .pwr, .boot, .dbg, .log] s (State.moduleReset s a) := by
  unfold State.moduleReset
  extract_lets lg t u
  have hr : regsWf s.keptRegs = true := by
    unfold State.keptRegs
    exact foldl_keeps (fun (t : Tbl Word) => regsWf t = true) _ _ _ rfl fun t e h => regsWf_tput h
  have ht : Chg [.regs, .latch, .held, .mem, .memEpoch, .poison, .cores, .launches, .queues, .parts, .dies, .chans, .copies, .links, .chart, .host, .sec, .pwr, .boot, .dbg, .log] s t := by
    refine .of_canon ⟨rfl, fun x hx => ?_⟩ (fun c => ⟨rfl, hr⟩) rfl rfl
    cases x <;> first | rfl | exact ⟨rfl, rfl⟩ | exact absurd (by decide) hx
  clear_value t
  have hu := Chg.step (chg_setReg t rimRstCause (BitVec.ofNat 32 a)) (subF_of rfl) ht
  exact Chg.ite (Chg.step (chg_logRaise _ _ _ _ _ _) (subF_of rfl) hu) hu

theorem chg_enterReset (s : State) (a) : Chg [.regs, .latch, .held, .mem, .memEpoch, .poison, .cores, .launches, .queues, .parts, .dies, .chans, .copies, .links, .chart, .host, .sec, .pwr, .boot, .dbg, .log] s (State.enterReset s a) := by
  unfold State.enterReset
  repeat' first
    | ((with_reducible apply subF_of); rfl)
    | (with_reducible apply Chg.refl)
    | (with_reducible assumption)
    | (with_reducible apply Chg.step (chg_moduleReset _ _))
    | (with_reducible apply Chg.step (chg_setReg _ _ _))
    | (with_reducible apply Chg.foldl)
    | (with_reducible apply Chg.orElse_getD)
    | (with_reducible apply Chg.getD)
    | (with_reducible apply Chg.foldl_snd)
    | intro _
    | split
    | dsimp only
    | ((with_reducible refine Chg.mk rfl ?_ rfl rfl rfl rfl ?_); · (intro x hx; cases x <;> first | rfl | exact ⟨rfl, rfl⟩ | exact absurd (by decide) hx))

theorem chg_setCaps (s : State) (a b) : Chg [.cores] s (State.setCaps s a b) := by
  unfold State.setCaps
  repeat' first
    | ((with_reducible apply subF_of); rfl)
    | (with_reducible apply Chg.refl)
    | (with_reducible assumption)
    | (with_reducible apply Chg.step (chg_modCore _ _ _))

theorem chg_capAll (s : State) (a) : Chg [.cores] s (State.capAll s a) := by
  unfold State.capAll
  repeat' first
    | ((with_reducible apply subF_of); rfl)
    | (with_reducible apply Chg.refl)
    | (with_reducible assumption)
    | (with_reducible apply Chg.step (chg_setCaps _ _ _))
    | (with_reducible apply Chg.foldl)
    | (with_reducible apply Chg.orElse_getD)
    | (with_reducible apply Chg.getD)
    | (with_reducible apply Chg.foldl_snd)
    | intro _
    | split
    | dsimp only
    | ((with_reducible refine Chg.mk rfl ?_ rfl rfl rfl rfl ?_); · (intro x hx; cases x <;> first | rfl | exact ⟨rfl, rfl⟩ | exact absurd (by decide) hx))

theorem chg_emergencyStop (s : State) (a) : Chg [.out, .regs, .latch, .held, .mem, .memEpoch, .poison, .cores, .launches, .queues, .parts, .dies, .chans, .copies, .links, .chart, .host, .sec, .pwr, .boot, .dbg, .log] s (State.emergencyStop s a) := by
  unfold State.emergencyStop
  repeat' first
    | ((with_reducible apply subF_of); rfl)
    | (with_reducible apply Chg.refl)
    | (with_reducible assumption)
    | (with_reducible apply Chg.step (chg_capAll _ _))
    | (with_reducible apply Chg.step (chg_enterReset _ _))
    | (with_reducible apply Chg.step (chg_irq _ _ _))
    | (with_reducible apply Chg.foldl)
    | (with_reducible apply Chg.orElse_getD)
    | (with_reducible apply Chg.getD)
    | (with_reducible apply Chg.foldl_snd)
    | intro _
    | split
    | dsimp only
    | ((with_reducible refine Chg.mk rfl ?_ rfl rfl rfl rfl ?_); · (intro x hx; cases x <;> first | rfl | exact ⟨rfl, rfl⟩ | exact absurd (by decide) hx))

end Sys2Proof.Machine
end

