-- ==== Sys2Proof/Laws/ChgBoot.lean ====
section
/-! SUPPORT. What each operation of Machine/Boot.lean may change. -/

namespace Sys2Proof.Machine

theorem chg_tearWrites (s : State) : Chg [.free, .log, .records] s (State.tearWrites s) := by
  unfold State.tearWrites
  extract_lets a b t m n
  have ht : Chg [.free, .log, .records] s t := Chg.step (chg_freeBit _) (subF_of rfl) ((chg_freeBit _).mono (subF_of rfl))
  clear_value t
  refine ht.trans ⟨⟨rfl, fun f hf => ?_⟩, fun c => c, fun p => ?_⟩
  · cases f <;> first | rfl | exact ⟨rfl, rfl⟩ | exact absurd (by decide) hf
  · obtain ⟨p1, p2, p3, p4, p5⟩ := p
    have hm : m = t.log.mram ∨ ∃ k, 256 ≤ k ∧ m = tdel t.log.mram k := by
      dsimp only [m]
      split
      · next r _ _ =>
        split
        · by_cases h : r.sev = sevFatal ∧ t.pinnedCount < 256
          · refine .inl (tdel_none ?_)
            rw [State.logSlotFor, if_pos h]
            cases hq : tfind t.log.mram t.pinnedCount with
            | none => rfl
            | some v => exact absurd ((p3 _ h.2).1 (by rw [hq]; rfl)) (Nat.lt_irrefl _)
          · exact .inr ⟨_, p5, by rw [State.logSlotFor, if_neg h]⟩
        · exact .inl rfl
      · exact .inl rfl
    have hk : tsorted m = true ∧ (∀ k, k < 256 → tfind m k = tfind t.log.mram k) ∧
        m.filter (fun e => decide (e.1 < 256)) = t.log.mram.filter fun e => decide (e.1 < 256) := by
      rcases hm with h | ⟨j, hj, h⟩
      · rw [h]; exact ⟨p1, fun _ _ => rfl, rfl⟩
      · rw [h]; exact ⟨tdel_sorted _ p1, fun k hk => tfind_tdel_ne _ (by omega), filter_tdel_out hj⟩
    have hn : tsorted n = true ∧ ∀ k r, tfind n k = some r → tfind t.log.nor k = some r := by
      dsimp only [n]
      split
      · next j _ _ =>
        split
        · refine ⟨tdel_sorted _ p2, fun k r h => ?_⟩
          by_cases hkj : k = j
          · subst hkj; rw [tfind_tdel_self] at h; cases h
          · rwa [tfind_tdel_ne _ hkj] at h
        · exact ⟨p2, fun _ _ h => h⟩
      · exact ⟨p2, fun _ _ h => h⟩
    refine ⟨⟨hk.1, hn.1, fun k h => ?_, fun k r h hr => ?_, p5⟩, fun k r h hr => ?_⟩
    · unfold State.pinnedCount
      show (tfind m k).isSome = true ↔ k < (m.filter _).length
      rw [hk.2.1 k h, hk.2.2]; exact p3 k h
    · show tfind m k = _
      rw [hk.2.1 k h]; exact p4 k r h (hn.2 k r hr)
    · show tfind m k = _
      rw [hk.2.1 k h]; exact hr

theorem chg_auxLoss (s : State) : Chg [.free, .regs, .latch, .held, .mem, .memEpoch, .poison, .cores, .launches, .queues, .parts, .dies, .chans, .copies, .links, .chart, .host, .sec, .pwr, .boot, .dbg, .log, .records] s (State.auxLoss s) := by
  unfold State.auxLoss
  repeat' first
    | ((with_reducible apply subF_of); rfl)
    | (with_reducible apply Chg.refl)
    | (with_reducible assumption)
    | (with_reducible apply Chg.step (chg_moduleReset _ _))
    | (with_reducible apply Chg.step (chg_setReg _ _ _))
    | (with_reducible apply Chg.step (chg_tearWrites _))
    | (with_reducible apply Chg.foldl)
    | (with_reducible apply Chg.orElse_getD)
    | (with_reducible apply Chg.getD)
    | (with_reducible apply Chg.foldl_snd)
    | intro _
    | split
    | dsimp only
    | ((with_reducible refine Chg.mk rfl ?_ rfl rfl rfl rfl ?_); · (intro x hx; cases x <;> first | rfl | exact ⟨rfl, rfl⟩ | exact absurd (by decide) hx))

theorem chg_runStaged (s : State) : Chg [.regs, .sec] s (State.runStaged s) := by
  unfold State.runStaged
  repeat' first
    | ((with_reducible apply subF_of); rfl)
    | (with_reducible apply Chg.refl)
    | (with_reducible assumption)
    | (with_reducible apply Chg.step (chg_setBit _ _ _ _))
    | (with_reducible apply Chg.step (chg_setReg _ _ _))
    | (with_reducible apply Chg.foldl)
    | (with_reducible apply Chg.orElse_getD)
    | (with_reducible apply Chg.getD)
    | (with_reducible apply Chg.foldl_snd)
    | intro _
    | split
    | dsimp only
    | ((with_reducible refine Chg.mk rfl ?_ rfl rfl rfl rfl ?_); · (intro x hx; cases x <;> first | rfl | exact ⟨rfl, rfl⟩ | exact absurd (by decide) hx))

theorem chg_openLogbook (s : State) : Chg [.log, .records] s (State.openLogbook s) := by
  unfold State.openLogbook
  extract_lets lost x good more kept
  refine ⟨⟨rfl, fun f hf => ?_⟩, fun c => c, fun p => ?_⟩
  · cases f <;> first | rfl | exact ⟨rfl, rfl⟩ | exact absurd (by decide) hf
  · obtain ⟨p1, p2, p3, p4, p5⟩ := p
    have ⟨h1, h2, h3⟩ := mergeLog_pins (bad := s.log.badMram) p1 p2 p4
    refine ⟨⟨h1, filter_sorted _ h1, fun k hk => ?_, fun k r hk h => ?_, nextRing_ge _⟩, fun k r hk h => ?_⟩
    · unfold State.pinnedCount
      show (tfind x k).isSome = true ↔ k < (x.filter _).length
      rw [h2 k hk, h3]; exact p3 k hk
    · have h : tfind (x.filter _) k = some r := h
      rw [tfind_filter fun j => !lost.contains j] at h
      split at h
      · exact h
      · cases h
    · show tfind x k = _
      rw [h2 k hk]; exact h

theorem chg_openStack (s : State) (a) : Chg [.regs, .mem, .memEpoch, .poison, .cores, .dies, .chans] s (State.openStack s a) := by
  unfold State.openStack
  repeat' first
    | ((with_reducible apply subF_of); rfl)
    | (with_reducible apply Chg.refl)
    | (with_reducible assumption)
    | (with_reducible apply Chg.step (chg_loseChan _ _))
    | (with_reducible apply Chg.step (chg_modChan _ _ _))
    | (with_reducible apply Chg.step (chg_setBit _ _ _ _))
    | (with_reducible apply Chg.foldl)
    | (with_reducible apply Chg.orElse_getD)
    | (with_reducible apply Chg.getD)
    | (with_reducible apply Chg.foldl_snd)
    | intro _
    | split
    | dsimp only
    | ((with_reducible refine Chg.mk rfl ?_ rfl rfl rfl rfl ?_); · (intro x hx; cases x <;> first | rfl | exact ⟨rfl, rfl⟩ | exact absurd (by decide) hx))

theorem chg_openOe (s : State) (a) : Chg [.out, .regs, .links, .host, .log] s (State.openOe s a) := by
  unfold State.openOe
  repeat' first
    | ((with_reducible apply subF_of); rfl)
    | (with_reducible apply Chg.refl)
    | (with_reducible assumption)
    | (with_reducible apply Chg.step (chg_toLight _ _))
    | (with_reducible apply Chg.foldl)
    | (with_reducible apply Chg.orElse_getD)
    | (with_reducible apply Chg.getD)
    | (with_reducible apply Chg.foldl_snd)
    | intro _
    | split
    | dsimp only

theorem chg_openRail (s : State) (a) : Chg [.regs, .boot] s (State.openRail s a) := by
  unfold State.openRail
  repeat' first
    | ((with_reducible apply subF_of); rfl)
    | (with_reducible apply Chg.refl)
    | (with_reducible assumption)
    | (with_reducible apply Chg.step (chg_setBit _ _ _ _))
    | (with_reducible apply Chg.step (chg_setFld _ _ _ _ _))
    | (with_reducible apply Chg.foldl)
    | (with_reducible apply Chg.orElse_getD)
    | (with_reducible apply Chg.getD)
    | (with_reducible apply Chg.foldl_snd)
    | intro _
    | split
    | dsimp only
    | ((with_reducible refine Chg.mk rfl ?_ rfl rfl rfl rfl ?_); · (intro x hx; cases x <;> first | rfl | exact ⟨rfl, rfl⟩ | exact absurd (by decide) hx))

theorem chg_openSecroot (s : State) : Chg [.links, .sec] s (State.openSecroot s) := by
  unfold State.openSecroot
  repeat' first
    | ((with_reducible apply subF_of); rfl)
    | (with_reducible apply Chg.refl)
    | (with_reducible assumption)
    | (with_reducible apply Chg.step (chg_draw _ _))
    | (with_reducible (apply Chg.step (Chg.snd (chg_draw _ _) ?e)); case e => assumption)
    | (with_reducible apply Chg.step (chg_restartAlign _))
    | (with_reducible apply Chg.foldl)
    | (with_reducible apply Chg.orElse_getD)
    | (with_reducible apply Chg.getD)
    | (with_reducible apply Chg.foldl_snd)
    | intro _
    | split
    | dsimp only
    | ((with_reducible refine Chg.mk rfl ?_ rfl rfl rfl rfl ?_); · (intro x hx; cases x <;> first | rfl | exact ⟨rfl, rfl⟩ | exact absurd (by decide) hx))

theorem chg_onLamp (s : State) (a) : Chg [.out, .regs, .mem, .memEpoch, .poison, .cores, .dies, .chans, .links, .host, .sec, .boot, .log, .records] s (State.onLamp s a) := by
  unfold State.onLamp
  repeat' first
    | ((with_reducible apply subF_of); rfl)
    | (with_reducible apply Chg.refl)
    | (with_reducible assumption)
    | (with_reducible apply Chg.step (chg_openLogbook _))
    | (with_reducible apply Chg.step (chg_openOe _ _))
    | (with_reducible apply Chg.step (chg_openRail _ _))
    | (with_reducible apply Chg.step (chg_openSecroot _))
    | (with_reducible apply Chg.step (chg_openStack _ _))
    | (with_reducible apply Chg.step (chg_restartAlign _))
    | (with_reducible apply Chg.step (chg_runStaged _))
    | (with_reducible apply Chg.step (chg_setBit _ _ _ _))
    | (with_reducible apply Chg.step (chg_startLit _ _))
    | (with_reducible apply Chg.foldl)
    | (with_reducible apply Chg.orElse_getD)
    | (with_reducible apply Chg.getD)
    | (with_reducible apply Chg.foldl_snd)
    | intro _
    | split
    | dsimp only
    | ((with_reducible refine Chg.mk rfl ?_ rfl rfl rfl rfl ?_); · (intro x hx; cases x <;> first | rfl | exact ⟨rfl, rfl⟩ | exact absurd (by decide) hx))

theorem chg_clearDieRegs (s : State) (a) : Chg [.regs] s (State.clearDieRegs s a) := by
  unfold State.clearDieRegs
  repeat' first
    | ((with_reducible apply subF_of); rfl)
    | (with_reducible apply Chg.refl)
    | (with_reducible assumption)
    | (with_reducible apply Chg.step (chg_resetRegs _ _))
    | (with_reducible apply Chg.step (chg_setBit _ _ _ _))
    | (with_reducible apply Chg.step (chg_setFld _ _ _ _ _))
    | (with_reducible apply Chg.foldl)
    | (with_reducible apply Chg.orElse_getD)
    | (with_reducible apply Chg.getD)
    | (with_reducible apply Chg.foldl_snd)
    | intro _
    | split
    | dsimp only
    | ((with_reducible refine Chg.mk rfl ?_ rfl rfl rfl rfl ?_); · (intro x hx; cases x <;> first | rfl | exact ⟨rfl, rfl⟩ | exact absurd (by decide) hx))

theorem chg_clearDie (s : State) (a) : Chg [.regs, .mem, .memEpoch, .poison, .cores, .dies, .chans, .copies, .boot] s (State.clearDie s a) := by
  have aux : ∀ (c : Tbl Core) (h : Tbl Chan) (q : Host.Cell → Bool) (e : Tbl Nat) (p : List Nat) (o : Tbl CopyEng) (b : Boot),
      Chg [.regs, .mem, .memEpoch, .poison, .cores, .dies, .chans, .copies, .boot] s { s with cores := c, chans := h, mem := s.mem.filter q, memEpoch := e, poison := p, copies := o, boot := b } := by
    intro c h q e p o b
    refine .of_canon ⟨rfl, fun x hx => ?_⟩ (fun c => ⟨filter_sorted _ c.1, c.2⟩) rfl rfl
    cases x <;> first | rfl | exact ⟨rfl, rfl⟩ | exact absurd (by decide) hx
  unfold State.clearDie
  exact Chg.foldl (Chg.step (chg_clearDieRegs _ _) (subF_of rfl) (Chg.step (chg_setDie _ _ _) (subF_of rfl) (aux ..))) fun u i hu =>
    Chg.step (chg_setBit _ _ _ _) (subF_of rfl) hu

theorem chg_resetDie (s : State) (a) : Chg [.gt, .out, .regs, .mem, .memEpoch, .poison, .cores, .launches, .parts, .dies, .chans, .copies, .links, .host, .boot, .dbg, .log] s (State.resetDie s a) := by
  unfold State.resetDie
  repeat' first
    | ((with_reducible apply subF_of); rfl)
    | (with_reducible apply Chg.refl)
    | (with_reducible assumption)
    | (with_reducible apply Chg.step (chg_clearDie _ _))
    | (with_reducible apply Chg.step (chg_relight _))
    | (with_reducible apply Chg.step (chg_setLamp _ _ _))
    | (with_reducible apply Chg.step (chg_takeDown _ _ _))
    | (with_reducible apply Chg.step (chg_traceLamp _ _ _))
    | (with_reducible apply Chg.foldl)
    | (with_reducible apply Chg.orElse_getD)
    | (with_reducible apply Chg.getD)
    | (with_reducible apply Chg.foldl_snd)
    | intro _
    | split

theorem chg_dieResets (s : State) : Chg [.gt, .out, .regs, .mem, .memEpoch, .poison, .cores, .launches, .parts, .dies, .chans, .copies, .links, .host, .boot, .dbg, .log] s (State.dieResets s) := by
  unfold State.dieResets
  repeat' first
    | ((with_reducible apply subF_of); rfl)
    | (with_reducible apply Chg.refl)
    | (with_reducible assumption)
    | (with_reducible apply Chg.step (chg_resetDie _ _))
    | (with_reducible apply Chg.foldl)
    | (with_reducible apply Chg.orElse_getD)
    | (with_reducible apply Chg.getD)
    | (with_reducible apply Chg.foldl_snd)
    | intro _
    | split

theorem chg_askDie (s : State) (a) : Chg [.out, .regs, .parts, .host, .boot, .log] s (State.askDie s a) := by
  unfold State.askDie
  repeat' first
    | ((with_reducible apply subF_of); rfl)
    | (with_reducible apply Chg.refl)
    | (with_reducible assumption)
    | (with_reducible apply Chg.step (chg_beginReset _ _ _))
    | (with_reducible apply Chg.step (chg_setBit _ _ _ _))
    | (with_reducible apply Chg.foldl)
    | (with_reducible apply Chg.orElse_getD)
    | (with_reducible apply Chg.getD)
    | (with_reducible apply Chg.foldl_snd)
    | intro _
    | split
    | dsimp only
    | ((with_reducible refine Chg.mk rfl ?_ rfl rfl rfl rfl ?_); · (intro x hx; cases x <;> first | rfl | exact ⟨rfl, rfl⟩ | exact absurd (by decide) hx))

theorem chg_mainMean (s : State) (a) : Chg [.regs, .latch, .held, .mem, .memEpoch, .poison, .cores, .launches, .queues, .parts, .dies, .chans, .copies, .links, .chart, .host, .sec, .pwr, .boot, .dbg, .log] s (State.mainMean s a) := by
  unfold State.mainMean
  repeat' first
    | ((with_reducible apply subF_of); rfl)
    | (with_reducible apply Chg.refl)
    | (with_reducible assumption)
    | (with_reducible apply Chg.step (chg_enterReset _ _))
    | (with_reducible apply Chg.foldl)
    | (with_reducible apply Chg.orElse_getD)
    | (with_reducible apply Chg.getD)
    | (with_reducible apply Chg.foldl_snd)
    | intro _
    | split
    | dsimp only
    | ((with_reducible refine Chg.mk rfl ?_ rfl rfl rfl rfl ?_); · (intro x hx; cases x <;> first | rfl | exact ⟨rfl, rfl⟩ | exact absurd (by decide) hx))

end Sys2Proof.Machine
end

