-- ==== Sys2Proof/Laws/ChgSweep.lean ====
section
/-! SUPPORT. What each operation of Machine/Sweep.lean may change. -/

namespace Sys2Proof.Machine

theorem chg_startSweep (s : State) (a) : Chg [.regs, .parts, .dbg] s (State.startSweep s a) := by
  unfold State.startSweep
  repeat' first
    | ((with_reducible apply subF_of); rfl)
    | (with_reducible apply Chg.refl)
    | (with_reducible assumption)
    | (with_reducible apply Chg.step (chg_modPart _ _ _))
    | (with_reducible apply Chg.step (chg_setBit _ _ _ _))
    | (with_reducible apply Chg.step (chg_traceSweep _ _ _ _))

theorem chg_sweepLine (s : State) (a) : Chg [.free, .out, .regs, .parts, .dies, .chans, .dbg] s (State.sweepLine s a) := by
  unfold State.sweepLine
  repeat' first
    | ((with_reducible apply subF_of); rfl)
    | (with_reducible apply Chg.refl)
    | (with_reducible assumption)
    | (with_reducible apply Chg.step (chg_abortSweep _ _ _))
    | (with_reducible apply Chg.step (chg_l2Touch _ _ _ _ _ _ _))
    | (with_reducible apply Chg.step (chg_modPart _ _ _))
    | (with_reducible apply Chg.step (chg_readAt _ _ _))
    | (with_reducible (apply Chg.step (Chg.snd (chg_readAt _ _ _) ?e)); case e => assumption)
    | (with_reducible apply Chg.step (chg_transl _ _ _ _ _))
    | (with_reducible (apply Chg.step (Chg.snd (chg_transl _ _ _ _ _) ?e)); case e => assumption)
    | (with_reducible apply chg_withLines)
    | (with_reducible apply Chg.foldl)
    | (with_reducible apply Chg.orElse_getD)
    | (with_reducible apply Chg.getD)
    | (with_reducible apply Chg.foldl_snd)
    | intro _
    | split
    | dsimp only
    | ((with_reducible refine Chg.mk rfl ?_ rfl rfl rfl rfl ?_); · (intro x hx; cases x <;> first | rfl | exact ⟨rfl, rfl⟩ | exact absurd (by decide) hx))

theorem chg_endPass (s : State) (a) : Chg [.regs, .parts, .dbg] s (State.endPass s a) := by
  unfold State.endPass
  repeat' first
    | ((with_reducible apply subF_of); rfl)
    | (with_reducible apply Chg.refl)
    | (with_reducible assumption)
    | (with_reducible apply Chg.step (chg_setReg _ _ _))
    | (with_reducible apply Chg.step (chg_setReg64 _ _ _))
    | (with_reducible apply Chg.step (chg_startSweep _ _))
    | (with_reducible apply Chg.step (chg_traceSweep _ _ _ _))

theorem chg_beaconEvent (s : State) (a b) : Chg [.free, .mem, .poison, .cores, .launches, .parts, .dies, .chans] s (State.beaconEvent s a b) := by
  unfold State.beaconEvent
  generalize s.reg64 (digBevVa a) = va
  have h : Chg [.free, .mem, .poison, .cores, .launches, .parts, .dies, .chans] s (s.eventWord a va).2 := (chg_eventWord _ _ _ _).mono (subF_of rfl)
  revert h
  generalize s.eventWord a va = F
  intro h
  split
  · exact Chg.ite h (Chg.step (chg_eventMax _ _ _ _) (subF_of rfl) h)
  · exact h

theorem chg_compareBeacons (s : State) (a b c) : Chg [.free, .regs, .mem, .poison, .cores, .launches, .parts, .dies, .chans, .log] s (State.compareBeacons s a b c) := by
  unfold State.compareBeacons
  repeat' first
    | ((with_reducible apply subF_of); rfl)
    | (with_reducible apply Chg.refl)
    | (with_reducible assumption)
    | (with_reducible apply Chg.step (chg_beaconEvent _ _ _))
    | (with_reducible apply Chg.step (chg_countReg _ _ _))
    | (with_reducible apply Chg.step (chg_logRaise _ _ _ _ _ _))
    | (with_reducible apply Chg.foldl)
    | (with_reducible apply Chg.orElse_getD)
    | (with_reducible apply Chg.getD)
    | (with_reducible apply Chg.foldl_snd)
    | intro _
    | split
    | dsimp only

theorem chg_actDigest (s : State) (a) : Chg [.free, .out, .parts] s (State.actDigest s a).2 := by
  unfold State.actDigest
  extract_lets va
  have h : Chg [.free, .out, .parts] s (s.fetchBytes a va 16).2 := (chg_fetchBytes _ _ _ _ _).mono (subF_of rfl)
  clear_value va
  split
  · exact Chg.refl _ _
  · revert h
    generalize s.fetchBytes a va 16 = F
    intro h
    split
    · exact h
    · exact Chg.step (chg_freeBytes _ _) (subF_of rfl) h

theorem chg_makeBeacon (s : State) (a b) : Chg [.free, .out, .parts] s (State.makeBeacon s a b).2 := by
  have aux : ∀ (x : BeaconRec) (u : State), Chg [.free, .out, .parts] s u → Chg [.free, .out, .parts] s (x, u).2 := fun _ _ h => h
  unfold State.makeBeacon
  extract_lets r wv
  have h : Chg [.free, .out, .parts] s r.2 := chg_actDigest s a
  clear_value r wv
  exact aux _ _ h

theorem chg_sendBeacon (s : State) (a b c) : Chg [.free, .regs, .mem, .poison, .cores, .launches, .parts, .dies, .chans, .links, .log] s (State.sendBeacon s a b c) := by
  unfold State.sendBeacon
  repeat' first
    | ((with_reducible apply subF_of); rfl)
    | (with_reducible apply Chg.refl)
    | (with_reducible assumption)
    | (with_reducible apply Chg.step (chg_compareBeacons _ _ _ _))
    | (with_reducible apply Chg.step (chg_modPart _ _ _))
    | (with_reducible apply Chg.step (chg_post _ _ _))
    | (with_reducible apply Chg.foldl)
    | (with_reducible apply Chg.orElse_getD)
    | (with_reducible apply Chg.getD)
    | (with_reducible apply Chg.foldl_snd)
    | intro _
    | split

theorem chg_beaconDue (s : State) (a) : Chg [.free, .parts] s (State.beaconDue s a).2 := by
  unfold State.beaconDue
  extract_lets n
  clear_value n
  generalize s.reg64 (digStepVa a) = va
  have h : Chg [.free, .parts] s (s.eventWord a va).2 := (chg_eventWord _ _ _ _).mono (subF_of rfl)
  revert h
  generalize s.eventWord a va = F
  intro h
  split <;> exact h

theorem chg_receiveBeacon (s : State) (a) : Chg [.free, .regs, .mem, .poison, .cores, .launches, .parts, .dies, .chans, .log] s (State.receiveBeacon s a) := by
  unfold State.receiveBeacon
  repeat' first
    | ((with_reducible apply subF_of); rfl)
    | (with_reducible apply Chg.refl)
    | (with_reducible assumption)
    | (with_reducible apply Chg.step (chg_compareBeacons _ _ _ _))
    | (with_reducible apply Chg.step (chg_countReg _ _ _))
    | (with_reducible apply Chg.step (chg_modPart _ _ _))
    | (with_reducible apply Chg.foldl)
    | (with_reducible apply Chg.orElse_getD)
    | (with_reducible apply Chg.getD)
    | (with_reducible apply Chg.foldl_snd)
    | intro _
    | split
    | dsimp only

end Sys2Proof.Machine
end

