-- ==== Sys2Proof/Laws/ChgHang.lean ====
section
/-! SUPPORT. What each operation of Machine/Hang.lean may change. -/

namespace Sys2Proof.Machine

theorem chg_stopHung (s : State) (a) : Chg [.cores, .launches, .dbg] s (State.stopHung s a) := by
  unfold State.stopHung
  repeat' first
    | ((with_reducible apply subF_of); rfl)
    | (with_reducible apply Chg.refl)
    | (with_reducible assumption)
    | (with_reducible apply Chg.step (chg_modLaunch _ _ _))
    | (with_reducible apply Chg.foldl)
    | (with_reducible apply Chg.orElse_getD)
    | (with_reducible apply Chg.getD)
    | (with_reducible apply Chg.foldl_snd)
    | intro _
    | split
    | dsimp only
    | ((with_reducible refine Chg.mk rfl ?_ rfl rfl rfl rfl ?_); · (intro x hx; cases x <;> first | rfl | exact ⟨rfl, rfl⟩ | exact absurd (by decide) hx))

theorem chg_beginDump (s : State) (a b) : Chg [.regs, .dbg] s (State.beginDump s a b) := by
  unfold State.beginDump
  repeat' first
    | ((with_reducible apply subF_of); rfl)
    | (with_reducible apply Chg.refl)
    | (with_reducible assumption)
    | (with_reducible apply Chg.step (chg_setBit _ _ _ _))
    | (with_reducible apply Chg.foldl)
    | (with_reducible apply Chg.orElse_getD)
    | (with_reducible apply Chg.getD)
    | (with_reducible apply Chg.foldl_snd)
    | intro _
    | split
    | dsimp only
    | ((with_reducible refine Chg.mk rfl ?_ rfl rfl rfl rfl ?_); · (intro x hx; cases x <;> first | rfl | exact ⟨rfl, rfl⟩ | exact absurd (by decide) hx))

theorem chg_snapshot (s : State) (a b) : Chg [.out, .regs, .host, .dbg, .log] s (State.snapshot s a b) := by
  have aux : ∀ (d : Debug), Chg [.out, .regs, .host, .dbg, .log] s { s with dbg := d } := fun d =>
    Chg.mk rfl (by intro f hf; cases f <;> first | rfl | exact ⟨rfl, rfl⟩ | exact absurd (by decide) hf) rfl rfl rfl rfl (Chg.refl _ _)
  unfold State.snapshot
  extract_lets n slot x db t u v
  have ht : Chg [.out, .regs, .host, .dbg, .log] s t := aux _
  clear_value n slot x t db
  have hu : Chg [.out, .regs, .host, .dbg, .log] s u := Chg.step (chg_setFld _ _ _ _ _) (subF_of rfl) (Chg.step (chg_setReg64 _ _ _) (subF_of rfl) ht)
  clear_value u
  have hv : Chg [.out, .regs, .host, .dbg, .log] s v := Chg.step (chg_irq _ _ _) (subF_of rfl) (Chg.step (chg_trace _ _ _ _ _ _) (subF_of rfl) hu)
  clear_value v
  exact Chg.step (chg_beginDump _ _ _) (subF_of rfl) (Chg.step (chg_logRaise _ _ _ _ _ _) (subF_of rfl) hv)

theorem chg_endDump (s : State) (a) : Chg [.regs, .dbg] s (State.endDump s a) := by
  have aux : ∀ (v : State) (d : Debug), Chg [.regs, .dbg] s v → Chg [.regs, .dbg] s { v with dbg := d } := fun v d hv =>
    Chg.mk rfl (by intro f hf; cases f <;> first | rfl | exact ⟨rfl, rfl⟩ | exact absurd (by decide) hf) rfl rfl rfl rfl hv
  unfold State.endDump
  extract_lets db t u bs
  have hu : Chg [.regs, .dbg] s u := Chg.step (chg_setBit _ _ _ _) (subF_of rfl) (aux s _ (Chg.refl _ _))
  clear_value u bs
  exact Chg.ite hu (Chg.step (chg_setBit _ _ _ _) (subF_of rfl) (aux u _ hu))

end Sys2Proof.Machine
end

