-- ==== Sys2Proof/Laws/ChgLogbook.lean ====
section
/-! SUPPORT. What each operation of Machine/Logbook.lean may change. -/

namespace Sys2Proof.Machine

theorem chg_logWrite (s : State) (a) : Chg [.out, .regs, .host, .log, .records] s (State.logWrite s a) := by
  unfold State.logWrite
  extract_lets slot q used lg t u v
  have ht : Chg [.out, .regs, .host, .log, .records] s t := by
    refine ⟨⟨rfl, fun f hf => ?_⟩, fun c => c, fun p => ?_⟩
    · cases f <;> first | rfl | exact ⟨rfl, rfl⟩ | exact absurd (by decide) hf
    · obtain ⟨p1, p2, p3, p4, p5⟩ := p
      have hslot : (slot = s.pinnedCount ∧ slot < 256) ∨ 256 ≤ slot := by
        have e : slot = if a.sev = sevFatal ∧ s.pinnedCount < 256 then s.pinnedCount else s.log.ring := rfl
        rw [e]
        split
        · next h => exact .inl ⟨rfl, h.2⟩
        · exact .inr p5
      rcases hslot with ⟨h1, h2⟩ | h1
      · have hnone : tfind s.log.mram slot = none := by
          have := p3 slot h2
          rw [h1] at this
          cases hq : tfind s.log.mram s.pinnedCount with
          | none => rw [h1]; exact hq
          | some r => rw [hq] at this; simp at this
        have hc : t.pinnedCount = s.pinnedCount + 1 := filter_tset_in p1 h2 hnone
        refine ⟨⟨tset_sorted _ _ p1, p2, fun k hk => ?_, fun k r hk h => ?_, ?_⟩, fun k r hk h => ?_⟩
        · rw [hc]; show (tfind (tset s.log.mram slot q) k).isSome = true ↔ _
          rw [tfind_tset]
          split
          · next e => simp; omega
          · next e => rw [p3 k hk]; omega
        · show tfind (tset s.log.mram slot q) k = _
          have := p4 k r hk h
          rw [tfind_tset_ne _ _ (by rintro rfl; rw [hnone] at this; cases this)]; exact this
        · show 256 ≤ if slot < 256 then s.log.ring else ringNext slot
          rw [if_pos h2]; exact p5
        · show tfind (tset s.log.mram slot q) k = _
          rw [tfind_tset_ne _ _ (by rintro rfl; rw [hnone] at h; cases h)]; exact h
      · have hc : t.pinnedCount = s.pinnedCount := by
          show ((tset s.log.mram slot q).filter _).length = _
          rw [filter_tset_out h1]; rfl
        refine ⟨⟨tset_sorted _ _ p1, p2, fun k hk => ?_, fun k r hk h => ?_, ?_⟩, fun k r hk h => ?_⟩
        · rw [hc]; show (tfind (tset s.log.mram slot q) k).isSome = true ↔ _
          rw [tfind_tset_ne _ _ (by omega)]; exact p3 k hk
        · show tfind (tset s.log.mram slot q) k = _
          rw [tfind_tset_ne _ _ (by omega)]; exact p4 k r hk h
        · show 256 ≤ if slot < 256 then s.log.ring else ringNext slot
          split
          · omega
          · exact ringNext_ge h1
        · show tfind (tset s.log.mram slot q) k = _
          rw [tfind_tset_ne _ _ (by omega)]; exact h
  clear_value t
  have hu : Chg [.out, .regs, .host, .log, .records] s u := Chg.step (chg_setReg64 _ _ _) (subF_of rfl) (Chg.step (chg_setReg64 _ _ _) (subF_of rfl) ht)
  clear_value u
  have hv : Chg [.out, .regs, .host, .log, .records] s v := Chg.ite (Chg.step (chg_setFld _ _ _ _ _) (subF_of rfl) hu) hu
  clear_value v
  exact Chg.ite (Chg.step (chg_irq _ _ _) (subF_of rfl) hv) hv

theorem chg_logMram (s : State) : Chg [.out, .regs, .host, .log, .records] s (State.logMram s) := by
  unfold State.logMram
  repeat' first
    | ((with_reducible apply subF_of); rfl)
    | (with_reducible apply Chg.refl)
    | (with_reducible assumption)
    | (with_reducible apply Chg.step (chg_logWrite _ _))
    | (with_reducible apply Chg.foldl)
    | (with_reducible apply Chg.orElse_getD)
    | (with_reducible apply Chg.getD)
    | (with_reducible apply Chg.foldl_snd)
    | intro _
    | split
    | dsimp only
    | ((with_reducible refine Chg.mk rfl ?_ rfl rfl rfl rfl ?_); · (intro x hx; cases x <;> first | rfl | exact ⟨rfl, rfl⟩ | exact absurd (by decide) hx))

/-- A record that can be read stands in MRAM. -/
theorem mramRec_some {s : State} {k : Nat} {r : LogRec} (h : s.mramRec k = some r) : tfind s.log.mram k = some r := by
  unfold State.mramRec at h
  split at h
  · cases h
  · exact h

theorem chg_logNor (s : State) : Chg [.log, .records] s (State.logNor s) := by
  unfold State.logNor
  split
  · exact Chg.refl _ _
  · next k ks hk =>
    extract_lets base
    refine ⟨⟨rfl, fun f hf => ?_⟩, fun c => c, fun p => ?_⟩
    · cases f <;> first | rfl | exact ⟨rfl, rfl⟩ | exact absurd (by decide) hf
    · obtain ⟨p1, p2, p3, p4, p5⟩ := p
      have hb : tsorted base = true := by
        show tsorted (if _ then _ else _) = true
        split
        · exact filter_sorted _ p2
        · exact p2
      have hb4 : ∀ i r, i < 256 → tfind base i = some r → tfind s.log.mram i = some r := by
        intro i r hi h
        refine p4 i r hi ?_
        have h : tfind (if _ then _ else _) i = some r := h
        split at h
        · rw [tfind_filter (fun j => j / 8 != k / 8)] at h
          split at h
          · exact h
          · cases h
        · exact h
      clear_value base
      have e : ∀ (N : Tbl LogRec), tsorted N = true → (∀ i r, i < 256 → tfind N i = some r → tfind s.log.mram i = some r) →
          State.PinsOk { s with log := { s.log with norWait := ks, nor := N } } := fun N n1 n2 => ⟨p1, n1, p3, n2, p5⟩
      refine ⟨?_, fun i r _ h => h⟩
      split
      · next r hr =>
        refine e _ (tset_sorted _ _ hb) fun i r' hi h => ?_
        rw [tfind_tset] at h
        split at h
        · next he => cases h; rw [he]; exact mramRec_some hr
        · exact hb4 i r' hi h
      · exact e _ hb hb4

end Sys2Proof.Machine
end

