-- ==== Sys2Proof/Laws/ChgRegisters.lean ====
section
/-! SUPPORT. What each operation of Machine/Registers.lean may change. -/

namespace Sys2Proof.Machine

/-- What the way to a function keeps, if the access keeps it (R397, R404, R409). -/
theorem chg_reach {L : List Fld} {s t : State} {r o w body} (hs : subF [.out, .regs, .parts, .host] L) (hb0 : ∀ u, Chg L s u → Chg L s (body u)) (h : Chg L s t) :
    Chg L s (State.reach t r o w body) := by
  have hn : Chg L s (t.noTarget r w) := Chg.step (chg_noTarget _ _ _) ((subF_of rfl).trans hs) h
  unfold State.reach
  split
  · exact h
  split
  · split
    · exact chg_atVf hs hb0 h
    split
    · exact Chg.step (chg_noTarget _ _ _) ((subF_of rfl).trans hs) h
    · exact hb0 _ h
  · exact Chg.ite hn h

theorem chg_onRead {L : List Fld} {s t : State} {r o body} (hs : subF [.out, .regs, .parts, .host] L) (hb0 : ∀ u, Chg L s u → Chg L s (body u)) (h : Chg L s t) : Chg L s (State.onRead t r o body) :=
  chg_reach hs hb0 h

theorem chg_writeHeld (s : State) (a b) : Chg [.regs] s (State.writeHeld s a b) := by
  unfold State.writeHeld
  repeat' first
    | ((with_reducible apply subF_of); rfl)
    | (with_reducible apply Chg.refl)
    | (with_reducible assumption)
    | (with_reducible apply Chg.step (chg_setBit _ _ _ _))
    | (with_reducible apply Chg.step (chg_setReg _ _ _))
    | (with_reducible apply Chg.foldl)
    | (with_reducible apply Chg.orElse_getD)
    | (with_reducible apply Chg.getD)
    | (with_reducible apply Chg.foldl_snd)
    | intro _
    | split

theorem chg_pfWrite (s : State) (a b) : Chg [.regs, .sec, .log] s (State.pfWrite s a b) := by
  unfold State.pfWrite
  repeat' first
    | ((with_reducible apply subF_of); rfl)
    | (with_reducible apply Chg.refl)
    | (with_reducible assumption)
    | (with_reducible apply Chg.step (chg_logLocked _ _ _))
    | (with_reducible apply Chg.step (chg_mbxGo _ _))
    | (with_reducible apply Chg.step (chg_writeHeld _ _ _))
    | (with_reducible apply Chg.foldl)
    | (with_reducible apply Chg.orElse_getD)
    | (with_reducible apply Chg.getD)
    | (with_reducible apply Chg.foldl_snd)
    | intro _
    | split

theorem chg_ringWrite (s : State) (a b c) : Chg [.queues] s (State.ringWrite s a b c) := by
  unfold State.ringWrite
  repeat' first
    | ((with_reducible apply subF_of); rfl)
    | (with_reducible apply Chg.refl)
    | (with_reducible assumption)
    | (with_reducible apply Chg.step (chg_setQueue _ _ _))
    | (with_reducible apply Chg.foldl)
    | (with_reducible apply Chg.orElse_getD)
    | (with_reducible apply Chg.getD)
    | (with_reducible apply Chg.foldl_snd)
    | intro _
    | split
    | dsimp only

theorem chg_apWrite (s : State) (a b c) : Chg [.regs] s (State.apWrite s a b c) := by
  unfold State.apWrite
  repeat' first
    | ((with_reducible apply subF_of); rfl)
    | (with_reducible apply Chg.refl)
    | (with_reducible assumption)
    | (with_reducible apply Chg.step (chg_writeHeld _ _ _))
    | (with_reducible apply Chg.foldl)
    | (with_reducible apply Chg.orElse_getD)
    | (with_reducible apply Chg.getD)
    | (with_reducible apply Chg.foldl_snd)
    | intro _
    | split
    | dsimp only
    | ((with_reducible refine Chg.mk rfl ?_ rfl rfl rfl rfl ?_); · (intro x hx; cases x <;> first | rfl | exact ⟨rfl, rfl⟩ | exact absurd (by decide) hx))

theorem chg_vfWrite (s : State) (a b c) : Chg [.regs, .queues] s (State.vfWrite s a b c) := by
  unfold State.vfWrite
  repeat' first
    | ((with_reducible apply subF_of); rfl)
    | (with_reducible apply Chg.refl)
    | (with_reducible assumption)
    | (with_reducible apply Chg.step (chg_apWrite _ _ _ _))
    | (with_reducible apply Chg.step (chg_ringWrite _ _ _ _))
    | (with_reducible apply Chg.step (chg_writeHeld _ _ _))
    | (with_reducible apply Chg.foldl)
    | (with_reducible apply Chg.orElse_getD)
    | (with_reducible apply Chg.getD)
    | (with_reducible apply Chg.foldl_snd)
    | intro _
    | split
    | dsimp only
    | ((with_reducible refine Chg.mk rfl ?_ rfl rfl rfl rfl ?_); · (intro x hx; cases x <;> first | rfl | exact ⟨rfl, rfl⟩ | exact absurd (by decide) hx))

theorem chg_writeOne (s : State) (a b c) : Chg [.regs, .queues, .sec, .log] s (State.writeOne s a b c) := by
  unfold State.writeOne
  repeat' first
    | ((with_reducible apply subF_of); rfl)
    | (with_reducible apply Chg.refl)
    | (with_reducible assumption)
    | (with_reducible apply Chg.step (chg_pfWrite _ _ _))
    | (with_reducible apply Chg.step (chg_vfWrite _ _ _ _))
    | (with_reducible apply Chg.foldl)
    | (with_reducible apply Chg.orElse_getD)
    | (with_reducible apply Chg.getD)
    | (with_reducible apply Chg.foldl_snd)
    | intro _
    | split

theorem chg_onWrite {L : List Fld} {s t : State} {r o body} (hs : subF [.out, .regs, .parts, .host] L) (hb0 : ∀ u, Chg L s u → Chg L s (body u)) (h : Chg L s t) : Chg L s (State.onWrite t r o body) :=
  chg_reach hs hb0 h

theorem chg_doorbellHi (s : State) (a b c d) : Chg [.out, .queues, .host] s (State.doorbellHi s a b c d) := by
  unfold State.doorbellHi
  repeat' first
    | ((with_reducible apply subF_of); rfl)
    | (with_reducible apply Chg.refl)
    | (with_reducible assumption)
    | (with_reducible apply Chg.step (chg_doorbell _ _ _))
    | (with_reducible apply Chg.step (chg_noteWants _ _))
    | (with_reducible apply Chg.foldl)
    | (with_reducible apply Chg.orElse_getD)
    | (with_reducible apply Chg.getD)
    | (with_reducible apply Chg.foldl_snd)
    | intro _
    | split
    | dsimp only
    | ((with_reducible refine Chg.mk rfl ?_ rfl rfl rfl rfl ?_); · (intro x hx; cases x <;> first | rfl | exact ⟨rfl, rfl⟩ | exact absurd (by decide) hx))

theorem chg_commitPair (s : State) (a b c) : Chg [.out, .regs, .held, .queues, .host, .sec, .log] s (State.commitPair s a b c) := by
  unfold State.commitPair
  repeat' first
    | ((with_reducible apply subF_of); rfl)
    | (with_reducible apply Chg.refl)
    | (with_reducible assumption)
    | (with_reducible apply Chg.step (chg_doorbellHi _ _ _ _ _))
    | (with_reducible apply Chg.step (chg_writeOne _ _ _ _))
    | (with_reducible apply Chg.foldl)
    | (with_reducible apply Chg.orElse_getD)
    | (with_reducible apply Chg.getD)
    | (with_reducible apply Chg.foldl_snd)
    | intro _
    | split
    | dsimp only
    | ((with_reducible refine Chg.mk rfl ?_ rfl rfl rfl rfl ?_); · (intro x hx; cases x <;> first | rfl | exact ⟨rfl, rfl⟩ | exact absurd (by decide) hx))

theorem chg_aside {L : List Fld} {s t : State} {r o w bar4 cfg} (hs : subF [.out, .regs, .parts, .host] L) (hb0 : ∀ u, Chg L s u → Chg L s (bar4 u)) (hc : ∀ u, Chg L s u → Chg L s (cfg u)) (h : Chg L s t) :
    Chg L s (State.aside t r o w bar4 cfg) := by
  have hn : ∀ n, Chg L s (t.noTarget n w) := fun _ => Chg.step (chg_noTarget _ _ _) ((subF_of rfl).trans hs) h
  unfold State.aside
  split
  · exact h
  split
  · exact hn _
  split
  · exact Chg.ite (Chg.step (chg_exposure _ _) ((subF_of rfl).trans hs) (Chg.step (chg_unsupported _ _) ((subF_of rfl).trans hs) h)) (hc _ h)
  split
  · exact chg_atVf hs hb0 h
  split
  · exact hn _
  · exact hb0 _ h

theorem chg_refuseTlp (s : State) (a b c) : Chg [.out, .parts, .host] s (State.refuseTlp s a b c) := by
  unfold State.refuseTlp
  repeat' first
    | ((with_reducible apply subF_of); rfl)
    | (with_reducible apply Chg.refl)
    | (with_reducible assumption)
    | (with_reducible apply Chg.step (chg_exposure _ _))
    | (with_reducible apply Chg.step (chg_noTarget _ _ _))
    | (with_reducible apply Chg.foldl)
    | (with_reducible apply Chg.orElse_getD)
    | (with_reducible apply Chg.getD)
    | (with_reducible apply Chg.foldl_snd)
    | intro _
    | split
    | dsimp only
    | ((with_reducible refine Chg.mk rfl ?_ rfl rfl rfl rfl ?_); · (intro x hx; cases x <;> first | rfl | exact ⟨rfl, rfl⟩ | exact absurd (by decide) hx))

end Sys2Proof.Machine
end

