-- ==== Sys2Proof/Laws/ChgExec1.lean ====
section
/-! SUPPORT. What each meaning may change, part 1. -/

namespace Sys2Proof.Machine

theorem withUnit_next {b : Bool} {u t : State} (h : withUnit b u = .next t) : u = t := by
  unfold withUnit at h
  split at h
  · injection h
  · contradiction

theorem withWord_next {g : GRef} {w : Word64} {r : IRow} {u t : State} (h : withWord g w r u = .next t) : u = t := by
  unfold withWord at h
  split at h
  · split at h
    · injection h
    · contradiction
  · contradiction

theorem next_inj {u t : State} (h : (.next u : Host.Outcome State Fault Refusal) = .next t) : u = t := by injection h

theorem chg_execCtlNop {s t : State} {a b} (h : execCtlNop a b s = .next t) : Chg [.free, .out, .regs, .cores, .launches, .parts, .dies, .chans] s t := by
  unfold execCtlNop at h
  obtain rfl := withWord_next h
  exact chg_inTurn (chg_rowCtlNop _ _ _) rfl

theorem chg_execCtlExit {s t : State} {a b} (h : execCtlExit a b s = .next t) : Chg [.free, .out, .regs, .cores, .launches, .parts, .dies, .chans, .dbg] s t := by
  unfold execCtlExit at h
  obtain rfl := withWord_next h
  exact chg_inTurn (chg_rowCtlExit _ _ _) rfl

theorem chg_execBarBlock {s t : State} {a b} (h : execBarBlock a b s = .next t) : Chg [.free, .out, .regs, .cores, .launches, .parts, .dies, .chans] s t := by
  unfold execBarBlock at h
  obtain rfl := withWord_next h
  exact chg_inTurn (chg_rowBarBlock _ _ _) rfl

theorem chg_execBarCluster {s t : State} {a b} (h : execBarCluster a b s = .next t) : Chg [.free, .out, .regs, .cores, .launches, .parts, .dies, .chans] s t := by
  unfold execBarCluster at h
  obtain rfl := withWord_next h
  exact chg_inTurn (chg_rowBarCluster _ _ _) rfl

theorem chg_execBarrierOpen {s t : State} {a} (h : execBarrierOpen a s = .next t) : Chg [.cores] s t := by
  unfold execBarrierOpen at h
  obtain rfl := withUnit_next h
  clear h
  repeat' first
    | ((with_reducible apply subF_of); rfl)
    | (with_reducible apply subF.refl)
    | (with_reducible apply Chg.refl)
    | (with_reducible assumption)
    | (with_reducible apply Chg.step (chg_openBarrier _ _ _))
    | (with_reducible apply Chg.foldl)
    | (with_reducible apply Chg.orElse_getD)
    | (with_reducible apply Chg.getD)
    | (with_reducible apply Chg.foldl_snd)
    | intro _
    | split

theorem chg_execCtlJmp {s t : State} {a b} (h : execCtlJmp a b s = .next t) : Chg [.free, .out, .regs, .cores, .launches, .parts, .dies, .chans] s t := by
  unfold execCtlJmp at h
  obtain rfl := withWord_next h
  exact chg_inTurn (chg_rowCtlJmp _ _ _) rfl

theorem chg_execFence {s t : State} {a b} (h : execFence a b s = .next t) : Chg [.free, .out, .regs, .cores, .launches, .parts, .dies, .chans] s t := by
  unfold execFence at h
  obtain rfl := withWord_next h
  exact chg_inTurn (chg_rowFence _ _ _) rfl

theorem chg_execFenceComplete {s t : State} {a} (h : execFenceComplete a s = .next t) : Chg [.cores] s t := by
  unfold execFenceComplete at h
  obtain rfl := withUnit_next h
  clear h
  repeat' first
    | ((with_reducible apply subF_of); rfl)
    | (with_reducible apply subF.refl)
    | (with_reducible apply Chg.refl)
    | (with_reducible assumption)
    | (with_reducible apply Chg.step (chg_arrive _ _))
    | (with_reducible apply Chg.step (chg_dropL1 _ _))
    | (with_reducible apply Chg.step (chg_wake _ _))
    | (with_reducible apply Chg.foldl)
    | (with_reducible apply Chg.orElse_getD)
    | (with_reducible apply Chg.getD)
    | (with_reducible apply Chg.foldl_snd)
    | intro _
    | split
    | dsimp only
    | ((with_reducible refine Chg.mk rfl ?_ rfl rfl rfl rfl ?_); · (intro x hx; cases x <;> first | rfl | exact ⟨rfl, rfl⟩ | exact absurd (by decide) hx))

theorem chg_execCtlRsr {s t : State} {a b} (h : execCtlRsr a b s = .next t) : Chg [.free, .out, .regs, .cores, .launches, .parts, .dies, .chans] s t := by
  unfold execCtlRsr at h
  obtain rfl := withWord_next h
  exact chg_inTurn (chg_rowCtlRsr _ _ _) rfl

theorem chg_execBr {s t : State} {a b} (h : execBr a b s = .next t) : Chg [.free, .out, .regs, .cores, .launches, .parts, .dies, .chans] s t := by
  unfold execBr at h
  obtain rfl := withWord_next h
  exact chg_inTurn (chg_rowBr _ _ _) rfl

theorem chg_execBrLink {s t : State} {a b} (h : execBrLink a b s = .next t) : Chg [.free, .out, .regs, .cores, .launches, .parts, .dies, .chans] s t := by
  unfold execBrLink at h
  obtain rfl := withWord_next h
  exact chg_inTurn (chg_rowBrLink _ _ _) rfl

theorem chg_execIllegalOpcode {s t : State} {a b} (h : execIllegalOpcode a b s = .next t) : Chg [.free, .out, .regs, .cores, .launches, .parts, .dies, .chans] s t := by
  unfold execIllegalOpcode at h
  obtain rfl := withWord_next h
  exact chg_inTurn (chg_rowIllegalOpcode _ _ _) rfl

theorem chg_execI32Op {s t : State} {a b} (h : execI32Op a b s = .next t) : Chg [.free, .out, .regs, .cores, .launches, .parts, .dies, .chans] s t := by
  unfold execI32Op at h
  obtain rfl := withWord_next h
  exact chg_inTurn (chg_rowI32Op _ _ _) rfl

theorem chg_execI64Op {s t : State} {a b} (h : execI64Op a b s = .next t) : Chg [.free, .out, .regs, .cores, .launches, .parts, .dies, .chans] s t := by
  unfold execI64Op at h
  obtain rfl := withWord_next h
  exact chg_inTurn (chg_rowI64Op _ _ _) rfl

theorem chg_execIntCmp {s t : State} {a b} (h : execIntCmp a b s = .next t) : Chg [.free, .out, .regs, .cores, .launches, .parts, .dies, .chans] s t := by
  unfold execIntCmp at h
  obtain rfl := withWord_next h
  exact chg_inTurn (chg_rowIntCmp _ _ _) rfl

theorem chg_execImmV {s t : State} {a b} (h : execImmV a b s = .next t) : Chg [.free, .out, .regs, .cores, .launches, .parts, .dies, .chans] s t := by
  unfold execImmV at h
  obtain rfl := withWord_next h
  exact chg_inTurn (chg_rowImmV _ _ _) rfl

theorem chg_execImmU {s t : State} {a b} (h : execImmU a b s = .next t) : Chg [.free, .out, .regs, .cores, .launches, .parts, .dies, .chans] s t := by
  unfold execImmU at h
  obtain rfl := withWord_next h
  exact chg_inTurn (chg_rowImmU _ _ _) rfl

theorem chg_execF32Op {s t : State} {a b} (h : execF32Op a b s = .next t) : Chg [.free, .out, .regs, .cores, .launches, .parts, .dies, .chans] s t := by
  unfold execF32Op at h
  obtain rfl := withWord_next h
  exact chg_inTurn (chg_rowF32Op _ _ _) rfl

theorem chg_execF64Op {s t : State} {a b} (h : execF64Op a b s = .next t) : Chg [.free, .out, .regs, .cores, .launches, .parts, .dies, .chans] s t := by
  unfold execF64Op at h
  obtain rfl := withWord_next h
  exact chg_inTurn (chg_rowF64Op _ _ _) rfl

theorem chg_execH2Op {s t : State} {a b} (h : execH2Op a b s = .next t) : Chg [.free, .out, .regs, .cores, .launches, .parts, .dies, .chans] s t := by
  unfold execH2Op at h
  obtain rfl := withWord_next h
  exact chg_inTurn (chg_rowH2Op _ _ _) rfl

theorem chg_execFpCmp {s t : State} {a b} (h : execFpCmp a b s = .next t) : Chg [.free, .out, .regs, .cores, .launches, .parts, .dies, .chans] s t := by
  unfold execFpCmp at h
  obtain rfl := withWord_next h
  exact chg_inTurn (chg_rowFpCmp _ _ _) rfl

theorem chg_execCnv {s t : State} {a b} (h : execCnv a b s = .next t) : Chg [.free, .out, .regs, .cores, .launches, .parts, .dies, .chans] s t := by
  unfold execCnv at h
  obtain rfl := withWord_next h
  exact chg_inTurn (chg_rowCnv _ _ _) rfl

theorem chg_execSfOp {s t : State} {a b} (h : execSfOp a b s = .next t) : Chg [.free, .out, .regs, .cores, .launches, .parts, .dies, .chans] s t := by
  unfold execSfOp at h
  obtain rfl := withWord_next h
  exact chg_inTurn (chg_rowSfOp _ _ _) rfl

theorem chg_execPrOp {s t : State} {a b} (h : execPrOp a b s = .next t) : Chg [.free, .out, .regs, .cores, .launches, .parts, .dies, .chans] s t := by
  unfold execPrOp at h
  obtain rfl := withWord_next h
  exact chg_inTurn (chg_rowPrOp _ _ _) rfl

theorem chg_execGrpShfl {s t : State} {a b} (h : execGrpShfl a b s = .next t) : Chg [.free, .out, .regs, .cores, .launches, .parts, .dies, .chans] s t := by
  unfold execGrpShfl at h
  obtain rfl := withWord_next h
  exact chg_inTurn (chg_rowGrpShfl _ _ _) rfl

theorem chg_execGrpVote {s t : State} {a b} (h : execGrpVote a b s = .next t) : Chg [.free, .out, .regs, .cores, .launches, .parts, .dies, .chans] s t := by
  unfold execGrpVote at h
  obtain rfl := withWord_next h
  exact chg_inTurn (chg_rowGrpVote _ _ _) rfl

theorem chg_execLdLocal {s t : State} {a b} (h : execLdLocal a b s = .next t) : Chg [.free, .out, .regs, .cores, .launches, .parts, .dies, .chans] s t := by
  unfold execLdLocal at h
  obtain rfl := withWord_next h
  exact chg_inTurn (chg_rowLdLocal _ _ _) rfl

theorem chg_execStLocal {s t : State} {a b} (h : execStLocal a b s = .next t) : Chg [.free, .out, .regs, .cores, .launches, .parts, .dies, .chans] s t := by
  unfold execStLocal at h
  obtain rfl := withWord_next h
  exact chg_inTurn (chg_rowStLocal _ _ _) rfl

theorem chg_execRmwLocal {s t : State} {a b} (h : execRmwLocal a b s = .next t) : Chg [.free, .out, .regs, .cores, .launches, .parts, .dies, .chans] s t := by
  unfold execRmwLocal at h
  obtain rfl := withWord_next h
  exact chg_inTurn (chg_rowRmwLocal _ _ _) rfl

theorem chg_execLdCluster {s t : State} {a b} (h : execLdCluster a b s = .next t) : Chg [.free, .out, .regs, .cores, .launches, .parts, .dies, .chans] s t := by
  unfold execLdCluster at h
  obtain rfl := withWord_next h
  exact chg_inTurn (chg_rowLdCluster _ _ _) rfl

theorem chg_execStCluster {s t : State} {a b} (h : execStCluster a b s = .next t) : Chg [.free, .out, .regs, .cores, .launches, .parts, .dies, .chans] s t := by
  unfold execStCluster at h
  obtain rfl := withWord_next h
  exact chg_inTurn (chg_rowStCluster _ _ _) rfl

theorem chg_execRmwCluster {s t : State} {a b} (h : execRmwCluster a b s = .next t) : Chg [.free, .out, .regs, .cores, .launches, .parts, .dies, .chans] s t := by
  unfold execRmwCluster at h
  obtain rfl := withWord_next h
  exact chg_inTurn (chg_rowRmwCluster _ _ _) rfl

theorem chg_execClusterRequestServe {s t : State} {a b} (h : execClusterRequestServe a b s = .next t) : Chg [.cores] s t := by
  unfold execClusterRequestServe at h
  obtain rfl := withUnit_next h
  clear h
  repeat' first
    | ((with_reducible apply subF_of); rfl)
    | (with_reducible apply subF.refl)
    | (with_reducible apply Chg.refl)
    | (with_reducible assumption)
    | (with_reducible apply Chg.step (chg_serveCluster _ _ _))

theorem chg_execClusterResponse {s t : State} {a b} (h : execClusterResponse a b s = .next t) : Chg [.cores] s t := by
  unfold execClusterResponse at h
  obtain rfl := withUnit_next h
  clear h
  repeat' first
    | ((with_reducible apply subF_of); rfl)
    | (with_reducible apply subF.refl)
    | (with_reducible apply Chg.refl)
    | (with_reducible assumption)
    | (with_reducible apply Chg.step (chg_clusterReturn _ _ _))

theorem chg_execLdGlobal {s t : State} {a b} (h : execLdGlobal a b s = .next t) : Chg [.free, .out, .regs, .cores, .launches, .parts, .dies, .chans] s t := by
  unfold execLdGlobal at h
  obtain rfl := withWord_next h
  exact chg_inTurn (chg_rowLdGlobal _ _ _) rfl

theorem chg_execLoadDataReturn {s t : State} {a b} (h : execLoadDataReturn a b s = .next t) : Chg [.free, .out, .regs, .cores, .launches] s t := by
  unfold execLoadDataReturn at h
  obtain rfl := withUnit_next h
  clear h
  repeat' first
    | ((with_reducible apply subF_of); rfl)
    | (with_reducible apply subF.refl)
    | (with_reducible apply Chg.refl)
    | (with_reducible assumption)
    | (with_reducible apply Chg.step (chg_returnLoad _ _ _))

theorem chg_execStGlobal {s t : State} {a b} (h : execStGlobal a b s = .next t) : Chg [.free, .out, .regs, .cores, .launches, .parts, .dies, .chans] s t := by
  unfold execStGlobal at h
  obtain rfl := withWord_next h
  exact chg_inTurn (chg_rowStGlobal _ _ _) rfl

theorem chg_execPushResume {s t : State} {a} (h : execPushResume a s = .next t) : Chg [.cores, .launches, .parts] s t := by
  unfold execPushResume at h
  obtain rfl := withUnit_next h
  clear h
  repeat' first
    | ((with_reducible apply subF_of); rfl)
    | (with_reducible apply subF.refl)
    | (with_reducible apply Chg.refl)
    | (with_reducible assumption)
    | (with_reducible apply Chg.step (chg_resumePush _ _))

theorem chg_execZlGlobal {s t : State} {a b} (h : execZlGlobal a b s = .next t) : Chg [.free, .out, .regs, .cores, .launches, .parts, .dies, .chans, .links] s t := by
  unfold execZlGlobal at h
  obtain rfl := withWord_next h
  exact chg_inTurn (chg_rowZlGlobal _ _ _) rfl

theorem chg_execStoreBufferDrain {s t : State} {a} (h : execStoreBufferDrain a s = .next t) : Chg [.regs, .cores, .launches, .dies, .links] s t := by
  unfold execStoreBufferDrain at h
  obtain rfl := withUnit_next h
  clear h
  repeat' first
    | ((with_reducible apply subF_of); rfl)
    | (with_reducible apply subF.refl)
    | (with_reducible apply Chg.refl)
    | (with_reducible assumption)
    | (with_reducible apply Chg.step (chg_drainStore _ _))

theorem chg_execTrackerRelease {s t : State} {a b} (h : execTrackerRelease a b s = .next t) : Chg [.free, .out, .mem, .poison, .cores, .launches, .dies, .chans] s t := by
  unfold execTrackerRelease at h
  obtain rfl := withUnit_next h
  clear h
  repeat' first
    | ((with_reducible apply subF_of); rfl)
    | (with_reducible apply subF.refl)
    | (with_reducible apply Chg.refl)
    | (with_reducible assumption)
    | (with_reducible apply Chg.step (chg_releaseTrack _ _ _))

theorem chg_execLdRemote {s t : State} {a b} (h : execLdRemote a b s = .next t) : Chg [.free, .out, .regs, .cores, .launches, .parts, .dies, .chans, .links] s t := by
  unfold execLdRemote at h
  obtain rfl := withWord_next h
  exact chg_inTurn (chg_rowLdRemote _ _ _) rfl

theorem chg_execStRemote {s t : State} {a b} (h : execStRemote a b s = .next t) : Chg [.free, .out, .regs, .cores, .launches, .parts, .dies, .chans] s t := by
  unfold execStRemote at h
  obtain rfl := withWord_next h
  exact chg_inTurn (chg_rowStRemote _ _ _) rfl

theorem chg_execStRemoteFinal {s t : State} {a b} (h : execStRemoteFinal a b s = .next t) : Chg [.free, .out, .regs, .cores, .launches, .parts, .dies, .chans, .links] s t := by
  unfold execStRemoteFinal at h
  obtain rfl := withWord_next h
  exact chg_inTurn (chg_rowStRemoteFinal _ _ _) rfl

theorem chg_execRmwGlobal {s t : State} {a b} (h : execRmwGlobal a b s = .next t) : Chg [.free, .out, .regs, .mem, .poison, .cores, .launches, .parts, .dies, .chans, .links] s t := by
  unfold execRmwGlobal at h
  obtain rfl := withWord_next h
  exact chg_inTurn (chg_rowRmwGlobal _ _ _) rfl

end Sys2Proof.Machine
end

