-- ==== Sys2Proof/Laws/ChgExec2.lean ====
section
/-! SUPPORT. What each meaning may change, part 2. -/

namespace Sys2Proof.Machine

theorem chg_execRmwPost {s t : State} {a b} (h : execRmwPost a b s = .next t) : Chg [.free, .out, .regs, .mem, .poison, .cores, .launches, .parts, .dies, .chans, .links] s t := by
  unfold execRmwPost at h
  obtain rfl := withWord_next h
  exact chg_inTurn (chg_rowRmwPost _ _ _) rfl

theorem chg_execLl {s t : State} {a b} (h : execLl a b s = .next t) : Chg [.free, .out, .regs, .cores, .launches, .parts, .dies, .chans] s t := by
  unfold execLl at h
  obtain rfl := withWord_next h
  exact chg_inTurn (chg_rowLl _ _ _) rfl

theorem chg_execSc {s t : State} {a b} (h : execSc a b s = .next t) : Chg [.free, .out, .regs, .mem, .poison, .cores, .launches, .parts, .dies, .chans] s t := by
  unfold execSc at h
  obtain rfl := withWord_next h
  exact chg_inTurn (chg_rowSc _ _ _) rfl

theorem chg_execEvRec {s t : State} {a b} (h : execEvRec a b s = .next t) : Chg [.free, .out, .regs, .mem, .poison, .cores, .launches, .parts, .dies, .chans] s t := by
  unfold execEvRec at h
  obtain rfl := withWord_next h
  exact chg_inTurn (chg_rowEvRec _ _ _) rfl

theorem chg_execSemRel {s t : State} {a b} (h : execSemRel a b s = .next t) : Chg [.free, .out, .regs, .cores, .launches, .parts, .dies, .chans] s t := by
  unfold execSemRel at h
  obtain rfl := withWord_next h
  exact chg_inTurn (chg_rowSemRel _ _ _) rfl

theorem chg_execMxHdl {s t : State} {a b} (h : execMxHdl a b s = .next t) : Chg [.free, .out, .regs, .cores, .launches, .parts, .dies, .chans] s t := by
  unfold execMxHdl at h
  obtain rfl := withWord_next h
  exact chg_inTurn (chg_rowMxHdl _ _ _) rfl

theorem chg_execMxFill {s t : State} {a b} (h : execMxFill a b s = .next t) : Chg [.free, .out, .regs, .cores, .launches, .parts, .dies, .chans] s t := by
  unfold execMxFill at h
  obtain rfl := withWord_next h
  exact chg_inTurn (chg_rowMxFill _ _ _) rfl

theorem chg_execMxLdb {s t : State} {a b} (h : execMxLdb a b s = .next t) : Chg [.free, .out, .regs, .cores, .launches, .parts, .dies, .chans] s t := by
  unfold execMxLdb at h
  obtain rfl := withWord_next h
  exact chg_inTurn (chg_rowMxLdb _ _ _) rfl

theorem chg_execMxMma {s t : State} {a b} (h : execMxMma a b s = .next t) : Chg [.free, .out, .regs, .cores, .launches, .parts, .dies, .chans] s t := by
  unfold execMxMma at h
  obtain rfl := withWord_next h
  exact chg_inTurn (chg_rowMxMma _ _ _) rfl

theorem chg_execMxClr {s t : State} {a b} (h : execMxClr a b s = .next t) : Chg [.free, .out, .regs, .cores, .launches, .parts, .dies, .chans] s t := by
  unfold execMxClr at h
  obtain rfl := withWord_next h
  exact chg_inTurn (chg_rowMxClr _ _ _) rfl

theorem chg_execMxAddraw {s t : State} {a b} (h : execMxAddraw a b s = .next t) : Chg [.free, .out, .regs, .cores, .launches, .parts, .dies, .chans] s t := by
  unfold execMxAddraw at h
  obtain rfl := withWord_next h
  exact chg_inTurn (chg_rowMxAddraw _ _ _) rfl

theorem chg_execMxDrain {s t : State} {a b} (h : execMxDrain a b s = .next t) : Chg [.free, .out, .regs, .cores, .launches, .parts, .dies, .chans] s t := by
  unfold execMxDrain at h
  obtain rfl := withWord_next h
  exact chg_inTurn (chg_rowMxDrain _ _ _) rfl

theorem chg_execMxStat {s t : State} {a b} (h : execMxStat a b s = .next t) : Chg [.free, .out, .regs, .cores, .launches, .parts, .dies, .chans] s t := by
  unfold execMxStat at h
  obtain rfl := withWord_next h
  exact chg_inTurn (chg_rowMxStat _ _ _) rfl

theorem chg_execMxFillComplete {s t : State} {a b} (h : execMxFillComplete a b s = .next t) : Chg [.free, .out, .regs, .cores, .launches, .parts] s t := by
  unfold execMxFillComplete at h
  obtain rfl := withUnit_next h
  clear h
  repeat' first
    | ((with_reducible apply subF_of); rfl)
    | (with_reducible apply subF.refl)
    | (with_reducible apply Chg.refl)
    | (with_reducible assumption)
    | (with_reducible apply Chg.step (chg_completeFill _ _ _))

theorem chg_execMxEntryStart {s t : State} {a} (h : execMxEntryStart a s = .next t) : Chg [.free, .regs, .cores, .launches, .parts] s t := by
  unfold execMxEntryStart at h
  obtain rfl := withUnit_next h
  clear h
  repeat' first
    | ((with_reducible apply subF_of); rfl)
    | (with_reducible apply subF.refl)
    | (with_reducible apply Chg.refl)
    | (with_reducible assumption)
    | (with_reducible apply Chg.step (chg_startEntry _ _))

theorem chg_execDrainWritePerformed {s t : State} {a b} (h : execDrainWritePerformed a b s = .next t) : Chg [.free, .out, .mem, .poison, .cores, .launches, .dies, .chans] s t := by
  unfold execDrainWritePerformed at h
  obtain rfl := withUnit_next h
  clear h
  repeat' first
    | ((with_reducible apply subF_of); rfl)
    | (with_reducible apply subF.refl)
    | (with_reducible apply Chg.refl)
    | (with_reducible assumption)
    | (with_reducible apply Chg.step (chg_performDrain _ _ _))

theorem chg_execMxOwnershipEnd {s t : State} {a} (h : execMxOwnershipEnd a s = .next t) : Chg [.free, .regs, .cores, .dbg] s t := by
  unfold execMxOwnershipEnd at h
  obtain rfl := withUnit_next h
  clear h
  repeat' first
    | ((with_reducible apply subF_of); rfl)
    | (with_reducible apply subF.refl)
    | (with_reducible apply Chg.refl)
    | (with_reducible assumption)
    | (with_reducible apply Chg.step (chg_endOwnership _ _))

theorem chg_execMxNest {s t : State} {a b} (h : execMxNest a b s = .next t) : Chg [.free, .out, .regs, .cores, .launches, .parts, .dies, .chans] s t := by
  unfold execMxNest at h
  obtain rfl := withWord_next h
  exact chg_inTurn (chg_rowMxNest _ _ _) rfl

theorem chg_execNestOpStart {s t : State} {a} (h : execNestOpStart a s = .next t) : Chg [.free, .regs, .cores, .launches, .parts] s t := by
  unfold execNestOpStart at h
  obtain rfl := withUnit_next h
  clear h
  repeat' first
    | ((with_reducible apply subF_of); rfl)
    | (with_reducible apply subF.refl)
    | (with_reducible apply Chg.refl)
    | (with_reducible assumption)
    | (with_reducible apply Chg.step (chg_nestOp _ _))

theorem chg_execNestEnd {s t : State} {a} (h : execNestEnd a s = .next t) : Chg [.cores] s t := by
  unfold execNestEnd at h
  obtain rfl := withUnit_next h
  clear h
  repeat' first
    | ((with_reducible apply subF_of); rfl)
    | (with_reducible apply subF.refl)
    | (with_reducible apply Chg.refl)
    | (with_reducible assumption)
    | (with_reducible apply Chg.step (chg_endNest _ _))

theorem chg_execGroupEnterActive {s t : State} {a b} (h : execGroupEnterActive a b s = .next t) : Chg [.cores] s t := by
  unfold execGroupEnterActive at h
  obtain rfl := withUnit_next h
  clear h
  repeat' first
    | ((with_reducible apply subF_of); rfl)
    | (with_reducible apply subF.refl)
    | (with_reducible apply Chg.refl)
    | (with_reducible assumption)
    | (with_reducible apply Chg.step (chg_enterActive _ _ _))

theorem chg_execActiveSetRotation {s t : State} {a b} (h : execActiveSetRotation a b s = .next t) : Chg [.cores] s t := by
  unfold execActiveSetRotation at h
  obtain rfl := withUnit_next h
  clear h
  repeat' first
    | ((with_reducible apply subF_of); rfl)
    | (with_reducible apply subF.refl)
    | (with_reducible apply Chg.refl)
    | (with_reducible assumption)
    | (with_reducible apply Chg.step (chg_rotate _ _ _))

theorem chg_execBlockPlace {s t : State} {a} (h : execBlockPlace a s = .next t) : Chg [.free, .regs, .cores, .launches, .parts, .dbg] s t := by
  unfold execBlockPlace at h
  obtain rfl := next_inj h
  clear h
  repeat' first
    | ((with_reducible apply subF_of); rfl)
    | (with_reducible apply subF.refl)
    | (with_reducible apply Chg.refl)
    | (with_reducible assumption)
    | (with_reducible apply Chg.step (chg_takeItem _ _ _))
    | (with_reducible (apply Chg.step (chg_placeNext ?e)); case e => assumption)
    | (with_reducible apply Chg.foldl)
    | (with_reducible apply Chg.orElse_getD)
    | (with_reducible apply Chg.getD)
    | (with_reducible apply Chg.foldl_snd)
    | intro _
    | split
    | dsimp only
    | contradiction
    | (rename_i hx; split at hx)

theorem chg_execSplitChange {s t : State} {a b} (h : execSplitChange a b s = .next t) : Chg [.cores] s t := by
  unfold execSplitChange at h
  obtain rfl := withUnit_next h
  clear h
  repeat' first
    | ((with_reducible apply subF_of); rfl)
    | (with_reducible apply subF.refl)
    | (with_reducible apply Chg.refl)
    | (with_reducible assumption)
    | (with_reducible apply Chg.step (chg_changeSplit _ _ _))

theorem chg_execThiefStart {s t : State} {a} (h : execThiefStart a s = .next t) : Chg [.free, .regs, .cores, .launches, .dbg] s t := by
  unfold execThiefStart at h
  obtain rfl := next_inj h
  clear h
  split
  · exact Chg.refl _ _
  · split
    · refine Chg.orElse_getD (fun v k => (chg_thief k).mono (subF_of rfl)) (fun v k => ?_) (Chg.refl _ _)
      split at k
      · exact (chg_thief k).mono (subF_of rfl)
      · contradiction
    · exact Chg.refl _ _

theorem chg_execKillComplete {s t : State} {a} (h : execKillComplete a s = .next t) : Chg [.free, .regs, .poison, .cores, .launches, .queues, .parts, .dies, .copies, .dbg] s t := by
  unfold execKillComplete at h
  obtain rfl := next_inj h
  clear h
  repeat' first
    | ((with_reducible apply subF_of); rfl)
    | (with_reducible apply subF.refl)
    | (with_reducible apply Chg.refl)
    | (with_reducible assumption)
    | (with_reducible apply Chg.step (chg_killComplete _ _))

theorem chg_execWatchGrant {s t : State} {a} (h : execWatchGrant a s = .next t) : Chg [.queues] s t := by
  unfold execWatchGrant at h
  obtain rfl := withUnit_next h
  clear h
  repeat' first
    | ((with_reducible apply subF_of); rfl)
    | (with_reducible apply subF.refl)
    | (with_reducible apply Chg.refl)
    | (with_reducible assumption)
    | (with_reducible apply Chg.step (chg_grantWatch _ _))

theorem chg_execWatchRelease {s t : State} {a b} (h : execWatchRelease a b s = .next t) : Chg [.queues] s t := by
  unfold execWatchRelease at h
  obtain rfl := withUnit_next h
  clear h
  repeat' first
    | ((with_reducible apply subF_of); rfl)
    | (with_reducible apply subF.refl)
    | (with_reducible apply Chg.refl)
    | (with_reducible assumption)
    | (with_reducible apply Chg.step (chg_releaseWatch _ _))

theorem chg_execWatchExpiry {s t : State} {a b} (h : execWatchExpiry a b s = .next t) : Chg [.regs, .poison, .launches, .queues, .parts, .dies, .copies, .dbg] s t := by
  unfold execWatchExpiry at h
  obtain rfl := withUnit_next h
  clear h
  repeat' first
    | ((with_reducible apply subF_of); rfl)
    | (with_reducible apply subF.refl)
    | (with_reducible apply Chg.refl)
    | (with_reducible assumption)
    | (with_reducible apply Chg.step (chg_expireWatch _ _))

theorem chg_execRtQueueActive {s t : State} {a b} (h : execRtQueueActive a b s = .next t) : Chg [.regs, .poison, .launches, .queues, .parts, .dies, .copies, .dbg] s t := by
  unfold execRtQueueActive at h
  obtain rfl := withUnit_next h
  clear h
  repeat' first
    | ((with_reducible apply subF_of); rfl)
    | (with_reducible apply subF.refl)
    | (with_reducible apply Chg.refl)
    | (with_reducible assumption)
    | (with_reducible apply Chg.step (chg_rtBecomesActive _ _ _))

theorem chg_execDbTailWrite {s t : State} {a b c} (h : execDbTailWrite a b c s = .next t) : Chg [.out, .regs, .queues, .parts, .host] s t := by
  unfold execDbTailWrite at h
  obtain rfl := withUnit_next h
  clear h
  repeat' first
    | ((with_reducible apply subF_of); rfl)
    | (with_reducible apply subF.refl)
    | (with_reducible apply Chg.refl)
    | (with_reducible assumption)
    | (with_reducible apply Chg.step (chg_doorbell _ _ _))
    | (with_reducible apply Chg.step (chg_noteWants _ _))
    | (with_reducible apply chg_vfStores)
    | (with_reducible apply Chg.foldl)
    | (with_reducible apply Chg.orElse_getD)
    | (with_reducible apply Chg.getD)
    | (with_reducible apply Chg.foldl_snd)
    | intro _
    | split
    | dsimp only
    | ((with_reducible refine Chg.mk rfl ?_ rfl rfl rfl rfl ?_); · (intro x hx; cases x <;> first | rfl | exact ⟨rfl, rfl⟩ | exact absurd (by decide) hx))

theorem chg_execVfQcfgWrite {s t : State} {a b} (h : execVfQcfgWrite a b s = .next t) : Chg [.out, .regs, .queues, .parts, .host] s t := by
  unfold execVfQcfgWrite at h
  obtain rfl := withUnit_next h
  clear h
  repeat' first
    | ((with_reducible apply subF_of); rfl)
    | (with_reducible apply subF.refl)
    | (with_reducible apply Chg.refl)
    | (with_reducible assumption)
    | (with_reducible apply Chg.step (chg_configure _ _ _))
    | (with_reducible apply Chg.step (chg_noteWants _ _))
    | (with_reducible apply chg_vfStores)
    | (with_reducible apply Chg.foldl)
    | (with_reducible apply Chg.orElse_getD)
    | (with_reducible apply Chg.getD)
    | (with_reducible apply Chg.foldl_snd)
    | intro _
    | split
    | dsimp only
    | ((with_reducible refine Chg.mk rfl ?_ rfl rfl rfl rfl ?_); · (intro x hx; cases x <;> first | rfl | exact ⟨rfl, rfl⟩ | exact absurd (by decide) hx))

theorem chg_execQcmdResume {s t : State} {a} (h : execQcmdResume a s = .next t) : Chg [.out, .regs, .queues, .parts, .host] s t := by
  unfold execQcmdResume at h
  obtain rfl := withUnit_next h
  clear h
  repeat' first
    | ((with_reducible apply subF_of); rfl)
    | (with_reducible apply subF.refl)
    | (with_reducible apply Chg.refl)
    | (with_reducible assumption)
    | (with_reducible apply Chg.step (chg_modQueue _ _ _))
    | (with_reducible apply Chg.step (chg_noteWants _ _))
    | (with_reducible apply chg_vfStores)
    | (with_reducible apply Chg.foldl)
    | (with_reducible apply Chg.orElse_getD)
    | (with_reducible apply Chg.getD)
    | (with_reducible apply Chg.foldl_snd)
    | intro _
    | split
    | dsimp only
    | ((with_reducible refine Chg.mk rfl ?_ rfl rfl rfl rfl ?_); · (intro x hx; cases x <;> first | rfl | exact ⟨rfl, rfl⟩ | exact absurd (by decide) hx))

theorem chg_execQcmdClrfail {s t : State} {a} (h : execQcmdClrfail a s = .next t) : Chg [.out, .regs, .queues, .parts, .host] s t := by
  unfold execQcmdClrfail at h
  obtain rfl := withUnit_next h
  clear h
  repeat' first
    | ((with_reducible apply subF_of); rfl)
    | (with_reducible apply subF.refl)
    | (with_reducible apply Chg.refl)
    | (with_reducible assumption)
    | (with_reducible apply Chg.step (chg_modQueue _ _ _))
    | (with_reducible apply Chg.step (chg_noteWants _ _))
    | (with_reducible apply chg_vfStores)
    | (with_reducible apply Chg.foldl)
    | (with_reducible apply Chg.orElse_getD)
    | (with_reducible apply Chg.getD)
    | (with_reducible apply Chg.foldl_snd)
    | intro _
    | split
    | dsimp only
    | ((with_reducible refine Chg.mk rfl ?_ rfl rfl rfl rfl ?_); · (intro x hx; cases x <;> first | rfl | exact ⟨rfl, rfl⟩ | exact absurd (by decide) hx))

theorem chg_execQcmdReset {s t : State} {a} (h : execQcmdReset a s = .next t) : Chg [.out, .regs, .poison, .launches, .queues, .parts, .dies, .copies, .host, .dbg] s t := by
  unfold execQcmdReset at h
  obtain rfl := withUnit_next h
  clear h
  repeat' first
    | ((with_reducible apply subF_of); rfl)
    | (with_reducible apply subF.refl)
    | (with_reducible apply Chg.refl)
    | (with_reducible assumption)
    | (with_reducible apply Chg.step (chg_beginQueueReset _ _))
    | (with_reducible apply chg_vfStores)
    | (with_reducible apply Chg.foldl)
    | (with_reducible apply Chg.orElse_getD)
    | (with_reducible apply Chg.getD)
    | (with_reducible apply Chg.foldl_snd)
    | intro _
    | split
    | dsimp only
    | ((with_reducible refine Chg.mk rfl ?_ rfl rfl rfl rfl ?_); · (intro x hx; cases x <;> first | rfl | exact ⟨rfl, rfl⟩ | exact absurd (by decide) hx))

theorem chg_execQueueResetEnd {s t : State} {a b} (h : execQueueResetEnd a b s = .next t) : Chg [.queues, .dies] s t := by
  unfold execQueueResetEnd at h
  obtain rfl := withUnit_next h
  clear h
  repeat' first
    | ((with_reducible apply subF_of); rfl)
    | (with_reducible apply subF.refl)
    | (with_reducible apply Chg.refl)
    | (with_reducible assumption)
    | (with_reducible apply Chg.step (chg_endQueueReset _ _))

theorem chg_execPreload {s t : State} {a b} (h : execPreload a b s = .next t) : Chg [.free, .out, .cores, .parts, .dies] s t := by
  unfold execPreload at h
  obtain rfl := withUnit_next h
  exact Chg.getD (fun _ k => chg_preloadNext k) (Chg.refl _ _)

theorem chg_execLaunchIssue {s t : State} {a b} (h : execLaunchIssue a b s = .next t) : Chg [.free, .out, .regs, .mem, .poison, .cores, .launches, .nextLaunch, .queues, .parts, .dies, .chans, .copies, .host, .dbg] s t := by
  unfold execLaunchIssue at h
  obtain rfl := withUnit_next h
  clear h
  repeat' first
    | ((with_reducible apply subF_of); rfl)
    | (with_reducible apply subF.refl)
    | (with_reducible apply Chg.refl)
    | (with_reducible assumption)
    | (with_reducible apply Chg.step (chg_noteWants _ _))
    | (with_reducible apply Chg.step (chg_tookTurn _ _))
    | (with_reducible (apply Chg.step (chg_issueNext ?e)); case e => assumption)
    | (with_reducible apply Chg.foldl)
    | (with_reducible apply Chg.orElse_getD)
    | (with_reducible apply Chg.getD)
    | (with_reducible apply Chg.foldl_snd)
    | intro _
    | split
    | dsimp only
    | ((with_reducible refine Chg.mk rfl ?_ rfl rfl rfl rfl ?_); · (intro x hx; cases x <;> first | rfl | exact ⟨rfl, rfl⟩ | exact absurd (by decide) hx))

theorem chg_execEventWaitEvaluate {s t : State} {a} (h : execEventWaitEvaluate a s = .next t) : Chg [.launches] s t := by
  unfold execEventWaitEvaluate at h
  obtain rfl := next_inj h
  clear h
  repeat' first
    | ((with_reducible apply subF_of); rfl)
    | (with_reducible apply subF.refl)
    | (with_reducible apply Chg.refl)
    | (with_reducible assumption)
    | (with_reducible apply Chg.step (chg_evalWait _ _))
    | (with_reducible apply Chg.foldl)
    | (with_reducible apply Chg.orElse_getD)
    | (with_reducible apply Chg.getD)
    | (with_reducible apply Chg.foldl_snd)
    | intro _
    | split

theorem chg_execEventWaitTimeout {s t : State} {a} (h : execEventWaitTimeout a s = .next t) : Chg [.launches] s t := by
  unfold execEventWaitTimeout at h
  obtain rfl := next_inj h
  clear h
  repeat' first
    | ((with_reducible apply subF_of); rfl)
    | (with_reducible apply subF.refl)
    | (with_reducible apply Chg.refl)
    | (with_reducible assumption)
    | (with_reducible apply Chg.step (chg_evalWait _ _))
    | (with_reducible apply Chg.step (chg_finish _ _ _))
    | (with_reducible apply Chg.foldl)
    | (with_reducible apply Chg.orElse_getD)
    | (with_reducible apply Chg.getD)
    | (with_reducible apply Chg.foldl_snd)
    | intro _
    | split
    | dsimp only

theorem chg_execWatchSlotPoll {s t : State} {a} (h : execWatchSlotPoll a s = .next t) : Chg [.launches] s t := by
  unfold execWatchSlotPoll at h
  obtain rfl := next_inj h
  clear h
  repeat' first
    | ((with_reducible apply subF_of); rfl)
    | (with_reducible apply subF.refl)
    | (with_reducible apply Chg.refl)
    | (with_reducible assumption)
    | (with_reducible apply Chg.step (chg_evalWait _ _))
    | (with_reducible apply Chg.step (chg_modLaunch _ _ _))
    | (with_reducible apply Chg.foldl)
    | (with_reducible apply Chg.orElse_getD)
    | (with_reducible apply Chg.getD)
    | (with_reducible apply Chg.foldl_snd)
    | intro _
    | split

theorem chg_execSemAcquireTimeout {s t : State} {a} (h : execSemAcquireTimeout a s = .next t) : Chg [.launches, .parts] s t := by
  unfold execSemAcquireTimeout at h
  obtain rfl := next_inj h
  clear h
  repeat' first
    | ((with_reducible apply subF_of); rfl)
    | (with_reducible apply subF.refl)
    | (with_reducible apply Chg.refl)
    | (with_reducible assumption)
    | (with_reducible apply Chg.step (chg_finish _ _ _))
    | (with_reducible apply Chg.step (chg_semQuit _ _ _))
    | (with_reducible apply Chg.foldl)
    | (with_reducible apply Chg.orElse_getD)
    | (with_reducible apply Chg.getD)
    | (with_reducible apply Chg.foldl_snd)
    | intro _
    | split

theorem chg_execSemaSlimitTimeout {s t : State} {a} (h : execSemaSlimitTimeout a s = .next t) : Chg [.launches, .queues, .parts] s t := by
  unfold execSemaSlimitTimeout at h
  obtain rfl := next_inj h
  clear h
  repeat' first
    | ((with_reducible apply subF_of); rfl)
    | (with_reducible apply subF.refl)
    | (with_reducible apply Chg.refl)
    | (with_reducible assumption)
    | (with_reducible apply Chg.step (chg_advance _ _))
    | (with_reducible apply Chg.step (chg_finish _ _ _))
    | (with_reducible apply Chg.step (chg_semQuit _ _ _))
    | (with_reducible apply Chg.foldl)
    | (with_reducible apply Chg.orElse_getD)
    | (with_reducible apply Chg.getD)
    | (with_reducible apply Chg.foldl_snd)
    | intro _
    | split

theorem chg_execLaunchTlimitTimeout {s t : State} {a} (h : execLaunchTlimitTimeout a s = .next t) : Chg [.launches] s t := by
  unfold execLaunchTlimitTimeout at h
  obtain rfl := next_inj h
  clear h
  repeat' first
    | ((with_reducible apply subF_of); rfl)
    | (with_reducible apply subF.refl)
    | (with_reducible apply Chg.refl)
    | (with_reducible assumption)
    | (with_reducible apply Chg.step (chg_failLaunch _ _ _))
    | (with_reducible apply Chg.foldl)
    | (with_reducible apply Chg.orElse_getD)
    | (with_reducible apply Chg.getD)
    | (with_reducible apply Chg.foldl_snd)
    | intro _
    | split

theorem chg_execLaunchComplete {s t : State} {a} (h : execLaunchComplete a s = .next t) : Chg [.free, .out, .regs, .mem, .poison, .cores, .launches, .queues, .parts, .dies, .chans, .copies, .links, .host, .dbg] s t := by
  unfold execLaunchComplete at h
  obtain rfl := next_inj h
  clear h
  repeat' first
    | ((with_reducible apply subF_of); rfl)
    | (with_reducible apply subF.refl)
    | (with_reducible apply Chg.refl)
    | (with_reducible assumption)
    | (with_reducible apply Chg.step (chg_complete _ _))
    | (with_reducible apply Chg.foldl)
    | (with_reducible apply Chg.orElse_getD)
    | (with_reducible apply Chg.getD)
    | (with_reducible apply Chg.foldl_snd)
    | intro _
    | split
    | dsimp only
    | ((with_reducible refine Chg.mk rfl ?_ rfl rfl rfl rfl ?_); · (intro x hx; cases x <;> first | rfl | exact ⟨rfl, rfl⟩ | exact absurd (by decide) hx))

end Sys2Proof.Machine
end

