-- ==== Sys2Proof/Laws/ChgExec3.lean ====
section
/-! SUPPORT. What each meaning may change, part 3. -/

namespace Sys2Proof.Machine

theorem chg_execCommitContextTake {s t : State} {a} (h : execCommitContextTake a s = .next t) : Chg [.regs, .launches, .dies, .dbg] s t := by
  unfold execCommitContextTake at h
  obtain rfl := withUnit_next h
  clear h
  repeat' first
    | ((with_reducible apply subF_of); rfl)
    | (with_reducible apply subF.refl)
    | (with_reducible apply Chg.refl)
    | (with_reducible assumption)
    | (with_reducible apply Chg.step (chg_takeContext _ _))

theorem chg_execCommitSettleEnd {s t : State} {a} (h : execCommitSettleEnd a s = .next t) : Chg [.regs, .launches, .log] s t := by
  unfold execCommitSettleEnd at h
  obtain rfl := next_inj h
  clear h
  repeat' first
    | ((with_reducible apply subF_of); rfl)
    | (with_reducible apply subF.refl)
    | (with_reducible apply Chg.refl)
    | (with_reducible assumption)
    | (with_reducible apply Chg.step (chg_endSettle _ _))

theorem chg_execSettleLimitExpiry {s t : State} {a} (h : execSettleLimitExpiry a s = .next t) : Chg [.regs, .launches, .log] s t := by
  unfold execSettleLimitExpiry at h
  obtain rfl := next_inj h
  clear h
  repeat' first
    | ((with_reducible apply subF_of); rfl)
    | (with_reducible apply subF.refl)
    | (with_reducible apply Chg.refl)
    | (with_reducible assumption)
    | (with_reducible apply Chg.step (chg_limitSettle _ _))
    | (with_reducible apply Chg.foldl)
    | (with_reducible apply Chg.orElse_getD)
    | (with_reducible apply Chg.getD)
    | (with_reducible apply Chg.foldl_snd)
    | intro _
    | split
    | dsimp only
    | ((with_reducible refine Chg.mk rfl ?_ rfl rfl rfl rfl ?_); · (intro x hx; cases x <;> first | rfl | exact ⟨rfl, rfl⟩ | exact absurd (by decide) hx))

theorem chg_execCommitEntrySend {s t : State} {a} (h : execCommitEntrySend a s = .next t) : Chg [.free, .out, .regs, .mem, .poison, .cores, .launches, .parts, .dies, .chans, .links, .log] s t := by
  unfold execCommitEntrySend at h
  obtain rfl := withUnit_next h
  clear h
  repeat' first
    | ((with_reducible apply subF_of); rfl)
    | (with_reducible apply subF.refl)
    | (with_reducible apply Chg.refl)
    | (with_reducible assumption)
    | (with_reducible apply Chg.step (chg_sendEntry _ _))

theorem chg_execCommitEntryAck {s t : State} {a b c} (h : execCommitEntryAck a b c s = .next t) : Chg [.regs, .launches, .log] s t := by
  unfold execCommitEntryAck at h
  obtain rfl := next_inj h
  clear h
  repeat' first
    | ((with_reducible apply subF_of); rfl)
    | (with_reducible apply subF.refl)
    | (with_reducible apply Chg.refl)
    | (with_reducible assumption)
    | (with_reducible apply Chg.step (chg_ackEntry _ _ _ _))

theorem chg_execCommitPerformLimit {s t : State} {a} (h : execCommitPerformLimit a s = .next t) : Chg [.regs, .launches, .log] s t := by
  unfold execCommitPerformLimit at h
  obtain rfl := next_inj h
  clear h
  repeat' first
    | ((with_reducible apply subF_of); rfl)
    | (with_reducible apply subF.refl)
    | (with_reducible apply Chg.refl)
    | (with_reducible assumption)
    | (with_reducible apply Chg.step (chg_cqRefused _ _ _))
    | (with_reducible apply Chg.foldl)
    | (with_reducible apply Chg.orElse_getD)
    | (with_reducible apply Chg.getD)
    | (with_reducible apply Chg.foldl_snd)
    | intro _
    | split

theorem chg_execRouteRecord {s t : State} {a b} (h : execRouteRecord a b s = .next t) : Chg [.free, .out, .regs, .parts, .host] s t := by
  unfold execRouteRecord at h
  obtain rfl := withUnit_next h
  clear h
  repeat' first
    | ((with_reducible apply subF_of); rfl)
    | (with_reducible apply subF.refl)
    | (with_reducible apply Chg.refl)
    | (with_reducible assumption)
    | (with_reducible apply Chg.step (chg_recordCmd _ _ _ _))
    | (with_reducible (apply Chg.step (Chg.snd (chg_recordCmd _ _ _ _) ?e)); case e => assumption)
    | (with_reducible apply chg_vfStores)
    | (with_reducible apply chg_routeCommand)
    | (with_reducible apply Chg.foldl)
    | (with_reducible apply Chg.orElse_getD)
    | (with_reducible apply Chg.getD)
    | (with_reducible apply Chg.foldl_snd)
    | intro _
    | split
    | dsimp only
    | ((with_reducible refine Chg.mk rfl ?_ rfl rfl rfl rfl ?_); · (intro x hx; cases x <;> first | rfl | exact ⟨rfl, rfl⟩ | exact absurd (by decide) hx))

theorem chg_execRoutePatch {s t : State} {a b c} (h : execRoutePatch a b c s = .next t) : Chg [.free, .out, .regs, .parts, .host] s t := by
  unfold execRoutePatch at h
  obtain rfl := withUnit_next h
  clear h
  repeat' first
    | ((with_reducible apply subF_of); rfl)
    | (with_reducible apply subF.refl)
    | (with_reducible apply Chg.refl)
    | (with_reducible assumption)
    | (with_reducible apply Chg.step (chg_patchCmd _ _ _ _ _))
    | (with_reducible (apply Chg.step (Chg.snd (chg_patchCmd _ _ _ _ _) ?e)); case e => assumption)
    | (with_reducible apply chg_vfStores)
    | (with_reducible apply chg_routeCommand)
    | (with_reducible apply Chg.foldl)
    | (with_reducible apply Chg.orElse_getD)
    | (with_reducible apply Chg.getD)
    | (with_reducible apply Chg.foldl_snd)
    | intro _
    | split
    | dsimp only
    | ((with_reducible refine Chg.mk rfl ?_ rfl rfl rfl rfl ?_); · (intro x hx; cases x <;> first | rfl | exact ⟨rfl, rfl⟩ | exact absurd (by decide) hx))

theorem chg_execRouteDelete {s t : State} {a b} (h : execRouteDelete a b s = .next t) : Chg [.out, .regs, .parts, .host] s t := by
  unfold execRouteDelete at h
  obtain rfl := withUnit_next h
  clear h
  repeat' first
    | ((with_reducible apply subF_of); rfl)
    | (with_reducible apply subF.refl)
    | (with_reducible apply Chg.refl)
    | (with_reducible assumption)
    | (with_reducible apply Chg.step (chg_deleteCmd _ _ _))
    | (with_reducible (apply Chg.step (Chg.snd (chg_deleteCmd _ _ _) ?e)); case e => assumption)
    | (with_reducible apply chg_vfStores)
    | (with_reducible apply chg_routeCommand)
    | (with_reducible apply Chg.foldl)
    | (with_reducible apply Chg.orElse_getD)
    | (with_reducible apply Chg.getD)
    | (with_reducible apply Chg.foldl_snd)
    | intro _
    | split
    | dsimp only
    | ((with_reducible refine Chg.mk rfl ?_ rfl rfl rfl rfl ?_); · (intro x hx; cases x <;> first | rfl | exact ⟨rfl, rfl⟩ | exact absurd (by decide) hx))

theorem chg_execRouteCmdComplete {s t : State} {a} (h : execRouteCmdComplete a s = .next t) : Chg [.out, .regs, .parts, .host] s t := by
  unfold execRouteCmdComplete at h
  obtain rfl := withUnit_next h
  clear h
  repeat' first
    | ((with_reducible apply subF_of); rfl)
    | (with_reducible apply subF.refl)
    | (with_reducible apply Chg.refl)
    | (with_reducible assumption)
    | (with_reducible apply Chg.step (chg_endRouteCmd _ _))

theorem chg_execPartRstWrite {s t : State} {a} (h : execPartRstWrite a s = .next t) : Chg [.out, .regs, .parts, .host, .log] s t := by
  unfold execPartRstWrite at h
  obtain rfl := withUnit_next h
  clear h
  repeat' first
    | ((with_reducible apply subF_of); rfl)
    | (with_reducible apply subF.refl)
    | (with_reducible apply Chg.refl)
    | (with_reducible assumption)
    | (with_reducible apply Chg.step (chg_beginReset _ _ _))
    | (with_reducible apply chg_pfStores)
    | (with_reducible apply Chg.foldl)
    | (with_reducible apply Chg.orElse_getD)
    | (with_reducible apply Chg.getD)
    | (with_reducible apply Chg.foldl_snd)
    | intro _
    | split
    | dsimp only
    | ((with_reducible refine Chg.mk rfl ?_ rfl rfl rfl rfl ?_); · (intro x hx; cases x <;> first | rfl | exact ⟨rfl, rfl⟩ | exact absurd (by decide) hx))

theorem chg_execPartResetEpoch {s t : State} {a} (h : execPartResetEpoch a s = .next t) : Chg [.free, .regs, .cores, .launches, .parts, .dies, .copies, .links, .dbg, .log] s t := by
  unfold execPartResetEpoch at h
  obtain rfl := withUnit_next h
  clear h
  repeat' first
    | ((with_reducible apply subF_of); rfl)
    | (with_reducible apply subF.refl)
    | (with_reducible apply Chg.refl)
    | (with_reducible assumption)
    | (with_reducible apply Chg.step (chg_resetEpoch _ _))

theorem chg_execPartResetSettle {s t : State} {a} (h : execPartResetSettle a s = .next t) : Chg [.free, .out, .regs, .mem, .poison, .cores, .launches, .queues, .parts, .dies, .chans, .copies, .links, .host, .dbg] s t := by
  unfold execPartResetSettle at h
  obtain rfl := withUnit_next h
  clear h
  repeat' first
    | ((with_reducible apply subF_of); rfl)
    | (with_reducible apply subF.refl)
    | (with_reducible apply Chg.refl)
    | (with_reducible assumption)
    | (with_reducible apply Chg.step (chg_resetSettle _ _))

theorem chg_execPartResetEnd {s t : State} {a} (h : execPartResetEnd a s = .next t) : Chg [.free, .out, .regs, .mem, .memEpoch, .poison, .cores, .queues, .parts, .dies, .chans, .chart, .host, .sec, .dbg, .log] s t := by
  unfold execPartResetEnd at h
  obtain rfl := withUnit_next h
  clear h
  repeat' first
    | ((with_reducible apply subF_of); rfl)
    | (with_reducible apply subF.refl)
    | (with_reducible apply Chg.refl)
    | (with_reducible assumption)
    | (with_reducible apply Chg.step (chg_finishReset _ _))
    | (with_reducible apply Chg.foldl)
    | (with_reducible apply Chg.orElse_getD)
    | (with_reducible apply Chg.getD)
    | (with_reducible apply Chg.foldl_snd)
    | intro _
    | split
    | dsimp only
    | ((with_reducible refine Chg.mk rfl ?_ rfl rfl rfl rfl ?_); · (intro x hx; cases x <;> first | rfl | exact ⟨rfl, rfl⟩ | exact absurd (by decide) hx))

theorem chg_execChartLoad {s t : State} {a} (h : execChartLoad a s = .next t) : Chg [.out, .regs, .host] s t := by
  unfold execChartLoad at h
  obtain rfl := next_inj h
  clear h
  repeat' first
    | ((with_reducible apply subF_of); rfl)
    | (with_reducible apply subF.refl)
    | (with_reducible apply Chg.refl)
    | (with_reducible assumption)
    | (with_reducible apply Chg.step (chg_emit _ _))
    | (with_reducible apply Chg.step (chg_setBit _ _ _ _))
    | (with_reducible apply chg_chartCmd)
    | (with_reducible apply Chg.foldl)
    | (with_reducible apply Chg.orElse_getD)
    | (with_reducible apply Chg.getD)
    | (with_reducible apply Chg.foldl_snd)
    | intro _
    | split
    | dsimp only
    | ((with_reducible refine Chg.mk rfl ?_ rfl rfl rfl rfl ?_); · (intro x hx; cases x <;> first | rfl | exact ⟨rfl, rfl⟩ | exact absurd (by decide) hx))

theorem chg_execChartLoadComplete {s t : State} {a} (h : execChartLoadComplete a s = .next t) : Chg [.free, .out, .regs, .mem, .memEpoch, .poison, .cores, .queues, .parts, .dies, .chans, .links, .chart, .host, .sec, .boot, .dbg, .log] s t := by
  unfold execChartLoadComplete at h
  obtain rfl := next_inj h
  clear h
  repeat' first
    | ((with_reducible apply subF_of); rfl)
    | (with_reducible apply subF.refl)
    | (with_reducible apply Chg.refl)
    | (with_reducible assumption)
    | (with_reducible apply Chg.step (chg_applyReady _))
    | (with_reducible apply Chg.step (chg_applyStart _))
    | (with_reducible apply Chg.step (chg_loadDone _ _))
    | (with_reducible apply Chg.foldl)
    | (with_reducible apply Chg.orElse_getD)
    | (with_reducible apply Chg.getD)
    | (with_reducible apply Chg.foldl_snd)
    | intro _
    | split
    | dsimp only
    | ((with_reducible refine Chg.mk rfl ?_ rfl rfl rfl rfl ?_); · (intro x hx; cases x <;> first | rfl | exact ⟨rfl, rfl⟩ | exact absurd (by decide) hx))

theorem chg_execChartActivate {s t : State} {a} (h : execChartActivate a s = .next t) : Chg [.free, .out, .regs, .mem, .memEpoch, .poison, .cores, .parts, .dies, .chans, .chart, .host, .sec, .dbg, .log] s t := by
  unfold execChartActivate at h
  obtain rfl := withUnit_next h
  clear h
  repeat' first
    | ((with_reducible apply subF_of); rfl)
    | (with_reducible apply subF.refl)
    | (with_reducible apply Chg.refl)
    | (with_reducible assumption)
    | (with_reducible apply Chg.step (chg_activate _ _))
    | (with_reducible apply Chg.step (chg_setFld _ _ _ _ _))
    | (with_reducible apply chg_chartCmd)
    | (with_reducible apply Chg.foldl)
    | (with_reducible apply Chg.orElse_getD)
    | (with_reducible apply Chg.getD)
    | (with_reducible apply Chg.foldl_snd)
    | intro _

theorem chg_execActivationComplete {s t : State} {a} (h : execActivationComplete a s = .next t) : Chg [.free, .out, .regs, .mem, .memEpoch, .poison, .cores, .parts, .dies, .chans, .chart, .host, .sec, .dbg, .log] s t := by
  unfold execActivationComplete at h
  obtain rfl := withUnit_next h
  clear h
  repeat' first
    | ((with_reducible apply subF_of); rfl)
    | (with_reducible apply subF.refl)
    | (with_reducible apply Chg.refl)
    | (with_reducible assumption)
    | (with_reducible apply Chg.step (chg_activated _ _))

theorem chg_execChartDiscard {s t : State} {a} (h : execChartDiscard a s = .next t) : Chg [.out, .regs, .parts, .host, .log] s t := by
  unfold execChartDiscard at h
  obtain rfl := withUnit_next h
  clear h
  repeat' first
    | ((with_reducible apply subF_of); rfl)
    | (with_reducible apply subF.refl)
    | (with_reducible apply Chg.refl)
    | (with_reducible assumption)
    | (with_reducible apply Chg.step (chg_chartResult _ _))
    | (with_reducible apply Chg.step (chg_modPart _ _ _))
    | (with_reducible apply Chg.step (chg_setBit _ _ _ _))
    | (with_reducible apply Chg.step (chg_setFld _ _ _ _ _))
    | (with_reducible apply chg_chartCmd)
    | (with_reducible apply Chg.foldl)
    | (with_reducible apply Chg.orElse_getD)
    | (with_reducible apply Chg.getD)
    | (with_reducible apply Chg.foldl_snd)
    | intro _
    | split
    | dsimp only

theorem chg_execBootChartLoad {s t : State} (h : execBootChartLoad s = .next t) : Chg [.free, .out, .regs, .mem, .memEpoch, .poison, .cores, .queues, .parts, .dies, .chans, .links, .chart, .host, .sec, .boot, .dbg] s t := by
  unfold execBootChartLoad at h
  obtain rfl := next_inj h
  clear h
  repeat' first
    | ((with_reducible apply subF_of); rfl)
    | (with_reducible apply subF.refl)
    | (with_reducible apply Chg.refl)
    | (with_reducible assumption)
    | (with_reducible apply Chg.step (chg_applyEnd _ _))
    | (with_reducible apply Chg.foldl)
    | (with_reducible apply Chg.orElse_getD)
    | (with_reducible apply Chg.getD)
    | (with_reducible apply Chg.foldl_snd)
    | intro _
    | split
    | dsimp only
    | ((with_reducible refine Chg.mk rfl ?_ rfl rfl rfl rfl ?_); · (intro x hx; cases x <;> first | rfl | exact ⟨rfl, rfl⟩ | exact absurd (by decide) hx))

theorem chg_execPartTlbinvWrite {s t : State} {a} (h : execPartTlbinvWrite a s = .next t) : Chg [.out, .regs, .cores, .parts, .host, .dbg, .log] s t := by
  unfold execPartTlbinvWrite at h
  obtain rfl := withUnit_next h
  clear h
  repeat' first
    | ((with_reducible apply subF_of); rfl)
    | (with_reducible apply subF.refl)
    | (with_reducible apply Chg.refl)
    | (with_reducible assumption)
    | (with_reducible apply Chg.step (chg_abortSweep _ _ _))
    | (with_reducible apply Chg.step (chg_logLocked _ _ _))
    | (with_reducible apply Chg.step (chg_markOld _ _))
    | (with_reducible apply Chg.step (chg_setBit _ _ _ _))
    | (with_reducible apply chg_pfStores)
    | (with_reducible apply Chg.foldl)
    | (with_reducible apply Chg.orElse_getD)
    | (with_reducible apply Chg.getD)
    | (with_reducible apply Chg.foldl_snd)
    | intro _
    | split
    | dsimp only
    | ((with_reducible refine Chg.mk rfl ?_ rfl rfl rfl rfl ?_); · (intro x hx; cases x <;> first | rfl | exact ⟨rfl, rfl⟩ | exact absurd (by decide) hx))

theorem chg_execTlbInvalidationDone {s t : State} {a} (h : execTlbInvalidationDone a s = .next t) : Chg [.regs, .launches, .parts] s t := by
  unfold execTlbInvalidationDone at h
  obtain rfl := withUnit_next h
  clear h
  repeat' first
    | ((with_reducible apply subF_of); rfl)
    | (with_reducible apply subF.refl)
    | (with_reducible apply Chg.refl)
    | (with_reducible assumption)
    | (with_reducible apply Chg.step (chg_modPart _ _ _))
    | (with_reducible apply Chg.step (chg_rebindWait _ _ _))
    | (with_reducible apply Chg.step (chg_setBit _ _ _ _))
    | (with_reducible apply Chg.foldl)
    | (with_reducible apply Chg.orElse_getD)
    | (with_reducible apply Chg.getD)
    | (with_reducible apply Chg.foldl_snd)
    | intro _
    | split
    | dsimp only
    | ((with_reducible refine Chg.mk rfl ?_ rfl rfl rfl rfl ?_); · (intro x hx; cases x <;> first | rfl | exact ⟨rfl, rfl⟩ | exact absurd (by decide) hx))

theorem chg_execL2CorrectableError {s t : State} {a b c} (h : execL2CorrectableError a b c s = .next t) : Chg [.regs, .dies] s t := by
  unfold execL2CorrectableError at h
  obtain rfl := withUnit_next h
  clear h
  repeat' first
    | ((with_reducible apply subF_of); rfl)
    | (with_reducible apply subF.refl)
    | (with_reducible apply Chg.refl)
    | (with_reducible assumption)
    | (with_reducible apply Chg.step (chg_countReg _ _ _))
    | (with_reducible apply Chg.step (chg_modDie _ _ _))
    | (with_reducible apply Chg.foldl)
    | (with_reducible apply Chg.orElse_getD)
    | (with_reducible apply Chg.getD)
    | (with_reducible apply Chg.foldl_snd)
    | intro _
    | split

theorem chg_execL2WayDisable {s t : State} {a b} (h : execL2WayDisable a b s = .next t) : Chg [.out, .regs, .parts, .dies, .chans, .chart, .host, .log] s t := by
  unfold execL2WayDisable at h
  obtain rfl := withUnit_next h
  clear h
  repeat' first
    | ((with_reducible apply subF_of); rfl)
    | (with_reducible apply subF.refl)
    | (with_reducible apply Chg.refl)
    | (with_reducible assumption)
    | (with_reducible apply Chg.step (chg_disableWay _ _ _))
    | (with_reducible apply Chg.foldl)
    | (with_reducible apply Chg.orElse_getD)
    | (with_reducible apply Chg.getD)
    | (with_reducible apply Chg.foldl_snd)
    | intro _
    | split

theorem chg_execL2UncorrectableError {s t : State} {a b} (h : execL2UncorrectableError a b s = .next t) : Chg [.free, .out, .regs, .poison, .cores, .launches, .parts, .dies, .chans, .chart, .host, .log] s t := by
  unfold execL2UncorrectableError at h
  obtain rfl := withUnit_next h
  clear h
  repeat' first
    | ((with_reducible apply subF_of); rfl)
    | (with_reducible apply subF.refl)
    | (with_reducible apply Chg.refl)
    | (with_reducible assumption)
    | (with_reducible apply Chg.step (chg_loseWay _ _ _))
    | (with_reducible apply Chg.foldl)
    | (with_reducible apply Chg.orElse_getD)
    | (with_reducible apply Chg.getD)
    | (with_reducible apply Chg.foldl_snd)
    | intro _
    | split
    | dsimp only
    | ((with_reducible refine Chg.mk rfl ?_ rfl rfl rfl rfl ?_); · (intro x hx; cases x <;> first | rfl | exact ⟨rfl, rfl⟩ | exact absurd (by decide) hx))

theorem chg_execHbmRequestServe {s t : State} {a b} (h : execHbmRequestServe a b s = .next t) : Chg [.free, .out, .regs, .mem, .poison, .cores, .launches, .dies, .chans, .links, .host] s t := by
  unfold execHbmRequestServe at h
  obtain rfl := withUnit_next h
  clear h
  repeat' first
    | ((with_reducible apply subF_of); rfl)
    | (with_reducible apply subF.refl)
    | (with_reducible apply Chg.refl)
    | (with_reducible assumption)
    | (with_reducible apply Chg.step (chg_payOwed _))
    | (with_reducible apply Chg.step (chg_serveHbm _ _ _))
    | (with_reducible apply Chg.foldl)
    | (with_reducible apply Chg.orElse_getD)
    | (with_reducible apply Chg.getD)
    | (with_reducible apply Chg.foldl_snd)
    | intro _
    | split
    | dsimp only
    | ((with_reducible refine Chg.mk rfl ?_ rfl rfl rfl rfl ?_); · (intro x hx; cases x <;> first | rfl | exact ⟨rfl, rfl⟩ | exact absurd (by decide) hx))

theorem chg_execLcrPeriodStart {s t : State} {a} (h : execLcrPeriodStart a s = .next t) : Chg [.chans] s t := by
  unfold execLcrPeriodStart at h
  obtain rfl := withUnit_next h
  clear h
  repeat' first
    | ((with_reducible apply subF_of); rfl)
    | (with_reducible apply subF.refl)
    | (with_reducible apply Chg.refl)
    | (with_reducible assumption)
    | (with_reducible apply Chg.step (chg_modChan _ _ _))
    | (with_reducible apply Chg.foldl)
    | (with_reducible apply Chg.orElse_getD)
    | (with_reducible apply Chg.getD)
    | (with_reducible apply Chg.foldl_snd)
    | intro _
    | split

theorem chg_execLcrCapReached {s t : State} {a} (h : execLcrCapReached a s = .next t) : Chg [.chans] s t := by
  unfold execLcrCapReached at h
  obtain rfl := withUnit_next h
  clear h
  repeat' first
    | ((with_reducible apply subF_of); rfl)
    | (with_reducible apply subF.refl)
    | (with_reducible apply Chg.refl)
    | (with_reducible assumption)
    | (with_reducible apply Chg.step (chg_modChan _ _ _))
    | (with_reducible apply Chg.foldl)
    | (with_reducible apply Chg.orElse_getD)
    | (with_reducible apply Chg.getD)
    | (with_reducible apply Chg.foldl_snd)
    | intro _
    | split

theorem chg_execStarvationPromote {s t : State} {a b} (h : execStarvationPromote a b s = .next t) : Chg [.chans] s t := by
  unfold execStarvationPromote at h
  obtain rfl := withUnit_next h
  clear h
  repeat' first
    | ((with_reducible apply subF_of); rfl)
    | (with_reducible apply subF.refl)
    | (with_reducible apply Chg.refl)
    | (with_reducible assumption)
    | (with_reducible apply Chg.step (chg_modChan _ _ _))
    | (with_reducible apply Chg.foldl)
    | (with_reducible apply Chg.orElse_getD)
    | (with_reducible apply Chg.getD)
    | (with_reducible apply Chg.foldl_snd)
    | intro _
    | split
    | dsimp only
    | ((with_reducible refine Chg.mk rfl ?_ rfl rfl rfl rfl ?_); · (intro x hx; cases x <;> first | rfl | exact ⟨rfl, rfl⟩ | exact absurd (by decide) hx))

theorem chg_execWriteQueueHigh {s t : State} {a} (h : execWriteQueueHigh a s = .next t) : Chg [.chans] s t := by
  unfold execWriteQueueHigh at h
  obtain rfl := withUnit_next h
  clear h
  repeat' first
    | ((with_reducible apply subF_of); rfl)
    | (with_reducible apply subF.refl)
    | (with_reducible apply Chg.refl)
    | (with_reducible assumption)
    | (with_reducible apply Chg.step (chg_modChan _ _ _))
    | (with_reducible apply Chg.foldl)
    | (with_reducible apply Chg.orElse_getD)
    | (with_reducible apply Chg.getD)
    | (with_reducible apply Chg.foldl_snd)
    | intro _
    | split

theorem chg_execWriteQueueLow {s t : State} {a} (h : execWriteQueueLow a s = .next t) : Chg [.chans] s t := by
  unfold execWriteQueueLow at h
  obtain rfl := withUnit_next h
  clear h
  repeat' first
    | ((with_reducible apply subF_of); rfl)
    | (with_reducible apply subF.refl)
    | (with_reducible apply Chg.refl)
    | (with_reducible assumption)
    | (with_reducible apply Chg.step (chg_modChan _ _ _))
    | (with_reducible apply Chg.foldl)
    | (with_reducible apply Chg.orElse_getD)
    | (with_reducible apply Chg.getD)
    | (with_reducible apply Chg.foldl_snd)
    | intro _
    | split

theorem chg_execHbmRefresh {s t : State} {a b} (h : execHbmRefresh a b s = .next t) : Chg [.chans] s t := by
  unfold execHbmRefresh at h
  obtain rfl := withUnit_next h
  clear h
  repeat' first
    | ((with_reducible apply subF_of); rfl)
    | (with_reducible apply subF.refl)
    | (with_reducible apply Chg.refl)
    | (with_reducible assumption)
    | (with_reducible apply Chg.step (chg_refresh _ _ _))
    | (with_reducible apply Chg.foldl)
    | (with_reducible apply Chg.orElse_getD)
    | (with_reducible apply Chg.getD)
    | (with_reducible apply Chg.foldl_snd)
    | intro _
    | split

theorem chg_execPatrolScrubRead {s t : State} {a b} (h : execPatrolScrubRead a b s = .next t) : Chg [.out, .regs, .poison, .cores, .launches, .chans, .host, .log] s t := by
  unfold execPatrolScrubRead at h
  obtain rfl := withUnit_next h
  clear h
  repeat' first
    | ((with_reducible apply subF_of); rfl)
    | (with_reducible apply subF.refl)
    | (with_reducible apply Chg.refl)
    | (with_reducible assumption)
    | (with_reducible apply Chg.step (chg_scrub _ _ _))
    | (with_reducible apply Chg.foldl)
    | (with_reducible apply Chg.orElse_getD)
    | (with_reducible apply Chg.getD)
    | (with_reducible apply Chg.foldl_snd)
    | intro _
    | split
    | dsimp only
    | ((with_reducible refine Chg.mk rfl ?_ rfl rfl rfl rfl ?_); · (intro x hx; cases x <;> first | rfl | exact ⟨rfl, rfl⟩ | exact absurd (by decide) hx))

theorem chg_execCalibrationDue {s t : State} {a} (h : execCalibrationDue a s = .next t) : Chg [.regs, .chans] s t := by
  unfold execCalibrationDue at h
  obtain rfl := withUnit_next h
  clear h
  repeat' first
    | ((with_reducible apply subF_of); rfl)
    | (with_reducible apply subF.refl)
    | (with_reducible apply Chg.refl)
    | (with_reducible assumption)
    | (with_reducible apply Chg.step (chg_setChan _ _ _))
    | (with_reducible apply Chg.step (chg_tryCalibrate _ _))
    | (with_reducible apply Chg.foldl)
    | (with_reducible apply Chg.orElse_getD)
    | (with_reducible apply Chg.getD)
    | (with_reducible apply Chg.foldl_snd)
    | intro _
    | split
    | dsimp only

theorem chg_execCalibrationForced {s t : State} {a} (h : execCalibrationForced a s = .next t) : Chg [.regs] s t := by
  unfold execCalibrationForced at h
  obtain rfl := withUnit_next h
  clear h
  repeat' first
    | ((with_reducible apply subF_of); rfl)
    | (with_reducible apply subF.refl)
    | (with_reducible apply Chg.refl)
    | (with_reducible assumption)
    | (with_reducible apply Chg.step (chg_setBit _ _ _ _))
    | (with_reducible apply Chg.foldl)
    | (with_reducible apply Chg.orElse_getD)
    | (with_reducible apply Chg.getD)
    | (with_reducible apply Chg.foldl_snd)
    | intro _
    | split

theorem chg_execCalibrationEnd {s t : State} {a} (h : execCalibrationEnd a s = .next t) : Chg [.regs, .chans] s t := by
  unfold execCalibrationEnd at h
  obtain rfl := withUnit_next h
  clear h
  repeat' first
    | ((with_reducible apply subF_of); rfl)
    | (with_reducible apply subF.refl)
    | (with_reducible apply Chg.refl)
    | (with_reducible assumption)
    | (with_reducible apply Chg.step (chg_modChan _ _ _))
    | (with_reducible apply Chg.step (chg_setBit _ _ _ _))
    | (with_reducible apply Chg.foldl)
    | (with_reducible apply Chg.orElse_getD)
    | (with_reducible apply Chg.getD)
    | (with_reducible apply Chg.foldl_snd)
    | intro _
    | split

theorem chg_execChannelRetire {s t : State} {a} (h : execChannelRetire a s = .next t) : Chg [.out, .regs, .cores, .launches, .dies, .chans, .chart, .host, .log] s t := by
  unfold execChannelRetire at h
  obtain rfl := withUnit_next h
  clear h
  repeat' first
    | ((with_reducible apply subF_of); rfl)
    | (with_reducible apply subF.refl)
    | (with_reducible apply Chg.refl)
    | (with_reducible assumption)
    | (with_reducible apply Chg.step (chg_retireChan _ _ _))
    | (with_reducible apply Chg.foldl)
    | (with_reducible apply Chg.orElse_getD)
    | (with_reducible apply Chg.getD)
    | (with_reducible apply Chg.foldl_snd)
    | intro _
    | split

theorem chg_execHbmTrainingLoss {s t : State} {a b} (h : execHbmTrainingLoss a b s = .next t) : Chg [.regs, .chans] s t := by
  unfold execHbmTrainingLoss at h
  obtain rfl := withUnit_next h
  clear h
  repeat' first
    | ((with_reducible apply subF_of); rfl)
    | (with_reducible apply subF.refl)
    | (with_reducible apply Chg.refl)
    | (with_reducible assumption)
    | (with_reducible apply Chg.step (chg_modChan _ _ _))
    | (with_reducible apply Chg.step (chg_setBit _ _ _ _))
    | (with_reducible apply Chg.foldl)
    | (with_reducible apply Chg.orElse_getD)
    | (with_reducible apply Chg.getD)
    | (with_reducible apply Chg.foldl_snd)
    | intro _
    | split

theorem chg_execHbmTgStart {s t : State} {a} (h : execHbmTgStart a s = .next t) : Chg [.free, .out, .regs, .chans, .host] s t := by
  unfold execHbmTgStart at h
  obtain rfl := withUnit_next h
  clear h
  repeat' first
    | ((with_reducible apply subF_of); rfl)
    | (with_reducible apply subF.refl)
    | (with_reducible apply Chg.refl)
    | (with_reducible assumption)
    | (with_reducible apply Chg.step (chg_modChan _ _ _))
    | (with_reducible apply Chg.step (chg_setBit _ _ _ _))
    | (with_reducible apply Chg.step (chg_setReg _ _ _))
    | (with_reducible apply Chg.step (chg_setReg64 _ _ _))
    | (with_reducible apply Chg.step (chg_tgAsk _ _))
    | (with_reducible apply chg_pfStores)
    | (with_reducible apply Chg.foldl)
    | (with_reducible apply Chg.orElse_getD)
    | (with_reducible apply Chg.getD)
    | (with_reducible apply Chg.foldl_snd)
    | intro _
    | split
    | dsimp only
    | ((with_reducible refine Chg.mk rfl ?_ rfl rfl rfl rfl ?_); · (intro x hx; cases x <;> first | rfl | exact ⟨rfl, rfl⟩ | exact absurd (by decide) hx))

theorem chg_execHbmTgStop {s t : State} {a} (h : execHbmTgStop a s = .next t) : Chg [.out, .regs, .chans, .host] s t := by
  unfold execHbmTgStop at h
  obtain rfl := withUnit_next h
  clear h
  repeat' first
    | ((with_reducible apply subF_of); rfl)
    | (with_reducible apply subF.refl)
    | (with_reducible apply Chg.refl)
    | (with_reducible assumption)
    | (with_reducible apply Chg.step (chg_setBit _ _ _ _))
    | (with_reducible apply chg_pfStores)
    | (with_reducible apply Chg.foldl)
    | (with_reducible apply Chg.orElse_getD)
    | (with_reducible apply Chg.getD)
    | (with_reducible apply Chg.foldl_snd)
    | intro _
    | split
    | dsimp only
    | ((with_reducible refine Chg.mk rfl ?_ rfl rfl rfl rfl ?_); · (intro x hx; cases x <;> first | rfl | exact ⟨rfl, rfl⟩ | exact absurd (by decide) hx))

theorem chg_execHbmTgRunEnd {s t : State} {a} (h : execHbmTgRunEnd a s = .next t) : Chg [.free, .regs, .mem, .poison, .cores, .launches, .chans] s t := by
  unfold execHbmTgRunEnd at h
  obtain rfl := withUnit_next h
  clear h
  repeat' first
    | ((with_reducible apply subF_of); rfl)
    | (with_reducible apply subF.refl)
    | (with_reducible apply Chg.refl)
    | (with_reducible assumption)
    | (with_reducible apply Chg.step (chg_modChan _ _ _))
    | (with_reducible apply Chg.step (chg_setBit _ _ _ _))
    | (with_reducible apply Chg.foldl)
    | (with_reducible apply Chg.orElse_getD)
    | (with_reducible apply Chg.getD)
    | (with_reducible apply Chg.foldl_snd)
    | intro _
    | split
    | dsimp only
    | ((with_reducible refine Chg.mk rfl ?_ rfl rfl rfl rfl ?_); · (intro x hx; cases x <;> first | rfl | exact ⟨rfl, rfl⟩ | exact absurd (by decide) hx))

theorem chg_execD2dLinkFail {s t : State} {a} (h : execD2dLinkFail a s = .next t) : Chg [.regs, .d2d, .log] s t := by
  unfold execD2dLinkFail at h
  obtain rfl := withUnit_next h
  clear h
  repeat' first
    | ((with_reducible apply subF_of); rfl)
    | (with_reducible apply subF.refl)
    | (with_reducible apply Chg.refl)
    | (with_reducible assumption)
    | (with_reducible apply Chg.step (chg_logRaise _ _ _ _ _ _))
    | (with_reducible apply Chg.foldl)
    | (with_reducible apply Chg.orElse_getD)
    | (with_reducible apply Chg.getD)
    | (with_reducible apply Chg.foldl_snd)
    | intro _
    | split
    | dsimp only
    | ((with_reducible refine Chg.mk rfl ?_ rfl rfl rfl rfl ?_); · (intro x hx; cases x <;> first | rfl | exact ⟨rfl, rfl⟩ | exact absurd (by decide) hx))

theorem chg_execCopyRequest {s t : State} {a} (h : execCopyRequest a s = .next t) : Chg [.free, .out, .regs, .cores, .launches, .parts, .dies, .chans, .copies, .links, .dbg] s t := by
  unfold execCopyRequest at h
  obtain rfl := withUnit_next h
  clear h
  repeat' first
    | ((with_reducible apply subF_of); rfl)
    | (with_reducible apply subF.refl)
    | (with_reducible apply Chg.refl)
    | (with_reducible assumption)
    | (with_reducible refine chg_firstStep (by assumption) ?_)
    | (with_reducible (apply Chg.step (chg_nextReq ?e)); case e => assumption)
    | (with_reducible apply Chg.foldl)
    | (with_reducible apply Chg.orElse_getD)
    | (with_reducible apply Chg.getD)
    | (with_reducible apply Chg.foldl_snd)
    | intro _
    | split
    | dsimp only
    | ((with_reducible refine Chg.mk rfl ?_ rfl rfl rfl rfl ?_); · (intro x hx; cases x <;> first | rfl | exact ⟨rfl, rfl⟩ | exact absurd (by decide) hx))

theorem chg_execCopyRequestComplete {s t : State} {a b c} (h : execCopyRequestComplete a b c s = .next t) : Chg [.free, .out, .regs, .mem, .poison, .cores, .launches, .parts, .dies, .chans, .copies, .links, .dbg] s t := by
  unfold execCopyRequestComplete at h
  obtain rfl := withUnit_next h
  clear h
  repeat' first
    | ((with_reducible apply subF_of); rfl)
    | (with_reducible apply subF.refl)
    | (with_reducible apply Chg.refl)
    | (with_reducible assumption)
    | (with_reducible apply Chg.step (chg_endReq _ _ _ _))

theorem chg_execTimeAnnounce {s t : State} (h : execTimeAnnounce s = .next t) : Chg [.gt, .out, .regs, .links, .host, .boot] s t := by
  unfold execTimeAnnounce at h
  obtain rfl := next_inj h
  clear h
  repeat' first
    | ((with_reducible apply subF_of); rfl)
    | (with_reducible apply subF.refl)
    | (with_reducible apply Chg.refl)
    | (with_reducible assumption)
    | (with_reducible apply Chg.step (chg_queueMsg _ _ _))
    | (with_reducible apply Chg.step (chg_retime _ _))
    | (with_reducible apply Chg.foldl)
    | (with_reducible apply Chg.orElse_getD)
    | (with_reducible apply Chg.getD)
    | (with_reducible apply Chg.foldl_snd)
    | intro _
    | split
    | dsimp only
    | ((with_reducible refine Chg.mk rfl ?_ rfl rfl rfl rfl ?_); · (intro x hx; cases x <;> first | rfl | exact ⟨rfl, rfl⟩ | exact absurd (by decide) hx))

end Sys2Proof.Machine
end

