-- ==== Sys2Proof/Laws/ChgExec4.lean ====
section
/-! SUPPORT. What each meaning may change, part 4. -/

namespace Sys2Proof.Machine

theorem chg_execLnkEnableSet {s t : State} {a} (h : execLnkEnableSet a s = .next t) : Chg [.out, .regs, .links, .host, .log] s t := by
  unfold execLnkEnableSet at h
  obtain rfl := withUnit_next h
  clear h
  repeat' first
    | ((with_reducible apply subF_of); rfl)
    | (with_reducible apply subF.refl)
    | (with_reducible apply Chg.refl)
    | (with_reducible assumption)
    | (with_reducible apply Chg.step (chg_setBit _ _ _ _))
    | (with_reducible apply Chg.step (chg_toLight _ _))
    | (with_reducible apply chg_pfStores)
    | (with_reducible apply Chg.foldl)
    | (with_reducible apply Chg.orElse_getD)
    | (with_reducible apply Chg.getD)
    | (with_reducible apply Chg.foldl_snd)
    | intro _
    | split
    | dsimp only
    | ((with_reducible refine Chg.mk rfl ?_ rfl rfl rfl rfl ?_); · (intro x hx; cases x <;> first | rfl | exact ⟨rfl, rfl⟩ | exact absurd (by decide) hx))

theorem chg_execLnkEnableClear {s t : State} {a} (h : execLnkEnableClear a s = .next t) : Chg [.gt, .out, .regs, .cores, .launches, .parts, .dies, .links, .host, .boot, .dbg, .log] s t := by
  unfold execLnkEnableClear at h
  obtain rfl := withUnit_next h
  clear h
  repeat' first
    | ((with_reducible apply subF_of); rfl)
    | (with_reducible apply subF.refl)
    | (with_reducible apply Chg.refl)
    | (with_reducible assumption)
    | (with_reducible apply Chg.step (chg_setBit _ _ _ _))
    | (with_reducible apply Chg.step (chg_takeDown _ _ _))
    | (with_reducible apply chg_pfStores)
    | (with_reducible apply Chg.foldl)
    | (with_reducible apply Chg.orElse_getD)
    | (with_reducible apply Chg.getD)
    | (with_reducible apply Chg.foldl_snd)
    | intro _
    | split
    | dsimp only
    | ((with_reducible refine Chg.mk rfl ?_ rfl rfl rfl rfl ?_); · (intro x hx; cases x <;> first | rfl | exact ⟨rfl, rfl⟩ | exact absurd (by decide) hx))

theorem chg_execLnkRetrain {s t : State} {a} (h : execLnkRetrain a s = .next t) : Chg [.gt, .out, .regs, .cores, .launches, .parts, .dies, .links, .host, .boot, .dbg, .log] s t := by
  unfold execLnkRetrain at h
  obtain rfl := withUnit_next h
  clear h
  repeat' first
    | ((with_reducible apply subF_of); rfl)
    | (with_reducible apply subF.refl)
    | (with_reducible apply Chg.refl)
    | (with_reducible assumption)
    | (with_reducible apply Chg.step (chg_retrain _ _))
    | (with_reducible apply chg_pfStores)
    | (with_reducible apply Chg.foldl)
    | (with_reducible apply Chg.orElse_getD)
    | (with_reducible apply Chg.getD)
    | (with_reducible apply Chg.foldl_snd)
    | intro _
    | split
    | dsimp only
    | ((with_reducible refine Chg.mk rfl ?_ rfl rfl rfl rfl ?_); · (intro x hx; cases x <;> first | rfl | exact ⟨rfl, rfl⟩ | exact absurd (by decide) hx))

theorem chg_execLnkLock {s t : State} {a} (h : execLnkLock a s = .next t) : Chg [.out, .regs, .host] s t := by
  unfold execLnkLock at h
  obtain rfl := withUnit_next h
  clear h
  repeat' first
    | ((with_reducible apply subF_of); rfl)
    | (with_reducible apply subF.refl)
    | (with_reducible apply Chg.refl)
    | (with_reducible assumption)
    | (with_reducible apply Chg.step (chg_setBit _ _ _ _))
    | (with_reducible apply chg_pfStores)
    | (with_reducible apply Chg.foldl)
    | (with_reducible apply Chg.orElse_getD)
    | (with_reducible apply Chg.getD)
    | (with_reducible apply Chg.foldl_snd)
    | intro _
    | split
    | dsimp only
    | ((with_reducible refine Chg.mk rfl ?_ rfl rfl rfl rfl ?_); · (intro x hx; cases x <;> first | rfl | exact ⟨rfl, rfl⟩ | exact absurd (by decide) hx))

theorem chg_execLinkLightCheck {s t : State} {a b c} (h : execLinkLightCheck a b c s = .next t) : Chg [.out, .regs, .links, .host, .log] s t := by
  unfold execLinkLightCheck at h
  obtain rfl := withUnit_next h
  clear h
  repeat' first
    | ((with_reducible apply subF_of); rfl)
    | (with_reducible apply subF.refl)
    | (with_reducible apply Chg.refl)
    | (with_reducible assumption)
    | (with_reducible apply Chg.step (chg_countReg _ _ _))
    | (with_reducible apply Chg.step (chg_setBit _ _ _ _))
    | (with_reducible apply Chg.step (chg_setFld _ _ _ _ _))
    | (with_reducible apply Chg.step (chg_setLinkState _ _ _))
    | (with_reducible apply Chg.step (chg_setReg _ _ _))
    | (with_reducible apply Chg.foldl)
    | (with_reducible apply Chg.orElse_getD)
    | (with_reducible apply Chg.getD)
    | (with_reducible apply Chg.foldl_snd)
    | intro _
    | split
    | dsimp only

theorem chg_execLinkTrainDone {s t : State} {a} (h : execLinkTrainDone a s = .next t) : Chg [.out, .regs, .links, .host, .log] s t := by
  unfold execLinkTrainDone at h
  obtain rfl := withUnit_next h
  clear h
  repeat' first
    | ((with_reducible apply subF_of); rfl)
    | (with_reducible apply subF.refl)
    | (with_reducible apply Chg.refl)
    | (with_reducible assumption)
    | (with_reducible apply Chg.step (chg_setLinkState _ _ _))
    | (with_reducible apply Chg.foldl)
    | (with_reducible apply Chg.orElse_getD)
    | (with_reducible apply Chg.getD)
    | (with_reducible apply Chg.foldl_snd)
    | intro _
    | split

theorem chg_execLinkAlignDone {s t : State} {a} (h : execLinkAlignDone a s = .next t) : Chg [.free, .out, .regs, .links, .host, .log] s t := by
  unfold execLinkAlignDone at h
  obtain rfl := withUnit_next h
  clear h
  repeat' first
    | ((with_reducible apply subF_of); rfl)
    | (with_reducible apply subF.refl)
    | (with_reducible apply Chg.refl)
    | (with_reducible assumption)
    | (with_reducible apply Chg.step (chg_agreeWidth _ _))
    | (with_reducible apply Chg.step (chg_comeUp _ _ _))
    | (with_reducible apply Chg.step (chg_setBit _ _ _ _))
    | (with_reducible apply Chg.step (chg_setLinkState _ _ _))
    | (with_reducible apply Chg.step (chg_startTunnels _ _))
    | (with_reducible apply Chg.foldl)
    | (with_reducible apply Chg.orElse_getD)
    | (with_reducible apply Chg.getD)
    | (with_reducible apply Chg.foldl_snd)
    | intro _
    | split
    | dsimp only
    | ((with_reducible refine Chg.mk rfl ?_ rfl rfl rfl rfl ?_); · (intro x hx; cases x <;> first | rfl | exact ⟨rfl, rfl⟩ | exact absurd (by decide) hx))

theorem chg_execLinkSecureDone {s t : State} {a b c} (h : execLinkSecureDone a b c s = .next t) : Chg [.out, .regs, .links, .host, .log] s t := by
  unfold execLinkSecureDone at h
  obtain rfl := withUnit_next h
  clear h
  repeat' first
    | ((with_reducible apply subF_of); rfl)
    | (with_reducible apply subF.refl)
    | (with_reducible apply Chg.refl)
    | (with_reducible assumption)
    | (with_reducible apply Chg.step (chg_addTry _ _))
    | (with_reducible apply Chg.step (chg_emit _ _))
    | (with_reducible apply Chg.step (chg_setLinkState _ _ _))
    | (with_reducible apply Chg.foldl)
    | (with_reducible apply Chg.orElse_getD)
    | (with_reducible apply Chg.getD)
    | (with_reducible apply Chg.foldl_snd)
    | intro _
    | split
    | dsimp only
    | ((with_reducible refine Chg.mk rfl ?_ rfl rfl rfl rfl ?_); · (intro x hx; cases x <;> first | rfl | exact ⟨rfl, rfl⟩ | exact absurd (by decide) hx))

theorem chg_execLinkInitDone {s t : State} {a b c d} (h : execLinkInitDone a b c d s = .next t) : Chg [.out, .regs, .links, .host, .log] s t := by
  unfold execLinkInitDone at h
  obtain rfl := withUnit_next h
  clear h
  repeat' first
    | ((with_reducible apply subF_of); rfl)
    | (with_reducible apply subF.refl)
    | (with_reducible apply Chg.refl)
    | (with_reducible assumption)
    | (with_reducible apply Chg.step (chg_comeUp _ _ _))
    | (with_reducible apply Chg.step (chg_setReg _ _ _))
    | (with_reducible apply Chg.foldl)
    | (with_reducible apply Chg.orElse_getD)
    | (with_reducible apply Chg.getD)
    | (with_reducible apply Chg.foldl_snd)
    | intro _
    | split

theorem chg_execLinkPhaseTimeout {s t : State} {a} (h : execLinkPhaseTimeout a s = .next t) : Chg [.out, .regs, .links, .host, .log] s t := by
  unfold execLinkPhaseTimeout at h
  obtain rfl := withUnit_next h
  clear h
  repeat' first
    | ((with_reducible apply subF_of); rfl)
    | (with_reducible apply subF.refl)
    | (with_reducible apply Chg.refl)
    | (with_reducible assumption)
    | (with_reducible apply Chg.step (chg_failAttempt _ _))
    | (with_reducible apply Chg.foldl)
    | (with_reducible apply Chg.orElse_getD)
    | (with_reducible apply Chg.getD)
    | (with_reducible apply Chg.foldl_snd)
    | intro _
    | split
    | dsimp only

theorem chg_execLinkRetryTimer {s t : State} {a} (h : execLinkRetryTimer a s = .next t) : Chg [.out, .regs, .links, .host, .log] s t := by
  unfold execLinkRetryTimer at h
  obtain rfl := withUnit_next h
  clear h
  repeat' first
    | ((with_reducible apply subF_of); rfl)
    | (with_reducible apply subF.refl)
    | (with_reducible apply Chg.refl)
    | (with_reducible assumption)
    | (with_reducible apply Chg.step (chg_toLight _ _))
    | (with_reducible apply Chg.foldl)
    | (with_reducible apply Chg.orElse_getD)
    | (with_reducible apply Chg.getD)
    | (with_reducible apply Chg.foldl_snd)
    | intro _
    | split

theorem chg_execWavelengthFail {s t : State} {a b} (h : execWavelengthFail a b s = .next t) : Chg [.gt, .free, .out, .regs, .cores, .launches, .parts, .dies, .links, .host, .boot, .dbg, .log] s t := by
  unfold execWavelengthFail at h
  obtain rfl := withUnit_next h
  clear h
  repeat' first
    | ((with_reducible apply subF_of); rfl)
    | (with_reducible apply subF.refl)
    | (with_reducible apply Chg.refl)
    | (with_reducible assumption)
    | (with_reducible apply Chg.step (chg_dimWave _ _ _))
    | (with_reducible apply Chg.step (chg_logRaise _ _ _ _ _ _))
    | (with_reducible apply Chg.step (chg_notifyPeers _ _))
    | (with_reducible apply Chg.step (chg_setBit _ _ _ _))
    | (with_reducible apply Chg.step (chg_setLinkState _ _ _))
    | (with_reducible apply Chg.step (chg_takeDown _ _ _))
    | (with_reducible apply Chg.foldl)
    | (with_reducible apply Chg.orElse_getD)
    | (with_reducible apply Chg.getD)
    | (with_reducible apply Chg.foldl_snd)
    | intro _
    | split
    | dsimp only
    | ((with_reducible refine Chg.mk rfl ?_ rfl rfl rfl rfl ?_); · (intro x hx; cases x <;> first | rfl | exact ⟨rfl, rfl⟩ | exact absurd (by decide) hx))

theorem chg_execLinkDown {s t : State} {a b} (h : execLinkDown a b s = .next t) : Chg [.gt, .out, .regs, .cores, .launches, .parts, .dies, .links, .host, .boot, .dbg, .log] s t := by
  unfold execLinkDown at h
  obtain rfl := withUnit_next h
  clear h
  repeat' first
    | ((with_reducible apply subF_of); rfl)
    | (with_reducible apply subF.refl)
    | (with_reducible apply Chg.refl)
    | (with_reducible assumption)
    | (with_reducible apply Chg.step (chg_setFld _ _ _ _ _))
    | (with_reducible apply Chg.step (chg_takeDown _ _ _))
    | (with_reducible apply Chg.foldl)
    | (with_reducible apply Chg.orElse_getD)
    | (with_reducible apply Chg.getD)
    | (with_reducible apply Chg.foldl_snd)
    | intro _
    | split

theorem chg_execLinkRecoverEnd {s t : State} {a b} (h : execLinkRecoverEnd a b s = .next t) : Chg [.gt, .out, .regs, .cores, .launches, .parts, .dies, .links, .host, .boot, .dbg, .log] s t := by
  unfold execLinkRecoverEnd at h
  obtain rfl := withUnit_next h
  clear h
  repeat' first
    | ((with_reducible apply subF_of); rfl)
    | (with_reducible apply subF.refl)
    | (with_reducible apply Chg.refl)
    | (with_reducible assumption)
    | (with_reducible apply Chg.step (chg_modLink _ _ _))
    | (with_reducible apply Chg.step (chg_notifyPeers _ _))
    | (with_reducible apply Chg.step (chg_setLinkState _ _ _))
    | (with_reducible apply Chg.step (chg_takeDown _ _ _))
    | (with_reducible apply Chg.foldl)
    | (with_reducible apply Chg.orElse_getD)
    | (with_reducible apply Chg.getD)
    | (with_reducible apply Chg.foldl_snd)
    | intro _
    | split

theorem chg_execLinkStateAnswerTimeout {s t : State} {a} (h : execLinkStateAnswerTimeout a s = .next t) : Chg [.regs, .cores, .launches, .parts, .dies, .links, .dbg, .log] s t := by
  unfold execLinkStateAnswerTimeout at h
  obtain rfl := withUnit_next h
  clear h
  repeat' first
    | ((with_reducible apply subF_of); rfl)
    | (with_reducible apply subF.refl)
    | (with_reducible apply Chg.refl)
    | (with_reducible assumption)
    | (with_reducible apply Chg.step (chg_loseMsg _ _ _))
    | (with_reducible apply Chg.step (chg_modLink _ _ _))
    | (with_reducible apply Chg.foldl)
    | (with_reducible apply Chg.orElse_getD)
    | (with_reducible apply Chg.getD)
    | (with_reducible apply Chg.foldl_snd)
    | intro _
    | split
    | dsimp only
    | ((with_reducible refine Chg.mk rfl ?_ rfl rfl rfl rfl ?_); · (intro x hx; cases x <;> first | rfl | exact ⟨rfl, rfl⟩ | exact absurd (by decide) hx))

theorem chg_execFlitSlot {s t : State} {a} (h : execFlitSlot a s = .next t) : Chg [.out, .links] s t := by
  unfold execFlitSlot at h
  obtain rfl := withUnit_next h
  clear h
  repeat' first
    | ((with_reducible apply subF_of); rfl)
    | (with_reducible apply subF.refl)
    | (with_reducible apply Chg.refl)
    | (with_reducible assumption)
    | (with_reducible apply Chg.step (chg_sendFlit _ _))
    | (with_reducible apply Chg.foldl)
    | (with_reducible apply Chg.orElse_getD)
    | (with_reducible apply Chg.getD)
    | (with_reducible apply Chg.foldl_snd)
    | intro _
    | split

theorem chg_execFlitReceive {s t : State} {a b} (h : execFlitReceive a b s = .next t) : Chg [.out, .regs, .links, .host] s t := by
  unfold execFlitReceive at h
  obtain rfl := withUnit_next h
  clear h
  repeat' first
    | ((with_reducible apply subF_of); rfl)
    | (with_reducible apply subF.refl)
    | (with_reducible apply Chg.refl)
    | (with_reducible assumption)
    | (with_reducible apply Chg.step (chg_receiveFlit _ _ _))
    | (with_reducible apply Chg.foldl)
    | (with_reducible apply Chg.orElse_getD)
    | (with_reducible apply Chg.getD)
    | (with_reducible apply Chg.foldl_snd)
    | intro _
    | split

theorem chg_execTagFailureLimit {s t : State} {a} (h : execTagFailureLimit a s = .next t) : Chg [.gt, .out, .regs, .cores, .launches, .parts, .dies, .links, .host, .boot, .dbg, .log] s t := by
  unfold execTagFailureLimit at h
  obtain rfl := withUnit_next h
  clear h
  repeat' first
    | ((with_reducible apply subF_of); rfl)
    | (with_reducible apply subF.refl)
    | (with_reducible apply Chg.refl)
    | (with_reducible assumption)
    | (with_reducible apply Chg.step (chg_logRaise _ _ _ _ _ _))
    | (with_reducible apply Chg.step (chg_takeDown _ _ _))
    | (with_reducible apply Chg.foldl)
    | (with_reducible apply Chg.orElse_getD)
    | (with_reducible apply Chg.getD)
    | (with_reducible apply Chg.foldl_snd)
    | intro _
    | split
    | dsimp only

theorem chg_execKeyRollover {s t : State} {a} (h : execKeyRollover a s = .next t) : Chg [.links] s t := by
  unfold execKeyRollover at h
  obtain rfl := withUnit_next h
  clear h
  repeat' first
    | ((with_reducible apply subF_of); rfl)
    | (with_reducible apply subF.refl)
    | (with_reducible apply Chg.refl)
    | (with_reducible assumption)
    | (with_reducible apply Chg.step (chg_setLink _ _ _))
    | (with_reducible apply Chg.foldl)
    | (with_reducible apply Chg.orElse_getD)
    | (with_reducible apply Chg.getD)
    | (with_reducible apply Chg.foldl_snd)
    | intro _
    | split
    | dsimp only

theorem chg_execMessageTransmit {s t : State} {a} (h : execMessageTransmit a s = .next t) : Chg [.out, .regs, .cores, .launches, .parts, .dies, .links, .dbg, .log] s t := by
  unfold execMessageTransmit at h
  obtain rfl := withUnit_next h
  clear h
  repeat' first
    | ((with_reducible apply subF_of); rfl)
    | (with_reducible apply subF.refl)
    | (with_reducible apply Chg.refl)
    | (with_reducible assumption)
    | (with_reducible apply Chg.step (chg_transmit _ _))
    | (with_reducible apply Chg.foldl)
    | (with_reducible apply Chg.orElse_getD)
    | (with_reducible apply Chg.getD)
    | (with_reducible apply Chg.foldl_snd)
    | intro _
    | split

theorem chg_execEthFrameReceive {s t : State} {a b c} (h : execEthFrameReceive a b c s = .next t) : Chg [.out, .regs, .links] s t := by
  unfold execEthFrameReceive at h
  obtain rfl := withUnit_next h
  clear h
  repeat' first
    | ((with_reducible apply subF_of); rfl)
    | (with_reducible apply subF.refl)
    | (with_reducible apply Chg.refl)
    | (with_reducible assumption)
    | (with_reducible apply Chg.step (chg_receiveFrame _ _ _ _))
    | (with_reducible apply Chg.foldl)
    | (with_reducible apply Chg.orElse_getD)
    | (with_reducible apply Chg.getD)
    | (with_reducible apply Chg.foldl_snd)
    | intro _
    | split

theorem chg_execTunnelResendTimeout {s t : State} {a b} (h : execTunnelResendTimeout a b s = .next t) : Chg [.out, .regs, .links] s t := by
  unfold execTunnelResendTimeout at h
  obtain rfl := withUnit_next h
  clear h
  repeat' first
    | ((with_reducible apply subF_of); rfl)
    | (with_reducible apply subF.refl)
    | (with_reducible apply Chg.refl)
    | (with_reducible assumption)
    | (with_reducible apply Chg.step (chg_countReg _ _ _))
    | (with_reducible apply Chg.step (chg_emit _ _))
    | (with_reducible apply Chg.step (chg_setTunnel _ _ _ _))
    | (with_reducible apply Chg.foldl)
    | (with_reducible apply Chg.orElse_getD)
    | (with_reducible apply Chg.getD)
    | (with_reducible apply Chg.foldl_snd)
    | intro _
    | split
    | dsimp only

theorem chg_execTunnelDown {s t : State} {a b} (h : execTunnelDown a b s = .next t) : Chg [.out, .regs, .cores, .launches, .parts, .dies, .links, .dbg, .log] s t := by
  unfold execTunnelDown at h
  obtain rfl := withUnit_next h
  clear h
  repeat' first
    | ((with_reducible apply subF_of); rfl)
    | (with_reducible apply subF.refl)
    | (with_reducible apply Chg.refl)
    | (with_reducible assumption)
    | (with_reducible apply Chg.step (chg_logRaise _ _ _ _ _ _))
    | (with_reducible apply Chg.step (chg_loseTunnel _ _ _))
    | (with_reducible apply Chg.step (chg_startTunnel _ _ _))
    | (with_reducible apply Chg.foldl)
    | (with_reducible apply Chg.orElse_getD)
    | (with_reducible apply Chg.getD)
    | (with_reducible apply Chg.foldl_snd)
    | intro _
    | split
    | dsimp only
    | ((with_reducible refine Chg.mk rfl ?_ rfl rfl rfl rfl ?_); · (intro x hx; cases x <;> first | rfl | exact ⟨rfl, rfl⟩ | exact absurd (by decide) hx))

theorem chg_execVfCarmArm {s t : State} {a b} (h : execVfCarmArm a b s = .next t) : Chg [.free, .out, .regs, .parts, .dies, .host] s t := by
  unfold execVfCarmArm at h
  obtain rfl := withUnit_next h
  clear h
  repeat' first
    | ((with_reducible apply subF_of); rfl)
    | (with_reducible apply subF.refl)
    | (with_reducible apply Chg.refl)
    | (with_reducible assumption)
    | (with_reducible apply Chg.step (chg_armColl _ _ _ _))
    | (with_reducible apply chg_vfStores)
    | (with_reducible apply Chg.foldl)
    | (with_reducible apply Chg.orElse_getD)
    | (with_reducible apply Chg.getD)
    | (with_reducible apply Chg.foldl_snd)
    | intro _
    | split
    | dsimp only
    | ((with_reducible refine Chg.mk rfl ?_ rfl rfl rfl rfl ?_); · (intro x hx; cases x <;> first | rfl | exact ⟨rfl, rfl⟩ | exact absurd (by decide) hx))

theorem chg_execVfCarmDisarm {s t : State} {a b} (h : execVfCarmDisarm a b s = .next t) : Chg [.out, .regs, .parts, .dies, .host] s t := by
  unfold execVfCarmDisarm at h
  obtain rfl := withUnit_next h
  clear h
  repeat' first
    | ((with_reducible apply subF_of); rfl)
    | (with_reducible apply subF.refl)
    | (with_reducible apply Chg.refl)
    | (with_reducible assumption)
    | (with_reducible apply Chg.step (chg_disarmColl _ _ _ _))
    | (with_reducible apply chg_vfStores)
    | (with_reducible apply Chg.foldl)
    | (with_reducible apply Chg.orElse_getD)
    | (with_reducible apply Chg.getD)
    | (with_reducible apply Chg.foldl_snd)
    | intro _
    | split
    | dsimp only
    | ((with_reducible refine Chg.mk rfl ?_ rfl rfl rfl rfl ?_); · (intro x hx; cases x <;> first | rfl | exact ⟨rfl, rfl⟩ | exact absurd (by decide) hx))

theorem chg_execRd {s t : State} {a b} (h : execRd a b s = .next t) : Chg [.free, .out, .regs, .cores, .launches, .parts, .dies, .chans, .links, .dbg, .log] s t := by
  unfold execRd at h
  obtain rfl := withUnit_next h
  clear h
  repeat' first
    | ((with_reducible apply subF_of); rfl)
    | (with_reducible apply subF.refl)
    | (with_reducible apply Chg.refl)
    | (with_reducible assumption)
    | (with_reducible apply chg_onRequest)
    | (with_reducible apply Chg.step (chg_serveRd _ _ _))
    | (with_reducible apply chg_onMsg)
    | (with_reducible apply Chg.foldl)
    | (with_reducible apply Chg.orElse_getD)
    | (with_reducible apply Chg.getD)
    | (with_reducible apply Chg.foldl_snd)
    | intro _
    | split
    | dsimp only
    | ((with_reducible refine Chg.mk rfl ?_ rfl rfl rfl rfl ?_); · (intro x hx; cases x <;> first | rfl | exact ⟨rfl, rfl⟩ | exact absurd (by decide) hx))

theorem chg_execWr {s t : State} {a b} (h : execWr a b s = .next t) : Chg [.free, .out, .regs, .mem, .poison, .cores, .launches, .parts, .dies, .chans, .links, .dbg, .log] s t := by
  unfold execWr at h
  obtain rfl := withUnit_next h
  clear h
  repeat' first
    | ((with_reducible apply subF_of); rfl)
    | (with_reducible apply subF.refl)
    | (with_reducible apply Chg.refl)
    | (with_reducible assumption)
    | (with_reducible apply chg_onRequest)
    | (with_reducible apply Chg.step (chg_serveWr _ _ _))
    | (with_reducible apply chg_onMsg)
    | (with_reducible apply Chg.foldl)
    | (with_reducible apply Chg.orElse_getD)
    | (with_reducible apply Chg.getD)
    | (with_reducible apply Chg.foldl_snd)
    | intro _
    | split
    | dsimp only
    | ((with_reducible refine Chg.mk rfl ?_ rfl rfl rfl rfl ?_); · (intro x hx; cases x <;> first | rfl | exact ⟨rfl, rfl⟩ | exact absurd (by decide) hx))

theorem chg_execWrf {s t : State} {a b} (h : execWrf a b s = .next t) : Chg [.free, .out, .regs, .mem, .poison, .cores, .launches, .parts, .dies, .chans, .links, .dbg, .log] s t := by
  unfold execWrf at h
  obtain rfl := withUnit_next h
  clear h
  repeat' first
    | ((with_reducible apply subF_of); rfl)
    | (with_reducible apply subF.refl)
    | (with_reducible apply Chg.refl)
    | (with_reducible assumption)
    | (with_reducible apply chg_onRequest)
    | (with_reducible apply Chg.step (chg_serveWr _ _ _))
    | (with_reducible apply chg_onMsg)
    | (with_reducible apply Chg.foldl)
    | (with_reducible apply Chg.orElse_getD)
    | (with_reducible apply Chg.getD)
    | (with_reducible apply Chg.foldl_snd)
    | intro _
    | split
    | dsimp only
    | ((with_reducible refine Chg.mk rfl ?_ rfl rfl rfl rfl ?_); · (intro x hx; cases x <;> first | rfl | exact ⟨rfl, rfl⟩ | exact absurd (by decide) hx))

theorem chg_execAtom {s t : State} {a b} (h : execAtom a b s = .next t) : Chg [.free, .out, .regs, .mem, .poison, .cores, .launches, .parts, .dies, .chans, .links, .dbg, .log] s t := by
  unfold execAtom at h
  obtain rfl := withUnit_next h
  clear h
  repeat' first
    | ((with_reducible apply subF_of); rfl)
    | (with_reducible apply subF.refl)
    | (with_reducible apply Chg.refl)
    | (with_reducible assumption)
    | (with_reducible apply chg_onRequest)
    | (with_reducible apply Chg.step (chg_serveAtom _ _ _))
    | (with_reducible apply chg_onMsg)
    | (with_reducible apply Chg.foldl)
    | (with_reducible apply Chg.orElse_getD)
    | (with_reducible apply Chg.getD)
    | (with_reducible apply Chg.foldl_snd)
    | intro _
    | split
    | dsimp only
    | ((with_reducible refine Chg.mk rfl ?_ rfl rfl rfl rfl ?_); · (intro x hx; cases x <;> first | rfl | exact ⟨rfl, rfl⟩ | exact absurd (by decide) hx))

theorem chg_execRdrsp {s t : State} {a b} (h : execRdrsp a b s = .next t) : Chg [.regs, .cores, .launches, .parts, .dies, .links, .dbg, .log] s t := by
  unfold execRdrsp at h
  obtain rfl := withUnit_next h
  clear h
  repeat' first
    | ((with_reducible apply subF_of); rfl)
    | (with_reducible apply subF.refl)
    | (with_reducible apply Chg.refl)
    | (with_reducible assumption)
    | (with_reducible apply Chg.step (chg_onData _ _))
    | (with_reducible apply chg_onMsg)
    | (with_reducible apply Chg.foldl)
    | (with_reducible apply Chg.orElse_getD)
    | (with_reducible apply Chg.getD)
    | (with_reducible apply Chg.foldl_snd)
    | intro _

theorem chg_execAtomrsp {s t : State} {a b} (h : execAtomrsp a b s = .next t) : Chg [.regs, .cores, .launches, .parts, .dies, .links, .dbg, .log] s t := by
  unfold execAtomrsp at h
  obtain rfl := withUnit_next h
  clear h
  repeat' first
    | ((with_reducible apply subF_of); rfl)
    | (with_reducible apply subF.refl)
    | (with_reducible apply Chg.refl)
    | (with_reducible assumption)
    | (with_reducible apply Chg.step (chg_onData _ _))
    | (with_reducible apply chg_onMsg)
    | (with_reducible apply Chg.foldl)
    | (with_reducible apply Chg.orElse_getD)
    | (with_reducible apply Chg.getD)
    | (with_reducible apply Chg.foldl_snd)
    | intro _

theorem chg_execAck {s t : State} {a b} (h : execAck a b s = .next t) : Chg [.free, .regs, .mem, .poison, .cores, .launches, .parts, .dies, .chans, .links, .dbg, .log] s t := by
  unfold execAck at h
  obtain rfl := withUnit_next h
  clear h
  repeat' first
    | ((with_reducible apply subF_of); rfl)
    | (with_reducible apply subF.refl)
    | (with_reducible apply Chg.refl)
    | (with_reducible assumption)
    | (with_reducible apply Chg.step (chg_onAck _ _ _))
    | (with_reducible apply chg_onAnswer)
    | (with_reducible apply Chg.foldl)
    | (with_reducible apply Chg.orElse_getD)
    | (with_reducible apply Chg.getD)
    | (with_reducible apply Chg.foldl_snd)
    | intro _
    | split
    | dsimp only
    | ((with_reducible refine Chg.mk rfl ?_ rfl rfl rfl rfl ?_); · (intro x hx; cases x <;> first | rfl | exact ⟨rfl, rfl⟩ | exact absurd (by decide) hx))

theorem chg_execNack {s t : State} {a b} (h : execNack a b s = .next t) : Chg [.regs, .cores, .launches, .parts, .dies, .links, .dbg, .log] s t := by
  unfold execNack at h
  obtain rfl := withUnit_next h
  clear h
  repeat' first
    | ((with_reducible apply subF_of); rfl)
    | (with_reducible apply subF.refl)
    | (with_reducible apply Chg.refl)
    | (with_reducible assumption)
    | (with_reducible apply Chg.step (chg_onNack _ _ _))
    | (with_reducible apply chg_onAnswer)
    | (with_reducible apply Chg.foldl)
    | (with_reducible apply Chg.orElse_getD)
    | (with_reducible apply Chg.getD)
    | (with_reducible apply Chg.foldl_snd)
    | intro _
    | split
    | dsimp only
    | ((with_reducible refine Chg.mk rfl ?_ rfl rfl rfl rfl ?_); · (intro x hx; cases x <;> first | rfl | exact ⟨rfl, rfl⟩ | exact absurd (by decide) hx))

theorem chg_execRemoteResponseTimeout {s t : State} {a b} (h : execRemoteResponseTimeout a b s = .next t) : Chg [.regs, .cores, .launches, .parts, .dies, .links, .dbg, .log] s t := by
  unfold execRemoteResponseTimeout at h
  obtain rfl := withUnit_next h
  clear h
  repeat' first
    | ((with_reducible apply subF_of); rfl)
    | (with_reducible apply subF.refl)
    | (with_reducible apply Chg.refl)
    | (with_reducible assumption)
    | (with_reducible apply Chg.step (chg_closeReq _ _ _ _))
    | (with_reducible apply Chg.step (chg_refuseReq _ _))
    | (with_reducible apply Chg.foldl)
    | (with_reducible apply Chg.orElse_getD)
    | (with_reducible apply Chg.getD)
    | (with_reducible apply Chg.foldl_snd)
    | intro _
    | split
    | dsimp only
    | ((with_reducible refine Chg.mk rfl ?_ rfl rfl rfl rfl ?_); · (intro x hx; cases x <;> first | rfl | exact ⟨rfl, rfl⟩ | exact absurd (by decide) hx))

theorem chg_execTime {s t : State} {a b} (h : execTime a b s = .next t) : Chg [.gt, .out, .regs, .cores, .launches, .parts, .dies, .links, .host, .boot, .dbg, .log] s t := by
  unfold execTime at h
  obtain rfl := withUnit_next h
  clear h
  repeat' first
    | ((with_reducible apply subF_of); rfl)
    | (with_reducible apply subF.refl)
    | (with_reducible apply Chg.refl)
    | (with_reducible assumption)
    | (with_reducible apply Chg.step (chg_modLink _ _ _))
    | (with_reducible apply Chg.step (chg_retime _ _))
    | (with_reducible apply chg_onMsg)
    | (with_reducible apply Chg.foldl)
    | (with_reducible apply Chg.orElse_getD)
    | (with_reducible apply Chg.getD)
    | (with_reducible apply Chg.foldl_snd)
    | intro _

theorem chg_execLstate {s t : State} {a b} (h : execLstate a b s = .next t) : Chg [.regs, .cores, .launches, .parts, .dies, .links, .dbg, .log] s t := by
  unfold execLstate at h
  obtain rfl := withUnit_next h
  clear h
  repeat' first
    | ((with_reducible apply subF_of); rfl)
    | (with_reducible apply subF.refl)
    | (with_reducible apply Chg.refl)
    | (with_reducible assumption)
    | (with_reducible apply Chg.step (chg_answerQuery _ _ _))
    | (with_reducible apply Chg.step (chg_modLink _ _ _))
    | (with_reducible apply Chg.step (chg_useAnswer _ _))
    | (with_reducible apply chg_onMsg)
    | (with_reducible apply Chg.foldl)
    | (with_reducible apply Chg.orElse_getD)
    | (with_reducible apply Chg.getD)
    | (with_reducible apply Chg.foldl_snd)
    | intro _
    | split

theorem chg_execKeyx {s t : State} {a b} (h : execKeyx a b s = .next t) : Chg [.regs, .cores, .launches, .parts, .dies, .links, .dbg, .log] s t := by
  unfold execKeyx at h
  obtain rfl := withUnit_next h
  clear h
  repeat' first
    | ((with_reducible apply subF_of); rfl)
    | (with_reducible apply subF.refl)
    | (with_reducible apply Chg.refl)
    | (with_reducible assumption)
    | (with_reducible apply Chg.step (chg_agreeKeys _ _ _))
    | (with_reducible apply chg_onMsg)
    | (with_reducible apply Chg.foldl)
    | (with_reducible apply Chg.orElse_getD)
    | (with_reducible apply Chg.getD)
    | (with_reducible apply Chg.foldl_snd)
    | intro _
    | split

theorem chg_execContrib {s t : State} {a b} (h : execContrib a b s = .next t) : Chg [.free, .out, .regs, .mem, .poison, .cores, .launches, .parts, .dies, .chans, .links, .dbg, .log] s t := by
  unfold execContrib at h
  obtain rfl := withUnit_next h
  clear h
  repeat' first
    | ((with_reducible apply subF_of); rfl)
    | (with_reducible apply subF.refl)
    | (with_reducible apply Chg.refl)
    | (with_reducible assumption)
    | (with_reducible apply Chg.step (chg_serveContrib _ _ _))
    | (with_reducible apply chg_onMsg)
    | (with_reducible apply Chg.foldl)
    | (with_reducible apply Chg.orElse_getD)
    | (with_reducible apply Chg.getD)
    | (with_reducible apply Chg.foldl_snd)
    | intro _
    | split
    | dsimp only
    | ((with_reducible refine Chg.mk rfl ?_ rfl rfl rfl rfl ?_); · (intro x hx; cases x <;> first | rfl | exact ⟨rfl, rfl⟩ | exact absurd (by decide) hx))

theorem chg_execBar2Access {s t : State} {a b c d e} (h : execBar2Access a b c d e s = .next t) : Chg [.free, .out, .regs, .mem, .poison, .cores, .launches, .parts, .dies, .chans, .host] s t := by
  unfold execBar2Access at h
  obtain rfl := withUnit_next h
  clear h
  repeat' first
    | ((with_reducible apply subF_of); rfl)
    | (with_reducible apply subF.refl)
    | (with_reducible apply Chg.refl)
    | (with_reducible assumption)
    | (with_reducible apply Chg.step (chg_bar2 _ _ _ _ _))
    | (with_reducible apply chg_onTlp)
    | (with_reducible apply Chg.foldl)
    | (with_reducible apply Chg.orElse_getD)
    | (with_reducible apply Chg.getD)
    | (with_reducible apply Chg.foldl_snd)
    | intro _
    | split
    | dsimp only
    | ((with_reducible refine Chg.mk rfl ?_ rfl rfl rfl rfl ?_); · (intro x hx; cases x <;> first | rfl | exact ⟨rfl, rfl⟩ | exact absurd (by decide) hx))

theorem chg_execPf0Bar2Access {s t : State} {a b c d} (h : execPf0Bar2Access a b c d s = .next t) : Chg [.out, .regs, .mem, .poison, .cores, .launches, .parts, .host, .log] s t := by
  unfold execPf0Bar2Access at h
  obtain rfl := next_inj h
  clear h
  repeat' first
    | ((with_reducible apply subF_of); rfl)
    | (with_reducible apply subF.refl)
    | (with_reducible apply Chg.refl)
    | (with_reducible assumption)
    | (with_reducible apply Chg.step (chg_pf0Bar2 _ _ _ _))
    | (with_reducible apply chg_onTlp)
    | (with_reducible apply Chg.foldl)
    | (with_reducible apply Chg.orElse_getD)
    | (with_reducible apply Chg.getD)
    | (with_reducible apply Chg.foldl_snd)
    | intro _
    | split
    | dsimp only
    | ((with_reducible refine Chg.mk rfl ?_ rfl rfl rfl rfl ?_); · (intro x hx; cases x <;> first | rfl | exact ⟨rfl, rfl⟩ | exact absurd (by decide) hx))

theorem chg_execMsixUnmask {s t : State} {a b} (h : execMsixUnmask a b s = .next t) : Chg [.out, .regs, .parts, .host] s t := by
  unfold execMsixUnmask at h
  obtain rfl := withUnit_next h
  clear h
  repeat' first
    | ((with_reducible apply subF_of); rfl)
    | (with_reducible apply subF.refl)
    | (with_reducible apply Chg.refl)
    | (with_reducible assumption)
    | (with_reducible apply Chg.step (chg_noTarget _ _ _))
    | (with_reducible apply Chg.step (chg_unmask _ _ _))
    | (with_reducible apply chg_vfStores)
    | (with_reducible apply Chg.foldl)
    | (with_reducible apply Chg.orElse_getD)
    | (with_reducible apply Chg.getD)
    | (with_reducible apply Chg.foldl_snd)
    | intro _
    | split
    | dsimp only
    | ((with_reducible refine Chg.mk rfl ?_ rfl rfl rfl rfl ?_); · (intro x hx; cases x <;> first | rfl | exact ⟨rfl, rfl⟩ | exact absurd (by decide) hx))

theorem chg_execFlr {s t : State} {a} (h : execFlr a s = .next t) : Chg [.out, .regs, .parts, .host, .log] s t := by
  unfold execFlr at h
  obtain rfl := withUnit_next h
  clear h
  repeat' first
    | ((with_reducible apply subF_of); rfl)
    | (with_reducible apply subF.refl)
    | (with_reducible apply Chg.refl)
    | (with_reducible assumption)
    | (with_reducible apply Chg.step (chg_beginFlr _ _))

theorem chg_execFlrRekey {s t : State} {a} (h : execFlrRekey a s = .next t) : Chg [.mem, .memEpoch, .poison, .cores, .parts, .dies, .chans, .host, .sec] s t := by
  unfold execFlrRekey at h
  obtain rfl := withUnit_next h
  clear h
  repeat' first
    | ((with_reducible apply subF_of); rfl)
    | (with_reducible apply subF.refl)
    | (with_reducible apply Chg.refl)
    | (with_reducible assumption)
    | (with_reducible apply Chg.step (chg_flrKey _ _))

theorem chg_execFlrComplete {s t : State} {a} (h : execFlrComplete a s = .next t) : Chg [.regs, .host] s t := by
  unfold execFlrComplete at h
  obtain rfl := withUnit_next h
  clear h
  repeat' first
    | ((with_reducible apply subF_of); rfl)
    | (with_reducible apply subF.refl)
    | (with_reducible apply Chg.refl)
    | (with_reducible assumption)
    | (with_reducible apply Chg.step (chg_endFlr _ _))

theorem chg_execVfRemove {s t : State} {a} (h : execVfRemove a s = .next t) : Chg [.out, .regs, .parts, .host, .log] s t := by
  unfold execVfRemove at h
  obtain rfl := withUnit_next h
  clear h
  repeat' first
    | ((with_reducible apply subF_of); rfl)
    | (with_reducible apply subF.refl)
    | (with_reducible apply Chg.refl)
    | (with_reducible assumption)
    | (with_reducible apply Chg.step (chg_removeVfs _ _))
    | (with_reducible apply Chg.foldl)
    | (with_reducible apply Chg.orElse_getD)
    | (with_reducible apply Chg.getD)
    | (with_reducible apply Chg.foldl_snd)
    | intro _
    | split

end Sys2Proof.Machine
end

