-- ==== Sys2Proof/Laws/ChgExec5.lean ====
section
/-! SUPPORT. What each meaning may change, part 5. -/

namespace Sys2Proof.Machine

theorem chg_execVfEnableSet {s t : State} {a} (h : execVfEnableSet a s = .next t) : Chg [.out, .regs, .parts, .host, .log] s t := by
  unfold execVfEnableSet at h
  obtain rfl := withUnit_next h
  clear h
  repeat' first
    | ((with_reducible apply subF_of); rfl)
    | (with_reducible apply subF.refl)
    | (with_reducible apply Chg.refl)
    | (with_reducible assumption)
    | (with_reducible apply Chg.step (chg_removeVfs _ _))
    | (with_reducible apply Chg.foldl)
    | (with_reducible apply Chg.orElse_getD)
    | (with_reducible apply Chg.getD)
    | (with_reducible apply Chg.foldl_snd)
    | intro _
    | split
    | dsimp only
    | ((with_reducible refine Chg.mk rfl ?_ rfl rfl rfl rfl ?_); · (intro x hx; cases x <;> first | rfl | exact ⟨rfl, rfl⟩ | exact absurd (by decide) hx))

theorem chg_execPf0Reset {s t : State} {a} (h : execPf0Reset a s = .next t) : Chg [.out, .regs, .parts, .host, .log] s t := by
  unfold execPf0Reset at h
  obtain rfl := next_inj h
  clear h
  repeat' first
    | ((with_reducible apply subF_of); rfl)
    | (with_reducible apply subF.refl)
    | (with_reducible apply Chg.refl)
    | (with_reducible assumption)
    | (with_reducible apply Chg.step (chg_resetPf0 _))
    | (with_reducible apply Chg.foldl)
    | (with_reducible apply Chg.orElse_getD)
    | (with_reducible apply Chg.getD)
    | (with_reducible apply Chg.foldl_snd)
    | intro _
    | split

theorem chg_execIdeUncoveredTlp {s t : State} {a b} (h : execIdeUncoveredTlp a b s = .next t) : Chg [.out, .parts, .host] s t := by
  unfold execIdeUncoveredTlp at h
  obtain rfl := withUnit_next h
  clear h
  repeat' first
    | ((with_reducible apply subF_of); rfl)
    | (with_reducible apply subF.refl)
    | (with_reducible apply Chg.refl)
    | (with_reducible assumption)
    | (with_reducible apply Chg.step (chg_uncovered _ _ _))

theorem chg_execPresenceSample {s t : State} {a b} (h : execPresenceSample a b s = .next t) : Chg [.out, .regs, .host, .sec, .log] s t := by
  unfold execPresenceSample at h
  obtain rfl := next_inj h
  clear h
  repeat' first
    | ((with_reducible apply subF_of); rfl)
    | (with_reducible apply subF.refl)
    | (with_reducible apply Chg.refl)
    | (with_reducible assumption)
    | (with_reducible apply Chg.step (chg_presSample _ _ _))

theorem chg_execPresenceAssert {s t : State} (h : execPresenceAssert s = .next t) : Chg [.out, .regs, .host, .sec, .log] s t := by
  unfold execPresenceAssert at h
  obtain rfl := next_inj h
  clear h
  repeat' first
    | ((with_reducible apply subF_of); rfl)
    | (with_reducible apply subF.refl)
    | (with_reducible apply Chg.refl)
    | (with_reducible assumption)
    | (with_reducible apply Chg.step (chg_presSample _ _ _))
    | (with_reducible apply Chg.foldl)
    | (with_reducible apply Chg.orElse_getD)
    | (with_reducible apply Chg.getD)
    | (with_reducible apply Chg.foldl_snd)
    | intro _
    | split

theorem chg_execPresenceFault {s t : State} {a} (h : execPresenceFault a s = .next t) : Chg [.out, .regs, .host, .sec, .log] s t := by
  unfold execPresenceFault at h
  obtain rfl := next_inj h
  clear h
  repeat' first
    | ((with_reducible apply subF_of); rfl)
    | (with_reducible apply subF.refl)
    | (with_reducible apply Chg.refl)
    | (with_reducible assumption)
    | (with_reducible apply Chg.step (chg_presSample _ _ _))
    | (with_reducible apply Chg.foldl)
    | (with_reducible apply Chg.orElse_getD)
    | (with_reducible apply Chg.getD)
    | (with_reducible apply Chg.foldl_snd)
    | intro _
    | split

theorem chg_execPresenceFaultClear {s t : State} (h : execPresenceFaultClear s = .next t) : Chg [.out, .regs, .host, .sec, .log] s t := by
  unfold execPresenceFaultClear at h
  obtain rfl := next_inj h
  clear h
  repeat' first
    | ((with_reducible apply subF_of); rfl)
    | (with_reducible apply subF.refl)
    | (with_reducible apply Chg.refl)
    | (with_reducible assumption)
    | (with_reducible apply Chg.step (chg_presSample _ _ _))
    | (with_reducible apply Chg.foldl)
    | (with_reducible apply Chg.orElse_getD)
    | (with_reducible apply Chg.getD)
    | (with_reducible apply Chg.foldl_snd)
    | intro _
    | split

theorem chg_execTamperSample {s t : State} {a} (h : execTamperSample a s = .next t) : Chg [.regs, .sec] s t := by
  unfold execTamperSample at h
  obtain rfl := next_inj h
  clear h
  repeat' first
    | ((with_reducible apply subF_of); rfl)
    | (with_reducible apply subF.refl)
    | (with_reducible apply Chg.refl)
    | (with_reducible assumption)
    | (with_reducible apply Chg.step (chg_setBit _ _ _ _))
    | (with_reducible apply Chg.foldl)
    | (with_reducible apply Chg.orElse_getD)
    | (with_reducible apply Chg.getD)
    | (with_reducible apply Chg.foldl_snd)
    | intro _
    | split
    | dsimp only
    | ((with_reducible refine Chg.mk rfl ?_ rfl rfl rfl rfl ?_); · (intro x hx; cases x <;> first | rfl | exact ⟨rfl, rfl⟩ | exact absurd (by decide) hx))

theorem chg_execTamperEvent {s t : State} (h : execTamperEvent s = .next t) : Chg [.out, .regs, .mem, .memEpoch, .poison, .cores, .parts, .dies, .chans, .host, .sec, .log] s t := by
  unfold execTamperEvent at h
  obtain rfl := next_inj h
  clear h
  repeat' first
    | ((with_reducible apply subF_of); rfl)
    | (with_reducible apply subF.refl)
    | (with_reducible apply Chg.refl)
    | (with_reducible assumption)
    | (with_reducible apply Chg.step (chg_tampered _))

theorem chg_execGetNonce {s t : State} (h : execGetNonce s = .next t) : Chg [.sec] s t := by
  unfold execGetNonce at h
  obtain rfl := next_inj h
  clear h
  repeat' first
    | ((with_reducible apply subF_of); rfl)
    | (with_reducible apply subF.refl)
    | (with_reducible apply Chg.refl)
    | (with_reducible assumption)
    | (with_reducible apply Chg.step (chg_draw _ _))
    | (with_reducible (apply Chg.step (Chg.snd (chg_draw _ _) ?e)); case e => assumption)
    | (with_reducible apply Chg.step (chg_mbxEnd _ _ _))
    | (with_reducible apply Chg.foldl)
    | (with_reducible apply Chg.orElse_getD)
    | (with_reducible apply Chg.getD)
    | (with_reducible apply Chg.foldl_snd)
    | intro _
    | split
    | dsimp only
    | ((with_reducible refine Chg.mk rfl ?_ rfl rfl rfl rfl ?_); · (intro x hx; cases x <;> first | rfl | exact ⟨rfl, rfl⟩ | exact absurd (by decide) hx))

theorem chg_execOwnerEnrol {s t : State} (h : execOwnerEnrol s = .next t) : Chg [.gt, .out, .regs, .mem, .memEpoch, .poison, .cores, .launches, .queues, .parts, .dies, .chans, .links, .chart, .host, .sec, .boot, .dbg, .log] s t := by
  unfold execOwnerEnrol at h
  obtain rfl := next_inj h
  clear h
  repeat' first
    | ((with_reducible apply subF_of); rfl)
    | (with_reducible apply subF.refl)
    | (with_reducible apply Chg.refl)
    | (with_reducible assumption)
    | (with_reducible apply Chg.step (chg_enrolCheck _))
    | (with_reducible (apply Chg.step (Chg.snd (chg_enrolCheck _) ?e)); case e => assumption)
    | (with_reducible apply Chg.step (chg_enrolUpdate _))
    | (with_reducible apply chg_gated)
    | (with_reducible apply Chg.foldl)
    | (with_reducible apply Chg.orElse_getD)
    | (with_reducible apply Chg.getD)
    | (with_reducible apply Chg.foldl_snd)
    | intro _

theorem chg_execDebugUnlock {s t : State} (h : execDebugUnlock s = .next t) : Chg [.out, .regs, .mem, .memEpoch, .poison, .cores, .parts, .dies, .chans, .chart, .host, .sec, .log] s t := by
  unfold execDebugUnlock at h
  obtain rfl := next_inj h
  clear h
  repeat' first
    | ((with_reducible apply subF_of); rfl)
    | (with_reducible apply subF.refl)
    | (with_reducible apply Chg.refl)
    | (with_reducible assumption)
    | (with_reducible apply Chg.step (chg_unlockCheck _))
    | (with_reducible (apply Chg.step (Chg.snd (chg_unlockCheck _) ?e)); case e => assumption)
    | (with_reducible apply Chg.step (chg_unlockUpdate _))
    | (with_reducible apply chg_gated)
    | (with_reducible apply Chg.foldl)
    | (with_reducible apply Chg.orElse_getD)
    | (with_reducible apply Chg.getD)
    | (with_reducible apply Chg.foldl_snd)
    | intro _

theorem chg_execDebugLock {s t : State} (h : execDebugLock s = .next t) : Chg [.out, .regs, .mem, .memEpoch, .poison, .cores, .parts, .dies, .chans, .host, .sec, .log] s t := by
  unfold execDebugLock at h
  obtain rfl := next_inj h
  clear h
  repeat' first
    | ((with_reducible apply subF_of); rfl)
    | (with_reducible apply subF.refl)
    | (with_reducible apply Chg.refl)
    | (with_reducible assumption)
    | (with_reducible apply Chg.step (chg_clearDebug _))
    | (with_reducible apply Chg.step (chg_eraseKeys _))
    | (with_reducible apply Chg.step (chg_mbxEnd _ _ _))
    | (with_reducible apply Chg.step (chg_resetAll _))
    | (with_reducible apply Chg.foldl)
    | (with_reducible apply Chg.orElse_getD)
    | (with_reducible apply Chg.getD)
    | (with_reducible apply Chg.foldl_snd)
    | intro _
    | split
    | dsimp only
    | ((with_reducible refine Chg.mk rfl ?_ rfl rfl rfl rfl ?_); · (intro x hx; cases x <;> first | rfl | exact ⟨rfl, rfl⟩ | exact absurd (by decide) hx))

theorem chg_execFwStage {s t : State} {a} (h : execFwStage a s = .next t) : Chg [.out, .regs, .host, .sec, .log] s t := by
  unfold execFwStage at h
  obtain rfl := next_inj h
  clear h
  repeat' first
    | ((with_reducible apply subF_of); rfl)
    | (with_reducible apply subF.refl)
    | (with_reducible apply Chg.refl)
    | (with_reducible assumption)
    | (with_reducible apply Chg.step (chg_fwCheck _ _))
    | (with_reducible (apply Chg.step (Chg.snd (chg_fwCheck _ _) ?e)); case e => assumption)
    | (with_reducible apply Chg.step (chg_fwUpdate _))
    | (with_reducible apply Chg.step (chg_stageFw _ _ _))
    | (with_reducible apply chg_gated)
    | (with_reducible apply Chg.foldl)
    | (with_reducible apply Chg.orElse_getD)
    | (with_reducible apply Chg.getD)
    | (with_reducible apply Chg.foldl_snd)
    | intro _
    | split
    | dsimp only

theorem chg_execLogClear {s t : State} (h : execLogClear s = .next t) : Chg [.out, .regs, .host, .sec, .log, .records] s t := by
  unfold execLogClear at h
  obtain rfl := next_inj h
  clear h
  repeat' first
    | ((with_reducible apply subF_of); rfl)
    | (with_reducible apply subF.refl)
    | (with_reducible apply Chg.refl)
    | (with_reducible assumption)
    | (with_reducible apply Chg.step (chg_clearCheck _))
    | (with_reducible (apply Chg.step (Chg.snd (chg_clearCheck _) ?e)); case e => assumption)
    | (with_reducible apply Chg.step (chg_clearUpdate _))
    | (with_reducible apply chg_gated)
    | (with_reducible apply Chg.foldl)
    | (with_reducible apply Chg.orElse_getD)
    | (with_reducible apply Chg.getD)
    | (with_reducible apply Chg.foldl_snd)
    | intro _

theorem chg_execTamperClear {s t : State} (h : execTamperClear s = .next t) : Chg [.out, .regs, .host, .sec, .log] s t := by
  unfold execTamperClear at h
  obtain rfl := next_inj h
  clear h
  repeat' first
    | ((with_reducible apply subF_of); rfl)
    | (with_reducible apply subF.refl)
    | (with_reducible apply Chg.refl)
    | (with_reducible assumption)
    | (with_reducible apply Chg.step (chg_mbxEnd _ _ _))
    | (with_reducible apply Chg.step (chg_setBit _ _ _ _))
    | (with_reducible apply Chg.step (chg_untamperCheck _))
    | (with_reducible (apply Chg.step (Chg.snd (chg_untamperCheck _) ?e)); case e => assumption)
    | (with_reducible apply chg_gated)
    | (with_reducible apply Chg.foldl)
    | (with_reducible apply Chg.orElse_getD)
    | (with_reducible apply Chg.getD)
    | (with_reducible apply Chg.foldl_snd)
    | intro _

theorem chg_execMbxCommandComplete {s t : State} (h : execMbxCommandComplete s = .next t) : Chg [.out, .regs, .host, .sec, .log] s t := by
  unfold execMbxCommandComplete at h
  obtain rfl := next_inj h
  clear h
  repeat' first
    | ((with_reducible apply subF_of); rfl)
    | (with_reducible apply subF.refl)
    | (with_reducible apply Chg.refl)
    | (with_reducible assumption)
    | (with_reducible apply Chg.step (chg_denied _ _))
    | (with_reducible apply Chg.step (chg_mbxFinish _ _ _))
    | (with_reducible apply Chg.foldl)
    | (with_reducible apply Chg.orElse_getD)
    | (with_reducible apply Chg.getD)
    | (with_reducible apply Chg.foldl_snd)
    | intro _
    | split
    | dsimp only

theorem chg_execGetVersion {s t : State} {a} (h : execGetVersion a s = .next t) : Chg [.out] s t := by
  unfold execGetVersion at h
  obtain rfl := next_inj h
  clear h
  repeat' first
    | ((with_reducible apply subF_of); rfl)
    | (with_reducible apply subF.refl)
    | (with_reducible apply Chg.refl)
    | (with_reducible assumption)
    | (with_reducible apply Chg.step (chg_spdm _ _ _ _))
    | (with_reducible apply chg_onSpdm)
    | (with_reducible apply Chg.foldl)
    | (with_reducible apply Chg.orElse_getD)
    | (with_reducible apply Chg.getD)
    | (with_reducible apply Chg.foldl_snd)
    | intro _

theorem chg_execGetCapabilities {s t : State} {a} (h : execGetCapabilities a s = .next t) : Chg [.out] s t := by
  unfold execGetCapabilities at h
  obtain rfl := next_inj h
  clear h
  repeat' first
    | ((with_reducible apply subF_of); rfl)
    | (with_reducible apply subF.refl)
    | (with_reducible apply Chg.refl)
    | (with_reducible assumption)
    | (with_reducible apply Chg.step (chg_spdm _ _ _ _))
    | (with_reducible apply chg_onSpdm)
    | (with_reducible apply Chg.foldl)
    | (with_reducible apply Chg.orElse_getD)
    | (with_reducible apply Chg.getD)
    | (with_reducible apply Chg.foldl_snd)
    | intro _
    | split
    | dsimp only
    | ((with_reducible refine Chg.mk rfl ?_ rfl rfl rfl rfl ?_); · (intro x hx; cases x <;> first | rfl | exact ⟨rfl, rfl⟩ | exact absurd (by decide) hx))

theorem chg_execNegotiateAlgorithms {s t : State} {a} (h : execNegotiateAlgorithms a s = .next t) : Chg [.out] s t := by
  unfold execNegotiateAlgorithms at h
  obtain rfl := next_inj h
  clear h
  repeat' first
    | ((with_reducible apply subF_of); rfl)
    | (with_reducible apply subF.refl)
    | (with_reducible apply Chg.refl)
    | (with_reducible assumption)
    | (with_reducible apply Chg.step (chg_spdm _ _ _ _))
    | (with_reducible apply chg_onSpdm)
    | (with_reducible apply Chg.foldl)
    | (with_reducible apply Chg.orElse_getD)
    | (with_reducible apply Chg.getD)
    | (with_reducible apply Chg.foldl_snd)
    | intro _

theorem chg_execGetDigests {s t : State} {a} (h : execGetDigests a s = .next t) : Chg [.out] s t := by
  unfold execGetDigests at h
  obtain rfl := next_inj h
  clear h
  repeat' first
    | ((with_reducible apply subF_of); rfl)
    | (with_reducible apply subF.refl)
    | (with_reducible apply Chg.refl)
    | (with_reducible assumption)
    | (with_reducible apply Chg.step (chg_spdm _ _ _ _))
    | (with_reducible apply chg_onSpdm)
    | (with_reducible apply Chg.foldl)
    | (with_reducible apply Chg.orElse_getD)
    | (with_reducible apply Chg.getD)
    | (with_reducible apply Chg.foldl_snd)
    | intro _
    | split
    | dsimp only
    | ((with_reducible refine Chg.mk rfl ?_ rfl rfl rfl rfl ?_); · (intro x hx; cases x <;> first | rfl | exact ⟨rfl, rfl⟩ | exact absurd (by decide) hx))

theorem chg_execGetCertificate {s t : State} {a b c d} (h : execGetCertificate a b c d s = .next t) : Chg [.out] s t := by
  unfold execGetCertificate at h
  obtain rfl := next_inj h
  clear h
  repeat' first
    | ((with_reducible apply subF_of); rfl)
    | (with_reducible apply subF.refl)
    | (with_reducible apply Chg.refl)
    | (with_reducible assumption)
    | (with_reducible apply Chg.step (chg_spdm _ _ _ _))
    | (with_reducible apply Chg.step (chg_spdmErr _ _ _))
    | (with_reducible apply chg_onSpdm)
    | (with_reducible apply Chg.foldl)
    | (with_reducible apply Chg.orElse_getD)
    | (with_reducible apply Chg.getD)
    | (with_reducible apply Chg.foldl_snd)
    | intro _
    | split
    | dsimp only
    | ((with_reducible refine Chg.mk rfl ?_ rfl rfl rfl rfl ?_); · (intro x hx; cases x <;> first | rfl | exact ⟨rfl, rfl⟩ | exact absurd (by decide) hx))

theorem chg_execChallenge {s t : State} {a b c} (h : execChallenge a b c s = .next t) : Chg [.out] s t := by
  unfold execChallenge at h
  obtain rfl := next_inj h
  clear h
  repeat' first
    | ((with_reducible apply subF_of); rfl)
    | (with_reducible apply subF.refl)
    | (with_reducible apply Chg.refl)
    | (with_reducible assumption)
    | (with_reducible apply Chg.step (chg_spdm _ _ _ _))
    | (with_reducible apply Chg.step (chg_spdmErr _ _ _))
    | (with_reducible apply chg_onSpdm)
    | (with_reducible apply Chg.foldl)
    | (with_reducible apply Chg.orElse_getD)
    | (with_reducible apply Chg.getD)
    | (with_reducible apply Chg.foldl_snd)
    | intro _
    | split
    | dsimp only
    | ((with_reducible refine Chg.mk rfl ?_ rfl rfl rfl rfl ?_); · (intro x hx; cases x <;> first | rfl | exact ⟨rfl, rfl⟩ | exact absurd (by decide) hx))

theorem chg_execGetMeasurements {s t : State} {a b c d} (h : execGetMeasurements a b c d s = .next t) : Chg [.out, .sec] s t := by
  unfold execGetMeasurements at h
  obtain rfl := next_inj h
  clear h
  repeat' first
    | ((with_reducible apply subF_of); rfl)
    | (with_reducible apply subF.refl)
    | (with_reducible apply Chg.refl)
    | (with_reducible assumption)
    | (with_reducible apply Chg.step (chg_spdm _ _ _ _))
    | (with_reducible apply Chg.step (chg_spdmErr _ _ _))
    | (with_reducible apply chg_onSpdm)
    | (with_reducible apply chg_inSession)
    | (with_reducible apply Chg.foldl)
    | (with_reducible apply Chg.orElse_getD)
    | (with_reducible apply Chg.getD)
    | (with_reducible apply Chg.foldl_snd)
    | intro _
    | split
    | dsimp only
    | ((with_reducible refine Chg.mk rfl ?_ rfl rfl rfl rfl ?_); · (intro x hx; cases x <;> first | rfl | exact ⟨rfl, rfl⟩ | exact absurd (by decide) hx))

theorem chg_execKeyExchange {s t : State} {a b c} (h : execKeyExchange a b c s = .next t) : Chg [.out, .sec] s t := by
  unfold execKeyExchange at h
  obtain rfl := next_inj h
  clear h
  repeat' first
    | ((with_reducible apply subF_of); rfl)
    | (with_reducible apply subF.refl)
    | (with_reducible apply Chg.refl)
    | (with_reducible assumption)
    | (with_reducible apply Chg.step (chg_draw _ _))
    | (with_reducible (apply Chg.step (Chg.snd (chg_draw _ _) ?e)); case e => assumption)
    | (with_reducible apply Chg.step (chg_setSessions _ _ _))
    | (with_reducible apply Chg.step (chg_spdm _ _ _ _))
    | (with_reducible apply Chg.step (chg_spdmErr _ _ _))
    | (with_reducible apply chg_onSpdm)
    | (with_reducible apply Chg.foldl)
    | (with_reducible apply Chg.orElse_getD)
    | (with_reducible apply Chg.getD)
    | (with_reducible apply Chg.foldl_snd)
    | intro _
    | split
    | dsimp only
    | ((with_reducible refine Chg.mk rfl ?_ rfl rfl rfl rfl ?_); · (intro x hx; cases x <;> first | rfl | exact ⟨rfl, rfl⟩ | exact absurd (by decide) hx))

theorem chg_execFinish {s t : State} {a b c} (h : execFinish a b c s = .next t) : Chg [.out, .sec] s t := by
  unfold execFinish at h
  obtain rfl := next_inj h
  clear h
  repeat' first
    | ((with_reducible apply subF_of); rfl)
    | (with_reducible apply subF.refl)
    | (with_reducible apply Chg.refl)
    | (with_reducible assumption)
    | (with_reducible apply Chg.step (chg_setSessions _ _ _))
    | (with_reducible apply chg_onSpdm)
    | (with_reducible apply chg_inSession)
    | (with_reducible apply Chg.foldl)
    | (with_reducible apply Chg.orElse_getD)
    | (with_reducible apply Chg.getD)
    | (with_reducible apply Chg.foldl_snd)
    | intro _
    | split
    | dsimp only
    | ((with_reducible refine Chg.mk rfl ?_ rfl rfl rfl rfl ?_); · (intro x hx; cases x <;> first | rfl | exact ⟨rfl, rfl⟩ | exact absurd (by decide) hx))

theorem chg_execHeartbeat {s t : State} {a b c} (h : execHeartbeat a b c s = .next t) : Chg [.out, .sec] s t := by
  unfold execHeartbeat at h
  obtain rfl := next_inj h
  clear h
  repeat' first
    | ((with_reducible apply subF_of); rfl)
    | (with_reducible apply subF.refl)
    | (with_reducible apply Chg.refl)
    | (with_reducible assumption)
    | (with_reducible apply chg_onSpdm)
    | (with_reducible apply chg_inSession)
    | (with_reducible apply Chg.foldl)
    | (with_reducible apply Chg.orElse_getD)
    | (with_reducible apply Chg.getD)
    | (with_reducible apply Chg.foldl_snd)
    | intro _
    | split
    | dsimp only
    | ((with_reducible refine Chg.mk rfl ?_ rfl rfl rfl rfl ?_); · (intro x hx; cases x <;> first | rfl | exact ⟨rfl, rfl⟩ | exact absurd (by decide) hx))

theorem chg_execKeyUpdate {s t : State} {a b c} (h : execKeyUpdate a b c s = .next t) : Chg [.out, .sec] s t := by
  unfold execKeyUpdate at h
  obtain rfl := next_inj h
  clear h
  repeat' first
    | ((with_reducible apply subF_of); rfl)
    | (with_reducible apply subF.refl)
    | (with_reducible apply Chg.refl)
    | (with_reducible assumption)
    | (with_reducible apply Chg.step (chg_setSessions _ _ _))
    | (with_reducible apply chg_onSpdm)
    | (with_reducible apply chg_inSession)
    | (with_reducible apply Chg.foldl)
    | (with_reducible apply Chg.orElse_getD)
    | (with_reducible apply Chg.getD)
    | (with_reducible apply Chg.foldl_snd)
    | intro _
    | split
    | dsimp only
    | ((with_reducible refine Chg.mk rfl ?_ rfl rfl rfl rfl ?_); · (intro x hx; cases x <;> first | rfl | exact ⟨rfl, rfl⟩ | exact absurd (by decide) hx))

theorem chg_execEndSession {s t : State} {a b c} (h : execEndSession a b c s = .next t) : Chg [.out, .sec] s t := by
  unfold execEndSession at h
  obtain rfl := next_inj h
  clear h
  repeat' first
    | ((with_reducible apply subF_of); rfl)
    | (with_reducible apply subF.refl)
    | (with_reducible apply Chg.refl)
    | (with_reducible assumption)
    | (with_reducible apply Chg.step (chg_setSessions _ _ _))
    | (with_reducible apply chg_onSpdm)
    | (with_reducible apply chg_inSession)
    | (with_reducible apply Chg.foldl)
    | (with_reducible apply Chg.orElse_getD)
    | (with_reducible apply Chg.getD)
    | (with_reducible apply Chg.foldl_snd)
    | intro _
    | split
    | dsimp only
    | ((with_reducible refine Chg.mk rfl ?_ rfl rfl rfl rfl ?_); · (intro x hx; cases x <;> first | rfl | exact ⟨rfl, rfl⟩ | exact absurd (by decide) hx))

theorem chg_execVendorDefined {s t : State} {a b c d} (h : execVendorDefined a b c d s = .next t) : Chg [.out, .parts, .host, .sec] s t := by
  unfold execVendorDefined at h
  obtain rfl := next_inj h
  refine chg_onSpdm (subF_of rfl) (fun _ hu => chg_inSession (subF_of rfl) (fun u _ hv => ?_) hu) (Chg.refl _ _)
  split
  · exact hv
  · exact Chg.step (chg_vendorDo _ _) (subF_of rfl) hv

theorem chg_execLockInterface {s t : State} {a b c} (h : execLockInterface a b c s = .next t) : Chg [.out, .parts, .host, .sec] s t := by
  unfold execLockInterface at h
  obtain rfl := withUnit_next h
  clear h
  repeat' first
    | ((with_reducible apply subF_of); rfl)
    | (with_reducible apply subF.refl)
    | (with_reducible apply Chg.refl)
    | (with_reducible assumption)
    | (with_reducible apply chg_onTdisp)
    | (with_reducible apply Chg.step (chg_lockTdi _ _))
    | (with_reducible apply chg_onSpdm)
    | (with_reducible apply Chg.foldl)
    | (with_reducible apply Chg.orElse_getD)
    | (with_reducible apply Chg.getD)
    | (with_reducible apply Chg.foldl_snd)
    | intro _
    | split
    | dsimp only
    | ((with_reducible refine Chg.mk rfl ?_ rfl rfl rfl rfl ?_); · (intro x hx; cases x <;> first | rfl | exact ⟨rfl, rfl⟩ | exact absurd (by decide) hx))

theorem chg_execStopInterface {s t : State} {a b c} (h : execStopInterface a b c s = .next t) : Chg [.out, .regs, .parts, .host, .sec, .log] s t := by
  unfold execStopInterface at h
  obtain rfl := withUnit_next h
  clear h
  repeat' first
    | ((with_reducible apply subF_of); rfl)
    | (with_reducible apply subF.refl)
    | (with_reducible apply Chg.refl)
    | (with_reducible assumption)
    | (with_reducible apply Chg.step (chg_resetRekey _ _))
    | (with_reducible apply chg_onTdisp)
    | (with_reducible apply chg_onSpdm)
    | (with_reducible apply Chg.foldl)
    | (with_reducible apply Chg.orElse_getD)
    | (with_reducible apply Chg.getD)
    | (with_reducible apply Chg.foldl_snd)
    | intro _
    | split
    | dsimp only
    | ((with_reducible refine Chg.mk rfl ?_ rfl rfl rfl rfl ?_); · (intro x hx; cases x <;> first | rfl | exact ⟨rfl, rfl⟩ | exact absurd (by decide) hx))

theorem chg_execGetDeviceInterfaceReport {s t : State} {a b c} (h : execGetDeviceInterfaceReport a b c s = .next t) : Chg [.out, .sec] s t := by
  unfold execGetDeviceInterfaceReport at h
  obtain rfl := withUnit_next h
  clear h
  repeat' first
    | ((with_reducible apply subF_of); rfl)
    | (with_reducible apply subF.refl)
    | (with_reducible apply Chg.refl)
    | (with_reducible assumption)
    | (with_reducible apply chg_onTdisp)
    | (with_reducible apply chg_onSpdm)
    | (with_reducible apply Chg.foldl)
    | (with_reducible apply Chg.orElse_getD)
    | (with_reducible apply Chg.getD)
    | (with_reducible apply Chg.foldl_snd)
    | intro _
    | split
    | dsimp only
    | ((with_reducible refine Chg.mk rfl ?_ rfl rfl rfl rfl ?_); · (intro x hx; cases x <;> first | rfl | exact ⟨rfl, rfl⟩ | exact absurd (by decide) hx))

theorem chg_execGovernorCapTakeHold {s t : State} {a} (h : execGovernorCapTakeHold a s = .next t) : Chg [.regs, .cores] s t := by
  unfold execGovernorCapTakeHold at h
  obtain rfl := withUnit_next h
  clear h
  repeat' first
    | ((with_reducible apply subF_of); rfl)
    | (with_reducible apply subF.refl)
    | (with_reducible apply Chg.refl)
    | (with_reducible assumption)
    | (with_reducible apply Chg.step (chg_endCap _ _))
    | (with_reducible apply Chg.step (chg_modCore _ _ _))
    | (with_reducible apply Chg.step (chg_setFld _ _ _ _ _))
    | (with_reducible apply Chg.foldl)
    | (with_reducible apply Chg.orElse_getD)
    | (with_reducible apply Chg.getD)
    | (with_reducible apply Chg.foldl_snd)
    | intro _
    | split
    | dsimp only
    | ((with_reducible refine Chg.mk rfl ?_ rfl rfl rfl rfl ?_); · (intro x hx; cases x <;> first | rfl | exact ⟨rfl, rfl⟩ | exact absurd (by decide) hx))

theorem chg_execSextantUpdate {s t : State} {a b} (h : execSextantUpdate a b s = .next t) : Chg [.regs, .cores] s t := by
  unfold execSextantUpdate at h
  obtain rfl := withUnit_next h
  clear h
  repeat' first
    | ((with_reducible apply subF_of); rfl)
    | (with_reducible apply subF.refl)
    | (with_reducible apply Chg.refl)
    | (with_reducible assumption)
    | (with_reducible apply Chg.step (chg_modCore _ _ _))
    | (with_reducible apply Chg.step (chg_setFld _ _ _ _ _))
    | (with_reducible apply Chg.foldl)
    | (with_reducible apply Chg.orElse_getD)
    | (with_reducible apply Chg.getD)
    | (with_reducible apply Chg.foldl_snd)
    | intro _
    | split
    | dsimp only
    | ((with_reducible refine Chg.mk rfl ?_ rfl rfl rfl rfl ?_); · (intro x hx; cases x <;> first | rfl | exact ⟨rfl, rfl⟩ | exact absurd (by decide) hx))

theorem chg_execAgeingEvaluation {s t : State} {a b} (h : execAgeingEvaluation a b s = .next t) : Chg [.out, .regs, .cores, .host, .boot, .log] s t := by
  unfold execAgeingEvaluation at h
  obtain rfl := withUnit_next h
  clear h
  repeat' first
    | ((with_reducible apply subF_of); rfl)
    | (with_reducible apply subF.refl)
    | (with_reducible apply Chg.refl)
    | (with_reducible assumption)
    | (with_reducible apply Chg.step (chg_endCap _ _))
    | (with_reducible apply Chg.step (chg_logRaise _ _ _ _ _ _))
    | (with_reducible apply Chg.step (chg_pwrEvent _ _ _))
    | (with_reducible apply Chg.step (chg_setBit _ _ _ _))
    | (with_reducible apply Chg.step (chg_setFld _ _ _ _ _))
    | (with_reducible apply Chg.foldl)
    | (with_reducible apply Chg.orElse_getD)
    | (with_reducible apply Chg.getD)
    | (with_reducible apply Chg.foldl_snd)
    | intro _
    | split
    | dsimp only
    | ((with_reducible refine Chg.mk rfl ?_ rfl rfl rfl rfl ?_); · (intro x hx; cases x <;> first | rfl | exact ⟨rfl, rfl⟩ | exact absurd (by decide) hx))

theorem chg_execPowerLoopUpdate {s t : State} {a b} (h : execPowerLoopUpdate a b s = .next t) : Chg [.free, .out, .regs, .cores, .host, .pwr, .log] s t := by
  unfold execPowerLoopUpdate at h
  obtain rfl := next_inj h
  clear h
  repeat' first
    | ((with_reducible apply subF_of); rfl)
    | (with_reducible apply subF.refl)
    | (with_reducible apply Chg.refl)
    | (with_reducible assumption)
    | (with_reducible apply Chg.step (chg_loopMove _ _ _))
    | (with_reducible apply Chg.step (chg_loopStatus _))
    | (with_reducible apply Chg.step (chg_sample _ _))
    | (with_reducible apply Chg.step (chg_showRails _ _))
    | (with_reducible apply Chg.step (chg_thermalCaps _))
    | (with_reducible apply Chg.foldl)
    | (with_reducible apply Chg.orElse_getD)
    | (with_reducible apply Chg.getD)
    | (with_reducible apply Chg.foldl_snd)
    | intro _
    | split
    | dsimp only
    | ((with_reducible refine Chg.mk rfl ?_ rfl rfl rfl rfl ?_); · (intro x hx; cases x <;> first | rfl | exact ⟨rfl, rfl⟩ | exact absurd (by decide) hx))

theorem chg_execFastClamp {s t : State} {a} (h : execFastClamp a s = .next t) : Chg [.out, .regs, .cores, .host, .pwr, .log] s t := by
  have aux : ∀ (v : State) (d : Power), Chg [.out, .regs, .cores, .host, .pwr, .log] s v → Chg [.out, .regs, .cores, .host, .pwr, .log] s { v with pwr := d } := fun v d hv =>
    Chg.mk rfl (by intro f hf; cases f <;> first | rfl | exact ⟨rfl, rfl⟩ | exact absurd (by decide) hf) rfl rfl rfl rfl hv
  unfold execFastClamp at h
  obtain rfl := next_inj h
  clear h
  split
  · extract_lets t pw u
    have ht : Chg [.out, .regs, .cores, .host, .pwr, .log] s t := Chg.foldl (Chg.refl _ _) fun v p hv => Chg.step (chg_setCaps _ _ _) (subF_of rfl) hv
    clear_value t
    have hu : Chg [.out, .regs, .cores, .host, .pwr, .log] s u := aux _ _ ht
    clear_value u
    exact Chg.step (chg_setAlert _) (subF_of rfl) (Chg.step (chg_pwrRecord _) (subF_of rfl)
      (Chg.step (chg_pwrEvent _ _ _) (subF_of rfl) (Chg.step (chg_setBit _ _ _ _) (subF_of rfl) hu)))
  · exact Chg.refl _ _

theorem chg_execFastClampEnd {s t : State} (h : execFastClampEnd s = .next t) : Chg [.regs, .cores, .pwr] s t := by
  have aux : ∀ (v : State) (d : Power), Chg [.regs, .cores, .pwr] s v → Chg [.regs, .cores, .pwr] s { v with pwr := d } := fun v d hv =>
    Chg.mk rfl (by intro f hf; cases f <;> first | rfl | exact ⟨rfl, rfl⟩ | exact absurd (by decide) hf) rfl rfl rfl rfl hv
  unfold execFastClampEnd at h
  obtain rfl := next_inj h
  clear h
  split
  · split
    · extract_lets t
      have ht : Chg [.regs, .cores, .pwr] s t := Chg.foldl (Chg.refl _ _) fun v p hv => Chg.step (chg_setCaps _ _ _) (subF_of rfl) hv
      clear_value t
      exact Chg.step (chg_setAlert _) (subF_of rfl) (Chg.step (chg_setBit _ _ _ _) (subF_of rfl) (aux _ _ ht))
    · exact Chg.refl _ _
  · exact Chg.refl _ _

theorem chg_execThermalRead {s t : State} {a b} (h : execThermalRead a b s = .next t) : Chg [.out, .regs, .host, .pwr] s t := by
  unfold execThermalRead at h
  obtain rfl := withUnit_next h
  clear h
  repeat' first
    | ((with_reducible apply subF_of); rfl)
    | (with_reducible apply subF.refl)
    | (with_reducible apply Chg.refl)
    | (with_reducible assumption)
    | (with_reducible apply Chg.step (chg_readSensors _ _ _))
    | (with_reducible apply Chg.foldl)
    | (with_reducible apply Chg.orElse_getD)
    | (with_reducible apply Chg.getD)
    | (with_reducible apply Chg.foldl_snd)
    | intro _
    | split

theorem chg_execTelemetryRead {s t : State} {a b} (h : execTelemetryRead a b s = .next t) : Chg [.out, .regs, .host, .pwr] s t := by
  unfold execTelemetryRead at h
  obtain rfl := withUnit_next h
  clear h
  repeat' first
    | ((with_reducible apply subF_of); rfl)
    | (with_reducible apply subF.refl)
    | (with_reducible apply Chg.refl)
    | (with_reducible assumption)
    | (with_reducible apply Chg.step (chg_reading _ _ _))
    | (with_reducible apply Chg.step (chg_stackShot _ _ _))
    | (with_reducible apply Chg.step (chg_thermStatus _))
    | (with_reducible apply Chg.foldl)
    | (with_reducible apply Chg.orElse_getD)
    | (with_reducible apply Chg.getD)
    | (with_reducible apply Chg.foldl_snd)
    | intro _
    | split
    | dsimp only
    | ((with_reducible refine Chg.mk rfl ?_ rfl rfl rfl rfl ?_); · (intro x hx; cases x <;> first | rfl | exact ⟨rfl, rfl⟩ | exact absurd (by decide) hx))

theorem chg_execThermalTrip {s t : State} (h : execThermalTrip s = .next t) : Chg [.out, .regs, .latch, .held, .mem, .memEpoch, .poison, .cores, .launches, .queues, .parts, .dies, .chans, .copies, .links, .chart, .host, .sec, .pwr, .boot, .dbg, .log] s t := by
  unfold execThermalTrip at h
  obtain rfl := next_inj h
  clear h
  repeat' first
    | ((with_reducible apply subF_of); rfl)
    | (with_reducible apply subF.refl)
    | (with_reducible apply Chg.refl)
    | (with_reducible assumption)
    | (with_reducible apply Chg.step (chg_emergencyStop _ _))
    | (with_reducible apply Chg.foldl)
    | (with_reducible apply Chg.orElse_getD)
    | (with_reducible apply Chg.getD)
    | (with_reducible apply Chg.foldl_snd)
    | intro _
    | split

theorem chg_execCoolantSample {s t : State} {a b} (h : execCoolantSample a b s = .next t) : Chg [.regs, .pwr] s t := by
  unfold execCoolantSample at h
  obtain rfl := next_inj h
  clear h
  repeat' first
    | ((with_reducible apply subF_of); rfl)
    | (with_reducible apply subF.refl)
    | (with_reducible apply Chg.refl)
    | (with_reducible assumption)
    | (with_reducible apply Chg.step (chg_coolant _ _ _))
    | (with_reducible apply Chg.foldl)
    | (with_reducible apply Chg.orElse_getD)
    | (with_reducible apply Chg.getD)
    | (with_reducible apply Chg.foldl_snd)
    | intro _
    | split

theorem chg_execForcedCap {s t : State} (h : execForcedCap s = .next t) : Chg [.out, .regs, .host, .pwr, .log] s t := by
  unfold execForcedCap at h
  obtain rfl := next_inj h
  clear h
  repeat' first
    | ((with_reducible apply subF_of); rfl)
    | (with_reducible apply subF.refl)
    | (with_reducible apply Chg.refl)
    | (with_reducible assumption)
    | (with_reducible apply Chg.step (chg_pwrEvent _ _ _))
    | (with_reducible apply Chg.step (chg_pwrRecord _))
    | (with_reducible apply Chg.step (chg_setAlert _))
    | (with_reducible apply Chg.step (chg_setBit _ _ _ _))
    | (with_reducible apply Chg.foldl)
    | (with_reducible apply Chg.orElse_getD)
    | (with_reducible apply Chg.getD)
    | (with_reducible apply Chg.foldl_snd)
    | intro _
    | split
    | dsimp only
    | ((with_reducible refine Chg.mk rfl ?_ rfl rfl rfl rfl ?_); · (intro x hx; cases x <;> first | rfl | exact ⟨rfl, rfl⟩ | exact absurd (by decide) hx))

theorem chg_execForcedCapEnd {s t : State} (h : execForcedCapEnd s = .next t) : Chg [.regs, .pwr, .log] s t := by
  unfold execForcedCapEnd at h
  obtain rfl := next_inj h
  clear h
  repeat' first
    | ((with_reducible apply subF_of); rfl)
    | (with_reducible apply subF.refl)
    | (with_reducible apply Chg.refl)
    | (with_reducible assumption)
    | (with_reducible apply Chg.step (chg_pwrRecord _))
    | (with_reducible apply Chg.step (chg_setAlert _))
    | (with_reducible apply Chg.step (chg_setBit _ _ _ _))
    | (with_reducible apply Chg.foldl)
    | (with_reducible apply Chg.orElse_getD)
    | (with_reducible apply Chg.getD)
    | (with_reducible apply Chg.foldl_snd)
    | intro _
    | split
    | dsimp only
    | ((with_reducible refine Chg.mk rfl ?_ rfl rfl rfl rfl ?_); · (intro x hx; cases x <;> first | rfl | exact ⟨rfl, rfl⟩ | exact absurd (by decide) hx))

end Sys2Proof.Machine
end

