-- ==== Sys2Proof/Laws/ChgExec6.lean ====
section
/-! SUPPORT. What each meaning may change, part 6. -/

namespace Sys2Proof.Machine

theorem chg_execEmergencyStop {s t : State} (h : execEmergencyStop s = .next t) : Chg [.out, .regs, .latch, .held, .mem, .memEpoch, .poison, .cores, .launches, .queues, .parts, .dies, .chans, .copies, .links, .chart, .host, .sec, .pwr, .boot, .dbg, .log] s t := by
  unfold execEmergencyStop at h
  obtain rfl := next_inj h
  clear h
  repeat' first
    | ((with_reducible apply subF_of); rfl)
    | (with_reducible apply subF.refl)
    | (with_reducible apply Chg.refl)
    | (with_reducible assumption)
    | (with_reducible apply Chg.step (chg_emergencyStop _ _))
    | (with_reducible apply Chg.foldl)
    | (with_reducible apply Chg.orElse_getD)
    | (with_reducible apply Chg.getD)
    | (with_reducible apply Chg.foldl_snd)
    | intro _
    | split

theorem chg_execPerstNAssert {s t : State} {a} (h : execPerstNAssert a s = .next t) : Chg [.regs, .latch, .held, .mem, .memEpoch, .poison, .cores, .launches, .queues, .parts, .dies, .chans, .copies, .links, .chart, .host, .sec, .pwr, .boot, .dbg, .log] s t := by
  unfold execPerstNAssert at h
  obtain rfl := next_inj h
  clear h
  repeat' first
    | ((with_reducible apply subF_of); rfl)
    | (with_reducible apply subF.refl)
    | (with_reducible apply Chg.refl)
    | (with_reducible assumption)
    | (with_reducible apply Chg.step (chg_enterReset _ _))
    | (with_reducible apply Chg.foldl)
    | (with_reducible apply Chg.orElse_getD)
    | (with_reducible apply Chg.getD)
    | (with_reducible apply Chg.foldl_snd)
    | intro _
    | split
    | dsimp only
    | ((with_reducible refine Chg.mk rfl ?_ rfl rfl rfl rfl ?_); · (intro x hx; cases x <;> first | rfl | exact ⟨rfl, rfl⟩ | exact absurd (by decide) hx))

theorem chg_execPerstNDeassert {s t : State} (h : execPerstNDeassert s = .next t) : Chg [.boot] s t := by
  unfold execPerstNDeassert at h
  obtain rfl := next_inj h
  clear h
  repeat' first
    | ((with_reducible apply subF_of); rfl)
    | (with_reducible apply subF.refl)
    | (with_reducible apply Chg.refl)
    | (with_reducible assumption)
    | (with_reducible apply Chg.foldl)
    | (with_reducible apply Chg.orElse_getD)
    | (with_reducible apply Chg.getD)
    | (with_reducible apply Chg.foldl_snd)
    | intro _
    | split
    | dsimp only
    | ((with_reducible refine Chg.mk rfl ?_ rfl rfl rfl rfl ?_); · (intro x hx; cases x <;> first | rfl | exact ⟨rfl, rfl⟩ | exact absurd (by decide) hx))

theorem chg_execVinMainOutOfRange {s t : State} {a} (h : execVinMainOutOfRange a s = .next t) : Chg [.regs, .latch, .held, .mem, .memEpoch, .poison, .cores, .launches, .queues, .parts, .dies, .chans, .copies, .links, .chart, .host, .sec, .pwr, .boot, .dbg, .log] s t := by
  unfold execVinMainOutOfRange at h
  obtain rfl := next_inj h
  clear h
  repeat' first
    | ((with_reducible apply subF_of); rfl)
    | (with_reducible apply subF.refl)
    | (with_reducible apply Chg.refl)
    | (with_reducible assumption)
    | (with_reducible apply Chg.step (chg_mainMean _ _))
    | (with_reducible apply Chg.foldl)
    | (with_reducible apply Chg.orElse_getD)
    | (with_reducible apply Chg.getD)
    | (with_reducible apply Chg.foldl_snd)
    | intro _
    | split
    | dsimp only
    | ((with_reducible refine Chg.mk rfl ?_ rfl rfl rfl rfl ?_); · (intro x hx; cases x <;> first | rfl | exact ⟨rfl, rfl⟩ | exact absurd (by decide) hx))

theorem chg_execVinMainInRange {s t : State} {a} (h : execVinMainInRange a s = .next t) : Chg [.regs, .latch, .held, .mem, .memEpoch, .poison, .cores, .launches, .queues, .parts, .dies, .chans, .copies, .links, .chart, .host, .sec, .pwr, .boot, .dbg, .log] s t := by
  unfold execVinMainInRange at h
  obtain rfl := next_inj h
  clear h
  repeat' first
    | ((with_reducible apply subF_of); rfl)
    | (with_reducible apply subF.refl)
    | (with_reducible apply Chg.refl)
    | (with_reducible assumption)
    | (with_reducible apply Chg.step (chg_mainMean _ _))
    | (with_reducible apply Chg.foldl)
    | (with_reducible apply Chg.orElse_getD)
    | (with_reducible apply Chg.getD)
    | (with_reducible apply Chg.foldl_snd)
    | intro _
    | split
    | dsimp only
    | ((with_reducible refine Chg.mk rfl ?_ rfl rfl rfl rfl ?_); · (intro x hx; cases x <;> first | rfl | exact ⟨rfl, rfl⟩ | exact absurd (by decide) hx))

theorem chg_execVinAuxLoss {s t : State} (h : execVinAuxLoss s = .next t) : Chg [.free, .regs, .latch, .held, .mem, .memEpoch, .poison, .cores, .launches, .queues, .parts, .dies, .chans, .copies, .links, .chart, .host, .sec, .pwr, .boot, .dbg, .log, .records] s t := by
  unfold execVinAuxLoss at h
  obtain rfl := next_inj h
  clear h
  repeat' first
    | ((with_reducible apply subF_of); rfl)
    | (with_reducible apply subF.refl)
    | (with_reducible apply Chg.refl)
    | (with_reducible assumption)
    | (with_reducible apply Chg.step (chg_auxLoss _))

theorem chg_execVinAuxUp {s t : State} {a} (h : execVinAuxUp a s = .next t) : Chg [.boot] s t := by
  unfold execVinAuxUp at h
  obtain rfl := next_inj h
  clear h
  repeat' first
    | ((with_reducible apply subF_of); rfl)
    | (with_reducible apply subF.refl)
    | (with_reducible apply Chg.refl)
    | (with_reducible assumption)
    | (with_reducible apply Chg.foldl)
    | (with_reducible apply Chg.orElse_getD)
    | (with_reducible apply Chg.getD)
    | (with_reducible apply Chg.foldl_snd)
    | intro _
    | split
    | dsimp only
    | ((with_reducible refine Chg.mk rfl ?_ rfl rfl rfl rfl ?_); · (intro x hx; cases x <;> first | rfl | exact ⟨rfl, rfl⟩ | exact absurd (by decide) hx))

theorem chg_execStartupBegin {s t : State} (h : execStartupBegin s = .next t) : Chg [.regs, .pwr, .boot, .log] s t := by
  unfold execStartupBegin at h
  obtain rfl := next_inj h
  clear h
  repeat' first
    | ((with_reducible apply subF_of); rfl)
    | (with_reducible apply subF.refl)
    | (with_reducible apply Chg.refl)
    | (with_reducible assumption)
    | (with_reducible apply Chg.step (chg_logRaise _ _ _ _ _ _))
    | (with_reducible apply Chg.foldl)
    | (with_reducible apply Chg.orElse_getD)
    | (with_reducible apply Chg.getD)
    | (with_reducible apply Chg.foldl_snd)
    | intro _
    | split
    | dsimp only
    | ((with_reducible refine Chg.mk rfl ?_ rfl rfl rfl rfl ?_); · (intro x hx; cases x <;> first | rfl | exact ⟨rfl, rfl⟩ | exact absurd (by decide) hx))

theorem chg_execLampLight {s t : State} {a} (h : execLampLight a s = .next t) : Chg [.out, .regs, .mem, .memEpoch, .poison, .cores, .parts, .dies, .chans, .links, .host, .sec, .boot, .dbg, .log, .records] s t := by
  unfold execLampLight at h
  obtain rfl := withUnit_next h
  clear h
  repeat' first
    | ((with_reducible apply subF_of); rfl)
    | (with_reducible apply subF.refl)
    | (with_reducible apply Chg.refl)
    | (with_reducible assumption)
    | (with_reducible apply Chg.step (chg_onLamp _ _))
    | (with_reducible apply Chg.step (chg_relight _))
    | (with_reducible apply Chg.step (chg_setLamp _ _ _))
    | (with_reducible apply Chg.step (chg_traceLamp _ _ _))
    | (with_reducible apply Chg.foldl)
    | (with_reducible apply Chg.orElse_getD)
    | (with_reducible apply Chg.getD)
    | (with_reducible apply Chg.foldl_snd)
    | intro _
    | split

theorem chg_execLampTimeout {s t : State} {a} (h : execLampTimeout a s = .next t) : Chg [.regs, .boot, .log] s t := by
  unfold execLampTimeout at h
  obtain rfl := withUnit_next h
  clear h
  repeat' first
    | ((with_reducible apply subF_of); rfl)
    | (with_reducible apply subF.refl)
    | (with_reducible apply Chg.refl)
    | (with_reducible assumption)
    | (with_reducible apply Chg.step (chg_logRaise _ _ _ _ _ _))
    | (with_reducible apply Chg.step (chg_setBit _ _ _ _))
    | (with_reducible apply Chg.foldl)
    | (with_reducible apply Chg.orElse_getD)
    | (with_reducible apply Chg.getD)
    | (with_reducible apply Chg.foldl_snd)
    | intro _
    | split
    | dsimp only
    | ((with_reducible refine Chg.mk rfl ?_ rfl rfl rfl rfl ?_); · (intro x hx; cases x <;> first | rfl | exact ⟨rfl, rfl⟩ | exact absurd (by decide) hx))

theorem chg_execStartModeEnd {s t : State} (h : execStartModeEnd s = .next t) : Chg [.boot] s t := by
  unfold execStartModeEnd at h
  obtain rfl := next_inj h
  clear h
  repeat' first
    | ((with_reducible apply subF_of); rfl)
    | (with_reducible apply subF.refl)
    | (with_reducible apply Chg.refl)
    | (with_reducible assumption)
    | (with_reducible apply Chg.foldl)
    | (with_reducible apply Chg.orElse_getD)
    | (with_reducible apply Chg.getD)
    | (with_reducible apply Chg.foldl_snd)
    | intro _
    | split
    | dsimp only
    | ((with_reducible refine Chg.mk rfl ?_ rfl rfl rfl rfl ?_); · (intro x hx; cases x <;> first | rfl | exact ⟨rfl, rfl⟩ | exact absurd (by decide) hx))

theorem chg_execRimDierstWrite {s t : State} {a} (h : execRimDierstWrite a s = .next t) : Chg [.gt, .out, .regs, .mem, .memEpoch, .poison, .cores, .launches, .parts, .dies, .chans, .copies, .links, .host, .boot, .dbg, .log] s t := by
  unfold execRimDierstWrite at h
  obtain rfl := next_inj h
  clear h
  repeat' first
    | ((with_reducible apply subF_of); rfl)
    | (with_reducible apply subF.refl)
    | (with_reducible apply Chg.refl)
    | (with_reducible assumption)
    | (with_reducible apply Chg.step (chg_askDie _ _))
    | (with_reducible apply Chg.step (chg_dieResets _))
    | (with_reducible apply chg_pfStores)
    | (with_reducible apply Chg.foldl)
    | (with_reducible apply Chg.orElse_getD)
    | (with_reducible apply Chg.getD)
    | (with_reducible apply Chg.foldl_snd)
    | intro _
    | split
    | dsimp only
    | ((with_reducible refine Chg.mk rfl ?_ rfl rfl rfl rfl ?_); · (intro x hx; cases x <;> first | rfl | exact ⟨rfl, rfl⟩ | exact absurd (by decide) hx))

theorem chg_execPartResetRemoteDone {s t : State} {a} (h : execPartResetRemoteDone a s = .next t) : Chg [.gt, .out, .regs, .mem, .memEpoch, .poison, .cores, .launches, .parts, .dies, .chans, .copies, .links, .host, .boot, .dbg, .log] s t := by
  unfold execPartResetRemoteDone at h
  obtain rfl := withUnit_next h
  clear h
  repeat' first
    | ((with_reducible apply subF_of); rfl)
    | (with_reducible apply subF.refl)
    | (with_reducible apply Chg.refl)
    | (with_reducible assumption)
    | (with_reducible apply Chg.step (chg_dieResets _))
    | (with_reducible apply Chg.step (chg_modPart _ _ _))
    | (with_reducible apply Chg.foldl)
    | (with_reducible apply Chg.orElse_getD)
    | (with_reducible apply Chg.getD)
    | (with_reducible apply Chg.foldl_snd)
    | intro _
    | split

theorem chg_execCoreStallRetire {s t : State} {a} (h : execCoreStallRetire a s = .next t) : Chg [.free, .regs, .cores, .launches, .chart, .dbg, .log] s t := by
  unfold execCoreStallRetire at h
  obtain rfl := withUnit_next h
  clear h
  repeat' first
    | ((with_reducible apply subF_of); rfl)
    | (with_reducible apply subF.refl)
    | (with_reducible apply Chg.refl)
    | (with_reducible assumption)
    | (with_reducible apply Chg.step (chg_retireCore _ _ _ _))
    | (with_reducible apply Chg.foldl)
    | (with_reducible apply Chg.orElse_getD)
    | (with_reducible apply Chg.getD)
    | (with_reducible apply Chg.foldl_snd)
    | intro _
    | split
    | dsimp only
    | ((with_reducible refine Chg.mk rfl ?_ rfl rfl rfl rfl ?_); · (intro x hx; cases x <;> first | rfl | exact ⟨rfl, rfl⟩ | exact absurd (by decide) hx))

theorem chg_execEngineRetire {s t : State} {a b} (h : execEngineRetire a b s = .next t) : Chg [.gt, .free, .out, .regs, .cores, .launches, .parts, .dies, .copies, .links, .chart, .host, .boot, .dbg, .log] s t := by
  unfold execEngineRetire at h
  obtain rfl := withUnit_next h
  clear h
  repeat' first
    | ((with_reducible apply subF_of); rfl)
    | (with_reducible apply subF.refl)
    | (with_reducible apply Chg.refl)
    | (with_reducible assumption)
    | (with_reducible apply Chg.step (chg_collError _ _))
    | (with_reducible apply Chg.step (chg_copyError _ _))
    | (with_reducible apply Chg.step (chg_coreCorrected _ _))
    | (with_reducible apply Chg.step (chg_coreError _ _))
    | (with_reducible apply Chg.step (chg_digError _ _))
    | (with_reducible apply Chg.step (chg_l1Parity _ _))
    | (with_reducible apply Chg.step (chg_mramError _ _))
    | (with_reducible apply Chg.step (chg_retireLink _ _))
    | (with_reducible apply Chg.step (chg_retireOe _ _))
    | (with_reducible apply Chg.step (chg_routerError _ _))
    | (with_reducible apply Chg.foldl)
    | (with_reducible apply Chg.orElse_getD)
    | (with_reducible apply Chg.getD)
    | (with_reducible apply Chg.foldl_snd)
    | intro _
    | split
    | dsimp only
    | ((with_reducible refine Chg.mk rfl ?_ rfl rfl rfl rfl ?_); · (intro x hx; cases x <;> first | rfl | exact ⟨rfl, rfl⟩ | exact absurd (by decide) hx))

theorem chg_execDigSwctrlEnable {s t : State} {a} (h : execDigSwctrlEnable a s = .next t) : Chg [.out, .regs, .parts, .host, .dbg] s t := by
  unfold execDigSwctrlEnable at h
  obtain rfl := withUnit_next h
  clear h
  repeat' first
    | ((with_reducible apply subF_of); rfl)
    | (with_reducible apply subF.refl)
    | (with_reducible apply Chg.refl)
    | (with_reducible assumption)
    | (with_reducible apply Chg.step (chg_setBit _ _ _ _))
    | (with_reducible apply Chg.step (chg_setReg _ _ _))
    | (with_reducible apply Chg.step (chg_startSweep _ _))
    | (with_reducible apply chg_pfStores)
    | (with_reducible apply Chg.foldl)
    | (with_reducible apply Chg.orElse_getD)
    | (with_reducible apply Chg.getD)
    | (with_reducible apply Chg.foldl_snd)
    | intro _
    | split
    | dsimp only
    | ((with_reducible refine Chg.mk rfl ?_ rfl rfl rfl rfl ?_); · (intro x hx; cases x <;> first | rfl | exact ⟨rfl, rfl⟩ | exact absurd (by decide) hx))

theorem chg_execDigSwctrlDisable {s t : State} {a} (h : execDigSwctrlDisable a s = .next t) : Chg [.free, .out, .regs, .parts, .host, .dbg] s t := by
  unfold execDigSwctrlDisable at h
  obtain rfl := withUnit_next h
  clear h
  repeat' first
    | ((with_reducible apply subF_of); rfl)
    | (with_reducible apply subF.refl)
    | (with_reducible apply Chg.refl)
    | (with_reducible assumption)
    | (with_reducible apply Chg.step (chg_setBit _ _ _ _))
    | (with_reducible apply Chg.step (chg_stopSweep _ _))
    | (with_reducible apply chg_pfStores)
    | (with_reducible apply Chg.foldl)
    | (with_reducible apply Chg.orElse_getD)
    | (with_reducible apply Chg.getD)
    | (with_reducible apply Chg.foldl_snd)
    | intro _
    | split
    | dsimp only
    | ((with_reducible refine Chg.mk rfl ?_ rfl rfl rfl rfl ?_); · (intro x hx; cases x <;> first | rfl | exact ⟨rfl, rfl⟩ | exact absurd (by decide) hx))

theorem chg_execSweepLineRead {s t : State} {a} (h : execSweepLineRead a s = .next t) : Chg [.free, .out, .regs, .parts, .dies, .chans, .dbg] s t := by
  unfold execSweepLineRead at h
  obtain rfl := withUnit_next h
  clear h
  repeat' first
    | ((with_reducible apply subF_of); rfl)
    | (with_reducible apply subF.refl)
    | (with_reducible apply Chg.refl)
    | (with_reducible assumption)
    | (with_reducible apply Chg.step (chg_sweepLine _ _))
    | (with_reducible apply Chg.foldl)
    | (with_reducible apply Chg.orElse_getD)
    | (with_reducible apply Chg.getD)
    | (with_reducible apply Chg.foldl_snd)
    | intro _
    | split

theorem chg_execSweepPassEnd {s t : State} {a} (h : execSweepPassEnd a s = .next t) : Chg [.regs, .parts, .dbg] s t := by
  unfold execSweepPassEnd at h
  obtain rfl := withUnit_next h
  clear h
  repeat' first
    | ((with_reducible apply subF_of); rfl)
    | (with_reducible apply subF.refl)
    | (with_reducible apply Chg.refl)
    | (with_reducible assumption)
    | (with_reducible apply Chg.step (chg_endPass _ _))
    | (with_reducible apply Chg.foldl)
    | (with_reducible apply Chg.orElse_getD)
    | (with_reducible apply Chg.getD)
    | (with_reducible apply Chg.foldl_snd)
    | intro _
    | split

theorem chg_execSweepRestart {s t : State} {a} (h : execSweepRestart a s = .next t) : Chg [.regs, .parts, .dbg] s t := by
  unfold execSweepRestart at h
  obtain rfl := withUnit_next h
  clear h
  repeat' first
    | ((with_reducible apply subF_of); rfl)
    | (with_reducible apply subF.refl)
    | (with_reducible apply Chg.refl)
    | (with_reducible assumption)
    | (with_reducible apply Chg.step (chg_startSweep _ _))
    | (with_reducible apply Chg.foldl)
    | (with_reducible apply Chg.orElse_getD)
    | (with_reducible apply Chg.getD)
    | (with_reducible apply Chg.foldl_snd)
    | intro _
    | split

theorem chg_execBeaconBuild {s t : State} {a} (h : execBeaconBuild a s = .next t) : Chg [.free, .out, .regs, .mem, .poison, .cores, .launches, .parts, .dies, .chans, .links, .log] s t := by
  unfold execBeaconBuild at h
  obtain rfl := withUnit_next h
  clear h
  repeat' first
    | ((with_reducible apply subF_of); rfl)
    | (with_reducible apply subF.refl)
    | (with_reducible apply Chg.refl)
    | (with_reducible assumption)
    | (with_reducible apply Chg.step (chg_beaconDue _ _))
    | (with_reducible (apply Chg.step (Chg.snd (chg_beaconDue _ _) ?e)); case e => assumption)
    | (with_reducible apply Chg.step (chg_makeBeacon _ _ _))
    | (with_reducible (apply Chg.step (Chg.snd (chg_makeBeacon _ _ _) ?e)); case e => assumption)
    | (with_reducible apply Chg.step (chg_sendBeacon _ _ _ _))
    | (with_reducible apply Chg.foldl)
    | (with_reducible apply Chg.orElse_getD)
    | (with_reducible apply Chg.getD)
    | (with_reducible apply Chg.foldl_snd)
    | intro _
    | split

theorem chg_execBeacon {s t : State} {a b} (h : execBeacon a b s = .next t) : Chg [.free, .regs, .mem, .poison, .cores, .launches, .parts, .dies, .chans, .links, .dbg, .log] s t := by
  unfold execBeacon at h
  obtain rfl := withUnit_next h
  clear h
  repeat' first
    | ((with_reducible apply subF_of); rfl)
    | (with_reducible apply subF.refl)
    | (with_reducible apply Chg.refl)
    | (with_reducible assumption)
    | (with_reducible apply Chg.step (chg_receiveBeacon _ _))
    | (with_reducible apply chg_onMsg)
    | (with_reducible apply Chg.foldl)
    | (with_reducible apply Chg.orElse_getD)
    | (with_reducible apply Chg.getD)
    | (with_reducible apply Chg.foldl_snd)
    | intro _

theorem chg_execTraceBufferDrain {s t : State} {a} (h : execTraceBufferDrain a s = .next t) : Chg [.regs, .dbg] s t := by
  unfold execTraceBufferDrain at h
  obtain rfl := withUnit_next h
  clear h
  repeat' first
    | ((with_reducible apply subF_of); rfl)
    | (with_reducible apply subF.refl)
    | (with_reducible apply Chg.refl)
    | (with_reducible assumption)
    | (with_reducible apply Chg.step (chg_drainTrace _ _))
    | (with_reducible apply Chg.foldl)
    | (with_reducible apply Chg.orElse_getD)
    | (with_reducible apply Chg.getD)
    | (with_reducible apply Chg.foldl_snd)
    | intro _
    | split

theorem chg_execTraceTimebase {s t : State} {a} (h : execTraceTimebase a s = .next t) : Chg [.regs, .dbg] s t := by
  unfold execTraceTimebase at h
  obtain rfl := withUnit_next h
  clear h
  repeat' first
    | ((with_reducible apply subF_of); rfl)
    | (with_reducible apply subF.refl)
    | (with_reducible apply Chg.refl)
    | (with_reducible assumption)
    | (with_reducible apply Chg.step (chg_ringAdd _ _ _))
    | (with_reducible apply Chg.foldl)
    | (with_reducible apply Chg.orElse_getD)
    | (with_reducible apply Chg.getD)
    | (with_reducible apply Chg.foldl_snd)
    | intro _
    | split
    | dsimp only
    | ((with_reducible refine Chg.mk rfl ?_ rfl rfl rfl rfl ?_); · (intro x hx; cases x <;> first | rfl | exact ⟨rfl, rfl⟩ | exact absurd (by decide) hx))

theorem chg_execTracePortBlock {s t : State} (h : execTracePortBlock s = .next t) : Chg [.out, .dbg] s t := by
  unfold execTracePortBlock at h
  obtain rfl := next_inj h
  clear h
  repeat' first
    | ((with_reducible apply subF_of); rfl)
    | (with_reducible apply subF.refl)
    | (with_reducible apply Chg.refl)
    | (with_reducible assumption)
    | (with_reducible apply Chg.step (chg_portStep _))

theorem chg_execPmcOverflow {s t : State} {a b} (h : execPmcOverflow a b s = .next t) : Chg [.regs] s t := by
  unfold execPmcOverflow at h
  obtain rfl := withUnit_next h
  clear h
  repeat' first
    | ((with_reducible apply subF_of); rfl)
    | (with_reducible apply subF.refl)
    | (with_reducible apply Chg.refl)
    | (with_reducible assumption)
    | (with_reducible apply Chg.step (chg_pmAdd _ _ _ _))
    | (with_reducible apply Chg.foldl)
    | (with_reducible apply Chg.orElse_getD)
    | (with_reducible apply Chg.getD)
    | (with_reducible apply Chg.foldl_snd)
    | intro _
    | split

theorem chg_execHangCheck {s t : State} {a} (h : execHangCheck a s = .next t) : Chg [.cores, .launches, .dbg] s t := by
  unfold execHangCheck at h
  obtain rfl := withUnit_next h
  clear h
  repeat' first
    | ((with_reducible apply subF_of); rfl)
    | (with_reducible apply subF.refl)
    | (with_reducible apply Chg.refl)
    | (with_reducible assumption)
    | (with_reducible apply Chg.step (chg_stopHung _ _))
    | (with_reducible apply Chg.foldl)
    | (with_reducible apply Chg.orElse_getD)
    | (with_reducible apply Chg.getD)
    | (with_reducible apply Chg.foldl_snd)
    | intro _

theorem chg_execHangSnapshot {s t : State} {a} (h : execHangSnapshot a s = .next t) : Chg [.out, .regs, .host, .dbg, .log] s t := by
  unfold execHangSnapshot at h
  obtain rfl := next_inj h
  clear h
  repeat' first
    | ((with_reducible apply subF_of); rfl)
    | (with_reducible apply subF.refl)
    | (with_reducible apply Chg.refl)
    | (with_reducible assumption)
    | (with_reducible apply Chg.step (chg_snapshot _ _ _))
    | (with_reducible apply Chg.foldl)
    | (with_reducible apply Chg.orElse_getD)
    | (with_reducible apply Chg.getD)
    | (with_reducible apply Chg.foldl_snd)
    | intro _
    | split

theorem chg_execHangDump {s t : State} {a} (h : execHangDump a s = .next t) : Chg [.regs, .dbg] s t := by
  unfold execHangDump at h
  obtain rfl := next_inj h
  clear h
  repeat' first
    | ((with_reducible apply subF_of); rfl)
    | (with_reducible apply subF.refl)
    | (with_reducible apply Chg.refl)
    | (with_reducible assumption)
    | (with_reducible apply Chg.step (chg_endDump _ _))
    | (with_reducible apply Chg.foldl)
    | (with_reducible apply Chg.orElse_getD)
    | (with_reducible apply Chg.getD)
    | (with_reducible apply Chg.foldl_snd)
    | intro _
    | split

theorem chg_execHangEnd {s t : State} {a} (h : execHangEnd a s = .next t) : Chg [.launches] s t := by
  unfold execHangEnd at h
  obtain rfl := next_inj h
  clear h
  repeat' first
    | ((with_reducible apply subF_of); rfl)
    | (with_reducible apply subF.refl)
    | (with_reducible apply Chg.refl)
    | (with_reducible assumption)
    | (with_reducible apply Chg.step (chg_setLaunch _ _ _))
    | (with_reducible apply Chg.foldl)
    | (with_reducible apply Chg.orElse_getD)
    | (with_reducible apply Chg.getD)
    | (with_reducible apply Chg.foldl_snd)
    | intro _
    | split

theorem chg_execLogMramWrite {s t : State} (h : execLogMramWrite s = .next t) : Chg [.out, .regs, .host, .log, .records] s t := by
  unfold execLogMramWrite at h
  obtain rfl := next_inj h
  clear h
  repeat' first
    | ((with_reducible apply subF_of); rfl)
    | (with_reducible apply subF.refl)
    | (with_reducible apply Chg.refl)
    | (with_reducible assumption)
    | (with_reducible apply Chg.step (chg_logMram _))

theorem chg_execLogNorWrite {s t : State} (h : execLogNorWrite s = .next t) : Chg [.log, .records] s t := by
  unfold execLogNorWrite at h
  obtain rfl := next_inj h
  clear h
  repeat' first
    | ((with_reducible apply subF_of); rfl)
    | (with_reducible apply subF.refl)
    | (with_reducible apply Chg.refl)
    | (with_reducible assumption)
    | (with_reducible apply Chg.step (chg_logNor _))

theorem chg_execPairLoRead {s t : State} {a b c} (h : execPairLoRead a b c s = .next t) : Chg [.out, .regs, .latch, .parts, .host] s t := by
  unfold execPairLoRead at h
  obtain rfl := withUnit_next h
  clear h
  repeat' first
    | ((with_reducible apply subF_of); rfl)
    | (with_reducible apply subF.refl)
    | (with_reducible apply Chg.refl)
    | (with_reducible assumption)
    | (with_reducible apply Chg.step (chg_emit _ _))
    | (with_reducible apply Chg.step (chg_refuseTlp _ _ _ _))
    | (with_reducible apply chg_aside)
    | (with_reducible apply chg_onRead)
    | (with_reducible apply Chg.foldl)
    | (with_reducible apply Chg.orElse_getD)
    | (with_reducible apply Chg.getD)
    | (with_reducible apply Chg.foldl_snd)
    | intro _
    | split
    | dsimp only
    | ((with_reducible refine Chg.mk rfl ?_ rfl rfl rfl rfl ?_); · (intro x hx; cases x <;> first | rfl | exact ⟨rfl, rfl⟩ | exact absurd (by decide) hx))

theorem chg_execReadClear {s t : State} {a b} (h : execReadClear a b s = .next t) : Chg [.out, .regs, .parts, .host] s t := by
  unfold execReadClear at h
  obtain rfl := withUnit_next h
  clear h
  repeat' first
    | ((with_reducible apply subF_of); rfl)
    | (with_reducible apply subF.refl)
    | (with_reducible apply Chg.refl)
    | (with_reducible assumption)
    | (with_reducible apply Chg.step (chg_emit _ _))
    | (with_reducible apply Chg.step (chg_setReg _ _ _))
    | (with_reducible apply chg_onRead)
    | (with_reducible apply Chg.foldl)
    | (with_reducible apply Chg.orElse_getD)
    | (with_reducible apply Chg.getD)
    | (with_reducible apply Chg.foldl_snd)
    | intro _
    | split
    | dsimp only

theorem chg_execRegisterWrite {s t : State} {a b c d} (h : execRegisterWrite a b c d s = .next t) : Chg [.free, .out, .regs, .mem, .poison, .cores, .launches, .queues, .parts, .dies, .chans, .host, .sec, .log] s t := by
  unfold execRegisterWrite at h
  obtain rfl := withUnit_next h
  clear h
  repeat' first
    | ((with_reducible apply subF_of); rfl)
    | (with_reducible apply subF.refl)
    | (with_reducible apply Chg.refl)
    | (with_reducible assumption)
    | (with_reducible apply Chg.step (chg_bar4Write _ _ _ _))
    | (with_reducible apply Chg.step (chg_cfgWrite _ _ _ _))
    | (with_reducible apply Chg.step (chg_refuseTlp _ _ _ _))
    | (with_reducible apply Chg.step (chg_writeOne _ _ _ _))
    | (with_reducible apply chg_aside)
    | (with_reducible apply chg_onWrite)
    | (with_reducible apply Chg.foldl)
    | (with_reducible apply Chg.orElse_getD)
    | (with_reducible apply Chg.getD)
    | (with_reducible apply Chg.foldl_snd)
    | intro _
    | split
    | dsimp only
    | ((with_reducible refine Chg.mk rfl ?_ rfl rfl rfl rfl ?_); · (intro x hx; cases x <;> first | rfl | exact ⟨rfl, rfl⟩ | exact absurd (by decide) hx))

theorem chg_execPairLoWrite {s t : State} {a b c} (h : execPairLoWrite a b c s = .next t) : Chg [.out, .regs, .held, .parts, .host] s t := by
  unfold execPairLoWrite at h
  obtain rfl := withUnit_next h
  clear h
  repeat' first
    | ((with_reducible apply subF_of); rfl)
    | (with_reducible apply subF.refl)
    | (with_reducible apply Chg.refl)
    | (with_reducible assumption)
    | (with_reducible apply chg_onWrite)
    | (with_reducible apply Chg.foldl)
    | (with_reducible apply Chg.orElse_getD)
    | (with_reducible apply Chg.getD)
    | (with_reducible apply Chg.foldl_snd)
    | intro _
    | split
    | dsimp only
    | ((with_reducible refine Chg.mk rfl ?_ rfl rfl rfl rfl ?_); · (intro x hx; cases x <;> first | rfl | exact ⟨rfl, rfl⟩ | exact absurd (by decide) hx))

theorem chg_execPairHiWrite {s t : State} {a b c} (h : execPairHiWrite a b c s = .next t) : Chg [.out, .regs, .held, .queues, .parts, .host, .sec, .log] s t := by
  unfold execPairHiWrite at h
  obtain rfl := withUnit_next h
  clear h
  repeat' first
    | ((with_reducible apply subF_of); rfl)
    | (with_reducible apply subF.refl)
    | (with_reducible apply Chg.refl)
    | (with_reducible assumption)
    | (with_reducible apply Chg.step (chg_commitPair _ _ _ _))
    | (with_reducible apply chg_onWrite)
    | (with_reducible apply Chg.foldl)
    | (with_reducible apply Chg.orElse_getD)
    | (with_reducible apply Chg.getD)
    | (with_reducible apply Chg.foldl_snd)
    | intro _
    | split

theorem chg_execPmcHiWrite {s t : State} {a b c d} (h : execPmcHiWrite a b c d s = .next t) : Chg [.out, .regs, .held, .queues, .parts, .host, .sec, .log] s t := by
  unfold execPmcHiWrite at h
  obtain rfl := withUnit_next h
  clear h
  repeat' first
    | ((with_reducible apply subF_of); rfl)
    | (with_reducible apply subF.refl)
    | (with_reducible apply Chg.refl)
    | (with_reducible assumption)
    | (with_reducible apply Chg.step (chg_commitPair _ _ _ _))
    | (with_reducible apply chg_onWrite)
    | (with_reducible apply Chg.foldl)
    | (with_reducible apply Chg.orElse_getD)
    | (with_reducible apply Chg.getD)
    | (with_reducible apply Chg.foldl_snd)
    | intro _
    | split

theorem chg_execPmselWrite {s t : State} {a b c d} (h : execPmselWrite a b c d s = .next t) : Chg [.out, .regs, .queues, .parts, .host, .sec, .log] s t := by
  unfold execPmselWrite at h
  obtain rfl := withUnit_next h
  clear h
  repeat' first
    | ((with_reducible apply subF_of); rfl)
    | (with_reducible apply subF.refl)
    | (with_reducible apply Chg.refl)
    | (with_reducible assumption)
    | (with_reducible apply Chg.step (chg_writeOne _ _ _ _))
    | (with_reducible apply chg_onWrite)
    | (with_reducible apply Chg.foldl)
    | (with_reducible apply Chg.orElse_getD)
    | (with_reducible apply Chg.getD)
    | (with_reducible apply Chg.foldl_snd)
    | intro _
    | split

theorem chg_execJtagInstruction {s t : State} {a b c} (h : execJtagInstruction a b c s = .next t) : Chg [.out, .boot] s t := by
  unfold execJtagInstruction at h
  obtain rfl := next_inj h
  clear h
  repeat' first
    | ((with_reducible apply subF_of); rfl)
    | (with_reducible apply subF.refl)
    | (with_reducible apply Chg.refl)
    | (with_reducible assumption)
    | (with_reducible apply Chg.step (chg_emit _ _))
    | (with_reducible apply Chg.foldl)
    | (with_reducible apply Chg.orElse_getD)
    | (with_reducible apply Chg.getD)
    | (with_reducible apply Chg.foldl_snd)
    | intro _
    | split
    | dsimp only
    | ((with_reducible refine Chg.mk rfl ?_ rfl rfl rfl rfl ?_); · (intro x hx; cases x <;> first | rfl | exact ⟨rfl, rfl⟩ | exact absurd (by decide) hx))

end Sys2Proof.Machine
end

