-- ==== Sys2Proof/Laws/State.lean ====
section
/-! SUPPORT. What each update of State leaves as it was, field by field, and what is read after it. -/

namespace Sys2Proof.Machine.State

@[simp] theorem setReg_pending (s : State) (k : Nat) (v : Word) : (s.setReg k v).pending = s.pending := rfl
@[simp] theorem setReg_gt (s : State) (k : Nat) (v : Word) : (s.setReg k v).gt = s.gt := rfl
@[simp] theorem setReg_free (s : State) (k : Nat) (v : Word) : (s.setReg k v).free = s.free := rfl
@[simp] theorem setReg_out (s : State) (k : Nat) (v : Word) : (s.setReg k v).out = s.out := rfl
@[simp] theorem setReg_latch (s : State) (k : Nat) (v : Word) : (s.setReg k v).latch = s.latch := rfl
@[simp] theorem setReg_held (s : State) (k : Nat) (v : Word) : (s.setReg k v).held = s.held := rfl
@[simp] theorem setReg_mem (s : State) (k : Nat) (v : Word) : (s.setReg k v).mem = s.mem := rfl
@[simp] theorem setReg_memEpoch (s : State) (k : Nat) (v : Word) : (s.setReg k v).memEpoch = s.memEpoch := rfl
@[simp] theorem setReg_poison (s : State) (k : Nat) (v : Word) : (s.setReg k v).poison = s.poison := rfl
@[simp] theorem setReg_cores (s : State) (k : Nat) (v : Word) : (s.setReg k v).cores = s.cores := rfl
@[simp] theorem setReg_launches (s : State) (k : Nat) (v : Word) : (s.setReg k v).launches = s.launches := rfl
@[simp] theorem setReg_nextLaunch (s : State) (k : Nat) (v : Word) : (s.setReg k v).nextLaunch = s.nextLaunch := rfl
@[simp] theorem setReg_queues (s : State) (k : Nat) (v : Word) : (s.setReg k v).queues = s.queues := rfl
@[simp] theorem setReg_parts (s : State) (k : Nat) (v : Word) : (s.setReg k v).parts = s.parts := rfl
@[simp] theorem setReg_dies (s : State) (k : Nat) (v : Word) : (s.setReg k v).dies = s.dies := rfl
@[simp] theorem setReg_chans (s : State) (k : Nat) (v : Word) : (s.setReg k v).chans = s.chans := rfl
@[simp] theorem setReg_copies (s : State) (k : Nat) (v : Word) : (s.setReg k v).copies = s.copies := rfl
@[simp] theorem setReg_links (s : State) (k : Nat) (v : Word) : (s.setReg k v).links = s.links := rfl
@[simp] theorem setReg_d2d (s : State) (k : Nat) (v : Word) : (s.setReg k v).d2d = s.d2d := rfl
@[simp] theorem setReg_chart (s : State) (k : Nat) (v : Word) : (s.setReg k v).chart = s.chart := rfl
@[simp] theorem setReg_host (s : State) (k : Nat) (v : Word) : (s.setReg k v).host = s.host := rfl
@[simp] theorem setReg_sec (s : State) (k : Nat) (v : Word) : (s.setReg k v).sec = s.sec := rfl
@[simp] theorem setReg_pwr (s : State) (k : Nat) (v : Word) : (s.setReg k v).pwr = s.pwr := rfl
@[simp] theorem setReg_boot (s : State) (k : Nat) (v : Word) : (s.setReg k v).boot = s.boot := rfl
@[simp] theorem setReg_dbg (s : State) (k : Nat) (v : Word) : (s.setReg k v).dbg = s.dbg := rfl
@[simp] theorem setReg_log (s : State) (k : Nat) (v : Word) : (s.setReg k v).log = s.log := rfl
@[simp] theorem core_setReg (s : State) (k : Nat) (v : Word) (i : Nat) : (s.setReg k v).core i = s.core i := rfl
@[simp] theorem part_setReg (s : State) (k : Nat) (v : Word) (i : Nat) : (s.setReg k v).part i = s.part i := rfl
@[simp] theorem die_setReg (s : State) (k : Nat) (v : Word) (i : Nat) : (s.setReg k v).die i = s.die i := rfl
@[simp] theorem chan_setReg (s : State) (k : Nat) (v : Word) (i : Nat) : (s.setReg k v).chan i = s.chan i := rfl
@[simp] theorem copyEng_setReg (s : State) (k : Nat) (v : Word) (i : Nat) : (s.setReg k v).copyEng i = s.copyEng i := rfl
@[simp] theorem link_setReg (s : State) (k : Nat) (v : Word) (i : Nat) : (s.setReg k v).link i = s.link i := rfl
@[simp] theorem queue_setReg (s : State) (k : Nat) (v : Word) (i : Nat) : (s.setReg k v).queue i = s.queue i := rfl
@[simp] theorem launch_setReg (s : State) (k : Nat) (v : Word) (i : Nat) : (s.setReg k v).launch? i = s.launch? i := rfl
@[simp] theorem group_setReg (s : State) (k : Nat) (v : Word) (i : GRef) : (s.setReg k v).group? i = s.group? i := rfl

@[simp] theorem setCore_pending (s : State) (p : Nat) (c : Core) : (s.setCore p c).pending = s.pending := rfl
@[simp] theorem setCore_gt (s : State) (p : Nat) (c : Core) : (s.setCore p c).gt = s.gt := rfl
@[simp] theorem setCore_free (s : State) (p : Nat) (c : Core) : (s.setCore p c).free = s.free := rfl
@[simp] theorem setCore_out (s : State) (p : Nat) (c : Core) : (s.setCore p c).out = s.out := rfl
@[simp] theorem setCore_regs (s : State) (p : Nat) (c : Core) : (s.setCore p c).regs = s.regs := rfl
@[simp] theorem setCore_latch (s : State) (p : Nat) (c : Core) : (s.setCore p c).latch = s.latch := rfl
@[simp] theorem setCore_held (s : State) (p : Nat) (c : Core) : (s.setCore p c).held = s.held := rfl
@[simp] theorem setCore_mem (s : State) (p : Nat) (c : Core) : (s.setCore p c).mem = s.mem := rfl
@[simp] theorem setCore_memEpoch (s : State) (p : Nat) (c : Core) : (s.setCore p c).memEpoch = s.memEpoch := rfl
@[simp] theorem setCore_poison (s : State) (p : Nat) (c : Core) : (s.setCore p c).poison = s.poison := rfl
@[simp] theorem setCore_launches (s : State) (p : Nat) (c : Core) : (s.setCore p c).launches = s.launches := rfl
@[simp] theorem setCore_nextLaunch (s : State) (p : Nat) (c : Core) : (s.setCore p c).nextLaunch = s.nextLaunch := rfl
@[simp] theorem setCore_queues (s : State) (p : Nat) (c : Core) : (s.setCore p c).queues = s.queues := rfl
@[simp] theorem setCore_parts (s : State) (p : Nat) (c : Core) : (s.setCore p c).parts = s.parts := rfl
@[simp] theorem setCore_dies (s : State) (p : Nat) (c : Core) : (s.setCore p c).dies = s.dies := rfl
@[simp] theorem setCore_chans (s : State) (p : Nat) (c : Core) : (s.setCore p c).chans = s.chans := rfl
@[simp] theorem setCore_copies (s : State) (p : Nat) (c : Core) : (s.setCore p c).copies = s.copies := rfl
@[simp] theorem setCore_links (s : State) (p : Nat) (c : Core) : (s.setCore p c).links = s.links := rfl
@[simp] theorem setCore_d2d (s : State) (p : Nat) (c : Core) : (s.setCore p c).d2d = s.d2d := rfl
@[simp] theorem setCore_chart (s : State) (p : Nat) (c : Core) : (s.setCore p c).chart = s.chart := rfl
@[simp] theorem setCore_host (s : State) (p : Nat) (c : Core) : (s.setCore p c).host = s.host := rfl
@[simp] theorem setCore_sec (s : State) (p : Nat) (c : Core) : (s.setCore p c).sec = s.sec := rfl
@[simp] theorem setCore_pwr (s : State) (p : Nat) (c : Core) : (s.setCore p c).pwr = s.pwr := rfl
@[simp] theorem setCore_boot (s : State) (p : Nat) (c : Core) : (s.setCore p c).boot = s.boot := rfl
@[simp] theorem setCore_dbg (s : State) (p : Nat) (c : Core) : (s.setCore p c).dbg = s.dbg := rfl
@[simp] theorem setCore_log (s : State) (p : Nat) (c : Core) : (s.setCore p c).log = s.log := rfl
@[simp] theorem reg_setCore (s : State) (p : Nat) (c : Core) (i : Nat) : (s.setCore p c).reg i = s.reg i := rfl
@[simp] theorem part_setCore (s : State) (p : Nat) (c : Core) (i : Nat) : (s.setCore p c).part i = s.part i := rfl
@[simp] theorem die_setCore (s : State) (p : Nat) (c : Core) (i : Nat) : (s.setCore p c).die i = s.die i := rfl
@[simp] theorem chan_setCore (s : State) (p : Nat) (c : Core) (i : Nat) : (s.setCore p c).chan i = s.chan i := rfl
@[simp] theorem copyEng_setCore (s : State) (p : Nat) (c : Core) (i : Nat) : (s.setCore p c).copyEng i = s.copyEng i := rfl
@[simp] theorem link_setCore (s : State) (p : Nat) (c : Core) (i : Nat) : (s.setCore p c).link i = s.link i := rfl
@[simp] theorem queue_setCore (s : State) (p : Nat) (c : Core) (i : Nat) : (s.setCore p c).queue i = s.queue i := rfl
@[simp] theorem launch_setCore (s : State) (p : Nat) (c : Core) (i : Nat) : (s.setCore p c).launch? i = s.launch? i := rfl
@[simp] theorem lamp_setCore (s : State) (p : Nat) (c : Core) (i : Nat) : (s.setCore p c).lamp i = s.lamp i := rfl

@[simp] theorem modCore_pending (s : State) (p : Nat) (f : Core → Core) : (s.modCore p f).pending = s.pending := rfl
@[simp] theorem modCore_gt (s : State) (p : Nat) (f : Core → Core) : (s.modCore p f).gt = s.gt := rfl
@[simp] theorem modCore_free (s : State) (p : Nat) (f : Core → Core) : (s.modCore p f).free = s.free := rfl
@[simp] theorem modCore_out (s : State) (p : Nat) (f : Core → Core) : (s.modCore p f).out = s.out := rfl
@[simp] theorem modCore_regs (s : State) (p : Nat) (f : Core → Core) : (s.modCore p f).regs = s.regs := rfl
@[simp] theorem modCore_latch (s : State) (p : Nat) (f : Core → Core) : (s.modCore p f).latch = s.latch := rfl
@[simp] theorem modCore_held (s : State) (p : Nat) (f : Core → Core) : (s.modCore p f).held = s.held := rfl
@[simp] theorem modCore_mem (s : State) (p : Nat) (f : Core → Core) : (s.modCore p f).mem = s.mem := rfl
@[simp] theorem modCore_memEpoch (s : State) (p : Nat) (f : Core → Core) : (s.modCore p f).memEpoch = s.memEpoch := rfl
@[simp] theorem modCore_poison (s : State) (p : Nat) (f : Core → Core) : (s.modCore p f).poison = s.poison := rfl
@[simp] theorem modCore_launches (s : State) (p : Nat) (f : Core → Core) : (s.modCore p f).launches = s.launches := rfl
@[simp] theorem modCore_nextLaunch (s : State) (p : Nat) (f : Core → Core) : (s.modCore p f).nextLaunch = s.nextLaunch := rfl
@[simp] theorem modCore_queues (s : State) (p : Nat) (f : Core → Core) : (s.modCore p f).queues = s.queues := rfl
@[simp] theorem modCore_parts (s : State) (p : Nat) (f : Core → Core) : (s.modCore p f).parts = s.parts := rfl
@[simp] theorem modCore_dies (s : State) (p : Nat) (f : Core → Core) : (s.modCore p f).dies = s.dies := rfl
@[simp] theorem modCore_chans (s : State) (p : Nat) (f : Core → Core) : (s.modCore p f).chans = s.chans := rfl
@[simp] theorem modCore_copies (s : State) (p : Nat) (f : Core → Core) : (s.modCore p f).copies = s.copies := rfl
@[simp] theorem modCore_links (s : State) (p : Nat) (f : Core → Core) : (s.modCore p f).links = s.links := rfl
@[simp] theorem modCore_d2d (s : State) (p : Nat) (f : Core → Core) : (s.modCore p f).d2d = s.d2d := rfl
@[simp] theorem modCore_chart (s : State) (p : Nat) (f : Core → Core) : (s.modCore p f).chart = s.chart := rfl
@[simp] theorem modCore_host (s : State) (p : Nat) (f : Core → Core) : (s.modCore p f).host = s.host := rfl
@[simp] theorem modCore_sec (s : State) (p : Nat) (f : Core → Core) : (s.modCore p f).sec = s.sec := rfl
@[simp] theorem modCore_pwr (s : State) (p : Nat) (f : Core → Core) : (s.modCore p f).pwr = s.pwr := rfl
@[simp] theorem modCore_boot (s : State) (p : Nat) (f : Core → Core) : (s.modCore p f).boot = s.boot := rfl
@[simp] theorem modCore_dbg (s : State) (p : Nat) (f : Core → Core) : (s.modCore p f).dbg = s.dbg := rfl
@[simp] theorem modCore_log (s : State) (p : Nat) (f : Core → Core) : (s.modCore p f).log = s.log := rfl
@[simp] theorem reg_modCore (s : State) (p : Nat) (f : Core → Core) (i : Nat) : (s.modCore p f).reg i = s.reg i := rfl
@[simp] theorem part_modCore (s : State) (p : Nat) (f : Core → Core) (i : Nat) : (s.modCore p f).part i = s.part i := rfl
@[simp] theorem die_modCore (s : State) (p : Nat) (f : Core → Core) (i : Nat) : (s.modCore p f).die i = s.die i := rfl
@[simp] theorem chan_modCore (s : State) (p : Nat) (f : Core → Core) (i : Nat) : (s.modCore p f).chan i = s.chan i := rfl
@[simp] theorem copyEng_modCore (s : State) (p : Nat) (f : Core → Core) (i : Nat) : (s.modCore p f).copyEng i = s.copyEng i := rfl
@[simp] theorem link_modCore (s : State) (p : Nat) (f : Core → Core) (i : Nat) : (s.modCore p f).link i = s.link i := rfl
@[simp] theorem queue_modCore (s : State) (p : Nat) (f : Core → Core) (i : Nat) : (s.modCore p f).queue i = s.queue i := rfl
@[simp] theorem launch_modCore (s : State) (p : Nat) (f : Core → Core) (i : Nat) : (s.modCore p f).launch? i = s.launch? i := rfl
@[simp] theorem lamp_modCore (s : State) (p : Nat) (f : Core → Core) (i : Nat) : (s.modCore p f).lamp i = s.lamp i := rfl

@[simp] theorem setGroup_pending (s : State) (g : GRef) (x : Group) : (s.setGroup g x).pending = s.pending := rfl
@[simp] theorem setGroup_gt (s : State) (g : GRef) (x : Group) : (s.setGroup g x).gt = s.gt := rfl
@[simp] theorem setGroup_free (s : State) (g : GRef) (x : Group) : (s.setGroup g x).free = s.free := rfl
@[simp] theorem setGroup_out (s : State) (g : GRef) (x : Group) : (s.setGroup g x).out = s.out := rfl
@[simp] theorem setGroup_regs (s : State) (g : GRef) (x : Group) : (s.setGroup g x).regs = s.regs := rfl
@[simp] theorem setGroup_latch (s : State) (g : GRef) (x : Group) : (s.setGroup g x).latch = s.latch := rfl
@[simp] theorem setGroup_held (s : State) (g : GRef) (x : Group) : (s.setGroup g x).held = s.held := rfl
@[simp] theorem setGroup_mem (s : State) (g : GRef) (x : Group) : (s.setGroup g x).mem = s.mem := rfl
@[simp] theorem setGroup_memEpoch (s : State) (g : GRef) (x : Group) : (s.setGroup g x).memEpoch = s.memEpoch := rfl
@[simp] theorem setGroup_poison (s : State) (g : GRef) (x : Group) : (s.setGroup g x).poison = s.poison := rfl
@[simp] theorem setGroup_launches (s : State) (g : GRef) (x : Group) : (s.setGroup g x).launches = s.launches := rfl
@[simp] theorem setGroup_nextLaunch (s : State) (g : GRef) (x : Group) : (s.setGroup g x).nextLaunch = s.nextLaunch := rfl
@[simp] theorem setGroup_queues (s : State) (g : GRef) (x : Group) : (s.setGroup g x).queues = s.queues := rfl
@[simp] theorem setGroup_parts (s : State) (g : GRef) (x : Group) : (s.setGroup g x).parts = s.parts := rfl
@[simp] theorem setGroup_dies (s : State) (g : GRef) (x : Group) : (s.setGroup g x).dies = s.dies := rfl
@[simp] theorem setGroup_chans (s : State) (g : GRef) (x : Group) : (s.setGroup g x).chans = s.chans := rfl
@[simp] theorem setGroup_copies (s : State) (g : GRef) (x : Group) : (s.setGroup g x).copies = s.copies := rfl
@[simp] theorem setGroup_links (s : State) (g : GRef) (x : Group) : (s.setGroup g x).links = s.links := rfl
@[simp] theorem setGroup_d2d (s : State) (g : GRef) (x : Group) : (s.setGroup g x).d2d = s.d2d := rfl
@[simp] theorem setGroup_chart (s : State) (g : GRef) (x : Group) : (s.setGroup g x).chart = s.chart := rfl
@[simp] theorem setGroup_host (s : State) (g : GRef) (x : Group) : (s.setGroup g x).host = s.host := rfl
@[simp] theorem setGroup_sec (s : State) (g : GRef) (x : Group) : (s.setGroup g x).sec = s.sec := rfl
@[simp] theorem setGroup_pwr (s : State) (g : GRef) (x : Group) : (s.setGroup g x).pwr = s.pwr := rfl
@[simp] theorem setGroup_boot (s : State) (g : GRef) (x : Group) : (s.setGroup g x).boot = s.boot := rfl
@[simp] theorem setGroup_dbg (s : State) (g : GRef) (x : Group) : (s.setGroup g x).dbg = s.dbg := rfl
@[simp] theorem setGroup_log (s : State) (g : GRef) (x : Group) : (s.setGroup g x).log = s.log := rfl
@[simp] theorem reg_setGroup (s : State) (g : GRef) (x : Group) (i : Nat) : (s.setGroup g x).reg i = s.reg i := rfl
@[simp] theorem part_setGroup (s : State) (g : GRef) (x : Group) (i : Nat) : (s.setGroup g x).part i = s.part i := rfl
@[simp] theorem die_setGroup (s : State) (g : GRef) (x : Group) (i : Nat) : (s.setGroup g x).die i = s.die i := rfl
@[simp] theorem chan_setGroup (s : State) (g : GRef) (x : Group) (i : Nat) : (s.setGroup g x).chan i = s.chan i := rfl
@[simp] theorem copyEng_setGroup (s : State) (g : GRef) (x : Group) (i : Nat) : (s.setGroup g x).copyEng i = s.copyEng i := rfl
@[simp] theorem link_setGroup (s : State) (g : GRef) (x : Group) (i : Nat) : (s.setGroup g x).link i = s.link i := rfl
@[simp] theorem queue_setGroup (s : State) (g : GRef) (x : Group) (i : Nat) : (s.setGroup g x).queue i = s.queue i := rfl
@[simp] theorem launch_setGroup (s : State) (g : GRef) (x : Group) (i : Nat) : (s.setGroup g x).launch? i = s.launch? i := rfl
@[simp] theorem lamp_setGroup (s : State) (g : GRef) (x : Group) (i : Nat) : (s.setGroup g x).lamp i = s.lamp i := rfl

@[simp] theorem setPart_pending (s : State) (p : Nat) (x : Part) : (s.setPart p x).pending = s.pending := rfl
@[simp] theorem setPart_gt (s : State) (p : Nat) (x : Part) : (s.setPart p x).gt = s.gt := rfl
@[simp] theorem setPart_free (s : State) (p : Nat) (x : Part) : (s.setPart p x).free = s.free := rfl
@[simp] theorem setPart_out (s : State) (p : Nat) (x : Part) : (s.setPart p x).out = s.out := rfl
@[simp] theorem setPart_regs (s : State) (p : Nat) (x : Part) : (s.setPart p x).regs = s.regs := rfl
@[simp] theorem setPart_latch (s : State) (p : Nat) (x : Part) : (s.setPart p x).latch = s.latch := rfl
@[simp] theorem setPart_held (s : State) (p : Nat) (x : Part) : (s.setPart p x).held = s.held := rfl
@[simp] theorem setPart_mem (s : State) (p : Nat) (x : Part) : (s.setPart p x).mem = s.mem := rfl
@[simp] theorem setPart_memEpoch (s : State) (p : Nat) (x : Part) : (s.setPart p x).memEpoch = s.memEpoch := rfl
@[simp] theorem setPart_poison (s : State) (p : Nat) (x : Part) : (s.setPart p x).poison = s.poison := rfl
@[simp] theorem setPart_cores (s : State) (p : Nat) (x : Part) : (s.setPart p x).cores = s.cores := rfl
@[simp] theorem setPart_launches (s : State) (p : Nat) (x : Part) : (s.setPart p x).launches = s.launches := rfl
@[simp] theorem setPart_nextLaunch (s : State) (p : Nat) (x : Part) : (s.setPart p x).nextLaunch = s.nextLaunch := rfl
@[simp] theorem setPart_queues (s : State) (p : Nat) (x : Part) : (s.setPart p x).queues = s.queues := rfl
@[simp] theorem setPart_dies (s : State) (p : Nat) (x : Part) : (s.setPart p x).dies = s.dies := rfl
@[simp] theorem setPart_chans (s : State) (p : Nat) (x : Part) : (s.setPart p x).chans = s.chans := rfl
@[simp] theorem setPart_copies (s : State) (p : Nat) (x : Part) : (s.setPart p x).copies = s.copies := rfl
@[simp] theorem setPart_links (s : State) (p : Nat) (x : Part) : (s.setPart p x).links = s.links := rfl
@[simp] theorem setPart_d2d (s : State) (p : Nat) (x : Part) : (s.setPart p x).d2d = s.d2d := rfl
@[simp] theorem setPart_chart (s : State) (p : Nat) (x : Part) : (s.setPart p x).chart = s.chart := rfl
@[simp] theorem setPart_host (s : State) (p : Nat) (x : Part) : (s.setPart p x).host = s.host := rfl
@[simp] theorem setPart_sec (s : State) (p : Nat) (x : Part) : (s.setPart p x).sec = s.sec := rfl
@[simp] theorem setPart_pwr (s : State) (p : Nat) (x : Part) : (s.setPart p x).pwr = s.pwr := rfl
@[simp] theorem setPart_boot (s : State) (p : Nat) (x : Part) : (s.setPart p x).boot = s.boot := rfl
@[simp] theorem setPart_dbg (s : State) (p : Nat) (x : Part) : (s.setPart p x).dbg = s.dbg := rfl
@[simp] theorem setPart_log (s : State) (p : Nat) (x : Part) : (s.setPart p x).log = s.log := rfl
@[simp] theorem reg_setPart (s : State) (p : Nat) (x : Part) (i : Nat) : (s.setPart p x).reg i = s.reg i := rfl
@[simp] theorem core_setPart (s : State) (p : Nat) (x : Part) (i : Nat) : (s.setPart p x).core i = s.core i := rfl
@[simp] theorem die_setPart (s : State) (p : Nat) (x : Part) (i : Nat) : (s.setPart p x).die i = s.die i := rfl
@[simp] theorem chan_setPart (s : State) (p : Nat) (x : Part) (i : Nat) : (s.setPart p x).chan i = s.chan i := rfl
@[simp] theorem copyEng_setPart (s : State) (p : Nat) (x : Part) (i : Nat) : (s.setPart p x).copyEng i = s.copyEng i := rfl
@[simp] theorem link_setPart (s : State) (p : Nat) (x : Part) (i : Nat) : (s.setPart p x).link i = s.link i := rfl
@[simp] theorem queue_setPart (s : State) (p : Nat) (x : Part) (i : Nat) : (s.setPart p x).queue i = s.queue i := rfl
@[simp] theorem launch_setPart (s : State) (p : Nat) (x : Part) (i : Nat) : (s.setPart p x).launch? i = s.launch? i := rfl
@[simp] theorem group_setPart (s : State) (p : Nat) (x : Part) (i : GRef) : (s.setPart p x).group? i = s.group? i := rfl
@[simp] theorem lamp_setPart (s : State) (p : Nat) (x : Part) (i : Nat) : (s.setPart p x).lamp i = s.lamp i := rfl

@[simp] theorem modPart_pending (s : State) (p : Nat) (f : Part → Part) : (s.modPart p f).pending = s.pending := rfl
@[simp] theorem modPart_gt (s : State) (p : Nat) (f : Part → Part) : (s.modPart p f).gt = s.gt := rfl
@[simp] theorem modPart_free (s : State) (p : Nat) (f : Part → Part) : (s.modPart p f).free = s.free := rfl
@[simp] theorem modPart_out (s : State) (p : Nat) (f : Part → Part) : (s.modPart p f).out = s.out := rfl
@[simp] theorem modPart_regs (s : State) (p : Nat) (f : Part → Part) : (s.modPart p f).regs = s.regs := rfl
@[simp] theorem modPart_latch (s : State) (p : Nat) (f : Part → Part) : (s.modPart p f).latch = s.latch := rfl
@[simp] theorem modPart_held (s : State) (p : Nat) (f : Part → Part) : (s.modPart p f).held = s.held := rfl
@[simp] theorem modPart_mem (s : State) (p : Nat) (f : Part → Part) : (s.modPart p f).mem = s.mem := rfl
@[simp] theorem modPart_memEpoch (s : State) (p : Nat) (f : Part → Part) : (s.modPart p f).memEpoch = s.memEpoch := rfl
@[simp] theorem modPart_poison (s : State) (p : Nat) (f : Part → Part) : (s.modPart p f).poison = s.poison := rfl
@[simp] theorem modPart_cores (s : State) (p : Nat) (f : Part → Part) : (s.modPart p f).cores = s.cores := rfl
@[simp] theorem modPart_launches (s : State) (p : Nat) (f : Part → Part) : (s.modPart p f).launches = s.launches := rfl
@[simp] theorem modPart_nextLaunch (s : State) (p : Nat) (f : Part → Part) : (s.modPart p f).nextLaunch = s.nextLaunch := rfl
@[simp] theorem modPart_queues (s : State) (p : Nat) (f : Part → Part) : (s.modPart p f).queues = s.queues := rfl
@[simp] theorem modPart_dies (s : State) (p : Nat) (f : Part → Part) : (s.modPart p f).dies = s.dies := rfl
@[simp] theorem modPart_chans (s : State) (p : Nat) (f : Part → Part) : (s.modPart p f).chans = s.chans := rfl
@[simp] theorem modPart_copies (s : State) (p : Nat) (f : Part → Part) : (s.modPart p f).copies = s.copies := rfl
@[simp] theorem modPart_links (s : State) (p : Nat) (f : Part → Part) : (s.modPart p f).links = s.links := rfl
@[simp] theorem modPart_d2d (s : State) (p : Nat) (f : Part → Part) : (s.modPart p f).d2d = s.d2d := rfl
@[simp] theorem modPart_chart (s : State) (p : Nat) (f : Part → Part) : (s.modPart p f).chart = s.chart := rfl
@[simp] theorem modPart_host (s : State) (p : Nat) (f : Part → Part) : (s.modPart p f).host = s.host := rfl
@[simp] theorem modPart_sec (s : State) (p : Nat) (f : Part → Part) : (s.modPart p f).sec = s.sec := rfl
@[simp] theorem modPart_pwr (s : State) (p : Nat) (f : Part → Part) : (s.modPart p f).pwr = s.pwr := rfl
@[simp] theorem modPart_boot (s : State) (p : Nat) (f : Part → Part) : (s.modPart p f).boot = s.boot := rfl
@[simp] theorem modPart_dbg (s : State) (p : Nat) (f : Part → Part) : (s.modPart p f).dbg = s.dbg := rfl
@[simp] theorem modPart_log (s : State) (p : Nat) (f : Part → Part) : (s.modPart p f).log = s.log := rfl
@[simp] theorem reg_modPart (s : State) (p : Nat) (f : Part → Part) (i : Nat) : (s.modPart p f).reg i = s.reg i := rfl
@[simp] theorem core_modPart (s : State) (p : Nat) (f : Part → Part) (i : Nat) : (s.modPart p f).core i = s.core i := rfl
@[simp] theorem die_modPart (s : State) (p : Nat) (f : Part → Part) (i : Nat) : (s.modPart p f).die i = s.die i := rfl
@[simp] theorem chan_modPart (s : State) (p : Nat) (f : Part → Part) (i : Nat) : (s.modPart p f).chan i = s.chan i := rfl
@[simp] theorem copyEng_modPart (s : State) (p : Nat) (f : Part → Part) (i : Nat) : (s.modPart p f).copyEng i = s.copyEng i := rfl
@[simp] theorem link_modPart (s : State) (p : Nat) (f : Part → Part) (i : Nat) : (s.modPart p f).link i = s.link i := rfl
@[simp] theorem queue_modPart (s : State) (p : Nat) (f : Part → Part) (i : Nat) : (s.modPart p f).queue i = s.queue i := rfl
@[simp] theorem launch_modPart (s : State) (p : Nat) (f : Part → Part) (i : Nat) : (s.modPart p f).launch? i = s.launch? i := rfl
@[simp] theorem group_modPart (s : State) (p : Nat) (f : Part → Part) (i : GRef) : (s.modPart p f).group? i = s.group? i := rfl
@[simp] theorem lamp_modPart (s : State) (p : Nat) (f : Part → Part) (i : Nat) : (s.modPart p f).lamp i = s.lamp i := rfl

@[simp] theorem setDie_pending (s : State) (d : Nat) (x : Die) : (s.setDie d x).pending = s.pending := rfl
@[simp] theorem setDie_gt (s : State) (d : Nat) (x : Die) : (s.setDie d x).gt = s.gt := rfl
@[simp] theorem setDie_free (s : State) (d : Nat) (x : Die) : (s.setDie d x).free = s.free := rfl
@[simp] theorem setDie_out (s : State) (d : Nat) (x : Die) : (s.setDie d x).out = s.out := rfl
@[simp] theorem setDie_regs (s : State) (d : Nat) (x : Die) : (s.setDie d x).regs = s.regs := rfl
@[simp] theorem setDie_latch (s : State) (d : Nat) (x : Die) : (s.setDie d x).latch = s.latch := rfl
@[simp] theorem setDie_held (s : State) (d : Nat) (x : Die) : (s.setDie d x).held = s.held := rfl
@[simp] theorem setDie_mem (s : State) (d : Nat) (x : Die) : (s.setDie d x).mem = s.mem := rfl
@[simp] theorem setDie_memEpoch (s : State) (d : Nat) (x : Die) : (s.setDie d x).memEpoch = s.memEpoch := rfl
@[simp] theorem setDie_poison (s : State) (d : Nat) (x : Die) : (s.setDie d x).poison = s.poison := rfl
@[simp] theorem setDie_cores (s : State) (d : Nat) (x : Die) : (s.setDie d x).cores = s.cores := rfl
@[simp] theorem setDie_launches (s : State) (d : Nat) (x : Die) : (s.setDie d x).launches = s.launches := rfl
@[simp] theorem setDie_nextLaunch (s : State) (d : Nat) (x : Die) : (s.setDie d x).nextLaunch = s.nextLaunch := rfl
@[simp] theorem setDie_queues (s : State) (d : Nat) (x : Die) : (s.setDie d x).queues = s.queues := rfl
@[simp] theorem setDie_parts (s : State) (d : Nat) (x : Die) : (s.setDie d x).parts = s.parts := rfl
@[simp] theorem setDie_chans (s : State) (d : Nat) (x : Die) : (s.setDie d x).chans = s.chans := rfl
@[simp] theorem setDie_copies (s : State) (d : Nat) (x : Die) : (s.setDie d x).copies = s.copies := rfl
@[simp] theorem setDie_links (s : State) (d : Nat) (x : Die) : (s.setDie d x).links = s.links := rfl
@[simp] theorem setDie_d2d (s : State) (d : Nat) (x : Die) : (s.setDie d x).d2d = s.d2d := rfl
@[simp] theorem setDie_chart (s : State) (d : Nat) (x : Die) : (s.setDie d x).chart = s.chart := rfl
@[simp] theorem setDie_host (s : State) (d : Nat) (x : Die) : (s.setDie d x).host = s.host := rfl
@[simp] theorem setDie_sec (s : State) (d : Nat) (x : Die) : (s.setDie d x).sec = s.sec := rfl
@[simp] theorem setDie_pwr (s : State) (d : Nat) (x : Die) : (s.setDie d x).pwr = s.pwr := rfl
@[simp] theorem setDie_boot (s : State) (d : Nat) (x : Die) : (s.setDie d x).boot = s.boot := rfl
@[simp] theorem setDie_dbg (s : State) (d : Nat) (x : Die) : (s.setDie d x).dbg = s.dbg := rfl
@[simp] theorem setDie_log (s : State) (d : Nat) (x : Die) : (s.setDie d x).log = s.log := rfl
@[simp] theorem reg_setDie (s : State) (d : Nat) (x : Die) (i : Nat) : (s.setDie d x).reg i = s.reg i := rfl
@[simp] theorem core_setDie (s : State) (d : Nat) (x : Die) (i : Nat) : (s.setDie d x).core i = s.core i := rfl
@[simp] theorem part_setDie (s : State) (d : Nat) (x : Die) (i : Nat) : (s.setDie d x).part i = s.part i := rfl
@[simp] theorem chan_setDie (s : State) (d : Nat) (x : Die) (i : Nat) : (s.setDie d x).chan i = s.chan i := rfl
@[simp] theorem copyEng_setDie (s : State) (d : Nat) (x : Die) (i : Nat) : (s.setDie d x).copyEng i = s.copyEng i := rfl
@[simp] theorem link_setDie (s : State) (d : Nat) (x : Die) (i : Nat) : (s.setDie d x).link i = s.link i := rfl
@[simp] theorem queue_setDie (s : State) (d : Nat) (x : Die) (i : Nat) : (s.setDie d x).queue i = s.queue i := rfl
@[simp] theorem launch_setDie (s : State) (d : Nat) (x : Die) (i : Nat) : (s.setDie d x).launch? i = s.launch? i := rfl
@[simp] theorem group_setDie (s : State) (d : Nat) (x : Die) (i : GRef) : (s.setDie d x).group? i = s.group? i := rfl
@[simp] theorem lamp_setDie (s : State) (d : Nat) (x : Die) (i : Nat) : (s.setDie d x).lamp i = s.lamp i := rfl

@[simp] theorem modDie_pending (s : State) (d : Nat) (f : Die → Die) : (s.modDie d f).pending = s.pending := rfl
@[simp] theorem modDie_gt (s : State) (d : Nat) (f : Die → Die) : (s.modDie d f).gt = s.gt := rfl
@[simp] theorem modDie_free (s : State) (d : Nat) (f : Die → Die) : (s.modDie d f).free = s.free := rfl
@[simp] theorem modDie_out (s : State) (d : Nat) (f : Die → Die) : (s.modDie d f).out = s.out := rfl
@[simp] theorem modDie_regs (s : State) (d : Nat) (f : Die → Die) : (s.modDie d f).regs = s.regs := rfl
@[simp] theorem modDie_latch (s : State) (d : Nat) (f : Die → Die) : (s.modDie d f).latch = s.latch := rfl
@[simp] theorem modDie_held (s : State) (d : Nat) (f : Die → Die) : (s.modDie d f).held = s.held := rfl
@[simp] theorem modDie_mem (s : State) (d : Nat) (f : Die → Die) : (s.modDie d f).mem = s.mem := rfl
@[simp] theorem modDie_memEpoch (s : State) (d : Nat) (f : Die → Die) : (s.modDie d f).memEpoch = s.memEpoch := rfl
@[simp] theorem modDie_poison (s : State) (d : Nat) (f : Die → Die) : (s.modDie d f).poison = s.poison := rfl
@[simp] theorem modDie_cores (s : State) (d : Nat) (f : Die → Die) : (s.modDie d f).cores = s.cores := rfl
@[simp] theorem modDie_launches (s : State) (d : Nat) (f : Die → Die) : (s.modDie d f).launches = s.launches := rfl
@[simp] theorem modDie_nextLaunch (s : State) (d : Nat) (f : Die → Die) : (s.modDie d f).nextLaunch = s.nextLaunch := rfl
@[simp] theorem modDie_queues (s : State) (d : Nat) (f : Die → Die) : (s.modDie d f).queues = s.queues := rfl
@[simp] theorem modDie_parts (s : State) (d : Nat) (f : Die → Die) : (s.modDie d f).parts = s.parts := rfl
@[simp] theorem modDie_chans (s : State) (d : Nat) (f : Die → Die) : (s.modDie d f).chans = s.chans := rfl
@[simp] theorem modDie_copies (s : State) (d : Nat) (f : Die → Die) : (s.modDie d f).copies = s.copies := rfl
@[simp] theorem modDie_links (s : State) (d : Nat) (f : Die → Die) : (s.modDie d f).links = s.links := rfl
@[simp] theorem modDie_d2d (s : State) (d : Nat) (f : Die → Die) : (s.modDie d f).d2d = s.d2d := rfl
@[simp] theorem modDie_chart (s : State) (d : Nat) (f : Die → Die) : (s.modDie d f).chart = s.chart := rfl
@[simp] theorem modDie_host (s : State) (d : Nat) (f : Die → Die) : (s.modDie d f).host = s.host := rfl
@[simp] theorem modDie_sec (s : State) (d : Nat) (f : Die → Die) : (s.modDie d f).sec = s.sec := rfl
@[simp] theorem modDie_pwr (s : State) (d : Nat) (f : Die → Die) : (s.modDie d f).pwr = s.pwr := rfl
@[simp] theorem modDie_boot (s : State) (d : Nat) (f : Die → Die) : (s.modDie d f).boot = s.boot := rfl
@[simp] theorem modDie_dbg (s : State) (d : Nat) (f : Die → Die) : (s.modDie d f).dbg = s.dbg := rfl
@[simp] theorem modDie_log (s : State) (d : Nat) (f : Die → Die) : (s.modDie d f).log = s.log := rfl
@[simp] theorem reg_modDie (s : State) (d : Nat) (f : Die → Die) (i : Nat) : (s.modDie d f).reg i = s.reg i := rfl
@[simp] theorem core_modDie (s : State) (d : Nat) (f : Die → Die) (i : Nat) : (s.modDie d f).core i = s.core i := rfl
@[simp] theorem part_modDie (s : State) (d : Nat) (f : Die → Die) (i : Nat) : (s.modDie d f).part i = s.part i := rfl
@[simp] theorem chan_modDie (s : State) (d : Nat) (f : Die → Die) (i : Nat) : (s.modDie d f).chan i = s.chan i := rfl
@[simp] theorem copyEng_modDie (s : State) (d : Nat) (f : Die → Die) (i : Nat) : (s.modDie d f).copyEng i = s.copyEng i := rfl
@[simp] theorem link_modDie (s : State) (d : Nat) (f : Die → Die) (i : Nat) : (s.modDie d f).link i = s.link i := rfl
@[simp] theorem queue_modDie (s : State) (d : Nat) (f : Die → Die) (i : Nat) : (s.modDie d f).queue i = s.queue i := rfl
@[simp] theorem launch_modDie (s : State) (d : Nat) (f : Die → Die) (i : Nat) : (s.modDie d f).launch? i = s.launch? i := rfl
@[simp] theorem group_modDie (s : State) (d : Nat) (f : Die → Die) (i : GRef) : (s.modDie d f).group? i = s.group? i := rfl
@[simp] theorem lamp_modDie (s : State) (d : Nat) (f : Die → Die) (i : Nat) : (s.modDie d f).lamp i = s.lamp i := rfl

@[simp] theorem setChan_pending (s : State) (c : Nat) (x : Chan) : (s.setChan c x).pending = s.pending := rfl
@[simp] theorem setChan_gt (s : State) (c : Nat) (x : Chan) : (s.setChan c x).gt = s.gt := rfl
@[simp] theorem setChan_free (s : State) (c : Nat) (x : Chan) : (s.setChan c x).free = s.free := rfl
@[simp] theorem setChan_out (s : State) (c : Nat) (x : Chan) : (s.setChan c x).out = s.out := rfl
@[simp] theorem setChan_regs (s : State) (c : Nat) (x : Chan) : (s.setChan c x).regs = s.regs := rfl
@[simp] theorem setChan_latch (s : State) (c : Nat) (x : Chan) : (s.setChan c x).latch = s.latch := rfl
@[simp] theorem setChan_held (s : State) (c : Nat) (x : Chan) : (s.setChan c x).held = s.held := rfl
@[simp] theorem setChan_mem (s : State) (c : Nat) (x : Chan) : (s.setChan c x).mem = s.mem := rfl
@[simp] theorem setChan_memEpoch (s : State) (c : Nat) (x : Chan) : (s.setChan c x).memEpoch = s.memEpoch := rfl
@[simp] theorem setChan_poison (s : State) (c : Nat) (x : Chan) : (s.setChan c x).poison = s.poison := rfl
@[simp] theorem setChan_cores (s : State) (c : Nat) (x : Chan) : (s.setChan c x).cores = s.cores := rfl
@[simp] theorem setChan_launches (s : State) (c : Nat) (x : Chan) : (s.setChan c x).launches = s.launches := rfl
@[simp] theorem setChan_nextLaunch (s : State) (c : Nat) (x : Chan) : (s.setChan c x).nextLaunch = s.nextLaunch := rfl
@[simp] theorem setChan_queues (s : State) (c : Nat) (x : Chan) : (s.setChan c x).queues = s.queues := rfl
@[simp] theorem setChan_parts (s : State) (c : Nat) (x : Chan) : (s.setChan c x).parts = s.parts := rfl
@[simp] theorem setChan_dies (s : State) (c : Nat) (x : Chan) : (s.setChan c x).dies = s.dies := rfl
@[simp] theorem setChan_copies (s : State) (c : Nat) (x : Chan) : (s.setChan c x).copies = s.copies := rfl
@[simp] theorem setChan_links (s : State) (c : Nat) (x : Chan) : (s.setChan c x).links = s.links := rfl
@[simp] theorem setChan_d2d (s : State) (c : Nat) (x : Chan) : (s.setChan c x).d2d = s.d2d := rfl
@[simp] theorem setChan_chart (s : State) (c : Nat) (x : Chan) : (s.setChan c x).chart = s.chart := rfl
@[simp] theorem setChan_host (s : State) (c : Nat) (x : Chan) : (s.setChan c x).host = s.host := rfl
@[simp] theorem setChan_sec (s : State) (c : Nat) (x : Chan) : (s.setChan c x).sec = s.sec := rfl
@[simp] theorem setChan_pwr (s : State) (c : Nat) (x : Chan) : (s.setChan c x).pwr = s.pwr := rfl
@[simp] theorem setChan_boot (s : State) (c : Nat) (x : Chan) : (s.setChan c x).boot = s.boot := rfl
@[simp] theorem setChan_dbg (s : State) (c : Nat) (x : Chan) : (s.setChan c x).dbg = s.dbg := rfl
@[simp] theorem setChan_log (s : State) (c : Nat) (x : Chan) : (s.setChan c x).log = s.log := rfl
@[simp] theorem reg_setChan (s : State) (c : Nat) (x : Chan) (i : Nat) : (s.setChan c x).reg i = s.reg i := rfl
@[simp] theorem core_setChan (s : State) (c : Nat) (x : Chan) (i : Nat) : (s.setChan c x).core i = s.core i := rfl
@[simp] theorem part_setChan (s : State) (c : Nat) (x : Chan) (i : Nat) : (s.setChan c x).part i = s.part i := rfl
@[simp] theorem die_setChan (s : State) (c : Nat) (x : Chan) (i : Nat) : (s.setChan c x).die i = s.die i := rfl
@[simp] theorem copyEng_setChan (s : State) (c : Nat) (x : Chan) (i : Nat) : (s.setChan c x).copyEng i = s.copyEng i := rfl
@[simp] theorem link_setChan (s : State) (c : Nat) (x : Chan) (i : Nat) : (s.setChan c x).link i = s.link i := rfl
@[simp] theorem queue_setChan (s : State) (c : Nat) (x : Chan) (i : Nat) : (s.setChan c x).queue i = s.queue i := rfl
@[simp] theorem launch_setChan (s : State) (c : Nat) (x : Chan) (i : Nat) : (s.setChan c x).launch? i = s.launch? i := rfl
@[simp] theorem group_setChan (s : State) (c : Nat) (x : Chan) (i : GRef) : (s.setChan c x).group? i = s.group? i := rfl
@[simp] theorem lamp_setChan (s : State) (c : Nat) (x : Chan) (i : Nat) : (s.setChan c x).lamp i = s.lamp i := rfl

@[simp] theorem modChan_pending (s : State) (c : Nat) (f : Chan → Chan) : (s.modChan c f).pending = s.pending := rfl
@[simp] theorem modChan_gt (s : State) (c : Nat) (f : Chan → Chan) : (s.modChan c f).gt = s.gt := rfl
@[simp] theorem modChan_free (s : State) (c : Nat) (f : Chan → Chan) : (s.modChan c f).free = s.free := rfl
@[simp] theorem modChan_out (s : State) (c : Nat) (f : Chan → Chan) : (s.modChan c f).out = s.out := rfl
@[simp] theorem modChan_regs (s : State) (c : Nat) (f : Chan → Chan) : (s.modChan c f).regs = s.regs := rfl
@[simp] theorem modChan_latch (s : State) (c : Nat) (f : Chan → Chan) : (s.modChan c f).latch = s.latch := rfl
@[simp] theorem modChan_held (s : State) (c : Nat) (f : Chan → Chan) : (s.modChan c f).held = s.held := rfl
@[simp] theorem modChan_mem (s : State) (c : Nat) (f : Chan → Chan) : (s.modChan c f).mem = s.mem := rfl
@[simp] theorem modChan_memEpoch (s : State) (c : Nat) (f : Chan → Chan) : (s.modChan c f).memEpoch = s.memEpoch := rfl
@[simp] theorem modChan_poison (s : State) (c : Nat) (f : Chan → Chan) : (s.modChan c f).poison = s.poison := rfl
@[simp] theorem modChan_cores (s : State) (c : Nat) (f : Chan → Chan) : (s.modChan c f).cores = s.cores := rfl
@[simp] theorem modChan_launches (s : State) (c : Nat) (f : Chan → Chan) : (s.modChan c f).launches = s.launches := rfl
@[simp] theorem modChan_nextLaunch (s : State) (c : Nat) (f : Chan → Chan) : (s.modChan c f).nextLaunch = s.nextLaunch := rfl
@[simp] theorem modChan_queues (s : State) (c : Nat) (f : Chan → Chan) : (s.modChan c f).queues = s.queues := rfl
@[simp] theorem modChan_parts (s : State) (c : Nat) (f : Chan → Chan) : (s.modChan c f).parts = s.parts := rfl
@[simp] theorem modChan_dies (s : State) (c : Nat) (f : Chan → Chan) : (s.modChan c f).dies = s.dies := rfl
@[simp] theorem modChan_copies (s : State) (c : Nat) (f : Chan → Chan) : (s.modChan c f).copies = s.copies := rfl
@[simp] theorem modChan_links (s : State) (c : Nat) (f : Chan → Chan) : (s.modChan c f).links = s.links := rfl
@[simp] theorem modChan_d2d (s : State) (c : Nat) (f : Chan → Chan) : (s.modChan c f).d2d = s.d2d := rfl
@[simp] theorem modChan_chart (s : State) (c : Nat) (f : Chan → Chan) : (s.modChan c f).chart = s.chart := rfl
@[simp] theorem modChan_host (s : State) (c : Nat) (f : Chan → Chan) : (s.modChan c f).host = s.host := rfl
@[simp] theorem modChan_sec (s : State) (c : Nat) (f : Chan → Chan) : (s.modChan c f).sec = s.sec := rfl
@[simp] theorem modChan_pwr (s : State) (c : Nat) (f : Chan → Chan) : (s.modChan c f).pwr = s.pwr := rfl
@[simp] theorem modChan_boot (s : State) (c : Nat) (f : Chan → Chan) : (s.modChan c f).boot = s.boot := rfl
@[simp] theorem modChan_dbg (s : State) (c : Nat) (f : Chan → Chan) : (s.modChan c f).dbg = s.dbg := rfl
@[simp] theorem modChan_log (s : State) (c : Nat) (f : Chan → Chan) : (s.modChan c f).log = s.log := rfl
@[simp] theorem reg_modChan (s : State) (c : Nat) (f : Chan → Chan) (i : Nat) : (s.modChan c f).reg i = s.reg i := rfl
@[simp] theorem core_modChan (s : State) (c : Nat) (f : Chan → Chan) (i : Nat) : (s.modChan c f).core i = s.core i := rfl
@[simp] theorem part_modChan (s : State) (c : Nat) (f : Chan → Chan) (i : Nat) : (s.modChan c f).part i = s.part i := rfl
@[simp] theorem die_modChan (s : State) (c : Nat) (f : Chan → Chan) (i : Nat) : (s.modChan c f).die i = s.die i := rfl
@[simp] theorem copyEng_modChan (s : State) (c : Nat) (f : Chan → Chan) (i : Nat) : (s.modChan c f).copyEng i = s.copyEng i := rfl
@[simp] theorem link_modChan (s : State) (c : Nat) (f : Chan → Chan) (i : Nat) : (s.modChan c f).link i = s.link i := rfl
@[simp] theorem queue_modChan (s : State) (c : Nat) (f : Chan → Chan) (i : Nat) : (s.modChan c f).queue i = s.queue i := rfl
@[simp] theorem launch_modChan (s : State) (c : Nat) (f : Chan → Chan) (i : Nat) : (s.modChan c f).launch? i = s.launch? i := rfl
@[simp] theorem group_modChan (s : State) (c : Nat) (f : Chan → Chan) (i : GRef) : (s.modChan c f).group? i = s.group? i := rfl
@[simp] theorem lamp_modChan (s : State) (c : Nat) (f : Chan → Chan) (i : Nat) : (s.modChan c f).lamp i = s.lamp i := rfl

@[simp] theorem setCopyEng_pending (s : State) (e : Nat) (x : CopyEng) : (s.setCopyEng e x).pending = s.pending := rfl
@[simp] theorem setCopyEng_gt (s : State) (e : Nat) (x : CopyEng) : (s.setCopyEng e x).gt = s.gt := rfl
@[simp] theorem setCopyEng_free (s : State) (e : Nat) (x : CopyEng) : (s.setCopyEng e x).free = s.free := rfl
@[simp] theorem setCopyEng_out (s : State) (e : Nat) (x : CopyEng) : (s.setCopyEng e x).out = s.out := rfl
@[simp] theorem setCopyEng_regs (s : State) (e : Nat) (x : CopyEng) : (s.setCopyEng e x).regs = s.regs := rfl
@[simp] theorem setCopyEng_latch (s : State) (e : Nat) (x : CopyEng) : (s.setCopyEng e x).latch = s.latch := rfl
@[simp] theorem setCopyEng_held (s : State) (e : Nat) (x : CopyEng) : (s.setCopyEng e x).held = s.held := rfl
@[simp] theorem setCopyEng_mem (s : State) (e : Nat) (x : CopyEng) : (s.setCopyEng e x).mem = s.mem := rfl
@[simp] theorem setCopyEng_memEpoch (s : State) (e : Nat) (x : CopyEng) : (s.setCopyEng e x).memEpoch = s.memEpoch := rfl
@[simp] theorem setCopyEng_poison (s : State) (e : Nat) (x : CopyEng) : (s.setCopyEng e x).poison = s.poison := rfl
@[simp] theorem setCopyEng_cores (s : State) (e : Nat) (x : CopyEng) : (s.setCopyEng e x).cores = s.cores := rfl
@[simp] theorem setCopyEng_launches (s : State) (e : Nat) (x : CopyEng) : (s.setCopyEng e x).launches = s.launches := rfl
@[simp] theorem setCopyEng_nextLaunch (s : State) (e : Nat) (x : CopyEng) : (s.setCopyEng e x).nextLaunch = s.nextLaunch := rfl
@[simp] theorem setCopyEng_queues (s : State) (e : Nat) (x : CopyEng) : (s.setCopyEng e x).queues = s.queues := rfl
@[simp] theorem setCopyEng_parts (s : State) (e : Nat) (x : CopyEng) : (s.setCopyEng e x).parts = s.parts := rfl
@[simp] theorem setCopyEng_dies (s : State) (e : Nat) (x : CopyEng) : (s.setCopyEng e x).dies = s.dies := rfl
@[simp] theorem setCopyEng_chans (s : State) (e : Nat) (x : CopyEng) : (s.setCopyEng e x).chans = s.chans := rfl
@[simp] theorem setCopyEng_links (s : State) (e : Nat) (x : CopyEng) : (s.setCopyEng e x).links = s.links := rfl
@[simp] theorem setCopyEng_d2d (s : State) (e : Nat) (x : CopyEng) : (s.setCopyEng e x).d2d = s.d2d := rfl
@[simp] theorem setCopyEng_chart (s : State) (e : Nat) (x : CopyEng) : (s.setCopyEng e x).chart = s.chart := rfl
@[simp] theorem setCopyEng_host (s : State) (e : Nat) (x : CopyEng) : (s.setCopyEng e x).host = s.host := rfl
@[simp] theorem setCopyEng_sec (s : State) (e : Nat) (x : CopyEng) : (s.setCopyEng e x).sec = s.sec := rfl
@[simp] theorem setCopyEng_pwr (s : State) (e : Nat) (x : CopyEng) : (s.setCopyEng e x).pwr = s.pwr := rfl
@[simp] theorem setCopyEng_boot (s : State) (e : Nat) (x : CopyEng) : (s.setCopyEng e x).boot = s.boot := rfl
@[simp] theorem setCopyEng_dbg (s : State) (e : Nat) (x : CopyEng) : (s.setCopyEng e x).dbg = s.dbg := rfl
@[simp] theorem setCopyEng_log (s : State) (e : Nat) (x : CopyEng) : (s.setCopyEng e x).log = s.log := rfl
@[simp] theorem reg_setCopyEng (s : State) (e : Nat) (x : CopyEng) (i : Nat) : (s.setCopyEng e x).reg i = s.reg i := rfl
@[simp] theorem core_setCopyEng (s : State) (e : Nat) (x : CopyEng) (i : Nat) : (s.setCopyEng e x).core i = s.core i := rfl
@[simp] theorem part_setCopyEng (s : State) (e : Nat) (x : CopyEng) (i : Nat) : (s.setCopyEng e x).part i = s.part i := rfl
@[simp] theorem die_setCopyEng (s : State) (e : Nat) (x : CopyEng) (i : Nat) : (s.setCopyEng e x).die i = s.die i := rfl
@[simp] theorem chan_setCopyEng (s : State) (e : Nat) (x : CopyEng) (i : Nat) : (s.setCopyEng e x).chan i = s.chan i := rfl
@[simp] theorem link_setCopyEng (s : State) (e : Nat) (x : CopyEng) (i : Nat) : (s.setCopyEng e x).link i = s.link i := rfl
@[simp] theorem queue_setCopyEng (s : State) (e : Nat) (x : CopyEng) (i : Nat) : (s.setCopyEng e x).queue i = s.queue i := rfl
@[simp] theorem launch_setCopyEng (s : State) (e : Nat) (x : CopyEng) (i : Nat) : (s.setCopyEng e x).launch? i = s.launch? i := rfl
@[simp] theorem group_setCopyEng (s : State) (e : Nat) (x : CopyEng) (i : GRef) : (s.setCopyEng e x).group? i = s.group? i := rfl
@[simp] theorem lamp_setCopyEng (s : State) (e : Nat) (x : CopyEng) (i : Nat) : (s.setCopyEng e x).lamp i = s.lamp i := rfl

@[simp] theorem setLink_pending (s : State) (n : Nat) (x : Link) : (s.setLink n x).pending = s.pending := rfl
@[simp] theorem setLink_gt (s : State) (n : Nat) (x : Link) : (s.setLink n x).gt = s.gt := rfl
@[simp] theorem setLink_free (s : State) (n : Nat) (x : Link) : (s.setLink n x).free = s.free := rfl
@[simp] theorem setLink_out (s : State) (n : Nat) (x : Link) : (s.setLink n x).out = s.out := rfl
@[simp] theorem setLink_regs (s : State) (n : Nat) (x : Link) : (s.setLink n x).regs = s.regs := rfl
@[simp] theorem setLink_latch (s : State) (n : Nat) (x : Link) : (s.setLink n x).latch = s.latch := rfl
@[simp] theorem setLink_held (s : State) (n : Nat) (x : Link) : (s.setLink n x).held = s.held := rfl
@[simp] theorem setLink_mem (s : State) (n : Nat) (x : Link) : (s.setLink n x).mem = s.mem := rfl
@[simp] theorem setLink_memEpoch (s : State) (n : Nat) (x : Link) : (s.setLink n x).memEpoch = s.memEpoch := rfl
@[simp] theorem setLink_poison (s : State) (n : Nat) (x : Link) : (s.setLink n x).poison = s.poison := rfl
@[simp] theorem setLink_cores (s : State) (n : Nat) (x : Link) : (s.setLink n x).cores = s.cores := rfl
@[simp] theorem setLink_launches (s : State) (n : Nat) (x : Link) : (s.setLink n x).launches = s.launches := rfl
@[simp] theorem setLink_nextLaunch (s : State) (n : Nat) (x : Link) : (s.setLink n x).nextLaunch = s.nextLaunch := rfl
@[simp] theorem setLink_queues (s : State) (n : Nat) (x : Link) : (s.setLink n x).queues = s.queues := rfl
@[simp] theorem setLink_parts (s : State) (n : Nat) (x : Link) : (s.setLink n x).parts = s.parts := rfl
@[simp] theorem setLink_dies (s : State) (n : Nat) (x : Link) : (s.setLink n x).dies = s.dies := rfl
@[simp] theorem setLink_chans (s : State) (n : Nat) (x : Link) : (s.setLink n x).chans = s.chans := rfl
@[simp] theorem setLink_copies (s : State) (n : Nat) (x : Link) : (s.setLink n x).copies = s.copies := rfl
@[simp] theorem setLink_d2d (s : State) (n : Nat) (x : Link) : (s.setLink n x).d2d = s.d2d := rfl
@[simp] theorem setLink_chart (s : State) (n : Nat) (x : Link) : (s.setLink n x).chart = s.chart := rfl
@[simp] theorem setLink_host (s : State) (n : Nat) (x : Link) : (s.setLink n x).host = s.host := rfl
@[simp] theorem setLink_sec (s : State) (n : Nat) (x : Link) : (s.setLink n x).sec = s.sec := rfl
@[simp] theorem setLink_pwr (s : State) (n : Nat) (x : Link) : (s.setLink n x).pwr = s.pwr := rfl
@[simp] theorem setLink_boot (s : State) (n : Nat) (x : Link) : (s.setLink n x).boot = s.boot := rfl
@[simp] theorem setLink_dbg (s : State) (n : Nat) (x : Link) : (s.setLink n x).dbg = s.dbg := rfl
@[simp] theorem setLink_log (s : State) (n : Nat) (x : Link) : (s.setLink n x).log = s.log := rfl
@[simp] theorem reg_setLink (s : State) (n : Nat) (x : Link) (i : Nat) : (s.setLink n x).reg i = s.reg i := rfl
@[simp] theorem core_setLink (s : State) (n : Nat) (x : Link) (i : Nat) : (s.setLink n x).core i = s.core i := rfl
@[simp] theorem part_setLink (s : State) (n : Nat) (x : Link) (i : Nat) : (s.setLink n x).part i = s.part i := rfl
@[simp] theorem die_setLink (s : State) (n : Nat) (x : Link) (i : Nat) : (s.setLink n x).die i = s.die i := rfl
@[simp] theorem chan_setLink (s : State) (n : Nat) (x : Link) (i : Nat) : (s.setLink n x).chan i = s.chan i := rfl
@[simp] theorem copyEng_setLink (s : State) (n : Nat) (x : Link) (i : Nat) : (s.setLink n x).copyEng i = s.copyEng i := rfl
@[simp] theorem queue_setLink (s : State) (n : Nat) (x : Link) (i : Nat) : (s.setLink n x).queue i = s.queue i := rfl
@[simp] theorem launch_setLink (s : State) (n : Nat) (x : Link) (i : Nat) : (s.setLink n x).launch? i = s.launch? i := rfl
@[simp] theorem group_setLink (s : State) (n : Nat) (x : Link) (i : GRef) : (s.setLink n x).group? i = s.group? i := rfl
@[simp] theorem lamp_setLink (s : State) (n : Nat) (x : Link) (i : Nat) : (s.setLink n x).lamp i = s.lamp i := rfl

@[simp] theorem modLink_pending (s : State) (n : Nat) (f : Link → Link) : (s.modLink n f).pending = s.pending := rfl
@[simp] theorem modLink_gt (s : State) (n : Nat) (f : Link → Link) : (s.modLink n f).gt = s.gt := rfl
@[simp] theorem modLink_free (s : State) (n : Nat) (f : Link → Link) : (s.modLink n f).free = s.free := rfl
@[simp] theorem modLink_out (s : State) (n : Nat) (f : Link → Link) : (s.modLink n f).out = s.out := rfl
@[simp] theorem modLink_regs (s : State) (n : Nat) (f : Link → Link) : (s.modLink n f).regs = s.regs := rfl
@[simp] theorem modLink_latch (s : State) (n : Nat) (f : Link → Link) : (s.modLink n f).latch = s.latch := rfl
@[simp] theorem modLink_held (s : State) (n : Nat) (f : Link → Link) : (s.modLink n f).held = s.held := rfl
@[simp] theorem modLink_mem (s : State) (n : Nat) (f : Link → Link) : (s.modLink n f).mem = s.mem := rfl
@[simp] theorem modLink_memEpoch (s : State) (n : Nat) (f : Link → Link) : (s.modLink n f).memEpoch = s.memEpoch := rfl
@[simp] theorem modLink_poison (s : State) (n : Nat) (f : Link → Link) : (s.modLink n f).poison = s.poison := rfl
@[simp] theorem modLink_cores (s : State) (n : Nat) (f : Link → Link) : (s.modLink n f).cores = s.cores := rfl
@[simp] theorem modLink_launches (s : State) (n : Nat) (f : Link → Link) : (s.modLink n f).launches = s.launches := rfl
@[simp] theorem modLink_nextLaunch (s : State) (n : Nat) (f : Link → Link) : (s.modLink n f).nextLaunch = s.nextLaunch := rfl
@[simp] theorem modLink_queues (s : State) (n : Nat) (f : Link → Link) : (s.modLink n f).queues = s.queues := rfl
@[simp] theorem modLink_parts (s : State) (n : Nat) (f : Link → Link) : (s.modLink n f).parts = s.parts := rfl
@[simp] theorem modLink_dies (s : State) (n : Nat) (f : Link → Link) : (s.modLink n f).dies = s.dies := rfl
@[simp] theorem modLink_chans (s : State) (n : Nat) (f : Link → Link) : (s.modLink n f).chans = s.chans := rfl
@[simp] theorem modLink_copies (s : State) (n : Nat) (f : Link → Link) : (s.modLink n f).copies = s.copies := rfl
@[simp] theorem modLink_d2d (s : State) (n : Nat) (f : Link → Link) : (s.modLink n f).d2d = s.d2d := rfl
@[simp] theorem modLink_chart (s : State) (n : Nat) (f : Link → Link) : (s.modLink n f).chart = s.chart := rfl
@[simp] theorem modLink_host (s : State) (n : Nat) (f : Link → Link) : (s.modLink n f).host = s.host := rfl
@[simp] theorem modLink_sec (s : State) (n : Nat) (f : Link → Link) : (s.modLink n f).sec = s.sec := rfl
@[simp] theorem modLink_pwr (s : State) (n : Nat) (f : Link → Link) : (s.modLink n f).pwr = s.pwr := rfl
@[simp] theorem modLink_boot (s : State) (n : Nat) (f : Link → Link) : (s.modLink n f).boot = s.boot := rfl
@[simp] theorem modLink_dbg (s : State) (n : Nat) (f : Link → Link) : (s.modLink n f).dbg = s.dbg := rfl
@[simp] theorem modLink_log (s : State) (n : Nat) (f : Link → Link) : (s.modLink n f).log = s.log := rfl
@[simp] theorem reg_modLink (s : State) (n : Nat) (f : Link → Link) (i : Nat) : (s.modLink n f).reg i = s.reg i := rfl
@[simp] theorem core_modLink (s : State) (n : Nat) (f : Link → Link) (i : Nat) : (s.modLink n f).core i = s.core i := rfl
@[simp] theorem part_modLink (s : State) (n : Nat) (f : Link → Link) (i : Nat) : (s.modLink n f).part i = s.part i := rfl
@[simp] theorem die_modLink (s : State) (n : Nat) (f : Link → Link) (i : Nat) : (s.modLink n f).die i = s.die i := rfl
@[simp] theorem chan_modLink (s : State) (n : Nat) (f : Link → Link) (i : Nat) : (s.modLink n f).chan i = s.chan i := rfl
@[simp] theorem copyEng_modLink (s : State) (n : Nat) (f : Link → Link) (i : Nat) : (s.modLink n f).copyEng i = s.copyEng i := rfl
@[simp] theorem queue_modLink (s : State) (n : Nat) (f : Link → Link) (i : Nat) : (s.modLink n f).queue i = s.queue i := rfl
@[simp] theorem launch_modLink (s : State) (n : Nat) (f : Link → Link) (i : Nat) : (s.modLink n f).launch? i = s.launch? i := rfl
@[simp] theorem group_modLink (s : State) (n : Nat) (f : Link → Link) (i : GRef) : (s.modLink n f).group? i = s.group? i := rfl
@[simp] theorem lamp_modLink (s : State) (n : Nat) (f : Link → Link) (i : Nat) : (s.modLink n f).lamp i = s.lamp i := rfl

@[simp] theorem setQueue_pending (s : State) (k : Nat) (x : Queue) : (s.setQueue k x).pending = s.pending := rfl
@[simp] theorem setQueue_gt (s : State) (k : Nat) (x : Queue) : (s.setQueue k x).gt = s.gt := rfl
@[simp] theorem setQueue_free (s : State) (k : Nat) (x : Queue) : (s.setQueue k x).free = s.free := rfl
@[simp] theorem setQueue_out (s : State) (k : Nat) (x : Queue) : (s.setQueue k x).out = s.out := rfl
@[simp] theorem setQueue_regs (s : State) (k : Nat) (x : Queue) : (s.setQueue k x).regs = s.regs := rfl
@[simp] theorem setQueue_latch (s : State) (k : Nat) (x : Queue) : (s.setQueue k x).latch = s.latch := rfl
@[simp] theorem setQueue_held (s : State) (k : Nat) (x : Queue) : (s.setQueue k x).held = s.held := rfl
@[simp] theorem setQueue_mem (s : State) (k : Nat) (x : Queue) : (s.setQueue k x).mem = s.mem := rfl
@[simp] theorem setQueue_memEpoch (s : State) (k : Nat) (x : Queue) : (s.setQueue k x).memEpoch = s.memEpoch := rfl
@[simp] theorem setQueue_poison (s : State) (k : Nat) (x : Queue) : (s.setQueue k x).poison = s.poison := rfl
@[simp] theorem setQueue_cores (s : State) (k : Nat) (x : Queue) : (s.setQueue k x).cores = s.cores := rfl
@[simp] theorem setQueue_launches (s : State) (k : Nat) (x : Queue) : (s.setQueue k x).launches = s.launches := rfl
@[simp] theorem setQueue_nextLaunch (s : State) (k : Nat) (x : Queue) : (s.setQueue k x).nextLaunch = s.nextLaunch := rfl
@[simp] theorem setQueue_parts (s : State) (k : Nat) (x : Queue) : (s.setQueue k x).parts = s.parts := rfl
@[simp] theorem setQueue_dies (s : State) (k : Nat) (x : Queue) : (s.setQueue k x).dies = s.dies := rfl
@[simp] theorem setQueue_chans (s : State) (k : Nat) (x : Queue) : (s.setQueue k x).chans = s.chans := rfl
@[simp] theorem setQueue_copies (s : State) (k : Nat) (x : Queue) : (s.setQueue k x).copies = s.copies := rfl
@[simp] theorem setQueue_links (s : State) (k : Nat) (x : Queue) : (s.setQueue k x).links = s.links := rfl
@[simp] theorem setQueue_d2d (s : State) (k : Nat) (x : Queue) : (s.setQueue k x).d2d = s.d2d := rfl
@[simp] theorem setQueue_chart (s : State) (k : Nat) (x : Queue) : (s.setQueue k x).chart = s.chart := rfl
@[simp] theorem setQueue_host (s : State) (k : Nat) (x : Queue) : (s.setQueue k x).host = s.host := rfl
@[simp] theorem setQueue_sec (s : State) (k : Nat) (x : Queue) : (s.setQueue k x).sec = s.sec := rfl
@[simp] theorem setQueue_pwr (s : State) (k : Nat) (x : Queue) : (s.setQueue k x).pwr = s.pwr := rfl
@[simp] theorem setQueue_boot (s : State) (k : Nat) (x : Queue) : (s.setQueue k x).boot = s.boot := rfl
@[simp] theorem setQueue_dbg (s : State) (k : Nat) (x : Queue) : (s.setQueue k x).dbg = s.dbg := rfl
@[simp] theorem setQueue_log (s : State) (k : Nat) (x : Queue) : (s.setQueue k x).log = s.log := rfl
@[simp] theorem reg_setQueue (s : State) (k : Nat) (x : Queue) (i : Nat) : (s.setQueue k x).reg i = s.reg i := rfl
@[simp] theorem core_setQueue (s : State) (k : Nat) (x : Queue) (i : Nat) : (s.setQueue k x).core i = s.core i := rfl
@[simp] theorem part_setQueue (s : State) (k : Nat) (x : Queue) (i : Nat) : (s.setQueue k x).part i = s.part i := rfl
@[simp] theorem die_setQueue (s : State) (k : Nat) (x : Queue) (i : Nat) : (s.setQueue k x).die i = s.die i := rfl
@[simp] theorem chan_setQueue (s : State) (k : Nat) (x : Queue) (i : Nat) : (s.setQueue k x).chan i = s.chan i := rfl
@[simp] theorem copyEng_setQueue (s : State) (k : Nat) (x : Queue) (i : Nat) : (s.setQueue k x).copyEng i = s.copyEng i := rfl
@[simp] theorem link_setQueue (s : State) (k : Nat) (x : Queue) (i : Nat) : (s.setQueue k x).link i = s.link i := rfl
@[simp] theorem launch_setQueue (s : State) (k : Nat) (x : Queue) (i : Nat) : (s.setQueue k x).launch? i = s.launch? i := rfl
@[simp] theorem group_setQueue (s : State) (k : Nat) (x : Queue) (i : GRef) : (s.setQueue k x).group? i = s.group? i := rfl
@[simp] theorem lamp_setQueue (s : State) (k : Nat) (x : Queue) (i : Nat) : (s.setQueue k x).lamp i = s.lamp i := rfl

@[simp] theorem modQueue_pending (s : State) (k : Nat) (f : Queue → Queue) : (s.modQueue k f).pending = s.pending := rfl
@[simp] theorem modQueue_gt (s : State) (k : Nat) (f : Queue → Queue) : (s.modQueue k f).gt = s.gt := rfl
@[simp] theorem modQueue_free (s : State) (k : Nat) (f : Queue → Queue) : (s.modQueue k f).free = s.free := rfl
@[simp] theorem modQueue_out (s : State) (k : Nat) (f : Queue → Queue) : (s.modQueue k f).out = s.out := rfl
@[simp] theorem modQueue_regs (s : State) (k : Nat) (f : Queue → Queue) : (s.modQueue k f).regs = s.regs := rfl
@[simp] theorem modQueue_latch (s : State) (k : Nat) (f : Queue → Queue) : (s.modQueue k f).latch = s.latch := rfl
@[simp] theorem modQueue_held (s : State) (k : Nat) (f : Queue → Queue) : (s.modQueue k f).held = s.held := rfl
@[simp] theorem modQueue_mem (s : State) (k : Nat) (f : Queue → Queue) : (s.modQueue k f).mem = s.mem := rfl
@[simp] theorem modQueue_memEpoch (s : State) (k : Nat) (f : Queue → Queue) : (s.modQueue k f).memEpoch = s.memEpoch := rfl
@[simp] theorem modQueue_poison (s : State) (k : Nat) (f : Queue → Queue) : (s.modQueue k f).poison = s.poison := rfl
@[simp] theorem modQueue_cores (s : State) (k : Nat) (f : Queue → Queue) : (s.modQueue k f).cores = s.cores := rfl
@[simp] theorem modQueue_launches (s : State) (k : Nat) (f : Queue → Queue) : (s.modQueue k f).launches = s.launches := rfl
@[simp] theorem modQueue_nextLaunch (s : State) (k : Nat) (f : Queue → Queue) : (s.modQueue k f).nextLaunch = s.nextLaunch := rfl
@[simp] theorem modQueue_parts (s : State) (k : Nat) (f : Queue → Queue) : (s.modQueue k f).parts = s.parts := rfl
@[simp] theorem modQueue_dies (s : State) (k : Nat) (f : Queue → Queue) : (s.modQueue k f).dies = s.dies := rfl
@[simp] theorem modQueue_chans (s : State) (k : Nat) (f : Queue → Queue) : (s.modQueue k f).chans = s.chans := rfl
@[simp] theorem modQueue_copies (s : State) (k : Nat) (f : Queue → Queue) : (s.modQueue k f).copies = s.copies := rfl
@[simp] theorem modQueue_links (s : State) (k : Nat) (f : Queue → Queue) : (s.modQueue k f).links = s.links := rfl
@[simp] theorem modQueue_d2d (s : State) (k : Nat) (f : Queue → Queue) : (s.modQueue k f).d2d = s.d2d := rfl
@[simp] theorem modQueue_chart (s : State) (k : Nat) (f : Queue → Queue) : (s.modQueue k f).chart = s.chart := rfl
@[simp] theorem modQueue_host (s : State) (k : Nat) (f : Queue → Queue) : (s.modQueue k f).host = s.host := rfl
@[simp] theorem modQueue_sec (s : State) (k : Nat) (f : Queue → Queue) : (s.modQueue k f).sec = s.sec := rfl
@[simp] theorem modQueue_pwr (s : State) (k : Nat) (f : Queue → Queue) : (s.modQueue k f).pwr = s.pwr := rfl
@[simp] theorem modQueue_boot (s : State) (k : Nat) (f : Queue → Queue) : (s.modQueue k f).boot = s.boot := rfl
@[simp] theorem modQueue_dbg (s : State) (k : Nat) (f : Queue → Queue) : (s.modQueue k f).dbg = s.dbg := rfl
@[simp] theorem modQueue_log (s : State) (k : Nat) (f : Queue → Queue) : (s.modQueue k f).log = s.log := rfl
@[simp] theorem reg_modQueue (s : State) (k : Nat) (f : Queue → Queue) (i : Nat) : (s.modQueue k f).reg i = s.reg i := rfl
@[simp] theorem core_modQueue (s : State) (k : Nat) (f : Queue → Queue) (i : Nat) : (s.modQueue k f).core i = s.core i := rfl
@[simp] theorem part_modQueue (s : State) (k : Nat) (f : Queue → Queue) (i : Nat) : (s.modQueue k f).part i = s.part i := rfl
@[simp] theorem die_modQueue (s : State) (k : Nat) (f : Queue → Queue) (i : Nat) : (s.modQueue k f).die i = s.die i := rfl
@[simp] theorem chan_modQueue (s : State) (k : Nat) (f : Queue → Queue) (i : Nat) : (s.modQueue k f).chan i = s.chan i := rfl
@[simp] theorem copyEng_modQueue (s : State) (k : Nat) (f : Queue → Queue) (i : Nat) : (s.modQueue k f).copyEng i = s.copyEng i := rfl
@[simp] theorem link_modQueue (s : State) (k : Nat) (f : Queue → Queue) (i : Nat) : (s.modQueue k f).link i = s.link i := rfl
@[simp] theorem launch_modQueue (s : State) (k : Nat) (f : Queue → Queue) (i : Nat) : (s.modQueue k f).launch? i = s.launch? i := rfl
@[simp] theorem group_modQueue (s : State) (k : Nat) (f : Queue → Queue) (i : GRef) : (s.modQueue k f).group? i = s.group? i := rfl
@[simp] theorem lamp_modQueue (s : State) (k : Nat) (f : Queue → Queue) (i : Nat) : (s.modQueue k f).lamp i = s.lamp i := rfl

@[simp] theorem setLaunch_pending (s : State) (l : Nat) (x : Launch) : (s.setLaunch l x).pending = s.pending := rfl
@[simp] theorem setLaunch_gt (s : State) (l : Nat) (x : Launch) : (s.setLaunch l x).gt = s.gt := rfl
@[simp] theorem setLaunch_free (s : State) (l : Nat) (x : Launch) : (s.setLaunch l x).free = s.free := rfl
@[simp] theorem setLaunch_out (s : State) (l : Nat) (x : Launch) : (s.setLaunch l x).out = s.out := rfl
@[simp] theorem setLaunch_regs (s : State) (l : Nat) (x : Launch) : (s.setLaunch l x).regs = s.regs := rfl
@[simp] theorem setLaunch_latch (s : State) (l : Nat) (x : Launch) : (s.setLaunch l x).latch = s.latch := rfl
@[simp] theorem setLaunch_held (s : State) (l : Nat) (x : Launch) : (s.setLaunch l x).held = s.held := rfl
@[simp] theorem setLaunch_mem (s : State) (l : Nat) (x : Launch) : (s.setLaunch l x).mem = s.mem := rfl
@[simp] theorem setLaunch_memEpoch (s : State) (l : Nat) (x : Launch) : (s.setLaunch l x).memEpoch = s.memEpoch := rfl
@[simp] theorem setLaunch_poison (s : State) (l : Nat) (x : Launch) : (s.setLaunch l x).poison = s.poison := rfl
@[simp] theorem setLaunch_cores (s : State) (l : Nat) (x : Launch) : (s.setLaunch l x).cores = s.cores := rfl
@[simp] theorem setLaunch_nextLaunch (s : State) (l : Nat) (x : Launch) : (s.setLaunch l x).nextLaunch = s.nextLaunch := rfl
@[simp] theorem setLaunch_queues (s : State) (l : Nat) (x : Launch) : (s.setLaunch l x).queues = s.queues := rfl
@[simp] theorem setLaunch_parts (s : State) (l : Nat) (x : Launch) : (s.setLaunch l x).parts = s.parts := rfl
@[simp] theorem setLaunch_dies (s : State) (l : Nat) (x : Launch) : (s.setLaunch l x).dies = s.dies := rfl
@[simp] theorem setLaunch_chans (s : State) (l : Nat) (x : Launch) : (s.setLaunch l x).chans = s.chans := rfl
@[simp] theorem setLaunch_copies (s : State) (l : Nat) (x : Launch) : (s.setLaunch l x).copies = s.copies := rfl
@[simp] theorem setLaunch_links (s : State) (l : Nat) (x : Launch) : (s.setLaunch l x).links = s.links := rfl
@[simp] theorem setLaunch_d2d (s : State) (l : Nat) (x : Launch) : (s.setLaunch l x).d2d = s.d2d := rfl
@[simp] theorem setLaunch_chart (s : State) (l : Nat) (x : Launch) : (s.setLaunch l x).chart = s.chart := rfl
@[simp] theorem setLaunch_host (s : State) (l : Nat) (x : Launch) : (s.setLaunch l x).host = s.host := rfl
@[simp] theorem setLaunch_sec (s : State) (l : Nat) (x : Launch) : (s.setLaunch l x).sec = s.sec := rfl
@[simp] theorem setLaunch_pwr (s : State) (l : Nat) (x : Launch) : (s.setLaunch l x).pwr = s.pwr := rfl
@[simp] theorem setLaunch_boot (s : State) (l : Nat) (x : Launch) : (s.setLaunch l x).boot = s.boot := rfl
@[simp] theorem setLaunch_dbg (s : State) (l : Nat) (x : Launch) : (s.setLaunch l x).dbg = s.dbg := rfl
@[simp] theorem setLaunch_log (s : State) (l : Nat) (x : Launch) : (s.setLaunch l x).log = s.log := rfl
@[simp] theorem reg_setLaunch (s : State) (l : Nat) (x : Launch) (i : Nat) : (s.setLaunch l x).reg i = s.reg i := rfl
@[simp] theorem core_setLaunch (s : State) (l : Nat) (x : Launch) (i : Nat) : (s.setLaunch l x).core i = s.core i := rfl
@[simp] theorem part_setLaunch (s : State) (l : Nat) (x : Launch) (i : Nat) : (s.setLaunch l x).part i = s.part i := rfl
@[simp] theorem die_setLaunch (s : State) (l : Nat) (x : Launch) (i : Nat) : (s.setLaunch l x).die i = s.die i := rfl
@[simp] theorem chan_setLaunch (s : State) (l : Nat) (x : Launch) (i : Nat) : (s.setLaunch l x).chan i = s.chan i := rfl
@[simp] theorem copyEng_setLaunch (s : State) (l : Nat) (x : Launch) (i : Nat) : (s.setLaunch l x).copyEng i = s.copyEng i := rfl
@[simp] theorem link_setLaunch (s : State) (l : Nat) (x : Launch) (i : Nat) : (s.setLaunch l x).link i = s.link i := rfl
@[simp] theorem queue_setLaunch (s : State) (l : Nat) (x : Launch) (i : Nat) : (s.setLaunch l x).queue i = s.queue i := rfl
@[simp] theorem group_setLaunch (s : State) (l : Nat) (x : Launch) (i : GRef) : (s.setLaunch l x).group? i = s.group? i := rfl
@[simp] theorem lamp_setLaunch (s : State) (l : Nat) (x : Launch) (i : Nat) : (s.setLaunch l x).lamp i = s.lamp i := rfl

@[simp] theorem delLaunch_pending (s : State) (l : Nat) : (s.delLaunch l).pending = s.pending := rfl
@[simp] theorem delLaunch_gt (s : State) (l : Nat) : (s.delLaunch l).gt = s.gt := rfl
@[simp] theorem delLaunch_free (s : State) (l : Nat) : (s.delLaunch l).free = s.free := rfl
@[simp] theorem delLaunch_out (s : State) (l : Nat) : (s.delLaunch l).out = s.out := rfl
@[simp] theorem delLaunch_regs (s : State) (l : Nat) : (s.delLaunch l).regs = s.regs := rfl
@[simp] theorem delLaunch_latch (s : State) (l : Nat) : (s.delLaunch l).latch = s.latch := rfl
@[simp] theorem delLaunch_held (s : State) (l : Nat) : (s.delLaunch l).held = s.held := rfl
@[simp] theorem delLaunch_mem (s : State) (l : Nat) : (s.delLaunch l).mem = s.mem := rfl
@[simp] theorem delLaunch_memEpoch (s : State) (l : Nat) : (s.delLaunch l).memEpoch = s.memEpoch := rfl
@[simp] theorem delLaunch_poison (s : State) (l : Nat) : (s.delLaunch l).poison = s.poison := rfl
@[simp] theorem delLaunch_cores (s : State) (l : Nat) : (s.delLaunch l).cores = s.cores := rfl
@[simp] theorem delLaunch_nextLaunch (s : State) (l : Nat) : (s.delLaunch l).nextLaunch = s.nextLaunch := rfl
@[simp] theorem delLaunch_queues (s : State) (l : Nat) : (s.delLaunch l).queues = s.queues := rfl
@[simp] theorem delLaunch_parts (s : State) (l : Nat) : (s.delLaunch l).parts = s.parts := rfl
@[simp] theorem delLaunch_dies (s : State) (l : Nat) : (s.delLaunch l).dies = s.dies := rfl
@[simp] theorem delLaunch_chans (s : State) (l : Nat) : (s.delLaunch l).chans = s.chans := rfl
@[simp] theorem delLaunch_copies (s : State) (l : Nat) : (s.delLaunch l).copies = s.copies := rfl
@[simp] theorem delLaunch_links (s : State) (l : Nat) : (s.delLaunch l).links = s.links := rfl
@[simp] theorem delLaunch_d2d (s : State) (l : Nat) : (s.delLaunch l).d2d = s.d2d := rfl
@[simp] theorem delLaunch_chart (s : State) (l : Nat) : (s.delLaunch l).chart = s.chart := rfl
@[simp] theorem delLaunch_host (s : State) (l : Nat) : (s.delLaunch l).host = s.host := rfl
@[simp] theorem delLaunch_sec (s : State) (l : Nat) : (s.delLaunch l).sec = s.sec := rfl
@[simp] theorem delLaunch_pwr (s : State) (l : Nat) : (s.delLaunch l).pwr = s.pwr := rfl
@[simp] theorem delLaunch_boot (s : State) (l : Nat) : (s.delLaunch l).boot = s.boot := rfl
@[simp] theorem delLaunch_dbg (s : State) (l : Nat) : (s.delLaunch l).dbg = s.dbg := rfl
@[simp] theorem delLaunch_log (s : State) (l : Nat) : (s.delLaunch l).log = s.log := rfl
@[simp] theorem reg_delLaunch (s : State) (l : Nat) (i : Nat) : (s.delLaunch l).reg i = s.reg i := rfl
@[simp] theorem core_delLaunch (s : State) (l : Nat) (i : Nat) : (s.delLaunch l).core i = s.core i := rfl
@[simp] theorem part_delLaunch (s : State) (l : Nat) (i : Nat) : (s.delLaunch l).part i = s.part i := rfl
@[simp] theorem die_delLaunch (s : State) (l : Nat) (i : Nat) : (s.delLaunch l).die i = s.die i := rfl
@[simp] theorem chan_delLaunch (s : State) (l : Nat) (i : Nat) : (s.delLaunch l).chan i = s.chan i := rfl
@[simp] theorem copyEng_delLaunch (s : State) (l : Nat) (i : Nat) : (s.delLaunch l).copyEng i = s.copyEng i := rfl
@[simp] theorem link_delLaunch (s : State) (l : Nat) (i : Nat) : (s.delLaunch l).link i = s.link i := rfl
@[simp] theorem queue_delLaunch (s : State) (l : Nat) (i : Nat) : (s.delLaunch l).queue i = s.queue i := rfl
@[simp] theorem group_delLaunch (s : State) (l : Nat) (i : GRef) : (s.delLaunch l).group? i = s.group? i := rfl
@[simp] theorem lamp_delLaunch (s : State) (l : Nat) (i : Nat) : (s.delLaunch l).lamp i = s.lamp i := rfl

@[simp] theorem emit_pending (s : State) (o : Output) : (s.emit o).pending = s.pending := rfl
@[simp] theorem emit_gt (s : State) (o : Output) : (s.emit o).gt = s.gt := rfl
@[simp] theorem emit_free (s : State) (o : Output) : (s.emit o).free = s.free := rfl
@[simp] theorem emit_regs (s : State) (o : Output) : (s.emit o).regs = s.regs := rfl
@[simp] theorem emit_latch (s : State) (o : Output) : (s.emit o).latch = s.latch := rfl
@[simp] theorem emit_held (s : State) (o : Output) : (s.emit o).held = s.held := rfl
@[simp] theorem emit_mem (s : State) (o : Output) : (s.emit o).mem = s.mem := rfl
@[simp] theorem emit_memEpoch (s : State) (o : Output) : (s.emit o).memEpoch = s.memEpoch := rfl
@[simp] theorem emit_poison (s : State) (o : Output) : (s.emit o).poison = s.poison := rfl
@[simp] theorem emit_cores (s : State) (o : Output) : (s.emit o).cores = s.cores := rfl
@[simp] theorem emit_launches (s : State) (o : Output) : (s.emit o).launches = s.launches := rfl
@[simp] theorem emit_nextLaunch (s : State) (o : Output) : (s.emit o).nextLaunch = s.nextLaunch := rfl
@[simp] theorem emit_queues (s : State) (o : Output) : (s.emit o).queues = s.queues := rfl
@[simp] theorem emit_parts (s : State) (o : Output) : (s.emit o).parts = s.parts := rfl
@[simp] theorem emit_dies (s : State) (o : Output) : (s.emit o).dies = s.dies := rfl
@[simp] theorem emit_chans (s : State) (o : Output) : (s.emit o).chans = s.chans := rfl
@[simp] theorem emit_copies (s : State) (o : Output) : (s.emit o).copies = s.copies := rfl
@[simp] theorem emit_links (s : State) (o : Output) : (s.emit o).links = s.links := rfl
@[simp] theorem emit_d2d (s : State) (o : Output) : (s.emit o).d2d = s.d2d := rfl
@[simp] theorem emit_chart (s : State) (o : Output) : (s.emit o).chart = s.chart := rfl
@[simp] theorem emit_host (s : State) (o : Output) : (s.emit o).host = s.host := rfl
@[simp] theorem emit_sec (s : State) (o : Output) : (s.emit o).sec = s.sec := rfl
@[simp] theorem emit_pwr (s : State) (o : Output) : (s.emit o).pwr = s.pwr := rfl
@[simp] theorem emit_boot (s : State) (o : Output) : (s.emit o).boot = s.boot := rfl
@[simp] theorem emit_dbg (s : State) (o : Output) : (s.emit o).dbg = s.dbg := rfl
@[simp] theorem emit_log (s : State) (o : Output) : (s.emit o).log = s.log := rfl
@[simp] theorem reg_emit (s : State) (o : Output) (i : Nat) : (s.emit o).reg i = s.reg i := rfl
@[simp] theorem core_emit (s : State) (o : Output) (i : Nat) : (s.emit o).core i = s.core i := rfl
@[simp] theorem part_emit (s : State) (o : Output) (i : Nat) : (s.emit o).part i = s.part i := rfl
@[simp] theorem die_emit (s : State) (o : Output) (i : Nat) : (s.emit o).die i = s.die i := rfl
@[simp] theorem chan_emit (s : State) (o : Output) (i : Nat) : (s.emit o).chan i = s.chan i := rfl
@[simp] theorem copyEng_emit (s : State) (o : Output) (i : Nat) : (s.emit o).copyEng i = s.copyEng i := rfl
@[simp] theorem link_emit (s : State) (o : Output) (i : Nat) : (s.emit o).link i = s.link i := rfl
@[simp] theorem queue_emit (s : State) (o : Output) (i : Nat) : (s.emit o).queue i = s.queue i := rfl
@[simp] theorem launch_emit (s : State) (o : Output) (i : Nat) : (s.emit o).launch? i = s.launch? i := rfl
@[simp] theorem group_emit (s : State) (o : Output) (i : GRef) : (s.emit o).group? i = s.group? i := rfl
@[simp] theorem lamp_emit (s : State) (o : Output) (i : Nat) : (s.emit o).lamp i = s.lamp i := rfl

/-! Reads after the update that they follow. -/

theorem reg_setReg (s : State) (k : Nat) (v : Word) (i : Nat) : (s.setReg k v).reg i = if i = k then v else s.reg i := by
  unfold State.reg State.setReg
  split
  · next h => subst h; exact tget_tput_self _ _ _ _
  · next h => exact tget_tput_ne _ _ _ h _
@[simp] theorem reg_setReg_self (s : State) (k : Nat) (v : Word) : (s.setReg k v).reg k = v := by rw [reg_setReg, if_pos rfl]
@[simp] theorem reg_setReg_ne (s : State) {k i : Nat} (v : Word) (h : i ≠ k) : (s.setReg k v).reg i = s.reg i := by rw [reg_setReg, if_neg h]

theorem core_setCore (s : State) (k : Nat) (x : Core) (i : Nat) : (s.setCore k x).core i = if i = k then x else s.core i := by
  unfold State.core State.setCore
  split
  · next h => subst h; exact tget_tput_self _ _ _ _
  · next h => exact tget_tput_ne _ _ _ h _
@[simp] theorem core_setCore_self (s : State) (k : Nat) (x : Core) : (s.setCore k x).core k = x := by rw [core_setCore, if_pos rfl]
@[simp] theorem core_setCore_ne (s : State) {k i : Nat} (x : Core) (h : i ≠ k) : (s.setCore k x).core i = s.core i := by rw [core_setCore, if_neg h]
@[simp] theorem core_modCore_self (s : State) (k : Nat) (f : Core → Core) : (s.modCore k f).core k = f (s.core k) := core_setCore_self s k _
@[simp] theorem core_modCore_ne (s : State) {k i : Nat} (f : Core → Core) (h : i ≠ k) : (s.modCore k f).core i = s.core i := core_setCore_ne s _ h

theorem part_setPart (s : State) (k : Nat) (x : Part) (i : Nat) : (s.setPart k x).part i = if i = k then x else s.part i := by
  unfold State.part State.setPart
  split
  · next h => subst h; exact tget_tput_self _ _ _ _
  · next h => exact tget_tput_ne _ _ _ h _
@[simp] theorem part_setPart_self (s : State) (k : Nat) (x : Part) : (s.setPart k x).part k = x := by rw [part_setPart, if_pos rfl]
@[simp] theorem part_setPart_ne (s : State) {k i : Nat} (x : Part) (h : i ≠ k) : (s.setPart k x).part i = s.part i := by rw [part_setPart, if_neg h]
@[simp] theorem part_modPart_self (s : State) (k : Nat) (f : Part → Part) : (s.modPart k f).part k = f (s.part k) := part_setPart_self s k _
@[simp] theorem part_modPart_ne (s : State) {k i : Nat} (f : Part → Part) (h : i ≠ k) : (s.modPart k f).part i = s.part i := part_setPart_ne s _ h

theorem die_setDie (s : State) (k : Nat) (x : Die) (i : Nat) : (s.setDie k x).die i = if i = k then x else s.die i := by
  unfold State.die State.setDie
  split
  · next h => subst h; exact tget_tput_self _ _ _ _
  · next h => exact tget_tput_ne _ _ _ h _
@[simp] theorem die_setDie_self (s : State) (k : Nat) (x : Die) : (s.setDie k x).die k = x := by rw [die_setDie, if_pos rfl]
@[simp] theorem die_setDie_ne (s : State) {k i : Nat} (x : Die) (h : i ≠ k) : (s.setDie k x).die i = s.die i := by rw [die_setDie, if_neg h]
@[simp] theorem die_modDie_self (s : State) (k : Nat) (f : Die → Die) : (s.modDie k f).die k = f (s.die k) := die_setDie_self s k _
@[simp] theorem die_modDie_ne (s : State) {k i : Nat} (f : Die → Die) (h : i ≠ k) : (s.modDie k f).die i = s.die i := die_setDie_ne s _ h

theorem chan_setChan (s : State) (k : Nat) (x : Chan) (i : Nat) : (s.setChan k x).chan i = if i = k then x else s.chan i := by
  unfold State.chan State.setChan
  split
  · next h => subst h; exact tget_tput_self _ _ _ _
  · next h => exact tget_tput_ne _ _ _ h _
@[simp] theorem chan_setChan_self (s : State) (k : Nat) (x : Chan) : (s.setChan k x).chan k = x := by rw [chan_setChan, if_pos rfl]
@[simp] theorem chan_setChan_ne (s : State) {k i : Nat} (x : Chan) (h : i ≠ k) : (s.setChan k x).chan i = s.chan i := by rw [chan_setChan, if_neg h]
@[simp] theorem chan_modChan_self (s : State) (k : Nat) (f : Chan → Chan) : (s.modChan k f).chan k = f (s.chan k) := chan_setChan_self s k _
@[simp] theorem chan_modChan_ne (s : State) {k i : Nat} (f : Chan → Chan) (h : i ≠ k) : (s.modChan k f).chan i = s.chan i := chan_setChan_ne s _ h

theorem copyEng_setCopyEng (s : State) (k : Nat) (x : CopyEng) (i : Nat) : (s.setCopyEng k x).copyEng i = if i = k then x else s.copyEng i := by
  unfold State.copyEng State.setCopyEng
  split
  · next h => subst h; exact tget_tput_self _ _ _ _
  · next h => exact tget_tput_ne _ _ _ h _
@[simp] theorem copyEng_setCopyEng_self (s : State) (k : Nat) (x : CopyEng) : (s.setCopyEng k x).copyEng k = x := by rw [copyEng_setCopyEng, if_pos rfl]
@[simp] theorem copyEng_setCopyEng_ne (s : State) {k i : Nat} (x : CopyEng) (h : i ≠ k) : (s.setCopyEng k x).copyEng i = s.copyEng i := by rw [copyEng_setCopyEng, if_neg h]

theorem link_setLink (s : State) (k : Nat) (x : Link) (i : Nat) : (s.setLink k x).link i = if i = k then x else s.link i := by
  unfold State.link State.setLink
  split
  · next h => subst h; exact tget_tput_self _ _ _ _
  · next h => exact tget_tput_ne _ _ _ h _
@[simp] theorem link_setLink_self (s : State) (k : Nat) (x : Link) : (s.setLink k x).link k = x := by rw [link_setLink, if_pos rfl]
@[simp] theorem link_setLink_ne (s : State) {k i : Nat} (x : Link) (h : i ≠ k) : (s.setLink k x).link i = s.link i := by rw [link_setLink, if_neg h]
@[simp] theorem link_modLink_self (s : State) (k : Nat) (f : Link → Link) : (s.modLink k f).link k = f (s.link k) := link_setLink_self s k _
@[simp] theorem link_modLink_ne (s : State) {k i : Nat} (f : Link → Link) (h : i ≠ k) : (s.modLink k f).link i = s.link i := link_setLink_ne s _ h

theorem queue_setQueue (s : State) (k : Nat) (x : Queue) (i : Nat) : (s.setQueue k x).queue i = if i = k then x else s.queue i := by
  unfold State.queue State.setQueue
  split
  · next h => subst h; exact tget_tput_self _ _ _ _
  · next h => exact tget_tput_ne _ _ _ h _
@[simp] theorem queue_setQueue_self (s : State) (k : Nat) (x : Queue) : (s.setQueue k x).queue k = x := by rw [queue_setQueue, if_pos rfl]
@[simp] theorem queue_setQueue_ne (s : State) {k i : Nat} (x : Queue) (h : i ≠ k) : (s.setQueue k x).queue i = s.queue i := by rw [queue_setQueue, if_neg h]
@[simp] theorem queue_modQueue_self (s : State) (k : Nat) (f : Queue → Queue) : (s.modQueue k f).queue k = f (s.queue k) := queue_setQueue_self s k _
@[simp] theorem queue_modQueue_ne (s : State) {k i : Nat} (f : Queue → Queue) (h : i ≠ k) : (s.modQueue k f).queue i = s.queue i := queue_setQueue_ne s _ h

@[simp] theorem launch_setLaunch_self (s : State) (l : Nat) (x : Launch) : (s.setLaunch l x).launch? l = some x := tfind_tset_self _ _ _
@[simp] theorem launch_setLaunch_ne (s : State) {l i : Nat} (x : Launch) (h : i ≠ l) : (s.setLaunch l x).launch? i = s.launch? i := tfind_tset_ne _ _ h
@[simp] theorem launch_delLaunch_self (s : State) (l : Nat) : (s.delLaunch l).launch? l = none := tfind_tdel_self _ _
@[simp] theorem launch_delLaunch_ne (s : State) {l i : Nat} (h : i ≠ l) : (s.delLaunch l).launch? i = s.launch? i := tfind_tdel_ne _ h

@[simp] theorem group_setGroup_self (s : State) (g : GRef) (x : Group) : (s.setGroup g x).group? g = some x := by
  unfold State.group? State.setGroup
  rw [core_modCore_self]
  exact tfind_tset_self _ _ _

/-- Two groups that exist have different keys on one core. -/
theorem gkey_inj {g h : GRef} (hg : okGroup g = true) (hh : okGroup h = true) (k : gkey h.sched h.slot = gkey g.sched g.slot) (c : h.core = g.core) : h = g := by
  unfold okGroup at hg hh
  simp only [Bool.and_eq_true, decide_eq_true_eq] at hg hh
  unfold gkey at k
  obtain ⟨a, b, d⟩ := g
  obtain ⟨a', b', d'⟩ := h
  simp only at *
  congr 1 <;> omega

theorem group_setGroup_ne (s : State) {g h : GRef} (x : Group) (hg : okGroup g = true) (hh : okGroup h = true) (k : h ≠ g) :
    (s.setGroup g x).group? h = s.group? h := by
  unfold State.group? State.setGroup
  by_cases c : h.core = g.core
  · rw [c, core_modCore_self]
    exact tfind_tset_ne _ _ fun e => k (gkey_inj hg hh e c)
  · rw [core_modCore_ne _ _ c]

end Sys2Proof.Machine.State
end

