-- ==== Sys2Proof/Tests/Slice0.lean ====
section
/-! SUPPORT. Tests. -/

namespace Sys2Proof.Tests
open Sys2Proof Sys2Proof.Machine

set_option Elab.async false

/-! Small states. -/

/-- A block of launch 9 in slot 2, with bytes in its local store. -/
def blk0 : Block :=
  { uid := 5, launch := 9, run := 0, num := 0, ngroups := 1, threads := 32, lsBytes := 1024, csize := 1, tail := 8, head := 3,
    ls := (upTo 64).map fun i => (i, BitVec.ofNat 8 (i + 1)) }

/-- A value for each lane of a vector register. -/
def lanes (r : Nat) (f : Nat → Nat) : Tbl Word := (upTo 32).map fun l => (32 * r + l, BitVec.ofNat 32 (f l))

/-- A group of that block, all lanes active, at address 256. Predicate 2 is true in lane 3 alone. -/
def grp0 : Group :=
  { uid := 7, launch := 9, run := 0, block := 2, gnum := 0, nregs := 64, pc := 256, active := BitVec.allOnes 32, exited := 0,
    vregs := [(64, 2), (65, 70000), (96, 3), (97, 3000000000)] ++ lanes 5 (4 * ·) ++ lanes 6 (1000 + ·) ++ lanes 10 (0x10000 + 4 * ·) ++
      lanes 12 (0x1000 + 4 * ·) ++ lanes 13 (fun _ => 197632) ++ lanes 14 (0x10000 + 128 * ·),
    uregs := [(4, 64), (6, 16), (8, 4096), (10, 0x10000), (12, 77)], preds := [(1, 5), (2, 8)] }

/-- Launch 9, of partition 5. -/
def la0 : Launch :=
  { part := 5, queue := 1, seq := 2, rt := false, entry := List.replicate 64 0, phase := .running, bound := true,
    wins := [{ base := 0, len := 2 ^ 20, remote := false }, { base := 3 * 2 ^ 48 + 2 ^ 42, len := 2 ^ 20, remote := true }] }

/-- The same without pre-emption. -/
def laN : Launch := { la0 with entry := [0, 8] ++ List.replicate 62 0 }

/-- The place of that group. -/
def g0 : GRef := ⟨2, 1, 3⟩

/-- Core 2 with the group in the active set of scheduler 1, and a word before it. -/
def core0 (w : Word64) (gr : Group) (b : Block) : Core :=
  { blocks := [(2, b)], groups := [(19, gr)], scheds := [(1, { active := [3] })], icache := [(2, leBytes 8 w.toNat)] }

/-- The state in which a group may issue a word. -/
def thr (w : Word64) (gr : Group) (b : Block) (la : Launch) : State :=
  { cores := [(2, core0 w gr b)], launches := [(9, la)], gt := 5000 }

/-- Another group. -/
def oth : Group := { grp0 with uid := 8, gnum := 1, vregs := [(1, 1)] }

/-- Other work beside a state's: groups, blocks, launches, cached lines, counters that count, queues and memory. -/
def clut (s : State) : State :=
  { s with
    cores := s.cores.map (fun e => (e.1, { e.2 with
      groups := (3, oth) :: e.2.groups ++ [(40, { oth with uid := 11, block := 7 })], blocks := e.2.blocks ++ [(7, { blk0 with uid := 6, launch := 12, num := 3 })],
      l1 := [(5, [1]), (6, [2])], scheds := e.2.scheds ++ [(2, { active := [8], ready := [1] })] })) ++ [(5, { groups := [(0, oth)], blocks := [(2, blk0)], l1 := [(9, [1])] })]
    launches := s.launches ++ [(12, { la0 with seq := 3 }), (13, { la0 with part := 2 })]
    regs := [(pwrLimit, 5), (pmSel 2 0, 2), (pmSel 2 1, 6), (pmSel 5 1, 2)]
    queues := [(qkey 2 1, {}), (qkey 5 1, { head := 3 })]
    mem := [(0, 1), (128, 2)] }

/-- Partition 5: queues, core set 0, channel 0. -/
def ent5 : PartEnt :=
  { valid := true, keyslot := 3, vf := 4, nqueue := 4, coresets := 1, ways := 3, hbmch := 1, stages := [(1, false)], chans := [(0, 0, 2)] }

/-- The same with every lamp lit. -/
def lit (s : State) : State := (s.setReg rimLamps 0xFFFFFFFF).setReg (rimLamps + 4) 0xFFFFFFFF

/-- Partition 5 is valid and lit, in domain 7, and its first GiB is channel 0's. -/
def vm (s : State) : State :=
  ((({ s with chart := { s.chart with active := true, parts := [(5, ent5)] }, mem := msetBytes s.mem 0x5F000000 (leBytes 8 0x2F) }).setReg
    (partPtroot 5) 0x5F000001).setReg (partFdom 5) 7).setReg (partStat 5) 1

/-- What a group that issues belongs to. -/
def cx (s : State) (g : GRef) : Ctx :=
  match s.issueCtx g with
  | some c => c
  | none => ⟨9, la0, grp0, blk0⟩

/-- The state after its fetch. -/
def fu (s : State) (g : GRef) : State := (s.fetch g (cx s g)).2

/-- A word before the group, in a full state. -/
def th (w : Word64) : State := vm (clut (thr w grp0 blk0 la0))
/-- The same without pre-emption. -/
def thN (w : Word64) : State := vm (clut (thr w grp0 blk0 laN))
/-- The lanes of a word as translated, and the state after. -/
def tl (s : State) (w : Word64) (n : Nat) (acc : TAcc) : List LaneAt := ((fu s g0).translLanes 2 5 n acc (grp0.eas w)).1.1
def tv (s : State) (w : Word64) (n : Nat) (acc : TAcc) : State := ((fu s g0).translLanes 2 5 n acc (grp0.eas w)).2


/-! Witnesses: for each statement with premises, states and operands that meet them together. The theorem's name gives the statement's first words. -/

/-- An unguarded word. -/
def wd (maj sub md d a b c k : Nat) : Word64 := wordOf maj 0 0 0 sub md d a b c k
/-- A word under predicate `p`. -/
def wg (p maj sub md d a b c k : Nat) : Word64 := wordOf maj 1 0 p sub md d a b c k

/-- Group `g0` may issue the word in state `s`, it is one of row `r`, and `P` holds of what it belongs to and the state after the fetch. -/
def Iss (s : State) (w : Word64) (r : IRow) (P : Ctx → State → Prop) : Prop :=
  Issues s g0 w (cx s g0) (fu s g0) ∧ rowOf w = r ∧ P (cx s g0) (fu s g0)

/-! Words. -/

theorem test_fields_of_the_worked_word : let w : Word64 := 0x2343010A04030740
    fMaj w = 8 ∧ fG w = true ∧ fGN w = true ∧ fGP w = 2 ∧ fSub w = 3 ∧ fMod w = 1 ∧ fD w = 10 ∧ fA w = 4 ∧ fB w = 3 ∧ fC w = 7 ∧ fBU w = true ∧ rowOf w = .f32Op := by
  decide +kernel
theorem test_branch_word_targets : let w : Word64 := 0x0620000020000030
    rowOf w = .br ∧ fGP w = 1 ∧ branchTo 0x102000 (fieldOf w 47 24) = 0x102100 ∧ branchTo 0x102000 (fieldOf w 23 0) = 0x102180 := by decide +kernel

/-- One word for each row that a group issues, with the fields of R107 and R155 written out. -/
theorem test_rows_of_words :
    [wd 0 0 0 0 0 0 0 0, wd 0 1 0 0 0 0 0 0, wd 0 2 0 0 0 0 0 0, wd 0 3 0 0 0 0 0 0, wd 0 4 0 0 4 0 0 0x80, wd 0 5 0 0 0 0 0 0, wd 0 6 0 7 0 0 0 0, wd 1 0 0 0 0 0 0 0,
     wd 1 1 0 0 0 0 0 0, wd 4 0 0 7 5 6 0 0, wd 5 0 0 7 5 0 0 0, wd 6 0 0 8 2 4 0 0, wd 4 22 0 1 5 6 0 0, wd 6 22 0 1 2 4 0 0, wd 7 0 0 7 0 0 0 9, wd 7 1 0 7 0 0 0 9,
     wd 8 0 0 7 5 6 0 0, wd 9 0 0 8 2 4 0 0, wd 10 0 0 7 5 6 0 0, wd 8 8 0 1 5 6 0 0, wd 11 0 0 7 5 0 0 0, wd 12 0 0 7 5 0 0 0, wd 13 0 0 1 2 3 0 0, wd 14 0 0 7 5 6 1 0,
     wd 14 1 0 1 2 0 0 0, wd 16 0 2 7 5 0 0 0, wd 16 1 2 7 5 0 0 0, wd 16 2 2 7 5 0 0 0, wd 16 3 2 7 5 0 0 0, wd 17 0 2 0 5 6 0 0, wd 17 1 2 0 5 6 0 0, wd 17 2 2 0 5 6 0 0,
     wd 17 3 2 0 5 6 0 0, wd 17 4 2 0 5 6 0 0, wd 17 5 2 0 5 6 0 0, wd 18 4 0 7 5 6 0 0, wd 18 5 0 7 5 6 0 0, wd 18 1 0 0 5 6 0 0, wd 18 6 0 7 5 6 0 0, wd 19 0 2 7 5 0 0 0,
     wd 19 1 2 7 5 6 0 0, wd 20 0 0 0 4 6 0 0xD0, wd 20 1 0 0 4 6 0 0xD0, wd 2 0 0 0 0 0 0 0, wd 4 25 0 0 0 0 0 0, wd 5 8 0 0 0 0 0 0, wd 18 20 0 0 0 0 0 0].map rowOf =
    [.ctlNop, .ctlExit, .barBlock, .barCluster, .ctlJmp, .fence, .ctlRsr, .br, .brLink, .i32Op, .i32Op, .i64Op, .intCmp, .intCmp, .immV, .immU, .f32Op, .f64Op, .h2Op, .fpCmp, .cnv,
     .sfOp, .prOp, .grpShfl, .grpVote, .ldLocal, .ldGlobal, .ldCluster, .ldRemote, .stLocal, .stGlobal, .stCluster, .stRemote, .stRemoteFinal, .zlGlobal, .rmwLocal, .rmwGlobal,
     .rmwPost, .rmwCluster, .ll, .sc, .evRec, .semRel, .illegal, .illegal, .illegal, .illegal] := by decide +kernel

/-! Registers, predicates and control flow. -/

theorem wit_IntegerRows_i32 : Iss (th (wd 4 0 0 7 5 6 0 0)) (wd 4 0 0 7 5 6 0 0) .i32Op fun _ _ => True := by unfold Iss Issues; decide +kernel
theorem wit_IntegerRows_i64 : Iss (th (wd 6 0 0 8 2 4 0 0)) (wd 6 0 0 8 2 4 0 0) .i64Op fun _ _ => True := by unfold Iss Issues; decide +kernel
theorem wit_IntegerRows_immV : Iss (th (wd 7 0 0 255 0x80 0 0 9)) (wd 7 0 0 255 0x80 0 0 9) .immV fun _ _ => True := by unfold Iss Issues; decide +kernel
theorem wit_IntegerRows_immU : Iss (th (wd 7 1 0 7 0x80 0 0 9)) (wd 7 1 0 7 0x80 0 0 9) .immU fun _ _ => True := by unfold Iss Issues; decide +kernel
theorem wit_PredicateRows_intCmp : Iss (th (wd 4 22 0 1 5 6 0 0)) (wd 4 22 0 1 5 6 0 0) .intCmp fun _ _ => True := by unfold Iss Issues; decide +kernel
theorem wit_PredicateRows_fpCmp : Iss (th (wd 8 8 0 1 5 6 0 0)) (wd 8 8 0 1 5 6 0 0) .fpCmp fun _ _ => True := by unfold Iss Issues; decide +kernel
theorem wit_PredicateRows_vote : Iss (th (wg 1 14 1 0 1 2 0 0 0)) (wg 1 14 1 0 1 2 0 0 0) .grpVote fun c _ => lanesOf (c.gr.active &&& c.gr.guard (wg 1 14 1 0 1 2 0 0 0)) ≠ [] := by
  unfold Iss Issues; decide +kernel
theorem wit_PredicateRows_shfl : Iss (th (wd 14 0 20 7 5 6 1 0)) (wd 14 0 20 7 5 6 1 0) .grpShfl fun c _ => c.gr.lanes (wd 14 0 20 7 5 6 1 0) ≠ [] := by unfold Iss Issues; decide +kernel
theorem wit_PredicateInstructions_combine : Iss (th (wd 13 0 3 1 2 1 0 0)) (wd 13 0 3 1 2 1 0 0) .prOp fun _ _ => True := by unfold Iss Issues; decide +kernel
theorem wit_PredicateInstructions_tov : Iss (th (wd 13 5 0 7 2 0 0 0)) (wd 13 5 0 7 2 0 0 0) .prOp fun _ _ => True := by unfold Iss Issues; decide +kernel
theorem wit_FloatRows_f32 : Iss (th (wd 8 0 0 7 5 6 0 0)) (wd 8 0 0 7 5 6 0 0) .f32Op fun _ _ => True := by unfold Iss Issues; decide +kernel
theorem wit_FloatRows_f64 : Iss (th (wd 9 0 0 8 2 4 0 0)) (wd 9 0 0 8 2 4 0 0) .f64Op fun _ _ => True := by unfold Iss Issues; decide +kernel
theorem wit_FloatRows_h2 : Iss (th (wd 10 0 0 7 5 6 0 0)) (wd 10 0 0 7 5 6 0 0) .h2Op fun _ _ => True := by unfold Iss Issues; decide +kernel
theorem wit_FloatRows_cnv : Iss (th (wd 11 0 0 7 5 0x40 0 0)) (wd 11 0 0 7 5 0x40 0 0) .cnv fun _ _ => True := by unfold Iss Issues; decide +kernel
theorem wit_FloatRows_sf : Iss (th (wd 12 0 0 7 5 0 0 0)) (wd 12 0 0 7 5 0 0 0) .sfOp fun _ _ => True := by unfold Iss Issues; decide +kernel
theorem wit_ControlRows_nop : Iss (th (wd 0 0 0 0 0 0 0 0)) (wd 0 0 0 0 0 0 0 0) .ctlNop fun _ _ => True := by unfold Iss Issues; decide +kernel
theorem wit_ControlRows_link : Iss (th (wd 1 1 0 0 0 0 0 0)) (wd 1 1 0 0 0 0 0 0) .brLink fun c _ => c.gr.stack = [] := by unfold Iss Issues; decide +kernel
theorem wit_ControlRows_rsr : Iss (th (wd 0 6 1 7 0 0 0 0)) (wd 0 6 1 7 0 0 0 0) .ctlRsr fun c _ => c.gr.lanes (wd 0 6 1 7 0 0 0 0) ≠ [] := by unfold Iss Issues; decide +kernel
theorem wit_ControlRows_jmp : Iss (th (wd 0 4 0 0 4 0 0 0x80)) (wd 0 4 0 0 4 0 0 0x80) .ctlJmp fun c _ => c.gr.rd 0 true 4 2 % 8 = 0 := by unfold Iss Issues; decide +kernel
theorem wit_ControlRows_br_all : Iss (th (wd 1 0 0 0 0 0 0 0)) (wd 1 0 0 0 0 0 0 0) .br fun c _ => c.gr.active &&& c.gr.guard (wd 1 0 0 0 0 0 0 0) = c.gr.active := by
  unfold Iss Issues; decide +kernel
theorem wit_ControlRows_br_none : Iss (th (wg 3 1 0 0 0 9 0 0 4)) (wg 3 1 0 0 0 9 0 0 4) .br fun c _ =>
    c.gr.active &&& c.gr.guard (wg 3 1 0 0 0 9 0 0 4) = 0 ∧ c.gr.active ≠ 0 := by unfold Iss Issues; decide +kernel
theorem wit_ControlRows_br_some : Iss (th (wg 1 1 0 0 0 9 0 0 4)) (wg 1 1 0 0 0 9 0 0 4) .br fun c _ => c.gr.depth < 32 ∧ c.gr.active &&& c.gr.guard (wg 1 1 0 0 0 9 0 0 4) ≠ c.gr.active ∧
    c.gr.active &&& c.gr.guard (wg 1 1 0 0 0 9 0 0 4) ≠ 0 ∧ branchTo c.gr.pc (fieldOf (wg 1 1 0 0 0 9 0 0 4) 23 0) ≠ c.gr.pc + 8 := by unfold Iss Issues; decide +kernel

/-! Waits and exceptions. -/

theorem wit_GroupsWait_exit_some : Iss (th (wg 1 0 1 0 0 0 0 0 0)) (wg 1 0 1 0 0 0 0 0 0) .ctlExit fun c _ =>
    c.gr.exited ||| (c.gr.active &&& c.gr.guard (wg 1 0 1 0 0 0 0 0 0)) ≠ BitVec.allOnes 32 := by unfold Iss Issues; decide +kernel
theorem wit_GroupsWait_exit_all : Iss (th (wd 0 1 0 0 0 0 0 0)) (wd 0 1 0 0 0 0 0 0) .ctlExit fun c _ =>
    c.gr.exited ||| (c.gr.active &&& c.gr.guard (wd 0 1 0 0 0 0 0 0)) = BitVec.allOnes 32 := by unfold Iss Issues; decide +kernel
theorem wit_GroupsWait_barriers : Iss (th (wd 0 2 0 0 0 0 0 0)) (wd 0 2 0 0 0 0 0 0) .barBlock (fun c _ => c.gr.lanes (wd 0 2 0 0 0 0 0 0) ≠ []) ∧
    Iss (th (wg 3 0 3 0 0 0 0 0 0)) (wg 3 0 3 0 0 0 0 0 0) .barCluster (fun c _ => c.gr.lanes (wg 3 0 3 0 0 0 0 0 0) = []) := by unfold Iss Issues; decide +kernel
theorem wit_GroupsWait_fence : Iss (th (wd 0 5 2 0 0 0 0 0)) (wd 0 5 2 0 0 0 0 0) .fence (fun c _ => c.gr.lanes (wd 0 5 2 0 0 0 0 0) ≠ []) ∧
    Iss (th (wg 3 0 5 2 0 0 0 0 0)) (wg 3 0 5 2 0 0 0 0 0) .fence (fun c _ => c.gr.lanes (wg 3 0 5 2 0 0 0 0 0) = []) := by unfold Iss Issues; decide +kernel

/-- The group alone, waiting. -/
def waits (x : Wait) : State := thr 0 { grp0 with wait := x } blk0 la0

theorem wit_GroupsWait_barrierFence : okGroup g0 = true ∧ ∀ wide : Bool, (waits (.barrier wide)).group? g0 = some { grp0 with wait := .barrier wide } ∧ grp0.fenced = false ∧
    (waits (.barrier wide)).reached g0 grp0.uid (if wide then 1 else 0) = true ∧ ((waits (.barrier wide)).core g0.core).ownWrites g0.core grp0.block grp0.uid = false := by decide +kernel
theorem wit_GroupsWait_barrierOpen : okGroup g0 = true ∧ (∀ wide : Bool, (waits (.barrier wide)).group? g0 = some { grp0 with wait := .barrier wide } ∧
      ∀ e ∈ (waits (.barrier wide)).barrierGroups g0 wide, e.2.wait = .barrier wide ∧ (e.2.fenced = true ∨ ((waits (.barrier wide)).reached e.1 e.2.uid (if wide then 1 else 0) = true ∧
        ((waits (.barrier wide)).core e.1.core).ownWrites e.1.core e.2.block e.2.uid = false))) ∧
    ∀ (wide : Bool) (p : Nat), tsorted ((waits (.barrier wide)).core p).groups = true := by
  refine ⟨by decide +kernel, by decide +kernel, fun wide p => ?_⟩
  by_cases h : p = 2
  · subst h; revert wide; decide +kernel
  · have e : (waits (.barrier wide)).core p = {} := by simp [State.core, waits, thr, tget, tfind, Ne.symm h]
    rw [e]; rfl
theorem wit_GroupsWait_fenceComplete : okGroup g0 = true ∧ ∀ sc ∈ [0, 1, 2, 3], (waits (.fence sc)).group? g0 = some { grp0 with wait := .fence sc } ∧
    (waits (.fence sc)).reached g0 grp0.uid sc = true := by decide +kernel

/-- The row `r` is that of word `w`, which has a fault of its own: `e` is recorded. -/
def Bad (w : Word64) (r : IRow) (e : Exc) : Prop :=
  okGroup g0 = true ∧ (th w).issueCtx g0 = some (cx (th w) g0) ∧ (th w).fetch g0 (cx (th w) g0) = (.word w, fu (th w) g0) ∧
  ((th w).core g0.core).mx.queue.any (statBlocks (cx (th w) g0).gr.uid w) = false ∧ (th w).turn g0 w = true ∧ (cx (th w) g0).la.part < 64 ∧
  pickExc ((staticErrs (cx (th w) g0).gr.nregs w).map fun k => { cause := k, lane := (cx (th w) g0).gr.low }) = some e ∧ rowOf w = r

theorem wit_Exceptions_rows : Bad (wd 2 0 0 0 0 0 0 0) .illegal { cause := 1, lane := 0 } ∧ Bad (wd 4 0 0 7 5 6 0 1) .i32Op { cause := 2, lane := 0 } ∧
    Bad (wd 8 0 0 100 5 6 0 0) .f32Op { cause := 3, lane := 0 } ∧ Bad (wd 16 1 3 7 5 0 0 0) .ldGlobal { cause := 4, lane := 0 } ∧
    Bad (wg 1 0x20 3 0 0 0 0 0 0) .mxMma { cause := 2, lane := 0 } := by unfold Bad; decide +kernel
theorem wit_Exceptions_record : (fu (th 0) g0).bit (excStatus g0.core) 31 = false := by decide +kernel

/-! Local store and cluster windows. -/

theorem wit_Local_ld : Iss (th (wd 16 0 2 7 5 0 0 0)) (wd 16 0 2 7 5 0 0 0) .ldLocal fun c u => LocalOk u g0 c (wd 16 0 2 7 5 0 0 0) (widthOf (wd 16 0 2 7 5 0 0 0)) false false := by
  unfold Iss Issues LocalOk; decide +kernel
theorem wit_Local_st : Iss (th (wd 17 0 2 0 5 6 0 0)) (wd 17 0 2 0 5 6 0 0) .stLocal fun c u => LocalOk u g0 c (wd 17 0 2 0 5 6 0 0) (widthOf (wd 17 0 2 0 5 6 0 0)) true false ∧
    ∃ pre e post, c.gr.eas (wd 17 0 2 0 5 6 0 0) = pre ++ e :: post ∧ ∀ f ∈ post, f.2 + widthOf (wd 17 0 2 0 5 6 0 0) ≤ e.2 ∨ e.2 + widthOf (wd 17 0 2 0 5 6 0 0) ≤ f.2 := by
  refine ⟨by unfold Issues; decide +kernel, by decide +kernel, by unfold LocalOk; decide +kernel, [], (0, 0), (grp0.eas (wd 17 0 2 0 5 6 0 0)).tail, ?_⟩; decide +kernel
/-- Under predicate 2, lane 3 alone acts: an atomic with a result. -/
theorem wit_Local_rmw : Iss (th (wg 2 18 4 0 7 5 6 0 0)) (wg 2 18 4 0 7 5 6 0 0) .rmwLocal fun c u =>
    LocalOk u g0 c (wg 2 18 4 0 7 5 6 0 0) (atomWidth (wg 2 18 4 0 7 5 6 0 0)) true true ∧ c.gr.eas (wg 2 18 4 0 7 5 6 0 0) = [(3, 12)] := by
  unfold Iss Issues LocalOk; decide +kernel
/-- The same state for a block in a cluster of one, which has its own rank 0. -/
theorem wit_Cluster_ld : Iss (th (wd 16 2 2 7 5 0 0 0)) (wd 16 2 2 7 5 0 0 0) .ldCluster fun c u => ClusterOk u g0 c (wd 16 2 2 7 5 0 0 0) (widthOf (wd 16 2 2 7 5 0 0 0)) false false := by
  refine ⟨by unfold Issues; decide +kernel, by decide +kernel, by decide +kernel, by decide +kernel, by decide +kernel, by decide +kernel, ?_⟩
  have h : ∀ e ∈ grp0.eas (wd 16 2 2 7 5 0 0 0), e.2 % 4 = 0 ∧ e.2 / 2 ^ 18 = 0 ∧ e.2 % 2 ^ 18 + 4 ≤ 1024 := by decide +kernel
  intro e he
  have h := h e he
  refine ⟨h.1, ?_, (2, 2, blk0), ?_, h.2.2⟩ <;> rw [h.2.1] <;> decide +kernel

/-! Global memory. -/

/-- A load of word registers. -/
def wLd : Word64 := wd 16 1 2 7 10 0 0 0
/-- The cores of a state. -/
def onCore (f : Core → Core) (s : State) : State := { s with cores := s.cores.map fun e => if e.1 = 2 then (e.1, f e.2) else e }
theorem wit_Global_load_outstanding : let ls := tl (th wLd) wLd 4 .read; let v := tv (th wLd) wLd 4 .read
    Iss (th wLd) wLd .ldGlobal fun c u => GlobalOk u g0 c wLd (widthOf wLd) .read ls v ∧ ls ≠ [] ∧ ls.any (·.tr.mt) = false ∧ forwardOf v g0 c (widthOf wLd) ls = .none ∧
      (v.l1On 2 c.la ls = false ∨ (v.core 2).l1Hits (widthOf wLd) ls = none) ∧
      (v.core g0.core).trackHit false (spansOf (widthOf wLd) ls) = false ∧ (v.core g0.core).trackFull = false := by
  unfold Iss Issues GlobalOk; decide +kernel
/-- An entry of the group's store buffer. -/
def sb0 : Sbuf :=
  { guid := 7, launch := 9, run := 0, part := 5, site := ⟨1, 3, 3, 0, 0⟩, isZl := false, strict := false, remote := false,
    writes := [{ lane := 3, va := 65548, tgt := .hbm 65548, data := [1, 2, 3, 4] }] }
theorem wit_Global_load_forwarded : let w := wg 2 16 1 2 7 10 0 0 0
    let s := onCore (fun p => { p with sbufs := [(gkey 1 3, [sb0])] }) (th w); let ls := tl s w 4 .read; let v := tv s w 4 .read
    Iss s w .ldGlobal fun c u => GlobalOk u g0 c w (widthOf w) .read ls v ∧ ls ≠ [] ∧ ls.any (·.tr.mt) = false ∧ forwardOf v g0 c (widthOf w) ls = .data [(3, [1, 2, 3, 4])] := by
  unfold Iss Issues GlobalOk; decide +kernel
theorem wit_Global_load_from_L1 : let w := wg 2 16 1 2 7 10 0 0 0
    let s := { onCore (fun p => { p with l1 := [(512, List.replicate 128 9)] }) (th w) with chart := { active := true, parts := [(5, { ent5 with cached := true })] } }
    let ls := tl s w 4 .read; let v := tv s w 4 .read
    Iss s w .ldGlobal fun c u => GlobalOk u g0 c w (widthOf w) .read ls v ∧ ls ≠ [] ∧ ls.any (·.tr.mt) = false ∧ forwardOf v g0 c (widthOf w) ls = .none ∧
      (v.core g0.core).trackHit false (spansOf (widthOf w) ls) = false ∧ v.l1On g0.core c.la ls = true ∧ fMod w / 16 % 4 = 0 ∧ (v.core g0.core).olderRead (v.core g0.core).nextId (spansOf (widthOf w) ls) = false ∧ (v.core g0.core).l1Hits (widthOf w) ls = some [(3, [9, 9, 9, 9])] := by unfold Iss Issues GlobalOk; decide +kernel
/-- The group with the address of a claim page in u20, of a push page in u22. -/
def grpP : Group := { grp0 with uregs := grp0.uregs ++ [(20, 0xFFF00000), (21, 0x3FF), (22, 0xFFE00000), (23, 0x3FF)] }
theorem wit_Global_claim : let w := wg 2 16 1 2 7 20 0 128 0; let s := vm (clut (thr w grpP blk0 la0))
    Iss s w .ldGlobal fun c u => u.accessWait g0 c.gr.uid w false = none ∧ c.gr.eas w = [(3, 0x3FFFFF00000)] ∧ inClaimPage 0x3FFFFF00000 = true ∧ widthOf w = 4 ∧ 0x3FFFFF00000 % 4 = 0 ∧ fD w ≠ 255 := by
  unfold Iss Issues; decide +kernel
/-- An outstanding load of word 65548 into v7. -/
def ldOut : Load := { guid := 7, site := ⟨1, 3, 3, 256, 0⟩, launch := 9, run := 0, reads := [{ lane := 3, va := 65548, tgt := .hbm 65548, width := 4 }], dest := ⟨7, false, 4, false⟩, track := some 2 }
theorem wit_Global_data_bound : let l := { ldOut with bound := some [(3, [1, 2, 3, 4])] }; let s := onCore (fun p => { p with loads := [(1, l)] }) (th 0)
    tfind (s.core 2).loads 1 = some l ∧ l.complete = true ∧ l.bad = [] ∧ l.refused = [] ∧ (∀ x ∈ l.reads, s.reaches l.cut .atomic .readData 2 x.tgt = true) ∧ (s.resultGroup 2 l.guid l.launch l.run l.site).isSome = true := by decide +kernel
theorem wit_Global_data_memory : let s := { onCore (fun p => { p with loads := [(1, ldOut)] }) (th 0) with mem := [(65548, 1), (65549, 2), (65550, 3), (65551, 4)] }
    tfind (s.core 2).loads 1 = some ldOut ∧ ldOut.remote = false ∧ s.hbmWaits 65548 4 = false ∧ s.reaches ldOut.cut .load .readData 2 (.hbm 65548) = true ∧ (s.core 2).olderRead 2 [(65548, 4)] = false ∧ s.chanRetired (65548 / 2 ^ 31) = false ∧ s.poisoned 65548 4 = false ∧
      (s.resultGroup 2 ldOut.guid ldOut.launch ldOut.run ldOut.site).isSome = true ∧ ∀ i, i < 4 → mget? s.mem (65548 + i) = [1, 2, 3, 4][i]? := by decide +kernel
theorem wit_Global_store : let w := wd 17 1 2 0 10 6 0 0; let ls := tl (th w) w 4 .write; let v := tv (th w) w 4 .write
    Iss (th w) w .stGlobal fun c u => GlobalOk u g0 c w (widthOf w) .write ls v ∧ ls ≠ [] ∧ (∀ e ∈ c.gr.eas w, c.la.inWindows false e.2 (widthOf w) = true) ∧ v.sbufFull g0 = false := by
  unfold Iss Issues GlobalOk; decide +kernel
theorem wit_Global_zero_line : let w := wg 2 17 5 2 0 14 6 0 0; let ls := tl (th w) w 128 .write; let v := tv (th w) w 128 .write
    Iss (th w) w .zlGlobal fun c u => GlobalOk u g0 c w 128 .write ls v ∧ ls ≠ [] ∧ ls.any (·.tr.mt) = false ∧ (∀ e ∈ c.gr.eas w, c.la.inWindows false e.2 128 = true) ∧ v.sbufFull g0 = false := by
  unfold Iss Issues GlobalOk; decide +kernel
theorem wit_Global_push : let w := wg 2 17 1 4 0 22 8 128 0; let s := vm (clut (thr w grpP blk0 { la0 with wins := [{ base := 0, len := 2 ^ 42, remote := false }] }))
    Iss s w .stGlobal fun c u => u.accessWait g0 c.gr.uid w false = none ∧ c.gr.eas w = [(3, 0x3FFFFE00000)] ∧ pushPage 0x3FFFFE00000 = some 0 ∧ 0x3FFFFE00000 % widthOf w = 0 ∧ u.chanEnt c.la.part 0 = some (0, 0, 2) ∧
      c.la.stage = 0 ∧ widthOf w = 16 ∧ tget 0 c.la.pushed 0 + u.pushesWaiting c.lid 0 < 2 ^ 2 ∧ c.la.inWindows false 0x3FFFFE00000 (widthOf w) = true ∧ c.blk.half = false := by
  unfold Iss Issues; decide +kernel
/-- A push of one item to channel 0 that waits, in a launch `l`. -/
def pushW (l : Launch) : State := vm (clut (thr 0 { grp0 with wait := .push, push := some ⟨[(0, List.replicate 16 1)]⟩ } blk0 l))
/-- It goes on where the channel has room, waits where it has none, and does nothing in a launch that is being killed. -/
theorem wit_Global_push_waits : (∀ l ∈ [la0, { la0 with phase := .killing }], okGroup g0 = true ∧
      ((pushW l).group? g0).map (fun gr => (gr.wait, gr.push, gr.run)) = some (.push, some ⟨[(0, List.replicate 16 1)]⟩, l.run) ∧ (pushW l).launch? 9 = some l ∧ l.fail = none) ∧
    ((pushW la0).pushAll 0 5 9 [(0, List.replicate 16 1)]).1 = [] ∧
    let i : ChSlot := { data := [], src := none }
    (({ pushW la0 with parts := [(5, { chans := [(0, { items := [i, i, i, i] })] })] } : State).pushAll 0 5 9 [(0, List.replicate 16 1)]).1 ≠ [] := by decide +kernel
theorem wit_Global_drain : let s := onCore (fun p => { p with sbufs := [(gkey 1 3, [sb0, sb0])], l1 := [(512, List.replicate 128 9)] }) (th 0)
    okGroup g0 = true ∧ sbufOf s g0 = [sb0, sb0] ∧ sb0.remote = false ∧ sb0.strict = false ∧ (s.core 2).trackHit true (sb0.writes.map fun x => (x.tgt.key, x.data.length)) = false ∧ (s.core 2).trackFull = false ∧
      tfind (s.core 2).l1 (65548 / 128) = some (List.replicate 128 9) := by decide +kernel
theorem wit_Global_release : let x : Track := { guid := 7, launch := 9, run := 0, part := 5, isWrite := true, spans := [(65548, 4)], writes := sb0.writes }
    let s := onCore (fun p => { p with art := [(2, x)] }) (th 0); tfind (s.core 2).art 2 = some x ∧ s.reaches x.cut .store .acknowledgement 2 (.hbm 65548) = true ∧ s.chanRetired (65548 / 2 ^ 31) = false := by decide +kernel
/-- Its writes are done; the array holds them, or a write of line 512 waits in channel 0's queue. -/
theorem wit_Global_release_sync : let x : Track := { guid := 7, launch := 9, run := 0, part := 5, isWrite := true, spans := [(65548, 4)], writes := [], sync := [(65548, 4)] }
    let s := onCore (fun p => { p with art := [(2, x)] }) (th 0); tfind (s.core 2).art 2 = some x ∧ s.arrayWaits x.sync = false ∧
      ({ s with chans := [(0, { reqs := [{ cls := 4, line := 512, gt := 1 }] })] } : State).arrayWaits x.sync = true := by decide +kernel

/-! Remote memory and atomics. -/

/-- `RemoteOk`, lane by lane. -/
theorem wit_Remote_load : let w := wg 2 16 3 2 7 12 0 0 0
    Iss (th w) w .ldRemote fun c u => RemoteOk u g0 c w (widthOf w) false false false ∧ u.hasSlots (dieOfPhys g0.core) (readRuns (widthOf w) (c.gr.eas w)).length true = true := by
  unfold Iss Issues RemoteOk; decide +kernel
/-- The same where the addresses name this module. -/
theorem wit_Remote_load_own : let w := wg 2 16 3 2 7 12 0 0 0; let s := (th w).setReg chartDevid 3
    Iss s w .ldRemote fun c u => RemoteOk u g0 c w (widthOf w) false false false ∧ (∀ e ∈ c.gr.eas w, rgaDev e.2 = u.ownId) ∧
      u.hasSlots (dieOfPhys g0.core) (readRuns (widthOf w) (c.gr.eas w)).length true = true := by
  unfold Iss Issues RemoteOk; decide +kernel
theorem wit_Remote_store : let w := wd 17 3 2 0 12 6 0 0
    Iss (th w) w .stRemote fun c u => RemoteOk u g0 c w (widthOf w) false true true ∧ (∀ e ∈ c.gr.eas w, c.la.inWindows true e.2 (widthOf w) = true) ∧ c.blk.half = false ∧ u.sbufFull g0 = false := by
  unfold Iss Issues RemoteOk; decide +kernel
theorem wit_Remote_final_deferred : let w := wd 17 4 2 0 12 6 0 0
    Iss (th w) w .stRemoteFinal fun c u => RemoteOk u g0 c w (widthOf w) false true false ∧ c.la.nonpre = false ∧ c.blk.half = false ∧ (c.gr.eas w).length ≤ c.la.room := by
  unfold Iss Issues RemoteOk; decide +kernel
theorem wit_Remote_final_held : let w := wg 2 17 4 2 0 12 6 0 0; let sb := { sb0 with remote := true, writes := [{ lane := 3, va := 0, tgt := .remote (3 * 2 ^ 48 + 2 ^ 42), data := [1] }] }
    let s := onCore (fun p => { p with sbufs := [(gkey 1 3, [sb])] }) (thN w)
    Iss s w .stRemoteFinal fun c u => RemoteOk u g0 c w (widthOf w) false true false ∧ c.la.nonpre = true ∧ u.remotePending c.lid (rgaDev ((c.gr.eas w).headD (0, 0)).2) = true ∧ c.la.finals = [] ∧
      (c.gr.eas w).length = 1 ∧ widthOf w = 4 := by unfold Iss Issues RemoteOk; decide +kernel
/-- The one lane of a word, as translated. -/
def t1 (s : State) (w : Word64) (n : Nat) (acc : TAcc) : LaneAt := (tl s w n acc).headD { lane := 0, va := 0, tr := { tgt := .hbm 0, mt := true, ea := true, w := true } }
/-- One lane's atomic on the word at 65548. -/
def wAt : Word64 := wg 2 18 5 0 7 10 6 0 0
/-- What the atomics' clauses ask of one lane. -/
def OneLane (s : State) (w : Word64) (n : Nat) (acc : TAcc) (c : Ctx) (u : State) : Prop :=
  c.gr.eas w = [(3, 65548)] ∧ u.translLanes g0.core c.la.part n acc [(3, 65548)] = (([t1 s w n acc], []), tv s w n acc) ∧ (tv s w n acc).poisonedAt (t1 s w n acc).tr.tgt n = false ∧
  (t1 s w n acc).tr.mt = false ∧ (t1 s w n acc).tr.tgt = .hbm 65548 ∧ (tv s w n acc).bufferedHit g0 c.gr.uid (spansOf n [t1 s w n acc]) = false ∧ ((tv s w n acc).core 2).trackHit (acc == .write) (spansOf n [t1 s w n acc]) = false ∧
  ((tv s w n acc).core 2).trackFull = false ∧ (∀ f ∈ [Traffic.readData, .acknowledgement], (tv s w n acc).reaches (tv s w n acc).d2d .atomic f 2 (.hbm 65548) = true) ∧
  ((tv s w n acc).core 2).olderRead ((tv s w n acc).core 2).nextId (spansOf n [t1 s w n acc]) = false
theorem wit_Atomics_global : Iss (thN wAt) wAt .rmwGlobal fun c u => atomIsRemote wAt = false ∧ c.la.nonpre = true ∧ fOrder wAt = 0 ∧ u.accessWait g0 c.gr.uid wAt true = none ∧
    OneLane (thN wAt) wAt (atomWidth wAt) .write c u := by unfold Iss Issues OneLane; decide +kernel
theorem wit_Atomics_remote : let w := wg 2 18 7 0 7 12 6 0 0
    (Iss (thN w) w .rmwGlobal fun c u => atomIsRemote w = true ∧ c.la.nonpre = true ∧ RemoteOk u g0 c w (atomWidth w) true false false ∧ u.hasSlots (dieOfPhys g0.core) (c.gr.eas w).length true = true) ∧
    Iss (th w) w .rmwGlobal fun c u => atomIsRemote w = true ∧ c.la.nonpre = false ∧ c.gr.eas w ≠ [] ∧ RemoteOk u g0 c w (atomWidth w) true false false := by
  unfold Iss Issues RemoteOk; decide +kernel
theorem wit_Atomics_posted : let w := wd 18 1 0 255 10 6 0 0; let ls := tl (th w) w 4 .write; let v := tv (th w) w 4 .write
    Iss (th w) w .rmwPost fun c u => atomIsRemote w = false ∧ c.la.nonpre = false ∧ c.blk.half = false ∧ u.accessWait g0 c.gr.uid w false = none ∧
      u.translLanes g0.core c.la.part (atomWidth w) .write (c.gr.eas w) = ((ls, []), v) ∧ (c.gr.eas w).length ≤ c.la.room := by unfold Iss Issues; decide +kernel
theorem wit_Atomics_posted_remote : let w := wd 18 3 0 255 12 6 0 0
    Iss (th w) w .rmwPost fun c u => atomIsRemote w = true ∧ c.la.nonpre = false ∧ c.blk.half = false ∧ RemoteOk u g0 c w (atomWidth w) false false false ∧ (c.gr.eas w).length ≤ c.la.room := by
  unfold Iss Issues RemoteOk; decide +kernel
/-- A full commit queue. -/
@[irreducible] def fullQ : List CqEntry := List.replicate 4096 { kind := 1, width := 4, op := 0, origin := 0, addr := 0, data := [] }
/-- The launch with that queue. -/
def laF : Launch := { la0 with cq := fullQ }
theorem wit_Atomics_no_room : let w := wg 2 18 1 0 255 10 6 0 0; let s := vm (thr w grp0 blk0 laF); let ls := tl s w 4 .write; let v := tv s w 4 .write
    Iss s w .rmwPost fun c u => atomIsRemote w = false ∧ c.la.nonpre = false ∧ c.blk.half = false ∧ u.accessWait g0 c.gr.uid w false = none ∧
      u.translLanes g0.core c.la.part (atomWidth w) .write (c.gr.eas w) = ((ls, []), v) ∧ c.la.room < (c.gr.eas w).length := by
  refine ⟨⟨by decide, rfl, by decide +kernel, Prod.ext (by decide +kernel) rfl, by decide +kernel, by decide +kernel, by decide +kernel⟩, by decide +kernel, by decide +kernel, by decide +kernel, by decide +kernel,
    by decide +kernel, Prod.ext (Prod.ext rfl (by decide +kernel)) rfl, ?_⟩
  have l : laF.cq.length = 4096 := by unfold laF fullQ; exact List.length_replicate
  have h : laF.room = 0 := by unfold Launch.room; rw [l, (by decide +kernel : laF.nonpre = false)]; rfl
  have n : 0 < (grp0.eas (wg 2 18 1 0 255 10 6 0 0)).length := by decide +kernel
  have e : (cx (vm (thr (wg 2 18 1 0 255 10 6 0 0) grp0 blk0 laF)) g0).la = laF ∧ (cx (vm (thr (wg 2 18 1 0 255 10 6 0 0) grp0 blk0 laF)) g0).gr = grp0 := ⟨rfl, rfl⟩
  rw [e.1, e.2, h]
  exact n
theorem wit_Atomics_deferral : Iss (th wAt) wAt .rmwGlobal fun c u => atomIsRemote wAt = false ∧ c.la.nonpre = false ∧ u.accessWait g0 c.gr.uid wAt true = none ∧
    OneLane (th wAt) wAt (atomWidth wAt) .write c u := by unfold Iss Issues OneLane; decide +kernel

/-! Reservations, records and releases. -/

theorem wit_Reservations_ll_local : let w := wg 2 19 0 2 7 5 0 0 0
    Iss (th w) w .ll fun c u => fSub w = 0 ∧ fOrder w = 0 ∧ LocalOk u g0 c w (widthOf w) false true ∧ c.gr.eas w = [(3, 12)] := by unfold Iss Issues LocalOk; decide +kernel
/-- Load-reserved of the word at 65548. -/
def wLl : Word64 := wg 2 19 2 2 7 10 0 0 0
theorem wit_Reservations_ll_global : Iss (thN wLl) wLl .ll fun c u => fSub wLl = 2 ∧ fOrder wLl = 0 ∧ c.la.nonpre = true ∧ u.accessWait g0 c.gr.uid wLl true = none ∧
    OneLane (thN wLl) wLl (widthOf wLl) .read c u := by unfold Iss Issues OneLane; decide +kernel
/-- The group with a reservation of lane 3. -/
def grpR (l : Bool) (n : Nat) : Group := { grp0 with resv := [(3, { isLocal := l, granule := n, size := 128 })] }
theorem wit_Reservations_sc_local : let w := wg 2 19 1 2 1 5 6 0 0; ∀ gr ∈ [grp0, grpR true 0], Iss (vm (clut (thr w gr blk0 la0))) w .sc fun c u =>
    fSub w = 1 ∧ fOrder w = 0 ∧ LocalOk u g0 c w (widthOf w) true true ∧ c.gr.eas w = [(3, 12)] ∧ fD w ≠ 255 ∧ (tfind c.gr.resv 3 = none ∨ c.la.granule * 0 = 12 / c.la.granule) := by
  unfold Iss Issues LocalOk; decide +kernel
/-- Store-conditional to the word at 65548. -/
def wSc : Word64 := wg 2 19 3 2 1 10 6 0 0
theorem wit_Reservations_sc_global : ∀ gr ∈ [grp0, grpR false 512], let s := vm (clut (thr wSc gr blk0 laN)); Iss s wSc .sc fun c u =>
    fSub wSc = 3 ∧ fOrder wSc = 0 ∧ c.la.nonpre = true ∧ u.accessWait g0 c.gr.uid wSc true = none ∧ OneLane s wSc (widthOf wSc) .write c u ∧ fD wSc ≠ 255 ∧ 65548 / c.la.granule = 512 := by
  unfold Iss Issues OneLane; decide +kernel
/-- Where an event record at the uniform pair u10 goes. -/
def evAt (s : State) : State := ((fu s g0).eventWord 5 0x10000 (.core 2)).2
theorem wit_Records_event : let w := wd 20 0 0 0 10 8 0 0xC0
    (Iss (th w) w .evRec fun c u => c.la.nonpre = false ∧ c.blk.half = false ∧ u.accessWait g0 c.gr.uid w false = none ∧ u.eventWord c.la.part (c.gr.rd 0 true (fA w) 2) (.core 2) = (.ok 0x10000, evAt (th w)) ∧
      1 ≤ c.la.room) ∧
    Iss (thN w) w .evRec fun c u => c.la.nonpre = true ∧ u.accessWait g0 c.gr.uid w false = none ∧ u.eventWord c.la.part (c.gr.rd 0 true (fA w) 2) (.core 2) = (.ok 0x10000, evAt (thN w)) := by
  unfold Iss Issues; decide +kernel
theorem wit_Records_semaphore : let w := wd 20 1 0 0 12 8 0 0xC0
    (Iss (th w) w .semRel fun c u => c.la.nonpre = false ∧ c.blk.half = false ∧ u.accessWait g0 c.gr.uid w false = none ∧ c.gr.rd 0 true (fA w) 1 < 4096 ∧ 1 ≤ c.la.room) ∧
    Iss (thN w) w .semRel fun c u => c.la.nonpre = true ∧ u.accessWait g0 c.gr.uid w false = none ∧ c.gr.rd 0 true (fA w) 1 < 4096 ∧ (u.sem c.la.part (c.gr.rd 0 true (fA w) 1)).waiters = [] := by
  unfold Iss Issues; decide +kernel

/-! Cluster windows: stores, atomics, service. -/

theorem wit_Cluster_st : let w := wd 17 2 2 0 5 6 0 0
    Iss (th w) w .stCluster fun c u => ClusterOk u g0 c w (widthOf w) true false := by
  refine ⟨by unfold Issues; decide +kernel, by decide +kernel, by decide +kernel, by decide +kernel, by decide +kernel, by decide +kernel, ?_⟩
  have h : ∀ e ∈ grp0.eas (wd 17 2 2 0 5 6 0 0), e.2 % 4 = 0 ∧ e.2 / 2 ^ 18 = 0 ∧ e.2 % 2 ^ 18 + 4 ≤ 1024 := by decide +kernel
  intro e he
  have h := h e he
  refine ⟨h.1, ?_, (2, 2, blk0), ?_, h.2.2⟩ <;> rw [h.2.1] <;> decide +kernel
theorem wit_Cluster_rmw : let w := wg 2 18 6 0 7 5 6 0 0
    Iss (th w) w .rmwCluster fun c u => ClusterOk u g0 c w (atomWidth w) true true := by
  refine ⟨by unfold Issues; decide +kernel, by decide +kernel, by decide +kernel, by decide +kernel, by decide +kernel, by decide +kernel, ?_⟩
  have h : ∀ e ∈ grp0.eas (wg 2 18 6 0 7 5 6 0 0), e.2 % 4 = 0 ∧ e.2 / 2 ^ 18 = 0 ∧ e.2 % 2 ^ 18 + 4 ≤ 1024 := by decide +kernel
  intro e he
  have h := h e he
  refine ⟨h.1, ?_, (2, 2, blk0), ?_, h.2.2⟩ <;> rw [h.2.1] <;> decide +kernel
/-- A store to offset 16 of block 2 of core 2, and what it becomes once served. -/
def cr0 : CReq := { guid := 7, site := ⟨1, 3, 3, 0, 0⟩, launch := 9, run := 0, kind := 1, op := 0, width := 4, lanes := [⟨3, 2, 2, 5, 16, [1, 2, 3, 4]⟩], dest := ⟨7, false, 4, false⟩ }
theorem wit_Cluster_serve : ∀ k ∈ [0, 1, 2, 3], let r := { cr0 with kind := k }; let s := onCore (fun p => { p with creqs := [(4, r)] }) (th 0)
    tfind (s.core 2).creqs 4 = some r ∧ r.served = none ∧ (s.blockAt 2 2).isSome = true ∧
      ∀ e ∈ (s.core 2).creqs, e.1 < 4 → e.2.served = none → e.2.guid = r.guid → e.2.meets r = false := by decide +kernel
theorem wit_Cluster_response : ∀ k ∈ [0, 1, 2, 3], let r := { cr0 with kind := k, served := some [(3, [1, 2, 3, 4])] }; let s := onCore (fun p => { p with creqs := [(4, r)] }) (th 0)
    tfind (s.core 2).creqs 4 = some r ∧ (s.resultGroup 2 r.guid r.launch r.run r.site).isSome = true ∧ (s.group? g0).isSome = true := by decide +kernel

/-! The matrix unit. -/

/-- A matrix word. -/
def mw (sub ha acc ua ub imm : Nat) : Word64 := wordOf 0x20 0 0 0 sub (ha * 32 + acc) ua ub (imm / 65536) (imm / 256 % 256) (imm % 256)
/-- A descriptor of a tile handle. -/
def desc (h : Handle) : Nat := h.base + 2 ^ 13 * h.size + 2 ^ 27 * h.fmt + 2 ^ 32 * h.kind + 2 ^ 34 * h.pitch + 2 ^ 46 * h.rows
/-- Handles of each kind: rows, images, raw images, and the rows that a drain writes. -/
def hA : Handle := { base := 0, size := 64, fmt := 0, scaled := false, kind := 0, pitch := 2, rows := 32 }
def hB : Handle := { base := 64, size := 128, fmt := 1, scaled := false, kind := 1, pitch := 0, rows := 0 }
def hR : Handle := { base := 256, size := 1025, fmt := 0, scaled := false, kind := 2, pitch := 0, rows := 0 }
/-- A unit that the block owns, with these handles. -/
def mx0 : Mx := { owner := some 2, lastRun := some (9, 0), handles := [(1, hA), (2, hB), (3, hR), (4, { hA with base := 2048 })], stat := some { fmt := 1, scaled := false, image := List.replicate 8 56 } }
/-- The group before a matrix word, with that unit. -/
def tm (w : Word64) (x : Mx) : State :=
  onCore (fun p => { p with mx := x }) (vm (clut (thr w { grp0 with uregs := [(4, BitVec.ofNat 32 (desc hA + 4096)), (5, BitVec.ofNat 32 (desc hA / 2 ^ 32)), (6, 0), (8, 1 + 2 ^ 13), (10, 0x10000)] } blk0 la0)))
theorem wit_Matrix_handle : let w := mw 0 5 0 4 255 0
    Iss (tm w mx0) w .mxHdl fun c u => (u.mx 2).owner = some c.gr.block ∧ fD w ≠ 255 ∧ descOk (c.gr.rd 0 true (fD w) 2) = true ∧ (u.mx 2).unused (mHa w) = true ∧
      ∀ e ∈ (u.mx 2).handles, e.1 ≠ mHa w → overlaps e.2.base e.2.size (handleOf (c.gr.rd 0 true (fD w) 2)).base (handleOf (c.gr.rd 0 true (fD w) 2)).size = false := by
  unfold Iss Issues; decide +kernel
theorem wit_Matrix_handle_off : let w := mw 0 3 0 255 255 0
    Iss (tm w mx0) w .mxHdl fun c u => (u.mx 2).owner = some c.gr.block ∧ fD w = 255 ∧ (u.mx 2).unused (mHa w) = true := by unfold Iss Issues; decide +kernel
/-- The group's block owns the unit, whose queue has room, and the handle of the word is `k`, with nothing unfinished on it. -/
def Own (w : Word64) (k : Handle) (c : Ctx) (u : State) : Prop :=
  MxOwn u g0 c ∧ tfind (u.mx 2).handles (mHa w) = some k ∧ (u.mx 2).resident (mHa w) = true ∧ (u.mx 2).unused (mHa w) = true
theorem wit_Matrix_ldb : let w := mw 2 2 0 255 255 1
    Iss (tm w mx0) w .mxLdb fun c u => Own w hB c u ∧ hB.kind = 1 ∧ c.gr.regOr (fA w) 1 0 + getBits (mImm w) 0 12 < hB.images := by unfold Iss Issues Own MxOwn; decide +kernel
theorem wit_Matrix_mma : let w := mw 3 1 0 6 6 (2 ^ 10 + 31)
    Iss (tm w mx0) w .mxMma fun c u => Own w hA c u ∧ hA.kind = 0 ∧ (u.mx 2).statFmt = some (1, false) ∧ mxClass 1 = mxClass hA.fmt ∧ getBits (mImm w) 5 5 + getBits (mImm w) 0 5 + 1 ≤ 32 ∧
      c.gr.regOr (fD w) 1 0 + getBits (mImm w) 0 5 + 1 ≤ hA.rows ∧ c.gr.regOr (fA w) 1 0 + getBits (mImm w) 10 12 < hA.pitch := by unfold Iss Issues Own MxOwn; decide +kernel
theorem wit_Matrix_clr : ∀ im ∈ [0, 5, 1024], let w := mw 4 0 1 255 255 im
    Iss (tm w mx0) w .mxClr fun c u => MxOwn u g0 c := by unfold Iss Issues MxOwn; decide +kernel
theorem wit_Matrix_addraw : let w := mw 5 3 1 255 255 0
    Iss (tm w mx0) w .mxAddraw fun c u => Own w hR c u ∧ hR.kind = 2 ∧ c.gr.regOr (fA w) 1 0 + getBits (mImm w) 0 12 < hR.images := by unfold Iss Issues Own MxOwn; decide +kernel
theorem wit_Matrix_stat : let w := mw 7 0 1 9 255 0
    Iss (tm w mx0) w .mxStat fun c u => MxOwn u g0 c ∧ (tm w mx0).acts g0 w = true := by unfold Iss Issues MxOwn; decide +kernel
/-- Scheduler 2 has an active group with the same word, and scheduler 1 was granted last. -/
theorem wit_Matrix_grant : let w := mw 7 0 1 9 255 0; let h : GRef := ⟨2, 2, 8⟩
    let s := onCore (fun p => { p with groups := [(19, grp0), (40, { oth with block := 2 })], scheds := [(1, { active := [3] }), (2, { active := [8] })] }) (tm w { mx0 with granted := 1 })
    okGroup g0 = true ∧ rowOf w = .mxStat ∧ (s.issueCtx g0).isSome = true ∧ s.acts g0 w = true ∧ 8 ∈ ((s.core 2).sched 2).active ∧ s.nextWord h = some w ∧ isMx w = true ∧ s.acts h w = true ∧
      turnOf 4 (s.mx 2).granted 2 < turnOf 4 (s.mx 2).granted 1 := by decide +kernel
theorem wit_Matrix_drain_handle : let w := mw 6 4 1 6 255 (2 * 16 + 3)
    Iss (tm w mx0) w .mxDrain fun c u => Own w { hA with base := 2048 } c u ∧ getBits (mImm w) 4 2 = 2 ∧ getBits (mImm w) 0 3 ≠ 6 ∧ getBits (mImm w) 3 1 = 0 ∧
      drainHandleFmt (getBits (mImm w) 0 3) = some hA.fmt ∧ c.gr.rd 0 true (fD w) 1 + 31 * hA.pitch + drainRowUnits (getBits (mImm w) 0 3) ≤ hA.size := by
  unfold Iss Issues Own MxOwn; decide +kernel
theorem wit_Matrix_drain_raw : let w := mw 6 0 1 6 255 (1 * 16 + 6); let s := onCore (fun p => { p with blocks := [(2, { blk0 with lsBytes := 65536 })] }) (tm w mx0)
    Iss s w .mxDrain fun c u => MxOwn u g0 c ∧ getBits (mImm w) 4 2 = 1 ∧ getBits (mImm w) 0 3 = 6 ∧ getBits (mImm w) 3 1 = 0 ∧ c.gr.rd 0 true (fD w) 1 = 0 ∧ fA w = 255 ∧ rawBytes ≤ c.blk.lsBytes ∧
      u.accessWait g0 c.gr.uid w false = none ∧ u.sbufHit g0 c.gr.uid [(localKey c.gr.block 0, rawBytes)] = false ∧ (u.core 2).trackFull = false ∧ (u.core 2).trackHit true [(localKey c.gr.block 0, rawBytes)] = false := by
  unfold Iss Issues MxOwn; decide +kernel
theorem wit_Matrix_ownership : let w := mw 4 0 1 255 255 0
    (∀ r ∈ [some (9, 0), some (8, 0)], Iss (tm w { mx0 with owner := none, lastRun := r }) w .mxClr fun _ u => (u.mx 2).owner = none ∧ (u.mx 2).lastRun = r) ∧
    Iss (tm w { mx0 with owner := some 4 }) w .mxClr fun c u => (u.mx 2).owner = some 4 ∧ 4 ≠ c.gr.block := by unfold Iss Issues; decide +kernel
theorem wit_Fills_local : let w := mw 1 2 0 6 8 1; let sp := [(localKey 2 0, 64)]
    Iss (tm w mx0) w .mxFill fun c u => (u.mx 2).owner = some c.gr.block ∧ tfind (u.mx 2).handles (mHa w) = some hB ∧ getBits (mImm w) 0 1 = 1 ∧ c.gr.rd 0 true (fD w) 1 = 0 ∧
      c.gr.rd 0 true (fA w) 2 / 2 ^ 32 = 0 ∧ getBits (c.gr.rd 0 true (fA w) 2) 13 13 + 1 = 2 ∧ getBits (c.gr.rd 0 true (fA w) 2) 0 13 + 2 ≤ hB.size ∧ 64 ≤ c.blk.lsBytes ∧ c.gr.block = 2 ∧
      u.accessWait g0 c.gr.uid w false = none ∧ (u.mx 2).fills.length < 4 ∧ u.sbufHit g0 c.gr.uid sp = false ∧ (u.mx 2).unused (mHa w) = true ∧ (u.core 2).trackFull = false ∧ (u.core 2).trackHit false sp = false := by
  unfold Iss Issues; decide +kernel
/-- Spans and state of a fill from 0x10000. -/
def fillSp (s : State) : List (Nat × Nat) × State := (fu s g0).spansRows 2 5 .read [(intBits 64 0x10000, 64)]
theorem wit_Fills_global : let w := mw 1 2 0 10 8 0; let s := tm w mx0; let sp := (fillSp s).1; let v := (fillSp s).2
    Iss s w .mxFill fun c u => (u.mx 2).owner = some c.gr.block ∧ tfind (u.mx 2).handles (mHa w) = some hB ∧ getBits (mImm w) 0 1 = 0 ∧ c.gr.rd 0 true (fD w) 2 = 0x10000 ∧
      c.gr.rd 0 true (fA w) 2 / 2 ^ 32 = 0 ∧ getBits (c.gr.rd 0 true (fA w) 2) 13 13 + 1 = 2 ∧ getBits (c.gr.rd 0 true (fA w) 2) 0 13 + 2 ≤ hB.size ∧
      u.spansRows g0.core c.la.part .read [(intBits 64 0x10000, 64)] = (sp, v) ∧ u.accessWait g0 c.gr.uid w false = none ∧ (u.mx 2).fills.length < 4 ∧ u.sbufHit g0 c.gr.uid sp = false ∧ (u.mx 2).unused (mHa w) = true ∧
      (v.core 2).trackFull = false ∧ (v.core 2).trackHit false sp = false := by unfold Iss Issues; decide +kernel
/-- A fill of unit 1 of handle 2 from the first bytes of local store. -/
def fl0 : Fill := { h := 2, unit0 := 1, count := 1, isLocal := true, src := 0, stride := 0, pitch := 0, lcr := false, track := none, guid := 7, site := ⟨1, 3, 3, 0, 0⟩ }
theorem wit_Fills_complete : let s := tm 0 { mx0 with fills := [(3, fl0)] }; let r := s.fillData 5 2 2 3 true [(1, 0, 32)]
    tfind (s.mx 2).fills 3 = some fl0 ∧ (s.mx 2).owner = some 2 ∧ (s.blockAt 2 2).isSome = true ∧ tfind (s.mx 2).handles 2 = some hB ∧ (s.launch? 9).map (·.part) = some 5 ∧
      r = (.ok [(1, (upTo 32).map fun i => BitVec.ofNat 8 (i + 1))], r.2) := by decide +kernel
/-- The oldest entry of core 2's queue, before one more. -/
def en (op : MxOp) : MxEntry := { op := op, guid := 7, site := ⟨1, 3, 3, 0, 0⟩ }
/-- The unit with that entry. -/
def te (op : MxOp) : State := tm 0 { mx0 with queue := [en op, en (.clr 3 none)] }
theorem wit_Entries_startable : ∀ op ∈ [.ldb 2 1, .clr 1 (some 3), .mma 1 0 0 4 8 1, .addraw 3 0 1, .stat 1 9, .drain 1 3 false 1 0 64 0 true none],
    let s := te op; Startable s 2 2 blk0 la0 (en op) [en (.clr 3 none)] ∧ ((s.group? g0).map (·.uid) = some 7) ∧ (s.mx 2).drains.length < 2 ∧ eTrapx la0.entry = false := by
  unfold Startable; decide +kernel
theorem wit_Entries_operands : let x := (te (.ldb 2 1)).mx 2
    tfind x.handles 2 = some hB ∧ tfind x.handles 1 = some hA ∧ x.stat.map (·.fmt) = some 1 ∧ mxFmt hA.fmt = some .e4m3 ∧ mxFmt 1 = some .e5m2 ∧ kblocksPerBeat hA.fmt = 1 ∧ tfind x.handles 3 = some hR := by
  decide +kernel
theorem wit_Entries_raw : let b : Mx := { mx0 with buf := [(32 * 256 + 32768, 3), (32 * 256 + 32769, 0)] }; rawAnchor (b.rawImage hR 0) = some 3 := by decide +kernel

/-! Nests, drains and ownership. -/

/-- A table of one level: two K-blocks of 32 rows of handle 1 with the images of handle 2, into tile 0. -/
def tabBytes (nlev : Byte) : List Byte := [nlev, 0x21, 31, 3] ++ List.replicate 60 0 ++ [2, 0, 0, 0, 1, 0, 0, 0, 1, 0, 0, 0] ++ List.replicate 13 0 ++ [1] ++ List.replicate 6 0
/-- The group before mx.nest, its table at the start of local store. -/
def tn (nlev : Byte) : State :=
  onCore (fun p => { p with blocks := [(2, { blk0 with ls := (upTo 96).map fun i => (i, (tabBytes nlev).getD i 0) })] }) (tm (mw 8 0 0 6 255 0) mx0)
theorem wit_Nests_accept : Iss (tn 1) (mw 8 0 0 6 255 0) .mxNest fun c u => MxOwn u g0 c ∧ u.accessWait g0 c.gr.uid (mw 8 0 0 6 255 0) false = none ∧ c.gr.rd 0 true 6 1 = 0 ∧ (c.blk.byte 0).toNat % 8 = 1 ∧ 96 ≤ c.blk.lsBytes ∧
    u.tableBusy g0 c.gr.uid c.gr.block 0 96 = false ∧ c.blk.bytes 0 96 = tabBytes 1 ∧ (u.mx 2).nestCheck (tabBytes 1) c.blk.lsBytes = none ∧ (nestTab (tabBytes 1)).hdr.drain = false ∧
    (nestTab (tabBytes 1)).hdr.ha = 1 ∧ (nestTab (tabBytes 1)).hdr.hb = 2 ∧ (u.mx 2).resident 1 = true ∧ (u.mx 2).resident 2 = true ∧ tfind (u.mx 2).handles 1 = some hA ∧
    tfind (u.mx 2).handles 2 = some hB := by unfold Iss Issues MxOwn; decide +kernel
theorem wit_Nests_refuse : Iss (tn 0) (mw 8 0 0 6 255 0) .mxNest fun c u => MxOwn u g0 c ∧ u.accessWait g0 c.gr.uid (mw 8 0 0 6 255 0) false = none ∧ c.gr.rd 0 true 6 1 = 0 ∧ (c.blk.byte 0).toNat % 8 = 0 ∧
    u.tableBusy g0 c.gr.uid c.gr.block 0 64 = false ∧ c.blk.bytes 0 64 = (tabBytes 0).take 64 ∧ (u.mx 2).nestCheck ((tabBytes 0).take 64) c.blk.lsBytes = some 1 := by
  unfold Iss Issues MxOwn; decide +kernel
/-- That nest, running from point `pos`. -/
def nr (pos : Nat) : NestRun := { tab := nestTab (tabBytes 1), entry := en (.nest (nestTab (tabBytes 1)) none), track := none, pos := pos }
/-- The unit with a nest. -/
def tr (n : NestRun) : State := tm 0 { mx0 with nest := some n }
/-- What the clauses of a running nest ask of its unit. -/
def Runs (s : State) (n : NestRun) : Prop :=
  (s.mx 2).nest = some n ∧ (s.mx 2).owner = some 2 ∧ s.blockAt 2 2 = some blk0 ∧ s.launch? blk0.launch = some la0 ∧ la0.fail = none ∧ la0.hung = 0 ∧ eTrapx la0.entry = false ∧ (s.mx 2).drains = []
theorem wit_Nests_load : Runs (tr (nr 0)) (nr 0) ∧ (nr 0).pos < walkLen (nr 0).tab.levs ∧ tfind ((tr (nr 0)).mx 2).handles (nr 0).tab.hdr.hb = some hB ∧ (nr 0).curB = none ∧
    (nr 0).drainNext ((tr (nr 0)).mx 2) = none := by unfold Runs; decide +kernel
/-- The same in a table whose CLEAR clears to anchor 5, at its first point, its image loaded. -/
theorem wit_Nests_clear : let n := { nr 0 with curB := some ((nr 0).tab.point 0).b.toNat, tab := { (nr 0).tab with hdr := { (nr 0).tab.hdr with clear := true, anchor := 5 } } }
    Runs (tr n) n ∧ n.pos < walkLen n.tab.levs ∧ n.curB = some (n.tab.point n.pos).b.toNat ∧ n.due = [] ∧ n.tab.hdr.clear = true ∧ (n.tab.point n.pos).firstK = true ∧ n.clearedHere = false ∧
      (n.tab.point n.pos).t.toNat ∉ n.drained ∧ n.drainNext ((tr n).mx 2) = none := by unfold Runs; decide +kernel
theorem wit_Nests_mma : let n := { nr 1 with curB := some 1 }
    Runs (tr n) n ∧ n.pos < walkLen n.tab.levs ∧ n.curB = some (n.tab.point n.pos).b.toNat ∧ n.due = [] ∧ (n.tab.point n.pos).firstK = false ∧ n.drainNext ((tr n).mx 2) = none := by
  unfold Runs; decide +kernel
theorem wit_Nests_drain : ∀ f : Bool, let n := { nr 2 with due := [⟨0, 64, 4, f⟩], beat := 9, tab := { (nr 2).tab with hdr := { (nr 2).tab.hdr with drain := true, dst := 1 } } }
    Runs (tr n) n ∧ n.drainNext ((tr n).mx 2) = some (9, ⟨0, 64, 4, f⟩) ∧ n.arrayNext ((tr n).mx 2).beats = none ∧ n.tab.hdr.dst = 1 ∧ n.tab.hdr.satf = false := by unfold Runs; decide +kernel
theorem wit_Nests_end : Runs (tr (nr 2)) (nr 2) ∧ walkLen (nr 2).tab.levs ≤ (nr 2).pos ∧ (nr 2).due = [] := by unfold Runs; decide +kernel
theorem wit_Entries_nest : let n := nestTab (tabBytes 1); Startable (te (.nest n none)) 2 2 blk0 la0 (en (.nest n none)) [en (.clr 3 none)] := by unfold Startable; decide +kernel
/-- Drain writes of the unit. -/
def dr0 (l : Bool) (n : Nat) : DrainBuf := { guid := 7, isLocal := l, block := 2, launch := 9, writes := List.replicate n { lane := 0, va := 64, tgt := .hbm 65536, data := [1, 2, 3, 4] }, track := none }
theorem wit_Drains_writes : (tfind ((tm 0 { mx0 with drains := [(1, dr0 false 1)] }).mx 2).drains 1 = some (dr0 false 1)) ∧
    let s := tm 0 { mx0 with drains := [(1, dr0 true 2)] }; tfind (s.mx 2).drains 1 = some (dr0 true 2) ∧ (s.blockAt 2 (dr0 true 2).block).isSome = true := by decide +kernel
theorem wit_Drains_ownership_ends : ∀ ws ∈ [[], [7]], let s := onCore (fun p => { p with blocks := [(2, { blk0 with ended := true }), (7, blk0)] }) (tm 0 { mx0 with waiters := ws })
    (s.mx 2).owner = some 2 ∧ s.blockAt 2 2 = some { blk0 with ended := true } ∧ (s.mx 2).queue = [] ∧ (s.mx 2).fills = [] ∧ (s.mx 2).drains = [] ∧ (s.mx 2).nest = none ∧
      (s.launch? 9).map (·.part) = some 5 ∧ (s.mx 2).waiters = ws ∧ s.blockAt 2 7 = some blk0 := by decide +kernel

/-! Schedulers, placement, watches, kills and queues. -/

theorem wit_Placed_schedulers : (let q : Sched := { active := [3], ready := [5, 6] }; ({ scheds := [(1, q)] } : Core).sched 1 = q ∧ q.active.length < 4) ∧
    let q : Sched := { active := [1, 2, 3, 4], ready := [5, 6] }; ({ scheds := [(1, q)] } : Core).sched 1 = q := by decide +kernel
/-- A kernel's entry: two blocks of one group, 64 registers, 1 KiB of local store, split 4, eight tiles. -/
def eK : List Byte :=
  [0, 0, 0, 0x40, 1, 0, 0, 0] ++ leBytes 8 0x20000 ++ leBytes 8 0x30000 ++ leBytes 4 2 ++ leBytes 4 1 ++ leBytes 4 1 ++ [64, 0, 32, 0, 1, 0, 0, 0] ++ leBytes 4 8 ++ List.replicate 16 0
/-- Its launch. -/
def laK : Launch := { part := 5, queue := 1, seq := 2, rt := false, entry := eK, phase := .running, bound := true, gx := 2, gy := 1, gz := 1, code := 0x20000, vregs := 64, split := 4, lskib := 1 }
/-- Partition 5 with these launches and queues, at a later time. -/
def pw (ls : Tbl Launch) (qs : Tbl Queue) : State := lit <| vm { gt := 5000000, host := { vfEnable := true, numVFs := 8 }, launches := ls, queues := qs }
theorem wit_Placed_split : let s := pw [(9, laK)] []
    (s.core 0).blocks = [] ∧ (s.core 0).split ≠ 4 ∧ (9, laK) ∈ s.launches ∧ laK.isKernel = true ∧ laK.split = 4 ∧ (0, 0, 0) ∈ s.coresFor laK false := by decide +kernel
/-- The cores of the set, all with the launch's split. -/
def split4 (l : Launch) (b : Tbl Block) : State := { pw [(9, l)] [] with cores := (0, { split := 4, blocks := b }) :: (upTo 23).map fun i => (i + 1, { split := 4 }) }
theorem wit_Placed_block : let s := split4 laK []
    Placing s 9 laK ∧ eChfed laK.entry = false ∧ eCluster laK.entry = 1 ∧ laK.nextBlk < laK.blocks ∧ (0, 0, 0) ∈ s.coresFor laK false ∧ (s.core 0).admits laK = true ∧
      (s.core 0).blockSlot = some 0 ∧ ∀ y ∈ s.coresFor laK false, (s.core y.2.1).admits laK = true → (s.core y.2.1).split = laK.split ∧ y.1 < 2 ^ 20 ∧
        (y = (0, 0, 0) ∨ ((s.core 0).blocks.length = (s.core y.2.1).blocks.length ∧ 0 < y.1)) := by unfold Placing; decide +kernel
theorem wit_Placed_thief : let l := { laK with nextBlk := 2 }; let b := { blk0 with head := 0, tail := 8 }; let s := split4 l [(3, b)]
    Placing s 9 l ∧ l.placed = true ∧ eCluster l.entry = 1 ∧ ((s.ent l.part).stages.getD l.stage (0, false)).2 = false ∧ pickVictim (s.victims 9 l false) = some (0, 3, b) ∧
      tfind (s.core 0).blocks 3 = some b ∧ s.pickCore l ((s.coresFor l false).filter fun x => (s.core x.2.1).blocks == []) = some (1, 1, 0) ∧ (s.core 1).split = l.split ∧
      (s.core 1).blockSlot = some 0 := by unfold Placing; decide +kernel
theorem wit_Watches_grant : let s := pw [(9, { laK with phase := .acquired })] [(qkey 5 1, { cfg := 0x1000, want := some 77 })]; let k := qkey 5 1
    k / 256 = 5 ∧ s.noteWants 5 = s ∧ s.partUp 5 = true ∧ s.watches 5 < s.nwatch 5 ∧ (k, s.queue k) ∈ s.queues ∧ (s.queue k).want = some 77 ∧ s.wantsWatch k = true ∧
      ∀ e ∈ s.queues, e.1 = k ∧ e.2 = s.queue k := by decide +kernel
theorem wit_Watches_release : let s := pw [] [(qkey 5 1, { watch := some 1 })]
    okQueue 5 1 = true ∧ (s.queue (qkey 5 1)).watch.isSome = true ∧ s.wantsWatch (qkey 5 1) = false ∧ ((s.ofQueue (qkey 5 1)).any fun e => e.2.isWork && e.2.isIssued) = false := by decide +kernel
theorem wit_Watches_expiry : let l := { laK with nextBlk := 1 }
    let s := pw [(9, l), (12, { laK with queue := 2, phase := .acquired })] [(qkey 5 1, { watch := some 1, watchEnd := 100 }), (qkey 5 2, { want := some 77 })]
    s.noteWants 5 = s ∧ (s.queue (qkey 5 1)).watchEnd ≤ s.now ∧ (∃ e ∈ s.queues, e.1 / 256 = 5 ∧ e.1 ≠ qkey 5 1 ∧ e.2.want.isSome = true ∧ s.wantsWatch e.1 = true) ∧ s.nwatch 5 ≤ s.watches 5 ∧
      tsorted s.launches = true ∧ s.ofQueue (qkey 5 1) = [(9, l)] ∧ l.killable = true ∧ s.killableNow l = true ∧ l.unstarted = false := by decide +kernel
theorem wit_Watches_renewed : let s := pw [] [(qkey 5 1, { watch := some 1, watchEnd := 100 })]
    s.noteWants 5 = s ∧ (s.queue (qkey 5 1)).watch.isSome = true ∧ (s.queue (qkey 5 1)).watchEnd ≤ s.now ∧ (∀ e ∈ s.queues, e.1 = qkey 5 1) ∧ s.watches 5 ≤ s.nwatch 5 := by decide +kernel
theorem wit_Watches_realtime : let l := { laK with nextBlk := 1 }; let r := { laK with queue := 2, rt := true }
    let s := { split4 l [(3, blk0)] with launches := [(9, l), (12, r)], queues := [(qkey 5 2, { cfg := 0x1810 })] }
    qcRt (s.queue (qkey 5 2)).cfg = true ∧ qcEnable (s.queue (qkey 5 2)).cfg = true ∧ s.rtActive 5 2 = true ∧ tsorted s.launches = true ∧ l.killable = true ∧ l.unstarted = false ∧
      s.onReserve 9 l 2 = true ∧ r.killable = false := by decide +kernel
theorem wit_Watches_killed : let l := { laK with phase := .killing, run := 3 }; let s := pw [(9, l)] []; s.launch? 9 = some l ∧ (s.queue l.qk).resetting = false ∧ l.held = [] := by decide +kernel
theorem wit_Queues_doorbell : let s := pw [] [(qkey 5 1, { cfg := 0x1000, tail := 3 })]
    okVf 5 = true ∧ s.vfOpen 5 = true ∧ s.vfPart 5 = some 5 ∧ 1 < (s.ent 5).nqueue ∧ s.partUp 5 = true ∧ qcEnable (s.queue (qkey 5 1)).cfg = true ∧ (s.queue (qkey 5 1)).size = 16 := by decide +kernel
theorem wit_Queues_doorbell_ignored : ∀ q ∈ [({ cfg := 0 } : Queue), { cfg := 0x1000, halted := true }, { cfg := 0x1000, resetting := true }], let s := pw [] [(qkey 5 1, q)]
    s.vfOpen 5 = true ∧ s.vfPart 5 = some 5 ∧ (qcEnable (s.queue (qkey 5 1)).cfg = false ∨ (s.queue (qkey 5 1)).halted = true ∨ (s.queue (qkey 5 1)).resetting = true) := by decide +kernel
theorem wit_Queues_configuration : let s := pw [] [(qkey 5 0, { ring := 0x400, cpl := 0x400 }), (qkey 5 1, { cfg := 0x1000 })]
    s.vfOpen 5 = true ∧ s.selQueue 5 = some (qkey 5 0) ∧ qcEnable (s.queue (qkey 5 0)).cfg = false ∧ s.configBad (qkey 5 0) (0x1000 &&& 0x1FFF) = false ∧ s.configBad (qkey 5 0) (0x100D &&& 0x1FFF) = true ∧
      (s.setReg (vfKey 5 vfQsel) 1).selQueue 5 = some (qkey 5 1) ∧ qcEnable (s.queue (qkey 5 1)).cfg = true := by decide +kernel
theorem wit_Queues_reset : (let s := pw [] [(qkey 5 0, {})]; s.vfOpen 5 = true ∧ s.selQueue 5 = some (qkey 5 0) ∧ (s.queue (qkey 5 0)).resetting = false ∧ s.ofQueue (qkey 5 0) = []) ∧
    let l := { laK with queue := 0, nextBlk := 1 }; let s := pw [(9, l)] [(qkey 5 0, {})]
    s.vfOpen 5 = true ∧ s.launches = [(9, l)] ∧ l.phase = .running ∧ s.selQueue 5 = some (qkey 5 0) ∧ (s.queue (qkey 5 0)).resetting = false ∧ s.ofQueue (qkey 5 0) = [(9, l)] ∧ l.killable = true ∧ l.unstarted = false ∧ l.replay = none := by decide +kernel
theorem wit_Queues_reset_ends : let s := pw [] [(qkey 5 1, { cfg := 0x1003, resetting := true })]; okQueue 5 1 = true ∧ (s.queue (qkey 5 1)).resetting = true ∧ s.ofQueue (qkey 5 1) = [] := by
  decide +kernel
/-- A queue whose ring at 0x40000 holds the entry at its head, with these launches. -/
def qe (e : List Byte) (q : Queue) (ls : Tbl Launch) : State :=
  let s := pw ls [(qkey 5 1, { q with ring := 0x40000, cpl := 0x50000, cfg := 0x1000, tail := 3 })]
  { s with mem := msetBytes s.mem 0x40000 e }
/-- The same as read, and the state after. -/
def qf (s : State) : State := (s.fetchBytes 5 0x40000 64).2
theorem wit_Queues_preload : let s := qe eK {} [(9, laK)]
    s.queueRuns (qkey 5 1) = true ∧ (s.queue (qkey 5 1)).head < (s.queue (qkey 5 1)).tail ∧ s.preloadRoom (s.leadDie 5) (qcRt (s.queue (qkey 5 1)).cfg) = true ∧
      s.preSlot (s.leadDie 5) (.entry (qkey 5 1) (s.queue (qkey 5 1)).head) = none ∧
      ((s.ofQueue (qkey 5 1)).any fun x => x.2.isIssued) = true ∧ s.fetchBytes 5 ((s.queue (qkey 5 1)).ring + 64 * ((s.queue (qkey 5 1)).head % (s.queue (qkey 5 1)).size)) 64 = (.ok eK, qf s) ∧
      entryErrs eK ++ (qf s).chartErrs 5 eK = [] ∧ eType eK = 0 ∧ eExt eK = 0 ∧ eBucket eK = 0 := by decide +kernel
/-- The queue's turn has come with that entry. -/
def Tn (e : List Byte) (q : Queue) : Prop := Turn (qe e q []) 5 1 e (qf (qe e q []))
theorem wit_Issue_kernel : Tn eK { watch := some 1 } ∧ eType eK = 0 ∧ eExt eK = 0 ∧ eBucket eK = 0 ∧ eInd eK 0 = false ∧ eInd eK 1 = false ∧ eInd eK 2 = false ∧
    entryErrs eK ++ (qf (qe eK { watch := some 1 } [])).chartErrs 5 eK = [] ∧ (qf (qe eK { watch := some 1 } [])).stageSets 5 (eStage eK) ≠ [] := by unfold Tn Turn; decide +kernel
theorem wit_Issue_refused : let e := [0x80] ++ eK.drop 1; Tn e {} ∧ eExt e = 0 ∧ (lowest (entryErrs e ++ (qf (qe e {} [])).chartErrs 5 e)).isSome = true := by unfold Tn Turn; decide +kernel
theorem wit_Issue_event : let e : List Byte := [2] ++ List.replicate 7 0 ++ leBytes 8 0x60000 ++ leBytes 8 7 ++ List.replicate 40 0; let v := qf (qe e {} [])
    Tn e {} ∧ eType e = 2 ∧ entryErrs e ++ v.chartErrs 5 e = [] ∧ v.eventWord 5 (eAddr e) = (.ok 0x60000, (v.eventWord 5 (eAddr e)).2) ∧ v.poisoned 0x60000 8 = false := by
  unfold Tn Turn; decide +kernel
theorem wit_Issue_semaphore : let e : List Byte := [4] ++ List.replicate 7 0 ++ [5, 0, 1, 0] ++ leBytes 4 3 ++ List.replicate 48 0; let v := qf (qe e {} [])
    Tn e {} ∧ eType e = 4 ∧ eSemOp e = 1 ∧ entryErrs e ++ v.chartErrs 5 e = [] ∧ (v.sem 5 (eSem e)).waiters = [] := by unfold Tn Turn; decide +kernel
theorem wit_Issue_unreadable : let s := { pw [] [(qkey 5 1, { ring := 0x40000, cfg := 0x1000, tail := 3 })] with mem := msetBytes [] 0x5F000000 (leBytes 8 0) }; let r := s.fetchBytes 5 0x40000 64
    s.issueTurn 5 = some (qkey 5 1) ∧ s.queueRuns (qkey 5 1) = true ∧ s.ofQueue (qkey 5 1) = [] ∧ (s.queue (qkey 5 1)).ring + 64 * ((s.queue (qkey 5 1)).head % (s.queue (qkey 5 1)).size) = 0x40000 ∧
      (s.queue (qkey 5 1)).cur = none ∧ (s.queue (qkey 5 1)).head < (s.queue (qkey 5 1)).tail ∧ r = (.error .translation, r.2) := by decide +kernel

/-! Ends of launches, commit, routes. -/

/-- A wait's entry: word 0x60000, value 7, a limit. -/
def eW : List Byte := [3] ++ List.replicate 7 0 ++ leBytes 8 0x60000 ++ leBytes 8 7 ++ leBytes 8 1000 ++ List.replicate 32 0
/-- A running wait whose word holds `v`. -/
def laW : Launch := { part := 5, queue := 1, seq := 2, rt := false, entry := eW, phase := .running, word := some 0x60000 }
/-- The state with that launch. -/
def sw (l : Launch) (v : Nat) : State := let s := pw [(9, l)] [(qkey 5 1, { head := 2, cur := some 9 })]; { s with mem := msetBytes s.mem 0x60000 (leBytes 8 v) }
theorem wit_Ends_wait : ∀ v ∈ [6, 7, 2 ^ 63 - 1, 2 ^ 63], let l := { laW with armed := true, touched := true }; WaitWord (sw l v) 9 l 0x60000 v ∧ eValue l.entry = 7 := by unfold WaitWord; decide +kernel
theorem wit_Ends_wait_limit : WaitWord (sw laW 6) 9 laW 0x60000 6 ∧ laW.touched = false ∧ eWaitLimit laW.entry ≠ 0 ∧ laW.issueGt + eWaitLimit laW.entry ≤ (sw laW 6).now := by
  unfold WaitWord; decide +kernel
theorem wit_Ends_wait_poll : ∀ v ∈ [6, 7], WaitWord (sw laW v) 9 laW 0x60000 v ∧ laW.armed = false ∧ (sw laW v).slotFree ((sw laW v).leadDie laW.part) = true := by unfold WaitWord; decide +kernel
theorem wit_Ends_acquire : let l : Launch := { laW with entry := [4] ++ List.replicate 7 0 ++ [5, 0, 0, 0] ++ leBytes 4 3 ++ leBytes 8 1000 ++ List.replicate 40 0, phase := .acquiring }
    let s := { sw l 0 with parts := [(5, { sems := [(5, { waiters := [9] })] })] }
    s.launch? 9 = some l ∧ eType l.entry = 4 ∧ eSemLimit l.entry ≠ 0 ∧ l.waitGt + eSemLimit l.entry ≤ s.now ∧ ∀ e ∈ (s.part l.part).sems, e.2.waiters = [9] := by decide +kernel
theorem wit_Ends_slimit : let l := { laK with phase := .acquiring, ext := List.replicate 160 0 ++ leBytes 8 1000 ++ leBytes 8 1000 ++ List.replicate 80 0 }
    let s := { sw l 0 with parts := [(5, { sems := [(5, { waiters := [9] })] })] }
    s.launch? 9 = some l ∧ l.isWork = true ∧ l.call = none ∧ l.ext ≠ [] ∧ xSlimit l.ext ≠ 0 ∧ l.waitGt + xSlimit l.ext ≤ s.now ∧ (∀ e ∈ (s.part l.part).sems, e.2.waiters = [9]) ∧
      (s.queue l.qk).cur = some 9 := by decide +kernel
theorem wit_Ends_tlimit : let l := { laK with ext := List.replicate 160 0 ++ leBytes 8 1000 ++ leBytes 8 1000 ++ List.replicate 80 0 }; let s := sw l 0
    s.launch? 9 = some l ∧ l.isWork = true ∧ l.phase = .running ∧ l.ext ≠ [] ∧ xTlimit l.ext ≠ 0 ∧ l.issueGt + l.paused + xTlimit l.ext ≤ s.now := by decide +kernel
theorem wit_Ends_completion : let l := { laK with phase := .ended }; let s := pw [(9, l)] [(qkey 5 1, { cpl := 0x50000, done := 2 })]
    let r := (s.release 9 l).translSpan l.part ((s.queue l.qk).cpl + 32 * (l.seq % (s.queue l.qk).size)) 32 .write
    s.launch? 9 = some l ∧ l.over = true ∧ (s.part l.part).reset < 2 ∧ l.call = none ∧ l.replay = none ∧
      r = (.ok [({ tgt := .hbm 0x50040, mt := false, ea := true, w := true }, 32)], r.2) ∧ (s.queue l.qk).early = [] ∧ (s.queue l.qk).done = l.seq := by decide +kernel
/-- A kernel whose blocks have ended. -/
def laR : Launch := { laK with nextBlk := 2, ended := 2, ready := 3000 }
theorem wit_Commit_context : let s := pw [(9, laR)] []
    (s.die 0).contexts.length < 8 ∧ s.launch? 9 = some laR ∧ s.leadDie laR.part = 0 ∧ s.readyToCommit 9 laR = true ∧ ∀ e ∈ s.launches, e = (9, laR) := by decide +kernel
/-- The launch settles: every write is performed, and settle has found a refusal or nothing. -/
def fNack : Failure := { pw [] [] with gt := 4000 }.mkFail stNack 3
theorem wit_Commit_settle : ∀ f ∈ [none, some fNack], let l := { laR with phase := .settling, found := f }; let s := pw [(9, l)] []
    s.launch? 9 = some l ∧ s.settled 9 l = true ∧ l.fail = none ∧ s.settleFailure l = f ∧ l.ctxGt + 151000 ≤ s.now := by decide +kernel
/-- A write of the launch still waits in a store buffer as the settle limit runs out. -/
theorem wit_Commit_settle_limit : ∀ f ∈ [none, some fNack], let l := { laR with phase := .settling, found := f }
    let s := { pw [(9, l)] [] with cores := [(2, { sbufs := [(gkey 1 3, [sb0])] })] }
    s.launch? 9 = some l ∧ l.fail = none ∧ l.ctxGt + 151000 ≤ s.now ∧ s.settled 9 l = false ∧ s.settleFailure l = f ∧ ∀ g, f = some g → g.gt < l.ctxGt + 151000 := by decide +kernel
/-- A launch in perform whose commit queue holds one entry. -/
def laC (k : Nat) (st : CqState) (p : Bool) : Launch := { laR with phase := .performing, cq := [{ kind := k, width := 8, op := 0, origin := 0, addr := if k = ckSem then 5 else 0x60000, data := leBytes 8 77, st := st, poison := p }] }
/-- Its state, in a commit context of die 0. -/
def sc (l : Launch) : State := { sw l 6 with launches := [(9, l)], dies := [(0, { contexts := [9] })] }
theorem wit_Commit_send : ∀ k ∈ [ckSem, ckEvent], let l := laC k .waiting false; let s := sc l
    (s.die 0).contexts = [9] ∧ s.launch? 9 = some l ∧ l.phase = .performing ∧ (l.cq.findIdx? fun x => x.st == .waiting) = some 0 ∧
      (∀ e, l.cq[0]? = some e → e.poison = false ∧ s.maySend l 0 e = true ∧ e.kind = k) ∧ (s.sem 5 5).waiters = [] := by
  intro k hk
  refine ⟨by revert k; decide +kernel, rfl, rfl, by revert k; decide +kernel, ?_, by revert k; decide +kernel⟩
  intro e he
  cases he
  revert k
  decide +kernel
theorem wit_Commit_event_word : let s := sc (laC ckEvent .waiting false); let r := s.eventWord 5 0x60000; r = (.ok 0x60000, r.2) ∧ r.2.poisoned 0x60000 8 = false := by decide +kernel
theorem wit_Commit_ack : ∀ p ∈ [false, true], let l := laC ckEvent .sent p; let s := sc l; s.launch? 9 = some l ∧ l.cq.length = 1 ∧ (l.cq.all fun e => e.st == .sent && e.kind != ckFinal && e.kind != ckRemote && e.poison == p) = true ∧
    l.part < 64 ∧ l.ctxGt + 200000 ≤ s.now := by decide +kernel
/-- Routes of partition 5: one entry to store at 0x40000; route 3 in version 2. -/
def sr (c : Option RouteCmd) : State :=
  ((({ qe eK {} [] with parts := [(5, { rcmd := c, routes := [(3, { ver := 2, live := true })], vers := [⟨3, 2, [eK, eK]⟩] })] } : State).setReg (vfKey 5 vfRcnt) 1).setReg (vfKey 5 vfRsrc) 0x40000)
theorem wit_Routes_commands : let s := sr none; let r := s.routeSource 5 5 1
    s.vfOpen 5 = true ∧ s.vfPart 5 = some 5 ∧ (s.part 5).rcmd = none ∧ s.routeCount 5 = some 1 ∧ r = (.ok [eK], r.2) ∧ (tget {} (s.part 5).routes 3).live = true ∧
      1 + 1 ≤ (s.version 5 3 (tget {} (s.part 5).routes 3).ver).length := by decide +kernel
theorem wit_Routes_busy : let s := sr (some { op := 1, route := 3, result := 0 }); s.vfOpen 5 = true ∧ s.vfPart 5 = some 5 ∧ (s.part 5).rcmd = some { op := 1, route := 3, result := 0 } := by decide +kernel
theorem wit_Routes_complete : ∀ o ∈ [1, 2, 3], ∀ r ∈ [0, 3], let c : RouteCmd := { op := o, route := 3, result := r, entries := [eK] }; let s := sr (some c)
    (s.part 5).rcmd = some c ∧ s.routeResult 5 c = r := by decide +kernel

/-! Partition reset, charts, translations. -/

/-- Partition 5 at a step of its reset, with these launches. -/
def sp (n : Nat) (k : Bool) (ls : Tbl Launch) : State := { pw ls [(qkey 5 1, { head := 2 })] with parts := [(5, { reset := n, rekey := k, sems := [(1, { count := 2 })] })] }
theorem wit_Reset_begins : (∀ n ∈ [0, 2], Stored (sp n false []) (partRst 5)) ∧ (sp 0 false []).valid 5 = true ∧ ((sp 0 false []).part 5).reset = 0 ∧ ((sp 2 false []).part 5).reset ≠ 0 := by unfold Stored; decide +kernel
theorem wit_Reset_epoch : ((sp 1 false []).part 5).reset = 1 ∧ (sp 1 false []).commits 5 = false ∧
    let s := sp 1 false [(9, laK)]; s.launches = [(9, laK)] ∧ laK.part = 5 ∧ laK.phase = .running ∧ laK.held = [] ∧ (∀ e ∈ (s.part 5).sems, e.2.waiters = []) ∧ laK.producers = [] := by decide +kernel
theorem wit_Reset_goes_on : ((sp 2 false [(9, laK)]).part 5).reset = 2 ∧ ((sp 3 false []).part 5).reset = 3 ∧ (sp 3 false []).oldRequests 5 = false := by decide +kernel
theorem wit_Reset_ends : ∀ k ∈ [false, true], let s := sp 4 k []
    (s.part 5).reset = 4 ∧ s.chart.applying = false ∧ s.chart.holding = false ∧ s.valid 5 = true ∧ s.dieHolds 5 = false ∧ (s.part 5).staged = none ∧ (s.part 5).rekey = k := by decide +kernel
/-- A chart command runs. -/
def cb (s : State) : State := (s.setReg chartStatus 1).setReg chartCtrl 1
theorem wit_Charts_command : Stored (pw [] []) chartCtrl ∧ Stored (cb (pw [] [])) chartCtrl ∧ (pw [] []).bit chartStatus 0 = false ∧ ChecksCharts (cb (pw [] [])) ∧ (cb (pw [] [])).chart.applying = false ∧ (cb (pw [] [])).chart.image = [] ∧
    (cb (pw [] [])).chartCheck [] ((cb (pw [] [])).reg chartLen).toNat false ≠ 0 := by unfold Stored ChecksCharts; decide +kernel
/-- The partition with a staged chart: `r` changes its resources. -/
def sg (r a : Bool) : State :=
  { pw [] [] with parts := [(5, { staged := some { ent := if r then { ent5 with stages := [(1, true)], ways := 1 } else { ent5 with stages := [(1, true)] }, subst := [], seq := 2 }, activating := a })] }
theorem wit_Charts_activate : ∀ r ∈ [false, true], let s := sg r false; ∃ g, (s.part 5).staged = some g ∧ Stored s chartCtrl ∧ s.bit chartStatus 0 = false ∧ (s.part 5).activating = false ∧ s.stagedRetired 5 g = false ∧
    s.valid 5 = true ∧ (s.part 5).reset = 0 ∧ s.changesRes 5 g = r ∧ ({ s with chart := { s.chart with rCores := 1 } } : State).stagedRetired 5 g = true ∧
    ({ s with chart := { s.chart with parts := [] } } : State).stagedRetired 5 g = false ∧ ({ s with chart := { s.chart with parts := [] } } : State).valid 5 = false := by
  intro r hr
  refine ⟨_, rfl, ?_⟩
  unfold Stored
  revert r
  decide +kernel
theorem wit_Charts_activated : let s := sg false true; ∃ g, (s.part 5).staged = some g ∧ (s.part 5).activating = true ∧ (s.part 5).reset = 0 ∧ s.quiet 5 = true ∧ s.stagedRetired 5 g = false ∧ s.changesRes 5 g = false ∧
    (s.ent 5).chans = g.ent.chans := ⟨_, rfl, by decide +kernel⟩
/-- An image is held, in a state with partition 5 or with none: `m` has no valid entry, or one that has no way. -/
def hi (m : List Byte) (s : State) : State := let t := cb s; { t with chart := { t.chart with image := m } }
theorem wit_Charts_held : (let s := (hi [0] (lit {})).setReg chartCtrl 3; ChecksCharts s ∧ s.bit chartCtrl 1 = true ∧ s.chart.applying = false ∧ s.chart.image = [0] ∧
      s.validParts = [] ∧ imEnts [0] = []) ∧
    (let s := hi [1] (lit {}); ChecksCharts s ∧ s.chart.applying = false ∧ s.chart.image = [1] ∧ ∃ e ∈ imEnts [1], s.entRetired (s.imRCores [1]) (s.imRChans [1]) (imSubst [1]) e.2 = true) ∧
    let s := hi [0] (pw [] []); ChecksCharts s ∧ s.chart.applying = false ∧ s.validParts = [5] ∧ ∀ p ∈ s.validParts, (s.part p).reset = 0 := by unfold ChecksCharts; decide +kernel
theorem wit_Charts_applying : ∀ n ∈ [2, 4], let t := hi [0] (sp n false []); let s := { t with chart := { t.chart with applying := true } }
    ChecksCharts s ∧ s.chart.applying = true ∧ s.chart.image = [0] ∧ s.allStopped = (n == 4) := by unfold ChecksCharts; decide +kernel
/-- The boot chart's clause that refuses: an image that is none. -/
theorem wit_Charts_boot_refused : let s : State := { chart := { boot := some [1, 2] } }; s.chart.boot = some [1, 2] ∧ s.chartCheck [1, 2] (imLen [1, 2]) true ≠ 0 := by decide +kernel
theorem wit_Ways_invalidate : Stored (pw [] []) (partTlbinv 5) ∧ (pw [] []).tdiLocked 5 = false ∧ ((pw [] []).part 5).sweep.running = false ∧ ((pw [] []).setBit (partTlbinv 5) 0 true).bit (partTlbinv 5) 0 = true ∧ (pw [] []).oldUse 5 = false ∧ (pw [] []).staleUse 5 = false ∧
    (∀ o : Bool, let s : State := { pw [(9, laK)] [] with cores := [(2, { loads := [(1, { ldOut with old := o })] })] }
      s.oldUse 5 = o ∧ tfind (s.core 2).loads 1 = some { ldOut with old := o } ∧ ldOut.bound = none ∧ (s.launch? ldOut.launch).map (·.part) = some 5) ∧
    let e : Sbuf := { sb0 with writes := [{ lane := 0, va := 65548, tgt := .hbm 0, data := [1] }] }
    ({ pw [] [] with cores := [(2, { sbufs := [(19, [e])] })] } : State).staleUse 5 = true := by unfold Stored; decide +kernel
/-- Die 1 with four errors in way 3, and lines there. -/
def dw (s : State) : State := { s with dies := [(1, { wayCe := [(3, [1, 2, 3, 4])], l2 := [(77, { way := 3, modified := true })] })] }
theorem wit_Ways_disable : let s := dw {}; s.bit (l2WayStat 1) 3 = false ∧ reachedN (tget [] (s.die 1).wayCe 3) 4 = true ∧ s.wayOwner 1 3 = none ∧ (s.die 1).l2 = [(77, { way := 3, modified := true })] := by
  decide +kernel
theorem wit_Ways_disable_owned : let s := dw { chart := { parts := [(5, { ent5 with ways := 2 ^ 19 })] } }
    s.bit (l2WayStat 1) 3 = false ∧ reachedN (tget [] (s.die 1).wayCe 3) 4 = true ∧ s.wayOwner 1 3 = some 5 ∧ (s.waysOf 5 1).filter (· != 3) = [] ∧ (s.part 5).reset = 0 := by decide +kernel

/-! Controllers, scrub, generators. -/

/-- Channel 3, trained and in service, at time 5,000,000. -/
def hc (c : Chan) : State := lit (({ gt := 5000000, chans := [(3, c)] } : State).setReg (hbmStat 3) 1)
theorem wit_Controllers_serve : let a : HbmReq := { cls := 3, line := 8, gt := 1 }; let b : HbmReq := { cls := 2, line := 9, gt := 2 }; let d : HbmReq := { cls := 5, line := 9, gt := 2 }
    (∀ f : Bool, let x := { b with late := f }; ServesOnly (hc { reqs := [a, x] }) 3 ∧ ((hc { reqs := [a, x] }).chan 3).reqs = [a, x]) ∧ a.cls = 3 ∧ b.cls = 2 ∧ a.promoted = false ∧ a.line ≠ b.line ∧
      a.gen = false ∧ b.gen = false ∧ b.promoted = false ∧ b.late = false ∧ ServesOnly (hc { reqs := [a, d] }) 3 ∧ ((hc { reqs := [a, d] }).chan 3).reqs = [a, d] ∧ d.cls = 5 ∧ d.promoted = false ∧
      ServesOnly (hc { reqs := [b] }) 3 ∧ ((hc { reqs := [b] }).chan 3).reqs = [b] ∧ b.writes = false ∧ (hc { reqs := [b] }).host.unmasked.contains (128 + 3) = false := by
  unfold ServesOnly NoneOwed; decide +kernel
theorem wit_Controllers_periods : ((hc {}).chan 3).period < (hc {}).now / 1000 ∧ let s := hc { lcrUsed := 10 ^ 9, period := 5000 }; s.lcrCap 3 ≤ (s.chan 3).lcrUsed ∧ (s.chan 3).period = s.now / 1000 := by
  decide +kernel
theorem wit_Controllers_promote : ∀ r ∈ [({ cls := 3, line := 8, gt := 4980000 } : HbmReq), { cls := 2, line := 8, gt := 4980000, late := true }], (3 ≤ r.cls ∨ r.late = true) ∧ ((hc { reqs := [r] }).chan 3).reqs[0]? = some r ∧ r.gt + 20000 ≤ (hc { reqs := [r] }).now := by decide +kernel
theorem wit_Controllers_writes : let r : HbmReq := { cls := 4, line := 8, gt := 1 }; 48 ≤ ((hc { reqs := List.replicate 48 r }).chan 3).writes ∧ ((hc { reqs := List.replicate 16 r }).chan 3).writes ≤ 16 := by
  decide +kernel
/-- All that a postponed refresh asks but that JEDEC HBM4 lets one be postponed. -/
theorem wit_Controllers_refresh : let r : HbmReq := { cls := 2, line := 8, gt := 1 }; (hc { reqs := [r] }).serves 3 = true ∧ ((hc { reqs := [r] }).chan 3).lcrPending = true ∧
    tget 0 ((hc { reqs := [r] }).chan 3).postponed 2 = 0 ∧ ((hc {}).chan 3).lcrPending = false ∧ (hc {}).serves 3 = true := by decide +kernel
theorem wit_Controllers_calibration : let s := (hc {}).setReg (hbmCfg 3) 0x100; (s.serves 3 = true ∧ (s.chan 3).calDue = none ∧ (s.chan 3).calLast + s.fld (hbmCfg 3) 8 8 * 10 ^ 6 ≤ s.now) ∧
    (let s := hc { calDue := some 1000000 }; s.serves 3 = true ∧ (s.chan 3).calDue = some 1000000 ∧ 1000000 + 4 * 10 ^ 6 ≤ s.now) ∧
    let s := (hc { calDue := some 1000000 }).setReg (hbmStat 3) 5; (s.chan 3).calDue = some 1000000 ∧ s.bit (hbmStat 3) 2 = true := by decide +kernel
theorem wit_Channels_scrub_train : (hc {}).serves 3 = true ∧ (hc {}).scrubTurn 3 = true ∧ (hc {}).chanRetired 3 = false ∧
    let r : HbmReq := { cls := 3, line := 8, gt := 1 }; let c : Chan := { reqs := [r], scrubGt := 5000000 }; r ∈ ((hc c).chan 3).reqs ∧ (hc c).scrubLate 3 = false := by decide +kernel
theorem wit_Channels_retire : let s := hc { retrain := [1, 2, 3] }; getBits s.chart.mChans 3 1 = 0 ∧ (s.chan 3).untrainable = true ∧ s.host.unmasked.contains (128 + 3) = false ∧
    (hc { ueRows := (upTo 8).map fun i => (i, i) }).chan 3 = { ueRows := (upTo 8).map fun i => (i, i) } ∧ ({ ueRows := (upTo 8).map fun i => (i, i) } : Chan).rowsWorn = true := by decide +kernel
theorem wit_Channels_rings : (2 : Nat) ∉ (State.reset).d2d ∧ (2 : Nat) ∈ ({ d2d := [2] } : State).d2d := by decide +kernel
/-- A generator on channel 3: one pass of an operation over 128 bytes, the address pattern. -/
def tg (op : Nat) (c : Chan) : State := ((hc c).setReg (tgCtrl 3) (BitVec.ofNat 32 (2 * 2 ^ 4 + op * 2 ^ 7 + 2 ^ 9))).setReg (tgLen 3) 128
theorem wit_Generators_start : (Stored (hc {}) (tgCtrl 3) ∧ (hc {}).tgRefused 3 = true ∧ ((hc {}).chan 3).tgRun = false) ∧
    (∀ s ∈ [tg 0 {}, (tg 0 {}).setReg (tgCtrl 3) (BitVec.ofNat 32 (3 * 2 ^ 4 + 2 ^ 9))], s.tgRefused 3 = false ∧ Stored s (tgCtrl 3) ∧ (s.chan 3).tgRun = false) ∧ (tg 0 {}).tgPat 3 ≠ 3 ∧
    ((tg 0 {}).setReg (tgCtrl 3) (BitVec.ofNat 32 (3 * 2 ^ 4 + 2 ^ 9))).tgPat 3 = 3 := by unfold Stored; decide +kernel
/-- Its line has its turn. -/
def rg : HbmReq := { cls := 5, line := 2 ^ 24 * 3, gt := 5000000, gen := true }
/-- It writes a line of two, or checks one line that does not hold the pattern, at STOP or not. -/
theorem wit_Generators_line : (let s := (tg 0 { tgRun := true, scrubGt := 5000000, reqs := [rg] }).setReg (tgLen 3) 256; GeneratorsTurn s 3 rg 0 ∧ s.tgOp 3 ≠ 2 ∧ (s.chan 3).tgRead = false ∧ s.tgStop 3 = false ∧
      (s.chan 3).tgPos + 1 < s.tgLines 3) ∧
    ∀ f : Bool, let s := { (tg 2 { tgRun := true, scrubGt := 5000000, reqs := [rg] }).setBit (tgCtrl 3) 1 f with mem := (upTo 128).map fun i => (2 ^ 31 * 3 + i, 255) }
      GeneratorsTurn s 3 rg 0 ∧ s.tgOp 3 = 2 ∧ s.tgStop 3 = f ∧ (s.reg (tgErrCnt 3)).toNat = 0 ∧ s.tgErrs 3 0 ≠ [] ∧ s.tgLines 3 ≤ (s.chan 3).tgPos + 1 := by
  unfold GeneratorsTurn ServesOnly NoneOwed; decide +kernel
theorem wit_Generators_end : (∀ b : Bool, Stored (hc { tgRun := b }) (tgCtrl 3)) ∧ ((hc { tgRun := true }).chan 3).tgRun = true ∧ ((hc {}).chan 3).tgRun = false ∧ ((hc { tgRun := true }).chan 3).tgDone = true ∧
    ((hc { tgRun := true, scrubGt := 5000000, reqs := [rg] }).chan 3).tgDone = false := by unfold Stored; decide +kernel

/-! Copies. -/

/-- A copy of `n` bytes from 0x40000 to 0x50000, in a mode. -/
def cdN0 (mode n : Nat) : List Byte := leBytes 8 mode ++ leBytes 8 0x40000 ++ leBytes 8 0x50000 ++ leBytes 4 n ++ leBytes 4 1 ++ leBytes 4 1 ++ List.replicate 92 0
/-- Its launch on engine 6, with these requests. -/
def laX (d : List Byte) (out : Tbl CopyReq) : Launch := { laK with entry := [1] ++ eK.drop 1, copy := some { engine := 6, die := 0, desc := d, out := out } }
/-- The state with that launch and its source's bytes. -/
def sx (l : Launch) : State := { sw l 0 with mem := msetBytes (sw l 0).mem 0x40000 (eK ++ eK), copies := [(6, { launches := [9], nextId := 4 })] }
theorem wit_Copies_request : let l := laX (cdN0 0 8192) []; Copying (sx l) 6 9 l { engine := 6, die := 0, desc := cdN0 0 8192 } ∧ ((sx l).copyEng 6).launches = [9] ∧ cdSrcRemote (cdN0 0 8192) = false ∧
    cdDstRemote (cdN0 0 8192) = false := by unfold Copying; decide +kernel
theorem wit_Copies_moved : let d := cdN0 0 64; let o : Tbl CopyReq := [(2, { pos := 0, len := 64 })]; let l := laX d o; let s := sx l; let r := s.copyRead l d 0x40000 64; let q := r.2.translSpan 5 0x50000 64 .write l.copyWalker
    (sx l).copyReaches l { pos := 0, len := 64 } = true ∧ Copying s 6 9 l { engine := 6, die := 0, desc := d, out := o } ∧ s.copyReq? 6 2 = some (9, l, { pos := 0, len := 64 }) ∧ cdMode d = 0 ∧ cdSrcRemote d = false ∧ cdDstRemote d = false ∧
      cdPieces d 65 0 64 = [(0, 0, 64)] ∧ addr64 (cdSrc d) = 0x40000 ∧ addr64 (cdDst d) = 0x50000 ∧ r = (.ok eK, r.2) ∧
      q = (.ok [({ tgt := .hbm 0x50000, mt := false, ea := true, w := true }, 64)], q.2) := by unfold Copying; decide +kernel
theorem wit_Copies_folded : let d := cdN0 3 128; let o : Tbl CopyReq := [(2, { pos := 0, len := 128 })]; let l := laX d o; let s := sx l; let r := s.copyRead l d 0x40000 128
    s.copyReaches l { pos := 0, len := 128 } = true ∧ Copying s 6 9 l { engine := 6, die := 0, desc := d, out := o } ∧ s.copyReq? 6 2 = some (9, l, { pos := 0, len := 128 }) ∧ cdMode d = 3 ∧ cdSrcRemote d = false ∧ cdPieces d 129 0 128 = [(0, 0, 128)] ∧
      addr64 (cdSrc d) = 0x40000 ∧ r = (.ok (eK ++ eK), r.2) := by unfold Copying; decide +kernel
theorem wit_Copies_failed : let d := cdN0 0 64; let o : Tbl CopyReq := [(2, { pos := 0, len := 64, fail := some 5 })]; let l := laX d o
    (sx l).copyReaches l { pos := 0, len := 64, fail := some 5 } = true ∧ ({ pos := 0, len := 64, fail := some 5 } : CopyReq).left = 0 ∧ Copying (sx l) 6 9 l { engine := 6, die := 0, desc := d, out := o } ∧ (sx l).copyReq? 6 2 = some (9, l, { pos := 0, len := 64, fail := some 5 }) := by unfold Copying; decide +kernel

/-! Links, flits and tunnels. -/

/-- A message from another module. -/
def m0 : Msg := { typ := 1, vc := 1, cls := 0, trapx := false, dst := 0, src := 7, va := 0x40000, part := 5, spart := 5, epoch := 0, tag := 1, run := 0, domain := 7, aux := 64, data := [] }
/-- Link 9 in a state, with full width, its lamps lit, its enable set. -/
def lk (st : Nat) (l : Link) : State :=
  lit ((({ gt := 5000000000, links := [(9, l)] } : State).setReg (lnkStat 9) (BitVec.ofNat 32 (0xFF00 + st + if st = 6 then 16 else 0))).setReg (lnkCtrl 9) 1)
theorem wit_Links_enable : (∀ st ∈ [0, 2, 6], Stored (lk st {}) (lnkCtrl 9)) ∧ (lk 0 {}).linkState 9 = lsDisabled ∧ (lk 0 {}).oeLit 9 = true ∧ (lk 0 {}).linkRetired 9 = false ∧ (lk 0 {}).linkLive 9 = false ∧ (lk 2 {}).linkState 9 ≠ lsDisabled ∧
    (lk 2 {}).linkLive 9 = false ∧ (lk 2 {}).mayTrain 9 = true := by unfold Stored; decide +kernel
theorem wit_Links_light : ∀ f ∈ [(255 : Byte), 0x0F, 0xF0], (lk 1 {}).linkState 9 = lsLight ∧ (widthFor (f &&& 0xFF).toNat ((lk 1 {}).bit (lnkCtrl 9) 3) (decide (9 < 8) && (lk 1 {}).bit (lnkCtrl 9) 2)).isSome = true := by
  decide +kernel
theorem wit_Links_dark : widthFor ((0x7F : Byte) &&& 0xF7).toNat ((lk 1 {}).bit (lnkCtrl 9) 3) (decide (9 < 8) && (lk 1 {}).bit (lnkCtrl 9) 2) = none := by decide +kernel
theorem wit_Links_train : ((lk 2 {}).linkState 9 = lsTrain ∧ (lk 2 {}).linkEth 9 = false) ∧ ((lk 3 {}).linkState 9 = lsAlign ∧ (lk 3 {}).lamp lampSecroot = true ∧ (lk 3 {}).lamp lampChart = true) ∧
    ((lk 3 {}).setReg rimLamps 0).lamp lampSecroot = false ∧ ((lk 3 {}).setReg rimLamps 0).linkState 9 = lsAlign ∧ (lk 4 {}).linkState 9 = lsSecure ∧ (lk 5 {}).linkState 9 = lsInit := by decide +kernel
theorem wit_Links_timeouts : (∀ st ∈ [1, 2, 3, 4, 5], (phaseLimit ((lk st {}).linkState 9)).isSome = true ∧ ∀ b, phaseLimit ((lk st {}).linkState 9) = some b → ((lk st {}).link 9).phaseGt + b ≤ (lk st {}).now) ∧
    (lk 8 {}).linkState 9 = lsFailed ∧ ((lk 8 {}).link 9).phaseGt + 10 ^ 9 ≤ (lk 8 {}).now ∧ (lk 8 {}).mayTrain 9 = true := by
  refine ⟨?_, by decide +kernel⟩
  have h : ∀ st ∈ [1, 2, 3, 4, 5], (phaseLimit ((lk st {}).linkState 9)).isSome = true ∧ ((lk st {}).link 9).phaseGt + (phaseLimit ((lk st {}).linkState 9)).getD 0 ≤ (lk st {}).now := by decide +kernel
  intro st hs
  refine ⟨(h st hs).1, fun b e => ?_⟩
  have h := (h st hs).2
  rw [e] at h
  exact h
theorem wit_Links_down : (∀ c ∈ [DownCause.discards, .noProgress, .noSignal], let s := lk 6 { discards := 16, replay := [(1, [m0])] }; s.linkUp 9 = true ∧ s.downCause 9 c = true ∧ s.mayTrain 9 = true) ∧
    let s := (lk 6 {}).setReg (lnkStat 9) 0x0E36; s.linkUp 9 = true ∧ s.downCause 9 .secondWavelength = true := by decide +kernel
theorem wit_Links_wavelength : (let s := lk 6 {}; s.linkUp 9 = true ∧ s.bit (lnkStat 9) 5 = false ∧ s.linkEth 9 = false ∧ s.bit (lnkCtrl 9) 3 = false ∧ s.waveOk 9 &&& 0xF0 = 0xF0) ∧
    let s := (lk 6 {}).setReg (lnkCtrl 9) 9; s.linkUp 9 = true ∧ s.bit (lnkStat 9) 5 = false ∧ s.bit (lnkCtrl 9) 3 = true := by decide +kernel
theorem wit_Links_recover : let s := lk 7 {}; s.linkState 9 = lsRecover ∧ s.waveOk 9 &&& s.lanesInUse 9 = s.lanesInUse 9 ∧ s.linkEth 9 = false := by decide +kernel
theorem wit_Links_limits : (let s := lk 8 { query := true, lost := [(1, [m0])] }; (s.link 9).query = true ∧ (s.link 9).downGt + 1000000 ≤ s.now) ∧
    (let s := lk 6 { tagGt := [1, 2, 3, 4, 5, 6, 7, 8] }; s.linkUp 9 = true ∧ 8 ≤ (s.link 9).tagGt.length ∧ (s.link 9).tagGt.getLastD 0 ≤ (s.link 9).tagGt.headD 0 + 1000000) ∧
    let s := lk 6 { keys := 1, slots := 2 ^ 32 }; (s.link 9).keys * 2 ^ 32 ≤ (s.link 9).slots := by decide +kernel
theorem wit_Flits_slots : (let s := lk 6 { resend := [(1, [m0])] }; s.linkUp 9 = true ∧ s.linkEth 9 = false ∧ (s.link 9).resend = [(1, [m0])]) ∧
    (let s := lk 6 { toSend := [m0], chunks := 153 }; s.linkUp 9 = true ∧ (s.link 9).toSend = [m0] ∧ (s.link 9).chunks ≤ 153 ∧ (s.link 9).replay.length < 512) ∧ ((lk 6 {}).link 9).resend = [] := by decide +kernel
/-- A data flit. -/
def f0 : Flit := { ftype := 1, seq := 5, kphase := false, ackSeq := 0, nak := false, credits := [], tx := 0, echo := 0, msgs := [m0], corrected := 0, fecOk := true, crcOk := true, tagOk := true }
theorem wit_Flits_receive : let s := lk 6 { rxSeq := 4 }; s.linkUp 9 = true ∧ s.linkEth 9 = false ∧ f0.seq = ((s.link 9).rxSeq + 1) % 2 ^ 24 ∧ (∀ m ∈ f0.msgs, knownType m.typ = true) ∧
    f0.seq ≠ (((lk 6 {}).link 9).rxSeq + 1) % 2 ^ 24 ∧ ({ f0 with crcOk := false } : Flit).crcOk = false := by decide +kernel
theorem wit_Flits_transmit : let b := { m0 with vc := 3 }; let f := creditField m0.vc m0.cls
    (let s := lk 6 { txq := [m0], limit := [(f, 2)] }; (s.link 9).txq = [m0] ∧ m0.vc ≤ 3 ∧ msgCredits m0 ≤ (s.link 9).credit f ∧ m0.src ≠ s.ownId) ∧
    (let s := lk 6 { txq := [{ m0 with vc := 0 }, b], limit := [(creditField b.vc b.cls, 2)] }; (s.link 9).txq = [{ m0 with vc := 0 }, b] ∧ b.src ≠ s.ownId ∧
      msgCredits b ≤ (s.link 9).credit (creditField b.vc b.cls)) ∧
    let s := lk 6 { txq := [m0] }; (s.link 9).credit f < msgCredits m0 := by decide +kernel
/-- Link 3 in Ethernet mode with its tunnel 2 valid. -/
def te3 (x : Tunnel) : State := (({ gt := 5000000000, links := [(3, { tunnels := [(2, x)] })] } : State).setReg (lnkStat 3) 0xFF96).setReg (lnkTun 3 2) 0x10000
/-- A frame. -/
def e0 (t : Bool) : EthFrame := { isData := true, ackOnly := false, seq := 5, ack := 0, txcnt := 0, credits := [], msgs := [m0], tagOk := t }
theorem wit_Tunnels : (let s := te3 { rxSeq := 4, keyed := true, up := true }; okTunnel 3 2 = true ∧ s.linkUp 3 = true ∧ s.linkEth 3 = true ∧ s.bit (lnkTun 3 2) 16 = true ∧
      (e0 true).seq = ((s.tunnel 3 2).rxSeq + 1) % 2 ^ 32 ∧ (s.tunnel 3 2).keyed = true ∧ (∀ m ∈ (e0 true).msgs, knownType m.typ = true) ∧ (e0 false).tagOk = false) ∧
    let s := te3 { unacked := [(1, [m0])] }; (s.tunnel 3 2).unacked = [(1, [m0])] ∧ (s.tunnel 3 2).sentGt + 50000 ≤ s.now ∧ (s.tunnel 3 2).progGt + 10 ^ 7 ≤ s.now ∧
      (s.linkUp 3 && s.linkEth 3 && s.bit (lnkTun 3 2) 16) = true ∧ ((s.setReg (lnkTun 3 2) 0).linkUp 3 && (s.setReg (lnkTun 3 2) 0).linkEth 3 && (s.setReg (lnkTun 3 2) 0).bit (lnkTun 3 2) 16) = false := by
  decide +kernel
theorem wit_Tunnels_announce : ∀ n ∈ [(0 : Nat), 4], let s := (te3 {}).setReg fabTime (BitVec.ofNat 32 n); (s.fld fabTime 0 3 ≠ 0 ↔ n = 4) ∧ s.parentLink = none := by decide +kernel

/-! Messages, answers, control, collectives. -/

/-- Message `m` at link 9 of a module whose partition 5 runs, with bytes at 0x40000. -/
def sm (m : Msg) (ls : Tbl Launch) : State := let s := pw ls []; { s with mem := msetBytes s.mem 0x40000 (eK ++ eK), links := [(9, { rxq := [m] })] }
/-- The same once the message has been taken. -/
def um (s : State) (m : Msg) : State := (s.takeMsg 9 m).getD s
/-- The message arrives. -/
def Arr (s : State) (m : Msg) (typ : Nat) : Prop := Arrives s 9 m typ (um s m)
theorem wit_Requests_read : let s := sm m0 []; let u := um s m0; let r := u.translSpan 5 0x40000 64 .read
    Arr s m0 mRd ∧ u.reqErr m0 = none ∧ getBits m0.aux.toNat 0 9 = 64 ∧ r = (.ok [({ tgt := .hbm 0x40000, mt := false, ea := true, w := true }, 64)], r.2) ∧ r.2.poisoned 0x40000 64 = false := by
  unfold Arr Arrives; decide +kernel
theorem wit_Requests_write : ∀ t ∈ [mWr, mWrf], let m := { m0 with typ := t, data := [1, 2, 3, 4] }; let s := sm m []; let u := um s m; let r := u.translSpan 5 0x40000 4 .write
    Arr s m t ∧ u.reqErr m = none ∧ r = (.ok [({ tgt := .hbm 0x40000, mt := false, ea := true, w := true }, 4)], r.2) := by unfold Arr Arrives; decide +kernel
/-- The same page made Device-Strict, with EA 0. -/
theorem wit_Requests_write_strict : ∀ t ∈ [mWr, mWrf], let m := { m0 with typ := t, data := [1, 2, 3, 4] }; let s := { sm m [] with mem := msetBytes (sm m []).mem 0x5F000000 (leBytes 8 0x1F) }
    let u := um s m; let r := u.translSpan 5 0x40000 4 .write
    Arr s m t ∧ u.reqErr m = none ∧ r = (.ok [({ tgt := .hbm 0x40000, mt := true, ea := false, w := true }, 4)], r.2) := by unfold Arr Arrives; decide +kernel
theorem wit_Requests_atomic : ∀ a ∈ [(0 : Nat), 16], let m := { m0 with typ := mAtom, aux := BitVec.ofNat 64 a, data := [1, 0, 0, 0] }; let s := sm m []; let u := um s m; let r := u.transl 5 0x40000 .write
    Arr s m mAtom ∧ u.reqErr m = none ∧ getBits m.aux.toNat 5 1 = 0 ∧ m.va % 4 = 0 ∧ r = (.ok { tgt := .hbm 0x40000, mt := false, ea := true, w := true }, r.2) ∧ r.2.poisoned 0x40000 4 = false := by
  unfold Arr Arrives; decide +kernel
theorem wit_Requests_refused : (let m := { m0 with part := 6 }; Arr (sm m []) m mRd ∧ (um (sm m []) m).partRuns m.part = false) ∧
    ∀ d ∈ [0, 8], let m := { m0 with domain := d }; let u := um (sm m []) m; Arr (sm m []) m mRd ∧ u.partRuns m.part = true ∧ (m.domain = 0 ∨ m.domain ≠ u.domainOf m.part) := by
  unfold Arr Arrives; decide +kernel
theorem wit_Requests_forwarded : let m := { m0 with dst := 4 }
    let s := { sm m [] with links := [(9, { rxq := [m] }), (10, {})], chart := { (sm m []).chart with routes := { ovr := [(4, 4, 2 ^ 10)] } }, regs := tset (sm m []).regs (lnkStat 10) 0xFF16 }
    okLink 9 = true ∧ m ∈ (s.link 9).rxq ∧ m.dst ≠ s.ownId ∧ isGroupId m.dst = false ∧ ((um s m).chart.routes.mask (um s m).ownId m.dst).map (·.1) = some (2 ^ 10) ∧
      ((um s m).exitLink 0 m (some 9)).map (·.1) = some 10 ∧ (m0 ∉ (s.link 9).rxq ∧ m0 ∉ (s.die 0).loop) := by decide +kernel
/-- A request of launch 9 that waits for its answer. -/
def q0 (kind typ : Nat) : RReq := { lanes := [(3, 0x40000)], part := 5, epoch := 0, launch := 9, run := 0, core := 2, load := 0, dst := 7, gt := 1000000, kind := kind, msg := { m0 with typ := typ, dst := 7, src := 0, aux := if typ = mAtom then 16 else 64 } }
/-- The load that it is of. -/
def ldR (typ : Nat) : Load := { ldOut with remote := true, bound := some [], reads := [{ lane := 3, va := 0x40000, tgt := .remote (msgAddr (q0 0 typ).msg), width := 4 }] }
/-- An answer to it at link 9, in a state that holds the request, launch 9 and its outstanding load 0. -/
def sa (kind typ : Nat) (a : Msg) (l : Launch) : State :=
  let d : Die := if kind = 0 then { reads := [(1, q0 kind typ)] } else { tracks := [(1, q0 kind typ)] }
  { sm a [(9, l)] with
      dies := [(0, d)]
      cores := [(2, { core0 0 grp0 blk0 with loads := [(0, ldR typ)] })] }
/-- The answer. -/
def a0 (typ : Nat) (data : List Byte) : Msg := { m0 with typ := typ, src := 7, dst := 0, data := data }
theorem wit_Answers_data : let a := a0 mRdrsp [1, 2, 3, 4]; let s := sa 0 mRd a laK; let u := um s a
    Arr s a mRdrsp ∧ u.answered a = some (0, q0 0 mRd) ∧ u.runLives (q0 0 mRd) = true ∧ tfind (u.core 2).loads 0 = some (ldR mRd) ∧ (q0 0 mRd).msg.typ = mRd ∧ NoOuts u := by unfold Arr Arrives NoOuts; decide +kernel
theorem wit_Answers_old_word : let a := a0 mAtomrsp [1, 2, 3, 4]; let s := sa 0 mAtom a laK; let u := um s a
    Arr s a mAtomrsp ∧ u.answered a = some (0, q0 0 mAtom) ∧ u.runLives (q0 0 mAtom) = true ∧ tfind (u.core 2).loads 0 = some (ldR mAtom) ∧ NoOuts u := by
  unfold Arr Arrives NoOuts; decide +kernel
theorem wit_Answers_acknowledged : ∀ k ∈ [1, 2], let l := laC 1 .sent false; let a := a0 mAck []; let s := sa k mWr a l; let u := um s a
    Arr s a mAck ∧ u.mcFind (dieOfLink 9) a.tag a.dst = none ∧ u.answered a = some (0, q0 k mWr) ∧ Lives u (q0 k mWr) l ∧ l.cq.length = 1 ∧ (q0 k mWr).bad = [] ∧ (q0 k mWr).msg.trapx = false ∧ NoOuts u := by
  unfold Arr Arrives Lives NoOuts; decide +kernel
theorem wit_Answers_multicast : let a := a0 mAck []; let r : McRec := { tag := 1, up := some 11, left := 1, src := { m0 with src := 0 } }
    let s := { sm a [] with dies := [(0, { mcast := [(3, r)] })] }; a ∈ (s.link 9).rxq ∧ (s.takeMsg 9 a).isSome = true ∧ s.mcFind (dieOfLink 9) a.tag a.dst = some (3, r) ∧ r.bad = none ∧ r.ring = none := by
  decide +kernel
/-- The copy came across the ring from die 1, whose record 5 waits for two branches. -/
theorem wit_Answers_multicast_ring : let a := a0 mAck []; let r : McRec := { tag := 1, up := none, ring := some (1, 5), left := 1, src := { m0 with src := 0 } }
    let p : McRec := { tag := 1, up := some 11, left := 2, src := m0 }; let s := { sm a [] with dies := [(0, { mcast := [(3, r)] }), (1, { mcast := [(5, p)] })] }
    a ∈ (s.link 9).rxq ∧ (s.takeMsg 9 a).isSome = true ∧ s.mcFind (dieOfLink 9) a.tag a.dst = some (3, r) ∧ r.bad = none ∧ 1 ≠ dieOfLink 9 ∧ tfind ((um s a).die 1).mcast 5 = some p ∧ 1 < p.left := by
  decide +kernel
theorem wit_Answers_refused : ∀ k ∈ [0, 1], let a := a0 mNack []; let s := sa k mWr a laK; let u := um s a
    Arr s a mNack ∧ u.mcFind (dieOfLink 9) a.tag a.dst = none ∧ u.answered a = some (0, q0 k mWr) ∧ Lives u (q0 k mWr) laK ∧ laK.committing = false ∧ NoOuts u ∧ (q0 k mWr).lanes ≠ [] := by
  unfold Arr Arrives Lives NoOuts; decide +kernel
theorem wit_Answers_refused_load : let a := a0 mNack []; let s := sa 0 mWr a laK; let u := um s a; LoadAsked u (q0 0 mWr) (ldR mWr) ∧ LastRefusal (q0 0 mWr) (ldR mWr) := by
  unfold LoadAsked LastRefusal; decide +kernel
theorem wit_Answers_refused_store : let a := a0 mNack []; let s := sa 1 mWr a laK; let u := um s a; ∀ e ∈ u.dies, ∀ y ∈ e.2.tracks, (e.1 = 0 ∧ y.1 = a.tag) ∨ (q0 1 mWr).fellow y.2 = false := by decide +kernel
/-- Another lane's message of that load is still unanswered. -/
theorem wit_Answers_refused_first : let a := a0 mNack []; let l := { ldR mRd with reads := (ldR mRd).reads ++ [{ lane := 4, va := 0x50000, tgt := .remote 7, width := 4 }] }
    let s := onCore (fun p => { p with loads := [(0, l)] }) (sa 0 mRd a laK); let u := um s a
    Arr s a mNack ∧ u.mcFind (dieOfLink 9) a.tag a.dst = none ∧ u.answered a = some (0, q0 0 mRd) ∧ Lives u (q0 0 mRd) laK ∧ LoadAsked u (q0 0 mRd) l ∧ (refusedLoad (q0 0 mRd) l).complete = false ∧ NoOuts u := by
  unfold Arr Arrives Lives NoOuts LoadAsked; decide +kernel
theorem wit_Answers_unasked : ∀ t ∈ [mRdrsp, mAtomrsp, mAck, mNack], let a := a0 t []; Arr (sm a []) a t ∧ (um (sm a []) a).mcFind (dieOfLink 9) a.tag a.dst = none ∧ (um (sm a []) a).answered a = none := by
  unfold Arr Arrives; decide +kernel
theorem wit_Answers_late : let q := { q0 0 mRd with link := some 9 }; let t := sa 0 mRd (a0 mAck []) laK; let s := { t with dies := [(0, { reads := [(1, q)] })] }
    tfind (s.die 0).reads 1 = some q ∧ q.link.isSome = true ∧ q.gt + 2000000 ≤ s.now ∧ Lives s q laK ∧ laK.committing = false ∧ LoadAsked s q (ldR mRd) ∧ LastRefusal q (ldR mRd) ∧ NoOuts s ∧
    ({ s with gt := 2999999 } : State).now < q.gt + 2000000 ∧ (q0 0 mRd).link = none ∧ tfind (t.die 0).reads 1 = some (q0 0 mRd) := by unfold Lives NoOuts LoadAsked LastRefusal; decide +kernel
theorem wit_Control_messages : (∀ t ∈ [mTime, mKeyx], Arr (sm (a0 t []) []) (a0 t []) t ∧ (um (sm (a0 t []) []) (a0 t [])).linkEth 9 = false) ∧
    let a := { a0 mLstate [] with aux := 4 }; Arr (sm a []) a mLstate ∧ getBits a.aux.toNat 0 2 = 0 := by unfold Arr Arrives; decide +kernel
/-- A KEYX at link 9 in Ethernet mode, of a module with owner `o`, whose key the message does not hold. -/
def kx (o : Option (BitVec 384)) : State := { (sm (a0 mKeyx []) []).setReg (lnkStat 9) 0xFF96 with sec := { owner := o } }
theorem wit_Control_keyx_unowned : Arr (kx none) (a0 mKeyx []) mKeyx ∧ (um (kx none) (a0 mKeyx [])).linkEth 9 = true ∧ (um (kx none) (a0 mKeyx [])).keyxOk (a0 mKeyx []) = false := by
  unfold Arr Arrives; decide +kernel
theorem wit_Control_keyx_foreign : Arr (kx (some 5)) (a0 mKeyx []) mKeyx ∧ (um (kx (some 5)) (a0 mKeyx [])).linkEth 9 = true ∧ (um (kx (some 5)) (a0 mKeyx [])).keyxOk (a0 mKeyx []) = false := by
  unfold Arr Arrives; decide +kernel
/-- A query of link 10, about the session that ended at `g`, and a state where link 10 keeps what it had accepted. -/
def lq (g : Nat) : Msg := { a0 mLstate (leBytes 8 g) with aux := 1 + 4 * 10 }
def lks (g up : Nat) (x : List (Nat × Nat × Nat)) : State := { sm (lq g) [] with links := [(9, { rxq := [lq g] }), (10, { upGt := up, kept := x })] }
theorem wit_Control_query_up : let s := (lks 4000000 0 []).setReg (lnkStat 10) 0xFF16; let u := um s (lq 4000000)
    Arr s (lq 4000000) mLstate ∧ getBits (lq 4000000).aux.toNat 0 2 = 1 ∧ getBits (lq 4000000).aux.toNat 2 6 = 10 ∧ leNat (slice (lq 4000000).data 0 8) = 4000000 ∧ u.linkLive 10 = true ∧ (u.link 10).upGt ≤ 4000000 := by
  unfold Arr Arrives; decide +kernel
theorem wit_Control_query_down : let s := lks 4000000 0 [(6, 3000000, 4000000)]; let u := um s (lq 4000000)
    Arr s (lq 4000000) mLstate ∧ u.linkLive 10 = false ∧ (u.link 10).kept = [(6, 3000000, 4000000)] ∧ u.now ≤ 4000000 + 10 ^ 7 ∧ 4000000 + 10 ^ 7 < (um { s with gt := 14000001 } (lq 4000000)).now := by
  unfold Arr Arrives; decide +kernel
theorem wit_Control_query_later_session : let s := (lks 4000000 4500000 [(6, 3000000, 4000000)]).setReg (lnkStat 10) 0xFF16; let u := um s (lq 4000000)
    Arr s (lq 4000000) mLstate ∧ u.linkLive 10 = true ∧ 4000000 < (u.link 10).upGt ∧ (u.link 10).kept = [(6, 3000000, 4000000)] := by unfold Arr Arrives; decide +kernel
/-- An answer to link 10's query of its loss 4. -/
def la4 : Msg := { a0 mLstate [] with aux := 2 + 4 * 10 + 2 ^ 8 * 3 + 2 ^ 32 * 4 }
/-- It arrives where link 10 is as `l`. -/
def sl4 (l : Link) : State := { sm la4 [] with links := [(9, { rxq := [la4] }), (10, l)] }
theorem wit_Control_answer_unasked : ∀ g ∈ [(4 : Nat), 5], let u := um (sl4 { gen := g, query := g == 5 }) la4
    Arr (sl4 { gen := g, query := g == 5 }) la4 mLstate ∧ 2 ≤ getBits la4.aux.toNat 0 2 ∧ (((u.link 10).gen = getBits la4.aux.toNat 32 16 ↔ g = 4) ∧ (g = 4 → (u.link 10).query = false)) ∧ (u.link 10).older = [] := by
  unfold Arr Arrives; decide +kernel
theorem wit_Control_answer : let s := sl4 { gen := 4, query := true, lost := [(3, [m0])] }; let u := um s la4
    Arr s la4 mLstate ∧ getBits la4.aux.toNat 2 6 = 10 ∧ (u.link 10).query = true ∧ (u.link 10).gen = getBits la4.aux.toNat 32 16 ∧ (coverAck (u.link 10).lost (getBits la4.aux.toNat 8 24)).flatMap (·.2) = [] := by
  unfold Arr Arrives; decide +kernel
/-- A descriptor of a collective: two contributors, 16 sums of FP32. -/
def cl0 : List Byte := [1, 0, 0, 0, 2, 0, 0, 0] ++ leBytes 4 16 ++ List.replicate 4 0 ++ leBytes 8 0x60000 ++ leBytes 8 0x70000 ++ List.replicate 32 0
/-- Virtual function 5's descriptor of slot 3 at 0x40000, with these slots of partition 5. -/
def sl (d : List Byte) (c : Tbl Coll) : State :=
  let s := (pw [] []).setReg (vfKey 5 vfCbase) (0x40000 - 192)
  { s with mem := msetBytes s.mem 0x40000 d, parts := [(5, { coll := c })] }
theorem wit_Collectives_arm : ∀ d ∈ [cl0, 0 :: cl0.drop 1], let s := sl d []; let r := s.fetchBytes 5 0x40000 64
    s.vfOpen 5 = true ∧ s.vfPart 5 = some 5 ∧ s.reg64 (vfKey 5 vfCbase) % 64 = 0 ∧ s.reg64 (vfKey 5 vfCbase) + 64 * 3 = 0x40000 ∧ r = (.ok d, r.2) ∧ collDescOk d = (d.headD 0 == 1) ∧
      (r.2.die (r.2.leadDie 5)).collRetired = false ∧ (r.2.collUsed (r.2.leadDie 5) 5 3).1 < 1024 ∧ (r.2.collUsed (r.2.leadDie 5) 5 3).2 + (collOf d 0x40000).nelem ≤ 524288 := by decide +kernel
theorem wit_Collectives_arm_full : let s := sl cl0 [(8, { collOf cl0 0 with nelem := 524288 })]; let r := s.fetchBytes 5 0x40000 64
    s.vfOpen 5 = true ∧ r = (.ok cl0, r.2) ∧ 524288 < (r.2.collUsed (r.2.leadDie 5) 5 3).2 + (collOf cl0 0x40000).nelem ∧ ((pw [] []).setReg (vfKey 5 vfCbase) 8).reg64 (vfKey 5 vfCbase) % 64 ≠ 0 := by decide +kernel
/-- A contribution of contributor 0 to slot 3. -/
def ct0 (trapx : Bool) : Msg := { m0 with typ := mContrib, va := 0x3E000000000 + 2 ^ 28 * 3, trapx := trapx, data := List.replicate 64 0 }
/-- Its state, with slot 3. -/
def st3 (m : Msg) (c : Tbl Coll) : State := { sm m [] with parts := [(5, { coll := c })] }
theorem wit_Collectives_contribute : ∀ x ∈ [false, true], ∀ f ∈ [false, true], let c := { collOf cl0 0 with got := if f then [2 ^ 24] else [] }; let m := ct0 x; let s := st3 m [(3, c)]; let u := um s m
    Arr s m mContrib ∧ Across s 9 m ∧ u.reqErr m = none ∧ (u.die (u.leadDie m.part)).collRetired = false ∧ inCollective m.va = true ∧ getBits m.va 28 8 = 3 ∧ u.coll? m.part 3 = some c ∧ c.closing = false ∧
      c.covers m.va m.data.length = true ∧ m.trapx = x ∧ (c.receive m.va m.data m.aux).full = f := by unfold Arr Arrives Across; decide +kernel
theorem wit_Collectives_refused : (let m := { ct0 false with va := 0x40000 }; Arr (st3 m []) m mContrib ∧ Across (st3 m []) 9 m ∧ inCollective m.va = false) ∧
    (let m := ct0 false; Arr (st3 m []) m mContrib ∧ Across (st3 m []) 9 m ∧ (um (st3 m []) m).coll? m.part 3 = none ∧
      let s := st3 m [(3, { collOf cl0 0 with closing := true })]; Arr s m mContrib ∧ Across s 9 m ∧ ((um s m).coll? m.part 3).map (·.closing) = some true) ∧
    let m := { ct0 false with data := [1] }; let s := st3 m [(3, collOf cl0 0)]
    Arr s m mContrib ∧ Across s 9 m ∧ ((um s m).coll? m.part 3).map (fun c => (c.closing, c.covers m.va m.data.length)) = some (false, false) := by unfold Arr Arrives Across; decide +kernel

/-! The host port. -/

theorem wit_Host_aperture : let s := lit (qe eK {} []); ApertureOpen s 5 5 0x40000 64 ∧ (s.apBase 5 = 0) ∧ (∀ a ∈ [TAcc.read, .write], let r := s.translSpan 5 0x40000 64 a
    r = (.ok [({ tgt := .hbm 0x40000, mt := false, ea := true, w := true }, 64)], r.2)) := by unfold ApertureOpen AtBar2; decide +kernel
theorem wit_Host_closed : (∀ x ∈ [({ reset := 1 } : Part), { tdi := 3 }], let s := { lit (pw [] []) with parts := [(5, x)] }
      AtBar2 s 5 0x40000 64 ∧ s.partOf 5 = some 5 ∧ ((s.part 5).reset ≠ 0 ∨ (s.part 5).tdi = 3)) ∧
    let s := (lit (pw [] [])).setReg rimLamps (0x7FFFFFFF &&& ~~~(BitVec.ofNat 32 (2 ^ lampDie 0)))
    AtBar2 s 5 0x40000 64 ∧ s.partOf 5 = some 5 ∧ 0 ∈ entDies (s.ent 5) ∧ s.rimPath 0 = none := by unfold AtBar2; decide +kernel
theorem wit_Host_exposed : let s := { pw [] [] with parts := [(5, { tdi := 2 })] }; s.lamp lampPcie = true ∧ s.vfExists 5 = true ∧ s.host.d3.contains 5 = false ∧ 0x40000 + 64 ≤ 2 ^ s.bar2Log 5 ∧ s.exposed 5 = true ∧ s.partOf 5 = some 5 := by
  decide +kernel
theorem wit_Host_unmapped : let s := { lit (pw [] []) with mem := msetBytes [] 0x5F000000 (leBytes 8 0) }; let r := s.translSpan 5 0x40000 64 .read
    ApertureOpen s 5 5 0x40000 64 ∧ r = (.error .translation, r.2) := by unfold ApertureOpen AtBar2; decide +kernel
theorem wit_Host_tables : let s := (lit {}).setReg (hbmStat 3) 1
    s.lamp lampPcie = true ∧ s.host.d3.contains 0 = false ∧ s.chanRetired 3 = false ∧ s.trained 3 = true ∧ s.lockedTable (3 * 2 ^ 31 + 0x5F000000 + 64) 8 = none ∧
      (({ s with parts := [(5, { tdi := 2, locked := [(3 * 2 ^ 31 + 0x5F000000, 4096)] })] } : State).lockedTable (3 * 2 ^ 31 + 0x5F000000 + 64) 8).isSome = true := by decide +kernel
theorem wit_Host_vectors : (pw [] []).vfOpen 5 = true ∧ (pw [] []).host.d3.contains 0 = false ∧ let s := { pw [] [] with parts := [(5, { tdi := 2 })] }; s.vfPart 5 = some 5 ∧ (s.part 5).tdi = 2 := by decide +kernel
theorem wit_Functions_flr : (let s := pw [] []; s.vfExists 5 = true ∧ tfind s.host.flr 5 = none ∧ s.partOf 5 = some 5 ∧ (s.part 5).reset = 0 ∧ s.vfExists 6 = true ∧ s.partOf 6 = none) ∧
    (∀ r ∈ [1, 2, 3], let s := { pw [] [] with host := { vfEnable := true, numVFs := 8, flr := [(5, (1, 7))] }, parts := [(5, { reset := r, rekey := true })] }
      tfind s.host.flr 5 = some (1, 7) ∧ s.partOf 5 = some 5 ∧ (s.part 5).reset = r ∧ (s.part 5).rekey = true) ∧
    let s : State := { host := { vfEnable := true, numVFs := 8, flr := [(5, (3, 7))] } }; tfind s.host.flr 5 = some (3, 7) := by decide +kernel
theorem wit_Functions_removed : (lit (pw [] [])).lamp lampPcie = true ∧ (lit (pw [] [])).host.vfEnable = true ∧ (lit (pw [] [])).partOf 5 = some 5 ∧ (State.reset).lamp lampPcie = false ∧
    (let s := cb (lit (pw [] [])); s.bit chartStatus 0 = true ∧ s.bit chartCtrl 0 = true ∧ s.chart.image = []) := by decide +kernel

/-! The reset state, and commands that name no unit. -/

theorem wit_Idle : State.reset.pending = [] ∧ State.reset.hostOwes = false ∧ ∀ x ∈ [(0x01 : Nat), 0x03, 0x0F, 0x04, 0x4001], let s := State.reset.setReg (pmSel 9 2) (BitVec.ofNat 32 x)
    s.pending = [] ∧ s.hostOwes = false ∧ s.Canon ∧ s.bit (pmCtrl 9) 0 = false ∧ s.bit (pmCtrl 9) 1 = false ∧ s.reg64 (pmc 9 2) < 2 ^ 48 - 16 ∧ s.fld (pmSel 9 2) 0 8 = x % 256 ∧ s.bit (pmSel 9 2) 14 = decide (0x4000 ≤ x) := by
  unfold State.Canon; decide +kernel
theorem reset_canon : State.reset.Canon := by unfold State.Canon; decide +kernel
theorem reset_pins : State.reset.PinsOk := by
  refine ⟨by decide +kernel, by decide +kernel, fun k hk => ?_, fun k r hk h => ?_, by decide +kernel⟩
  · show (tfind ([] : Tbl LogRec) k).isSome = true ↔ k < 0
    simp [tfind]
  · exact absurd (show tfind ([] : Tbl LogRec) k = some r from h) (by simp [tfind])
/-- The command stops with fault `f`. -/
def stops (i : Instr) (f : Fault) : Bool := match exec i State.reset with
  | .fault x => x == f
  | _ => false
/-- Each check of `Instr.wf` refuses a term that breaks it, and `exec` stops there by name. -/
theorem test_wf_refuses : ∀ i ∈ [Instr.barrierOpen ⟨1632, 0, 0⟩, .barrierOpen ⟨0, 4, 0⟩, .barrierOpen ⟨0, 0, 16⟩, .ctlNop ⟨0, 4, 0⟩ 0, .coreStallRetire 1632, .groupEnterActive 0 4, .splitChange 0 5,
    .dbTailWrite 1 256 0, .dbTailWrite 0 0 0, .flr 0, .flr 65, .preload 64 0, .preload 0 256, .chartActivate 64, .hangCheck 4, .l2CorrectableError 0 32 0, .l2WayDisable 0 16, .hbmRequestServe 256 .clean,
    .telemetryRead 8 0, .copyRequest 64, .d2dLinkFail 4, .lnkRetrain 48, .wavelengthFail 0 8, .tunnelDown 8 0, .tunnelDown 0 64, .msixUnmask 0 2048, .msixUnmask 1 64, .thermalRead 36 [], .lampLight 64,
    .engineRetire .digest 4, .engineRetire .link 48, .engineRetire .mram 32768, .traceBufferDrain 0x660, .pmcOverflow 0 8, .pmselWrite 67 0 0 0, .pairLoRead 67 0 .plain, .vfRemove 65],
    i.wf = false ∧ stops i .noSuchUnit = true := by decide +kernel
theorem test_wf_wrong_word : (Instr.ctlExit ⟨0, 0, 0⟩ 0).wf = false ∧ stops (.ctlExit ⟨0, 0, 0⟩ 0) .wrongWord = true ∧ (Instr.ctlNop ⟨0, 0, 0⟩ 0).wf = true := by decide +kernel

/-! Interfaces and attestation. -/

/-- Partition 5 with its function, all lamps of the module lit, and what the security root holds. -/
def se (x : Part) (c : Security) : State := { lit (pw [] []) with parts := [(5, x)], sec := c }
/-- Sessions: 4 is established, 6 is not. -/
def ses : Security := { doe := [(4, { ready := true }), (6, {})], mctp := [(4, { ready := true }), (6, {})] }
theorem wit_Interfaces_lock : let s := se {} ses; okVf 5 = true ∧ Established s 4 { ready := true } 5 5 ∧ (s.part 5).tdi = 0 ∧ s.bit (partStat 5) 0 = true ∧ s.bit secStat 1 = false ∧
    s.bit secStat 2 = false ∧ (s.part 5).reset = 0 := by unfold Established; decide +kernel
/-- A locked interface, which START takes too. -/
theorem wit_Interfaces_locked : Established (se { tdi := 1 } ses) 4 { ready := true } 5 5 ∧ ((se { tdi := 1 } ses).part 5).tdi = 1 := by unfold Established; decide +kernel
theorem wit_Interfaces_not_lockable : (∀ v ∈ [(2 : Nat), 4], let s := (se {} ses).setReg secStat (BitVec.ofNat 32 v); Established s 4 { ready := true } 5 5 ∧ (s.bit secStat 1 = true ∨ s.bit secStat 2 = true)) ∧
    let s := (se {} ses).setBit (partStat 5) 0 false; Established s 4 { ready := true } 5 5 ∧ s.bit (partStat 5) 0 = false := by unfold Established; decide +kernel
theorem wit_Interfaces_streams : ∀ k ∈ [false, true], let x : IdeStream := { keyed := k, enabled := true, rid := 0x50005 }; let s := { se {} ses with host := { vfEnable := true, numVFs := 8, streams := [(2, x)] } }
    s.spdmUp .doe = true ∧ tfind s.sec.doe 4 = some { ready := true } ∧ tget {} s.host.streams 2 = x ∧ tfind s.sec.doe 5 = none := by decide +kernel
theorem wit_Sessions : ∀ tp ∈ [Transport.doe, .mctp], (let s := se {} ses; s.spdmUp tp = true ∧ tfind (s.sessions tp) 5 = none ∧ (s.sessions tp).length < 4 ∧
      tfind (s.sessions tp) 6 = some {} ∧ tfind (s.sessions tp) 4 = some { ready := true }) ∧
    let c : Tbl Session := [(1, {}), (2, {}), (3, {}), (4, {})]; let s := se {} { doe := c, mctp := c }
    s.spdmUp tp = true ∧ tfind (s.sessions tp) 5 = none ∧ 4 ≤ (s.sessions tp).length := by decide +kernel
theorem wit_Sessions_dark : State.reset.spdmUp .doe = false := by decide +kernel

/-! Presence, tamper and the mailbox. -/

/-- Presence in state `st`, with its count and its run of disagreements. -/
def ps (st n d : Nat) : State := ({ sec := { presCount := n, presD := d } } : State).setReg secStat (BitVec.ofNat 32 (8 * st))
theorem wit_Presence_states : ∀ st ∈ [prAbsent, prArming, prPresent, prFault], (ps st 3 0).boot.auxUp = true ∧ (ps st 3 0).fld secStat 3 2 = st ∧ (ps st 3 0).sec.presD < 50 := by decide +kernel
theorem wit_Presence_fault : (ps prArming 3 50).boot.auxUp = true ∧ (ps prArming 3 50).fld secStat 3 2 ≠ prFault ∧ (ps prArming 3 50).sec.presD = 50 := by decide +kernel
theorem wit_Presence_counts : ∀ st ∈ [prArming, prFault], (ps st 999 0).boot.auxUp = true ∧ (ps st 999 0).fld secStat 3 2 = st ∧ (ps st 999 0).sec.presCount = 999 := by decide +kernel
theorem wit_Tamper : ({ sec := { tamperDue := true } } : State).sec.tamperDue = true ∧ State.reset.sec.tamperDue = false := by decide +kernel
/-- Mailbox command `op` runs with this request; SEC_STAT holds `v`. -/
def mb (v op : Nat) (req : List Byte) (c : Security) : State := ((lit { sec := { c with op := op, req := req }, gt := 5000 }).setReg mbxStat 1).setReg secStat (BitVec.ofNat 32 v)
theorem wit_Mailbox_nonce : (mb 0 1 [] {}).mbxRuns 1 = true ∧ (mb 0 1 [] {}).sec.req = [] ∧ (mb 0 1 [7] {}).mbxRuns 1 = true ∧ (mb 0 1 [7] {}).sec.req ≠ [] ∧ (mb 0 2 [] {}).mbxRuns 1 = false := by
  decide +kernel
theorem wit_Mailbox_lock : ∀ v ∈ [(0 : Nat), 4], (mb v 4 [] {}).mbxRuns 4 = true ∧ (mb v 4 [] {}).sec.req = [] ∧ (mb v 4 [] {}).bit secStat 2 = (v == 4) := by decide +kernel
/-- The request of FW_STAGE. The verdict on a signature is the module's own, which no theorem fixes. -/
def fwr : List Byte := leBytes 8 0x40000 ++ leBytes 4 4096
theorem wit_Mailbox_stage : ∀ v ∈ [(0 : Nat), 16], let s := (mb v 5 fwr {}).setReg secFwsvn 0x20000
    s.mbxRuns 5 = true ∧ s.sec.accepted = none ∧ s.sec.req.length = 12 ∧ 0 < numAt s.sec.req 8 4 ∧ numAt s.sec.req 8 4 ≤ 2 ^ 23 ∧ s.fld secFwsvn 16 16 = 2 ∧ s.present = (v == 16) := by decide +kernel
theorem wit_Mailbox_complete : (let s := mb 0 1 [] { mbx := some (0, leBytes 32 9) }; s.bit mbxStat 0 = true ∧ s.lamp lampSecroot = true ∧ s.sec.mbx = some (0, leBytes 32 9) ∧ (leBytes 32 9).length ≤ 4096) ∧
    ∀ op ∈ [0, 8], let s := mb 0 op [] {}; s.bit mbxStat 0 = true ∧ s.lamp lampSecroot = true ∧ s.sec.mbx = none ∧ (s.sec.op < 1 ∨ 7 < s.sec.op) := by decide +kernel
/-- A LOG_CLEAR request that presents nonce 9, and a debug token but for the module's digest. -/
def lcr : List Byte := leBytes 32 9 ++ leBytes 4 1
theorem wit_Gated_asked : ∀ v ∈ [(0 : Nat), 16], (∀ a ∈ [(2, 193), (7, 0)], Asked (mb v a.1 (List.replicate a.2 1) { nonce := some (9, 100) }) a.1 a.2) ∧
    (let s := mb v 6 lcr { nonce := some (9, 100) }; Asked s 6 36 ∧ numAt s.sec.req 32 4 = 1 ∧ s.sec.nonce = some (9, 100) ∧ (9 : BitVec 256).toNat = numAt s.sec.req 0 32 ∧ s.now ≤ 100 + 60 * 10 ^ 9 ∧
      100 + 60 * 10 ^ 9 < ({ s with gt := 60000000101 } : State).now ∧ s.present = (v == 16)) := by unfold Asked; decide +kernel
/-- A debug token for the digest `d`, with nonce 9 and scope 5. -/
def dtok (d : Nat) : List Byte := leBytes 4 0x4B5A4455 ++ leBytes 4 5 ++ leBytes 16 d ++ leBytes 32 9 ++ leBytes 8 0 ++ List.replicate 96 0
theorem wit_Gated_token : ∀ v ∈ [(0 : Nat), 16], let s := mb v 3 (dtok 77) { nonce := some (9, 100), owner := some 5 }
    Asked s 3 160 ∧ numAt s.sec.req 0 4 = 0x4B5A4455 ∧ numAt s.sec.req 4 4 < 8 ∧ numAt s.sec.req 0x38 8 = 0 ∧ numAt s.sec.req 8 16 = 77 ∧ s.sec.nonce = some (9, 100) ∧
      (9 : BitVec 256).toNat = numAt s.sec.req 0x18 32 ∧ s.now ≤ 100 + 60 * 10 ^ 9 ∧ s.sec.owner = some 5 ∧ s.present = (v == 16) := by unfold Asked; decide +kernel
theorem wit_Gated_accepted : ∀ v ∈ [(0 : Nat), 18], ∀ op ∈ [2, 3, 6, 7], let s := mb v op (List.replicate 193 1) { accepted := some op }
    s.mbxRuns op = true ∧ s.sec.accepted = some op ∧ s.sec.begun = false ∧ s.present = (v == 18) ∧ s.sec.owner = none := by decide +kernel
theorem wit_Gated_begun : ∀ op ∈ [2, 3], let s := mb 16 op (List.replicate 193 1) { accepted := some op, begun := true, owner := some 5 }
    s.mbxRuns op = true ∧ s.sec.accepted = some op ∧ s.sec.begun = true ∧ s.sec.owner = some 5 ∧ s.allStopped = true := by decide +kernel
theorem wit_Gated_waits : ∀ op ∈ [2, 3], let s := { mb 16 op (List.replicate 193 1) { accepted := some op, owner := some 5 } with chart := { applying := true } }
    s.mbxRuns op = true ∧ s.sec.accepted = some op ∧ s.sec.begun = false ∧ s.present = true ∧ s.sec.owner = some 5 ∧ s.chart.applying = true := by decide +kernel
theorem wit_Gated_unowned : let s := mb 16 3 (dtok 77) { nonce := some (9, 100) }; Asked s 3 160 ∧ s.present = true ∧ s.sec.owner = none := by unfold Asked; decide +kernel
theorem wit_Gated_tamper : let s := mb 18 7 [] { tamperClosed := 1000 }; Asked s 7 0 ∧ s.present = true ∧ s.bit secStat 1 = true ∧ 1000 ≤ s.sec.tamperClosed := by unfold Asked; decide +kernel

/-! Power, coolant, start-up and resets. -/

/-- Every lamp lit, at a time that sextants are updated and power is sampled. -/
def pl : State := lit { gt := 16000000 }
theorem wit_Power_caps : okCore 9 = true ∧ (({ pl with cores := [(9, { capWait := true, loopCap := 5000 })] } : State).core 9).capWait = true ∧ (pl.core 9).capWait = false := by decide +kernel
theorem wit_Power_sextant : ∀ g ∈ [(15000000 : Nat), 15999900], let s := { pl with boot := { railGt := [(0, g)] } }
    tfind s.boot.railGt (9 / 51) = some g ∧ s.railLit (9 / 51) = true ∧ s.now % 1024 = 0 ∧ (g + 1024 ≤ s.now ↔ g = 15000000) ∧ ({ s with gt := 16000001 } : State).now % 1024 ≠ 0 := by decide +kernel
theorem wit_Power_ageing : okCore 9 = true ∧ pl.lamp lampFoler = true ∧ tfind pl.boot.aged 9 = none ∧ State.reset.lamp lampFoler = false ∧
    ∀ g ∈ [(86400 * 10 ^ 9 : Nat), 86400 * 10 ^ 9 + 1], let s := { pl with gt := 2 * 86400 * 10 ^ 9, boot := { aged := [(9, g)] } }
      tfind s.boot.aged 9 = some g ∧ s.lamp lampFoler = true ∧ s.railLit (9 / 51) = true ∧ (g + 86400 * 10 ^ 9 ≤ s.now ↔ g = 86400 * 10 ^ 9) := by decide +kernel
theorem wit_Power_loop : pl.lamp lampFoler = true ∧ pl.now % 10 ^ 6 = 0 ∧ pl.pwr.sampleGt ≠ some pl.now ∧ (∀ r, r < 32 → pl.fld (pwrRail r) 0 7 ≤ 60) ∧ pl.railLit 3 = true ∧ (pl.setReg (pwrRail 3) 0x10000).railHot 3 = true ∧ pl.railHot 3 = false ∧
    pl.dieHot 0 = false ∧ (pl.core 160).thermCap = 0xFFFF ∧ 160 / 51 = 3 ∧
    (let s := { pl with pwr := { sampleGt := some 16000000 } }; s.pwr.sampleGt = some s.now) ∧ ({ pl with gt := 16000001 } : State).now % 10 ^ 6 ≠ 0 := by decide +kernel
/-- Under a forced cap at a sample of 1,000 W, rail 3 draws the most, at 0.75 V or at 0.55 V. -/
theorem wit_Power_loop_lowers : ∀ v ∈ [(40 : Nat), 0], let s := { pl with pwr := { forced := true } }.setReg (pwrRail 3) (BitVec.ofNat 32 v); let rails : List (Nat × Nat) := [(0, 0), (0, 0), (0, 0), (100, 750)]
    s.pwr.forced = true ∧ 900 < 1000 ∧ s.now % 10 ^ 6 = 0 ∧ s.railLit 3 = true ∧ s.movable true 3 = true ∧ s.fld (pwrRail 3) 0 7 = v ∧
      ∀ q, q < 32 → q ≠ 3 → s.railLit q = true → s.movable true q = true → (rails.getD q (0, 0)).1 < (rails.getD 3 (0, 0)).1 := by decide +kernel
theorem wit_Power_clamp : (let s := { pl with pwr := { overRun := 20 } }; s.lamp lampFoler = true ∧ 20 ≤ s.pwr.overRun) ∧ pl.pwr.overRun < 20 ∧ 2900 < 2901 ∧ pl.now % 1000 = 0 ∧ ({ pl with gt := 16000001 } : State).now % 1000 ≠ 0 ∧
    ∀ g ∈ [(0 : Nat), 10 ^ 7], let s : State := { gt := 10000000, pwr := { clampGt := some g } }; s.pwr.clampGt = some g ∧ (g + 10 ^ 7 ≤ s.now ↔ g = 0) := by decide +kernel
theorem wit_Power_sensors : let s := { pl with pwr := { sensors := [(12, 105), (203, 105)] } }
    s.lamp lampRim = true ∧ s.lamp (lampStack 3) = true ∧ s.pwr.trip = none ∧ 105 ≤ tget 0 s.pwr.sensors (4 * 3) ∧ 105 ≤ tget 0 s.pwr.sensors (200 + 3) ∧ s.bit pwrStat 1 = false ∧
      (s.chan 100).slack = true ∧ (({ s with chans := [(100, { reqs := [{ cls := 3, line := 8, gt := 1 }] })] } : State).chan 100).slack = false := by decide +kernel
theorem wit_Coolant_samples : ({} : State).boot.auxUp = true ∧ ({ boot := { auxUp := false } } : State).boot.auxUp = false ∧
    (let p : Power := { d := 199, aRaw := true, aOk := true }; p.d ≤ 199 ∧ 0 < p.d ∧ p.forced = false) := by decide +kernel
theorem wit_Coolant_forced : (let s := { pl with pwr := { d := 200, l := 4 } }; s.pwr.d = 200 ∧ s.pwr.l < 5 ∧ s.pwr.forced = false ∧ s.pwr.stopped = none ∧ s.boot.running = true) ∧
    ∀ n ∈ [1999, 2000], let s := { pl with pwr := { forced := true, okRun := n } }; s.pwr.forced = true ∧ s.pwr.okRun = n := by decide +kernel
theorem wit_Coolant_stop : (let s := { pl with pwr := { l := 5 } }; 5 ≤ s.pwr.l ∧ s.pwr.stopped = none ∧ s.boot.auxUp = true ∧ s.boot.running = true) ∧
    (let s := { pl with pwr := { trip := some (12, 105, 106) } }; s.pwr.l < 5 ∧ s.pwr.trip.isSome = true ∧ s.pwr.stopped = none ∧ s.boot.running = true) ∧
    (let s := { pl with pwr := { stopped := some rcCoolant, okRun := 1999, perstSeen := true } }; s.pwr.stopped = some rcCoolant ∧ s.pwr.okRun < 2000) := by decide +kernel
theorem wit_Supplies : pl.boot.running = true ∧ (let s := { pl with boot := { running := false } }; s.boot.running = false ∧ s.boot.auxUp = true ∧ s.boot.perst = false ∧ s.boot.mainBad = false ∧ s.pwr.stopped = none) ∧
    (let s := { pl with boot := { running := false }, pwr := { stopped := some rcThermal, perstSeen := true, okRun := 2000 } }; s.pwr.perstSeen = true ∧ 2000 ≤ s.pwr.okRun) ∧
    ({ boot := { running := false, perst := true } } : State).released = false ∧ (2 * 10 ^ 7 ≤ 2 * 10 ^ 7 ∧ let s : State := { gt := 30000000, boot := { auxGt := 10000000 } }; s.boot.auxGt + 2 * 10 ^ 7 ≤ s.now) ∧
    let s : State := { gt := 29999999, boot := { auxGt := 10000000 } }; s.now < s.boot.auxGt + 2 * 10 ^ 7 := by decide +kernel
theorem wit_Lamps_light : (∀ i ∈ [(0 : Nat), 1, 2, 3, 6, 9, 14, 22, 45], let s := { pl.setReg (rimLamps + i / 32 * 4) (0xFFFFFFFF &&& ~~~(BitVec.ofNat 32 (2 ^ (i % 32)))) with chart := { active := true }, gt := 0 }
      i ≠ 7 ∧ s.boot.running = true ∧ s.lamp i = false ∧ (lampNeeds i).all s.lamp = true ∧ i ∉ s.boot.missed ∧ s.chart.active = true) ∧
    (State.reset.chart.active = false ∧ State.reset.lamp lampChart = false) := by decide +kernel
theorem wit_Lamps_missed : let s : State := { gt := 600000000 }; ∀ i ∈ [(0 : Nat), 6, 14, 45], i ≠ 7 ∧ s.boot.running = true ∧ s.lamp i = false ∧ i ∉ s.boot.missed ∧ s.lampStart i + lampLatest i * 10 ^ 6 < s.now ∧
    State.reset.now ≤ State.reset.lampStart i + lampLatest i * 10 ^ 6 := by decide +kernel
/-- Start-up and the reset of die 0 hold the port; die 0 has lit. -/
theorem wit_Lamps_start_mode : ∀ g ∈ [(0 : Nat), 1], let s : State := { gt := 1000000000, boot := { starts := [(0, none), (1, some g)] } }; (1, some g) ∈ s.boot.starts ∧ (s.now < g + 10 ^ 9 ↔ g = 1) := by decide +kernel
theorem wit_DieResets : Stored pl rimDieRst ∧ pl.boot.dieWait = [] ∧ (∀ d ∈ [(0 : Nat), 1, 2, 3], pl.bit rimDieRst d = false ∧ (∀ p, p < 64 → pl.valid p = true → d ∉ entDies (pl.ent p)) ∧
      (Stored (pl.setReg rimDieRst 15) rimDieRst ∧ (pl.setReg rimDieRst 15).boot.dieWait = [] ∧ (pl.setReg rimDieRst 15).bit rimDieRst d = true)) ∧ State.reset.lamp lampPcie = false ∧
    let s := se {} {}; Stored s rimDieRst ∧ s.bit rimDieRst 0 = false ∧ s.boot.dieWait = [] ∧ s.valid 5 = true ∧ 0 ∈ entDies (s.ent 5) ∧ (s.part 5).reset = 0 := by unfold Stored; decide +kernel

/-! Retirement, sweeps and beacons. -/

/-- The group's core, busy with launch 9. -/
def rt (ue : List Nat) : State := { pl with cores := [(2, { core0 0 grp0 blk0 with ueGt := ue })], launches := [(9, la0)] }
theorem wit_Retire_core : let s := (rt []).setBit (pwrRail (2 / 51)) 7 true; okCore 2 = true ∧ s.coreOk 2 = true ∧ s.bit (pwrRail (2 / 51)) 7 = true ∧ (s.core 2).busy = true ∧ s.physOf (24 * 0 + 2) = 2 ∧ 9 ∈ s.onCore 2 ∧
    s.launch? 9 = some la0 ∧ la0.fail = none ∧ la0.committing = false ∧ (s.core 3).busy = false ∧ (rt []).bit (pwrRail (2 / 51)) 7 = false ∧
    10 ∉ s.onCore 2 ∧ (let t := { s with launches := [(9, la0), (10, { la0 with phase := .settling })] }; t.launch? 10 = some { la0 with phase := .settling } ∧ 10 ∉ t.onCore 2 ∧ t.stranded { la0 with phase := .settling } = false) := by decide +kernel
/-- The launch commits, and a write of its waits in the core's tracker. -/
theorem wit_Retire_committing : let l := { la0 with phase := .settling }; let x : Track := { guid := 7, launch := 9, run := 0, part := 5, isWrite := true, spans := [(65548, 4)], writes := sb0.writes }
    let s := { pl with cores := [(2, { core0 0 grp0 blk0 with art := [(1, x)] })], launches := [(9, l)] }
    s.coreOk 2 = true ∧ 9 ∈ s.onCore 2 ∧ s.launch? 9 = some l ∧ l.committing = true ∧ (s.core 2).owes 9 = true := by decide +kernel
theorem wit_Retire_errors : ∀ xs ∈ [([] : List Nat), [1000]], let n := xs.length == 1; okUnit .core 2 = true ∧ reachedN (stamp ((rt xs).core 2).ueGt 2 (rt xs).now) 2 = n ∧
    (let s := { pl with copies := [(6, { launches := [9], ueGt := xs })], launches := [(9, la0)] }; okUnit .copyEngine 6 = true ∧ (s.copyEng 6).retired = false ∧
      reachedN (stamp (s.copyEng 6).ueGt 2 s.now) 2 = n ∧ 9 ∈ (s.copyEng 6).launches ∧ s.launch? 9 = some la0) ∧
    (let s := { lit (pw [] []) with dies := [(0, { collUe := xs, digUe := xs })] }; okUnit .collective 0 = true ∧ okUnit .digest 0 = true ∧ (s.die 0).collRetired = false ∧ (s.die 0).digRetired = false ∧
      reachedN (stamp (s.die 0).collUe 2 s.now) 2 = n ∧ reachedN (stamp (s.die 0).digUe 2 s.now) 2 = n ∧ s.valid 5 = true ∧ s.leadDie 5 = 0) := by decide +kernel
theorem wit_Retire_units : okUnit .coreCorrected 2 = true ∧ okUnit .mram 300 = true ∧ (let s : State := { log := { mram := [(300, { sev := 1, part := none, source := srcRim, gt := 4, boot := 0, code := 1, payload := [] })] } }; (tfind s.log.mram 300).isSome = true) ∧
    okUnit .link 9 = true ∧ (∀ b ∈ [(0 : Nat), 1], let s : State := { chart := { mLinks := 2 ^ 9 * b } }; getBits s.chart.mLinks 9 1 = b) ∧ okUnit .opticalEngine 2 = true ∧ getBits State.reset.chart.mLinks 9 1 = 0 ∧
    okUnit .router 0 = true ∧ let m := { m0 with typ := mRdrsp }; let s : State := { links := [(9, { txq := [m] })] }; s.routerMsgs 0 = [(some 9, m)] ∧ 5 < m.typ := by decide +kernel
/-- A sweep of one line at 0x40000, or of none. -/
def swp (rs : List (Nat × Nat)) : State := { se { sweep := { running := true, regions := rs } } {} with mem := msetBytes (pw [] []).mem 0x40000 (eK ++ eK) }
theorem wit_Sweeps_enable : let s := se {} {}; okPart 5 = true ∧ Stored s (digSwctrl 5) ∧ s.bit (digSwctrl 5) 0 = false ∧ s.digServes 5 = true ∧ Stored (s.setReg (digSwctrl 5) 1) (digSwctrl 5) ∧
    (s.setReg (digSwctrl 5) 1).bit (digSwctrl 5) 0 = true := by unfold Stored; decide +kernel
theorem wit_Sweeps_line : let s := swp [(0x40000, 128)]; let r := s.transl 5 0x40000 .read
    s.digServes 5 = true ∧ (s.part 5).sweep.running = true ∧ (s.part 5).sweep.line = some 0x40000 ∧ r = (.ok { tgt := .hbm 0x40000, mt := false, ea := true, w := true }, r.2) := by decide +kernel
/-- The same with the page read-only: its entry has no W. -/
def swr : State := { swp [(0x40000, 128)] with mem := msetBytes (swp []).mem 0x5F000000 (leBytes 8 0x2B) }
theorem wit_Sweeps_readonly : ∀ z ∈ [false, true], let s := { swr with poison := if z then [0x40000 / 128] else [] }; let r := s.transl 5 0x40000 .read
    s.digServes 5 = true ∧ (s.part 5).sweep.line = some 0x40000 ∧ r = (.ok { tgt := .hbm 0x40000, mt := false, ea := true, w := false }, r.2) ∧ r.2.poisoned 0x40000 128 = z := by decide +kernel
theorem wit_Sweeps_untranslated : let s := { swp [(0x40000, 128)] with mem := msetBytes [] 0x5F000000 (leBytes 8 0) }; let r := s.transl 5 0x40000 .read
    s.digServes 5 = true ∧ (s.part 5).sweep.line = some 0x40000 ∧ r = (.error .translation, r.2) := by decide +kernel
theorem wit_Sweeps_end : (let s := swp []; s.digServes 5 = true ∧ (s.part 5).sweep.running = true ∧ (s.part 5).sweep.line = none) ∧
    ∀ g ∈ [(5000000 : Nat), 5000001], let s := (se { sweep := { restart := some g } } {}).setReg (digSwctrl 5) 1
      (s.part 5).sweep.restart = some g ∧ s.bit (digSwctrl 5) 0 = true ∧ s.digServes 5 = true ∧ (g ≤ s.now ↔ g = 5000000) := by decide +kernel
/-- Beacons on, every 2 steps, with module 7's partition 5 as peer 3; the step word at 0x40000 holds `v`. -/
def bs (v : Nat) (x : Part) (m : Msg) : State :=
  ((({ se x {} with mem := msetBytes (pw [] []).mem 0x40000 (leBytes 8 v), links := [(9, { rxq := [m] })] }.setReg (digBctrl 5) 0x10002).setReg (digStepVa 5) 0x40000).setReg (digPeer 5 3) 0x80050007)
theorem wit_Beacons_due : okPart 5 = true ∧ (bs 6 {} m0).bit (digBctrl 5) 16 = true ∧ (bs 6 {} m0).digServes 5 = true ∧ ((bs 6 {} m0).beaconDue 5).1 = some 6 ∧ ((bs 7 {} m0).beaconDue 5).1 = none ∧
    ((bs 6 { lastBeacon := 6 } m0).beaconDue 5).1 = none ∧ (bs 6 {} m0).beaconPeers 5 = [(3, 7, 5)] := by decide +kernel
/-- A beacon of step `n` of the peer, and its message. -/
def bc (n : Nat) : BeaconRec := { devid := 7, part := 5, wvalid := true, avalid := false, wabort := false, model := 0, step := n, sweep := 1, wdig := 9, adig := 0, gt := 4 }
def bm (n : Nat) : Msg := { m0 with typ := mBeacon, data := (bc n).bytes }
theorem wit_Beacons_compared : ∀ w ∈ [(9 : Nat), 10], let o := { bc 6 with wdig := BitVec.ofNat 128 w }; let s := bs 6 { own := [o] } (bm 6); let u := um s (bm 6)
    Arr s (bm 6) mBeacon ∧ beaconOf (bm 6).data = bc 6 ∧ (u.beaconPeers 5).find? (fun e => e.2.1 == (bm 6).src && e.2.2 == (bc 6).part) = some (3, 7, 5) ∧ u.digServes 5 = true ∧
      u.bit (digBctrl 5) 16 = true ∧ (bc 6).model = u.reg (partModel 5) ∧ (u.part 5).own = [o] ∧ o.step = (bc 6).step ∧ o.agrees (bc 6) = (w == 9) := by unfold Arr Arrives; decide +kernel
theorem wit_Beacons_late : (let u := um (bs 6 {} (bm 6)) (bm 6); (u.part 5).own = []) ∧
    (let s := bs 6 { own := [bc 8] } (bm 6); let u := um s (bm 6); Arr s (bm 6) mBeacon ∧ (u.part 5).own ≠ [] ∧ ∀ o ∈ (u.part 5).own, stepNewer o.step 6 = true) ∧
    (let m := { bm 6 with src := 8 }; let s := bs 6 {} m; let u := um s m; Arr s m mBeacon ∧ (u.beaconPeers 5).find? (fun e => e.2.1 == m.src && e.2.2 == (beaconOf m.data).part) = none) ∧
    let s := (bs 6 {} (bm 6)).setReg (partModel 5) 2; Arr s (bm 6) mBeacon ∧ (beaconOf (bm 6).data).model ≠ (um s (bm 6)).reg (partModel 5) := by unfold Arr Arrives; decide +kernel

/-! Trace, hangs, the logbook and registers. -/

/-- A record of partition 5. -/
def tr0 : TraceRec := { gtoff := 1, engine := 2, typ := 3, part := 5, rt := false, data := 4 }
/-- Engine 2's buffer. -/
def tb (g lost : Nat) : State := (({ gt := 5000000, dbg := { bufs := [(2, { recs := [(g, tr0)], lost := lost })] } } : State).setReg (dbgTrwc 5) 7).setReg dbgTrctrl 1
theorem wit_Trace_drain : okEngine 2 = true ∧ (∀ n ∈ [(0 : Nat), 3], let s := tb 4500000 n; tget {} s.dbg.bufs 2 = { recs := [(4500000, tr0)], lost := n } ∧ 4500000 + 10000 ≤ s.now ∧ s.now ≤ 4500000 + 10 ^ 6 ∧ s.bit dbgTrctrl 0 = true ∧
      s.reg64 (dbgTrwc 5) ≠ 0 ∧ s.reg64 (dbgTrwc 5) + 3 < 2 ^ 64 ∧ (ringOf s 5).length + 3 ≤ ringSize) ∧
    3999999 + 10 ^ 6 < (tb 3999999 0).now ∧ (tb 4999999 0).drainDue (tget {} (tb 4999999 0).dbg.bufs 2) = false ∧
    let s := (tb 4500000 0).setReg dbgTrctrl 0; s.bit dbgTrctrl 0 = false ∧ s.drainDue (tget {} s.dbg.bufs 2) = true := by decide +kernel
theorem wit_Trace_timebase : let s := { (se {} {}).setReg dbgTrctrl 1 with gt := 5000000000 }
    okPart 5 = true ∧ s.valid 5 = true ∧ s.bit dbgTrctrl 0 = true ∧ tget 0 s.dbg.base 5 < s.now / 2 ^ 31 ∧ (ringOf s 5).length < ringSize := by decide +kernel
theorem wit_Trace_port : State.reset.portMode = 0 ∧ (let s := ({ dbg := { toPort := true, portWords := [5] } } : State).setReg dbgHangstat 1; s.portMode = 2 ∧ s.dbg.portWords = [5]) ∧
    (let s := lit { boot := { starts := [(0, none)] }, dbg := { port := [tr0] } }; s.portMode = 1 ∧ s.dbg.port = [tr0]) ∧
    (let s := (({ dbg := { port := [tr0] } } : State).setReg dbgTrctrl 2).setReg secDbg 2; s.portMode = 3 ∧ s.dbg.port = [tr0]) := by decide +kernel
theorem wit_Trace_counters : (let s := ((pl.setReg (pmSel 9 2) 4).setReg64 (pmc 9 2) (2 ^ 48 - 1)); okCore 9 = true ∧ s.bit (pmCtrl 9) 0 = false ∧ 1 ≤ s.fld (pmSel 9 2) 0 8 ∧ s.fld (pmSel 9 2) 0 8 ≤ 0x0F ∧
      s.reg64 (pmc 9 2) = 2 ^ 48 - 1) ∧
    (let s := { pl with held := [(heldKey 0 (pmc 9 2), 7)] }; s.lamp lampPcie = true ∧ s.lamp (lampRail (9 / 51)) = true ∧ tfind s.held (heldKey 0 (pmc 9 2)) = some 7 ∧ Reached s 0 (pmc 9 2 + 4) ∧ Reached s 0 (pmSel 9 2)) ∧
    pl.lamp lampRim = true ∧ State.reset.lamp lampRim = false := by unfold Reached; decide +kernel
/-- The group's launch, with the time that hangs take set to 10 ms, at 20 ms. -/
def hg (l : Launch) (d : Debug) : State :=
  { (pw [] []).setReg dbgHangcfg 10 with launches := [(9, l)], cores := [(2, core0 0 grp0 blk0)], gt := 20000000, dbg := d }
theorem wit_Hangs_check : (let s := hg la0 {}; okDie 0 = true ∧ tsorted s.launches = true ∧ s.launch? 9 = some la0 ∧ s.leadDie la0.part = 0 ∧ s.isHung 9 la0 = true) ∧
    (let l := { la0 with progGt := 19000000 }; (hg l {}).isHung 9 l = false) := by decide +kernel
theorem wit_Hangs_snapshot : let l := { la0 with hung := 20000001 }; let s := hg l { hung := [9] }
    (s.launch? 9 = some l ∧ s.dbg.hung.head? = some 9 ∧ l.hung ≠ 0 ∧ l.part < 64 ∧ s.reg64 dbgSnapcnt + 1 < 2 ^ 64 ∧ s.bit dbgHangcfg 17 = false) ∧
    (let t := (s.setReg dbgHangcfg 0x2000A).setReg secDbg 4; t.bit dbgHangcfg 17 = true ∧ t.bit secDbg 2 = true ∧ t.bit dbgHangstat 0 = false ∧ (t.setReg secDbg 0).bit secDbg 2 = false) := by decide +kernel
theorem wit_Hangs_dump_end : (∀ b : Bool, let s := hg { la0 with hung := 20000001 } { dumping := some 9, toPort := b }; s.dbg.dumping = some 9 ∧ s.dbg.portWords = [] ∧ s.dbg.toPort = b) ∧
    let l := { la0 with hung := 20000001 }; let s := hg l {}; s.launch? 9 = some l ∧ l.hung ≠ 0 ∧ 9 ∉ s.dbg.hung ∧ s.dbg.dumping ≠ some 9 ∧ l.fail = none := by decide +kernel
/-- A record of severity `v`. -/
def lr (v : Nat) : LogRec := { sev := v, part := none, source := srcRim, gt := 4, boot := 0, code := 1, payload := [] }
theorem wit_Logbook_write : (∀ v ∈ [sevNotice, sevAlert], let s : State := { log := { waiting := [lr v] } }
      s.logRate < 1000 ∧ s.log.dropped = 0 ∧ s.log.waiting = [lr v] ∧ 256 ≤ s.log.ring ∧ (lr v).sev ≠ sevFatal ∧ (sevAlert ≤ (lr v).sev ↔ v = sevAlert)) ∧
    (let s : State := { log := { waiting := [lr sevFatal] } }; (lr sevFatal).sev = sevFatal ∧ s.pinnedCount < 256) ∧
    (let s : State := { log := { waiting := [lr sevFatal], mram := (upTo 256).map fun i => (i, lr 3), ring := 32767 } }; 256 ≤ s.pinnedCount ∧ s.log.ring = 32767) ∧
    (let s : State := { log := { dropped := 2 } }; s.logRate < 1000 ∧ s.log.dropped ≠ 0 ∧ 256 ≤ s.log.ring) ∧ 1000 ≤ ({ log := { rate := List.replicate 1000 0 } } : State).logRate ∧
    (State.reset.log.dropped = 0 ∧ State.reset.log.waiting = [] ∧ State.reset.log.norWait = []) := by decide +kernel
theorem wit_Logbook_nor : ∀ k ∈ [(3 : Nat), 264, 265], let s : State := { log := { mram := [(k, lr 1)], norWait := [k] } }; s.log.norWait = [k] ∧ k ∉ s.log.badMram ∧ tfind s.log.mram k = some (lr 1) := by decide +kernel
theorem wit_Logbook_shown : ∀ b ∈ [[], [300]], let s := ({ log := { mram := [(300, lr 1)], nor := [(300, lr 2)], badMram := b } } : State).setReg logSlot 300
    s.fld logSlot 0 15 = 300 ∧ (300 ∈ s.log.badMram ↔ b = [300]) ∧ tfind s.log.mram 300 = some (lr 1) := by decide +kernel
theorem wit_Registers_reached : ∀ o ∈ [rimLamps, pwrPeak, pwrLimit, mbxBuf, mbxCtrl, partFdom 5, digSalt 5, digSalt 5 + 4], Reached (se {} {}) 0 o := by unfold Reached; decide +kernel
theorem wit_Registers_kinds : let s := se {} {}
    isPairLo (regKey 0 rimLamps) = true ∧ s.boundReq 0 = true ∧ (regAcc (regKey 0 pwrPeak)).rc ≠ 0 ∧
    (isPairLo mbxBuf = false ∧ isPairLo (mbxBuf - 4) = false ∧ tdiReg mbxBuf = none ∧ mbxBuf ≠ mbxCtrl ∧ offIn mbxBuf 0x2000000 1632 0x1000 ≠ 0x800 ∧ s.checked mbxBuf 7 = some 7) ∧
    (isPairLo pwrLimit = false ∧ isPairLo (pwrLimit - 4) = false ∧ tdiReg pwrLimit = none ∧ s.checked pwrLimit 7 = none) ∧ s.tdiLocked 5 = false ∧ (se { tdi := 1 } {}).tdiLocked 5 = true ∧
    (s.bit mbxStat 0 = false ∧ (s.setReg mbxStat 1).bit mbxStat 0 = true) ∧ (isPairLo (regKey 0 (digSalt 5)) = true ∧ writablePair 0 (digSalt 5) = true) ∧ s.lamp lampPcie = true := by decide +kernel
theorem wit_Registers_dark : let s := (se {} {}).setReg rimLamps 0x7FFFFFFD; okReq 0 = true ∧ s.arrives 0 = true ∧ s.targets 0 pwrLimit = true ∧ s.takes 0 = true ∧ s.serves0 0 pwrLimit = false := by decide +kernel
theorem wit_Registers_plain : let s := se {} {}; Reached s 0 mbxBuf ∧ isPairLo (regKey 0 mbxBuf) = false ∧ isPairLo (regKey 0 (mbxBuf - 4)) = false ∧ (regAcc (regKey 0 mbxBuf)).rc = 0 := by unfold Reached; decide +kernel
theorem wit_Registers_requests : let s := se {} {}; okReq 5 = true ∧ s.arrives 5 = true ∧ s.arrives 0 = true ∧ s.host.d3.contains 0 = false ∧ s.lamp lampPcie = true ∧ s.vfExists 5 = true ∧ rimLamps % 4 = 0 ∧ (rimLamps + 1) % 4 ≠ 0 ∧
    let t := { s with host := { s.host with d3 := [0] } }; t.lamp lampPcie = true ∧ t.host.d3.contains 0 = true ∧ t.targets 0 rimLamps = true := by decide +kernel
theorem wit_Registers_refused : let s := se { tdi := 3 } {}; okVf 5 = true ∧ s.lamp lampPcie = true ∧ s.targets 5 4096 = true ∧ s.host.d3.contains 5 = false ∧ s.exposed 5 = false ∧ s.vfRefuses 5 = true := by decide +kernel
theorem wit_Registers_pairs : tfind (se {} {}).held (heldKey 0 (digSalt 5)) = none ∧ let s := { se {} {} with held := [(heldKey 0 (digSalt 5), 7)] }
    Reached s 0 (digSalt 5 + 4) ∧ tfind s.held (heldKey 0 (digSalt 5)) = some 7 := by unfold Reached; decide +kernel
theorem wit_Registers_high_half_value : let s := se {} {}; Reached s 0 (digSalt 5) ∧ Reached s 0 (digSalt 5 + 4) ∧ tfind s.held (heldKey 0 (digSalt 5)) = none := by unfold Reached; decide +kernel
theorem wit_Registers_high_half : let s := se {} {}; Reached s 0 (rimLamps + 4) ∧ isPairLo (regKey 0 (rimLamps + 4)) = false ∧ isPairLo (regKey 0 rimLamps) = true ∧
    tfind ({ s with latch := [(rimLamps, 5)] } : State).latch (2 ^ 64 * 0 + rimLamps) = some 5 := by unfold Reached; decide +kernel
theorem wit_Registers_doorbell : let x : Queue := { cfg := 0x1000, tail := 3 }; let s := { se {} {} with queues := [(qkey 5 1, x)], held := [(heldKey 5 4096, 9)] }
    okVf 5 = true ∧ Reached s 5 (4096 * 1 + 4) ∧ s.vfPart 5 = some 5 ∧ 1 < (s.ent 5).nqueue ∧ s.partUp 5 = true ∧ tfind s.held (heldKey 5 (4096 * 1)) = some 9 ∧ x = s.queue (qkey 5 1) ∧
      qcEnable x.cfg = true ∧ x.halted = false ∧ x.resetting = false ∧ x.tail < 9 ∧ 9 ≤ x.done + x.size := by unfold Reached; decide +kernel

/-! Causes that a row finds as it issues. -/

/-- Group `g0` issues `w`, which finds causes, `e` the one to record. -/
def Finds (s : State) (w : Word64) (v : State) (xs : List Exc) (e : Exc) : Prop :=
  Issues s g0 w (cx s g0) (fu s g0) ∧ (cx s g0).la.part < 64 ∧ FindsCauses (fu s g0) g0 (cx s g0) w v xs ∧ xs.any (fun x => x.cause == exCut) = false ∧ pickExc xs = some e ∧ e.cause ≠ 0
/-- The causes of lanes at their addresses, as translated. -/
def exs (s : State) (n : Nat) (acc : TAcc) (eas : List (Nat × Nat)) : List Exc := ((fu s g0).translLanes 2 5 n acc eas).1.2
/-- Global accesses under predicate 2: lane 3's address 1003 is not aligned, nor in a window of this launch. -/
def laV : Launch := { la0 with wins := [] }
/-- The group with a full stack of 32 entries. -/
def grpD : Group := { grp0 with stack := (upTo 32).map fun _ => .entry 1 0 0 }
theorem wit_Exceptions_jump : let w := wd 0 4 0 0 12 0 0 0x80; let x : Exc := { cause := 6, lane := 0, addr := 77 }; Finds (th w) w (fu (th w) g0) [x] x := by
  refine ⟨by unfold Issues; decide +kernel, by decide +kernel, ?_, by decide +kernel, by decide +kernel, by decide +kernel⟩
  unfold FindsCauses; rw [show rowOf (wd 0 4 0 0 12 0 0 0x80) = .ctlJmp from by decide +kernel]; exact ⟨rfl, by decide +kernel⟩
theorem wit_Exceptions_branch : let w := wg 1 1 0 0 0 9 0 0 4; let s := vm (clut (thr w grpD blk0 la0)); let x : Exc := { cause := 5, lane := 0 }; Finds s w (fu s g0) [x] x := by
  refine ⟨by unfold Issues; decide +kernel, by decide +kernel, ?_, by decide +kernel, by decide +kernel, by decide +kernel⟩
  unfold FindsCauses; rw [show rowOf (wg 1 1 0 0 0 9 0 0 4) = .br from by decide +kernel]; exact ⟨rfl, by decide +kernel⟩
/-- Words whose lanes' addresses 1000 to 1031 are not aligned, nor all of them in the local store: lane 1 meets the first cause. -/
theorem wit_Exceptions_local : ∀ w ∈ [wd 16 0 2 7 6 0 0 0, wd 17 0 2 0 6 6 0 0, wd 18 4 0 7 6 6 0 0, wd 19 0 2 7 6 0 0 0, wd 19 1 2 7 6 6 0 0],
    Finds (thN w) w (fu (thN w) g0) (laneCauses 4 1024 (grp0.eas w)) { cause := 6, lane := 1, addr := 1001 } := by
  intro w hw
  fin_cases hw
  all_goals refine ⟨by unfold Issues; decide +kernel, by decide +kernel, ?_, by decide +kernel, by decide +kernel, by decide +kernel⟩
  · unfold FindsCauses; rw [show rowOf (wd 16 0 2 7 6 0 0 0) = .ldLocal from by decide +kernel]; exact ⟨by decide +kernel, rfl, by decide +kernel⟩
  · unfold FindsCauses; rw [show rowOf (wd 17 0 2 0 6 6 0 0) = .stLocal from by decide +kernel]; exact ⟨by decide +kernel, rfl, by decide +kernel⟩
  · unfold FindsCauses; rw [show rowOf (wd 18 4 0 7 6 6 0 0) = .rmwLocal from by decide +kernel]; exact ⟨by decide +kernel, rfl, by decide +kernel⟩
  · unfold FindsCauses; rw [show rowOf (wd 19 0 2 7 6 0 0 0) = .ll from by decide +kernel]; exact ⟨by decide +kernel, rfl, by decide +kernel⟩
  · unfold FindsCauses; rw [show rowOf (wd 19 1 2 7 6 6 0 0) = .sc from by decide +kernel]; exact ⟨by decide +kernel, rfl, by decide +kernel⟩
theorem wit_Exceptions_ldGlobal : let w := wg 2 16 1 2 7 6 0 0 0; let s := vm (clut (thr w grp0 blk0 laV)); Finds s w (tv s w 4 .read) (exs s 4 .read (grp0.eas w)) { cause := 6, lane := 3, addr := 1003 } := by
  refine ⟨by unfold Issues; decide +kernel, by decide +kernel, ?_, by decide +kernel, by decide +kernel, by decide +kernel⟩
  unfold FindsCauses; rw [show rowOf (wg 2 16 1 2 7 6 0 0 0) = .ldGlobal from by decide +kernel]; exact ⟨by decide +kernel, tl (vm (clut (thr (wg 2 16 1 2 7 6 0 0 0) grp0 blk0 laV))) (wg 2 16 1 2 7 6 0 0 0) 4 .read, by decide +kernel⟩
theorem wit_Exceptions_stGlobal : let w := wg 2 17 1 2 0 10 6 0 0; let s := vm (clut (thr w grp0 blk0 laV)); Finds s w (tv s w 4 .write) (exs s 4 .write (grp0.eas w) ++ windowCauses laV false 4 (grp0.eas w)) { cause := 9, lane := 3, addr := 65548 } := by
  refine ⟨by unfold Issues; decide +kernel, by decide +kernel, ?_, by decide +kernel, by decide +kernel, by decide +kernel⟩
  unfold FindsCauses; rw [show rowOf (wg 2 17 1 2 0 10 6 0 0) = .stGlobal from by decide +kernel]; exact ⟨by decide +kernel, tl (vm (clut (thr (wg 2 17 1 2 0 10 6 0 0) grp0 blk0 laV))) (wg 2 17 1 2 0 10 6 0 0) 4 .write, exs (vm (clut (thr (wg 2 17 1 2 0 10 6 0 0) grp0 blk0 laV))) 4 .write (grp0.eas (wg 2 17 1 2 0 10 6 0 0)), by decide +kernel, by decide +kernel⟩
theorem wit_Exceptions_zlGlobal : let w := wg 2 17 5 2 0 14 6 0 0; let s := vm (clut (thr w grp0 blk0 laV)); Finds s w (tv s w 128 .write) (exs s 128 .write (grp0.eas w) ++ windowCauses laV false 128 (grp0.eas w)) { cause := 9, lane := 3, addr := 65920 } := by
  refine ⟨by unfold Issues; decide +kernel, by decide +kernel, ?_, by decide +kernel, by decide +kernel, by decide +kernel⟩
  unfold FindsCauses; rw [show rowOf (wg 2 17 5 2 0 14 6 0 0) = .zlGlobal from by decide +kernel]; exact ⟨by decide +kernel, tl (vm (clut (thr (wg 2 17 5 2 0 14 6 0 0) grp0 blk0 laV))) (wg 2 17 5 2 0 14 6 0 0) 128 .write, exs (vm (clut (thr (wg 2 17 5 2 0 14 6 0 0) grp0 blk0 laV))) 128 .write (grp0.eas (wg 2 17 5 2 0 14 6 0 0)), by decide +kernel, by decide +kernel⟩
theorem wit_Exceptions_ldCluster : let w := wg 2 16 2 2 7 6 0 0 0; let s := vm (clut (thr w grp0 blk0 laV)); Finds s w (fu s g0) ([{ cause := 6, lane := 3, addr := 1003 }]) { cause := 6, lane := 3, addr := 1003 } := by
  refine ⟨by unfold Issues; decide +kernel, by decide +kernel, ?_, by decide +kernel, by decide +kernel, by decide +kernel⟩
  unfold FindsCauses; rw [show rowOf (wg 2 16 2 2 7 6 0 0 0) = .ldCluster from by decide +kernel]; exact ⟨by decide +kernel, rfl, by decide +kernel⟩
theorem wit_Exceptions_stCluster : let w := wg 2 17 2 2 0 6 6 0 0; let s := vm (clut (thr w grp0 blk0 laV)); Finds s w (fu s g0) ([{ cause := 6, lane := 3, addr := 1003 }]) { cause := 6, lane := 3, addr := 1003 } := by
  refine ⟨by unfold Issues; decide +kernel, by decide +kernel, ?_, by decide +kernel, by decide +kernel, by decide +kernel⟩
  unfold FindsCauses; rw [show rowOf (wg 2 17 2 2 0 6 6 0 0) = .stCluster from by decide +kernel]; exact ⟨by decide +kernel, rfl, by decide +kernel⟩
theorem wit_Exceptions_rmwCluster : let w := wg 2 18 6 0 7 6 6 0 0; let s := vm (clut (thr w grp0 blk0 laV)); Finds s w (fu s g0) ([{ cause := 6, lane := 3, addr := 1003 }]) { cause := 6, lane := 3, addr := 1003 } := by
  refine ⟨by unfold Issues; decide +kernel, by decide +kernel, ?_, by decide +kernel, by decide +kernel, by decide +kernel⟩
  unfold FindsCauses; rw [show rowOf (wg 2 18 6 0 7 6 6 0 0) = .rmwCluster from by decide +kernel]; exact ⟨by decide +kernel, rfl, by decide +kernel⟩
theorem wit_Exceptions_ldRemote : let w := wg 2 16 3 2 7 6 0 0 0; let s := vm (clut (thr w grp0 blk0 laV)); Finds s w (fu s g0) ([{ cause := 6, lane := 3, addr := 1003 }]) { cause := 6, lane := 3, addr := 1003 } := by
  refine ⟨by unfold Issues; decide +kernel, by decide +kernel, ?_, by decide +kernel, by decide +kernel, by decide +kernel⟩
  unfold FindsCauses; rw [show rowOf (wg 2 16 3 2 7 6 0 0 0) = .ldRemote from by decide +kernel]; exact ⟨by decide +kernel, rfl, by decide +kernel⟩
theorem wit_Exceptions_stRemote : let w := wg 2 17 3 2 0 6 6 0 0; let s := vm (clut (thr w grp0 blk0 laV)); Finds s w (fu s g0) ((fu s g0).remoteErrs 5 4 true true (grp0.eas w) ++ windowCauses laV true 4 (grp0.eas w)) { cause := 6, lane := 3, addr := 1003 } := by
  refine ⟨by unfold Issues; decide +kernel, by decide +kernel, ?_, by decide +kernel, by decide +kernel, by decide +kernel⟩
  unfold FindsCauses; rw [show rowOf (wg 2 17 3 2 0 6 6 0 0) = .stRemote from by decide +kernel]; exact ⟨by decide +kernel, rfl, by decide +kernel⟩
theorem wit_Exceptions_stRemoteFinal : let w := wg 2 17 4 2 0 6 6 0 0; let s := vm (clut (thr w grp0 blk0 laV)); Finds s w (fu s g0) ((fu s g0).remoteErrs 5 4 true false (grp0.eas w)) { cause := 6, lane := 3, addr := 1003 } := by
  refine ⟨by unfold Issues; decide +kernel, by decide +kernel, ?_, by decide +kernel, by decide +kernel, by decide +kernel⟩
  unfold FindsCauses; rw [show rowOf (wg 2 17 4 2 0 6 6 0 0) = .stRemoteFinal from by decide +kernel]; exact ⟨by decide +kernel, rfl, by decide +kernel⟩
/-- A returning atomic, an ll and an sc in a launch that may be pre-empted. -/
theorem wit_Exceptions_rmwGlobal : let w := wg 2 18 5 0 7 10 6 0 0; let s := vm (clut (thr w grp0 blk0 laV)); Finds s w (tv s w 4 .write) (exs s 4 .write (grp0.eas w) ++ [{ cause := 12, lane := 3 }]) { cause := 12, lane := 3 } := by
  refine ⟨by unfold Issues; decide +kernel, by decide +kernel, ?_, by decide +kernel, by decide +kernel, by decide +kernel⟩
  unfold FindsCauses; rw [show rowOf (wg 2 18 5 0 7 10 6 0 0) = .rmwGlobal from by decide +kernel]; exact ⟨by decide +kernel, by
    rw [if_neg (by decide +kernel)]; exact ⟨tl (vm (clut (thr (wg 2 18 5 0 7 10 6 0 0) grp0 blk0 laV))) (wg 2 18 5 0 7 10 6 0 0) 4 .write, exs (vm (clut (thr (wg 2 18 5 0 7 10 6 0 0) grp0 blk0 laV))) 4 .write (grp0.eas (wg 2 18 5 0 7 10 6 0 0)), by decide +kernel, by decide +kernel⟩⟩
theorem wit_Exceptions_ll : let w := wg 2 19 2 2 7 10 0 0 0; let s := vm (clut (thr w grp0 blk0 laV)); Finds s w (tv s w 4 .read) (exs s 4 .read (grp0.eas w) ++ [{ cause := 12, lane := 3 }]) { cause := 12, lane := 3 } := by
  refine ⟨by unfold Issues; decide +kernel, by decide +kernel, ?_, by decide +kernel, by decide +kernel, by decide +kernel⟩
  unfold FindsCauses; rw [show rowOf (wg 2 19 2 2 7 10 0 0 0) = .ll from by decide +kernel]; exact ⟨by decide +kernel, by
    rw [if_neg (by decide +kernel)]; exact ⟨tl (vm (clut (thr (wg 2 19 2 2 7 10 0 0 0) grp0 blk0 laV))) (wg 2 19 2 2 7 10 0 0 0) 4 .read, exs (vm (clut (thr (wg 2 19 2 2 7 10 0 0 0) grp0 blk0 laV))) 4 .read (grp0.eas (wg 2 19 2 2 7 10 0 0 0)), by decide +kernel, by decide +kernel⟩⟩
theorem wit_Exceptions_sc : let w := wg 2 19 3 2 7 10 6 0 0; let s := vm (clut (thr w grp0 blk0 laV)); Finds s w (tv s w 4 .write) (exs s 4 .write (grp0.eas w) ++ [{ cause := 12, lane := 3 }]) { cause := 12, lane := 3 } := by
  refine ⟨by unfold Issues; decide +kernel, by decide +kernel, ?_, by decide +kernel, by decide +kernel, by decide +kernel⟩
  unfold FindsCauses; rw [show rowOf (wg 2 19 3 2 7 10 6 0 0) = .sc from by decide +kernel]; exact ⟨by decide +kernel, by
    rw [if_neg (by decide +kernel)]; exact ⟨tl (vm (clut (thr (wg 2 19 3 2 7 10 6 0 0) grp0 blk0 laV))) (wg 2 19 3 2 7 10 6 0 0) 4 .write, exs (vm (clut (thr (wg 2 19 3 2 7 10 6 0 0) grp0 blk0 laV))) 4 .write (grp0.eas (wg 2 19 3 2 7 10 6 0 0)), by decide +kernel, by decide +kernel⟩⟩
/-- Remote atomics, returning and posted. -/
theorem wit_Exceptions_rmwRemote : let w := wg 2 18 7 0 7 6 6 0 0; let s := vm (clut (thr w grp0 blk0 laV)); Finds s w (fu s g0) ((fu s g0).remoteErrs 5 4 false false (grp0.eas w) ++ [{ cause := 12, lane := 3 }]) { cause := 6, lane := 3, addr := 1003 } := by
  refine ⟨by unfold Issues; decide +kernel, by decide +kernel, ?_, by decide +kernel, by decide +kernel, by decide +kernel⟩
  unfold FindsCauses; rw [show rowOf (wg 2 18 7 0 7 6 6 0 0) = .rmwGlobal from by decide +kernel]; exact ⟨by decide +kernel, by
    rw [if_pos (by decide +kernel)]; exact ⟨rfl, by decide +kernel⟩⟩
theorem wit_Exceptions_rmwPostRemote : let w := wg 2 18 3 0 255 6 6 0 0; let s := vm (clut (thr w grp0 blk0 laV)); Finds s w (fu s g0) ((fu s g0).remoteErrs 5 4 false false (grp0.eas w)) { cause := 6, lane := 3, addr := 1003 } := by
  refine ⟨by unfold Issues; decide +kernel, by decide +kernel, ?_, by decide +kernel, by decide +kernel, by decide +kernel⟩
  unfold FindsCauses; rw [show rowOf (wg 2 18 3 0 255 6 6 0 0) = .rmwPost from by decide +kernel]; exact ⟨by decide +kernel, by
    rw [if_pos (by decide +kernel)]; exact ⟨rfl, by decide +kernel⟩⟩
theorem wit_Exceptions_rmwPost : let w := wg 2 18 1 0 255 6 6 0 0; let s := vm (clut (thr w grp0 blk0 laV)); Finds s w (tv s w 4 .write) (exs s 4 .write (grp0.eas w)) { cause := 6, lane := 3, addr := 1003 } := by
  refine ⟨by unfold Issues; decide +kernel, by decide +kernel, ?_, by decide +kernel, by decide +kernel, by decide +kernel⟩
  unfold FindsCauses; rw [show rowOf (wg 2 18 1 0 255 6 6 0 0) = .rmwPost from by decide +kernel]; exact ⟨by decide +kernel, by
    rw [if_neg (by decide +kernel)]; exact ⟨tl (vm (clut (thr (wg 2 18 1 0 255 6 6 0 0) grp0 blk0 laV))) (wg 2 18 1 0 255 6 6 0 0) 4 .write, exs (vm (clut (thr (wg 2 18 1 0 255 6 6 0 0) grp0 blk0 laV))) 4 .write (grp0.eas (wg 2 18 1 0 255 6 6 0 0)), by decide +kernel, by decide +kernel⟩⟩
/-- Without pre-emption an atomic and an ll meet uncorrectable data. -/
theorem wit_Exceptions_poisonPost : let w := wg 2 18 1 0 255 10 6 0 0; let s := { vm (clut (thr w grp0 blk0 laN)) with poison := [512] }; Finds s w (tv s w 4 .write) ([{ cause := 10, lane := 3, addr := 65548 }]) { cause := 10, lane := 3, addr := 65548 } := by
  refine ⟨by unfold Issues; decide +kernel, by decide +kernel, ?_, by decide +kernel, by decide +kernel, by decide +kernel⟩
  unfold FindsCauses; rw [show rowOf (wg 2 18 1 0 255 10 6 0 0) = .rmwPost from by decide +kernel]; exact ⟨by decide +kernel, by
    rw [if_neg (by decide +kernel)]; exact ⟨tl ({ vm (clut (thr (wg 2 18 1 0 255 10 6 0 0) grp0 blk0 laN)) with poison := [512] }) (wg 2 18 1 0 255 10 6 0 0) 4 .write, exs ({ vm (clut (thr (wg 2 18 1 0 255 10 6 0 0) grp0 blk0 laN)) with poison := [512] }) 4 .write (grp0.eas (wg 2 18 1 0 255 10 6 0 0)), by decide +kernel, by decide +kernel⟩⟩
theorem wit_Exceptions_evRec : let w := wd 20 0 0 0 12 6 0 0xD0; let s := vm (clut (thr w grp0 blk0 laV)); Finds s w ((fu s g0).eventWord 5 77 (.core 2)).2 ([{ cause := 6, lane := 0, addr := 77 }, { cause := 7, lane := 0, addr := 77 }]) { cause := 6, lane := 0, addr := 77 } := by
  refine ⟨by unfold Issues; decide +kernel, by decide +kernel, ?_, by decide +kernel, by decide +kernel, by decide +kernel⟩
  unfold FindsCauses; rw [show rowOf (wd 20 0 0 0 12 6 0 0xD0) = .evRec from by decide +kernel]; exact ⟨by decide +kernel, ((fu (vm (clut (thr (wd 20 0 0 0 12 6 0 0xD0) grp0 blk0 laV))) g0).eventWord 5 77 (.core 2)).1, by decide +kernel, by decide +kernel⟩
theorem wit_Exceptions_semRel : let w := wd 20 1 0 0 8 6 0 0xD0; let s := vm (clut (thr w grp0 blk0 laV)); Finds s w (fu s g0) ([{ cause := 8, lane := 0 }]) { cause := 8, lane := 0 } := by
  refine ⟨by unfold Issues; decide +kernel, by decide +kernel, ?_, by decide +kernel, by decide +kernel, by decide +kernel⟩
  unfold FindsCauses; rw [show rowOf (wd 20 1 0 0 8 6 0 0xD0) = .semRel from by decide +kernel]; exact ⟨by decide +kernel, rfl, by decide +kernel⟩

/-- Both ways round the ring from die 0 have failed, and the page table's root is on die 1. -/
def cutOff (s : State) : State := { s.setReg (partPtroot 5 + 4) 0x20 with d2d := [0, 3] }
/-- Its load waits. -/
theorem wit_Exceptions_cut : let w := wg 2 16 1 2 7 10 0 0 0; let s := cutOff (vm (clut (thr w grp0 blk0 la0)))
    Issues s g0 w (cx s g0) (fu s g0) ∧ FindsCauses (fu s g0) g0 (cx s g0) w (tv s w 4 .read) (exs s 4 .read (grp0.eas w)) ∧ (exs s 4 .read (grp0.eas w)).any (fun x => x.cause == exCut) = true := by
  refine ⟨by unfold Issues; decide +kernel, ?_, by decide +kernel⟩
  unfold FindsCauses; rw [show rowOf (wg 2 16 1 2 7 10 0 0 0) = .ldGlobal from by decide +kernel]
  exact ⟨by decide +kernel, tl (cutOff (vm (clut (thr (wg 2 16 1 2 7 10 0 0 0) grp0 blk0 la0)))) (wg 2 16 1 2 7 10 0 0 0) 4 .read, by decide +kernel⟩
/-- No page is mapped where the first GiB was. -/
def unmapped (s : State) : State := { s with mem := msetBytes [] 0x5F000000 (leBytes 8 0) }
/-- Nothing is cached: the fetch fails. -/
theorem wit_Exceptions_fetch : let s := unmapped (onCore (fun p => { p with icache := [] }) (th 0)); let e : Exc := { cause := 7, lane := 0, addr := 256 }
    okGroup g0 = true ∧ s.issueCtx g0 = some (cx s g0) ∧ s.fetch g0 (cx s g0) = (.fault e, fu s g0) ∧ s.turn g0 0 = true ∧ (cx s g0).la.part < 64 :=
  ⟨by decide +kernel, by decide +kernel, Prod.ext (by decide +kernel) rfl, by decide +kernel, by decide +kernel⟩
/-- A matrix unit of the group's block without handles. -/
def NoHandle (w : Word64) (r : IRow) : Prop :=
  Iss (tm w { mx0 with handles := [] }) w r fun c u => c.la.part < 64 ∧ MxOwn u g0 c ∧ tfind (u.mx 2).handles (mHa w) = none
theorem wit_Exceptions_handle : NoHandle (mw 2 2 0 255 255 1) .mxLdb ∧ NoHandle (mw 3 1 0 6 6 (2 ^ 10 + 31)) .mxMma ∧ NoHandle (mw 5 3 1 255 255 0) .mxAddraw := by
  unfold NoHandle Iss Issues MxOwn; decide +kernel
theorem wit_Exceptions_lowest : let xs : List Exc := [{ cause := 7, lane := 2 }, { cause := 6, lane := 9 }, { cause := 6, lane := 4, addr := 3 }]
    (∀ z ∈ xs, z.lane < 32) ∧ pickExc xs = some { cause := 6, lane := 4, addr := 3 } := by decide +kernel
/-- An address that is not aligned, and one that no page maps. -/
theorem wit_Exceptions_lanes : (3, 1003) ∈ grp0.eas (wg 2 16 1 2 7 6 0 0 0) ∧ 1003 % 4 ≠ 0 ∧
    (unmapped (th 0)).transl 5 0x10000 .read (.core 2) = (.error .translation, ((unmapped (th 0)).transl 5 0x10000 .read (.core 2)).2) := by decide +kernel
/-- A store through a window to the group's own block, of a group that has exited, is not served: the barrier stays. -/
theorem wit_GroupsWait_windows : let r : CReq := { cr0 with guid := 70 }; let s := onCore (fun p => { p with creqs := [(4, r)] }) (waits (.barrier true))
    (waits (.barrier true)).windowWrites ((waits (.barrier true)).clusterOf g0) = false ∧
    okGroup g0 = true ∧ s.group? g0 = some { grp0 with wait := .barrier true } ∧ s.windowWrites (s.clusterOf g0) = true := by decide +kernel

/-! Cluster windows, global memory and atomics: the further cases. -/

/-- The lines of HBM that a state's work needs are fetched. -/
def fetched (ls : List Nat) (s : State) : State := { s with chans := [(0, { fetched := ls })] }
/-- The request's target is there, or another block is in its place. -/
theorem wit_Cluster_served : ∀ k ∈ [0, 1, 2, 3], (let r := { cr0 with kind := k }; let s := onCore (fun p => { p with creqs := [(4, r)] }) (th 0)
      tfind (s.core 2).creqs 4 = some r ∧ Servable s 2 4 r ∧ ∀ x ∈ r.lanes, (s.blockAt x.core x.slot).map (·.uid) = some x.block) ∧
    let r := { cr0 with kind := k, lanes := [⟨3, 2, 2, 99, 16, [1, 2, 3, 4]⟩] }; let s := onCore (fun p => { p with creqs := [(4, r)] }) (th 0)
      tfind (s.core 2).creqs 4 = some r ∧ Servable s 2 4 r ∧ ∀ x ∈ r.lanes, (s.blockAt x.core x.slot).map (·.uid) ≠ some x.block := by unfold Servable; decide +kernel
/-- Partition 5's first GiB is Device-Strict. -/
def strictMem (s : State) : State := { s with mem := msetBytes s.mem 0x5F000000 (leBytes 8 0x1F) }
theorem wit_Global_load_strict : let s := strictMem (th wLd); let ls := tl s wLd 4 .read; let v := tv s wLd 4 .read
    Iss s wLd .ldGlobal fun c u => GlobalOk u g0 c wLd (widthOf wLd) .read ls v ∧ ls ≠ [] ∧ ls.any (·.tr.mt) = true ∧ v.strictPending g0 c.gr.uid = false ∧ forwardOf v g0 c (widthOf wLd) ls = .none ∧
      (v.core g0.core).trackHit false (spansOf (widthOf wLd) ls) = false ∧ (v.core g0.core).trackFull = false := by unfold Iss Issues GlobalOk; decide +kernel
/-- Every lane claims: the block has five tiles left. -/
theorem wit_Global_claims : let w := wd 16 1 2 7 20 0 128 0; let s := vm (clut (thr w grpP blk0 la0))
    Iss s w .ldGlobal fun c u => u.accessWait g0 c.gr.uid w false = none ∧ (c.gr.eas w).length = 32 ∧ (∀ e ∈ c.gr.eas w, inClaimPage e.2 = true ∧ e.2 % 4 = 0) ∧ widthOf w = 4 ∧ fD w ≠ 255 := by
  unfold Iss Issues; decide +kernel
/-- A push whose launch is found hung, or whose group has stopped. -/
theorem wit_Global_push_stops : ∀ x ∈ [({ la0 with hung := 2 }, false), (la0, true)],
    let s := onCore (fun p => { p with groups := [(19, { grp0 with wait := .push, push := some ⟨[(0, List.replicate 16 1)]⟩, stopped := x.2 })] }) (pushW x.1)
    (s.group? g0).map (fun gr => (gr.wait, gr.push.isSome, gr.stopped)) = some (.push, true, x.2) ∧ s.launch? 9 = some x.1 := by decide +kernel
theorem wit_Global_data_lanes : let l := { ldOut with reads := [{ lane := 3, va := 65548, tgt := .hbm 65548, width := 4 }, { lane := 4, va := 65552, tgt := .hbm 65552, width := 4 }] }
    let s := onCore (fun p => { p with loads := [(1, l)] }) (th 0)
    tfind (s.core 2).loads 1 = some l ∧ (∀ x ∈ l.reads, x.tgt = .hbm x.va ∧ s.hbmWaits x.va x.width = false ∧ s.chanRetired (x.va / 2 ^ 31) = false ∧ s.poisoned x.va x.width = false ∧
      s.reaches l.cut .load .readData 2 x.tgt = true) ∧ (s.core 2).olderRead 2 (l.reads.map fun x => (x.tgt.key, x.width)) = false ∧ (s.resultGroup 2 l.guid l.launch l.run l.site).isSome = true := by decide +kernel
/-- Atomics of every lane without pre-emption, returning and posted: their lines are here. -/
def AtomsAll (w : Word64) (r : IRow) : Prop :=
  let s := fetched [512] (thN w); let ls := tl s w 4 .write; let v := tv s w 4 .write
  Iss s w r fun c u => c.la.nonpre = true ∧ AtomOk u g0 c w ls v ∧ ls.length = 32 ∧ ∀ x ∈ ls, x.tr.tgt = .hbm x.va
theorem wit_Atomics_all_lanes : AtomsAll (wd 18 5 0 7 10 6 0 0) .rmwGlobal := by unfold AtomsAll Iss Issues AtomOk HomeOk; decide +kernel
theorem wit_Atomics_all_lanes_posted : AtomsAll (wd 18 1 0 255 10 6 0 0) .rmwPost := by unfold AtomsAll Iss Issues AtomOk HomeOk; decide +kernel
/-- Posted atomics to another module without pre-emption. -/
theorem wit_Atomics_posted_remote_nonpre : let w := wd 18 3 0 255 12 6 0 0
    Iss (thN w) w .rmwPost fun c u => atomIsRemote w = true ∧ c.la.nonpre = true ∧ RemoteOk u g0 c w (atomWidth w) true false false ∧ u.hasSlots (dieOfPhys g0.core) (c.gr.eas w).length false = true := by
  unfold Iss Issues RemoteOk; decide +kernel
theorem wit_Reservations_ll_here : let s := fetched [512] (thN wLl); let x := t1 s wLl (widthOf wLl) .read; let v := tv s wLl (widthOf wLl) .read
    Iss s wLl .ll fun c u => fSub wLl = 2 ∧ fOrder wLl = 0 ∧ c.la.nonpre = true ∧ u.accessWait g0 c.gr.uid wLl true = none ∧ c.gr.eas wLl = [(3, 65548)] ∧
      u.translLanes g0.core c.la.part (widthOf wLl) .read [(3, 65548)] = (([x], []), v) ∧ x.tr.mt = false ∧ v.poisonedAt x.tr.tgt (widthOf wLl) = false ∧ HomeOk v g0 c (widthOf wLl) false [x] := by
  unfold Iss Issues HomeOk; decide +kernel
theorem wit_Reservations_sc_reaches : let s := thN wSc; let x := t1 s wSc (widthOf wSc) .write; let v := tv s wSc (widthOf wSc) .write
    Iss s wSc .sc fun _ _ => x.tr.tgt = .hbm 65548 ∧ v.reaches v.d2d .atomic .acknowledgement g0.core (.hbm 65548) = true := by unfold Iss Issues; decide +kernel
theorem wit_Records_event_here : let w := wd 20 0 0 0 10 8 0 0xC0; let s := fetched [512] (thN w)
    Iss s w .evRec fun c u => c.la.nonpre = true ∧ u.accessWait g0 c.gr.uid w false = none ∧ u.eventWord c.la.part (c.gr.rd 0 true (fA w) 2) (.core g0.core) = (.ok 0x10000, evAt s) ∧
      (evAt s).poisoned 0x10000 8 = false ∧
      HomeOk (evAt s) g0 c 8 true [{ lane := c.gr.low, va := c.gr.rd 0 true (fA w) 2, tr := { tgt := .hbm 0x10000, mt := false, ea := false, w := true } }] := by
  unfold Iss Issues HomeOk; decide +kernel

/-! The matrix unit: the further cases. -/

/-- The anchor in a uniform register. -/
theorem wit_Matrix_clr_register : Iss (tm (mw 4 0 1 6 255 0) mx0) (mw 4 0 1 6 255 0) .mxClr fun c u => MxOwn u g0 c ∧ fD (mw 4 0 1 6 255 0) ≠ 255 := by unfold Iss Issues MxOwn; decide +kernel
/-- A drain of tile 1 in format 3 to 0x10000: its rows, and what they cover. -/
def dw0 : Word64 := mw 6 0 1 10 255 3
/-- Spans and state of that drain. -/
def drainSp (s : State) : List (Nat × Nat) × State := (fu s g0).spansRows 2 5 .write ((drainExtents 3 32 0x10000 64).map fun e => (e.1.toNat, e.2))
theorem wit_Matrix_drain_global : let s := tm dw0 mx0; let sp := (drainSp s).1; let v := (drainSp s).2
    Iss s dw0 .mxDrain fun c u => MxOwn u g0 c ∧ getBits (mImm dw0) 4 2 = 0 ∧ getBits (mImm dw0) 3 1 = 0 ∧ getBits (mImm dw0) 0 3 = 3 ∧ c.gr.rd 0 true (fD dw0) 2 = 0x10000 ∧ fA dw0 = 255 ∧
      64 * drainSize 3 = 64 ∧ (let lh := extentSpan (drainExtents 3 32 0x10000 64); c.la.covers lh.1 lh.2 = true) ∧
      u.spansRows g0.core c.la.part .write ((drainExtents 3 32 0x10000 64).map fun e => (e.1.toNat, e.2)) = (sp, v) ∧ u.accessWait g0 c.gr.uid dw0 false = none ∧
      u.sbufHit g0 c.gr.uid sp = false ∧ (v.core 2).trackFull = false ∧ (v.core 2).trackHit true sp = false := by unfold Iss Issues MxOwn; decide +kernel
/-- Operands of two K-blocks a beat, FP4 and INT4. -/
theorem wit_Entries_two_blocks : ∀ f ∈ [4, 6], let x := { mx0 with handles := [(1, { hA with fmt := f })], stat := some { fmt := f, scaled := false, image := List.replicate 2048 17 } }
    let s := tm 0 { x with queue := [en (.mma 1 0 0 4 8 1)] }
    Startable s 2 2 blk0 la0 (en (.mma 1 0 0 4 8 1)) [] ∧ tfind (s.mx 2).handles 1 = some { hA with fmt := f } ∧ (mxFmt f).isSome = true ∧ kblocksPerBeat f = 2 := by unfold Startable; decide +kernel
/-- A unit whose raw image at handle 3 has anchor 0. -/
def teR : State := tm 0 { mx0 with queue := [en (.addraw 3 0 1)], buf := [(40960, 0), (40961, 0)] }
/-- The anchor of a raw image: two bytes of the buffer. -/
theorem anchor_bytes (x : Mx) (o : Nat) : numAt (x.bytes o rawBytes) 32768 2 = (x.byte (o + 32768)).toNat + 256 * (x.byte (o + 32769)).toNat := by
  have h (i : Nat) (hi : i < 32800) : ((List.range 32800).map fun k => x.byte (o + k)).getD i 0 = x.byte (o + i) := by simp [hi]
  unfold numAt slice Mx.bytes upTo rawBytes
  rw [show List.range 2 = [0, 1] from rfl]
  simp only [List.map_cons, List.map_nil, leNat, h (32768 + 0) (by omega), h (32768 + 1) (by omega), Nat.mul_zero, Nat.add_zero]
theorem wit_Entries_raw_anchor : Startable teR 2 2 blk0 la0 (en (.addraw 3 0 1)) [] ∧ tfind (teR.mx 2).handles 3 = some hR ∧ numAt ((teR.mx 2).rawImage hR 0) 32768 2 = 0 := by
  refine ⟨by unfold Startable; decide +kernel, by decide +kernel, ?_⟩
  rw [show (teR.mx 2).rawImage hR 0 = (teR.mx 2).bytes 8192 rawBytes from rfl, anchor_bytes]; decide +kernel
/-- The table with drains in format 3 to `dst`, from `c0` on, handle 4 their destination. -/
def tabDrain (dst : Byte) (c0 : Nat) : List Byte := [1, 0x21, 31, 7, 0, 0, 3 + 16 * dst, 0] ++ List.replicate 8 0 ++ leBytes 8 c0 ++ [0, 0, 0, 0, if dst = 2 then 4 else 0] ++ List.replicate 35 0 ++ (tabBytes 1).drop 64
/-- The group before mx.nest with that table. -/
def tnD (dst : Byte) (c0 : Nat) : State :=
  onCore (fun p => { p with blocks := [(2, { blk0 with lsBytes := 65536, ls := (upTo 96).map fun i => (i, (tabDrain dst c0).getD i 0) })] }) (tm (mw 8 0 0 6 255 0) mx0)
theorem wit_Nests_accept_handle : Iss (tnD 2 0) (mw 8 0 0 6 255 0) .mxNest fun c u => MxOwn u g0 c ∧ c.gr.rd 0 true 6 1 = 0 ∧ (c.blk.byte 0).toNat % 8 = 1 ∧
    u.accessWait g0 c.gr.uid (mw 8 0 0 6 255 0) false = none ∧ u.tableBusy g0 c.gr.uid c.gr.block 0 96 = false ∧ c.blk.bytes 0 96 = tabDrain 2 0 ∧ (u.mx 2).nestCheck (tabDrain 2 0) c.blk.lsBytes = none ∧
    (u.mx 2).resident 1 = true ∧ (u.mx 2).resident 2 = true ∧ (nestTab (tabDrain 2 0)).hdr.drain = true ∧ (nestTab (tabDrain 2 0)).hdr.dst = 2 ∧ (nestTab (tabDrain 2 0)).hdr.hc = 4 ∧ (u.mx 2).unused 4 = true := by
  unfold Iss Issues MxOwn; decide +kernel
theorem wit_Nests_accept_local : let n := nestTab (tabDrain 1 4096); let sp := [(localKey 2 4096, 2048)]
    Iss (tnD 1 4096) (mw 8 0 0 6 255 0) .mxNest fun c u => MxOwn u g0 c ∧ c.blk.bytes 0 96 = tabDrain 1 4096 ∧ u.tableBusy g0 c.gr.uid c.gr.block 0 96 = false ∧
    (u.mx 2).nestCheck (tabDrain 1 4096) c.blk.lsBytes = none ∧ n.hdr.drain = true ∧ n.hdr.dst = 1 ∧ n.drainSpan 0 = (4096, 6144) ∧ c.gr.block = 2 ∧
    u.sbufHit g0 c.gr.uid sp = false ∧ (u.core 2).trackFull = false ∧ (u.core 2).trackHit true sp = false := by unfold Iss Issues MxOwn; decide +kernel
/-- Spans and state of a nest's drains to 0x10000. -/
def nestSp (s : State) : List (Nat × Nat) × State := (fu s g0).spansVa 2 5 .write (2048 / 4096 + 2) 0x10000 2048
theorem wit_Nests_accept_global : let n := nestTab (tabDrain 0 0x10000); let s := tnD 0 0x10000; let sp := (nestSp s).1; let v := (nestSp s).2
    Iss s (mw 8 0 0 6 255 0) .mxNest fun c u => MxOwn u g0 c ∧ c.blk.bytes 0 96 = tabDrain 0 0x10000 ∧ u.tableBusy g0 c.gr.uid c.gr.block 0 96 = false ∧
    (u.mx 2).nestCheck (tabDrain 0 0x10000) c.blk.lsBytes = none ∧ n.hdr.drain = true ∧ n.hdr.dst = 0 ∧ n.drainSpan 0 = (0x10000, 0x10800) ∧ c.la.covers 0x10000 0x10800 = true ∧
    u.spansVa g0.core c.la.part .write (2048 / 4096 + 2) 0x10000 2048 = (sp, v) ∧ v.sbufHit g0 c.gr.uid sp = false ∧ (v.core 2).trackFull = false ∧ (v.core 2).trackHit true sp = false := by
  unfold Iss Issues MxOwn; decide +kernel
/-- The point's product has its operands: rows of handle 1, a stationary tile. -/
theorem wit_Nests_mma_operands : let x := (tr { nr 1 with curB := some 1 }).mx 2; tfind x.handles (nr 1).tab.hdr.ha = some hA ∧ x.stat.map (·.fmt) = some 1 ∧ mxFmt hA.fmt = some .e4m3 ∧ mxFmt 1 = some .e5m2 := by decide +kernel
/-- A nest that ends holds a tracker entry that no drain needs any more. -/
theorem wit_Nests_end_track : let n := { nr 2 with track := some 6 }; let s := onCore (fun p => { p with art := [(6, { guid := 7, launch := 9, run := 0, part := 5, isWrite := true, spans := [(65536, 4)] })] }) (tr n)
    Runs s n ∧ walkLen n.tab.levs ≤ n.pos ∧ n.due = [] ∧ (∀ e ∈ (s.mx 2).drains, e.2.track ≠ some 6) ∧ (tfind (s.core 2).art 6).isSome = true := by unfold Runs; decide +kernel

/-! Front end, commit, resets, charts and translations: the further cases. -/

/-- Every lamp is out but PCIe's. -/
def dark (s : State) : State := (s.setReg rimLamps (BitVec.ofNat 32 (2 ^ lampPcie))).setReg (rimLamps + 4) 0
theorem wit_Queues_doorbell_dark : let s := dark (pw [] [(qkey 5 1, { cfg := 0x1000, tail := 3 })])
    okVf 5 = true ∧ s.vfOpen 5 = true ∧ s.vfPart 5 = some 5 ∧ 0 ∈ entDies (s.ent 5) ∧ s.lamp (lampDie 0) = false := by decide +kernel
/-- The entry of an event record. -/
def eR : List Byte := [2] ++ List.replicate 7 0 ++ leBytes 8 0x60000 ++ leBytes 8 7 ++ List.replicate 40 0
/-- Its turn has come, the line of its word being here or not. -/
theorem wit_Issue_event_line : ∀ f : Bool, let s := fetched (if f then [0x60000 / 128] else []) (qe eR {} []); let v := qf s
    Turn s 5 1 eR v ∧ eType eR = 2 ∧ entryErrs eR ++ v.chartErrs 5 eR = [] ∧ v.eventWord 5 (eAddr eR) = (.ok 0x60000, (v.eventWord 5 (eAddr eR)).2) ∧ v.poisoned 0x60000 8 = false ∧
      v.linesHere [(.hbm 0x60000, 8)] = f := by unfold Turn; decide +kernel
theorem wit_Commit_event_line : ∀ f : Bool, let l := laC ckEvent .waiting false; let s := fetched (if f then [0x60000 / 128] else []) (sc l); let r := s.eventWord 5 0x60000
    (s.die 0).contexts = [9] ∧ s.launch? 9 = some l ∧ (l.cq.findIdx? fun x => x.st == .waiting) = some 0 ∧ (l.cq.all fun e => !e.poison && s.maySend l 0 e && e.kind == ckEvent && e.addr == 0x60000) = true ∧
      r = (.ok 0x60000, r.2) ∧ r.2.poisoned 0x60000 8 = false ∧ r.2.linesHere [(.hbm 0x60000, 8)] = f := by decide +kernel
/-- Past the limit one entry is done, one sent, one not sent. -/
theorem wit_Commit_limit : let e (st : CqState) : CqEntry := { kind := ckEvent, width := 8, op := 0, origin := 0, addr := 0x60000, data := leBytes 8 77, st := st }
    let l := { laC ckEvent .sent false with cq := [e .done, e .sent, e .waiting] }; let s := sc l
    s.launch? 9 = some l ∧ l.phase = .performing ∧ l.ctxGt + 200000 ≤ s.now ∧ l.part < 64 ∧ (l.cq.filter openEntry).length = 2 := by decide +kernel
/-- The vector of a route's completion is that of a function that exists, masked. -/
theorem wit_Routes_vector : let s := sr (some { op := 3, route := 3, result := 0 }); s.vfOf 5 = 5 ∧ s.vfExists 5 = true ∧ s.host.unmasked.contains (5 * 4096 + 57) = false := by decide +kernel
theorem wit_Reset_epoch_record : let s := sp 1 false [(9, laK)]; s.launches = [(9, laK)] ∧ laK.fail = none ∧ laK.replay = none ∧ ∀ d, d < 4 → (s.die d).reads = [] ∧ (s.die d).tracks = [] := by decide +kernel
/-- A launch that the reset has ended, its completion ring at 0x50000. -/
theorem wit_Reset_records : let l := { laK with phase := .ended }; let s := { sp 2 false [(9, l)] with queues := [(qkey 5 1, { cpl := 0x50000, head := 2 })] }
    let r := (s.release 9 l).translSpan 5 ((s.queue l.qk).cpl + 32 * (l.seq % (s.queue l.qk).size)) 32 .write
    (s.part 5).reset = 2 ∧ s.launches = [(9, l)] ∧ l.call = none ∧ l.replay = none ∧ r = (.ok [({ tgt := .hbm 0x50040, mt := false, ea := true, w := true }, 32)], r.2) ∧
      r.2.dieSees (s.leadDie 5) (.hbm 0x50040) = true := by decide +kernel
theorem wit_Reset_none_ahead : NoneAhead (sp 1 false [(9, laK)]) 5 := fun _ => ⟨fun _ h => absurd h List.not_mem_nil, fun _ h => absurd h List.not_mem_nil⟩
/-- An unanswered request of an old epoch. -/
theorem wit_Reset_old_requests : let s := ({ sp 3 false [] with dies := [(0, { reads := [(0, { q0 0 0 with part := 5, epoch := 9 })] })] } : State)
    (s.part 5).reset = 3 ∧ s.oldRequests 5 = true := by decide +kernel
/-- A new partition's chart, while a die that it names awaits its reset or not. -/
theorem wit_Charts_new : ∀ f : Bool, let s := { sg false true with chart := { (sg false true).chart with parts := [] }, boot := { (sg false true).boot with dieWait := if f then [0] else [] } }
    ∃ g, (s.part 5).staged = some g ∧ (s.part 5).activating = true ∧ (s.part 5).reset = 0 ∧ s.quiet 5 = true ∧ s.valid 5 = false ∧ s.stagedRetired 5 g = false ∧ s.installHeld g = f := by
  intro f; refine ⟨_, rfl, ?_⟩; revert f; decide +kernel
theorem wit_Charts_new_activate : let s := { sg false false with chart := { (sg false false).chart with parts := [] }, boot := { (sg false false).boot with dieWait := [0] } }
    ∃ g, (s.part 5).staged = some g ∧ Stored s chartCtrl ∧ s.bit chartStatus 0 = false ∧ (s.part 5).activating = false ∧ s.stagedRetired 5 g = false ∧ s.valid 5 = false ∧ s.installHeld g = true :=
  ⟨_, rfl, by unfold Stored; decide +kernel⟩
theorem wit_Charts_activated_valid : (sg false true).valid 5 = true := by decide +kernel
/-- An image with one partition: core set 0, channel 0, ways 0 and 1, key slot 3, function 4. -/
def img : List Byte := List.replicate 0x28 0 ++ leBytes 4 0x80 ++ leBytes 4 64 ++ List.replicate 24 0 ++ leBytes 4 0xC0 ++ leBytes 4 0x30 ++ List.replicate 0x30 0 ++
  [1, 0, 3, 4, 4, 0, 0, 0] ++ leBytes 8 1 ++ leBytes 8 3 ++ List.replicate 8 0 ++ leBytes 32 1 ++ List.replicate 0x30 0
theorem wit_Charts_image : let s := (hi img (lit {})).setReg chartCtrl 3; ChecksCharts s ∧ s.bit chartCtrl 1 = true ∧ s.chart.applying = false ∧ s.chart.image = img ∧ s.validParts = [] ∧ (imEnts img).length = 1 ∧
    ∀ e ∈ imEnts img, s.entRetired (s.imRCores img) (s.imRChans img) (imSubst img) e.2 = false := by unfold ChecksCharts; decide +kernel
/-- A running wait whose word is mapped still, and one whose word is mapped no longer, as INV clears. -/
theorem wit_Ways_rebind : ∀ f : Bool, let s := (if f then sw laW 0 else unmapped (sw laW 0)).setBit (partTlbinv 5) 0 true
    s.bit (partTlbinv 5) 0 = true ∧ s.oldUse 5 = false ∧ s.staleUse 5 = false ∧ s.launch? 9 = some laW ∧ laW.part = 5 ∧ (s.eventNow 5 (eAddr laW.entry)).toOption = (if f then some 0x60000 else none) := by decide +kernel
theorem wit_Ends_seen : (sw laW 6).wordSeen laW = true ∧ (let l := { laK with phase := .ended }; let s := pw [(9, l)] [(qkey 5 1, { cpl := 0x50000, done := 2 })]; s.recordCut l = false ∧
    ((s.release 9 l).translSpan 5 0x50040 32 .write).2.dieSees (s.leadDie 5) (.hbm 0x50040) = true) := by decide +kernel
/-- The partition that a doorbell reaches and a queue that wants a watch are up. -/
theorem wit_Queues_up : (pw [] [(qkey 5 1, { cfg := 0x1000, tail := 3 })]).partUp 5 = true ∧ (pw [(9, { laK with phase := .acquired })] [(qkey 5 1, { cfg := 0x1000, want := some 77 })]).partUp 5 = true := by decide +kernel

/-! Controllers, copies and messages: the further cases. -/

/-- A read that something waits for, a write of a spoilt line, sound or poisoned. -/
theorem wit_Controllers_hold : let r : HbmReq := { cls := 3, line := 8, gt := 1, hold := true }; ∀ b : Bool, let w : HbmReq := { cls := 4, line := 8, gt := 1, writes := true, bad := b }
    ServesOnly (hc { scrubGt := 5000000, reqs := [r] }) 3 ∧ ((hc { scrubGt := 5000000, reqs := [r] }).chan 3).reqs = [r] ∧ tfind ((hc { scrubGt := 5000000, reqs := [r] }).die (3 / 64)).l2 r.line = none ∧
      ServesOnly (hc { scrubGt := 5000000, reqs := [w], spoilt := [8] }) 3 ∧ ((hc { scrubGt := 5000000, reqs := [w], spoilt := [8] }).chan 3).reqs = [w] ∧ w.gen = false := by unfold ServesOnly NoneOwed; decide +kernel
/-- The scrub is late: a write waits for it. -/
def scrubDue (c : Chan) : State := { (hc c).setReg (hbmScrubPos 3) 1000 with gt := 10 ^ 12 }
theorem wit_Controllers_scrub_first : let s := scrubDue { reqs := [{ cls := 4, line := 8, gt := 10 ^ 12, writes := true }] }
    okChan 3 = true ∧ s.serves 3 = true ∧ s.scrubFirst 3 = true ∧ (s.chan 3).calDue = none ∧ (s.chan 3).tgHold = false ∧ NoneOwed s := by unfold NoneOwed; decide +kernel
/-- The line that the scrub reads next is in L2, or in neither. -/
theorem wit_Channels_sheltered : ∀ f : Bool, let s := { hc {} with dies := if f then [(0, { l2 := [(2 ^ 24 * 3, { way := 3, modified := true })] })] else [] }
    s.serves 3 = true ∧ s.scrubTurn 3 = true ∧ (s.reg (hbmScrubPos 3)).toNat = 0 ∧ s.sheltered (2 ^ 24 * 3) = f := by decide +kernel
theorem wit_Copies_lamps : let l := laX (cdN0 0 8192) []; (sx l).lamp (lampDie (6 / 16)) = true ∧ (dark (sx l)).lamp (lampDie (6 / 16)) = false := by decide +kernel
/-- A request of a copy or a fold whose lines the home slice has or has not. -/
theorem wit_Copies_lines : ∀ m ∈ [0, 3], ∀ f : Bool, let d := cdN0 m 128; let o : Tbl CopyReq := [(2, { pos := 0, len := 128 })]; let l := laX d o; let s := fetched (if f then [2048] else []) (sx l)
    let r := (s.takeLines (s.reqSources l { pos := 0, len := 128 })).copyRead l d 0x40000 128
    Copying s 6 9 l { engine := 6, die := 0, desc := d, out := o } ∧ s.copyReq? 6 2 = some (9, l, { pos := 0, len := 128 }) ∧ s.copyReaches l { pos := 0, len := 128 } = true ∧
      s.linesHere (s.reqSources l { pos := 0, len := 128 }) = f ∧ r = (.ok (eK ++ eK), r.2) := by
  unfold Copying; decide +kernel
theorem wit_Copies_to : let d := cdN0 0 128; let l := laX d [(2, { pos := 0, len := 128 })]; let s := fetched [2048] (sx l); let r := (s.takeLines (s.reqSources l { pos := 0, len := 128 })).copyRead l d 0x40000 128
    let q := r.2.translSpan 5 0x50000 128 .write l.copyWalker; q = (.ok [({ tgt := .hbm 0x50000, mt := false, ea := true, w := true }, 128)], q.2) := by decide +kernel
/-- Where a request's bytes lie, as its router finds it. -/
def pieces (s : State) (k : Nat) (acc : TAcc) : List (Tr × Nat) :=
  match (s.translSpan 5 0x40000 k acc).1 with
  | .ok ps => ps
  | .error _ => []
theorem wayOpen (s : State) (m : Msg) (k : Nat) (acc : TAcc) (b : Bool) (hp : m.part = 5) (hv : m.va = 0x40000) (h : (s.translSpan 5 0x40000 k acc).1 = .ok (pieces s k acc))
    (hc : s.piecesCut (dieOfLink 9) (pieces s k acc) = false) (hl : b = true → s.linesHere ((pieces s k acc).map fun e => (e.1.tgt, e.2)) = true) : WayOpen s 9 m k acc b :=
  ⟨pieces s k acc, by rw [hp, hv]; exact h, hc, hl⟩
/-- The lines that a read or an atomic needs are here. -/
theorem wit_Requests_way_read : let s := fetched [2048] (sm m0 []); Arr s m0 mRd ∧ (um s m0).reqErr m0 = none ∧ WayOpen s 9 m0 64 .read true :=
  ⟨by unfold Arr Arrives; decide +kernel, by decide +kernel, wayOpen _ _ _ _ _ rfl rfl (by decide +kernel) (by decide +kernel) fun _ => by decide +kernel⟩
theorem wit_Requests_way_write : ∀ t ∈ [mWr, mWrf], let m := { m0 with typ := t, data := [1, 2, 3, 4] }; WayOpen (sm m []) 9 m 4 .write false := by
  intro t _; exact wayOpen _ _ _ _ _ rfl rfl (by revert t; decide +kernel) (by revert t; decide +kernel) fun h => by cases h
theorem wit_Requests_way_atomic : ∀ a ∈ [(0 : Nat), 16], let m := { m0 with typ := mAtom, aux := BitVec.ofNat 64 a, data := [1, 0, 0, 0] }; let s := fetched [2048] (sm m [])
    Arr s m mAtom ∧ (um s m).reqErr m = none ∧ WayOpen s 9 m 4 .write true := by
  intro a ha
  exact ⟨by revert a; unfold Arr Arrives; decide +kernel, by revert a; decide +kernel, wayOpen _ _ _ _ _ rfl rfl (by revert a; decide +kernel) (by revert a; decide +kernel) fun _ => by revert a; decide +kernel⟩
/-- A read whose line is not here, and one whose page lies on die 1, which both ways round the ring no longer reach. -/
theorem wit_Requests_waits : (let s := sm m0 []; Arr s m0 mRd ∧ (um s m0).reqErr m0 = none ∧ (s.translSpan 5 0x40000 (rdBytes m0) .read).1 = .ok (pieces s (rdBytes m0) .read) ∧
      s.piecesCut (dieOfLink 9) (pieces s (rdBytes m0) .read) = false ∧ s.linesHere ((pieces s (rdBytes m0) .read).map fun e => (e.1.tgt, e.2)) = false) ∧
    let t := sm m0 []; let s := { t with chart := { t.chart with parts := [(5, { ent5 with hbmch := 2 ^ 64 })] }, d2d := [0, 3] }
    Arr s m0 mRd ∧ (um s m0).reqErr m0 = none ∧ (s.translSpan 5 0x40000 (rdBytes m0) .read).1 = .ok (pieces s (rdBytes m0) .read) ∧ s.piecesCut (dieOfLink 9) (pieces s (rdBytes m0) .read) = true := by
  unfold Arr Arrives; decide +kernel
theorem wit_Answers_no_finals : ∀ k ∈ [0, 1, 2], NoFinals (um (sa k mWr (a0 mAck []) laK) (a0 mAck [])) := by unfold NoFinals; decide +kernel
theorem wit_Answers_no_finals_multicast : let a := a0 mAck []; let r : McRec := { tag := 1, up := some 11, left := 1, src := { m0 with src := 0 } }; NoFinals (um { sm a [] with dies := [(0, { mcast := [(3, r)] })] } a) := by
  unfold NoFinals; decide +kernel
/-- The descriptor of a collective cannot be read. -/
theorem wit_Collectives_arm_fetch : let s := unmapped (sl cl0 []); let r := s.fetchBytes 5 0x40000 64
    s.vfOpen 5 = true ∧ s.vfPart 5 = some 5 ∧ s.reg64 (vfKey 5 vfCbase) % 64 = 0 ∧ s.reg64 (vfKey 5 vfCbase) + 64 * 3 = 0x40000 ∧ r = (.error .translation, r.2) := by decide +kernel

/-! The host, sweeps and registers: the further cases. -/

/-- Partition 5's interface runs, and no stream covers its function. -/
def exq : State := se { tdi := 2 } {}
theorem wit_Host_tlp : (let s := se {} {}; okVf 5 = true ∧ s.lamp lampPcie = true ∧ s.exposed 5 = false) ∧ exq.lamp lampPcie = true ∧ exq.exposed 5 = true ∧ exq.partOf 5 = some 5 ∧ exq.vfExists 5 = true ∧ 2 ^ 41 % 4 = 0 := by decide +kernel
/-- VF Enable is clear, or set with fewer functions. -/
theorem wit_Functions_enable : let s := { se {} {} with host := { vfEnable := false, numVFs := 8 } }
    s.lamp lampPcie = true ∧ s.host.vfEnable = false ∧ s.host.numVFs ≤ 8 ∧ 4 < s.host.numVFs ∧ s.partOf 5 = some 5 ∧ (s.part 5).reset = 0 ∧ (se {} {}).host.vfEnable = true := by decide +kernel
theorem wit_Sessions_measured : ∀ tp ∈ [Transport.doe, .mctp], let s := se {} ses
    s.spdmUp tp = true ∧ tfind (s.sessions tp) 4 = some { ready := true } ∧ tfind (s.sessions tp) 6 = some {} ∧ ({ ready := true } : Session).ready = true ∧ ({} : Session).ready = false := by decide +kernel
theorem wit_Retire_l1 : ∀ f : Bool, let s := { rt [] with cores := [(2, { l1 := if f then [(7, [])] else [] })] }; okUnit .l1Parity 2 = true ∧ s.coreOk 2 = true ∧ ((s.core 2).l1 ≠ [] ↔ f = true) := by decide +kernel
/-- The line that a sweep reads is here or not. -/
theorem wit_Sweeps_here : ∀ f : Bool, let s := fetched (if f then [2048] else []) swr; let r := s.transl 5 0x40000 .read
    s.digServes 5 = true ∧ (s.part 5).sweep.running = true ∧ (s.part 5).sweep.line = some 0x40000 ∧ r = (.ok { tgt := .hbm 0x40000, mt := false, ea := true, w := false }, r.2) ∧ r.2.dieSees (r.2.leadDie 5) (.hbm 0x40000) = true ∧
      r.2.poisoned 0x40000 128 = false ∧ r.2.linesHere [(.hbm 0x40000, 128)] = f := by decide +kernel
/-- The line's page lies on die 1, which both ways round the ring no longer reach, and so does the page table. -/
theorem wit_Sweeps_cut : let t := swr; (let s := { t with chart := { t.chart with parts := [(5, { ent5 with hbmch := 2 ^ 64 })] }, d2d := [0, 3] }; let r := s.transl 5 0x40000 .read
      s.digServes 5 = true ∧ (s.part 5).sweep.line = some 0x40000 ∧ r.1.toOption.map (·.w) = some false ∧ (r.1.toOption.map fun tr => r.2.dieSees (r.2.leadDie 5) tr.tgt) = some false) ∧
    let s := { t.setReg (partPtroot 5) (BitVec.ofNat 32 (0x5F000001)) with d2d := [0, 3] }.setReg (partPtroot 5 + 4) 0x20; let r := s.transl 5 0x40000 .read
    (s.part 5).sweep.line = some 0x40000 ∧ r = (.error .cut, r.2) := by decide +kernel
/-- Vectors 0, 2 and 7 of PF0 are masked. -/
theorem wit_Vectors : ∀ v ∈ [0, 2, 7], (se {} {}).host.unmasked.contains (0 * 4096 + v) = false := by decide +kernel
theorem wit_Registers_tlp : let s := se {} {}; okReq 5 = true ∧ s.arrives 5 = true ∧ s.exposed 5 = false ∧ s.vfExists 5 = true ∧ s.exposed 0 = false ∧ ∀ r ∈ [0, 5], 2 ^ 40 + (if r = 0 then 0x10000 else 0x1000) < 2 ^ 41 := by decide +kernel
/-- Function 6 is bound to no partition. -/
theorem wit_Registers_unbound : let s := se {} {}; Reached s 6 vfApbase ∧ isPairLo (regKey 6 vfApbase) = true ∧ s.boundReq 6 = false := by unfold Reached; decide +kernel
theorem wit_Registers_apbase : let s := { se {} {} with held := [(heldKey 5 vfApbase, 0xFFFFFFFF)] }
    Reached s 5 (vfApbase + 4) ∧ s.vfPart 5 = some 5 ∧ tfind s.held (heldKey 5 vfApbase) = some 0xFFFFFFFF ∧ s.bar2Log 5 ≤ 42 := by unfold Reached; decide +kernel
theorem wit_Registers_up : (se {} {}).partUp 5 = true := by decide +kernel

end Sys2Proof.Tests
end

section
namespace Sys2Proof.Machine

/-! What every command answers (R17, R105, R111), and what it keeps. -/

/-- An answer that is a next state where `b` holds and names the misnamed unit or word elsewhere. -/
def AnswersBy (b : Bool) (o : Host.Outcome State Fault Refusal) : Prop :=
  (b = true → ∃ t, o = .next t) ∧ (b = false → o = .fault .noSuchUnit ∨ o = .fault .wrongWord)

theorem withUnit_answersBy (b : Bool) (t : State) : AnswersBy b (withUnit b t) := by
  cases b <;> simp [AnswersBy, withUnit]

theorem withWord_answersBy (g : GRef) (w : Word64) (r : IRow) (t : State) :
    AnswersBy (okGroup g && rowOf w == r) (withWord g w r t) := by
  unfold AnswersBy withWord
  by_cases hg : okGroup g = true
  · by_cases hw : rowOf w = r <;> simp [hg, hw]
  · simp [hg]

theorem next_answersBy (t : State) : AnswersBy true (.next t) := ⟨fun _ => ⟨t, rfl⟩, nofun⟩

/-- Every meaning ends in one of three answers: by a group's word, by a unit's number, or always a next state. -/
theorem exec_answersBy (c : Instr) (s : State) : AnswersBy c.wf (exec c s) := by
  cases c with
  | ctlNop | ctlExit | barBlock | barCluster | ctlJmp | fence | ctlRsr | br | brLink | i32Op | i64Op | intCmp | immV | immU | f32Op | f64Op | h2Op
  | fpCmp | cnv | sfOp | prOp | grpShfl | grpVote | ldLocal | stLocal | ldGlobal | stGlobal | zlGlobal | ldCluster | stCluster | rmwCluster
  | ldRemote | stRemote | stRemoteFinal | rmwLocal | rmwGlobal | rmwPost | ll | sc | evRec | semRel | mxHdl | mxFill | mxLdb | mxMma | mxClr
  | mxAddraw | mxDrain | mxStat | mxNest | illegalOpcode =>
    exact withWord_answersBy _ _ _ _
  | blockPlace | thiefStart | eventWaitEvaluate | eventWaitTimeout | watchSlotPoll | semAcquireTimeout | semaSlimitTimeout | launchTlimitTimeout
  | launchComplete | killComplete | commitSettleEnd | settleLimitExpiry | commitEntryAck | commitPerformLimit | chartLoad | chartLoadComplete
  | bootChartLoad | timeAnnounce | pf0Bar2Access | pf0Reset | getVersion | getCapabilities | negotiateAlgorithms | getDigests | getCertificate
  | challenge | getMeasurements | keyExchange | finish | heartbeat | keyUpdate | endSession | vendorDefined | getNonce | ownerEnrol | debugUnlock
  | debugLock | fwStage | logClear | tamperClear | mbxCommandComplete | presenceSample | presenceAssert | presenceFault | presenceFaultClear
  | tamperSample | tamperEvent | powerLoopUpdate | fastClamp | fastClampEnd | thermalTrip | coolantSample | forcedCap | forcedCapEnd | emergencyStop
  | vinMainOutOfRange | vinMainInRange | vinAuxLoss | vinAuxUp | perstNAssert | perstNDeassert | startupBegin | rimDierstWrite | hangSnapshot
  | hangDump | hangEnd | tracePortBlock | logMramWrite | logNorWrite | jtagInstruction | startModeEnd =>
    exact next_answersBy _
  | l2CorrectableError d sl wy =>
    have hwf : (Instr.l2CorrectableError d sl wy).wf = (okDie d && decide (sl < 32 ∧ wy < 16)) := by
      simp [Instr.wf, Instr.issued, Bool.and_assoc]
    rw [hwf]
    exact withUnit_answersBy _ _
  | _ => exact withUnit_answersBy _ _

/-- Every command changes nothing but a list of parts, and keeps the canonical form and the pinned records. -/
theorem exec_chg {c : Instr} {s t : State} (h : exec c s = .next t) : ∃ L, Chg L s t := by
  cases c with
  | ctlNop => exact ⟨_, chg_execCtlNop h⟩
  | ctlExit => exact ⟨_, chg_execCtlExit h⟩
  | barBlock => exact ⟨_, chg_execBarBlock h⟩
  | barCluster => exact ⟨_, chg_execBarCluster h⟩
  | barrierOpen => exact ⟨_, chg_execBarrierOpen h⟩
  | ctlJmp => exact ⟨_, chg_execCtlJmp h⟩
  | fence => exact ⟨_, chg_execFence h⟩
  | fenceComplete => exact ⟨_, chg_execFenceComplete h⟩
  | ctlRsr => exact ⟨_, chg_execCtlRsr h⟩
  | br => exact ⟨_, chg_execBr h⟩
  | brLink => exact ⟨_, chg_execBrLink h⟩
  | i32Op => exact ⟨_, chg_execI32Op h⟩
  | i64Op => exact ⟨_, chg_execI64Op h⟩
  | intCmp => exact ⟨_, chg_execIntCmp h⟩
  | immV => exact ⟨_, chg_execImmV h⟩
  | immU => exact ⟨_, chg_execImmU h⟩
  | f32Op => exact ⟨_, chg_execF32Op h⟩
  | f64Op => exact ⟨_, chg_execF64Op h⟩
  | h2Op => exact ⟨_, chg_execH2Op h⟩
  | fpCmp => exact ⟨_, chg_execFpCmp h⟩
  | cnv => exact ⟨_, chg_execCnv h⟩
  | sfOp => exact ⟨_, chg_execSfOp h⟩
  | prOp => exact ⟨_, chg_execPrOp h⟩
  | grpShfl => exact ⟨_, chg_execGrpShfl h⟩
  | grpVote => exact ⟨_, chg_execGrpVote h⟩
  | ldLocal => exact ⟨_, chg_execLdLocal h⟩
  | stLocal => exact ⟨_, chg_execStLocal h⟩
  | ldGlobal => exact ⟨_, chg_execLdGlobal h⟩
  | loadDataReturn => exact ⟨_, chg_execLoadDataReturn h⟩
  | stGlobal => exact ⟨_, chg_execStGlobal h⟩
  | pushResume => exact ⟨_, chg_execPushResume h⟩
  | storeBufferDrain => exact ⟨_, chg_execStoreBufferDrain h⟩
  | trackerRelease => exact ⟨_, chg_execTrackerRelease h⟩
  | zlGlobal => exact ⟨_, chg_execZlGlobal h⟩
  | ldCluster => exact ⟨_, chg_execLdCluster h⟩
  | stCluster => exact ⟨_, chg_execStCluster h⟩
  | rmwCluster => exact ⟨_, chg_execRmwCluster h⟩
  | clusterRequestServe => exact ⟨_, chg_execClusterRequestServe h⟩
  | clusterResponse => exact ⟨_, chg_execClusterResponse h⟩
  | ldRemote => exact ⟨_, chg_execLdRemote h⟩
  | stRemote => exact ⟨_, chg_execStRemote h⟩
  | stRemoteFinal => exact ⟨_, chg_execStRemoteFinal h⟩
  | rmwLocal => exact ⟨_, chg_execRmwLocal h⟩
  | rmwGlobal => exact ⟨_, chg_execRmwGlobal h⟩
  | rmwPost => exact ⟨_, chg_execRmwPost h⟩
  | ll => exact ⟨_, chg_execLl h⟩
  | sc => exact ⟨_, chg_execSc h⟩
  | evRec => exact ⟨_, chg_execEvRec h⟩
  | semRel => exact ⟨_, chg_execSemRel h⟩
  | mxHdl => exact ⟨_, chg_execMxHdl h⟩
  | mxFill => exact ⟨_, chg_execMxFill h⟩
  | mxFillComplete => exact ⟨_, chg_execMxFillComplete h⟩
  | mxLdb => exact ⟨_, chg_execMxLdb h⟩
  | mxMma => exact ⟨_, chg_execMxMma h⟩
  | mxClr => exact ⟨_, chg_execMxClr h⟩
  | mxAddraw => exact ⟨_, chg_execMxAddraw h⟩
  | mxDrain => exact ⟨_, chg_execMxDrain h⟩
  | mxStat => exact ⟨_, chg_execMxStat h⟩
  | mxNest => exact ⟨_, chg_execMxNest h⟩
  | mxEntryStart => exact ⟨_, chg_execMxEntryStart h⟩
  | drainWritePerformed => exact ⟨_, chg_execDrainWritePerformed h⟩
  | nestOpStart => exact ⟨_, chg_execNestOpStart h⟩
  | nestEnd => exact ⟨_, chg_execNestEnd h⟩
  | mxOwnershipEnd => exact ⟨_, chg_execMxOwnershipEnd h⟩
  | groupEnterActive => exact ⟨_, chg_execGroupEnterActive h⟩
  | activeSetRotation => exact ⟨_, chg_execActiveSetRotation h⟩
  | splitChange => exact ⟨_, chg_execSplitChange h⟩
  | blockPlace => exact ⟨_, chg_execBlockPlace h⟩
  | thiefStart => exact ⟨_, chg_execThiefStart h⟩
  | dbTailWrite => exact ⟨_, chg_execDbTailWrite h⟩
  | vfQcfgWrite => exact ⟨_, chg_execVfQcfgWrite h⟩
  | qcmdReset => exact ⟨_, chg_execQcmdReset h⟩
  | queueResetEnd => exact ⟨_, chg_execQueueResetEnd h⟩
  | qcmdResume => exact ⟨_, chg_execQcmdResume h⟩
  | qcmdClrfail => exact ⟨_, chg_execQcmdClrfail h⟩
  | preload => exact ⟨_, chg_execPreload h⟩
  | launchIssue => exact ⟨_, chg_execLaunchIssue h⟩
  | eventWaitEvaluate => exact ⟨_, chg_execEventWaitEvaluate h⟩
  | eventWaitTimeout => exact ⟨_, chg_execEventWaitTimeout h⟩
  | watchSlotPoll => exact ⟨_, chg_execWatchSlotPoll h⟩
  | semAcquireTimeout => exact ⟨_, chg_execSemAcquireTimeout h⟩
  | semaSlimitTimeout => exact ⟨_, chg_execSemaSlimitTimeout h⟩
  | launchTlimitTimeout => exact ⟨_, chg_execLaunchTlimitTimeout h⟩
  | launchComplete => exact ⟨_, chg_execLaunchComplete h⟩
  | routeRecord => exact ⟨_, chg_execRouteRecord h⟩
  | routePatch => exact ⟨_, chg_execRoutePatch h⟩
  | routeDelete => exact ⟨_, chg_execRouteDelete h⟩
  | routeCmdComplete => exact ⟨_, chg_execRouteCmdComplete h⟩
  | watchGrant => exact ⟨_, chg_execWatchGrant h⟩
  | watchRelease => exact ⟨_, chg_execWatchRelease h⟩
  | watchExpiry => exact ⟨_, chg_execWatchExpiry h⟩
  | killComplete => exact ⟨_, chg_execKillComplete h⟩
  | rtQueueActive => exact ⟨_, chg_execRtQueueActive h⟩
  | commitContextTake => exact ⟨_, chg_execCommitContextTake h⟩
  | commitSettleEnd => exact ⟨_, chg_execCommitSettleEnd h⟩
  | settleLimitExpiry => exact ⟨_, chg_execSettleLimitExpiry h⟩
  | commitEntrySend => exact ⟨_, chg_execCommitEntrySend h⟩
  | commitEntryAck => exact ⟨_, chg_execCommitEntryAck h⟩
  | commitPerformLimit => exact ⟨_, chg_execCommitPerformLimit h⟩
  | chartLoad => exact ⟨_, chg_execChartLoad h⟩
  | chartLoadComplete => exact ⟨_, chg_execChartLoadComplete h⟩
  | chartActivate => exact ⟨_, chg_execChartActivate h⟩
  | activationComplete => exact ⟨_, chg_execActivationComplete h⟩
  | chartDiscard => exact ⟨_, chg_execChartDiscard h⟩
  | bootChartLoad => exact ⟨_, chg_execBootChartLoad h⟩
  | partTlbinvWrite => exact ⟨_, chg_execPartTlbinvWrite h⟩
  | tlbInvalidationDone => exact ⟨_, chg_execTlbInvalidationDone h⟩
  | l2CorrectableError => exact ⟨_, chg_execL2CorrectableError h⟩
  | l2WayDisable => exact ⟨_, chg_execL2WayDisable h⟩
  | l2UncorrectableError => exact ⟨_, chg_execL2UncorrectableError h⟩
  | hbmRequestServe => exact ⟨_, chg_execHbmRequestServe h⟩
  | lcrPeriodStart => exact ⟨_, chg_execLcrPeriodStart h⟩
  | lcrCapReached => exact ⟨_, chg_execLcrCapReached h⟩
  | starvationPromote => exact ⟨_, chg_execStarvationPromote h⟩
  | writeQueueHigh => exact ⟨_, chg_execWriteQueueHigh h⟩
  | writeQueueLow => exact ⟨_, chg_execWriteQueueLow h⟩
  | hbmRefresh => exact ⟨_, chg_execHbmRefresh h⟩
  | patrolScrubRead => exact ⟨_, chg_execPatrolScrubRead h⟩
  | calibrationDue => exact ⟨_, chg_execCalibrationDue h⟩
  | calibrationForced => exact ⟨_, chg_execCalibrationForced h⟩
  | calibrationEnd => exact ⟨_, chg_execCalibrationEnd h⟩
  | telemetryRead => exact ⟨_, chg_execTelemetryRead h⟩
  | channelRetire => exact ⟨_, chg_execChannelRetire h⟩
  | hbmTgStart => exact ⟨_, chg_execHbmTgStart h⟩
  | hbmTgStop => exact ⟨_, chg_execHbmTgStop h⟩
  | hbmTgRunEnd => exact ⟨_, chg_execHbmTgRunEnd h⟩
  | copyRequest => exact ⟨_, chg_execCopyRequest h⟩
  | copyRequestComplete => exact ⟨_, chg_execCopyRequestComplete h⟩
  | d2dLinkFail => exact ⟨_, chg_execD2dLinkFail h⟩
  | lnkEnableSet => exact ⟨_, chg_execLnkEnableSet h⟩
  | lnkEnableClear => exact ⟨_, chg_execLnkEnableClear h⟩
  | lnkRetrain => exact ⟨_, chg_execLnkRetrain h⟩
  | lnkLock => exact ⟨_, chg_execLnkLock h⟩
  | linkLightCheck => exact ⟨_, chg_execLinkLightCheck h⟩
  | linkTrainDone => exact ⟨_, chg_execLinkTrainDone h⟩
  | linkAlignDone => exact ⟨_, chg_execLinkAlignDone h⟩
  | linkSecureDone => exact ⟨_, chg_execLinkSecureDone h⟩
  | linkInitDone => exact ⟨_, chg_execLinkInitDone h⟩
  | linkPhaseTimeout => exact ⟨_, chg_execLinkPhaseTimeout h⟩
  | linkDown => exact ⟨_, chg_execLinkDown h⟩
  | linkRecoverEnd => exact ⟨_, chg_execLinkRecoverEnd h⟩
  | linkRetryTimer => exact ⟨_, chg_execLinkRetryTimer h⟩
  | wavelengthFail => exact ⟨_, chg_execWavelengthFail h⟩
  | linkStateAnswerTimeout => exact ⟨_, chg_execLinkStateAnswerTimeout h⟩
  | flitSlot => exact ⟨_, chg_execFlitSlot h⟩
  | flitReceive => exact ⟨_, chg_execFlitReceive h⟩
  | tagFailureLimit => exact ⟨_, chg_execTagFailureLimit h⟩
  | keyRollover => exact ⟨_, chg_execKeyRollover h⟩
  | messageTransmit => exact ⟨_, chg_execMessageTransmit h⟩
  | rd => exact ⟨_, chg_execRd h⟩
  | wr => exact ⟨_, chg_execWr h⟩
  | wrf => exact ⟨_, chg_execWrf h⟩
  | atom => exact ⟨_, chg_execAtom h⟩
  | contrib => exact ⟨_, chg_execContrib h⟩
  | rdrsp => exact ⟨_, chg_execRdrsp h⟩
  | ack => exact ⟨_, chg_execAck h⟩
  | atomrsp => exact ⟨_, chg_execAtomrsp h⟩
  | nack => exact ⟨_, chg_execNack h⟩
  | time => exact ⟨_, chg_execTime h⟩
  | beacon => exact ⟨_, chg_execBeacon h⟩
  | lstate => exact ⟨_, chg_execLstate h⟩
  | keyx => exact ⟨_, chg_execKeyx h⟩
  | remoteResponseTimeout => exact ⟨_, chg_execRemoteResponseTimeout h⟩
  | timeAnnounce => exact ⟨_, chg_execTimeAnnounce h⟩
  | ethFrameReceive => exact ⟨_, chg_execEthFrameReceive h⟩
  | tunnelResendTimeout => exact ⟨_, chg_execTunnelResendTimeout h⟩
  | tunnelDown => exact ⟨_, chg_execTunnelDown h⟩
  | vfCarmArm => exact ⟨_, chg_execVfCarmArm h⟩
  | vfCarmDisarm => exact ⟨_, chg_execVfCarmDisarm h⟩
  | bar2Access => exact ⟨_, chg_execBar2Access h⟩
  | pf0Bar2Access => exact ⟨_, chg_execPf0Bar2Access h⟩
  | msixUnmask => exact ⟨_, chg_execMsixUnmask h⟩
  | flr => exact ⟨_, chg_execFlr h⟩
  | flrRekey => exact ⟨_, chg_execFlrRekey h⟩
  | flrComplete => exact ⟨_, chg_execFlrComplete h⟩
  | vfRemove => exact ⟨_, chg_execVfRemove h⟩
  | pf0Reset cause => exact ⟨_, chg_execPf0Reset (a := cause) h⟩
  | ideUncoveredTlp => exact ⟨_, chg_execIdeUncoveredTlp h⟩
  | lockInterface => exact ⟨_, chg_execLockInterface h⟩
  | stopInterface => exact ⟨_, chg_execStopInterface h⟩
  | getDeviceInterfaceReport => exact ⟨_, chg_execGetDeviceInterfaceReport h⟩
  | getVersion => exact ⟨_, chg_execGetVersion h⟩
  | getCapabilities => exact ⟨_, chg_execGetCapabilities h⟩
  | negotiateAlgorithms => exact ⟨_, chg_execNegotiateAlgorithms h⟩
  | getDigests => exact ⟨_, chg_execGetDigests h⟩
  | getCertificate => exact ⟨_, chg_execGetCertificate h⟩
  | challenge => exact ⟨_, chg_execChallenge h⟩
  | getMeasurements => exact ⟨_, chg_execGetMeasurements h⟩
  | keyExchange => exact ⟨_, chg_execKeyExchange h⟩
  | finish => exact ⟨_, chg_execFinish h⟩
  | heartbeat => exact ⟨_, chg_execHeartbeat h⟩
  | keyUpdate => exact ⟨_, chg_execKeyUpdate h⟩
  | endSession => exact ⟨_, chg_execEndSession h⟩
  | vendorDefined => exact ⟨_, chg_execVendorDefined h⟩
  | getNonce => exact ⟨_, chg_execGetNonce h⟩
  | ownerEnrol => exact ⟨_, chg_execOwnerEnrol h⟩
  | debugUnlock => exact ⟨_, chg_execDebugUnlock h⟩
  | debugLock => exact ⟨_, chg_execDebugLock h⟩
  | fwStage => exact ⟨_, chg_execFwStage h⟩
  | logClear => exact ⟨_, chg_execLogClear h⟩
  | tamperClear => exact ⟨_, chg_execTamperClear h⟩
  | mbxCommandComplete => exact ⟨_, chg_execMbxCommandComplete h⟩
  | presenceSample => exact ⟨_, chg_execPresenceSample h⟩
  | presenceAssert => exact ⟨_, chg_execPresenceAssert h⟩
  | presenceFault => exact ⟨_, chg_execPresenceFault h⟩
  | presenceFaultClear => exact ⟨_, chg_execPresenceFaultClear h⟩
  | tamperSample => exact ⟨_, chg_execTamperSample h⟩
  | tamperEvent => exact ⟨_, chg_execTamperEvent h⟩
  | powerLoopUpdate => exact ⟨_, chg_execPowerLoopUpdate h⟩
  | fastClamp => exact ⟨_, chg_execFastClamp h⟩
  | fastClampEnd => exact ⟨_, chg_execFastClampEnd h⟩
  | governorCapTakeHold => exact ⟨_, chg_execGovernorCapTakeHold h⟩
  | thermalRead => exact ⟨_, chg_execThermalRead h⟩
  | thermalTrip => exact ⟨_, chg_execThermalTrip h⟩
  | coolantSample => exact ⟨_, chg_execCoolantSample h⟩
  | forcedCap => exact ⟨_, chg_execForcedCap h⟩
  | forcedCapEnd => exact ⟨_, chg_execForcedCapEnd h⟩
  | emergencyStop => exact ⟨_, chg_execEmergencyStop h⟩
  | ageingEvaluation => exact ⟨_, chg_execAgeingEvaluation h⟩
  | sextantUpdate => exact ⟨_, chg_execSextantUpdate h⟩
  | vinMainOutOfRange => exact ⟨_, chg_execVinMainOutOfRange h⟩
  | vinMainInRange => exact ⟨_, chg_execVinMainInRange h⟩
  | vinAuxLoss => exact ⟨_, chg_execVinAuxLoss h⟩
  | vinAuxUp => exact ⟨_, chg_execVinAuxUp h⟩
  | perstNAssert => exact ⟨_, chg_execPerstNAssert h⟩
  | perstNDeassert => exact ⟨_, chg_execPerstNDeassert h⟩
  | startupBegin => exact ⟨_, chg_execStartupBegin h⟩
  | lampLight => exact ⟨_, chg_execLampLight h⟩
  | lampTimeout => exact ⟨_, chg_execLampTimeout h⟩
  | rimDierstWrite => exact ⟨_, chg_execRimDierstWrite h⟩
  | partRstWrite => exact ⟨_, chg_execPartRstWrite h⟩
  | partResetEpoch => exact ⟨_, chg_execPartResetEpoch h⟩
  | partResetSettle => exact ⟨_, chg_execPartResetSettle h⟩
  | partResetRemoteDone => exact ⟨_, chg_execPartResetRemoteDone h⟩
  | partResetEnd => exact ⟨_, chg_execPartResetEnd h⟩
  | coreStallRetire => exact ⟨_, chg_execCoreStallRetire h⟩
  | engineRetire => exact ⟨_, chg_execEngineRetire h⟩
  | digSwctrlEnable => exact ⟨_, chg_execDigSwctrlEnable h⟩
  | digSwctrlDisable => exact ⟨_, chg_execDigSwctrlDisable h⟩
  | sweepLineRead => exact ⟨_, chg_execSweepLineRead h⟩
  | sweepPassEnd => exact ⟨_, chg_execSweepPassEnd h⟩
  | sweepRestart => exact ⟨_, chg_execSweepRestart h⟩
  | beaconBuild => exact ⟨_, chg_execBeaconBuild h⟩
  | hangCheck => exact ⟨_, chg_execHangCheck h⟩
  | hangSnapshot => exact ⟨_, chg_execHangSnapshot h⟩
  | hangDump => exact ⟨_, chg_execHangDump h⟩
  | hangEnd => exact ⟨_, chg_execHangEnd h⟩
  | traceBufferDrain => exact ⟨_, chg_execTraceBufferDrain h⟩
  | traceTimebase => exact ⟨_, chg_execTraceTimebase h⟩
  | tracePortBlock => exact ⟨_, chg_execTracePortBlock h⟩
  | pmcHiWrite => exact ⟨_, chg_execPmcHiWrite h⟩
  | pmselWrite => exact ⟨_, chg_execPmselWrite h⟩
  | pmcOverflow => exact ⟨_, chg_execPmcOverflow h⟩
  | logMramWrite => exact ⟨_, chg_execLogMramWrite h⟩
  | logNorWrite => exact ⟨_, chg_execLogNorWrite h⟩
  | pairLoRead => exact ⟨_, chg_execPairLoRead h⟩
  | pairLoWrite => exact ⟨_, chg_execPairLoWrite h⟩
  | pairHiWrite => exact ⟨_, chg_execPairHiWrite h⟩
  | readClear => exact ⟨_, chg_execReadClear h⟩
  | registerWrite => exact ⟨_, chg_execRegisterWrite h⟩
  | illegalOpcode => exact ⟨_, chg_execIllegalOpcode h⟩
  | jtagInstruction => exact ⟨_, chg_execJtagInstruction h⟩
  | vfEnableSet => exact ⟨_, chg_execVfEnableSet h⟩
  | startModeEnd => exact ⟨_, chg_execStartModeEnd h⟩
  | hbmTrainingLoss => exact ⟨_, chg_execHbmTrainingLoss h⟩

theorem exec_pending {c : Instr} {s t : State} (h : exec c s = .next t) : t.pending = s.pending := by
  obtain ⟨_, hchg⟩ := exec_chg h
  exact hchg.1.1

/-- Settles O2: the answer is read off the meaning's shape, and its queue off what the command may change. -/
theorem commandsRunUnlessMisnamed : Obligations.CommandsRunUnlessMisnamed := by
  intro c s
  obtain ⟨hruns, hstops⟩ := exec_answersBy c s
  refine ⟨fun hwf => ?_, hstops⟩
  obtain ⟨t, ht⟩ := hruns hwf
  exact ⟨t, ht, exec_pending ht⟩

end Sys2Proof.Machine
end

section
namespace Sys2Proof.Machine

/-! Fields of numbers and of registers (R10), read after they are set. -/

theorem getBits_putBits_self (x lo n v : Nat) : getBits (putBits x lo n v) lo n = v % 2 ^ n := by
  unfold getBits putBits
  have hlo : 0 < 2 ^ lo := Nat.two_pow_pos lo
  rw [pow_add, show x % 2 ^ lo + v % 2 ^ n * 2 ^ lo + x / (2 ^ lo * 2 ^ n) * (2 ^ lo * 2 ^ n) =
    x % 2 ^ lo + (v % 2 ^ n + x / (2 ^ lo * 2 ^ n) * 2 ^ n) * 2 ^ lo by ring, Nat.add_mul_div_right _ _ hlo,
    Nat.div_eq_of_lt (Nat.mod_lt _ hlo), Nat.zero_add, Nat.add_mul_mod_self_right, Nat.mod_mod]

/-- A number with a field replaced keeps each bit outside the field. -/
theorem testBit_putBits (x lo n v i : Nat) :
    (putBits x lo n v).testBit i = if i < lo then x.testBit i else if i < lo + n then v.testBit (i - lo) else x.testBit i := by
  have hlow : x % 2 ^ lo < 2 ^ lo := Nat.mod_lt _ (Nat.two_pow_pos lo)
  have hmid : v % 2 ^ n < 2 ^ n := Nat.mod_lt _ (Nat.two_pow_pos n)
  have hsplit : putBits x lo n v = 2 ^ lo * (2 ^ n * (x / 2 ^ (lo + n)) + v % 2 ^ n) + x % 2 ^ lo := by
    unfold putBits
    rw [pow_add]
    ring
  rw [hsplit, Nat.testBit_two_pow_mul_add _ hlow]
  by_cases h1 : i < lo
  · simp [h1, Nat.testBit_mod_two_pow]
  · rw [if_neg h1, if_neg h1, Nat.testBit_two_pow_mul_add _ hmid]
    by_cases h2 : i < lo + n
    · rw [if_pos h2, if_pos (by omega), Nat.testBit_mod_two_pow]
      simp only [Bool.and_eq_right_iff_imp, decide_eq_true_eq]
      omega
    · rw [if_neg h2, if_neg (by omega), Nat.testBit_div_two_pow]
      congr 1
      omega

theorem putBits_lt {x lo n v m : Nat} (hx : x < 2 ^ m) (hm : lo + n ≤ m) : putBits x lo n v < 2 ^ m := by
  refine Nat.lt_pow_two_of_testBit _ fun i hi => ?_
  rw [testBit_putBits, if_neg (by omega), if_neg (by omega)]
  exact Nat.testBit_lt_two_pow (lt_of_lt_of_le hx (Nat.pow_le_pow_right (by decide) hi))

theorem testBit_getBits (x lo n i : Nat) : (getBits x lo n).testBit i = (decide (i < n) && x.testBit (lo + i)) := by
  unfold getBits
  rw [Nat.testBit_mod_two_pow, Nat.testBit_div_two_pow, Nat.add_comm lo]

/-- Fields that do not meet do not disturb each other. -/
theorem getBits_putBits_disjoint {x lo n v i m : Nat} (h : i + m ≤ lo ∨ lo + n ≤ i) :
    getBits (putBits x lo n v) i m = getBits x i m := by
  refine Nat.eq_of_testBit_eq fun j => ?_
  rw [testBit_getBits, testBit_getBits, testBit_putBits]
  by_cases hj : j < m
  · rcases h with h | h
    · rw [if_pos (by omega)]
    · rw [if_neg (by omega), if_neg (by omega)]
  · simp [hj]

namespace State

theorem toNat_reg_setFld (s : State) {k lo n v : Nat} (h : lo + n ≤ 32) :
    ((s.setFld k lo n v).reg k).toNat = putBits (s.reg k).toNat lo n v := by
  unfold State.setFld
  rw [reg_setReg_self, BitVec.toNat_ofNat, Nat.mod_eq_of_lt (putBits_lt (s.reg k).isLt h)]

theorem reg_setFld_ne (s : State) {k lo n v i : Nat} (h : i ≠ k) : (s.setFld k lo n v).reg i = s.reg i := reg_setReg_ne s _ h

theorem reg_setBit_ne (s : State) {k j i : Nat} {b : Bool} (h : i ≠ k) : (s.setBit k j b).reg i = s.reg i := reg_setFld_ne s h

theorem reg_countReg_ne (s : State) {k n i : Nat} (h : i ≠ k) : (s.countReg k n).reg i = s.reg i := reg_setReg_ne s _ h

/-- A count of a register stops at its highest value. -/
theorem toNat_reg_countReg (s : State) (k n : Nat) : ((s.countReg k n).reg k).toNat = min ((s.reg k).toNat + n) 0xFFFFFFFF := by
  unfold State.countReg satAdd
  rw [reg_setReg_self, BitVec.toNat_ofNat]
  omega

theorem fld_congr {s t : State} {k : Nat} (h : t.reg k = s.reg k) (lo n : Nat) : t.fld k lo n = s.fld k lo n := by
  unfold State.fld
  rw [h]

theorem bit_congr {s t : State} {k : Nat} (h : t.reg k = s.reg k) (i : Nat) : t.bit k i = s.bit k i := by
  unfold State.bit
  rw [fld_congr h]

theorem fld_setFld_self (s : State) {k lo n v : Nat} (h : lo + n ≤ 32) : (s.setFld k lo n v).fld k lo n = v % 2 ^ n := by
  unfold State.fld
  rw [toNat_reg_setFld s h, getBits_putBits_self]

theorem fld_setFld_disjoint (s : State) {k lo n v i m : Nat} (hk : lo + n ≤ 32) (h : i + m ≤ lo ∨ lo + n ≤ i) :
    (s.setFld k lo n v).fld k i m = s.fld k i m := by
  unfold State.fld
  rw [toNat_reg_setFld s hk, getBits_putBits_disjoint h]

theorem bit_setBit_self (s : State) {k i : Nat} {b : Bool} (h : i < 32) : (s.setBit k i b).bit k i = b := by
  unfold State.bit State.setBit
  rw [fld_setFld_self s (by omega)]
  cases b <;> rfl

theorem bit_setBit_ne (s : State) {k i j : Nat} {b : Bool} (h : i < 32) (hj : j ≠ i) : (s.setBit k i b).bit k j = s.bit k j := by
  unfold State.bit State.setBit
  rw [fld_setFld_disjoint s (by omega) (by omega)]

theorem fld_setBit_disjoint (s : State) {k i lo n : Nat} {b : Bool} (h : i < 32) (hd : lo + n ≤ i ∨ i + 1 ≤ lo) :
    (s.setBit k i b).fld k lo n = s.fld k lo n := fld_setFld_disjoint s (by omega) hd

theorem reg_setReg64_ne (s : State) {k v i : Nat} (h : i ≠ k) (h4 : i ≠ k + 4) : (s.setReg64 k v).reg i = s.reg i := by
  unfold State.setReg64
  rw [reg_setReg_ne _ _ h4, reg_setReg_ne _ _ h]

theorem reg64_congr {s t : State} {k : Nat} (h : t.reg k = s.reg k) (h4 : t.reg (k + 4) = s.reg (k + 4)) : t.reg64 k = s.reg64 k := by
  unfold State.reg64
  rw [h, h4]

theorem reg64_setReg64_self (s : State) {k v : Nat} : (s.setReg64 k v).reg64 k = v % 2 ^ 64 := by
  unfold State.reg64 State.setReg64
  rw [reg_setReg_self, reg_setReg_ne _ _ (by omega), reg_setReg_self, BitVec.toNat_ofNat, BitVec.toNat_ofNat]
  omega

theorem reg64_setReg64_ne (s : State) {k v i : Nat} (h : i ≠ k) (h4 : i ≠ k + 4) (h4' : i + 4 ≠ k) : (s.setReg64 k v).reg64 i = s.reg64 i :=
  reg64_congr (reg_setReg64_ne s h h4) (reg_setReg64_ne s h4' (by omega))

theorem reg64_lt (s : State) (k : Nat) : s.reg64 k < 2 ^ 64 := by
  unfold State.reg64
  have := (s.reg k).isLt
  have := (s.reg (k + 4)).isLt
  omega

end State

/-- A register set apart from another field of the state is a state that reads as before elsewhere. -/
theorem RegsBut.refl (ks : List Nat) (s : State) : RegsBut ks s s := fun _ _ => rfl

theorem RegsBut.trans {ks : List Nat} {s t u : State} (h : RegsBut ks s t) (k : RegsBut ks t u) : RegsBut ks s u :=
  fun i hi => (k i hi).trans (h i hi)

theorem RegsBut.mono {ks js : List Nat} {s t : State} (h : RegsBut ks s t) (hsub : ∀ k ∈ ks, k ∈ js) : RegsBut js s t :=
  fun i hi => h i fun hk => hi (hsub i hk)

/-- The same register file reads the same. -/
theorem reg_of_regs {s t : State} (h : t.regs = s.regs) (k : Nat) : t.reg k = s.reg k := by
  unfold State.reg
  rw [h]

theorem RegsBut.of_regs {ks : List Nat} {s t : State} (h : t.regs = s.regs) : RegsBut ks s t := fun k _ => reg_of_regs h k

theorem regsBut_setReg (s : State) (k : Nat) (v : Word) : RegsBut [k] s (s.setReg k v) :=
  fun _ hi => State.reg_setReg_ne s v fun e => hi (by simp [e])

theorem regsBut_setFld (s : State) (k lo n v : Nat) : RegsBut [k] s (s.setFld k lo n v) := regsBut_setReg s k _

theorem regsBut_setBit (s : State) (k i : Nat) (b : Bool) : RegsBut [k] s (s.setBit k i b) := regsBut_setReg s k _

theorem regsBut_countReg (s : State) (k n : Nat) : RegsBut [k] s (s.countReg k n) := regsBut_setReg s k _

theorem regsBut_setReg64 (s : State) (k v : Nat) : RegsBut [k, k + 4] s (s.setReg64 k v) := fun i hi => by
  simp only [List.mem_cons, List.not_mem_nil, or_false, not_or] at hi
  exact State.reg_setReg64_ne s hi.1 hi.2

/-! Updates of one part of the state. -/

theorem Touches.free (s : State) (x : Nat) : Touches [.free] s { s with free := x } := by
  refine ⟨rfl, fun f hf => ?_⟩
  cases f <;> first | rfl | exact ⟨rfl, rfl⟩ | exact absurd (by decide) hf

theorem Touches.latch (s : State) (x : Tbl Word64) : Touches [.latch] s { s with latch := x } := by
  refine ⟨rfl, fun f hf => ?_⟩
  cases f <;> first | rfl | exact ⟨rfl, rfl⟩ | exact absurd (by decide) hf

theorem Touches.held (s : State) (x : Tbl Word) : Touches [.held] s { s with held := x } := by
  refine ⟨rfl, fun f hf => ?_⟩
  cases f <;> first | rfl | exact ⟨rfl, rfl⟩ | exact absurd (by decide) hf

theorem Touches.host (s : State) (x : HostPort) : Touches [.host] s { s with host := x } := by
  refine ⟨rfl, fun f hf => ?_⟩
  cases f <;> first | rfl | exact ⟨rfl, rfl⟩ | exact absurd (by decide) hf

theorem Touches.dbg (s : State) (x : Debug) : Touches [.dbg] s { s with dbg := x } := by
  refine ⟨rfl, fun f hf => ?_⟩
  cases f <;> first | rfl | exact ⟨rfl, rfl⟩ | exact absurd (by decide) hf

theorem Touches.routers (s : State) (x : Tbl Die) (y : Tbl Link) : Touches [.dies, .links] s { s with links := y, dies := x } := by
  refine ⟨rfl, fun f hf => ?_⟩
  cases f <;> first | rfl | exact ⟨rfl, rfl⟩ | exact absurd (by decide) hf

/-! What a change of other parts leaves: reads of a part that is not in the list. -/

section
variable {L : List Fld} {s t : State}

theorem Touches.regs_eq (h : Touches L s t) (hL : Fld.regs ∉ L) : t.regs = s.regs := h.2 .regs hL

theorem Touches.reg_eq (h : Touches L s t) (hL : Fld.regs ∉ L) (k : Nat) : t.reg k = s.reg k := reg_of_regs (h.regs_eq hL) k

theorem Touches.core_eq (h : Touches L s t) (hL : Fld.cores ∉ L) (p : Nat) : t.core p = s.core p := by
  have hc : t.cores = s.cores := h.2 .cores hL
  unfold State.core
  rw [hc]

theorem Touches.part_eq (h : Touches L s t) (hL : Fld.parts ∉ L) (p : Nat) : t.part p = s.part p := by
  have hc : t.parts = s.parts := h.2 .parts hL
  unfold State.part
  rw [hc]

theorem Touches.die_eq (h : Touches L s t) (hL : Fld.dies ∉ L) (d : Nat) : t.die d = s.die d := by
  have hc : t.dies = s.dies := h.2 .dies hL
  unfold State.die
  rw [hc]

theorem Touches.queue_eq (h : Touches L s t) (hL : Fld.queues ∉ L) (k : Nat) : t.queue k = s.queue k := by
  have hc : t.queues = s.queues := h.2 .queues hL
  unfold State.queue
  rw [hc]

theorem Touches.link_eq (h : Touches L s t) (hL : Fld.links ∉ L) (n : Nat) : t.link n = s.link n := by
  have hc : t.links = s.links := h.2 .links hL
  unfold State.link
  rw [hc]

theorem Touches.copyEng_eq (h : Touches L s t) (hL : Fld.copies ∉ L) (e : Nat) : t.copyEng e = s.copyEng e := by
  have hc : t.copies = s.copies := h.2 .copies hL
  unfold State.copyEng
  rw [hc]

theorem Touches.launches_eq (h : Touches L s t) (hL : Fld.launches ∉ L) : t.launches = s.launches := h.2 .launches hL

theorem Touches.launch_eq (h : Touches L s t) (hL : Fld.launches ∉ L) (l : Nat) : t.launch? l = s.launch? l := by
  unfold State.launch?
  rw [h.launches_eq hL]

theorem Touches.chart_eq (h : Touches L s t) (hL : Fld.chart ∉ L) : t.chart = s.chart := h.2 .chart hL

end

/-! Repeated blocks of registers. -/

theorem inBlk_eq_some {k base n size i o : Nat} (hk : k = base + size * i + o) (hi : i < n) (ho : o < size) :
    inBlk k base n size = some (i, o) := by
  have hle : size * i + o < n * size := by
    calc size * i + o < size * i + size := by omega
      _ = size * (i + 1) := by ring
      _ ≤ size * n := Nat.mul_le_mul_left _ hi
      _ = n * size := Nat.mul_comm _ _
  have hsub : k - base = o + size * i := by omega
  unfold inBlk
  rw [if_pos ⟨by omega, by omega⟩, hsub, Nat.add_mul_div_left _ _ (by omega), Nat.div_eq_of_lt ho, Nat.add_mul_mod_self_left,
    Nat.mod_eq_of_lt ho, Nat.zero_add]

theorem inBlk_eq_none {k base n size : Nat} (h : k < base ∨ base + n * size ≤ k) : inBlk k base n size = none := if_neg (by omega)

theorem offIn_eq {k base n size i o : Nat} (h : inBlk k base n size = some (i, o)) : offIn k base n size = o := by
  unfold offIn
  rw [h]

theorem offIn_none {k base n size : Nat} (h : inBlk k base n size = none) : offIn k base n size = 0xFFFFFFFF := by
  unfold offIn
  rw [h]

end Sys2Proof.Machine
end

section
namespace Sys2Proof.Machine

/-! A nanosecond of global time (log entry 1): the counters of time (R506 to R508, log entry 8) and the cores' beats. -/

/-- The register of a counter: its value, or its core's carries or control. -/
def pmOwn (p n : Nat) : List Nat := [pmc p n, pmc p n + 4, pmOvf p, pmCtrl p]

theorem regsBut_pmAdd (s : State) (p n k : Nat) : RegsBut (pmOwn p n) s (s.pmAdd p n k) := by
  unfold State.pmAdd
  extract_lets v t u
  have ht : RegsBut (pmOwn p n) s t := (regsBut_setReg64 s _ _).mono (by simp [pmOwn])
  have hu : RegsBut (pmOwn p n) s u := ht.trans ((regsBut_setBit t _ _ _).mono (by simp [pmOwn]))
  split
  · split
    · exact hu.trans ((regsBut_setBit u _ _ _).mono (by simp [pmOwn]))
    · exact hu
  · exact ht

/-- Without FRZOVF a carry leaves a core's control register alone. -/
theorem reg_pmCtrl_pmAdd {s : State} {p n q k : Nat} (hn : n < 8) (h : s.bit (pmCtrl p) 1 = false) :
    (s.pmAdd q n k).reg (pmCtrl p) = s.reg (pmCtrl p) := by
  by_cases hq : p = q
  · subst hq
    have hc : pmCtrl p ≠ pmc p n ∧ pmCtrl p ≠ pmc p n + 4 ∧ pmCtrl p ≠ pmOvf p := by unfold pmCtrl pmc pmOvf; omega
    unfold State.pmAdd
    extract_lets v t u
    have ht : t.reg (pmCtrl p) = s.reg (pmCtrl p) := State.reg_setReg64_ne s hc.1 hc.2.1
    have hu : u.reg (pmCtrl p) = s.reg (pmCtrl p) := (State.reg_setBit_ne t hc.2.2).trans ht
    rw [State.bit_congr hu, h]
    split
    · exact hu
    · exact ht
  · refine regsBut_pmAdd s q n k _ ?_
    simp only [pmOwn, List.mem_cons, List.not_mem_nil, or_false, not_or]
    unfold pmCtrl pmc pmOvf coreBlk
    omega

/-- A counter below its carry counts. -/
theorem reg64_pmAdd_self {s : State} {p n k : Nat} (h : s.reg64 (pmc p n) + k < 2 ^ 48) :
    (s.pmAdd p n k).reg64 (pmc p n) = s.reg64 (pmc p n) + k := by
  unfold State.pmAdd
  extract_lets v t u
  have hv : v = s.reg64 (pmc p n) + k := by simp only [v]; omega
  rw [if_neg (by omega)]
  simp only [t]
  rw [State.reg64_setReg64_self, hv]
  omega

theorem reg64_pmAdd_ne {s : State} {p n q m k : Nat} (hn : n < 8) (hm : m < 8) (h : ¬(q = p ∧ m = n)) :
    (s.pmAdd q m k).reg64 (pmc p n) = s.reg64 (pmc p n) := by
  have hout : ∀ i, i = pmc p n ∨ i = pmc p n + 4 → i ∉ pmOwn q m := by
    simp only [pmOwn, List.mem_cons, List.not_mem_nil, or_false, not_or]
    unfold pmCtrl pmc pmOvf coreBlk
    omega
  exact State.reg64_congr (regsBut_pmAdd s q m k _ (hout _ (.inl rfl))) (regsBut_pmAdd s q m k _ (hout _ (.inr rfl)))

theorem pmReg_of_own {p n k : Nat} (hp : p < 1632) (hn : n < 8) (hk : k ∈ pmOwn p n) : pmReg k = true := by
  simp only [pmOwn, List.mem_cons, List.not_mem_nil, or_false] at hk
  unfold pmCtrl pmc pmOvf coreBlk at hk
  unfold pmReg inBlk
  rw [if_pos (by omega)]
  simp only [decide_eq_true_eq]
  omega

/-! Which counters an event of time moves. -/

/-- Counter `n` of core `p` selects the event, for every partition. -/
def State.selects (s : State) (ev p n : Nat) : Bool := s.fld (pmSel p n) 0 8 == ev && !s.bit (pmSel p n) 14

theorem mem_of_tfind {α : Type} {t : Tbl α} {k : Nat} {v : α} (h : tfind t k = some v) : (k, v) ∈ t := by
  induction t with
  | nil => simp [tfind] at h
  | cons e t ih =>
    obtain ⟨j, u⟩ := e
    rw [tfind] at h
    split at h
    · next hj => cases h; exact hj ▸ List.mem_cons_self ..
    · exact List.mem_cons_of_mem _ (ih h)

/-- A register that is not at its reset value is listed. -/
theorem mem_regs_of_reg_ne {s : State} {k : Nat} (h : s.reg k ≠ regReset k) : (k, s.reg k) ∈ s.regs := by
  refine mem_of_tfind ?_
  unfold State.reg tget at h ⊢
  cases hf : tfind s.regs k with
  | none => simp [hf] at h
  | some v => rfl

theorem reg_of_mem_regs {s : State} {e : Nat × Word} (hc : s.Canon) (h : e ∈ s.regs) : s.reg e.1 = e.2 := by
  obtain ⟨_, hregs⟩ := hc
  simp only [regsWf, Bool.and_eq_true] at hregs
  unfold State.reg tget
  rw [tfind_of_mem hregs.1 h]
  rfl

theorem countsTime_eq_some {ev : Nat} {e : Nat × Word} {p n : Nat} :
    countsTime ev e = some (p, n) ↔
      p < 1632 ∧ n < 8 ∧ e.1 = pmSel p n ∧ getBits e.2.toNat 0 8 = ev ∧ getBits e.2.toNat 14 1 = 0 := by
  have hbits : getBits e.2.toNat 0 8 = e.2.toNat % 256 := by simp [getBits]
  rw [hbits]
  unfold countsTime inBlk pmSel coreBlk
  split
  · next q o hq =>
    split at hq
    · obtain ⟨rfl, rfl⟩ := Prod.mk.inj (Option.some.inj hq)
      split
      · simp only [Option.some.injEq, Prod.mk.injEq]
        omega
      · simp only [reduceCtorEq, false_iff]
        omega
    · cases hq
  · next hq =>
    split at hq
    · cases hq
    · simp only [reduceCtorEq, false_iff]
      omega

theorem regReset_pmSel {p n : Nat} (hp : p < 1632) (hn : n < 8) : regReset (pmSel p n) = 0 := by
  have h : inBlk (pmSel p n) 0x2000000 1632 0x1000 = some (p, 0x900 + 4 * n) :=
    inBlk_eq_some (by unfold pmSel coreBlk; omega) hp (by omega)
  have hlow : ¬pmSel p n < 0x2000000 := by unfold pmSel coreBlk; omega
  unfold regReset
  rw [if_neg (by omega), if_neg (by omega), if_neg (by omega), if_neg (by omega), if_neg (by omega), if_neg (by omega), if_neg hlow, h]
  split
  · next heq => simp at heq; omega
  · next heq => simp at heq; omega
  · rfl

/-- The counters that an event of time moves. -/
def State.counters (s : State) (ev : Nat) : List (Nat × Nat) := s.regs.filterMap (countsTime ev)

theorem counters_bounds {s : State} {ev : Nat} {e : Nat × Nat} (h : e ∈ s.counters ev) : e.1 < 1632 ∧ e.2 < 8 := by
  obtain ⟨r, _, hr⟩ := List.mem_filterMap.1 h
  obtain ⟨hp, hn, _⟩ := countsTime_eq_some.1 hr
  exact ⟨hp, hn⟩

theorem bit_eq_false {s : State} {k i : Nat} : s.bit k i = false ↔ s.fld k i 1 = 0 := by
  unfold State.bit State.fld getBits
  simp only [beq_eq_false_iff_ne]
  omega

theorem mem_counters {s : State} {ev p n : Nat} (hc : s.Canon) (hp : p < 1632) (hn : n < 8) (hev : ev ≠ 0) :
    (p, n) ∈ s.counters ev ↔ s.selects ev p n = true := by
  unfold State.selects
  rw [Bool.and_eq_true, beq_iff_eq, Bool.not_eq_true', bit_eq_false]
  constructor
  · intro h
    obtain ⟨r, hr, hsome⟩ := List.mem_filterMap.1 h
    obtain ⟨_, _, hkey, hsel, hfilt⟩ := countsTime_eq_some.1 hsome
    have hreg : s.reg (pmSel p n) = r.2 := hkey ▸ reg_of_mem_regs hc hr
    unfold State.fld
    rw [hreg]
    exact ⟨hsel, hfilt⟩
  · rintro ⟨hsel, hfilt⟩
    refine List.mem_filterMap.2 ⟨(pmSel p n, s.reg (pmSel p n)), mem_regs_of_reg_ne ?_, countsTime_eq_some.2 ⟨hp, hn, rfl, hsel, hfilt⟩⟩
    intro h0
    rw [regReset_pmSel hp hn] at h0
    refine hev ?_
    rw [← hsel]
    unfold State.fld
    rw [h0]
    rfl

theorem nodup_of_tsorted {α : Type} {t : Tbl α} (h : tsorted t = true) : t.Pairwise fun a b => a.1 ≠ b.1 := by
  induction t with
  | nil => exact .nil
  | cons e t ih =>
    obtain ⟨j, u⟩ := e
    obtain ⟨hlt, hs⟩ := tsorted_cons.1 h
    exact .cons (fun b hb => Nat.ne_of_lt (hlt b hb)) (ih hs)

theorem counters_nodup {s : State} (ev : Nat) (hc : s.Canon) : (s.counters ev).Nodup := by
  obtain ⟨_, hregs⟩ := hc
  simp only [regsWf, Bool.and_eq_true] at hregs
  refine List.Pairwise.filterMap _ (fun a b hab x hx y hy hxy => ?_) (nodup_of_tsorted hregs.1)
  subst hxy
  obtain ⟨_, _, ha, _⟩ := countsTime_eq_some.1 (show countsTime _ _ = some (x.1, x.2) from hx)
  obtain ⟨_, _, hb, _⟩ := countsTime_eq_some.1 (show countsTime _ _ = some (x.1, x.2) from hy)
  exact hab (ha.trans hb.symm)

/-! What a list of counters does as it counts. -/

/-- The counters of a list count, each as often as its core has the event. -/
def State.countAll (s : State) (l : List (Nat × Nat)) (k : Nat → Nat) : State :=
  l.foldl (fun t e => if t.bit (pmCtrl e.1) 0 then t else t.pmAdd e.1 e.2 (k e.1)) s

theorem pmTime_eq_countAll (s : State) (ev : Nat) (k : Nat → Nat) : s.pmTime ev k = s.countAll (s.counters ev) k := rfl

theorem chg_countAll (s : State) (l : List (Nat × Nat)) (k : Nat → Nat) : Chg [.regs] s (s.countAll l k) :=
  .foldl (.refl _ _) fun _ _ h => by
    split
    · exact h
    · exact h.trans (chg_pmAdd _ _ _ _)

theorem reg_countAll {s : State} {l : List (Nat × Nat)} {k : Nat → Nat} (hl : ∀ e ∈ l, e.1 < 1632 ∧ e.2 < 8) {i : Nat}
    (hi : pmReg i = false) : (s.countAll l k).reg i = s.reg i := by
  induction l generalizing s with
  | nil => rfl
  | cons e l ih =>
    obtain ⟨hp, hn⟩ := hl e (List.mem_cons_self ..)
    have hstep : (if s.bit (pmCtrl e.1) 0 then s else s.pmAdd e.1 e.2 (k e.1)).reg i = s.reg i := by
      split
      · rfl
      · exact regsBut_pmAdd s _ _ _ i fun hmem => by simp [pmReg_of_own hp hn hmem] at hi
    exact (ih fun x hx => hl x (List.mem_cons_of_mem _ hx)).trans hstep

/-- A core without FRZOVF and not frozen: its control register stays, and each listed counter counts once. -/
theorem countAll_counts {l : List (Nat × Nat)} {s : State} {k : Nat → Nat} {p n : Nat} (hl : ∀ e ∈ l, e.1 < 1632 ∧ e.2 < 8)
    (hnd : l.Nodup) (hn : n < 8) (hrun : s.bit (pmCtrl p) 0 = false) (hovf : s.bit (pmCtrl p) 1 = false)
    (hroom : (p, n) ∈ l → s.reg64 (pmc p n) + k p < 2 ^ 48) :
    (s.countAll l k).reg (pmCtrl p) = s.reg (pmCtrl p) ∧
      (s.countAll l k).reg64 (pmc p n) = s.reg64 (pmc p n) + if (p, n) ∈ l then k p else 0 := by
  induction l generalizing s with
  | nil => simp [State.countAll]
  | cons e l ih =>
    obtain ⟨q, m⟩ := e
    obtain ⟨_, hm⟩ := hl (q, m) (List.mem_cons_self ..)
    obtain ⟨hnotin, hnd⟩ := List.nodup_cons.1 hnd
    generalize hu : (if s.bit (pmCtrl q) 0 then s else s.pmAdd q m (k q)) = u
    have hfold : s.countAll ((q, m) :: l) k = u.countAll l k := by rw [← hu]; rfl
    have hctrl : u.reg (pmCtrl p) = s.reg (pmCtrl p) := by
      rw [← hu]
      split
      · rfl
      · exact reg_pmCtrl_pmAdd hm hovf
    have hstep : u.reg64 (pmc p n) = s.reg64 (pmc p n) + if (p, n) = (q, m) then k p else 0 := by
      rw [← hu]
      by_cases hself : (p, n) = (q, m)
      · obtain ⟨rfl, rfl⟩ := Prod.mk.inj hself
        rw [if_pos rfl, hrun, if_neg (by decide), reg64_pmAdd_self (hroom (List.mem_cons_self ..))]
      · rw [if_neg hself]
        split
        · rfl
        · exact reg64_pmAdd_ne hn hm fun h => hself (by rw [h.1, h.2])
    obtain ⟨hctrl', hcount⟩ := ih (s := u) (fun x hx => hl x (List.mem_cons_of_mem _ hx)) hnd
      (by rw [State.bit_congr hctrl, hrun]) (by rw [State.bit_congr hctrl, hovf]) fun hin => by
        have hne : (p, n) ≠ (q, m) := fun h => hnotin (h ▸ hin)
        rw [hstep, if_neg hne]
        exact hroom (List.mem_cons_of_mem _ hin)
    rw [hfold, hctrl', hcount, hstep]
    refine ⟨hctrl, ?_⟩
    by_cases hself : (p, n) = (q, m)
    · rw [if_pos hself, if_neg (hself ▸ hnotin), if_pos (by simp [hself]), Nat.add_zero]
    · rw [if_neg hself]
      simp [hself]

/-- An event of time, `k p` times on core `p`: its control register stays, and a counter that selects the event counts. -/
theorem pmTime_counts {s : State} {ev p n : Nat} {k : Nat → Nat} (hc : s.Canon) (hp : p < 1632) (hn : n < 8) (hev : ev ≠ 0)
    (hrun : s.bit (pmCtrl p) 0 = false) (hovf : s.bit (pmCtrl p) 1 = false) (hroom : s.selects ev p n = true → s.reg64 (pmc p n) + k p < 2 ^ 48) :
    (s.pmTime ev k).reg (pmCtrl p) = s.reg (pmCtrl p) ∧
      (s.pmTime ev k).reg64 (pmc p n) = s.reg64 (pmc p n) + if s.selects ev p n then k p else 0 := by
  rw [pmTime_eq_countAll]
  obtain ⟨hctrl, hcount⟩ := countAll_counts (k := k) (fun _ => counters_bounds) (counters_nodup ev hc) hn hrun hovf
    fun h => hroom ((mem_counters hc hp hn hev).1 h)
  refine ⟨hctrl, ?_⟩
  simp only [hcount, mem_counters hc hp hn hev]

theorem chg_pmTime (s : State) (ev : Nat) (k : Nat → Nat) : Chg [.regs] s (s.pmTime ev k) := chg_countAll s _ k

theorem reg_pmTime (s : State) (ev : Nat) (k : Nat → Nat) {i : Nat} (hi : pmReg i = false) : (s.pmTime ev k).reg i = s.reg i :=
  reg_countAll (fun _ => counters_bounds) hi

theorem pmReg_pmSel (p n : Nat) (hn : n < 8) : pmReg (pmSel p n) = false := by
  unfold pmReg inBlk pmSel coreBlk
  split
  · next h =>
    split at h
    · obtain ⟨rfl, rfl⟩ := Prod.mk.inj (Option.some.inj h)
      simp only [decide_eq_false_iff_not]
      omega
    · cases h
  · rfl

theorem selects_congr {s t : State} (h : ∀ k, pmReg k = false → t.reg k = s.reg k) (ev p : Nat) {n : Nat} (hn : n < 8) :
    t.selects ev p n = s.selects ev p n := by
  have hsel := h _ (pmReg_pmSel p n hn)
  unfold State.selects
  rw [State.fld_congr hsel, State.bit_congr hsel]

/-! The cores' part of a nanosecond. -/

theorem tfind_map {α β : Type} (f : Nat → α → β) (t : Tbl α) (k : Nat) :
    tfind (t.map fun e => (e.1, f e.1 e.2)) k = (tfind t k).map (f k) := by
  induction t with
  | nil => rfl
  | cons e t ih =>
    rw [List.map_cons, tfind, tfind]
    split
    · next h => rw [h]; rfl
    · exact ih

/-- A core after a nanosecond: one with work keeps what is left of its last beat. -/
def State.coreAfter (s : State) (p : Nat) (c : Core) : Core := if c.busy then { c with phase := s.progress p % 4096 } else c

theorem core_tickPhase (s : State) (p : Nat) : s.tickPhase.core p = s.coreAfter p (s.core p) := by
  have hmap : s.tickPhase.cores = s.cores.map fun e => (e.1, s.coreAfter e.1 e.2) := by
    unfold State.tickPhase State.coreAfter
    refine List.map_congr_left fun e _ => ?_
    split <;> rfl
  unfold State.core tget
  rw [hmap, tfind_map s.coreAfter]
  cases tfind s.cores p with
  | none => rfl
  | some c => rfl

theorem coreAfter_idle {s : State} {p : Nat} {c : Core} (h : c.busy = false) : s.coreAfter p c = c := by
  unfold State.coreAfter
  rw [h]
  rfl

/-- Only the phase of a core moves. -/
theorem coreAfter_eq (s : State) (p : Nat) (c : Core) : s.coreAfter p c = { c with phase := (s.coreAfter p c).phase } := by
  unfold State.coreAfter
  split <;> rfl

theorem beatsOf_le (s : State) (p : Nat) : s.beatsOf p ≤ 4 := by
  have hrate : s.rateAt p s.now ≤ (Config.coreRate p s.now).val := Nat.min_le_left _ _
  have hmax := (Config.coreRate p s.now).isLt
  have hphase := Nat.mod_lt (s.core p).phase (by decide : 4096 > 0)
  unfold State.beatsOf State.progress
  split <;> omega

theorem beatsOf_idle {s : State} {p : Nat} (h : (s.core p).busy = false) : s.beatsOf p = 0 := by
  unfold State.beatsOf State.progress
  simp only [h, Bool.false_and, Bool.false_eq_true, if_false, Nat.add_zero]
  exact Nat.div_eq_of_lt (Nat.mod_lt _ (by decide))

theorem idleScheds_le (s : State) (p : Nat) : s.idleScheds p ≤ 4 := List.length_filter_le _ _

/-! The tick. -/

/-- The counters of beats as a nanosecond passes, before the cores and GT move on. -/
def State.tickCounts (s : State) : State := (s.pmTime evBeats s.beatsOf).pmTime evNoGroup fun p => s.idleScheds p * s.beatsOf p

/-- GT a nanosecond later. -/
def State.nextNs (s : State) : State := { s with gt := s.gt + 1 }

theorem tickBeats_tickGt_eq (s : State) : s.tickBeats.tickGt = s.tickCounts.tickPhase.nextNs.pmTime evGt fun _ => 1 := rfl

theorem chg_tickCounts (s : State) : Chg [.regs] s s.tickCounts := (chg_pmTime s _ _).trans (chg_pmTime _ _ _)

theorem chg_tickPhase (s : State) : Chg [.cores] s s.tickPhase := by
  refine .lit (t := s) rfl (fun f hf => ?_) rfl rfl rfl rfl (.refl _ s)
  cases f <;> first | rfl | exact ⟨rfl, rfl⟩ | exact absurd (by decide) hf

theorem chg_nextNs (s : State) : Chg [.gt] s s.nextNs := by
  refine .lit (t := s) rfl (fun f hf => ?_) rfl rfl rfl rfl (.refl _ s)
  cases f <;> first | rfl | exact ⟨rfl, rfl⟩ | exact absurd (by decide) hf

/-- Global time, registers and cores are all that a nanosecond moves. -/
theorem chg_tickBeats_tickGt (s : State) : Chg [.gt, .regs, .cores] s s.tickBeats.tickGt := by
  rw [tickBeats_tickGt_eq]
  refine Chg.step (chg_pmTime _ _ _) (subF_of rfl) ?_
  refine Chg.step (chg_nextNs _) (subF_of rfl) ?_
  refine Chg.step (chg_tickPhase _) (subF_of rfl) ?_
  exact (chg_tickCounts s).mono (subF_of rfl)

/-- With no answer of the host outstanding a tick is the beats and the nanosecond alone. -/
theorem tick_of_not_hostOwes {s : State} (h : s.hostOwes = false) : s.tick = s.tickBeats.tickGt := by
  obtain ⟨⟨_, hsame⟩, _⟩ := chg_tickBeats_tickGt s
  have howes : s.tickBeats.tickGt.hostOwes = s.hostOwes := by
    unfold State.hostOwes
    rw [hsame .launches (by decide), hsame .dies (by decide)]
  unfold State.tick
  simp only [howes, h, Bool.false_eq_true, if_false]

theorem gt_tickBeats_tickGt (s : State) : s.tickBeats.tickGt.gt = s.gt + 1 := by
  have hcounts : s.tickCounts.gt = s.gt := (chg_tickCounts s).1.2 .gt (by decide)
  rw [tickBeats_tickGt_eq, (chg_pmTime _ _ _).1.2 .gt (by decide), ← hcounts]
  rfl

theorem reg_tickBeats_tickGt (s : State) {k : Nat} (hk : pmReg k = false) : s.tickBeats.tickGt.reg k = s.reg k :=
  (reg_pmTime _ _ _ hk).trans ((reg_pmTime _ _ _ hk).trans (reg_pmTime s _ _ hk))

theorem core_tickBeats_tickGt (s : State) (p : Nat) : s.tickBeats.tickGt.core p = s.tickCounts.coreAfter p (s.core p) := by
  rw [tickBeats_tickGt_eq, (chg_pmTime _ _ _).1.core_eq (by decide), (chg_nextNs _).1.core_eq (by decide), core_tickPhase,
    (chg_tickCounts s).1.core_eq (by decide)]

theorem selects_one {s : State} {e f p n : Nat} (hef : e ≠ f) (h : s.selects f p n = true) : s.selects e p n = false := by
  simp only [State.selects, Bool.and_eq_true, beq_iff_eq] at h
  simp [State.selects, h.1, hef.symm]

/-- What a counter that runs reads after a nanosecond: it counts each event of time that it selects. -/
theorem reg64_tick {s : State} {p n : Nat} (hc : s.Canon) (hp : p < 1632) (hn : n < 8)
    (hrun : s.bit (pmCtrl p) 0 = false) (hovf : s.bit (pmCtrl p) 1 = false) (hroom : s.reg64 (pmc p n) < 2 ^ 48 - 16) :
    s.tickBeats.tickGt.reg64 (pmc p n) = s.reg64 (pmc p n) + (if s.selects evBeats p n then s.beatsOf p else 0) +
      (if s.selects evNoGroup p n then s.idleScheds p * s.beatsOf p else 0) + if s.selects evGt p n then 1 else 0 := by
  have hbeats := beatsOf_le s p
  have hidle : s.idleScheds p * s.beatsOf p ≤ 16 := Nat.mul_le_mul (idleScheds_le s p) hbeats
  obtain ⟨hctrl1, hcount1⟩ := pmTime_counts (k := s.beatsOf) hc hp hn (by decide : evBeats ≠ 0) hrun hovf fun _ => by omega
  have hsel1 := fun ev => selects_congr (fun i hi => reg_pmTime s evBeats s.beatsOf hi) ev p hn
  have hcanon1 := (chg_pmTime s evBeats s.beatsOf).2.1 hc
  have hcount2 := pmTime_counts (k := fun p => s.idleScheds p * s.beatsOf p) hcanon1 hp hn (by decide : evNoGroup ≠ 0)
    (by rw [State.bit_congr hctrl1, hrun]) (by rw [State.bit_congr hctrl1, hovf]) fun h => by
      rw [hsel1] at h
      rw [hcount1, selects_one (by decide) h, if_neg (by decide)]
      omega
  rw [hsel1, hcount1, hctrl1] at hcount2
  obtain ⟨hctrl2, hcount2⟩ := hcount2
  have hsel2 := fun ev => selects_congr (s := s) (t := s.tickCounts) (fun i hi => (reg_pmTime _ _ _ hi).trans (reg_pmTime s _ _ hi)) ev p hn
  have hcanon2 := (chg_tickCounts s).2.1 hc
  have hcount3 := pmTime_counts (s := s.tickCounts.tickPhase.nextNs) (k := fun _ => 1) hcanon2 hp hn (by decide : evGt ≠ 0)
    ((State.bit_congr hctrl2 0).trans hrun) ((State.bit_congr hctrl2 1).trans hovf) fun h => by
      have hgt : s.selects evGt p n = true := (hsel2 evGt).symm.trans h
      have hstay := hcount2
      rw [selects_one (by decide) hgt, selects_one (by decide) hgt, if_neg (by decide), if_neg (by decide)] at hstay
      exact lt_of_eq_of_lt (congrArg (· + 1) hstay) (by omega)
  rw [tickBeats_tickGt_eq, hcount3.2]
  exact congrArg₂ (fun a b => a + if b = true then 1 else 0) hcount2 (hsel2 evGt)

/-- Settles O3: a tick is three passes over the counters of time and one over the cores; a counter that selects one of their events counts in that pass alone. -/
theorem idleStepsCountTime : Obligations.IdleStepsCountTime := by
  intro s hq howes
  have hstep : step s = .next s.tickBeats.tickGt := by
    rw [← tick_of_not_hostOwes howes]
    unfold step
    rw [hq]
  refine ⟨_, hstep, gt_tickBeats_tickGt s, (chg_tickBeats_tickGt s).1, fun k hk => reg_tickBeats_tickGt s hk, fun p => ?_, ?_⟩
  · rw [core_tickBeats_tickGt]
    exact ⟨coreAfter_eq _ p _, coreAfter_idle⟩
  intro p n c hc hp hn hrun hovf hval hroom
  have hcount := reg64_tick hc hp hn hrun hovf (hval ▸ hroom)
  rw [← hval] at hcount
  have hbeats := beatsOf_le s p
  have hidle : s.idleScheds p * s.beatsOf p ≤ 16 := Nat.mul_le_mul (idleScheds_le s p) hbeats
  have hnone : (s.core p).busy = false → s.beatsOf p = 0 := beatsOf_idle
  refine ⟨fun hev hall => ?_, fun hev hall => ?_, fun hev hall => ?_, fun hother => ?_⟩
  · simp [hcount, State.selects, hev, hall, evBeats, evNoGroup, evGt]
  · have hone : s.tickBeats.tickGt.reg64 (pmc p n) = c + s.beatsOf p := by
      simp [hcount, State.selects, hev, hall, evBeats, evNoGroup, evGt]
    exact ⟨by omega, by omega, fun h => by rw [hone, hnone h, Nat.add_zero]⟩
  · have hone : s.tickBeats.tickGt.reg64 (pmc p n) = c + s.idleScheds p * s.beatsOf p := by
      simp [hcount, State.selects, hev, hall, evBeats, evNoGroup, evGt]
    exact ⟨by omega, by omega, fun h => by rw [hone, hnone h, Nat.mul_zero, Nat.add_zero]⟩
  · rcases hother with hother | hfilter
    · simp only [List.mem_cons, List.not_mem_nil, or_false, not_or] at hother
      simp [hcount, State.selects, hother.1, hother.2.1, hother.2.2, evBeats, evNoGroup, evGt]
    · simp [hcount, State.selects, hfilter]

end Sys2Proof.Machine
end

section
namespace Sys2Proof.Machine

/-! A retired link that was up has the grandmaster chosen again (R390), and so LNK_FAB_GM written. That register stands where the block of a 49th link would have LNK_STAT, so that `linkState 48` reads it: what a statement says of every number but the retired link's, it says of 48 too, which is no link's (R17). -/

/-- Link 0 is up, and LNK_FAB_GM holds a grandmaster that no link announces. -/
def upLinkOldGm : State := { regs := [(lnkStat 0, BitVec.ofNat 32 lsUp), (fabGm, 1)] }

theorem lnkStat_48 : lnkStat 48 = fabGm := rfl

theorem upLinkOldGm_linkState : upLinkOldGm.linkUp 0 = true ∧ upLinkOldGm.linkState 48 = 1 ∧ getBits upLinkOldGm.chart.mLinks 0 1 = 0 := by
  decide +kernel

/-- Retiring link 0 takes it down, and the module becomes its own grandmaster. -/
theorem retireLink_upLinkOldGm : (upLinkOldGm.retireLink 0).linkState 0 = lsFailed ∧ (upLinkOldGm.retireLink 0).linkState 48 = 0 := by
  decide +kernel

/-- Refutes O57: of a retired link the statement says that `linkState` stays for every other number, links or not; with link 0 up and an old grandmaster in LNK_FAB_GM, ENGINE_RETIRE of link 0 changes `linkState 48`. -/
theorem not_failedUnitsLeaveService : ¬Obligations.FailedUnitsLeaveService := by
  intro h
  obtain ⟨_, _, _, _, _, _, _, _, _, hlink, _⟩ := h
  obtain ⟨_, hbefore, hnew⟩ := upLinkOldGm_linkState
  obtain ⟨t, ht, _, _, _, _, _, hothers⟩ := hlink upLinkOldGm 0 rfl hnew
  have hexec : t = upLinkOldGm.retireLink 0 := (next_inj ht).symm
  obtain ⟨_, hsame⟩ := hothers 48 (by decide)
  rw [hexec, retireLink_upLinkOldGm.2, hbefore] at hsame
  exact absurd hsame (by decide)

end Sys2Proof.Machine
end

section
namespace Sys2Proof.Machine

/-! What a statement of a command's completion needs, and vectors (R407, R408). -/

theorem Does.intro {i : Instr} {s t : State} {ch : List Fld} {P : State → Prop} (hexec : exec i s = .next t) (htouch : Touches ch s t) (hP : P t) :
    Does i s ch P := ⟨t, hexec, htouch, hP⟩

/-- A command that leaves the state as it is completes. -/
theorem Does.stays {i : Instr} {s : State} (hexec : exec i s = .next s) : Does i s [] fun t => t = s := ⟨s, hexec, .refl _ s, rfl⟩

theorem withUnit_ok {b : Bool} (h : b = true) (t : State) : withUnit b t = .next t := by rw [h]; rfl

/-- A vector of PF0, or of a function that exists, leaves as its message or as its pending bit. -/
theorem oneVector_irq (s : State) (fn vec : Nat) : OneVector s (s.irq fn vec) fn vec := by
  intro hfn
  have hexists : ¬(fn ≠ 0 ∧ s.vfExists fn = false) := by
    rintro ⟨h0, hno⟩
    rcases hfn with h | h
    · exact h0 h
    · rw [h] at hno; cases hno
  refine ⟨fun ⟨hmask, hd3⟩ => ?_, fun h => ?_⟩
  · unfold State.irq
    rw [if_neg hexists, hmask, hd3]
    exact ⟨rfl, rfl⟩
  · have hheld : ¬((s.host.unmasked.contains (fn * 4096 + vec) && !s.host.d3.contains fn) = true) := by
      rw [Bool.and_eq_true]
      rintro ⟨hmask, hd3⟩
      rcases h with h | h
      · rw [h] at hmask; cases hmask
      · rw [h] at hd3; cases hd3
    unfold State.irq
    rw [if_neg hexists, if_neg hheld]
    exact ⟨rfl, rfl⟩

/-- A vector raised in a state with the same host port and outputs is one raised here. -/
theorem oneVector_congr {s s' t : State} {fn vec : Nat} (h : OneVector s' t fn vec) (hhost : s'.host = s.host) (hout : s'.out = s.out) :
    OneVector s t fn vec := by
  have hexists : s'.vfExists fn = s.vfExists fn := by unfold State.vfExists; rw [hhost]
  unfold OneVector at h ⊢
  rw [hhost, hout, hexists] at h
  exact h

/-! The logbook (R515, R517 to R520). -/

/-- The record as its slot holds it. -/
def State.slotRec (s : State) (r : LogRec) : LogRec := { r with seq := s.log.next, pinned := decide (s.logSlotFor r < 256) }

/-- A slot that some copy holds a record in. -/
def State.slotUsed (s : State) (k : Nat) : Bool := (tfind s.log.mram k).isSome || (tfind s.log.nor k).isSome

/-- The logbook once a record has been written. -/
def State.logAfter (s : State) (r : LogRec) : Logbook :=
  { s.log with
    mram := tset s.log.mram (s.logSlotFor r) (s.slotRec r)
    badMram := s.log.badMram.filter (· != s.logSlotFor r)
    next := s.log.next + 1
    ring := if s.logSlotFor r < 256 then s.log.ring else ringNext s.log.ring
    ovwr := if s.slotUsed (s.logSlotFor r) then s.log.ovwr + 1 else s.log.ovwr
    norWait := (s.log.norWait.filter (· != s.logSlotFor r)) ++ [s.logSlotFor r]
    rate := (s.log.rate.filter fun x => decide (s.now < x + 10 ^ 9)) ++ [s.now] }

/-- The registers of the logbook that show it (R520). -/
def State.logRegs (s : State) (slot : Nat) : State :=
  let u := (s.setReg64 logNextSeq s.log.next).setReg64 logOvwr s.log.ovwr
  if slot < 256 then u.setFld logPinned 0 9 (slot + 1) else u

theorem logSlotFor_eq (s : State) (r : LogRec) (h : ¬s.logSlotFor r < 256) : s.logSlotFor r = s.log.ring := by
  unfold State.logSlotFor at h ⊢
  split
  · next hp => rw [if_pos hp] at h; exact absurd hp.2 h
  · rfl

/-- Writing a record: the logbook, the registers that show it, and vector 2 for an alert. -/
theorem logWrite_eq (s : State) (r : LogRec) :
    s.logWrite r = if sevAlert ≤ r.sev then (State.logRegs { s with log := s.logAfter r } (s.logSlotFor r)).irq 0 2
      else State.logRegs { s with log := s.logAfter r } (s.logSlotFor r) := by
  have hring : (if s.logSlotFor r < 256 then s.log.ring else ringNext (s.logSlotFor r)) = if s.logSlotFor r < 256 then s.log.ring else ringNext s.log.ring := by
    split
    · rfl
    · next h => rw [logSlotFor_eq s r h]
  unfold State.logWrite State.logAfter State.logRegs
  rw [← hring]
  rfl

theorem chg_logRegs (s : State) (slot : Nat) : Chg [.regs] s (s.logRegs slot) := by
  have hu : Chg [.regs] s ((s.setReg64 logNextSeq s.log.next).setReg64 logOvwr s.log.ovwr) := (chg_setReg64 s _ _).trans (chg_setReg64 _ _ _)
  unfold State.logRegs
  split
  · exact hu.trans (chg_setFld _ _ _ _ _)
  · exact hu

theorem log_logWrite (s : State) (r : LogRec) : (s.logWrite r).log = s.logAfter r := by
  have hregs : (State.logRegs { s with log := s.logAfter r } (s.logSlotFor r)).log = s.logAfter r := (chg_logRegs _ _).1.2 .log (by decide)
  rw [logWrite_eq]
  split
  · exact ((chg_irq _ _ _).1.2 .log (by decide)).trans hregs
  · exact hregs

theorem reg_logWrite (s : State) (r : LogRec) (k : Nat) :
    (s.logWrite r).reg k = (State.logRegs { s with log := s.logAfter r } (s.logSlotFor r)).reg k := by
  rw [logWrite_eq]
  split
  · exact (chg_irq _ _ _).1.reg_eq (by decide) k
  · rfl

/-- LOG_NEXTSEQ shows the next SEQ. -/
theorem reg64_nextSeq_logWrite (s : State) (r : LogRec) : (s.logWrite r).reg64 logNextSeq = (s.log.next + 1) % 2 ^ 64 := by
  have hkeys : logNextSeq ≠ logOvwr ∧ logNextSeq ≠ logOvwr + 4 ∧ logNextSeq + 4 ≠ logOvwr := by decide
  have hpin : logNextSeq ≠ logPinned ∧ logNextSeq + 4 ≠ logPinned := by decide
  rw [State.reg64_congr (reg_logWrite s r _) (reg_logWrite s r _)]
  unfold State.logRegs
  extract_lets u
  have hu : u.reg64 logNextSeq = (s.log.next + 1) % 2 ^ 64 := by
    rw [State.reg64_setReg64_ne _ hkeys.1 hkeys.2.1 hkeys.2.2, State.reg64_setReg64_self]
    rfl
  split
  · rw [State.reg64_congr (State.reg_setFld_ne u hpin.1) (State.reg_setFld_ne u hpin.2), hu]
  · exact hu

/-- LOG_PINNED shows how many slots are taken. -/
theorem fld_pinned_logWrite (s : State) (r : LogRec) (h : s.logSlotFor r < 256) :
    (s.logWrite r).fld logPinned 0 9 = s.logSlotFor r + 1 := by
  rw [State.fld_congr (reg_logWrite s r _)]
  unfold State.logRegs
  rw [if_pos h, State.fld_setFld_self _ (by decide)]
  omega

/-- An alert raises vector 2 of PF0, and anything less leaves the host port alone. -/
theorem vector_logWrite (s : State) (r : LogRec) :
    (sevAlert ≤ r.sev → OneVector s (s.logWrite r) 0 2) ∧ (r.sev < sevAlert → (s.logWrite r).out = s.out ∧ (s.logWrite r).host = s.host) := by
  obtain ⟨_, hsame⟩ := (chg_logRegs { s with log := s.logAfter r } (s.logSlotFor r)).1
  have hhost : (State.logRegs { s with log := s.logAfter r } (s.logSlotFor r)).host = s.host := hsame .host (by decide)
  have hout : (State.logRegs { s with log := s.logAfter r } (s.logSlotFor r)).out = s.out := hsame .out (by decide)
  rw [logWrite_eq]
  refine ⟨fun h => ?_, fun h => ?_⟩
  · rw [if_pos h]
    exact oneVector_congr (oneVector_irq _ 0 2) hhost hout
  · rw [if_neg (Nat.not_le.2 h)]
    exact ⟨hout, hhost⟩

/-- A record that waits is written next. -/
theorem logMram_waiting {s : State} {r : LogRec} {rs : List LogRec} (hrate : s.logRate < 1000) (hdrop : s.log.dropped = 0) (hwait : s.log.waiting = r :: rs) :
    s.logMram = State.logWrite { s with log := { s.log with waiting := rs } } r := by
  unfold State.logMram
  rw [if_neg (by omega), hwait, hdrop]
  rfl

theorem logMram_drops {s : State} (hrate : s.logRate < 1000) (hdrop : s.log.dropped ≠ 0) :
    s.logMram = State.logWrite { s with log := { s.log with dropped := 0 } } s.dropRec := by
  unfold State.logMram
  rw [if_neg (by omega), if_pos hdrop]

theorem does_logMramWrite {s : State} {P : State → Prop} (hP : P s.logMram) : Does .logMramWrite s [.out, .regs, .host, .log, .records] P :=
  .intro rfl ((chg_execLogMramWrite rfl).1.mono (subF_of rfl)) hP

theorem writes_ring_slot {s : State} {r : LogRec} {rs : List LogRec} (hrate : s.logRate < 1000) (hdrop : s.log.dropped = 0) (hwait : s.log.waiting = r :: rs)
    (hring : 256 ≤ s.log.ring) (hsev : r.sev ≠ sevFatal ∨ 256 ≤ s.pinnedCount) :
    Does .logMramWrite s [.out, .regs, .host, .log, .records] fun t => tfind t.log.mram s.log.ring = some { r with seq := s.log.next, pinned := false } ∧
      (∀ k, k ≠ s.log.ring → tfind t.log.mram k = tfind s.log.mram k) ∧ s.log.ring ∉ t.log.badMram ∧ t.log.nor = s.log.nor ∧ t.log.waiting = rs ∧ t.log.next = s.log.next + 1 ∧
      t.log.ring = (if s.log.ring = 32767 then 256 else s.log.ring + 1) ∧ t.reg64 logNextSeq = (s.log.next + 1) % 2 ^ 64 ∧
      t.log.ovwr = (if (tfind s.log.mram s.log.ring).isSome || (tfind s.log.nor s.log.ring).isSome then s.log.ovwr + 1 else s.log.ovwr) ∧
      (sevAlert ≤ r.sev → OneVector s t 0 2) ∧ (r.sev < sevAlert → t.out = s.out ∧ t.host = s.host) := by
  have hslot : State.logSlotFor { s with log := { s.log with waiting := rs } } r = s.log.ring := by
    unfold State.logSlotFor
    exact if_neg fun h => hsev.elim (fun hne => hne h.1) fun hfull => Nat.not_lt.2 hfull h.2
  apply does_logMramWrite
  rw [logMram_waiting hrate hdrop hwait]
  have hlog := log_logWrite { s with log := { s.log with waiting := rs } } r
  unfold State.logAfter State.slotRec at hlog
  rw [hslot] at hlog
  have hseq := reg64_nextSeq_logWrite { s with log := { s.log with waiting := rs } } r
  obtain ⟨hvec, hquiet⟩ := vector_logWrite { s with log := { s.log with waiting := rs } } r
  generalize State.logWrite { s with log := { s.log with waiting := rs } } r = t at *
  have hbig : ¬s.log.ring < 256 := by omega
  refine ⟨?_, fun k hk => ?_, ?_, ?_, ?_, ?_, ?_, hseq, ?_, fun h => oneVector_congr (hvec h) rfl rfl, hquiet⟩ <;> rw [hlog]
  · simp [hbig]
  · simp [hk]
  · simp
  · simp [hbig, ringNext]
  · rfl

theorem writes_pinned_slot {s : State} {r : LogRec} {rs : List LogRec} (hrate : s.logRate < 1000) (hdrop : s.log.dropped = 0) (hwait : s.log.waiting = r :: rs)
    (hsev : r.sev = sevFatal) (hfree : s.pinnedCount < 256) :
    Does .logMramWrite s [.out, .regs, .host, .log, .records] fun t => tfind t.log.mram s.pinnedCount = some { r with seq := s.log.next, pinned := true } ∧
      (∀ k, k ≠ s.pinnedCount → tfind t.log.mram k = tfind s.log.mram k) ∧ t.log.ring = s.log.ring ∧ t.fld logPinned 0 9 = s.pinnedCount + 1 ∧ t.log.next = s.log.next + 1 := by
  have hslot : State.logSlotFor { s with log := { s.log with waiting := rs } } r = s.pinnedCount := if_pos ⟨hsev, hfree⟩
  apply does_logMramWrite
  rw [logMram_waiting hrate hdrop hwait]
  have hlog := log_logWrite { s with log := { s.log with waiting := rs } } r
  have hpin := fld_pinned_logWrite { s with log := { s.log with waiting := rs } } r (by rw [hslot]; exact hfree)
  unfold State.logAfter State.slotRec at hlog
  rw [hslot] at hlog hpin
  refine ⟨?_, fun k hk => ?_, ?_, hpin, ?_⟩ <;> rw [hlog]
  · simp [hfree]
  · simp [hk]
  · simp [hfree]

theorem tells_drops_first {s : State} (hrate : s.logRate < 1000) (hdrop : s.log.dropped ≠ 0) :
    Does .logMramWrite s [.out, .regs, .host, .log, .records] fun t => t.log.waiting = s.log.waiting ∧ t.log.dropped = 0 ∧
      ∃ r, tfind t.log.mram s.log.ring = some r ∧ r.code = 4 ∧ r.sev = sevAlert ∧ r.payload = leBytes 4 s.log.dropped ∧ r.seq = s.log.next := by
  have hslot : State.logSlotFor { s with log := { s.log with dropped := 0 } } s.dropRec = s.log.ring := if_neg fun h => absurd (show sevAlert = sevFatal from h.1) (by decide)
  apply does_logMramWrite
  rw [logMram_drops hrate hdrop]
  have hlog := log_logWrite { s with log := { s.log with dropped := 0 } } s.dropRec
  unfold State.logAfter at hlog
  rw [hslot] at hlog
  rw [hlog]
  exact ⟨rfl, rfl, _, tfind_tset_self _ _ _, rfl, rfl, rfl, rfl⟩

theorem logMram_idle {s : State} (h : 1000 ≤ s.logRate ∨ (s.log.dropped = 0 ∧ s.log.waiting = [])) : s.logMram = s := by
  unfold State.logMram
  rcases h with h | ⟨hdrop, hwait⟩
  · rw [if_pos h]
  · rw [hwait, hdrop]
    simp

/-- NOR takes the record of the oldest slot that waits, and the first slot of a sector of the ring erases its sector. -/
theorem nor_follows {s : State} {k : Nat} {ks : List Nat} {r : LogRec} (hwait : s.log.norWait = k :: ks) (hgood : k ∉ s.log.badMram) (hrec : tfind s.log.mram k = some r) :
    Does .logNorWrite s [.log, .records] fun t => t.log.mram = s.log.mram ∧ t.log.norWait = ks ∧ tfind t.log.nor k = some r ∧
      (256 ≤ k → k % 8 = 0 → ∀ i, k < i → i < k + 8 → tfind t.log.nor i = none) ∧
      (∀ i, i ≠ k → (k < 256 ∨ k % 8 ≠ 0 ∨ i / 8 ≠ k / 8) → tfind t.log.nor i = tfind s.log.nor i) := by
  have hmram : s.mramRec k = some r := by
    unfold State.mramRec
    rw [if_neg (by simpa using hgood), hrec]
  refine .intro rfl ((chg_execLogNorWrite rfl).1.mono (subF_of rfl)) ?_
  unfold State.logNor
  simp only [hwait, hmram]
  refine ⟨trivial, trivial, tfind_tset_self _ _ _, fun hring hfirst i hlo hhi => ?_, fun i hi hout => ?_⟩
  · rw [if_pos ⟨hring, hfirst⟩, tfind_tset_ne _ _ (by omega), tfind_filter fun j => j / 8 != k / 8, if_neg]
    simp only [bne_iff_ne, ne_eq, not_not]
    omega
  · rw [tfind_tset_ne _ _ hi]
    split
    · next h =>
      rw [tfind_filter fun j => j / 8 != k / 8, if_pos]
      simp only [bne_iff_ne, ne_eq]
      omega
    · rfl

/-- LOG_BUF shows the slot's record from MRAM, and from NOR where MRAM can no longer give it. -/
theorem logShown_of_slot {s : State} {k : Nat} (hk : s.fld logSlot 0 15 = k) :
    (k ∉ s.log.badMram → ∀ r, tfind s.log.mram k = some r → s.logShown = some r) ∧ (k ∈ s.log.badMram → s.logShown = tfind s.log.nor k) := by
  unfold State.logShown State.mramRec
  rw [hk]
  refine ⟨fun hgood r hr => ?_, fun hbad => ?_⟩
  · simp [hgood, hr]
  · simp [hbad]

theorem logbookFillsItsSlots : LogbookFillsItsSlots :=
  ⟨fun _ _ _ => writes_ring_slot, fun _ _ _ => writes_pinned_slot, fun _ hrate hdrop _ => tells_drops_first hrate hdrop,
    fun s h => .stays (congrArg Host.Outcome.next (logMram_idle h)), fun _ _ _ _ => nor_follows,
    fun s h => .stays (by show Host.Outcome.next s.logNor = .next s; unfold State.logNor; rw [h]), fun _ _ => logShown_of_slot⟩

end Sys2Proof.Machine
end

section
namespace Sys2Proof.Machine

/-! Accesses that reach their register (R397, R404, R488). -/

theorem atVf_of_open {s : State} {vf : Nat} (h : s.vfOpen vf = true) (isWrite : Bool) (ones : Output) (body : State → State) :
    s.atVf vf isWrite ones body = body s := by
  simp only [State.vfOpen, Bool.and_eq_true, Bool.not_eq_true'] at h
  obtain ⟨⟨⟨⟨hlamp, hexists⟩, hd3⟩, hcover⟩, hrefuse⟩ := h
  simp only [State.atVf, hlamp, hexists, hd3, hcover, hrefuse, Bool.true_eq_false, Bool.false_eq_true, or_self, if_false]

theorem reach_of_takes {s : State} {req off : Nat} (harr : s.arrives req = true) (htgt : s.targets req off = true) (htake : s.takes req = true)
    (isWrite : Bool) (body : State → State) : s.reach req off isWrite body = body s := by
  unfold State.takes at htake
  unfold State.reach
  rw [if_neg (by rw [harr]; decide), if_pos htgt]
  by_cases hvf : isVf req = true
  · rw [if_pos hvf] at htake ⊢
    exact atVf_of_open htake _ _ _
  · rw [if_neg hvf] at htake ⊢
    rw [if_neg]
    rintro ⟨rfl, hd3⟩
    rw [hd3] at htake
    exact absurd htake (by decide)

theorem reach_of_reached {s : State} {req off : Nat} (h : Reached s req off) (isWrite : Bool) (body : State → State) :
    s.reach req off isWrite body = body s := by
  obtain ⟨_, harr, htgt, htake, _⟩ := h
  exact reach_of_takes harr htgt htake _ _

/-- Offsets of registers lie below those that name BAR4 and configuration. -/
theorem targets_lt {s : State} {req off : Nat} (h : s.targets req off = true) : ¬bar4Off ≤ off := by
  unfold State.targets at h
  unfold bar4Off
  simp only [Bool.and_eq_true] at h
  obtain ⟨_, hoff⟩ := h
  split at hoff
  · simp only [Bool.and_eq_true, decide_eq_true_eq] at hoff
    omega
  · simp only [decide_eq_true_eq] at hoff
    omega

/-- What a read does at a register that it reaches: a low half is captured, a high half uses the capture up (R11). -/
def State.readAtReg (s : State) (req off : Nat) : State :=
  if isPairLo (regKey req off) then
    ({ s with latch := tset s.latch (2 ^ 64 * req + off) (BitVec.ofNat 64 ((s.view req off).toNat + (s.view req (off + 4)).toNat * 2 ^ 32)) } : State).emit
      (.reg req off (s.view req off))
  else if decide (4 ≤ off) && isPairLo (regKey req (off - 4)) then
    ({ s with latch := tdel s.latch (2 ^ 64 * req + off - 4) } : State).emit (.reg req off (s.readHi req off))
  else if (regAcc (regKey req off)).rc ≠ 0 then s
  else s.emit (.reg req off (s.view req off))

theorem exec_pairLoRead {s : State} {req off : Nat} (h : Reached s req off) : exec (.pairLoRead req off .plain) s = .next (s.readAtReg req off) := by
  have hoff := targets_lt h.2.2.1
  show execPairLoRead req off .plain s = _
  unfold execPairLoRead
  rw [withUnit_ok h.1, if_neg (by decide), if_neg hoff]
  exact congrArg Host.Outcome.next (reach_of_reached h false _)

theorem exec_readClear {s : State} {req off : Nat} (h : Reached s req off) (hbound : s.boundReq req = true) (hrc : (regAcc (regKey req off)).rc ≠ 0) :
    exec (.readClear req off) s = .next ((s.setReg (regKey req off) (s.reg (regKey req off) &&& ~~~(regAcc (regKey req off)).rc)).emit
      (.reg req off (s.view req off))) := by
  show execReadClear req off s = _
  unfold execReadClear State.onRead
  rw [withUnit_ok h.1, reach_of_reached h]
  dsimp only
  rw [if_neg hrc, if_pos (by rw [h.2.2.2.2, hbound]; rfl)]

/-- A register of a pair: a write of it alone is none of REGISTER_WRITE (R12). -/
def inPair (req off : Nat) : Bool := isPairLo (regKey req off) || (decide (4 ≤ off) && isPairLo (regKey req (off - 4)))

theorem exec_registerWrite {s : State} {req off : Nat} (v : Word) (hreq : okReq req = true) (harr : s.arrives req = true)
    (htgt : s.targets req off = true) (htake : s.takes req = true) :
    exec (.registerWrite req off v .plain) s = .next (if inPair req off then s else s.writeOne req off v) := by
  show execRegisterWrite req off v .plain s = _
  unfold execRegisterWrite
  rw [withUnit_ok hreq, if_neg (by decide), if_neg (targets_lt htgt)]
  exact congrArg Host.Outcome.next (reach_of_takes harr htgt htake true _)

theorem exec_pairLoWrite {s : State} {req off : Nat} (h : Reached s req off) (v : Word) :
    exec (.pairLoWrite req off v) s =
      .next (if isPairLo (regKey req off) && writablePair req off && s.boundReq req then { s with held := tset s.held (heldKey req off) v } else s) := by
  show execPairLoWrite req off v s = _
  unfold execPairLoWrite
  rw [withUnit_ok h.1]
  exact congrArg Host.Outcome.next (reach_of_reached h true _)

theorem exec_pairHiWrite {s : State} {req off : Nat} (h : Reached s req (off + 4)) (hpair : isPairLo (regKey req off) = true) (v : Word) :
    exec (.pairHiWrite req (off + 4) v) s = .next (s.commitPair req (off + 4) v) := by
  show execPairHiWrite req (off + 4) v s = _
  unfold execPairHiWrite State.onWrite
  rw [withUnit_ok h.1, reach_of_reached h]
  simp [hpair]

/-! Reads (R10, R11, R14, R15). -/

theorem touches_readAtReg (s : State) (req off : Nat) : Touches [.out, .latch] s (s.readAtReg req off) := by
  have hlatch : ∀ x o, Touches [.out, .latch] s (({ s with latch := x } : State).emit o) := fun x o =>
    ((Touches.latch s x).mono (subF_of rfl)).trans ((chg_emit _ o).1.mono (subF_of rfl))
  unfold State.readAtReg
  repeat' split
  · exact hlatch _ _
  · exact hlatch _ _
  · exact .refl _ s
  · exact (chg_emit s _).1.mono (subF_of rfl)

/-- A capture reads its upper half back. -/
theorem upper_of_capture (lo hi : Word) : BitVec.ofNat 32 ((BitVec.ofNat 64 (lo.toNat + hi.toNat * 2 ^ 32)).toNat / 2 ^ 32) = hi := by
  have hlo := lo.isLt
  have hhi := hi.isLt
  apply BitVec.eq_of_toNat_eq
  rw [BitVec.toNat_ofNat, BitVec.toNat_ofNat]
  omega

/-- A read of a low half gives it and captures the whole value for its requester. -/
theorem reads_low_half {s : State} {req off : Nat} (h : Reached s req off) (hlo : isPairLo (regKey req off) = true) :
    Does (.pairLoRead req off .plain) s [.out, .latch] fun t => t.out = .reg req off (s.view req off) :: s.out ∧
      tfind t.latch (2 ^ 64 * req + off) = some (BitVec.ofNat 64 ((s.view req off).toNat + (s.view req (off + 4)).toNat * 2 ^ 32)) ∧
      t.readHi req (off + 4) = s.view req (off + 4) := by
  refine .intro (exec_pairLoRead h) (touches_readAtReg s req off) ?_
  unfold State.readAtReg
  rw [if_pos hlo]
  refine ⟨rfl, tfind_tset_self _ _ _, ?_⟩
  unfold State.readHi
  rw [show 2 ^ 64 * req + (off + 4) - 4 = 2 ^ 64 * req + off by omega]
  simp only [State.emit_latch, tfind_tset_self]
  exact upper_of_capture _ _

/-- The next read of the high half uses the capture up. -/
theorem reads_high_half {s : State} {req off : Nat} (h : Reached s req (off + 4)) (hhi : isPairLo (regKey req (off + 4)) = false)
    (hlo : isPairLo (regKey req off) = true) :
    Does (.pairLoRead req (off + 4) .plain) s [.out, .latch] fun t => t.out = .reg req (off + 4) (s.readHi req (off + 4)) :: s.out ∧
      tfind t.latch (2 ^ 64 * req + off) = none ∧
      ∀ v, tfind s.latch (2 ^ 64 * req + off) = some v → s.readHi req (off + 4) = BitVec.ofNat 32 (v.toNat / 2 ^ 32) := by
  have hkey : 2 ^ 64 * req + (off + 4) - 4 = 2 ^ 64 * req + off := by omega
  refine .intro (exec_pairLoRead h) (touches_readAtReg s req (off + 4)) ?_
  unfold State.readAtReg
  rw [if_neg (by rw [hhi]; decide), if_pos (by simp [hlo]), hkey]
  refine ⟨rfl, tfind_tdel_self _ _, fun v hv => ?_⟩
  unfold State.readHi
  rw [hkey, hv]

theorem reads_single {s : State} {req off : Nat} (h : Reached s req off) (hlo : isPairLo (regKey req off) = false)
    (hhi : 4 ≤ off → isPairLo (regKey req (off - 4)) = false) (hrc : (regAcc (regKey req off)).rc = 0) :
    Does (.pairLoRead req off .plain) s [.out] fun t => t.out = .reg req off (s.view req off) :: s.out := by
  have hread : s.readAtReg req off = s.emit (.reg req off (s.view req off)) := by
    have hnot : ¬((decide (4 ≤ off) && isPairLo (regKey req (off - 4))) = true) := by
      simp only [Bool.and_eq_true, decide_eq_true_eq]
      rintro ⟨h4, hp⟩
      rw [hhi h4] at hp
      cases hp
    unfold State.readAtReg
    rw [if_neg (by rw [hlo]; decide), if_neg hnot, if_neg (by simpa using hrc)]
  exact .intro ((exec_pairLoRead h).trans (congrArg Host.Outcome.next hread)) (chg_emit s _).1 rfl

theorem reads_and_clears {s : State} {req off : Nat} (h : Reached s req off) (hbound : s.boundReq req = true) (hrc : (regAcc (regKey req off)).rc ≠ 0) :
    Does (.readClear req off) s [.out, .regs] fun t => t.out = .reg req off (s.view req off) :: s.out ∧ RegsBut [regKey req off] s t ∧
      t.reg (regKey req off) = s.reg (regKey req off) &&& ~~~(regAcc (regKey req off)).rc := by
  refine .intro (exec_readClear h hbound hrc) (Chg.step (chg_emit _ _) (subF_of rfl) ((chg_setReg s _ _).mono (subF_of rfl))).1 ?_
  exact ⟨rfl, regsBut_setReg s _ _, State.reg_setReg_self s _ _⟩

/-! Writes by access code (R14 to R16). -/

/-- What a write of a register leaves in it. -/
def State.written (s : State) (k : Nat) (w : Word) : Word := (regAcc k).apply (s.lockedBlk k) s.present (s.reg k) w

theorem writeHeld_of_checked {s : State} {k : Nat} {v w : Word} (hw : s.checked k v = some w) (hexc : offIn k 0x2000000 1632 0x1000 ≠ 0x800) :
    s.writeHeld k v = s.setReg k (s.written k w) := by
  unfold State.writeHeld
  rw [hw]
  exact if_neg fun h => hexc h.1

theorem writeHeld_ignored {s : State} {k : Nat} {v : Word} (hw : s.checked k v = none) : s.writeHeld k v = s := by
  unfold State.writeHeld
  rw [hw]

/-- A write by PF0 of a register without a rule of TDISP, and other than the mailbox's control, is held as its codes say. -/
theorem writeOne_pf0 {s : State} {off : Nat} (v : Word) (hserve : s.serves0 0 off = true) (htdi : tdiReg off = none) (hmbx : off ≠ mbxCtrl) :
    s.writeOne 0 off v = s.writeHeld off v := by
  unfold State.writeOne State.pfWrite
  rw [if_pos hserve, if_neg (by decide), htdi]
  exact if_neg fun h => hmbx h.1

theorem inPair_pf0 {off : Nat} (hlo : isPairLo off = false) (hhi : 4 ≤ off → isPairLo (off - 4) = false) : inPair 0 off = false := by
  have hkey : ∀ o, regKey 0 o = o := fun o => if_neg (by decide)
  unfold inPair
  rw [hkey, hkey, hlo]
  by_cases h4 : 4 ≤ off
  · simp [hhi h4]
  · simp [h4]

theorem exec_registerWrite_single {s : State} {off : Nat} (v : Word) (h : Reached s 0 off) (hpair : inPair 0 off = false) :
    exec (.registerWrite 0 off v .plain) s = .next (s.writeOne 0 off v) := by
  obtain ⟨hreq, harr, htgt, htake, _⟩ := h
  rw [exec_registerWrite v hreq harr htgt htake, if_neg (by rw [hpair]; decide)]

/-- A write changes writable bits, clears bits written as 1 that such a write clears, and nothing else. -/
theorem writes_by_codes {s : State} {off : Nat} {v w : Word} (h : Reached s 0 off) (hlo : isPairLo off = false)
    (hhi : 4 ≤ off → isPairLo (off - 4) = false) (htdi : tdiReg off = none) (hmbx : off ≠ mbxCtrl) (hexc : offIn off 0x2000000 1632 0x1000 ≠ 0x800)
    (hw : s.checked off v = some w) :
    Does (.registerWrite 0 off v .plain) s [.regs] fun t => RegsBut [off] s t ∧
      ∃ m, m = (regAcc off).rw ||| (if s.lockedBlk off then 0 else (regAcc off).rwl) ||| (if s.present then (regAcc off).rwp else 0) ∧
        t.reg off = ((s.reg off &&& ~~~m) ||| (w &&& m)) &&& ~~~(w &&& (regAcc off).w1c) := by
  have hexec := exec_registerWrite_single v h (inPair_pf0 hlo hhi)
  rw [writeOne_pf0 v h.2.2.2.2 htdi hmbx, writeHeld_of_checked hw hexc] at hexec
  exact .intro hexec (chg_setReg s _ _).1 ⟨regsBut_setReg s _ _, _, rfl, State.reg_setReg_self s _ _⟩

theorem ignores_broken_rule {s : State} {off : Nat} {v : Word} (h : Reached s 0 off) (hlo : isPairLo off = false)
    (hhi : 4 ≤ off → isPairLo (off - 4) = false) (hw : s.checked off v = none) (htdi : tdiReg off = none) (hmbx : off ≠ mbxCtrl) :
    Does (.registerWrite 0 off v .plain) s [] fun t => t = s := by
  have hexec := exec_registerWrite_single v h (inPair_pf0 hlo hhi)
  rw [writeOne_pf0 v h.2.2.2.2 htdi hmbx, writeHeld_ignored hw] at hexec
  exact .stays hexec

end Sys2Proof.Machine
end

section
namespace Sys2Proof.Machine

/-! The fabric domain of a partition (R410). -/

/-- In a partition's block only PART_PTROOT is a pair. -/
theorem isPairLo_partBlk {k p o : Nat} (hp : p < 64) (hk : k = partBlk p + o) (ho : o < 0x10000) : isPairLo k = (o == 0x200) := by
  have hbase : partBlk p = 0x800000 + 0x10000 * p := rfl
  have hother : ∀ {b n sz}, 0x1000000 ≤ b → offIn k b n sz = 0xFFFFFFFF := fun hb => offIn_none (inBlk_eq_none (by omega))
  have hown : offIn k 0x800000 64 0x10000 = o := offIn_eq (i := p) (inBlk_eq_some (by omega) hp ho)
  have hsingle : [rimSerial, rimLamps, rimLampChg, logNextSeq, logOvwr, dbgSnapcnt, chartSrc, chartSeq, chartStaged].contains k = false := by
    simp [rimSerial, rimLamps, rimLampChg, logNextSeq, logOvwr, dbgSnapcnt, chartSrc, chartSeq, chartStaged]
    omega
  unfold isPairLo
  rw [if_pos (by omega), hsingle, hown]
  simp [hother]

theorem inPair_partFdom {p : Nat} (hp : p < 64) : inPair 0 (partFdom p) = false :=
  inPair_pf0 (isPairLo_partBlk (o := 0x500) hp rfl (by decide)) fun _ => isPairLo_partBlk (o := 0x4FC) hp (by unfold partFdom; omega) (by decide)

theorem inBlk_partFdom {p : Nat} (hp : p < 64) : inBlk (partFdom p) 0x800000 64 0x10000 = some (p, 0x500) :=
  inBlk_eq_some (by unfold partFdom partBlk; omega) hp (by decide)

theorem tdiReg_partFdom {p : Nat} (hp : p < 64) : tdiReg (partFdom p) = some p := by
  unfold tdiReg
  rw [inBlk_partFdom hp]
  rfl

theorem regAcc_partFdom {p : Nat} (hp : p < 64) : regAcc (partFdom p) = { rw := 0xFFFF } := by
  have hlow : ¬partFdom p < 0x400000 := by unfold partFdom partBlk; omega
  have hhigh : partFdom p < 0x1000000 := by unfold partFdom partBlk; omega
  unfold regAcc
  rw [if_neg (by omega), if_neg (by omega), if_neg (by omega), if_neg hlow, if_pos hhigh, inBlk_partFdom hp]
  rfl

theorem checked_partFdom (s : State) {p : Nat} (hp : p < 64) (v : Word) : s.checked (partFdom p) v = some v := by
  have hbase : partFdom p = 0x800000 + 0x10000 * p + 0x500 := rfl
  have hother : ∀ {b n sz}, 0x1000000 ≤ b → offIn (partFdom p) b n sz = 0xFFFFFFFF := fun hb => offIn_none (inBlk_eq_none (by omega))
  have hown : offIn (partFdom p) 0x800000 64 0x10000 = 0x500 := offIn_eq (inBlk_partFdom hp)
  have hpwr : partFdom p ≠ pwrLimit := by unfold pwrLimit; omega
  have hhang : partFdom p ≠ dbgHangcfg := by unfold dbgHangcfg; omega
  have htr : partFdom p ≠ dbgTrctrl := by unfold dbgTrctrl; omega
  unfold State.checked
  rw [hown]
  simp [hpwr, hhang, htr, hother]

/-- Of a register with writable bits alone a write sets those. -/
theorem getLsbD_apply_rw (m : Word) (locked presence : Bool) (old v : Word) {i : Nat} (hi : i < 32) :
    (RegAcc.apply { rw := m } locked presence old v).getLsbD i = if m.getLsbD i then v.getLsbD i else old.getLsbD i := by
  have hmask : (m ||| (if locked then 0 else 0) ||| (if presence then 0 else 0) : Word) = m := by simp
  have hkeep : ∀ x : Word, x &&& ~~~(v &&& 0) = x := fun x => by
    rw [show v &&& 0 = 0 from BitVec.and_zero]
    exact BitVec.and_allOnes
  unfold RegAcc.apply
  dsimp only
  rw [hmask, hkeep, BitVec.getLsbD_or, BitVec.getLsbD_and, BitVec.getLsbD_and, BitVec.getLsbD_not]
  cases m.getLsbD i <;> simp [hi]

theorem apply_low_half (locked presence : Bool) (old v : Word) :
    getBits (RegAcc.apply { rw := 0xFFFF } locked presence old v).toNat 0 16 = v.toNat % 2 ^ 16 := by
  refine Nat.eq_of_testBit_eq fun i => ?_
  rw [testBit_getBits, Nat.testBit_mod_two_pow, Nat.zero_add]
  by_cases hi : i < 16
  · have hmask : (0xFFFF : Word).getLsbD i = true := by
      have hones : (0xFFFF : Word) = BitVec.ofNat 32 (2 ^ 16 - 1) := rfl
      rw [hones, BitVec.getLsbD_ofNat, Nat.testBit_two_pow_sub_one]
      simp [hi, show i < 32 by omega]
    rw [BitVec.testBit_toNat, getLsbD_apply_rw _ _ _ _ _ (by omega), hmask, if_pos rfl, BitVec.testBit_toNat]
  · simp [hi]

theorem writes_domain {s : State} {p : Nat} {v : Word} (hpart : okPart p = true) (h : Reached s 0 (partFdom p)) (hopen : s.tdiLocked p = false) :
    Does (.registerWrite 0 (partFdom p) v .plain) s [.regs] fun t => t.domainOf p = v.toNat % 2 ^ 16 ∧ RegsBut [partFdom p] s t := by
  have hp : p < 64 := of_decide_eq_true hpart
  have hexc : offIn (partFdom p) 0x2000000 1632 0x1000 ≠ 0x800 := by
    rw [offIn_none (inBlk_eq_none (by unfold partFdom partBlk; omega))]
    decide
  have hone : s.writeOne 0 (partFdom p) v = s.setReg (partFdom p) (s.written (partFdom p) v) := by
    unfold State.writeOne State.pfWrite
    rw [if_pos h.2.2.2.2, if_neg (by decide), tdiReg_partFdom hp]
    dsimp only
    rw [hopen, if_neg (by decide), writeHeld_of_checked (checked_partFdom s hp v) hexc]
  refine .intro ((exec_registerWrite_single v h (inPair_partFdom hp)).trans (congrArg Host.Outcome.next hone)) (chg_setReg s _ _).1 ⟨?_, regsBut_setReg s _ _⟩
  unfold State.domainOf State.fld State.written
  rw [State.reg_setReg_self, regAcc_partFdom hp, apply_low_half]

/-- A record that is raised changes no register but the count of dropped ones. -/
theorem regsBut_logRaise (s : State) (sev : Nat) (part : Option Nat) (source code : Nat) (payload : List Byte) :
    RegsBut [logDrop] s (s.logRaise sev part source code payload) := by
  unfold State.logRaise
  dsimp only
  split
  · split
    · exact .of_regs rfl
    · exact regsBut_countReg _ _ _
  · split <;> exact .of_regs rfl

/-- A locked interface's registers stay, and a record says so. -/
theorem keeps_locked_domain {s : State} {p : Nat} {v : Word} (hpart : okPart p = true) (h : Reached s 0 (partFdom p)) (hlocked : s.tdiLocked p = true) :
    Does (.registerWrite 0 (partFdom p) v .plain) s [.regs, .log] fun t => RegsBut [logDrop] s t := by
  have hp : p < 64 := of_decide_eq_true hpart
  have hone : s.writeOne 0 (partFdom p) v = s.logLocked p (partFdom p) := by
    unfold State.writeOne State.pfWrite
    rw [if_pos h.2.2.2.2, if_neg (by decide), tdiReg_partFdom hp]
    exact if_pos hlocked
  exact .intro ((exec_registerWrite_single v h (inPair_partFdom hp)).trans (congrArg Host.Outcome.next hone)) (chg_logLocked s _ _).1 (regsBut_logRaise s _ _ _ _ _)

/-! The mailbox (R448). -/

theorem exec_mbxCtrl {s : State} {v : Word} (h : Reached s 0 mbxCtrl) (hgo : v.getLsbD 8 = true) :
    exec (.registerWrite 0 mbxCtrl v .plain) s = .next ((s.setReg mbxCtrl (s.written mbxCtrl v)).mbxGo (v.toNat % 256)) := by
  have hpair : inPair 0 mbxCtrl = false := by decide
  rw [exec_registerWrite_single v h hpair]
  unfold State.writeOne State.pfWrite
  rw [if_pos h.2.2.2.2, if_neg (by decide)]
  have htdi : tdiReg mbxCtrl = none := by decide
  rw [htdi]
  dsimp only
  rw [if_pos ⟨rfl, hgo⟩, writeHeld_of_checked (w := v) (by unfold State.checked; rfl) (by decide)]

/-- The bytes of a run of registers, none of which is written. -/
theorem regBytes_setReg {s : State} {k base n : Nat} {v : Word} (h : k < base) : (s.setReg k v).regBytes base n = s.regBytes base n := by
  unfold State.regBytes
  congr 2
  funext i
  rw [State.reg_setReg_ne _ _ (by omega)]

/-- GO starts the command of the opcode written, with the request as the buffer holds it. -/
theorem go_starts {s : State} {v : Word} (h : Reached s 0 mbxCtrl) (hgo : v.getLsbD 8 = true) (hidle : s.bit mbxStat 0 = false) :
    Does (.registerWrite 0 mbxCtrl v .plain) s [.regs, .sec] fun t => t.bit mbxStat 0 = true ∧ t.bit mbxCtrl 8 = true ∧ t.sec.op = v.toNat % 256 ∧
      t.sec.req = s.regBytes mbxBuf (min (s.fld mbxReqLen 0 13) 4097) ∧ t.sec.mbx = none ∧ t.sec.accepted = none ∧ RegsBut [mbxCtrl, mbxStat] s t := by
  have hstat : (s.setReg mbxCtrl (s.written mbxCtrl v)).bit mbxStat 0 = false := by
    rw [State.bit_congr (State.reg_setReg_ne s _ (by decide)), hidle]
  have hlen : (s.setReg mbxCtrl (s.written mbxCtrl v)).fld mbxReqLen 0 13 = s.fld mbxReqLen 0 13 := State.fld_congr (State.reg_setReg_ne s _ (by decide)) 0 13
  refine .intro (exec_mbxCtrl h hgo) (Chg.step (chg_mbxGo _ _) (subF_of rfl) ((chg_setReg s _ _).mono (subF_of rfl))).1 ?_
  have hwritten := regsBut_setReg s mbxCtrl (s.written mbxCtrl v)
  have hbytes := fun n => regBytes_setReg (s := s) (n := n) (v := s.written mbxCtrl v) (show mbxCtrl < mbxBuf by decide)
  generalize s.setReg mbxCtrl (s.written mbxCtrl v) = u at *
  unfold State.mbxGo
  rw [hstat, if_neg (by decide)]
  dsimp only
  rw [hlen, hbytes]
  refine ⟨?_, State.bit_setBit_self _ (by decide), rfl, rfl, rfl, rfl, ?_⟩
  · rw [State.bit_congr (State.reg_setBit_ne _ (by decide)), State.bit_setBit_self _ (by decide)]
  · refine (hwritten.mono (by simp)).trans (.trans (.of_regs rfl) ?_)
    exact .trans ((regsBut_setBit _ _ _ _).mono (by simp)) ((regsBut_setBit _ _ _ _).mono (by simp))

theorem go_is_lost {s : State} {v : Word} (h : Reached s 0 mbxCtrl) (hgo : v.getLsbD 8 = true) (hbusy : s.bit mbxStat 0 = true) :
    Does (.registerWrite 0 mbxCtrl v .plain) s [.regs] fun t => t.bit mbxStat 16 = true ∧ RegsBut [mbxCtrl, mbxStat] s t := by
  have hstat : (s.setReg mbxCtrl (s.written mbxCtrl v)).bit mbxStat 0 = true := by
    rw [State.bit_congr (State.reg_setReg_ne s _ (by decide)), hbusy]
  have hgo' : (s.setReg mbxCtrl (s.written mbxCtrl v)).mbxGo (v.toNat % 256) = (s.setReg mbxCtrl (s.written mbxCtrl v)).setBit mbxStat 16 true := if_pos hstat
  refine .intro ((exec_mbxCtrl h hgo).trans (congrArg Host.Outcome.next hgo')) ((chg_setReg s _ _).trans (chg_setBit _ _ _ _)).1 ⟨State.bit_setBit_self _ (by decide), ?_⟩
  exact .trans ((regsBut_setReg s _ _).mono (by simp)) ((regsBut_setBit _ _ _ _).mono (by simp))

end Sys2Proof.Machine
end

section
namespace Sys2Proof.Machine

/-! Accesses that no register takes (R397, R404, R409, R488). -/

theorem view_dark {s : State} {req off : Nat} (h : s.serves0 req off = false) : s.view req off = 0 := by
  unfold State.view
  rw [h]
  rfl

theorem ignores_dark_block {s : State} {req off : Nat} {v : Word} (hreq : okReq req = true) (harr : s.arrives req = true)
    (htgt : s.targets req off = true) (htake : s.takes req = true) (hdark : s.serves0 req off = false) :
    Does (.registerWrite req off v .plain) s [] (fun t => t = s) ∧ s.view req off = 0 := by
  have hone : (if inPair req off then s else s.writeOne req off v) = s := by
    unfold State.writeOne
    rw [hdark, if_neg (by decide : ¬false = true), ite_self]
  exact ⟨.stays ((exec_registerWrite v hreq harr htgt htake).trans (congrArg Host.Outcome.next hone)), view_dark hdark⟩

theorem serves0_others {s : State} {req off : Nat} (hreq : 64 < req)
    (hoff : (0x100000 ≤ off ∧ off < 0x400000) ∨ (0x800000 ≤ off ∧ off < 0xC00000) ∨ (0x1400000 ≤ off ∧ off < 0x1800000)) : s.serves0 req off = false := by
  have hvf : ¬isVf req = true := by simp [isVf, hreq]
  have hpf : pf0Only off = true := decide_eq_true hoff
  unfold State.serves0
  rw [if_neg hvf, hpf]
  simp [show req ≠ 0 by omega]

/-- A request that is none: one that a TLP's kind or size makes so. -/
theorem refuseTlp_eq {s : State} {req : Nat} (harr : s.arrives req = true) (hreq : req ≤ 64) (isWrite : Bool) (k : Tlp) :
    s.refuseTlp req isWrite k = (s.noTarget req (isWrite && k != .atomicOp)).exposure req := if_pos ⟨harr, hreq⟩

theorem exec_badWrite {s : State} {req off : Nat} {v : Word} {k : Tlp} (hreq : okReq req = true) (hk : k ∈ [Tlp.atomicOp, .badSize, .unaligned, .poisoned]) :
    exec (.registerWrite req off v k) s = .next (s.refuseTlp req true k) := by
  have hbad : badTlp true k = true := by
    cases k with
    | plain => simp at hk
    | poisoned | atomicOp | badSize | unaligned => rfl
  show execRegisterWrite req off v k s = _
  unfold execRegisterWrite
  rw [withUnit_ok hreq, if_pos hbad]

theorem exec_badRead {s : State} {req off : Nat} {k : Tlp} (hreq : okReq req = true) (hk : k ∈ [Tlp.atomicOp, .badSize, .unaligned]) :
    exec (.pairLoRead req off k) s = .next (s.refuseTlp req false k) := by
  have hbad : badTlp false k = true := by
    cases k with
    | plain | poisoned => simp at hk
    | atomicOp | badSize | unaligned => rfl
  show execPairLoRead req off k s = _
  unfold execPairLoRead
  rw [withUnit_ok hreq, if_pos hbad]

/-- Whether a function is exposed depends on its partition's TDI and on the streams alone. -/
theorem exposed_noTarget (s : State) (req : Nat) (isWrite : Bool) (vf : Nat) : (s.noTarget req isWrite).exposed vf = s.exposed vf := by
  unfold State.noTarget
  split <;> rfl

theorem partOf_noTarget (s : State) (req : Nat) (isWrite : Bool) (vf : Nat) : (s.noTarget req isWrite).partOf vf = s.partOf vf := by
  unfold State.noTarget
  split <;> rfl

theorem exposure_covered {s : State} {fn : Nat} (h : s.exposed fn = false) : s.exposure fn = s := by
  unfold State.exposure
  split
  · rw [if_neg]
    rw [h, Bool.and_false]
    decide
  · rfl

theorem exposure_exposed {s : State} {fn p : Nat} (hfn : okVf fn = true) (h : s.exposed fn = true) (hp : s.partOf fn = some p) :
    s.exposure fn = s.setTdi p 3 := by
  unfold State.exposure
  rw [hp]
  exact if_pos (by rw [hfn, h]; rfl)

/-- An access that is no request at its function is logged, and answered where it is not posted. -/
theorem noTarget_logs (s : State) (req : Nat) (isWrite : Bool) :
    (s.noTarget req isWrite).host = { s.host with aer := s.host.aer + 1 } ∧
      (s.noTarget req isWrite).out = (if isWrite then [] else [.unsupported req]) ++ s.out ∧ (s.noTarget req isWrite).parts = s.parts := by
  unfold State.noTarget
  cases isWrite <;> exact ⟨rfl, rfl, rfl⟩

theorem touches_noTarget_write (s : State) (req : Nat) : Touches [.host] s (s.noTarget req true) := .host s _

theorem refuses_bad_requests {s : State} {req off : Nat} {v : Word} {k : Tlp} (hreq : okReq req = true) (hpcie : req ≤ 64) (harr : s.arrives req = true)
    (hcover : s.exposed req = false) (hk : k ∈ [Tlp.atomicOp, .badSize, .unaligned]) :
    Does (.registerWrite req off v k) s [.out, .host] (fun t => t.host = { s.host with aer := s.host.aer + 1 } ∧ t.out = (if k = .atomicOp then [.unsupported req] else []) ++ s.out) ∧
    Does (.pairLoRead req off k) s [.out, .host] (fun t => t.host = { s.host with aer := s.host.aer + 1 } ∧ t.out = .unsupported req :: s.out) := by
  have hexp : ∀ w, (s.noTarget req w).exposure req = s.noTarget req w := fun w => exposure_covered (by rw [exposed_noTarget, hcover])
  have hk4 : k ∈ [Tlp.atomicOp, .badSize, .unaligned, .poisoned] := by
    simp only [List.mem_cons, List.not_mem_nil, or_false] at hk ⊢
    tauto
  refine ⟨.intro ((exec_badWrite hreq hk4).trans (by rw [refuseTlp_eq harr hpcie, hexp])) (chg_noTarget s _ _).1 ?_,
    .intro ((exec_badRead hreq hk).trans (by rw [refuseTlp_eq harr hpcie, hexp])) (chg_noTarget s _ _).1 ?_⟩
  · obtain ⟨hhost, hout, _⟩ := noTarget_logs s req (true && k != .atomicOp)
    refine ⟨hhost, hout.trans ?_⟩
    by_cases ha : k = .atomicOp <;> simp [ha]
  · obtain ⟨hhost, hout, _⟩ := noTarget_logs s req (false && k != .atomicOp)
    exact ⟨hhost, hout⟩

theorem drops_poisoned_write {s : State} {req off : Nat} {v : Word} (hreq : okReq req = true) (hpcie : req ≤ 64) (harr : s.arrives req = true)
    (hcover : s.exposed req = false) :
    Does (.registerWrite req off v .poisoned) s [.host] fun t => t.host = { s.host with aer := s.host.aer + 1 } := by
  have hexp : (s.noTarget req true).exposure req = s.noTarget req true := exposure_covered (by rw [exposed_noTarget, hcover])
  refine .intro ((exec_badWrite hreq (by simp)).trans ?_) (touches_noTarget_write s req) (noTarget_logs s req true).1
  rw [refuseTlp_eq harr hpcie]
  exact congrArg Host.Outcome.next hexp

/-- A function in RUN without cover: its interface is in ERROR, and nothing else but what the host port shows of it has changed (R409). -/
theorem setTdi_error {s : State} {p : Nat} : ((s.setTdi p 3).part p).tdi = 3 ∧ (∀ q, q ≠ p → (s.setTdi p 3).part q = s.part q) ∧ (s.setTdi p 3).host.aer = s.host.aer := by
  have haer : ∀ (u : State) fn vec, (u.irq fn vec).host.aer = u.host.aer := fun u fn vec => by
    unfold State.irq
    split
    · rfl
    · split <;> rfl
  unfold State.setTdi
  split
  · next h => exact ⟨h, fun _ _ => rfl, rfl⟩
  · have hparts : ∀ q, ((s.modPart p fun y => { y with tdi := 3 }).partIrq p).part q = (s.modPart p fun y => { y with tdi := 3 }).part q :=
      fun q => (chg_partIrq _ _).1.part_eq (by decide) q
    refine ⟨by rw [hparts, State.part_modPart_self], fun q hq => by rw [hparts, State.part_modPart_ne _ _ hq], ?_⟩
    unfold State.partIrq
    dsimp only
    split
    · rw [haer, haer]; rfl
    · rw [haer]; rfl

theorem uncovered_interface_errs {s : State} {vf off : Nat} {v : Word} {p : Nat} (hvf : okVf vf = true) (hlamp : s.lamp lampPcie = true)
    (hexp : s.exposed vf = true) (hpart : s.partOf vf = some p) {i : Instr}
    (hi : (∃ k, k ∈ [Tlp.atomicOp, .badSize, .unaligned, .poisoned] ∧ i = Instr.registerWrite vf off v k) ∨ (∃ k, k ∈ [Tlp.atomicOp, .badSize, .unaligned] ∧ i = .pairLoRead vf off k) ∨
        (s.vfExists vf = true ∧ off % 4 = 0 ∧ 2 ^ 41 ≤ off ∧ (i = .registerWrite vf off v .plain ∨ i = .pairLoRead vf off .plain))) :
    Does i s [.out, .parts, .host] fun t => (t.part p).tdi = 3 ∧ (∀ q, q ≠ p → t.part q = s.part q) ∧ t.host.aer = s.host.aer + 1 := by
  have hrange : 1 ≤ vf ∧ vf ≤ 64 := by simpa [okVf] using hvf
  have hreq : okReq vf = true := by simp [okReq]; omega
  have hisVf : isVf vf = true := decide_eq_true hrange
  have harr : s.arrives vf = true := by
    unfold State.arrives
    rw [if_neg (by omega), if_neg (by omega), hlamp]
  have hout : ∃ w, exec i s = .next ((s.noTarget vf w).exposure vf) := by
    have haside : ∀ w bar4 cfg, s.vfExists vf = true → off % 4 = 0 → 2 ^ 41 ≤ off → s.aside vf off w bar4 cfg = (s.noTarget vf false).exposure vf := by
      intro w bar4 cfg hex hal hoff
      unfold State.aside
      rw [if_neg (by rw [harr]; simp; omega), if_neg (by rw [hex]; unfold cfgOff; simp; omega), if_pos (show cfgOff ≤ off from hoff), if_pos (by rw [hisVf, hexp]; rfl)]
      rfl
    rcases hi with ⟨k, hk, rfl⟩ | ⟨k, hk, rfl⟩ | ⟨hex, hal, hoff, rfl | rfl⟩
    · exact ⟨_, (exec_badWrite hreq hk).trans (by rw [refuseTlp_eq harr hrange.2])⟩
    · exact ⟨_, (exec_badRead hreq hk).trans (by rw [refuseTlp_eq harr hrange.2])⟩
    · refine ⟨false, ?_⟩
      show execRegisterWrite vf off v .plain s = _
      unfold execRegisterWrite
      rw [withUnit_ok hreq, if_neg (by decide), if_pos (by unfold bar4Off; omega), haside _ _ _ hex hal hoff]
    · refine ⟨false, ?_⟩
      show execPairLoRead vf off .plain s = _
      unfold execPairLoRead
      rw [withUnit_ok hreq, if_neg (by decide), if_pos (by unfold bar4Off; omega), haside _ _ _ hex hal hoff]
  obtain ⟨w, hexec⟩ := hout
  obtain ⟨hhost, _, hparts⟩ := noTarget_logs s vf w
  have hset : (s.noTarget vf w).exposure vf = (s.noTarget vf w).setTdi p 3 :=
    exposure_exposed hvf (by rw [exposed_noTarget, hexp]) (by rw [partOf_noTarget, hpart])
  obtain ⟨htdi, hothers, haer⟩ := setTdi_error (s := s.noTarget vf w) (p := p)
  refine .intro (hexec.trans (congrArg Host.Outcome.next hset)) (Chg.step (chg_setTdi _ _ _) (subF_of rfl) ((chg_noTarget s _ _).mono (subF_of rfl))).1 ⟨htdi, fun q hq => ?_, ?_⟩
  · rw [hothers q hq]
    unfold State.part
    rw [hparts]
  · rw [haer, hhost]

/-- An offset beyond BAR4, or one that is not aligned, is no request at PF0 or at a function (R398, R402). -/
theorem aside_beyond_bar4 {s : State} {req off : Nat} (hreq : req ≤ 64) (hlamp : s.lamp lampPcie = true)
    (hoff : off % 4 ≠ 0 ∨ (off < cfgOff ∧ bar4Off + bar4Size req ≤ off)) (isWrite : Bool) (bar4 cfg : State → State) :
    s.aside req off isWrite bar4 cfg = s.noTarget req isWrite := by
  have harr : s.arrives req = true := by
    unfold State.arrives
    rw [if_neg (by omega), if_neg (by omega), hlamp]
  unfold State.aside
  rw [if_neg (by rw [harr]; simp; omega), if_pos (.inr hoff)]

theorem arrives_pcie {s : State} {req : Nat} (hreq : req ≤ 64) (hlamp : s.lamp lampPcie = true) : s.arrives req = true := by
  unfold State.arrives
  rw [if_neg (by omega), if_neg (by omega), hlamp]

theorem okReq_pcie {req : Nat} (hreq : req ≤ 64) : okReq req = true := decide_eq_true (by omega)

/-- An access to words of BAR4 or of configuration. -/
theorem exec_write_aside {s : State} {req off : Nat} (v : Word) (hreq : okReq req = true) (hoff : bar4Off ≤ off) :
    exec (.registerWrite req off v .plain) s =
      .next (s.aside req off true (fun t => t.bar4Write req (off - bar4Off) v) fun t => t.cfgWrite req (off - cfgOff) v) := by
  show execRegisterWrite req off v .plain s = _
  unfold execRegisterWrite
  rw [withUnit_ok hreq, if_neg (by decide), if_pos hoff]

theorem exec_read_aside {s : State} {req off : Nat} (hreq : okReq req = true) (hoff : bar4Off ≤ off) :
    exec (.pairLoRead req off .plain) s =
      .next (s.aside req off false (fun t => t.emit (.reg req off (t.bar4View req (off - bar4Off)))) fun t => t.emit (.reg req off (t.cfgView req (off - cfgOff)))) := by
  show execPairLoRead req off .plain s = _
  unfold execPairLoRead
  rw [withUnit_ok hreq, if_neg (by decide), if_pos hoff]

theorem does_noTarget_write {i : Instr} {s : State} {req : Nat} (hexec : exec i s = .next (s.noTarget req true)) :
    Does i s [.host] fun t => t.host = { s.host with aer := s.host.aer + 1 } :=
  .intro hexec (touches_noTarget_write s req) (noTarget_logs s req true).1

theorem does_noTarget_read {i : Instr} {s : State} {req : Nat} (hexec : exec i s = .next (s.noTarget req false)) :
    Does i s [.out, .host] fun t => t.host = { s.host with aer := s.host.aer + 1 } ∧ t.out = .unsupported req :: s.out :=
  .intro hexec (chg_noTarget s _ _).1 ⟨(noTarget_logs s req false).1, (noTarget_logs s req false).2.1⟩

/-- What a command does, weakened. -/
theorem Does.imp {i : Instr} {s : State} {ch : List Fld} {P Q : State → Prop} (h : Does i s ch P) (hPQ : ∀ t, P t → Q t) : Does i s ch Q := by
  obtain ⟨t, hexec, htouch, hP⟩ := h
  exact ⟨t, hexec, htouch, hPQ t hP⟩

theorem bar4_ends {s : State} {req off : Nat} {v : Word} (hreq : req ≤ 64) (hlamp : s.lamp lampPcie = true)
    (hoff : 2 ^ 40 + (if req = 0 then 0x10000 else 0x1000) ≤ off) (hcfg : off < 2 ^ 41) :
    Does (.registerWrite req off v .plain) s [.host] (fun t => t.host = { s.host with aer := s.host.aer + 1 }) ∧
    Does (.pairLoRead req off .plain) s [.out, .host] (fun t => t.out = .unsupported req :: s.out) := by
  have hbeyond : off % 4 ≠ 0 ∨ (off < cfgOff ∧ bar4Off + bar4Size req ≤ off) := .inr ⟨hcfg, hoff⟩
  have hbar : bar4Off ≤ off := by unfold bar4Off; omega
  refine ⟨does_noTarget_write (req := req) ((exec_write_aside v (okReq_pcie hreq) hbar).trans ?_),
    (does_noTarget_read (req := req) ((exec_read_aside (okReq_pcie hreq) hbar).trans ?_)).imp fun _ h => h.2⟩
  · rw [aside_beyond_bar4 hreq hlamp hbeyond]
  · rw [aside_beyond_bar4 hreq hlamp hbeyond]

/-- Nothing at PF0 answers at an offset that does not exist, nor in D3hot. -/
theorem reach_pf0_none {s : State} {off : Nat} (hlamp : s.lamp lampPcie = true) (h : s.targets 0 off = false ∨ s.host.d3.contains 0 = true)
    (isWrite : Bool) (body : State → State) : s.reach 0 off isWrite body = s.noTarget 0 isWrite := by
  have hvf : ¬isVf 0 = true := by decide
  unfold State.reach
  rw [if_neg (by rw [arrives_pcie (by omega) hlamp]; decide)]
  by_cases htgt : s.targets 0 off = true
  · rcases h with h | h
    · rw [htgt] at h; cases h
    · rw [if_pos htgt, if_neg hvf, if_pos ⟨rfl, h⟩]
  · rw [if_neg htgt, if_pos (by omega)]

theorem d3hot_takes_nothing {s : State} {off : Nat} {v : Word} (hlamp : s.lamp lampPcie = true) (hd3 : s.host.d3.contains 0 = true) (htgt : s.targets 0 off = true) :
    Does (.registerWrite 0 off v .plain) s [.host] (fun t => t.host = { s.host with aer := s.host.aer + 1 }) ∧
    Does (.pairLoRead 0 off .plain) s [.out, .host] (fun t => t.out = .unsupported 0 :: s.out) := by
  refine ⟨does_noTarget_write (req := 0) ?_, (does_noTarget_read (req := 0) ?_).imp fun _ h => h.2⟩
  · show execRegisterWrite 0 off v .plain s = _
    unfold execRegisterWrite State.onWrite
    rw [withUnit_ok (by decide), if_neg (by decide), if_neg (targets_lt htgt), reach_pf0_none hlamp (.inr hd3)]
  · show execPairLoRead 0 off .plain s = _
    unfold execPairLoRead State.onRead
    rw [withUnit_ok (by decide), if_neg (by decide), if_neg (targets_lt htgt), reach_pf0_none hlamp (.inr hd3)]

theorem misaligned_takes_nothing {s : State} {off : Nat} {v : Word} (hlamp : s.lamp lampPcie = true) (hoff : off % 4 ≠ 0) :
    Does (.registerWrite 0 off v .plain) s [.host] (fun t => t.host.aer = s.host.aer + 1) ∧
    Does (.readClear 0 off) s [.out, .host] (fun t => t.host.aer = s.host.aer + 1 ∧ t.out = .unsupported 0 :: s.out) := by
  have htgt : s.targets 0 off = false := by
    unfold State.targets
    simp [hoff]
  refine ⟨(does_noTarget_write (req := 0) ?_).imp fun _ h => by rw [h], (does_noTarget_read (req := 0) ?_).imp fun _ h => ⟨by rw [h.1], h.2⟩⟩
  · by_cases hbar : bar4Off ≤ off
    · rw [exec_write_aside v (by decide) hbar, aside_beyond_bar4 (by omega) hlamp (.inl hoff)]
    · show execRegisterWrite 0 off v .plain s = _
      unfold execRegisterWrite State.onWrite
      rw [withUnit_ok (by decide), if_neg (by decide), if_neg hbar, reach_pf0_none hlamp (.inl htgt)]
  · show execReadClear 0 off s = _
    unfold execReadClear State.onRead
    rw [withUnit_ok (by decide), reach_pf0_none hlamp (.inl htgt)]

theorem atVf_refused {s : State} {vf : Nat} (hlamp : s.lamp lampPcie = true) (hexists : s.vfExists vf = true) (hd3 : s.host.d3.contains vf = false)
    (hcover : s.exposed vf = false) (hrefuse : s.vfRefuses vf = true) (isWrite : Bool) (ones : Output) (body : State → State) :
    s.atVf vf isWrite ones body = if isWrite then s.countReg (vfKey vf vfAperr) 1 else (s.countReg (vfKey vf vfAperr) 1).emit ones := by
  unfold State.atVf
  rw [if_neg (by rw [hlamp]; decide), if_neg (by rw [hexists, hd3]; decide), if_neg (by rw [hcover]; decide), if_pos hrefuse]

/-- A function that refuses accesses counts them, and reads as all ones. -/
theorem refusing_function_reads_ones {s : State} {vf off : Nat} {v : Word} (hvf : okVf vf = true) (hlamp : s.lamp lampPcie = true) (htgt : s.targets vf off = true)
    (hd3 : s.host.d3.contains vf = false) (hcover : s.exposed vf = false) (hrefuse : s.vfRefuses vf = true) :
    Does (.pairLoRead vf off .plain) s [.out, .regs] (fun t => t.out = .reg vf off 0xFFFFFFFF :: s.out ∧ RegsBut [vfKey vf vfAperr] s t ∧
      (t.reg (vfKey vf vfAperr)).toNat = min ((s.reg (vfKey vf vfAperr)).toNat + 1) 0xFFFFFFFF) ∧
    Does (.registerWrite vf off v .plain) s [.regs] (fun t => RegsBut [vfKey vf vfAperr] s t) := by
  have hrange : 1 ≤ vf ∧ vf ≤ 64 := by simpa [okVf] using hvf
  have hisVf : isVf vf = true := decide_eq_true hrange
  have hreq := okReq_pcie hrange.2
  have hexists : s.vfExists vf = true := by
    unfold State.targets at htgt
    rw [if_pos hisVf] at htgt
    simp only [Bool.and_eq_true] at htgt
    exact htgt.2.1
  have hreach : ∀ w body, s.reach vf off w body = s.atVf vf w (.reg vf off 0xFFFFFFFF) body := fun w body => by
    unfold State.reach
    rw [if_neg (by rw [arrives_pcie hrange.2 hlamp]; decide), if_pos htgt, if_pos hisVf]
  have hcount : (((s.countReg (vfKey vf vfAperr) 1).emit (.reg vf off 0xFFFFFFFF)).reg (vfKey vf vfAperr)).toNat = min ((s.reg (vfKey vf vfAperr)).toNat + 1) 0xFFFFFFFF := by
    rw [reg_of_regs (State.emit_regs _ _)]
    exact State.toNat_reg_countReg s _ _
  refine ⟨.intro (t := (s.countReg (vfKey vf vfAperr) 1).emit (.reg vf off 0xFFFFFFFF)) ?_
      (Chg.step (chg_emit _ _) (subF_of rfl) ((chg_countReg s _ _).mono (subF_of rfl))).1 ⟨congrArg _ ((chg_countReg s _ _).1.2 .out (by decide)), (regsBut_countReg s _ _).trans (.of_regs (State.emit_regs _ _)), hcount⟩,
    .intro (t := s.countReg (vfKey vf vfAperr) 1) ?_ (chg_countReg s _ _).1 (regsBut_countReg s _ _)⟩
  · show execPairLoRead vf off .plain s = _
    unfold execPairLoRead State.onRead
    rw [withUnit_ok hreq, if_neg (by decide), if_neg (targets_lt htgt), hreach, atVf_refused hlamp hexists hd3 hcover hrefuse]
    rfl
  · show execRegisterWrite vf off v .plain s = _
    unfold execRegisterWrite State.onWrite
    rw [withUnit_ok hreq, if_neg (by decide), if_neg (targets_lt htgt), hreach, atVf_refused hlamp hexists hd3 hcover hrefuse]
    rfl

/-! BAR4 and configuration (R396, R398, R402, R408; log entry 91). -/

theorem maskOf_succ (n : Nat) (f : Nat → Bool) : maskOf (n + 1) f = if f n then maskOf n f + 2 ^ n else maskOf n f := by
  unfold maskOf upTo
  rw [List.range_succ, List.foldl_append]
  rfl

theorem maskOf_lt (n : Nat) (f : Nat → Bool) : maskOf n f < 2 ^ n := by
  induction n with
  | zero => exact Nat.one_pos
  | succ n ih =>
    rw [maskOf_succ, pow_succ]
    split <;> omega

theorem testBit_maskOf (n : Nat) (f : Nat → Bool) (i : Nat) : (maskOf n f).testBit i = (decide (i < n) && f i) := by
  induction n with
  | zero => simp [maskOf, upTo]
  | succ n ih =>
    have hlow : ¬i = n → ((decide (i < n) && f i) = (decide (i < n + 1) && f i)) := fun hi => by simp [show i < n + 1 ↔ i < n by omega]
    rw [maskOf_succ]
    by_cases hn : f n = true
    · rw [if_pos hn, Nat.add_comm, ← Nat.mul_one (2 ^ n), Nat.testBit_two_pow_mul_add _ (maskOf_lt n f), ih]
      by_cases hi : i = n
      · subst hi; simp [hn]
      · by_cases hlt : i < n
        · simp [hlt, show i < n + 1 by omega]
        · have hone : Nat.testBit 1 (i - n) = false := by
            rw [Bool.eq_false_iff, Ne, Nat.testBit_one_eq_true_iff_self_eq_zero]
            omega
          simp [hlt, show ¬i < n + 1 by omega, hone]
    · rw [if_neg hn, ih]
      by_cases hi : i = n
      · subst hi; simp [hn]
      · exact hlow hi

end Sys2Proof.Machine
end

section
namespace Sys2Proof.Machine

/-! Words of BAR4 and of configuration that answer (R396, R398, R402, R408). -/

theorem aside_pf0 {s : State} {off : Nat} (hlamp : s.lamp lampPcie = true) (hd3 : s.host.d3.contains 0 = false) (halign : off % 4 = 0)
    (hin : off < bar4Off + bar4Size 0) (isWrite : Bool) (bar4 cfg : State → State) : s.aside 0 off isWrite bar4 cfg = bar4 s := by
  have hcfg : bar4Off + bar4Size 0 < cfgOff := by decide
  unfold State.aside
  rw [if_neg (by rw [arrives_pcie (by omega) hlamp]; decide), if_neg (by omega), if_neg (by omega), if_neg (by decide), if_neg (by rw [hd3]; decide)]

theorem aside_cfg {s : State} {fn off : Nat} (hfn : fn ≤ 64) (hlamp : s.lamp lampPcie = true) (hexists : fn = 0 ∨ s.vfExists fn = true)
    (hcover : s.exposed fn = false) (halign : off % 4 = 0) (hoff : cfgOff ≤ off) (isWrite : Bool) (bar4 cfg : State → State) :
    s.aside fn off isWrite bar4 cfg = cfg s := by
  have hthere : ¬(fn ≠ 0 ∧ s.vfExists fn = false) := by
    rintro ⟨hne, hnot⟩
    rcases hexists with h | h
    · exact hne h
    · rw [hnot] at h; cases h
  unfold State.aside
  rw [if_neg (by rw [arrives_pcie hfn hlamp]; simp; omega), if_neg, if_pos hoff, if_neg (by rw [hcover, Bool.and_false]; decide)]
  rintro (h | h | h)
  · exact hthere h
  · omega
  · omega

theorem exec_cfgWrite {s : State} {fn off : Nat} (v : Word) (hfn : fn ≤ 64) (hlamp : s.lamp lampPcie = true) (hexists : fn = 0 ∨ s.vfExists fn = true)
    (hcover : s.exposed fn = false) (halign : off % 4 = 0) :
    exec (.registerWrite fn (2 ^ 41 + off) v .plain) s = .next (s.cfgWrite fn off v) := by
  have hoff : cfgOff ≤ 2 ^ 41 + off := Nat.le_add_right _ _
  rw [exec_write_aside v (okReq_pcie hfn) (by unfold bar4Off; omega), aside_cfg hfn hlamp hexists hcover (by omega) hoff]
  exact congrArg (fun o => Host.Outcome.next (s.cfgWrite fn o v)) (Nat.add_sub_cancel_left ..)

/-- A word of the pending-bit array of PF0. -/
theorem bar4View_pending (s : State) {i : Nat} (hi : i < 64) :
    s.bar4View 0 (0x8000 + 4 * i) = BitVec.ofNat 32 (maskOf 32 fun j => s.host.pend.contains (32 * i + j)) := by
  have htable : ¬0x8000 + 4 * i < 16 * vecsOf 0 := by
    unfold vecsOf
    rw [if_pos rfl]
    omega
  have harray : pbaOf 0 ≤ 0x8000 + 4 * i ∧ 0x8000 + 4 * i < pbaOf 0 + vecsOf 0 / 8 := by
    unfold pbaOf vecsOf
    rw [if_pos rfl, if_pos rfl]
    omega
  have hkey : ∀ j, 0 * 4096 + 8 * (0x8000 + 4 * i - pbaOf 0) + j = 32 * i + j := fun j => by
    unfold pbaOf
    rw [if_pos rfl]
    omega
  unfold State.bar4View
  dsimp only
  rw [if_neg htable, if_pos harray]
  simp only [hkey]

theorem shows_pending_bits {s : State} {i : Nat} (hi : i < 64) (hlamp : s.lamp lampPcie = true) (hd3 : s.host.d3.contains 0 = false) :
    Does (.pairLoRead 0 (2 ^ 40 + 0x8000 + 4 * i) .plain) s [.out] fun t =>
      ∃ w : Word, t.out = .reg 0 (2 ^ 40 + 0x8000 + 4 * i) w :: s.out ∧ ∀ j, j < 32 → w.getLsbD j = s.host.pend.contains (32 * i + j) := by
  have hin : 2 ^ 40 + 0x8000 + 4 * i < bar4Off + bar4Size 0 := by
    unfold bar4Off bar4Size
    rw [if_pos rfl]
    omega
  have hexec := exec_read_aside (s := s) (off := 2 ^ 40 + 0x8000 + 4 * i) (okReq_pcie (Nat.zero_le 64)) (by unfold bar4Off; omega)
  rw [aside_pf0 hlamp hd3 (by omega) hin] at hexec
  refine .intro hexec (chg_emit s _).1 ⟨_, rfl, fun j hj => ?_⟩
  rw [show 2 ^ 40 + 0x8000 + 4 * i - bar4Off = 0x8000 + 4 * i by unfold bar4Off; omega, bar4View_pending s hi, BitVec.getLsbD_ofNat, testBit_maskOf]
  simp [hj]

theorem masks_vector {s : State} {vec : Nat} {v : Word} (hvec : vec < 2048) (hlamp : s.lamp lampPcie = true) (hd3 : s.host.d3.contains 0 = false)
    (hmask : v.getLsbD 0 = true) :
    Does (.registerWrite 0 (2 ^ 40 + 16 * vec + 12) v .plain) s [.host] fun t =>
      t.host = { s.host with unmasked := t.host.unmasked } ∧ ∀ k, k ∈ t.host.unmasked ↔ k ∈ s.host.unmasked ∧ k ≠ vec := by
  have hin : 2 ^ 40 + 16 * vec + 12 < bar4Off + bar4Size 0 := by
    unfold bar4Off bar4Size
    rw [if_pos rfl]
    omega
  have hexec := exec_write_aside (s := s) (off := 2 ^ 40 + 16 * vec + 12) v (okReq_pcie (Nat.zero_le 64)) (by unfold bar4Off; omega)
  have hwrite : s.bar4Write 0 (16 * vec + 12) v = s.maskVec 0 vec := by
    have htable : ¬16 * vecsOf 0 ≤ 16 * vec + 12 := by
      unfold vecsOf
      rw [if_pos rfl]
      omega
    unfold State.bar4Write
    dsimp only
    rw [if_neg htable, if_pos (by omega), if_pos hmask, show (16 * vec + 12) / 16 = vec by omega]
  rw [aside_pf0 hlamp hd3 (by omega) hin, show 2 ^ 40 + 16 * vec + 12 - bar4Off = 16 * vec + 12 by unfold bar4Off; omega, hwrite] at hexec
  refine .intro hexec (chg_maskVec s 0 vec).1 ⟨rfl, fun k => ?_⟩
  simp [State.maskVec]

theorem mem_sins {l : List Nat} {k i : Nat} : i ∈ sins l k ↔ i = k ∨ i ∈ l := by
  induction l with
  | nil => simp [sins]
  | cons j l ih =>
    unfold sins
    split
    · simp
    · split
      · next h => subst h; simp
      · rw [List.mem_cons, ih, List.mem_cons]
        tauto

theorem host_foldl_emit {α : Type} (f : α → Output) (l : List α) (s : State) : (l.foldl (fun t k => t.emit (f k)) s).host = s.host := by
  induction l generalizing s with
  | nil => rfl
  | cons a l ih => exact ih _

/-- The power states are D0 and D3hot. -/
theorem sets_power_state {s : State} {fn : Nat} (hfn : fn ≤ 64) (hlamp : s.lamp lampPcie = true) (hexists : fn = 0 ∨ s.vfExists fn = true)
    (hcover : s.exposed fn = false) :
    Does (.registerWrite fn (2 ^ 41) 3 .plain) s [.host] (fun t => t.host.d3.contains fn = true ∧ ∀ k, k ≠ fn → t.host.d3.contains k = s.host.d3.contains k) ∧
    Does (.registerWrite fn (2 ^ 41) 0 .plain) s [.out, .host] (fun t => t.host.d3.contains fn = false ∧ ∀ k, k ≠ fn → t.host.d3.contains k = s.host.d3.contains k) := by
  have hsleep : s.cfgWrite fn 0 3 = { s with host := { s.host with d3 := sins s.host.d3 fn } } := rfl
  have hwake : s.cfgWrite fn 0 0 = s.wakeFn fn := rfl
  have hd3 : (s.wakeFn fn).host.d3 = s.host.d3.filter (· != fn) := by
    unfold State.wakeFn
    dsimp only
    rw [host_foldl_emit]
  refine ⟨.intro ((exec_cfgWrite 3 hfn hlamp hexists hcover (off := 0) rfl).trans (congrArg _ hsleep))
      (.host s _) ⟨?_, fun k hk => ?_⟩,
    .intro ((exec_cfgWrite 0 hfn hlamp hexists hcover (off := 0) rfl).trans (congrArg _ hwake)) (chg_wakeFn s fn).1 ⟨?_, fun k hk => ?_⟩⟩
  · simp [mem_sins]
  · rw [Bool.eq_iff_iff]
    simp [mem_sins, hk]
  · rw [hd3]; simp
  · rw [hd3, Bool.eq_iff_iff]; simp [hk]

theorem sets_bar2_size {s : State} {vf : Nat} {v : Word} (hvf : okVf vf = true) (hlamp : s.lamp lampPcie = true) (hexists : s.vfExists vf = true)
    (hcover : s.exposed vf = false) (hv : v.toNat ≤ 9) :
    Does (.registerWrite vf (2 ^ 41 + 4) v .plain) s [.host] fun t => t.bar2Log vf = 30 + v.toNat ∧ ∀ k, k ≠ vf → t.bar2Log k = s.bar2Log k := by
  have hrange : 1 ≤ vf ∧ vf ≤ 64 := by simpa [okVf] using hvf
  have hset : s.cfgWrite vf 4 v = { s with host := { s.host with bar2 := tput 0 s.host.bar2 vf v.toNat } } := by
    unfold State.cfgWrite
    rw [if_neg (by decide), if_pos (by decide), if_pos ⟨by omega, hv⟩]
  refine .intro ((exec_cfgWrite v hrange.2 hlamp (.inr hexists) hcover (off := 4) rfl).trans (congrArg _ hset))
    (.host s _) ⟨?_, fun k hk => ?_⟩
  · exact congrArg (30 + ·) (tget_tput_self 0 _ vf _)
  · exact congrArg (30 + ·) (tget_tput_ne 0 _ _ hk 0)

end Sys2Proof.Machine
end

section
namespace Sys2Proof.Machine

/-! Pairs (R12). -/

theorem unbound_holds_nothing {s : State} {req off : Nat} {v : Word} (h : Reached s req off) (hbound : s.boundReq req = false) :
    Does (.pairLoWrite req off v) s [] fun t => t = s := by
  have hexec := exec_pairLoWrite h v
  rw [hbound, Bool.and_false, if_neg (by decide)] at hexec
  exact .stays hexec

theorem holds_low_half {s : State} {req off : Nat} {v : Word} (h : Reached s req off) (hpair : isPairLo (regKey req off) = true)
    (hbound : s.boundReq req = true) (hwritable : writablePair req off = true) :
    Does (.pairLoWrite req off v) s [.held] fun t =>
      tfind t.held (heldKey req off) = some v ∧ ∀ k, k ≠ heldKey req off → tfind t.held k = tfind s.held k := by
  have hexec := exec_pairLoWrite h v
  rw [hbound, hpair, hwritable, if_pos (by decide)] at hexec
  exact .intro hexec (.held s _)
    ⟨tfind_tset_self _ _ _, fun k hk => tfind_tset_ne _ _ hk⟩

/-- A requester's held lower half is used up. -/
def State.unhold (s : State) (k : Nat) : State := { s with held := tdel s.held k }

theorem touches_unhold (s : State) (k : Nat) : Touches [.held] s (s.unhold k) := .held s _

theorem unhold_none {s : State} {k : Nat} (h : tfind s.held k = none) : s.unhold k = s := by
  unfold State.unhold
  rw [tdel_none h]

/-- Of a pair that is no doorbell both halves are written, the lower one where it is held. -/
theorem commitPair_eq {s : State} {req off : Nat} (v : Word) (hdoor : isVf req = true → 0x100000 ≤ off) (htdi : tdiReg (off + 4) = none) :
    s.commitPair req (off + 4) v =
      (match tfind s.held (heldKey req off) with
        | some lo => (s.unhold (heldKey req off)).writeOne req off lo
        | none => s.unhold (heldKey req off)).writeOne req (off + 4) v := by
  have hsub : off + 4 - 4 = off := by omega
  have hnot : ¬((isVf req && decide (off + 4 < 0x100000)) = true) := by
    simp only [Bool.and_eq_true, decide_eq_true_eq]
    rintro ⟨hvf, hlt⟩
    have := hdoor hvf
    omega
  unfold State.commitPair
  dsimp only
  rw [if_neg hnot, hsub, htdi]
  rfl

/-! The sweep salt of a partition (R423). -/

theorem inBlk_dig {p o : Nat} (hp : p < 64) (ho : o < 0x400) : inBlk (digBlk p + o) 0x1400000 64 0x400 = some (p, o) :=
  inBlk_eq_some (by unfold digBlk; omega) hp ho

theorem isPairLo_digSalt {p : Nat} (hp : p < 64) : isPairLo (digSalt p) = true := by
  have hown : offIn (digSalt p) 0x1400000 64 0x400 = 0x10 := offIn_eq (inBlk_dig hp (by decide))
  have hbase : digSalt p = 0x1400000 + 0x400 * p + 0x10 := rfl
  unfold isPairLo
  rw [if_pos (by omega), hown]
  simp

/-- The block of a partition's digest unit is its own, with registers of a single access code. -/
theorem regAcc_digSalt {p o : Nat} (hp : p < 64) (ho : o = 0x10 ∨ o = 0x14) : regAcc (digBlk p + o) = { rw := 0xFFFFFFFF } := by
  have hbase : digBlk p = 0x1400000 + 0x400 * p := rfl
  have hown : inBlk (digBlk p + o) 0x1400000 64 0x400 = some (p, o) := inBlk_dig hp (by omega)
  unfold regAcc
  rw [if_neg (by omega), if_neg (by omega), if_neg (by omega), if_neg (by omega), if_neg (by omega), if_neg (by omega), if_neg (by omega),
    if_pos (by omega), hown]
  dsimp only
  rw [if_neg (by omega), if_neg (by omega), if_pos ho]

theorem checked_digSalt (s : State) {p o : Nat} (hp : p < 64) (ho : o = 0x10 ∨ o = 0x14) (v : Word) : s.checked (digBlk p + o) v = some v := by
  have hbase : digBlk p = 0x1400000 + 0x400 * p := rfl
  have hother : ∀ {b n sz}, b + n * sz ≤ 0x1400000 → offIn (digBlk p + o) b n sz = 0xFFFFFFFF := fun hb => offIn_none (inBlk_eq_none (by omega))
  have hown : offIn (digBlk p + o) 0x1400000 64 0x400 = o := offIn_eq (inBlk_dig hp (by omega))
  unfold State.checked
  dsimp only
  rw [if_neg (by unfold pwrLimit; omega), if_neg (by unfold dbgHangcfg; omega), if_neg (by unfold dbgTrctrl; omega),
    hother (by decide), if_neg (by decide), hother (by decide), if_neg (by decide), hown, if_neg (by omega), if_neg (by omega)]

theorem apply_all (locked presence : Bool) (old v : Word) : RegAcc.apply { rw := 0xFFFFFFFF } locked presence old v = v := by
  refine BitVec.eq_of_getLsbD_eq fun i hi => ?_
  have hones : (0xFFFFFFFF : Word).getLsbD i = true := by
    rw [show (0xFFFFFFFF : Word) = BitVec.allOnes 32 from rfl, BitVec.getLsbD_allOnes]
    simp [hi]
  rw [getLsbD_apply_rw _ _ _ _ _ hi, hones, if_pos rfl]

theorem tdiReg_digSalt (p o : Nat) : tdiReg (digBlk p + o) = none := by
  unfold tdiReg
  rw [inBlk_eq_none (by unfold digBlk; omega)]

theorem pfServes_digSalt (s : State) {p o : Nat} (hp : p < 64) (ho : o < 0x400) : s.pfServes (digBlk p + o) = s.lamp (lampDie (s.leadDie p)) := by
  have hbase : digBlk p = 0x1400000 + 0x400 * p := rfl
  have hpart : (digBlk p + o - 0x1400000) / 0x400 % 64 = p := by omega
  unfold State.pfServes State.blockLamp blockDie
  rw [if_neg (by omega), if_neg (by omega), if_neg (by omega), if_neg (by omega), if_neg (by omega), if_neg (by omega), if_neg (by omega),
    if_neg (by omega), if_neg (by omega), if_neg (by omega), if_pos (by omega), hpart]
  rw [if_neg (by omega), if_neg (by omega), if_neg (by omega), if_neg (by omega), if_neg (by omega), if_neg (by omega)]
  exact Bool.and_true _

/-- A write of half of the salt sets it while the lamp of the partition's leading die is lit. -/
theorem writeOne_digSalt {s : State} {p o : Nat} (hp : p < 64) (ho : o = 0x10 ∨ o = 0x14) (hlamp : s.lamp (lampDie (s.leadDie p)) = true) (v : Word) :
    s.writeOne 0 (digBlk p + o) v = s.setReg (digBlk p + o) v := by
  have hserve : s.serves0 0 (digBlk p + o) = true := by
    unfold State.serves0
    rw [if_neg (by decide), pfServes_digSalt s hp (by omega), hlamp]
    rfl
  have hexc : offIn (digBlk p + o) 0x2000000 1632 0x1000 ≠ 0x800 := by
    rw [offIn_none (inBlk_eq_none (by unfold digBlk; omega))]
    decide
  rw [writeOne_pf0 v hserve (tdiReg_digSalt p o) (by unfold digBlk mbxCtrl; omega), writeHeld_of_checked (checked_digSalt s hp ho v) hexc]
  unfold State.written
  rw [regAcc_digSalt hp ho, apply_all]

theorem lamp_digSalt_of_reached {s : State} {p : Nat} (hp : p < 64) (h : Reached s 0 (digSalt p + 4)) : s.lamp (lampDie (s.leadDie p)) = true := by
  have hserve := h.2.2.2.2
  unfold State.serves0 at hserve
  rw [if_neg (by decide), show digSalt p + 4 = digBlk p + 0x14 from rfl, pfServes_digSalt s hp (by decide)] at hserve
  simpa using hserve

/-- The lamps stand in registers of their own. -/
theorem lamp_setReg {s : State} {k : Nat} {v : Word} (h : rimLamps + 4 < k) (i : Nat) : (s.setReg k v).lamp i = s.lamp i := by
  unfold State.lamp
  rw [State.bit_congr (State.reg_setReg_ne s v (show rimLamps ≠ k by omega)), State.bit_congr (State.reg_setReg_ne s v (show rimLamps + 4 ≠ k by omega))]

theorem exec_digSalt {s : State} {p : Nat} (hp : p < 64) (h : Reached s 0 (digSalt p + 4)) (v : Word) :
    exec (.pairHiWrite 0 (digSalt p + 4) v) s = .next (s.commitPair 0 (digSalt p + 4) v) := by
  refine exec_pairHiWrite h ?_ v
  rw [show regKey 0 (digSalt p) = digSalt p from if_neg (by decide), isPairLo_digSalt hp]

theorem commitPair_digSalt (s : State) (p : Nat) (v : Word) :
    s.commitPair 0 (digSalt p + 4) v =
      (match tfind s.held (heldKey 0 (digSalt p)) with
        | some lo => (s.unhold (heldKey 0 (digSalt p))).writeOne 0 (digSalt p) lo
        | none => s.unhold (heldKey 0 (digSalt p))).writeOne 0 (digSalt p + 4) v :=
  commitPair_eq v (fun hvf => absurd hvf (by decide)) (tdiReg_digSalt p 0x14)

theorem rimLamps_lt_digSalt (p : Nat) : rimLamps + 4 < digSalt p := by
  unfold digSalt digBlk rimLamps
  omega

theorem writes_both_salts {s : State} {p : Nat} (hp : p < 64) (hlamp : s.lamp (lampDie (s.leadDie p)) = true) (lo v : Word) :
    (s.writeOne 0 (digSalt p) lo).writeOne 0 (digSalt p + 4) v = (s.setReg (digSalt p) lo).setReg (digSalt p + 4) v := by
  have hlo : s.writeOne 0 (digSalt p) lo = s.setReg (digSalt p) lo := writeOne_digSalt hp (.inl rfl) hlamp lo
  have hlamp' : (s.setReg (digSalt p) lo).lamp (lampDie ((s.setReg (digSalt p) lo).leadDie p)) = true :=
    (lamp_setReg (rimLamps_lt_digSalt p) _).trans hlamp
  rw [hlo]
  exact writeOne_digSalt hp (.inr rfl) hlamp' v

/-- Both halves take effect at the upper one. -/
theorem writes_salt {s : State} {p : Nat} {lo v : Word} (hpart : okPart p = true) (h : Reached s 0 (digSalt p + 4))
    (hheld : tfind s.held (heldKey 0 (digSalt p)) = some lo) :
    Does (.pairHiWrite 0 (digSalt p + 4) v) s [.regs, .held] fun t => t.reg64 (digSalt p) = lo.toNat + v.toNat * 2 ^ 32 ∧
      tfind t.held (heldKey 0 (digSalt p)) = none ∧ RegsBut [digSalt p, digSalt p + 4] s t := by
  have hp : p < 64 := of_decide_eq_true hpart
  have hlamp := lamp_digSalt_of_reached hp h
  have hcommit : s.commitPair 0 (digSalt p + 4) v = ((s.unhold (heldKey 0 (digSalt p))).setReg (digSalt p) lo).setReg (digSalt p + 4) v := by
    rw [commitPair_digSalt, hheld]
    dsimp only
    exact writes_both_salts (s := s.unhold (heldKey 0 (digSalt p))) hp hlamp lo v
  refine .intro ((exec_digSalt hp h v).trans (congrArg _ hcommit)) ?_ ⟨?_, tfind_tdel_self _ _, ?_⟩
  · have hregs := ((chg_setReg (s.unhold (heldKey 0 (digSalt p))) (digSalt p) lo).trans (chg_setReg _ (digSalt p + 4) v)).1
    exact ((touches_unhold s _).mono (subF_of rfl)).trans (hregs.mono (subF_of rfl))
  · unfold State.reg64
    rw [State.reg_setReg_ne _ _ (by omega), State.reg_setReg_self, State.reg_setReg_self]
    omega
  · refine .trans (.of_regs rfl) (.trans ((regsBut_setReg (s.unhold _) _ _).mono (by simp)) ((regsBut_setReg _ _ _).mono (by simp)))

/-- Without a held lower half only the upper half is written. -/
theorem writes_upper_salt {s : State} {p : Nat} {v : Word} (hpart : okPart p = true) (h : Reached s 0 (digSalt p + 4))
    (hheld : tfind s.held (heldKey 0 (digSalt p)) = none) :
    Does (.pairHiWrite 0 (digSalt p + 4) v) s [.regs] fun t => t.reg64 (digSalt p) = (s.reg (digSalt p)).toNat + v.toNat * 2 ^ 32 := by
  have hp : p < 64 := of_decide_eq_true hpart
  have hcommit : s.commitPair 0 (digSalt p + 4) v = s.setReg (digSalt p + 4) v := by
    rw [commitPair_digSalt, hheld]
    dsimp only
    rw [unhold_none hheld]
    exact writeOne_digSalt hp (.inr rfl) (lamp_digSalt_of_reached hp h) v
  refine .intro ((exec_digSalt hp h v).trans (congrArg _ hcommit)) (chg_setReg s _ _).1 ?_
  unfold State.reg64
  rw [State.reg_setReg_ne _ _ (by omega), State.reg_setReg_self]
  omega

end Sys2Proof.Machine
end

section
namespace Sys2Proof.Machine

/-! The aperture base of a virtual function (R403). -/

theorem regKey_vf {vf : Nat} (hvf : okVf vf = true) (off : Nat) : regKey vf off = vfKey vf off := by
  have hrange : 1 ≤ vf ∧ vf ≤ 64 := by simpa [okVf] using hvf
  exact if_pos hrange

theorem isVf_of_okVf {vf : Nat} (hvf : okVf vf = true) : isVf vf = true := by
  have hrange : 1 ≤ vf ∧ vf ≤ 64 := by simpa [okVf] using hvf
  exact decide_eq_true hrange

/-- Offsets of a function's registers lie above those of PF0. -/
theorem vfKey_above {vf off : Nat} (hvf : okVf vf = true) : 2 ^ 32 ≤ vfKey vf off := by
  have hrange : 1 ≤ vf ∧ vf ≤ 64 := by simpa [okVf] using hvf
  unfold vfKey
  omega

theorem isPairLo_vf {vf off : Nat} (hvf : okVf vf = true) (hoff : off < 2 ^ 32) :
    isPairLo (vfKey vf off) = ([vfApbase, vfQring, vfQcpl, vfQjobs, vfRsrc, vfCbase].contains off ||
      (decide (off < 0x100000) && [0, 8, 0x10].contains (off % 0x1000))) := by
  have habove := vfKey_above (off := off) hvf
  have hmod : vfKey vf off % 2 ^ 32 = off := by
    unfold vfKey
    omega
  unfold isPairLo
  rw [if_neg (by omega), hmod]

theorem regAcc_apbase {vf : Nat} (hvf : okVf vf = true) :
    regAcc (vfKey vf vfApbase) = { rw := 0xC0000000 } ∧ regAcc (vfKey vf vfApbase + 4) = { rw := 0x3FF } := by
  have habove := vfKey_above (off := vfApbase) hvf
  have hmod : vfKey vf vfApbase % 2 ^ 32 = vfApbase ∧ (vfKey vf vfApbase + 4) % 2 ^ 32 = vfApbase + 4 := by
    unfold vfKey vfApbase
    omega
  constructor
  · unfold regAcc
    rw [if_neg (by omega), if_neg (by omega), if_neg (by omega), if_neg (by omega), if_neg (by omega), if_neg (by omega), if_neg (by omega),
      if_neg (by omega), if_neg (by omega), if_neg (by omega), hmod.1]
    rfl
  · unfold regAcc
    rw [if_neg (by omega), if_neg (by omega), if_neg (by omega), if_neg (by omega), if_neg (by omega), if_neg (by omega), if_neg (by omega),
      if_neg (by omega), if_neg (by omega), if_neg (by omega), hmod.2]
    rfl

/-- Registers of functions have no rule but their access codes. -/
theorem checked_above {s : State} {k : Nat} (hk : 2 ^ 32 ≤ k) (v : Word) : s.checked k v = some v := by
  have hother : ∀ {b n sz}, b + n * sz ≤ 2 ^ 32 → offIn k b n sz = 0xFFFFFFFF := fun hb => offIn_none (inBlk_eq_none (by omega))
  unfold State.checked
  dsimp only
  rw [if_neg (by unfold pwrLimit; omega), if_neg (by unfold dbgHangcfg; omega), if_neg (by unfold dbgTrctrl; omega),
    hother (by decide), if_neg (by decide), hother (by decide), if_neg (by decide), hother (by decide), if_neg (by decide), if_neg (by decide)]

theorem writeHeld_above {s : State} {k : Nat} (hk : 2 ^ 32 ≤ k) (v : Word) : s.writeHeld k v = s.setReg k (s.written k v) := by
  refine writeHeld_of_checked (checked_above hk v) ?_
  rw [offIn_none (inBlk_eq_none (by omega))]
  decide

/-- What a write of half of VF_APBASE leaves in it: bits below BAR2's size stay. -/
def State.apWritten (s : State) (vf off : Nat) (v : Word) : Word :=
  let m : Word := BitVec.ofNat 32 (if off = vfApbase then 2 ^ s.bar2Log vf - 1 else (2 ^ s.bar2Log vf - 1) / 2 ^ 32)
  s.written (vfKey vf off) ((v &&& ~~~m) ||| (s.reg (vfKey vf off) &&& m))

/-- Which bits of a half BAR2's size leaves to writes, of those that the register has. -/
theorem getLsbD_keepLow {m : Word} {old v : Word} {i : Nat} (hi : i < 32) :
    ((v &&& ~~~m) ||| (old &&& m)).getLsbD i = if m.getLsbD i then old.getLsbD i else v.getLsbD i := by
  rw [BitVec.getLsbD_or, BitVec.getLsbD_and, BitVec.getLsbD_and, BitVec.getLsbD_not]
  cases m.getLsbD i <;> simp [hi]

theorem getLsbD_apWritten_lo {s : State} {vf : Nat} (hvf : okVf vf = true) (v : Word) {i : Nat} (hi : i < 32) :
    (s.apWritten vf vfApbase v).getLsbD i = if s.bar2Log vf ≤ i then v.getLsbD i else (s.reg (vfKey vf vfApbase)).getLsbD i := by
  have hlog : 30 ≤ s.bar2Log vf := Nat.le_add_right _ _
  have hcode : (0xC0000000 : Word).getLsbD i = decide (30 ≤ i) := by
    rw [show (0xC0000000 : Word) = BitVec.allOnes 32 <<< 30 from rfl, BitVec.getLsbD_shiftLeft, BitVec.getLsbD_allOnes]
    by_cases h : i < 30
    · simp [h, show ¬30 ≤ i by omega]
    · simp [h, hi, show 30 ≤ i by omega, show i - 30 < 32 by omega]
  unfold State.apWritten State.written
  dsimp only
  rw [if_pos rfl, (regAcc_apbase hvf).1, getLsbD_apply_rw _ _ _ _ _ hi, getLsbD_keepLow hi, hcode, BitVec.getLsbD_ofNat, Nat.testBit_two_pow_sub_one]
  by_cases h : s.bar2Log vf ≤ i
  · simp [h, show 30 ≤ i by omega, show ¬i < s.bar2Log vf by omega]
  · simp [h, show i < s.bar2Log vf by omega, hi]

theorem getLsbD_apWritten_hi {s : State} {vf : Nat} (hvf : okVf vf = true) (v : Word) {i : Nat} (hi : i < 32) :
    (s.apWritten vf (vfApbase + 4) v).getLsbD i =
      if s.bar2Log vf ≤ 32 + i ∧ i < 10 then v.getLsbD i else (s.reg (vfKey vf vfApbase + 4)).getLsbD i := by
  have hcode : (0x3FF : Word).getLsbD i = decide (i < 10) := by
    rw [show (0x3FF : Word) = BitVec.ofNat 32 (2 ^ 10 - 1) from rfl, BitVec.getLsbD_ofNat, Nat.testBit_two_pow_sub_one]
    simp [hi]
  have hkey : vfKey vf (vfApbase + 4) = vfKey vf vfApbase + 4 := rfl
  unfold State.apWritten State.written
  dsimp only
  rw [if_neg (by decide), hkey, (regAcc_apbase hvf).2, getLsbD_apply_rw _ _ _ _ _ hi, getLsbD_keepLow hi, hcode, BitVec.getLsbD_ofNat,
    Nat.testBit_div_two_pow, Nat.testBit_two_pow_sub_one]
  by_cases h : s.bar2Log vf ≤ 32 + i
  · simp [h, show ¬i + 32 < s.bar2Log vf by omega]
  · simp [h, show i + 32 < s.bar2Log vf by omega, hi]

theorem testBit_reg64 (s : State) (k i : Nat) : (s.reg64 k).testBit i = if i < 32 then (s.reg k).getLsbD i else (s.reg (k + 4)).getLsbD (i - 32) := by
  unfold State.reg64
  rw [Nat.add_comm, Nat.testBit_two_pow_mul_add _ (s.reg k).isLt]
  rfl

/-- What both halves leave of the whole register. -/
theorem testBit_apbase {s u t : State} {vf : Nat} {lo v : Word} (hvf : okVf vf = true) (hlo : t.reg (vfKey vf vfApbase) = s.apWritten vf vfApbase lo)
    (hhi : t.reg (vfKey vf vfApbase + 4) = u.apWritten vf (vfApbase + 4) v) (hlog : u.bar2Log vf = s.bar2Log vf)
    (hrest : u.reg (vfKey vf vfApbase + 4) = s.reg (vfKey vf vfApbase + 4)) (i : Nat) :
    (t.reg64 (vfKey vf vfApbase)).testBit i =
      if s.bar2Log vf ≤ i ∧ i < 42 then (lo.toNat + v.toNat * 2 ^ 32).testBit i else (s.reg64 (vfKey vf vfApbase)).testBit i := by
  have hwhole : (lo.toNat + v.toNat * 2 ^ 32).testBit i = if i < 32 then lo.getLsbD i else v.getLsbD (i - 32) := by
    rw [Nat.add_comm, Nat.mul_comm, Nat.testBit_two_pow_mul_add _ lo.isLt]
    rfl
  rw [testBit_reg64, testBit_reg64, hwhole, hlo, hhi]
  by_cases hi : i < 32
  · simp only [hi, if_true]
    rw [getLsbD_apWritten_lo hvf lo hi]
    simp [show i < 42 by omega]
  · simp only [hi, if_false]
    by_cases hi' : i - 32 < 32
    · rw [getLsbD_apWritten_hi hvf v hi', hlog, hrest, show 32 + (i - 32) = i by omega]
      simp [show i - 32 < 10 ↔ i < 42 by omega]
    · rw [BitVec.getLsbD_of_ge _ _ (by omega), BitVec.getLsbD_of_ge v _ (by omega), BitVec.getLsbD_of_ge _ _ (by omega), ite_self]

theorem writeOne_apbase {s : State} {vf p off : Nat} (hvf : okVf vf = true) (hpart : s.vfPart vf = some p) (hoff : off = vfApbase ∨ off = vfApbase + 4) (v : Word) :
    s.writeOne vf off v = s.setReg (vfKey vf off) (s.apWritten vf off v) := by
  have hserve : s.serves0 vf off = true := by
    unfold State.serves0
    rw [if_pos (isVf_of_okVf hvf)]
  unfold State.writeOne State.vfWrite
  rw [if_pos hserve, if_pos (isVf_of_okVf hvf), if_neg (by rw [hpart]; simp), if_neg (by unfold vfQring; unfold vfApbase at hoff; omega), if_pos hoff]
  unfold State.apWrite
  exact writeHeld_above (vfKey_above hvf) _

theorem testBit_align (x L i : Nat) : (x % 2 ^ 42 / 2 ^ L * 2 ^ L).testBit i = (decide (L ≤ i ∧ i < 42) && x.testBit i) := by
  rw [Nat.testBit_mul_two_pow, Nat.testBit_div_two_pow, Nat.testBit_mod_two_pow]
  by_cases h : L ≤ i
  · simp [h, show i - L + L = i by omega]
  · simp [h]

theorem bar2Log_setReg (s : State) (k : Nat) (v : Word) (vf : Nat) : (s.setReg k v).bar2Log vf = s.bar2Log vf := rfl
theorem vfPart_setReg (s : State) (k : Nat) (v : Word) (vf : Nat) : (s.setReg k v).vfPart vf = s.vfPart vf := rfl
theorem bar2Log_unhold (s : State) (k vf : Nat) : (s.unhold k).bar2Log vf = s.bar2Log vf := rfl
theorem vfPart_unhold (s : State) (k vf : Nat) : (s.unhold k).vfPart vf = s.vfPart vf := rfl
theorem reg_unhold (s : State) (k i : Nat) : (s.unhold k).reg i = s.reg i := rfl

/-- Both halves of the aperture base are written, the lower one first. -/
def State.apBoth (s : State) (vf : Nat) (lo v : Word) : State :=
  let u := s.setReg (vfKey vf vfApbase) (s.apWritten vf vfApbase lo)
  u.setReg (vfKey vf vfApbase + 4) (u.apWritten vf (vfApbase + 4) v)

theorem writes_both_apbase {s : State} {vf p : Nat} (hvf : okVf vf = true) (hpart : s.vfPart vf = some p) (lo v : Word) :
    (s.writeOne vf vfApbase lo).writeOne vf (vfApbase + 4) v = s.apBoth vf lo v := by
  rw [writeOne_apbase hvf hpart (.inl rfl), writeOne_apbase (p := p) hvf ((vfPart_setReg ..).trans hpart) (.inr rfl)]
  rfl

theorem regsBut_apBoth (s : State) (vf : Nat) (lo v : Word) : RegsBut [vfKey vf vfApbase, vfKey vf vfApbase + 4] s (s.apBoth vf lo v) :=
  .trans ((regsBut_setReg s _ _).mono (by simp)) ((regsBut_setReg _ _ _).mono (by simp))

theorem chg_apBoth (s : State) (vf : Nat) (lo v : Word) : Chg [.regs] s (s.apBoth vf lo v) := (chg_setReg s _ _).trans (chg_setReg _ _ _)

theorem testBit_apBoth {s : State} {vf : Nat} (hvf : okVf vf = true) (lo v : Word) (i : Nat) :
    ((s.apBoth vf lo v).reg64 (vfKey vf vfApbase)).testBit i =
      if s.bar2Log vf ≤ i ∧ i < 42 then (lo.toNat + v.toNat * 2 ^ 32).testBit i else (s.reg64 (vfKey vf vfApbase)).testBit i := by
  have hne : vfKey vf vfApbase ≠ vfKey vf vfApbase + 4 := by omega
  refine testBit_apbase hvf ?_ (State.reg_setReg_self _ _ _) (bar2Log_setReg ..) (State.reg_setReg_ne _ _ hne.symm) i
  rw [State.reg_setReg_ne _ _ hne, State.reg_setReg_self]

theorem bar2Log_apBoth (s : State) (vf : Nat) (lo v : Word) (i : Nat) : (s.apBoth vf lo v).bar2Log i = s.bar2Log i := by
  unfold State.apBoth
  dsimp only
  rw [bar2Log_setReg, bar2Log_setReg]

theorem writes_apbase {s : State} {vf p : Nat} {lo v : Word} (hvf : okVf vf = true) (h : Reached s vf (vfApbase + 4)) (hpart : s.vfPart vf = some p)
    (hheld : tfind s.held (heldKey vf vfApbase) = some lo) :
    Does (.pairHiWrite vf (vfApbase + 4) v) s [.regs, .held] fun t => RegsBut [vfKey vf vfApbase, vfKey vf vfApbase + 4] s t ∧
      t.reg64 (vfKey vf vfApbase) % 2 ^ s.bar2Log vf = s.reg64 (vfKey vf vfApbase) % 2 ^ s.bar2Log vf ∧
      t.apBase vf = (lo.toNat + v.toNat * 2 ^ 32) % 2 ^ 42 / 2 ^ s.bar2Log vf * 2 ^ s.bar2Log vf := by
  have hpair : isPairLo (regKey vf vfApbase) = true := by
    rw [regKey_vf hvf, isPairLo_vf hvf (by decide)]
    decide
  have hcommit : s.commitPair vf (vfApbase + 4) v = (s.unhold (heldKey vf vfApbase)).apBoth vf lo v := by
    rw [commitPair_eq v (fun _ => by decide) (by decide), hheld]
    exact writes_both_apbase hvf ((vfPart_unhold ..).trans hpart) lo v
  have hexec := (exec_pairHiWrite h hpair v).trans (congrArg _ hcommit)
  have htouch := touches_unhold s (heldKey vf vfApbase)
  have hlog := bar2Log_unhold s (heldKey vf vfApbase) vf
  have hregs : RegsBut [] s (s.unhold (heldKey vf vfApbase)) := .of_regs rfl
  have hreg64 : (s.unhold (heldKey vf vfApbase)).reg64 (vfKey vf vfApbase) = s.reg64 (vfKey vf vfApbase) := State.reg64_congr (reg_unhold ..) (reg_unhold ..)
  generalize s.unhold (heldKey vf vfApbase) = u at *
  have hbits := testBit_apBoth (s := u) hvf lo v
  rw [hlog, hreg64] at hbits
  refine .intro hexec ((htouch.mono (subF_of rfl)).trans ((chg_apBoth u vf lo v).1.mono (subF_of rfl)))
    ⟨(hregs.mono (by simp)).trans (regsBut_apBoth u vf lo v), ?_, ?_⟩
  · refine Nat.eq_of_testBit_eq fun i => ?_
    rw [Nat.testBit_mod_two_pow, Nat.testBit_mod_two_pow, hbits i]
    by_cases hi : i < s.bar2Log vf
    · simp [show ¬s.bar2Log vf ≤ i by omega]
    · simp [hi]
  · refine Nat.eq_of_testBit_eq fun i => ?_
    unfold State.apBase
    rw [bar2Log_apBoth, hlog, testBit_align, testBit_align, hbits i]
    by_cases hi : s.bar2Log vf ≤ i ∧ i < 42
    · simp [hi]
    · simp [hi]

/-! Doorbells (R295). -/

/-- Only since when a queue has wanted a watch differs. -/
theorem queueBut_want (q : Queue) (w : Option Nat) : QueueBut q { q with want := w } := rfl

/-- What is noted of a partition's queues is since when they want a watch. -/
theorem queueBut_noteWants (s : State) (p j : Nat) : QueueBut (s.queue j) ((s.noteWants p).queue j) := by
  have hset : ∀ (t : State) k w i, QueueBut (t.queue i) ((t.setQueue k { t.queue k with want := w }).queue i) := fun t k w i => by
    by_cases hi : i = k
    · subst hi
      rw [State.queue_setQueue_self]
      rfl
    · rw [State.queue_setQueue_ne _ _ hi]
      rfl
  have hstep : ∀ (t : State) k i, QueueBut (t.queue i) ((
      let q := t.queue k
      if t.wantsWatch k && q.watch == none then (if q.want = none then t.setQueue k { q with want := some (2 * t.wantsSince k) } else t)
      else if q.want = none ∨ (t.killing k = true ∧ q.watch = none) then t
      else t.setQueue k { q with want := none } : State).queue i) := fun t k i => by
    dsimp only
    repeat' split
    · exact hset t k _ i
    · rfl
    · rfl
    · exact hset t k _ i
  unfold State.noteWants
  generalize tkeys (s.queues.filter fun e => e.1 / 256 == p) = ks
  induction ks generalizing s with
  | nil => rfl
  | cons k ks ih => exact (ih _).trans (hstep s k j)

theorem doorbellHi_eq {s : State} {vf off p q : Nat} (hpart : s.vfPart vf = some p) (hoff : off / 4096 = q)
    (hopen : q < (s.ent p).nqueue ∧ s.partUp p = true) (lo v : Word) :
    s.doorbellHi vf off (some lo) v = (s.doorbell (qkey p q) (lo.toNat + v.toNat * 2 ^ 32)).noteWants p := by
  subst hoff
  unfold State.doorbellHi
  rw [hpart]
  exact if_pos hopen

theorem rings_doorbell {s : State} {vf p q : Nat} {lo v : Word} {x : Queue} {n : Nat} (hvf : okVf vf = true) (h : Reached s vf (4096 * q + 4))
    (hpart : s.vfPart vf = some p) (hq : q < (s.ent p).nqueue) (hq256 : q < 256) (hup : s.partUp p = true)
    (hheld : tfind s.held (heldKey vf (4096 * q)) = some lo) (hx : x = s.queue (qkey p q)) (hn : n = lo.toNat + v.toNat * 2 ^ 32)
    (henable : qcEnable x.cfg = true) (hhalt : x.halted = false) (hreset : x.resetting = false) (hnew : x.tail < n) (hroom : n ≤ x.done + x.size) (hlt : n < 2 ^ 48) :
    Does (.pairHiWrite vf (4096 * q + 4) v) s [.held, .queues] fun t =>
      OneQueue s t (qkey p q) { x with tail := n } ∧ tfind t.held (heldKey vf (4096 * q)) = none := by
  have hpair : isPairLo (regKey vf (4096 * q)) = true := by
    rw [regKey_vf hvf, isPairLo_vf hvf (by omega), show 4096 * q % 0x1000 = 0 by omega]
    simp [show 4096 * q < 0x100000 by omega]
  have hring : (s.unhold (heldKey vf (4096 * q))).doorbell (qkey p q) n = (s.unhold (heldKey vf (4096 * q))).setQueue (qkey p q) { x with tail := n } := by
    have hqueue : (s.unhold (heldKey vf (4096 * q))).queue (qkey p q) = x := hx.symm
    unfold State.doorbell
    dsimp only
    rw [hqueue, henable, hhalt, hreset, if_neg (by simp; omega), if_neg (by omega)]
  have hcommit : s.commitPair vf (4096 * q + 4) v = ((s.unhold (heldKey vf (4096 * q))).setQueue (qkey p q) { x with tail := n }).noteWants p := by
    have hserve : (s.unhold (heldKey vf (4096 * q))).serves0 vf (4096 * q + 4) = true := by
      unfold State.serves0
      rw [if_pos (isVf_of_okVf hvf)]
    have hpart' : (s.unhold (heldKey vf (4096 * q))).vfPart vf = some p := hpart
    have hopen : q < ((s.unhold (heldKey vf (4096 * q))).ent p).nqueue ∧ (s.unhold (heldKey vf (4096 * q))).partUp p = true := ⟨hq, hup⟩
    unfold State.commitPair
    dsimp only
    rw [if_pos (by rw [isVf_of_okVf hvf]; simp; omega), show 4096 * q + 4 - 4 = 4096 * q by omega, hheld]
    refine (if_pos ⟨by omega, hserve⟩).trans ?_
    rw [← hring, hn]
    exact doorbellHi_eq hpart' (by omega) hopen lo v
  refine .intro ((exec_pairHiWrite h hpair v).trans (congrArg _ hcommit)) ?_ ⟨⟨?_, fun j hj => ?_⟩, ?_⟩
  · exact ((touches_unhold s _).mono (subF_of rfl)).trans (((chg_setQueue _ _ _).trans (chg_noteWants _ p)).1.mono (subF_of rfl))
  · have := queueBut_noteWants ((s.unhold (heldKey vf (4096 * q))).setQueue (qkey p q) { x with tail := n }) p (qkey p q)
    rwa [State.queue_setQueue_self] at this
  · have := queueBut_noteWants ((s.unhold (heldKey vf (4096 * q))).setQueue (qkey p q) { x with tail := n }) p j
    rwa [State.queue_setQueue_ne _ _ hj] at this
  · rw [show (((s.unhold (heldKey vf (4096 * q))).setQueue (qkey p q) { x with tail := n }).noteWants p).held =
      ((s.unhold (heldKey vf (4096 * q))).setQueue (qkey p q) { x with tail := n }).held from (chg_noteWants _ p).1.2 .held (by decide)]
    exact tfind_tdel_self _ _

/-! Assembled. -/

theorem registersKeepTheirCodes : RegistersKeepTheirCodes :=
  ⟨fun _ _ _ h hlo => reads_low_half h hlo,
    fun _ _ _ h hhi hlo => reads_high_half h hhi hlo,
    fun _ _ _ h hlo hhi hrc => reads_single h hlo hhi hrc,
    fun _ _ _ h hbound hrc => reads_and_clears h hbound hrc,
    fun _ _ _ _ h hlo hhi htdi hmbx hexc hw => writes_by_codes h hlo hhi htdi hmbx hexc hw,
    fun _ _ _ h hlo hhi hw htdi hmbx => ignores_broken_rule h hlo hhi hw htdi hmbx,
    fun _ _ _ hpart h hlocked => keeps_locked_domain hpart h hlocked,
    fun _ _ _ hpart h hopen => writes_domain hpart h hopen,
    fun _ _ h hgo => ⟨go_starts h hgo, go_is_lost h hgo⟩,
    fun _ _ _ _ hreq harr htgt htake hdark => ignores_dark_block hreq harr htgt htake hdark,
    fun _ _ _ hreq hoff => serves0_others hreq hoff,
    fun _ _ _ _ _ hreq hpcie harr hcover hk => refuses_bad_requests hreq hpcie harr hcover hk,
    fun _ _ _ _ hreq hpcie harr hcover => drops_poisoned_write hreq hpcie harr hcover,
    fun _ _ _ _ _ hvf hlamp hexp hpart _ hi => uncovered_interface_errs hvf hlamp hexp hpart hi,
    fun _ _ _ _ hreq hlamp hoff hcfg => bar4_ends hreq hlamp hoff hcfg,
    fun _ _ _ hlamp hd3 htgt => d3hot_takes_nothing hlamp hd3 htgt,
    fun _ _ _ _ hvf hlamp htgt hd3 hcover hrefuse => refusing_function_reads_ones hvf hlamp htgt hd3 hcover hrefuse,
    fun _ _ hi hlamp hd3 => shows_pending_bits hi hlamp hd3,
    fun _ _ _ hvec hlamp hd3 hmask => masks_vector hvec hlamp hd3 hmask,
    fun _ _ hfn hlamp hexists hcover => sets_power_state hfn hlamp hexists hcover,
    fun _ _ _ hvf hlamp hexists hcover hv => sets_bar2_size hvf hlamp hexists hcover hv,
    fun _ _ _ hlamp hoff => misaligned_takes_nothing hlamp hoff,
    fun _ _ _ _ h _ hbound => unbound_holds_nothing h hbound,
    fun _ _ _ _ _ hvf h hpart hheld _ => writes_apbase hvf h hpart hheld,
    fun _ _ _ _ h hpair hbound hwritable => holds_low_half h hpair hbound hwritable,
    fun _ _ _ _ hpart h hheld => writes_salt hpart h hheld,
    fun _ _ _ hpart h hheld => writes_upper_salt hpart h hheld,
    fun _ _ _ _ _ _ _ _ hvf h hpart hq hq256 hup hheld hx hn henable hhalt hreset hnew hroom hlt =>
      rings_doorbell hvf h hpart hq hq256 hup hheld hx hn henable hhalt hreset hnew hroom hlt⟩

/-- Settles O60, by the rules of the logbook and one lemma for each rule of a register access. -/
theorem logbookAndRegistersKeepTheirRules : Obligations.LogbookAndRegistersKeepTheirRules := ⟨logbookFillsItsSlots, registersKeepTheirCodes⟩

end Sys2Proof.Machine
end

section
namespace Sys2Proof.Machine

/-! A partition's reset begins and ends (R22, R410, R491, R492, R495). -/

theorem pfStores_of_stored {s : State} {off : Nat} (h : Stored s off) (body : State → State) : s.pfStores off body = body s := by
  obtain ⟨hlamp, hd3, hserve⟩ := h
  unfold State.pfStores
  rw [if_neg (by rw [hlamp]; decide), if_neg (by rw [hd3]; decide), if_pos hserve]

theorem exec_partRstWrite {s : State} {p : Nat} (hpart : okPart p = true) (h : Stored s (partRst p)) :
    exec (.partRstWrite p) s = .next (s.beginReset p trRequest) := by
  show execPartRstWrite p s = _
  unfold execPartRstWrite
  rw [withUnit_ok hpart, pfStores_of_stored h]

/-- The bits of a reset that begins, on a state whose partition has noted it. -/
def State.resetBits (s : State) (p : Nat) : State := ((s.setBit (partRst p) 0 true).setBit (partStat p) 1 true).setBit (partStat p) 0 false

theorem partRst_ne_partStat (p : Nat) : partRst p ≠ partStat p := by
  unfold partRst partStat
  omega

theorem resetBits_bits (s : State) (p : Nat) :
    (s.resetBits p).bit (partRst p) 0 = true ∧ (s.resetBits p).bit (partStat p) 1 = true ∧ (s.resetBits p).bit (partStat p) 0 = false := by
  unfold State.resetBits
  refine ⟨?_, ?_, State.bit_setBit_self _ (by decide)⟩
  · rw [State.bit_congr (State.reg_setBit_ne _ (partRst_ne_partStat p)), State.bit_congr (State.reg_setBit_ne _ (partRst_ne_partStat p)),
      State.bit_setBit_self _ (by decide)]
  · rw [State.bit_setBit_ne _ (by decide) (by decide), State.bit_setBit_self _ (by decide)]

theorem regsBut_resetBits (s : State) (p : Nat) : RegsBut [partRst p, partStat p] s (s.resetBits p) :=
  ((regsBut_setBit s _ _ _).mono (by simp)).trans (((regsBut_setBit _ _ _ _).mono (by simp)).trans ((regsBut_setBit _ _ _ _).mono (by simp)))

theorem chg_resetBits (s : State) (p : Nat) : Chg [.regs] s (s.resetBits p) :=
  ((chg_setBit s _ _ _).trans (chg_setBit _ _ _ _)).trans (chg_setBit _ _ _ _)

/-- No register of a partition counts the records that the logbook drops. -/
theorem partBlk_ne_logDrop (p o : Nat) : partBlk p + o ≠ logDrop := by
  unfold partBlk logDrop
  omega

/-- The state of which the logbook is then told. -/
def State.resetBegun (s : State) (p : Nat) : State :=
  ((s.modPart p fun y => { y with reset := 1, resetGt := s.now, tdi := if y.tdi = 1 ∨ y.tdi = 2 then 3 else y.tdi }).resetBits p).partIrq p

theorem beginReset_eq {s : State} {p : Nat} (hvalid : s.valid p = true) (hidle : (s.part p).reset = 0) (trigger : Nat) :
    ∃ pay, s.beginReset p trigger = (s.resetBegun p).logRaise sevNotice (some p) (engFe (s.leadDie p)) 0x11 pay := ⟨_, if_pos ⟨hvalid, hidle⟩⟩

theorem part_resetBegun (s : State) (p : Nat) :
    (s.resetBegun p).part p = { s.part p with reset := 1, resetGt := s.now, tdi := if (s.part p).tdi = 1 ∨ (s.part p).tdi = 2 then 3 else (s.part p).tdi } :=
  ((chg_partIrq _ p).1.part_eq (by decide) p).trans (((chg_resetBits _ p).1.part_eq (by decide) p).trans
    (State.part_modPart_self s p fun y => { y with reset := 1, resetGt := s.now, tdi := if y.tdi = 1 ∨ y.tdi = 2 then 3 else y.tdi }))

theorem begins_once {s : State} {p : Nat} (hpart : okPart p = true) (h : Stored s (partRst p)) (hvalid : s.valid p = true) (hidle : (s.part p).reset = 0) :
    Does (.partRstWrite p) s [.out, .regs, .parts, .host, .log] fun t => (t.part p).reset = 1 ∧ t.bit (partRst p) 0 = true ∧ t.bit (partStat p) 1 = true ∧
      t.bit (partStat p) 0 = false ∧ (t.part p).tdi = (if (s.part p).tdi = 1 ∨ (s.part p).tdi = 2 then 3 else (s.part p).tdi) ∧
      RegsBut [partRst p, partStat p, logDrop] s t := by
  refine .intro (exec_partRstWrite hpart h) (chg_beginReset s p trRequest).1 ?_
  obtain ⟨pay, hbegin⟩ := beginReset_eq hvalid hidle trRequest
  have hlog := regsBut_logRaise (s.resetBegun p) sevNotice (some p) (engFe (s.leadDie p)) 0x11 pay
  have hpartEq := ((chg_logRaise (s.resetBegun p) sevNotice (some p) (engFe (s.leadDie p)) 0x11 pay).1.part_eq (by decide) p).trans (part_resetBegun s p)
  rw [← hbegin] at hlog hpartEq
  have hbegun : ∀ k, (s.resetBegun p).reg k =
      ((s.modPart p fun y => { y with reset := 1, resetGt := s.now, tdi := if y.tdi = 1 ∨ y.tdi = 2 then 3 else y.tdi }).resetBits p).reg k :=
    (chg_partIrq _ p).1.reg_eq (by decide)
  have hreg := fun k (hk : k ≠ logDrop) => (hlog k (by simpa using hk)).trans (hbegun k)
  obtain ⟨hrst, hstat1, hstat0⟩ :=
    resetBits_bits (s.modPart p fun y => { y with reset := 1, resetGt := s.now, tdi := if y.tdi = 1 ∨ y.tdi = 2 then 3 else y.tdi }) p
  have hrstKey : partRst p ≠ logDrop := partBlk_ne_logDrop p 0
  have hstatKey : partStat p ≠ logDrop := partBlk_ne_logDrop p 4
  refine ⟨by rw [hpartEq], ?_, ?_, ?_, by rw [hpartEq], fun k hk => ?_⟩
  · rw [State.bit_congr (hreg _ hrstKey), hrst]
  · rw [State.bit_congr (hreg _ hstatKey), hstat1]
  · rw [State.bit_congr (hreg _ hstatKey), hstat0]
  · simp only [List.mem_cons, List.not_mem_nil, or_false, not_or] at hk
    obtain ⟨h0, h1, h2⟩ := hk
    exact (hreg k h2).trans (regsBut_resetBits _ p k (by simp [h0, h1]))

theorem joins_reset {s : State} {p : Nat} (hpart : okPart p = true) (h : Stored s (partRst p)) (hbusy : (s.part p).reset ≠ 0) :
    Does (.partRstWrite p) s [] fun t => t = s := by
  have hstay : s.beginReset p trRequest = s := if_neg fun hc => hbusy hc.2
  exact .stays ((exec_partRstWrite hpart h).trans (congrArg _ hstay))

theorem remote_done_waits {s : State} {p : Nat} (hpart : okPart p = true) (hold : s.oldRequests p = true) :
    Does (.partResetRemoteDone p) s [] fun t => t = s := by
  refine .stays ?_
  show execPartResetRemoteDone p s = _
  unfold execPartResetRemoteDone
  rw [withUnit_ok hpart, if_neg]
  rintro ⟨_, h⟩
  rw [hold] at h
  cases h

end Sys2Proof.Machine
end

section
namespace Sys2Proof.Machine

/-- What a reset leaves of a partition's record: its TDI, its locked tables and what the reset itself goes by. -/
def Part.cleared (y : Part) : Part :=
  { tdi := y.tdi, locked := y.locked, lockRoot := y.lockRoot, reset := y.reset, resetGt := y.resetGt, rekey := y.rekey, staged := y.staged,
    activating := y.activating, modelDue := y.modelDue }

/-! The state of R495 is cleared. -/

theorem reg_resetRegs (s : State) (f : Nat → Bool) (k : Nat) : (s.resetRegs f).reg k = if f k then regReset k else s.reg k := by
  unfold State.reg State.resetRegs tget
  dsimp only
  rw [tfind_filter fun j => !f j]
  cases f k <;> rfl

/-- The state before the registers of a partition are put back. -/
def State.clearUnits (s : State) (p : Nat) : State :=
  ({ s with
    queues := s.queues.filter fun e => e.1 / 256 != p
    cores := s.cores.map fun (e : Nat × Core) => if (s.partCores p).contains e.1 then (e.1, { e.2 with l1 := [] }) else e } : State).modPart p Part.cleared

/-- What follows in it changes registers of the partition, and preloads. -/
theorem clearPart_after (s : State) (p : Nat) : Touches [.regs, .dies] (s.clearUnits p) (s.clearPart p) := by
  have hregs := (chg_resetRegs (s.clearUnits p) (partReg p (s.vfOf p))).1
  have hdig := (chg_digFault ((s.clearUnits p).resetRegs (partReg p (s.vfOf p))) p).1
  exact ((hregs.mono (subF_of rfl)).trans (hdig.mono (subF_of rfl))).trans ((chg_dropPreloads _ _ _).1.mono (subF_of rfl))

theorem part_clearPart (s : State) (p : Nat) : (s.clearPart p).part p = (s.part p).cleared :=
  ((clearPart_after s p).part_eq (by decide) p).trans (State.part_modPart_self _ p _)

theorem queue_clearPart (s : State) (p k : Nat) : (s.clearPart p).queue k = if k / 256 = p then {} else s.queue k := by
  rw [(clearPart_after s p).queue_eq (by decide) k]
  unfold State.queue tget
  rw [show (s.clearUnits p).queues = s.queues.filter fun e => e.1 / 256 != p from rfl, tfind_filter fun j => j / 256 != p]
  by_cases h : k / 256 = p <;> simp [h]

/-- A core without its L1, if a partition has it. -/
def Core.sansL1 (cs : List Nat) (p : Nat) (c : Core) : Core := if cs.contains p then { c with l1 := [] } else c

theorem core_clearPart (s : State) (p c : Nat) : (s.clearPart p).core c = (s.core c).sansL1 (s.partCores p) c := by
  have hmap : (s.clearUnits p).cores = s.cores.map fun e => (e.1, e.2.sansL1 (s.partCores p) e.1) := by
    refine List.map_congr_left fun e _ => ?_
    unfold Core.sansL1
    split <;> rfl
  rw [(clearPart_after s p).core_eq (by decide) c]
  unfold State.core tget
  rw [hmap, tfind_map fun i x => Core.sansL1 (s.partCores p) i x]
  cases tfind s.cores c with
  | none =>
    unfold Core.sansL1
    split <;> rfl
  | some x => rfl

/-- The registers of a partition read their reset values, but for the digest engine's FAULT; all others stay. -/
theorem reg_clearPart (s : State) (p : Nat) {k : Nat} (hk : k ≠ digSwstat p) :
    (s.clearPart p).reg k = if partReg p (s.vfOf p) k then regReset k else s.reg k := by
  have hpre : (s.clearPart p).reg k = (((s.clearUnits p).resetRegs (partReg p (s.vfOf p))).digFault p).reg k :=
    (chg_dropPreloads _ _ _).1.reg_eq (by decide) k
  rw [hpre]
  unfold State.digFault
  rw [State.reg_setBit_ne _ hk, reg_resetRegs]
  rfl

theorem partReg_digSwstat (p vf : Nat) : partReg p vf (digSwstat p) = true := by
  unfold partReg
  simp [digSwstat]

/-! The lamp may light again (R486, R489). -/

theorem part_partLampUpdate (s : State) (p : Nat) : ∃ b, (s.partLampUpdate p).part p = { s.part p with modelDue := b } := by
  unfold State.partLampUpdate
  dsimp only
  split
  · exact ⟨_, rfl⟩
  · have hpart : ((s.setBit (partStat p) 0 (s.partReady p)).partIrq p).part p = s.part p := (chg_partIrq _ p).1.part_eq (by decide) p
    split
    · refine ⟨false, ?_⟩
      rw [State.part_setReg, State.part_modPart_self, hpart]
    · exact ⟨_, hpart⟩

/-- Of a partition's registers its lamp, and the model that it then takes, may change. -/
theorem reg_partLampUpdate (s : State) {p k : Nat} (hk : k ≠ partStat p) :
    (s.partLampUpdate p).reg k = s.reg k ∨ (k = partModel p ∧ (s.partLampUpdate p).reg k = s.reg (partModelNx p)) := by
  have hirq : ∀ j, j ≠ partStat p → ((s.setBit (partStat p) 0 (s.partReady p)).partIrq p).reg j = s.reg j := fun j hj =>
    ((chg_partIrq _ p).1.reg_eq (by decide) j).trans (State.reg_setBit_ne s hj)
  have hnx : partModelNx p ≠ partStat p := by
    unfold partModelNx partStat
    omega
  unfold State.partLampUpdate
  dsimp only
  split
  · exact .inl rfl
  · split
    · by_cases hm : k = partModel p
      · subst hm
        exact .inr ⟨rfl, (State.reg_setReg_self _ _ _).trans (hirq _ hnx)⟩
      · exact .inl ((State.reg_setReg_ne _ _ hm).trans (hirq k hk))
    · exact .inl (hirq k hk)

theorem bit1_partLampUpdate (s : State) (p : Nat) : (s.partLampUpdate p).bit (partStat p) 1 = s.bit (partStat p) 1 := by
  have hirq : ((s.setBit (partStat p) 0 (s.partReady p)).partIrq p).bit (partStat p) 1 = s.bit (partStat p) 1 :=
    (State.bit_congr ((chg_partIrq _ p).1.reg_eq (by decide) _) 1).trans (State.bit_setBit_ne s (by decide) (by decide))
  have hne : partStat p ≠ partModel p := by
    unfold partStat partModel
    omega
  unfold State.partLampUpdate
  dsimp only
  split
  · rfl
  · split
    · exact (State.bit_congr (State.reg_setReg_ne _ _ hne) 1).trans hirq
    · exact hirq

/-! The reset is over. -/

/-- The state as its vectors are raised. -/
def State.resetOff (s : State) (p : Nat) : State := (((s.modPart p fun y => { y with reset := 0, rekey := false }).setBit (partRst p) 0 false).setBit (partStat p) 1 false).partIrq p

theorem part_resetOff (s : State) (p : Nat) : (s.resetOff p).part p = { s.part p with reset := 0, rekey := false } :=
  ((chg_partIrq _ p).1.part_eq (by decide) p).trans (State.part_modPart_self s p fun y => { y with reset := 0, rekey := false })

theorem part_leaveReset (s : State) (p : Nat) : ∃ b, (s.leaveReset p).part p = { s.part p with reset := 0, rekey := false, modelDue := b } := by
  obtain ⟨b, hb⟩ := part_partLampUpdate (s.resetOff p) p
  rw [part_resetOff] at hb
  exact ⟨b, hb⟩

theorem reg_resetOff (s : State) {p k : Nat} (hrst : k ≠ partRst p) (hstat : k ≠ partStat p) : (s.resetOff p).reg k = s.reg k := by
  unfold State.resetOff
  rw [(chg_partIrq _ p).1.reg_eq (by decide) k, State.reg_setBit_ne _ hstat, State.reg_setBit_ne _ hrst]
  rfl

theorem reg_leaveReset (s : State) {p k : Nat} (hrst : k ≠ partRst p) (hstat : k ≠ partStat p) :
    (s.leaveReset p).reg k = s.reg k ∨ (k = partModel p ∧ (s.leaveReset p).reg k = s.reg (partModelNx p)) := by
  have hnxRst : partModelNx p ≠ partRst p := by
    unfold partModelNx partRst
    omega
  have hnxStat : partModelNx p ≠ partStat p := by
    unfold partModelNx partStat
    omega
  have h := reg_partLampUpdate (s.resetOff p) hstat
  rw [reg_resetOff s hrst hstat, reg_resetOff s hnxRst hnxStat] at h
  exact h

theorem bits_leaveReset (s : State) (p : Nat) : (s.leaveReset p).bit (partRst p) 0 = false ∧ (s.leaveReset p).bit (partStat p) 1 = false := by
  have hne := partRst_ne_partStat p
  have hmodel : partRst p ≠ partModel p := by
    unfold partRst partModel
    omega
  have hirq : ∀ k i, (s.resetOff p).bit k i = (((s.modPart p fun y => { y with reset := 0, rekey := false }).setBit (partRst p) 0 false).setBit (partStat p) 1 false).bit k i :=
    fun k i => State.bit_congr ((chg_partIrq _ p).1.reg_eq (by decide) k) i
  constructor
  · have hreg : (s.leaveReset p).reg (partRst p) = (s.resetOff p).reg (partRst p) := by
      rcases reg_partLampUpdate (s.resetOff p) hne with h | ⟨h, _⟩
      · exact h
      · exact absurd h hmodel
    rw [State.bit_congr hreg, hirq, State.bit_congr (State.reg_setBit_ne _ hne), State.bit_setBit_self _ (by decide)]
  · exact (bit1_partLampUpdate (s.resetOff p) p).trans ((hirq _ 1).trans (State.bit_setBit_self _ (by decide)))

/-! Partition reset ends. -/

/-- A reset that no staged chart awaits. -/
theorem finishReset_eq {s : State} {p : Nat} (hstaged : (s.part p).staged = none) :
    s.finishReset p = ((if (s.part p).rekey then (s.clearPart p).freshKey p else s.clearPart p).repin p).leaveReset p := by
  have hnone : ((s.clearPart p).part p).staged = none := by rw [part_clearPart]; exact hstaged
  have hrekey : ((s.clearPart p).part p).rekey = (s.part p).rekey := by rw [part_clearPart]; rfl
  unfold State.finishReset
  dsimp only
  rw [hnone]
  dsimp only
  rw [hrekey]

theorem exec_partResetEnd {s : State} {p : Nat} (hpart : okPart p = true) (hreset : (s.part p).reset = 4) (happly : s.chart.applying = false)
    (hhold : s.chart.holding = false) (hdie : s.dieHolds p = false) : exec (.partResetEnd p) s = .next (s.finishReset p) := by
  show execPartResetEnd p s = _
  unfold execPartResetEnd
  rw [withUnit_ok hpart, if_pos ⟨hreset, happly, hhold, hdie⟩]

/-- A partition's own registers that a reset puts back without a value of their own. -/
theorem regReset_partModel {p : Nat} (hp : p < 64) : regReset (partModel p) = regReset (partModelNx p) := by
  have hreset : ∀ o, o < 0x10000 → o ≠ 0x400 → regReset (partBlk p + o) = 0 := fun o ho hne => by
    have hown : inBlk (partBlk p + o) 0x800000 64 0x10000 = some (p, o) := inBlk_eq_some (by unfold partBlk; omega) hp ho
    unfold regReset
    rw [if_neg (by unfold partBlk; omega), if_neg (by unfold partBlk; omega), if_pos (by unfold partBlk; omega), hown]
    split
    · next h => simp only [Option.some.injEq, Prod.mk.injEq] at h; exact absurd h.2 hne
    · rfl
  exact (hreset 0x404 (by decide) (by decide)).trans (hreset 0x408 (by decide) (by decide)).symm

theorem partReg_ne {p vf k : Nat} (hp : p < 64) (hvf : 1 ≤ vf) (h : partReg p vf k = true) : k ≠ partRst p ∧ k ≠ partStat p := by
  have hlow : ∀ o, o < 0x200 → partReg p vf (partBlk p + o) = false := fun o ho => by
    have hdig : ¬digBlk p ≤ partBlk p + o := by unfold digBlk partBlk; omega
    have hvfKey : ¬vfKey vf 0 ≤ partBlk p + o := by unfold vfKey partBlk; omega
    unfold partReg
    simp [hdig, hvfKey]
    omega
  constructor
  · rintro rfl
    rw [show partRst p = partBlk p + 0 from rfl, hlow 0 (by decide)] at h
    cases h
  · rintro rfl
    rw [show partStat p = partBlk p + 4 from rfl, hlow 4 (by decide)] at h
    cases h

theorem partReg_model (p vf : Nat) : partReg p vf (partModel p) = true ∧ partReg p vf (partModelNx p) = true := by
  unfold partReg partModel partModelNx
  simp

theorem digSwstat_ne_model (p : Nat) : partModelNx p ≠ digSwstat p ∧ partModel p ≠ digSwstat p := by
  unfold partModel partModelNx partBlk digSwstat digBlk
  omega

theorem vfOf_pos (s : State) (p : Nat) : 1 ≤ s.vfOf p := Nat.le_add_left _ _

/-- After the end the partition's registers read as reset, and others as before. -/
theorem reg_endOf {s u : State} {p : Nat} (hp : p < 64) (hregs : ∀ k, u.reg k = (s.clearPart p).reg k) {k : Nat} (hdig : k ≠ digSwstat p)
    (hrst : k ≠ partRst p) (hstat : k ≠ partStat p) : (u.leaveReset p).reg k = if partReg p (s.vfOf p) k then regReset k else s.reg k := by
  rcases reg_leaveReset u hrst hstat with h | ⟨rfl, h⟩
  · rw [h, hregs, reg_clearPart s p hdig]
  · rw [h, hregs, reg_clearPart s p (digSwstat_ne_model p).1, if_pos (partReg_model p _).2, if_pos (partReg_model p _).1, regReset_partModel hp]

theorem ends_clear {s : State} {p : Nat} (hpart : okPart p = true) (hreset : (s.part p).reset = 4) (happly : s.chart.applying = false)
    (hhold : s.chart.holding = false) (hdie : s.dieHolds p = false) (hstaged : (s.part p).staged = none) (hrekey : (s.part p).rekey = false) :
    Does (.partResetEnd p) s [.free, .out, .regs, .cores, .queues, .parts, .dies, .chans, .host] fun t => (t.part p).reset = 0 ∧ t.bit (partRst p) 0 = false ∧
      t.bit (partStat p) 1 = false ∧
      (t.part p).sems = [] ∧ (t.part p).routes = [] ∧ (t.part p).vers = [] ∧ (t.part p).chans = [] ∧ (t.part p).tlb = [] ∧ (t.part p).coll = [] ∧
      (t.part p).tdi = (s.part p).tdi ∧
      (∀ k, k / 256 = p → t.queue k = {}) ∧ (∀ k, k / 256 ≠ p → t.queue k = s.queue k) ∧
      (∀ k, partReg p (s.vfOf p) k = true → k ≠ digSwstat p → t.reg k = regReset k) ∧
      (∀ k, partReg p (s.vfOf p) k = false → k ≠ partRst p → k ≠ partStat p → t.reg k = s.reg k) ∧
      (∀ c ∈ s.partCores p, (t.core c).l1 = []) ∧ (∀ c, (t.core c).blocks = (s.core c).blocks) := by
  have hp : p < 64 := of_decide_eq_true hpart
  have hfinish := finishReset_eq hstaged
  rw [hrekey, if_neg (by decide)] at hfinish
  have hexec := (exec_partResetEnd hpart hreset happly hhold hdie).trans (congrArg _ hfinish)
  have hpin := (chg_repin (s.clearPart p) p).1
  have hleave := (chg_leaveReset ((s.clearPart p).repin p) p).1
  obtain ⟨b, hb⟩ := part_leaveReset ((s.clearPart p).repin p) p
  rw [hpin.part_eq (by decide) p, part_clearPart] at hb
  have hreg := fun k => reg_endOf (k := k) hp (hpin.reg_eq (by decide))
  have hqueue : ∀ k, (((s.clearPart p).repin p).leaveReset p).queue k = if k / 256 = p then {} else s.queue k := fun k => by
    rw [hleave.queue_eq (by decide), hpin.queue_eq (by decide), queue_clearPart]
  have hcore : ∀ c, (((s.clearPart p).repin p).leaveReset p).core c = (s.core c).sansL1 (s.partCores p) c := fun c => by
    rw [hleave.core_eq (by decide), hpin.core_eq (by decide), core_clearPart]
  have htouch : Touches [.free, .out, .regs, .cores, .queues, .parts, .dies, .chans, .host] s (((s.clearPart p).repin p).leaveReset p) :=
    (((chg_clearPart s p).1.mono (subF_of rfl)).trans (hpin.mono (subF_of rfl))).trans (hleave.mono (subF_of rfl))
  obtain ⟨hrst, hstat⟩ := bits_leaveReset ((s.clearPart p).repin p) p
  generalize ((s.clearPart p).repin p).leaveReset p = t at *
  refine .intro hexec htouch ⟨by rw [hb], hrst, hstat, by rw [hb]; rfl, by rw [hb]; rfl, by rw [hb]; rfl, by rw [hb]; rfl, by rw [hb]; rfl, by rw [hb]; rfl, by rw [hb]; rfl,
    fun k hk => (hqueue k).trans (if_pos hk), fun k hk => (hqueue k).trans (if_neg hk), fun k hk hd => ?_, fun k hk h0 h1 => ?_, fun c hc => ?_, fun c => ?_⟩
  · obtain ⟨h0, h1⟩ := partReg_ne hp (vfOf_pos s p) hk
    rw [hreg k hd h0 h1, if_pos hk]
  · have hd : k ≠ digSwstat p := by
      rintro rfl
      rw [partReg_digSwstat] at hk
      cases hk
    rw [hreg k hd h0 h1, hk, if_neg (by decide)]
  · rw [hcore]
    unfold Core.sansL1
    rw [if_pos (List.contains_iff_mem.2 hc)]
  · rw [hcore]
    unfold Core.sansL1
    split <;> rfl

/-! A fresh key (R455, R456). -/

theorem mget_loseChan (s : State) (c a : Nat) : mget? (s.loseChan c).mem a = if chanMem c a then none else mget? s.mem a := by
  have hmem : (s.loseChan c).mem = s.mem.filter fun e => !chanMem c e.1 := rfl
  unfold mget?
  rw [hmem, tfind_filter fun a => !chanMem c a]
  cases chanMem c a <;> rfl

theorem mget_loseChans (cs : List Nat) (s : State) (a : Nat) :
    mget? (cs.foldl (fun t c => t.loseChan c) s).mem a = if cs.any (fun c => chanMem c a) then none else mget? s.mem a := by
  induction cs generalizing s with
  | nil => rfl
  | cons c cs ih =>
    rw [List.foldl_cons, ih, mget_loseChan, List.any_cons]
    cases chanMem c a <;> cases cs.any fun c => chanMem c a <;> rfl

theorem touches_loseChans (cs : List Nat) (s : State) :
    Touches [.mem, .memEpoch, .poison, .cores, .dies, .chans] s (cs.foldl (fun t c => t.loseChan c) s) := by
  induction cs generalizing s with
  | nil => exact .refl _ s
  | cons c cs ih => exact (chg_loseChan s c).1.trans (ih _)

/-- The state whose slot holds the key drawn. -/
theorem sec_drawKey (s : State) (slot : Nat) :
    (s.drawKey slot).sec = { (s.draw 4).2.sec with keys := tset s.sec.keys slot (BitVec.ofNat 512 (s.draw 4).1) } := rfl

theorem freshKey_eq {s : State} {p : Nat} (hvalid : s.valid p = true) :
    s.freshKey p = (bitsSet (s.ent p).hbmch 256).foldl (fun t c => t.loseChan c) (s.drawKey (s.ent p).keyslot) := if_pos hvalid

/-- What is drawn depends on the generator alone. -/
theorem sec_drawKey_congr {s t : State} (h : t.sec = s.sec) (slot : Nat) : (t.drawKey slot).sec = (s.drawKey slot).sec := by
  unfold State.drawKey State.draw
  dsimp only
  rw [h]

theorem ends_rekeyed {s : State} {p : Nat} (hpart : okPart p = true) (hreset : (s.part p).reset = 4) (happly : s.chart.applying = false)
    (hhold : s.chart.holding = false) (hdie : s.dieHolds p = false) (hstaged : (s.part p).staged = none) (hrekey : (s.part p).rekey = true)
    (hvalid : s.valid p = true) :
    Does (.partResetEnd p) s [.free, .out, .regs, .mem, .memEpoch, .poison, .cores, .queues, .parts, .dies, .chans, .host, .sec] fun t =>
      t.sec = { (s.draw 4).2.sec with keys := tset s.sec.keys (s.ent p).keyslot (BitVec.ofNat 512 (s.draw 4).1) } ∧
      (∀ a, (∃ c ∈ bitsSet (s.ent p).hbmch 256, chanMem c a = true) → mget? t.mem a = none) ∧
      ∀ a, (∀ c ∈ bitsSet (s.ent p).hbmch 256, chanMem c a = false) → mget? t.mem a = mget? s.mem a := by
  have hclear := (chg_clearPart s p).1
  have hchart : (s.clearPart p).chart = s.chart := hclear.chart_eq (by decide)
  have hent : (s.clearPart p).ent p = s.ent p := by unfold State.ent; rw [hchart]
  have hvalid' : (s.clearPart p).valid p = true := by unfold State.valid at hvalid ⊢; rw [hchart]; exact hvalid
  have hfresh := freshKey_eq hvalid'
  rw [hent] at hfresh
  have hfinish := finishReset_eq hstaged
  rw [hrekey, if_pos rfl] at hfinish
  have hexec := (exec_partResetEnd hpart hreset happly hhold hdie).trans (congrArg _ hfinish)
  have hpin := (chg_repin ((s.clearPart p).freshKey p) p).1
  have hleave := (chg_leaveReset (((s.clearPart p).freshKey p).repin p) p).1
  have hmem : ((((s.clearPart p).freshKey p).repin p).leaveReset p).mem = ((s.clearPart p).freshKey p).mem :=
    (hleave.2 .mem (by decide)).trans (hpin.2 .mem (by decide))
  have hsec : ((((s.clearPart p).freshKey p).repin p).leaveReset p).sec = ((s.clearPart p).freshKey p).sec :=
    (hleave.2 .sec (by decide)).trans (hpin.2 .sec (by decide))
  have hmget : ∀ a, mget? ((s.clearPart p).freshKey p).mem a = if (bitsSet (s.ent p).hbmch 256).any (fun c => chanMem c a) then none else mget? s.mem a := fun a => by
    have hdraw : ((s.clearPart p).drawKey (s.ent p).keyslot).mem = s.mem :=
      ((chg_drawKey (s.clearPart p) _).1.2 .mem (by decide)).trans (hclear.2 .mem (by decide))
    rw [hfresh, mget_loseChans, hdraw]
  refine .intro hexec (((hclear.mono (subF_of rfl)).trans ((chg_freshKey _ p).1.mono (subF_of rfl))).trans
    ((hpin.mono (subF_of rfl)).trans (hleave.mono (subF_of rfl)))) ⟨?_, fun a ⟨c, hc, hin⟩ => ?_, fun a hout => ?_⟩
  · rw [hsec, hfresh, (touches_loseChans _ _).2 .sec (by decide), sec_drawKey_congr (hclear.2 .sec (by decide)), sec_drawKey]
  · rw [hmem, hmget, if_pos (List.any_eq_true.2 ⟨c, hc, hin⟩)]
  · rw [hmem, hmget, if_neg]
    rw [List.any_eq_true]
    rintro ⟨c, hc, hin⟩
    rw [hout c hc] at hin
    cases hin

end Sys2Proof.Machine
end

section
namespace Sys2Proof.Machine

/-! What refusing, answering and waking leave alone of a partition that resets, of its epoch, and of cores that hold nothing of a launch (R492, R494). -/

structure Calm (p : Nat) (s t : State) : Prop where
  reset : (t.part p).reset = (s.part p).reset
  coll : (s.part p).coll = [] → (t.part p).coll = []
  stat : t.reg (partStat p) = s.reg (partStat p)
  gone : ∀ lid q, (s.core q).has lid = false → (t.core q).has lid = false

section
variable {p : Nat} {s t u : State} {L : List Fld}

theorem Calm.refl (p : Nat) (s : State) : Calm p s s := ⟨rfl, id, rfl, fun _ _ => id⟩

theorem Calm.trans (h : Calm p s t) (k : Calm p t u) : Calm p s u :=
  ⟨k.reset.trans h.reset, k.coll ∘ h.coll, k.stat.trans h.stat, fun lid q => k.gone lid q ∘ h.gone lid q⟩

theorem Calm.of_touches (h : Touches L s t) (hp : Fld.parts ∉ L) (hr : Fld.regs ∉ L) (hc : Fld.cores ∉ L) : Calm p s t :=
  ⟨by rw [h.part_eq hp], by rw [h.part_eq hp]; exact id, h.reg_eq hr _, fun _ q => by rw [h.core_eq hc]; exact id⟩

theorem Calm.of_regs (h : Touches L s t) (hp : Fld.parts ∉ L) (hc : Fld.cores ∉ L) (hreg : t.reg (partStat p) = s.reg (partStat p)) : Calm p s t :=
  ⟨by rw [h.part_eq hp], by rw [h.part_eq hp]; exact id, hreg, fun _ q => by rw [h.core_eq hc]; exact id⟩

theorem Calm.of_cores (h : Touches L s t) (hp : Fld.parts ∉ L) (hr : Fld.regs ∉ L)
    (hgone : ∀ lid q, (s.core q).has lid = false → (t.core q).has lid = false) : Calm p s t :=
  ⟨by rw [h.part_eq hp], by rw [h.part_eq hp]; exact id, h.reg_eq hr _, hgone⟩

theorem Calm.of_parts (h : Touches L s t) (hr : Fld.regs ∉ L) (hc : Fld.cores ∉ L) (hreset : (t.part p).reset = (s.part p).reset)
    (hcoll : (s.part p).coll = [] → (t.part p).coll = []) : Calm p s t :=
  ⟨hreset, hcoll, h.reg_eq hr _, fun _ q => by rw [h.core_eq hc]; exact id⟩

theorem Calm.ite {c : Prop} [Decidable c] (h : Calm p s t) (k : Calm p s u) : Calm p s (if c then t else u) := by
  split
  · exact h
  · exact k

theorem Calm.foldl {α : Type} {f : State → α → State} (h : Calm p s t) (hf : ∀ t a, Calm p t (f t a)) (l : List α) : Calm p s (l.foldl f t) := by
  induction l generalizing t with
  | nil => exact h
  | cons a l ih => exact ih (h.trans (hf t a))

theorem Calm.foldl_snd {α β : Type} {f : β × State → α → β × State} {x : β × State} (h : Calm p s x.2) (hf : ∀ x a, Calm p x.2 (f x a).2) (l : List α) :
    Calm p s (l.foldl f x).2 := by
  induction l generalizing x with
  | nil => exact h
  | cons a l ih => exact ih (h.trans (hf x a))

end

/-! Groups and cores. -/

theorem has_eq_false {c : Core} {lid : Nat} : c.has lid = false ↔
    c.hosts lid = false ∧ (c.groups.any fun e => e.2.launch == lid) = false ∧ (c.sbufs.any fun e => e.2.any fun x => x.launch == lid) = false ∧
    (c.loads.any fun e => e.2.launch == lid) = false ∧ (c.art.any fun e => e.2.launch == lid) = false ∧ (c.creqs.any fun e => e.2.launch == lid) = false := by
  unfold Core.has
  simp only [Bool.or_eq_false_iff, and_assoc]

/-- A core that holds something of no further launch. -/
theorem calm_modCore {p q : Nat} (s : State) {f : Core → Core} (hf : ∀ lid, (s.core q).has lid = false → (f (s.core q)).has lid = false) :
    Calm p s (s.modCore q f) := by
  refine .of_cores (chg_modCore s q f).1 (by decide) (by decide) fun lid i h => ?_
  by_cases hi : i = q
  · subst hi
    rw [State.core_modCore_self]
    exact hf lid h
  · rw [State.core_modCore_ne _ _ hi]
    exact h

theorem any_tset_false {α : Type} {t : Tbl α} {k : Nat} {v : α} {f : Nat × α → Bool} (ht : t.any f = false) (hv : f (k, v) = false) : (tset t k v).any f = false := by
  rw [Bool.eq_false_iff, Ne, List.any_eq_true]
  rintro ⟨e, he, hfe⟩
  rcases mem_tset he with rfl | he
  · rw [hv] at hfe; cases hfe
  · rw [List.any_eq_false] at ht
    exact ht e he hfe

theorem any_filter_false {α : Type} {t : List α} {f g : α → Bool} (ht : t.any f = false) : (t.filter g).any f = false := by
  rw [List.any_eq_false] at ht ⊢
  exact fun e he => ht e (List.mem_filter.1 he).1

/-- What is put for a group or a load of a launch that the core holds is of that launch. -/
theorem not_launch_of_tfind {α : Type} {t : Tbl α} {f : α → Nat} {k lid : Nat} {x : α} (h : tfind t k = some x) (ht : (t.any fun e => f e.2 == lid) = false) :
    (f x == lid) = false := by
  rw [List.any_eq_false] at ht
  exact Bool.eq_false_iff.2 (ht _ (mem_of_tfind h))

theorem calm_setGroup {p : Nat} {s : State} {g : GRef} {x y : Group} (hx : s.group? g = some x) (hy : y.launch = x.launch) : Calm p s (s.setGroup g y) := by
  refine calm_modCore s fun lid h => ?_
  obtain ⟨hblocks, hgroups, hrest⟩ := has_eq_false.1 h
  refine has_eq_false.2 ⟨hblocks, any_tset_false hgroups ?_, hrest⟩
  show (y.launch == lid) = false
  rw [hy]
  exact not_launch_of_tfind (f := Group.launch) hx hgroups

theorem calm_modGroup {p : Nat} (s : State) (g : GRef) {f : Group → Group} (hf : ∀ x, (f x).launch = x.launch) : Calm p s (s.modGroup g f) := by
  unfold State.modGroup
  cases hx : s.group? g with
  | none => exact .refl p s
  | some x => exact calm_setGroup hx (hf x)

theorem calm_wake {p : Nat} (s : State) (g : GRef) : Calm p s (s.wake g) := by
  unfold State.wake
  refine .trans ?_ (calm_modCore _ fun lid h => ?_)
  · exact calm_modGroup s g fun _ => rfl
  · dsimp only
    split
    · exact h
    · exact h

theorem calm_wakeAll {p : Nat} (s : State) (q : Nat) (w : Wait) : Calm p s (s.wakeAll q w) := (Calm.refl p s).foldl (fun t _ => calm_wake t _) _

theorem calm_wakeRemote {p : Nat} (s : State) (d : Nat) : Calm p s (s.wakeRemote d) := (Calm.refl p s).foldl (fun t _ => calm_wakeAll t _ _) _

/-! Registers: the records of exceptions, counts and the logbook's are none of a partition's status. -/

theorem reg_recordExc {p q sc sl pc part : Nat} (hp : p < 64) (s : State) (e : Exc) (word : Word64) :
    (s.recordExc q sc sl e pc word part).reg (partStat p) = s.reg (partStat p) := by
  have hlow : partStat p < 0x2000000 := by unfold partStat partBlk; omega
  have hne : ∀ o, partStat p ≠ coreBlk q + o := fun o => by unfold coreBlk; omega
  have hstatus : partStat p ≠ excStatus q := hne 0x800
  have hpc : partStat p ≠ excPc q ∧ partStat p ≠ excPc q + 4 := ⟨hne 0x804, hne 0x808⟩
  have haddr : partStat p ≠ excAddr q ∧ partStat p ≠ excAddr q + 4 := ⟨hne 0x80C, hne 0x810⟩
  have hword : partStat p ≠ excWord q ∧ partStat p ≠ excWord q + 4 := ⟨hne 0x814, hne 0x818⟩
  unfold State.recordExc
  dsimp only
  split
  · rfl
  · split
    · exact State.reg_setBit_ne s hstatus
    · rw [State.reg_setReg64_ne _ hword.1 hword.2, State.reg_setReg64_ne _ haddr.1 haddr.2, State.reg_setReg64_ne _ hpc.1 hpc.2,
        State.reg_setReg_ne _ _ hstatus]

theorem calm_recordExc {p : Nat} (hp : p < 64) (s : State) (q sc sl : Nat) (e : Exc) (pc : Nat) (word : Word64) (part : Nat) :
    Calm p s (s.recordExc q sc sl e pc word part) :=
  .of_regs (chg_recordExc s _ _ _ _ _ _ _).1 (by decide) (by decide) (reg_recordExc hp s e word)

theorem reg_ite {c : Prop} [Decidable c] {a b : State} {k : Nat} {v : Word} (ha : a.reg k = v) (hb : b.reg k = v) : (if c then a else b).reg k = v := by
  split
  · exact ha
  · exact hb

theorem reg_portPut {k : Nat} (hk : k < dbgTrlost 0) (s : State) (r : TraceRec) : (s.portPut r).reg k = s.reg k := by
  have hne : ∀ n, k ≠ dbgTrlost n := fun n => by unfold dbgTrlost at hk ⊢; omega
  unfold State.portPut
  split
  · rfl
  · exact State.reg_countReg_ne _ (hne _)

theorem reg_trace {k : Nat} (hk : k < dbgTrlost 0) (s : State) (engine typ part : Nat) (rt : Bool) (data : Nat) : (s.trace engine typ part rt data).reg k = s.reg k := by
  have hne : ∀ n, k ≠ dbgTrlost n := fun n => by unfold dbgTrlost at hk ⊢; omega
  have hput : ∀ r, (if s.portMode = 1 then s.portPut r else s).reg k = s.reg k := fun r => reg_ite (reg_portPut hk s r) rfl
  unfold State.trace
  exact reg_ite (reg_ite (hput _) ((State.reg_countReg_ne _ (hne part)).trans (hput _))) rfl

theorem partStat_lt {p : Nat} (hp : p < 64) : partStat p < dbgTrlost 0 := by
  unfold partStat partBlk dbgTrlost
  omega

theorem calm_trace {p : Nat} (hp : p < 64) (s : State) (engine typ part : Nat) (rt : Bool) (data : Nat) : Calm p s (s.trace engine typ part rt data) :=
  .of_regs (chg_trace s _ _ _ _ _).1 (by decide) (by decide) (reg_trace (partStat_lt hp) s _ _ _ _ _)

theorem calm_logRaise {p : Nat} (s : State) (sev : Nat) (part : Option Nat) (source code : Nat) (payload : List Byte) :
    Calm p s (s.logRaise sev part source code payload) :=
  .of_regs (chg_logRaise s _ _ _ _ _).1 (by decide) (by decide)
    (regsBut_logRaise s sev part source code payload _ (by simp [partStat, partBlk_ne_logDrop]))

theorem calm_countUnc {p : Nat} (s : State) (q n : Nat) : Calm p s (s.countReg (partCmtUnc q) n) :=
  .of_regs (chg_countReg s _ _).1 (by decide) (by decide) (State.reg_countReg_ne s (by unfold partStat partCmtUnc partBlk; omega))

/-! Refusals (R349, R351, R368). -/

theorem calm_modLaunch {p : Nat} (s : State) (l : Nat) (f : Launch → Launch) : Calm p s (s.modLaunch l f) :=
  .of_touches (chg_modLaunch s l f).1 (by decide) (by decide) (by decide)

theorem calm_modDie {p : Nat} (s : State) (d : Nat) (f : Die → Die) : Calm p s (s.modDie d f) :=
  .of_touches (chg_modDie s d f).1 (by decide) (by decide) (by decide)

theorem calm_raiseLate {p : Nat} (hp : p < 64) (s : State) (core lid guid part : Nat) (x : Site) (e : Exc) :
    Calm p s (s.raiseLate core lid guid part x e) := by
  have hfail : Calm p s ((s.recordExc core x.sched x.slot e x.pc x.word part).failLaunch lid (s.mkFail e.status core e.given)) :=
    (calm_recordExc hp s _ _ _ _ _ _ _).trans (calm_modLaunch _ _ _)
  unfold State.raiseLate
  dsimp only
  split
  · next gr hgr =>
    split
    · exact hfail.trans (calm_setGroup hgr rfl)
    · exact hfail
  · exact hfail

theorem calm_refuseLoad {p : Nat} (hp : p < 64) (s : State) (r : RReq) : Calm p s (s.refuseLoad r) := by
  unfold State.refuseLoad
  split
  · exact .refl p s
  · next l hl =>
    dsimp only
    split
    · refine calm_modCore s fun lid h => ?_
      obtain ⟨hblocks, hgroups, hsbufs, hloads, hrest⟩ := has_eq_false.1 h
      refine has_eq_false.2 ⟨hblocks, hgroups, hsbufs, any_tset_false hloads ?_, hrest⟩
      show (l.launch == lid) = false
      exact not_launch_of_tfind (f := Load.launch) hl hloads
    · have hdel : Calm p s (s.modCore r.core fun c => { c with loads := tdel c.loads r.load }) := by
        refine calm_modCore s fun lid h => ?_
        obtain ⟨hblocks, hgroups, hsbufs, hloads, hrest⟩ := has_eq_false.1 h
        refine has_eq_false.2 ⟨hblocks, hgroups, hsbufs, ?_, hrest⟩
        rw [List.any_eq_false] at hloads ⊢
        exact fun e he => hloads e (mem_tdel he)
      split
      · exact hdel.trans (calm_raiseLate hp _ _ _ _ _ _ _)
      · exact hdel

theorem calm_refuseLanes {p : Nat} (hp : p < 64) (s : State) (r : RReq) (lanes : List (Nat × Nat)) : Calm p s (s.refuseLanes r lanes) := by
  unfold State.refuseLanes
  split
  · exact .refl p s
  · split
    · exact calm_modDie s _ _
    · split
      · exact calm_modLaunch s _ _
      · exact calm_raiseLate hp s _ _ _ _ _ _

theorem calm_refuse {p : Nat} (hp : p < 64) (s : State) (r : RReq) : Calm p s (s.refuse r) := by
  unfold State.refuse
  split
  · split
    · exact calm_refuseLoad hp s r
    · exact calm_modLaunch s _ _
    · exact calm_modLaunch s _ _
    · exact .refl p s
    · exact (calm_modLaunch s _ _).trans (calm_refuseLanes hp _ _ _)
  · exact .refl p s

theorem calm_sendReq {p : Nat} (s : State) (d : Nat) (r : RReq) (read : Bool) : Calm p s (s.sendReq d r read).2 :=
  .of_touches (chg_sendReq s d r read).1 (by decide) (by decide) (by decide)

theorem calm_flushFinals {p : Nat} (hp : p < 64) (s : State) (lid : Nat) : Calm p s (s.flushFinals lid) := by
  unfold State.flushFinals
  split
  · exact .refl p s
  · refine Calm.foldl (Calm.foldl_snd (x := (_, _)) (calm_modLaunch s lid _) (fun x f => ?_) _) (fun t r => calm_refuse hp t r) _
    dsimp only
    split
    · exact calm_modLaunch _ _ _
    · split
      · exact calm_sendReq _ _ _ _
      · exact calm_sendReq _ _ _ _

theorem calm_flushAll {p : Nat} (hp : p < 64) (s : State) : Calm p s s.flushAll := (Calm.refl p s).foldl (fun t _ => calm_flushFinals hp t _) _

/-! A router's slots and records (R371, R379, R385). -/

theorem calm_setColl {p : Nat} (s : State) (q k : Nat) (c : Coll) (h : s.coll? q k ≠ none) : Calm p s (s.setColl q k c) := by
  by_cases hq : p = q
  · subst hq
    refine .of_parts (chg_modPart s p _).1 (by decide) (by decide) ?_ fun hcoll => ?_
    · rw [State.setColl, State.part_modPart_self]
    · refine absurd ?_ h
      unfold State.coll?
      rw [hcoll]
      rfl
  · have hpart : (s.setColl q k c).part p = s.part p := State.part_modPart_ne s _ hq
    exact .of_parts (chg_modPart s q _).1 (by decide) (by decide) (by rw [hpart]) (by rw [hpart]; exact id)

theorem calm_sendOuts {p : Nat} (s : State) (q k : Nat) : Calm p s (s.sendOuts q k) := by
  unfold State.sendOuts
  split
  · exact .refl p s
  · next c hc => exact (calm_setColl s q k _ (by rw [hc]; simp)).foldl (fun t _ => calm_sendReq t _ _ _) _

theorem calm_pumpOuts {p : Nat} (s : State) (d : Nat) : Calm p s (s.pumpOuts d) :=
  (Calm.refl p s).foldl (fun t _ => (Calm.refl p t).foldl (fun u _ => calm_sendOuts u _ _) _) _

theorem calm_dropReq {p : Nat} (s : State) (d tag : Nat) : Calm p s (s.dropReq d tag) :=
  ((calm_modDie s d _).trans (calm_wakeRemote _ d)).trans (calm_pumpOuts _ d)

theorem calm_modLink {p : Nat} (s : State) (n : Nat) (f : Link → Link) : Calm p s (s.modLink n f) :=
  .of_touches (chg_modLink s n f).1 (by decide) (by decide) (by decide)

theorem calm_lastAnswer {p : Nat} (hp : p < 64) (s : State) (r : RReq) : Calm p s (s.lastAnswer r) := by
  unfold State.lastAnswer
  split
  · split
    · exact (calm_trace hp s _ _ _ _ _).trans (calm_modLink _ _ _)
    · exact .refl p s
  · exact .refl p s

theorem calm_closeReq {p : Nat} (hp : p < 64) (s : State) (d tag : Nat) (r : RReq) : Calm p s (s.closeReq d tag r) :=
  (calm_dropReq s d tag).trans (calm_lastAnswer hp _ r)

theorem calm_cqRefused {p : Nat} (s : State) (lid i : Nat) : Calm p s (s.cqRefused lid i) := by
  unfold State.cqRefused
  repeat' split
  · exact .refl p s
  · exact .refl p s
  · exact ((calm_modLaunch s lid _).trans (calm_countUnc _ _ _)).trans (calm_logRaise _ _ _ _ _ _)
  · exact .refl p s

theorem calm_refuseReq {p : Nat} (hp : p < 64) (s : State) (r : RReq) : Calm p s (s.refuseReq r) := by
  unfold State.refuseReq
  repeat' split
  · exact calm_cqRefused s _ _
  · exact .refl p s
  · exact calm_refuse hp s r

theorem calm_wakeRouters {p : Nat} (hp : p < 64) (s : State) : Calm p s s.wakeRouters :=
  ((Calm.refl p s).foldl (fun t d => calm_wakeRemote t d) _).trans (calm_flushAll hp _)

theorem calm_mcTop {p : Nat} (hp : p < 64) (s : State) (d key : Nat) (r : McRec) (bad : Option Nat) : Calm p s (s.mcTop d key r bad) := by
  have hfree : Calm p s (s.modDie d fun x => { x with mcast := tdel x.mcast key }).wakeRouters := (calm_modDie s d _).trans (calm_wakeRouters hp _)
  unfold State.mcTop
  dsimp only
  split
  · split
    · exact hfree.trans (calm_modLink _ _ _)
    · exact hfree.trans (calm_modDie _ _ _)
  · exact calm_modDie s d _

theorem calm_mcAnswer {p : Nat} (hp : p < 64) (s : State) (d key : Nat) (r : McRec) (bad : Option Nat) : Calm p s (s.mcAnswer d key r bad) := by
  have hfree : Calm p s (s.modDie d fun x => { x with mcast := tdel x.mcast key }).wakeRouters := (calm_modDie s d _).trans (calm_wakeRouters hp _)
  unfold State.mcAnswer
  split
  · exact calm_mcTop hp s d key r bad
  · dsimp only
    split
    · split
      · exact hfree.trans (calm_mcTop hp _ _ _ _ _)
      · exact hfree
    · exact calm_modDie s d _

theorem calm_post {p : Nat} (s : State) (d : Nat) (m : Msg) : Calm p s (s.post d m) :=
  .of_touches (chg_post s d m).1 (by decide) (by decide) (by decide)

theorem calm_refuseMsg {p : Nat} (hp : p < 64) (s : State) (d : Nat) (m : Msg) (reason : Nat) : Calm p s (s.refuseMsg d m reason) := by
  unfold State.refuseMsg
  split
  · exact .refl p s
  · split
    · exact calm_mcAnswer hp s d _ _ _
    · split
      · split
        · exact ((calm_closeReq hp s _ _ _).trans (calm_refuseReq hp _ _)).trans (calm_flushAll hp _)
        · exact .refl p s
      · exact calm_post s d _

/-- The routers' refusals leave the partition that resets as it stands. -/
theorem calm_dropUnsent {p : Nat} (hp : p < 64) (s : State) (q : Nat) : Calm p s (s.dropUnsent q) := by
  unfold State.dropUnsent
  dsimp only
  refine Calm.foldl (.of_touches (L := [.dies, .links]) ?_ (by decide) (by decide) (by decide)) (fun t e => calm_refuseMsg hp t _ _ _) _
  exact .routers s _ _

end Sys2Proof.Machine
end

section
namespace Sys2Proof.Machine

/-! The epoch rises (R492, R494). -/

theorem exec_partResetEpoch {s : State} {p : Nat} (hpart : okPart p = true) : exec (.partResetEpoch p) s = .next (s.resetEpoch p) := by
  show execPartResetEpoch p s = _
  unfold execPartResetEpoch
  rw [withUnit_ok hpart]

/-- The state as the launches of a partition end. -/
def State.epochRaised (s : State) (p : Nat) : State := ((s.setFld (partStat p) 8 8 (s.epochOf p + 1)).abandonHangs p).stopSweep p

theorem resetEpoch_eq {s : State} {p : Nat} (hreset : (s.part p).reset = 1) (hcommits : s.commits p = false) :
    s.resetEpoch p = ((((s.epochRaised p).endLaunches p).modPart p fun y => { y with reset := 2, resetGt := s.now, coll := [] }).dropUnsent p) :=
  if_pos ⟨hreset, hcommits⟩

theorem calm_setBit {p k : Nat} (s : State) (i : Nat) (b : Bool) (hk : partStat p ≠ k) : Calm p s (s.setBit k i b) :=
  .of_regs (chg_setBit s k i b).1 (by decide) (by decide) (State.reg_setBit_ne s hk)

theorem calm_abandonHangs {p : Nat} (hp : p < 64) (s : State) (q : Nat) : Calm p s (s.abandonHangs q) := by
  have hne : partStat p ≠ dbgHangstat := by unfold partStat partBlk dbgHangstat; omega
  unfold State.abandonHangs
  refine .ite (.trans (.trans ?_ (calm_setBit _ 6 true hne)) (calm_setBit _ 0 _ hne)) (.refl p s)
  exact .of_touches (.dbg s _) (by decide) (by decide) (by decide)

/-- A change of a partition's record that its reset does not go by. -/
theorem calm_modPart {p : Nat} (s : State) (q : Nat) {f : Part → Part} (hreset : ∀ y, (f y).reset = y.reset) (hcoll : ∀ y, (f y).coll = y.coll) :
    Calm p s (s.modPart q f) := by
  refine .of_parts (chg_modPart s q f).1 (by decide) (by decide) ?_ ?_
  · by_cases hq : p = q
    · rw [hq, State.part_modPart_self, hreset]
    · rw [State.part_modPart_ne s f hq]
  · by_cases hq : p = q
    · rw [hq, State.part_modPart_self, hcoll]; exact id
    · rw [State.part_modPart_ne s f hq]; exact id

theorem calm_stopSweep {p : Nat} (hp : p < 64) (s : State) (q : Nat) : Calm p s (s.stopSweep q) := by
  have hne : partStat p ≠ digSwstat q := by unfold partStat partBlk digSwstat digBlk; omega
  have htrace : Calm p s (if (s.part q).sweep.running then s.freeNat.2.traceSweep q tyEnd (s.freeNat.1 % 256) else s) := by
    split
    · refine .trans (t := s.freeNat.2) ?_ (calm_trace hp _ _ _ _ _ _)
      exact .of_touches (.free s _) (by decide) (by decide) (by decide)
    · exact .refl p s
  exact .trans (.trans htrace (calm_setBit _ 0 false hne))
    (calm_modPart _ q (f := fun y => { y with sweep := { y.sweep with running := false, restart := none } }) (fun _ => rfl) fun _ => rfl)

/-- The epoch is the next one, and the partition's step stands. -/
theorem calm_epochRaised {p : Nat} (hp : p < 64) (s : State) : Calm p (s.setFld (partStat p) 8 8 (s.epochOf p + 1)) (s.epochRaised p) :=
  (calm_abandonHangs hp _ p).trans (calm_stopSweep hp _ p)

theorem launches_epochRaised (s : State) (p : Nat) : (s.epochRaised p).launches = s.launches :=
  ((chg_stopSweep _ p).1.launches_eq (by decide)).trans ((chg_abandonHangs _ p).1.launches_eq (by decide))

theorem endLaunches_none {s : State} {p : Nat} (h : ∀ e ∈ s.launches, e.2.part ≠ p) : s.endLaunches p = s := by
  unfold State.endLaunches
  rw [List.filter_eq_nil_iff.2 fun e he => by simpa using h e he]
  rfl

theorem raises_epoch {s : State} {p : Nat} (hpart : okPart p = true) (hreset : (s.part p).reset = 1) (hcommits : s.commits p = false)
    (hnone : ∀ e ∈ s.launches, e.2.part ≠ p) :
    Does (.partResetEpoch p) s [.free, .regs, .cores, .launches, .parts, .dies, .copies, .links, .dbg, .log] fun t => (t.part p).reset = 2 ∧
      t.epochOf p = (s.epochOf p + 1) % 256 ∧ (t.part p).coll = [] := by
  have hp : p < 64 := of_decide_eq_true hpart
  have hend : (s.epochRaised p).endLaunches p = s.epochRaised p := endLaunches_none (by rw [launches_epochRaised]; exact hnone)
  refine .intro ((exec_partResetEpoch hpart).trans (congrArg _ rfl)) (chg_resetEpoch s p).1 ?_
  rw [resetEpoch_eq hreset hcommits, hend]
  have hmod := State.part_modPart_self (s.epochRaised p) p fun y => { y with reset := 2, resetGt := s.now, coll := [] }
  have hcalm := calm_dropUnsent hp ((s.epochRaised p).modPart p fun y => { y with reset := 2, resetGt := s.now, coll := [] }) p
  have hreg : ((s.epochRaised p).modPart p fun y => { y with reset := 2, resetGt := s.now, coll := [] }).reg (partStat p) = (s.epochRaised p).reg (partStat p) := rfl
  refine ⟨by rw [hcalm.reset, hmod], ?_, hcalm.coll (by rw [hmod])⟩
  unfold State.epochOf
  rw [State.fld_congr (hcalm.stat.trans (hreg.trans (calm_epochRaised hp s).stat)), State.fld_setFld_self s (by decide)]
  rfl

/-! A launch that has ended stays as its record will say. -/

def EndedKept (s t : State) : Prop := ∀ lid l, s.launches = [(lid, l)] → l.phase = .ended → l.finals = [] →
  ∃ x, t.launches = [(lid, x)] ∧ x.phase = .ended ∧ x.finals = [] ∧ x.fail = l.fail

section
variable {s t u : State} {L : List Fld}

theorem EndedKept.refl (s : State) : EndedKept s s := fun _ l h hphase hfinals => ⟨l, h, hphase, hfinals, rfl⟩

theorem EndedKept.trans (h : EndedKept s t) (k : EndedKept t u) : EndedKept s u := fun lid l hs hphase hfinals => by
  obtain ⟨x, hx, hxphase, hxfinals, hxfail⟩ := h lid l hs hphase hfinals
  obtain ⟨y, hy, hyphase, hyfinals, hyfail⟩ := k lid x hx hxphase hxfinals
  exact ⟨y, hy, hyphase, hyfinals, hyfail.trans hxfail⟩

theorem EndedKept.of_touches (h : Touches L s t) (hL : Fld.launches ∉ L) : EndedKept s t := fun _ l hs hphase hfinals =>
  ⟨l, (h.launches_eq hL).trans hs, hphase, hfinals, rfl⟩

theorem EndedKept.foldl {α : Type} {f : State → α → State} (h : EndedKept s t) (hf : ∀ t a, EndedKept t (f t a)) (l : List α) : EndedKept s (l.foldl f t) := by
  induction l generalizing t with
  | nil => exact h
  | cons a l ih => exact ih (h.trans (hf t a))

/-- Of the only launch another's number finds nothing. -/
theorem modLaunch_only {lid i : Nat} {l : Launch} (hs : s.launches = [(lid, l)]) (f : Launch → Launch) :
    (s.modLaunch i f).launches = [(lid, if i = lid then f l else l)] := by
  unfold State.modLaunch State.launch?
  rw [hs]
  unfold tfind
  by_cases hi : i = lid
  · subst hi
    rw [if_pos rfl, if_pos rfl]
    dsimp only
    unfold State.setLaunch
    rw [hs]
    unfold tset
    rw [if_neg (Nat.lt_irrefl _), if_pos rfl]
  · rw [if_neg (Ne.symm hi), if_neg hi]
    exact hs

theorem ended_modLaunch (s : State) (i : Nat) {f : Launch → Launch}
    (hf : ∀ l, l.phase = .ended → l.finals = [] → (f l).phase = .ended ∧ (f l).finals = [] ∧ (f l).fail = l.fail) : EndedKept s (s.modLaunch i f) := by
  intro lid l hs hphase hfinals
  refine ⟨_, modLaunch_only hs f, ?_⟩
  split
  · exact hf l hphase hfinals
  · exact ⟨hphase, hfinals, rfl⟩

end

theorem committing_of_ended {l : Launch} (h : l.phase = .ended) : l.committing = true := by
  unfold Launch.committing
  rw [h]

theorem ended_failLaunch (s : State) (i : Nat) (f : Failure) : EndedKept s (s.failLaunch i f) :=
  ended_modLaunch s i fun l hphase hfinals => by
    rw [if_pos (committing_of_ended hphase)]
    exact ⟨hphase, hfinals, rfl⟩

theorem ended_markCq (s : State) (i k : Nat) (st : CqState) : EndedKept s (s.markCq i k st) :=
  ended_modLaunch s i fun _ hphase hfinals => ⟨hphase, hfinals, rfl⟩

theorem ended_findFail (s : State) (i : Nat) (st : Byte) : EndedKept s (s.findFail i st) :=
  ended_modLaunch s i fun _ hphase hfinals => ⟨hphase, hfinals, rfl⟩

theorem ended_raiseLate (s : State) (core lid guid part : Nat) (x : Site) (e : Exc) : EndedKept s (s.raiseLate core lid guid part x e) := by
  have hfail : EndedKept s ((s.recordExc core x.sched x.slot e x.pc x.word part).failLaunch lid (s.mkFail e.status core e.given)) :=
    (EndedKept.of_touches (chg_recordExc s _ _ _ _ _ _ _).1 (by decide)).trans (ended_failLaunch _ _ _)
  unfold State.raiseLate
  dsimp only
  split
  · split
    · exact hfail.trans (.of_touches (chg_setGroup _ _ _).1 (by decide))
    · exact hfail
  · exact hfail

theorem ended_refuseLoad (s : State) (r : RReq) : EndedKept s (s.refuseLoad r) := by
  have hcore : ∀ f, EndedKept s (s.modCore r.core f) := fun f => .of_touches (chg_modCore s _ f).1 (by decide)
  unfold State.refuseLoad
  split
  · exact .refl s
  · dsimp only
    split
    · exact hcore _
    · split
      · exact (hcore _).trans (ended_raiseLate _ _ _ _ _ _ _)
      · exact hcore _

theorem ended_refuseLanes (s : State) (r : RReq) (lanes : List (Nat × Nat)) : EndedKept s (s.refuseLanes r lanes) := by
  unfold State.refuseLanes
  split
  · exact .refl s
  · split
    · exact .of_touches (chg_modDie s _ _).1 (by decide)
    · split
      · refine ended_modLaunch s _ fun l hphase hfinals => ⟨hphase, ?_, rfl⟩
        dsimp only
        rw [hfinals, List.modify_nil]
      · exact ended_raiseLate s _ _ _ _ _ _

theorem ended_refuse (s : State) (r : RReq) : EndedKept s (s.refuse r) := by
  unfold State.refuse
  split
  · split
    · exact ended_refuseLoad s r
    · exact ended_markCq s _ _ _
    · exact ended_failLaunch s _ _
    · exact .refl s
    · exact (ended_findFail s _ _).trans (ended_refuseLanes _ _ _)
  · exact .refl s

/-- It holds no final write that could be sent. -/
theorem ended_flushAll (s : State) : EndedKept s s.flushAll := fun lid l hs hphase hfinals => by
  have hnone : s.launches.filter (fun e => e.2.finals != []) = [] := by
    rw [hs]
    simp [hfinals]
  refine ⟨l, ?_, hphase, hfinals, rfl⟩
  unfold State.flushAll
  rw [hnone]
  exact hs

theorem ended_wakeRouters (s : State) : EndedKept s s.wakeRouters :=
  ((EndedKept.refl s).foldl (fun t d => .of_touches (chg_wakeRemote t d).1 (by decide)) _).trans (ended_flushAll _)

theorem ended_cqRefused (s : State) (lid i : Nat) : EndedKept s (s.cqRefused lid i) := by
  unfold State.cqRefused
  repeat' split
  · exact .refl s
  · exact .refl s
  · have hlog : ∀ (u : State) part source pay, EndedKept s u → EndedKept s (u.logRaise sevAlert part source 0x50 pay) := fun u part source pay h =>
      h.trans (.of_touches (chg_logRaise u _ _ _ _ _).1 (by decide))
    exact hlog _ _ _ _ ((ended_markCq s lid i .refused).trans (.of_touches (chg_countReg _ _ _).1 (by decide)))
  · exact .refl s

theorem ended_refuseReq (s : State) (r : RReq) : EndedKept s (s.refuseReq r) := by
  unfold State.refuseReq
  repeat' split
  · exact ended_cqRefused s _ _
  · exact .refl s
  · exact ended_refuse s r

theorem ended_modDie (s : State) (d : Nat) (f : Die → Die) : EndedKept s (s.modDie d f) := .of_touches (chg_modDie s d f).1 (by decide)

theorem ended_mcTop (s : State) (d key : Nat) (r : McRec) (bad : Option Nat) : EndedKept s (s.mcTop d key r bad) := by
  have hfree : EndedKept s (s.modDie d fun x => { x with mcast := tdel x.mcast key }).wakeRouters := (ended_modDie s d _).trans (ended_wakeRouters _)
  unfold State.mcTop
  dsimp only
  split
  · split
    · exact hfree.trans (.of_touches (chg_modLink _ _ _).1 (by decide))
    · exact hfree.trans (ended_modDie _ _ _)
  · exact ended_modDie s d _

theorem ended_mcAnswer (s : State) (d key : Nat) (r : McRec) (bad : Option Nat) : EndedKept s (s.mcAnswer d key r bad) := by
  have hfree : EndedKept s (s.modDie d fun x => { x with mcast := tdel x.mcast key }).wakeRouters := (ended_modDie s d _).trans (ended_wakeRouters _)
  unfold State.mcAnswer
  split
  · exact ended_mcTop s d key r bad
  · dsimp only
    split
    · split
      · exact hfree.trans (ended_mcTop _ _ _ _ _)
      · exact hfree
    · exact ended_modDie s d _

theorem ended_refuseMsg (s : State) (d : Nat) (m : Msg) (reason : Nat) : EndedKept s (s.refuseMsg d m reason) := by
  unfold State.refuseMsg
  split
  · exact .refl s
  · split
    · exact ended_mcAnswer s d _ _ _
    · split
      · split
        · exact ((EndedKept.of_touches (chg_closeReq s _ _ _).1 (by decide)).trans (ended_refuseReq _ _)).trans (ended_flushAll _)
        · exact .refl s
      · exact .of_touches (chg_post s d _).1 (by decide)

theorem ended_dropUnsent (s : State) (p : Nat) : EndedKept s (s.dropUnsent p) := by
  unfold State.dropUnsent
  dsimp only
  refine EndedKept.foldl (.of_touches (L := [.dies, .links]) ?_ (by decide)) (fun t e => ended_refuseMsg t _ _ _) _
  exact .routers s _ _

end Sys2Proof.Machine
end

section
namespace Sys2Proof.Machine

/-! A launch that is taken off every core (R492). -/

/-- What holds nothing of a launch still does not. -/
def Gone (s t : State) : Prop := ∀ lid q, (s.core q).has lid = false → (t.core q).has lid = false

theorem Gone.trans {s t u : State} (h : Gone s t) (k : Gone t u) : Gone s u := fun lid q => k lid q ∘ h lid q

theorem Gone.of_touches {L : List Fld} {s t : State} (h : Touches L s t) (hL : Fld.cores ∉ L) : Gone s t := fun _ q => by
  rw [h.core_eq hL]
  exact id

theorem Gone.ite {c : Prop} [Decidable c] {s t u : State} (h : Gone s t) (k : Gone s u) : Gone s (if c then t else u) := by
  split
  · exact h
  · exact k

theorem gone_modCore {q : Nat} (s : State) {f : Core → Core} (hf : ∀ lid, (s.core q).has lid = false → (f (s.core q)).has lid = false) :
    Gone s (s.modCore q f) := (calm_modCore (p := 0) s hf).gone

theorem gone_wakeAll (s : State) (q : Nat) (w : Wait) : Gone s (s.wakeAll q w) := (calm_wakeAll (p := 0) s q w).gone

theorem has_purge_self (c : Core) (lid : Nat) : (c.purge lid).has lid = false := by
  have hnone : ∀ {α : Type} (l : List α) (f : α → Nat), ((l.filter fun e => f e != lid).any fun e => f e == lid) = false := fun l f => by
    rw [List.any_eq_false]
    intro e he
    have := (List.mem_filter.1 he).2
    simpa using this
  refine has_eq_false.2 ⟨hnone c.blocks fun e => e.2.launch, hnone c.groups fun e => e.2.launch, ?_, hnone c.loads fun e => e.2.launch, hnone c.art fun e => e.2.launch,
    hnone c.creqs fun e => e.2.launch⟩
  rw [List.any_eq_false]
  intro e he
  obtain ⟨x, -, rfl⟩ := List.mem_map.1 (List.mem_filter.1 he).1
  rw [hnone x.2 fun y => y.launch]
  decide

theorem has_purge {c : Core} {i : Nat} (lid : Nat) (h : c.has i = false) : (c.purge lid).has i = false := by
  obtain ⟨hblocks, hgroups, hsbufs, hloads, hart, hcreqs⟩ := has_eq_false.1 h
  refine has_eq_false.2 ⟨any_filter_false hblocks, any_filter_false hgroups, ?_, any_filter_false hloads, any_filter_false hart, any_filter_false hcreqs⟩
  rw [List.any_eq_false] at hsbufs ⊢
  intro e he
  obtain ⟨x, hx, rfl⟩ := List.mem_map.1 (List.mem_filter.1 he).1
  rw [any_filter_false (Bool.eq_false_iff.2 (hsbufs x hx))]
  decide

theorem gone_notePurge (s : State) (lid : Nat) (kill : Bool) (q : Nat) : Gone s (s.notePurge lid kill q) := by
  unfold State.notePurge
  split
  · next l _ =>
    have htraced : Gone s (if (s.core q).traced.contains lid then
        (s.modCore q fun c => { c with traced := c.traced.filter (· != lid) }).traceLaunch q (if kill && (s.core q).hosts lid then tyKill else tyEnd) l
          (if kill && (s.core q).hosts lid then 0 else l.status) else s) :=
      .ite ((gone_modCore (q := q) s fun _ => id).trans (.of_touches (chg_traceLaunch _ _ _ _ _).1 (by decide))) fun _ _ => id
    exact .ite (htraced.trans (.of_touches (chg_pmEvent _ _ _ _ _).1 (by decide))) htraced
  · exact fun _ _ => id

theorem gone_nextOwner (s : State) (q : Nat) : Gone s (s.nextOwner q) := by
  have hfree : Gone s { s with free := s.free + 1 } := fun _ _ => id
  unfold State.nextOwner
  split
  · exact fun _ _ => id
  · split
    · exact hfree.trans (gone_modCore _ fun _ => id)
    · exact gone_modCore s fun _ => id

theorem purgeCore_cases (s : State) (lid : Nat) (kill : Bool) (q : Nat) :
    ((s.core q).has lid = false ∧ s.purgeCore lid kill q = s) ∨
      ∃ u, Gone s u ∧ Gone (u.modCore q fun c => c.purge lid) (s.purgeCore lid kill q) := by
  unfold State.purgeCore
  dsimp only
  by_cases h : ((s.core q).has lid || (s.core q).traced.contains lid) = true
  · rw [if_pos h]
    refine .inr ⟨_, ?_, ((((Gone.ite (gone_nextOwner _ q) fun _ _ => id).trans (gone_wakeAll _ _ _)).trans (gone_wakeAll _ _ _)).trans (gone_wakeAll _ _ _))⟩
    refine (gone_notePurge s lid kill q).trans ?_
    split
    · exact .ite (.of_touches (chg_setReg _ _ _).1 (by decide)) fun _ _ => id
    · exact fun _ _ => id
  · rw [if_neg h]
    rw [Bool.not_eq_true, Bool.or_eq_false_iff] at h
    exact .inl ⟨h.1, rfl⟩

theorem gone_purgeCore (s : State) (lid : Nat) (kill : Bool) (q : Nat) : Gone s (s.purgeCore lid kill q) := by
  rcases purgeCore_cases s lid kill q with ⟨_, h⟩ | ⟨u, hu, hpurge⟩
  · rw [h]
    exact fun _ _ => id
  · exact (hu.trans (gone_modCore u fun _ => has_purge lid)).trans hpurge

theorem has_purgeCore (s : State) (lid : Nat) (kill : Bool) (q : Nat) : ((s.purgeCore lid kill q).core q).has lid = false := by
  rcases purgeCore_cases s lid kill q with ⟨hno, h⟩ | ⟨u, _, hpurge⟩
  · rw [h]
    exact hno
  · refine hpurge lid q ?_
    rw [State.core_modCore_self]
    exact has_purge_self _ lid

theorem has_purgeCores {lid : Nat} {kill : Bool} {qs : List Nat} {s : State} {q : Nat} (h : q ∈ qs ∨ (s.core q).has lid = false) :
    ((qs.foldl (fun t p => t.purgeCore lid kill p) s).core q).has lid = false := by
  induction qs generalizing s with
  | nil =>
    rcases h with h | h
    · cases h
    · exact h
  | cons p qs ih =>
    refine ih ?_
    rcases h with h | h
    · rcases List.mem_cons.1 h with rfl | h
      · exact .inr (has_purgeCore s lid kill q)
      · exact .inl h
    · exact .inr (gone_purgeCore s lid kill p lid q h)

/-- A core that is not listed holds nothing. -/
theorem core_unlisted {s : State} {q : Nat} (h : q ∉ tkeys s.cores) : s.core q = {} := by
  have hnone : tfind s.cores q = none := by
    cases hfind : tfind s.cores q with
    | none => rfl
    | some c => exact absurd (List.mem_map.2 ⟨_, mem_of_tfind hfind, rfl⟩) h
  unfold State.core tget
  rw [hnone]
  rfl

theorem has_stopLaunch (s : State) (lid : Nat) (kill : Bool) (q : Nat) : ((s.stopLaunch lid kill).core q).has lid = false := by
  have hpurge : (((tkeys s.cores).foldl (fun t p => t.purgeCore lid kill p) s).core q).has lid = false := by
    refine has_purgeCores ?_
    by_cases h : q ∈ tkeys s.cores
    · exact .inl h
    · refine .inr ?_
      rw [core_unlisted h]
      rfl
  unfold State.stopLaunch
  rw [(chg_purgeCopy _ _ _).1.core_eq (by decide)]
  exact hpurge

/-! The launch reports the reset (R322, R492). -/

theorem semQuit_none {s : State} {p : Nat} (lid : Nat) (h : ∀ e ∈ (s.part p).sems, e.2.waiters = []) : s.semQuit p lid = s.semLeave p lid := by
  unfold State.semQuit
  rw [List.filter_eq_nil_iff.2 fun e he => by rw [h e he]; simp]
  rfl

/-- The failure of a launch that a reset ends. -/
def State.resetFail (s : State) (l : Launch) : Failure :=
  match l.replay.bind (·.first) with
  | some x => x.2
  | none => s.mkFail stPartReset

theorem endByReset_only {s : State} {p lid : Nat} {l : Launch} (hs : s.launches = [(lid, l)]) (hl : l.part = p) (hphase : l.phase = .running) (hfail : l.fail = none)
    (hsems : ∀ e ∈ (s.part p).sems, e.2.waiters = []) :
    (s.endByReset lid).launches = [(lid, { l with phase := .ended, finals := [], fail := some (s.resetFail l) })] := by
  have hfind : s.launch? lid = some l := by
    unfold State.launch?
    rw [hs]
    exact if_pos rfl
  have hleft : ((s.semQuit l.part lid).freeItems l.part lid).launches = [(lid, l)] := by
    rw [hl, semQuit_none lid hsems]
    exact hs
  have hfailed := modLaunch_only (i := lid) hleft fun x => if x.committing then x else x.addFail (s.resetFail l)
  have hrun : l.committing = false := by
    unfold Launch.committing
    rw [hphase]
  have hadd : l.addFail (s.resetFail l) = { l with fail := some (s.resetFail l) } := by
    unfold Launch.addFail worst
    rw [hfail]
  rw [if_pos rfl, hrun, if_neg (by decide), hadd] at hfailed
  have hended := modLaunch_only (i := lid) hfailed fun x => { x with phase := .ended, finals := [] }
  rw [if_pos rfl] at hended
  unfold State.endByReset
  rw [hfind]
  exact hended

theorem endLaunches_only {s : State} {p lid : Nat} {l : Launch} (hs : s.launches = [(lid, l)]) (hl : l.part = p) (hphase : l.phase = .running) :
    s.endLaunches p = (s.stopLaunch lid false).endByReset lid := by
  have hmine : s.launches.filter (fun e => e.2.part == p) = [(lid, l)] := by
    rw [hs]
    simp [hl]
  have hissued : l.isIssued = true := by
    unfold Launch.isIssued
    rw [hphase]
  unfold State.endLaunches
  rw [hmine]
  show (if l.phase = .ended then s else _) = _
  rw [if_neg (by rw [hphase]; decide), hissued]
  rfl

theorem sems_stopSweep (s : State) (p : Nat) : ((s.stopSweep p).part p).sems = (s.part p).sems := by
  have htrace : (if (s.part p).sweep.running then s.freeNat.2.traceSweep p tyEnd (s.freeNat.1 % 256) else s).part p = s.part p := by
    split
    · exact (chg_traceSweep _ _ _ _).1.part_eq (by decide) p
    · rfl
  have hsems := congrArg Part.sems htrace
  exact (congrArg Part.sems (State.part_modPart_self _ p fun y => { y with sweep := { y.sweep with running := false, restart := none } })).trans hsems

theorem status_resetFail (s : State) (l : Launch) : (s.resetFail l).status = (match l.replay.bind (·.first) with
    | some f => f.2.status
    | none => 8) := by
  unfold State.resetFail
  split <;> rfl

theorem ends_launch {s : State} {p lid : Nat} {l : Launch} (hpart : okPart p = true) (hreset : (s.part p).reset = 1) (hs : s.launches = [(lid, l)]) (hl : l.part = p)
    (hphase : l.phase = .running) (hfail : l.fail = none) (hsems : ∀ e ∈ (s.part p).sems, e.2.waiters = []) :
    Does (.partResetEpoch p) s [.free, .regs, .cores, .launches, .parts, .dies, .copies, .links, .dbg, .log] fun t =>
      ∃ x, t.launch? lid = some x ∧ x.phase = .ended ∧ x.finals = [] ∧ (∀ q, (t.core q).has lid = false) ∧
        x.fail.map (·.status) = some (match l.replay.bind (·.first) with
          | some f => f.2.status
          | none => 8) := by
  have hp : p < 64 := of_decide_eq_true hpart
  have hcommits : s.commits p = false := by
    unfold State.commits
    rw [hs]
    simp [hphase]
  refine .intro (exec_partResetEpoch hpart) (chg_resetEpoch s p).1 ?_
  rw [resetEpoch_eq hreset hcommits, endLaunches_only ((launches_epochRaised s p).trans hs) hl hphase]
  have hstop : ((s.epochRaised p).stopLaunch lid false).launches = [(lid, l)] :=
    ((chg_stopLaunch _ _ _).1.launches_eq (by decide)).trans ((launches_epochRaised s p).trans hs)
  have hsems' : (((s.epochRaised p).stopLaunch lid false).part p).sems = (s.part p).sems := by
    rw [(chg_stopLaunch _ _ _).1.part_eq (by decide), State.epochRaised, sems_stopSweep, (chg_abandonHangs _ p).1.part_eq (by decide)]
    rfl
  have hend := endByReset_only hstop hl hphase hfail (by rw [hsems']; exact hsems)
  have hcore : ∀ q, ((((s.epochRaised p).stopLaunch lid false).endByReset lid).core q).has lid = false := fun q => by
    rw [(chg_endByReset _ _).1.core_eq (by decide)]
    exact has_stopLaunch _ lid false q
  generalize ((s.epochRaised p).stopLaunch lid false) = u at *
  have hended := ended_dropUnsent ((u.endByReset lid).modPart p fun y => { y with reset := 2, resetGt := s.now, coll := [] }) p
  have hgone := (calm_dropUnsent hp ((u.endByReset lid).modPart p fun y => { y with reset := 2, resetGt := s.now, coll := [] }) p).gone lid
  obtain ⟨x, hx, hxphase, hxfinals, hxfail⟩ := hended lid _ hend rfl rfl
  refine ⟨x, ?_, hxphase, hxfinals, fun q => hgone q (hcore q), ?_⟩
  · unfold State.launch?
    rw [hx]
    exact if_pos rfl
  · rw [hxfail]
    exact congrArg some (status_resetFail u l)

end Sys2Proof.Machine
end

section
namespace Sys2Proof.Machine

/-! Dies whose partitions have all reached step 4 are reset (R492, R493): no partition's step changes. -/

def StepKept (p : Nat) (s t : State) : Prop := (t.part p).reset = (s.part p).reset

section
variable {p : Nat} {s t u : State}

theorem StepKept.trans (h : StepKept p s t) (k : StepKept p t u) : StepKept p s u := Eq.trans k h

theorem StepKept.of_touches {L : List Fld} (h : Touches L s t) (hL : Fld.parts ∉ L) : StepKept p s t := congrArg Part.reset (h.part_eq hL p)

theorem StepKept.ite {c : Prop} [Decidable c] (h : StepKept p s t) (k : StepKept p s u) : StepKept p s (if c then t else u) := by
  split
  · exact h
  · exact k

theorem StepKept.foldl {α : Type} {f : State → α → State} (h : StepKept p s t) (hf : ∀ t a, StepKept p t (f t a)) (l : List α) : StepKept p s (l.foldl f t) := by
  induction l generalizing t with
  | nil => exact h
  | cons a l ih => exact ih (h.trans (hf t a))

end

section
variable {p : Nat} (hp : p < 64)
include hp

theorem step_refuseMsg (s : State) (d : Nat) (m : Msg) (reason : Nat) : StepKept p s (s.refuseMsg d m reason) := (calm_refuseMsg hp s d m reason).reset

theorem step_reroute (s : State) (n : Nat) (m : Msg) : StepKept p s (s.reroute n m) := by
  unfold State.reroute
  dsimp only
  refine .ite (step_refuseMsg hp s _ _ _) ?_
  split
  · exact .of_touches (chg_queueMsg s _ _).1 (by decide)
  · exact StepKept.trans (.of_touches (chg_countReg s _ _).1 (by decide)) (step_refuseMsg hp _ _ _ _)

theorem step_loseMsg (s : State) (n : Nat) (m : Msg) : StepKept p s (s.loseMsg n m) :=
  StepKept.trans (.of_touches (chg_countReg s _ _).1 (by decide)) (step_refuseMsg hp _ _ _ _)

theorem step_goDown (s : State) (n st : Nat) : StepKept p s (s.goDown n st) := by
  have hstate : ∀ f, StepKept p s ((s.setLinkState n st).modLink n f) := fun f =>
    StepKept.trans (.of_touches (chg_setLinkState s n st).1 (by decide)) (.of_touches (chg_modLink _ n f).1 (by decide))
  have hend : ∀ u d, StepKept p s u → StepKept p s ((u.notifyPeers d).retime true) := fun u d h =>
    (h.trans (.of_touches (chg_notifyPeers u d).1 (by decide))).trans (.of_touches (chg_retime _ true).1 (by decide))
  unfold State.goDown
  dsimp only
  exact hend _ _ (.ite (((hstate _).foldl (fun t m => step_reroute hp t n m) _).trans (.of_touches (chg_post _ _ _).1 (by decide)))
    ((hstate _).foldl (fun t m => step_reroute hp t n m) _))

theorem step_loseTunnel (s : State) (n k : Nat) : StepKept p s (s.loseTunnel n k) :=
  StepKept.foldl (.of_touches (chg_modLink s n _).1 (by decide)) (fun t m => step_loseMsg hp t n m) _

theorem step_takeDown (s : State) (n st : Nat) : StepKept p s (s.takeDown n st) :=
  .ite (StepKept.foldl (step_goDown hp s n st) (fun t k => step_loseTunnel hp t n k) _) (.of_touches (chg_setLinkState s n st).1 (by decide))

omit hp in
theorem step_relight (s : State) : StepKept p s s.relight := by
  refine StepKept.foldl (t := s) rfl (fun t q => ?_) _
  by_cases hq : p = q
  · subst hq
    obtain ⟨b, hb⟩ := part_partLampUpdate t p
    unfold StepKept
    rw [hb]
  · have hirq : StepKept p t ((t.setBit (partStat q) 0 (t.partReady q)).partIrq q) :=
      StepKept.trans (.of_touches (chg_setBit t _ _ _).1 (by decide)) (.of_touches (chg_partIrq _ q).1 (by decide))
    refine .ite rfl (.ite (hirq.trans ?_) hirq)
    unfold StepKept
    rw [State.part_setReg, State.part_modPart_ne _ _ hq]

theorem step_resetDie (s : State) (d : Nat) : StepKept p s (s.resetDie d) := by
  have hlinks : StepKept p s ((upTo 12).foldl (fun t i => t.takeDown (12 * d + i) lsDisabled) s) :=
    StepKept.foldl (t := s) rfl (fun t i => step_takeDown hp t _ _) _
  have hlamp : ∀ (t : State) i, StepKept p t (if t.lamp i then (t.setLamp i false).traceLamp i false else t) := fun t i =>
    .ite (StepKept.trans (.of_touches (chg_setLamp t i false).1 (by decide)) (.of_touches (chg_traceLamp _ i false).1 (by decide))) rfl
  exact ((hlinks.trans (.of_touches (chg_clearDie _ d).1 (by decide))).foldl hlamp _).trans (step_relight _)

theorem step_dieResets (s : State) : StepKept p s s.dieResets :=
  StepKept.foldl (t := s) rfl (fun t d => .ite (step_resetDie hp t d) rfl) _

end

theorem remote_done {s : State} {p : Nat} (hpart : okPart p = true) (hreset : (s.part p).reset = 3) (hold : s.oldRequests p = false) :
    Does (.partResetRemoteDone p) s [.gt, .out, .regs, .mem, .memEpoch, .poison, .cores, .launches, .parts, .dies, .chans, .copies, .links, .host, .boot, .dbg, .log]
      fun t => (t.part p).reset = 4 := by
  have hexec : exec (.partResetRemoteDone p) s = .next (s.modPart p fun y => { y with reset := 4 }).dieResets := by
    show execPartResetRemoteDone p s = _
    unfold execPartResetRemoteDone
    rw [withUnit_ok hpart, if_pos ⟨hreset, hold⟩]
  refine .intro hexec (((chg_modPart s p _).1.mono (subF_of rfl)).trans (chg_dieResets _).1) ?_
  have hkept := step_dieResets (of_decide_eq_true hpart) (s.modPart p fun y => { y with reset := 4 })
  unfold StepKept at hkept
  rw [hkept, State.part_modPart_self]

end Sys2Proof.Machine
end

section
namespace Sys2Proof.Machine

/-! Launches that end leave no new ones (R305, R492). -/

def NoNew (s t : State) : Prop := ∀ i, s.launch? i = none → t.launch? i = none

section
variable {s t u : State}

theorem NoNew.refl (s : State) : NoNew s s := fun _ => id

theorem NoNew.trans (h : NoNew s t) (k : NoNew t u) : NoNew s u := fun i => k i ∘ h i

theorem NoNew.of_touches {L : List Fld} (h : Touches L s t) (hL : Fld.launches ∉ L) : NoNew s t := fun i hi => (h.launch_eq hL i).trans hi

theorem NoNew.ite {c : Prop} [Decidable c] (h : NoNew s t) (k : NoNew s u) : NoNew s (if c then t else u) := by
  split
  · exact h
  · exact k

theorem NoNew.foldl {α : Type} {f : State → α → State} (h : NoNew s t) (hf : ∀ t a, NoNew t (f t a)) (l : List α) : NoNew s (l.foldl f t) := by
  induction l generalizing t with
  | nil => exact h
  | cons a l ih => exact ih (h.trans (hf t a))

theorem NoNew.foldl_snd {α β : Type} {f : β × State → α → β × State} {x : β × State} (h : NoNew s x.2) (hf : ∀ x a, NoNew x.2 (f x a).2) (l : List α) :
    NoNew s (l.foldl f x).2 := by
  induction l generalizing x with
  | nil => exact h
  | cons a l ih => exact ih (h.trans (hf x a))

/-- A change of every launch under its number. -/
theorem noNew_map {s t : State} {g : Nat × Launch → Launch} (h : t.launches = s.launches.map fun e => (e.1, g e)) : NoNew s t := fun i hi => by
  have hfind := tfind_map (fun k x => g (k, x)) s.launches i
  unfold State.launch? at hi ⊢
  rw [h]
  exact hfind.trans (by rw [hi]; rfl)

end

theorem noNew_modLaunch (s : State) (i : Nat) (f : Launch → Launch) : NoNew s (s.modLaunch i f) := fun j hj => by
  unfold State.modLaunch
  split
  · next x hx =>
    have hne : j ≠ i := by
      rintro rfl
      rw [hj] at hx
      cases hx
    rw [State.launch_setLaunch_ne _ _ hne]
    exact hj
  · exact hj

theorem noNew_delLaunch (s : State) (i : Nat) : NoNew s (s.delLaunch i) := fun j hj => by
  by_cases h : j = i
  · rw [h, State.launch_delLaunch_self]
  · rw [State.launch_delLaunch_ne _ h]
    exact hj

/-! Semaphores and channels that a launch leaves (R209, R313, R314). -/

theorem noNew_semTake (s : State) (p lid : Nat) (ws : List (Nat × Nat)) : NoNew s (s.semTake p lid ws) :=
  (NoNew.foldl (.refl s) (fun t _ => .of_touches (chg_setSem t _ _ _).1 (by decide)) ws).trans (noNew_modLaunch _ _ _)

theorem noNew_semServe (p fuel : Nat) : ∀ (s : State) (n : Nat), NoNew s (s.semServe p n fuel) := by
  induction fuel with
  | zero => exact fun s _ => .refl s
  | succ fuel ih =>
    intro s n
    unfold State.semServe
    split
    · exact .refl s
    · next lid _ =>
      split
      · exact (NoNew.of_touches (chg_semLeave s p lid).1 (by decide)).trans (ih _ _)
      · next l _ =>
        refine .ite ?_ (.ite ?_ (.refl s))
        · exact ((noNew_semTake s p lid l.wants).foldl (fun t w => .ite (.refl t) (ih t _)) _).trans (ih _ _)
        · have hjoin : NoNew s (l.wants.foldl (fun t w => t.semJoin p w.1 lid) s) :=
            NoNew.foldl (.refl s) (fun t _ => .of_touches (chg_semJoin t _ _ _).1 (by decide)) _
          exact .ite (hjoin.trans (ih _ _)) hjoin

theorem noNew_semQuit (s : State) (p lid : Nat) : NoNew s (s.semQuit p lid) :=
  NoNew.foldl (.of_touches (chg_semLeave s p lid).1 (by decide)) (fun t n => noNew_semServe p _ t n) _

theorem noNew_semReturn (s : State) (p lid : Nat) : NoNew s (s.semReturn p lid) := by
  unfold State.semReturn
  split
  · exact .refl s
  · exact NoNew.foldl (noNew_modLaunch s _ _) (fun t w => (NoNew.of_touches (chg_setSem t _ _ _).1 (by decide)).trans (noNew_semServe p _ _ _)) _

theorem noNew_endProducer (s : State) (p lid : Nat) (ok : Bool) : NoNew s (s.endProducer p lid ok) := by
  unfold State.endProducer
  exact noNew_map rfl

theorem noNew_release (s : State) (lid : Nat) (l : Launch) : NoNew s (s.release lid l) := by
  have hstop : NoNew s (if l.fail.isNone then s.purgeCopy lid false else if (s.part l.part).reset = 0 then s.purgeLaunch lid false else s.stopLaunch lid false) :=
    .ite (.of_touches (chg_purgeCopy s _ _).1 (by decide)) (.ite (.of_touches (chg_purgeLaunch s _ _).1 (by decide)) (.of_touches (chg_stopLaunch s _ _).1 (by decide)))
  have hsems : ∀ t, NoNew s t → NoNew s (if l.fail.isNone then t.semQuit l.part lid else (t.semQuit l.part lid).semReturn l.part lid) := fun t h =>
    .ite (h.trans (noNew_semQuit t _ _)) ((h.trans (noNew_semQuit t _ _)).trans (noNew_semReturn _ _ _))
  have hchans := ((hsems _ hstop).trans (.of_touches (chg_freeItems _ l.part lid).1 (by decide))).trans (noNew_endProducer _ l.part lid l.fail.isNone)
  exact ((hchans.trans (.of_touches (chg_freeContext _ lid).1 (by decide))).trans (.of_touches (chg_freePreload _ lid l).1 (by decide))).trans
    (.of_touches (chg_freeRegion _ l.cqBase).1 (by decide))

/-! Its record (R306). -/

theorem noNew_writeMem (s : State) (a : Nat) (bs : List Byte) : NoNew s (s.writeMem a bs) := by
  unfold State.writeMem
  exact .ite (.refl s) (noNew_map rfl)

theorem noNew_writeAt (s : State) (g : Target) (bs : List Byte) : NoNew s (s.writeAt g bs) := by
  unfold State.writeAt
  split
  · exact noNew_writeMem s _ _
  · exact fun _ => id
  · exact .refl s

theorem noNew_storeBytes (s : State) (p va : Nat) (bs : List Byte) (ordered : Bool) : NoNew s (s.storeBytes p va bs ordered).2 := by
  have hspan : NoNew s (s.translSpan p va bs.length .write).2 := .of_touches (chg_translSpan s _ _ _ _ _).1 (by decide)
  unfold State.storeBytes
  split
  · next h => rw [h] at hspan; exact hspan
  · next h =>
    rw [h] at hspan
    dsimp only
    split
    · exact hspan
    · change NoNew s (List.foldl _ (bs, _) _).2
      refine NoNew.foldl_snd (x := (bs, _)) hspan (fun x e => ?_) _
      dsimp only
      split
      · exact (noNew_writeAt _ _ _).trans (.of_touches (chg_l2Touch _ _ _ _ _ _ _).1 (by decide))
      · exact noNew_writeAt _ _ _

theorem noNew_callDone (s : State) (c : Nat) : NoNew s (s.callDone c) := by
  unfold State.callDone
  split
  · exact .refl s
  · split
    · exact .refl s
    · exact .ite (noNew_modLaunch s _ _) (.refl s)

/-! Completion (R305). -/

/-- The state once a launch's record is written, or its call knows of it. -/
def State.recorded (s : State) (lid : Nat) (l : Launch) : State :=
  let t := s.release lid l
  let q := t.queue l.qk
  match l.call with
  | some (c, idx) => t.modLaunch c fun x => { x with replay := x.replay.map fun (r : Replay) => r.entryDone lid idx l.fail (eNodep l.entry) }
  | none =>
    let w := t.storeBytes l.part (q.cpl + 32 * (l.seq % q.size)) (l.record t.now) true
    if w.1 || (t.part l.part).reset != 0 then w.2 else w.2.haltQueue l.qk rsRing

/-- The launch is gone from its queue. -/
def State.taken (s : State) (lid : Nat) (l : Launch) : State := (s.modQueue l.qk fun q => q.account l).delLaunch lid

/-- What follows: the interrupt, the ends on links and engines, versions, and the call. -/
def State.wound (s : State) (lid : Nat) (l : Launch) : State :=
  let v := if eIrq l.entry then s.irq (s.vfOf l.part) (l.queue % 48) else s
  let v := (v.endOnLinks lid l).traceLaunch (engFe (v.leadDie l.part)) tyEnd l l.status
  let v := if l.replay.isSome then v.freeVersions l.part else v
  let v := match l.call with
    | some (c, _) => v.callDone c
    | none => v
  v.noteWants l.part

theorem complete_none {s : State} {lid : Nat} (h : s.launch? lid = none) : s.complete lid = s := by
  unfold State.complete
  rw [h]

theorem complete_some {s : State} {lid : Nat} {l : Launch} (h : s.launch? lid = some l) : s.complete lid = ((s.recorded lid l).taken lid l).wound lid l := by
  unfold State.complete
  rw [h]
  rfl

theorem noNew_recorded (s : State) (lid : Nat) (l : Launch) : NoNew s (s.recorded lid l) := by
  unfold State.recorded
  split
  · exact (noNew_release s lid l).trans (noNew_modLaunch _ _ _)
  · have hstore := (noNew_release s lid l).trans (noNew_storeBytes (s.release lid l) l.part
      (((s.release lid l).queue l.qk).cpl + 32 * (l.seq % ((s.release lid l).queue l.qk).size)) (l.record (s.release lid l).now) true)
    exact .ite hstore (hstore.trans (.of_touches (chg_haltQueue _ _ _).1 (by decide)))

theorem noNew_taken (s : State) (lid : Nat) (l : Launch) : NoNew s (s.taken lid l) :=
  (NoNew.of_touches (chg_modQueue s _ _).1 (by decide)).trans (noNew_delLaunch _ lid)

theorem noNew_wound (s : State) (lid : Nat) (l : Launch) : NoNew s (s.wound lid l) := by
  have hirq : NoNew s (if eIrq l.entry then s.irq (s.vfOf l.part) (l.queue % 48) else s) := .ite (.of_touches (chg_irq s _ _).1 (by decide)) (.refl s)
  have hends := fun d => (hirq.trans (.of_touches (chg_endOnLinks _ lid l).1 (by decide))).trans (.of_touches (chg_traceLaunch _ d tyEnd l l.status).1 (by decide))
  have hvers := fun d => NoNew.ite (c := l.replay.isSome = true) ((hends d).trans (.of_touches (chg_freeVersions _ l.part).1 (by decide))) (hends d)
  unfold State.wound
  dsimp only
  refine .trans ?_ (.of_touches (chg_noteWants _ l.part).1 (by decide))
  split
  · exact (hvers _).trans (noNew_callDone _ _)
  · exact hvers _

theorem noNew_complete (s : State) (lid : Nat) : NoNew s (s.complete lid) := by
  cases h : s.launch? lid with
  | none => rw [complete_none h]; exact .refl s
  | some l => rw [complete_some h]; exact ((noNew_recorded s lid l).trans (noNew_taken _ lid l)).trans (noNew_wound _ lid l)

/-- A launch that completes is gone. -/
theorem complete_gone (s : State) (lid : Nat) : (s.complete lid).launch? lid = none := by
  cases h : s.launch? lid with
  | none => rw [complete_none h]; exact h
  | some l => rw [complete_some h]; exact noNew_wound _ lid l lid (State.launch_delLaunch_self _ lid)

/-! Partition reset's third step (R492). -/

theorem completes_gone {es : List (Nat × Launch)} {s : State} {i : Nat} (h : i ∈ es.map (·.1) ∨ s.launch? i = none) :
    (es.foldl (fun t e => t.complete e.1) s).launch? i = none := by
  induction es generalizing s with
  | nil =>
    rcases h with h | h
    · cases h
    · exact h
  | cons e es ih =>
    refine ih ?_
    rcases h with h | h
    · rcases List.mem_cons.1 h with rfl | h
      · exact .inr (complete_gone s e.1)
      · exact .inl h
    · exact .inr (noNew_complete s e.1 i h)

theorem exec_partResetSettle {s : State} {p : Nat} (hpart : okPart p = true) : exec (.partResetSettle p) s = .next (s.resetSettle p) := by
  show execPartResetSettle p s = _
  unfold execPartResetSettle
  rw [withUnit_ok hpart]

/-- The launches of a partition complete, calls first. -/
def State.settleAll (s : State) (p : Nat) : State :=
  let mine := s.launches.filter fun e => e.2.part == p
  (mine.filter fun e => e.2.call.isNone).foldl (fun t e => t.complete e.1) ((mine.filter fun e => e.2.call.isSome).foldl (fun t e => t.complete e.1) s)

theorem resetSettle_eq {s : State} {p : Nat} (hreset : (s.part p).reset = 2) : s.resetSettle p = (s.settleAll p).modPart p fun y => { y with reset := 3 } := if_pos hreset

theorem settles_all {s : State} {p : Nat} (hpart : okPart p = true) (hreset : (s.part p).reset = 2) :
    Does (.partResetSettle p) s [.free, .out, .regs, .mem, .poison, .cores, .launches, .queues, .parts, .dies, .chans, .copies, .links, .host, .dbg] fun t =>
      (t.part p).reset = 3 ∧ ∀ i l, s.launch? i = some l → l.part = p → t.launch? i = none := by
  refine .intro (exec_partResetSettle hpart) (chg_resetSettle s p).1 ?_
  rw [resetSettle_eq hreset]
  refine ⟨by rw [State.part_modPart_self], fun i l hl hp => ?_⟩
  have hmine : (i, l) ∈ s.launches.filter fun e => e.2.part == p := List.mem_filter.2 ⟨mem_of_tfind hl, by simpa using hp⟩
  cases hcall : l.call.isSome with
  | true => exact completes_gone (.inr (completes_gone (.inl (List.mem_map.2 ⟨_, List.mem_filter.2 ⟨hmine, hcall⟩, rfl⟩))))
  | false => exact completes_gone (.inl (List.mem_map.2 ⟨_, List.mem_filter.2 ⟨hmine, by simpa using hcall⟩, rfl⟩))

/-! The record of a partition's only launch (R306, R492). -/

theorem leBytes_length (n v : Nat) : (leBytes n v).length = n := by
  induction n generalizing v with
  | zero => rfl
  | succ n ih => exact congrArg (· + 1) (ih _)

theorem record_length (l : Launch) (now : Nat) : (l.record now).length = 32 := by
  unfold Launch.record
  simp [leBytes_length]

theorem mem_writeMem {s : State} {bs : List Byte} (a : Nat) (hbs : bs ≠ []) : (s.writeMem a bs).mem = msetBytes s.mem a bs := by
  unfold State.writeMem
  rw [if_neg hbs]
  rfl

/-- A record that lies in one piece of HBM is written there. -/
theorem storeBytes_piece {s v : State} {p va a : Nat} {bs : List Byte} {tr : Tr} (hbs : bs ≠ []) (hspan : s.translSpan p va bs.length .write = (.ok [(tr, bs.length)], v))
    (htr : tr.tgt = .hbm a) (hsees : v.dieSees (v.ent p).lead (.hbm a) = true) :
    (s.storeBytes p va bs true).1 = true ∧ (s.storeBytes p va bs true).2.mem = msetBytes v.mem a bs := by
  have hcut : v.piecesCut (v.ent p).lead [(tr, bs.length)] = false := by
    unfold State.piecesCut
    simp [htr, hsees]
  unfold State.storeBytes
  rw [hspan]
  dsimp only
  rw [hcut, if_neg (by decide)]
  refine ⟨rfl, ?_⟩
  simp only [List.foldl_cons, List.foldl_nil, htr, List.take_length]
  exact ((chg_l2Touch _ _ _ _ _ _ _).1.2 .mem (by decide)).trans (mem_writeMem a hbs)

theorem bytes_of_msetBytes {t : State} {m : List Host.Cell} {a : Nat} {bs : List Byte} (h : t.mem = msetBytes m a bs) : t.bytes a bs.length = bs := by
  have hbytes : t.bytes a bs.length = (List.range bs.length).map fun i => t.byte (a + i) := rfl
  rw [hbytes]
  refine List.ext_getElem (by simp) fun i h1 h2 => ?_
  rw [List.getElem_map, List.getElem_range]
  unfold State.byte
  rw [h, mget_msetBytes_in _ _ _ _ h2, List.getElem?_eq_getElem h2]
  rfl

theorem wound_mem (s : State) (lid : Nat) {l : Launch} (hcall : l.call = none) : (s.wound lid l).mem = s.mem := by
  have hite : ∀ {c : Prop} [Decidable c] {a b : State} {m}, a.mem = m → b.mem = m → (if c then a else b).mem = m := fun ha hb => by
    split
    · exact ha
    · exact hb
  have hirq : (if eIrq l.entry then s.irq (s.vfOf l.part) (l.queue % 48) else s).mem = s.mem := hite ((chg_irq s _ _).1.2 .mem (by decide)) rfl
  have hends := fun d => ((chg_traceLaunch _ d tyEnd l l.status).1.2 .mem (by decide)).trans (((chg_endOnLinks _ lid l).1.2 .mem (by decide)).trans hirq)
  unfold State.wound
  rw [hcall]
  exact ((chg_noteWants _ l.part).1.2 .mem (by decide)).trans (hite (((chg_freeVersions _ l.part).1.2 .mem (by decide)).trans (hends _)) (hends _))

/-- A table in which nothing is found is empty. -/
theorem eq_nil_of_tfind {α : Type} {t : Tbl α} (h : ∀ k, tfind t k = none) : t = [] := by
  cases t with
  | nil => rfl
  | cons e t =>
    have he := h e.1
    unfold tfind at he
    rw [if_pos rfl] at he
    cases he

theorem settles_one {s v : State} {p lid a : Nat} {l : Launch} {tr : Tr} (hpart : okPart p = true) (hreset : (s.part p).reset = 2) (hs : s.launches = [(lid, l)])
    (hl : l.part = p) (hcall : l.call = none)
    (hspan : (s.release lid l).translSpan p ((s.queue l.qk).cpl + 32 * (l.seq % (s.queue l.qk).size)) 32 .write = (.ok [(tr, 32)], v)) (htr : tr.tgt = .hbm a)
    (hsees : v.dieSees (s.leadDie p) (.hbm a) = true) :
    Does (.partResetSettle p) s [.free, .out, .regs, .mem, .poison, .cores, .launches, .queues, .parts, .dies, .chans, .copies, .links, .host, .dbg] fun t =>
      (t.part p).reset = 3 ∧ t.launches = [] ∧ t.bytes a 32 = l.record s.now ∧ ∀ i, i < a ∨ a + 32 ≤ i → mget? t.mem i = mget? s.mem i := by
  have hfind : s.launch? lid = some l := by
    unfold State.launch?
    rw [hs]
    exact if_pos rfl
  have hsettle : s.settleAll p = s.complete lid := by
    unfold State.settleAll
    rw [hs]
    simp [hl, hcall]
  have hrelease := (chg_release s lid l).1
  have hv : v = ((s.release lid l).translSpan p ((s.queue l.qk).cpl + 32 * (l.seq % (s.queue l.qk).size)) 32 .write).2 := by rw [hspan]
  have htransl : Touches [.free, .parts] (s.release lid l) v := by
    rw [hv]
    exact (chg_translSpan _ _ _ _ _ _).1
  have hmem : v.mem = s.mem := (htransl.2 .mem (by decide)).trans (hrelease.2 .mem (by decide))
  have hlead : (v.ent p).lead = s.leadDie p := by
    unfold State.leadDie State.ent
    rw [htransl.chart_eq (by decide), hrelease.chart_eq (by decide)]
  have hnow : (s.release lid l).now = s.now := by
    have hgt : (s.release lid l).gt = s.gt := hrelease.2 .gt (by decide)
    unfold State.now
    rw [hgt]
  have hne : l.record s.now ≠ [] := by
    intro h
    have := record_length l s.now
    rw [h] at this
    cases this
  have hstore := storeBytes_piece (bs := l.record s.now) hne (by rw [record_length]; exact hspan) htr (by rw [hlead]; exact hsees)
  obtain ⟨hok, hwritten⟩ := hstore
  have hrecorded : (s.recorded lid l).mem = msetBytes s.mem a (l.record s.now) := by
    unfold State.recorded
    rw [hcall]
    dsimp only
    rw [hrelease.queue_eq (by decide), hl, hnow, hok, Bool.true_or, if_pos rfl, hwritten, hmem]
  have htmem : (s.complete lid).mem = msetBytes s.mem a (l.record s.now) := by
    rw [complete_some hfind, wound_mem _ _ hcall]
    exact hrecorded
  refine .intro (exec_partResetSettle hpart) (chg_resetSettle s p).1 ?_
  rw [resetSettle_eq hreset, hsettle]
  refine ⟨by rw [State.part_modPart_self], eq_nil_of_tfind fun i => ?_, ?_, fun i hi => ?_⟩
  · show (s.complete lid).launch? i = none
    by_cases hi : i = lid
    · rw [hi, complete_gone]
    · refine noNew_complete s lid i ?_
      unfold State.launch? tfind
      rw [hs]
      exact if_neg (Ne.symm hi)
  · have := bytes_of_msetBytes (t := (s.complete lid).modPart p fun y => { y with reset := 3 }) htmem
    rwa [record_length] at this
  · show mget? (s.complete lid).mem i = _
    rw [htmem, mget_msetBytes_out _ _ _ _ (by rw [record_length]; exact hi)]

/-- Settles O34, one lemma for each step of a reset: its beginning, the epoch, the records, the answers of other modules, and its end. -/
theorem partitionResetsClearTheirState : Obligations.PartitionResetsClearTheirState :=
  ⟨fun _ _ hpart h hvalid hidle => begins_once hpart h hvalid hidle,
    fun _ _ hpart h hbusy => joins_reset hpart h hbusy,
    fun _ _ hpart hreset hcommits hnone => raises_epoch hpart hreset hcommits hnone,
    fun _ _ _ _ hpart hreset hs hl hphase hfail _ hsems _ _ => ends_launch hpart hreset hs hl hphase hfail hsems,
    fun _ _ hpart hreset => settles_all hpart hreset,
    fun _ _ _ _ _ _ _ hpart hreset hs hl hcall _ hspan htr hsees => settles_one hpart hreset hs hl hcall hspan htr hsees,
    fun _ _ hpart _ hold => remote_done_waits hpart hold,
    fun _ _ hpart hreset hold => remote_done hpart hreset hold,
    fun _ _ hpart hreset happly hhold hdie hstaged hrekey => ends_clear hpart hreset happly hhold hdie hstaged hrekey,
    fun _ _ hpart hreset happly hhold hdie hstaged hrekey hvalid => ends_rekeyed hpart hreset happly hhold hdie hstaged hrekey hvalid⟩

end Sys2Proof.Machine
end

section
namespace Sys2Proof.Machine

/-! Queue commands (R295, R296, R315, R324, R496). -/

/-- A queue set as given, whatever else the watches note of its partition (R327). -/
theorem oneQueue_noteWants {s u : State} {k p : Nat} {x : Queue} (hself : u.queue k = x) (hothers : ∀ j, j ≠ k → u.queue j = s.queue j) :
    OneQueue s (u.noteWants p) k x :=
  ⟨hself ▸ queueBut_noteWants u p k, fun j hj => hothers j hj ▸ queueBut_noteWants u p j⟩

theorem oneQueue_setQueue (s : State) (k p : Nat) (x : Queue) : OneQueue s ((s.setQueue k x).noteWants p) k x :=
  oneQueue_noteWants (State.queue_setQueue_self _ _ _) fun _ hj => State.queue_setQueue_ne _ _ hj

theorem oneQueue_same (s : State) (k p : Nat) : OneQueue s (s.noteWants p) k (s.queue k) :=
  oneQueue_noteWants rfl fun _ _ => rfl

theorem touches_setQueue_noteWants (s : State) (k p : Nat) (x : Queue) : Touches [.queues] s ((s.setQueue k x).noteWants p) :=
  ((chg_setQueue s k x).trans (chg_noteWants _ p)).1

/-! Doorbells. -/

theorem exec_doorbell {s : State} {vf q p : Nat} (hvf : okVf vf = true) (hopen : s.vfOpen vf = true) (hq : q < 256) (hpart : s.vfPart vf = some p)
    (v : Word64) : exec (.dbTailWrite vf q v) s =
      .next (if q < (s.ent p).nqueue ∧ s.partUp p = true then (s.doorbell (qkey p q) v.toNat).noteWants p else s) := by
  show execDbTailWrite vf q v s = _
  unfold execDbTailWrite State.vfStores
  rw [withUnit_ok (by simp [hvf, hq]), atVf_of_open hopen, hpart]

theorem doorbell_in_range {s : State} {k v : Nat} (henable : qcEnable (s.queue k).cfg = true) (hhalt : (s.queue k).halted = false)
    (hreset : (s.queue k).resetting = false) (hnew : v ≠ (s.queue k).tail) (hlow : (s.queue k).tail ≤ v) (hroom : v ≤ (s.queue k).done + (s.queue k).size)
    (hlt : v < 2 ^ 48) : s.doorbell k v = s.setQueue k { s.queue k with tail := v } := by
  unfold State.doorbell
  dsimp only
  rw [henable, hhalt, hreset, if_neg (by simpa using hnew), if_neg (by omega)]

theorem doorbell_out_of_range {s : State} {k v : Nat} (henable : qcEnable (s.queue k).cfg = true) (hhalt : (s.queue k).halted = false)
    (hreset : (s.queue k).resetting = false) (hbad : v < (s.queue k).tail ∨ ((s.queue k).done + (s.queue k).size < v ∧ (s.queue k).tail ≠ v)) :
    s.doorbell k v = s.haltQueue k rsDoorbell := by
  unfold State.doorbell
  dsimp only
  rw [henable, hhalt, hreset, if_neg (by simp; omega), if_pos (by omega)]

theorem doorbell_of_idle {s : State} {k v : Nat} (h : qcEnable (s.queue k).cfg = false ∨ (s.queue k).halted = true ∨ (s.queue k).resetting = true ∨
    v = (s.queue k).tail) : s.doorbell k v = s := by
  unfold State.doorbell
  dsimp only
  rw [if_pos]
  rcases h with h | h | h | h <;> simp [h]

theorem queue_haltQueue_self (s : State) (k reason : Nat) :
    (s.haltQueue k reason).queue k = { s.queue k with halted := true, reason := BitVec.ofNat 8 reason } := by
  unfold State.haltQueue
  rw [(chg_irq _ _ _).1.queue_eq (by decide), State.queue_modQueue_self]

theorem queue_haltQueue_ne (s : State) {k j : Nat} (hj : j ≠ k) (reason : Nat) : (s.haltQueue k reason).queue j = s.queue j := by
  unfold State.haltQueue
  rw [(chg_irq _ _ _).1.queue_eq (by decide), State.queue_modQueue_ne _ _ hj]

/-- A die whose lamp is dark keeps its partition's front end down (R39, R487). -/
theorem partUp_of_dark {s : State} {p d : Nat} (hd : d ∈ entDies (s.ent p)) (hdark : s.lamp (lampDie d) = false) : s.partUp p = false := by
  have hall : ((entDies (s.ent p)).all fun d => s.lamp (lampDie d)) = false := by
    rw [List.all_eq_false]
    exact ⟨d, hd, by rw [hdark]; decide⟩
  unfold State.partUp
  rw [hall, Bool.and_false]

section
variable {s : State} {vf q p : Nat} {v : Word64} (hvf : okVf vf = true) (hopen : s.vfOpen vf = true) (hq : q < 256) (hpart : s.vfPart vf = some p)
include hvf hopen hq hpart

theorem doorbell_moves_tail (hheld : q < (s.ent p).nqueue) (hup : s.partUp p = true) (henable : qcEnable (s.queue (qkey p q)).cfg = true)
    (hhalt : (s.queue (qkey p q)).halted = false) (hreset : (s.queue (qkey p q)).resetting = false) (hlow : (s.queue (qkey p q)).tail ≤ v.toNat)
    (hroom : v.toNat ≤ (s.queue (qkey p q)).done + (s.queue (qkey p q)).size) (hlt : v.toNat < 2 ^ 48) :
    Does (.dbTailWrite vf q v) s [.queues] fun t => OneQueue s t (qkey p q) { s.queue (qkey p q) with tail := v.toNat } := by
  have hexec := exec_doorbell hvf hopen hq hpart v
  rw [if_pos ⟨hheld, hup⟩] at hexec
  by_cases hnew : v.toNat = (s.queue (qkey p q)).tail
  · rw [doorbell_of_idle (.inr (.inr (.inr hnew)))] at hexec
    exact .intro hexec (chg_noteWants s p).1 (hnew ▸ oneQueue_same s _ p)
  · rw [doorbell_in_range henable hhalt hreset hnew hlow hroom hlt] at hexec
    exact .intro hexec (touches_setQueue_noteWants s _ p _) (oneQueue_setQueue s _ p _)

theorem doorbell_halts (hheld : q < (s.ent p).nqueue) (hup : s.partUp p = true) (henable : qcEnable (s.queue (qkey p q)).cfg = true)
    (hhalt : (s.queue (qkey p q)).halted = false) (hreset : (s.queue (qkey p q)).resetting = false)
    (hbad : v.toNat < (s.queue (qkey p q)).tail ∨ ((s.queue (qkey p q)).done + (s.queue (qkey p q)).size < v.toNat ∧ (s.queue (qkey p q)).tail ≠ v.toNat)) :
    Does (.dbTailWrite vf q v) s [.out, .queues, .host] fun t =>
      OneQueue s t (qkey p q) { s.queue (qkey p q) with halted := true, reason := 0x10 } := by
  have hexec := exec_doorbell hvf hopen hq hpart v
  rw [if_pos ⟨hheld, hup⟩, doorbell_out_of_range henable hhalt hreset hbad] at hexec
  exact .intro hexec ((chg_haltQueue s _ _).trans ((chg_noteWants _ p).mono (subF_of rfl))).1
    (oneQueue_noteWants (queue_haltQueue_self s _ _) fun j hj => queue_haltQueue_ne s hj _)

theorem doorbell_of_idle_queue (hidle : qcEnable (s.queue (qkey p q)).cfg = false ∨ (s.queue (qkey p q)).halted = true ∨ (s.queue (qkey p q)).resetting = true) :
    Does (.dbTailWrite vf q v) s [.queues] fun t => ∀ j, QueueBut (s.queue j) (t.queue j) := by
  have hexec := exec_doorbell hvf hopen hq hpart v
  by_cases hup : q < (s.ent p).nqueue ∧ s.partUp p = true
  · rw [if_pos hup, doorbell_of_idle (by tauto)] at hexec
    exact .intro hexec (chg_noteWants s p).1 (queueBut_noteWants s p)
  · rw [if_neg hup] at hexec
    exact .intro hexec (.refl _ s) fun _ => rfl

theorem doorbell_of_dark_die {d : Nat} (hd : d ∈ entDies (s.ent p)) (hdark : s.lamp (lampDie d) = false) :
    Does (.dbTailWrite vf q v) s [] fun t => t = s := by
  have hexec := exec_doorbell hvf hopen hq hpart v
  rw [if_neg (by rw [partUp_of_dark hd hdark]; simp)] at hexec
  exact .stays hexec

end

/-! Configuration and commands. -/

theorem qcEnable_and (v : Word) : qcEnable (v &&& 0x1FFF) = qcEnable v := by
  unfold qcEnable
  rw [BitVec.getLsbD_and]
  simp

theorem and_and_cfg (v : Word) : (v &&& 0x1FFF) &&& 0xFFF = v &&& 0xFFF := by
  rw [BitVec.and_assoc]
  rfl

theorem configure_enabled {s : State} {k : Nat} (henable : qcEnable (s.queue k).cfg = true) (v : Word) :
    s.configure k v = if qcEnable v then s else s.setQueue k { s.queue k with cfg := v &&& 0x1FFF } := by
  unfold State.configure
  dsimp only
  rw [if_pos henable, qcEnable_and]

theorem configure_disabled {s : State} {k : Nat} (henable : qcEnable (s.queue k).cfg = false) (v : Word) :
    s.configure k v = if qcEnable v = true ∧ s.configBad k (v &&& 0x1FFF) = true then s.setQueue k { s.queue k with cfg := v &&& 0xFFF, reason := 0x12 }
      else s.setQueue k { s.queue k with cfg := v &&& 0x1FFF } := by
  unfold State.configure
  dsimp only
  rw [if_neg (by rw [henable]; decide), qcEnable_and, and_and_cfg]
  simp only [Bool.and_eq_true]
  rfl

section
variable {s : State} {vf k : Nat} (hvf : okVf vf = true) (hopen : s.vfOpen vf = true) (hsel : s.selQueue vf = some k)
include hvf hopen hsel

/-- What a command of an open function does to the queue that it selects. -/
theorem queueCommand_ok (body : State → Nat → State) :
    withUnit (okVf vf) (s.vfStores vf fun s => match s.selQueue vf with
      | some k => body s k
      | none => s) = .next (body s k) := by
  unfold State.vfStores
  rw [withUnit_ok hvf, atVf_of_open hopen, hsel]

theorem configuration_of_disabled_queue (henable : qcEnable (s.queue k).cfg = false) (v : Word) :
    Does (.vfQcfgWrite vf v) s [.queues] fun t =>
      (qcEnable v = true → s.configBad k (v &&& 0x1FFF) = true → OneQueue s t k { s.queue k with cfg := v &&& 0xFFF, reason := 0x12 }) ∧
      (qcEnable v = false ∨ s.configBad k (v &&& 0x1FFF) = false → OneQueue s t k { s.queue k with cfg := v &&& 0x1FFF }) := by
  have hexec : exec (.vfQcfgWrite vf v) s = .next ((s.configure k v).noteWants (k / 256)) :=
    queueCommand_ok hvf hopen hsel fun s k => (s.configure k v).noteWants (k / 256)
  rw [configure_disabled henable] at hexec
  by_cases hbad : qcEnable v = true ∧ s.configBad k (v &&& 0x1FFF) = true
  · rw [if_pos hbad] at hexec
    refine .intro hexec (touches_setQueue_noteWants s k _ _) ⟨fun _ _ => oneQueue_setQueue s k _ _, fun h => ?_⟩
    exact absurd h (by rw [hbad.1, hbad.2]; decide)
  · rw [if_neg hbad] at hexec
    exact .intro hexec (touches_setQueue_noteWants s k _ _) ⟨fun hen hb => absurd ⟨hen, hb⟩ hbad, fun _ => oneQueue_setQueue s k _ _⟩

theorem configuration_of_enabled_queue (henable : qcEnable (s.queue k).cfg = true) (v : Word) :
    Does (.vfQcfgWrite vf v) s [.queues] fun t => (qcEnable v = true → OneQueue s t k (s.queue k)) ∧
      (qcEnable v = false → OneQueue s t k { s.queue k with cfg := v &&& 0x1FFF }) := by
  have hexec : exec (.vfQcfgWrite vf v) s = .next ((s.configure k v).noteWants (k / 256)) :=
    queueCommand_ok hvf hopen hsel fun s k => (s.configure k v).noteWants (k / 256)
  rw [configure_enabled henable] at hexec
  by_cases hv : qcEnable v = true
  · rw [if_pos hv] at hexec
    exact .intro hexec (chg_noteWants s _).1 ⟨fun _ => oneQueue_same s k _, fun h => by simp [hv] at h⟩
  · rw [if_neg hv] at hexec
    exact .intro hexec (touches_setQueue_noteWants s k _ _) ⟨fun h => absurd h hv, fun _ => oneQueue_setQueue s k _ _⟩

theorem resume_clears_halted : Does (.qcmdResume vf) s [.queues] fun t => OneQueue s t k { s.queue k with halted := false } :=
  .intro (queueCommand_ok hvf hopen hsel fun s k => (s.modQueue k fun q => { q with halted := false }).noteWants (k / 256))
    (touches_setQueue_noteWants s k _ _) (oneQueue_setQueue s k _ _)

theorem clrfail_clears_failed : Does (.qcmdClrfail vf) s [.queues] fun t => OneQueue s t k { s.queue k with failed := false } :=
  .intro (queueCommand_ok hvf hopen hsel fun s k => (s.modQueue k fun q => { q with failed := false }).noteWants (k / 256))
    (touches_setQueue_noteWants s k _ _) (oneQueue_setQueue s k _ _)

end

/-! Resets of queues (R496). -/

/-- A queue's reset, while none of its launches replays a route: each launch goes, and no call is left to end. -/
theorem beginQueueReset_eq {s u : State} {k : Nat} (hreset : (s.queue k).resetting = false)
    (hu : (s.ofQueue k).foldl (fun t e => t.resetLaunch e.1) (s.setQueue k { s.queue k with resetting := true, cur := none }) = u)
    (hcalls : ∀ e ∈ u.launches, e.2.qk = k → e.2.replay = none) : s.beginQueueReset k = u.noteWants (k / 256) := by
  have hstop : (u.launches.map fun e => (e.1, if e.2.qk = k then e.2.stopReplay else e.2)) = u.launches := by
    refine (List.map_congr_left fun e he => ?_).trans (List.map_id _)
    split
    · next hk => rw [Launch.stopReplay, hcalls e he hk]; rfl
    · rfl
  have hreplays : u.replaysOf k = [] := by
    unfold State.replaysOf State.ofQueue
    rw [List.filter_eq_nil_iff.mpr]
    · rfl
    · intro e he
      rw [List.mem_filter] at he
      simp [hcalls e he.1 (by simpa using he.2)]
  unfold State.beginQueueReset
  dsimp only
  rw [if_neg (by rw [hreset]; decide)]
  have hof : (s.setQueue k { s.queue k with resetting := true, cur := none }).ofQueue k = s.ofQueue k := rfl
  rw [hof, hu, hstop]
  show ((u.replaysOf k).foldl _ u).noteWants _ = _
  rw [hreplays]
  rfl

theorem reset_of_queue_without_launches {s : State} {vf k : Nat} (hvf : okVf vf = true) (hopen : s.vfOpen vf = true) (hsel : s.selQueue vf = some k)
    (hreset : (s.queue k).resetting = false) (hnone : s.ofQueue k = []) :
    Does (.qcmdReset vf) s [.launches, .queues] fun t => QueueBut { s.queue k with resetting := true, cur := none } (t.queue k) ∧ t.launches = s.launches := by
  have hcalls : ∀ e ∈ s.launches, e.2.qk = k → e.2.replay = none := fun e he hk =>
    absurd (beq_iff_eq.mpr hk) (List.filter_eq_nil_iff.mp hnone e he)
  have hbegin := beginQueueReset_eq (k := k) (u := s.setQueue k { s.queue k with resetting := true, cur := none }) hreset (by rw [hnone]; rfl) hcalls
  refine .intro ((queueCommand_ok hvf hopen hsel State.beginQueueReset).trans (congrArg _ hbegin))
    ((touches_setQueue_noteWants s k _ _).mono (subF_of rfl)) ⟨(oneQueue_setQueue s k _ _).1, ?_⟩
  exact (touches_setQueue_noteWants s k _ _).launches_eq (by decide)

theorem resetLaunch_killable {s : State} {lid : Nat} {l : Launch} (hl : s.launch? lid = some l) (hrun : l.phase = .running) (hkill : l.killable = true)
    (hstart : l.unstarted = false) : s.resetLaunch lid = s.beginKill lid l := by
  have hwork : eType l.entry ≠ tyWait := fun h => by
    simp [Launch.killable, Launch.isWork, h, tyWait] at hkill
  unfold State.resetLaunch
  rw [hl]
  dsimp only
  rw [hrun]
  dsimp only
  rw [if_neg hwork, if_pos hkill, if_neg (by rw [hstart]; decide)]

theorem launches_beginKill_only {s : State} {lid : Nat} {l : Launch} (hs : s.launches = [(lid, l)]) :
    (s.beginKill lid l).launches = [(lid, { l with phase := .killing })] := by
  have htrace := (chg_traceLaunch s (engFe (s.leadDie l.part)) tyKill l 0).1.launches_eq (by decide)
  exact (modLaunch_only (htrace.trans hs) _).trans (by rw [if_pos rfl])

theorem reset_of_queue_kills {s : State} {vf k lid : Nat} {l : Launch} (hvf : okVf vf = true) (hopen : s.vfOpen vf = true) (hsel : s.selQueue vf = some k)
    (hreset : (s.queue k).resetting = false) (hof : s.ofQueue k = [(lid, l)]) (honly : s.launches = [(lid, l)]) (hrun : l.phase = .running)
    (hkill : l.killable = true) (hstart : l.unstarted = false) (hreplay : l.replay = none) :
    Does (.qcmdReset vf) s [.regs, .launches, .queues, .dbg] fun t => (t.queue k).resetting = true ∧ t.launch? lid = some { l with phase := .killing } := by
  let w := s.setQueue k { s.queue k with resetting := true, cur := none }
  have hw : w.launches = [(lid, l)] := honly
  have hlaunch : w.launch? lid = some l := by
    unfold State.launch? tfind
    rw [hw]
    exact if_pos rfl
  have hlaunches := launches_beginKill_only hw
  have hcalls : ∀ e ∈ (w.beginKill lid l).launches, e.2.qk = k → e.2.replay = none := by
    rw [hlaunches]
    intro e he _
    rw [List.mem_singleton.mp he]
    exact hreplay
  have hbegin := beginQueueReset_eq (k := k) hreset (u := w.beginKill lid l) (by
    rw [hof]
    exact resetLaunch_killable hlaunch hrun hkill hstart) hcalls
  have hkilled := chg_beginKill w lid l
  have hnote := chg_noteWants (w.beginKill lid l) (k / 256)
  refine .intro ((queueCommand_ok hvf hopen hsel State.beginQueueReset).trans (congrArg _ hbegin)) ?_ ⟨?_, ?_⟩
  · exact ((chg_setQueue s k _).1.mono (subF_of rfl)).trans ((hkilled.1.mono (subF_of rfl)).trans (hnote.1.mono (subF_of rfl)))
  · have hbut := queueBut_noteWants (w.beginKill lid l) (k / 256) k
    rw [hkilled.1.queue_eq (by decide), State.queue_setQueue_self] at hbut
    exact congrArg Queue.resetting hbut
  · rw [hnote.1.launch_eq (by decide)]
    unfold State.launch? tfind
    rw [hlaunches]
    exact if_pos rfl

theorem qkey_div {p q : Nat} (hq : q < 256) : qkey p q / 256 = p := by
  unfold qkey
  omega

theorem lt_of_okQueue {p q : Nat} (h : okQueue p q = true) : q < 256 := by
  simp only [okQueue, Bool.and_eq_true, decide_eq_true_eq] at h
  exact h.2

theorem endQueueReset_of_empty {s : State} {k : Nat} (hreset : (s.queue k).resetting = true) (hnone : s.ofQueue k = []) :
    s.endQueueReset k = (s.dropPreloads (s.leadDie (k / 256)) fun x => match x with
      | .entry j _ => j == k
      | _ => false).setQueue k { ring := (s.queue k).ring, cpl := (s.queue k).cpl, cfg := (s.queue k).cfg &&& 0xFFF, jobs := (s.queue k).jobs } := by
  unfold State.endQueueReset
  exact if_pos (by rw [hreset, hnone]; rfl)

theorem reset_of_queue_ends {s : State} {p q : Nat} (hok : okQueue p q = true) (hreset : (s.queue (qkey p q)).resetting = true)
    (hnone : s.ofQueue (qkey p q) = []) :
    Does (.queueResetEnd p q) s [.queues, .dies] fun t => (∀ j, j ≠ qkey p q → t.queue j = s.queue j) ∧
      (∀ x ∈ (t.die (s.leadDie p)).preloads, ∀ n, x.key ≠ .entry (qkey p q) n) ∧
      t.queue (qkey p q) = { ring := (s.queue (qkey p q)).ring, cpl := (s.queue (qkey p q)).cpl, cfg := (s.queue (qkey p q)).cfg &&& 0xFFF, jobs := (s.queue (qkey p q)).jobs } := by
  have hend := endQueueReset_of_empty hreset hnone
  have hexec : exec (.queueResetEnd p q) s = .next (s.endQueueReset (qkey p q)) := withUnit_ok hok _
  rw [hend, qkey_div (lt_of_okQueue hok)] at hexec
  refine .intro hexec (((chg_dropPreloads s _ _).mono (subF_of rfl)).trans ((chg_setQueue _ _ _).mono (subF_of rfl))).1
    ⟨fun j hj => ?_, fun x hx n hkey => ?_, State.queue_setQueue_self _ _ _⟩
  · rw [State.queue_setQueue_ne _ _ hj]
    exact (chg_dropPreloads s _ _).1.queue_eq (by decide) j
  · rw [(chg_setQueue _ _ _).1.die_eq (by decide), State.dropPreloads, State.die_modDie_self] at hx
    have := (List.mem_filter.mp hx).2
    rw [hkey] at this
    simp at this

/-! Preloads (R315). -/

theorem codeNow_direct (s : State) (p : Nat) {e : List Byte} (hext : eExt e = 0) (hbucket : eBucket e = 0) : (s.codeNow p e).1 = some (eCode e) := by
  have hread : s.readExt p e = (.ok [], s) := by
    unfold State.readExt
    rw [if_neg (by simp [hext])]
  unfold State.codeNow
  rw [hread]
  dsimp only
  rw [if_pos hbucket]

/-- A kernel entry that breaks no rule takes a slot, with its code (R315). -/
theorem preloadEntry_kernel (s : State) (p : Nat) (rt : Bool) (key : PreKey) {e : List Byte} (herrs : entryErrs e ++ s.chartErrs p e = [])
    (htype : eType e = 0) (hext : eExt e = 0) (hbucket : eBucket e = 0) :
    ∃ u, Chg [.free, .out, .cores, .parts] s u ∧ s.preloadEntry p rt key e = u.addPreload p rt key (s.free + 1) (some (eCode e)) := by
  let t : State := { s with free := s.free + 1 }
  have ht : Chg [.free] s t := chg_freeBit s
  refine ⟨((t.codeNow p e).2.preloadCode p (eStage e) (eCode e) (s.free + 1)), ?_, ?_⟩
  · exact (ht.mono (subF_of rfl)).trans (((chg_codeNow t p e).mono (subF_of rfl)).trans ((chg_preloadCode _ _ _ _ _).mono (subF_of rfl)))
  · have hcode := codeNow_direct t p hext hbucket
    unfold State.preloadEntry
    dsimp only
    rw [if_neg (not_not.mpr (show entryErrs e ++ t.chartErrs p e = [] from herrs)), if_pos (show eType e = tyKernel from htype)]
    show (match t.codeNow p e with
      | (some code, u) => _
      | (none, u) => _) = _
    rcases hnow : t.codeNow p e with ⟨c, u⟩
    rw [hnow] at hcode
    subst hcode
    rfl

theorem preload_takes_slot {s v : State} {p q : Nat} {e : List Byte} (hok : okQueue p q = true) (hruns : s.queueRuns (qkey p q) = true)
    (hhead : (s.queue (qkey p q)).head < (s.queue (qkey p q)).tail) (hroom : s.preloadRoom (s.leadDie p) (qcRt (s.queue (qkey p q)).cfg) = true)
    (hslot : s.preSlot (s.leadDie p) (.entry (qkey p q) (s.queue (qkey p q)).head) = none) (hissued : ((s.ofQueue (qkey p q)).any fun x => x.2.isIssued) = true)
    (hfetch : s.fetchBytes p ((s.queue (qkey p q)).ring + 64 * ((s.queue (qkey p q)).head % (s.queue (qkey p q)).size)) 64 = (.ok e, v))
    (herrs : entryErrs e ++ v.chartErrs p e = []) (htype : eType e = 0) (hext : eExt e = 0) (hbucket : eBucket e = 0) :
    Does (.preload p q) s [.free, .out, .cores, .parts, .dies] fun t => ∃ n, (t.die (s.leadDie p)).preloads = (s.die (s.leadDie p)).preloads ++
      [{ num := n, key := .entry (qkey p q) (s.queue (qkey p q)).head, rt := qcRt (s.queue (qkey p q)).cfg, code := some (eCode e) }] := by
  obtain ⟨u, hvu, hentry⟩ := preloadEntry_kernel v p (qcRt (s.queue (qkey p q)).cfg) (.entry (qkey p q) (s.queue (qkey p q)).head) herrs htype hext hbucket
  have hsu : Chg [.free, .out, .cores, .parts] s u := (((chg_fetchBytes s _ _ _ _).snd hfetch).mono (subF_of rfl)).trans hvu
  have hnext : s.preloadHead (qkey p q) = some (v.preloadEntry p (qcRt (s.queue (qkey p q)).cfg) (.entry (qkey p q) (s.queue (qkey p q)).head) e) := by
    unfold State.preloadHead
    dsimp only
    rw [qkey_div (lt_of_okQueue hok), if_pos (by simp [hruns, hhead, hroom, hslot, hissued]), hfetch]
  have hexec : exec (.preload p q) s = .next (u.addPreload p (qcRt (s.queue (qkey p q)).cfg) (.entry (qkey p q) (s.queue (qkey p q)).head) (v.free + 1) (some (eCode e))) := by
    refine (withUnit_ok hok _).trans (congrArg _ ?_)
    unfold State.preloadNext
    rw [hnext, hentry]
    rfl
  have hlead : u.leadDie p = s.leadDie p := by
    unfold State.leadDie State.ent
    rw [hsu.1.chart_eq (by decide)]
  refine .intro hexec ((hsu.mono (subF_of rfl)).trans ((chg_addPreload _ _ _ _ _ _).mono (subF_of rfl))).1 ⟨v.free + 1, ?_⟩
  unfold State.addPreload
  rw [hlead, State.die_modDie_self, hsu.1.die_eq (by decide)]

/-- Settles O29, command by command. -/
theorem queueCommandsActOnTheirQueue : Obligations.QueueCommandsActOnTheirQueue := by
  unfold Obligations.QueueCommandsActOnTheirQueue
  refine ⟨fun s vf q v p hvf hopen hq hpart hheld hup henable hhalt hreset =>
      ⟨doorbell_moves_tail hvf hopen hq hpart hheld hup henable hhalt hreset, doorbell_halts hvf hopen hq hpart hheld hup henable hhalt hreset⟩,
    fun s vf q v p hvf hopen hq hpart => doorbell_of_idle_queue hvf hopen hq hpart,
    fun s vf q v p d hvf hopen hq hpart => doorbell_of_dark_die hvf hopen hq hpart,
    fun s vf v k hvf hopen hsel henable => configuration_of_disabled_queue hvf hopen hsel henable v,
    fun s vf v k hvf hopen hsel henable => configuration_of_enabled_queue hvf hopen hsel henable v,
    fun s vf k => resume_clears_halted, fun s vf k => clrfail_clears_failed,
    fun s vf k => reset_of_queue_without_launches, fun s vf k lid l => reset_of_queue_kills,
    fun s p q => reset_of_queue_ends, fun s p q e v => preload_takes_slot⟩

end Sys2Proof.Machine
end

section
namespace Sys2Proof.Machine

/-! Bytes of memory where nothing, or one piece, is written. -/

theorem Touches.bytes_eq {L : List Fld} {s t : State} (h : Touches L s t) (hmem : Fld.mem ∉ L) (hepoch : Fld.memEpoch ∉ L) (a n : Nat) :
    t.bytes a n = s.bytes a n := by
  have hm : t.mem = s.mem := h.2 .mem hmem
  have he : t.memEpoch = s.memEpoch := h.2 .memEpoch hepoch
  unfold State.bytes State.byte
  rw [hm, he]

theorem slice_self (bs : List Byte) : slice bs 0 bs.length = bs := by
  refine List.ext_getElem (by simp [slice, upTo]) fun i _ hi => ?_
  simp [slice, upTo, hi]

theorem memOnly_of_msetBytes {s t : State} {a : Nat} {bs : List Byte} (h : t.mem = msetBytes s.mem a bs) : MemOnly a bs.length s t := fun i hi => by
  rw [h, mget_msetBytes_out _ _ _ _ hi]

/-! Accesses of a host through BAR2 (R404, R411). -/

theorem exec_bar2 {vf : Nat} (hvf : okVf vf = true) {s : State} (hlamp : s.lamp lampPcie = true) (off size : Nat) (data : Option (List Byte)) :
    exec (.bar2Access vf off size data .plain) s = .next (s.bar2 vf off size data) := by
  show execBar2Access vf off size data .plain s = _
  unfold execBar2Access State.onTlp
  rw [withUnit_ok hvf, if_neg (by rw [hlamp]; decide), if_neg (by decide), if_neg (by simp)]

section
variable {s : State} {vf p off size : Nat} (h : AtBar2 s vf off size)
include h

theorem bar2_of_refusing (hrefuse : s.vfRefuses vf = true) (data : Option (List Byte)) : s.bar2 vf off size data = s.refuseBar2 vf size data.isSome := by
  obtain ⟨_, hlamp, hexists, hd3, hcover, hroom⟩ := h
  unfold State.bar2
  rw [if_neg (by omega), atVf_refused hlamp hexists hd3 hcover hrefuse]
  rfl

theorem vfOpen_of_serving (hserve : s.vfRefuses vf = false) : s.vfOpen vf = true := by
  obtain ⟨_, hlamp, hexists, hd3, hcover, _⟩ := h
  simp only [State.vfOpen, hlamp, hexists, hd3, hcover, hserve]
  decide

theorem bar2_of_closed (hserve : s.vfRefuses vf = false) (hpart : s.partOf vf = some p) (hclosed : s.bar2Closed p = true) (data : Option (List Byte)) :
    s.bar2 vf off size data = s.refuseBar2 vf size data.isSome := by
  have hopen := vfOpen_of_serving h hserve
  obtain ⟨_, _, _, _, _, hroom⟩ := h
  unfold State.bar2
  rw [if_neg (by omega), atVf_of_open hopen, hpart]
  exact if_pos hclosed

/-- Where the partition's aperture is closed, or its function refuses accesses, the access is refused (R404). -/
theorem bar2_refused (hpart : s.partOf vf = some p) (hshut : (s.part p).reset ≠ 0 ∨ s.bit (partStat p) 0 = false ∨ (s.part p).tdi = 3 ∨
    (tfind s.host.flr vf).isSome = true ∨ ∃ d ∈ entDies (s.ent p), s.rimPath d = none) (data : Option (List Byte)) :
    exec (.bar2Access vf off size data .plain) s = .next (s.refuseBar2 vf size data.isSome) := by
  refine (exec_bar2 h.1 h.2.1 off size data).trans (congrArg _ ?_)
  by_cases hserve : s.vfRefuses vf = true
  · exact bar2_of_refusing h hserve data
  · refine bar2_of_closed h (by simpa using hserve) hpart ?_ data
    unfold State.vfRefuses at hserve
    rw [hpart] at hserve
    unfold State.bar2Closed
    rcases hshut with hreset | hstat | htdi | hflr | ⟨d, hd, hpath⟩
    · simp [hreset]
    · simp [hstat]
    · simp [htdi]
    · simp [hflr] at hserve
    · have hdies : ((entDies (s.ent p)).any fun d => (s.rimPath d).isNone) = true := List.any_eq_true.mpr ⟨d, hd, by rw [hpath]; rfl⟩
      rw [hdies, Bool.or_true]

end

section
variable {s : State} {vf p off size : Nat} (h : ApertureOpen s vf p off size)
include h

theorem aperture_serves : s.vfOpen vf = true ∧ s.bar2Closed p = false := by
  obtain ⟨hat, hflr, hpart, hreset, hopen, htdi, hpath⟩ := h
  have hdies : ((entDies (s.ent p)).any fun d => (s.rimPath d).isNone) = false := by
    rw [List.any_eq_false]
    intro d hd
    simpa using Option.isSome_iff_ne_none.mp (hpath d hd)
  refine ⟨vfOpen_of_serving hat ?_, ?_⟩
  · unfold State.vfRefuses
    rw [hflr, hpart]
    simp [htdi]
  · unfold State.bar2Closed
    rw [hreset, hopen, hdies]
    simp [htdi]

theorem exec_bar2_read : exec (.bar2Access vf off size none .plain) s = .next (s.bar2Read vf p (s.apBase vf + off) size) := by
  obtain ⟨hserve, hopen⟩ := aperture_serves h
  obtain ⟨⟨hvf, hlamp, _, _, _, hroom⟩, _, hpart, _⟩ := h
  refine (exec_bar2 hvf hlamp off size none).trans (congrArg _ ?_)
  unfold State.bar2
  rw [if_neg (by omega), atVf_of_open hserve, hpart]
  exact if_neg (by rw [hopen]; decide)

theorem exec_bar2_write (bs : List Byte) :
    exec (.bar2Access vf off size (some bs) .plain) s = .next (s.bar2Write vf p (s.apBase vf + off) (slice bs 0 size)) := by
  obtain ⟨hserve, hopen⟩ := aperture_serves h
  obtain ⟨⟨hvf, hlamp, _, _, _, hroom⟩, _, hpart, _⟩ := h
  refine (exec_bar2 hvf hlamp off size (some bs)).trans (congrArg _ ?_)
  unfold State.bar2
  rw [if_neg (by omega), atVf_of_open hserve, hpart]
  exact if_neg (by rw [hopen]; decide)

end

theorem anyHost_hbm {tr : Tr} {a : Nat} (htr : tr.tgt = .hbm a) (n : Nat) : anyHost [(tr, n)] = false := by
  simp [anyHost, htr]

theorem bar2_read_gives_bytes {s v : State} {vf p off size a : Nat} {tr : Tr} (h : ApertureOpen s vf p off size)
    (hspan : s.translSpan p (s.apBase vf + off) size .read = (.ok [(tr, size)], v)) (htr : tr.tgt = .hbm a) :
    Does (.bar2Access vf off size none .plain) s [.free, .out, .parts, .dies, .chans] fun t =>
      t.out = .data vf (if v.poisoned a size then none else some (s.bytes a size)) :: s.out := by
  have hv := (chg_translSpan s p (s.apBase vf + off) size .read (.die (s.ent p).lead)).snd hspan
  have htouch := chg_l2Touch v p a size false 3 false
  have hread : s.bar2Read vf p (s.apBase vf + off) size =
      (v.l2Touch p a size false 3).emit (.data vf (if v.poisoned a size then none else some (s.bytes a size))) := by
    unfold State.bar2Read
    rw [hspan]
    dsimp only
    rw [if_neg (by rw [anyHost_hbm htr]; decide)]
    simp only [List.foldl_cons, List.foldl_nil, List.any_cons, List.any_nil, Bool.or_false, htr, State.readAt, State.poisonedAt, List.nil_append,
      hv.1.bytes_eq (by decide) (by decide)]
  refine .intro ((exec_bar2_read h).trans (congrArg _ hread)) ?_ ?_
  · exact ((hv.mono (subF_of rfl)).trans ((htouch.mono (subF_of rfl)).trans ((chg_emit _ _).mono (subF_of rfl)))).1
  · exact congrArg (_ :: ·) ((htouch.1.2 .out (by decide)).trans (hv.1.2 .out (by decide)))

theorem bar2_write_stores_bytes {s v : State} {vf p off a : Nat} {bs : List Byte} {tr : Tr} (h : ApertureOpen s vf p off bs.length) (hbs : bs ≠ [])
    (hspan : s.translSpan p (s.apBase vf + off) bs.length .write = (.ok [(tr, bs.length)], v)) (htr : tr.tgt = .hbm a) :
    Does (.bar2Access vf off bs.length (some bs) .plain) s [.free, .mem, .poison, .cores, .launches, .parts, .dies, .chans] fun t =>
      t.bytes a bs.length = bs ∧ MemOnly a bs.length s t := by
  have hv := (chg_translSpan s p (s.apBase vf + off) bs.length .write (.die (s.ent p).lead)).snd hspan
  have hwritten := chg_writeMem v a bs
  have htouch := chg_l2Touch (v.writeMem a bs) p a bs.length true 3 false
  have hwrite : s.bar2Write vf p (s.apBase vf + off) (slice bs 0 bs.length) = (v.writeMem a bs).l2Touch p a bs.length true 3 := by
    unfold State.bar2Write
    rw [slice_self, hspan]
    dsimp only
    rw [if_neg (by rw [anyHost_hbm htr]; decide)]
    simp only [List.foldl_cons, List.foldl_nil, htr, State.performWrite, List.take_length]
  have hmem : ((v.writeMem a bs).l2Touch p a bs.length true 3).mem = msetBytes s.mem a bs :=
    (htouch.1.2 .mem (by decide)).trans ((mem_writeMem a hbs).trans (congrArg (msetBytes · a bs) (hv.1.2 .mem (by decide))))
  refine .intro ((exec_bar2_write h bs).trans (congrArg _ hwrite)) ?_ ⟨bytes_of_msetBytes hmem, memOnly_of_msetBytes hmem⟩
  exact ((hv.mono (subF_of rfl)).trans ((hwritten.mono (subF_of rfl)).trans (htouch.mono (subF_of rfl)))).1

/-- VF_APERR counts the access, and a read is all ones (R404). -/
theorem refuseBar2_counts (s : State) (vf n : Nat) (isWrite : Bool) : RegsBut [vfKey vf vfAperr] s (s.refuseBar2 vf n isWrite) ∧
    ((s.refuseBar2 vf n isWrite).reg (vfKey vf vfAperr)).toNat = min ((s.reg (vfKey vf vfAperr)).toNat + 1) 0xFFFFFFFF ∧
    (s.refuseBar2 vf n isWrite).out = (if isWrite then [] else [.data vf (some (List.replicate n 0xFF))]) ++ s.out := by
  have hcount : s.refuseBar2 vf n isWrite =
      if isWrite then s.countReg (vfKey vf vfAperr) 1 else (s.countReg (vfKey vf vfAperr) 1).emit (.data vf (some (onesData n))) := rfl
  have hreg : ∀ k, (s.refuseBar2 vf n isWrite).reg k = (s.countReg (vfKey vf vfAperr) 1).reg k := fun k => by
    rw [hcount]
    split
    · rfl
    · exact reg_of_regs (State.emit_regs _ _) k
  have hout : (s.countReg (vfKey vf vfAperr) 1).out = s.out := (chg_countReg s _ _).1.2 .out (by decide)
  refine ⟨fun k hk => (hreg k).trans (regsBut_countReg s (vfKey vf vfAperr) 1 k hk), ?_, ?_⟩
  · rw [hreg, State.toNat_reg_countReg]
  · rw [hcount, ← hout]
    cases isWrite
    · rw [if_neg (by decide), if_neg (by decide), List.singleton_append]
      rfl
    · rw [if_pos rfl, if_pos rfl, List.nil_append]

theorem refused_accesses_read_ones {s : State} {vf p off size : Nat} (h : AtBar2 s vf off size) (hpart : s.partOf vf = some p)
    (hshut : (s.part p).reset ≠ 0 ∨ s.bit (partStat p) 0 = false ∨ (s.part p).tdi = 3 ∨ (tfind s.host.flr vf).isSome = true ∨
      ∃ d ∈ entDies (s.ent p), s.rimPath d = none) :
    (Does (.bar2Access vf off size none .plain) s [.out, .regs] fun t => t.out = .data vf (some (List.replicate size 0xFF)) :: s.out ∧
      RegsBut [vfKey vf vfAperr] s t ∧ (t.reg (vfKey vf vfAperr)).toNat = min ((s.reg (vfKey vf vfAperr)).toNat + 1) 0xFFFFFFFF) ∧
    ∀ bs, Does (.bar2Access vf off size (some bs) .plain) s [.regs] fun t => RegsBut [vfKey vf vfAperr] s t ∧
      (t.reg (vfKey vf vfAperr)).toNat = min ((s.reg (vfKey vf vfAperr)).toNat + 1) 0xFFFFFFFF := by
  refine ⟨?_, fun bs => ?_⟩
  · obtain ⟨hregs, hcount, hout⟩ := refuseBar2_counts s vf size false
    exact .intro (bar2_refused h hpart hshut none) (chg_refuseBar2 s vf size false).1 ⟨hout, hregs, hcount⟩
  · obtain ⟨hregs, hcount, _⟩ := refuseBar2_counts s vf size true
    exact .intro (bar2_refused h hpart hshut (some bs)) (chg_countReg s _ _).1 ⟨hregs, hcount⟩

theorem untranslated_read_is_ones {s v : State} {vf p off size : Nat} {f : TFail} (h : ApertureOpen s vf p off size)
    (hspan : s.translSpan p (s.apBase vf + off) size .read = (.error f, v)) :
    Does (.bar2Access vf off size none .plain) s [.free, .out, .regs, .parts] fun t => t.out = .data vf (some (List.replicate size 0xFF)) :: s.out ∧
      (t.reg (vfKey vf vfAperr)).toNat = min ((s.reg (vfKey vf vfAperr)).toNat + 1) 0xFFFFFFFF := by
  have hv := (chg_translSpan s p (s.apBase vf + off) size .read (.die (s.ent p).lead)).snd hspan
  have hread : s.bar2Read vf p (s.apBase vf + off) size = v.refuseBar2 vf size false := by
    unfold State.bar2Read
    rw [hspan]
  obtain ⟨_, hcount, hout⟩ := refuseBar2_counts v vf size false
  rw [hv.1.reg_eq (by decide)] at hcount
  refine .intro ((exec_bar2_read h).trans (congrArg _ hread)) ?_ ⟨hout.trans (congrArg (_ :: ·) (hv.1.2 .out (by decide))), hcount⟩
  exact ((hv.mono (subF_of rfl)).trans ((chg_refuseBar2 v vf size false).mono (subF_of rfl))).1

/-! Accesses of PF0 to the table areas (R400, R410). -/

theorem exec_pf0Bar2 {s : State} (hlamp : s.lamp lampPcie = true) (off size : Nat) (data : Option (List Byte)) :
    exec (.pf0Bar2Access off size data .plain) s = .next (s.pf0Bar2 off size data) := by
  show execPf0Bar2Access off size data .plain s = _
  unfold execPf0Bar2Access State.onTlp
  rw [if_neg (by rw [hlamp]; decide), if_neg (by decide), if_neg (by simp)]

section
variable {s : State} {c o size : Nat} (hc : c < 256) (ho : o + size ≤ 0x400000)
include hc ho

theorem chan_of_table_offset : getBits (c * 2 ^ 24 + o) 24 8 = c := by
  unfold getBits
  omega

theorem pf0Dpa_of_table_offset : pf0Dpa (c * 2 ^ 24 + o) = c * 2 ^ 31 + 0x5F000000 + o := by
  unfold pf0Dpa
  rw [chan_of_table_offset hc ho]
  omega

variable (hlamp : s.lamp lampPcie = true) (hd3 : s.host.d3.contains 0 = false) (hkept : s.chanRetired c = false) (htrained : s.trained c = true)
include hlamp hd3 hkept htrained

theorem pf0Bar2_read : s.pf0Bar2 (c * 2 ^ 24 + o) size none = s.emit (.data 0
    (if s.poisoned (c * 2 ^ 31 + 0x5F000000 + o) size then none else some (s.bytes (c * 2 ^ 31 + 0x5F000000 + o) size))) := by
  have hopen : decide ((c * 2 ^ 24 + o) % 2 ^ 24 + size ≤ 0x400000) = true := by rw [decide_eq_true_eq]; omega
  unfold State.pf0Bar2
  dsimp only
  rw [if_neg (by rw [hlamp]; decide), if_neg (by rw [hd3]; simp; omega), hopen, chan_of_table_offset hc ho, pf0Dpa_of_table_offset hc ho, hkept, htrained]
  rfl

theorem pf0Bar2_write (bs : List Byte) :
    (s.lockedTable (c * 2 ^ 31 + 0x5F000000 + o) size = none →
      s.pf0Bar2 (c * 2 ^ 24 + o) size (some bs) = s.writeMem (c * 2 ^ 31 + 0x5F000000 + o) (slice bs 0 size)) ∧
    ∀ p, s.lockedTable (c * 2 ^ 31 + 0x5F000000 + o) size = some p →
      s.pf0Bar2 (c * 2 ^ 24 + o) size (some bs) = s.logLocked p (c * 2 ^ 24 + o) := by
  have hopen : decide ((c * 2 ^ 24 + o) % 2 ^ 24 + size ≤ 0x400000) = true := by rw [decide_eq_true_eq]; omega
  unfold State.pf0Bar2
  dsimp only
  rw [if_neg (by rw [hlamp]; decide), if_neg (by rw [hd3]; simp; omega), hopen, chan_of_table_offset hc ho, pf0Dpa_of_table_offset hc ho, hkept, htrained,
    if_neg (by decide)]
  constructor
  · intro hfree
    rw [hfree]
  · intro p hlocked
    rw [hlocked]

end

theorem pf0_reads_tables {s : State} {c o size : Nat} (hlamp : s.lamp lampPcie = true) (hd3 : s.host.d3.contains 0 = false) (hc : c < 256)
    (ho : o + size ≤ 0x400000) (hkept : s.chanRetired c = false) (htrained : s.trained c = true) :
    Does (.pf0Bar2Access (c * 2 ^ 24 + o) size none .plain) s [.out] fun t => t.out = .data 0
      (if s.poisoned (c * 2 ^ 31 + 0x5F000000 + o) size then none else some (s.bytes (c * 2 ^ 31 + 0x5F000000 + o) size)) :: s.out :=
  .intro ((exec_pf0Bar2 hlamp _ _ _).trans (congrArg _ (pf0Bar2_read hc ho hlamp hd3 hkept htrained))) (chg_emit _ _).1 rfl

theorem pf0_writes_tables {s : State} {c o : Nat} {bs : List Byte} (hlamp : s.lamp lampPcie = true) (hd3 : s.host.d3.contains 0 = false) (hc : c < 256)
    (ho : o + bs.length ≤ 0x400000) (hbs : bs ≠ []) (hkept : s.chanRetired c = false) (htrained : s.trained c = true) :
    (s.lockedTable (c * 2 ^ 31 + 0x5F000000 + o) bs.length = none →
      Does (.pf0Bar2Access (c * 2 ^ 24 + o) bs.length (some bs) .plain) s [.mem, .poison, .cores, .launches] fun t =>
        t.bytes (c * 2 ^ 31 + 0x5F000000 + o) bs.length = bs ∧ MemOnly (c * 2 ^ 31 + 0x5F000000 + o) bs.length s t) ∧
    ((s.lockedTable (c * 2 ^ 31 + 0x5F000000 + o) bs.length).isSome = true →
      Does (.pf0Bar2Access (c * 2 ^ 24 + o) bs.length (some bs) .plain) s [.regs, .log] fun t => RegsBut [logDrop] s t) := by
  obtain ⟨hstore, hlog⟩ := pf0Bar2_write hc ho hlamp hd3 hkept htrained bs
  refine ⟨fun hfree => ?_, fun hlocked => ?_⟩
  · have hmem := mem_writeMem (s := s) (c * 2 ^ 31 + 0x5F000000 + o) hbs
    refine .intro ((exec_pf0Bar2 hlamp _ _ _).trans (congrArg _ ((hstore hfree).trans (by rw [slice_self])))) (chg_writeMem _ _ _).1
      ⟨bytes_of_msetBytes hmem, memOnly_of_msetBytes hmem⟩
  · obtain ⟨p, hp⟩ := Option.isSome_iff_exists.mp hlocked
    exact .intro ((exec_pf0Bar2 hlamp _ _ _).trans (congrArg _ (hlog p hp))) (chg_logLocked _ _ _).1 (regsBut_logRaise _ _ _ _ _ _)

/-! Requests that no stream covers, and those that are no supported request (R397, R409). -/

/-- An access that is no request at a function, whose interface then moves to ERROR. -/
theorem does_noTarget_error {i : Instr} {s : State} {vf p : Nat} {isWrite : Bool} (hexec : exec i s = .next ((s.noTarget vf isWrite).setTdi p 3)) :
    Does i s [.out, .parts, .host] fun t => (t.part p).tdi = 3 ∧ (∀ q, q ≠ p → t.part q = s.part q) ∧ t.host.aer = s.host.aer + 1 := by
  obtain ⟨hhost, _, hparts⟩ := noTarget_logs s vf isWrite
  obtain ⟨htdi, hothers, haer⟩ := setTdi_error (s := s.noTarget vf isWrite) (p := p)
  refine .intro hexec (((chg_noTarget s vf isWrite).mono (subF_of rfl)).trans ((chg_setTdi _ p 3).mono (subF_of rfl))).1 ⟨htdi, fun q hq => ?_, ?_⟩
  · rw [hothers q hq]
    unfold State.part
    rw [hparts]
  · rw [haer, hhost]

theorem uncovered_bar2_errs {s : State} {vf off size p : Nat} {data : Option (List Byte)} (hvf : okVf vf = true) (hlamp : s.lamp lampPcie = true)
    (hexists : s.vfExists vf = true) (hd3 : s.host.d3.contains vf = false) (hroom : off + size ≤ 2 ^ s.bar2Log vf) (hexp : s.exposed vf = true)
    (hpart : s.partOf vf = some p) :
    Does (.bar2Access vf off size data .plain) s [.out, .parts, .host] fun t =>
      (t.part p).tdi = 3 ∧ (∀ q, q ≠ p → t.part q = s.part q) ∧ t.host.aer = s.host.aer + 1 := by
  refine does_noTarget_error (vf := vf) (isWrite := data.isSome) ((exec_bar2 hvf hlamp off size data).trans (congrArg _ ?_))
  unfold State.bar2 State.atVf
  rw [if_neg (by omega), if_neg (by rw [hlamp]; decide), if_neg (by rw [hexists, hd3]; decide), if_pos hexp, hpart]

theorem exec_bar2_atomic {s : State} {vf : Nat} (hvf : okVf vf = true) (hlamp : s.lamp lampPcie = true) (off size : Nat) (data : Option (List Byte)) :
    exec (.bar2Access vf off size data .atomicOp) s = .next ((s.noTarget vf false).exposure vf) := by
  show execBar2Access vf off size data .atomicOp s = _
  unfold execBar2Access State.onTlp
  rw [withUnit_ok hvf, if_neg (by rw [hlamp]; decide), if_pos rfl]
  rfl

theorem exec_bar2_poisoned {s : State} {vf : Nat} (hvf : okVf vf = true) (hlamp : s.lamp lampPcie = true) (off size : Nat) (bs : List Byte) :
    exec (.bar2Access vf off size (some bs) .poisoned) s = .next ((s.noTarget vf true).exposure vf) := by
  show execBar2Access vf off size (some bs) .poisoned s = _
  unfold execBar2Access State.onTlp
  rw [withUnit_ok hvf, if_neg (by rw [hlamp]; decide), if_neg (by decide), if_pos (by simp)]

theorem noTarget_covered {s : State} {vf : Nat} (hcover : s.exposed vf = false) (isWrite : Bool) :
    (s.noTarget vf isWrite).exposure vf = s.noTarget vf isWrite := exposure_covered (by rw [exposed_noTarget, hcover])

theorem noTarget_exposed {s : State} {vf p : Nat} (hvf : okVf vf = true) (hexp : s.exposed vf = true) (hpart : s.partOf vf = some p) (isWrite : Bool) :
    (s.noTarget vf isWrite).exposure vf = (s.noTarget vf isWrite).setTdi p 3 :=
  exposure_exposed hvf (by rw [exposed_noTarget, hexp]) (by rw [partOf_noTarget, hpart])

theorem unsupported_bar2_accesses {s : State} {vf off size : Nat} {data : Option (List Byte)} (hvf : okVf vf = true) (hlamp : s.lamp lampPcie = true)
    (hcover : s.exposed vf = false) :
    Does (.bar2Access vf off size data .atomicOp) s [.out, .host] (fun t => t.out = .unsupported vf :: s.out ∧ t.host = { s.host with aer := s.host.aer + 1 }) ∧
    ∀ bs, Does (.bar2Access vf off size (some bs) .poisoned) s [.host] fun t => t.host = { s.host with aer := s.host.aer + 1 } :=
  ⟨(does_noTarget_read ((exec_bar2_atomic hvf hlamp off size data).trans (congrArg _ (noTarget_covered hcover false)))).imp fun _ h => h.symm,
    fun bs => does_noTarget_write ((exec_bar2_poisoned hvf hlamp off size bs).trans (congrArg _ (noTarget_covered hcover true)))⟩

theorem unsupported_uncovered_accesses {s : State} {vf off size p : Nat} {data : Option (List Byte)} (hvf : okVf vf = true) (hlamp : s.lamp lampPcie = true)
    (hexp : s.exposed vf = true) (hpart : s.partOf vf = some p) {i : Instr}
    (hi : i = Instr.bar2Access vf off size data .atomicOp ∨ (∃ bs, i = .bar2Access vf off size (some bs) .poisoned)) :
    Does i s [.out, .parts, .host] fun t => (t.part p).tdi = 3 ∧ (∀ q, q ≠ p → t.part q = s.part q) ∧ t.host.aer = s.host.aer + 1 := by
  rcases hi with rfl | ⟨bs, rfl⟩
  · exact does_noTarget_error ((exec_bar2_atomic hvf hlamp off size data).trans (congrArg _ (noTarget_exposed hvf hexp hpart false)))
  · exact does_noTarget_error ((exec_bar2_poisoned hvf hlamp off size bs).trans (congrArg _ (noTarget_exposed hvf hexp hpart true)))

/-- What a state has sent stays sent when an interface moves to another state. -/
theorem out_setTdi {s : State} {p v : Nat} {o : Output} (h : o ∈ s.out) : o ∈ (s.setTdi p v).out := by
  have hirq : ∀ (u : State) fn vec, o ∈ u.out → o ∈ (u.irq fn vec).out := fun u fn vec hu => by
    unfold State.irq
    split
    · exact hu
    · split
      · exact List.mem_cons_of_mem _ hu
      · exact hu
  have hfirst : o ∈ ((s.modPart p fun y => { y with tdi := v }).irq 0 (64 + p)).out := hirq _ _ _ h
  unfold State.setTdi
  split
  · exact h
  · unfold State.partIrq
    dsimp only
    split
    · exact hirq _ _ _ hfirst
    · exact hfirst

theorem uncovered_tlp_errs {s : State} {vf p : Nat} {posted : Bool} (hvf : okVf vf = true) (hpart : s.vfPart vf = some p) (hrun : (s.part p).tdi = 2) :
    Does (.ideUncoveredTlp vf posted) s [.out, .parts, .host] fun t => (t.part p).tdi = 3 ∧ (∀ q, q ≠ p → t.part q = s.part q) ∧
      t.host.aer = s.host.aer + 1 ∧ (posted = false → .unsupported vf ∈ t.out) := by
  have hexec : exec (.ideUncoveredTlp vf posted) s = .next ((s.noTarget vf posted).setTdi p 3) := by
    refine (withUnit_ok hvf _).trans (congrArg _ ?_)
    unfold State.uncovered
    rw [hpart]
    exact if_pos hrun
  obtain ⟨t, ht, htouch, htdi, hothers, haer⟩ := does_noTarget_error hexec
  refine ⟨t, ht, htouch, htdi, hothers, haer, fun hposted => ?_⟩
  subst hposted
  rw [← next_inj (hexec.symm.trans ht)]
  exact out_setTdi (by rw [(noTarget_logs s vf false).2.1]; exact List.mem_cons_self)

/-! MSI-X (R408). -/

/-- Unmasking: the vector, if its message is pending, is sent, and no other changes. -/
theorem unmask_sends {s : State} {fn : Nat} (hd3 : s.host.d3.contains fn = false) (vec : Nat) : Touches [.out, .host] s (s.unmask fn vec) ∧
    (s.unmask fn vec).out = (if s.host.pend.contains (fn * 4096 + vec) then [.irq fn vec] else []) ++ s.out ∧
    fn * 4096 + vec ∈ (s.unmask fn vec).host.unmasked ∧ fn * 4096 + vec ∉ (s.unmask fn vec).host.pend ∧
    (∀ k ∈ s.host.unmasked, k ∈ (s.unmask fn vec).host.unmasked) ∧
    ∀ k, k ≠ fn * 4096 + vec → (k ∈ (s.unmask fn vec).host.pend ↔ k ∈ s.host.pend) := by
  refine ⟨(chg_unmask s fn vec).1, ?_⟩
  unfold State.unmask
  dsimp only
  by_cases hpend : s.host.pend.contains (fn * 4096 + vec) = true
  · rw [if_pos ⟨hpend, hd3⟩, if_pos hpend]
    refine ⟨rfl, mem_sins.mpr (.inl rfl), by simp [State.emit], fun k hk => mem_sins.mpr (.inr hk), fun k hk => ?_⟩
    simp [State.emit, hk]
  · rw [if_neg (fun h => hpend h.1), if_neg hpend]
    exact ⟨rfl, mem_sins.mpr (.inl rfl), by simpa using hpend, fun k hk => mem_sins.mpr (.inr hk), fun _ _ => Iff.rfl⟩

theorem d3_of_open {s : State} {vf : Nat} (h : s.vfOpen vf = true) : s.host.d3.contains vf = false := by
  simp only [State.vfOpen, Bool.and_eq_true, Bool.not_eq_true'] at h
  exact h.1.1.2

theorem exec_unmask {s : State} {fn vec : Nat} (h : (fn = 0 ∧ vec < 2048 ∧ s.host.d3.contains 0 = false) ∨ (okVf fn = true ∧ vec < 64 ∧ s.vfOpen fn = true)) :
    exec (.msixUnmask fn vec) s = .next (s.unmask fn vec) := by
  show execMsixUnmask fn vec s = _
  unfold execMsixUnmask
  rcases h with ⟨rfl, hvec, hd3⟩ | ⟨hvf, hvec, hopen⟩
  · rw [withUnit_ok (by simp [hvec]), if_pos rfl, if_neg (by rw [hd3]; decide)]
  · have hfn : fn ≠ 0 := fun h0 => by simp [okVf, h0] at hvf
    unfold State.vfStores
    rw [withUnit_ok (by simp [hvf, hvec]), if_neg hfn, atVf_of_open hopen]

theorem unmasked_vector_is_sent {s : State} {fn vec : Nat}
    (h : (fn = 0 ∧ vec < 2048 ∧ s.host.d3.contains 0 = false) ∨ (okVf fn = true ∧ vec < 64 ∧ s.vfOpen fn = true)) :
    Does (.msixUnmask fn vec) s [.out, .host] fun t => t.out = (if s.host.pend.contains (fn * 4096 + vec) then [.irq fn vec] else []) ++ s.out ∧
      fn * 4096 + vec ∈ t.host.unmasked ∧ fn * 4096 + vec ∉ t.host.pend ∧ (∀ k ∈ s.host.unmasked, k ∈ t.host.unmasked) ∧
      ∀ k, k ≠ fn * 4096 + vec → (k ∈ t.host.pend ↔ k ∈ s.host.pend) := by
  have hd3 : s.host.d3.contains fn = false := by
    rcases h with ⟨rfl, _, hd3⟩ | ⟨_, _, hopen⟩
    · exact hd3
    · exact d3_of_open hopen
  obtain ⟨htouch, hsent⟩ := unmask_sends hd3 vec
  exact .intro (exec_unmask h) htouch hsent

/-- Settles O46, access by access. -/
theorem hostAccessesReachMemory : Obligations.HostAccessesReachMemory := by
  unfold Obligations.HostAccessesReachMemory
  exact ⟨fun s vf p off size tr a v => bar2_read_gives_bytes, fun s vf p off bs tr a v => bar2_write_stores_bytes,
    fun s vf p off size => refused_accesses_read_ones, fun s vf p off size f v => untranslated_read_is_ones,
    fun s c o size hlamp hd3 hc ho _ => pf0_reads_tables hlamp hd3 hc ho, fun s c o bs => pf0_writes_tables,
    fun s vf off size data p => uncovered_bar2_errs, fun s vf off size data => unsupported_bar2_accesses,
    fun s vf off size data p hvf hlamp hexp hpart i => unsupported_uncovered_accesses hvf hlamp hexp hpart,
    fun s fn vec => unmasked_vector_is_sent, fun s vf p posted => uncovered_tlp_errs⟩

end Sys2Proof.Machine
end

section
namespace Sys2Proof.Machine

/-! A launch's copy record (R286, R288). -/

theorem launch_modLaunch_self {s : State} {lid : Nat} {l : Launch} (h : s.launch? lid = some l) (f : Launch → Launch) :
    (s.modLaunch lid f).launch? lid = some (f l) := by
  unfold State.modLaunch
  rw [h]
  exact State.launch_setLaunch_self _ _ _

theorem onlyLaunch_modLaunch (s : State) (lid : Nat) (f : Launch → Launch) : OnlyLaunch lid s (s.modLaunch lid f) := fun i hi => by
  unfold State.modLaunch
  split
  · exact State.launch_setLaunch_ne _ _ hi
  · rfl

/-- The launch stands, has not failed, and its copy has come this far. -/
def CopyAt (lid : Nat) (c : CopyRun) (s : State) : Prop := ∃ x, s.launch? lid = some x ∧ x.copy = some c ∧ x.fail = none

section
variable {s t : State} {lid : Nat} {c : CopyRun}

theorem CopyAt.of_touches (h : CopyAt lid c s) {L : List Fld} (htouch : Touches L s t) (hL : Fld.launches ∉ L) : CopyAt lid c t := by
  obtain ⟨x, hx, hcopy, hfail⟩ := h
  exact ⟨x, (htouch.launch_eq hL lid).trans hx, hcopy, hfail⟩

theorem CopyAt.modLaunch {c' : CopyRun} (h : CopyAt lid c s) {f : Launch → Launch} (hf : ∀ x, x.copy = some c → x.fail = none → (f x).copy = some c' ∧ (f x).fail = none) :
    CopyAt lid c' (s.modLaunch lid f) := by
  obtain ⟨x, hx, hcopy, hfail⟩ := h
  exact ⟨f x, launch_modLaunch_self hx f, hf x hcopy hfail⟩

end

/-- A launch's event wait whose line may have been written is to be looked at again. -/
def Launch.touchedBy (a n : Nat) (l : Launch) : Launch :=
  match l.word with
  | some w => if l.armed && overlaps a n (w / 128 * 128) 128 then { l with touched := true } else l
  | none => l

theorem launch_touchWaits (s : State) (a n i : Nat) : (s.touchWaits a n).launch? i = (s.launch? i).map (Launch.touchedBy a n) :=
  tfind_map (fun _ => Launch.touchedBy a n) s.launches i

theorem touchedBy_copy (a n : Nat) (l : Launch) : (l.touchedBy a n).copy = l.copy ∧ (l.touchedBy a n).fail = l.fail := by
  unfold Launch.touchedBy
  split
  · split <;> exact ⟨rfl, rfl⟩
  · exact ⟨rfl, rfl⟩

theorem CopyAt.writeMem {s : State} {lid : Nat} {c : CopyRun} (h : CopyAt lid c s) (a : Nat) (bs : List Byte) : CopyAt lid c (s.writeMem a bs) := by
  obtain ⟨x, hx, hcopy, hfail⟩ := h
  unfold State.writeMem
  split
  · exact ⟨x, hx, hcopy, hfail⟩
  · obtain ⟨hc, hf⟩ := touchedBy_copy a bs.length x
    refine ⟨x.touchedBy a bs.length, ?_, hc.trans hcopy, hf.trans hfail⟩
    rw [launch_touchWaits]
    exact congrArg (Option.map _) hx

/-! Requests (R286, R288). -/

/-- What an engine notes of a launch's next request. -/
theorem nextReq_local {s : State} {e lid : Nat} {l : Launch} {c : CopyRun} (h : Copying s e lid l c) (hsent : c.sent = false) (hsrc : cdSrcRemote c.desc = false)
    (hdst : cdDstRemote c.desc = false ∨ cdMode c.desc = 3) :
    s.nextReq e lid = s.openReq lid l c e { pos := c.pos, len := min 4096 (cdTotal c.desc - c.pos), cut := s.d2d } false [] := by
  obtain ⟨_, hl, hcopy, _, hrun, hfail, hhung⟩ := h
  have hlocal : (cdDstRemote c.desc && cdMode c.desc != 3) = false := by
    rcases hdst with hdst | hdst <;> simp [hdst]
  unfold State.nextReq
  rw [hl]
  dsimp only
  rw [hcopy]
  dsimp only
  rw [if_pos ⟨hrun, by rw [hfail]; rfl, hhung, hsent⟩, if_neg (by rw [hsrc]; decide), if_neg (by rw [hlocal]; decide)]

theorem openReq_local (s : State) {lid e : Nat} {l : Launch} {c : CopyRun} {r : CopyReq} (hl : s.launch? lid = some l) (hcopy : l.copy = some c) (hleft : r.left = 0) :
    ∃ t, s.openReq lid l c e r false [] = some t ∧ Touches [.regs, .launches, .copies, .dbg] s t ∧ (t.copyEng e).nextId = (s.copyEng e).nextId + 1 ∧
      t.launch? lid = some { l with copy := some { c with
        pos := c.pos + r.len, sent := decide (cdTotal c.desc ≤ c.pos + r.len), out := tset c.out (s.copyEng e).nextId r } } ∧ OnlyLaunch lid s t := by
  let u := (if c.pos = 0 then s.traceLaunch (engCopy e) tyBegin l 0 else s).setCopyEng e
    { s.copyEng e with nextId := (s.copyEng e).nextId + 1, launches := (s.copyEng e).launches.filter (· != lid) ++ [lid] }
  let f : CopyRun → CopyRun := fun k =>
    { k with pos := k.pos + r.len, sent := decide (cdTotal k.desc ≤ k.pos + r.len), out := tset k.out (s.copyEng e).nextId r }
  have htrace : Touches [.regs, .dbg] s (if c.pos = 0 then s.traceLaunch (engCopy e) tyBegin l 0 else s) :=
    (Chg.ite (chg_traceLaunch _ _ _ _ _) (Chg.refl _ _)).1
  have hu : Touches [.regs, .copies, .dbg] s u := (htrace.mono (subF_of rfl)).trans ((chg_setCopyEng _ _ _).1.mono (subF_of rfl))
  have hlaunch : u.launch? lid = some l := (hu.launch_eq (by decide) lid).trans hl
  have hmod := chg_modCopy u lid f
  refine ⟨u.modCopy lid f, ?_, (hu.mono (subF_of rfl)).trans (hmod.1.mono (subF_of rfl)), ?_, ?_, fun i hi => ?_⟩
  · have hr : { r with left := 0 } = r := by rw [← hleft]
    unfold State.openReq
    rw [if_neg (by simp)]
    show some (u.modCopy lid fun k =>
      { k with pos := k.pos + r.len, sent := decide (cdTotal k.desc ≤ k.pos + r.len), out := tset k.out (s.copyEng e).nextId { r with left := 0 } }) = _
    rw [hr]
  · rw [hmod.1.copyEng_eq (by decide), State.copyEng_setCopyEng_self]
  · unfold State.modCopy
    rw [launch_modLaunch_self hlaunch, hcopy]
    rfl
  · exact (onlyLaunch_modLaunch u lid _ i hi).trans (hu.launch_eq (by decide) i)

theorem request_of_first_launch {s : State} {e lid : Nat} {l : Launch} {c : CopyRun} {rest : List Nat} (h : Copying s e lid l c)
    (hfirst : (s.copyEng e).launches = lid :: rest) (hlamp : s.lamp (lampDie (e / 16)) = true) (hsent : c.sent = false) (hsrc : cdSrcRemote c.desc = false)
    (hdst : cdDstRemote c.desc = false ∨ cdMode c.desc = 3) :
    Does (.copyRequest e) s [.regs, .launches, .copies, .dbg] fun t => (t.copyEng e).nextId = (s.copyEng e).nextId + 1 ∧
      (∃ x, t.launch? lid = some x ∧ ∃ k, x.copy = some k ∧ k.pos = c.pos + min 4096 (cdTotal c.desc - c.pos) ∧ k.desc = c.desc ∧
        k.sent = decide (cdTotal c.desc ≤ c.pos + min 4096 (cdTotal c.desc - c.pos)) ∧
        tfind k.out (s.copyEng e).nextId = some { pos := c.pos, len := min 4096 (cdTotal c.desc - c.pos), cut := s.d2d }) ∧
      OnlyLaunch lid s t := by
  have hnext := nextReq_local h hsent hsrc hdst
  obtain ⟨he, hl, hcopy, _⟩ := h
  obtain ⟨t, hopen, htouch, hid, hlaunch, honly⟩ := openReq_local s (e := e)
    (r := { pos := c.pos, len := min 4096 (cdTotal c.desc - c.pos), cut := s.d2d }) hl hcopy rfl
  have hexec : exec (.copyRequest e) s = .next t := by
    refine (withUnit_ok (decide_eq_true he) _).trans (congrArg _ ?_)
    rw [if_pos hlamp, hfirst, firstStep, hnext, hopen]
    rfl
  exact .intro hexec htouch ⟨hid, ⟨_, hlaunch, _, rfl, rfl, rfl, rfl, tfind_tset_self _ _ _⟩, honly⟩

theorem no_request_on_dark_die {s : State} {e : Nat} (he : e < 64) (hdark : s.lamp (lampDie (e / 16)) = false) : Does (.copyRequest e) s [] fun t => t = s :=
  .stays ((withUnit_ok (decide_eq_true he) _).trans (congrArg _ (if_neg (by rw [hdark]; decide))))

/-! Ends of requests (R291, R292, R415). -/

/-- What the end of a request makes of the state in which its data was moved. -/
def State.copyMoved (s : State) (lid id gt : Nat) : State :=
  (s.modCopy lid fun c => { c with out := tdel c.out id }).modLaunch lid fun z => ({ z with progGt := gt } : Launch).noteReady gt

theorem touches_copyMoved (s : State) (lid id gt : Nat) : Touches [.launches] s (s.copyMoved lid id gt) :=
  ((chg_modCopy s lid _).trans (chg_modLaunch _ lid _)).1

theorem noteReady_copy (l : Launch) (gt : Nat) : (l.noteReady gt).copy = l.copy ∧ (l.noteReady gt).fail = l.fail := by
  unfold Launch.noteReady
  split <;> exact ⟨rfl, rfl⟩

theorem CopyAt.copyMoved {s : State} {lid : Nat} {c : CopyRun} (h : CopyAt lid c s) (id gt : Nat) : CopyAt lid { c with out := tdel c.out id } (s.copyMoved lid id gt) := by
  have hdel : CopyAt lid { c with out := tdel c.out id } (s.modCopy lid fun c => { c with out := tdel c.out id }) :=
    h.modLaunch fun x hcopy hfail => ⟨(congrArg (Option.map _) hcopy).trans rfl, hfail⟩
  refine hdel.modLaunch fun x hcopy hfail => ?_
  obtain ⟨hc, hf⟩ := noteReady_copy { x with progGt := gt } gt
  exact ⟨hc.trans hcopy, hf.trans hfail⟩

/-- The last request of a copy frees the engine too. -/
def State.copyEnded (s : State) (lid id gt : Nat) (c : CopyRun) : State :=
  if c.sent && tdel c.out id == [] then (s.copyMoved lid id gt).purgeCopy lid false else s.copyMoved lid id gt

theorem touches_copyEnded (s : State) (lid id gt : Nat) (c : CopyRun) : Touches [.regs, .launches, .copies, .dbg] s (s.copyEnded lid id gt c) := by
  have hmoved : Touches [.regs, .launches, .copies, .dbg] s (s.copyMoved lid id gt) := (touches_copyMoved s lid id gt).mono (subF_of rfl)
  unfold State.copyEnded
  split
  · exact hmoved.trans ((chg_purgeCopy _ lid false).1.mono (subF_of rfl))
  · exact hmoved

theorem copyEnded_of_unsent (s : State) (lid id gt : Nat) {c : CopyRun} (hsent : c.sent = false) : s.copyEnded lid id gt c = s.copyMoved lid id gt :=
  if_neg (by rw [hsent]; simp)

theorem CopyAt.copyEnded {s : State} {lid : Nat} {c : CopyRun} (h : CopyAt lid c s) (id gt : Nat) :
    CopyAt lid { c with out := tdel c.out id } (s.copyEnded lid id gt c) := by
  unfold State.copyEnded
  split
  · exact (h.copyMoved id gt).of_touches (chg_purgeCopy _ lid false).1 (by decide)
  · exact h.copyMoved id gt

section
variable {s : State} {e id lid : Nat} {l : Launch} {c : CopyRun} {r : CopyReq} (h : Copying s e lid l c) (hreq : s.copyReq? e id = some (lid, l, r))
  (hleft : r.left = 0) (hreach : s.copyReaches l r = true)
include h hreq hleft hreach

/-- A request waits for its lines (R415). -/
theorem exec_copyEnd_waits (hlines : s.linesHere (s.reqSources l r) = false) (x : Option Byte) :
    exec (.copyRequestComplete e id x) s = .next (s.askLines l.part (cdClass c.desc) (s.reqSources l r)) := by
  obtain ⟨he, _, hcopy, _, hrun, hfail, hhung⟩ := h
  refine (withUnit_ok (decide_eq_true he) _).trans (congrArg _ ?_)
  unfold State.endReq
  rw [hreq]
  dsimp only
  rw [if_pos ⟨hrun, by rw [hfail]; rfl, hhung, hleft, hreach⟩, hcopy]
  unfold State.withLines
  exact if_neg (by rw [hlines]; decide)

/-- A request whose data has been moved is no longer outstanding; the last one of a copy frees the engine. -/
theorem exec_copyEnd_moved {v u : State} {c' : CopyRun} (hlines : s.linesHere (s.reqSources l r) = true) (hv : s.takeLines (s.reqSources l r) = v)
    (hmove : v.doReq lid l c.desc r = (none, u)) (hat : CopyAt lid c' u) (hfold : cdMode c.desc ≠ 3 ∨ c'.sent = false) :
    exec (.copyRequestComplete e id none) s = .next (u.copyEnded lid id v.now c') := by
  obtain ⟨he, _, hcopy, _, hrun, hfail, hhung⟩ := h
  have hdesc : (l.copy.map (·.desc)).getD [] = c.desc := by rw [hcopy]; rfl
  have hafter : CopyAt lid { c' with out := tdel c'.out id } (u.modCopy lid fun c => { c with out := tdel c.out id }) :=
    hat.modLaunch fun x hcopy hfail => ⟨(congrArg (Option.map _) hcopy).trans rfl, hfail⟩
  have hbind : ∀ {k : CopyRun} {t : State}, CopyAt lid k t → (t.launch? lid).bind (·.copy) = some k := fun ⟨x, hx, hcopy, _⟩ => by rw [hx]; exact hcopy
  have hopen : (Option.isNone (none : Option Byte) && (c'.sent && tdel c'.out id == []) && cdMode c.desc == 3 && r.len != 0) = false := by
    rcases hfold with hmode | hsent
    · simp [hmode]
    · simp [hsent]
  have hmoved := hbind (hat.copyMoved id v.now)
  refine (withUnit_ok (decide_eq_true he) _).trans (congrArg _ ?_)
  unfold State.endReq
  rw [hreq]
  dsimp only
  rw [if_pos ⟨hrun, by rw [hfail]; rfl, hhung, hleft, hreach⟩, hdesc]
  unfold State.withLines
  rw [if_pos hlines, hv]
  dsimp only
  rw [hmove]
  dsimp only
  rw [hbind hafter]
  dsimp only
  rw [hopen, if_neg (by decide)]
  dsimp only
  rw [if_neg (by decide)]
  show (match ((u.copyMoved lid id v.now).launch? lid).bind (·.copy) with
    | some c => if c.sent && c.out == [] then (u.copyMoved lid id v.now).purgeCopy lid false else u.copyMoved lid id v.now
    | none => u.copyMoved lid id v.now) = _
  rw [hmoved]
  rfl

/-- A request that has failed ends its launch (R292). -/
theorem exec_copyEnd_failed {st : Byte} (hst : r.fail = some st) (hbad : st ≠ 0) :
    exec (.copyRequestComplete e id (some st)) s = .next ((s.modCopy lid fun c => { c with out := tdel c.out id }).failLaunch lid
      ((s.modCopy lid fun c => { c with out := tdel c.out id }).mkFail st (engCopy e))) := by
  obtain ⟨he, _, hcopy, _, hrun, hfail, hhung⟩ := h
  have hsources : s.reqSources l r = [] := by
    unfold State.reqSources
    exact if_pos (by rw [hst]; rfl)
  have hmove : s.doReq lid l c.desc r = (some st, s) := by
    unfold State.doReq
    rw [hst]
  have hdesc : (l.copy.map (·.desc)).getD [] = c.desc := by rw [hcopy]; rfl
  refine (withUnit_ok (decide_eq_true he) _).trans (congrArg _ ?_)
  unfold State.endReq
  rw [hreq]
  dsimp only
  rw [if_pos ⟨hrun, by rw [hfail]; rfl, hhung, hleft, hreach⟩, hdesc, hsources]
  unfold State.withLines
  rw [if_pos (show s.linesHere [] = true from rfl), show s.takeLines [] = s from rfl]
  dsimp only
  rw [hmove]
  dsimp only [Option.isNone]
  rw [if_neg (by simp)]
  dsimp only
  rw [if_neg]
  rintro (hne | hok)
  · exact hne rfl
  · exact hbad (Option.some.inj hok)

theorem request_waits_for_lines (hlines : s.linesHere (s.reqSources l r) = false) (x : Option Byte) :
    Does (.copyRequestComplete e id x) s [.free, .dies, .chans] fun t => t.launch? lid = some l := by
  have hask := chg_askLines s l.part (cdClass c.desc) (s.reqSources l r)
  exact .intro (exec_copyEnd_waits h hreq hleft hreach hlines x) hask.1 ((hask.1.launch_eq (by decide) lid).trans h.2.1)

theorem failed_request_ends_launch {st : Byte} (hst : r.fail = some st) (hbad : st ≠ 0) :
    Does (.copyRequestComplete e id (some st)) s [.launches] fun t => ∃ x, t.launch? lid = some x ∧ x.fail.map (·.status) = some st ∧
      x.fail.map (·.engine) = some (0x800 + e) := by
  have hexec := exec_copyEnd_failed h hreq hleft hreach hst hbad
  obtain ⟨_, hl, _, _, hrun, hfail, _⟩ := h
  refine .intro hexec ((chg_modCopy s lid _).trans (chg_failLaunch _ lid _)).1 ⟨_, launch_modLaunch_self (launch_modLaunch_self hl _) _, ?_⟩
  have hopen : Launch.committing { l with copy := l.copy.map fun c => { c with out := tdel c.out id } } = false := by
    unfold Launch.committing
    dsimp only
    rw [hrun]
  rw [if_neg (by rw [hopen]; decide)]
  unfold Launch.addFail
  dsimp only
  rw [hfail]
  exact ⟨rfl, rfl⟩

end

theorem copyAt_of_copying {s : State} {e lid : Nat} {l : Launch} {c : CopyRun} (h : Copying s e lid l c) : CopyAt lid c s :=
  ⟨l, h.2.1, h.2.2.1, h.2.2.2.2.2.1⟩

/-! What a request moves or folds (R288, R291). -/

theorem addr64_idem (x : Int) : addr64 ((addr64 x + 0 : Nat) : Int) = addr64 x := by
  unfold addr64 intBits
  omega

theorem cdSrcOf_first {d : List Byte} (hmode : cdMode d = 0 ∨ cdMode d = 3) : cdSrcOf d 0 = .at_ (addr64 (cdSrc d)) := by
  have hzero : addr64 ((cdSrc d : Int) + ((0 % cdN d 1 : Nat) : Int) * cdStride d 0 + ((0 / cdN d 1 : Nat) : Int) * cdStride d 1) = addr64 (cdSrc d) := by
    simp
  unfold cdSrcOf
  rcases hmode with hmode | hmode <;> (rw [hmode]; exact congrArg CopySrc.at_ hzero)

theorem cdDstOf_first {d : List Byte} (hmode : cdMode d = 0) : cdDstOf d 0 = addr64 (cdDst d) := by
  have hzero : addr64 ((cdDst d : Int) + ((0 % cdN d 1 : Nat) : Int) * cdStride d 2 + ((0 / cdN d 1 : Nat) : Int) * cdStride d 3) = addr64 (cdDst d) := by
    simp
  unfold cdDstOf
  rw [hmode]
  exact hzero

theorem pieceSrcs_first (s : State) (l : Launch) {d : List Byte} (n : Nat) (hmode : cdMode d = 0 ∨ cdMode d = 3) (hsrc : cdSrcRemote d = false) :
    s.pieceSrcs l d [(0, 0, n)] = (.ok [some (addr64 (cdSrc d))], s) := by
  have hpiece : s.pieceSrc l d (0, 0, n) = (.ok (some (addr64 (cdSrc d))), s) := by
    unfold State.pieceSrc
    dsimp only
    rw [cdSrcOf_first hmode, hsrc]
    exact congrArg (fun a => (Except.ok (some a), s)) (addr64_idem _)
  unfold State.pieceSrcs
  rw [hpiece]
  rfl

/-- The one piece of a request is moved (R288). -/
theorem doReq_first {s : State} {lid n : Nat} {l : Launch} {d : List Byte} {r : CopyReq} {x : List Nat} (hr : r = { pos := 0, len := n, cut := x }) (hn : n ≠ 0)
    (hmode : cdMode d = 0 ∨ cdMode d = 3) (hsrc : cdSrcRemote d = false) (hlocal : cdDstRemote d = false ∨ cdMode d = 3)
    (hpieces : cdPieces d (n + 1) 0 n = [(0, 0, n)]) :
    s.doReq lid l d r = s.movePieces lid l d r 0 [((0, 0, n), some (addr64 (cdSrc d)))] := by
  subst hr
  unfold State.doReq
  dsimp only
  rw [if_neg (by rcases hlocal with h | h <;> simp [h, hn]), hpieces, pieceSrcs_first s l n hmode hsrc]
  rfl

/-- A write of a copy that lies in one piece of HBM stores its bytes; a copy that must reach the array is owed nothing of HBM. -/
theorem copyWrite_piece {s w : State} {lid va n a : Nat} {l : Launch} {d bs : List Byte} {tr : Tr} {c : CopyRun} (hlen : bs.length = n) (hn : n ≠ 0)
    (hspan : s.translSpan l.part va n .write l.copyWalker = (.ok [(tr, n)], w)) (htr : tr.tgt = .hbm a) (hat : CopyAt lid c s) :
    ∃ u, s.copyWrite lid l d va bs = (none, u) ∧ u.mem = msetBytes s.mem a bs ∧ CopyAt lid c u := by
  subst hlen
  have hbs : bs ≠ [] := fun h => hn (by rw [h]; rfl)
  have hw := (chg_translSpan s l.part va bs.length .write l.copyWalker).snd hspan
  have htouch := chg_l2Touch (w.writeMem a bs) l.part a bs.length true 5 (cdEvict d)
  let u := (w.writeMem a bs).l2Touch l.part a bs.length true 5 (cdEvict d)
  let sync := ([(tr, bs.length)].filter fun e => e.1.mt && !e.1.ea).map fun e => (e.1.tgt.key, e.2)
  have hmem : u.mem = msetBytes s.mem a bs :=
    (htouch.1.2 .mem (by decide)).trans ((mem_writeMem a hbs).trans (congrArg (msetBytes · a bs) (hw.1.2 .mem (by decide))))
  have hu : CopyAt lid c u := ((hat.of_touches hw.1 (by decide)).writeMem a bs).of_touches htouch.1 (by decide)
  have hsync := chg_syncOut u l.part sync
  have howed := chg_modLaunch (u.syncOut l.part sync) lid fun y => { y with owed := y.owed ++ sync.filter fun x => decide (2 ^ 64 ≤ x.1) }
  have hwrite : s.copyWrite lid l d va bs = (none, if sync = [] then u
      else (u.syncOut l.part sync).modLaunch lid fun y => { y with owed := y.owed ++ sync.filter fun x => decide (2 ^ 64 ≤ x.1) }) := by
    unfold State.copyWrite
    rw [hspan]
    dsimp only
    simp only [List.foldl_cons, List.foldl_nil, htr, State.writeAt, List.take_length]
    rfl
  refine ⟨_, hwrite, ?_, ?_⟩
  · split
    · exact hmem
    · exact (howed.1.2 .mem (by decide)).trans ((hsync.1.2 .mem (by decide)).trans hmem)
  · split
    · exact hu
    · exact (hu.of_touches hsync.1 (by decide)).modLaunch fun y hcopy hfail => ⟨hcopy, hfail⟩

section
variable {s v : State} {lid n : Nat} {l : Launch} {c : CopyRun} {d bs : List Byte} {r : CopyReq} (hsrc : cdSrcRemote d = false)
  (hread : s.copyRead l d (addr64 (cdSrc d)) n = (.ok bs, v)) (hat : CopyAt lid c s)
include hsrc hread hat

theorem movePieces_copies {w : State} {a : Nat} {tr : Tr} (hmode : cdMode d = 0) (hdst : cdDstRemote d = false) (hlen : bs.length = n) (hn : n ≠ 0)
    (hspan : v.translSpan l.part (addr64 (cdDst d)) n .write l.copyWalker = (.ok [(tr, n)], w)) (htr : tr.tgt = .hbm a) :
    ∃ u, s.movePieces lid l d r 0 [((0, 0, n), some (addr64 (cdSrc d)))] = (none, u) ∧ u.mem = msetBytes s.mem a bs ∧ CopyAt lid c u := by
  have hv := (chg_copyRead s l d (addr64 (cdSrc d)) n).snd hread
  obtain ⟨u, hwrite, hmem, hu⟩ := copyWrite_piece (d := d) hlen hn hspan htr (hat.of_touches hv.1 (by decide))
  refine ⟨u, ?_, hmem.trans (congrArg (msetBytes · a bs) (hv.1.2 .mem (by decide))), hu⟩
  unfold State.movePieces State.pieceBytes
  dsimp only
  rw [if_neg (by rw [hsrc]; decide), hread]
  dsimp only
  rw [if_neg (by rw [hmode]; decide), if_neg (by rw [hdst]; decide), cdDstOf_first hmode, addr64_idem, hwrite]
  rfl

theorem movePieces_folds (hmode : cdMode d = 3) (hn : n = 128) (hlen : bs.length = 128) :
    ∃ u, s.movePieces lid l d r 0 [((0, 0, n), some (addr64 (cdSrc d)))] = (none, u) ∧ Touches [.free, .out, .launches, .parts, .dies, .chans] s u ∧
      CopyAt lid { c with
        digA := c.digA + (lineLanes (v.reg64 (digSalt l.part)) (rgaVa (addr64 (cdSrc d))) bs).1
        digB := c.digB + (lineLanes (v.reg64 (digSalt l.part)) (rgaVa (addr64 (cdSrc d))) bs).2 } u := by
  subst hn
  have hv := (chg_copyRead s l d (addr64 (cdSrc d)) 128).snd hread
  let f : Launch → Launch := fun y => { y with copy := y.copy.map fun (c : CopyRun) => { c with
        digA := c.digA + (lineLanes (v.reg64 (digSalt l.part)) (rgaVa (addr64 (cdSrc d))) bs).1
        digB := c.digB + (lineLanes (v.reg64 (digSalt l.part)) (rgaVa (addr64 (cdSrc d))) bs).2 } }
  refine ⟨v.modLaunch lid f, ?_, (hv.1.mono (subF_of rfl)).trans ((chg_modLaunch v lid f).1.mono (subF_of rfl)), ?_⟩
  · have hline : slice bs 0 128 = bs := hlen ▸ slice_self bs
    unfold State.movePieces State.pieceBytes
    dsimp only
    rw [if_neg (by rw [hsrc]; decide), hread]
    dsimp only
    rw [if_pos hmode]
    simp only [show upTo (128 / 128) = [0] from rfl, List.map_cons, List.map_nil, List.foldl_cons, List.foldl_nil, Nat.mul_zero, Nat.add_zero, hline,
      Option.getD_some]
    rfl
  · exact (hat.of_touches hv.1 (by decide)).modLaunch fun y hcopy hfail => ⟨(congrArg (Option.map _) hcopy).trans rfl, hfail⟩

end

section
variable {s v : State} {e id lid n : Nat} {l : Launch} {c : CopyRun} {r : CopyReq} {bs : List Byte} {x : List Nat} (h : Copying s e lid l c)
  (hreq : s.copyReq? e id = some (lid, l, r)) (hr : r = { pos := 0, len := n, cut := x }) (hreach : s.copyReaches l r = true) (hn : n ≠ 0)
  (hsrc : cdSrcRemote c.desc = false) (hpieces : cdPieces c.desc (n + 1) 0 n = [(0, 0, n)]) (hlines : s.linesHere (s.reqSources l r) = true)
  (hread : (s.takeLines (s.reqSources l r)).copyRead l c.desc (addr64 (cdSrc c.desc)) n = (.ok bs, v))
include h hreq hr hreach hn hsrc hpieces hlines hread

theorem request_moves_bytes {w : State} {a : Nat} {tr : Tr} (hmode : cdMode c.desc = 0) (hdst : cdDstRemote c.desc = false) (hlen : bs.length = n)
    (hspan : v.translSpan l.part (addr64 (cdDst c.desc)) n .write l.copyWalker = (.ok [(tr, n)], w)) (htr : tr.tgt = .hbm a) :
    Does (.copyRequestComplete e id none) s [.free, .out, .regs, .mem, .poison, .cores, .launches, .parts, .dies, .chans, .copies, .dbg] fun t =>
      t.bytes a n = bs ∧ (∀ i, i < a ∨ a + n ≤ i → mget? t.mem i = mget? s.mem i) ∧
      ∃ x k, t.launch? lid = some x ∧ x.copy = some k ∧ tfind k.out id = none ∧ x.fail = none := by
  have htake := chg_takeLines s (s.reqSources l r)
  have hdo := doReq_first (s := s.takeLines (s.reqSources l r)) (lid := lid) (l := l) hr hn (.inl hmode) hsrc (.inl hdst) hpieces
  obtain ⟨u, hmove, hmem, hat⟩ := movePieces_copies (r := r) hsrc hread ((copyAt_of_copying h).of_touches htake.1 (by decide)) hmode hdst hlen hn hspan htr
  have hdone := (chg_doReq _ lid l c.desc r).snd (hdo.trans hmove)
  have hsu : Touches [.free, .out, .regs, .mem, .poison, .cores, .launches, .parts, .dies, .chans, .copies, .dbg] s u :=
    (htake.1.mono (subF_of rfl)).trans (hdone.1.mono (subF_of rfl))
  have hexec := exec_copyEnd_moved h hreq (by rw [hr]) hreach hlines rfl (hdo.trans hmove) hat (.inl (by rw [hmode]; decide))
  have hend := touches_copyEnded u lid id (s.takeLines (s.reqSources l r)).now c
  obtain ⟨y, hy, hycopy, hyfail⟩ := hat.copyEnded id (s.takeLines (s.reqSources l r)).now
  have hfinal := (hend.2 .mem (by decide)).trans (hmem.trans (congrArg (msetBytes · a bs) (htake.1.2 .mem (by decide))))
  subst hlen
  exact .intro hexec (hsu.trans (hend.mono (subF_of rfl))) ⟨bytes_of_msetBytes hfinal, memOnly_of_msetBytes hfinal, y, _, hy, hycopy, tfind_tdel_self _ _, hyfail⟩

theorem request_folds_lines (hmode : cdMode c.desc = 3) (hlen : n = 128) (hsent : c.sent = false) (hbytes : bs.length = 128) :
    Does (.copyRequestComplete e id none) s [.free, .out, .launches, .parts, .dies, .chans] fun t => ∃ x k, t.launch? lid = some x ∧ x.copy = some k ∧ tfind k.out id = none ∧
      k.digA = c.digA + (lineLanes (v.reg64 (digSalt l.part)) (rgaVa (addr64 (cdSrc c.desc))) bs).1 ∧
      k.digB = c.digB + (lineLanes (v.reg64 (digSalt l.part)) (rgaVa (addr64 (cdSrc c.desc))) bs).2 := by
  have htake := chg_takeLines s (s.reqSources l r)
  have hdo := doReq_first (s := s.takeLines (s.reqSources l r)) (lid := lid) (l := l) hr hn (.inr hmode) hsrc (.inr hmode) hpieces
  obtain ⟨u, hmove, hsu, hat⟩ := movePieces_folds (r := r) hsrc hread ((copyAt_of_copying h).of_touches htake.1 (by decide)) hmode hlen hbytes
  have hexec := exec_copyEnd_moved h hreq (by rw [hr]) hreach hlines rfl (hdo.trans hmove) hat (.inr hsent)
  obtain ⟨y, hy, hycopy, _⟩ := hat.copyMoved id (s.takeLines (s.reqSources l r)).now
  refine .intro (hexec.trans (congrArg _ (copyEnded_of_unsent u lid id _ hsent))) ?_ ⟨y, _, hy, hycopy, tfind_tdel_self _ _, rfl, rfl⟩
  exact (htake.1.mono (subF_of rfl)).trans (hsu.trans ((touches_copyMoved u lid id _).mono (subF_of rfl)))

end

/-- Settles O39, for an engine's requests and for their ends. -/
theorem copiesMoveTheirBytes : Obligations.CopiesMoveTheirBytes := by
  unfold Obligations.CopiesMoveTheirBytes
  exact ⟨fun s e lid l c rest => request_of_first_launch, fun s e => no_request_on_dark_die,
    fun s e id lid l c r x h hreq hleft hreach hlines => request_waits_for_lines h hreq hleft hreach hlines x,
    fun s e id lid l c r n bs v tr a w x h hreq hr hreach hn hmode hsrc hdst hpieces hlines hread hlen =>
      request_moves_bytes h hreq hr hreach hn hsrc hpieces hlines hread hmode hdst hlen,
    fun s e id lid l c r n bs v x h hreq hr hreach hn hmode hsrc hpieces hlen hlines hread =>
      request_folds_lines h hreq hr hreach hn hsrc hpieces hlines hread hmode hlen,
    fun s e id lid l c r st h hreq hreach hleft => failed_request_ends_launch h hreq hleft hreach⟩

end Sys2Proof.Machine
end

section
namespace Sys2Proof.Machine

/-! HBM channels, read after what changes other parts (R275, R279). -/

theorem Touches.chan_eq {L : List Fld} {s t : State} (h : Touches L s t) (hL : Fld.chans ∉ L) (c : Nat) : t.chan c = s.chan c := by
  have hc : t.chans = s.chans := h.2 .chans hL
  unfold State.chan
  rw [hc]

theorem OnlyChan.of_touches {L : List Fld} {s t : State} (h : Touches L s t) (hL : Fld.chans ∉ L) (c : Nat) : OnlyChan c s t := fun k _ => h.chan_eq hL k

theorem OnlyChan.trans {s t u : State} {c : Nat} (h : OnlyChan c s t) (k : OnlyChan c t u) : OnlyChan c s u := fun i hi => (k i hi).trans (h i hi)

theorem onlyChan_modChan (s : State) (c : Nat) (f : Chan → Chan) : OnlyChan c s (s.modChan c f) := fun _ hk => State.chan_modChan_ne s f hk

/-! Patrol scrub (R279, R416). -/

/-- The scrub's place after a line, and its next pass. -/
def State.scrubOn (s : State) (c pos : Nat) : State :=
  let t := s.setReg (hbmScrubPos c) (BitVec.ofNat 32 ((pos + 1) % chanLines))
  if (pos + 1) % chanLines = 0 then t.modChan c fun x => { x with scrubGt := x.scrubGt + dayNs } else t

/-- What the scrub finds in its line. -/
def State.scrubRead (s : State) (c pos : Nat) (err : EccResult) : State :=
  if err = .uncorrectable then (s.scrubFound c (2 ^ 24 * c + pos)).logRaise sevAlert none srcRim 0x32 (leBytes 8 (lineDpa c pos))
  else s.hbmRead c (2 ^ 24 * c + pos) err

theorem scrub_eq (s : State) (c : Nat) (err : EccResult) :
    s.scrub c err = (s.scrubRead c (s.reg (hbmScrubPos c)).toNat err).scrubOn c (s.reg (hbmScrubPos c)).toNat := by
  have hline : lineDpa c (s.reg (hbmScrubPos c)).toNat / 128 = 2 ^ 24 * c + (s.reg (hbmScrubPos c)).toNat := by
    unfold lineDpa
    omega
  unfold State.scrub State.scrubRead State.scrubOn
  dsimp only
  rw [hline]
  by_cases h : err = .uncorrectable
  · rw [if_pos h, if_pos h, if_pos h]
  · rw [if_neg h, if_neg h, if_neg h]

theorem scrubOn_chan (s : State) (c pos : Nat) : OnlyChan c s (s.scrubOn c pos) ∧ { (s.scrubOn c pos).chan c with scrubGt := 0 } = { s.chan c with scrubGt := 0 } := by
  have hset : ∀ k, (s.setReg (hbmScrubPos c) (BitVec.ofNat 32 ((pos + 1) % chanLines))).chan k = s.chan k := (chg_setReg s _ _).1.chan_eq (by decide)
  unfold State.scrubOn
  dsimp only
  split
  · exact ⟨fun k hk => (State.chan_modChan_ne _ _ hk).trans (hset k), by rw [State.chan_modChan_self, hset]⟩
  · exact ⟨fun k _ => hset k, by rw [hset]⟩

theorem scrubOn_regs (s : State) (c pos : Nat) : ((s.scrubOn c pos).reg (hbmScrubPos c)).toNat = (pos + 1) % 12582912 ∧
    RegsBut [hbmScrubPos c] s (s.scrubOn c pos) := by
  have hregs : (s.scrubOn c pos).regs = (s.setReg (hbmScrubPos c) (BitVec.ofNat 32 ((pos + 1) % chanLines))).regs := by
    unfold State.scrubOn
    dsimp only
    split
    · exact (chg_modChan _ _ _).1.regs_eq (by decide)
    · rfl
  refine ⟨?_, fun k hk => (reg_of_regs hregs k).trans (regsBut_setReg s _ _ k hk)⟩
  rw [reg_of_regs hregs, State.reg_setReg_self, BitVec.toNat_ofNat]
  unfold chanLines
  omega

theorem touches_scrubOn (s : State) (c pos : Nat) : Touches [.regs, .chans] s (s.scrubOn c pos) := by
  have hset := (chg_setReg s (hbmScrubPos c) (BitVec.ofNat 32 ((pos + 1) % chanLines))).mono (subF_of (B := [.regs, .chans]) rfl)
  unfold State.scrubOn
  dsimp only
  split
  · exact (hset.trans ((chg_modChan _ _ _).mono (subF_of rfl))).1
  · exact hset.1

/-- An uncorrectable line is poisoned and counted (R415). -/
theorem hbmUncorrectable_marks (s : State) (c line : Nat) : OnlyChan c s (s.hbmUncorrectable c line) ∧
    ((s.hbmUncorrectable c line).chan c).ueCount = count1 (s.chan c).ueCount ∧ line ∈ (s.hbmUncorrectable c line).poison := by
  have hlost : ∀ k, ((s.poisonLine line).poisonEntries line).chan k = s.chan k := fun k =>
    ((chg_poisonEntries _ line).1.chan_eq (by decide) k).trans ((chg_poisonLine s line).1.chan_eq (by decide) k)
  unfold State.hbmUncorrectable
  refine ⟨fun k hk => ?_, ?_, ?_⟩
  · rw [(chg_irq _ _ _).1.chan_eq (by decide), State.chan_modChan_ne _ _ hk, hlost]
  · rw [(chg_irq _ _ _).1.chan_eq (by decide), State.chan_modChan_self, hlost]
  · have hpoison : line ∈ ((s.poisonLine line).poisonEntries line).poison := mem_sins.mpr (.inl rfl)
    rw [(chg_irq _ _ _).1.2 .poison (by decide), (chg_modChan _ _ _).1.2 .poison (by decide)]
    exact hpoison

/-- A line of which another has the data is only spoilt in the array (R416). -/
theorem scrubFound_marks (s : State) (c line : Nat) : OnlyChan c s (s.scrubFound c line) ∧ ((s.scrubFound c line).chan c).ueCount = count1 (s.chan c).ueCount ∧
    (s.sheltered line = false → line ∈ (s.scrubFound c line).poison) ∧
    (s.sheltered line = true → (s.scrubFound c line).poison = s.poison ∧ line ∈ ((s.scrubFound c line).chan c).spoilt) := by
  by_cases hshelter : s.sheltered line = true
  · let f : Chan → Chan := fun x => { x with
      spoilt := sins x.spoilt line, ueCount := count1 x.ueCount, ueRows := rowStamp x.ueRows (line % 2 ^ 24 / 32) s.now }
    have hfound : s.scrubFound c line = (s.modChan c f).irq 0 (128 + c) := if_pos hshelter
    have hirq := (chg_irq (s.modChan c f) 0 (128 + c)).1
    have hchan : (s.scrubFound c line).chan c = f (s.chan c) := by
      rw [hfound, hirq.chan_eq (by decide), State.chan_modChan_self]
    rw [hchan]
    refine ⟨fun k hk => ?_, rfl, fun h => absurd hshelter (by rw [h]; decide), fun _ => ⟨?_, mem_sins.mpr (.inl rfl)⟩⟩
    · rw [hfound, hirq.chan_eq (by decide), State.chan_modChan_ne _ _ hk]
    · rw [hfound]
      exact (hirq.2 .poison (by decide)).trans ((chg_modChan s c f).1.2 .poison (by decide))
  · have hfound : s.scrubFound c line = s.hbmUncorrectable c line := if_neg hshelter
    obtain ⟨honly, hcount, hpoison⟩ := hbmUncorrectable_marks s c line
    rw [hfound]
    exact ⟨honly, hcount, fun _ => hpoison, fun h => absurd h hshelter⟩

theorem scrubRead_uncorrectable (s : State) (c pos : Nat) : OnlyChan c s (s.scrubRead c pos .uncorrectable) ∧
    ((s.scrubRead c pos .uncorrectable).chan c).ueCount = count1 (s.chan c).ueCount ∧
    (s.sheltered (2 ^ 24 * c + pos) = false → 2 ^ 24 * c + pos ∈ (s.scrubRead c pos .uncorrectable).poison) ∧
    (s.sheltered (2 ^ 24 * c + pos) = true →
      (s.scrubRead c pos .uncorrectable).poison = s.poison ∧ 2 ^ 24 * c + pos ∈ ((s.scrubRead c pos .uncorrectable).chan c).spoilt) := by
  have hread : s.scrubRead c pos .uncorrectable = (s.scrubFound c (2 ^ 24 * c + pos)).logRaise sevAlert none srcRim 0x32 (leBytes 8 (lineDpa c pos)) := if_pos rfl
  have hlog := (chg_logRaise (s.scrubFound c (2 ^ 24 * c + pos)) sevAlert none srcRim 0x32 (leBytes 8 (lineDpa c pos))).1
  have hpoison : (s.scrubRead c pos .uncorrectable).poison = (s.scrubFound c (2 ^ 24 * c + pos)).poison := hread ▸ hlog.2 .poison (by decide)
  have hchan : ∀ k, (s.scrubRead c pos .uncorrectable).chan k = (s.scrubFound c (2 ^ 24 * c + pos)).chan k := hread ▸ hlog.chan_eq (by decide)
  obtain ⟨honly, hmarks⟩ := scrubFound_marks s c (2 ^ 24 * c + pos)
  rw [hchan, hpoison]
  exact ⟨fun k hk => (hchan k).trans (honly k hk), hmarks⟩

theorem scrubRead_corrected (s : State) (c pos : Nat) : OnlyChan c s (s.scrubRead c pos .corrected) ∧
    ((s.scrubRead c pos .corrected).chan c).ceCount = count1 (s.chan c).ceCount ∧ (s.scrubRead c pos .corrected).poison = s.poison := by
  have hread : s.scrubRead c pos .corrected = s.modChan c fun x => { x with ceCount := count1 x.ceCount } := if_neg (by decide)
  rw [hread]
  exact ⟨onlyChan_modChan s c _, by rw [State.chan_modChan_self], (chg_modChan s c _).1.2 .poison (by decide)⟩

theorem scrubRead_clean (s : State) (c pos : Nat) : s.scrubRead c pos .clean = s := if_neg (by decide)

theorem onlyChan_scrubRead (s : State) (c pos : Nat) (err : EccResult) : OnlyChan c s (s.scrubRead c pos err) := by
  cases err
  case clean => rw [scrubRead_clean]; exact fun _ _ => rfl
  case corrected => exact (scrubRead_corrected s c pos).1
  case uncorrectable => exact (scrubRead_uncorrectable s c pos).1

theorem scrub_reads_next_line {s : State} {c : Nat} {e : EccResult} (hc : okChan c = true) (hserves : s.serves c = true) (hturn : s.scrubTurn c = true) :
    Does (.patrolScrubRead c e) s [.out, .regs, .poison, .cores, .launches, .chans, .host, .log] fun t =>
      (t.reg (hbmScrubPos c)).toNat = ((s.reg (hbmScrubPos c)).toNat + 1) % 12582912 ∧
      OnlyChan c s t ∧ (e = .corrected → (t.chan c).ceCount = min ((s.chan c).ceCount + 1) 0xFFFFFFFF ∧ t.poison = s.poison) ∧
      (e = .uncorrectable → (t.chan c).ueCount = min ((s.chan c).ueCount + 1) 0xFFFFFFFF ∧
        (s.sheltered (2 ^ 24 * c + (s.reg (hbmScrubPos c)).toNat) = false → 2 ^ 24 * c + (s.reg (hbmScrubPos c)).toNat ∈ t.poison) ∧
        (s.sheltered (2 ^ 24 * c + (s.reg (hbmScrubPos c)).toNat) = true → t.poison = s.poison ∧ 2 ^ 24 * c + (s.reg (hbmScrubPos c)).toNat ∈ (t.chan c).spoilt)) ∧
      (e = .clean → t.poison = s.poison ∧ t.log = s.log ∧ RegsBut [hbmScrubPos c] s t) := by
  generalize hpos : (s.reg (hbmScrubPos c)).toNat = pos
  have hexec : exec (.patrolScrubRead c e) s = .next ((s.scrubRead c pos e).scrubOn c pos) := by
    refine (withUnit_ok hc _).trans (congrArg _ ?_)
    rw [if_pos (by rw [hserves, hturn]; rfl), scrub_eq, hpos]
  have hon := touches_scrubOn (s.scrubRead c pos e) c pos
  have hpoison := hon.2 .poison (by decide)
  obtain ⟨honly, hkept⟩ := scrubOn_chan (s.scrubRead c pos e) c pos
  obtain ⟨hnext, hregs⟩ := scrubOn_regs (s.scrubRead c pos e) c pos
  refine .intro hexec (chg_execPatrolScrubRead hexec).1 ⟨hnext, OnlyChan.trans (onlyChan_scrubRead s c pos e) honly, fun he => ?_, fun he => ?_, fun he => ?_⟩
  · subst he
    obtain ⟨_, hcount, hsame⟩ := scrubRead_corrected s c pos
    exact ⟨(congrArg Chan.ceCount hkept).trans hcount, hpoison.trans hsame⟩
  · subst he
    obtain ⟨_, hcount, hlost, hspoilt⟩ := scrubRead_uncorrectable s c pos
    have hcells : (((s.scrubRead c pos .uncorrectable).scrubOn c pos).chan c).spoilt = ((s.scrubRead c pos .uncorrectable).chan c).spoilt :=
      (congrArg Chan.spoilt hkept :)
    have hlines : ((s.scrubRead c pos .uncorrectable).scrubOn c pos).poison = (s.scrubRead c pos .uncorrectable).poison := hpoison
    rw [hlines, hcells]
    exact ⟨(congrArg Chan.ueCount hkept).trans hcount, hlost, hspoilt⟩
  · subst he
    rw [scrubRead_clean] at hpoison hregs hon ⊢
    exact ⟨hpoison, hon.2 .log (by decide), hregs⟩

theorem scrub_waits_behind_requests {s : State} {c : Nat} {e : EccResult} {r : HbmReq} (hc : okChan c = true) (hr : r ∈ (s.chan c).reqs) (hearly : s.scrubLate c = false) :
    Does (.patrolScrubRead c e) s [] fun t => t = s := by
  have hturn : s.scrubTurn c = false := List.all_eq_false.mpr ⟨r, hr, by rw [hearly]; simp⟩
  refine .stays ((withUnit_ok hc _).trans (congrArg _ (if_neg ?_)))
  rw [hturn, Bool.and_false]
  decide

/-! Training and retirement (R262, R407, R434). -/

theorem getLast_stamp (xs : List Nat) {n : Nat} (hn : 0 < n) (now : Nat) : (stamp xs n now).getLast? = some now := by
  unfold stamp
  dsimp only
  rw [List.getLast?_drop, if_neg (by simp; omega), List.getLast?_append]
  rfl

theorem training_loss {s : State} {c : Nat} (hc : okChan c = true) (hkept : s.chanRetired c = false) (repaired : Bool) :
    exec (.hbmTrainingLoss c repaired) s =
      .next ((s.modChan c fun x => { x with retrain := if repaired then [] else stamp x.retrain 3 s.now }).setBit (hbmStat c) 0 repaired) := by
  refine (withUnit_ok hc _).trans (congrArg _ ?_)
  rw [if_neg (by rw [hkept]; decide)]
  cases repaired <;> rfl

theorem training_loss_counts {s : State} {c : Nat} (hc : okChan c = true) (hkept : s.chanRetired c = false) (repaired : Bool) :
    Does (.hbmTrainingLoss c repaired) s [.regs, .chans] fun t => t.bit (hbmStat c) 0 = repaired ∧
      (t.chan c).retrain = (if repaired then [] else stamp (s.chan c).retrain 3 s.now) ∧ RegsBut [hbmStat c] s t := by
  have hmod := chg_modChan s c fun x => { x with retrain := if repaired then [] else stamp x.retrain 3 s.now }
  have hset := chg_setBit (s.modChan c fun x => { x with retrain := if repaired then [] else stamp x.retrain 3 s.now }) (hbmStat c) 0 repaired
  refine .intro (training_loss hc hkept repaired) ((hmod.mono (subF_of rfl)).trans (hset.mono (subF_of rfl))).1 ⟨State.bit_setBit_self _ (by decide), ?_, ?_⟩
  · rw [hset.1.chan_eq (by decide), State.chan_modChan_self]
  · exact (RegsBut.of_regs (hmod.1.regs_eq (by decide))).trans (regsBut_setBit _ _ 0 repaired)

theorem getBits_or_pow (m c k : Nat) : getBits (m ||| 2 ^ c) k 1 = if k = c then 1 else getBits m k 1 := by
  refine Nat.eq_of_testBit_eq fun i => ?_
  rw [testBit_getBits, Nat.testBit_or, Nat.testBit_two_pow]
  split
  · next h => subst h; cases i <;> simp [Nat.testBit_succ]
  · next h =>
    rw [testBit_getBits]
    cases i with
    | zero => simp [Ne.symm h]
    | succ i => simp

theorem hbmStat_ne_logDrop (c : Nat) : hbmStat c ≠ logDrop := by
  unfold hbmStat hbmBlk logDrop
  omega

/-- A retired channel is in the chart's map, and the reservations on its granules are lost (R255). -/
def State.mapOut (s : State) (c : Nat) : State :=
  { s with
    chart := { s.chart with mChans := s.chart.mChans ||| 2 ^ c }
    cores := s.cores.map fun (e : Nat × Core) => (e.1, e.2.breakResv fun _ _ r => !r.isLocal && r.granule * r.size / 2 ^ 31 == c) }

/-- What a retirement does before its record and its vector (R434). -/
def State.dropChan (s : State) (c : Nat) : State :=
  let u := ((s.mapOut c).setBit (hbmStat c) 1 true).modDie (dieOfChan c) fun x => { x with l2 := x.l2.filter fun e => e.1 / 2 ^ 24 != c }
  let v : State := { u with launches := u.launches.map fun (e : Nat × Launch) =>
    (e.1, match e.2.word with
      | some w => if e.2.armed && w / 2 ^ 31 == c then { e.2 with touched := true } else e.2
      | none => e.2) }
  v.modChan c fun x => { x with reqs := [], fetched := [], spoilt := [] }

theorem retireChan_eq (s : State) (c cause : Nat) : s.retireChan c cause = ((s.dropChan c).logRetired ukChannel c cause).irq 0 (128 + c) := rfl

theorem dropChan_parts (s : State) (c : Nat) : (s.dropChan c).chart = { s.chart with mChans := s.chart.mChans ||| 2 ^ c } ∧
    (s.dropChan c).bit (hbmStat c) 1 = true ∧ ((s.dropChan c).chan c).reqs = [] ∧ (∀ e ∈ ((s.dropChan c).die (c / 64)).l2, e.1 / 2 ^ 24 ≠ c) ∧ (s.dropChan c).host = s.host := by
  refine ⟨rfl, ?_, congrArg Chan.reqs (State.chan_modChan_self _ c _), fun e he => ?_, rfl⟩
  · exact State.bit_setBit_self (s.mapOut c) (by decide)
  · have hl2 : ((s.dropChan c).die (dieOfChan c)).l2 = (s.die (dieOfChan c)).l2.filter fun e => e.1 / 2 ^ 24 != c :=
      congrArg Die.l2 (State.die_modDie_self ((s.mapOut c).setBit (hbmStat c) 1 true) (dieOfChan c) fun x => { x with l2 := x.l2.filter fun e => e.1 / 2 ^ 24 != c })
    rw [show c / 64 = dieOfChan c from rfl, hl2] at he
    simpa using (List.mem_filter.mp he).2

/-- A channel that is retired: it is in the chart's map, and nothing of it is left in L2 or in its controller (R262, R434). -/
theorem retireChan_parts (s : State) {c : Nat} (cause : Nat) (hmask : s.host.unmasked.contains (128 + c) = false) :
    (s.retireChan c cause).chart = { s.chart with mChans := s.chart.mChans ||| 2 ^ c } ∧ (s.retireChan c cause).bit (hbmStat c) 1 = true ∧
    ((s.retireChan c cause).chan c).reqs = [] ∧ (∀ e ∈ ((s.retireChan c cause).die (c / 64)).l2, e.1 / 2 ^ 24 ≠ c) ∧ (128 + c) ∈ (s.retireChan c cause).host.pend := by
  obtain ⟨hchart, hbit, hreqs, hl2, hhost⟩ := dropChan_parts s c
  have hlog := (chg_logRetired (s.dropChan c) ukChannel c cause).1
  have hirq := (chg_irq ((s.dropChan c).logRetired ukChannel c cause) 0 (128 + c)).1
  have hregs : RegsBut [logDrop] (s.dropChan c) ((s.dropChan c).logRetired ukChannel c cause) := regsBut_logRaise _ _ _ _ _ _
  have hlogHost : ((s.dropChan c).logRetired ukChannel c cause).host = s.host := (hlog.2 .host (by decide)).trans hhost
  rw [retireChan_eq]
  refine ⟨?_, ?_, ?_, ?_, ?_⟩
  · exact (hirq.chart_eq (by decide)).trans ((hlog.chart_eq (by decide)).trans hchart)
  · rw [State.bit_congr ((hirq.reg_eq (by decide) _).trans (hregs _ (by simpa using hbmStat_ne_logDrop c)))]
    exact hbit
  · rw [hirq.chan_eq (by decide), hlog.chan_eq (by decide)]
    exact hreqs
  · rw [hirq.die_eq (by decide), hlog.die_eq (by decide)]
    exact hl2
  · have hpend := (oneVector_irq ((s.dropChan c).logRetired ukChannel c cause) 0 (128 + c) (.inl rfl)).2 (.inl (by rw [hlogHost, Nat.zero_mul, Nat.zero_add]; exact hmask))
    rw [hpend.2]
    exact mem_sins.mpr (.inl (by omega))

theorem worn_channel_retires {s : State} {c : Nat} (hc : okChan c = true) (hgood : getBits s.chart.mChans c 1 = 0)
    (hworn : (s.chan c).rowsWorn = true ∨ (s.chan c).untrainable = true) (hmask : s.host.unmasked.contains (128 + c) = false) :
    Does (.channelRetire c) s [.out, .regs, .cores, .launches, .dies, .chans, .chart, .host, .log] fun t => t.chanRetired c = true ∧ t.bit (hbmStat c) 1 = true ∧
      (∀ k, k ≠ c → t.chanRetired k = s.chanRetired k) ∧ (t.chan c).reqs = [] ∧ (∀ e ∈ (t.die (c / 64)).l2, e.1 / 2 ^ 24 ≠ c) ∧ (128 + c) ∈ t.host.pend := by
  have hexec : ∃ cause, exec (.channelRetire c) s = .next (s.retireChan c cause) := by
    by_cases hrows : (s.chan c).rowsWorn = true
    · refine ⟨0, (withUnit_ok hc _).trans (congrArg _ ?_)⟩
      rw [if_neg (by rw [hgood]; decide), if_pos hrows]
    · refine ⟨1, (withUnit_ok hc _).trans (congrArg _ ?_)⟩
      rw [if_neg (by rw [hgood]; decide), if_neg hrows, if_pos (hworn.resolve_left hrows)]
  obtain ⟨cause, hexec⟩ := hexec
  obtain ⟨hchart, hbit, hreqs, hl2, hpend⟩ := retireChan_parts s cause hmask
  have hretired : ∀ k, (s.retireChan c cause).chanRetired k = (getBits s.chart.rChans k 1 == 1 || (if k = c then 1 else getBits s.chart.mChans k 1) == 1) := fun k => by
    unfold State.chanRetired
    rw [hchart, ← getBits_or_pow]
  refine .intro hexec (chg_retireChan s c cause).1 ⟨?_, hbit, fun k hk => ?_, hreqs, hl2, hpend⟩
  · rw [hretired, if_pos rfl, Bool.or_comm]
    rfl
  · rw [hretired, if_neg hk]
    rfl

/-! Die-to-die links (R27). -/

theorem link_failure_is_recorded {s : State} {n : Nat} (hn : n < 4) (hup : n ∉ s.d2d) :
    Does (.d2dLinkFail n) s [.regs, .d2d, .log] fun t => ∀ k, k ∈ t.d2d ↔ k = n ∨ k ∈ s.d2d := by
  have hlog := (chg_logRaise { s with d2d := sins s.d2d n } sevAlert none srcRim 0x33 (leBytes 1 n ++ leBytes 8 s.now)).1
  have hexec : exec (.d2dLinkFail n) s = .next (({ s with d2d := sins s.d2d n } : State).logRaise sevAlert none srcRim 0x33 (leBytes 1 n ++ leBytes 8 s.now)) :=
    (withUnit_ok (decide_eq_true hn) _).trans (congrArg _ (if_neg (by simpa using hup)))
  refine .intro hexec (chg_execD2dLinkFail hexec).1 fun k => ?_
  rw [hlog.2 .d2d (by decide)]
  exact mem_sins

theorem known_link_failure {s : State} {n : Nat} (hn : n < 4) (hdown : n ∈ s.d2d) : Does (.d2dLinkFail n) s [] fun t => t = s :=
  .stays ((withUnit_ok (decide_eq_true hn) _).trans (congrArg _ (if_pos (by simpa using hdown))))

theorem channelsAreScrubbedAndRetired : ChannelsAreScrubbedAndRetired := by
  unfold ChannelsAreScrubbedAndRetired
  refine ⟨fun s c e => scrub_reads_next_line, fun s c e r => scrub_waits_behind_requests, fun s c hc hkept => ?_, fun s c hc hkept => ?_,
    fun s c => worn_channel_retires, fun s n => link_failure_is_recorded, fun s n => known_link_failure⟩
  · exact (training_loss_counts hc hkept false).imp fun t ⟨hbit, hstamps, hregs⟩ => ⟨hbit, hstamps ▸ getLast_stamp _ (by decide) _, hregs⟩
  · exact (training_loss_counts hc hkept true).imp fun t h => h

/-! Traffic generators: what their lines ask of the channel (R283, R284). -/

section
variable {s t : State}

theorem fld_of_regs (h : t.regs = s.regs) (k lo n : Nat) : t.fld k lo n = s.fld k lo n := State.fld_congr (reg_of_regs h k) lo n

theorem bit_of_regs (h : t.regs = s.regs) (k i : Nat) : t.bit k i = s.bit k i := State.bit_congr (reg_of_regs h k) i

theorem reg64_of_regs (h : t.regs = s.regs) (k : Nat) : t.reg64 k = s.reg64 k := State.reg64_congr (reg_of_regs h k) (reg_of_regs h (k + 4))

theorem tgByte_of_regs (h : t.regs = s.regs) (c off : Nat) : t.tgByte c off = s.tgByte c off := by
  unfold State.tgByte State.tgPat
  simp only [fld_of_regs h, reg64_of_regs h, reg_of_regs h]

theorem tgBytes_of_regs (h : t.regs = s.regs) (c off n : Nat) : t.tgBytes c off n = s.tgBytes c off n := by
  unfold State.tgBytes
  simp only [tgByte_of_regs h]

theorem tgErrs_of_touches {L : List Fld} (h : Touches L s t) (hregs : Fld.regs ∉ L) (hmem : Fld.mem ∉ L) (hepoch : Fld.memEpoch ∉ L) (c off : Nat) :
    t.tgErrs c off = s.tgErrs c off := by
  unfold State.tgErrs
  simp only [h.bytes_eq hmem hepoch, tgBytes_of_regs (h.regs_eq hregs)]

end

theorem tgSend_chan (s : State) (c i : Nat) : (s.tgSend c i).chan c = { s.chan c with
    tgAt := i, reqs := (s.chan c).reqs ++ [{ cls := 5, line := (2 ^ 31 * c + s.reg64 (tgBase c)) / 128 + i, gt := s.now, gen := true, writes := s.tgOp c != 2 && !(s.chan c).tgRead }] } :=
  State.chan_modChan_self s c _

theorem tgAsk_in_order {s : State} {c : Nat} (h : s.tgPat c ≠ 3) : s.tgAsk c = s.tgSend c (s.chan c).tgPos := if_neg h

theorem tgAsk_waits {s : State} {c : Nat} (h : s.tgPat c = 3) (hnone : s.tgChoices c = []) : s.tgAsk c = s.modChan c fun x => { x with tgHold := true } := by
  unfold State.tgAsk
  rw [if_pos h, hnone]

/-- The state in which the generator of pattern 3 has chosen line `i`. -/
def State.tgPick (s : State) (c i : Nat) : State :=
  s.freeNat.2.modChan c fun x => { x with
    tgHold := false
    tgSeen := x.tgSeen ++ [i]
    tgActs := (x.tgActs.filter fun a => decide (s.now < a.2 + tgWindow)) ++ [(Config.hbmRow (s.tgNum c i), s.now)] }

theorem tgAsk_picks {s : State} {c : Nat} (h : s.tgPat c = 3) (hsome : s.tgChoices c ≠ []) : ∃ i ∈ s.tgChoices c, s.tgAsk c = (s.tgPick c i).tgSend c i := by
  obtain ⟨j, js, hjs⟩ := List.exists_cons_of_ne_nil hsome
  refine ⟨(s.tgChoices c).getD (s.freeNat.1 % (s.tgChoices c).length) 0, ?_, ?_⟩
  · have hlt : s.freeNat.1 % (s.tgChoices c).length < (s.tgChoices c).length := Nat.mod_lt _ (List.length_pos_of_ne_nil hsome)
    rw [List.getD_eq_getElem _ _ hlt]
    exact List.getElem_mem hlt
  · unfold State.tgAsk
    rw [if_pos h, hjs]
    rfl

theorem tgPick_touches (s : State) (c i : Nat) : Touches [.free, .chans] s (s.tgPick c i) :=
  ((chg_freeNat s).1.mono (subF_of rfl)).trans ((chg_modChan _ c _).1.mono (subF_of rfl))

/-- Whatever the generator asks for, it does so of its own channel, in which only its place and the requests change. -/
theorem tgAsk_chan (s : State) (c : Nat) : OnlyChan c s (s.tgAsk c) ∧ ((s.tgAsk c).chan c).calDue = (s.chan c).calDue ∧
    ((s.tgAsk c).chan c).tgRun = (s.chan c).tgRun := by
  have hsend : ∀ (w : State) i, OnlyChan c w (w.tgSend c i) ∧ ((w.tgSend c i).chan c).calDue = (w.chan c).calDue ∧ ((w.tgSend c i).chan c).tgRun = (w.chan c).tgRun :=
    fun w i => ⟨onlyChan_modChan w c _, by rw [tgSend_chan], by rw [tgSend_chan]⟩
  by_cases h : s.tgPat c = 3
  · by_cases hnone : s.tgChoices c = []
    · rw [tgAsk_waits h hnone]
      exact ⟨onlyChan_modChan s c _, by rw [State.chan_modChan_self], by rw [State.chan_modChan_self]⟩
    · obtain ⟨i, _, hask⟩ := tgAsk_picks h hnone
      obtain ⟨honly, hdue, hrun⟩ := hsend (s.tgPick c i) i
      have hfree := (chg_freeNat s).1.chan_eq (by decide)
      have hpick : (s.tgPick c i).chan c = _ := State.chan_modChan_self s.freeNat.2 c _
      rw [hask]
      refine ⟨OnlyChan.trans (fun k hk => (State.chan_modChan_ne _ _ hk).trans (hfree k)) honly, ?_, ?_⟩
      · rw [hdue, hpick, hfree]
      · rw [hrun, hpick, hfree]
  · rw [tgAsk_in_order h]
    exact hsend s _

theorem tgChoices_lt {s : State} {c i : Nat} (h : i ∈ s.tgChoices c) : i < s.tgLines c := by
  have hcool : ∀ (p q : Nat → Bool), i ∈ ((upTo (s.tgLines c)).filter p).filter q ∨ i ∈ (upTo (s.tgLines c)).filter p → i < s.tgLines c := fun p q hi => by
    rcases hi with hi | hi
    · exact List.mem_range.mp (List.mem_filter.mp (List.mem_filter.mp hi).1).1
    · exact List.mem_range.mp (List.mem_filter.mp hi).1
  unfold State.tgChoices at h
  dsimp only at h
  split at h
  · exact hcool _ _ (.inl h)
  · exact hcool _ (fun _ => true) (.inr h)

theorem tgAsk_stride {s : State} {c : Nat} (h : s.tgPat c = 3) : ((s.tgAsk c).chan c).tgHold = true ∨ ((s.tgAsk c).chan c).tgAt < s.tgLines c ∧
    ((s.tgAsk c).chan c).reqs.getLast?.map (·.line) = some ((2 ^ 31 * c + s.reg64 (tgBase c)) / 128 + ((s.tgAsk c).chan c).tgAt) := by
  by_cases hnone : s.tgChoices c = []
  · rw [tgAsk_waits h hnone, State.chan_modChan_self]
    exact .inl rfl
  · obtain ⟨i, hi, hask⟩ := tgAsk_picks h hnone
    rw [hask, tgSend_chan]
    refine .inr ⟨tgChoices_lt hi, ?_⟩
    dsimp only
    rw [List.getLast?_append, reg64_of_regs ((tgPick_touches s c i).regs_eq (by decide))]
    rfl

/-! The generators' commands (R283, R285). -/

theorem start_refused {s : State} {c : Nat} (hc : okChan c = true) (hstored : Stored s (tgCtrl c)) (hidle : (s.chan c).tgRun = false) (hbad : s.tgRefused c = true) :
    Does (.hbmTgStart c) s [.regs] fun t => t.bit (tgCtrl c) 3 = true ∧ RegsBut [tgCtrl c] s t := by
  have hexec : exec (.hbmTgStart c) s = .next (s.setBit (tgCtrl c) 3 true) := by
    show execHbmTgStart c s = _
    unfold execHbmTgStart
    rw [withUnit_ok hc, pfStores_of_stored hstored, if_neg (by rw [hidle]; decide), if_pos hbad]
  exact .intro hexec (chg_setBit s _ _ _).1 ⟨State.bit_setBit_self s (by decide), regsBut_setBit s _ _ _⟩

/-- START clears the results and shows that the generator runs. -/
def State.tgClear (s : State) (c : Nat) : State :=
  (((((((s.setReg (tgErrCnt c) 0).setReg64 (tgErrAddr c) 0).setReg64 (tgErrXor c) 0).setReg64 (tgPasses c) 0).setBit (tgCtrl c) 0 true).setBit (tgCtrl c) 2 false).setBit
    (tgCtrl c) 3 false).setBit (hbmStat c) 5 true

theorem touches_tgClear (s : State) (c : Nat) : Touches [.regs] s (s.tgClear c) := by
  unfold State.tgClear
  exact ((chg_setReg s _ _).trans ((chg_setReg64 _ _ _).trans ((chg_setReg64 _ _ _).trans ((chg_setReg64 _ _ _).trans
    ((chg_setBit _ _ _ _).trans ((chg_setBit _ _ _ _).trans ((chg_setBit _ _ _ _).trans (chg_setBit _ _ _ _)))))))).1

theorem reg64_setBit_ne (s : State) {k j i : Nat} {b : Bool} (h : i ≠ k) (h4 : i + 4 ≠ k) : (s.setBit k j b).reg64 i = s.reg64 i :=
  State.reg64_congr (State.reg_setBit_ne s h) (State.reg_setBit_ne s h4)

theorem tgClear_results (s : State) (c : Nat) : (s.tgClear c).reg (tgErrCnt c) = 0 ∧ (s.tgClear c).reg64 (tgErrAddr c) = 0 ∧ (s.tgClear c).reg64 (tgErrXor c) = 0 ∧
    (s.tgClear c).reg64 (tgPasses c) = 0 := by
  simp (disch := (simp only [hbmStat, tgCtrl, tgErrCnt, tgErrAddr, tgErrXor, tgPasses]; omega)) only [State.tgClear, State.reg_setBit_ne, State.reg_setReg64_ne,
    State.reg_setReg_self, reg64_setBit_ne, State.reg64_setReg64_ne, State.reg64_setReg64_self, Nat.zero_mod, and_self]

/-- The control register as START leaves it, and the channel's state bit. -/
theorem tgClear_bits (s : State) (c : Nat) : (s.tgClear c).bit (tgCtrl c) 0 = true ∧ (s.tgClear c).bit (tgCtrl c) 2 = false ∧ (s.tgClear c).bit (tgCtrl c) 3 = false ∧
    (s.tgClear c).bit (hbmStat c) 5 = true ∧ ∀ lo n, 4 ≤ lo → (s.tgClear c).fld (tgCtrl c) lo n = s.fld (tgCtrl c) lo n := by
  let w := (((s.setReg (tgErrCnt c) 0).setReg64 (tgErrAddr c) 0).setReg64 (tgErrXor c) 0).setReg64 (tgPasses c) 0
  have hw : w.reg (tgCtrl c) = s.reg (tgCtrl c) := by
    simp (disch := (simp only [tgCtrl, tgErrCnt, tgErrAddr, tgErrXor, tgPasses]; omega)) only [w, State.reg_setReg64_ne, State.reg_setReg_ne]
  have hctrl : (s.tgClear c).reg (tgCtrl c) = (((w.setBit (tgCtrl c) 0 true).setBit (tgCtrl c) 2 false).setBit (tgCtrl c) 3 false).reg (tgCtrl c) :=
    State.reg_setBit_ne _ (by unfold tgCtrl hbmStat; omega)
  refine ⟨?_, ?_, ?_, State.bit_setBit_self _ (by decide), fun lo n hlo => ?_⟩
  · rw [State.bit_congr hctrl, State.bit_setBit_ne _ (by decide) (by decide), State.bit_setBit_ne _ (by decide) (by decide), State.bit_setBit_self _ (by decide)]
  · rw [State.bit_congr hctrl, State.bit_setBit_ne _ (by decide) (by decide), State.bit_setBit_self _ (by decide)]
  · rw [State.bit_congr hctrl, State.bit_setBit_self _ (by decide)]
  · rw [State.fld_congr hctrl, State.fld_setBit_disjoint _ (by decide) (by omega), State.fld_setBit_disjoint _ (by decide) (by omega),
      State.fld_setBit_disjoint _ (by decide) (by omega), State.fld_congr hw]

theorem regsBut_tgClear (s : State) (c : Nat) : RegsBut (tgRegs c) s (s.tgClear c) := fun k hk => by
  simp only [tgRegs, List.mem_cons, List.not_mem_nil, or_false, not_or] at hk
  obtain ⟨hctrl, hcnt, haddr, haddr4, hxor, hxor4, hpass, hpass4, hstat⟩ := hk
  unfold State.tgClear
  rw [State.reg_setBit_ne _ hstat, State.reg_setBit_ne _ hctrl, State.reg_setBit_ne _ hctrl, State.reg_setBit_ne _ hctrl, State.reg_setReg64_ne _ hpass hpass4,
    State.reg_setReg64_ne _ hxor hxor4, State.reg_setReg64_ne _ haddr haddr4, State.reg_setReg_ne _ _ hcnt]

/-- The channel as a run begins. -/
def Chan.tgBegin (x : Chan) : Chan := { x with tgRun := true, tgRead := false, tgPos := 0, tgSeen := [], tgHold := false }

theorem tgClear_chan (s : State) (c k : Nat) : ((s.modChan c Chan.tgBegin).tgClear c).chan k = if k = c then (s.chan c).tgBegin else s.chan k := by
  rw [(touches_tgClear _ c).chan_eq (by decide)]
  split
  · next h => rw [h, State.chan_modChan_self]
  · next h => exact State.chan_modChan_ne s _ h

theorem range_not_tgRegs {c k : Nat} (h : k ∈ [tgBase c, tgBase c + 4, tgLen c, tgLen c + 4]) : k ∉ tgRegs c := by
  simp only [tgRegs, hbmStat, tgCtrl, tgBase, tgLen, tgErrCnt, tgErrAddr, tgErrXor, tgPasses, List.mem_cons, List.not_mem_nil, or_false] at h ⊢
  omega

/-- What START finds of the range and of its choices, it leaves. -/
theorem tgClear_choices (s : State) (c : Nat) : ((s.modChan c Chan.tgBegin).tgClear c).tgPat c = s.tgPat c ∧ ((s.modChan c Chan.tgBegin).tgClear c).tgOp c = s.tgOp c ∧
    ((s.modChan c Chan.tgBegin).tgClear c).reg64 (tgBase c) = s.reg64 (tgBase c) ∧ ((s.modChan c Chan.tgBegin).tgClear c).tgLines c = s.tgLines c := by
  have hregs : (s.modChan c Chan.tgBegin).regs = s.regs := (chg_modChan s c _).1.regs_eq (by decide)
  have hbut := regsBut_tgClear (s.modChan c Chan.tgBegin) c
  have hkeep : ∀ k, k ∉ tgRegs c → k + 4 ∉ tgRegs c → ((s.modChan c Chan.tgBegin).tgClear c).reg64 k = s.reg64 k := fun k h h4 =>
    (State.reg64_congr (hbut k h) (hbut (k + 4) h4)).trans (reg64_of_regs hregs k)
  obtain ⟨_, _, _, _, hfld⟩ := tgClear_bits (s.modChan c Chan.tgBegin) c
  exact ⟨(hfld 4 3 (by decide)).trans (fld_of_regs hregs _ _ _), (hfld 7 2 (by decide)).trans (fld_of_regs hregs _ _ _),
    hkeep _ (range_not_tgRegs (by simp)) (range_not_tgRegs (by simp)), congrArg (· / 128) (hkeep _ (range_not_tgRegs (by simp)) (range_not_tgRegs (by simp)))⟩

theorem exec_tgStart {s : State} {c : Nat} (hc : okChan c = true) (hstored : Stored s (tgCtrl c)) (hidle : (s.chan c).tgRun = false) (hgood : s.tgRefused c = false) :
    exec (.hbmTgStart c) s = .next (((s.modChan c Chan.tgBegin).tgClear c).tgAsk c) := by
  show execHbmTgStart c s = _
  unfold execHbmTgStart
  rw [withUnit_ok hc, pfStores_of_stored hstored, if_neg (by rw [hidle]; decide), if_neg (by rw [hgood]; decide)]
  rfl

theorem start_runs {s : State} {c : Nat} (hc : okChan c = true) (hstored : Stored s (tgCtrl c)) (hidle : (s.chan c).tgRun = false) (hgood : s.tgRefused c = false) :
    Does (.hbmTgStart c) s (if s.tgPat c = 3 then [.free, .regs, .chans] else [.regs, .chans]) fun t => OnlyChan c s t ∧
      (s.tgPat c ≠ 3 → t.chan c = { s.chan c with
        tgRun := true, tgRead := false, tgPos := 0, tgAt := 0, tgSeen := [], tgHold := false,
        reqs := (s.chan c).reqs ++ [{ cls := 5, line := (2 ^ 31 * c + s.reg64 (tgBase c)) / 128, gt := s.now, gen := true, writes := s.tgOp c != 2 }] }) ∧
      (s.tgPat c = 3 → (t.chan c).tgRun = true ∧ ((t.chan c).tgHold = true ∨ (t.chan c).tgAt < s.tgLines c ∧
        (t.chan c).reqs.getLast?.map (·.line) = some ((2 ^ 31 * c + s.reg64 (tgBase c)) / 128 + (t.chan c).tgAt))) ∧
      t.bit (tgCtrl c) 0 = true ∧ t.bit (tgCtrl c) 2 = false ∧ t.bit (tgCtrl c) 3 = false ∧ t.reg (tgErrCnt c) = 0 ∧ t.reg64 (tgErrAddr c) = 0 ∧ t.reg64 (tgErrXor c) = 0 ∧
      t.reg64 (tgPasses c) = 0 ∧ t.bit (hbmStat c) 5 = true ∧ RegsBut (tgRegs c) s t := by
  have hexec := exec_tgStart hc hstored hidle hgood
  obtain ⟨hpat, hop, hbase, hlines⟩ := tgClear_choices s c
  obtain ⟨hrun, hdone, hrefused, hstat, _⟩ := tgClear_bits (s.modChan c Chan.tgBegin) c
  obtain ⟨hcnt, haddr, hxor, hpasses⟩ := tgClear_results (s.modChan c Chan.tgBegin) c
  have hchan := tgClear_chan s c
  have hmod := (chg_modChan s c Chan.tgBegin).1
  have hclear := touches_tgClear (s.modChan c Chan.tgBegin) c
  have hbut := RegsBut.trans (.of_regs (hmod.regs_eq (by decide))) (regsBut_tgClear (s.modChan c Chan.tgBegin) c)
  have hnow : ((s.modChan c Chan.tgBegin).tgClear c).now = s.now :=
    congrArg BitVec.toNat ((hclear.2 .gt (by decide)).trans (hmod.2 .gt (by decide)))
  generalize (s.modChan c Chan.tgBegin).tgClear c = w at *
  have hsw : Touches [.regs, .chans] s w := (hmod.mono (subF_of rfl)).trans (hclear.mono (subF_of rfl))
  have hask := (chg_tgAsk w c).1
  have hregs : (w.tgAsk c).regs = w.regs := hask.regs_eq (by decide)
  obtain ⟨honly, _, hrunning⟩ := tgAsk_chan w c
  have hbegin : w.chan c = (s.chan c).tgBegin := by rw [hchan, if_pos rfl]
  refine .intro hexec ?_ ⟨fun k hk => (honly k hk).trans (by rw [hchan, if_neg hk]), fun h => ?_, fun h => ⟨?_, ?_⟩, (bit_of_regs hregs _ _).trans hrun,
    (bit_of_regs hregs _ _).trans hdone, (bit_of_regs hregs _ _).trans hrefused, (reg_of_regs hregs _).trans hcnt, (reg64_of_regs hregs _).trans haddr,
    (reg64_of_regs hregs _).trans hxor, (reg64_of_regs hregs _).trans hpasses, (bit_of_regs hregs _ _).trans hstat, hbut.trans (.of_regs hregs)⟩
  · split
    · exact (hsw.mono (subF_of rfl)).trans (hask.mono (subF_of rfl))
    · next h =>
      rw [tgAsk_in_order (by rw [hpat]; exact h)]
      exact hsw.trans ((chg_modChan w c _).1.mono (subF_of rfl))
  · rw [tgAsk_in_order (by rw [hpat]; exact h), tgSend_chan, hbegin, hbase, hop, hnow]
    simp [Chan.tgBegin]
  · rw [hrunning, hbegin]
    rfl
  · rw [← hlines, ← hbase]
    exact tgAsk_stride (hpat.trans h)

theorem stop_waits_for_line {s : State} {c : Nat} (hc : okChan c = true) (hstored : Stored s (tgCtrl c)) :
    exec (.hbmTgStop c) s = .next (if (s.chan c).tgRun then s.setBit (tgCtrl c) 1 true else s) := by
  show execHbmTgStop c s = _
  unfold execHbmTgStop
  rw [withUnit_ok hc, pfStores_of_stored hstored]

theorem run_ends {s : State} {c : Nat} (hc : okChan c = true) (hdone : (s.chan c).tgDone = true) :
    Does (.hbmTgRunEnd c) s [.regs, .chans] fun t => OnlyChan c s t ∧ t.chan c = { s.chan c with tgRun := false } ∧ t.bit (tgCtrl c) 2 = true ∧ t.bit (tgCtrl c) 0 = false ∧
      t.bit (tgCtrl c) 1 = false ∧ t.bit (hbmStat c) 5 = false ∧ RegsBut [tgCtrl c, hbmStat c] s t := by
  let v := s.modChan c fun x => { x with tgRun := false }
  let w := (((v.setBit (tgCtrl c) 0 false).setBit (tgCtrl c) 1 false).setBit (tgCtrl c) 2 true).setBit (hbmStat c) 5 false
  have hexec : exec (.hbmTgRunEnd c) s = .next w := (withUnit_ok hc _).trans (congrArg _ (if_pos hdone))
  have hmod := (chg_modChan s c fun x => { x with tgRun := false }).1
  have hset : Touches [.regs] v w := ((chg_setBit _ _ _ _).trans ((chg_setBit _ _ _ _).trans ((chg_setBit _ _ _ _).trans (chg_setBit _ _ _ _)))).1
  have hctrl : w.reg (tgCtrl c) = (((v.setBit (tgCtrl c) 0 false).setBit (tgCtrl c) 1 false).setBit (tgCtrl c) 2 true).reg (tgCtrl c) :=
    State.reg_setBit_ne _ (by unfold tgCtrl hbmStat; omega)
  refine .intro hexec ((hmod.mono (subF_of rfl)).trans (hset.mono (subF_of rfl))) ⟨fun k hk => ?_, ?_, ?_, ?_, ?_, State.bit_setBit_self _ (by decide), fun k hk => ?_⟩
  · rw [hset.chan_eq (by decide)]
    exact State.chan_modChan_ne s _ hk
  · rw [hset.chan_eq (by decide)]
    exact State.chan_modChan_self s c _
  · rw [State.bit_congr hctrl, State.bit_setBit_self _ (by decide)]
  · rw [State.bit_congr hctrl, State.bit_setBit_ne _ (by decide) (by decide), State.bit_setBit_ne _ (by decide) (by decide), State.bit_setBit_self _ (by decide)]
  · rw [State.bit_congr hctrl, State.bit_setBit_ne _ (by decide) (by decide), State.bit_setBit_self _ (by decide)]
  · simp only [List.mem_cons, List.not_mem_nil, or_false, not_or] at hk
    rw [State.reg_setBit_ne _ hk.2, State.reg_setBit_ne _ hk.1, State.reg_setBit_ne _ hk.1, State.reg_setBit_ne _ hk.1]
    exact hmod.reg_eq (by decide) k

/-! A generator's line has its turn (R283 to R285). -/

theorem next_of_single {x : Chan} {r : HbmReq} (h : x.reqs = [r]) : x.next = some 0 := by
  unfold Chan.next
  rw [h]
  simp [upTo, argmin]

theorem payOwed_none {s : State} (h : NoneOwed s) : s.payOwed = s := by
  unfold State.payOwed
  simp only [show upTo 4 = [0, 1, 2, 3] from rfl, List.foldl_cons, List.foldl_nil, h 0 (by decide), h 1 (by decide), h 2 (by decide), h 3 (by decide),
    List.filter_nil, if_true]

theorem tgNext_keeps (x : Chan) (n op : Nat) : (x.tgNext n op).1.reqs = x.reqs ∧ (x.tgNext n op).1.tgHold = x.tgHold ∧ (x.tgNext n op).1.calDue = x.calDue := by
  unfold Chan.tgNext
  split
  · exact ⟨rfl, rfl, rfl⟩
  · split <;> exact ⟨rfl, rfl, rfl⟩

theorem refreshOwed_keeps (x : Chan) : x.refreshOwed.reqs = x.reqs ∧ x.refreshOwed.tgHold = x.tgHold ∧ x.refreshOwed.calDue = x.calDue ∧ x.refreshOwed.tgPos = x.tgPos := by
  unfold Chan.refreshOwed
  split <;> exact ⟨rfl, rfl, rfl, rfl⟩

/-- What a generator's access to its line leaves: the pattern written, or the miscompares noted. -/
def State.tgAccess (s : State) (c : Nat) : State :=
  if s.tgOp c == 2 || (s.chan c).tgRead then s.tgReport c (s.tgErrs c (s.reg64 (tgBase c) + 128 * (s.chan c).tgAt))
  else s.writeMem (2 ^ 31 * c + (s.reg64 (tgBase c) + 128 * (s.chan c).tgAt)) (s.tgBytes c (s.reg64 (tgBase c) + 128 * (s.chan c).tgAt) 128)

/-- Whether the pass is complete with the line. -/
def State.tgPassed (s : State) (c : Nat) : Bool := ((s.chan c).tgNext (s.tgLines c) (s.tgOp c)).2

/-- The generator's place after the access, with its passes. -/
def State.tgStep (s : State) (c : Nat) : State :=
  ((s.tgAccess c).modChan c fun y => (y.tgNext (s.tgLines c) (s.tgOp c)).1).setReg64 (tgPasses c) (s.reg64 (tgPasses c) + (if s.tgPassed c then 1 else 0))

/-- The run ends with the line: at STOP, at a miscompare with STOPERR, or after its last pass. -/
def State.tgLast (s : State) (c : Nat) : Bool :=
  s.tgStop c || (s.tgStopErr c && (if s.tgOp c == 2 || (s.chan c).tgRead then s.tgErrs c (s.reg64 (tgBase c) + 128 * (s.chan c).tgAt) else []) != []) ||
    (s.tgPassed c && s.reg64 (tgPasses c) + (if s.tgPassed c then 1 else 0) == s.tgNpass c)

theorem tgLine_eq (s : State) (c : Nat) : s.tgLine c = if s.tgLast c then s.tgStep c else (s.tgStep c).tgAsk c := by
  unfold State.tgLine State.tgLast State.tgStep State.tgAccess State.tgPassed
  by_cases hreads : (s.tgOp c == 2 || (s.chan c).tgRead) = true
  · simp only [if_pos hreads]
  · simp only [if_neg hreads]

/-- A write that the array takes shows in the channel's spoilt lines alone. -/
theorem modChan_wrote (s : State) (c : Nat) (r : HbmReq) : OnlyChan c s (s.modChan c fun y => y.wrote r) ∧
    ∃ cells, (s.modChan c fun y => y.wrote r).chan c = { s.chan c with spoilt := cells } := by
  refine ⟨onlyChan_modChan s c _, ?_⟩
  rw [State.chan_modChan_self]
  unfold Chan.wrote
  split
  · exact ⟨(s.chan c).spoilt, rfl⟩
  · exact ⟨_, rfl⟩

theorem handOver_chan (s : State) (c : Nat) (r : HbmReq) : OnlyChan c s (s.handOver c r) ∧
    ∃ lines, (s.handOver c r).chan c = { s.chan c with fetched := lines } := by
  unfold State.handOver
  split
  · exact ⟨onlyChan_modChan s c _, _, State.chan_modChan_self s c _⟩
  · exact ⟨fun _ _ => rfl, (s.chan c).fetched, rfl⟩

/-- The controller takes its only request, a generator's, and serves its line. -/
theorem serveHbm_takes {s : State} {c off : Nat} {r : HbmReq} (h : GeneratorsTurn s c r off) : ∃ u, Touches [.chans] s u ∧ OnlyChan c s u ∧
    (∃ cells lines, u.chan c = { s.chan c with reqs := [], spoilt := cells, fetched := lines }) ∧
    s.serveHbm c .clean = ((((u.tgLine c).modChan c Chan.refreshOwed).tgRetry c).tryCalibrate c) := by
  obtain ⟨⟨_, _, hlamp, hscrub, _⟩, hreqs, hgen, hcls, hrun, _⟩ := h
  let t := s.setChan c { s.chan c with reqs := [], lcrUsed := (s.chan c).lcrUsed + 0 }
  have ht : t.chan c = { s.chan c with reqs := [] } := State.chan_setChan_self s c _
  have honly : OnlyChan c s t := fun k hk => State.chan_setChan_ne s _ hk
  have hst : Touches [.chans] s t := (chg_setChan s c _).1
  have hused : (if r.cls = 2 then Config.linePs else 0) = 0 := if_neg (by rw [hcls]; decide)
  have hserve : s.serveHbm c .clean =
      (((((if r.writes then t.modChan c fun y => y.wrote r else t.handOver c r).tgLine c).modChan c Chan.refreshOwed).tgRetry c).tryCalibrate c) := by
    unfold State.serveHbm
    dsimp only
    rw [if_neg (by rw [hscrub, hlamp]; decide), next_of_single hreqs]
    dsimp only
    rw [hreqs]
    dsimp only [List.getElem?_cons_zero]
    rw [if_pos (by rw [hgen, hrun]; rfl), hused]
    rfl
  refine ⟨_, ?_, ?_, ?_, hserve⟩
  · exact hst.trans (Chg.ite (chg_modChan t c _) (chg_handOver t c r)).1
  · split
    · exact OnlyChan.trans honly (modChan_wrote t c r).1
    · exact OnlyChan.trans honly (handOver_chan t c r).1
  · split
    · obtain ⟨_, cells, hcells⟩ := modChan_wrote t c r
      exact ⟨cells, (s.chan c).fetched, hcells.trans (by rw [ht])⟩
    · obtain ⟨_, lines, hlines⟩ := handOver_chan t c r
      exact ⟨(s.chan c).spoilt, lines, hlines.trans (by rw [ht])⟩

theorem tgReport_touches (s : State) (c : Nat) (errs : List Nat) : Touches [.regs] s (s.tgReport c errs) := (chg_tgReport s c errs).1

theorem tgAccess_chans (s : State) (c : Nat) : (s.tgAccess c).chans = s.chans := by
  unfold State.tgAccess
  split
  · exact (tgReport_touches s c _).2 .chans (by decide)
  · exact (chg_writeMem s _ _).1.2 .chans (by decide)

/-- The generator's step changes its own channel's place, and the count of passes. -/
theorem tgStep_chan (s : State) (c : Nat) : OnlyChan c s (s.tgStep c) ∧ (s.tgStep c).chan c = ((s.chan c).tgNext (s.tgLines c) (s.tgOp c)).1 := by
  have haccess : ∀ k, (s.tgAccess c).chan k = s.chan k := fun k => by
    unfold State.chan
    rw [tgAccess_chans]
  have hset := (chg_setReg64 ((s.tgAccess c).modChan c fun y => (y.tgNext (s.tgLines c) (s.tgOp c)).1) (tgPasses c)
    (s.reg64 (tgPasses c) + (if s.tgPassed c then 1 else 0))).1
  refine ⟨fun k hk => ?_, ?_⟩
  · exact (hset.chan_eq (by decide) k).trans ((State.chan_modChan_ne _ _ hk).trans (haccess k))
  · refine (hset.chan_eq (by decide) c).trans ((State.chan_modChan_self _ _ _).trans ?_)
    rw [haccess]

theorem tgStep_touches (s : State) (c : Nat) : Touches [.regs, .chans] (s.tgAccess c) (s.tgStep c) :=
  ((chg_modChan _ c _).1.mono (subF_of rfl)).trans ((chg_setReg64 _ _ _).1.mono (subF_of rfl))

theorem tgStep_regs (s : State) (c : Nat) : RegsBut [tgPasses c, tgPasses c + 4] (s.tgAccess c) (s.tgStep c) ∧
    (s.tgStep c).reg64 (tgPasses c) = (s.reg64 (tgPasses c) + (if s.tgPassed c then 1 else 0)) % 2 ^ 64 :=
  ⟨RegsBut.trans (.of_regs ((chg_modChan _ c _).1.regs_eq (by decide))) (regsBut_setReg64 _ _ _), State.reg64_setReg64_self _⟩

theorem tgRetry_chan (s : State) (c : Nat) : Touches [.free, .chans] s (s.tgRetry c) ∧ OnlyChan c s (s.tgRetry c) ∧ ((s.tgRetry c).chan c).calDue = (s.chan c).calDue := by
  refine ⟨(chg_tgRetry s c).1, ?_⟩
  unfold State.tgRetry
  split
  · exact ⟨(tgAsk_chan s c).1, (tgAsk_chan s c).2.1⟩
  · exact ⟨fun _ _ => rfl, rfl⟩

theorem tgRetry_unheld {s : State} {c : Nat} (h : (s.chan c).tgHold = false) : s.tgRetry c = s := if_neg (by rw [h]; simp)

theorem tryCalibrate_none {s : State} {c : Nat} (h : (s.chan c).calDue = none) : s.tryCalibrate c = s := by
  unfold State.tryCalibrate
  dsimp only
  rw [h]
  rfl

/-- What the controller leaves once it has served a generator's line: owed refreshes done, and a generator that waits asked again (R278, R284). -/
def State.tgTurn (s : State) (c : Nat) : State := (s.modChan c Chan.refreshOwed).tgRetry c

theorem tgTurn_parts (s : State) (c : Nat) : Touches [.free, .chans] s (s.tgTurn c) ∧ OnlyChan c s (s.tgTurn c) ∧ ((s.tgTurn c).chan c).calDue = (s.chan c).calDue := by
  obtain ⟨htouch, honly, hdue⟩ := tgRetry_chan (s.modChan c Chan.refreshOwed) c
  refine ⟨((chg_modChan s c _).1.mono (subF_of rfl)).trans htouch, OnlyChan.trans (onlyChan_modChan s c _) honly, hdue.trans ?_⟩
  rw [State.chan_modChan_self, (refreshOwed_keeps (s.chan c)).2.2.1]

theorem tgTurn_unheld {s : State} {c : Nat} (h : (s.chan c).tgHold = false) : ((s.tgTurn c).chan c).reqs = (s.chan c).reqs ∧ ((s.tgTurn c).chan c).tgPos = (s.chan c).tgPos := by
  obtain ⟨hreqs, hhold, _, hpos⟩ := refreshOwed_keeps (s.chan c)
  unfold State.tgTurn
  rw [tgRetry_unheld (by rw [State.chan_modChan_self, hhold, h]), State.chan_modChan_self]
  exact ⟨hreqs, hpos⟩

theorem tgLine_parts (s : State) (c : Nat) : Touches [.free, .chans] (s.tgStep c) (s.tgLine c) ∧ OnlyChan c (s.tgStep c) (s.tgLine c) ∧
    ((s.tgLine c).chan c).calDue = (s.chan c).calDue := by
  have hstep : ((s.tgStep c).chan c).calDue = (s.chan c).calDue := by
    rw [(tgStep_chan s c).2]
    exact (tgNext_keeps _ _ _).2.2
  rw [tgLine_eq]
  split
  · exact ⟨.refl _ _, fun _ _ => rfl, hstep⟩
  · exact ⟨(chg_tgAsk _ c).1, (tgAsk_chan _ c).1, (tgAsk_chan _ c).2.1.trans hstep⟩

/-- A generator's line is served, and nothing else. -/
theorem exec_generatorsTurn {s : State} {c off : Nat} {r : HbmReq} (h : GeneratorsTurn s c r off) : ∃ u, Touches [.chans] s u ∧ OnlyChan c s u ∧
    (∃ cells lines, u.chan c = { s.chan c with reqs := [], spoilt := cells, fetched := lines }) ∧
    exec (.hbmRequestServe c .clean) s = .next ((u.tgLine c).tgTurn c) := by
  obtain ⟨u, hsu, honly, ⟨cells, lines, hchan⟩, hserve⟩ := serveHbm_takes h
  obtain ⟨⟨hc, hserves, _, _, hdue, _, howed⟩, _⟩ := h
  obtain ⟨hturn, _, hturnDue⟩ := tgTurn_parts (u.tgLine c) c
  have hcal : (((u.tgLine c).tgTurn c).chan c).calDue = none := by
    rw [hturnDue, (tgLine_parts u c).2.2, hchan]
    exact hdue
  have hnone : NoneOwed ((u.tgLine c).tgTurn c) := fun d hd => by
    rw [hturn.die_eq (by decide), (chg_tgLine u c).1.die_eq (by decide), hsu.die_eq (by decide)]
    exact howed d hd
  refine ⟨u, hsu, honly, ⟨cells, lines, hchan⟩, (withUnit_ok hc _).trans (congrArg _ ?_)⟩
  rw [if_pos hserves, hserve]
  show (((u.tgLine c).tgTurn c).tryCalibrate c).payOwed = _
  rw [tryCalibrate_none hcal, payOwed_none hnone]

/-- A run that ends asks for no further line. -/
theorem last_line_asks_nothing {u : State} {c : Nat} (hlast : u.tgLast c = true) (hreqs : (u.chan c).reqs = []) (hhold : (u.chan c).tgHold = false) :
    (((u.tgLine c).tgTurn c).chan c).reqs = [] := by
  obtain ⟨hkept, hheld, _⟩ := tgNext_keeps (u.chan c) (u.tgLines c) (u.tgOp c)
  rw [tgLine_eq, if_pos hlast, (tgTurn_unheld (by rw [(tgStep_chan u c).2, hheld, hhold])).1, (tgStep_chan u c).2, hkept, hreqs]

/-- A run that goes on in order asks for one line. -/
theorem next_line_is_asked {u : State} {c : Nat} (hmore : u.tgLast c = false) (hpat : (u.tgStep c).tgPat c ≠ 3) (hreqs : (u.chan c).reqs = [])
    (hhold : (u.chan c).tgHold = false) :
    (((u.tgLine c).tgTurn c).chan c).tgPos = ((u.chan c).tgNext (u.tgLines c) (u.tgOp c)).1.tgPos ∧ (((u.tgLine c).tgTurn c).chan c).reqs.length = 1 := by
  obtain ⟨hkept, hheld, _⟩ := tgNext_keeps (u.chan c) (u.tgLines c) (u.tgOp c)
  have hchan := (tgStep_chan u c).2
  have hsend := tgSend_chan (u.tgStep c) c ((u.tgStep c).chan c).tgPos
  have hheldSend : (((u.tgStep c).tgSend c ((u.tgStep c).chan c).tgPos).chan c).tgHold = false := by
    rw [hsend, hchan]
    exact hheld.trans hhold
  obtain ⟨hreqsTurn, hposTurn⟩ := tgTurn_unheld hheldSend
  rw [tgLine_eq, if_neg (by rw [hmore]; decide), tgAsk_in_order hpat, hreqsTurn, hposTurn, hsend, hchan]
  exact ⟨rfl, by rw [hkept, hreqs]; rfl⟩

/-! What a line's access does (R283, R285). -/

theorem tgAccess_reads {s : State} {c : Nat} (h : s.tgOp c = 2 ∨ (s.chan c).tgRead = true) :
    s.tgAccess c = s.tgReport c (s.tgErrs c (s.reg64 (tgBase c) + 128 * (s.chan c).tgAt)) :=
  if_pos (by rcases h with h | h <;> simp [h])

theorem tgAccess_writes {s : State} {c : Nat} (hop : s.tgOp c ≠ 2) (hread : (s.chan c).tgRead = false) : s.tgAccess c =
    s.writeMem (2 ^ 31 * c + (s.reg64 (tgBase c) + 128 * (s.chan c).tgAt)) (s.tgBytes c (s.reg64 (tgBase c) + 128 * (s.chan c).tgAt) 128) :=
  if_neg (by simp [hop, hread])

/-- The error registers as the line leaves them (R285). -/
theorem tgReport_regs (s : State) (c : Nat) (errs : List Nat) :
    RegsBut [tgErrCnt c, tgErrAddr c, tgErrAddr c + 4, tgErrXor c, tgErrXor c + 4] s (s.tgReport c errs) ∧
    ((s.tgReport c errs).reg (tgErrCnt c)).toNat = (if errs = [] then (s.reg (tgErrCnt c)).toNat else min ((s.reg (tgErrCnt c)).toNat + errs.length) 0xFFFFFFFF) ∧
    ((s.reg (tgErrCnt c)).toNat = 0 → ∀ o rest, errs = o :: rest → (s.tgReport c errs).reg64 (tgErrAddr c) = o % 2 ^ 64) := by
  cases errs with
  | nil => exact ⟨fun _ _ => rfl, rfl, fun _ o rest h => absurd h (by simp)⟩
  | cons o rest =>
    let t := s.setReg (tgErrCnt c) (BitVec.ofNat 32 (min ((s.reg (tgErrCnt c)).toNat + (o :: rest).length) 0xFFFFFFFF))
    have ht : (t.reg (tgErrCnt c)).toNat = min ((s.reg (tgErrCnt c)).toNat + (o :: rest).length) 0xFFFFFFFF := by
      rw [State.reg_setReg_self, BitVec.toNat_ofNat]
      omega
    unfold State.tgReport
    dsimp only
    rw [if_neg (by simp : ¬ (o :: rest) = [])]
    split
    · next hzero =>
      refine ⟨fun k hk => ?_, ?_, fun _ o' rest' h => ?_⟩
      · simp only [List.mem_cons, List.not_mem_nil, or_false, not_or] at hk
        obtain ⟨hcnt, haddr, haddr4, hxor, hxor4⟩ := hk
        rw [State.reg_setReg64_ne _ hxor hxor4, State.reg_setReg64_ne _ haddr haddr4, State.reg_setReg_ne _ _ hcnt]
      · rw [State.reg_setReg64_ne _ (by unfold tgErrCnt tgErrXor; omega) (by unfold tgErrCnt tgErrXor; omega),
          State.reg_setReg64_ne _ (by unfold tgErrCnt tgErrAddr; omega) (by unfold tgErrCnt tgErrAddr; omega)]
        exact ht
      · rw [State.reg64_setReg64_ne _ (by unfold tgErrAddr tgErrXor; omega) (by unfold tgErrAddr tgErrXor; omega) (by unfold tgErrAddr tgErrXor; omega),
          State.reg64_setReg64_self, (List.cons.inj h).1]
    · next hsome =>
      refine ⟨fun k hk => State.reg_setReg_ne s _ fun hcnt => hk (by simp [hcnt]), ht, fun hzero => absurd hzero hsome⟩

/-- From a line's access on, only registers of passes and the generator's own channel change, and the free values (R283). -/
theorem tgTurn_after_access (u : State) (c : Nat) : Touches [.free, .regs, .chans] (u.tgAccess c) ((u.tgLine c).tgTurn c) ∧ OnlyChan c u ((u.tgLine c).tgTurn c) ∧
    RegsBut [tgPasses c, tgPasses c + 4] (u.tgAccess c) ((u.tgLine c).tgTurn c) ∧
    ((u.tgLine c).tgTurn c).reg64 (tgPasses c) = (u.reg64 (tgPasses c) + (if u.tgPassed c then 1 else 0)) % 2 ^ 64 := by
  obtain ⟨hline, honlyLine, _⟩ := tgLine_parts u c
  obtain ⟨hturn, honlyTurn, _⟩ := tgTurn_parts (u.tgLine c) c
  obtain ⟨hbut, hpasses⟩ := tgStep_regs u c
  have hregs : ((u.tgLine c).tgTurn c).regs = (u.tgStep c).regs := (hline.trans hturn).regs_eq (by decide)
  refine ⟨((tgStep_touches u c).mono (subF_of rfl)).trans ((hline.trans hturn).mono (subF_of rfl)),
    OnlyChan.trans (tgStep_chan u c).1 (OnlyChan.trans honlyLine honlyTurn), hbut.trans (.of_regs hregs), (reg64_of_regs hregs _).trans hpasses⟩

theorem tgBytes_length (s : State) (c off n : Nat) : (s.tgBytes c off n).length = n := by simp [State.tgBytes, upTo]

theorem generator_writes_line {s : State} {c off : Nat} {r : HbmReq} (h : GeneratorsTurn s c r off) (hop : s.tgOp c ≠ 2) (hread : (s.chan c).tgRead = false) :
    Does (.hbmRequestServe c .clean) s [.free, .regs, .mem, .poison, .cores, .launches, .chans] fun t => OnlyChan c s t ∧
      (∀ i, i < 128 → mget? t.mem (2 ^ 31 * c + off + i) = some (s.tgByte c (off + i))) ∧
      (∀ i, i < 2 ^ 31 * c + off ∨ 2 ^ 31 * c + off + 128 ≤ i → mget? t.mem i = mget? s.mem i) ∧ RegsBut [tgPasses c, tgPasses c + 4] s t ∧
      (s.tgPat c ≠ 3 → s.tgStop c = false → (s.chan c).tgPos + 1 < s.tgLines c → (t.chan c).tgPos = (s.chan c).tgPos + 1 ∧ (t.chan c).reqs.length = 1) := by
  obtain ⟨u, hsu, honly, ⟨cells, lines, hchan⟩, hexec⟩ := exec_generatorsTurn h
  obtain ⟨⟨_, _, _, _, _, hhold, _⟩, _, _, _, _, hoff⟩ := h
  have hregs : u.regs = s.regs := hsu.regs_eq (by decide)
  have hopU : u.tgOp c = s.tgOp c := fld_of_regs hregs _ _ _
  have hplace : u.reg64 (tgBase c) + 128 * (u.chan c).tgAt = off := by rw [hoff, hchan, reg64_of_regs hregs]
  have haccess : u.tgAccess c = u.writeMem (2 ^ 31 * c + off) (s.tgBytes c off 128) := by
    rw [tgAccess_writes (by rw [hopU]; exact hop) (by rw [hchan]; exact hread), hplace, tgBytes_of_regs hregs]
  have hwrite := (chg_writeMem u (2 ^ 31 * c + off) (s.tgBytes c off 128)).1
  obtain ⟨hafter, honlyAfter, hbut, _⟩ := tgTurn_after_access u c
  have hmem : ((u.tgLine c).tgTurn c).mem = msetBytes s.mem (2 ^ 31 * c + off) (s.tgBytes c off 128) := by
    rw [hafter.2 .mem (by decide), haccess, mem_writeMem _ fun hnil => absurd (congrArg List.length hnil) (by rw [tgBytes_length]; decide)]
    exact congrArg (msetBytes · _ _) (hsu.2 .mem (by decide))
  rw [haccess] at hafter hbut
  refine .intro hexec ?_ ⟨OnlyChan.trans honly honlyAfter, fun i hi => ?_, fun i hi => ?_, ?_, fun hpat hstop hpos => ?_⟩
  · exact (hsu.mono (subF_of rfl)).trans ((hwrite.mono (subF_of rfl)).trans (hafter.mono (subF_of rfl)))
  · rw [hmem, mget_msetBytes_in _ _ _ _ (by rw [tgBytes_length]; exact hi)]
    simp [State.tgBytes, upTo, hi]
  · rw [hmem]
    exact mget_msetBytes_out _ _ _ _ (by rw [tgBytes_length]; exact hi)
  · exact RegsBut.trans (.of_regs ((hwrite.regs_eq (by decide)).trans hregs)) hbut
  · have hlinesU : u.tgLines c = s.tgLines c := congrArg (· / 128) (reg64_of_regs hregs _)
    have hnext : (u.chan c).tgNext (u.tgLines c) (u.tgOp c) = ({ u.chan c with tgPos := (u.chan c).tgPos + 1 }, false) := by
      unfold Chan.tgNext
      rw [if_pos (by rw [hlinesU, hchan]; exact hpos)]
    have hmore : u.tgLast c = false := by
      unfold State.tgLast State.tgPassed State.tgStop
      rw [hnext, bit_of_regs hregs, show s.bit (tgCtrl c) 1 = false from hstop, if_neg (by rw [hopU, hchan]; simp [hop, hread])]
      simp
    have hpatStep : (u.tgStep c).tgPat c = s.tgPat c := by
      have hkept := (tgStep_regs u c).1 (tgCtrl c) (by simp only [List.mem_cons, List.not_mem_nil, or_false]; unfold tgCtrl tgPasses; omega)
      rw [haccess] at hkept
      exact State.fld_congr (hkept.trans ((hwrite.reg_eq (by decide) _).trans (reg_of_regs hregs _))) 4 3
    obtain ⟨hposition, hone⟩ := next_line_is_asked hmore (by rw [hpatStep]; exact hpat) (by rw [hchan]) (by rw [hchan]; exact hhold)
    rw [hnext, hchan] at hposition
    exact ⟨hposition, hone⟩

theorem tgPassed_of_last {s : State} {c : Nat} (hend : s.tgLines c ≤ (s.chan c).tgPos + 1) (hreads : s.tgOp c = 2 ∨ (s.chan c).tgRead = true) : s.tgPassed c = true := by
  unfold State.tgPassed Chan.tgNext
  rw [if_neg (by omega), if_neg]
  rintro ⟨hop, hread⟩
  rcases hreads with h | h
  · omega
  · simp [hread] at h

theorem generator_checks_line {s : State} {c off : Nat} {r : HbmReq} (h : GeneratorsTurn s c r off) (hreads : s.tgOp c = 2 ∨ (s.chan c).tgRead = true) :
    Does (.hbmRequestServe c .clean) s [.free, .regs, .chans] fun t => OnlyChan c s t ∧ RegsBut (tgRegs c) s t ∧
      (t.reg (tgErrCnt c)).toNat = (if s.tgErrs c off = [] then (s.reg (tgErrCnt c)).toNat else min ((s.reg (tgErrCnt c)).toNat + (s.tgErrs c off).length) 0xFFFFFFFF) ∧
      ((s.reg (tgErrCnt c)).toNat = 0 → ∀ o rest, s.tgErrs c off = o :: rest → t.reg64 (tgErrAddr c) = o % 2 ^ 64) ∧
      (s.tgLines c ≤ (s.chan c).tgPos + 1 → t.reg64 (tgPasses c) = (s.reg64 (tgPasses c) + 1) % 2 ^ 64) ∧
      (s.tgStop c = true ∨ (s.tgStopErr c = true ∧ s.tgErrs c off ≠ []) → (t.chan c).reqs = []) := by
  obtain ⟨u, hsu, honly, ⟨cells, lines, hchan⟩, hexec⟩ := exec_generatorsTurn h
  obtain ⟨⟨_, _, _, _, _, hhold, _⟩, _, _, _, _, hoff⟩ := h
  have hregs : u.regs = s.regs := hsu.regs_eq (by decide)
  have hreadsU : u.tgOp c = 2 ∨ (u.chan c).tgRead = true := by
    rw [hchan, show u.tgOp c = s.tgOp c from fld_of_regs hregs _ _ _]
    exact hreads
  have hplace : u.reg64 (tgBase c) + 128 * (u.chan c).tgAt = off := by rw [hoff, hchan, reg64_of_regs hregs]
  have herrs : u.tgErrs c off = s.tgErrs c off := tgErrs_of_touches hsu (by decide) (by decide) (by decide) c off
  have haccess : u.tgAccess c = u.tgReport c (s.tgErrs c off) := by rw [tgAccess_reads hreadsU, hplace, herrs]
  obtain ⟨hafter, honlyAfter, hbut, hpasses⟩ := tgTurn_after_access u c
  obtain ⟨hbutReport, hcnt, haddr⟩ := tgReport_regs u c (s.tgErrs c off)
  rw [haccess] at hafter hbut
  refine .intro hexec ?_ ⟨OnlyChan.trans honly honlyAfter, ?_, ?_, fun hzero o rest ho => ?_, fun hend => ?_, fun hstop => ?_⟩
  · exact (hsu.mono (subF_of rfl)).trans (((tgReport_touches u c _).mono (subF_of rfl)).trans hafter)
  · exact RegsBut.trans (.of_regs hregs) (RegsBut.trans (hbutReport.mono (by simp [tgRegs])) (hbut.mono (by simp [tgRegs])))
  · rw [hbut _ (by simp only [List.mem_cons, List.not_mem_nil, or_false]; unfold tgErrCnt tgPasses; omega), hcnt, reg_of_regs hregs]
  · rw [← haddr (by rw [reg_of_regs hregs]; exact hzero) o rest ho]
    exact State.reg64_congr (hbut _ (by simp only [List.mem_cons, List.not_mem_nil, or_false]; unfold tgErrAddr tgPasses; omega))
      (hbut _ (by simp only [List.mem_cons, List.not_mem_nil, or_false]; unfold tgErrAddr tgPasses; omega))
  · have hendU : u.tgLines c ≤ (u.chan c).tgPos + 1 := by
      rw [hchan, show u.tgLines c = s.tgLines c from congrArg (· / 128) (reg64_of_regs hregs _)]
      exact hend
    rw [hpasses, tgPassed_of_last hendU hreadsU, reg64_of_regs hregs]
    rfl
  · refine last_line_asks_nothing ?_ (by rw [hchan]) (by rw [hchan]; exact hhold)
    unfold State.tgLast
    rw [if_pos (by rcases hreadsU with hreads | hreads <;> simp [hreads]), hplace, herrs, show u.tgStop c = s.tgStop c from bit_of_regs hregs _ _,
      show u.tgStopErr c = s.tgStopErr c from bit_of_regs hregs _ _]
    rcases hstop with hstop | ⟨hstop, hsome⟩
    · rw [hstop]
      rfl
    · simp [hstop, hsome]

theorem trafficGeneratorsRun : TrafficGeneratorsRun := by
  unfold TrafficGeneratorsRun
  refine ⟨fun s c => start_refused, fun s c => start_runs, fun s c r off => generator_writes_line, fun s c r off => generator_checks_line,
    fun s c hc hstored hrun => ?_, fun s c hc hstored hidle => ?_, fun s c => run_ends⟩
  · exact .intro ((stop_waits_for_line hc hstored).trans (congrArg _ (if_pos hrun))) (chg_setBit s _ _ _).1 ⟨State.bit_setBit_self s (by decide), regsBut_setBit s _ _ _⟩
  · exact .stays ((stop_waits_for_line hc hstored).trans (congrArg _ (if_neg (by rw [hidle]; decide))))

/-- Settles O38: the controllers' own upkeep, and the generators of its test traffic. -/
theorem channelsAreScrubbedTestedAndRetired : Obligations.ChannelsAreScrubbedTestedAndRetired := ⟨channelsAreScrubbedAndRetired, trafficGeneratorsRun⟩

end Sys2Proof.Machine
end

section
namespace Sys2Proof.Machine

/-! Anchored accumulation (R48, R50, R51): what one addition gives an entry. -/

theorem signedOf_eq_sx {n x : Nat} (hn : 0 < n) (hx : x < 2 ^ n) : signedOf n x = sx n x := by
  have htwo : 2 ^ n = 2 * 2 ^ (n - 1) := by rw [← pow_succ', Nat.sub_add_cancel hn]
  unfold signedOf sx
  rw [Nat.mod_eq_of_lt hx]
  by_cases hlow : x < 2 ^ (n - 1)
  · rw [if_pos hlow, if_pos (by omega)]
  · rw [if_neg hlow, if_neg (by omega)]
    push_cast
    rfl

theorem leNat_lt (bs : List Byte) : leNat bs < 2 ^ (8 * bs.length) := by
  induction bs with
  | nil => decide
  | cons b bs ih =>
    have hb := b.isLt
    rw [leNat, List.length_cons, Nat.mul_succ, pow_add]
    omega

theorem numAt_lt (bs : List Byte) (off n : Nat) : numAt bs off n < 2 ^ (8 * n) := by
  have h := leNat_lt (slice bs off n)
  rwa [slice, List.length_map, upTo, List.length_range] at h

/-- An addition cut toward zero: of a magnitude `c`, the multiple of `d` below it, with its sign. -/
theorem tdiv_bounds (c : Int) {d : Nat} (hd : 0 < d) :
    (c.tdiv d).natAbs * d ≤ c.natAbs ∧ c.natAbs < ((c.tdiv d).natAbs + 1) * d := by
  rw [Int.natAbs_tdiv, Int.natAbs_natCast]
  exact ⟨Nat.div_mul_le_self _ _, by rw [Nat.mul_comm]; exact Nat.lt_mul_div_succ _ hd⟩

theorem sign_tdiv_of_ne_zero {c : Int} {d : Nat} (hd : 0 < d) (h : c.tdiv d ≠ 0) : (c.tdiv d).sign = c.sign := by
  have hlarge : ¬c.natAbs < (d : Int).natAbs := fun hlt => h (Int.sign_eq_zero_iff_zero.1 (by rw [Int.sign_tdiv, if_pos hlt]))
  rw [Int.sign_tdiv, if_neg hlarge, Int.sign_natCast_of_ne_zero (by omega), Int.mul_one]

theorem tdiv_exact_iff (c : Int) (d : Nat) : (c.tdiv d).natAbs * d = c.natAbs ↔ c % (d : Int) = 0 := by
  rw [Int.natAbs_tdiv, Int.natAbs_natCast, ← Int.dvd_iff_emod_eq_zero, Int.natCast_dvd]
  exact ⟨fun h => ⟨_, h.symm.trans (Nat.mul_comm _ _)⟩, Nat.div_mul_cancel⟩

/-- What is added, in units of an entry: the contribution, cut toward zero where its unit is below the entry's (R51). -/
def anchoredTerm (a c e : Int) : Int := if a - 96 ≤ e then c * 2 ^ (e - (a - 96)).toNat else c.tdiv (2 ^ (a - 96 - e).toNat : Nat)

/-- Whether the cut loses something (R50). -/
def anchoredCut (a c e : Int) : BitVec 8 := if a - 96 ≤ e ∨ c % (2 ^ (a - 96 - e).toNat : Nat) = 0 then 0 else tsInexact

theorem anchoredAdd_eq (a : Int) (en : Entry) (c e : Int) :
    anchoredAdd a en c e =
      if en.hidden.getLsbD 0 then (en, anchoredCut a c e)
      else if en.n + anchoredTerm a c e < -2 ^ 127 then ({ n := -2 ^ 127, hidden := en.hidden ||| 1 }, anchoredCut a c e ||| tsOvf)
      else if 2 ^ 127 ≤ en.n + anchoredTerm a c e then ({ n := 2 ^ 127 - 1, hidden := en.hidden ||| 1 }, anchoredCut a c e ||| tsOvf)
      else ({ n := en.n + anchoredTerm a c e, hidden := en.hidden }, anchoredCut a c e) := by
  unfold anchoredAdd anchoredTerm anchoredCut
  push_cast
  congr 3

theorem anchoredCut_bits (a c e : Int) : (anchoredCut a c e).getLsbD 0 = !decide (a - 96 ≤ e ∨ c % (2 ^ (a - 96 - e).toNat : Nat) = 0) ∧
    ∀ i, 1 ≤ i → (anchoredCut a c e).getLsbD i = false := by
  unfold anchoredCut tsInexact
  split
  · next h => exact ⟨by rw [decide_eq_true h]; rfl, fun i _ => by simp⟩
  · next h => exact ⟨by rw [decide_eq_false h]; rfl, fun i hi => by simp; omega⟩

theorem tsOvf_bits : tsOvf.getLsbD 0 = false ∧ tsOvf.getLsbD 1 = true ∧ ∀ i, 2 ≤ i → tsOvf.getLsbD i = false := by
  refine ⟨rfl, rfl, fun i hi => ?_⟩
  rw [← BitVec.testBit_toNat]
  exact Nat.testBit_lt_two_pow (lt_of_lt_of_le (by decide : tsOvf.toNat < 2 ^ 2) (Nat.pow_le_pow_right (by decide) hi))

/-- Beside what the cut loses, an addition notes an overflow alone (R50). -/
theorem anchoredAdd_status (a : Int) (en : Entry) (c e : Int) :
    (anchoredAdd a en c e).2 = anchoredCut a c e ∨ (anchoredAdd a en c e).2 = anchoredCut a c e ||| tsOvf := by
  rw [anchoredAdd_eq]
  repeat' split
  all_goals simp

theorem anchoredAdd_status_low (a : Int) (en : Entry) (c e : Int) : (anchoredAdd a en c e).2.getLsbD 0 = (anchoredCut a c e).getLsbD 0 := by
  rcases anchoredAdd_status a en c e with h | h
  · rw [h]
  · rw [h, BitVec.getLsbD_or, tsOvf_bits.1, Bool.or_false]

theorem anchoredAdd_status_high (a : Int) (en : Entry) (c e : Int) {i : Nat} (hi : 2 ≤ i) : (anchoredAdd a en c e).2.getLsbD i = false := by
  have hcut := (anchoredCut_bits a c e).2 i (by omega)
  rcases anchoredAdd_status a en c e with h | h
  · rw [h, hcut]
  · rw [h, BitVec.getLsbD_or, hcut, tsOvf_bits.2.2 i hi]
    rfl

theorem anchoredGives_anchoredAdd (a : Int) (en : Entry) (c e : Int) : AnchoredGives a en c e (anchoredAdd a en c e).1 (anchoredAdd a en c e).2 := by
  obtain ⟨hcut, hhigh⟩ := anchoredCut_bits a c e
  have hovf : (anchoredCut a c e ||| tsOvf).getLsbD 1 = true := by rw [BitVec.getLsbD_or, tsOvf_bits.2.1, Bool.or_true]
  refine ⟨anchoredTerm a c e, fun hle => ⟨if_pos hle, ?_⟩, fun hlt => ?_, fun hsat => ?_, fun hopen => ?_, fun i hi => anchoredAdd_status_high a en c e hi⟩
  · rw [anchoredAdd_status_low, hcut, decide_eq_true (.inl hle)]
    rfl
  · have hd : 0 < 2 ^ (a - 96 - e).toNat := Nat.two_pow_pos _
    have hterm : anchoredTerm a c e = c.tdiv (2 ^ (a - 96 - e).toNat : Nat) := if_neg (by omega)
    rw [hterm, anchoredAdd_status_low, hcut]
    refine ⟨tdiv_bounds c hd, fun hv => sign_tdiv_of_ne_zero hd hv, ?_⟩
    rw [← decide_not]
    exact decide_eq_decide.2 (by rw [Ne, tdiv_exact_iff, or_iff_right (by omega : ¬a - 96 ≤ e)])
  · rw [anchoredAdd_eq, if_pos hsat]
    exact ⟨rfl, hhigh 1 le_rfl⟩
  · rw [anchoredAdd_eq, if_neg (by rw [hopen]; decide)]
    refine ⟨fun hlow => ?_, fun hup => ?_, fun hlow hup => ?_⟩
    · rw [if_pos hlow]
      exact ⟨rfl, hovf⟩
    · rw [if_neg (by omega), if_pos hup]
      exact ⟨rfl, hovf⟩
    · rw [if_neg (by omega), if_neg (by omega)]
      exact ⟨rfl, hhigh 1 le_rfl⟩

/-- A number that an entry can hold (R48). -/
def Entry.InRange (en : Entry) : Prop := -2 ^ 127 ≤ en.n ∧ en.n < 2 ^ 127

theorem anchoredAdd_inRange {en : Entry} (h : en.InRange) (a c e : Int) : (anchoredAdd a en c e).1.InRange := by
  rw [anchoredAdd_eq]
  unfold Entry.InRange at h ⊢
  repeat' split
  all_goals dsimp only; omega

theorem held_of_inRange {en : Entry} (h : en.InRange) : held en = en := by
  unfold held
  rw [BitVec.toInt_ofInt_eq_self (by decide) h.1 h.2]

/-! K-blocks (R47, R60). -/

theorem kblock_val (xs : List (Int × Int)) :
    kblock false (xs.map fun q => (.val q.1, .val q.2)) = { sum := (xs.map fun q => q.1 * q.2).sum } := by
  have hfold : ∀ k : Contribution, (xs.map fun q => (Elem.val q.1, Elem.val q.2)).foldl (fun k p => addProduct k p.1 p.2) k =
      { k with sum := k.sum + (xs.map fun q => q.1 * q.2).sum } := by
    induction xs with
    | nil => simp
    | cons q xs ih =>
      intro k
      rw [List.map_cons, List.foldl_cons, ih]
      simp [addProduct, add_assoc]
  rw [kblock, if_neg (by decide), hfold, zero_add]

/-- The hidden bits of a contribution's special states (R50). -/
theorem contribution_hidden_bits (nan pinf ninf : Bool) : ∀ i, i < 4 →
    ((if nan then 2 else 0 : BitVec 4) ||| (if pinf then 4 else 0) ||| (if ninf then 8 else 0)).getLsbD i = (i == 1 && nan || i == 2 && pinf || i == 3 && ninf) := by
  revert nan pinf ninf
  decide

/-- The status bits of a contribution's special states (R50). -/
theorem contribution_status_bits (nan pinf ninf : Bool) : ∀ i, i < 8 →
    ((if nan then tsNan else 0) ||| (if pinf then tsPinf else 0) ||| (if ninf then tsNinf else 0)).getLsbD i = (i == 2 && nan || i == 3 && pinf || i == 4 && ninf) := by
  revert nan pinf ninf
  decide

theorem kblockRules : KblockRules := by
  refine ⟨kblock_val, fun a en k e => ⟨_, _, anchoredGives_anchoredAdd a en k.sum e, rfl, fun i hi => ?_, fun i hi => ?_⟩⟩
  · rw [addKblock, BitVec.getLsbD_or, contribution_hidden_bits k.nan k.pinf k.ninf i hi]
    simp only [Bool.or_assoc]
  · rw [addKblock, BitVec.getLsbD_or, contribution_status_bits k.nan k.pinf k.ninf i hi]
    simp only [Bool.or_assoc]

end Sys2Proof.Machine
end

section
namespace Sys2Proof.Machine

/-! Tiles, entry by entry (R48, R152): what an operation that visits some of a tile's places leaves in it. -/

/-- The place of a tile's table: row 64 m, column n. -/
def Tile.cell (t : Tile) (k : Nat) : Entry := { n := (tget 0 t.n k).toInt, hidden := tget 0 t.hidden k }

theorem Tile.entry_eq_cell (t : Tile) (m n : Nat) : t.entry m n = t.cell (64 * m + n) := rfl

theorem Tile.cell_inRange (t : Tile) (k : Nat) : (t.cell k).InRange := ⟨BitVec.le_toInt _, BitVec.toInt_lt⟩

theorem Tile.cell_setEntry (t : Tile) (m n : Nat) (e : Entry × BitVec 8) (k : Nat) :
    (t.setEntry m n e).cell k = if k = 64 * m + n then held e.1 else t.cell k := by
  unfold Tile.cell Tile.setEntry
  split
  · next h => subst h; simp [held]
  · next h => simp [h]

/-- From `t` to `t'` the places `K` have each taken what `F` gives of the anchor and the entry there, and the status bits that it raises have joined the tile's; nothing else has changed. -/
structure CellsUpdate (K : Nat → Prop) (F : Nat → Int → Entry → Entry × BitVec 8) (t t' : Tile) : Prop where
  anchor : t'.anchor = t.anchor
  defPend : t'.defPend = t.defPend
  inside : ∀ k, K k → t'.cell k = held (F k t.anchor (t.cell k)).1
  outside : ∀ k, ¬K k → t'.cell k = t.cell k
  status : ∀ i, t'.status.getLsbD i = true ↔ t.status.getLsbD i = true ∨ ∃ k, K k ∧ (F k t.anchor (t.cell k)).2.getLsbD i = true

section
variable {K J : Nat → Prop} {F : Nat → Int → Entry → Entry × BitVec 8} {t u v : Tile}

theorem CellsUpdate.none (hK : ∀ k, ¬K k) : CellsUpdate K F t t :=
  ⟨rfl, rfl, fun k hk => absurd hk (hK k), fun _ _ => rfl, fun _ => ⟨.inl, fun h => h.elim id fun ⟨k, hk, _⟩ => absurd hk (hK k)⟩⟩

theorem CellsUpdate.congr (hKJ : ∀ k, K k ↔ J k) (h : CellsUpdate K F t u) : CellsUpdate J F t u := by
  rwa [← funext fun k => propext (hKJ k)]

/-- Places visited one set after the other, none of them twice. -/
theorem CellsUpdate.trans (hdisj : ∀ k, K k → ¬J k) (h : CellsUpdate K F t u) (g : CellsUpdate J F u v) : CellsUpdate (fun k => K k ∨ J k) F t v := by
  have hsame : ∀ k, J k → F k u.anchor (u.cell k) = F k t.anchor (t.cell k) := fun k hk => by rw [h.anchor, h.outside k fun hK => hdisj k hK hk]
  refine ⟨g.anchor.trans h.anchor, g.defPend.trans h.defPend, fun k hk => ?_, fun k hk => ?_, fun i => ?_⟩
  · rcases hk with hk | hk
    · rw [g.outside k (hdisj k hk), h.inside k hk]
    · rw [g.inside k hk, hsame k hk]
  · rw [g.outside k fun hJ => hk (.inr hJ), h.outside k fun hK => hk (.inl hK)]
  · rw [g.status, h.status, or_assoc]
    refine or_congr_right ⟨?_, ?_⟩
    · rintro (⟨k, hk, hbit⟩ | ⟨k, hk, hbit⟩)
      · exact ⟨k, .inl hk, hbit⟩
      · exact ⟨k, .inr hk, hsame k hk ▸ hbit⟩
    · rintro ⟨k, hk | hk, hbit⟩
      · exact .inl ⟨k, hk, hbit⟩
      · exact .inr ⟨k, hk, (hsame k hk).symm ▸ hbit⟩

/-- A loop whose passes visit different places. -/
theorem CellsUpdate.foldl {K : Nat → Nat → Prop} {f : Tile → Nat → Tile} (m : Nat) (hf : ∀ j, j < m → ∀ t, CellsUpdate (K j) F t (f t j))
    (hdisj : ∀ i j k, i < j → K i k → ¬K j k) (t : Tile) : CellsUpdate (fun k => ∃ j < m, K j k) F t ((upTo m).foldl f t) := by
  induction m with
  | zero => exact .none fun k ⟨j, hj, _⟩ => absurd hj (Nat.not_lt_zero j)
  | succ m ih =>
    rw [upTo, List.range_succ, List.foldl_append]
    refine .congr (fun k => ?_) (.trans (fun k ⟨j, hj, hK⟩ => hdisj j m k hj hK) (ih fun j hj => hf j (Nat.lt_succ_of_lt hj)) (hf m (Nat.lt_succ_self m) _))
    simp only [Nat.lt_succ_iff_lt_or_eq, or_and_right, exists_or, exists_eq_left]

end

theorem cellsUpdate_setEntry {F : Nat → Int → Entry → Entry × BitVec 8} (t : Tile) (m n : Nat) :
    CellsUpdate (· = 64 * m + n) F t (t.setEntry m n (F (64 * m + n) t.anchor (t.entry m n))) := by
  refine ⟨rfl, rfl, fun k hk => ?_, fun k hk => ?_, fun i => ?_⟩
  · rw [Tile.cell_setEntry, if_pos hk, hk, Tile.entry_eq_cell]
  · rw [Tile.cell_setEntry, if_neg hk]
  · simp [Tile.setEntry, Tile.entry_eq_cell]

/-! Products (R47, R142, R158). -/

/-- What the K-blocks of a beat, one or two, give an entry in turn (R142). -/
def addKblocks (two : Bool) (c : Nat → Contribution) (u : Nat → Int) (a : Int) (e : Entry) : Entry × BitVec 8 :=
  let y := addKblock a e (c 0) (u 0)
  if two then
    let z := addKblock a (held y.1) (c 1) (u 1)
    (z.1, y.2 ||| z.2)
  else y

theorem kblocksPerBeat_cases (f : Nat) : kblocksPerBeat f = 1 ∨ kblocksPerBeat f = 2 := by
  unfold kblocksPerBeat
  split <;> simp

/-- The loop over the K-blocks of a beat at one entry. -/
def Tile.addBlocks (t : Tile) (n m col : Nat) (c : Nat → Contribution) (u : Nat → Int) : Tile :=
  (upTo n).foldl (fun (t : Tile) b => t.setEntry m col (addKblock t.anchor (t.entry m col) (c b) (u b))) t

theorem cellsUpdate_addBlocks {F : Nat → Int → Entry → Entry × BitVec 8} (t : Tile) {f m col : Nat} {c : Nat → Contribution} {u : Nat → Int}
    (hF : F (64 * m + col) = addKblocks (kblocksPerBeat f == 2) c u) : CellsUpdate (· = 64 * m + col) F t (t.addBlocks (kblocksPerBeat f) m col c u) := by
  rcases kblocksPerBeat_cases f with hf | hf
  · have hone : F (64 * m + col) t.anchor (t.entry m col) = addKblock t.anchor (t.entry m col) (c 0) (u 0) := by
      rw [hF, hf]; rfl
    rw [hf, show t.addBlocks 1 m col c u = t.setEntry m col (addKblock t.anchor (t.entry m col) (c 0) (u 0)) from rfl, ← hone]
    exact cellsUpdate_setEntry t m col
  · have htwo : ∀ a e, F (64 * m + col) a e = ((addKblock a (held (addKblock a e (c 0) (u 0)).1) (c 1) (u 1)).1,
        (addKblock a e (c 0) (u 0)).2 ||| (addKblock a (held (addKblock a e (c 0) (u 0)).1) (c 1) (u 1)).2) := fun a e => by
      rw [hF, hf]; rfl
    let t1 := t.setEntry m col (addKblock t.anchor (t.entry m col) (c 0) (u 0))
    have hcell : t1.entry m col = held (addKblock t.anchor (t.entry m col) (c 0) (u 0)).1 := by
      rw [Tile.entry_eq_cell, Tile.cell_setEntry, if_pos rfl]
    rw [hf, show t.addBlocks 2 m col c u = t1.setEntry m col (addKblock t.anchor (t1.entry m col) (c 1) (u 1)) from rfl, hcell]
    refine ⟨rfl, rfl, fun k hk => ?_, fun k hk => ?_, fun i => ?_⟩
    · rw [Tile.cell_setEntry, if_pos hk, hk, htwo]; rfl
    · rw [Tile.cell_setEntry, if_neg hk, Tile.cell_setEntry, if_neg hk]
    · simp [Tile.setEntry, t1, htwo, Tile.entry_eq_cell, or_assoc]

section
variable (x : Mx) (k : Handle) (st : Stationary) (fa fb : ElemFmt)

/-- The rows of mx.mma, one after the other. -/
def Mx.mmaRows (row0 ks m r0 : Nat) (t : Tile) : Tile := (upTo m).foldl (fun tile i => x.mmaRow k st fa fb tile (row0 + i) ks (r0 + i)) t

/-- What mx.mma gives the entry at a place of the tile. -/
def Mx.mmaCell (row0 ks r0 : Nat) (p : Nat) : Int → Entry → Entry × BitVec 8 :=
  addKblocks (kblocksPerBeat k.fmt == 2) (beatBlock x k st fa fb (row0 + (p / 64 - r0)) ks (p % 64)) (beatUnit x k st fa fb (row0 + (p / 64 - r0)) ks (p % 64))

theorem Mx.mmaRow_eq (tile : Tile) (row ks trow : Nat) : x.mmaRow k st fa fb tile row ks trow =
    (upTo 64).foldl (fun t n => t.addBlocks (kblocksPerBeat k.fmt) trow n (beatBlock x k st fa fb row ks n) (beatUnit x k st fa fb row ks n)) tile := rfl

theorem cellsUpdate_mmaRow (tile : Tile) (row0 ks r0 i : Nat) :
    CellsUpdate (fun p => ∃ n < 64, p = 64 * (r0 + i) + n) (x.mmaCell k st fa fb row0 ks r0) tile (x.mmaRow k st fa fb tile (row0 + i) ks (r0 + i)) := by
  rw [Mx.mmaRow_eq]
  refine .foldl 64 (fun n hn t => cellsUpdate_addBlocks t ?_) (by omega) tile
  rw [Mx.mmaCell, show (64 * (r0 + i) + n) / 64 = r0 + i by omega, show (64 * (r0 + i) + n) % 64 = n by omega, Nat.add_sub_cancel_left]

theorem cellsUpdate_mmaRows (tile : Tile) (row0 ks m r0 : Nat) :
    CellsUpdate (fun p => ∃ i < m, ∃ n < 64, p = 64 * (r0 + i) + n) (x.mmaCell k st fa fb row0 ks r0) tile (x.mmaRows k st fa fb row0 ks m r0 tile) :=
  .foldl m (fun i _ t => cellsUpdate_mmaRow x k st fa fb t row0 ks r0 i) (by rintro i j p hij ⟨n, hn, rfl⟩ ⟨n', hn', h⟩; omega) tile

theorem rowsMultiplied_mmaRows (tile : Tile) (row0 ks m r0 : Nat) : RowsMultiplied x k st fa fb row0 ks m r0 tile (x.mmaRows k st fa fb row0 ks m r0 tile) := by
  obtain ⟨hanchor, hpend, hin, hout, hstatus⟩ := cellsUpdate_mmaRows x k st fa fb tile row0 ks m r0
  refine ⟨hanchor, hpend, fun r n hr hn => hout _ ?_, fun j n y z hj hn hy hone htwo => ?_⟩
  · rintro ⟨i, hi, n', hn', h⟩
    omega
  have hvisited : ∃ i < m, ∃ n' < 64, 64 * (r0 + j) + n = 64 * (r0 + i) + n' := ⟨j, hj, n, hn, rfl⟩
  have hcell : ((x.mmaCell k st fa fb row0 ks r0 (64 * (r0 + j) + n) tile.anchor (tile.entry (r0 + j) n)).1 = z.1) ∧
      ∀ i, (x.mmaCell k st fa fb row0 ks r0 (64 * (r0 + j) + n) tile.anchor (tile.entry (r0 + j) n)).2.getLsbD i = (y.2 ||| z.2).getLsbD i := by
    rw [Mx.mmaCell, show (64 * (r0 + j) + n) / 64 = r0 + j by omega, show (64 * (r0 + j) + n) % 64 = n by omega, Nat.add_sub_cancel_left]
    rcases kblocksPerBeat_cases k.fmt with hk | hk
    · rw [hone hk, hk, hy]
      exact ⟨rfl, fun i => by rw [BitVec.or_self]; rfl⟩
    · rw [htwo hk, hk, hy]
      exact ⟨rfl, fun i => rfl⟩
  refine ⟨by rw [Tile.entry_eq_cell, hin _ hvisited, ← Tile.entry_eq_cell, hcell.1], BitVec.eq_of_getLsbD_eq fun i _ => ?_⟩
  have hraised : (tile.status ||| y.2 ||| z.2).getLsbD i = true → (x.mmaRows k st fa fb row0 ks m r0 tile).status.getLsbD i = true := by
    rw [BitVec.or_assoc, BitVec.getLsbD_or, Bool.or_eq_true, hstatus]
    exact Or.imp_right fun hbit => ⟨_, hvisited, by rw [← Tile.entry_eq_cell, hcell.2, hbit]⟩
  rw [BitVec.getLsbD_and, Bool.and_eq_right_iff_imp]
  exact hraised

end

/-! Raw images (R52, R150, R153). -/

theorem Tile.anchored_defPend (t : Tile) (a : Int) : (t.anchored a).defPend = false := by
  unfold Tile.anchored
  split
  · rfl
  · next h => exact Bool.eq_false_iff.2 h

theorem Tile.anchored_status (t : Tile) (a : Int) : (t.anchored a).status = t.status := by
  unfold Tile.anchored
  split <;> rfl

/-- A raw image's status names an infinity or NaN (R150). -/
def rawSpecial (bs : List Byte) : Bool := bs.getD 32770 0 &&& 0x1F &&& (tsNan ||| tsPinf ||| tsNinf) != 0

theorem rawSpecial_eq (bs : List Byte) : rawSpecial bs = ((bs.getD 32770 0).getLsbD 2 || (bs.getD 32770 0).getLsbD 3 || (bs.getD 32770 0).getLsbD 4) := by
  have hbits : ∀ v : BitVec 8, (v &&& 0x1F &&& (tsNan ||| tsPinf ||| tsNinf) != 0) = (v.getLsbD 2 || v.getLsbD 3 || v.getLsbD 4) := by decide
  exact hbits _

/-- What a raw image adds at a place of a tile, and that entry with the image's NaN state. -/
def rawSum (bs : List Byte) (b : Int) (p : Nat) (a : Int) (e : Entry) : Entry × BitVec 8 := anchoredAdd a e (sx 128 (numAt bs (16 * p) 16)) (b - 96)
def rawCell (bs : List Byte) (b : Int) (p : Nat) (a : Int) (e : Entry) : Entry × BitVec 8 :=
  (if rawSpecial bs then { (rawSum bs b p a e).1 with hidden := (rawSum bs b p a e).1.hidden ||| 2 } else (rawSum bs b p a e).1, (rawSum bs b p a e).2)

/-- The loop of mx.addraw over the entries of a tile. -/
def Tile.addCells (t : Tile) (bs : List Byte) (b : Int) : Tile := (upTo 2048).foldl (fun t i => t.setEntry (i / 64) (i % 64) (rawCell bs b i t.anchor (t.entry (i / 64) (i % 64)))) t

theorem Tile.addRaw_eq (t : Tile) (bs : List Byte) (a : Int) : t.addRaw bs a =
    { (t.anchored a).addCells bs a with status := ((t.anchored a).addCells bs a).status ||| (bs.getD 32770 0 &&& 0x1F) ||| (if rawSpecial bs then tsNan else 0) } := by
  have hsigned : ∀ i, signedOf 128 (numAt bs (16 * i) 16) = sx 128 (numAt bs (16 * i) 16) := fun i => signedOf_eq_sx (by decide) (numAt_lt bs _ 16)
  unfold Tile.addRaw Tile.addCells rawCell rawSum
  simp only [hsigned]
  rfl

theorem cellsUpdate_addCells (t : Tile) (bs : List Byte) (b : Int) : CellsUpdate (· < 2048) (rawCell bs b) t (t.addCells bs b) := by
  refine .congr (K := fun k => ∃ i < 2048, k = 64 * (i / 64) + i % 64) (fun k => ?_) (.foldl 2048 (fun i _ t => ?_) ?_ t)
  · simp only [Nat.div_add_mod]
    exact ⟨fun ⟨i, hi, h⟩ => h ▸ hi, fun hk => ⟨k, hk, rfl⟩⟩
  · have hplace := cellsUpdate_setEntry (F := rawCell bs b) t (i / 64) (i % 64)
    rwa [Nat.div_add_mod] at hplace ⊢
  · intro i j k hij hi hj
    omega

theorem held_rawCell {bs : List Byte} {b a : Int} {p : Nat} {e : Entry} (h : e.InRange) : held (rawCell bs b p a e).1 = (rawCell bs b p a e).1 := by
  have hsum : (rawSum bs b p a e).1.InRange := anchoredAdd_inRange h _ _ _
  refine held_of_inRange ?_
  unfold rawCell
  split
  · exact hsum
  · exact hsum

/-- Status bits that an image brings (R150): its own five, and NaN where it names an infinity or NaN. -/
theorem rawStatus_bits (v : BitVec 8) (special : Bool) (i : Nat) (hi : i < 8) :
    ((v &&& 0x1F) ||| (if special then tsNan else 0)).getLsbD i = (decide (i < 5) && v.getLsbD i || i == 2 && special) := by
  have hown : ∀ j, j < 8 → (0x1F : BitVec 8).getLsbD j = decide (j < 5) := by decide
  have hnan : ∀ special : Bool, ∀ j, j < 8 → (if special then tsNan else 0).getLsbD j = (j == 2 && special) := by decide
  rw [BitVec.getLsbD_or, BitVec.getLsbD_and, hown i hi, hnan special i hi, Bool.and_comm]

theorem rawAdded_of_cells {t new : Tile} {bs : List Byte} {a : Int} (h : CellsUpdate (· < 2048) (rawCell bs a) (t.anchored a) new) :
    RawAdded bs a t { new with status := new.status ||| (bs.getD 32770 0 &&& 0x1F) ||| (if rawSpecial bs then tsNan else 0) } := by
  obtain ⟨hanchor, hpend, hin, _, hstatus⟩ := h
  let sum (q : Nat) := rawSum bs a q (t.anchored a).anchor ((t.anchored a).entry (q / 64) (q % 64))
  have hcell : ∀ q, (t.anchored a).entry (q / 64) (q % 64) = (t.anchored a).cell q := fun q => by rw [Tile.entry_eq_cell, Nat.div_add_mod]
  refine ⟨fun q => (sum q).1, fun q => (sum q).2, rawSpecial bs, rawSpecial_eq bs, fun q _ => anchoredGives_anchoredAdd _ _ _ _, hanchor, hpend.trans (t.anchored_defPend a),
    fun q hq => ?_, fun i hi => ?_⟩
  · show new.entry (q / 64) (q % 64) = _
    rw [Tile.entry_eq_cell, Nat.div_add_mod, hin q hq, held_rawCell (Tile.cell_inRange _ _), ← hcell]
    simp only [sum, rawCell]
    split <;> rfl
  · dsimp only
    rw [BitVec.or_assoc, BitVec.getLsbD_or, rawStatus_bits _ _ i hi]
    have hsum : ∀ q, (sum q).2 = (rawCell bs a q (t.anchored a).anchor ((t.anchored a).cell q)).2 := fun q => by rw [← hcell]; rfl
    have hany : new.status.getLsbD i = (t.status.getLsbD i || (List.range 2048).any fun q => (sum q).2.getLsbD i) := by
      rw [Bool.eq_iff_iff, hstatus, Bool.or_eq_true, List.any_eq_true, Tile.anchored_status]
      exact or_congr_right (exists_congr fun q => by rw [List.mem_range, hsum])
    rw [hany, Bool.or_assoc, Bool.or_comm ((List.range 2048).any _), ← Bool.or_assoc, ← Bool.or_assoc]

theorem rawAdded_addRaw (t : Tile) (bs : List Byte) (a : Int) : RawAdded bs a t (t.addRaw bs a) := by
  rw [Tile.addRaw_eq]
  exact rawAdded_of_cells (cellsUpdate_addCells _ bs a)

end Sys2Proof.Machine
end

section
namespace Sys2Proof.Machine

/-! A core's matrix unit, its groups and its launches, read after what changes other parts (R142, R170). -/

/-- A core but for its groups and its schedulers' sets. -/
def Core.bare (c : Core) : Core := { c with groups := [], scheds := [] }

theorem mx_of_core {s t : State} {p : Nat} (h : t.core p = s.core p) : t.mx p = s.mx p := congrArg Core.mx h

theorem mx_of_bare {s t : State} {p : Nat} (h : (t.core p).bare = (s.core p).bare) : t.mx p = s.mx p :=
  (congrArg Core.mx h :)

theorem group_of_core {s t : State} {g : GRef} (h : t.core g.core = s.core g.core) : t.group? g = s.group? g := by
  unfold State.group?
  rw [h]

theorem bare_modCore {s : State} {p : Nat} {f : Core → Core} (hf : (f (s.core p)).bare = (s.core p).bare) (q : Nat) :
    ((s.modCore p f).core q).bare = (s.core q).bare := by
  by_cases hq : q = p
  · rw [hq, State.core_modCore_self, hf]
  · rw [State.core_modCore_ne _ _ hq]

theorem bare_setGroup (s : State) (g : GRef) (x : Group) (q : Nat) : ((s.setGroup g x).core q).bare = (s.core q).bare := bare_modCore rfl q

theorem bare_modGroup (s : State) (g : GRef) (f : Group → Group) (q : Nat) : ((s.modGroup g f).core q).bare = (s.core q).bare := by
  unfold State.modGroup
  split
  · exact bare_setGroup s g _ q
  · rfl

theorem bare_wake (s : State) (g : GRef) (q : Nat) : ((s.wake g).core q).bare = (s.core q).bare := by
  refine (bare_modCore ?_ q).trans (bare_modGroup s g _ q)
  dsimp only
  split <;> rfl

/-- Waking groups leaves all of a core but them and their schedulers' sets. -/
theorem bare_wakeAll (s : State) (p : Nat) (w : Wait) (q : Nat) : ((s.wakeAll p w).core q).bare = (s.core q).bare :=
  foldl_keeps (fun t : State => (t.core q).bare = (s.core q).bare) _ _ s rfl fun t _ ht => (bare_wake t _ q).trans ht

@[simp] theorem mx_wakeAll (s : State) (p : Nat) (w : Wait) (q : Nat) : (s.wakeAll p w).mx q = s.mx q := mx_of_bare (bare_wakeAll s p w q)

@[simp] theorem mx_setGroup (s : State) (g : GRef) (x : Group) (q : Nat) : (s.setGroup g x).mx q = s.mx q := mx_of_bare (bare_setGroup s g x q)

@[simp] theorem mx_pmEvent (s : State) (p ev part k q : Nat) : (s.pmEvent p ev part k).mx q = s.mx q :=
  mx_of_core ((chg_pmEvent s p ev part k).1.core_eq (by decide) q)

@[simp] theorem core_modLaunch (s : State) (l : Nat) (f : Launch → Launch) (q : Nat) : (s.modLaunch l f).core q = s.core q :=
  (chg_modLaunch s l f).1.core_eq (by decide) q

@[simp] theorem mx_modLaunch (s : State) (l : Nat) (f : Launch → Launch) (q : Nat) : (s.modLaunch l f).mx q = s.mx q := mx_of_core (core_modLaunch s l f q)

theorem core_modMx (s : State) (p : Nat) (f : Mx → Mx) : (s.modMx p f).core p = { s.core p with mx := f (s.mx p) } := State.core_modCore_self s p _

@[simp] theorem mx_modMx (s : State) (p : Nat) (f : Mx → Mx) : (s.modMx p f).mx p = f (s.mx p) := congrArg Core.mx (core_modMx s p f)

@[simp] theorem group_modMx (s : State) (p : Nat) (f : Mx → Mx) (g : GRef) : (s.modMx p f).group? g = s.group? g := by
  unfold State.group? State.modMx
  by_cases h : g.core = p
  · rw [h, State.core_modCore_self]
    rfl
  · rw [State.core_modCore_ne _ _ h]

@[simp] theorem group_modLaunch (s : State) (l : Nat) (f : Launch → Launch) (g : GRef) : (s.modLaunch l f).group? g = s.group? g :=
  group_of_core (core_modLaunch s l f g.core)

/-- Only counters change: the same registers, and then counters of a core. -/
theorem OnlyCounters.refl (s : State) : OnlyCounters s s := fun _ _ => rfl

theorem OnlyCounters.trans {s t u : State} (h : OnlyCounters s t) (k : OnlyCounters t u) : OnlyCounters s u := fun i hi => (k i hi).trans (h i hi)

theorem OnlyCounters.of_regs {s t : State} (h : t.regs = s.regs) : OnlyCounters s t := fun k _ => reg_of_regs h k

theorem onlyCounters_pmAdd (s : State) {p n : Nat} (k : Nat) (hp : p < 1632) (hn : n < 8) : OnlyCounters s (s.pmAdd p n k) := fun i hi =>
  regsBut_pmAdd s p n k i fun hown => by rw [pmReg_of_own hp hn hown] at hi; cases hi

theorem foldl_keeps_mem {α β : Type} (P : β → Prop) (f : β → α → β) (l : List α) (b : β) (h : P b) (k : ∀ b, ∀ a ∈ l, P b → P (f b a)) : P (l.foldl f b) := by
  induction l generalizing b with
  | nil => exact h
  | cons a l ih => exact ih _ (k b a (List.mem_cons_self ..) h) fun b c hc => k b c (List.mem_cons_of_mem _ hc)

theorem onlyCounters_pmEvent (s : State) {p : Nat} (ev part k : Nat) (hp : okCore p = true) : OnlyCounters s (s.pmEvent p ev part k) := by
  have hlt : p < 1632 := of_decide_eq_true hp
  unfold State.pmEvent
  split
  · exact .refl s
  · refine foldl_keeps_mem (OnlyCounters s) _ _ s (.refl s) fun t n hn ht => ht.trans (onlyCounters_pmAdd t k hlt ?_)
    exact List.mem_range.1 (List.mem_filter.1 hn).1

/-! The unit as an operation starts (R170, R176). -/

/-- Starting an operation notes it for CORE_MX_STATE alone (R176). -/
theorem Mx.taken_eq (x : Mx) (op : MxOp) (ofNest : Bool) (now beat : Nat) :
    x.taken op ofNest now beat = { x with array := (x.taken op ofNest now beat).array, reader := (x.taken op ofNest now beat).reader } := by
  cases op <;> rfl

section
variable (x : Mx) (op : MxOp) (ofNest : Bool) (now beat : Nat)

@[simp] theorem Mx.taken_buf : (x.taken op ofNest now beat).buf = x.buf := by rw [Mx.taken_eq]
@[simp] theorem Mx.taken_epoch : (x.taken op ofNest now beat).epoch = x.epoch := by rw [Mx.taken_eq]
@[simp] theorem Mx.taken_handles : (x.taken op ofNest now beat).handles = x.handles := by rw [Mx.taken_eq]
@[simp] theorem Mx.taken_stat : (x.taken op ofNest now beat).stat = x.stat := by rw [Mx.taken_eq]
@[simp] theorem Mx.taken_tiles : (x.taken op ofNest now beat).tiles = x.tiles := by rw [Mx.taken_eq]
@[simp] theorem Mx.taken_drains : (x.taken op ofNest now beat).drains = x.drains := by rw [Mx.taken_eq]

end

/-! Tiles of a unit, and what reads the operand buffer. -/

theorem Mx.tile_congr {x y : Mx} (h : y.tiles = x.tiles) (i : Nat) : y.tile i = x.tile i := by unfold Mx.tile; rw [h]

@[simp] theorem Mx.tile_setTile_self (x : Mx) (i : Nat) (t : Tile) : (x.setTile i t).tile i = t := tget_tput_self _ _ _ _

@[simp] theorem Mx.tile_setTile_ne (x : Mx) {i j : Nat} (t : Tile) (h : j ≠ i) : (x.setTile i t).tile j = x.tile j := tget_tput_ne _ _ _ h _

theorem Mx.setTile_buf (x : Mx) (i : Nat) (t : Tile) : (x.setTile i t).buf = x.buf := rfl

theorem Mx.byte_congr {x y : Mx} (hbuf : y.buf = x.buf) (hepoch : y.epoch = x.epoch) (i : Nat) : y.byte i = x.byte i := by
  unfold Mx.byte
  rw [hbuf, hepoch]

theorem Mx.bytes_congr {x y : Mx} (h : ∀ i, y.byte i = x.byte i) (i n : Nat) : y.bytes i n = x.bytes i n := by
  unfold Mx.bytes
  simp only [h]

theorem Mx.rawImage_congr {x y : Mx} (h : ∀ i, y.byte i = x.byte i) (k : Handle) (img : Nat) : y.rawImage k img = x.rawImage k img := bytes_congr h _ _

theorem Mx.mmaRows_congr {x y : Mx} (h : ∀ i, y.byte i = x.byte i) (k : Handle) (st : Stationary) (fa fb : ElemFmt) (row0 ks m r0 : Nat) (t : Tile) :
    y.mmaRows k st fa fb row0 ks m r0 t = x.mmaRows k st fa fb row0 ks m r0 t := by
  have hvec : y.aVector k fa = x.aVector k fa := by funext m j; unfold Mx.aVector; rw [bytes_congr h]
  have hscale : y.aScale k = x.aScale k := by funext m j b; unfold Mx.aScale; simp only [h]
  unfold Mx.mmaRows Mx.mmaRow
  rw [hvec, hscale]

theorem Mx.ldb_eq {x : Mx} {h : Nat} {k : Handle} (hk : tfind x.handles h = some k) (img : Nat) :
    x.ldb h img = { x with stat := some { fmt := k.fmt, scaled := k.scaled, image := x.bytes (32 * (k.base + imageUnits k.scaled * img)) (32 * imageUnits k.scaled) } } := by
  unfold Mx.ldb
  rw [hk]

theorem Mx.mma_eq {x : Mx} {h : Nat} {k : Handle} {st : Stationary} {fa fb : ElemFmt} (hk : tfind x.handles h = some k) (hst : x.stat = some st)
    (hfa : mxFmt k.fmt = some fa) (hfb : mxFmt st.fmt = some fb) (row0 ks m r0 i : Nat) :
    x.mma h row0 ks m r0 i = x.setTile i (x.mmaRows k st fa fb row0 ks m r0 ((x.tile i).anchored (defaultAnchor fa fb k.scaled st.scaled))) := by
  unfold Mx.mma
  rw [hk, hst]
  simp only [hfa, hfb]
  rfl

/-- mx.mma changes its tile alone. -/
theorem Mx.mma_cases (x : Mx) (h row0 ks m r0 i : Nat) : x.mma h row0 ks m r0 i = x ∨ ∃ t, x.mma h row0 ks m r0 i = x.setTile i t := by
  unfold Mx.mma
  split
  · split
    · exact .inr ⟨_, rfl⟩
    · exact .inl rfl
  · exact .inl rfl

section
variable (x : Mx) (h row0 ks m r0 i : Nat)

theorem Mx.mma_keeps {α : Type} (f : Mx → α) (hf : ∀ t, f (x.setTile i t) = f x) : f (x.mma h row0 ks m r0 i) = f x := by
  rcases x.mma_cases h row0 ks m r0 i with e | ⟨t, e⟩
  · rw [e]
  · rw [e, hf]

theorem Mx.mma_buf : (x.mma h row0 ks m r0 i).buf = x.buf := x.mma_keeps h row0 ks m r0 i Mx.buf fun _ => rfl
theorem Mx.mma_stat : (x.mma h row0 ks m r0 i).stat = x.stat := x.mma_keeps h row0 ks m r0 i Mx.stat fun _ => rfl
theorem Mx.mma_queue : (x.mma h row0 ks m r0 i).queue = x.queue := x.mma_keeps h row0 ks m r0 i Mx.queue fun _ => rfl
theorem Mx.tile_mma_ne {j : Nat} (hj : j ≠ i) : (x.mma h row0 ks m r0 i).tile j = x.tile j :=
  x.mma_keeps h row0 ks m r0 i (Mx.tile · j) fun t => Mx.tile_setTile_ne x t hj

end

/-- A unit that reads as `x` does multiplies as `x` does (R158). -/
theorem rowsMultiplied_mma {x y : Mx} (hbyte : ∀ i, y.byte i = x.byte i) (hhandles : y.handles = x.handles) (hstat : y.stat = x.stat) (htiles : y.tiles = x.tiles)
    {h : Nat} {k : Handle} {st : Stationary} {fa fb : ElemFmt} (hk : tfind x.handles h = some k) (hst : x.stat = some st)
    (hfa : mxFmt k.fmt = some fa) (hfb : mxFmt st.fmt = some fb) (row0 ks m r0 i : Nat) :
    RowsMultiplied x k st fa fb row0 ks m r0 ((x.tile i).anchored (defaultAnchor fa fb k.scaled st.scaled)) ((y.mma h row0 ks m r0 i).tile i) := by
  rw [Mx.mma_eq (hhandles ▸ hk) (hstat ▸ hst) hfa hfb, Mx.tile_setTile_self, Mx.mmaRows_congr hbyte, Mx.tile_congr htiles]
  exact rowsMultiplied_mmaRows ..

/-! Drains to local store (R159, R172). -/

theorem pickExc_nil : pickExc [] = none := rfl

/-- Of a launch that does not trap, or a tile that is exact, a drain finds nothing to record (R64). -/
def DrainExact (la : Launch) (t : Tile) : Prop := eTrapx la.entry = false ∨ t.status &&& (tsInexact ||| tsOvf) = 0

/-- What a drain to local store leaves in the output buffer. -/
def State.localDrain (s : State) (p slot : Nat) (b : Block) (guid : Nat) (site : Site) (j : DrainJob) : DrainBuf where
  guid := guid
  isLocal := true
  block := slot
  launch := b.launch
  writes := (((s.mx p).tile j.tile).drainRows j.dfmt j.satf j.rows j.stride).map fun q => { lane := site.lane, va := (j.addr + q.1).toNat, tgt := .hbm (j.addr + q.1).toNat, data := q.2 }
  track := j.track
  cut := s.d2d

/-- The output buffer takes drain `d`, whose read phase the drain reader shows (R172, R176). -/
def Core.takeDrain (c : Core) (d : DrainBuf) : Core :=
  { c with mx := { c.mx with drains := tset c.mx.drains c.nextId d, reader := c.mx.reader.map fun r => { r with drain := some c.nextId } }, nextId := c.nextId + 1 }

theorem startDrain_local {s : State} {p slot : Nat} {b : Block} {la : Launch} {guid : Nat} {site : Site} {j : DrainJob} (hdst : j.dst = 1)
    (hexact : DrainExact la ((s.mx p).tile j.tile)) :
    s.startDrain p slot b la guid site j = (s.modCore p fun c => c.takeDrain (s.localDrain p slot b guid site j)).afterDrain p j := by
  have hnone : ¬(eTrapx la.entry = true ∧ ((s.mx p).tile j.tile).status &&& (tsInexact ||| tsOvf) ≠ 0) := by
    rintro ⟨htrap, hraised⟩
    rcases hexact with h | h
    · rw [h] at htrap; cases htrap
    · exact hraised h
  unfold State.startDrain State.drainOut
  simp only [hdst, if_neg hnone, show ¬(1 = 2) by decide, show ¬(1 = 0) by decide, if_false, if_true, List.append_nil, pickExc_nil]
  rfl

/-- A drain to local store has started (R159, R172): its rows wait in the output buffer, what becomes of its tile has, and nothing else of the unit has changed. -/
structure DrainStarted (p slot : Nat) (j : DrainJob) (s t : State) : Prop where
  touches : Touches [.cores] s t
  queue : (t.mx p).queue = (s.mx p).queue
  buf : (t.mx p).buf = (s.mx p).buf
  nest : (t.mx p).nest = (s.mx p).nest
  tile : (t.mx p).tile j.tile = j.after ((s.mx p).tile j.tile)
  others : ∀ i, i ≠ j.tile → (t.mx p).tile i = (s.mx p).tile i
  rows : ∃ id d, tfind (t.mx p).drains id = some d ∧ d.isLocal = true ∧ d.block = slot ∧ d.track = j.track ∧
    d.writes.map (fun x => (x.va, x.data)) = (((s.mx p).tile j.tile).drainRows j.dfmt j.satf j.rows j.stride).map fun q => ((j.addr + q.1).toNat, q.2)

theorem drainStarted {s : State} {p slot : Nat} {b : Block} {la : Launch} {guid : Nat} {site : Site} {j : DrainJob} (hdst : j.dst = 1)
    (hexact : DrainExact la ((s.mx p).tile j.tile)) : DrainStarted p slot j s (s.startDrain p slot b la guid site j) := by
  rw [startDrain_local hdst hexact]
  let d := s.localDrain p slot b guid site j
  have hcore : (s.modCore p fun c => c.takeDrain d).mx p = ((s.core p).takeDrain d).mx := congrArg Core.mx (State.core_modCore_self s p _)
  have hmx : ((s.modCore p fun c => c.takeDrain d).afterDrain p j).mx p =
      ((s.core p).takeDrain d).mx.setTile j.tile (j.after ((s.mx p).tile j.tile)) := by
    rw [State.afterDrain, mx_modMx, hcore]
    rfl
  refine ⟨(chg_modCore s p _).1.trans (chg_afterDrain _ p j).1, by rw [hmx]; rfl, by rw [hmx]; rfl, by rw [hmx]; rfl, by rw [hmx, Mx.tile_setTile_self],
    fun i hi => by rw [hmx, Mx.tile_setTile_ne _ _ hi]; rfl, (s.core p).nextId, d, ?_, rfl, rfl, rfl, ?_⟩
  · rw [hmx]
    exact tfind_tset_self _ _ _
  · simp only [d, State.localDrain, List.map_map, Function.comp_def]

end Sys2Proof.Machine
end

section
namespace Sys2Proof.Machine

/-! The oldest entry starts (R170, R171). -/

/-- The unit as an entry starts: the entry has left the queue, and its resources are taken (R170). -/
def Mx.started (x : Mx) (op : MxOp) (now : Nat) (rest : List MxEntry) : Mx :=
  { x.taken op false now (x.startBeat op) with queue := rest, beats := x.beats.take (x.startBeat op) op }

section
variable (x : Mx) (op : MxOp) (now : Nat) (rest : List MxEntry)

theorem Mx.started_buf : (x.started op now rest).buf = x.buf := x.taken_buf ..
theorem Mx.started_handles : (x.started op now rest).handles = x.handles := x.taken_handles ..
theorem Mx.started_stat : (x.started op now rest).stat = x.stat := x.taken_stat ..
theorem Mx.started_tiles : (x.started op now rest).tiles = x.tiles := x.taken_tiles ..
theorem Mx.started_tile (i : Nat) : (x.started op now rest).tile i = x.tile i := Mx.tile_congr (x.started_tiles op now rest) i
theorem Mx.started_byte (i : Nat) : (x.started op now rest).byte i = x.byte i := Mx.byte_congr (x.taken_buf ..) (x.taken_epoch ..) i

end

/-- The state in which an entry that starts has its effect; its launch has made progress (R509). -/
def State.entryTaken (s : State) (p lid : Nat) (op : MxOp) (rest : List MxEntry) : State :=
  (s.modLaunch lid fun l => { l with progGt := s.now }).modMx p fun y => y.started op s.now rest

section
variable {s : State} {p slot lid : Nat} {b : Block} {la : Launch} {e : MxEntry} {op : MxOp} {rest : List MxEntry}

theorem entryTaken_touches (s : State) (p lid : Nat) (op : MxOp) (rest : List MxEntry) : Touches [.cores, .launches] s (s.entryTaken p lid op rest) :=
  ((chg_modLaunch s lid _).1.mono (subF_of rfl)).trans ((chg_modMx _ p _).1.mono (subF_of rfl))

theorem mx_entryTaken (s : State) (p lid : Nat) (op : MxOp) (rest : List MxEntry) : (s.entryTaken p lid op rest).mx p = (s.mx p).started op s.now rest := by
  rw [State.entryTaken, mx_modMx, mx_modLaunch]

theorem group_entryTaken {g : GRef} : (s.entryTaken p lid op rest).group? g = s.group? g := by
  rw [State.entryTaken, group_modMx, group_modLaunch]

/-- A drain to memory starts only with room in the output buffer (R172). -/
def HasRoom (s : State) (p : Nat) (la : Launch) (e : MxEntry) : Prop :=
  ∀ t dfmt satf dst h addr stride reclr track, e.op = .drain t dfmt satf dst h addr stride reclr track →
    (s.mx p).drainRoom dst = true ∧ s.drainHeld p la e.site (drainJob t dfmt satf dst h addr stride reclr track) = false

theorem startEntry_of_startable (h : Startable s p slot b la e rest) (hroom : HasRoom s p la e) :
    s.startEntry p = (s.entryTaken p b.launch e.op rest).runEntry p slot b la e := by
  obtain ⟨_, hqueue, howner, hblock, hlaunch, hfail, hhung, hfree⟩ := h
  unfold State.startEntry
  simp only [hqueue, howner, hblock, hlaunch]
  refine (if_neg ?_).trans rfl
  rw [hfail, hhung, hfree]
  cases hop : e.op with
  | drain t dfmt satf dst h addr stride reclr track =>
    obtain ⟨hbuffer, hheld⟩ := hroom _ _ _ _ _ _ _ _ _ hop
    simp [hbuffer, hheld]
  | _ => simp

theorem exec_mxEntryStart (h : Startable s p slot b la e rest) (hroom : HasRoom s p la e) :
    exec (.mxEntryStart p) s = .next ((s.entryTaken p b.launch e.op rest).runEntry p slot b la e) :=
  (withUnit_ok h.1 _).trans (congrArg _ (startEntry_of_startable h hroom))

/-- An entry's command completes as its effect does, with what its start takes. -/
theorem does_mxEntryStart {L : List Fld} {P : State → Prop} (h : Startable s p slot b la e rest) (hroom : HasRoom s p la e) (hL : subF [.cores, .launches] L)
    (hrun : Touches L (s.entryTaken p b.launch e.op rest) ((s.entryTaken p b.launch e.op rest).runEntry p slot b la e))
    (hP : P ((s.entryTaken p b.launch e.op rest).runEntry p slot b la e)) : Does (.mxEntryStart p) s L P :=
  .intro (exec_mxEntryStart h hroom) (((entryTaken_touches s p b.launch e.op rest).mono hL).trans hrun) hP

theorem hasRoom_of_op (hop : e.op = op) (hdrain : ∀ t dfmt satf dst h addr stride reclr track, op ≠ .drain t dfmt satf dst h addr stride reclr track) :
    HasRoom s p la e := fun _ _ _ _ _ _ _ _ _ h => absurd (hop.symm.trans h) (hdrain _ _ _ _ _ _ _ _ _)

/-- mx.ldb and mx.mma end as events of the array: a count, and handles that may be free (R176, R506). -/
theorem touches_event_wake (s : State) (f : Mx → Mx) (p ev part k : Nat) : Touches [.regs, .cores, .launches] s (((s.modMx p f).pmEvent p ev part k).wakeAll p .residency) :=
  ((chg_modMx s p f).1.mono (subF_of rfl)).trans (((chg_pmEvent _ p ev part k).1.mono (subF_of rfl)).trans ((chg_wakeAll _ p .residency).1.mono (subF_of rfl)))

theorem mx_event_wake (s : State) (f : Mx → Mx) (p ev part k : Nat) : (((s.modMx p f).pmEvent p ev part k).wakeAll p .residency).mx p = f (s.mx p) := by simp

theorem onlyCounters_event_wake {s t : State} (h : t.regs = s.regs) (f : Mx → Mx) {p : Nat} (ev part k : Nat) (hp : okCore p = true) :
    OnlyCounters s (((t.modMx p f).pmEvent p ev part k).wakeAll p .residency) :=
  (OnlyCounters.of_regs (((chg_modMx t p f).1.regs_eq (by decide)).trans h)).trans
    ((onlyCounters_pmEvent _ ev part k hp).trans (.of_regs ((chg_wakeAll _ p .residency).1.regs_eq (by decide))))

theorem ldb_takesEffect {h img : Nat} {k : Handle} (hs : Startable s p slot b la e rest) (hop : e.op = .ldb h img) (hk : tfind (s.mx p).handles h = some k) :
    Does (.mxEntryStart p) s [.regs, .cores, .launches] fun t => (t.mx p).queue = rest ∧ (t.mx p).tiles = (s.mx p).tiles ∧ (t.mx p).buf = (s.mx p).buf ∧
      (t.mx p).stat = some { fmt := k.fmt, scaled := k.scaled, image := (s.mx p).bytes (32 * (k.base + imageUnits k.scaled * img)) (32 * imageUnits k.scaled) } ∧
      OnlyCounters s t := by
  let u := s.entryTaken p b.launch e.op rest
  have hrun : u.runEntry p slot b la e = ((u.modMx p fun x => x.ldb h img).pmEvent p evLoading la.part 32).wakeAll p .residency := by
    unfold State.runEntry
    rw [hop]
  have hu : u.mx p = (s.mx p).started e.op s.now rest := mx_entryTaken s p b.launch e.op rest
  have hregs : u.regs = s.regs := (entryTaken_touches s p b.launch e.op rest).regs_eq (by decide)
  refine does_mxEntryStart hs (hasRoom_of_op hop nofun) (subF_of rfl) ?_ ?_ <;> rw [hrun]
  · exact touches_event_wake u _ p _ _ _
  · rw [mx_event_wake, hu, Mx.ldb_eq ((Mx.started_handles _ _ _ rest).symm ▸ hk), Mx.bytes_congr (Mx.started_byte _ _ _ _)]
    exact ⟨rfl, Mx.started_tiles _ _ _ rest, Mx.started_buf _ _ _ rest, rfl, onlyCounters_event_wake hregs _ _ _ _ hs.1⟩

theorem clr_takesEffect {i : Nat} {a : Option Int} (hs : Startable s p slot b la e rest) (hop : e.op = .clr i a) :
    Does (.mxEntryStart p) s [.cores, .launches] fun t => (t.mx p).queue = rest ∧ (t.mx p).tile i = Tile.cleared a ∧
      (∀ j, j ≠ i → (t.mx p).tile j = (s.mx p).tile j) ∧ (t.mx p).buf = (s.mx p).buf ∧ (t.mx p).stat = (s.mx p).stat := by
  let u := s.entryTaken p b.launch e.op rest
  have hrun : u.runEntry p slot b la e = u.modMx p fun x => x.setTile i (Tile.cleared a) := by
    unfold State.runEntry
    rw [hop]
  have hu : u.mx p = (s.mx p).started e.op s.now rest := mx_entryTaken s p b.launch e.op rest
  refine does_mxEntryStart hs (hasRoom_of_op hop nofun) (subF_of rfl) ?_ ?_ <;> rw [hrun]
  · exact (chg_modMx u p _).1.mono (subF_of rfl)
  · rw [mx_modMx, hu]
    exact ⟨rfl, Mx.tile_setTile_self _ _ _, fun j hj => (Mx.tile_setTile_ne _ _ hj).trans (Mx.started_tile _ _ _ rest _), Mx.started_buf _ _ _ rest, Mx.started_stat _ _ _ rest⟩

theorem mma_takesEffect {h row0 ks m r0 i : Nat} {k : Handle} {st : Stationary} {fa fb : ElemFmt} (hs : Startable s p slot b la e rest)
    (hop : e.op = .mma h row0 ks m r0 i) (hk : tfind (s.mx p).handles h = some k) (hst : (s.mx p).stat = some st) (hfa : mxFmt k.fmt = some fa)
    (hfb : mxFmt st.fmt = some fb) :
    Does (.mxEntryStart p) s [.regs, .cores, .launches] fun t => (t.mx p).queue = rest ∧ (∀ j, j ≠ i → (t.mx p).tile j = (s.mx p).tile j) ∧
      (t.mx p).buf = (s.mx p).buf ∧ (t.mx p).stat = (s.mx p).stat ∧ OnlyCounters s t ∧
      RowsMultiplied (s.mx p) k st fa fb row0 ks m r0 (((s.mx p).tile i).anchored (defaultAnchor fa fb k.scaled st.scaled)) ((t.mx p).tile i) := by
  let u := s.entryTaken p b.launch e.op rest
  have hrun : u.runEntry p slot b la e = ((u.modMx p fun x => x.mma h row0 ks m r0 i).pmEvent p evArray la.part m).wakeAll p .residency := by
    unfold State.runEntry
    rw [hop]
  have hu : u.mx p = (s.mx p).started e.op s.now rest := mx_entryTaken s p b.launch e.op rest
  have hregs : u.regs = s.regs := (entryTaken_touches s p b.launch e.op rest).regs_eq (by decide)
  refine does_mxEntryStart hs (hasRoom_of_op hop nofun) (subF_of rfl) ?_ ?_ <;> rw [hrun]
  · exact touches_event_wake u _ p _ _ _
  · rw [mx_event_wake, hu, Mx.mma_queue, Mx.mma_buf, Mx.mma_stat]
    exact ⟨rfl, fun j hj => (Mx.tile_mma_ne _ _ _ _ _ _ _ hj).trans (Mx.started_tile _ _ _ rest _), Mx.started_buf _ _ _ rest, Mx.started_stat _ _ _ rest, onlyCounters_event_wake hregs _ _ _ _ hs.1,
      rowsMultiplied_mma (Mx.started_byte _ _ _ _) (Mx.started_handles _ _ _ rest) (Mx.started_stat _ _ _ rest) (Mx.started_tiles _ _ _ rest) hk hst hfa hfb row0 ks m r0 i⟩

/-- The anchor field of a raw image holds a value of its range (R150). -/
theorem rawAnchor_of_inRange {bs : List Byte} {a : Int} (ha : a = sx 16 (numAt bs 32768 2)) (hlow : -512 ≤ a) (hup : a ≤ 511) : rawAnchor bs = some a := by
  unfold rawAnchor
  rw [signedOf_eq_sx (by decide) (numAt_lt bs 32768 2), ← ha]
  exact if_pos ⟨hlow, hup⟩

theorem addraw_takesEffect {h img i : Nat} {k : Handle} {a : Int} (hs : Startable s p slot b la e rest) (hop : e.op = .addraw h img i)
    (hk : tfind (s.mx p).handles h = some k) (ha : a = sx 16 (numAt ((s.mx p).rawImage k img) 32768 2)) (hlow : -512 ≤ a) (hup : a ≤ 511) :
    Does (.mxEntryStart p) s [.cores, .launches] fun t => (t.mx p).queue = rest ∧ (∀ j, j ≠ i → (t.mx p).tile j = (s.mx p).tile j) ∧
      (t.mx p).buf = (s.mx p).buf ∧ RawAdded ((s.mx p).rawImage k img) a ((s.mx p).tile i) ((t.mx p).tile i) := by
  let u := s.entryTaken p b.launch e.op rest
  have hu : u.mx p = (s.mx p).started e.op s.now rest := mx_entryTaken s p b.launch e.op rest
  have hrun : u.runEntry p slot b la e = (u.modMx p fun x => x.setTile i ((x.tile i).addRaw ((s.mx p).rawImage k img) a)).wakeAll p .residency := by
    have hhandle : tfind (u.mx p).handles h = some k := by rw [hu, Mx.started_handles]; exact hk
    have himage : (u.mx p).rawImage k img = (s.mx p).rawImage k img := by rw [hu]; exact Mx.rawImage_congr (Mx.started_byte _ _ _ _) k img
    unfold State.runEntry
    simp only [hop, hhandle, himage, rawAnchor_of_inRange ha hlow hup]
  refine does_mxEntryStart hs (hasRoom_of_op hop nofun) (subF_of rfl) ?_ ?_ <;> rw [hrun]
  · exact ((chg_modMx u p _).1.trans (chg_wakeAll _ p .residency).1).mono (subF_of rfl)
  · rw [mx_wakeAll, mx_modMx, hu, Mx.tile_setTile_self, Mx.started_tile, Mx.setTile_buf]
    exact ⟨rfl, fun j hj => (Mx.tile_setTile_ne _ _ hj).trans (Mx.started_tile _ _ _ rest _), Mx.started_buf _ _ _ rest, rawAdded_addRaw _ _ _⟩

theorem ur_setU_self (x : Group) {r : Nat} (v : Word) (hr : r ≠ 255) : (x.setU r v).ur r = v := by
  unfold Group.ur Group.setU
  rw [if_neg hr, if_neg hr]
  exact tget_tput_self _ _ _ _

theorem kept_setU (x : Group) (r : Nat) (v : Word) : Kept [] [r] [] x (x.setU r v) := by
  unfold Group.setU
  split
  · exact ⟨fun _ _ _ _ => rfl, fun _ _ => rfl, fun _ _ _ => rfl⟩
  · refine ⟨fun _ _ _ _ => rfl, fun i hi => ?_, fun _ _ _ => rfl⟩
    unfold Group.ur
    split
    · rfl
    · exact tget_tput_ne _ _ _ (by simpa using hi) _

theorem stat_takesEffect {i r : Nat} {gr : Group} (hs : Startable s p slot b la e rest) (hop : e.op = .stat i r)
    (hgroup : s.group? ⟨p, e.site.sched, e.site.slot⟩ = some gr) (huid : gr.uid = e.guid) (hr : r ≠ 255) :
    Does (.mxEntryStart p) s [.cores, .launches] fun t => (t.mx p).queue = rest ∧
      GroupAt ⟨p, e.site.sched, e.site.slot⟩ t fun x => x.ur r = BitVec.ofNat 32 ((s.mx p).tile i).stat ∧ Kept [] [r] [] gr x := by
  let u := s.entryTaken p b.launch e.op rest
  have hu : u.mx p = (s.mx p).started e.op s.now rest := mx_entryTaken s p b.launch e.op rest
  have hrun : u.runEntry p slot b la e = u.setGroup ⟨p, e.site.sched, e.site.slot⟩ (gr.setU r (BitVec.ofNat 32 ((s.mx p).tile i).stat)) := by
    have hstands : u.group? ⟨p, e.site.sched, e.site.slot⟩ = some gr := group_entryTaken.trans hgroup
    unfold State.runEntry
    simp only [hop, hstands, if_pos huid, hu, Mx.started_tile]
  refine does_mxEntryStart hs (hasRoom_of_op hop nofun) (subF_of rfl) ?_ ?_ <;> rw [hrun]
  · exact (chg_setGroup u _ _).1.mono (subF_of rfl)
  · rw [mx_setGroup, hu]
    exact ⟨rfl, _, State.group_setGroup_self _ _ _, ur_setU_self _ _ hr, kept_setU gr r _⟩

theorem drain_takesEffect {i dfmt addr : Nat} {stride : Int} {re : Bool} {k : Option Nat} (hs : Startable s p slot b la e rest)
    (hop : e.op = .drain i dfmt false 1 0 addr stride re k) (hroom : (s.mx p).drains.length < 2) (hexact : DrainExact la ((s.mx p).tile i)) :
    Does (.mxEntryStart p) s [.cores, .launches] fun t => (t.mx p).queue = rest ∧ (t.mx p).buf = (s.mx p).buf ∧
      (∃ id d, tfind (t.mx p).drains id = some d ∧ d.isLocal = true ∧ d.block = slot ∧ d.track = k ∧
        d.writes.map (fun x => (x.va, x.data)) = (((s.mx p).tile i).drainRows dfmt false 32 stride).map fun q => (((addr : Int) + q.1).toNat, q.2)) ∧
      (∀ j, j ≠ i → (t.mx p).tile j = (s.mx p).tile j) ∧
      (t.mx p).tile i = if re then ((s.mx p).tile i).reclear else (s.mx p).tile i := by
  let u := s.entryTaken p b.launch e.op rest
  have hu : u.mx p = (s.mx p).started e.op s.now rest := mx_entryTaken s p b.launch e.op rest
  have htile : ∀ j, (u.mx p).tile j = (s.mx p).tile j := fun j => by rw [hu, Mx.started_tile]
  let j := drainJob i dfmt false 1 0 addr stride re k
  have hrun : u.runEntry p slot b la e = u.startDrain p slot b la e.guid e.site j := by
    unfold State.runEntry
    rw [hop]
  obtain ⟨htouch, hqueue, hbuf, _, hself, hothers, hrows⟩ :=
    drainStarted (s := u) (slot := slot) (b := b) (guid := e.guid) (site := e.site) (j := j) rfl ((htile i).symm ▸ hexact)
  have hbuffer : HasRoom s p la e := by
    intro t dfmt' satf dst h addr' stride' reclr track h'
    obtain ⟨rfl, rfl, rfl, rfl, rfl, rfl, rfl, rfl, rfl⟩ := MxOp.drain.inj (hop.symm.trans h')
    exact ⟨by simp [Mx.drainRoom, hroom], rfl⟩
  refine does_mxEntryStart hs hbuffer (subF_of rfl) ?_ ?_ <;> rw [hrun]
  · exact htouch.mono (subF_of rfl)
  · refine ⟨hqueue.trans (by rw [hu]; rfl), hbuf.trans (by rw [hu, Mx.started_buf]), ?_, fun j hj => (hothers j hj).trans (htile j), ?_⟩
    · rwa [show j.tile = i from rfl, htile] at hrows
    · refine hself.trans ?_
      rw [show j.tile = i from rfl, htile]
      cases re <;> rfl

theorem nest_takesEffect {n : NestTab} {k : Option Nat} (hs : Startable s p slot b la e rest) (hop : e.op = .nest n k) :
    Does (.mxEntryStart p) s [.cores, .launches] fun t => (t.mx p).queue = rest ∧ (t.mx p).tiles = (s.mx p).tiles ∧
      ∃ r, (t.mx p).nest = some r ∧ r.tab = n ∧ r.track = k ∧ r.pos = 0 ∧ r.due = [] := by
  let u := s.entryTaken p b.launch e.op rest
  have hrun : u.runEntry p slot b la e = u.modMx p fun x => { x with nest := some { tab := n, entry := e, track := k, beat := x.beats.next - 1 } } := by
    unfold State.runEntry
    rw [hop]
  have hu : u.mx p = (s.mx p).started e.op s.now rest := mx_entryTaken s p b.launch e.op rest
  refine does_mxEntryStart hs (hasRoom_of_op hop nofun) (subF_of rfl) ?_ ?_ <;> rw [hrun]
  · exact (chg_modMx u p _).1.mono (subF_of rfl)
  · rw [mx_modMx, hu]
    exact ⟨rfl, Mx.started_tiles _ _ _ rest, _, rfl, rfl, rfl, rfl, rfl⟩

end

/-- Settles O24, one lemma for each kind of entry: what its start takes of the unit, and then its effect. -/
theorem matrixEntriesTakeEffect : Obligations.MatrixEntriesTakeEffect :=
  ⟨fun _ _ _ _ _ _ _ _ _ _ => ldb_takesEffect, fun _ _ _ _ _ _ _ _ _ => clr_takesEffect, fun _ _ _ _ _ _ _ _ _ _ _ _ _ _ _ _ _ => mma_takesEffect, kblockRules,
    fun _ _ _ _ _ _ _ _ _ _ _ _ => addraw_takesEffect, fun _ _ _ _ _ _ _ _ _ _ => stat_takesEffect, fun _ _ _ _ _ _ _ _ _ _ _ _ _ => drain_takesEffect,
    fun _ _ _ _ _ _ _ _ _ => nest_takesEffect⟩

end Sys2Proof.Machine
end

section
namespace Sys2Proof.Machine

/-! A running nest (R183 to R187): which operation starts, and what it does. -/

section
variable {s : State} {p slot : Nat} {b : Block} {la : Launch} {n : NestRun}

/-- Core `p` runs nest `n` of a launch that has neither failed nor been found to hang (R137, R185, R510). -/
structure NestRuns (s : State) (p slot : Nat) (b : Block) (la : Launch) (n : NestRun) : Prop where
  core : okCore p = true
  nest : (s.mx p).nest = some n
  owner : (s.mx p).owner = some slot
  block : s.blockAt p slot = some b
  launch : s.launch? b.launch = some la
  fail : la.fail = none
  hung : la.hung = 0

theorem exec_nestOpStart (h : NestRuns s p slot b la n) : exec (.nestOpStart p) s = .next (s.nestNext p slot b la n) := by
  refine (withUnit_ok h.core _).trans (congrArg _ ?_)
  unfold State.nestOp
  simp only [h.nest, h.owner, h.block, h.launch]
  exact if_neg (by simp [h.fail, h.hung])

/-- The array's operation starts when the drain stream has none, or none for an earlier beat (R185). -/
theorem nestNext_array {f : Nat} {o : NestArr} (harray : n.arrayNext (s.mx p).beats = some (f, o)) (hdrain : ∀ y, n.drainNext (s.mx p) = some y → f ≤ y.1) :
    s.nestNext p slot b la n = s.nestArray p la.part n f o := by
  unfold State.nestNext
  rw [harray]
  cases hnext : (n.drainNext (s.mx p)).filter fun d => !s.drainHeld p la n.entry.site (n.job d.2) with
  | none => rfl
  | some d => exact if_neg (not_lt.2 (hdrain d (Option.filter_eq_some_iff.1 hnext).1))

/-- A drain to local store starts when the array stream has no operation for the same beat or an earlier one (R185). -/
theorem nestNext_drain {f : Nat} {d : NestDue} (hdst : n.tab.hdr.dst = 1) (hdrain : n.drainNext (s.mx p) = some (f, d))
    (harray : ∀ y, n.arrayNext (s.mx p).beats = some y → f < y.1) : s.nestNext p slot b la n = s.nestDrain p slot b la n f d := by
  have hfree : s.drainHeld p la n.entry.site (n.job d) = false := by
    unfold State.drainHeld
    rw [show (n.job d).dst = 1 from hdst]
    rfl
  unfold State.nestNext
  rw [hdrain, Option.filter_some, if_pos (by rw [hfree]; rfl)]
  cases hnext : n.arrayNext (s.mx p).beats with
  | none => rfl
  | some a => exact if_pos (harray a hnext)

/-! The array stream's next operation (R170, R184). -/

theorem arrayNext_ldb {c : Beats} (hpos : n.pos < walkLen n.tab.levs) (hcur : n.curB ≠ some (n.tab.point n.pos).b.toNat) :
    n.arrayNext c = some (max n.beat c.array, .ldb (n.tab.point n.pos).b.toNat) := by
  unfold NestRun.arrayNext
  rw [if_neg (not_le.2 hpos), if_pos hcur]

/-- The tile of the point awaits no drain. -/
def TileFree (n : NestRun) : Prop := ∀ d ∈ n.due, d.tile ≠ (n.tab.point n.pos).t.toNat

theorem arrayNext_of_loaded {c : Beats} (hpos : n.pos < walkLen n.tab.levs) (hcur : n.curB = some (n.tab.point n.pos).b.toNat) (hfree : TileFree n) :
    n.arrayNext c = if n.tab.hdr.clear && (n.tab.point n.pos).firstK && !n.clearedHere && !n.drained.contains (n.tab.point n.pos).t.toNat
      then some (max n.beat (tget 0 c.tiles (n.tab.point n.pos).t.toNat), .clear (n.tab.point n.pos).t.toNat)
      else some (max n.beat (max c.array (tget 0 c.tiles (n.tab.point n.pos).t.toNat)), .mma (n.tab.point n.pos)) := by
  have hnone : ¬(n.due.any fun d => d.tile == (n.tab.point n.pos).t.toNat) = true := by simpa [TileFree] using hfree
  unfold NestRun.arrayNext
  rw [if_neg (not_le.2 hpos), if_neg (not_not.2 hcur), if_neg hnone]

theorem arrayNext_clear {c : Beats} (hpos : n.pos < walkLen n.tab.levs) (hcur : n.curB = some (n.tab.point n.pos).b.toNat) (hfree : TileFree n)
    (hclear : n.tab.hdr.clear = true) (hfirst : (n.tab.point n.pos).firstK = true) (hhere : n.clearedHere = false)
    (hdrained : (n.tab.point n.pos).t.toNat ∉ n.drained) :
    n.arrayNext c = some (max n.beat (tget 0 c.tiles (n.tab.point n.pos).t.toNat), .clear (n.tab.point n.pos).t.toNat) := by
  rw [arrayNext_of_loaded hpos hcur hfree, if_pos (by simp [hclear, hfirst, hhere, hdrained])]

theorem arrayNext_mma {c : Beats} (hpos : n.pos < walkLen n.tab.levs) (hcur : n.curB = some (n.tab.point n.pos).b.toNat) (hfree : TileFree n)
    (hno : n.tab.hdr.clear = false ∨ (n.tab.point n.pos).firstK = false ∨ n.clearedHere = true ∨ (n.tab.point n.pos).t.toNat ∈ n.drained) :
    n.arrayNext c = some (max n.beat (max c.array (tget 0 c.tiles (n.tab.point n.pos).t.toNat)), .mma (n.tab.point n.pos)) := by
  rw [arrayNext_of_loaded hpos hcur hfree, if_neg]
  rcases hno with h | h | h | h <;> simp [h]

/-! What each operation does. -/

theorem touches_event (s : State) (f : Mx → Mx) (p ev part k : Nat) : Touches [.regs, .cores] s ((s.modMx p f).pmEvent p ev part k) :=
  ((chg_modMx s p f).1.mono (subF_of rfl)).trans ((chg_pmEvent _ p ev part k).1.mono (subF_of rfl))

theorem onlyCounters_event (s : State) (f : Mx → Mx) {p : Nat} (ev part k : Nat) (hp : okCore p = true) : OnlyCounters s ((s.modMx p f).pmEvent p ev part k) :=
  (OnlyCounters.of_regs ((chg_modMx s p f).1.regs_eq (by decide))).trans (onlyCounters_pmEvent _ ev part k hp)

theorem mx_event (s : State) (f : Mx → Mx) (p ev part k : Nat) : ((s.modMx p f).pmEvent p ev part k).mx p = f (s.mx p) := by simp

theorem nest_loads {q : NestPoint} {k : Handle} (h : NestRuns s p slot b la n) (hpos : n.pos < walkLen n.tab.levs) (hq : q = n.tab.point n.pos)
    (hk : tfind (s.mx p).handles n.tab.hdr.hb = some k) (hcur : n.curB ≠ some q.b.toNat)
    (hdrain : ∀ y, n.drainNext (s.mx p) = some y → max n.beat (s.mx p).beats.array ≤ y.1) :
    Does (.nestOpStart p) s [.regs, .cores] fun t => OnlyCounters s t ∧
      (t.mx p).nest = some { n with curB := some q.b.toNat, beat := max n.beat (s.mx p).beats.array + 1 } ∧
      (t.mx p).beats = { (s.mx p).beats with array := max n.beat (s.mx p).beats.array + 32 } ∧ (t.mx p).tiles = (s.mx p).tiles ∧
      (t.mx p).stat = some { fmt := k.fmt, scaled := k.scaled, image := (s.mx p).bytes (32 * (k.base + imageUnits k.scaled * q.b.toNat)) (32 * imageUnits k.scaled) } := by
  subst hq
  have hexec := exec_nestOpStart h
  rw [nestNext_array (arrayNext_ldb hpos hcur) hdrain] at hexec
  refine .intro hexec (touches_event s _ p _ _ _) ⟨onlyCounters_event s _ _ _ _ h.core, ?_⟩
  rw [State.nestArray, mx_event, Mx.ldb_eq ((Mx.taken_handles ..).symm ▸ hk), Mx.bytes_congr (Mx.byte_congr (Mx.taken_buf ..) (Mx.taken_epoch ..))]
  exact ⟨rfl, rfl, Mx.taken_tiles .., rfl⟩

theorem nest_clears {q : NestPoint} {f : Nat} (h : NestRuns s p slot b la n) (hpos : n.pos < walkLen n.tab.levs) (hq : q = n.tab.point n.pos)
    (hcur : n.curB = some q.b.toNat) (hfree : ∀ d ∈ n.due, d.tile ≠ q.t.toNat) (hclear : n.tab.hdr.clear = true) (hfirst : q.firstK = true)
    (hhere : n.clearedHere = false) (hdrained : q.t.toNat ∉ n.drained) (hf : f = max n.beat (tget 0 (s.mx p).beats.tiles q.t.toNat))
    (hdrain : ∀ y, n.drainNext (s.mx p) = some y → f ≤ y.1) :
    Does (.nestOpStart p) s [.cores] fun t => (t.mx p).tile q.t.toNat = Tile.cleared n.tab.clearTo ∧ (∀ j, j ≠ q.t.toNat → (t.mx p).tile j = (s.mx p).tile j) ∧
      (t.mx p).stat = (s.mx p).stat ∧ (t.mx p).nest = some { n with clearedHere := true, beat := f + 1 } ∧
      (t.mx p).beats = { (s.mx p).beats with tiles := tset (s.mx p).beats.tiles q.t.toNat (f + 2) } := by
  subst hq hf
  have hexec := exec_nestOpStart h
  rw [nestNext_array (arrayNext_clear hpos hcur hfree hclear hfirst hhere hdrained) hdrain] at hexec
  refine .intro hexec (chg_modMx s p _).1 ?_
  rw [State.nestArray, mx_modMx]
  exact ⟨Mx.tile_setTile_self _ _ _, fun j hj => (Mx.tile_setTile_ne _ _ hj).trans (Mx.tile_congr (Mx.taken_tiles ..) j), Mx.taken_stat .., rfl, rfl⟩

theorem nest_multiplies {q : NestPoint} {f : Nat} (h : NestRuns s p slot b la n) (hpos : n.pos < walkLen n.tab.levs) (hq : q = n.tab.point n.pos)
    (hcur : n.curB = some q.b.toNat) (hfree : ∀ d ∈ n.due, d.tile ≠ q.t.toNat)
    (hno : n.tab.hdr.clear = false ∨ q.firstK = false ∨ n.clearedHere = true ∨ q.t.toNat ∈ n.drained)
    (hf : f = max n.beat (max (s.mx p).beats.array (tget 0 (s.mx p).beats.tiles q.t.toNat))) (hdrain : ∀ y, n.drainNext (s.mx p) = some y → f ≤ y.1) :
    Does (.nestOpStart p) s [.regs, .cores] fun t => OnlyCounters s t ∧ (∀ j, j ≠ q.t.toNat → (t.mx p).tile j = (s.mx p).tile j) ∧
      (t.mx p).beats = { (s.mx p).beats with array := f + q.m, tiles := tset (s.mx p).beats.tiles q.t.toNat (f + q.m + 3) } ∧ (t.mx p).buf = (s.mx p).buf ∧ (t.mx p).stat = (s.mx p).stat ∧
      (∀ k st fa fb, tfind (s.mx p).handles n.tab.hdr.ha = some k → (s.mx p).stat = some st → mxFmt k.fmt = some fa → mxFmt st.fmt = some fb →
        RowsMultiplied (s.mx p) k st fa fb (q.a.toNat / k.pitch) (q.a.toNat % k.pitch) q.m 0 (((s.mx p).tile q.t.toNat).anchored (defaultAnchor fa fb k.scaled st.scaled)) ((t.mx p).tile q.t.toNat)) ∧
      ∃ r, (t.mx p).nest = some r ∧ r.pos = n.pos + 1 ∧ r.tab = n.tab ∧ r.beat = f + 1 ∧
        r.due = if n.tab.hdr.drain && q.lastK then n.due ++ [{ tile := q.t.toNat, dst := q.c, rows := q.m, reclr := n.tab.folds n.pos }] else n.due := by
  subst hq hf
  have hexec := exec_nestOpStart h
  rw [nestNext_array (arrayNext_mma hpos hcur hfree hno) hdrain] at hexec
  refine .intro hexec (touches_event s _ p _ _ _) ⟨onlyCounters_event s _ _ _ _ h.core, ?_⟩
  rw [State.nestArray, mx_event]
  refine ⟨fun j hj => (Mx.tile_mma_ne _ _ _ _ _ _ _ hj).trans (Mx.tile_congr (Mx.taken_tiles ..) j), rfl, (Mx.mma_buf ..).trans (Mx.taken_buf ..),
    (Mx.mma_stat ..).trans (Mx.taken_stat ..), fun k st fa fb hk hst hfa hfb => ?_, _, rfl, rfl, rfl, rfl, rfl⟩
  have hpitch : ((tfind (s.mx p).handles n.tab.hdr.ha).map (·.pitch)).getD 1 = k.pitch := by rw [hk]; rfl
  rw [hpitch]
  exact rowsMultiplied_mma (Mx.byte_congr (Mx.taken_buf ..) (Mx.taken_epoch ..)) (Mx.taken_handles ..) (Mx.taken_stat ..) (Mx.taken_tiles ..) hk hst hfa hfb _ _ _ _ _

/-- The state in which a drain of the nest reads its tile. -/
def State.nestDrainTaken (s : State) (p : Nat) (n : NestRun) (f : Nat) (d : NestDue) : State :=
  s.modMx p fun x => { x.taken (.drain d.tile n.tab.hdr.dfmt n.tab.hdr.satf n.tab.hdr.dst n.tab.hdr.hc 0 0 d.reclr none) true s.now f with
    nest := some { n with due := n.due.drop 1, drained := sins n.drained d.tile, beat := f + 1 }
    beats := { x.beats with reader := f + 32, tiles := tset x.beats.tiles d.tile (f + if d.reclr then 34 else 32) } }

theorem nest_drains {d : NestDue} {f : Nat} (h : NestRuns s p slot b la n) (hdrain : n.drainNext (s.mx p) = some (f, d))
    (harray : ∀ y, n.arrayNext (s.mx p).beats = some y → f < y.1) (hdst : n.tab.hdr.dst = 1) (hsatf : n.tab.hdr.satf = false) (htrap : eTrapx la.entry = false) :
    Does (.nestOpStart p) s [.cores] fun t => (∃ r, (t.mx p).nest = some r ∧ r.due = n.due.drop 1 ∧ r.pos = n.pos ∧ r.beat = f + 1 ∧ d.tile ∈ r.drained) ∧
      (t.mx p).tile d.tile = (if d.reclr then Tile.cleared n.tab.clearTo else (s.mx p).tile d.tile) ∧ (∀ j, j ≠ d.tile → (t.mx p).tile j = (s.mx p).tile j) ∧
      ∃ id b, tfind (t.mx p).drains id = some b ∧ b.isLocal = true ∧
        b.writes.map (fun x => (x.va, x.data)) = (((s.mx p).tile d.tile).drainRows n.tab.hdr.dfmt false d.rows (n.tab.rowStep 0)).map fun y => ((d.dst + y.1).toNat, y.2) := by
  let u := s.nestDrainTaken p n f d
  have htile : ∀ j, (u.mx p).tile j = (s.mx p).tile j := fun j => by
    rw [show u.mx p = _ from mx_modMx s p _]
    exact Mx.tile_congr (Mx.taken_tiles ..) j
  obtain ⟨htouch, _, _, hnest, hself, hothers, id, r, hr, hlocal, _, _, hwrites⟩ :=
    drainStarted (s := u) (slot := slot) (b := b) (guid := n.entry.guid) (site := n.entry.site) (j := n.job d) hdst (.inl htrap)
  have hexec := exec_nestOpStart h
  rw [nestNext_drain hdst hdrain harray] at hexec
  rw [show (n.job d).tile = d.tile from rfl, htile] at hself hwrites
  refine .intro hexec ((chg_modMx s p _).1.trans htouch) ⟨⟨_, hnest.trans (congrArg Mx.nest (mx_modMx s p _)), rfl, rfl, rfl, mem_sins.2 (.inl rfl)⟩, hself.trans ?_,
    fun j hj => (hothers j hj).trans (htile j), id, r, hr, hlocal, ?_⟩
  · unfold NestRun.job
    cases d.reclr <;> rfl
  · rwa [show (n.job d).satf = false from hsatf] at hwrites

end

/-! The end of a nest (R186, R187), and tracker entries that nothing holds any more (R179). -/

theorem bare_untrack (s : State) (p id q : Nat) : ((s.untrack p id).core q).bare = ((s.modCore p fun c => { c with art := tdel c.art id }).core q).bare :=
  (bare_wakeAll _ p .residency q).trans (bare_wakeAll _ p .load q)

theorem mx_untrack (s : State) (p id : Nat) : (s.untrack p id).mx p = s.mx p :=
  (mx_of_bare (bare_untrack s p id p)).trans (congrArg Core.mx (State.core_modCore_self s p fun c => { c with art := tdel c.art id }) :)

theorem freeTrack_cases (s : State) (p : Nat) (k : Option Nat) : s.freeTrack p k = s ∨ ∃ id, s.freeTrack p k = s.untrack p id := by
  cases k with
  | none => exact .inl rfl
  | some id => exact (ite_eq_or_eq _ _ _).imp_right fun h => ⟨id, h⟩

theorem mx_freeTrack (s : State) (p : Nat) (k : Option Nat) : (s.freeTrack p k).mx p = s.mx p := by
  rcases freeTrack_cases s p k with h | ⟨id, h⟩
  · rw [h]
  · rw [h, mx_untrack]

theorem art_of_bare {s t : State} {p : Nat} (h : (t.core p).bare = (s.core p).bare) : (t.core p).art = (s.core p).art :=
  (congrArg Core.art h :)

/-- A tracker entry that no drain and no nest holds is freed. -/
theorem art_freeTrack {s : State} {p id : Nat} (hdrains : ∀ e ∈ (s.mx p).drains, e.2.track ≠ some id) (hnest : (s.mx p).nest = none) :
    tfind ((s.freeTrack p (some id)).core p).art id = none := by
  have hfree : ¬((s.mx p).drains.any fun e => e.2.track == some id) = true := by simpa using hdrains
  unfold State.freeTrack
  simp only [hnest, Bool.or_false, if_neg hfree]
  rw [art_of_bare (bare_untrack s p id p), State.core_modCore_self]
  exact tfind_tdel_self _ _

theorem le_foldl_max (f : Nat → Nat) (l : List Nat) (a : Nat) : a ≤ l.foldl (fun a t => max a (f t)) a := by
  induction l generalizing a with
  | nil => exact le_rfl
  | cons x l ih => exact (le_max_left a (f x)).trans (ih _)

/-- The unit once its nest is over. -/
def Mx.nestOver (x : Mx) (n : NestRun) : Mx :=
  { x with nest := none, beats := x.beats.afterNest n, array := x.array.filter (!·.ofNest), reader := x.reader.filter (!·.ofNest) }

theorem exec_nestEnd {s : State} {p : Nat} {n : NestRun} (hp : okCore p = true) (hnest : (s.mx p).nest = some n) (hpos : walkLen n.tab.levs ≤ n.pos) (hdue : n.due = []) :
    exec (.nestEnd p) s = .next (((s.modMx p (·.nestOver n)).freeTrack p n.track).wakeAll p .residency) := by
  refine (withUnit_ok hp _).trans (congrArg _ ?_)
  unfold State.endNest
  simp only [hnest]
  exact if_pos ⟨hpos, hdue⟩

theorem nest_ends {s : State} {p : Nat} {n : NestRun} (hp : okCore p = true) (hnest : (s.mx p).nest = some n) (hpos : walkLen n.tab.levs ≤ n.pos) (hdue : n.due = []) :
    Does (.nestEnd p) s [.cores] fun t => (t.mx p).nest = none ∧ (t.mx p).tiles = (s.mx p).tiles ∧ (t.mx p).queue = (s.mx p).queue ∧ (t.mx p).buf = (s.mx p).buf ∧
      (s.mx p).beats.array ≤ (t.mx p).beats.array ∧ n.beat ≤ (t.mx p).beats.next ∧
      (∀ k, n.track = some k → (∀ e ∈ (s.mx p).drains, e.2.track ≠ some k) → tfind (t.core p).art k = none) := by
  refine .intro (exec_nestEnd hp hnest hpos hdue) ((chg_modMx s p _).1.trans ((chg_freeTrack _ p _).1.trans (chg_wakeAll _ p .residency).1)) ?_
  rw [mx_wakeAll, mx_freeTrack, mx_modMx]
  refine ⟨rfl, rfl, rfl, rfl, le_foldl_max _ _ _, le_max_right _ _, fun k hk hdrains => ?_⟩
  rw [art_of_bare (bare_wakeAll _ p .residency p), hk]
  exact art_freeTrack (by rw [mx_modMx]; exact hdrains) (by rw [mx_modMx]; rfl)

end Sys2Proof.Machine
end

section
namespace Sys2Proof.Machine

/-! A group issues (R76, R77, R105): what its command comes to, and what it leaves of the group. -/

section
variable {s u t : State} {g : GRef} {w : Word64} {c : Ctx} {L : List Fld}

/-- What the context of a group that may issue says of it (R76, R137). -/
theorem issueCtx_eq_some (h : s.issueCtx g = some c) :
    s.group? g = some c.gr ∧ c.lid = c.gr.launch ∧ s.launch? c.lid = some c.la ∧ s.blockAt g.core c.gr.block = some c.blk ∧ c.la.phase = .running ∧ c.la.fail = none := by
  unfold State.issueCtx at h
  split at h
  · cases h
  · next gr hgr =>
    split at h
    · next la blk hla hblk =>
      split at h
      · next hcond =>
        cases h
        exact ⟨hgr, rfl, hla, hblk, hcond.1, hcond.2.1⟩
      · cases h
    · cases h

theorem groups_icacheFill (s : State) (p line : Nat) (bs : List Byte) (pre : Option Nat) (q : Nat) :
    ((s.icacheFill p line bs pre).core q).groups = (s.core q).groups := by
  have hset : ∀ (v : State) (x : Core), v.core q = s.core q → x.groups = (s.core p).groups → ((v.setCore p x).core q).groups = (s.core q).groups := by
    intro v x hv hx
    rw [State.core_setCore]
    split
    · next h => rw [h, hx]
    · rw [hv]
  unfold State.icacheFill
  dsimp only
  split
  · exact hset s _ rfl rfl
  · exact hset _ _ rfl rfl

/-- Fetching a word leaves every group as it was. -/
theorem groups_fetch (s : State) (g : GRef) (c : Ctx) (q : Nat) : ((s.fetch g c).2.core q).groups = (s.core q).groups := by
  have htransl : ∀ {r t}, s.transl c.la.part c.gr.pc .fetch (.core g.core) = (r, t) → t.core q = s.core q := fun h => by
    have hcore := (chg_transl s c.la.part c.gr.pc .fetch (.core g.core)).1.core_eq (by decide) q
    rwa [h] at hcore
  unfold State.fetch
  dsimp only
  split
  · rfl
  · split
    · next h => exact congrArg Core.groups (htransl h)
    · next tr t h =>
      have hread := (chg_readAt t (tr.tgt.back (c.gr.pc % 128)) 128).1.core_eq (by decide) q
      split
      · exact congrArg Core.groups (htransl h)
      · split
        · exact congrArg Core.groups (htransl h)
        · rw [groups_icacheFill]
          split
          · rw [(chg_l2Touch _ _ _ _ _ _ _).1.core_eq (by decide) q, hread, htransl h]
          · rw [hread, htransl h]

theorem Issues.group_eq (h : Issues s g w c u) : u.group? g = some c.gr := by
  obtain ⟨_, hctx, _, hfetch, _⟩ := h
  have hgroups := groups_fetch s g c g.core
  rw [hfetch] at hgroups
  rw [← (issueCtx_eq_some hctx).1]
  unfold State.group? Core.group?
  rw [hgroups]

theorem Issues.launch_eq (h : Issues s g w c u) : u.launch? c.lid = some c.la := by
  obtain ⟨_, hctx, _, hfetch, _⟩ := h
  have htouch := (chg_fetch s g c).1
  rw [hfetch] at htouch
  rw [htouch.launch_eq (by decide)]
  exact (issueCtx_eq_some hctx).2.2.1

theorem Issues.issue_eq (h : Issues s g w c u) (body : Ctx → State → State) : s.issue g w body = body c u := by
  obtain ⟨_, hctx, _, hfetch, hstat, herrs, hwait⟩ := h
  unfold State.issue
  simp only [hctx, hfetch, hstat, herrs, hwait, List.map_nil, pickExc_nil, and_self, if_true]

/-- The unit grants scheduler `k` (R166). -/
def Mx.grant (x : Mx) (k : Nat) : Mx := { x with granted := k }

/-- A group whose turn has come does what its row does, a matrix instruction with the unit's grant (R76, R166). -/
theorem Issues.inTurn_cases (h : Issues s g w c u) (row : State → State) :
    s.inTurn g w row = row s ∨ s.inTurn g w row = (row s).modMx g.core (·.grant g.sched) := by
  obtain ⟨_, hctx, hturn, _⟩ := h
  unfold State.inTurn
  rw [hctx]
  dsimp only
  by_cases hacts : s.acts g w = true
  · rw [if_pos hacts, if_pos hturn]
    exact (ite_eq_or_eq _ _ _).symm
  · exact .inl (if_neg hacts)

/-- A row's command completes as the row does, where what is said of it is not about the grant. -/
theorem Issues.goes {i : Instr} {r : IRow} {row : State → State} {P : State → Prop} (h : Issues s g w c u) (hrow : rowOf w = r)
    (hexec : exec i s = withWord g w r (s.inTurn g w row)) (hL : subF [.cores] L) (htouch : Touches L u (row s)) (hP : P (row s))
    (hgrant : ∀ t, P t → P (t.modMx g.core (·.grant g.sched))) : Goes i s u L P := by
  have hgo : exec i s = .next (s.inTurn g w row) := by
    rw [hexec, withWord, if_pos h.1, if_pos hrow]
  rcases h.inTurn_cases row with e | e
  · exact ⟨_, hgo, e.symm ▸ htouch, e.symm ▸ hP⟩
  · exact ⟨_, hgo, e.symm ▸ htouch.trans ((chg_modMx _ _ _).1.mono hL), e.symm ▸ hgrant _ hP⟩

/-- A matrix instruction of the unit's owner, with room in the queue where it takes a place in it (R162, R167). -/
theorem Issues.mxIssue_eq (h : Issues s g w c u) (hown : MxOwn u g c) (queued : Bool) (body : Ctx → State → State) : s.mxIssue g w queued body = body c u := by
  have hroom : ¬(queued && decide (8 ≤ (u.mx g.core).queue.length)) = true := by
    simp only [Bool.and_eq_true, decide_eq_true_eq, not_and, not_le]
    exact fun _ => hown.2
  unfold State.mxIssue
  rw [h.issue_eq]
  simp only [hown.1, if_true, if_neg hroom]

theorem access_eq {k : State → State} (h : u.accessWait g c.gr.uid w false = none) : u.access g c w false k = k u := by
  unfold State.access
  rw [h]

/-- An instruction that meets no cause goes on. -/
theorem orRaise_none {xs : List (Nat × Bool)} {k : State → State} (a : Nat) (h : ∀ x ∈ xs, x.2 = false) : u.orRaise g c w (c.causesAt a xs) k = k u := by
  have hnil : c.causesAt a xs = [] := by
    unfold Ctx.causesAt
    rw [List.filter_eq_nil_iff.2 fun x hx => by simp [h x hx]]
    rfl
  rw [hnil]
  rfl

end

/-! The group after its instruction (R73, R80). -/

/-- Reconvergence moves a group, and changes which of its lanes run; its registers stay. -/
theorem settle_keeps {α : Type} (f : Group → α) (hf : ∀ x pc active stack, f { x with pc := pc, active := active, stack := stack } = f x) (n : Nat) (x : Group) :
    f (Group.settle n x) = f x := by
  induction n generalizing x with
  | zero => rfl
  | succ n ih =>
    unfold Group.settle
    split
    · rfl
    · split
      · exact (ih _).trans (hf x _ _ _)
      · rfl
    · split
      · exact (ih _).trans (hf x _ _ _)
      · rfl

theorem goto_keeps {α : Type} (f : Group → α) (hf : ∀ x pc active stack, f { x with pc := pc, active := active, stack := stack } = f x) (x : Group) (pc : Nat) :
    f (x.goto pc) = f x := (settle_keeps f hf _ _).trans (hf x _ _ _)

theorem kept_next (x : Group) : Kept [] [] [] x x.next :=
  ⟨fun l i _ _ => goto_keeps (·.vr l i) (fun _ _ _ _ => rfl) x _, fun i _ => goto_keeps (·.ur i) (fun _ _ _ _ => rfl) x _,
    fun l i _ => goto_keeps (·.pr l i) (fun _ _ _ _ => rfl) x _⟩

theorem goesOn_next (x : Group) : GoesOn x x.next := ⟨rfl, rfl, rfl, goto_keeps (·.exited) (fun _ _ _ _ => rfl) x _⟩

/-! Acceptance into the queue (R166, R167). -/

section
variable (u : State) (g : GRef) (c : Ctx)

theorem issued_mx (p : Nat) : (u.issued g c).mx p = u.mx p := by
  unfold State.issued
  rw [mx_pmEvent, mx_modLaunch]
  exact mx_of_bare (bare_modCore rfl p)

theorem issued_art (p : Nat) : ((u.issued g c).core p).art = (u.core p).art := by
  unfold State.issued
  rw [(chg_pmEvent _ _ _ _ _).1.core_eq (by decide), core_modLaunch]
  exact art_of_bare (bare_modCore rfl p)

theorem issued_onlyCounters (hg : okGroup g = true) : OnlyCounters u (u.issued g c) := by
  unfold okGroup at hg
  simp only [Bool.and_eq_true] at hg
  have hregs := ((chg_modCore u g.core fun x => x.setSched g.sched { x.sched g.sched with last := g.slot }).1.regs_eq (by decide))
  exact ((OnlyCounters.of_regs hregs).trans (.of_regs ((chg_modLaunch _ _ _).1.regs_eq (by decide)))).trans (onlyCounters_pmEvent _ _ _ _ hg.1.1)

variable (w : Word64) (op : MxOp)

/-- The place in the queue that an instruction takes. -/
def mxEntry : MxEntry := { op := op, guid := c.gr.uid, site := c.site g w }

theorem accept_mx : ∃ array reader, (u.accept g c w op).mx g.core =
    { u.mx g.core with queue := (u.mx g.core).queue ++ [mxEntry g c w op], array := array, reader := reader } := by
  refine ⟨(u.mx g.core).array.filter fun x => !(x.handles.any op.writes.contains),
    (u.mx g.core).reader.filter fun x => !(x.handles.any (op.reads ++ op.writes).contains), ?_⟩
  unfold State.accept
  rw [mx_modMx, State.retire, mx_setGroup, issued_mx]
  rfl

theorem accept_group : (u.accept g c w op).group? g = some c.gr.next := by
  unfold State.accept
  rw [group_modMx, State.retire, State.group_setGroup_self]

theorem accept_onlyCounters (hg : okGroup g = true) : OnlyCounters u (u.accept g c w op) :=
  (issued_onlyCounters u g c hg).trans (.of_regs ((chg_retire _ _ _).1.trans (chg_modMx _ _ _).1 |>.regs_eq (by decide)))

theorem accept_art : ((u.accept g c w op).core g.core).art = (u.core g.core).art := by
  unfold State.accept
  rw [core_modMx, State.retire]
  exact (art_of_bare (bare_setGroup _ g _ _)).trans (issued_art u g c _)

end

end Sys2Proof.Machine
end

section
namespace Sys2Proof.Machine

/-! mx.nest (R161, R180, R188 to R190): its checks, and its place in the queue. -/

theorem overlaps_mono {a b n n' m m' : Nat} (hn : n ≤ n') (hm : m ≤ m') (h : overlaps a n b m = true) : overlaps a n' b m' = true := by
  unfold overlaps at h ⊢
  rw [decide_eq_true_iff] at h ⊢
  omega

/-- What touches the first bytes of a table touches the table (R180). -/
theorem tableBusy_mono {s : State} {g : GRef} {uid slot off n m : Nat} (hn : n ≤ m) (h : s.tableBusy g uid slot off n = true) :
    s.tableBusy g uid slot off m = true := by
  unfold State.tableBusy Core.trackHit spansHit at h ⊢
  simp only [Bool.or_eq_true, List.any_eq_true, Bool.and_eq_true, List.mem_singleton, exists_eq_left] at h ⊢
  refine h.imp (fun ⟨e, he, hheld, y, hy, hover⟩ => ⟨e, he, hheld, y, hy, overlaps_mono hn le_rfl hover⟩)
    fun ⟨e, he, hkind, l, hl, hplace, hover⟩ => ⟨e, he, hkind, l, hl, hplace, overlaps_mono le_rfl hn hover⟩

section
variable {s u : State} {g : GRef} {w : Word64} {c : Ctx} {off size : Nat}

/-- Where an mx.nest's table stands, and its size (R180). -/
def tabOff (c : Ctx) (w : Word64) : Nat := c.gr.rd 0 true (fD w) 1
def tabSize (c : Ctx) (w : Word64) : Nat := 64 + 32 * ((c.blk.byte (tabOff c w)).toNat % 8)

/-- The table may be read (R180, R239). -/
def TableRead (u : State) (g : GRef) (c : Ctx) (w : Word64) : Prop :=
  u.accessWait g c.gr.uid w false = none ∧ tabOff c w % 32 = 0 ∧ tabOff c w + tabSize c w ≤ c.blk.lsBytes ∧
  u.tableBusy g c.gr.uid c.gr.block (tabOff c w) (tabSize c w) = false

/-- Neither the access nor the table's place or bytes hold an mx.nest up (R180). -/
theorem tableRead_goesOn (h : TableRead u g c w) (k : State → State) :
    (u.access g c w false fun t => t.orRaise g c w (c.causesAt (tabOff c w) [(exMisaligned, tabOff c w % 32 != 0), (exSpace, decide (c.blk.lsBytes < tabOff c w + 64))]) fun u =>
      if u.tableBusy g c.gr.uid c.gr.block (tabOff c w) 64 then u
      else u.orRaise g c w (c.causesAt (tabOff c w) [(exSpace, decide (c.blk.lsBytes < tabOff c w + tabSize c w))]) fun u =>
        if u.tableBusy g c.gr.uid c.gr.block (tabOff c w) (tabSize c w) then u else k u) = k u := by
  obtain ⟨haccess, halign, hfits, hidle⟩ := h
  have hsize : 64 ≤ tabSize c w := Nat.le_add_right _ _
  have hidle64 : ¬u.tableBusy g c.gr.uid c.gr.block (tabOff c w) 64 = true := fun h => by
    rw [tableBusy_mono hsize h] at hidle
    cases hidle
  rw [access_eq haccess, orRaise_none, if_neg hidle64, orRaise_none, if_neg (Bool.eq_false_iff.1 hidle)]
  · simpa using hfits
  · simp [halign]
    omega

/-- The bytes of the table. -/
def tabBytesOf (c : Ctx) (w : Word64) : List Byte := c.blk.bytes (tabOff c w) (tabSize c w)

theorem rowMxNest_refused {k : Nat} (h : Issues s g w c u) (hown : MxOwn u g c) (hread : TableRead u g c w)
    (hcheck : (u.mx g.core).nestCheck (tabBytesOf c w) c.blk.lsBytes = some k) :
    s.rowMxNest g w = u.raise g c.lid c.la.part c.gr.pc w { cause := exMxNest, lane := c.gr.low, addr := tabOff c w + k * 2 ^ 32 } := by
  unfold State.rowMxNest
  rw [h.mxIssue_eq hown]
  refine (tableRead_goesOn hread _).trans ?_
  unfold tabBytesOf tabSize tabOff at hcheck
  simp only [hcheck]
  rfl

/-- The unit knows the format of the image that a nest will have loaded (R168). -/
def Mx.willHold (x : Mx) (h : Nat) : Mx := { x with accStat := (tfind x.handles h).map fun k => (k.fmt, k.scaled) }

/-- The handles that a nest uses are ready (R168). -/
theorem ready_of_resident {x : Mx} {a b : Nat} {uses : List Nat} (ha : x.resident a = true) (hb : x.resident b = true) (huses : ∀ i ∈ uses, x.unused i = true) :
    x.ready [a, b] uses = true := by
  unfold Mx.ready
  simp only [List.all_cons, ha, hb, List.all_nil, Bool.and_true, Bool.true_and, List.all_eq_true]
  exact huses

/-- What an mx.nest of the table `n` uses beside the images that it reads (R168, R189). -/
def NestTab.uses (n : NestTab) : List Nat := if n.hdr.drain && n.hdr.dst == 2 then [n.hdr.hc] else []

/-- Does nest `n` drain to memory (R179, R189)? -/
def NestTab.toMem (n : NestTab) : Bool := n.hdr.drain && n.hdr.dst != 2

theorem rowMxNest_queued {n : NestTab} (h : Issues s g w c u) (hown : MxOwn u g c) (hread : TableRead u g c w) (hn : n = nestTab (tabBytesOf c w))
    (hcheck : (u.mx g.core).nestCheck (tabBytesOf c w) c.blk.lsBytes = none) (hready : (u.mx g.core).ready [n.hdr.ha, n.hdr.hb] n.uses = true)
    (hmem : n.toMem = false) : s.rowMxNest g w = (u.accept g c w (.nest n none)).modMx g.core (·.willHold n.hdr.hb) := by
  subst hn
  unfold State.rowMxNest
  rw [h.mxIssue_eq hown]
  refine (tableRead_goesOn hread _).trans ?_
  unfold NestTab.toMem tabBytesOf tabSize tabOff at hmem
  unfold NestTab.uses tabBytesOf tabSize tabOff at hready
  unfold tabBytesOf tabSize tabOff at hcheck ⊢
  simp only [hcheck]
  refine (orRaise_none _ (by simp [hmem])).trans ?_
  simp only [hmem, hready, Bool.not_true, Bool.not_false, Bool.false_and, Bool.or_false, Bool.false_eq_true, if_true, if_false]
  rfl

theorem spansVa_core (s : State) (p part : Nat) (acc : TAcc) (fuel va n q : Nat) : (s.spansVa p part acc fuel va n).2.core q = s.core q :=
  (chg_spansVa s p part acc fuel va n).1.core_eq (by decide) q

/-- The bytes that nest `n` will write, where they lie, and the state in which that has been found (R179, R189). -/
def DrainsTo (u : State) (g : GRef) (c : Ctx) (n : NestTab) (sp : List (Nat × Nat)) (v : State) : Prop :=
  (n.hdr.dst = 1 ∧ sp = [(localKey c.gr.block (n.drainSpan 0).1.toNat, ((n.drainSpan 0).2 - (n.drainSpan 0).1).toNat)] ∧ v = u) ∨
  (n.hdr.dst = 0 ∧ c.la.covers (n.drainSpan 0).1 (n.drainSpan 0).2 = true ∧
    u.spansVa g.core c.la.part .write (((n.drainSpan 0).2 - (n.drainSpan 0).1).toNat / 4096 + 2) (n.drainSpan 0).1.toNat ((n.drainSpan 0).2 - (n.drainSpan 0).1).toNat = (sp, v))

theorem DrainsTo.spans_eq {n : NestTab} {sp : List (Nat × Nat)} {v : State} (h : DrainsTo u g c n sp v) :
    (if n.hdr.dst = 1 then ([(localKey c.gr.block (n.drainSpan 0).1.toNat, ((n.drainSpan 0).2 - (n.drainSpan 0).1).toNat)], u)
      else u.spansVa g.core c.la.part .write (((n.drainSpan 0).2 - (n.drainSpan 0).1).toNat / 4096 + 2) (n.drainSpan 0).1.toNat ((n.drainSpan 0).2 - (n.drainSpan 0).1).toNat) = (sp, v) := by
  rcases h with ⟨hdst, rfl, rfl⟩ | ⟨hdst, _, hspans⟩
  · exact if_pos hdst
  · rw [hdst]
    exact hspans

theorem DrainsTo.dst_ne {n : NestTab} {sp : List (Nat × Nat)} {v : State} (h : DrainsTo u g c n sp v) : (n.hdr.dst == 2) = false := by
  rcases h with ⟨hdst, _⟩ | ⟨hdst, _⟩ <;> rw [hdst] <;> rfl

theorem DrainsTo.covered {n : NestTab} {sp : List (Nat × Nat)} {v : State} (h : DrainsTo u g c n sp v) :
    (n.hdr.dst == 0 && !c.la.covers (n.drainSpan 0).1 (n.drainSpan 0).2) = false := by
  rcases h with ⟨hdst, _⟩ | ⟨_, hcov, _⟩
  · rw [hdst]
    rfl
  · rw [hcov]
    exact Bool.and_false _

theorem DrainsTo.touches {n : NestTab} {sp : List (Nat × Nat)} {v : State} (h : DrainsTo u g c n sp v) : Touches [.free, .parts] u v := by
  rcases h with ⟨_, _, rfl⟩ | ⟨_, _, hspans⟩
  · exact .refl _ _
  · exact ((chg_spansVa u _ _ _ _ _ _).snd hspans).1

/-- The tracker entry of a nest's drains. -/
def nestTrack (c : Ctx) (sp : List (Nat × Nat)) : Track := { guid := c.gr.uid, launch := c.lid, run := c.gr.run, part := c.la.part, isWrite := true, spans := sp }

theorem rowMxNest_tracked {n : NestTab} {sp : List (Nat × Nat)} {v : State} (h : Issues s g w c u) (hown : MxOwn u g c) (hread : TableRead u g c w)
    (hn : n = nestTab (tabBytesOf c w)) (hcheck : (u.mx g.core).nestCheck (tabBytesOf c w) c.blk.lsBytes = none)
    (hready : (u.mx g.core).ready [n.hdr.ha, n.hdr.hb] [] = true) (hdrain : n.hdr.drain = true) (hto : DrainsTo u g c n sp v)
    (hsbuf : v.sbufHit g c.gr.uid sp = false) (hfull : (v.core g.core).trackFull = false) (hhit : (v.core g.core).trackHit true sp = false) :
    s.rowMxNest g w = ((v.track g.core (nestTrack c sp)).2.accept g c w (.nest n (some (v.core g.core).nextId))).modMx g.core (·.willHold n.hdr.hb) := by
  have hspans := hto.spans_eq
  have hdst := hto.dst_ne
  have hcov := hto.covered
  subst hn
  unfold State.rowMxNest
  rw [h.mxIssue_eq hown]
  refine (tableRead_goesOn hread _).trans ?_
  unfold tabBytesOf tabSize tabOff at *
  simp only [hcheck]
  refine (orRaise_none _ (fun x hx => by rw [List.mem_singleton.1 hx]; simp only [Bool.and_assoc, hcov, Bool.and_false])).trans ?_
  simp only [hdrain, hdst, hspans, bne, Bool.not_true, Bool.not_false, Bool.true_and, Bool.and_false, if_true, Bool.false_eq_true, if_false, hready, hsbuf, hfull, hhit, Bool.or_false]
  rfl

end

end Sys2Proof.Machine
end

section
namespace Sys2Proof.Machine

/-! What an accepted mx.nest leaves (R161, R168), and one whose table breaks a check (R180). -/

section
variable {s u t : State} {g : GRef} {w : Word64} {c : Ctx} {lid : Nat}

theorem OnlyCounters.modMx (h : OnlyCounters u t) (p : Nat) (f : Mx → Mx) : OnlyCounters u (t.modMx p f) := h.trans (.of_regs ((chg_modMx t p f).1.regs_eq (by decide)))

/-- What is said of an accepted instruction is not about the scheduler that the unit granted. -/
theorem accepted_grant {op : MxOp} (h : Accepted g c u t op) (k : Nat) : Accepted g c u (t.modMx g.core (·.grant k)) op := by
  obtain ⟨⟨x, hx, hgroup⟩, hcount, e, st, hop, hguid, hunit⟩ := h
  refine ⟨⟨x, (group_modMx ..).trans hx, hgroup⟩, hcount.modMx _ _, e, st, hop, hguid, ?_⟩
  rw [mx_modMx]
  exact hunit

theorem acceptedTracked_grant {sp : List (Nat × Nat)} {op : Nat → MxOp} (h : AcceptedTracked g c u t sp op) (k : Nat) :
    AcceptedTracked g c u (t.modMx g.core (·.grant k)) sp op := by
  obtain ⟨⟨x, hx, hgroup⟩, hcount, id, y, hqueue, hart, hwrites, hspans⟩ := h
  refine ⟨⟨x, (group_modMx ..).trans hx, hgroup⟩, hcount.modMx _ _, id, y, ?_, ?_, hwrites, hspans⟩
  · rw [mx_modMx]
    exact hqueue
  · rw [core_modMx]
    exact hart

/-- The group of a nest that takes its place in the queue goes on. -/
theorem groupAt_queued (u : State) (g : GRef) (c : Ctx) (w : Word64) (op : MxOp) (f : Mx → Mx) :
    GroupAt g ((u.accept g c w op).modMx g.core f) fun x => Kept [] [] [] c.gr x ∧ GoesOn c.gr x :=
  ⟨_, (group_modMx ..).trans (accept_group ..), kept_next _, goesOn_next _⟩

theorem accepted_queued (u : State) (c : Ctx) (w : Word64) (op : MxOp) (b : Nat) (hg : okGroup g = true) :
    Accepted g c u ((u.accept g c w op).modMx g.core (·.willHold b)) op := by
  obtain ⟨array, reader, hmx⟩ := accept_mx u g c w op
  refine ⟨groupAt_queued .., (accept_onlyCounters u g c w op hg).modMx _ _, mxEntry g c w op, ((u.mx g.core).willHold b).accStat, rfl, rfl, ?_⟩
  rw [mx_modMx, hmx]
  rfl

theorem accStat_queued {b : Nat} {k : Handle} (op : MxOp) (hk : tfind (u.mx g.core).handles b = some k) :
    (((u.accept g c w op).modMx g.core (·.willHold b)).mx g.core).accStat = some (k.fmt, k.scaled) := by
  obtain ⟨array, reader, hmx⟩ := accept_mx u g c w op
  rw [mx_modMx, hmx]
  exact congrArg (Option.map _) hk

theorem touches_queued (u : State) (g : GRef) (c : Ctx) (w : Word64) (op : MxOp) (b : Nat) :
    Touches [.regs, .cores, .launches] u ((u.accept g c w op).modMx g.core (·.willHold b)) :=
  (chg_accept u g c w op).1.trans ((chg_modMx _ g.core _).1.mono (subF_of rfl))

theorem mx_track (v : State) (p : Nat) (x : Track) : (v.track p x).2.mx p = v.mx p := by
  unfold State.track State.mx
  rw [State.core_modCore_self]

theorem art_track (v : State) (p : Nat) (x : Track) : tfind ((v.track p x).2.core p).art (v.core p).nextId = some x := by
  unfold State.track
  rw [State.core_modCore_self]
  exact tfind_tset_self _ _ _

theorem acceptedTracked_queued (v : State) (c : Ctx) (w : Word64) (sp : List (Nat × Nat)) (n : NestTab) (b : Nat) (hg : okGroup g = true) :
    AcceptedTracked g c v (((v.track g.core (nestTrack c sp)).2.accept g c w (.nest n (some (v.core g.core).nextId))).modMx g.core (·.willHold b)) sp
      fun id => .nest n (some id) := by
  obtain ⟨array, reader, hmx⟩ := accept_mx (v.track g.core (nestTrack c sp)).2 g c w (.nest n (some (v.core g.core).nextId))
  have htrack : OnlyCounters v (v.track g.core (nestTrack c sp)).2 := .of_regs ((chg_track v g.core _).1.regs_eq (by decide))
  refine ⟨groupAt_queued .., (htrack.trans (accept_onlyCounters _ g c w _ hg)).modMx _ _, (v.core g.core).nextId, nestTrack c sp, ?_, ?_, rfl, rfl⟩
  · rw [mx_modMx, hmx, mx_track]
    exact List.map_append ..
  · rw [core_modMx, accept_art]
    exact art_track ..

theorem touches_queued_tracked (v : State) (g : GRef) (c : Ctx) (w : Word64) (x : Track) (op : MxOp) (b : Nat) :
    Touches [.regs, .cores, .launches] v (((v.track g.core x).2.accept g c w op).modMx g.core (·.willHold b)) :=
  ((chg_track v g.core x).1.mono (subF_of rfl)).trans (touches_queued ..)

/-! A table that breaks a check (R137, R180). -/

/-- What a raised exception leaves of the group: it has stopped where it is (R137). -/
theorem groupAt_raise {gr : Group} (hgr : u.group? g = some gr) (lid part pc : Nat) (w : Word64) (e : Exc) :
    GroupAt g (u.raise g lid part pc w e) fun x => x = { gr with stopped := true } := by
  have h : ((u.recordExc g.core g.sched g.slot e pc w part).failLaunch lid (u.mkFail e.status g.core e.given)).group? g = some gr :=
    (group_modLaunch ..).trans ((group_of_core ((chg_recordExc ..).1.core_eq (by decide) _)).trans hgr)
  refine ⟨_, ?_, rfl⟩
  unfold State.raise State.modGroup
  rw [h]
  exact State.group_setGroup_self ..

/-- A launch that runs and has not failed takes the failure that its group's exception gives it (R22, R137). -/
theorem fail_raise {la : Launch} (hla : u.launch? lid = some la) (hphase : la.phase = .running) (hfail : la.fail = none) (part pc : Nat) (w : Word64) (e : Exc) :
    (u.raise g lid part pc w e).launch? lid = some { la with fail := some (u.mkFail e.status g.core e.given) } := by
  have hrun : la.committing = false := by unfold Launch.committing; rw [hphase]
  unfold State.raise
  rw [(chg_modGroup ..).1.launch_eq (by decide)]
  unfold State.failLaunch
  rw [launch_modLaunch_self (((chg_recordExc ..).1.launch_eq (by decide) lid).trans hla), hrun]
  unfold Launch.addFail
  rw [hfail]
  rfl

end

end Sys2Proof.Machine
end

section
namespace Sys2Proof.Machine

/-! mx.nest completes (R161, R180, R189). -/

section
variable {s u : State} {g : GRef} {w : Word64} {c : Ctx} {n : NestTab}

/-- A nest whose table keeps the checks, and whose operands are resident (R180, R189, R190). -/
structure NestReads (u : State) (g : GRef) (c : Ctx) (w : Word64) (n : NestTab) : Prop where
  read : TableRead u g c w
  table : n = nestTab (tabBytesOf c w)
  check : (u.mx g.core).nestCheck (tabBytesOf c w) c.blk.lsBytes = none
  ha : (u.mx g.core).resident n.hdr.ha = true
  hb : (u.mx g.core).resident n.hdr.hb = true

theorem nestReads_of_ok (h : NestTabOk u g c w n) : NestReads u g c w n := by
  obtain ⟨_, _, rfl, rfl, haccess, halign, hfits, hidle, htable, hcheck, ha, hb⟩ := h
  exact ⟨⟨haccess, halign, hfits, hidle⟩, htable, hcheck, ha, hb⟩

theorem NestReads.ready {uses : List Nat} (h : NestReads u g c w n) (huses : ∀ i ∈ uses, (u.mx g.core).unused i = true) :
    (u.mx g.core).ready [n.hdr.ha, n.hdr.hb] uses = true := ready_of_resident h.ha h.hb huses

theorem nest_queued (h : Issues s g w c u) (hrow : rowOf w = .mxNest) (hown : MxOwn u g c) (hn : NestReads u g c w n) (hmem : n.toMem = false)
    (huses : ∀ i ∈ n.uses, (u.mx g.core).unused i = true) :
    Goes (.mxNest g w) s u [.regs, .cores, .launches] fun t => Accepted g c u t (.nest n none) ∧
      ∀ k, tfind (u.mx g.core).handles n.hdr.hb = some k → (t.mx g.core).accStat = some (k.fmt, k.scaled) := by
  have ⟨hg, _⟩ := h
  have hresult := rowMxNest_queued h hown hn.read hn.table hn.check (hn.ready huses) hmem
  refine h.goes (row := fun t => t.rowMxNest g w) hrow rfl (subF_of rfl) (hresult ▸ touches_queued ..)
    (hresult ▸ ⟨accepted_queued u c w _ _ hg, fun k hk => accStat_queued _ hk⟩) fun t ⟨haccepted, hstat⟩ => ⟨accepted_grant haccepted _, fun k hk => ?_⟩
  rw [mx_modMx]
  exact hstat k hk

theorem nest_tracked {sp : List (Nat × Nat)} {v : State} (h : Issues s g w c u) (hrow : rowOf w = .mxNest) (hown : MxOwn u g c) (hn : NestReads u g c w n)
    (hdrain : n.hdr.drain = true) (hto : DrainsTo u g c n sp v) (hsbuf : v.sbufHit g c.gr.uid sp = false)
    (hfull : (v.core g.core).trackFull = false) (hhit : (v.core g.core).trackHit true sp = false) :
    Goes (.mxNest g w) s u coreSide fun t => AcceptedTracked g c v t sp fun id => .nest n (some id) := by
  have ⟨hg, _⟩ := h
  have hresult := rowMxNest_tracked h hown hn.read hn.table hn.check (hn.ready (by simp)) hdrain hto hsbuf hfull hhit
  exact h.goes (row := fun t => t.rowMxNest g w) hrow rfl (subF_of rfl)
    (hresult ▸ (hto.touches.mono (subF_of rfl)).trans ((touches_queued_tracked ..).mono (subF_of rfl)))
    (hresult ▸ acceptedTracked_queued v c w sp n _ hg) fun t ht => acceptedTracked_grant ht _

/-- A table that breaks check `k` (R180). -/
theorem nest_refused {k : Nat} (h : Issues s g w c u) (hrow : rowOf w = .mxNest) (hown : MxOwn u g c) (hread : TableRead u g c w)
    (hcheck : (u.mx g.core).nestCheck (tabBytesOf c w) c.blk.lsBytes = some k) :
    Goes (.mxNest g w) s u [.regs, .cores, .launches] fun t => GroupAt g t (fun x => x = { c.gr with stopped := true }) ∧
      ∃ l f, t.launch? c.lid = some l ∧ l.fail = some f ∧ f.status = 3 ∧ f.cause = 0x25 := by
  have hresult := rowMxNest_refused h hown hread hcheck
  have ⟨_, hctx, _⟩ := h
  obtain ⟨_, _, _, _, hphase, hfail⟩ := issueCtx_eq_some hctx
  refine h.goes (row := fun t => t.rowMxNest g w) hrow rfl (subF_of rfl) (hresult ▸ (chg_raise ..).1)
    (hresult ▸ ⟨groupAt_raise h.group_eq _ _ _ _ _, _, _, fail_raise h.launch_eq hphase hfail _ _ _ _, rfl, rfl, rfl⟩)
    fun t ⟨⟨x, hx, hgroup⟩, l, f, hl, hf⟩ => ⟨⟨x, (group_modMx ..).trans hx, hgroup⟩, l, f, ((chg_modMx ..).1.launch_eq (by decide) _).trans hl, hf⟩

end

/-! O25. -/

/-- Settles O25: an mx.nest goes through its checks to its place in the queue or to the exception, and a nest's next operation is that of the stream with the earlier beat. -/
theorem nestsWalkTheirTable : Obligations.NestsWalkTheirTable := by
  refine ⟨?_, ?_, ?_, ?_, ?_, ?_, ?_, ?_, fun s p n => nest_ends⟩
  · intro s g w c u n ka kb h hrow hown haccess halign hfits hidle htable hcheck hdrain ha hb _ hk
    have hn : NestReads u g c w n := ⟨⟨haccess, halign, by rwa [Nat.add_assoc] at hfits, hidle⟩, htable, hcheck, ha, hb⟩
    have hmem : n.toMem = false := by rw [NestTab.toMem, hdrain, Bool.false_and]
    have huses : n.uses = [] := by rw [NestTab.uses, hdrain, Bool.false_and]; rfl
    obtain ⟨t, hgo, htouch, haccepted, hstat⟩ := nest_queued h hrow hown hn hmem (by simp [huses])
    exact ⟨t, hgo, htouch, haccepted, hstat kb hk⟩
  · intro s g w c u n h hrow hown hok hdrain hdst hc
    have hmem : n.toMem = false := by rw [NestTab.toMem, hdrain, hdst]; rfl
    have huses : n.uses = [n.hdr.hc] := by rw [NestTab.uses, hdrain, hdst]; rfl
    obtain ⟨t, hgo, htouch, haccepted, _⟩ := nest_queued h hrow hown (nestReads_of_ok hok) hmem (by simp [huses, hc])
    exact ⟨t, hgo, htouch, haccepted⟩
  · intro s g w c u v n lo hi sp h hrow hown hok hdrain hspan hto
    obtain ⟨rfl, rfl⟩ : (n.drainSpan 0).1 = lo ∧ (n.drainSpan 0).2 = hi := by rw [hspan]; exact ⟨rfl, rfl⟩
    exact nest_tracked h hrow hown (nestReads_of_ok hok) hdrain hto
  · intro s g w c u k h hrow hown haccess halign hfits hidle hcheck
    exact nest_refused h hrow hown ⟨haccess, halign, by rwa [Nat.add_assoc] at hfits, hidle⟩ hcheck
  · intro s p slot b la n q k hp hnest howner hblock hlaunch hfail hhung
    exact nest_loads ⟨hp, hnest, howner, hblock, hlaunch, hfail, hhung⟩
  · intro s p slot b la n q f hp hnest howner hblock hlaunch hfail hhung
    exact nest_clears ⟨hp, hnest, howner, hblock, hlaunch, hfail, hhung⟩
  · intro s p slot b la n q f hp hnest howner hblock hlaunch hfail hhung
    exact nest_multiplies ⟨hp, hnest, howner, hblock, hlaunch, hfail, hhung⟩
  · intro s p slot b la n d f hp hnest howner hblock hlaunch hfail hhung
    exact nest_drains ⟨hp, hnest, howner, hblock, hlaunch, hfail, hhung⟩

end Sys2Proof.Machine
end

section
namespace Sys2Proof.Machine

/-! A group's registers and predicates after a write (R71, R80). -/

theorem vr_setV (x : Group) {l m : Nat} (hl : l < 32) (hm : m < 32) (i j : Nat) (v : Word) :
    (x.setV l i v).vr m j = if m = l ∧ j = i ∧ i ≠ 255 then v else x.vr m j := by
  by_cases hi : i = 255
  · rw [if_neg fun h => h.2.2 hi, Group.setV, if_pos hi]
  unfold Group.setV Group.vr
  rw [if_neg hi]
  by_cases hj : j = 255
  · rw [if_pos hj, if_pos hj, if_neg (by omega)]
  rw [if_neg hj, if_neg hj]
  by_cases hsame : m = l ∧ j = i
  · rw [if_pos ⟨hsame.1, hsame.2, hi⟩, hsame.1, hsame.2]
    exact tget_tput_self _ _ _ _
  · rw [if_neg (by tauto)]
    exact tget_tput_ne _ _ _ (by omega) _

theorem ur_setU (x : Group) (i j : Nat) (v : Word) : (x.setU i v).ur j = if j = i ∧ i ≠ 255 then v else x.ur j := by
  split
  · next h => rw [h.1, ur_setU_self x v h.2]
  · next h =>
    by_cases hj : j = i
    · unfold Group.setU
      rw [if_pos (not_not.1 fun hi => h ⟨hj, hi⟩)]
    · exact (kept_setU x i v).2.1 j (by simpa using hj)

theorem getLsbD_setBit (m : Word) {l : Nat} (hl : l < 32) (b : Bool) (k : Nat) :
    (if b then m ||| 1#32 <<< l else m &&& ~~~(1#32 <<< l)).getLsbD k = if k = l then b else m.getLsbD k := by
  have hbit : (1#32 <<< l).getLsbD k = decide (k = l) := by
    rw [BitVec.getLsbD_shiftLeft, BitVec.getLsbD_one]
    by_cases hk : k = l
    · simp [hk, hl]
    · simp only [hk, decide_false]
      by_cases hlt : k < l
      · simp [hlt]
      · simp; omega
  cases b with
  | true =>
    rw [if_pos rfl, BitVec.getLsbD_or, hbit]
    by_cases hk : k = l <;> simp only [hk, decide_true, decide_false, Bool.or_true, Bool.or_false, if_true, if_false]
  | false =>
    rw [if_neg Bool.false_ne_true, BitVec.getLsbD_and, BitVec.getLsbD_not, hbit]
    by_cases hk : k = l
    · simp only [hk, decide_true, Bool.not_true, Bool.and_false, if_true]
    · by_cases hk32 : k < 32
      · simp only [hk, hk32, decide_true, decide_false, Bool.not_false, Bool.and_true, if_false]
      · simp only [hk, BitVec.getLsbD_of_ge _ _ (Nat.not_lt.1 hk32), Bool.false_and, if_false]

theorem pr_setP (x : Group) {l : Nat} (hl : l < 32) (i m j : Nat) (b : Bool) :
    (x.setP l i b).pr m j = if m = l ∧ j = i ∧ i ≠ 255 then b else x.pr m j := by
  by_cases hi : i = 255
  · rw [if_neg fun h => h.2.2 hi, Group.setP, if_pos hi]
  unfold Group.setP Group.pr
  rw [if_neg hi]
  by_cases hj : j = i
  · rw [hj]
    dsimp only
    rw [tget_tput_self, getLsbD_setBit _ hl]
    simp [hi]
  · rw [if_neg (by tauto)]
    exact congrArg (BitVec.getLsbD · m) (tget_tput_ne _ _ _ hj _)

@[simp] theorem ur_setV (x : Group) (l i j : Nat) (v : Word) : (x.setV l i v).ur j = x.ur j := by
  unfold Group.setV
  split <;> rfl

@[simp] theorem pr_setV (x : Group) (l i m j : Nat) (v : Word) : (x.setV l i v).pr m j = x.pr m j := by
  unfold Group.setV
  split <;> rfl

@[simp] theorem vr_setU (x : Group) (i m j : Nat) (v : Word) : (x.setU i v).vr m j = x.vr m j := by
  unfold Group.setU
  split <;> rfl

@[simp] theorem pr_setU (x : Group) (i m j : Nat) (v : Word) : (x.setU i v).pr m j = x.pr m j := by
  unfold Group.setU
  split <;> rfl

@[simp] theorem vr_setP (x : Group) (l i m j : Nat) (b : Bool) : (x.setP l i b).vr m j = x.vr m j := by
  unfold Group.setP
  split <;> rfl

@[simp] theorem ur_setP (x : Group) (l i j : Nat) (b : Bool) : (x.setP l i b).ur j = x.ur j := by
  unfold Group.setP
  split <;> rfl

/-! What an instruction leaves of a group (R73, R80). -/

/-- All of a group but its registers, its predicates and its flags. -/
def Group.frame (x : Group) : Group := { x with vregs := [], uregs := [], preds := [], fpstat := 0 }

theorem frame_setV (x : Group) (l i : Nat) (v : Word) : (x.setV l i v).frame = x.frame := by
  unfold Group.setV
  split <;> rfl

theorem frame_setU (x : Group) (i : Nat) (v : Word) : (x.setU i v).frame = x.frame := by
  unfold Group.setU
  split <;> rfl

theorem frame_setP (x : Group) (l i : Nat) (b : Bool) : (x.setP l i b).frame = x.frame := by
  unfold Group.setP
  split <;> rfl

theorem fpstat_setV (x : Group) (l i : Nat) (v : Word) : (x.setV l i v).fpstat = x.fpstat := by
  unfold Group.setV
  split <;> rfl

theorem fpstat_setU (x : Group) (i : Nat) (v : Word) : (x.setU i v).fpstat = x.fpstat := by
  unfold Group.setU
  split <;> rfl

theorem fpstat_setP (x : Group) (l i : Nat) (b : Bool) : (x.setP l i b).fpstat = x.fpstat := by
  unfold Group.setP
  split <;> rfl

/-- Reconvergence looks at nothing but where a group stands, its running lanes and its stack. -/
theorem settle_frame (n : Nat) (x : Group) : (Group.settle n x).frame = Group.settle n x.frame := by
  induction n generalizing x with
  | zero => rfl
  | succ n ih =>
    have hstack : x.frame.stack = x.stack := rfl
    unfold Group.settle
    rw [hstack]
    cases x.stack with
    | nil => rfl
    | cons f rest =>
      cases f with
      | entry rc tk m =>
        show Group.frame (if x.pc = rc ∨ x.active = 0 then _ else _) = if x.pc = rc ∨ x.active = 0 then _ else _
        split
        · exact ih _
        · rfl
      | join rc m =>
        show Group.frame (if x.pc = rc ∨ x.active = 0 then _ else _) = if x.pc = rc ∨ x.active = 0 then _ else _
        split
        · exact ih _
        · rfl

theorem goto_frame (x : Group) (pc : Nat) : (x.goto pc).frame = x.frame.goto pc := settle_frame _ _

theorem GoesOn.of_frame {a b : Group} (h : b.frame = (a.goto (a.pc + 8)).frame) : GoesOn a b := by
  refine ⟨(congrArg Group.pc h :), (congrArg Group.active h :), (congrArg Group.stack h :), (congrArg Group.exited h :).trans ?_⟩
  exact goto_keeps (·.exited) (fun _ _ _ _ => rfl) a _

/-- A group whose registers alone an instruction writes goes on at the next word. -/
theorem goesOn_next_of_frame {a b : Group} (h : b.frame = a.frame) : GoesOn a b.next := by
  refine GoesOn.of_frame ?_
  have hpc : b.pc = a.pc := (congrArg Group.pc h :)
  unfold Group.next
  rw [goto_frame, goto_frame, h, hpc]

theorem fpstat_next (x : Group) : x.next.fpstat = x.fpstat := goto_keeps (·.fpstat) (fun _ _ _ _ => rfl) x _

section
variable {vs us ps vs' us' ps' : List Nat} {a b c : Group}

theorem Kept.refl (vs us ps : List Nat) (a : Group) : Kept vs us ps a a := ⟨fun _ _ _ _ => rfl, fun _ _ => rfl, fun _ _ _ => rfl⟩

theorem Kept.trans (h : Kept vs us ps a b) (k : Kept vs us ps b c) : Kept vs us ps a c :=
  ⟨fun l i hl hi => (k.1 l i hl hi).trans (h.1 l i hl hi), fun i hi => (k.2.1 i hi).trans (h.2.1 i hi), fun l i hi => (k.2.2 l i hi).trans (h.2.2 l i hi)⟩

theorem Kept.mono (hv : vs ⊆ vs') (hu : us ⊆ us') (hp : ps ⊆ ps') (h : Kept vs us ps a b) : Kept vs' us' ps' a b :=
  ⟨fun l i hl hi => h.1 l i hl fun k => hi (hv k), fun i hi => h.2.1 i fun k => hi (hu k), fun l i hi => h.2.2 l i fun k => hi (hp k)⟩

theorem Kept.next (h : Kept vs us ps a b) : Kept vs us ps a b.next :=
  h.trans ((kept_next b).mono (List.nil_subset _) (List.nil_subset _) (List.nil_subset _))

/-- Registers and predicates are read from the group's tables alone. -/
theorem Kept.of_tables (hv : b.vregs = a.vregs) (hu : b.uregs = a.uregs) (hp : b.preds = a.preds) : Kept vs us ps a b := by
  refine ⟨fun l i _ _ => ?_, fun i _ => ?_, fun l i _ => ?_⟩
  · unfold Group.vr; rw [hv]
  · unfold Group.ur; rw [hu]
  · unfold Group.pr; rw [hp]

end

theorem vr_next (x : Group) (l i : Nat) : x.next.vr l i = x.vr l i := goto_keeps (·.vr l i) (fun _ _ _ _ => rfl) x _
theorem ur_next (x : Group) (i : Nat) : x.next.ur i = x.ur i := goto_keeps (·.ur i) (fun _ _ _ _ => rfl) x _
theorem pr_next (x : Group) (l i : Nat) : x.next.pr l i = x.pr l i := goto_keeps (·.pr l i) (fun _ _ _ _ => rfl) x _

theorem rd_congr {a b : Group} {l : Nat} {u : Bool} (hv : ∀ i, u = false → b.vr l i = a.vr l i) (hu : ∀ i, u = true → b.ur i = a.ur i) (i n : Nat) :
    b.rd l u i n = a.rd l u i n := by
  induction n generalizing i with
  | zero => rfl
  | succ n ih =>
    unfold Group.rd
    rw [ih]
    cases u with
    | false => simp [hv]
    | true => simp [hu]

theorem rd_next (x : Group) (l : Nat) (u : Bool) (i n : Nat) : x.next.rd l u i n = x.rd l u i n :=
  rd_congr (fun i _ => vr_next x l i) (fun i _ => ur_next x i) i n

theorem rd_lt (x : Group) (l : Nat) (u : Bool) (i n : Nat) : x.rd l u i n < 2 ^ (32 * n) := by
  induction n generalizing i with
  | zero => exact Nat.one_pos
  | succ n ih =>
    have hreg := (if u then x.ur i else x.vr l i).isLt
    have hrest := ih (i + 1)
    unfold Group.rd
    rw [Nat.mul_succ, pow_add]
    omega

/-! Values of several registers (R109). -/

/-- Of a value of `n` registers from `i`, what one write of them leaves: a register of the range that is not v255 or u255 holds its word. -/
theorem wr_reads (x : Group) {l : Nat} (hl : l < 32) (u : Bool) (i n v : Nat) :
    (∀ m j, m < 32 → (x.wr l u i n v).vr m j = if u = false ∧ m = l ∧ i ≤ j ∧ j < i + n ∧ j ≠ 255 then BitVec.ofNat 32 (v / 2 ^ (32 * (j - i))) else x.vr m j) ∧
    (∀ j, (x.wr l u i n v).ur j = if u = true ∧ i ≤ j ∧ j < i + n ∧ j ≠ 255 then BitVec.ofNat 32 (v / 2 ^ (32 * (j - i))) else x.ur j) ∧
    (∀ m j, (x.wr l u i n v).pr m j = x.pr m j) ∧ (x.wr l u i n v).frame = x.frame ∧ (x.wr l u i n v).fpstat = x.fpstat := by
  induction n generalizing x i v with
  | zero => exact ⟨fun m j _ => (if_neg (by omega)).symm, fun j => (if_neg (by omega)).symm, fun _ _ => rfl, rfl, rfl⟩
  | succ n ih =>
    have hword : ∀ j, i + 1 ≤ j → v / 2 ^ 32 / 2 ^ (32 * (j - (i + 1))) = v / 2 ^ (32 * (j - i)) := fun j hj => by
      rw [Nat.div_div_eq_div_mul, ← pow_add, show 32 + 32 * (j - (i + 1)) = 32 * (j - i) by omega]
    cases u with
    | false =>
      obtain ⟨hv, hu, hp, hf, hs⟩ := ih (x.setV l i (BitVec.ofNat 32 v)) (i + 1) (v / 2 ^ 32)
      refine ⟨fun m j hm => (hv m j hm).trans ?_, fun j => (hu j).trans (by simp), fun m j => (hp m j).trans (pr_setV ..),
        hf.trans (frame_setV ..), hs.trans (fpstat_setV ..)⟩
      rw [vr_setV x hl hm]
      by_cases hlater : i + 1 ≤ j
      · rw [hword j hlater, if_neg (show ¬(m = l ∧ j = i ∧ i ≠ 255) by omega)]
        exact if_congr (by simp only [true_and]; omega) rfl rfl
      · rw [if_neg (by omega)]
        by_cases hj : j = i
        · subst hj
          simp only [Nat.sub_self, Nat.mul_zero, pow_zero, Nat.div_one]
          exact if_congr (by simp) rfl rfl
        · rw [if_neg (by omega), if_neg (by omega)]
    | true =>
      obtain ⟨hv, hu, hp, hf, hs⟩ := ih (x.setU i (BitVec.ofNat 32 v)) (i + 1) (v / 2 ^ 32)
      refine ⟨fun m j hm => (hv m j hm).trans (by simp), fun j => (hu j).trans ?_, fun m j => (hp m j).trans (pr_setU ..),
        hf.trans (frame_setU ..), hs.trans (fpstat_setU ..)⟩
      rw [ur_setU x]
      by_cases hlater : i + 1 ≤ j
      · rw [hword j hlater, if_neg (show ¬(j = i ∧ i ≠ 255) by omega)]
        exact if_congr (by simp only [true_and]; omega) rfl rfl
      · rw [if_neg (by omega)]
        by_cases hj : j = i
        · subst hj
          simp only [Nat.sub_self, Nat.mul_zero, pow_zero, Nat.div_one]
          exact if_congr (by simp) rfl rfl
        · rw [if_neg (by omega), if_neg (by omega)]

/-- Registers that hold the words of a value read as that value. -/
theorem rd_of_words {x : Group} {l : Nat} {u : Bool} {i n v : Nat}
    (h : ∀ j, i ≤ j → j < i + n → (if u then x.ur j else x.vr l j) = BitVec.ofNat 32 (v / 2 ^ (32 * (j - i)))) : x.rd l u i n = v % 2 ^ (32 * n) := by
  induction n generalizing i v with
  | zero => simp [Group.rd, Nat.mod_one]
  | succ n ih =>
    have hrest : x.rd l u (i + 1) n = v / 2 ^ 32 % 2 ^ (32 * n) := ih fun j hj hlt => by
      rw [h j (by omega) (by omega), Nat.div_div_eq_div_mul, ← pow_add, show 32 + 32 * (j - (i + 1)) = 32 * (j - i) by omega]
    unfold Group.rd
    rw [hrest, h i le_rfl (by omega), Nat.sub_self, Nat.mul_zero, pow_zero, Nat.div_one, BitVec.toNat_ofNat, Nat.mul_succ, Nat.add_comm (32 * n), pow_add,
      Nat.mod_mul]

/-! Values of several lanes, written in turn. -/

/-- Each lane of a list receives its value in `n` registers from `i`. -/
def Group.give (x : Group) (u : Bool) (i n : Nat) (vals : List (Nat × Nat)) : Group := vals.foldl (fun a e => a.wr e.1 u i n e.2) x

/-- The registers of a kind that a value of `n` registers from `i` takes. -/
def regsOf (i n : Nat) (u kind : Bool) : List Nat := if u = kind then (List.range n).map (i + ·) else []

theorem mem_regsOf {i n j : Nat} {u kind : Bool} : j ∈ regsOf i n u kind ↔ u = kind ∧ i ≤ j ∧ j < i + n := by
  unfold regsOf
  split
  · next h =>
    simp only [List.mem_map, List.mem_range, h, true_and]
    exact ⟨fun ⟨k, hk, e⟩ => by omega, fun ⟨hle, hlt⟩ => ⟨j - i, by omega, by omega⟩⟩
  · next h => simp [h]

section
variable {x : Group} {u : Bool} {i n : Nat} {vals : List (Nat × Nat)}

theorem give_frame (hlanes : ∀ e ∈ vals, e.1 < 32) : (x.give u i n vals).frame = x.frame :=
  foldl_keeps_mem (fun a : Group => a.frame = x.frame) _ vals x rfl fun a e he ha => (wr_reads a (hlanes e he) u i n e.2).2.2.2.1.trans ha

theorem give_fpstat (hlanes : ∀ e ∈ vals, e.1 < 32) : (x.give u i n vals).fpstat = x.fpstat :=
  foldl_keeps_mem (fun a : Group => a.fpstat = x.fpstat) _ vals x rfl fun a e he ha => (wr_reads a (hlanes e he) u i n e.2).2.2.2.2.trans ha

theorem give_kept (hlanes : ∀ e ∈ vals, e.1 < 32) : Kept (regsOf i n u false) (regsOf i n u true) [] x (x.give u i n vals) := by
  refine foldl_keeps_mem (Kept (regsOf i n u false) (regsOf i n u true) [] x) _ vals x (.refl ..) fun a e he ha => ha.trans ?_
  obtain ⟨hv, hu, hp, _⟩ := wr_reads a (hlanes e he) u i n e.2
  refine ⟨fun m j hm hj => ?_, fun j hj => ?_, fun m j _ => hp m j⟩
  · rw [hv m j hm, if_neg fun h => hj (mem_regsOf.2 ⟨h.1, h.2.2.1, h.2.2.2.1⟩)]
  · rw [hu j, if_neg fun h => hj (mem_regsOf.2 ⟨h.1, h.2.1, h.2.2.1⟩)]

theorem give_others (hlanes : ∀ e ∈ vals, e.1 < 32) {l : Nat} (hl : l < 32) (hne : ∀ e ∈ vals, e.1 ≠ l) (j : Nat) : (x.give u i n vals).vr l j = x.vr l j :=
  foldl_keeps_mem (fun a : Group => a.vr l j = x.vr l j) _ vals x rfl fun a e he ha => by
    rw [(wr_reads a (hlanes e he) u i n e.2).1 l j hl, if_neg fun h => hne e he h.2.1.symm, ha]

/-- A lane that is named once reads its value back; of a uniform register one value alone is written. -/
theorem give_reads (hlanes : ∀ e ∈ vals, e.1 < 32) (hfits : i + n ≤ 255) (hnodup : (vals.map (·.1)).Nodup) (hone : u = true → vals.length ≤ 1) :
    ∀ e ∈ vals, (x.give u i n vals).rd e.1 u i n = e.2 % 2 ^ (32 * n) := by
  induction vals generalizing x with
  | nil => nofun
  | cons d rest ih =>
    obtain ⟨hd, hrest⟩ := List.forall_mem_cons.1 hlanes
    obtain ⟨hfresh, hnodup⟩ := List.nodup_cons.1 hnodup
    obtain ⟨hv, hu, _⟩ := wr_reads x hd u i n d.2
    intro e he
    rcases List.mem_cons.1 he with rfl | he
    · refine rd_of_words fun j hle hlt => ?_
      cases u with
      | false =>
        show ((x.wr e.1 false i n e.2).give false i n rest).vr e.1 j = _
        rw [give_others hrest hd (fun d hd h => hfresh (List.mem_map.2 ⟨d, hd, h⟩)), hv e.1 j hd, if_pos ⟨rfl, rfl, hle, hlt, by omega⟩]
      | true =>
        have hnil : rest = [] := List.length_eq_zero_iff.1 (by simpa using hone rfl)
        subst hnil
        show (x.wr e.1 true i n e.2).ur j = _
        rw [hu j, if_pos ⟨rfl, hle, hlt, by omega⟩]
    · exact ih hrest hnodup (fun h => (Nat.le_succ _).trans (hone h)) e he

end

end Sys2Proof.Machine
end

section
namespace Sys2Proof.Machine

/-! A group's own row (R76, R77, R106 to R110): the command of a row that is no matrix instruction, and what it leaves of other groups and of the core. -/

section
variable {s t u v : State} {g : GRef} {w : Word64} {c : Ctx} {L : List Fld}

/-- The rows of matrix instructions, and words of no row. -/
def unitRows : List IRow := [.mxHdl, .mxFill, .mxLdb, .mxMma, .mxClr, .mxAddraw, .mxDrain, .mxStat, .mxNest, .illegal]

theorem rowOf_mem_unitRows (h : isMx w = true) : rowOf w ∈ unitRows := by
  have hmaj : fieldOf w 63 58 = 0x20 := by
    have hbody : bodyOf w = .mx := by simpa [isMx] using h
    unfold bodyOf fMaj at hbody
    split at hbody <;> simp_all only [reduceCtorEq]
  simp only [rowOf, hmaj]
  split <;> decide

theorem not_isMx {r : IRow} (hrow : rowOf w = r) (hr : r ∉ unitRows) : isMx w = false :=
  Bool.eq_false_iff.2 fun h => hr (hrow ▸ rowOf_mem_unitRows h)

theorem issueCtx_active (h : s.issueCtx g = some c) : c.gr.active ≠ 0 := by
  unfold State.issueCtx at h
  split at h
  · cases h
  · split at h
    · split at h
      · next hcond =>
        cases h
        exact hcond.2.2.2.2.2.2.2.2
      · cases h
    · cases h

theorem Issues.core_lt (h : Issues s g w c u) : okCore g.core = true := by
  have hg := h.1
  unfold okGroup at hg
  simp only [Bool.and_eq_true] at hg
  exact hg.1.1

/-- The command of a row that is no matrix instruction does what the row does. -/
theorem Issues.exec_eq {i : Instr} {r : IRow} {row : State → State} (h : Issues s g w c u) (hrow : rowOf w = r) (hr : r ∉ unitRows)
    (hexec : exec i s = withWord g w r (s.inTurn g w row)) : exec i s = .next (row s) := by
  obtain ⟨hg, hctx, hturn, _⟩ := h
  rw [hexec, withWord, if_pos hg, if_pos hrow]
  refine congrArg _ ?_
  unfold State.inTurn
  rw [hctx]
  dsimp only
  rw [if_pos hturn, if_neg (Bool.eq_false_iff.1 (not_isMx hrow hr)), ite_self]

theorem Issues.goesRow {i : Instr} {r : IRow} {row : State → State} {P : State → Prop} (h : Issues s g w c u) (hrow : rowOf w = r) (hr : r ∉ unitRows)
    (hexec : exec i s = withWord g w r (s.inTurn g w row)) (htouch : Touches L u (row s)) (hP : P (row s)) : Goes i s u L P :=
  ⟨_, h.exec_eq hrow hr hexec, htouch, hP⟩

/-- The word raises nothing by itself: its fields are allowed, and its register fields name registers (R106 to R110). -/
theorem Issues.static (h : Issues s g w c u) : staticErrs c.gr.nregs w = [] := h.2.2.2.2.2.1

theorem bodyReserved_of_static {n : Nat} (h : staticErrs n w = []) : bodyReserved w = false := by
  unfold staticErrs at h
  split at h
  · cases h
  · simp only [List.append_eq_nil_iff, ite_eq_right_iff] at h
    exact Bool.eq_false_iff.2 fun hb => List.cons_ne_nil _ _ (h.1.1.2 hb)

theorem errs_of_static {n : Nat} (h : staticErrs n w = []) : ∀ o ∈ opnds w, o.errs n = [] := by
  unfold staticErrs at h
  split at h
  · cases h
  · simp only [List.append_eq_nil_iff, List.flatMap_eq_nil_iff] at h
    exact h.2

theorem guardless_of_static {n : Nat} (h : staticErrs n w = []) (hu : isUniform w = true) : fG w = false := by
  unfold staticErrs at h
  split at h
  · cases h
  · simp only [List.append_eq_nil_iff, ite_eq_right_iff] at h
    have huni := h.1.2
    refine Bool.eq_false_iff.2 fun hg => List.cons_ne_nil _ _ (huni ?_)
    rw [hu, hg]
    rfl

/-- A register field of `k` registers that raises nothing names them below v255 and u255, or is 255 and names one that keeps nothing (R80, R108, R109). -/
theorem Opnd.fits {n k : Nat} {o : Opnd} {b src : Bool} (hk : o.kind = .reg b k src) (h : o.errs n = []) : o.idx = 255 ∧ k = 1 ∨ o.idx + k ≤ 255 ∨ 63 < k := by
  unfold Opnd.errs at h
  rw [hk] at h
  cases b with
  | true =>
    dsimp only at h
    split at h
    · omega
    · split at h
      · split at h
        · next h1 => exact .inl ⟨by assumption, h1⟩
        · cases h
      · cases h
  | false =>
    dsimp only at h
    split at h
    · next h1 => exact .inl ⟨h1.2, h1.1⟩
    · simp only [List.append_eq_nil_iff, ite_eq_left_iff] at h
      have hrange := h.2
      by_contra hfar
      exact List.cons_ne_nil _ _ (hrange (by omega))

theorem dest_fits {n k : Nat} (h : staticErrs n w = []) (hd : oD w k ∈ opnds w) (hk : k ≤ 63) (hne : fD w ≠ 255) : fD w + k ≤ 255 := by
  rcases Opnd.fits (o := oD w k) rfl (errs_of_static h _ hd) with ⟨h, _⟩ | h | h
  · exact absurd h hne
  · exact h
  · omega

end

/-! The lanes of a word (R106, R110). -/

section
variable {x : Group} {w : Word64} {l : Nat}

theorem mem_lanesOf {m : BitVec 32} : l ∈ lanesOf m ↔ m.getLsbD l = true := by
  unfold lanesOf upTo
  rw [List.mem_filter, List.mem_range]
  exact ⟨And.right, fun h => ⟨BitVec.lt_of_getLsbD h, h⟩⟩

theorem nodup_lanesOf (m : BitVec 32) : (lanesOf m).Nodup := List.nodup_range.filter _

theorem lanesOf_eq_nil {m : BitVec 32} : lanesOf m = [] ↔ m = 0 := by
  refine ⟨fun h => BitVec.eq_of_getLsbD_eq fun i _ => ?_, fun h => by rw [h]; rfl⟩
  refine (?_ : _ = false).trans BitVec.getLsbD_zero.symm
  exact Bool.eq_false_iff.2 fun hi => List.not_mem_nil (h ▸ mem_lanesOf.2 hi)

theorem lanes_lt (h : l ∈ x.lanes w) : l < 32 := by
  unfold Group.lanes at h
  split at h
  · exact BitVec.lt_of_getLsbD (mem_lanesOf.1 (List.mem_of_mem_take h))
  · exact BitVec.lt_of_getLsbD (mem_lanesOf.1 h)

theorem nodup_lanes (x : Group) (w : Word64) : (x.lanes w).Nodup := by
  unfold Group.lanes
  split
  · exact (nodup_lanesOf _).sublist (List.take_sublist ..)
  · exact nodup_lanesOf _

theorem isUniform_of_fDU (h : fDU w = true) : isUniform w = true := by
  have hbody : bodyOf w ≠ .mx := fun e => by
    unfold fDU at h
    rw [e] at h
    cases h
  unfold isUniform
  split
  · rfl
  · rfl
  · rfl
  · simp [h, hbody]

/-- A uniform word acts for one lane at most. -/
theorem length_lanes_le (h : fDU w = true) : (x.lanes w).length ≤ 1 := by
  unfold Group.lanes
  rw [if_pos (isUniform_of_fDU h)]
  exact List.length_take_le ..

theorem low_mem (h : x.active ≠ 0) : x.low ∈ lanesOf x.active := by
  unfold Group.low
  cases hl : lanesOf x.active with
  | nil => exact absurd (lanesOf_eq_nil.1 hl) h
  | cons a as => exact List.mem_cons_self ..

theorem lanes_uniform (hu : isUniform w = true) (h : x.active ≠ 0) : x.lanes w = [x.low] := by
  unfold Group.lanes Group.low
  rw [if_pos hu]
  cases hl : lanesOf x.active with
  | nil => exact absurd (lanesOf_eq_nil.1 hl) h
  | cons a as => rfl

end

/-! What issuing leaves (R76, R509), and the group alone changing. -/

section
variable {s t u v : State} {g : GRef} {w : Word64} {c : Ctx}

theorem group_modCore (s : State) {p : Nat} {f : Core → Core} (hf : (f (s.core p)).groups = (s.core p).groups) (h : GRef) :
    (s.modCore p f).group? h = s.group? h := by
  unfold State.group? Core.group?
  by_cases hp : h.core = p
  · rw [hp, State.core_modCore_self, hf]
  · rw [State.core_modCore_ne _ _ hp]

theorem group_pmEvent (s : State) (p ev part k : Nat) (h : GRef) : (s.pmEvent p ev part k).group? h = s.group? h :=
  group_of_core ((chg_pmEvent ..).1.core_eq (by decide) _)

theorem group_issued (u : State) (g : GRef) (c : Ctx) (h : GRef) : (u.issued g c).group? h = u.group? h := by
  unfold State.issued
  rw [group_pmEvent, group_modLaunch]
  exact group_modCore u (by rfl) h

theorem bare_pmEvent (s : State) (p ev part k q : Nat) : ((s.pmEvent p ev part k).core q).bare = (s.core q).bare :=
  congrArg Core.bare ((chg_pmEvent ..).1.core_eq (by decide) q)

theorem bare_issued (u : State) (g : GRef) (c : Ctx) (q : Nat) : ((u.issued g c).core q).bare = (u.core q).bare := by
  unfold State.issued
  rw [bare_pmEvent, core_modLaunch]
  exact bare_modCore rfl q

theorem OnlyGroup.refl (g : GRef) (s : State) : OnlyGroup g s s := ⟨fun _ _ _ => rfl, fun _ => rfl⟩

theorem OnlyGroup.trans (h : OnlyGroup g s t) (k : OnlyGroup g t u) : OnlyGroup g s u :=
  ⟨fun r hr hne => (k.1 r hr hne).trans (h.1 r hr hne), fun p => (k.2 p).trans (h.2 p)⟩

theorem onlyGroup_issued (u : State) (g : GRef) (c : Ctx) : OnlyGroup g u (u.issued g c) := ⟨fun _ _ _ => group_issued .., bare_issued u g c⟩

theorem onlyGroup_pmEvent (g : GRef) (u : State) (p ev part k : Nat) : OnlyGroup g u (u.pmEvent p ev part k) := ⟨fun _ _ _ => group_pmEvent .., bare_pmEvent u p ev part k⟩

theorem onlyGroup_setGroup (u : State) (hg : okGroup g = true) (x : Group) : OnlyGroup g u (u.setGroup g x) :=
  ⟨fun _ hr hne => State.group_setGroup_ne u x hg hr hne, bare_setGroup u g x⟩

theorem OnlyCounters.setGroup (h : OnlyCounters u v) (g : GRef) (x : Group) : OnlyCounters u (v.setGroup g x) :=
  h.trans (.of_regs ((chg_setGroup ..).1.regs_eq (by decide)))

/-- The state after an instruction that changes its group alone. -/
theorem issued_setGroup (u : State) (c : Ctx) (hg : okGroup g = true) (x : Group) {Q : Group → Prop} (hQ : Q x) :
    Touches [.regs, .cores, .launches] u ((u.issued g c).setGroup g x) ∧ OnlyGroup g u ((u.issued g c).setGroup g x) ∧
      OnlyCounters u ((u.issued g c).setGroup g x) ∧ GroupAt g ((u.issued g c).setGroup g x) Q :=
  ⟨(chg_issued u g c).1.trans ((chg_setGroup ..).1.mono (subF_of rfl)), (onlyGroup_issued u g c).trans (onlyGroup_setGroup _ hg x),
    (issued_onlyCounters u g c hg).setGroup g x, x, State.group_setGroup_self .., hQ⟩

/-- A row that leaves its group as `x` and changes nothing else. -/
theorem Issues.goesGroup {i : Instr} {r : IRow} {row : State → State} {x : Group} {Q : Group → Prop} (h : Issues s g w c u) (hrow : rowOf w = r) (hr : r ∉ unitRows)
    (hexec : exec i s = withWord g w r (s.inTurn g w row)) (hresult : row s = (u.issued g c).setGroup g x) (hQ : Q x) :
    Goes i s u [.regs, .cores, .launches] fun t => OnlyGroup g u t ∧ OnlyCounters u t ∧ GroupAt g t Q := by
  obtain ⟨htouch, hrest⟩ := issued_setGroup u c h.1 x hQ
  exact h.goesRow hrow hr hexec (hresult ▸ htouch) (hresult ▸ hrest)

/-- An instruction that only changes the registers of its group. -/
theorem Issues.issueAlu_eq (h : Issues s g w c u) (f : State → Ctx → Group) : s.issueAlu g w f = (u.issued g c).setGroup g (f u c).next := by
  unfold State.issueAlu
  rw [h.issue_eq]
  rfl

/-- A row of such instructions. -/
theorem groupRow_of_issueAlu {i : GRef → Word64 → Instr} {r : IRow} {f : GRef → Word64 → State → Ctx → Group} {Q : GRef → State → Ctx → Word64 → Group → Prop}
    (hr : r ∉ unitRows) (hexec : ∀ g w s, exec (i g w) s = withWord g w r (s.inTurn g w fun t => t.issueAlu g w (f g w)))
    (hQ : ∀ s g w c u, Issues s g w c u → rowOf w = r → Q g u c w (f g w u c).next) : GroupRow i r Q :=
  fun s g w c u h hrow => h.goesGroup hrow hr (hexec g w s) (h.issueAlu_eq _) (hQ s g w c u h hrow)

end

/-! Results in the lanes of a word (R106, R109, R110). -/

section
variable {x : Group} {w : Word64} {n : Nat}

/-- The results of a word's lanes. -/
def laneVals (x : Group) (w : Word64) (f : Nat → Nat) : List (Nat × Nat) := (x.lanes w).map fun l => (l, f l)

theorem laneVals_fst (x : Group) (w : Word64) (f : Nat → Nat) : (laneVals x w f).map (·.1) = x.lanes w := by
  unfold laneVals
  rw [List.map_map]
  exact List.map_id _

theorem laneVals_lt {f : Nat → Nat} : ∀ e ∈ laneVals x w f, e.1 < 32 := fun e he => by
  obtain ⟨l, hl, rfl⟩ := List.mem_map.1 he
  exact lanes_lt hl

/-- A group whose word has given each of its lanes a value in D. -/
theorem wroteD_give {y : Group} (f : Nat → Nat) (hfits : fD w ≠ 255 → fD w + n ≤ 255) (hv : y.vregs = (x.give (fDU w) (fD w) n (laneVals x w f)).vregs)
    (hu : y.uregs = (x.give (fDU w) (fD w) n (laneVals x w f)).uregs) (hp : y.preds = (x.give (fDU w) (fD w) n (laneVals x w f)).preds)
    (hframe : y.frame = (x.give (fDU w) (fD w) n (laneVals x w f)).frame) : WroteD w n f x y.next := by
  have hsame : Kept [] [] [] (x.give (fDU w) (fD w) n (laneVals x w f)) y := .of_tables hv hu hp
  refine ⟨fun hne l hl => ?_, ?_, fun l hl hout i => ?_, goesOn_next_of_frame (hframe.trans (give_frame laneVals_lt))⟩
  · rw [rd_next, rd_congr (fun i _ => hsame.1 l i (lanes_lt hl) List.not_mem_nil) (fun i _ => hsame.2.1 i List.not_mem_nil)]
    refine give_reads laneVals_lt (hfits hne) (laneVals_fst x w f ▸ nodup_lanes x w) (fun h => ?_) (l, f l) (List.mem_map_of_mem hl)
    rw [laneVals, List.length_map]
    exact length_lanes_le h
  · exact ((give_kept laneVals_lt).trans (hsame.mono (List.nil_subset _) (List.nil_subset _) (List.nil_subset _))).next
  · rw [vr_next, hsame.1 l i hl List.not_mem_nil]
    refine give_others laneVals_lt hl (fun e he h => hout ?_) i
    obtain ⟨m, hm, rfl⟩ := List.mem_map.1 he
    exact h ▸ hm

/-- Flags of lanes, gathered (R120). -/
def gatherFl (a : Fl) (ls : List Nat) (f : Nat → Fl) : Fl := ls.foldl (fun b l => b ||| f l) a

theorem wr_setFpstat (x : Group) (l : Nat) (u : Bool) (i n v : Nat) (q : Fl) : ({ x with fpstat := q } : Group).wr l u i n v = { x.wr l u i n v with fpstat := q } := by
  induction n generalizing x i v with
  | zero => rfl
  | succ n ih =>
    have hset : (if u then ({ x with fpstat := q } : Group).setU i (BitVec.ofNat 32 v) else ({ x with fpstat := q } : Group).setV l i (BitVec.ofNat 32 v)) =
        { (if u then x.setU i (BitVec.ofNat 32 v) else x.setV l i (BitVec.ofNat 32 v)) with fpstat := q } := by
      unfold Group.setU Group.setV
      split <;> split <;> rfl
    unfold Group.wr
    dsimp only
    rw [hset, ih]

theorem eachFl_eq (x : Group) (w : Word64) (n : Nat) (f : Nat → Nat × Fl) :
    x.eachFl w n f = { x.give (fDU w) (fD w) n (laneVals x w fun l => (f l).1) with fpstat := gatherFl x.fpstat (x.lanes w) fun l => (f l).2 } := by
  have hfold : ∀ (ls : List Nat) (a : Group), ls.foldl (fun a l => let r := f l; { a.wrD w l n r.1 with fpstat := a.fpstat ||| r.2 }) a =
      { a.give (fDU w) (fD w) n (ls.map fun l => (l, (f l).1)) with fpstat := gatherFl a.fpstat ls fun l => (f l).2 } := by
    intro ls
    induction ls with
    | nil => exact fun _ => rfl
    | cons l ls ih =>
      intro a
      rw [List.foldl_cons, ih]
      have hgive : ∀ (vals : List (Nat × Nat)) (b : Group) (q : Fl), ({ b with fpstat := q } : Group).give (fDU w) (fD w) n vals = { b.give (fDU w) (fD w) n vals with fpstat := q } := by
        intro vals
        induction vals with
        | nil => exact fun _ _ => rfl
        | cons e vals ih =>
          intro b q
          show (({ b with fpstat := q } : Group).wr e.1 (fDU w) (fD w) n e.2).give _ _ _ vals = _
          rw [wr_setFpstat, ih]
          rfl
      rw [hgive]
      rfl
  exact hfold _ x

theorem wroteD_eachFl (f : Nat → Nat × Fl) (hfits : fD w ≠ 255 → fD w + n ≤ 255) : WroteD w n (fun l => (f l).1) x (x.eachFl w n f).next := by
  rw [eachFl_eq]
  exact wroteD_give _ hfits rfl rfl rfl rfl

theorem gatherFl_none (a : Fl) (ls : List Nat) {f : Nat → Fl} (h : ∀ l, f l = flNone) : gatherFl a ls f = a := by
  unfold gatherFl
  induction ls with
  | nil => rfl
  | cons l ls ih => rw [List.foldl_cons, h, show a ||| flNone = a from BitVec.or_zero, ih]

theorem fpstat_eachFl (f : Nat → Nat × Fl) (h : ∀ l, (f l).2 = flNone) : (x.eachFl w n f).next.fpstat = x.fpstat := by
  rw [fpstat_next, eachFl_eq]
  exact gatherFl_none _ _ h

end

end Sys2Proof.Machine
end

section
namespace Sys2Proof.Machine

/-! Integer operations (R116): what the model computes, in the terms of the statements. -/

theorem opInt_modEq (u : Bool) (n x : Nat) : opInt u n x ≡ (x : Int) [ZMOD 2 ^ n] := by
  unfold opInt sx
  split
  · rfl
  · split
    · rfl
    · exact (Int.modEq_iff_dvd.2 ⟨1, by ring⟩)

theorem intOf_eq_opInt {n x : Nat} (u : Bool) (hn : 0 < n) (hx : x < 2 ^ n) : intOf (!u) n x = opInt u n x := by
  unfold intOf opInt
  cases u with
  | true => simp [Nat.mod_eq_of_lt hx]
  | false => simp [signedOf_eq_sx hn hx]

theorem intBits_eq_lowBits (n : Nat) (x : Int) : intBits n x = lowBits n x := by
  unfold intBits lowBits
  push_cast
  rfl

/-- An integer's low bits are those of any number that it is congruent to. -/
theorem intBits_of_modEq {n m : Nat} {x : Int} (h : x ≡ (m : Int) [ZMOD 2 ^ n]) : intBits n x = m % 2 ^ n := by
  have hcast : x % 2 ^ n = ((m % 2 ^ n : Nat) : Int) := by
    rw [h]
    push_cast
    rfl
  rw [intBits_eq_lowBits, lowBits, hcast, Int.toNat_natCast]

theorem intBits_lt (n : Nat) (x : Int) : intBits n x < 2 ^ n := by
  have hpos : (0 : Int) < (2 ^ n : Nat) := by exact_mod_cast Nat.two_pow_pos n
  have hlt := Int.emod_lt_of_pos x hpos
  have hnonneg := Int.emod_nonneg x hpos.ne'
  unfold intBits
  omega

theorem wrapOrSat_wrap (n : Nat) (u : Bool) (x : Int) : wrapOrSat n u false x = intBits n x := rfl

/-- Clamping to the range that U names (R116). -/
theorem wrapOrSat_sat {n : Nat} (u : Bool) (hn : 0 < n) (x : Int) : wrapOrSat n u true x = satBits u n x := by
  have htwo : (2 : Int) ^ n = 2 * 2 ^ (n - 1) := by rw [← pow_succ', Nat.sub_add_cancel hn]
  have htwoN : (2 : Nat) ^ n = 2 * 2 ^ (n - 1) := by rw [← pow_succ', Nat.sub_add_cancel hn]
  have hposI : (0 : Int) < 2 ^ (n - 1) := by positivity
  have hposN : 0 < 2 ^ (n - 1) := Nat.two_pow_pos _
  have hcast : ((2 ^ (n - 1) : Nat) : Int) = 2 ^ (n - 1) := by push_cast; rfl
  have hlow : ∀ y : Int, 0 ≤ y → y < 2 ^ n → lowBits n y = y.toNat := fun y h0 h1 => by
    unfold lowBits
    rw [Int.emod_eq_of_lt h0 h1]
  have hneg : lowBits n (-2 ^ (n - 1)) = 2 ^ (n - 1) := by
    have hmod : (-2 ^ (n - 1) : Int) % 2 ^ n = 2 ^ (n - 1) := by
      rw [← Int.add_emod_right, htwo, show (-2 ^ (n - 1) + 2 * 2 ^ (n - 1) : Int) = 2 ^ (n - 1) by ring]
      exact Int.emod_eq_of_lt hposI.le (by omega)
    unfold lowBits
    rw [hmod]
    omega
  unfold wrapOrSat clampInt intLo intHi satBits
  rw [if_pos rfl, intBits_eq_lowBits]
  cases u with
  | true =>
    simp only [Bool.not_true, Bool.false_eq_true, if_false, if_true]
    push_cast
    by_cases h0 : x < 0
    · rw [if_pos h0, if_pos h0, hlow 0 le_rfl (by omega)]
      rfl
    · rw [if_neg h0, if_neg h0]
      by_cases h1 : 2 ^ n ≤ x
      · rw [if_pos (by omega), if_pos h1, hlow _ (by omega) (by omega)]
        omega
      · rw [if_neg (by omega), if_neg h1, hlow x (by omega) (by omega)]
  | false =>
    simp only [Bool.not_false, Bool.false_eq_true, if_false, if_true]
    push_cast
    by_cases h0 : x < -2 ^ (n - 1)
    · rw [if_pos h0, if_pos h0, hneg]
    · rw [if_neg h0, if_neg h0]
      by_cases h1 : 2 ^ (n - 1) ≤ x
      · rw [if_pos (by omega), if_pos h1, hlow _ (by omega) (by omega)]
        omega
      · rw [if_neg (by omega), if_neg h1]

/-- A sum or difference, wrapped to `m`'s low bits or clamped (R116). -/
theorem wrapOrSat_eq {n m : Nat} (u sat : Bool) (hn : 0 < n) {x : Int} (h : x ≡ (m : Int) [ZMOD 2 ^ n]) :
    wrapOrSat n u sat x = if sat then satBits u n x else m % 2 ^ n := by
  cases sat with
  | true => exact wrapOrSat_sat u hn x
  | false => exact intBits_of_modEq h

theorem sub_modEq {n a b : Nat} {x y : Int} (hx : x ≡ (a : Int) [ZMOD 2 ^ n]) (hy : y ≡ (b : Int) [ZMOD 2 ^ n]) (hb : b ≤ 2 ^ n) :
    x - y ≡ ((a + 2 ^ n - b : Nat) : Int) [ZMOD 2 ^ n] := by
  refine (hx.sub hy).trans (Int.modEq_iff_dvd.2 ⟨1, ?_⟩)
  rw [Nat.cast_sub (by omega)]
  push_cast
  ring

/-! Shifts (R116). -/

theorem shiftLeft_eq (n a b : Nat) : shiftOp n 14 a b = a * 2 ^ (b % 256) % 2 ^ n := by
  simp only [shiftOp]
  split
  · rfl
  · next h =>
    obtain ⟨k, hk⟩ := Nat.exists_eq_add_of_le (Nat.not_lt.1 h)
    rw [hk, pow_add, ← Nat.mul_assoc, Nat.mul_right_comm, Nat.mul_mod_left]

theorem shiftRight_eq {n a : Nat} (b : Nat) (ha : a < 2 ^ n) : shiftOp n 15 a b = a / 2 ^ (b % 256) := by
  simp only [shiftOp]
  split
  · rfl
  · next h => exact (Nat.div_eq_of_lt (ha.trans_le (Nat.pow_le_pow_right (by decide) (Nat.not_lt.1 h)))).symm

theorem sx_bounds {n x : Nat} (hn : 0 < n) (hx : x < 2 ^ n) : -2 ^ (n - 1) ≤ sx n x ∧ sx n x < 2 ^ (n - 1) := by
  have htwo : (2 : Int) ^ n = 2 * 2 ^ (n - 1) := by rw [← pow_succ', Nat.sub_add_cancel hn]
  have hxi : (x : Int) < 2 ^ n := by exact_mod_cast hx
  unfold sx
  split
  · next h =>
    have hi : 2 * (x : Int) < 2 ^ n := by exact_mod_cast h
    omega
  · next h =>
    have hi : (2 : Int) ^ n ≤ 2 * (x : Int) := by exact_mod_cast Nat.not_lt.1 h
    omega

/-- Beyond the sign bit a shift gives the sign alone. -/
theorem ediv_two_pow_min {n k : Nat} {x : Int} (hlow : -2 ^ (n - 1) ≤ x) (hup : x < 2 ^ (n - 1)) :
    x / ((2 ^ (min k (n - 1)) : Nat) : Int) = x / 2 ^ k := by
  push_cast
  rcases Nat.le_total k (n - 1) with h | h
  · rw [Nat.min_eq_left h]
  · rw [Nat.min_eq_right h]
    have hle : (2 : Int) ^ (n - 1) ≤ 2 ^ k := pow_le_pow_right₀ (by decide) h
    by_cases h0 : 0 ≤ x
    · rw [Int.ediv_eq_zero_of_lt h0 hup, Int.ediv_eq_zero_of_lt h0 (hup.trans_le hle)]
    · have hsign : ∀ d : Int, -d ≤ x → 0 < d → x / d = -1 := fun d hd hpos => by
        rw [Int.ediv_eq_iff_of_pos hpos]
        constructor <;> omega
      rw [hsign _ hlow (by positivity), hsign _ (by omega) (by positivity)]

theorem shiftArith_eq {n a : Nat} (b : Nat) (hn : 0 < n) (ha : a < 2 ^ n) : shiftOp n 16 a b = lowBits n (sx n a / 2 ^ (b % 256)) := by
  obtain ⟨hlow, hup⟩ := sx_bounds hn ha
  simp only [shiftOp]
  rw [signedOf_eq_sx hn ha, ediv_two_pow_min hlow hup, intBits_eq_lowBits]

/-! Bits counted, found and reversed (R116). -/

theorem getBits_one_eq (a i : Nat) : (getBits a i 1 == 1) = a.testBit i := by
  rw [Nat.testBit_eq_decide_div_mod_eq]
  exact (Bool.beq_eq_decide_eq _ _)

theorem bitsSet_eq (a n : Nat) : bitsSet a n = (List.range n).filter fun i => a.testBit i := by
  unfold bitsSet upTo
  exact congrArg (List.filter · _) (funext (getBits_one_eq a))

/-- Adding a power of two that a number does not hold sets its bit. -/
theorem testBit_add_two_pow {s i : Nat} (h : s.testBit i = false) (j : Nat) : (s + 2 ^ i).testBit j = (decide (j = i) || s.testBit j) := by
  have hput : s + 2 ^ i = putBits s i 1 1 := by
    have hbit : s / 2 ^ i % 2 = 0 := by
      rw [Nat.testBit_eq_decide_div_mod_eq, decide_eq_false_iff_not] at h
      omega
    have hsplit := Nat.mod_add_div s (2 ^ i)
    have hhigh : s / 2 ^ i = 2 * (s / 2 ^ (i + 1)) := by
      rw [pow_succ, ← Nat.div_div_eq_div_mul]
      omega
    unfold putBits
    rw [hhigh, pow_succ] at hsplit
    rw [show 1 % 2 ^ 1 = 1 from rfl, pow_succ]
    linarith
  rw [hput, testBit_putBits]
  by_cases hlt : j < i
  · simp [hlt, hlt.ne]
  · rw [if_neg hlt]
    by_cases heq : j = i
    · simp [heq]
    · rw [if_neg (by omega)]
      simp [heq]

/-- A number built of different powers of two has their bits. -/
theorem testBit_sum_two_pow {ls : List Nat} (h : ls.Nodup) (j : Nat) : (ls.foldl (fun a i => a + 2 ^ i) 0).testBit j = decide (j ∈ ls) := by
  induction ls using List.reverseRecOn generalizing j with
  | nil => simp
  | append_singleton ls i ih =>
    obtain ⟨hls, _, hdisj⟩ := List.nodup_append.1 h
    have hfresh : i ∉ ls := fun hi => hdisj i hi i (List.mem_singleton_self i) rfl
    rw [List.foldl_append, List.foldl_cons, List.foldl_nil, testBit_add_two_pow (by rw [ih hls]; exact decide_eq_false hfresh), ih hls]
    simp [or_comm]

theorem testBit_revOf (a : Nat) {i : Nat} (hi : i < 32) : (revOf a).testBit i = a.testBit (31 - i) := by
  have hmap : revOf a = ((bitsSet a 32).map (31 - ·)).foldl (fun acc k => acc + 2 ^ k) 0 := by
    unfold revOf
    rw [List.foldl_map]
  have hmem : ∀ k ∈ bitsSet a 32, k < 32 := fun k hk => by
    rw [bitsSet_eq] at hk
    exact List.mem_range.1 (List.mem_filter.1 hk).1
  have hnodup : ((bitsSet a 32).map (31 - ·)).Nodup := by
    refine List.Nodup.map_on (fun k hk m hm h => ?_) (by rw [bitsSet_eq]; exact List.nodup_range.filter _)
    have := hmem k hk
    have := hmem m hm
    omega
  rw [hmap, testBit_sum_two_pow hnodup, Bool.eq_iff_iff, decide_eq_true_iff, List.mem_map]
  constructor
  · rintro ⟨k, hk, rfl⟩
    have hlt := hmem k hk
    rw [bitsSet_eq] at hk
    rw [show 31 - (31 - k) = k by omega]
    exact (List.mem_filter.1 hk).2
  · intro h
    refine ⟨31 - i, ?_, by omega⟩
    rw [bitsSet_eq]
    exact List.mem_filter.2 ⟨List.mem_range.2 (by omega), h⟩

theorem lzcOf_bounds {a : Nat} (ha : a < 2 ^ 32) (h0 : a ≠ 0) : lzcOf a ≤ 31 ∧ 2 ^ (31 - lzcOf a) ≤ a ∧ a < 2 ^ (32 - lzcOf a) := by
  have hlog : Nat.log2 a < 32 := (Nat.log2_lt h0).2 ha
  unfold lzcOf
  rw [if_neg h0, show 31 - (31 - Nat.log2 a) = Nat.log2 a by omega, show 32 - (31 - Nat.log2 a) = Nat.log2 a + 1 by omega]
  exact ⟨by omega, Nat.log2_self_le h0, Nat.lt_log2_self⟩

theorem xtrOf_eq (u : Bool) (a b c : Nat) {n f : Nat} (hn : n = min (c % 64) (32 - b % 32)) (hf : f = a / 2 ^ (b % 32) % 2 ^ n) :
    xtrOf u a b c = if n = 0 then 0 else if u then f else lowBits 32 (sx n f) := by
  subst hn hf
  unfold xtrOf getBits
  dsimp only
  split
  · rfl
  · next h => rw [signedOf_eq_sx (Nat.pos_of_ne_zero h) (Nat.mod_lt _ (Nat.two_pow_pos _)), intBits_eq_lowBits]

theorem testBit_insOf (a b c : Nat) {i n : Nat} (hi : i < 32) (hn : n = min (c / 256 % 64) 32) :
    (insOf a b c).testBit i = if c % 32 ≤ i ∧ i < c % 32 + n then a.testBit (i - c % 32) else b.testBit i := by
  have hlen : getBits c 8 6 = c / 256 % 64 := rfl
  unfold insOf
  dsimp only
  rw [testBit_putBits, hlen]
  by_cases hlow : i < c % 32
  · rw [if_pos hlow, if_neg (by omega)]
  · rw [if_neg hlow]
    exact if_congr (by omega) rfl rfl

/-! The operations (R116). -/

/-- The high half of a product of 64 bits. -/
theorem intBits_high (z : Int) : intBits 64 z / 2 ^ 32 = lowBits 32 (z / 2 ^ 32) := by
  unfold intBits lowBits
  omega

theorem intBits_high_add (z : Int) (c : Nat) : (intBits 64 z / 2 ^ 32 + c) % 2 ^ 32 = lowBits 32 (z / 2 ^ 32 + c) := by
  unfold intBits lowBits
  omega

theorem i32_neg {a : Nat} (sat : Bool) (ha : a < 2 ^ 32) :
    wrapOrSat 32 false sat (-(signedOf 32 a)) = if sat = true ∧ a = 2 ^ 31 then 2 ^ 31 - 1 else (2 ^ 32 - a) % 2 ^ 32 := by
  rw [signedOf_eq_sx (by decide) ha]
  cases sat with
  | false =>
    rw [wrapOrSat_wrap, intBits_eq_lowBits, if_neg (by simp)]
    unfold lowBits sx
    split <;> omega
  | true =>
    rw [wrapOrSat_sat _ (by decide)]
    unfold satBits lowBits sx
    simp only [Bool.false_eq_true, if_false, true_and]
    repeat' split
    all_goals omega

theorem i32_abs {a : Nat} (sat : Bool) (ha : a < 2 ^ 32) :
    wrapOrSat 32 false sat (signedOf 32 a).natAbs = if a < 2 ^ 31 then a else if sat = true ∧ a = 2 ^ 31 then 2 ^ 31 - 1 else 2 ^ 32 - a := by
  rw [signedOf_eq_sx (by decide) ha]
  cases sat with
  | false =>
    rw [wrapOrSat_wrap, intBits_eq_lowBits]
    unfold lowBits sx
    simp only [Bool.false_eq_true, false_and, if_false]
    repeat' split
    all_goals omega
  | true =>
    rw [wrapOrSat_sat _ (by decide)]
    unfold satBits lowBits sx
    simp only [Bool.false_eq_true, if_false, true_and]
    repeat' split
    all_goals omega

theorem int32Gives_i32Value {a b c : Nat} (sub : Nat) (u sat p : Bool) (ha : a < 2 ^ 32) (hb : b < 2 ^ 32) :
    Int32Gives sub u sat p a b c (if sub = 23 then (if p then a else b) else i32Value sub u sat a b c) := by
  have hx := opInt_modEq u 32 a
  have hy := opInt_modEq u 32 b
  have hxa : intOf (!u) 32 a = opInt u 32 a := intOf_eq_opInt u (by decide) ha
  have hyb : intOf (!u) 32 b = opInt u 32 b := intOf_eq_opInt u (by decide) hb
  refine ⟨?_, ?_, ?_, ?_, ?_, ?_, ?_, ?_, ?_, ?_, ?_, ?_, ?_, ?_, ?_, ?_, ?_, ?_, ?_, ?_, ?_, ?_, ?_, ?_⟩ <;> rintro rfl
  all_goals simp only [Nat.reduceEqDiff, if_false, if_true, i32Value, hxa, hyb]
  case _ => exact wrapOrSat_eq u sat (by decide) (by push_cast; exact hx.add hy)
  case _ => exact wrapOrSat_eq u sat (by decide) (sub_modEq hx hy hb.le)
  case _ => exact i32_neg sat ha
  case _ => exact i32_abs sat ha
  case _ => exact intBits_of_modEq (by push_cast; exact hx.mul hy)
  case _ => exact intBits_high _
  case _ => exact intBits_of_modEq (by push_cast; exact (hx.mul hy).add_right _)
  case _ => exact intBits_high_add _ c
  case _ => omega
  case _ => exact shiftLeft_eq 32 a b
  case _ => exact shiftRight_eq b ha
  case _ => exact shiftArith_eq b (by decide) ha
  case _ => rw [onesOf, bitsSet_eq]
  case _ => exact ⟨fun h => if_pos h, lzcOf_bounds ha⟩
  case _ => exact fun i hi => testBit_revOf a hi
  case _ => exact fun n f hn hf => xtrOf_eq u a b c hn hf
  case _ => exact fun i n hi hn => testBit_insOf a b c hi hn

theorem int64Gives_i64Value {a b a1 b1 : Nat} (sub : Nat) (u sat : Bool) (ha : a < 2 ^ 64) (hb : b < 2 ^ 64) (ha1 : a1 < 2 ^ 32) (hb1 : b1 < 2 ^ 32) :
    Int64Gives sub u sat a b a1 b1 (i64Value sub u sat (if sub = 25 then a1 else a) (if sub = 14 ∨ sub = 15 ∨ sub = 16 ∨ sub = 25 then b1 else b)) := by
  have hx := opInt_modEq u 64 a
  have hy := opInt_modEq u 64 b
  have hxa : intOf (!u) 64 a = opInt u 64 a := intOf_eq_opInt u (by decide) ha
  have hyb : intOf (!u) 64 b = opInt u 64 b := intOf_eq_opInt u (by decide) hb
  have hxa1 : intOf (!u) 32 a1 = opInt u 32 a1 := intOf_eq_opInt u (by decide) ha1
  have hyb1 : intOf (!u) 32 b1 = opInt u 32 b1 := intOf_eq_opInt u (by decide) hb1
  refine ⟨?_, ?_, ?_, ?_, ?_, ?_, ?_, ?_, ?_, ?_, ?_, ?_⟩ <;> rintro rfl
  all_goals simp only [Nat.reduceEqDiff, or_self, or_true, or_false, if_false, if_true, i64Value, hxa, hyb, hxa1, hyb1]
  case _ => exact wrapOrSat_eq u sat (by decide) (by push_cast; exact hx.add hy)
  case _ => exact wrapOrSat_eq u sat (by decide) (sub_modEq hx hy hb.le)
  case _ => exact intBits_of_modEq (by push_cast; exact hx.mul hy)
  case _ => exact shiftLeft_eq 64 a b1
  case _ => exact shiftRight_eq b1 ha
  case _ => exact shiftArith_eq b1 (by decide) ha
  case _ => exact intBits_eq_lowBits _ _

/-! The rows. -/

section
variable {x : Group} {w : Word64} {l n : Nat}

theorem rdB_lt (hn : 0 < n) : x.rdB w l n < 2 ^ (32 * n) := by
  unfold Group.rdB
  split
  · exact (intBits_lt 32 _).trans_le (Nat.pow_le_pow_right (by decide) (by omega))
  · exact rd_lt ..

theorem doI32_eq (x : Group) (w : Word64) : doI32 w x = x.eachFl w 1 fun l =>
    (if fSub w = 23 then (if x.pr l (fC w) then x.rdA w l 1 else x.rdB w l 1)
      else i32Value (fSub w) (fU w) (fSat w) (x.rdA w l 1) (x.rdB w l 1) (x.rdC w l 1), flNone) := by
  unfold doI32
  congr 1
  funext l
  dsimp only
  split <;> rfl

theorem fU_eq (w : Word64) : fU w = modU w := by simp [fU, modU, getBits]
theorem fSat_eq (w : Word64) : fSat w = modSat w := by simp [fSat, modSat, getBits]

theorem oD_mem_i32 (h : rowOf w = .i32Op) : oD w 1 ∈ opnds w := by
  unfold opnds
  rw [h]
  dsimp only
  repeat' split
  all_goals simp

theorem oD_mem_i64 (h : rowOf w = .i64Op) : oD w 2 ∈ opnds w := by
  unfold opnds
  rw [h]
  dsimp only
  repeat' split
  all_goals simp

theorem i32Op_writes : GroupRow .i32Op .i32Op fun _ _ c w x => ∃ v, WroteD w 1 v c.gr x ∧ x.fpstat = c.gr.fpstat ∧ ∀ l,
    Int32Gives (fSub w) (modU w) (modSat w) (c.gr.pr l (fC w)) (c.gr.rdA w l 1) (c.gr.rdB w l 1) (c.gr.rdC w l 1) (v l) := by
  refine groupRow_of_issueAlu (f := fun _ w _ c => doI32 w c.gr) (by decide) (fun _ _ _ => rfl) fun s g w c u h hrow => ?_
  rw [doI32_eq, fU_eq, fSat_eq]
  exact ⟨_, wroteD_eachFl _ (dest_fits h.static (oD_mem_i32 hrow) (by decide)), fpstat_eachFl _ fun _ => rfl,
    fun l => int32Gives_i32Value _ _ _ _ (rd_lt ..) (rdB_lt (by decide))⟩

theorem i64Op_writes : GroupRow .i64Op .i64Op fun _ _ c w x => ∃ v, WroteD w 2 v c.gr x ∧ x.fpstat = c.gr.fpstat ∧ ∀ l,
    Int64Gives (fSub w) (modU w) (modSat w) (c.gr.rdA w l 2) (c.gr.rdB w l 2) (c.gr.rdA w l 1) (c.gr.rdB w l 1) (v l) := by
  refine groupRow_of_issueAlu (f := fun _ w _ c => doI64 w c.gr) (by decide) (fun _ _ _ => rfl) fun s g w c u h hrow => ?_
  unfold doI64
  rw [fU_eq, fSat_eq]
  refine ⟨_, wroteD_eachFl _ (dest_fits h.static (oD_mem_i64 hrow) (by decide)), fpstat_eachFl _ fun _ => rfl, fun l => ?_⟩
  have hvalue := int64Gives_i64Value (fSub w) (modU w) (modSat w) (rd_lt c.gr l (fAU w) (fA w) 2) (rdB_lt (x := c.gr) (w := w) (l := l) (n := 2) (by decide))
    (rd_lt c.gr l (fAU w) (fA w) 1) (rdB_lt (x := c.gr) (w := w) (l := l) (n := 1) (by decide))
  dsimp only
  rw [apply_ite (c.gr.rdA w l), apply_ite (c.gr.rdB w l)]
  exact hvalue

theorem fMaj_of_immV (h : rowOf w = .immV) : fMaj w = 7 := by
  unfold fMaj
  unfold rowOf atomRow at h
  grind

theorem fDU_imm (h : rowOf w = .immV) : fDU w = false := by
  simp only [fDU, bodyOf, fMaj_of_immV h]

theorem fImm32_eq (w : Word64) : fImm32 w = w.toNat % 2 ^ 32 := by simp [fImm32, fieldOf, bitsOf]

theorem immV_writes : GroupRow .immV .immV fun _ _ c w x => WroteD w 1 (fun _ => w.toNat % 2 ^ 32) c.gr x := by
  refine groupRow_of_issueAlu (f := fun _ w _ c => c.gr.each (c.gr.lanes w) fun _ l a => a.setV l (fD w) (BitVec.ofNat 32 (fImm32 w))) (by decide) (fun _ _ _ => rfl)
    fun s g w c u h hrow => ?_
  have hgive : c.gr.each (c.gr.lanes w) (fun _ l a => a.setV l (fD w) (BitVec.ofNat 32 (fImm32 w))) =
      c.gr.give (fDU w) (fD w) 1 (laneVals c.gr w fun _ => w.toNat % 2 ^ 32) := by
    unfold Group.give laneVals
    rw [List.foldl_map, fDU_imm hrow, fImm32_eq]
    rfl
  have hfits : fD w ≠ 255 → fD w + 1 ≤ 255 := fun hne => by
    have hlt : fD w < 256 := Nat.mod_lt _ (by decide)
    omega
  rw [hgive]
  exact wroteD_give _ hfits rfl rfl rfl rfl

theorem immU_writes : GroupRow .immU .immU fun _ _ c w x => x.ur (fD w) = (if fD w = 255 then 0 else w.setWidth 32) ∧ Kept [] [fD w] [] c.gr x ∧ GoesOn c.gr x := by
  refine groupRow_of_issueAlu (f := fun _ w _ c => c.gr.setU (fD w) (BitVec.ofNat 32 (fImm32 w))) (by decide) (fun _ _ _ => rfl) fun s g w c u h hrow => ?_
  refine ⟨?_, (kept_setU ..).next, goesOn_next_of_frame (frame_setU ..)⟩
  rw [ur_next, ur_setU]
  split
  · next hne =>
    rw [if_neg hne.2, fImm32_eq]
    exact BitVec.eq_of_toNat_eq (by simp)
  · next heq =>
    have h255 : fD w = 255 := by tauto
    rw [if_pos h255]
    exact if_pos h255

end

/-- Settles O8, row by row. -/
theorem integerRowsWriteTheirResult : Obligations.IntegerRowsWriteTheirResult := ⟨i32Op_writes, i64Op_writes, immV_writes, immU_writes⟩

end Sys2Proof.Machine
end

section
namespace Sys2Proof.Machine

/-! Predicates of several lanes (R106, R110). -/

section
variable {x : Group} {w : Word64} {i : Nat} {ls : List Nat} {f : Nat → Bool}

/-- Each lane of a list receives its value in a predicate. -/
def Group.giveP (x : Group) (i : Nat) (ls : List Nat) (f : Nat → Bool) : Group := ls.foldl (fun a l => a.setP l i (f l)) x

theorem giveP_pr (hls : ∀ l ∈ ls, l < 32) (m j : Nat) : (x.giveP i ls f).pr m j = if m ∈ ls ∧ j = i ∧ i ≠ 255 then f m else x.pr m j := by
  induction ls generalizing x with
  | nil => simp [Group.giveP]
  | cons l ls ih =>
    obtain ⟨hl, hls⟩ := List.forall_mem_cons.1 hls
    show ((x.setP l i (f l)).giveP i ls f).pr m j = _
    rw [ih hls, pr_setP x hl]
    by_cases hm : m ∈ ls <;> by_cases hml : m = l <;> by_cases hj : j = i ∧ i ≠ 255 <;> simp [hm, hml, hj]

/-- Only the predicate changes. -/
theorem giveP_keeps {α : Type} (p : Group → α) (hp : ∀ (a : Group) l b, p (a.setP l i b) = p a) : p (x.giveP i ls f) = p x :=
  foldl_keeps (fun a : Group => p a = p x) _ ls x rfl fun a l ha => (hp a l _).trans ha

theorem giveP_frame : (x.giveP i ls f).frame = x.frame := giveP_keeps Group.frame fun a l b => frame_setP a l i b

theorem giveP_fpstat : (x.giveP i ls f).fpstat = x.fpstat := giveP_keeps Group.fpstat fun a l b => fpstat_setP a l i b

theorem giveP_kept (hls : ∀ l ∈ ls, l < 32) : Kept [] [] [i] x (x.giveP i ls f) := by
  refine ⟨fun l j _ _ => giveP_keeps (·.vr l j) fun a m b => vr_setP a m i l j b, fun j _ => giveP_keeps (·.ur j) fun a m b => ur_setP a m i j b, fun l j hj => ?_⟩
  rw [giveP_pr hls, if_neg fun h => hj (List.mem_singleton.2 h.2.1)]

/-- The lanes in which a word's predicate is written: a uniform word writes it in every active lane (R110). -/
def predLanes (x : Group) (w : Word64) : List Nat := if isUniform w then lanesOf x.active else x.lanes w

theorem predLanes_uniform (hu : isUniform w = true) : predLanes x w = lanesOf x.active := if_pos hu

theorem predLanes_each (hu : isUniform w = false) : predLanes x w = x.lanes w := if_neg (Bool.eq_false_iff.1 hu)

/-- The lane whose value such a lane receives. -/
def predFrom (x : Group) (w : Word64) (l : Nat) : Nat := if isUniform w then x.low else l

theorem predLanes_lt : ∀ l ∈ predLanes x w, l < 32 := fun l hl => by
  unfold predLanes at hl
  split at hl
  · exact BitVec.lt_of_getLsbD (mem_lanesOf.1 hl)
  · exact lanes_lt hl

theorem wroteP_giveP {y : Group} {v : Nat → Bool} {d : Nat} (hv : y.vregs = x.vregs) (hu : y.uregs = x.uregs) (hframe : y.frame = x.frame)
    (hp : y.preds = (x.giveP d (predLanes x w) fun l => v (predFrom x w l)).preds) : WroteP w d v x y.next := by
  have hread : ∀ m j, y.pr m j = if m ∈ predLanes x w ∧ j = d ∧ d ≠ 255 then v (predFrom x w m) else x.pr m j := fun m j => by
    rw [← giveP_pr (f := fun l => v (predFrom x w l)) predLanes_lt]
    unfold Group.pr
    rw [hp]
  refine ⟨fun hd l hl hacts => ?_, Kept.next ⟨fun l i _ _ => ?_, fun i _ => ?_, fun l i hi => ?_⟩, fun l hout huni i => ?_, goesOn_next_of_frame hframe⟩
  · have hmem : l ∈ predLanes x w := by
      unfold predLanes
      split
      · exact hl
      · next h => exact hacts.resolve_left h
    rw [pr_next, hread, if_pos ⟨hmem, rfl, hd⟩]
    rfl
  · unfold Group.vr; rw [hv]
  · unfold Group.ur; rw [hu]
  · rw [hread, if_neg fun h => hi (List.mem_singleton.2 h.2.1)]
  · have hmem : l ∉ predLanes x w := by
      unfold predLanes
      split
      · next h => exact huni h
      · next h => exact hout (Bool.eq_false_iff.2 h)
    rw [pr_next, hread, if_neg fun h => hmem h.1]

/-- The lanes that raise a word's flags: of a uniform word the lowest alone, which it executes for (R110, R120). -/
def flagLanes (x : Group) (w : Word64) : List Nat := if isUniform w then [x.low] else x.lanes w

theorem setP_setFpstat (x : Group) (l i : Nat) (b : Bool) (q : Fl) : ({ x with fpstat := q } : Group).setP l i b = { x.setP l i b with fpstat := q } := by
  unfold Group.setP
  split <;> rfl

theorem giveP_setFpstat (x : Group) (ls : List Nat) (f : Nat → Bool) (i : Nat) (q : Fl) : ({ x with fpstat := q } : Group).giveP i ls f = { x.giveP i ls f with fpstat := q } := by
  induction ls generalizing x with
  | nil => rfl
  | cons l ls ih =>
    show (({ x with fpstat := q } : Group).setP l i (f l)).giveP i ls f = _
    rw [setP_setFpstat, ih]
    rfl

theorem eachPred_eq (x : Group) (w : Word64) (f : Nat → Bool × Fl) :
    x.eachPred w f = { x.giveP (fD w) (predLanes x w) (fun l => (f (predFrom x w l)).1) with fpstat := gatherFl x.fpstat (flagLanes x w) fun l => (f l).2 } := by
  unfold Group.eachPred predLanes predFrom flagLanes
  split
  · exact giveP_setFpstat x _ _ _ _
  · have hfold : ∀ (ls : List Nat) (a : Group), ls.foldl (fun a l => let r := f l; { a.setP l (fD w) r.1 with fpstat := a.fpstat ||| r.2 }) a =
        { a.giveP (fD w) ls (fun l => (f l).1) with fpstat := gatherFl a.fpstat ls fun l => (f l).2 } := by
      intro ls
      induction ls with
      | nil => exact fun _ => rfl
      | cons l ls ih =>
        intro a
        rw [List.foldl_cons, ih, giveP_setFpstat]
        rfl
    exact hfold _ x

theorem wroteP_eachPred (f : Nat → Bool × Fl) : WroteP w (fD w) (fun l => (f l).1) x (x.eachPred w f).next := by
  rw [eachPred_eq]
  exact wroteP_giveP (giveP_keeps Group.vregs fun a l b => by unfold Group.setP; split <;> rfl)
    (giveP_keeps Group.uregs fun a l b => by unfold Group.setP; split <;> rfl) giveP_frame rfl

theorem fpstat_eachPred (f : Nat → Bool × Fl) (h : ∀ l, (f l).2 = flNone) : (x.eachPred w f).next.fpstat = x.fpstat := by
  rw [fpstat_next, eachPred_eq]
  exact gatherFl_none _ _ h

theorem getLsbD_gatherFl (a : Fl) (ls : List Nat) (f : Nat → Fl) (i : Nat) : (gatherFl a ls f).getLsbD i = (a.getLsbD i || ls.any fun l => (f l).getLsbD i) := by
  unfold gatherFl
  induction ls generalizing a with
  | nil => simp
  | cons l ls ih => rw [List.foldl_cons, ih, BitVec.getLsbD_or, List.any_cons, Bool.or_assoc]

theorem flagged_eachPred (f : Nat → Bool × Fl) : Flagged (flagLanes x w) (fun l => (f l).2) x (x.eachPred w f).next := fun i => by
  rw [fpstat_next, eachPred_eq]
  exact getLsbD_gatherFl ..

end

/-! Comparisons (R117, R120). -/

theorem condGives_intCond {n : Nat} (cond : Nat) {a b : Nat} (hn : 0 < n) (ha : a < 2 ^ n) (hb : b < 2 ^ n) : CondGives n cond a b (intCond n cond a b) := by
  have hsa := signedOf_eq_sx hn ha
  have hsb := signedOf_eq_sx hn hb
  refine ⟨?_, ?_, ?_, ?_, ?_, ?_, ?_, ?_, ?_, ?_⟩ <;> rintro rfl <;> simp only [intCond, hsa, hsb]
  · exact Bool.beq_eq_decide_eq ..
  · exact Bool.eq_iff_iff.2 (by simp)

theorem fpCondGives_fpCmp (f : Fmt) {cond : Nat} (hcond : cond ≤ 7) (a b : Nat) : FpCondGives cond (f.decode a) (f.decode b) (fpCmp f cond a b).1 := by
  unfold FpCondGives fpCmp
  constructor
  · intro hnan
    have hun : ((f.decode a).isNan || (f.decode b).isNan) = true := by simpa using hnan
    simp only [hun]
    interval_cases cond <;> rfl
  · intro ha hb
    simp only [ha, hb, Bool.or_self]
    refine ⟨?_, ?_, ?_, ?_, ?_, ?_, ?_, ?_⟩ <;> rintro rfl <;> simp

theorem fpCmp_flags (f : Fmt) (cond a b : Nat) :
    (2 ≤ cond → cond ≤ 5 → (fpCmp f cond a b).2 = if (f.decode a).isNan || (f.decode b).isNan then flInvalid else flNone) ∧
    (cond < 2 ∨ 5 < cond → (fpCmp f cond a b).2 = if (f.decode a).isSnan || (f.decode b).isSnan then flInvalid else flNone) := by
  refine ⟨fun hlow hup => if_pos ⟨hlow, hup⟩, fun hout => (if_neg (by omega)).trans ?_⟩
  unfold snanFlag
  simp

theorem cond_le_of_static {n : Nat} {w : Word64} (h : staticErrs n w = []) (hrow : rowOf w = .fpCmp) : fMod w / 8 ≤ 7 := by
  have hres := bodyReserved_of_static h
  unfold bodyReserved at hres
  simp only [hrow, Bool.or_eq_false_iff] at hres
  have hcond := hres.2
  simpa using hcond

theorem intCmp_writes : GroupRow .intCmp .intCmp fun _ _ c w x => ∃ v, WroteP w (fD w) v c.gr x ∧ x.fpstat = c.gr.fpstat ∧
    (fMaj w ≠ 6 → ∀ l, CondGives 32 (fMod w / 8) (c.gr.rdA w l 1) (c.gr.rdB w l 1) (v l)) ∧
    (fMaj w = 6 → ∀ l, CondGives 64 (fMod w / 8) (c.gr.rdA w l 2) (c.gr.rdB w l 2) (v l)) := by
  refine groupRow_of_issueAlu (f := fun _ w _ c => doIntCmp w c.gr) (by decide) (fun _ _ _ => rfl) fun s g w c u h hrow => ?_
  unfold doIntCmp
  refine ⟨_, wroteP_eachPred _, fpstat_eachPred _ fun _ => rfl, fun hmaj l => ?_, fun hmaj l => ?_⟩
  · rw [if_neg hmaj]
    exact condGives_intCond _ (by decide) (rd_lt ..) (rdB_lt (by decide))
  · rw [if_pos hmaj]
    exact condGives_intCond _ (by decide) (rd_lt ..) (rdB_lt (by decide))

theorem fpCmp_writes : GroupRow .fpCmp .fpCmp fun _ _ c w x => ∀ f n, (fMaj w ≠ 9 → f = Fmt.f32 ∧ n = 1) → (fMaj w = 9 → f = Fmt.f64 ∧ n = 2) →
    ∃ v, WroteP w (fD w) v c.gr x ∧ (∀ l, FpCondGives (fMod w / 8) (f.decode (c.gr.rdA w l n)) (f.decode (c.gr.rdB w l n)) (v l)) ∧
      Flagged (if isUniform w then [c.gr.low] else c.gr.lanes w) (fun l => (fpCmp f (fMod w / 8) (c.gr.rdA w l n) (c.gr.rdB w l n)).2) c.gr x := by
  refine groupRow_of_issueAlu (f := fun _ w _ c => doFpCmp w c.gr) (by decide) (fun _ _ _ => rfl) fun s g w c u h hrow f n hsingle hdouble => ?_
  have hresult : doFpCmp w c.gr = c.gr.eachPred w fun l => fpCmp f (fMod w / 8) (c.gr.rdA w l n) (c.gr.rdB w l n) := by
    unfold doFpCmp
    by_cases hmaj : fMaj w = 9
    · obtain ⟨rfl, rfl⟩ := hdouble hmaj
      simp only [hmaj, if_true]
    · obtain ⟨rfl, rfl⟩ := hsingle hmaj
      simp only [hmaj, if_false]
  rw [hresult]
  exact ⟨_, wroteP_eachPred _, fun l => fpCondGives_fpCmp f (cond_le_of_static h.static hrow) _ _, flagged_eachPred _⟩

/-! Votes (R94, R133). -/

section
variable {x : Group} {w : Word64} {ls : List Nat} {p : Nat → Bool}

/-- What the participating lanes agree on, by the vote's mode. -/
def voteOf (mode : Nat) (ls : List Nat) (p : Nat → Bool) : Bool :=
  match mode with
  | 0 => ls.all p
  | 1 => ls.any p
  | _ => ls.all p || !ls.any p

theorem all_or_none (ls : List Nat) (p : Nat → Bool) : (ls.all p || !ls.any p) = decide (∀ i ∈ ls, ∀ j ∈ ls, p i = p j) := by
  rw [Bool.eq_iff_iff, decide_eq_true_iff, Bool.or_eq_true, List.all_eq_true, Bool.not_eq_true', List.any_eq_false]
  constructor
  · rintro (h | h) i hi j hj
    · rw [h i hi, h j hj]
    · rw [Bool.eq_false_iff.2 (h i hi), Bool.eq_false_iff.2 (h j hj)]
  · intro h
    by_cases hany : ∃ i ∈ ls, p i = true
    · obtain ⟨i, hi, hp⟩ := hany
      exact .inl fun j hj => (h j hj i hi).trans hp
    · exact .inr fun i hi hp => hany ⟨i, hi, hp⟩

theorem voteOf_eq {mode : Nat} {yes : Bool} (hlt : mode < 4) (h0 : mode = 0 → yes = ls.all p) (h1 : mode = 1 → yes = ls.any p)
    (h2 : mode = 2 → yes = decide (∀ i ∈ ls, ∀ j ∈ ls, p i = p j)) (h3 : mode ≠ 3) : voteOf mode ls p = yes := by
  unfold voteOf
  interval_cases mode
  · exact (h0 rfl).symm
  · exact (h1 rfl).symm
  · exact (all_or_none ls p).trans (h2 rfl).symm
  · exact absurd rfl h3

theorem doVote_eq (x : Group) (w : Word64) (hls : ls = lanesOf (x.active &&& x.guard w)) (hp : p = fun k => x.pr k (fA w) != (fMod w / 4 % 2 == 1)) :
    doVote w x = if ls = [] then x
      else if fMod w % 4 = 3 then x.setU (fD w) (BitVec.ofNat 32 ((ls.filter p).foldl (fun a l => a + 2 ^ l) 0))
      else if fDU w then x.setU (fD w) (if voteOf (fMod w % 4) ls p then 1 else 0)
      else x.giveP (fD w) ls fun _ => voteOf (fMod w % 4) ls p := by
  subst hls hp
  rfl

theorem ballot_bits (hls : ls.Nodup) {i : Nat} (hi : i < 32) :
    (BitVec.ofNat 32 ((ls.filter p).foldl (fun a l => a + 2 ^ l) 0)).getLsbD i = (decide (i ∈ ls) && p i) := by
  rw [BitVec.getLsbD_ofNat, testBit_sum_two_pow (hls.filter _)]
  simp [hi, List.mem_filter]

theorem grpVote_writes : GroupRow .grpVote .grpVote fun _ _ c w x =>
    ∀ ls p, ls = lanesOf (c.gr.active &&& c.gr.guard w) → p = (fun k => c.gr.pr k (fA w) != (fMod w / 4 % 2 == 1)) →
      x.fpstat = c.gr.fpstat ∧ GoesOn c.gr x ∧ (ls = [] → Kept [] [] [] c.gr x) ∧
      (ls ≠ [] → fMod w % 4 = 3 → Kept [] [fD w] [] c.gr x ∧ (fD w ≠ 255 → ∀ i, i < 32 → (x.ur (fD w)).getLsbD i = (decide (i ∈ ls) && p i))) ∧
      (ls ≠ [] → ∀ yes, (fMod w % 4 = 0 → yes = ls.all p) → (fMod w % 4 = 1 → yes = ls.any p) → (fMod w % 4 = 2 → yes = decide (∀ i ∈ ls, ∀ j ∈ ls, p i = p j)) →
        fMod w % 4 ≠ 3 →
        (fDU w = true → Kept [] [fD w] [] c.gr x ∧ (fD w ≠ 255 → x.ur (fD w) = if yes then 1 else 0)) ∧
        (fDU w = false → Kept [] [] [fD w] c.gr x ∧ (∀ l, l ∉ ls → ∀ i, x.pr l i = c.gr.pr l i) ∧ (fD w ≠ 255 → ∀ l ∈ ls, x.pr l (fD w) = yes))) := by
  refine groupRow_of_issueAlu (f := fun _ w _ c => doVote w c.gr) (by decide) (fun _ _ _ => rfl) fun s g w c u h hrow ls p hls hp => ?_
  have hlt : ∀ l ∈ ls, l < 32 := fun l hl => BitVec.lt_of_getLsbD (mem_lanesOf.1 (hls ▸ hl))
  have hset : ∀ v, (c.gr.setU (fD w) v).next.fpstat = c.gr.fpstat ∧ GoesOn c.gr (c.gr.setU (fD w) v).next := fun v =>
    ⟨(fpstat_next _).trans (fpstat_setU ..), goesOn_next_of_frame (frame_setU ..)⟩
  rw [doVote_eq c.gr w hls hp]
  by_cases hnil : ls = []
  · rw [if_pos hnil]
    exact ⟨fpstat_next _, goesOn_next _, fun _ => kept_next _, fun h => absurd hnil h, fun h => absurd hnil h⟩
  rw [if_neg hnil]
  by_cases h3 : fMod w % 4 = 3
  · rw [if_pos h3]
    refine ⟨(hset _).1, (hset _).2, fun h => absurd h hnil, fun _ _ => ⟨(kept_setU ..).next, fun hne i hi => ?_⟩, fun _ _ _ _ _ h => absurd h3 h⟩
    rw [ur_next, ur_setU_self _ _ hne]
    exact ballot_bits (hls ▸ nodup_lanesOf _) hi
  rw [if_neg h3]
  have hmode : fMod w % 4 < 4 := Nat.mod_lt _ (by decide)
  by_cases hu : fDU w = true
  · rw [if_pos hu]
    refine ⟨(hset _).1, (hset _).2, fun h => absurd h hnil, fun _ h => absurd h h3, fun _ yes h0 h1 h2 _ => ⟨fun _ => ⟨(kept_setU ..).next, fun hne => ?_⟩, fun h => ?_⟩⟩
    · rw [ur_next, ur_setU_self _ _ hne, voteOf_eq hmode h0 h1 h2 h3]
    · rw [hu] at h
      cases h
  · rw [if_neg hu]
    refine ⟨(fpstat_next _).trans giveP_fpstat, goesOn_next_of_frame giveP_frame, fun h => absurd h hnil, fun _ h => absurd h h3,
      fun _ yes h0 h1 h2 _ => ⟨fun h => absurd h hu, fun _ => ⟨(giveP_kept hlt).next, fun l hl i => ?_, fun hne l hl => ?_⟩⟩⟩
    · rw [pr_next, giveP_pr hlt, if_neg fun h => hl h.1]
    · rw [pr_next, giveP_pr hlt, if_pos ⟨hl, rfl, hne⟩, voteOf_eq hmode h0 h1 h2 h3]

end

/-! Shuffles (R93, R133). -/

section
variable {x : Group} {w : Word64}

theorem shuffleFrom_shflSource (mode seg l k : Nat) :
    ShuffleFrom mode seg l k (shflSource mode seg l k).1 (shflSource mode seg l k).2 := by
  have hbase : l - seg * (l / seg) = l % seg := by
    have := Nat.div_add_mod l seg
    omega
  refine ⟨?_, ?_, ?_, ?_⟩ <;> rintro rfl <;> simp only [shflSource, hbase]
  · exact ⟨trivial, trivial⟩
  · split
    · next h => exact ⟨(decide_eq_true h).symm, rfl⟩
    · next h => exact ⟨(decide_eq_false h).symm, rfl⟩
  · split
    · next h => exact ⟨(decide_eq_true h).symm, rfl⟩
    · next h => exact ⟨(decide_eq_false h).symm, rfl⟩
  · exact ⟨trivial, trivial⟩

theorem setP_wr (x : Group) (l i : Nat) (b : Bool) (m : Nat) (u : Bool) (j n v : Nat) : (x.setP l i b).wr m u j n v = (x.wr m u j n v).setP l i b := by
  induction n generalizing x j v with
  | zero => rfl
  | succ n ih =>
    have hset : ∀ z : Word, (if u then (x.setP l i b).setU j z else (x.setP l i b).setV m j z) = (if u then x.setU j z else x.setV m j z).setP l i b := fun z => by
      unfold Group.setU Group.setV Group.setP
      split <;> split <;> split <;> rfl
    unfold Group.wr
    dsimp only
    rw [hset, ih]

theorem setP_give (x : Group) (l i : Nat) (b : Bool) (u : Bool) (j n : Nat) (vals : List (Nat × Nat)) : (x.setP l i b).give u j n vals = (x.give u j n vals).setP l i b := by
  induction vals generalizing x with
  | nil => rfl
  | cons e vals ih =>
    show ((x.setP l i b).wr e.1 u j n e.2).give u j n vals = _
    rw [setP_wr, ih]
    rfl

/-- The value that a lane's source lane holds, and whether that is in range. -/
def shflVal (x : Group) (w : Word64) (l : Nat) : Nat := x.rd (shflSource (fMod w % 4) (2 ^ getBits (fMod w) 2 3) l (x.rdB w l 1)).1 (fAU w) (fA w) 1
def shflIn (x : Group) (w : Word64) (l : Nat) : Bool := (shflSource (fMod w % 4) (2 ^ getBits (fMod w) 2 3) l (x.rdB w l 1)).2

theorem doShfl_eq (hactive : x.active ≠ 0) : doShfl w x =
    (x.give (fDU w) (fD w) 1 (laneVals x w (shflVal x w))).giveP (fC w) (predLanes x w) fun l => shflIn x w (predFrom x w l) := by
  by_cases huni : isUniform w = true
  · unfold doShfl Group.each predLanes predFrom laneVals
    simp only [lanes_uniform huni hactive, huni, if_true]
    rfl
  · have hfold : ∀ (ls : List Nat) (a : Group), ls.foldl (fun acc l => (acc.wrD w l 1 (shflVal x w l)).setP l (fC w) (shflIn x w l)) a =
        (a.give (fDU w) (fD w) 1 (ls.map fun l => (l, shflVal x w l))).giveP (fC w) ls (shflIn x w) := by
      intro ls
      induction ls with
      | nil => exact fun _ => rfl
      | cons l ls ih =>
        intro a
        rw [List.foldl_cons, ih, setP_give]
        rfl
    unfold doShfl Group.each predLanes predFrom laneVals
    simp only [if_neg huni]
    exact hfold _ x

theorem grpShfl_writes : GroupRow .grpShfl .grpShfl fun _ _ c w x =>
    Kept (dRegs w 1 false) (dRegs w 1 true) [fC w] c.gr x ∧ LanesOnly w c.gr x ∧ GoesOn c.gr x ∧ x.fpstat = c.gr.fpstat ∧
    ∃ (src : Nat → Nat) (inRange : Nat → Bool), (∀ l, ShuffleFrom (fMod w % 4) (2 ^ (fMod w / 4 % 8)) l (c.gr.rdB w l 1) (src l) (inRange l)) ∧
      (fD w ≠ 255 → ∀ l ∈ c.gr.lanes w, x.rd l (fDU w) (fD w) 1 = c.gr.rd (src l) (fAU w) (fA w) 1) ∧
      (fC w ≠ 255 → isUniform w = false → (∀ l ∈ c.gr.lanes w, x.pr l (fC w) = inRange l) ∧ ∀ l, l ∉ c.gr.lanes w → x.pr l (fC w) = c.gr.pr l (fC w)) ∧
      (fC w ≠ 255 → isUniform w = true → (∀ l ∈ lanesOf c.gr.active, x.pr l (fC w) = inRange c.gr.low) ∧ ∀ l, l ∉ lanesOf c.gr.active → x.pr l (fC w) = c.gr.pr l (fC w)) := by
  refine groupRow_of_issueAlu (f := fun _ w _ c => doShfl w c.gr) (by decide) (fun _ _ _ => rfl) fun s g w c u h hrow => ?_
  have hfits : fD w ≠ 255 → fD w + 1 ≤ 255 := dest_fits h.static (by unfold opnds; rw [hrow]; exact List.mem_cons_self ..) (by decide)
  let y := c.gr.give (fDU w) (fD w) 1 (laneVals c.gr w (shflVal c.gr w))
  obtain ⟨hread, hkept, hothers, hgoes⟩ : WroteD w 1 (shflVal c.gr w) c.gr y.next := wroteD_give _ hfits rfl rfl rfl rfl
  have hpred : ∀ m j, y.pr m j = c.gr.pr m j := fun m j => (give_kept laneVals_lt).2.2 m j List.not_mem_nil
  have hpr : ∀ m j, (y.giveP (fC w) (predLanes c.gr w) fun l => shflIn c.gr w (predFrom c.gr w l)).next.pr m j =
      if m ∈ predLanes c.gr w ∧ j = fC w ∧ fC w ≠ 255 then shflIn c.gr w (predFrom c.gr w m) else c.gr.pr m j := fun m j => by
    rw [pr_next, giveP_pr predLanes_lt, hpred]
  have hregs : Kept [] [] [fC w] y.next (y.giveP (fC w) (predLanes c.gr w) fun l => shflIn c.gr w (predFrom c.gr w l)).next := by
    have hk := (giveP_kept (x := y) (i := fC w) (f := fun l => shflIn c.gr w (predFrom c.gr w l)) (predLanes_lt (x := c.gr) (w := w))).next
    exact ⟨fun l i hl hi => (hk.1 l i hl hi).trans (vr_next ..).symm, fun i hi => (hk.2.1 i hi).trans (ur_next ..).symm, fun l i hi => (hk.2.2 l i hi).trans (pr_next ..).symm⟩
  rw [doShfl_eq (issueCtx_active h.2.1)]
  refine ⟨(hkept.mono (List.Subset.refl _) (List.Subset.refl _) (List.nil_subset _)).trans (hregs.mono (List.nil_subset _) (List.nil_subset _) (List.Subset.refl _)),
    fun l hl hout i => (hregs.1 l i hl List.not_mem_nil).trans (hothers l hl hout i),
    goesOn_next_of_frame (giveP_frame.trans (give_frame laneVals_lt)), (fpstat_next _).trans (giveP_fpstat.trans (give_fpstat laneVals_lt)),
    _, _, fun l => shuffleFrom_shflSource _ _ l _, fun hne l hl => ?_, fun hne huni => ⟨fun l hl => ?_, fun l hl => ?_⟩, fun hne huni => ⟨fun l hl => ?_, fun l hl => ?_⟩⟩
  · refine (rd_congr (fun i _ => hregs.1 l i (lanes_lt hl) List.not_mem_nil) (fun i _ => hregs.2.1 i List.not_mem_nil) _ _).trans ((hread hne l hl).trans ?_)
    exact Nat.mod_eq_of_lt (rd_lt ..)
  · rw [hpr, if_pos ⟨predLanes_each huni ▸ hl, rfl, hne⟩, predFrom, huni]
    rfl
  · rw [hpr, if_neg fun h => hl (predLanes_each huni ▸ h.1)]
  · rw [hpr, if_pos ⟨predLanes_uniform huni ▸ hl, rfl, hne⟩, predFrom, huni]
    rfl
  · rw [hpr, if_neg fun h => hl (predLanes_uniform huni ▸ h.1)]

end

/-- Settles O9, row by row. -/
theorem predicateRowsWriteTheirResult : Obligations.PredicateRowsWriteTheirResult :=
  ⟨intCmp_writes, fpCmp_writes, fun f cond a b _ e => e ▸ fpCmp_flags f cond a b, grpVote_writes, grpShfl_writes⟩

end Sys2Proof.Machine
end

section
namespace Sys2Proof.Machine

/-! Control flow (R73 to R75, R107, R113, R114). -/

section
variable {x : Group} {w : Word64}

/-- With an empty reconvergence stack a group stands where it goes. -/
theorem goto_pc_of_nil (h : x.stack = []) (pc : Nat) : (x.goto pc).pc = pc := by
  unfold Group.goto Group.settle
  dsimp only
  rw [h]

theorem kept_goto (x : Group) (pc : Nat) : Kept [] [] [] x (x.goto pc) :=
  ⟨fun l i _ _ => goto_keeps (·.vr l i) (fun _ _ _ _ => rfl) x _, fun i _ => goto_keeps (·.ur i) (fun _ _ _ _ => rfl) x _,
    fun l i _ => goto_keeps (·.pr l i) (fun _ _ _ _ => rfl) x _⟩

/-- A path with lanes that has not reached its reconvergence address goes on (R73). -/
theorem goto_of_entry {rc tk pc : Nat} {m : BitVec 32} {rest : List Frame} (hstack : x.stack = .entry rc tk m :: rest) (hpc : rc ≠ pc) (hactive : x.active ≠ 0) :
    x.goto pc = { x with pc := pc } := by
  unfold Group.goto Group.settle
  dsimp only
  rw [hstack]
  exact if_neg fun h => h.elim (fun h => hpc h.symm) hactive

/-- Lanes that a branch does not take go on. -/
theorem left_ne_zero {a b : BitVec 32} (h : a &&& b ≠ a) : a &&& ~~~(a &&& b) ≠ 0 := fun hzero => h <| by
  refine BitVec.eq_of_getLsbD_eq fun i hi => ?_
  have hbit := congrArg (BitVec.getLsbD · i) hzero
  simp only [BitVec.getLsbD_and, BitVec.getLsbD_not, hi, decide_true, Bool.true_and] at hbit ⊢
  have hz : (0 : BitVec 32).getLsbD i = false := BitVec.getLsbD_zero
  rw [hz] at hbit
  revert hbit
  cases a.getLsbD i <;> cases b.getLsbD i <;> decide

end

theorem ctlNop_goes : GroupRow .ctlNop .ctlNop fun _ _ c _ x => x = c.gr.goto (c.gr.pc + 8) :=
  groupRow_of_issueAlu (f := fun _ _ _ c => c.gr) (by decide) (fun _ _ _ => rfl) fun _ _ _ _ _ _ _ => rfl

/-- A value of two uniform registers, written at `i`. -/
theorem wr_pair (x : Group) {i : Nat} (hi : i + 1 < 255) (v : Nat) :
    (x.wr 0 true i 2 v).ur i = BitVec.ofNat 32 v ∧ (x.wr 0 true i 2 v).ur (i + 1) = BitVec.ofNat 32 (v / 2 ^ 32) ∧
    Kept [] [i, i + 1] [] x (x.wr 0 true i 2 v) ∧ (x.wr 0 true i 2 v).frame = x.frame := by
  obtain ⟨hv, hu, hp, hframe, _⟩ := wr_reads x (l := 0) (by decide) true i 2 v
  refine ⟨(hu i).trans ?_, (hu (i + 1)).trans ?_, ⟨fun l j hl _ => (hv l j hl).trans (if_neg (by simp)), fun j hj => (hu j).trans (if_neg fun h => hj ?_), fun l j _ => hp l j⟩, hframe⟩
  · rw [if_pos ⟨rfl, le_rfl, by omega, by omega⟩, Nat.sub_self, Nat.mul_zero, pow_zero, Nat.div_one]
  · rw [if_pos ⟨rfl, by omega, by omega, by omega⟩, Nat.add_sub_cancel_left, Nat.mul_one]
  · simp only [List.mem_cons, List.not_mem_nil, or_false]
    omega

theorem brLink_goes : GroupRow .brLink .brLink fun _ _ c w x =>
    x.ur 62 = BitVec.ofNat 32 (c.gr.pc + 8) ∧ x.ur 63 = BitVec.ofNat 32 ((c.gr.pc + 8) / 2 ^ 32) ∧ Kept [] [62, 63] [] c.gr x ∧
    (c.gr.stack = [] → x.pc = branchTo c.gr.pc (fieldOf w 47 24)) := by
  intro s g w c u h hrow
  have hpair := wr_pair c.gr (i := 62) (by decide) (c.gr.pc + 8)
  refine h.goesGroup (row := fun t => t.rowBrLink g w) hrow (by decide) rfl (h.issue_eq _) ?_
  generalize c.gr.wr 0 true 62 2 (c.gr.pc + 8) = y at hpair ⊢
  obtain ⟨hlow, hhigh, hkept, hframe⟩ := hpair
  have hgoto := kept_goto y (branchTo c.gr.pc (fieldOf w 47 24))
  exact ⟨(hgoto.2.1 62 List.not_mem_nil).trans hlow, (hgoto.2.1 63 List.not_mem_nil).trans hhigh,
    hkept.trans (hgoto.mono (List.nil_subset _) (List.nil_subset _) (List.nil_subset _)), fun hnil => goto_pc_of_nil (x := y) ((congrArg Group.stack hframe :).trans hnil) _⟩

theorem ctlRsr_writes : GroupRow .ctlRsr .ctlRsr fun g u c w x =>
    WroteD w (if fA w = 0x10 then 2 else 1) (fun l => u.special g c l (fA w)) c.gr x ∧
    (c.gr.lanes w ≠ [] → getBits (fMod w) 0 1 = 1 → x.fpstat = 0) ∧ (getBits (fMod w) 0 1 = 0 → x.fpstat = c.gr.fpstat) := by
  refine groupRow_of_issueAlu (f := fun g w t c =>
    let gr := c.gr.each (c.gr.lanes w) fun _ l a => a.wrD w l (if fA w = 0x10 then 2 else 1) (t.special g c l (fA w))
    if c.gr.lanes w ≠ [] ∧ getBits (fMod w) 0 1 = 1 then { gr with fpstat := 0 } else gr) (by decide) (fun _ _ _ => rfl) fun s g w c u h hrow => ?_
  have hgive : c.gr.each (c.gr.lanes w) (fun _ l a => a.wrD w l (if fA w = 0x10 then 2 else 1) (u.special g c l (fA w))) =
      c.gr.give (fDU w) (fD w) (if fA w = 0x10 then 2 else 1) (laneVals c.gr w fun l => u.special g c l (fA w)) := by
    unfold Group.give laneVals
    rw [List.foldl_map]
    rfl
  have hfits : fD w ≠ 255 → fD w + (if fA w = 0x10 then 2 else 1) ≤ 255 := by
    refine dest_fits h.static ?_ (by split <;> decide)
    unfold opnds
    rw [hrow]
    exact List.mem_singleton_self _
  dsimp only
  rw [hgive]
  by_cases hclear : c.gr.lanes w ≠ [] ∧ getBits (fMod w) 0 1 = 1
  · rw [if_pos hclear]
    exact ⟨wroteD_give _ hfits rfl rfl rfl rfl, fun _ _ => fpstat_next _, fun h => absurd (hclear.2.symm.trans h) Nat.one_ne_zero⟩
  · rw [if_neg hclear]
    exact ⟨wroteD_give _ hfits rfl rfl rfl rfl, fun hl hm => absurd ⟨hl, hm⟩ hclear, fun _ => (fpstat_next _).trans (give_fpstat laneVals_lt)⟩

section
variable {s u : State} {g : GRef} {w : Word64} {c : Ctx}

theorem ctlJmp_goes (h : Issues s g w c u) (hrow : rowOf w = .ctlJmp) (halign : c.gr.rd 0 true (fA w) 2 % 8 = 0) :
    Goes (.ctlJmp g w) s u [.regs, .cores, .launches] fun t => OnlyGroup g u t ∧ OnlyCounters u t ∧
      GroupAt g t fun x => x = c.gr.goto (c.gr.rd 0 true (fA w) 2) :=
  h.goesGroup (row := fun t => t.rowCtlJmp g w) hrow (by decide) rfl ((h.issue_eq _).trans (if_pos halign)) rfl

theorem br_goes (h : Issues s g w c u) (hrow : rowOf w = .br)
    (hdepth : c.gr.active &&& c.gr.guard w = c.gr.active ∨ c.gr.active &&& c.gr.guard w = 0 ∨ c.gr.depth < 32) :
    Goes (.br g w) s u [.regs, .cores, .launches] fun t => OnlyGroup g u t ∧ OnlyCounters u t ∧ GroupAt g t fun x =>
      Kept [] [] [] c.gr x ∧
      (c.gr.active &&& c.gr.guard w = c.gr.active → x = c.gr.goto (branchTo c.gr.pc (fieldOf w 47 24))) ∧
      (c.gr.active &&& c.gr.guard w = 0 → c.gr.active ≠ 0 → x = c.gr.goto (c.gr.pc + 8)) ∧
      (c.gr.active &&& c.gr.guard w ≠ c.gr.active → c.gr.active &&& c.gr.guard w ≠ 0 →
        branchTo c.gr.pc (fieldOf w 23 0) ≠ c.gr.pc + 8 →
        x.active = c.gr.active &&& ~~~(c.gr.active &&& c.gr.guard w) ∧ x.pc = c.gr.pc + 8 ∧
        x.stack = .entry (branchTo c.gr.pc (fieldOf w 23 0)) (branchTo c.gr.pc (fieldOf w 47 24)) (c.gr.active &&& c.gr.guard w) :: c.gr.stack) := by
  by_cases hall : c.gr.active &&& c.gr.guard w = c.gr.active
  · refine h.goesGroup (row := fun t => t.rowBr g w) hrow (by decide) rfl ((h.issue_eq _).trans (if_pos hall))
      ⟨kept_goto .., fun _ => rfl, fun hnone hne => absurd (hall.symm.trans hnone) hne, fun hne => absurd hall hne⟩
  by_cases hnone : c.gr.active &&& c.gr.guard w = 0
  · refine h.goesGroup (row := fun t => t.rowBr g w) hrow (by decide) rfl ((h.issue_eq _).trans ((if_neg hall).trans (if_pos hnone)))
      ⟨kept_goto .., fun h => absurd h hall, fun _ _ => rfl, fun _ h => absurd hnone h⟩
  have hroom : c.gr.depth < 32 := (hdepth.resolve_left hall).resolve_left hnone
  refine h.goesGroup (row := fun t => t.rowBr g w) hrow (by decide) rfl ((h.issue_eq _).trans ((if_neg hall).trans ((if_neg hnone).trans (if_pos hroom))))
    ⟨Kept.next (.of_tables rfl rfl rfl), fun h => absurd h hall, fun h => absurd h hnone, fun _ _ hrc => ?_⟩
  have hstays := goto_of_entry (x := { c.gr with
    active := c.gr.active &&& ~~~(c.gr.active &&& c.gr.guard w)
    stack := .entry (branchTo c.gr.pc (fieldOf w 23 0)) (branchTo c.gr.pc (fieldOf w 47 24)) (c.gr.active &&& c.gr.guard w) :: c.gr.stack }) rfl hrc (left_ne_zero hall)
  unfold Group.next
  rw [hstays]
  exact ⟨rfl, rfl, rfl⟩

end

/-- Settles O12, row by row. -/
theorem controlRowsMoveTheGroup : Obligations.ControlRowsMoveTheGroup :=
  ⟨ctlNop_goes, brLink_goes, ctlRsr_writes, fun _ _ _ _ _ => ctlJmp_goes, fun _ _ _ _ _ => br_goes⟩

end Sys2Proof.Machine
end

section
namespace Sys2Proof.Machine

/-! Groups as the operations of the pending set leave them (R77, R78, R95). -/

section
variable {s t u : State} {g h : GRef} {p : Nat}

/-- Two references name one group: the same core, and the same key in it. -/
def SameGroup (h g : GRef) : Prop := h.core = g.core ∧ gkey h.sched h.slot = gkey g.sched g.slot

theorem SameGroup.refl (g : GRef) : SameGroup g g := ⟨rfl, rfl⟩

theorem not_sameGroup (hg : okGroup g = true) (hh : okGroup h = true) (hne : h ≠ g) : ¬SameGroup h g := fun e => hne (State.gkey_inj hg hh e.2 e.1)

theorem SameGroup.group_eq (e : SameGroup h g) (s : State) : s.group? h = s.group? g := by
  unfold State.group?
  rw [e.1, e.2]

theorem group_setGroup_other (s : State) (x : Group) (hne : ¬SameGroup h g) : (s.setGroup g x).group? h = s.group? h := by
  unfold State.group? State.setGroup
  by_cases hc : h.core = g.core
  · rw [hc, State.core_modCore_self]
    exact tfind_tset_ne _ _ fun e => hne ⟨hc, e⟩
  · rw [State.core_modCore_ne _ _ hc]

theorem group_modGroup (s : State) (g : GRef) (f : Group → Group) : (s.modGroup g f).group? g = (s.group? g).map f := by
  unfold State.modGroup
  cases hx : s.group? g with
  | none => exact hx
  | some x => exact State.group_setGroup_self ..

theorem group_modGroup_other (s : State) (f : Group → Group) (hne : ¬SameGroup h g) : (s.modGroup g f).group? h = s.group? h := by
  unfold State.modGroup
  split
  · exact group_setGroup_other s _ hne
  · rfl

theorem sched_modGroup (s : State) (g : GRef) (f : Group → Group) (q : Nat) : ((s.modGroup g f).core q).scheds = (s.core q).scheds := by
  unfold State.modGroup State.setGroup
  split
  · by_cases hq : q = g.core
    · rw [hq, State.core_modCore_self]
      rfl
    · rw [State.core_modCore_ne _ _ hq]
  · rfl

theorem sched_setSched_self (c : Core) (k : Nat) (x : Sched) : (c.setSched k x).sched k = x := tget_tput_self _ _ _ _

/-- A group is touched alone by what changes its record. -/
theorem onlyGroup_modGroup (s : State) (hg : okGroup g = true) (f : Group → Group) : OnlyGroup g s (s.modGroup g f) :=
  ⟨fun _ hr hne => group_modGroup_other s f (not_sameGroup hg hr hne), bare_modGroup s g f⟩

theorem onlyGroup_modCore (g : GRef) (s : State) {p : Nat} {f : Core → Core} (hf : (f (s.core p)).groups = (s.core p).groups) (hb : (f (s.core p)).bare = (s.core p).bare) :
    OnlyGroup g s (s.modCore p f) := ⟨fun _ _ _ => group_modCore s hf _, bare_modCore hb⟩

/-! A group that goes to the pending set (R77). -/

/-- The events that a group's leaving the active set counts (R506). -/
def State.parkEvents (s : State) (g : GRef) (w : Wait) : State :=
  match s.group? g with
  | some x =>
    let part := match s.launch? x.launch with
      | some l => l.part
      | none => 0
    let u := s.pmEvent g.core evPending part 1
    if w = Wait.residency then u.pmEvent g.core evResidency part 1 else u
  | none => s

theorem park_eq (s : State) (g : GRef) (w : Wait) (n : Need) : s.park g w n =
    ((s.parkEvents g w).modGroup g fun x => { x with wait := w, need := n }).modCore g.core fun c =>
      c.setSched g.sched { c.sched g.sched with active := (c.sched g.sched).active.filter (· != g.slot), ready := (c.sched g.sched).ready.filter (· != g.slot) } := rfl

theorem parkEvents_keeps (hg : okCore g.core = true) (s : State) (w : Wait) :
    OnlyGroup g s (s.parkEvents g w) ∧ OnlyCounters s (s.parkEvents g w) ∧ (s.parkEvents g w).group? g = s.group? g := by
  have hpm : ∀ (s : State) ev part k, OnlyGroup g s (s.pmEvent g.core ev part k) ∧ OnlyCounters s (s.pmEvent g.core ev part k) ∧
      (s.pmEvent g.core ev part k).group? g = s.group? g := fun s ev part k => ⟨onlyGroup_pmEvent .., onlyCounters_pmEvent s ev part k hg, group_pmEvent ..⟩
  unfold State.parkEvents
  split
  · dsimp only
    split
    · obtain ⟨h1, h2, h3⟩ := hpm s evPending _ 1
      obtain ⟨k1, k2, k3⟩ := hpm (s.pmEvent g.core evPending _ 1) evResidency _ 1
      exact ⟨h1.trans k1, h2.trans k2, k3.trans h3⟩
    · exact hpm ..
  · exact ⟨.refl .., .refl _, rfl⟩

theorem okCore_of_okGroup (hg : okGroup g = true) : okCore g.core = true := by
  unfold okGroup at hg
  simp only [Bool.and_eq_true] at hg
  exact hg.1.1

/-- A group that goes to the pending set keeps all but what it waits for. -/
theorem park_keeps (hg : okGroup g = true) (s : State) (w : Wait) (n : Need) :
    OnlyGroup g s (s.park g w n) ∧ OnlyCounters s (s.park g w n) ∧ (s.park g w n).group? g = (s.group? g).map ({ · with wait := w, need := n }) := by
  obtain ⟨honly, hcount, hgroup⟩ := parkEvents_keeps (okCore_of_okGroup hg) s w
  rw [park_eq]
  refine ⟨(honly.trans (onlyGroup_modGroup _ hg _)).trans (onlyGroup_modCore g _ rfl rfl),
    (hcount.trans (.of_regs ((chg_modGroup _ _ _).1.regs_eq (by decide)))).trans (.of_regs ((chg_modCore _ _ _).1.regs_eq (by decide))), ?_⟩
  rw [group_modCore _ rfl, group_modGroup, hgroup]

theorem pending_park (s : State) (g : GRef) (w : Wait) (n : Need) : Pending g (s.park g w n) := by
  unfold Pending
  rw [park_eq, State.core_modCore_self, sched_setSched_self]
  simp

/-! A group's arrival at a barrier (R240). -/

/-- The group has completed the fence of its arrival; at a cluster barrier L1 is dropped. -/
def State.arrivedAs (s : State) (g : GRef) (x : Group) (wide : Bool) : State :=
  if wide then (s.setGroup g { x with fenced := true }).dropL1 g.core else s.setGroup g { x with fenced := true }

theorem arrive_eq {x : Group} {wide : Bool} (hx : s.group? g = some x) (hwait : x.wait = .barrier wide) (hnew : x.fenced = false)
    (hreach : s.reached g x.uid (if wide then 1 else 0) = true) (hown : (s.core g.core).ownWrites g.core x.block x.uid = false) :
    s.arrive g = s.arrivedAs g x wide := by
  have hset : s.modGroup g (fun y => { y with fenced := true }) = s.setGroup g { x with fenced := true } := by
    unfold State.modGroup
    rw [hx]
  unfold State.arrive
  rw [hx]
  dsimp only
  rw [hwait]
  dsimp only
  rw [if_pos ⟨hnew, hreach, hown⟩, hset]
  rfl

theorem arrive_cases (s : State) (g : GRef) : s.arrive g = s ∨ ∃ x wide, s.group? g = some x ∧ x.wait = .barrier wide ∧ s.arrive g = s.arrivedAs g x wide := by
  cases hx : s.group? g with
  | none =>
    left
    unfold State.arrive
    rw [hx]
  | some x =>
    by_cases hwait : ∃ wide, x.wait = .barrier wide
    · obtain ⟨wide, hwait⟩ := hwait
      by_cases hall : x.fenced = false ∧ s.reached g x.uid (if wide then 1 else 0) = true ∧ (s.core g.core).ownWrites g.core x.block x.uid = false
      · exact .inr ⟨x, wide, rfl, hwait, arrive_eq hx hwait hall.1 hall.2.1 hall.2.2⟩
      · left
        unfold State.arrive
        simp only [hx, hwait]
        exact if_neg hall
    · left
      unfold State.arrive
      rw [hx]
      dsimp only
      split
      · next wide hw => exact absurd ⟨wide, hw⟩ hwait
      · rfl

theorem l1_dropL1_self (s : State) (p : Nat) : ((s.dropL1 p).core p).l1 = [] := congrArg Core.l1 (State.core_modCore_self s p _)

/-- All of a core but its groups, its schedulers and its L1. -/
def Core.frame (c : Core) : Core := { c with groups := [], scheds := [], l1 := [] }

theorem frame_of_bare {c d : Core} (h : d.bare = c.bare) : d.frame = c.frame := congrArg (fun c : Core => { c with l1 := [] }) h

theorem l1_of_bare {c d : Core} (h : d.bare = c.bare) : d.l1 = c.l1 := (congrArg Core.l1 h :)

theorem frame_dropL1 (s : State) (p q : Nat) : ((s.dropL1 p).core q).frame = (s.core q).frame := by
  unfold State.dropL1
  by_cases hq : q = p
  · rw [hq, State.core_modCore_self]
    rfl
  · rw [State.core_modCore_ne _ _ hq]

theorem group_dropL1 (s : State) (p : Nat) (h : GRef) : (s.dropL1 p).group? h = s.group? h := group_modCore s (by rfl) h

theorem l1_dropL1 (s : State) (p q : Nat) : ((s.dropL1 p).core q).l1 = (s.core q).l1 ∨ q = p ∧ ((s.dropL1 p).core q).l1 = [] := by
  by_cases hq : q = p
  · exact .inr ⟨hq, hq ▸ l1_dropL1_self s p⟩
  · exact .inl (congrArg Core.l1 (State.core_modCore_ne _ _ hq))

theorem group_arrivedAs (s : State) (g : GRef) (x : Group) (wide : Bool) : (s.arrivedAs g x wide).group? g = some { x with fenced := true } := by
  unfold State.arrivedAs
  split
  · rw [group_dropL1, State.group_setGroup_self]
  · rw [State.group_setGroup_self]

theorem group_arrivedAs_other (s : State) (x : Group) (wide : Bool) (hne : ¬SameGroup h g) : (s.arrivedAs g x wide).group? h = s.group? h := by
  unfold State.arrivedAs
  split
  · rw [group_dropL1, group_setGroup_other s _ hne]
  · rw [group_setGroup_other s _ hne]

theorem scheds_setGroup (s : State) (g : GRef) (x : Group) (q : Nat) : ((s.setGroup g x).core q).scheds = (s.core q).scheds := by
  unfold State.setGroup
  by_cases hq : q = g.core
  · rw [hq, State.core_modCore_self]
    rfl
  · rw [State.core_modCore_ne _ _ hq]

theorem scheds_dropL1 (s : State) (p q : Nat) : ((s.dropL1 p).core q).scheds = (s.core q).scheds := by
  unfold State.dropL1
  by_cases hq : q = p
  · rw [hq, State.core_modCore_self]
  · rw [State.core_modCore_ne _ _ hq]

theorem scheds_arrivedAs (s : State) (g : GRef) (x : Group) (wide : Bool) (q : Nat) : ((s.arrivedAs g x wide).core q).scheds = (s.core q).scheds := by
  unfold State.arrivedAs
  split
  · rw [scheds_dropL1, scheds_setGroup]
  · exact scheds_setGroup ..

theorem frame_arrivedAs (s : State) (g : GRef) (x : Group) (wide : Bool) (q : Nat) : ((s.arrivedAs g x wide).core q).frame = (s.core q).frame := by
  unfold State.arrivedAs
  split
  · rw [frame_dropL1, frame_of_bare (bare_setGroup ..)]
  · exact frame_of_bare (bare_setGroup ..)

theorem l1_arrivedAs (s : State) (g : GRef) (x : Group) (wide : Bool) (q : Nat) :
    ((s.arrivedAs g x wide).core q).l1 = (s.core q).l1 ∨ wide = true ∧ q = g.core ∧ ((s.arrivedAs g x wide).core q).l1 = [] := by
  unfold State.arrivedAs
  cases wide with
  | true =>
    refine (l1_dropL1 (s.setGroup g { x with fenced := true }) g.core q).imp (fun h => h.trans (l1_of_bare (bare_setGroup ..))) fun h => ⟨rfl, h⟩
  | false => exact .inl (l1_of_bare (bare_setGroup ..))

end

/-! Lanes that exit (R75, R113). -/

section
variable {x : Group} {m : BitVec 32}

/-- Neither the running lanes nor those of a frame are of a mask. -/
def Group.Clear (x : Group) (m : BitVec 32) : Prop := x.active &&& m = 0 ∧ ∀ f ∈ x.stack, frameMask f &&& m = 0

theorem clear_or {a b : BitVec 32} (ha : a &&& m = 0) (hb : b &&& m = 0) : (a ||| b) &&& m = 0 := by
  rw [BitVec.and_comm, BitVec.and_or_distrib_left, BitVec.and_comm m a, BitVec.and_comm m b, ha, hb]
  rfl

theorem clear_not (a m : BitVec 32) : a &&& ~~~m &&& m = 0 := by
  rw [BitVec.and_assoc, BitVec.and_comm (~~~m), BitVec.and_not_self]
  exact BitVec.and_zero

theorem settle_clear (n : Nat) (h : x.Clear m) : (Group.settle n x).Clear m := by
  induction n generalizing x with
  | zero => exact h
  | succ n ih =>
    obtain ⟨hactive, hstack⟩ := h
    unfold Group.settle
    cases hs : x.stack with
    | nil => exact ⟨hactive, hstack⟩
    | cons f rest =>
      rw [hs] at hstack
      obtain ⟨hf, hrest⟩ := List.forall_mem_cons.1 hstack
      cases f with
      | entry rc tk k =>
        dsimp only
        split
        · exact ih ⟨hf, List.forall_mem_cons.2 ⟨hactive, hrest⟩⟩
        · exact ⟨hactive, hs ▸ hstack⟩
      | join rc k =>
        dsimp only
        split
        · exact ih ⟨clear_or hactive hf, hrest⟩
        · exact ⟨hactive, hs ▸ hstack⟩

theorem exitLanes_clear (x : Group) (m : BitVec 32) : (x.exitLanes m).Clear m := by
  refine ⟨clear_not _ _, fun f hf => ?_⟩
  obtain ⟨k, _, rfl⟩ := List.mem_map.1 hf
  cases k with
  | entry rc tk k => exact clear_not k m
  | join rc k => exact clear_not k m

theorem exited_next (x : Group) : x.next.exited = x.exited := goto_keeps (·.exited) (fun _ _ _ _ => rfl) x _

end

/-! A group that ends (R72, R75). -/

section
variable {s u : State} {g : GRef} {w : Word64} {c : Ctx}

theorem group_endOn (s : State) (lid : Nat) (l : Launch) (p : Nat) (h : GRef) : (s.endOn lid l p).group? h = s.group? h := by
  unfold State.endOn
  split
  · exact (group_of_core ((chg_traceLaunch ..).1.core_eq (by decide) _)).trans (group_modCore s (by rfl) h)
  · rfl

theorem group_reap (s : State) (b : Block) (h : GRef) : (s.reap b).group? h = s.group? h := by
  have hfree : ∀ ms : List (Nat × Nat × Block), (ms.foldl (fun t m => t.modCore m.1 fun c => { c with blocks := tdel c.blocks m.2.1 }) s).group? h = s.group? h := fun ms =>
    foldl_keeps (fun t : State => t.group? h = s.group? h) _ ms s rfl fun t m ht => (group_modCore t (by rfl) h).trans ht
  unfold State.reap
  dsimp only
  split
  · split
    · split
      · exact foldl_keeps (fun t : State => t.group? h = s.group? h) _ _ _ (hfree _) fun t p ht => (group_endOn ..).trans ht
      · exact hfree _
    · exact hfree _
  · rfl

theorem group_endGroup (s : State) (g : GRef) : (s.endGroup g).group? g = none := by
  have hgone : ∀ f : Sched → Sched, (s.modCore g.core fun c =>
      let d := { c with groups := tdel c.groups (gkey g.sched g.slot) }
      d.setSched g.sched (f (d.sched g.sched))).group? g = none := fun f => by
    unfold State.group?
    rw [State.core_modCore_self]
    exact tfind_tdel_self _ _
  unfold State.endGroup
  split
  · assumption
  · dsimp only
    split
    · exact hgone fun q => { q with active := q.active.filter (· != g.slot), ready := q.ready.filter (· != g.slot) }
    · split
      · rw [group_reap, group_modLaunch, group_modCore _ rfl]
        exact hgone fun q => { q with active := q.active.filter (· != g.slot), ready := q.ready.filter (· != g.slot) }
      · exact hgone fun q => { q with active := q.active.filter (· != g.slot), ready := q.ready.filter (· != g.slot) }

theorem ctlExit_result (h : Issues s g w c u) :
    s.rowCtlExit g w = (u.issued g c).settleGroup g (c.gr.exitLanes (c.gr.active &&& c.gr.guard w)).next := h.issue_eq _

theorem ctlExit_goes (h : Issues s g w c u) (hrow : rowOf w = .ctlExit) (hsome : c.gr.exited ||| (c.gr.active &&& c.gr.guard w) ≠ BitVec.allOnes 32) :
    Goes (.ctlExit g w) s u [.regs, .cores, .launches] fun t => OnlyGroup g u t ∧ OnlyCounters u t ∧ GroupAt g t fun x =>
      x.exited = c.gr.exited ||| (c.gr.active &&& c.gr.guard w) ∧ x.active &&& (c.gr.active &&& c.gr.guard w) = 0 ∧
      (∀ f ∈ x.stack, frameMask f &&& (c.gr.active &&& c.gr.guard w) = 0) ∧ Kept [] [] [] c.gr x := by
  have hexited := exited_next (c.gr.exitLanes (c.gr.active &&& c.gr.guard w))
  obtain ⟨hactive, hstack⟩ : (c.gr.exitLanes (c.gr.active &&& c.gr.guard w)).next.Clear (c.gr.active &&& c.gr.guard w) := settle_clear _ (exitLanes_clear ..)
  exact h.goesGroup (row := fun t => t.rowCtlExit g w) hrow (by decide) rfl ((ctlExit_result h).trans (if_neg (hexited ▸ hsome)))
    ⟨hexited, hactive, hstack, Kept.next (.of_tables rfl rfl rfl)⟩

theorem ctlExit_ends (h : Issues s g w c u) (hrow : rowOf w = .ctlExit) (hall : c.gr.exited ||| (c.gr.active &&& c.gr.guard w) = BitVec.allOnes 32) :
    Goes (.ctlExit g w) s u [.regs, .cores, .launches, .dbg] fun t => t.group? g = none := by
  refine h.goesRow (row := fun t => t.rowCtlExit g w) hrow (by decide) rfl ?_ ?_
  · rw [ctlExit_result h]
    exact ((chg_issued ..).1.mono (subF_of rfl)).trans (chg_settleGroup ..).1
  · rw [ctlExit_result h]
    unfold State.settleGroup
    rw [if_pos ((exited_next _).trans hall)]
    exact group_endGroup ..

/-! Barriers and fences as a group issues them (R95, R132). -/

/-- Once it has issued, the group stands at its next word. -/
theorem issued_retire (hg : okGroup g = true) (u : State) (c : Ctx) : Touches [.regs, .cores, .launches] u ((u.issued g c).retire g c.gr) ∧
    OnlyGroup g u ((u.issued g c).retire g c.gr) ∧ OnlyCounters u ((u.issued g c).retire g c.gr) ∧ ((u.issued g c).retire g c.gr).group? g = some c.gr.next := by
  obtain ⟨htouch, honly, hcount, _⟩ := issued_setGroup u c hg c.gr.next (Q := fun _ => True) trivial
  exact ⟨htouch, honly, hcount, State.group_setGroup_self ..⟩

/-- A group that waits in the pending set at its next word. -/
def Group.waits (x : Group) (w : Wait) (fenced : Bool) : Group := { x.next with wait := w, need := .none, fenced := fenced }

theorem waits_spec (x : Group) (w : Wait) (fenced : Bool) : (x.waits w fenced).wait = w ∧ GoesOn x (x.waits w fenced) ∧ Kept [] [] [] x (x.waits w fenced) :=
  ⟨rfl, goesOn_next x, Kept.trans (kept_next x) (.of_tables rfl rfl rfl)⟩

/-- The state in which a group waits, before its arrival. -/
theorem park_waits (hg : okGroup g = true) (u : State) (c : Ctx) (wait : Wait) :
    let t := ((u.issued g c).retire g c.gr).park g wait .none
    Touches [.regs, .cores, .launches] u t ∧ OnlyGroup g u t ∧ OnlyCounters u t ∧ t.group? g = some (c.gr.waits wait c.gr.next.fenced) ∧ Pending g t := by
  obtain ⟨htouch, honly, hcount, hgroup⟩ := issued_retire hg u c
  obtain ⟨honly', hcount', hgroup'⟩ := park_keeps hg ((u.issued g c).retire g c.gr) wait .none
  exact ⟨htouch.trans ((chg_park ..).1.mono (subF_of rfl)), honly.trans honly', hcount.trans hcount', hgroup'.trans (by rw [hgroup]; rfl), pending_park _ g wait .none⟩

theorem fence_idle (h : Issues s g w c u) (hidle : c.gr.lanes w = []) : s.rowFence g w = (u.issued g c).setGroup g c.gr.next :=
  (h.issue_eq _).trans (if_pos hidle)

theorem fence_parks (h : Issues s g w c u) (hacts : c.gr.lanes w ≠ []) : s.rowFence g w = ((u.issued g c).retire g c.gr).park g (.fence (fMod w % 8)) .none :=
  (h.issue_eq _).trans (if_neg hacts)

theorem fence_waits : GroupRow .fence .fence fun _ _ c w x =>
    (c.gr.lanes w ≠ [] → x.wait = .fence (fMod w % 8) ∧ GoesOn c.gr x) ∧ (c.gr.lanes w = [] → x = c.gr.goto (c.gr.pc + 8)) ∧ Kept [] [] [] c.gr x := by
  intro s g w c u h hrow
  by_cases hidle : c.gr.lanes w = []
  · exact h.goesGroup (row := fun t => t.rowFence g w) hrow (by decide) rfl (fence_idle h hidle) ⟨fun h => absurd hidle h, fun _ => rfl, kept_next _⟩
  · obtain ⟨htouch, honly, hcount, hgroup, _⟩ := park_waits h.1 u c (.fence (fMod w % 8))
    obtain ⟨hwait, hgoes, hkept⟩ := waits_spec c.gr (.fence (fMod w % 8)) c.gr.next.fenced
    refine h.goesRow (row := fun t => t.rowFence g w) hrow (by decide) rfl (fence_parks h hidle ▸ htouch) ?_
    rw [fence_parks h hidle]
    exact ⟨honly, hcount, _, hgroup, fun _ => ⟨hwait, hgoes⟩, fun h => absurd h hidle, hkept⟩

theorem fence_pending (h : Issues s g w c u) (hrow : rowOf w = .fence) (hacts : c.gr.lanes w ≠ []) :
    Goes (.fence g w) s u [.regs, .cores, .launches] fun t => Pending g t := by
  obtain ⟨htouch, _, _, _, hpending⟩ := park_waits h.1 u c (.fence (fMod w % 8))
  exact h.goesRow (row := fun t => t.rowFence g w) hrow (by decide) rfl (fence_parks h hacts ▸ htouch) (fence_parks h hacts ▸ hpending)

theorem barrier_idle (h : Issues s g w c u) (wide : Bool) (hidle : c.gr.lanes w = []) : s.barrier g w wide = (u.issued g c).setGroup g c.gr.next :=
  (h.issue_eq _).trans (if_pos hidle)

theorem barrier_arrives (h : Issues s g w c u) (wide : Bool) (hacts : c.gr.lanes w ≠ []) :
    s.barrier g w wide = (((u.issued g c).retire g c.gr).park g (.barrier wide) .none).arrive g := (h.issue_eq _).trans (if_neg hacts)

/-- The group at a barrier: it waits, and nothing of the cores but it, its scheduler and, at a cluster barrier, its core's L1 has changed. -/
theorem barrier_spec (h : Issues s g w c u) (wide : Bool) (hacts : c.gr.lanes w ≠ []) :
    Touches [.regs, .cores, .launches] u (s.barrier g w wide) ∧ OnlyCounters u (s.barrier g w wide) ∧
    (∀ r, okGroup r = true → r ≠ g → (s.barrier g w wide).group? r = u.group? r) ∧
    (∀ p, ((s.barrier g w wide).core p).frame = (u.core p).frame) ∧
    (∀ p, ((s.barrier g w wide).core p).l1 = (u.core p).l1 ∨ wide = true ∧ p = g.core ∧ ((s.barrier g w wide).core p).l1 = []) ∧
    (∃ fenced, (s.barrier g w wide).group? g = some (c.gr.waits (.barrier wide) fenced)) ∧ Pending g (s.barrier g w wide) := by
  rw [barrier_arrives h wide hacts]
  obtain ⟨htouch, honly, hcount, hgroup, hpending⟩ := park_waits h.1 u c (.barrier wide)
  generalize ((u.issued g c).retire g c.gr).park g (.barrier wide) .none = t at htouch honly hcount hgroup hpending ⊢
  have harrive := (chg_arrive t g).1
  refine ⟨htouch.trans (harrive.mono (subF_of rfl)), hcount.trans (.of_regs (harrive.regs_eq (by decide))), ?_⟩
  rcases arrive_cases t g with e | ⟨x, wide', hx, hwait, e⟩
  · rw [e]
    exact ⟨honly.1, fun p => frame_of_bare (honly.2 p), fun p => .inl (l1_of_bare (honly.2 p)), ⟨_, hgroup⟩, hpending⟩
  · obtain rfl : c.gr.waits (.barrier wide) c.gr.next.fenced = x := Option.some.inj (hgroup.symm.trans hx)
    obtain rfl : wide = wide' := Wait.barrier.inj hwait
    rw [e]
    refine ⟨fun r hr hne => (group_arrivedAs_other t _ wide (not_sameGroup h.1 hr hne)).trans (honly.1 r hr hne), fun p => (frame_arrivedAs ..).trans (frame_of_bare (honly.2 p)),
      fun p => (l1_arrivedAs t g _ wide p).imp_left fun k => k.trans (l1_of_bare (honly.2 p)), ⟨true, group_arrivedAs ..⟩, ?_⟩
    unfold Pending Core.sched at hpending ⊢
    rwa [scheds_arrivedAs]

theorem barBlock_waits : GroupRow .barBlock .barBlock fun _ _ c w x =>
    (c.gr.lanes w ≠ [] → x.wait = .barrier false ∧ GoesOn c.gr x) ∧ (c.gr.lanes w = [] → x = c.gr.goto (c.gr.pc + 8)) ∧ Kept [] [] [] c.gr x := by
  intro s g w c u h hrow
  by_cases hidle : c.gr.lanes w = []
  · exact h.goesGroup (row := fun t => t.rowBarBlock g w) hrow (by decide) rfl (barrier_idle h false hidle) ⟨fun h => absurd hidle h, fun _ => rfl, kept_next _⟩
  · obtain ⟨htouch, hcount, hothers, hframe, hl1, ⟨fenced, hgroup⟩, _⟩ := barrier_spec h false hidle
    obtain ⟨hwait, hgoes, hkept⟩ := waits_spec c.gr (.barrier false) fenced
    have hl1' : ∀ p, ((s.barrier g w false).core p).l1 = (u.core p).l1 := fun p => (hl1 p).resolve_right fun h => Bool.noConfusion h.1
    refine h.goesRow (row := fun t => t.rowBarBlock g w) hrow (by decide) rfl htouch
      ⟨⟨hothers, fun p => ?_⟩, hcount, _, hgroup, fun _ => ⟨hwait, hgoes⟩, fun h => absurd h hidle, hkept⟩
    exact congrArg₂ (fun (c : Core) l => ({ c with l1 := l } : Core)) (hframe p) (hl1' p)

theorem barCluster_waits (h : Issues s g w c u) (hrow : rowOf w = .barCluster) : Goes (.barCluster g w) s u [.regs, .cores, .launches] fun t => OnlyCounters u t ∧
    (∀ h, okGroup h = true → h ≠ g → t.group? h = u.group? h) ∧
    (∀ p, { t.core p with groups := [], scheds := [], l1 := [] } = { u.core p with groups := [], scheds := [], l1 := [] }) ∧
    (∀ p, (t.core p).l1 = (u.core p).l1 ∨ (p = g.core ∧ c.gr.lanes w ≠ [] ∧ (t.core p).l1 = [])) ∧
    GroupAt g t fun x => (c.gr.lanes w ≠ [] → x.wait = .barrier true ∧ GoesOn c.gr x) ∧ (c.gr.lanes w = [] → x = c.gr.goto (c.gr.pc + 8)) ∧ Kept [] [] [] c.gr x := by
  by_cases hidle : c.gr.lanes w = []
  · obtain ⟨htouch, honly, hcount, hgroup⟩ := issued_retire h.1 u c
    have hresult := barrier_idle h true hidle
    refine h.goesRow (row := fun t => t.barrier g w true) hrow (by decide) rfl (by rw [hresult]; exact htouch) ?_
    rw [hresult]
    exact ⟨hcount, honly.1, fun p => frame_of_bare (honly.2 p), fun p => .inl (l1_of_bare (honly.2 p)), _, hgroup, fun h => absurd hidle h, fun _ => rfl, kept_next _⟩
  · obtain ⟨htouch, hcount, hothers, hframe, hl1, ⟨fenced, hgroup⟩, _⟩ := barrier_spec h true hidle
    obtain ⟨hwait, hgoes, hkept⟩ := waits_spec c.gr (.barrier true) fenced
    exact h.goesRow (row := fun t => t.rowBarCluster g w) hrow (by decide) rfl htouch
      ⟨hcount, hothers, hframe, fun p => (hl1 p).imp_right fun k => ⟨k.2.1, hidle, k.2.2⟩, _, hgroup, fun _ => ⟨hwait, hgoes⟩, fun h => absurd h hidle, hkept⟩

theorem barBlock_pending (h : Issues s g w c u) (hrow : rowOf w = .barBlock) (hacts : c.gr.lanes w ≠ []) :
    Goes (.barBlock g w) s u [.regs, .cores, .launches] fun t => Pending g t := by
  obtain ⟨htouch, _, _, _, _, _, hpending⟩ := barrier_spec h false hacts
  exact h.goesRow (row := fun t => t.rowBarBlock g w) hrow (by decide) rfl htouch hpending

theorem barCluster_pending (h : Issues s g w c u) (hrow : rowOf w = .barCluster) (hacts : c.gr.lanes w ≠ []) :
    Goes (.barCluster g w) s u [.regs, .cores, .launches] fun t => Pending g t := by
  obtain ⟨htouch, _, _, _, _, _, hpending⟩ := barrier_spec h true hacts
  exact h.goesRow (row := fun t => t.rowBarCluster g w) hrow (by decide) rfl htouch hpending

theorem groupsExitAndWait : GroupsExitAndWait :=
  ⟨fun _ _ _ _ _ => ctlExit_goes, fun _ _ _ _ _ => ctlExit_ends, barBlock_waits, fun _ _ _ _ _ => barCluster_waits, fence_waits,
    fun _ _ _ _ _ => barBlock_pending, fun _ _ _ _ _ => barCluster_pending, fun _ _ _ _ _ => fence_pending⟩

end

end Sys2Proof.Machine
end

section
namespace Sys2Proof.Machine

/-! Cores as they stand in their table. -/

theorem mem_of_mem_tset {α : Type} {t : Tbl α} {e : Nat × α} (k : Nat) (v : α) (h : e ∈ t) : e ∈ tset t k v ∨ e.1 = k ∧ tfind t k = some e.2 := by
  induction t with
  | nil => cases h
  | cons d t ih =>
    obtain ⟨j, a⟩ := d
    unfold tset
    split
    · exact .inl (List.mem_cons_of_mem _ h)
    · split
      · next hj =>
        rcases List.mem_cons.1 h with rfl | h
        · exact .inr ⟨hj.symm, by rw [tfind, if_pos hj.symm]⟩
        · exact .inl (List.mem_cons_of_mem _ h)
      · next hj =>
        rcases List.mem_cons.1 h with rfl | h
        · exact .inl (List.mem_cons_self ..)
        · refine (ih h).imp (List.mem_cons_of_mem _) fun ⟨h1, h2⟩ => ⟨h1, ?_⟩
          rw [tfind, if_neg fun e => hj e.symm, h2]

/-- Every listed core of `t` stands in `s` too, with all but its groups, its schedulers and its L1. -/
def CoresIn (s t : State) : Prop := ∀ e ∈ t.cores, ∃ d ∈ s.cores, d.1 = e.1 ∧ d.2.frame = e.2.frame

theorem CoresIn.refl (s : State) : CoresIn s s := fun e he => ⟨e, he, rfl, rfl⟩

theorem CoresIn.trans {s t u : State} (h : CoresIn s t) (k : CoresIn t u) : CoresIn s u := fun e he => by
  obtain ⟨d, hd, h1, h2⟩ := k e he
  obtain ⟨b, hb, k1, k2⟩ := h d hd
  exact ⟨b, hb, k1.trans h1, k2.trans h2⟩

section
variable {s t u : State} {g h : GRef} {p : Nat}

theorem mem_cores (hne : s.core p ≠ {}) : (p, s.core p) ∈ s.cores := by
  have hget : tget {} s.cores p ≠ {} := hne
  show (p, tget {} s.cores p) ∈ s.cores
  unfold tget at hget ⊢
  cases hfind : tfind s.cores p with
  | none =>
    rw [hfind] at hget
    exact absurd rfl hget
  | some c => exact mem_of_tfind hfind

/-- A listed core stays listed while it holds a group. -/
theorem coresIn_modCore {f : Core → Core} (hold : (s.core p).groups ≠ []) (hnew : (f (s.core p)).groups ≠ []) (hf : (f (s.core p)).frame = (s.core p).frame) :
    CoresIn s (s.modCore p f) ∧ CoresIn (s.modCore p f) s := by
  have hlisted := mem_cores (s := s) (p := p) fun e => hold (by rw [e])
  have hcores : (s.modCore p f).cores = tset s.cores p (f (s.core p)) := by
    show tput {} s.cores p (f (s.core p)) = _
    exact if_neg fun e => hnew (by rw [e])
  refine ⟨fun e he => ?_, fun e he => ?_⟩
  · rw [hcores] at he
    rcases mem_tset he with rfl | he
    · exact ⟨_, hlisted, rfl, hf.symm⟩
    · exact ⟨e, he, rfl, rfl⟩
  · rw [hcores]
    rcases mem_of_mem_tset p (f (s.core p)) he with he | ⟨hkey, hfind⟩
    · exact ⟨e, he, rfl, rfl⟩
    · have hcore : s.core p = e.2 := by
        show tget {} s.cores p = e.2
        rw [tget, hfind]
        rfl
      exact ⟨_, mem_of_tfind (tfind_tset_self ..), hkey.symm, hcore ▸ hf⟩

/-! States that differ in the arrivals at a barrier. -/

/-- From `s` to `t` groups may have completed the fence of their arrival and cores have dropped L1, and nothing else of the cores has changed. -/
structure Arrived (s t : State) : Prop where
  sorted : ∀ p, tsorted (t.core p).groups = true
  frame : ∀ p, (t.core p).frame = (s.core p).frame
  group : ∀ h, t.group? h = s.group? h ∨ ∃ x, s.group? h = some x ∧ t.group? h = some { x with fenced := true }
  fwd : CoresIn s t
  back : CoresIn t s

theorem Arrived.refl (h : ∀ p, tsorted (s.core p).groups = true) : Arrived s s := ⟨h, fun _ => rfl, fun _ => .inl rfl, .refl s, .refl s⟩

theorem Arrived.trans (h : Arrived s t) (k : Arrived t u) : Arrived s u := by
  refine ⟨k.sorted, fun p => (k.frame p).trans (h.frame p), fun r => ?_, h.fwd.trans k.fwd, k.back.trans h.back⟩
  rcases k.group r with e | ⟨y, hy, e⟩
  · rw [e]
    exact h.group r
  · rcases h.group r with e' | ⟨x, hx, e'⟩
    · exact .inr ⟨y, e' ▸ hy, e⟩
    · obtain rfl := Option.some.inj (e'.symm.trans hy)
      exact .inr ⟨x, hx, e⟩

theorem groups_ne_nil {x : Group} (hx : s.group? g = some x) : (s.core g.core).groups ≠ [] := fun e => by
  unfold State.group? Core.group? at hx
  rw [e] at hx
  cases hx

theorem arrived_setGroup {x : Group} (hsorted : ∀ p, tsorted (s.core p).groups = true) (hx : s.group? g = some x) : Arrived s (s.setGroup g { x with fenced := true }) := by
  obtain ⟨hfwd, hback⟩ := coresIn_modCore (s := s) (p := g.core) (f := fun c => c.setGroup (gkey g.sched g.slot) { x with fenced := true }) (groups_ne_nil hx)
    (fun e => by
      have hfind := tfind_tset_self (s.core g.core).groups (gkey g.sched g.slot) { x with fenced := true }
      rw [show tset (s.core g.core).groups (gkey g.sched g.slot) { x with fenced := true } = [] from e] at hfind
      cases hfind) rfl
  refine ⟨fun p => ?_, fun p => frame_of_bare (bare_setGroup ..), fun r => ?_, hfwd, hback⟩
  · unfold State.setGroup
    by_cases hp : p = g.core
    · rw [hp, State.core_modCore_self]
      exact tset_sorted _ _ (hsorted _)
    · rw [State.core_modCore_ne _ _ hp]
      exact hsorted p
  · by_cases hr : SameGroup r g
    · exact .inr ⟨x, (hr.group_eq s).trans hx, (hr.group_eq _).trans (State.group_setGroup_self ..)⟩
    · exact .inl (group_setGroup_other s _ hr)

theorem arrived_dropL1 (hsorted : ∀ p, tsorted (s.core p).groups = true) (hold : (s.core p).groups ≠ []) : Arrived s (s.dropL1 p) := by
  obtain ⟨hfwd, hback⟩ := coresIn_modCore (f := fun c => { c with l1 := [] }) hold hold rfl
  refine ⟨fun q => ?_, frame_dropL1 s p, fun r => .inl (group_dropL1 ..), hfwd, hback⟩
  unfold State.dropL1
  by_cases hq : q = p
  · rw [hq, State.core_modCore_self]
    exact hsorted p
  · rw [State.core_modCore_ne _ _ hq]
    exact hsorted q

theorem arrived_arrive (hsorted : ∀ p, tsorted (s.core p).groups = true) (g : GRef) : Arrived s (s.arrive g) := by
  rcases arrive_cases s g with e | ⟨x, wide, hx, _, e⟩
  · rw [e]
    exact .refl hsorted
  · rw [e]
    have hset := arrived_setGroup hsorted hx
    unfold State.arrivedAs
    split
    · exact hset.trans (arrived_dropL1 hset.sorted (groups_ne_nil (State.group_setGroup_self ..)))
    · exact hset

/-- A group that has completed the fence of its arrival stays so while others arrive. -/
theorem fenced_arrive {x : Group} (hx : t.group? h = some x) (hfenced : x.fenced = true) (g : GRef) : ∃ y, (t.arrive g).group? h = some y ∧ y.fenced = true := by
  rcases arrive_cases t g with e | ⟨y, wide, hy, _, e⟩
  · exact ⟨x, (congrArg (State.group? · h) e).trans hx, hfenced⟩
  · rw [e]
    by_cases hsame : SameGroup h g
    · exact ⟨_, (hsame.group_eq _).trans (group_arrivedAs ..), rfl⟩
    · exact ⟨x, (group_arrivedAs_other t y wide hsame).trans hx, hfenced⟩

/-- What has reached block or cluster scope is read from the core alone. -/
theorem reached_of_frame (h : (t.core g.core).frame = (s.core g.core).frame) (uid : Nat) {scope : Nat} (hscope : scope < 3) :
    t.reached g uid scope = s.reached g uid scope := by
  have hsbufs : (t.core g.core).sbufs = (s.core g.core).sbufs := (congrArg Core.sbufs h :)
  have hloads : (t.core g.core).loads = (s.core g.core).loads := (congrArg Core.loads h :)
  have hcreqs : (t.core g.core).creqs = (s.core g.core).creqs := (congrArg Core.creqs h :)
  have hart : (t.core g.core).art = (s.core g.core).art := (congrArg Core.art h :)
  have hmx : (t.core g.core).mx = (s.core g.core).mx := (congrArg Core.mx h :)
  have hnear : decide (scope < 3) = true := decide_eq_true hscope
  have hfar : decide (scope < 4) = true := decide_eq_true (by omega)
  unfold State.reached State.sbufEmpty State.loadsBound Core.mxDone
  simp only [hsbufs, hloads, hcreqs, hart, hmx, hnear, hfar, Bool.true_or]

theorem creqs_of_frame {c d : Core} (h : d.frame = c.frame) : d.creqs = c.creqs := (congrArg Core.creqs h :)

theorem ownWrites_of_frame {c d : Core} (h : d.frame = c.frame) (p slot uid : Nat) : d.ownWrites p slot uid = c.ownWrites p slot uid := by
  unfold Core.ownWrites
  rw [creqs_of_frame h]

/-! The blocks and groups of a barrier (R95, R98). -/

/-- Where the blocks of a group's barrier stand. -/
def State.barrierBlocks (s : State) (g : GRef) (wide : Bool) : List (Nat × Nat) :=
  match s.group? g with
  | none => []
  | some gr =>
    match tfind (s.core g.core).blocks gr.block with
    | none => []
    | some b => if wide then (s.cluster b).map fun m => (m.1, m.2.1) else [(g.core, gr.block)]

theorem barrierGroups_eq (s : State) (g : GRef) (wide : Bool) :
    s.barrierGroups g wide = (s.barrierBlocks g wide).flatMap fun m => ((s.core m.1).groupsOf m.2).map fun e => (⟨m.1, e.1 / 16, e.1 % 16⟩, e.2) := by
  unfold State.barrierGroups State.barrierBlocks
  cases s.group? g with
  | none => rfl
  | some gr =>
    dsimp only
    cases tfind (s.core g.core).blocks gr.block with
    | none => rfl
    | some b => rfl

theorem gkey_div_mod (k : Nat) : gkey (k / 16) (k % 16) = k := Nat.div_add_mod k 16

theorem mem_barrierGroups {wide : Bool} {e : GRef × Group} (hsorted : ∀ p, tsorted (s.core p).groups = true) : e ∈ s.barrierGroups g wide ↔
    ∃ p slot k, (p, slot) ∈ s.barrierBlocks g wide ∧ e.1 = ⟨p, k / 16, k % 16⟩ ∧ s.group? e.1 = some e.2 ∧ e.2.block = slot := by
  rw [barrierGroups_eq, List.mem_flatMap]
  constructor
  · rintro ⟨⟨p, slot⟩, hblock, he⟩
    obtain ⟨⟨k, x⟩, hx, rfl⟩ := List.mem_map.1 he
    obtain ⟨hmem, hslot⟩ := List.mem_filter.1 hx
    refine ⟨p, slot, k, hblock, rfl, ?_, beq_iff_eq.1 hslot⟩
    unfold State.group? Core.group?
    dsimp only
    rw [gkey_div_mod]
    exact tfind_of_mem (hsorted p) hmem
  · rintro ⟨p, slot, k, hblock, href, hgroup, hslot⟩
    refine ⟨(p, slot), hblock, List.mem_map.2 ⟨(k, e.2), List.mem_filter.2 ⟨?_, beq_iff_eq.2 hslot⟩, ?_⟩⟩
    · rw [href] at hgroup
      unfold State.group? Core.group? at hgroup
      dsimp only at hgroup
      rw [gkey_div_mod] at hgroup
      exact mem_of_tfind hgroup
    · rw [← href]

theorem group_of_mem_barrierGroups {wide : Bool} {e : GRef × Group} (hsorted : ∀ p, tsorted (s.core p).groups = true) (he : e ∈ s.barrierGroups g wide) :
    s.group? e.1 = some e.2 := by
  obtain ⟨_, _, _, _, _, hgroup, _⟩ := (mem_barrierGroups hsorted).1 he
  exact hgroup

theorem Arrived.block_eq (h : Arrived s t) (r : GRef) : (t.group? r).map (·.block) = (s.group? r).map (·.block) := by
  rcases h.group r with e | ⟨x, hx, e⟩
  · rw [e]
  · rw [e, hx]
    rfl

theorem blocks_of_frame {c d : Core} (h : d.frame = c.frame) : d.blocks = c.blocks := (congrArg Core.blocks h :)

theorem Arrived.cluster_sub (h : CoresIn s t) (b : Block) : t.cluster b ⊆ s.cluster b := by
  intro m hm
  obtain ⟨e, he, hm⟩ := List.mem_flatMap.1 hm
  obtain ⟨d, hd, hkey, hframe⟩ := h e he
  refine List.mem_flatMap.2 ⟨d, hd, ?_⟩
  rw [hkey, blocks_of_frame hframe]
  exact hm

/-- The block of a group, looked up on its core. -/
theorem Arrived.own_block (h : Arrived s t) (r : GRef) :
    ((t.group? r).bind fun x => tfind (t.core r.core).blocks x.block) = (s.group? r).bind fun x => tfind (s.core r.core).blocks x.block := by
  have hbind : ∀ (bs : Tbl Block) (o : Option Group), (o.bind fun x => tfind bs x.block) = (o.map (·.block)).bind (tfind bs) := fun _ o => by cases o <;> rfl
  rw [blocks_of_frame (h.frame r.core), hbind, hbind, h.block_eq]

theorem Arrived.clusterOf_sub (h : Arrived s t) (g : GRef) : t.clusterOf g ⊆ s.clusterOf g ∧ s.clusterOf g ⊆ t.clusterOf g := by
  unfold State.clusterOf
  rw [h.own_block]
  split
  · exact ⟨Arrived.cluster_sub h.fwd _, Arrived.cluster_sub h.back _⟩
  · exact ⟨List.Subset.refl _, List.Subset.refl _⟩

theorem mem_barrierBlocks {wide : Bool} {m : Nat × Nat} : m ∈ s.barrierBlocks g wide ↔
    ∃ gr b, s.group? g = some gr ∧ tfind (s.core g.core).blocks gr.block = some b ∧
      (wide = true → ∃ blk, (m.1, m.2, blk) ∈ s.cluster b) ∧ (wide = false → m = (g.core, gr.block)) := by
  unfold State.barrierBlocks
  cases hgr : s.group? g with
  | none => simp
  | some gr =>
    dsimp only
    cases hb : tfind (s.core g.core).blocks gr.block with
    | none => simp [hb]
    | some b =>
      cases wide with
      | true =>
        constructor
        · intro hm
          obtain ⟨k, hk, rfl⟩ := List.mem_map.1 hm
          exact ⟨gr, b, rfl, hb, fun _ => ⟨k.2.2, hk⟩, nofun⟩
        · rintro ⟨_, b', hgr', hb', hwide, _⟩
          obtain rfl := Option.some.inj hgr'
          obtain rfl := Option.some.inj (hb.symm.trans hb')
          obtain ⟨blk, hblk⟩ := hwide rfl
          exact List.mem_map.2 ⟨_, hblk, rfl⟩
      | false =>
        constructor
        · intro hm
          exact ⟨gr, b, rfl, hb, nofun, fun _ => List.mem_singleton.1 hm⟩
        · rintro ⟨_, _, hgr', _, _, hnarrow⟩
          obtain rfl := Option.some.inj hgr'
          exact List.mem_singleton.2 (hnarrow rfl)

theorem barrierBlocks_sub {wide : Bool} (hblock : ∀ r, (t.group? r).map (·.block) = (s.group? r).map (·.block)) (hframe : ∀ p, (t.core p).frame = (s.core p).frame)
    (hin : CoresIn s t) : t.barrierBlocks g wide ⊆ s.barrierBlocks g wide := by
  intro m hm
  obtain ⟨y, b, hy, hb, hwide, hnarrow⟩ := mem_barrierBlocks.1 hm
  have hmap := hblock g
  rw [hy] at hmap
  obtain ⟨x, hx, hxy⟩ := Option.map_eq_some_iff.1 hmap.symm
  dsimp only at hxy
  rw [blocks_of_frame (hframe _), ← hxy] at hb
  refine mem_barrierBlocks.2 ⟨x, b, hx, hb, fun h => ?_, fun h => (hnarrow h).trans (by rw [hxy])⟩
  obtain ⟨blk, hblk⟩ := hwide h
  exact ⟨blk, Arrived.cluster_sub hin b hblk⟩

/-- The same groups stand at the barrier, whichever of them have arrived. -/
theorem barrierGroups_of_keeps {wide : Bool} {e : GRef × Group} (hs : ∀ p, tsorted (s.core p).groups = true) (ht : ∀ p, tsorted (t.core p).groups = true)
    (hblock : ∀ r, (t.group? r).map (·.block) = (s.group? r).map (·.block)) (hframe : ∀ p, (t.core p).frame = (s.core p).frame) (hin : CoresIn s t)
    (he : e ∈ t.barrierGroups g wide) : ∃ d ∈ s.barrierGroups g wide, d.1 = e.1 := by
  obtain ⟨p, slot, k, hm, href, hgroup, hslot⟩ := (mem_barrierGroups ht).1 he
  have hmap := hblock e.1
  rw [hgroup] at hmap
  obtain ⟨x, hx, hxe⟩ := Option.map_eq_some_iff.1 hmap.symm
  exact ⟨(e.1, x), (mem_barrierGroups hs).2 ⟨p, slot, k, barrierBlocks_sub hblock hframe hin hm, href, hx, hxe.trans hslot⟩, rfl⟩

theorem windowWrites_mono {ms ns : List (Nat × Nat × Block)} (hin : CoresIn s t) (hms : ms ⊆ ns) (h : t.windowWrites ms = true) : s.windowWrites ns = true := by
  unfold State.windowWrites at h ⊢
  obtain ⟨e, he, hreq⟩ := List.any_eq_true.1 h
  obtain ⟨d, hd, _, hframe⟩ := hin e he
  refine List.any_eq_true.2 ⟨d, hd, ?_⟩
  rw [creqs_of_frame hframe]
  obtain ⟨r, hr, hwrite⟩ := List.any_eq_true.1 hreq
  refine List.any_eq_true.2 ⟨r, hr, ?_⟩
  rw [Bool.and_eq_true] at hwrite ⊢
  refine ⟨hwrite.1, ?_⟩
  obtain ⟨l, hl, hto⟩ := List.any_eq_true.1 hwrite.2
  obtain ⟨m, hm, hmatch⟩ := List.any_eq_true.1 hto
  exact List.any_eq_true.2 ⟨l, hl, List.any_eq_true.2 ⟨m, hms hm, hmatch⟩⟩

/-! The arrivals that a barrier waits for (R95, R240). -/

/-- A group of `s` that waits at the barrier and has completed its fence, or can. -/
def CanArrive (s : State) (wide : Bool) (e : GRef × Group) : Prop := e.2.wait = .barrier wide ∧
  (e.2.fenced = true ∨ (s.reached e.1 e.2.uid (if wide then 1 else 0) = true ∧ (s.core e.1.core).ownWrites e.1.core e.2.block e.2.uid = false))

/-- In `t` such a group completes its fence. -/
theorem canArrive_arrives {wide : Bool} {e : GRef × Group} (h : Arrived s t) (hgroup : s.group? e.1 = some e.2) (hcan : CanArrive s wide e) :
    ∃ y, (t.arrive e.1).group? e.1 = some y ∧ y.fenced = true := by
  obtain ⟨hwait, hready⟩ := hcan
  rcases h.group e.1 with hsame | ⟨x, hx, hfenced⟩
  · have hx : t.group? e.1 = some e.2 := hsame.trans hgroup
    by_cases hf : e.2.fenced = true
    · exact fenced_arrive hx hf e.1
    · obtain ⟨hreach, hown⟩ := hready.resolve_left hf
      have hreach' : t.reached e.1 e.2.uid (if wide then 1 else 0) = true := (reached_of_frame (h.frame _) _ (by split <;> decide)).trans hreach
      have hown' : (t.core e.1.core).ownWrites e.1.core e.2.block e.2.uid = false := (ownWrites_of_frame (h.frame _) ..).trans hown
      rw [arrive_eq hx hwait (Bool.eq_false_iff.2 hf) hreach' hown', group_arrivedAs]
      exact ⟨_, rfl, rfl⟩
  · exact fenced_arrive hfenced rfl e.1

/-- The arrivals of a barrier's groups, in turn. -/
def State.arrivals (t : State) (es : List (GRef × Group)) : State := es.foldl (fun t e => t.arrive e.1) t

theorem arrived_arrivals (h : Arrived s t) (es : List (GRef × Group)) : Arrived s (t.arrivals es) :=
  foldl_keeps (Arrived s) _ es t h fun _ e hu => hu.trans (arrived_arrive hu.sorted e.1)

theorem fenced_arrivals {x : Group} (hx : t.group? h = some x) (hfenced : x.fenced = true) (es : List (GRef × Group)) :
    ∃ y, (t.arrivals es).group? h = some y ∧ y.fenced = true :=
  foldl_keeps (fun u : State => ∃ y, u.group? h = some y ∧ y.fenced = true) _ es t ⟨x, hx, hfenced⟩ fun _ e ⟨_, hy, hf⟩ => fenced_arrive hy hf e.1

theorem arrivals_fenced {wide : Bool} {es : List (GRef × Group)} (h : Arrived s t) (hes : ∀ e ∈ es, s.group? e.1 = some e.2 ∧ CanArrive s wide e) :
    ∀ e ∈ es, ∃ y, (t.arrivals es).group? e.1 = some y ∧ y.fenced = true := by
  induction es generalizing t with
  | nil => nofun
  | cons d es ih =>
    obtain ⟨⟨hd, hcan⟩, hes⟩ := List.forall_mem_cons.1 hes
    intro e he
    rcases List.mem_cons.1 he with rfl | he
    · obtain ⟨y, hy, hf⟩ := canArrive_arrives h hd hcan
      exact fenced_arrivals hy hf es
    · exact ih (h.trans (arrived_arrive h.sorted d.1)) hes e he

/-- At a block barrier L1 stays. -/
theorem l1_arrivals {es : List (GRef × Group)} (h : Arrived s t) (hes : ∀ e ∈ es, s.group? e.1 = some e.2 ∧ CanArrive s false e) (p : Nat) :
    ((t.arrivals es).core p).l1 = (t.core p).l1 := by
  induction es generalizing t with
  | nil => rfl
  | cons d es ih =>
    obtain ⟨⟨hd, hwait, _⟩, hes⟩ := List.forall_mem_cons.1 hes
    refine (ih (h.trans (arrived_arrive h.sorted d.1)) hes).trans ?_
    rcases arrive_cases t d.1 with e | ⟨x, wide, hx, hw, e⟩
    · rw [e]
    · rw [e]
      have hnarrow : wide = false := by
        rcases h.group d.1 with k | ⟨y, hy, k⟩
        · obtain rfl := Option.some.inj (hx.symm.trans (k.trans hd))
          exact Wait.barrier.inj (hw.symm.trans hwait)
        · obtain rfl := Option.some.inj (hy.symm.trans hd)
          obtain rfl := Option.some.inj (hx.symm.trans k)
          exact Wait.barrier.inj (hw.symm.trans hwait)
      exact (l1_arrivedAs t d.1 x wide p).resolve_right fun k => by
        rw [hnarrow] at k
        cases k.1

/-! Groups that become ready (R78). -/

/-- A group that waits for nothing. -/
def Group.awake (x : Group) : Group := { x with wait := .none, need := .none, fenced := false }

theorem kept_awake (x : Group) : Kept [] [] [] x x.awake := .of_tables rfl rfl rfl

theorem group_schedOf (s : State) (p : Nat) (f : Core → Core) (hf : ∀ c, (f c).groups = c.groups) (r : GRef) : (s.modCore p f).group? r = s.group? r := group_modCore s (hf _) r

theorem group_wake (s : State) (g : GRef) : (s.wake g).group? g = (s.group? g).map Group.awake := by
  unfold State.wake
  rw [group_schedOf _ _ _ (fun c => by dsimp only; split <;> rfl), group_modGroup]
  rfl

theorem group_wake_other (s : State) (hne : ¬SameGroup h g) : (s.wake g).group? h = s.group? h := by
  unfold State.wake
  rw [group_schedOf _ _ _ (fun c => by dsimp only; split <;> rfl), group_modGroup_other s _ hne]

theorem ready_wake (s : State) (g : GRef) : g.slot ∈ (((s.wake g).core g.core).sched g.sched).ready ∨ g.slot ∈ (((s.wake g).core g.core).sched g.sched).active := by
  unfold State.wake
  rw [State.core_modCore_self]
  dsimp only
  split
  · next h =>
    rw [Bool.or_eq_true] at h
    exact h.imp List.contains_iff_mem.1 List.contains_iff_mem.1
  · rw [sched_setSched_self]
    exact .inl (List.mem_append_right _ (List.mem_singleton_self _))

theorem group_wakes_awake {x : Group} (hx : t.group? h = some x.awake) (es : List (GRef × Group)) : (es.foldl (fun t e => t.wake e.1) t).group? h = some x.awake :=
  foldl_keeps (fun u : State => u.group? h = some x.awake) _ es t hx fun u e hu => by
    by_cases hsame : SameGroup h e.1
    · rw [hsame.group_eq, group_wake, ← hsame.group_eq, hu]
      rfl
    · rw [group_wake_other u hsame, hu]

theorem group_wakes {es : List (GRef × Group)} {x : Group} (hx : t.group? h = some x) (hmem : ∃ e ∈ es, e.1 = h) : (es.foldl (fun t e => t.wake e.1) t).group? h = some x.awake := by
  induction es generalizing t with
  | nil => simp at hmem
  | cons d es ih =>
    by_cases hsame : SameGroup h d.1
    · refine group_wakes_awake (x := x) ?_ es
      rw [hsame.group_eq, group_wake, ← hsame.group_eq, hx]
      rfl
    · refine ih ((group_wake_other t hsame).trans hx) ?_
      obtain ⟨e, he, hr⟩ := hmem
      rcases List.mem_cons.1 he with rfl | he
      · exact absurd (hr ▸ SameGroup.refl _) hsame
      · exact ⟨e, he, hr⟩

theorem l1_wakes (t : State) (es : List (GRef × Group)) (p : Nat) : ((es.foldl (fun t e => t.wake e.1) t).core p).l1 = (t.core p).l1 :=
  foldl_keeps (fun u : State => (u.core p).l1 = (t.core p).l1) _ es t rfl fun u e hu => (l1_of_bare (bare_wake u e.1 p)).trans hu

theorem group_drops (t : State) (es : List (GRef × Group)) (r : GRef) : (es.foldl (fun t e => t.dropL1 e.1.core) t).group? r = t.group? r :=
  foldl_keeps (fun u : State => u.group? r = t.group? r) _ es t rfl fun _ _ hu => (group_dropL1 ..).trans hu

theorem l1_drops {es : List (GRef × Group)} (hmem : ∃ e ∈ es, e.1.core = p) : ((es.foldl (fun t e => t.dropL1 e.1.core) t).core p).l1 = [] := by
  induction es generalizing t with
  | nil => simp at hmem
  | cons d es ih =>
    by_cases hd : d.1.core = p
    · refine foldl_keeps (fun u : State => (u.core p).l1 = []) _ es _ (hd ▸ l1_dropL1_self t _) fun u d hu => ?_
      exact (l1_dropL1 u d.1.core p).elim (fun k => k.trans hu) And.right
    · refine ih ?_
      obtain ⟨e, he, hp⟩ := hmem
      rcases List.mem_cons.1 he with rfl | he
      · exact absurd hp hd
      · exact ⟨e, he, hp⟩

/-! The end of the waits. -/

/-- Whether a barrier opens, with its groups arrived as they can. -/
def State.opens (t : State) (g : GRef) (wide : Bool) : Bool :=
  ((t.barrierGroups g wide).all fun e => e.2.wait == Wait.barrier wide && e.2.fenced) && !(wide && t.windowWrites (t.clusterOf g))

theorem openBarrier_eq (s : State) (g : GRef) (wide : Bool) : s.openBarrier g wide =
    (let t := s.arrivals (s.barrierGroups g wide)
     if t.opens g wide then
       let u := (t.barrierGroups g wide).foldl (fun t e => t.wake e.1) t
       if wide then (t.barrierGroups g wide).foldl (fun t e => t.dropL1 e.1.core) u else u
     else t) := rfl

theorem barrierOpen_result {gr : Group} {wide : Bool} (hg : okGroup g = true) (hgr : s.group? g = some gr) (hwait : gr.wait = .barrier wide) :
    exec (.barrierOpen g) s = .next (s.openBarrier g wide) := by
  refine (withUnit_ok hg _).trans (congrArg _ ?_)
  rw [hgr]
  dsimp only
  rw [hwait]

theorem opens_of_canArrive {wide : Bool} (hsorted : ∀ p, tsorted (s.core p).groups = true) (hcan : ∀ e ∈ s.barrierGroups g wide, CanArrive s wide e)
    (hwindow : wide = true → s.windowWrites (s.clusterOf g) = false) : (s.arrivals (s.barrierGroups g wide)).opens g wide = true := by
  have harrived := arrived_arrivals (.refl hsorted) (s.barrierGroups g wide)
  have hfenced := arrivals_fenced (.refl hsorted) fun e he => ⟨group_of_mem_barrierGroups hsorted he, hcan e he⟩
  generalize s.arrivals (s.barrierGroups g wide) = t at harrived hfenced ⊢
  unfold State.opens
  rw [Bool.and_eq_true, List.all_eq_true]
  refine ⟨fun e he => ?_, ?_⟩
  · obtain ⟨d, hd, href⟩ := barrierGroups_of_keeps hsorted harrived.sorted harrived.block_eq harrived.frame harrived.fwd he
    have he' := group_of_mem_barrierGroups harrived.sorted he
    have hd' := group_of_mem_barrierGroups hsorted hd
    obtain ⟨y, hy, hf⟩ := hfenced d hd
    obtain rfl : y = e.2 := Option.some.inj (hy.symm.trans (href ▸ he'))
    have hwait : e.2.wait = d.2.wait := by
      rcases harrived.group d.1 with k | ⟨x, hx, k⟩
      · rw [Option.some.inj (hy.symm.trans (k.trans hd'))]
      · rw [Option.some.inj (hy.symm.trans k), Option.some.inj (hd'.symm.trans hx)]
    rw [hwait, (hcan d hd).1, hf]
    simp
  · cases wide with
    | false => rfl
    | true =>
      rw [Bool.true_and, Bool.not_eq_true']
      exact Bool.eq_false_iff.2 fun h => Bool.eq_false_iff.1 (hwindow rfl) (windowWrites_mono harrived.fwd (harrived.clusterOf_sub g).1 h)

theorem barrier_opens {gr : Group} {wide : Bool} (hg : okGroup g = true) (hgr : s.group? g = some gr) (hwait : gr.wait = .barrier wide)
    (hsorted : ∀ p, tsorted (s.core p).groups = true) (hcan : ∀ e ∈ s.barrierGroups g wide, CanArrive s wide e)
    (hwindow : wide = true → s.windowWrites (s.clusterOf g) = false) :
    Does (.barrierOpen g) s [.cores] fun t =>
      (∀ e ∈ s.barrierGroups g wide, GroupAt e.1 t fun x => x.wait = .none ∧ ∃ y, s.group? e.1 = some y ∧ Kept [] [] [] y x) ∧
      (wide = true → ∀ e ∈ s.barrierGroups g wide, (t.core e.1.core).l1 = []) ∧ (wide = false → ∀ p, (t.core p).l1 = (s.core p).l1) := by
  refine .intro (barrierOpen_result hg hgr hwait) (chg_openBarrier ..).1 ?_
  have hopens := opens_of_canArrive hsorted hcan hwindow
  have harrived := arrived_arrivals (.refl hsorted) (s.barrierGroups g wide)
  have hnarrow : wide = false → ∀ p, ((s.arrivals (s.barrierGroups g wide)).core p).l1 = (s.core p).l1 := fun h p =>
    l1_arrivals (.refl hsorted) (fun e he => ⟨group_of_mem_barrierGroups hsorted he, h ▸ hcan e he⟩) p
  rw [openBarrier_eq]
  generalize s.arrivals (s.barrierGroups g wide) = t at hopens harrived hnarrow ⊢
  dsimp only
  rw [if_pos hopens]
  have hlisted : ∀ e ∈ s.barrierGroups g wide, ∃ d ∈ t.barrierGroups g wide, d.1 = e.1 := fun e he =>
    barrierGroups_of_keeps harrived.sorted hsorted (fun r => (harrived.block_eq r).symm) (fun p => (harrived.frame p).symm) harrived.back he
  have hgroups : ∀ e ∈ s.barrierGroups g wide, ∃ y z, s.group? e.1 = some y ∧ Kept [] [] [] y z ∧
      ((t.barrierGroups g wide).foldl (fun t e => t.wake e.1) t).group? e.1 = some z.awake := fun e he => by
    have hy := group_of_mem_barrierGroups hsorted he
    rcases harrived.group e.1 with k | ⟨y, hy, k⟩
    · exact ⟨_, _, hy, .refl .., group_wakes (k.trans hy) (hlisted e he)⟩
    · exact ⟨y, { y with fenced := true }, hy, .of_tables rfl rfl rfl, group_wakes k (hlisted e he)⟩
  cases wide with
  | true =>
    refine ⟨fun e he => ?_, fun _ e he => ?_, nofun⟩
    · obtain ⟨y, z, hy, hkept, hz⟩ := hgroups e he
      exact ⟨_, (group_drops ..).trans hz, rfl, y, hy, hkept.trans (kept_awake z)⟩
    · obtain ⟨d, hd, href⟩ := hlisted e he
      exact l1_drops ⟨d, hd, href ▸ rfl⟩
  | false =>
    refine ⟨fun e he => ?_, nofun, fun h p => (l1_wakes ..).trans (hnarrow h p)⟩
    obtain ⟨y, z, hy, hkept, hz⟩ := hgroups e he
    exact ⟨_, hz, rfl, y, hy, hkept.trans (kept_awake z)⟩

theorem barrier_held {gr : Group} (hg : okGroup g = true) (hgr : s.group? g = some gr) (hwait : gr.wait = .barrier true) (hwindow : s.windowWrites (s.clusterOf g) = true)
    (hsorted : ∀ p, tsorted (s.core p).groups = true) : Does (.barrierOpen g) s [.cores] fun t => GroupAt g t fun x => x.wait = .barrier true ∧ Kept [] [] [] gr x := by
  refine .intro (barrierOpen_result hg hgr hwait) (chg_openBarrier ..).1 ?_
  have harrived := arrived_arrivals (.refl hsorted) (s.barrierGroups g true)
  rw [openBarrier_eq]
  generalize s.arrivals (s.barrierGroups g true) = t at harrived ⊢
  have hstill : t.windowWrites (t.clusterOf g) = true := windowWrites_mono harrived.back (harrived.clusterOf_sub g).2 hwindow
  have hshut : ¬t.opens g true = true := by
    unfold State.opens
    rw [hstill]
    simp
  dsimp only
  rw [if_neg hshut]
  rcases harrived.group g with k | ⟨x, hx, k⟩
  · exact ⟨gr, k.trans hgr, hwait, .refl ..⟩
  · obtain rfl := Option.some.inj (hx.symm.trans hgr)
    exact ⟨_, k, hwait, .of_tables rfl rfl rfl⟩

theorem arrival_completes {gr : Group} {wide : Bool} (hg : okGroup g = true) (hgr : s.group? g = some gr) (hwait : gr.wait = .barrier wide) (hnew : gr.fenced = false)
    (hreach : s.reached g gr.uid (if wide then 1 else 0) = true) (hown : (s.core g.core).ownWrites g.core gr.block gr.uid = false) :
    Does (.fenceComplete g) s [.cores] fun t => GroupAt g t (fun x => x = { gr with fenced := true }) ∧
      (wide = true → (t.core g.core).l1 = []) ∧ (wide = false → ∀ p, (t.core p).l1 = (s.core p).l1) := by
  have hresult : exec (.fenceComplete g) s = .next (s.arrive g) := by
    refine (withUnit_ok hg _).trans (congrArg _ ?_)
    rw [hgr]
    dsimp only
    rw [hwait]
  refine .intro hresult (chg_arrive ..).1 ?_
  rw [arrive_eq hgr hwait hnew hreach hown]
  refine ⟨⟨_, group_arrivedAs .., rfl⟩, fun h => ?_, fun h p => (l1_arrivedAs s g gr wide p).resolve_right fun k => ?_⟩
  · unfold State.arrivedAs
    rw [if_pos h]
    exact l1_dropL1_self ..
  · rw [h] at k
    cases k.1

theorem fence_completes {gr : Group} {sc : Nat} (hg : okGroup g = true) (hgr : s.group? g = some gr) (hwait : gr.wait = .fence sc) (hreach : s.reached g gr.uid sc = true) :
    Does (.fenceComplete g) s [.cores] fun t =>
      (GroupAt g t fun x => x.wait = .none ∧ Kept [] [] [] gr x) ∧ (sc ≠ 0 → (t.core g.core).l1 = []) ∧ (sc = 0 → ∀ p, (t.core p).l1 = (s.core p).l1) ∧
      (g.slot ∈ ((t.core g.core).sched g.sched).ready ∨ g.slot ∈ ((t.core g.core).sched g.sched).active) := by
  have hresult : exec (.fenceComplete g) s = .next ((if sc = 0 then s else s.dropL1 g.core).wake g) := by
    refine (withUnit_ok hg _).trans (congrArg _ ?_)
    rw [hgr]
    dsimp only
    rw [hwait]
    exact if_pos hreach
  have hgroup : (if sc = 0 then s else s.dropL1 g.core).group? g = some gr := by
    split
    · exact hgr
    · exact (group_dropL1 ..).trans hgr
  have htouch : Touches [.cores] s (if sc = 0 then s else s.dropL1 g.core) := by
    split
    · exact .refl ..
    · exact (chg_dropL1 ..).1
  refine .intro hresult (htouch.trans (chg_wake ..).1) ⟨⟨gr.awake, ?_, rfl, kept_awake gr⟩, fun h => ?_, fun h p => ?_, ready_wake ..⟩
  · rw [group_wake, hgroup]
    rfl
  · rw [l1_of_bare (bare_wake ..), if_neg h]
    exact l1_dropL1_self ..
  · rw [l1_of_bare (bare_wake ..), if_pos h]

theorem waitsEnd : WaitsEnd :=
  ⟨fun _ _ _ _ => arrival_completes, fun _ _ _ _ => barrier_opens, fun _ _ _ => barrier_held, fun _ _ _ _ => fence_completes⟩

end

/-- Settles O13: exits, barriers and fences as a group issues them, and the end of the waits by an invariant of the arrivals. -/
theorem groupsWaitAndGoOn : Obligations.GroupsWaitAndGoOn := ⟨groupsExitAndWait, waitsEnd⟩

end Sys2Proof.Machine
end

section
namespace Sys2Proof.Machine

/-! A core's blocks as a word is fetched and issues (R76, R87). -/

section
variable {s t u : State} {g : GRef} {w : Word64} {c : Ctx}

/-- All of a core but its instruction cache. -/
def Core.cold (c : Core) : Core := { c with icache := [], preLines := [] }

theorem cold_icacheFill (s : State) (p line : Nat) (bs : List Byte) (pre : Option Nat) (q : Nat) : ((s.icacheFill p line bs pre).core q).cold = (s.core q).cold := by
  have hset : ∀ (v : State) (x : Core), v.core q = s.core q → x.cold = (s.core p).cold → ((v.setCore p x).core q).cold = (s.core q).cold := by
    intro v x hv hx
    rw [State.core_setCore]
    split
    · next h => rw [h, hx]
    · rw [hv]
  unfold State.icacheFill
  dsimp only
  split
  · exact hset s _ rfl rfl
  · exact hset _ _ rfl rfl

/-- Fetching a word changes nothing of the cores but instruction caches. -/
theorem cold_fetch (s : State) (g : GRef) (c : Ctx) (q : Nat) : ((s.fetch g c).2.core q).cold = (s.core q).cold := by
  have htransl : ∀ {r t}, s.transl c.la.part c.gr.pc .fetch (.core g.core) = (r, t) → t.core q = s.core q := fun h => by
    have hcore := (chg_transl s c.la.part c.gr.pc .fetch (.core g.core)).1.core_eq (by decide) q
    rwa [h] at hcore
  unfold State.fetch
  dsimp only
  split
  · rfl
  · split
    · next h => rw [htransl h]
    · next tr t h =>
      split
      · rw [htransl h]
      · split
        · rw [htransl h]
        · have hread := (chg_readAt t (tr.tgt.back (c.gr.pc % 128)) 128).1.core_eq (by decide) q
          rw [cold_icacheFill]
          split
          · rw [(chg_l2Touch _ _ _ _ _ _ _).1.core_eq (by decide) q, hread, htransl h]
          · rw [hread, htransl h]

theorem blockAt_of_blocks {p : Nat} (h : (t.core p).blocks = (s.core p).blocks) (slot : Nat) : t.blockAt p slot = s.blockAt p slot := by
  unfold State.blockAt
  rw [h]

theorem blockAt_of_bare {p : Nat} (h : (t.core p).bare = (s.core p).bare) (slot : Nat) : t.blockAt p slot = s.blockAt p slot :=
  blockAt_of_blocks (congrArg Core.blocks h :) slot

theorem lsByte_of_blockAt {p slot : Nat} (h : t.blockAt p slot = s.blockAt p slot) (i : Nat) : lsByte t p slot i = lsByte s p slot i := by
  unfold lsByte
  rw [h]

/-- The group's block stands in its slot. -/
theorem Issues.block_eq (h : Issues s g w c u) : u.blockAt g.core c.gr.block = some c.blk := by
  obtain ⟨_, hctx, _, hfetch, _⟩ := h
  obtain ⟨_, _, _, hblk, _⟩ := issueCtx_eq_some hctx
  have hcold := cold_fetch s g c g.core
  rw [hfetch] at hcold
  exact (blockAt_of_blocks (congrArg Core.blocks hcold :) _).trans hblk

/-- An access that no order holds up goes on. -/
theorem access_ok {k : State → State} {ordered : Bool} (h : u.accessWait g c.gr.uid w ordered = none) : u.access g c w ordered k = k u := by
  unfold State.access
  rw [h]

theorem orRaise_nil {k : State → State} {xs : List Exc} (h : xs = []) : u.orRaise g c w xs k = k u := by
  rw [h]
  rfl

/-! A local access as it issues (R91). -/

theorem issuedLocal_keeps (hg : okGroup g = true) (u : State) (c : Ctx) (n : Nat) (eas : List (Nat × Nat)) :
    OnlyGroup g u (u.issuedLocal g c n eas) ∧ OnlyCounters u (u.issuedLocal g c n eas) := by
  unfold State.issuedLocal
  dsimp only
  split
  · exact ⟨onlyGroup_issued .., issued_onlyCounters _ _ _ hg⟩
  · exact ⟨(onlyGroup_issued ..).trans (onlyGroup_pmEvent ..), (issued_onlyCounters _ _ _ hg).trans (onlyCounters_pmEvent _ _ _ _ (okCore_of_okGroup hg))⟩

/-- The group has issued a local access and stands as `x`. -/
theorem issuedLocal_retire (hg : okGroup g = true) (u : State) (c : Ctx) (n : Nat) (eas : List (Nat × Nat)) (x : Group) :
    Touches [.regs, .cores, .launches] u ((u.issuedLocal g c n eas).retire g x) ∧ OnlyGroup g u ((u.issuedLocal g c n eas).retire g x) ∧
    OnlyCounters u ((u.issuedLocal g c n eas).retire g x) ∧ ((u.issuedLocal g c n eas).retire g x).group? g = some x.next := by
  obtain ⟨honly, hcount⟩ := issuedLocal_keeps hg u c n eas
  exact ⟨(chg_issuedLocal ..).1.trans ((chg_setGroup ..).1.mono (subF_of rfl)), honly.trans (onlyGroup_setGroup _ hg _), hcount.setGroup g _, State.group_setGroup_self ..⟩

end

/-! Late and local results in the registers of their lanes (R77, R106, R123). -/

section
variable {x y : Group} {w : Word64} {d : Dest} {vals : List (Nat × List Byte)}

/-- The values of lanes, as a destination takes them. -/
def Dest.loaded (d : Dest) (vals : List (Nat × List Byte)) : List (Nat × Nat) := vals.map fun v => (v.1, loadValue d.width d.sx v.2)

theorem setDests_eq (x : Group) (d : Dest) (vals : List (Nat × List Byte)) :
    vals.foldl (fun a v => a.setDest d v.1 v.2) x = x.give d.unif d.reg (regsFor d.width) (d.loaded vals) := by
  unfold Group.give Dest.loaded
  rw [List.foldl_map]
  rfl

theorem loaded_lt (h : ∀ v ∈ vals, v.1 < 32) : ∀ e ∈ d.loaded vals, e.1 < 32 := fun e he => by
  obtain ⟨v, hv, rfl⟩ := List.mem_map.1 he
  exact h v hv

theorem loaded_fst (d : Dest) (vals : List (Nat × List Byte)) : (d.loaded vals).map (·.1) = vals.map (·.1) := by
  unfold Dest.loaded
  rw [List.map_map]
  rfl

theorem receivedAll_give (x : Group) (d : Dest) (vals : List (Nat × List Byte)) : ReceivedAll x d vals (vals.foldl (fun a v => a.setDest d v.1 v.2) x) := by
  rw [setDests_eq]
  intro hfits hlanes
  have hlt := loaded_lt (d := d) hlanes
  refine ⟨fun hnodup hone v hv => ?_, ?_, fun l hl hne i => ?_⟩
  · exact give_reads hlt hfits ((loaded_fst d vals).symm ▸ hnodup) (fun hu => (List.length_map _).trans_le (hone hu)) (v.1, loadValue d.width d.sx v.2) (List.mem_map_of_mem hv)
  · have hkept := give_kept (x := x) (u := d.unif) (i := d.reg) (n := regsFor d.width) hlt
    unfold regsOf at hkept
    cases hu : d.unif <;> rw [hu] at hkept <;> exact hkept
  · refine give_others hlt hl (fun e he => ?_) i
    obtain ⟨v, hv, rfl⟩ := List.mem_map.1 he
    exact hne v hv

theorem ReceivedAll.of_kept {z : Group} (h : ReceivedAll x d vals y) (k : Kept [] [] [] y z) : ReceivedAll x d vals z := by
  intro hfits hlanes
  obtain ⟨hread, hkept, hothers⟩ := h hfits hlanes
  refine ⟨fun hnodup hone v hv => ?_, hkept.trans (k.mono (List.nil_subset _) (List.nil_subset _) (List.nil_subset _)),
    fun l hl hne i => (k.1 l i hl List.not_mem_nil).trans (hothers l hl hne i)⟩
  exact (rd_congr (fun i _ => k.1 v.1 i (hlanes v hv) List.not_mem_nil) (fun i _ => k.2.1 i List.not_mem_nil) _ _).trans (hread hnodup hone v hv)

theorem regsFor_width_le (w : Word64) : regsFor (widthOf w) ≤ 63 := by
  have hpow : widthOf w ≤ 2 ^ 7 := Nat.pow_le_pow_right (by decide) (by omega)
  unfold regsFor
  omega

theorem atomRegs_le (w : Word64) : atomWidth w / 4 ≤ 63 := by
  unfold atomWidth
  split <;> decide

/-- The lanes of a word with their addresses are its lanes. -/
theorem eas_fst (x : Group) (w : Word64) : (x.eas w).map (·.1) = x.lanes w := by
  unfold Group.eas
  rw [List.map_map]
  exact List.map_id _

theorem mem_eas {e : Nat × Nat} : e ∈ x.eas w ↔ e.1 ∈ x.lanes w ∧ e.2 = x.ea w e.1 := by
  unfold Group.eas
  rw [List.mem_map]
  exact ⟨fun ⟨l, hl, h⟩ => h ▸ ⟨hl, rfl⟩, fun ⟨hl, h⟩ => ⟨e.1, hl, Prod.ext rfl h.symm⟩⟩

end

/-! Bytes of local store (R86). -/

section
variable {s t u : State} {g : GRef} {p slot q k off n i : Nat} {bs : List Byte} {b : Block}

/-- A block after bytes have been written in its local store. -/
def Block.wrote (b : Block) (off : Nat) (bs : List Byte) : Block := { b with ls := msetBytes b.ls off bs }

theorem byte_wrote_out (b : Block) (h : i < off ∨ off + bs.length ≤ i) : (b.wrote off bs).byte i = b.byte i := by
  unfold Block.byte Block.wrote
  rw [mget_msetBytes_out bs b.ls off i h]

theorem byte_wrote_in (b : Block) (h : i < bs.length) : some ((b.wrote off bs).byte (off + i)) = bs[i]? := by
  unfold Block.byte Block.wrote
  rw [mget_msetBytes_in bs b.ls off i h, List.getElem?_eq_getElem h]
  rfl

theorem blocks_breakResv (c : Core) (f : Group → Nat → Resv → Bool) : (c.breakResv f).blocks = c.blocks := rfl

theorem blockAt_lsWrite (s : State) (p slot off : Nat) (bs : List Byte) (q k : Nat) :
    (s.lsWrite p slot off bs).blockAt q k = if q = p ∧ k = slot then (s.blockAt p slot).map (·.wrote off bs) else s.blockAt q k := by
  unfold State.lsWrite
  split
  · next hb =>
    split
    · next h => rw [h.1, h.2, hb]; rfl
    · rfl
  · next b hb =>
    split
    · next hbs =>
      split
      · next h => rw [h.1, h.2, hb, hbs]; rfl
      · rfl
    · unfold State.blockAt
      by_cases hq : q = p
      · rw [hq, State.core_modCore_self, blocks_breakResv]
        dsimp only
        rw [tfind_tset]
        by_cases hk : k = slot
        · rw [if_pos hk, if_pos ⟨rfl, hk⟩, show tfind (s.core p).blocks slot = some b from hb]
          rfl
        · rw [if_neg hk, if_neg fun h => hk h.2]
      · rw [State.core_modCore_ne _ _ hq, if_neg fun h => hq h.1]

theorem lsByte_lsWrite_out (s : State) (h : q = p → k = slot → i < off ∨ off + bs.length ≤ i) : lsByte (s.lsWrite p slot off bs) q k i = lsByte s q k i := by
  unfold lsByte
  rw [blockAt_lsWrite]
  split
  · next hsame =>
    obtain ⟨rfl, rfl⟩ := hsame
    cases s.blockAt q k with
    | none => rfl
    | some b => exact congrArg some (byte_wrote_out b (h rfl rfl))
  · rfl

theorem lsByte_lsWrite_in (hb : (s.blockAt p slot).isSome = true) (h : i < bs.length) : lsByte (s.lsWrite p slot off bs) p slot (off + i) = bs[i]? := by
  unfold lsByte
  rw [blockAt_lsWrite, if_pos ⟨rfl, rfl⟩]
  obtain ⟨b, hb⟩ := Option.isSome_iff_exists.1 hb
  rw [hb]
  exact byte_wrote_in b h

/-- The same blocks stand after a write. -/
theorem uid_lsWrite (s : State) (p slot off : Nat) (bs : List Byte) (q k : Nat) : ((s.lsWrite p slot off bs).blockAt q k).map (·.uid) = (s.blockAt q k).map (·.uid) := by
  rw [blockAt_lsWrite]
  split
  · next h =>
    rw [h.1, h.2, Option.map_map]
    rfl
  · rfl

theorem isSome_of_uid (h : (t.blockAt q k).map (·.uid) = (s.blockAt q k).map (·.uid)) : (t.blockAt q k).isSome = (s.blockAt q k).isSome := by
  rw [← Option.isSome_map, h, Option.isSome_map]

theorem group_breakResv {c : Core} {x : Group} {k : Nat} (hx : c.group? k = some x) (f : Group → Nat → Resv → Bool) :
    ∃ rs, (c.breakResv f).group? k = some { x with resv := rs } :=
  ⟨_, (tfind_map (fun _ (y : Group) => ({ y with resv := y.resv.filter fun r => !f y r.1 r.2 } : Group)) c.groups k).trans (congrArg _ hx)⟩

/-- Of a group a write of local store changes the reservations alone (R131). -/
theorem group_lsWrite {x : Group} (hx : s.group? g = some x) (p slot off : Nat) (bs : List Byte) : ∃ rs, (s.lsWrite p slot off bs).group? g = some { x with resv := rs } := by
  unfold State.lsWrite
  split
  · exact ⟨x.resv, hx⟩
  · split
    · exact ⟨x.resv, hx⟩
    · unfold State.group? at hx ⊢
      by_cases hp : g.core = p
      · subst hp
        rw [State.core_modCore_self]
        exact group_breakResv (by exact hx) _
      · rw [State.core_modCore_ne _ _ hp]
        exact ⟨x.resv, hx⟩

theorem creqs_lsWrite (s : State) (p slot off : Nat) (bs : List Byte) (q : Nat) : ((s.lsWrite p slot off bs).core q).creqs = (s.core q).creqs := by
  unfold State.lsWrite
  split
  · rfl
  · split
    · rfl
    · by_cases hq : q = p
      · rw [hq, State.core_modCore_self]
        rfl
      · rw [State.core_modCore_ne _ _ hq]

/-! Writes of several lanes, in turn. -/

/-- Where a lane writes, and what. -/
abbrev LsWrite := (Nat × Nat) × Nat × List Byte

/-- Writes of local store in turn. -/
def State.lsWrites (s : State) (xs : List LsWrite) : State := xs.foldl (fun t x => t.lsWrite x.1.1 x.1.2 x.2.1 x.2.2) s

variable {xs : List LsWrite}

theorem uid_lsWrites (s : State) (xs : List LsWrite) (q k : Nat) : ((s.lsWrites xs).blockAt q k).map (·.uid) = (s.blockAt q k).map (·.uid) :=
  foldl_keeps (fun t : State => (t.blockAt q k).map (·.uid) = (s.blockAt q k).map (·.uid)) _ xs s rfl fun t _ ht => (uid_lsWrite t ..).trans ht

theorem creqs_lsWrites (s : State) (xs : List LsWrite) (q : Nat) : ((s.lsWrites xs).core q).creqs = (s.core q).creqs :=
  foldl_keeps (fun t : State => (t.core q).creqs = (s.core q).creqs) _ xs s rfl fun t _ ht => (creqs_lsWrite t ..).trans ht

theorem group_lsWrites {x : Group} (hx : s.group? g = some x) (xs : List LsWrite) : ∃ rs, (s.lsWrites xs).group? g = some { x with resv := rs } :=
  foldl_keeps (fun t : State => ∃ rs, t.group? g = some { x with resv := rs }) _ xs s ⟨x.resv, hx⟩ fun _ y ⟨_, ht⟩ => group_lsWrite ht y.1.1 y.1.2 y.2.1 y.2.2

theorem chg_lsWrites (s : State) (xs : List LsWrite) : Touches [.cores] s (s.lsWrites xs) :=
  foldl_keeps (Touches [.cores] s) _ xs s (.refl ..) fun _ _ ht => ht.trans (chg_lsWrite ..).1

theorem lsByte_lsWrites_out (s : State) (h : ∀ x ∈ xs, q = x.1.1 → k = x.1.2 → i < x.2.1 ∨ x.2.1 + x.2.2.length ≤ i) : lsByte (s.lsWrites xs) q k i = lsByte s q k i :=
  foldl_keeps_mem (fun t : State => lsByte t q k i = lsByte s q k i) _ xs s rfl fun t x hx ht => (lsByte_lsWrite_out t (h x hx)).trans ht

/-- The last write of a place stays. -/
theorem lsByte_lsWrites_last {pre post : List LsWrite} {x : LsWrite} (hxs : xs = pre ++ x :: post) (hb : (s.blockAt x.1.1 x.1.2).isSome = true)
    (hpost : ∀ y ∈ post, y.1 = x.1 → y.2.1 + y.2.2.length ≤ x.2.1 ∨ x.2.1 + x.2.2.length ≤ y.2.1) (hi : i < x.2.2.length) :
    lsByte (s.lsWrites xs) x.1.1 x.1.2 (x.2.1 + i) = x.2.2[i]? := by
  have hsplit : s.lsWrites xs = ((s.lsWrites pre).lsWrite x.1.1 x.1.2 x.2.1 x.2.2).lsWrites post := by
    rw [hxs]
    unfold State.lsWrites
    rw [List.foldl_append]
    rfl
  rw [hsplit, lsByte_lsWrites_out _ fun y hy h1 h2 => ?_]
  · exact lsByte_lsWrite_in (by rwa [isSome_of_uid (uid_lsWrites s pre _ _)]) hi
  · have := hpost y hy (Prod.ext h1.symm h2.symm)
    omega

/-! Atomics of several lanes, in turn (R128, R130). -/

/-- A lane's atomic: its number, its place, its offset there, its operand and the new value of cas. -/
abbrev LsAtom := Nat × (Nat × Nat) × Nat × Nat × Nat

/-- Atomics on words of local store, one lane after another: the old words with their lanes, and the state after. -/
def State.lsAtomics (s : State) (op n : Nat) : List LsAtom → List (Nat × List Byte) × State
  | [] => ([], s)
  | (l, k, a, b, b2) :: rest =>
    let r := s.lsAtomic k.1 k.2 a n op b b2
    let x := r.2.lsAtomics op n rest
    ((l, r.1) :: x.1, x.2)

/-- The bytes of every local store. -/
def State.lsAll (s : State) (k : Nat × Nat) (i : Nat) : Byte := (lsByte s k.1 k.2 i).getD 0

theorem lsRead_eq (hb : (s.blockAt p slot).isSome = true) (off n : Nat) : s.lsRead p slot off n = (List.range n).map fun i => s.lsAll (p, slot) (off + i) := by
  obtain ⟨b, hb⟩ := Option.isSome_iff_exists.1 hb
  unfold State.lsRead State.lsAll lsByte
  rw [hb]
  rfl

theorem lsByte_eq_lsAll (hb : (s.blockAt p slot).isSome = true) (i : Nat) : lsByte s p slot i = some (s.lsAll (p, slot) i) := by
  obtain ⟨b, hb⟩ := Option.isSome_iff_exists.1 hb
  unfold State.lsAll lsByte
  rw [hb]
  rfl

theorem lsAtomic_fst (s : State) (p slot off n op b b2 : Nat) : (s.lsAtomic p slot off n op b b2).1 = s.lsRead p slot off n := by
  unfold State.lsAtomic
  dsimp only
  split <;> rfl

/-- What an atomic writes: the operation's value, or nothing. -/
theorem lsAtomic_snd (s : State) (p slot off n op b b2 : Nat) : (s.lsAtomic p slot off n op b b2).2 =
    s.lsWrites (((atomOp op (8 * n) (leNat (s.lsRead p slot off n)) b b2).map fun v => (((p, slot), off, leBytes n v) : LsWrite)).toList) := by
  unfold State.lsAtomic
  dsimp only
  cases atomOp op (8 * n) (leNat (s.lsRead p slot off n)) b b2 with
  | none => rfl
  | some v => rfl

theorem uid_lsAtomic (s : State) (p slot off n op b b2 q k : Nat) : ((s.lsAtomic p slot off n op b b2).2.blockAt q k).map (·.uid) = (s.blockAt q k).map (·.uid) := by
  rw [lsAtomic_snd]
  exact uid_lsWrites ..

/-- An atomic changes no byte but those of its word. -/
theorem lsByte_lsAtomic_out (s : State) {op b b2 : Nat} (h : q = p → k = slot → i < off ∨ off + n ≤ i) : lsByte (s.lsAtomic p slot off n op b b2).2 q k i = lsByte s q k i := by
  rw [lsAtomic_snd]
  refine lsByte_lsWrites_out s fun x hx => ?_
  obtain ⟨v, _, rfl⟩ := Option.map_eq_some_iff.1 (Option.mem_toList.1 hx)
  dsimp only
  rwa [leBytes_length]

section
variable {op : Nat} {as : List LsAtom}

theorem uid_lsAtomics (s : State) (op n : Nat) (as : List LsAtom) (q k : Nat) : ((s.lsAtomics op n as).2.blockAt q k).map (·.uid) = (s.blockAt q k).map (·.uid) := by
  induction as generalizing s with
  | nil => rfl
  | cons a as ih => exact (ih _).trans (uid_lsAtomic ..)

theorem touches_lsAtomics (s : State) (op n : Nat) (as : List LsAtom) : Touches [.cores] s (s.lsAtomics op n as).2 := by
  induction as generalizing s with
  | nil => exact .refl ..
  | cons a as ih => exact (chg_lsAtomic ..).1.trans (ih _)

theorem creqs_lsAtomics (s : State) (op n : Nat) (as : List LsAtom) (q : Nat) : ((s.lsAtomics op n as).2.core q).creqs = (s.core q).creqs := by
  induction as generalizing s with
  | nil => rfl
  | cons a as ih =>
    refine (ih _).trans ?_
    rw [lsAtomic_snd]
    exact creqs_lsWrites ..

theorem group_lsAtomics {x : Group} (hx : ∃ rs, s.group? g = some { x with resv := rs }) (op n : Nat) (as : List LsAtom) :
    ∃ rs, (s.lsAtomics op n as).2.group? g = some { x with resv := rs } := by
  induction as generalizing s with
  | nil => exact hx
  | cons a as ih =>
    obtain ⟨l, k, o, b, b2⟩ := a
    obtain ⟨_, hx⟩ := hx
    obtain ⟨rs, hrs⟩ : ∃ rs, (s.lsAtomic k.1 k.2 o n op b b2).2.group? g = some { x with resv := rs } := by
      rw [lsAtomic_snd]
      exact group_lsWrites hx _
    exact ih ⟨rs, hrs⟩

theorem lsByte_lsAtomics_out (s : State) (h : ∀ a ∈ as, q = a.2.1.1 → k = a.2.1.2 → i < a.2.2.1 ∨ a.2.2.1 + n ≤ i) : lsByte (s.lsAtomics op n as).2 q k i = lsByte s q k i := by
  induction as generalizing s with
  | nil => rfl
  | cons a as ih =>
    obtain ⟨ha, has⟩ := List.forall_mem_cons.1 h
    exact (ih _ has).trans (lsByte_lsAtomic_out s ha)

theorem lsAtomics_fst (s : State) (op n : Nat) (as : List LsAtom) : (s.lsAtomics op n as).1.map (·.1) = as.map (·.1) := by
  induction as generalizing s with
  | nil => rfl
  | cons a as ih => exact congrArg (a.1 :: ·) (ih _)

/-- Each old word holds `n` bytes. -/
theorem lsAtomics_length (hb : ∀ a ∈ as, (s.blockAt a.2.1.1 a.2.1.2).isSome = true) : ∀ v ∈ (s.lsAtomics op n as).1, v.2.length = n := by
  induction as generalizing s with
  | nil => nofun
  | cons a as ih =>
    obtain ⟨hb, hbs⟩ := List.forall_mem_cons.1 hb
    refine List.forall_mem_cons.2 ⟨?_, ih fun a' ha' => by rw [isSome_of_uid (uid_lsAtomic ..)]; exact hbs a' ha'⟩
    dsimp only
    rw [lsAtomic_fst, lsRead_eq hb, List.length_map, List.length_range]

/-- Atomics act for their lanes in turn, each on what those before it have left (R130). -/
theorem atomsGive_lsAtomics (hb : ∀ a ∈ as, (s.blockAt a.2.1.1 a.2.1.2).isSome = true) :
    AtomsGive op n as s.lsAll ((s.lsAtomics op n as).1.map fun v => (v.1, leNat v.2)) (s.lsAtomics op n as).2.lsAll := by
  induction as generalizing s with
  | nil => exact ⟨rfl, rfl⟩
  | cons a as ih =>
    obtain ⟨l, k, o, b, b2⟩ := a
    obtain ⟨hb, hbs⟩ := List.forall_mem_cons.1 hb
    have hread : s.lsRead k.1 k.2 o n = (List.range n).map fun i => s.lsAll k (o + i) := lsRead_eq hb o n
    refine ⟨(s.lsAtomic k.1 k.2 o n op b b2).2.lsAll, _, ?_, fun v hv => ⟨fun i hi => ?_, fun j i hj => ?_⟩, fun hnone => ?_,
      ih fun a' ha' => by rw [isSome_of_uid (uid_lsAtomic ..)]; exact hbs a' ha'⟩
    · rw [← hread, ← lsAtomic_fst s k.1 k.2 o n op b b2]
      rfl
    · have hlen : i < (leBytes n v).length := (leBytes_length n v).symm ▸ hi
      rw [← hread] at hv
      unfold State.lsAll
      rw [lsAtomic_snd, hv]
      show some ((lsByte (s.lsWrite k.1 k.2 o (leBytes n v)) k.1 k.2 (o + i)).getD 0) = _
      rw [lsByte_lsWrite_in hb hlen, List.getElem?_eq_getElem hlen]
      rfl
    · unfold State.lsAll
      rw [lsByte_lsAtomic_out s fun h1 h2 => hj (Prod.ext h1 h2)]
    · rw [← hread] at hnone
      rw [lsAtomic_snd, hnone]
      rfl

end

end

end Sys2Proof.Machine
end

section
namespace Sys2Proof.Machine

/-! Loads, stores and atomics of local store (R91, R123 to R125, R128, R130). -/

section
variable {s t u : State} {g : GRef} {w : Word64} {c : Ctx} {n : Nat} {x y : Group}

theorem localErrs_nil {b : Block} {eas : List (Nat × Nat)} (h : ∀ e ∈ eas, e.2 % n = 0 ∧ e.2 + n ≤ b.lsBytes) : (eas.flatMap fun e => localErrs b n e.1 e.2) = [] := by
  refine List.flatMap_eq_nil_iff.2 fun e he => ?_
  obtain ⟨halign, hspace⟩ := h e he
  unfold localErrs
  rw [if_pos halign, if_pos hspace]
  rfl

/-- The values of a word's lanes in its destination: other registers, and lanes that it does not act on, keep theirs. -/
theorem give_word {vals : List (Nat × Nat)} (hfst : vals.map (·.1) = x.lanes w) (n : Nat) :
    Kept (dRegs w n false) (dRegs w n true) [] x (x.give (fDU w) (fD w) n vals) ∧ LanesOnly w x (x.give (fDU w) (fD w) n vals) ∧
    (x.give (fDU w) (fD w) n vals).frame = x.frame ∧
    (fD w + n ≤ 255 → ∀ e ∈ vals, (x.give (fDU w) (fD w) n vals).rd e.1 (fDU w) (fD w) n = e.2 % 2 ^ (32 * n)) := by
  have hlanes : ∀ e ∈ vals, e.1 ∈ x.lanes w := fun e he => hfst ▸ List.mem_map_of_mem he
  have hlt : ∀ e ∈ vals, e.1 < 32 := fun e he => lanes_lt (hlanes e he)
  refine ⟨give_kept hlt, fun l hl hout i => give_others hlt hl (fun e he h => hout (h ▸ hlanes e he)) i, give_frame hlt,
    fun hfits => give_reads hlt hfits (hfst ▸ nodup_lanes x w) fun hu => ?_⟩
  rw [← List.length_map (f := (·.1)), hfst]
  exact length_lanes_le hu

theorem ldLocal_result (h : Issues s g w c u) (hok : LocalOk u g c w (widthOf w) false false) :
    s.rowLdLocal g w = (u.issuedLocal g c (widthOf w) (c.gr.eas w)).retire g
      (c.gr.give (fDU w) (fD w) (regsFor (widthOf w)) (laneVals c.gr w fun l => loadValue (widthOf w) (fSx w) (c.blk.bytes (c.gr.ea w l) (widthOf w)))) := by
  obtain ⟨hwait, hlanes, hbusy⟩ := hok
  have hgive : (c.gr.eas w).foldl (fun a e => a.setDest (destOf w (widthOf w) (fSx w)) e.1 (c.blk.bytes e.2 (widthOf w))) c.gr =
      c.gr.give (fDU w) (fD w) (regsFor (widthOf w)) (laneVals c.gr w fun l => loadValue (widthOf w) (fSx w) (c.blk.bytes (c.gr.ea w l) (widthOf w))) := by
    unfold Group.eas Group.give laneVals
    rw [List.foldl_map, List.foldl_map]
    rfl
  unfold State.rowLdLocal
  rw [h.issue_eq]
  dsimp only
  rw [access_ok hwait, orRaise_nil (localErrs_nil hlanes), if_neg (Bool.eq_false_iff.1 hbusy), hgive]

theorem ldLocal_loads (h : Issues s g w c u) (hrow : rowOf w = .ldLocal) (hok : LocalOk u g c w (widthOf w) false false) :
    Goes (.ldLocal g w) s u [.regs, .cores, .launches] fun t => OnlyGroup g u t ∧ OnlyCounters u t ∧ GroupAt g t fun x =>
      Kept (dRegs w (regsFor (widthOf w)) false) (dRegs w (regsFor (widthOf w)) true) [] c.gr x ∧ LanesOnly w c.gr x ∧ GoesOn c.gr x ∧
      (fD w ≠ 255 → ∀ e ∈ c.gr.eas w, x.rd e.1 (fDU w) (fD w) (regsFor (widthOf w)) =
        loadValue (widthOf w) (fSx w) (c.blk.bytes e.2 (widthOf w)) % 2 ^ (32 * regsFor (widthOf w))) := by
  have hresult := ldLocal_result h hok
  have hfits : fD w ≠ 255 → fD w + regsFor (widthOf w) ≤ 255 :=
    dest_fits h.static (by unfold opnds; rw [hrow]; exact List.mem_cons_self ..) (regsFor_width_le w)
  obtain ⟨hread, hkept, hothers, hgoes⟩ : WroteD w (regsFor (widthOf w)) (fun l => loadValue (widthOf w) (fSx w) (c.blk.bytes (c.gr.ea w l) (widthOf w))) c.gr _ :=
    wroteD_give _ hfits rfl rfl rfl rfl
  obtain ⟨htouch, honly, hcount, hgroup⟩ := issuedLocal_retire h.1 u c (widthOf w) (c.gr.eas w)
    (c.gr.give (fDU w) (fD w) (regsFor (widthOf w)) (laneVals c.gr w fun l => loadValue (widthOf w) (fSx w) (c.blk.bytes (c.gr.ea w l) (widthOf w))))
  refine h.goesRow (row := fun t => t.rowLdLocal g w) hrow (by decide) rfl (hresult ▸ htouch) ?_
  rw [hresult]
  refine ⟨honly, hcount, _, hgroup, hkept, hothers, hgoes, fun hne e he => ?_⟩
  obtain ⟨hl, hea⟩ := mem_eas.1 he
  rw [hread hne e.1 hl, hea]

/-! Stores. -/

/-- What the lanes of a local store write. -/
def storeWrites (g : GRef) (c : Ctx) (w : Word64) (n : Nat) : List LsWrite := (c.gr.eas w).map fun e => ((g.core, c.gr.block), e.2, c.gr.storeData w e.1 n)

theorem storeData_length (x : Group) (w : Word64) (l n : Nat) : (x.storeData w l n).length = n := leBytes_length ..

theorem stLocal_result (h : Issues s g w c u) (hok : LocalOk u g c w (widthOf w) true false) :
    s.rowStLocal g w = ((u.issuedLocal g c (widthOf w) (c.gr.eas w)).retire g c.gr).lsWrites (storeWrites g c w (widthOf w)) := by
  obtain ⟨hwait, hlanes, hbusy⟩ := hok
  unfold State.rowStLocal
  rw [h.issue_eq]
  dsimp only
  rw [access_ok hwait, orRaise_nil (localErrs_nil hlanes), if_neg (Bool.eq_false_iff.1 hbusy)]
  unfold State.lsWrites storeWrites
  rw [List.foldl_map]

/-- A group with other reservations. -/
def Group.withResv (x : Group) (rs : Tbl Resv) : Group := { x with resv := rs }

theorem settle_withResv (n : Nat) (x : Group) (rs : Tbl Resv) : Group.settle n (x.withResv rs) = (Group.settle n x).withResv rs := by
  induction n generalizing x with
  | zero => rfl
  | succ n ih =>
    have hstack : (x.withResv rs).stack = x.stack := rfl
    unfold Group.settle
    rw [hstack]
    cases x.stack with
    | nil => rfl
    | cons f rest =>
      cases f with
      | entry rc tk m =>
        show (if x.pc = rc ∨ x.active = 0 then _ else _) = Group.withResv (if x.pc = rc ∨ x.active = 0 then _ else _) rs
        split
        · exact ih { x with pc := tk, active := m, stack := .join rc x.active :: rest }
        · rfl
      | join rc m =>
        show (if x.pc = rc ∨ x.active = 0 then _ else _) = Group.withResv (if x.pc = rc ∨ x.active = 0 then _ else _) rs
        split
        · exact ih { x with pc := rc, active := x.active ||| m, stack := rest }
        · rfl

/-- Where a group goes on does not depend on its reservations. -/
theorem next_setResv (x : Group) (rs : Tbl Resv) : ({ x with resv := rs } : Group).next = { x.next with resv := rs } :=
  settle_withResv (2 * x.stack.length + 2) { x with pc := x.pc + 8 } rs

theorem goesOn_setResv {a b : Group} (h : GoesOn a b) (rs : Tbl Resv) : GoesOn a { b with resv := rs } := h

theorem stLocal_stores (h : Issues s g w c u) (hrow : rowOf w = .stLocal) (hok : LocalOk u g c w (widthOf w) true false) :
    Goes (.stLocal g w) s u [.regs, .cores, .launches] fun t => OnlyCounters u t ∧ GroupAt g t (fun x => Kept [] [] [] c.gr x ∧ GoesOn c.gr x) ∧
      LsOutside g.core c.gr.block (widthOf w) (c.gr.eas w) u t ∧
      ∀ pre e post, c.gr.eas w = pre ++ e :: post → (∀ f ∈ post, f.2 + widthOf w ≤ e.2 ∨ e.2 + widthOf w ≤ f.2) →
        ∀ i, i < widthOf w → lsByte t g.core c.gr.block (e.2 + i) = (c.gr.storeData w e.1 (widthOf w))[i]? := by
  have hresult := stLocal_result h hok
  obtain ⟨htouch, honly, hcount, hgroup⟩ := issuedLocal_retire h.1 u c (widthOf w) (c.gr.eas w) c.gr
  generalize (u.issuedLocal g c (widthOf w) (c.gr.eas w)).retire g c.gr = v at hresult htouch honly hcount hgroup
  have hwrites := chg_lsWrites v (storeWrites g c w (widthOf w))
  have hblocks : ∀ q k, v.blockAt q k = u.blockAt q k := fun q k => blockAt_of_bare (honly.2 q) k
  obtain ⟨rs, hrs⟩ := group_lsWrites hgroup (storeWrites g c w (widthOf w))
  refine h.goesRow (row := fun t => t.rowStLocal g w) hrow (by decide) rfl (hresult ▸ htouch.trans (hwrites.mono (subF_of rfl))) ?_
  rw [hresult]
  refine ⟨hcount.trans (.of_regs (hwrites.regs_eq (by decide))), ⟨_, hrs, (kept_next c.gr).trans (.of_tables rfl rfl rfl), goesOn_setResv (goesOn_next c.gr) rs⟩,
    fun q k i hout => ?_, fun pre e post heas hlast i hi => ?_⟩
  · rw [lsByte_lsWrites_out v fun x hx h1 h2 => ?_, lsByte_of_blockAt (hblocks q k)]
    obtain ⟨e, he, rfl⟩ := List.mem_map.1 hx
    dsimp only
    rw [storeData_length]
    exact hout h1 h2 e he
  · have hsplit : storeWrites g c w (widthOf w) = pre.map (fun e => ((g.core, c.gr.block), e.2, c.gr.storeData w e.1 (widthOf w))) ++
        ((g.core, c.gr.block), e.2, c.gr.storeData w e.1 (widthOf w)) :: post.map fun e => ((g.core, c.gr.block), e.2, c.gr.storeData w e.1 (widthOf w)) := by
      unfold storeWrites
      rw [heas, List.map_append, List.map_cons]
    refine lsByte_lsWrites_last hsplit ?_ (fun y hy _ => ?_) ((storeData_length ..).symm ▸ hi)
    · rw [hblocks, h.block_eq]
      rfl
    · obtain ⟨f, hf, rfl⟩ := List.mem_map.1 hy
      dsimp only
      rw [storeData_length, storeData_length]
      exact hlast f hf

/-! Atomics. -/

/-- The atomics of a word's lanes at the group's block. -/
def wordAtoms (g : GRef) (c : Ctx) (w : Word64) : List LsAtom :=
  (c.gr.eas w).map fun e => (e.1, (g.core, c.gr.block), e.2, (c.gr.atomB w e.1).1, (c.gr.atomB w e.1).2)

/-- An atomic that returns brings each lane the word that it found. -/
def Group.returned (x : Group) (w : Word64) (vals : List (Nat × List Byte)) : Group :=
  if atomReturns w then vals.foldl (fun a v => a.setDest (destOf w (atomWidth w) false) v.1 v.2) x else x

theorem rmw_fold (g : GRef) (c : Ctx) (w : Word64) (es : List (Nat × Nat)) (x : Group) (t : State) :
    es.foldl (fun (a : Group × State) e =>
      let b := c.gr.atomB w e.1
      let r := a.2.lsAtomic g.core c.gr.block e.2 (atomWidth w) (fAtom w) b.1 b.2
      (if atomReturns w then a.1.setDest (destOf w (atomWidth w) false) e.1 r.1 else a.1, r.2)) (x, t) =
    let as : List LsAtom := es.map fun e => (e.1, (g.core, c.gr.block), e.2, (c.gr.atomB w e.1).1, (c.gr.atomB w e.1).2)
    (x.returned w (t.lsAtomics (fAtom w) (atomWidth w) as).1, (t.lsAtomics (fAtom w) (atomWidth w) as).2) := by
  induction es generalizing x t with
  | nil =>
    unfold Group.returned
    cases atomReturns w <;> rfl
  | cons e es ih =>
    rw [List.foldl_cons, ih]
    unfold Group.returned
    cases atomReturns w <;> rfl

/-- An atomic's end: the group goes on, and an acquire is performed. -/
def State.rmwEnds (t : State) (g : GRef) (w : Word64) (x : Group) : State :=
  let v := t.modGroup g fun y => { x with resv := y.resv }.next
  if fAcquire w then v.acquired g.core (fScope w) else v

theorem rmwLocal_result (h : Issues s g w c u) (hok : LocalOk u g c w (atomWidth w) true true) :
    s.rowRmwLocal g w =
      (let r := (u.issuedLocal g c (atomWidth w) (c.gr.eas w)).lsAtomics (fAtom w) (atomWidth w) (wordAtoms g c w)
       r.2.rmwEnds g w (c.gr.returned w r.1)) := by
  obtain ⟨hwait, hlanes, hbusy⟩ := hok
  unfold State.rowRmwLocal
  rw [h.issue_eq]
  dsimp only
  rw [access_ok hwait, orRaise_nil (localErrs_nil hlanes), if_neg (Bool.eq_false_iff.1 hbusy)]
  have hfold := rmw_fold g c w (c.gr.eas w) c.gr (u.issuedLocal g c (atomWidth w) (c.gr.eas w))
  dsimp only at hfold
  rw [hfold]
  rfl

theorem acquired_keeps (s : State) (p scope q : Nat) (r : GRef) :
    (s.acquired p scope).group? r = s.group? r ∧ ((s.acquired p scope).core q).frame = (s.core q).frame := by
  unfold State.acquired
  split
  · exact ⟨rfl, rfl⟩
  · exact ⟨group_dropL1 .., frame_dropL1 ..⟩

theorem rmwEnds_keeps (t : State) (g : GRef) (w : Word64) (x : Group) : Touches [.cores] t (t.rmwEnds g w x) ∧ (∀ q, ((t.rmwEnds g w x).core q).frame = (t.core q).frame) ∧
    (t.rmwEnds g w x).group? g = (t.group? g).map fun y => { x with resv := y.resv }.next := by
  have hmod := (chg_modGroup t g fun y => { x with resv := y.resv }.next).1
  have hbare := bare_modGroup t g fun y => { x with resv := y.resv }.next
  have hgroup := group_modGroup t g fun y => { x with resv := y.resv }.next
  unfold State.rmwEnds
  dsimp only
  split
  · exact ⟨hmod.trans (chg_acquired ..).1, fun q => (acquired_keeps _ _ _ q g).2.trans (frame_of_bare (hbare q)), (acquired_keeps _ _ _ 0 g).1.trans hgroup⟩
  · exact ⟨hmod, fun q => frame_of_bare (hbare q), hgroup⟩

/-- Atomics at one place act there as they do among all. -/
theorem AtomsGive.at_place {op : Nat} {k : Nat × Nat} {xs : List (Nat × Nat × Nat × Nat)} {f h : Nat × Nat → Nat → Byte} {os : List (Nat × Nat)}
    (H : AtomsGive op n (xs.map fun x => (x.1, k, x.2)) f os h) : AtomsGive op n (xs.map fun x => (x.1, (), x.2)) (fun _ => f k) os (fun _ => h k) := by
  induction xs generalizing f os with
  | nil => exact ⟨H.1, funext fun _ => congrFun H.2 k⟩
  | cons x xs ih =>
    obtain ⟨f', os', hos, hsome, hnone, hrest⟩ := H
    exact ⟨fun _ => f' k, os', hos, fun v hv => ⟨(hsome v hv).1, fun _ i hi => (hsome v hv).2 k i fun _ => hi rfl⟩, fun h => funext fun _ => congrFun (hnone h) k, ih hrest⟩

theorem returned_spec {vals : List (Nat × List Byte)} (hfst : vals.map (·.1) = x.lanes w) (hlen : ∀ v ∈ vals, v.2.length = atomWidth w) :
    LanesOnly w x (x.returned w vals) ∧ (x.returned w vals).frame = x.frame ∧
    (atomReturns w = true → Kept (dRegs w (atomWidth w / 4) false) (dRegs w (atomWidth w / 4) true) [] x (x.returned w vals) ∧
      (fD w + atomWidth w / 4 ≤ 255 → ∀ v ∈ vals, (x.returned w vals).rd v.1 (fDU w) (fD w) (atomWidth w / 4) = leNat v.2)) ∧
    (atomReturns w = false → Kept [] [] [] x (x.returned w vals)) := by
  unfold Group.returned
  by_cases hret : atomReturns w = true
  · rw [if_pos hret, setDests_eq]
    have hregs : regsFor (atomWidth w) = atomWidth w / 4 := by unfold atomWidth; split <;> rfl
    have hbits : 8 * atomWidth w = 32 * (atomWidth w / 4) := by unfold atomWidth; split <;> rfl
    obtain ⟨hkept, hothers, hframe, hread⟩ := give_word (vals := (destOf w (atomWidth w) false).loaded vals) ((loaded_fst ..).trans hfst) (atomWidth w / 4)
    show LanesOnly w x (x.give (fDU w) (fD w) (regsFor (atomWidth w)) _) ∧ _
    dsimp only [destOf] at hregs hkept hothers hframe hread ⊢
    rw [hregs]
    refine ⟨hothers, hframe, fun _ => ⟨hkept, fun hfits v hv => ?_⟩, fun h => absurd hret (Bool.eq_false_iff.1 h)⟩
    rw [hread hfits (v.1, leNat v.2) (List.mem_map.2 ⟨v, hv, rfl⟩)]
    refine Nat.mod_eq_of_lt ((leNat_lt v.2).trans_eq ?_)
    rw [hlen v hv, hbits]
  · rw [if_neg hret]
    exact ⟨fun _ _ _ _ => rfl, rfl, fun h => absurd h hret, fun _ => .refl ..⟩

theorem oD_mem_rmwLocal (hrow : rowOf w = .rmwLocal) (hret : atomReturns w = true) : oD w (atomWidth w / 4) ∈ opnds w := by
  unfold opnds
  rw [hrow]
  dsimp only
  rw [if_pos (beq_iff_eq.1 hret)]
  exact List.mem_cons_self ..

theorem rmwLocal_acts (h : Issues s g w c u) (hrow : rowOf w = .rmwLocal) (hok : LocalOk u g c w (atomWidth w) true true) :
    Goes (.rmwLocal g w) s u [.regs, .cores, .launches] fun t => OnlyCounters u t ∧ LsOutside g.core c.gr.block (atomWidth w) (c.gr.eas w) u t ∧
      ∃ os h, AtomsGive (fAtom w) (atomWidth w) ((c.gr.eas w).map fun e => (e.1, (), e.2, (c.gr.atomB w e.1).1, (c.gr.atomB w e.1).2)) (fun _ => c.blk.byte) os h ∧
        (∀ i, lsByte t g.core c.gr.block i = some (h () i)) ∧
        GroupAt g t fun x => LanesOnly w c.gr x ∧ GoesOn c.gr x ∧
          (atomReturns w = true → Kept (dRegs w (atomWidth w / 4) false) (dRegs w (atomWidth w / 4) true) [] c.gr x ∧
            (fD w ≠ 255 → ∀ o ∈ os, x.rd o.1 (fDU w) (fD w) (atomWidth w / 4) = o.2)) ∧
          (atomReturns w = false → Kept [] [] [] c.gr x) := by
  have hresult := rmwLocal_result h hok
  have htouch := (chg_issuedLocal u g c (atomWidth w) (c.gr.eas w)).1
  obtain ⟨honly, hcount⟩ := issuedLocal_keeps h.1 u c (atomWidth w) (c.gr.eas w)
  have hgroup : (u.issuedLocal g c (atomWidth w) (c.gr.eas w)).group? g = some c.gr := by
    have hissued : ∀ r, (u.issuedLocal g c (atomWidth w) (c.gr.eas w)).group? r = u.group? r := fun r => by
      unfold State.issuedLocal
      dsimp only
      split
      · exact group_issued ..
      · exact (group_pmEvent ..).trans (group_issued ..)
    exact (hissued g).trans h.group_eq
  generalize u.issuedLocal g c (atomWidth w) (c.gr.eas w) = v at hresult htouch honly hcount hgroup
  have hblocks : ∀ q k, v.blockAt q k = u.blockAt q k := fun q k => blockAt_of_bare (honly.2 q) k
  have hblk : v.blockAt g.core c.gr.block = some c.blk := (hblocks ..).trans h.block_eq
  have hsome : ∀ a ∈ wordAtoms g c w, (v.blockAt a.2.1.1 a.2.1.2).isSome = true := fun a ha => by
    obtain ⟨e, _, rfl⟩ := List.mem_map.1 ha
    rw [hblk]
    rfl
  have hgive := atomsGive_lsAtomics (op := fAtom w) (n := atomWidth w) hsome
  have hlen := lsAtomics_length (op := fAtom w) (n := atomWidth w) hsome
  have hfst : (v.lsAtomics (fAtom w) (atomWidth w) (wordAtoms g c w)).1.map (·.1) = c.gr.lanes w := by
    rw [lsAtomics_fst, ← eas_fst]
    unfold wordAtoms
    rw [List.map_map]
    rfl
  have hatoms := touches_lsAtomics v (fAtom w) (atomWidth w) (wordAtoms g c w)
  obtain ⟨rs, hrs⟩ := group_lsAtomics ⟨_, hgroup⟩ (fAtom w) (atomWidth w) (wordAtoms g c w)
  have huid := uid_lsAtomics v (fAtom w) (atomWidth w) (wordAtoms g c w) g.core c.gr.block
  have hout : ∀ q k i, (q = g.core → k = c.gr.block → ∀ e ∈ c.gr.eas w, i < e.2 ∨ e.2 + atomWidth w ≤ i) →
      lsByte (v.lsAtomics (fAtom w) (atomWidth w) (wordAtoms g c w)).2 q k i = lsByte u q k i := fun q k i hout => by
    rw [lsByte_lsAtomics_out v fun a ha h1 h2 => ?_, lsByte_of_blockAt (hblocks q k)]
    obtain ⟨e, he, rfl⟩ := List.mem_map.1 ha
    exact hout h1 h2 e he
  dsimp only at hresult
  generalize v.lsAtomics (fAtom w) (atomWidth w) (wordAtoms g c w) = r at hresult hgive hlen hfst hatoms hrs huid hout
  obtain ⟨hends, hframe, hend⟩ := rmwEnds_keeps r.2 g w (c.gr.returned w r.1)
  have hlast : ∀ q k i, lsByte (r.2.rmwEnds g w (c.gr.returned w r.1)) q k i = lsByte r.2 q k i := fun q k i =>
    lsByte_of_blockAt (blockAt_of_blocks (blocks_of_frame (hframe q)) k) i
  have hstart : v.lsAll (g.core, c.gr.block) = c.blk.byte := funext fun i => by
    unfold State.lsAll lsByte
    rw [hblk]
    rfl
  refine h.goesRow (row := fun t => t.rowRmwLocal g w) hrow (by decide) rfl (hresult ▸ (htouch.trans (hatoms.mono (subF_of rfl))).trans (hends.mono (subF_of rfl))) ?_
  rw [hresult]
  refine ⟨(hcount.trans (.of_regs (hatoms.regs_eq (by decide)))).trans (.of_regs (hends.regs_eq (by decide))), fun q k i hq => (hlast q k i).trans (hout q k i hq),
    r.1.map fun v => (v.1, leNat v.2), fun _ => r.2.lsAll (g.core, c.gr.block), ?_, fun i => (hlast ..).trans ?_, ?_⟩
  · have hplace := AtomsGive.at_place (xs := (c.gr.eas w).map fun e => (e.1, e.2, (c.gr.atomB w e.1).1, (c.gr.atomB w e.1).2)) (k := (g.core, c.gr.block))
      (by rw [List.map_map]; exact hgive)
    rw [List.map_map, hstart] at hplace
    exact hplace
  · refine lsByte_eq_lsAll ?_ i
    rw [isSome_of_uid huid, hblk]
    rfl
  · obtain ⟨hothers, hsame, hreturns, hsilent⟩ := returned_spec hfst hlen
    have hkept : Kept [] [] [] (c.gr.returned w r.1) { (c.gr.returned w r.1).next with resv := rs } := (kept_next _).trans (.of_tables rfl rfl rfl)
    refine ⟨{ (c.gr.returned w r.1).next with resv := rs }, hend.trans ?_, fun l hl hnot i => (hkept.1 l i hl List.not_mem_nil).trans (hothers l hl hnot i),
      goesOn_setResv (goesOn_next_of_frame hsame) rs, fun hret => ⟨?_, fun hne o ho => ?_⟩, fun hret => (hsilent hret).trans hkept⟩
    · rw [hrs]
      exact congrArg some (next_setResv _ rs)
    · exact (hreturns hret).1.trans (hkept.mono (List.nil_subset _) (List.nil_subset _) (List.nil_subset _))
    · obtain ⟨v, hv, rfl⟩ := List.mem_map.1 ho
      have hlane : v.1 < 32 := lanes_lt (w := w) (x := c.gr) (hfst ▸ List.mem_map_of_mem hv)
      have hfits := dest_fits h.static (oD_mem_rmwLocal hrow hret) (atomRegs_le w) hne
      exact (rd_congr (fun i _ => hkept.1 v.1 i hlane List.not_mem_nil) (fun i _ => hkept.2.1 i List.not_mem_nil) _ _).trans ((hreturns hret).2 hfits v hv)

end

/-- Settles O15: a load gives its lanes their bytes, stores and atomics of the lanes go one after another. -/
theorem localAccessesMoveBytes : Obligations.LocalAccessesMoveBytes :=
  ⟨fun _ _ _ _ _ => ldLocal_loads, fun _ _ _ _ _ => stLocal_stores, fun _ _ _ _ _ => rmwLocal_acts⟩

end Sys2Proof.Machine
end

section
namespace Sys2Proof.Machine

/-! Requests through cluster windows (R99 to R102). -/

section
variable {s t u : State} {g h : GRef} {w : Word64} {c : Ctx} {p id n : Nat} {r : CReq}

/-- A group as it was, or ready. -/
def Woken (x y : Group) : Prop := y = x ∨ y = x.awake

theorem Woken.trans {x y z : Group} (h : Woken x y) (k : Woken y z) : Woken x z := by
  rcases h with rfl | rfl
  · exact k
  · exact .inr (k.elim id id)

theorem Woken.kept {x y : Group} (h : Woken x y) : Kept [] [] [] x y := by
  rcases h with rfl | rfl
  · exact .refl ..
  · exact kept_awake x

theorem Woken.uid_eq {x y : Group} (h : Woken x y) : y.uid = x.uid := by
  rcases h with rfl | rfl <;> rfl

theorem group_wake_woken {x : Group} (hx : s.group? h = some x) (g : GRef) : ∃ y, (s.wake g).group? h = some y ∧ Woken x y := by
  by_cases hsame : SameGroup h g
  · refine ⟨x.awake, ?_, .inr rfl⟩
    rw [hsame.group_eq, group_wake, ← hsame.group_eq, hx]
    rfl
  · exact ⟨x, (group_wake_other s hsame).trans hx, .inl rfl⟩

theorem group_wakeAll_woken {x : Group} (hx : ∃ y, s.group? h = some y ∧ Woken x y) (p : Nat) (w : Wait) : ∃ y, (s.wakeAll p w).group? h = some y ∧ Woken x y :=
  foldl_keeps (fun t : State => ∃ y, t.group? h = some y ∧ Woken x y) _ _ s hx fun t _ ⟨_, hy, hwoken⟩ => by
    obtain ⟨z, hz, hk⟩ := group_wake_woken hy _
    exact ⟨z, hz, hwoken.trans hk⟩

theorem group_wakeAll_kept {x : Group} (hx : s.group? h = some x) (p : Nat) (w : Wait) : ∃ y, (s.wakeAll p w).group? h = some y ∧ Kept [] [] [] x y := by
  obtain ⟨y, hy, hwoken⟩ := group_wakeAll_woken ⟨x, hx, .inl rfl⟩ p w
  exact ⟨y, hy, hwoken.kept⟩

/-! A request is made (R100, R102). -/

theorem clusterErrs_nil {eas : List (Nat × Nat)}
    (h : ∀ e ∈ eas, e.2 % n = 0 ∧ e.2 / 2 ^ 18 < c.blk.csize ∧ ∃ m, u.ranked c.blk (e.2 / 2 ^ 18) = some m ∧ e.2 % 2 ^ 18 + n ≤ m.2.2.lsBytes) :
    (eas.flatMap fun e => u.clusterErrs c.blk n e.1 e.2) = [] := by
  refine List.flatMap_eq_nil_iff.2 fun e he => ?_
  obtain ⟨halign, hrank, m, hm, hspace⟩ := h e he
  unfold State.clusterErrs
  rw [if_pos halign, if_pos hrank, hm]
  exact if_pos hspace

/-- What a lane asks of the block it names. -/
def askedLane (data : Nat → List Byte) (e : Nat × Nat) (m : Nat × Nat × Block) : CLane :=
  { lane := e.1, core := m.1, slot := m.2.1, block := m.2.2.uid, off := e.2 % 2 ^ 18, data := data e.1 }

/-- The lanes of a request, each with the block it names. -/
def askedLanes (u : State) (c : Ctx) (data : Nat → List Byte) (eas : List (Nat × Nat)) : List CLane :=
  eas.filterMap fun e => (u.ranked c.blk (e.2 / 2 ^ 18)).map (askedLane data e)

theorem askedLanes_map {eas : List (Nat × Nat)} (data : Nat → List Byte) (h : ∀ e ∈ eas, ∃ m, u.ranked c.blk (e.2 / 2 ^ 18) = some m) :
    (askedLanes u c data eas).map (fun x => (x.lane, x.off, x.data)) = eas.map fun e => (e.1, e.2 % 2 ^ 18, data e.1) := by
  unfold askedLanes
  induction eas with
  | nil => rfl
  | cons e eas ih =>
    obtain ⟨⟨m, hm⟩, hrest⟩ := List.forall_mem_cons.1 h
    rw [List.filterMap_cons, hm]
    exact congrArg _ (ih hrest)

theorem mem_askedLanes {eas : List (Nat × Nat)} (data : Nat → List Byte) {e : Nat × Nat} (he : e ∈ eas) {m : Nat × Nat × Block}
    (hm : u.ranked c.blk (e.2 / 2 ^ 18) = some m) : ∃ x ∈ askedLanes u c data eas, x.lane = e.1 ∧ x.core = m.1 ∧ x.slot = m.2.1 ∧ x.block = m.2.2.uid :=
  ⟨askedLane data e m, List.mem_filterMap.2 ⟨e, he, by rw [hm]; rfl⟩, rfl, rfl, rfl, rfl⟩

/-- The request of a cluster-window instruction. -/
def askedReq (u : State) (g : GRef) (c : Ctx) (w : Word64) (kind op n : Nat) (sx ordered : Bool) (data : Nat → List Byte) : CReq := {
  guid := c.gr.uid
  site := ⟨g.sched, g.slot, c.gr.low, c.gr.pc, w⟩
  launch := c.lid
  run := c.gr.run
  kind := kind
  op := op
  width := n
  lanes := askedLanes u c data (c.gr.eas w)
  dest := destOf w n sx
  acq := if ordered && fAcquire w then some (fScope w) else none }

theorem blocks_of_bare {x y : Core} (h : x.bare = y.bare) : x.blocks = y.blocks := (congrArg Core.blocks h :)

theorem creqs_of_bare {x y : Core} (h : x.bare = y.bare) : x.creqs = y.creqs := (congrArg Core.creqs h :)

/-- A request takes a core's next response slot. -/
def Core.ask (k : Core) (r : CReq) : Core := { k with creqs := tset k.creqs k.nextId r, nextId := k.nextId + 1 }

theorem clusterIssue_result {kind : Nat} (op : Nat) {wr ordered : Bool} (sx : Bool) (data : Group → Nat → List Byte) (h : Issues s g w c u)
    (hok : ClusterOk u g c w n wr ordered) (hkind : (kind != 0) = wr) : s.clusterIssue g w kind op n sx ordered data =
      ((u.issued g c).modCore g.core (·.ask (askedReq u g c w kind op n sx ordered (data c.gr)))).retire g c.gr := by
  obtain ⟨hwait, hsome, hslots, hbusy, hlanes⟩ := hok
  unfold State.clusterIssue
  rw [h.issue_eq]
  dsimp only
  rw [access_ok hwait, orRaise_nil (clusterErrs_nil hlanes), if_neg hsome, hkind, if_neg (Bool.eq_false_iff.1 hbusy), if_pos hslots]
  rfl

theorem clusterIssue_asks {kind : Nat} (op : Nat) {wr ordered : Bool} (sx : Bool) (data : Group → Nat → List Byte) (h : Issues s g w c u)
    (hok : ClusterOk u g c w n wr ordered) (hkind : (kind != 0) = wr) : Touches [.regs, .cores, .launches] u (s.clusterIssue g w kind op n sx ordered data) ∧
      AskedCluster g c w kind n (data c.gr) u (s.clusterIssue g w kind op n sx ordered data) := by
  rw [clusterIssue_result op sx data h hok hkind]
  obtain ⟨_, _, _, _, hlanes⟩ := hok
  have hask := (chg_modCore (u.issued g c) g.core (·.ask (askedReq u g c w kind op n sx ordered (data c.gr)))).1
  have hset := (chg_retire ((u.issued g c).modCore g.core (·.ask (askedReq u g c w kind op n sx ordered (data c.gr)))) g c.gr).1
  have hissued := bare_issued u g c
  refine ⟨((chg_issued u g c).1.trans (hask.mono (subF_of rfl))).trans (hset.mono (subF_of rfl)),
    ⟨_, State.group_setGroup_self .., kept_next _, goesOn_next _⟩, fun p k i => lsByte_of_blockAt (blockAt_of_blocks ?_ k) i,
    ((issued_onlyCounters u g c h.1).trans (.of_regs (hask.regs_eq (by decide)))).trans (.of_regs (hset.regs_eq (by decide))),
    ((u.issued g c).core g.core).nextId, askedReq u g c w kind op n sx ordered (data c.gr), ?_, rfl, rfl, rfl, rfl,
    askedLanes_map _ fun e he => ?_, fun e he m hm => mem_askedLanes _ he hm⟩
  · refine ((blocks_of_bare (bare_setGroup _ g _ p)).trans ?_).trans (blocks_of_bare (hissued p))
    by_cases hp : p = g.core
    · rw [hp, State.core_modCore_self]
      rfl
    · rw [State.core_modCore_ne _ _ hp]
  · refine (creqs_of_bare (bare_setGroup _ g _ g.core)).trans ?_
    have hcreqs : ((u.issued g c).core g.core).creqs = (u.core g.core).creqs := creqs_of_bare (hissued g.core)
    rw [← hcreqs]
    exact congrArg Core.creqs (State.core_modCore_self ..)
  · obtain ⟨_, _, m, hm, _⟩ := hlanes e he
    exact ⟨m, hm⟩

/-! A request is served (R101). -/

/-- What serving a request's lanes in turn gives. -/
def State.serveLanes (s : State) (r : CReq) (ls : List CLane) : List (Nat × List Byte) × State :=
  ls.foldl (fun (a : List (Nat × List Byte) × State) l =>
    let y := a.2.serveLane r l
    (a.1 ++ [(l.lane, y.1)], y.2)) ([], s)

/-- The served request, with its values. -/
def CReq.withVals (r : CReq) (vals : List (Nat × List Byte)) : CReq := { r with served := some vals }

/-- A request of core `p` after it has been served. -/
def State.serveEnds (t : State) (p id : Nat) (r : CReq) (vals : List (Nat × List Byte)) : State :=
  let v := t.modCore p fun c => { c with creqs := tset c.creqs id (r.withVals vals) }
  match r.acq with
  | some scope => v.acquired p scope
  | none => v

theorem serveCluster_result (hr : tfind (s.core p).creqs id = some r) (hok : Servable s p id r) :
    s.serveCluster p id = (s.serveLanes r r.lanes).2.serveEnds p id r (s.serveLanes r r.lanes).1 := by
  obtain ⟨hnew, horder, hring⟩ := hok
  have hfirst : ((s.core p).creqs.any fun e => decide (e.1 < id) && e.2.served.isNone && e.2.guid == r.guid && e.2.meets r) = false := by
    rw [List.any_eq_false]
    intro e he hcond
    simp only [Bool.and_eq_true, decide_eq_true_eq, Option.isNone_iff_eq_none, beq_iff_eq] at hcond
    obtain ⟨⟨⟨hid, hserved⟩, hguid⟩, hmeets⟩ := hcond
    exact Bool.eq_false_iff.1 (horder e he hid hserved hguid) hmeets
  have hcross : (r.lanes.any fun x => !s.crosses s.d2d .clusterRequest .clusterResponse (dieOfPhys p) (dieOfPhys x.core)) = false := by
    rw [List.any_eq_false]
    intro x hx hcond
    rw [hring x hx] at hcond
    cases hcond
  unfold State.serveCluster
  rw [hr]
  dsimp only
  rw [hnew, hfirst, hcross, if_neg (by simp)]
  rfl

theorem serveEnds_keeps (t : State) (p id : Nat) (r : CReq) (vals : List (Nat × List Byte)) :
    tfind ((t.serveEnds p id r vals).core p).creqs id = some (r.withVals vals) ∧ ∀ q k i, lsByte (t.serveEnds p id r vals) q k i = lsByte t q k i := by
  have hcreqs : tfind ((t.modCore p fun c => { c with creqs := tset c.creqs id (r.withVals vals) }).core p).creqs id = some (r.withVals vals) := by
    rw [State.core_modCore_self]
    exact tfind_tset_self ..
  have hblocks : ∀ q, ((t.modCore p fun c => { c with creqs := tset c.creqs id (r.withVals vals) }).core q).blocks = (t.core q).blocks := fun q => by
    by_cases hq : q = p
    · rw [hq, State.core_modCore_self]
    · rw [State.core_modCore_ne _ _ hq]
  unfold State.serveEnds
  dsimp only
  split
  · next scope _ =>
    have hframe := fun q => (acquired_keeps (t.modCore p fun c => { c with creqs := tset c.creqs id (r.withVals vals) }) p scope q ⟨p, 0, 0⟩).2
    exact ⟨(congrArg (tfind · id) (creqs_of_frame (hframe p))).trans hcreqs, fun q k i => lsByte_of_blockAt (blockAt_of_blocks ((blocks_of_frame (hframe q)).trans (hblocks q)) k) i⟩
  · exact ⟨hcreqs, fun q k i => lsByte_of_blockAt (blockAt_of_blocks (hblocks q) k) i⟩

/-- The block that a lane names stands in its slot. -/
def CLane.Stands (s : State) (x : CLane) : Prop := (s.blockAt x.core x.slot).map (·.uid) = some x.block

theorem serveLane_stands {x : CLane} (h : x.Stands s) : s.serveLane r x = match r.kind with
    | 0 => (s.lsRead x.core x.slot x.off r.width, s)
    | 1 => ([], s.lsWrite x.core x.slot x.off x.data)
    | _ => s.lsAtomic x.core x.slot x.off r.width r.op (numAt x.data 0 r.width) (numAt x.data r.width r.width) := if_neg fun hne => hne h

theorem serveLane_gone {x : CLane} (h : ¬x.Stands s) : s.serveLane r x = ([], s) := if_pos h

/-- Serving lanes in turn adds to what has been served before. -/
theorem serveLanes_fold (r : CReq) (ls : List CLane) (acc : List (Nat × List Byte)) (s : State) :
    ls.foldl (fun (a : List (Nat × List Byte) × State) l =>
      let y := a.2.serveLane r l
      (a.1 ++ [(l.lane, y.1)], y.2)) (acc, s) = (acc ++ (s.serveLanes r ls).1, (s.serveLanes r ls).2) := by
  unfold State.serveLanes
  induction ls generalizing acc s with
  | nil => rw [List.foldl_nil, List.foldl_nil, List.append_nil]
  | cons l ls ih =>
    rw [List.foldl_cons, List.foldl_cons, ih, ih (acc := [] ++ _)]
    dsimp only
    rw [List.nil_append, List.append_assoc]

theorem serveLanes_cons (s : State) (r : CReq) (l : CLane) (ls : List CLane) : s.serveLanes r (l :: ls) =
    ((l.lane, (s.serveLane r l).1) :: ((s.serveLane r l).2.serveLanes r ls).1, ((s.serveLane r l).2.serveLanes r ls).2) := by
  show ls.foldl _ ([] ++ [(l.lane, (s.serveLane r l).1)], (s.serveLane r l).2) = _
  rw [serveLanes_fold]
  rfl

theorem serveLanes_gone {ls : List CLane} (h : ∀ x ∈ ls, ¬x.Stands s) : s.serveLanes r ls = (ls.map fun x => (x.lane, []), s) := by
  induction ls with
  | nil => rfl
  | cons l ls ih =>
    obtain ⟨hl, hls⟩ := List.forall_mem_cons.1 h
    rw [serveLanes_cons, serveLane_gone hl, ih hls]
    rfl

theorem serveLanes_load {ls : List CLane} (hkind : r.kind = 0) (h : ∀ x ∈ ls, x.Stands s) :
    s.serveLanes r ls = (ls.map fun x => (x.lane, s.lsRead x.core x.slot x.off r.width), s) := by
  induction ls with
  | nil => rfl
  | cons l ls ih =>
    obtain ⟨hl, hls⟩ := List.forall_mem_cons.1 h
    rw [serveLanes_cons, serveLane_stands hl]
    simp only [hkind, ih hls, List.map_cons]

/-- What the lanes of a window store write. -/
def CLane.write (x : CLane) : LsWrite := ((x.core, x.slot), x.off, x.data)

theorem serveLanes_store {ls : List CLane} (hkind : r.kind = 1) (h : ∀ x ∈ ls, x.Stands s) : (s.serveLanes r ls).2 = s.lsWrites (ls.map CLane.write) := by
  induction ls generalizing s with
  | nil => rfl
  | cons l ls ih =>
    obtain ⟨hl, hls⟩ := List.forall_mem_cons.1 h
    rw [serveLanes_cons, serveLane_stands hl, hkind]
    exact ih fun x hx => (uid_lsWrite ..).trans (hls x hx)

/-- The atomic of a window lane. -/
def CLane.atom (r : CReq) (x : CLane) : LsAtom := (x.lane, (x.core, x.slot), x.off, numAt x.data 0 r.width, numAt x.data r.width r.width)

theorem serveLanes_atomic {ls : List CLane} (hkind : r.kind = 2 ∨ r.kind = 3) (h : ∀ x ∈ ls, x.Stands s) :
    s.serveLanes r ls = s.lsAtomics r.op r.width (ls.map (CLane.atom r)) := by
  induction ls generalizing s with
  | nil => rfl
  | cons l ls ih =>
    obtain ⟨hl, hls⟩ := List.forall_mem_cons.1 h
    have hserve : s.serveLane r l = s.lsAtomic l.core l.slot l.off r.width r.op (numAt l.data 0 r.width) (numAt l.data r.width r.width) := by
      rw [serveLane_stands hl]
      rcases hkind with hk | hk <;> simp only [hk]
    rw [serveLanes_cons, hserve, ih fun x hx => (uid_lsAtomic ..).trans (hls x hx)]
    rfl

theorem leBytes_leNat (bs : List Byte) : leBytes bs.length (leNat bs) = bs := by
  induction bs with
  | nil => rfl
  | cons b bs ih =>
    have hlow : BitVec.ofNat 8 (leNat (b :: bs)) = b := BitVec.eq_of_toNat_eq (by
      have := b.isLt
      rw [BitVec.toNat_ofNat, leNat]
      omega)
    have hrest : leNat (b :: bs) / 256 = leNat bs := by
      have := b.isLt
      rw [leNat]
      omega
    rw [List.length_cons, leBytes, hlow, hrest, ih]

theorem CLane.Stands.isSome {x : CLane} (h : x.Stands s) : (s.blockAt x.core x.slot).isSome = true := by
  rw [← Option.isSome_map (f := (·.uid)), show (s.blockAt x.core x.slot).map (·.uid) = some x.block from h]
  rfl

/-- What serving a request of each kind leaves in `t`, its blocks all standing in `s`. -/
def CReq.ServedAt (r : CReq) (s t : State) (vals : List (Nat × List Byte)) : Prop :=
  (r.kind = 0 → vals = (r.lanes.map fun x => (x.lane, s.lsRead x.core x.slot x.off r.width)) ∧ ∀ p k i, lsByte t p k i = lsByte s p k i) ∧
  (r.kind = 1 → (∀ p k i, (∀ x ∈ r.lanes, x.core = p → x.slot = k → i < x.off ∨ x.off + x.data.length ≤ i) → lsByte t p k i = lsByte s p k i) ∧
    ∀ pre x post, r.lanes = pre ++ x :: post → (∀ y ∈ post, y.core = x.core → y.slot = x.slot → y.off + y.data.length ≤ x.off ∨ x.off + x.data.length ≤ y.off) →
      ∀ i, i < x.data.length → lsByte t x.core x.slot (x.off + i) = x.data[i]?) ∧
  (r.kind = 2 ∨ r.kind = 3 → ∃ os h, AtomsGive r.op r.width
      (r.lanes.map fun x => (x.lane, (x.core, x.slot), x.off, numAt x.data 0 r.width, numAt x.data r.width r.width)) (fun k i => (lsByte s k.1 k.2 i).getD 0) os h ∧
    vals = (os.map fun o => (o.1, leBytes r.width o.2)) ∧ (∀ x ∈ r.lanes, ∀ i, lsByte t x.core x.slot i = some (h (x.core, x.slot) i)) ∧
    ∀ p k, (∀ x ∈ r.lanes, x.core = p → x.slot ≠ k) → ∀ i, lsByte t p k i = lsByte s p k i)

theorem CReq.ServedAt.of_bytes {u : State} {vals : List (Nat × List Byte)} (h : r.ServedAt s t vals) (hbytes : ∀ q k i, lsByte u q k i = lsByte t q k i) :
    r.ServedAt s u vals := by
  unfold CReq.ServedAt
  simp only [hbytes]
  exact h

theorem serveLanes_spec (h : ∀ x ∈ r.lanes, x.Stands s) : r.ServedAt s (s.serveLanes r r.lanes).2 (s.serveLanes r r.lanes).1 := by
  refine ⟨fun hk => ?_, fun hk => ⟨fun p k i hout => ?_, fun pre x post hsplit hlast i hi => ?_⟩, fun hk => ?_⟩
  · rw [serveLanes_load hk h]
    exact ⟨rfl, fun _ _ _ => rfl⟩
  · rw [serveLanes_store hk h]
    refine lsByte_lsWrites_out s fun y hy h1 h2 => ?_
    obtain ⟨x, hx, rfl⟩ := List.mem_map.1 hy
    exact hout x hx h1.symm h2.symm
  · rw [serveLanes_store hk h]
    refine lsByte_lsWrites_last (x := x.write) (by rw [hsplit, List.map_append, List.map_cons]) (h x (hsplit ▸ List.mem_append_right _ (List.mem_cons_self ..))).isSome
      (fun y hy hsame => ?_) hi
    obtain ⟨z, hz, rfl⟩ := List.mem_map.1 hy
    exact hlast z hz (congrArg Prod.fst hsame) (congrArg Prod.snd hsame)
  · have hsome : ∀ a ∈ r.lanes.map (CLane.atom r), (s.blockAt a.2.1.1 a.2.1.2).isSome = true := fun a ha => by
      obtain ⟨x, hx, rfl⟩ := List.mem_map.1 ha
      exact (h x hx).isSome
    have hlen := lsAtomics_length (op := r.op) (n := r.width) hsome
    rw [serveLanes_atomic hk h]
    refine ⟨_, _, atomsGive_lsAtomics hsome, ?_, fun x hx i => lsByte_eq_lsAll ?_ i, fun p k hout i => lsByte_lsAtomics_out s fun a ha h1 h2 => ?_⟩
    · rw [List.map_map]
      refine (List.map_id _).symm.trans (List.map_congr_left fun v hv => Prod.ext rfl ?_)
      exact (leBytes_leNat v.2).symm.trans (congrArg (leBytes · (leNat v.2)) (hlen v hv))
    · rw [isSome_of_uid (uid_lsAtomics ..)]
      exact (h x hx).isSome
    · obtain ⟨x, hx, rfl⟩ := List.mem_map.1 ha
      exact absurd h2.symm (hout x hx h1.symm)

theorem cluster_served (hp : okCore p = true) (hr : tfind (s.core p).creqs id = some r) (hok : Servable s p id r)
    (hstands : ∀ x ∈ r.lanes, (s.blockAt x.core x.slot).map (·.uid) = some x.block) :
    Does (.clusterRequestServe p id) s [.cores] fun t => ∃ q vals, tfind (t.core p).creqs id = some q ∧ q.served = some vals ∧ r.ServedAt s t vals := by
  refine .intro (withUnit_ok hp _) (chg_serveCluster s p id).1 ?_
  obtain ⟨hreq, hbytes⟩ := serveEnds_keeps (s.serveLanes r r.lanes).2 p id r (s.serveLanes r r.lanes).1
  rw [serveCluster_result hr hok]
  exact ⟨_, _, hreq, rfl, (serveLanes_spec hstands).of_bytes hbytes⟩

theorem cluster_gone (hp : okCore p = true) (hr : tfind (s.core p).creqs id = some r) (hok : Servable s p id r)
    (hgone : ∀ x ∈ r.lanes, (s.blockAt x.core x.slot).map (·.uid) ≠ some x.block) :
    Does (.clusterRequestServe p id) s [.cores] fun t => (∃ q, tfind (t.core p).creqs id = some q ∧ q.served = some (r.lanes.map fun x => (x.lane, []))) ∧
      ∀ p k i, lsByte t p k i = lsByte s p k i := by
  refine .intro (withUnit_ok hp _) (chg_serveCluster s p id).1 ?_
  rw [serveCluster_result hr hok, serveLanes_gone hgone]
  obtain ⟨hreq, hbytes⟩ := serveEnds_keeps s p id r (r.lanes.map fun x => (x.lane, []))
  exact ⟨⟨_, hreq, rfl⟩, hbytes⟩

/-! A response returns (R102). -/

theorem resultGroup_eq {guid lid run : Nat} {x : Site} (hgroup : t.group? ⟨p, x.sched, x.slot⟩ = s.group? ⟨p, x.sched, x.slot⟩) (hlaunch : t.launch? lid = s.launch? lid) :
    t.resultGroup p guid lid run x = s.resultGroup p guid lid run x := by
  unfold State.resultGroup
  rw [hgroup, hlaunch]

/-- Late results reach the group that asked, and it may become ready. -/
theorem giveResults_received {guid lid run : Nat} {x : Site} {gr : Group} (d : Dest) (vals : List (Nat × List Byte)) (hgr : s.resultGroup p guid lid run x = some gr) :
    ∃ y, (s.giveResults p guid lid run x d vals).group? ⟨p, x.sched, x.slot⟩ = some y ∧ ReceivedAll gr d vals y := by
  unfold State.giveResults
  rw [hgr]
  exact ⟨_, State.group_setGroup_self .., receivedAll_give gr d vals⟩

/-- All of a core but its groups and their schedulers stays as results arrive. -/
theorem bare_giveResults (s : State) (p guid lid run : Nat) (x : Site) (d : Dest) (vals : List (Nat × List Byte)) (q : Nat) :
    ((s.giveResults p guid lid run x d vals).core q).bare = (s.core q).bare := by
  unfold State.giveResults
  split
  · exact bare_setGroup ..
  · rfl

/-- A group that has received its values still has them as groups become ready. -/
theorem received_wakeAll {d : Dest} {vals : List (Nat × List Byte)} {gr : Group} (hx : ∃ y, s.group? g = some y ∧ ReceivedAll gr d vals y) (p : Nat) (w : Wait) :
    ∃ y, (s.wakeAll p w).group? g = some y ∧ ReceivedAll gr d vals y := by
  obtain ⟨y, hy, hreceived⟩ := hx
  obtain ⟨z, hz, hkept⟩ := group_wakeAll_kept hy p w
  exact ⟨z, hz, ReceivedAll.of_kept hreceived hkept⟩

theorem cluster_returned {vals : List (Nat × List Byte)} (hp : okCore p = true) (hr : tfind (s.core p).creqs id = some r) (hserved : r.served = some vals) :
    Does (.clusterResponse p id) s [.cores] fun t => tfind (t.core p).creqs id = none ∧
      (r.kind = 0 ∨ r.kind = 2 → ∀ gr, s.resultGroup p r.guid r.launch r.run r.site = some gr →
        GroupAt ⟨p, r.site.sched, r.site.slot⟩ t (ReceivedAll gr r.dest vals)) ∧
      (r.kind = 1 ∨ r.kind = 3 → ∀ g gr, s.group? g = some gr → GroupAt g t (Kept [] [] [] gr)) := by
  refine .intro (withUnit_ok hp _) (chg_clusterReturn s p id).1 ?_
  have hfreed : ∀ h, (s.modCore p fun c => { c with creqs := tdel c.creqs id }).group? h = s.group? h := fun h => group_modCore s (by rfl) h
  have hslot : tfind ((s.modCore p fun c => { c with creqs := tdel c.creqs id }).core p).creqs id = none := by
    rw [State.core_modCore_self]
    exact tfind_tdel_self ..
  have hlaunch := (chg_modCore s p fun c => { c with creqs := tdel c.creqs id }).1.launch_eq (by decide)
  unfold State.clusterReturn
  rw [hr]
  dsimp only
  rw [hserved]
  dsimp only
  generalize (s.modCore p fun c => { c with creqs := tdel c.creqs id }) = v at hfreed hslot hlaunch
  by_cases hloads : r.kind = 0 ∨ r.kind = 2
  · rw [if_pos hloads]
    refine ⟨?_, fun _ gr hgr => received_wakeAll (giveResults_received r.dest vals ?_) p .cluster, fun h => by omega⟩
    · have hbare := (bare_wakeAll (v.giveResults p r.guid r.launch r.run r.site r.dest vals) p .cluster p).trans (bare_giveResults ..)
      exact (congrArg (tfind · id) (congrArg Core.creqs hbare :)).trans hslot
    · exact (resultGroup_eq (hfreed _) (hlaunch _)).trans hgr
  · rw [if_neg hloads]
    refine ⟨?_, fun h => absurd h hloads, fun _ g gr hgr => group_wakeAll_kept ((hfreed g).trans hgr) p .cluster⟩
    exact (congrArg (tfind · id) (congrArg Core.creqs (bare_wakeAll v p .cluster p) :)).trans hslot

/-! The rows of cluster windows. -/

theorem atomKind_ne (w : Word64) : ((if atomReturns w then 2 else 3) != 0) = true := by
  split <;> rfl

theorem ldCluster_asks (h : Issues s g w c u) (hrow : rowOf w = .ldCluster) (hok : ClusterOk u g c w (widthOf w) false false) :
    Goes (.ldCluster g w) s u [.regs, .cores, .launches] fun t => AskedCluster g c w 0 (widthOf w) (fun _ => []) u t := by
  obtain ⟨htouch, hasked⟩ := clusterIssue_asks (kind := 0) 0 (fSx w) (fun _ _ => []) h hok rfl
  exact h.goesRow (row := fun t => t.rowLdCluster g w) hrow (by decide) rfl htouch hasked

theorem stCluster_asks (h : Issues s g w c u) (hrow : rowOf w = .stCluster) (hok : ClusterOk u g c w (widthOf w) true false) :
    Goes (.stCluster g w) s u [.regs, .cores, .launches] fun t => AskedCluster g c w 1 (widthOf w) (fun l => c.gr.storeData w l (widthOf w)) u t := by
  obtain ⟨htouch, hasked⟩ := clusterIssue_asks (kind := 1) 0 false (fun gr l => gr.storeData w l (widthOf w)) h hok rfl
  exact h.goesRow (row := fun t => t.rowStCluster g w) hrow (by decide) rfl htouch hasked

theorem rmwCluster_asks (h : Issues s g w c u) (hrow : rowOf w = .rmwCluster) (hok : ClusterOk u g c w (atomWidth w) true true) :
    Goes (.rmwCluster g w) s u [.regs, .cores, .launches] fun t => AskedCluster g c w (if atomReturns w then 2 else 3) (atomWidth w)
      (fun l => leBytes (2 * atomWidth w) ((c.gr.atomB w l).1 + (c.gr.atomB w l).2 * 2 ^ (8 * atomWidth w))) u t := by
  obtain ⟨htouch, hasked⟩ := clusterIssue_asks (fAtom w) false
    (fun gr l => leBytes (2 * atomWidth w) ((gr.atomB w l).1 + (gr.atomB w l).2 * 2 ^ (8 * atomWidth w))) h hok (atomKind_ne w)
  exact h.goesRow (row := fun t => t.rowRmwCluster g w) hrow (by decide) rfl htouch hasked

end

/-- Settles O16: requests, their service at the lanes' targets in turn, and the responses. -/
theorem clusterRequestsAreServed : Obligations.ClusterRequestsAreServed :=
  ⟨fun _ _ _ _ _ => ldCluster_asks, fun _ _ _ _ _ => stCluster_asks, fun _ _ _ _ _ => rmwCluster_asks, fun _ _ _ _ => cluster_served,
    fun _ _ _ _ => cluster_gone, fun _ _ _ _ _ => cluster_returned⟩

end Sys2Proof.Machine
end

section
namespace Sys2Proof.Machine

/-! Loads from global memory (R224, R227, R230 to R236). -/

section
variable {s t u v : State} {g : GRef} {w : Word64} {c : Ctx} {n p id : Nat} {ls : List LaneAt}

/-- Lanes are translated as they stand in the instruction. -/
theorem lane_of_translLanes (s : State) (core part n : Nat) (acc : TAcc) (eas : List (Nat × Nat)) :
    ∀ x ∈ (s.translLanes core part n acc eas).1.1, x.lane ∈ eas.map (·.1) := by
  induction eas generalizing s with
  | nil => nofun
  | cons e eas ih =>
    intro x hx
    unfold State.translLanes at hx
    dsimp only at hx
    split at hx
    · exact List.mem_cons_of_mem _ (ih _ x hx)
    · rcases List.mem_cons.1 hx with rfl | hx
      · exact List.mem_cons_self ..
      · exact List.mem_cons_of_mem _ (ih _ x hx)

theorem lane_of_globalOk {acc : TAcc} (h : GlobalOk u g c w n acc ls v) : ∀ x ∈ ls, x.lane < 32 := by
  obtain ⟨_, htransl, _⟩ := h
  intro x hx
  have hmem := lane_of_translLanes u g.core c.la.part n acc (c.gr.eas w) x (by rw [htransl]; exact hx)
  rw [eas_fst] at hmem
  exact lanes_lt hmem

/-- Whether L1 may serve a load. -/
def State.cacheable (v : State) (g : GRef) (c : Ctx) (w : Word64) (ls : List LaneAt) : Bool :=
  v.l1On g.core c.la ls && !ls.any (·.tr.mt) && (getBits (fMod w) 4 2 == 0 || getBits (fMod w) 4 2 == 2)

/-- A load whose lanes all make ordinary accesses goes on to its branches. -/
theorem ldGlobal_result (h : Issues s g w c u) (hok : GlobalOk u g c w (widthOf w) .read ls v) : s.rowLdGlobal g w = v.loadGlobal g c w (widthOf w) [] ls := by
  obtain ⟨hwait, htransl, hplain⟩ := hok
  have hclaim : ∀ e ∈ c.gr.eas w, (inClaimPage e.2 && widthOf w == 4 && e.2 % 4 == 0) = false := fun e he => by rw [(hplain e he).1]; rfl
  have hall : (c.gr.eas w).filter (fun e => !(inClaimPage e.2 && widthOf w == 4 && e.2 % 4 == 0)) = c.gr.eas w :=
    List.filter_eq_self.2 fun e he => by rw [hclaim e he]; rfl
  have hnone : (c.gr.eas w).filter (fun e => inClaimPage e.2 && widthOf w == 4 && e.2 % 4 == 0) = [] :=
    List.filter_eq_nil_iff.2 fun e he => Bool.eq_false_iff.1 (hclaim e he)
  unfold State.rowLdGlobal
  rw [h.issue_eq]
  dsimp only
  rw [access_ok hwait, hall, hnone, htransl, orRaise_nil rfl]
  rfl

theorem loadGlobal_sends (hstrict : (ls.any (·.tr.mt) && v.strictPending g c.gr.uid) = false) (hfwd : forwardOf v g c n ls = .none)
    (hhit : (v.core g.core).trackHit false (spansOf n ls) = false) (hmiss : (if v.cacheable g c w ls then (v.core g.core).l1Hits n ls else none) = none)
    (hls : ls ≠ []) (hfull : (v.core g.core).trackFull = false) : v.loadGlobal g c w n [] ls =
      (if v.cacheable g c w ls then (v.issued g c).pmEvent g.core evL1Miss c.la.part 1 else v.issued g c).sendLoad g c w n ls c.gr (v.cacheable g c w ls) (getBits (fMod w) 6 1 == 1) := by
  unfold forwardOf sbufOf at hfwd
  unfold State.cacheable at hmiss ⊢
  unfold State.loadGlobal
  dsimp only
  rw [hstrict, if_neg Bool.false_ne_true, hfwd]
  dsimp only
  rw [hhit, if_neg Bool.false_ne_true, hmiss]
  dsimp only
  rw [if_neg hls, hfull, if_neg Bool.false_ne_true]
  rfl

theorem loadGlobal_forwards {vs : List (Nat × List Byte)} (hplain : ls.any (·.tr.mt) = false) (hfwd : forwardOf v g c n ls = .data vs) : v.loadGlobal g c w n [] ls =
    (v.issued g c).retire g (vs.foldl (fun a v => a.setDest (destOf w n (fSx w)) v.1 v.2) c.gr) := by
  unfold forwardOf sbufOf at hfwd
  unfold State.loadGlobal
  dsimp only
  rw [hplain, Bool.false_and, if_neg Bool.false_ne_true, hfwd]
  rfl

theorem loadGlobal_hits {vs : List (Nat × List Byte)} (hplain : ls.any (·.tr.mt) = false) (hfwd : forwardOf v g c n ls = .none)
    (hhit : (v.core g.core).trackHit false (spansOf n ls) = false) (hcache : v.cacheable g c w ls = true) (hl1 : (v.core g.core).l1Hits n ls = some vs)
    (holder : (v.core g.core).olderRead (v.core g.core).nextId (spansOf n ls) = false) (hls : ls ≠ []) : v.loadGlobal g c w n [] ls =
      ((v.issued g c).pmEvent g.core evL1Hit c.la.part 1).retire g (vs.foldl (fun a v => a.setDest (destOf w n (fSx w)) v.1 v.2) c.gr) := by
  have hstrict : (ls.any (·.tr.mt) && v.strictPending g c.gr.uid) = false := by rw [hplain]; rfl
  unfold forwardOf sbufOf at hfwd
  unfold State.cacheable at hcache
  unfold State.loadGlobal
  dsimp only
  rw [hstrict, if_neg Bool.false_ne_true, hfwd]
  dsimp only
  rw [hhit, if_neg Bool.false_ne_true, if_pos hcache, hl1]
  dsimp only
  rw [holder, if_neg Bool.false_ne_true, if_neg hls]
  rfl

/-- The tracker entry of a load. -/
def loadTrack (c : Ctx) (n : Nat) (ls : List LaneAt) : Track :=
  { guid := c.gr.uid, launch := c.lid, run := c.gr.run, part := c.la.part, isWrite := false, spans := spansOf n ls, strict := ls.any (·.tr.mt) }

/-- The outstanding load. -/
def loadSent (v : State) (g : GRef) (c : Ctx) (w : Word64) (n : Nat) (ls : List LaneAt) (alloc lcr : Bool) : Load := {
  guid := c.gr.uid
  site := c.site g w
  launch := c.lid
  run := c.gr.run
  reads := ls.map fun x => { lane := x.lane, va := x.va, tgt := x.tr.tgt, width := n }
  dest := destOf w n (fSx w)
  track := some (v.core g.core).nextId
  alloc := alloc
  lcr := lcr
  cut := v.d2d }

/-- A load that goes to its home slice stands outstanding with its tracker entry, and the group goes on. -/
theorem sendLoad_stands (v : State) (g : GRef) (c : Ctx) (w : Word64) (n : Nat) (ls : List LaneAt) (gr : Group) (alloc lcr : Bool) :
    (v.sendLoad g c w n ls gr alloc lcr).group? g = some gr.next ∧
    ∃ id l k x, tfind ((v.sendLoad g c w n ls gr alloc lcr).core g.core).loads id = some l ∧ l.guid = c.gr.uid ∧ l.bound = none ∧ l.dest = destOf w n (fSx w) ∧
      l.reads = ls.map (fun y => { lane := y.lane, va := y.va, tgt := y.tr.tgt, width := n }) ∧
      l.track = some k ∧ tfind ((v.sendLoad g c w n ls gr alloc lcr).core g.core).art k = some x ∧ x.isWrite = false ∧ x.spans = spansOf n ls := by
  unfold State.sendLoad
  dsimp only
  refine ⟨State.group_setGroup_self .., ((v.track g.core (loadTrack c n ls)).2.core g.core).nextId, loadSent v g c w n ls alloc lcr, _,
    loadTrack c n ls, ?_, rfl, rfl, rfl, rfl, rfl, ?_, rfl, rfl⟩
  · refine (congrArg (tfind · _) (congrArg Core.loads (bare_setGroup ..) :)).trans ?_
    rw [(chg_touchLanes ..).1.core_eq (by decide), State.core_modCore_self]
    exact tfind_tset_self ..
  · refine (congrArg (tfind · _) (congrArg Core.art (bare_setGroup ..) :)).trans ?_
    rw [(chg_touchLanes ..).1.core_eq (by decide), State.core_modCore_self]
    exact art_track v g.core (loadTrack c n ls)

theorem counters_sendLoad (v : State) (g : GRef) (c : Ctx) (w : Word64) (n : Nat) (ls : List LaneAt) (gr : Group) (alloc lcr : Bool) :
    OnlyCounters v (v.sendLoad g c w n ls gr alloc lcr) := .of_regs ((chg_sendLoad ..).1.regs_eq (by decide))

/-- What a load that goes to its branches changes. -/
theorem touches_ldGlobal (hok : GlobalOk u g c w n .read ls v) : Touches coreSide u (v.loadGlobal g c w n [] ls) := by
  have htransl := (chg_translLanes u g.core c.la.part n .read (c.gr.eas w)).1
  rw [hok.2.1] at htransl
  exact (htransl.mono (subF_of rfl)).trans ((chg_loadGlobal ..).1.mono (subF_of rfl))

theorem counters_event (hg : okGroup g = true) (v : State) (c : Ctx) (ev : Nat) : OnlyCounters v ((v.issued g c).pmEvent g.core ev c.la.part 1) :=
  (issued_onlyCounters v g c hg).trans (onlyCounters_pmEvent _ _ _ _ (okCore_of_okGroup hg))

theorem ldGlobal_stands (h : Issues s g w c u) (hrow : rowOf w = .ldGlobal) (hok : GlobalOk u g c w (widthOf w) .read ls v) (hls : ls ≠ [])
    (hstrict : ls.any (·.tr.mt) = true → v.strictPending g c.gr.uid = false) (hfwd : forwardOf v g c (widthOf w) ls = .none)
    (hmiss : ls.any (·.tr.mt) = true ∨ v.l1On g.core c.la ls = false ∨ fMod w / 16 % 4 = 1 ∨ (v.core g.core).l1Hits (widthOf w) ls = none)
    (hhit : (v.core g.core).trackHit false (spansOf (widthOf w) ls) = false) (hfull : (v.core g.core).trackFull = false) :
    Goes (.ldGlobal g w) s u coreSide fun t => OnlyCounters v t ∧ GroupAt g t (fun x => Kept [] [] [] c.gr x ∧ GoesOn c.gr x) ∧
      ∃ id l k x, tfind (t.core g.core).loads id = some l ∧ l.guid = c.gr.uid ∧ l.bound = none ∧ l.dest = destOf w (widthOf w) (fSx w) ∧
        l.reads = ls.map (fun y => { lane := y.lane, va := y.va, tgt := y.tr.tgt, width := widthOf w }) ∧
        l.track = some k ∧ tfind (t.core g.core).art k = some x ∧ x.isWrite = false ∧ x.spans = spansOf (widthOf w) ls := by
  have hstrict' : (ls.any (·.tr.mt) && v.strictPending g c.gr.uid) = false := by
    cases hmt : ls.any (·.tr.mt) with
    | false => rfl
    | true => exact hstrict hmt
  have hmiss' : (if v.cacheable g c w ls then (v.core g.core).l1Hits (widthOf w) ls else none) = none := by
    split
    · next hcache =>
      unfold State.cacheable at hcache
      simp only [Bool.and_eq_true, Bool.or_eq_true, Bool.not_eq_true', beq_iff_eq] at hcache
      obtain ⟨⟨hon, hplain⟩, horder⟩ := hcache
      rcases hmiss with h | h | h | h
      · rw [hplain] at h
        cases h
      · rw [hon] at h
        cases h
      · have hbits : getBits (fMod w) 4 2 = fMod w / 16 % 4 := rfl
        omega
      · exact h
    · rfl
  have hresult := (ldGlobal_result h hok).trans (loadGlobal_sends hstrict' hfwd hhit hmiss' hls hfull)
  refine h.goesRow (row := fun t => t.rowLdGlobal g w) hrow (by decide) rfl (ldGlobal_result h hok ▸ touches_ldGlobal hok) ?_
  rw [hresult]
  obtain ⟨hgroup, hload⟩ := sendLoad_stands (if v.cacheable g c w ls then (v.issued g c).pmEvent g.core evL1Miss c.la.part 1 else v.issued g c) g c w (widthOf w) ls c.gr
    (v.cacheable g c w ls) (getBits (fMod w) 6 1 == 1)
  refine ⟨OnlyCounters.trans ?_ (counters_sendLoad _ _ _ _ _ _ _ _ _), ⟨_, hgroup, kept_next _, goesOn_next _⟩, hload⟩
  split
  · exact counters_event h.1 v c evL1Miss
  · exact issued_onlyCounters v g c h.1

/-- A load that is served as it issues. -/
theorem ldGlobal_serves {vs : List (Nat × List Byte)} (h : Issues s g w c u) (hrow : rowOf w = .ldGlobal) (hok : GlobalOk u g c w (widthOf w) .read ls v) {t : State}
    (hcount : OnlyCounters v t) (hlanes : ∀ x ∈ vs, x.1 < 32)
    (hresult : v.loadGlobal g c w (widthOf w) [] ls = t.retire g (vs.foldl (fun a v => a.setDest (destOf w (widthOf w) (fSx w)) v.1 v.2) c.gr)) :
    Goes (.ldGlobal g w) s u coreSide fun t => OnlyCounters v t ∧ GroupAt g t fun x =>
      Kept (dRegs w (regsFor (widthOf w)) false) (dRegs w (regsFor (widthOf w)) true) [] c.gr x ∧ GoesOn c.gr x ∧ ReceivedAll c.gr (destOf w (widthOf w) (fSx w)) vs x := by
  refine h.goesRow (row := fun t => t.rowLdGlobal g w) hrow (by decide) rfl (ldGlobal_result h hok ▸ touches_ldGlobal hok) ?_
  have hgive := setDests_eq c.gr (destOf w (widthOf w) (fSx w)) vs
  have hlt := loaded_lt (d := destOf w (widthOf w) (fSx w)) hlanes
  rw [ldGlobal_result h hok, hresult]
  refine ⟨hcount.setGroup g _, _, State.group_setGroup_self .., ?_, goesOn_next_of_frame ?_, ReceivedAll.of_kept (receivedAll_give _ _ _) (kept_next _)⟩
  · rw [hgive]
    exact (give_kept hlt).next
  · rw [hgive]
    exact give_frame hlt

/-- The lanes of what the store buffer forwards are the load's. -/
theorem lane_of_forward {sb : List Sbuf} {vs : List (Nat × List Byte)} (h : forward sb n ls = .data vs) : ∀ x ∈ vs, ∃ y ∈ ls, y.lane = x.1 := by
  unfold forward at h
  dsimp only at h
  split at h
  · cases h
  · split at h
    · cases h
    · split at h
      · obtain rfl := Forward.data.inj h
        intro x hx
        obtain ⟨y, hy, hone⟩ := List.mem_filterMap.1 hx
        refine ⟨y, hy, ?_⟩
        split at hone
        · cases hone
        · split at hone
          · split at hone
            · exact congrArg Prod.fst (Option.some.inj hone)
            · cases hone
          · cases hone
      · cases h

theorem lane_of_l1Hits {k : Core} {vs : List (Nat × List Byte)} (h : k.l1Hits n ls = some vs) : ∀ x ∈ vs, ∃ y ∈ ls, y.lane = x.1 := by
  unfold Core.l1Hits at h
  induction ls generalizing vs with
  | nil =>
    obtain rfl : [] = vs := Option.some.inj h
    nofun
  | cons y ls ih =>
    rw [List.mapM_cons] at h
    obtain ⟨a, ha, h⟩ := Option.bind_eq_some_iff.1 h
    obtain ⟨as, has, h⟩ := Option.bind_eq_some_iff.1 h
    obtain rfl := Option.some.inj h
    intro x hx
    rcases List.mem_cons.1 hx with rfl | hx
    · refine ⟨y, List.mem_cons_self .., ?_⟩
      split at ha
      · obtain ⟨bs, _, rfl⟩ := Option.map_eq_some_iff.1 ha
        rfl
      · cases ha
    · obtain ⟨z, hz, hlane⟩ := ih has x hx
      exact ⟨z, List.mem_cons_of_mem _ hz, hlane⟩

theorem ldGlobal_served {vs : List (Nat × List Byte)} (h : Issues s g w c u) (hrow : rowOf w = .ldGlobal) (hok : GlobalOk u g c w (widthOf w) .read ls v) (hls : ls ≠ [])
    (hplain : ls.any (·.tr.mt) = false)
    (hserved : forwardOf v g c (widthOf w) ls = .data vs ∨
      (forwardOf v g c (widthOf w) ls = .none ∧ (v.core g.core).trackHit false (spansOf (widthOf w) ls) = false ∧ v.l1On g.core c.la ls = true ∧
        (fMod w / 16 % 4 = 0 ∨ fMod w / 16 % 4 = 2) ∧ (v.core g.core).olderRead (v.core g.core).nextId (spansOf (widthOf w) ls) = false ∧
        (v.core g.core).l1Hits (widthOf w) ls = some vs)) :
    Goes (.ldGlobal g w) s u coreSide fun t => OnlyCounters v t ∧ GroupAt g t fun x =>
      Kept (dRegs w (regsFor (widthOf w)) false) (dRegs w (regsFor (widthOf w)) true) [] c.gr x ∧ GoesOn c.gr x ∧ ReceivedAll c.gr (destOf w (widthOf w) (fSx w)) vs x := by
  have hlanes : (∀ x ∈ vs, ∃ y ∈ ls, y.lane = x.1) → ∀ x ∈ vs, x.1 < 32 := fun hsub x hx => by
    obtain ⟨y, hy, hlane⟩ := hsub x hx
    exact hlane ▸ lane_of_globalOk hok y hy
  rcases hserved with hfwd | ⟨hfwd, hhit, hon, horder, holder, hl1⟩
  · exact ldGlobal_serves h hrow hok (issued_onlyCounters v g c h.1) (hlanes (lane_of_forward hfwd)) (loadGlobal_forwards hplain hfwd)
  · have hcache : v.cacheable g c w ls = true := by
      have hbits : getBits (fMod w) 4 2 = fMod w / 16 % 4 := rfl
      unfold State.cacheable
      rw [hon, hplain, hbits]
      rcases horder with h | h <;> rw [h] <;> rfl
    exact ldGlobal_serves h hrow hok (counters_event h.1 v c evL1Hit) (hlanes (lane_of_l1Hits hl1)) (loadGlobal_hits hplain hfwd hhit hcache hl1 holder hls)

end

end Sys2Proof.Machine
end

section
namespace Sys2Proof.Machine

/-! Claims of tiles (R224). -/

section
variable {s t u v : State} {g : GRef} {w : Word64} {c : Ctx} {n p slot id : Nat} {b : Block}

theorem leNat_leBytes (n v : Nat) : leNat (leBytes n v) = v % 2 ^ (8 * n) := by
  induction n generalizing v with
  | zero => rw [Nat.mul_zero, pow_zero, Nat.mod_one]; rfl
  | succ n ih =>
    rw [leBytes, leNat, ih, BitVec.toNat_ofNat, Nat.mul_succ, Nat.add_comm (8 * n), pow_add, Nat.mod_mul]
    rfl

/-- What a claim of a range gives, and where the range then begins. -/
def claimOf (head tail : Nat) : Nat := if head < tail then head else 0xFFFFFFFF
def claimNext (head tail : Nat) : Nat := if head < tail then head + 1 else head

theorem claim_spec (hp : okCore p = true) (hb : s.blockAt p slot = some b) : (s.claim p slot).1 = claimOf b.head b.tail ∧
    (s.claim p slot).2.blockAt p slot = some { b with head := claimNext b.head b.tail } ∧ OnlyCounters s (s.claim p slot).2 := by
  unfold State.claim claimOf claimNext
  rw [hb]
  dsimp only
  split
  · refine ⟨rfl, ?_, (OnlyCounters.of_regs ((chg_modCore ..).1.regs_eq (by decide))).trans (onlyCounters_pmEvent _ _ _ _ hp)⟩
    rw [blockAt_of_bare (bare_pmEvent ..)]
    unfold State.blockAt
    rw [State.core_modCore_self]
    exact tfind_tset_self ..
  · exact ⟨rfl, hb, .refl s⟩

/-- What the claims of lanes give, in turn. -/
def claimVals (head tail : Nat) : List Nat → List (Nat × List Byte)
  | [] => []
  | l :: ls => (l, leBytes 4 (claimOf head tail)) :: claimVals (claimNext head tail) tail ls

theorem claimVals_fst (head tail : Nat) (ls : List Nat) : (claimVals head tail ls).map (·.1) = ls := by
  induction ls generalizing head with
  | nil => rfl
  | cons l ls ih => exact congrArg (l :: ·) (ih _)

theorem claimVals_getElem? (head tail : Nat) (ls : List Nat) (i : Nat) :
    (claimVals head tail ls)[i]? = (ls[i]?).map fun l => (l, leBytes 4 (if head + i < tail then head + i else 0xFFFFFFFF)) := by
  induction ls generalizing head i with
  | nil => rfl
  | cons l ls ih =>
    cases i with
    | zero => rfl
    | succ i =>
      rw [claimVals, List.getElem?_cons_succ, List.getElem?_cons_succ, ih]
      unfold claimNext
      by_cases hlt : head < tail
      · rw [if_pos hlt, show head + 1 + i = head + (i + 1) by omega]
      · rw [if_neg hlt, if_neg (show ¬head + i < tail by omega), if_neg (show ¬head + (i + 1) < tail by omega)]

theorem claims_spec (hp : okCore p = true) (hb : s.blockAt p slot = some b) (d : Dest) (gr : Group) (ls : List Nat) :
    (s.claims p slot d gr ls).1 = (claimVals b.head b.tail ls).foldl (fun a v => a.setDest d v.1 v.2) gr ∧
    ((s.claims p slot d gr ls).2.blockAt p slot).map (fun b => (b.head, b.tail)) = some (if b.head < b.tail then min (b.head + ls.length) b.tail else b.head, b.tail) ∧
    OnlyCounters s (s.claims p slot d gr ls).2 := by
  induction ls generalizing s b gr with
  | nil =>
    refine ⟨rfl, ?_, .refl s⟩
    show (s.blockAt p slot).map _ = _
    rw [hb]
    refine congrArg some (Prod.ext ?_ rfl)
    show b.head = if b.head < b.tail then min (b.head + 0) b.tail else b.head
    split <;> omega
  | cons l ls ih =>
    obtain ⟨hval, hnext, hcount⟩ := claim_spec hp hb
    have hcons : s.claims p slot d gr (l :: ls) = (s.claim p slot).2.claims p slot d (gr.setDest d l (leBytes 4 (s.claim p slot).1)) ls := rfl
    obtain ⟨hgroup, hrange, hrest⟩ := ih hnext (gr.setDest d l (leBytes 4 (s.claim p slot).1))
    rw [hcons]
    refine ⟨hgroup.trans ?_, hrange.trans (congrArg some (Prod.ext ?_ rfl)), hcount.trans hrest⟩
    · rw [hval]
      rfl
    · dsimp only [claimNext]
      rw [List.length_cons]
      repeat' split
      all_goals omega

theorem loadGlobal_claims (v : State) (g : GRef) (c : Ctx) (w : Word64) (n : Nat) (ls : List Nat) : v.loadGlobal g c w n ls [] =
    (let r := (v.issued g c).claims g.core c.gr.block (destOf w n false) c.gr ls
     r.2.retire g r.1) := by
  have hfree : ∀ k : Core, k.trackHit false (spansOf n []) = false := fun k => List.any_eq_false.2 fun e _ => by
    rw [show spansHit (spansOf n []) e.2.spans = false from rfl, Bool.and_false]
    exact Bool.false_ne_true
  have hfirst : ∀ k : Core, k.olderRead k.nextId (spansOf n []) = false := fun k => List.any_eq_false.2 fun e _ => by
    rw [show spansHit (spansOf n []) e.2.spans = false from rfl, Bool.and_false, Bool.false_and]
    exact Bool.false_ne_true
  have hforward : ∀ sb, forward sb n [] = .none := fun _ => rfl
  unfold State.loadGlobal
  dsimp only
  rw [show (([] : List LaneAt).any (·.tr.mt) && v.strictPending g c.gr.uid) = false from rfl, if_neg Bool.false_ne_true, hforward]
  dsimp only
  rw [hfree, if_neg Bool.false_ne_true]
  split
  · next vs hvs =>
    obtain rfl : [] = vs := by
      split at hvs
      · exact Option.some.inj hvs
      · cases hvs
    rw [hfirst, if_neg Bool.false_ne_true, if_pos rfl]
    rfl
  · rw [if_pos rfl]

theorem claims_result (h : Issues s g w c u) (hwait : u.accessWait g c.gr.uid w false = none) (hpages : ∀ e ∈ c.gr.eas w, inClaimPage e.2 = true ∧ e.2 % 4 = 0)
    (hwidth : widthOf w = 4) : s.rowLdGlobal g w = u.loadGlobal g c w 4 (c.gr.lanes w) [] := by
  have hclaim : ∀ e ∈ c.gr.eas w, (inClaimPage e.2 && (4 : Nat) == 4 && e.2 % 4 == 0) = true := fun e he => by
    rw [(hpages e he).1, (hpages e he).2]
    rfl
  have hnone : (c.gr.eas w).filter (fun e => !(inClaimPage e.2 && (4 : Nat) == 4 && e.2 % 4 == 0)) = [] :=
    List.filter_eq_nil_iff.2 fun e he => by rw [hclaim e he]; exact Bool.false_ne_true
  have hall : (c.gr.eas w).filter (fun e => inClaimPage e.2 && (4 : Nat) == 4 && e.2 % 4 == 0) = c.gr.eas w := List.filter_eq_self.2 hclaim
  unfold State.rowLdGlobal
  rw [h.issue_eq]
  dsimp only
  rw [access_ok hwait, hwidth, hnone, hall, eas_fst]
  exact orRaise_nil rfl

theorem claims_taken (h : Issues s g w c u) (hrow : rowOf w = .ldGlobal) (hwait : u.accessWait g c.gr.uid w false = none)
    (hpages : ∀ e ∈ c.gr.eas w, inClaimPage e.2 = true ∧ e.2 % 4 = 0) (hwidth : widthOf w = 4) (hd : fD w ≠ 255) :
    Goes (.ldGlobal g w) s u coreSide fun t => OnlyCounters u t ∧ GroupAt g t fun x => LanesOnly w c.gr x ∧ GoesOn c.gr x ∧
      (∀ i e, (c.gr.eas w)[i]? = some e → x.rd e.1 (fDU w) (fD w) 1 = (if c.blk.head + i < c.blk.tail then c.blk.head + i else 0xFFFFFFFF) % 2 ^ 32) ∧
      (t.blockAt g.core c.gr.block).map (fun b => (b.head, b.tail)) =
        some (if c.blk.head < c.blk.tail then min (c.blk.head + (c.gr.eas w).length) c.blk.tail else c.blk.head, c.blk.tail) := by
  have hresult := claims_result h hwait hpages hwidth
  have hblock : (u.issued g c).blockAt g.core c.gr.block = some c.blk := (blockAt_of_bare (bare_issued ..) _).trans h.block_eq
  have hfits : fD w + 1 ≤ 255 := by
    have hdest : oD w (regsFor (widthOf w)) ∈ opnds w := by
      unfold opnds
      rw [hrow]
      exact List.mem_cons_self ..
    rw [hwidth] at hdest
    exact dest_fits (k := 1) h.static hdest (by decide) hd
  obtain ⟨hgroup, hrange, hcount⟩ := claims_spec (okCore_of_okGroup h.1) hblock (destOf w 4 false) c.gr (c.gr.lanes w)
  obtain ⟨_, hothers, hframe, hread⟩ := give_word (x := c.gr) (vals := (destOf w 4 false).loaded (claimVals c.blk.head c.blk.tail (c.gr.lanes w)))
    ((loaded_fst ..).trans (claimVals_fst ..)) 1
  have hgiven : ((u.issued g c).claims g.core c.gr.block (destOf w 4 false) c.gr (c.gr.lanes w)).1 =
      c.gr.give (fDU w) (fD w) 1 ((destOf w 4 false).loaded (claimVals c.blk.head c.blk.tail (c.gr.lanes w))) := by
    have hregs : regsFor (destOf w 4 false).width = 1 := show regsFor 4 = 1 by decide
    rw [hgroup, setDests_eq, hregs]
    rfl
  refine h.goesRow (row := fun t => t.rowLdGlobal g w) hrow (by decide) rfl (hresult ▸ (chg_loadGlobal ..).1.mono (subF_of rfl)) ?_
  rw [hresult, loadGlobal_claims]
  dsimp only
  refine ⟨((issued_onlyCounters u g c h.1).trans hcount).setGroup g _, _, State.group_setGroup_self .., ?_⟩
  rw [hgiven]
  refine ⟨fun l hl hout i => (vr_next ..).trans (hothers l hl hout i), goesOn_next_of_frame hframe, fun i e he => (rd_next ..).trans ?_, ?_⟩
  · have hval : (claimVals c.blk.head c.blk.tail (c.gr.lanes w))[i]? =
        some (e.1, leBytes 4 (if c.blk.head + i < c.blk.tail then c.blk.head + i else 0xFFFFFFFF)) := by
      rw [claimVals_getElem?, ← eas_fst, List.getElem?_map, he]
      rfl
    refine (hread hfits _ (List.mem_map_of_mem (List.mem_of_getElem? hval))).trans ?_
    show leNat (leBytes 4 _) % 2 ^ (32 * 1) = _
    rw [leNat_leBytes]
    exact Nat.mod_mod ..
  · rw [State.retire, blockAt_of_bare (bare_setGroup ..), hrange, ← eas_fst, List.length_map]

end

/-! Data returns (R77, R236). -/

section
variable {s t : State} {p id : Nat} {l : Load} {gr : Group} {vals : List (Nat × List Byte)}

/-- All of a core but its L1. -/
def Core.flat (c : Core) : Core := { c with l1 := [] }

theorem groups_eq_of_flat {x y : Core} (h : x.flat = y.flat) : x.groups = y.groups := (congrArg Core.groups h :)

theorem loads_eq_of_flat {x y : Core} (h : x.flat = y.flat) : x.loads = y.loads := (congrArg Core.loads h :)

theorem art_eq_of_flat {x y : Core} (h : x.flat = y.flat) : x.art = y.art := (congrArg Core.art h :)

theorem group_of_flat {h : GRef} (hflat : ∀ q, (t.core q).flat = (s.core q).flat) : t.group? h = s.group? h := by
  have hgroups : (t.core h.core).groups = (s.core h.core).groups := groups_eq_of_flat (hflat h.core)
  unfold State.group? Core.group?
  rw [hgroups]

theorem flat_modCore {f : Core → Core} (hf : (f (s.core p)).flat = (s.core p).flat) (q : Nat) : ((s.modCore p f).core q).flat = (s.core q).flat := by
  by_cases hq : q = p
  · rw [hq, State.core_modCore_self, hf]
  · rw [State.core_modCore_ne _ _ hq]

theorem flat_l1Fill (s : State) (p line : Nat) (bs : List Byte) (q : Nat) : ((s.l1Fill p line bs).core q).flat = (s.core q).flat := by
  have hset : ∀ (v : State) (x : Core), v.core q = s.core q → x.flat = (s.core p).flat → ((v.setCore p x).core q).flat = (s.core q).flat := by
    intro v x hv hx
    rw [State.core_setCore]
    split
    · next h => rw [h, hx]
    · rw [hv]
  unfold State.l1Fill
  dsimp only
  split
  · exact hset s _ rfl rfl
  · exact hset _ _ rfl rfl

theorem flat_allocLines (s : State) (p : Nat) (l : Load) (q : Nat) : ((s.allocLines p l).core q).flat = (s.core q).flat := by
  unfold State.allocLines
  split
  · refine foldl_keeps (fun t : State => (t.core q).flat = (s.core q).flat) _ _ s rfl fun t line ht => ?_
    dsimp only
    split
    · exact (flat_l1Fill ..).trans ht
    · exact ht
  · rfl

theorem flat_acquired (s : State) (p scope q : Nat) : ((s.acquired p scope).core q).flat = (s.core q).flat := by
  unfold State.acquired
  split
  · rfl
  · exact flat_modCore (f := fun c => { c with l1 := [] }) rfl q

theorem loads_of_bare {x y : Core} (h : x.bare = y.bare) : x.loads = y.loads := (congrArg Core.loads h :)

theorem art_eq_of_bare {x y : Core} (h : x.bare = y.bare) : x.art = y.art := (congrArg Core.art h :)

theorem group_untrack_woken {h : GRef} {x : Group} (hx : ∃ y, s.group? h = some y ∧ Woken x y) (p k : Nat) :
    ∃ y, (s.untrack p k).group? h = some y ∧ Woken x y := by
  obtain ⟨y, hy, hwoken⟩ := hx
  have hkept : (s.modCore p fun c => { c with art := tdel c.art k }).group? h = some y := (group_modCore s (by rfl) h).trans hy
  unfold State.untrack
  exact group_wakeAll_woken (group_wakeAll_woken ⟨y, hkept, hwoken⟩ p .load) p .residency

/-- A load that is over is in neither table, and groups may have become ready. -/
theorem endLoad_spec (s : State) (p id : Nat) (l : Load) : tfind ((s.endLoad p id l).core p).loads id = none ∧
    (∀ k, l.track = some k → tfind ((s.endLoad p id l).core p).art k = none) ∧
    ∀ h x, s.group? h = some x → ∃ y, (s.endLoad p id l).group? h = some y ∧ Woken x y := by
  have hfreed : ∀ h x, s.group? h = some x → ∃ y, (s.modCore p fun c => { c with loads := tdel c.loads id }).group? h = some y ∧ Woken x y := fun h x hx =>
    ⟨x, (group_modCore s (by rfl) h).trans hx, .inl rfl⟩
  have hloads : tfind ((s.modCore p fun c => { c with loads := tdel c.loads id }).core p).loads id = none := by
    rw [State.core_modCore_self]
    exact tfind_tdel_self ..
  unfold State.endLoad
  dsimp only
  generalize (s.modCore p fun c => { c with loads := tdel c.loads id }) = v at hfreed hloads
  cases l.track with
  | none =>
    refine ⟨?_, nofun, fun h x hx => group_wakeAll_woken (group_wakeAll_woken (hfreed h x hx) p .load) p .remote⟩
    have hbare := (bare_wakeAll (v.wakeAll p .load) p .remote p).trans (bare_wakeAll v p .load p)
    exact (congrArg (tfind · id) (loads_of_bare hbare)).trans hloads
  | some k =>
    have hbare := (bare_wakeAll (v.untrack p k) p .remote p).trans (bare_untrack v p k p)
    rw [State.core_modCore_self] at hbare
    have hkeeps : (((v.untrack p k).wakeAll p .remote).core p).loads = (v.core p).loads := (loads_of_bare hbare).trans rfl
    refine ⟨(congrArg (tfind · id) hkeeps).trans hloads, fun k' hk => ?_, fun h x hx => group_wakeAll_woken ?_ p .remote⟩
    · obtain rfl := Option.some.inj hk
      have hart : (((v.untrack p k).wakeAll p .remote).core p).art = tdel (v.core p).art k := (art_eq_of_bare hbare).trans rfl
      exact (congrArg (tfind · k) hart).trans (tfind_tdel_self ..)
    · exact group_untrack_woken (hfreed h x hx) p k

theorem resultGroup_woken {guid lid run : Nat} {x : Site} (h : s.resultGroup p guid lid run x = some gr)
    (hgroup : ∀ r y, s.group? r = some y → ∃ z, t.group? r = some z ∧ Woken y z) (hlaunch : t.launch? lid = s.launch? lid) :
    ∃ y, t.resultGroup p guid lid run x = some y ∧ Woken gr y := by
  unfold State.resultGroup at h
  split at h
  · next gr' la hgr hla =>
    split at h
    · next hcond =>
      obtain rfl := Option.some.inj h
      obtain ⟨hguid, hrun, hfail⟩ := hcond
      obtain ⟨y, hy, hwoken⟩ := hgroup _ _ hgr
      refine ⟨y, ?_, hwoken⟩
      unfold State.resultGroup
      rw [hy, hlaunch, hla]
      exact if_pos ⟨hwoken.uid_eq.trans hguid, hrun, hfail⟩
    · cases h
  · cases h

theorem ReceivedAll.from_kept {a b y : Group} {d : Dest} (k : Kept [] [] [] a b) (h : ReceivedAll b d vals y) : ReceivedAll a d vals y := by
  intro hfits hlanes
  obtain ⟨hread, hkept, hothers⟩ := h hfits hlanes
  exact ⟨hread, (k.mono (List.nil_subset _) (List.nil_subset _) (List.nil_subset _)).trans hkept, fun l hl hne i => (hothers l hl hne i).trans (k.1 l i hl List.not_mem_nil)⟩

/-- What a load's values leave, once it is over. -/
def State.loadEnds (t : State) (p : Nat) (l : Load) (vals : List (Nat × List Byte)) : State :=
  let u := (t.giveResults p l.guid l.launch l.run l.site l.dest vals).allocLines p l
  match l.acq with
  | some scope => u.acquired p scope
  | none => u

theorem loadEnds_flat (t : State) (p : Nat) (l : Load) (vals : List (Nat × List Byte)) :
    Touches [.free, .cores] t (t.loadEnds p l vals) ∧ ∀ q, ((t.loadEnds p l vals).core q).flat = ((t.giveResults p l.guid l.launch l.run l.site l.dest vals).core q).flat := by
  have halloc := ((chg_giveResults t p l.guid l.launch l.run l.site l.dest vals).1.mono (subF_of rfl : subF _ [.free, .cores])).trans (chg_allocLines _ p l).1
  unfold State.loadEnds
  dsimp only
  split
  · exact ⟨halloc.trans ((chg_acquired ..).1.mono (subF_of rfl)), fun q => (flat_acquired ..).trans (flat_allocLines ..)⟩
  · exact ⟨halloc, fun q => flat_allocLines ..⟩

/-- The load is over and its lanes have their values. -/
theorem loadEnds_spec (hgr : s.resultGroup p l.guid l.launch l.run l.site = some gr) (vals : List (Nat × List Byte)) :
    Touches [.free, .cores] s ((s.endLoad p id l).loadEnds p l vals) ∧ tfind (((s.endLoad p id l).loadEnds p l vals).core p).loads id = none ∧
    (∀ k, l.track = some k → tfind (((s.endLoad p id l).loadEnds p l vals).core p).art k = none) ∧
    GroupAt ⟨p, l.site.sched, l.site.slot⟩ ((s.endLoad p id l).loadEnds p l vals) (ReceivedAll gr l.dest vals) := by
  obtain ⟨hloads, hart, hgroups⟩ := endLoad_spec s p id l
  have hover := (chg_endLoad s p id l).1
  obtain ⟨y, hy, hwoken⟩ := resultGroup_woken hgr hgroups (hover.launch_eq (by decide) _)
  generalize s.endLoad p id l = t at hloads hart hover hy
  obtain ⟨htouch, hflat⟩ := loadEnds_flat t p l vals
  have hbare := bare_giveResults t p l.guid l.launch l.run l.site l.dest vals p
  have hloads' : ((t.loadEnds p l vals).core p).loads = (t.core p).loads := (loads_eq_of_flat (hflat p)).trans (loads_of_bare hbare)
  have hart' : ((t.loadEnds p l vals).core p).art = (t.core p).art := (art_eq_of_flat (hflat p)).trans (art_eq_of_bare hbare)
  obtain ⟨z, hz, hreceived⟩ := giveResults_received l.dest vals hy
  exact ⟨(hover.mono (subF_of rfl)).trans htouch, hloads' ▸ hloads, fun k hk => hart' ▸ hart k hk, z, (group_of_flat hflat).trans hz, ReceivedAll.from_kept hwoken.kept hreceived⟩

theorem lateErrs_nil (hbad : l.bad = []) (hrefused : l.refused = []) : l.lateErrs = [] := by
  unfold Load.lateErrs
  rw [hbad, hrefused]
  simp

theorem returnLoad_bound (hl : tfind (s.core p).loads id = some l) (hbound : l.bound = some vals) (hcomplete : l.complete = true) (hbad : l.bad = []) (hrefused : l.refused = [])
    (hring : (!l.remote && l.reads.any fun x => !s.reaches l.cut .atomic .readData p x.tgt) = false) (hgr : s.resultGroup p l.guid l.launch l.run l.site = some gr) :
    s.returnLoad p id = (s.endLoad p id l).loadEnds p l vals := by
  unfold State.returnLoad State.loadEnds
  simp only [hl, hbound, Option.isNone_some, Option.isSome_some, Bool.false_and, Bool.or_false, if_true, hring, hcomplete, Bool.not_true, Bool.false_eq_true, if_false, hgr,
    lateErrs_nil hbad hrefused, pickExc_nil] <;> rfl

theorem bindReads_hbm {xs : List LaneRead} (h : ∀ x ∈ xs, ∃ a, x.tgt = .hbm a) (t : State) : t.bindReads xs = (hbmVals t xs, t) := by
  induction xs with
  | nil => rfl
  | cons x xs ih =>
    obtain ⟨⟨a, ha⟩, hxs⟩ := List.forall_mem_cons.1 h
    have hread : t.readAt x.tgt x.width = (t.bytes a x.width, t) := by rw [ha]; rfl
    unfold State.bindReads hbmVals
    rw [hread, List.map_cons, ha]
    dsimp only
    rw [ih hxs]
    rfl

theorem readErrs_nil {xs : List LaneRead} (h : ∀ x ∈ xs, ∃ a, x.tgt = .hbm a ∧ s.chanRetired (a / 2 ^ 31) = false ∧ s.poisoned a x.width = false) : s.readErrs xs = [] := by
  refine List.filterMap_eq_nil_iff.2 fun x hx => ?_
  obtain ⟨a, ha, hchan, hpoison⟩ := h x hx
  rw [ha]
  dsimp only
  rw [hchan, hpoison, if_neg Bool.false_ne_true, if_neg Bool.false_ne_true]

theorem returnLoad_hbm (hl : tfind (s.core p).loads id = some l) (hbound : l.bound = none) (hlocal : l.remote = false)
    (hreads : ∀ x ∈ l.reads, ∃ a, x.tgt = .hbm a ∧ s.hbmWaits a x.width = false ∧ s.chanRetired (a / 2 ^ 31) = false ∧ s.poisoned a x.width = false)
    (hring : ∀ x ∈ l.reads, s.reaches l.cut .load .readData p x.tgt = true)
    (hfirst : ∀ k, l.track = some k → (s.core p).olderRead k (l.reads.map fun x => (x.tgt.key, x.width)) = false)
    (hgr : s.resultGroup p l.guid l.launch l.run l.site = some gr) : s.returnLoad p id = (s.endLoad p id l).loadEnds p l (hbmVals s l.reads) := by
  have hwaits : (l.reads.any fun x => match x.tgt with
      | .hbm a => s.hbmWaits a x.width
      | _ => false) = false := List.any_eq_false.2 fun x hx => by
    obtain ⟨a, ha, hwait, _⟩ := hreads x hx
    rw [ha]
    exact Bool.eq_false_iff.1 hwait
  have hcut : (l.reads.any fun x => !s.reaches l.cut .load .readData p x.tgt) = false := List.any_eq_false.2 fun x hx => by
    rw [hring x hx]
    exact Bool.false_ne_true
  have hbehind : (match l.track with
      | some k => (s.core p).olderRead k (l.reads.map fun x => (x.tgt.key, x.width))
      | none => false) = false := by
    cases hk : l.track with
    | none => rfl
    | some k => exact hfirst k hk
  have hcomplete : l.complete = true := by
    unfold Load.complete
    rw [hbound, hlocal]
    rfl
  have hvals : (s.endLoad p id l).bindReads l.reads = (hbmVals s l.reads, s.endLoad p id l) := by
    rw [bindReads_hbm fun x hx => (hreads x hx).imp fun _ h => h.1]
    unfold hbmVals
    simp only [(chg_endLoad s p id l).1.bytes_eq (by decide) (by decide)]
  have herrs : s.readErrs l.reads = [] := readErrs_nil fun x hx => by
    obtain ⟨a, ha, _, hchan, hpoison⟩ := hreads x hx
    exact ⟨a, ha, hchan, hpoison⟩
  unfold State.returnLoad State.loadEnds
  simp only [hl, hbound, Option.isNone_none, Option.isSome_none, Bool.true_and, hlocal, Bool.not_false, Bool.false_eq_true, if_false, hcut, hcomplete, Bool.not_true, Bool.or_false,
    hgr, herrs, pickExc_nil, hvals]
  exact if_neg (Bool.eq_false_iff.1 (Bool.or_eq_false_iff.2 ⟨hwaits, hbehind⟩))

theorem load_returns_bound (hp : okCore p = true) (hl : tfind (s.core p).loads id = some l) (hbound : l.bound = some vals) (hcomplete : l.complete = true) (hbad : l.bad = [])
    (hrefused : l.refused = []) (hring : l.remote = true ∨ ∀ x ∈ l.reads, s.reaches l.cut .atomic .readData p x.tgt = true)
    (hgr : s.resultGroup p l.guid l.launch l.run l.site = some gr) :
    Does (.loadDataReturn p id) s [.free, .cores] fun t => tfind (t.core p).loads id = none ∧
      (∀ k, l.track = some k → tfind (t.core p).art k = none) ∧ GroupAt ⟨p, l.site.sched, l.site.slot⟩ t (ReceivedAll gr l.dest vals) := by
  have hring' : (!l.remote && l.reads.any fun x => !s.reaches l.cut .atomic .readData p x.tgt) = false := by
    rcases hring with h | h
    · rw [h]
      rfl
    · rw [Bool.and_eq_false_iff]
      refine .inr (List.any_eq_false.2 fun x hx => ?_)
      rw [h x hx]
      exact Bool.false_ne_true
  have hresult : exec (.loadDataReturn p id) s = .next ((s.endLoad p id l).loadEnds p l vals) :=
    (withUnit_ok hp _).trans (congrArg _ (returnLoad_bound hl hbound hcomplete hbad hrefused hring' hgr))
  obtain ⟨htouch, hspec⟩ := loadEnds_spec (id := id) hgr vals
  exact .intro hresult htouch hspec

theorem load_returns_hbm (hp : okCore p = true) (hl : tfind (s.core p).loads id = some l) (hbound : l.bound = none) (hlocal : l.remote = false)
    (hreads : ∀ x ∈ l.reads, ∃ a, x.tgt = .hbm a ∧ s.hbmWaits a x.width = false ∧ s.chanRetired (a / 2 ^ 31) = false ∧ s.poisoned a x.width = false)
    (hring : ∀ x ∈ l.reads, s.reaches l.cut .load .readData p x.tgt = true)
    (hfirst : ∀ k, l.track = some k → (s.core p).olderRead k (l.reads.map fun x => (x.tgt.key, x.width)) = false)
    (hgr : s.resultGroup p l.guid l.launch l.run l.site = some gr) :
    Does (.loadDataReturn p id) s [.free, .cores] fun t => tfind (t.core p).loads id = none ∧
      GroupAt ⟨p, l.site.sched, l.site.slot⟩ t (ReceivedAll gr l.dest (hbmVals s l.reads)) := by
  have hresult : exec (.loadDataReturn p id) s = .next ((s.endLoad p id l).loadEnds p l (hbmVals s l.reads)) :=
    (withUnit_ok hp _).trans (congrArg _ (returnLoad_hbm hl hbound hlocal hreads hring hfirst hgr))
  obtain ⟨htouch, hloads, _, hgroup⟩ := loadEnds_spec (id := id) hgr (hbmVals s l.reads)
  exact .intro hresult htouch ⟨hloads, hgroup⟩

end

/-- Settles O17: a load's branches as it issues, its block's claims, and the return of its data. -/
theorem globalLoadsReachTheirRegisters : Obligations.GlobalLoadsReachTheirRegisters :=
  ⟨fun _ _ _ _ _ _ _ => ldGlobal_stands, fun _ _ _ _ _ _ _ _ => ldGlobal_served, fun _ _ _ _ _ => claims_taken, fun _ _ _ _ _ _ => load_returns_bound,
    fun _ _ _ _ _ => load_returns_hbm⟩

end Sys2Proof.Machine
end

section
namespace Sys2Proof.Machine

/-! Active sets and splits (R76, R78, R79, R85). -/

section
variable {s : State} {p i n r : Nat} {rest : List Nat}

theorem sched_setSched_ne (c : Core) {i j : Nat} (x : Sched) (h : j ≠ i) : (c.setSched i x).sched j = c.sched j := tget_tput_ne _ _ _ h _

theorem onlySched_setSched (s : State) (p i : Nat) (q : Sched) : OnlySched p i s (s.modCore p fun c => c.setSched i q) ∧
    ((s.modCore p fun c => c.setSched i q).core p).sched i = q := by
  have hself := State.core_modCore_self s p fun c => c.setSched i q
  refine ⟨⟨fun _ hq => State.core_modCore_ne _ _ hq, ?_, fun j hj => ?_⟩, ?_⟩
  · rw [hself]
    rfl
  · rw [hself]
    exact sched_setSched_ne _ _ hj
  · rw [hself]
    exact sched_setSched_self ..

theorem schedUnit_ok (hp : okCore p = true) (hi : i < 4) : (okCore p && decide (i < 4)) = true := by
  rw [hp, decide_eq_true hi]
  rfl

theorem group_enters_active (hp : okCore p = true) (hi : i < 4) (hready : ((s.core p).sched i).ready = r :: rest) (hroom : ((s.core p).sched i).active.length < 4) :
    Does (.groupEnterActive p i) s [.cores] fun t => OnlySched p i s t ∧
      (t.core p).sched i = { (s.core p).sched i with active := ((s.core p).sched i).active ++ [r], ready := rest } := by
  refine .intro (withUnit_ok (schedUnit_ok hp hi) _) (chg_enterActive s p i).1 ?_
  unfold State.enterActive
  dsimp only
  rw [hready]
  dsimp only
  rw [if_pos hroom]
  exact onlySched_setSched ..

theorem active_set_rotates {a b c d : Nat} (hp : okCore p = true) (hi : i < 4) (hactive : ((s.core p).sched i).active = [a, b, c, d])
    (hready : ((s.core p).sched i).ready = r :: rest) :
    Does (.activeSetRotation p i) s [.cores] fun t => OnlySched p i s t ∧
      (t.core p).sched i = { (s.core p).sched i with active := [b, c, d, r], ready := rest ++ [a] } := by
  have hresult : s.rotate p i = s.modCore p fun k => k.setSched i { (s.core p).sched i with active := [b, c, d, r], ready := rest ++ [a] } := by
    unfold State.rotate
    dsimp only
    rw [hactive, hready]
    rfl
  refine .intro (withUnit_ok (schedUnit_ok hp hi) _) (chg_rotate s p i).1 ?_
  rw [hresult]
  exact onlySched_setSched ..

theorem split_changes {lid : Nat} {l : Launch} {x : Nat × Nat × Nat} (hp : okCore p = true) (hn : n < 5) (hempty : (s.core p).blocks = []) (hsplit : (s.core p).split ≠ n)
    (hl : (lid, l) ∈ s.launches) (hkernel : l.isKernel = true) (hphase : l.phase = .running) (hfail : l.fail = none) (hhung : l.hung = 0) (hasks : l.split = n)
    (hx : x ∈ s.coresFor l false) (hcore : x.2.1 = p) :
    Does (.splitChange p n) s [.cores] fun t => t.core p = { s.core p with split := n, l1 := [] } ∧ ∀ q, q ≠ p → t.core q = s.core q := by
  have hunit : (okCore p && decide (n < 5)) = true := by
    rw [hp, decide_eq_true hn]
    rfl
  have hasked : (s.launches.any fun e => e.2.isKernel && e.2.phase == .running && e.2.fail.isNone && e.2.hung == 0 && e.2.split == n &&
      ((s.coresFor e.2 false) ++ (if e.2.pair.isSome then s.coresFor e.2 true else [])).any fun x => x.2.1 == p) = true := by
    refine List.any_eq_true.2 ⟨_, hl, ?_⟩
    have hon : (((s.coresFor l false) ++ (if l.pair.isSome then s.coresFor l true else [])).any fun x => x.2.1 == p) = true :=
      List.any_eq_true.2 ⟨x, List.mem_append_left _ hx, beq_iff_eq.2 hcore⟩
    simp only [hkernel, hphase, hfail, hhung, hasks, hon, beq_self_eq_true, Option.isNone_none, Bool.and_self]
  have hresult : s.changeSplit p n = s.modCore p fun c => { c with split := n, l1 := [] } := if_pos ⟨hempty, hsplit, hasked⟩
  refine .intro (withUnit_ok hunit _) (chg_changeSplit s p n).1 ?_
  rw [hresult]
  exact ⟨State.core_modCore_self .., fun _ hq => State.core_modCore_ne _ _ hq⟩

end

theorem schedulersAndSplitsChange : SchedulersAndSplitsChange :=
  ⟨fun _ _ _ _ _ => group_enters_active, fun _ _ _ _ _ _ _ _ _ => active_set_rotates, fun _ _ _ _ _ _ => split_changes⟩

end Sys2Proof.Machine
end

section
namespace Sys2Proof.Machine

/-! Where a block's groups are seated (R70). -/

section
variable {s t u : State} {c d : Core} {p q lid slot num head tail n alloc : Nat} {l : Launch} {plan taken : List Nat}

/-- The number of earlier groups of a plan on the scheduler of its `k`-th. -/
def planned (plan : List Nat) (k : Nat) : Nat := ((plan.take k).filter (· == plan.getD k 0)).length

/-- Every group of a plan finds a free slot on its scheduler. -/
def Core.Roomy (c : Core) (plan : List Nat) : Prop := ∀ k, k < plan.length → planned plan k < (c.freeSlots (plan.getD k 0)).length

theorem Core.roomy_nil (c : Core) : c.Roomy [] := fun k hk => absurd hk (Nat.not_lt_zero k)

theorem Core.Roomy.snoc {i : Nat} (h : c.Roomy taken) (hi : (taken.filter (· == i)).length < (c.freeSlots i).length) : c.Roomy (taken ++ [i]) := by
  intro k hk
  rw [List.length_append, List.length_singleton] at hk
  unfold planned
  by_cases hlt : k < taken.length
  · have hat : (taken ++ [i]).getD k 0 = taken.getD k 0 := by rw [List.getD_append _ _ _ _ hlt]
    rw [hat, List.take_append_of_le_length (by omega)]
    exact h k hlt
  · obtain rfl : k = taken.length := by omega
    have hat : (taken ++ [i]).getD taken.length 0 = i := by
      rw [List.getD_append_right _ _ _ _ (Nat.le_refl _), Nat.sub_self]
      rfl
    rw [hat, List.take_left]
    exact hi

theorem pickSched_free {i : Nat} (h : c.pickSched alloc taken = some i) : (taken.filter (· == i)).length < (c.freeSlots i).length := by
  obtain ⟨hfree, _⟩ := of_decide_eq_true (List.mem_filter.1 (argmin_mem h)).2
  exact Nat.lt_of_sub_pos hfree

theorem plan_spec (hroom : c.Roomy taken) (h : c.plan alloc n taken = some plan) : plan.length = taken.length + n ∧ c.Roomy plan := by
  induction n generalizing taken with
  | zero =>
    obtain rfl := Option.some.inj h
    exact ⟨rfl, hroom⟩
  | succ n ih =>
    unfold Core.plan at h
    split at h
    · next i hi =>
      obtain ⟨hlen, hplan⟩ := ih (hroom.snoc (pickSched_free hi)) h
      rw [List.length_append, List.length_singleton] at hlen
      exact ⟨by omega, hplan⟩
    · cases h

theorem planned_lt {j k : Nat} (hjk : j < k) (hk : k < plan.length) (hsame : plan.getD j 0 = plan.getD k 0) : planned plan j < planned plan k := by
  have hj : j < plan.length := by omega
  have hnext : ((plan.take (j + 1)).filter (· == plan.getD k 0)).length = planned plan j + 1 := by
    have hat : plan[j] = plan.getD k 0 := by rw [← hsame, List.getD_eq_getElem _ _ hj]
    rw [List.take_succ_eq_append_getElem hj, List.filter_append, List.length_append, hat, planned, hsame]
    simp
  have hsub : (plan.take (j + 1)).Sublist (plan.take k) := List.take_sublist_take_left hjk
  have hle := (hsub.filter (· == plan.getD k 0)).length_le
  rw [hnext] at hle
  exact hle

theorem slotsOf_length (c : Core) (plan : List Nat) : (c.slotsOf plan).length = plan.length := by
  unfold Core.slotsOf
  rw [List.length_map]
  exact List.length_range

theorem slotsOf_getD {k : Nat} (hk : k < plan.length) : (c.slotsOf plan).getD k (0, 0) = (plan.getD k 0, (c.freeSlots (plan.getD k 0)).getD (planned plan k) 0) := by
  unfold Core.slotsOf upTo
  rw [List.getD_eq_getElem?_getD, List.getElem?_map, List.getElem?_range hk]
  rfl

theorem nodup_freeSlots (c : Core) (i : Nat) : (c.freeSlots i).Nodup := List.nodup_range.filter _

theorem freeSlots_lt {i k : Nat} (hk : k ∈ c.freeSlots i) : k < 16 := List.mem_range.1 (List.mem_filter.1 hk).1

/-- The key of the place of a plan's `k`-th group. -/
def Core.seatKey (c : Core) (plan : List Nat) (k : Nat) : Nat := gkey ((c.slotsOf plan).getD k (0, 0)).1 ((c.slotsOf plan).getD k (0, 0)).2

theorem seatKey_ne (h : c.Roomy plan) {j k : Nat} (hjk : j < k) (hk : k < plan.length) : c.seatKey plan j ≠ c.seatKey plan k := by
  have hj : j < plan.length := by omega
  have hroomj := h j hj
  have hroomk := h k hk
  have hslotj := freeSlots_lt (List.getElem_mem hroomj)
  have hslotk := freeSlots_lt (List.getElem_mem hroomk)
  unfold Core.seatKey gkey
  rw [slotsOf_getD hj, slotsOf_getD hk]
  dsimp only
  rw [List.getD_eq_getElem _ _ hroomj, List.getD_eq_getElem _ _ hroomk]
  intro heq
  have hsched : plan.getD j 0 = plan.getD k 0 := by omega
  have hlt := planned_lt hjk hk hsched
  have hslot : (c.freeSlots (plan.getD j 0))[planned plan j] = (c.freeSlots (plan.getD k 0))[planned plan k] := by omega
  simp only [hsched] at hslot
  have hindex := (nodup_freeSlots c _).getElem_inj_iff.1 hslot
  omega

/-- A group takes a place: it is ready on its scheduler. -/
def Core.seat (c : Core) (x : Nat × Nat) (gr : Nat → Group) : Core :=
  let d := ({ c with nextId := c.nextId + 1 } : Core).setGroup (gkey x.1 x.2) (gr c.nextId)
  let q := d.sched x.1
  d.setSched x.1 { q with ready := q.ready ++ [x.2] }

/-- The first `n` groups take their places. -/
def Core.seats (c : Core) (places : List (Nat × Nat)) (gr : Nat → Nat → Group) (n : Nat) : Core :=
  (upTo n).foldl (fun c k => c.seat (places.getD k (0, 0)) (gr k)) c

theorem seats_succ (c : Core) (places : List (Nat × Nat)) (gr : Nat → Nat → Group) (n : Nat) :
    c.seats places gr (n + 1) = (c.seats places gr n).seat (places.getD n (0, 0)) (gr n) := by
  unfold Core.seats upTo
  rw [List.range_succ, List.foldl_append]
  rfl

theorem blocks_seats (c : Core) (places : List (Nat × Nat)) (gr : Nat → Nat → Group) (n : Nat) : (c.seats places gr n).blocks = c.blocks := by
  induction n with
  | zero => rfl
  | succ n ih =>
    rw [seats_succ]
    exact ih

/-- Groups whose places differ all stand once each has taken its own. -/
theorem seats_group {places : List (Nat × Nat)} (gr : Nat → Nat → Group)
    (hne : ∀ j k, j < k → k < n → gkey (places.getD j (0, 0)).1 (places.getD j (0, 0)).2 ≠ gkey (places.getD k (0, 0)).1 (places.getD k (0, 0)).2) {k : Nat} (hk : k < n) :
    ∃ uid, (c.seats places gr n).group? (gkey (places.getD k (0, 0)).1 (places.getD k (0, 0)).2) = some (gr k uid) := by
  induction n with
  | zero => cases hk
  | succ n ih =>
    rw [seats_succ]
    by_cases hlast : k = n
    · subst hlast
      exact ⟨_, tfind_tset_self ..⟩
    · obtain ⟨uid, hgroup⟩ := ih (fun i j hij hj => hne i j hij (by omega)) (by omega)
      exact ⟨uid, (tfind_tset_ne _ _ (hne k n (by omega) (by omega))).trans hgroup⟩

theorem core_foldl_modCore (p : Nat) (f : Nat → Core → Core) (ls : List Nat) (s : State) :
    (ls.foldl (fun t k => t.modCore p (f k)) s).core p = ls.foldl (fun c k => f k c) (s.core p) ∧
    ∀ q, q ≠ p → (ls.foldl (fun t k => t.modCore p (f k)) s).core q = s.core q := by
  induction ls generalizing s with
  | nil => exact ⟨rfl, fun _ _ => rfl⟩
  | cons k ls ih =>
    obtain ⟨hself, hother⟩ := ih (s.modCore p (f k))
    rw [State.core_modCore_self] at hself
    exact ⟨hself, fun q hq => (hother q hq).trans (State.core_modCore_ne _ _ hq)⟩

end

/-! A block enters a core (R69, R98, R301). -/

section
variable {s t u : State} {c d : Core} {p q lid slot num head tail n alloc : Nat} {l : Launch} {half thief : Bool} {item : Option (List Byte)} {plan : List Nat}

/-- Only core `p` may have changed, and it holds the same blocks and groups. -/
def HoldsSame (p : Nat) (s t : State) : Prop :=
  (∀ q, q ≠ p → t.core q = s.core q) ∧ (t.core p).blocks = (s.core p).blocks ∧ (t.core p).groups = (s.core p).groups

theorem HoldsSame.trans (h : HoldsSame p s t) (h' : HoldsSame p t u) : HoldsSame p s u := by
  obtain ⟨hother, hblocks, hgroups⟩ := h
  obtain ⟨hother', hblocks', hgroups'⟩ := h'
  exact ⟨fun q hq => (hother' q hq).trans (hother q hq), hblocks'.trans hblocks, hgroups'.trans hgroups⟩

theorem HoldsSame.of_cores (h : ∀ q, t.core q = s.core q) : HoldsSame p s t :=
  ⟨fun q _ => h q, congrArg Core.blocks (h p), congrArg Core.groups (h p)⟩

theorem HoldsSame.modCore (s : State) {f : Core → Core} (hblocks : (f (s.core p)).blocks = (s.core p).blocks) (hgroups : (f (s.core p)).groups = (s.core p).groups) :
    HoldsSame p s (s.modCore p f) := by
  refine ⟨fun _ hq => State.core_modCore_ne _ _ hq, ?_, ?_⟩ <;> rw [State.core_modCore_self]
  · exact hblocks
  · exact hgroups

theorem beginOn_holdsSame (s : State) (p lid : Nat) (l : Launch) : HoldsSame p s (s.beginOn p lid l) := by
  have htrace : HoldsSame p s (if (s.core p).traced.contains lid then s
      else (s.modCore p fun c => { c with traced := lid :: c.traced }).traceLaunch p tyBegin l 0) := by
    split
    · exact .of_cores fun _ => rfl
    · exact (HoldsSame.modCore s (by rfl) (by rfl)).trans (.of_cores ((chg_traceLaunch ..).1.core_eq (by decide)))
  unfold State.beginOn
  dsimp only
  generalize (if (s.core p).traced.contains lid then s
      else (s.modCore p fun c => { c with traced := lid :: c.traced }).traceLaunch p tyBegin l 0) = v at htrace ⊢
  split
  · exact htrace
  · refine ((htrace.trans (.modCore v ?_ ?_)).trans (.of_cores ((chg_setBit ..).1.core_eq (by decide)))).trans (.of_cores ((chg_setBit ..).1.core_eq (by decide)))
    · rfl
    · rfl

theorem blockSlot_of_blocks (h : d.blocks = c.blocks) : d.blockSlot = c.blockSlot := by
  unfold Core.blockSlot
  rw [h]

theorem pickSched_of_groups (h : d.groups = c.groups) (taken : List Nat) : d.pickSched alloc taken = c.pickSched alloc taken := by
  unfold Core.pickSched Core.regsUsed Core.freeSlots Core.group?
  rw [h]

theorem plan_of_groups (h : d.groups = c.groups) (taken : List Nat) : d.plan alloc n taken = c.plan alloc n taken := by
  induction n generalizing taken with
  | zero => rfl
  | succ n ih =>
    unfold Core.plan
    rw [pickSched_of_groups h]
    split
    · exact ih _
    · rfl

/-- The block that a launch places. -/
def Launch.newBlock (l : Launch) (lid num head tail : Nat) (half thief : Bool) (item : Option (List Byte)) (uid : Nat) : Block := {
  uid := uid
  launch := lid
  run := l.run
  num := num
  ngroups := groupsFor (eThreads l.entry)
  threads := eThreads l.entry
  lsBytes := 1024 * l.lskib
  csize := eCluster l.entry
  thief := thief
  half := half
  head := head
  tail := tail
  item := item }

/-- Its `k`-th group. -/
def Launch.newGroup (l : Launch) (lid slot : Nat) (thief : Bool) (item : Option (List Byte)) (k uid : Nat) : Group := {
  uid := uid
  launch := lid
  run := l.run
  block := slot
  gnum := k
  nregs := l.vregs
  pc := l.code
  active := ~~~(exitedFrom (eThreads l.entry) k)
  exited := exitedFrom (eThreads l.entry) k
  uregs := l.values thief item }

theorem addBlock_eq (hslot : ((s.beginOn p lid l).core p).blockSlot = some slot)
    (hplan : ((s.beginOn p lid l).core p).plan (allocOf l.vregs) (groupsFor (eThreads l.entry)) [] = some plan) :
    s.addBlock p lid l num head tail half thief item =
      (upTo (((s.beginOn p lid l).core p).slotsOf plan).length).foldl
        (fun u k => u.modCore p fun c => c.seat ((((s.beginOn p lid l).core p).slotsOf plan).getD k (0, 0)) (l.newGroup lid slot thief item k))
        (({ s.beginOn p lid l with free := (s.beginOn p lid l).free + 1 } : State).modCore p fun c =>
          { c with blocks := tset c.blocks slot (l.newBlock lid num head tail half thief item ((s.beginOn p lid l).free + 1)) }) := by
  unfold State.addBlock
  dsimp only
  rw [hslot, hplan]
  rfl

/-- A block and its groups stand on the core that admits it, and no other core has changed. -/
theorem addBlock_spec (hslot : (s.core p).blockSlot = some slot) (hplan : ((s.core p).plan (allocOf l.vregs) (groupsFor (eThreads l.entry)) []).isSome = true) :
    (∀ q, q ≠ p → (s.addBlock p lid l num head tail half thief item).core q = s.core q) ∧
    (∃ uid, (s.addBlock p lid l num head tail half thief item).blockAt p slot = some (l.newBlock lid num head tail half thief item uid)) ∧
    ∀ k, k < groupsFor (eThreads l.entry) → ∃ g uid, g.core = p ∧
      (s.addBlock p lid l num head tail half thief item).group? g = some (l.newGroup lid slot thief item k uid) := by
  obtain ⟨hbegun, hblocks, hgroups⟩ := beginOn_holdsSame s p lid l
  obtain ⟨plan, hplan⟩ := Option.isSome_iff_exists.1 hplan
  have hslot' := (blockSlot_of_blocks hblocks).trans hslot
  have hplan' := (plan_of_groups hgroups (alloc := allocOf l.vregs) (n := groupsFor (eThreads l.entry)) []).trans hplan
  obtain ⟨hlen, hroomy⟩ := plan_spec (Core.roomy_nil _) hplan'
  rw [List.length_nil, Nat.zero_add] at hlen
  rw [addBlock_eq hslot' hplan', slotsOf_length, hlen]
  generalize hv : (({ s.beginOn p lid l with free := (s.beginOn p lid l).free + 1 } : State).modCore p fun c =>
    { c with blocks := tset c.blocks slot (l.newBlock lid num head tail half thief item ((s.beginOn p lid l).free + 1)) }) = v
  obtain ⟨hself, hother⟩ := core_foldl_modCore p
    (fun k c => c.seat ((((s.beginOn p lid l).core p).slotsOf plan).getD k (0, 0)) (l.newGroup lid slot thief item k)) (upTo (groupsFor (eThreads l.entry))) v
  refine ⟨fun q hq => (hother q hq).trans ?_, ⟨(s.beginOn p lid l).free + 1, ?_⟩, fun k hk => ?_⟩
  · rw [← hv, State.core_modCore_ne _ _ hq]
    exact hbegun q hq
  · unfold State.blockAt
    rw [hself]
    refine (congrArg (tfind · slot) (blocks_seats ..)).trans ?_
    rw [← hv, State.core_modCore_self]
    exact tfind_tset_self ..
  · obtain ⟨uid, hgroup⟩ := seats_group (c := v.core p) (places := ((s.beginOn p lid l).core p).slotsOf plan) (l.newGroup lid slot thief item)
      (fun j k hjk hk => seatKey_ne hroomy hjk (hlen ▸ hk)) hk
    refine ⟨⟨p, ((((s.beginOn p lid l).core p).slotsOf plan).getD k (0, 0)).1, ((((s.beginOn p lid l).core p).slotsOf plan).getD k (0, 0)).2⟩, uid, rfl, ?_⟩
    unfold State.group?
    dsimp only
    rw [hself]
    exact hgroup

/-- The launch values of a group begin with the parameter (R301). -/
theorem values_param (l : Launch) (thief : Bool) (item : Option (List Byte)) :
    tget 0 (l.values thief item) 0 = BitVec.ofNat 32 l.param ∧ tget 0 (l.values thief item) 1 = BitVec.ofNat 32 (l.param / 2 ^ 32) := by
  have hrange : upTo 8 = [0, 1, 2, 3, 4, 5, 6, 7] := rfl
  unfold Launch.values
  rw [hrange]
  simp [List.foldl_cons]

end

end Sys2Proof.Machine
end

section
namespace Sys2Proof.Machine

/-! Placement of the next block (R98, R223). -/

section
variable {s : State} {lid slot : Nat} {l : Launch} {x : Nat × Nat × Nat}

/-- An element with the least key of all is the one chosen. -/
theorem argmin_least {α : Type} {f : α → Nat} {xs : List α} {a : α} (ha : a ∈ xs) (h : ∀ b ∈ xs, b = a ∨ f a < f b) : argmin f xs = some a := by
  induction xs with
  | nil => cases ha
  | cons y ys ih =>
    unfold argmin
    by_cases hys : a ∈ ys
    · rw [ih hys fun b hb => h b (List.mem_cons_of_mem _ hb)]
      dsimp only
      rcases h y (List.mem_cons_self ..) with rfl | hlt
      · rw [if_neg (Nat.lt_irrefl _)]
      · rw [if_pos hlt]
    · obtain rfl : a = y := (List.mem_cons.1 ha).resolve_right hys
      cases hmin : argmin f ys with
      | none => rfl
      | some b =>
        have hb := argmin_mem hmin
        have hlt := (h b (List.mem_cons_of_mem _ hb)).resolve_left fun he => hys (he ▸ hb)
        dsimp only
        rw [if_neg (by omega)]

theorem argmin_filterMap {α β : Type} {f : α → Nat} {F : β → Option α} {ds : List β} {d : β} {a : α} (hd : d ∈ ds) (ha : F d = some a)
    (h : ∀ d b, F d = some b → b = a ∨ f a < f b) : argmin f (ds.filterMap F) = some a :=
  argmin_least (List.mem_filterMap.2 ⟨d, hd, ha⟩) fun b hb => (List.mem_filterMap.1 hb).elim fun d hd => h d b hd.2

theorem placeable_of_placing (h : Placing s lid l) : s.placeable lid = some l := by
  obtain ⟨hlaunch, hkernel, hphase, hfail, hhung⟩ := h
  unfold State.placeable
  rw [hlaunch]
  dsimp only
  rw [hkernel, hphase, hfail, hhung]
  rfl

theorem coreRank_plain (s : State) (hrt : l.rt = false) (y : Nat × Nat × Nat) : s.coreRank l y = (s.core y.2.1).blocks.length * 2 ^ 20 + y.1 := by
  unfold State.coreRank
  rw [hrt, Bool.false_and, if_neg Bool.false_ne_true, Nat.zero_add]

/-- Core `x` is the first by rank of those in `cores` with room for a block of the launch, and each of these has its split. -/
def FirstOf (s : State) (l : Launch) (x : Nat × Nat × Nat) (cores : List (Nat × Nat × Nat)) : Prop :=
  ∀ y ∈ cores, (s.core y.2.1).admits l = true → (s.core y.2.1).split = l.split ∧ (y = x ∨ s.coreRank l x < s.coreRank l y)

theorem pickCore_first {cores : List (Nat × Nat × Nat)} (hx : x ∈ cores) (hadmits : (s.core x.2.1).admits l = true) (hfirst : FirstOf s l x cores) :
    s.pickCore l cores = some x :=
  argmin_least (List.mem_filter.2 ⟨hx, hadmits⟩) fun y hy => (hfirst y (List.mem_filter.1 hy).1 (List.mem_filter.1 hy).2).2

theorem pickCore_mem {cores : List (Nat × Nat × Nat)} (h : s.pickCore l cores = some x) : x ∈ cores ∧ (s.core x.2.1).admits l = true :=
  List.mem_filter.1 (argmin_mem h)

/-- Core `x` takes the next block of a launch that no channel feeds. -/
def State.nextBlockOn (s : State) (lid : Nat) (l : Launch) (x : Nat × Nat × Nat) : State :=
  s.addBlock x.2.1 lid l l.nextBlk 0 (eTiles l.entry) false false none

theorem placeCluster_one {cores : List (Nat × Nat × Nat)} (hfed : eChfed l.entry = false) (hpick : s.pickCore l cores = some x) :
    s.placeCluster lid l false cores 1 l.nextBlk = some (decide ((s.core x.2.1).split = l.split), s.nextBlockOn lid l x) := by
  unfold State.placeCluster
  rw [hpick, hfed]
  dsimp only
  rw [if_neg Bool.false_ne_true]
  unfold State.placeCluster
  rw [Option.map_some, Bool.and_true]
  rfl

theorem placeNext_first (hfed : eChfed l.entry = false) (hcluster : eCluster l.entry = 1) (hleft : l.nextBlk < l.blocks) (hx : x ∈ s.coresFor l false)
    (hdie : dieOfPhys x.2.1 < 4) (hadmits : (s.core x.2.1).admits l = true) (hfirst : FirstOf s l x (s.coresFor l false)) :
    s.placeNext lid l false = some ((s.nextBlockOn lid l x).modLaunch lid fun y => { y with nextBlk := l.nextBlk + 1 }) := by
  have hfilter : ∀ d, FirstOf s l x ((s.coresFor l false).filter fun y => dieOfPhys y.2.1 == d) := fun d y hy => hfirst y (List.mem_filter.1 hy).1
  have hpick : s.pickCore l ((s.coresFor l false).filter fun y => dieOfPhys y.2.1 == dieOfPhys x.2.1) = some x :=
    pickCore_first (List.mem_filter.2 ⟨hx, beq_self_eq_true _⟩) hadmits (hfilter _)
  have hsplit : decide ((s.core x.2.1).split = l.split) = true := decide_eq_true (hfirst x hx hadmits).1
  unfold State.placeNext
  dsimp only [Launch.nextOf]
  rw [hcluster, hfed, if_neg Bool.false_ne_true, if_neg Bool.false_ne_true, if_pos (Nat.succ_le_of_lt hleft),
    argmin_filterMap (a := (s.coreRank l x, true, s.nextBlockOn lid l x)) (show dieOfPhys x.2.1 ∈ upTo 4 from List.mem_range.2 hdie)]
  · rfl
  · rw [placeCluster_one hfed hpick, hpick, hsplit]
  · intro d e hd
    cases hy : s.pickCore l ((s.coresFor l false).filter fun y => dieOfPhys y.2.1 == d) with
    | none =>
      rw [hy] at hd
      cases hd
    | some y =>
      rw [placeCluster_one hfed hy, hy] at hd
      obtain rfl := Option.some.inj hd
      obtain ⟨hmem, hyadmits⟩ := pickCore_mem hy
      rcases (hfilter d y hmem hyadmits).2 with rfl | hlt
      · exact .inl (by rw [hsplit])
      · exact .inr hlt

theorem plan_of_admits {c : Core} (h : c.admits l = true) : (c.plan (allocOf l.vregs) (groupsFor (eThreads l.entry)) []).isSome = true := (Bool.and_eq_true_iff.1 h).2

theorem blockPlace_result (hplacing : Placing s lid l) (hfed : eChfed l.entry = false) {t : State} (hnext : s.placeNext lid l false = some t) :
    exec (.blockPlace lid) s = .next t := by
  have hplaceable := placeable_of_placing hplacing
  show execBlockPlace lid s = _
  unfold execBlockPlace
  rw [hplaceable]
  dsimp only
  rw [if_neg fun h => Bool.false_ne_true (hfed.symm.trans h.1), hplaceable]
  dsimp only
  rw [hnext]
  rfl

theorem block_is_placed (hplacing : Placing s lid l) (hfed : eChfed l.entry = false) (hrt : l.rt = false) (hcluster : eCluster l.entry = 1) (hleft : l.nextBlk < l.blocks)
    (hx : x ∈ s.coresFor l false) (hdie : dieOfPhys x.2.1 < 4) (hadmits : (s.core x.2.1).admits l = true) (hslot : (s.core x.2.1).blockSlot = some slot)
    (hleast : ∀ y ∈ s.coresFor l false, (s.core y.2.1).admits l = true → (s.core y.2.1).split = l.split ∧ y.1 < 2 ^ 20 ∧
      (y = x ∨ (s.core x.2.1).blocks.length < (s.core y.2.1).blocks.length ∨ ((s.core x.2.1).blocks.length = (s.core y.2.1).blocks.length ∧ x.1 < y.1))) :
    Does (.blockPlace lid) s [.free, .regs, .cores, .launches, .dbg] fun t =>
      t.launch? lid = some { l with nextBlk := l.nextBlk + 1 } ∧
      (∃ b, t.blockAt x.2.1 slot = some b ∧ b.launch = lid ∧ b.run = l.run ∧ b.num = l.nextBlk ∧ b.threads = eThreads l.entry ∧ b.lsBytes = 1024 * l.lskib ∧
        b.head = 0 ∧ b.tail = eTiles l.entry ∧ b.ended = false ∧ b.ls = []) ∧
      (∀ k, k < groupsFor (eThreads l.entry) → ∃ g, g.core = x.2.1 ∧ GroupAt g t fun y => y.block = slot ∧ y.gnum = k ∧ y.launch = lid ∧ y.pc = l.code ∧
        y.nregs = l.vregs ∧ y.exited = exitedFrom (eThreads l.entry) k ∧ y.active = ~~~(exitedFrom (eThreads l.entry) k) ∧ y.vregs = [] ∧ y.preds = [] ∧
        y.ur 0 = BitVec.ofNat 32 l.param ∧ y.ur 1 = BitVec.ofNat 32 (l.param / 2 ^ 32) ∧ y.wait = .none) ∧
      ∀ q, q ≠ x.2.1 → t.core q = s.core q := by
  have hfirst : FirstOf s l x (s.coresFor l false) := fun y hy hyadmits => by
    obtain ⟨_, hxlow, _⟩ := hleast x hx hadmits
    obtain ⟨hsplit, hlow, hrank⟩ := hleast y hy hyadmits
    refine ⟨hsplit, hrank.imp_right fun hrank => ?_⟩
    rw [coreRank_plain s hrt, coreRank_plain s hrt]
    omega
  have hnext := placeNext_first (lid := lid) hfed hcluster hleft hx hdie hadmits hfirst
  refine .intro (blockPlace_result hplacing hfed hnext) (chg_placeNext hnext).1 ?_
  obtain ⟨hother, ⟨uid, hblock⟩, hgroups⟩ := addBlock_spec (lid := lid) (num := l.nextBlk) (head := 0) (tail := eTiles l.entry) (half := false) (thief := false) (item := none)
    hslot (plan_of_admits hadmits)
  have hlaunch : (s.nextBlockOn lid l x).launch? lid = some l := ((chg_addBlock ..).1.launch_eq (by decide) lid).trans hplacing.1
  have hcore := core_modLaunch (s.nextBlockOn lid l x) lid fun y => { y with nextBlk := l.nextBlk + 1 }
  obtain ⟨hparam, hparam'⟩ := values_param l false none
  refine ⟨launch_modLaunch_self hlaunch _, ⟨_, (blockAt_of_blocks (congrArg Core.blocks (hcore _)) slot).trans hblock, rfl, rfl, rfl, rfl, rfl, rfl, rfl, rfl, rfl⟩, fun k hk => ?_,
    fun q hq => (hcore q).trans (hother q hq)⟩
  obtain ⟨g, uid, hg, hgroup⟩ := hgroups k hk
  exact ⟨g, hg, _, (group_of_core (hcore g.core)).trans hgroup, rfl, rfl, rfl, rfl, rfl, rfl, rfl, rfl, rfl, hparam, hparam', rfl⟩

end

/-! Stealing (R225). -/

section
variable {s : State} {lid p slot k : Nat} {l : Launch} {b : Block} {x : Nat × Nat × Nat}

/-- Where a thief's range begins: it takes the upper half of what is left. -/
def Block.mid (b : Block) : Nat := b.tail - (b.tail - b.head) / 2

/-- The victim keeps the lower half of its range. -/
def State.halved (s : State) (p slot : Nat) (b : Block) : State := s.modCore p fun c => { c with blocks := tset c.blocks slot { b with tail := b.mid } }

/-- The thief's block takes the upper half. -/
def State.thiefOn (s : State) (lid : Nat) (l : Launch) (p slot : Nat) (b : Block) (q : Nat) : State :=
  (s.halved p slot b).addBlock q lid l b.num b.mid b.tail false true b.item

theorem thief_result (hvictim : pickVictim (s.victims lid l false) = some (p, slot, b))
    (hpick : s.pickCore l ((s.coresFor l false).filter fun x => (s.core x.2.1).blocks == []) = some x) (hsplit : (s.core x.2.1).split = l.split) :
    s.thief lid l false = some (((s.thiefOn lid l p slot b x.2.1).modLaunch lid fun y => { y with thieves := y.thieves + 1 }).pmEvent x.2.1 evThief l.part 1) := by
  unfold State.thief
  rw [hvictim, hpick]
  dsimp only
  rw [if_pos hsplit]
  rfl

theorem thiefStart_result (hplacing : Placing s lid l) (hplaced : l.placed = true) (hcluster : eCluster l.entry = 1)
    (hstage : ((s.ent l.part).stages.getD l.stage (0, false)).2 = false) {t : State} (hthief : s.thief lid l false = some t) : exec (.thiefStart lid) s = .next t := by
  have hsteals : (l.placed && s.steals l) = true := by
    unfold State.steals
    rw [hplaced, hcluster, hstage]
    rfl
  show execThiefStart lid s = _
  unfold execThiefStart
  rw [placeable_of_placing hplacing]
  dsimp only
  rw [if_pos hsteals, hthief]
  rfl

theorem thief_starts (hplacing : Placing s lid l) (hplaced : l.placed = true) (hcluster : eCluster l.entry = 1)
    (hstage : ((s.ent l.part).stages.getD l.stage (0, false)).2 = false) (hvictim : pickVictim (s.victims lid l false) = some (p, slot, b))
    (hb : tfind (s.core p).blocks slot = some b) (hpick : s.pickCore l ((s.coresFor l false).filter fun x => (s.core x.2.1).blocks == []) = some x)
    (hsplit : (s.core x.2.1).split = l.split) (hslot : (s.core x.2.1).blockSlot = some k) :
    Does (.thiefStart lid) s [.free, .regs, .cores, .launches, .dbg] fun t =>
      t.blockAt p slot = some { b with tail := b.tail - (b.tail - b.head) / 2 } ∧
      (∃ y, t.blockAt x.2.1 k = some y ∧ y.thief = true ∧ y.num = b.num ∧ y.head = b.tail - (b.tail - b.head) / 2 ∧ y.tail = b.tail ∧ y.launch = lid) ∧
      t.launch? lid = some { l with thieves := l.thieves + 1 } := by
  have hthief := thief_result hvictim hpick hsplit
  refine .intro (thiefStart_result hplacing hplaced hcluster hstage hthief) (chg_thief hthief).1 ?_
  obtain ⟨hmem, hadmits⟩ := pickCore_mem hpick
  have hempty := (List.mem_filter.1 hmem).2
  have hne : x.2.1 ≠ p := fun h => by
    rw [h] at hempty
    cases hblocks : (s.core p).blocks with
    | nil =>
      rw [hblocks] at hb
      cases hb
    | cons e es =>
      rw [hblocks] at hempty
      cases hempty
  have hthere : (s.halved p slot b).core x.2.1 = s.core x.2.1 := State.core_modCore_ne _ _ hne
  obtain ⟨hother, ⟨uid, hblock⟩, _⟩ := addBlock_spec (s := s.halved p slot b) (p := x.2.1) (lid := lid) (num := b.num) (head := b.mid) (tail := b.tail) (half := false)
    (thief := true) (item := b.item) (hthere ▸ hslot) (hthere ▸ plan_of_admits hadmits)
  have hlaunch : (s.thiefOn lid l p slot b x.2.1).launch? lid = some l :=
    (((chg_addBlock ..).1.launch_eq (by decide) lid).trans ((chg_modCore ..).1.launch_eq (by decide) lid)).trans hplacing.1
  have hcore := fun q => ((chg_pmEvent ((s.thiefOn lid l p slot b x.2.1).modLaunch lid fun y => { y with thieves := y.thieves + 1 }) x.2.1 evThief l.part 1).1.core_eq
    (by decide) q).trans (core_modLaunch ..)
  refine ⟨?_, ⟨_, (blockAt_of_blocks (congrArg Core.blocks (hcore _)) k).trans hblock, rfl, rfl, rfl, rfl, rfl⟩,
    ((chg_pmEvent ..).1.launch_eq (by decide) lid).trans (launch_modLaunch_self hlaunch _)⟩
  unfold State.blockAt
  rw [hcore, State.thiefOn, hother p hne.symm, State.halved, State.core_modCore_self]
  exact tfind_tset_self ..

end

theorem blocksArePlacedAndSplit : BlocksArePlacedAndSplit :=
  ⟨fun _ _ _ _ _ hplacing hfed _ => block_is_placed hplacing hfed, fun _ _ _ _ _ _ _ _ hplacing hplaced _ => thief_starts hplacing hplaced⟩

/-- Settles O27: what each scheduler command and each placement leaves, a block's groups having different places. -/
theorem blocksAndGroupsArePlaced : Obligations.BlocksAndGroupsArePlaced := ⟨schedulersAndSplitsChange, blocksArePlacedAndSplit⟩

end Sys2Proof.Machine
end
